-- ==== Sys2Proof/Word.lean ====
section
/-! DEFINITION. The word types of the TV8 model and their plainest arithmetic.
Quantities that the manual only counts or compares (addresses, lengths, ids, fields) are `Nat`;
a byte of memory is a `Byte` (R4: every multi-byte field is little-endian, see `Machine/Bits.lean`). -/

namespace Sys2Proof

/-- One byte of memory. -/
abbrev Byte := BitVec 8

/-- A 32-bit register. -/
abbrev Word32 := BitVec 32

/-- A 64-bit register. -/
abbrev Word64 := BitVec 64

end Sys2Proof
end

