-- ==== Sys2Proof/Syntax.lean ====
section
/-! DEFINITION. The commands of the block: one constructor of `Instr` for each row of the table of
operations and events, with the plain data its operands are made of. A row that runs a ring command names the
accepted command by its handle; a row that is an occurrence outside the block carries what occurred. -/

namespace Sys2Proof

/-- A 64-byte command packet, field by field (R245). -/
structure Packet where
  opcode     : Nat
  job        : Nat
  layer      : Nat
  operator   : Nat
  seq        : Nat
  epoch      : Nat
  waitLock   : Nat
  waitThresh : Nat
  sigLock    : Nat
  sigInc     : Nat
  slots      : List Nat
  deriving DecidableEq, Repr

/-- A unit in which an internal error can arise (R473), or that a test names (R321). -/
inductive HwUnit where
  | core    (k : Nat)          -- global core index die * 64 + cluster * 16 + core (R29)
  | root    (i : Nat)          -- die * 8 + 2 * cluster + r
  | move    (i : Nat)          -- die * 16 + 4 * cluster + m
  | basin   (i : Nat)          -- die * 4 + tier
  | pchan   (i : Nat)          -- stack * 64 + pseudo-channel
  | port    (p : Nat)
  | hamir   (die t : Nat)
  | shared  (die : Nat)        -- die-shared logic
  | d2d     (a b : Nat)        -- the die-to-die port between two dies (8, 9: the wharf dies)
  | wharf   (k : Nat)
  | mgmt
  deriving DecidableEq, Repr

/-- The agent of a register access, which decides the window it is served through. -/
inductive Via where
  | sessionPage (slot : Nat)   -- BAR2, the page of a session (R380)
  | privMap                    -- BAR4 (R381)
  | bar0                       -- BAR0 (R378)
  | hamir (die : Nat)          -- a Hamir core of a compute die
  | i3c                        -- the management bus (R518)
  deriving DecidableEq, Repr

/-- The header of a Towpath message (R337), with the outcome of its authentication (R353). -/
structure MsgHdr where
  dst   : Nat
  hops  : Nat
  src   : Nat
  typ   : Nat
  tc    : Nat
  job   : Nat
  seq   : Nat
  runs  : Nat
  ctx   : Nat
  len   : Nat
  gen   : Nat
  count : Nat
  tagOk : Bool
  deriving DecidableEq, Repr

/-- A flit as received (R333). -/
structure Flit where
  seq     : Nat
  ack     : Nat
  kind    : Nat
  tc      : Nat
  payload : List Byte
  crc     : Nat
  deriving DecidableEq, Repr

/-- The record that a control flit carries (R335). -/
structure CreditRec where
  freed : List Nat
  nak   : Option Nat
  deriving DecidableEq, Repr

/-- One credential of the configuration record (R403). -/
structure Credential where
  id     : List Byte
  pake   : Bool
  priv   : Bool
  secret : List Byte
  deriving DecidableEq, Repr

/-- The header of a signed object together with the outcome of its signature checks (R400, R401). -/
structure SignedObj where
  wellFormed : Bool
  kind       : Nat
  raiseFloor : Bool
  svn        : Nat
  sequence   : Nat
  signer     : List Byte       -- SHA-384 of the key record
  hashOk     : Bool            -- PAYLOAD_HASH matches
  signerOk   : Bool            -- SIGNER matches the key record
  rsaOk      : Bool
  slhOk      : Bool
  level      : Nat             -- first 4 payload bytes: interface level (R487)
  hash       : List Byte       -- SHA-384 of header bytes 0-127
  deriving DecidableEq, Repr

/-- What a configuration record sets (R35, R235, R324, R339, R347, R385, R393, R403, R504). -/
structure ConfigRecord where
  obj         : SignedObj
  rkHashOk    : Bool           -- the record is wrapped for this module (R403)
  peerId      : Nat
  basinPound  : Nat            -- MiB
  hbmPound    : Nat            -- GiB
  hdmBase     : Nat
  hdmSizeGib  : Nat
  ideRequired : Bool
  peer0Mode   : Bool           -- keeper mode: true = peer 0, false = strap (R347)
  successors  : List Nat
  routes      : List (Nat × Nat)
  ports       : List Nat       -- ports enabled
  credentials : List Credential
  testPeriod  : Nat            -- rotation period of unit tests, ns (R324)
  calPeriod   : Nat            -- rotation period of calibrations, ns (R324)
  deriving DecidableEq, Repr

/-- The pound sizes that R235 allows: 256 to 2,048 MiB in steps of 64, and 1 to 32 GiB. -/
def ConfigRecord.poundsOk (r : ConfigRecord) : Bool :=
  decide (256 ≤ r.basinPound) && decide (r.basinPound ≤ 2048) && r.basinPound % 64 == 0 && decide (1 ≤ r.hbmPound) && decide (r.hbmPound ≤ 32)

/-- How a scrub read found its word (R242). -/
inductive ScrubFinding where
  | clean
  | corrected
  | uncorrectable
  deriving DecidableEq, Repr

/-- Why the CXL link goes down (R394). -/
inductive LinkCause where
  | linkDown
  | cxlReset
  | perst
  | removal
  | ideFailure
  deriving DecidableEq, Repr

/-- One measurement of the input (R494, R497): millivolts, units of 10 mA, and power averages in W. -/
structure InputMeas where
  mV       : Nat
  cA       : Nat
  avg100us : Nat
  avg1ms   : Nat
  avg10ms  : Nat
  avg1s    : Nat
  /-- ns for which the input has been in the band of `mV` (R494's durations) -/
  bandNs   : Nat
  /-- ns for which the input current has been above 195 A -/
  overNs   : Nat
  /-- a regulator has left regulation -/
  regFault : Bool
  deriving DecidableEq, Repr

/-- The levels at which boundary cells find the pins that the board drives (R513, R514, R523): PERST#, the lines of the management bus, the
clocks, and the RX pairs of Towpath and CXL, one bit for each lane. -/
structure BoardPins where
  perst  : Bool
  scl    : Bool
  sda    : Bool
  refclk : Bool
  refTp  : Bool
  towRx  : BitVec 144
  cxlRx  : BitVec 16
  deriving DecidableEq, Repr

/-- The boundary cells that can drive (R523): FAULT_N and the TX pairs of Towpath and CXL. -/
structure DriveCells where
  faultN : Bool
  towTx  : BitVec 144
  cxlTx  : BitVec 16
  deriving DecidableEq, Repr

/-- How the test of a unit ends (R323), and the lanes of a port that passed (R371). -/
structure TestOutcome where
  pass  : Bool
  lanes : Nat
  deriving DecidableEq, Repr

/-- One item of a staged mode (R314). -/
structure ModeItem where
  item  : Nat
  value : Nat
  deriving DecidableEq, Repr

/-- One constructor for each row of `spec/opcode_table.json`, in the table's order. -/
inductive Instr where
  -- class 0x1
  | fwd (c : Nat) | dgrad (c : Nat) | wgrad (c : Nat) | wgradRowmask (c : Nat) | wgradBlkmask (c : Nat)
  | cov (c : Nat) | flightPush (c : Nat) | flightPop (c : Nat) | flightInit (c : Nat)
  -- class 0x2
  | add (c : Nat) | sub (c : Nat) | mul (c : Nat) | div (c : Nat) | fma (c : Nat) | max (c : Nat) | min (c : Nat)
  | abs (c : Nat) | sqrt (c : Nat) | rsqrt (c : Nat) | recip (c : Nat) | exp (c : Nat) | exp2 (c : Nat)
  | log (c : Nat) | log2 (c : Nat) | tanh (c : Nat) | sigmoid (c : Nat) | erf (c : Nat) | convert (c : Nat)
  | resAdd (c : Nat) | sumRows (c : Nat) | maxRows (c : Nat) | minRows (c : Nat) | dotRows (c : Nat)
  | norm2Rows (c : Nat) | softmaxRows (c : Nat)
  -- classes 0x3, 0x4, 0x5
  | fsetInit (c : Nat) | fsetAdvance (c : Nat) | fsetRefresh (c : Nat)
  | rootNewton (c : Nat) | rootChol (c : Nat) | cholFactor (c : Nat)
  | rootDeadline (c : Nat) (done iters : Nat) (started : Bool)
  | solveCg (c : Nat) | solvePcg (c : Nat) | solveBicgstab (c : Nat)
  | solveDeadline (c : Nat) (done iters : Nat) (started : Bool)
  -- class 0x6
  | updFirst (c : Nat) | updDiag (c : Nat) | updPrecond (c : Nat) | shardInit (c : Nat) | schedLoad (c : Nat)
  | gather (c : Nat) | digestCheck (c : Nat)
  -- class 0x7
  | copy (c : Nat) | convertBarge (c : Nat) | fill (c : Nat)
  | resPoolInit (c : Nat) | resCreate (c : Nat) | resPromote (c : Nat) | resEvict (c : Nat) | resPin (c : Nat)
  | resUnpin (c : Nat) | resDestroy (c : Nat) | pfStart (c : Nat) | pfStop (c : Nat) | pfResume (c : Nat)
  | prefetchIssue (sched : Nat) | promotionCommit (c : Nat) | promotionResume (c : Nat) | poundDrain (die : Nat)
  -- class 0x8
  | lkSignal (c : Nat) | lkSet (c : Nat) | lkRead (c : Nat) | lkNop (c : Nat)
  -- class 0x9
  | allReduce (c : Nat) | reduceScatter (c : Nat) | allGather (c : Nat) | broadcast (c : Nat)
  | reduceToOwner (c : Nat) | globalNorm (c : Nat) | permute (c : Nat) | barrier (c : Nat)
  | collectiveDeadline (c : Nat) | permuteFlip (c : Nat)
  -- class 0xA
  | censusSetup (c : Nat) | censusStop (c : Nat) | watchSetup (c : Nat) | watchStop (c : Nat)
  | twatchSetup (c : Nat) | twatchStop (c : Nat)
  -- class 0xE
  | testCore (c : Nat) | testRoot (c : Nat) | testMove (c : Nat) | testBasin (c : Nat) | calHbm (c : Nat)
  | calPort (c : Nat) | testResult (unit : HwUnit) (outcome : TestOutcome) | testRotation (unit : HwUnit)
  -- class 0xF
  | jobSubmit (c : Nat) | jobEnd (c : Nat) | jobSuspend (c : Nat) | jobResume (c : Nat) | cmdAbort (c : Nat)
  | lockGrant (c : Nat) | lockRelease (c : Nat) | loanGrant (c : Nat) | loanReturn (c : Nat)
  | hostbufReg (c : Nat) | hostbufUnreg (c : Nat) | modeStage (c : Nat) | dieFence (c : Nat)
  | dieUnfence (c : Nat) (failed : List HwUnit) | fwUpdate (c : Nat) (obj : SignedObj) (resumeFails : List Nat)
  | checkpoint (c : Nat) | shardCopy (c : Nat) | dumpBuffer (c : Nat) | attest (c : Nat)
  -- the command's path
  | ringFetch (ring : Nat) | commandStart (c : Nat) | commitPoint (c : Nat) | publicationComplete (c : Nat)
  | preemption (die : Nat) | contextResume (die ctx : Nat)
  -- staged modes
  | modeAckTimeout (chg : Nat) | stagedModeExpiry (chg : Nat) | modeStartHold (chg : Nat) | modeApply (chg : Nat)
  | powerChangeRetry
  -- mailbox
  | sesPskStart (input : List Byte) | sesPskFinish (input : List Byte)
  | sesPakeStart (input : List Byte) | sesPakeFinish (input : List Byte)
  | sesClose (input : List Byte) | sessionSlotExpiry (slot : Nat)
  | jobLink (input : List Byte) | ownerEnroll (input : List Byte) | ownerRelease (input : List Byte)
  | debugUnlock (input : List Byte) | idCerts (input : List Byte) | sesExport (input : List Byte)
  | ringBind (input : List Byte) | ringUnbind (input : List Byte) | hdmBind (input : List Byte)
  | hdmUnbind (input : List Byte) | privMap (input : List Byte) | eventRead (input : List Byte)
  -- host link
  | spdmRequest (request : List Byte) | configRequest (offset : Nat) (write : Option Nat)
  | hdmRead (off len : Nat) | hdmWrite (off : Nat) (data : List Byte) | snoop (addr : Nat)
  | cxlLinkDown (cause : LinkCause) | cxlLinkUp (width rate : Nat) (ide : Bool)
  -- registers
  | ringCfg (via : Via) (ring value : Nat) | ringTail (via : Via) (ring value : Nat)
  | registerWrite (via : Via) (off width value : Nat) | registerReadClear (via : Via) (off width : Nat)
  -- signal controller (die 0-7 compute, 8 and 9 the wharf dies)
  | sicTake (die target source : Nat) (own : Bool) | sicEoi (die target source : Nat)
  | sicPendSet (die w value : Nat) | sicPendClr (die w value : Nat)
  | sicEnSet (die w value : Nat) | sicEnClr (die w value : Nat)
  | sicSrcCfg (die source value : Nat) | sicSrcMod (die source value : Nat) | sicTgtCtrl (die target value : Nat)
  | sourceFire (die source : Nat) | moderationTimer (die source : Nat) | targetIdle (die target : Nat)
  -- counters and trace
  | cntCtrl (die value : Nat) | cntClear (die value : Nat) | counterFreeze (die : Nat)
  | trCtrl (die value : Nat) | trTrigNow (die value : Nat) | trMark (die value : Nat)
  -- Towpath ports
  | portCtrl (port value : Nat) | portCredit (port value : Nat)
  | flitReceive (port : Nat) (flit : Flit) | controlFlit (port : Nat) (ack : Nat) (cr : CreditRec)
  | controlFlitTimer (port : Nat) | laneFailure (port lane : Nat)
  | portTrainingDone (port lanes farPeer : Nat) | portRetrain (port : Nat) | messageForward (port : Nat) (m : MsgHdr)
  -- Towpath messages received
  | readReq (m : MsgHdr) (addr len : Nat) (engine : Bool) | readResp (m : MsgHdr) (addr : Nat) (data : List Byte)
  | write (m : MsgHdr) (addr : Nat) (data : List Byte) | collData (m : MsgHdr) (group stream round : Nat) (data : List Byte)
  | stagedAck (m : MsgHdr) | commit (m : MsgHdr) | cancel (m : MsgHdr)
  | lockSignal (m : MsgHdr) (lock amount : Nat)
  | collJoin (m : MsgHdr) (group stream round op : Nat) (twice : Bool)
  | collSet (m : MsgHdr) (group stream round count : Nat) (set : List Nat)
  | collLate (m : MsgHdr) (group stream round count : Nat) (result : List Byte)
  | collFlip (m : MsgHdr) (group stream round tFlip : Nat)
  | authNak (m : MsgHdr) | time (m : MsgHdr) (port now hops : Nat) | pdelay (m : MsgHdr) (port delay : Nat)
  | announce (m : MsgHdr) (listCrc : Nat) | hello (m : MsgHdr) (port : Nat) | heartbeat (m : MsgHdr)
  | member (m : MsgHdr) (table : List (Nat × Nat)) | lost (m : MsgHdr) (peer : Nat)
  | stage (m : MsgHdr) (scope job epoch barrier : Nat) (items : List ModeItem) (peers : List Nat)
  | ack (m : MsgHdr) (chg place : Nat)
  | openMsg (m : MsgHdr) (chg tApply : Nat) | discard (m : MsgHdr) (chg : Nat) | loanEnd (m : MsgHdr)
  | announceTimer | timeTimer | pdelayTimer (port : Nat) | heartbeatTimer | peerLost (peer : Nat) | timeUnlocked
  -- memory and unit errors
  | scrubRead (addr : Nat) (finding : ScrubFinding) | unitInternalError (unit : HwUnit) | fatalError (cause : Nat)
  -- power, reset, start-up
  | inputSample (m : InputMeas) | temperatureSample (sensor : Nat) (hbm : Bool) (tenths : Int) (coolSince : Nat)
  | pwrEnAssert | powerGood | pwrEnDeassert | shutdownTimeout | standbyEntered | inputLoss
  | modResetN (level : Bool) | moduleReset | standby
  | i3cReadPointer (offset : Nat) | dynamicAddressAssignment (addr : Nat)
  | configVerified (fw : Option SignedObj) (rec : Option ConfigRecord) | imageVerified (img : Option SignedObj)
  | diesReleased (puf0 puf1 : Bool) | hbmTrainingDone (failedStacks : List Nat)
  | selfTestDone (failed : List HwUnit) | initialisationDone | towpathResolved
  -- TAP
  | extest | samplePreload
  | idcode | highz | clamp
  | extestPulse | extestTrain
  | dbgSelect (die : Nat) | dbgAccess | bypass | trstN
  -- the rest of the table
  | hdmDecoderCommit (ways hpa : Nat) | pwrCtrl (via : Via) (value : Nat) | hotSwapRetry | testLogicReset
  | hbmInterfaceLost (stack : Nat)
  deriving DecidableEq, Repr

end Sys2Proof
end

