-- ==== Sys2Proof/Decode.lean ====
section
/-! DEFINITION. What a word spells. The table of operations and events gives bits to none of its rows: the block is
commanded by whole steps, not by words, so no word spells a command. -/

namespace Sys2Proof

/-- The command that a word of `nbits` bits spells by the table: none, as no row has bits. -/
def decodeTableWord (_nbits _w : Nat) : Option Instr := none

end Sys2Proof
end

