-- ==== Sys2Proof/Machine/Bits.lean ====
section
/-! DEFINITION. Bit fields, byte order (R4), sparse tables in canonical form, and the CRCs the manual defines. -/

set_option cleanup.letToHave false

namespace Sys2Proof.Machine

/-- Bits [lo + w - 1 : lo] of a number (R4). -/
def fld (x lo w : Nat) : Nat := (x >>> lo) % 2 ^ w

/-- Bit [i] of a number. -/
def bit (x i : Nat) : Bool := (x >>> i) % 2 = 1

/-- 1 for true. -/
def b2n (b : Bool) : Nat := if b then 1 else 0

/-- `x` with bits [lo + w - 1 : lo] replaced by the low bits of `v`. -/
def setFld (x lo w v : Nat) : Nat := x - (fld x lo w <<< lo) + ((v % 2 ^ w) <<< lo)

/-- `x` with bit [i] set or cleared. -/
def setBit (x i : Nat) (b : Bool) : Nat := setFld x i 1 (b2n b)

/-- ⌈a / b⌉. -/
def ceilDiv (a b : Nat) : Nat := (a + b - 1) / b

/-- `a` rounded up to a multiple of `b`. -/
def roundUp (a b : Nat) : Nat := ceilDiv a b * b

/-- The signed value of a `w`-bit number. -/
def signedOf (w x : Nat) : Int := if x % 2 ^ w < 2 ^ (w - 1) then (x % 2 ^ w : Nat) else (x % 2 ^ w : Nat) - (2 ^ w : Nat)

/-- The `w`-bit code of an integer (two's complement). -/
def codeOf (w : Nat) (i : Int) : Nat := (i % (2 ^ w : Nat)).toNat

/-- A number from its little-endian bytes (R4). -/
def leNat : List Byte → Nat
  | [] => 0
  | b :: bs => b.toNat + 256 * leNat bs

/-- The `n` little-endian bytes of a number (R4). -/
def leBytes : Nat → Nat → List Byte
  | 0, _ => []
  | n + 1, x => BitVec.ofNat 8 x :: leBytes n (x / 256)

/-- The little-endian field of `n` bytes at byte `o` of a structure. -/
def fieldAt (bs : List Byte) (o n : Nat) : Nat := leNat ((bs.drop o).take n)

/-- True if `n` bytes from byte `o` are all zero. -/
def zeroAt (bs : List Byte) (o n : Nat) : Bool := ((bs.drop o).take n).all (· == 0)

/-- `n` zero bytes. -/
def zeros (n : Nat) : List Byte := List.replicate n 0

/-- ASCII text as bytes. -/
def ascii (t : String) : List Byte := t.toList.map (fun ch => BitVec.ofNat 8 ch.toNat)

/-- A list cut or padded with zero bytes to `n` bytes. -/
def fitBytes (n : Nat) (bs : List Byte) : List Byte := bs.take n ++ zeros (n - bs.length)

-- sparse tables ------------------------------------------------------------------------------------------------

/-- The entry of a table at an index; the default where none is listed. -/
def tget {α : Type} (d : α) : List (Nat × α) → Nat → α
  | [], _ => d
  | (k, v) :: r, i => if k = i then v else tget d r i

/-- The entry listed at an index. -/
def tfind {α : Type} : List (Nat × α) → Nat → Option α
  | [], _ => none
  | (k, v) :: r, i => if k = i then some v else tfind r i

/-- A table of present objects with one put at an index. -/
def tput {α : Type} : List (Nat × α) → Nat → α → List (Nat × α)
  | [], i, x => [(i, x)]
  | (k, v) :: r, i, x =>
    if k < i then (k, v) :: tput r i x
    else if k = i then (i, x) :: r
    else (i, x) :: (k, v) :: r

/-- A table with the entry at an index removed. -/
def tdel {α : Type} (t : List (Nat × α)) (i : Nat) : List (Nat × α) := t.filter (fun e => !(e.1 == i))

/-- A table with the entry at an index replaced; an entry equal to the default is not listed, and indexes rise. -/
def tset {α : Type} [DecidableEq α] (d : α) (t : List (Nat × α)) (i : Nat) (x : α) : List (Nat × α) :=
  if x = d then tdel t i else tput t i x

/-- A table is canonical: indexes rise strictly and no entry equals the default. -/
def tableWf {α : Type} [DecidableEq α] (d : α) : List (Nat × α) → Bool
  | [] => true
  | [(_, v)] => !decide (v = d)
  | (k, v) :: (k', v') :: r => !decide (v = d) && decide (k < k') && tableWf d ((k', v') :: r)

/-- `xs` without `x`. -/
def without (xs : List Nat) (x : Nat) : List Nat := xs.filter (fun y => !(y == x))

/-- Do two address ranges (base, length) share a byte? -/
def overlap (a la b lb : Nat) : Bool := decide (a < b + lb) && decide (b < a + la) && decide (0 < la) && decide (0 < lb)

/-- Does range (a, la) lie inside range (b, lb)? -/
def inside (a la b lb : Nat) : Bool := decide (b ≤ a) && decide (a + la ≤ b + lb)

-- CRCs -----------------------------------------------------------------------------------------------------------

/-- One bit of a reflected CRC: polynomial (reflected), register. -/
def crcStepR (poly crc : Nat) : Nat := if crc % 2 = 1 then (crc >>> 1) ^^^ poly else crc >>> 1

/-- One byte into a reflected CRC. -/
def crcByteR (poly crc : Nat) (b : Byte) : Nat :=
  Nat.repeat (crcStepR poly) 8 (crc ^^^ b.toNat)

/-- A reflected 32-bit CRC with initial value and final XOR of all ones. -/
def crc32R (poly : Nat) (bs : List Byte) : Nat :=
  (bs.foldl (crcByteR poly) 0xFFFFFFFF) ^^^ 0xFFFFFFFF

/-- CRC-32C of R153: polynomial 0x1EDC_6F41, reflected. -/
def crc32c (bs : List Byte) : Nat := crc32R 0x82F63B78 bs

/-- The flit CRC of R333: polynomial 0x04C1_1DB7, reflected. -/
def crc32 (bs : List Byte) : Nat := crc32R 0xEDB88320 bs

/-- One bit of CRC-64/ECMA-182. -/
def crcStep64 (crc : Nat) : Nat :=
  if crc / 2 ^ 63 % 2 = 1 then (crc * 2 % 2 ^ 64) ^^^ 0x42F0E1EBA9EA3693 else crc * 2 % 2 ^ 64

/-- CRC-64/ECMA-182 of R196: no reflection, initial value 0, no final XOR. -/
def crc64 (bs : List Byte) : Nat :=
  bs.foldl (fun crc b => Nat.repeat crcStep64 8 (crc ^^^ (b.toNat * 2 ^ 56))) 0

end Sys2Proof.Machine
end

