-- ==== Sys2Proof/Machine/State.lean ====
section
/-! DEFINITION. The state of the block as plain data: everything the manual gives the module, and the queue of
commands waiting. A table whose entries rest at a default is a list of (index, entry) pairs with rising indexes
and no entry equal to the default (`Machine/Ops.lean`: `tget`, `tset`). -/

set_option cleanup.letToHave false

namespace Sys2Proof.Machine

/-- Why the block stops. The manual gives every failure of the module an effect (a status, an event, a fence, the
fatal state), so no row raises a fault: the type has no constructor. Safe. -/
inductive Fault where
  deriving DecidableEq, Repr

/-- Why a row has no meaning here.
`notModelled`: raised by an arm of `exec` whose row has no meaning yet; safe.
`debugPort`: raised by DBG_ACCESS while debug is unlocked: the manual says that the instruction reaches the debug port
of the selected die's Hamir cores (R522) and nothing of what the port does; safe (the model stops). -/
inductive Refusal where
  | notModelled (mnemonic : String)
  | debugPort
  deriving DecidableEq, Repr

/-- A global address (R22). -/
structure GAddr where
  tier : Nat
  peer : Nat
  off  : Nat
  deriving DecidableEq, Repr

/-- A shape entry (R249). -/
structure Shape where
  fmt   : Nat
  rows  : Nat
  cols  : Nat
  row0  : Nat
  col0  : Nat
  vrows : Nat
  vcols : Nat
  deriving DecidableEq, Repr

/-- A swatch (R72); each count stops at 0xFFFF_FFFF when written. -/
structure Swatch where
  elems     : Nat
  zeros     : Nat
  flushed   : Nat
  saturated : Nat
  nans      : Nat
  declared  : Nat
  infs      : Nat
  maxExp    : Option Int
  mordTop   : Bool
  mordFloor : Bool
  supplied  : Bool
  fmt       : Nat
  deriving DecidableEq, Repr

/-- One staged write: consecutive bytes at a global address (R236). -/
structure SWrite where
  tgt   : GAddr
  bytes : List Byte
  deriving DecidableEq, Repr

/-- One tensor output of a command, for census and tensor watch (R66, R436). -/
structure OutInfo where
  slot   : Nat
  addr   : Nat                 -- global address as 64 bits
  shape  : Nat                 -- shape index, 0 untyped
  swatch : Swatch
  /-- bytes published for the operand, ascending (R437) -/
  bytes  : List Byte
  deriving DecidableEq, Repr

/-- Where an accepted command stands (R276). -/
inductive Phase where
  | waiting                    -- accepted; its claim not granted or its epoch not reached
  | placed                     -- ready and placed (R301)
  | running                    -- started, its inputs read
  | staged                     -- outputs staged; its commit awaits something
  | committed                  -- past its commit point; publication and reply to come
  deriving DecidableEq, Repr

/-- Why the module issued a command itself (R273). -/
inductive Origin where
  | ring (r : Nat)
  | refresh (fset : Nat) (factorG : Bool) (block : Nat)   -- R143
  | promotion (sched entry : Nat)                         -- R227
  | shardCopy (parent entry : Nat)                        -- R484
  deriving DecidableEq, Repr

/-- The engine kind and unit a command runs on (R269 ENGINE). -/
structure Place where
  die  : Nat                   -- 0-7, 8, 9 wharf, 0xF Nushaond
  unit : Nat                   -- die-local core, root engine or move engine, or cluster for an update
  kind : Nat                   -- 0 ME and VE, 1 UE, 2 sequencer, 3 root, 4 move, 5 collective, 6 none
  deriving DecidableEq, Repr

/-- Data of one bulk read a command has received from a peer (R278, READ_RESP). -/
structure RemoteData where
  peer : Nat
  addr : Nat
  data : List Byte
  deriving DecidableEq, Repr

/-- The inputs of one root or solve problem as they stood when the problem started: local memory and the STEP of its factor
set (R141, R166); when that was, and how many of its iterations have been seen to complete since (R123, R165). -/
structure ProbIn where
  mem  : List Host.Cell
  step : Nat
  at_  : Nat
  iter : Nat
  deriving DecidableEq, Repr

/-- An active factor set (R113). -/
structure Fset where
  job     : Nat
  ctx     : Nat
  layer   : Nat
  lblock  : Nat
  kind    : Nat
  p       : Nat
  dimA    : Nat
  dimG    : Nat
  eps     : Nat
  aBase   : Nat
  gBase   : Nat
  rootA   : Nat
  rootG   : Nat
  hdr     : Nat
  result  : Nat
  every   : Nat
  phase   : Nat
  budget  : Nat
  tol     : Nat
  maxIter : Nat
  prec    : Nat
  warm    : Bool
  maxAge  : Nat
  step    : Nat
  skipped : Nat
  incompl : Nat
  ill     : Nat
  deriving DecidableEq, Repr

/-- An active shard (R171), with its streak of the dry-pound watch (R79) and its checkpoint record (R484). -/
structure Shard where
  job       : Nat
  layer     : Nat
  lblock    : Nat
  wcFmt     : Nat
  masterFp32 : Bool
  rows      : Nat
  cols      : Nat
  retain    : Nat
  factored  : Bool
  master    : Nat
  moment    : Nat
  rowAcc    : Nat
  colAcc    : Nat
  gacc      : Nat
  wc0       : Nat
  wc1       : Nat
  fset      : Nat
  version   : Nat
  gradCount : Nat
  ver0      : Nat
  ver1      : Nat
  digest0   : Nat
  digest1   : Nat
  skips     : Nat
  fallbacks : Nat
  streak    : Nat
  image     : Option (Nat × Nat)         -- image address and version of the last committed copy
  deriving DecidableEq, Repr

/-- An accepted command that has not ended (R268), with what it has read and staged. -/
structure Cmd where
  id        : Nat
  pkt       : Packet
  origin    : Origin
  sess      : Nat
  shapes    : List (Option Shape)
  phase     : Phase
  claimed   : Bool
  place     : Option Place
  runs      : Nat
  killed    : Bool             -- killed at least once (RERUN)
  stalled   : Bool             -- it has stalled at least once (R433)
  stallFlag : Bool             -- STALLED of R270: for arrival or pound space
  waitFrom  : Option Nat       -- device time at which its current stall began
  waitWhy   : Nat              -- reason of that stall: 0 arrival, 1 flight, 2 pound (R440)
  parked    : Bool             -- placed, tried to start, and waits for something besides its engine
  lastEng   : Nat              -- ENGINE of the latest run started (R269)
  busy      : Nat              -- ns for which that run occupied its units (R269)
  started   : Nat              -- device time of the run's start
  /-- the local memory, host memory and keys as they stood at the start (R274) -/
  snapMem   : List Host.Cell
  snapHost  : List Host.Cell
  remote    : List RemoteData
  asked     : List (Nat × Nat × Nat)     -- (peer, address, length) of remote reads outstanding or answered
  writes    : List SWrite
  acked     : List Nat         -- lenders that acknowledged the staged writes
  outs      : List OutInfo
  ieee      : Nat
  flags     : Nat
  status    : Nat
  detail    : Nat
  commitAt  : Nat
  debt      : Bool             -- R309
  debtPrio  : Nat              -- the priority a debt command takes from its waiter (R309)
  /-- what a multi-step command remembers: see each family -/
  aux       : List Nat
  pins      : List (Nat × Nat)           -- residency copies (object, tier) it pins (R220)
  reserved  : List (Nat × Nat)           -- pound reservations: (die * 2 + (0 basin, 1 HBM), granules)
  /-- the flight entry it reads: control block, place from the bottom, tensor bytes (R105) -/
  flRead    : Option (Nat × Nat × List Byte)
  /-- the flight it pushes to and the bytes reserved there (R104) -/
  flPush    : Option (Nat × Nat)
  signalled : Bool             -- its signal has been applied (R283)
  noReply   : Bool             -- its reply is dropped (R269)
  probs     : List ProbIn      -- the problems that a root or solve command has started, in order
  scratchUe : Bool             -- its root engine met an uncorrectable scratch error (R122)
  toSend    : List (Nat × Nat × Nat)     -- signals that its publication makes: peer, lock, amount (R276 step 11)
  /-- what a class 0x6 command took at its start: the shard that it names, that shard's factor set, and FALLBACK_DIAG (R171, R182) -/
  shard     : Option Shard
  fset      : Option Fset
  fall      : Bool
  deriving DecidableEq, Repr

/-- A command ring (R265 to R267). -/
structure Ring where
  base      : Nat
  reply     : Nat
  log2      : Nat
  enable    : Bool
  replyIrq  : Bool
  tail      : Nat
  head      : Nat
  rtail     : Nat
  rhead     : Nat
  active    : Bool
  inFlight  : Nat
  fault     : Nat
  bind      : Nat
  msix      : Bool
  enables   : Nat              -- times enabled since the binding (R412)
  unbinding : Bool             -- a RING_UNBIND runs in the background (R383)
  marks     : List Nat         -- counts of unfetched entries that a CMD_ABORT marked (R262)
  deriving DecidableEq, Repr

/-- A lock object (R281, R288). -/
structure Lock where
  count      : Nat
  claimed    : Nat
  queue      : List Nat        -- handles of the waiters, head first
  setPending : Bool
  setters    : List Nat        -- handles of eligible LK_SETs, in order (R285)
  job        : Nat
  lastCtx    : Nat
  /-- prefetch holds: (schedule, entry, amount still to be consumed) in arrival order (R228) -/
  holds      : List (Nat × Nat × Nat)
  deriving DecidableEq, Repr

/-- A branch entry (R325). -/
structure Branch where
  clusters : Nat
  first    : Nat
  last     : Nat
  stages   : Nat
  deriving DecidableEq, Repr

/-- The state of a job (R297). -/
inductive JobState where
  | running
  | suspended (trapped : Bool) -- the state it returns to
  | trapped
  | ending
  deriving DecidableEq, Repr

/-- An active job (R292, R296, R314). -/
structure Job where
  id         : Nat
  sess       : Nat
  st         : JobState
  epoch      : Nat
  trapArmed  : Bool
  trapMade   : Bool            -- a trap record stands since the last resume (R75, R297)
  residFp32  : Bool
  fallback   : Bool
  verDrop    : Bool
  share      : Bool
  priority   : Nat
  cap        : Nat
  digestWin  : Nat
  layers     : Nat
  locks      : Nat
  shapeTab   : Nat
  lockTab    : Nat
  layerTab   : Nat
  layerN     : Nat
  memmap     : List (Nat × Nat)
  memmapAt   : Nat
  trapAddr   : Nat
  peers      : List Nat
  ringPrio   : List (Nat × Nat)
  initList   : List Nat
  clusters   : Nat
  branches   : List Branch
  memKey     : Nat
  trapSeq    : Nat
  deriving DecidableEq, Repr

/-- A context: the commands of one job from one ring (R290), with the dies it is suspended on by pre-emption. -/
structure Ctx where
  job     : Nat
  ring    : Nat
  suspOn  : List Nat
  started : List (Nat × Nat)   -- (die, serial of the latest start there)
  deriving DecidableEq, Repr

/-- Job counts of a session slot (R299). -/
structure SlotCounts where
  submitted : Nat
  running   : Nat
  completed : Nat
  killed    : Nat
  deriving DecidableEq, Repr

/-- A session slot (R406 to R411). -/
inductive SlotState where
  | free
  | reserved
  | opened
  deriving DecidableEq, Repr

structure Session where
  st      : SlotState
  pake    : Bool
  cred    : List Byte
  known   : Bool               -- the credential exists (R410)
  priv    : Bool
  isSealed   : Bool
  ide     : Bool
  counter : Nat                -- one more than the last COUNTER accepted, 0 before the first (R409)
  since   : Nat                -- device time of the reservation
  th      : List Byte          -- bytes of the transcript, then its hash
  sms     : List Byte
  expect  : List Byte          -- the MAC or confirmation that opens the session
  serial  : Nat                -- distinguishes successive sessions of one slot
  deriving DecidableEq, Repr

/-- Failure count of a credential and the end of its hold (R410). -/
structure CredFail where
  count : Nat
  until_ : Nat
  deriving DecidableEq, Repr

/-- A registered host buffer (R208, R390). -/
structure HostBuf where
  sess    : Nat
  base    : Nat
  pages   : Nat
  modWr   : Bool               -- module-written
  job     : Nat
  ring    : Nat
  forRing : Option (Nat × Bool)          -- registered by a ring for its own area (R265): ring, reply area?
  deriving DecidableEq, Repr

/-- One entry of a flight (R101). -/
structure FlightEntry where
  layer    : Nat
  operator : Nat
  seq      : Nat
  fmt      : Nat
  rows     : Nat
  cols     : Nat
  data     : List Byte
  spilled  : Bool
  deriving DecidableEq, Repr

/-- An active flight (R99); the top entry is the head of the list. -/
structure Flight where
  job       : Nat
  basinBase : Nat
  basinSize : Nat
  hbmBase   : Nat
  hbmSize   : Nat
  entries   : List FlightEntry
  high      : Nat
  deriving DecidableEq, Repr

/-- One segment of a schedule table (R189). -/
structure SchedSeg where
  start  : Nat
  length : Nat
  lr0    : Nat
  lr1    : Nat
  cosine : Bool
  deriving DecidableEq, Repr

/-- A loaded schedule table (R190). -/
structure Sched where
  job  : Nat
  slot : Nat
  segs : List SchedSeg
  deriving DecidableEq, Repr

/-- A loan in force (R204). -/
structure Loan where
  base    : Nat
  size    : Nat
  peer    : Nat
  job     : Nat
  readers : List Nat
  sess    : Nat
  memKey  : Nat
  ending  : Bool
  deriving DecidableEq, Repr

/-- A residency pool (R213). -/
structure Pool where
  job   : Nat
  base  : Nat
  size  : Nat
  deriving DecidableEq, Repr

/-- The write-back of a dirty copy, not yet committed (R219): the number by which a lender knows it, whether it has its pound space, and
the lender's acknowledgements. -/
structure WriteBack where
  seq    : Nat
  staged : Bool
  acks   : Nat
  deriving DecidableEq, Repr

/-- A copy of a residency object at one tier (R214). -/
structure Copy where
  state    : Nat               -- 0 absent, 1 promoting, 2 resident, 3 evicting
  at_      : Nat               -- address of the copy in its pool
  resPins  : Nat               -- pins made by RES_PIN
  usePins  : Nat               -- running commands served by the copy, promotions in flight, prefetch holds
  pending  : Bool              -- EVICT_PENDING
  dirty    : Bool
  wb       : Option WriteBack  -- while it is evicting
  deriving DecidableEq, Repr

/-- An active residency object (R214). -/
structure ResObj where
  job      : Nat
  home     : GAddr
  size     : Nat
  poolT1   : Nat
  poolT2   : Nat
  lock     : Nat
  writable : Bool
  zip      : Bool
  kind     : Nat
  t1       : Copy
  t2       : Copy
  stamp    : Nat
  deriving DecidableEq, Repr

/-- An entry of a prefetch schedule (R226). -/
structure PfEntry where
  object     : Nat
  target     : Nat
  layer      : Nat
  gate       : Nat
  arrive     : Nat
  gateBase   : Nat
  gateStride : Nat
  inc        : Nat
  deriving DecidableEq, Repr

/-- A prefetch schedule (R225). -/
structure PfSched where
  job     : Nat
  ctx     : Nat
  lead    : Nat
  state   : Nat                -- 1 running, 2 stopped, 3 faulted
  cursor  : Nat
  step    : Nat
  stalled : Nat
  entries : List PfEntry
  flying  : List (Nat × Nat)   -- passes and entries issued and not yet arrived, in order of issue
  deriving DecidableEq, Repr

/-- A staged remote write held in this module's HBM pound (R210, R239). -/
structure RemoteStaged where
  peer : Nat
  job  : Nat
  seq  : Nat
  runs : Nat
  addr : Nat
  data : List Byte
  ctx  : Nat
  room : Bool                  -- it has its pound space and has been acknowledged
  deriving DecidableEq, Repr

/-- A published granule not yet drained (R238): die, pound (0 basin, 1 HBM), granule address. -/
structure PoundGran where
  die  : Nat
  hbm  : Bool
  addr : Nat
  deriving DecidableEq, Repr

/-- Memory error registers of one compute die (R244). -/
structure MemRegs where
  hbmCe     : Nat
  hbmUe     : Nat
  bsnCe     : Nat
  bsnUe     : Nat
  errAddr   : Nat
  errInfo   : Nat
  scrub     : Nat
  retired   : List Nat         -- retired granule addresses
  ceLog     : List (Nat × Nat) -- (granule, device time) of corrected errors in the last 24 h
  lowBasin  : Bool             -- the basin pound was last seen with less than 1/16 of it free (R465)
  lowHbm    : Bool             -- the same of the HBM pound
  deriving DecidableEq, Repr

/-- Registers of one root engine that no running command gives (R123), and the context it last served (R122). -/
structure RootRegs where
  eccUe   : Nat
  eccCe   : Nat
  lastCtx : Option (Nat × Nat)
  deriving DecidableEq, Repr

/-- What an engine remembers for R302 and R414: the context it last served, and for each job and virtual stage the serial
of its latest start here. -/
structure EngineRegs where
  lastCtx : Option (Nat × Nat)
  served  : List ((Nat × Nat) × Nat)
  deriving DecidableEq, Repr

/-- A Towpath port (R332 to R336, R342, R372). -/
structure Port where
  state     : Nat              -- 0 down, 1 training, 2 up at 4, 3 up at 2, 4 calibrating
  laneOk    : Nat
  farValid  : Bool
  farPeer   : Nat
  ctrl      : Nat
  event     : Nat
  weight    : Nat
  credit    : Nat              -- value of PORT_CREDIT
  creditUse : Nat              -- the value in force since the last training (R372)
  ctxCap    : Nat
  txFlits   : Nat
  rxFlits   : Nat
  crcErr    : Nat
  retry     : Nat
  fecCe     : Nat
  fecUe     : Nat
  held      : Nat
  drop      : Nat
  nextTx    : Nat              -- SEQ of the next data flit sent
  expect    : Nat              -- SEQ expected
  lastGood  : Nat              -- ACK sent
  replay    : List (Nat × Nat × Nat)     -- (SEQ, TC, times sent) of unacknowledged flits, oldest first
  laneUe    : List Nat         -- uncorrectable codewords of each lane
  freedTx   : List Nat         -- cumulative freed counts received, TC0-TC7
  freedRx   : List Nat         -- cumulative freed counts sent
  drawn     : List (Nat × Nat × Nat)     -- credits held: (context, class, flits)
  rxBytes   : List (Nat × List Byte)     -- (class, bytes of the message stream not yet a whole message)
  chDelay   : Nat              -- measured channel delay, ns (R350)
  trainFrom : Nat
  express   : List Nat         -- device times at which TC7 messages of the last microsecond were admitted (R344)
  sigs      : List (Nat × Nat × Nat × List Nat)      -- lock signals sent and not delivered: SEQ of the last flit, peer, job, (SEQ, lock, amount) (R286)
  deriving DecidableEq, Repr

/-- Keys and windows of one sending peer and job (R353). -/
structure LinkRx where
  gen    : Nat
  top    : Nat                 -- highest count received in the newest generation
  seen   : List Nat
  oldTop : Nat
  oldSeen : List Nat
  deriving DecidableEq, Repr

/-- What the cascade domain gives the module (R346 to R351, R373). -/
structure Domain where
  keeper      : Option (Nat × Nat)       -- peer followed and its position
  isKeeper    : Bool
  peer0Mode   : Bool
  successors  : List Nat
  routes      : List (Nat × Nat)
  members     : List (Nat × Nat)         -- peer, state (1 member, 2 lost)
  outside     : Bool           -- SUCCESSOR_MISMATCH: takes no part (R347)
  conflicts   : List Nat       -- peers whose HELLO carried the module's own id (R346)
  lost        : List Nat       -- peers this module has declared lost
  lastHeard   : List (Nat × Nat)
  lastSent    : List (Nat × Nat)
  heardKeeper : List Nat       -- candidates that have announced
  locked      : Bool
  slewing     : Bool
  ahead       : Nat            -- ns this module's time is ahead of the keeper's
  hops        : Nat
  offset      : Int
  lastTime    : Nat
  rx          : List ((Nat × Nat) × LinkRx)
  tx          : List ((Nat × Nat) × (Nat × Nat))         -- (DST, job): GEN, count
  permutes    : List (Nat × (Nat × Nat)) -- job: VERSION and table CRC of its last PERMUTE
  deriving DecidableEq, Repr

/-- A round of a collective stream at this member, or at the leader (R362 to R366). -/
structure Round where
  job    : Nat
  group  : Nat
  stream : Nat
  round  : Nat
  op     : Nat
  joined : List Nat
  frozen : Option (List Nat)
  defer  : List Nat            -- peers counted as two contributors
  late   : List Nat            -- members that joined after the freeze and have no answer yet
  out_   : List Nat            -- members whose command of a frozen round was aborted (R367)
  deriving DecidableEq, Repr

/-- A stream of collectives (R360, R365). -/
structure Stream where
  job      : Nat
  group    : Nat
  stream   : Nat
  deferred : Bool              -- the deferral buffer holds a contribution
  results  : List (Nat × (Nat × List Byte))      -- round, contributor count and result kept for late members
  deriving DecidableEq, Repr

/-- A staged change of mode (R316). -/
structure Change where
  id      : Nat
  scope   : Nat
  job     : Nat
  epoch   : Nat
  barrier : Nat
  items   : List ModeItem
  peers   : List Nat           -- other modules of the job
  cmd     : Option Nat         -- the MODE_STAGE that issued it, if on this module
  remote  : Option Nat         -- the coordinating peer, if not this module
  t0      : Nat
  unacked : List (Nat × Nat)   -- (peer, place) of units whose ACK lacks
  acked   : Bool               -- this module's units have acknowledged
  ackAt   : Nat
  holding : Bool               -- R318
  tApply  : Option Nat
  hops    : Nat                -- largest number of hops to a module of the job (R316)
  deriving DecidableEq, Repr

/-- A test or calibration request (R323). -/
structure TestReq where
  op   : Nat
  unit : HwUnit
  cmd  : Option Nat
  deriving DecidableEq, Repr

/-- An event record (R467). -/
structure Event where
  time  : Nat
  code  : Nat
  cls   : Nat
  place : Nat
  job   : Nat
  layer : Nat
  seq   : Nat
  d0    : Nat
  d1    : Nat
  d2    : Nat
  deriving DecidableEq, Repr

/-- A queue of event records (R469). -/
structure EventQ where
  recs : List Event
  lost : Nat
  deriving DecidableEq, Repr

/-- A signal source (R450 to R460). -/
structure Source where
  prio      : Nat
  mask      : Nat
  modCount  : Nat
  modTimer  : Nat
  enabled   : Bool
  state     : Nat              -- 0 Inactive, 1 Pending, 2 Active, 3 Active-and-pending
  held      : Bool
  heldCount : Nat
  heldAt    : Nat
  assigned  : Option Nat
  activeOn  : Nat
  last      : Nat
  coalesced : Nat
  deriving DecidableEq, Repr

/-- A target of a signal controller (R461). -/
structure Target where
  levelEn : Nat
  enable  : Bool
  idle    : Bool
  stack   : List (Nat × Nat)   -- (source, priority), top first
  miss    : Bool
  deriving DecidableEq, Repr

/-- A signal controller (R459). -/
structure Sic where
  ctrl    : Bool
  err     : Nat
  sources : List (Nat × Source)
  targets : List (Nat × Target)
  deriving DecidableEq, Repr

/-- A hardware counter (R429). -/
structure Counter where
  value  : Nat
  sel    : Nat
  filter : Nat
  deriving DecidableEq, Repr

/-- A counter block (R430); counters by their offset in the block. -/
structure CntBlock where
  freeze   : Bool
  arm      : Bool
  freezeAt : Nat
  wrapped  : Nat
  counters : List (Nat × Counter)
  deriving DecidableEq, Repr

/-- A trace record (R440). -/
structure TrRec where
  time : Nat
  kind : Nat
  job  : Nat
  layer : Nat
  oper : Nat
  seq  : Nat
  eng  : Nat
  opc  : Nat
  data : Nat
  deriving DecidableEq, Repr

/-- A trace block (R439). -/
structure Trace where
  ctrl    : Nat
  state   : Nat
  wrapped : Bool
  base    : Nat
  size    : Nat
  job     : Nat
  kinds   : Nat
  filter  : Nat
  layers  : Nat
  trig    : Nat
  trigNow : Bool
  written : Nat
  trigIdx : Nat
  oldest  : Nat
  lost    : Nat
  next    : Nat                -- slot of the next record
  postN   : Nat                -- records written after the trigger
  keptAt  : Nat                -- first slot of the kept pre-trigger records (CENTRE)
  keptN   : Nat                -- how many are kept
  gap     : Nat                -- count of the GAP record that stands for overwritten kept records
  deriving DecidableEq, Repr

/-- A census or tensor-watch ring or job counter area (R69, R433, R435). -/
structure TWatch where
  job     : Nat
  block   : Nat                -- address of the watch block
  kind    : Nat
  first   : Nat
  last    : Nat
  oper    : Nat
  classes : Nat
  slots   : Nat
  target  : Nat
  entries : Nat
  deriving DecidableEq, Repr

/-- The state of a compute die (R475, R490). -/
structure Die where
  up        : Bool
  cause     : Nat
  fenced    : Bool
  coreFence : Nat
  rootFence : Nat
  moveFence : Nat
  hamirOff  : Nat
  draining  : Option Nat       -- the DIE_FENCE with DRAIN that waits
  paused    : Bool             -- Hamir restart of a live update (R488)
  regAddr   : Nat              -- ERR_REG_ADDR
  events    : Nat              -- ERR_EVENTS
  log       : List Event
  deriving DecidableEq, Repr

/-- Power, reset and start-up (R492 to R510, R513 to R519). -/
structure Power where
  off         : Bool           -- rails off: OFF or STANDBY or before power good
  pwrEn       : Bool
  pwrOk       : Bool
  ramping     : Bool
  inRange     : Bool           -- the input lies between 38 V and 54 V
  resetN      : Bool
  awaitEn     : Bool           -- a module reset waits for PWR_EN to be asserted again (R519)
  stayed      : Bool           -- STANDBY was entered, and nothing has asked to leave it (R507)
  phase       : Nat
  failDetail  : Nat
  fatal       : Nat
  fwOk        : Bool
  cfgDone     : Bool
  imgDone     : Bool
  released    : Bool
  hbmDone     : Bool
  testDone    : Bool
  initDone    : Bool
  towDone     : Bool
  linkUp      : Bool           -- the CXL link
  sessionP1   : Bool
  autoPower   : Bool
  autoTherm   : Bool
  p1          : Bool           -- the effective state applied
  ctrl        : Nat            -- PWR_CTRL
  holdCnt     : Nat
  volt        : Nat
  curr        : Nat
  powr        : Nat
  peak        : Nat
  tempDie     : List Nat
  tempStack   : List Nat       -- latest reading of each HBM stack, 0.1 °C as 16 bits
  coolant     : Nat
  keeperStrap : Bool
  addrStrap   : Nat
  keeperNow   : Bool
  addrNow     : Nat
  pins        : BoardPins      -- the other pins that the board drives and boundary cells observe (R523)
  shiftIn     : DriveCells     -- what a scan of the boundary register would shift in now (R522, R523)
  i3cPtr      : Nat
  i3cAddr     : Option Nat
  ibi         : List Nat       -- payloads of in-band interrupts raised (R519)
  shutAt      : Option Nat
  retry       : Option Bool    -- an abandoned power-state change to stage again: to P1?
  bootEvents  : List Event     -- events raised during start-up, delivered at READY
  deriving DecidableEq, Repr

/-- The test access port (R520 to R524). -/
structure Tap where
  ir     : Nat                 -- the instruction loaded
  live   : Bool                -- a debug instruction that was loaded while unlocked
  die    : Nat
  cells  : DriveCells          -- what stands in the boundary cells that can drive (R523)
  deriving DecidableEq, Repr

/-- A captured boundary register (R523): the pins that the board drives, and those that the module knows. FAULT_N, MOD_RESET_N and PWR_EN
stand by their level; a strap that is tied to ground reads 0. -/
structure Boundary where
  board  : BoardPins
  resetN : Bool
  faultN : Bool
  pwrEn  : Bool
  keeper : Bool
  addr0  : Bool
  addr1  : Bool
  deriving DecidableEq, Repr

/-- Trust: what survives in the protected flash sector, and the identity interface (R396 to R425). -/
structure Trust where
  rsaOk     : Bool
  slhOk     : Bool
  owner     : Option (List Byte)         -- hash of the enrolled owner key record
  ownerNow  : Option (List Byte)         -- the owner in force since power-up
  ownerEp   : Nat
  cfgFloor  : Nat
  cfgSeq    : Nat
  floors    : List Nat
  svns      : List Nat
  raises    : List Nat
  boots     : Nat
  slotOrder : List Bool
  mrs       : List (List Byte)
  dbgSticky : Bool
  dbgBy     : Option Nat
  creds     : List (List Byte × CredFail)
  rfPending : List (Nat × Nat)           -- (KIND, SVN) of booted objects with RAISE_FLOOR
  imgLevel  : Nat
  deriving DecidableEq, Repr

/-- The CXL port (R374 to R394). -/
structure Cxl where
  width    : Nat
  rate     : Nat
  ide      : Bool
  memActive : Bool
  decWays  : Nat
  decHpa   : Option Nat
  decError : Bool
  apertures : List (Nat × (Nat × Nat))   -- aperture: (job, session)
  privBy   : Option Nat
  deriving DecidableEq, Repr

/-- A held dump and the registered dump buffer (R446 to R449). -/
structure Dump where
  cause   : Nat
  parts   : Nat
  time    : Nat
  buffer  : Option (Nat × Nat)           -- session, host address
  deriving DecidableEq, Repr

/-- A message the module has sent (R337, R338), with its body's words and bytes. -/
structure Msg where
  dst  : Nat
  typ  : Nat
  tc   : Nat
  job  : Nat
  seq  : Nat
  runs : Nat
  ctx  : Nat
  gen  : Nat
  count : Nat
  body : List Nat
  data : List Byte
  deriving DecidableEq, Repr

/-- What the block has answered on an interface. -/
inductive Answer where
  | reg (value : Nat)                    -- a register read
  | mailbox (rc : Nat) (out : List Byte) -- a mailbox command: CXL return code and output payload
  | config (retry : Bool) (value : Nat)  -- a configuration request
  | hdm (poison : Bool) (data : List Byte)
  | snoopMiss (addr : Nat)
  | spdm (signed : List Byte) (measurements : List (List Byte))
  | tap (instruction : Nat) (drives : Bool)
  | boundary (captured : Boundary)       -- what a scan shifts out (R523)
  | forward (port : Nat) (m : MsgHdr)    -- a message for another peer, sent on (R339)
  | flit (port kind : Nat) (body : List Nat)             -- a control flit sent
  | i3c (bytes : List Byte)
  deriving DecidableEq, Repr

/-- The state of the block. -/
structure State where
  pending  : List Instr
  -- time
  time     : Nat               -- device time, ns (R501)
  -- memory
  mem      : List Host.Cell    -- local physical memory (R26)
  host     : List Host.Cell    -- TIER 5
  keys     : List (Nat × Nat)  -- HBM byte: memory key it was written under (R414)
  poison   : List Nat          -- poisoned units, by first address (R241)
  poundQ   : List PoundGran    -- published and not drained, in commit order
  remoteSt : List RemoteStaged
  memRegs  : List (Nat × MemRegs)
  -- commands
  cmds     : List Cmd          -- in order of acceptance
  nextId   : Nat
  serial   : Nat               -- serial of starts
  rings    : List (Nat × Ring)
  locks    : List (Nat × Lock)
  jobs     : List Job
  ctxs     : List Ctx
  queueRe  : List Nat          -- root and solve commands waiting for an engine, in arrival order (R144)
  ended    : List (Nat × Nat × Nat)      -- (session, job, seq) of commands that have ended (R262)
  -- objects of jobs
  flights  : List (Nat × Flight)
  fsets    : List (Nat × Fset)
  shards   : List (Nat × Shard)
  scheds   : List Sched
  loans    : List (Nat × Loan)
  pools    : List (Nat × Pool)
  objs     : List (Nat × ResObj)
  pfs      : List (Nat × PfSched)
  census   : List (Nat × (Nat × Nat))    -- job: ring address, entries
  watch    : List ((Nat × Nat) × (Nat × Nat))            -- (job, layer): H, W
  twatch   : List TWatch
  suspects : List ((Nat × Nat) × List (Nat × Nat))       -- (job, owner): (time, version) of DIGEST_MISMATCH
  links    : List ((Nat × Nat) × List Byte)              -- (session, job): Towpath link secret (R415)
  -- units
  dies     : List (Nat × Die)  -- 0-7 compute, 8 and 9 wharf
  roots    : List (Nat × RootRegs)
  engines  : List (Nat × EngineRegs)     -- by die * 65536 + kind * 1024 + unit
  testing  : List TestReq      -- running
  testQ    : List TestReq      -- queued, in order
  -- modes
  changes  : List Change
  modEpoch : Nat
  -- Towpath
  ports    : List (Nat × Port)
  domain   : Domain
  rounds   : List Round
  streams  : List Stream
  sent     : List Msg
  held     : List Msg          -- messages that wait at the sender for a port or a credit (R339, R343)
  transit  : List MsgHdr       -- messages for other peers that wait here (R339, R343)
  -- host side
  sessions : List (Nat × Session)
  counts   : List (Nat × SlotCounts)
  bufs     : List HostBuf
  cxl      : Cxl
  msix     : List Nat
  answers  : List Answer
  nextSes  : Nat
  -- observation
  sesQ     : List (Nat × EventQ)
  modQ     : EventQ
  sics     : List (Nat × Sic)
  cnts     : List (Nat × CntBlock)
  traces   : List (Nat × Trace)
  dump     : Dump
  -- the module
  cfg      : ConfigRecord
  power    : Power
  tap      : Tap
  trust    : Trust
  /-- the model's own field: how many free values have been drawn (nonces) -/
  fresh    : Nat
  deriving DecidableEq, Repr

-- resting values of tables, and the state after reset ---------------------------------------------------------------

/-- An unprogrammed ring (R266, R383). -/
def Ring.rest : Ring :=
  { base := 0, reply := 0, log2 := 0, enable := false, replyIrq := false, tail := 0, head := 0, rtail := 0, rhead := 0,
    active := false, inFlight := 0, fault := 0, bind := 0xFFFF, msix := false, enables := 0,
    unbinding := false, marks := [] }

/-- A free lock (R288). -/
def Lock.rest : Lock :=
  { count := 0, claimed := 0, queue := [], setPending := false, setters := [], job := 0xFFFF, lastCtx := 0xFFFF,
    holds := [] }

/-- Job counts of a slot (R299). -/
def SlotCounts.rest : SlotCounts := ⟨0, 0, 0, 0⟩

/-- A free session slot. -/
def Session.rest : Session :=
  { st := .free, pake := false, cred := [], known := false, priv := false, isSealed := false, ide := false, counter := 0,
    since := 0, th := [], sms := [], expect := [], serial := 0 }

/-- An empty event queue (R469). -/
def EventQ.rest : EventQ := ⟨[], 0⟩

/-- A source after reset (R460). -/
def Source.rest : Source :=
  { prio := 31, mask := 0, modCount := 0, modTimer := 0, enabled := false, state := 0, held := false, heldCount := 0,
    heldAt := 0, assigned := none, activeOn := 15, last := 15, coalesced := 0 }

/-- A target after reset (R461). -/
def Target.rest : Target := { levelEn := 0xFFFFFFFF, enable := false, idle := false, stack := [], miss := false }

/-- A signal controller after reset (R459). -/
def Sic.rest : Sic := { ctrl := false, err := 0, sources := [], targets := [] }

/-- A counter after reset (R429). -/
def Counter.rest : Counter := { value := 0, sel := 0, filter := 0xFFFF0000 }

/-- A counter block after reset (R430). -/
def CntBlock.rest : CntBlock := { freeze := false, arm := false, freezeAt := 0, wrapped := 0, counters := [] }

/-- A trace block after reset (R439). -/
def Trace.rest : Trace :=
  { ctrl := 0, state := 0, wrapped := false, base := 0, size := 16, job := 0xFFFF, kinds := 0, filter := 0,
    layers := 0xFFFF0000, trig := 0, trigNow := false, written := 0, trigIdx := 0xFFFFFFFF, oldest := 0xFFFFFFFF,
    lost := 0, next := 0, postN := 0, keptAt := 0, keptN := 0, gap := 0 }

/-- A compute die after reset (R35, R490). -/
def Die.rest : Die :=
  { up := false, cause := 0, fenced := false, coreFence := 0, rootFence := 0, moveFence := 0, hamirOff := 0,
    draining := none, paused := false, regAddr := 0, events := 0, log := [] }

/-- Memory error registers after reset (R244), and pounds seen with room. -/
def MemRegs.rest : MemRegs :=
  { hbmCe := 0, hbmUe := 0, bsnCe := 0, bsnUe := 0, errAddr := 0, errInfo := 0, scrub := 0x00180403, retired := [],
    ceLog := [], lowBasin := false, lowHbm := false }

/-- A root engine after reset (R123). -/
def RootRegs.rest : RootRegs := { eccUe := 0, eccCe := 0, lastCtx := none }

/-- An engine that has served nothing. -/
def EngineRegs.rest : EngineRegs := { lastCtx := none, served := [] }

/-- A Towpath port after reset (R372). -/
def Port.rest : Port :=
  { state := 0, laneOk := 0, farValid := false, farPeer := 0, ctrl := 3, event := 0, weight := 0x01111111,
    credit := 0x4040404040404040, creditUse := 0x4040404040404040, ctxCap := 32, txFlits := 0, rxFlits := 0,
    crcErr := 0, retry := 0, fecCe := 0, fecUe := 0, held := 0, drop := 0, nextTx := 0, expect := 0, lastGood := 4095,
    replay := [], laneUe := [0, 0, 0, 0], freedTx := [0, 0, 0, 0, 0, 0, 0, 0], freedRx := [0, 0, 0, 0, 0, 0, 0, 0],
    drawn := [], rxBytes := [], chDelay := 0, trainFrom := 0, express := [], sigs := [] }

/-- Keys and windows of a pair not yet heard (R353). -/
def LinkRx.rest : LinkRx := { gen := 0, top := 0, seen := [], oldTop := 0, oldSeen := [] }

/-- The domain before HELLO (R373). -/
def Domain.rest : Domain :=
  { keeper := none, isKeeper := false, peer0Mode := false, successors := [], routes := [], members := [],
    outside := false, conflicts := [], lost := [], lastHeard := [], lastSent := [], heardKeeper := [], locked := false,
    slewing := false, ahead := 0, hops := 0, offset := 0, lastTime := 0, rx := [], tx := [], permutes := [] }

/-- A configuration record not yet read. Its values stand until CONFIG_VERIFIED applies one: the default pounds of
R235 and the default window of R385, and nothing configured. DESIGN CHOICE (notes/assumptions/3). -/
def cfgRest : ConfigRecord :=
  { obj := { wellFormed := false, kind := 2, raiseFloor := false, svn := 0, sequence := 0, signer := [], hashOk := false,
             signerOk := false, rsaOk := false, slhOk := false, level := 0, hash := [] },
    rkHashOk := false, peerId := 0, basinPound := 512, hbmPound := 2, hdmBase := 0x010000000000, hdmSizeGib := 256,
    ideRequired := false, peer0Mode := false, successors := [], routes := [], ports := [], credentials := [],
    testPeriod := 0, calPeriod := 0 }

/-- Power and start-up at power good (R493, R504, R508, R509). -/
def Power.rest : Power :=
  { off := false, pwrEn := true, pwrOk := true, ramping := false, inRange := true, resetN := true, awaitEn := false, stayed := false,
    phase := 0, failDetail := 0, fatal := 0, fwOk := false, cfgDone := false, imgDone := false, released := false,
    hbmDone := false, testDone := false, initDone := false, towDone := false, linkUp := false, sessionP1 := false,
    autoPower := false, autoTherm := false, p1 := false, ctrl := 3, holdCnt := 0, volt := 0, curr := 0, powr := 0,
    peak := 0, tempDie := [0, 0, 0, 0, 0, 0, 0, 0, 0, 0], tempStack := List.replicate 32 0, coolant := 0, keeperStrap := false,
    addrStrap := 0, keeperNow := false, addrNow := 0,
    pins := ⟨true, true, true, false, false, 0, 0⟩, shiftIn := ⟨true, 0, 0⟩, i3cPtr := 0, i3cAddr := none, ibi := [], shutAt := none,
    retry := none, bootEvents := [] }

/-- The TAP in Test-Logic-Reset (R520, R521). -/
def Tap.rest : Tap := { ir := 2, live := false, die := 0, cells := ⟨true, 0, 0⟩ }

/-- Trust at the first power-up: no owner enrolled, floors 0, and this power-up counted (R405, R422). The values
that the protected flash sector holds when the module is first powered are the model's: DESIGN CHOICE
(notes/assumptions/3). -/
def Trust.rest : Trust :=
  { rsaOk := false, slhOk := false, owner := none, ownerNow := none, ownerEp := 0, cfgFloor := 0, cfgSeq := 0,
    floors := [0, 0, 0, 0], svns := [0, 0, 0, 0], raises := [0, 0, 0, 0, 0], boots := 1,
    slotOrder := [false, false, false, false], mrs := List.replicate 8 (List.replicate 48 0), dbgSticky := false,
    dbgBy := none, creds := [], rfPending := [], imgLevel := 0 }

/-- The CXL port before its link trains (R374). -/
def Cxl.rest : Cxl :=
  { width := 0, rate := 0, ide := false, memActive := false, decWays := 0, decHpa := none, decError := false,
    apertures := [], privBy := none }

/-- No dump held (R447, R490). -/
def Dump.rest : Dump := { cause := 0, parts := 0, time := 0, buffer := none }

/-- The module at power good, step 1 of start-up (R502, R504): PHASE 0, nothing accepted, nothing active, memory with
nothing listed, and no command waiting. -/
def State.reset : State :=
  { pending := [], time := 0, mem := [], host := [], keys := [], poison := [], poundQ := [], remoteSt := [],
    memRegs := [], cmds := [], nextId := 0, serial := 0, rings := [], locks := [], jobs := [], ctxs := [], queueRe := [],
    ended := [], flights := [], fsets := [], shards := [], scheds := [], loans := [], pools := [], objs := [], pfs := [],
    census := [], watch := [], twatch := [], suspects := [], links := [], dies := [], roots := [], engines := [], testing := [],
    testQ := [], changes := [], modEpoch := 0, ports := [], domain := Domain.rest, rounds := [],
    streams := [], sent := [], held := [], transit := [], sessions := [], counts := [], bufs := [], cxl := Cxl.rest, msix := [], answers := [],
    nextSes := 0, sesQ := [], modQ := EventQ.rest, sics := [], cnts := [], traces := [], dump := Dump.rest,
    cfg := cfgRest, power := Power.rest, tap := Tap.rest, trust := Trust.rest, fresh := 0 }

end Sys2Proof.Machine
end

