-- ==== Sys2Proof/Machine/Flags.lean ====
section
/-! DEFINITION. Status codes and the flags byte of the status reply (R270, R272). The IEEE flags of arithmetic (R530) are computed
with each rounding in `Numeric.lean` and joined in a run's `Stg`. -/

set_option cleanup.letToHave false

namespace Sys2Proof.Machine

-- status codes (R272)
def stDone : Nat := 0x00
def stAborted : Nat := 0x01
def stKilled : Nat := 0x02
def stTooLate : Nat := 0x03
def stDeadline : Nat := 0x10
def stIncomplete : Nat := 0x11
def stIll : Nat := 0x12
def stNanTrap : Nat := 0x20
def stVersion : Nat := 0x21
def stDigest : Nat := 0x22
def stDenied : Nat := 0x30
def stBad : Nat := 0x31
def stStale : Nat := 0x32
def stPeerLost : Nat := 0x40
def stDeferred : Nat := 0x41
def stDropped : Nat := 0x42
def stEcc : Nat := 0x50

/-- The FLAGS byte of the reply (R270): [0] WARM_REJECTED, [1] FALLBACK_USED, [2] STEP_SKIPPED, [3] REFETCHED as the operation
leaves them, [4] RERUN after a kill, [5] STALLED after a stall for arrival or pound space. -/
def replyFlags (c : Cmd) : Nat := c.flags ||| (if c.killed then 16 else 0) ||| (if c.stallFlag then 32 else 0)

end Sys2Proof.Machine
end

