-- ==== Sys2Proof/Config.lean ====
section
/-! DEFINITION. What one implementation fixes and the manual leaves open. Every constant here is opaque: it has no
body, so that nothing can be proved about its value, and a claim holds whatever it is. -/

namespace Sys2Proof.Config

/-- What a read under one memory key returns of an HBM byte that was written under another (R414: "unrelated
bytes"): address, the reader's key, the byte stored. -/
opaque freeByte : Nat → Nat → Nat → Nat

/-- The FP32 accumulator, or working-format result, of an arithmetic step whose bits R60 and R61 do not bind:
the operation with its parameters and operands (R60: nothing else decides the bits). Used only inside the bound that R61
gives. -/
opaque freeAcc : List Nat → Nat

/-- The overflow, underflow and inexact flags of such a step's inner roundings. -/
opaque freeFlags : List Nat → Nat

/-- The value of a function rated 1 or 2 ulp (R61): the command's operation and operands, the
function, the working format, the operand. -/
opaque freeFunc : List Nat → Nat

/-- The payload of a NaN written to a format too narrow for it (R47 does not say): format code, payload. -/
opaque freePayload : Nat → Nat → Nat

/-- The mordant of a block that a view moved unchanged fills from parts of two blocks (R255 does not say): address, format, row,
first column, block, mordant of the first part. -/
opaque freeMordant : List Nat → Nat

/-- The hash of a collective's operation and views that travels in COLL_JOIN (R362 does not define it): operation code, OP,
views and, for PERMUTE, the CRC-32C of the table. -/
opaque collHash : List Nat → Nat

/-- What a counter has counted since it was last looked at, for the codes of R432 whose count the manual does not fix (cycles,
traffic, work split between engines): the draw's serial. -/
opaque freeCount : Nat → Nat

/-- What befalls the module while it idles, by the draw's serial (R122, R241): a kind (0 a corrected memory error, 1 an uncorrectable one, 2 and 3
the same of a root engine's scratch) and the address or root engine; none for nothing. -/
opaque upset : Nat → Option (Nat × Nat)

/-- What befalls the links while the module idles, by the draw's serial (R336): the port, the lane, and whether the codeword could not be corrected;
none for nothing. -/
opaque linkNoise : Nat → Option (Nat × Nat × Bool)

/-- What the board presents as it changes (R515, R523, R527): KEEPER_SEL, MGMT_ADDR, the coolant's inlet and outlet temperatures as TEMP_COOLANT
holds them, the levels of its other pins, and what a scan would shift into the boundary register, by the draw's serial. -/
opaque board : Nat → Bool × Nat × Nat × Nat × Nat

/-- Does the fetch of a ring's entry from host memory meet poison or an error over CXL (R267): the ring, its enable count, the entry's count? -/
opaque hostFault : List Nat → Bool

/-- How far a root or solve command gets in a nanosecond: the draw's serial (R141, R165, R166). -/
opaque freeTick : Nat → Nat

/-- When a problem of a root or solve command ended (R130, R161), within what its command's course allows: the command, its run, the
problem. -/
opaque freeTime : List Nat → Nat

/-- A random byte string drawn by the module (nonces, SPAKE2+ scalars): the draw's serial, its length. -/
opaque freeRandom : Nat → Nat → List (BitVec 8)

/-- SHA-384 (FIPS 180), which the manual names by reference. -/
opaque sha384 : List (BitVec 8) → List (BitVec 8)

/-- HMAC-SHA-384: key, message. -/
opaque hmac384 : List (BitVec 8) → List (BitVec 8) → List (BitVec 8)

/-- HKDF-SHA-384 and HKDF-Expand-SHA-384 (R407, R408, R412, R415): key material, salt, info, length. -/
opaque hkdf384 : List (BitVec 8) → List (BitVec 8) → List (BitVec 8) → Nat → List (BitVec 8)

/-- SPAKE2+ (RFC 9383) on the verifier's side (R407): credential secret, the module's scalar, shareP; the answer is
shareV, confirmV, the expected confirmP, the transcript hash TT and K_shared. -/
opaque spake2 : List (BitVec 8) → List (BitVec 8) → List (BitVec 8) →
  List (BitVec 8) × List (BitVec 8) × List (BitVec 8) × List (BitVec 8) × List (BitVec 8)

/-- AES-256-GCM opening: key, nonce, ciphertext with tag; none when the tag fails. -/
opaque gcmOpen : List (BitVec 8) → List (BitVec 8) → List (BitVec 8) → Option (List (BitVec 8))

/-- AES-256-GCM sealing: key, nonce, plaintext; ciphertext with tag. -/
opaque gcmSeal : List (BitVec 8) → List (BitVec 8) → List (BitVec 8) → List (BitVec 8)

/-- RSASSA-PSS signature with IK_RSA (R396). -/
opaque signRsa : List (BitVec 8) → List (BitVec 8)

/-- SLH-DSA-SHA2-192f signature with IK_SLH (R396). -/
opaque signSlh : List (BitVec 8) → List (BitVec 8)

/-- The certificate chain in the boot flash (R397). -/
opaque certChain : List (BitVec 8)

/-- The public keys of IK_RSA, IK_SLH and RK (R396, R399). -/
opaque ikRsaPub : List (BitVec 8)
opaque ikSlhPub : List (BitVec 8)
opaque rkPub : List (BitVec 8)

/-- The hashes in the management controller's ROM: of the ROM itself, the firmware key record and the factory
configuration key record (R402, R404). -/
opaque romHash : List (BitVec 8)
opaque firmwareKey : List (BitVec 8)
opaque factoryKey : List (BitVec 8)

/-- What a configuration read answers at an offset (R376 names some fields and refers to CXL 3.1 for the rest). -/
opaque configSpace : Nat → Nat

/-- What a read of BAR0 outside MOD_STAT answers (R378 lists the component, device and MSI-X registers and refers to CXL 3.1
and PCIe for them): the draw's serial, the offset, the width. -/
opaque bar0 : Nat → Nat → Nat → Nat

/-- What a register of a block that no table describes reads as (R31 to R33 name the block and no rule its registers): the
draw's serial, the die, the offset, the width. -/
opaque blockReg : Nat → Nat → Nat → Nat → Nat

/-- Wadicen's JEP106 manufacturer code in the IDCODE (R521: "as given in the BSDL"). -/
opaque jep106 : Nat

end Sys2Proof.Config
end

