-- ==== Sys2Proof/Machine/Ops.lean ====
section
/-! DEFINITION. The named operations over memory, addresses and tables of the state. -/

set_option cleanup.letToHave false

namespace Sys2Proof.Machine

-- memory -----------------------------------------------------------------------------------------------------------

/-- A memory in canonical form: addresses rise strictly and no listed byte is 0, which is what an unlisted one reads. -/
def Memory.wf (m : List Host.Cell) : Bool := tableWf (0 : Byte) m

/-- The byte at an address; an unlisted address reads 0 (R504 step 10 for basin and core stores; DESIGN CHOICE for HBM
and host memory, notes/assumptions/1). -/
def memByte (m : List Host.Cell) (a : Nat) : Byte := tget (0 : Byte) m a

/-- One byte written. -/
def memPut (m : List Host.Cell) (a : Nat) (b : Byte) : List Host.Cell := tset (0 : Byte) m a b

/-- Consecutive bytes written. -/
def memWrite (m : List Host.Cell) (a : Nat) : List Byte → List Host.Cell
  | [] => m
  | b :: bs => memWrite (memPut m a b) (a + 1) bs

/-- Consecutive bytes read. -/
def memRead (m : List Host.Cell) (a : Nat) : Nat → List Byte
  | 0 => []
  | n + 1 => memByte m a :: memRead m (a + 1) n

/-- A range made zero. -/
def memZero (m : List Host.Cell) (a n : Nat) : List Host.Cell := m.filter (fun c => !(decide (a ≤ c.1) && decide (c.1 < a + n)))

-- the local physical map (R26 to R29) ------------------------------------------------------------------------------

def hbmEnd : Nat := 0x020000000000
def basinBase : Nat := 0x020000000000
def basinEnd : Nat := 0x021000000000
def coreBase : Nat := 0x021000000000
def coreEnd : Nat := 0x021040000000
def winBase : Nat := 0x030000000000
def wharfWin : Nat := 0x030800000000
def coreSlot (k : Nat) : Nat := coreBase + k * 0x200000

/-- Compute die whose HBM, basin or core stores hold a local physical address. -/
def dieOfAddr (a : Nat) : Nat :=
  if a < hbmEnd then a / 0x4000000000
  else if a < basinEnd then (a - basinBase) / 0x200000000
  else (a - coreBase) / 0x200000 / 64

/-- Does a range of bytes lie on a die, in whole or in part? -/
def touchesDie (d a n : Nat) : Bool :=
  let x := dieOfAddr a; let y := dieOfAddr (a + max n 1 - 1)
  decide (min x y ≤ d) && decide (d ≤ max x y)

/-- A die-to-die port exists: between neighbours on the ring of compute dies, or between a compute die and a wharf die (R17). -/
def d2dPort (a b : Nat) : Bool :=
  decide (a < 10) && decide (b < 10) &&
  (if a < 8 ∧ b < 8 then b == (a + 1) % 8 || b == (a + 7) % 8 else decide (a < 8) || decide (b < 8))

/-- The HBM stack of an HBM address, and the pseudo-channel within it (R27). -/
def stackOf (a : Nat) : Nat := a / 0x4000000000 * 4 + fld a 8 2
def pchanOf (a : Nat) : Nat := stackOf a * 64 + fld a 10 6

/-- The basin tier of a basin address, numbered over the module (R28). -/
def basinTierOf (a : Nat) : Nat := (a - basinBase) / 0x200000000 * 4 + fld a 8 2

/-- The unit that holds a local physical address: a pseudo-channel, a basin tier or a core's store (R27 to R29). -/
def unitOfAddr (a : Nat) : HwUnit :=
  if a < hbmEnd then .pchan (pchanOf a) else if a < basinEnd then .basin (basinTierOf a) else .core ((a - coreBase) / 0x200000)

/-- Is the local physical address backed memory (not registers)? -/
def backed (a : Nat) : Bool :=
  decide (a < basinEnd) || (decide (coreBase ≤ a) && decide (a < coreEnd) && decide ((a - coreBase) % 0x200000 < 0x180000))

def isHbm (a : Nat) : Bool := decide (a < hbmEnd)

/-- Register window that holds a TIER 3 address: die (8, 9 the wharf dies) and offset (R26). -/
def windowOf (a : Nat) : Option (Nat × Nat) :=
  if winBase ≤ a ∧ a < winBase + 0x80000000 then some ((a - winBase) / 0x10000000, (a - winBase) % 0x10000000)
  else if wharfWin ≤ a ∧ a < wharfWin + 0x20000000 then
    some (8 + (a - wharfWin) / 0x10000000, (a - wharfWin) % 0x10000000)
  else none

/-- Local physical address of an offset in a die's register window. -/
def winAddr (d off : Nat) : Nat := if d < 8 then winBase + d * 0x10000000 + off else wharfWin + (d - 8) * 0x10000000 + off

/-- A global address from its 64 bits (R22). -/
def gaddrOf (x : Nat) : GAddr := ⟨fld x 61 3, fld x 48 12, fld x 0 48⟩

/-- The 64 bits of a global address. -/
def GAddr.code (g : GAddr) : Nat := (g.tier <<< 61) + (g.peer <<< 48) + g.off

/-- A TIER 4 address whose PEER is the module's own is the TIER 0 address (R24). -/
def localise (s : State) (g : GAddr) : GAddr :=
  if g.tier = 4 ∧ g.peer = s.cfg.peerId then { g with tier := 0, peer := 0 } else g

def GAddr.plus (g : GAddr) (n : Nat) : GAddr := { g with off := g.off + n }

def gLocal (a : Nat) : GAddr :=
  if a < hbmEnd then ⟨0, 0, a⟩ else if a < basinEnd then ⟨1, 0, a⟩ else if a < coreEnd then ⟨2, 0, a⟩ else ⟨3, 0, a⟩

-- memory encryption (R414) -----------------------------------------------------------------------------------------

/-- The key of a job id of a session: each session has one K_mem for each job id (R412). -/
def memKeyOf (serial job : Nat) : Nat := (serial + 1) * 65536 + job

/-- The dead key: what no reader holds (R414: the K_mem of a job is destroyed when it ends). -/
def deadKey : Nat := 0

/-- Memory as the holder of a key reads it: every HBM byte written under another key is a free value. -/
def viewMem (m : List Host.Cell) (keys : List (Nat × Nat)) (key : Nat) : List Host.Cell :=
  keys.foldl (fun v k =>
    if k.2 = key then v
    else memPut v k.1 (BitVec.ofNat 8 (Config.freeByte k.1 key (memByte m k.1).toNat))) m

/-- The key of bytes whose contents the manual leaves undefined: no reader holds it, so that they read as free values. -/
def scratchKey : Nat := 1

/-- Bytes made undefined. -/
def setUndef (keys : List (Nat × Nat)) (a : Nat) : Nat → List (Nat × Nat)
  | 0 => keys
  | n + 1 => setUndef (tput keys a scratchKey) (a + 1) n

/-- Keys after a write of `n` bytes at `a` under a key; only HBM is encrypted. -/
def setKeys (keys : List (Nat × Nat)) (a : Nat) (key : Nat) : Nat → List (Nat × Nat)
  | 0 => keys
  | n + 1 => setKeys (if isHbm a then tput keys a key else tdel keys a) (a + 1) key n

/-- Bytes poisoned at a range: 32-byte units in HBM, 8-byte units elsewhere (R241). -/
def poisonUnit (a : Nat) : Nat := if isHbm a then a / 32 * 32 else a / 8 * 8
def poisonSize (a : Nat) : Nat := if isHbm a then 32 else 8

/-- The first poisoned unit that a range touches. -/
def poisonedIn (s : State) (a n : Nat) : Option Nat := s.poison.find? (fun p => overlap p (poisonSize p) a n)

/-- A write of `n` bytes at `a` frees the poisoned units it replaces wholly (R241). -/
def unpoison (p : List Nat) (a n : Nat) : List Nat := p.filter (fun u => !(inside u (poisonSize u) a n))

/-- Poisoned units that the writes of one commit replace wholly between them (R241). -/
def unpoisonAll (p : List Nat) (ws : List SWrite) : List Nat :=
  p.filter (fun u => !((List.range (poisonSize u)).all (fun i => ws.any (fun w =>
    decide (w.tgt.tier < 3) && inside (u + i) 1 w.tgt.off w.bytes.length))))

/-- Write local memory under a key: bytes, keys, poison. -/
def wrLocal (s : State) (key a : Nat) (bs : List Byte) : State :=
  { s with mem := memWrite s.mem a bs, keys := setKeys s.keys a key bs.length, poison := unpoison s.poison a bs.length }

/-- Write a range of the module's own structures (plain to every reader: DESIGN CHOICE, notes/assumptions/8). -/
def wrPlain (s : State) (a : Nat) (bs : List Byte) : State :=
  { s with mem := memWrite s.mem a bs, keys := s.keys.filter (fun k => !(decide (a ≤ k.1) && decide (k.1 < a + bs.length))),
           poison := unpoison s.poison a bs.length }

/-- Write host memory. -/
def wrHost (s : State) (a : Nat) (bs : List Byte) : State := { s with host := memWrite s.host a bs }

/-- Read bytes as the holder of a key does. -/
def rdKey (s : State) (key a n : Nat) : List Byte := memRead (viewMem s.mem (s.keys.filter (fun k => inside k.1 1 a n)) key) a n

/-- A job's HBM contents can no longer be recovered (R414): every byte under its key goes to the dead key. -/
def killKey (s : State) (key : Nat) : State :=
  { s with keys := s.keys.map (fun k => if k.2 = key then (k.1, deadKey) else k) }

-- tables -----------------------------------------------------------------------------------------------------------

def getDie (s : State) (d : Nat) : Die := tget Die.rest s.dies d
def setDie (s : State) (d : Nat) (x : Die) : State := { s with dies := tset Die.rest s.dies d x }
def getRing (s : State) (r : Nat) : Ring := tget Ring.rest s.rings r
def setRing (s : State) (r : Nat) (x : Ring) : State := { s with rings := tset Ring.rest s.rings r x }
def getLock (s : State) (l : Nat) : Lock := tget Lock.rest s.locks l
def setLock (s : State) (l : Nat) (x : Lock) : State := { s with locks := tset Lock.rest s.locks l x }
def getSes (s : State) (i : Nat) : Session := tget Session.rest s.sessions i
def setSes (s : State) (i : Nat) (x : Session) : State := { s with sessions := tset Session.rest s.sessions i x }
def getCounts (s : State) (i : Nat) : SlotCounts := tget SlotCounts.rest s.counts i
def setCounts (s : State) (i : Nat) (x : SlotCounts) : State := { s with counts := tset SlotCounts.rest s.counts i x }
def getPort (s : State) (p : Nat) : Port := tget Port.rest s.ports p
def setPort (s : State) (p : Nat) (x : Port) : State := { s with ports := tset Port.rest s.ports p x }
def getMemRegs (s : State) (d : Nat) : MemRegs := tget MemRegs.rest s.memRegs d
def setMemRegs (s : State) (d : Nat) (x : MemRegs) : State := { s with memRegs := tset MemRegs.rest s.memRegs d x }
def getRoot (s : State) (i : Nat) : RootRegs := tget RootRegs.rest s.roots i
def setRoot (s : State) (i : Nat) (x : RootRegs) : State := { s with roots := tset RootRegs.rest s.roots i x }
def getCnt (s : State) (d : Nat) : CntBlock := tget CntBlock.rest s.cnts d
def setCnt (s : State) (d : Nat) (x : CntBlock) : State := { s with cnts := tset CntBlock.rest s.cnts d x }
def getTrace (s : State) (d : Nat) : Trace := tget Trace.rest s.traces d
def setTrace (s : State) (d : Nat) (x : Trace) : State := { s with traces := tset Trace.rest s.traces d x }
def getSic (s : State) (d : Nat) : Sic := tget Sic.rest s.sics d
def setSic (s : State) (d : Nat) (x : Sic) : State := { s with sics := tset Sic.rest s.sics d x }

/-- The active job of an id. -/
def findJob (s : State) (j : Nat) : Option Job := s.jobs.find? (fun x => x.id == j)
def updJob (s : State) (j : Nat) (f : Job → Job) : State :=
  { s with jobs := s.jobs.map (fun x => if x.id = j then f x else x) }

/-- The accepted command of a handle. -/
def findCmd (s : State) (c : Nat) : Option Cmd := s.cmds.find? (fun x => x.id == c)
def putCmd (s : State) (c : Cmd) : State := { s with cmds := s.cmds.map (fun x => if x.id = c.id then c else x) }
def updCmd (s : State) (i : Nat) (f : Cmd → Cmd) : State := { s with cmds := s.cmds.map (fun x => if x.id = i then f x else x) }
def dropCmd (s : State) (c : Nat) : State :=
  { s with cmds := s.cmds.filter (fun x => !(x.id == c)), queueRe := s.queueRe.filter (fun x => !(x == c)) }

/-- Dies in service, ascending. -/
def diesUp (s : State) : List Nat := (List.range 8).filter (fun d => (getDie s d).up)

/-- Are the units of a compute die served (R477, R476)? -/
def dieServed (s : State) (d : Nat) : Bool := (getDie s d).up

/-- READY (R504). -/
def ready (s : State) : Bool := s.power.phase == 7

/-- The memory key of a command's job (R412, R414). -/
def jobKey (s : State) (sess job : Nat) : Nat :=
  match findJob s job with
  | some j => j.memKey
  | none => memKeyOf (getSes s sess).serial job

/-- Bytes of a die's pounds (R235), as the configuration record sets them. -/
def basinPoundBytes (s : State) : Nat := s.cfg.basinPound * 0x100000
def hbmPoundBytes (s : State) : Nat := s.cfg.hbmPound * 0x40000000

/-- First address of a die's HBM pound, at the top of its HBM range, and of its part of the dump region below it
(R235, R446). -/
def hbmPoundBase (s : State) (d : Nat) : Nat := (d + 1) * 0x4000000000 - hbmPoundBytes s
def dumpBase (s : State) (d : Nat) : Nat := hbmPoundBase s d - 0x20000000
def basinPoundBase (s : State) (d : Nat) : Nat := basinBase + (d + 1) * 0x200000000 - basinPoundBytes s

/-- Does a local range touch a pound or the dump region? -/
def inPound (s : State) (a n : Nat) : Bool :=
  (List.range 8).any (fun d =>
    overlap a n (dumpBase s d) (hbmPoundBytes s + 0x20000000) || overlap a n (basinPoundBase s d) (basinPoundBytes s))

/-- Granules of a range (R236). -/
def granulesOf (a n : Nat) : List Nat := if n = 0 then [] else (List.range ((a + n - 1) / 256 - a / 256 + 1)).map (fun i => (a / 256 + i) * 256)

/-- The pound that holds staged bytes of a local address, for a command that runs on die `d` (R236): index die * 2 +
(1 for HBM). -/
def poundOf (d a : Nat) : Nat := if isHbm a then dieOfAddr a * 2 + 1 else d * 2

/-- Published granules join the drain queue in commit order; one that still drains drains once (R238). -/
def poundPublish (s : State) (d : Nat) (ws : List SWrite) : State :=
  ws.foldl (fun s w =>
    if w.tgt.tier < 3 then
      (granulesOf w.tgt.off w.bytes.length).foldl (fun s a =>
        let p := poundOf d a
        if s.poundQ.any (fun q => q.addr == a) then s
        else { s with poundQ := s.poundQ ++ [⟨p / 2, p % 2 == 1, a⟩] }) s
    else s) s

/-- The bytes of a list of staged writes published: local memory under a key, host memory. TIER 4 writes are the
lenders' to publish. -/
def publishWrites (s : State) (key : Nat) (ws : List SWrite) : State :=
  let s := ws.foldl (fun s w =>
    if w.tgt.tier < 3 then wrLocal s key w.tgt.off w.bytes
    else if w.tgt.tier = 5 then wrHost s w.tgt.off w.bytes
    else s) s
  { s with poison := unpoisonAll s.poison ws }

end Sys2Proof.Machine
end

