-- ==== Sys2Proof/Machine/Signal.lean ====
section
/-! DEFINITION. Signal controllers (chapter 14): moderation, routing, delivery, the states of a source, and the rows
that act on a controller. -/

set_option cleanup.letToHave false

namespace Sys2Proof.Machine

def Sic.src (c : Sic) (i : Nat) : Source := tget Source.rest c.sources i
def Sic.setSrc (c : Sic) (i : Nat) (x : Source) : Sic := { c with sources := tset Source.rest c.sources i x }
def Sic.tgt (c : Sic) (t : Nat) : Target := tget Target.rest c.targets t
def Sic.setErr (c : Sic) (e : Nat) : Sic := { c with err := e }
def Sic.setTgt (c : Sic) (t : Nat) (x : Target) : Sic := { c with targets := tset Target.rest c.targets t x }

/-- Sources that exist on a compute die (R465). -/
def sourceC (i : Nat) : Bool :=
  decide (i < 120) || (decide (128 ≤ i) && decide (i < 196)) || (decide (200 ≤ i) && decide (i < 204)) ||
  (decide (256 ≤ i) && decide (i < 768))

/-- Sources that exist on wharf die k (R466). -/
def sourceW (k i : Nat) : Bool :=
  decide (i < 24) || (decide (24 ≤ i) && decide (i < 28) && k == 0) || (i == 28 && k == 0) || i == 29 ||
  (decide (128 ≤ i) && decide (i < 192)) || (decide (256 ≤ i) && decide (i < 768))

/-- Is source `i` of a die not reserved? -/
def sourceOk (d i : Nat) : Bool := if d < 8 then sourceC i else sourceW (d - 8) i

/-- Bits of word `w` of a bitmap register that a test of sources sets. -/
def bitWord (w : Nat) (p : Nat → Bool) : Nat := ((List.range 32).filter (fun b => p (32 * w + b))).foldl (fun a b => a + 2 ^ b) 0

/-- Eligible targets of a source (R454). -/
def eligible (c : Sic) (x : Source) (t : Nat) : Bool := bit x.mask t && (c.tgt t).enable

/-- The first eligible target after LAST, in ascending order modulo 16 (R454). -/
def routeTo (c : Sic) (x : Source) : Option Nat :=
  ((List.range 16).map (fun k => (x.last + 1 + k) % 16)).find? (eligible c x)

/-- The running priority of a target (R455). -/
def runLevel (g : Target) : Nat := match g.stack with | [] => 32 | (_, p) :: _ => p

/-- A core that waits resumes, if it is to. -/
def resume (c : Sic) (t : Nat) (on : Bool) : Sic := if on then c.setTgt t { c.tgt t with idle := false } else c

/-- Assign a pending source by routing; with no eligible target it stays unassigned and UNROUTABLE is set (R454). -/
def assign (c : Sic) (i : Nat) : Sic :=
  let x := c.src i
  match routeTo c x with
  | some t =>
    let c := c.setSrc i { x with assigned := some t, activeOn := t, last := t }
    -- an idle core resumes when its line is asserted (R453, R462)
    let y := c.src i
    let g := c.tgt t
    resume c t (g.idle && c.ctrl && y.enabled && decide (y.prio < runLevel g) && bit g.levelEn y.prio)
  | none => (c.setSrc i { x with assigned := none }).setErr (setFld (setBit c.err 2 true) 20 10 i)

/-- A source becomes pending (R453, R454). -/
def becomePending (c : Sic) (i : Nat) : Sic :=
  let x := c.src i
  assign (c.setSrc i { x with state := 1, held := false, heldCount := 0 }) i

/-- Is the target that routing would choose for a source idle (R453)? -/
def chosenIdle (c : Sic) (x : Source) : Bool := match routeTo c x with | some t => (c.tgt t).idle | none => false

/-- One firing of a source at a device time, through moderation and the states of R458. -/
def fireSic (now : Nat) (c : Sic) (i : Nat) : Sic :=
  let x := c.src i
  let more := { x with coalesced := min (x.coalesced + 1) 255 }
  if x.state = 1 ∨ x.state = 3 then c.setSrc i more
  else if x.state = 2 then c.setSrc i { more with state := 3 }
  else if x.held then
    let n := x.heldCount + 1
    if x.modCount ≤ n then becomePending c i else c.setSrc i { x with heldCount := min n 255 }
  else
    if x.modCount ≤ 1 ∨ chosenIdle c x = true then becomePending c i
    else c.setSrc i { x with held := true, heldCount := 1, heldAt := now }

/-- Fire a source of a die. A fenced compute die's controller has stopped (R464). -/
def fire (s : State) (d i : Nat) : State :=
  if !sourceOk d i || (decide (d < 8) && (getDie s d).fenced) then s else setSic s d (fireSic s.time (getSic s d) i)

/-- Is a source deliverable to a target (R455)? -/
def deliverable (c : Sic) (t i : Nat) : Bool :=
  let x := c.src i
  let g := c.tgt t
  x.state == 1 && x.assigned == some t && x.enabled && decide (x.prio < runLevel g) && bit g.levelEn x.prio

/-- The offered source of a target: lowest priority number, then lowest source number (R455). -/
def offered (c : Sic) (t : Nat) : Option Nat :=
  let xs := (c.sources.map Prod.fst).filter (deliverable c t)
  xs.foldl (fun b i => match b with
    | none => some i
    | some j => if (c.src i).prio < (c.src j).prio then some i else some j) none

/-- The interrupt line of a target (R455). -/
def lineOf (c : Sic) (t : Nat) : Bool := c.ctrl && (offered c t).isSome

/-- A core that waits resumes once its line is asserted. -/
def wake (c : Sic) : Sic :=
  (List.range 16).foldl (fun c t => resume c t ((c.tgt t).idle && lineOf c t)) c

/-- Pending sources whose target stopped being eligible are assigned again, and unassigned ones that gained an eligible
target are assigned (R454). -/
def reassign (c : Sic) : Sic :=
  (c.sources.map Prod.fst).foldl (fun c i =>
    let x := c.src i
    if x.state = 1 then
      match x.assigned with
      | some t => if eligible c x t then c else assign c i
      | none => match routeTo c x with | some _ => assign c i | none => c
    else c) c

/-- A held source whose settings would release it becomes pending (R453). -/
def heldRelease (now : Nat) (c : Sic) (i : Nat) : Sic :=
  let x := c.src i
  if x.held && (decide (x.modCount ≤ x.heldCount) || chosenIdle c x ||
      (decide (0 < x.modTimer) && decide (x.heldAt + x.modTimer * 100 ≤ now))) then becomePending c i
  else c

/-- TAKE of source `i` by target `t` (R456). -/
def takeSic (c : Sic) (t i : Nat) : Sic :=
  let g := c.tgt t
  let x := c.src i
  if deliverable c t i then
    (c.setSrc i { x with state := 2, assigned := none, activeOn := t, coalesced := 0 }).setTgt t
      { g with stack := (i, x.prio) :: g.stack, miss := false, idle := false }
  else (c.setTgt t { g with miss := true }).setErr (setFld (setBit c.err 3 true) 16 4 t)

/-- EOI of target `t` naming source `i` (R457). -/
def eoiSic (c : Sic) (t i : Nat) : Sic :=
  let g := c.tgt t
  match g.stack with
  | [] => c.setErr (setFld (setBit c.err 0 true) 16 4 t)
  | (j, _) :: rest =>
    let c := c.setTgt t { g with stack := rest }
    let c := if i = j then c else c.setErr (setFld (setBit c.err 1 true) 16 4 t)
    let x := c.src j
    if x.state = 2 then c.setSrc j { x with state := 0, activeOn := x.last }
    else if x.state = 3 then
      if (c.tgt t).enable then c.setSrc j { x with state := 1, assigned := some t, activeOn := t }
      else assign (c.setSrc j { x with state := 1, assigned := none }) j
    else c

/-- PEND_CLR of a source (R458). -/
def pendClr (c : Sic) (i : Nat) : Sic :=
  let x := c.src i
  if x.state = 0 then c.setSrc i { x with held := false, heldCount := 0 }
  else if x.state = 1 then c.setSrc i { x with state := 0, assigned := none, activeOn := x.last }
  else if x.state = 3 then c.setSrc i { x with state := 2 }
  else c

/-- The sources of a die that the bits of a written word name. -/
def wordSources (d w value : Nat) : List Nat :=
  ((List.range 32).filter (fun b => bit value b && sourceOk d (32 * w + b))).map (fun b => 32 * w + b)

/-- Apply a function to each source of a written word, then let idle cores resume. -/
def onWord (s : State) (d w value : Nat) (f : Sic → Nat → Sic) : State :=
  setSic s d (wake ((wordSources d w value).foldl f (getSic s d)))

/-- A controller answers while its die does (R477, R464): a compute die must not be fenced. -/
def sicServed (s : State) (d : Nat) : Bool := !(decide (d < 8) && (getDie s d).fenced)

-- rows -------------------------------------------------------------------------------------------------------------

/-- SIC_TAKE: a write by the target's own Hamir core; by any other agent it has no effect (R456). -/
def execSicTake (die target source : Nat) (own : Bool) (s : State) : Host.Outcome State Fault Refusal :=
  .next (if own && sicServed s die then setSic s die (takeSic (getSic s die) target source) else s)

/-- SIC_EOI (R457). -/
def execSicEoi (die target source : Nat) (s : State) : Host.Outcome State Fault Refusal :=
  .next (if sicServed s die then setSic s die (wake (eoiSic (getSic s die) target source)) else s)

/-- SIC_PEND_SET: software set-pending of each source whose bit is written 1 (R452). -/
def execSicPendSet (die w value : Nat) (s : State) : Host.Outcome State Fault Refusal :=
  .next (if sicServed s die then onWord s die w value (fireSic s.time) else s)

/-- SIC_PEND_CLR (R458). -/
def execSicPendClr (die w value : Nat) (s : State) : Host.Outcome State Fault Refusal :=
  .next (if sicServed s die then onWord s die w value pendClr else s)

/-- SIC_EN_SET (R459). -/
def execSicEnSet (die w value : Nat) (s : State) : Host.Outcome State Fault Refusal :=
  .next (if sicServed s die then onWord s die w value (fun c i => c.setSrc i { c.src i with enabled := true }) else s)

/-- SIC_EN_CLR (R459): a pending source keeps its assignment and is not delivered (R455). -/
def execSicEnClr (die w value : Nat) (s : State) : Host.Outcome State Fault Refusal :=
  .next (if sicServed s die then onWord s die w value (fun c i => c.setSrc i { c.src i with enabled := false }) else s)

/-- SIC_SRC_CFG: priority and target mask take effect at once (R460, R454). -/
def execSicSrcCfg (die source value : Nat) (s : State) : Host.Outcome State Fault Refusal :=
  .next (if sicServed s die then
    let c := getSic s die
    setSic s die (wake (reassign (c.setSrc source { c.src source with prio := fld value 0 5, mask := fld value 16 16 })))
  else s)

/-- SIC_SRC_MOD: the new values may release a held source (R453, R460). -/
def execSicSrcMod (die source value : Nat) (s : State) : Host.Outcome State Fault Refusal :=
  .next (if sicServed s die then
    let c := getSic s die
    let c := c.setSrc source { c.src source with modCount := fld value 0 8, modTimer := fld value 8 16 }
    setSic s die (wake (heldRelease s.time c source))
  else s)

/-- SIC_TGT_CTRL: pending sources of a disabled target are assigned again (R454, R461, R462). -/
def execSicTgtCtrl (die target value : Nat) (s : State) : Host.Outcome State Fault Refusal :=
  .next (if sicServed s die then
    let c := getSic s die
    setSic s die (wake (reassign (c.setTgt target { c.tgt target with enable := bit value 0 })))
  else s)

/-- SOURCE_FIRE: one occurrence reported by a unit (R451). -/
def execSourceFire (die source : Nat) (s : State) : Host.Outcome State Fault Refusal :=
  .next (fire s die source)

/-- TARGET_IDLE: the target's core executes its wait for an interrupt; sources held for it become pending (R453). -/
def execTargetIdle (die target : Nat) (s : State) : Host.Outcome State Fault Refusal :=
  .next (if sicServed s die then
    let c := getSic s die
    let c := c.setTgt target { c.tgt target with idle := true }
    let due := ((c.sources.map Prod.fst).filter (fun i => (c.src i).held && routeTo c (c.src i) == some target)).eraseDups
    setSic s die (wake (due.foldl becomePending c))
  else s)

end Sys2Proof.Machine
end

