-- ==== Sys2Proof/Machine/Observe.lean ====
section
/-! DEFINITION. Hardware counters, the trace block and the passing of device time (chapter 13), and their rows. -/

set_option cleanup.letToHave false

namespace Sys2Proof.Machine

-- counters ---------------------------------------------------------------------------------------------------------

/-- First slots of the counters of a unit in the counter block of its die, and how many (R428). -/
def slotsDie : Nat × Nat := (0x1000, 64)
def slotsCore (k : Nat) : Nat × Nat := (0x10000 + k * 0x400, 16)
def slotsEngine (k e : Nat) : Nat × Nat := (0x10000 + k * 0x400 + 0x100 + e * 0x80, 8)
def slotsRoot (i : Nat) : Nat × Nat := (0x20000 + i / 2 * 0x400 + i % 2 * 0x80, 8)
def slotsMove (i : Nat) : Nat × Nat := (0x20000 + i / 4 * 0x400 + 0x100 + i % 4 * 0x80, 8)

/-- Does a counter count an event of a code with this attribution (R429, R431)? -/
def counts (c : Counter) (code : Nat) (attr : Option (Nat × Nat)) : Bool :=
  fld c.sel 0 8 == code && bit c.sel 8 &&
  (match attr with
   | none => !bit c.sel 9 && !bit c.sel 10
   | some (job, layer) => (!bit c.sel 9 || fld c.filter 0 16 == job) && (!bit c.sel 10 || fld c.filter 16 16 == layer))

/-- Add to the counters of a block that lie in a range of slots (R10: 48 bits, wrapping; R430: a wrapped die counter
sets its bit). -/
def cntBump (b : CntBlock) (slots : Nat × Nat) (code n : Nat) (attr : Option (Nat × Nat)) : CntBlock :=
  if b.freeze then b
  else b.counters.foldl (fun b e =>
    if slots.1 ≤ e.1 ∧ e.1 < slots.1 + slots.2 * 16 ∧ counts e.2 code attr = true then
      let v := e.2.value + n
      { b with
        counters := tset Counter.rest b.counters e.1 { e.2 with value := v % 2 ^ 48 },
        wrapped := if 2 ^ 48 ≤ v ∧ 0x1000 ≤ e.1 ∧ e.1 < 0x1400 then setBit b.wrapped ((e.1 - 0x1000) / 16) true else b.wrapped }
    else b) b

/-- Count an event on a die. The counters of a fenced die stop (R431). -/
def count (s : State) (d : Nat) (slots : Nat × Nat) (code n : Nat) (attr : Option (Nat × Nat)) : State :=
  if decide (d < 8) && (getDie s d).fenced then s
  else
    let b := getCnt s d
    let b' := cntBump b slots code n attr
    let s := setCnt s d b'
    if b.wrapped = b'.wrapped then s else fire s d 202

/-- Codes of R432 whose count the manual does not fix: cycles, memory and link traffic, and work that it does not split between
the engines that do it. Such a counter grows by free values (notes/assumptions/39). -/
def openCodes : List Nat :=
  [0x01, 0x10, 0x11, 0x12, 0x13, 0x14, 0x15, 0x16, 0x17, 0x18, 0x19, 0x20, 0x23, 0x28, 0x29, 0x30, 0x31, 0x33, 0x38, 0x39, 0x3A,
    0x3B, 0x3C, 0x44, 0x45, 0x46, 0x47, 0x50, 0x51, 0x52, 0x53, 0x54, 0x55, 0x56, 0x60, 0x70, 0x71, 0x76, 0x77]

/-- Every counter of an open code grows by a free value, as time passes or a run ends. -/
def drift (s : State) (attr : Option (Nat × Nat)) : State :=
  s.cnts.foldl (fun s b => b.2.counters.foldl (fun s e =>
    let k := fld e.2.sel 0 8
    if openCodes.contains k then count { s with fresh := s.fresh + 1 } b.1 (e.1, 1) k (Config.freeCount s.fresh) attr else s) s) s

-- device time ------------------------------------------------------------------------------------------------------

/-- Every counter that counts nanoseconds of device time moves with it (R432 DEVICE_NS). -/
def countNs (s : State) (n : Nat) : State :=
  (List.range 10).foldl (fun s d =>
    count (count s d (0x1000, 64) 0x02 n none) d (0x10000, 0x3000) 0x02 n none) s

/-- Device time moved forward to `t`; it never decreases (R501). -/
def timeTo (s : State) (t : Nat) : State :=
  if s.time < t then { drift (countNs s (t - s.time)) none with time := t } else s

-- trace ------------------------------------------------------------------------------------------------------------

/-- The bytes of a trace record (R440). -/
def TrRec.bytes (r : TrRec) (trigger : Bool) : List Byte :=
  leBytes 8 r.time ++ leBytes 1 (r.kind + (if trigger then 16 else 0)) ++ [0] ++ leBytes 2 r.job ++ leBytes 2 r.layer ++
  leBytes 2 r.oper ++ leBytes 4 r.seq ++ leBytes 2 r.eng ++ leBytes 2 r.opc ++ leBytes 8 r.data

/-- Record slots of the buffer: N (R442). -/
def trSlots (t : Trace) : Nat := 2 ^ (fld t.size 0 6 - 5)

/-- Pre-trigger share and floor (R439, R443). -/
def trPre (t : Trace) : Nat := if fld t.ctrl 3 7 = 0 then 25 else fld t.ctrl 3 7
def trFloorLog (t : Trace) : Nat := if fld t.ctrl 10 4 = 0 then 4 else fld t.ctrl 10 4

/-- Is a record generated (R439)? Kinds 1 to 8 arise from commands and events; 14 is always enabled. -/
def trWanted (t : Trace) (r : TrRec) : Bool :=
  (r.kind == 14 || bit t.kinds r.kind) &&
  (r.kind == 9 || r.kind == 14 || !bit t.filter 16 || fld t.filter 0 16 == r.job) &&
  (decide (7 < r.kind) || (decide (fld t.layers 0 16 ≤ r.layer) && decide (r.layer ≤ fld t.layers 16 16)))

/-- Does a record meet TR_TRIG (R439)? -/
def trMatches (t : Trace) (r : TrRec) : Bool :=
  bit t.trig 0 && fld t.trig 1 4 == r.kind &&
  (fld t.trig 5 8 == 0xFF || !(r.kind == 3 || r.kind == 4 || r.kind == 8) || fld t.trig 5 8 == r.data % 256)

/-- The slot after `i`, skipping the trigger record's (R442). -/
def trNext (t : Trace) (i : Nat) : Nat :=
  let n := trSlots t
  let j := (i + 1) % n
  if j = t.trigIdx then (j + 1) % n else j

/-- Is a slot one of the kept pre-trigger records (R443)? -/
def trKept (t : Trace) (i : Nat) : Bool :=
  let n := trSlots t
  decide ((i + n - t.keptAt % n) % n < t.keptN)

/-- Write the bytes of a slot under the key of TR_JOB, which must belong to the session that holds the privileged map, into
a TIER 0 buffer aligned to its size (R438). -/
def trPut (s : State) (t : Trace) (slot : Nat) (bs : List Byte) : State :=
  let g := gaddrOf t.base
  match findJob s t.job with
  | none => s
  | some j =>
    if s.cxl.privBy = some j.sess ∧ g.tier = 0 ∧ g.off % 2 ^ fld t.size 0 6 = 0 then wrLocal s j.memKey (g.off + slot * 32) bs
    else s

/-- Capture stops with STATE 3; TR_OLDEST names the oldest record kept (R439, R443). -/
def trStop (t : Trace) : Trace :=
  let old := if t.trigIdx ≠ 0xFFFFFFFF ∧ fld t.ctrl 1 2 = 2 then (if t.keptN = 0 then t.trigIdx else t.keptAt)
    else if t.wrapped then t.next else 0
  { t with state := 3, oldest := if t.written = 0 then 0xFFFFFFFF else old }

/-- One record reaches the trace block of a die (R441 to R443). -/
def traceRec (s : State) (d : Nat) (r : TrRec) : State :=
  let t := getTrace s d
  if t.state = 0 ∨ t.state = 3 ∨ trWanted t r = false then s
  else
    let n := trSlots t
    let mode := fld t.ctrl 1 2
    let isTrig := t.trigIdx == 0xFFFFFFFF && (t.trigNow || trMatches t r)
    let slot := t.next
    let full := decide (n ≤ t.written)
    let after := t.trigIdx != 0xFFFFFFFF
    let s := trPut s t slot (r.bytes isTrig)
    let t1 := { t with written := (t.written + 1) % 2 ^ 48 }
    let res : State × Trace :=
      if isTrig then
        let pre := min t.written n
        let k := min (ceilDiv (n * trPre t) 100) pre
        let t2 := { t1 with state := 2, trigIdx := slot, trigNow := false, trig := setBit t.trig 0 false,
                            next := (slot + 1) % n, postN := 0,
                            keptAt := (slot + n - k) % n, keptN := k, gap := 0 }
        (fire s d 200, t2)
      else if after && mode == 2 && trKept t slot then
        -- the oldest kept record is overwritten and the next kept slot becomes a GAP record
        let g := if t.gap = 0 then 2 else t.gap + 1
        let nx := (slot + 1) % n
        let t2 := { t1 with keptAt := nx, keptN := t.keptN - 1, gap := g, postN := t.postN + 1, next := nx,
                            lost := (t.lost + (if t.gap = 0 then 2 else 1)) % 2 ^ 48 }
        let gr : TrRec := ⟨s.time, 14, 0, 0xFFFF, 0xFFFF, 0, 0, 0, g⟩
        (trPut s t nx (gr.bytes false), t2)
      else (s, { t1 with next := trNext t slot, postN := (if after then t.postN + 1 else 0) })
    let s := res.1
    let t3 := if full && mode != 0 then { res.2 with wrapped := true } else res.2
    let fl := max 1 (min (n / 2 ^ trFloorLog t3) t3.keptN)
    let stop :=
      (mode == 0 && decide (n ≤ t3.written)) ||
      (mode == 2 && t3.trigIdx != 0xFFFFFFFF && (trKept t3 t3.next || t3.next == t3.trigIdx) &&
        decide (t3.keptN ≤ (if t3.gap = 0 then fl else max 1 (min (n / 2 ^ trFloorLog t3) (t3.keptN + t3.gap - 1)))))
    let s := count s d slotsDie 0x61 1 none
    if stop then fire (setTrace s d (trStop t3)) d 201 else setTrace s d t3

/-- A trace record of kind `k` with no command. -/
def trPlain (s : State) (k data : Nat) : TrRec := ⟨s.time, k, 0, 0xFFFF, 0xFFFF, 0, 0, 0, data⟩

/-- A trace record of a command (R440). -/
def trCmd (s : State) (c : Cmd) (eng k data : Nat) : TrRec :=
  ⟨s.time, k, c.pkt.job, c.pkt.layer, c.pkt.operator, c.pkt.seq, eng, c.pkt.opcode, data⟩

-- rows -------------------------------------------------------------------------------------------------------------

/-- Is the counter or trace block of a die served (R477)? -/
def blockServed (s : State) (d : Nat) : Bool := !(decide (d < 8) && (getDie s d).fenced)

/-- CNT_CTRL: FREEZE and ARM (R430). -/
def execCntCtrl (die value : Nat) (s : State) : Host.Outcome State Fault Refusal :=
  .next (if blockServed s die then setCnt s die { getCnt s die with freeze := bit value 0, arm := bit value 1 } else s)

/-- CNT_CLEAR: every value of the block becomes 0; selections and filters stay (R430). -/
def execCntClear (die value : Nat) (s : State) : Host.Outcome State Fault Refusal :=
  .next (if blockServed s die && bit value 0 then
    let b := getCnt s die
    setCnt s die { b with counters := (b.counters.map Prod.fst).foldl (fun m k => tset Counter.rest m k { tget Counter.rest m k with value := 0 }) b.counters }
  else s)

/-- COUNTER_FREEZE: device time reaches CNT_FREEZE_AT while ARM is 1 (R430). -/
def execCounterFreeze (die : Nat) (s : State) : Host.Outcome State Fault Refusal :=
  .next (if (getCnt s die).arm && blockServed s die then
    let s := timeTo s (getCnt s die).freezeAt
    fire (setCnt s die { getCnt s die with freeze := true, arm := false }) die 203
  else s)

/-- TR_CTRL: while ENABLE is 1 a write keeps MODE; setting ENABLE from 0 to 1 starts capture; clearing it stops capture
at once (R439, R444). -/
def execTrCtrl (die value : Nat) (s : State) : Host.Outcome State Fault Refusal :=
  .next (if blockServed s die then
    let t := getTrace s die
    let on := bit t.ctrl 0
    let v := fld value 0 14
    -- reserved encodings keep the field (R6): MODE 3, PRE_PCT above 99, FLOOR_LOG above 12
    let v := if fld v 1 2 = 3 ∨ on = true then setFld v 1 2 (fld t.ctrl 1 2) else v
    let v := if 99 < fld v 3 7 then setFld v 3 7 (fld t.ctrl 3 7) else v
    let v := if 12 < fld v 10 4 then setFld v 10 4 (fld t.ctrl 10 4) else v
    if !on && bit v 0 then
      setTrace s die { t with
        ctrl := v, state := 1, wrapped := false, written := 0, lost := 0, trigIdx := 0xFFFFFFFF,
        oldest := 0xFFFFFFFF, trigNow := false, next := 0, postN := 0, keptAt := 0, keptN := 0, gap := 0 }
    else if on && !bit v 0 then
      setTrace s die { trStop t with ctrl := v, state := 0 }
    else setTrace s die { t with ctrl := v }
  else s)

/-- TR_TRIG_NOW: the next record written is the trigger record (R439, R441). -/
def execTrTrigNow (die value : Nat) (s : State) : Host.Outcome State Fault Refusal :=
  .next (if blockServed s die && bit value 0 then setTrace s die { getTrace s die with trigNow := true } else s)

/-- TR_MARK: a kind 9 record that carries the value (R439, R440). -/
def execTrMark (die value : Nat) (s : State) : Host.Outcome State Fault Refusal :=
  .next (if blockServed s die then traceRec s die (trPlain s 9 (value % 2 ^ 32)) else s)

/-- MODERATION_TIMER: device time reaches the hold start plus TIMER × 100 ns of a held source (R453). -/
def execModerationTimer (die source : Nat) (s : State) : Host.Outcome State Fault Refusal :=
  .next (let x := (getSic s die).src source
    if sicServed s die && x.held && decide (0 < x.modTimer) then
      let s := timeTo s (x.heldAt + x.modTimer * 100)
      setSic s die (wake (becomePending (getSic s die) source))
    else s)

end Sys2Proof.Machine
end

