-- ==== Sys2Proof/Machine/Events.lean ====
section
/-! DEFINITION. Event records: raising and delivery (R467 to R471), MSI-X vectors, and the messages the module sends. -/

set_option cleanup.letToHave false

namespace Sys2Proof.Machine

/-- The class of an event (R471, R472). -/
def evClass (code : Nat) (failed : Bool) : Nat :=
  if code = 0x04 ∨ code = 0x1F then 2
  else if code ∈ [0x08, 0x0A, 0x0D, 0x0E, 0x0F, 0x10, 0x12, 0x14, 0x1B, 0x1C, 0x2B, 0x2C] then 1
  else if code = 0x20 ∨ code = 0x21 ∨ code = 0x30 then 3
  else if code = 0x31 then 4
  else if code = 0x1A ∧ failed = true then 3
  else 0

/-- An MSI-X vector fires (R379) while the host link is up. -/
def fireMsix (s : State) (v : Nat) : State := if s.power.linkUp then { s with msix := s.msix ++ [v] } else s

/-- One record into one queue of at most 4,096 (R469); true if the queue was empty before and is not after. -/
def qPush (q : EventQ) (e : Event) : EventQ × Bool :=
  if q.recs.length < 4096 then ({ q with recs := q.recs ++ [e] }, q.recs.isEmpty) else ({ q with lost := q.lost + 1 }, false)

/-- The session whose queue receives an event: of its job, or the one given for job 0 and rings (R469). -/
def evSession (s : State) (e : Event) (ses : Option Nat) : Option Nat :=
  match ses with
  | some x => some x
  | none => (findJob s e.job).map Job.sess

/-- Step 3 of R469: copy the record into its queues; vector 129 fires when one gains its first record. -/
def deliver (s : State) (e : Event) (ses : Option Nat) : State :=
  let who := evSession s e ses
  let s1 := match who with
    | none => (s, false)
    | some x => let r := qPush (tget EventQ.rest s.sesQ x) e; ({ s with sesQ := tset EventQ.rest s.sesQ x r.1 }, r.2)
  let wantMod := decide (3 ≤ e.cls) || e.job == 0xFFFF || who.isNone
  let s2 := if wantMod then let r := qPush s1.1.modQ e; ({ s1.1 with modQ := r.1 }, s1.2 || r.2) else s1
  if s2.2 then fireMsix s2.1 129 else s2.1

/-- Raise an event at a place: 0-7 compute die, 8, 9 wharf die, 0xF Nushaond, which raises it on wharf 0 (R468).
Events raised during start-up are delivered at READY (R504). The trace record carries an operator where the event has one
(R107, R440), 0xFFFF otherwise; `attr` is the command that it arises from, if one (R431). -/
def raiseOp (s : State) (attr : Option (Nat × Nat)) (oper place code : Nat) (failed : Bool) (ses : Option Nat) (job layer seq d0 d1 d2 : Nat) : State :=
  let d := if place = 0xF then 8 else place
  let e : Event := ⟨s.time, code, evClass code failed, s.cfg.peerId + place * 4096, job, layer, seq, d0 % 2 ^ 32, d1 % 2 ^ 32,
    d2 % 2 ^ 32⟩
  let x := getDie s d
  let s := setDie s d { x with events := (x.events + 1) % 2 ^ 48, log := (x.log ++ [e]).drop (x.log.length + 1 - 4096) }
  let s := count s d slotsDie 0x62 1 attr
  let s := traceRec s d ⟨s.time, 8, job, layer, oper, seq, 0, 0, code + d0 % 2 ^ 32 * 2 ^ 32⟩
  let s := fire s d (128 + code / 4)
  if s.power.phase < 7 then { s with power := { s.power with bootEvents := s.power.bootEvents ++ [e] } }
  else deliver s e ses

/-- An event that carries no operator. -/
def raiseFor (s : State) (place code : Nat) (failed : Bool) (ses : Option Nat) (job layer seq d0 d1 d2 : Nat) : State :=
  raiseOp s (if layer = 0xFFFF then none else some (job, layer)) 0xFFFF place code failed ses job layer seq d0 d1 d2

/-- An event of a job, or of none (job 0xFFFF). -/
def raise (s : State) (place code job layer seq d0 d1 d2 : Nat) : State :=
  raiseFor s place code false none job layer seq d0 d1 d2

/-- An event of no job. -/
def raiseMod (s : State) (place code d0 d1 d2 : Nat) : State := raise s place code 0xFFFF 0xFFFF 0 d0 d1 d2

/-- The session to which an event of a command's job 0 goes. -/
def cmdSes (c : Cmd) : Option Nat := if c.pkt.job = 0 then some c.sess else none

/-- The place of a command: where it runs, Nushaond otherwise. -/
def cmdPlace (c : Cmd) : Nat := match c.place with | some p => p.die | none => 0xF

/-- An event of a command; the flight events carry its operator too (R107). -/
def raiseCmd (s : State) (c : Cmd) (code d0 d1 d2 : Nat) : State :=
  raiseOp s (some (c.pkt.job, c.pkt.layer)) (if code ∈ [0x0D, 0x0E, 0x0F] then c.pkt.operator else 0xFFFF) (cmdPlace c) code false (cmdSes c) c.pkt.job c.pkt.layer c.pkt.seq d0 d1 d2

/-- REG_ACCESS (R9, R34): the die's ERR_REG_ADDR takes the address. -/
def regAccess (s : State) (d addr : Nat) (write misaligned unbacked : Bool) : State :=
  let s := setDie s d { getDie s d with regAddr := addr }
  raiseMod s d 0x1E addr (addr / 2 ^ 32) (b2n write + 2 * b2n misaligned + 4 * b2n unbacked)

-- messages (R337, R338, R353) --------------------------------------------------------------------------------------

/-- Message type codes (R338). -/
def mtReadReq : Nat := 0x01
def mtReadResp : Nat := 0x02
def mtWrite : Nat := 0x03
def mtCollData : Nat := 0x04
def mtStagedAck : Nat := 0x10
def mtCommit : Nat := 0x11
def mtCancel : Nat := 0x12
def mtLockSignal : Nat := 0x13
def mtCollJoin : Nat := 0x14
def mtCollSet : Nat := 0x15
def mtCollLate : Nat := 0x16
def mtCollFlip : Nat := 0x17
def mtAuthNak : Nat := 0x18
def mtTime : Nat := 0x20
def mtPdelay : Nat := 0x21
def mtAnnounce : Nat := 0x22
def mtHello : Nat := 0x23
def mtHeartbeat : Nat := 0x24
def mtMember : Nat := 0x25
def mtLost : Nat := 0x26
def mtStage : Nat := 0x28
def mtAck : Nat := 0x29
def mtOpen : Nat := 0x2A
def mtDiscard : Nat := 0x2B
def mtLoanEnd : Nat := 0x2C

/-- The entry of a small association table at a key, and its replacement. -/
def aget {κ α : Type} [DecidableEq κ] (d : α) (xs : List (κ × α)) (k : κ) : α :=
  match xs.find? (fun x => decide (x.1 = k)) with
  | some x => x.2
  | none => d
def aput {κ α : Type} [DecidableEq κ] (xs : List (κ × α)) (k : κ) (v : α) : List (κ × α) :=
  if xs.any (fun x => decide (x.1 = k)) then xs.map (fun x => if x.1 = k then (k, v) else x) else xs ++ [(k, v)]

/-- Flits that a message takes: header, body, tag (R333, R337, R352). A collective's contribution above 65,536 bytes stands as
one message here and takes the flits of one (notes/assumptions/36). -/
def Msg.flits (m : Msg) : Nat := ceilDiv (48 + min 65536 (8 * m.body.length + m.data.length)) 2048

/-- Data bytes of one message at most: a body holds 65,536 with its address (R337; the cut is the model's). -/
def farChunk : Nat := 65280

/-- Staged writes cut to what one message carries to a lender. -/
def cutFar (ws : List SWrite) : List SWrite :=
  (ws.map (fun w =>
    if w.tgt.tier = 4 then
      (List.range (ceilDiv w.bytes.length farChunk)).map (fun i => SWrite.mk (w.tgt.plus (farChunk * i)) ((w.bytes.drop (farChunk * i)).take farChunk))
    else [w])).flatten

/-- The traffic class of a command's data messages: a shard copy's is its CHECKPOINT's (R481); no other operation names one. -/
def dataTc (c : Cmd) : Nat := match c.origin with | .shardCopy _ _ => c.pkt.slots.getD 1 0 | _ => 0

/-- The wharf die of a port (R329). -/
def portDie (p : Nat) : Nat := 8 + p / 18

/-- The trace record of a message (R440): its type, the peer, its class, and whether it was received. -/
def msgRec (s : State) (job seq typ peer tc : Nat) (received : Bool) : TrRec :=
  ⟨s.time, 10, job, 0xFFFF, 0xFFFF, seq, 0, 0, typ + peer * 2 ^ 8 + tc * 2 ^ 20 + b2n received * 2 ^ 23⟩

/-- The command of this module that a message serves, as its job and layer (R431). -/
def msgAttr (s : State) (job seq : Nat) : Option (Nat × Nat) :=
  (s.cmds.find? (fun c => c.pkt.job == job && c.pkt.seq == seq)).map (fun c => (c.pkt.job, c.pkt.layer))

/-- Ports on which messages to a peer may leave (R339). -/
def routeMask (s : State) (dst : Nat) : Nat := tget 0 s.domain.routes dst
def portUp (p : Port) : Bool := p.state == 2 || p.state == 3

/-- Flits of a class drawn on a port, by all contexts or by one (R343). -/
def drawnOf (p : Port) (tc : Nat) (ctx : Option Nat) : Nat :=
  ((p.drawn.filter (fun d => d.2.1 == tc && (match ctx with | some k => d.1 == k | none => true))).map (fun d => d.2.2)).foldl (· + ·) 0

/-- Has the express pacer of a port admitted as many TC7 messages in the last microsecond as it may (R344)? -/
def pacerFull (now : Nat) (p : Port) : Bool := decide (24 ≤ (p.express.filter (fun t => decide (now < t + 1000))).length)

/-- A TC7 message enters a port's egress queue. -/
def Port.paced (now tc : Nat) (p : Port) : Port :=
  if tc = 7 then { p with express := p.express.filter (fun t => decide (now < t + 1000)) ++ [now] } else p

/-- May a port take `n` flits of a class for a context (R334, R342, R343)? A message leaves whole; one of more flits than the cap or the pool
leaves when nothing else draws on it (notes/assumptions/132). -/
def portTakes (p : Port) (tc ctx n : Nat) : Bool :=
  let pool := fld p.creditUse (8 * tc) 8
  portUp p && decide (p.replay.length + n ≤ 256) &&
  (decide (drawnOf p tc none + n ≤ pool) || (decide (drawnOf p tc none = 0) && decide (0 < pool))) &&
  (decide (drawnOf p tc (some ctx) + n ≤ p.ctxCap) || decide (drawnOf p tc (some ctx) = 0))

/-- The ports by which a message to a peer may leave now, ascending (R339). -/
def portsTo (s : State) (dst : Nat) : List Nat := (List.range 36).filter (fun p => bit (routeMask s dst) p && portUp (getPort s p))

/-- The port on which a message leaves (R339): TC7 by the lowest-numbered port of the mask that is up, as its pacer admits it (R344). -/
def portFor (s : State) (m : Msg) : Option Nat :=
  let ps := portsTo s m.dst
  if m.tc = 7 then (ps.head?).filter (fun p => portTakes (getPort s p) m.tc m.ctx m.flits && !(pacerFull s.time (getPort s p)))
  else ps.find? (fun p => portTakes (getPort s p) m.tc m.ctx m.flits)

/-- A message's flits leave by a port: sequenced, kept for replay, their credits drawn (R333, R334, R343). A lock signal is remembered until it
has been delivered (R286). -/
def transmit (s : State) (p : Nat) (m : Msg) : State :=
  let s := traceRec s (portDie p) (msgRec s m.job m.seq m.typ m.dst m.tc false)
  let s := if m.tc = 7 then count s (portDie p) slotsDie 0x72 1 (msgAttr s m.job m.seq) else s
  let x := (getPort s p).paced s.time m.tc
  let n := m.flits
  setPort { s with sent := s.sent ++ [m] } p { x with
    sigs := if m.typ = mtLockSignal then x.sigs ++ [((x.nextTx + n - 1) % 4096, m.dst, m.job, m.seq :: m.body)] else x.sigs,
    nextTx := (x.nextTx + n) % 4096,
    replay := x.replay ++ (List.range n).map (fun i => ((x.nextTx + i) % 4096, m.tc, 1)),
    drawn := x.drawn ++ [(m.ctx, m.tc, n)],
    txFlits := (x.txFlits + n) % 2 ^ 48 }

/-- A message leaves by a port that takes it, or waits at the sender (R339, R343); TC7 messages to a peer keep their order
(R340). -/
def offer (s : State) (m : Msg) : State :=
  if m.tc = 7 ∧ s.held.any (fun h => h.dst == m.dst && h.tc == 7) = true then { s with held := s.held ++ [m] }
  else match portFor s m with
    | some p => transmit s p m
    | none => { s with held := s.held ++ [m] }

/-- A TC7 message that its port's pacer does not let through now counts there as held (R344). -/
def countPaced (s : State) (m : Msg) : State :=
  match (portsTo s m.dst).head? with
  | some p => if m.tc = 7 ∧ pacerFull s.time (getPort s p) = true then setPort s p { getPort s p with held := (getPort s p).held + 1 } else s
  | none => s

/-- Send a message: the nonce counter of its pair and job advances, a generation ending at 2⁴⁰ − 1 (R353). In the fatal
state nothing is sent (R480). -/
def send (s : State) (m : Msg) : State :=
  if s.power.phase = 0xF then s
  else
    let k := (m.dst, m.job)
    let t := aget (0, 0) s.domain.tx k
    let t' := if t.2 + 1 < 2 ^ 40 then (t.1, t.2 + 1) else (t.1 + 1, 1)
    let s := { s with
      domain := { s.domain with tx := aput s.domain.tx k t', lastSent := aput s.domain.lastSent m.dst s.time } }
    offer (countPaced s m) { m with gen := t'.1, count := t'.2 }

/-- A message of a command. -/
def sendCmd (s : State) (c : Cmd) (dst typ tc : Nat) (body : List Nat) (data : List Byte) : State :=
  send s ⟨dst, typ, tc, c.pkt.job, c.pkt.seq, c.runs, (match c.origin with | .ring r => r | _ => 0xFF), 0, 0, body, data⟩

/-- A domain message (R352). -/
def sendDom (s : State) (dst typ : Nat) (body : List Nat) : State := send s ⟨dst, typ, 7, 0, 0, 0, 0xFF, 0, 0, body, []⟩

/-- The highest generation that a pair may use (R353): beyond it no further message of the job is sent. -/
def pairSpent (s : State) (dst job : Nat) : Bool :=
  let t := aget (0, 0) s.domain.tx (dst, job)
  decide (2 ^ 24 - 1 ≤ t.1) && decide (2 ^ 40 - 1 ≤ t.2)

end Sys2Proof.Machine
end

