-- ==== Sys2Proof/Machine/Zip.lean ====
section
/-! DEFINITION. Compression on slow paths: frames of 4,096 bytes in slots of 4,352 (R231 to R233). -/

set_option cleanup.letToHave false

namespace Sys2Proof.Machine

/-- Element bytes, exponent width and position of a KIND (R231, R233). -/
def zipKind (kind : Nat) : Nat × Nat × Nat := if kind = 1 then (4, 8, 23) else if kind = 2 then (2, 8, 7) else (2, 5, 10)

/-- The elements of a group of 64. -/
def zipElems (s : Nat) (src : List Byte) (g : Nat) : List Nat := (List.range 64).map (fun i => fieldAt src ((64 * g + i) * s) s)

/-- Values of one width packed least significant bit first, padded to whole bytes. -/
def packBits (w : Nat) (xs : List Nat) : List Byte :=
  let v := xs.foldr (fun x acc => x % 2 ^ w + acc * 2 ^ w) 0
  leBytes (ceilDiv (w * xs.length) 8) v

/-- The `n` values of width `w` in a number read from bytes. -/
def unpackBits (w n v : Nat) : List Nat := (List.range n).map (fun i => fld v (i * w) w)

/-- One group of encode_frame (R233). Sign and fraction are emitted "sign, then fraction", least significant bit first:
DEDUCED, the sign first (notes/assumptions/20). -/
def zipGroup (kind : Nat) (src : List Byte) (g : Nat) : List Byte :=
  let k := zipKind kind
  let s := k.1; let E := k.2.1; let p := k.2.2
  let xs := zipElems s src g
  let es := xs.map (fun x => fld x p E)
  let lo := es.foldl min (2 ^ E - 1)
  let hi := es.foldl max 0
  let w := if hi = lo then 0 else Nat.log2 (hi - lo) + 1
  if E ≤ w then leBytes 1 lo ++ [0xFF] ++ ((src.drop (64 * g * s)).take (64 * s))
  else
    let rest := xs.map (fun x => x / 2 ^ (8 * s - 1) + (x % 2 ^ p) * 2)
    leBytes 1 lo ++ leBytes 1 w ++ packBits w (es.map (fun e => e - lo)) ++ packBits (8 * s - E) rest

/-- encode_frame (R233): the coded bytes of one frame; `src` holds at most 4,096 bytes. -/
def encodeFrame (kind : Nat) (src : List Byte) : List Byte :=
  let len := src.length
  let pad := fitBytes 4096 src
  let body := ((List.range (64 / (zipKind kind).1)).map (zipGroup kind pad)).flatten
  leBytes 1 kind ++ [0] ++ leBytes 2 (16 + body.length) ++ leBytes 2 len ++ zeros 2 ++ leBytes 4 (crc32c src) ++ zeros 4 ++ body

/-- Bytes of the image of a source of `n` bytes (R232). -/
def zipSize (n : Nat) : Nat := ceilDiv n 4096 * 4352

/-- The frames of a source: offset in the image and coded bytes. Bytes of a slot beyond its frame are not written. -/
def encodeImage (kind : Nat) (src : List Byte) : List (Nat × List Byte) :=
  (List.range (ceilDiv src.length 4096)).map (fun i => (i * 4352, encodeFrame kind ((src.drop (4096 * i)).take 4096)))

/-- Decode the groups of a frame: the elements' bytes, none where the coding is malformed or more is coded than the groups. -/
def unzipGroups (kind : Nat) : Nat → List Byte → Option (List Byte)
  | 0, bs => if bs.isEmpty then some [] else none
  | n + 1, bs =>
    let k := zipKind kind
    let s := k.1; let E := k.2.1; let p := k.2.2
    match bs with
    | lo :: w :: rest =>
      if w = 0xFF then
        if rest.length < 64 * s then none
        else (unzipGroups kind n (rest.drop (64 * s))).map (fun t => rest.take (64 * s) ++ t)
      else
        let w := w.toNat
        let a := ceilDiv (w * 64) 8
        let b := 8 * (8 * s - E)
        if E ≤ w ∨ rest.length < a + b then none
        else
          let es := unpackBits w 64 (leNat (rest.take a))
          let rs := unpackBits (8 * s - E) 64 (leNat ((rest.drop a).take b))
          let xs := (es.zip rs).map (fun er => leBytes s ((er.2 / 2) + ((lo.toNat + er.1) % 2 ^ E) * 2 ^ p + (er.2 % 2) * 2 ^ (8 * s - 1)))
          (unzipGroups kind n (rest.drop (a + b))).map (fun t => xs.flatten ++ t)
    | _ => none

/-- Decode one frame from its slot; none where the header is malformed or the CRC does not match (R233). -/
def decodeFrame (kind : Nat) (slot : List Byte) : Option (List Byte) :=
  let len := fieldAt slot 4 2
  let cl := fieldAt slot 2 2
  if fieldAt slot 0 1 = kind ∧ fieldAt slot 1 1 = 0 ∧ 1 ≤ len ∧ len ≤ 4096 ∧ cl ≤ 4352 ∧ 16 ≤ cl ∧ fieldAt slot 6 2 = 0 ∧
      fieldAt slot 12 4 = 0 then
    match unzipGroups kind (64 / (zipKind kind).1) ((slot.take cl).drop 16) with
    | some bs => let src := bs.take len; if crc32c src = fieldAt slot 8 4 then some src else none
    | none => none
  else none

/-- Decode an image of `n` source bytes read as `img`; the error is the image offset of the frame that fails. -/
def decodeImage (kind n : Nat) (img : List Byte) : Except Nat (List Byte) :=
  (List.range (ceilDiv n 4096)).foldl (fun acc i =>
    match acc with
    | .error e => .error e
    | .ok bs =>
      match decodeFrame kind ((img.drop (i * 4352)).take 4352) with
      | some f => if f.length = min 4096 (n - 4096 * i) then .ok (bs ++ f) else .error (i * 4352)
      | none => .error (i * 4352)) (.ok [])

end Sys2Proof.Machine
end

