-- ==== Sys2Proof/Machine/Resid.lean ====
section
/-! DEFINITION. Residency objects and their copies (R212 to R224): translation, pins, removal, space in pools. -/

set_option cleanup.letToHave false

namespace Sys2Proof.Machine

def noCopy : Copy := ⟨0, 0, 0, 0, false, false, none⟩

def findObj (s : State) (d : Nat) : Option ResObj := tfind s.objs d

/-- The copy of an object at a tier (1 basin, 2 HBM copy). -/
def ResObj.copy (o : ResObj) (t : Nat) : Copy := if t = 1 then o.t1 else o.t2
def ResObj.setCopy (o : ResObj) (t : Nat) (c : Copy) : ResObj := if t = 1 then { o with t1 := c } else { o with t2 := c }
def ResObj.poolOf (o : ResObj) (t : Nat) : Nat := if t = 1 then o.poolT1 else o.poolT2
def Copy.pins (c : Copy) : Nat := c.resPins + c.usePins

/-- Bytes 36 to 43 and 48 to 55 of a descriptor: the fields that the module writes (R214). -/
def objState (o : ResObj) : Nat :=
  o.t1.state + 4 * o.t2.state + 16 * b2n o.t1.pending + 32 * b2n o.t2.pending + 64 * b2n o.t1.dirty + 128 * b2n o.t2.dirty

/-- Bytes in use and objects with a copy in a pool (R213). -/
def poolUse (s : State) (p : Nat) : Nat × Nat :=
  s.objs.foldl (fun a e =>
    let o := e.2
    let h1 := decide (o.poolT1 = p ∧ o.t1.state ≠ 0)
    let h2 := decide (o.poolT2 = p ∧ o.t2.state ≠ 0)
    (a.1 + (if h1 then o.size else 0) + (if h2 then o.size else 0), a.2 + b2n (h1 || h2))) (0, 0)

/-- Write the module's fields of a pool control block. -/
def syncPool (s : State) (p : Nat) : State :=
  match tfind s.pools p with
  | none => s
  | some q =>
    let u := poolUse s p
    let k := jobKey s 0 q.job
    wrLocal (wrLocal s k (p + 16) (leBytes 2 q.job)) k (p + 24) (leBytes 8 u.1 ++ leBytes 4 u.2)

/-- Put an object and write the module's fields of its descriptor and pools. -/
def putObj (s : State) (d : Nat) (o : ResObj) : State :=
  let s := { s with objs := tput s.objs d o }
  let k := jobKey s 0 o.job
  let s := wrLocal s k (d + 36) (leBytes 2 o.t1.pins ++ leBytes 2 o.t2.pins ++ leBytes 2 o.job)
  let s := wrLocal s k (d + 43) (leBytes 1 (objState o))
  let s := wrLocal s k (d + 48) (leBytes 8 o.stamp)
  syncPool (syncPool s o.poolT1) o.poolT2

/-- Global address of bytes inside an object's home, for a plain or a compressed home. -/
def homeSize (o : ResObj) : Nat := if o.zip then zipSize o.size else o.size

/-- The active object whose home covers a range wholly, and whether some object's home is only cut by it (R216). -/
def objAt (s : State) (g : GAddr) (n : Nat) : Option (Nat × ResObj) :=
  s.objs.find? (fun e => e.2.home.tier == g.tier && e.2.home.peer == g.peer && inside g.off n e.2.home.off e.2.size)
def cutsObj (s : State) (g : GAddr) (n : Nat) : Bool :=
  s.objs.any (fun e => e.2.home.tier == g.tier && e.2.home.peer == g.peer && overlap g.off n e.2.home.off e.2.size &&
    !(inside g.off n e.2.home.off e.2.size))

/-- Does a copy hold the object's bytes? An evicting copy does until its write-back has committed (R219, R223). -/
def Copy.held (c : Copy) : Bool := c.state == 2 || c.state == 3

/-- The tier that serves an object: 1 basin copy, 2 HBM copy, 0 home (R216). -/
def servingTier (o : ResObj) : Nat := if o.t1.held then 1 else if o.t2.held then 2 else 0

/-- Where an operand is served (R216): the global address, and the object and tier of the copy that serves it. -/
def served (s : State) (g : GAddr) (n : Nat) : GAddr × Option (Nat × Nat) :=
  match objAt s g n with
  | none => (g, none)
  | some (d, o) =>
    let t := servingTier o
    if t = 0 then (g, none) else (gLocal ((o.copy t).at_ + (g.off - o.home.off)), some (d, t))

/-- The bytes of a copy. -/
def copyBytes (s : State) (o : ResObj) (t : Nat) : List Byte := memRead s.mem (o.copy t).at_ o.size

-- memory errors (R241 to R244) -----------------------------------------------------------------------------------

/-- A 64 KiB granule of HBM or basin goes on its die's list of retired granules, with its event (R243). -/
def markRetired (s : State) (a : Nat) : State :=
  let d := dieOfAddr a
  let g := a / 65536 * 65536
  let m := getMemRegs s d
  if m.retired.contains g ∨ coreBase ≤ a then s
  else
    let x := (gLocal g).code
    raiseMod (setMemRegs s d { m with retired := m.retired ++ [g] }) d 0x11 x (x / 2 ^ 32) (m.retired.length + 1)

/-- An uncorrectable error that an operation meets (R241, R243, R244): counted, latched and reported on a die; its granule of local
memory is retired. -/
def memError (s : State) (die source job layer seq : Nat) (ses : Option Nat) (g : Nat) : State :=
  let m := getMemRegs s die
  let m := if source = 4 then m
    else if (gaddrOf g).tier = 0 then { m with hbmUe := (m.hbmUe + 1) % 2 ^ 48 } else { m with bsnUe := (m.bsnUe + 1) % 2 ^ 48 }
  let s := setMemRegs s die { m with errAddr := g, errInfo := source * 2 ^ 28 + job % 65536 }
  let s := if die < 8 then fire s die 193 else s
  let s := raiseFor s die 0x10 false ses job layer seq g (g / 2 ^ 32) source
  if source ≠ 4 ∧ (gaddrOf g).tier < 2 then markRetired s (gaddrOf g).off else s

/-- A loan in force cuts the range: refused to the lender's own commands (R205). -/
def loanCuts (s : State) (a n : Nat) : Bool := s.loans.any (fun e => overlap a n e.2.base e.2.size)

/-- May the module write a TIER 5 range on behalf of a session (R208)? A module-written buffer must hold it. -/
def hostWritable (s : State) (sess a n : Nat) : Bool :=
  s.bufs.any (fun b => b.sess == sess && b.modWr && b.forRing.isNone && inside a n b.base (b.pages * 4096))

/-- Has the module a link secret for a job of a session (R415)? -/
def hasLink (s : State) (sess job : Nat) : Bool := s.links.any (fun l => l.1 == (sess, job))

-- pounds (R235 to R239) ---------------------------------------------------------------------------------------------

/-- Granules of a range. -/
def granCount (a n : Nat) : Nat := if n = 0 then 0 else (a + n - 1) / 256 - a / 256 + 1

/-- Granules that a range takes in each pound, for a command that stages on die `d` (R236). -/
def poundNeed (d : Nat) (r : GAddr × Nat) : List (Nat × Nat) :=
  if r.1.tier = 0 then
    (List.range 8).filterMap (fun k =>
      let lo := max r.1.off (k * 0x4000000000)
      let hi := min (r.1.off + r.2) ((k + 1) * 0x4000000000)
      if lo < hi then some (k * 2 + 1, granCount lo (hi - lo)) else none)
  else if r.1.tier = 1 ∨ r.1.tier = 2 then [(d * 2, granCount r.1.off r.2)]
  else if r.1.tier = 5 then [(d * 2 + 1, granCount r.1.off r.2)]
  else []

/-- The HBM pound in which a write-back is staged, by its die (R236); none for a home that a peer lends. -/
def wbDie (d : Nat) (o : ResObj) (t : Nat) : Option Nat :=
  if t = 1 ∧ o.t2.held then some (dieOfAddr o.t2.at_)
  else if o.home.tier = 0 then some (dieOfAddr o.home.off)
  else if o.home.tier = 5 then some (dieOfAddr d)
  else none

/-- Granules that the staged write-backs of objects hold in the HBM pound of a die. -/
def wbGranules (s : State) (die : Nat) : Nat :=
  s.objs.foldl (fun a e => [1, 2].foldl (fun a t =>
    match (e.2.copy t).wb with
    | some w => if w.staged ∧ wbDie e.1 e.2 t = some die then a + e.2.size / 256 else a
    | none => a) a) 0

/-- Bytes in use in a pound (R237 to R239): reservations, published granules not drained, and staged remote writes. -/
def poundUsed (s : State) (d : Nat) (hbm : Bool) : Nat :=
  let k := d * 2 + b2n hbm
  256 * (s.cmds.foldl (fun a c => c.reserved.foldl (fun a r => if r.1 = k then a + r.2 else a) a) 0 +
    (s.poundQ.filter (fun q => q.die == d && q.hbm == hbm)).length +
    (if hbm then s.remoteSt.foldl (fun a r => if dieOfAddr r.addr = d ∧ r.room = true then a + (granulesOf r.addr r.data.length).length else a) 0 + wbGranules s d else 0))

def poundSize (s : State) (hbm : Bool) : Nat := if hbm then hbmPoundBytes s else basinPoundBytes s
def poundFree (s : State) (d : Nat) (hbm : Bool) : Nat := poundSize s hbm - poundUsed s d hbm

-- write-backs and removal (R219, R223) -------------------------------------------------------------------------------

/-- The bytes of an object as its home holds them: plain or compressed (R219). -/
def homeWrites (o : ResObj) (bs : List Byte) : List SWrite :=
  if o.zip then (encodeImage o.kind bs).map (fun p => ⟨o.home.plus p.1, p.2⟩) else [⟨o.home, bs⟩]

/-- What the write-back of a copy writes: a basin copy to the HBM copy if that is there, otherwise to the home (R219). -/
def wbWrites (s : State) (o : ResObj) (t : Nat) : List SWrite :=
  if t = 1 ∧ o.t2.held then [⟨gLocal o.t2.at_, copyBytes s o t⟩] else homeWrites o (copyBytes s o t)

/-- The peer that lends the home to which a copy goes back. -/
def wbPeer (o : ResObj) (t : Nat) : Option Nat := if o.home.tier = 4 ∧ ¬(t = 1 ∧ o.t2.held) then some o.home.peer else none

/-- What the module sends to the lender of a home for an object. -/
def sendWb (s : State) (o : ResObj) (seq peer typ tc : Nat) (body : List Nat) (data : List Byte) : State :=
  send s ⟨peer, typ, tc, o.job, seq, 0, 0xFF, 0, 0, body, data⟩

/-- Why the bytes of a copy cannot go back (R203 to R208, R241, R355, R415), as a status. -/
def wbStop (s : State) (o : ResObj) (t : Nat) : Option Nat :=
  let sess := match findJob s o.job with | some j => j.sess | none => 64
  if (poisonedIn s (o.copy t).at_ o.size).isSome then some stEcc
  else if t = 1 ∧ o.t2.held then none
  else if o.home.tier = 0 then (if loanCuts s o.home.off o.size then some stDenied else none)
  else if o.home.tier = 5 then (if hostWritable s sess o.home.off (homeSize o) then none else some stDenied)
  else if !(hasLink s sess o.job) || pairSpent s o.home.peer o.job then some stDenied
  else if s.domain.lost.contains o.home.peer then some stPeerLost
  else none

/-- A write-back is killed before its commit and leaves no trace: the copy stays resident and dirty (R223). -/
def killWb (s : State) (d t : Nat) : State :=
  match findObj s d with
  | none => s
  | some o =>
    match (o.copy t).wb with
    | none => s
    | some w =>
      let s := match wbPeer o t with | some p => if w.staged then sendWb s o w.seq p mtCancel 7 [] [] else s | none => s
      putObj s d (o.setCopy t { o.copy t with state := 2, wb := none })

/-- Is there room in the pound for a write-back (R237)? A lender answers for its own. -/
def wbRoom (s : State) (d : Nat) (o : ResObj) (t : Nat) : Bool :=
  match wbDie d o t with | some die => decide (o.size ≤ poundFree s die true) | none => true

/-- A write-back is staged: it has its pound space, and a lender gets its writes (R210, R219). -/
def stageWb (s : State) (d t seq : Nat) : State :=
  match findObj s d with
  | none => s
  | some o =>
    if wbRoom s d o t then
      let s := match wbPeer o t with
        | some p => (cutFar (wbWrites s o t)).foldl (fun s w => sendWb s o seq p mtWrite 0 [w.tgt.off] w.bytes) s
        | none => s
      putObj s d (o.setCopy t { o.copy t with state := 3, pending := false, wb := some ⟨seq, true, 0⟩ })
    else putObj s d (o.setCopy t { o.copy t with state := 3, pending := false, wb := some ⟨seq, false, 0⟩ })

/-- A copy that holds nothing which is not elsewhere is removed. -/
def clearCopy (s : State) (d t : Nat) : State :=
  match findObj s d with
  | none => s
  | some o => putObj (count s (dieOfAddr d) slotsDie 0x5E 1 none) d (o.setCopy t noCopy)

/-- An unpinned copy is to be removed (R219): a clean one goes at once; the write-back of a dirty one begins, and the copy goes when that has
committed. A copy whose bytes cannot go back stays (notes/assumptions/122); so does one that is just being written from another copy. -/
def removeCopy (s : State) (d t : Nat) : State :=
  match findObj s d with
  | none => s
  | some o =>
    let c := o.copy t
    if c.state ≠ 2 ∨ (t = 2 ∧ o.t1.state = 3) then s
    else if !c.dirty then clearCopy s d t
    else match wbStop s o t with
      | some _ =>
        let s := match poisonedIn s c.at_ o.size with
          | some u => memError s (dieOfAddr u) 1 o.job 0xFFFF 0 none (gLocal u).code
          | none => s
        putObj s d (o.setCopy t { c with pending := false })
      | none => stageWb { s with serial := s.serial + 1 } d t (3 * 2 ^ 30 + s.serial % 2 ^ 30)

/-- The write-back of a copy commits: its bytes are published, and the copy is removed (R219). -/
def commitWb (s : State) (d t : Nat) : State :=
  match findObj s d with
  | none => s
  | some o =>
    let ws := wbWrites s o t
    let s := count s (dieOfAddr d) slotsDie 0x5F (ceilDiv o.size 64) none
    let s := poundPublish (publishWrites s (jobKey s 0 o.job) ws) (dieOfAddr d) ws
    let s := match wbPeer o t, (o.copy t).wb with
      | some p, some w => sendWb s o w.seq p mtCommit 7 [] []
      | _, _ => s
    let s := if t = 1 ∧ o.t2.held then putObj s d { o with t2 := { o.t2 with dirty := true } } else s
    let s := clearCopy s d t
    match findObj s d with
    | none => s
    | some o => if o.t2.pins = 0 ∧ o.t2.pending = true ∧ o.t2.state = 2 then removeCopy s d 2 else s

/-- The write-back of an evicting copy goes on by one step: it is staged once there is room, and commits once its lender, if it has one, has
acknowledged every write. -/
def pushWb (s : State) (d t : Nat) : State :=
  match findObj s d with
  | none => s
  | some o =>
    match (o.copy t).wb with
    | none => s
    | some w =>
      if (wbStop s o t).isSome then killWb s d t
      else if !w.staged then stageWb s d t w.seq
      else if (wbPeer o t).isSome && decide (w.acks < (cutFar (wbWrites s o t)).length) then s
      else commitWb s d t

/-- The evicting copies of a list of objects go on. -/
def pushWbs (s : State) (ds : List Nat) : State := ds.foldl (fun s d => pushWb (pushWb s d 1) d 2) s

/-- Does the write-back of a copy of an object go under a SEQ? -/
def ResObj.wbHas (o : ResObj) (seq t : Nat) : Bool := (o.copy t).wb.any (fun w => w.seq == seq)

/-- Is an object one whose write-back an answer of a lender is for? -/
def wbAwaits (job seq peer : Nat) (e : Nat × ResObj) : Bool :=
  e.2.job == job && e.2.home.tier == 4 && e.2.home.peer == peer && (e.2.wbHas seq 1 || e.2.wbHas seq 2)

/-- A lender's answer to a staged write-back: an acknowledgement, or a refusal, after which the copy stays (R205, R275). -/
def ackWb (s : State) (job seq peer : Nat) (refused : Bool) : State :=
  match s.objs.find? (wbAwaits job seq peer) with
  | none => s
  | some (d, o) =>
    let t := if o.wbHas seq 1 then 1 else 2
    match (o.copy t).wb with
    | none => s
    | some w =>
      if refused then killWb s d t
      else pushWb (putObj s d (o.setCopy t { o.copy t with wb := some { w with acks := w.acks + 1 } })) d t

/-- Every write-back towards a peer, or of a job, is killed (R298, R355). -/
def killWbs (s : State) (p : ResObj → Bool) : State :=
  ((s.objs.filter (fun e => p e.2)).map Prod.fst).foldl (fun s d => killWb (killWb s d 1) d 2) s

/-- A pin of use ends (R220); a pending eviction removes the copy once nothing pins it (R222). -/
def unpinUse (s : State) (d t : Nat) : State :=
  match findObj s d with
  | none => s
  | some o =>
    let c := o.copy t
    let c := { c with usePins := c.usePins - 1 }
    let s := putObj s d (o.setCopy t c)
    if c.pins = 0 ∧ c.pending = true ∧ c.state = 2 then removeCopy s d t else s

/-- A pin of use begins; the object's STAMP takes the device time (R220, R221). -/
def pinUse (s : State) (d t : Nat) : State :=
  match findObj s d with
  | none => s
  | some o => putObj s d { o.setCopy t { o.copy t with usePins := (o.copy t).usePins + 1 } with stamp := s.time }

/-- A copy begins to serve a command: a write-back of it under way is killed (R220, R223). -/
def takeCopy (s : State) (d t : Nat) : State := pinUse (killWb s d t) d t

/-- Where a promotion that waits for space in its pool stands: beyond every address, so that its reservation counts in
USED and holds no place yet (R213, R221). -/
def noPlace : Nat := 2 ^ 48

/-- The copies that lie in a pool, in ascending order: first address, bytes, object, tier. A promotion that waits for its place lies nowhere. -/
def poolCopies (s : State) (p : Nat) : List (Nat × Nat × Nat × Nat) :=
  let lies (c : Copy) (q : Nat) : Bool := q == p && c.state != 0 && c.at_ != noPlace
  let xs := s.objs.foldl (fun acc e =>
    let o := e.2
    acc ++ (if lies o.t1 o.poolT1 then [(o.t1.at_, o.size, e.1, 1)] else []) ++
      (if lies o.t2 o.poolT2 then [(o.t2.at_, o.size, e.1, 2)] else [])) []
  xs.mergeSort (fun a b => decide (a.1 ≤ b.1))

/-- Ranges of a pool held by copies. -/
def poolRanges (s : State) (p : Nat) : List (Nat × Nat) := (poolCopies s p).map (fun x => (x.1, x.2.1))

/-- Bytes of a pool that no copy holds. -/
def poolFree (s : State) (p : Nat) : Nat :=
  match tfind s.pools p with
  | none => 0
  | some q => q.size - (poolRanges s p).foldl (fun a x => a + x.2) 0

/-- Bytes of a pool that copies hold which are being written back. -/
def poolLeaving (s : State) (p : Nat) : Nat :=
  (poolCopies s p).foldl (fun a x => match findObj s x.2.2.1 with
    | some o => if (o.copy x.2.2.2).state = 3 then a + x.2.1 else a
    | none => a) 0

/-- A copy moves within its pool. -/
def moveCopy (s : State) (d t to_ : Nat) : State :=
  match findObj s d with
  | none => s
  | some o =>
    let a := (o.copy t).at_
    let bad := s.poison.filter (fun u => inside u 1 a o.size)
    let s := wrLocal s (jobKey s 0 o.job) to_ (copyBytes s o t)
    putObj { s with poison := s.poison.filter (fun u => !(bad.contains u)) ++ bad.map (fun u => u + to_ - a) } d
      (o.setCopy t { o.copy t with at_ := to_ })

/-- Copies move down in their pool, in order, so that its free bytes lie together. One that serves a running command stays where it is
(notes/assumptions/121). -/
def packFrom : Nat → List (Nat × Nat × Nat × Nat) → State → State
  | _, [], s => s
  | cur, (a, n, d, t) :: r, s =>
    let fixed := match findObj s d with | some o => (o.copy t).usePins != 0 | none => true
    if !fixed && decide (cur < a) then packFrom (cur + n) r (moveCopy s d t cur) else packFrom (a + n) r s

def packPool (s : State) (p : Nat) : State :=
  match tfind s.pools p with
  | none => s
  | some q => packFrom q.base (poolCopies s p) s

/-- First address of a gap of `n` bytes in a region. -/
def firstGap (n top : Nat) : Nat → List (Nat × Nat) → Option Nat
  | at_, [] => if at_ + n ≤ top then some at_ else none
  | at_, (b, l) :: r => if at_ + n ≤ b then some at_ else firstGap n top (max at_ (b + l)) r

/-- Where a copy of an object would go in its pool at a tier. -/
def poolSpace (s : State) (o : ResObj) (t : Nat) : Option Nat :=
  match tfind s.pools (o.poolOf t) with
  | none => none
  | some q => firstGap o.size (q.base + q.size) q.base (poolRanges s (o.poolOf t))

/-- May a copy be evicted: resident, unpinned, and clean or able to go back? -/
def evictable (s : State) (o : ResObj) (t : Nat) : Bool :=
  let c := o.copy t
  c.state == 2 && c.pins == 0 && !(t == 2 && o.t1.state == 3) && (!c.dirty || (wbStop s o t).isNone)

/-- The copy of a pool that R221 evicts next: the oldest STAMP of those that qualify. -/
def victimOf (s : State) (p : Nat) : Option (Nat × Nat) :=
  let xs := s.objs.foldl (fun acc e =>
    let o := e.2
    acc ++ (if o.poolT1 = p ∧ evictable s o 1 = true then [(o.stamp, e.1, 1)] else []) ++
      (if o.poolT2 = p ∧ evictable s o 2 = true then [(o.stamp, e.1, 2)] else [])) ([] : List (Nat × Nat × Nat))
  match xs with
  | [] => none
  | x :: r => some ((r.foldl (fun b y => if y.1 < b.1 then y else b) x).2)

/-- Make space for an object's copy (R221): free bytes are brought together; where they are too few, copies are evicted by STAMP until what is
free, and what write-backs will free, suffices or nothing more qualifies. -/
def makeSpace (t : Nat) (o : ResObj) : Nat → State → State × Option Nat
  | 0, s => (s, none)
  | n + 1, s =>
    let p := o.poolOf t
    match poolSpace s o t with
    | some a => (s, some a)
    | none =>
      let s := if o.size ≤ poolFree s p then packPool s p else s
      match poolSpace s o t with
      | some a => (s, some a)
      | none =>
        if poolFree s p < o.size ∧ o.size ≤ poolFree s p + poolLeaving s p then (s, none)
        else match victimOf s p with
          | none => (s, none)
          | some v => makeSpace t o n (removeCopy s v.1 v.2)

/-- Does an earlier promotion wait for space in a pool (R223: freed space goes to waiting promotions in the order in which
they started)? `mine` is the serial of this one. -/
def earlierWaits (s : State) (p mine : Nat) : Bool :=
  s.cmds.any (fun c =>
    decide (3 ≤ c.aux.length) && (fld c.pkt.opcode 4 12 == 0x722) &&
    c.phase == .running && decide (c.aux.getD 2 0 < mine) &&
    (match findObj s (c.aux.getD 0 0) with
     | some o => (o.copy (c.aux.getD 1 0)).state == 1 && (o.copy (c.aux.getD 1 0)).at_ == noPlace &&
         o.poolOf (c.aux.getD 1 0) == p
     | none => false))

/-- A waiting promotion takes its place in the pool if there is space or space can be made (R221). -/
def placePromotion (s : State) (d t serial : Nat) : State :=
  match findObj s d with
  | none => s
  | some o =>
    if (o.copy t).state ≠ 1 ∨ (o.copy t).at_ ≠ noPlace ∨ earlierWaits s (o.poolOf t) serial = true then s
    else
      let r := makeSpace t o (2 * s.objs.length + 1) s
      match r.2, findObj r.1 d with
      | some a, some o' => putObj r.1 d (o'.setCopy t { o'.copy t with at_ := a })
      | _, _ => r.1

/-- A promotion begins (R218, R221, R222): it clears a pending eviction, pins the copy, reserves, and takes its place as
soon as there is space. -/
def startPromotion (s : State) (d t serial : Nat) : State :=
  match findObj s d with
  | none => s
  | some o =>
    let c := o.copy t
    placePromotion (putObj s d (o.setCopy t { c with state := 1, at_ := noPlace, pending := false, usePins := c.usePins + 1 }))
      d t serial

/-- A promotion ends without commit: its place and its pin are given up; other pins of the tier stand (R220). -/
def dropPromotion (s : State) (d t : Nat) : State :=
  match findObj s d with
  | none => s
  | some o =>
    if (o.copy t).state = 1 then
      putObj s d (o.setCopy t { noCopy with resPins := (o.copy t).resPins, usePins := (o.copy t).usePins - 1 })
    else s

/-- A promotion of a copy that is there already begins: a pending eviction and a write-back under way are given up, and the promotion pins the
copy (R220, R222, R223). -/
def holdPromotion (s : State) (d t : Nat) : State :=
  let s := takeCopy s d t
  match findObj s d with
  | none => s
  | some o => putObj s d (o.setCopy t { o.copy t with pending := false })

/-- STAMP takes the device time (R221). -/
def stampObj (s : State) (d : Nat) : State :=
  match findObj s d with
  | none => s
  | some o => putObj s d { o with stamp := s.time }

/-- A promotion commits (R218): the bytes are in place, the copy is resident and clean, STAMP is the device time; the pin
of the promotion ends, and with the last pin a pending eviction takes effect (R222). -/
def endPromotion (s : State) (d t : Nat) (bs : List Byte) : State :=
  match findObj s d with
  | none => s
  | some o =>
    let c := o.copy t
    let s := poundPublish (wrLocal s (jobKey s 0 o.job) c.at_ bs) (dieOfAddr c.at_) [⟨gLocal c.at_, bs⟩]
    unpinUse (putObj s d { o.setCopy t { c with state := 2, dirty := false } with stamp := s.time }) d t

/-- Copies that written local bytes lie in become dirty (R217). -/
def markDirty (s : State) (ws : List SWrite) : State :=
  s.objs.foldl (fun s e =>
    [1, 2].foldl (fun s t =>
      match findObj s e.1 with
      | none => s
      | some o =>
        let c := o.copy t
        if c.state = 2 ∧ c.dirty = false ∧ ws.any (fun w => decide (w.tgt.tier < 3) && overlap w.tgt.off w.bytes.length c.at_ o.size) = true then
          putObj s e.1 (o.setCopy t { c with dirty := true })
        else s) s) s

end Sys2Proof.Machine
end

