-- ==== Sys2Proof/Machine/Locks.lean ====
section
/-! DEFINITION. Lock objects (R281 to R288): claims, signals, consumption, and the prefetch holds of R228. -/

set_option cleanup.letToHave false

namespace Sys2Proof.Machine

def satMax : Nat := 0xFFFFFFFF

/-- The amount available (R281). -/
def Lock.avail (l : Lock) : Nat := l.count - l.claimed

/-- Job counters (R433): the fields of the entry of a layer in a job's counter area, each one aligned write. -/
def jobCount (s : State) (job layer field width add : Nat) : State :=
  match s.twatch.find? (fun w => w.job == job && w.kind == 2 && decide (w.first ≤ layer) && decide (layer ≤ w.last)) with
  | none => s
  | some w =>
    let g := localise s (gaddrOf w.target)
    let o := g.off + 64 + 32 * (layer - w.first) + field
    let top := 2 ^ (8 * width) - 1
    let sess := match findJob s job with | some j => j.sess | none => 64
    if g.tier = 5 then
      -- a write into a range that is no longer a module-written buffer of the session is dropped (R208)
      if s.bufs.any (fun b => b.sess == sess && b.modWr && b.forRing.isNone && inside o width b.base (b.pages * 4096)) then
        wrHost s o (leBytes width (min top (leNat (memRead s.host o width) + add)))
      else s
    else wrLocal s (jobKey s 0 job) o (leBytes width (min top (leNat (memRead s.mem o width) + add)))

/-- A stall interval ends (R229, R434): STALL_NS grows and, for the first stall of the command, STALLED. -/
def endStall (s : State) (c : Cmd) : State × Cmd :=
  match c.waitFrom with
  | none => (s, c)
  | some t0 =>
    let ns := s.time - t0
    let s := jobCount s c.pkt.job c.pkt.layer 0 8 ns
    let s := if c.stalled then s else jobCount s c.pkt.job c.pkt.layer 8 4 1
    let d := match c.place with | some p => p.die | none => 8
    let s := traceRec s d (trCmd s c 0 7 (c.waitWhy + min ns satMax * 2 ^ 32))
    (s, { c with waitFrom := none, stalled := true, stallFlag := c.stallFlag || c.waitWhy != 1 })

/-- How far EPOCH lies from the job's epoch, as a signed 16-bit value (R280). -/
def epochAhead (s : State) (p : Packet) : Int :=
  if p.epoch = 0 then 0
  else match findJob s p.job with
    | none => 0
    | some j =>
      let d := (p.epoch + 65536 - j.epoch) % 65536
      if d < 32768 then (d : Int) else (d : Int) - 65536

/-- Is a lock the ARRIVE lock of an entry of an active prefetch schedule (R226, R229)? -/
def isArrive (s : State) (l : Nat) : Bool := s.pfs.any (fun e => e.2.entries.any (fun x => x.arrive == l))

/-- A stall for the arrival of data begins once a command is ready in every other respect (R229). -/
def beginArrivalStall (s : State) (c : Cmd) : Cmd :=
  if c.phase = .waiting ∧ c.claimed = false ∧ c.pkt.waitThresh ≠ 0 ∧ c.waitFrom = none ∧ epochAhead s c.pkt = 0 ∧
      isArrive s c.pkt.waitLock = true then { c with waitFrom := some s.time, waitWhy := 0 } else c

/-- A command's claim is granted: the head of the queue, or at acceptance (R282). A stall for arrival ends (R229). -/
def grantClaim (s : State) (l : Nat) (cid t : Nat) : State :=
  match findCmd s cid with
  | none => s
  | some c =>
    let k := getLock s l
    let s := setLock s l { k with claimed := k.claimed + t, queue := without k.queue cid }
    let r := endStall s c
    let s := putCmd r.1 { r.2 with claimed := true }
    traceRec s (l / 2048) (trCmd s c 0 6 (l + t * 2 ^ 32))

/-- Head waiters claim while the available amount serves them; none overtakes, and none claims while SET_PENDING is 1
(R282). -/
def evalClaims (l : Nat) : Nat → State → State
  | 0, s => s
  | n + 1, s =>
    let k := getLock s l
    match k.queue with
    | [] => s
    | h :: _ =>
      match findCmd s h with
      | none => evalClaims l n (setLock s l { k with queue := k.queue.tail })
      | some c =>
        if k.setPending = false ∧ c.pkt.waitThresh ≤ k.avail then evalClaims l n (grantClaim s l h c.pkt.waitThresh)
        else s

def reclaim (s : State) (l : Nat) : State := evalClaims l ((getLock s l).queue.length + 1) s

/-- The context id of a command (R290): its ring's module index. -/
def ctxOf (c : Cmd) : Nat := match c.origin with | .ring r => r | _ => 0xFF

/-- The job and layer of the command that an event arises from (R431). -/
def attrOf (by_ : Option Cmd) : Option (Nat × Nat) := by_.map (fun c => (c.pkt.job, c.pkt.layer))

/-- The trace record of a lock operation (R440): 1 consumed, 2 signalled, 3 set; with the command that does it, where one of this module does. -/
def lockRec (s : State) (by_ : Option Cmd) (op l n : Nat) : TrRec :=
  let data := l + op * 2 ^ 16 + n * 2 ^ 32
  match by_ with
  | some c => trCmd s c c.lastEng 6 data
  | none => ⟨s.time, 6, (getLock s l).job, 0xFFFF, 0xFFFF, 0, 0, 0, data⟩

/-- COUNT grows, saturating (R284); LOCK_SATURATED with the lock's job. -/
def addCount (s : State) (l n : Nat) (by_ : Option Cmd) : State :=
  let k := getLock s l
  let s := setLock s l { k with count := min (k.count + n) satMax }
  let s := count s (l / 2048) slotsDie 0x59 1 (attrOf by_)
  let s := traceRec s (l / 2048) (lockRec s by_ 2 l n)
  if satMax < k.count + n then raise s (l / 2048) 0x15 k.job 0xFFFF 0 l 0 0 else s

/-- A signal of `n` (R284), for a job: dropped with LOCK_DENIED where the lock is not granted to it (R286, R287). -/
def signalLock (s : State) (l n job peer : Nat) (by_ : Option Cmd) : State :=
  if (getLock s l).job = job then reclaim (addCount s l n by_) l
  else raise s (l / 2048) 0x16 job 0xFFFF 0 (l + peer * 2 ^ 16) 0 0

/-- An amount consumed is charged to every hold of the lock, each of which ends once its own amount has been consumed since its arrival
(R228); the answer is the holds that remain and those that end. -/
def chargeHolds (t : Nat) (hs : List (Nat × Nat × Nat)) : List (Nat × Nat × Nat) × List (Nat × Nat) :=
  ((hs.filter (fun h => decide (t < h.2.2))).map (fun h => (h.1, h.2.1, h.2.2 - t)),
   (hs.filter (fun h => decide (h.2.2 ≤ t))).map (fun h => (h.1, h.2.1)))

/-- The object and tier of an entry of a prefetch schedule. -/
def entryObj (s : State) (sc e : Nat) : Option (Nat × Nat) :=
  match tfind s.pfs sc with
  | none => none
  | some p => (p.entries[e]?).map (fun x => (x.object, x.target))

/-- A prefetch hold ends: the copy loses that pin (R220, R228). -/
def endHold (s : State) (h : Nat × Nat) : State :=
  match entryObj s h.1 h.2 with
  | none => s
  | some (d, t) => unpinUse s d t

/-- Write the module's fields of a schedule header (R225). -/
def putPf (s : State) (k : Nat) (p : PfSched) : State :=
  let s := { s with pfs := tput s.pfs k p }
  let key := jobKey s 0 p.job
  let a := (gaddrOf k).off
  wrLocal (wrLocal (wrLocal s key a (leBytes 2 p.job)) key (a + 6) (leBytes 1 p.state)) key (a + 8)
    (leBytes 4 p.cursor ++ leBytes 4 p.step ++ leBytes 8 p.stalled)

/-- The claim of a command becomes consumption (R283): COUNT and CLAIMED fall, LAST_CTX is the command's context, and
the holds of R228 are charged. -/
def consume (s : State) (c : Cmd) : State :=
  let l := c.pkt.waitLock; let t := c.pkt.waitThresh
  let k := getLock s l
  let r := chargeHolds t k.holds
  let s := setLock s l { k with count := k.count - t, claimed := k.claimed - t, lastCtx := ctxOf c, holds := r.1 }
  let s := count s (l / 2048) slotsDie 0x5A 1 (attrOf (some c))
  let s := traceRec s (l / 2048) (lockRec s (some c) 1 l t)
  r.2.foldl endHold s

/-- A claim returns to its lock (R278). -/
def returnClaim (s : State) (l t : Nat) : State :=
  let k := getLock s l
  setLock s l { k with claimed := k.claimed - t }

/-- A waiter leaves its queue (R282). -/
def leaveQueue (s : State) (l cid : Nat) : State :=
  let k := getLock s l
  setLock s l { k with queue := without k.queue cid, setters := without k.setters cid }

/-- A freed lock (R263, R298). -/
def freeLock (s : State) (l : Nat) : State := setLock s l Lock.rest

end Sys2Proof.Machine
end

