-- ==== Sys2Proof/Machine/Life.lean ====
section
/-! DEFINITION. The life of an accepted command after its acceptance: kill and rerun (R278, R279), end without commit,
status reply (R268 to R272), commit (R275 to R277), census and tensor-watch entries (R66 to R72, R436, R437), and the
first-NaN trap (R74 to R77). -/

set_option cleanup.letToHave false

namespace Sys2Proof

-- fields of a packet (R245, R246)
def Packet.cls (p : Packet) : Nat := Machine.fld p.opcode 12 4
def Packet.op (p : Packet) : Nat := Machine.fld p.opcode 4 8
/-- CLASS and OP together. -/
def Packet.clsOp (p : Packet) : Nat := Machine.fld p.opcode 4 12
def Packet.heritage (p : Packet) : Bool := Machine.bit p.opcode 3
def Packet.census (p : Packet) : Bool := Machine.bit p.opcode 2
def Packet.slot (p : Packet) (i : Nat) : Nat := p.slots.getD i 0

end Sys2Proof

namespace Sys2Proof.Machine

/-- DETAIL of BAD_PACKET (R271): byte offset of the field and operand slot; a fault in a structure read at start. -/
def badAt (off slot : Nat) : Nat := off + slot * 256
def badStruct : Nat := badAt 0xFF 0xFF

def inUse (c : Cmd) : Bool := c.phase == .running || c.phase == .staged

/-- ENGINE of the reply and of trace records (R269). -/
def engineCode (c : Cmd) : Nat :=
  match c.place with
  | none => 0xE000
  | some p =>
    if 8 ≤ p.die then p.die * 4096 + p.kind * 8
    else
      let cl := if p.kind = 1 then p.unit else if p.kind = 3 then p.unit / 2 else if p.kind = 4 then p.unit / 4 else p.unit / 16
      let no := if p.kind = 1 then 0xF else if p.kind = 3 then p.unit % 2 else if p.kind = 4 then p.unit % 4 else p.unit % 16
      p.die * 4096 + cl * 1024 + no * 64 + p.kind * 8

/-- The 32-byte status reply (R269). -/
def replyBytes (c : Cmd) : List Byte :=
  leBytes 4 c.pkt.seq ++ leBytes 2 c.pkt.job ++ leBytes 2 c.pkt.opcode ++ leBytes 1 c.status ++ leBytes 1 (replyFlags c) ++
  leBytes 1 c.ieee ++ leBytes 1 (min c.runs 255) ++ leBytes 2 c.pkt.epoch ++ leBytes 2 c.lastEng ++
  leBytes 8 c.commitAt ++ leBytes 4 c.detail ++
  leBytes 4 (min c.busy satMax)

-- rings ------------------------------------------------------------------------------------------------------------

/-- Registrations that a ring made for its own areas end when its ENABLE clears (R265). -/
def dropRingBufs (s : State) (r : Nat) : State :=
  { s with bufs := s.bufs.filter (fun b => match b.forRing with | some (k, _) => !(k == r) | none => true) }

/-- A BASE_FAULT (bit 0) or TAIL_FAULT (bit 1) of a ring (R267): it is disabled, RING_FAULT is raised, and after a
BASE_FAULT the replies of its fetched commands are dropped (R269). -/
def ringFault (s : State) (r k : Nat) : State :=
  let x := getRing s r
  let s := setRing s r { x with fault := setBit x.fault k true, enable := false, active := false }
  let s := dropRingBufs s r
  let s := if bit x.fault k then s else fire s (r / 16) (16 + r % 16)
  let s := if k = 0 then
      { s with cmds := s.cmds.map (fun c => if c.origin = .ring r then { c with noReply := true } else c) }
    else s
  raiseFor s 0xF 0x1B false (if x.bind < 64 then some x.bind else none) 0xFFFF 0xFFFF 0
    (r + (setBit x.fault k true) * 256) 0 0

/-- Key of a sealed ring (R412): "ring", the ring, its enable count. -/
def ringKey (s : State) (r : Nat) : List Byte :=
  Config.hkdf384 (getSes s (getRing s r).bind).sms [] (ascii "ring" ++ leBytes 2 r ++ leBytes 4 (getRing s r).enables) 32

/-- Is a ring sealed for an area (R413)? Only TIER 5 areas of a session opened with SEAL_RINGS. -/
def sealedArea (s : State) (r area : Nat) : Bool :=
  (gaddrOf area).tier == 5 && decide ((getRing s r).bind < 64) && (getSes s (getRing s r).bind).isSealed

/-- An unbound ring at its reset values (R383), its enable count kept so that no nonce repeats (R413). -/
def resetRing (s : State) (r : Nat) : State :=
  dropRingBufs (setRing s r { Ring.rest with enables := (getRing s r).enables }) r

/-- RING_UNBIND in the background completes once nothing is in flight; vector 128 reports it (R379, R383). -/
def endUnbind (s : State) (r : Nat) : State :=
  let x := getRing s r
  if x.unbinding ∧ x.inFlight = 0 then fireMsix (resetRing s r) 128 else s

/-- Write one reply into its ring (R268, R269) and report it (R266, R379). -/
def writeReply (s : State) (r : Nat) (bs : List Byte) : State :=
  let x := getRing s r
  let g := gaddrOf x.reply
  let i := x.rtail % 2 ^ x.log2
  if g.tier = 5 ∧ s.power.linkUp = false then
    setRing (ringFault s r 0) r { getRing (ringFault s r 0) r with inFlight := x.inFlight - 1 }
  else
    let s1 :=
      if g.tier = 5 then
        if sealedArea s r x.reply then
          let nonce := leBytes 2 r ++ leBytes 2 1 ++ leBytes 8 x.rtail
          let ct := fitBytes 48 (Config.gcmSeal (ringKey s r) nonce bs)
          wrHost (wrHost s (g.off + 32 * i) (ct.take 32)) (g.off + 32 * 2 ^ x.log2 + 16 * i) (ct.drop 32)
        else wrHost s (g.off + 32 * i) bs
      else wrPlain s (g.off + 32 * i) bs
    let s2 := setRing s1 r { x with rtail := (x.rtail + 1) % 2 ^ 32, inFlight := x.inFlight - 1 }
    if x.replyIrq then
      let s3 := fire s2 (r / 16) (r % 16)
      if x.msix then fireMsix s3 r else s3
    else s2

/-- The sources of a die that report the end of a command's work on a unit: RE_DONE, MV_DONE and the end of a collective
(R465, R466). -/
def engineDone (s : State) (c : Cmd) : State :=
  match c.place with
  | some p =>
    if p.kind = 3 then fire s p.die (96 + p.unit)
    else if p.kind = 4 ∧ p.die < 8 then fire s p.die (104 + p.unit)
    else if p.kind = 5 then fire s p.die 18
    else s
  | none => s

/-- SEQ_ATTN: the sequencer of a core holds a command that Nushaond must finish (R465). -/
def seqAttn (s : State) (c : Cmd) : State :=
  match c.place with
  | some p => if inUse c ∧ (p.kind = 0 ∨ p.kind = 2) ∧ p.die < 8 then fire s p.die (32 + p.unit) else s
  | none => s

/-- A command leaves the module: its reply is written unless dropped, and it is remembered as ended (R262). -/
def finishCmd (s : State) (c : Cmd) : State :=
  let s := dropCmd s c.id
  let s := { s with ended := s.ended ++ [(c.sess, c.pkt.job, c.pkt.seq)] }
  match c.origin with
  | .ring r =>
    let s := if c.noReply then
        setRing s r { getRing s r with inFlight := (getRing s r).inFlight - 1 }
      else writeReply s r (replyBytes c)
    endUnbind s r
  | _ => s

-- kills and ends ----------------------------------------------------------------------------------------------------

/-- Peers to which a command has written or sent requests in its present run. -/
def cmdPeers (c : Cmd) : List Nat :=
  (c.asked.map (fun a => a.1) ++ (c.writes.filter (fun w => w.tgt.tier == 4)).map (fun w => w.tgt.peer)).eraseDups

/-- A run's requests and data that still wait to leave are dropped with it (R278, R310). -/
def dropQueued (s : State) (c : Cmd) : State :=
  { s with held := s.held.filter (fun m =>
      !(m.job == c.pkt.job && m.seq == c.pkt.seq && m.runs == c.runs && (m.typ == mtReadReq || m.typ == mtWrite || m.typ == mtCollData))) }

/-- What every end and every kill of a run releases (R278): pins of use, promotions in flight, remote requests. -/
def releaseRun (s : State) (c : Cmd) : State :=
  let s := if inUse c then dropQueued s c else s
  let s := c.pins.foldl (fun s p => unpinUse s p.1 p.2) s
  let s := if (c.pkt.clsOp = 0x722 ∨ (match c.origin with | .promotion _ _ => true | _ => false) = true) ∧ inUse c = true ∧ 3 ≤ c.aux.length then
      dropPromotion s (c.aux.getD 0 0) (c.aux.getD 1 0) else s
  ((cmdPeers c).filter (fun p => p != s.cfg.peerId)).foldl (fun s p => sendCmd s c p mtCancel 7 [] []) s

/-- A command as it stands before a run. -/
def Cmd.unrun (c : Cmd) : Cmd :=
  { c with
    phase := .waiting, parked := false, place := none, snapMem := [], snapHost := [], remote := [], asked := [], writes := [], acked := [],
    outs := [], ieee := 0, flags := 0, status := 0, detail := 0, aux := [], pins := [], reserved := [], flRead := none,
    flPush := none, probs := [], scratchUe := false, shard := none, fset := none, fall := false }

/-- SET_PENDING falls when no eligible LK_SET of the lock remains (R285). -/
def settleSetters (s : State) (l : Nat) : State :=
  let k := getLock s l
  if k.setters = [] ∧ k.setPending = true then reclaim (setLock s l { k with setPending := false }) l else s

/-- The lock on which an LK_SET has become eligible. -/
def setTarget (c : Cmd) : Option Nat :=
  if c.pkt.clsOp = 0x802 ∧ c.phase = .staged then some (fld (c.pkt.slot 0) 0 14) else none

/-- A root or solve command that is killed stands before those of its die's queue that it came before (R144): the queue holds in front the
killed ones, in the order of their acceptance. -/
def requeueRe (s : State) (c : Cmd) : State :=
  if c.pkt.cls ≠ 4 ∧ c.pkt.cls ≠ 5 then s
  else
    let q := without s.queueRe c.id
    let ahead := q.takeWhile (fun i => decide (i < c.id) && (match findCmd s i with | some x => x.killed && x.phase == .waiting | none => false))
    { s with queueRe := ahead ++ c.id :: q.drop ahead.length }

/-- A command before its commit point is killed and goes back to be rerun (R278, R279): its claim returns, and it stands
at the head of its queue. `cause` is the trace record's (R440). -/
def killCmd (s : State) (c : Cmd) (cause : Nat) : State :=
  let st := inUse c
  let r := if c.parked then endStall s c else (s, c)
  -- the members of a killed collective learn of it each for itself (R366, R367)
  let s := releaseRun r.1 (if c.pkt.cls = 9 then { c with asked := [] } else c)
  let c := r.2
  let s := match setTarget c with | some l => settleSetters (leaveQueue s l c.id) l | none => s
  let s := if st then traceRec s (min (cmdPlace c) 9) (trCmd s c (engineCode c) 5 cause) else s
  let s := if st then drift (jobCount s c.pkt.job c.pkt.layer 16 4 1) (some (c.pkt.job, c.pkt.layer)) else s
  let s := match c.place with
    | some p => if st ∧ p.kind ≤ 2 ∧ p.die < 8 then count s p.die (slotsCore p.unit) 0x42 1 (some (c.pkt.job, c.pkt.layer)) else s
    | none => s
  let s := seqAttn s c
  let c' := { c.unrun with killed := c.killed || st, claimed := false, busy := if st then s.time - c.started else c.busy }
  let s := requeueRe (putCmd s c') c
  if c.pkt.waitThresh = 0 then s
  else
    let l := c.pkt.waitLock
    let s := if c.claimed then returnClaim s l c.pkt.waitThresh else s
    let k := getLock s l
    let s := reclaim (setLock s l { k with queue := c.id :: without k.queue c.id }) l
    match findCmd s c.id with
    | some x => putCmd s (beginArrivalStall s x)
    | none => s

/-- A schedule whose promotion of an entry came to nothing goes back to that entry, in its pass, unless it stands before it already (R230). -/
def PfSched.backTo (p : PfSched) (e : Nat) : PfSched :=
  let pass := match p.flying.find? (fun x => x.2 == e) with | some x => x.1 | none => p.step
  let p' := { p with flying := p.flying.eraseP (fun x => x.2 == e) }
  -- how far the schedule stands beyond the entry's pass, modulo 2³²
  let ahead := (p.step + 2 ^ 32 - pass) % 2 ^ 32
  if ahead < 2 ^ 31 ∧ (0 < ahead ∨ e < p.cursor) then { p' with cursor := e, step := pass } else p'

/-- A promotion of a prefetch schedule that ends without commit (R230): KILLED is reissued by the sequencer; any other
status faults the schedule. -/
def promotionFault (s : State) (sc e status : Nat) : State :=
  match tfind s.pfs sc with
  | none => s
  | some p =>
    let h : State := match entryObj s sc e with | some (d, t) => unpinUse s d t | none => s
    let layer := match p.entries[e]? with | some x => x.layer | none => 0xFFFF
    let p' := p.backTo e
    if status = stKilled then putPf h sc p'
    else
      let h := putPf h sc { p' with state := 3 }
      raise h (dieOfAddr (sc % 2 ^ 48)) 0x12 p.job layer 0 sc (sc / 2 ^ 32) (e + status * 2 ^ 16)

/-- What a CHECKPOINT remembers of an entry: RESULT, VERSION, CAUSE (R482), after a 1. -/
def copyEnded (s : State) (parent entry : Nat) (r : Nat × Nat × Nat) : State :=
  match findCmd s parent with
  | none => s
  | some x => putCmd s { x with aux := ((x.aux.set (1 + 3 * entry) r.1).set (2 + 3 * entry) r.2.1).set (3 + 3 * entry) r.2.2 }

/-- Is a command a shard copy of a CHECKPOINT (R484)? -/
def copyOf (parent : Nat) (c : Cmd) : Bool := match c.origin with | .shardCopy p _ => p == parent | _ => false

/-- A CHECKPOINT that ends without commit takes its uncommitted copies with it. -/
def endCopies (s : State) (parent : Nat) : State :=
  let s := (s.cmds.filter (copyOf parent)).foldl releaseRun s
  { s with cmds := s.cmds.filter (fun x => !(copyOf parent x)) }

/-- A command ends without commit, with a status (R272): nothing of it remains but its reply. -/
def endCmd (s : State) (c : Cmd) (status detail : Nat) : State :=
  let s := releaseRun s c
  let st := setTarget c
  let r := endStall s c
  let s := r.1
  let c := r.2
  let s := if inUse c ∧ (status = stKilled ∨ status = stAborted) then
      traceRec s (min (cmdPlace c) 9) (trCmd s c (engineCode c) 5 (if status = stKilled then 3 else 4)) else s
  let s := traceRec s (min (cmdPlace c) 9) (trCmd s c (engineCode c) 4 status)
  let s := if (findJob s c.pkt.job).any (fun j => j.sess == c.sess) then jobCount s c.pkt.job c.pkt.layer 20 4 1 else s
  let s := match c.place with
    | some p => if p.kind ≤ 2 ∧ p.die < 8 then count s p.die (slotsCore p.unit) 0x43 1 (some (c.pkt.job, c.pkt.layer)) else s
    | none => s
  let s := engineDone (seqAttn s c) c
  let s := if inUse c then drift s (some (c.pkt.job, c.pkt.layer)) else s
  let c' := { c with status := status, detail := detail, commitAt := 0, ieee := 0, writes := [], busy := if inUse c then s.time - c.started else c.busy }
  let s := finishCmd s c'
  let s := match st with | some l => settleSetters (leaveQueue s l c.id) l | none => s
  let s := if c.pkt.waitThresh = 0 then s
    else
      let l := c.pkt.waitLock
      let s := if c.claimed then returnClaim s l c.pkt.waitThresh else s
      reclaim (leaveQueue s l c.id) l
  match c.origin with
  | .promotion sc e => promotionFault s sc e status
  | .shardCopy p e => copyEnded s p e (2, 0, 5)
  | .ring _ => endCopies s c.id
  | _ => s

-- census and tensor watch -------------------------------------------------------------------------------------------

/-- The 32 bytes of a swatch (R72). -/
def Swatch.bytes (w : Swatch) : List Byte :=
  let cut (n : Nat) : List Byte := leBytes 4 (min n satMax)
  let satur := decide (satMax < w.elems)
  cut w.elems ++ cut w.zeros ++ cut w.flushed ++ cut w.saturated ++ cut w.nans ++ cut w.declared ++ cut w.infs ++
  leBytes 2 (match w.maxExp with | some e => codeOf 16 e | none => 0x8000) ++
  leBytes 1 (b2n satur + 2 * b2n w.mordTop + 4 * b2n w.mordFloor + 8 * b2n w.supplied) ++ leBytes 1 w.fmt

/-- The 64-byte entry of a census or watch ring (R71). -/
def entryBytes (c : Cmd) (o : OutInfo) (mid : List Byte) : List Byte :=
  leBytes 2 c.pkt.job ++ leBytes 2 c.pkt.layer ++ leBytes 2 c.pkt.operator ++ leBytes 1 o.slot ++ [0] ++ leBytes 4 c.pkt.seq ++
  leBytes 2 c.pkt.epoch ++ leBytes 2 c.pkt.opcode ++ fitBytes 32 mid ++ leBytes 8 o.addr ++ zeros 8

/-- A write the module makes on a job's behalf: served as any other (R216, R217), and dropped where it is refused (R208). -/
def moduleWrite (s : State) (sess job : Nat) (g : GAddr) (bs : List Byte) : State :=
  let g := localise s g
  match objAt s g bs.length with
  | some (d, o) =>
    if !o.writable then s
    else
      let s := match (served s g bs.length).2 with | some (_, t) => killWb s d t | none => s
      let to_ := (served s g bs.length).1
      let s := if to_.tier = 5 then (if hostWritable s sess to_.off bs.length then wrHost s to_.off bs else s)
        else if to_.tier < 3 then wrLocal s (jobKey s sess job) to_.off bs else s
      markDirty s [⟨to_, bs⟩]
  | none =>
    if g.tier = 5 then (if hostWritable s sess g.off bs.length then wrHost s g.off bs else s)
    else if g.tier < 3 then wrLocal s (jobKey s sess job) g.off bs
    else s

/-- The module's read of its own structure of a job, from the copy that serves it (R216). -/
def moduleRead (s : State) (sess job : Nat) (g : GAddr) (n : Nat) : List Byte :=
  let g := (served s (localise s g) n).1
  if g.tier = 5 then memRead s.host g.off n else rdKey s (jobKey s sess job) g.off n

/-- One entry into a ring of the form of R69: dropped and counted LOST where the ring is full (R70). -/
def ringEntry (s : State) (sess job ringAt entries : Nat) (bs : List Byte) : State :=
  let g := gaddrOf ringAt
  let hd := moduleRead s sess job g 24
  let w := fieldAt hd 0 8
  let rd := fieldAt hd 8 8
  if (w + 2 ^ 64 - rd) % 2 ^ 64 = entries then
    moduleWrite s sess job (g.plus 16) (leBytes 8 (fieldAt hd 16 8 + 1))
  else
    let s := moduleWrite s sess job (g.plus (64 + 64 * (w % entries))) bs
    moduleWrite s sess job g (leBytes 8 (w + 1))

/-- Classes whose commands write census entries (R67): matrix, vector, update, root and solve; curvature; and of the
moves only the converting barge. -/
def censusWriter (p : Packet) : Bool :=
  p.cls ∈ [1, 2, 3, 4, 5, 6] || p.clsOp == 0x702

/-- Does a tensor watch select an output (R435, R436)? -/
def watchSelects (w : TWatch) (c : Cmd) (o : OutInfo) : Bool :=
  w.job == c.pkt.job && decide (w.kind ≤ 1) && decide (w.first ≤ c.pkt.layer) && decide (c.pkt.layer ≤ w.last) &&
  (w.oper == 0xFFFF || w.oper == c.pkt.operator) && bit w.classes c.pkt.cls && bit w.slots o.slot &&
  (w.kind == 1 || o.shape != 0)

/-- Entries of a committed command in the census ring and in the watch rings of its job. -/
def writeEntries (s : State) (c : Cmd) : State :=
  let s := match tfind s.census c.pkt.job with
    | some (at_, n) =>
      if c.pkt.census && censusWriter c.pkt then
        c.outs.foldl (fun (s : State) (o : OutInfo) => if o.shape = 0 then s else ringEntry s c.sess c.pkt.job at_ n (entryBytes c o o.swatch.bytes)) s
      else s
    | none => s
  s.twatch.foldl (fun (s : State) (w : TWatch) =>
    c.outs.foldl (fun (s : State) (o : OutInfo) =>
      if watchSelects w c o then
        let mid := if w.kind = 0 then o.swatch.bytes
          else leBytes 8 (crc64 o.bytes) ++ leBytes 8 o.bytes.length ++ zeros 15 ++ leBytes 1 (if o.shape = 0 then 0 else o.swatch.fmt)
        ringEntry s c.sess c.pkt.job w.target w.entries (entryBytes c o mid)
      else s) s) s

-- commit -----------------------------------------------------------------------------------------------------------

/-- The die in whose pounds a command stages: the one that runs it, or for a command that runs on none the die of its ring (R236). -/
def stageDie (c : Cmd) : Nat :=
  let ring := match c.origin with | .ring r => r / 16 | _ => 0
  match c.place with | some p => if p.die < 8 then p.die else ring | none => ring

/-- The local lock that a signal field names for a job, or the peer and lock of a remote one (R247). -/
inductive SigTo where
  | nowhere
  | here (l : Nat)
  | there (peer l : Nat)
  deriving DecidableEq, Repr

def signalTo (s : State) (sess job v : Nat) : SigTo :=
  if v < 0x4000 then .here v
  else if v < 0x8000 then
    match findJob s job with
    | none => .nowhere
    | some j =>
      let e := leNat (moduleRead s sess job ((gaddrOf j.lockTab).plus (4 * (v - 0x4000))) 4)
      if fld e 0 12 = s.cfg.peerId then .here (fld e 16 14) else .there (fld e 0 12) (fld e 16 14)
  else .nowhere

/-- The target field of class 0x8 and VALUE (R257). -/
def lkTarget (c : Cmd) : Nat := fld (c.pkt.slot 0) 0 16
def lkValue (c : Cmd) : Nat := fld (c.pkt.slot 0) 32 32

/-- The local lock that a signal field of a command names (R247). -/
def lockHere (s : State) (c : Cmd) (v : Nat) : Option Nat := match signalTo s c.sess c.pkt.job v with | .here l => some l | _ => none

/-- The signal lock of a command, where its commit step itself signals it: it is also the wait lock (R283), or the lock that an LK_SET sets
(R285). -/
def sameLock (s : State) (c : Cmd) : Option Nat :=
  if c.pkt.sigInc = 0 then none
  else match lockHere s c c.pkt.sigLock with
    | none => none
    | some l =>
      if (c.pkt.waitThresh ≠ 0 ∧ l = c.pkt.waitLock) ∨ (c.pkt.clsOp = 0x802 ∧ l = fld (c.pkt.slot 0) 0 14) then some l else none

/-- Is that lock also the target of an LK_SIGNAL, so that two signals reach it in one cycle (R284)? -/
def doubleSignal (s : State) (c : Cmd) : Bool :=
  c.pkt.clsOp == 0x801 && (sameLock s c).isSome && decide (lockHere s c (lkTarget c) = sameLock s c)

/-- Where a signal of `n` goes after publication: peer, lock, amount; the own peer id for a local lock. -/
def signalFor (s : State) (c : Cmd) (v n : Nat) : List (Nat × Nat × Nat) :=
  match signalTo s c.sess c.pkt.job v with
  | .here l => [(s.cfg.peerId, l, n)]
  | .there p l => [(p, l, n)]
  | .nowhere => []

/-- The signals that a command makes at its publication: that of its packet, unless the commit step made it, and the one to a remote target of
LK_SIGNAL (R276 step 11, R286). They stand from the commit, whatever becomes of the job (R289). -/
def laterSignals (s : State) (c : Cmd) : List (Nat × Nat × Nat) :=
  (if c.pkt.sigInc = 0 ∨ (sameLock s c).isSome = true then [] else signalFor s c c.pkt.sigLock c.pkt.sigInc) ++
  (if c.pkt.clsOp = 0x801 ∧ (lockHere s c (lkTarget c)).isNone = true then signalFor s c (lkTarget c) (lkValue c) else [])

/-- Operations of class 0x2 that R109 rates 16. -/
def slowVe : List Nat := [0x04, 0x09, 0x0A, 0x0B, 0x0C, 0x0D, 0x0E, 0x0F, 0x10, 0x11, 0x12, 0x25]

/-- Status and WARM_REJECTED of each problem that a class 0x4 or 0x5 command reports: its result entries, or for a refresh what
the command says (R137, R161). -/
def problemsOf (c : Cmd) : List (Nat × Bool) :=
  match c.origin with
  | .ring _ =>
    let t := fld (c.pkt.slot 1) 0 38 * 16
    (c.writes.filter (fun w => w.bytes.length == 32 && decide (t ≤ w.tgt.off) && (w.tgt.off - t) % 32 == 0)).map
      (fun w => (fieldAt w.bytes 0 1, bit (fieldAt w.bytes 1 1) 0))
  | _ => [(c.status, bit c.flags 0)]

/-- What a committed run adds to the counters of its engine (R432). -/
def countWork (s : State) (c : Cmd) : State :=
  let a := some (c.pkt.job, c.pkt.layer)
  match c.place with
  | none => s
  | some p =>
    if 8 ≤ p.die then (if c.pkt.cls = 9 then count s 8 slotsDie 0x74 1 a else s)
    else if c.pkt.cls = 2 then
      let sum (f : OutInfo → Nat) : Nat := c.outs.foldl (fun n o => n + f o) 0
      let n := sum (fun o => o.swatch.elems)
      [(0x21, n), (0x22, if slowVe.contains c.pkt.op then n else 0), (0x24, sum (fun o => o.swatch.flushed)),
        (0x25, sum (fun o => o.swatch.saturated)), (0x26, sum (fun o => o.swatch.nans))].foldl
        (fun s x => count s p.die (slotsEngine p.unit 2) x.1 x.2 a) s
    else if c.pkt.cls = 4 ∨ c.pkt.cls = 5 then
      let ps := problemsOf c
      let n (f : Nat × Bool → Bool) : Nat := (ps.filter f).length
      [(0x32, ps.length), (0x34, n (fun x => x.1 == stDeadline || x.1 == stIncomplete)), (0x35, n (fun x => x.1 == stIll)), (0x36, n Prod.snd)].foldl
        (fun s x => count s p.die (slotsRoot p.unit) x.1 x.2 a) s
    else if c.pkt.cls = 6 ∧ c.pkt.op ≤ 3 then
      (List.range 16).foldl (fun s i =>
        let e := slotsEngine (p.unit * 16 + i) 3
        count (count s p.die e 0x2A (b2n (bit c.flags 1)) a) p.die e 0x2B (b2n (bit c.flags 2)) a) s
    else if c.pkt.clsOp = 0x722 then count s p.die (slotsMove p.unit) 0x3D 1 a
    else s

/-- The pound space that the TIER 5 outputs of a committed command keep until they have drained to host memory (R236, R238). -/
def hostGranules (c : Cmd) : List (Nat × Nat) :=
  let n := (c.writes.filter (fun w => w.tgt.tier == 5)).foldl (fun a w => a + granCount w.tgt.off w.bytes.length) 0
  if n = 0 then [] else [(stageDie c * 2 + 1, n)]

/-- Commit of a command in one cycle (R275): its status is final, its claim is consumed (R283), its staged bytes are
published (R238), its entries are written (R68), and `eff` applies its other effects. TIER 5 outputs wait (R209); the
lenders get COMMIT (R276 step 10). -/
def commitWith (eff : State → Cmd → State) (s : State) (c : Cmd) : State :=
  let same := sameLock s c
  let both := doubleSignal s c
  let c := { c with phase := .committed, commitAt := s.time, busy := s.time - c.started, toSend := laterSignals s c }
  let s := putCmd s c
  let key := jobKey s c.sess c.pkt.job
  let d := stageDie c
  let loc := c.writes.filter (fun w => decide (w.tgt.tier < 3))
  let s := markDirty (publishWrites s key loc) loc
  let s := poundPublish s d loc
  let s := if c.pkt.waitThresh = 0 then s else consume s c
  let s := match same with
    | some l => signalLock s l (c.pkt.sigInc + (if both then lkValue c else 0)) c.pkt.job s.cfg.peerId (some c)
    | none => s
  let s := eff s c
  let s := writeEntries s c
  let s := c.pins.foldl (fun s p => unpinUse s p.1 p.2) s
  let s := if c.pkt.waitThresh = 0 then s else reclaim s c.pkt.waitLock
  let s := traceRec s (min (cmdPlace c) 9)
    (trCmd s c (engineCode c) 3 (c.status + replyFlags c * 256 + min (s.time - c.started) satMax * 2 ^ 32))
  let s := drift (countWork (jobCount s c.pkt.job c.pkt.layer 12 4 1) c) (some (c.pkt.job, c.pkt.layer))
  let s := match c.place with
    | some p => if p.kind ≤ 2 ∧ p.die < 8 then count s p.die (slotsCore p.unit) 0x41 1 (some (c.pkt.job, c.pkt.layer)) else s
    | none => s
  let s := engineDone s c
  let lenders := ((c.writes.filter (fun w => w.tgt.tier == 4)).map (fun w => w.tgt.peer)).eraseDups
  let s := lenders.foldl (fun s p => sendCmd s c p mtCommit 7 [] []) s
  let c := { c with
    pins := [], reserved := hostGranules c, snapMem := [], snapHost := [], remote := [], asked := [], signalled := same.isSome,
    claimed := false, writes := c.writes.filter (fun w => w.tgt.tier == 5), outs := [] }
  match c.origin with
  | .ring _ => putCmd s c
  | _ => dropCmd (publishWrites s key c.writes) c.id

-- the first-NaN trap ------------------------------------------------------------------------------------------------

/-- Where a command produced an arithmetic NaN (R73, R77): engine, cause, output slot, linear index. -/
structure NanAt where
  engine : Nat
  cause  : Nat
  slot   : Nat
  index  : Nat
  deriving DecidableEq, Repr

/-- The bytes of a trap record (R77). -/
def trapRecord (s : State) (c : Cmd) (n : NanAt) (further : Nat) : List Byte :=
  let p := c.place.getD ⟨0, 0, 0⟩
  leBytes 2 c.pkt.job ++ leBytes 2 c.pkt.layer ++ leBytes 2 c.pkt.operator ++ leBytes 2 c.pkt.opcode ++ leBytes 4 c.pkt.seq ++
  leBytes 2 c.pkt.epoch ++ leBytes 2 (p.die * 8192 + p.unit / 16 * 2048 + p.unit % 16 * 128 + n.engine * 32) ++
  leBytes 2 (s.cfg.peerId + n.cause * 4096) ++ leBytes 1 n.slot ++ [0] ++ leBytes 4 further ++ leBytes 8 n.index

/-- NAN_TRAP (R74, R75, R297): the first of the job writes the record and raises the event, and the job becomes
Trapped; a later one counts FURTHER. -/
def trapCmd (s : State) (c : Cmd) (n : NanAt) : State :=
  match findJob s c.pkt.job with
  | none => endCmd s c stNanTrap 0
  | some j =>
    let g := gaddrOf j.trapAddr
    let s :=
      if j.trapMade then
        let f := fieldAt (moduleRead s j.sess j.id g 32) 20 4
        moduleWrite s j.sess j.id (g.plus 20) (leBytes 4 (min (f + 1) satMax))
      else
        let p := c.place.getD ⟨0, 0, 0⟩
        let s := moduleWrite s j.sess j.id g (trapRecord s c n 0)
        let s := raiseCmd s c 0x04 (p.die * 8192 + p.unit / 16 * 2048 + p.unit % 16 * 128 + n.engine * 32 + n.cause * 65536) 0 0
        updJob s j.id (fun x => { x with
          trapMade := true,
          st := match x.st with | .running => .trapped | .suspended _ => .suspended true | y => y })
    endCmd s c stNanTrap 0

-- running an operation ----------------------------------------------------------------------------------------------

/-- What an operation's run has staged. -/
structure Stg where
  writes : List SWrite
  outs   : List OutInfo
  ieee   : Nat
  flags  : Nat
  status : Nat
  detail : Nat
  aux    : List Nat
  /-- its commit awaits something besides its lenders -/
  wait   : Bool
  /-- events raised as it runs: code and three details -/
  evs    : List (Nat × Nat × Nat × Nat)
  deriving DecidableEq, Repr

def Stg.none : Stg := ⟨[], [], 0, 0, 0, 0, [], false, []⟩

/-- An event of a command: code and details. -/
abbrev CEvent := Nat × Nat × Nat × Nat

/-- What a run of an operation comes to. -/
inductive Out where
  | need (reads : List (Nat × Nat × Nat))            -- TIER 4 reads (peer, address, bytes) that must arrive first
  | stop (status detail : Nat) (evs : List CEvent)   -- it ends without commit
  /-- TIER 4 reads made once more: what they brought before is dropped -/
  | redo (reads : List (Nat × Nat × Nat)) (aux : List Nat) (evs : List CEvent)
  | hold (aux : List Nat)                            -- its commit waits for another command (R199)
  | trap (n : NanAt)                                 -- it produced an arithmetic NaN and the trap is armed
  | done (r : Stg)                                   -- its outputs are staged
  deriving Repr

/-- The reads that together make one: a body holds at most 65,536 bytes (R337; the cut is the model's, notes/assumptions/36). -/
def pieces (r : Nat × Nat × Nat) : List (Nat × Nat × Nat) :=
  (List.range (ceilDiv r.2.2 farChunk)).map (fun i => (r.1, r.2.1 + farChunk * i, min farChunk (r.2.2 - farChunk * i)))

/-- What answered one piece. -/
def pieceOf (c : Cmd) (r : Nat × Nat × Nat) : Option RemoteData :=
  c.remote.find? (fun x => x.peer == r.1 && x.addr == r.2.1 && x.data.length == r.2.2)

/-- Is a TIER 4 read answered by what the command has received? -/
def received (c : Cmd) (r : Nat × Nat × Nat) : Bool := (pieces r).all (fun p => (pieceOf c p).isSome)

/-- Bytes that a TIER 4 read brought. -/
def farExact (c : Cmd) (r : Nat × Nat × Nat) : List Byte :=
  ((pieces r).map (fun p => match pieceOf c p with | some x => x.data | none => [])).flatten

/-- Does a command that must exchange messages with a peer fail, and how? ACCESS_DENIED without a link secret (R415) or
with the pair's generations spent (R353); PEER_LOST when the peer is lost (R355). -/
def linkFault (s : State) (c : Cmd) (peer : Nat) : Option Nat :=
  if !hasLink s c.sess c.pkt.job || pairSpent s peer c.pkt.job then some stDenied
  else if peer ∈ s.domain.lost then some stPeerLost
  else none

/-- A command ends because its messages cannot go to a peer; the DETAIL of R271. -/
def endLink (s : State) (c : Cmd) (peer : Nat) : State :=
  let st := (linkFault s c peer).getD stDenied
  endCmd s c st (if st = stDenied then 0xFE else 0)

/-- Send the reads that a run needs and has not asked for. -/
def askReads (s : State) (c : Cmd) (rs : List (Nat × Nat × Nat)) : State :=
  let new := ((rs.map pieces).flatten).filter (fun r => (pieceOf c r).isNone && !(r ∈ c.asked))
  match new.find? (fun r => (linkFault s c r.1).isSome) with
  | some r => endLink s c r.1
  | none =>
    let s := new.foldl (fun s r => sendCmd s c r.1 mtReadReq (dataTc c) [r.2.1, r.2.2, 0] []) s
    putCmd s { c with asked := c.asked ++ new }

/-- The staged outputs of a run are held; TIER 4 outputs go to their lenders, and the command commits as soon as nothing
is awaited (R275). -/
def stage (eff : State → Cmd → State) (s : State) (c : Cmd) (r : Stg) : State :=
  let c := { c with phase := .staged, writes := cutFar r.writes, outs := r.outs, ieee := r.ieee, flags := c.flags ||| r.flags,
                    status := r.status, detail := r.detail, aux := r.aux }
  let far := c.writes.filter (fun w => w.tgt.tier == 4)
  match far.find? (fun w => (linkFault s c w.tgt.peer).isSome) with
  | some w => endLink s c w.tgt.peer
  | none =>
    let s := far.foldl (fun s w => sendCmd s c w.tgt.peer mtWrite (dataTc c) [w.tgt.off] w.bytes) s
    let s := count s (stageDie c) slotsDie 0x57
      (ceilDiv ((r.writes.map (fun w => w.bytes.length)).foldl (· + ·) 0) 64) (some (c.pkt.job, c.pkt.layer))
    if far = [] ∧ r.wait = false then commitWith eff s c else putCmd s c

/-- The window of a job's DIGEST_MISMATCH events, in ns (R198). -/
def digestWindow (s : State) (job : Nat) : Nat :=
  match findJob s job with
  | some j => (if j.digestWin = 0 then 60 else j.digestWin) * 1000000000
  | none => 60000000000

/-- Raise an event of a command; DIGEST_MISMATCH is counted against its owner, and two within the job's window raise
OWNER_SUSPECT (R198). -/
def emitEv (s : State) (c : Cmd) (e : CEvent) : State :=
  let s := raiseCmd s c e.1 e.2.1 e.2.2.1 e.2.2.2
  if e.1 ≠ 0x0B then s
  else
    let k := (c.pkt.job, fld e.2.1 16 12)
    let old := (aget [] s.suspects k).filter (fun x => decide (s.time ≤ x.1 + digestWindow s c.pkt.job))
    let s' := { s with suspects := aput s.suspects k (old ++ [(s.time, e.2.2.1)]) }
    match old.getLast? with
    | some x => raiseCmd s' c 0x0C e.2.1 x.2 e.2.2.1
    | none => s'

/-- Run a started command of an opcode (class and operation): a row that names no such command does nothing. -/
def runOp (clsOp : Nat) (compute : State → Cmd → Out) (eff : State → Cmd → State) (cid : Nat) (s : State) :
    Host.Outcome State Fault Refusal :=
  match findCmd s cid with
  | none => .next s
  | some c =>
    if c.phase = .running ∧ c.pkt.clsOp = clsOp then
      match compute s c with
      | .need rs => .next (askReads s c rs)
      | .stop st d evs => .next (endCmd (evs.foldl (fun s e => emitEv s c e) s) c st d)
      | .hold aux => .next (putCmd s { c with aux := aux })
      | .trap n => .next (trapCmd s c n)
      | .redo rs aux evs =>
        let c' := { c with
          aux := aux,
          remote := c.remote.filter (fun x => !((x.peer, x.addr, x.data.length) ∈ (rs.map pieces).flatten)),
          asked := c.asked.filter (fun a => !(a ∈ (rs.map pieces).flatten)) }
        .next (askReads (putCmd (evs.foldl (fun s e => emitEv s c e) s) c') c' rs)
      | .done r => .next (stage eff (r.evs.foldl (fun s e => emitEv s c e) s) c r)
    else .next s

/-- An operation with no effect besides its writes. -/
def noEffect (s : State) (_ : Cmd) : State := s

end Sys2Proof.Machine
end

