-- ==== Sys2Proof/Machine/Numeric.lean ====
section
/-! DEFINITION. Number formats, rounding, overflow and the elementary operations (chapter 2 of the manual).
Values are exact: a finite value is a sign and a non-negative rational. -/

set_option cleanup.letToHave false

namespace Sys2Proof.Machine

/-- A decoded value. `fin neg n d` is ±n/d, with a signed zero; a NaN keeps sign, payload, and whether it signals. -/
inductive Num where
  | nan (neg : Bool) (payload : Nat) (signaling : Bool)
  | inf (neg : Bool)
  | fin (neg : Bool) (n d : Nat)
  deriving DecidableEq, Repr

/-- The rounding-direction attributes (R46), in the encoding of RND (R111). -/
inductive Rnd where
  | nearest | towardZero | towardPositive | towardNegative
  deriving DecidableEq, Repr

/-- A binary layout: exponent bits, fraction bits, bias (R37). -/
structure Lay where
  eb   : Nat
  fb   : Nat
  bias : Nat
  deriving DecidableEq, Repr

/-- The layout of a format code (R37): 0 FP32, 1 FP64, 2 M48, 3 H16W, 4 binary16, 5 K8, 6 K8W, 7 K4. -/
def layOf : Nat → Lay
  | 0 => ⟨8, 23, 127⟩
  | 1 => ⟨11, 52, 1023⟩
  | 2 => ⟨8, 39, 127⟩
  | 3 => ⟨8, 7, 127⟩
  | 4 => ⟨5, 10, 15⟩
  | 5 => ⟨4, 3, 7⟩
  | 6 => ⟨5, 2, 15⟩
  | _ => ⟨2, 1, 1⟩

/-- Bits of an element (R37). -/
def fmtBits : Nat → Nat
  | 0 => 32 | 1 => 64 | 2 => 48 | 3 => 16 | 4 => 16 | 5 => 8 | 6 => 8 | _ => 4

/-- K8, K8W and K4 carry mordants (R37). -/
def narrow (f : Nat) : Bool := decide (5 ≤ f)

/-- Unit roundoff u of a format as the exponent k of 2⁻ᵏ (R37): one more than the fraction bits. -/
def ulpExp (f : Nat) : Nat := (layOf f).fb + 1

-- IEEE flags, as the bits of the reply's IEEE byte (R269)
def flInvalid : Nat := 1
def flDivZero : Nat := 2
def flOverflow : Nat := 4
def flUnderflow : Nat := 8
def flInexact : Nat := 16

/-- n/d as a pair with a common power of two. -/
def mulPow (x : Nat × Nat) (e : Int) : Nat × Nat :=
  if 0 ≤ e then (x.1 * 2 ^ e.toNat, x.2) else (x.1, x.2 * 2 ^ (-e).toNat)

/-- ⌊log₂ (n/d)⌋ for n, d > 0. -/
def log2Q (n d : Nat) : Int :=
  let e : Int := (Nat.log2 n : Int) - (Nat.log2 d : Int)
  let p := mulPow (d, 1) e
  -- n/d ≥ 2^e ?
  if d * 2 ^ (if 0 ≤ e then e.toNat else 0) ≤ n * 2 ^ (if 0 ≤ e then 0 else (-e).toNat) then e
  else if p.1 = 0 then e else e - 1

/-- An integer part and its remainder rounded under a direction: quotient, remainder, divisor, sign (R57, R46). -/
def roundInt (r : Rnd) (neg : Bool) (q rem d : Nat) : Nat :=
  match r with
  | .nearest => if 2 * rem < d then q else if d < 2 * rem then q + 1 else if q % 2 = 0 then q else q + 1
  | .towardZero => q
  | .towardPositive => if rem = 0 then q else if neg then q else q + 1
  | .towardNegative => if rem = 0 then q else if neg then q + 1 else q

/-- n/d > 0 rounded to a multiple of 2^e: significand and exactness. -/
def roundAt (r : Rnd) (neg : Bool) (n d : Nat) (e : Int) : Nat × Bool :=
  let p := mulPow (n, d) (-e)
  (roundInt r neg (p.1 / p.2) (p.1 % p.2) p.2, p.1 % p.2 = 0)

/-- The result of rounding a positive magnitude to a layout with unbounded exponent range at the top:
the code without sign (which may exceed the largest finite code), exactness, and tininess after rounding. -/
structure Rounded where
  code  : Nat
  exact : Bool
  tiny  : Bool
  deriving DecidableEq, Repr

/-- Round n/d > 0 to a layout (R57); the code counts on past the top of the format when the value does. -/
def roundMag (l : Lay) (r : Rnd) (neg : Bool) (n d : Nat) : Rounded :=
  let emin : Int := 1 - (l.bias : Int)
  let e := log2Q n d
  let ex := if e < emin then emin else e
  let p := roundAt r neg n d (ex - l.fb)
  -- tiny: rounded with unbounded exponent range, the magnitude lies below the smallest normal
  let t := if e < emin then
      (if e + 1 < emin then true else decide ((roundAt r neg n d (e - l.fb)).1 < 2 ^ (l.fb + 1)))
    else false
  ⟨(ex - emin).toNat * 2 ^ l.fb + p.1, p.2, t⟩

/-- Largest finite code, without sign, of an IEEE layout (exponent field all ones is infinity or NaN). -/
def maxCode (l : Lay) : Nat := (2 ^ l.eb - 1) * 2 ^ l.fb - 1

/-- Largest finite code of a narrow format, whose all-ones exponent is finite (R40). -/
def maxNarrow (l : Lay) : Nat := 2 ^ (l.eb + l.fb) - 1

/-- The magnitude of a code without sign, as n/d (R40, R45). -/
def magOf (l : Lay) (c : Nat) : Nat × Nat :=
  let e := c / 2 ^ l.fb
  let f := c % 2 ^ l.fb
  let sig := if e = 0 then f else f + 2 ^ l.fb
  mulPow (sig, 1) ((if e = 0 then 1 else (e : Int)) - l.bias - l.fb)

/-- The payload bits that travel between formats: the low plane of M48 is not among them (R47, R48). -/
def payloadShift (f : Nat) : Nat := if f = 2 then 16 else 0

/-- Decode an element of a wide format (R45, R48). -/
def decodeWide (f c : Nat) : Num :=
  let l := layOf f
  let neg := bit c (l.eb + l.fb)
  let m := c % 2 ^ (l.eb + l.fb)
  if m ≤ maxCode l then
    let v := magOf l m
    .fin neg v.1 v.2
  else if m = (2 ^ l.eb - 1) * 2 ^ l.fb then .inf neg
  else .nan neg ((m % 2 ^ (l.fb - 1)) >>> payloadShift f) (!(bit m (l.fb - 1)))

/-- Decode a narrow code under its mordant (R40, R50): the code with only its sign set is NaN. -/
def decodeNarrow (f c mord : Nat) : Num :=
  let l := layOf f
  let neg := bit c (l.eb + l.fb)
  let m := c % 2 ^ (l.eb + l.fb)
  if m = 0 then (if neg then .nan false 0 false else .fin false 0 1)
  else
    let v := mulPow (magOf l m) ((mord : Int) - 127)
    .fin neg v.1 v.2

/-- Canonical quiet NaN. -/
def qnan : Num := .nan false 0 false

/-- The declared NaN: quiet, payload 0xDEC (R47). -/
def declaredNan : Num := .nan false 0xDEC false

def Num.isNan : Num → Bool | .nan _ _ _ => true | _ => false
def Num.isInf : Num → Bool | .inf _ => true | _ => false
def Num.isFin : Num → Bool | .fin _ _ _ => true | _ => false
def Num.isZero : Num → Bool | .fin _ n _ => n == 0 | _ => false
def Num.isSig : Num → Bool | .nan _ _ s => s | _ => false
def Num.isNeg : Num → Bool | .nan s _ _ => s | .inf s => s | .fin s _ _ => s
def Num.isDeclared : Num → Bool | .nan _ p s => p == 0xDEC && !s | _ => false
/-- A NaN made quiet; any other value unchanged. -/
def Num.quiet : Num → Num | .nan s p _ => .nan s p false | x => x
def Num.neg : Num → Num | .nan s p g => .nan (!s) p g | .inf s => .inf (!s) | .fin s n d => .fin (!s) n d
def Num.abs : Num → Num | .nan _ p g => .nan false p g | .inf _ => .inf false | .fin _ n d => .fin false n d

/-- The signed numerator and denominator of a finite value (0 for the others). -/
def Num.toQ : Num → Int × Nat
  | .fin s n d => (if s then -(n : Int) else n, d)
  | _ => (0, 1)

/-- A finite value from a signed fraction; a zero takes the sign given. -/
def ofQ (zneg : Bool) (q : Int × Nat) : Num :=
  if q.1 = 0 then .fin zneg 0 1 else .fin (decide (q.1 < 0)) q.1.natAbs q.2

/-- Exact sum of two signed fractions. -/
def addQ (a b : Int × Nat) : Int × Nat :=
  if a.2 = b.2 then (a.1 + b.1, a.2)
  else if b.2 % a.2 = 0 then (a.1 * (b.2 / a.2 : Nat) + b.1, b.2)
  else if a.2 % b.2 = 0 then (a.1 + b.1 * (a.2 / b.2 : Nat), a.2)
  else (a.1 * b.2 + b.1 * a.2, a.2 * b.2)

def mulQ (a b : Int × Nat) : Int × Nat := (a.1 * b.1, a.2 * b.2)
def absQ (a : Int × Nat) : Int × Nat := ((a.1.natAbs : Int), a.2)
def leQ (a b : Int × Nat) : Bool := decide (a.1 * b.2 ≤ b.1 * a.2)
def ltQ (a b : Int × Nat) : Bool := decide (a.1 * b.2 < b.1 * a.2)
def subQ (a b : Int × Nat) : Int × Nat := addQ a (-b.1, b.2)

/-- What one element operation gives: its exact value, its flags, and the trap cause of an arithmetically produced
NaN (R73, R77). -/
structure Res where
  val   : Num
  fl    : Nat
  cause : Option Nat
  deriving DecidableEq, Repr

def Res.ok (v : Num) : Res := ⟨v, 0, none⟩
/-- An invalid operation on operands none of which is NaN: the canonical quiet NaN (R47). -/
def Res.invalid (cause : Nat) : Res := ⟨qnan, flInvalid, some cause⟩

/-- The NaN result of an operation with NaN operands: the first of them, quieted; a signaling one is invalid (R46, R47). -/
def propagate (ops : List Num) : Option Res :=
  (ops.find? Num.isNan).map (fun x => ⟨x.quiet, if ops.any Num.isSig then flInvalid else 0, none⟩)

/-- A + B (R532); `r` decides the sign of an exact zero sum. -/
def numAdd (r : Rnd) (a b : Num) : Res :=
  match propagate [a, b] with
  | some x => x
  | none =>
    match a, b with
    | .inf s, .inf t => if s = t then .ok a else .invalid 0
    | .inf _, _ => .ok a
    | _, .inf _ => .ok b
    | _, _ =>
      if a.isZero && b.isZero && (a.isNeg == b.isNeg) then .ok a
      else .ok (ofQ (r == .towardNegative) (addQ a.toQ b.toQ))

def numSub (r : Rnd) (a b : Num) : Res :=
  match propagate [a, b] with
  | some x => x
  | none => numAdd r a b.neg

def numMul (a b : Num) : Res :=
  match propagate [a, b] with
  | some x => x
  | none =>
    let s := a.isNeg != b.isNeg
    match a, b with
    | .fin _ n d, .fin _ n' d' => .ok (.fin s (n * n') (d * d'))
    | _, _ => if a.isZero || b.isZero then .invalid 1 else .ok (.inf s)

def numDiv (a b : Num) : Res :=
  match propagate [a, b] with
  | some x => x
  | none =>
    let s := a.isNeg != b.isNeg
    match a, b with
    | .inf _, .inf _ => .invalid 2
    | .inf _, _ => .ok (.inf s)
    | _, .inf _ => .ok (.fin s 0 1)
    | .fin _ n d, .fin _ n' d' =>
      if n' = 0 then (if n = 0 then .invalid 2 else ⟨.inf s, flDivZero, none⟩)
      else .ok (.fin s (n * d') (d * n'))
    | _, _ => .ok a

/-- A · B + C with one rounding to come (R532). Of 0 · ∞ plus a quiet NaN, where IEEE 754-2019 leaves the invalid flag to the
implementation, the NaN comes first and none is raised: DESIGN CHOICE (notes/assumptions/108). -/
def numFma (r : Rnd) (a b c : Num) : Res :=
  match propagate [a, b, c] with
  | some x => x
  | none =>
    let p := numMul a b
    match p.cause with
    | some _ => p
    | none => numAdd r p.val c

/-- Is a ≤ b, for values none of which is NaN, with −0 below +0 (IEEE 754-2019 maximum and minimum)? -/
def numLe (a b : Num) : Bool :=
  match a, b with
  | .inf s, .inf t => s || !t
  | .inf s, _ => s
  | _, .inf t => !t
  | _, _ => if a.isZero && b.isZero then a.isNeg || !b.isNeg else leQ a.toQ b.toQ

def numMax (a b : Num) : Res :=
  match propagate [a, b] with
  | some x => x
  | none => .ok (if numLe a b then b else a)

def numMin (a b : Num) : Res :=
  match propagate [a, b] with
  | some x => x
  | none => .ok (if numLe a b then a else b)

/-- ⌊√n⌋, one bit at a time from bit `k - 1` down. -/
def isqrtFrom : Nat → Nat → Nat → Nat
  | 0, _, acc => acc
  | k + 1, n, acc =>
    if (acc + 2 ^ k) * (acc + 2 ^ k) ≤ n then isqrtFrom k n (acc + 2 ^ k) else isqrtFrom k n acc

def isqrt (n : Nat) : Nat := isqrtFrom (Nat.log2 n / 2 + 1) n 0

/-- √(n/d) for a dyadic n/d: exact when rational, otherwise a rational strictly inside the same rounding interval of
every format (160 bits beyond the binary point of the normalised root). -/
def sqrtQ (n d : Nat) : Nat × Nat :=
  let k := 160 + Nat.log2 d
  let r := isqrt (n * d * 4 ^ k)
  if r * r = n * d * 4 ^ k then (r, d * 2 ^ k) else (2 * r + 1, 2 * d * 2 ^ k)

def numSqrt (a : Num) : Res :=
  match propagate [a] with
  | some x => x
  | none =>
    if a.isZero then .ok a
    else if a.isNeg then .invalid 3
    else match a with
      | .fin _ n d => let v := sqrtQ n d; .ok (.fin false v.1 v.2)
      | x => .ok x

-- writing ----------------------------------------------------------------------------------------------------------

/-- One element as written: its code, the flags its rounding raised, whether it took the overflow path (R58), whether
it is a nonzero value written as zero. -/
structure Written where
  code  : Nat
  fl    : Nat
  sat   : Bool
  flush : Bool
  deriving DecidableEq, Repr

/-- Sign bit of a wide format. -/
def signBits (f : Nat) (neg : Bool) : Nat := if neg then 2 ^ (fmtBits f - 1) else 0

/-- The NaN code of a wide format (R47). -/
def nanCode (f : Nat) (x : Num) : Nat :=
  let l := layOf f
  let top := (2 ^ l.eb - 1) * 2 ^ l.fb + 2 ^ (l.fb - 1)
  match x with
  | .nan neg p sg =>
    -- a declared NaN becomes the canonical NaN of a 16-bit format
    if x.isDeclared && (f == 3 || f == 4) then top
    else
      let p' := p <<< payloadShift f
      let q := if p' < 2 ^ (l.fb - 1) then p' else Config.freePayload f p % 2 ^ (l.fb - 1)
      -- only ABS hands on a signaling NaN as it is (R47)
      if sg && q != 0 then signBits f neg + (2 ^ l.eb - 1) * 2 ^ l.fb + q
      else signBits f neg + top + q
  | _ => top

/-- The overflow path of R58 for a wide format: mode 0 SAT, 1 NAN, 2 INF. -/
def overflowWide (f mode : Nat) (neg : Bool) : Nat :=
  let l := layOf f
  if mode = 0 then signBits f neg + maxCode l
  else if mode = 1 then nanCode f qnan
  else signBits f neg + (maxCode l + 1)

/-- Round a value to a wide format (R46, R57 to R59), with the flags of IEEE 754-2019: an infinity is exact. -/
def writeWide (f mode : Nat) (r : Rnd) (x : Num) : Written :=
  let l := layOf f
  match x with
  | .nan _ _ _ => ⟨nanCode f x, 0, false, false⟩
  | .inf neg =>
    -- R58: every infinite value takes the overflow path; in mode INF the conversion is exact
    if mode = 2 then ⟨overflowWide f 2 neg, 0, true, false⟩
    else ⟨overflowWide f mode neg, flOverflow + flInexact, true, false⟩
  | .fin neg n d =>
    if n = 0 then ⟨signBits f neg, 0, false, false⟩
    else
      let q := roundMag l r neg n d
      if maxCode l < q.code then
        -- R58: toward the origin, the largest finite value
        if r = .towardZero ∨ (r = .towardPositive ∧ neg = true) ∨ (r = .towardNegative ∧ neg = false) then
          ⟨signBits f neg + maxCode l, flOverflow + flInexact, false, false⟩
        else ⟨overflowWide f mode neg, flOverflow + flInexact, true, false⟩
      else
        ⟨signBits f neg + q.code,
          (if q.exact then 0 else flInexact + (if q.tiny then flUnderflow else 0)), false, decide (q.code = 0)⟩

/-- One element written to an operand of a wide format: every element that takes the overflow path of R58 raises overflow and
inexact, in every overflow mode (R530; DEDUCED, notes/assumptions/109). -/
def writeElem (f mode : Nat) (r : Rnd) (x : Num) : Written :=
  let w := writeWide f mode r x
  if w.sat then { w with fl := flOverflow + flInexact } else w

/-- The threshold T of choose_mordant and encode_block (R54, R58). -/
def narrowT : Nat → Nat | 5 => 496 | 6 => 122880 | _ => 7
def narrowEmax : Nat → Int | 5 => 8 | 6 => 16 | _ => 2

/-- choose_mordant (R54). -/
def chooseMordant (f : Nat) (v : List Num) : Nat :=
  let a := v.foldl (fun m x => if x.isFin && ltQ m (absQ x.toQ) then absQ x.toQ else m) ((0, 1) : Int × Nat)
  if a.1 = 0 then 0
  else
    let e0 := log2Q a.1.toNat a.2 - narrowEmax f
    let s := mulPow (1, 1) e0
    -- a / 2^e ≥ T
    let e1 := if leQ (mulQ ((narrowT f : Int), 1) ((s.1 : Int), s.2)) a then e0 + 1 else e0
    let e2 := if e1 < -127 then -127 else e1
    let e3 := if 128 < e2 then 128 else e2
    (e3 + 127).toNat

/-- One element of encode_block (R54, R58, R59): the value divided by its block scale. -/
def writeNarrow (f mode mord : Nat) (x : Num) : Written :=
  let l := layOf f
  let nanC := 2 ^ (l.eb + l.fb)
  match x with
  | .nan _ _ _ => ⟨nanC, 0, false, false⟩
  | .inf neg =>
    ⟨if mode = 0 then maxNarrow l + (if neg then nanC else 0) else nanC, flOverflow + flInexact, true, false⟩
  | .fin neg n d =>
    let v := mulPow (n, d) (127 - (mord : Int))
    if narrowT f * v.2 ≤ v.1 then
      ⟨if mode = 0 then maxNarrow l + (if neg then nanC else 0) else nanC, flOverflow + flInexact, true, false⟩
    else if n = 0 then ⟨0, 0, false, false⟩
    else
      let q := roundMag l .nearest neg v.1 v.2
      -- a value above the largest code and below the threshold rounds to the largest code (R58)
      let c := if maxNarrow l < q.code then maxNarrow l else q.code
      -- R530: underflow when the code written is subnormal or zero and inexact
      let fl := if q.exact && decide (q.code ≤ maxNarrow l) then 0
        else flInexact + (if c < 2 ^ l.fb then flUnderflow else 0)
      ⟨if c = 0 then 0 else c + (if neg then nanC else 0), fl, false, decide (c = 0)⟩

-- FP32 and FP64 arithmetic with one rounding per operation ----------------------------------------------------------

/-- An FP32 or FP64 code after rounding, with flags. -/
structure Rd where
  code : Nat
  fl   : Nat
  deriving DecidableEq, Repr

/-- Round an exact result to a wide format with overflow mode INF, to nearest. -/
def roundRes (f : Nat) (x : Res) : Rd :=
  let w := writeWide f 2 .nearest x.val
  ⟨w.code, x.fl ||| w.fl⟩

/-- round_FP32 of a value. -/
def r32 (x : Num) : Nat := (writeWide 0 2 .nearest x).code
/-- The value of an FP32 code. -/
def v32 (c : Nat) : Num := decodeWide 0 c

/-- A natural number as a value. -/
def numOf (n : Nat) : Num := .fin false n 1

-- results whose bits are not bound ----------------------------------------------------------------------------------

/-- A code of a wide format that is no NaN: a free candidate with NaN codes taken as infinity. -/
def saneCode (f c : Nat) : Nat :=
  let k := c % 2 ^ fmtBits f
  if (decodeWide f k).isNan then overflowWide f 2 (bit k (fmtBits f - 1)) else k

/-- A result that R61 bounds and does not fix: the free candidate where it lies within `bound` of the exact value,
otherwise the exact value rounded to nearest. Where an intermediate result may overflow (`past`), the manual gives no
bound, and any value but NaN may come. -/
def bounded (f : Nat) (ops : List Nat) (exact bound : Int × Nat) (past : Bool) : Nat :=
  let c := saneCode f (Config.freeAcc ops)
  let v := decodeWide f c
  if past then c
  else if bound.1 ≤ 0 then (writeWide f 2 .nearest (ofQ false exact)).code
  else if v.isFin && leQ (absQ (subQ v.toQ exact)) bound then c
  else (writeWide f 2 .nearest (ofQ false exact)).code

/-- The codes of a value as naturals, to key a free choice by its operands. -/
def Num.key : Num → List Nat
  | .nan s p g => [0, b2n s, p, b2n g]
  | .inf s => [1, b2n s]
  | .fin s n d => [2, b2n s, n, d]

/-- The exact sum of a list of finite values. -/
def sumQ (xs : List (Int × Nat)) : Int × Nat := xs.foldl addQ (0, 1)

/-- 2⁻ᵏ · n as a fraction. -/
def scaleQ (n k : Nat) (q : Int × Nat) : Int × Nat := (q.1 * n, q.2 * 2 ^ k)

/-- Does a magnitude exceed the largest finite value of a wide format? -/
def exceeds (f : Nat) (q : Int × Nat) : Bool :=
  let m := magOf (layOf f) (maxCode (layOf f))
  ltQ ((m.1 : Int), m.2) (absQ q)

/-- Is a fraction a whole multiple of the smallest subnormal of a wide format? Sums of such multiples are exact where they
are small, so that they cannot underflow. -/
def onGrid (f : Nat) (q : Int × Nat) : Bool :=
  let l := layOf f
  decide (q.1 * (2 ^ (l.bias + l.fb - 1) : Nat) % (q.2 : Int) = 0)

/-- May an intermediate of a sum of these terms underflow: be smaller than the smallest normal value and inexact? Where
the terms have one sign, no partial sum is smaller than its smallest term. -/
def mayUnderflow (f : Nat) (same : Bool) (qs : List (Int × Nat)) : Bool :=
  let l := layOf f
  qs.any (fun q => !(onGrid f q) && (!same || ltQ (absQ q) (1, 2 ^ (l.bias - 1))))

/-- Free flags of inner roundings: overflow and underflow only where they may come, and only with inexact (R530). -/
def freeFl (key : List Nat) (ovf und : Bool) : Nat :=
  let k := Config.freeFlags key
  (if ovf && bit k 2 then flOverflow + flInexact else 0) ||| (if und && bit k 3 then flUnderflow + flInexact else 0) |||
  (if bit k 4 then flInexact else 0)

/-- The result of summing terms (R61): NaN by an input (R47), an invalid difference of infinities, an infinity, or a
finite sum that the bound `k · 2⁻ᵘ · Σ|t|` constrains, plus `under · 2⁻¹⁴⁹` where an intermediate may underflow. `terms` are exact; `ctx` is the command's operation, shapes and operands, and the place of the result. -/
def sumTerms (f : Nat) (ctx : List Nat) (terms : List Num) (k under : Nat) : Res :=
  if terms.any Num.isNan then
    ⟨if terms.any Num.isDeclared then declaredNan else qnan, if terms.any Num.isSig then flInvalid else 0, none⟩
  else if terms.any (fun x => x.isInf && x.isNeg) && terms.any (fun x => x.isInf && !x.isNeg) then .invalid 0
  else match terms.find? Num.isInf with
    | some x => .ok x
    | none =>
      let qs := terms.map Num.toQ
      let ex := sumQ qs
      let mag := sumQ (qs.map absQ)
      let past := decide (0 < k) && exceeds f mag
      let neg := qs.all (fun q => decide (q.1 ≤ 0))
      let same := neg || qs.all (fun q => decide (0 ≤ q.1))
      let tiny := mayUnderflow f same qs
      let bnd := addQ (scaleQ k (ulpExp f) mag) (if tiny then ((under : Int), 2 ^ 149) else (0, 1))
      let bnd := if k = 0 then (0, 1) else bnd
      let key := ctx ++ (terms.map Num.key).flatten
      -- terms of one sign: each partial sum lies between 0 and the whole, so only an infinity of that sign can come of an overflow
      let c := if past && same then
          (if (decodeWide f (saneCode f (Config.freeAcc key))).isInf && exceeds f (addQ (absQ ex) bnd) then overflowWide f 2 neg
           else bounded f key ex bnd false)
        else bounded f key ex bnd past
      -- a sum of terms none of which is negative is not negative
      let c := if qs.all (fun q => decide (0 ≤ q.1)) then c % 2 ^ (fmtBits f - 1) else c
      let fl := if k = 0 then 0 else if (decodeWide f c).isInf then flOverflow + flInexact else freeFl key (past && !same) tiny
      let e := writeWide f 2 .nearest (ofQ false ex)
      ⟨decodeWide f c, fl ||| (if k = 0 then e.fl else if c = e.code && e.fl = 0 then 0 else flInexact), none⟩

/-- ⌈log₂ n⌉ for n ≥ 1. -/
def clog2 (n : Nat) : Nat := if n ≤ 1 then 0 else Nat.log2 (n - 1) + 1

end Sys2Proof.Machine
end

