-- ==== Sys2Proof/Machine/Operands.lean ====
section
/-! DEFINITION. Operand forms: packets, descriptors, shape entries, tensors and their planes (R22 to R25, R37 to R56,
R245 to R250), reading a view and writing one with its swatch (R58, R59, R72). -/

set_option cleanup.letToHave false

namespace Sys2Proof.Machine

/-- A packet from its 64 bytes (R245). -/
def packetOf (bs : List Byte) : Packet :=
  { opcode := fieldAt bs 0 2, job := fieldAt bs 2 2, layer := fieldAt bs 4 2, operator := fieldAt bs 6 2, seq := fieldAt bs 8 4,
    epoch := fieldAt bs 12 2, waitLock := fieldAt bs 14 2, waitThresh := fieldAt bs 16 4, sigLock := fieldAt bs 20 2,
    sigInc := fieldAt bs 22 2, slots := [fieldAt bs 24 8, fieldAt bs 32 8, fieldAt bs 40 8, fieldAt bs 48 8, fieldAt bs 56 8] }

/-- The global address that a descriptor names (R248). -/
def descAddr (x : Nat) : GAddr := ⟨fld x 61 3, fld x 48 12, fld x 0 38 * 16⟩
def descShape (x : Nat) : Nat := fld x 38 10

/-- A shape entry from its 32 bytes (R249). -/
def shapeOf (bs : List Byte) : Shape :=
  ⟨fieldAt bs 0 1, fieldAt bs 4 4, fieldAt bs 8 4, fieldAt bs 12 4, fieldAt bs 16 4, fieldAt bs 20 4, fieldAt bs 24 4⟩

def Shape.fmt4 (h : Shape) : Nat := fld h.fmt 0 4
def Shape.ovf (h : Shape) : Nat := fld h.fmt 6 2
def Shape.blk (h : Shape) : Nat := 16 * 2 ^ fld h.fmt 4 2

/-- A shape entry breaks R249 (R252, BAD_PACKET 8). -/
def shapeBad (bs : List Byte) : Bool :=
  let h := shapeOf bs
  !(zeroAt bs 1 3) || !(zeroAt bs 28 4) || h.rows == 0 || h.cols == 0 || h.vrows == 0 || h.vcols == 0 ||
  decide (h.rows < h.row0 + h.vrows) || decide (h.cols < h.col0 + h.vcols)

/-- A format byte breaks R39 for an operand that is written or only read. -/
def fmtBad (written : Bool) (fb : Nat) : Bool :=
  let f := fld fb 0 4
  let ovf := fld fb 6 2
  decide (8 ≤ f) || ovf == 3 || (written && narrow f && ovf == 2) || (written && decide (f ≤ 2) && ovf != 2) ||
  (fld fb 4 2 != 0 && !(narrow f))

/-- A written narrow view covers part of a mordant block (R53). -/
def partBlock (h : Shape) : Bool :=
  narrow h.fmt4 && (h.col0 % h.blk != 0 || ((h.col0 + h.vcols) % h.blk != 0 && h.col0 + h.vcols != h.cols))

-- layout of a tensor -----------------------------------------------------------------------------------------------

/-- Bytes of one element in the element plane (the high plane of M48); K4 takes half of one (R249, R48). -/
def elBytes (f : Nat) : Nat := if f = 1 then 8 else if f = 0 ∨ f = 2 then 4 else if f = 3 ∨ f = 4 then 2 else 1

/-- Bytes of `n` elements of a row from its start. -/
def runBytes (f n : Nat) : Nat := if f = 7 then (n + 1) / 2 else n * elBytes f

def rowBytes (h : Shape) : Nat := runBytes h.fmt4 h.cols
def planeBytes (h : Shape) : Nat := h.rows * rowBytes h
def rowBlocks (h : Shape) : Nat := ceilDiv h.cols h.blk

/-- Offset from the operand address of the second plane: M48's low plane or the mordant plane, at the first 256-byte
boundary at or after the end of the first (R48, R51). -/
def plane2 (addr : Nat) (h : Shape) : Nat := roundUp (addr + planeBytes h) 256 - addr

/-- Byte range of the whole tensor with all its planes (R249). -/
def tensorBytes (addr : Nat) (h : Shape) : Nat :=
  if h.fmt4 = 2 then plane2 addr h + h.rows * h.cols * 2
  else if narrow h.fmt4 then plane2 addr h + h.rows * rowBlocks h
  else planeBytes h

/-- The bytes of the columns of a view within a row of the element plane: first and count. -/
def colRange (f col0 n : Nat) : Nat × Nat :=
  if f = 7 then (col0 / 2, (col0 + n + 1) / 2 - col0 / 2) else (col0 * elBytes f, n * elBytes f)

/-- The mordant blocks of a row that a view covers: first and count. -/
def blockRange (h : Shape) : Nat × Nat := (h.col0 / h.blk, ceilDiv (h.col0 + h.vcols) h.blk - h.col0 / h.blk)

/-- The bytes that a read of a view takes, row by row, plane by plane (R249). -/
def viewRanges (g : GAddr) (h : Shape) : List (GAddr × Nat) :=
  let f := h.fmt4
  let p2 := plane2 g.off h
  let c := colRange f h.col0 h.vcols
  let b := blockRange h
  ((List.range h.vrows).map (fun k =>
    let i := h.row0 + k
    (g.plus (i * rowBytes h + c.1), c.2) ::
    (if f = 2 then [(g.plus (p2 + (i * h.cols + h.col0) * 2), h.vcols * 2)]
     else if narrow f then [(g.plus (p2 + i * rowBlocks h + b.1), b.2)]
     else []))).flatten

/-- The bytes of a supplied mordant plane that a command reads: those of the blocks that its destination view covers (R54). -/
def suppliedRanges (g : GAddr) (h : Shape) : List (GAddr × Nat) :=
  (List.range h.vrows).map (fun i => (g.plus ((h.row0 + i) * rowBlocks h + (blockRange h).1), (blockRange h).2))

/-- Code and mordant of element (i, j) of the tensor whose bytes from `addr` are `bs`. -/
def elCode (addr : Nat) (h : Shape) (bs : List Byte) (i j : Nat) : Nat × Nat :=
  let f := h.fmt4
  if f = 7 then
    let b := fieldAt bs (i * rowBytes h + j / 2) 1
    (if j % 2 = 0 then b % 16 else b / 16, fieldAt bs (plane2 addr h + i * rowBlocks h + j / h.blk) 1)
  else if f = 2 then
    (fieldAt bs (plane2 addr h + (i * h.cols + j) * 2) 2 + fieldAt bs (i * rowBytes h + j * 4) 4 * 2 ^ 16, 127)
  else
    (fieldAt bs (i * rowBytes h + j * elBytes f) (elBytes f),
      if narrow f then fieldAt bs (plane2 addr h + i * rowBlocks h + j / h.blk) 1 else 127)

/-- The value of a code of any format (R40, R45, R48, R50). -/
def elValue (f : Nat) (cm : Nat × Nat) : Num := if narrow f then decodeNarrow f cm.1 cm.2 else decodeWide f cm.1

/-- The values of a view, row by row. -/
def viewVals (addr : Nat) (h : Shape) (bs : List Byte) : List (List Num) :=
  (List.range h.vrows).map (fun i => (List.range h.vcols).map (fun j =>
    elValue h.fmt4 (elCode addr h bs (h.row0 + i) (h.col0 + j))))

-- what a command reads ----------------------------------------------------------------------------------------------

/-- Where a command's operand is served (R24, R30, R216): its own core for a core-relative address, and the copy that
the command pins. -/
def resolve (s : State) (c : Cmd) (g : GAddr) (n : Nat) : GAddr :=
  let g := localise s g
  let g := if g.tier = 2 ∧ g.off < 0x180000 then
      match c.place with
      | some p => { g with off := coreSlot (p.die * 64 + p.unit) + g.off }
      | none => g
    else g
  match objAt s g n with
  | none => g
  | some (d, o) =>
    if (d, 1) ∈ c.pins then gLocal (o.t1.at_ + (g.off - o.home.off))
    else if (d, 2) ∈ c.pins then gLocal (o.t2.at_ + (g.off - o.home.off))
    else g

/-- Bytes received from a peer, over the answers that hold them. -/
def farWalk (c : Cmd) (peer : Nat) : Nat → Nat → Nat → List Byte
  | 0, _, n => zeros n
  | k + 1, a, n =>
    if n = 0 then []
    else match c.remote.find? (fun x => x.peer == peer && decide (x.addr ≤ a) && decide (a < x.addr + x.data.length)) with
      | some x =>
        let m := min n (x.addr + x.data.length - a)
        (x.data.drop (a - x.addr)).take m ++ farWalk c peer k (a + m) (n - m)
      | none => zeros n

/-- Bytes received from a peer. -/
def farBytes (c : Cmd) (peer a n : Nat) : List Byte := farWalk c peer (c.remote.length + 1) a n

/-- The bytes of an operand as the command read them at its start (R274). -/
def cBytes (s : State) (c : Cmd) (g : GAddr) (n : Nat) : List Byte :=
  let g := resolve s c g n
  if g.tier = 4 then farBytes c g.peer g.off n
  else if g.tier = 5 then memRead c.snapHost g.off n
  else memRead c.snapMem g.off n

/-- The TIER 4 reads that a set of operands still needs. -/
def farNeeds (s : State) (c : Cmd) (rs : List (GAddr × Nat)) : List (Nat × Nat × Nat) :=
  ((rs.map (fun r => let g := resolve s c r.1 r.2; (g.tier, (g.peer, g.off, r.2)))).filter
    (fun x => x.1 == 4 && !(received c x.2))).map Prod.snd

/-- The bytes of a coded image of `n` source bytes on a peer, of which only the coded bytes of each frame are read (R232): first the header
of each frame, then the rest that it announces; or the reads that are still to come. -/
def farImage (c : Cmd) (peer a n : Nat) : Except (List (Nat × Nat × Nat)) (List Byte) :=
  let frames := (List.range (ceilDiv n 4096)).map (fun i => a + i * 4352)
  let heads := frames.map (fun x => (peer, x, 16))
  if heads.any (fun r => !(received c r)) then .error (heads.filter (fun r => !(received c r)))
  else
    let rest (x : Nat) : Nat × Nat × Nat := let l := fieldAt (farExact c (peer, x, 16)) 2 2; (peer, x + 16, if l ≤ 4352 then l - 16 else 0)
    let more := (frames.map rest).filter (fun r => r.2.2 != 0 && !(received c r))
    if more.isEmpty then .ok ((frames.map (fun x => fitBytes 4352 (farExact c (peer, x, 16) ++ farExact c (rest x)))).flatten) else .error more

/-- A typed operand of a command: slot, address, shape. -/
structure Opnd where
  slot : Nat
  addr : GAddr
  sh   : Shape
  deriving DecidableEq, Repr

/-- The operand of a slot; a command's shapes were read at acceptance (R249). -/
def opnd (c : Cmd) (i : Nat) : Option Opnd :=
  match (c.shapes.getD i none) with
  | some h => some ⟨i, descAddr (c.pkt.slot i), h⟩
  | none => none

def Opnd.range (o : Opnd) : GAddr × Nat := (o.addr, tensorBytes o.addr.off o.sh)

/-- The values of an operand's view. -/
def opVals (s : State) (c : Cmd) (o : Opnd) : List (List Num) :=
  viewVals o.addr.off o.sh (cBytes s c o.addr (tensorBytes o.addr.off o.sh))

/-- What may decide the bits of a command's results (R60): its operation, shapes and operands; of the opcode neither the
type nor the flags. -/
def opKey (c : Cmd) (vs : List (List (List Num))) : List Nat :=
  c.pkt.clsOp :: ((c.shapes.filterMap id).map (fun h => [h.fmt, h.rows, h.cols, h.row0, h.col0, h.vrows, h.vcols])).flatten ++
  ((vs.flatten.flatten).map Num.key).flatten

-- what a command writes ---------------------------------------------------------------------------------------------

/-- An element before its write: exact value or working-format value, flags so far, the cause of an arithmetic NaN, and
whether a subnormal was flushed on the way. -/
structure El where
  v     : Num
  fl    : Nat
  cause : Option Nat
  fz    : Bool
  deriving DecidableEq, Repr

def El.of (x : Num) : El := ⟨x, 0, none, false⟩
def El.ofRes (r : Res) : El := ⟨r.val, r.fl, r.cause, false⟩

/-- A written tensor: staged bytes, swatch, flags, and the bytes in the order of R437. -/
structure Wr where
  writes : List SWrite
  swatch : Swatch
  fl     : Nat
  bytes  : List Byte
  deriving DecidableEq, Repr

def Swatch.empty (fb : Nat) : Swatch := ⟨0, 0, 0, 0, 0, 0, 0, none, false, false, false, fb⟩

/-- The counts of one element written (R72). -/
def Swatch.add (w : Swatch) (x : El) (wr : Written) (val : Num) : Swatch :=
  let top : Option Int := match val with
    | .fin _ n d => if n = 0 then w.maxExp else
        let e := log2Q n d
        match w.maxExp with | some m => some (if m < e then e else m) | none => some e
    | _ => w.maxExp
  { w with
    elems := w.elems + 1, zeros := w.zeros + b2n val.isZero,
    flushed := w.flushed + b2n (val.isZero && (wr.flush || x.fz)),
    saturated := w.saturated + b2n wr.sat, nans := w.nans + b2n val.isNan, declared := w.declared + b2n val.isDeclared,
    infs := w.infs + b2n val.isInf, maxExp := top }

/-- Elements cut into mordant blocks. -/
def blocksOf {α : Type} (b : Nat) : Nat → List α → List (List α)
  | 0, _ => []
  | n + 1, xs => if xs.isEmpty then [] else xs.take b :: blocksOf b n (xs.drop b)

/-- One block of a narrow row: mordant chosen (R54) or supplied, and its elements as written. -/
def writeBlock (h : Shape) (supplied : Option Nat) (xs : List El) : Nat × List (El × Written) :=
  let m := match supplied with | some m => m | none => chooseMordant h.fmt4 (xs.map El.v)
  (m, xs.map (fun x => (x, writeNarrow h.fmt4 h.ovf m x.v)))

/-- Codes of one row packed into bytes (R44, R249). -/
def packRow (f : Nat) : List Nat → List Byte
  | [] => []
  | [a] => if f = 7 then [BitVec.ofNat 8 a] else leBytes (elBytes f) (if f = 2 then a / 2 ^ 16 else a)
  | a :: b :: r =>
    if f = 7 then BitVec.ofNat 8 (a + 16 * b) :: packRow f r
    else leBytes (elBytes f) (if f = 2 then a / 2 ^ 16 else a) ++ packRow f (b :: r)

/-- One row of a view written: codes, mordants, swatch and flags so far. An element written as NaN counts as no nonzero
element for MORDANT_FLOOR: DESIGN CHOICE (notes/assumptions/111). -/
def writeRow (h : Shape) (r : Rnd) (supplied : Nat → Option Nat) (acc : Swatch × Nat) (xs : List El) :
    (Swatch × Nat) × List Nat × List Nat :=
  let f := h.fmt4
  if narrow f then
    let bs := blocksOf h.blk xs.length xs
    let ws := bs.zipIdx.map (fun b => writeBlock h (supplied b.2) b.1)
    let sw := ws.foldl (fun (a : Swatch × Nat) b =>
      let z := b.2.foldl (fun (a : Swatch × Nat) e => (a.1.add e.1 e.2 (decodeNarrow f e.2.code b.1), a.2 ||| e.1.fl ||| e.2.fl)) a
      let nz := b.2.any (fun e => e.2.code % 2 ^ (fmtBits f - 1) != 0)
      ({ z.1 with mordTop := z.1.mordTop || b.1 == 0xFF, mordFloor := z.1.mordFloor || (b.1 == 0 && nz) }, z.2)) acc
    (sw, (ws.map (fun b => b.2.map (fun e => e.2.code))).flatten, ws.map Prod.fst)
  else
    let ws := xs.map (fun x => (x, writeElem f h.ovf r x.v))
    (ws.foldl (fun (a : Swatch × Nat) e => (a.1.add e.1 e.2 (decodeWide f e.2.code), a.2 ||| e.1.fl ||| e.2.fl)) acc,
      ws.map (fun e => e.2.code), [])

/-- Write the elements of a view under a rounding direction (R57, R111), with chosen or supplied mordants. -/
def writeView (o : Opnd) (r : Rnd) (supplied : Option (Nat → Nat → Nat)) (els : List (List El)) : Wr :=
  let h := o.sh
  let f := h.fmt4
  let a := o.addr.off
  let start : (Swatch × Nat) := ({ Swatch.empty h.fmt with supplied := supplied.isSome }, 0)
  let res := els.zipIdx.foldl (fun (acc : (Swatch × Nat) × List (Nat × List Nat × List Nat)) row =>
    let i := h.row0 + row.2
    let sup := fun (b : Nat) => supplied.map (fun g => g i (h.col0 / h.blk + b))
    let w := writeRow h r sup acc.1 row.1
    (w.1, acc.2 ++ [(i, w.2.1, w.2.2)])) (start, [])
  let el := res.2.map (fun x => (SWrite.mk (o.addr.plus (x.1 * rowBytes h + runBytes f h.col0)) (packRow f x.2.1)))
  let p2 := plane2 a h
  let lo := if f = 2 then
      res.2.map (fun x => SWrite.mk (o.addr.plus (p2 + (x.1 * h.cols + h.col0) * 2)) ((x.2.1.map (fun k => leBytes 2 k)).flatten))
    else if narrow f then
      res.2.map (fun x => SWrite.mk (o.addr.plus (p2 + x.1 * rowBlocks h + h.col0 / h.blk)) (x.2.2.map (BitVec.ofNat 8)))
    else []
  let ws := (el ++ lo).filter (fun w => !w.bytes.isEmpty)
  ⟨ws, res.1.1, res.1.2, (ws.map SWrite.bytes).flatten⟩

/-- Staged writes served where R216 says. -/
def placeWrites (s : State) (c : Cmd) (ws : List SWrite) : List SWrite :=
  ws.map (fun w => { w with tgt := resolve s c w.tgt w.bytes.length })

/-- The entry of an output for census and tensor watch. -/
def outOf (c : Cmd) (o : Opnd) (w : Wr) : OutInfo :=
  ⟨o.slot, o.addr.code, descShape (c.pkt.slot o.slot), w.swatch, w.bytes⟩

/-- The output of raw bytes (shape 0). -/
def outRaw (slot : Nat) (g : GAddr) (bs : List Byte) : OutInfo := ⟨slot, g.code, 0, Swatch.empty 0, bs⟩

/-- The linear index of element (i, j) of a view in its whole tensor (R77). -/
def linIndex (h : Shape) (i j : Nat) : Nat := (h.row0 + i) * h.cols + h.col0 + j

/-- The arithmetic NaN of lowest index among the elements written (R76). -/
def firstNan (h : Shape) (els : List (List El)) : Option (Nat × Nat) :=
  let xs := (els.zipIdx.map (fun r => r.1.zipIdx.map (fun e => (e.1.cause, linIndex h r.2 e.2)))).flatten
  xs.foldl (fun b x => match b, x.1 with
    | none, some k => some (k, x.2)
    | some (k, i), some k' => if x.2 < i then some (k', x.2) else some (k, i)
    | b, none => b) none

/-- Is the trap armed for a command (R74)? -/
def trapArmed (s : State) (c : Cmd) : Bool := match findJob s c.pkt.job with | some j => j.trapArmed | none => false

/-- Two swatches of one output added. -/
def Swatch.merge (a b : Swatch) : Swatch :=
  { a with
    elems := a.elems + b.elems, zeros := a.zeros + b.zeros, flushed := a.flushed + b.flushed,
    saturated := a.saturated + b.saturated, nans := a.nans + b.nans, declared := a.declared + b.declared,
    infs := a.infs + b.infs,
    maxExp := (match a.maxExp, b.maxExp with | some x, some y => some (if x < y then y else x) | some x, none => some x | none, y => y),
    mordTop := a.mordTop || b.mordTop, mordFloor := a.mordFloor || b.mordFloor }

/-- Staged writes in ascending order of address. -/
def sortWrites (ws : List SWrite) : List SWrite := ws.mergeSort (fun a b => decide (a.tgt.off ≤ b.tgt.off))

/-- Write only runs of a view's rows: (row of the view, first column, elements) (R93). -/
def writeRuns (o : Opnd) (r : Rnd) (runs : List (Nat × Nat × List El)) : Wr :=
  let ws := runs.map (fun x =>
    writeView { o with sh := { o.sh with row0 := o.sh.row0 + x.1, vrows := 1, col0 := o.sh.col0 + x.2.1, vcols := x.2.2.length } }
      r none [x.2.2])
  let all := sortWrites (ws.map Wr.writes).flatten
  ⟨all, ws.foldl (fun a w => a.merge w.swatch) (Swatch.empty o.sh.fmt), ws.foldl (fun a w => a ||| w.fl) 0,
    (all.map SWrite.bytes).flatten⟩

/-- The common end of an operation that writes one view: trap (R74) or staged outputs. `engine` is R77's. -/
def finishView (s : State) (c : Cmd) (engine : Nat) (o : Opnd) (r : Rnd) (supplied : Option (Nat → Nat → Nat))
    (extraFl : Nat) (els : List (List El)) : Out :=
  match (if trapArmed s c then firstNan o.sh els else none) with
  | some (cause, i) => .trap ⟨engine, cause, o.slot, i⟩
  | none =>
    let w := writeView o r supplied els
    .done { Stg.none with writes := placeWrites s c w.writes, outs := [outOf c o w], ieee := w.fl ||| extraFl }

/-- An operation refused when it starts: a structure that breaks its rules (R252, R271). -/
def badStart : Out := .stop stBad badStruct []

/-- What the start of a command comes to (R252, R274): it starts with what it changes, it waits for something, or it ends
before it starts. -/
inductive StartRes where
  | go (s : State) (c : Cmd)
  | wait
  | stop (status detail : Nat) (evs : List CEvent)

/-- A structure named by a slot breaks its rules (R271). -/
def badIn (slot : Nat) : StartRes := .stop stBad (badAt 0xFF slot) []

/-- A part of a view broadcast (R110): its element for output element (i, j). -/
def bcastAt (v : List (List Num)) (i j : Nat) : Num :=
  let row := v.getD (if v.length = 1 then 0 else i) []
  row.getD (if row.length = 1 then 0 else j) qnan

-- what a packet's slots hold ----------------------------------------------------------------------------------------

/-- How an operation uses a slot (R251, R253 to R260, R531): all-zero; immediate with its field bits; a tensor, written
or read, of the formats listed; an untyped region of `n` bytes; a flight whose top entry the shape views (R250). -/
inductive Use where
  | zero
  | imm (fields : Nat)
  | ten (written : Bool) (fmts : List Nat)
  | raw (n : Nat) (written : Bool)
  | flight (fmts : List Nat)
  deriving DecidableEq, Repr

/-- A fault of R252's check 9: packet offset and slot. -/
abbrev Flt := Nat × Nat
def fltSlot (i : Nat) : Flt := (24 + 8 * i, i)
def fltOpcode : Flt := (0, 0xFF)

/-- The faults of a list of tests. -/
def fltIf (b : Bool) (f : Flt) : List Flt := if b then [f] else []

/-- Every format but M48; and the formats of the narrow kind. -/
def fmtsVe : List Nat := [0, 1, 3, 4, 5, 6, 7]

/-- Operands that R64 refuses in heritage mode: K4, M48, or a mordant block other than 32 or 128. -/
def heritageShapeBad (h : Shape) : Bool :=
  h.fmt4 == 7 || h.fmt4 == 2 || (narrow h.fmt4 && !(h.blk == 32 || h.blk == 128))

end Sys2Proof.Machine
end

