-- ==== Sys2Proof/Machine/Access.lean ====
section
/-! DEFINITION. Which addresses a command may name, and which accesses are refused (R23, R25, R30, R203 to R208, R235,
R446). -/

set_option cleanup.letToHave false

namespace Sys2Proof.Machine

/-- Does a range of a global address break R23 or R30, for a class? `x` is the 64-bit address. -/
def addrBad (cls x n : Nat) : Bool :=
  let g := gaddrOf x
  let n := max n 1
  decide (6 ≤ g.tier) || bit x 60 || (g.peer != 0 && g.tier != 4) ||
  (if g.tier = 0 then decide (hbmEnd < g.off + n)
   else if g.tier = 1 then decide (g.off < basinBase) || decide (basinEnd < g.off + n)
   else if g.tier = 2 then
     if g.off < 0x180000 then decide (0x180000 < g.off + n) || !(cls == 1 || cls == 2)
     else decide (g.off < coreBase) || decide (coreEnd < g.off + n) || decide (0x180000 < (g.off - coreBase) % 0x200000 + n)
   else if g.tier = 3 then
     !(cls == 7 || cls == 15) ||
     (match windowOf g.off with | some w => decide (0x10000000 < w.2 + n) | none => true)
   else if g.tier = 4 then decide (hbmEnd < g.off + n)
   else decide (2 ^ 48 < g.off + n))

/-- Has an HOSTBUF_UNREG of the buffer started (R391)? -/
def bufClosing (s : State) (b : HostBuf) : Bool :=
  s.cmds.any (fun x => inUse x && x.pkt.clsOp == 0xF0B && x.sess == b.sess && (descAddr (x.pkt.slot 0)).off == b.base)

/-- The host buffers that a command may use at a range (R208, R391): `cls` is its class. A registration that a ring made
for its own area counts as no buffer (R265). -/
def hostAllowed (s : State) (sess job ring cls a n : Nat) (written accepted : Bool) : Bool :=
  s.bufs.any (fun b =>
    b.sess == sess && b.forRing.isNone && inside a n b.base (b.pages * 4096) && (accepted || !(bufClosing s b)) &&
    (if cls = 10 ∨ cls = 14 ∨ cls = 15 then (if written then b.modWr else true)
     else if b.modWr then b.job == job && b.ring == ring else !written))

/-- Does a range touch a pool region (R213)? -/
def inPool (s : State) (a n : Nat) : Bool := s.pools.any (fun e => overlap a n e.2.base e.2.size)

/-- Is an access of a command refused (R25, R203 to R208, R235, R446)? A TIER 4 access is its lender's to decide. -/
def accessDenied (s : State) (c : Cmd) (g : GAddr) (n : Nat) (written accepted : Bool) : Bool :=
  let g := localise s g
  if g.tier = 5 then !(hostAllowed s c.sess c.pkt.job (ctxOf c) c.pkt.cls g.off n written accepted)
  else if g.tier = 4 then false
  else if g.tier < 2 then inPound s g.off (max n 1) || inPool s g.off (max n 1) || (g.tier == 0 && loanCuts s g.off (max n 1))
  else false

/-- Does a local range lie wholly on a die? -/
def onOneDie (d a n : Nat) : Bool := dieOfAddr a == d && dieOfAddr (a + max n 1 - 1) == d

/-- A range that a structure names must be free of the faults of R23, of the tiers given, aligned, and wholly of one die,
where one is given. -/
def structRangeBad (s : State) (tiers : List Nat) (die : Option Nat) (align x n : Nat) : Bool :=
  let g := localise s (gaddrOf x)
  !(g.tier ∈ tiers) || addrBad 15 x n || g.off % align != 0 ||
  (match die with | some d => !(onOneDie d g.off n) | none => false)

-- memory errors (R241) ---------------------------------------------------------------------------------------------

/-- A command that reads a poisoned unit ends (R241). -/
def eccEnd (s : State) (c : Cmd) (u : Nat) : State :=
  endCmd (memError s (dieOfAddr u) 1 c.pkt.job c.pkt.layer c.pkt.seq (cmdSes c) (gLocal u).code) c stEcc 0

/-- A poisoned unit in a list of ranges as a command reads them. -/
def poisonAmong (s : State) (c : Cmd) (rs : List (GAddr × Nat)) : Option Nat :=
  rs.findSome? (fun r => let g := resolve s c r.1 r.2; if g.tier < 3 ∧ r.2 ≠ 0 then poisonedIn s g.off r.2 else none)

/-- A command that has not started, as it would read memory now. -/
def readNow (s : State) (c : Cmd) : Cmd :=
  { c with snapMem := viewMem s.mem s.keys (jobKey s c.sess c.pkt.job), snapHost := s.host }

/-- The byte range of an operand in a use. -/
def useRange (p : Packet) (hs : List (Option Shape)) (i : Nat) (u : Use) : Option (GAddr × Nat × Bool) :=
  let x := p.slot i
  match u with
  | .ten w _ => (hs.getD i none).map (fun h => (descAddr x, tensorBytes (descAddr x).off h, w))
  | .raw n w => some (descAddr x, n, w)
  | .flight _ => some (descAddr x, 64, false)
  | _ => none

end Sys2Proof.Machine
end

