-- ==== Sys2Proof/Machine/RawView.lean ====
section
/-! DEFINITION. A view as bytes: the codes of its rows packed from their first element, then their part of the second plane,
taken and written unchanged (R255, R361). -/

set_option cleanup.letToHave false

namespace Sys2Proof.Machine

/-- Bytes of one row of a view: of its elements (the high plane of M48), and of the second plane. -/
def rowLen1 (h : Shape) : Nat := runBytes h.fmt4 h.vcols
def rowLen2 (h : Shape) : Nat :=
  if h.fmt4 = 2 then 2 * h.vcols else if narrow h.fmt4 then ceilDiv h.vcols h.blk else 0

/-- Offsets from the operand address of row `i` of a view in the two planes. -/
def rowOff1 (h : Shape) (i : Nat) : Nat := (h.row0 + i) * rowBytes h + runBytes h.fmt4 h.col0
def rowOff2 (addr : Nat) (h : Shape) (i : Nat) : Nat :=
  plane2 addr h + (if h.fmt4 = 2 then ((h.row0 + i) * h.cols + h.col0) * 2 else (h.row0 + i) * rowBlocks h + h.col0 / h.blk)

/-- The codes of row `i` of a view. -/
def rowCodes (addr : Nat) (h : Shape) (bs : List Byte) (i : Nat) : List Nat :=
  (List.range h.vcols).map (fun j => (elCode addr h bs (h.row0 + i) (h.col0 + j)).1)

/-- The bytes of row `i` of a view: its elements, then its part of the second plane. The mordants of a view that begins inside a
mordant block, which the manual does not state for a row moved to whole blocks, are free values (notes/assumptions/32). -/
def rawRow (addr : Nat) (h : Shape) (bs : List Byte) (i : Nat) : List Byte :=
  let cs := rowCodes addr h bs i
  packRow h.fmt4 cs ++
  (if h.fmt4 = 2 then (cs.map (leBytes 2)).flatten
   else if narrow h.fmt4 then
     (List.range (rowLen2 h)).map (fun j =>
       let m := fieldAt bs (plane2 addr h + (h.row0 + i) * rowBlocks h + h.col0 / h.blk + j) 1
       if h.col0 % h.blk = 0 then BitVec.ofNat 8 m else BitVec.ofNat 8 (Config.freeMordant [addr, h.fmt, h.row0 + i, h.col0, j, m]))
   else [])

/-- Row `i` of a view written with the bytes of such a row. -/
def rawWrite (o : Opnd) (i : Nat) (bs : List Byte) : List SWrite :=
  let h := o.sh
  SWrite.mk (o.addr.plus (rowOff1 h i)) (bs.take (rowLen1 h)) ::
    (if rowLen2 h = 0 then [] else [SWrite.mk (o.addr.plus (rowOff2 o.addr.off h i)) ((bs.drop (rowLen1 h)).take (rowLen2 h))])

/-- All rows of a view. -/
def rawRows (addr : Nat) (h : Shape) (bs : List Byte) : List (List Byte) := (List.range h.vrows).map (rawRow addr h bs)

/-- The swatch of rows of a view written unchanged, from the bytes that stand there then (R72): their elements, and of a narrow view the
mordants of their blocks. -/
def rawSwatch (addr : Nat) (h : Shape) (bs : List Byte) (rows : List Nat) : Swatch :=
  let vs := viewVals addr h bs
  let els := (rows.map (fun i => vs.getD i [])).flatten
  let w := els.foldl (fun w x => w.add (El.of x) { code := 0, fl := 0, sat := false, flush := false } x) (Swatch.empty h.fmt)
  if narrow h.fmt4 then
    rows.foldl (fun w i =>
      (List.range (blockRange h).2).foldl (fun w k =>
        let m := fieldAt bs (plane2 addr h + (h.row0 + i) * rowBlocks h + (blockRange h).1 + k) 1
        let j0 := max h.col0 (((blockRange h).1 + k) * h.blk)
        let j1 := min (h.col0 + h.vcols) (((blockRange h).1 + k + 1) * h.blk)
        let nz := (((vs.getD i []).drop (j0 - h.col0)).take (j1 - j0)).any (fun x => x.isFin && !x.isZero)
        { w with mordTop := w.mordTop || m == 0xFF, mordFloor := w.mordFloor || (m == 0 && nz) }) w) w
  else w

end Sys2Proof.Machine
end

