-- ==== Sys2Proof/Machine/Heritage.lean ====
section
/-! DEFINITION. Heritage mode: the vector functions of R65 bit for bit, and sequential FP32 accumulation (R62). -/

set_option cleanup.letToHave false

namespace Sys2Proof.Machine

/-- One round_FP32 of a sum, difference, product or quotient of FP32 codes, adding its flags. -/
def hAdd (a b : Rd) : Rd := let x := roundRes 0 (numAdd .nearest (v32 a.code) (v32 b.code)); ⟨x.code, x.fl ||| a.fl ||| b.fl⟩
def hSub (a b : Rd) : Rd := let x := roundRes 0 (numSub .nearest (v32 a.code) (v32 b.code)); ⟨x.code, x.fl ||| a.fl ||| b.fl⟩
def hMul (a b : Rd) : Rd := let x := roundRes 0 (numMul (v32 a.code) (v32 b.code)); ⟨x.code, x.fl ||| a.fl ||| b.fl⟩
def hDiv (a b : Rd) : Rd := let x := roundRes 0 (numDiv (v32 a.code) (v32 b.code)); ⟨x.code, x.fl ||| a.fl ||| b.fl⟩

/-- A constant, exact. -/
def hc (code : Nat) : Rd := ⟨code, 0⟩

-- the constants of R65, each its exact value rounded once to FP32
def hL2E : Rd := hc 0x3FB8AA3B
def hLN2 : Rd := hc 0x3F317218
def hR2  : Nat := 0x3FB504F3
def hOne : Rd := hc 0x3F800000
def hEC : List Rd := [0x3F800000, 0x3F317218, 0x3E75FDF0, 0x3D635847, 0x3C1D955B, 0x3AAEC3FF, 0x39218489, 0x377FE5FE].map hc
def hLC : List Rd := [0x4038AA3B, 0x3F76384F, 0x3F13BB63, 0x3ED30BB1, 0x3EA4258A, 0x3E864D42, 0x3E6347AB].map hc
def hEA : List Rd := [0x3E827906, 0xBE91A98E, 0x3FB5F0E3, 0xBFBA00E3, 0x3F87DC22].map hc
def hEP : Rd := hc 0x3EA7BA05

/-- Horner's rule in the order of R65: p := round(round(p · f) + c) for each coefficient. -/
def hHorner (f : Rd) : Rd → List Rd → Rd
  | p, [] => p
  | p, c :: cs => hHorner f (hAdd (hMul p f) c) cs

/-- `p` with the sign of `s`. -/
def hSigned (s p : Nat) : Nat := p % 2 ^ 31 + (s / 2 ^ 31) * 2 ^ 31

/-- A subnormal FP32 code as zero of the same sign (R65); true if it was a nonzero subnormal. -/
def hFlush (c : Nat) : Nat × Bool :=
  if c % 2 ^ 31 < 2 ^ 23 then (c / 2 ^ 31 * 2 ^ 31, c % 2 ^ 31 != 0) else (c, false)

/-- x rounded to an integer, ties to even, as a signed integer (R65 h_exp2). -/
def hRoundInt (x : Num) : Int :=
  match x with
  | .fin s n d => let m := roundInt .nearest s (n / d) (n % d) d; if s then -(m : Int) else m
  | _ => 0

def hExp2 (x : Rd) : Rd :=
  let v := v32 x.code
  if v.isNan then ⟨(writeWide 0 2 .nearest v.quiet).code, x.fl⟩
  else if numLe (numOf 128) v then ⟨0x7F800000, x.fl⟩
  else if !(numLe (numOf 126).neg v) then ⟨0, x.fl⟩
  else
    let n := hRoundInt v
    let f : Rd := ⟨r32 (ofQ false (subQ v.toQ (n, 1))), x.fl⟩
    let p := hHorner f ((hEC.getD 7 hOne)) ((hEC.take 7).reverse)
    match v32 p.code with
    | .fin s a b => let q := mulPow (a, b) n; ⟨(writeWide 0 2 .nearest (.fin s q.1 q.2)).code, p.fl⟩
    | _ => p

def hExp (x : Rd) : Rd :=
  if (v32 x.code).isNan then ⟨(writeWide 0 2 .nearest (v32 x.code).quiet).code, x.fl⟩ else hExp2 (hMul x hL2E)

/-- h_log2; what it returns at once comes of no named step and raises no flag (R65). -/
def hLog2 (x : Rd) : Rd × Option Nat :=
  let v := v32 x.code
  if v.isNan then (⟨(writeWide 0 2 .nearest v.quiet).code, x.fl⟩, none)
  else if v.isZero then (⟨0xFF800000, x.fl⟩, none)
  else if v.isNeg then (⟨0x7FC00000, x.fl⟩, some 3)
  else match v with
    | .fin _ n d =>
      let e := log2Q n d
      let m := mulPow (n, d) (-e)
      let r2 := (v32 hR2).toQ
      let big := ltQ r2 ((m.1 : Int), m.2)
      let m' : Rd := ⟨r32 (.fin false m.1 (if big then 2 * m.2 else m.2)), x.fl⟩
      let e' := if big then e + 1 else e
      let t := hDiv (hSub m' hOne) (hAdd m' hOne)
      let s := hMul t t
      let q := hHorner s (hLC.getD 6 hOne) ((hLC.take 6).reverse)
      (hAdd ⟨r32 (ofQ false (e', 1)), 0⟩ (hMul t q), none)
    | _ => (⟨0x7F800000, x.fl⟩, none)

def hLog (x : Rd) : Rd × Option Nat :=
  let y := hLog2 x
  match v32 y.1.code with
  | .fin _ _ _ => (hMul y.1 hLN2, y.2)
  | _ => y

def hRecip (x : Rd) : Rd := hDiv hOne x

def hRsqrt (x : Rd) : Rd × Option Nat :=
  let r := numSqrt (v32 x.code)
  let s := roundRes 0 r
  (hDiv hOne ⟨s.code, s.fl ||| x.fl⟩, r.cause)

/-- ± an FP32 code as an operand. -/
def hNeg (x : Rd) : Rd := ⟨if x.code < 2 ^ 31 then x.code + 2 ^ 31 else x.code - 2 ^ 31, x.fl⟩
def hAbs (x : Rd) : Rd := ⟨x.code % 2 ^ 31, x.fl⟩

def hTanh (x : Rd) : Rd :=
  let v := v32 x.code
  if v.isNan then ⟨(writeWide 0 2 .nearest v.quiet).code, x.fl⟩
  else if numLe (numOf 9) v.abs then ⟨hSigned x.code hOne.code, x.fl⟩
  else
    -- −2|x| is exact; one rounding of its product with L2E
    let a : Num := match v with | .fin _ n d => .fin (n != 0) (2 * n) d | y => y
    let g := hExp2 (let y := roundRes 0 (numMul a (v32 hL2E.code)); ⟨y.code, y.fl ||| x.fl⟩)
    let r := hDiv (hSub hOne g) (hAdd hOne g)
    ⟨hSigned x.code r.code, r.fl⟩

def hSigmoid (x : Rd) : Rd :=
  let v := v32 x.code
  if v.isNan then ⟨(writeWide 0 2 .nearest v.quiet).code, x.fl⟩
  else
    let g := hExp2 (hMul (hNeg x) hL2E)
    if g.code = 0x7F800000 then ⟨0, g.fl⟩ else hDiv hOne (hAdd hOne g)

def hErf (x : Rd) : Rd :=
  let v := v32 x.code
  if v.isNan then ⟨(writeWide 0 2 .nearest v.quiet).code, x.fl⟩
  else
    let a := hAbs x
    if numLe (numOf 4) v.abs then ⟨hSigned x.code hOne.code, x.fl⟩
    else
      let t := hDiv hOne (hAdd hOne (hMul hEP a))
      let p := hHorner t (hEA.getD 4 hOne) ((hEA.take 4).reverse)
      let p := hMul p t
      let g := hExp (hNeg (hMul a a))
      let r := hSub hOne (hMul p g)
      ⟨hSigned x.code r.code, r.fl⟩

/-- A heritage function by its class 0x2 code (R65, R109): subnormal inputs are taken as zero, subnormal results
flushed. The answer is the FP32 code, flags, trap cause, and whether a subnormal was flushed. -/
def heritageFunc (op : Nat) (x : Nat) : Rd × Option Nat × Bool :=
  let a : Rd := ⟨(hFlush x).1, 0⟩
  let y : Rd × Option Nat :=
    if op = 0x0A then hRsqrt a
    else if op = 0x0B then (hRecip a, none)
    else if op = 0x0C then (hExp a, none)
    else if op = 0x0D then (hExp2 a, none)
    else if op = 0x0E then hLog a
    else if op = 0x0F then hLog2 a
    else if op = 0x10 then (hTanh a, none)
    else if op = 0x11 then (hSigmoid a, none)
    else (hErf a, none)
  let f := hFlush y.1.code
  (⟨f.1, y.1.fl⟩, y.2, f.2)

/-- One addition of the sequential FP32 accumulation of R62: rounded, a subnormal accumulator flushed to zero. -/
def hAccum (acc : Res × Bool) (term : Num) : Res × Bool :=
  let x := numAdd .nearest acc.1.val term
  let w := writeWide 0 2 .nearest x.val
  let f := hFlush w.code
  (⟨v32 f.1, acc.1.fl ||| x.fl ||| w.fl, acc.1.cause.or x.cause⟩, f.2)

/-- The sequential sum of terms from index 0 upward, from a start value (R62): result, and whether the last
accumulator was flushed. A sum with no start value of its own starts at +0, so that a sum of terms −0 is +0: DESIGN CHOICE
(notes/assumptions/110). -/
def hSum (start : Num) (terms : List Num) : Res × Bool := terms.foldl hAccum (Res.ok start, false)

end Sys2Proof.Machine
end

