-- ==== Sys2Proof/Machine/Curvature.lean ====
section
/-! DEFINITION. Factor sets and their refresh: class 0x3 (R112 to R120, R142 to R145). -/

set_option cleanup.letToHave false

namespace Sys2Proof.Machine

/-- The remainder rule (R114): `parts` sizes of a total. -/
def splitRem (total parts : Nat) : List Nat :=
  (List.range parts).map (fun b => total / parts + (if b < total % parts then 1 else 0))

/-- Dimensions of the blocks of a factor (R114). -/
def blockDims (d : Nat) : List Nat := splitRem d (ceilDiv d 2048)

/-- Bytes that a block takes in its region (R115). -/
def blockBytes (d : Nat) : Nat := ceilDiv (4 * d * d) 256 * 256

/-- One block of a set: factor G or not, index, dimension, place among the blocks, factor storage, root. -/
structure FBlock where
  isG  : Bool
  idx  : Nat
  dim  : Nat
  pos  : Nat
  stor : Nat
  root : Nat
  deriving DecidableEq, Repr

/-- The blocks of one factor from a place on. -/
def factorBlocks (isG : Bool) (pos stor root : Nat) : Nat → List Nat → List FBlock
  | _, [] => []
  | b, d :: ds => ⟨isG, b, d, pos, stor, root⟩ :: factorBlocks isG (pos + 1) (stor + blockBytes d) (root + blockBytes d) (b + 1) ds

/-- All blocks of a set in block order, A before G (R113, R143); local addresses. -/
def fsetBlocks (f : Fset) : List FBlock :=
  let a := blockDims f.dimA
  factorBlocks false 0 (gaddrOf f.aBase).off (gaddrOf f.rootA).off 0 a ++
  factorBlocks true a.length (gaddrOf f.gBase).off (gaddrOf f.rootG).off 0 (blockDims f.dimG)

def fsetHdr (f : Fset) (b : FBlock) : Nat := (gaddrOf f.hdr).off + 64 * b.pos
def fsetRes (f : Fset) (b : FBlock) : Nat := (gaddrOf f.result).off + 32 * b.pos

/-- The regions that a control block names: address (64 bits) and bytes. -/
def fsetRegions (f : Fset) : List (Nat × Nat) :=
  let szA := sumL ((blockDims f.dimA).map blockBytes)
  let szG := sumL ((blockDims f.dimG).map blockBytes)
  let n := (blockDims f.dimA).length + (blockDims f.dimG).length
  (if f.dimA = 0 then [] else [(f.aBase, szA), (f.rootA, szA)]) ++ (if f.dimG = 0 then [] else [(f.gBase, szG), (f.rootG, szG)]) ++
  [(f.hdr, 64 * n), (f.result, 32 * n)]
where
  sumL (xs : List Nat) : Nat := xs.foldl (· + ·) 0

/-- Do two of a list of ranges overlap? -/
def anyOverlap : List (Nat × Nat) → Bool
  | [] => false
  | x :: r => r.any (fun y => overlap x.1 x.2 y.1 y.2) || anyOverlap r

/-- A finite, non-negative FP32 code. -/
def fp32NonNeg (x : Nat) : Bool := (v32 x).isFin && ((v32 x).isZero || !(v32 x).isNeg)
def fp32Pos (x : Nat) : Bool := (v32 x).isFin && !(v32 x).isZero && !(v32 x).isNeg

/-- The software fields of a control block at address `a` (R113), for a job. -/
def fsetRaw (job : Nat) (bs : List Byte) : Fset :=
  { job := job, ctx := 0, layer := fieldAt bs 2 2, lblock := fieldAt bs 4 2, kind := fieldAt bs 6 1, p := fieldAt bs 7 1,
    dimA := fieldAt bs 8 2, dimG := fieldAt bs 10 2, eps := fieldAt bs 12 4, aBase := fieldAt bs 16 8, gBase := fieldAt bs 24 8,
    rootA := fieldAt bs 32 8, rootG := fieldAt bs 40 8, hdr := fieldAt bs 48 8, result := fieldAt bs 56 8, every := fieldAt bs 64 2,
    phase := fieldAt bs 66 2, budget := fieldAt bs 68 4, tol := fieldAt bs 72 4, maxIter := fieldAt bs 76 2, prec := fieldAt bs 78 1,
    warm := bit (fieldAt bs 79 1) 0, maxAge := fieldAt bs 80 4, step := 0, skipped := 0, incompl := 0, ill := 0 }

/-- FSET_INIT's checks (R112, R113, R118). -/
def fsetOk (s : State) (a : Nat) (bs : List Byte) : Bool :=
  let f := fsetRaw 0 bs
  let rs := fsetRegions f
  let die := dieOfAddr a
  (f.kind == 0 && (f.p == 2 || f.p == 4) || f.kind == 1 && f.p == 0) && decide (f.dimA ≤ 8192) && decide (f.dimG ≤ 8192) &&
  !(f.dimA == 0 && f.dimG == 0) && fp32NonNeg f.eps &&
  (if f.every = 0 then f.phase == 0 else decide (f.phase < f.every)) && decide (1 ≤ f.budget) && decide (f.budget ≤ 4000000) &&
  fp32Pos f.tol && decide (1 ≤ f.maxIter) && decide (f.maxIter ≤ 100) && decide (f.prec ≤ 1) && decide (fieldAt bs 79 1 < 2) &&
  zeroAt bs 100 28 && rs.all (fun r => !(structRangeBad s [0, 1] (some die) 256 r.1 r.2)) &&
  !(anyOverlap ((a, 128) :: rs.map (fun r => ((localise s (gaddrOf r.1)).off, r.2)))) &&
  !(f.prec == 1 && (blockDims f.dimA ++ blockDims f.dimG).any (fun d => decide (1448 < d)))

/-- Write the Module fields of a set's control block (R113). -/
def putFset (s : State) (a : Nat) (f : Fset) : State :=
  let s := { s with fsets := tput s.fsets a f }
  let k := jobKey s 0 f.job
  wrLocal (wrLocal s k a (leBytes 2 f.job)) k (a + 84) (leBytes 4 f.step ++ leBytes 4 f.skipped ++ leBytes 4 f.incompl ++ leBytes 4 f.ill)

/-- Local address of the control block that a class 0x3 command names. -/
def fsetAddr (s : State) (p : Packet) : Nat := (localise s (descAddr (p.slot 0))).off

/-- A region of local memory made zero under a key. -/
def zeroLocal (s : State) (key a n : Nat) : State :=
  { s with mem := memZero s.mem a n, keys := setKeys s.keys a key n, poison := unpoison s.poison a n }

/-- F of R471: layer block, factor, block. -/
def fDetail (f : Fset) (b : FBlock) : Nat := f.lblock + b2n b.isG * 2 ^ 16 + b.idx * 2 ^ 20

/-- SRC_STEP of a block's root header, and the age of its root (R142). -/
def rootAge (s : State) (f : Fset) (b : FBlock) : Nat :=
  (f.step + 2 ^ 32 - leNat (rdKey s (jobKey s 0 f.job) (fsetHdr f b + 4) 4)) % 2 ^ 32

/-- The number by which peers know a command of the module's own (R337 gives none: notes/assumptions/35). -/
def ownSeq (s : State) : Nat := 2 ^ 31 + s.nextId % 2 ^ 31

/-- A command that the module issues itself (R273): nothing waited on or signalled. -/
def ownCmd (s : State) (origin : Origin) (sess opcode job layer operator seq : Nat) (slots : List Nat) : Cmd :=
  { id := s.nextId,
    pkt := { opcode := opcode, job := job, layer := layer, operator := operator, seq := seq, epoch := 0, waitLock := 0xFFFF,
             waitThresh := 0, sigLock := 0xFFFF, sigInc := 0, slots := slots },
    origin := origin, sess := sess, shapes := [], phase := .waiting, claimed := false, place := none, runs := 0, killed := false,
    stalled := false, stallFlag := false, waitFrom := none, waitWhy := 0, parked := false, lastEng := 0xE000, busy := 0, started := 0, snapMem := [], snapHost := [], remote := [], asked := [], writes := [],
    acked := [], outs := [], ieee := 0, flags := 0, status := 0, detail := 0, commitAt := 0, debt := false, debtPrio := 7, aux := [], pins := [],
    reserved := [], flRead := none, flPush := none, signalled := false, noReply := false,
    probs := [], scratchUe := false, toSend := [],
    shard := none, fset := none, fall := false }

/-- Accept a command of the module's own. -/
def issueOwn (s : State) (c : Cmd) : State := { s with cmds := s.cmds ++ [{ c with id := s.nextId }], nextId := s.nextId + 1 }

/-- Does an FSET_INIT of the set wait for root commands (R118)? It is past its checks and has not committed; one that still waits on
its lock does not count. -/
def initWaits (s : State) (a : Nat) : Bool :=
  s.cmds.any (fun c => c.pkt.clsOp == 0x301 && fsetAddr s c.pkt == a && (inUse c || c.parked))

/-- The refreshes of every block become due (R119, R120, R143, R145). -/
def issueRefreshes (s : State) (a : Nat) (sess : Nat) : State :=
  match tfind s.fsets a with
  | none => s
  | some f0 =>
    if initWaits s a then s
    else
      (fsetBlocks f0).foldl (fun s b =>
        match tfind s.fsets a with
        | none => s
        | some f =>
          if s.cmds.any (fun c => decide (c.origin = .refresh a b.isG b.idx)) then putFset s a { f with skipped := (f.skipped + 1) % 2 ^ 32 }
          else
            let opc := if f.kind = 0 then 0x4010 + (if f.warm then 2 else 0) else 0x4020
            let c := ownCmd s (.refresh a b.isG b.idx) sess opc f.job f.layer 0xFFFF 0 [s.time + f.budget * 1000, 0, 0, 0, 0]
            { issueOwn s c with queueRe := s.queueRe ++ [s.nextId] }) s

-- start and effects -------------------------------------------------------------------------------------------------

/-- Does a root command name a root of the set and still live (R118)? A command that has started is judged by its tables as it read
them, one that is placed by its tables as they stand (one that waits on its lock or its epoch has read none: DESIGN CHOICE,
notes/assumptions/118); a refresh belongs to its set from its issue. -/
def rootsBusy (s : State) (a : Nat) (f : Fset) (outs : Cmd → List (Nat × Nat)) : Bool :=
  let mine := (fsetBlocks f).map (fun b => (b.root, 4 * b.dim * b.dim))
  s.cmds.any (fun c =>
    (match c.origin with | .refresh k _ _ => k == a | _ => false) ||
    (c.phase != .waiting && c.pkt.cls == 4 &&
      (outs (if c.phase = .placed then readNow s c else c)).any (fun o => mine.any (fun m => overlap o.1 o.2 m.1 m.2))))

/-- The start of a class 0x3 command (R117, R118). -/
def fsetStart (outs : Cmd → List (Nat × Nat)) (s : State) (c : Cmd) : StartRes :=
  let a := fsetAddr s c.pkt
  if c.pkt.op = 1 then
    let bs := rdKey s (jobKey s c.sess c.pkt.job) a 128
    if !(fsetOk s a bs) then badIn 0
    else
      match tfind s.fsets a with
      | some f => if f.job ≠ c.pkt.job then .stop stDenied 0 [] else
          if rootsBusy s a (fsetRaw c.pkt.job bs) outs || rootsBusy s a f outs then .wait else .go s c
      | none => if rootsBusy s a (fsetRaw c.pkt.job bs) outs then .wait else .go s c
  else
    match tfind s.fsets a with
    | none => badIn 0
    | some f => if f.job ≠ c.pkt.job then .stop stDenied 0 [] else .go s c

/-- FSET_INIT at commit (R118): the bytes between the blocks of a region are no block's (R115) and stay. -/
def fsetInitEff (s : State) (c : Cmd) : State :=
  let a := fsetAddr s c.pkt
  let f := fsetRaw c.pkt.job (memRead c.snapMem a 128)
  let k := jobKey s c.sess c.pkt.job
  let s := (fsetBlocks f).foldl (fun s b =>
    zeroLocal (zeroLocal (zeroLocal (zeroLocal s k b.stor (4 * b.dim * b.dim)) k b.root (4 * b.dim * b.dim)) k (fsetHdr f b) 64) k (fsetRes f b) 32) s
  putFset s a f

/-- FSET_ADVANCE at commit (R119). -/
def fsetAdvanceEff (s : State) (c : Cmd) : State :=
  let a := fsetAddr s c.pkt
  match tfind s.fsets a with
  | none => s
  | some f0 =>
    let f := { f0 with step := (f0.step + 1) % 2 ^ 32 }
    let s := putFset s a f
    let s := if f.every ≠ 0 ∧ f.step % f.every = f.phase then issueRefreshes s a c.sess else s
    if f.maxAge = 0 then s
    else (fsetBlocks f).foldl (fun s b =>
      if rootAge s f b = f.maxAge + 1 then raise s (dieOfAddr a) 0x07 f.job f.layer c.pkt.seq (fDetail f b) (rootAge s f b) 0 else s) s

/-- FSET_REFRESH at commit (R120). -/
def fsetRefreshEff (s : State) (c : Cmd) : State := issueRefreshes s (fsetAddr s c.pkt) c.sess

/-- The slots of class 0x3 (R117). -/
def fsetUses (p : Packet) : Option (List Use) :=
  if p.op = 1 ∨ p.op = 2 ∨ p.op = 3 then some [.raw 128 false, .zero, .zero, .zero, .zero] else none

/-- The rules of class 0x3 (R63, R112, R117). -/
def fsetRules (p : Packet) : List Flt :=
  fltIf p.heritage fltOpcode ++
  fltIf (!((descAddr (p.slot 0)).tier ∈ [0, 1]) || (descAddr (p.slot 0)).off % 128 != 0) (fltSlot 0)

/-- FSET_ADVANCE: STEP := STEP + 1, refresh and age evaluated (R119). -/
def execFsetAdvance (c : Nat) (s : State) : Host.Outcome State Fault Refusal :=
  runOp 0x302 (fun _ _ => .done Stg.none) fsetAdvanceEff c s
/-- FSET_REFRESH: a refresh of every block at once (R120). -/
def execFsetRefresh (c : Nat) (s : State) : Host.Outcome State Fault Refusal :=
  runOp 0x303 (fun _ _ => .done Stg.none) fsetRefreshEff c s

end Sys2Proof.Machine
end

