-- ==== Sys2Proof/Machine/Residency.lean ====
section
/-! DEFINITION. Residency objects, pools, prefetch schedules and the pounds (R212 to R241). -/

set_option cleanup.letToHave false

namespace Sys2Proof.Machine

-- memory errors ------------------------------------------------------------------------------------------------------

/-- A compressed image that fails its check (R233). -/
def zipEnd (s : State) (c : Cmd) (g : GAddr) : State :=
  endCmd (memError s (min (cmdPlace c) 9) 4 c.pkt.job c.pkt.layer c.pkt.seq (cmdSes c) g.code) c stEcc 0

-- pounds -------------------------------------------------------------------------------------------------------------

/-- A drain that reads a poisoned unit ends, and its granule leaves the pound (R241, R244). -/
def drainOne (s : State) (q : PoundGran) : State :=
  match poisonedIn s q.addr 256 with
  | some u => memError s q.die 3 0xFFFF 0xFFFF 0 none (gLocal u).code
  | none => s

/-- Remote writes that wait for room in a pound are staged and acknowledged, in the order of their arrival (R210, R237, R239). -/
def admitStaged (s : State) : State :=
  (List.range s.remoteSt.length).foldl (fun s i =>
    match s.remoteSt[i]? with
    | none => s
    | some r =>
      if r.room ∨ poundFree s (dieOfAddr r.addr) true < 256 * (granulesOf r.addr r.data.length).length then s
      else send { s with remoteSt := s.remoteSt.set i { r with room := true } } ⟨r.peer, mtStagedAck, 7, r.job, r.seq, r.runs, r.ctx, 0, 0, [], []⟩) s

/-- POUND_DRAIN: the move engines of a die drain its published granules to their home addresses, in commit order, and
release the space (R238). Reads are served alike before and after. -/
def execPoundDrain (die : Nat) (s : State) : Host.Outcome State Fault Refusal :=
  .next (
    let qs := s.poundQ.filter (fun q => q.die == die)
    let s := { s with poundQ := s.poundQ.filter (fun q => !(q.die == die)) }
    let s := qs.foldl drainOne s
    admitStaged (if qs.isEmpty then s else count s die slotsDie 0x58 (4 * qs.length) none))

-- the structures (R213, R214, R225) ----------------------------------------------------------------------------------

/-- Local address of the control block that a class 0x7 structure command names, and its 64 bits. -/
def resAddr (s : State) (p : Packet) : Nat := (localise s (descAddr (p.slot 0))).off
def pfAddr (s : State) (p : Packet) : Nat := (localise s (descAddr (p.slot 0))).code

/-- A pool control block's fields are valid for RES_POOL_INIT (R213). -/
def poolOk (s : State) (a : Nat) (bs : List Byte) : Bool :=
  let g := localise s (gaddrOf (fieldAt bs 0 8)); let n := fieldAt bs 8 8
  !(structRangeBad s [0, 1] (some (dieOfAddr a)) 65536 (fieldAt bs 0 8) n) && n % 65536 == 0 && n != 0 &&
  decide (dieOfAddr (g.off + n - 1) = dieOfAddr a) && zeroAt bs 18 6 && zeroAt bs 36 28 &&
  !(s.pools.any (fun e => e.1 != a && overlap g.off n e.2.base e.2.size)) &&
  !(s.objs.any (fun e => e.2.home.tier == 0 && overlap g.off n e.2.home.off e.2.size)) &&
  !(inPound s g.off n) && !(overlap g.off n a 64)

/-- The object that a descriptor gives (R214). -/
def objOf (s : State) (job : Nat) (bs : List Byte) : ResObj :=
  { job := job, home := localise s (gaddrOf (fieldAt bs 0 8)), size := fieldAt bs 8 8, poolT1 := (gaddrOf (fieldAt bs 16 8)).off,
    poolT2 := (gaddrOf (fieldAt bs 24 8)).off, lock := fieldAt bs 32 2, writable := bit (fieldAt bs 34 1) 0,
    zip := bit (fieldAt bs 34 1) 1, kind := fld (fieldAt bs 34 1) 2 2, t1 := noCopy, t2 := noCopy, stamp := 0 }

/-- A pool field names no pool, or a pool of the job whose region has the tier (R215). -/
def poolFieldOk (s : State) (job x tier : Nat) : Bool :=
  x == 0 || (!(structRangeBad s [0] none 64 x 64) && (match tfind s.pools (localise s (gaddrOf x)).off with
    | some q => q.job == job && (gLocal q.base).tier == tier
    | none => false))

/-- A descriptor is valid for RES_CREATE (R214, R215). -/
def objOk (s : State) (c : Cmd) (a : Nat) (bs : List Byte) : Bool :=
  let x := fieldAt bs 0 8
  let o := objOf s c.pkt.job bs
  !(structRangeBad s [0, 4, 5] none 256 x (homeSize o)) && (o.home.tier != 0 || onOneDie (dieOfAddr a) o.home.off o.size) &&
  decide (256 ≤ o.size) && decide (o.size ≤ 2 ^ 32) && o.size % 256 == 0 && decide (o.lock < 0x4000) &&
  fieldAt bs 34 1 / 16 == 0 && zeroAt bs 35 1 && zeroAt bs 44 4 && zeroAt bs 56 8 &&
  (!o.zip || (o.kind != 0 && o.home.tier != 0)) && (o.home.tier != 0 || fieldAt bs 24 8 == 0) &&
  poolFieldOk s c.pkt.job (fieldAt bs 16 8) 1 && poolFieldOk s c.pkt.job (fieldAt bs 24 8) 0 &&
  !(s.objs.any (fun e => e.2.home.tier == o.home.tier && e.2.home.peer == o.home.peer &&
    overlap o.home.off (homeSize o) e.2.home.off (homeSize e.2))) &&
  !(o.writable && (accessDenied s c o.home (homeSize o) true false || (o.home.tier == 4 && (linkFault s c o.home.peer).isSome)))

/-- A prefetch entry from its 32 bytes (R226). -/
def pfEntryOf (s : State) (bs : List Byte) : PfEntry :=
  ⟨(localise s (gaddrOf (fieldAt bs 0 8))).off, fieldAt bs 8 1, fieldAt bs 10 2, fieldAt bs 12 2, fieldAt bs 14 2, fieldAt bs 16 4,
    fieldAt bs 20 4, fieldAt bs 24 4⟩

/-- An entry's fields are valid for PF_START (R226). -/
def pfEntryOk (s : State) (job die : Nat) (bs : List Byte) : Bool :=
  let e := pfEntryOf s bs
  (e.target == 1 || e.target == 2) && zeroAt bs 9 1 && zeroAt bs 28 4 && decide (e.gate < 0x4000) && decide (e.arrive < 0x4000) &&
  decide (1 ≤ e.inc) && decide (e.inc < 65536) && !(structRangeBad s [0] (some die) 64 (fieldAt bs 0 8) 64) &&
  (match findObj s e.object with | some o => o.job == job | none => false)

/-- The entries after a header of `n` entries. -/
def pfChunks : Nat → List Byte → List (List Byte)
  | 0, _ => []
  | n + 1, bs => bs.take 32 :: pfChunks n (bs.drop 32)

/-- The schedule that a header and its entries give (R225), or none where a field breaks its rules. -/
def pfOf (s : State) (c : Cmd) (g : GAddr) : Option PfSched :=
  let key := jobKey s c.sess c.pkt.job
  let hd := rdKey s key g.off 64
  let n := fieldAt hd 2 2
  let es := pfChunks n (rdKey s key (g.off + 64) (32 * n))
  if decide (1 ≤ n) && decide (n ≤ 4096) && decide (1 ≤ fieldAt hd 4 2) && decide (fieldAt hd 4 2 ≤ 64) && zeroAt hd 7 1 && zeroAt hd 24 40 &&
      dieOfAddr (g.off + 63 + 32 * n) == dieOfAddr g.off && es.all (pfEntryOk s c.pkt.job (dieOfAddr g.off)) then
    some { job := c.pkt.job, ctx := ctxOf c, lead := fieldAt hd 4 2, state := 1, cursor := 0, step := 0,
           stalled := 0, entries := es.map (pfEntryOf s), flying := [] }
  else none

-- start (R212 to R226) -----------------------------------------------------------------------------------------------

/-- Why a RES_POOL_INIT, RES_CREATE or PF_START is refused, as it starts and again as it commits (R213, R215, R225): status and DETAIL. -/
def poolInitBad (s : State) (c : Cmd) (bs : List Byte) : Option (Nat × Nat) :=
  let a := resAddr s c.pkt; let j := c.pkt.job
  if !(poolOk s a bs) then some (stBad, badAt 0xFF 0)
  else match tfind s.pools a with
    | some q => if q.job = j then none else some (stDenied, 0)
    | none => if 4 ≤ (s.pools.filter (fun e => e.2.job == j && dieOfAddr e.1 == dieOfAddr a)).length then some (stDenied, 0) else none

def resCreateBad (s : State) (c : Cmd) (bs : List Byte) : Option (Nat × Nat) :=
  let a := resAddr s c.pkt
  if (findObj s a).isSome || !(objOk s c a bs) then some (stBad, badAt 0xFF 0)
  else if 16384 ≤ (s.objs.filter (fun e => dieOfAddr e.1 == dieOfAddr a)).length then some (stDenied, 0)
  else none

def pfStartBad (s : State) (c : Cmd) (p : Option PfSched) : Option (Nat × Nat) :=
  let k := pfAddr s c.pkt
  match p with
  | none => some (stBad, badAt 0xFF 0)
  | some _ =>
    match tfind s.pfs k with
    | some p => if p.job = c.pkt.job then none else some (stDenied, 0)
    | none => if 8 ≤ (s.pfs.filter (fun e => dieOfAddr (gaddrOf e.1).off == dieOfAddr (gaddrOf k).off)).length then some (stDenied, 0) else none

/-- A start that a test refuses or lets go. -/
def startUnless (bad : Option (Nat × Nat)) (s : State) (c : Cmd) : StartRes :=
  match bad with | some (st, d) => .stop st d [] | none => .go s c

/-- A run that a test refuses or that stages nothing. -/
def runUnless (bad : Option (Nat × Nat)) : Out := match bad with | some (st, d) => .stop st d [] | none => .done Stg.none

/-- The start of a residency or prefetch command. -/
def resStart (s : State) (c : Cmd) : StartRes :=
  let a := resAddr s c.pkt
  let j := c.pkt.job
  let bs := rdKey s (jobKey s c.sess j) a 64
  if c.pkt.op = 0x20 then startUnless (poolInitBad s c bs) s c
  else if c.pkt.op = 0x21 then startUnless (resCreateBad s c bs) s c
  else if c.pkt.op ≤ 0x26 then
    match findObj s a with
    | none => badIn 0
    | some o =>
      let t := fieldAt bs 42 1
      if o.job ≠ j then .stop stDenied 0 []
      else if c.pkt.op ≠ 0x26 ∧ t ≠ 1 ∧ t ≠ 2 then badIn 0
      else if c.pkt.op = 0x22 then
        if o.poolOf t = 0 then badIn 0
        else if (o.copy t).state = 1 then .wait
        else if (o.copy t).held then .go (holdPromotion s a t) { c with aux := [a, t], pins := c.pins ++ [(a, t)] }
        else .go (startPromotion { s with serial := s.serial + 1 } a t s.serial) { c with aux := [a, t, s.serial] }
      else .go s { c with aux := [a, t] }
  else
    let k := pfAddr s c.pkt
    if c.pkt.op = 0x28 then startUnless (pfStartBad s c (pfOf s c (localise s (descAddr (c.pkt.slot 0))))) s c
    else match tfind s.pfs k with
      | none => badIn 0
      | some p => if p.job = j then .go s c else .stop stDenied 0 []

/-- The slots of the residency and prefetch operations (R212). -/
def resUses (p : Packet) : Option (List Use) :=
  if (0x20 ≤ p.op ∧ p.op ≤ 0x26) ∨ (0x28 ≤ p.op ∧ p.op ≤ 0x2A) then some [.raw 64 false, .zero, .zero, .zero, .zero] else none

/-- Their rules (R212 to R214, R225). -/
def resRules (p : Packet) : List Flt :=
  let g := descAddr (p.slot 0)
  fltIf (fld p.opcode 0 4 != 0) fltOpcode ++
  (if p.op < 0x28 then fltIf (g.tier != 0 || g.off % 64 != 0) (fltSlot 0)
   else fltIf (!(g.tier == 0 || g.tier == 1) || g.off % 256 != 0) (fltSlot 0))

-- promotions ---------------------------------------------------------------------------------------------------------

/-- What copying an object's bytes comes to (R205, R208, R218, R233): TIER 4 bytes still to come, a home that may not be read, a poisoned
unit, a bad frame, or the bytes. -/
inductive Fetched where
  | need (reads : List (Nat × Nat × Nat))
  | denied
  | poisoned (unit : Nat)
  | badFrame (at_ : GAddr)
  | bytes (bs : List Byte)

/-- Bytes that a command has received from a peer for exactly one read. -/
def gotFar (c : Cmd) (peer a n : Nat) : Option (List Byte) :=
  if received c (peer, a, n) then some (farExact c (peer, a, n)) else none

/-- The bytes of an object from the tier that serves it, decompressed on the way (R218), to a copy at tier `t`. -/
def fetchObj (s : State) (c : Cmd) (o : ResObj) (t : Nat) : Fetched :=
  let from_ := if t = 2 ∧ o.t1.held then some o.t1.at_ else if t = 1 ∧ o.t2.held then some o.t2.at_ else none
  match from_ with
  | some a =>
    match poisonedIn s a o.size with
    | some u => .poisoned u
    | none => .bytes (memRead s.mem a o.size)
  | none =>
    if accessDenied s c o.home (homeSize o) false true then .denied
    else if o.home.tier = 0 then
      match poisonedIn s o.home.off o.size with
      | some u => .poisoned u
      | none => .bytes (rdKey s (jobKey s c.sess c.pkt.job) o.home.off o.size)
    else
      let raw : Except (List (Nat × Nat × Nat)) (List Byte) :=
        if o.home.tier = 5 then .ok (memRead s.host o.home.off (homeSize o))
        else if o.zip then farImage c o.home.peer o.home.off o.size
        else match gotFar c o.home.peer o.home.off o.size with
          | some bs => .ok bs
          | none => .error [(o.home.peer, o.home.off, o.size)]
      match raw with
      | .error rs => .need rs
      | .ok img =>
        if !o.zip then .bytes img
        else match decodeImage o.kind o.size img with
          | .ok bs => .bytes bs
          | .error i => .badFrame (o.home.plus i)

/-- PROMO_LOCK is signalled by 1 (R218). -/
def promoSignal (s : State) (d : Nat) : State :=
  match findObj s d with
  | some o => signalLock s o.lock 1 o.job s.cfg.peerId none
  | none => s

/-- An entry arrives (R227 to R229): the hold begins to be consumed, STALLED counts a command that waits already, and
ARRIVE is signalled. -/
def arrive (s : State) (k e : Nat) : State :=
  match tfind s.pfs k with
  | none => s
  | some p =>
    match p.entries[e]? with
    | none => s
    | some x =>
      let waits := (getLock s x.arrive).queue.any (fun h => match findCmd s h with | some w => w.waitFrom.isSome | none => false)
      let s := putPf s k { p with flying := p.flying.eraseP (fun y => y.2 == e), stalled := p.stalled + b2n waits }
      let s := if waits then count s (dieOfAddr (gaddrOf k).off) slotsDie 0x5D 1 (some (p.job, x.layer)) else s
      let l := getLock s x.arrive
      let s := setLock s x.arrive { l with holds := l.holds ++ [(k, e, x.inc)] }
      signalLock s x.arrive x.inc p.job s.cfg.peerId none

/-- The evicting copies of an object's pool go on, and then a waiting promotion takes its place (R219, R221). -/
def seekPlace (s : State) (d t serial : Nat) : State :=
  match findObj s d with
  | none => s
  | some o => placePromotion (pushWbs s ((poolCopies s (o.poolOf t)).map (fun x => x.2.2.1))) d t serial

/-- One attempt of a promotion to complete (R218): it needs its place, then its bytes; `fin` ends it. A promotion that found another of the same
copy under way takes its place where that one came to nothing. -/
def tryPromotion (s : State) (c : Cmd) (fin : State → Cmd → State) : State :=
  let d := c.aux.getD 0 0; let t := c.aux.getD 1 0
  match findObj s d with
  | none => endCmd s c stBad badStruct
  | some o =>
    if (o.copy t).held then fin s c
    else if c.aux.length < 3 then
      if (o.copy t).state = 0 then startPromotion (putCmd { s with serial := s.serial + 1 } { c with aux := [d, t, s.serial] }) d t s.serial else s
    else
      let s := seekPlace s d t (c.aux.getD 2 0)
      match findObj s d with
      | none => s
      | some o =>
        if (o.copy t).state ≠ 1 ∨ (o.copy t).at_ = noPlace then s
        else match fetchObj s c o t with
          | .need rs => askReads s c rs
          | .denied => endCmd s c stDenied 0
          | .poisoned u => eccEnd s c u
          | .badFrame g => zipEnd s c g
          | .bytes bs => fin (endPromotion s d t bs) c

/-- The commit of RES_PROMOTE: STAMP and PROMO_LOCK (R218, R221). -/
def promoteFin (s : State) (c : Cmd) : State :=
  commitWith (fun s c => promoSignal (stampObj s (c.aux.getD 0 0)) (c.aux.getD 0 0)) s { c with phase := .staged }

/-- The commit of a promotion that a schedule issued: STAMP, PROMO_LOCK, then the arrival (R218, R221, R227). -/
def prefetchFin (s : State) (c : Cmd) : State :=
  match c.origin with
  | .promotion k e => commitWith (fun s c => arrive (promoSignal (stampObj s (c.aux.getD 0 0)) (c.aux.getD 0 0)) k e) s { c with phase := .staged }
  | _ => s

/-- The pound space of a promotion (R236, R237): its copy is staged in the pound of the pool's tier. -/
def promoNeed (s : State) (o : ResObj) (t : Nat) : List (Nat × Nat) :=
  match tfind s.pools (o.poolOf t) with
  | some q => poundNeed (dieOfAddr q.base) (gLocal q.base, o.size)
  | none => []

/-- A reservation exceeds the whole capacity of a pound; or what is free of it now. -/
def resvTooBig (s : State) (rs : List (Nat × Nat)) : Bool := rs.any (fun r => decide (poundSize s (r.1 % 2 == 1) < 256 * r.2))
def resvLacks (s : State) (rs : List (Nat × Nat)) : Bool := rs.any (fun r => decide (poundFree s (r.1 / 2) (r.1 % 2 == 1) < 256 * r.2))

/-- The promotion of a schedule begins, or begins again after a kill (R227, R228, R230): its copy is pinned by the
promotion and by the hold. Without room in the pound it waits (R237). -/
def beginPrefetch (s : State) (c : Cmd) (k e : Nat) : State :=
  match tfind s.pfs k with
  | none => dropCmd s c.id
  | some p =>
    match p.entries[e]? with
    | none => dropCmd s c.id
    | some x =>
      match findObj s x.object with
      | none => endCmd s c stBad badStruct
      | some o =>
        let run (aux : List Nat) (rs : List (Nat × Nat)) : Cmd :=
          { c with phase := .running, runs := c.runs + 1, started := s.time, aux := aux, reserved := rs }
        if o.job ≠ p.job ∨ o.poolOf x.target = 0 then endCmd (pinUse s x.object x.target) c stBad badStruct
        else if (o.copy x.target).held then holdPromotion (putCmd s (run [x.object, x.target] [])) x.object x.target
        else if (o.copy x.target).state = 1 then pinUse (putCmd s (run [x.object, x.target] [])) x.object x.target
        else
          let rs := promoNeed s o x.target
          if resvTooBig s rs then endCmd (pinUse s x.object x.target) c stBad badStruct
          else if resvLacks s rs then s
          else
            let s := putCmd { s with serial := s.serial + 1 } (run [x.object, x.target, s.serial] rs)
            let s := startPromotion s x.object x.target (s.serial - 1)
            -- the hold
            match findObj s x.object with
            | some o => putObj s x.object (o.setCopy x.target { o.copy x.target with usePins := (o.copy x.target).usePins + 1 })
            | none => s

/-- Is the context of a schedule suspended on the schedule's die, so that its killed promotions wait for it to resume (R312)? -/
def promoHeld (s : State) (k : Nat) : Bool :=
  match tfind s.pfs k with
  | none => false
  | some p =>
    (match findJob s p.job with | some j => (match j.st with | .suspended _ => true | _ => false) | none => false) ||
    s.ctxs.any (fun x => x.job == p.job && x.ring == p.ctx && x.suspOn.contains (dieOfAddr (gaddrOf k).off))

/-- A promotion of an INIT_LIST object to the basin begins (R306): it belongs to no schedule. -/
def beginInit (s : State) (c : Cmd) : State :=
  let d := (descAddr (c.pkt.slot 0)).off
  match findObj s d with
  | none => dropCmd s c.id
  | some o =>
    if o.job ≠ c.pkt.job ∨ o.poolT1 = 0 ∨ o.t1.state ≠ 0 then dropCmd s c.id
    else
      let rs := promoNeed s o 1
      if resvTooBig s rs then dropCmd s c.id
      else if resvLacks s rs then s
      else
        let s := putCmd { s with serial := s.serial + 1 }
          { c with phase := .running, runs := c.runs + 1, started := s.time, aux := [d, 1, s.serial], reserved := rs }
        startPromotion s d 1 (s.serial - 1)

/-- RES_PROMOTE: copy the object to the tier named in byte 42 (R218, R221). -/
def execResPromote (c : Nat) (s : State) : Host.Outcome State Fault Refusal :=
  .next (match findCmd s c with
    | some x =>
      if x.phase = .running ∧ x.pkt.clsOp = 0x722 ∧ (match x.origin with | .ring _ => true | _ => false) = true then tryPromotion s x promoteFin else s
    | none => s)

/-- PREFETCH_ISSUE: a running schedule issues the entry at CURSOR (R227); an entry whose target copy is already resident arrives at once.
Whether the schedule of a trapped job goes on issuing (R75, R297) is not stated: here it does (DESIGN CHOICE, notes/assumptions/131). -/
def execPrefetchIssue (sched : Nat) (s : State) : Host.Outcome State Fault Refusal :=
  .next (match tfind s.pfs sched with
    | none => s
    | some p =>
      match p.entries[p.cursor]? with
      | none => s
      | some x =>
        let gate := (x.gateBase + p.step * x.gateStride) % 2 ^ 32
        let live := match findJob s p.job with | some j => (match j.st with | .running | .trapped => true | _ => false) | none => false
        if p.state ≠ 1 ∨ live = false ∨ (getLock s x.gate).count < gate ∨ p.lead ≤ p.flying.length then s
        else
          let last := p.cursor + 1 = p.entries.length
          let p' := { p with
            flying := p.flying ++ [(p.step, p.cursor)], cursor := if last then 0 else p.cursor + 1,
            step := if last then (p.step + 1) % 2 ^ 32 else p.step }
          let s := putPf s sched p'
          let die := dieOfAddr (gaddrOf sched).off
          let s := count s die slotsDie 0x5C 1 (some (p.job, x.layer))
          let ses := match findJob s p.job with | some j => j.sess | none => 0
          let c := { ownCmd s (.promotion sched p.cursor) ses 0x7220 p.job x.layer 0xFFFF (ownSeq s) [(gLocal x.object).off / 16, 0, 0, 0, 0] with
            id := s.nextId }
          let s := beginPrefetch (issueOwn s c) c sched p.cursor
          match findCmd s c.id, findObj s x.object with
          | some c', some o => if (o.copy x.target).held then prefetchFin s c' else s
          | _, _ => s)

/-- PROMOTION_COMMIT: a promotion that a schedule issued completes (R218, R227). -/
def execPromotionCommit (c : Nat) (s : State) : Host.Outcome State Fault Refusal :=
  .next (match findCmd s c with
    | some x =>
      match x.origin with
      | .promotion _ _ => if x.phase = .running then tryPromotion s x prefetchFin else s
      | _ => s
    | none => s)

/-- PROMOTION_RESUME: a promotion that waits for pool space continues (R221); one that was killed is issued again by its
sequencer (R230). -/
def execPromotionResume (c : Nat) (s : State) : Host.Outcome State Fault Refusal :=
  .next (match findCmd s c with
    | none => s
    | some x =>
      match x.origin with
      | .promotion k e =>
        if x.phase = .waiting then (if k = 0 then beginInit s x else if promoHeld s k then s else beginPrefetch s x k e)
        else if x.phase = .running ∧ 3 ≤ x.aux.length then seekPlace s (x.aux.getD 0 0) (x.aux.getD 1 0) (x.aux.getD 2 0)
        else s
      | _ =>
        if x.phase = .running ∧ x.pkt.clsOp = 0x722 ∧ 3 ≤ x.aux.length then
          seekPlace s (x.aux.getD 0 0) (x.aux.getD 1 0) (x.aux.getD 2 0)
        else s)

-- the other residency operations ---------------------------------------------------------------------------------------

/-- RES_POOL_INIT at commit: the pool is activated (R212, R213). -/
def poolInitEff (s : State) (c : Cmd) : State :=
  let a := resAddr s c.pkt
  let bs := memRead c.snapMem a 64
  syncPool { s with pools := tput s.pools a ⟨c.pkt.job, (localise s (gaddrOf (fieldAt bs 0 8))).off, fieldAt bs 8 8⟩ } a

def execResPoolInit (c : Nat) (s : State) : Host.Outcome State Fault Refusal :=
  runOp 0x720 (fun s c => runUnless (poolInitBad s c (memRead c.snapMem (resAddr s c.pkt) 64))) poolInitEff c s

/-- RES_CREATE at commit: the object is active, with no copies (R212, R214). -/
def resCreateEff (s : State) (c : Cmd) : State :=
  let a := resAddr s c.pkt
  putObj s a (objOf s c.pkt.job (memRead c.snapMem a 64))

def execResCreate (c : Nat) (s : State) : Host.Outcome State Fault Refusal :=
  runOp 0x721 (fun s c => runUnless (resCreateBad s c (memRead c.snapMem (resAddr s c.pkt) 64))) resCreateEff c s

/-- The removal of an object's copy as RES_EVICT and RES_DESTROY ask for it (R219, R223): a clean copy goes, the write-back of a dirty one
begins or goes on. -/
def evictStep (s : State) (d t : Nat) : State :=
  match findObj s d with
  | none => s
  | some o => if (o.copy t).state = 3 then pushWb s d t else if (o.copy t).pins = 0 then removeCopy s d t else s

/-- Why the removal of an unpinned dirty copy ends the command that asks for it: a poisoned unit that its write-back reads, or a home that may
not be written. -/
def evictStop (s : State) (c : Cmd) (d t : Nat) : Option State :=
  match findObj s d with
  | none => none
  | some o =>
    if (o.copy t).state ≠ 2 ∨ (o.copy t).dirty = false ∨ 0 < (o.copy t).pins then none
    else match poisonedIn s (o.copy t).at_ o.size, wbStop s o t with
      | some u, _ => some (eccEnd s c u)
      | none, some st => some (endCmd s c st 0)
      | none, none => none

/-- RES_EVICT at commit: an eviction is pending where the copy is pinned (R222). -/
def resEvictEff (s : State) (c : Cmd) : State :=
  let d := c.aux.getD 0 0; let t := c.aux.getD 1 0
  match findObj s d with
  | none => s
  | some o =>
    if (o.copy t).state ≠ 0 ∧ 0 < (o.copy t).pins ∧ c.aux.length < 3 then putObj s d (o.setCopy t { o.copy t with pending := true }) else s

/-- RES_EVICT: a copy that is not pinned is removed, once a write-back has committed; a promotion or a command that takes the copy meanwhile
cancels it (R219, R222, R223). An HBM copy to which the basin copy is being written back waits for that. -/
def execResEvict (c : Nat) (s : State) : Host.Outcome State Fault Refusal :=
  match findCmd s c with
  | none => .next s
  | some x =>
    let d := x.aux.getD 0 0; let t := x.aux.getD 1 0
    if x.phase ≠ .running ∨ x.pkt.clsOp ≠ 0x723 then .next s
    else match (if x.aux.length < 3 then evictStop s x d t else none) with
      | some s' => .next s'
      | none =>
        -- `begun`: its write-back has begun before, so that a resident copy is one that was taken again
        let begun := decide (3 ≤ x.aux.length)
        let there (s : State) : Bool := match findObj s d with | some o => (o.copy t).state == 3 | none => false
        let taken (s : State) : Bool := match findObj s d with | some o => t == 2 && o.t1.state == 3 && o.t2.state == 2 && o.t2.pins == 0 | none => false
        let s := if begun && !(there s) then s else evictStep s d t
        runOp 0x723 (fun s c => if there s then .hold [d, t, 1] else if !begun && taken s then .hold c.aux else .done { Stg.none with aux := c.aux })
          resEvictEff c s

/-- RES_PIN: the pin count of the tier grows by 1, up to 65,535 (R220). -/
def resPinEff (s : State) (c : Cmd) : State :=
  let d := c.aux.getD 0 0; let t := c.aux.getD 1 0
  match findObj s d with
  | none => s
  | some _ =>
    let s := killWb s d t
    match findObj s d with
    | none => s
    | some o => putObj s d (o.setCopy t { o.copy t with resPins := (o.copy t).resPins + 1 })

def execResPin (c : Nat) (s : State) : Host.Outcome State Fault Refusal :=
  runOp 0x724 (fun s c =>
    match findObj s (c.aux.getD 0 0) with
    | some o => if 65535 ≤ (o.copy (c.aux.getD 1 0)).pins then .stop stBad (badAt 0xFF 0) [] else .done { Stg.none with aux := c.aux }
    | none => .stop stBad (badAt 0xFF 0) []) resPinEff c s

/-- RES_UNPIN: one pin made by RES_PIN ends; with the last pin a pending eviction takes effect (R220, R222). -/
def resUnpinEff (s : State) (c : Cmd) : State :=
  let d := c.aux.getD 0 0; let t := c.aux.getD 1 0
  match findObj s d with
  | none => s
  | some o =>
    let k := { o.copy t with resPins := (o.copy t).resPins - 1 }
    let s := putObj s d (o.setCopy t k)
    if k.pins = 0 ∧ k.pending = true ∧ k.state = 2 then removeCopy s d t else s

def execResUnpin (c : Nat) (s : State) : Host.Outcome State Fault Refusal :=
  runOp 0x725 (fun s c =>
    match findObj s (c.aux.getD 0 0) with
    | some o => if (o.copy (c.aux.getD 1 0)).resPins = 0 then .stop stBad (badAt 0xFF 0) [] else .done { Stg.none with aux := c.aux }
    | none => .stop stBad (badAt 0xFF 0) []) resUnpinEff c s

/-- The object is deactivated; its copies have been removed (R212, R223). -/
def resDestroyEff (s : State) (c : Cmd) : State :=
  let d := c.aux.getD 0 0
  match findObj s d with
  | none => s
  | some o =>
    let k := jobKey s 0 o.job
    let s := wrLocal (wrLocal { s with objs := tdel s.objs d } k (d + 36) (zeros 6)) k (d + 43) (zeros 1)
    syncPool (syncPool s o.poolT1) o.poolT2

/-- RES_DESTROY: it waits until both pin counts are zero, then removes the copies, the basin copy first, and commits once both are gone (R219,
R223). -/
def execResDestroy (c : Nat) (s : State) : Host.Outcome State Fault Refusal :=
  match findCmd s c with
  | none => .next s
  | some x =>
    let d := x.aux.getD 0 0
    let free (s : State) : Bool := match findObj s d with | some o => o.t1.pins == 0 && o.t2.pins == 0 | none => true
    let gone (s : State) (t : Nat) : Bool := match findObj s d with | some o => (o.copy t).state == 0 | none => true
    if x.phase ≠ .running ∨ x.pkt.clsOp ≠ 0x726 then .next s
    else if !(free s) then runOp 0x726 (fun _ c => .hold c.aux) resDestroyEff c s
    else
      let t := if gone s 1 then 2 else 1
      match evictStop s x d t with
      | some s' => .next s'
      | none =>
        let s := evictStep s d t
        let s := if t = 1 ∧ gone s 1 = true ∧ free s = true ∧ (evictStop s x d 2).isNone = true then evictStep s d 2 else s
        runOp 0x726 (fun s c => if gone s 1 && gone s 2 then .done { Stg.none with aux := c.aux } else .hold c.aux) resDestroyEff c s

/-- The schedule that a PF_START read. -/
def pfRead (s : State) (c : Cmd) : Option PfSched := pfOf { s with mem := c.snapMem, keys := [] } c (localise s (descAddr (c.pkt.slot 0)))

/-- PF_START at commit: the schedule is active at entry 0, step 0 (R212, R225). A command that waits already on a lock which this makes an ARRIVE
lock begins to stall (R229). -/
def pfStartEff (s : State) (c : Cmd) : State :=
  match pfRead s c with
  | some p =>
    let s := putPf s (pfAddr s c.pkt) p
    { s with cmds := s.cmds.map (beginArrivalStall s) }
  | none => s

def execPfStart (c : Nat) (s : State) : Host.Outcome State Fault Refusal :=
  runOp 0x728 (fun s c => runUnless (pfStartBad s c (pfRead s c))) pfStartEff c s

/-- PF_STOP at commit: a running schedule issues nothing further (R230). -/
def pfStopEff (s : State) (c : Cmd) : State :=
  let k := pfAddr s c.pkt
  match tfind s.pfs k with
  | some p => if p.state = 1 then putPf s k { p with state := 2 } else s
  | none => s

def execPfStop (c : Nat) (s : State) : Host.Outcome State Fault Refusal :=
  runOp 0x729 (fun _ _ => .done Stg.none) pfStopEff c s

/-- PF_RESUME at commit: a stopped or faulted schedule runs again at its cursor (R212, R230). -/
def pfResumeEff (s : State) (c : Cmd) : State :=
  let k := pfAddr s c.pkt
  match tfind s.pfs k with
  | some p => if p.state = 2 ∨ p.state = 3 then putPf s k { p with state := 1, ctx := ctxOf c } else s
  | none => s

def execPfResume (c : Nat) (s : State) : Host.Outcome State Fault Refusal :=
  runOp 0x72A (fun _ _ => .done Stg.none) pfResumeEff c s

end Sys2Proof.Machine
end

