-- ==== Sys2Proof/Machine/Rings.lean ====
section
/-! DEFINITION. Host buffers and command rings (R208, R265 to R268, R390, R391, R413). -/

set_option cleanup.letToHave false

namespace Sys2Proof.Machine

-- host buffers -------------------------------------------------------------------------------------------------------

/-- Why a registration of host memory is refused (R390): a status, or none. -/
def bufFault (s : State) (sess base pages : Nat) (modWr : Bool) : Option Nat :=
  let n := 4096 * pages
  if decide (2 ^ 42 < base + n) || s.bufs.any (fun b => b.sess == sess && overlap base n b.base (b.pages * 4096)) ||
      (match s.cxl.decHpa with | some h => overlap base n h (s.cfg.hdmSizeGib * 2 ^ 30) | none => false) then some stBad
  else if decide (1024 ≤ (s.bufs.filter (fun b => b.sess == sess)).length) ||
      s.bufs.any (fun b => b.sess != sess && (modWr || b.modWr) && overlap base n b.base (b.pages * 4096)) then some stDenied
  else none

/-- Bytes of a ring's area, with its tag area where it is sealed (R265, R413). -/
def areaLen (s : State) (r area entry log2 : Nat) : Nat := (entry + (if sealedArea s r area then 16 else 0)) * 2 ^ log2

/-- The two areas of a ring: address, length, and whether the module writes it. -/
def ringAreas (s : State) (r : Nat) : List (Nat × Nat × Bool) :=
  let x := getRing s r
  [(x.base, areaLen s r x.base 64 x.log2, false), (x.reply, areaLen s r x.reply 32 x.log2, true)]

/-- Does a ring with ENABLE set hold an area in a host buffer that is being released (R267, R391)? A ring that no other
buffer serves becomes unusable. -/
def ringNeedsHost (s : State) (r : Nat) : Bool :=
  let x := getRing s r
  x.enable && (ringAreas s r).any (fun a =>
    (gaddrOf a.1).tier == 5 &&
    !(s.bufs.any (fun b => b.sess == x.bind && b.modWr == a.2.2 && inside (gaddrOf a.1).off a.2.1 b.base (b.pages * 4096))))

/-- Buffers are released at once (R391): rings whose areas lay in them become unusable (R267). -/
def releaseBufs (s : State) (p : HostBuf → Bool) : State :=
  let s := { s with bufs := s.bufs.filter (fun b => !(p b)) }
  (List.range 128).foldl (fun s r => if ringNeedsHost s r then ringFault s r 0 else s) s

-- enabling -----------------------------------------------------------------------------------------------------------

/-- What the enabling write makes of one area (R265, R267): unusable, served by what exists, or a registration of its own. -/
inductive AreaUse where
  | bad
  | usable
  | register (b : HostBuf)

def areaUse (s : State) (r : Nat) (a : Nat × Nat × Bool) : AreaUse :=
  let x := getRing s r
  let g := localise s (gaddrOf a.1)
  if a.1 % 4096 ≠ 0 ∨ !(g.tier == 0 || g.tier == 5) ∨ addrBad 15 a.1 a.2.1 = true then .bad
  else if g.tier = 0 then
    if inPound s g.off a.2.1 ∨ dieOfAddr g.off ≠ dieOfAddr (g.off + a.2.1 - 1) ∨ (getDie s (dieOfAddr g.off)).up = false then .bad
    else .usable
  else if s.bufs.any (fun b => b.sess == x.bind && b.forRing.isNone && b.modWr == a.2.2 && inside g.off a.2.1 b.base (b.pages * 4096)) then
    .usable
  else
    let pages := ceilDiv a.2.1 4096
    match bufFault s x.bind g.off pages a.2.2 with
    | some _ => .bad
    | none => .register { sess := x.bind, base := g.off, pages := pages, modWr := a.2.2, job := 0, ring := r,
                          forRing := some (r, a.2.2) }

/-- The enabling of a ring (R267). -/
def enableRing (s : State) (r log2 : Nat) (irq : Bool) : State :=
  let x := getRing s r
  let s1 := setRing s r { x with log2 := log2, replyIrq := irq }
  if log2 < 6 ∨ 16 < log2 ∨ 64 ≤ x.bind then ringFault s1 r 0
  else
    let res := (ringAreas s1 r).foldl (fun (a : Option State) ar =>
      match a with
      | none => none
      | some s => match areaUse s r ar with
        | .bad => none
        | .usable => some s
        | .register b => some { s with bufs := s.bufs ++ [b] }) (some s1)
    match res with
    | none => ringFault s1 r 0
    | some s => setRing s r { getRing s r with
        enable := true, active := true, tail := 0, head := 0, rtail := 0, rhead := 0,
        enables := (getRing s r).enables + 1, marks := [] }

/-- A write to RING_CFG that the ring accepts (R266, R267). -/
def writeRingCfg (s : State) (r value : Nat) : State :=
  let x := getRing s r
  let irq := bit value 9
  if x.enable then
    if bit value 8 then setRing s r { x with replyIrq := irq }
    else dropRingBufs (setRing s r { x with replyIrq := irq, enable := false, active := false }) r
  else if bit value 8 then enableRing s r (fld value 0 5) irq
  else setRing s r { x with replyIrq := irq, log2 := if 6 ≤ fld value 0 5 ∧ fld value 0 5 ≤ 16 then fld value 0 5 else x.log2 }

/-- A write to RING_TAIL that the ring accepts: the doorbell (R266, R267). -/
def writeRingTail (s : State) (r value : Nat) : State :=
  let x := getRing s r
  let t := value % 2 ^ 32
  let s := setRing s r { x with tail := t }
  if x.enable ∧ 2 ^ x.log2 < (t + 2 ^ 32 - x.head) % 2 ^ 32 then ringFault s r 1 else s

-- entries ------------------------------------------------------------------------------------------------------------

/-- Is there space for the reply of one more command (R268)? -/
def replySpace (x : Ring) : Bool := decide (x.inFlight + (x.rtail + 2 ^ 32 - x.rhead) % 2 ^ 32 < 2 ^ x.log2)

/-- REPLY_WAIT: there is an entry to fetch, and fetching is held for reply space (R266, R268). -/
def replyWait (x : Ring) : Bool := x.enable && x.head != x.tail && !(replySpace x)

/-- What the fetch of a command entry brings (R267, R413). -/
inductive Entry where
  | packet (bs : List Byte)
  | unusable
  | badTag

/-- The entry that stands in a ring's area for a count of entries. -/
def entryHeld (s : State) (r i : Nat) : Entry :=
  let x := getRing s r
  let g := localise s (gaddrOf x.base)
  let k := i % 2 ^ x.log2
  let a := g.off + 64 * k
  if g.tier = 5 then
    if s.power.linkUp = false then .unusable
    else
      let bs := memRead s.host a 64
      if sealedArea s r x.base then
        let tag := memRead s.host (g.off + 64 * 2 ^ x.log2 + 16 * k) 16
        match Config.gcmOpen (ringKey s r) (leBytes 2 r ++ leBytes 2 0 ++ leBytes 8 i) (bs ++ tag) with
        | some p => .packet (fitBytes 64 p)
        | none => .badTag
      else .packet bs
  else match poisonedIn s a 64 with
    | some _ => .unusable
    | none => .packet (memRead s.mem a 64)

/-- What the fetch of that entry brings: from host memory it may bring poison or an error over CXL (R267), once for each entry of each enabling
(notes/assumptions/128). -/
def ringEntryOf (s : State) (r i : Nat) : Entry :=
  let x := getRing s r
  if (gaddrOf x.base).tier = 5 ∧ Config.hostFault [r, x.enables, i] = true then .unusable else entryHeld s r i

/-- Counts of the entries written and not yet fetched. -/
def unfetched (x : Ring) : List Nat :=
  if x.enable then (List.range ((x.tail + 2 ^ 32 - x.head) % 2 ^ 32)).map (fun i => (x.head + i) % 2 ^ 32) else []

/-- Unfetched entries of a ring with a job and sequence number (R262). -/
def entriesHolding (s : State) (r job seq : Nat) : List Nat :=
  (unfetched (getRing s r)).filter (fun i => match entryHeld s r i with
    | .packet bs => fieldAt bs 2 2 == job && fieldAt bs 8 4 == seq
    | _ => false)

/-- Rings with such an entry, among those bound to a session (R262). -/
def ringsHolding (s : State) (sess job seq : Nat) : List Nat :=
  (List.range 128).filter (fun r => (getRing s r).bind == sess && !(entriesHolding s r job seq).isEmpty)

-- registering and unregistering (R390, R391) ---------------------------------------------------------------------------

def hostbufUses (p : Packet) : Option (List Use) :=
  if p.op = 0x0A then some [.raw 1 true, .imm 0x1FFFFFFFF, .zero, .zero, .zero]
  else some [.raw 1 true, .zero, .zero, .zero, .zero]

/-- Slot 0 is a TIER 5 address aligned to 4 KiB, and PAGES is at least 1 (R390). -/
def hostbufRules (p : Packet) : List Flt :=
  let g := descAddr (p.slot 0)
  fltIf (g.tier != 5 || g.off % 4096 != 0) (fltSlot 0) ++ (if p.op = 0x0A then fltIf (fld (p.slot 1) 0 32 == 0) (fltSlot 1) else [])

/-- What an HOSTBUF_REG comes to (R390). -/
def hostbufRegRun (s : State) (c : Cmd) : Out :=
  match bufFault s c.sess (descAddr (c.pkt.slot 0)).off (fld (c.pkt.slot 1) 0 32) (bit (c.pkt.slot 1) 32) with
  | some st => .stop st (if st = stBad then badAt 24 0 else 0) []
  | none => .done Stg.none

/-- HOSTBUF_REG: the buffer is in force from the commit (R390). -/
def execHostbufReg (c : Nat) (s : State) : Host.Outcome State Fault Refusal :=
  runOp 0xF0A hostbufRegRun
    (fun s c => { s with bufs := s.bufs ++ [
      { sess := c.sess, base := (descAddr (c.pkt.slot 0)).off, pages := fld (c.pkt.slot 1) 0 32, modWr := bit (c.pkt.slot 1) 32,
        job := c.pkt.job, ring := ctxOf c, forRing := none }] }) c s

/-- The buffer that an HOSTBUF_UNREG names. -/
def unregBuf (s : State) (c : Cmd) : Option HostBuf :=
  s.bufs.find? (fun b => b.sess == c.sess && b.forRing.isNone && b.base == (descAddr (c.pkt.slot 0)).off)

/-- HOSTBUF_UNREG starts: the buffer takes no new command (R391). -/
def unregStart (s : State) (c : Cmd) : StartRes :=
  match unregBuf s c with
  | none => .stop stBad (badAt 24 0) []
  | some _ => .go s c

/-- Structures in TIER 5 that the active jobs, set-up rings and the dump buffer use (R391). -/
def hostStructures (s : State) : List (Nat × Nat) :=
  let tab (x n : Nat) : List (Nat × Nat) := if (gaddrOf x).tier = 5 ∧ 0 < n then [((gaddrOf x).off, n)] else []
  (s.jobs.map (fun j => tab j.layerTab (16 * j.layerN) ++ tab j.memmapAt (16 * j.memmap.length) ++ tab j.trapAddr (if j.trapAddr = 0 then 0 else 32))).flatten ++
  (s.census.map (fun e => tab e.2.1 (64 + 64 * e.2.2))).flatten ++
  (s.twatch.map (fun w => tab w.target (if w.kind = 2 then 64 + 32 * (w.last + 1 - w.first) else 64 + 64 * w.entries))).flatten ++
  (match s.dump.buffer with | some (_, a) => [(a, 0x100000000)] | none => [])

end Sys2Proof.Machine
end

