-- ==== Sys2Proof/Machine/Jobs.lean ====
section
/-! DEFINITION. Jobs, locks and loans: class 0x8 and the first operations of class 0xF (R257, R262 to R264, R281 to
R298, R325, R356). -/

set_option cleanup.letToHave false

namespace Sys2Proof.Machine

-- JOB_SUBMIT (R292 to R296) --------------------------------------------------------------------------------------------

/-- The local or host bytes of a structure that a command names, as its job reads them. -/
def rdStruct (s : State) (c : Cmd) (g : GAddr) (n : Nat) : List Byte := moduleRead s c.sess c.pkt.job g n

/-- Lists of fixed-size entries. -/
def chunks (w : Nat) : Nat → List Byte → List (List Byte)
  | 0, _ => []
  | n + 1, bs => bs.take w :: chunks w n (bs.drop w)

def noDup : List Nat → Bool
  | [] => true
  | x :: r => !(r.contains x) && noDup r

/-- A branch entry (R325). -/
def branchOf (bs : List Byte) : Branch := ⟨fieldAt bs 0 4, fieldAt bs 4 2, fieldAt bs 6 2, fieldAt bs 8 1⟩

/-- The branch entries in use are valid together (R325). -/
def branchesOk (clusters layers : Nat) (raw : List (List Byte)) : Bool :=
  let bs := (raw.filter (fun b => fieldAt b 8 1 != 0))
  let es := bs.map branchOf
  let pairs := (es.zipIdx.map (fun a => (es.zipIdx.filter (fun b => a.2 < b.2)).map (fun b => (a.1, b.1)))).flatten
  raw.all (fun b => zeroAt b 9 7) &&
  es.all (fun e => e.clusters != 0 && e.clusters &&& clusters == e.clusters && decide (e.first ≤ e.last) && decide (e.last < layers)) &&
  pairs.all (fun p => p.1.clusters &&& p.2.clusters == 0 && (decide (p.1.last < p.2.first) || decide (p.2.last < p.1.first))) &&
  decide ((es.map Branch.stages).foldl (· + ·) 0 ≤ 8)

/-- A table of a job descriptor: its address names memory of the tiers given, within one range. -/
def tableBad (s : State) (tiers : List Nat) (x n : Nat) : Bool := structRangeBad s tiers none 1 x (max n 1)

/-- The job that a descriptor gives, or the status and DETAIL that end JOB_SUBMIT (R292 to R295). -/
def jobOf (s : State) (c : Cmd) (bs : List Byte) : Except (Nat × Nat) Job :=
  let f (o n : Nat) := fieldAt bs o n
  let layerN := f 40 4; let mapN := f 44 4; let initN := f 120 4; let peerN := f 64 2; let layers := f 12 2; let locks := f 14 2
  let clusters := if f 124 4 = 0 then 0xFFFFFFFF else f 124 4
  let rp := (chunks 2 16 (bs.drop 80)).map leNat
  let valid := rp.filter (fun e => bit e 7)
  let fieldsBad :=
    decide (7 < f 2 1) || f 0 2 / 32 != 0 || !(zeroAt bs 3 1) || decide (2000 < f 4 4) || decide (3600 < f 8 4) || layers == 0 ||
    decide (16384 < locks) || decide (65535 < layerN) || decide (4096 < mapN) || decide (4095 < peerN) || !(zeroAt bs 66 6) ||
    decide (4096 < initN) || structRangeBad s [0] none 256 (f 16 8) (layers * 32768) ||
    (if locks = 0 then f 24 8 != 0 else tableBad s [0] (f 24 8) (4 * locks)) ||
    (layerN != 0 && tableBad s [0, 5] (f 32 8) (16 * layerN)) || (mapN != 0 && tableBad s [0, 5] (f 48 8) (16 * mapN)) ||
    (if f 56 8 = 0 then !bit (f 0 2) 0 else structRangeBad s [0, 5] none 32 (f 56 8) 32) ||
    (peerN != 0 && tableBad s [0, 5] (f 72 8) (2 * peerN)) || (initN != 0 && tableBad s [0, 5] (f 112 8) (8 * initN)) ||
    rp.any (fun e => decide (2048 ≤ e)) || !(noDup (valid.map (fun e => fld e 0 7))) ||
    !(branchesOk clusters layers (chunks 16 8 (bs.drop 128)))
  if fieldsBad then .error (stBad, badAt 0xFF 0)
  else
    let denied (x n : Nat) (w : Bool) := decide (0 < n) && accessDenied s c (gaddrOf x) n w true
    if denied (f 16 8) (layers * 32768) false || denied (f 24 8) (4 * locks) false || denied (f 32 8) (16 * layerN) false ||
        denied (f 48 8) (16 * mapN) false || denied (f 56 8) (if f 56 8 = 0 then 0 else 32) true || denied (f 72 8) (2 * peerN) false ||
        denied (f 112 8) (8 * initN) false then .error (stDenied, 0)
    else
      let lt := chunks 16 layerN (rdStruct s c (gaddrOf (f 32 8)) (16 * layerN))
      let mm := chunks 16 mapN (rdStruct s c (gaddrOf (f 48 8)) (16 * mapN))
      let il := (chunks 8 initN (rdStruct s c (gaddrOf (f 112 8)) (8 * initN))).map leNat
      let pl := (chunks 2 peerN (rdStruct s c (gaddrOf (f 72 8)) (2 * peerN))).map leNat
      let regions := mm.map (fun e => (fieldAt e 0 8, fieldAt e 8 8))
      let tablesBad :=
        lt.any (fun e => decide (4096 ≤ fieldAt e 4 2) || !(zeroAt e 6 2) ||
          !((gaddrOf (fieldAt e 8 8)).tier == 0 || (gaddrOf (fieldAt e 8 8)).tier == 4) || addrBad 15 (fieldAt e 8 8) 128) ||
        !(noDup (lt.map (fun e => (localise s (gaddrOf (fieldAt e 8 8))).code))) ||
        regions.any (fun r => structRangeBad s [0] none 65536 r.1 r.2 || r.2 % 65536 != 0) ||
        pl.any (fun p => decide (4096 ≤ p)) ||
        il.any (fun a => structRangeBad s [0] none 64 a 64 ||
          (match findObj s (localise s (gaddrOf a)).off with
           | some o => o.job != c.pkt.job || o.poolT1 == 0
           | none => fieldAt (rdStruct s c (gaddrOf a) 64) 16 8 == 0))
      if tablesBad then .error (stBad, badAt 0xFF 0)
      else if (findJob s c.pkt.job).isSome ∨ 256 ≤ s.jobs.length ∨
          regions.any (fun r => (List.range 8).any (fun d => (getMemRegs s d).retired.any (fun g =>
            overlap g 65536 (gaddrOf r.1).off r.2))) = true then .error (stDenied, 0xFE)
      else .ok
        { id := c.pkt.job, sess := c.sess, st := .running, epoch := 1, trapArmed := !bit (f 0 2) 0, trapMade := false,
          residFp32 := bit (f 0 2) 1, fallback := bit (f 0 2) 2, verDrop := bit (f 0 2) 3, share := bit (f 0 2) 4,
          priority := f 2 1, cap := if f 4 4 = 0 then 250 else f 4 4, digestWin := f 8 4, layers := layers, locks := locks,
          shapeTab := f 16 8, lockTab := f 24 8, layerTab := f 32 8, layerN := layerN, memmap := regions, memmapAt := f 48 8,
          trapAddr := f 56 8, peers := pl, ringPrio := valid.map (fun e => (fld e 0 7, fld e 8 3)),
          initList := il.map (fun a => (localise s (gaddrOf a)).off), clusters := clusters,
          branches := ((chunks 16 8 (bs.drop 128)).filter (fun b => fieldAt b 8 1 != 0)).map branchOf,
          memKey := memKeyOf (getSes s c.sess).serial c.pkt.job, trapSeq := 0 }

/-- JOB_SUBMIT ends before its commit where R295 says so. -/
def submitStart (s : State) (c : Cmd) : StartRes :=
  match jobOf s c (rdStruct s c (descAddr (c.pkt.slot 0)) 256) with
  | .ok _ => .go s c
  | .error e => .stop e.1 e.2 []

/-- The state as a command read it when it started. -/
def asRead (s : State) (c : Cmd) : State := { s with mem := c.snapMem, keys := [], host := c.snapHost }

/-- JOB_SUBMIT: the job is active with epoch 1 (R296). -/
def execJobSubmit (c : Nat) (s : State) : Host.Outcome State Fault Refusal :=
  runOp 0xF01 (fun s c => match jobOf (asRead s c) c (rdStruct (asRead s c) c (descAddr (c.pkt.slot 0)) 256) with
      | .ok _ => .done Stg.none
      | .error e => .stop e.1 e.2 [])
    (fun s c => match jobOf (asRead s c) c (rdStruct (asRead s c) c (descAddr (c.pkt.slot 0)) 256) with
      | .ok j =>
        let k := getCounts s c.sess
        setCounts { s with jobs := s.jobs ++ [j], ctxs := s.ctxs ++ [⟨j.id, ctxOf c, [], []⟩] } c.sess { k with submitted := k.submitted + 1, running := k.running + 1 }
      | .error _ => s) c s

-- contexts (R290, R291) --------------------------------------------------------------------------------------------------

/-- Priority of a context (R291). -/
def ctxPrio (s : State) (job ring : Nat) : Nat :=
  match findJob s job with
  | none => 7
  | some j => match j.ringPrio.find? (fun e => e.1 == ring) with | some e => e.2 | none => j.priority

/-- Is a context suspended on a die, by pre-emption or by JOB_SUSPEND (R297, R305)? -/
def ctxSuspended (s : State) (job ring die : Nat) : Bool :=
  (match findJob s job with | some j => (match j.st with | .suspended _ => true | _ => false) | none => false) ||
  s.ctxs.any (fun x => x.job == job && x.ring == ring && x.suspOn.contains die)

/-- Kill every command that a test selects and that has not reached its commit point. -/
def killAll (s : State) (cause : Nat) (p : Cmd → Bool) : State :=
  ((s.cmds.filter (fun c => p c && c.phase != .committed)).map Cmd.id).foldl (fun s i =>
    match findCmd s i with
    | some c => killCmd s c cause
    | none => s) s

/-- End every command that a test selects and that has not reached its commit point, with a status. -/
def endAll (s : State) (status detail : Nat) (p : Cmd → Bool) : State :=
  ((s.cmds.filter (fun c => p c && c.phase != .committed)).map Cmd.id).foldl (fun s i =>
    match findCmd s i with
    | some c => endCmd s c status detail
    | none => s) s

/-- Is a command placed or running on a compute die? -/
def onDie (c : Cmd) (d : Nat) : Bool := match c.place with | some p => p.die == d | none => false
def onAnyDie (c : Cmd) : Bool := match c.place with | some p => decide (p.die < 8) | none => false

-- the end of a job (R298) -----------------------------------------------------------------------------------------------

/-- Is a command a JOB_END? -/
def isJobEnd (c : Cmd) : Bool := c.pkt.clsOp == 0xF02

/-- Peers that may lend to a job: those with which the module exchanges the job's messages, and the domain's members. -/
def lenderPeers (s : State) (job : Nat) : List Nat :=
  (((s.domain.tx.filter (fun e => e.1.2 == job && job != 0)).map (fun e => e.1.1)) ++ s.domain.members.map Prod.fst).eraseDups.filter
    (fun p => p != s.cfg.peerId && !(s.domain.lost.contains p))

/-- Everything that belongs to a job is released (R298): locks, flights, pools, objects, schedules, shards, factor sets,
tables, setups, link keys; its HBM can no longer be read and its basin regions become zero (R414). -/
def releaseJob (s : State) (job : Nat) (completed : Bool) : State :=
  match findJob s job with
  | none => s
  | some j =>
    -- its write-backs are killed (R223), and lenders learn of its end (R356), while the job's keys stand
    let s := killWbs s (fun o => o.job == job)
    let s := if hasLink s j.sess job then
        (lenderPeers s job).foldl (fun s p => send s ⟨p, mtLoanEnd, 7, job, 0, 0, 0xFF, 0, 0, [], []⟩) s else s
    let s := { s with locks := s.locks.filter (fun l => !(l.2.job == job)) }
    let s := (s.flights.filter (fun f => f.2.job == job)).foldl (fun s f => { s with mem := memZero s.mem f.2.basinBase f.2.basinSize }) s
    let s := (s.pools.filter (fun f => f.2.job == job)).foldl (fun s f =>
      if isHbm f.2.base then s else { s with mem := memZero s.mem f.2.base f.2.size }) s
    let s := (s.traces.filter (fun t => t.2.job == job)).foldl (fun s t =>
      setTrace s t.1 { (if t.2.state = 0 ∨ t.2.state = 3 then t.2 else trStop t.2) with ctrl := setBit t.2.ctrl 0 false, state := 0 }) s
    let s := killKey s j.memKey
    let s := { s with
      jobs := s.jobs.filter (fun x => !(x.id == job)), ctxs := s.ctxs.filter (fun x => !(x.job == job)),
      flights := s.flights.filter (fun x => !(x.2.job == job)), pools := s.pools.filter (fun x => !(x.2.job == job)),
      objs := s.objs.filter (fun x => !(x.2.job == job)), pfs := s.pfs.filter (fun x => !(x.2.job == job)),
      shards := s.shards.filter (fun x => !(x.2.job == job)), fsets := s.fsets.filter (fun x => !(x.2.job == job)),
      scheds := s.scheds.filter (fun x => !(x.job == job)), census := s.census.filter (fun x => !(x.1 == job)),
      watch := s.watch.filter (fun x => !(x.1.1 == job)), twatch := s.twatch.filter (fun x => !(x.job == job)),
      suspects := s.suspects.filter (fun x => !(x.1.1 == job)), links := s.links.filter (fun x => !(x.1.2 == job)),
      rounds := s.rounds.filter (fun x => !(x.job == job)), streams := s.streams.filter (fun x => !(x.job == job)),
      ended := s.ended.filter (fun x => !(x.2.1 == job)),
      cxl := { s.cxl with apertures := s.cxl.apertures.filter (fun a => !(a.2 == (job, j.sess))) },
      domain := { s.domain with rx := s.domain.rx.filter (fun x => !(x.1.2 == job)), tx := s.domain.tx.filter (fun x => !(x.1.2 == job)),
                                permutes := s.domain.permutes.filter (fun x => !(x.1 == job)) } }
    let s := releaseBufs s (fun b => b.sess == j.sess && b.job == job && b.forRing.isNone)
    let k := getCounts s j.sess
    setCounts s j.sess { k with
      running := k.running - 1, completed := k.completed + b2n completed, killed := k.killed + b2n (!completed) }

/-- Commands of a job that stand in the way of its end. -/
def jobCmds (s : State) (job : Nat) : List Cmd := s.cmds.filter (fun c => c.pkt.job == job && !(isJobEnd c))

/-- Every waiting JOB_END of a job commits in one step, and the job is Ended (R298). -/
def commitJobEnds (s : State) (job : Nat) (killed : Bool) : State :=
  let s := ((s.cmds.filter (fun c => isJobEnd c && c.pkt.job == job && inUse c)).map Cmd.id).foldl (fun s i =>
    match findCmd s i with
    | some c => commitWith noEffect s { c with phase := .staged }
    | none => s) s
  releaseJob s job (!killed)

/-- The module or a session's end ends a job as JOB_END with KILL does (R298). -/
def endJob (s : State) (job : Nat) : State :=
  commitJobEnds (endAll s stKilled 0 (fun c => c.pkt.job == job && !(isJobEnd c))) job true

/-- JOB_END starts: the job is Ending, or with KILL its commands end at once (R297, R298). -/
def jobEndStart (s : State) (c : Cmd) : StartRes :=
  match findJob s c.pkt.job with
  | none => .stop stDenied 0xFE []
  | some _ =>
    if bit (c.pkt.slot 0) 0 then .go (endAll s stKilled 0 (fun x => x.pkt.job == c.pkt.job && !(isJobEnd x))) c
    else .go (updJob s c.pkt.job (fun j => { j with st := .ending })) c

/-- JOB_END: it commits when the job's other accepted commands have ended; with KILL those that the job still has end KILLED (R298). -/
def execJobEnd (c : Nat) (s : State) : Host.Outcome State Fault Refusal :=
  .next (match findCmd s c with
    | some x =>
      if x.phase = .running ∧ isJobEnd x = true then
        if bit (x.pkt.slot 0) 0 then endJob s x.pkt.job
        else if (jobCmds s x.pkt.job).isEmpty then commitJobEnds s x.pkt.job false
        else s
      else s
    | none => s)

/-- Promotions into basins that the module runs for a job: they are killed with its contexts (R312). -/
def initPromo (c : Cmd) : Bool :=
  (match c.origin with | .promotion _ _ => true | _ => false) && inUse c && c.aux.getD 1 0 == 1

/-- JOB_SUSPEND at commit (R297, R305). -/
def suspendEff (s : State) (c : Cmd) : State :=
  match findJob s c.pkt.job with
  | none => s
  | some j =>
    match j.st with
    | .running | .trapped =>
      let s := updJob s j.id (fun j => { j with st := .suspended (j.st == .trapped) })
      killAll s 0 (fun x => x.pkt.job == j.id && (onAnyDie x || initPromo x) && x.id != c.id && !x.debt)
    | _ => s

/-- JOB_SUSPEND and JOB_RESUME of a job that is Ending are refused (R297). -/
def jobStateRun (s : State) (c : Cmd) : Out :=
  match findJob s c.pkt.job with
  | some j => if j.st = .ending then .stop stBad (badAt 2 0xFF) [] else .done Stg.none
  | none => .stop stDenied 0xFE []

/-- JOB_SUSPEND (R297). -/
def execJobSuspend (c : Nat) (s : State) : Host.Outcome State Fault Refusal := runOp 0xF03 jobStateRun suspendEff c s

/-- JOB_RESUME at commit (R297): the next NAN_TRAP after a trapped job resumes writes a new record. -/
def resumeEff (s : State) (c : Cmd) : State :=
  updJob s c.pkt.job (fun j => match j.st with
    | .suspended tr => { j with st := if tr then .trapped else .running }
    | .trapped => { j with st := .running, trapMade := false }
    | _ => j)

/-- JOB_RESUME (R297). -/
def execJobResume (c : Nat) (s : State) : Host.Outcome State Fault Refusal := runOp 0xF04 jobStateRun resumeEff c s

-- CMD_ABORT (R262) ------------------------------------------------------------------------------------------------------

def abortSeq (c : Cmd) : Nat := fld (c.pkt.slot 0) 0 32
def abortJob (c : Cmd) : Nat := fld (c.pkt.slot 0) 32 16

/-- Step 1 of R262: the accepted command that an abort names. -/
def abortTarget (s : State) (c : Cmd) : Option Cmd :=
  s.cmds.find? (fun x => x.id != c.id && x.pkt.job == abortJob c && x.pkt.seq == abortSeq c &&
    (match x.origin with | .ring _ => true | _ => false) && (abortJob c != 0 || x.sess == c.sess))

/-- The abort at its commit: its target ends ABORTED, or unfetched entries are marked. -/
def abortEff (s : State) (c : Cmd) : State :=
  if c.status ≠ stDone then s
  else match abortTarget s c with
    | some x => endCmd s x stAborted 0
    | none => (ringsHolding s c.sess (abortJob c) (abortSeq c)).foldl (fun s r =>
        setRing s r { getRing s r with marks := (getRing s r).marks ++ entriesHolding s r (abortJob c) (abortSeq c) }) s

/-- What an abort comes to (R262). -/
def abortRun (s : State) (c : Cmd) : Out :=
  if abortJob c ≠ 0 ∧ (match findJob s (abortJob c) with | some j => j.sess == c.sess | none => false) = false then .stop stDenied 0 []
  else match abortTarget s c with
    | some x => if x.phase = .committed then .done { Stg.none with status := stTooLate } else .done Stg.none
    | none =>
      if !(ringsHolding s c.sess (abortJob c) (abortSeq c)).isEmpty then .done Stg.none
      else if s.ended.contains (c.sess, abortJob c, abortSeq c) then .done { Stg.none with status := stTooLate }
      else .stop stBad (badAt 24 0) []

/-- CMD_ABORT (R262). -/
def execCmdAbort (c : Nat) (s : State) : Host.Outcome State Fault Refusal := runOp 0xF05 abortRun abortEff c s

-- locks (R257, R263, R285 to R287) --------------------------------------------------------------------------------------

def grantFirst (c : Cmd) : Nat := fld (c.pkt.slot 0) 0 14
def grantCount (c : Cmd) : Nat := fld (c.pkt.slot 0) 16 15
def grantJob (c : Cmd) : Nat := fld (c.pkt.slot 0) 32 16
def grantRange (c : Cmd) : List Nat := (List.range (grantCount c)).map (· + grantFirst c)

/-- The cases in which LOCK_GRANT and LOCK_RELEASE are refused (R263), a lock of a fenced die among them (R476). -/
def grantDenied (s : State) (c : Cmd) : Bool :=
  grantJob c == 0 || (match findJob s (grantJob c) with | some j => j.sess != c.sess | none => true) ||
  (grantRange c).any (fun l => ((getLock s l).job != 0xFFFF && (getLock s l).job != grantJob c) || (getDie s (l / 2048)).fenced)

def grantRun (s : State) (c : Cmd) : Out := if grantDenied s c then .stop stDenied 0 [] else .done Stg.none
def ungrantRun (s : State) (c : Cmd) : Out :=
  if grantDenied s c then .stop stDenied 0 []
  else if (grantRange c).any (fun l => !(getLock s l).queue.isEmpty || (getLock s l).claimed != 0) then .stop stBad (badAt 24 0) []
  else .done Stg.none

/-- LOCK_GRANT: every free lock of the range is granted (R263). -/
def execLockGrant (c : Nat) (s : State) : Host.Outcome State Fault Refusal :=
  runOp 0xF06 grantRun
    (fun s c => (grantRange c).foldl (fun s l =>
      if (getLock s l).job = 0xFFFF then setLock s l { Lock.rest with job := grantJob c } else s) s) c s

/-- LOCK_RELEASE: the job's locks of the range become free; none may have a waiter or a claim (R263). -/
def execLockRelease (c : Nat) (s : State) : Host.Outcome State Fault Refusal :=
  runOp 0xF07 ungrantRun
    (fun s c => (grantRange c).foldl (fun s l => if (getLock s l).job = grantJob c then freeLock s l else s) s) c s

/-- A signal of a command towards a peer (R286): SIGNAL_LOST where the peer is lost. -/
def sendSignal (s : State) (c : Cmd) (peer l n : Nat) : State :=
  if s.domain.lost.contains peer then raiseCmd s c 0x17 (l + peer * 2 ^ 16) n 0
  else sendCmd s c peer mtLockSignal 7 [l, n] []

/-- LK_SIGNAL: a local TARGET is signalled by VALUE at commit (R257, R287), with the packet's own signal where both reach it together (R284); a
remote one is signalled at publication (R286). -/
def lkSignalEff (s : State) (c : Cmd) : State :=
  if doubleSignal s c then s
  else match lockHere s c (lkTarget c) with
    | some l => signalLock s l (lkValue c) c.pkt.job s.cfg.peerId (some c)
    | none => s

/-- A signal towards a peer needs the job's link secret (R415). -/
def lkSignalRun (s : State) (c : Cmd) : Out :=
  match signalTo s c.sess c.pkt.job (lkTarget c) with
  | .there _ _ => if hasLink s c.sess c.pkt.job then .done Stg.none else .stop stDenied 0 []
  | _ => .done Stg.none

/-- LK_SIGNAL (R257). -/
def execLkSignal (c : Nat) (s : State) : Host.Outcome State Fault Refusal := runOp 0x801 lkSignalRun lkSignalEff c s

/-- May an eligible LK_SET commit (R285)? -/
def lkSetReady (s : State) (c : Cmd) : Bool :=
  let k := getLock s (lkTarget c)
  let own := if c.claimed ∧ c.pkt.waitLock = lkTarget c then c.pkt.waitThresh else 0
  k.job != c.pkt.job || (k.claimed == own && (k.setters.head? == some c.id || !(k.setters.contains c.id)))

/-- The commit step of LK_SET after its own consumption and signal (R285, R287). -/
def lkSetEff (s : State) (c : Cmd) : State :=
  let l := lkTarget c
  let k := getLock s l
  if k.job = c.pkt.job then
    let rest := without k.setters c.id
    let s := setLock s l { k with count := lkValue c, setters := rest, setPending := !rest.isEmpty }
    reclaim (traceRec s (l / 2048) (lockRec s (some c) 3 l (lkValue c))) l
  else raise s (l / 2048) 0x16 c.pkt.job 0xFFFF 0 (l + s.cfg.peerId * 2 ^ 16) 0 0

/-- An eligible LK_SET commits once nothing is claimed and none became eligible before it. -/
def lkSetCommit (s : State) (c : Cmd) : State := if lkSetReady s c then commitWith lkSetEff s c else s

/-- LK_SET: it becomes eligible, SET_PENDING is 1, and it commits as soon as it may (R285). -/
def execLkSet (c : Nat) (s : State) : Host.Outcome State Fault Refusal :=
  .next (match findCmd s c with
    | none => s
    | some x =>
      if x.phase = .running ∧ x.pkt.clsOp = 0x802 then
        let k := getLock s (lkTarget x)
        let s := if k.job = x.pkt.job then setLock s (lkTarget x) { k with setPending := true, setters := k.setters ++ [c] } else s
        let x' := { x with phase := .staged }
        lkSetCommit (putCmd s x') x'
      else s)

/-- COUNT of a lock as it stands at a command's commit point, after the command's own consumption and signal. -/
def countAtCommit (s : State) (c : Cmd) (l : Nat) : Nat :=
  let k := getLock s l
  if c.pkt.waitThresh = 0 ∨ c.pkt.waitLock ≠ l then k.count
  else if sameLock s c = some l then min (k.count - c.pkt.waitThresh + c.pkt.sigInc) satMax else k.count - c.pkt.waitThresh

/-- LK_READ: the count in DETAIL; 0 with LOCK_DENIED where the lock is no longer the job's (R257, R285, R287). -/
def execLkRead (c : Nat) (s : State) : Host.Outcome State Fault Refusal :=
  runOp 0x803 (fun s c =>
      let l := lkTarget c
      .done { Stg.none with detail := if (getLock s l).job = c.pkt.job then countAtCommit s c l else 0 })
    (fun s c =>
      let l := lkTarget c
      if (getLock s l).job = c.pkt.job then s else raise s (l / 2048) 0x16 c.pkt.job 0xFFFF 0 (l + s.cfg.peerId * 2 ^ 16) 0 0) c s

/-- LK_NOP: the packet's own wait and signal only (R257). -/
def execLkNop (c : Nat) (s : State) : Host.Outcome State Fault Refusal := runOp 0x804 (fun _ _ => .done Stg.none) noEffect c s

def lkUses (p : Packet) : Option (List Use) :=
  if 1 ≤ p.op ∧ p.op ≤ 4 then some [.imm 0xFFFFFFFF0000FFFF, .zero, .zero, .zero, .zero] else none

/-- The rules of class 0x8 that no state decides (R257). -/
def lkRules (p : Packet) : List Flt :=
  let t := fld (p.slot 0) 0 16; let v := fld (p.slot 0) 32 32
  fltIf (if p.op = 1 then !(decide (t < 0x8000)) || v == 0
    else if p.op = 2 then !(decide (t < 0x4000))
    else if p.op = 3 then !(decide (t < 0x4000)) || v != 0
    else t != 0xFFFF || v != 0) (fltSlot 0)

-- loans (R204, R264, R417) ----------------------------------------------------------------------------------------------

def loanPeer (c : Cmd) : Nat := fld (c.pkt.slot 1) 16 12
def loanJob (c : Cmd) : Nat := fld (c.pkt.slot 1) 32 16
def loanSize (p : Packet) : Nat := fld (p.slot 1) 0 16 * 0x4000000

/-- The lowest free loan number. -/
def freeLoan (s : State) : Option Nat := (List.range 256).find? (fun n => (tfind s.loans n).isNone)

/-- Peers that a loan's bitmap names. -/
def bitmapPeers (bs : List Byte) : List Nat := (List.range 4096).filter (fun p => bit (fieldAt bs (p / 8) 1) (p % 8))

/-- What a LOAN_GRANT comes to (R204, R264). -/
def loanGrantRun (s : State) (c : Cmd) : Out :=
  if !(hasLink s c.sess (loanJob c)) || loanCuts s (localise s (descAddr (c.pkt.slot 0))).off (loanSize c.pkt) then .stop stDenied 0 []
  else match freeLoan s with
    | none => .stop stDenied 0 []
    | some n => .done { Stg.none with detail := n }

/-- Staged writes into a loan's range that are neither published nor discarded. -/
def loanStaged (s : State) (l : Loan) : Bool := s.remoteSt.any (fun r => overlap r.addr r.data.length l.base l.size)

/-- What a LOAN_RETURN comes to (R264). -/
def loanReturnRun (s : State) (c : Cmd) : Out :=
  match tfind s.loans (c.pkt.slot 0 % 256) with
  | none => .stop stBad (badAt 24 0) []
  | some l => if l.sess ≠ c.sess then .stop stDenied 0 []
    else if loanStaged s l then .hold c.aux else .done Stg.none

/-- LOAN_GRANT (R204, R264, R417): the loan is in force at its commit and DETAIL is its number. A range that a loan in
force already covers is refused, because each byte of it has its one writer (R203). -/
def execLoanGrant (c : Nat) (s : State) : Host.Outcome State Fault Refusal :=
  runOp 0xF08 loanGrantRun
    (fun s c =>
      let rd := if c.pkt.slot 2 = 0 then [] else bitmapPeers (rdStruct (asRead s c) c (descAddr (c.pkt.slot 2)) 512)
      let l : Loan :=
        { base := (localise s (descAddr (c.pkt.slot 0))).off, size := loanSize c.pkt, peer := loanPeer c, job := loanJob c,
          readers := rd, sess := c.sess, memKey := jobKey s c.sess (loanJob c), ending := false }
      { s with loans := tput s.loans c.detail l }) c s

/-- LOAN_RETURN: it waits until no staged write into the range remains, then ends the loan (R264). -/
def execLoanReturn (c : Nat) (s : State) : Host.Outcome State Fault Refusal :=
  runOp 0xF09 loanReturnRun
    (fun s c => { s with loans := tdel s.loans (c.pkt.slot 0 % 256) }) c s

-- slots of these class 0xF operations -------------------------------------------------------------------------------------

def jobUses (p : Packet) : Option (List Use) :=
  let one (u : Use) : Option (List Use) := some [u, .zero, .zero, .zero, .zero]
  if p.op = 1 then one (.raw 256 false)
  else if p.op = 2 then one (.imm 1)
  else if p.op = 3 ∨ p.op = 4 then one .zero
  else if p.op = 5 then one (.imm 0xFFFFFFFFFFFF)
  else if p.op = 6 ∨ p.op = 7 then one (.imm 0x0000FFFF7FFF3FFF)
  else if p.op = 8 then
    some [.raw (max 1 (loanSize p)) false, .imm 0x0000FFFF0FFFFFFF, if p.slot 2 = 0 then .zero else .raw 512 false, .zero, .zero]
  else if p.op = 9 then one (.imm 0xFF)
  else none

/-- The rules of these operations that no state decides (R263, R264, R292, R533). -/
def jobRules (p : Packet) : List Flt :=
  let g := descAddr (p.slot 0)
  if p.op = 1 then fltIf (!(g.tier == 0 || g.tier == 5) || g.off % 256 != 0) (fltSlot 0)
  else if p.op = 6 ∨ p.op = 7 then
    fltIf (fld (p.slot 0) 16 15 == 0 || decide (16384 < fld (p.slot 0) 16 15) || decide (16384 < fld (p.slot 0) 0 14 + fld (p.slot 0) 16 15)) (fltSlot 0)
  else if p.op = 8 then
    fltIf (g.tier != 0 || g.off % 0x4000000 != 0) (fltSlot 0) ++ fltIf (fld (p.slot 1) 0 16 == 0) (fltSlot 1)
  else []

end Sys2Proof.Machine
end

