-- ==== Sys2Proof/Machine/Modes.lean ====
section
/-! DEFINITION. Staged changes of mode (R313 to R320) and the power states that they carry (R495, R496). -/

set_option cleanup.letToHave false

namespace Sys2Proof.Machine

-- the block (R313, R314) -----------------------------------------------------------------------------------------------

/-- A mode block's fields. -/
structure ModeBlk where
  scope   : Nat
  epoch   : Nat
  barrier : Nat
  items   : List ModeItem
  deriving DecidableEq, Repr

def itemOf (bs : List Byte) : ModeItem := ⟨fieldAt bs 0 1, fieldAt bs 4 4⟩

/-- Is an item's VALUE one that R314 gives for its scope? -/
def itemOk (scope : Nat) (j : Option Job) (i : ModeItem) : Bool :=
  if scope = 1 then i.item == 0x10 && decide (i.value < 2)
  else if i.item = 1 then decide (i.value < 2) && (i.value == 0 || (match j with | some j => j.trapAddr != 0 | none => false))
  else if 2 ≤ i.item ∧ i.item ≤ 4 then decide (i.value < 2)
  else if i.item = 5 then decide (1 ≤ i.value) && decide (i.value ≤ 2000)
  else if i.item = 6 then decide (1 ≤ i.value) && decide (i.value ≤ 3600)
  else if i.item = 7 then decide (i.value < 8)
  else if i.item = 8 then decide (i.value < 2048) && !bit i.value 7
  else false

/-- A mode block from its 64 bytes, or none where it breaks R313 or R314. -/
def modeBlk (j : Option Job) (bs : List Byte) : Option ModeBlk :=
  let scope := fieldAt bs 0 1; let n := fieldAt bs 1 1; let bar := fieldAt bs 4 2
  let raw := chunks 8 7 (bs.drop 8)
  let items := (raw.take n).map itemOf
  if decide (scope < 2) && decide (1 ≤ n) && decide (n ≤ 7) && zeroAt bs 6 2 && (decide (bar < 0x4000) || bar == 0xFFFF) &&
      (raw.take n).all (fun r => zeroAt r 1 3) && (raw.drop n).all (fun r => zeroAt r 0 8) &&
      noDup (items.map ModeItem.item) && items.all (itemOk scope j) && (scope == 0 || (fieldAt bs 2 2 == 0 && bar == 0xFFFF)) then
    some ⟨scope, fieldAt bs 2 2, bar, items⟩
  else none

/-- The epoch after `e` (R313). -/
def nextEpoch (e : Nat) : Nat := if e = 65535 then 1 else e + 1

/-- The identity of a change: its job and target epoch, or the module (one change of scope 1 runs at a time, R314). -/
def changeId (scope job epoch : Nat) : Nat := if scope = 1 then 2 ^ 32 else job * 65536 + epoch

def findChange (s : State) (i : Nat) : Option Change := s.changes.find? (fun c => c.id == i)
def putChange (s : State) (c : Change) : State :=
  { s with changes := if s.changes.any (fun x => x.id == c.id) then s.changes.map (fun x => if x.id = c.id then c else x) else s.changes ++ [c] }

/-- A change whose STAGE arrives comes after those whose STAGE came earlier (R319). -/
def receiveChange (s : State) (c : Change) : State := { s with changes := s.changes.filter (fun x => !(x.id == c.id)) ++ [c] }

/-- Does a job's command priority table overflow (R314)? -/
def ringPrioFull (j : Job) (items : List ModeItem) : Bool :=
  items.any (fun i => i.item == 8 && !(j.ringPrio.any (fun e => e.1 == fld i.value 0 7)) && decide (16 ≤ j.ringPrio.length))

/-- Is a session privileged (R409)? -/
def privileged (s : State) (ses : Nat) : Bool := (getSes s ses).st == .opened && (getSes s ses).priv

/-- Does another change stand in the way of a MODE_STAGE (R314)? -/
def changeBusy (s : State) (c : Cmd) (scope : Nat) : Bool :=
  s.changes.any (fun x => x.scope == scope && (scope == 1 || x.job == c.pkt.job)) ||
  s.cmds.any (fun x => x.id != c.id && inUse x && x.pkt.clsOp == 0xF10 && (if scope = 1 then x.pkt.job == 0 else x.pkt.job == c.pkt.job))

/-- MODE_STAGE starts (R314, R533). -/
def modeStart (s : State) (c : Cmd) : StartRes :=
  let bs := rdStruct s c (descAddr (c.pkt.slot 0)) 64
  let j := findJob s c.pkt.job
  -- the JOB field is judged first, as a scope that a block can have asks (R252 check 6)
  if (fieldAt bs 0 1 = 0 ∧ c.pkt.job = 0) ∨ (fieldAt bs 0 1 = 1 ∧ c.pkt.job ≠ 0) then .stop stBad (badAt 2 0xFF) []
  else match modeBlk j bs with
  | none => badIn 0
  | some b =>
    if b.scope = 1 then
      if !(privileged s c.sess) then .stop stDenied 0xFE []
      else if changeBusy s c 1 then .wait
      else .go s c
    else match j with
      | none => .stop stDenied 0xFE []
      | some j =>
        if changeBusy s c 0 then .wait
        else if b.epoch ≠ nextEpoch j.epoch then badIn 0
        else if ringPrioFull j b.items ∨ (b.barrier ≠ 0xFFFF ∧ (getLock s b.barrier).job ≠ j.id) then .stop stDenied 0 []
        else if !j.peers.isEmpty && s.domain.keeper.isNone then .wait
        else .go s c

-- stages of a change (R315 to R318) ---------------------------------------------------------------------------------------

/-- Other modules of a job that are not lost (R315, R320). -/
def jobPeers (s : State) (j : Job) : List Nat := j.peers.filter (fun p => p != s.cfg.peerId && !(s.domain.lost.contains p))

/-- Words of a STAGE message's body: scope, job, epoch, barrier, items, and the modules of the job. -/
def stageBody (c : Change) : List Nat :=
  [c.scope, c.job, c.epoch, c.barrier, c.items.length] ++ (c.items.map (fun i => [i.item, i.value])).flatten ++ c.peers

/-- The coordinator sets T_apply once every ACK is in, and sends OPEN (R316). -/
def openChange (s : State) (i : Nat) : State :=
  match findChange s i with
  | none => s
  | some c =>
    if c.unacked.isEmpty ∧ c.tApply = none ∧ c.remote = none then
      let peers := c.peers.filter (fun p => !(s.domain.lost.contains p))
      let t := s.time + (if peers.isEmpty then 1000 else 1500 + 600 * (c.hops - 1))
      let s := putChange s { c with tApply := some t, holding := false }
      peers.foldl (fun s p => sendDom s p mtOpen [c.id, t]) s
    else s

/-- The coordinator stages a change on every unit (R315, R316): this module's units store it and acknowledge in the same
step; the wharf dies of another module acknowledge last there, so that their ACKs stand for that module. -/
def stageChange (s : State) (scope job epoch barrier : Nat) (items : List ModeItem) (peers : List Nat) (cmd : Option Nat) : State :=
  let c : Change :=
    { id := changeId scope job epoch, scope := scope, job := job, epoch := epoch, barrier := barrier, items := items, peers := peers, cmd := cmd,
      remote := none, t0 := s.time, unacked := (peers.map (fun p => [(p, 8), (p, 9)])).flatten, acked := true, ackAt := s.time,
      holding := !s.domain.locked, tApply := none, hops := 1 }
  let s := putChange s c
  let s := peers.foldl (fun s p => sendDom s p mtStage (stageBody c)) s
  openChange s c.id

/-- Is there a change of scope 1, or a MODE_STAGE that makes one? -/
def scope1Busy (s : State) : Bool :=
  s.changes.any (fun x => x.scope == 1) || s.cmds.any (fun x => inUse x && x.pkt.clsOp == 0xF10 && x.pkt.job == 0)

/-- The effective power state that the three requests ask for (R496). -/
def wantP1 (s : State) : Bool := s.power.sessionP1 || s.power.autoPower || s.power.autoTherm

/-- The module stages its own change of power state where the requests ask for another state (R496); while another change
of scope 1 runs it waits (R314, R510). -/
def autoChange (s : State) : State :=
  if ready s && wantP1 s != s.power.p1 && !(scope1Busy s) && s.power.retry.isNone then stageChange s 1 0xFFFF 0 0xFFFF [] [] none
  else s

/-- A MODE_STAGE's commit with a status. -/
def endModeCmd (s : State) (cmd : Option Nat) (status : Nat) : State :=
  match cmd with
  | none => s
  | some i => match findCmd s i with
    | some c => if inUse c then commitWith noEffect s { c with phase := .staged, status := status } else s
    | none => s

/-- A staged change leaves a module without effect (R317). -/
def dropChange (s : State) (c : Change) : State :=
  let s := { s with changes := s.changes.filter (fun x => !(x.id == c.id)) }
  let s := if c.scope = 1 ∧ c.cmd = none then { s with power := { s.power with retry := some (wantP1 s) } } else s
  autoChange (endModeCmd s c.cmd stIncomplete)

/-- One item applied to its job (R314, R320). -/
def applyItem (j : Job) (i : ModeItem) : Job :=
  if i.item = 1 then { j with trapArmed := i.value == 1 }
  else if i.item = 2 then { j with fallback := i.value == 1 }
  else if i.item = 3 then { j with verDrop := i.value == 1 }
  else if i.item = 4 then { j with residFp32 := i.value == 1 }
  else if i.item = 5 then { j with cap := i.value }
  else if i.item = 6 then { j with digestWin := i.value }
  else if i.item = 7 then { j with priority := i.value }
  else if i.item = 8 then
    let r := fld i.value 0 7; let p := fld i.value 8 3
    { j with ringPrio := if j.ringPrio.any (fun e => e.1 == r) then j.ringPrio.map (fun e => if e.1 = r then (r, p) else e) else j.ringPrio ++ [(r, p)] }
  else j

/-- EPOCH − current as a signed 16-bit value (R280). -/
def epochDiff (epoch current : Nat) : Int := signedOf 16 (epoch + 65536 - current)

/-- The MODE record of every die's trace block (R440): the epoch applied, and the job, 0xFFFF for the module. -/
def modeRecs (s : State) (job epoch : Nat) : State :=
  (List.range 10).foldl (fun s d => traceRec s d ⟨s.time, 11, job, 0xFFFF, 0xFFFF, 0, 0, 0, epoch⟩) s

/-- Every unit applies the staged mode in one instant (R316 steps 5 to 7). -/
def applyChange (s : State) (c : Change) : State :=
  let s := { s with changes := s.changes.filter (fun x => !(x.id == c.id)) }
  let s :=
    if c.scope = 1 then
      let ses := match c.items.find? (fun i => i.item == 0x10) with | some i => i.value == 1 | none => s.power.sessionP1
      let s := { s with modEpoch := (s.modEpoch + 1) % 65536, power := { s.power with sessionP1 := ses, retry := none } }
      modeRecs { s with power := { s.power with p1 := wantP1 s } } 0xFFFF s.modEpoch
    else
      let s := modeRecs (updJob s c.job (fun j => { c.items.foldl applyItem j with epoch := c.epoch })) c.job c.epoch
      let s := { s with cmds := s.cmds.map (fun x => if x.pkt.job = c.job then beginArrivalStall s x else x) }
      let s := endAll s stStale 0 (fun x => x.pkt.job == c.job && x.pkt.epoch != 0 && (x.phase == .waiting || x.phase == .placed) &&
        decide (epochDiff x.pkt.epoch c.epoch < 0))
      if c.barrier = 0xFFFF ∨ (findJob s c.job).isNone = true then s else signalLock s c.barrier 1 c.job s.cfg.peerId none
  let s := endModeCmd s c.cmd stDone
  if c.scope = 1 then autoChange s else s

-- rows --------------------------------------------------------------------------------------------------------------------

/-- MODE_STAGE: the coordinator sends STAGE; a job that runs on other modules is coordinated by the keeper (R315, R316). -/
def execModeStage (c : Nat) (s : State) : Host.Outcome State Fault Refusal :=
  .next (match findCmd s c with
    | none => s
    | some x =>
      if x.phase = .running ∧ x.pkt.clsOp = 0xF10 then
        match modeBlk (findJob s x.pkt.job) (rdStruct (asRead s x) x (descAddr (x.pkt.slot 0)) 64) with
        | none => endCmd s x stBad (badAt 0xFF 0)
        | some b =>
          let s := putCmd s { x with phase := .staged }
          let far := match findJob s x.pkt.job with | some j => b.scope == 0 && !j.peers.isEmpty && !s.domain.isKeeper | none => false
          if far then
            let k := match s.domain.keeper with | some k => k.1 | none => s.cfg.peerId
            let mods := match findJob s x.pkt.job with | some j => s.cfg.peerId :: jobPeers s j | none => []
            let g : Change :=
              { id := changeId 0 x.pkt.job b.epoch, scope := 0, job := x.pkt.job, epoch := b.epoch, barrier := b.barrier,
                items := b.items, peers := mods, cmd := some c, remote := some k, t0 := s.time, unacked := [], acked := false, ackAt := 0,
                holding := false, tApply := none, hops := 1 }
            sendDom (putChange s g) k mtStage (stageBody g)
          else
            let peers := match findJob s x.pkt.job with | some j => jobPeers s j | none => []
            stageChange s b.scope (if b.scope = 1 then 0xFFFF else x.pkt.job) b.epoch b.barrier b.items peers (some c)
      else s)

/-- MODE_ACK_TIMEOUT: at t₀ + 10 ms the coordinator lacks an ACK and discards the change (R317). -/
def execModeAckTimeout (chg : Nat) (s : State) : Host.Outcome State Fault Refusal :=
  .next (match findChange s chg with
    | none => s
    | some c =>
      match c.unacked, c.remote, c.tApply with
      | u :: _, none, none =>
        let s := timeTo s (c.t0 + 10000000)
        let s := (c.peers.filter (fun p => !(s.domain.lost.contains p))).foldl (fun s p => sendDom s p mtDiscard [c.id]) s
        let s := raise (fire s 8 23) 8 0x19 c.job 0xFFFF 0 c.epoch (u.2 + u.1 * 2 ^ 16) 0
        dropChange s c
      | _, _, _ => s)

/-- STAGED_MODE_EXPIRY: a staged mode held for 20 ms without OPEN or DISCARD is dropped (R317). -/
def execStagedModeExpiry (chg : Nat) (s : State) : Host.Outcome State Fault Refusal :=
  .next (match findChange s chg with
    | none => s
    | some c =>
      if c.remote.isSome ∧ c.tApply = none then
        dropChange (timeTo s ((if c.acked then c.ackAt else c.t0) + 20000000)) c
      else s)

/-- MODE_START_HOLD: from 0.5 µs after its ACK a unit holds governed starts (R318). -/
def execModeStartHold (chg : Nat) (s : State) : Host.Outcome State Fault Refusal :=
  .next (match findChange s chg with
    | none => s
    | some c =>
      if c.acked ∧ c.tApply = none then
        let s := timeTo s (c.ackAt + 500)
        putChange s { c with holding := true }
      else s)

/-- MODE_APPLY: device time reaches T_apply (R316). -/
def execModeApply (chg : Nat) (s : State) : Host.Outcome State Fault Refusal :=
  .next (match findChange s chg with
    | none => s
    | some c => match c.tApply with
      | some t => applyChange (timeTo s t) c
      | none => s)

/-- POWER_CHANGE_RETRY: a change of the module's own that was abandoned is staged again while the hold is still in the same
state (R496). -/
def execPowerChangeRetry (s : State) : Host.Outcome State Fault Refusal :=
  .next (match s.power.retry with
    | none => s
    | some b =>
      if scope1Busy s then s
      else
        let s := { s with power := { s.power with retry := none } }
        if wantP1 s = b then autoChange s else s)

/-- Is the start of a command held by a staged change (R318)? -/
def startHeld (s : State) (c : Cmd) : Bool := s.changes.any (fun x => x.holding && (x.scope == 1 || x.job == c.pkt.job))

def modeUses : List Use := [.raw 64 false, .zero, .zero, .zero, .zero]
def modeRules (p : Packet) : List Flt :=
  let g := descAddr (p.slot 0)
  fltIf (!(g.tier == 0 || g.tier == 5) || g.off % 64 != 0) (fltSlot 0)

end Sys2Proof.Machine
end

