-- ==== Sys2Proof/Machine/Flight.lean ====
section
/-! DEFINITION. Flights: activation, push, pop and reads of the top entry (R98 to R107). -/

set_option cleanup.letToHave false

namespace Sys2Proof.Machine

/-- Bytes of a flight entry: header, planes, padded to 256 (R101). -/
def entryLen (e : FlightEntry) : Nat := 256 + roundUp e.data.length 256
def shapeLen (h : Shape) : Nat := 256 + roundUp (tensorBytes 0 h) 256

def sumNat (xs : List Nat) : Nat := xs.foldl (· + ·) 0

/-- Bytes on a flight, in the basin and spilled. -/
def flDepth (f : Flight) : Nat := sumNat (f.entries.map entryLen)
def flBasin (f : Flight) : Nat := sumNat ((f.entries.filter (fun e => !e.spilled)).map entryLen)
def flSpilled (f : Flight) : Nat := sumNat ((f.entries.filter (fun e => e.spilled)).map entryLen)

/-- Write a flight's control block at a commit that changes the flight (R99): the Software fields as FLIGHT_INIT took them,
over what software has written there since, and the Module fields. -/
def syncFlight (s : State) (a : Nat) (f : Flight) : State :=
  wrLocal s (jobKey s 0 f.job) a
    (leBytes 8 (GAddr.code ⟨1, 0, f.basinBase⟩) ++ leBytes 8 f.basinSize ++ leBytes 8 f.hbmBase ++ leBytes 8 f.hbmSize ++
     leBytes 8 (flDepth f) ++ leBytes 4 f.entries.length ++ leBytes 4 (f.entries.filter (fun e => e.spilled)).length ++
     leBytes 8 f.high ++ leBytes 2 f.job ++ leBytes 2 (match f.entries with | [] => 0xFFFF | e :: _ => e.layer) ++ zeros 4)

def putFlight (s : State) (a : Nat) (f : Flight) : State := syncFlight { s with flights := tput s.flights a f } a f

/-- Does a packet name a flight, and in which slot (R85, R86)? -/
def flightSlot (p : Packet) : Option Nat :=
  if p.cls = 1 then
    if p.op = 0x0C then some 3
    else if p.op = 0x0D ∨ p.op = 0x0E then some 0
    else if bit p.opcode 1 then (if p.op = 0x01 then some 3 else some 0)
    else none
  else none

/-- Push, pop or activation, which run one at a time on a flight (R103). -/
def flightChanges (p : Packet) : Bool := p.cls == 1 && (p.op == 0x0C || p.op == 0x0D || p.op == 0x0E || (p.op == 0x01 && bit p.opcode 1))

/-- The flight block that a packet names. -/
def flightAddr (p : Packet) : Nat := match flightSlot p with | some i => (descAddr (p.slot i)).off | none => 0

/-- Has a command started and not ended: its commit is not yet its end (R269, R276)? -/
def unended (c : Cmd) : Bool := inUse c || c.phase == .committed

/-- Does another command change the flight now (R103)? -/
def flightBusy (s : State) (c : Cmd) : Bool :=
  s.cmds.any (fun x => x.id != c.id && unended x && flightChanges x.pkt && flightAddr x.pkt == flightAddr c.pkt)

/-- Do commands that have read the top entry still run: until they have ended (R105)? -/
def topRead (s : State) (a : Nat) (f : Flight) : Bool :=
  s.cmds.any (fun x => unended x && (match x.flRead with | some (b, i, _) => b == a && i + 1 == f.entries.length | none => false))

/-- Spill the oldest basin-resident entries until `need` bytes of them have moved (R104); entries from the top down. -/
def spill (need : Nat) (es : List FlightEntry) : List FlightEntry :=
  (es.reverse.foldl (fun (a : Nat × List FlightEntry) e =>
    if a.1 = 0 ∨ e.spilled = true then (a.1, e :: a.2) else (a.1 - entryLen e, { e with spilled := true } :: a.2)) (need, [])).2

/-- Bring spilled entries back in reverse push order, as many as the free basin space holds (R106); from the top down. -/
def unspill (free : Nat) : List FlightEntry → List FlightEntry
  | [] => []
  | e :: es =>
    if e.spilled then (if entryLen e ≤ free then { e with spilled := false } :: unspill (free - entryLen e) es else e :: es)
    else e :: unspill free es

/-- The bytes of a tensor as an entry holds them: its element plane, its mordant plane at a 256-byte boundary (R101). -/
def planesOf (addr : Nat) (h : Shape) (bs : List Byte) : List Byte :=
  if narrow h.fmt4 then
    fitBytes (plane2 0 h) (bs.take (planeBytes h)) ++ bs.drop (plane2 addr h)
  else bs

/-- The slot of the tensor that a push copies. -/
def pushOpnd (c : Cmd) : Option Opnd := opnd c 0

/-- Events of a flight (R107, R471): the address of its block. -/
def flEvent (code : Nat) (c : Cmd) : CEvent := let a := (match flightSlot c.pkt with | some i => (descAddr (c.pkt.slot i)).code | none => 0); (code, a, a / 2 ^ 32, 0)

/-- The software fields of a control block (R99), checked by FLIGHT_INIT (R100). -/
def flightOf (job a : Nat) (bs : List Byte) : Option Flight :=
  let bb := gaddrOf (fieldAt bs 0 8); let bz := fieldAt bs 8 8
  let hb := gaddrOf (fieldAt bs 16 8); let hz := fieldAt bs 24 8
  let d := dieOfAddr a
  let okB := bb.tier == 1 && bb.peer == 0 && !bit (fieldAt bs 0 8) 60 && bb.off % 256 == 0 && bz % 256 == 0 && decide (4096 ≤ bz) &&
    decide (basinBase + d * 0x200000000 ≤ bb.off) && decide (bb.off + bz ≤ basinBase + (d + 1) * 0x200000000)
  let okH := hz == 0 || (hb.tier == 0 && hb.peer == 0 && !bit (fieldAt bs 16 8) 60 && hb.off % 256 == 0 && hz % 256 == 0 &&
    decide (d * 0x4000000000 ≤ hb.off) && decide (hb.off + hz ≤ (d + 1) * 0x4000000000))
  if okB && okH && zeroAt bs 60 4 && !(overlap bb.off bz a 64) then
    some { job := job, basinBase := bb.off, basinSize := bz, hbmBase := fieldAt bs 16 8, hbmSize := hz, entries := [], high := 0 }
  else none

/-- Flights of a job on a die: active, and those that a started FLIGHT_INIT will add (R98). -/
def flightsOn (s : State) (job d : Nat) : Nat :=
  (s.flights.filter (fun e => e.2.job == job && dieOfAddr e.1 == d)).length +
  (s.cmds.filter (fun x => inUse x && x.pkt.clsOp == 0x10E && x.pkt.job == job && dieOfAddr (flightAddr x.pkt) == d &&
    (tfind s.flights (flightAddr x.pkt)).isNone)).length

/-- The start of a command that names a flight (R98 to R107). A push reserves its space and spills at its start; the
control block is written only at a commit (R99, R104). -/
def flightStart (s : State) (c : Cmd) : StartRes :=
  match flightSlot c.pkt with
  | none => .go s c
  | some sl =>
    let a := flightAddr c.pkt
    if flightChanges c.pkt && flightBusy s c then .wait
    else if c.pkt.op = 0x0E then
      match flightOf c.pkt.job a (rdKey s (jobKey s c.sess c.pkt.job) a 64) with
      | none => badIn sl
      | some _ =>
        match tfind s.flights a with
        | some f => if f.job = c.pkt.job then .go s c else .stop stDenied sl []
        | none => if 16 ≤ flightsOn s c.pkt.job (dieOfAddr a) then .stop stDenied sl [] else .go s c
    else
      match tfind s.flights a with
      | none => badIn sl
      | some f =>
        if f.job ≠ c.pkt.job then .stop stDenied sl []
        else if c.pkt.op = 0x0C ∨ c.pkt.op = 0x01 then
          match pushOpnd c with
          | none => badIn sl
          | some o =>
            let len := shapeLen o.sh
            let used := flBasin f
            let need := used + len - f.basinSize
            let es := spill need f.entries
            let f' := { f with entries := es }
            if f.basinSize < len ∨ (0 < need ∧ f.hbmSize < flSpilled f') then
              .stop stBad (badAt 0xFF sl) [flEvent 0x0D c]
            else .go { s with flights := tput s.flights a f' } { c with flPush := some (a, len) }
        else
          match f.entries with
          | [] => .stop stBad (badAt 0xFF sl) [flEvent 0x0E c]
          | e :: _ =>
            if e.layer ≠ c.pkt.layer then .stop stBad (badAt 0xFF sl) [flEvent 0x0F c]
            else if c.pkt.op = 0x0D then (if topRead s a f then .wait else .go s c)
            else
              match c.shapes.getD 0 none with
              | none => badIn sl
              | some h =>
                if h.fmt ≠ e.fmt ∨ tensorBytes 0 h ≠ e.data.length then badIn sl
                else if e.spilled then .wait
                else .go s { c with flRead := some (a, f.entries.length - 1, e.data) }

/-- The push at its command's commit (R102): the entry becomes the top entry. -/
def pushEff (s : State) (c : Cmd) : State :=
  match c.flPush, pushOpnd c with
  | some (a, _), some o =>
    match tfind s.flights a with
    | none => s
    | some f =>
      let bs := planesOf o.addr.off o.sh (cBytes s c o.addr (tensorBytes o.addr.off o.sh))
      let e : FlightEntry := ⟨c.pkt.layer, c.pkt.operator, c.pkt.seq, o.sh.fmt, o.sh.rows, o.sh.cols, bs, false⟩
      let f' := { f with entries := e :: f.entries }
      putFlight s a { f' with high := max f.high (flDepth f') }
  | _, _ => s

/-- FLIGHT_PUSH: push slot 0 (R102); its data was read when it started. -/
def execFlightPush (c : Nat) (s : State) : Host.Outcome State Fault Refusal :=
  runOp 0x10C (fun _ _ => .done Stg.none) pushEff c s

/-- The pop at its commit: the top entry goes, and where the new top entry lies in the overflow region, spilled entries come
back (R106). -/
def popEff (s : State) (c : Cmd) : State :=
  let a := flightAddr c.pkt
  match tfind s.flights a with
  | none => s
  | some f =>
    let f' := { f with entries := f.entries.tail }
    let back := match f'.entries with | e :: _ => e.spilled | [] => false
    putFlight s a (if back then { f' with entries := unspill (f.basinSize - flBasin f') f'.entries } else f')

/-- FLIGHT_POP: remove the top entry; an entry with readers in flight is held (R105, R106). -/
def execFlightPop (c : Nat) (s : State) : Host.Outcome State Fault Refusal :=
  runOp 0x10D (fun s c =>
    match tfind s.flights (flightAddr c.pkt) with
    | none => .done Stg.none
    | some f => if topRead s (flightAddr c.pkt) f then .hold c.aux else .done Stg.none) popEff c s

/-- Activation at commit: entries held are discarded, the Module fields cleared, JOB set (R100). -/
def initEff (s : State) (c : Cmd) : State :=
  let a := flightAddr c.pkt
  match flightOf c.pkt.job a (memRead c.snapMem a 64) with
  | none => s
  | some f => putFlight s a f

/-- FLIGHT_INIT: activate a flight (R99, R100). -/
def execFlightInit (c : Nat) (s : State) : Host.Outcome State Fault Refusal :=
  runOp 0x10E (fun _ _ => .done Stg.none) initEff c s

end Sys2Proof.Machine
end

