-- ==== Sys2Proof/Machine/Func.lean ====
section
/-! DEFINITION. The elementary functions outside heritage mode (R61, R530, R532): the exact value to far more than the
precision of any format, and a result that is any code within the rating. -/

set_option cleanup.letToHave false

namespace Sys2Proof.Machine

/-- Bits of the fixed-point work below: errors lie near 2⁻⁵⁰⁰. -/
def fxP : Nat := 520
def fxOne : Int := (2 ^ fxP : Nat)

/-- A rational in fixed point. -/
def fxOf (q : Int × Nat) : Int := q.1 * fxOne / (q.2 : Int)
def fxMul (a b : Int) : Int := a * b / fxOne

/-- Σ x^k / k! to `n` terms, from the inside out. -/
def fxExpSeries (x : Int) : Nat → Nat → Int
  | 0, _ => fxOne
  | n + 1, k => fxOne + fxMul x (fxExpSeries x n (k + 1)) / (k : Int)

/-- atanh series: t + t³/3 + … to `n` terms. -/
def fxAtanh (t : Int) : Nat → Nat → Int → Int
  | 0, _, _ => 0
  | n + 1, k, p => p / (k : Int) + fxAtanh t n (k + 2) (fxMul p (fxMul t t))

def fxLn2 : Int := 2 * fxAtanh (fxOne / 3) 170 1 (fxOne / 3)

/-- arctan of 1/m. -/
def fxAtanInv (m : Nat) : Nat → Nat → Int → Int
  | 0, _, _ => 0
  | n + 1, k, p => p / (k : Int) - fxAtanInv m n (k + 2) (p / ((m * m : Nat) : Int))

/-- π by Machin's formula. -/
def fxPi : Int := 16 * fxAtanInv 5 120 1 (fxOne / 5) - 4 * fxAtanInv 239 40 1 (fxOne / 239)

/-- 2^(n) times a fixed-point number, as a fraction. -/
def fxScale (x n : Int) : Int × Nat :=
  if 0 ≤ n then (x * (2 ^ n.toNat : Nat), 2 ^ fxP) else (x, 2 ^ (fxP + (-n).toNat))

/-- e^q for |q| ≤ 1200. -/
def expQ (q : Int × Nat) : Int × Nat :=
  let n := (q.1 * fxOne * 2 / ((q.2 : Int) * fxLn2) + 1) / 2
  let r := fxOf q - n * fxLn2
  fxScale (fxExpSeries r 110 1) n

/-- ln of a positive fraction, in fixed point. -/
def lnQ (n d : Nat) : Int :=
  let e := log2Q n d
  let m := mulPow (n, d) (-e)
  let m' : Nat × Nat := if m.2 * 3 < m.1 * 2 then (m.1, m.2 * 2) else m
  let e' := if m.2 * 3 < m.1 * 2 then e + 1 else e
  let t := fxOf ((m'.1 : Int) - m'.2, m'.1 + m'.2)
  2 * fxAtanh t 130 1 t + e' * fxLn2

/-- Σ (−1)ⁿ zⁿ / (n! (2n + 1)), by terms. -/
def fxErf (z : Int) : Nat → Nat → Int → Int
  | 0, _, _ => 0
  | n + 1, k, p => p / ((2 * k + 1 : Nat) : Int) + fxErf z n (k + 1) (-(fxMul p z) / ((k + 1 : Nat) : Int))

/-- An exact or nearly exact value of a function: fraction, and whether it is exact. -/
structure FVal where
  q     : Int × Nat
  exact : Bool
  deriving DecidableEq, Repr

/-- Clamp the argument of an exponential to where every format has overflowed or underflowed. -/
def clampQ (q : Int × Nat) (b : Int) : Int × Nat :=
  if ltQ (b, 1) q then (b, 1) else if ltQ q (-b, 1) then (-b, 1) else q

/-- 2^q. -/
def exp2Q (q : Int × Nat) : FVal :=
  let q := clampQ q 1300
  if q.1 % (q.2 : Int) = 0 then
    let n := q.1 / (q.2 : Int)
    ⟨if 0 ≤ n then ((2 ^ n.toNat : Nat), 1) else (1, 2 ^ (-n).toNat), true⟩
  else
    let n := q.1 / (q.2 : Int)
    let f := fxOf (q.1 - n * q.2, q.2)
    ⟨fxScale (fxExpSeries (fxMul f fxLn2) 110 1) n, false⟩

/-- The value of a function of class 0x2 by its code at a finite operand inside its domain where the result is finite
(R109): 0x0A RSQRT to 0x12 ERF. -/
def funcVal (op : Nat) (x : Int × Nat) : FVal :=
  if op = 0x0A then let v := sqrtQ x.1.toNat x.2; ⟨((v.2 : Int), v.1), v.1 * v.1 * x.2 == x.1.toNat * v.2 * v.2⟩
  else if op = 0x0B then ⟨(if 0 < x.1 then (x.2 : Int) else -(x.2 : Int), x.1.natAbs), true⟩
  else if op = 0x0C then (if x.1 = 0 then ⟨(1, 1), true⟩ else ⟨expQ (clampQ x 1200), false⟩)
  else if op = 0x0D then exp2Q x
  else if op = 0x0E then (if x.1 = x.2 then ⟨(0, 1), true⟩ else ⟨(lnQ x.1.toNat x.2, 2 ^ fxP), false⟩)
  else if op = 0x0F then
    let e := log2Q x.1.toNat x.2
    let m := mulPow (x.1.toNat, x.2) (-e)
    if m.1 = m.2 then ⟨(e, 1), true⟩ else ⟨(lnQ x.1.toNat x.2 * fxOne / fxLn2, 2 ^ fxP), false⟩
  else if op = 0x10 then
    if x.1 = 0 then ⟨(0, 1), true⟩
    else if ltQ (absQ x) (1, 2 ^ 120) then ⟨subQ x (x.1 * x.1 * x.1, 3 * x.2 * x.2 * x.2), false⟩
    else
      let a := clampQ (absQ x) 300
      let g := expQ (-(2 * a.1), a.2)
      let r := ((g.2 : Int) - g.1, ((g.2 : Int) + g.1).toNat)
      ⟨if x.1 < 0 then (-r.1, r.2) else r, false⟩
  else if op = 0x11 then
    if x.1 = 0 then ⟨(1, 2), true⟩
    else
      let g := expQ (clampQ (-x.1, x.2) 1200)
      ⟨((g.2 : Int), ((g.2 : Int) + g.1).toNat), false⟩
  else
    if x.1 = 0 then ⟨(0, 1), true⟩
    else if leQ (8, 1) (absQ x) then ⟨(if x.1 < 0 then -(2 ^ 90 - 1) else 2 ^ 90 - 1, 2 ^ 90), false⟩
    else
      let z := fxOf (mulQ x x)
      let sr := isqrt (fxPi.toNat * 2 ^ fxP)
      ⟨mulQ x (2 * fxErf z 400 0 fxOne, sr), false⟩

/-- The spacing of a format's codes at a magnitude (R61: ulp of the result). -/
def ulpAt (f : Nat) (q : Int × Nat) : Int × Nat :=
  let l := layOf f
  let e := if q.1 = 0 then (1 : Int) - l.bias else log2Q q.1.natAbs q.2
  let e := if e < 1 - (l.bias : Int) then 1 - (l.bias : Int) else e
  let p := mulPow (1, 1) (e - l.fb)
  ((p.1 : Int), p.2)

/-- The result of a rated function in its working format: a free code within `k` ulp of the exact value (R61), which is
bound no closer where it is itself a value of the format (notes/assumptions/14); flags of R530. -/
def rated (ctx : List Nat) (f op k : Nat) (x : Num) (v : FVal) : Res :=
  -- a zero result keeps the operand's sign where the function is odd
  let zs := x.isNeg && (op == 0x0B || op == 0x10 || op == 0x12)
  let w := writeWide f 2 .nearest (ofQ zs v.q)
  if decodeWide f w.code |>.isInf then ⟨.inf (decide (v.q.1 < 0)), flOverflow + flInexact, none⟩
  else
    let cand := saneCode f (Config.freeFunc (ctx ++ [op, f] ++ x.key))
    let cv := decodeWide f cand
    let u := ulpAt f v.q
    let good := cv.isFin && leQ (absQ (subQ cv.toQ v.q)) (mulQ ((k : Int), 1) u)
    let y := if good then cv else decodeWide f w.code
    let diff := !(v.exact && (subQ y.toQ v.q).1 == 0)
    let tiny := v.q.1 != 0 && (roundMag (layOf f) .nearest (decide (v.q.1 < 0)) v.q.1.natAbs v.q.2).tiny
    ⟨y, (if diff then flInexact else 0) ||| (if tiny then flUnderflow ||| flInexact else 0), none⟩

/-- A rated function at any operand (R47, R61, R73, R530): NaN, the domain, the infinities, then `rated`. -/
def funcRes (ctx : List Nat) (f op : Nat) (x : Num) : Res :=
  match propagate [x] with
  | some r => r
  | none =>
    let k := if op ≤ 0x0F then 1 else 2
    match x with
    | .inf neg =>
      let lim := fun (q : Int) => rated ctx f op k x ⟨(q, 1), true⟩
      if op = 0x0A then (if neg then .invalid 3 else lim 0)
      else if op = 0x0B then lim 0
      else if op = 0x0C ∨ op = 0x0D then (if neg then lim 0 else .ok (.inf false))
      else if op = 0x0E ∨ op = 0x0F then (if neg then .invalid 3 else .ok (.inf false))
      else if op = 0x11 then lim (if neg then 0 else 1)
      else lim (if neg then -1 else 1)
    | _ =>
      if x.isZero then
        if op = 0x0A ∨ op = 0x0B then ⟨.inf x.isNeg, flDivZero, none⟩
        else if op = 0x0E ∨ op = 0x0F then ⟨.inf true, flDivZero, none⟩
        else rated ctx f op k x (funcVal op (0, 1))
      else if x.isNeg && (op == 0x0A || op == 0x0E || op == 0x0F) then .invalid 3
      else rated ctx f op k x (funcVal op x.toQ)

end Sys2Proof.Machine
end

