-- ==== Sys2Proof/Machine/Vector.lean ====
section
/-! DEFINITION. The vector engine: class 0x2 (R108 to R111, R531, R532). -/

set_option cleanup.letToHave false

namespace Sys2Proof.Machine

/-- RND of the opcode flags (R111). -/
def rndOf (p : Packet) : Rnd :=
  match fld p.opcode 0 2 with
  | 0 => .nearest
  | 1 => .towardZero
  | 2 => .towardPositive
  | _ => .towardNegative

def veFunc (op : Nat) : Bool := decide (0x0A ≤ op) && decide (op ≤ 0x12)
/-- Reductions that give one result per row (R531). -/
def veRows (op : Nat) : Bool := decide (0x20 ≤ op) && decide (op ≤ 0x24)
def veBinary (op : Nat) : Bool := op ∈ [0x01, 0x02, 0x03, 0x04, 0x06, 0x07, 0x19, 0x23]
def veKnown (op : Nat) : Bool :=
  (decide (1 ≤ op) && decide (op ≤ 0x12)) || op == 0x18 || op == 0x19 || (decide (0x20 ≤ op) && decide (op ≤ 0x25))

/-- The slot of the output (R531). -/
def veOut (op : Nat) : Nat := if op = 0x05 then 3 else 2
def veIns (op : Nat) : List Nat := if op = 0x05 then [0, 1, 2] else if veBinary op then [0, 1] else [0]

/-- Working format (R532) of the operations that have one: FP64 if any operand or the output is FP64. -/
def veWork (hs : List Shape) : Nat := if hs.any (fun h => h.fmt4 == 1) then 1 else 0

-- element-wise ------------------------------------------------------------------------------------------------------

/-- The exact element operations (R532), one rounding to come. -/
def veExact (op : Nat) (r : Rnd) (xs : List Num) : Res :=
  let a := xs.getD 0 qnan; let b := xs.getD 1 qnan; let c := xs.getD 2 qnan
  if op = 0x01 ∨ op = 0x19 then numAdd r a b
  else if op = 0x02 then numSub r a b
  else if op = 0x03 then numMul a b
  else if op = 0x04 then numDiv a b
  else if op = 0x05 then numFma r a b c
  else if op = 0x06 then numMax a b
  else if op = 0x07 then numMin a b
  else if op = 0x08 then .ok a.abs
  else if op = 0x09 then numSqrt a
  else .ok (match a with | .nan _ _ _ => a.quiet | _ => a)

/-- Signaling NaN operands of CONVERT raise invalid (R46); R530 asks no flag of a NaN that converts to a NaN. -/
def vePlain (ctx : List Nat) (f op : Nat) (r : Rnd) (xs : List Num) : El :=
  if veFunc op then El.ofRes (funcRes ctx f op (xs.getD 0 qnan)) else El.ofRes (veExact op r xs)

/-- Heritage mode (R62, R65): results of arithmetic are rounded to FP32, ties to even, and a subnormal one is flushed;
comparisons, ABS and conversions move values (notes/assumptions/21). -/
def veHeritage (op : Nat) (r : Rnd) (xs : List Num) : El :=
  if veFunc op then
    let x := xs.getD 0 qnan
    let w := writeWide 0 2 .nearest x
    let y := heritageFunc op w.code
    ⟨v32 y.1.code, (match x with | .nan _ _ _ => 0 | _ => w.fl) ||| y.1.fl, y.2.1, y.2.2⟩
  else if op ∈ [0x06, 0x07, 0x08, 0x18] then El.ofRes (veExact op r xs)
  else
    let x := veExact op .nearest xs
    let w := writeWide 0 2 .nearest x.val
    let f := hFlush w.code
    ⟨v32 f.1, x.fl ||| w.fl, x.cause, f.2⟩

-- rows --------------------------------------------------------------------------------------------------------------

/-- NaN in the inputs of a reduction (R47): every result of the row is NaN, declared if any input is. -/
def rowNan (xs : List Num) : Option Res :=
  if xs.any Num.isNan then
    some ⟨if xs.any Num.isDeclared then declaredNan else qnan, if xs.any Num.isSig then flInvalid else 0, none⟩
  else none

/-- Largest or smallest of a row (exact). -/
def rowBest (mx : Bool) : List Num → Num
  | [] => qnan
  | x :: xs => xs.foldl (fun b y => (if mx then numMax b y else numMin b y).val) x

/-- A 2-norm within R61's relative bound in the working format. -/
def norm2 (f : Nat) (ctx : List Nat) (xs : List Num) : Res :=
  match rowNan xs with
  | some r => r
  | none =>
    if xs.any Num.isInf then .ok (.inf false)
    else
      let qs := xs.map (fun x => mulQ x.toQ x.toQ)
      let ss := sumQ qs
      let rt := sqrtQ ss.1.toNat ss.2
      let ex : Int × Nat := ((rt.1 : Int), rt.2)
      let n := xs.length
      let tiny := mayUnderflow f true qs
      let bnd := addQ (ex.1 * (clog2 n + 3), ex.2 * 2 * 2 ^ ulpExp f) (if tiny then ((n : Int), 2 ^ 149) else (0, 1))
      let key := ctx ++ (xs.map Num.key).flatten
      let e := writeWide f 2 .nearest (ofQ false ex)
      if ss.1 = 0 then .ok (.fin false 0 1)
      else
        let c := bounded f key ex bnd (exceeds f ss)
        ⟨decodeWide f c, freeFl key (exceeds f ss) tiny |||
          (if c = e.code && e.fl = 0 then 0 else flInexact), none⟩

/-- The terms of a dot product: exact products; 0 · ∞ is invalid (R73 cause 1). -/
def dotRes (f : Nat) (ctx : List Nat) (a b : List Num) : Res :=
  match rowNan (a ++ b) with
  | some r => r
  | none =>
    let ps := (a.zip b).map (fun p => numMul p.1 p.2)
    match ps.find? (fun p => p.cause.isSome) with
    | some p => p
    | none => sumTerms f ctx (ps.map Res.val) (clog2 ps.length + 1) ps.length

/-- One row of SOFTMAX (R109): the maximum subtracted, exponentials, their sum, the quotients, each step rounded in the
working format. An invalid difference makes the row's shared sum NaN, and with it every element (R47). -/
def softmaxRow (ctx : List Nat) (f : Nat) (xs : List Num) : List El :=
  match rowNan xs with
  | some r => xs.map (fun _ => El.ofRes r)
  | none =>
    let m := rowBest true xs
    let ds := xs.map (fun x => numSub .nearest x m)
    match ds.find? (fun d => d.cause.isSome) with
    | some d => xs.map (fun _ => El.ofRes d)
    | none =>
      let es := ds.map (fun d => let w := writeWide f 2 .nearest d.val
        let e := funcRes ctx f 0x0C (decodeWide f w.code); (⟨e.val, e.fl ||| w.fl, none⟩ : Res))
      let t := sumTerms f ctx (es.map Res.val) (clog2 xs.length) xs.length
      let fl := es.foldl (fun a e => a ||| e.fl) t.fl
      es.map (fun e => let q := numDiv e.val t.val
        let w := writeWide f 2 .nearest q.val
        ⟨decodeWide f w.code, fl ||| q.fl ||| w.fl, q.cause, false⟩)

/-- SOFTMAX in heritage mode: exponentials by h_exp, the sum in sequence (R65). -/
def softmaxHeritage (xs : List Num) : List El :=
  match rowNan xs with
  | some r => xs.map (fun _ => El.ofRes r)
  | none =>
    let m := rowBest true xs
    let ds := xs.map (fun x => numSub .nearest x m)
    match ds.find? (fun d => d.cause.isSome) with
    | some d => xs.map (fun _ => El.ofRes d)
    | none =>
      let es := ds.map (fun d => let w := writeWide 0 2 .nearest d.val
        let e := heritageFunc 0x0C w.code; (⟨v32 e.1.code, e.1.fl ||| w.fl, none⟩ : Res))
      let t := hSum (.fin false 0 1) (es.map Res.val)
      let fl := es.foldl (fun a e => a ||| e.fl) t.1.fl
      es.map (fun e => let q := numDiv e.val t.1.val
        let w := writeWide 0 2 .nearest q.val
        let z := hFlush w.code
        ⟨v32 z.1, fl ||| q.fl ||| w.fl, q.cause, z.2⟩)

/-- One result of a row reduction (R531, R532); heritage mode sums in sequence (R62, R63). -/
def rowResult (ctx : List Nat) (op f : Nat) (her : Bool) (a b : List Num) : El :=
  if op = 0x21 ∨ op = 0x22 then
    match rowNan a with
    | some r => El.ofRes r
    | none => El.of (rowBest (op == 0x21) a)
  else if her then
    match rowNan a with
    | some r => El.ofRes r
    | none =>
      if op = 0x24 then
        let t := hSum (.fin false 0 1) (a.map (fun x => (numMul x x).val))
        let q := numSqrt t.1.val
        let w := writeWide 0 2 .nearest q.val
        let z := hFlush w.code
        ⟨v32 z.1, t.1.fl ||| w.fl, t.1.cause, z.2⟩
      else
        let t := hSum (.fin false 0 1) a
        ⟨t.1.val, t.1.fl, t.1.cause, t.2⟩
  else if op = 0x20 then El.ofRes (sumTerms f ctx a (clog2 a.length) a.length)
  else if op = 0x23 then El.ofRes (dotRes f ctx a b)
  else El.ofRes (norm2 f ctx a)

-- the run -----------------------------------------------------------------------------------------------------------

/-- The mordant that a supplied plane gives block `j` of destination row `r` (R54). -/
def suppliedPlane (s : State) (c : Cmd) (slot : Nat) (o : Opnd) : Option (Nat → Nat → Nat) :=
  if c.pkt.slot slot = 0 then none
  else
    let g := descAddr (c.pkt.slot slot)
    let b := blockRange o.sh
    some (fun r j => fieldAt (cBytes s c (g.plus (r * rowBlocks o.sh + b.1)) b.2) (j - b.1) 1)

/-- Every operand of a class 0x2 command, far data included, then its elements. -/
def veRun (op : Nat) (s : State) (c : Cmd) : Out :=
  match opnd c (veOut op) with
  | none => badStart
  | some o =>
    let ins := (veIns op).filterMap (opnd c)
    let far := farNeeds s c (ins.map Opnd.range ++
      (if op = 0x18 ∧ c.pkt.slot 3 ≠ 0 then suppliedRanges (descAddr (c.pkt.slot 3)) o.sh else []))
    if far ≠ [] then .need far
    else
      let vs := ins.map (opVals s c)
      let f := veWork (o.sh :: ins.map Opnd.sh)
      let r := rndOf c.pkt
      let her := c.pkt.heritage
      let M := o.sh.vrows
      let N := o.sh.vcols
      let ctx := opKey c vs
      let els : List (List El) :=
        if veRows op then
          let a := vs.getD 0 []
          let b := vs.getD 1 []
          let rs := a.zipIdx.map (fun row =>
            rowResult (row.2 :: ctx) op f her row.1 ((List.range row.1.length).map (fun j => bcastAt b row.2 j)))
          if N = 1 then rs.map (fun x => [x]) else [rs]
        else if op = 0x25 then (vs.getD 0 []).zipIdx.map (fun row => if her then softmaxHeritage row.1 else softmaxRow (row.2 :: ctx) f row.1)
        else (List.range M).map (fun i => (List.range N).map (fun j =>
          let xs := vs.map (fun v => bcastAt v i j)
          -- ABS keeps every bit of a NaN only where the format stays (R47)
          let xs := if ins.any (fun x => x.sh.fmt4 != o.sh.fmt4) then xs.map (fun x => if op = 0x08 then x.quiet else x) else xs
          if her then veHeritage op r xs else vePlain (i :: j :: ctx) f op r xs))
      let sup := if op = 0x18 then suppliedPlane s c 3 o else none
      finishView s c 2 o r sup 0 els

-- acceptance --------------------------------------------------------------------------------------------------------

/-- The slots of class 0x2 (R531). -/
def veUses (p : Packet) (hs : List (Option Shape)) : Option (List Use) :=
  let op := p.op
  let t := Use.ten false fmtsVe
  let w := Use.ten true fmtsVe
  if !(veKnown op) then none
  else if op = 0x05 then some [t, t, t, w, .zero]
  else if veBinary op then some [t, t, w, .zero, .zero]
  else if op = 0x18 ∧ p.slot 3 ≠ 0 then
    some [t, .zero, w, .raw (match hs.getD 2 none with | some h => h.rows * rowBlocks h | none => 0) false, .zero]
  else some [t, .zero, w, .zero, .zero]

/-- Is an input's view broadcast to M × N (R110)? -/
def bcastOk (h : Shape) (m n : Nat) : Bool := (h.vrows == 1 || h.vrows == m) && (h.vcols == 1 || h.vcols == n)

/-- The rules of class 0x2 that need no memory read (R53, R54, R63, R64, R110, R111, R531). -/
def veRules (p : Packet) (hs : List (Option Shape)) : List Flt :=
  let op := p.op
  let out := veOut op
  match hs.getD out none with
  | none => []
  | some o =>
    let ins := (veIns op).filterMap (fun i => (hs.getD i none).map (fun h => (i, h)))
    let a := (hs.getD 0 none).getD o
    let all := o :: ins.map Prod.snd
    fltIf (fld p.opcode 0 2 != 0 && (!(o.fmt4 ∈ [0, 1, 3, 4]) || veFunc op || decide (0x20 ≤ op))) fltOpcode ++
    fltIf (p.heritage && (op == 0x23 || all.any heritageShapeBad)) fltOpcode ++
    (if veRows op then
        fltIf (!((o.vrows == a.vrows && o.vcols == 1) || (o.vrows == 1 && o.vcols == a.vrows))) (fltSlot out)
      else if op = 0x25 then fltIf (!(o.vrows == a.vrows && o.vcols == a.vcols)) (fltSlot out)
      else (ins.map (fun x => fltIf (!(bcastOk x.2 o.vrows o.vcols)) (fltSlot x.1))).flatten) ++
    (if op = 0x23 then
      fltIf (!(bcastOk ((hs.getD 1 none).getD a) a.vrows a.vcols)) (fltSlot 1) else []) ++
    fltIf (partBlock o) (fltSlot out) ++
    fltIf (op == 0x18 && p.slot 3 != 0 && !(narrow o.fmt4)) (fltSlot 3)

/-- Elements of the largest operand view (R109). -/
def veElems (hs : List (Option Shape)) : Nat :=
  (hs.filterMap id).foldl (fun m h => max m (h.vrows * h.vcols)) 0

/-- The figure of R308 for class 0x2, in cycles. -/
def veFigure (p : Packet) (hs : List (Option Shape)) : Nat × Nat :=
  let op := p.op
  let slow := veFunc op || op == 0x04 || op == 0x09 || op == 0x25
  let works := veFunc op || op ∈ [0x20, 0x23, 0x24, 0x25]
  let rate := (if slow then 16 else 64) / (if works && veWork (hs.filterMap id) == 1 then 4 else 1)
  (veElems hs + 48 * rate, rate)

/-- RES_ADD starts only with the job's residual format (R108), as it stands at the start (R320). -/
def resAddOk (s : State) (c : Cmd) : Bool :=
  match c.shapes.getD 2 none, findJob s c.pkt.job with
  | some h, some j => h.fmt4 == (if j.residFp32 then 0 else 3)
  | some h, none => h.fmt4 == 3
  | none, _ => false

-- rows of class 0x2 -------------------------------------------------------------------------------------------------

/-- ADD: C := A + B (R109). -/
def execAdd (c : Nat) (s : State) : Host.Outcome State Fault Refusal := runOp 0x201 (veRun 0x01) noEffect c s
/-- SUB: C := A − B. -/
def execSub (c : Nat) (s : State) : Host.Outcome State Fault Refusal := runOp 0x202 (veRun 0x02) noEffect c s
/-- MUL: C := A · B. -/
def execMul (c : Nat) (s : State) : Host.Outcome State Fault Refusal := runOp 0x203 (veRun 0x03) noEffect c s
/-- DIV: C := A / B. -/
def execDiv (c : Nat) (s : State) : Host.Outcome State Fault Refusal := runOp 0x204 (veRun 0x04) noEffect c s
/-- FMA: D := A · B + C. -/
def execFma (c : Nat) (s : State) : Host.Outcome State Fault Refusal := runOp 0x205 (veRun 0x05) noEffect c s
/-- MAX. -/
def execMax (c : Nat) (s : State) : Host.Outcome State Fault Refusal := runOp 0x206 (veRun 0x06) noEffect c s
/-- MIN. -/
def execMin (c : Nat) (s : State) : Host.Outcome State Fault Refusal := runOp 0x207 (veRun 0x07) noEffect c s
/-- ABS. -/
def execAbs (c : Nat) (s : State) : Host.Outcome State Fault Refusal := runOp 0x208 (veRun 0x08) noEffect c s
/-- SQRT. -/
def execSqrt (c : Nat) (s : State) : Host.Outcome State Fault Refusal := runOp 0x209 (veRun 0x09) noEffect c s
/-- RSQRT. -/
def execRsqrt (c : Nat) (s : State) : Host.Outcome State Fault Refusal := runOp 0x20A (veRun 0x0A) noEffect c s
/-- RECIP. -/
def execRecip (c : Nat) (s : State) : Host.Outcome State Fault Refusal := runOp 0x20B (veRun 0x0B) noEffect c s
/-- EXP. -/
def execExp (c : Nat) (s : State) : Host.Outcome State Fault Refusal := runOp 0x20C (veRun 0x0C) noEffect c s
/-- EXP2. -/
def execExp2 (c : Nat) (s : State) : Host.Outcome State Fault Refusal := runOp 0x20D (veRun 0x0D) noEffect c s
/-- LOG. -/
def execLog (c : Nat) (s : State) : Host.Outcome State Fault Refusal := runOp 0x20E (veRun 0x0E) noEffect c s
/-- LOG2. -/
def execLog2 (c : Nat) (s : State) : Host.Outcome State Fault Refusal := runOp 0x20F (veRun 0x0F) noEffect c s
/-- TANH. -/
def execTanh (c : Nat) (s : State) : Host.Outcome State Fault Refusal := runOp 0x210 (veRun 0x10) noEffect c s
/-- SIGMOID. -/
def execSigmoid (c : Nat) (s : State) : Host.Outcome State Fault Refusal := runOp 0x211 (veRun 0x11) noEffect c s
/-- ERF. -/
def execErf (c : Nat) (s : State) : Host.Outcome State Fault Refusal := runOp 0x212 (veRun 0x12) noEffect c s
/-- CONVERT: C := A in C's format, slot 3 naming a supplied mordant plane or nothing (R54, R109). -/
def execConvert (c : Nat) (s : State) : Host.Outcome State Fault Refusal := runOp 0x218 (veRun 0x18) noEffect c s
/-- RES_ADD: C := A + B (R108, R109). -/
def execResAdd (c : Nat) (s : State) : Host.Outcome State Fault Refusal := runOp 0x219 (veRun 0x19) noEffect c s
/-- SUM_ROWS (R531). -/
def execSumRows (c : Nat) (s : State) : Host.Outcome State Fault Refusal := runOp 0x220 (veRun 0x20) noEffect c s
/-- MAX_ROWS. -/
def execMaxRows (c : Nat) (s : State) : Host.Outcome State Fault Refusal := runOp 0x221 (veRun 0x21) noEffect c s
/-- MIN_ROWS. -/
def execMinRows (c : Nat) (s : State) : Host.Outcome State Fault Refusal := runOp 0x222 (veRun 0x22) noEffect c s
/-- DOT_ROWS. -/
def execDotRows (c : Nat) (s : State) : Host.Outcome State Fault Refusal := runOp 0x223 (veRun 0x23) noEffect c s
/-- NORM2_ROWS. -/
def execNorm2Rows (c : Nat) (s : State) : Host.Outcome State Fault Refusal := runOp 0x224 (veRun 0x24) noEffect c s
/-- SOFTMAX_ROWS. -/
def execSoftmaxRows (c : Nat) (s : State) : Host.Outcome State Fault Refusal := runOp 0x225 (veRun 0x25) noEffect c s

end Sys2Proof.Machine
end

