-- ==== Sys2Proof/Machine/Matrix.lean ====
section
/-! DEFINITION. The matrix engines: the products and covariance of class 0x1 (R81 to R97). -/

set_option cleanup.letToHave false

namespace Sys2Proof.Machine

def fmtsMe : List Nat := [0, 3, 4, 5, 6, 7]

/-- Weight-gradient operations, which read A transposed (R84). -/
def isWg (op : Nat) : Bool := op == 0x03 || op == 0x04 || op == 0x05
def accOf (p : Packet) : Bool := bit p.opcode 0
def flightOfOp (p : Packet) : Bool := bit p.opcode 1

/-- Rank of an input format for the rate class (R81). -/
def meRank (f : Nat) : Nat := if f = 7 then 0 else if f = 5 ∨ f = 6 then 1 else if f = 3 ∨ f = 4 then 2 else 3

/-- Output tile of a rate class (R81); COV uses the 16-bit tile except for FP32 (R97). -/
def meTile (op : Nat) (fs : List Nat) : Nat × Nat :=
  let r := fs.foldl (fun m f => max m (meRank f)) 0
  if r = 3 then (8, 8) else if op = 0x09 ∨ r = 2 then (16, 16) else if r = 1 then (32, 16) else (32, 32)

/-- Rows, columns and reduction length of a product: A, B views and whether they agree. -/
def meDims (op : Nat) (a b : Shape) : Nat × Nat × Nat × Bool :=
  if op = 0x01 then (a.vrows, b.vcols, a.vcols, a.vcols == b.vrows)
  else if op = 0x02 then (a.vrows, b.vrows, a.vcols, a.vcols == b.vcols)
  else (a.vcols, b.vcols, a.vrows, a.vrows == b.vrows)

/-- Bytes of a mask (R92). -/
def maskBytes (op m n : Nat) : Nat := if op = 0x04 then ceilDiv m 8 else ceilDiv m 128 * ceilDiv (ceilDiv n 128) 8

/-- Does a mask select element (i, j) of C (R92)? -/
def maskAt (op n : Nat) (bs : List Byte) (i j : Nat) : Bool :=
  if op = 0x04 then bit (fieldAt bs (i / 8) 1) (i % 8)
  else bit (fieldAt bs (i / 128 * ceilDiv (ceilDiv n 128) 8 + j / 128 / 8) 1) (j / 128 % 8)

/-- The values of the first input: the operand of slot 0, or the top entry of a flight under the shape of slot 0 (R105). -/
def meFirst (s : State) (c : Cmd) : List (List Num) :=
  match c.flRead, c.shapes.getD 0 none with
  | some (_, _, bs), some h => viewVals 0 h bs
  | _, _ => match opnd c 0 with | some o => opVals s c o | none => []

/-- Column `j` of a matrix, and its transpose. -/
def colOf (m : List (List Num)) (j : Nat) : List Num := m.map (fun r => r.getD j qnan)
def transp (m : List (List Num)) : List (List Num) := (List.range (m.headD []).length).map (colOf m)

/-- One element of a product (R61, R82, R88): exact products accumulated in FP32 onto `c0` within the bound, one rounding
for each group of 16; in heritage mode in sequence (R62). Of an element that meets both 0 · ∞ and ∞ − ∞ the cause recorded
is the first (R77 gives no order): DESIGN CHOICE (notes/assumptions/112). -/
def meElem (ctx : List Nat) (her : Bool) (c0 : Option Num) (xs ys : List Num) : El :=
  match rowNan (xs ++ ys ++ c0.toList) with
  | some r => El.ofRes { r with fl := 0 }
  | none =>
    let ps := (xs.zip ys).map (fun p => numMul p.1 p.2)
    match ps.find? (fun p => p.cause.isSome) with
    | some p => El.ofRes p
    | none =>
      if her then
        let t := hSum (c0.getD (.fin false 0 1)) (ps.map Res.val)
        ⟨t.1.val, t.1.fl, t.1.cause, t.2⟩
      else
        let k := ceilDiv xs.length 16 + 1
        El.ofRes (sumTerms 0 ctx (c0.toList ++ ps.map Res.val) k k)

/-- Segments of a row that a mask selects: first column and elements. -/
def maskRuns : Nat → List (Bool × El) → List (Nat × List El)
  | _, [] => []
  | j, (b, e) :: r =>
    match maskRuns (j + 1) r with
    | [] => if b then [(j, [e])] else []
    | (k, es) :: rest => if b then (if k = j + 1 then (j, e :: es) :: rest else (j, [e]) :: (k, es) :: rest) else (k, es) :: rest

/-- The ME that computes element (i, j) (R83): tiles that hold a selected element, numbered in row-major order. -/
def meOf (tile : Nat × Nat) (m n : Nat) (sel : Nat → Nat → Bool) (i j : Nat) : Nat :=
  let nt := ceilDiv n tile.2
  let live := fun (t : Nat) =>
    let r0 := t / nt * tile.1
    let c0 := t % nt * tile.2
    (List.range tile.1).any (fun a => (List.range tile.2).any (fun b =>
      decide (r0 + a < m) && decide (c0 + b < n) && sel (r0 + a) (c0 + b)))
  (((List.range (i / tile.1 * nt + j / tile.2)).filter live).length) % 2

/-- Tiles computed: T of R90, by the mask (R93). -/
def meTiles (tile : Nat × Nat) (m n : Nat) (sel : Nat → Nat → Bool) : Nat :=
  let nt := ceilDiv n tile.2
  ((List.range (ceilDiv m tile.1 * nt)).filter (fun t =>
    let r0 := t / nt * tile.1
    let c0 := t % nt * tile.2
    (List.range tile.1).any (fun a => (List.range tile.2).any (fun b =>
      decide (r0 + a < m) && decide (c0 + b < n) && sel (r0 + a) (c0 + b))))).length

/-- The common end of a product: trap (R73 to R77), or the elements written: all, or only the selected ones where a
mask leaves the rest of C as it is (R93). A heritage product runs whole on ME0 (R62 says one engine, not which): DESIGN
CHOICE (notes/assumptions/113). -/
def meFinish (s : State) (c : Cmd) (o : Opnd) (tile : Nat × Nat) (partial_ : Bool) (sel : Nat → Nat → Bool)
    (els : List (List El)) : Out :=
  let h := o.sh
  match (if trapArmed s c then firstNan h els else none) with
  | some (cause, x) =>
    let i := x / h.cols - h.row0
    let j := x % h.cols - h.col0
    .trap ⟨if c.pkt.heritage then 0 else meOf tile h.vrows h.vcols sel i j, cause, o.slot, x⟩
  | none =>
    let w := if partial_ then
        writeRuns o .nearest ((els.zipIdx.map (fun r =>
          (maskRuns 0 (r.1.zipIdx.map (fun e => (sel r.2 e.2, e.1)))).map (fun x => (r.2, x.1, x.2)))).flatten)
      else writeView o .nearest none els
    .done { Stg.none with writes := placeWrites s c w.writes, outs := [outOf c o w], ieee := w.fl }

/-- Does an update command run on a shard whose gradient accumulator the range cuts (R199)? -/
def gaccBusy (s : State) (c : Cmd) (g : GAddr) (n : Nat) : Bool :=
  let g := localise s g
  s.cmds.any (fun x => x.id != c.id && inUse x && x.pkt.cls == 6 && (x.pkt.op == 1 || x.pkt.op == 2 || x.pkt.op == 3) &&
    (match tfind s.shards (localise s (descAddr (x.pkt.slot 0))).off with
     | some h =>
       let q := localise s (gaddrOf h.gacc)
       q.tier == g.tier && q.peer == g.peer && overlap g.off n q.off (h.rows * h.cols * 4)
     | none => false))

/-- FWD, DGRAD and the WGRAD operations (R84, R88, R92, R93). -/
def meProduct (op : Nat) (s : State) (c : Cmd) : Out :=
  match opnd c 1, opnd c 2 with
  | some b, some o =>
    let acc := accOf c.pkt
    if acc && isWg op && gaccBusy s c o.addr (tensorBytes o.addr.off o.sh) then .hold [1]
    else
      let av := meFirst s c
      let bv := opVals s c b
      -- R199: after the wait, C is read as the update left it
      let cNow := if c.aux = [1] then { c with snapMem := viewMem s.mem s.keys (jobKey s c.sess c.pkt.job) } else c
      let cv := if acc then opVals s cNow o else []
      let rows := if isWg op then transp av else av
      let cols := if op = 0x02 then bv else transp bv
      let masked := op == 0x04 || op == 0x05
      let bs := if masked then cBytes s c (descAddr (c.pkt.slot 3)) (maskBytes op o.sh.vrows o.sh.vcols) else []
      let sel := fun (i j : Nat) => !masked || maskAt op o.sh.vcols bs i j
      let ctx := opKey c [av, bv, cv]
      let els := rows.zipIdx.map (fun x => cols.zipIdx.map (fun y =>
        if sel x.2 y.2 then
          meElem (x.2 :: y.2 :: ctx) c.pkt.heritage (if acc then some ((cv.getD x.2 []).getD y.2 qnan) else none) x.1 y.1
        else El.of (.fin false 0 1)))
      let fa := match c.shapes.getD 0 none with | some h => h.fmt4 | none => 0
      meFinish s c o (meTile op [fa, b.sh.fmt4]) (masked && acc) sel els
  | _, _ => badStart

-- covariance --------------------------------------------------------------------------------------------------------

/-- The covariance parameter block (R96): BETA, STRIDE, COL_FIRST; none where it breaks its limits. -/
def covParams (bs : List Byte) (d cols : Nat) : Option (Nat × Nat × Nat) :=
  let beta := fieldAt bs 0 4
  let v := decodeWide 0 beta
  let st := fieldAt bs 4 2
  let j0 := fieldAt bs 8 4
  let okB := v.isFin && (v.isZero || !v.isNeg) && ltQ v.toQ (1, 1)
  if okB && decide (1 ≤ st) && decide (st ≤ 256) && zeroAt bs 6 2 && zeroAt bs 12 4 && decide (j0 + cols ≤ d) then
    some (beta, st, j0)
  else none

/-- Rows of X that COV reads (R95). -/
def everyNth (n : Nat) (xs : List (List Num)) : List (List Num) := (xs.zipIdx.filter (fun x => x.2 % n == 0)).map Prod.fst

/-- The last steps of a factor element (R95): round(round(β · F) + round(w · S)), with the cause of an invalid sum. -/
def covStep (beta w : Rd) (fo S : Num) : Rd × Option Nat :=
  let r1 := roundRes 0 (numMul (v32 beta.code) fo)
  let r2 := roundRes 0 (numMul (v32 w.code) S)
  let sum := numAdd .nearest (v32 r1.code) (v32 r2.code)
  let r3 := roundRes 0 sum
  (⟨r3.code, r1.fl ||| r2.fl ||| r3.fl⟩, sum.cause)

/-- Does a computed factor element lie within the third bound of R61, for products `ps` over m rows? Where a step
overflows no bound holds; where one may underflow it is wider. -/
def covWithin (beta : Rd) (fo : Num) (ps : List Num) (y : Rd) : Bool :=
  let m := ps.length
  let b := (v32 beta.code).toQ
  let qs := ps.map Num.toQ
  let part := fun (f : Int × Nat) (t : Int × Nat) => addQ (mulQ b f) (let q := mulQ (subQ (1, 1) b) t; (q.1, q.2 * m))
  let mag := part (absQ fo.toQ) (sumQ (qs.map absQ))
  let tiny := bit y.fl 3 || mayUnderflow 0 false qs
  let bnd := addQ (scaleQ (ceilDiv m 16 + 3) 24 mag) (if tiny then ((ceilDiv m 16 + 4 : Nat), 2 ^ 149) else (0, 1))
  bit y.fl 2 || !((v32 y.code).isFin) || leQ (absQ (subQ (v32 y.code).toQ (part fo.toQ (sumQ qs)))) bnd

/-- One element of the factor slice (R95). The products and row groups of (i, j) are those of (j, i) (R97), so the free
choice is keyed by the pair without its order. The sum is free within the first bound of R61 as far as the element then
stays within the third; else it is the sum rounded once. With β = 0 the old element still enters, times 0, so that a NaN
or an infinity of F does not vanish: DESIGN CHOICE (notes/assumptions/114). -/
def covElem (beta w : Rd) (fo : Num) (i j : Nat) (xi xj : List Num) : El :=
  match rowNan (xi ++ xj ++ [fo]) with
  | some r => El.ofRes { r with fl := 0 }
  | none =>
    let ps := (xi.zip xj).map (fun p => numMul p.1 p.2)
    match ps.find? (fun p => p.cause.isSome) with
    | some p => El.ofRes p
    | none =>
      let k := ceilDiv xi.length 16 + 1
      let S := sumTerms 0 [0x109, min i j, max i j] (ps.map Res.val) k k
      match S.cause with
      | some _ => El.ofRes S
      | none =>
        let bf := numMul (v32 beta.code) fo
        match bf.cause with
        | some _ => El.ofRes bf
        | none =>
          let y := covStep beta w fo S.val
          let near := v32 (r32 (ofQ false (sumQ ((ps.map Res.val).map Num.toQ))))
          let z := if S.val.isFin && !(covWithin beta fo (ps.map Res.val) ⟨y.1.code, y.1.fl ||| S.fl⟩) then covStep beta w fo near else y
          ⟨v32 z.1.code, w.fl ||| S.fl ||| z.1.fl, z.2, false⟩

/-- COV (R95 to R97). -/
def meCov (s : State) (c : Cmd) : Out :=
  match opnd c 2 with
  | none => badStart
  | some o =>
    let xv := meFirst s c
    let d := (xv.headD []).length
    match covParams (cBytes s c (descAddr (c.pkt.slot 3)) 16) d o.sh.vcols with
    | none => .stop stBad (badAt 0xFF 3) []
    | some (beta, st, j0) =>
      let rows := everyNth st xv
      let m := rows.length
      let w := roundRes 0 (.ok (ofQ false (let q := subQ (1, 1) (v32 beta).toQ; (q.1, q.2 * m))))
      let fv := opVals s c o
      let cols := transp rows
      let els := (List.range d).map (fun i => (List.range o.sh.vcols).map (fun j =>
        covElem ⟨beta, 0⟩ w ((fv.getD i []).getD j qnan) i (j0 + j) (cols.getD i []) (cols.getD (j0 + j) [])))
      let fx := match c.shapes.getD 0 none with | some h => h.fmt4 | none => 0
      meFinish s c o (meTile 0x09 [fx]) false (fun _ _ => true) els

-- acceptance and start ----------------------------------------------------------------------------------------------

/-- The slots of class 0x1 (R85 to R87). -/
def meUses (p : Packet) (hs : List (Option Shape)) : Option (List Use) :=
  let op := p.op
  let t := Use.ten false fmtsMe
  let w := Use.ten true fmtsMe
  let first := if flightOfOp p then Use.flight fmtsMe else t
  let mn := match hs.getD 2 none with | some h => (h.vrows, h.vcols) | none => (0, 0)
  if op = 0x01 then some [t, t, w, (if flightOfOp p then .raw 64 false else .zero), .zero]
  else if op = 0x02 then some [t, t, w, .zero, .zero]
  else if op = 0x03 then some [first, t, w, .zero, .zero]
  else if op = 0x04 ∨ op = 0x05 then some [first, t, w, .raw (maskBytes op mn.1 mn.2) false, .zero]
  else if op = 0x09 then some [first, .zero, .ten true [0], .raw 16 false, .zero]
  else if op = 0x0C then some [t, .zero, .zero, .raw 64 false, .zero]
  else if op = 0x0D ∨ op = 0x0E then some [.raw 64 false, .zero, .zero, .zero, .zero]
  else none

/-- Slot read transposed (R87). -/
def meTransposed (op : Nat) : Option Nat := if op = 0x02 then some 1 else if isWg op ∨ op = 0x09 then some 0 else none

/-- A flight control block's descriptor: basin, aligned to 64 (R98). -/
def flBlockBad (x : Nat) : Bool := (descAddr x).tier != 1 || (descAddr x).off % 64 != 0

/-- The rules of class 0x1 that need no memory read (R53, R63, R64, R85, R87, R89, R96, R98). -/
def meRules (p : Packet) (hs : List (Option Shape)) : List Flt :=
  let op := p.op
  let sh := fun (i : Nat) => hs.getD i none
  let slots := (List.range 5).filter (fun i => p.slot i != 0)
  let tens := slots.filterMap (fun i => (sh i).map (fun h => (i, h)))
  fltIf (accOf p && !(op == 0x01 || op == 0x02 || isWg op)) fltOpcode ++
  fltIf (flightOfOp p && !(op == 0x01 || isWg op || op == 0x09)) fltOpcode ++
  fltIf (p.heritage && (!(op == 0x01 || op == 0x02 || op == 0x03) || tens.any (fun x => heritageShapeBad x.2))) fltOpcode ++
  (slots.map (fun i => fltIf (decide (2 < (descAddr (p.slot i)).tier)) (fltSlot i))).flatten ++
  (match meTransposed op with
   | some i => fltIf ((descAddr (p.slot i)).tier == 0) (fltSlot i) ++
      (match sh i with | some h => fltIf (h.fmt4 == 7 && h.row0 % 2 == 1) (fltSlot i) | none => [])
   | none => []) ++
  (tens.map (fun x => fltIf (x.2.fmt4 == 7 && x.2.col0 % 2 == 1) (fltSlot x.1))).flatten ++
  (match flightSlot p with | some i => fltIf (flBlockBad (p.slot i)) (fltSlot i) | none => []) ++
  (match sh 2 with
   | some o =>
     fltIf (partBlock o) (fltSlot 2) ++
     (if op = 0x09 then
        match sh 0 with
        | some x => fltIf (o.vrows != x.vcols) (fltSlot 2)
        | none => []
      else
        match sh 0, sh 1 with
        | some a, some b =>
          let d := meDims op a b
          fltIf (!d.2.2.2 || d.1 != o.vrows || d.2.1 != o.vcols || decide (16384 < d.1) || decide (16384 < d.2.1) ||
            decide (65536 < d.2.2.1)) (fltSlot 2)
        | _, _ => [])
   | none => [])

/-- Cycles of R90. -/
def meCycles (t k : Nat) : Nat := 64 + ceilDiv t 2 * k + 32

/-- The figure of R308 taken at acceptance for class 0x1, in cycles: R90 plus the push copy of R102 (512 bytes a cycle). -/
def meFigure (p : Packet) (hs : List (Option Shape)) : Nat :=
  let op := p.op
  let push := match hs.getD 0 none with | some h => ceilDiv (shapeLen h) 512 | none => 0
  match hs.getD 0 none, hs.getD 1 none with
  | some a, some b =>
    if op = 0x01 ∨ op = 0x02 ∨ op = 0x03 then
      let d := meDims op a b
      let t := meTile op [a.fmt4, b.fmt4]
      meCycles (ceilDiv d.1 t.1 * ceilDiv d.2.1 t.2) d.2.2.1 + (if op = 0x01 ∧ flightOfOp p = true then push else 0)
    else 0
  | _, _ => if op = 0x0C then push else 0

/-- The figure taken at start (R308) for masked products and COV, from the mask or parameters as read. -/
def meStartFigure (s : State) (c : Cmd) : Nat :=
  let op := c.pkt.op
  match c.shapes.getD 0 none, c.shapes.getD 2 none with
  | some a, some o =>
    if op = 0x04 ∨ op = 0x05 then
      match c.shapes.getD 1 none with
      | some b =>
        let bs := cBytes s c (descAddr (c.pkt.slot 3)) (maskBytes op o.vrows o.vcols)
        meCycles (meTiles (meTile op [a.fmt4, b.fmt4]) o.vrows o.vcols (maskAt op o.vcols bs)) a.vrows
      | none => 0
    else if op = 0x09 then
      let bs := cBytes s c (descAddr (c.pkt.slot 3)) 16
      let t := meTile op [a.fmt4]
      meCycles (ceilDiv o.vrows t.1 * ceilDiv o.vcols t.2) (ceilDiv a.vrows (max 1 (fieldAt bs 4 2)))
    else 0
  | _, _ => 0

/-- COV's parameter block, checked at start (R96, R252). -/
def covStartOk (s : State) (c : Cmd) : Bool :=
  match c.shapes.getD 0 none, c.shapes.getD 2 none with
  | some x, some o => (covParams (cBytes s c (descAddr (c.pkt.slot 3)) 16) x.vcols o.vcols).isSome
  | _, _ => false

-- rows --------------------------------------------------------------------------------------------------------------

/-- FWD: C := A · B, or C + A · B under ACC; under FLIGHT slot 0 is pushed (R84, R85). -/
def execFwd (c : Nat) (s : State) : Host.Outcome State Fault Refusal := runOp 0x101 (meProduct 0x01) pushEff c s
/-- DGRAD: C := A · Bᵀ. -/
def execDgrad (c : Nat) (s : State) : Host.Outcome State Fault Refusal := runOp 0x102 (meProduct 0x02) noEffect c s
/-- WGRAD: C := Aᵀ · B. -/
def execWgrad (c : Nat) (s : State) : Host.Outcome State Fault Refusal := runOp 0x103 (meProduct 0x03) noEffect c s
/-- WGRAD_ROWMASK: output rows selected by a mask (R92). -/
def execWgradRowmask (c : Nat) (s : State) : Host.Outcome State Fault Refusal := runOp 0x104 (meProduct 0x04) noEffect c s
/-- WGRAD_BLKMASK: output blocks selected by a mask (R92). -/
def execWgradBlkmask (c : Nat) (s : State) : Host.Outcome State Fault Refusal := runOp 0x105 (meProduct 0x05) noEffect c s
/-- COV: covariance accumulation into a factor slice (R95). -/
def execCov (c : Nat) (s : State) : Host.Outcome State Fault Refusal := runOp 0x109 meCov noEffect c s

end Sys2Proof.Machine
end

