-- ==== Sys2Proof/Machine/Roots.lean ====
section
/-! DEFINITION. The root engine: class 0x4 (R124 to R145). The procedures are written literally; the arithmetic whose
order the manual does not fix is any that keeps each dot product within (n + 1) · u of exact, the form of R61's root-engine
bounds (notes/assumptions/22). -/

set_option cleanup.letToHave false

namespace Sys2Proof.Machine

-- arithmetic in a working format -------------------------------------------------------------------------------------

abbrev Mat := List (List Num)

/-- One rounding in a working format, with all its flags. -/
def wRound (f : Nat) (x : Res) : Num × Nat := let w := writeWide f 2 .nearest x.val; (decodeWide f w.code, x.fl ||| w.fl)

/-- A sum of products whose order is free. -/
def wDot (f : Nat) (ctx : List Nat) (xs ys : List Num) : Num × Nat :=
  let ps := (xs.zip ys).map (fun p => numMul p.1 p.2)
  if ps.any (fun p => p.cause.isSome) then (qnan, flInvalid)
  else let r := sumTerms f ctx (ps.map Res.val) (ps.length + 1) ps.length; (r.val, r.fl)

/-- A matrix of values with flags, from a function of the place. -/
def wMat (rows cols : Nat) (g : Nat → Nat → Num × Nat) : Mat × Nat :=
  let m := (List.range rows).map (fun i => (List.range cols).map (g i))
  (m.map (fun r => r.map Prod.fst), m.foldl (fun a r => r.foldl (fun a x => a ||| x.2) a) 0)

def mAt (m : Mat) (i j : Nat) : Num := (m.getD i []).getD j qnan

def wMul (f : Nat) (ctx : List Nat) (a b : Mat) : Mat × Nat :=
  let bt := transp b
  wMat a.length bt.length (fun i j => wDot f (i :: j :: ctx) (a.getD i []) (bt.getD j []))

/-- The Frobenius norm: squares summed, one rounded root. -/
def wNorm (f : Nat) (ctx : List Nat) (xs : List Num) : Num × Nat :=
  let s := wDot f ctx xs xs
  let r := wRound f (numSqrt s.1)
  (r.1, s.2 ||| r.2)

def wFrob (f : Nat) (ctx : List Nat) (m : Mat) : Num × Nat := wNorm f ctx m.flatten

/-- The norm of a residual matrix that a result reports: within (1 + 2u) of the norm of its elements, as R61's root-engine bounds have it. -/
def wResid (f : Nat) (ctx : List Nat) (m : Mat) : Num × Nat :=
  let ps := m.flatten.map (fun x => (numMul x x).val)
  let t := sumTerms f ctx ps 1 0
  let r := wRound f (numSqrt t.val)
  (r.1, t.fl ||| r.2)

/-- M − I, each difference rounded. -/
def wMinusI (f : Nat) (m : Mat) : Mat × Nat :=
  wMat m.length m.length (fun i j => if i = j then wRound f (numSub .nearest (mAt m i j) (numOf 1)) else (mAt m i j, 0))

/-- M to the power 2 or 4 by squaring, and then times a matrix. -/
def wPowTimes (f : Nat) (ctx : List Nat) (p : Nat) (m x : Mat) : Mat × Nat :=
  let m2 := wMul f (1 :: ctx) m m
  let mp := if p = 4 then wMul f (2 :: ctx) m2.1 m2.1 else (m2.1, 0)
  let r := wMul f (3 :: ctx) mp.1 x
  (r.1, m2.2 ||| mp.2 ||| r.2)

def matFinite (m : Mat) : Bool := m.all (fun r => r.all Num.isFin)

/-- The fourth root of a dyadic n/d, inside the rounding interval of every format. -/
def root4Q (n d : Nat) : Nat × Nat :=
  let k := 160 + Nat.log2 d
  let N := n * d * d * d * 16 ^ k
  let r := isqrt (isqrt N)
  if r * r * r * r = N then (r, d * 2 ^ k) else (2 * r + 1, 2 * d * 2 ^ k)

-- the problem ---------------------------------------------------------------------------------------------------------

/-- Parameters of a root command (R125, R127, R143). -/
structure RootPar where
  deadline : Nat
  count    : Nat
  p        : Nat
  prec     : Nat
  maxIter  : Nat
  eps      : Nat
  tol      : Nat
  warm     : Bool
  abs      : Bool
  deriving DecidableEq, Repr

/-- One problem: global addresses and dimension (R128). -/
structure RootProb where
  input  : Nat
  output : Nat
  hdr    : Nat
  fset   : Nat
  dim    : Nat
  resAt  : Nat               -- home address of its result entry, local
  deriving DecidableEq, Repr

/-- What a problem comes to (R130): status, cause, result, iterations, residuals, damping. -/
structure RootRes where
  status  : Nat              -- 0 DONE, 0x11, 0x12
  cause   : Nat
  warmC   : Nat              -- warm-reject cause
  tolMiss : Bool
  x       : List Nat         -- FP32 codes of the output, row by row
  rho     : Nat
  iter    : Nat
  resid   : Nat
  lambda  : Nat
  fl      : Nat
  els     : List Num         -- the FP64 elements the output rounds (R72)
  deriving DecidableEq, Repr

def nanCode32 : Nat := 0x7FC00000
def declCode32 : Nat := 0x7FC00DEC

/-- An FP32 code of a value. -/
def to32 (x : Num) : Nat := (writeWide 0 2 .nearest x).code

def RootRes.ill (cause warmC iter resid lambda fl : Nat) : RootRes := ⟨0x12, cause, warmC, false, [], nanCode32, iter, resid, lambda, fl, []⟩

/-- damp (R132): the symmetrised, damped input and λ, or an ill-posed cause. -/
def damp (f : Nat) (ctx : List Nat) (A : Mat) (d eps : Nat) (abs : Bool) : Except Nat (Mat × Num × Nat) :=
  let S : Mat := (List.range d).map (fun i => (List.range d).map (fun j => mAt A (max i j) (min i j)))
  if !(matFinite S) then .error 1
  else
    let lam : Except Nat (Num × Nat) :=
      if abs then .ok (wRound f (.ok (v32 eps)))
      else
        let t := sumTerms f (0 :: ctx) ((List.range d).map (fun i => mAt S i i)) (d + 1) d
        if t.val.isZero || t.val.isNeg then .error 2
        else
          let q := wRound f (numDiv t.val (numOf d))
          let l := wRound f (numMul (v32 eps) q.1)
          .ok (l.1, t.fl ||| q.2 ||| l.2)
    match lam with
    | .error e => .error e
    | .ok (l, fl) =>
      let m := wMat d d (fun i j => if i = j then wRound f (numAdd .nearest (mAt S i i) l) else (mAt S i j, 0))
      .ok (m.1, l, fl ||| m.2)

/-- The state of the iteration. -/
structure NIter where
  x  : Mat
  m  : Mat
  rs : List Num              -- residuals, newest first
  k  : Nat
  fl : Nat
  deriving DecidableEq, Repr

/-- How an iteration ends: by its test, ill-posed, or cut off by the deadline. -/
inductive NEnd where
  | fin (s : NIter)
  | ill (cause : Nat) (s : NIter)
  | cut (s : NIter)

def numLt (a b : Num) : Bool := numLe a b && !(numLe b a)

/-- The iteration of R133, at most `n` more rounds. -/
def newtonLoop (f : Nat) (ctx : List Nat) (d p maxIter : Nat) (tol : Num) : Nat → NIter → NEnd
  | n, s =>
    if numLe (s.rs.headD qnan) tol ∨ maxIter ≤ s.k then .fin s
    else match n with
      | 0 => .cut s
      | n + 1 =>
        let c := s.k :: ctx
        let T := wMat d d (fun i j =>
          let a := wRound f (if i = j then numSub .nearest (numOf (p + 1)) (mAt s.m i j) else .ok (mAt s.m i j).neg)
          let b := wRound f (numDiv a.1 (numOf p))
          (b.1, a.2 ||| b.2))
        let x := wMul f (4 :: c) s.x T.1
        let m := wPowTimes f (5 :: c) p T.1 s.m
        let s1 : NIter := { s with x := x.1, m := m.1, k := s.k + 1, fl := s.fl ||| T.2 ||| x.2 ||| m.2 }
        if !(matFinite x.1) || !(matFinite m.1) then .ill 5 s1
        else
          let e := wMinusI f m.1
          let r := wFrob f (6 :: c) e.1
          let s2 : NIter := { s1 with rs := r.1 :: s.rs, fl := s1.fl ||| e.2 ||| r.2 }
          let g := fun (i : Nat) => s2.rs.getD i qnan
          if decide (3 ≤ s2.k) && numLt (g 1) (g 0) && numLt (g 2) (g 1) && numLt (g 3) (g 2) then .ill 4 s2
          else newtonLoop f ctx d p maxIter tol n s2

/-- A cold start (R133): none where it is not finite. -/
def coldStart (f : Nat) (ctx : List Nat) (d p : Nat) (A : Mat) : Option NIter × Nat :=
  let fr := wFrob f (7 :: ctx) A
  let z := wRound f (numDiv (numOf (p + 1)) (match fr.1 with | .fin s a b => .fin s (2 * a) b | y => y))
  match z.1 with
  | .fin false (n + 1) e =>
    let rt := if p = 4 then root4Q (n + 1) e else sqrtQ (n + 1) e
    let x0 := wRound f (.ok (.fin false rt.1 rt.2))
    let X : Mat := (List.range d).map (fun i => (List.range d).map (fun j => if i = j then x0.1 else .fin false 0 1))
    let M := wMat d d (fun i j => wRound f (numMul z.1 (mAt A i j)))
    let e := wMinusI f M.1
    let r := wFrob f (8 :: ctx) e.1
    let fl := fr.2 ||| z.2 ||| x0.2 ||| M.2 ||| e.2 ||| r.2
    if matFinite X && matFinite M.1 && r.1.isFin then (some ⟨X, M.1, [r.1], 0, fl⟩, fl) else (none, fl)
  | _ => (none, fr.2 ||| z.2)

/-- newton_root (R133): `rounds` bounds the iterations run before the deadline (none: no deadline cuts it).
`warmC` is the cause for which the header already rejected a warm start (R135); `xPrev` the previous root. -/
def newtonRoot (f : Nat) (ctx : List Nat) (A : Mat) (d : Nat) (q : RootPar) (warm : Bool) (warmC : Nat) (xPrev : Mat)
    (rounds : Option Nat) : RootRes :=
  match damp f (9 :: ctx) A d q.eps q.abs with
  | .error e => .ill e warmC 0 nanCode32 nanCode32 0
  | .ok (Ah, lam, fl0) =>
    let lamC := to32 lam
    let tol := v32 q.tol
    let w : Option NIter × Nat :=
      if warm then
        let m := wPowTimes f (10 :: ctx) q.p xPrev Ah
        let e := wMinusI f m.1
        let r := wFrob f (11 :: ctx) e.1
        let fl := m.2 ||| e.2 ||| r.2
        if r.1.isFin && numLt r.1 (numOf 1) then (some ⟨xPrev, m.1, [r.1], 0, fl⟩, fl) else (none, fl)
      else (none, 0)
    let warmC := if warm && w.1.isNone then 4 else warmC
    let st := match w.1 with | some x => (some x, 0) | none => coldStart f ctx d q.p Ah
    let fl1 := fl0 ||| w.2 ||| st.2
    match st.1 with
    | none => .ill 5 warmC 0 nanCode32 lamC fl1
    | some s0 =>
      match newtonLoop f ctx d q.p q.maxIter tol (rounds.getD q.maxIter) s0 with
      | .ill cause s => .ill cause warmC s.k (to32 (s.rs.headD qnan)) lamC (fl1 ||| s.fl)
      | .cut s => ⟨0x11, 0, warmC, false, [], nanCode32, s.k, to32 (s.rs.headD qnan), lamC, fl1 ||| s.fl, []⟩
      | .fin s =>
        let mid (i j : Nat) : Res :=
          let t := numAdd .nearest (mAt s.x (max i j) (min i j)) (mAt s.x (min i j) (max i j))
          { t with val := match t.val with | .fin g n e => .fin g n (2 * e) | y => y }
        let X := wMat d d (fun i j => wRound 0 (mid i j))
        let pw := wPowTimes f (12 :: ctx) q.p X.1 Ah
        let e := wMat d d (fun i j => wRound f (numSub .nearest (if i = j then numOf 1 else .fin false 0 1) (mAt pw.1 i j)))
        let r := wResid f (13 :: ctx) e.1
        let rho := writeWide 0 2 .nearest r.1
        ⟨0, 0, warmC, !(numLe (s.rs.headD qnan) tol), X.1.flatten.map to32, rho.code, s.k, to32 (s.rs.headD qnan), lamC,
          fl1 ||| s.fl ||| X.2 ||| pw.2 ||| e.2 ||| r.2 ||| rho.fl,
          ((List.range d).map (fun i => (List.range d).map (fun j => (mid i j).val))).flatten⟩

/-- One column of the factor (R134): the diagonal element and those below it, or none where the pivot fails. `L` holds
the columns already formed, first column first. -/
def cholCol (f : Nat) (ctx : List Nat) (A : Mat) (d j : Nat) (L : List (List Num)) : Option (List Num × Nat) :=
  let rowL := fun (i : Nat) => L.map (fun col => col.getD i qnan)
  let dot := fun (i : Nat) (t : Nat) =>
    let ps := ((rowL i).zip (rowL j)).map (fun p => (numMul p.1 p.2).val.neg)
    sumTerms f (t :: i :: j :: ctx) (mAt A (max i j) (min i j) :: ps) (ps.length + 1) (ps.length + 1)
  let q := dot j 0
  match q.val with
  | .fin false (n + 1) e =>
    let rt := sqrtQ (n + 1) e
    let l := wRound f (.ok (.fin false rt.1 rt.2))
    let below := (List.range d).map (fun i =>
      if i < j then (.fin false 0 1, 0)
      else if i = j then l
      else let t := dot i 1; let v := wRound f (numDiv t.val l.1); (v.1, t.fl ||| v.2))
    some (below.map Prod.fst, below.foldl (fun a x => a ||| x.2) q.fl)
  | _ => none

/-- The columns of L, from `j` on. -/
def cholCols (f : Nat) (ctx : List Nat) (A : Mat) (d : Nat) : Nat → Nat → List (List Num) → Nat → Option (List (List Num)) × Nat
  | 0, _, L, fl => (some L, fl)
  | n + 1, j, L, fl =>
    match cholCol f ctx A d j L with
    | none => (none, fl)
    | some c => cholCols f ctx A d n (j + 1) (L ++ [c.1]) (fl ||| c.2)

/-- One column of Y = L⁻¹ by forward substitution; `cols` are the columns of L. -/
def fwdSub (f : Nat) (ctx : List Nat) (cols : List (List Num)) (b : List Num) : Nat → Nat → List Num → Nat → List Num × Nat
  | 0, _, y, fl => (y, fl)
  | n + 1, i, y, fl =>
    let row := (cols.map (fun col => col.getD i qnan)).take i
    let ps := (row.zip y).map (fun p => (numMul p.1 p.2).val.neg)
    let t := sumTerms f (i :: ctx) (b.getD i qnan :: ps) (ps.length + 1) (ps.length + 1)
    let v := wRound f (numDiv t.val ((cols.getD i []).getD i qnan))
    fwdSub f ctx cols b n (i + 1) (y ++ [v.1]) (fl ||| t.fl ||| v.2)

/-- cholesky (R134). -/
def cholesky (f : Nat) (ctx : List Nat) (A : Mat) (d : Nat) (q : RootPar) (inverse : Bool) : RootRes :=
  match damp f (9 :: ctx) A d q.eps q.abs with
  | .error e => .ill e 0 0 nanCode32 nanCode32 0
  | .ok (Ah, lam, fl0) =>
    let lamC := to32 lam
    match cholCols f (14 :: ctx) Ah d d 0 [] 0 with
    | (none, fl) => .ill 3 0 0 nanCode32 lamC (fl0 ||| fl)
    | (some L, fl1) =>
      if inverse then
        -- the columns of Y = L⁻¹
        let ys := (List.range d).map (fun c =>
          fwdSub f (15 :: c :: ctx) L ((List.range d).map (fun i => if i = c then numOf 1 else .fin false 0 1)) d 0 [] 0)
        let Y := ys.map Prod.fst
        let Z := wMat d d (fun i j => wDot f (16 :: max i j :: min i j :: ctx) (Y.getD (max i j) []) (Y.getD (min i j) []))
        let X := wMat d d (fun i j => wRound 0 (.ok (mAt Z.1 i j)))
        let pw := wMul f (17 :: ctx) X.1 Ah
        let e := wMat d d (fun i j => wRound f (numSub .nearest (if i = j then numOf 1 else .fin false 0 1) (mAt pw.1 i j)))
        let r := wResid f (18 :: ctx) e.1
        let rho := writeWide 0 2 .nearest r.1
        ⟨0, 0, 0, false, X.1.flatten.map to32, rho.code, 0, rho.code, lamC,
          fl0 ||| fl1 ||| ys.foldl (fun a y => a ||| y.2) 0 ||| Z.2 ||| X.2 ||| pw.2 ||| e.2 ||| r.2 ||| rho.fl, Z.1.flatten⟩
      else
        let O := wMat d d (fun i j => if i < j then (.fin false 0 1, 0) else wRound 0 (.ok ((L.getD j []).getD i qnan)))
        let rowsL : Mat := (List.range d).map (fun i => L.map (fun col => col.getD i qnan))
        let LLt := wMul f (19 :: ctx) rowsL L
        let e := wMat d d (fun i j => wRound f (numSub .nearest (mAt Ah i j) (mAt LLt.1 i j)))
        let r := wFrob f (20 :: ctx) e.1
        let n := wFrob f (21 :: ctx) Ah
        let rho := writeWide 0 2 .nearest (numDiv r.1 n.1).val
        ⟨0, 0, 0, false, O.1.flatten.map to32, rho.code, 0, rho.code, lamC,
          fl0 ||| fl1 ||| O.2 ||| LLt.2 ||| e.2 ||| r.2 ||| n.2 ||| rho.fl,
          ((List.range d).map (fun i => (List.range d).map (fun j => if i < j then .fin false 0 1 else (L.getD j []).getD i qnan))).flatten⟩

-- tables ------------------------------------------------------------------------------------------------------------

/-- The parameter block (R127). -/
def rootParOf (opcode : Nat) (bs : List Byte) : RootPar :=
  { deadline := fieldAt bs 0 8, count := fieldAt bs 8 2, p := fieldAt bs 10 1, prec := fieldAt bs 11 1, maxIter := fieldAt bs 12 2,
    eps := fieldAt bs 16 4, tol := fieldAt bs 20 4, warm := bit opcode 1, abs := bit opcode 0 }

/-- A problem entry (R128). -/
def rootProbOf (resAt : Nat) (bs : List Byte) : RootProb :=
  { input := fieldAt bs 0 8, output := fieldAt bs 8 8, hdr := fieldAt bs 16 8, fset := fieldAt bs 24 8, dim := fieldAt bs 32 2, resAt := resAt }

/-- The parameters and problems of a root command as it read them at its start (R141, R143). -/
def rootJob (s : State) (c : Cmd) : Option (RootPar × List RootProb) :=
  match c.origin with
  | .refresh a isG i =>
    match tfind s.fsets a with
    | none => none
    | some f =>
      ((fsetBlocks f).find? (fun b => b.isG == isG && b.idx == i)).map (fun b =>
        ({ deadline := c.pkt.slot 0, count := 1, p := f.p, prec := f.prec, maxIter := f.maxIter, eps := f.eps, tol := f.tol,
           warm := f.warm && f.kind == 0, abs := false },
         [{ input := (gLocal b.stor).code, output := (gLocal b.root).code, hdr := (gLocal (fsetHdr f b)).code,
            fset := (gLocal a).code, dim := b.dim, resAt := fsetRes f b }]))
  | _ =>
    let q := rootParOf c.pkt.opcode (cBytes s c (descAddr (c.pkt.slot 2)) 32)
    let res := localise s (descAddr (c.pkt.slot 1))
    some (q, (List.range q.count).map (fun i =>
      rootProbOf (res.off + 32 * i) (cBytes s c ((descAddr (c.pkt.slot 0)).plus (64 * i)) 64)))

/-- Local address of a structure field. -/
def lofs (s : State) (x : Nat) : Nat := (localise s (gaddrOf x)).off

/-- The parameter block's own limits (R125 to R127). -/
def rootParOk (op : Nat) (bs : List Byte) : Bool :=
  let p := fieldAt bs 10 1; let it := fieldAt bs 12 2
  decide (1 ≤ fieldAt bs 8 2) && decide (fieldAt bs 8 2 ≤ 1024) && decide (fieldAt bs 11 1 ≤ 1) && zeroAt bs 14 2 && zeroAt bs 24 8 &&
  fp32NonNeg (fieldAt bs 16 4) &&
  (if op = 1 then (p == 2 || p == 4) && decide (1 ≤ it) && decide (it ≤ 100) && fp32Pos (fieldAt bs 20 4)
   else p == 0 && it == 0 && fieldAt bs 20 4 == 0)

/-- The set whose control block a 64-bit address names: a block that lies as R112 says, of an active set. -/
def fsetNamed (s : State) (x : Nat) : Option Fset :=
  if structRangeBad s [0, 1] none 128 x 128 then none else tfind s.fsets (lofs s x)

/-- A problem entry's own limits (R128, R129). -/
def rootProbOk (s : State) (job prec : Nat) (bs : List Byte) : Bool :=
  let p := rootProbOf 0 bs
  let n := 4 * p.dim * p.dim
  decide (1 ≤ p.dim) && decide (p.dim ≤ (if prec = 1 then 1448 else 2048)) && zeroAt bs 34 30 &&
  !(structRangeBad s [0, 1] none 1 p.input n) && !(structRangeBad s [0, 1] none 1 p.output n) &&
  (p.hdr == 0 || !(structRangeBad s [0, 1] none 1 p.hdr 64)) &&
  (p.fset == 0 || (match fsetNamed s p.fset with | some f => f.job == job | none => false))

/-- Output and header regions of a list of problems. -/
def probRegions (s : State) (ps : List RootProb) : List (Nat × Nat) :=
  (ps.map (fun p => (lofs s p.output, 4 * p.dim * p.dim) :: (if p.hdr = 0 then [] else [(lofs s p.hdr, 64)]))).flatten

/-- Do regions of different problems, or a problem and the tables, overlap (R129)? The two regions of one problem are
not compared. -/
def probClash (s : State) : List RootProb → Bool
  | [] => false
  | p :: r => ((probRegions s [p]).any (fun x => (probRegions s r).any (fun y => overlap x.1 x.2 y.1 y.2))) || probClash s r

/-- Output and header regions of a root command (R118, R141). -/
def rootOuts (s : State) (c : Cmd) : List (Nat × Nat) :=
  match rootJob s c with
  | some (_, ps) => probRegions s ps
  | none => []

/-- The problem and result tables and the parameter block of a command of class 0x4 or 0x5 with `count` problems (R126, R148): slot, address
as 64 bits, bytes, written. -/
def reTables (c : Cmd) (count : Nat) : List (Nat × Nat × Nat × Bool) :=
  [(0, (descAddr (c.pkt.slot 0)).code, 64 * count, false), (1, (descAddr (c.pkt.slot 1)).code, 32 * count, true),
   (2, (descAddr (c.pkt.slot 2)).code, 32, false)]

/-- Their places (R24), to compare with the regions that problems name. -/
def reTablePlaces (s : State) (c : Cmd) (count : Nat) : List (Nat × Nat) := (reTables c count).map (fun t => (lofs s t.2.1, t.2.2.1))

/-- The slot whose table does not lie in TIER 0 or TIER 1 memory (R126, R148). -/
def reTableBad (s : State) (c : Cmd) (count : Nat) : Option Nat :=
  ((reTables c count).find? (fun t => structRangeBad s [0, 1] none 64 t.2.1 t.2.2.1)).map Prod.fst

/-- Does a range of a structure lie where the command may not go (R205, R235, R446)? -/
def structDenied (s : State) (c : Cmd) (x n : Nat) (w : Bool) : Bool := accessDenied s c (gaddrOf x) n w true

/-- The slot whose table a command may not reach. -/
def reTableDenied (s : State) (c : Cmd) (count : Nat) : Option Nat :=
  ((reTables c count).find? (fun t => structDenied s c t.2.1 t.2.2.1 t.2.2.2)).map Prod.fst

/-- STEP of the set that dates the `i`th problem of a root command (R128); 0 for none. -/
def probStep (s : State) (c : Cmd) (i : Nat) : Nat :=
  if c.pkt.cls ≠ 4 then 0
  else match rootJob s c with
    | some (_, ps) => (match ps[i]? with | some p => (match tfind s.fsets (lofs s p.fset) with | some f => if p.fset = 0 then 0 else f.step | none => 0) | none => 0)
    | none => 0

/-- The inputs of a problem that starts now (R141, R166). -/
def probIn (s : State) (c : Cmd) (i : Nat) : ProbIn := ⟨viewMem s.mem s.keys (jobKey s c.sess c.pkt.job), probStep s c i, s.time, 0⟩

/-- A command with the inputs of its `i`th problem: as they stood when the problem started, or as they stand where it starts now. -/
def probCmd (s : State) (c : Cmd) (i : Nat) : Cmd := { c with snapMem := (c.probs.getD i (probIn s c i)).mem }

/-- The start of a root command (R126, R129, R141, R166): its structures, then an earlier command with the same OUTPUT or HEADER
(`outs` gives the regions that a root or solve command under way publishes). -/
def rootStart (outs : Cmd → List (Nat × Nat)) (s : State) (c : Cmd) : StartRes :=
  match rootJob s c with
  | none => .stop stKilled 0 []
  | some (q, ps) =>
    let ring := match c.origin with | .refresh _ _ _ => false | _ => true
    let tabs : List (Nat × Nat) := if ring then reTablePlaces s c q.count else []
    if ring && !(rootParOk c.pkt.op (cBytes s c (descAddr (c.pkt.slot 2)) 32)) then badIn 2
    else if ring && (reTableBad s c q.count).isSome then
      .stop stBad (badAt (24 + 8 * (reTableBad s c q.count).getD 0) ((reTableBad s c q.count).getD 0)) []
    else if ring && (reTableDenied s c q.count).isSome then .stop stDenied ((reTableDenied s c q.count).getD 0) []
    else if ring && (!((List.range q.count).all (fun i =>
        rootProbOk s c.pkt.job q.prec (cBytes s c ((descAddr (c.pkt.slot 0)).plus (64 * i)) 64))) || probClash s ps ||
        (probRegions s ps).any (fun r => tabs.any (fun t => overlap r.1 r.2 t.1 t.2))) then badIn 0
    else if ring && (ps.any (fun p => structDenied s c p.input (4 * p.dim * p.dim) false ||
        structDenied s c p.output (4 * p.dim * p.dim) true || (p.hdr != 0 && structDenied s c p.hdr 64 true))) then
      .stop stDenied 0 []
    else if s.cmds.any (fun x => x.id != c.id && inUse x && (outs x).any (fun o =>
        (probRegions s ps).any (fun p => overlap o.1 o.2 p.1 p.2))) then .wait
    else .go s { c with probs := [probIn s c 0] }

-- results -------------------------------------------------------------------------------------------------------------

/-- A dense FP32 matrix read from bytes. -/
def mat32 (rows cols : Nat) (bs : List Byte) : Mat :=
  (List.range rows).map (fun i => (List.range cols).map (fun j => v32 (fieldAt bs (4 * (i * cols + j)) 4)))

/-- How far a problem got: to its end, cut after some rounds with its start made or not, or never begun. -/
inductive Reach where
  | all
  | cut (rounds : Nat) (started : Bool)
  | none
  deriving DecidableEq, Repr

def RootRes.unstarted : RootRes := ⟨0x11, 0, 0, false, [], nanCode32, 0, nanCode32, nanCode32, 0, []⟩

/-- Run one problem (R133 to R135). -/
def runRoot (s : State) (c : Cmd) (q : RootPar) (op : Nat) (p : RootProb) (reach : Reach) : RootRes :=
  match reach with
  | .none => .unstarted
  | .cut _ false => .unstarted
  | _ =>
    let n := 4 * p.dim * p.dim
    let ib := cBytes s c (gaddrOf p.input) n
    let A := mat32 p.dim p.dim ib
    let ctx := [c.pkt.clsOp, b2n q.abs, q.p, q.prec, q.maxIter, q.eps, q.tol, p.dim] ++ ib.map BitVec.toNat
    if op = 1 then
      let h := cBytes s c (gaddrOf p.hdr) 64
      let st := fieldAt h 10 1
      let wc : Nat :=
        if p.hdr = 0 ∨ bit st 0 = false then 2
        else if bit st 1 then 3
        else if fieldAt h 12 2 = p.dim ∧ fieldAt h 14 2 = p.dim ∧ fieldAt h 16 4 = 0 ∧ fieldAt h 8 1 = 0 ∧ fieldAt h 9 1 = q.p then 0
        else 1
      let warm := q.warm && wc == 0
      let rounds := match reach with | .cut k _ => some k | _ => Option.none
      let r := newtonRoot q.prec ctx A p.dim q warm (if q.warm then wc else 0) (mat32 p.dim p.dim (cBytes s c (gaddrOf p.output) n)) rounds
      match reach with
      | .cut _ _ => { r with status := 0x11, cause := 0, x := [], els := [] }
      | _ => r
    else
      match reach with
      | .cut _ _ =>
        { RootRes.unstarted with
          lambda := match damp q.prec (9 :: ctx) A p.dim q.eps q.abs with | .ok (_, l, _) => to32 l | .error _ => nanCode32 }
      | _ => cholesky q.prec ctx A p.dim q (op == 2)

/-- The bytes of a root header (R131). -/
def rootHeader (s : State) (c : Cmd) (q : RootPar) (op : Nat) (p : RootProb) (srcStep : Nat) (r : RootRes) (version : Nat) : List Byte :=
  let decl := r.status == 0x12
  leBytes 4 version ++ leBytes 4 srcStep ++ leBytes 1 (op - 1) ++ leBytes 1 (if op = 1 then q.p else 0) ++
  leBytes 1 (1 + 2 * b2n decl + 4 * b2n r.tolMiss + 8 * q.prec) ++ [0] ++ leBytes 2 p.dim ++ leBytes 2 p.dim ++ leBytes 4 0 ++
  leBytes 4 (if decl then nanCode32 else r.rho) ++ leBytes 4 r.lambda ++ leBytes 4 r.iter ++ leBytes 8 s.time ++ leBytes 2 c.pkt.job ++
  leBytes 2 c.pkt.layer ++ zeros 20

/-- END_TIME of the `i`th problem (R130, R161): of one that ended by itself, between its start and the next problem's start or, for the
last, `limit`; of one that the deadline ended, now. Where between is free (notes/assumptions/119). -/
def endTime (s : State) (c : Cmd) (limit i : Nat) (fin : Bool) : Nat :=
  if fin then
    let at_ (k : Nat) : Nat := match c.probs[k]? with | some q => min q.at_ limit | none => limit
    at_ i + Config.freeTime [c.id, c.runs, i] % (at_ (i + 1) - at_ i + 1)
  else s.time

/-- Until when a problem may have ended by itself: before the deadline where one ends the command, else until now. -/
def endLimit (s : State) (deadline : Nat) : Nat := if deadline ≠ 0 ∧ deadline ≤ s.time - 3 then deadline - 1 else s.time

/-- The bytes of a result entry (R130). -/
def rootResult (ended : Nat) (r : RootRes) (age : Nat) : List Byte :=
  leBytes 1 r.status ++ leBytes 1 (b2n (r.warmC != 0) + 2 * b2n r.tolMiss + 4 * b2n (r.status == 0x12)) ++
  leBytes 1 (r.cause + 16 * r.warmC) ++ [0] ++ leBytes 4 r.iter ++
  leBytes 4 (if r.status = 0 then r.rho else r.resid) ++ leBytes 4 age ++ leBytes 8 ended ++ leBytes 4 r.lambda ++ zeros 4

/-- A swatch of FP32 elements given by their codes, and by their values before the rounding to FP32 where they have been rounded. -/
def swatch32 (els : List Num) (codes : List Nat) : Swatch :=
  codes.zipIdx.foldl (fun w k => let x := els.getD k.2 (v32 k.1); w.add (El.of x) (writeWide 0 2 .nearest x) (v32 k.1)) (Swatch.empty 0x80)

/-- The staged outputs of one problem, its result entry among them (R137). -/
def rootOut (s : State) (c : Cmd) (q : RootPar) (op : Nat) (p : RootProb) (step ended : Nat) (r : RootRes) : List SWrite × List OutInfo :=
  let key := jobKey s c.sess c.pkt.job
  let og := localise s (gaddrOf p.output)
  let hg := localise s (gaddrOf p.hdr)
  let ho := (resolve s c hg 64).off
  let pub := r.status != 0x11
  let xs := if r.status = 0x12 then List.replicate (p.dim * p.dim) declCode32 else r.x
  let bs := (xs.map (leBytes 4)).flatten
  let ver := (leNat (rdKey s key ho 4) + 1) % 2 ^ 32
  let src := if pub then step else leNat (rdKey s key (ho + 4) 4)
  let now := match tfind s.fsets (lofs s p.fset) with | some f => f.step | none => 0
  let age := if p.fset = 0 ∨ p.hdr = 0 then 0xFFFFFFFF else (now + 2 ^ 32 - src) % 2 ^ 32
  let res : SWrite := ⟨gLocal p.resAt, rootResult ended r age⟩
  if pub then
    (placeWrites s c (⟨og, bs⟩ :: (if p.hdr = 0 then [res] else [⟨hg, rootHeader s c q op p step r ver⟩, res])),
     [⟨0, p.output, 1, swatch32 r.els xs, bs⟩])
  else (placeWrites s c [res], [])

/-- The device time against which a root engine compares its deadline (R501): 3 ns ago. -/
def sampleTime (s : State) : Nat := s.time - 3

/-- Run the problems of a root command and stage what they publish (R137, R138, R140). -/
def rootRun (op : Nat) (reach : Nat → Reach) (s : State) (c : Cmd) : Out :=
  match rootJob s c with
  | none => badStart
  | some (q, ps) =>
    let late := q.deadline != 0 && decide (q.deadline ≤ c.started - 3)
    let rs := ps.zipIdx.map (fun p => (p, runRoot s (probCmd s c p.2) q op p.1 (if late then .none else reach p.2)))
    let outs := rs.map (fun x => rootOut s c q op x.1.1 (c.probs.getD x.1.2 (probIn s c x.1.2)).step
      (endTime s c (endLimit s q.deadline) x.1.2 (x.2.status != 0x11)) x.2)
    let st := if rs.any (fun x => x.2.status == 0x11) then stIncomplete
      else if rs.any (fun x => x.2.status == 0x12) then stIll else stDone
    .done { Stg.none with
      writes := (outs.map Prod.fst).flatten, outs := (outs.map Prod.snd).flatten,
      ieee := rs.foldl (fun a x => a ||| x.2.fl) 0, flags := if rs.any (fun x => x.2.warmC != 0) then 1 else 0,
      status := st, aux := rs.map (fun x => x.2.cause) }

/-- The commit of a refresh updates its set's counters (R145). -/
def rootEff (s : State) (c : Cmd) : State :=
  match c.origin with
  | .refresh a isG i =>
    match tfind s.fsets a with
    | none => s
    | some f =>
      if c.status = stIncomplete then putFset s a { f with incompl := (f.incompl + 1) % 2 ^ 32 }
      else if c.status = stIll then
        let s := putFset s a { f with ill := (f.ill + 1) % 2 ^ 32 }
        match (fsetBlocks f).find? (fun b => b.isG == isG && b.idx == i) with
        | some b => raiseCmd s c 0x06 (fDetail f b) (c.aux.getD 0 0) 0
        | none => s
      else s
  | _ => s

/-- Has the deadline of a root or solve command passed while it ran? Then only the deadline's own row ends it (R138). -/
def deadlinePast (s : State) (deadline started : Nat) : Bool :=
  deadline != 0 && decide (started - 3 < deadline) && decide (deadline ≤ sampleTime s)

/-- A run that ends by itself: every problem to its end. -/
def rootWhole (op : Nat) (s : State) (c : Cmd) : Out :=
  match rootJob s c with
  | some (q, _) => if deadlinePast s q.deadline c.started then .hold c.aux else rootRun op (fun _ => .all) s c
  | none => badStart

-- acceptance ----------------------------------------------------------------------------------------------------------

/-- The slots of class 0x4 (R124, R126). The tables' sizes stand in the parameter block; at acceptance one entry of each
is checked. -/
def rootUses (p : Packet) : Option (List Use) :=
  if p.op = 1 ∨ p.op = 2 ∨ p.op = 3 then some [.raw 64 false, .raw 32 true, .raw 32 false, .zero, .zero] else none

/-- The rules of class 0x4 (R63, R125, R126). -/
def rootRules (p : Packet) : List Flt :=
  fltIf (p.heritage || (bit p.opcode 1 && p.op != 1)) fltOpcode ++
  ([0, 1, 2].map (fun i => fltIf (!((descAddr (p.slot i)).tier ∈ [0, 1]) || (descAddr (p.slot i)).off % 64 != 0) (fltSlot i))).flatten

-- rows ----------------------------------------------------------------------------------------------------------------

/-- What a problem of a root command reads as it starts: its input, and its previous root for a warm start. -/
def rootReads (q : RootPar) (p : RootProb) : List (GAddr × Nat) :=
  let n := 4 * p.dim * p.dim
  (gaddrOf p.input, n) :: (if q.warm ∧ p.hdr ≠ 0 then [(gaddrOf p.hdr, 64), (gaddrOf p.output, n)] else [])

/-- What those of the first `n` problems of a root command read that have not started. -/
def rootToRead (n : Nat) (s : State) (c : Cmd) : List (GAddr × Nat) :=
  match rootJob s c with
  | some (q, ps) => (((ps.take n).drop c.probs.length).map (rootReads q)).flatten
  | none => []

/-- The most problems of a command (R126, R148). -/
def maxProblems : Nat := 4096

/-- An uncorrectable error in a root engine's scratch ends its command (R122): the event names the engine. -/
def scratchEnd (s : State) (c : Cmd) : State :=
  let p := c.place.getD ⟨0, 0, 3⟩
  endCmd (raiseCmd s c 0x10 (p.die * 8 + p.unit) 0 5) c stEcc 0

/-- The row of a started root or solve command: it ends where its scratch failed, or where a problem that starts now reads a poisoned unit
(`reads`); else its operation runs. -/
def runProblems (clsOp : Nat) (reads : State → Cmd → List (GAddr × Nat)) (compute : State → Cmd → Out) (eff : State → Cmd → State)
    (cid : Nat) (s : State) : Host.Outcome State Fault Refusal :=
  match findCmd s cid with
  | none => .next s
  | some c =>
    if c.phase = .running ∧ c.pkt.clsOp = clsOp then
      if c.scratchUe then .next (scratchEnd s c)
      else match poisonAmong s c (reads s c) with
        | some u => .next (eccEnd s c u)
        | none => runOp clsOp compute eff cid s
    else .next s

/-- ROOT_NEWTON: damped inverse p-th roots (R133). -/
def execRootNewton (c : Nat) (s : State) : Host.Outcome State Fault Refusal := runProblems 0x401 (rootToRead maxProblems) (rootWhole 1) rootEff c s
/-- ROOT_CHOL: damped inverses (R134). -/
def execRootChol (c : Nat) (s : State) : Host.Outcome State Fault Refusal := runProblems 0x402 (rootToRead maxProblems) (rootWhole 2) rootEff c s
/-- CHOL_FACTOR: Cholesky factors (R134). -/
def execCholFactor (c : Nat) (s : State) : Host.Outcome State Fault Refusal := runProblems 0x403 (rootToRead maxProblems) (rootWhole 3) rootEff c s

/-- FSET_INIT: the set is activated once no root command names a root of it (R118). -/
def execFsetInit (c : Nat) (s : State) : Host.Outcome State Fault Refusal :=
  runOp 0x301 (fun s c =>
    let a := fsetAddr s c.pkt
    if rootsBusy s a (fsetRaw c.pkt.job (memRead c.snapMem a 128)) (rootOuts s) ||
        (match tfind s.fsets a with | some f => rootsBusy s a f (rootOuts s) | none => false) then .hold c.aux
    else .done Stg.none) fsetInitEff c s

/-- How far a command got at its deadline: at least as far as it has been seen to get (`done` problems, `iters` iterations of the running one,
`started` if its start was made). -/
def reachOf (c : Cmd) (done iters : Nat) (started : Bool) (i : Nat) : Reach :=
  let d := max done (c.probs.length - 1)
  let k := if d = c.probs.length - 1 then (c.probs.getLast?.map ProbIn.iter).getD 0 else 0
  if i < d then .all else if i = d then .cut (max iters k) (started || decide (0 < k)) else .none

/-- RE_PROB, RE_ITER and RE_RESID of a running root command (R123): the problem that started last, with the iterations that it has been seen to
complete. A factorisation has no iterations and reads 0. -/
def rootProgress (s : State) (c : Cmd) : Nat × Nat × Nat :=
  let i := c.probs.length - 1
  match rootJob s c, c.probs.getLast? with
  | some (q, ps), some x =>
    (match ps[i]? with
     | some p => if c.pkt.op = 1 then let r := runRoot s (probCmd s c i) q 1 p (.cut x.iter true); (i, r.iter, r.resid) else (i, 0, 0)
     | none => (i, 0, 0))
  | _, _ => (0, 0, 0)

/-- ROOT_DEADLINE: device time reaches the deadline of a running class 0x4 command with `done` problems finished and
`iters` iterations completed in the running one, `started` if it was damped and its start made (R138). -/
def execRootDeadline (c done iters : Nat) (started : Bool) (s : State) : Host.Outcome State Fault Refusal :=
  match findCmd s c with
  | none => .next s
  | some x =>
    match rootJob s x with
    | none => .next s
    | some (q, _) =>
      if x.phase = .running ∧ x.pkt.cls = 4 ∧ q.deadline ≠ 0 then
        let s := timeTo s (q.deadline + 3)
        runProblems x.pkt.clsOp (rootToRead (if started then done + 1 else done)) (rootRun x.pkt.op (reachOf x done iters started)) rootEff c s
      else .next s

end Sys2Proof.Machine
end

