-- ==== Sys2Proof/Machine/Solve.lean ====
section
/-! DEFINITION. Batched solvers: class 0x5 (R147 to R166). As in `Roots`, the procedures are literal and each sum of
products may come out anywhere within (n + 1) · u of exact, which is within the solver bound of R61. -/

set_option cleanup.letToHave false

namespace Sys2Proof.Machine

/-- Parameters of a solve command (R148, R149). -/
structure SolvePar where
  deadline : Nat
  count    : Nat
  precond  : Nat
  prec     : Nat
  maxIter  : Nat
  tolRel   : Nat
  tolAbs   : Nat
  warm     : Bool
  deriving DecidableEq, Repr

/-- A problem entry (R150). -/
structure SolveProb where
  rowptr : Nat
  colidx : Nat
  values : Nat
  rhs    : Nat
  x      : Nat
  hdr    : Nat
  n      : Nat
  nnz    : Nat
  bsr    : Bool
  resAt  : Nat
  deriving DecidableEq, Repr

def solveParOf (opcode : Nat) (bs : List Byte) : SolvePar :=
  { deadline := fieldAt bs 0 8, count := fieldAt bs 8 2, precond := fieldAt bs 10 1, prec := fieldAt bs 11 1, maxIter := fieldAt bs 12 4,
    tolRel := fieldAt bs 16 4, tolAbs := fieldAt bs 20 4, warm := bit opcode 1 }

def solveProbOf (resAt : Nat) (bs : List Byte) : SolveProb :=
  { rowptr := fieldAt bs 0 8, colidx := fieldAt bs 8 8, values := fieldAt bs 16 8, rhs := fieldAt bs 24 8, x := fieldAt bs 32 8,
    hdr := fieldAt bs 40 8, n := fieldAt bs 48 4, nnz := fieldAt bs 52 4, bsr := fieldAt bs 56 1 == 1, resAt := resAt }

/-- Rows or block rows (R151). -/
def SolveProb.rows (p : SolveProb) : Nat := if p.bsr then p.n / 4 else p.n

/-- Vn of R164. -/
def solveVn (op precond : Nat) : Nat :=
  if op = 1 then 6 else if op = 2 then (if precond = 2 then 11 else 8) else if precond = 0 then 9 else 12

/-- Scratch need of a problem (R164). -/
def solveQ (op : Nat) (q : SolvePar) (p : SolveProb) : Nat :=
  4 * (p.rows + 1) + 4 * p.nnz + (if p.bsr then 64 else 4) * p.nnz + (if q.prec = 1 then 8 else 4) * p.n * solveVn op q.precond

/-- The parameter block's limits (R147 to R149). -/
def solveParOk (op : Nat) (bs : List Byte) : Bool :=
  let pc := fieldAt bs 10 1
  decide (1 ≤ fieldAt bs 8 2) && decide (fieldAt bs 8 2 ≤ 4096) && decide (fieldAt bs 11 1 ≤ 1) && decide (1 ≤ fieldAt bs 12 4) &&
  decide (fieldAt bs 12 4 ≤ 1000000) && fp32NonNeg (fieldAt bs 16 4) && fp32NonNeg (fieldAt bs 20 4) && zeroAt bs 24 8 &&
  (if op = 1 then pc == 0 else if op = 2 then pc == 1 || pc == 2 else pc == 0 || pc == 1)

/-- A problem entry's limits (R150, R164). -/
def solveProbOk (s : State) (op : Nat) (q : SolvePar) (bs : List Byte) : Bool :=
  let p := solveProbOf 0 bs
  let ok := fun (x n : Nat) => !(structRangeBad s [0, 1] none 64 x n)
  decide (fieldAt bs 56 1 ≤ 1) && zeroAt bs 57 7 && decide (1 ≤ p.nnz) && decide (1 ≤ p.n) &&
  (if p.bsr then p.n % 4 == 0 && decide (p.n ≤ 65532) else decide (p.n ≤ 65535)) && !(q.precond == 2 && !p.bsr) &&
  ok p.rowptr (4 * (p.rows + 1)) && ok p.colidx (4 * p.nnz) && ok p.values ((if p.bsr then 64 else 4) * p.nnz) &&
  ok p.rhs (4 * p.n) && ok p.x (4 * p.n) && (p.hdr == 0 || ok p.hdr 64) && decide (solveQ op q p ≤ 50331648)

/-- Parameters and problems of a solve command as it read them at its start. -/
def solveJob (s : State) (c : Cmd) : SolvePar × List SolveProb :=
  let q := solveParOf c.pkt.opcode (cBytes s c (descAddr (c.pkt.slot 2)) 32)
  let res := localise s (descAddr (c.pkt.slot 1))
  (q, (List.range q.count).map (fun i =>
    solveProbOf (res.off + 32 * i) (cBytes s c ((descAddr (c.pkt.slot 0)).plus (64 * i)) 64)))

/-- X and header regions of a problem. -/
def solveRegions (s : State) (p : SolveProb) : List (Nat × Nat) :=
  (lofs s p.x, 4 * p.n) :: (if p.hdr = 0 then [] else [(lofs s p.hdr, 64)])

def solveClash (s : State) : List SolveProb → Bool
  | [] => false
  | p :: r => (solveRegions s p).any (fun x => (r.map (solveRegions s)).flatten.any (fun y => overlap x.1 x.2 y.1 y.2)) || solveClash s r

/-- Regions that a root or solve command under way publishes (R118, R141, R166). -/
def reOuts (s : State) (c : Cmd) : List (Nat × Nat) :=
  if c.pkt.cls = 4 then
    match rootJob s c with
    | some (_, ps) => probRegions s ps
    | none => []
  else if c.pkt.cls = 5 then ((solveJob s c).2.map (solveRegions s)).flatten
  else []

/-- The start of a solve command (R164, R166). -/
def solveStart (s : State) (c : Cmd) : StartRes :=
  let j := solveJob s c
  let q := j.1
  let ps := j.2
  let tabs := reTablePlaces s c q.count
  let mine := (ps.map (solveRegions s)).flatten
  if !(solveParOk c.pkt.op (cBytes s c (descAddr (c.pkt.slot 2)) 32)) then badIn 2
  else if (reTableBad s c q.count).isSome then
    .stop stBad (badAt (24 + 8 * (reTableBad s c q.count).getD 0) ((reTableBad s c q.count).getD 0)) []
  else if (reTableDenied s c q.count).isSome then .stop stDenied ((reTableDenied s c q.count).getD 0) []
  else if !((List.range q.count).all (fun i =>
      solveProbOk s c.pkt.op q (cBytes s c ((descAddr (c.pkt.slot 0)).plus (64 * i)) 64))) || solveClash s ps ||
      mine.any (fun r => tabs.any (fun t => overlap r.1 r.2 t.1 t.2)) then badIn 0
  else if ps.any (fun p => [(p.rowptr, 4 * (p.rows + 1)), (p.colidx, 4 * p.nnz), (p.values, (if p.bsr then 64 else 4) * p.nnz),
      (p.rhs, 4 * p.n)].any (fun r => structDenied s c r.1 r.2 false) || structDenied s c p.x (4 * p.n) true ||
      (p.hdr != 0 && structDenied s c p.hdr 64 true)) then
    .stop stDenied 0 []
  else if s.cmds.any (fun x => x.id != c.id && inUse x && (reOuts s x).any (fun o => mine.any (fun m => overlap o.1 o.2 m.1 m.2))) then .wait
  else .go s { c with probs := [probIn s c 0] }

-- the problem ---------------------------------------------------------------------------------------------------------

/-- Sparse rows: (column, value) of each row of A. -/
abbrev Sparse := List (List (Nat × Num))

/-- A problem as loaded (R155). -/
structure Loaded where
  a     : Sparse
  b     : List Num
  x0    : List Num
  hash  : Nat
  ok    : Bool               -- the structure is well-formed (R152)
  deriving DecidableEq, Repr

def u32s (n : Nat) (bs : List Byte) : List Nat := (List.range n).map (fun i => fieldAt bs (4 * i) 4)
def f32s (n : Nat) (bs : List Byte) : List Num := (u32s n bs).map v32

/-- Strictly rising below a limit. -/
def rising (lim : Nat) : List Nat → Bool
  | [] => true
  | [x] => decide (x < lim)
  | x :: y :: r => decide (x < y) && decide (x < lim) && rising lim (y :: r)

def nonDecreasing : List Nat → Bool
  | x :: y :: r => decide (x ≤ y) && nonDecreasing (y :: r)
  | _ => true

/-- Load (R151 to R153, R155). -/
def loadProb (s : State) (c : Cmd) (q : SolvePar) (p : SolveProb) : Loaded :=
  let R := p.rows
  let rpB := cBytes s c (gaddrOf p.rowptr) (4 * (R + 1))
  let ciB := cBytes s c (gaddrOf p.colidx) (4 * p.nnz)
  let vs := f32s ((if p.bsr then 16 else 1) * p.nnz) (cBytes s c (gaddrOf p.values) ((if p.bsr then 64 else 4) * p.nnz))
  let rp := u32s (R + 1) rpB
  let ci := u32s p.nnz ciB
  let seg := fun (i : Nat) => (ci.drop (rp.getD i 0)).take (rp.getD (i + 1) 0 - rp.getD i 0)
  let ok := rp.headD 1 == 0 && rp.getD R 0 == p.nnz && nonDecreasing rp && (List.range R).all (fun i => rising R (seg i))
  let a : Sparse :=
    if p.bsr then
      (List.range p.n).map (fun i =>
        let r := i / 4
        ((seg r).zipIdx.map (fun e => (List.range 4).map (fun j =>
          (4 * e.1 + j, vs.getD ((rp.getD r 0 + e.2) * 16 + i % 4 * 4 + j) qnan)))).flatten)
    else (List.range R).map (fun i => (seg i).zipIdx.map (fun e => (e.1, vs.getD (rp.getD i 0 + e.2) qnan)))
  ⟨a, f32s p.n (cBytes s c (gaddrOf p.rhs) (4 * p.n)),
    if q.warm then f32s p.n (cBytes s c (gaddrOf p.x) (4 * p.n)) else [], crc32c (rpB ++ ciB), ok⟩

/-- A preconditioner: none, inverses of the diagonal, or inverses of the diagonal blocks (R155). -/
inductive Precond where
  | none
  | diag (d : List Num)
  | blocks (bs : List Mat)
  deriving DecidableEq, Repr

def sparseAt (a : Sparse) (i j : Nat) : Option Num := ((a.getD i []).find? (fun e => e.1 == j)).map Prod.snd

/-- Setup (R155): the preconditioner, or an ill-posed cause. -/
def setupPre (f : Nat) (ctx : List Nat) (op : Nat) (q : SolvePar) (p : SolveProb) (l : Loaded) : Except Nat (Precond × Nat) :=
  if q.precond = 0 then .ok (.none, 0)
  else if q.precond = 1 then
    let ds := (List.range p.n).map (fun i => sparseAt l.a i i)
    if op = 2 then
      if ds.any (fun d => match d with | some x => x.isZero || x.isNeg | none => true) then .error 3
      else let v := ds.map (fun d => wRound f (numDiv (numOf 1) (d.getD qnan))); .ok (.diag (v.map Prod.fst), v.foldl (fun a x => a ||| x.2) 0)
    else
      if ds.any (fun d => match d with | some x => x.isZero | none => true) then .error 8
      else let v := ds.map (fun d => wRound f (numDiv (numOf 1) (d.getD qnan))); .ok (.diag (v.map Prod.fst), v.foldl (fun a x => a ||| x.2) 0)
  else
    let blks := (List.range (p.n / 4)).map (fun b =>
      let A : Mat := (List.range 4).map (fun i => (List.range 4).map (fun j => (sparseAt l.a (4 * b + i) (4 * b + j)).getD (.fin false 0 1)))
      match cholCols f (b :: ctx) A 4 4 0 [] 0 with
      | (Option.none, _) => (Option.none : Option (Mat × Nat))
      | (some L, fl) =>
        let ys := (List.range 4).map (fun c =>
          fwdSub f (b :: c :: ctx) L ((List.range 4).map (fun i => if i = c then numOf 1 else .fin false 0 1)) 4 0 [] 0)
        let Y := ys.map Prod.fst
        let X := wMat 4 4 (fun i j => wDot f (b :: max i j :: min i j :: ctx) (Y.getD (max i j) []) (Y.getD (min i j) []))
        some (X.1, ys.foldl (fun a y => a ||| y.2) (fl ||| X.2)))
    if blks.any (fun b => b.isNone) then .error 3
    else .ok (.blocks (blks.filterMap (fun b => b.map Prod.fst)), (blks.filterMap id).foldl (fun a b => a ||| b.2) 0)

abbrev Vec := List Num

def orFl (xs : List (Num × Nat)) : Vec × Nat := (xs.map Prod.fst, xs.foldl (fun a x => a ||| x.2) 0)

def applyPre (f : Nat) (ctx : List Nat) (m : Precond) (r : Vec) : Vec × Nat :=
  match m with
  | .none => (r, 0)
  | .diag d => orFl ((d.zip r).map (fun x => wRound f (numMul x.1 x.2)))
  | .blocks bs => orFl ((bs.zipIdx.map (fun b => (List.range 4).map (fun i =>
      wDot f (b.2 :: i :: ctx) (b.1.getD i []) ((r.drop (4 * b.2)).take 4)))).flatten)

/-- A · x. -/
def spMul (f : Nat) (ctx : List Nat) (a : Sparse) (x : Vec) : Vec × Nat :=
  orFl (a.zipIdx.map (fun r => wDot f (r.2 :: ctx) (r.1.map Prod.snd) (r.1.map (fun e => x.getD e.1 qnan))))

/-- b − A · x, each element one sum (R61: within (w + 2) · u). -/
def spResid (f : Nat) (ctx : List Nat) (a : Sparse) (b x : Vec) : Vec × Nat :=
  orFl (a.zipIdx.map (fun r =>
    let ps := r.1.map (fun e => numMul e.2 (x.getD e.1 qnan))
    if ps.any (fun t => t.cause.isSome) then (qnan, flInvalid)
    else let t := sumTerms f (r.2 :: ctx) (b.getD r.2 qnan :: ps.map (fun t => t.val.neg)) (ps.length + 2) (ps.length + 1); (t.val, t.fl)))

/-- Sums of a vector and scaled vectors, element by element. -/
def axpy (f : Nat) (ctx : List Nat) (base : Vec) (terms : List (Num × Vec)) : Vec × Nat :=
  orFl (base.zipIdx.map (fun x =>
    let ps := terms.map (fun t => numMul t.1 (t.2.getD x.2 qnan))
    if ps.any (fun t => t.cause.isSome) then (qnan, flInvalid)
    else let t := sumTerms f (x.2 :: ctx) (x.1 :: ps.map Res.val) (terms.length + 1) (terms.length + 1); (t.val, t.fl)))

def gtN (a b : Num) : Bool := !a.isNan && !b.isNan && !(numLe a b)
def ltN (a b : Num) : Bool := !a.isNan && !b.isNan && numLt a b

/-- A running solve: iterate, residual, the best so far, and what the method carries. -/
structure SIter where
  x     : Vec
  r     : Vec
  p     : Vec
  v     : Vec
  rh    : Vec
  g     : Num                -- g of pcg, rho of bicgstab
  alpha : Num
  omega : Num
  k     : Nat
  rk    : Num
  rBest : Num
  xBest : Vec
  kBest : Nat
  fl    : Nat
  deriving DecidableEq, Repr

/-- How the loop ends. -/
inductive SEnd where
  | fin (s : SIter) (breakdown : Bool)
  | ill (cause : Nat) (s : SIter)
  | cut (s : SIter)

def keepBest (s : SIter) : SIter := if ltN s.rk s.rBest then { s with rBest := s.rk, xBest := s.x, kBest := s.k } else s

/-- The loop of pcg (R156), at most `n` more rounds. -/
def pcgLoop (f : Nat) (ctx : List Nat) (a : Sparse) (m : Precond) (tau : Num) (maxIter : Nat) : Nat → SIter → SEnd
  | n, s =>
    if !(gtN s.rk tau) || decide (maxIter ≤ s.k) then .fin s false
    else match n with
      | 0 => .cut s
      | n + 1 =>
        let c := s.k :: ctx
        let q := spMul f (1 :: c) a s.p
        let cc := wDot f (2 :: c) s.p q.1
        let s := { s with fl := s.fl ||| q.2 ||| cc.2 }
        if !cc.1.isFin then .ill 5 s
        else if cc.1.isZero || cc.1.isNeg then .ill 6 s
        else
          let al := wRound f (numDiv s.g cc.1)
          let x := axpy f (3 :: c) s.x [(al.1, s.p)]
          let r := axpy f (4 :: c) s.r [(al.1.neg, q.1)]
          let s := { s with x := x.1, r := r.1, k := s.k + 1, fl := s.fl ||| al.2 ||| x.2 ||| r.2 }
          if !(x.1.all Num.isFin) || !(r.1.all Num.isFin) then .ill 5 s
          else
            let nr := wNorm f (5 :: c) r.1
            let s := keepBest { s with rk := nr.1, fl := s.fl ||| nr.2 }
            let z := applyPre f (6 :: c) m r.1
            let g := wDot f (7 :: c) r.1 z.1
            let be := wRound f (numDiv g.1 s.g)
            let p := axpy f (8 :: c) z.1 [(be.1, s.p)]
            pcgLoop f ctx a m tau maxIter n { s with p := p.1, g := g.1, fl := s.fl ||| z.2 ||| g.2 ||| be.2 ||| p.2 }

/-- The loop of bicgstab (R157). -/
def bicgLoop (f : Nat) (ctx : List Nat) (a : Sparse) (m : Precond) (tau : Num) (maxIter : Nat) : Nat → SIter → SEnd
  | n, s =>
    if !(gtN s.rk tau) || decide (maxIter ≤ s.k) then .fin s false
    else match n with
      | 0 => .cut s
      | n + 1 =>
        let c := s.k :: ctx
        let rn := wDot f (1 :: c) s.rh s.r
        if rn.1.isZero then .fin { s with fl := s.fl ||| rn.2 } true
        else
          let d1 := wRound f (numDiv rn.1 s.g)
          let d2 := wRound f (numDiv s.alpha s.omega)
          let be := wRound f (numMul d1.1 d2.1)
          let pv := axpy f (2 :: c) s.p [(s.omega.neg, s.v)]
          let p := axpy f (3 :: c) s.r [(be.1, pv.1)]
          let ph := applyPre f (4 :: c) m p.1
          let v := spMul f (5 :: c) a ph.1
          let cc := wDot f (6 :: c) s.rh v.1
          let s := { s with fl := s.fl ||| rn.2 ||| d1.2 ||| d2.2 ||| be.2 ||| pv.2 ||| p.2 ||| ph.2 ||| v.2 ||| cc.2 }
          if cc.1.isZero then .fin s true
          else
            let al := wRound f (numDiv rn.1 cc.1)
            let sv := axpy f (7 :: c) s.r [(al.1.neg, v.1)]
            let sh := applyPre f (8 :: c) m sv.1
            let t := spMul f (9 :: c) a sh.1
            let tt := wDot f (10 :: c) t.1 t.1
            let ts := wDot f (11 :: c) t.1 sv.1
            let om : Num × Nat := if tt.1.isZero then (.fin false 0 1, 0) else let w := wRound f (numDiv ts.1 tt.1); (w.1, ts.2 ||| w.2)
            let x := axpy f (12 :: c) s.x [(al.1, ph.1), (om.1, sh.1)]
            let r := axpy f (13 :: c) sv.1 [(om.1.neg, t.1)]
            let s := { s with x := x.1, r := r.1, p := p.1, v := v.1, g := rn.1, alpha := al.1, omega := om.1, k := s.k + 1,
                              fl := s.fl ||| al.2 ||| sv.2 ||| sh.2 ||| t.2 ||| tt.2 ||| om.2 ||| x.2 ||| r.2 }
            if !(x.1.all Num.isFin) || !(r.1.all Num.isFin) then .ill 5 s
            else
              let nr := wNorm f (14 :: c) r.1
              let s := keepBest { s with rk := nr.1, fl := s.fl ||| nr.2 }
              if om.1.isZero && gtN s.rk tau then .fin s true
              else bicgLoop f ctx a m tau maxIter n s

/-- The 2-norm of fractions, inside the rounding interval of every format. -/
def normQ (v : List (Int × Nat)) : Int × Nat :=
  let q := sumQ (v.map (fun x => mulQ x x))
  let r := sqrtQ q.1.toNat q.2
  ((r.1 : Int), r.2)

/-- ‖b − A x‖₂ as a close reports it, before its rounding to FP32 (R158): within (w + 2) · u · (‖|A| |x|‖₂ + ‖b‖₂) of exact (R61), w the
most elements of a row; what R61 does not bound, where x is not finite, comes of the residual's elements. -/
def solveRho (f : Nat) (ctx : List Nat) (a : Sparse) (b x : Vec) : Num × Nat :=
  if !(x.all Num.isFin) then
    let rr := spResid f (1 :: ctx) a b x
    let nr := wNorm f (2 :: ctx) rr.1
    (nr.1, rr.2 ||| nr.2)
  else
    let prods := a.map (fun r => r.map (fun e => mulQ e.2.toQ (x.getD e.1 qnan).toQ))
    let res := prods.zipIdx.map (fun r => subQ (b.getD r.2 qnan).toQ (sumQ r.1))
    let mags := prods.map (fun r => sumQ (r.map absQ))
    let ex := normQ res
    let size := addQ (normQ mags) (normQ (b.map Num.toQ))
    let w := a.foldl (fun m r => max m r.length) 0
    let squares := res.map (fun q => mulQ q q)
    let past := exceeds f (sumQ squares) || mags.any (exceeds f)
    let key := ctx ++ ((b ++ x).map Num.key).flatten
    let c := bounded f key ex (scaleQ (w + 2) (ulpExp f) size) past % 2 ^ (fmtBits f - 1)
    let e := writeWide f 2 .nearest (ofQ false ex)
    (decodeWide f c, freeFl key past (mayUnderflow f false (prods.flatten ++ squares)) ||| (if c = e.code && e.fl = 0 then 0 else flInexact))

/-- What a problem comes to (R161). -/
structure SolveRes where
  status : Nat
  flags  : Nat
  cause  : Nat
  iter   : Nat
  run    : Nat
  resid  : Nat
  bnorm  : Nat
  hash   : Nat
  x      : Option (List Nat) -- FP32 codes published; none with NOT_STARTED
  fl     : Nat
  els    : List Num          -- the elements that X rounds to FP32 (R72)
  rk     : Nat               -- the latest r[k] (R165)
  deriving DecidableEq, Repr

/-- A problem cut before its start was made: with its load completed, of a right-hand side of norm `bnorm`, or not. -/
def SolveRes.cutEarly (bnorm hash fl : Nat) : SolveRes := ⟨0x10, 16, 0, 0, 0, nanCode32, bnorm, hash, none, fl, [], 0⟩

def SolveRes.unstarted : SolveRes := .cutEarly nanCode32 0 0

def SolveRes.ill (p : SolveProb) (cause warmC run bnorm hash fl : Nat) : SolveRes :=
  ⟨0x12, 4 + b2n (warmC != 0), cause + 16 * warmC, 0, run, nanCode32, bnorm, hash, some (List.replicate p.n declCode32), fl, [], nanCode32⟩

/-- Run one problem (R155 to R159, R163). Whether a problem that the deadline cut before its start had completed its load is free
(notes/assumptions/120). -/
def runSolve (s : State) (c : Cmd) (q : SolvePar) (op : Nat) (p : SolveProb) (reach : Reach) : SolveRes :=
  match reach with
  | .none => .unstarted
  | _ =>
    let early : Bool := match reach with | .cut _ false => true | _ => false
    let f := q.prec
    let l := loadProb s c q p
    let inB := cBytes s c (gaddrOf p.rhs) (4 * p.n)
    let ctx := [c.pkt.clsOp, q.precond, q.prec, q.maxIter, q.tolRel, q.tolAbs, p.n, p.nnz, l.hash] ++ inB.map BitVec.toNat ++
      ((l.a.flatten.map (fun e => e.2.key)).flatten)
    let loaded := !early || decide (Config.freeTime [c.id, c.runs, p.resAt, 1] % 2 = 1)
    if !loaded then .unstarted
    else if !l.ok then (if early then .unstarted else .ill p 7 0 0 nanCode32 0 0)
    else
      let nb := wNorm f (20 :: ctx) l.b
      let bn := to32 nb.1
      if early then .cutEarly bn l.hash nb.2
      else if !(l.a.all (fun r => r.all (fun e => e.2.isFin))) || !(l.b.all Num.isFin) then .ill p 1 0 0 bn l.hash 0
      else
        match setupPre f (21 :: ctx) op q p l with
        | .error e => .ill p e 0 0 bn l.hash nb.2
        | .ok (m, fl0) =>
          let tr := wRound f (numMul (v32 q.tolRel) nb.1)
          let tau := if numLe tr.1 (v32 q.tolAbs) then v32 q.tolAbs else tr.1
          let h := cBytes s c (gaddrOf p.hdr) 64
          let st := fieldAt h 10 1
          let kd := fieldAt h 8 1
          let rx := spResid f (22 :: ctx) l.a l.b l.x0
          let nx := wNorm f (23 :: ctx) rx.1
          let wc : Nat :=
            if q.warm = false then 0
            else if p.hdr = 0 ∨ bit st 0 = false then 2
            else if bit st 1 then 3
            else if !((kd == 3 || kd == 4 || kd == 5) && fieldAt h 12 2 == p.n && fieldAt h 14 2 == (if p.bsr then 4 else 1) &&
              fieldAt h 16 4 == l.hash) then 1
            else if !(l.x0.all Num.isFin) || !(nx.1.isFin && numLe nx.1 nb.1) then 4
            else 0
          let warm := q.warm && wc == 0
          let x0 : Vec := if warm then l.x0 else List.replicate p.n (.fin false 0 1)
          let r0 : Vec × Nat := if warm then rx else spResid f (24 :: ctx) l.a l.b x0
          let n0 : Num × Nat := if warm then nx else wNorm f (25 :: ctx) r0.1
          let z := applyPre f (26 :: ctx) m r0.1
          let g := wDot f (27 :: ctx) r0.1 z.1
          let fl1 := nb.2 ||| fl0 ||| tr.2 ||| r0.2 ||| n0.2
          let zero : Vec := List.replicate p.n (.fin false 0 1)
          let start : SIter :=
            if op = 3 then ⟨x0, r0.1, zero, zero, r0.1, numOf 1, numOf 1, numOf 1, 0, n0.1, n0.1, x0, 0, fl1⟩
            else ⟨x0, r0.1, z.1, zero, r0.1, g.1, numOf 1, numOf 1, 0, n0.1, n0.1, x0, 0, fl1 ||| z.2 ||| g.2⟩
          let fuel := match reach with | .cut k _ => min k q.maxIter | _ => q.maxIter
          let e := if op = 3 then bicgLoop f ctx l.a m tau q.maxIter fuel start else pcgLoop f ctx l.a m tau q.maxIter fuel start
          let close := fun (t : SIter) (status : Nat) (brk : Bool) =>
            let xs := t.xBest.map (fun v => wRound 0 (.ok v))
            let x32 := xs.map Prod.fst
            let nr := solveRho f (28 :: ctx) l.a l.b x32
            let rho := writeWide 0 2 .nearest nr.1
            (⟨status, b2n (wc != 0) + 2 * b2n (gtN t.rBest tau) + 8 * b2n brk, 16 * wc, t.kBest, t.k, rho.code, bn, l.hash,
              some (x32.map to32), t.fl ||| (orFl xs).2 ||| nr.2 ||| rho.fl, t.xBest, to32 t.rk⟩ : SolveRes)
          match e with
          | .ill cause t => .ill p cause wc t.k bn l.hash t.fl
          | .fin t brk => close t 0 brk
          | .cut t => close t 0x10 false

/-- The bytes of a solution header (R154). -/
def solveHeader (s : State) (c : Cmd) (q : SolvePar) (op : Nat) (p : SolveProb) (r : SolveRes) (hash version : Nat) : List Byte :=
  let decl := r.status == 0x12
  leBytes 4 version ++ leBytes 4 0 ++ leBytes 1 (op + 2) ++ [0] ++
  leBytes 1 (1 + 2 * b2n decl + 4 * b2n (bit r.flags 1) + 8 * q.prec) ++ [0] ++ leBytes 2 p.n ++ leBytes 2 (if p.bsr then 4 else 1) ++
  leBytes 4 hash ++ leBytes 4 (if decl then nanCode32 else r.resid) ++ leBytes 4 0 ++ leBytes 4 r.iter ++ leBytes 8 s.time ++
  leBytes 2 c.pkt.job ++ leBytes 2 c.pkt.layer ++ zeros 20

/-- The bytes of a result entry (R161). -/
def solveResult (ended : Nat) (r : SolveRes) : List Byte :=
  leBytes 1 r.status ++ leBytes 1 r.flags ++ leBytes 1 r.cause ++ [0] ++ leBytes 4 r.iter ++ leBytes 4 r.run ++ leBytes 4 r.resid ++
  leBytes 4 r.bnorm ++ leBytes 4 r.hash ++ leBytes 8 ended

/-- What one problem publishes (R160). -/
def solveOut (s : State) (c : Cmd) (q : SolvePar) (op : Nat) (p : SolveProb) (ended : Nat) (r : SolveRes) : List SWrite × List OutInfo :=
  let key := jobKey s c.sess c.pkt.job
  let res : SWrite := ⟨gLocal p.resAt, solveResult ended r⟩
  match r.x with
  | none => (placeWrites s c [res], [])
  | some xs =>
    let bs := (xs.map (leBytes 4)).flatten
    let hg := localise s (gaddrOf p.hdr)
    let ver := (leNat (rdKey s key (resolve s c hg 64).off 4) + 1) % 2 ^ 32
    let hash := if r.hash = 0 then (loadProb s c q p).hash else r.hash
    (placeWrites s c (⟨localise s (gaddrOf p.x), bs⟩ :: (if p.hdr = 0 then [res] else [⟨hg, solveHeader s c q op p r hash ver⟩, res])),
     [⟨0, p.x, 1, swatch32 r.els xs, bs⟩])

/-- Run the problems of a solve command (R159, R160, R162). -/
def solveRun (op : Nat) (reach : Nat → Reach) (s : State) (c : Cmd) : Out :=
  let j := solveJob s c
  let late := j.1.deadline != 0 && decide (j.1.deadline ≤ c.started - 3)
  let rs := j.2.zipIdx.map (fun p => (p, runSolve s (probCmd s c p.2) j.1 op p.1 (if late then .none else reach p.2)))
  let outs := rs.map (fun x => solveOut s (probCmd s c x.1.2) j.1 op x.1.1
    (endTime s c (endLimit s j.1.deadline) x.1.2 (x.2.status != 0x10)) x.2)
  let st := if rs.any (fun x => x.2.status == 0x10) then stDeadline
    else if rs.any (fun x => x.2.status == 0x12) then stIll else stDone
  .done { Stg.none with
    writes := (outs.map Prod.fst).flatten, outs := (outs.map Prod.snd).flatten, ieee := rs.foldl (fun a x => a ||| x.2.fl) 0,
    flags := if rs.any (fun x => bit x.2.flags 0) then 1 else 0, status := st }

def solveWhole (op : Nat) (s : State) (c : Cmd) : Out :=
  if deadlinePast s (solveJob s c).1.deadline c.started then .hold c.aux else solveRun op (fun _ => .all) s c

/-- The slots of class 0x5 (R147, R148). -/
def solveUses (p : Packet) : Option (List Use) :=
  if p.op = 1 ∨ p.op = 2 ∨ p.op = 3 then some [.raw 64 false, .raw 32 true, .raw 32 false, .zero, .zero] else none

/-- The rules of class 0x5 (R63, R148). -/
def solveRules (p : Packet) : List Flt :=
  fltIf (p.heritage || bit p.opcode 0) fltOpcode ++
  ([0, 1, 2].map (fun i => fltIf (!((descAddr (p.slot i)).tier ∈ [0, 1]) || (descAddr (p.slot i)).off % 64 != 0) (fltSlot i))).flatten

/-- What a problem of a solve command loads (R155). -/
def solveReads (q : SolvePar) (p : SolveProb) : List (GAddr × Nat) :=
  [(gaddrOf p.rowptr, 4 * (p.rows + 1)), (gaddrOf p.colidx, 4 * p.nnz), (gaddrOf p.values, (if p.bsr then 64 else 4) * p.nnz),
    (gaddrOf p.rhs, 4 * p.n)] ++
  (if q.warm then (gaddrOf p.x, 4 * p.n) :: (if p.hdr = 0 then [] else [(gaddrOf p.hdr, 64)]) else [])

/-- What those of the first `n` problems of a solve command load that have not started. -/
def solveToRead (n : Nat) (s : State) (c : Cmd) : List (GAddr × Nat) :=
  let j := solveJob s c
  (((j.2.take n).drop c.probs.length).map (solveReads j.1)).flatten

/-- RE_PROB, RE_ITER and RE_RESID of a running solve command (R165): the problem that started last, with the iterations that it has been seen
to complete. -/
def solveProgress (s : State) (c : Cmd) : Nat × Nat × Nat :=
  let i := c.probs.length - 1
  let j := solveJob s c
  match j.2[i]?, c.probs.getLast? with
  | some p, some x => let r := runSolve s (probCmd s c i) j.1 c.pkt.op p (.cut x.iter true); (i, r.run, r.rk)
  | _, _ => (i, 0, 0)

/-- SOLVE_CG (R156, no preconditioner). -/
def execSolveCg (c : Nat) (s : State) : Host.Outcome State Fault Refusal :=
  runProblems 0x501 (solveToRead maxProblems) (solveWhole 1) noEffect c s
/-- SOLVE_PCG (R156). -/
def execSolvePcg (c : Nat) (s : State) : Host.Outcome State Fault Refusal :=
  runProblems 0x502 (solveToRead maxProblems) (solveWhole 2) noEffect c s
/-- SOLVE_BICGSTAB (R157). -/
def execSolveBicgstab (c : Nat) (s : State) : Host.Outcome State Fault Refusal :=
  runProblems 0x503 (solveToRead maxProblems) (solveWhole 3) noEffect c s

/-- SOLVE_DEADLINE: device time reaches the deadline of a running class 0x5 command with `done` problems finished and
`iters` iterations completed in the running one, `started` if it has passed its start step (R159). -/
def execSolveDeadline (c done iters : Nat) (started : Bool) (s : State) : Host.Outcome State Fault Refusal :=
  match findCmd s c with
  | none => .next s
  | some x =>
    let q := (solveJob s x).1
    if x.phase = .running ∧ x.pkt.cls = 5 ∧ q.deadline ≠ 0 then
      let s := timeTo s (q.deadline + 3)
      runProblems x.pkt.clsOp (solveToRead (if started then done + 1 else done)) (solveRun x.pkt.op (reachOf x done iters started))
        noEffect c s
    else .next s

end Sys2Proof.Machine
end

