-- ==== Sys2Proof/Machine/Update.lean ====
section
/-! DEFINITION. Shards, schedules and the update engine, gathers and digest checks: class 0x6 (R167 to R199, R78 to
R80). -/

set_option cleanup.letToHave false

namespace Sys2Proof.Machine

-- shards --------------------------------------------------------------------------------------------------------------

/-- A whole tensor of a format byte. -/
def wholeShape (fb rows cols : Nat) : Shape := ⟨fb, rows, cols, 0, 0, rows, cols⟩

/-- Format byte of the master weights. -/
def Shard.masterFb (h : Shard) : Nat := if h.masterFp32 then 0x80 else 0x82

/-- The software fields of a shard control block (R171). -/
def shardRaw (job : Nat) (bs : List Byte) : Shard :=
  { job := job, layer := fieldAt bs 2 2, lblock := fieldAt bs 4 2, wcFmt := fieldAt bs 6 1, masterFp32 := fieldAt bs 7 1 == 1,
    rows := fieldAt bs 8 2, cols := fieldAt bs 10 2, retain := (if fieldAt bs 12 1 = 1 then 1 else 2),
    factored := bit (fieldAt bs 13 1) 0, master := fieldAt bs 16 8, moment := fieldAt bs 24 8, rowAcc := fieldAt bs 32 8,
    colAcc := fieldAt bs 40 8, gacc := fieldAt bs 48 8, wc0 := fieldAt bs 56 8, wc1 := fieldAt bs 64 8, fset := fieldAt bs 72 8,
    version := 0, gradCount := 0, ver0 := 0, ver1 := 0xFFFFFFFF, digest0 := 0, digest1 := 0, skips := 0, fallbacks := 0, streak := 0,
    image := none }

/-- Regions of a shard: address and bytes (R172). -/
def shardRegions (h : Shard) : List (Nat × Nat) :=
  let n := h.rows * h.cols
  [(h.master, tensorBytes 0 (wholeShape h.masterFb h.rows h.cols)), (h.moment, 4 * n)] ++
  (if h.factored then [(h.rowAcc, 4 * h.rows), (h.colAcc, 4 * h.cols)] else []) ++
  [(h.gacc, 4 * n), (h.wc0, tensorBytes 0 (wholeShape h.wcFmt h.rows h.cols))] ++
  (if h.retain = 2 then [(h.wc1, tensorBytes 0 (wholeShape h.wcFmt h.rows h.cols))] else [])

/-- Where a region that a shard names is read and written now: in the copy that serves it, or at home (R169, R216). -/
def regionAt (s : State) (x n : Nat) : GAddr := (served s (localise s (gaddrOf x)) n).1

/-- A region does not lie in TIER 0 or TIER 1 memory of the shard's die (R169, R172): state whose home is lent or host memory lies where its
copy is, and nowhere on the die while it has none (notes/assumptions/124). -/
def regionBad (s : State) (die : Nat) (r : Nat × Nat) : Bool :=
  let g := regionAt s r.1 r.2
  addrBad 15 r.1 r.2 || (gaddrOf r.1).off % 256 != 0 || !(g.tier ∈ [0, 1]) || !(onOneDie die g.off r.2)

/-- A number for each byte that an address may name, of whatever tier and peer, to compare regions by. -/
def spotOf (s : State) (x : Nat) : Nat :=
  let g := localise s (gaddrOf x)
  if g.tier < 4 then g.off else g.off + 2 ^ 48 * (g.tier * 4096 + g.peer)

/-- The ranges of a shard, by their spots. -/
def shardRanges (s : State) (h : Shard) : List (Nat × Nat) := (shardRegions h).map (fun r => (spotOf s r.1, r.2))

/-- SHARD_INIT's checks (R170 to R173). -/
def shardOk (s : State) (c : Cmd) (a : Nat) (bs : List Byte) : Bool :=
  let h := shardRaw c.pkt.job bs
  let die := dieOfAddr a
  let f := fld h.wcFmt 0 4
  let mine := shardRanges s h
  (f == 3 || f == 4 || narrow f) && !(fmtBad true h.wcFmt) && decide (fieldAt bs 7 1 ≤ 1) && decide (1 ≤ h.rows) &&
  decide (h.rows ≤ 8192) && decide (1 ≤ h.cols) && decide (h.cols ≤ 8192) && decide (fieldAt bs 12 1 ≤ 2) &&
  decide (fieldAt bs 13 1 ≤ 1) && zeroAt bs 14 2 && zeroAt bs 120 8 && (h.factored || (h.rowAcc == 0 && h.colAcc == 0)) &&
  (h.retain == 2 || h.wc1 == 0) && (regionAt s h.gacc (4 * h.rows * h.cols)).tier == 0 &&
  (shardRegions h).all (fun r => !(regionBad s die r)) && !(anyOverlap ((a, 128) :: mine)) &&
  !(s.shards.any (fun e => e.1 != a && (shardRanges s e.2).any (fun x => mine.any (fun y => overlap x.1 x.2 y.1 y.2)))) &&
  (h.fset == 0 ||
    (!(structRangeBad s [0, 1] none 128 h.fset 128) &&
      (let fb := cBytes s c (gaddrOf h.fset) 128
       (fieldAt fb 8 2 == 0 || fieldAt fb 8 2 == h.rows) && (fieldAt fb 10 2 == 0 || fieldAt fb 10 2 == h.cols))))

/-- The Module fields of a shard that stand in one piece (R171, R172). -/
def Shard.state (h : Shard) : List Byte :=
  leBytes 4 h.version ++ leBytes 4 h.gradCount ++ leBytes 4 h.ver0 ++ leBytes 4 h.ver1 ++ leBytes 8 h.digest0 ++ leBytes 8 h.digest1 ++
  leBytes 4 h.skips ++ leBytes 4 h.fallbacks

/-- The control block of an active shard as the module keeps it (R171): what software writes over it in memory has no effect. -/
def Shard.block (h : Shard) : List Byte :=
  leBytes 2 h.job ++ leBytes 2 h.layer ++ leBytes 2 h.lblock ++ leBytes 1 h.wcFmt ++ leBytes 1 (b2n h.masterFp32) ++ leBytes 2 h.rows ++
  leBytes 2 h.cols ++ leBytes 1 h.retain ++ leBytes 1 (b2n h.factored) ++ zeros 2 ++ leBytes 8 h.master ++ leBytes 8 h.moment ++
  leBytes 8 h.rowAcc ++ leBytes 8 h.colAcc ++ leBytes 8 h.gacc ++ leBytes 8 h.wc0 ++ leBytes 8 h.wc1 ++ leBytes 8 h.fset ++ h.state ++ zeros 8

/-- A shard as its control block on another peer gives it (R171). -/
def shardRead (bs : List Byte) : Shard :=
  { shardRaw (fieldAt bs 0 2) bs with
    version := fieldAt bs 80 4, gradCount := fieldAt bs 84 4, ver0 := fieldAt bs 88 4, ver1 := fieldAt bs 92 4, digest0 := fieldAt bs 96 8,
    digest1 := fieldAt bs 104 8, skips := fieldAt bs 112 4, fallbacks := fieldAt bs 116 4 }

/-- Write the Module fields of a shard control block (R171). -/
def putShard (s : State) (a : Nat) (h : Shard) : State :=
  let s := { s with shards := tput s.shards a h }
  let k := jobKey s 0 h.job
  wrLocal (wrLocal s k a (leBytes 2 h.job)) k (a + 80) h.state

/-- Local address of the shard control block of slot 0. -/
def shardAddr (s : State) (p : Packet) : Nat := (localise s (descAddr (p.slot 0))).off

/-- An operand made of a region and a shape. -/
def regionOp (addr fb rows cols : Nat) : Opnd := ⟨0, gaddrOf addr, wholeShape fb rows cols⟩

/-- The entry of a region written, for census (R176): SLOT 0, ADDRESS the region. -/
def regionOut (o : Opnd) (w : Wr) : OutInfo := ⟨0, o.addr.code, 1, w.swatch, w.bytes⟩

/-- The master values of a shard as a command read them. -/
def masterVals (s : State) (c : Cmd) (h : Shard) : List (List Num) := opVals s c (regionOp h.master h.masterFb h.rows h.cols)

/-- encode_working (R185). -/
def encodeWorking (h : Shard) (addr : Nat) (w : List (List Num)) : Wr :=
  writeView (regionOp addr h.wcFmt h.rows h.cols) .nearest none (w.map (fun r => r.map El.of))

/-- A region that a structure names is made zero at a commit, in the copy that serves it (R216, R217). -/
def zeroRegion (s : State) (c : Cmd) (x n : Nat) : State :=
  let g := resolve s c (gaddrOf x) n
  markDirty (zeroLocal s (jobKey s c.sess c.pkt.job) g.off n) [⟨g, zeros n⟩]

-- schedules -----------------------------------------------------------------------------------------------------------

/-- The entries of a schedule table (R189). -/
def schedSegs (n : Nat) (bs : List Byte) : List SchedSeg :=
  (List.range n).map (fun i => ⟨fieldAt bs (32 * i) 4, fieldAt bs (32 * i + 4) 4, fieldAt bs (32 * i + 8) 4, fieldAt bs (32 * i + 12) 4,
    fieldAt bs (32 * i + 16) 1 == 1⟩)

/-- A table's entries break R189 or R190. -/
def schedBad (n : Nat) (bs : List Byte) : Bool :=
  let es := schedSegs n bs
  (List.range n).any (fun i =>
    let e := es.getD i ⟨0, 0, 0, 0, false⟩
    e.length == 0 || !(fp32NonNeg e.lr0) || !(fp32NonNeg e.lr1) || decide (1 < fieldAt bs (32 * i + 16) 1) ||
    !(zeroAt bs (32 * i + 17) 15) || decide (2 ^ 32 < e.start + e.length) ||
    (match es[i + 1]? with | some g => decide (g.start < e.start + e.length) | none => false))

/-- cos(π · t / l) as a fraction, 0 ≤ t ≤ l. -/
def fxCos (x : Int) : Nat → Nat → Int → Int
  | 0, _, _ => 0
  | n + 1, k, p => p + fxCos x n (k + 2) (-(fxMul (fxMul p x) x) / (((k + 1) * (k + 2) : Nat) : Int))

def cosPi (t l : Nat) : Int × Nat :=
  if 2 * t = l then (0, 1) else if 3 * t = l then (1, 2) else if 3 * t = 2 * l then (-1, 2)
  else (fxCos (fxPi * (t : Int) / (l : Int)) 90 0 fxOne, 2 ^ fxP)

/-- The rate of a cosine segment (R191): any FP32 value within 2 ulp of exact (R61), inexact unless it is that (R530). -/
def cosineRate (e : SchedSeg) (t : Nat) : Nat × Nat :=
  let a := (v32 e.lr0).toQ
  let b := (v32 e.lr1).toQ
  let d := subQ a b
  let c := addQ (1, 1) (cosPi t e.length)
  let v := addQ b (d.1 * c.1, 2 * d.2 * c.2)
  let cand := saneCode 0 (Config.freeFunc [0x191, e.lr0, e.lr1, t, e.length])
  let cv := decodeWide 0 cand
  let w := if cv.isFin && leQ (absQ (subQ cv.toQ v)) (mulQ (2, 1) (ulpAt 0 v)) then cand else (writeWide 0 2 .nearest (ofQ false v)).code
  (w, if (subQ (v32 w).toQ v).1 = 0 then 0 else flInexact)

/-- schedule (R191): the rate as an FP32 code, and the flags of its roundings. -/
def schedule (segs : List SchedSeg) (step : Nat) : Nat × Nat :=
  match (segs.filter (fun e => decide (e.start ≤ step))).getLast? with
  | none => ((segs.headD ⟨0, 0, 0, 0, false⟩).lr0, 0)
  | some e =>
    let t := step - e.start
    if e.length ≤ t then (e.lr1, 0)
    else if e.cosine then cosineRate e t
    else
      let rt := wRound 0 (.ok (numOf t)); let rl := wRound 0 (.ok (numOf e.length))
      let f := wRound 0 (numDiv rt.1 rl.1)
      let d := wRound 0 (numSub .nearest (v32 e.lr1) (v32 e.lr0))
      let p := wRound 0 (numMul f.1 d.1)
      let y := wRound 0 (numAdd .nearest (v32 e.lr0) p.1)
      (to32 y.1, rt.2 ||| rl.2 ||| f.2 ||| d.2 ||| p.2 ||| y.2)

-- the update rule -----------------------------------------------------------------------------------------------------

/-- The update parameter block (R178). -/
structure UpdPar where
  step    : Nat
  sched   : Nat
  pcH16   : Bool
  clear   : Bool
  gnorm   : Nat
  clip    : Nat
  beta1   : Nat
  beta2   : Nat
  eps2    : Nat
  wd      : Nat
  divisor : Nat
  work    : Nat
  deriving DecidableEq, Repr

def updParOf (bs : List Byte) : UpdPar :=
  { step := fieldAt bs 0 4, sched := fieldAt bs 4 1, pcH16 := fieldAt bs 5 1 == 1, clear := bit (fieldAt bs 6 1) 0, gnorm := fieldAt bs 8 4,
    clip := fieldAt bs 12 4, beta1 := fieldAt bs 16 4, beta2 := fieldAt bs 20 4, eps2 := fieldAt bs 24 4, wd := fieldAt bs 28 4,
    divisor := fieldAt bs 32 4, work := fieldAt bs 40 8 }

def fp32Decay (x : Nat) : Bool := fp32NonNeg x && ltQ (v32 x).toQ (1, 1)

/-- The parameter block's limits (R178). -/
def updParOk (op : Nat) (bs : List Byte) : Bool :=
  let q := updParOf bs
  decide (q.sched ≤ 3) && decide (fieldAt bs 5 1 ≤ 1) && decide (fieldAt bs 6 1 ≤ 1) && zeroAt bs 7 1 && fp32NonNeg q.clip &&
  fp32Decay q.beta1 && fp32Decay q.beta2 && fp32Pos q.eps2 && fp32NonNeg q.wd && zeroAt bs 36 4 && zeroAt bs 48 16 &&
  (op == 3 || q.work == 0)

/-- The factor set of a shard. -/
def shardFset (s : State) (h : Shard) : Option Fset := if h.fset = 0 then none else tfind s.fsets (lofs s h.fset)

/-- Work size of UPD_PRECOND (R187). -/
def workSize (h : Shard) (f : Fset) (h16 : Bool) : Nat :=
  let we := if h16 then 2 else 4
  let n := h.rows * h.cols
  let ds := blockDims f.dimA ++ blockDims f.dimG
  roundUp (we * n) 256 + roundUp (we * n) 256 + roundUp (4 * n) 256 + roundUp (we * ds.foldl (fun a d => a + d * d) 0) 256

/-- The shard of an update command and its parameters, as read at the start. -/
def updShard (s : State) (c : Cmd) : Option (Shard × UpdPar) :=
  (c.shard.or (tfind s.shards (shardAddr s c.pkt))).map (fun h => (h, updParOf (cBytes s c (descAddr (c.pkt.slot 1)) 64)))

/-- The factor set of an update command, as it was at the start (R182). -/
def updFset (s : State) (c : Cmd) (h : Shard) : Option Fset := c.fset.or (shardFset s h)

/-- The work region of an update, local. -/
def workRange (s : State) (c : Cmd) : List (Nat × Nat) :=
  match updShard s c with
  | some (h, q) =>
    if c.pkt.op = 3 then
      match updFset s c h with
      | some f => [(lofs s q.work, workSize h f q.pcH16)]
      | none => []
    else []
  | none => []

/-- Updates are classes 0x601 to 0x603. -/
def isUpd (p : Packet) : Bool := p.cls == 6 && decide (1 ≤ p.op) && decide (p.op ≤ 3)

/-- Does an update, a SHARD_INIT or a shard copy of a shard run (R177, R484)? -/
def shardBusy (s : State) (cid a : Nat) : Bool :=
  s.cmds.any (fun x => x.id != cid && inUse x && shardAddr s x.pkt == a &&
    (isUpd x.pkt || x.pkt.clsOp == 0x608 || (match x.origin with | .shardCopy _ _ => true | _ => false)))

/-- Does a dimension of a factor fit a shard's side? -/
def dimFits (d k : Nat) : Bool := d == 0 || d == k

/-- The work region holds nothing that software may rely on (R181). -/
def hideWork (s : State) (c : Cmd) : State := (workRange s c).foldl (fun s r => { s with keys := setUndef s.keys r.1 r.2 }) s

/-- The start of an update command (R176, R177, R179, R187, R199). What it remembers of its start: the rate with its flags, as the tables
stood (R190), and the contributor count; the shard, its set and FALLBACK_DIAG (R171, R182). It waits for state that is on its way to the
die (R169). -/
def updStart (s : State) (c : Cmd) : StartRes :=
  let a := shardAddr s c.pkt
  match tfind s.shards a with
  | none => badIn 0
  | some h =>
    let bs := cBytes s c (descAddr (c.pkt.slot 1)) 64
    let q := updParOf bs
    let op := c.pkt.op
    let tab := s.scheds.find? (fun t => t.job == c.pkt.job && t.slot == q.sched)
    let fs := shardFset s h
    let her := c.pkt.heritage && (!h.masterFp32 || heritageShapeBad (wholeShape h.wcFmt h.rows h.cols))
    let work : Bool :=
      match fs with
      | some f =>
        let n := workSize h f q.pcH16
        structRangeBad s [0, 1] (some (dieOfAddr a)) 256 q.work n ||
        (shardRanges s h).any (fun r => overlap r.1 r.2 (lofs s q.work) n) || overlap a 128 (lofs s q.work) n
      | none => true
    if !(updParOk op bs) then badIn 1
    else if her then .stop stBad (badAt 0 0xFF) []
    else if h.job ≠ c.pkt.job then .stop stDenied 0 []
    else if tab.isNone then badIn 1
    else if op ≠ 1 ∧ h.factored = false then badIn 0
    else if op = 3 ∧ (match fs with | some f => f.job != c.pkt.job || !(dimFits f.dimA h.rows && dimFits f.dimG h.cols) | none => true) = true then
      badIn 0
    else if op = 3 ∧ work = true then badIn 1
    else if op = 3 ∧ structDenied s c q.work (match fs with | some f => workSize h f q.pcH16 | none => 1) true = true then .stop stDenied 1 []
    else if shardBusy s c.id a || s.cmds.any (fun x => x.id != c.id && inUse x && isUpd x.pkt &&
        ((workRange s x).any (fun r => (workRange s c).any (fun t => overlap r.1 r.2 t.1 t.2)))) then .wait
    else if (shardRegions h).any (regionBad s (dieOfAddr a)) then .wait
    else
      let eta := schedule (match tab with | some t => t.segs | none => []) q.step
      .go (hideWork s c) { c with
        aux := [eta.1, h.gradCount, eta.2], shard := some h, fset := if op = 3 then fs else none,
        fall := match findJob s c.pkt.job with | some j => j.fallback | none => false }

/-- One operation of the rule on FP32 values (R47, R61): exact, one rounding; a NaN operand makes the result NaN, declared
if any operand is. -/
def uOp (ops : List Num) (r : Res) : Num × Nat :=
  if ops.any Num.isNan then (if ops.any Num.isDeclared then declaredNan else qnan, if ops.any Num.isSig then flInvalid else 0)
  else wRound 0 r

/-- A result of the rule as an element. In heritage mode a subnormal FP32 result is flushed to zero of its sign, and counted (R62). -/
def uFlush (her : Bool) (x : Num × Nat) : El :=
  let f := hFlush (to32 x.1)
  if her && f.2 then ⟨v32 f.1, x.2, none, true⟩ else ⟨x.1, x.2, none, false⟩

def El.fl2 (e : El) : Num × Nat := (e.v, e.fl)
def uAddEl (her : Bool) (a b : Num) : El := uFlush her (uOp [a, b] (numAdd .nearest a b))
def uAdd (her : Bool) (a b : Num) : Num × Nat := (uAddEl her a b).fl2
def uMul (her : Bool) (a b : Num) : Num × Nat := (uFlush her (uOp [a, b] (numMul a b))).fl2
def uDiv (her : Bool) (a b : Num) : Num × Nat := (uFlush her (uOp [a, b] (numDiv a b))).fl2
def uSqrt (a : Num) : Num × Nat := uOp [a] (numSqrt a)

/-- A reduction of FP32 terms (R61). -/
def uSum (ctx : List Nat) (xs : List Num) : Num × Nat :=
  let r := sumTerms 0 ctx xs (clog2 xs.length) xs.length
  (r.val, r.fl)

/-- A sum of squares (a dot product of a vector with itself). -/
def uSquares (ctx : List Nat) (xs : List Num) : Num × Nat :=
  let r := sumTerms 0 ctx (xs.map (fun x => match x with | .nan _ _ _ => x | _ => (numMul x x).val)) (clog2 xs.length + 1) xs.length
  (r.val, r.fl)

def uNorm (ctx : List Nat) (xs : List Num) : Num × Nat := let r := norm2 0 ctx xs; (r.val, r.fl)

abbrev Fl (α : Type) := α × Nat

/-- A matrix of results with the OR of their flags. -/
def uMat (m : List (List Num)) (g : Nat → Nat → Num → Num × Nat) : Fl (List (List Num)) :=
  let r := m.zipIdx.map (fun row => row.1.zipIdx.map (fun x => g row.2 x.2 x.1))
  (r.map (fun row => row.map Prod.fst), r.foldl (fun a row => row.foldl (fun a x => a ||| x.2) a) 0)

/-- A matrix of elements, with what it holds. -/
def uEls (m : List (List Num)) (g : Nat → Nat → Num → El) : List (List El) :=
  m.zipIdx.map (fun row => row.1.zipIdx.map (fun x => g row.2 x.2 x.1))
def elVals (m : List (List El)) : List (List Num) := m.map (fun r => r.map El.v)
def elFlags (m : List (List El)) : Nat := m.foldl (fun a r => r.foldl (fun a e => a ||| e.fl) a) 0

def uVec (v : List Num) (g : Nat → Num → Num × Nat) : Fl (List Num) := orFl (v.zipIdx.map (fun x => g x.2 x.1))

/-- A matrix converted to the format of the preconditioning products (R181). -/
def toPc (h16 : Bool) (m : List (List Num)) : Fl (List (List Num)) :=
  if h16 then uMat m (fun _ _ x => let w := writeWide 3 2 .nearest x; (decodeWide 3 w.code, w.fl)) else (m, 0)

/-- A product of the preconditioning, written to FP32 or to PC_FMT (R181). -/
def pcMul (ctx : List Nat) (f : Nat) (a b : List (List Num)) : Fl (List (List Num)) :=
  let bt := transp b
  wMat a.length bt.length (fun i j =>
    let e := meElem (i :: j :: ctx) false none (a.getD i []) (bt.getD j [])
    let w := writeWide f 2 .nearest e.v
    (decodeWide f w.code, e.fl ||| w.fl))

/-- A part of a matrix. -/
def subMat (m : List (List Num)) (r0 nr c0 nc : Nat) : List (List Num) := ((m.drop r0).take nr).map (fun r => (r.drop c0).take nc)

/-- Offsets of the blocks of a factor. -/
def blockOffs (ds : List Nat) : List (Nat × Nat) := (ds.foldl (fun (a : List (Nat × Nat) × Nat) d => (a.1 ++ [(a.2, d)], a.2 + d)) ([], 0)).1

/-- P := XA · g · XG by blocks (R181); a factor of dimension 0 is left out. -/
def precondition (ctx : List Nat) (h16 : Bool) (f : Fset) (roots : FBlock → List (List Num)) (g : List (List Num)) : Fl (List (List Num)) :=
  let pf := if h16 then 3 else 0
  let K := g.length
  let N := (g.headD []).length
  let gp := toPc h16 g
  let blk := fun (isG : Bool) => (fsetBlocks f).filter (fun b => b.isG == isG)
  let pas : List (Nat × Nat × Option FBlock) :=
    if f.dimA = 0 then [(0, K, none)] else ((blockOffs (blockDims f.dimA)).zip (blk false)).map (fun x => (x.1.1, x.1.2, some x.2))
  let pgs : List (Nat × Nat × Option FBlock) :=
    if f.dimG = 0 then [(0, N, none)] else ((blockOffs (blockDims f.dimG)).zip (blk true)).map (fun x => (x.1.1, x.1.2, some x.2))
  let rowsOf := pas.map (fun a =>
    let parts := pgs.map (fun b =>
      let gab := subMat gp.1 a.1 a.2.1 b.1 b.2.1
      match a.2.2, b.2.2 with
      | some ba, some bg =>
        let xa := toPc h16 (roots ba)
        let xg := toPc h16 (roots bg)
        let t := pcMul (1 :: a.1 :: b.1 :: ctx) pf xa.1 gab
        let p := pcMul (2 :: a.1 :: b.1 :: ctx) 0 t.1 xg.1
        (p.1, xa.2 ||| xg.2 ||| t.2 ||| p.2)
      | some ba, none => let xa := toPc h16 (roots ba); let p := pcMul (3 :: a.1 :: ctx) 0 xa.1 gab; (p.1, xa.2 ||| p.2)
      | none, some bg => let xg := toPc h16 (roots bg); let p := pcMul (4 :: b.1 :: ctx) 0 gab xg.1; (p.1, xg.2 ||| p.2)
      | none, none => (gab, 0))
    ((List.range a.2.1).map (fun i => (parts.map (fun p => p.1.getD i [])).flatten), parts.foldl (fun x p => x ||| p.2) 0))
  ((rowsOf.map Prod.fst).flatten, rowsOf.foldl (fun x p => x ||| p.2) gp.2)

/-- What the rule leaves (R180): master before its rounding, moment, accumulators, gradient before clipping, flags. -/
structure UpdRes where
  w   : List (List El)
  m   : List (List El)
  row : List Num
  col : List Num
  g0  : List (List Num)
  fl  : Nat

/-- The rule of R180, steps 1 to 7. `kind`: 1 first-order, 2 diagonal, 3 preconditioned. A comparison with a NaN is false, as
written (notes/assumptions/23). In heritage mode (`her`, UPD_FIRST) subnormal FP32 results are flushed (R62). -/
def updRule (ctx : List Nat) (her : Bool) (kind : Nat) (h : Shard) (q : UpdPar) (n eta : Nat) (fs : Option Fset) (roots : FBlock → List (List Num))
    (acc w m : List (List Num)) (row col : List Num) : UpdRes :=
  let K := h.rows
  let N := h.cols
  let one := numOf 1
  let cc : Num × Nat :=
    if (v32 q.clip).isZero then (one, 0)
    else let x := uDiv her (v32 q.clip) (v32 q.gnorm); (if numLe one x.1 then one else x.1, x.2)
  let b1 := v32 q.beta1; let b2 := v32 q.beta2
  let a1 := (uFlush her (wRound 0 (numSub .nearest one b1))).fl2
  let a2 := (uFlush her (wRound 0 (numSub .nearest one b2))).fl2
  let g0 := uMat acc (fun _ _ x => uDiv her x (numOf n))
  let g := uMat g0.1 (fun _ _ x => uMul her x cc.1)
  let row' := uVec row (fun i r =>
    let s := uSquares (1 :: i :: ctx) (g.1.getD i [])
    let t := uDiv her s.1 (numOf N); let u := uMul her a2.1 t.1; let v := uMul her b2 r; let x := uAdd her v.1 u.1
    (x.1, s.2 ||| t.2 ||| u.2 ||| v.2 ||| x.2))
  let col' := uVec col (fun j r =>
    let s := uSquares (2 :: j :: ctx) (colOf g.1 j)
    let t := uDiv her s.1 (numOf K); let u := uMul her a2.1 t.1; let v := uMul her b2 r; let x := uAdd her v.1 u.1
    (x.1, s.2 ||| t.2 ||| u.2 ||| v.2 ||| x.2))
  let rs := uSum (3 :: ctx) row'.1
  let rbar := uDiv her rs.1 (numOf K)
  let pos := gtN rbar.1 (.fin false 0 1)
  let D := uMat g.1 (fun i j x =>
    let p := uMul her (row'.1.getD i qnan) (col'.1.getD j qnan)
    let v := if pos then let d := uDiv her p.1 rbar.1; (d.1, p.2 ||| d.2) else (.fin false 0 1, 0)
    let r := uSqrt v.1
    let e := uAdd her r.1 (v32 q.eps2)
    let y := uDiv her x e.1
    (y.1, v.2 ||| r.2 ||| e.2 ||| y.2))
  let fl2 := row'.2 ||| col'.2 ||| rs.2 ||| rbar.2 ||| D.2
  let U : Fl (List (List Num)) :=
    if kind = 1 then (g.1, 0)
    else if kind = 2 then (D.1, fl2)
    else
      match fs with
      | none => (D.1, fl2)
      | some f =>
        let P := precondition (4 :: ctx) q.pcH16 f roots g.1
        let nP := uNorm (5 :: ctx) P.1.flatten
        let nD := uNorm (6 :: ctx) D.1.flatten
        let ga := if gtN nP.1 (.fin false 0 1) then uDiv her nD.1 nP.1 else (.fin false 0 1, 0)
        let u := uMat P.1 (fun _ _ x => uMul her ga.1 x)
        (u.1, fl2 ||| P.2 ||| nP.2 ||| nD.2 ||| ga.2 ||| u.2)
  let m' := uEls m (fun i j x =>
    let a := uMul her b1 x
    let b := uMul her a1.1 (mAt U.1 i j)
    let y := uAddEl her a.1 b.1
    { y with fl := a.2 ||| b.2 ||| y.fl })
  let mv := elVals m'
  let d := uMat w (fun i j x =>
    let r := (uFlush her (wRound 0 (.ok x))).fl2
    let t := uMul her (v32 q.wd) r.1
    let y := uAdd her (mAt mv i j) t.1
    (y.1, r.2 ||| t.2 ||| y.2))
  let w' := uEls w (fun i j x =>
    let dd := mAt d.1 i j
    if x.isNan || dd.isNan then El.of (if x.isDeclared || dd.isDeclared then declaredNan else qnan)
    else
      let y := numFma .nearest (v32 eta).neg dd x
      if her then uFlush true (wRound 0 y) else ⟨y.val, y.fl, none, false⟩)
  ⟨w', m', row'.1, col'.1, g0.1, cc.2 ||| a1.2 ||| a2.2 ||| g0.2 ||| g.2 ||| U.2 ||| elFlags m' ||| d.2 ||| elFlags w'⟩

/-- Finite nonzero elements of the gradient that the update reads (R79). -/
def dryZ (g0 : List (List Num)) : Nat := (g0.flatten.filter (fun x => x.isFin && !x.isZero)).length

/-- The first unusable root of a set, from its headers as read at the start (R146, R182). -/
def badRoot (s : State) (c : Cmd) (f : Fset) : Option FBlock :=
  (fsetBlocks f).find? (fun b => let st := fieldAt (cBytes s c (gLocal (fsetHdr f b)) 64) 10 1; !(bit st 0) || bit st 1)

/-- The rounded master as its readers see it. -/
def masterRound (h : Shard) (m : List (List Num)) : List (List Num) :=
  let f := if h.masterFp32 then 0 else 2
  m.map (fun r => r.map (fun x => decodeWide f (writeWide f 2 .nearest x).code))

/-- Slot that a new version goes to (R184). -/
def nextSlot (h : Shard) : Nat := if h.retain = 1 then 0 else (h.version + 1) % 2

/-- Run an update (R180 to R184). aux after the run: 1 skipped or 2 not, Z and N of R79, the slot, the digest, whether the
fallback was used, the cause of a skip, CLEAR. -/
def updRun (op : Nat) (s : State) (c : Cmd) : Out :=
  match updShard s c with
  | none => badStart
  | some (h, q) =>
    let K := h.rows
    let N := h.cols
    let eta := c.aux.getD 0 0
    let count := c.aux.getD 1 0
    let n := if 0 < q.divisor then q.divisor else count
    let acc := opVals s c (regionOp h.gacc 0x80 K N)
    let skip := if n = 0 then 1 else if !((v32 q.gnorm).isFin) then 2 else 0
    if skip ≠ 0 then
      let g0 := uMat acc (fun _ _ x => uDiv c.pkt.heritage x (numOf (max n 1)))
      .done { Stg.none with flags := 4, aux := [1, dryZ g0.1, K * N, 0, 0, 0, skip, b2n q.clear] }
    else
      let fs := updFset s c h
      let bad := if op = 3 then fs.bind (badRoot s c) else none
      match bad, fs with
      | some b, some f =>
        if c.fall then updFinish s c h q (if op = 3 then 2 else op) n eta fs acc 1
        else .stop stIll 0 [(0x08, fDetail f b, 0, 0)]
      | _, _ => updFinish s c h q op n eta fs acc 0
where
  updFinish (s : State) (c : Cmd) (h : Shard) (q : UpdPar) (kind n eta : Nat) (fs : Option Fset) (acc : List (List Num))
      (fallback : Nat) : Out :=
    let K := h.rows
    let N := h.cols
    let w := masterVals s c h
    let m := opVals s c (regionOp h.moment 0x80 K N)
    let row := if h.factored then (opVals s c (regionOp h.rowAcc 0x80 1 K)).headD [] else []
    let col := if h.factored then (opVals s c (regionOp h.colAcc 0x80 1 N)).headD [] else []
    let roots := fun (b : FBlock) => opVals s c (regionOp (gLocal b.root).code 0x80 b.dim b.dim)
    let ctx := c.pkt.clsOp :: b2n c.pkt.heritage :: K :: N :: h.wcFmt :: q.gnorm :: q.clip :: q.beta1 :: q.beta2 :: q.eps2 :: q.wd :: eta ::
      ((acc ++ w ++ m ++ [row, col]).flatten.map Num.key).flatten
    let r := updRule ctx c.pkt.heritage kind h q n eta fs roots acc w m row col
    let mo := regionOp h.master h.masterFb K N
    let ww := writeView mo .nearest none r.w
    let mm := regionOp h.moment 0x80 K N
    let wm := writeView mm .nearest none r.m
    let slot := nextSlot h
    let co := regionOp (if slot = 0 then h.wc0 else h.wc1) h.wcFmt K N
    let wc := encodeWorking h (if slot = 0 then h.wc0 else h.wc1) (masterRound h (elVals r.w))
    let accs := if kind = 1 then [] else
      (writeView (regionOp h.rowAcc 0x80 1 K) .nearest none [r.row.map El.of]).writes ++
      (writeView (regionOp h.colAcc 0x80 1 N) .nearest none [r.col.map El.of]).writes
    .done { Stg.none with
      writes := placeWrites s c (ww.writes ++ wm.writes ++ accs ++ wc.writes),
      outs := [regionOut mo ww, regionOut mm wm, regionOut co wc], ieee := c.aux.getD 2 0 ||| r.fl ||| ww.fl ||| wm.fl ||| wc.fl,
      flags := 2 * fallback, aux := [2, dryZ r.g0, K * N, slot, crc64 wc.bytes, fallback, 0, b2n q.clear] }

/-- The dry-pound watch at an update's commit (R78 to R80). -/
def dryWatch (s : State) (c : Cmd) (a : Nat) (z n : Nat) : State :=
  match tfind s.shards a with
  | none => s
  | some h =>
    match s.watch.find? (fun w => w.1 == (h.job, h.layer)) with
    | none => s
    | some w =>
      if z * 10000 < w.2.1 * n then
        let k := h.streak + 1
        let s := { s with shards := tput s.shards a { h with streak := k } }
        if k % w.2.2 = 0 then raiseFor s (dieOfAddr a) 0x05 false none h.job h.layer c.pkt.seq (h.lblock + s.cfg.peerId * 2 ^ 16) k (z * 10000 / n)
        else s
      else { s with shards := tput s.shards a { h with streak := 0 } }

/-- The commit of an update (R183, R184). -/
def updEff (s : State) (c : Cmd) : State :=
  let a := shardAddr s c.pkt
  match tfind s.shards a with
  | none => s
  | some h =>
    let x := fun (i : Nat) => c.aux.getD i 0
    let clear := x 7 == 1
    let s := if clear then zeroRegion s c h.gacc (4 * h.rows * h.cols) else s
    let h := if clear then { h with gradCount := 0 } else h
    if x 0 = 1 then
      let s := putShard s a { h with skips := (h.skips + 1) % 2 ^ 32 }
      let s := raiseCmd s c 0x09 (h.lblock + x 6 * 2 ^ 16) h.version 0
      dryWatch s c a (x 1) (x 2)
    else
      let v := (h.version + 1) % 2 ^ 32
      let h := if x 3 = 0 then { h with version := v, ver0 := v, digest0 := x 4 } else { h with version := v, ver1 := v, digest1 := x 4 }
      let s := putShard s a { h with fallbacks := (h.fallbacks + x 5) % 2 ^ 32 }
      dryWatch (hideWork s c) c a (x 1) (x 2)

/-- The figure of R308 for an update, in cycles (R187), with stage 2 as that rule gives it. -/
def updFigure (s : State) (c : Cmd) : Nat :=
  match updShard s c with
  | none => 0
  | some (h, q) =>
    let op := c.pkt.op
    let eu := ceilDiv h.rows 16 * h.cols
    let base := 512 + (128 + ceilDiv eu 32) + (128 + ceilDiv eu 32) + (if op = 1 then 0 else 256 + ceilDiv (h.rows + h.cols) 32)
    if op ≠ 3 then base
    else
      match updFset s c h with
      | none => base
      | some f =>
        let da := if f.dimA = 0 then [h.rows] else blockDims f.dimA
        let dg := if f.dimG = 0 then [h.cols] else blockDims f.dimG
        let ds := blockDims f.dimA ++ blockDims f.dimG
        let tl := if q.pcH16 then (16, 16) else (8, 8)
        let cyc := fun (m n k : Nat) => meCycles (ceilDiv m tl.1 * ceilDiv n tl.2) k
        let pairs := (da.map (fun x => dg.map (fun y => (x, y)))).flatten
        let best := fun (g : Nat × Nat → Nat) => pairs.foldl (fun b p => max b (g p)) 0
        let st2 :=
          if f.dimA = 0 then best (fun p => cyc p.1 p.2 p.2)
          else if f.dimG = 0 then best (fun p => cyc p.1 p.2 p.1)
          else best (fun p => cyc p.1 p.2 p.1) + best (fun p => cyc p.1 p.2 p.2)
        let st3 := if c.fall && (badRoot s c f).isSome then 0 else 64 + ceilDiv eu 32
        base + ceilDiv (ds.foldl (fun a d => a + d * d) 0) 512 + 64 * ds.length + st2 + st3

-- SHARD_INIT and SCHED_LOAD ---------------------------------------------------------------------------------------------

/-- The start of SHARD_INIT (R173, R177). -/
def shardStart (s : State) (c : Cmd) : StartRes :=
  let a := shardAddr s c.pkt
  let bs := cBytes s c (descAddr (c.pkt.slot 0)) 128
  if !(shardOk s c a bs) then badIn 0
  else if (match tfind s.shards a with | some h => h.job != c.pkt.job | none => false) then .stop stDenied 0 []
  else if (shardRegions (shardRaw c.pkt.job bs)).any (fun r => structDenied s c r.1 r.2 true) then .stop stDenied 0 []
  else if shardBusy s c.id a then .wait
  else .go s c

/-- SHARD_INIT's outputs (R173): the working copy of version 0. Under CENSUS it is the one tensor that the command writes, and its entry
names slot 0; the zeros of the other regions make none: DESIGN CHOICE (notes/assumptions/127). -/
def shardRun (s : State) (c : Cmd) : Out :=
  let h := shardRaw c.pkt.job (cBytes s c (descAddr (c.pkt.slot 0)) 128)
  let wc := encodeWorking h h.wc0 (masterVals s c h)
  .done { Stg.none with
    writes := placeWrites s c wc.writes, outs := [regionOut (regionOp h.wc0 h.wcFmt h.rows h.cols) wc],
    ieee := wc.fl, aux := [crc64 wc.bytes] }

/-- SHARD_INIT's commit (R173). -/
def shardEff (s : State) (c : Cmd) : State :=
  let a := shardAddr s c.pkt
  let h := shardRaw c.pkt.job (cBytes s c (descAddr (c.pkt.slot 0)) 128)
  let n := 4 * h.rows * h.cols
  let s := zeroRegion (zeroRegion s c h.moment n) c h.gacc n
  let s := if h.factored then zeroRegion (zeroRegion s c h.rowAcc (4 * h.rows)) c h.colAcc (4 * h.cols) else s
  putShard s a { h with digest0 := c.aux.getD 0 0 }

/-- Would a SCHED_LOAD make a seventeenth table on the module (R190)? -/
def schedFull (s : State) (job slot : Nat) : Bool :=
  !(s.scheds.any (fun t => t.job == job && t.slot == slot)) && decide (16 ≤ s.scheds.length)

/-- The start of SCHED_LOAD (R190). -/
def schedStart (s : State) (c : Cmd) : StartRes :=
  let lb := cBytes s c (descAddr (c.pkt.slot 1)) 16
  let slot := fieldAt lb 0 1
  let n := fieldAt lb 1 1
  if !(decide (slot ≤ 3) && decide (1 ≤ n) && decide (n ≤ 64) && zeroAt lb 2 14) then badIn 1
  else if schedBad n (cBytes s c (descAddr (c.pkt.slot 0)) (32 * n)) then badIn 0
  else if schedFull s c.pkt.job slot then .stop stDenied 0xFE []
  else if s.cmds.any (fun x => inUse x && isUpd x.pkt && x.pkt.job == c.pkt.job &&
      (match updShard s x with | some (_, q) => q.sched == slot | none => false)) then .wait
  else .go s c

/-- SCHED_LOAD runs: another may have taken the sixteenth place since its start. -/
def schedRun (s : State) (c : Cmd) : Out :=
  if schedFull s c.pkt.job (fieldAt (cBytes s c (descAddr (c.pkt.slot 1)) 16) 0 1) then .stop stDenied 0xFE [] else .done Stg.none

/-- SCHED_LOAD's commit: the table is in every UE (R190). -/
def schedEff (s : State) (c : Cmd) : State :=
  let lb := cBytes s c (descAddr (c.pkt.slot 1)) 16
  let slot := fieldAt lb 0 1
  let n := fieldAt lb 1 1
  let t : Sched := ⟨c.pkt.job, slot, schedSegs n (cBytes s c (descAddr (c.pkt.slot 0)) (32 * n))⟩
  { s with scheds := s.scheds.filter (fun x => !(x.job == c.pkt.job && x.slot == slot)) ++ [t] }

-- GATHER and DIGEST_CHECK -----------------------------------------------------------------------------------------------

/-- The planes of a working copy: elements and mordants, without the gap (R196). -/
def wcPlanes (addr fb rows cols : Nat) (bs : List Byte) : List Byte × List Byte :=
  let h := wholeShape fb rows cols
  (bs.take (planeBytes h), if narrow h.fmt4 then bs.drop (plane2 addr h) else [])

/-- What a gather works from: owner's block, version, destination, and how the record is written. -/
structure GatherJob where
  owner   : GAddr
  version : Nat
  dest    : GAddr
  record  : GAddr
  flags   : Nat
  deriving DecidableEq, Repr

/-- L of R471 for an owner. -/
def lDetail (lblock peer : Nat) : Nat := lblock + peer * 2 ^ 16

/-- The destination of a gather does not fit the owner's working copy (R193): its shape where its slot names one, and its place. -/
def destBad (s : State) (c : Cmd) (j : GatherJob) (h : Shard) : Option (Nat × Nat) :=
  let n := tensorBytes j.dest.off (wholeShape h.wcFmt h.rows h.cols)
  let g := localise s j.dest
  if (match c.shapes.getD 1 none with | some x => x.fmt != h.wcFmt || x.rows != h.rows || x.cols != h.cols | none => false) ||
      addrBad 6 j.dest.code n || cutsObj s g n then some (stBad, badAt 0xFF 1)
  else if accessDenied s c j.dest n true true || (match objAt s g n with | some (_, o) => !o.writable | none => false) then some (stDenied, 1)
  else none

/-- Steps 1 to 5 of R193; `attempt` counts the copies made before this one. An owner of this module is read as the module keeps it (R171): at
the start, and again for step 3. -/
def gatherRun (s : State) (c : Cmd) (j : GatherJob) (attempt : Nat) : Out :=
  let o := localise s j.owner
  let far := o.tier == 4
  let ownerPeer := if far then o.peer else s.cfg.peerId
  let rb := (o.peer, o.off, 128)
  if far && !(received c rb) then .need [rb]
  else
    let h? := if far then some (shardRead (farExact c rb)) else c.shard.or (tfind s.shards o.off)
    let lblock := match h? with | some h => h.lblock | none => 0
    let mism : Out := .stop stVersion 0 [(0x0A, lDetail lblock ownerPeer, j.version, 0)]
    match h? with
    | none => mism
    | some h =>
      let want := if j.version = 0xFFFFFFFF then h.version else j.version
      let slot : Option Nat := if want = 0xFFFFFFFF then none else if h.ver0 = want then some 0 else if h.ver1 = want then some 1 else none
      match slot, destBad s c j h with
      | none, _ => mism
      | some _, some (st, d) => .stop st d []
      | some i, none =>
        let wg := gaddrOf (if i = 0 then h.wc0 else h.wc1)
        let wa := wg.off
        let sh := wholeShape h.wcFmt h.rows h.cols
        let n := tensorBytes wa sh
        let rs := (o.peer, wa, n)
        let rv := (o.peer, o.off + 88 + 4 * i, 4)
        if far && !(received c rs) then .need [rs]
        else if far && !(received c rv) then .need [rv]
        else
          let bs := if far then farExact c rs else if attempt = 0 then cBytes s c wg n
            else rdKey s (jobKey s c.sess c.pkt.job) (resolve s c wg n).off n
          let now := if far then leNat (farExact c rv)
            else match tfind s.shards o.off with | some g => if i = 0 then g.ver0 else g.ver1 | none => 0xFFFFFFFF
          if now ≠ want then mism
          else
            let pl := wcPlanes wa h.wcFmt h.rows h.cols bs
            let dig := crc64 (pl.1 ++ pl.2)
            let ev : CEvent := (0x0B, lDetail lblock ownerPeer, want, s.cfg.peerId)
            if dig ≠ (if i = 0 then h.digest0 else h.digest1) then
              if attempt = 0 then .redo (if far then [rs, rv] else []) [1] [ev] else .stop stDigest 0 [ev]
            else
              let d := j.dest
              let w1 : SWrite := ⟨d, pl.1⟩
              let w2 : List SWrite := if pl.2 = [] then [] else [⟨d.plus (plane2 d.off sh), pl.2⟩]
              let rec_ := leBytes 8 j.owner.code ++ leBytes 8 d.code ++ leBytes 4 want ++ leBytes 4 (pl.1 ++ pl.2).length ++ leBytes 8 dig ++
                leBytes 8 s.time ++ leBytes 2 c.pkt.job ++ leBytes 2 c.pkt.layer ++ leBytes 2 lblock ++ leBytes 2 ownerPeer ++ zeros 16
              .done { Stg.none with
                writes := placeWrites s c (w1 :: w2) ++ placeWrites s c [⟨j.record, rec_⟩],
                outs := [outRaw 1 d (pl.1 ++ pl.2), outRaw 3 j.record rec_], flags := j.flags }

/-- GATHER's job from its slots (R177). -/
def gatherJob (s : State) (c : Cmd) : GatherJob :=
  ⟨descAddr (c.pkt.slot 0), leNat (cBytes s c (descAddr (c.pkt.slot 2)) 4), descAddr (c.pkt.slot 1), descAddr (c.pkt.slot 3), 0⟩

/-- The start of GATHER (R177, R193): its parameter block; a shard of this peer must be active and of the job. The block of an owner on another
peer, and with it whether the destination fits, is read as the command runs. -/
def gatherStart (s : State) (c : Cmd) : StartRes :=
  let o := localise s (descAddr (c.pkt.slot 0))
  if !(zeroAt (cBytes s c (descAddr (c.pkt.slot 2)) 16) 4 12) then badIn 2
  else if o.tier = 4 then .go s c
  else
    match tfind s.shards o.off with
    | none => badIn 0
    | some h =>
      if h.job ≠ c.pkt.job then .stop stDenied 0 []
      else match destBad s c (gatherJob s c) h with
        | some (st, d) => .stop st d []
        | none => .go s { c with shard := some h }

/-- Does a copy of `n` digested bytes at an address agree with a digest (R196, R197)? The record tells how many bytes were digested and not
where the element plane ends and the gap before the mordant plane lies: a copy agrees if it does for some end of that plane
(notes/assumptions/126). -/
def copyAgrees (s : State) (c : Cmd) (g : GAddr) (n digest : Nat) : Bool :=
  let bs := memRead c.snapMem (resolve s c g n).off (n + 255)
  (List.range (n + 1)).any (fun k => crc64 (bs.take k ++ (bs.drop (roundUp (g.off + k) 256 - g.off)).take (n - k)) == digest)

/-- DIGEST_CHECK (R197): the compare needs the record and the copy alone; only a refetch goes to the owner. -/
def digestRun (s : State) (c : Cmd) : Out :=
  let rg := descAddr (c.pkt.slot 0)
  let rec_ := cBytes s c rg 64
  let owner := gaddrOf (fieldAt rec_ 0 8)
  let dest := gaddrOf (fieldAt rec_ 8 8)
  let o := localise s owner
  if c.aux.length ≥ 1 then gatherRun s c ⟨owner, fieldAt rec_ 16 4, dest, rg, 8⟩ (c.aux.getD 0 0 - 2)
  else if copyAgrees s c dest (fieldAt rec_ 20 4) (fieldAt rec_ 24 8) then .done Stg.none
  else
    .redo [] [2] [(0x0B, lDetail (fieldAt rec_ 44 2) (if o.tier = 4 then o.peer else s.cfg.peerId), fieldAt rec_ 16 4, s.cfg.peerId)]

/-- The refetch of a DIGEST_CHECK repeats under its own mark. -/
def digestCompute (s : State) (c : Cmd) : Out :=
  match digestRun s c with
  | .redo rs [1] evs => .redo rs [3] evs
  | x => x

/-- The start of DIGEST_CHECK (R177, R194): its record; a shard of this module that it names is of the job. -/
def digestStart (s : State) (c : Cmd) : StartRes :=
  let r := cBytes s c (descAddr (c.pkt.slot 0)) 64
  let o := localise s (gaddrOf (fieldAt r 0 8))
  let mine := if o.tier = 4 then none else tfind s.shards o.off
  if addrBad 6 (fieldAt r 0 8) 128 || addrBad 6 (fieldAt r 8 8) (max 1 (fieldAt r 20 4)) || !(zeroAt r 48 16) ||
    fld (fieldAt r 46 2) 12 4 != 0 || !(o.tier == 0 || o.tier == 4) || o.off % 128 != 0 || decide (2 < (gaddrOf (fieldAt r 8 8)).tier) then badIn 0
  else if (match mine with | some h => h.job != c.pkt.job | none => false) then .stop stDenied 0 []
  else if structDenied s c (fieldAt r 8 8) (max 1 (fieldAt r 20 4)) true then .stop stDenied 0 []
  else .go s { c with shard := mine }

-- acceptance ----------------------------------------------------------------------------------------------------------

/-- The slots of class 0x6 (R175, R177). -/
def updUses (p : Packet) (hs : List (Option Shape)) : Option (List Use) :=
  let op := p.op
  if op = 1 ∨ op = 2 ∨ op = 3 then some [.raw 128 false, .raw 64 false, .zero, .zero, .zero]
  else if op = 8 then some [.raw 128 false, .zero, .zero, .zero, .zero]
  else if op = 9 then some [.raw 2048 false, .raw 16 false, .zero, .zero, .zero]
  else if op = 0x10 then
    some [.raw 128 false, (match hs.getD 1 none with | some _ => .ten true [3, 4, 5, 6, 7] | none => .raw 1 true), .raw 16 false, .raw 64 true, .zero]
  else if op = 0x11 then some [.raw 64 true, .zero, .zero, .zero, .zero]
  else none

/-- The rules of class 0x6 (R63, R171, R176 to R178, R189, R193, R194). -/
def updRules (p : Packet) : List Flt :=
  let op := p.op
  let at_ := fun (i : Nat) (tiers : List Nat) (al : Nat) =>
    fltIf (!((descAddr (p.slot i)).tier ∈ tiers) || (descAddr (p.slot i)).off % al != 0) (fltSlot i)
  fltIf (p.heritage && op != 1) fltOpcode ++
  (if op = 1 ∨ op = 2 ∨ op = 3 then at_ 0 [0, 1] 128 ++ at_ 1 [0, 1] 64
   else if op = 8 then at_ 0 [0, 1] 128
   else if op = 9 then at_ 0 [0, 1] 256 ++ at_ 1 [0, 1] 16
   else if op = 0x10 then at_ 0 [0, 4] 128 ++ at_ 1 [0, 1, 2] 1 ++ at_ 2 [0, 1] 16 ++ at_ 3 [0, 1] 64
   else at_ 0 [0, 1] 64)

-- rows ----------------------------------------------------------------------------------------------------------------

/-- UPD_FIRST: first-order rule (R180). -/
def execUpdFirst (c : Nat) (s : State) : Host.Outcome State Fault Refusal := runOp 0x601 (updRun 1) updEff c s
/-- UPD_DIAG: grafted diagonal rule (R180). -/
def execUpdDiag (c : Nat) (s : State) : Host.Outcome State Fault Refusal := runOp 0x602 (updRun 2) updEff c s
/-- UPD_PRECOND: full rule (R180 to R182). -/
def execUpdPrecond (c : Nat) (s : State) : Host.Outcome State Fault Refusal := runOp 0x603 (updRun 3) updEff c s
/-- SHARD_INIT (R173). -/
def execShardInit (c : Nat) (s : State) : Host.Outcome State Fault Refusal := runOp 0x608 shardRun shardEff c s
/-- SCHED_LOAD (R190). -/
def execSchedLoad (c : Nat) (s : State) : Host.Outcome State Fault Refusal := runOp 0x609 schedRun schedEff c s
/-- GATHER (R193). -/
def execGather (c : Nat) (s : State) : Host.Outcome State Fault Refusal :=
  runOp 0x610 (fun s c => gatherRun s c (gatherJob s c) (c.aux.getD 0 0)) noEffect c s
/-- DIGEST_CHECK (R197). -/
def execDigestCheck (c : Nat) (s : State) : Host.Outcome State Fault Refusal := runOp 0x611 digestCompute noEffect c s

end Sys2Proof.Machine
end

