-- ==== Sys2Proof/Machine/Collective.lean ====
section
/-! DEFINITION. Collectives: class 0x9 (R357 to R369). -/

set_option cleanup.letToHave false

namespace Sys2Proof.Machine

-- structures (R357, R359, R360) ----------------------------------------------------------------------------------------

/-- Part `i` of `n` elements over `p` parts: first element and count (R357). -/
def chunkOf (n p i : Nat) : Nat × Nat := (i * (n / p) + min i (n % p), n / p + (if i < n % p then 1 else 0))

/-- A collective descriptor (R359). -/
structure CollD where
  deadline : Nat
  round    : Nat
  stream   : Nat
  op       : Nat
  tc       : Nat
  addNext  : Bool
  root     : Nat
  div      : Nat
  aux      : Nat
  tcount   : Nat
  deriving DecidableEq, Repr

def collDOf (bs : List Byte) : CollD :=
  ⟨fieldAt bs 0 8, fieldAt bs 8 4, fieldAt bs 12 2, fieldAt bs 14 1, fld (fieldAt bs 15 1) 0 3, bit (fieldAt bs 15 1) 3, fieldAt bs 16 2,
    fieldAt bs 20 4, fieldAt bs 24 8, fieldAt bs 32 4⟩

/-- A descriptor's fields are valid for an operation (R359). -/
def collDOk (op : Nat) (bs : List Byte) : Bool :=
  let d := collDOf bs
  let reduces := op == 1 || op == 2 || op == 5
  decide (d.stream < 4096) && fieldAt bs 15 1 / 16 == 0 && decide (d.tc < 7) && zeroAt bs 18 2 && zeroAt bs 36 28 &&
  (if op = 1 ∨ op = 2 then decide (d.op < 2) else d.op == 0) && (!d.addNext || (reduces && d.op == 0)) &&
  (op == 4 || op == 5 || d.root == 0) && (if op = 6 then fp32NonNeg d.div else d.div == 0) &&
  (if (d.addNext && reduces) || op == 7 then d.aux != 0 else d.aux == 0) &&
  (if op = 7 then decide (1 ≤ d.tcount) && decide (d.tcount ≤ 65536) else d.tcount == 0)

/-- The members of a group block, in rank order (R360). -/
def groupOf (s : State) (c : Cmd) : List Nat :=
  let g := descAddr (c.pkt.slot 1)
  let n := fieldAt (rdStruct s c g 8) 0 2
  (chunks 2 n (rdStruct s c (g.plus 8) (2 * n))).map leNat

/-- The group hash (R360). -/
def groupHash (s : State) (c : Cmd) : Nat :=
  let g := descAddr (c.pkt.slot 1)
  let n := fieldAt (rdStruct s c g 8) 0 2
  crc32c (rdStruct s c g (8 + 2 * n))

def groupOk (s : State) (c : Cmd) : Bool :=
  let hd := rdStruct s c (descAddr (c.pkt.slot 1)) 8
  let ms := groupOf s c
  decide (1 ≤ fieldAt hd 0 2) && decide (fieldAt hd 0 2 ≤ 4096) && zeroAt hd 2 6 && ms.all (fun p => decide (p < 4096)) && noDup ms &&
  ms.contains s.cfg.peerId

/-- The live members of a group (R360). -/
def liveOf (s : State) (ms : List Nat) : List Nat := ms.filter (fun p => !(s.domain.lost.contains p))
def rankIn (ms : List Nat) (p : Nat) : Nat := ms.findIdx (· == p)

/-- A permutation table entry (R368). -/
structure PermE where
  src  : Nat
  dst  : Nat
  from_ : Nat
  at_  : Nat
  rows : Nat
  deriving DecidableEq, Repr

def permTable (s : State) (c : Cmd) (d : CollD) : List PermE :=
  (chunks 16 d.tcount (rdStruct s c (gaddrOf d.aux) (16 * d.tcount))).map (fun b =>
    ⟨fieldAt b 0 2, fieldAt b 2 2, fieldAt b 4 4, fieldAt b 8 4, fieldAt b 12 4⟩)

/-- The table breaks R368 for a rank whose current buffer has `n` rows and whose other has `k`. -/
def permBad (es : List PermE) (rank n k : Nat) : Bool :=
  let mine := es.filter (fun e => e.dst == rank)
  es.any (fun e => e.rows == 0) ||
  (mine.zipIdx).any (fun a => (mine.zipIdx).any (fun b => a.2 < b.2 && overlap a.1.at_ a.1.rows b.1.at_ b.1.rows)) ||
  es.any (fun e => (e.src == rank && decide (n < e.from_ + e.rows)) || (e.dst == rank && decide (k < e.at_ + e.rows)))

-- start (R358 to R360, R368) ----------------------------------------------------------------------------------------------

/-- The local shard that REDUCE_TO_OWNER names on the owner. -/
def rtoShard (s : State) (c : Cmd) : Option (Nat × Shard) :=
  let a := (localise s (descAddr (c.pkt.slot 3))).off
  (tfind s.shards a).map (fun h => (a, h))

/-- Rows of the whole tensor that a chunked operation splits. -/
def wholeRows (c : Cmd) : Nat :=
  let i := if c.pkt.op = 2 then 2 else 3
  match c.shapes.getD i none with | some h => h.vrows | none => 0

/-- AUX breaks R359 or R23: a deferral buffer lies in TIER 0 and holds a contribution; a permutation table has its entries. -/
def collAuxBad (s : State) (c : Cmd) (d : CollD) : Bool :=
  if c.pkt.op = 7 then addrBad 9 d.aux (16 * d.tcount)
  else d.addNext && structRangeBad s [0] none 1 d.aux (match opnd c 2 with | some o => 4 * o.sh.vrows * o.sh.vcols | none => 1)

/-- A list that a slot names runs past its range (R23). -/
def collListBad (c : Cmd) (i n : Nat) : Bool := addrBad 9 (descAddr (c.pkt.slot i)).code n

/-- The start of a collective: its structures, and the views that depend on its rank. -/
def collStart (s : State) (c : Cmd) : StartRes :=
  let op := c.pkt.op
  let bs := rdStruct s c (descAddr (c.pkt.slot 0)) 64
  let d := collDOf bs
  if !(collDOk op bs) || (c.pkt.heritage && d.op == 1) || collAuxBad s c d then badIn 0
  else if !(groupOk s c) || collListBad c 1 (8 + 2 * (groupOf s c).length) then badIn 1
  else if !(hasLink s c.sess c.pkt.job) && decide (1 < (groupOf s c).length) then .stop stDenied 1 []
  else
    let live := liveOf s (groupOf s c)
    let me := rankIn live s.cfg.peerId
    let vr (i : Nat) := match c.shapes.getD i none with | some h => h.vrows | none => 0
    if op = 2 ∧ vr 3 ≠ (chunkOf (vr 2) live.length me).2 then badIn 3
    else if op = 3 ∧ vr 2 ≠ (chunkOf (vr 3) live.length me).2 then badIn 2
    else if (op = 4 ∨ op = 5) ∧ live.length ≤ d.root then badIn 0
    else if (op = 4 ∨ op = 5) ∧ decide (c.pkt.slot 2 = 0) ≠ decide ((op = 4 ∧ d.root ≠ me) ∨ (op = 5 ∧ d.root = me)) then badIn 2
    else if op = 5 ∧ d.root = me then
      match rtoShard s c with
      | none => badIn 3
      | some (_, h) => if h.job = c.pkt.job then .go s c else .stop stDenied 3 []
    else if op = 6 then
      let g := descAddr (c.pkt.slot 4)
      let n := fieldAt (rdStruct s c g 8) 0 8
      if n = 0 ∨ 256 < n ∨ collListBad c 4 (8 + 8 * n) = true then badIn 4
      else if ((chunks 8 n (rdStruct s c (g.plus 8) (8 * n))).map leNat).any (fun a => addrBad 9 a 4) then badIn 4
      else .go s c
    else if op = 7 then
      let fb := rdStruct s c (descAddr (c.pkt.slot 4)) 16
      if decide (1 < fieldAt fb 0 1) || !(zeroAt fb 1 3) || !(zeroAt fb 8 8) then badIn 4
      else if permBad (permTable s c d) me (vr (2 + fieldAt fb 0 1)) (vr (3 - fieldAt fb 0 1)) then badIn 0
      else .go s c
    else .go s c

-- what a member contributes and makes of it --------------------------------------------------------------------------------

/-- The FP32 codes of a view (R361). -/
def codes32 (vs : List (List Num)) : List Byte := ((vs.flatten).map (fun x => leBytes 4 (r32 x))).flatten
def vals32 (bs : List Byte) : List Num := (chunks 4 (bs.length / 4) bs).map (fun b => v32 (leNat b))

/-- The stream of a command, and whether its deferral buffer holds a contribution (R365). -/
def streamIs (job group stream : Nat) (x : Stream) : Bool := x.job == job && x.group == group && x.stream == stream
def deferredIn (s : State) (job group stream : Nat) : Bool := s.streams.any (fun x => streamIs job group stream x && x.deferred)

/-- The new contribution of a reduction as FP32 codes. -/
def newContrib (s : State) (c : Cmd) : List Byte :=
  if c.pkt.op = 6 then cBytes s c (descAddr (c.pkt.slot 2)) 4
  else match opnd c 2 with | some o => codes32 (opVals s c o) | none => []

/-- A member's contribution to a reduction as FP32 codes, with a deferred one added (R365), and the flags of that addition (R530). -/
def reduced (s : State) (c : Cmd) (d : CollD) : List Byte × Nat :=
  let new := newContrib s c
  if d.addNext && deferredIn s c.pkt.job (groupHash (asRead s c) c) d.stream then
    let sum := ((vals32 new).zip (vals32 (cBytes s c (gaddrOf d.aux) new.length))).map (fun p => uAdd c.pkt.heritage p.1 p.2)
    ((sum.map (fun x => leBytes 4 (to32 x.1))).flatten, sum.foldl (fun a x => a ||| x.2) 0)
  else (new, 0)

/-- What a member sends to another: reductions send FP32 codes; the moves send bytes unchanged. -/
def contribution (s : State) (c : Cmd) (d : CollD) (peer : Nat) : List Byte :=
  let live := liveOf s (groupOf (asRead s c) c)
  let me := rankIn live s.cfg.peerId
  if c.pkt.op = 3 ∨ c.pkt.op = 4 then
    match opnd c 2 with
    | some o => (rawRows o.addr.off o.sh (cBytes s c o.addr (tensorBytes o.addr.off o.sh))).flatten
    | none => []
  else if c.pkt.op = 7 then
    let cur := fieldAt (cBytes s c (descAddr (c.pkt.slot 4)) 16) 0 1
    match opnd c (2 + cur) with
    | some o =>
      let bs := cBytes s c o.addr (tensorBytes o.addr.off o.sh)
      (((permTable (asRead s c) c d).filter (fun e => e.src == me && e.dst == rankIn live peer)).map (fun e =>
        ((List.range e.rows).map (fun i => rawRow o.addr.off o.sh bs (e.from_ + i))).flatten)).flatten
    | none => []
  else if c.pkt.op = 8 then []
  else (reduced s c d).1

/-- Element-wise sum or maximum of contributions in FP32 (R361); in heritage mode in ascending peer id. A NaN among them makes the element a
NaN, declared if one of them is (R47); a sum keeps the bound of R61 over the contributions. -/
def reduceAll (her mx : Bool) (ctx : List Nat) (parts : List (Nat × List Byte)) : List Byte × Nat :=
  let ps := if her then parts.mergeSort (fun a b => decide (a.1 ≤ b.1)) else parts
  let rows := ps.map (fun p => vals32 p.2)
  let n := (rows.headD []).length
  let els := (List.range n).map (fun i =>
    let xs := rows.map (fun r => r.getD i qnan)
    match rowNan xs with
    | some r => (r.val, r.fl)
    | none =>
      if mx then (xs.foldl (fun (b : Num × Nat) x => let r := numMax b.1 x; (r.val, b.2 ||| r.fl)) (xs.headD qnan, 0))
      else if her then let r := hSum (.fin false 0 1) xs; (r.1.val, r.1.fl)
      else let r := sumTerms 0 (ctx ++ [i]) xs (xs.length - 1) 0; (r.val, r.fl))
  ((els.map (fun e => leBytes 4 (to32 e.1))).flatten, els.foldl (fun a e => a ||| e.2) 0)

/-- Rows of a destination view from FP32 codes. -/
def rowsOf32 (h : Shape) (bs : List Byte) : List (List El) :=
  let vs := vals32 bs
  (List.range h.vrows).map (fun i => ((vs.drop (i * h.vcols)).take h.vcols).map El.of)

/-- Bytes of one row of a view as it travels. -/
def rowLen (h : Shape) : Nat := rowLen1 h + rowLen2 h

/-- Writes of consecutive rows from `first` of a view out of the bytes of such rows. -/
def rowWrites (o : Opnd) (first n : Nat) (bs : List Byte) : List SWrite :=
  ((List.range n).map (fun i => rawWrite o (first + i) ((bs.drop (i * rowLen o.sh)).take (rowLen o.sh)))).flatten

/-- The rows of a view that writes of whole rows reach. -/
def writtenIn (o : Opnd) (ws : List SWrite) : List Nat :=
  (List.range o.sh.vrows).filter (fun i => ws.any (fun w => w.tgt.off == (o.addr.plus (rowOff1 o.sh i)).off))

/-- An output of raw rows: its swatch counts the rows written, as they are then. -/
def rawOut (s : State) (c : Cmd) (o : Opnd) (ws : List SWrite) : OutInfo :=
  let bs := (ws.map SWrite.bytes).flatten
  let old := cBytes s c o.addr (tensorBytes o.addr.off o.sh)
  let new := ws.foldl (fun (b : List Byte) w => b.take (w.tgt.off - o.addr.off) ++ w.bytes ++ b.drop (w.tgt.off - o.addr.off + w.bytes.length)) old
  ⟨o.slot, o.addr.code, descShape (c.pkt.slot o.slot), rawSwatch o.addr.off o.sh new (writtenIn o ws), bs⟩

/-- What a member writes from a round's result: reductions and the norm from FP32 codes, ALL_GATHER and BROADCAST from
rows. `parts` are the contributions by peer. -/
def collWrites (s : State) (c : Cmd) (d : CollD) (result : List Byte) : List SWrite × List OutInfo × Nat :=
  let live := liveOf s (groupOf (asRead s c) c)
  let me := rankIn live s.cfg.peerId
  match c.pkt.op with
  | 1 => match opnd c 3 with
    | some o => let w := writeView o .nearest none (rowsOf32 o.sh result); (w.writes, [outOf c o w], w.fl)
    | none => ([], [], 0)
  | 2 => match opnd c 3 with
    | some o =>
      let k := chunkOf (wholeRows c) live.length me
      let w := writeView o .nearest none (rowsOf32 o.sh (result.drop (4 * k.1 * o.sh.vcols)))
      (w.writes, [outOf c o w], w.fl)
    | none => ([], [], 0)
  | 6 =>
    let sum := (vals32 result).headD qnan
    let dv := if d.div % 2 ^ 31 = 0 then numOf 1 else v32 d.div
    let q := numSqrt sum
    let r := numDiv q.val dv
    let w := writeWide 0 2 .nearest r.val
    let bs := leBytes 4 w.code
    let g := descAddr (c.pkt.slot 4)
    let n := fieldAt (rdStruct (asRead s c) c g 8) 0 8
    let list := (chunks 8 n (rdStruct (asRead s c) c (g.plus 8) (8 * n))).map (fun b => SWrite.mk (gaddrOf (leNat b)) bs)
    (⟨descAddr (c.pkt.slot 3), bs⟩ :: list, [outRaw 3 (descAddr (c.pkt.slot 3)) bs], q.fl ||| r.fl ||| w.fl)
  | _ => ([], [], 0)

/-- Rows gathered from the members of a set. -/
def gatherWrites (s : State) (c : Cmd) (parts : List (Nat × List Byte)) : List SWrite × List OutInfo :=
  match opnd c 3 with
  | none => ([], [])
  | some o =>
    let live := liveOf s (groupOf (asRead s c) c)
    let ws := (parts.map (fun p => let k := chunkOf o.sh.vrows live.length (rankIn live p.1); rowWrites o k.1 k.2 p.2)).flatten
    (ws, [rawOut s c o ws])

/-- The VERSION that a PERMUTE's flip gives its buffers (R369). -/
def flipVersion (s : State) (c : Cmd) : Nat := (fieldAt (cBytes s c (descAddr (c.pkt.slot 4)) 16) 4 4 + 1) % 2 ^ 32

/-- The flip block as PERMUTE leaves it: the other buffer current, the next VERSION (R369). -/
def flipWrite (s : State) (c : Cmd) : SWrite :=
  let g := descAddr (c.pkt.slot 4)
  ⟨g, [BitVec.ofNat 8 (1 - fieldAt (cBytes s c g 16) 0 1)] ++ zeros 3 ++ leBytes 4 (flipVersion s c) ++ zeros 8⟩

/-- Rows that PERMUTE writes into the other buffer. -/
def permWrites (s : State) (c : Cmd) (d : CollD) (parts : List (Nat × List Byte)) : List SWrite × List OutInfo :=
  let live := liveOf s (groupOf (asRead s c) c)
  let me := rankIn live s.cfg.peerId
  let cur := fieldAt (cBytes s c (descAddr (c.pkt.slot 4)) 16) 0 1
  match opnd c (3 - cur) with
  | none => ([], [])
  | some o =>
    let one (p : Nat × List Byte) : List SWrite :=
      (((permTable (asRead s c) c d).filter (fun e => e.src == rankIn live p.1 && e.dst == me)).foldl
        (fun (a : List SWrite × List Byte) e =>
          (a.1 ++ rowWrites o e.at_ e.rows a.2, a.2.drop (e.rows * rowLen o.sh))) ([], p.2)).1
    let ws := (parts.map one).flatten
    (ws, [rawOut s c o ws])

-- the life of a round (R362 to R367) ---------------------------------------------------------------------------------------

/-- What a collective remembers: its step (0 not joined, 1 joined, 2 exchanging, 9 late), SEQ and RUNS of the leader's
command, the contributor count, hops to the farthest member that has acknowledged, and T_flip once it is set; the set stands in
`asked` and acknowledgements in `acked`. -/
def collAux (st seq runs count : Nat) : List Nat := [st, seq, runs, count, 1]
def collSt (c : Cmd) : Nat := c.aux.getD 0 0
def setOf (c : Cmd) : List Nat := c.asked.map (fun a => a.1)

def descOf (s : State) (c : Cmd) : CollD := collDOf (rdStruct (asRead s c) c (descAddr (c.pkt.slot 0)) 64)

/-- The hash of the operation and views (R362, R368). -/
def opHash (s : State) (c : Cmd) : Nat :=
  let d := descOf s c
  let h := match c.shapes.getD (if c.pkt.op = 3 ∨ c.pkt.op = 4 then 3 else 2) none with | some h => [h.vrows, h.vcols] | none => []
  Config.collHash ([c.pkt.op, d.op] ++ (if c.pkt.op = 5 ∨ c.pkt.op = 6 ∨ c.pkt.op = 8 then [] else h) ++
    (if c.pkt.op = 7 then [crc32c (rdStruct (asRead s c) c (gaddrOf d.aux) (16 * d.tcount))] else []))

/-- The running collective of a stream's round on this module. -/
def collCmd (s : State) (job group stream round : Nat) : Option Cmd :=
  s.cmds.find? (fun c => c.pkt.cls == 9 && inUse c && c.pkt.job == job &&
    (descOf s c).stream == stream && (descOf s c).round == round && groupHash (asRead s c) c == group)

def roundIs (job group stream round : Nat) (x : Round) : Bool := x.job == job && x.group == group && x.stream == stream && x.round == round
def putRound (s : State) (r : Round) : State :=
  { s with rounds := s.rounds.filter (fun x => !(roundIs r.job r.group r.stream r.round x)) ++ [r] }
def putStream (s : State) (r : Stream) : State :=
  { s with streams := s.streams.filter (fun x => !(streamIs r.job r.group r.stream x)) ++ [r] }
def getStream (s : State) (job group stream : Nat) : Stream := (s.streams.find? (streamIs job group stream)).getD ⟨job, group, stream, false, []⟩

/-- Peers whose data a member awaits (R362 step 3). -/
def expects (s : State) (c : Cmd) : List Nat :=
  let others := (setOf c).filter (fun p => p != s.cfg.peerId)
  let live := liveOf s (groupOf (asRead s c) c)
  let d := descOf s c
  let me := rankIn live s.cfg.peerId
  if c.pkt.op = 4 then others.filter (fun p => rankIn live p == d.root)
  else if c.pkt.op = 5 then
    let owner := live.getD d.root 0
    if owner = s.cfg.peerId ∨ (!(setOf c).contains owner && live.head? == some s.cfg.peerId) = true then others else []
  else if c.pkt.op = 7 then
    others.filter (fun p => (permTable (asRead s c) c d).any (fun e => e.src == rankIn live p && e.dst == me))
  else if c.pkt.op = 8 then []
  else others

/-- Peers to which a member sends its data. -/
def sendsTo (s : State) (c : Cmd) : List Nat :=
  let others := (setOf c).filter (fun p => p != s.cfg.peerId)
  let live := liveOf s (groupOf (asRead s c) c)
  let d := descOf s c
  let me := rankIn live s.cfg.peerId
  if c.pkt.op = 4 then (if me = d.root then others else [])
  else if c.pkt.op = 5 then
    let owner := live.getD d.root 0
    if me = d.root then [] else if (setOf c).contains owner then [owner] else others.filter (fun p => live.head? == some p)
  else if c.pkt.op = 7 then others.filter (fun p => (permTable (asRead s c) c d).any (fun e => e.src == me && e.dst == rankIn live p))
  else if c.pkt.op = 8 then []
  else others

/-- Is a command a REDUCE_TO_OWNER at the owner (R358)? -/
def atOwner (c : Cmd) : Bool := c.pkt.op == 5 && c.pkt.slot 2 == 0

/-- The contributions that a member holds, its own among them, in order of arrival. -/
def partsOf (s : State) (c : Cmd) : List (Nat × List Byte) :=
  let d := descOf s c
  (if atOwner c then [] else [(s.cfg.peerId, contribution s c d s.cfg.peerId)]) ++ c.remote.map (fun r => (r.peer, r.data))

/-- The result that is kept for late members (R365). -/
def keptResult (s : State) (c : Cmd) : List Byte × Nat :=
  let d := descOf s c
  if c.pkt.op = 1 ∨ c.pkt.op = 2 ∨ c.pkt.op = 5 ∨ c.pkt.op = 6 then reduceAll c.pkt.heritage (d.op == 1) (opKey c []) (partsOf s c)
  else if c.pkt.op = 4 then (((partsOf s c).filter (fun p => p.1 == (liveOf s (groupOf (asRead s c) c)).getD d.root 0)).map Prod.snd).flatten |> (·, 0)
  else if c.pkt.op = 3 then
    let live := liveOf s (groupOf (asRead s c) c)
    ((((partsOf s c).mergeSort (fun a b => decide (rankIn live a.1 ≤ rankIn live b.1))).map Prod.snd).flatten, 0)
  else ([], 0)

/-- The status of a round (R364). -/
def collStatus (s : State) (c : Cmd) (set : List Nat) (addNext : Bool) : Nat :=
  if (liveOf s (groupOf (asRead s c) c)).all (fun p => set.contains p) then stDone else if addNext then stDeferred else stDropped

/-- The answer to a late member (R365). -/
def answerLate (s : State) (job group stream round peer : Nat) : State :=
  match (getStream s job group stream).results.find? (fun r => r.1 == round) with
  | some (_, n, bs) => send s ⟨peer, mtCollLate, 7, job, 0, 0, 0xFF, 0, 0, [group, stream, round, n], bs⟩
  | none => s

/-- The address of GACC of a shard, in the copy that serves it. -/
def gaccAt (s : State) (c : Cmd) (h : Shard) : GAddr := resolve s c (gaddrOf h.gacc) (4 * h.rows * h.cols)

/-- The elements of GACC with a sum added to them (R174, R363), and the flags of the additions (R530). -/
def gaccNew (s : State) (c : Cmd) (h : Shard) (sum : List Byte) : List (Num × Nat) :=
  ((vals32 (rdKey s (jobKey s c.sess c.pkt.job) (gaccAt s c h).off sum.length)).zip (vals32 sum)).map (fun p => uAdd false p.1 p.2)

/-- GACC and GRAD_COUNT of the owner's shard grow (R174, R363), GACC in the copy that serves it. -/
def addGacc (s : State) (c : Cmd) (sum : List Byte) (count : Nat) : State :=
  match rtoShard s c with
  | none => s
  | some (a, h) =>
    let g := gaccAt s c h
    let bs := ((gaccNew s c h sum).map (fun x => leBytes 4 (to32 x.1))).flatten
    putShard (markDirty (wrLocal s (jobKey s c.sess c.pkt.job) g.off bs) [⟨g, bs⟩]) a { h with gradCount := (h.gradCount + count) % 2 ^ 32 }

/-- The sum that the owner adds into GACC (R363, R365). -/
def gaccSum (s : State) (c : Cmd) : List Byte :=
  if collSt c = 9 then (match c.remote.head? with | some r => r.data | none => []) else (keptResult s c).1

/-- The flags of the additions into GACC, which the command's IEEE byte takes (R530). -/
def gaccFlags (s : State) (c : Cmd) : Nat :=
  match rtoShard s c with
  | some (_, h) => if atOwner c then (gaccNew s c h (gaccSum s c)).foldl (fun a x => a ||| x.2) 0 else 0
  | none => 0

/-- The effects of a collective's commit besides its writes (R363, R365, R369). -/
def collEff (s : State) (c : Cmd) : State :=
  let d := descOf s c
  let group := groupHash (asRead s c) c
  let st := getStream s c.pkt.job group d.stream
  let count := c.aux.getD 3 0
  let live := liveOf s (groupOf (asRead s c) c)
  if collSt c = 9 then
    let s := putStream s { st with deferred := d.addNext }
    if atOwner c then
      match c.remote.head? with | some r => addGacc s c r.data count | none => s
    else s
  else
    let kept := (keptResult s c).1
    let s := putStream s { st with
      deferred := st.deferred && !d.addNext,
      results := (st.results.filter (fun r => decide ((d.round + 2 ^ 32 - r.1) % 2 ^ 32 < 2))) ++ [(d.round, (count, kept))] }
    let s := if atOwner c then addGacc s c kept count else s
    let s := if c.pkt.op = 7 ∧ s.domain.isKeeper = true then
        let crc := crc32c (rdStruct (asRead s c) c (gaddrOf d.aux) (16 * d.tcount))
        { s with domain := { s.domain with permutes := tput s.domain.permutes c.pkt.job (flipVersion s c, crc) } }
      else s
    -- the leader answers the members that joined late
    if live.head? = some s.cfg.peerId then
      match s.rounds.find? (roundIs c.pkt.job group d.stream d.round) with
      | some r => r.late.foldl (fun s p => answerLate s c.pkt.job group d.stream d.round p) (putRound s { r with late := [] })
      | none => s
    else s

/-- What a staged collective still awaits besides its lenders: the owner's acknowledgement, or the flip (R363, R369). -/
def collAwaits (s : State) (c : Cmd) : Bool :=
  let d := descOf s c
  let live := liveOf s (groupOf (asRead s c) c)
  let owner := live.getD d.root 0
  if atOwner c then
    match rtoShard s c with | some (_, h) => gaccBusy s c (gaddrOf h.gacc) (h.rows * h.cols * 4) | none => false
  else if collSt c = 9 then false
  else if c.pkt.op = 5 then (setOf c).contains owner && !(c.acked.contains owner)
  else c.pkt.op == 7

/-- PERMUTE at the leader: once every member of the set has staged, T_flip is set and sent (R369). -/
def tryFlip (s : State) (c : Cmd) : State :=
  let live := liveOf s (groupOf (asRead s c) c)
  let others := (setOf c).filter (fun p => p != s.cfg.peerId)
  if c.pkt.clsOp = 0x907 ∧ c.phase = .staged ∧ live.head? = some s.cfg.peerId ∧ (others.all (fun p => c.acked.contains p)) = true ∧ c.aux.length = 5 then
    let t := s.time + (if others.isEmpty then 1000 else 1500 + 600 * (c.aux.getD 4 1 - 1))
    let d := descOf s c
    let s := others.foldl (fun s p => sendCmd s c p mtCollFlip 7 [groupHash (asRead s c) c, d.stream, d.round, t] []) s
    putCmd s { c with aux := c.aux ++ [t] }
  else s

/-- What a member whose data is complete stages (R361, R363, R364, R368, R369). -/
def collStaged (s : State) (c : Cmd) : Stg :=
  let d := descOf s c
  let kept := keptResult s c
  let moved := if c.pkt.op = 1 ∨ c.pkt.op = 2 ∨ (c.pkt.op = 5 ∧ c.pkt.slot 2 ≠ 0) then (reduced s c d).2 else 0
  let w : List SWrite × List OutInfo × Nat :=
    if c.pkt.op = 3 then let g := gatherWrites s c (partsOf s c); (g.1, g.2, 0)
    else if c.pkt.op = 4 then
      match opnd c 3 with
      | some o => if kept.1.isEmpty then ([], [], 0) else let ws := rowWrites o 0 o.sh.vrows kept.1; (ws, [rawOut s c o ws], 0)
      | none => ([], [], 0)
    else if c.pkt.op = 7 then let g := permWrites s c d (partsOf s c); (g.1 ++ [flipWrite s c], g.2, 0)
    else collWrites s c d kept.1
  { Stg.none with
    writes := placeWrites s c w.1, outs := w.2.1, status := collStatus s c (setOf c) d.addNext, detail := c.aux.getD 3 0, aux := c.aux,
    wait := collAwaits s c, ieee := kept.2 ||| w.2.2 ||| moved ||| (if collAwaits s c then 0 else gaccFlags s c) }

/-- A member whose data is complete computes and stages its outputs (R362 step 4). -/
def collFinish (s : State) (c : Cmd) : State :=
  if !((expects s c).all (fun p => c.remote.any (fun r => r.peer == p))) then s
  else
    let live := liveOf s (groupOf (asRead s c) c)
    let s := stage collEff s { c with phase := .staged } (collStaged s c)
    match findCmd s c.id with
    | none => s
    | some c' =>
      let others := (setOf c').filter (fun p => p != s.cfg.peerId)
      -- the owner acknowledges the contributions it has staged; a member of PERMUTE tells the leader
      let s := if atOwner c then
          c.remote.foldl (fun s r => send s ⟨r.peer, mtStagedAck, 7, c.pkt.job, r.addr / 256, r.addr % 256, ctxOf c, 0, 0, [], []⟩) s
        else if c.pkt.op = 7 ∧ live.head? ≠ some s.cfg.peerId then
          others.foldl (fun s p => if live.head? = some p then
            send s ⟨p, mtStagedAck, 7, c.pkt.job, c'.aux.getD 1 0, c'.aux.getD 2 0, ctxOf c, 0, 0, [], []⟩ else s) s
        else s
      tryFlip s c'

/-- A member learns the set of its round and sends its data (R362 step 3). -/
def takeSet (s : State) (c : Cmd) (set : List Nat) (count seq runs : Nat) : State :=
  let c := { c with asked := set.map (fun p => (p, 0, 0)), aux := collAux 2 seq runs count }
  let d := descOf s c
  let s := putCmd s c
  let body := [groupHash (asRead s c) c, d.stream, d.round]
  let s := (sendsTo s c).foldl (fun s p => sendCmd s c p mtCollData d.tc body (contribution s c d p)) s
  collFinish s c

/-- A frozen round's set goes to every member of it (R362 step 2). -/
def freezeRound (s : State) (r : Round) : State :=
  match collCmd s r.job r.group r.stream r.round with
  | none => s
  | some c =>
    let set := (groupOf (asRead s c) c).filter (fun p => r.joined.contains p)
    let count := set.length + (set.filter (fun p => r.defer.contains p)).length
    let s := putRound s { r with frozen := some set }
    -- results kept for late members go at the freeze of round + 2 (R365)
    let st := getStream s r.job r.group r.stream
    let s := putStream s { st with results := st.results.filter (fun x => decide ((r.round + 2 ^ 32 - x.1) % 2 ^ 32 < 2)) }
    let s := (set.filter (fun p => p != s.cfg.peerId)).foldl (fun s p =>
      sendCmd s c p mtCollSet 7 ([r.group, r.stream, r.round, count] ++ set) []) s
    if set.contains s.cfg.peerId then takeSet s c set count c.pkt.seq (c.runs % 256) else s

/-- The leader freezes a round when every live member has joined, earlier rounds of the stream first (R362, R366). -/
def freezeIfDue (s : State) (job group stream round : Nat) : State :=
  match s.rounds.find? (roundIs job group stream round), collCmd s job group stream round with
  | some r, some c =>
    let live := (liveOf s (groupOf (asRead s c) c)).filter (fun p => !(r.out_.contains p))
    let earlier := s.rounds.any (fun x => x.job == job && x.group == group && x.stream == stream && x.frozen.isNone &&
      x.round != round && decide ((round + 2 ^ 32 - x.round) % 2 ^ 32 < 2 ^ 31))
    if r.frozen = none ∧ earlier = false ∧ (live.all (fun p => r.joined.contains p)) = true then freezeRound s r else s
  | _, _ => s

/-- A round is frozen if it is due, and then the later rounds of the stream that have waited for it (R362). -/
def freezeFrom : Nat → State → Nat → Nat → Nat → Nat → State
  | 0, s, _, _, _, _ => s
  | n + 1, s, job, group, stream, round =>
    let t := freezeIfDue s job group stream round
    if t.rounds.any (fun x => roundIs job group stream round x && x.frozen.isSome) then freezeFrom n t job group stream ((round + 1) % 2 ^ 32)
    else t

def tryFreeze (s : State) (job group stream round : Nat) : State := freezeFrom (s.rounds.length + 1) s job group stream round

/-- A round ends at every member because hashes differ (R362): each command ends BAD_PACKET with GROUP_MISMATCH. -/
def mismatch (s : State) (job stream round group : Nat) : State :=
  let hit := s.cmds.filter (fun c => c.pkt.cls == 9 && inUse c && c.pkt.job == job && (descOf s c).stream == stream && (descOf s c).round == round)
  let s := hit.foldl (fun s c => endCmd (raiseCmd s c 0x2C group round 0) c stBad (badAt 24 0)) s
  let rs := s.rounds.filter (fun x => x.job == job && x.stream == stream && x.round == round)
  let s := rs.foldl (fun s r => (r.joined.filter (fun p => p != s.cfg.peerId)).foldl (fun s p =>
    send s ⟨p, mtCollSet, 7, job, 0, 0, 0xFF, 0, 0, [group, stream, round, 0], []⟩) s) s
  { s with rounds := s.rounds.filter (fun x => !(x.job == job && x.stream == stream && x.round == round)) }

/-- A COLL_JOIN reaches the leader (R362, R365). -/
def joinRound (s : State) (job group stream round op peer : Nat) (twice : Bool) : State :=
  let old := s.rounds.find? (fun x => x.job == job && x.stream == stream && x.round == round)
  match old with
  | some r =>
    if r.group ≠ group ∨ r.op ≠ op then
      mismatch (putRound s { r with joined := r.joined ++ [peer] }) job stream round group
    else if r.frozen.isSome then
      let d := match collCmd s job group stream round with | some c => (descOf s c).addNext | none => false
      let s := count s 8 slotsDie 0x75 1 (attrOf (collCmd s job group stream round))
      let s := raise (fire s 8 19) 8 0x2A job 0xFFFF 0 (peer + b2n d * 2 ^ 12 + stream * 2 ^ 16) round 0
      if (getStream s job group stream).results.any (fun x => x.1 == round) then answerLate s job group stream round peer
      else if s.rounds.any (fun x => x.job == job && x.group == group && x.stream == stream && x.frozen.isSome &&
          decide (2 ≤ (x.round + 2 ^ 32 - round) % 2 ^ 32) && decide ((x.round + 2 ^ 32 - round) % 2 ^ 32 < 2 ^ 31)) then
        send s ⟨peer, mtCollLate, 7, job, 0, 0, 0xFF, 0, 0, [group, stream, round, 0], []⟩
      else putRound s { r with late := r.late ++ [peer] }
    else
      tryFreeze (putRound s { r with joined := without r.joined peer ++ [peer], defer := without r.defer peer ++ (if twice then [peer] else []) })
        job group stream round
  | none =>
    tryFreeze (putRound s { job := job, group := group, stream := stream, round := round, op := op, joined := [peer], frozen := none,
                            defer := if twice then [peer] else [], late := [], out_ := [] }) job group stream round

/-- A collective's own row: it joins its round (R362 step 1), or goes on as far as what it has received allows. -/
def collRun (op cid : Nat) (s : State) : State :=
  match findCmd s cid with
  | none => s
  | some c =>
    if c.phase ≠ .running ∨ c.pkt.clsOp ≠ 0x900 + op then s
    else if collSt c = 0 then
      let d := descOf s c
      let group := groupHash (asRead s c) c
      let twice := d.addNext && deferredIn s c.pkt.job group d.stream
      let live := liveOf s (groupOf (asRead s c) c)
      let c' := { c with aux := collAux 1 0 0 0 }
      let s := putCmd s c'
      match live.head? with
      | none => s
      | some p =>
        if p = s.cfg.peerId then joinRound s c.pkt.job group d.stream d.round (opHash s c) p twice
        else match linkFault s c p with
          | some st => endCmd s c' st (if st = stDenied then 0xFE else 0)
          | none => sendCmd s c' p mtCollJoin 7 [group, d.stream, d.round, opHash s c, b2n twice] []
    else if collSt c = 2 then collFinish s c
    else s

-- rows ---------------------------------------------------------------------------------------------------------------------

/-- ALL_REDUCE: sum or maximum over the group, the result on every member (R358, R361). -/
def execAllReduce (c : Nat) (s : State) : Host.Outcome State Fault Refusal := .next (collRun 1 c s)
/-- REDUCE_SCATTER: each member keeps its chunk of rows (R358, R361). -/
def execReduceScatter (c : Nat) (s : State) : Host.Outcome State Fault Refusal := .next (collRun 2 c s)
/-- ALL_GATHER: every member's chunk on every member (R358, R361). -/
def execAllGather (c : Nat) (s : State) : Host.Outcome State Fault Refusal := .next (collRun 3 c s)
/-- BROADCAST: the root's view on every member (R358, R361). -/
def execBroadcast (c : Nat) (s : State) : Host.Outcome State Fault Refusal := .next (collRun 4 c s)
/-- REDUCE_TO_OWNER: contributions into the owner's GACC, their count into GRAD_COUNT (R363). -/
def execReduceToOwner (c : Nat) (s : State) : Host.Outcome State Fault Refusal := .next (collRun 5 c s)
/-- GLOBAL_NORM: the global 2-norm to the destination list (R363). -/
def execGlobalNorm (c : Nat) (s : State) : Host.Outcome State Fault Refusal := .next (collRun 6 c s)
/-- PERMUTE: re-sharding of a double-buffered tensor (R368, R369). -/
def execPermute (c : Nat) (s : State) : Host.Outcome State Fault Refusal := .next (collRun 7 c s)
/-- BARRIER: the group is synchronised (R362). -/
def execBarrier (c : Nat) (s : State) : Host.Outcome State Fault Refusal := .next (collRun 8 c s)

/-- COLLECTIVE_DEADLINE: device time reaches DEADLINE at the leader, which freezes the contributor set (R362). -/
def execCollectiveDeadline (c : Nat) (s : State) : Host.Outcome State Fault Refusal :=
  .next (match findCmd s c with
    | none => s
    | some x =>
      if x.pkt.cls ≠ 9 ∨ inUse x = false then s
      else
        let d := descOf s x
        match s.rounds.find? (roundIs x.pkt.job (groupHash (asRead s x) x) d.stream d.round) with
        | some r =>
          if r.frozen = none ∧ d.deadline ≠ 0 ∧ (liveOf s (groupOf (asRead s x) x)).head? = some s.cfg.peerId then
            let s := timeTo s (d.deadline + 3)
            match s.rounds.find? (roundIs r.job r.group r.stream r.round) with
            | some r => tryFreeze (freezeRound s r) r.job r.group r.stream ((r.round + 1) % 2 ^ 32)
            | none => s
          else s
        | none => s)

/-- PERMUTE_FLIP: device time reaches T_flip; the member publishes its buffer, flips CURRENT and increments VERSION (R369). -/
def execPermuteFlip (c : Nat) (s : State) : Host.Outcome State Fault Refusal :=
  .next (match findCmd s c with
    | none => s
    | some x =>
      if x.pkt.clsOp = 0x907 ∧ x.phase = .staged ∧ x.aux.length = 6 then
        let s := timeTo s (x.aux.getD 5 0)
        match findCmd s c with
        | some x => commitWith collEff s x
        | none => s
      else s)

/-- A peer lost to the rounds in which it took part (R366); the lost list already holds it. -/
def collLost (s : State) (peer : Nat) : State :=
  let s := { s with rounds := s.rounds.map (fun (r : Round) => if r.frozen.isNone then { r with joined := without r.joined peer } else r) }
  -- rounds not yet frozen
  let s := (s.rounds.filter (fun r => r.frozen.isNone)).foldl (fun (s : State) (r : Round) => tryFreeze s r.job r.group r.stream r.round) s
  -- rounds frozen with the lost peer, or led by it
  (s.cmds.filter (fun c => c.pkt.cls == 9 && inUse c && (groupOf (asRead s c) c).contains peer)).foldl (fun (s : State) (c : Cmd) =>
    let ms := groupOf (asRead s c) c
    let d := descOf s c
    let before := ms.filter (fun p => p == peer || !(s.domain.lost.contains p))
    let led := before.head? == some peer
    let owner := before.getD d.root 0
    if (setOf c).contains peer then
      if c.pkt.op = 1 ∨ c.pkt.op = 6 ∨ c.pkt.op = 8 ∨ (c.pkt.op = 5 ∧ owner ≠ peer) then
        let s := { s with rounds := s.rounds.filter (fun (r : Round) => !(roundIs c.pkt.job (groupHash (asRead s c) c) d.stream d.round r)) }
        killCmd s c 2
      else if c.pkt.op = 4 ∧ owner ≠ peer then (if led ∧ c.phase ≠ .committed then killCmd s c 2 else s)
      else endCmd s c stPeerLost 0
    else if led ∧ c.phase ≠ .committed then killCmd s c 2
    else s) s

/-- A member of a frozen set was aborted (R367): the round is killed here and rerun without it. -/
def collCancelled (s : State) (m : MsgHdr) : State :=
  (s.cmds.filter (fun c => c.pkt.cls == 9 && inUse c && c.pkt.job == m.job && (setOf c).contains m.src)).foldl (fun s c =>
    let d := descOf s c
    let g := groupHash (asRead s c) c
    let s := { s with rounds := s.rounds.map (fun r =>
      if roundIs c.pkt.job g d.stream d.round r then { r with frozen := none, joined := [], defer := [], out_ := r.out_ ++ [m.src] } else r) }
    killCmd s c 4) s

-- slots (R358) ---------------------------------------------------------------------------------------------------------------

def fmtsRed : List Nat := [0, 3, 4]
def fmtsAny : List Nat := [0, 1, 2, 3, 4, 5, 6, 7]

def collUses (p : Packet) : Option (List Use) :=
  let d := Use.raw 64 false; let g := Use.raw 8 false
  match p.op with
  | 1 | 2 => some [d, g, .ten false fmtsRed, .ten true fmtsRed, .zero]
  | 3 => some [d, g, .ten false fmtsAny, .ten true fmtsAny, .zero]
  | 4 => some [d, g, if p.slot 2 = 0 then .zero else .ten false fmtsAny, .ten true fmtsAny, .zero]
  | 5 => some [d, g, if p.slot 2 = 0 then .zero else .ten false [0], .raw 128 false, .zero]
  | 6 => some [d, g, .raw 4 false, .raw 4 true, .raw 8 false]
  | 7 => some [d, g, .ten true fmtsAny, .ten true fmtsAny, .raw 16 true]
  | 8 => some [d, g, .zero, .zero, .zero]
  | _ => none

/-- The rules of class 0x9 that the packet and its shapes decide (R63, R358, R368). -/
def collRules (p : Packet) (hs : List (Option Shape)) : List Flt :=
  let t (i : Nat) := (descAddr (p.slot i)).tier
  let h (i : Nat) := hs.getD i none
  let same (f : Shape → Shape → Bool) : Bool := match h 2, h 3 with | some a, some b => f a b | _, _ => true
  fltIf (fld p.opcode 0 2 != 0 || (p.heritage && !((p.op == 1 || p.op == 2) && same (fun a b => a.fmt4 == 0 && b.fmt4 == 0)))) fltOpcode ++
  (if p.op = 3 ∨ p.op = 4 then (match h 3 with | some o => fltIf (partBlock o) (fltSlot 3) | none => [])
   else if p.op = 7 then
     (match h 2 with | some o => fltIf (partBlock o) (fltSlot 2) | none => []) ++ (match h 3 with | some o => fltIf (partBlock o) (fltSlot 3) | none => [])
   else []) ++
  fltIf (!(t 0 == 0 || t 0 == 1) || (descAddr (p.slot 0)).off % 64 != 0) (fltSlot 0) ++ fltIf (!(t 1 == 0 || t 1 == 1)) (fltSlot 1) ++
  (if p.op = 1 then fltIf (!(same (fun a b => a.vrows == b.vrows && a.vcols == b.vcols))) (fltSlot 3)
   else if p.op = 2 then fltIf (!(same (fun a b => a.vcols == b.vcols))) (fltSlot 3)
   else if p.op = 3 then fltIf (!(same (fun a b => a.vcols == b.vcols && a.fmt == b.fmt))) (fltSlot 3)
   else if p.op = 4 then fltIf (!(same (fun a b => a.vrows == b.vrows && a.vcols == b.vcols && a.fmt == b.fmt))) (fltSlot 3)
   else if p.op = 5 then fltIf (!(t 3 == 0 || t 3 == 4)) (fltSlot 3)
   else if p.op = 7 then fltIf (!(same (fun a b => a.fmt == b.fmt && a.cols == b.cols && a.vcols == b.vcols))) (fltSlot 3)
   else [])

end Sys2Proof.Machine
end

