-- ==== Sys2Proof/Machine/Towpath.lean ====
section
/-! DEFINITION. Towpath ports, flits, credits and the forwarding of messages (R332 to R345, R372), and their rows. -/

set_option cleanup.letToHave false

namespace Sys2Proof.Machine

-- ports ------------------------------------------------------------------------------------------------------------------

/-- The address of a register of a port (R372). -/
def portReg (p off : Nat) : Nat := winAddr (portDie p) (0x1000000 + p % 18 * 0x10000 + off)

/-- A bit of PORT_EVENT is set; gaining it fires source PORT p (R372, R466). -/
def portEvent (s : State) (p b : Nat) : State :=
  let x := getPort s p
  let s' := setPort s p { x with event := setBit x.event b true }
  if bit x.event b then s' else fire s' (portDie p) (p % 18)

/-- The link state of a port as before training: nothing sequenced, no credit drawn (R333, R334, R343). -/
def Port.unlinked (x : Port) : Port :=
  { x with nextTx := 0, expect := 0, lastGood := 4095, replay := [], freedTx := List.replicate 8 0, freedRx := List.replicate 8 0,
           drawn := [], rxBytes := [], farValid := false, laneUe := [0, 0, 0, 0] }

/-- A port goes down (R332); its traffic moves to the other ports of the routes. -/
def portDown (s : State) (p lane : Nat) : State :=
  let x := getPort s p
  let s := setPort s p { x.unlinked with state := 0 }
  raiseMod (portEvent s p 1) (portDie p) 0x21 (p + lane * 256) 0 0

/-- The lanes of a pair: 0 and 1, or 2 and 3. -/
def pairOk (lanes pair : Nat) : Bool := fld lanes (2 * pair) 2 == 3

/-- A lane of a port that is up fails (R332): the port drops to the pair that holds no failed lane, if that is allowed. -/
def laneFail (s : State) (p lane : Nat) : State :=
  let x := getPort s p
  let ok := setBit x.laneOk lane false
  let s := setPort s p { x with laneOk := ok }
  if bit x.laneOk lane = false then s
  else if bit x.ctrl 1 = true ∧ (pairOk ok 0 || pairOk ok 1) = true then
    if x.state = 2 then
      let s := setPort s p { x with laneOk := ok, state := 3 }
      raiseMod (portEvent s p 0) (portDie p) 0x20 (p + lane * 256) 0 0
    else s
  else portDown s p lane

/-- Training starts (R502, R505). -/
def trainPort (s : State) (p : Nat) : State :=
  let x := getPort s p
  setPort s p { x.unlinked with state := 1, laneOk := 0, trainFrom := s.time }

/-- Training ends on lanes that passed (R332, R371, R372): new credits are in force, and the far end is known. -/
def trained (s : State) (p lanes far : Nat) : State :=
  let x := getPort s p
  let up := if lanes % 16 = 15 then 2 else if bit x.ctrl 1 = true ∧ (pairOk lanes 0 || pairOk lanes 1) = true then 3 else 0
  setPort s p { x.unlinked with
    state := up, laneOk := lanes % 16, farValid := up != 0, farPeer := if up = 0 then x.farPeer else far, creditUse := x.credit }

/-- Peers that can be reached over a port that is up (R339). -/
def reachable (s : State) (dst : Nat) : Bool := (List.range 36).any (fun p => bit (routeMask s dst) p && portUp (getPort s p))

-- control flits (R334, R335) ---------------------------------------------------------------------------------------------

/-- A control flit leaves a port: ACK, the freed counts of TC0 to TC7, and a NAK if any. -/
def sendControl (s : State) (p : Nat) (nak : Option Nat) : State :=
  let x := getPort s p
  { s with answers := s.answers ++ [.flit p 1 ([x.lastGood] ++ x.freedRx ++ (match nak with | some q => [q] | none => []))] }

/-- Flits that an ACK covers leave the replay buffer. -/
def ackFlits (x : Port) (ack : Nat) : Port :=
  match x.replay.findIdx? (fun r => r.1 == ack) with
  | some i =>
    let left := x.replay.drop (i + 1)
    { x with replay := left, sigs := x.sigs.filter (fun g => left.any (fun r => r.1 == g.1)) }
  | none => x

/-- Credits that the receiver freed return, oldest holder first (R343). -/
def freeDrawn (tc : Nat) : Nat → List (Nat × Nat × Nat) → List (Nat × Nat × Nat)
  | _, [] => []
  | n, d :: r =>
    if d.2.1 ≠ tc then d :: freeDrawn tc n r
    else if d.2.2 ≤ n then freeDrawn tc (n - d.2.2) r
    else (d.1, d.2.1, d.2.2 - n) :: r

/-- The freed counts of a control flit: cumulative, modulo 2³². -/
def takeFreed (x : Port) (freed : List Nat) : Port :=
  (List.range 8).foldl (fun x tc =>
    let n := (freed.getD tc 0 + 2 ^ 32 - x.freedTx.getD tc 0) % 2 ^ 32
    { x with drawn := freeDrawn tc n x.drawn, freedTx := x.freedTx.set tc (freed.getD tc 0 % 2 ^ 32) }) x

/-- On a NAK every unacknowledged flit from the one named is sent again (R334). -/
def takeNak (x : Port) (q : Nat) : Port :=
  match x.replay.findIdx? (fun r => r.1 == q) with
  | none => { x with retry := (x.retry + 1) % 2 ^ 48 }
  | some i =>
    { x with
      retry := (x.retry + 1) % 2 ^ 48,
      txFlits := (x.txFlits + (x.replay.length - i)) % 2 ^ 48,
      replay := x.replay.take i ++ (x.replay.drop i).map (fun r => (r.1, r.2.1, r.2.2 + 1)) }

/-- A lane whose uncorrectable codeword count exceeds that of every other (R336). -/
def worstLane (x : Port) : Option Nat :=
  (List.range 4).find? (fun l => (List.range 4).all (fun k => k == l || decide (x.laneUe.getD k 0 < x.laneUe.getD l 0)))

/-- A flit sent 8 times without an ACK (R336): one lane is treated as failed, or the port goes down. -/
def retryLimit (s : State) (p : Nat) : State :=
  let x := getPort s p
  if x.replay.any (fun r => decide (8 ≤ r.2.2)) then
    let s := portEvent s p 2
    match worstLane x with
    | some l => laneFail s p l
    | none => portDown s p 0
  else s

-- forwarding (R339) --------------------------------------------------------------------------------------------------------

def hdrFlits (m : MsgHdr) : Nat := ceilDiv (48 + m.len) 2048

/-- The holder of credits for transit traffic (R343). -/
def transitCtx : Nat := 256

/-- A message for another peer leaves by a port of its route that takes it, or waits (R339, R343); TC7 messages to a peer keep their order
(R340). -/
def offerTransit (s : State) (m : MsgHdr) : State :=
  if m.tc = 7 ∧ s.transit.any (fun h => h.dst == m.dst && h.tc == 7) = true then { s with transit := s.transit ++ [m] } else
  let ps := portsTo s m.dst
  let takes (p : Nat) := portTakes (getPort s p) m.tc transitCtx (hdrFlits m) && !(m.tc == 7 && pacerFull s.time (getPort s p))
  let out := if m.tc = 7 then ps.head?.filter takes else ps.find? takes
  match out with
  | some p =>
    let x := (getPort s p).paced s.time m.tc
    let n := hdrFlits m
    setPort { s with answers := s.answers ++ [.forward p m] } p { x with
      nextTx := (x.nextTx + n) % 4096,
      replay := x.replay ++ (List.range n).map (fun i => ((x.nextTx + i) % 4096, m.tc, 1)),
      drawn := x.drawn ++ [(transitCtx, m.tc, n)],
      txFlits := (x.txFlits + n) % 2 ^ 48 }
  | none => { s with transit := s.transit ++ [m] }

/-- A transit message that the pacer of its port does not let through now counts there as held (R344). -/
def countPacedTransit (s : State) (m : MsgHdr) : State :=
  match (portsTo s m.dst).head? with
  | some p => if m.tc = 7 ∧ pacerFull s.time (getPort s p) = true then setPort s p { getPort s p with held := (getPort s p).held + 1 } else s
  | none => s

/-- Waiting messages of TC7, or of the other classes, are offered again: transit messages before local ones, both in order of arrival. -/
def offerWaiting (held : List Msg) (transit : List MsgHdr) (express : Bool) (s : State) : State :=
  (held.filter (fun m => (m.tc == 7) == express)).foldl offer ((transit.filter (fun m => (m.tc == 7) == express)).foldl offerTransit s)

/-- What waits for a port or a credit is offered again, TC7 first (R341). A message that waits here has not joined the queue of a port (R343); the
order in which the waiting messages of a class are offered is a DESIGN CHOICE (notes/assumptions/59). -/
def releaseAll (s : State) : State :=
  offerWaiting s.held s.transit false (offerWaiting s.held s.transit true { s with transit := [], held := [] })

/-- A message that a port discards (R338, R339, R353). -/
def portDrop (s : State) (p : Nat) : State :=
  let x := getPort s p
  setPort s p { x with drop := (x.drop + 1) % 2 ^ 48 }

-- the message streams (R333, R338) ---------------------------------------------------------------------------------------

/-- The types of R338: data, and those that always travel in TC7. -/
def dataTypes : List Nat := [0x01, 0x02, 0x03, 0x04]
def tc7Types : List Nat :=
  [0x10, 0x11, 0x12, 0x13, 0x14, 0x15, 0x16, 0x17, 0x18, 0x20, 0x21, 0x22, 0x23, 0x24, 0x25, 0x26, 0x28, 0x29, 0x2A, 0x2B, 0x2C]
def typeOk (typ tc : Nat) : Bool := typ ∈ dataTypes || (typ ∈ tc7Types && tc == 7)

/-- The payload of a good data flit joins the stream of its class; a whole message leaves it. A message begins with a flit
and its last flit is filled out. -/
def takePayload (s : State) (p tc : Nat) (bs : List Byte) : State :=
  let x := getPort s p
  let buf := aget [] x.rxBytes tc ++ bs
  let whole := decide (32 + fieldAt buf 16 4 + 16 ≤ buf.length)
  let freed := (x.freedRx.getD tc 0 + 1) % 2 ^ 32
  let s := setPort s p { x with rxBytes := aput x.rxBytes tc (if whole then [] else buf), freedRx := x.freedRx.set tc freed }
  let s := if whole && !(typeOk (fieldAt buf 4 1) tc) then portDrop s p else s
  if freed % 8 = 0 then sendControl s p none else s

/-- A port whose link works: up, or under calibration while the flits in flight finish (R371). -/
def portLinked (x : Port) : Bool := portUp x || x.state == 4

/-- Bytes 0 to 2,051 of a flit (R333). -/
def flitBytes (f : Flit) : List Byte := leBytes 4 (f.seq + f.ack * 2 ^ 12 + f.kind * 2 ^ 27 + f.tc * 2 ^ 29) ++ fitBytes 2048 f.payload

/-- What waits is offered again when ports may take more. -/
def afterAck (s : State) : State := releaseAll s

-- rows ---------------------------------------------------------------------------------------------------------------------

/-- FLIT_RECEIVE: a port checks CRC and sequence, and answers a flit it discards with a NAK (R333, R334, R338). -/
def execFlitReceive (port : Nat) (flit : Flit) (s : State) : Host.Outcome State Fault Refusal :=
  .next (let x := getPort s port
    if !(portLinked x) then s
    else if flit.crc ≠ crc32 (flitBytes flit) then
      sendControl (setPort s port { x with crcErr := (x.crcErr + 1) % 2 ^ 48 }) port (some x.expect)
    else
      let x := ackFlits x flit.ack
      let s := setPort s port x
      if flit.kind ≠ 0 then afterAck s
      else if flit.seq ≠ x.expect then sendControl (afterAck s) port (some x.expect)
      else
        let s := setPort s port { x with expect := (x.expect + 1) % 4096, lastGood := flit.seq, rxFlits := (x.rxFlits + 1) % 2 ^ 48 }
        afterAck (takePayload s port flit.tc flit.payload))

/-- CONTROL_FLIT: freed credits return, an ACK empties the replay buffer, and a NAK makes the port send again (R334 to
R336, R343). -/
def execControlFlit (port ack : Nat) (cr : CreditRec) (s : State) : Host.Outcome State Fault Refusal :=
  .next (let x := getPort s port
    if !(portLinked x) then s
    else
      let x := takeFreed (ackFlits x ack) cr.freed
      let s := if cr.nak.isSome then count s (portDie port) slotsDie 0x73 1 none else s
      let s := setPort s port (match cr.nak with | some q => takeNak x q | none => x)
      afterAck (if portUp x then retryLimit s port else s))

/-- CONTROL_FLIT_TIMER: a receiver sends a control flit at least every 1 µs (R335). -/
def execControlFlitTimer (port : Nat) (s : State) : Host.Outcome State Fault Refusal :=
  .next (if portLinked (getPort s port) then sendControl s port none else s)

/-- LANE_FAILURE (R332). -/
def execLaneFailure (port lane : Nat) (s : State) : Host.Outcome State Fault Refusal :=
  .next (if portUp (getPort s port) then releaseAll (laneFail s port lane) else s)

/-- PORT_CTRL: a port that is disabled is down; ENABLE written 0 then 1 resets it (R372, R502). -/
def execPortCtrl (port value : Nat) (s : State) : Host.Outcome State Fault Refusal :=
  .next (let x := getPort s port
    let s := setPort s port { x with ctrl := fld value 0 2 }
    if bit x.ctrl 0 = true ∧ bit value 0 = false then
      setPort s port { (getPort s port).unlinked with state := 0, laneOk := 0 }
    else if bit x.ctrl 0 = false ∧ bit value 0 = true then trainPort s port
    else s)

/-- Are the credits of a value of PORT_CREDIT valid together (R342, R372)? -/
def creditOk (v : Nat) : Bool :=
  decide (((List.range 8).map (fun c => fld v (8 * c) 8)).foldl (· + ·) 0 ≤ 512) && decide (32 ≤ fld v 56 8)

/-- PORT_CREDIT: an invalid value is dropped whole with REG_ACCESS; a valid one takes effect when the port next trains
(R372). -/
def execPortCredit (port value : Nat) (s : State) : Host.Outcome State Fault Refusal :=
  .next (if creditOk value then setPort s port { getPort s port with credit := value % 2 ^ 64 }
    else regAccess s (portDie port) (GAddr.code ⟨3, 0, portReg port 0x10⟩) true false false)

/-- PORT_RETRAIN: a down port that is enabled retrains (R505). -/
def execPortRetrain (port : Nat) (s : State) : Host.Outcome State Fault Refusal :=
  .next (let x := getPort s port
    if x.state = 0 ∧ bit x.ctrl 0 = true ∧ 6 ≤ s.power.phase ∧ s.power.phase ≤ 7 then trainPort s port else s)

/-- MESSAGE_FORWARD: HOPS is decremented and the message leaves by a port of its route; with no hops left it is discarded
with ROUTE_LOOP (R339). -/
def execMessageForward (port : Nat) (m : MsgHdr) (s : State) : Host.Outcome State Fault Refusal :=
  .next (if m.dst = s.cfg.peerId ∨ s.power.phase = 0xF then s
    else if m.hops = 0 then
      raiseMod (portEvent (portDrop s port) port 4) (portDie port) 0x22 (m.dst + m.src * 4096) 0 0
    else offerTransit (countPacedTransit s m) { m with hops := m.hops - 1 })

end Sys2Proof.Machine
end

