-- ==== Sys2Proof/Machine/Domain.lean ====
section
/-! DEFINITION. The cascade domain: messages received, the keeper, membership, device time, lost peers (R203 to R211,
R286, R315 to R318, R346 to R356, R362 to R369). -/

set_option cleanup.letToHave false

namespace Sys2Proof.Machine

-- receiving (R337, R338, R353, R354) ------------------------------------------------------------------------------------

/-- The port on which a peer's messages are taken to arrive: the lowest of its route that is up. -/
def arrivalPort (s : State) (src : Nat) : Option Nat :=
  (List.range 36).find? (fun p => bit (routeMask s src) p && portUp (getPort s p))

/-- A message is discarded and its port counts it. -/
def discardMsg (s : State) (m : MsgHdr) : State := match arrivalPort s m.src with | some p => portDrop s p | none => s

/-- The replay windows after a message of a pair and job; none where its generation or count is refused (R353). -/
def windowOk (w : LinkRx) (gen n : Nat) : Option LinkRx :=
  let fresh (top : Nat) (seen : List Nat) := decide (0 < n) && decide (top < n + 4096) && !(seen.contains n)
  let keep (top : Nat) (seen : List Nat) := (n :: seen).filter (fun x => decide (max top n < x + 4096))
  if gen = w.gen then
    if fresh w.top w.seen then some { w with top := max w.top n, seen := keep w.top w.seen } else none
  else if gen = w.gen + 1 then
    if 0 < n then some { gen := gen, top := n, seen := [n], oldTop := w.top, oldSeen := w.seen } else none
  else if gen + 1 = w.gen then
    if fresh w.oldTop w.oldSeen then some { w with oldTop := max w.oldTop n, oldSeen := keep w.oldTop w.oldSeen } else none
  else none

/-- Has the module a key for a message: the domain key, or a link secret for its job (R352, R415)? -/
def hasKey (s : State) (job : Nat) : Bool := job == 0 || s.links.any (fun l => l.1.2 == job)

/-- A message that fails authentication (R353). -/
def authFail (s : State) (m : MsgHdr) : State :=
  let s := match arrivalPort s m.src with | some p => portEvent s p 3 | none => s
  let d := match arrivalPort s m.src with | some p => portDie p | none => 8
  let s := raise (discardMsg s m) d 0x23 (if m.job = 0 then 0xFFFF else m.job) 0xFFFF m.seq (m.src + m.typ * 2 ^ 16) 0 0
  send s ⟨m.src, mtAuthNak, 7, m.job, m.seq, m.runs, m.ctx, 0, 0, [], []⟩

/-- A message of a type reaches this module, and is acted on where nothing discards it: a type in the wrong class (R338), a
lost peer (R354), a peer with this module's own id (R346), or a failed authentication (R353). The HELLO of a peer
that has reset begins its counts again. -/
def receive (typ : Nat) (m : MsgHdr) (act : State → State) (s : State) : Host.Outcome State Fault Refusal :=
  .next (
    if m.dst ≠ s.cfg.peerId ∨ s.power.phase = 0xF ∨ s.power.off = true then s
    else if m.typ ≠ typ ∨ typeOk typ m.tc = false then discardMsg s m
    else if typ ≠ mtHello ∧ s.domain.lost.contains m.src = true then s
    else if m.job ≠ 0 ∧ s.domain.conflicts.contains m.src = true then s
    else
      let w := if typ = mtHello then LinkRx.rest else aget LinkRx.rest s.domain.rx (m.src, m.job)
      match (if m.tagOk && hasKey s m.job then windowOk w m.gen m.count else none) with
      | none => authFail s m
      | some w =>
        let d := s.domain
        let s := { s with domain := { d with rx := aput d.rx (m.src, m.job) w, lastHeard := aput d.lastHeard m.src s.time } }
        act (traceRec s (match arrivalPort s m.src with | some p => portDie p | none => 8) (msgRec s m.job m.seq typ m.src m.tc true)))

-- the keeper (R347, R348) -------------------------------------------------------------------------------------------------

/-- CRC-32C of the successor list, its ids as 2-byte entries (R347). -/
def listCrcOf (s : State) : Nat := crc32c ((s.domain.successors.map (leBytes 2)).flatten)

/-- Position of a peer among the candidates: 0 the keeper, 1 to 8 a successor (R347, R373). Under strap mode a peer that
announces and is no successor is one whose strap is asserted. -/
def posOf (s : State) (p : Nat) : Nat :=
  let i := s.domain.successors.findIdx (· == p)
  let succ := if i < s.domain.successors.length then i + 1 else 9
  if s.domain.peer0Mode then (if p = 0 then 0 else succ)
  else if p = s.cfg.peerId then (if s.power.keeperStrap then 0 else succ)
  else if succ = 9 then 0 else succ

/-- Is candidate `a` before `b` (R348)? -/
def earlier (s : State) (a b : Nat) : Bool := decide (posOf s a < posOf s b) || (posOf s a == posOf s b && decide (a < b))

/-- Members other than this module. -/
def otherMembers (s : State) : List Nat := ((s.domain.members.filter (fun m => m.2 == 1)).map Prod.fst).filter (fun p => p != s.cfg.peerId)

/-- Peers to which the keeper announces: members, and peers at the far ends of ports that are up. -/
def audience (s : State) : List Nat :=
  ((otherMembers s ++ ((List.range 36).filter (fun p => portUp (getPort s p) && (getPort s p).farValid)).map (fun p => (getPort s p).farPeer)).eraseDups).filter
    (fun p => p != s.cfg.peerId && !(s.domain.lost.contains p))

def sendAnnounce (s : State) : State := (audience s).foldl (fun s p => sendDom s p mtAnnounce [listCrcOf s]) s

/-- The keeper's table goes to every member (R349). -/
def sendMembers (s : State) : State :=
  (otherMembers s).foldl (fun s p => sendDom s p mtMember ((s.domain.members.map (fun e => [e.1, e.2])).flatten)) s

/-- The keeper changes its table (R349). -/
def setMember (s : State) (p st : Nat) : State := sendMembers { s with domain := { s.domain with members := tput s.domain.members p st } }

/-- The next candidate that a module has not declared lost (R348). -/
def nextKeeper (s : State) : Option Nat :=
  let first := if s.domain.peer0Mode then [0] else (s.domain.heardKeeper ++ (if s.power.keeperStrap then [s.cfg.peerId] else [])).filter (fun p => posOf s p == 0)
  (first.mergeSort (fun a b => decide (a ≤ b)) ++ s.domain.successors).find? (fun p => !(s.domain.lost.contains p))

/-- The followed keeper was declared lost: the next candidate is followed, and a module that is that candidate begins to
act as keeper (R348). -/
def succeed (s : State) (old : Nat) : State :=
  match nextKeeper s with
  | none => { s with domain := { s.domain with keeper := none } }
  | some k =>
    let own := k == s.cfg.peerId
    let s := { s with domain := { s.domain with keeper := some (k, posOf s k), isKeeper := own } }
    let s := raiseMod (fire s 8 21) 8 0x27 (k + old * 2 ^ 16) 0 0
    if own then sendMembers (sendAnnounce { s with domain := { s.domain with members := tput s.domain.members old 2 } }) else s

-- lost peers (R354, R355) -------------------------------------------------------------------------------------------------

/-- Lock signals to a peer that have not been delivered: those that wait, and those that a port has sent and no ACK has covered: job, and
SEQ, lock, amount. -/
def signalsTo (s : State) (p : Nat) : List (Nat × List Nat) :=
  (s.ports.map (fun x => (x.2.sigs.filter (fun g => g.2.1 == p)).map (fun g => (g.2.2.1, g.2.2.2)))).flatten ++
  (s.held.filter (fun m => m.dst == p && m.typ == mtLockSignal)).map (fun m => (m.job, m.seq :: m.body))

/-- Messages to a lost peer are dropped, its undelivered signals with SIGNAL_LOST (R286, R355). -/
def dropHeld (s : State) (p : Nat) : State :=
  (signalsTo s p).foldl (fun s g => raise s 8 0x17 g.1 0xFFFF (g.2.getD 0 0) (g.2.getD 1 0 + p * 2 ^ 16) (g.2.getD 2 0) 0)
    { s with
      held := s.held.filter (fun m => !(m.dst == p)),
      ports := s.ports.map (fun x => (x.1, { x.2 with sigs := x.2.sigs.filter (fun g => !(g.2.1 == p)) })) }

/-- What a module does when it declares a peer lost (R320, R354, R355, R366). -/
def declareLost (s : State) (p : Nat) : State :=
  if p = s.cfg.peerId ∨ s.domain.lost.contains p = true then s
  else
    let s := fire { s with domain := { s.domain with lost := s.domain.lost ++ [p] } } 8 20
    let s := (s.jobs.filter (fun j => j.peers.contains p)).foldl (fun (s : State) (j : Job) => raise s 8 0x24 j.id 0xFFFF 0 p 0 0) s
    let s := raiseMod s 8 0x24 p 0 0
    let s :=
      if s.domain.isKeeper then setMember s p 2
      else match s.domain.keeper with
        | some (k, _) => if k = p then s else sendDom s k mtLost [p]
        | none => s
    let s := { s with remoteSt := s.remoteSt.filter (fun r => !(r.peer == p)), loans := s.loans.filter (fun l => !(l.2.peer == p)) }
    let s := killWbs (dropHeld s p) (fun o => o.home.tier == 4 && o.home.peer == p)
    let s := endAll s stPeerLost 0 (fun c => c.pkt.cls != 9 && inUse c && (cmdPeers c).contains p)
    let s := collLost s p
    let s := { s with changes := s.changes.map (fun (c : Change) =>
      { c with unacked := c.unacked.filter (fun u => !(u.1 == p)), peers := without c.peers p }) }
    let s := (s.changes.map Change.id).foldl openChange s
    match s.domain.keeper with
    | some (k, _) => if k = p then succeed s p else s
    | none => s

/-- A module that others have declared lost ends the jobs it shares with them (R355). -/
def selfLost (s : State) (by_ : Nat) : State :=
  let all := match s.domain.keeper with | some (k, _) => k == by_ | none => false
  let js := (s.jobs.filter (fun j => j.peers.any (fun p => p != s.cfg.peerId && (all || p == by_)))).map Job.id
  let s := js.foldl (fun s j => raise (endJob (raise s 8 0x1F j 0xFFFF 0 2 0 0) j) 8 0x24 j 0xFFFF 0 s.cfg.peerId 0 0) s
  raiseMod s 8 0x24 s.cfg.peerId 0 0

-- TIER 4 at the lender (R203 to R211) --------------------------------------------------------------------------------------

/-- LOAN_DENIED with the address and the requester (R205, R207). -/
def loanDenied (s : State) (m : MsgHdr) (addr : Nat) : State :=
  let g := GAddr.code ⟨0, 0, addr % 2 ^ 48⟩
  raise s (if addr < hbmEnd then dieOfAddr addr else 8) 0x13 m.job 0xFFFF m.seq g (g / 2 ^ 32) m.src

/-- The ranges of an active shard that other peers of its job may read (R171, R172, R207). -/
def shardReadable (s : State) (a : Nat) (h : Shard) : List (Nat × Nat) :=
  let n := tensorBytes 0 (wholeShape h.wcFmt h.rows h.cols)
  [(a, 128), (lofs s h.wc0, n)] ++ (if h.retain = 2 then [(lofs s h.wc1, n)] else [])

/-- The key under which a peer's read is answered, where it is accepted (R205, R207). -/
def readKey (s : State) (m : MsgHdr) (addr len : Nat) (engine : Bool) : Option Nat :=
  if hbmEnd < addr + len ∨ (getDie s (dieOfAddr addr)).up = false then none
  else if loanCuts s addr len then
    (s.loans.find? (fun l => inside addr len l.2.base l.2.size && l.2.job == m.job && (l.2.peer == m.src || l.2.readers.contains m.src))).map
      (fun l => l.2.memKey)
  else
    (s.shards.find? (fun h => h.2.job == m.job && 
      (if engine then inside addr len h.1 128 else (shardReadable s h.1 h.2).any (fun r => inside addr len r.1 r.2)))).map
      (fun h => jobKey s 0 h.2.job)

/-- An answer to a read: its address, and why it carries no data (0 refused, 1 an uncorrectable error). -/
def answerRead (s : State) (m : MsgHdr) (addr why : Nat) (data : List Byte) : State :=
  send s ⟨m.src, mtReadResp, m.tc, m.job, m.seq, m.runs, m.ctx, 0, 0, [addr, why], data⟩

/-- The bytes that a peer's read returns: of the copy that serves them (R216), and of the control block of an active shard what the module
keeps (R171, R172). -/
def readBytes (s : State) (key addr len : Nat) : List Byte :=
  s.shards.foldl (fun bs h =>
    if overlap addr len h.1 128 then
      (bs.zipIdx addr).map (fun b => if h.1 ≤ b.2 ∧ b.2 < h.1 + 128 then h.2.block.getD (b.2 - h.1) 0 else b.1)
    else bs) (rdKey s key (served s (gLocal addr) len).1.off len)

/-- READ_REQ (R205, R207, R210, R241). -/
def execReadReq (m : MsgHdr) (addr len : Nat) (engine : Bool) (s : State) : Host.Outcome State Fault Refusal :=
  receive mtReadReq m (fun s =>
    match readKey s m addr len engine with
    | none => answerRead (loanDenied s m addr) m addr 0 []
    | some key => match poisonedIn s (served s (gLocal addr) len).1.off len with
      | some u => answerRead (memError s (dieOfAddr u) 1 m.job 0xFFFF m.seq none (gLocal u).code) m addr 1 []
      | none => answerRead s m addr 0 (readBytes s key addr len)) s

/-- The command of this module that a message of a run answers (R278: the RUNS check). -/
def cmdOfMsg (s : State) (m : MsgHdr) (p : Cmd → Bool) : Option Cmd :=
  s.cmds.find? (fun c => inUse c && c.pkt.job == m.job && c.pkt.seq == m.seq && c.runs % 256 == m.runs && p c)

/-- The operand slot that names an address on a peer: of the slots that name that peer, the nearest below it (R271). -/
def farSlot (c : Cmd) (peer addr : Nat) : Nat :=
  let xs := (List.range 5).filter (fun i => (descAddr (c.pkt.slot i)).tier == 4 && (descAddr (c.pkt.slot i)).peer == peer)
  let below := xs.filter (fun i => decide ((descAddr (c.pkt.slot i)).off ≤ addr))
  below.foldl (fun b i => if (descAddr (c.pkt.slot b)).off < (descAddr (c.pkt.slot i)).off ∨ addr < (descAddr (c.pkt.slot b)).off then i else b)
    (below.headD (xs.headD 0))

/-- READ_RESP: data of a read of the present run; anything else is discarded (R278). -/
def execReadResp (m : MsgHdr) (addr : Nat) (data : List Byte) (s : State) : Host.Outcome State Fault Refusal :=
  receive mtReadResp m (fun s =>
    if data = [] then
      match cmdOfMsg s m (fun c => c.asked.any (fun a => a.1 == m.src && a.2.1 == addr && !(received c a))) with
      | some c => endCmd s c (if m.len = 0 then stDenied else stEcc) (if m.len = 0 then farSlot c m.src addr else 0)
      | none => s
    else
      match cmdOfMsg s m (fun c => c.asked.contains (m.src, addr, data.length) && !(received c (m.src, addr, data.length))) with
      | some c => putCmd s { c with remote := c.remote ++ [⟨m.src, addr, data⟩] }
      | none => s) s

/-- The acknowledgement of staged writes, or their refusal. -/
def answerWrite (s : State) (m : MsgHdr) (refused : Bool) : State :=
  send s ⟨m.src, mtStagedAck, 7, m.job, m.seq, m.runs, m.ctx, 0, 0, if refused then [1] else [], []⟩

/-- WRITE: staged in the pound of the lender's die, which acknowledges (R205, R207, R210, R239, R275). A write that finds no
room in the pound waits there, unacknowledged, until there is room (notes/assumptions/123). -/
def execWrite (m : MsgHdr) (addr : Nat) (data : List Byte) (s : State) : Host.Outcome State Fault Refusal :=
  receive mtWrite m (fun s =>
    let ok := s.loans.any (fun l => l.2.peer == m.src && l.2.job == m.job && inside addr data.length l.2.base l.2.size) &&
      (getDie s (dieOfAddr addr)).up
    if !ok then answerWrite (loanDenied s m addr) m true
    else admitStaged { s with remoteSt := s.remoteSt ++ [⟨m.src, m.job, m.seq, m.runs, addr, data, m.ctx, false⟩] }) s

/-- STAGED_ACK: a lender has staged, or has refused (R205, R275); collectives use it for their own acknowledgements (R363,
R369). -/
def execStagedAck (m : MsgHdr) (s : State) : Host.Outcome State Fault Refusal :=
  receive mtStagedAck m (fun s =>
    match cmdOfMsg s m (fun _ => true) with
    | none => ackWb s m.job m.seq m.src (m.len != 0)
    | some c =>
      if m.len ≠ 0 then
        -- a lender answers the writes in the order in which they were sent
        let mine := c.writes.filter (fun w => w.tgt.tier == 4 && w.tgt.peer == m.src)
        let k := (c.acked.filter (· == m.src)).length
        endCmd s c stDenied (match mine[k]? with | some w => farSlot c m.src w.tgt.off | none => 0)
      else
        -- the leader of a PERMUTE learns how far away its members are (R316, R369)
        let far := if c.pkt.clsOp = 0x907 ∧ c.aux.length = 5 then c.aux.set 4 (max (c.aux.getD 4 1) (9 - m.hops)) else c.aux
        let c := { c with acked := c.acked ++ [m.src], aux := far }
        tryFlip (putCmd s c) c) s

/-- Is a staged remote write one of a run? -/
def ofRun (m : MsgHdr) (r : RemoteStaged) : Bool := r.peer == m.src && r.job == m.job && r.seq == m.seq && r.runs == m.runs

/-- Loans whose borrower's job has ended go when their last staged write is settled (R356). -/
def settleLoans (s : State) : State := { s with loans := s.loans.filter (fun l => !(l.2.ending && !(loanStaged s l.2))) }

/-- The memory key of the loan that holds an address. -/
def loanKey (s : State) (m : MsgHdr) (a : Nat) : Nat :=
  match s.loans.find? (fun l => l.2.job == m.job && inside a 1 l.2.base l.2.size) with
  | some l => l.2.memKey
  | none => deadKey

/-- COMMIT: all staged writes of the run are published at once (R210, R238). -/
def execCommit (m : MsgHdr) (s : State) : Host.Outcome State Fault Refusal :=
  receive mtCommit m (fun s =>
    let mine := s.remoteSt.filter (ofRun m)
    let s := { s with remoteSt := s.remoteSt.filter (fun r => !(ofRun m r)) }
    let s := mine.foldl (fun (s : State) (r : RemoteStaged) =>
      poundPublish (wrLocal s (loanKey s m r.addr) r.addr r.data) (dieOfAddr r.addr) [⟨⟨0, 0, r.addr⟩, r.data⟩]) s
    admitStaged (settleLoans { s with poison := unpoisonAll s.poison (mine.map (fun r => ⟨⟨0, 0, r.addr⟩, r.data⟩)) })) s

/-- CANCEL: a killed or ended run leaves nothing here (R239, R278); a collective of a frozen set is rerun without the peer
(R367). -/
def execCancel (m : MsgHdr) (s : State) : Host.Outcome State Fault Refusal :=
  receive mtCancel m (fun s =>
    admitStaged (collCancelled (settleLoans { s with remoteSt := s.remoteSt.filter (fun r => !(ofRun m r)) }) m)) s

/-- LOCK_SIGNAL: applied once, or dropped with LOCK_DENIED (R284, R286). -/
def execLockSignal (m : MsgHdr) (lock amount : Nat) (s : State) : Host.Outcome State Fault Refusal :=
  receive mtLockSignal m (fun s => signalLock s (lock % 16384) amount m.job m.src none) s

/-- LOAN_END: the loans of a borrower's job that has ended (R356). -/
def execLoanEnd (m : MsgHdr) (s : State) : Host.Outcome State Fault Refusal :=
  receive mtLoanEnd m (fun s =>
    settleLoans { s with loans := s.loans.map (fun l => if l.2.peer = m.src ∧ l.2.job = m.job then (l.1, { l.2 with ending := true }) else l) }) s

/-- AUTH_NAK: a command one of whose messages failed authentication ends ACCESS_DENIED before its commit (R353). -/
def execAuthNak (m : MsgHdr) (s : State) : Host.Outcome State Fault Refusal :=
  receive mtAuthNak m (fun s => match cmdOfMsg s m (fun _ => true) with | some c => endCmd s c stDenied 0xFE | none => s) s

-- collectives (R362 to R369) ------------------------------------------------------------------------------------------------

/-- COLL_JOIN at the leader (R362, R365). -/
def execCollJoin (m : MsgHdr) (group stream round op : Nat) (twice : Bool) (s : State) : Host.Outcome State Fault Refusal :=
  receive mtCollJoin m (fun s => joinRound s m.job group stream round op m.src twice) s

/-- COLL_SET: the frozen set, or the end of a round whose hashes differ (R362). -/
def execCollSet (m : MsgHdr) (group stream round count : Nat) (set : List Nat) (s : State) : Host.Outcome State Fault Refusal :=
  receive mtCollSet m (fun s =>
    match collCmd s m.job group stream round with
    | none => s
    | some c =>
      if collSt c ≠ 1 then s
      else if set = [] then endCmd (raiseCmd s c 0x2C group round 0) c stBad (badAt 24 0)
      else takeSet s c set count m.seq m.runs) s

/-- COLL_DATA: a member's contribution (R362 step 3). -/
def execCollData (m : MsgHdr) (group stream round : Nat) (data : List Byte) (s : State) : Host.Outcome State Fault Refusal :=
  receive mtCollData m (fun s =>
    match collCmd s m.job group stream round with
    | none => s
    | some c =>
      if c.phase ≠ .running ∨ c.remote.any (fun r => r.peer == m.src) = true then s
      else
        let c := { c with remote := c.remote ++ [⟨m.src, m.seq * 256 + m.runs, data⟩] }
        if collSt c = 2 then collFinish (putCmd s c) c else putCmd s c) s

/-- What a late member stages (R365): its contribution in the deferral buffer, and the round's result. -/
def lateStage (s : State) (c : Cmd) (count : Nat) (result : List Byte) : Stg :=
  let d := descOf s c
  let defer : List SWrite := if d.addNext then [⟨gaddrOf d.aux, newContrib s c⟩] else []
  let w : List SWrite × List OutInfo × Nat :=
    if c.pkt.op = 3 ∨ c.pkt.op = 4 then
      match opnd c 3 with
      | some o => let ws := rowWrites o 0 o.sh.vrows result; (ws, [rawOut s c o ws], 0)
      | none => ([], [], 0)
    else collWrites s c d result
  { Stg.none with
    writes := placeWrites s c (w.1 ++ defer), outs := w.2.1, status := if d.addNext then stDeferred else stDropped, detail := count,
    aux := collAux 9 0 0 count, wait := collAwaits s c, ieee := w.2.2 ||| (if collAwaits s c then 0 else gaccFlags s c) }

/-- COLL_LATE: the member defers or drops its contribution and takes the result; a member too late is expelled (R365). -/
def execCollLate (m : MsgHdr) (group stream round count : Nat) (result : List Byte) (s : State) : Host.Outcome State Fault Refusal :=
  receive mtCollLate m (fun s =>
    match collCmd s m.job group stream round with
    | none => s
    | some c =>
      if collSt c ≠ 1 then s
      else if count = 0 then
        endCmd (raiseCmd s c 0x2B (s.cfg.peerId + b2n (descOf s c).addNext * 2 ^ 12 + stream * 2 ^ 16) round 0) c stPeerLost 0
      else
        let c := { c with aux := collAux 9 0 0 count, remote := [⟨m.src, 0, result⟩] }
        stage collEff (putCmd s c) c (lateStage s c count result)) s

/-- COLL_FLIP: the member learns T_flip (R369). -/
def execCollFlip (m : MsgHdr) (group stream round tFlip : Nat) (s : State) : Host.Outcome State Fault Refusal :=
  receive mtCollFlip m (fun s =>
    match collCmd s m.job group stream round with
    | none => s
    | some c => if c.phase = .staged ∧ c.aux.length = 5 then putCmd s { c with aux := c.aux ++ [tFlip] } else s) s

-- device time (R350, R351, R506) ----------------------------------------------------------------------------------------------

/-- TIME from the followed keeper: behind it, the module steps forward, or once locked slews by at most 100 ppm; ahead of it,
the module slews. -/
def execTime (m : MsgHdr) (port now hops : Nat) (s : State) : Host.Outcome State Fault Refusal :=
  receive mtTime m (fun s =>
    let d := s.domain
    let followed := match d.keeper with | some (k, _) => k == m.src | none => false
    if !followed || d.isKeeper || d.outside || !(ready s) then s
    else
      let t := now + (getPort s port).chDelay
      let off : Int := (t : Int) - (s.time : Int)
      let now2 := if s.time < t then (if d.locked then min t (s.time + (s.time - d.lastTime) / 10000) else t) else s.time
      let s := timeTo s now2
      { s with domain := { d with locked := true, slewing := now2 != t, ahead := now2 - t, hops := hops, offset := off, lastTime := now2 } }) s

/-- PDELAY: the channel delay of a port as measured (R350). -/
def execPdelay (m : MsgHdr) (port delay : Nat) (s : State) : Host.Outcome State Fault Refusal :=
  receive mtPdelay m (fun s => setPort s port { getPort s port with chDelay := delay }) s

/-- TIME_TIMER: the keeper sends its device time (R350). -/
def execTimeTimer (s : State) : Host.Outcome State Fault Refusal :=
  .next (if s.domain.isKeeper ∧ ready s = true then (audience s).foldl (fun s p => sendDom s p mtTime [s.time, 0]) s else s)

/-- PDELAY_TIMER: a port measures its channel delay (R350). -/
def execPdelayTimer (port : Nat) (s : State) : Host.Outcome State Fault Refusal :=
  .next (let x := getPort s port; if portUp x && x.farValid then sendDom s x.farPeer mtPdelay [port] else s)

/-- TIME_UNLOCKED: 500 µs without TIME (R351). -/
def execTimeUnlocked (s : State) : Host.Outcome State Fault Refusal :=
  .next (if s.domain.locked then
      let s := timeTo s (s.domain.lastTime + 500000)
      raiseMod (fire { s with domain := { s.domain with locked := false, slewing := false } } 8 22) 8 0x29 0 0 0
    else s)

-- keeper, membership, liveness (R346 to R349, R354, R355) -----------------------------------------------------------------------

/-- ANNOUNCE: the successor list is checked, and the earlier of two candidates is followed (R347, R348). -/
def execAnnounce (m : MsgHdr) (listCrc : Nat) (s : State) : Host.Outcome State Fault Refusal :=
  receive mtAnnounce m (fun s =>
    if listCrc ≠ listCrcOf s then
      raiseMod { s with domain := { s.domain with outside := true } } 8 0x26 m.src listCrc 0
    else
      let d := s.domain
      let new := !(d.heardKeeper.contains m.src)
      let s := { s with domain := { d with outside := false, heardKeeper := if new then d.heardKeeper ++ [m.src] else d.heardKeeper } }
      let follow (k : Nat) : State := { s with domain := { s.domain with keeper := some (k, posOf s k), isKeeper := s.domain.isKeeper && k == s.cfg.peerId } }
      match d.keeper with
      | none => follow m.src
      | some (k, _) =>
        if k = m.src then s
        else
          let best := if earlier s m.src k then m.src else k
          let s' := follow best
          if new && (d.isKeeper || d.heardKeeper.contains k) then raiseMod s' 8 0x28 (best + (if best = k then m.src else k) * 2 ^ 16) 0 0 else s') s

/-- HELLO: a peer id in use twice is reported; at the keeper a peer enters or returns as a member (R346, R349). -/
def execHello (m : MsgHdr) (port : Nat) (s : State) : Host.Outcome State Fault Refusal :=
  receive mtHello m (fun s =>
    let d := s.domain
    if m.src = s.cfg.peerId then
      raiseMod { s with domain := { d with conflicts := if d.conflicts.contains m.src then d.conflicts else d.conflicts ++ [m.src] } } (portDie port) 0x25
        (m.src + port * 2 ^ 16) 0 0
    else
      let s := { s with domain := { d with lost := without d.lost m.src } }
      if d.isKeeper ∧ d.outside = false then setMember s m.src 1 else s) s

/-- HEARTBEAT: the peer has been heard (R354). -/
def execHeartbeat (m : MsgHdr) (s : State) : Host.Outcome State Fault Refusal := receive mtHeartbeat m id s

/-- MEMBER: the keeper's table (R349). A peer that it newly marks lost is lost here; one that it takes back is heard again. -/
def execMember (m : MsgHdr) (table : List (Nat × Nat)) (s : State) : Host.Outcome State Fault Refusal :=
  receive mtMember m (fun s =>
    let d := s.domain
    let followed := match d.keeper with | some (k, _) => k == m.src | none => false
    if !followed || d.outside then s
    else
      let back := (table.filter (fun e => e.2 == 1 && tget 0 d.members e.1 == 2)).map Prod.fst
      let new := (table.filter (fun e => e.2 == 2)).map Prod.fst
      let s := { s with domain := { d with members := table.foldl (fun t e => tset 0 t e.1 e.2) [], lost := d.lost.filter (fun p => !(back.contains p)) } }
      new.foldl declareLost s) s

/-- LOST: the keeper marks the peer lost; a module that is itself declared lost ends what it shares (R349, R355). -/
def execLost (m : MsgHdr) (peer : Nat) (s : State) : Host.Outcome State Fault Refusal :=
  receive mtLost m (fun s =>
    if peer = s.cfg.peerId then selfLost s m.src
    else if s.domain.isKeeper then
      let s := declareLost s peer
      sendDom s peer mtLost [peer]
    else s) s

/-- ANNOUNCE_TIMER: the keeper announces every 10 ms (R347). -/
def execAnnounceTimer (s : State) : Host.Outcome State Fault Refusal :=
  .next (if s.domain.isKeeper ∧ ready s = true then sendAnnounce s else s)

/-- Peers with which the module shares an active job, and the keeper (R354). -/
def partners (s : State) : List Nat :=
  (((s.jobs.map Job.peers).flatten ++ (match s.domain.keeper with | some (k, _) => [k] | none => [])).eraseDups).filter
    (fun p => p != s.cfg.peerId && !(s.domain.lost.contains p))

/-- HEARTBEAT_TIMER: to each partner that has had no other message for 10 ms (R354). -/
def execHeartbeatTimer (s : State) : Host.Outcome State Fault Refusal :=
  .next (if ready s then
      (partners s).foldl (fun s p =>
        match s.domain.lastSent.find? (fun e => e.1 == p) with
        | some e => if s.time < e.2 + 10000000 then s else sendDom s p mtHeartbeat []
        | none => sendDom s p mtHeartbeat []) s
    else s)

/-- PEER_LOST: 50 ms have passed without a message from a peer (R354, R355). -/
def execPeerLost (peer : Nat) (s : State) : Host.Outcome State Fault Refusal :=
  .next (if ready s then declareLost (timeTo s (aget 0 s.domain.lastHeard peer + 50000000)) peer else s)

-- staged modes (R315 to R318) ---------------------------------------------------------------------------------------------------

/-- STAGE: a unit stores the mode and acknowledges; a request of another module is coordinated by the keeper (R315, R316,
R318). -/
def execStage (m : MsgHdr) (scope job epoch barrier : Nat) (items : List ModeItem) (peers : List Nat) (s : State) :
    Host.Outcome State Fault Refusal :=
  receive mtStage m (fun s =>
    let d := s.domain
    let fromKeeper := match d.keeper with | some (k, _) => k == m.src && !d.isKeeper | none => false
    if d.outside then s
    else if d.isKeeper then stageChange s scope job epoch barrier items ((peers ++ [m.src]).eraseDups.filter (fun p => p != s.cfg.peerId)) none
    else if fromKeeper then
      let i := changeId scope job epoch
      let cmd := match findChange s i with | some c => c.cmd | none => none
      let c : Change :=
        { id := i, scope := scope, job := job, epoch := epoch, barrier := barrier, items := items, peers := peers, cmd := cmd, remote := some m.src,
          t0 := s.time, unacked := [], acked := true, ackAt := s.time, holding := !d.locked, tApply := none, hops := 1 }
      sendDom (sendDom (receiveChange s c) m.src mtAck [i, 8]) m.src mtAck [i, 9]
    else s) s

/-- ACK: the coordinator learns that a unit has stored the mode; how many hops away its module lies shows in HOPS (R316,
R337). -/
def execAck (m : MsgHdr) (chg place : Nat) (s : State) : Host.Outcome State Fault Refusal :=
  receive mtAck m (fun s =>
    match findChange s chg with
    | none => s
    | some c =>
      let c := { c with unacked := c.unacked.filter (fun u => !(u == (m.src, place))), hops := max c.hops (9 - m.hops) }
      openChange (putChange s c) chg) s

/-- OPEN: held starts are released; the mode is applied at T_apply, or at once where that has passed (R318). -/
def execOpenMsg (m : MsgHdr) (chg tApply : Nat) (s : State) : Host.Outcome State Fault Refusal :=
  receive mtOpen m (fun s =>
    match findChange s chg with
    | none => s
    | some c =>
      if c.remote ≠ some m.src ∨ c.tApply ≠ none then s
      else
        let c := { c with tApply := some tApply, holding := false }
        if tApply ≤ s.time then applyChange (putChange s c) c else putChange s c) s

/-- DISCARD: the staged mode is dropped and held starts are released under the old mode (R317, R318). -/
def execDiscard (m : MsgHdr) (chg : Nat) (s : State) : Host.Outcome State Fault Refusal :=
  receive mtDiscard m (fun s =>
    match findChange s chg with
    | none => s
    | some c => if c.remote = some m.src then dropChange s c else s) s

end Sys2Proof.Machine
end

