-- ==== Sys2Proof/Machine/Errors.lean ====
section
/-! DEFINITION. Errors and containment: memory errors, fenced units and dies, the fatal state and its dump, unit tests (R241 to
R244, R321 to R324, R371, R446 to R449, R473 to R480), and their rows. -/

set_option cleanup.letToHave false

namespace Sys2Proof.Machine

-- units (R260, R269) ------------------------------------------------------------------------------------------------------

/-- A unit's identifier in the encoding of ENGINE; a pseudo-channel and a port by their own numbers (R260). The codes of a
basin tier and of a Hamir core are the model's (notes/assumptions/24). -/
def unitCode : HwUnit → Nat
  | .core k => k / 64 * 4096 + k % 64 / 16 * 1024 + k % 16 * 64
  | .root i => i / 8 * 4096 + i % 8 / 2 * 1024 + i % 2 * 64 + 24
  | .move i => i / 16 * 4096 + i % 16 / 4 * 1024 + i % 4 * 64 + 32
  | .basin i => i / 4 * 4096 + i % 4 * 1024
  | .pchan i => i
  | .port p => p
  | .hamir d t => d * 4096 + t * 64 + 48
  | .shared d => d * 4096
  | .d2d a _ => a * 4096
  | .wharf k => (8 + k) * 4096
  | .mgmt => 0xF000

/-- The die that holds a unit. -/
def unitDie : HwUnit → Nat
  | .core k => k / 64
  | .root i => i / 8
  | .move i => i / 16
  | .basin i => i / 4
  | .pchan i => i / 256
  | .port p => portDie p
  | .hamir d _ => d
  | .shared d => d
  | .d2d a _ => a
  | .wharf k => 8 + k
  | .mgmt => 0xF

/-- Is a unit in service (R323)? -/
def unitInService (s : State) (u : HwUnit) : Bool :=
  let d := getDie s (unitDie u)
  match u with
  | .core k => d.up && !(bit d.coreFence (k % 64))
  | .root i => d.up && !(bit d.rootFence (i % 8))
  | .move i => d.up && !(bit d.moveFence (i % 16))
  | .basin _ | .pchan _ => d.up
  | .port p => portUp (getPort s p)
  | .hamir _ t => d.up && !(bit d.hamirOff t)
  | _ => true

/-- Does a command stand on a unit? An update stands on every core of its cluster. -/
def onUnit (c : Cmd) (u : HwUnit) : Bool :=
  match c.place with
  | none => false
  | some p => match u with
    | .core k => p.die == k / 64 && (if p.kind = 1 then p.unit == k % 64 / 16 else (p.kind == 0 || p.kind == 2) && p.unit == k % 64)
    | .root i => p.die == i / 8 && p.kind == 3 && p.unit == i % 8
    | .move i => p.die == i / 16 && p.kind == 4 && p.unit == i % 16
    | _ => false

/-- Is a unit draining for a test or under one (R322)? -/
def underTest (s : State) (u : HwUnit) : Bool := s.testing.any (fun r => r.unit == u && decide (r.op ≤ 3))

-- the fatal state (R447, R449, R480) --------------------------------------------------------------------------------------

/-- The header of a die's part of the dump (R449): the fields that the manual fixes are written, and what describes and fills
its sections, whose contents it leaves to the implementation, is undefined. -/
def dumpPart (s : State) (d cause : Nat) : State :=
  let a := dumpBase s d
  let bs := ascii "TV8DUMP" ++ [0] ++ leBytes 2 1 ++ leBytes 1 d ++ [0] ++ leBytes 2 cause ++ leBytes 2 s.cfg.peerId ++ leBytes 8 s.time ++
    leBytes 4 s.trust.boots
  let s := wrPlain { s with mem := memZero s.mem a 64 } a bs
  { s with keys := setUndef (setUndef s.keys (a + 28) 20) (a + 64) 4032 }

/-- The dump region as the dump buffer receives it (R447, R448): every listed byte of every part. -/
def copyDump (s : State) (at_ : Nat) : State :=
  let host := memZero s.host at_ 0x100000000
  let v := viewMem s.mem (s.keys.filter (fun k => inPound s k.1 1)) deadKey
  { s with host := (List.range 8).foldl (fun h d =>
      if bit s.dump.parts d then
        (v.filter (fun c => inside c.1 1 (dumpBase s d) 0x20000000)).foldl (fun h c => memPut h (at_ + d * 0x20000000 + (c.1 - dumpBase s d)) c.2) h
      else h) host }

/-- The module stops on a fatal cause (R447, R480), and the management bus learns of it (R519). -/
def fatalStop (s : State) (cause : Nat) : State :=
  if s.power.phase = 0xF then s
  else
    let parts := (diesUp s).foldl (fun a d => a + 2 ^ d) 0
    let s := { s with cmds := s.cmds.filter (fun c => c.phase == .committed) }
    let s := (diesUp s).foldl (fun s d => dumpPart s d cause) s
    let s := { s with dump := { s.dump with cause := cause, parts := parts, time := s.time } }
    let s := match s.dump.buffer with
      | some b => if s.power.linkUp then copyDump s b.2 else s
      | none => s
    { s with power := { s.power with phase := 0xF, fatal := cause, ibi := s.power.ibi ++ [0xF] } }

-- fenced dies (R464, R475 to R477) -----------------------------------------------------------------------------------------

/-- Does a global address name the memory of a die? -/
def onDieMem (s : State) (d x n : Nat) : Bool :=
  let g := localise s (gaddrOf x)
  decide (g.tier < 3) && touchesDie d g.off n

/-- Does a job hold a resource on a die (R476)? -/
def holdsOn (s : State) (j : Job) (d : Nat) : Bool :=
  let at_ (a n : Nat) : Bool := touchesDie d a n
  s.locks.any (fun l => l.2.job == j.id && l.1 / 2048 == d) ||
  s.ctxs.any (fun x => x.job == j.id && x.ring / 16 == d) ||
  s.flights.any (fun f => f.2.job == j.id && (at_ f.1 64 || at_ f.2.basinBase f.2.basinSize || (f.2.hbmSize != 0 && at_ f.2.hbmBase f.2.hbmSize))) ||
  s.fsets.any (fun f => f.2.job == j.id && (at_ f.1 64 || [f.2.aBase, f.2.gBase, f.2.rootA, f.2.rootG].any (fun x => x != 0 && onDieMem s d x 1))) ||
  s.shards.any (fun h => h.2.job == j.id && (at_ h.1 128 || (shardRegions h.2).any (fun r => onDieMem s d r.1 r.2))) ||
  s.pools.any (fun p => p.2.job == j.id && (at_ p.1 64 || at_ p.2.base p.2.size)) ||
  s.objs.any (fun o => o.2.job == j.id && (at_ o.1 64 || onDieMem s d o.2.home.code o.2.size)) ||
  s.pfs.any (fun p => p.2.job == j.id && onDieMem s d p.1 64) ||
  j.memmap.any (fun r => onDieMem s d r.1 r.2) || onDieMem s d j.shapeTab (j.layers * 32768) || (j.layerN != 0 && onDieMem s d j.layerTab (16 * j.layerN)) ||
  s.loans.any (fun l => l.2.job == j.id && l.2.sess == j.sess && at_ l.2.base l.2.size)

/-- Signal sources of a wharf die whose targets lay on a fenced die (R464). -/
def moveTargets (s : State) (k : Nat) : State :=
  let c := getSic s (8 + k)
  let c := { c with targets := c.targets.map (fun (t : Nat × Target) => (t.1, { t.2 with stack := [] })) }
  let c := (c.sources.map Prod.fst).foldl (fun c i =>
    let x := c.src i
    if x.state = 2 then c.setSrc i { x with state := 0 }
    else if x.state = 3 then assign (c.setSrc i { x with state := 1, assigned := none }) i
    else c) c
  setSic s (8 + k) c

/-- Ring areas that lie in the memory of a fenced die become unusable (R267, R477). -/
def faultRings (s : State) (d : Nat) : State :=
  ((s.rings.filter (fun r => r.2.enable && (onDieMem s d r.2.base 1 || onDieMem s d r.2.reply 1))).map Prod.fst).foldl (fun s r => ringFault s r 0) s

/-- Tests of units that go out of service end: their requests complete BAD_PACKET (R323). -/
def dropTests (s : State) (p : HwUnit → Bool) : State :=
  let gone := (s.testing ++ s.testQ).filter (fun r => p r.unit)
  let s := { s with testing := s.testing.filter (fun r => !(p r.unit)), testQ := s.testQ.filter (fun r => !(p r.unit)) }
  gone.foldl (fun s r => match r.cmd with
    | some i => (match findCmd s i with | some c => endCmd s c stBad (badAt 24 0) | none => s)
    | none => s) s

/-- A die is fenced (R477); with no compute die left the cause is NO_DIE (R480). -/
def fenceDie (s : State) (d cause : Nat) : State :=
  let x := getDie s d
  if x.fenced then s
  else
    let s := setDie s d { x with up := false, fenced := true, cause := cause, draining := none, paused := false }
    let s := killAll s 1 (fun c => onDie c d)
    let js := (s.jobs.filter (fun j => holdsOn s j d)).map Job.id
    let s := js.foldl (fun s j => endJob (raise s 8 0x1F j 0xFFFF 0 1 d 0) j) s
    let s := { s with
      loans := s.loans.filter (fun l => !(dieOfAddr l.2.base == d)),
      remoteSt := s.remoteSt.filter (fun r => !(dieOfAddr r.addr == d)),
      poundQ := s.poundQ.filter (fun q => !(q.die == d)),
      mem := s.mem.filter (fun m => !(dieOfAddr m.1 == d)),
      keys := s.keys.filter (fun m => !(dieOfAddr m.1 == d)),
      poison := s.poison.filter (fun p => !(dieOfAddr p == d)) }
    let s := dropTests s (fun u => unitDie u == d)
    let s := faultRings s d
    let s := setSic s d { getSic s d with targets := (getSic s d).targets.map (fun (t : Nat × Target) => (t.1, { t.2 with stack := [] })) }
    let s := if d % 4 = 0 then moveTargets s (d / 4) else s
    let s := (let t := getTrace s d; if t.state = 1 ∨ t.state = 2 then setTrace s d (trStop t) else s)
    let s := raiseMod s 8 0x31 d cause 0
    if (diesUp s).isEmpty then fatalStop s 3 else s

/-- The cause under which a die must be fenced for want of units (R475). -/
def dieShort (s : State) (d : Nat) : Option Nat :=
  let x := getDie s d
  if 12 < ((List.range 16).filter (bit x.hamirOff)).length then some 7
  else if x.moveFence % 2 ^ 16 = 2 ^ 16 - 1 then some 8
  else none

/-- A unit is fenced (R473). -/
def fenceUnit (s : State) (u : HwUnit) (cause : Nat) : State :=
  let d := unitDie u
  let x := getDie s d
  if x.fenced ∨ unitInService s u = false then s
  else
    let s := match u with
      | .core k => setDie s d { x with coreFence := setBit x.coreFence (k % 64) true }
      | .root i => setDie s d { x with rootFence := setBit x.rootFence (i % 8) true }
      | .move i => setDie s d { x with moveFence := setBit x.moveFence (i % 16) true }
      | .hamir _ t =>
        let c := getSic s d
        setSic (setDie s d { x with hamirOff := setBit x.hamirOff t true }) d
          (wake (reassign (c.setTgt t { c.tgt t with enable := false })))
      | _ => s
    let s := killAll s 1 (fun c => onUnit c u)
    let s := dropTests s (fun v => v == u)
    let s := raiseMod s d 0x30 (unitCode u) cause 0
    match dieShort s d with
    | some k => fenceDie s d k
    | none => s

-- memory errors (R241 to R243) -------------------------------------------------------------------------------------------

/-- A die whose list of retired granules is full is fenced (R243). -/
def fenceFull (s : State) (d : Nat) : State := if 4096 ≤ (getMemRegs s d).retired.length then fenceDie s d 4 else s

def fenceFulls (s : State) : State := (List.range 8).foldl fenceFull s

/-- A 64 KiB granule is retired (R243); a die whose list is full is fenced. -/
def retire (s : State) (a : Nat) : State := fenceFull (markRetired s a) (dieOfAddr a)

/-- A corrected error (R241, R243): counted; the third in a granule within 24 hours retires it. -/
def correctedError (s : State) (a : Nat) : State :=
  let d := dieOfAddr a
  let g := a / 65536 * 65536
  let m := getMemRegs s d
  let near := m.ceLog.filter (fun e => e.1 == g && decide (s.time ≤ e.2 + 86400000000000))
  let m := { m with ceLog := m.ceLog.filter (fun (e : Nat × Nat) => decide (s.time ≤ e.2 + 86400000000000)) ++ [(g, s.time)] }
  let m := if isHbm a then { m with hbmCe := (m.hbmCe + 1) % 2 ^ 48 } else { m with bsnCe := (m.bsnCe + 1) % 2 ^ 48 }
  let s := fire (setMemRegs s d m) d 192
  if 2 ≤ near.length ∧ backed a = true ∧ a < coreBase then retire s a else s

/-- SCRUB_READ: a word is clean, corrected, or uncorrectable, which poisons its unit (R242). -/
def execScrubRead (addr : Nat) (finding : ScrubFinding) (s : State) : Host.Outcome State Fault Refusal :=
  .next (let d := dieOfAddr addr
    let on := bit (getMemRegs s d).scrub (if isHbm addr then 1 else 0)
    if !(ready s) || !(backed addr) || decide (coreBase ≤ addr) || !((getDie s d).up) || !on then s
    else match finding with
      | .clean => s
      | .corrected => correctedError (fire s d 194) addr
      | .uncorrectable =>
        let u := poisonUnit addr
        let s := { s with poison := if s.poison.contains u then s.poison else s.poison ++ [u] }
        retire (memError (fire s d 194) d 2 0xFFFF 0xFFFF 0 none (gLocal u).code) addr)

/-- UNIT_INTERNAL_ERROR (R473, R475, R480). -/
def execUnitInternalError (unit : HwUnit) (s : State) : Host.Outcome State Fault Refusal :=
  .next (match unit with
    | .core _ => fenceUnit s unit 1
    | .root _ | .move _ => fenceUnit s unit 2
    | .hamir _ _ => fenceUnit s unit 3
    | .basin i => fenceDie s (i / 4) 6
    | .shared d => fenceDie s d 6
    | .pchan i => fenceDie s (i / 256) 2
    | .d2d a b => if d2dPort a b = false then s else if 8 ≤ max a b then fenceDie s (min a b) 5 else fenceDie s (max a b) 5
    | .port _ | .wharf _ => fatalStop s 1
    | .mgmt => fatalStop s 2)

/-- FATAL_ERROR (R480). -/
def execFatalError (cause : Nat) (s : State) : Host.Outcome State Fault Refusal := .next (fatalStop s cause)

/-- HBM_INTERFACE_LOST: the stack's compute die is fenced with cause STACK (R475). -/
def execHbmInterfaceLost (stack : Nat) (s : State) : Host.Outcome State Fault Refusal := .next (fenceDie s (stack / 4) 2)

-- DIE_FENCE and DIE_UNFENCE (R478, R479) ------------------------------------------------------------------------------------

def fenceTarget (c : Cmd) : Nat := fld (c.pkt.slot 0) 0 3

/-- Does a command occupy a die? -/
def dieBusy (s : State) (d : Nat) : Bool := s.cmds.any (fun c => inUse c && onDie c d)

/-- Has a command of a die committed and not ended? Who asks for a kill waits for its end (R289). -/
def publishing (s : State) (d : Nat) : Bool := s.cmds.any (fun c => c.phase == .committed && onDie c d)

/-- The command of a class 0xF operation of this chapter commits. -/
def commitRow (s : State) (c : Cmd) : State := commitWith noEffect s { c with phase := .staged }

/-- Where DIE_FENCE and DIE_UNFENCE end without effect (R478, R479). -/
def fenceRefused (s : State) (d : Nat) : Bool := (getDie s d).fenced || diesUp s == [d]
def unfenceRefused (s : State) (d : Nat) : Bool := (getDie s d).up || (getDie s d).cause == 4
def fenceRun (s : State) (c : Cmd) : Out :=
  if (if c.pkt.op = 0x14 then fenceRefused s (fenceTarget c) else unfenceRefused s (fenceTarget c)) then .stop stBad (badAt 24 0) []
  else .done Stg.none

/-- DIE_FENCE: at once, or with DRAIN when the die is idle (R478); it commits when the commands that had committed on the die have ended
(R289). -/
def execDieFence (c : Nat) (s : State) : Host.Outcome State Fault Refusal :=
  .next (match findCmd s c with
    | none => s
    | some x =>
      if x.phase ≠ .running ∨ x.pkt.clsOp ≠ 0xF14 then s
      else
        let d := fenceTarget x
        let drain := bit (x.pkt.slot 0) 8
        let waits := x.aux == [1]
        if (getDie s d).fenced ∧ waits = true then (if publishing s d then s else commitRow s x)
        else if fenceRefused s d then endCmd s x stBad (badAt 24 0)
        else if drain ∧ dieBusy s d = true then
          putCmd (setDie s d { getDie s d with draining := some c }) { x with aux := [1] }
        else
          let s := fenceDie s d 1
          match findCmd s c with
          | some x => if publishing s d then putCmd s { x with aux := [1] } else commitRow s x
          | none => s)

/-- The bits of failed units of a die. -/
def failBits (failed : List HwUnit) (f : HwUnit → Option Nat) : Nat := (failed.filterMap f).eraseDups.foldl (fun a i => a + 2 ^ i) 0

/-- DIE_UNFENCE: the die's units are tested again, its fences cleared, and it returns if every test passes (R479). -/
def execDieUnfence (c : Nat) (failed : List HwUnit) (s : State) : Host.Outcome State Fault Refusal :=
  .next (match findCmd s c with
    | none => s
    | some x =>
      if x.phase ≠ .running ∨ x.pkt.clsOp ≠ 0xF15 then s
      else
        let d := fenceTarget x
        let o := getDie s d
        if unfenceRefused s d then endCmd s x stBad (badAt 24 0)
        else
          let bad := failed.filter (fun u => unitDie u == d)
          let cores := failBits bad (fun u => match u with | .core k => some (k % 64) | _ => none)
          let roots := failBits bad (fun u => match u with | .root i => some (i % 8) | _ => none)
          let moves := failBits bad (fun u => match u with | .move i => some (i % 16) | _ => none)
          let stack := bad.any (fun u => match u with | .pchan _ => true | _ => false)
          let basin := bad.any (fun u => match u with | .basin _ => true | _ => false)
          let cause := if stack then 2 else if basin then 3 else if moves = 2 ^ 16 - 1 then 8 else o.cause
          let ok := bad.isEmpty
          let s := setDie s d { Die.rest with
            up := ok, fenced := !ok, cause := cause, coreFence := cores, rootFence := roots, moveFence := moves, log := o.log }
          let s := setSic s d Sic.rest
          let s := setCnt s d CntBlock.rest
          let s := setTrace s d Trace.rest
          let s := setMemRegs s d { MemRegs.rest with retired := (getMemRegs s d).retired }
          let s := { s with roots := s.roots.filter (fun r => !(r.1 / 8 == d)), engines := s.engines.filter (fun e => !(e.1 / 65536 == d)) }
          let s := if ok then raiseMod s 8 0x32 d 0 0 else raiseMod s 8 0x31 d cause 0
          match findCmd s c with
          | some x => commitRow s x
          | none => s)

-- tests and calibration (R260, R321 to R324, R371) ---------------------------------------------------------------------------

/-- The unit that an immediate of class 0xE names (R260). -/
def testUnit (op imm : Nat) : Option HwUnit :=
  let die := fld imm 12 4; let cl := fld imm 10 2; let n := fld imm 6 4; let kind := fld imm 3 3
  if op = 5 then (if imm < 2048 then some (.pchan imm) else none)
  else if op = 6 then (if imm < 36 then some (.port imm) else none)
  else if 8 ≤ die ∨ 2 ^ 16 ≤ imm ∨ fld imm 0 3 ≠ 0 then none
  else if op = 1 then (if kind = 0 then some (.core (die * 64 + cl * 16 + n)) else none)
  else if op = 2 then (if kind = 3 ∧ n < 2 then some (.root (die * 8 + cl * 2 + n)) else none)
  else if op = 3 then (if kind = 4 ∧ n < 4 then some (.move (die * 16 + cl * 4 + n)) else none)
  else if op = 4 then (if kind = 0 ∧ n = 0 then some (.basin (die * 4 + cl)) else none)
  else none

/-- The operation that tests or calibrates a unit (R321). -/
def testOp : HwUnit → Option Nat
  | .core _ => some 1
  | .root _ => some 2
  | .move _ => some 3
  | .basin _ => some 4
  | .pchan _ => some 5
  | .port _ => some 6
  | _ => none

/-- The limit domain of a unit (R321, R323): cluster, die, stack or wharf die. -/
def testDomain : HwUnit → Nat
  | .core k => k / 16
  | .root i => i / 8
  | .move i => i / 16
  | .basin i => i / 4
  | .pchan i => i / 64
  | .port p => p / 18
  | _ => 0

def sameDomain (a b : TestReq) : Bool := a.op == b.op && testDomain a.unit == testDomain b.unit

/-- A test begins; a port leaves service and trains with its far end (R322, R371). -/
def beginTest (s : State) (r : TestReq) : State :=
  let s := { s with testing := s.testing ++ [r] }
  match r.unit with
  | .port p => setPort s p { getPort s p with state := 4 }
  | _ => s

/-- Queued requests start first in, first out, within each limit domain (R323). -/
def pumpTests (s : State) : State :=
  let q := s.testQ
  q.foldl (fun s r =>
    if s.testing.any (sameDomain r) || s.testing.any (fun x => x.unit == r.unit) || s.testQ.any (fun x => sameDomain x r) then
      { s with testQ := s.testQ ++ [r] }
    else beginTest s r) { s with testQ := [] }

/-- A request joins its limit domain. -/
def askTest (s : State) (r : TestReq) : State := pumpTests { s with testQ := s.testQ ++ [r] }

/-- Would a port's calibration leave a member without a route (R371)? -/
def lastRoute (s : State) (p : Nat) : Bool :=
  let serves (q k : Nat) : Bool := bit (routeMask s q) k && portUp (getPort s k)
  (otherMembers s).any (fun q => serves q p && !((List.range 36).any (fun k => k != p && serves q k)))

/-- A test has run (R323): TEST_RESULT, the command's DONE, and a unit that failed is fenced. -/
def endTest (s : State) (r : TestReq) (pass : Bool) : State :=
  let s := { s with testing := s.testing.filter (fun x => !(x == r)) }
  let d1 := r.op + (if pass then 0 else 256)
  let cmd := match r.cmd with | some i => findCmd s i | none => none
  let place := unitDie r.unit
  let s := match cmd with
    | some c => raiseFor s place 0x1A (!pass) (cmdSes c) c.pkt.job 0xFFFF c.pkt.seq (unitCode r.unit) d1 0
    | none => raiseFor s place 0x1A (!pass) none 0xFFFF 0xFFFF 0 (unitCode r.unit) d1 0
  let s := match cmd with | some c => commitRow s c | none => s
  let s := if pass then s
    else match r.unit with
      | .basin i => fenceDie s (i / 4) 3
      | .pchan i => fenceDie s (i / 256) 2
      | .port _ => s
      | u => fenceUnit s u 4
  pumpTests s

/-- Where a test names a unit that is not in service, or the last route's port (R321, R371). -/
def testRefused (s : State) (op imm : Nat) : Bool :=
  match testUnit op imm with
  | none => true
  | some u => !(unitInService s u) || (match u with | .port p => lastRoute s p | _ => false)
def testOut (s : State) (c : Cmd) : Out := if testRefused s c.pkt.op (c.pkt.slot 0) then .stop stBad (badAt 24 0) [] else .done Stg.none

/-- A command of class 0xE: its request is checked and queued (R321, R323, R371). -/
def testRun (op cid : Nat) (s : State) : State :=
  match findCmd s cid with
  | none => s
  | some c =>
    if c.phase ≠ .running ∨ c.pkt.clsOp ≠ 0xE00 + op ∨ (s.testing ++ s.testQ).any (fun r => r.cmd == some cid) = true then s
    else match testUnit op (c.pkt.slot 0) with
      | none => endCmd s c stBad (badAt 24 0)
      | some u =>
        if testRefused s op (c.pkt.slot 0) then endCmd s c stBad (badAt 24 0)
        else askTest s ⟨op, u, some cid⟩

def testUses (p : Packet) : Option (List Use) :=
  if 1 ≤ p.op ∧ p.op ≤ 4 then some [.imm 0xFFFF, .zero, .zero, .zero, .zero]
  else if p.op = 5 then some [.imm 0xFFF, .zero, .zero, .zero, .zero]
  else if p.op = 6 then some [.imm 0x3F, .zero, .zero, .zero, .zero]
  else none

def testRules (p : Packet) : List Flt := fltIf (testUnit p.op (p.slot 0)).isNone (fltSlot 0)

/-- TEST_CORE (R321). -/
def execTestCore (c : Nat) (s : State) : Host.Outcome State Fault Refusal := .next (testRun 1 c s)
/-- TEST_ROOT (R321). -/
def execTestRoot (c : Nat) (s : State) : Host.Outcome State Fault Refusal := .next (testRun 2 c s)
/-- TEST_MOVE (R321). -/
def execTestMove (c : Nat) (s : State) : Host.Outcome State Fault Refusal := .next (testRun 3 c s)
/-- TEST_BASIN (R321). -/
def execTestBasin (c : Nat) (s : State) : Host.Outcome State Fault Refusal := .next (testRun 4 c s)
/-- CAL_HBM (R321, R322). -/
def execCalHbm (c : Nat) (s : State) : Host.Outcome State Fault Refusal := .next (testRun 5 c s)
/-- CAL_PORT (R321, R371). -/
def execCalPort (c : Nat) (s : State) : Host.Outcome State Fault Refusal := .next (testRun 6 c s)

/-- TEST_RESULT: the test of a unit that has drained ends (R322, R323); a port returns on the pairs of the lanes that passed (R371). -/
def execTestResult (unit : HwUnit) (outcome : TestOutcome) (s : State) : Host.Outcome State Fault Refusal :=
  .next (match s.testing.find? (fun r => r.unit == unit) with
    | none => s
    | some r =>
      if decide (r.op ≤ 3) && s.cmds.any (fun c => inUse c && onUnit c unit) then s
      else match unit with
        | .port p => releaseAll (endTest (trained s p outcome.lanes (getPort s p).farPeer) r outcome.pass)
        | _ => endTest s r outcome.pass)

/-- TEST_ROTATION: Nushaond tests or calibrates a unit of its own accord (R324). -/
def execTestRotation (unit : HwUnit) (s : State) : Host.Outcome State Fault Refusal :=
  .next (match testOp unit with
    | none => s
    | some op =>
      if !(ready s) || !(unitInService s unit) || (match unit with | .port p => lastRoute s p | _ => false) then s
      else askTest s ⟨op, unit, none⟩)

/-- Slots of DIE_FENCE and DIE_UNFENCE (R478, R479). -/
def fenceUses (p : Packet) : Option (List Use) :=
  if p.op = 0x14 then some [.imm 0x107, .zero, .zero, .zero, .zero]
  else if p.op = 0x15 then some [.imm 7, .zero, .zero, .zero, .zero]
  else none

-- DUMP_BUFFER (R448) -----------------------------------------------------------------------------------------------------------

/-- Where a dump buffer is refused. -/
def dumpRefusal (s : State) (c : Cmd) : Option (Nat × Nat) :=
  let g := descAddr (c.pkt.slot 0)
  let mine := s.bufs.any (fun b => b.sess == c.sess && b.modWr && b.forRing.isNone && inside g.off 0x100000000 b.base (b.pages * 4096))
  if g.tier ≠ 5 ∨ mine = false then some (stBad, badAt 24 0)
  else match s.dump.buffer with
    | some b => if b.1 ≠ c.sess then some (stDenied, 0) else none
    | none => none

def dumpRun (s : State) (c : Cmd) : Out := match dumpRefusal s c with | some r => .stop r.1 r.2 [] | none => .done Stg.none

/-- DUMP_BUFFER: the buffer is registered; COPY copies a held dump now and RELEASE discards it. -/
def execDumpBuffer (c : Nat) (s : State) : Host.Outcome State Fault Refusal :=
  runOp 0xF1C dumpRun
    (fun s c =>
      let at_ := (descAddr (c.pkt.slot 0)).off
      let s := { s with dump := { s.dump with buffer := some (c.sess, at_) } }
      let s := if bit (c.pkt.slot 1) 0 ∧ s.dump.parts ≠ 0 then copyDump s at_ else s
      if bit (c.pkt.slot 1) 1 then { s with dump := { s.dump with cause := 0, parts := 0, time := 0 } } else s) c s

def dumpUses (p : Packet) : Option (List Use) := if p.op = 0x1C then some [.raw 1 true, .imm 3, .zero, .zero, .zero] else none

end Sys2Proof.Machine
end

