-- ==== Sys2Proof/Machine/Mailbox.lean ====
section
/-! DEFINITION. The mailbox: sessions, secrets and the vendor commands (R382 to R386, R406 to R421, R470), and their rows. -/

set_option cleanup.letToHave false

namespace Sys2Proof.Machine

-- return codes of CXL 3.1, which the manual names and does not number (notes/assumptions/26)
def rcOk : Nat := 0
def rcBackground : Nat := 1
def rcInvalid : Nat := 2
def rcBusy : Nat := 6

/-- A mailbox completion. -/
def reply (s : State) (rc : Nat) (out : List Byte) : State := { s with answers := s.answers ++ [.mailbox rc out] }

-- keys (R408, R412) ---------------------------------------------------------------------------------------------------------

/-- HKDF-Expand of a session's master secret (R412). -/
def sesKey (x : Session) (info : List Byte) (n : Nat) : List Byte := fitBytes n (Config.hkdf384 x.sms [] info n)

-- the end of a session (R411) -----------------------------------------------------------------------------------------------

/-- A ring of an ended session is disabled and unbound; the replies of what it has fetched are written first (R269, R394). -/
def dropRing (s : State) (r : Nat) : State :=
  let s := dropRingBufs (setRing s r { getRing s r with enable := false, active := false }) r
  if (getRing s r).inFlight = 0 then resetRing s r else setRing s r { getRing s r with unbinding := true }

/-- A session ends (R411): its jobs and commands end KILLED, its rings, buffers, apertures, maps and keys go. -/
def endSession (s : State) (i : Nat) : State :=
  let x := getSes s i
  let s := ((s.jobs.filter (fun j => j.sess == i)).map Job.id).foldl endJob s
  let s := endAll s stKilled 0 (fun c => c.sess == i)
  let s := ((List.range 128).filter (fun r => (getRing s r).bind == i)).foldl dropRing s
  let s := releaseBufs s (fun b => b.sess == i)
  let dead (k : Nat) : Bool := k / 65536 == x.serial + 1
  let s := { s with
    cxl := { s.cxl with apertures := s.cxl.apertures.filter (fun a => !(a.2.2 == i)), privBy := if s.cxl.privBy = some i then none else s.cxl.privBy },
    trust := { s.trust with dbgBy := if s.trust.dbgBy = some i then none else s.trust.dbgBy },
    tap := { s.tap with live := s.tap.live && s.trust.dbgBy != some i },
    dump := { s.dump with buffer := match s.dump.buffer with | some b => if b.1 = i then none else some b | none => none },
    links := s.links.filter (fun l => !(l.1.1 == i)),
    keys := s.keys.map (fun k => if dead k.2 then (k.1, deadKey) else k) }
  setSes s i Session.rest

-- opening a session (R406 to R410) ------------------------------------------------------------------------------------------

/-- The header of an opening command: SLOT 0xFFFF and zeros (R406). -/
def openHdr (input : List Byte) : Bool := fieldAt input 0 2 == 0xFFFF && zeroAt input 2 30 && decide (32 ≤ input.length)

def credFail (s : State) (id_ : List Byte) : CredFail := aget ⟨0, 0⟩ s.trust.creds id_

/-- A failed FINISH counts against the credential; after 8 in a row its STARTs are held, 60 s and doubling to 3,600 s (R410). -/
def countFail (s : State) (id_ : List Byte) : State :=
  let n := (credFail s id_).count + 1
  let hold := if n < 8 then 0 else min 3600 (60 * 2 ^ (n - 8)) * 1000000000
  { s with trust := { s.trust with creds := aput s.trust.creds id_ ⟨n, s.time + hold⟩ } }

def clearFail (s : State) (id_ : List Byte) : State := { s with trust := { s.trust with creds := aput s.trust.creds id_ ⟨0, 0⟩ } }

/-- The lowest free session slot, while at most 3 slots are reserved (R410). -/
def freeSlot (s : State) : Option Nat :=
  if 4 ≤ (s.sessions.filter (fun x => x.2.st == .reserved)).length then none
  else (List.range 64).find? (fun i => (getSes s i).st == .free)

/-- What a START finds (R406, R410): the return code that refuses it, or its credential and slot. -/
def startCheck (s : State) (input : List Byte) (pake : Bool) (len : Nat) : Except Nat (Credential × Nat) :=
  if openHdr input = false ∨ input.length ≠ 32 + len ∨ 1 < fieldAt input 48 4 then .error rcInvalid
  else if s.cfg.ideRequired ∧ s.cxl.ide = false then .error rcInvalid
  else
    let cid := (input.drop 32).take 16
    match s.cfg.credentials.find? (fun k => k.id == cid && k.pake == pake) with
    | none => .error rcInvalid
    | some k =>
      if 8 ≤ (credFail s cid).count ∧ s.time < (credFail s cid).until_ then .error rcBusy
      else match freeSlot s with
        | none => .error rcBusy
        | some i => .ok (k, i)

/-- A slot reserved by a START. -/
def reserve (s : State) (i : Nat) (k : Credential) (input : List Byte) (th sms expect : List Byte) : State :=
  setSes { s with nextSes := s.nextSes + 1, fresh := s.fresh + 1 } i
    { Session.rest with
      st := .reserved, pake := k.pake, cred := k.id, known := true, priv := k.priv, isSealed := bit (fieldAt input 48 4) 0, since := s.time,
      th := th, sms := sms, expect := expect, serial := s.nextSes }

/-- A mailbox command as it arrives: source 24 fires (R466), and before READY it answers Busy (R377, R382). Without the host
link none arrives. -/
def arrives (s : State) (act : State → State) : Host.Outcome State Fault Refusal :=
  .next (if s.power.linkUp = false then s else let s := fire s 8 24; if ready s then act s else reply s rcBusy [])

/-- SES_PSK_START (R406, R407). -/
def execSesPskStart (input : List Byte) (s : State) : Host.Outcome State Fault Refusal :=
  arrives s (fun s =>
    match startCheck s input false 52 with
    | .error rc => reply s rc []
    | .ok (k, i) =>
      let nc := (input.drop 52).take 32
      let nm := fitBytes 32 (Config.freeRandom s.fresh 32)
      let th := fitBytes 48 (Config.sha384 (input ++ leBytes 2 i ++ nm))
      let kc := Config.hkdf384 k.secret (nc ++ nm) (ascii "psk conf" ++ k.id) 48
      let sms := fitBytes 48 (Config.hkdf384 k.secret (nc ++ nm) (ascii "sms" ++ th) 48)
      let mm := fitBytes 48 (Config.hmac384 kc (ascii "M" ++ th))
      let mc := fitBytes 48 (Config.hmac384 kc (ascii "C" ++ th))
      reply (reserve s i k input th sms mc) rcOk (leBytes 2 i ++ nm ++ mm))

/-- SES_PAKE_START (R406, R407): the module is the SPAKE2+ verifier. -/
def execSesPakeStart (input : List Byte) (s : State) : Host.Outcome State Fault Refusal :=
  arrives s (fun s =>
    match startCheck s input true 85 with
    | .error rc => reply s rc []
    | .ok (k, i) =>
      let share := (input.drop 52).take 65
      let ids := k.id ++ ascii "WTV8-2048" ++ leBytes 2 s.cfg.peerId ++ ascii "Torvavo TV8 session"
      let r := Config.spake2 (k.secret ++ ids) (Config.freeRandom s.fresh 32) share
      let tt := fitBytes 48 r.2.2.2.1
      let sms := fitBytes 48 (Config.hkdf384 r.2.2.2.2 [] (ascii "sms" ++ tt) 48)
      reply (reserve s i k input tt sms (fitBytes 32 r.2.2.1)) rcOk (leBytes 2 i ++ fitBytes 65 r.1 ++ fitBytes 32 r.2.1))

/-- A FINISH (R408, R410): the session opens where its proof verifies; a failure frees the slot and counts. -/
def finish (s : State) (input : List Byte) (pake : Bool) (len : Nat) : State :=
  let i := fieldAt input 32 2
  let x := getSes s i
  if openHdr input = false ∨ input.length ≠ 34 + len ∨ 64 ≤ i ∨ x.st ≠ .reserved ∨ x.pake ≠ pake then reply s rcInvalid []
  else if (input.drop 34).take len = x.expect ∧ s.time < x.since + 10000000000 then
    let s := clearFail s x.cred
    let s := setCounts s i SlotCounts.rest
    let s := { s with sesQ := tset EventQ.rest s.sesQ i EventQ.rest }
    reply (setSes s i { x with st := .opened, ide := s.cxl.ide, counter := 0 }) rcOk []
  else reply (countFail (setSes s i Session.rest) x.cred) rcInvalid []

def execSesPskFinish (input : List Byte) (s : State) : Host.Outcome State Fault Refusal := arrives s (fun s => finish s input false 48)
def execSesPakeFinish (input : List Byte) (s : State) : Host.Outcome State Fault Refusal := arrives s (fun s => finish s input true 32)

/-- SESSION_SLOT_EXPIRY: a reserved slot whose FINISH has not verified within 10 s is freed (R410). -/
def execSessionSlotExpiry (slot : Nat) (s : State) : Host.Outcome State Fault Refusal :=
  .next (if (getSes s slot).st = .reserved then setSes (timeTo s ((getSes s slot).since + 10000000000)) slot Session.rest else s)

-- commands of a session (R409) ------------------------------------------------------------------------------------------------

/-- The session that a header authenticates (R409). -/
def authSes (s : State) (opcode : Nat) (input : List Byte) : Option Nat :=
  let i := fieldAt input 0 2
  let x := getSes s i
  let tag := (fitBytes 48 (Config.hmac384 (sesKey x (ascii "mbox") 48) (input.take 16 ++ leBytes 2 opcode ++ input.drop 32))).take 16
  if 32 ≤ input.length ∧ i < 64 ∧ x.st = .opened ∧ x.counter ≤ fieldAt input 4 8 ∧ (input.drop 16).take 16 = tag then some i else none

/-- A vendor command of a session: a header that fails returns Invalid Input and has no effect (R382, R409). -/
def withSes (opcode : Nat) (input : List Byte) (s : State) (act : Nat → List Byte → State → State) : Host.Outcome State Fault Refusal :=
  arrives s (fun s =>
    match authSes s opcode input with
    | none => reply s rcInvalid []
    | some i => act i (input.drop 32) (setSes s i { getSes s i with counter := fieldAt input 4 8 + 1 }))

/-- A command that a privileged session alone may give (R419). -/
def withPriv (opcode : Nat) (input : List Byte) (s : State) (act : Nat → List Byte → State → State) : Host.Outcome State Fault Refusal :=
  withSes opcode input s (fun i p s => if (getSes s i).priv then act i p s else reply s rcInvalid [])

/-- SES_CLOSE (R411). -/
def execSesClose (input : List Byte) (s : State) : Host.Outcome State Fault Refusal :=
  withSes 0xC004 input s (fun i _ s => reply (endSession s i) rcOk [])

/-- JOB_LINK: the link secret of a job, wrapped under K_wrap (R415, R416). -/
def execJobLink (input : List Byte) (s : State) : Host.Outcome State Fault Refusal :=
  withSes 0xC005 input s (fun i p s =>
    let job := fieldAt p 0 2
    if p.length ≠ 64 ∨ fieldAt p 2 2 ≠ 0 ∨ job = 0 ∨ s.links.any (fun l => l.1 == (i, job)) = true then reply s rcInvalid []
    else match Config.gcmOpen (sesKey (getSes s i) (ascii "wrap") 32) ((p.drop 4).take 12) (p.drop 16) with
      | none => reply s rcInvalid []
      | some secret => reply { s with links := s.links ++ [((i, job), fitBytes 32 secret)] } rcOk [])

/-- OWNER_ENROLL (R421). -/
def execOwnerEnroll (input : List Byte) (s : State) : Host.Outcome State Fault Refusal :=
  withPriv 0xC006 input s (fun _ p s =>
    if p.length ≠ 436 ∨ s.trust.owner.isSome = true then reply s rcInvalid []
    else reply { s with trust := { s.trust with
      owner := some (fitBytes 48 (Config.sha384 p)), ownerEp := (s.trust.ownerEp + 1) % 2 ^ 32, cfgFloor := 0 } } rcOk [])

/-- OWNER_RELEASE (R421). -/
def execOwnerRelease (input : List Byte) (s : State) : Host.Outcome State Fault Refusal :=
  withPriv 0xC007 input s (fun _ _ s =>
    reply { s with trust := { s.trust with owner := none, ownerEp := (s.trust.ownerEp + 1) % 2 ^ 32, cfgFloor := 0 } } rcOk [])

/-- A measurement register extended (R405). -/
def extendMr (s : State) (i : Nat) (d : List Byte) : State :=
  { s with trust := { s.trust with mrs := s.trust.mrs.set i (fitBytes 48 (Config.sha384 (s.trust.mrs.getD i [] ++ d))) } }

/-- DEBUG_UNLOCK (R405, R420): an unlock extends MR6 and sets DEBUG_UNLOCKED until the next power-up; the session that
unlocked may lock again. -/
def execDebugUnlock (input : List Byte) (s : State) : Host.Outcome State Fault Refusal :=
  withPriv 0xC008 input s (fun i p s =>
    if bit (fieldAt p 0 4) 0 then
      let s := extendMr s 6 (fitBytes 48 (Config.sha384 ((getSes s i).cred ++ leBytes 2 i)))
      reply { s with trust := { s.trust with dbgBy := some i, dbgSticky := true } } rcOk []
    else if s.trust.dbgBy = some i then
      reply { s with trust := { s.trust with dbgBy := none }, tap := { s.tap with live := false } } rcOk []
    else reply s rcOk [])

/-- ID_CERTS: the certificate chain, with no session (R397, R406). -/
def execIdCerts (input : List Byte) (s : State) : Host.Outcome State Fault Refusal :=
  arrives s (fun s =>
    let o := fieldAt input 32 4; let n := fieldAt input 36 4
    if input.length ≠ 40 ∨ 4000 < n then reply s rcInvalid [] else reply s rcOk ((Config.certChain.drop o).take n))

/-- SES_EXPORT: purpose 1 is the public key of RK, for a privileged session (R411). -/
def execSesExport (input : List Byte) (s : State) : Host.Outcome State Fault Refusal :=
  withSes 0xC00A input s (fun i p s =>
    if p.length = 4 ∧ fieldAt p 0 4 = 1 ∧ (getSes s i).priv = true then reply s rcOk (fitBytes 388 Config.rkPub) else reply s rcInvalid [])

/-- RING_BIND (R382, R383). -/
def execRingBind (input : List Byte) (s : State) : Host.Outcome State Fault Refusal :=
  withSes 0xC010 input s (fun i p s =>
    let r := fieldAt p 0 2
    let x := getRing s r
    if p.length ≠ 4 ∨ 1 < fieldAt p 2 2 ∨ 128 ≤ r ∨ x.bind ≠ 0xFFFF ∨ x.enable = true then reply s rcInvalid []
    else reply (setRing s r { Ring.rest with enables := x.enables, bind := i, msix := bit (fieldAt p 2 2) 0 }) rcOk [])

/-- Is a RING_UNBIND under way in the background? The mailbox runs one such command at a time (R382; notes/assumptions/26). -/
def unbindBusy (s : State) : Bool :=
  (List.range 128).any (fun r => (getRing s r).unbinding && decide ((getRing s r).bind < 64) && (getSes s (getRing s r).bind).st == .opened)

/-- RING_UNBIND: a background command that completes when nothing is in flight (R379, R383). -/
def execRingUnbind (input : List Byte) (s : State) : Host.Outcome State Fault Refusal :=
  withSes 0xC011 input s (fun i p s =>
    let r := fieldAt p 0 2
    if p.length ≠ 4 ∨ fieldAt p 2 2 ≠ 0 ∨ 128 ≤ r ∨ (getRing s r).bind ≠ i then reply s rcInvalid []
    else if unbindBusy s then reply s rcBusy []
    else
      let s := dropRingBufs (setRing s r { getRing s r with enable := false, active := false, unbinding := true }) r
      endUnbind (reply s rcBackground []) r)

/-- Local addresses of an aperture of the window (R385, R386). -/
def apertureBase (s : State) (a : Nat) : Nat := s.cfg.hdmBase + a * 0x40000000

/-- HDM_BIND (R386). -/
def execHdmBind (input : List Byte) (s : State) : Host.Outcome State Fault Refusal :=
  withSes 0xC012 input s (fun i p s =>
    let first := fieldAt p 0 2; let n := fieldAt p 2 2; let job := fieldAt p 4 2
    let own := match findJob s job with | some j => j.sess == i | none => false
    let as_ := (List.range n).map (· + first)
    if p.length ≠ 6 ∨ n = 0 ∨ own = false ∨ s.cfg.hdmSizeGib < first + n ∨
        as_.any (fun a => s.cxl.apertures.any (fun b => b.1 == a) || inPound s (apertureBase s a) 0x40000000) = true then reply s rcInvalid []
    else reply { s with cxl := { s.cxl with apertures := s.cxl.apertures ++ as_.map (fun a => (a, (job, i))) } } rcOk [])

/-- HDM_UNBIND: apertures of the session are released (R386). -/
def execHdmUnbind (input : List Byte) (s : State) : Host.Outcome State Fault Refusal :=
  withSes 0xC013 input s (fun i p s =>
    let first := fieldAt p 0 2; let n := fieldAt p 2 2
    let in_ (a : Nat × Nat × Nat) : Bool := decide (first ≤ a.1) && decide (a.1 < first + n)
    if p.length ≠ 4 ∨ (List.range n).all (fun k => s.cxl.apertures.any (fun a => a.1 == first + k && a.2.2 == i)) = false then reply s rcInvalid []
    else reply { s with cxl := { s.cxl with apertures := s.cxl.apertures.filter (fun a => !(in_ a)) } } rcOk [])

/-- PRIV_MAP (R384). -/
def execPrivMap (input : List Byte) (s : State) : Host.Outcome State Fault Refusal :=
  withSes 0xC014 input s (fun i p s =>
    if bit (fieldAt p 0 4) 0 then
      if (getSes s i).priv = false then reply s rcInvalid []
      else match s.cxl.privBy with
        | some k => if k = i then reply s rcOk [] else reply s rcBusy []
        | none => reply { s with cxl := { s.cxl with privBy := some i } } rcOk []
    else reply (if s.cxl.privBy = some i then { s with cxl := { s.cxl with privBy := none } } else s) rcOk [])

/-- The 32 bytes of an event record (R467). -/
def Event.bytes (e : Event) : List Byte :=
  leBytes 8 e.time ++ leBytes 1 e.code ++ leBytes 1 e.cls ++ leBytes 2 e.place ++ leBytes 2 e.job ++ leBytes 2 e.layer ++ leBytes 4 e.seq ++
  leBytes 4 e.d0 ++ leBytes 4 e.d1 ++ leBytes 4 e.d2

/-- The oldest records of a queue, and the queue after them (R470). -/
def readQueue (q : EventQ) (n : Nat) : List Byte × EventQ :=
  let rs := q.recs.take n
  (leBytes 2 rs.length ++ zeros 2 ++ leBytes 4 (min q.lost satMax) ++ (rs.map Event.bytes).flatten, { recs := q.recs.drop n, lost := 0 })

/-- EVENT_READ (R470). -/
def execEventRead (input : List Byte) (s : State) : Host.Outcome State Fault Refusal :=
  withSes 0xC015 input s (fun i p s =>
    let n := fieldAt p 0 2; let f := fieldAt p 2 2
    if p.length ≠ 4 ∨ n = 0 ∨ 120 < n ∨ 1 < f ∨ (f = 1 ∧ (getSes s i).priv = false) then reply s rcInvalid []
    else if f = 1 then
      let r := readQueue s.modQ n
      reply { s with modQ := r.2 } rcOk r.1
    else
      let r := readQueue (tget EventQ.rest s.sesQ i) n
      reply { s with sesQ := tset EventQ.rest s.sesQ i r.2 } rcOk r.1)

end Sys2Proof.Machine
end

