-- ==== Sys2Proof/Machine/Startup.lean ====
section
/-! DEFINITION. Power, reset, start-up and the management bus (R377, R398 to R405, R492 to R519), and their rows. -/

set_option cleanup.letToHave false

namespace Sys2Proof.Machine

-- phases (R508, R513, R519) -------------------------------------------------------------------------------------------------

/-- A change of PHASE; the controller raises an in-band interrupt with the new PHASE. -/
def setPhase (s : State) (p : Nat) : State :=
  if s.power.phase = p then s else { s with power := { s.power with phase := p, ibi := s.power.ibi ++ [p] } }

/-- FAULT_N is asserted (R513). -/
def faultN (s : State) : Bool := s.power.phase == 0xD || s.power.phase == 0xE || s.power.phase == 0xF

/-- Start-up stops (R398, R404). -/
def bootFail (s : State) (phase detail : Nat) : State :=
  let s := setPhase s phase
  { s with power := { s.power with failDetail := detail } }

-- reset (R422, R502, R503) --------------------------------------------------------------------------------------------------

/-- What the protected flash sector keeps (R422), and the volatile part as at power-up. `up` counts a power-up. Device time
begins again at 0, and what was left of a credential's hold at `now` goes on (R410). -/
def Trust.reboot (t : Trust) (up : Bool) (now : Nat) : Trust :=
  { Trust.rest with
    owner := t.owner, ownerNow := t.owner, ownerEp := t.ownerEp, cfgFloor := t.cfgFloor, floors := t.floors, raises := t.raises,
    boots := t.boots + b2n up, slotOrder := t.slotOrder, creds := t.creds.map (fun k => (k.1, { k.2 with until_ := k.2.until_ - now })) }

/-- Is a byte one of a part of the dump region? -/
def inDump (s : State) (a : Nat) : Bool := (List.range 8).any (fun d => inside a 1 (dumpBase s d) 0x20000000)

/-- The module as at power good or after a module reset (R502, R503): the protected sector, the retired lists, what the host
and the pins hold, and the record of what was sent stay. `kept`: HBM stayed powered, so that the dump parts survive and
every other HBM byte is unreadable. -/
def freshBoot (s : State) (kept up : Bool) : State :=
  let hbm := s.mem.filter (fun c => isHbm c.1)
  let o := State.reset
  { o with
    pending := s.pending, host := s.host, fresh := s.fresh, nextSes := s.nextSes, nextId := s.nextId, answers := s.answers, sent := s.sent, msix := s.msix,
    mem := if kept then hbm else [],
    keys := if kept then hbm.map (fun c => (c.1, if inDump s c.1 then tget 2 s.keys c.1 else deadKey)) else [],
    poison := if kept then s.poison.filter (fun p => isHbm p) else [],
    memRegs := s.memRegs.map (fun m => (m.1, { MemRegs.rest with retired := m.2.retired })),
    dump := if kept then { s.dump with buffer := none } else Dump.rest,
    trust := s.trust.reboot up s.time,
    power := { Power.rest with
      pwrEn := s.power.pwrEn, inRange := s.power.inRange, resetN := s.power.resetN, ibi := s.power.ibi ++ (if s.power.phase = 0 then [] else [0]),
      keeperStrap := s.power.keeperStrap, addrStrap := s.power.addrStrap, keeperNow := s.power.keeperNow, addrNow := s.power.addrNow,
      pins := s.power.pins, shiftIn := s.power.shiftIn },
    tap := s.tap }

/-- The straps are sampled: at power good, at a module reset and as MOD_RESET_N rises (R515, R529). -/
def sampleStraps (s : State) : State :=
  { s with power := { s.power with keeperStrap := s.power.keeperNow, addrStrap := s.power.addrNow } }

/-- Rails off: the volatile state is lost (R489, R507). -/
def railsOff (s : State) (phase : Nat) : State :=
  let t := freshBoot s false false
  { t with power := { t.power with off := true, pwrOk := false, phase := phase }, tap := if phase = 9 then s.tap else Tap.rest }

-- READY (R404, R504) ----------------------------------------------------------------------------------------------------------

/-- A floor rises, if the sector still allows it (R404, R422). Index 4 is the configuration floor. -/
def raiseFloorTo (s : State) (i v : Nat) : State :=
  let cur := if i = 4 then s.trust.cfgFloor else s.trust.floors.getD i 0
  if v ≤ cur then s
  else if 65536 ≤ s.trust.raises.getD i 0 then raiseMod s 0xF 0x35 i 0 0
  else
    let t := { s.trust with raises := s.trust.raises.set i (s.trust.raises.getD i 0 + 1) }
    { s with trust := if i = 4 then { t with cfgFloor := v } else { t with floors := t.floors.set i v } }

/-- Step 12 of start-up: READY (R504). -/
def becomeReady (s : State) : State :=
  let s := setPhase s 7
  let s := { s with power := { s.power with p1 := wantP1 s }, cxl := { s.cxl with memActive := s.power.linkUp } }
  let me := s.cfg.peerId
  let strap := s.power.keeperStrap
  let keeper := if s.cfg.peer0Mode then some (0, 0) else if strap then some (me, 0) else none
  let own := if s.cfg.peer0Mode then me == 0 else strap
  let s := { s with domain := { s.domain with keeper := keeper, isKeeper := own, members := if own then tput s.domain.members me 1 else s.domain.members } }
  let s := s.trust.rfPending.foldl (fun s r => raiseFloorTo s r.1 r.2) s
  let s := raiseFloorTo s 4 s.trust.cfgSeq
  let s := ((List.range 36).filter (fun p => portUp (getPort s p) && (getPort s p).farValid)).foldl (fun s p => sendDom s (getPort s p).farPeer mtHello [p]) s
  let evs := s.power.bootEvents
  let s := { s with power := { s.power with bootEvents := [] } }
  let s := evs.foldl (fun s e => deliver s e none) s
  if s.dump.parts ≠ 0 then raiseMod s 0xF 0x34 s.dump.parts s.dump.cause 0 else s

/-- Steps 10 and 11 done (R504). -/
def tryReady (s : State) : State :=
  if s.power.phase = 6 ∧ s.power.initDone = true ∧ s.power.towDone = true then becomeReady s else s

-- signed objects (R401, R402) ----------------------------------------------------------------------------------------------

/-- Is the signer allowed for a kind (R402)? -/
def signerAllowed (s : State) (o : SignedObj) : Bool :=
  if o.kind ≤ 1 then o.signer == Config.firmwareKey
  else match s.trust.ownerNow with | some k => o.signer == k | none => o.signer == Config.factoryKey

/-- Is a signed object accepted (R401)? -/
def objAccepted (s : State) (o : SignedObj) : Bool :=
  o.wellFormed && decide (o.kind ≤ 2) && o.hashOk && o.signerOk && signerAllowed s o && o.rsaOk && o.slhOk &&
  decide (s.trust.floors.getD o.kind 0 ≤ o.svn) && (o.kind != 2 || decide (s.trust.cfgFloor ≤ o.sequence))

/-- An object that booted: its measurement, its SVN, and the floor that it asks to raise (R404, R405). -/
def booted (s : State) (mr : Nat) (o : SignedObj) : State :=
  let s := extendMr s mr o.hash
  { s with trust := { s.trust with
      svns := s.trust.svns.set o.kind o.svn,
      rfPending := if o.raiseFloor then s.trust.rfPending ++ [(o.kind, o.svn)] else s.trust.rfPending } }

/-- Is start-up held at step 1 (R503, R519, R524)? A boundary instruction that drives pins holds it. -/
def stepOneHeld (s : State) : Bool := !s.power.resetN || s.power.awaitEn || s.tap.ir ∈ [0x00, 0x03, 0x04, 0x05, 0x06]

/-- Are the rails on? -/
def powered (s : State) : Bool := !s.power.off

-- rows: start-up -----------------------------------------------------------------------------------------------------------

/-- CONFIG_VERIFIED: steps 1 to 3 of R404 end: the first object of each kind that its slots hold and that verifies, or none. A record whose
pound sizes R235 does not allow is none that verifies (notes/assumptions/129). -/
def execConfigVerified (fw : Option SignedObj) (rec : Option ConfigRecord) (s : State) : Host.Outcome State Fault Refusal :=
  .next (if !(powered s) || s.power.phase != 0 || stepOneHeld s then s
    else
      let s := extendMr s 0 Config.romHash
      match fw with
      | none => bootFail s 0xD 0
      | some f =>
        if objAccepted s f = false ∨ f.kind ≠ 0 then bootFail s 0xD 0
        else
          let s := booted s 1 f
          match rec with
          | none => bootFail s 0xD 2
          | some r =>
            if objAccepted s r.obj = false ∨ r.obj.kind ≠ 2 ∨ r.rkHashOk = false ∨ r.poundsOk = false then bootFail s 0xD 2
            else
              let s := booted s 3 r.obj
              let s := extendMr s 4 (s.trust.ownerNow.getD (zeros 48))
              let s := { s with
                cfg := r,
                trust := { s.trust with cfgSeq := r.obj.sequence },
                domain := { s.domain with peer0Mode := r.peer0Mode, successors := r.successors.take 8, routes := r.routes },
                ports := (List.range 36).foldl (fun t p =>
                  if r.ports.contains p then t else tset Port.rest t p { tget Port.rest t p with ctrl := 2 }) s.ports,
                power := { s.power with fwOk := true, cfgDone := true } }
              setPhase s 1)

/-- IMAGE_VERIFIED (R404, R504). -/
def execImageVerified (img : Option SignedObj) (s : State) : Host.Outcome State Fault Refusal :=
  .next (if !(powered s) || s.power.phase != 1 then s
    else match img with
      | none => bootFail s 0xD 1
      | some o =>
        if objAccepted s o = false ∨ o.kind ≠ 1 then bootFail s 0xD 1
        else
          let s := booted s 2 o
          setPhase { s with trust := { s.trust with imgLevel := o.level }, power := { s.power with imgDone := true } } 2)

/-- DIES_RELEASED: identity keys, released dies, and the training of every enabled port (R396, R398, R504). -/
def execDiesReleased (puf0 puf1 : Bool) (s : State) : Host.Outcome State Fault Refusal :=
  .next (if !(powered s) || s.power.phase != 2 then s
    else
      let s := { s with trust := { s.trust with rsaOk := puf0, slhOk := puf1 } }
      if !(puf0 && puf1) then bootFail s 0xE (if puf0 then 1 else 0)
      else
        let s := { s with power := { s.power with released := true } }
        let s := (List.range 8).foldl (fun s d => setDie s d { Die.rest with up := true }) s
        let s := setPhase (((List.range 36).filter (fun p => bit (getPort s p).ctrl 0)).foldl trainPort s) 3
        fenceFulls s)

/-- HBM_TRAINING_DONE: a stack that fails fences its die (R475, R504, R505); the unit tests begin. -/
def execHbmTrainingDone (failedStacks : List Nat) (s : State) : Host.Outcome State Fault Refusal :=
  .next (if !(powered s) || !(s.power.phase == 3 || s.power.phase == 4) then s
    else
      let s := setPhase s 4
      let s := failedStacks.foldl (fun s k => fenceDie s (k / 4) 2) s
      if s.power.phase = 0xF then s else setPhase { s with power := { s.power with hbmDone := true } } 5)

/-- SELF_TEST_DONE: units that fail are fenced, and their dies where R475 says so (R504, R505). -/
def execSelfTestDone (failed : List HwUnit) (s : State) : Host.Outcome State Fault Refusal :=
  .next (if !(powered s) || s.power.phase != 5 then s
    else
      let s := failed.foldl (fun s u => match u with | .basin i => fenceDie s (i / 4) 3 | u => fenceUnit s u 4) s
      if s.power.phase = 0xF then s else setPhase { s with power := { s.power with testDone := true } } 6)

/-- INITIALISATION_DONE: basins and core stores hold zeros (R504). -/
def execInitialisationDone (s : State) : Host.Outcome State Fault Refusal :=
  .next (if !(powered s) || s.power.phase != 6 then s
    else tryReady { s with mem := s.mem.filter (fun c => isHbm c.1), power := { s.power with initDone := true } })

/-- TOWPATH_RESOLVED: ports that are not up stay down (R504, R505). -/
def execTowpathResolved (s : State) : Host.Outcome State Fault Refusal :=
  .next (if !(powered s) || decide (s.power.phase < 3) || decide (6 < s.power.phase) then s
    else
      let s := ((List.range 36).filter (fun p => (getPort s p).state == 1)).foldl (fun s p => setPort s p { getPort s p with state := 0 }) s
      tryReady { s with power := { s.power with towDone := true } })

/-- PORT_TRAINING_DONE: the port comes up, at 4 lanes or at 2, or stays down (R332, R371). -/
def execPortTrainingDone (port lanes farPeer : Nat) (s : State) : Host.Outcome State Fault Refusal :=
  .next (let x := getPort s port
    if x.state ≠ 1 ∧ x.state ≠ 4 then s
    else
      let s := trained s port lanes farPeer
      let up := portUp (getPort s port)
      let s := match s.testing.find? (fun r => r.unit == .port port) with
        | some r => endTest s r up
        | none => s
      let s := if ready s && up then releaseAll (sendDom s farPeer mtHello [port]) else s
      if 3 ≤ s.power.phase ∧ s.power.phase ≤ 6 ∧
          ((List.range 36).all (fun p => !(bit (getPort s p).ctrl 0) || portUp (getPort s p))) = true then
        tryReady { s with power := { s.power with towDone := true } }
      else s)

-- rows: power and reset ------------------------------------------------------------------------------------------------------

/-- Shutdown's step 3 (R507): commands, sessions and the host link end. -/
def shutDown (s : State) : State :=
  let s := endAll s stKilled 0 (fun _ => true)
  let s := ((List.range 64).filter (fun i => (getSes s i).st == .opened)).foldl endSession s
  { s with power := { s.power with linkUp := false }, cxl := { Cxl.rest with apertures := [] } }

/-- PWR_EN deasserted, or the standby request (R507, R510). -/
def beginShutdown (s : State) : State :=
  if s.power.off then { s with power := { s.power with ramping := false } }
  else if s.power.phase = 7 then
    let s := setPhase s 8
    { s with power := { s.power with shutAt := some s.time } }
  else if s.power.phase = 8 ∨ s.power.phase = 9 then s
  else if s.power.phase < 7 then
    let s := setPhase s 8
    { shutDown s with power := { (shutDown s).power with shutAt := none } }
  else
    let s := setPhase s 8
    { s with power := { s.power with shutAt := none } }

/-- PWR_EN_ASSERT: the hot-swap controller ramps while the input is in range (R493, R507). -/
def execPwrEnAssert (s : State) : Host.Outcome State Fault Refusal :=
  .next (let p := { s.power with pwrEn := true, awaitEn := false, stayed := false }
    { s with power := if p.off ∧ p.inRange = true then { p with ramping := true } else p })

/-- POWER_GOOD: every rail is in regulation; start-up begins (R493, R504). -/
def execPowerGood (s : State) : Host.Outcome State Fault Refusal :=
  .next (if s.power.off ∧ s.power.ramping = true then sampleStraps (freshBoot s false true) else s)

/-- PWR_EN_DEASSERT (R507, R510). -/
def execPwrEnDeassert (s : State) : Host.Outcome State Fault Refusal :=
  .next (beginShutdown { s with power := { s.power with pwrEn := false } })

/-- SHUTDOWN_TIMEOUT: 10 ms after the trigger (R507). -/
def execShutdownTimeout (s : State) : Host.Outcome State Fault Refusal :=
  .next (if s.power.phase = 8 then
      match s.power.shutAt with
      | some t => (let s := shutDown (timeTo s (t + 10000000)); { s with power := { s.power with shutAt := none } })
      | none => s
    else s)

/-- STANDBY_ENTERED: rails are switched off; HBM and a held dump are lost (R507). -/
def execStandbyEntered (s : State) : Host.Outcome State Fault Refusal :=
  .next (if s.power.phase = 8 then
      let s := if s.power.shutAt.isSome then shutDown s else s
      let t := railsOff s 9
      { t with power := { t.power with ibi := s.power.ibi ++ [9], stayed := true } }
    else s)

/-- INPUT_LOSS: input power is lost or the hot-swap controller opens; the module is OFF (R489, R494). -/
def execInputLoss (s : State) : Host.Outcome State Fault Refusal :=
  .next (let t := railsOff s 0
    { t with power := { t.power with inRange := false, ibi := s.power.ibi, i3cAddr := none } })

/-- HOT_SWAP_RETRY: the input has stayed in range for 100 ms (R493); a module that rests in STANDBY has no ramp to try again. -/
def execHotSwapRetry (s : State) : Host.Outcome State Fault Refusal :=
  .next (if s.power.off ∧ s.power.pwrEn = true ∧ s.power.ramping = false ∧ s.power.stayed = false then
      { s with power := { s.power with inRange := true, ramping := true } }
    else s)

/-- A module reset in STANDBY, with PWR_EN asserted, begins the hot-swap ramp again (notes/assumptions/136). -/
def leaveStandby (s : State) : State :=
  if s.power.phase = 9 ∧ s.power.pwrEn = true then { s with power := { s.power with stayed := false, ramping := s.power.inRange } } else s

/-- MOD_RESET_N: low resets the module and holds it at step 1; its rise samples the straps and lets start-up run (R503, R510,
R515). In STANDBY its fall begins the hot-swap ramp as MODULE_RESET does (notes/assumptions/136). -/
def execModResetN (level : Bool) (s : State) : Host.Outcome State Fault Refusal :=
  .next (let s' := { s with power := { s.power with resetN := level } }
    if s.power.resetN = level then s'
    else if s.power.off then
      (if s.power.phase ≠ 9 then s'
      else if level then sampleStraps s'
      else leaveStandby s')
    else if level then sampleStraps (freshBoot s' true false) else freshBoot s' true false)

/-- MODULE_RESET: the I3C reset request; with MOD_RESET_N low it has no further effect (R519, R529). With PWR_EN deasserted start-up waits for
its assertion; in STANDBY the hot-swap ramp begins again (notes/assumptions/136). -/
def execModuleReset (s : State) : Host.Outcome State Fault Refusal :=
  .next (if s.power.resetN = false then s
    else if s.power.off then leaveStandby s
    else
      let t := sampleStraps (freshBoot s true false)
      { t with power := { t.power with awaitEn := !s.power.pwrEn } })

/-- STANDBY: the I3C standby request (R507, R519). -/
def execStandby (s : State) : Host.Outcome State Fault Refusal := .next (if s.power.off then s else beginShutdown s)

-- holds (R494 to R498) ----------------------------------------------------------------------------------------------------------

/-- A hold is set: it counts, and the controller raises an in-band interrupt (R509, R519). -/
def setHold (s : State) (thermal : Bool) : State :=
  let p := s.power
  let was := if thermal then p.autoTherm else p.autoPower
  let en := bit p.ctrl (b2n thermal)
  if was ∨ en = false then s
  else
    let sh := if thermal then 16 else 0
    let n := min (fld p.holdCnt sh 16 + 1) 0xFFFF
    let p := { p with holdCnt := setFld p.holdCnt sh 16 n, ibi := p.ibi ++ [p.phase] }
    autoChange { s with power := if thermal then { p with autoTherm := true } else { p with autoPower := true } }

def clearHold (s : State) (thermal : Bool) : State :=
  autoChange { s with power := if thermal then { s.power with autoTherm := false } else { s.power with autoPower := false } }

/-- INPUT_SAMPLE: measurements, which go on in STANDBY, warnings, the power hold and input faults (R494, R497, R507, R509). -/
def execInputSample (m : InputMeas) (s : State) : Host.Outcome State Fault Refusal :=
  .next (let inside_ := decide (38000 ≤ m.mV) && decide (m.mV ≤ 54000)
    let measured := { s.power with
      volt := m.mV % 65536, curr := m.cA % 65536, powr := m.avg1ms % 65536 + m.avg1s % 65536 * 65536, peak := max s.power.peak (min m.avg100us 65535),
      inRange := inside_ }
    if s.power.off then
      { s with power :=
          if s.power.phase = 9 then { measured with ramping := s.power.ramping && inside_ }
          else { s.power with inRange := inside_, ramping := s.power.ramping && inside_ } }
    else
      let s := { s with power := measured }
      if m.mV < 33000 ∨ 58000 < m.mV ∨ 25000 < m.cA ∨ 10000000 < m.overNs then
        (let t := railsOff s 0; { t with power := { t.power with ibi := s.power.ibi, i3cAddr := none } })
      else if ((m.mV < 36000 ∨ 56000 < m.mV) ∧ 200000 < m.bandNs) ∨ m.regFault = true then fatalStop s 4
      else if (!inside_ && decide (1000000 < m.bandNs)) || decide (6400 < m.avg10ms) || decide (7000 < m.avg100us) then setHold s false
      else if s.power.autoPower ∧ m.avg1s < 5800 ∧ inside_ = true ∧ 1000000000 ≤ m.bandNs then clearHold s false
      else s)

/-- TEMPERATURE_SAMPLE: a die's hottest junction sensor or an HBM stack (R497, R498, R509). `coolSince`: for how many ns every
sensor and stack has been below the clearing limits. In STANDBY the registers go on reporting (R507). -/
def execTemperatureSample (sensor : Nat) (hbm : Bool) (tenths : Int) (coolSince : Nat) (s : State) : Host.Outcome State Fault Refusal :=
  .next (if s.power.off ∧ s.power.phase ≠ 9 then s
    else
      let c := codeOf 16 tenths
      let s := { s with power :=
        if hbm then { s.power with tempStack := s.power.tempStack.set sensor c } else { s.power with tempDie := s.power.tempDie.set sensor c } }
      if s.power.off then s
      else if (hbm = false ∧ 1100 ≤ tenths) ∨ (hbm = true ∧ 1000 ≤ tenths) then fatalStop s 5
      else if (hbm = false ∧ 950 ≤ tenths) ∨ (hbm = true ∧ 900 ≤ tenths) then setHold s true
      else if s.power.autoTherm ∧ 1000000000 ≤ coolSince then clearHold s true
      else s)

/-- A write to PWR_CTRL: a hold that is disabled is clear (R497). -/
def writePwrCtrl (s : State) (v : Nat) : State :=
  let p := s.power
  autoChange { s with power := { p with ctrl := v % 4, autoPower := p.autoPower && bit v 0, autoTherm := p.autoTherm && bit v 1 } }

-- the management bus (R517 to R519) -------------------------------------------------------------------------------------------

/-- DYNAMIC_ADDRESS_ASSIGNMENT (R517). -/
def execDynamicAddressAssignment (addr : Nat) (s : State) : Host.Outcome State Fault Refusal :=
  .next (if s.power.off ∧ s.power.phase ≠ 9 then s else { s with power := { s.power with i3cAddr := some addr } })

end Sys2Proof.Machine
end

