-- ==== Sys2Proof/Machine/Registers.lean ====
section
/-! DEFINITION. The registers of the module: the value of each, what a write to it does, and the accesses of each agent
(R5 to R9, R31 to R35 and every register table). An offset that no table lists is unbacked (R34). -/

set_option cleanup.letToHave false

namespace Sys2Proof.Machine

/-- The next state of a row that has one; the state itself otherwise. -/
def after (o : Host.Outcome State Fault Refusal) (s : State) : State :=
  match o with
  | .next t => t
  | _ => s

-- values: each function answers the width in bytes and the value of the register that begins at an offset ---------------------

/-- The registers of a ring (R266). -/
def ringVal (s : State) (r o : Nat) : Option (Nat × Nat) :=
  let x := getRing s r
  match o with
  | 0x00 => some (8, x.base)
  | 0x08 => some (8, x.reply)
  | 0x10 => some (4, x.log2 + 256 * b2n x.enable + 512 * b2n x.replyIrq)
  | 0x14 => some (4, x.tail)
  | 0x18 => some (4, x.head)
  | 0x1C => some (4, x.rtail)
  | 0x20 => some (4, x.rhead)
  | 0x24 => some (4, b2n x.active + 2 * b2n (replyWait x) + 65536 * min x.inFlight 0xFFFF)
  | 0x28 => some (4, x.fault)
  | 0x2C => some (4, x.bind)
  | _ => none

/-- The job counts of a session slot (R299). -/
def slotVal (s : State) (slot o : Nat) : Option (Nat × Nat) :=
  let n := getCounts s slot
  match o with
  | 0x0 => some (4, n.submitted % 2 ^ 32)
  | 0x4 => some (4, n.running % 2 ^ 32)
  | 0x8 => some (4, n.completed % 2 ^ 32)
  | 0xC => some (4, n.killed % 2 ^ 32)
  | _ => none

/-- DIE_UP (R35). -/
def dieUpBits (s : State) : Nat := (diesUp s).foldl (fun a d => a + 2 ^ d) 0

/-- MOD_STAT (R508). -/
def modStat (s : State) : Nat :=
  let p := s.power
  p.phase + 16 * b2n (ready s) + 32 * b2n p.p1 + 64 * b2n p.sessionP1 + 128 * b2n p.autoPower + 256 * b2n p.autoTherm +
  4096 * p.failDetail + 65536 * dieUpBits s + 2 ^ 24 * p.fatal

/-- CONN_STRAP (R516). -/
def connStrap (s : State) : Nat :=
  let p := s.power
  b2n p.keeperStrap + 2 * p.addrStrap + 16 * b2n p.keeperNow + 32 * p.addrNow

/-- TEMP_HBM: the hottest stack, the lowest-numbered of equals (R509). -/
def tempHbm (s : State) : Nat :=
  let best := s.power.tempStack.zipIdx.foldl (fun (b : Nat × Nat) (x : Nat × Nat) => if signedOf 16 b.1 < signedOf 16 x.1 then x else b)
    (s.power.tempStack.getD 0 0, 0)
  best.1 + 65536 * best.2

/-- Telemetry of the input and of the coolant, shared by the die control block of wharf 0 and the I3C map (R509, R527). -/
def pwrVal (s : State) (o : Nat) : Option (Nat × Nat) :=
  let p := s.power
  if o = 0x800 then some (4, p.volt) else if o = 0x804 then some (4, p.curr) else if o = 0x808 then some (4, p.powr)
  else if o = 0x80C then some (4, p.peak) else if o = 0x810 then some (4, p.ctrl) else if o = 0x814 then some (4, p.holdCnt)
  else if 0x820 ≤ o ∧ o < 0x848 ∧ o % 4 = 0 then some (4, p.tempDie.getD ((o - 0x820) / 4) 0)
  else if o = 0x848 then some (4, tempHbm s)
  else if o = 0x84C then some (4, p.coolant)
  else none

/-- The job of the reported mode change, and SCH_MODE_STAT (R319). -/
def modeStat (s : State) : Nat :=
  let xs := s.changes.filter Change.acked
  match xs with
  | [] => 0
  | x :: _ => 1 + 2 * b2n x.remote.isNone + 4 * min xs.length 63 + 65536 * (if x.scope = 1 then 0xFFFF else x.job)

/-- The die control block (R35, R244, R266, R299, R319, R490, R508, R509, R516, R527). When a wharf die comes into service is
not stated (R35, R504); that both bits of WHARF_UP are set once the compute dies are released is a DESIGN CHOICE
(notes/assumptions/106). -/
def dieVal (s : State) (d o : Nat) : Option (Nat × Nat) :=
  let x := getDie s d
  let m := getMemRegs s d
  let comp := decide (d < 8)
  if o = 0x0 then some (4, (if comp then 0x01000000 + d else 0x02000000 + (d - 8)) + 0x1000)
  else if o = 0x4 then some (4, if s.power.cfgDone then 2 ^ 31 + s.cfg.peerId else 0)
  else if o = 0x8 then some (4, dieUpBits s + (if s.power.released then 0x300 else 0))
  else if o = 0x10 then some (8, (s.time - 3) % 2 ^ 64)
  else if o = 0x100 ∧ d = 8 then some (4, modStat s)
  else if 0x400 ≤ o ∧ o < 0x448 ∧ comp = true then
    match o with
    | 0x400 => some (8, m.hbmCe) | 0x408 => some (8, m.hbmUe) | 0x410 => some (8, m.bsnCe) | 0x418 => some (8, m.bsnUe)
    | 0x420 => some (8, m.errAddr) | 0x428 => some (4, m.errInfo) | 0x430 => some (4, m.scrub)
    | 0x434 => some (4, (m.retired.filter isHbm).length + 65536 * (m.retired.filter (fun a => !isHbm a)).length)
    | 0x438 => some (4, s.cfg.basinPound + 65536 * s.cfg.hbmPound)
    | 0x440 => some (8, poundFree s d false / 65536 + 2 ^ 32 * (poundFree s d true / 65536))
    | _ => none
  else if o = 0x600 ∧ comp = true then some (8, x.coreFence)
  else if o = 0x608 ∧ comp = true then some (4, x.rootFence + 256 * x.moveFence)
  else if o = 0x60C ∧ comp = true then some (4, x.hamirOff)
  else if o = 0x610 then some (8, x.events)
  else if o = 0x618 then some (8, x.regAddr)
  else if 0x640 ≤ o ∧ o < 0x660 ∧ o % 4 = 0 ∧ d = 8 then
    let y := getDie s ((o - 0x640) / 4)
    some (4, y.cause + 256 * b2n y.fenced)
  else if o = 0x660 ∧ d = 8 then some (4, s.dump.cause + 256 * s.dump.parts)
  else if 0x800 ≤ o ∧ o < 0x850 ∧ d = 8 then pwrVal s o
  else if o = 0x900 ∧ d = 8 then some (4, connStrap s)
  else if 0x1000 ≤ o ∧ o < 0x1400 ∧ comp = true then ringVal s (d * 16 + (o - 0x1000) / 64) (o % 64)
  else if o = 0x1800 ∧ d = 8 then some (4, s.modEpoch % 65536)
  else if o = 0x1804 ∧ d = 8 then some (4, modeStat s)
  else if 0x2000 ≤ o ∧ o < 0x2400 ∧ d = 8 then slotVal s ((o - 0x2000) / 16) (o % 16)
  else none

/-- A source's status (R460). That ASSIGNED is 1 for an active source too is a reading of "TARGET is valid" (DEDUCED, notes/assumptions/139). -/
def srcStat (x : Source) : Nat :=
  x.state + 4 * b2n x.held + 8 * b2n (x.assigned.isSome || decide (2 ≤ x.state)) + 256 * x.heldCount + 65536 * x.activeOn + 2 ^ 24 * x.coalesced

/-- A target's registers (R461). -/
def tgtVal (c : Sic) (t o : Nat) : Option (Nat × Nat) :=
  let g := c.tgt t
  if o = 0x00 ∨ o = 0x04 then some (4, 0)
  else if o = 0x08 then some (4, runLevel g)
  else if o = 0x0C then some (4, g.levelEn)
  else if o = 0x10 then some (4, b2n g.enable)
  else if o = 0x14 then some (4, b2n g.idle + 2 * b2n (lineOf c t) + 256 * g.stack.length)
  else if o = 0x18 then some (4, match offered c t with | some i => i + 2 ^ 15 + 65536 * (c.src i).prio | none => 0)
  else if o = 0x1C then some (4, (match g.stack with | (i, p) :: _ => i + 2 ^ 15 + 65536 * p | [] => 0) + 2 ^ 21 * b2n g.miss)
  else if 0x80 ≤ o ∧ o < 0x100 ∧ o % 4 = 0 then
    some (4, match (g.stack.reverse)[(o - 0x80) / 4]? with | some (i, p) => i + 65536 * p + 2 ^ 31 | none => 0)
  else none

/-- The signal controller (R459 to R461). -/
def sicVal (s : State) (d o : Nat) : Option (Nat × Nat) :=
  let c := getSic s d
  let w := o % 0x80 / 4
  if o = 0x0 then some (4, b2n c.ctrl)
  else if o = 0x4 then some (4, 0x200F0400)
  else if o = 0x8 then some (4, c.err)
  else if 0x1000 ≤ o ∧ o < 0x1300 ∧ o % 4 = 0 then
    let k := (o - 0x1000) / 0x80
    some (4, bitWord w (fun i => sourceOk d i && (let x := c.src i
      if k ≤ 1 then x.enabled else if k ≤ 3 then x.state == 1 || x.state == 3 else if k = 4 then x.state == 2 || x.state == 3 else x.held)))
  else if 0x4000 ≤ o ∧ o < 0x6000 ∧ o % 4 = 0 then
    let x := c.src ((o - 0x4000) / 8)
    some (4, if o % 8 = 0 then x.prio + 65536 * x.mask else x.modCount + 256 * x.modTimer)
  else if 0x8000 ≤ o ∧ o < 0x9000 ∧ o % 4 = 0 then some (4, srcStat (c.src ((o - 0x8000) / 4)))
  else if 0x10000 ≤ o ∧ o < 0x11000 then tgtVal c ((o - 0x10000) / 0x100) (o % 0x100)
  else none

/-- The lock array (R288). -/
def lockVal (s : State) (d o : Nat) : Option (Nat × Nat) :=
  if 0x8000 ≤ o ∨ o % 4 ≠ 0 then none
  else
    let l := getLock s (d * 2048 + o / 16)
    some (4, match o % 16 with
      | 0x0 => l.count % 2 ^ 32
      | 0x4 => l.claimed % 2 ^ 32
      | 0x8 => min l.queue.length 127 + 128 * b2n l.setPending + 65536 * l.job
      | _ => l.lastCtx)

/-- What counts at a counter slot (R428, R432): 0 a compute die, 1 a wharf die, 2 a core, 3 ME, 4 VE, 5 UE, 6 a root engine,
7 a move engine. -/
def cntLevel (d o : Nat) : Option Nat :=
  let u := o % 0x400
  if 0x1000 ≤ o ∧ o < 0x1400 then some (if d < 8 then 0 else 1)
  else if 8 ≤ d then none
  else if 0x10000 ≤ o ∧ o < 0x20000 then
    if u < 0x100 then some 2 else if u < 0x200 then some 3 else if u < 0x280 then some 4 else if u < 0x300 then some 5 else none
  else if 0x20000 ≤ o ∧ o < 0x21000 then (if u < 0x100 then some 6 else if u < 0x300 then some 7 else none)
  else none

/-- Does R432 allow a select code at a level? -/
def selOk (lv c : Nat) : Bool :=
  c == 0x00 || (c == 0x01 && lv != 1) || c == 0x02 ||
  (match lv with
   | 0 => decide (0x50 ≤ c) && decide (c ≤ 0x62)
   | 1 => c == 0x61 || c == 0x62 || (decide (0x70 ≤ c) && decide (c ≤ 0x79))
   | 2 => decide (0x40 ≤ c) && decide (c ≤ 0x48)
   | 3 => decide (0x10 ≤ c) && decide (c ≤ 0x19)
   | 4 => decide (0x20 ≤ c) && decide (c ≤ 0x26)
   | 5 => decide (0x28 ≤ c) && decide (c ≤ 0x2B)
   | 6 => decide (0x30 ≤ c) && decide (c ≤ 0x36)
   | _ => decide (0x38 ≤ c) && decide (c ≤ 0x3D))

/-- The counter block (R428 to R430). -/
def cntVal (s : State) (d o : Nat) : Option (Nat × Nat) :=
  let b := getCnt s d
  if o = 0x0 then some (4, b2n b.freeze + 2 * b2n b.arm)
  else if o = 0x8 then some (8, b.freezeAt)
  else if o = 0x10 then some (4, 0)
  else if o = 0x18 then some (8, b.wrapped)
  else match cntLevel d o with
    | none => none
    | some _ =>
      let c := tget Counter.rest b.counters (o / 16 * 16)
      match o % 16 with
      | 0x0 => some (8, c.value)
      | 0x8 => some (4, c.sel)
      | 0xC => some (4, c.filter)
      | _ => none

/-- The trace block (R439). -/
def trVal (s : State) (d o : Nat) : Option (Nat × Nat) :=
  let t := getTrace s d
  match o with
  | 0x00 => some (4, t.ctrl)
  | 0x04 => some (4, t.state + 4 * b2n t.wrapped)
  | 0x08 => some (8, t.base)
  | 0x10 => some (4, t.size)
  | 0x14 => some (4, t.job)
  | 0x18 => some (4, t.kinds)
  | 0x1C => some (4, t.filter)
  | 0x20 => some (4, t.layers)
  | 0x24 => some (4, t.trig)
  | 0x28 => some (4, 0)
  | 0x2C => some (4, 0)
  | 0x30 => some (8, t.written)
  | 0x38 => some (4, t.trigIdx)
  | 0x3C => some (4, t.oldest)
  | 0x40 => some (8, t.lost)
  | _ => none

/-- The command that a root engine runs. -/
def rootCmd (s : State) (d u : Nat) : Option Cmd :=
  s.cmds.find? (fun c => (c.phase == .running || c.phase == .staged) && c.place == some ⟨d, u, 3⟩)

/-- The absolute deadline of a command of class 0x4 or 0x5; 0 if none. -/
def engineDeadline (s : State) (c : Cmd) : Nat :=
  if c.pkt.cls = 4 then (match rootJob s c with | some (q, _) => q.deadline | none => 0) else (solveJob s c).1.deadline

/-- RE_PROB, RE_ITER and RE_RESID of a running command (R123, R165), as far as it has been seen to get (notes/assumptions/28). -/
def progressOf (s : State) (c : Cmd) : Nat × Nat × Nat := if c.pkt.cls = 4 then rootProgress s c else solveProgress s c

/-- A root engine (R123). -/
def rootVal (s : State) (d u o : Nat) : Option (Nat × Nat) :=
  let run := rootCmd s d u
  let e := getRoot s (d * 8 + u)
  let p := match run with | some c => progressOf s c | none => (0, 0, 0)
  match o with
  | 0x00 => some (4, d * 2 ^ 13 + u / 2 * 2 ^ 11 + u % 2 * 2 ^ 10)
  | 0x04 => some (4,
      if bit (getDie s d).rootFence u then 4
      else if run.isSome && (s.testing.any (fun r => r.unit == .root (d * 8 + u)) || (getDie s d).draining.isSome) then 2
      else if underTest s (.root (d * 8 + u)) then 3
      else b2n run.isSome)
  | 0x08 => some (4, match run with | some c => c.pkt.seq | none => 0)
  | 0x0C => some (4, match run with | some c => c.pkt.job | none => 0)
  | 0x10 => some (4, p.1)
  | 0x14 => some (4, p.2.1)
  | 0x18 => some (4, p.2.2)
  | 0x20 => some (8, match run with | some c => engineDeadline s c | none => 0)
  | 0x28 => some (4, min e.eccCe 0xFFFF + 65536 * min e.eccUe 0xFFFF)
  | _ => none

/-- A Towpath port (R372). -/
def portVal (s : State) (p o : Nat) : Option (Nat × Nat) :=
  let x := getPort s p
  match o with
  | 0x00 => some (4, x.state + 16 * x.laneOk + 256 * b2n x.farValid + 65536 * x.farPeer)
  | 0x04 => some (4, x.ctrl)
  | 0x08 => some (4, x.event)
  | 0x0C => some (4, x.weight)
  | 0x10 => some (8, x.credit)
  | 0x18 => some (4, x.ctxCap)
  | 0x20 => some (8, x.txFlits)
  | 0x28 => some (8, x.rxFlits)
  | 0x30 => some (8, x.crcErr)
  | 0x38 => some (8, x.retry)
  | 0x40 => some (8, x.fecCe)
  | 0x48 => some (8, x.fecUe)
  | 0x50 => some (8, x.held)
  | 0x58 => some (8, x.drop)
  | _ => none

/-- The collective engines block (R373). -/
def collVal (s : State) (o : Nat) : Option (Nat × Nat) :=
  let x := s.domain
  let st (q : Nat) : Nat := (tfind x.members q).getD 0
  if o = 0x0 then some (4,
    (match x.keeper with | some (k, pos) => k + 4096 * pos + 2 ^ 17 | none => 0) + 2 ^ 16 * b2n x.isKeeper + 2 ^ 18 * b2n x.peer0Mode)
  else if o = 0x4 then some (4, b2n x.locked + 2 * b2n x.slewing + 256 * x.hops)
  else if o = 0x8 then some (4, codeOf 32 x.offset)
  else if o = 0xC then some (4, (x.members.filter (fun m => m.2 == 1)).length + 65536 * (x.members.filter (fun m => m.2 == 2)).length)
  else if 0x10 ≤ o ∧ o < 0x30 ∧ o % 4 = 0 then some (4, match x.successors[(o - 0x10) / 4]? with | some q => q + 2 ^ 31 | none => 0)
  else if 0x10000 ≤ o ∧ o < 0x18000 ∧ o % 8 = 0 then some (8, tget 0 x.routes ((o - 0x10000) / 8))
  else if 0x20000 ≤ o ∧ o < 0x24000 ∧ o % 4 = 0 then some (4, st ((o - 0x20000) / 4))
  else none

/-- The identity and key interface (R425). -/
def idVal (s : State) (o : Nat) : Option (Nat × Nat) :=
  let t := s.trust
  if o = 0x0 then some (4, b2n t.rsaOk + 2 * b2n t.slhOk + 4 * b2n t.owner.isSome + 8 * b2n t.dbgBy.isSome + 16 * b2n s.cfg.ideRequired)
  else if o = 0x8 then some (8, ((List.range 64).filter (fun i => (getSes s i).st == .opened)).foldl (fun a i => a + 2 ^ i) 0)
  else if 0x100 ≤ o ∧ o < 0x300 ∧ o % 8 = 0 ∧ o % 64 < 48 then
    some (8, fieldAt (t.mrs.getD ((o - 0x100) / 64) []) (o % 64) 8)
  else if 0x400 ≤ o ∧ o < 0x410 ∧ o % 4 = 0 then
    some (4, t.svns.getD ((o - 0x400) / 4) 0 % 65536 + 65536 * (t.floors.getD ((o - 0x400) / 4) 0 % 65536))
  else if o = 0x420 then some (4, t.cfgSeq)
  else if o = 0x424 then some (4, t.cfgFloor)
  else if o = 0x428 then some (4, t.boots % 2 ^ 32)
  else none

/-- The register that begins at an offset of a die's window: its width in bytes and its value (R31 to R33). -/
def regVal (s : State) (d o : Nat) : Option (Nat × Nat) :=
  if o < 0x10000 then dieVal s d o
  else if 0x100000 ≤ o ∧ o < 0x200000 then sicVal s d (o - 0x100000)
  else if 0x200000 ≤ o ∧ o < 0x208000 ∧ d < 8 then lockVal s d (o - 0x200000)
  else if 0x400000 ≤ o ∧ o < 0x500000 then cntVal s d (o - 0x400000)
  else if 0x500000 ≤ o ∧ o < 0x600000 then trVal s d (o - 0x500000)
  else if 0x1000000 ≤ o ∧ o < 0x2000000 ∧ d < 8 then
    let c := (o - 0x1000000) / 0x400000
    let x := o % 0x400000
    if 0x100000 ≤ x ∧ x < 0x180000 then rootVal s d (2 * c + (x - 0x100000) / 0x40000) (x % 0x40000) else none
  else if 0x1000000 ≤ o ∧ o < 0x1120000 ∧ 8 ≤ d then portVal s ((d - 8) * 18 + (o - 0x1000000) / 0x10000) (o % 0x10000)
  else if 0x2000000 ≤ o ∧ o < 0x2100000 ∧ 8 ≤ d then collVal s (o - 0x2000000)
  else if 0x5000000 ≤ o ∧ o < 0x5100000 ∧ 8 ≤ d then idVal s (o - 0x5000000)
  else none

-- writes -----------------------------------------------------------------------------------------------------------------

/-- Write-one-to-clear (R7). -/
def w1c (x v : Nat) : Nat := x - (x &&& v)

/-- May an agent write the registers of a ring (R266, R380)? The page of the bound session, or the die's Hamir firmware. -/
def ringWritable (s : State) (via : Via) (r : Nat) : Bool :=
  match via with
  | .sessionPage slot => decide (r < 128) && (getRing s r).bind == slot && slot != 0xFFFF
  | .hamir d => decide (r < 128) && d == r / 16
  | _ => false

/-- A write that a ring accepts to one of its registers (R266, R267). -/
def ringWrite (s : State) (r o v : Nat) : State :=
  let x := getRing s r
  match o with
  | 0x00 => if x.enable then s else setRing s r { x with base := v }
  | 0x08 => if x.enable then s else setRing s r { x with reply := v }
  | 0x10 => writeRingCfg s r v
  | 0x14 => writeRingTail s r v
  | 0x20 => setRing s r { x with rhead := v }
  | 0x28 => setRing s r { x with fault := w1c x.fault v }
  | _ => s

/-- A write to MEM_SCRUB_CTRL: an hour count outside its range keeps the field (R6, R244). -/
def writeScrub (s : State) (d v : Nat) : State :=
  let m := getMemRegs s d
  let x := setFld m.scrub 0 2 v
  let x := if 1 ≤ fld v 8 8 ∧ fld v 8 8 ≤ 24 then setFld x 8 8 (fld v 8 8) else x
  let x := if 1 ≤ fld v 16 8 ∧ fld v 16 8 ≤ 168 then setFld x 16 8 (fld v 16 8) else x
  setMemRegs s d { m with scrub := x }

/-- A write to a counter slot (R429): an event code that the level does not allow keeps the field (R6). -/
def writeSlot (s : State) (d lv o v : Nat) : State :=
  let b := getCnt s d
  let c := tget Counter.rest b.counters (o / 16 * 16)
  let c := match o % 16 with
    | 0x0 => { c with value := v % 2 ^ 48 }
    | 0x8 =>
      let w := fld v 0 11
      { c with sel := if selOk lv (fld v 0 8) then w else setFld w 0 8 (fld c.sel 0 8) }
    | _ => { c with filter := v }
  setCnt s d { b with counters := tset Counter.rest b.counters (o / 16 * 16) c }

/-- A write to a register of the trace block (R439): while ENABLE is 1 the buffer's registers keep their values. -/
def writeTrace (s : State) (d o v : Nat) : State :=
  let t := getTrace s d
  let on := bit t.ctrl 0
  match o with
  | 0x00 => after (execTrCtrl d v s) s
  | 0x08 => if on then s else setTrace s d { t with base := v }
  | 0x10 => if on = true ∨ fld v 0 6 < 16 ∨ 32 < fld v 0 6 then s else setTrace s d { t with size := fld v 0 6 }
  | 0x14 => if on then s else setTrace s d { t with job := fld v 0 16 }
  | 0x18 => setTrace s d { t with kinds := v &&& 0xFFE }
  | 0x1C => setTrace s d { t with filter := fld v 0 17 }
  | 0x20 => setTrace s d { t with layers := v }
  | 0x24 => setTrace s d { t with trig := fld v 0 13 }
  | 0x28 => after (execTrTrigNow d v s) s
  | 0x2C => after (execTrMark d v s) s
  | _ => s

/-- A write to a register of the signal controller (R459 to R461). A write to SIC_TAKE here is not the target's own
core's, and has no effect (R456). -/
def writeSic (s : State) (d o v : Nat) : State :=
  let w := o % 0x80 / 4
  let c := getSic s d
  if o = 0x0 then setSic s d (wake { c with ctrl := bit v 0 })
  else if o = 0x8 then setSic s d { c with err := w1c c.err v }
  else if 0x1000 ≤ o ∧ o < 0x1080 then after (execSicEnSet d w v s) s
  else if 0x1080 ≤ o ∧ o < 0x1100 then after (execSicEnClr d w v s) s
  else if 0x1100 ≤ o ∧ o < 0x1180 then after (execSicPendSet d w v s) s
  else if 0x1180 ≤ o ∧ o < 0x1200 then after (execSicPendClr d w v s) s
  else if 0x4000 ≤ o ∧ o < 0x6000 then
    if o % 8 = 0 then after (execSicSrcCfg d ((o - 0x4000) / 8) v s) s else after (execSicSrcMod d ((o - 0x4000) / 8) v s) s
  else if 0x10000 ≤ o ∧ o < 0x11000 then
    let t := (o - 0x10000) / 0x100
    match o % 0x100 with
    | 0x04 => after (execSicEoi d t (fld v 0 10) s) s
    | 0x0C => setSic s d (wake (c.setTgt t { c.tgt t with levelEn := v }))
    | 0x10 => after (execSicTgtCtrl d t v s) s
    | _ => s
  else s

/-- A write to a register of a Towpath port (R372). -/
def writePort (s : State) (p o v : Nat) : State :=
  let x := getPort s p
  match o with
  | 0x04 => after (execPortCtrl p v s) s
  | 0x08 => setPort s p { x with event := w1c x.event v }
  | 0x0C => setPort s p { x with weight := (List.range 7).foldl (fun a c => if fld v (4 * c) 4 = 0 then a else setFld a (4 * c) 4 (fld v (4 * c) 4)) x.weight }
  | 0x10 => after (execPortCredit p v s) s
  | 0x18 => if fld v 0 8 = 0 then s else setPort s p { x with ctxCap := fld v 0 8 }
  | _ => s

/-- A write of a register's own width to the register that begins at an offset of a die's window (R7). A register whose
access code is RO or RC ignores it. -/
def regWrite (s : State) (d o v : Nat) : State :=
  if o = 0x430 ∧ d < 8 then writeScrub s d v
  else if o = 0x810 ∧ d = 8 then writePwrCtrl s v
  else if 0x100000 ≤ o ∧ o < 0x200000 then writeSic s d (o - 0x100000) v
  else if 0x400000 ≤ o ∧ o < 0x500000 then
    let x := o - 0x400000
    if x = 0x0 then after (execCntCtrl d v s) s
    else if x = 0x8 then setCnt s d { getCnt s d with freezeAt := v }
    else if x = 0x10 then after (execCntClear d v s) s
    else if x = 0x18 then setCnt s d { getCnt s d with wrapped := w1c (getCnt s d).wrapped v }
    else match cntLevel d x with
      | some lv => writeSlot s d lv x v
      | none => s
  else if 0x500000 ≤ o ∧ o < 0x600000 then writeTrace s d (o - 0x500000) v
  else if 0x1000000 ≤ o ∧ o < 0x1120000 ∧ 8 ≤ d then writePort s ((d - 8) * 18 + (o - 0x1000000) / 0x10000) (o % 0x10000) v
  else if 0x2010000 ≤ o ∧ o < 0x2018000 ∧ 8 ≤ d then
    releaseAll { s with domain := { s.domain with routes := tset 0 s.domain.routes ((o - 0x2010000) / 8) (v % 2 ^ 36) } }
  else s

/-- What a read clears of the register that begins at an offset (R7 RC). -/
def regClear (s : State) (d o : Nat) : State :=
  let m := getMemRegs s d
  if d < 8 ∧ o = 0x400 then setMemRegs s d { m with hbmCe := 0 }
  else if d < 8 ∧ o = 0x408 then setMemRegs s d { m with hbmUe := 0 }
  else if d < 8 ∧ o = 0x410 then setMemRegs s d { m with bsnCe := 0 }
  else if d < 8 ∧ o = 0x418 then setMemRegs s d { m with bsnUe := 0 }
  else if d = 8 ∧ o = 0x80C then { s with power := { s.power with peak := 0 } }
  else if d = 8 ∧ o = 0x814 then { s with power := { s.power with holdCnt := 0 } }
  else if o = 0x500040 then setTrace s d { getTrace s d with lost := 0 }
  else if d < 8 ∧ 0x1000000 ≤ o ∧ o < 0x2000000 ∧ 0x100000 ≤ o % 0x400000 ∧ o % 0x400000 < 0x180000 ∧ o % 0x40000 = 0x28 then
    let i := d * 8 + 2 * ((o - 0x1000000) / 0x400000) + (o % 0x400000 - 0x100000) / 0x40000
    setRoot s i { getRoot s i with eccUe := 0, eccCe := 0 }
  else if 8 ≤ d ∧ 0x1000000 ≤ o ∧ o < 0x1120000 then
    let p := (d - 8) * 18 + (o - 0x1000000) / 0x10000
    let x := getPort s p
    match o % 0x10000 with
    | 0x30 => setPort s p { x with crcErr := 0 }
    | 0x38 => setPort s p { x with retry := 0 }
    | 0x40 => setPort s p { x with fecCe := 0 }
    | 0x48 => setPort s p { x with fecUe := 0 }
    | 0x50 => setPort s p { x with held := 0 }
    | 0x58 => setPort s p { x with drop := 0 }
    | _ => s
  else s

-- accesses ---------------------------------------------------------------------------------------------------------------

/-- How an access of `w` bytes at an offset meets the registers of a window (R9, R34). -/
inductive RegHit where
  | exact (value : Nat)        -- an access of the register's own width and alignment
  | split                      -- any other access to a register
  | unbacked
  deriving DecidableEq, Repr

/-- Does any byte of a range belong to a register, by the widths at its 4-byte steps? -/
def touches (val : Nat → Option (Nat × Nat)) (o w : Nat) : Bool :=
  let a := o / 4 * 4
  (List.range ((w + 3) / 4 + 1)).any (fun i => (val (a + 4 * i)).isSome && decide (a + 4 * i < o + w)) ||
  (decide (4 ≤ a) && (match val (a - 4) with | some (8, _) => true | _ => false))

def regHit (val : Nat → Option (Nat × Nat)) (o w : Nat) : RegHit :=
  match val o with
  | some (n, v) => if n = w then .exact v else .split
  | none => if touches val o w then .split else .unbacked

/-- REG_ACCESS for an access to a die's window (R9, R34). -/
def badAccess (s : State) (d o : Nat) (write : Bool) (h : RegHit) : State :=
  regAccess s d (GAddr.code ⟨3, 0, winAddr d o⟩) write (h == .split) (h == .unbacked)

/-- Is a block of a die's window served (R477)? Of a fenced die only the die control block. -/
def blockOpen (s : State) (d o : Nat) : Bool := decide (8 ≤ d) || decide (o < 0x10000) || (getDie s d).up

/-- The ring that an offset of a die's window belongs to (R266). -/
def ringAt (d o : Nat) : Option Nat := if d < 8 ∧ 0x1000 ≤ o ∧ o < 0x1400 then some (d * 16 + (o - 0x1000) / 64) else none

/-- Blocks that the map of a window names and no register table describes (R31 to R33): cluster control with its residency
directory, move engines and cores of a compute die, the CXL controller and the management mailbox of wharf 0. -/
def untabled (d o : Nat) : Bool :=
  if d < 8 then
    decide (0x1000000 ≤ o) && decide (o < 0x2000000) &&
    (decide (o % 0x400000 < 0x100000) || (decide (0x180000 ≤ o % 0x400000) && decide (o % 0x400000 < 0x1C0000)) ||
      decide (0x200000 ≤ o % 0x400000))
  else d == 8 && decide (0x3000000 ≤ o) && decide (o < 0x5000000)

/-- A read of a die's window by an agent that may read it: the value answered and the state after. What a block without a
register table holds is not stated: such a read is a free value (DESIGN CHOICE, notes/assumptions/27). -/
def busRead (s : State) (d o w : Nat) : State × Nat :=
  if !blockOpen s d o then (s, 0)
  else if untabled d o then ({ s with fresh := s.fresh + 1 }, Config.blockReg s.fresh d o w % 2 ^ (8 * w))
  else match regHit (regVal s d) o w with
    | .exact v => (regClear s d o, v)
    | h => (badAccess s d o false h, 0)

/-- A write to a die's window by an agent that may write it. -/
def busWrite (s : State) (via : Via) (d o w v : Nat) : State :=
  if !blockOpen s d o || untabled d o then s
  else match regHit (regVal s d) o w with
    | .exact _ =>
      match ringAt d o with
      | some r => if ringWritable s via r then ringWrite s r (o % 64) v else s
      | none => regWrite s d o v
    | h => badAccess s d o true h

/-- The window and offset that an offset of the module's register space names (R381). -/
def mapWindow (off : Nat) : Option (Nat × Nat) :=
  if off < 0x80000000 then some (off / 0x10000000, off % 0x10000000)
  else if off < 0xA0000000 then some (8 + (off - 0x80000000) / 0x10000000, off % 0x10000000)
  else none

/-- REG_ACCESS for an offset of the map outside every window: on wharf 0 (notes/assumptions/29). -/
def outsideMap (s : State) (off : Nat) (write : Bool) : State :=
  regAccess s 8 (GAddr.code ⟨3, 0, (winBase + off) % 2 ^ 48⟩) write false true

/-- The registers of a session page (R380): those of the rings bound to the session, and the slot's own. -/
def pageVal (s : State) (slot o : Nat) : Option (Nat × Nat) :=
  if o < 0x2000 then (if ringWritable s (.sessionPage slot) (o / 64) then ringVal s (o / 64) (o % 64) else none)
  else if o < 0x2010 then slotVal s slot (o - 0x2000)
  else if o = 0x2010 then
    let x := getSes s slot
    some (4, if x.st = .opened then 1 + 2 * b2n x.priv + 4 * b2n x.ide else 0)
  else none

/-- REG_ACCESS for a session page: at the ring's own register, or on wharf 0 (R380; notes/assumptions/29). -/
def badPage (s : State) (o : Nat) (write : Bool) (h : RegHit) : State :=
  if o < 0x2000 then badAccess s (o / 64 / 16) (0x1000 + o / 64 % 16 * 64 + o % 64) write h else badAccess s 8 o write h

/-- The registers of the I3C map (R518): the telemetry, MOD_STAT, CONN_STRAP and the part number. -/
def i3cByte (s : State) (o : Nat) : Byte :=
  let a := o / 4 * 4
  let v := if a = 0x100 then modStat s
    else if a = 0x900 then connStrap s
    else match pwrVal s a with | some (_, v) => v | none => 0
  if 0xE00 ≤ o ∧ o < 0xE10 then (fitBytes 16 (ascii "WTV8-2048")).getD (o - 0xE00) 0
  else BitVec.ofNat 8 (v / 2 ^ (8 * (o % 4)))

/-- An access of BAR0 that touches the mirror of MOD_STAT and is not of its own width and alignment (R9, R378). -/
def mirrorSplit (off w : Nat) : Bool := !(off == 0x38000 && w == 4) && overlap off w 0x38000 4

-- rows -------------------------------------------------------------------------------------------------------------------

/-- REGISTER_WRITE: a write of `width` bytes at an offset of the space that an agent reaches. Over I3C it is the private
write of an offset and four bytes, and only MGT_REQ takes it (R518, R519). -/
def execRegisterWrite (via : Via) (off width value : Nat) (s : State) : Host.Outcome State Fault Refusal :=
  let v := value % 2 ^ (8 * width)
  match via with
  | .sessionPage slot =>
    .next (if decide (s.power.phase < 7) || decide (8 < s.power.phase) || !s.power.linkUp then s
      else match regHit (pageVal s slot) off width with
        | .exact _ => if off < 0x2000 then ringWrite s (off / 64) (off % 64) v else s
        | h => badPage s off true h)
  | .privMap =>
    .next (if s.cxl.privBy.isNone || !s.power.linkUp then s
      else match mapWindow off with
        | some (d, o) => busWrite s via d o width v
        | none => outsideMap s off true)
  | .bar0 => .next (if s.power.linkUp && s.power.cfgDone && mirrorSplit off width then badAccess s 8 (0x100 + off - 0x38000) true .split else s)
  | .hamir d =>
    .next (if (getDie s d).up then
        match mapWindow off with
        | some (d, o) => busWrite s via d o width v
        | none => outsideMap s off true
      else s)
  | .i3c => if off = 0xF00 ∧ width = 4 then (if bit v 0 then execModuleReset s else if bit v 1 then execStandby s else .next s) else .next s

/-- A ring register that a privileged map does not show (R445). What the map returns for one is not stated (R266, R381, R445);
that a read of its own width and alignment returns 0 and raises nothing is a DESIGN CHOICE (notes/assumptions/107). Any other
access of the block is as R9 and R34 say. -/
def hiddenRing (s : State) (via : Via) (d o w : Nat) : Bool :=
  match via with
  | .hamir _ => false
  | _ => (ringAt d o).isSome && (match regHit (regVal s d) o w with | .exact _ => true | _ => false)

/-- REGISTER_READ_CLEAR: a read of a register, which clears the fields of access code RC that it returns (R7). The answer
carries the value. -/
def execRegisterReadClear (via : Via) (off width : Nat) (s : State) : Host.Outcome State Fault Refusal :=
  let say (r : State × Nat) : State := { r.1 with answers := r.1.answers ++ [.reg r.2] }
  let window (s : State) : State × Nat :=
    match mapWindow off with
    | some (d, o) => if hiddenRing s via d o width then (s, 0) else busRead s d o width
    | none => (outsideMap s off false, 0)
  .next (match via with
    | .sessionPage slot =>
      if decide (s.power.phase < 7) || decide (8 < s.power.phase) || !s.power.linkUp then say (s, 0)
      else match regHit (pageVal s slot) off width with
        | .exact v => say (s, v)
        | h => say (badPage s off false h, 0)
    | .privMap => if s.cxl.privBy.isNone || !s.power.linkUp then say (s, 0) else say (window s)
    | .bar0 =>
      if s.power.linkUp && s.power.cfgDone then
        if off = 0x38000 ∧ width = 4 then say (s, modStat s)
        else if mirrorSplit off width then say (badAccess s 8 (0x100 + off - 0x38000) false .split, 0)
        else say ({ s with fresh := s.fresh + 1 }, Config.bar0 s.fresh off width)
      else s
    | .hamir d => if (getDie s d).up then say (window s) else s
    | .i3c => if s.power.off ∧ s.power.phase ≠ 9 then s
      else { s with answers := s.answers ++ [.i3c ((List.range width).map (fun i => i3cByte s (off + i)))] })

/-- RING_CFG: a write to a ring's configuration (R266, R267). A write that is not accepted is dropped; through a session page
it raises REG_ACCESS (R380). -/
def execRingCfg (via : Via) (ring value : Nat) (s : State) : Host.Outcome State Fault Refusal :=
  .next (if ringWritable s via ring then writeRingCfg s ring (value % 2 ^ 32)
    else match via with
      | .sessionPage _ => badPage s (ring * 64 + 0x10) true .unbacked
      | _ => s)

/-- RING_TAIL: the doorbell (R266). -/
def execRingTail (via : Via) (ring value : Nat) (s : State) : Host.Outcome State Fault Refusal :=
  .next (if ringWritable s via ring then writeRingTail s ring (value % 2 ^ 32)
    else match via with
      | .sessionPage _ => badPage s (ring * 64 + 0x14) true .unbacked
      | _ => s)

/-- PWR_CTRL: a write through register space, by the privileged map or by firmware (R509, R445); over I3C it is ignored
(R518). -/
def execPwrCtrl (via : Via) (value : Nat) (s : State) : Host.Outcome State Fault Refusal :=
  .next (match via with
    | .privMap => if s.cxl.privBy.isSome && s.power.linkUp then writePwrCtrl s value else s
    | .hamir d => if (getDie s d).up then writePwrCtrl s value else s
    | _ => s)

/-- I3C_READ_POINTER: a private write of an offset sets the read pointer, and the private read of 16 bytes that follows
returns the map from it and moves it on (R518; notes/assumptions/30). -/
def execI3cReadPointer (offset : Nat) (s : State) : Host.Outcome State Fault Refusal :=
  .next (if s.power.off ∧ s.power.phase ≠ 9 then s
    else { s with
      power := { s.power with i3cPtr := (offset + 16) % 65536 },
      answers := s.answers ++ [.i3c ((List.range 16).map (fun i => i3cByte s ((offset + i) % 65536)))] })

end Sys2Proof.Machine
end

