-- ==== Sys2Proof/Machine/HostLink.lean ====
section
/-! DEFINITION. The CXL link: configuration, the window on HBM, snoops, SPDM, and the link going up and down (R374 to R394,
R424), and their rows. -/

set_option cleanup.letToHave false

namespace Sys2Proof.Machine

/-- SPDM_REQUEST: the module signs with IK_RSA alone and reports MR0 to MR7 as its measurement blocks (R393, R424). -/
def execSpdmRequest (request : List Byte) (s : State) : Host.Outcome State Fault Refusal :=
  .next (if s.power.linkUp && s.power.cfgDone && s.trust.rsaOk then
      { s with answers := s.answers ++ [.spdm (Config.signRsa (request ++ s.trust.mrs.flatten)) s.trust.mrs] }
    else s)

/-- What a configuration read answers (R376): the identification fields that the manual gives, CXL 3.1's elsewhere. -/
def configValue (offset : Nat) : Nat :=
  if offset = 0 then Config.configSpace 0 % 65536 + 0x7A08 * 65536
  else if offset = 8 then 0x10 + 0x120000 * 256
  else Config.configSpace offset % 2 ^ 32

/-- CONFIG_REQUEST: Configuration Request Retry Status until the configuration record is verified (R377). -/
def execConfigRequest (offset : Nat) (write : Option Nat) (s : State) : Host.Outcome State Fault Refusal :=
  .next (if s.power.linkUp = false then s
    else if s.power.cfgDone = false then { s with answers := s.answers ++ [.config true 0] }
    else match write with
      | some _ => { s with answers := s.answers ++ [.config false 0] }
      | none => { s with answers := s.answers ++ [.config false (configValue offset)] })

-- the window (R385 to R388) ----------------------------------------------------------------------------------------------

/-- Is an access of the host to the window possible: the link up, the decoder committed, the bytes inside it? -/
def windowHit (s : State) (off len : Nat) : Bool :=
  s.power.linkUp && s.cxl.decHpa.isSome && decide (0 < len) && decide (off + len ≤ s.cfg.hdmSizeGib * 2 ^ 30)

/-- The job and session of the aperture that holds a byte of the window. -/
def apertureOf (s : State) (off : Nat) : Option (Nat × Nat) := tfind s.cxl.apertures (off / 2 ^ 30)

/-- May an access be served: its apertures bound to one job, and its bytes on dies in service (R386, R491)? The job's key. -/
def windowKey (s : State) (off len : Nat) : Option Nat :=
  let a := s.cfg.hdmBase + off
  match apertureOf s off with
  | none => none
  | some (job, ses) =>
    if apertureOf s (off + len - 1) = some (job, ses) ∧ (List.range 8).all (fun d => !(touchesDie d a len) || (getDie s d).up) = true then
      some (jobKey s ses job)
    else none

/-- HDM_READ: committed bytes, or poison for an unbound aperture, a poisoned unit, a fenced die or a module that is not READY
(R377, R386, R388). -/
def execHdmRead (off len : Nat) (s : State) : Host.Outcome State Fault Refusal :=
  .next (if windowHit s off len = false then s
    else
      let a := s.cfg.hdmBase + off
      let poisoned : State := { s with answers := s.answers ++ [.hdm true []] }
      match windowKey s off len with
      | none => poisoned
      | some key =>
        if !(ready s) || (poisonedIn s a len).isSome then poisoned
        else count { s with answers := s.answers ++ [.hdm false (rdKey s key a len)] } 8 slotsDie 0x78 (ceilDiv len 64) none)

/-- HDM_WRITE: applied before its completion, under the job's key; dropped with HDM_DENIED where the aperture is unbound
(R386, R388). -/
def execHdmWrite (off : Nat) (data : List Byte) (s : State) : Host.Outcome State Fault Refusal :=
  .next (if windowHit s off data.length = false ∨ ready s = false then s
    else
      let a := s.cfg.hdmBase + off
      match windowKey s off data.length with
      | none => raiseMod (fire s 8 27) 8 0x1D a (a / 2 ^ 32) 0
      | some key => count (wrLocal s key a data) 8 slotsDie 0x79 (ceilDiv data.length 64) none)

/-- HDM_DECODER_COMMIT: only an interleave of 1 way is taken; any other raises the decoder's error indication and passes no
traffic (R385). -/
def execHdmDecoderCommit (ways hpa : Nat) (s : State) : Host.Outcome State Fault Refusal :=
  .next (if s.power.linkUp && s.power.cfgDone then
      { s with cxl := { s.cxl with decWays := ways, decHpa := if ways = 1 then some hpa else none, decError := ways != 1 } }
    else s)

/-- SNOOP: the module holds no host line (R389). -/
def execSnoop (addr : Nat) (s : State) : Host.Outcome State Fault Refusal :=
  .next (if s.power.linkUp then { s with answers := s.answers ++ [.snoopMiss addr] } else s)

-- the link ------------------------------------------------------------------------------------------------------------------

/-- CXL_LINK_UP: the link trains at a width and rate of R375, with the IDE state that its secured sessions give (R393). The
decoder awaits the host (R394). -/
def execCxlLinkUp (width rate : Nat) (ide : Bool) (s : State) : Host.Outcome State Fault Refusal :=
  .next (if s.power.off ∨ s.power.linkUp = true ∨ !(width ∈ [4, 8, 16]) ∨ !(rate ∈ [16, 32, 64]) then s
    else fire { s with
      power := { s.power with linkUp := true },
      cxl := { s.cxl with width := width, rate := rate, ide := ide, memActive := ready s, decWays := 0, decHpa := none, decError := false } } 8 25)

/-- Replies that can no longer be written: of rings whose reply area lies in TIER 5 (R269, R394). -/
def dropHostReplies (s : State) : State :=
  { s with cmds := s.cmds.map (fun c => match c.origin with
      | .ring r => if (gaddrOf (getRing s r).reply).tier = 5 then { c with noReply := true } else c
      | _ => c) }

/-- CXL_LINK_DOWN: a link down, reset, removal or IDE failure ends every session opened over the link; the module stays as it
is otherwise (R393, R394, R502). -/
def execCxlLinkDown (cause : LinkCause) (s : State) : Host.Outcome State Fault Refusal :=
  .next (if s.power.linkUp = false then s
    else
      let s := dropHostReplies { s with power := { s.power with linkUp := false } }
      let s := ((List.range 64).filter (fun i => (getSes s i).st != .free)).foldl endSession s
      let s := { s with cxl := { s.cxl with
        width := 0, rate := 0, ide := false, memActive := false, decWays := 0, decHpa := none, decError := false, apertures := [], privBy := none } }
      let s := if cause = .ideFailure then fire s 8 26 else s
      fire s 8 25)

end Sys2Proof.Machine
end

