-- ==== Sys2Proof/Machine/Tap.lean ====
section
/-! DEFINITION. The test access port (R520 to R524), and its rows: each row is an Update-IR with its instruction. -/

set_option cleanup.letToHave false

namespace Sys2Proof.Machine

/-- The TAP answers in every state but OFF (R520). -/
def tapLive (s : State) : Bool := !s.power.off || s.power.phase == 9

/-- The IDCODE register (R521). -/
def idcodeValue : Nat := 2 ^ 28 + 0x7A08 * 2 ^ 12 + Config.jep106 % 2 ^ 11 * 2 + 1

/-- A boundary-scan instruction is loaded. The five that drive pins do so only while MOD_RESET_N is low, and act as
SAMPLE/PRELOAD at any other time (R524). -/
def loadTap (s : State) (code : Nat) : State :=
  if !tapLive s then s
  else
    let drives := code ∈ [0x00, 0x03, 0x04, 0x05, 0x06]
    let act := if drives = true ∧ s.power.resetN = true then 0x01 else code
    { s with tap := { s.tap with ir := code, live := false }, answers := s.answers ++ [.tap act (drives && !s.power.resetN)] }

/-- Does the current instruction drive pins (R524)? -/
def tapDrives (s : State) : Bool := tapLive s && !s.power.resetN && s.tap.ir ∈ [0x00, 0x03, 0x04, 0x05, 0x06]

/-- The level of FAULT_N: what its cell drives, released under HIGHZ, or what the module drives (R508, R513, R523): low in PHASE 0xD, 0xE and
0xF. -/
def faultLevel (s : State) : Bool :=
  if tapDrives s then s.tap.ir == 0x03 || s.tap.cells.faultN else !(faultN s)

/-- The TX pairs of Towpath and CXL as their cells drive them, under EXTEST_PULSE and EXTEST_TRAIN (R523); none where the cells do not. -/
def txDriven (s : State) : Option (BitVec 144 × BitVec 16) :=
  if tapDrives s && (s.tap.ir == 0x05 || s.tap.ir == 0x06) then some (s.tap.cells.towTx, s.tap.cells.cxlTx) else none

/-- What the boundary cells observe (R523): a cell that finds a strap tied to ground captures 0 (R515). -/
def capture (s : State) : Boundary :=
  { board := s.power.pins, resetN := s.power.resetN, faultN := faultLevel s, pwrEn := s.power.pwrEn, keeper := !s.power.keeperNow,
    addr0 := !(bit s.power.addrNow 0), addr1 := !(bit s.power.addrNow 1) }

/-- An instruction of the boundary register, and a scan of that register under it: what the cells captured is shifted out, and what stands at
TDI is shifted into the cells that can drive (R522, R523). One scan for each row is a DESIGN CHOICE (notes/assumptions/130). -/
def scanBoundary (s : State) (code : Nat) : State :=
  if !tapLive s then s
  else
    let s := loadTap s code
    { s with tap := { s.tap with cells := s.power.shiftIn }, answers := s.answers ++ [.boundary (capture s)] }

def execExtest (s : State) : Host.Outcome State Fault Refusal := .next (scanBoundary s 0x00)
def execSamplePreload (s : State) : Host.Outcome State Fault Refusal := .next (scanBoundary s 0x01)
def execHighz (s : State) : Host.Outcome State Fault Refusal := .next (loadTap s 0x03)
def execClamp (s : State) : Host.Outcome State Fault Refusal := .next (loadTap s 0x04)
def execExtestPulse (s : State) : Host.Outcome State Fault Refusal := .next (scanBoundary s 0x05)
def execExtestTrain (s : State) : Host.Outcome State Fault Refusal := .next (scanBoundary s 0x06)
def execBypass (s : State) : Host.Outcome State Fault Refusal := .next (loadTap s 0xFF)

/-- IDCODE: the 32-bit register that identifies the module (R521). -/
def execIdcode (s : State) : Host.Outcome State Fault Refusal :=
  .next (let t := loadTap s 0x02
    if tapLive s then { t with answers := t.answers ++ [.reg idcodeValue] } else t)

/-- DBG_SELECT: the die whose debug port is selected; while debug is locked it behaves as BYPASS (R420, R522). -/
def execDbgSelect (die : Nat) (s : State) : Host.Outcome State Fault Refusal :=
  .next (if !tapLive s then s
    else if s.trust.dbgBy.isSome then
      { s with tap := { s.tap with ir := 0x40, live := true, die := if die < 10 then die else s.tap.die }, answers := s.answers ++ [.tap 0x40 false] }
    else { s with tap := { s.tap with ir := 0x40, live := false }, answers := s.answers ++ [.tap 0xFF false] })

/-- DBG_ACCESS: BYPASS while debug is locked (R420, R522). Unlocked, it reaches the debug port of Hamir cores, which the
manual does not describe. -/
def execDbgAccess (s : State) : Host.Outcome State Fault Refusal :=
  if !tapLive s then .next s
  else if s.trust.dbgBy.isSome then .refused .debugPort
  else .next { s with tap := { s.tap with ir := 0x41, live := false }, answers := s.answers ++ [.tap 0xFF false] }

/-- Test-Logic-Reset: IDCODE is the current instruction (R520, R521). -/
def tapReset (s : State) : State := if tapLive s then { s with tap := { s.tap with ir := 0x02, live := false } } else s

/-- TRST_N resets the TAP alone (R520). -/
def execTrstN (s : State) : Host.Outcome State Fault Refusal := .next (tapReset s)
/-- TEST_LOGIC_RESET (R520). -/
def execTestLogicReset (s : State) : Host.Outcome State Fault Refusal := .next (tapReset s)

end Sys2Proof.Machine
end

