-- ==== Sys2Proof/Machine/Move.lean ====
section
/-! DEFINITION. The transfer operations of class 0x7: COPY, CONVERT and FILL (R254 to R256), over memory and registers. -/

set_option cleanup.letToHave false

namespace Sys2Proof.Machine

-- the barge immediate (R254) ------------------------------------------------------------------------------------------------

def bargeZipDst (p : Packet) : Bool := bit (p.slot 2) 0
def bargeZipSrc (p : Packet) : Bool := bit (p.slot 2) 1
def bargeKind (p : Packet) : Nat := fld (p.slot 2) 2 2
def bargeLen (p : Packet) : Nat := fld (p.slot 2) 8 40

/-- Field bits of the barge immediate. -/
def bargeBits : Nat := 0xF + (2 ^ 40 - 1) * 256

/-- Bytes that the source and the destination of an untyped COPY take (R256). -/
def copySrcLen (p : Packet) : Nat := if bargeZipSrc p then zipSize (bargeLen p) else bargeLen p
def copyDstLen (p : Packet) : Nat := if bargeZipDst p then zipSize (bargeLen p) else bargeLen p

def copyTyped (p : Packet) : Bool := descShape (p.slot 0) != 0

def allFmts : List Nat := [0, 1, 2, 3, 4, 5, 6, 7]

-- registers (R255, R445) ------------------------------------------------------------------------------------------------------

/-- The accesses of a range of a die's window: one of each register's own width, and one of each 4 bytes that hold none. -/
def regSpan (val : Nat → Option (Nat × Nat)) : Nat → Nat → Nat → List (Nat × Nat)
  | 0, _, _ => []
  | k + 1, o, e =>
    if e ≤ o then []
    else
      let w := min (match val o with | some (n, _) => n | none => 4 - o % 4) (e - o)
      (o, w) :: regSpan val k (o + w) e

/-- Does a range split a register (R255)? -/
def splitsReg (s : State) (g : GAddr) (n : Nat) : Bool :=
  match windowOf g.off with
  | none => false
  | some (d, o) => (regSpan (regVal s d) n o (o + n)).any (fun x => match regVal s d x.1 with | some (w, _) => w != x.2 | none => false)

/-- Registers that a user session may read (R445). -/
def userReads (ses d o : Nat) : Bool :=
  decide (o < 0x18) || (d == 8 && (o / 4 * 4 == 0x100 || (decide (0x2000 + 16 * ses ≤ o) && decide (o < 0x2010 + 16 * ses))))

/-- Does a barge of a session lack the level for a range of registers (R445)? Ring registers are their session's page's. -/
def regDenied (s : State) (ses : Nat) (g : GAddr) (n : Nat) (written : Bool) : Bool :=
  match windowOf g.off with
  | none => false
  | some (d, o) =>
    (regSpan (regVal s d) n o (o + n)).any (fun x =>
      (ringAt d x.1).isSome || (!(privileged s ses) && (written || !(userReads ses d x.1))))

/-- The bytes that the accesses of a range read, and the state after them. -/
def readRegs (s : State) (g : GAddr) (n : Nat) : State × List Byte :=
  match windowOf g.off with
  | none => (s, zeros n)
  | some (d, o) =>
    (regSpan (regVal s d) n o (o + n)).foldl (fun (a : State × List Byte) x =>
      let r := busRead a.1 d x.1 x.2
      (r.1, a.2 ++ leBytes x.2 r.2)) (s, [])

/-- The accesses that write the bytes of a range. -/
def writeRegs (s : State) (w : SWrite) : State :=
  match windowOf w.tgt.off with
  | none => s
  | some (d, o) =>
    (regSpan (regVal s d) w.bytes.length o (o + w.bytes.length)).foldl (fun s x =>
      busWrite s .privMap d x.1 x.2 (leNat ((w.bytes.drop (x.1 - o)).take x.2))) s

/-- At its commit a barge writes the registers that it names (R7, R255). -/
def moveEff (s : State) (c : Cmd) : State := (c.writes.filter (fun w => w.tgt.tier == 3)).foldl writeRegs s

-- the source ------------------------------------------------------------------------------------------------------------------

/-- Bytes of a barge's source operand. -/
def moveSrcLen (c : Cmd) : Nat :=
  match opnd c 0 with
  | some o => tensorBytes o.addr.off o.sh
  | none => if c.pkt.op = 0x03 then 0 else copySrcLen c.pkt

/-- A barge reads the registers that its source names when it starts (R274), each once; the bytes stand in `aux` after a 1. -/
def takeRegs (s : State) (c : Cmd) : State × Cmd :=
  let g := descAddr (c.pkt.slot 0)
  if c.pkt.op ≠ 0x03 ∧ g.tier = 3 then
    let r := readRegs s g (moveSrcLen c)
    (r.1, { c with aux := 1 :: r.2.map BitVec.toNat })
  else (s, c)

/-- The coded image that a barge reads from a peer, whose coded bytes alone cross Towpath (R232). -/
def zipFar (s : State) (c : Cmd) : Option GAddr :=
  let g := resolve s c (descAddr (c.pkt.slot 0)) (moveSrcLen c)
  if bargeZipSrc c.pkt ∧ g.tier = 4 then some g else none

/-- The bytes of a barge's source. -/
def moveSrc (s : State) (c : Cmd) : List Byte :=
  let g := descAddr (c.pkt.slot 0)
  if g.tier = 3 then (c.aux.drop 1).map (BitVec.ofNat 8)
  else match zipFar s c with
    | none => cBytes s c g (moveSrcLen c)
    | some z => match farImage c z.peer z.off (bargeLen c.pkt) with | .ok bs => bs | .error _ => []

/-- TIER 4 reads of a barge. -/
def moveFar (s : State) (c : Cmd) (more : List (GAddr × Nat)) : List (Nat × Nat × Nat) :=
  let g := descAddr (c.pkt.slot 0)
  match zipFar s c with
  | none => farNeeds s c ((if g.tier = 3 then [] else [(g, moveSrcLen c)]) ++ more)
  | some z => (match farImage c z.peer z.off (bargeLen c.pkt) with | .ok _ => [] | .error rs => rs) ++ farNeeds s c more

-- runs ------------------------------------------------------------------------------------------------------------------------

/-- COPY: bytes, an image coded or decoded, or a view unchanged (R255, R256). -/
def copyRun (s : State) (c : Cmd) : Out :=
  let far := moveFar s c []
  if far ≠ [] then .need far
  else
    let dst := descAddr (c.pkt.slot 1)
    let src := moveSrc s c
    match opnd c 0, opnd c 1 with
    | some a, some o =>
      let ws := ((rawRows a.addr.off a.sh src).zipIdx.map (fun r => rawWrite o r.2 r.1)).flatten
      .done { Stg.none with
        writes := placeWrites s c ws,
        outs := [⟨1, o.addr.code, descShape (c.pkt.slot 1), rawSwatch a.addr.off a.sh src (List.range a.sh.vrows), (ws.map SWrite.bytes).flatten⟩] }
    | _, _ =>
      let len := bargeLen c.pkt
      let parts : List (Nat × List Byte) :=
        if bargeZipDst c.pkt then encodeImage (bargeKind c.pkt) src
        else if bargeZipSrc c.pkt then (match decodeImage (bargeKind c.pkt) len src with | .ok bs => [(0, bs)] | .error _ => [])
        else [(0, src)]
      .done { Stg.none with
        writes := placeWrites s c (parts.map (fun x => ⟨dst.plus x.1, x.2⟩)),
        outs := [outRaw 1 dst (parts.map Prod.snd).flatten] }

/-- CONVERT of a barge: each element in the destination's format (R255). -/
def convertRun (s : State) (c : Cmd) : Out :=
  match opnd c 0, opnd c 1 with
  | some a, some o =>
    let far := moveFar s c (if c.pkt.slot 3 ≠ 0 then suppliedRanges (descAddr (c.pkt.slot 3)) o.sh else [])
    if far ≠ [] then .need far
    else
      let els := (viewVals a.addr.off a.sh (moveSrc s c)).map (fun r => r.map (fun x =>
        if c.pkt.heritage then veHeritage 0x18 .nearest [x] else El.ofRes (veExact 0x18 .nearest [x])))
      let w := writeView o .nearest (suppliedPlane s c 3 o) els
      .done { Stg.none with writes := placeWrites s c w.writes, outs := [outOf c o w], ieee := w.fl }
  | _, _ => badStart

/-- FILL: the pattern, little-endian, from the first byte (R254). -/
def fillRun (s : State) (c : Cmd) : Out :=
  let bs := (List.replicate (bargeLen c.pkt / 4) (leBytes 4 (c.pkt.slot 3))).flatten
  let dst := descAddr (c.pkt.slot 1)
  .done { Stg.none with writes := placeWrites s c [⟨dst, bs⟩], outs := [outRaw 1 dst bs] }

-- acceptance and start ----------------------------------------------------------------------------------------------------------

/-- The slots of a transfer (R254). -/
def moveUses (p : Packet) (hs : List (Option Shape)) : Option (List Use) :=
  if p.op = 0x01 then
    if copyTyped p then some [.ten false allFmts, .ten true allFmts, .imm bargeBits, .zero, .zero]
    else some [.raw (copySrcLen p) false, .raw (copyDstLen p) true, .imm bargeBits, .zero, .zero]
  else if p.op = 0x02 then
    some [.ten false allFmts, .ten true allFmts, .imm bargeBits,
      if p.slot 3 = 0 then .zero else .raw (match hs.getD 1 none with | some h => h.rows * rowBlocks h | none => 0) false, .zero]
  else if p.op = 0x03 then some [.zero, .raw (bargeLen p) true, .imm bargeBits, .imm 0xFFFFFFFF, .zero]
  else none

/-- The rules of a transfer that need no memory read (R54, R63, R64, R255, R256). -/
def moveRules (s : State) (p : Packet) (hs : List (Option Shape)) : List Flt :=
  let far (i : Nat) : Bool := let t := (descAddr (p.slot i)).tier; t == 4 || t == 5
  let zip := bargeZipDst p || bargeZipSrc p
  let typed := p.op == 0x02 || (p.op == 0x01 && copyTyped p)
  let len (i : Nat) : Nat := match hs.getD i none with
    | some h => tensorBytes (descAddr (p.slot i)).off h
    | none => if i = 0 then copySrcLen p else if p.op = 0x03 then bargeLen p else copyDstLen p
  let split (i : Nat) : Bool := let g := descAddr (p.slot i); g.tier == 3 && splitsReg s g (len i)
  fltIf (fld p.opcode 0 2 != 0 || (p.heritage && (p.op == 0x03 || zip || (hs.filterMap id).any heritageShapeBad))) fltOpcode ++
  fltIf (zip && (typed || p.op == 0x03)) (fltSlot 2) ++
  fltIf (bargeZipDst p && bargeZipSrc p) (fltSlot 2) ++
  fltIf (zip && bargeKind p == 0) (fltSlot 2) ++
  fltIf (bargeZipDst p && !(far 1)) (fltSlot 1) ++
  fltIf (bargeZipSrc p && !(far 0)) (fltSlot 0) ++
  fltIf (if typed then bargeLen p != 0 else if p.op = 0x03 then bargeLen p % 4 != 0 else bargeLen p == 0) (fltSlot 2) ++
  fltIf (p.op != 0x03 && far 0 && far 1) (fltSlot 1) ++
  fltIf (p.op != 0x03 && split 0) (fltSlot 0) ++ fltIf (split 1) (fltSlot 1) ++
  (if typed then
    match hs.getD 0 none, hs.getD 1 none with
    | some a, some o =>
      fltIf (a.vrows != o.vrows || a.vcols != o.vcols || (p.op == 0x01 && a.fmt != o.fmt)) (fltSlot 1) ++
      fltIf (partBlock o) (fltSlot 1) ++ fltIf (p.op == 0x02 && p.slot 3 != 0 && !(narrow o.fmt4)) (fltSlot 3)
    | _, _ => fltIf true (fltSlot 1)
   else [])

/-- A barge starts unless its session lacks the level for the registers that it touches (R445), and takes what its source's
registers hold. -/
def moveStart (s : State) (c : Cmd) : StartRes :=
  let n1 := match opnd c 1 with
    | some o => tensorBytes o.addr.off o.sh
    | none => if c.pkt.op = 0x03 then bargeLen c.pkt else copyDstLen c.pkt
  let bad (i n : Nat) (w : Bool) : Bool := let g := descAddr (c.pkt.slot i); g.tier == 3 && regDenied s c.sess g n w
  if c.pkt.op ≠ 0x03 ∧ bad 0 (moveSrcLen c) false = true then .stop stDenied 0 []
  else if bad 1 n1 true then .stop stDenied 1 []
  else .go (takeRegs s c).1 (takeRegs s c).2

-- rows ------------------------------------------------------------------------------------------------------------------------

/-- COPY (R254). An image whose frame fails its check ends the barge (R233). -/
def execCopy (c : Nat) (s : State) : Host.Outcome State Fault Refusal :=
  match findCmd s c with
  | some x =>
    if x.phase = .running ∧ x.pkt.clsOp = 0x701 ∧ bargeZipSrc x.pkt = true ∧ moveFar s x [] = [] then
      match decodeImage (bargeKind x.pkt) (bargeLen x.pkt) (moveSrc s x) with
      | .error e => .next (zipEnd s x ((descAddr (x.pkt.slot 0)).plus e))
      | .ok _ => runOp 0x701 copyRun moveEff c s
    else runOp 0x701 copyRun moveEff c s
  | none => .next s

/-- CONVERT of class 0x7 (R254). -/
def execConvertBarge (c : Nat) (s : State) : Host.Outcome State Fault Refusal := runOp 0x702 convertRun moveEff c s
/-- FILL (R254). -/
def execFill (c : Nat) (s : State) : Host.Outcome State Fault Refusal := runOp 0x703 fillRun moveEff c s

end Sys2Proof.Machine
end

