-- ==== Sys2Proof/Machine/Watch.lean ====
section
/-! DEFINITION. Census, the dry-pound watch and the tensor watch set up and stopped: class 0xA (R66, R69, R78, R259, R433 to
R436). -/

set_option cleanup.letToHave false

namespace Sys2Proof.Machine

-- the operands of the first four operations are the model's: the manual names the ring, its entries, the layers, H and W,
-- and gives them no slots (notes/assumptions/25)

/-- Entries of the census ring that CENSUS_SETUP names. -/
def censusEntries (p : Packet) : Nat := p.slot 1
/-- First and last layer, H and W of WATCH_SETUP. -/
def watchFirst (p : Packet) : Nat := fld (p.slot 0) 0 16
def watchLast (p : Packet) : Nat := fld (p.slot 0) 16 16
def watchH (p : Packet) : Nat := if fld (p.slot 0) 32 16 = 0 then 100 else fld (p.slot 0) 32 16
def watchW (p : Packet) : Nat := if fld (p.slot 0) 48 16 = 0 then 64 else fld (p.slot 0) 48 16

/-- Entry counts of a ring in the form of R69. -/
def entriesOk (n : Nat) : Bool := (List.range 19).any (fun i => n == 2 ^ (i + 6))

/-- CENSUS_SETUP: the job's census ring (R66, R69). -/
def execCensusSetup (c : Nat) (s : State) : Host.Outcome State Fault Refusal :=
  runOp 0xA01 (fun _ _ => .done Stg.none)
    (fun s c => { s with census := tput s.census c.pkt.job ((localise s (descAddr (c.pkt.slot 0))).code, censusEntries c.pkt) }) c s

/-- CENSUS_STOP: the job has no census ring (R66). -/
def execCensusStop (c : Nat) (s : State) : Host.Outcome State Fault Refusal :=
  runOp 0xA02 (fun _ _ => .done Stg.none) (fun s c => { s with census := tdel s.census c.pkt.job }) c s

/-- Is a watch entry one of a job's layers in a range? -/
def inLayers (job first last : Nat) (k : Nat × Nat) : Bool := k.1 == job && decide (first ≤ k.2) && decide (k.2 ≤ last)

/-- WATCH_SETUP: threshold and window for each layer of a range; the streak starts again (R78). -/
def execWatchSetup (c : Nat) (s : State) : Host.Outcome State Fault Refusal :=
  runOp 0xA03 (fun _ _ => .done Stg.none) (fun s c =>
    let a := watchFirst c.pkt; let b := watchLast c.pkt; let job := c.pkt.job
    let new := (List.range (b + 1 - a)).map (fun i => ((job, a + i), (watchH c.pkt, watchW c.pkt)))
    { s with
      watch := s.watch.filter (fun w => !(inLayers job a b w.1)) ++ new,
      shards := s.shards.map (fun h => if inLayers job a b (h.2.job, h.2.layer) then (h.1, { h.2 with streak := 0 }) else h) }) c s

/-- WATCH_STOP: the watch of a range of layers is off (R78). -/
def execWatchStop (c : Nat) (s : State) : Host.Outcome State Fault Refusal :=
  runOp 0xA04 (fun _ _ => .done Stg.none) (fun s c =>
    { s with watch := s.watch.filter (fun w => !(inLayers c.pkt.job (watchFirst c.pkt) (watchLast c.pkt) w.1)) }) c s

-- the tensor watch (R433, R435) --------------------------------------------------------------------------------------------

def watchBlock (s : State) (c : Cmd) : Nat := (localise s (descAddr (c.pkt.slot 0))).code

/-- A watch block (R435). -/
def twatchOf (job block : Nat) (bs : List Byte) : TWatch :=
  { job := job, block := block, kind := fieldAt bs 0 1, first := fieldAt bs 2 2, last := fieldAt bs 4 2, oper := fieldAt bs 6 2,
    classes := fieldAt bs 8 2, slots := fieldAt bs 10 1, target := fieldAt bs 16 8, entries := fieldAt bs 24 4 }

/-- Bytes of a watch's target. -/
def targetBytes (w : TWatch) : Nat := if w.kind = 2 then 64 + 32 * (w.last + 1 - w.first) else 64 + 64 * w.entries

/-- A watch block's fields are valid (R433, R435). -/
def twatchOk (s : State) (w : TWatch) (bs : List Byte) : Bool :=
  decide (w.kind ≤ 2) && zeroAt bs 1 1 && decide (w.first ≤ w.last) && zeroAt bs 11 5 && zeroAt bs 28 36 &&
  (if w.kind = 2 then w.oper == 0xFFFF && w.classes == 0 && w.slots == 0 && w.entries == 0
    else w.classes &&& 0x2FE == w.classes && decide (w.slots < 32) && entriesOk w.entries) &&
  !(structRangeBad s [0, 5] none (if w.kind = 2 then 64 else 256) w.target (targetBytes w))

/-- Why a TWATCH_SETUP ends without commit. -/
def twatchRefusal (s : State) (c : Cmd) (bs : List Byte) : Option (Nat × Nat) :=
  let w := twatchOf c.pkt.job (watchBlock s c) bs
  if !(twatchOk s w bs) then some (stBad, badAt 0xFF 0)
  else if accessDenied s c (gaddrOf w.target) (targetBytes w) true true then some (stDenied, 0)
  else if w.kind = 2 then
    if s.twatch.any (fun x => x.job == w.job && x.kind == 2) then some (stDenied, 0) else none
  else if 4 ≤ (s.twatch.filter (fun x => x.job == w.job && decide (x.kind ≤ 1))).length then some (stDenied, 0)
  else none

/-- The 64 bytes of the block that a command named, as it read them. -/
def watchBytes (s : State) (c : Cmd) : List Byte := rdStruct (asRead s c) c (descAddr (c.pkt.slot 0)) 64

/-- What TWATCH_SETUP and TWATCH_STOP come to (R433 to R435). -/
def twatchRun (s : State) (c : Cmd) : Out :=
  match twatchRefusal s c (watchBytes s c) with | some r => .stop r.1 r.2 [] | none => .done Stg.none
def twatchStopRun (s : State) (c : Cmd) : Out :=
  if s.twatch.any (fun w => w.job == c.pkt.job && w.block == watchBlock s c) then .done Stg.none else .stop stBad (badAt 24 0) []

/-- TWATCH_SETUP: a watch of tensor outputs, or the job counter area, whose entries it makes zero (R433, R435). -/
def execTwatchSetup (c : Nat) (s : State) : Host.Outcome State Fault Refusal :=
  runOp 0xA08 twatchRun
    (fun s c =>
      let w := twatchOf c.pkt.job (watchBlock s c) (watchBytes s c)
      let s := { s with twatch := s.twatch ++ [w] }
      if w.kind = 2 then
        moduleWrite s c.sess c.pkt.job (gaddrOf w.target) (leBytes 8 s.time ++ zeros (targetBytes w - 8))
      else s) c s

/-- TWATCH_STOP: the watch that the block names ends (R434, R435). -/
def execTwatchStop (c : Nat) (s : State) : Host.Outcome State Fault Refusal :=
  runOp 0xA09 twatchStopRun
    (fun s c => { s with twatch := s.twatch.filter (fun w => !(w.job == c.pkt.job && w.block == watchBlock s c)) }) c s

/-- Slots of class 0xA. -/
def watchUses (p : Packet) : Option (List Use) :=
  if p.op = 1 then some [.raw (64 + 64 * censusEntries p) true, .imm 0xFFFFFFFF, .zero, .zero, .zero]
  else if p.op = 2 then some [.zero, .zero, .zero, .zero, .zero]
  else if p.op = 3 then some [.imm 0xFFFFFFFFFFFFFFFF, .zero, .zero, .zero, .zero]
  else if p.op = 4 then some [.imm 0xFFFFFFFF, .zero, .zero, .zero, .zero]
  else if p.op = 8 ∨ p.op = 9 then some [.raw 64 false, .zero, .zero, .zero, .zero]
  else none

/-- The rules of class 0xA that no state decides (R69, R78, R435). -/
def watchRules (p : Packet) : List Flt :=
  let g := descAddr (p.slot 0)
  if p.op = 1 then
    fltIf (!(g.tier == 0 || g.tier == 5) || g.off % 256 != 0) (fltSlot 0) ++ fltIf (!(entriesOk (censusEntries p))) (fltSlot 1)
  else if p.op = 3 then fltIf (decide (watchLast p < watchFirst p) || decide (10000 < watchH p)) (fltSlot 0)
  else if p.op = 4 then fltIf (decide (watchLast p < watchFirst p)) (fltSlot 0)
  else if p.op = 8 ∨ p.op = 9 then
    fltIf (!(g.tier == 0 || g.tier == 1) || g.off % 64 != 0) (fltSlot 0) ++ fltIf (p.opcode % 16 != 0) fltOpcode
  else []

end Sys2Proof.Machine
end

