-- ==== Sys2Proof/Machine/Service.lean ====
section
/-! DEFINITION. Checkpoints, firmware updates and attestation (R423, R481 to R488), what every class expects of a packet's slots
(R251, R253), and HOSTBUF_UNREG (R391). -/

set_option cleanup.letToHave false

namespace Sys2Proof.Machine

-- CHECKPOINT (R481 to R486) ---------------------------------------------------------------------------------------------------

/-- The header of a checkpoint descriptor (R481). -/
structure CkHdr where
  count   : Nat
  all     : Bool
  zip     : Bool
  restore : Bool
  tc      : Nat
  deriving DecidableEq, Repr

def ckHdrOf (bs : List Byte) : CkHdr := ⟨fieldAt bs 0 2, bit (fieldAt bs 2 1) 0, bit (fieldAt bs 2 1) 1, bit (fieldAt bs 2 1) 2, fieldAt bs 3 1⟩

/-- The descriptor as its command read it. -/
def ckHeader (s : State) (c : Cmd) : CkHdr := ckHdrOf (cBytes s c (descAddr (c.pkt.slot 0)) 64)
def ckEntry (s : State) (c : Cmd) (i : Nat) : List Byte := cBytes s c ((descAddr (c.pkt.slot 0)).plus (64 + 32 * i)) 32

/-- Local address of an entry's shard, its image and the bytes there (R482). -/
def ckShard (s : State) (e : List Byte) : Nat := lofs s (fieldAt e 0 8)
def ckImage (e : List Byte) : GAddr := gaddrOf (fieldAt e 8 8)
def ckSize (e : List Byte) : Nat := fieldAt e 16 8

/-- CHECKPOINT starts when its descriptor keeps R481 and R482, its shards are the job's, and its images may be reached. -/
def ckptStart (s : State) (c : Cmd) : StartRes :=
  let g := descAddr (c.pkt.slot 0)
  let hd := cBytes s c g 64
  let h := ckHdrOf hd
  let es := (List.range h.count).map (ckEntry s c)
  if h.count = 0 ∨ 4096 < h.count ∨ 7 < fieldAt hd 2 1 ∨ 6 < h.tc ∨ zeroAt hd 4 60 = false ∨
      structRangeBad s [0, 1] none 64 g.code (64 + 32 * h.count) = true then badIn 0
  else if es.any (fun e =>
      !(zeroAt e 30 2) || (tfind s.shards (ckShard s e)).isNone || (ckImage e).off % 256 != 0 ||
      !((ckImage e).tier == 4 || (ckImage e).tier == 5) || addrBad 15 (ckImage e).code (ckSize e)) then badIn 0
  else if es.any (fun e =>
      (match tfind s.shards (ckShard s e) with | some x => x.job != c.pkt.job | none => false) ||
      (localise s (ckImage e)).tier == 0 || accessDenied s c (ckImage e) (ckSize e) (!h.restore) true) then .stop stDenied 0 []
  else .go s c

/-- The planes of a shard in an image (R483): address, bytes, coded under ZIP or not. -/
def imagePlanes (h : Shard) : List (Nat × Nat × Bool) :=
  let n := h.rows * h.cols
  (if h.masterFp32 then [(h.master, 4 * n, true)]
   else
     let m := wholeShape h.masterFb h.rows h.cols
     [(h.master, 4 * n, true), (h.master + plane2 (gaddrOf h.master).off m, 2 * n, false)]) ++
  [(h.moment, 4 * n, true)] ++ (if h.factored then [(h.rowAcc, 4 * h.rows, true), (h.colAcc, 4 * h.cols, true)] else [])

/-- Where each plane lies in the image and the bytes it takes there: each begins on a 256-byte boundary (R483). -/
def imageLayout (zip : Bool) (h : Shard) : List (Nat × Nat) :=
  ((imagePlanes h).foldl (fun (a : List (Nat × Nat) × Nat) (p : Nat × Nat × Bool) =>
    let at_ := roundUp a.2 256
    let n := if zip && p.2.2 then zipSize p.2.1 else p.2.1
    (a.1 ++ [(at_, n)], at_ + n)) ([], 256)).1

/-- LENGTH of an image. -/
def imageLen (zip : Bool) (h : Shard) : Nat := (imageLayout zip h).foldl (fun _ p => p.1 + p.2) 256

/-- An image's bytes: what lies between planes and beyond the frames of slots is zero (notes/assumptions/33). -/
def imageBytes (s : State) (zip : Bool) (key : Nat) (h : Shard) : List Byte :=
  let body := ((imagePlanes h).zip (imageLayout zip h)).foldl (fun (acc : List Byte) (p : (Nat × Nat × Bool) × (Nat × Nat)) =>
    let src := rdKey s key (regionAt s p.1.1 p.1.2.1).off p.1.2.1
    let coded := if zip && p.1.2.2 then ((encodeImage 1 src).map (fun f => fitBytes 4352 f.2)).flatten else src
    fitBytes (p.2.1 - 256) acc ++ coded) []
  let len := imageLen zip h
  h.block ++ leBytes 8 s.time ++ leBytes 8 (crc64 body) ++ leBytes 8 len ++ leBytes 1 (b2n zip) ++ zeros 103 ++ body

/-- A free move engine of a die (R255). -/
def freeMove (s : State) (d : Nat) : Option Nat :=
  (List.range 16).find? (fun u => unitInService s (.move (d * 16 + u)) && !(underTest s (.move (d * 16 + u))) &&
    !(s.testing.any (fun r => r.unit == .move (d * 16 + u))) && !(s.cmds.any (fun x => inUse x && x.place == some ⟨d, u, 4⟩)))

/-- A shard copy ends with its entry's result and commits nothing. -/
def copyDone (s : State) (c : Cmd) (parent entry : Nat) (r : Nat × Nat × Nat) : State :=
  copyEnded (dropCmd (releaseRun s c) c.id) parent entry r

/-- The commit of a shard copy (R484, R485): the record of the shard, and for a restore its fields. -/
def shardCopyEff (s : State) (c : Cmd) : State :=
  match c.origin with
  | .shardCopy parent entry =>
    let a := shardAddr s c.pkt
    match tfind s.shards a with
    | none => s
    | some h =>
      let x := fun (i : Nat) => c.aux.getD i 0
      if x 0 = 1 then
        copyEnded { s with shards := tput s.shards a { h with image := some (x 1, h.version) } } parent entry (0, h.version, 0)
      else
        let s := zeroRegion s c h.gacc (4 * h.rows * h.cols)
        let h := { h with
          version := x 2, skips := x 3, fallbacks := x 4, ver0 := x 2, digest0 := x 5, ver1 := 0xFFFFFFFF, digest1 := 0, gradCount := 0,
          image := some (x 1, x 2) }
        copyEnded (putShard s a h) parent entry (0, x 2, 0)
  | _ => s

/-- A restore from the bytes of an image (R485): what it writes, or its cause of refusal. -/
def restoreWrites (s : State) (h : Shard) (img : List Byte) : Except Nat (List SWrite × Nat) :=
  let zip := bit (fieldAt img 152 1) 0
  let len := fieldAt img 144 8
  let same := fieldAt img 6 1 == h.wcFmt && (fieldAt img 7 1 == 1) == h.masterFp32 && fieldAt img 8 2 == h.rows && fieldAt img 10 2 == h.cols &&
    bit (fieldAt img 13 1) 0 == h.factored
  if !same then .error 3
  else if len ≠ imageLen zip h ∨ img.length < len ∨ crc64 ((img.take len).drop 256) ≠ fieldAt img 136 8 then .error 4
  else
    let parts := ((imagePlanes h).zip (imageLayout zip h)).map (fun (p : (Nat × Nat × Bool) × (Nat × Nat)) =>
      let raw := (img.drop p.2.1).take p.2.2
      if zip && p.1.2.2 then (match decodeImage 1 p.1.2.1 raw with | .ok bs => some (p.1.1, bs) | .error _ => none) else some (p.1.1, raw))
    if parts.any Option.isNone then .error 4
    else
      let ws := (parts.filterMap id).map (fun (p : Nat × List Byte) => SWrite.mk (regionAt s p.1 p.2.length) p.2)
      let m := wholeShape h.masterFb h.rows h.cols
      let hi := ((parts.filterMap id).map (fun (p : Nat × List Byte) => p.2)).getD 0 []
      let lo := ((parts.filterMap id).map (fun (p : Nat × List Byte) => p.2)).getD 1 []
      let ma := (gaddrOf h.master).off
      let tensor := if h.masterFp32 then hi else fitBytes (plane2 ma m) hi ++ lo
      let wc := encodeWorking h h.wc0 (viewVals ma m tensor)
      .ok (ws ++ wc.writes.map (fun w => { w with tgt := regionAt s w.tgt.code w.bytes.length }), crc64 wc.bytes)

/-- The bytes of an image that a restore has read; the reads that it still needs. -/
def imageRead (s : State) (c : Cmd) (g : GAddr) : Except (List (Nat × Nat × Nat)) (List Byte) :=
  if g.tier = 5 then
    let hd := memRead s.host g.off 256
    .ok (memRead s.host g.off (max 256 (min (fieldAt hd 144 8) (c.pkt.slots.getD 2 0))))
  else if !(received c (g.peer, g.off, 256)) then .error [(g.peer, g.off, 256)]
  else
    let hd := farExact c (g.peer, g.off, 256)
    let n := min (fieldAt hd 144 8) (c.pkt.slots.getD 2 0) - 256
    if received c (g.peer, g.off + 256, n) then .ok (hd ++ farExact c (g.peer, g.off + 256, n)) else .error [(g.peer, g.off + 256, n)]

/-- SHARD_COPY: a copy that CHECKPOINT issued starts on a move engine of the shard's die and runs (R484, R485). A copy whose
shard is busy, or that finds no engine or no room in a pound, waits. -/
def execShardCopy (c : Nat) (s : State) : Host.Outcome State Fault Refusal :=
  .next (match findCmd s c with
    | none => s
    | some x =>
      match x.origin with
      | .shardCopy parent entry =>
        match findCmd s parent with
        | none => s
        | some p =>
          let a := shardAddr s x.pkt
          let d := dieOfAddr a
          let e := ckEntry s p entry
          let g := ckImage e
          let hd := ckHeader s p
          match tfind s.shards a with
          | none => if x.phase = .staged ∨ x.phase = .committed then s else copyDone s x parent entry (2, 0, 5)
          | some h =>
            let key := jobKey s x.sess h.job
            let go (s : State) (x : Cmd) : State :=
              if hd.restore then
                match imageRead s x g with
                | .error rs => askReads s x rs
                | .ok img =>
                  if ckSize e < fieldAt img 144 8 then copyDone s x parent entry (2, 0, 1)
                  else match restoreWrites s h img with
                    | .error k => copyDone s x parent entry (2, 0, k)
                    | .ok (ws, dig) =>
                      stage shardCopyEff s x { Stg.none with
                        writes := ws, aux := [2, fieldAt e 8 8, fieldAt img 80 4, fieldAt img 112 4, fieldAt img 116 4, dig] }
              else
                stage shardCopyEff s x { Stg.none with writes := [⟨g, imageBytes s hd.zip key h⟩], aux := [1, fieldAt e 8 8] }
            if x.phase = .running then go s x
            else if x.phase ≠ .waiting ∨ shardBusy s x.id a = true ∨ (shardRegions h).any (regionBad s d) = true then s
            else
              let len := imageLen hd.zip h
              if !hd.restore && !hd.all && h.image == some (fieldAt e 8 8, h.version) then copyDone s x parent entry (1, h.version, 0)
              else if !hd.restore && decide (ckSize e < len) then copyDone s x parent entry (2, 0, 1)
              else if !hd.restore && decide (hbmPoundBytes s < 256 * ceilDiv len 256) then copyDone s x parent entry (2, 0, 2)
              else match (if hd.restore then none else (imagePlanes h).findSome? (fun q => poisonedIn s (regionAt s q.1 q.2.1).off q.2.1)) with
              | some q => copyDone (memError s (dieOfAddr q) 1 h.job 0xFFFF x.pkt.seq none (gLocal q).code) x parent entry (2, 0, 5)
              | none => match freeMove s d with
                | none => s
                | some u =>
                  if !hd.restore && g.tier == 5 && decide (poundFree s d true < 256 * ceilDiv len 256) then s
                  else
                    let y := { x with phase := .running, place := some ⟨d, u, 4⟩, runs := x.runs + 1, started := s.time,
                                      reserved := if hd.restore || g.tier == 4 then [] else [(d * 2 + 1, ceilDiv len 256)] }
                    go (putCmd s y) y
      | _ => s)

/-- What CHECKPOINT writes at its commit: the Module fields of every entry (R482). -/
def ckptEff (s : State) (c : Cmd) : State :=
  let g := localise s (descAddr (c.pkt.slot 0))
  (List.range (c.aux.length / 3)).foldl (fun s i =>
    wrLocal s (jobKey s c.sess c.pkt.job) (g.off + 64 + 32 * i + 24)
      (leBytes 4 (c.aux.getD (2 + 3 * i) 0) ++ leBytes 1 (c.aux.getD (1 + 3 * i) 0) ++ leBytes 1 (c.aux.getD (3 + 3 * i) 0))) s

/-- CHECKPOINT: it issues a shard copy for each entry, in order, and commits DONE when every copy has ended (R484). -/
def execCheckpoint (c : Nat) (s : State) : Host.Outcome State Fault Refusal :=
  .next (match findCmd s c with
    | none => s
    | some x =>
      if x.phase ≠ .running ∨ x.pkt.clsOp ≠ 0xF19 ∨ (match x.origin with | .ring _ => false | _ => true) = true then s
      else if x.aux = [] then
        let h := ckHeader s x
        let s := putCmd s { x with aux := 1 :: (List.replicate h.count [3, 0, 0]).flatten }
        (List.range h.count).foldl (fun s i =>
          let e := ckEntry s x i
          let g := gLocal (ckShard s e)
          issueOwn s (ownCmd s (.shardCopy x.id i) x.sess 0xF190 x.pkt.job 0xFFFF 0xFFFF (ownSeq s) [g.tier * 2 ^ 61 + g.off / 16, h.tc, ckSize e, 0, 0])) s
      else if s.cmds.any (copyOf x.id) then s
      else commitWith ckptEff s { x with phase := .staged })

-- FW_UPDATE (R487, R488) --------------------------------------------------------------------------------------------------------

def fwLive (p : Packet) : Bool := bit (p.slot 1) 0

/-- One FW_UPDATE runs at a time (R487). -/
def fwStart (s : State) (c : Cmd) : StartRes :=
  if s.cmds.any (fun x => x.id != c.id && x.pkt.clsOp == 0xF18 && (inUse x || x.phase == .committed)) then .wait else .go s c

/-- What becomes of a set of in-service dies whose Hamir cores load a live image (R488 step 4). -/
def pauseDies (s : State) : State := (diesUp s).foldl (fun s d => setDie s d { getDie s d with paused := true }) s

/-- FW_UPDATE: the object is verified and written to the slot that did not boot; the commit reverses the slot order, extends MR5
and begins the restart of the dies for a live image (R401, R405, R487, R488). `obj` is the object that slot 0 names, with the
outcome of its checks; `resumeFails` are the dies that fail to resume. -/
def execFwUpdate (c : Nat) (obj : SignedObj) (resumeFails : List Nat) (s : State) : Host.Outcome State Fault Refusal :=
  runOp 0xF18 (fun s c =>
      let live := fwLive c.pkt
      if objAccepted s obj = false then .stop stBad (badAt 0xFF 0) []
      else if live ∧ obj.kind ≠ 1 then .stop stBad (badAt 32 1) []
      else if live ∧ obj.level ≠ s.trust.imgLevel then .stop stBad (badAt 0xFF 0) []
      else .done { Stg.none with aux := b2n live :: obj.kind :: obj.svn :: resumeFails })
    (fun s c =>
      let k := obj.kind
      let s := { s with trust := { s.trust with slotOrder := s.trust.slotOrder.set k (!(s.trust.slotOrder.getD k false)) } }
      if fwLive c.pkt then
        let s := extendMr s 5 obj.hash
        pauseDies { s with trust := { s.trust with svns := s.trust.svns.set k obj.svn } }
      else s) c s

/-- Steps 4 and 5 of an update end: the dies resume, those that fail are fenced, and FW_UPDATED is raised (R488). -/
def fwFinish (s : State) (c : Cmd) : State :=
  let s := { s with dies := s.dies.map (fun d => (d.1, { d.2 with paused := false })) }
  let s := if c.aux.getD 0 0 = 1 then ((c.aux.drop 3).filter (fun d => decide (d < 8) && (getDie s d).up)).foldl (fun s d => fenceDie s d 9) s else s
  raiseFor s 0xF 0x33 false (cmdSes c) c.pkt.job 0xFFFF c.pkt.seq (c.aux.getD 1 0 + 65536 * (c.aux.getD 2 0)) 0 0

-- ATTEST (R423) -------------------------------------------------------------------------------------------------------------------

/-- Bytes 0 to 767 of the report. -/
def report (s : State) (c : Cmd) (nonce : List Byte) : List Byte :=
  let t := s.trust
  let x := getSes s c.sess
  fitBytes 768 (leBytes 2 1 ++ zeros 2 ++ leBytes 4 36816 ++ leBytes 2 s.cfg.peerId ++ leBytes 1 0x10 ++
    leBytes 1 (b2n t.dbgSticky + 2 * b2n t.owner.isSome + 4 * b2n x.ide + 8 * b2n s.domain.locked + 16 * b2n x.isSealed) ++
    leBytes 2 c.sess ++ leBytes 1 (b2n x.priv) ++ [0] ++ fitBytes 32 nonce ++ leBytes 8 s.time ++ leBytes 4 t.boots ++ leBytes 4 t.ownerEp ++
    fitBytes 48 x.th ++ ((t.svns.map (leBytes 2)).flatten) ++ ((t.floors.map (leBytes 2)).flatten) ++ leBytes 4 t.cfgSeq ++ leBytes 4 t.cfgFloor ++
    zeros 8 ++ ((t.mrs.map (fitBytes 48)).flatten) ++ fitBytes 48 (Config.sha384 Config.ikRsaPub) ++ fitBytes 48 (Config.sha384 Config.ikSlhPub) ++
    fitBytes 48 (t.owner.getD []) ++ fitBytes 32 (ascii "WTV8-2048") ++ fitBytes 48 (Config.sha384 Config.rkPub) ++ zeros 16)

/-- ATTEST: the report of the state at its commit, signed on both wharf dies (R423). -/
def execAttest (c : Nat) (s : State) : Host.Outcome State Fault Refusal :=
  runOp 0xF20 (fun s c =>
      let r := report s c (cBytes s c (descAddr (c.pkt.slot 1)) 32)
      let bs := r ++ fitBytes 384 (Config.signRsa r) ++ fitBytes 35664 (Config.signSlh r)
      .done { Stg.none with writes := placeWrites s c [⟨descAddr (c.pkt.slot 0), bs⟩], outs := [outRaw 0 (descAddr (c.pkt.slot 0)) bs] })
    noEffect c s

-- the slots and rules of every class (R251, R253) --------------------------------------------------------------------------------

/-- The slots of the operations of class 0xF that this file gives. -/
def serviceUses (p : Packet) : Option (List Use) :=
  if p.op = 0x18 then some [.raw 0x1000 false, .imm 1, .zero, .zero, .zero]
  else if p.op = 0x19 then some [.raw 64 false, .zero, .zero, .zero, .zero]
  else if p.op = 0x20 then some [.raw 36816 true, .raw 32 false, .zero, .zero, .zero]
  else none

def serviceRules (p : Packet) : List Flt :=
  let t (i : Nat) : Nat := (descAddr (p.slot i)).tier
  if p.op = 0x18 then fltIf (!(t 0 == 0 || t 0 == 5)) (fltSlot 0)
  else if p.op = 0x19 then fltIf (!(t 0 == 0 || t 0 == 1) || (descAddr (p.slot 0)).off % 64 != 0) (fltSlot 0)
  else if p.op = 0x20 then fltIf (!(t 0 == 0 || t 0 == 5)) (fltSlot 0) ++ fltIf (!(t 1 == 0 || t 1 == 5)) (fltSlot 1)
  else []

/-- How the slots of a packet are used; none for a reserved class or an operation not listed (R253). -/
def usesOf (p : Packet) (hs : List (Option Shape)) : Option (List Use) :=
  match p.cls with
  | 0x1 => meUses p hs
  | 0x2 => veUses p hs
  | 0x3 => fsetUses p
  | 0x4 => rootUses p
  | 0x5 => solveUses p
  | 0x6 => updUses p hs
  | 0x7 => if p.op < 0x10 then moveUses p hs else resUses p
  | 0x8 => lkUses p
  | 0x9 => collUses p
  | 0xA => watchUses p
  | 0xE => testUses p
  | 0xF =>
    if p.op ≤ 0x09 then jobUses p
    else if p.op ≤ 0x0B then hostbufUses p
    else if p.op = 0x10 then some modeUses
    else if p.op = 0x14 ∨ p.op = 0x15 then fenceUses p
    else if p.op = 0x1C then dumpUses p
    else serviceUses p
  | _ => none

/-- The faults of R252's check 9, in the order of the classes' own rules. -/
def rulesOf (s : State) (p : Packet) (hs : List (Option Shape)) : List Flt :=
  match p.cls with
  | 0x1 => meRules p hs
  | 0x2 => veRules p hs
  | 0x3 => fsetRules p
  | 0x4 => rootRules p
  | 0x5 => solveRules p
  | 0x6 => updRules p
  | 0x7 => if p.op < 0x10 then moveRules s p hs else resRules p
  | 0x8 => fltIf p.heritage fltOpcode ++ lkRules p
  | 0x9 => collRules p hs
  | 0xA => fltIf p.heritage fltOpcode ++ watchRules p
  | 0xE => fltIf p.heritage fltOpcode ++ testRules p
  | 0xF =>
    fltIf p.heritage fltOpcode ++
    (if p.op ≤ 0x09 then jobRules p
     else if p.op ≤ 0x0B then hostbufRules p
     else if p.op = 0x10 then modeRules p
     else serviceRules p)
  | _ => []

/-- Bytes of the operand of a slot. -/
def slotSpan (c : Cmd) (i : Nat) : Nat :=
  match usesOf c.pkt c.shapes with
  | none => 0
  | some us => match us[i]? with
    | some u => (match useRange c.pkt c.shapes i u with | some r => r.2.1 | none => 0)
    | none => 0

-- HOSTBUF_UNREG (R391) --------------------------------------------------------------------------------------------------------------

/-- Does an accepted command, or a structure still in use, name a buffer (R391)? -/
def bufInUse (s : State) (c : Cmd) (b : HostBuf) : Bool :=
  s.cmds.any (fun x => x.id != c.id && x.sess == b.sess && (List.range 5).any (fun i =>
    (descAddr (x.pkt.slot i)).tier == 5 && overlap (descAddr (x.pkt.slot i)).off (slotSpan x i) b.base (b.pages * 4096))) ||
  (hostStructures s).any (fun r => overlap r.1 r.2 b.base (b.pages * 4096))

/-- HOSTBUF_UNREG commits when nothing accepted names the buffer any more (R391). -/
def execHostbufUnreg (c : Nat) (s : State) : Host.Outcome State Fault Refusal :=
  runOp 0xF0B (fun s c =>
    match unregBuf s c with
    | some b => if bufInUse s c b then .hold c.aux else .done Stg.none
    | none => .done Stg.none)
    (fun s c => match unregBuf s c with
      | some b => releaseBufs s (fun x => decide (x = b))
      | none => s) c s

end Sys2Proof.Machine
end

