-- ==== Sys2Proof/Machine/Accept.lean ====
section
/-! DEFINITION. RING_FETCH: the fetch of an entry and the checks made when Nushaond accepts a command (R245 to R253, R262, R267,
R268, R276 steps 2 and 3, R280, R282, R290, R308, R413, R419, R533). -/

set_option cleanup.letToHave false

namespace Sys2Proof.Machine

-- the checks of BAD_PACKET (R252) ----------------------------------------------------------------------------------------------

/-- Check 1: a reserved class or operation, flags with no meaning, reserved bits of immediates and descriptors (R5, R246, R251,
R253). -/
def reservedFaults (p : Packet) (us : Option (List Use)) : List Flt :=
  match us with
  | none => [fltOpcode]
  | some us =>
    fltIf ([3, 6, 7, 8, 9, 10, 14, 15].contains p.cls && fld p.opcode 0 2 != 0) fltOpcode ++
    (us.zipIdx.map (fun (u : Use × Nat) =>
      match u.1 with
      | .imm f => fltIf (p.slot u.2 &&& f != p.slot u.2) (fltSlot u.2)
      | _ => fltIf (bit (p.slot u.2) 60) (fltSlot u.2))).flatten

/-- A lock field that breaks R247; `signal` for a field that may name an entry of the remote lock table, which has `locks`. -/
def lockBad (signal : Bool) (locks v : Nat) : Bool :=
  decide (0x4000 ≤ v) && v != 0xFFFF && !(signal && decide (v < 0x4000 + locks))

/-- Check 2: lock encodings, the TARGET of class 0x8 among them. -/
def lockFaults (s : State) (p : Packet) : List Flt :=
  let n := match findJob s p.job with | some j => if p.clsOp = 0xF01 then 0 else j.locks | none => 0
  fltIf (lockBad false n p.waitLock) (14, 0xFF) ++ fltIf (lockBad true n p.sigLock) (20, 0xFF) ++
  fltIf (p.cls == 8 && lockBad (p.op == 1) n (fld (p.slot 0) 0 16)) (fltSlot 0)

/-- Checks 3 to 5: lock fields that disagree with their amounts, and a reserved operator id. -/
def amountFaults (lock amount at_ : Nat) : List Flt := fltIf ((lock == 0xFFFF) != (amount == 0)) (at_, 0xFF)
def operatorFaults (p : Packet) : List Flt := fltIf (p.operator == 0xFFFE || p.operator == 0xFFFF) (6, 0xFF)

/-- Check 6: the JOB field breaks R533. -/
def jobFieldBad (p : Packet) : Bool :=
  if p.cls ≤ 0xA then p.job == 0
  else if p.cls = 0xE then p.job != 0
  else if p.op = 1 then p.job == 0 || p.job == 0xFFFF
  else if p.op = 2 ∨ p.op = 3 ∨ p.op = 4 ∨ p.op = 0x19 then p.job == 0
  else if p.op = 0x0A ∨ p.op = 0x0B ∨ p.op = 0x10 then false
  else p.job != 0

/-- The table from which a packet's shapes are read: none for a job that no JOB_SUBMIT has named. -/
def shapeJob (s : State) (p : Packet) : Option Job := if p.clsOp = 0xF01 then none else findJob s p.job

/-- Address of a shape entry (R249). -/
def shapeAt (s : State) (j : Job) (layer shape : Nat) : Nat := (localise s (gaddrOf j.shapeTab)).off + (layer * 1024 + shape) * 32

/-- Does a use name memory by a descriptor? -/
def Use.named : Use → Bool
  | .ten _ _ => true
  | .raw _ _ => true
  | .flight _ => true
  | _ => false

/-- Slots that hold descriptors, in order. -/
def namedSlots (us : List Use) : List Nat := (us.zipIdx.filter (fun (u : Use × Nat) => u.1.named)).map Prod.snd

/-- The bytes of the shape entries that a packet names; none where it names none or its job has no table. -/
def shapeBytes (s : State) (p : Packet) (us : List Use) : List (Option (List Byte)) :=
  (List.range 5).map (fun i =>
    match shapeJob s p with
    | none => none
    | some j =>
      if (namedSlots us).contains i ∧ descShape (p.slot i) ≠ 0 ∧ p.layer < j.layers then
        some (rdKey s j.memKey (shapeAt s j p.layer (descShape (p.slot i))) 32)
      else none)

/-- A poisoned unit in the shape entries that a packet names (R241). -/
def shapePoison (s : State) (p : Packet) (us : List Use) : Option Nat :=
  match shapeJob s p with
  | none => none
  | some j =>
    (List.range 5).findSome? (fun i =>
      if (namedSlots us).contains i ∧ descShape (p.slot i) ≠ 0 ∧ p.layer < j.layers then
        poisonedIn s (shapeAt s j p.layer (descShape (p.slot i))) 32
      else none)

/-- A shape is named beyond the table: job 0 and a job being created have none. Where JOB names no job at all, its refusal is
ACCESS_DENIED, and no table is judged (notes/assumptions/37). -/
def shapeBeyond (s : State) (p : Packet) (i : Nat) : Bool :=
  descShape (p.slot i) != 0 &&
  (match shapeJob s p with
   | some j => decide (j.layers ≤ p.layer)
   | none => p.job == 0 || p.clsOp == 0xF01)

/-- Shapes of the slots; an entry that breaks its rules gives none. -/
def shapesOf (bs : List (Option (List Byte))) : List (Option Shape) :=
  bs.map (fun b => match b with | some x => if shapeBad x then none else some (shapeOf x) | none => none)

/-- Check 7: descriptors (R22, R23, R248). -/
def addressFaults (s : State) (p : Packet) (us : List Use) (hs : List (Option Shape)) : List Flt :=
  ((namedSlots us).map (fun i =>
    let n := match useRange p hs i (us.getD i .zero) with | some r => r.2.1 | none => 1
    fltIf (shapeBeyond s p i || addrBad p.cls (descAddr (p.slot i)).code n) (fltSlot i))).flatten

/-- Check 8: shape entries and their formats (R39, R249). -/
def shapeFaults (us : List Use) (bs : List (Option (List Byte))) : List Flt :=
  (us.zipIdx.map (fun (u : Use × Nat) =>
    match bs.getD u.2 none with
    | none => []
    | some x =>
      let f := fieldAt x 0 1
      fltIf (shapeBad x || (match u.1 with
        | .ten w fs => fmtBad w f || !(fs.contains (fld f 0 4))
        | .flight fs => fmtBad false f || !(fs.contains (fld f 0 4))
        | _ => false)) (fltSlot u.2))).flatten

/-- Core-store slots that a packet names absolutely (R30), with their slots. -/
def coresNamed (p : Packet) (us : List Use) : List (Nat × Nat) :=
  ((namedSlots us).filter (fun i => (descAddr (p.slot i)).tier == 2 && decide (coreBase ≤ (descAddr (p.slot i)).off))).map
    (fun i => (i, ((descAddr (p.slot i)).off - coreBase) / 0x200000))

/-- Slots of two different cores (R30). -/
def coreFaults (p : Packet) (us : List Use) : List Flt :=
  if p.cls = 1 ∨ p.cls = 2 then
    match coresNamed p us with
    | [] => []
    | a :: r => match r.find? (fun b => b.2 != a.2) with | some b => [fltSlot b.1] | none => []
  else []

/-- Check 9: the rules of the operation. Slots not used are all-zero; a typed slot names a shape and an untyped one none. -/
def operationFaults (s : State) (p : Packet) (us : List Use) (hs : List (Option Shape)) : List Flt :=
  let known := (namedSlots us).all (fun i => descShape (p.slot i) == 0 || (hs.getD i none).isSome)
  (us.zipIdx.map (fun (u : Use × Nat) =>
    let h := descShape (p.slot u.2)
    fltIf (match u.1 with
      | .zero => p.slot u.2 != 0
      | .ten _ _ => h == 0
      | .flight _ => h == 0
      | .raw _ _ => h != 0
      | .imm _ => false) (fltSlot u.2))).flatten ++
  coreFaults p us ++ (if known then rulesOf s p hs else [])

/-- The figure of a command checked at acceptance exceeds the job's CMD_CAP (R308); figures in cycles at 1.8 GHz. A heritage
command runs at one eighth of the rate (R62; notes/assumptions/38). -/
def capBad (s : State) (p : Packet) (hs : List (Option Shape)) : Bool :=
  match shapeJob s p with
  | none => false
  | some j =>
    let cap := (if j.cap = 0 then 250 else j.cap) * 1800
    let slow := if p.heritage then 8 else 1
    if p.cls = 1 then decide (cap < slow * meFigure p hs)
    else if p.cls = 2 then let f := veFigure p hs; decide (cap * f.2 < slow * f.1)
    else if p.cls = 7 ∧ p.op < 0x10 then
      let n := max (match hs.getD 0 none with | some h => tensorBytes (descAddr (p.slot 0)).off h | none => 0)
        (match hs.getD 1 none with | some h => tensorBytes (descAddr (p.slot 1)).off h | none => bargeLen p)
      decide (cap < slow * (ceilDiv n 300 + 64))
    else false

/-- Check 10: another accepted command of the same job carries the SEQ (R252). -/
def seqTaken (s : State) (sess : Nat) (p : Packet) : Bool :=
  s.cmds.any (fun x => x.pkt.job == p.job && x.pkt.seq == p.seq && (match x.origin with | .ring _ => true | _ => false) &&
    (p.job != 0 || x.sess == sess))

/-- The fault of lowest offset among those of one check (R271). -/
def lowest (fs : List Flt) : Option Flt := fs.foldl (fun b f => match b with | none => some f | some x => if f.1 < x.1 then some f else b) none

/-- The first check of BAD_PACKET that a packet fails. -/
def packetFault (s : State) (sess : Nat) (p : Packet) (us : Option (List Use)) (bs : List (Option (List Byte)))
    (hs : List (Option Shape)) : Option Flt :=
  let u := us.getD []
  [reservedFaults p us, lockFaults s p, amountFaults p.waitLock p.waitThresh 14, amountFaults p.sigLock p.sigInc 20,
    operatorFaults p, fltIf (jobFieldBad p) (2, 0xFF), addressFaults s p u hs, shapeFaults u bs, operationFaults s p u hs,
    fltIf (capBad s p hs) fltOpcode, fltIf (seqTaken s sess p) (8, 0xFF)].findSome? lowest

-- ACCESS_DENIED and EPOCH_STALE --------------------------------------------------------------------------------------------------

/-- Operations that only a privileged session may use (R419). -/
def needsPriv (p : Packet) : Bool := p.cls == 0xE || (p.cls == 0xF && [0x14, 0x15, 0x18, 0x1C].contains p.op)

/-- A lock that a packet names is not its job's, or lies on a fenced die (R252, R476). -/
def lockDenied (s : State) (job v : Nat) : Bool :=
  decide (v < 0x4000) && ((getLock s v).job != job || (getDie s (v / 2048)).fenced)

/-- An operand names memory of a fenced die (R476) or the core store of a fenced core (R474). -/
def fencedAccess (s : State) (g : GAddr) (n : Nat) : Bool :=
  let g := localise s g
  decide (g.tier < 3) && !(g.tier == 2 && decide (g.off < 0x180000)) &&
  ((List.range 8).any (fun d => touchesDie d g.off n && (getDie s d).fenced) ||
    (g.tier == 2 && (let k := (g.off - coreBase) / 0x200000; bit (getDie s (k / 64)).coreFence (k % 64))))

/-- Operations that decide themselves which host memory they may name (R390, R391, R448). -/
def judgesOwn (p : Packet) : Bool := p.cls == 0xF && [0x0A, 0x0B, 0x1C].contains p.op

/-- The DETAIL of an ACCESS_DENIED at acceptance (R252, R271). -/
def deniedAt (s : State) (c : Cmd) (us : List Use) : Option Nat :=
  let p := c.pkt
  let j := findJob s p.job
  if p.clsOp ≠ 0xF01 ∧ p.job ≠ 0 ∧ (match j with | some j => j.sess != c.sess | none => true) = true then some 0xFE
  else if p.clsOp ≠ 0xF01 ∧ (match j with | some j => j.st == .ending | none => false) = true ∧
      ¬(p.cls = 0xF ∧ (p.op = 2 ∨ p.op = 3 ∨ p.op = 4)) then some 0xFE
  else if needsPriv p && !(privileged s c.sess) then some 0xFE
  else if lockDenied s p.job p.waitLock || lockDenied s p.job p.sigLock then some 0xFF
  else if p.cls == 8 && lockDenied s p.job (fld (p.slot 0) 0 16) then some 0
  else
    (namedSlots us).find? (fun i =>
      match useRange p c.shapes i (us.getD i .zero) with
      | some (g, n, w) => fencedAccess s g n || (!(judgesOwn p) && accessDenied s c g n w false)
      | none => false)

-- acceptance ------------------------------------------------------------------------------------------------------------------------

/-- Descriptor slots with a lent address of the module's own taken for the TIER 0 address (R24). -/
def ownSlots (s : State) (p : Packet) (us : List Use) : List Nat :=
  (List.range 5).map (fun i =>
    let x := p.slot i
    if (us.getD i .zero).named && !(bit x 60) && (descAddr x).tier == 4 && (descAddr x).peer == s.cfg.peerId then x % 2 ^ 48 else x)

/-- The command's claim at its acceptance (R282): granted at once, or it waits in the queue. -/
def claimOrQueue (s : State) (c : Cmd) : State :=
  if c.pkt.waitThresh = 0 then s
  else
    let k := getLock s c.pkt.waitLock
    if k.queue = [] ∧ k.setPending = false ∧ c.pkt.waitThresh ≤ k.avail then grantClaim s c.pkt.waitLock c.id c.pkt.waitThresh
    else
      let s := setLock s c.pkt.waitLock { k with queue := k.queue ++ [c.id] }
      putCmd s (beginArrivalStall s c)

/-- The context of a command exists from the first command of its job fetched from its ring (R290). -/
def makeCtx (s : State) (sess job ring : Nat) : State :=
  match findJob s job with
  | none => s
  | some j =>
    if j.sess = sess ∧ !(s.ctxs.any (fun x => x.job == job && x.ring == ring)) then { s with ctxs := s.ctxs ++ [⟨job, ring, [], []⟩] }
    else s

/-- A command as it stands when it is fetched. -/
def fetched (s : State) (r : Nat) (p : Packet) : Cmd :=
  { ownCmd s (.ring r) (getRing s r).bind p.opcode p.job p.layer p.operator p.seq p.slots with pkt := p }

/-- Nushaond accepts a fetched command or completes it at once (R252, R276 steps 2 and 3). -/
def acceptCmd (s : State) (r : Nat) (p : Packet) : State :=
  let sess := (getRing s r).bind
  let s := makeCtx s sess p.job r
  let c0 := fetched s r p
  let s := { s with cmds := s.cmds ++ [c0], nextId := s.nextId + 1 }
  let u0 := usesOf p []
  let bs := shapeBytes s p (u0.getD [])
  let hs := shapesOf bs
  let us := usesOf p hs
  let c := { c0 with shapes := hs }
  let p := { p with slots := ownSlots s p (us.getD []) }
  let c := { c with pkt := p }
  match (if (lowest (reservedFaults p us)).isSome then none else shapePoison s p (us.getD [])) with
  | some unit => eccEnd s c0 unit
  | none =>
    match packetFault { s with cmds := s.cmds.filter (fun x => !(x.id == c.id)) } sess p us bs hs with
    | some f => endCmd s c0 stBad (badAt f.1 f.2)
    | none =>
      match deniedAt s c (us.getD []) with
      | some d => endCmd s c0 stDenied d
      | none =>
        if epochAhead s p < 0 then endCmd s c0 stStale 0
        else if p.waitThresh ≠ 0 ∧ 64 ≤ (getLock s p.waitLock).queue.length then
          endCmd (raiseCmd s c 0x14 p.waitLock 0 0) c0 stBad (badAt 14 0xFF)
        else
          let s := putCmd s c
          let s := traceRec s (r / 16) (trCmd s c 0 1 r)
          claimOrQueue s c

-- the fetch -------------------------------------------------------------------------------------------------------------------------

/-- Does the module fetch from a ring now (R268, R477, R488)? -/
def fetches (s : State) (r : Nat) : Bool :=
  let x := getRing s r
  ready s && x.enable && x.active && decide (x.bind < 64) && x.head != x.tail && (getDie s (r / 16)).up && !(getDie s (r / 16)).paused &&
  decide ((s.cmds.filter (fun c => match c.origin with | .ring _ => true | _ => false)).length < 131072)

/-- RING_FETCH: the module fetches the entry at RING_HEAD and accepts the command or completes it (R268, R276). An entry that a
CMD_ABORT marked ends ABORTED (R262); one that cannot be fetched is never executed (R267, R413). -/
def execRingFetch (ring : Nat) (s : State) : Host.Outcome State Fault Refusal :=
  .next (
    let x := getRing s ring
    if fetches s ring = false then s
    else if replySpace x = false then s
    else match ringEntryOf s ring x.head with
      | .unusable => ringFault s ring 0
      | .badTag => raiseFor (ringFault s ring 0) (ring / 16) 0x1C false (some x.bind) 0xFFFF 0xFFFF 0 (ring + x.bind * 65536) 0 0
      | .packet bs =>
        let p := packetOf bs
        let s := setRing s ring { x with
          head := (x.head + 1) % 2 ^ 32, inFlight := x.inFlight + 1, marks := without x.marks x.head }
        if x.marks.contains x.head then
          let c := fetched s ring p
          endCmd { s with cmds := s.cmds ++ [c], nextId := s.nextId + 1 } c stAborted 0
        else acceptCmd s ring p)

end Sys2Proof.Machine
end

