-- ==== Sys2Proof/Machine/Schedule.lean ====
section
/-! DEFINITION. COMMAND_START: readiness, placement, start order, the checks made at start, pound reservations, and debt commands
(R141, R144, R216, R217, R229, R236, R237, R241, R274, R300 to R303, R308, R309, R326, R327, R414). -/

set_option cleanup.letToHave false

namespace Sys2Proof.Machine

-- engines ----------------------------------------------------------------------------------------------------------------------------

/-- The engine that a command needs, in the codes of `Place.kind`, with 7 for a VE, which runs beside the MEs of its core (R302). -/
def engineOf (p : Packet) : Nat :=
  if p.cls = 1 then (if p.op = 0x0C ∨ p.op = 0x0D ∨ p.op = 0x0E then 2 else 0)
  else if p.cls = 2 then 7
  else if p.cls = 3 ∨ p.cls = 8 then 2
  else if p.cls = 4 ∨ p.cls = 5 then 3
  else if p.cls = 6 then (if p.op ≤ 3 then 1 else if p.op ≤ 9 then 2 else 4)
  else if p.cls = 7 then 4
  else if p.cls = 9 then 5
  else 6

def placeKind (k : Nat) : Nat := if k = 7 then 0 else k

/-- Units of an engine on a compute die: cores, clusters, root engines, move engines. -/
def unitsOf (k : Nat) : Nat := if k = 1 then 4 else if k = 3 then 8 else if k = 4 then 16 else 64

/-- The place of a command that waits for the first root engine of its die to be free (R144). -/
def anyRoot : Nat := 0xFF

/-- The hardware units behind a unit of an engine. -/
def hwUnits (d k u : Nat) : List HwUnit :=
  if k = 1 then (List.range 16).map (fun i => .core (d * 64 + u * 16 + i))
  else if k = 3 then [.root (d * 8 + u)]
  else if k = 4 then [.move (d * 16 + u)]
  else [.core (d * 64 + u)]

def clusterOf (k u : Nat) : Nat := if k = 1 then u else if k = 3 then u / 2 else if k = 4 then u / 4 else u / 16

/-- In service and not draining (R301); a cluster is while one of its cores is (R474). -/
def unitUsable (s : State) (d k u : Nat) : Bool :=
  let us := hwUnits d k u
  us.any (unitInService s) && us.all (fun x => !(underTest s x))

/-- Is a unit's engine taken by a command (R302)? -/
def engineBusy (s : State) (d k u : Nat) : Bool :=
  s.cmds.any (fun x => inUse x && x.place == some ⟨d, u, placeKind k⟩ && engineOf x.pkt == k)

/-- Commands placed on or running on a unit's engine. -/
def engineLoad (s : State) (d k u : Nat) : Nat :=
  (s.cmds.filter (fun x => (inUse x || x.phase == .placed) && x.place == some ⟨d, u, placeKind k⟩ && engineOf x.pkt == k)).length

-- contexts ---------------------------------------------------------------------------------------------------------------------------

/-- The context to which a command belongs (R290). -/
def ctxId (s : State) (c : Cmd) : Nat :=
  match c.origin with
  | .ring r => r
  | .refresh a _ _ => match tfind s.fsets a with | some f => f.ctx | none => 0xFF
  | .promotion k _ => match tfind s.pfs k with | some p => p.ctx | none => fld (c.pkt.slot 1) 0 8
  | .shardCopy p _ => match findCmd s p with | some x => ctxOf x | none => 0xFF

/-- The priority of a command: its context's, or what a debt command takes from its waiter (R291, R309). -/
def prioOf (s : State) (c : Cmd) : Nat := if c.debt then c.debtPrio else ctxPrio s c.pkt.job (ctxId s c)

/-- Is a command's job held by a suspension or a trap (R297)? Nushaond runs class 0xF at once; a suspension holds what runs on
compute dies, but no debt command. -/
def jobHeld (s : State) (c : Cmd) : Bool :=
  match findJob s c.pkt.job with
  | none => false
  | some j => match j.st with
    | .running | .ending => false
    | .trapped => c.pkt.cls != 0xF
    | .suspended tr => if tr then c.pkt.cls != 0xF else !c.debt && (engineOf c.pkt != 5 && engineOf c.pkt != 6)

/-- Is a context suspended on some die? -/
def ctxOut (s : State) (c : Cmd) : Bool := (List.range 8).any (fun d => ctxSuspended s c.pkt.job (ctxId s c) d)

-- readiness --------------------------------------------------------------------------------------------------------------------------

/-- A command is ready when its claim is granted and its epoch is reached (R303). -/
def cmdReady (s : State) (c : Cmd) : Bool :=
  (c.phase == .waiting || c.phase == .placed) && (c.claimed || c.pkt.waitThresh == 0) && epochAhead s c.pkt == 0 &&
  (match c.origin with | .ring _ => true | .refresh _ _ _ => true | _ => false)

-- placement (R300, R301, R326) -----------------------------------------------------------------------------------------------------------

/-- The operands of a command that name memory: slot, address, bytes, written. -/
def operands (c : Cmd) : List (Nat × GAddr × Nat × Bool) :=
  match c.origin, usesOf c.pkt c.shapes with
  | .ring _, some us => us.zipIdx.filterMap (fun (u : Use × Nat) => (useRange c.pkt c.shapes u.2 u.1).map (fun r => (u.2, r)))
  | _, _ => []

/-- Does a command read what stands in an operand? An accumulated product reads its output too (R85). -/
def readsIt (c : Cmd) (o : Nat × GAddr × Nat × Bool) : Bool := !o.2.2.2 || (c.pkt.cls == 1 && accOf c.pkt && o.1 == 2)

/-- Input bytes that the basin or the HBM of a die serves (R301). -/
def inputsOn (s : State) (c : Cmd) (d tier : Nat) : Nat :=
  ((operands c).filter (readsIt c)).foldl (fun a o =>
    let g := (served s (localise s o.2.1) o.2.2.1).1
    if g.tier = tier ∧ dieOfAddr g.off = d then a + o.2.2.1 else a) 0

/-- The lock whose die runs a class 0x8 command: its TARGET, or for LK_NOP the lock that the packet waits on or signals. -/
def lockNamed (c : Cmd) : Option Nat := [lkTarget c, c.pkt.waitLock, c.pkt.sigLock].find? (fun v => decide (v < 0x4000))

def ringDie (c : Cmd) : Nat := match c.origin with | .ring r => r / 16 | _ => 0

/-- The compute die that a command's own rules name (R30, R98, R112, R144, R175, R255, R300). Where a command names both a
flight and an absolute core-store slot of another die, R30 and R98 cannot both hold: the flight's die has it (DESIGN CHOICE,
notes/assumptions/115). -/
def fixedDie (s : State) (c : Cmd) : Option Nat :=
  let p := c.pkt
  let at_ (i : Nat) : GAddr := localise s (descAddr (p.slot i))
  let local_ (g : GAddr) : Option Nat :=
    if g.tier < 3 ∧ ¬(g.tier = 2 ∧ g.off < 0x180000) then some (dieOfAddr g.off)
    else if g.tier = 3 then (match windowOf g.off with | some (d, _) => if d < 8 then some d else none | none => none)
    else none
  match c.origin with
  | .refresh a _ _ => some (dieOfAddr a)
  | _ =>
    if p.cls = 1 ∨ p.cls = 2 then
      match flightSlot p, coresNamed p ((usesOf p c.shapes).getD []) with
      | some i, _ => some (dieOfAddr (at_ i).off)
      | none, k :: _ => some (k.2 / 64)
      | none, [] => none
    else if p.cls = 3 then some (dieOfAddr (at_ 0).off)
    else if p.cls = 6 then
      if p.op ≤ 8 then some (dieOfAddr (at_ 0).off)
      else if p.op = 0x10 then local_ (at_ 1)
      else if p.op = 0x11 then local_ (localise s (gaddrOf (fieldAt (rdKey s (jobKey s c.sess p.job) (at_ 0).off 64) 8 8)))
      else none
    else if p.cls = 7 then
      if p.op < 0x10 then (match local_ (at_ 1) with | some d => some d | none => match local_ (at_ 0) with | some d => some d | none => some (ringDie c))
      else some (dieOfAddr (at_ 0).off)
    else if p.cls = 8 then some (match lockNamed c with | some l => l / 2048 | none => ringDie c)
    else none

/-- The core that a command of class 0x1 or 0x2 names by an absolute core-store slot (R30), on the flight's die where it
names a flight. -/
def fixedCore (c : Cmd) : Option Nat :=
  if c.pkt.cls = 1 ∨ c.pkt.cls = 2 then
    (((coresNamed c.pkt ((usesOf c.pkt c.shapes).getD [])).head?).filter (fun k =>
      match flightSlot c.pkt with | some i => k.2 / 64 == dieOfAddr (descAddr (c.pkt.slot i)).off | none => true)).map (fun k => k.2 % 64)
  else none

/-- The branch of a command's layer and its number (R325, R326). -/
def branchOfCmd (s : State) (c : Cmd) : Option (Nat × Branch) :=
  match findJob s c.pkt.job with
  | none => none
  | some j => (j.branches.zipIdx.find? (fun (b : Branch × Nat) => decide (b.1.first ≤ c.pkt.layer) && decide (c.pkt.layer ≤ b.1.last))).map
      (fun b => (b.2, b.1))

/-- Has a branch a ready command that has not started (R326)? -/
def branchReady (s : State) (job : Nat) (b : Branch) : Bool :=
  s.cmds.any (fun x => x.pkt.job == job && decide (b.first ≤ x.pkt.layer) && decide (x.pkt.layer ≤ b.last) && cmdReady s x)

/-- May a command run on a cluster of the module (R301, R326)? -/
def clusterOk (s : State) (c : Cmd) (cl : Nat) : Bool :=
  match findJob s c.pkt.job with
  | none => true
  | some j =>
    bit j.clusters cl &&
    (match branchOfCmd s c with
     | none => true
     | some (_, b) => bit b.clusters cl || (j.share && j.branches.any (fun x => bit x.clusters cl && !(branchReady s j.id x))))

/-- Units of a die on which a command may be placed (R301). -/
def eligibleUnits (s : State) (c : Cmd) (d : Nat) : List Nat :=
  let k := engineOf c.pkt
  let die := getDie s d
  if die.up = false ∨ die.draining.isSome = true ∨ die.paused = true ∨
      (!c.debt && ctxSuspended s c.pkt.job (ctxId s c) d) = true then []
  else (List.range (unitsOf k)).filter (fun u =>
    unitUsable s d k u && (k == 3 || k == 4 || c.pkt.cls == 8 || clusterOk s c (d * 4 + clusterOf k u)) &&
    (match fixedCore c with | some x => u == x | none => true))

/-- The least of a list under a measure; the first of equals. -/
def leastBy (f : Nat → Nat) : List Nat → Option Nat
  | [] => none
  | x :: r => some (r.foldl (fun b y => if f y < f b then y else b) x)

/-- The die of a command placed by residency: most input bytes in its basin, then in its HBM, then the fewest queued commands, then
the lowest number (R301). -/
def residencyDie (s : State) (c : Cmd) : Option Nat :=
  let k := engineOf c.pkt
  let ds := (List.range 8).filter (fun d => !(eligibleUnits s c d).isEmpty)
  let most (f : Nat → Nat) (xs : List Nat) : List Nat := let m := xs.foldl (fun a d => max a (f d)) 0; xs.filter (fun d => f d == m)
  let ds := most (fun d => inputsOn s c d 0) (most (fun d => inputsOn s c d 1) ds)
  leastBy (fun d => (eligibleUnits s c d).foldl (fun a u => a + engineLoad s d k u) 0 + (if k = 3 then engineLoad s d k anyRoot else 0)) ds

/-- Where a ready command is placed now; none where no unit is eligible (R301). -/
def placeFor (s : State) (c : Cmd) : Option Place :=
  let k := engineOf c.pkt
  if k = 5 then some ⟨8, 0, 5⟩
  else if k = 6 then some ⟨0xF, 0, 6⟩
  else
    match (match fixedDie s c with | some d => some d | none => residencyDie s c) with
    | none => none
    | some d =>
      match leastBy (engineLoad s d k) (eligibleUnits s c d) with
      | none => none
      | some u => some ⟨d, if k = 3 then anyRoot else u, placeKind k⟩

-- start order (R144, R302, R327) ---------------------------------------------------------------------------------------------------------

/-- The virtual stage of a command's layer: its branch and the stage within it (R327). -/
def stageOf (s : State) (c : Cmd) : Nat :=
  match branchOfCmd s c with
  | none => 0
  | some (i, b) =>
    let parts := splitRem (b.last + 1 - b.first) b.stages
    let n := (parts.foldl (fun (a : Nat × Nat × Bool) x =>
      if a.2.2 then a else if c.pkt.layer - b.first < a.2.1 + x then (a.1, a.2.1, true) else (a.1 + 1, a.2.1 + x, false)) (0, 0, false)).1
    8 * (i + 1) + n

def engineKey (d k u : Nat) : Nat := d * 65536 + k * 1024 + u
def getEngine (s : State) (i : Nat) : EngineRegs := tget EngineRegs.rest s.engines i

/-- Serials of the latest starts of a command's job, and of its virtual stage, on an engine; 0 for none. -/
def lastStarts (s : State) (key : Nat) (c : Cmd) : Nat × Nat :=
  (getEngine s key).served.foldl (fun a e =>
    if e.1.1 = c.pkt.job then (max a.1 e.2, if e.1.2 = stageOf s c then max a.2 e.2 else a.2) else a) (0, 0)

/-- Does one command start before another on an engine (R302)? -/
def startsBefore (s : State) (key : Nat) (a b : Cmd) : Bool :=
  let f (c : Cmd) : List Nat := let l := lastStarts s key c; [1 - b2n c.debt, prioOf s c, l.1, l.2, c.id]
  let rec lt : List Nat → List Nat → Bool
    | x :: xs, y :: ys => decide (x < y) || (x == y && lt xs ys)
    | _, _ => false
  lt (f a) (f b)

/-- Commands placed for the same engine that could start now. -/
def rivals (s : State) (c : Cmd) (p : Place) : List Cmd :=
  s.cmds.filter (fun x => x.id != c.id && x.phase == .placed && x.place == some p && engineOf x.pkt == engineOf c.pkt && !x.parked &&
    cmdReady s x && !(jobHeld s x) && !(startHeld s x))

/-- Commands in the root queue of a die that are ready and stand unplaced, as a refresh does from its issue or its kill on (R144). -/
def queuedRoots (s : State) (c : Cmd) (p : Place) : List Cmd :=
  s.cmds.filter (fun x => x.id != c.id && x.phase == .waiting && s.queueRe.contains x.id && engineOf x.pkt == 3 && cmdReady s x &&
    !(jobHeld s x) && placeFor s x == some p)

/-- The unit on which a placed command starts, if its engine is free and no command comes before it (R144, R302). -/
def startUnit (s : State) (c : Cmd) (p : Place) : Option Nat :=
  let k := engineOf c.pkt
  if k = 2 ∨ k = 5 ∨ k = 6 then some p.unit
  else if k = 3 then
    let before (x : Cmd) : Bool := (x.debt && !c.debt) || (x.debt == c.debt && decide (s.queueRe.idxOf x.id < s.queueRe.idxOf c.id))
    if (rivals s c p ++ queuedRoots s c p).any before then none
    else (List.range 8).find? (fun u => unitUsable s p.die 3 u && !(engineBusy s p.die 3 u))
  else if engineBusy s p.die k p.unit || (rivals s c p).any (fun x => startsBefore s (engineKey p.die k p.unit) x c) then none
  else some p.unit

-- what a start checks ---------------------------------------------------------------------------------------------------------------------

/-- What the operands of a command decide at its start (R216, R217, R474, R476). -/
inductive OperandRes where
  | ok
  | wait
  | stop (status detail : Nat)

/-- An operand lies in the region of a pool, and is reached through no object (R213). -/
def inPoolNow (s : State) (g : GAddr) (n : Nat) : Bool :=
  let g := localise s g
  decide (g.tier < 2) && inPool s g.off (max n 1)

def checkOperands (s : State) (c : Cmd) : OperandRes :=
  match (operands c).find? (fun o => cutsObj s (localise s o.2.1) o.2.2.1) with
  | some o => .stop stBad (badAt (24 + 8 * o.1) o.1)
  | none =>
    let obj (o : Nat × GAddr × Nat × Bool) : Option ResObj := (objAt s (localise s o.2.1) o.2.2.1).map Prod.snd
    match (operands c).find? (fun o => fencedAccess s o.2.1 o.2.2.1 || inPoolNow s o.2.1 o.2.2.1 || (o.2.2.2 && (match obj o with | some x => !x.writable | none => false))) with
    | some o => .stop stDenied o.1
    | none =>
      if (operands c).any (fun o => o.2.2.2 && (match obj o with | some x => x.t1.state == 1 || x.t2.state == 1 | none => false)) then .wait
      else .ok

/-- Is an operand data that the run reads, and not a structure that the start judges (R241, R252)? -/
def isData (c : Cmd) (slot : Nat) : Bool :=
  let p := c.pkt
  match ((usesOf p c.shapes).getD []).getD slot .zero with
  | .ten _ _ => true
  | .raw _ _ => (p.cls == 7 && decide (p.op < 0x10)) || (p.cls == 1 && p.op != 9) || (p.cls == 2 && p.op != 0x19) ||
      (p.clsOp == 0x906 && slot == 2)
  | _ => false

/-- The bytes that a command reads of an operand: of a tensor those of its view, of a supplied mordant plane those of the
blocks that its destination view covers (R54), else all. -/
def readRanges (c : Cmd) (o : Nat × GAddr × Nat × Bool) : List (GAddr × Nat) :=
  let dst := if c.pkt.clsOp = 0x218 then c.shapes.getD 2 none else if c.pkt.clsOp = 0x702 then c.shapes.getD 1 none else none
  match (if isData c o.1 then c.shapes.getD o.1 none else none), dst with
  | some h, _ => viewRanges o.2.1 h
  | none, some h => if o.1 = 3 then suppliedRanges o.2.1 h else [(o.2.1, o.2.2.1)]
  | none, none => [(o.2.1, o.2.2.1)]

/-- What a command reads of its operands, data or structures. -/
def readOperands (c : Cmd) (data : Bool) : List (GAddr × Nat) :=
  (((operands c).filter (fun o => readsIt c o && isData c o.1 == data)).map (readRanges c)).flatten

/-- The rest of the tables whose slot names only their first entry (R126, R148, R357, R360): read at the start. -/
def tableReads (s : State) (c : Cmd) : List (GAddr × Nat) :=
  let p := c.pkt
  let ring := match c.origin with | .ring _ => true | _ => false
  if p.cls = 4 ∧ ring = true then [(descAddr (p.slot 0), 64 * (rootParOf p.opcode (cBytes s c (descAddr (p.slot 2)) 32)).count)]
  else if p.cls = 5 then [(descAddr (p.slot 0), 64 * (solveJob s c).1.count)]
  else if p.clsOp = 0xF01 then
    let bs := cBytes s c (descAddr (p.slot 0)) 256
    [(32, 16 * fieldAt bs 40 4), (48, 16 * fieldAt bs 44 4), (72, 2 * fieldAt bs 64 2), (112, 8 * fieldAt bs 120 4)].map
      (fun x => (gaddrOf (fieldAt bs x.1 8), x.2))
  else if p.cls = 9 then
    let g := descAddr (p.slot 1)
    let d := collDOf (rdStruct s c (descAddr (p.slot 0)) 64)
    [(g, 8 + 2 * fieldAt (rdStruct s c g 8) 0 2)] ++ (if p.op = 7 then [(gaddrOf d.aux, 16 * d.tcount)] else []) ++
    (if p.op = 6 then let l := descAddr (p.slot 4); [(l, 8 + 8 * fieldAt (rdStruct s c l 8) 0 8)] else [])
  else []

/-- What a command does with a range that its structures name. -/
inductive Touch where
  | reads
  /-- it may publish bytes there -/
  | writes
  /-- it clears it, or makes it undefined, which takes no pound space (R236) -/
  | clears
  deriving DecidableEq, Repr

/-- A range that a command's structures name, and the slot of the structure. -/
structure NamedMem where
  g    : GAddr
  n    : Nat
  how  : Touch
  slot : Nat
  deriving DecidableEq, Repr

/-- What the structures of a command name. The tables of JOB_SUBMIT are judged by its own rules. -/
def structUses (s : State) (c : Cmd) : List NamedMem :=
  let p := c.pkt
  let on (i : Nat) (how : Touch) (a n : Nat) : List NamedMem := if n = 0 then [] else [⟨gaddrOf a, n, how, i⟩]
  let tensor (a fb r k : Nat) : Nat := tensorBytes (gaddrOf a).off (wholeShape fb r k)
  let copy (h : Shard) (a : Nat) : Nat := tensor a h.wcFmt h.rows h.cols
  if p.clsOp = 0x301 then ((fsetRegions (fsetRaw p.job (cBytes s c (descAddr (p.slot 0)) 128))).map (fun r => on 0 .clears r.1 r.2)).flatten
  else if p.cls = 4 then
    match rootJob s c with
    | none => []
    | some (q, ps) =>
      (ps.map (fun x => let n := 4 * x.dim * x.dim
        on 0 .reads x.input n ++ on 0 .writes x.output n ++ (if x.hdr = 0 then [] else on 0 .writes x.hdr 64))).flatten ++
      (match c.origin with
       | .ring _ => on 1 .writes (descAddr (p.slot 1)).code (32 * q.count)
       | _ => (ps.map (fun x => on 0 .writes (gLocal x.resAt).code 32)).flatten)
  else if p.cls = 5 then
    let j := solveJob s c
    (j.2.map (fun x =>
      on 0 .reads x.rowptr (4 * (x.rows + 1)) ++ on 0 .reads x.colidx (4 * x.nnz) ++ on 0 .reads x.values ((if x.bsr then 64 else 4) * x.nnz) ++
      on 0 .reads x.rhs (4 * x.n) ++ on 0 .writes x.x (4 * x.n) ++ (if x.hdr = 0 then [] else on 0 .writes x.hdr 64))).flatten ++
    on 1 .writes (descAddr (p.slot 1)).code (32 * j.1.count)
  else if isUpd p then
    match updShard s c with
    | none => []
    | some (h, q) =>
      let next := if nextSlot h = 0 then h.wc0 else h.wc1
      on 0 .writes h.master (tensor h.master h.masterFb h.rows h.cols) ++ on 0 .writes h.moment (4 * h.rows * h.cols) ++
      on 0 .clears h.gacc (4 * h.rows * h.cols) ++ on 0 .writes next (copy h next) ++
      (if p.op = 1 then [] else on 0 .writes h.rowAcc (4 * h.rows) ++ on 0 .writes h.colAcc (4 * h.cols)) ++
      (if p.op = 3 then
        (match updFset s c h with
         | some f => on 1 .clears q.work (workSize h f q.pcH16) ++
             ((fsetBlocks f).map (fun b => on 0 .reads (gLocal (fsetHdr f b)).code 64 ++ on 0 .reads (gLocal b.root).code (4 * b.dim * b.dim))).flatten
         | none => [])
       else [])
  else if p.clsOp = 0x608 then
    let h := shardRaw p.job (cBytes s c (descAddr (p.slot 0)) 128)
    on 0 .reads h.master (tensor h.master h.masterFb h.rows h.cols) ++ on 0 .clears h.moment (4 * h.rows * h.cols) ++
    on 0 .clears h.gacc (4 * h.rows * h.cols) ++
    (if h.factored then on 0 .clears h.rowAcc (4 * h.rows) ++ on 0 .clears h.colAcc (4 * h.cols) else []) ++ on 0 .writes h.wc0 (copy h h.wc0)
  else if p.clsOp = 0x610 then
    match tfind s.shards (localise s (descAddr (p.slot 0))).off with
    | some h =>
      let dest := (descAddr (p.slot 1)).code
      on 0 .reads h.wc0 (copy h h.wc0) ++ (if h.retain = 2 then on 0 .reads h.wc1 (copy h h.wc1) else []) ++
      (if (c.shapes.getD 1 none).isNone then on 1 .writes dest (copy h dest) else [])
    | none => []
  else if p.clsOp = 0x611 then
    let r := cBytes s c (descAddr (p.slot 0)) 64
    on 0 .writes (fieldAt r 8 8) (fieldAt r 20 4)
  else if p.cls = 9 then
    let d := collDOf (rdStruct s c (descAddr (p.slot 0)) 64)
    (if d.addNext then (match opnd c 2 with | some o => on 0 .writes d.aux (4 * o.sh.vrows * o.sh.vcols) | none => []) else []) ++
    (if p.op = 6 then
      let g := descAddr (p.slot 4)
      let n := fieldAt (rdStruct s c g 8) 0 8
      (((chunks 8 n (rdStruct s c (g.plus 8) (8 * n))).map leNat).map (fun a => on 4 .writes a 4)).flatten
     else if p.op = 5 ∧ p.slot 2 = 0 then (match rtoShard s c with | some (_, h) => on 0 .writes h.gacc (4 * h.rows * h.cols) | none => [])
     else [])
  else []

/-- The copies that serve ranges (R216), each once. -/
def pinsOf (s : State) (rs : List (GAddr × Nat)) : List (Nat × Nat) :=
  (rs.filterMap (fun r => (served s (localise s r.1) r.2).2)).eraseDups

/-- The copies that serve a command: its operands, the rest of its tables, and what these name (R216). -/
def servingPins (s : State) (c : Cmd) : List (Nat × Nat) :=
  let p1 := pinsOf s ((operands c).map (fun o => (o.2.1, o.2.2.1)))
  let p2 := (p1 ++ pinsOf s (tableReads s { readNow s c with pins := p1 })).eraseDups
  (p2 ++ pinsOf s ((structUses s { readNow s c with pins := p2 }).map (fun u => (u.g, u.n)))).eraseDups

/-- What a command's structures name, judged as its operands are (R203 to R217, R235). -/
def checkStructs (s : State) (c : Cmd) : OperandRes :=
  let us := structUses s c
  let wr (u : NamedMem) : Bool := u.how != .reads
  let obj (u : NamedMem) : Option ResObj := (objAt s (localise s u.g) u.n).map Prod.snd
  match us.find? (fun u => cutsObj s (localise s u.g) u.n) with
  | some u => .stop stBad (badAt 0xFF u.slot)
  | none =>
    match us.find? (fun u => fencedAccess s u.g u.n || accessDenied s c u.g u.n (wr u) true ||
        (wr u && (match obj u with | some x => !x.writable | none => false))) with
    | some u => .stop stDenied u.slot
    | none =>
      if us.any (fun u => wr u && (match obj u with | some x => x.t1.state == 1 || x.t2.state == 1 | none => false)) then .wait else .ok

/-- A remote lock table entry that a command's signal fields name breaks R247, or names a lock of this module that the job has not been granted
(R252, R287). -/
def checkLocks (s : State) (c : Cmd) : OperandRes :=
  let fields := [(c.pkt.sigLock, 0xFF)] ++ (if c.pkt.clsOp = 0x801 then [(lkTarget c, 0)] else [])
  let entry (v : Nat) : Option Nat :=
    if v < 0x4000 ∨ 0x8000 ≤ v then none
    else (findJob s c.pkt.job).map (fun j => leNat (moduleRead s c.sess c.pkt.job ((gaddrOf j.lockTab).plus (4 * (v - 0x4000))) 4))
  if fields.any (fun x => match entry x.1 with | some e => fld e 12 4 != 0 || fld e 30 2 != 0 | none => false) then .stop stBad badStruct
  else match fields.find? (fun x => match entry x.1 with
      | some e => fld e 0 12 == s.cfg.peerId && lockDenied s c.pkt.job (fld e 16 14)
      | none => false) with
    | some x => .stop stDenied x.2
    | none => .ok

/-- What an update reads of its shard and of its set (R180, R182, R183): of a skipped step the gradient alone; of a set with an unusable root
the headers alone; without roots or accumulators what its rule names. -/
def updReads (s : State) (c : Cmd) : List (GAddr × Nat) :=
  match updShard s c with
  | none => []
  | some (h, q) =>
    let n := 4 * h.rows * h.cols
    let acc := [(gaddrOf h.gacc, n)]
    if (if 0 < q.divisor then q.divisor else c.aux.getD 1 0) = 0 ∨ (v32 q.gnorm).isFin = false then acc
    else
      let body := acc ++ [(gaddrOf h.master, tensorBytes (gaddrOf h.master).off (wholeShape h.masterFb h.rows h.cols)), (gaddrOf h.moment, n)] ++
        (if c.pkt.op = 1 then [] else [(gaddrOf h.rowAcc, 4 * h.rows), (gaddrOf h.colAcc, 4 * h.cols)])
      match (if c.pkt.op = 3 then updFset s c h else none) with
      | none => body
      | some f =>
        let hdrs := (fsetBlocks f).map (fun b => (gLocal (fsetHdr f b), 64))
        if (badRoot s c f).isNone then body ++ hdrs ++ (fsetBlocks f).map (fun b => (gLocal b.root, 4 * b.dim * b.dim))
        else if c.fall then body ++ hdrs
        else acc ++ hdrs

/-- Ranges that a run reads from its start besides its operands. A root or solve command starts its first problem. -/
def structReads (s : State) (c : Cmd) : List (GAddr × Nat) :=
  let p := c.pkt
  if p.cls = 4 then rootToRead 1 s { c with probs := [] }
  else if p.cls = 5 then solveToRead 1 s { c with probs := [] }
  else if isUpd p then updReads s c
  else if p.clsOp = 0x608 then
    let h := shardRaw p.job (cBytes s c (descAddr (p.slot 0)) 128)
    [(gaddrOf h.master, tensorBytes (gaddrOf h.master).off (wholeShape h.masterFb h.rows h.cols))]
  else if p.clsOp = 0x610 then
    match c.shard with
    | some h =>
      let v := leNat (cBytes s c (descAddr (p.slot 2)) 4)
      let want := if v = 0xFFFFFFFF then h.version else v
      let wc (x : Nat) : List (GAddr × Nat) := [(gaddrOf x, tensorBytes (gaddrOf x).off (wholeShape h.wcFmt h.rows h.cols))]
      if h.ver0 = want then wc h.wc0 else if h.ver1 = want then wc h.wc1 else []
    | none => []
  else if p.clsOp = 0x611 then
    let r := cBytes s c (descAddr (p.slot 0)) 64
    if fieldAt r 20 4 = 0 then [] else [(gaddrOf (fieldAt r 8 8), fieldAt r 20 4)]
  else if p.cls = 9 then
    let d := collDOf (rdStruct s c (descAddr (p.slot 0)) 64)
    if d.addNext ∧ deferredIn s p.job (groupHash s c) d.stream then
      (match opnd c 2 with | some o => [(gaddrOf d.aux, 4 * o.sh.vrows * o.sh.vcols)] | none => [])
    else []
  else []

/-- The start of an operation whose run refuses it before it starts (R252, R269). -/
def startBy (run : State → Cmd → Out) (s : State) (c : Cmd) : StartRes :=
  match run s c with
  | .stop st d evs => .stop st d evs
  | _ => .go s c

/-- The checks and waits of each operation at its start (R252, R276 step 5). -/
def familyStart (s : State) (c : Cmd) : StartRes :=
  let p := c.pkt
  match p.cls with
  | 0x1 => match flightStart s c with
    | .go s' c' => if p.op = 9 ∧ covStartOk s c = false then badIn 3 else .go s' c'
    | r => r
  | 0x2 => if p.op = 0x19 ∧ resAddOk s c = false then .stop stBad (badAt 40 2) [] else .go s c
  | 0x3 => fsetStart (reOuts s) s c
  | 0x4 => rootStart (reOuts s) s c
  | 0x5 => solveStart s c
  | 0x6 =>
    if p.op ≤ 3 then updStart s c else if p.op = 8 then shardStart s c else if p.op = 9 then schedStart s c
    else if p.op = 0x10 then gatherStart s c else digestStart s c
  | 0x7 => if p.op < 0x10 then moveStart s c else resStart s c
  | 0x8 => if p.op = 1 then startBy lkSignalRun s c else .go s c
  | 0x9 => collStart s c
  | 0xA => if p.op = 8 then startBy twatchRun s c else if p.op = 9 then startBy twatchStopRun s c else .go s c
  | 0xE => startBy testOut s c
  | 0xF =>
    if p.op = 3 ∨ p.op = 4 then startBy jobStateRun s c else if p.op = 5 then startBy abortRun s c else if p.op = 6 then startBy grantRun s c
    else if p.op = 7 then startBy ungrantRun s c else if p.op = 8 then startBy loanGrantRun s c else if p.op = 9 then startBy loanReturnRun s c
    else if p.op = 0x0A then startBy hostbufRegRun s c else if p.op = 0x14 ∨ p.op = 0x15 then startBy fenceRun s c
    else if p.op = 0x1C then startBy dumpRun s c
    else
    if p.op = 1 then submitStart s c else if p.op = 2 then jobEndStart s c else if p.op = 0x0B then unregStart s c
    else if p.op = 0x10 then modeStart s c else if p.op = 0x18 then fwStart s c else if p.op = 0x19 then ckptStart s c else .go s c
  | _ => .go s c

/-- The figure that R308 takes at the start. -/
def startFigure (s : State) (c : Cmd) : Nat :=
  let slow := if c.pkt.heritage then 8 else 1
  if c.pkt.cls = 1 ∧ (c.pkt.op = 4 ∨ c.pkt.op = 5 ∨ c.pkt.op = 9) then slow * meStartFigure s c
  else if c.pkt.cls = 6 ∧ c.pkt.op ≤ 3 then slow * updFigure s c
  else 0

def startCapBad (s : State) (c : Cmd) : Bool :=
  match findJob s c.pkt.job with
  | none => false
  | some j => decide ((if j.cap = 0 then 250 else j.cap) * 1800 < startFigure s c)

-- pound reservations (R236, R237) -----------------------------------------------------------------------------------------------------------

/-- Ranges that a command may write besides its written operands. -/
def structWrites (s : State) (c : Cmd) : List (GAddr × Nat) :=
  ((structUses s c).filter (fun u => u.how == .writes)).map (fun u => (resolve s c u.g u.n, u.n))

/-- The pound space of the copy that a RES_PROMOTE makes (R237). -/
def promoteNeed (s : State) (c : Cmd) : List (Nat × Nat) :=
  if c.pkt.clsOp = 0x722 then
    let d := resAddr s c.pkt
    match findObj s d with
    | some o =>
      let t := fieldAt (rdKey s (jobKey s c.sess c.pkt.job) d 64) 42 1
      if (o.copy t).held then [] else promoNeed s o t
    | none => []
  else []

/-- The reservation of a command: granules in each pound that it will use. -/
def reservation (s : State) (c : Cmd) : List (Nat × Nat) :=
  let own := if judgesOwn c.pkt then [] else
    ((operands c).filter (fun o => o.2.2.2)).map (fun o => (resolve s c o.2.1 o.2.2.1, o.2.2.1))
  let parts := ((own ++ structWrites s c).map (poundNeed (stageDie c))).flatten ++ promoteNeed s c
  (parts.map Prod.fst).eraseDups.map (fun k => (k, (parts.filter (fun x => x.1 == k)).foldl (fun a x => a + x.2) 0))

-- debt commands (R309) --------------------------------------------------------------------------------------------------------------------

/-- Accepted commands that name a lock as their signal lock, be it by an entry of the remote lock table (R247), and have not signalled it. -/
def signallers (s : State) (l : Nat) : List Cmd := s.cmds.filter (fun x => x.pkt.sigInc != 0 && lockHere s x x.pkt.sigLock == some l && !x.signalled)

/-- Commands of suspended contexts on whose signals a set of locks depends, followed back through WAIT_LOCK. -/
def debtClosure (s : State) : Nat → List Nat → List Nat → List Nat
  | 0, _, found => found
  | n + 1, locks, found =>
    match locks with
    | [] => found
    | l :: r =>
      let new := (signallers s l).filter (fun x => ctxOut s x && !(found.contains x.id))
      debtClosure s n (r ++ (new.filter (fun x => x.pkt.waitThresh != 0 && !x.claimed)).map (fun x => x.pkt.waitLock)) (found ++ new.map Cmd.id)

/-- One head waiter: where every signaller of its lock belongs to a suspended context, they and those they wait on become debt
commands, and LOCK_DEBT is raised. -/
def debtFor (s : State) (c : Cmd) : State :=
  let l := c.pkt.waitLock
  let k := getLock s l
  let sig := signallers s l
  if c.phase ≠ .waiting ∨ c.claimed = true ∨ c.pkt.waitThresh = 0 ∨ k.queue.head? ≠ some c.id ∨ ctxOut s c = true ∨ sig.isEmpty = true ∨
      (sig.all (ctxOut s)) = false then s
  else
    let ids := (debtClosure s (s.cmds.length * 2 + 1) [l] []).filter (fun i => match findCmd s i with | some x => !x.debt | none => false)
    match ids with
    | [] => s
    | _ :: _ =>
      let p := prioOf s c
      let s := { s with cmds := s.cmds.map (fun x => if ids.contains x.id then { x with debt := true, debtPrio := p } else x) }
      raiseFor s (l / 2048) 0x18 false (cmdSes c) c.pkt.job c.pkt.layer c.pkt.seq l
        (ctxId s c + k.lastCtx % 256 * 256 + (match sig with | x :: _ => ctxId s x | [] => 0) * 65536) 0

def debtPass (s : State) : State := s.cmds.foldl (fun s c => debtFor s c) s

-- the start -----------------------------------------------------------------------------------------------------------------------------

/-- A core clears its core store before it starts a command of another context than the last one it served (R414), and a root engine
its scratch (R122), which holds nothing between commands. A class 0x8 command touches no core store. -/
def clearStores (s : State) (c : Cmd) (p : Place) : State :=
  if 8 ≤ p.die ∨ c.pkt.cls = 8 ∨ p.kind = 4 then s
  else
    let ctx := (c.pkt.job, ctxId s c)
    if p.kind = 3 then setRoot s (p.die * 8 + p.unit) { getRoot s (p.die * 8 + p.unit) with lastCtx := some ctx }
    else
      let cores := if p.kind = 1 then (List.range 16).map (· + p.unit * 16) else [p.unit]
      cores.foldl (fun s u =>
        let key := engineKey p.die 6 u
        let e := getEngine s key
        let a := coreSlot (p.die * 64 + u)
        let s := if e.lastCtx.isSome && e.lastCtx != some ctx then
            { s with mem := memZero s.mem a 0x180000, poison := unpoison s.poison a 0x180000 } else s
        { s with engines := tset EngineRegs.rest s.engines key { e with lastCtx := some ctx } }) s

/-- What the start of a command leaves in the registers of its engine and its context (R302, R304). -/
def noteStart (s : State) (c : Cmd) (p : Place) : State :=
  let n := s.serial + 1
  let key := engineKey p.die (engineOf c.pkt) p.unit
  let e := getEngine s key
  let s := { s with
    serial := n,
    engines := if 8 ≤ p.die then s.engines else
      tset EngineRegs.rest s.engines key { e with served := aput e.served (c.pkt.job, stageOf s c) n },
    ctxs := s.ctxs.map (fun x => if x.job = c.pkt.job ∧ x.ring = ctxId s c then { x with started := aput x.started p.die n } else x),
    queueRe := without s.queueRe c.id }
  if p.kind ≤ 2 ∧ p.die < 8 then
    let s := count s p.die (slotsCore p.unit) 0x40 1 (some (c.pkt.job, c.pkt.layer))
    if c.debt then count s p.die (slotsCore p.unit) 0x48 1 (some (c.pkt.job, c.pkt.layer)) else s
  else s

/-- A command that has tried to start waits, in place; where its wait is a stall, the stall begins (R105, R237). -/
def park (s : State) (c : Cmd) (why : Option Nat) : State :=
  putCmd s { c with
    parked := true,
    waitWhy := if c.waitFrom.isNone then why.getD c.waitWhy else c.waitWhy,
    waitFrom := if c.waitFrom.isNone then why.map (fun _ => s.time) else c.waitFrom }

/-- Does a command that reads a flight wait for its top entry to be in the basin (R105)? -/
def flightWait (s : State) (c : Cmd) : Bool :=
  (flightSlot c.pkt).isSome && !(flightChanges c.pkt) &&
  (match tfind s.flights (flightAddr c.pkt) with | some f => (match f.entries with | e :: _ => e.spilled | [] => false) | none => false)

/-- The first of a list of verdicts that does not let the command go. -/
def verdict : List OperandRes → OperandRes
  | [] => .ok
  | .ok :: r => verdict r
  | x :: _ => x

/-- Start a placed command on a unit (R274, R276 steps 5 and 6). -/
def tryStart (s : State) (c : Cmd) (p : Place) : State :=
  match verdict [checkOperands s c, checkLocks s c] with
  | .stop st d => endCmd s c st d
  | .wait => park s c none
  | .ok =>
    let pins := servingPins s c
    let s1 := clearStores s c p
    let c1 := { readNow s1 c with place := some p, pins := pins }
    match poisonAmong s c1 (readOperands c1 false ++ tableReads s1 c1) with
    | some u => eccEnd s { c with pins := [] } u
    | none =>
      match familyStart s1 c1 with
      | .wait => park s c (if flightWait s c then some 1 else none)
      | .stop st d evs => endCmd (evs.foldl (fun s e => emitEv s c e) s) c st d
      | .go s2 c2 =>
        let rs := reservation s1 c1
        match checkStructs s1 c1 with
        | .stop st d => endCmd s c st d
        | .wait => park s c none
        | .ok =>
          if startCapBad s1 c2 || resvTooBig s rs then endCmd s c stBad (badAt 0 0xFF)
          else if resvLacks s rs then park s c (some 2)
          else
            let s3 := pins.foldl (fun s x => takeCopy s x.1 x.2) s2
            let r := endStall s3 c2
            let c3 := { r.2 with
              phase := .running, parked := false, runs := c2.runs + 1, started := s.time, reserved := rs,
              lastEng := engineCode { c2 with place := some p } }
            let s4 := noteStart (putCmd r.1 c3) c3 p
            let s5 := traceRec s4 (min p.die 9) (trCmd s4 c3 c3.lastEng 2 (min c3.runs 255))
            -- a run that reads a poisoned unit ends (R241)
            match poisonAmong s c3 (readOperands c3 true ++ structReads s1 c3) with
            | some u => eccEnd s5 c3 u
            | none => s5

/-- COMMAND_START: a ready command is placed, and starts if its engine is free, it is first in order and nothing holds it back
(R276, R301 to R303). -/
def execCommandStart (c : Nat) (s : State) : Host.Outcome State Fault Refusal :=
  .next (
    let s := debtPass s
    match findCmd s c with
    | none => s
    | some x =>
      if ready s = false ∨ cmdReady s x = false ∨ jobHeld s x = true then s
      else
        match (if x.phase = .placed then x.place else placeFor s x) with
        | none => s
        | some p =>
          let y := { x with phase := .placed, place := some p }
          let s := putCmd s y
          let s := if engineOf y.pkt = 3 ∧ !(s.queueRe.contains y.id) then { s with queueRe := s.queueRe ++ [y.id] } else s
          if startHeld s y then s
          else match startUnit s y p with
            | none => s
            | some u => tryStart s y { p with unit := u })

end Sys2Proof.Machine
end

