-- ==== Sys2Proof/Machine/Path.lean ====
section
/-! DEFINITION. The commit point, publication, pre-emption and the resumption of a context (R107, R209, R275 to R279, R283, R286,
R304 to R306, R309 to R312). -/

set_option cleanup.letToHave false

namespace Sys2Proof.Machine

-- COMMIT_POINT -----------------------------------------------------------------------------------------------------------------

/-- What the commit of a command does besides its writes: of those operations that may still await a lender. -/
def commitEff (c : Cmd) : State → Cmd → State :=
  match c.origin with
  | .shardCopy _ _ => shardCopyEff
  | _ =>
    if c.pkt.clsOp = 0x101 then pushEff
    else if c.pkt.cls = 4 then rootEff
    else if c.pkt.cls = 6 then (if c.pkt.op ≤ 3 then updEff else if c.pkt.op = 8 then shardEff else noEffect)
    else if c.pkt.cls = 7 ∧ c.pkt.op < 0x10 then moveEff
    else if c.pkt.cls = 9 then collEff
    else noEffect

/-- Every write to a lender has been acknowledged as staged (R275). -/
def lendersAcked (c : Cmd) : Bool :=
  let far := (c.writes.filter (fun w => w.tgt.tier == 4)).map (fun w => w.tgt.peer)
  far.all (fun p => decide ((far.filter (· == p)).length ≤ (c.acked.filter (· == p)).length))

/-- Does a staged command wait for nothing but its lenders? Mode changes, tests and the like end by rows of their own. -/
def commitsByLenders (c : Cmd) : Bool :=
  (match c.origin with | .shardCopy _ _ => true | _ => false) || (decide (1 ≤ c.pkt.cls) && decide (c.pkt.cls ≤ 7)) || c.pkt.cls == 9

/-- A staged command as it commits: the flags of what a collective computes at its commit are among its IEEE byte's (R530). -/
def withFlags (s : State) (c : Cmd) : Cmd := if c.pkt.cls = 9 then { c with ieee := c.ieee ||| gaccFlags s c } else c

/-- COMMIT_POINT: a command whose outputs are staged and acknowledged commits in one cycle (R275, R276 step 9). -/
def execCommitPoint (c : Nat) (s : State) : Host.Outcome State Fault Refusal :=
  .next (match findCmd s c with
    | none => s
    | some x =>
      if x.phase ≠ .staged then s
      else if x.pkt.clsOp = 0x802 then lkSetCommit s x
      else if commitsByLenders x && lendersAcked x && !(x.pkt.cls == 9 && collAwaits s x) then commitWith (commitEff x) s (withFlags s x)
      else s)

-- PUBLICATION_COMPLETE ---------------------------------------------------------------------------------------------------------

/-- One signal after a publication: to a local lock, or to a peer. -/
def applyOne (c : Cmd) (s : State) (x : Nat × Nat × Nat) : State :=
  if x.1 = s.cfg.peerId then signalLock s x.2.1 x.2.2 c.pkt.job s.cfg.peerId (some c) else sendSignal s c x.1 x.2.1 x.2.2

/-- The signals of a command after its publication (R276 step 11, R284, R286). -/
def applySignal (s : State) (c : Cmd) : State := c.toSend.foldl (applyOne c) s

/-- Do the replies of a command's ring wait for its die to resume (R488)? -/
def replyHeld (s : State) (c : Cmd) : Bool :=
  match c.origin with
  | .ring r => (getDie s (r / 16)).paused && c.pkt.clsOp != 0xF18
  | _ => false

/-- TIER 5 outputs reach host memory, once the link is up (R209, R389). -/
def publishHost (s : State) (c : Cmd) : State :=
  if s.power.linkUp then publishWrites s (jobKey s c.sess c.pkt.job) c.writes else s

/-- PUBLICATION_COMPLETE: every die and lender has published; the signal is applied or sent, TIER 5 outputs are written, and then
the reply (R209, R276 steps 11 and 12, R277, R286). An FW_UPDATE ends here (R488 step 5). -/
def execPublicationComplete (c : Nat) (s : State) : Host.Outcome State Fault Refusal :=
  .next (match findCmd s c with
    | none => s
    | some x =>
      if x.phase ≠ .committed ∨ replyHeld s x = true then s
      else
        let s := publishHost (applySignal s x) x
        let s := if x.pkt.clsOp = 0xF18 then fwFinish s x else s
        match findCmd s c with
        | none => s
        | some x => finishCmd s x)

-- pre-emption (R304, R305) ---------------------------------------------------------------------------------------------------------

/-- Is the unit's engine that a command needs taken? Sequencers run operations side by side (R302). -/
def takenFor (s : State) (c : Cmd) (d u : Nat) : Bool := engineOf c.pkt != 2 && engineBusy s d (engineOf c.pkt) u

/-- Every eligible unit of the die has the engine busy that a command needs. -/
def allTaken (s : State) (c : Cmd) (d : Nat) : Bool :=
  !(eligibleUnits s c d).isEmpty && (eligibleUnits s c d).all (takenFor s c d)

/-- Is a command run on a die by a context that a pre-emption may suspend? Debt commands run to their end (R309). -/
def mayYield (c : Cmd) (d : Nat) : Bool := inUse c && onDie c d && !c.debt

/-- Does a placed command starve its context on a die (R304)? -/
def starved (s : State) (d : Nat) (c : Cmd) : Bool :=
  c.phase == .placed && onDie c d && cmdReady s c && !c.debt && !(jobHeld s c) && !(startHeld s c) && allTaken s c d &&
  s.cmds.any (fun x => mayYield x d && engineOf x.pkt == engineOf c.pkt && decide (prioOf s c < prioOf s x) &&
    (match x.place with | some p => (eligibleUnits s c d).contains p.unit | none => false))

/-- Serial of the latest start of a command's context on a die. -/
def lastStartOf (s : State) (d : Nat) (c : Cmd) : Nat :=
  match s.ctxs.find? (fun x => x.job == c.pkt.job && x.ring == ctxId s c) with
  | some x => aget 0 x.started d
  | none => 0

/-- A command of the context that yields next: the lowest priority running on the die, and of those the one that started there
last (R304). -/
def yielder (s : State) (d p : Nat) : Option Cmd :=
  (s.cmds.filter (fun x => mayYield x d && decide (p < prioOf s x))).foldl (fun b x =>
    match b with
    | none => some x
    | some y => if prioOf s y < prioOf s x ∨ (prioOf s y = prioOf s x ∧ lastStartOf s d y < lastStartOf s d x) then some x else b) none

/-- Does a command belong to a context? -/
def ofCtx (s : State) (job ring : Nat) (c : Cmd) : Bool := c.pkt.job == job && ctxId s c == ring

/-- A context is suspended on a die (R305, R312). It holds no unused credit that could return (notes/assumptions/132). -/
def suspendOn (s : State) (d job ring : Nat) : State :=
  let s := { s with ctxs := s.ctxs.map (fun x =>
    if x.job = job ∧ x.ring = ring then { x with suspOn := without x.suspOn d ++ [d] } else x) }
  let s := killAll s 0 (fun x => ofCtx s job ring x && !x.debt &&
    (onDie x d || (initPromo x && dieOfAddr (x.aux.getD 0 0) == d)))
  count s d slotsDie 0x5B 1 none

/-- Contexts are suspended until an eligible engine is free (R304). -/
def yieldLoop (d : Nat) (c : Cmd) : Nat → State → State
  | 0, s => s
  | n + 1, s =>
    if allTaken s c d then
      match yielder s d (prioOf s c) with
      | none => s
      | some y => yieldLoop d c n (suspendOn s d y.pkt.job (ctxId s y))
    else s

/-- A placed command is placed again on its die (R304). -/
def replace (s : State) (d : Nat) (c : Cmd) : State :=
  let s' := putCmd s { c with place := none }
  match leastBy (engineLoad s' d (engineOf c.pkt)) (eligibleUnits s' c d) with
  | some u => putCmd s' { c with place := some ⟨d, if engineOf c.pkt = 3 then anyRoot else u, placeKind (engineOf c.pkt)⟩, parked := false }
  | none => s

/-- On switching in, the objects of a die named in the context's INIT_LIST are promoted to its basin (R306). -/
def fillBasin (s : State) (d job ring : Nat) : State :=
  match findJob s job with
  | none => s
  | some j =>
    (j.initList.filter (fun a => dieOfAddr a == d)).foldl (fun s a =>
      match findObj s a with
      | none => s
      | some o =>
        if o.t1.state ≠ 0 then s
        else
          let c := { ownCmd s (.promotion 0 0) j.sess 0x7220 job 0xFFFF 0xFFFF (ownSeq s) [a / 16, ring, 0, 0, 0] with id := s.nextId }
          beginInit (issueOwn s c) c) s

/-- The command for which a die is pre-empted: of the highest priority that starves there, the one accepted first. -/
def starvedFirst (s : State) (d : Nat) : Option Cmd :=
  (s.cmds.filter (starved s d)).foldl (fun b x =>
    match b with
    | none => some x
    | some y => if prioOf s x < prioOf s y then some x else b) none

/-- PREEMPTION: the scheduler pre-empts a compute die for a starved context (R304, R305). -/
def execPreemption (die : Nat) (s : State) : Host.Outcome State Fault Refusal :=
  .next (match starvedFirst s die with
    | none => s
    | some c =>
      let ring := ctxId s c
      let s := yieldLoop die c s.cmds.length s
      let s := if allTaken s c die then s
        else ((s.cmds.filter (fun x => ofCtx s c.pkt.job ring x && x.phase == .placed && cmdReady s x && onDie x die)).map Cmd.id).foldl
          (fun s i => match findCmd s i with | some x => replace s die x | none => s) s
      debtPass (fillBasin s die c.pkt.job ring))

-- resumption (R306) ----------------------------------------------------------------------------------------------------------------

/-- Has a context of higher priority a command running, placed or ready on a die? -/
def higherThere (s : State) (d prio : Nat) : Bool :=
  s.cmds.any (fun x => decide (ctxPrio s x.pkt.job (ctxId s x) < prio) && x.phase != .committed &&
    (onDie x d || (x.phase == .waiting && cmdReady s x && (match placeFor s x with | some p => p.die == d | none => false))))

/-- CONTEXT_RESUME: the contexts of a ring that are suspended on a die resume there once nothing of higher priority is left, and
the job is not suspended as a whole (R306, R312). -/
def execContextResume (die ctx : Nat) (s : State) : Host.Outcome State Fault Refusal :=
  .next (
    let free (x : Ctx) : Bool := x.ring == ctx && x.suspOn.contains die && !(higherThere s die (ctxPrio s x.job x.ring)) &&
      (match findJob s x.job with | some j => (match j.st with | .suspended _ => false | _ => true) | none => true)
    let back := s.ctxs.filter free
    let s := { s with ctxs := s.ctxs.map (fun x => if free x then { x with suspOn := without x.suspOn die } else x) }
    back.foldl (fun s x => fillBasin s die x.job x.ring) (if back.isEmpty then s else debtPass s))

end Sys2Proof.Machine
end

