-- ==== Sys2Proof/Machine/Dispatch.lean ====
section
/-! DEFINITION. One arm per command of the table. -/

namespace Sys2Proof.Machine

/-- The effect of a command on everything but the queue of waiting commands. -/
def exec (i : Instr) (s : State) : Host.Outcome State Fault Refusal :=
  match i with
  | .fwd c => Sys2Proof.Machine.execFwd c s
  | .dgrad c => Sys2Proof.Machine.execDgrad c s
  | .wgrad c => Sys2Proof.Machine.execWgrad c s
  | .wgradRowmask c => Sys2Proof.Machine.execWgradRowmask c s
  | .wgradBlkmask c => Sys2Proof.Machine.execWgradBlkmask c s
  | .cov c => Sys2Proof.Machine.execCov c s
  | .flightPush c => Sys2Proof.Machine.execFlightPush c s
  | .flightPop c => Sys2Proof.Machine.execFlightPop c s
  | .flightInit c => Sys2Proof.Machine.execFlightInit c s
  | .add c => Sys2Proof.Machine.execAdd c s
  | .sub c => Sys2Proof.Machine.execSub c s
  | .mul c => Sys2Proof.Machine.execMul c s
  | .div c => Sys2Proof.Machine.execDiv c s
  | .fma c => Sys2Proof.Machine.execFma c s
  | .max c => Sys2Proof.Machine.execMax c s
  | .min c => Sys2Proof.Machine.execMin c s
  | .abs c => Sys2Proof.Machine.execAbs c s
  | .sqrt c => Sys2Proof.Machine.execSqrt c s
  | .rsqrt c => Sys2Proof.Machine.execRsqrt c s
  | .recip c => Sys2Proof.Machine.execRecip c s
  | .exp c => Sys2Proof.Machine.execExp c s
  | .exp2 c => Sys2Proof.Machine.execExp2 c s
  | .log c => Sys2Proof.Machine.execLog c s
  | .log2 c => Sys2Proof.Machine.execLog2 c s
  | .tanh c => Sys2Proof.Machine.execTanh c s
  | .sigmoid c => Sys2Proof.Machine.execSigmoid c s
  | .erf c => Sys2Proof.Machine.execErf c s
  | .convert c => Sys2Proof.Machine.execConvert c s
  | .resAdd c => Sys2Proof.Machine.execResAdd c s
  | .sumRows c => Sys2Proof.Machine.execSumRows c s
  | .maxRows c => Sys2Proof.Machine.execMaxRows c s
  | .minRows c => Sys2Proof.Machine.execMinRows c s
  | .dotRows c => Sys2Proof.Machine.execDotRows c s
  | .norm2Rows c => Sys2Proof.Machine.execNorm2Rows c s
  | .softmaxRows c => Sys2Proof.Machine.execSoftmaxRows c s
  | .fsetInit c => Sys2Proof.Machine.execFsetInit c s
  | .fsetAdvance c => Sys2Proof.Machine.execFsetAdvance c s
  | .fsetRefresh c => Sys2Proof.Machine.execFsetRefresh c s
  | .rootNewton c => Sys2Proof.Machine.execRootNewton c s
  | .rootChol c => Sys2Proof.Machine.execRootChol c s
  | .cholFactor c => Sys2Proof.Machine.execCholFactor c s
  | .rootDeadline c done iters started => Sys2Proof.Machine.execRootDeadline c done iters started s
  | .solveCg c => Sys2Proof.Machine.execSolveCg c s
  | .solvePcg c => Sys2Proof.Machine.execSolvePcg c s
  | .solveBicgstab c => Sys2Proof.Machine.execSolveBicgstab c s
  | .solveDeadline c done iters started => Sys2Proof.Machine.execSolveDeadline c done iters started s
  | .updFirst c => Sys2Proof.Machine.execUpdFirst c s
  | .updDiag c => Sys2Proof.Machine.execUpdDiag c s
  | .updPrecond c => Sys2Proof.Machine.execUpdPrecond c s
  | .shardInit c => Sys2Proof.Machine.execShardInit c s
  | .schedLoad c => Sys2Proof.Machine.execSchedLoad c s
  | .gather c => Sys2Proof.Machine.execGather c s
  | .digestCheck c => Sys2Proof.Machine.execDigestCheck c s
  | .copy c => Sys2Proof.Machine.execCopy c s
  | .convertBarge c => Sys2Proof.Machine.execConvertBarge c s
  | .fill c => Sys2Proof.Machine.execFill c s
  | .resPoolInit c => Sys2Proof.Machine.execResPoolInit c s
  | .resCreate c => Sys2Proof.Machine.execResCreate c s
  | .resPromote c => Sys2Proof.Machine.execResPromote c s
  | .resEvict c => Sys2Proof.Machine.execResEvict c s
  | .resPin c => Sys2Proof.Machine.execResPin c s
  | .resUnpin c => Sys2Proof.Machine.execResUnpin c s
  | .resDestroy c => Sys2Proof.Machine.execResDestroy c s
  | .pfStart c => Sys2Proof.Machine.execPfStart c s
  | .pfStop c => Sys2Proof.Machine.execPfStop c s
  | .pfResume c => Sys2Proof.Machine.execPfResume c s
  | .prefetchIssue sched => Sys2Proof.Machine.execPrefetchIssue sched s
  | .promotionCommit c => Sys2Proof.Machine.execPromotionCommit c s
  | .promotionResume c => Sys2Proof.Machine.execPromotionResume c s
  | .poundDrain die => Sys2Proof.Machine.execPoundDrain die s
  | .lkSignal c => Sys2Proof.Machine.execLkSignal c s
  | .lkSet c => Sys2Proof.Machine.execLkSet c s
  | .lkRead c => Sys2Proof.Machine.execLkRead c s
  | .lkNop c => Sys2Proof.Machine.execLkNop c s
  | .allReduce c => Sys2Proof.Machine.execAllReduce c s
  | .reduceScatter c => Sys2Proof.Machine.execReduceScatter c s
  | .allGather c => Sys2Proof.Machine.execAllGather c s
  | .broadcast c => Sys2Proof.Machine.execBroadcast c s
  | .reduceToOwner c => Sys2Proof.Machine.execReduceToOwner c s
  | .globalNorm c => Sys2Proof.Machine.execGlobalNorm c s
  | .permute c => Sys2Proof.Machine.execPermute c s
  | .barrier c => Sys2Proof.Machine.execBarrier c s
  | .collectiveDeadline c => Sys2Proof.Machine.execCollectiveDeadline c s
  | .permuteFlip c => Sys2Proof.Machine.execPermuteFlip c s
  | .censusSetup c => Sys2Proof.Machine.execCensusSetup c s
  | .censusStop c => Sys2Proof.Machine.execCensusStop c s
  | .watchSetup c => Sys2Proof.Machine.execWatchSetup c s
  | .watchStop c => Sys2Proof.Machine.execWatchStop c s
  | .twatchSetup c => Sys2Proof.Machine.execTwatchSetup c s
  | .twatchStop c => Sys2Proof.Machine.execTwatchStop c s
  | .testCore c => Sys2Proof.Machine.execTestCore c s
  | .testRoot c => Sys2Proof.Machine.execTestRoot c s
  | .testMove c => Sys2Proof.Machine.execTestMove c s
  | .testBasin c => Sys2Proof.Machine.execTestBasin c s
  | .calHbm c => Sys2Proof.Machine.execCalHbm c s
  | .calPort c => Sys2Proof.Machine.execCalPort c s
  | .testResult unit outcome => Sys2Proof.Machine.execTestResult unit outcome s
  | .testRotation unit => Sys2Proof.Machine.execTestRotation unit s
  | .jobSubmit c => Sys2Proof.Machine.execJobSubmit c s
  | .jobEnd c => Sys2Proof.Machine.execJobEnd c s
  | .jobSuspend c => Sys2Proof.Machine.execJobSuspend c s
  | .jobResume c => Sys2Proof.Machine.execJobResume c s
  | .cmdAbort c => Sys2Proof.Machine.execCmdAbort c s
  | .lockGrant c => Sys2Proof.Machine.execLockGrant c s
  | .lockRelease c => Sys2Proof.Machine.execLockRelease c s
  | .loanGrant c => Sys2Proof.Machine.execLoanGrant c s
  | .loanReturn c => Sys2Proof.Machine.execLoanReturn c s
  | .hostbufReg c => Sys2Proof.Machine.execHostbufReg c s
  | .hostbufUnreg c => Sys2Proof.Machine.execHostbufUnreg c s
  | .modeStage c => Sys2Proof.Machine.execModeStage c s
  | .dieFence c => Sys2Proof.Machine.execDieFence c s
  | .dieUnfence c failed => Sys2Proof.Machine.execDieUnfence c failed s
  | .fwUpdate c obj resumeFails => Sys2Proof.Machine.execFwUpdate c obj resumeFails s
  | .checkpoint c => Sys2Proof.Machine.execCheckpoint c s
  | .shardCopy c => Sys2Proof.Machine.execShardCopy c s
  | .dumpBuffer c => Sys2Proof.Machine.execDumpBuffer c s
  | .attest c => Sys2Proof.Machine.execAttest c s
  | .ringFetch ring => Sys2Proof.Machine.execRingFetch ring s
  | .commandStart c => Sys2Proof.Machine.execCommandStart c s
  | .commitPoint c => Sys2Proof.Machine.execCommitPoint c s
  | .publicationComplete c => Sys2Proof.Machine.execPublicationComplete c s
  | .preemption die => Sys2Proof.Machine.execPreemption die s
  | .contextResume die ctx => Sys2Proof.Machine.execContextResume die ctx s
  | .modeAckTimeout chg => Sys2Proof.Machine.execModeAckTimeout chg s
  | .stagedModeExpiry chg => Sys2Proof.Machine.execStagedModeExpiry chg s
  | .modeStartHold chg => Sys2Proof.Machine.execModeStartHold chg s
  | .modeApply chg => Sys2Proof.Machine.execModeApply chg s
  | .powerChangeRetry => Sys2Proof.Machine.execPowerChangeRetry s
  | .sesPskStart input => Sys2Proof.Machine.execSesPskStart input s
  | .sesPskFinish input => Sys2Proof.Machine.execSesPskFinish input s
  | .sesPakeStart input => Sys2Proof.Machine.execSesPakeStart input s
  | .sesPakeFinish input => Sys2Proof.Machine.execSesPakeFinish input s
  | .sesClose input => Sys2Proof.Machine.execSesClose input s
  | .sessionSlotExpiry slot => Sys2Proof.Machine.execSessionSlotExpiry slot s
  | .jobLink input => Sys2Proof.Machine.execJobLink input s
  | .ownerEnroll input => Sys2Proof.Machine.execOwnerEnroll input s
  | .ownerRelease input => Sys2Proof.Machine.execOwnerRelease input s
  | .debugUnlock input => Sys2Proof.Machine.execDebugUnlock input s
  | .idCerts input => Sys2Proof.Machine.execIdCerts input s
  | .sesExport input => Sys2Proof.Machine.execSesExport input s
  | .ringBind input => Sys2Proof.Machine.execRingBind input s
  | .ringUnbind input => Sys2Proof.Machine.execRingUnbind input s
  | .hdmBind input => Sys2Proof.Machine.execHdmBind input s
  | .hdmUnbind input => Sys2Proof.Machine.execHdmUnbind input s
  | .privMap input => Sys2Proof.Machine.execPrivMap input s
  | .eventRead input => Sys2Proof.Machine.execEventRead input s
  | .spdmRequest request => Sys2Proof.Machine.execSpdmRequest request s
  | .configRequest offset write' => Sys2Proof.Machine.execConfigRequest offset write' s
  | .hdmRead off len => Sys2Proof.Machine.execHdmRead off len s
  | .hdmWrite off data => Sys2Proof.Machine.execHdmWrite off data s
  | .snoop addr => Sys2Proof.Machine.execSnoop addr s
  | .cxlLinkDown cause => Sys2Proof.Machine.execCxlLinkDown cause s
  | .cxlLinkUp width rate ide => Sys2Proof.Machine.execCxlLinkUp width rate ide s
  | .ringCfg via ring value => Sys2Proof.Machine.execRingCfg via ring value s
  | .ringTail via ring value => Sys2Proof.Machine.execRingTail via ring value s
  | .registerWrite via off width value => Sys2Proof.Machine.execRegisterWrite via off width value s
  | .registerReadClear via off width => Sys2Proof.Machine.execRegisterReadClear via off width s
  | .sicTake die target source own => Sys2Proof.Machine.execSicTake die target source own s
  | .sicEoi die target source => Sys2Proof.Machine.execSicEoi die target source s
  | .sicPendSet die w value => Sys2Proof.Machine.execSicPendSet die w value s
  | .sicPendClr die w value => Sys2Proof.Machine.execSicPendClr die w value s
  | .sicEnSet die w value => Sys2Proof.Machine.execSicEnSet die w value s
  | .sicEnClr die w value => Sys2Proof.Machine.execSicEnClr die w value s
  | .sicSrcCfg die source value => Sys2Proof.Machine.execSicSrcCfg die source value s
  | .sicSrcMod die source value => Sys2Proof.Machine.execSicSrcMod die source value s
  | .sicTgtCtrl die target value => Sys2Proof.Machine.execSicTgtCtrl die target value s
  | .sourceFire die source => Sys2Proof.Machine.execSourceFire die source s
  | .moderationTimer die source => Sys2Proof.Machine.execModerationTimer die source s
  | .targetIdle die target => Sys2Proof.Machine.execTargetIdle die target s
  | .cntCtrl die value => Sys2Proof.Machine.execCntCtrl die value s
  | .cntClear die value => Sys2Proof.Machine.execCntClear die value s
  | .counterFreeze die => Sys2Proof.Machine.execCounterFreeze die s
  | .trCtrl die value => Sys2Proof.Machine.execTrCtrl die value s
  | .trTrigNow die value => Sys2Proof.Machine.execTrTrigNow die value s
  | .trMark die value => Sys2Proof.Machine.execTrMark die value s
  | .portCtrl port value => Sys2Proof.Machine.execPortCtrl port value s
  | .portCredit port value => Sys2Proof.Machine.execPortCredit port value s
  | .flitReceive port flit => Sys2Proof.Machine.execFlitReceive port flit s
  | .controlFlit port ack' cr => Sys2Proof.Machine.execControlFlit port ack' cr s
  | .controlFlitTimer port => Sys2Proof.Machine.execControlFlitTimer port s
  | .laneFailure port lane => Sys2Proof.Machine.execLaneFailure port lane s
  | .portTrainingDone port lanes farPeer => Sys2Proof.Machine.execPortTrainingDone port lanes farPeer s
  | .portRetrain port => Sys2Proof.Machine.execPortRetrain port s
  | .messageForward port m => Sys2Proof.Machine.execMessageForward port m s
  | .readReq m addr len engine => Sys2Proof.Machine.execReadReq m addr len engine s
  | .readResp m addr data => Sys2Proof.Machine.execReadResp m addr data s
  | .write m addr data => Sys2Proof.Machine.execWrite m addr data s
  | .collData m group stream round data => Sys2Proof.Machine.execCollData m group stream round data s
  | .stagedAck m => Sys2Proof.Machine.execStagedAck m s
  | .commit m => Sys2Proof.Machine.execCommit m s
  | .cancel m => Sys2Proof.Machine.execCancel m s
  | .lockSignal m lock amount => Sys2Proof.Machine.execLockSignal m lock amount s
  | .collJoin m group stream round op twice => Sys2Proof.Machine.execCollJoin m group stream round op twice s
  | .collSet m group stream round count set => Sys2Proof.Machine.execCollSet m group stream round count set s
  | .collLate m group stream round count result => Sys2Proof.Machine.execCollLate m group stream round count result s
  | .collFlip m group stream round tFlip => Sys2Proof.Machine.execCollFlip m group stream round tFlip s
  | .authNak m => Sys2Proof.Machine.execAuthNak m s
  | .time m port now hops => Sys2Proof.Machine.execTime m port now hops s
  | .pdelay m port delay => Sys2Proof.Machine.execPdelay m port delay s
  | .announce m listCrc => Sys2Proof.Machine.execAnnounce m listCrc s
  | .hello m port => Sys2Proof.Machine.execHello m port s
  | .heartbeat m => Sys2Proof.Machine.execHeartbeat m s
  | .member m table => Sys2Proof.Machine.execMember m table s
  | .lost m peer => Sys2Proof.Machine.execLost m peer s
  | .stage m scope job epoch barrier items peers => Sys2Proof.Machine.execStage m scope job epoch barrier items peers s
  | .ack m chg place => Sys2Proof.Machine.execAck m chg place s
  | .openMsg m chg tApply => Sys2Proof.Machine.execOpenMsg m chg tApply s
  | .discard m chg => Sys2Proof.Machine.execDiscard m chg s
  | .loanEnd m => Sys2Proof.Machine.execLoanEnd m s
  | .announceTimer => Sys2Proof.Machine.execAnnounceTimer s
  | .timeTimer => Sys2Proof.Machine.execTimeTimer s
  | .pdelayTimer port => Sys2Proof.Machine.execPdelayTimer port s
  | .heartbeatTimer => Sys2Proof.Machine.execHeartbeatTimer s
  | .peerLost peer => Sys2Proof.Machine.execPeerLost peer s
  | .timeUnlocked => Sys2Proof.Machine.execTimeUnlocked s
  | .scrubRead addr finding => Sys2Proof.Machine.execScrubRead addr finding s
  | .unitInternalError unit => Sys2Proof.Machine.execUnitInternalError unit s
  | .fatalError cause => Sys2Proof.Machine.execFatalError cause s
  | .inputSample m => Sys2Proof.Machine.execInputSample m s
  | .temperatureSample sensor hbm tenths coolSince => Sys2Proof.Machine.execTemperatureSample sensor hbm tenths coolSince s
  | .pwrEnAssert => Sys2Proof.Machine.execPwrEnAssert s
  | .powerGood => Sys2Proof.Machine.execPowerGood s
  | .pwrEnDeassert => Sys2Proof.Machine.execPwrEnDeassert s
  | .shutdownTimeout => Sys2Proof.Machine.execShutdownTimeout s
  | .standbyEntered => Sys2Proof.Machine.execStandbyEntered s
  | .inputLoss => Sys2Proof.Machine.execInputLoss s
  | .modResetN level => Sys2Proof.Machine.execModResetN level s
  | .moduleReset => Sys2Proof.Machine.execModuleReset s
  | .standby => Sys2Proof.Machine.execStandby s
  | .i3cReadPointer offset => Sys2Proof.Machine.execI3cReadPointer offset s
  | .dynamicAddressAssignment addr => Sys2Proof.Machine.execDynamicAddressAssignment addr s
  | .configVerified fw rec => Sys2Proof.Machine.execConfigVerified fw rec s
  | .imageVerified img => Sys2Proof.Machine.execImageVerified img s
  | .diesReleased puf0 puf1 => Sys2Proof.Machine.execDiesReleased puf0 puf1 s
  | .hbmTrainingDone failedStacks => Sys2Proof.Machine.execHbmTrainingDone failedStacks s
  | .selfTestDone failed => Sys2Proof.Machine.execSelfTestDone failed s
  | .initialisationDone => Sys2Proof.Machine.execInitialisationDone s
  | .towpathResolved => Sys2Proof.Machine.execTowpathResolved s
  | .extest => Sys2Proof.Machine.execExtest s
  | .samplePreload => Sys2Proof.Machine.execSamplePreload s
  | .idcode => Sys2Proof.Machine.execIdcode s
  | .highz => Sys2Proof.Machine.execHighz s
  | .clamp => Sys2Proof.Machine.execClamp s
  | .extestPulse => Sys2Proof.Machine.execExtestPulse s
  | .extestTrain => Sys2Proof.Machine.execExtestTrain s
  | .dbgSelect die => Sys2Proof.Machine.execDbgSelect die s
  | .dbgAccess => Sys2Proof.Machine.execDbgAccess s
  | .bypass => Sys2Proof.Machine.execBypass s
  | .trstN => Sys2Proof.Machine.execTrstN s
  | .hdmDecoderCommit ways hpa => Sys2Proof.Machine.execHdmDecoderCommit ways hpa s
  | .pwrCtrl via value => Sys2Proof.Machine.execPwrCtrl via value s
  | .hotSwapRetry => Sys2Proof.Machine.execHotSwapRetry s
  | .testLogicReset => Sys2Proof.Machine.execTestLogicReset s
  | .hbmInterfaceLost stack => Sys2Proof.Machine.execHbmInterfaceLost stack s

end Sys2Proof.Machine
end

