-- ==== Sys2Proof/Machine/Idle.lean ====
section
/-! DEFINITION. What the block does with no command waiting: a nanosecond of device time passes (R501), and what goes on of itself goes on
(R122, R141, R166, R210, R219, R235, R241, R243, R336, R344). -/

set_option cleanup.letToHave false

namespace Sys2Proof.Machine

-- root and solve commands under way (R123, R141, R165, R166) ---------------------------------------------------------------------

/-- What the next problem of a command reads as it starts; none after the last. -/
def nextReads (s : State) (c : Cmd) : Option (List (GAddr × Nat)) :=
  let n := c.probs.length
  if c.pkt.cls = 4 then
    match rootJob s c with
    | some (q, ps) => ps[n]?.map (rootReads q)
    | none => none
  else (solveJob s c).2[n]?.map (solveReads (solveJob s c).1)

/-- The running problem of a command has completed one more iteration, if it has one more to do. -/
def oneMore (s : State) (c : Cmd) : Cmd :=
  match c.probs.getLast? with
  | none => c
  | some x =>
    let d := { c with probs := c.probs.dropLast ++ [{ x with iter := x.iter + 1 }] }
    if (progressOf s d).2.1 = x.iter + 1 then d else c

/-- The next problem of a command starts, and its inputs are taken (R141, R166): not on a poisoned unit, which ends the command when its
operation reads it. -/
def nextProb (s : State) (c : Cmd) : Cmd :=
  match nextReads s c with
  | some rs => if (poisonAmong s c rs).isSome then c else { c with probs := c.probs ++ [probIn s c c.probs.length] }
  | none => c

/-- A root or solve command gets on in a nanosecond by nothing, by an iteration or to its next problem: which, is free. -/
def tickCmd (s : State) (c : Cmd) : State :=
  let k := Config.freeTick s.fresh % 3
  let s := { s with fresh := s.fresh + 1 }
  if k = 1 then putCmd s (oneMore s c) else if k = 2 then putCmd s (nextProb s c) else s

def tickCmds (s : State) : State :=
  (s.cmds.filter (fun c => c.phase == .running && (c.pkt.cls == 4 || c.pkt.cls == 5))).foldl tickCmd s

-- errors of memories (R122, R241) ------------------------------------------------------------------------------------------------

/-- An error in a root engine's scratch (R122): counted, and an uncorrectable one fails the command that runs there. -/
def scratchError (s : State) (i : Nat) (ue : Bool) : State :=
  let e := getRoot s i
  let s := setRoot s i (if ue then { e with eccUe := min (e.eccUe + 1) 0xFFFF } else { e with eccCe := min (e.eccCe + 1) 0xFFFF })
  if ue then
    { s with cmds := s.cmds.map (fun c =>
        if c.phase = .running ∧ c.place = some ⟨i / 8, i % 8, 3⟩ then { c with scratchUe := true } else c) }
  else s

/-- What befalls the memories: a corrected error, an uncorrectable one that waits for its reader, or either in a scratch (R122, R241). -/
def befall (s : State) : State :=
  let u := Config.upset s.fresh
  let s := { s with fresh := s.fresh + 1 }
  match u with
  | some (0, a) => if backed a && (getDie s (dieOfAddr a)).up then correctedError s a else s
  | some (1, a) =>
    let p := poisonUnit a
    if backed a && (getDie s (dieOfAddr a)).up && !(s.poison.contains p) then { s with poison := s.poison ++ [p] } else s
  | some (k + 2, i) => if i < 64 ∧ (getDie s (i / 8)).up = true then scratchError s i (k == 1) else s
  | none => s

/-- What befalls the links: a codeword of a lane of a port that is up is corrected, or could not be (R336, R372). -/
def linkTick (s : State) : State :=
  let u := Config.linkNoise s.fresh
  let s := { s with fresh := s.fresh + 1 }
  match u with
  | some (p, l, ue) =>
    let x := getPort s p
    if decide (p < 36) && portUp x && decide (l < 4) && bit x.laneOk l then
      setPort s p (if ue then { x with fecUe := (x.fecUe + 1) % 2 ^ 48, laneUe := x.laneUe.set l (x.laneUe.getD l 0 + 1) }
        else { x with fecCe := (x.fecCe + 1) % 2 ^ 48 })
    else s
  | none => s

/-- Fires MEM_ERR source 195 of a die as the free space of one of its pounds falls below 1/16 of the pound (R235, R465). -/
def poundWatch (s : State) (d : Nat) : State :=
  let m := getMemRegs s d
  let lowIn (hbm : Bool) := decide (16 * poundFree s d hbm < poundSize s hbm)
  let b := lowIn false
  let h := lowIn true
  let s := setMemRegs s d { m with lowBasin := b, lowHbm := h }
  if (b && !m.lowBasin) || (h && !m.lowHbm) then fire s d 195 else s

/-- The pounds of every die in service are looked at, at each idle step (notes/assumptions/138). -/
def poundWatches (s : State) : State := ((List.range 8).filter (fun d => (getDie s d).up && !(getDie s d).fenced)).foldl poundWatch s

/-- Levels of the board's pins as one word, the lowest bit first (R523). -/
def levelsOf (n : Nat) : BoardPins :=
  { perst := bit n 0, scl := bit n 1, sda := bit n 2, refclk := bit n 3, refTp := bit n 4, towRx := BitVec.ofNat 144 (n / 2 ^ 5), cxlRx := BitVec.ofNat 16 (n / 2 ^ 149) }

/-- What is shifted into the cells that drive as one word, the lowest bit first (R523). -/
def cellsOf (n : Nat) : DriveCells := { faultN := bit n 0, towTx := BitVec.ofNat 144 (n / 2), cxlTx := BitVec.ofNat 16 (n / 2 ^ 145) }

/-- The pins that the board drives, what it holds at TDI and the coolant change as they will (R515, R523, R527, R529); the controller, where it has
power, measures the coolant. -/
def boardTick (s : State) : State :=
  let (k, a, t, p, d) := Config.board s.fresh
  { s with fresh := s.fresh + 1, power := { s.power with
      keeperNow := k, addrNow := a % 4, pins := levelsOf p, shiftIn := cellsOf d,
      coolant := if s.power.off ∧ s.power.phase ≠ 9 then s.power.coolant else t % 2 ^ 32 } }

-- the idle step ------------------------------------------------------------------------------------------------------------------

/-- Objects with a write-back under way. -/
def writingBack (s : State) : List Nat := (s.objs.filter (fun e => e.2.t1.wb.isSome || e.2.t2.wb.isSome)).map Prod.fst

/-- A nanosecond of device time passes once the module is READY, and what goes on of itself goes on: the problems of root and solve
commands, errors of memories and links, write-backs, remote writes that wait for room, messages that wait at a port, and the watch over the pounds; before READY device time stands
at 0 (R501, R506). The board's pins and coolant change at any moment. The nanosecond at an idle step is a DESIGN CHOICE (notes/assumptions/2). -/
def idleStep (s : State) : State :=
  let s := boardTick s
  if ready s then
    let s := tickCmds (timeTo s (s.time + 1))
    let s := linkTick (fenceFulls (befall s))
    poundWatches (releaseAll (admitStaged (pushWbs s (writingBack s))))
  else s

end Sys2Proof.Machine
end

