-- ==== Sys2Proof/Safety.lean ====
section
/-! DEFINITION. What a sound state is, and the terms in which the statements speak of it. -/

namespace Sys2Proof.Machine

/-- A sound state: local memory and host memory list rising addresses, and no byte that an unlisted address reads. -/
abbrev Sound (s : State) : Prop := Memory.wf s.mem = true ∧ Memory.wf s.host = true

/-- Nothing observes the module's work in memory: no trace block captures (R439), no tensor watch, job counter area or census
ring is set up (R66, R433, R435), and no residency object is active (R212). -/
structure Still (s : State) : Prop where
  trace : ∀ d, (getTrace s d).state = 0 ∨ (getTrace s d).state = 3
  watch : s.twatch = []
  objs : s.objs = []
  census : s.census = []

/-- No trace block captures (R440). -/
def Uncaptured (s : State) : Prop := ∀ d, (getTrace s d).state = 0 ∨ (getTrace s d).state = 3

/-- The accepted command of a handle runs, and it is of an operation (class and operation). -/
def Runs (s : State) (cid clsOp : Nat) (c : Cmd) : Prop :=
  findCmd s cid = some c ∧ c.phase = .running ∧ c.pkt.clsOp = clsOp

/-- What no command of the rings' classes 0x1 to 0xA and 0xE may change: the configuration, the module's trust, the sessions with their
counts, the CXL link, the test access port, the state dump, and what other peers stage, lend and share here. -/
structure Apart (s t : State) : Prop where
  remoteSt : t.remoteSt = s.remoteSt
  loans : t.loans = s.loans
  links : t.links = s.links
  sessions : t.sessions = s.sessions
  counts : t.counts = s.counts
  cxl : t.cxl = s.cxl
  nextSes : t.nextSes = s.nextSes
  dump : t.dump = s.dump
  cfg : t.cfg = s.cfg
  tap : t.tap = s.tap
  trust : t.trust = s.trust
  modEpoch : t.modEpoch = s.modEpoch

/-- What a command is, whatever becomes of it: its handle, packet, sender, session and shapes. -/
def Cmd.self (c : Cmd) : Nat × Packet × Origin × Nat × List (Option Shape) := (c.id, c.pkt, c.origin, c.sess, c.shapes)

/-- The memory error registers of a die, without what one uncorrectable error writes: its counts, its record and the granules retired (R241,
R243, R244). -/
def MemRegs.kept (m : MemRegs) : MemRegs := { m with hbmUe := 0, bsnUe := 0, errAddr := 0, errInfo := 0, retired := [] }

/-- What no commit writes but by the effect of its own operation: everything but the command's record, the locks, memory with its
keys, poison and pounds, what observes and reports, and what an eviction that was waiting leaves (the serials of write-backs, and the record of
an uncorrectable error that one met, R219, R222, R241). -/
structure Beside (s t : State) : Prop where
  pending : t.pending = s.pending
  time : t.time = s.time
  remoteSt : t.remoteSt = s.remoteSt
  memRegs : ∀ d, (getMemRegs t d).kept = (getMemRegs s d).kept
  nextId : t.nextId = s.nextId
  serial : s.serial ≤ t.serial
  rings : t.rings = s.rings
  jobs : t.jobs = s.jobs
  ctxs : t.ctxs = s.ctxs
  ended : t.ended = s.ended
  flights : t.flights = s.flights
  fsets : t.fsets = s.fsets
  shards : t.shards = s.shards
  scheds : t.scheds = s.scheds
  loans : t.loans = s.loans
  pools : t.pools = s.pools
  pfs : t.pfs = s.pfs
  census : t.census = s.census
  watch : t.watch = s.watch
  twatch : t.twatch = s.twatch
  suspects : t.suspects = s.suspects
  links : t.links = s.links
  roots : t.roots = s.roots
  engines : t.engines = s.engines
  testing : t.testing = s.testing
  testQ : t.testQ = s.testQ
  changes : t.changes = s.changes
  modEpoch : t.modEpoch = s.modEpoch
  rounds : t.rounds = s.rounds
  streams : t.streams = s.streams
  transit : t.transit = s.transit
  sessions : t.sessions = s.sessions
  counts : t.counts = s.counts
  bufs : t.bufs = s.bufs
  cxl : t.cxl = s.cxl
  answers : t.answers = s.answers
  nextSes : t.nextSes = s.nextSes
  dump : t.dump = s.dump
  cfg : t.cfg = s.cfg
  tap : t.tap = s.tap
  trust : t.trust = s.trust
  ids : t.cmds.map Cmd.id = s.cmds.map Cmd.id
  same : ∀ x ∈ t.cmds, x.self ∈ s.cmds.map Cmd.self

/-- Local memory with staged bytes published, in their order (R238). -/
def published (m : List Host.Cell) (ws : List SWrite) : List Host.Cell :=
  ws.foldl (fun m w => if w.tgt.tier < 3 then memWrite m w.tgt.off w.bytes else m) m

/-- Only counters, their signals and free values have been drawn upon (R430, R432). -/
structure Meters (s t : State) : Prop where
  pending : t.pending = s.pending
  time : t.time = s.time
  mem : t.mem = s.mem
  host : t.host = s.host
  keys : t.keys = s.keys
  poison : t.poison = s.poison
  poundQ : t.poundQ = s.poundQ
  remoteSt : t.remoteSt = s.remoteSt
  memRegs : t.memRegs = s.memRegs
  cmds : t.cmds = s.cmds
  nextId : t.nextId = s.nextId
  serial : t.serial = s.serial
  rings : t.rings = s.rings
  locks : t.locks = s.locks
  jobs : t.jobs = s.jobs
  ctxs : t.ctxs = s.ctxs
  queueRe : t.queueRe = s.queueRe
  ended : t.ended = s.ended
  flights : t.flights = s.flights
  fsets : t.fsets = s.fsets
  shards : t.shards = s.shards
  scheds : t.scheds = s.scheds
  loans : t.loans = s.loans
  pools : t.pools = s.pools
  objs : t.objs = s.objs
  pfs : t.pfs = s.pfs
  census : t.census = s.census
  watch : t.watch = s.watch
  twatch : t.twatch = s.twatch
  suspects : t.suspects = s.suspects
  links : t.links = s.links
  dies : t.dies = s.dies
  roots : t.roots = s.roots
  engines : t.engines = s.engines
  testing : t.testing = s.testing
  testQ : t.testQ = s.testQ
  changes : t.changes = s.changes
  modEpoch : t.modEpoch = s.modEpoch
  ports : t.ports = s.ports
  domain : t.domain = s.domain
  rounds : t.rounds = s.rounds
  streams : t.streams = s.streams
  sent : t.sent = s.sent
  held : t.held = s.held
  transit : t.transit = s.transit
  sessions : t.sessions = s.sessions
  counts : t.counts = s.counts
  bufs : t.bufs = s.bufs
  cxl : t.cxl = s.cxl
  msix : t.msix = s.msix
  answers : t.answers = s.answers
  nextSes : t.nextSes = s.nextSes
  sesQ : t.sesQ = s.sesQ
  modQ : t.modQ = s.modQ
  traces : t.traces = s.traces
  dump : t.dump = s.dump
  cfg : t.cfg = s.cfg
  power : t.power = s.power
  tap : t.tap = s.tap
  trust : t.trust = s.trust

/-- A ring's command of an operation (class and operation) runs. -/
structure RingRuns (s : State) (cid clsOp : Nat) (c : Cmd) : Prop where
  runs : Runs s cid clsOp c
  ring : ∃ k, c.origin = .ring k

/-- What a run staged stays in the module, raises nothing and awaits nothing: no output goes to a lender (R275). -/
structure Near (r : Stg) : Prop where
  wait : r.wait = false
  evs : r.evs = []
  near : ∀ w ∈ r.writes, w.tgt.tier ≠ 4

/-- The record of a command that has committed at the state's time with what its run staged (R275, R283); its TIER 5 outputs
are still to be published (R209). -/
def Recorded (s : State) (cid : Nat) (c : Cmd) (r : Stg) (t : State) : Prop :=
  ∃ z, findCmd t cid = some z ∧ z.phase = .committed ∧ z.pkt = c.pkt ∧ z.status = r.status ∧ z.detail = r.detail ∧
    z.ieee = r.ieee ∧ z.commitAt = s.time ∧ z.claimed = false ∧ z.writes = r.writes.filter (fun w => w.tgt.tier == 5)

/-- A command with what its run staged. -/
def withRun (c : Cmd) (r : Stg) : Cmd :=
  { c with phase := .staged, writes := cutFar r.writes, outs := r.outs, ieee := r.ieee, flags := c.flags ||| r.flags,
           status := r.status, detail := r.detail, aux := r.aux }

/-- A command as it commits, with the signals that it is still to make (R276, R286). -/
def atCommit (s : State) (c : Cmd) : Cmd :=
  { c with phase := .committed, commitAt := s.time, busy := s.time - c.started, toSend := laterSignals s c }

/-- The run of a root or solve command that nothing it reads stops: its engine's scratch has not failed, and no problem that starts now reads a
poisoned unit (R122, R241). -/
def cleanly (reads : State → Cmd → List (GAddr × Nat)) (run : State → Cmd → Out) (s : State) (c : Cmd) : Out :=
  if c.scratchUe = true ∨ (poisonAmong s c (reads s c)).isSome = true then .hold c.aux else run s c

/-- The rows whose whole effect is the outputs that they write: the command's handle, class and operation, and run. -/
def outputRow : Instr → Option (Nat × Nat × (State → Cmd → Out))
  | .dgrad c => some (c, 0x102, meProduct 0x02) | .wgrad c => some (c, 0x103, meProduct 0x03)
  | .wgradRowmask c => some (c, 0x104, meProduct 0x04) | .wgradBlkmask c => some (c, 0x105, meProduct 0x05)
  | .cov c => some (c, 0x109, meCov)
  | .add c => some (c, 0x201, veRun 0x01)  | .sub c => some (c, 0x202, veRun 0x02)
  | .mul c => some (c, 0x203, veRun 0x03)  | .div c => some (c, 0x204, veRun 0x04)
  | .fma c => some (c, 0x205, veRun 0x05)  | .max c => some (c, 0x206, veRun 0x06)
  | .min c => some (c, 0x207, veRun 0x07)  | .abs c => some (c, 0x208, veRun 0x08)
  | .sqrt c => some (c, 0x209, veRun 0x09)  | .rsqrt c => some (c, 0x20A, veRun 0x0A)
  | .recip c => some (c, 0x20B, veRun 0x0B)  | .exp c => some (c, 0x20C, veRun 0x0C)
  | .exp2 c => some (c, 0x20D, veRun 0x0D)  | .log c => some (c, 0x20E, veRun 0x0E)
  | .log2 c => some (c, 0x20F, veRun 0x0F)  | .tanh c => some (c, 0x210, veRun 0x10)
  | .sigmoid c => some (c, 0x211, veRun 0x11)  | .erf c => some (c, 0x212, veRun 0x12)
  | .convert c => some (c, 0x218, veRun 0x18)  | .resAdd c => some (c, 0x219, veRun 0x19)
  | .sumRows c => some (c, 0x220, veRun 0x20)  | .maxRows c => some (c, 0x221, veRun 0x21)
  | .minRows c => some (c, 0x222, veRun 0x22)  | .dotRows c => some (c, 0x223, veRun 0x23)
  | .norm2Rows c => some (c, 0x224, veRun 0x24)  | .softmaxRows c => some (c, 0x225, veRun 0x25)
  | .solveCg c => some (c, 0x501, cleanly (solveToRead maxProblems) (solveWhole 1))
  | .solvePcg c => some (c, 0x502, cleanly (solveToRead maxProblems) (solveWhole 2))
  | .solveBicgstab c => some (c, 0x503, cleanly (solveToRead maxProblems) (solveWhole 3))
  | .gather c => some (c, 0x610, fun s c => gatherRun s c (gatherJob s c) (c.aux.getD 0 0))
  | .digestCheck c => some (c, 0x611, digestCompute)
  | .lkNop c => some (c, 0x804, fun _ _ => .done Stg.none)
  | _ => none

-- signal controllers ---------------------------------------------------------------------------------------------------------

/-- Only the controller of one die differs. -/
def OnlySic (s t : State) (d : Nat) : Prop := { t with sics := s.sics } = s ∧ ∀ e, e ≠ d → getSic t e = getSic s e

/-- Two controllers whose targets differ at most in that cores that waited have resumed. -/
structure Woken (c c' : Sic) : Prop where
  ctrl : c'.ctrl = c.ctrl
  tgt : ∀ g, c'.tgt g = c.tgt g ∨ c'.tgt g = { c.tgt g with idle := false }

/-- The bits of SIC_ERR that an assignment keeps: all but UNROUTABLE and the number of the latest unroutable source (R459). -/
def ErrKept (e e' : Nat) : Prop := ∀ b, b ≠ 2 → (b < 20 ∨ 30 ≤ b) → bit e' b = bit e b

/-- A source that is not reserved and whose bit a value written to word `w` of a bitmap register sets. -/
def Named (d w value j : Nat) : Prop := 32 * w ≤ j ∧ j < 32 * w + 32 ∧ bit value (j - 32 * w) = true ∧ sourceOk d j = true

/-- A source has become pending and is assigned by routing (R454). -/
def Routed (c : Sic) (x y : Source) : Prop :=
  y = { x with state := 1, held := false, heldCount := 0, assigned := routeTo c x, activeOn := (routeTo c x).getD x.activeOn,
               last := (routeTo c x).getD x.last }

/-- A source after one firing (R453, R458). -/
structure FiredOnce (now : Nat) (c : Sic) (x y : Source) : Prop where
  pending : x.state = 1 ∨ x.state = 3 → y = { x with coalesced := min (x.coalesced + 1) 255 }
  active : x.state = 2 → y = { x with state := 3, coalesced := min (x.coalesced + 1) 255 }
  more : x.state = 0 → x.held = true → x.heldCount + 1 < x.modCount → y = { x with heldCount := min (x.heldCount + 1) 255 }
  full : x.state = 0 → x.held = true → x.modCount ≤ x.heldCount + 1 → Routed c x y
  free : x.state = 0 → x.held = false → x.modCount ≤ 1 → Routed c x y
  hold : x.state = 0 → x.held = false → 1 < x.modCount → (∀ t, routeTo c x = some t → (c.tgt t).idle = false) →
    y = { x with held := true, heldCount := 1, heldAt := now }

/-- A source whose assignment alone may have changed: a pending one may have moved to another target (R454). -/
def Moved (x y : Source) : Prop := y = { x with assigned := y.assigned, activeOn := y.activeOn, last := y.last } ∧ (x.state ≠ 1 → y = x)

-- power and reset ----------------------------------------------------------------------------------------------------------------

/-- Credentials as they stand once device time begins again at 0: what is left of each lockout stays (R407). -/
def lockoutsKept (now : Nat) (cs : List (List Byte × CredFail)) : List (List Byte × CredFail) := cs.map (fun k => (k.1, { k.2 with until_ := k.2.until_ - now }))

/-- Start-up runs again from step 1 (R502 to R504): every command, job, lock, loan, session and ring has ended, device time is 0, and the
protected sector, what the host holds, the pins and the commands that wait outside stay. -/
structure Restarted (s t : State) : Prop where
  phase : t.power.phase = 0
  on : t.power.off = false ∧ t.power.pwrOk = true
  cmds : t.cmds = [] ∧ t.jobs = [] ∧ t.locks = [] ∧ t.rings = [] ∧ t.loans = [] ∧ t.sessions = [] ∧ t.dies = [] ∧ t.ports = []
  time : t.time = 0
  sector : t.trust.owner = s.trust.owner ∧ t.trust.ownerEp = s.trust.ownerEp ∧ t.trust.cfgFloor = s.trust.cfgFloor ∧
    t.trust.floors = s.trust.floors ∧ t.trust.creds = lockoutsKept s.time s.trust.creds ∧ t.trust.slotOrder = s.trust.slotOrder
  outside : t.pending = s.pending ∧ t.host = s.host
  pins : t.power.pwrEn = s.power.pwrEn ∧ t.power.keeperNow = s.power.keeperNow ∧ t.power.addrNow = s.power.addrNow ∧ t.power.pins = s.power.pins

/-- The straps stand as the board presents them (R515, R529). -/
def Strapped (s t : State) : Prop := t.power.keeperStrap = s.power.keeperNow ∧ t.power.addrStrap = s.power.addrNow

/-- HBM keeps its bytes, of which only those of the dump parts stay readable; every other memory reads zero (R503). -/
structure DumpSurvives (s t : State) : Prop where
  hbm : ∀ a, isHbm a = true → memByte t.mem a = memByte s.mem a
  rest : ∀ a, isHbm a = false → memByte t.mem a = 0
  dead : ∀ a, isHbm a = true → inDump s a = false → memByte s.mem a ≠ 0 → tget 2 t.keys a = deadKey
  held : t.dump.parts = s.dump.parts ∧ t.dump.cause = s.dump.cause

/-- Rails off: nothing volatile is left (R489, R507). -/
structure RailsOff (s t : State) : Prop where
  off : t.power.off = true ∧ t.power.pwrOk = false ∧ t.power.linkUp = false
  cmds : t.cmds = [] ∧ t.jobs = [] ∧ t.locks = [] ∧ t.rings = [] ∧ t.loans = [] ∧ t.sessions = [] ∧ t.mem = []
  dump : t.dump = Dump.rest
  sector : t.trust.owner = s.trust.owner ∧ t.trust.ownerEp = s.trust.ownerEp ∧ t.trust.cfgFloor = s.trust.cfgFloor ∧
    t.trust.floors = s.trust.floors ∧ t.trust.creds = lockoutsKept s.time s.trust.creds ∧ t.trust.boots = s.trust.boots
  outside : t.pending = s.pending ∧ t.host = s.host

/-- Nothing but the power registers and the record of answers changed. -/
def OnlyPower (s t : State) : Prop := { t with power := s.power, answers := s.answers } = s

-- containment -----------------------------------------------------------------------------------------------------------------------

/-- The power registers, without the events that await READY. -/
def Power.kept (p : Power) : Power := { p with bootEvents := [] }

/-- What keeps a die in service or out of it: its registers without its event log, the address of a refused access and a waiting drain. -/
def Die.kept (d : Die) : Die := { d with events := 0, log := [], regAddr := 0, draining := none }

/-- What the end of a command, of a job or of a ring, a kill and an event never change: device time, the configuration, the sessions' slots,
staged changes, the power state, and which units and dies are in service. Serials only grow, and an uncorrectable error may be recorded, since
what a kill lets go may be written back (R219, R222, R241). -/
structure Contained (s t : State) : Prop where
  pending : t.pending = s.pending
  time : t.time = s.time
  memRegs : ∀ d, (getMemRegs t d).kept = (getMemRegs s d).kept
  serial : s.serial ≤ t.serial
  roots : t.roots = s.roots
  engines : t.engines = s.engines
  changes : t.changes = s.changes
  modEpoch : t.modEpoch = s.modEpoch
  transit : t.transit = s.transit
  sessions : t.sessions = s.sessions
  answers : t.answers = s.answers
  nextSes : t.nextSes = s.nextSes
  cfg : t.cfg = s.cfg
  power : t.power.kept = s.power.kept
  dies : ∀ d, (getDie t d).kept = (getDie s d).kept

-- objects of jobs -----------------------------------------------------------------------------------------------------------------------

/-- A flight's control block (R99): the Software fields as FLIGHT_INIT took them, and the Module fields. -/
def Flight.block (f : Flight) : List Byte :=
  leBytes 8 (GAddr.code ⟨1, 0, f.basinBase⟩) ++ leBytes 8 f.basinSize ++ leBytes 8 f.hbmBase ++ leBytes 8 f.hbmSize ++ leBytes 8 (flDepth f) ++ leBytes 4 f.entries.length ++ leBytes 4 (f.entries.filter (fun e => e.spilled)).length ++ leBytes 8 f.high ++
  leBytes 2 f.job ++ leBytes 2 (match f.entries with | [] => 0xFFFF | e :: _ => e.layer) ++ zeros 4

/-- One flight has become `f`: its control block says so, no other flight differs, and while nothing observes no other byte differs from
`m` (R99). -/
structure FlightIs (s t : State) (m : List Host.Cell) (a : Nat) (f : Flight) : Prop where
  frame : Beside { s with flights := t.flights } t
  here : tfind t.flights a = some f
  others : ∀ b, b ≠ a → tfind t.flights b = tfind s.flights b
  block : Still s → t.host = s.host ∧ memRead t.mem a 64 = f.block ∧ ∀ x, (x < a ∨ a + 64 ≤ x) → memByte t.mem x = memByte m x

/-- The tensor of a push has become the top entry of its flight (R101, R102). -/
def Pushed (s : State) (c : Cmd) (a : Nat) (o : Opnd) (f : Flight) (m : List Host.Cell) (t : State) : Prop :=
  ∃ d, FlightIs s t m a { f with
      entries := ⟨c.pkt.layer, c.pkt.operator, c.pkt.seq, o.sh.fmt, o.sh.rows, o.sh.cols, d, false⟩ :: f.entries,
      high := max f.high (flDepth { f with entries := ⟨c.pkt.layer, c.pkt.operator, c.pkt.seq, o.sh.fmt, o.sh.rows, o.sh.cols, d, false⟩ :: f.entries }) } ∧
    (Still s → d = planesOf o.addr.off o.sh (cBytes s c o.addr (tensorBytes o.addr.off o.sh)))

/-- A flight with every entry counted as resident. -/
def Flight.data (f : Flight) : List FlightEntry := f.entries.map (fun e => { e with spilled := false })

/-- The refreshes of a set's blocks have come due at a commit: each block has a command of the module's own, or counts as skipped; none is
issued while an FSET_INIT waits (R118 to R120, R143, R145). -/
structure Refreshed (s : State) (a sess : Nat) (due : Prop) (f f' : Fset) (new : List Cmd) (skips : Nat) : Prop where
  fields : { f' with skipped := f.skipped } = f
  skipped : f.skipped < 2 ^ 32 → f'.skipped = (f.skipped + skips) % 2 ^ 32
  no : ¬ due → new = [] ∧ skips = 0
  each : due → (∃ x ∈ s.cmds, x.pkt.clsOp = 0x301 ∧ fsetAddr s x.pkt = a) ∨ new.length + skips = (fsetBlocks f).length
  own : ∀ x ∈ new, (∃ b ∈ fsetBlocks f, x.origin = .refresh a b.isG b.idx) ∧ x.sess = sess ∧ x.pkt.job = f.job ∧ x.pkt.slot 0 = s.time + f.budget * 1000

/-- Only the Module fields of a set's control block differ from a memory (R113). -/
def OnlyBlock (s t : State) (a : Nat) : Prop :=
  Still s → t.host = s.host ∧ ∀ x, (x < a ∨ (a + 2 ≤ x ∧ x < a + 84) ∨ a + 100 ≤ x) → memByte t.mem x = memByte s.mem x

/-- Is an address one of a block's: factor, root, header or result entry (R113, R115)? -/
abbrev ofBlock (f : Fset) (b : FBlock) (x : Nat) : Prop :=
  (b.stor ≤ x ∧ x < b.stor + 4 * b.dim * b.dim) ∨ (b.root ≤ x ∧ x < b.root + 4 * b.dim * b.dim) ∨
  (fsetHdr f b ≤ x ∧ x < fsetHdr f b + 64) ∨ (fsetRes f b ≤ x ∧ x < fsetRes f b + 32)

/-- The outputs of root problems, and of solve problems, lie in this module (R24). -/
def RootHome (s : State) (ps : List RootProb) : Prop := ∀ p ∈ ps, (localise s (gaddrOf p.output)).tier ≠ 4 ∧ (localise s (gaddrOf p.hdr)).tier ≠ 4
def SolveHome (s : State) (ps : List SolveProb) : Prop := ∀ p ∈ ps, (localise s (gaddrOf p.x)).tier ≠ 4 ∧ (localise s (gaddrOf p.hdr)).tier ≠ 4

/-- A result entry of a status is among what a command's run writes, at the place of its problem, served as any operand (R130, R161, R216). -/
def EntryAt (s : State) (c : Cmd) (r : Stg) (at_ status : Nat) : Prop :=
  ∃ w ∈ r.writes, w.tgt = resolve s c (gLocal at_) 32 ∧ w.bytes.length = 32 ∧ fieldAt w.bytes 0 1 = status

/-- A problem has its result entry: of the unfinished status `no` without its output, or with an output at its place (R137, R160). -/
def EntryOf (s : State) (c : Cmd) (r : Stg) (no at_ out : Nat) : Prop :=
  EntryAt s c r at_ no ∨ ∃ st, EntryAt s c r at_ st ∧ ∃ w ∈ r.writes, w.tgt = resolve s c (localise s (gaddrOf out)) w.bytes.length

/-- The problem of a root or solve command that its deadline meets: the one that it has been seen to reach at least. -/
abbrev reached (c : Cmd) (done : Nat) : Nat := max done (c.probs.length - 1)

/-- A root or solve command that goes on: its engine's scratch has not failed, and what it reads next holds no poison (R122, R166, R241). -/
def Clean (s : State) (c : Cmd) (reads : List (GAddr × Nat)) : Prop := c.scratchUe = false ∧ poisonAmong s c reads = none

/-- A command still runs, with nothing else changed. -/
def StillRuns (s t : State) (cid : Nat) (c : Cmd) : Prop := { t with cmds := s.cmds } = s ∧ findCmd t cid = some c

/-- One shard is `h` and no other shard differs (R171). -/
structure ShardIs (s t : State) (a : Nat) (h : Shard) : Prop where
  frame : Beside { s with shards := t.shards } t
  here : tfind t.shards a = some h
  others : ∀ b, b ≠ a → tfind t.shards b = tfind s.shards b

/-- Is an address one of the Module fields of a shard control block (R171)? -/
abbrev ofShardBlock (a x : Nat) : Prop := (a ≤ x ∧ x < a + 2) ∨ (a + 80 ≤ x ∧ x < a + 120)

/-- Is an address of a shard's gradient accumulator, where a command finds it (R172, R216)? -/
abbrev ofGacc (s : State) (c : Cmd) (h : Shard) (x : Nat) : Prop :=
  (resolve s c (gaddrOf h.gacc) (4 * h.rows * h.cols)).off ≤ x ∧ x < (resolve s c (gaddrOf h.gacc) (4 * h.rows * h.cols)).off + 4 * h.rows * h.cols

/-- Is an address of a region that a command names, where the command finds it (R216)? -/
abbrev ofRegion (s : State) (c : Cmd) (at_ n x : Nat) : Prop :=
  (resolve s c (gaddrOf at_) n).off ≤ x ∧ x < (resolve s c (gaddrOf at_) n).off + n

/-- The bytes after an update: what its run wrote, and with CLEAR a zero gradient accumulator (R183, R184). -/
def UpdatedMem (s t : State) (c : Cmd) (a : Nat) (h : Shard) (clear : Bool) (ws : List SWrite) : Prop :=
  Still s → t.host = s.host ∧ ∀ x, ¬ ofShardBlock a x →
    (clear = true ∧ ofGacc s c h x → memByte t.mem x = 0) ∧
    (¬ (clear = true ∧ ofGacc s c h x) → memByte t.mem x = memByte (published s.mem ws) x)

/-- A command pins no copy, and what it waited for charges no prefetch hold (R220, R228): its commit ends no pin but by its own effect. -/
def NoHolds (s : State) (c : Cmd) : Prop := c.pins = [] ∧ (c.pkt.waitThresh = 0 ∨ (getLock s c.pkt.waitLock).holds = [])

/-- One residency object is `o` and no other object differs (R214). -/
structure ObjIs (s t : State) (d : Nat) (o : ResObj) : Prop where
  frame : Beside s t
  here : findObj t d = some o
  others : ∀ b, b ≠ d → findObj t b = findObj s b

/-- An object without its copy at a tier, whose bytes have gone back: those of a basin copy to the HBM copy, if that is there, which is dirty
now, and else home (R219). -/
def ResObj.removed (o : ResObj) (t : Nat) : ResObj :=
  (if t = 1 ∧ o.t2.held = true then { o with t2 := { o.t2 with dirty := true } } else o).setCopy t noCopy

/-- An object whose copy at a tier is being written back under a sequence number: with its pound space, or waiting for it (R219, R237). -/
def ResObj.leaving (o : ResObj) (t seq : Nat) (room : Bool) : ResObj :=
  o.setCopy t { o.copy t with state := 3, pending := false, wb := some ⟨seq, room, 0⟩ }

/-- An object whose copy at a tier is taken again: a write-back of it under way is given up (R223). -/
def ResObj.taken (o : ResObj) (t : Nat) : ResObj := if (o.copy t).wb = none then o else o.setCopy t { o.copy t with state := 2, wb := none }

/-- An object whose copy at a tier has one pin of RES_PIN more, or the fewer (R220). -/
def ResObj.pinned (o : ResObj) (t : Nat) : ResObj := o.setCopy t { o.copy t with resPins := (o.copy t).resPins + 1 }

def ResObj.unpinned (o : ResObj) (t : Nat) : ResObj := o.setCopy t { o.copy t with resPins := (o.copy t).resPins - 1 }

/-- A resident copy that no other copy is being written back to (R219). -/
def ResObj.rests (o : ResObj) (t : Nat) : Prop := (o.copy t).state = 2 ∧ ¬ (t = 2 ∧ o.t1.state = 3)

/-- A copy that holds nothing which is not elsewhere: absent, or resident and clean (R219). -/
def Copy.spare (c : Copy) : Prop := c.state = 0 ∨ c.state = 2 ∧ c.dirty = false

/-- An object whose copy's write-back has begun, with its pound space where there is room for it (R219, R237). -/
abbrev ResObj.leavesIn (o : ResObj) (s : State) (d t : Nat) : ResObj :=
  o.leaving t (3 * 2 ^ 30 + s.serial % 2 ^ 30) (wbRoom { s with serial := s.serial + 1 } d o t)

/-- One prefetch schedule is `p` and no other differs (R225). -/
structure PfIs (s t : State) (k : Nat) (p : PfSched) : Prop where
  frame : Beside { s with pfs := t.pfs } t
  here : tfind t.pfs k = some p
  others : ∀ b, b ≠ k → tfind t.pfs b = tfind s.pfs b

-- prefetch ----------------------------------------------------------------------------------------------------------------

/-- PREFETCH_ISSUE has nothing to issue (R227): the schedule does not run, its job is suspended or ends, GATE is below the entry's value, or LEAD
entries are in flight. -/
def PfBlocked (s : State) (p : PfSched) (x : PfEntry) : Prop :=
  p.state ≠ 1 ∨ (¬ ∃ j, findJob s p.job = some j ∧ (j.st = .running ∨ j.st = .trapped)) ∨
  (getLock s x.gate).count < (x.gateBase + p.step * x.gateStride) % 2 ^ 32 ∨ p.lead ≤ p.flying.length

/-- The schedule has passed its current entry: CURSOR moves on, and from the last entry it returns to 0 with the next STEP (R227). -/
def Turned (p p' : PfSched) : Prop :=
  { p' with cursor := p.cursor, step := p.step, stalled := p.stalled, flying := p.flying } = p ∧
  (p.cursor + 1 = p.entries.length → p'.cursor = 0 ∧ p'.step = (p.step + 1) % 2 ^ 32) ∧
  (p.cursor + 1 ≠ p.entries.length → p'.cursor = p.cursor + 1 ∧ p'.step = p.step)

/-- Beside commands and copies only one prefetch schedule has changed. -/
def PfOnly (s t : State) (k : Nat) : Prop :=
  Beside { s with pfs := t.pfs, cmds := t.cmds, nextId := t.nextId, serial := t.serial } t ∧ ∀ b, b ≠ k → tfind t.pfs b = tfind s.pfs b

/-- A command of the module's own that stages no bytes, waits for no lock and pins nothing. -/
def Plain (c : Cmd) : Prop := c.writes = [] ∧ c.outs = [] ∧ c.pins = [] ∧ c.pkt.waitThresh = 0

-- jobs --------------------------------------------------------------------------------------------------------------------

/-- Nothing of a job is left (R298): every table is without its entries, no lock is granted to it, and no byte stays under its key. -/
structure JobGone (s t : State) (j : Job) : Prop where
  jobs : t.jobs = s.jobs.filter (fun x => !(x.id == j.id))
  ctxs : t.ctxs = s.ctxs.filter (fun x => !(x.job == j.id))
  flights : t.flights = s.flights.filter (fun x => !(x.2.job == j.id))
  pools : t.pools = s.pools.filter (fun x => !(x.2.job == j.id))
  pfs : t.pfs = s.pfs.filter (fun x => !(x.2.job == j.id))
  shards : t.shards = s.shards.filter (fun x => !(x.2.job == j.id))
  fsets : t.fsets = s.fsets.filter (fun x => !(x.2.job == j.id))
  scheds : t.scheds = s.scheds.filter (fun x => !(x.job == j.id))
  census : t.census = s.census.filter (fun x => !(x.1 == j.id))
  watch : t.watch = s.watch.filter (fun x => !(x.1.1 == j.id))
  twatch : t.twatch = s.twatch.filter (fun x => !(x.job == j.id))
  links : t.links = s.links.filter (fun x => !(x.1.2 == j.id))
  rounds : t.rounds = s.rounds.filter (fun x => !(x.job == j.id))
  streams : t.streams = s.streams.filter (fun x => !(x.job == j.id))
  objs : ∀ e ∈ t.objs, e.2.job ≠ j.id
  keys : j.memKey ≠ deadKey → (∀ x ∈ s.jobs, x.id ≠ j.id → x.memKey ≠ j.memKey) → ∀ k ∈ t.keys, k.2 ≠ j.memKey
  time : t.time = s.time
  sessions : t.sessions = s.sessions
  cfg : t.cfg = s.cfg

-- reports --------------------------------------------------------------------------------------------------------------

/-- Only what observes and reports has moved: events raised, sources fired, records traced, counters and free values drawn upon. -/
structure Told (s t : State) : Prop where
  pending : t.pending = s.pending
  time : t.time = s.time
  host : t.host = s.host
  poundQ : t.poundQ = s.poundQ
  remoteSt : t.remoteSt = s.remoteSt
  memRegs : t.memRegs = s.memRegs
  cmds : t.cmds = s.cmds
  nextId : t.nextId = s.nextId
  serial : t.serial = s.serial
  rings : t.rings = s.rings
  locks : t.locks = s.locks
  jobs : t.jobs = s.jobs
  ctxs : t.ctxs = s.ctxs
  queueRe : t.queueRe = s.queueRe
  ended : t.ended = s.ended
  flights : t.flights = s.flights
  fsets : t.fsets = s.fsets
  shards : t.shards = s.shards
  scheds : t.scheds = s.scheds
  loans : t.loans = s.loans
  pools : t.pools = s.pools
  objs : t.objs = s.objs
  pfs : t.pfs = s.pfs
  census : t.census = s.census
  watch : t.watch = s.watch
  twatch : t.twatch = s.twatch
  suspects : t.suspects = s.suspects
  links : t.links = s.links
  roots : t.roots = s.roots
  engines : t.engines = s.engines
  testing : t.testing = s.testing
  testQ : t.testQ = s.testQ
  changes : t.changes = s.changes
  modEpoch : t.modEpoch = s.modEpoch
  ports : t.ports = s.ports
  domain : t.domain = s.domain
  rounds : t.rounds = s.rounds
  streams : t.streams = s.streams
  sent : t.sent = s.sent
  held : t.held = s.held
  transit : t.transit = s.transit
  sessions : t.sessions = s.sessions
  counts : t.counts = s.counts
  bufs : t.bufs = s.bufs
  cxl : t.cxl = s.cxl
  answers : t.answers = s.answers
  nextSes : t.nextSes = s.nextSes
  dump : t.dump = s.dump
  cfg : t.cfg = s.cfg
  tap : t.tap = s.tap
  trust : t.trust = s.trust
  power : t.power.kept = s.power.kept
  dies : ∀ d, (getDie t d).kept = (getDie s d).kept

-- the CXL link and the test access port -----------------------------------------------------------------------------------

/-- The boundary-scan rows and BYPASS with their instruction codes, and for those that scan the boundary register what the board presents and what
is shifted in (R522, R523). -/
def scanRow : Instr → Option (Nat × Bool)
  | .extest => some (0x00, true) | .samplePreload => some (0x01, true) | .highz => some (0x03, false) | .clamp => some (0x04, false)
  | .extestPulse => some (0x05, true) | .extestTrain => some (0x06, true) | .bypass => some (0xFF, false)
  | _ => none

/-- The TAP holds an instruction that does not reach a die's debug port, with what it answered; nothing else has changed. -/
def TapHolds (s : State) (code : Nat) (a : List Answer) : State := { s with tap := { s.tap with ir := code, live := false }, answers := s.answers ++ a }

/-- What a scan of the boundary register leaves: what was shifted in stands in the cells that drive, and what they had captured has come out (R523). -/
def Scanned (s t : State) : Prop :=
  ∃ b : Boundary, t = { s with tap := { s.tap with cells := s.power.shiftIn }, answers := s.answers ++ [.boundary b] } ∧
    b.board = s.power.pins ∧ b.resetN = s.power.resetN ∧ b.pwrEn = s.power.pwrEn ∧ b.faultN = faultLevel s ∧
    b.keeper = !s.power.keeperNow ∧ b.addr0 = !(bit s.power.addrNow 0) ∧ b.addr1 = !(bit s.power.addrNow 1)

-- Towpath ---------------------------------------------------------------------------------------------------------------------------

/-- What traffic alone never changes of a port: all but the sequence number, the replay buffer, the credits drawn, the flits counted on
its way out, the express pacer and the lock signals not yet delivered. -/
def Port.kept (p : Port) : Port := { p with nextTx := 0, replay := [], drawn := [], txFlits := 0, express := [], sigs := [], held := 0 }

/-- What traffic alone never changes of the domain: all but the counts and times of messages sent and heard. -/
def Domain.kept (d : Domain) : Domain := { d with rx := [], tx := [], lastSent := [], lastHeard := [] }

/-- Events have been raised and messages have left or wait: nothing else of the block has changed. -/
structure Carried (s t : State) : Prop where
  pending : t.pending = s.pending
  time : t.time = s.time
  host : t.host = s.host
  poundQ : t.poundQ = s.poundQ
  remoteSt : t.remoteSt = s.remoteSt
  memRegs : t.memRegs = s.memRegs
  cmds : t.cmds = s.cmds
  nextId : t.nextId = s.nextId
  serial : t.serial = s.serial
  rings : t.rings = s.rings
  locks : t.locks = s.locks
  jobs : t.jobs = s.jobs
  ctxs : t.ctxs = s.ctxs
  queueRe : t.queueRe = s.queueRe
  ended : t.ended = s.ended
  flights : t.flights = s.flights
  fsets : t.fsets = s.fsets
  shards : t.shards = s.shards
  scheds : t.scheds = s.scheds
  loans : t.loans = s.loans
  pools : t.pools = s.pools
  objs : t.objs = s.objs
  pfs : t.pfs = s.pfs
  census : t.census = s.census
  watch : t.watch = s.watch
  twatch : t.twatch = s.twatch
  suspects : t.suspects = s.suspects
  links : t.links = s.links
  roots : t.roots = s.roots
  engines : t.engines = s.engines
  testing : t.testing = s.testing
  testQ : t.testQ = s.testQ
  changes : t.changes = s.changes
  modEpoch : t.modEpoch = s.modEpoch
  rounds : t.rounds = s.rounds
  streams : t.streams = s.streams
  sessions : t.sessions = s.sessions
  counts : t.counts = s.counts
  bufs : t.bufs = s.bufs
  cxl : t.cxl = s.cxl
  nextSes : t.nextSes = s.nextSes
  dump : t.dump = s.dump
  cfg : t.cfg = s.cfg
  tap : t.tap = s.tap
  trust : t.trust = s.trust
  power : t.power.kept = s.power.kept
  dies : ∀ d, (getDie t d).kept = (getDie s d).kept
  domain : t.domain.kept = s.domain.kept
  ports : ∀ p, (getPort t p).kept = (getPort s p).kept

-- Towpath ports -----------------------------------------------------------------------------------------------------------

/-- A message has left this module or waits at it (R334, R339). -/
def Posted (s t : State) (P : Msg → Prop) : Prop :=
  ∃ m, P m ∧ ((t.sent = s.sent ++ [m] ∧ t.held = s.held) ∨ (t.sent = s.sent ∧ t.held = s.held ++ [m]))

/-- One port has become `x`, beside traffic, and no other has changed. -/
def PortIs (s t : State) (p : Nat) (x : Port) : Prop :=
  Carried { s with ports := t.ports } t ∧ (getPort t p).kept = x.kept ∧ ∀ q, q ≠ p → (getPort t q).kept = (getPort s q).kept

-- messages of other peers -------------------------------------------------------------------------------------------------

/-- A message of a type reaches this module and nothing discards it: it is addressed here, in the right class, from a peer that is neither lost nor
in conflict, authenticated under a key that the module has, and inside the replay window (R338, R346, R352 to R354). -/
structure Arrives (s : State) (typ : Nat) (m : MsgHdr) : Prop where
  here : m.dst = s.cfg.peerId
  alive : s.power.phase ≠ 0xF ∧ s.power.off = false
  type : m.typ = typ ∧ typeOk typ m.tc = true
  known : typ = mtHello ∨ s.domain.lost.contains m.src = false
  own : m.job = 0 ∨ s.domain.conflicts.contains m.src = false
  good : m.tagOk = true ∧ hasKey s m.job = true
  fresh : ∃ w, windowOk (if typ = mtHello then LinkRx.rest else aget LinkRx.rest s.domain.rx (m.src, m.job)) m.gen m.count = some w

/-- The state in which an arrived message is acted on: its sender has been heard, its replay window has moved, and a trace block that captures
messages has recorded it (R440). -/
def Heard (s u : State) (m : MsgHdr) : Prop :=
  ∃ w v, v = { s with domain := { s.domain with rx := aput s.domain.rx (m.src, m.job) w, lastHeard := aput s.domain.lastHeard m.src s.time } } ∧
    Told v u ∧ (Still s → u = v)

/-- The rows that are messages of other peers, with their types (R338) and headers. -/
def messageRow : Instr → Option (Nat × MsgHdr)
  | .readReq m _ _ _ => some (mtReadReq, m) | .readResp m _ _ => some (mtReadResp, m) | .write m _ _ => some (mtWrite, m)
  | .collData m _ _ _ _ => some (mtCollData, m) | .stagedAck m => some (mtStagedAck, m) | .commit m => some (mtCommit, m)
  | .cancel m => some (mtCancel, m) | .lockSignal m _ _ => some (mtLockSignal, m) | .collJoin m _ _ _ _ _ => some (mtCollJoin, m)
  | .collSet m _ _ _ _ _ => some (mtCollSet, m) | .collLate m _ _ _ _ _ => some (mtCollLate, m) | .collFlip m _ _ _ _ => some (mtCollFlip, m)
  | .authNak m => some (mtAuthNak, m) | .time m _ _ _ => some (mtTime, m) | .pdelay m _ _ => some (mtPdelay, m)
  | .announce m _ => some (mtAnnounce, m) | .hello m _ => some (mtHello, m) | .heartbeat m => some (mtHeartbeat, m)
  | .member m _ => some (mtMember, m) | .lost m _ => some (mtLost, m) | .stage m _ _ _ _ _ _ => some (mtStage, m)
  | .ack m _ _ => some (mtAck, m) | .openMsg m _ _ => some (mtOpen, m) | .discard m _ => some (mtDiscard, m)
  | .loanEnd m => some (mtLoanEnd, m)
  | _ => none

-- staged modes ------------------------------------------------------------------------------------------------------------

/-- A staged change of mode is gone without effect, at a time (R317): no job, session or epoch has changed, and the command that asked for it has committed
INCOMPLETE. -/
structure Dropped (s t : State) (g : Change) (now2 : Nat) : Prop where
  gone : findChange t g.id = none
  time : t.time = now2
  jobs : t.jobs = s.jobs
  rest : t.modEpoch = s.modEpoch ∧ t.sessions = s.sessions ∧ t.cfg = s.cfg ∧ t.rings = s.rings ∧ t.power.p1 = s.power.p1
  cmd : ∀ i c k, g.cmd = some i → findCmd s i = some c → inUse c = true → c.origin = .ring k →
    ∃ z, findCmd t i = some z ∧ z.phase = .committed ∧ z.status = stIncomplete ∧ z.pkt = c.pkt

/-- The modes of a change are in force in its job, at a time (R316). -/
structure InForce (s t : State) (g : Change) (now2 : Nat) : Prop where
  gone : findChange t g.id = none
  time : t.time = now2
  job : ∀ j, findJob s g.job = some j → findJob t g.job = some { g.items.foldl applyItem j with epoch := g.epoch }
  others : ∀ i, i ≠ g.job → findJob t i = findJob s i
  rest : t.modEpoch = s.modEpoch ∧ t.sessions = s.sessions ∧ t.cfg = s.cfg ∧ t.power.p1 = s.power.p1

-- the mailbox -------------------------------------------------------------------------------------------------------------

/-- The mailbox has answered a return code and an output, and left `v` but for what the firing of its source moves (R466). -/
def Answered (v u : State) (rc : Nat) (out : List Byte) : Prop := Meters { v with answers := v.answers ++ [.mailbox rc out] } u

/-- A vendor command of an open session has arrived: the host link is up, the module is READY, and the header authenticates session `i` (R377, R382,
R409). -/
structure Called (s : State) (opcode : Nat) (input : List Byte) (i : Nat) : Prop where
  link : s.power.linkUp = true
  ready : ready s = true
  auth : authSes s opcode input = some i

/-- The COUNTER of an accepted header noted at its session, as the least that the next may have (R409). -/
def noted (s : State) (input : List Byte) (i : Nat) : State := setSes s i { getSes s i with counter := fieldAt input 4 8 + 1 }

/-- The mailbox rows with their inputs, and the opcode of those that carry a session header (R382, R406, R470). -/
def mailRow : Instr → Option (Option Nat × List Byte)
  | .sesPskStart x | .sesPskFinish x | .sesPakeStart x | .sesPakeFinish x | .idCerts x => some (none, x)
  | .sesClose x => some (some 0xC004, x) | .jobLink x => some (some 0xC005, x) | .ownerEnroll x => some (some 0xC006, x)
  | .ownerRelease x => some (some 0xC007, x) | .debugUnlock x => some (some 0xC008, x) | .sesExport x => some (some 0xC00A, x)
  | .ringBind x => some (some 0xC010, x) | .ringUnbind x => some (some 0xC011, x) | .hdmBind x => some (some 0xC012, x)
  | .hdmUnbind x => some (some 0xC013, x) | .privMap x => some (some 0xC014, x) | .eventRead x => some (some 0xC015, x)
  | _ => none

/-- A slot that a START has reserved (R410): its method, credential, privilege and SEAL_RINGS, the time, and the transcript and secret made. -/
def reservedSlot (s : State) (k : Credential) (flags : Nat) (th sms expect : List Byte) : Session :=
  { Session.rest with st := .reserved, pake := k.pake, cred := k.id, known := true, priv := k.priv, isSealed := bit flags 0, since := s.time,
                      th := th, sms := sms, expect := expect, serial := s.nextSes }

-- errors, fences and the fatal state --------------------------------------------------------------------------------------

/-- The dies, the time, the configuration, the sessions and the error registers are as they were; a write-back that is let go may have met an
uncorrectable error (R219, R241). -/
structure Steady (s t : State) : Prop where
  pending : t.pending = s.pending
  time : t.time = s.time
  memRegs : ∀ d, (getMemRegs t d).kept = (getMemRegs s d).kept
  sessions : t.sessions = s.sessions
  cfg : t.cfg = s.cfg
  dies : ∀ d, (getDie t d).kept = (getDie s d).kept

/-- The module has stopped on a fatal cause (R447, R480): commands that had not committed are gone, and each die in service has a valid part of the dump. -/
structure Stopped (s t : State) (cause : Nat) : Prop where
  power : t.power = { s.power with phase := 0xF, fatal := cause, ibi := s.power.ibi ++ [0xF] }
  dump : t.dump = { s.dump with cause := cause, parts := (diesUp s).foldl (fun a d => a + 2 ^ d) 0, time := s.time }
  cmds : t.cmds = s.cmds.filter (fun c => c.phase == .committed)
  rest : Steady s t

/-- A die has been fenced for a cause and no other die has (R477); with no compute die left the module has stopped with NO_DIE (R480). -/
structure Fenced (s t : State) (d cause : Nat) : Prop where
  rest : Steady (setDie s d { getDie s d with up := false, fenced := true, cause := cause, paused := false }) t
  alive : t.power.kept = s.power.kept ∨ diesUp t = [] ∧ t.power.phase = 0xF ∧ t.power.fatal = 3

-- start-up ----------------------------------------------------------------------------------------------------------------

/-- A measurement register takes in a value (R405). -/
def measured (l : List (List Byte)) (i : Nat) (d : List Byte) : List (List Byte) := l.set i (fitBytes 48 (Config.sha384 (l.getD i [] ++ d)))

/-- The power registers at a PHASE that the controller has just reported (R508, R519). -/
def Power.at (p : Power) (phase : Nat) : Power := { p with phase := phase, ibi := p.ibi ++ [phase] }

/-- The keeper that a module takes at READY (R347, R350): module 0 in the mode that names it, else itself if it is strapped. -/
def keeperAtReady (s : State) : Option (Nat × Nat) := if s.cfg.peer0Mode then some (0, 0) else if s.power.keeperStrap then some (s.cfg.peerId, 0) else none
def keepsAtReady (s : State) : Bool := if s.cfg.peer0Mode then s.cfg.peerId == 0 else s.power.keeperStrap

/-- Step 12 of start-up (R504): READY, with the effective power state, Memory_Active and the module's place in its domain; floors may have risen, and nothing else has
changed but that events were delivered and HELLO was sent. -/
structure Readied (s t : State) : Prop where
  power : t.power.kept = ({ s.power.at 7 with p1 := wantP1 s }).kept
  cxl : t.cxl = { s.cxl with memActive := s.power.linkUp }
  domain : t.domain.kept = ({ s.domain with keeper := keeperAtReady s, isKeeper := keepsAtReady s, members := if keepsAtReady s then tput s.domain.members s.cfg.peerId 1 else s.domain.members }).kept
  rest : Carried { s with power := t.power, cxl := t.cxl, domain := t.domain, trust := t.trust } t
  trust : ∃ r f c, t.trust = { s.trust with raises := r, floors := f, cfgFloor := c }

-- tests and the fencing of dies -------------------------------------------------------------------------------------------

/-- The rows of class 0xE with their operation and handle (R321). -/
def testRow : Instr → Option (Nat × Nat)
  | .testCore c => some (1, c) | .testRoot c => some (2, c) | .testMove c => some (3, c) | .testBasin c => some (4, c) | .calHbm c => some (5, c)
  | .calPort c => some (6, c) | _ => none

/-- A test has been asked for (R323): with an empty queue it begins where nothing of its domain and nothing on its unit runs, a port coming out of the routes of new messages, and queues otherwise. -/
structure Asked (s t : State) (r : TestReq) : Prop where
  rest : t = { s with testing := t.testing, testQ := t.testQ, ports := t.ports }
  begins : s.testQ = [] → s.testing.any (fun x => sameDomain r x || x.unit == r.unit) = false →
    t.testing = s.testing ++ [r] ∧ t.testQ = [] ∧ ∀ q, getPort t q = if r.unit = .port q then { getPort s q with state := 4 } else getPort s q
  queues : s.testQ = [] → s.testing.any (fun x => sameDomain r x || x.unit == r.unit) = true → t.testing = s.testing ∧ t.testQ = [r] ∧ t.ports = s.ports

-- the end of a command, lenders and registers -----------------------------------------------------------------------------

/-- Where the next reply of a ring is written in local memory: its address (R268, R269). -/
abbrev replyAt (s : State) (r : Nat) : Nat := (gaddrOf (getRing s r).reply).off + 32 * ((getRing s r).rtail % 2 ^ (getRing s r).log2)

/-- A command has ended without commit, with a status (R272): nothing of it is left but its reply, which stands in its ring, and the ring counts it. -/
structure Ended (s t : State) (c : Cmd) (status detail : Nat) : Prop where
  gone : ∀ z ∈ t.cmds, z.id ≠ c.id
  ended : (c.sess, c.pkt.job, c.pkt.seq) ∈ t.ended
  rest : Contained s t
  ring : ∀ r, c.origin = .ring r → c.noReply = false → (gaddrOf (getRing s r).reply).tier ≠ 5 → (getRing s r).unbinding = false →
    getRing t r = { getRing s r with rtail := ((getRing s r).rtail + 1) % 2 ^ 32, inFlight := (getRing s r).inFlight - 1 } ∧
    ∀ k, k ≠ r → getRing t k = getRing s k
  reply : ∀ r, c.origin = .ring r → c.noReply = false → (gaddrOf (getRing s r).reply).tier ≠ 5 → Still s →
    t.host = s.host ∧ (∀ a, a < replyAt s r ∨ replyAt s r + 32 ≤ a → memByte t.mem a = memByte s.mem a) ∧
    ∃ z, z.pkt = c.pkt ∧ z.status = status ∧ z.detail = detail ∧ z.ieee = 0 ∧ z.runs = c.runs ∧ z.commitAt = 0 ∧
      memRead t.mem (replyAt s r) 32 = replyBytes z

/-- A root or solve command whose engine's scratch has failed, or of which a problem that starts now reads a poisoned unit, ends ECC_UNCORRECTED
(R122, R166, R241). -/
def EndsUnclean (i : Instr) (s : State) (c : Cmd) (reads : List (GAddr × Nat)) : Prop :=
  (c.scratchUe = true ∨ (poisonAmong s c reads).isSome = true) → ∃ t, exec i s = .next t ∧ Ended s t c stEcc 0

/-- A staged write of another module, whether the pound has taken it or not. -/
def RemoteStaged.unroomed (r : RemoteStaged) : RemoteStaged := { r with room := false }

/-- The write-back to which a lender's answer belongs: of an object's copy at a tier, under the message's SEQ (R219). -/
def WbOf (s : State) (m : MsgHdr) (d : Nat) (o : ResObj) (t : Nat) (w : WriteBack) : Prop :=
  s.objs.find? (wbAwaits m.job m.seq m.src) = some (d, o) ∧ findObj s d = some o ∧ (o.copy t).wb = some w ∧ t = if o.wbHas m.seq 1 then 1 else 2

/-- Remote writes that waited for room in a pound may have been staged, and acknowledged; with none waiting nothing changes (R210, R237, R239). -/
structure Admitted (s t : State) : Prop where
  writes : t.remoteSt.map RemoteStaged.unroomed = s.remoteSt.map RemoteStaged.unroomed
  rest : Carried { s with remoteSt := t.remoteSt } t
  mem : Still s → t.mem = s.mem ∧ t.host = s.host
  none : (∀ r ∈ s.remoteSt, r.room = true) → t = s

/-- A peer may write a range: a loan to it for the message's job holds it, and its die is in service (R205). -/
def LentTo (s : State) (m : MsgHdr) (addr n : Nat) : Prop :=
  (∃ l ∈ s.loans, l.2.peer = m.src ∧ l.2.job = m.job ∧ inside addr n l.2.base l.2.size = true) ∧ (getDie s (dieOfAddr addr)).up = true

/-- The room of an HBM pound takes a write (R236, R239). -/
def HasRoom (s : State) (addr n : Nat) : Prop := 256 * (granulesOf addr n).length ≤ poundFree s (dieOfAddr addr) true

/-- An answer to the sender of a message has left or waits. -/
def Replied (s t : State) (m : MsgHdr) (typ tc : Nat) (body : List Nat) (data : List Byte) : Prop :=
  Posted s t (fun x => x.dst = m.src ∧ x.typ = typ ∧ x.tc = tc ∧ x.job = m.job ∧ x.seq = m.seq ∧ x.runs = m.runs ∧ x.body = body ∧ x.data = data)

/-- Memory has not changed while nothing observes. -/
def MemSame (s t : State) : Prop := Still s → t.mem = s.mem ∧ t.host = s.host

/-- The staged writes of a run of another module, as writes of local memory (R210). -/
def stagedOf (s : State) (m : MsgHdr) : List SWrite := (s.remoteSt.filter (ofRun m)).map (fun r => ⟨⟨0, 0, r.addr⟩, r.data⟩)

/-- The loans that stay once the staged writes are `rs`: of a borrower's job that has ended, those with a staged write in their range (R356). -/
def settled (loans : List (Nat × Loan)) (rs : List RemoteStaged) : List (Nat × Loan) :=
  loans.filter (fun l => !(l.2.ending && !(rs.any (fun r => overlap r.addr r.data.length l.2.base l.2.size))))

/-- One ring has become `x`, and nothing else has changed. -/
def OnlyRing (s t : State) (r : Nat) (x : Ring) : Prop := { t with rings := s.rings } = s ∧ getRing t r = x ∧ ∀ k, k ≠ r → getRing t k = getRing s k

/-- A ring is disabled for a fault (bit 0 BASE, bit 1 TAIL) that it records (R267), and `x` was written of it before: its own host registrations are gone, no other ring differs. -/
structure RingFaulted (s t : State) (r k : Nat) (x : Ring) : Prop where
  ring : getRing t r = { x with fault := setBit x.fault k true, enable := false, active := false }
  others : ∀ i, i ≠ r → getRing t i = getRing s i
  bufs : t.bufs = s.bufs.filter (fun b => match b.forRing with | some (i, _) => !(i == r) | none => true)
  cmds : t.cmds = if k = 0 then s.cmds.map (fun c => if c.origin = .ring r then { c with noReply := true } else c) else s.cmds
  rest : Contained s t

/-- An agent reaches the registers of the windows: the privileged map is held and the link is up, or the Hamir core's die is in service (R381, R445). -/
def Reaches (s : State) (via : Via) : Prop :=
  (via = .privMap ∧ s.cxl.privBy.isSome = true ∧ s.power.linkUp = true) ∨ ∃ d, via = .hamir d ∧ (getDie s d).up = true

/-- A session page is served: READY or on its way down, and the link up (R380). -/
def Paged (s : State) : Prop := 7 ≤ s.power.phase ∧ s.power.phase ≤ 8 ∧ s.power.linkUp = true

/-- The module's own change of power state may have been staged (R496); nothing else has changed. -/
def AutoStaged (s t : State) : Prop :=
  { t with changes := s.changes } = s ∧ (ready s = false ∨ wantP1 s = s.power.p1 → t = s) ∧
  (ready s = true → wantP1 s ≠ s.power.p1 → scope1Busy s = false → s.power.retry = none → ∃ c, findChange t (2 ^ 32) = some c ∧ c.scope = 1 ∧ c.cmd = none ∧ c.tApply = some (s.time + 1000))

-- collectives -------------------------------------------------------------------------------------------------------------

/-- The rows of class 0x9 with their operation and handle (R358). -/
def collRow : Instr → Option (Nat × Nat)
  | .allReduce c => some (1, c) | .reduceScatter c => some (2, c) | .allGather c => some (3, c) | .broadcast c => some (4, c)
  | .reduceToOwner c => some (5, c) | .globalNorm c => some (6, c) | .permute c => some (7, c) | .barrier c => some (8, c)
  | _ => none

/-- The members of a command's group that live, and its leader's first of them (R360). -/
abbrev collLive (s : State) (c : Cmd) : List Nat := liveOf s (groupOf (asRead s c) c)

abbrev leads (s : State) (c : Cmd) : Prop := (collLive s c).head? = some s.cfg.peerId

/-- The group hash, the stream and the round of a command. -/
abbrev collHash (s : State) (c : Cmd) : Nat := groupHash (asRead s c) c

/-- Does the command contribute a deferred contribution too (R363, R365)? -/
abbrev collTwice (s : State) (c : Cmd) : Bool := (descOf s c).addNext && deferredIn s c.pkt.job (collHash s c) (descOf s c).stream

/-- A command that has joined its round. -/
def Cmd.joins (c : Cmd) : Cmd := { c with aux := collAux 1 0 0 0 }

/-- A command that has learned the set of its round. -/
def Cmd.takes (c : Cmd) (set : List Nat) (count seq runs : Nat) : Cmd := { c with asked := set.map (fun p => (p, 0, 0)), aux := collAux 2 seq runs count }

/-- Data of some member is still awaited (R362 step 3). -/
def Awaiting (s : State) (c : Cmd) : Prop := ∃ p ∈ expects s c, ∀ r ∈ c.remote, r.peer ≠ p

/-- What the commit of a collective leaves besides its record (R363, R365, R369): the stream's deferral flag and kept results, at the leader the late members answered, at
the owner of a reduction GACC and GRAD_COUNT, and otherwise the bytes that it wrote, a PERMUTE's flip block among them. -/
structure CollDone (s t : State) (c : Cmd) (ws : List SWrite) : Prop where
  rest : Beside { s with streams := t.streams, rounds := t.rounds, shards := t.shards } t
  late : s.objs = [] → collSt c = 9 → t.streams = (putStream s { getStream s c.pkt.job (collHash s c) (descOf s c).stream with deferred := (descOf s c).addNext }).streams
  stream : s.objs = [] → collSt c ≠ 9 → ∃ x, t.streams = (putStream s { getStream s c.pkt.job (collHash s c) (descOf s c).stream with
    deferred := (getStream s c.pkt.job (collHash s c) (descOf s c).stream).deferred && !(descOf s c).addNext,
    results := (getStream s c.pkt.job (collHash s c) (descOf s c).stream).results.filter (fun r => decide (((descOf s c).round + 2 ^ 32 - r.1) % 2 ^ 32 < 2)) ++
      [((descOf s c).round, (c.aux.getD 3 0, x))] }).streams
  rounds : ∀ x ∈ t.rounds, ∃ r ∈ s.rounds, x = r ∨ x = { r with late := [] }
  shards : atOwner c = false → t.shards = s.shards
  owner : atOwner c = true → (collSt c = 9 → c.remote ≠ []) → ∀ a h, rtoShard s c = some (a, h) →
    t.shards = tput s.shards a { h with gradCount := (h.gradCount + c.aux.getD 3 0) % 2 ^ 32 }
  mem : Still s → atOwner c = false → t.mem = published s.mem ws ∧ t.host = s.host
  gacc : Still s → atOwner c = true → t.host = s.host ∧ ∀ x, (∀ a h, rtoShard s c = some (a, h) → ¬ ofShardBlock a x ∧
    (x < (gaccAt s c h).off ∨ (gaccAt s c h).off + (gaccSum s c).length ≤ x)) → memByte t.mem x = memByte (published s.mem ws) x
  still : Still s → Still t

/-- A message has left or waits. -/
def Out_ (t : State) (P : Msg → Prop) : Prop := ∃ m, (m ∈ t.sent ∨ m ∈ t.held) ∧ P m

/-- A round has frozen at its leader, whose own command `c` still awaits data (R362 steps 2 and 3): the set, its contributor count, the command's record, and COLL_SET to the
set's other members. -/
structure Froze (s t : State) (r : Round) (c : Cmd) : Prop where
  cmds : t.cmds = (putCmd s (c.takes ((groupOf (asRead s c) c).filter (fun p => r.joined.contains p))
    (((groupOf (asRead s c) c).filter (fun p => r.joined.contains p)).length +
      (((groupOf (asRead s c) c).filter (fun p => r.joined.contains p)).filter (fun p => r.defer.contains p)).length) c.pkt.seq (c.runs % 256))).cmds
  rounds : t.rounds = (putRound s { r with frozen := some ((groupOf (asRead s c) c).filter (fun p => r.joined.contains p)) }).rounds
  streams : t.streams = (putStream s { getStream s r.job r.group r.stream with
    results := (getStream s r.job r.group r.stream).results.filter (fun x => decide ((r.round + 2 ^ 32 - x.1) % 2 ^ 32 < 2)) }).streams
  rest : Carried { s with cmds := t.cmds, rounds := t.rounds, streams := t.streams } t
  mem : MemSame s t
  sets : s.power.phase ≠ 0xF → ∀ p ∈ (groupOf (asRead s c) c), p ∈ r.joined → p ≠ s.cfg.peerId → Out_ t (fun m => m.dst = p ∧ m.typ = mtCollSet ∧ m.tc = 7 ∧ m.job = c.pkt.job ∧
    m.body = [r.group, r.stream, r.round, ((groupOf (asRead s c) c).filter (fun p => r.joined.contains p)).length +
      (((groupOf (asRead s c) c).filter (fun p => r.joined.contains p)).filter (fun p => r.defer.contains p)).length] ++ (groupOf (asRead s c) c).filter (fun p => r.joined.contains p))

/-- A round is complete at its leader: every live member has joined, and no earlier round of its stream is unfrozen (R362). -/
def Complete (s : State) (r : Round) (c : Cmd) : Prop :=
  (∀ p ∈ collLive s c, p ∈ r.out_ ∨ p ∈ r.joined) ∧
  ∀ x ∈ s.rounds, x.job = r.job → x.group = r.group → x.stream = r.stream → x.frozen = none → x.round ≠ r.round → ¬ ((r.round + 2 ^ 32 - x.round) % 2 ^ 32 < 2 ^ 31)

/-- A round after a member joined it (R362, R365). -/
def Round.joinedBy (r : Round) (p : Nat) (twice : Bool) : Round :=
  { r with joined := without r.joined p ++ [p], defer := without r.defer p ++ (if twice then [p] else []) }

/-- The first COLL_JOIN of a round makes it. -/
def newRound (job group stream round op p : Nat) (twice : Bool) : Round :=
  { job := job, group := group, stream := stream, round := round, op := op, joined := [p], frozen := none, defer := if twice then [p] else [], late := [], out_ := [] }

/-- A collective's staged outputs, as they stand. -/
def stagedAs (c : Cmd) : Stg := { Stg.none with writes := c.writes, outs := c.outs, ieee := c.ieee, status := c.status, detail := c.detail, aux := c.aux }

/-- The round as it stands when a member's COLL_JOIN is taken in: a new one, or the unfrozen one of its hashes (R362). -/
def Joins (s : State) (job group stream round op p : Nat) (twice : Bool) (r : Round) : Prop :=
  (s.rounds.find? (fun x => x.job == job && x.stream == stream && x.round == round) = none ∧ r = newRound job group stream round op p twice) ∨
  ∃ old, s.rounds.find? (fun x => x.job == job && x.stream == stream && x.round == round) = some old ∧ old.group = group ∧ old.op = op ∧ old.frozen = none ∧ r = old.joinedBy p twice

/-- No later round of a stream has waited for this one (R362). -/
def NoneWaits (s : State) (job group stream round : Nat) : Prop := ∀ x ∈ s.rounds, roundIs job group stream ((round + 1) % 2 ^ 32) x = false

/-- The set that a round's freeze takes at its leader, and its contributor count (R362, R363). -/
abbrev frozenSet (s : State) (r : Round) (c : Cmd) : List Nat := (groupOf (asRead s c) c).filter (fun p => r.joined.contains p)

abbrev frozenCount (s : State) (r : Round) (c : Cmd) : Nat := (frozenSet s r c).length + ((frozenSet s r c).filter (fun p => r.defer.contains p)).length

-- the path of a ring's command --------------------------------------------------------------------------------------------

/-- A ring from which the entry at RING_HEAD has been fetched (R262, R268). -/
def Ring.advanced (x : Ring) : Ring :=
  { x with head := (x.head + 1) % 2 ^ 32, inFlight := x.inFlight + 1, marks := without x.marks x.head }

/-- The state in which a fetched packet has its handle and its job its context (R276 step 2, R290). -/
def arrived (s : State) (r : Nat) (p : Packet) : State :=
  let u := makeCtx (setRing s r (getRing s r).advanced) (getRing s r).bind p.job r
  { u with cmds := u.cmds ++ [fetched u r p], nextId := u.nextId + 1 }

/-- The command of a fetched packet as it is numbered, and as it is judged: with its shapes, and with a lent address of the module's own taken for the TIER 0 address
(R24, R249). -/
abbrev numbered (s : State) (r : Nat) (p : Packet) : Cmd := fetched (makeCtx (setRing s r (getRing s r).advanced) (getRing s r).bind p.job r) r p

abbrev shapesAt (u : State) (p : Packet) : List (Option Shape) := shapesOf (shapeBytes u p ((usesOf p []).getD []))

def judged (s : State) (r : Nat) (p : Packet) : Cmd :=
  { numbered s r p with shapes := shapesAt (arrived s r p) p, pkt := { p with slots := ownSlots (arrived s r p) p ((usesOf p (shapesAt (arrived s r p) p)).getD []) } }

/-- Nothing that a packet names is poisoned (R241), and the first check of BAD_PACKET that it fails (R252). -/
abbrev cleanShapes (s : State) (r : Nat) (p : Packet) : Prop :=
  (lowest (reservedFaults (judged s r p).pkt (usesOf p (shapesAt (arrived s r p) p)))).isSome = true ∨
    shapePoison (arrived s r p) (judged s r p).pkt ((usesOf p (shapesAt (arrived s r p) p)).getD []) = none

abbrev faultOf (s : State) (r : Nat) (p : Packet) : Option Flt :=
  packetFault { arrived s r p with cmds := (arrived s r p).cmds.filter (fun x => !(x.id == (judged s r p).id)) } (getRing s r).bind (judged s r p).pkt
    (usesOf p (shapesAt (arrived s r p) p)) (shapeBytes (arrived s r p) p ((usesOf p []).getD [])) (shapesAt (arrived s r p) p)

abbrev denialOf (s : State) (r : Nat) (p : Packet) : Option Nat :=
  deniedAt (arrived s r p) (judged s r p) ((usesOf p (shapesAt (arrived s r p) p)).getD [])

/-- A command that is accepted with no lock to wait for joins those that wait for their epoch; one that waits on a lock claims at once, or joins the lock's queue (R282). -/
structure AcceptedAs (s t : State) (u : State) (c : Cmd) : Prop where
  free : c.pkt.waitThresh = 0 → Told (putCmd u c) t
  claims : c.pkt.waitThresh ≠ 0 → (∀ x ∈ s.cmds, x.id ≠ s.nextId) → (getLock s c.pkt.waitLock).queue = [] → (getLock s c.pkt.waitLock).setPending = false →
    c.pkt.waitThresh ≤ (getLock s c.pkt.waitLock).avail →
    (∃ z, findCmd t s.nextId = some z ∧ z.self = c.self ∧ z.claimed = true ∧ z.phase = .waiting) ∧
    getLock t c.pkt.waitLock = { getLock s c.pkt.waitLock with claimed := (getLock s c.pkt.waitLock).claimed + c.pkt.waitThresh } ∧
    ∀ k, k ≠ c.pkt.waitLock → getLock t k = getLock s k
  queues : c.pkt.waitThresh ≠ 0 → ((getLock s c.pkt.waitLock).queue ≠ [] ∨ (getLock s c.pkt.waitLock).setPending = true ∨ (getLock s c.pkt.waitLock).avail < c.pkt.waitThresh) →
    getLock t c.pkt.waitLock = { getLock s c.pkt.waitLock with queue := (getLock s c.pkt.waitLock).queue ++ [s.nextId] } ∧ ∀ k, k ≠ c.pkt.waitLock → getLock t k = getLock s k

/-- The state in which a ready command has been placed (R144, R301). -/
def placedIn (s : State) (y : Cmd) : State :=
  if engineOf y.pkt = 3 ∧ !((putCmd s y).queueRe.contains y.id) then { putCmd s y with queueRe := (putCmd s y).queueRe ++ [y.id] } else putCmd s y

/-- A command as its start is judged: on its unit, with the copies that serve it and what it reads of memory now (R216, R274). -/
def atStart (s : State) (c : Cmd) (p : Place) : Cmd :=
  { readNow (clearStores s c p) c with place := some p, pins := servingPins s c }

/-- A placed command waits where it is (R237, R302). -/
def Parked (s t : State) (y : Cmd) : Prop :=
  ∃ z, t = putCmd s z ∧ z.self = y.self ∧ z.phase = y.phase ∧ z.place = y.place ∧ z.runs = y.runs ∧ z.parked = true

/-- What a command brings to its commit: what its run staged. -/
def ranOf (c : Cmd) : Stg := { Stg.none with writes := c.writes, ieee := c.ieee, status := c.status, detail := c.detail }

/-- Does a context of a ring resume on a die (R306, R312)? -/
def resumesOn (s : State) (die ctx : Nat) (x : Ctx) : Bool :=
  x.ring == ctx && x.suspOn.contains die && !(higherThere s die (ctxPrio s x.job x.ring)) &&
    (match findJob s x.job with | some j => (match j.st with | .suspended _ => false | _ => true) | none => true)

/-- Contexts, commands, handles and prefetch schedules aside nothing of the programme has changed. -/
def Switched (s t : State) : Prop := Beside { s with ctxs := t.ctxs, pfs := t.pfs, cmds := t.cmds, nextId := t.nextId, serial := t.serial } t

end Sys2Proof.Machine
end

