-- ==== Sys2Proof/Certificates/Slice0/Obligations.lean ====
section
/-! DEFINITION. The statements about the block. -/

open Sys2Proof Sys2Proof.Machine

-- the block's step ---------------------------------------------------------------------------------------------------------

/-- A step takes the command at the front of the queue and runs it on the state with the queue's rest. -/
def Obligations.StepRunsTheFrontCommand : Prop :=
  ∀ (c : Instr) (rest : List Instr) (s : State), step { s with pending := c :: rest } = exec c { s with pending := rest }

/-- With no command waiting the block idles: once READY a nanosecond of device time passes (log 2: the model's choice), in which no session
opens or closes and the configuration stays; before READY nothing changes but what the board presents: its pins, the straps among them, what it would shift in at the TAP, and the coolant. -/
def Obligations.IdleBlockKeepsTime : Prop :=
  ∀ s : State, s.pending = [] →
    ∃ t, step s = .next t ∧ t.pending = [] ∧ t.time = (if s.power.phase = 7 then s.time + 1 else s.time) ∧ t.sessions = s.sessions ∧ t.cfg = s.cfg ∧
      (s.power.phase ≠ 7 → { t with power := s.power, fresh := s.fresh } = s ∧
        { t.power with keeperNow := s.power.keeperNow, addrNow := s.power.addrNow, pins := s.power.pins, shiftIn := s.power.shiftIn, coolant := s.power.coolant } = s.power)

/-- The module at power good is sound. -/
def Obligations.ResetIsSound : Prop := Sound State.reset

/-- Every step of the block keeps both memories in canonical form. -/
def Obligations.EveryStepKeepsMemorySound : Prop := ∀ s t : State, Sound s → step s = .next t → Sound t

/-- No command touches the queue of those that wait, and none takes back a command handle that has been given out. -/
def Obligations.CommandsLeaveTheQueue : Prop :=
  ∀ (i : Instr) (s t : State), exec i s = .next t → t.pending = s.pending ∧ s.nextId ≤ t.nextId

-- commits --------------------------------------------------------------------------------------------------------------------

/-- R275: a command whose outputs stay in the module commits in one step, with its outputs published, its record final, and
nothing else of the module's programme changed. -/
def Obligations.OutputsArePublishedAtCommit : Prop :=
  ∀ (i : Instr) (cid code : Nat) (run : State → Cmd → Out), outputRow i = some (cid, code, run) →
    ∀ (s : State) (c : Cmd) (r : Stg), RingRuns s cid code c → run s c = .done r → Near r →
      ∃ t, exec i s = .next t ∧ Recorded s cid c r t ∧ Beside s t ∧
        (Still s → t.mem = published s.mem r.writes ∧ t.host = s.host)

-- signal controllers ---------------------------------------------------------------------------------------------------------

/-- R456: TAKE by the target's own core makes a deliverable source active and pushes it onto the target's stack; of another it
only sets MISS and TAKE_MISS; by another agent it has no effect. -/
def Obligations.TakeActivatesADeliverableSource : Prop :=
  ∀ (s : State) (d t i : Nat), sicServed s d = true →
    exec (.sicTake d t i false) s = .next s ∧
    ∃ u, exec (.sicTake d t i true) s = .next u ∧ OnlySic s u d ∧ (getSic u d).ctrl = (getSic s d).ctrl ∧
      (∀ j, j ≠ i → (getSic u d).src j = (getSic s d).src j) ∧ (∀ g, g ≠ t → (getSic u d).tgt g = (getSic s d).tgt g) ∧
      (deliverable (getSic s d) t i = true →
        (getSic u d).err = (getSic s d).err ∧
        (getSic u d).src i = { (getSic s d).src i with state := 2, assigned := none, activeOn := t, coalesced := 0 } ∧
        ((getSic u d).tgt t).stack = (i, ((getSic s d).src i).prio) :: ((getSic s d).tgt t).stack ∧
        ((getSic u d).tgt t).miss = false) ∧
      (deliverable (getSic s d) t i = false →
        bit (getSic u d).err 3 = true ∧ (∀ b, b ≠ 3 → (b < 16 ∨ 20 ≤ b) → bit (getSic u d).err b = bit (getSic s d).err b) ∧
        fld (getSic u d).err 16 4 = t % 16 ∧
        (getSic u d).src i = (getSic s d).src i ∧ (getSic u d).tgt t = { (getSic s d).tgt t with miss := true })

/-- R457: EOI pops the top entry of the target's stack, and that entry's source leaves the active state, whatever source the write
names; with an empty stack it sets EOI_EMPTY and leaves sources and stacks as they are. -/
def Obligations.EoiPopsTheStack : Prop :=
  ∀ (s : State) (d t i : Nat), sicServed s d = true →
    ∃ u, exec (.sicEoi d t i) s = .next u ∧ OnlySic s u d ∧ (getSic u d).ctrl = (getSic s d).ctrl ∧
      (∀ g, g ≠ t → (getSic u d).tgt g = { (getSic s d).tgt g with idle := ((getSic u d).tgt g).idle }) ∧
      match ((getSic s d).tgt t).stack with
      | [] => bit (getSic u d).err 0 = true ∧ (∀ j, (getSic u d).src j = (getSic s d).src j) ∧ ((getSic u d).tgt t).stack = []
      | (j, _) :: rest =>
        ((getSic u d).tgt t).stack = rest ∧ (∀ k, k ≠ j → (getSic u d).src k = (getSic s d).src k) ∧
        bit (getSic u d).err 1 = (bit (getSic s d).err 1 || !decide (i = j)) ∧
        (((getSic s d).src j).state = 2 → ((getSic u d).src j).state = 0) ∧
        (((getSic s d).src j).state = 3 → ((getSic u d).src j).state = 1 ∧
          (((getSic s d).tgt t).enable = true →
            (getSic u d).src j = { (getSic s d).src j with state := 1, assigned := some t, activeOn := t }))

/-- R452, R453, R458: one occurrence reported by a unit, and a bit written 1 to SIC_PEND_SET, fire their sources through moderation,
routing, state and counts; reserved sources never fire, and a fenced die's controller has stopped. -/
def Obligations.FiringsMergeAreHeldOrBecomePending : Prop :=
  ∀ (s : State) (d : Nat),
    (sicServed s d = true → ∀ i, sourceOk d i = true →
      ∃ u, exec (.sourceFire d i) s = .next u ∧ OnlySic s u d ∧ Woken (getSic s d) (getSic u d) ∧ ErrKept (getSic s d).err (getSic u d).err ∧
        FiredOnce s.time (getSic s d) ((getSic s d).src i) ((getSic u d).src i) ∧
        (∀ j, j ≠ i → (getSic u d).src j = (getSic s d).src j) ∧
        (((getSic s d).src i).state = 0 → ((getSic s d).src i).held = false → ∀ t, routeTo (getSic s d) ((getSic s d).src i) = some t →
          ((getSic s d).tgt t).idle = true → Routed (getSic s d) ((getSic s d).src i) ((getSic u d).src i))) ∧
    (sicServed s d = true → ∀ w value,
      ∃ u, exec (.sicPendSet d w value) s = .next u ∧ OnlySic s u d ∧ Woken (getSic s d) (getSic u d) ∧
        ErrKept (getSic s d).err (getSic u d).err ∧
        (∀ j, Named d w value j → FiredOnce s.time (getSic s d) ((getSic s d).src j) ((getSic u d).src j)) ∧
        (∀ j, ¬ Named d w value j → (getSic u d).src j = (getSic s d).src j)) ∧
    (∀ i, sourceOk d i = false → exec (.sourceFire d i) s = .next s) ∧
    (sicServed s d = false → ∀ i w value, exec (.sourceFire d i) s = .next s ∧ exec (.sicPendSet d w value) s = .next s)

/-- R458, R459: PEND_CLR discards held firings and pending states; EN_SET and EN_CLR write enable bits; each acts on the sources whose
bit is written 1 and on no other. -/
def Obligations.BitmapWritesActOnTheirSources : Prop :=
  ∀ (s : State) (d w value : Nat), sicServed s d = true →
    (∃ u, exec (.sicPendClr d w value) s = .next u ∧ OnlySic s u d ∧ Woken (getSic s d) (getSic u d) ∧
      (getSic u d).err = (getSic s d).err ∧
      (∀ j, ¬ Named d w value j → (getSic u d).src j = (getSic s d).src j) ∧
      ∀ j, Named d w value j →
        (((getSic s d).src j).state = 0 → (getSic u d).src j = { (getSic s d).src j with held := false, heldCount := 0 }) ∧
        (((getSic s d).src j).state = 1 → (getSic u d).src j =
          { (getSic s d).src j with state := 0, assigned := none, activeOn := ((getSic s d).src j).last }) ∧
        (((getSic s d).src j).state = 2 → (getSic u d).src j = (getSic s d).src j) ∧
        (((getSic s d).src j).state = 3 → (getSic u d).src j = { (getSic s d).src j with state := 2 })) ∧
    (∃ u, exec (.sicEnSet d w value) s = .next u ∧ OnlySic s u d ∧ Woken (getSic s d) (getSic u d) ∧ (getSic u d).err = (getSic s d).err ∧
      (∀ j, Named d w value j → (getSic u d).src j = { (getSic s d).src j with enabled := true }) ∧
      ∀ j, ¬ Named d w value j → (getSic u d).src j = (getSic s d).src j) ∧
    (∃ u, exec (.sicEnClr d w value) s = .next u ∧ OnlySic s u d ∧ Woken (getSic s d) (getSic u d) ∧ (getSic u d).err = (getSic s d).err ∧
      (∀ j, Named d w value j → (getSic u d).src j = { (getSic s d).src j with enabled := false }) ∧
      ∀ j, ¬ Named d w value j → (getSic u d).src j = (getSic s d).src j)

/-- R453, R454, R460, R461: the settings of a source and of a target take the values written, and beside them at most the assignment of
pending sources changes; new moderation settings may release the source they are of. -/
def Obligations.SettingsTakeEffectAtOnce : Prop :=
  ∀ (s : State) (d value : Nat), sicServed s d = true →
    (∀ i,
      (∃ u, exec (.sicSrcCfg d i value) s = .next u ∧ OnlySic s u d ∧ Woken (getSic s d) (getSic u d) ∧
        ErrKept (getSic s d).err (getSic u d).err ∧ (∀ j, j ≠ i → Moved ((getSic s d).src j) ((getSic u d).src j)) ∧
        Moved { (getSic s d).src i with prio := fld value 0 5, mask := fld value 16 16 } ((getSic u d).src i)) ∧
      ∃ u, exec (.sicSrcMod d i value) s = .next u ∧ OnlySic s u d ∧ Woken (getSic s d) (getSic u d) ∧
        ErrKept (getSic s d).err (getSic u d).err ∧ (∀ j, j ≠ i → (getSic u d).src j = (getSic s d).src j) ∧
        (getSic u d).src i = (fun x : Source =>
          if x.held = true ∧ (x.modCount ≤ x.heldCount ∨ chosenIdle (getSic s d) x = true ∨ (0 < x.modTimer ∧ x.heldAt + x.modTimer * 100 ≤ s.time)) then
            { x with state := 1, held := false, heldCount := 0, assigned := routeTo (getSic s d) x,
                     activeOn := (routeTo (getSic s d) x).getD x.activeOn, last := (routeTo (getSic s d) x).getD x.last }
          else x) { (getSic s d).src i with modCount := fld value 0 8, modTimer := fld value 8 16 }) ∧
    (∀ t, ∃ u, exec (.sicTgtCtrl d t value) s = .next u ∧ OnlySic s u d ∧ (getSic u d).ctrl = (getSic s d).ctrl ∧
      ErrKept (getSic s d).err (getSic u d).err ∧ (∀ j, Moved ((getSic s d).src j) ((getSic u d).src j)) ∧
      ((getSic u d).tgt t).enable = bit value 0 ∧ ((getSic u d).tgt t).stack = ((getSic s d).tgt t).stack ∧
      (∀ g, g ≠ t → (getSic u d).tgt g = { (getSic s d).tgt g with idle := ((getSic u d).tgt g).idle }))

/-- R453: a held source whose timer expires becomes pending, with its held firings discarded; device time is then at least the expiry, and only counters and
signals move with it. Without a held source of a timer nothing happens. -/
def Obligations.ModerationTimerReleases : Prop :=
  ∀ (s : State) (d i : Nat),
    (sicServed s d = true ∧ ((getSic s d).src i).held = true ∧ 0 < ((getSic s d).src i).modTimer →
      ∃ u, exec (.moderationTimer d i) s = .next u ∧ Meters s { u with time := s.time } ∧
        u.time = max s.time (((getSic s d).src i).heldAt + ((getSic s d).src i).modTimer * 100) ∧
        ((getSic u d).src i).state = 1 ∧ ((getSic u d).src i).held = false ∧ ((getSic u d).src i).heldCount = 0) ∧
    (sicServed s d = false ∨ ((getSic s d).src i).held = false ∨ ((getSic s d).src i).modTimer = 0 →
      exec (.moderationTimer d i) s = .next s)

/-- R453, R462: when a core waits for an interrupt its target is idle, unless its line is asserted; a source held for that target
becomes pending, and no other source changes its state. -/
def Obligations.IdleTargetReleasesHeldSources : Prop :=
  ∀ (s : State) (d t : Nat), sicServed s d = true →
    ∃ u, exec (.targetIdle d t) s = .next u ∧ OnlySic s u d ∧ (getSic u d).ctrl = (getSic s d).ctrl ∧
      ErrKept (getSic s d).err (getSic u d).err ∧
      (∀ g, (getSic u d).tgt g = { (getSic s d).tgt g with idle := ((getSic u d).tgt g).idle }) ∧
      (∀ j, ((getSic s d).src j).held = true ∧ routeTo (getSic s d) ((getSic s d).src j) = some t →
        Routed (getSic s d) ((getSic s d).src j) ((getSic u d).src j)) ∧
      (∀ j, ¬ (((getSic s d).src j).held = true ∧ routeTo (getSic s d) ((getSic s d).src j) = some t) →
        (getSic u d).src j = (getSic s d).src j) ∧
      ((∀ j, ((getSic s d).src j).held = false) → t < 16 → ((getSic u d).tgt t).idle = !lineOf (getSic s d) t)

-- counters and trace -----------------------------------------------------------------------------------------------------------

/-- R430: CNT_CTRL sets FREEZE and ARM; CNT_CLEAR zeroes every value and no selection or filter; at CNT_FREEZE_AT an armed block freezes and
disarms. -/
def Obligations.CounterBlockControls : Prop :=
  ∀ (s : State) (d value : Nat), blockServed s d = true →
    (∃ u, exec (.cntCtrl d value) s = .next u ∧ { u with cnts := s.cnts } = s ∧ (∀ e, e ≠ d → getCnt u e = getCnt s e) ∧
      getCnt u d = { getCnt s d with freeze := bit value 0, arm := bit value 1 }) ∧
    (bit value 0 = true →
      ∃ u, exec (.cntClear d value) s = .next u ∧ { u with cnts := s.cnts } = s ∧ (∀ e, e ≠ d → getCnt u e = getCnt s e) ∧
        getCnt u d = { getCnt s d with counters := (getCnt u d).counters } ∧
        ∀ k, tget Counter.rest (getCnt u d).counters k = { tget Counter.rest (getCnt s d).counters k with value := 0 }) ∧
    (bit value 0 = false → exec (.cntClear d value) s = .next s) ∧
    ((getCnt s d).arm = true →
      ∃ u, exec (.counterFreeze d) s = .next u ∧ Meters s { u with time := s.time } ∧ u.time = max s.time (getCnt s d).freezeAt ∧
        (getCnt u d).freeze = true ∧ (getCnt u d).arm = false) ∧
    ((getCnt s d).arm = false → exec (.counterFreeze d) s = .next s)

/-- R439, R444: setting ENABLE starts a capture with nothing written, lost or triggered; clearing it ends the capture; while it is 1 MODE
keeps its value; TR_TRIG_NOW makes the next record the trigger. Nothing but this die's trace block changes. -/
def Obligations.TraceEnableStartsAndEndsCapture : Prop :=
  ∀ (s : State) (d value : Nat), blockServed s d = true →
    (∃ u, exec (.trCtrl d value) s = .next u ∧ { u with traces := s.traces } = s ∧ (∀ e, e ≠ d → getTrace u e = getTrace s e) ∧
      (getTrace u d).base = (getTrace s d).base ∧ (getTrace u d).size = (getTrace s d).size ∧ (getTrace u d).job = (getTrace s d).job ∧
      (getTrace u d).kinds = (getTrace s d).kinds ∧ (getTrace u d).filter = (getTrace s d).filter ∧
      (getTrace u d).layers = (getTrace s d).layers ∧ (getTrace u d).trig = (getTrace s d).trig ∧
      bit (getTrace u d).ctrl 0 = bit value 0 ∧
      (bit (getTrace s d).ctrl 0 = true → fld (getTrace u d).ctrl 1 2 = fld (getTrace s d).ctrl 1 2) ∧
      (bit (getTrace s d).ctrl 0 = false → fld value 1 2 ≠ 3 → fld value 3 7 ≤ 99 → fld value 10 4 ≤ 12 →
        (getTrace u d).ctrl = fld value 0 14) ∧
      (bit (getTrace s d).ctrl 0 = false → bit value 0 = true →
        (getTrace u d).state = 1 ∧ (getTrace u d).written = 0 ∧ (getTrace u d).lost = 0 ∧ (getTrace u d).wrapped = false ∧
        (getTrace u d).trigIdx = 0xFFFFFFFF ∧ (getTrace u d).oldest = 0xFFFFFFFF) ∧
      (bit (getTrace s d).ctrl 0 = true → bit value 0 = false →
        (getTrace u d).state = 0 ∧ (getTrace u d).written = (getTrace s d).written ∧ (getTrace u d).lost = (getTrace s d).lost) ∧
      (bit (getTrace s d).ctrl 0 = bit value 0 → getTrace u d = { getTrace s d with ctrl := (getTrace u d).ctrl })) ∧
    (bit value 0 = true →
      ∃ u, exec (.trTrigNow d value) s = .next u ∧ { u with traces := s.traces } = s ∧ (∀ e, e ≠ d → getTrace u e = getTrace s e) ∧
        getTrace u d = { getTrace s d with trigNow := true }) ∧
    (bit value 0 = false → exec (.trTrigNow d value) s = .next s)

/-- R438 to R441: a write to TR_MARK while the block captures kind 9 writes one record that carries the value into the next slot of the
buffer, under the key of the owner job, and touches no byte outside the buffer; while it captures nothing, or not kind 9, nothing happens. -/
def Obligations.MarkWritesOneRecord : Prop :=
  ∀ (s : State) (d value : Nat), blockServed s d = true →
    ((getTrace s d).state = 0 ∨ (getTrace s d).state = 3 ∨ trWanted (getTrace s d) (trPlain s 9 (value % 2 ^ 32)) = false →
      exec (.trMark d value) s = .next s) ∧
    ((getTrace s d).state = 1 ∨ (getTrace s d).state = 2 → trWanted (getTrace s d) (trPlain s 9 (value % 2 ^ 32)) = true →
      ∀ j, findJob s (getTrace s d).job = some j → s.cxl.privBy = some j.sess → (gaddrOf (getTrace s d).base).tier = 0 →
        (gaddrOf (getTrace s d).base).off % 2 ^ fld (getTrace s d).size 0 6 = 0 → 16 ≤ fld (getTrace s d).size 0 6 →
        (getTrace s d).next < trSlots (getTrace s d) →
        ∃ u, exec (.trMark d value) s = .next u ∧ u.host = s.host ∧ u.locks = s.locks ∧ u.cmds = s.cmds ∧ u.jobs = s.jobs ∧ u.rings = s.rings ∧
          u.time = s.time ∧ (getTrace u d).written = ((getTrace s d).written + 1) % 2 ^ 48 ∧
          (∃ trigger, memRead u.mem ((gaddrOf (getTrace s d).base).off + (getTrace s d).next * 32) 32 =
            (trPlain s 9 (value % 2 ^ 32)).bytes trigger) ∧
          ∀ a, (a < (gaddrOf (getTrace s d).base).off ∨ (gaddrOf (getTrace s d).base).off + trSlots (getTrace s d) * 32 ≤ a) →
            memByte u.mem a = memByte s.mem a)

-- power, reset and start-up ---------------------------------------------------------------------------------------------------------

/-- R493, R502, R503, R515, R519: power good after OFF, the reset request, and each edge of MOD_RESET_N of a powered module, restart start-up;
only power good is a new power-up; a reset keeps HBM, and of it only the dump parts readable. Power good, the reset request and the rise of
MOD_RESET_N sample the straps. After a reset request with PWR_EN deasserted step 1 waits for it, and in STANDBY the request, or the fall of
MOD_RESET_N, begins the ramp again (log 136: the model's reading). -/
def Obligations.ResetsRestartStartup : Prop :=
  ∀ s : State,
    (∃ t, exec .powerGood s = .next t ∧
      (s.power.off = true → s.power.ramping = true →
        Restarted s t ∧ Strapped s t ∧ t.mem = [] ∧ t.trust.boots = s.trust.boots + 1 ∧ t.power.awaitEn = false) ∧
      (s.power.off = false ∨ s.power.ramping = false → t = s)) ∧
    (∃ t, exec .moduleReset s = .next t ∧
      (s.power.off = false → s.power.resetN = true →
        Restarted s t ∧ Strapped s t ∧ DumpSurvives s t ∧ t.trust.boots = s.trust.boots ∧ t.power.awaitEn = !s.power.pwrEn) ∧
      (s.power.resetN = false → t = s) ∧
      (s.power.off = true → s.power.resetN = true → s.power.phase = 9 → s.power.pwrEn = true →
        t = { s with power := { s.power with stayed := false, ramping := s.power.inRange } }) ∧
      (s.power.off = true → (s.power.phase ≠ 9 ∨ s.power.pwrEn = false) → t = s)) ∧
    ∀ level, ∃ t, exec (.modResetN level) s = .next t ∧ t.power.resetN = level ∧
      (s.power.off = false → s.power.resetN ≠ level →
        Restarted s t ∧ DumpSurvives s t ∧ t.trust.boots = s.trust.boots ∧ (level = true → Strapped s t) ∧
        (level = false → t.power.keeperStrap = s.power.keeperStrap ∧ t.power.addrStrap = s.power.addrStrap)) ∧
      (s.power.resetN = level ∨ (s.power.off = true ∧ (s.power.phase ≠ 9 ∨ (level = false ∧ s.power.pwrEn = false))) →
        t = { s with power := { s.power with resetN := level } }) ∧
      (s.power.off = true → s.power.phase = 9 → s.power.resetN = false → level = true →
        t = { s with power := { s.power with resetN := true, keeperStrap := s.power.keeperNow, addrStrap := s.power.addrNow } }) ∧
      (s.power.off = true → s.power.phase = 9 → s.power.resetN = true → level = false → s.power.pwrEn = true →
        t = { s with power := { s.power with resetN := false, stayed := false, ramping := s.power.inRange } })

/-- R493, R507, R510, R519: PWR_EN and the hot-swap controller start the ramp of a module that is off, the controller not of one that rests in
STANDBY; PWR_EN deasserted, or the standby request, at READY begins the shutdown: PHASE 8, its time noted, and nothing else yet. -/
def Obligations.PowerRequests : Prop :=
  ∀ s : State,
    (∃ t, exec .pwrEnAssert s = .next t ∧ OnlyPower s t ∧ t.power.pwrEn = true ∧ t.power.awaitEn = false ∧ t.power.stayed = false ∧
      t.power.ramping = (s.power.ramping || (s.power.off && s.power.inRange)) ∧ t.power.phase = s.power.phase) ∧
    (∃ t, exec .hotSwapRetry s = .next t ∧ OnlyPower s t ∧ t.power.phase = s.power.phase ∧
      (s.power.off = true → s.power.pwrEn = true → s.power.ramping = false → s.power.stayed = false → t.power.ramping = true ∧ t.power.inRange = true) ∧
      (¬ (s.power.off = true ∧ s.power.pwrEn = true ∧ s.power.ramping = false ∧ s.power.stayed = false) → t = s)) ∧
    (s.power.off = false → s.power.phase = 7 →
      (∃ t, exec .pwrEnDeassert s = .next t ∧ OnlyPower s t ∧ t.power.pwrEn = false ∧ t.power.phase = 8 ∧ t.power.shutAt = some s.time ∧
        t.power.ibi = s.power.ibi ++ [8]) ∧
      ∃ t, exec .standby s = .next t ∧ OnlyPower s t ∧ t.power.phase = 8 ∧ t.power.shutAt = some s.time ∧ t.power.pwrEn = s.power.pwrEn) ∧
    (s.power.off = true →
      (∃ t, exec .pwrEnDeassert s = .next t ∧ OnlyPower s t ∧ t.power.pwrEn = false ∧ t.power.ramping = false) ∧ exec .standby s = .next s)

/-- R489, R494, R507, R517: 10 ms after the trigger of a shutdown the host link is down and no session is open; then the rails are switched off in
PHASE 9, where the module stays until PWR_EN is asserted again; a loss of input switches them off at once and takes the management bus's address. -/
def Obligations.RailsGoOff : Prop :=
  ∀ s : State,
    (∀ at_, s.power.phase = 8 → s.power.shutAt = some at_ →
      ∃ t, exec .shutdownTimeout s = .next t ∧ t.power.shutAt = none ∧ t.power.linkUp = false ∧ t.power.phase = 8 ∧
        t.time = max s.time (at_ + 10000000) ∧ ∀ i, i < 64 → (getSes t i).st ≠ .opened) ∧
    (¬ (s.power.phase = 8 ∧ s.power.shutAt.isSome = true) → exec .shutdownTimeout s = .next s) ∧
    (s.power.phase = 8 → ∃ t, exec .standbyEntered s = .next t ∧ t.power.off = true ∧ t.power.phase = 9 ∧ t.power.stayed = true ∧ t.mem = [] ∧ t.cmds = [] ∧
      t.jobs = [] ∧ t.sessions = [] ∧ t.dump = Dump.rest) ∧
    (s.power.phase ≠ 8 → exec .standbyEntered s = .next s) ∧
    (∃ t, exec .inputLoss s = .next t ∧ RailsOff s t ∧ t.power.inRange = false ∧ t.power.i3cAddr = none ∧ t.tap = Tap.rest)

-- flights and factor sets ----------------------------------------------------------------------------------------------------------------

/-- R85, R99 to R106: a push makes its tensor the top entry, with a FWD at the product's own commit; a pop takes the top entry away, lets spilled
entries back as far as the basin holds them where the new top entry is spilled, and waits until the entry's readers have ended; FLIGHT_INIT
leaves an empty flight of its job. Each leaves the flight's control block as its Module fields say. -/
def Obligations.FlightsHoldWhatIsPushed : Prop :=
  ∀ (s : State) (cid : Nat) (c : Cmd),
    (RingRuns s cid 0x10C c → ∀ a n o f, c.flPush = some (a, n) → pushOpnd c = some o → tfind s.flights a = some f →
      ∃ t, exec (.flightPush cid) s = .next t ∧ Recorded s cid c Stg.none t ∧ Pushed s c a o f s.mem t) ∧
    (RingRuns s cid 0x101 c → ∀ r, meProduct 0x01 s c = .done r → Near r →
      (c.flPush = none → ∃ t, exec (.fwd cid) s = .next t ∧ Recorded s cid c r t ∧ Beside s t ∧
        (Still s → t.mem = published s.mem r.writes ∧ t.host = s.host)) ∧
      ∀ a n o f, c.flPush = some (a, n) → pushOpnd c = some o → tfind s.flights a = some f →
        ∃ t, exec (.fwd cid) s = .next t ∧ Recorded s cid c r t ∧ Pushed s c a o f (published s.mem r.writes) t) ∧
    (RingRuns s cid 0x10D c → ∀ f, tfind s.flights (flightAddr c.pkt) = some f →
      (topRead s (flightAddr c.pkt) f = false →
        ∃ t f', exec (.flightPop cid) s = .next t ∧ Recorded s cid c Stg.none t ∧ FlightIs s t s.mem (flightAddr c.pkt) f' ∧
          { f' with entries := f.entries } = f ∧ f'.data = f.data.tail ∧ (flBasin f ≤ f.basinSize → flBasin f' ≤ f'.basinSize) ∧
          ((∀ e ∈ f.entries.tail.head?, e.spilled = false) → f'.entries = f.entries.tail)) ∧
      (topRead s (flightAddr c.pkt) f = true →
        ∃ t, exec (.flightPop cid) s = .next t ∧ StillRuns s t cid c)) ∧
    (RingRuns s cid 0x10E c → ∀ f, flightOf c.pkt.job (flightAddr c.pkt) (memRead c.snapMem (flightAddr c.pkt) 64) = some f →
      ∃ t, exec (.flightInit cid) s = .next t ∧ Recorded s cid c Stg.none t ∧ FlightIs s t s.mem (flightAddr c.pkt) f ∧
        f.entries = [] ∧ f.high = 0 ∧ f.job = c.pkt.job)

/-- R118 to R120: FSET_INIT waits for the root commands that name a root of the set, then zeroes the blocks of the set and its counters; FSET_ADVANCE counts a step, and at the due steps it and
FSET_REFRESH at once make the refresh of every block due, issued or skipped, with the deadline counted from the commit. -/
def Obligations.FactorSetsAdvanceAndRefresh : Prop :=
  ∀ (s : State) (cid : Nat) (c : Cmd),
    (RingRuns s cid 0x301 c → ∀ a f busy, a = fsetAddr s c.pkt → f = fsetRaw c.pkt.job (memRead c.snapMem a 128) →
      busy = (rootsBusy s a f (rootOuts s) || (match tfind s.fsets a with | some g => rootsBusy s a g (rootOuts s) | none => false)) →
      (busy = true → ∃ t, exec (.fsetInit cid) s = .next t ∧ StillRuns s t cid c) ∧
      (busy = false → ∃ t, exec (.fsetInit cid) s = .next t ∧ Recorded s cid c Stg.none t ∧ Beside { s with fsets := t.fsets } t ∧
        tfind t.fsets a = some f ∧ f.step = 0 ∧ f.skipped = 0 ∧ f.incompl = 0 ∧ f.ill = 0 ∧
        (∀ b, b ≠ a → tfind t.fsets b = tfind s.fsets b) ∧
        (Still s → t.host = s.host ∧ ∀ x, (x < a ∨ (a + 2 ≤ x ∧ x < a + 84) ∨ a + 100 ≤ x) →
          ((∃ b ∈ fsetBlocks f, ofBlock f b x) → memByte t.mem x = 0) ∧
          ((¬ ∃ b ∈ fsetBlocks f, ofBlock f b x) → memByte t.mem x = memByte s.mem x)))) ∧
    (RingRuns s cid 0x302 c → ∀ a f, a = fsetAddr s c.pkt → tfind s.fsets a = some f →
      ∃ t f' new skips, exec (.fsetAdvance cid) s = .next t ∧ Recorded s cid c Stg.none t ∧
        Beside { s with fsets := t.fsets, cmds := s.cmds ++ new, nextId := s.nextId + new.length } t ∧
        tfind t.fsets a = some f' ∧ (∀ b, b ≠ a → tfind t.fsets b = tfind s.fsets b) ∧ OnlyBlock s t a ∧
        Refreshed s a c.sess (f.every ≠ 0 ∧ (f.step + 1) % 2 ^ 32 % f.every = f.phase) { f with step := (f.step + 1) % 2 ^ 32 } f' new skips) ∧
    (RingRuns s cid 0x303 c → ∀ a f, a = fsetAddr s c.pkt → tfind s.fsets a = some f →
      ∃ t f' new skips, exec (.fsetRefresh cid) s = .next t ∧ Recorded s cid c Stg.none t ∧
        Beside { s with fsets := t.fsets, cmds := s.cmds ++ new, nextId := s.nextId + new.length } t ∧
        tfind t.fsets a = some f' ∧ (∀ b, b ≠ a → tfind t.fsets b = tfind s.fsets b) ∧ OnlyBlock s t a ∧
        Refreshed s a c.sess True f f' new skips)

/-- R122, R137, R138, R140: a root command ends with a result entry for each of its problems and the output of each that is finished; at its deadline
the problems that are not finished are INCOMPLETE. One whose engine's scratch fails, or which reads a poisoned unit, ends ECC_UNCORRECTED. -/
def Obligations.RootCommandsPublishWhatIsFinished : Prop :=
  ∀ (s : State) (cid : Nat) (c : Cmd),
    (∀ op i, (op, i) ∈ [(1, Instr.rootNewton cid), (2, .rootChol cid), (3, .cholFactor cid)] → RingRuns s cid (0x400 + op) c →
      EndsUnclean i s c (rootToRead maxProblems s c) ∧
      (Clean s c (rootToRead maxProblems s c) → ∀ q ps, rootJob s c = some (q, ps) →
        (deadlinePast s q.deadline c.started = true → ∃ t, exec i s = .next t ∧ StillRuns s t cid c) ∧
        (deadlinePast s q.deadline c.started = false → RootHome s ps →
          ∃ t r, exec i s = .next t ∧ Recorded s cid c r t ∧ Beside s t ∧ (Still s → t.mem = published s.mem r.writes ∧ t.host = s.host) ∧
            (r.status = stDone ∨ r.status = stIncomplete ∨ r.status = stIll) ∧ ∀ p ∈ ps, EntryOf s c r stIncomplete p.resAt p.output))) ∧
    ∀ d iters started, RingRuns s cid c.pkt.clsOp c → c.pkt.cls = 4 → Clean s c (rootToRead (if started then d + 1 else d) s c) →
      ∀ q ps, rootJob s c = some (q, ps) → q.deadline ≠ 0 → RootHome s ps →
      ∃ t r, exec (.rootDeadline cid d iters started) s = .next t ∧ t.time = max s.time (q.deadline + 3) ∧
        Recorded { s with time := t.time } cid c r t ∧ Beside { s with time := t.time } t ∧
        (Still s → t.mem = published s.mem r.writes ∧ t.host = s.host) ∧ (reached c d < ps.length → r.status = stIncomplete) ∧
        ∀ k p, ps[k]? = some p → (EntryOf s c r stIncomplete p.resAt p.output ∧ (reached c d ≤ k → EntryAt s c r p.resAt stIncomplete))

/-- R122, R159 to R162, R166: a solve command ends with a result entry for each of its problems; at its deadline the ones that had not started publish nothing else,
the others their best iterate, and each of them says DEADLINE. One whose engine's scratch fails, or which reads a poisoned unit, ends ECC_UNCORRECTED. -/
def Obligations.SolveCommandsPublishWhatIsFound : Prop :=
  ∀ (s : State) (cid : Nat) (c : Cmd),
    (∀ op i, (op, i) ∈ [(1, Instr.solveCg cid), (2, .solvePcg cid), (3, .solveBicgstab cid)] → RingRuns s cid (0x500 + op) c →
      EndsUnclean i s c (solveToRead maxProblems s c) ∧
      (Clean s c (solveToRead maxProblems s c) → ∀ q ps, solveJob s c = (q, ps) →
        (deadlinePast s q.deadline c.started = true → ∃ t, exec i s = .next t ∧ StillRuns s t cid c) ∧
        (deadlinePast s q.deadline c.started = false → SolveHome s ps →
          ∃ t r, exec i s = .next t ∧ Recorded s cid c r t ∧ Beside s t ∧ (Still s → t.mem = published s.mem r.writes ∧ t.host = s.host) ∧
            (r.status = stDone ∨ r.status = stDeadline ∨ r.status = stIll) ∧ ∀ p ∈ ps, EntryOf s c r stDeadline p.resAt p.x))) ∧
    ∀ d iters started, RingRuns s cid c.pkt.clsOp c → c.pkt.cls = 5 → Clean s c (solveToRead (if started then d + 1 else d) s c) →
      ∀ q ps, solveJob s c = (q, ps) → q.deadline ≠ 0 → SolveHome s ps →
      ∃ t r, exec (.solveDeadline cid d iters started) s = .next t ∧ t.time = max s.time (q.deadline + 3) ∧
        Recorded { s with time := t.time } cid c r t ∧ Beside { s with time := t.time } t ∧
        (Still s → t.mem = published s.mem r.writes ∧ t.host = s.host) ∧ (reached c d + 1 < ps.length → r.status = stDeadline) ∧
        ∀ k p, ps[k]? = some p → EntryOf s c r stDeadline p.resAt p.x ∧ (reached c d < k → EntryAt s c r p.resAt stDeadline)

-- shards --------------------------------------------------------------------------------------------------------------------------------------

/-- R179, R180, R182 to R184: an update with no contribution, or with a norm that is not finite, skips: the version stays and SKIPS grows. Every other
update makes the next version in its slot; the first-order and diagonal rules always can, and the full rule can where its set's roots
are usable or the job allows the fallback, and ends ILL_POSED where neither holds. The shard that it computes from is the one read at its start
(R171), the one that it changes the one that stands. -/
def Obligations.UpdatesMakeVersions : Prop :=
  ∀ (s : State) (cid : Nat) (c : Cmd) (op : Nat) (i : Instr), (op, i) ∈ [(1, Instr.updFirst cid), (2, .updDiag cid), (3, .updPrecond cid)] →
    RingRuns s cid (0x600 + op) c → ∀ h g q n a, updShard s c = some (h, q) → n = (if 0 < q.divisor then q.divisor else c.aux.getD 1 0) →
      a = shardAddr s c.pkt → tfind s.shards a = some g →
      (n = 0 ∨ (v32 q.gnorm).isFin = false →
        ∃ t r k, exec i s = .next t ∧ Recorded s cid c r t ∧ r.status = stDone ∧ r.writes = [] ∧ r.flags = 4 ∧ UpdatedMem s t c a g q.clear [] ∧
          ShardIs s t a { g with skips := (g.skips + 1) % 2 ^ 32, gradCount := if q.clear then 0 else g.gradCount, streak := k }) ∧
      (n ≠ 0 → (v32 q.gnorm).isFin = true →
        (op = 3 → c.fall = false → (∃ f, updFset s c h = some f ∧ (badRoot s c f).isSome = true) → ∃ t, exec i s = .next t ∧ Ended s t c stIll 0) ∧
        (op ≠ 3 ∨ updFset s c h = none ∨ (∀ f, updFset s c h = some f → badRoot s c f = none) ∨ c.fall = true → ∃ r, updRun op s c = .done r) ∧
        ∀ r, updRun op s c = .done r → Near r →
          ∃ t h' k, exec i s = .next t ∧ Recorded s cid c r t ∧ r.status = stDone ∧ UpdatedMem s t c a g q.clear r.writes ∧ ShardIs s t a h' ∧
            h'.version = (g.version + 1) % 2 ^ 32 ∧ h'.gradCount = (if q.clear then 0 else g.gradCount) ∧ h'.skips = g.skips ∧ h'.streak = k ∧
            (nextSlot h = 0 → h'.ver0 = h'.version ∧ h'.ver1 = g.ver1 ∧ h'.digest1 = g.digest1) ∧
            (nextSlot h ≠ 0 → h'.ver1 = h'.version ∧ h'.ver0 = g.ver0 ∧ h'.digest0 = g.digest0))

/-- R173, R190: SHARD_INIT makes a shard of version 0 with zero state and the working copy of its master; SCHED_LOAD puts a table in its slot in the
place of the one there, or ends ACCESS_DENIED where it would be a seventeenth of the module. -/
def Obligations.ShardsAndSchedulesAreLoaded : Prop :=
  ∀ (s : State) (cid : Nat) (c : Cmd),
    (RingRuns s cid 0x608 c → ∃ r, shardRun s c = .done r ∧
      (Near r → ∀ a h, a = shardAddr s c.pkt → h = shardRaw c.pkt.job (cBytes s c (descAddr (c.pkt.slot 0)) 128) → Still s →
        ∃ t d, exec (.shardInit cid) s = .next t ∧ Recorded s cid c r t ∧ ShardIs s t a { h with digest0 := d } ∧
          h.version = 0 ∧ h.ver0 = 0 ∧ h.ver1 = 0xFFFFFFFF ∧ h.gradCount = 0 ∧ h.skips = 0 ∧ h.fallbacks = 0 ∧ h.job = c.pkt.job ∧
          t.host = s.host ∧ ∀ x, ¬ ofShardBlock a x → ofGacc s c h x ∨ ofRegion s c h.moment (4 * h.rows * h.cols) x ∨
              (h.factored = true ∧ (ofRegion s c h.rowAcc (4 * h.rows) x ∨ ofRegion s c h.colAcc (4 * h.cols) x)) →
            memByte t.mem x = 0)) ∧
    (RingRuns s cid 0x609 c → schedFull s c.pkt.job (fieldAt (cBytes s c (descAddr (c.pkt.slot 1)) 16) 0 1) = true →
      ∃ t, exec (.schedLoad cid) s = .next t ∧ Ended s t c stDenied 0xFE) ∧
    (RingRuns s cid 0x609 c → schedFull s c.pkt.job (fieldAt (cBytes s c (descAddr (c.pkt.slot 1)) 16) 0 1) = false → Still s → ∀ lb segs, lb = cBytes s c (descAddr (c.pkt.slot 1)) 16 →
      segs = schedSegs (fieldAt lb 1 1) (cBytes s c (descAddr (c.pkt.slot 0)) (32 * fieldAt lb 1 1)) →
      ∃ t, exec (.schedLoad cid) s = .next t ∧ Recorded s cid c Stg.none t ∧ Beside { s with scheds := t.scheds } t ∧ t.mem = s.mem ∧ t.host = s.host ∧
        t.scheds = s.scheds.filter (fun x => !(x.job == c.pkt.job && x.slot == fieldAt lb 0 1)) ++ [⟨c.pkt.job, fieldAt lb 0 1, segs⟩])

-- transfers, residency and prefetch ----------------------------------------------------------------------------------------------------------

/-- R210, R237, R238, R241, R254 to R256: FILL and a plain COPY leave their bytes at the destination; every COPY and CONVERT writes what it computed from
its source; a drain empties the pounds of its die and changes no byte, records what of it was poisoned, and takes in the first write of another module that
waited for the room it has made. -/
def Obligations.BargesMoveData : Prop :=
  ∀ (s : State) (cid : Nat) (c : Cmd),
    (RingRuns s cid 0x703 c → ∀ bs d, bs = (List.replicate (bargeLen c.pkt / 4) (leBytes 4 (c.pkt.slot 3))).flatten →
      d = resolve s c (descAddr (c.pkt.slot 1)) bs.length → d.tier < 3 →
      ∃ t r, exec (.fill cid) s = .next t ∧ Recorded s cid c r t ∧ Beside s t ∧ r.status = stDone ∧
        (Still s → t.host = s.host ∧ memRead t.mem d.off bs.length = bs ∧ ∀ x, (x < d.off ∨ d.off + bs.length ≤ x) → memByte t.mem x = memByte s.mem x)) ∧
    (RingRuns s cid 0x701 c → ∀ n d, n = bargeLen c.pkt → opnd c 0 = none → bargeZipDst c.pkt = false → bargeZipSrc c.pkt = false →
      (descAddr (c.pkt.slot 0)).tier ≠ 3 → (resolve s c (descAddr (c.pkt.slot 0)) n).tier ≠ 4 → d = resolve s c (descAddr (c.pkt.slot 1)) n → d.tier < 3 →
      ∃ t r, exec (.copy cid) s = .next t ∧ Recorded s cid c r t ∧ Beside s t ∧ r.status = stDone ∧
        (Still s → t.host = s.host ∧ memRead t.mem d.off n = cBytes s c (descAddr (c.pkt.slot 0)) n ∧
          ∀ x, (x < d.off ∨ d.off + n ≤ x) → memByte t.mem x = memByte s.mem x)) ∧
    (∀ r, Near r → (∀ w ∈ r.writes, w.tgt.tier ≠ 3) →
      (RingRuns s cid 0x701 c → (bargeZipSrc c.pkt = false ∨ ∃ bs, decodeImage (bargeKind c.pkt) (bargeLen c.pkt) (moveSrc s c) = .ok bs) → copyRun s c = .done r →
        ∃ t, exec (.copy cid) s = .next t ∧ Recorded s cid c r t ∧ Beside s t ∧ (Still s → t.mem = published s.mem r.writes ∧ t.host = s.host)) ∧
      (RingRuns s cid 0x702 c → convertRun s c = .done r →
        ∃ t, exec (.convertBarge cid) s = .next t ∧ Recorded s cid c r t ∧ Beside s t ∧ (Still s → t.mem = published s.mem r.writes ∧ t.host = s.host))) ∧
    ∀ die, ∃ t, exec (.poundDrain die) s = .next t ∧ Carried { s with poundQ := t.poundQ, remoteSt := t.remoteSt, memRegs := t.memRegs } t ∧ MemSame s t ∧
      t.poundQ = s.poundQ.filter (fun q => !(q.die == die)) ∧ (∀ d, (getMemRegs t d).kept = (getMemRegs s d).kept) ∧
      ((∀ q ∈ s.poundQ, q.die = die → poisonedIn s q.addr 256 = none) → t.memRegs = s.memRegs) ∧
      t.remoteSt.map RemoteStaged.unroomed = s.remoteSt.map RemoteStaged.unroomed ∧
      ∀ pre r post, s.remoteSt = pre ++ r :: post → (∀ x ∈ pre, x.room = true) → r.room = false →
        HasRoom { s with poundQ := t.poundQ } r.addr r.data.length →
        t.remoteSt[pre.length]? = some { r with room := true } ∧
        (s.power.phase ≠ 0xF → Out_ t (fun m => m.dst = r.peer ∧ m.typ = mtStagedAck ∧ m.tc = 7 ∧ m.job = r.job ∧ m.seq = r.seq ∧ m.runs = r.runs))

/-- R212 to R215, R218 to R223, R237: pools and objects are activated, or refused; RES_PIN and RES_UNPIN count, and with the last pin a pending eviction
takes effect; RES_EVICT removes an unpinned clean copy, begins the write-back of a dirty one and removes it once that has committed, and leaves a pinned
one pending; RES_DESTROY waits for the pins, then for the write-backs, and takes the object away; RES_PROMOTE of a copy that is there
ends at once, and of one whose bytes have come when it has its place. -/
def Obligations.ResidencyFollowsItsCommands : Prop :=
  ∀ (s : State) (cid : Nat) (c : Cmd),
    (∀ a bs, a = resAddr s c.pkt → bs = memRead c.snapMem a 64 →
      (RingRuns s cid 0x720 c →
        (∀ st n, poolInitBad s c bs = some (st, n) → ∃ t, exec (.resPoolInit cid) s = .next t ∧ Ended s t c st n) ∧
        (poolInitBad s c bs = none →
          ∃ t, exec (.resPoolInit cid) s = .next t ∧ Recorded s cid c Stg.none t ∧ Beside { s with pools := t.pools } t ∧
            tfind t.pools a = some ⟨c.pkt.job, (localise s (gaddrOf (fieldAt bs 0 8))).off, fieldAt bs 8 8⟩ ∧ ∀ b, b ≠ a → tfind t.pools b = tfind s.pools b)) ∧
      (RingRuns s cid 0x721 c →
        (∀ st n, resCreateBad s c bs = some (st, n) → ∃ t, exec (.resCreate cid) s = .next t ∧ Ended s t c st n) ∧
        (resCreateBad s c bs = none → NoHolds s c → ∀ o, o = objOf s c.pkt.job bs →
          ∃ t, exec (.resCreate cid) s = .next t ∧ Recorded s cid c Stg.none t ∧ ObjIs s t a o ∧ o.job = c.pkt.job ∧ o.t1 = noCopy ∧ o.t2 = noCopy))) ∧
    ∀ d t o r, d = c.aux.getD 0 0 → t = c.aux.getD 1 0 → (t = 1 ∨ t = 2) → findObj s d = some o → r = { Stg.none with aux := c.aux } →
      (NoHolds s c →
        (RingRuns s cid 0x724 c → (o.copy t).pins < 65535 →
          ∃ u, exec (.resPin cid) s = .next u ∧ Recorded s cid c r u ∧
            ObjIs s u d ((o.taken t).pinned t)) ∧
        (RingRuns s cid 0x725 c → 0 < (o.copy t).resPins →
          ∃ u, exec (.resUnpin cid) s = .next u ∧ Recorded s cid c r u ∧
            (¬ ((o.copy t).pins = 1 ∧ (o.copy t).pending = true ∧ (o.copy t).state = 2) → ObjIs s u d (o.unpinned t)) ∧
            ((o.copy t).pins = 1 → (o.copy t).pending = true → o.rests t →
              ((o.copy t).dirty = false → ObjIs s u d ((o.unpinned t).setCopy t noCopy)) ∧
              ((o.copy t).dirty = true → ∃ q b, ObjIs s u d ((o.unpinned t).leaving t q b) ∨
                ObjIs s u d ((o.unpinned t).setCopy t { (o.unpinned t).copy t with pending := false })))) ∧
        (RingRuns s cid 0x723 c → c.aux = [d, t] →
          ((o.copy t).state = 0 → ∃ u, exec (.resEvict cid) s = .next u ∧ Recorded s cid c r u ∧ ObjIs s u d o) ∧
          ((o.copy t).state = 1 ∨ (o.copy t).state = 2 → 0 < (o.copy t).pins →
            ∃ u, exec (.resEvict cid) s = .next u ∧ Recorded s cid c r u ∧ ObjIs s u d (o.setCopy t { o.copy t with pending := true })) ∧
          (o.rests t → (o.copy t).pins = 0 → (o.copy t).dirty = false →
            ∃ u, exec (.resEvict cid) s = .next u ∧ Recorded s cid c r u ∧ ObjIs s u d (o.setCopy t noCopy))) ∧
        (RingRuns s cid 0x723 c → c.aux = [d, t, 1] →
          ((o.copy t).state ≠ 3 → ∃ u, exec (.resEvict cid) s = .next u ∧ Recorded s cid c r u ∧ ObjIs s u d o) ∧
          (∀ w, (o.copy t).state = 3 → (o.copy t).wb = some w → w.staged = true → wbStop s o t = none →
            (wbPeer o t = none ∨ (cutFar (wbWrites s o t)).length ≤ w.acks) →
            ¬ ((o.removed t).t2.pins = 0 ∧ (o.removed t).t2.pending = true ∧ (o.removed t).t2.state = 2) →
            ∃ u, exec (.resEvict cid) s = .next u ∧ Recorded s cid c r u ∧ ObjIs s u d (o.removed t))) ∧
        (RingRuns s cid 0x726 c → o.t1.pins = 0 → o.t2.pins = 0 → o.t1.spare → o.t2.spare →
          ∃ u, exec (.resDestroy cid) s = .next u ∧ Recorded s cid c r u ∧ Beside s u ∧ findObj u d = none ∧ ∀ b, b ≠ d → findObj u b = findObj s b)) ∧
      (RingRuns s cid 0x724 c → 65535 ≤ (o.copy t).pins → ∃ u, exec (.resPin cid) s = .next u ∧ Ended s u c stBad (badAt 0xFF 0)) ∧
      (RingRuns s cid 0x725 c → (o.copy t).resPins = 0 → ∃ u, exec (.resUnpin cid) s = .next u ∧ Ended s u c stBad (badAt 0xFF 0)) ∧
      (RingRuns s cid 0x723 c → c.aux = [d, t] → o.rests t → (o.copy t).pins = 0 → (o.copy t).dirty = true →
        (wbStop s o t = none → ∃ u, exec (.resEvict cid) s = .next u ∧ findCmd u cid = some { c with aux := [d, t, 1] } ∧ ObjIs s u d (o.leavesIn s d t)) ∧
        (∀ st, wbStop s o t = some st → ∃ u, exec (.resEvict cid) s = .next u ∧ Ended s u c st 0)) ∧
      (RingRuns s cid 0x726 c →
        (¬ (o.t1.pins = 0 ∧ o.t2.pins = 0) → ∃ u, exec (.resDestroy cid) s = .next u ∧ StillRuns s u cid c) ∧
        ∀ g, g = (if o.t1.state = 0 then 2 else 1) → o.t1.pins = 0 → o.t2.pins = 0 → (o.copy g).state = 2 → (o.copy g).dirty = true →
          (wbStop s o g = none → ∃ u, exec (.resDestroy cid) s = .next u ∧ findCmd u cid = some c ∧ ObjIs s u d (o.leavesIn s d g)) ∧
          (∀ st, wbStop s o g = some st → ∃ u, exec (.resDestroy cid) s = .next u ∧ Ended s u c st 0)) ∧
      (RingRuns s cid 0x722 c → c.writes = [] → c.outs = [] →
        ((o.copy t).held = true →
          ∃ u z, exec (.resPromote cid) s = .next u ∧ findCmd u cid = some z ∧ z.phase = .committed ∧ z.commitAt = s.time ∧ Beside s u ∧
            (NoHolds s c → ObjIs s u d { o with stamp := s.time })) ∧
        (3 ≤ c.aux.length → (o.copy t).held = false → ∀ v p bs, v = seekPlace s d t (c.aux.getD 2 0) → findObj v d = some p → (p.copy t).state = 1 →
          (p.copy t).at_ ≠ noPlace → fetchObj v c p t = .bytes bs →
          ∃ u z, exec (.resPromote cid) s = .next u ∧ findCmd u cid = some z ∧ z.phase = .committed ∧ z.commitAt = s.time ∧ Beside s u ∧
            (NoHolds s c → (p.copy t).pending = false → ∃ q, findObj u d = some q ∧ (q.copy t).state = 2)))

-- prefetch ----------------------------------------------------------------------------------------------------------------

/-- R218, R221, R225, R227 to R230, R237, R306: PF_START activates a schedule at entry 0 of step 0, or is refused; PF_STOP and PF_RESUME change its state, and
PF_RESUME makes its promotions the resuming context's; PREFETCH_ISSUE passes one entry on, which is in flight until its promotion commits, and a copy that
is there arrives at once; without room in the pound the promotion waits; one that waited for space takes its place, and one that was killed runs again. -/
def Obligations.SchedulesPrefetch : Prop :=
  ∀ (s : State) (cid k : Nat) (c : Cmd),
    (RingRuns s cid 0x728 c → k = pfAddr s c.pkt →
      (∀ st n, pfStartBad s c (pfRead s c) = some (st, n) → ∃ t, exec (.pfStart cid) s = .next t ∧ Ended s t c st n) ∧
      (pfStartBad s c (pfRead s c) = none → ∀ p, pfRead s c = some p →
        ∃ t, exec (.pfStart cid) s = .next t ∧ Recorded s cid c Stg.none t ∧ PfIs s t k p ∧
          p.state = 1 ∧ p.cursor = 0 ∧ p.step = 0 ∧ p.stalled = 0 ∧ p.flying = [])) ∧
    (∀ p, tfind s.pfs k = some p →
      (k = pfAddr s c.pkt →
        (RingRuns s cid 0x729 c →
          ∃ t, exec (.pfStop cid) s = .next t ∧ Recorded s cid c Stg.none t ∧ PfIs s t k (if p.state = 1 then { p with state := 2 } else p)) ∧
        (RingRuns s cid 0x72A c →
          ∃ t, exec (.pfResume cid) s = .next t ∧ Recorded s cid c Stg.none t ∧
            PfIs s t k (if p.state = 2 ∨ p.state = 3 then { p with state := 1, ctx := ctxOf c } else p))) ∧
      (∀ x, p.entries[p.cursor]? = some x →
        (PfBlocked s p x → exec (.prefetchIssue k) s = .next s) ∧
        (¬ PfBlocked s p x → (∀ z ∈ s.cmds, z.id ≠ s.nextId) → ∀ o, findObj s x.object = some o → o.job = p.job → o.poolOf x.target ≠ 0 →
          ((o.copy x.target).held = true →
            ∃ t p', exec (.prefetchIssue k) s = .next t ∧ PfOnly s t k ∧ tfind t.pfs k = some p' ∧ Turned p p' ∧
              p'.flying = (p.flying ++ [(p.step, p.cursor)]).eraseP (fun y => y.2 == p.cursor) ∧ ∀ z ∈ t.cmds, z.id ≠ s.nextId) ∧
          ((o.copy x.target).held = false → (o.copy x.target).state = 1 ∨ resvTooBig s (promoNeed s o x.target) = false →
            ∃ t p', exec (.prefetchIssue k) s = .next t ∧ PfOnly s t k ∧ tfind t.pfs k = some p' ∧ Turned p p' ∧
              p'.flying = p.flying ++ [(p.step, p.cursor)] ∧ p'.stalled = p.stalled ∧
              ∃ z ∈ t.cmds, z.id = s.nextId ∧ z.origin = .promotion k p.cursor ∧
                ((o.copy x.target).state = 1 ∨ resvLacks s (promoNeed s o x.target) = false → z.phase = .running) ∧
                ((o.copy x.target).state ≠ 1 → resvLacks s (promoNeed s o x.target) = true → z.phase = .waiting)))) ∧
      (∀ e x d g o, findCmd s cid = some c → c.origin = .promotion k e → p.entries[e]? = some x → d = c.aux.getD 0 0 → g = c.aux.getD 1 0 →
        (c.phase = .running → Plain c → ∀ v, v = seekPlace s d g (c.aux.getD 2 0) →
          (findObj s d = some o ∧ (o.copy g).held = true ∨
            (∃ b, findObj s d = some b ∧ (b.copy g).held = false) ∧ 3 ≤ c.aux.length ∧ findObj v d = some o ∧ (o.copy g).state = 1 ∧ (o.copy g).at_ ≠ noPlace ∧
              ∃ bs, fetchObj v c o g = .bytes bs) →
            ∃ t p', exec (.promotionCommit cid) s = .next t ∧ PfOnly s t k ∧ tfind t.pfs k = some p' ∧
              { p' with stalled := p.stalled } = { p with flying := p.flying.eraseP (fun y => y.2 == e) } ∧ (∀ z ∈ t.cmds, z.id ≠ cid) ∧
              ((o.copy g).state = 1 → (o.copy g).pending = false → ∃ q, findObj t d = some q ∧ (q.copy g).state = 2)) ∧
        (c.phase = .running → 3 ≤ c.aux.length → findObj s d = some o → (o.copy g).state = 1 → (o.copy g).at_ = noPlace →
          earlierWaits s (o.poolOf g) (c.aux.getD 2 0) = false →
          (∀ y ∈ poolCopies s (o.poolOf g), ∀ q, findObj s y.2.2.1 = some q → q.t1.wb = none ∧ q.t2.wb = none) →
          ∀ a, poolSpace s o g = some a →
            ∃ t, exec (.promotionResume cid) s = .next t ∧ ObjIs s t d (o.setCopy g { o.copy g with at_ := a }) ∧ t.cmds = s.cmds) ∧
        (c.phase = .waiting → k ≠ 0 → promoHeld s k = false → findObj s x.object = some o → o.job = p.job → o.poolOf x.target ≠ 0 →
          ((o.copy x.target).held = true ∨ (o.copy x.target).state = 1 ∨
              resvTooBig s (promoNeed s o x.target) = false ∧ resvLacks s (promoNeed s o x.target) = false →
            ∃ t, exec (.promotionResume cid) s = .next t ∧ PfOnly s t k ∧ t.pfs = s.pfs ∧
              ∃ z, findCmd t cid = some z ∧ z.phase = .running ∧ z.runs = c.runs + 1 ∧ z.started = s.time) ∧
          ((o.copy x.target).held = false → (o.copy x.target).state ≠ 1 → resvTooBig s (promoNeed s o x.target) = false →
            resvLacks s (promoNeed s o x.target) = true → exec (.promotionResume cid) s = .next s)))) ∧
    ∀ e d o, findCmd s cid = some c → c.origin = .promotion 0 e → c.phase = .waiting → d = (descAddr (c.pkt.slot 0)).off → findObj s d = some o →
      o.job = c.pkt.job → o.poolT1 ≠ 0 → o.t1.state = 0 → resvTooBig s (promoNeed s o 1) = false → resvLacks s (promoNeed s o 1) = false →
      ∃ t z, exec (.promotionResume cid) s = .next t ∧ PfOnly s t 0 ∧ t.pfs = s.pfs ∧ findCmd t cid = some z ∧ z.phase = .running ∧ z.runs = c.runs + 1

-- locks -------------------------------------------------------------------------------------------------------------------

/-- R257, R283 to R287: LK_SIGNAL adds VALUE to its lock and saturates; LK_SET sets COUNT to VALUE once nothing else is claimed, and is eligible until then;
LK_READ answers COUNT after the command's own consumption and signal. A lock that is no longer the job's takes no signal, and is read as 0. -/
def Obligations.LockCommandsCount : Prop :=
  ∀ (s : State) (cid : Nat) (c : Cmd) (l : Nat), l = lkTarget c →
    (RingRuns s cid 0x801 c →
      ((∀ p q, signalTo s c.sess c.pkt.job l = .there p q → hasLink s c.sess c.pkt.job = true) →
        ∃ t z, exec (.lkSignal cid) s = .next t ∧ Recorded s cid c Stg.none t ∧ Beside s t ∧ findCmd t cid = some z ∧ z.toSend = laterSignals s c ∧
          (l < 0x4000 ∨ Still s → ∀ m, lockHere s c l = some m → (getLock t m).count =
            if (getLock s m).job = c.pkt.job then min (countAtCommit s c m + lkValue c) satMax
            else (getLock s m).count - (if c.pkt.waitLock = m then c.pkt.waitThresh else 0))) ∧
      (∀ p q, signalTo s c.sess c.pkt.job l = .there p q → hasLink s c.sess c.pkt.job = false → ∃ t, exec (.lkSignal cid) s = .next t ∧ Ended s t c stDenied 0)) ∧
    (RingRuns s cid 0x802 c → (getLock s l).job = c.pkt.job → ∀ own, own = (if c.claimed = true ∧ c.pkt.waitLock = l then c.pkt.waitThresh else 0) →
      ((getLock s l).claimed = own → (getLock s l).setters = [] →
        ∃ t z, exec (.lkSet cid) s = .next t ∧ findCmd t cid = some z ∧ z.phase = .committed ∧ z.commitAt = s.time ∧ Beside s t ∧
          (getLock t l).count = lkValue c ∧ (getLock t l).setPending = false ∧ (getLock t l).job = c.pkt.job) ∧
      ((getLock s l).claimed ≠ own ∨ (∃ x, (getLock s l).setters.head? = some x ∧ x ≠ cid) →
        ∃ t z, exec (.lkSet cid) s = .next t ∧ findCmd t cid = some z ∧ z.phase = .staged ∧ Beside s t ∧
          getLock t l = { getLock s l with setPending := true, setters := (getLock s l).setters ++ [cid] } ∧ ∀ k, k ≠ l → getLock t k = getLock s k)) ∧
    (RingRuns s cid 0x802 c → (getLock s l).job ≠ c.pkt.job →
      ∃ t z, exec (.lkSet cid) s = .next t ∧ findCmd t cid = some z ∧ z.phase = .committed ∧ z.commitAt = s.time ∧ Beside s t ∧
        (getLock t l).count = (getLock s l).count - (if c.pkt.waitLock = l then c.pkt.waitThresh else 0)) ∧
    (RingRuns s cid 0x803 c →
      ∃ t, exec (.lkRead cid) s = .next t ∧ Beside s t ∧
        Recorded s cid c { Stg.none with detail := if (getLock s l).job = c.pkt.job then countAtCommit s c l else 0 } t)

-- jobs --------------------------------------------------------------------------------------------------------------------

/-- R296 to R298: JOB_SUBMIT makes the job its descriptor gives active at epoch 1 and counts it; JOB_SUSPEND and JOB_RESUME change the job's state;
JOB_END waits for the job's other commands, or with KILL ends those that the job still has, and leaves nothing of the job. -/
def Obligations.JobsRunAndEnd : Prop :=
  ∀ (s : State) (cid : Nat) (c : Cmd),
    (RingRuns s cid 0xF01 c → NoHolds s c → ∀ j, jobOf (asRead s c) c (rdStruct (asRead s c) c (descAddr (c.pkt.slot 0)) 256) = .ok j →
      ∃ t, exec (.jobSubmit cid) s = .next t ∧ Recorded s cid c Stg.none t ∧
        Beside { s with jobs := s.jobs ++ [j], ctxs := s.ctxs ++ [⟨j.id, ctxOf c, [], []⟩], counts := t.counts } t ∧
        getCounts t c.sess = { getCounts s c.sess with submitted := (getCounts s c.sess).submitted + 1, running := (getCounts s c.sess).running + 1 } ∧
        j.id = c.pkt.job ∧ j.sess = c.sess ∧ j.st = .running ∧ j.epoch = 1 ∧ j.trapMade = false) ∧
    (RingRuns s cid 0xF01 c → ∀ e, jobOf (asRead s c) c (rdStruct (asRead s c) c (descAddr (c.pkt.slot 0)) 256) = .error e →
      ∃ t, exec (.jobSubmit cid) s = .next t ∧ Ended s t c e.1 e.2) ∧
    (∀ j, findJob s c.pkt.job = some j → j.st = .ending →
      (RingRuns s cid 0xF03 c → ∃ t, exec (.jobSuspend cid) s = .next t ∧ Ended s t c stBad (badAt 2 0xFF)) ∧
      (RingRuns s cid 0xF04 c → ∃ t, exec (.jobResume cid) s = .next t ∧ Ended s t c stBad (badAt 2 0xFF))) ∧
    (∀ j, findJob s c.pkt.job = some j → j.st ≠ .ending →
      (RingRuns s cid 0xF03 c →
        ∃ t, exec (.jobSuspend cid) s = .next t ∧ Recorded s cid c Stg.none t ∧
          Beside { s with jobs := s.jobs.map (fun x => if x.id = j.id ∧ (j.st = .running ∨ j.st = .trapped) then { x with st := .suspended (x.st == .trapped) } else x) } t) ∧
      (RingRuns s cid 0xF04 c →
        ∃ t, exec (.jobResume cid) s = .next t ∧ Recorded s cid c Stg.none t ∧
          Beside { s with jobs := s.jobs.map (fun x => if x.id = j.id then (match x.st with
            | .suspended tr => { x with st := if tr then .trapped else .running }
            | .trapped => { x with st := .running, trapMade := false }
            | _ => x) else x) } t)) ∧
    (Runs s cid 0xF02 c → ∀ j, findJob s c.pkt.job = some j →
      (jobCmds s c.pkt.job = [] → ∃ t, exec (.jobEnd cid) s = .next t ∧ JobGone s t j) ∧
      (bit (c.pkt.slot 0) 0 = true → ∃ t, exec (.jobEnd cid) s = .next t ∧
        JobGone (endAll s stKilled 0 (fun x => x.pkt.job == c.pkt.job && !(isJobEnd x))) t j) ∧
      (bit (c.pkt.slot 0) 0 = false → jobCmds s c.pkt.job ≠ [] → exec (.jobEnd cid) s = .next s))

-- locks, loans and buffers ------------------------------------------------------------------------------------------------

/-- R263, R264, R390, R391: LOCK_GRANT grants the free locks of its range at COUNT 0 and LOCK_RELEASE frees the job's; LOAN_GRANT puts a loan in force
under the lowest free number, which DETAIL gives, and LOAN_RETURN ends it once nothing staged lies in its range; HOSTBUF_REG and HOSTBUF_UNREG put a host buffer in force and take it
away once nothing names it. -/
def Obligations.LocksLoansAndBuffersAreGranted : Prop :=
  ∀ (s : State) (cid : Nat) (c : Cmd),
    (grantDenied s c = true →
      (RingRuns s cid 0xF06 c → ∃ t, exec (.lockGrant cid) s = .next t ∧ Ended s t c stDenied 0) ∧
      (RingRuns s cid 0xF07 c → ∃ t, exec (.lockRelease cid) s = .next t ∧ Ended s t c stDenied 0)) ∧
    (grantDenied s c = false → RingRuns s cid 0xF07 c → ¬ (∀ l ∈ grantRange c, (getLock s l).queue = [] ∧ (getLock s l).claimed = 0) →
      ∃ t, exec (.lockRelease cid) s = .next t ∧ Ended s t c stBad (badAt 24 0)) ∧
    (grantDenied s c = false →
      (RingRuns s cid 0xF06 c → ∃ t, exec (.lockGrant cid) s = .next t ∧ Recorded s cid c Stg.none t ∧ Beside s t ∧
        ∀ l, (l ∈ grantRange c ∧ (getLock s l).job = 0xFFFF → (getLock t l).job = grantJob c ∧ (getLock t l).count = 0 ∧ (getLock t l).setPending = false) ∧
          (¬ (l ∈ grantRange c ∧ (getLock s l).job = 0xFFFF) → (getLock t l).job = (getLock s l).job)) ∧
      (RingRuns s cid 0xF07 c → (∀ l ∈ grantRange c, (getLock s l).queue = [] ∧ (getLock s l).claimed = 0) →
        ∃ t, exec (.lockRelease cid) s = .next t ∧ Recorded s cid c Stg.none t ∧ Beside s t ∧
        ∀ l, (l ∈ grantRange c ∧ (getLock s l).job = grantJob c → (getLock t l).job = 0xFFFF ∧ (getLock t l).count = 0 ∧ (getLock t l).setPending = false) ∧
          (¬ (l ∈ grantRange c ∧ (getLock s l).job = grantJob c) → (getLock t l).job = (getLock s l).job))) ∧
    (RingRuns s cid 0xF08 c → hasLink s c.sess (loanJob c) = true → loanCuts s (localise s (descAddr (c.pkt.slot 0))).off (loanSize c.pkt) = false →
      ∀ n, freeLoan s = some n →
        ∃ t l, exec (.loanGrant cid) s = .next t ∧ Recorded s cid c { Stg.none with detail := n } t ∧ Beside { s with loans := tput s.loans n l } t ∧
          tfind s.loans n = none ∧ l.base = (localise s (descAddr (c.pkt.slot 0))).off ∧ l.size = loanSize c.pkt ∧ l.peer = loanPeer c ∧ l.job = loanJob c ∧
          l.sess = c.sess ∧ l.ending = false ∧ (c.pkt.slot 2 = 0 → l.readers = [])) ∧
    (RingRuns s cid 0xF08 c → hasLink s c.sess (loanJob c) = false ∨ loanCuts s (localise s (descAddr (c.pkt.slot 0))).off (loanSize c.pkt) = true ∨ freeLoan s = none →
      ∃ t, exec (.loanGrant cid) s = .next t ∧ Ended s t c stDenied 0) ∧
    (RingRuns s cid 0xF09 c → ∀ l, tfind s.loans (c.pkt.slot 0 % 256) = some l → l.sess = c.sess →
      (loanStaged s l = false → ∃ t, exec (.loanReturn cid) s = .next t ∧ Recorded s cid c Stg.none t ∧ Beside { s with loans := tdel s.loans (c.pkt.slot 0 % 256) } t) ∧
      (loanStaged s l = true → ∃ t, exec (.loanReturn cid) s = .next t ∧ StillRuns s t cid c)) ∧
    (RingRuns s cid 0xF0A c → bufFault s c.sess (descAddr (c.pkt.slot 0)).off (fld (c.pkt.slot 1) 0 32) (bit (c.pkt.slot 1) 32) = none →
      ∃ t, exec (.hostbufReg cid) s = .next t ∧ Recorded s cid c Stg.none t ∧
        Beside { s with bufs := s.bufs ++ [⟨c.sess, (descAddr (c.pkt.slot 0)).off, fld (c.pkt.slot 1) 0 32, bit (c.pkt.slot 1) 32, c.pkt.job, ctxOf c, none⟩] } t) ∧
    (RingRuns s cid 0xF0A c → ∀ st, bufFault s c.sess (descAddr (c.pkt.slot 0)).off (fld (c.pkt.slot 1) 0 32) (bit (c.pkt.slot 1) 32) = some st →
      ∃ t, exec (.hostbufReg cid) s = .next t ∧ Ended s t c st (if st = stBad then badAt 24 0 else 0)) ∧
    (RingRuns s cid 0xF0B c → ∀ b, unregBuf s c = some b →
      (bufInUse s c b = true → ∃ t, exec (.hostbufUnreg cid) s = .next t ∧ StillRuns s t cid c) ∧
      (bufInUse s c b = false → ∃ t, exec (.hostbufUnreg cid) s = .next t ∧ Recorded s cid c Stg.none t ∧ b ∉ t.bufs ∧
        (∀ x ∈ s.bufs, x ≠ b → x.forRing = none → x ∈ t.bufs) ∧ t.jobs = s.jobs ∧ t.sessions = s.sessions ∧ t.loans = s.loans ∧ t.cfg = s.cfg))

-- the CXL link and the test access port -----------------------------------------------------------------------------------

/-- R520 to R524: each row of the test access port loads its instruction, in every state but OFF. The five that drive pins do so only while MOD_RESET_N is
low and act as SAMPLE/PRELOAD at any other time; those of the boundary register shift out what its cells captured and take in what stands at TDI (log 130: one
scan for each row is the model's choice); Test-Logic-Reset makes IDCODE current; while debug is locked the debug instructions behave as BYPASS. -/
def Obligations.TapLoadsItsInstructions : Prop :=
  ∀ s : State,
    (s.power.off = false →
      (∀ i code scan u, scanRow i = some (code, scan) →
        u = TapHolds s code [if code ≠ 0x01 ∧ code ≠ 0xFF then (if s.power.resetN = true then .tap 0x01 false else .tap code true) else .tap code false] →
        (scan = false → exec i s = .next u) ∧
        (scan = true → ∃ t, exec i s = .next t ∧ Scanned u t)) ∧
      exec .idcode s = .next (TapHolds s 0x02 [.tap 0x02 false, .reg (2 ^ 28 + 0x7A08 * 2 ^ 12 + Config.jep106 % 2 ^ 11 * 2 + 1)]) ∧
      exec .trstN s = .next (TapHolds s 0x02 []) ∧ exec .testLogicReset s = .next (TapHolds s 0x02 []) ∧
      (s.trust.dbgBy = none →
        (∀ d, exec (.dbgSelect d) s = .next (TapHolds s 0x40 [.tap 0xFF false])) ∧ exec .dbgAccess s = .next (TapHolds s 0x41 [.tap 0xFF false])) ∧
      (s.trust.dbgBy ≠ none → ∀ d, d < 10 →
        exec (.dbgSelect d) s = .next { s with tap := { s.tap with ir := 0x40, live := true, die := d }, answers := s.answers ++ [.tap 0x40 false] })) ∧
    (s.power.off = true → s.power.phase ≠ 9 → ∀ i, (∃ x, scanRow i = some x) ∨ i = .idcode ∨ i = .trstN ∨ i = .testLogicReset → exec i s = .next s)

/-- R376, R377, R385, R389, R393, R424: a snoop misses; SPDM requests are signed with IK_RSA and answered with MR0 to MR7; configuration requests are retried until
the record is verified; HDM_DECODER_COMMIT takes an interleave of 1 way alone; a link up of a legal width and rate carries its IDE state and
awaits the host's decoder. Nothing else changes but what a source's firing moves. -/
def Obligations.CxlLinkServesTheHost : Prop :=
  ∀ s : State,
    (s.power.linkUp = true →
      (∀ a, exec (.snoop a) s = .next { s with answers := s.answers ++ [.snoopMiss a] }) ∧
      (s.power.cfgDone = false → ∀ off w, exec (.configRequest off w) s = .next { s with answers := s.answers ++ [.config true 0] }) ∧
      (s.power.cfgDone = true →
        exec (.configRequest 0 none) s = .next { s with answers := s.answers ++ [.config false (Config.configSpace 0 % 65536 + 0x7A08 * 65536)] } ∧
        exec (.configRequest 8 none) s = .next { s with answers := s.answers ++ [.config false 0x12000010] } ∧
        (∀ off v, ∃ x, exec (.configRequest off v) s = .next { s with answers := s.answers ++ [.config false x] }) ∧
        (∀ ways hpa, exec (.hdmDecoderCommit ways hpa) s = .next { s with cxl := { s.cxl with
          decWays := ways, decHpa := if ways = 1 then some hpa else none, decError := ways != 1 } }) ∧
        (s.trust.rsaOk = true → ∀ req, exec (.spdmRequest req) s =
          .next { s with answers := s.answers ++ [.spdm (Config.signRsa (req ++ s.trust.mrs.flatten)) s.trust.mrs] }))) ∧
    (s.power.off = false ∧ s.power.linkUp = false → ∀ width rate ide, width = 4 ∨ width = 8 ∨ width = 16 → rate = 16 ∨ rate = 32 ∨ rate = 64 →
      ∃ t, exec (.cxlLinkUp width rate ide) s = .next t ∧ Meters { s with power := { s.power with linkUp := true }, cxl := { s.cxl with
        width := width, rate := rate, ide := ide, memActive := ready s, decWays := 0, decHpa := none, decError := false } } t) ∧
    (s.power.linkUp = false → (∀ a, exec (.snoop a) s = .next s) ∧ (∀ req, exec (.spdmRequest req) s = .next s) ∧
      (∀ off w, exec (.configRequest off w) s = .next s) ∧ (∀ cause, exec (.cxlLinkDown cause) s = .next s))

/-- R386, R388: a read of the window returns the bytes of memory under the key of the aperture's job, and poison where the aperture is unbound, a unit read is
poisoned or the module is not READY; a write is applied before its completion, or dropped with HDM_DENIED where the aperture is unbound. -/
def Obligations.WindowReadsAndWritesHbm : Prop :=
  ∀ (s : State) (off : Nat),
    (∀ len, windowHit s off len = true →
      (windowKey s off len = none ∨ ready s = false ∨ (poisonedIn s (s.cfg.hdmBase + off) len).isSome = true →
        exec (.hdmRead off len) s = .next { s with answers := s.answers ++ [.hdm true []] }) ∧
      (ready s = true → poisonedIn s (s.cfg.hdmBase + off) len = none → ∀ key, windowKey s off len = some key →
        ∃ t, exec (.hdmRead off len) s = .next t ∧ Meters { s with answers := s.answers ++ [.hdm false (rdKey s key (s.cfg.hdmBase + off) len)] } t)) ∧
    (∀ data : List Byte, windowHit s off data.length = true → ready s = true →
      (windowKey s off data.length = none →
        ∃ t, exec (.hdmWrite off data) s = .next t ∧ Told s t ∧ (Still s → t.mem = s.mem)) ∧
      (∀ key, windowKey s off data.length = some key →
        ∃ t, exec (.hdmWrite off data) s = .next t ∧ Meters { s with mem := t.mem, keys := t.keys, poison := t.poison } t ∧
          memRead t.mem (s.cfg.hdmBase + off) data.length = data ∧
          (∀ a, a < s.cfg.hdmBase + off ∨ s.cfg.hdmBase + off + data.length ≤ a → memByte t.mem a = memByte s.mem a)))

/-- R393, R394: when the link goes down every open session ends and its slot is free; the decoder, the apertures and the privileged session are gone;
device time, dies and the power state otherwise stay. -/
def Obligations.LinkDownEndsTheSessions : Prop :=
  ∀ (s : State) (cause : LinkCause), s.power.linkUp = true →
    ∃ t, exec (.cxlLinkDown cause) s = .next t ∧ t.time = s.time ∧ t.power.kept = { s.power.kept with linkUp := false } ∧
      (∀ d, (getDie t d).kept = (getDie s d).kept) ∧ (∀ i, i < 64 → (getSes t i).st = .free) ∧
      t.cxl.apertures = [] ∧ t.cxl.privBy = none ∧ t.cxl.decHpa = none ∧ t.cxl.decError = false ∧ t.cxl.ide = false ∧ t.cxl.memActive = false

-- Towpath ports -----------------------------------------------------------------------------------------------------------

/-- R333 to R335, R371: a flit with a good CRC and the expected sequence number is taken and counted; any other is discarded and answered with a NAK of the expected
number. A flit with a good CRC acknowledges what the port sent, and what waits is offered again; a port whose link does not work takes none. Nothing but traffic changes
elsewhere, whatever the flit. -/
def Obligations.PortsTakeFlitsInOrder : Prop :=
  ∀ (s : State) (p : Nat) (f : Flit),
    (∃ t, exec (.flitReceive p f) s = .next t ∧ Carried { s with ports := t.ports } t ∧ ∀ q, q ≠ p → (getPort t q).kept = (getPort s q).kept) ∧
    (portLinked (getPort s p) = true → f.crc ≠ crc32 (flitBytes f) →
      exec (.flitReceive p f) s = .next (setPort { s with answers := s.answers ++
        [.flit p 1 ([(getPort s p).lastGood] ++ (getPort s p).freedRx ++ [(getPort s p).expect])] } p
        { getPort s p with crcErr := ((getPort s p).crcErr + 1) % 2 ^ 48 })) ∧
    (portLinked (getPort s p) = true → f.crc = crc32 (flitBytes f) → f.kind ≠ 0 ∨ f.seq ≠ (getPort s p).expect →
      (∃ t, exec (.flitReceive p f) s = .next t ∧ Carried s t) ∧
      (s.held = [] → s.transit = [] → exec (.flitReceive p f) s = .next (setPort { s with
        answers := s.answers ++ if f.kind ≠ 0 then [] else [.flit p 1 ([(getPort s p).lastGood] ++ (getPort s p).freedRx ++ [(getPort s p).expect])] } p
        (ackFlits (getPort s p) f.ack)))) ∧
    (portLinked (getPort s p) = true → f.crc = crc32 (flitBytes f) → f.kind = 0 → f.seq = (getPort s p).expect →
      ∃ t, exec (.flitReceive p f) s = .next t ∧ Carried { s with ports := t.ports } t ∧
        (∀ q, q ≠ p → (getPort t q).kept = (getPort s q).kept) ∧
        (s.held = [] → s.transit = [] → (getPort t p).replay = (ackFlits (getPort s p) f.ack).replay ∧ (getPort t p).sigs = (ackFlits (getPort s p) f.ack).sigs) ∧
        (getPort t p).expect = (f.seq + 1) % 4096 ∧ (getPort t p).lastGood = f.seq ∧ (getPort t p).rxFlits = ((getPort s p).rxFlits + 1) % 2 ^ 48 ∧
        (getPort t p).freedRx = (getPort s p).freedRx.set f.tc (((getPort s p).freedRx.getD f.tc 0 + 1) % 2 ^ 32) ∧
        (getPort t p).state = (getPort s p).state ∧ (getPort t p).crcErr = (getPort s p).crcErr) ∧
    (portLinked (getPort s p) = false → exec (.flitReceive p f) s = .next s)

/-- R334 to R336, R343: a control flit's freed counts return credits and its NAK counts a replay; a port sends one with its ACK and freed counts; a port measures its
channel delay by a message to its far peer. -/
def Obligations.ControlFlitsReturnCredits : Prop :=
  ∀ (s : State) (p : Nat),
    (portLinked (getPort s p) = true →
      (∀ ack (cr : CreditRec), cr.nak = none → (∀ x ∈ (getPort s p).replay, x.2.2 < 8) →
        ∃ t, exec (.controlFlit p ack cr) s = .next t ∧
          PortIs s t p { getPort s p with freedTx := (getPort t p).freedTx } ∧
          ∀ tc, tc < 8 → (getPort s p).freedTx.length = 8 → (getPort t p).freedTx.getD tc 0 = cr.freed.getD tc 0 % 2 ^ 32) ∧
      (∀ ack q (cr : CreditRec), cr.nak = some q → (∀ x ∈ (getPort s p).replay, x.2.2 < 7) →
        ∃ t, exec (.controlFlit p ack cr) s = .next t ∧
          PortIs s t p { getPort s p with freedTx := (getPort t p).freedTx, retry := ((getPort s p).retry + 1) % 2 ^ 48 }) ∧
      exec (.controlFlitTimer p) s = .next { s with answers := s.answers ++ [.flit p 1 ([(getPort s p).lastGood] ++ (getPort s p).freedRx)] } ∧
      (portUp (getPort s p) = true → (getPort s p).farValid = true → s.power.phase ≠ 0xF →
        ∃ t, exec (.pdelayTimer p) s = .next t ∧ Carried s t ∧
          Posted s t (fun m => m.dst = (getPort s p).farPeer ∧ m.typ = mtPdelay ∧ m.tc = 7 ∧ m.job = 0 ∧ m.body = [p]))) ∧
    (portUp (getPort s p) = false ∨ (getPort s p).farValid = false → exec (.pdelayTimer p) s = .next s) ∧
    (portLinked (getPort s p) = false → exec (.controlFlitTimer p) s = .next s ∧
      ∀ ack cr, exec (.controlFlit p ack cr) s = .next s)

/-- R332, R371, R372, R505: a write of PORT_CTRL disables a port, or trains one that it enables; a valid PORT_CREDIT is held for the next training; a failed lane
leaves a 2-lane port where CTRL allows it, or none; a port that is down and enabled retrains; at READY training ends with the port up at 4 lanes, at 2, or
down. -/
def Obligations.PortsTrainFailAndRetrain : Prop :=
  ∀ (s : State) (p : Nat),
    (∀ v, (bit (getPort s p).ctrl 0 = bit v 0 → exec (.portCtrl p v) s = .next (setPort s p { getPort s p with ctrl := fld v 0 2 })) ∧
      (bit (getPort s p).ctrl 0 = true → bit v 0 = false → ∃ t, exec (.portCtrl p v) s = .next t ∧ { t with ports := s.ports } = s ∧
        (∀ q, q ≠ p → getPort t q = getPort s q) ∧ getPort t p = { (getPort s p).unlinked with ctrl := fld v 0 2, state := 0, laneOk := 0 }) ∧
      (bit (getPort s p).ctrl 0 = false → bit v 0 = true → ∃ t, exec (.portCtrl p v) s = .next t ∧ { t with ports := s.ports } = s ∧
        (∀ q, q ≠ p → getPort t q = getPort s q) ∧
        getPort t p = { (getPort s p).unlinked with ctrl := fld v 0 2, state := 1, laneOk := 0, trainFrom := s.time })) ∧
    (∀ v, (creditOk v = true → exec (.portCredit p v) s = .next (setPort s p { getPort s p with credit := v % 2 ^ 64 })) ∧
      (creditOk v = false → ∃ t, exec (.portCredit p v) s = .next t ∧ t.ports = s.ports ∧ Beside s t)) ∧
    ((getPort s p).state = 0 → bit (getPort s p).ctrl 0 = true → s.power.phase = 6 ∨ s.power.phase = 7 →
      exec (.portRetrain p) s = .next (setPort s p { (getPort s p).unlinked with state := 1, laneOk := 0, trainFrom := s.time })) ∧
    (∀ lane, portUp (getPort s p) = true → bit (getPort s p).laneOk lane = true →
      ∃ t, exec (.laneFailure p lane) s = .next t ∧ Carried { s with ports := t.ports } t ∧ (∀ q, q ≠ p → (getPort t q).kept = (getPort s q).kept) ∧
        ((getPort t p).laneOk = setBit (getPort s p).laneOk lane false) ∧
        (getPort t p).state = (if bit (getPort s p).ctrl 1 = true ∧
          (pairOk (setBit (getPort s p).laneOk lane false) 0 || pairOk (setBit (getPort s p).laneOk lane false) 1) = true then 3 else 0)) ∧
    ((getPort s p).state = 1 → s.power.phase = 7 → (∀ r ∈ s.testing, r.unit ≠ .port p) → ∀ lanes far,
      ∃ t, exec (.portTrainingDone p lanes far) s = .next t ∧
        PortIs s t p { (getPort s p).unlinked with
          state := (getPort t p).state, laneOk := lanes % 16, farValid := (getPort t p).state != 0,
          farPeer := if (getPort t p).state = 0 then (getPort s p).farPeer else far, creditUse := (getPort s p).credit } ∧
        (lanes % 16 = 15 → (getPort t p).state = 2) ∧
        (lanes % 16 ≠ 15 → bit (getPort s p).ctrl 1 = true ∧ (pairOk lanes 0 || pairOk lanes 1) = true → (getPort t p).state = 3) ∧
        (lanes % 16 ≠ 15 → ¬ (bit (getPort s p).ctrl 1 = true ∧ (pairOk lanes 0 || pairOk lanes 1) = true) → (getPort t p).state = 0))

/-- R339: a message for another peer leaves by a port of its route that takes it, or waits, with HOPS one less; at HOPS 0 it is discarded with ROUTE_LOOP. -/
def Obligations.TransitMessagesLoseAHop : Prop :=
  ∀ (s : State) (p : Nat) (m : MsgHdr), m.dst ≠ s.cfg.peerId → s.power.phase ≠ 0xF →
    (m.hops ≠ 0 → ∃ t, exec (.messageForward p m) s = .next t ∧ Carried s t ∧
      (t.transit = s.transit ++ [{ m with hops := m.hops - 1 }] ∧ t.answers = s.answers ∨
        ∃ q, q < 36 ∧ bit (routeMask s m.dst) q = true ∧ portUp (getPort s q) = true ∧ t.transit = s.transit ∧
          t.answers = s.answers ++ [.forward q { m with hops := m.hops - 1 }])) ∧
    (m.hops = 0 → ∃ t, exec (.messageForward p m) s = .next t ∧ t.transit = s.transit ∧ t.answers = s.answers ∧
      (getPort t p).drop = ((getPort s p).drop + 1) % 2 ^ 48 ∧ bit (getPort t p).event 4 = true ∧
      (∀ q, q ≠ p → getPort t q = getPort s q) ∧ Carried { s with ports := t.ports } t)

-- messages of other peers -------------------------------------------------------------------------------------------------

/-- R338, R346, R353, R354: every message is checked before it acts. A message in the wrong class, or of another type, counts as a drop of the port that it came by; one from a lost
peer, or of a peer in conflict for a job, does nothing; one that fails authentication or the replay window acts on nothing and is answered with AUTH_NAK. -/
def Obligations.MessagesAreCheckedFirst : Prop :=
  ∀ (i : Instr) (typ : Nat) (m : MsgHdr) (s : State), messageRow i = some (typ, m) →
    (m.dst ≠ s.cfg.peerId ∨ s.power.phase = 0xF ∨ s.power.off = true → exec i s = .next s) ∧
    (m.dst = s.cfg.peerId → s.power.phase ≠ 0xF → s.power.off = false →
      (m.typ ≠ typ ∨ typeOk typ m.tc = false →
        ∃ t, exec i s = .next t ∧ { t with ports := s.ports } = s ∧ ∀ p, { getPort t p with drop := (getPort s p).drop } = getPort s p) ∧
      (m.typ = typ → typeOk typ m.tc = true → typ ≠ mtHello → s.domain.lost.contains m.src = true → exec i s = .next s) ∧
      (m.typ = typ → typeOk typ m.tc = true → typ ≠ mtHello → s.domain.lost.contains m.src = false → m.job ≠ 0 →
        s.domain.conflicts.contains m.src = true → exec i s = .next s) ∧
      (m.typ = typ → typeOk typ m.tc = true → typ ≠ mtHello → s.domain.lost.contains m.src = false →
        m.job = 0 ∨ s.domain.conflicts.contains m.src = false →
        m.tagOk = false ∨ hasKey s m.job = false ∨ windowOk (aget LinkRx.rest s.domain.rx (m.src, m.job)) m.gen m.count = none →
        ∃ t, exec i s = .next t ∧ Carried { s with ports := t.ports } t ∧
          Posted s t (fun x => x.dst = m.src ∧ x.typ = mtAuthNak ∧ x.tc = 7 ∧ x.job = m.job ∧ x.seq = m.seq ∧ x.runs = m.runs)))

/-- R346 to R350, R354: a message that arrives marks its sender heard; PDELAY sets the port's channel delay; HELLO takes its sender out of the lost peers and, at the
keeper, into the members, and one with the module's own id is reported as a conflict; ANNOUNCE with another list puts the module outside,
and with its own list makes the earlier candidate the keeper followed. -/
def Obligations.DomainMessagesAct : Prop :=
  ∀ (s : State) (m : MsgHdr),
    (Arrives s mtHeartbeat m → ∃ t, exec (.heartbeat m) s = .next t ∧ Heard s t m) ∧
    (Arrives s mtPdelay m → ∀ p d, ∃ u, Heard s u m ∧ exec (.pdelay m p d) s = .next (setPort u p { getPort u p with chDelay := d })) ∧
    (Arrives s mtHello m → ∀ p,
      (m.src = s.cfg.peerId → ∃ t, exec (.hello m p) s = .next t ∧ m.src ∈ t.domain.conflicts ∧ Told { s with domain := t.domain } t) ∧
      (m.src ≠ s.cfg.peerId → ∃ u t, Heard s u m ∧ exec (.hello m p) s = .next t ∧ t.domain.lost = without s.domain.lost m.src ∧
        (s.domain.isKeeper = true ∧ s.domain.outside = false → t.domain.members = tput s.domain.members m.src 1 ∧
          Carried { u with domain := { u.domain with lost := t.domain.lost, members := t.domain.members } } t) ∧
        (¬ (s.domain.isKeeper = true ∧ s.domain.outside = false) → t = { u with domain := { u.domain with lost := t.domain.lost } }))) ∧
    (Arrives s mtAnnounce m → ∀ crc,
      (crc ≠ listCrcOf s → ∃ u t, Heard s u m ∧ exec (.announce m crc) s = .next t ∧ Told { u with domain := { u.domain with outside := true } } t) ∧
      (crc = listCrcOf s → ∃ u t, Heard s u m ∧ exec (.announce m crc) s = .next t ∧
        Told { u with domain := { u.domain with outside := false, heardKeeper := t.domain.heardKeeper, keeper := t.domain.keeper, isKeeper := t.domain.isKeeper } } t ∧
        m.src ∈ t.domain.heardKeeper ∧
        (s.domain.keeper = none → t.domain.keeper = some (m.src, posOf s m.src)) ∧
        (∀ k n, s.domain.keeper = some (k, n) →
          (k = m.src → t.domain.keeper = s.domain.keeper ∧ t.domain.isKeeper = s.domain.isKeeper) ∧
          (k ≠ m.src → t.domain.keeper = (if earlier s m.src k = true then some (m.src, posOf s m.src) else some (k, posOf s k))))))

/-- R350, R351: TIME of the followed keeper moves device time forward to the keeper's time and the channel delay, in one step until the time is locked and by at most
100 ppm after, and never back; without TIME for 500 µs the time is unlocked; the keeper sends its time. -/
def Obligations.DeviceTimeFollowsTheKeeper : Prop :=
  ∀ s : State,
    (∀ (m : MsgHdr) (p now hops : Nat) (n : Nat), Arrives s mtTime m → s.domain.keeper = some (m.src, n) → s.domain.isKeeper = false →
      s.domain.outside = false → s.power.phase = 7 →
      ∃ u t, Heard s u m ∧ exec (.time m p now hops) s = .next t ∧ Meters { u with time := t.time, domain := t.domain } t ∧ s.time ≤ t.time ∧
        t.domain.locked = true ∧ t.domain.hops = hops ∧ t.domain.lastTime = t.time ∧ t.domain.keeper = s.domain.keeper ∧
        t.domain.offset = ((now + (getPort s p).chDelay : Nat) : Int) - (s.time : Int) ∧
        (s.domain.locked = false → s.time < now + (getPort s p).chDelay → t.time = now + (getPort s p).chDelay) ∧
        (s.domain.locked = true → s.time < now + (getPort s p).chDelay →
          t.time = min (now + (getPort s p).chDelay) (s.time + (s.time - s.domain.lastTime) / 10000)) ∧
        (now + (getPort s p).chDelay ≤ s.time → t.time = s.time)) ∧
    (s.domain.locked = true → ∃ t, exec .timeUnlocked s = .next t ∧ t.time = max s.time (s.domain.lastTime + 500000) ∧
      t.domain = { s.domain with locked := false, slewing := false } ∧ Told { s with time := t.time, domain := t.domain } t) ∧
    (s.domain.locked = false → exec .timeUnlocked s = .next s) ∧
    (s.domain.isKeeper = true → s.power.phase = 7 →
      (∃ t, exec .timeTimer s = .next t ∧ Carried s t ∧ (audience s = [] → t = s) ∧
        ∀ p ∈ audience s, ∃ x, (x ∈ t.sent ∨ x ∈ t.held) ∧ x.dst = p ∧ x.typ = mtTime ∧ x.tc = 7 ∧ x.body = [s.time, 0]) ∧
      (∃ t, exec .announceTimer s = .next t ∧ Carried s t ∧
        ∀ p ∈ audience s, ∃ x, (x ∈ t.sent ∨ x ∈ t.held) ∧ x.dst = p ∧ x.typ = mtAnnounce ∧ x.tc = 7 ∧ x.body = [listCrcOf s])) ∧
    (s.domain.isKeeper = false → exec .timeTimer s = .next s ∧ exec .announceTimer s = .next s) ∧
    (s.power.phase = 7 → ∃ t, exec .heartbeatTimer s = .next t ∧ Carried s t ∧
      ∀ p ∈ partners s, (s.domain.lastSent.all (fun e => e.1 != p)) = true →
        ∃ x, (x ∈ t.sent ∨ x ∈ t.held) ∧ x.dst = p ∧ x.typ = mtHeartbeat ∧ x.tc = 7)

/-- R349, R354, R355: a peer not heard for 50 ms is declared lost: what it lent and staged here is gone, and neither jobs, sessions, dies nor the
configuration change. The keeper's LOST has the keeper mark the peer; the keeper's table marks the members. -/
def Obligations.LostPeersLeaveTheDomain : Prop :=
  ∀ s : State,
    (∀ p, s.power.phase = 7 → p ≠ s.cfg.peerId → s.domain.lost.contains p = false →
      ∃ t, exec (.peerLost p) s = .next t ∧ p ∈ t.domain.lost ∧ t.time = max s.time (aget 0 s.domain.lastHeard p + 50000000) ∧
        t.loans = s.loans.filter (fun l => !(l.2.peer == p)) ∧ t.remoteSt = s.remoteSt.filter (fun r => !(r.peer == p)) ∧
        t.jobs = s.jobs ∧ t.sessions = s.sessions ∧ t.cfg = s.cfg ∧ (∀ d, (getDie t d).kept = (getDie s d).kept) ∧
        (∀ n, s.domain.keeper = some (p, n) → ∀ k, t.domain.keeper = some k → k.1 ≠ p)) ∧
    (∀ (m : MsgHdr) (p : Nat), Arrives s mtLost m → p ≠ s.cfg.peerId → s.domain.lost.contains p = false →
      (s.domain.isKeeper = false → ∃ u, Heard s u m ∧ exec (.lost m p) s = .next u) ∧
      (s.domain.isKeeper = true → ∃ t, exec (.lost m p) s = .next t ∧ p ∈ t.domain.lost ∧
        t.loans = s.loans.filter (fun l => !(l.2.peer == p)) ∧ t.remoteSt = s.remoteSt.filter (fun r => !(r.peer == p)) ∧
        t.time = s.time ∧ t.jobs = s.jobs ∧ t.sessions = s.sessions ∧ t.cfg = s.cfg)) ∧
    (∀ (m : MsgHdr) (table : List (Nat × Nat)) (n : Nat), Arrives s mtMember m → s.domain.keeper = some (m.src, n) → s.domain.outside = false →
      (∀ e ∈ table, e.2 ≠ 2) →
      ∃ u, Heard s u m ∧ exec (.member m table) s = .next { u with domain := { u.domain with
        members := table.foldl (fun t e => tset 0 t e.1 e.2) [],
        lost := s.domain.lost.filter (fun p => !(((table.filter (fun e => e.2 == 1 && tget 0 s.domain.members e.1 == 2)).map Prod.fst).contains p)) } })

-- staged modes ------------------------------------------------------------------------------------------------------------

/-- R313 to R318: MODE_STAGE stores its block as a staged change; where the job runs on this module alone it is applied 1 µs after, and a job on other modules is coordinated by the
keeper. A unit holds starts from 0.5 µs after its ACK; without every ACK at 10 ms, or without OPEN or DISCARD for 20 ms, the change is
dropped; at T_apply it is in force in its job at once. -/
def Obligations.ModeChangesAreStagedAndApplied : Prop :=
  ∀ s : State,
    (∀ cid c b, RingRuns s cid 0xF10 c → modeBlk (findJob s c.pkt.job) (rdStruct (asRead s c) c (descAddr (c.pkt.slot 0)) 64) = some b →
      ∃ t z g, exec (.modeStage cid) s = .next t ∧ Carried { s with cmds := t.cmds, changes := t.changes } t ∧
        findCmd t cid = some z ∧ z.phase = .staged ∧ z.pkt = c.pkt ∧ findChange t (changeId b.scope c.pkt.job b.epoch) = some g ∧
        g.scope = b.scope ∧ g.epoch = b.epoch ∧ g.barrier = b.barrier ∧ g.items = b.items ∧ g.cmd = some cid ∧
        (b.scope = 0 → g.job = c.pkt.job) ∧
        ((∀ j, findJob s c.pkt.job = some j → j.peers = []) → g.remote = none ∧ g.tApply = some (s.time + 1000)) ∧
        (∀ j, findJob s c.pkt.job = some j → j.peers ≠ [] → b.scope = 0 → s.domain.isKeeper = false → s.power.phase = 7 → ∀ k n,
          s.domain.keeper = some (k, n) → g.remote = some k ∧ g.tApply = none ∧ Posted s t (fun x => x.dst = k ∧ x.typ = mtStage ∧ x.body = stageBody g))) ∧
    (∀ g, findChange s g.id = some g → g.id < 2 ^ 32 → g.scope = 0 →
      (g.unacked ≠ [] → g.remote = none → g.tApply = none →
        ∃ t, exec (.modeAckTimeout g.id) s = .next t ∧ Dropped s t g (max s.time (g.t0 + 10000000))) ∧
      (g.remote ≠ none → g.tApply = none →
        ∃ t, exec (.stagedModeExpiry g.id) s = .next t ∧ Dropped s t g (max s.time ((if g.acked = true then g.ackAt else g.t0) + 20000000))) ∧
      (g.acked = true → g.tApply = none →
        ∃ t, exec (.modeStartHold g.id) s = .next t ∧ t.time = max s.time (g.ackAt + 500) ∧ findChange t g.id = some { g with holding := true } ∧
          Meters { s with time := t.time, changes := t.changes } t) ∧
      (∀ a, g.tApply = some a → ∃ t, exec (.modeApply g.id) s = .next t ∧ InForce s t g (max s.time a))) ∧
    (∀ n, findChange s n = none →
      exec (.modeAckTimeout n) s = .next s ∧ exec (.stagedModeExpiry n) s = .next s ∧ exec (.modeStartHold n) s = .next s ∧ exec (.modeApply n) s = .next s)

/-- R314, R495, R496: a change of scope 1 that comes due counts a module epoch and puts the power state that the session and the module's own requests ask for in
force; an abandoned change of the module's own is staged again while the hold is still in the same state and no other change of scope 1 runs. -/
def Obligations.PowerStateFollowsItsRequests : Prop :=
  ∀ s : State,
    (∀ g a, findChange s g.id = some g → g.scope = 1 → g.tApply = some a →
      ∃ t, exec (.modeApply g.id) s = .next t ∧ t.time = max s.time a ∧ t.modEpoch = (s.modEpoch + 1) % 65536 ∧ t.jobs = s.jobs ∧ t.sessions = s.sessions ∧
        t.power.sessionP1 = (match g.items.find? (fun i => i.item == 0x10) with | some i => i.value == 1 | none => s.power.sessionP1) ∧
        t.power.p1 = (t.power.sessionP1 || s.power.autoPower || s.power.autoTherm)) ∧
    (s.power.retry = none → exec .powerChangeRetry s = .next s) ∧
    (∀ b, s.power.retry = some b → scope1Busy s = true → exec .powerChangeRetry s = .next s) ∧
    (∀ b, s.power.retry = some b → scope1Busy s = false →
      (wantP1 s ≠ b ∨ b = s.power.p1 → exec .powerChangeRetry s = .next { s with power := { s.power with retry := none } }) ∧
      (wantP1 s = b → b ≠ s.power.p1 → s.power.phase = 7 →
        ∃ t g, exec .powerChangeRetry s = .next t ∧ { t with changes := s.changes, power := s.power } = s ∧ t.power = { s.power with retry := none } ∧
          findChange t (2 ^ 32) = some g ∧ g.scope = 1 ∧ g.items = [] ∧ g.cmd = none ∧ g.remote = none ∧ g.tApply = some (s.time + 1000)))

/-- R315 to R318: STAGE of the followed keeper is stored and acknowledged for both wharf dies, and at the keeper is coordinated; ACK counts, and the last one sets T_apply; OPEN gives T_apply and
releases held starts, and a T_apply that has passed applies at once; DISCARD drops the change. -/
def Obligations.ModeMessagesCarryTheChange : Prop :=
  ∀ (s : State) (m : MsgHdr),
    (Arrives s mtStage m → s.domain.outside = false → ∀ scope job epoch barrier items peers,
      (s.domain.isKeeper = false → ∀ n, s.domain.keeper = some (m.src, n) →
        ∃ t g, exec (.stage m scope job epoch barrier items peers) s = .next t ∧ Carried { s with changes := t.changes } t ∧
          findChange t (changeId scope job epoch) = some g ∧ g.scope = scope ∧ g.job = job ∧ g.epoch = epoch ∧ g.barrier = barrier ∧ g.items = items ∧
          g.remote = some m.src ∧ g.acked = true ∧ g.ackAt = s.time ∧ g.tApply = none ∧ g.holding = !s.domain.locked ∧
          ∀ place, place = 8 ∨ place = 9 → ∃ x, (x ∈ t.sent ∨ x ∈ t.held) ∧ x.dst = m.src ∧ x.typ = mtAck ∧ x.tc = 7 ∧ x.body = [g.id, place]) ∧
      (s.domain.isKeeper = true →
        ∃ t g, exec (.stage m scope job epoch barrier items peers) s = .next t ∧ Carried { s with changes := t.changes } t ∧
          findChange t (changeId scope job epoch) = some g ∧ g.scope = scope ∧ g.job = job ∧ g.epoch = epoch ∧ g.barrier = barrier ∧ g.items = items ∧
          g.remote = none ∧ g.cmd = none ∧ g.t0 = s.time)) ∧
    (Arrives s mtAck m → ∀ chg place,
      (findChange s chg = none → ∃ u, Heard s u m ∧ exec (.ack m chg place) s = .next u) ∧
      (∀ c, findChange s chg = some c → ∃ t g, exec (.ack m chg place) s = .next t ∧ Carried { s with changes := t.changes } t ∧
        findChange t chg = some g ∧ g.unacked = c.unacked.filter (fun u => !(u == (m.src, place))) ∧ g.hops = max c.hops (9 - m.hops) ∧
        { g with unacked := c.unacked, hops := c.hops, tApply := c.tApply, holding := c.holding } = c ∧
        (g.unacked ≠ [] ∨ c.tApply ≠ none ∨ c.remote ≠ none → g.tApply = c.tApply ∧ g.holding = c.holding) ∧
        (g.unacked = [] → c.tApply = none → c.remote = none → g.holding = false ∧ ∃ a, g.tApply = some a ∧ s.time + 1000 ≤ a))) ∧
    (Arrives s mtOpen m → ∀ chg a c, findChange s chg = some c → c.remote = some m.src → c.tApply = none →
      (s.time < a → ∃ u, Heard s u m ∧ exec (.openMsg m chg a) s = .next (putChange u { c with tApply := some a, holding := false })) ∧
      (a ≤ s.time → c.scope = 0 → chg < 2 ^ 32 → ∃ t, exec (.openMsg m chg a) s = .next t ∧ InForce s t c s.time)) ∧
    (Arrives s mtDiscard m → ∀ chg c, findChange s chg = some c → c.scope = 0 → chg < 2 ^ 32 →
      (c.remote = some m.src → ∃ t, exec (.discard m chg) s = .next t ∧ Dropped s t c s.time) ∧
      (c.remote ≠ some m.src → ∃ u, Heard s u m ∧ exec (.discard m chg) s = .next u))

-- the mailbox -------------------------------------------------------------------------------------------------------------

/-- R377, R382, R406 to R410, R466: before READY every mailbox command answers Busy, and one whose header authenticates no session answers Invalid Input with no other effect. A
START reserves the lowest free slot with the transcript and the master secret of its method; the FINISH whose proof verifies within 10 s opens the
session, clears the count of failures and sets the slot's job counts to 0; any other frees the slot and counts. A slot not finished is freed 10 s on. -/
def Obligations.SessionsOpenByTheirCredential : Prop :=
  ∀ s : State,
    (∀ i op x, mailRow i = some (op, x) →
      (s.power.linkUp = false → exec i s = .next s) ∧
      (s.power.linkUp = true → ready s = false → ∃ u, exec i s = .next u ∧ Answered s u rcBusy []) ∧
      (s.power.linkUp = true → ready s = true → ∀ o, op = some o → authSes s o x = none → ∃ u, exec i s = .next u ∧ Answered s u rcInvalid [])) ∧
    (∀ x k i, s.power.linkUp = true → ready s = true →
      (startCheck s x false 52 = .ok (k, i) → ∃ u nm th sms kc, exec (.sesPskStart x) s = .next u ∧ nm.length = 32 ∧
        th = fitBytes 48 (Config.sha384 (x ++ leBytes 2 i ++ nm)) ∧
        kc = Config.hkdf384 k.secret ((x.drop 52).take 32 ++ nm) (ascii "psk conf" ++ k.id) 48 ∧
        sms = fitBytes 48 (Config.hkdf384 k.secret ((x.drop 52).take 32 ++ nm) (ascii "sms" ++ th) 48) ∧
        Answered (setSes { s with nextSes := s.nextSes + 1 } i
          (reservedSlot s k (fieldAt x 48 4) th sms (fitBytes 48 (Config.hmac384 kc (ascii "C" ++ th))))) u rcOk
          (leBytes 2 i ++ nm ++ fitBytes 48 (Config.hmac384 kc (ascii "M" ++ th)))) ∧
      (startCheck s x true 85 = .ok (k, i) → ∃ u n r sms, exec (.sesPakeStart x) s = .next u ∧
        r = Config.spake2 (k.secret ++ (k.id ++ ascii "WTV8-2048" ++ leBytes 2 s.cfg.peerId ++ ascii "Torvavo TV8 session"))
          (Config.freeRandom n 32) ((x.drop 52).take 65) ∧
        sms = fitBytes 48 (Config.hkdf384 r.2.2.2.2 [] (ascii "sms" ++ fitBytes 48 r.2.2.2.1) 48) ∧
        Answered (setSes { s with nextSes := s.nextSes + 1 } i
          (reservedSlot s k (fieldAt x 48 4) (fitBytes 48 r.2.2.2.1) sms (fitBytes 32 r.2.2.1))) u rcOk
          (leBytes 2 i ++ fitBytes 65 r.1 ++ fitBytes 32 r.2.1)) ∧
      (∀ rc, startCheck s x false 52 = .error rc → ∃ u, exec (.sesPskStart x) s = .next u ∧ Answered s u rc []) ∧
      ∀ rc, startCheck s x true 85 = .error rc → ∃ u, exec (.sesPakeStart x) s = .next u ∧ Answered s u rc []) ∧
    (∀ g pake len x i, (g, pake, len) ∈ [(Instr.sesPskFinish x, false, 48), (.sesPakeFinish x, true, 32)] → s.power.linkUp = true → ready s = true →
      openHdr x = true → x.length = 34 + len → fieldAt x 32 2 = i → i < 64 → (getSes s i).st = .reserved → (getSes s i).pake = pake →
      ((x.drop 34).take len = (getSes s i).expect → s.time < (getSes s i).since + 10000000000 →
        ∃ u, exec g s = .next u ∧ Answered (setSes (setCounts (clearFail { s with sesQ := tset EventQ.rest s.sesQ i EventQ.rest } (getSes s i).cred) i
          SlotCounts.rest) i { getSes s i with st := .opened, ide := s.cxl.ide, counter := 0 }) u rcOk []) ∧
      (¬ ((x.drop 34).take len = (getSes s i).expect ∧ s.time < (getSes s i).since + 10000000000) →
        ∃ u, exec g s = .next u ∧ Answered (countFail (setSes s i Session.rest) (getSes s i).cred) u rcInvalid [])) ∧
    ∀ i, ((getSes s i).st = .reserved → ∃ u, exec (.sessionSlotExpiry i) s = .next u ∧ getSes u i = Session.rest ∧
        u.time = max s.time ((getSes s i).since + 10000000000) ∧ (∀ j, j ≠ i → getSes u j = getSes s j) ∧
        Meters { s with time := u.time, sessions := u.sessions } u) ∧
      ((getSes s i).st ≠ .reserved → exec (.sessionSlotExpiry i) s = .next s)

/-- R384: PRIV_MAP open returns Invalid Input to a session that is not privileged, and Busy while another session holds the map; the map closes at PRIV_MAP close and
when its session ends, by SES_CLOSE, by the loss of the link or by a module reset. -/
def Obligations.PrivMapHasOneHolder : Prop :=
  ∀ (s : State) (x : List Byte) (i : Nat),
    (Called s 0xC014 x i →
      (bit (fieldAt (x.drop 32) 0 4) 0 = true → (getSes s i).priv = false → ∃ u, exec (.privMap x) s = .next u ∧ Answered (noted s x i) u rcInvalid []) ∧
      (bit (fieldAt (x.drop 32) 0 4) 0 = true → (getSes s i).priv = true →
        (∀ k, s.cxl.privBy = some k → k ≠ i → ∃ u, exec (.privMap x) s = .next u ∧ Answered (noted s x i) u rcBusy []) ∧
        (s.cxl.privBy = none ∨ s.cxl.privBy = some i → ∃ u, exec (.privMap x) s = .next u ∧
          Answered { noted s x i with cxl := { s.cxl with privBy := some i } } u rcOk [])) ∧
      (bit (fieldAt (x.drop 32) 0 4) 0 = false →
        (s.cxl.privBy = some i → ∃ u, exec (.privMap x) s = .next u ∧ Answered { noted s x i with cxl := { s.cxl with privBy := none } } u rcOk []) ∧
        (s.cxl.privBy ≠ some i → ∃ u, exec (.privMap x) s = .next u ∧ Answered (noted s x i) u rcOk []))) ∧
    (Called s 0xC004 x i → ∃ u, exec (.sesClose x) s = .next u ∧ u.cxl.privBy ≠ some i) ∧
    (s.power.linkUp = true → ∀ cause, ∃ u, exec (.cxlLinkDown cause) s = .next u ∧ u.cxl.privBy = none) ∧
    (s.power.off = false → s.power.resetN = true → ∃ u, exec .moduleReset s = .next u ∧ u.cxl.privBy = none)

/-- R405, R411, R415, R416, R420, R421, R470: SES_CLOSE frees its slot with all that hangs on the session; JOB_LINK stores a secret once; OWNER_ENROLL and
OWNER_RELEASE write the protected sector; DEBUG_UNLOCK unlocks debug, extends MR6 and locks again; ID_CERTS and SES_EXPORT return public
values; EVENT_READ takes records from a queue. -/
def Obligations.SessionCommandsServeTheirSession : Prop :=
  ∀ (s : State) (x : List Byte) (i : Nat),
    (Called s 0xC004 x i → ∃ u, exec (.sesClose x) s = .next u ∧ getSes u i = Session.rest ∧ (∀ j, j ≠ i → getSes u j = getSes s j) ∧
      u.answers = s.answers ++ [.mailbox rcOk []] ∧ u.cxl.privBy ≠ some i ∧ u.trust.dbgBy ≠ some i ∧ (∀ a ∈ u.cxl.apertures, a.2.2 ≠ i) ∧
      (∀ l ∈ u.links, l.1.1 ≠ i) ∧ u.time = s.time ∧ u.cfg = s.cfg ∧ u.power.kept = s.power.kept ∧ ∀ d, (getDie u d).kept = (getDie s d).kept) ∧
    (Called s 0xC005 x i → ∀ job, job = fieldAt (x.drop 32) 0 2 →
      (s.links.any (fun l => l.1 == (i, job)) = true → ∃ u, exec (.jobLink x) s = .next u ∧ Answered (noted s x i) u rcInvalid []) ∧
      (x.length = 96 → fieldAt (x.drop 32) 2 2 = 0 → job ≠ 0 → s.links.any (fun l => l.1 == (i, job)) = false →
        ∀ key, key = fitBytes 32 (Config.hkdf384 (getSes s i).sms [] (ascii "wrap") 32) →
        (Config.gcmOpen key ((x.drop 36).take 12) (x.drop 48) = none → ∃ u, exec (.jobLink x) s = .next u ∧ Answered (noted s x i) u rcInvalid []) ∧
        ∀ secret, Config.gcmOpen key ((x.drop 36).take 12) (x.drop 48) = some secret →
          ∃ u, exec (.jobLink x) s = .next u ∧ Answered { noted s x i with links := s.links ++ [((i, job), fitBytes 32 secret)] } u rcOk [])) ∧
    (∀ o g, (o, g) ∈ [(0xC006, Instr.ownerEnroll x), (0xC007, .ownerRelease x), (0xC008, .debugUnlock x)] → Called s o x i → (getSes s i).priv = false →
      ∃ u, exec g s = .next u ∧ Answered (noted s x i) u rcInvalid []) ∧
    (Called s 0xC006 x i → (getSes s i).priv = true → x.length = 468 →
      (s.trust.owner.isSome = true → ∃ u, exec (.ownerEnroll x) s = .next u ∧ Answered (noted s x i) u rcInvalid []) ∧
      (s.trust.owner = none → ∃ u, exec (.ownerEnroll x) s = .next u ∧ Answered { noted s x i with trust := { s.trust with
        owner := some (fitBytes 48 (Config.sha384 (x.drop 32))), ownerEp := (s.trust.ownerEp + 1) % 2 ^ 32, cfgFloor := 0 } } u rcOk [])) ∧
    (Called s 0xC007 x i → (getSes s i).priv = true → ∃ u, exec (.ownerRelease x) s = .next u ∧ Answered { noted s x i with trust := { s.trust with
      owner := none, ownerEp := (s.trust.ownerEp + 1) % 2 ^ 32, cfgFloor := 0 } } u rcOk []) ∧
    (Called s 0xC008 x i → (getSes s i).priv = true →
      (bit (fieldAt (x.drop 32) 0 4) 0 = true → ∃ u, exec (.debugUnlock x) s = .next u ∧ Answered { noted s x i with trust := { s.trust with
        mrs := s.trust.mrs.set 6 (fitBytes 48 (Config.sha384 (s.trust.mrs.getD 6 [] ++ fitBytes 48 (Config.sha384 ((getSes s i).cred ++ leBytes 2 i))))),
        dbgBy := some i, dbgSticky := true } } u rcOk []) ∧
      (bit (fieldAt (x.drop 32) 0 4) 0 = false → s.trust.dbgBy = some i → ∃ u, exec (.debugUnlock x) s = .next u ∧
        Answered { noted s x i with trust := { s.trust with dbgBy := none }, tap := { s.tap with live := false } } u rcOk []) ∧
      (bit (fieldAt (x.drop 32) 0 4) 0 = false → s.trust.dbgBy ≠ some i → ∃ u, exec (.debugUnlock x) s = .next u ∧ Answered (noted s x i) u rcOk [])) ∧
    (s.power.linkUp = true → ready s = true → x.length = 40 → ∃ u, exec (.idCerts x) s = .next u ∧
      (fieldAt x 36 4 ≤ 4000 → Answered s u rcOk ((Config.certChain.drop (fieldAt x 32 4)).take (fieldAt x 36 4))) ∧
      (4000 < fieldAt x 36 4 → Answered s u rcInvalid [])) ∧
    (Called s 0xC00A x i → x.length = 36 → ∃ u, exec (.sesExport x) s = .next u ∧
      (fieldAt (x.drop 32) 0 4 = 1 → (getSes s i).priv = true → Answered (noted s x i) u rcOk (fitBytes 388 Config.rkPub)) ∧
      (fieldAt (x.drop 32) 0 4 ≠ 1 ∨ (getSes s i).priv = false → Answered (noted s x i) u rcInvalid [])) ∧
    (Called s 0xC015 x i → x.length = 36 → ∀ n, n = fieldAt (x.drop 32) 0 2 → 0 < n → n ≤ 120 →
      (fieldAt (x.drop 32) 2 2 = 0 → ∀ q, q = tget EventQ.rest s.sesQ i → ∃ u, exec (.eventRead x) s = .next u ∧
        Answered { noted s x i with sesQ := tset EventQ.rest s.sesQ i { recs := q.recs.drop n, lost := 0 } } u rcOk
          (leBytes 2 (min n q.recs.length) ++ zeros 2 ++ leBytes 4 (min q.lost 0xFFFFFFFF) ++ ((q.recs.take n).map Event.bytes).flatten)) ∧
      (fieldAt (x.drop 32) 2 2 = 1 → (getSes s i).priv = true → ∃ u, exec (.eventRead x) s = .next u ∧
        Answered { noted s x i with modQ := { recs := s.modQ.recs.drop n, lost := 0 } } u rcOk
          (leBytes 2 (min n s.modQ.recs.length) ++ zeros 2 ++ leBytes 4 (min s.modQ.lost 0xFFFFFFFF) ++ ((s.modQ.recs.take n).map Event.bytes).flatten)) ∧
      (fieldAt (x.drop 32) 2 2 = 1 → (getSes s i).priv = false → ∃ u, exec (.eventRead x) s = .next u ∧ Answered (noted s x i) u rcInvalid []))

/-- R382, R383, R386: RING_BIND binds an unbound, disabled ring and leaves its registers at reset; RING_UNBIND answers Busy while another one runs in the background (log 26:
the model's choice), and else disables its ring and, with nothing in flight, returns it to reset; HDM_BIND binds free apertures to a job of the session, and HDM_UNBIND releases the session's. -/
def Obligations.RingsAndAperturesAreBound : Prop :=
  ∀ (s : State) (x : List Byte) (i : Nat),
    (Called s 0xC010 x i → x.length = 36 → ∀ r, r = fieldAt (x.drop 32) 0 2 → r < 128 → fieldAt (x.drop 32) 2 2 ≤ 1 →
      ((getRing s r).bind ≠ 0xFFFF ∨ (getRing s r).enable = true → ∃ u, exec (.ringBind x) s = .next u ∧ Answered (noted s x i) u rcInvalid []) ∧
      ((getRing s r).bind = 0xFFFF → (getRing s r).enable = false → ∃ u, exec (.ringBind x) s = .next u ∧
        Answered (setRing (noted s x i) r { Ring.rest with enables := (getRing s r).enables, bind := i, msix := bit (fieldAt (x.drop 32) 2 2) 0 }) u rcOk [])) ∧
    (Called s 0xC011 x i → x.length = 36 → ∀ r, r = fieldAt (x.drop 32) 0 2 → r < 128 → fieldAt (x.drop 32) 2 2 = 0 →
      ((getRing s r).bind ≠ i → ∃ u, exec (.ringUnbind x) s = .next u ∧ Answered (noted s x i) u rcInvalid []) ∧
      ((getRing s r).bind = i → unbindBusy s = true → ∃ u, exec (.ringUnbind x) s = .next u ∧ Answered (noted s x i) u rcBusy []) ∧
      ((getRing s r).bind = i → unbindBusy s = false → ∃ u, exec (.ringUnbind x) s = .next u ∧
        Answered { noted s x i with rings := u.rings, bufs := u.bufs, msix := u.msix } u rcBackground [] ∧ (∀ k, k ≠ r → getRing u k = getRing s k) ∧
        ((getRing s r).inFlight = 0 → getRing u r = { Ring.rest with enables := (getRing s r).enables }) ∧
        ((getRing s r).inFlight ≠ 0 → getRing u r = { getRing s r with enable := false, active := false, unbinding := true }) ∧
        u.bufs = s.bufs.filter (fun b => match b.forRing with | some (k, _) => !(k == r) | none => true))) ∧
    (Called s 0xC012 x i → x.length = 38 → ∀ first n job, first = fieldAt (x.drop 32) 0 2 → n = fieldAt (x.drop 32) 2 2 → job = fieldAt (x.drop 32) 4 2 → 0 < n →
      (∀ j, findJob s job = some j → j.sess = i → first + n ≤ s.cfg.hdmSizeGib →
        (∀ a, first ≤ a → a < first + n → (∀ b ∈ s.cxl.apertures, b.1 ≠ a) ∧ inPound s (apertureBase s a) 0x40000000 = false) →
        ∃ u, exec (.hdmBind x) s = .next u ∧
          Answered { noted s x i with cxl := { s.cxl with apertures := s.cxl.apertures ++ ((List.range n).map (· + first)).map (fun a => (a, (job, i))) } } u rcOk []) ∧
      ((∀ j, findJob s job = some j → j.sess ≠ i) ∨ (∃ a, first ≤ a ∧ a < first + n ∧ ((∃ b ∈ s.cxl.apertures, b.1 = a) ∨ inPound s (apertureBase s a) 0x40000000 = true)) →
        ∃ u, exec (.hdmBind x) s = .next u ∧ Answered (noted s x i) u rcInvalid [])) ∧
    (Called s 0xC013 x i → x.length = 36 → ∀ first n, first = fieldAt (x.drop 32) 0 2 → n = fieldAt (x.drop 32) 2 2 →
      (∀ a, first ≤ a → a < first + n → ∃ b ∈ s.cxl.apertures, b.1 = a ∧ b.2.2 = i) →
      ∃ u, exec (.hdmUnbind x) s = .next u ∧
        Answered { noted s x i with cxl := { s.cxl with apertures := s.cxl.apertures.filter (fun a => !(decide (first ≤ a.1) && decide (a.1 < first + n))) } } u rcOk [])

-- errors, fences and the fatal state --------------------------------------------------------------------------------------

/-- R17, R241 to R243, R447, R473, R475, R477, R480: an internal error fences its core or engine, a failure of what a die shares fences the die, and a failure of a wharf die or of the
controller is fatal, as a fatal cause is. A lost stack fences its die. A scrub read counts what it corrects, and poisons and retires what it cannot. -/
def Obligations.UnitsAreFencedOnTheirErrors : Prop :=
  ∀ s : State,
    (∀ d k i, (i, d, k) ∈ [(Instr.unitInternalError (.shared d), d, 6)] ∨ (∃ b, d = b / 4 ∧ i = .unitInternalError (.basin b) ∧ k = 6) ∨
        (∃ p, d = p / 256 ∧ i = .unitInternalError (.pchan p) ∧ k = 2) ∨ (∃ h, d = h / 4 ∧ i = .hbmInterfaceLost h ∧ k = 2) ∨
        (∃ a b, d2dPort a b = true ∧ d = (if 8 ≤ max a b then min a b else max a b) ∧ i = .unitInternalError (.d2d a b) ∧ k = 5) →
      ((getDie s d).fenced = false → ∃ t, exec i s = .next t ∧ Fenced s t d k) ∧ ((getDie s d).fenced = true → exec i s = .next s)) ∧
    (∀ a b, d2dPort a b = false → exec (.unitInternalError (.d2d a b)) s = .next s) ∧
    (∀ u, unitInService s u = true → (getDie s (unitDie u)).fenced = false → dieShort s (unitDie u) = none →
      (∀ k, u = .core k → ∃ t, exec (.unitInternalError u) s = .next t ∧
        Contained (setDie s (k / 64) { getDie s (k / 64) with coreFence := setBit (getDie s (k / 64)).coreFence (k % 64) true }) t) ∧
      (∀ k, u = .root k → ∃ t, exec (.unitInternalError u) s = .next t ∧
        Contained (setDie s (k / 8) { getDie s (k / 8) with rootFence := setBit (getDie s (k / 8)).rootFence (k % 8) true }) t) ∧
      (∀ k x, u = .move k → x = { getDie s (k / 16) with moveFence := setBit (getDie s (k / 16)).moveFence (k % 16) true } →
        (x.moveFence % 2 ^ 16 ≠ 2 ^ 16 - 1 → ∃ t, exec (.unitInternalError u) s = .next t ∧ Contained (setDie s (k / 16) x) t) ∧
        (x.moveFence % 2 ^ 16 = 2 ^ 16 - 1 → ∃ t, exec (.unitInternalError u) s = .next t ∧ Fenced (setDie s (k / 16) x) t (k / 16) 8))) ∧
    (∀ i k, (i, k) ∈ [(Instr.unitInternalError .mgmt, 2)] ∨ (∃ w, i = .unitInternalError (.wharf w) ∧ k = 1) ∨ (∃ p, i = .unitInternalError (.port p) ∧ k = 1) ∨
        i = .fatalError k →
      (s.power.phase ≠ 0xF → ∃ t, exec i s = .next t ∧ Stopped s t k) ∧ (s.power.phase = 0xF → exec i s = .next s)) ∧
    (∀ a d, d = dieOfAddr a → ready s = true → backed a = true → a < coreBase → (getDie s d).up = true →
      bit (getMemRegs s d).scrub (if isHbm a then 1 else 0) = true →
      exec (.scrubRead a .clean) s = .next s ∧
      (((getMemRegs s d).ceLog.filter (fun e => e.1 == a / 65536 * 65536 && decide (s.time ≤ e.2 + 86400000000000))).length < 2 →
        ∃ t, exec (.scrubRead a .corrected) s = .next t ∧ Meters { s with memRegs := t.memRegs } t ∧
          (∀ e, e ≠ d → getMemRegs t e = getMemRegs s e) ∧ (getMemRegs t d).retired = (getMemRegs s d).retired ∧
          (getMemRegs t d).hbmCe = (if isHbm a then ((getMemRegs s d).hbmCe + 1) % 2 ^ 48 else (getMemRegs s d).hbmCe) ∧
          (getMemRegs t d).bsnCe = (if isHbm a then (getMemRegs s d).bsnCe else ((getMemRegs s d).bsnCe + 1) % 2 ^ 48) ∧
          (a / 65536 * 65536, s.time) ∈ (getMemRegs t d).ceLog) ∧
      ((getMemRegs s d).retired.length < 4095 → (getMemRegs s d).retired.contains (a / 65536 * 65536) = false →
        ∃ t, exec (.scrubRead a .uncorrectable) s = .next t ∧ (Still s → t.poison = if s.poison.contains (poisonUnit a) then s.poison else s.poison ++ [poisonUnit a]) ∧
          (getMemRegs t d).retired = (getMemRegs s d).retired ++ [a / 65536 * 65536] ∧ (∀ e, e ≠ d → getMemRegs t e = getMemRegs s e) ∧
          (getMemRegs t d).errInfo = 2 * 2 ^ 28 + 0xFFFF ∧ Steady { s with memRegs := t.memRegs } t))

-- start-up ----------------------------------------------------------------------------------------------------------------

/-- R521, whole: the value that the IDCODE row shifts out has version 1, part 0x7A08, Wadicen's code of 11 bits and a 1, and Test-Logic-Reset makes IDCODE the current instruction. -/
def Obligations.IdcodeNamesTheModule : Prop :=
  ∀ s : State, s.power.off = false ∨ s.power.phase = 9 →
    (∃ t v, exec .idcode s = .next t ∧ t.answers = s.answers ++ [.tap 0x02 false, .reg v] ∧ v < 2 ^ 32 ∧
      v / 2 ^ 28 % 2 ^ 4 = 0x1 ∧ v / 2 ^ 12 % 2 ^ 16 = 0x7A08 ∧ v / 2 % 2 ^ 11 = Config.jep106 % 2 ^ 11 ∧ v % 2 = 1) ∧
    (∀ i, i = .testLogicReset ∨ i = .trstN → ∃ t, exec i s = .next t ∧ t.tap.ir = 0x02 ∧ t.answers = s.answers) ∧ (State.reset).tap.ir = 0x02

/-- R235, R243, R398, R404, R475, R503 to R505, R519, R524: start-up goes through its phases in order. It is held at step 1 by MOD_RESET_N, by a boundary instruction that drives
pins, and until PWR_EN is asserted again after a module reset (log 136). Firmware and record verify or start-up stops in BOOT_FAIL with the kind, as it does for a record whose pound
sizes R235 does not allow (log 129: the model's choice); so does the image; a key that is not reconstructed stops it in IDENTITY_FAIL with the wharf die; a die whose list of retired
granules is full stays fenced; a stack or a unit that fails takes its die, and start-up goes on while a die is left; READY comes when the stores are zero and Towpath is resolved. -/
def Obligations.StartupRunsInItsOrder : Prop :=
  ∀ s : State, s.power.off = false →
    (s.power.phase = 0 → stepOneHeld s = true → ∀ f r, exec (.configVerified f r) s = .next s) ∧
    (s.power.phase = 0 → s.power.resetN = true → s.power.awaitEn = false → s.tap.ir ∉ [0x00, 0x03, 0x04, 0x05, 0x06] →
      (∀ f r, objAccepted s f = true → f.kind = 0 → objAccepted s r.obj = true → r.obj.kind = 2 → r.rkHashOk = true → r.poundsOk = true →
        ∃ t, exec (.configVerified (some f) (some r)) s = .next t ∧ t.cfg = r ∧ t.power = ({ s.power with fwOk := true, cfgDone := true }).at 1 ∧
          t.trust.mrs = measured (measured (measured (measured s.trust.mrs 0 Config.romHash) 1 f.hash) 3 r.obj.hash) 4 (s.trust.ownerNow.getD (zeros 48)) ∧
          t.trust.cfgSeq = r.obj.sequence ∧ t.trust.rfPending = s.trust.rfPending ++ (if f.raiseFloor then [(0, f.svn)] else []) ++ (if r.obj.raiseFloor then [(2, r.obj.svn)] else []) ∧
          t.domain = { s.domain with peer0Mode := r.peer0Mode, successors := r.successors.take 8, routes := r.routes } ∧
          t = { s with cfg := t.cfg, power := t.power, trust := t.trust, domain := t.domain, ports := t.ports }) ∧
      (∀ f r, (∀ g, f = some g → objAccepted s g = false ∨ g.kind ≠ 0) →
        ∃ t, exec (.configVerified f r) s = .next t ∧ t.power = { s.power.at 0xD with failDetail := 0 } ∧ t = { s with power := t.power, trust := t.trust }) ∧
      (∀ f r, objAccepted s f = true → f.kind = 0 → (∀ g, r = some g → objAccepted s g.obj = false ∨ g.obj.kind ≠ 2 ∨ g.rkHashOk = false ∨ g.poundsOk = false) →
        ∃ t, exec (.configVerified (some f) r) s = .next t ∧ t.power = { s.power.at 0xD with failDetail := 2 } ∧ t = { s with power := t.power, trust := t.trust })) ∧
    (s.power.phase = 1 →
      (∀ o, objAccepted s o = true → o.kind = 1 → ∃ t, exec (.imageVerified (some o)) s = .next t ∧ t.power = ({ s.power with imgDone := true }).at 2 ∧
        t.trust.mrs = measured s.trust.mrs 2 o.hash ∧ t.trust.imgLevel = o.level ∧ t = { s with power := t.power, trust := t.trust }) ∧
      (∀ o, (∀ g, o = some g → objAccepted s g = false ∨ g.kind ≠ 1) → exec (.imageVerified o) s = .next { s with power := { s.power.at 0xD with failDetail := 1 } })) ∧
    (s.power.phase = 2 →
      ((∀ d, d < 8 → (getMemRegs s d).retired.length < 4096) →
        ∃ t, exec (.diesReleased true true) s = .next t ∧ t.power = ({ s.power with released := true }).at 3 ∧ (∀ d, d < 8 → getDie t d = { Die.rest with up := true }) ∧
          t.trust = { s.trust with rsaOk := true, slhOk := true } ∧ t = { s with power := t.power, trust := t.trust, dies := t.dies, ports := t.ports }) ∧
      (∃ t, exec (.diesReleased true true) s = .next t ∧ (t.power.phase = 3 ∨ t.power.phase = 0xF ∧ diesUp t = []) ∧
        ∀ d, d < 8 → 4096 ≤ (getMemRegs s d).retired.length → (getDie t d).fenced = true) ∧
      (∀ a b, (a && b) = false → exec (.diesReleased a b) s =
        .next { s with trust := { s.trust with rsaOk := a, slhOk := b }, power := { s.power.at 0xE with failDetail := if a then 1 else 0 } })) ∧
    (s.power.phase = 3 ∨ s.power.phase = 4 → ∀ l, ∃ t, exec (.hbmTrainingDone l) s = .next t ∧ (∀ k, k ∈ l → (getDie t (k / 4)).fenced = true) ∧
      (t.power.phase = 5 ∨ t.power.phase = 0xF ∧ diesUp t = []) ∧ (l = [] → t = { s with power := t.power } ∧ t.power.hbmDone = true)) ∧
    (s.power.phase = 5 → ∀ l, ∃ t, exec (.selfTestDone l) s = .next t ∧ (∀ k, .basin k ∈ l → (getDie t (k / 4)).fenced = true) ∧
      (t.power.phase = 6 ∨ t.power.phase = 0xF ∧ diesUp t = []) ∧ (l = [] → t = { s with power := ({ s.power with testDone := true }).at 6 })) ∧
    (∀ z, z = { s with mem := s.mem.filter (fun c => isHbm c.1), power := { s.power with initDone := true } } → s.power.phase = 6 →
      (s.power.towDone = false → exec .initialisationDone s = .next z) ∧ (s.power.towDone = true → ∃ t, exec .initialisationDone s = .next t ∧ Readied z t)) ∧
    (3 ≤ s.power.phase → s.power.phase ≤ 6 → (∀ p, (getPort s p).state ≠ 1) →
      (s.power.phase ≠ 6 ∨ s.power.initDone = false → exec .towpathResolved s = .next { s with power := { s.power with towDone := true } }) ∧
      (s.power.phase = 6 → s.power.initDone = true → ∃ t, exec .towpathResolved s = .next t ∧ Readied { s with power := { s.power with towDone := true } } t))

-- tests and the fencing of dies -------------------------------------------------------------------------------------------

/-- R321 to R324, R371: the tests and calibrations of commands and of the rotation begin or queue; the result of one counts as an event, fences a unit that failed with what R475
says, and returns a port on the lanes that trained. -/
def Obligations.UnitsAreTestedInTurn : Prop :=
  ∀ s : State,
    (∀ i op cid c u, testRow i = some (op, cid) → Runs s cid (0xE00 + op) c → (s.testing ++ s.testQ).any (fun r => r.cmd == some cid) = false →
      testUnit op (c.pkt.slot 0) = some u → testRefused s op (c.pkt.slot 0) = false → ∃ t, exec i s = .next t ∧ Asked s t ⟨op, u, some cid⟩) ∧
    (∀ u op, testOp u = some op → ready s = true → unitInService s u = true → (∀ p, u = .port p → lastRoute s p = false) →
      ∃ t, exec (.testRotation u) s = .next t ∧ Asked s t ⟨op, u, none⟩) ∧
    (∀ u r, s.testing.find? (fun r => r.unit == u) = some r → (3 < r.op ∨ s.cmds.any (fun c => inUse c && onUnit c u) = false) → s.testQ = [] → r.cmd = none →
      ((∀ p, u ≠ .port p) → ∀ n, ∃ t, exec (.testResult u ⟨true, n⟩) s = .next t ∧ Told { s with testing := s.testing.filter (fun x => !(x == r)) } t) ∧
      (∀ k, u = .core k → unitInService s u = true → (getDie s (k / 64)).fenced = false → dieShort s (k / 64) = none →
        ∀ n, ∃ t, exec (.testResult u ⟨false, n⟩) s = .next t ∧
          Contained (setDie s (k / 64) { getDie s (k / 64) with coreFence := setBit (getDie s (k / 64)).coreFence (k % 64) true }) t) ∧
      (∀ d k, (∃ b, u = .basin b ∧ d = b / 4 ∧ k = 3) ∨ (∃ p, u = .pchan p ∧ d = p / 256 ∧ k = 2) → (getDie s d).fenced = false →
        ∀ n, ∃ t, exec (.testResult u ⟨false, n⟩) s = .next t ∧ Fenced s t d k) ∧
      (∀ p b n, u = .port p → ∃ t, exec (.testResult u ⟨b, n⟩) s = .next t ∧
        (getPort t p).state = (if n % 16 = 15 then 2 else if bit (getPort s p).ctrl 1 = true ∧ (pairOk n 0 || pairOk n 1) = true then 3 else 0) ∧
        Carried { s with testing := s.testing.filter (fun x => !(x == r)), ports := t.ports } t))

/-- R289, R478, R479: DIE_FENCE fences its die at once, or waits where it drains a die in use, and commits when what had committed on the die has ended; DIE_UNFENCE returns a die whose units all pass, with its unit fences and registers at
rest and its retired list kept, and leaves it fenced where one fails. -/
def Obligations.DiesAreFencedAndReturned : Prop :=
  ∀ (s : State) (cid : Nat) (c : Cmd) (d : Nat), d = fenceTarget c →
    (Runs s cid 0xF14 c → fenceRefused s d = true → ¬ ((getDie s d).fenced = true ∧ c.aux = [1]) → ∃ t, exec (.dieFence cid) s = .next t ∧ Ended s t c stBad (badAt 24 0)) ∧
    (Runs s cid 0xF14 c → (getDie s d).fenced = true → c.aux = [1] →
      (publishing s d = true → exec (.dieFence cid) s = .next s) ∧
      (publishing s d = false → ∀ k, c.origin = .ring k → ∃ t z, exec (.dieFence cid) s = .next t ∧ Contained s t ∧ findCmd t cid = some z ∧ z.phase = .committed)) ∧
    (Runs s cid 0xF15 c → unfenceRefused s d = true → ∀ l, ∃ t, exec (.dieUnfence cid l) s = .next t ∧ Ended s t c stBad (badAt 24 0)) ∧
    (Runs s cid 0xF14 c → fenceRefused s d = false →
      (bit (c.pkt.slot 0) 8 = false ∨ dieBusy s d = false → ∃ t, exec (.dieFence cid) s = .next t ∧ Fenced s t d 1) ∧
      (bit (c.pkt.slot 0) 8 = true → dieBusy s d = true →
        exec (.dieFence cid) s = .next { s with
          dies := tset Die.rest s.dies d { getDie s d with draining := some cid }
          cmds := s.cmds.map (fun x => if x.id = c.id then { c with aux := [1] } else x) })) ∧
    (Runs s cid 0xF15 c → unfenceRefused s d = false → ∀ l, ∃ t, exec (.dieUnfence cid l) s = .next t ∧
      (∀ e, e ≠ d → (getDie t e).kept = (getDie s e).kept ∧ (getMemRegs t e).kept = (getMemRegs s e).kept) ∧ (getMemRegs t d).kept = MemRegs.rest.kept ∧
      (s.objs = [] → getMemRegs t d = { MemRegs.rest with retired := (getMemRegs s d).retired } ∧ ∀ e, e ≠ d → getMemRegs t e = getMemRegs s e) ∧
      ((∀ u, u ∈ l → unitDie u ≠ d) → (getDie t d).kept = { Die.rest with up := true, cause := (getDie s d).cause }) ∧
      ((∃ u, u ∈ l ∧ unitDie u = d) → (getDie t d).up = false ∧ (getDie t d).fenced = true) ∧
      t.roots = s.roots.filter (fun r => !(r.1 / 8 == d)) ∧ t.engines = s.engines.filter (fun e => !(e.1 / 65536 == d)) ∧
      t.pending = s.pending ∧ t.time = s.time ∧ t.sessions = s.sessions ∧ t.cfg = s.cfg ∧ t.power.kept = s.power.kept)

-- the path of a ring's command --------------------------------------------------------------------------------------------

/-- R209, R262, R267, R268, R275 to R277, R290, R301, R302, R304 to R306: the path of a ring's command. RING_FETCH takes the entry at RING_HEAD where there is space for its reply,
ends an entry that an abort marked, refuses what fails a check, and accepts the rest; COMMAND_START places a ready command and starts it on a free unit; COMMIT_POINT commits
what is staged and acknowledged; PUBLICATION_COMPLETE ends the command with its reply; PREEMPTION suspends the yielding context on a die, and CONTEXT_RESUME lets contexts run
there again; CMD_ABORT ends its target, marks entries not yet fetched, or says that it came too late. -/
def Obligations.CommandsAreFetchedStartedAndPublished : Prop :=
  ∀ (s : State),
    (∀ ring,
      (fetches s ring = false → exec (.ringFetch ring) s = .next s) ∧
      (fetches s ring = true → replySpace (getRing s ring) = false → exec (.ringFetch ring) s = .next s) ∧
      (fetches s ring = true → replySpace (getRing s ring) = true →
        (ringEntryOf s ring (getRing s ring).head = .unusable ∨ ringEntryOf s ring (getRing s ring).head = .badTag →
          ∃ t, exec (.ringFetch ring) s = .next t ∧ RingFaulted s t ring 0 (getRing s ring)) ∧
        ∀ bs p, ringEntryOf s ring (getRing s ring).head = .packet bs → p = packetOf bs →
          ((getRing s ring).head ∈ (getRing s ring).marks → ∃ t, exec (.ringFetch ring) s = .next t ∧
            Ended (setRing s ring (getRing s ring).advanced) t (fetched (setRing s ring (getRing s ring).advanced) ring p) stAborted 0) ∧
          ((getRing s ring).head ∉ (getRing s ring).marks → ¬ cleanShapes s ring p →
            ∃ t, exec (.ringFetch ring) s = .next t ∧ Ended (arrived s ring p) t (numbered s ring p) stEcc 0) ∧
          ((getRing s ring).head ∉ (getRing s ring).marks → cleanShapes s ring p →
            (∀ f, faultOf s ring p = some f → ∃ t, exec (.ringFetch ring) s = .next t ∧ Ended (arrived s ring p) t (numbered s ring p) stBad (badAt f.1 f.2)) ∧
            (faultOf s ring p = none →
              (∀ d, denialOf s ring p = some d → ∃ t, exec (.ringFetch ring) s = .next t ∧ Ended (arrived s ring p) t (numbered s ring p) stDenied d) ∧
              (denialOf s ring p = none → epochAhead (arrived s ring p) p < 0 → ∃ t, exec (.ringFetch ring) s = .next t ∧ Ended (arrived s ring p) t (numbered s ring p) stStale 0) ∧
              (denialOf s ring p = none → 0 ≤ epochAhead (arrived s ring p) p → p.waitThresh ≠ 0 → 64 ≤ (getLock s p.waitLock).queue.length →
                ∃ t, exec (.ringFetch ring) s = .next t ∧ Ended (arrived s ring p) t (numbered s ring p) stBad (badAt 14 0xFF)) ∧
              (denialOf s ring p = none → 0 ≤ epochAhead (arrived s ring p) p → (p.waitThresh = 0 ∨ (getLock s p.waitLock).queue.length < 64) →
                ∃ t, exec (.ringFetch ring) s = .next t ∧ AcceptedAs s t (arrived s ring p) (judged s ring p)))))) ∧
    (∀ cid u, u = debtPass s → Beside s u ∧
      (findCmd u cid = none → exec (.commandStart cid) s = .next u) ∧
      ∀ x, findCmd u cid = some x →
        (ready u = false ∨ cmdReady u x = false ∨ jobHeld u x = true → exec (.commandStart cid) s = .next u) ∧
        (ready u = true → cmdReady u x = true → jobHeld u x = false →
          ((if x.phase = .placed then x.place else placeFor u x) = none → exec (.commandStart cid) s = .next u) ∧
          ∀ p y v, (if x.phase = .placed then x.place else placeFor u x) = some p → y = { x with phase := .placed, place := some p } → v = placedIn u y →
            (startHeld v y = true ∨ startUnit v y p = none → exec (.commandStart cid) s = .next v) ∧
            (startHeld v y = false → ∀ n, startUnit v y p = some n →
              (∀ st d, verdict [checkOperands v y, checkLocks v y] = .stop st d → ∃ t, exec (.commandStart cid) s = .next t ∧ Ended v t y st d) ∧
              (verdict [checkOperands v y, checkLocks v y] = .wait → ∃ t, exec (.commandStart cid) s = .next t ∧ Parked v t y) ∧
              (verdict [checkOperands v y, checkLocks v y] = .ok → v.poison = [] → ∀ q w c1, q = { p with unit := n } → w = clearStores v y q → c1 = atStart v y q →
                (familyStart w c1 = .wait → ∃ t, exec (.commandStart cid) s = .next t ∧ Parked v t y) ∧
                (∀ st d, familyStart w c1 = .stop st d [] → ∃ t, exec (.commandStart cid) s = .next t ∧ Ended v t y st d) ∧
                ∀ w2 c2, familyStart w c1 = .go w2 c2 →
                  (∀ st d, checkStructs w c1 = .stop st d → ∃ t, exec (.commandStart cid) s = .next t ∧ Ended v t y st d) ∧
                  (checkStructs w c1 = .wait → ∃ t, exec (.commandStart cid) s = .next t ∧ Parked v t y) ∧
                  (checkStructs w c1 = .ok → startCapBad w c2 = true ∨ resvTooBig v (reservation w c1) = true →
                    ∃ t, exec (.commandStart cid) s = .next t ∧ Ended v t y stBad (badAt 0 0xFF)) ∧
                  (checkStructs w c1 = .ok → startCapBad w c2 = false → resvTooBig v (reservation w c1) = false →
                    (resvLacks v (reservation w c1) = true → ∃ t, exec (.commandStart cid) s = .next t ∧ Parked v t y) ∧
                    (resvLacks v (reservation w c1) = false → ∀ b, findCmd w2 c2.id = some b → c2.self = b.self →
                      ∃ t z, exec (.commandStart cid) s = .next t ∧ findCmd t c2.id = some z ∧ z.self = c2.self ∧ z.phase = .running ∧
                        z.place = c2.place ∧ z.runs = c2.runs + 1 ∧ z.started = s.time ∧ z.reserved = reservation w c1 ∧ z.pins = c2.pins ∧ z.snapMem = c2.snapMem ∧
                        z.snapHost = c2.snapHost ∧ z.aux = c2.aux ∧ (∀ i, i ≠ c2.id → findCmd t i = findCmd w2 i) ∧
                        Beside { w2 with ctxs := t.ctxs, engines := t.engines, serial := t.serial } t)))))) ∧
    (∀ cid c, findCmd s cid = some c →
      (c.phase ≠ .staged → exec (.commitPoint cid) s = .next s) ∧
      (c.phase = .staged → c.pkt.clsOp = 0x802 → lkSetReady s c = false → exec (.commitPoint cid) s = .next s) ∧
      (c.phase = .staged → c.pkt.clsOp ≠ 0x802 → (commitsByLenders c = false ∨ lendersAcked c = false ∨ (c.pkt.cls = 9 ∧ collAwaits s c = true)) →
        exec (.commitPoint cid) s = .next s) ∧
      (c.phase = .staged → c.pkt.clsOp ≠ 0x802 → commitsByLenders c = true → lendersAcked c = true → (c.pkt.cls = 9 → collAwaits s c = false) → ∀ k, c.origin = .ring k →
        ∃ t u v, exec (.commitPoint cid) s = .next t ∧ Beside s u ∧ Beside (commitEff c u (atCommit s (withFlags s c))) v ∧ { t with cmds := v.cmds } = v ∧
          (Still s → u.mem = published s.mem (c.writes.filter (fun w => decide (w.tgt.tier < 3))) ∧ u.host = s.host) ∧
          ((∀ a d, commitEff c a d = a) → Recorded s cid c (ranOf (withFlags s c)) t ∧ Beside s t ∧
            (Still s → t.mem = published s.mem (c.writes.filter (fun w => decide (w.tgt.tier < 3))) ∧ t.host = s.host)))) ∧
    (∀ cid c, findCmd s cid = some c →
      (c.phase ≠ .committed ∨ replyHeld s c = true → exec (.publicationComplete cid) s = .next s) ∧
      (c.phase = .committed → replyHeld s c = false → ∃ t, exec (.publicationComplete cid) s = .next t ∧ (∀ z ∈ t.cmds, z.id ≠ cid) ∧
        (c.pkt.clsOp ≠ 0xF18 → c.toSend = [] → c.writes = [] → (c.sess, c.pkt.job, c.pkt.seq) ∈ t.ended ∧
          ∀ r, c.origin = .ring r → c.noReply = false → (gaddrOf (getRing s r).reply).tier ≠ 5 →
            ((getRing s r).unbinding = false → getRing t r = { getRing s r with rtail := ((getRing s r).rtail + 1) % 2 ^ 32, inFlight := (getRing s r).inFlight - 1 } ∧
              ∀ k, k ≠ r → getRing t k = getRing s k) ∧
            (Still s → t.host = s.host ∧ t.mem = memWrite s.mem (replyAt s r) (replyBytes c))))) ∧
    (∀ die,
      (starvedFirst s die = none → exec (.preemption die) s = .next s) ∧
      (∀ c y, starvedFirst s die = some c → yielder s die (prioOf s c) = some y → ∃ t, exec (.preemption die) s = .next t ∧ Switched s t ∧
        ∀ x ∈ s.ctxs, ∃ x' ∈ t.ctxs, { x' with suspOn := x.suspOn } = x ∧ (∀ d ∈ x.suspOn, d ∈ x'.suspOn) ∧ (x.job = y.pkt.job → x.ring = ctxId s y → die ∈ x'.suspOn))) ∧
    (∀ die ctx,
      ((∀ x ∈ s.ctxs, resumesOn s die ctx x = false) → exec (.contextResume die ctx) s = .next s) ∧
      ∃ t, exec (.contextResume die ctx) s = .next t ∧ Switched s t ∧
        t.ctxs = s.ctxs.map (fun x => if resumesOn s die ctx x then { x with suspOn := without x.suspOn die } else x)) ∧
    (∀ cid c, RingRuns s cid 0xF05 c →
      (abortJob c ≠ 0 → (∀ j, findJob s (abortJob c) = some j → j.sess ≠ c.sess) → ∃ t, exec (.cmdAbort cid) s = .next t ∧ Ended s t c stDenied 0) ∧
      (abortJob c = 0 ∨ (∃ j, findJob s (abortJob c) = some j ∧ j.sess = c.sess) →
        (∀ x, abortTarget s c = some x → x.phase = .committed → ∃ t, exec (.cmdAbort cid) s = .next t ∧ Recorded s cid c { Stg.none with status := stTooLate } t ∧ Beside s t) ∧
        (∀ x, abortTarget s c = some x → x.phase ≠ .committed → (s.cmds.map Cmd.id).Nodup → ∃ t x', exec (.cmdAbort cid) s = .next t ∧ Recorded s cid c Stg.none t ∧
          x'.self = x.self ∧ Ended s t x' stAborted 0) ∧
        (abortTarget s c = none → ringsHolding s c.sess (abortJob c) (abortSeq c) ≠ [] → (s.cmds.map Cmd.id).Nodup → ∃ t u, exec (.cmdAbort cid) s = .next t ∧ Recorded s cid c Stg.none t ∧
          Beside s u ∧ MemSame s u ∧ Beside { s with rings := t.rings } t ∧
          ∀ r, getRing t r = if r ∈ ringsHolding u c.sess (abortJob c) (abortSeq c)
            then { getRing s r with marks := (getRing s r).marks ++ entriesHolding u r (abortJob c) (abortSeq c) } else getRing s r) ∧
        (abortTarget s c = none → ringsHolding s c.sess (abortJob c) (abortSeq c) = [] → (c.sess, abortJob c, abortSeq c) ∈ s.ended →
          ∃ t, exec (.cmdAbort cid) s = .next t ∧ Recorded s cid c { Stg.none with status := stTooLate } t ∧ Beside s t) ∧
        (abortTarget s c = none → ringsHolding s c.sess (abortJob c) (abortSeq c) = [] → (c.sess, abortJob c, abortSeq c) ∉ s.ended →
          ∃ t, exec (.cmdAbort cid) s = .next t ∧ Ended s t c stBad (badAt 24 0))))

-- collectives -------------------------------------------------------------------------------------------------------------

/-- R358, R361 to R369: collectives. A member joins at its leader, which holds the round until every live member has joined or the deadline has passed, and then freezes the set and tells it; a
COLL_JOIN whose hashes differ ends the round; members of the set exchange data, and a member whose data is complete commits or stages its outputs; the owner of a reduction adds the sum into
GACC; a late member takes the result or is expelled; PERMUTE flips at every member at T_flip. -/
def Obligations.CollectivesJoinExchangeAndCommit : Prop :=
  (∀ i op cid, collRow i = some (op, cid) → ∀ (s : State) (c : Cmd), RingRuns s cid (0x900 + op) c →
    (collSt c = 0 →
      (∀ p, (collLive s c).head? = some p → p ≠ s.cfg.peerId →
        (linkFault s c p = none → s.power.phase ≠ 0xF → ∃ t, exec i s = .next t ∧ t.cmds = (putCmd s c.joins).cmds ∧ Carried { s with cmds := t.cmds } t ∧ MemSame s t ∧
          Posted s t (fun m => m.dst = p ∧ m.typ = mtCollJoin ∧ m.tc = 7 ∧ m.job = c.pkt.job ∧
            m.body = [collHash s c, (descOf s c).stream, (descOf s c).round, opHash s c, b2n (collTwice s c)])) ∧
        (∀ st, linkFault s c p = some st → ∃ t, exec i s = .next t ∧ Ended (putCmd s c.joins) t c.joins st (if st = stDenied then 0xFE else 0))) ∧
      (∀ r, leads s c → collCmd s c.pkt.job (collHash s c) (descOf s c).stream (descOf s c).round = some c →
        Joins s c.pkt.job (collHash s c) (descOf s c).stream (descOf s c).round (opHash s c) s.cfg.peerId (collTwice s c) r →
        (¬ Complete s r c → exec i s = .next (putRound (putCmd s c.joins) r)) ∧
        (Complete s r c → Awaiting s (c.joins.takes (frozenSet s r c) (frozenCount s r c) c.pkt.seq (c.runs % 256)) →
          NoneWaits s c.pkt.job (collHash s c) (descOf s c).stream (descOf s c).round → ∃ t, exec i s = .next t ∧ Froze (putCmd s c.joins) t r c.joins))) ∧
    (collSt c = 1 → exec i s = .next s) ∧
    (collSt c = 2 →
      (Awaiting s c → exec i s = .next s) ∧
      (¬ Awaiting s c → (∀ w ∈ (collStaged s c).writes, w.tgt.tier ≠ 4) →
        ((collStaged s c).wait = false → ∃ t, exec i s = .next t ∧ Recorded s cid c (collStaged s c) t ∧ CollDone s t c (collStaged s c).writes) ∧
        ((collStaged s c).wait = true → ∃ t a, exec i s = .next t ∧ t.cmds = (putCmd s { withRun c (collStaged s c) with aux := c.aux ++ a }).cmds ∧ (op ≠ 7 → a = []) ∧
          Carried { s with cmds := t.cmds } t ∧ MemSame s t)))) ∧
  (∀ (s : State) (cid : Nat) (c : Cmd) (r : Round), findCmd s cid = some c → c.pkt.cls = 9 → inUse c = true →
    s.rounds.find? (roundIs c.pkt.job (collHash s c) (descOf s c).stream (descOf s c).round) = some r → r.frozen = none → (descOf s c).deadline ≠ 0 → leads s c →
    collCmd s c.pkt.job (collHash s c) (descOf s c).stream (descOf s c).round = some c → s.cfg.peerId ∈ frozenSet s r c →
    Awaiting s (c.takes (frozenSet s r c) (frozenCount s r c) c.pkt.seq (c.runs % 256)) → NoneWaits s c.pkt.job (collHash s c) (descOf s c).stream (descOf s c).round →
    ∃ t, exec (.collectiveDeadline cid) s = .next t ∧ t.time = max s.time ((descOf s c).deadline + 3) ∧ Froze { s with time := t.time } t r c) ∧
  (∀ (s : State) (cid : Nat) (c : Cmd), findCmd s cid = some c → (∃ k, c.origin = .ring k) → c.pkt.clsOp = 0x907 → c.phase = .staged → c.aux.length = 6 →
    ∃ t, exec (.permuteFlip cid) s = .next t ∧ t.time = max s.time (c.aux.getD 5 0) ∧ Recorded { s with time := t.time } cid c (stagedAs c) t ∧
      CollDone { s with time := t.time } t c c.writes) ∧
  (∀ (s : State) (m : MsgHdr) (group stream round : Nat),
    (Arrives s mtCollJoin m → ∀ op twice,
      (∀ r, Joins s m.job group stream round op m.src twice r →
        (collCmd s m.job group stream round = none → ∃ u, Heard s u m ∧ exec (.collJoin m group stream round op twice) s = .next (putRound u r)) ∧
        (∀ c, collCmd s m.job group stream round = some c →
          (¬ Complete s r c → ∃ u, Heard s u m ∧ exec (.collJoin m group stream round op twice) s = .next (putRound u r)) ∧
          (Complete s r c → s.cfg.peerId ∈ frozenSet s r c → Awaiting s (c.takes (frozenSet s r c) (frozenCount s r c) c.pkt.seq (c.runs % 256)) → NoneWaits s m.job group stream round →
            ∃ u t, Heard s u m ∧ exec (.collJoin m group stream round op twice) s = .next t ∧ Froze u t r c))) ∧
      (∀ old, s.rounds.find? (fun x => x.job == m.job && x.stream == stream && x.round == round) = some old →
        (old.group = group → old.op = op → old.frozen.isSome = true → ∀ n bs, (getStream s m.job group stream).results.find? (fun x => x.1 == round) = some (round, n, bs) →
          ∃ t, exec (.collJoin m group stream round op twice) s = .next t ∧ Carried s t ∧ MemSame s t ∧
            Posted s t (fun x => x.dst = m.src ∧ x.typ = mtCollLate ∧ x.tc = 7 ∧ x.job = m.job ∧ x.body = [group, stream, round, n] ∧ x.data = bs)) ∧
        (old.group ≠ group ∨ old.op ≠ op → ∃ t, exec (.collJoin m group stream round op twice) s = .next t ∧ Contained s t ∧
          (∀ c ∈ s.cmds, c.pkt.cls = 9 → inUse c = true → c.pkt.job = m.job → (descOf s c).stream = stream → (descOf s c).round = round → ∀ z ∈ t.cmds, z.id ≠ c.id) ∧
          ∀ x ∈ t.rounds, ¬ (x.job = m.job ∧ x.stream = stream ∧ x.round = round)))) ∧
    (Arrives s mtCollSet m → ∀ c, collCmd s m.job group stream round = some c → collSt c = 1 → ∀ count set,
      (set = [] → ∃ u t, Heard s u m ∧ exec (.collSet m group stream round count set) s = .next t ∧ Ended (raiseCmd u c 0x2C group round 0) t c stBad (badAt 24 0)) ∧
      (set ≠ [] → Awaiting s (c.takes set count m.seq m.runs) → ∃ t, exec (.collSet m group stream round count set) s = .next t ∧
        t.cmds = (putCmd s (c.takes set count m.seq m.runs)).cmds ∧ Carried { s with cmds := t.cmds } t ∧ MemSame s t ∧
        ∀ p ∈ sendsTo s (c.takes set count m.seq m.runs), Out_ t (fun x => x.dst = p ∧ x.typ = mtCollData ∧ x.tc = (descOf s c).tc ∧ x.job = c.pkt.job ∧
          x.body = [collHash s c, (descOf s c).stream, (descOf s c).round]))) ∧
    (Arrives s mtCollData m → ∀ c data c', collCmd s m.job group stream round = some c → c.phase = .running → (∀ r ∈ c.remote, r.peer ≠ m.src) →
      c' = { c with remote := c.remote ++ [⟨m.src, m.seq * 256 + m.runs, data⟩] } →
      ((collSt c = 2 → Awaiting s c') → ∃ u, Heard s u m ∧ exec (.collData m group stream round data) s = .next (putCmd u c')) ∧
      (collSt c = 2 → ¬ Awaiting s c' → Near (collStaged s c') → (∃ k, c.origin = .ring k) → (atOwner c = true → Still s) →
        ∃ t, exec (.collData m group stream round data) s = .next t ∧ Recorded s c.id c' (collStaged s c') t ∧ CollDone s t c' (collStaged s c').writes)) ∧
    (Arrives s mtCollLate m → ∀ c, collCmd s m.job group stream round = some c → collSt c = 1 → ∀ count result,
      (count = 0 → ∃ u t, Heard s u m ∧ exec (.collLate m group stream round count result) s = .next t ∧
        Ended (raiseCmd u c 0x2B (s.cfg.peerId + b2n (descOf s c).addNext * 2 ^ 12 + stream * 2 ^ 16) round 0) t c stPeerLost 0) ∧
      (∀ c', c' = { c with aux := collAux 9 0 0 count, remote := [⟨m.src, 0, result⟩] } → count ≠ 0 → Near (lateStage s c' count result) → (∃ k, c.origin = .ring k) → (atOwner c = true → Still s) →
        ∃ t, exec (.collLate m group stream round count result) s = .next t ∧ Recorded s c.id c' (lateStage s c' count result) t ∧ CollDone s t c' (lateStage s c' count result).writes)) ∧
    (Arrives s mtCollFlip m → ∀ c tFlip, collCmd s m.job group stream round = some c → c.phase = .staged → c.aux.length = 5 →
      ∃ u, Heard s u m ∧ exec (.collFlip m group stream round tFlip) s = .next (putCmd u { c with aux := c.aux ++ [tFlip] })) ∧
    (Arrives s mtStagedAck m → ∀ c c', cmdOfMsg s m (fun _ => true) = some c → m.len = 0 → c.pkt.clsOp = 0x907 →
      c' = { c with acked := c.acked ++ [m.src], aux := if c.aux.length = 5 then c.aux.set 4 (max (c.aux.getD 4 1) (9 - m.hops)) else c.aux } →
      (c.phase = .staged → leads s c → (∀ p ∈ setOf c, p ≠ s.cfg.peerId → p ∈ c'.acked) → c.aux.length = 5 →
        ∃ t tFlip, exec (.stagedAck m) s = .next t ∧ t.cmds = (putCmd s { c' with aux := c'.aux ++ [tFlip] }).cmds ∧ s.time < tFlip ∧ Carried { s with cmds := t.cmds } t ∧ MemSame s t ∧
          ∀ p ∈ setOf c, p ≠ s.cfg.peerId → Out_ t (fun x => x.dst = p ∧ x.typ = mtCollFlip ∧ x.job = c.pkt.job ∧ x.body = [collHash s c, (descOf s c).stream, (descOf s c).round, tFlip])) ∧
      ((∃ p ∈ setOf c, p ≠ s.cfg.peerId ∧ p ∉ c'.acked) → ∃ u, Heard s u m ∧ exec (.stagedAck m) s = .next (putCmd u c'))))

-- lenders -----------------------------------------------------------------------------------------------------------------

/-- R205, R207, R210, R219, R237, R239, R271, R275, R278, R284, R286, R353, R356: what the messages between a borrower and a lender do. A read is answered with the bytes that serve it under the key of
the loan or of the shard, or refused; a write into a loan is staged and acknowledged once the pound has room for it, and published with COMMIT or dropped with CANCEL; a read's answer reaches the
run that asked, and an acknowledgement its command or its write-back; a refusal names the operand; a signal raises COUNT; AUTH_NAK ends the command; LOAN_END ends the borrower's loans once nothing
staged lies in them. -/
def Obligations.LendersServeBorrowers : Prop :=
  ∀ (s : State) (m : MsgHdr),
    (Arrives s mtReadReq m → ∀ addr len engine,
      (readKey s m addr len engine = none →
        ∃ t, exec (.readReq m addr len engine) s = .next t ∧ Carried s t ∧ MemSame s t ∧ Replied s t m mtReadResp m.tc [addr, 0] []) ∧
      (Uncaptured s → ∀ key, readKey s m addr len engine = some key →
        (poisonedIn s (served s (gLocal addr) len).1.off len = none →
          ∃ t, exec (.readReq m addr len engine) s = .next t ∧ Carried s t ∧ MemSame s t ∧ Replied s t m mtReadResp m.tc [addr, 0] (readBytes s key addr len)) ∧
        (∀ u, poisonedIn s (served s (gLocal addr) len).1.off len = some u →
          ∃ t, exec (.readReq m addr len engine) s = .next t ∧ Carried { s with memRegs := t.memRegs } t ∧ MemSame s t ∧ Replied s t m mtReadResp m.tc [addr, 1] []))) ∧
    (Arrives s mtReadResp m → ∀ addr data,
      (∀ c, data ≠ [] → cmdOfMsg s m (fun c => c.asked.contains (m.src, addr, data.length) && !(received c (m.src, addr, data.length))) = some c →
        ∃ u, Heard s u m ∧ exec (.readResp m addr data) s = .next (putCmd u { c with remote := c.remote ++ [⟨m.src, addr, data⟩] })) ∧
      (data ≠ [] → cmdOfMsg s m (fun c => c.asked.contains (m.src, addr, data.length) && !(received c (m.src, addr, data.length))) = none →
        ∃ u, Heard s u m ∧ exec (.readResp m addr data) s = .next u) ∧
      (∀ c, data = [] → cmdOfMsg s m (fun c => c.asked.any (fun a => a.1 == m.src && a.2.1 == addr && !(received c a))) = some c →
        ∃ u t, Heard s u m ∧ exec (.readResp m addr data) s = .next t ∧
          (m.len = 0 → Ended u t c stDenied (farSlot c m.src addr)) ∧ (m.len ≠ 0 → Ended u t c stEcc 0)) ∧
      (data = [] → cmdOfMsg s m (fun c => c.asked.any (fun a => a.1 == m.src && a.2.1 == addr && !(received c a))) = none →
        ∃ u, Heard s u m ∧ exec (.readResp m addr data) s = .next u)) ∧
    (Arrives s mtWrite m → ∀ addr data,
      (LentTo s m addr data.length →
        (∃ u t, Heard s u m ∧ exec (.write m addr data) s = .next t ∧
          Admitted { u with remoteSt := s.remoteSt ++ [⟨m.src, m.job, m.seq, m.runs, addr, data, m.ctx, false⟩] } t) ∧
        ((∀ r ∈ s.remoteSt, r.room = true) →
          (HasRoom s addr data.length →
            ∃ t, exec (.write m addr data) s = .next t ∧ t.remoteSt = s.remoteSt ++ [⟨m.src, m.job, m.seq, m.runs, addr, data, m.ctx, true⟩] ∧
              Carried { s with remoteSt := t.remoteSt } t ∧ MemSame s t ∧ Replied s t m mtStagedAck 7 [] []) ∧
          (¬ HasRoom s addr data.length → ∃ u, Heard s u m ∧
            exec (.write m addr data) s = .next { u with remoteSt := s.remoteSt ++ [⟨m.src, m.job, m.seq, m.runs, addr, data, m.ctx, false⟩] }))) ∧
      (¬ LentTo s m addr data.length →
        ∃ t, exec (.write m addr data) s = .next t ∧ Carried s t ∧ MemSame s t ∧ Replied s t m mtStagedAck 7 [1] [])) ∧
    (Arrives s mtStagedAck m →
      (∀ c, cmdOfMsg s m (fun _ => true) = some c →
        (m.len = 0 → c.pkt.clsOp ≠ 0x907 →
          ∃ u, Heard s u m ∧ exec (.stagedAck m) s = .next (putCmd u { c with acked := c.acked ++ [m.src] })) ∧
        (m.len ≠ 0 → ∀ w, (c.writes.filter (fun w => w.tgt.tier == 4 && w.tgt.peer == m.src))[(c.acked.filter (· == m.src)).length]? = some w →
          ∃ u t, Heard s u m ∧ exec (.stagedAck m) s = .next t ∧ Ended u t c stDenied (farSlot c m.src w.tgt.off))) ∧
      (cmdOfMsg s m (fun _ => true) = none →
        (s.objs.find? (wbAwaits m.job m.seq m.src) = none →
          ∃ u, Heard s u m ∧ exec (.stagedAck m) s = .next u) ∧
        (∀ d o t w, WbOf s m d o t w →
          (m.len ≠ 0 → ∃ u x, Heard s u m ∧ exec (.stagedAck m) s = .next x ∧ ObjIs u x d (o.setCopy t { o.copy t with state := 2, wb := none })) ∧
          (m.len = 0 → Uncaptured s → w.staged = true → (wbPeer o t).isSome = true → wbStop s o t = none → o.zip = false → w.acks + 1 < (cutFar (wbWrites s o t)).length →
            ∃ u x, Heard s u m ∧ exec (.stagedAck m) s = .next x ∧ ObjIs u x d (o.setCopy t { o.copy t with wb := some { w with acks := w.acks + 1 } }))))) ∧
    (Arrives s mtCommit m →
      ∃ u ks ps q t, Heard s u m ∧ exec (.commit m) s = .next t ∧ Admitted { u with
        mem := published u.mem (stagedOf s m), keys := ks, poison := ps, poundQ := q, remoteSt := s.remoteSt.filter (fun r => !(ofRun m r)),
        loans := settled s.loans (s.remoteSt.filter (fun r => !(ofRun m r))) } t) ∧
    (Arrives s mtCancel m → (∀ c ∈ s.cmds, c.pkt.cls = 9 → inUse c = true → c.pkt.job = m.job → m.src ∉ setOf c) →
      ∃ u t, Heard s u m ∧ exec (.cancel m) s = .next t ∧ Admitted { u with
        remoteSt := s.remoteSt.filter (fun r => !(ofRun m r)), loans := settled s.loans (s.remoteSt.filter (fun r => !(ofRun m r))) } t) ∧
    (Arrives s mtLockSignal m → ∀ l n, l < 16384 →
      ((getLock s l).job = m.job →
        ∃ t, exec (.lockSignal m l n) s = .next t ∧ Beside s t ∧ MemSame s t ∧ (getLock t l).count = min ((getLock s l).count + n) 0xFFFFFFFF ∧
          (getLock t l).job = m.job ∧ ∀ k, k ≠ l → (getLock t k).count = (getLock s k).count ∧ (getLock t k).job = (getLock s k).job) ∧
      ((getLock s l).job ≠ m.job → ∃ t, exec (.lockSignal m l n) s = .next t ∧ Carried s t ∧ MemSame s t)) ∧
    (Arrives s mtAuthNak m →
      (∀ c, cmdOfMsg s m (fun _ => true) = some c → ∃ u t, Heard s u m ∧ exec (.authNak m) s = .next t ∧ Ended u t c stDenied 0xFE) ∧
      (cmdOfMsg s m (fun _ => true) = none → ∃ u, Heard s u m ∧ exec (.authNak m) s = .next u)) ∧
    (Arrives s mtLoanEnd m →
      ∃ u, Heard s u m ∧ exec (.loanEnd m) s = .next { u with
        loans := settled (s.loans.map (fun l => if l.2.peer = m.src ∧ l.2.job = m.job then (l.1, { l.2 with ending := true }) else l)) s.remoteSt })

-- watches and service commands --------------------------------------------------------------------------------------------

/-- R66, R69, R78, R401, R405, R423, R433 to R435, R448, R482 to R485, R487, R488: the commits of the watches and of the service commands. A census ring, a watch of layers and a watch
of tensors are set up and stopped; a dump buffer is registered, and a held dump copied or discarded; an accepted object reverses the slot order, and a live image extends MR5 and pauses the dies; a report is published with its signatures; a
checkpoint issues one copy for each entry and commits with the entries' results when the copies have ended; a copy leaves the shard's image in host memory, or is skipped. -/
def Obligations.WatchesAndServiceCommandsCommit : Prop :=
  ∀ (s : State) (cid : Nat) (c : Cmd),
    (RingRuns s cid 0xA01 c → ∃ t, exec (.censusSetup cid) s = .next t ∧ Recorded s cid c Stg.none t ∧
      Beside { s with census := tput s.census c.pkt.job ((localise s (descAddr (c.pkt.slot 0))).code, censusEntries c.pkt) } t) ∧
    (RingRuns s cid 0xA02 c → ∃ t, exec (.censusStop cid) s = .next t ∧ Recorded s cid c Stg.none t ∧ Beside { s with census := tdel s.census c.pkt.job } t ∧ MemSame s t) ∧
    (RingRuns s cid 0xA03 c → ∃ t, exec (.watchSetup cid) s = .next t ∧ Recorded s cid c Stg.none t ∧ MemSame s t ∧
      Beside { s with
        watch := s.watch.filter (fun w => !(inLayers c.pkt.job (watchFirst c.pkt) (watchLast c.pkt) w.1)) ++
          (List.range (watchLast c.pkt + 1 - watchFirst c.pkt)).map (fun i => ((c.pkt.job, watchFirst c.pkt + i), (watchH c.pkt, watchW c.pkt))),
        shards := s.shards.map (fun h => if inLayers c.pkt.job (watchFirst c.pkt) (watchLast c.pkt) (h.2.job, h.2.layer) then (h.1, { h.2 with streak := 0 }) else h) } t) ∧
    (RingRuns s cid 0xA04 c → ∃ t, exec (.watchStop cid) s = .next t ∧ Recorded s cid c Stg.none t ∧ MemSame s t ∧
      Beside { s with watch := s.watch.filter (fun w => !(inLayers c.pkt.job (watchFirst c.pkt) (watchLast c.pkt) w.1)) } t) ∧
    (RingRuns s cid 0xA08 c → NoHolds s c →
      (twatchRefusal s c (watchBytes s c) = none → ∃ t, exec (.twatchSetup cid) s = .next t ∧ Recorded s cid c Stg.none t ∧
        Beside { s with twatch := s.twatch ++ [twatchOf c.pkt.job (watchBlock s c) (watchBytes s c)] } t) ∧
      (∀ r, twatchRefusal s c (watchBytes s c) = some r → ∃ t, exec (.twatchSetup cid) s = .next t ∧ Ended s t c r.1 r.2)) ∧
    (RingRuns s cid 0xA09 c →
      ((∃ w ∈ s.twatch, w.job = c.pkt.job ∧ w.block = watchBlock s c) → ∃ t, exec (.twatchStop cid) s = .next t ∧ Recorded s cid c Stg.none t ∧ MemSame s t ∧
        Beside { s with twatch := s.twatch.filter (fun w => !(w.job == c.pkt.job && w.block == watchBlock s c)) } t) ∧
      ((∀ w ∈ s.twatch, w.job = c.pkt.job → w.block ≠ watchBlock s c) → ∃ t, exec (.twatchStop cid) s = .next t ∧ Ended s t c stBad (badAt 24 0))) ∧
    (RingRuns s cid 0xF18 c → ∀ o l,
      (objAccepted s o = false → ∃ t, exec (.fwUpdate cid o l) s = .next t ∧ Ended s t c stBad (badAt 0xFF 0)) ∧
      (objAccepted s o = true → fwLive c.pkt = false → ∃ t, exec (.fwUpdate cid o l) s = .next t ∧ Recorded s cid c Stg.none t ∧ MemSame s t ∧
        Beside { s with trust := { s.trust with slotOrder := s.trust.slotOrder.set o.kind (!(s.trust.slotOrder.getD o.kind false)) } } t ∧ ∀ d, (getDie t d).kept = (getDie s d).kept) ∧
      (objAccepted s o = true → fwLive c.pkt = true → o.kind = 1 → o.level = s.trust.imgLevel → ∃ t, exec (.fwUpdate cid o l) s = .next t ∧ Recorded s cid c Stg.none t ∧ MemSame s t ∧
        Beside { s with trust := { s.trust with
          slotOrder := s.trust.slotOrder.set 1 (!(s.trust.slotOrder.getD 1 false)), mrs := measured s.trust.mrs 5 o.hash, svns := s.trust.svns.set 1 o.svn } } t ∧
        ∀ d, (getDie t d).kept = if d ∈ diesUp s then { (getDie s d).kept with paused := true } else (getDie s d).kept)) ∧
    (RingRuns s cid 0xF20 c → ∀ r bs ws, r = report s c (cBytes s c (descAddr (c.pkt.slot 1)) 32) →
      bs = r ++ fitBytes 384 (Config.signRsa r) ++ fitBytes 35664 (Config.signSlh r) → ws = placeWrites s c [⟨descAddr (c.pkt.slot 0), bs⟩] → (∀ w ∈ ws, w.tgt.tier ≠ 4) →
      ∃ t, exec (.attest cid) s = .next t ∧ Recorded s cid c { Stg.none with writes := ws } t ∧ Beside s t ∧ (Still s → t.mem = published s.mem ws ∧ t.host = s.host)) ∧
    (RingRuns s cid 0xF19 c →
      (c.aux = [] → ∃ t new, exec (.checkpoint cid) s = .next t ∧ { t with cmds := s.cmds, nextId := s.nextId } = s ∧
        t.cmds = (putCmd s { c with aux := 1 :: (List.replicate (ckHeader s c).count [3, 0, 0]).flatten }).cmds ++ new ∧ t.nextId = s.nextId + (ckHeader s c).count ∧
        new.length = (ckHeader s c).count ∧ ∀ i, i < (ckHeader s c).count → ∃ x, new[i]? = some x ∧ x.id = s.nextId + i ∧ x.origin = .shardCopy cid i ∧ x.sess = c.sess ∧
          x.pkt.job = c.pkt.job ∧ x.phase = .waiting ∧ x.pkt.opcode = 0xF190) ∧
      (c.aux ≠ [] → (∃ x ∈ s.cmds, copyOf cid x = true) → exec (.checkpoint cid) s = .next s) ∧
      (c.aux ≠ [] → c.writes = [] → c.status = 0 → c.detail = 0 → c.ieee = 0 → (∀ x ∈ s.cmds, copyOf cid x = false) →
        ∃ t, exec (.checkpoint cid) s = .next t ∧ Recorded s cid c Stg.none t ∧ Beside s t ∧
          (Still s → t.host = s.host ∧ t.mem = (List.range (c.aux.length / 3)).foldl (fun m i => memWrite m ((localise s (descAddr (c.pkt.slot 0))).off + 64 + 32 * i + 24)
            (leBytes 4 (c.aux.getD (2 + 3 * i) 0) ++ leBytes 1 (c.aux.getD (1 + 3 * i) 0) ++ leBytes 1 (c.aux.getD (3 + 3 * i) 0))) s.mem))) ∧
    (∀ parent e p h a en, findCmd s cid = some c → c.origin = .shardCopy parent e → c.phase = .waiting → c.pins = [] → cmdPeers c = [] → c.pkt.waitThresh = 0 → c.pkt.opcode = 0xF190 → parent ≠ cid → findCmd s parent = some p →
      a = shardAddr s c.pkt → tfind s.shards a = some h → shardBusy s c.id a = false →
      (∀ r ∈ shardRegions h, regionBad s (dieOfAddr a) r = false) → en = ckEntry s p e → (ckHeader s p).restore = false →
      ((ckHeader s p).all = false → h.image = some (fieldAt en 8 8, h.version) →
        exec (.shardCopy cid) s = .next (putCmd (dropCmd s cid) { p with aux := ((p.aux.set (1 + 3 * e) 1).set (2 + 3 * e) h.version).set (3 + 3 * e) 0 })) ∧
      ((ckHeader s p).all = true ∨ h.image ≠ some (fieldAt en 8 8, h.version) → ckSize en < imageLen (ckHeader s p).zip h →
        exec (.shardCopy cid) s = .next (putCmd (dropCmd s cid) { p with aux := ((p.aux.set (1 + 3 * e) 2).set (2 + 3 * e) 0).set (3 + 3 * e) 1 })) ∧
      ((ckHeader s p).all = true ∨ h.image ≠ some (fieldAt en 8 8, h.version) → (ckImage en).tier = 5 → imageLen (ckHeader s p).zip h ≤ ckSize en → 256 * ceilDiv (imageLen (ckHeader s p).zip h) 256 ≤ hbmPoundBytes s →
        (∀ q ∈ imagePlanes h, poisonedIn s (regionAt s q.1 q.2.1).off q.2.1 = none) → (∃ u, freeMove s (dieOfAddr a) = some u) →
        256 * ceilDiv (imageLen (ckHeader s p).zip h) 256 ≤ poundFree s (dieOfAddr a) true →
        ∃ t, exec (.shardCopy cid) s = .next t ∧ (∀ z ∈ t.cmds, z.id ≠ cid) ∧
          findCmd t parent = some { p with aux := ((p.aux.set (1 + 3 * e) 0).set (2 + 3 * e) h.version).set (3 + 3 * e) 0 } ∧
          t.shards = tput s.shards a { h with image := some (fieldAt en 8 8, h.version) } ∧
          Beside { s with shards := t.shards, cmds := s.cmds.filter (fun z => !(z.id == cid)) } t ∧
          (Still s → t.mem = s.mem ∧ t.host = memWrite s.host (ckImage en).off (imageBytes s (ckHeader s p).zip (jobKey s c.sess h.job) h)))) ∧
    (RingRuns s cid 0xF1C c →
      (∀ r, dumpRefusal s c = some r → ∃ t, exec (.dumpBuffer cid) s = .next t ∧ Ended s t c r.1 r.2) ∧
      (dumpRefusal s c = none → ∃ t u, exec (.dumpBuffer cid) s = .next t ∧ Recorded s cid c Stg.none t ∧ Beside s u ∧ MemSame s u ∧
        Beside { s with dump := { s.dump with
          buffer := some (c.sess, (descAddr (c.pkt.slot 0)).off), cause := if bit (c.pkt.slot 1) 1 then 0 else s.dump.cause, parts := if bit (c.pkt.slot 1) 1 then 0 else s.dump.parts,
          time := if bit (c.pkt.slot 1) 1 then 0 else s.dump.time } } t ∧
        ((bit (c.pkt.slot 1) 0 = false ∨ s.dump.parts = 0) → MemSame s t) ∧
        (bit (c.pkt.slot 1) 0 = true → s.dump.parts ≠ 0 → Still s → t.mem = s.mem ∧ t.host = (copyDump u (descAddr (c.pkt.slot 0)).off).host)))

-- registers ---------------------------------------------------------------------------------------------------------------

/-- R6, R7, R9, R34, R266, R267, R380, R381, R494, R496 to R498, R509, R517 to R519: what the accesses of the agents do to the registers, and what the inputs of the management
controller do. A ring takes its configuration and its tail, or is disabled with a fault; a write of a register's own width reaches it and any other raises REG_ACCESS; a read answers
the value and clears the fields of access code RC; the samples set the measurements, the holds and the trips; the I3C bus reads the map and takes an address. -/
def Obligations.RegistersAreReadAndWritten : Prop :=
  ∀ s : State,
    -- rings
    (∀ via r v, v < 2 ^ 32 →
      (ringWritable s via r = true →
        ((getRing s r).enable = true →
          ∃ t, exec (.ringCfg via r v) s = .next t ∧
            (bit v 8 = true → OnlyRing s t r { getRing s r with replyIrq := bit v 9 }) ∧
            (bit v 8 = false → OnlyRing { s with bufs := t.bufs } t r { getRing s r with replyIrq := bit v 9, enable := false, active := false } ∧
              t.bufs = s.bufs.filter (fun b => match b.forRing with | some (i, _) => !(i == r) | none => true))) ∧
        ((getRing s r).enable = false → bit v 8 = false →
          ∃ t, exec (.ringCfg via r v) s = .next t ∧
            OnlyRing s t r { getRing s r with replyIrq := bit v 9, log2 := if 6 ≤ fld v 0 5 ∧ fld v 0 5 ≤ 16 then fld v 0 5 else (getRing s r).log2 }) ∧
        ((getRing s r).enable = false → bit v 8 = true →
          (6 ≤ fld v 0 5 → fld v 0 5 ≤ 16 → (getRing s r).bind < 64 →
            (∀ a ∈ ringAreas (setRing s r { getRing s r with log2 := fld v 0 5, replyIrq := bit v 9 }) r, areaUse s r a = .usable) →
            ∃ t, exec (.ringCfg via r v) s = .next t ∧
              OnlyRing s t r { getRing s r with log2 := fld v 0 5, replyIrq := bit v 9, enable := true, active := true, tail := 0, head := 0, rtail := 0, rhead := 0,
                                                enables := (getRing s r).enables + 1, marks := [] }) ∧
          (fld v 0 5 < 6 ∨ 16 < fld v 0 5 ∨ 64 ≤ (getRing s r).bind →
            ∃ t, exec (.ringCfg via r v) s = .next t ∧ RingFaulted s t r 0 { getRing s r with log2 := fld v 0 5, replyIrq := bit v 9 })) ∧
        ((getRing s r).enable = true → 2 ^ (getRing s r).log2 < (v + 2 ^ 32 - (getRing s r).head) % 2 ^ 32 →
          ∃ t, exec (.ringTail via r v) s = .next t ∧ RingFaulted s t r 1 { getRing s r with tail := v }) ∧
        ((getRing s r).enable = false ∨ (v + 2 ^ 32 - (getRing s r).head) % 2 ^ 32 ≤ 2 ^ (getRing s r).log2 →
          ∃ t, exec (.ringTail via r v) s = .next t ∧ OnlyRing s t r { getRing s r with tail := v })) ∧
      (ringWritable s via r = false →
        (∀ i, i = Instr.ringCfg via r v ∨ i = .ringTail via r v →
          ((∀ p, via ≠ .sessionPage p) → exec i s = .next s) ∧ (∀ p, via = .sessionPage p → ∃ t, exec i s = .next t ∧ Told s t)))) ∧
    -- writes
    (∀ off w v,
      (s.power.linkUp = false ∨ s.power.cfgDone = false ∨ mirrorSplit off w = false → exec (.registerWrite .bar0 off w v) s = .next s) ∧
      (s.power.linkUp = true → s.power.cfgDone = true → mirrorSplit off w = true → ∃ t, exec (.registerWrite .bar0 off w v) s = .next t ∧ Told s t)) ∧
    (∀ off w v, v < 2 ^ 32 →
      (off = 0xF00 → w = 4 → (bit v 0 = true → exec (.registerWrite .i3c off w v) s = exec .moduleReset s) ∧
        (bit v 0 = false → bit v 1 = true → exec (.registerWrite .i3c off w v) s = exec .standby s)) ∧
      (off ≠ 0xF00 ∨ w ≠ 4 → exec (.registerWrite .i3c off w v) s = .next s)) ∧
    (∀ p off w v, Paged s →
      (∀ x, regHit (pageVal s p) off w = .exact x → v < 2 ^ (8 * w) →
        (off < 0x2000 → off % 64 = 0 → (getRing s (off / 64)).enable = false →
          ∃ t, exec (.registerWrite (.sessionPage p) off w v) s = .next t ∧ OnlyRing s t (off / 64) { getRing s (off / 64) with base := v }) ∧
        (off < 0x2000 → off % 64 = 0 → (getRing s (off / 64)).enable = true → exec (.registerWrite (.sessionPage p) off w v) s = .next s) ∧
        (off < 0x2000 → off % 64 = 0x20 →
          ∃ t, exec (.registerWrite (.sessionPage p) off w v) s = .next t ∧ OnlyRing s t (off / 64) { getRing s (off / 64) with rhead := v }) ∧
        (off < 0x2000 → off % 64 = 0x28 →
          ∃ t f, exec (.registerWrite (.sessionPage p) off w v) s = .next t ∧ OnlyRing s t (off / 64) { getRing s (off / 64) with fault := f } ∧
            ∀ b, bit f b = (bit (getRing s (off / 64)).fault b && !bit v b)) ∧
        (0x2000 ≤ off → exec (.registerWrite (.sessionPage p) off w v) s = .next s)) ∧
      ((∀ x, regHit (pageVal s p) off w ≠ .exact x) → ∃ t, exec (.registerWrite (.sessionPage p) off w v) s = .next t ∧ Told s t)) ∧
    (∀ via off d o w v, Reaches s via → mapWindow off = some (d, o) → blockOpen s d o = true →
      (d < 8 → o = 0x430 → w = 4 → v < 2 ^ 32 →
        ∃ t x, exec (.registerWrite via off w v) s = .next t ∧ { t with memRegs := s.memRegs } = s ∧ getMemRegs t d = { getMemRegs s d with scrub := x } ∧
          (∀ e, e ≠ d → getMemRegs t e = getMemRegs s e) ∧ fld x 0 2 = fld v 0 2 ∧
          fld x 8 8 = (if 1 ≤ fld v 8 8 ∧ fld v 8 8 ≤ 24 then fld v 8 8 else fld (getMemRegs s d).scrub 8 8) ∧
          fld x 16 8 = (if 1 ≤ fld v 16 8 ∧ fld v 16 8 ≤ 168 then fld v 16 8 else fld (getMemRegs s d).scrub 16 8)) ∧
      (d = 8 → o = 0x810 → w = 4 → v < 2 ^ 32 → exec (.registerWrite via off w v) s = exec (.pwrCtrl via v) s) ∧
      (untabled d o = true →
        exec (.registerWrite via off w v) s = .next s ∧ ∃ x, exec (.registerReadClear via off w) s = .next { s with fresh := s.fresh + 1, answers := s.answers ++ [.reg x] }) ∧
      (hiddenRing s via d o w = true → exec (.registerReadClear via off w) s = .next { s with answers := s.answers ++ [.reg 0] }) ∧
      (untabled d o = false → (∀ x, regHit (regVal s d) o w ≠ .exact x) →
        (∃ t, exec (.registerWrite via off w v) s = .next t ∧ Told s t) ∧
        ∃ t, exec (.registerReadClear via off w) s = .next t ∧ ∃ u, Told s u ∧ t = { u with answers := u.answers ++ [.reg 0] })) ∧
    -- reads
    (∀ p off w x, Paged s → regHit (pageVal s p) off w = .exact x → exec (.registerReadClear (.sessionPage p) off w) s = .next { s with answers := s.answers ++ [.reg x] }) ∧
    (∀ via off d o w, Reaches s via → mapWindow off = some (d, o) → blockOpen s d o = true →
      (d < 8 → o = 0x400 → w = 8 → ∃ t, exec (.registerReadClear via off w) s = .next t ∧ t.answers = s.answers ++ [.reg (getMemRegs s d).hbmCe] ∧
        { t with memRegs := s.memRegs, answers := s.answers } = s ∧ getMemRegs t d = { getMemRegs s d with hbmCe := 0 } ∧ ∀ e, e ≠ d → getMemRegs t e = getMemRegs s e) ∧
      (d = 8 → o = 0x80C → w = 4 → exec (.registerReadClear via off w) s =
        .next { s with answers := s.answers ++ [.reg s.power.peak], power := { s.power with peak := 0 } }) ∧
      (d < 8 → o = 0x420 → w = 8 → exec (.registerReadClear via off w) s = .next { s with answers := s.answers ++ [.reg (getMemRegs s d).errAddr] })) ∧
    (∀ off w,
      (s.power.linkUp = true → s.power.cfgDone = true →
        (off = 0x38000 → w = 4 → exec (.registerReadClear .bar0 off w) s = .next { s with answers := s.answers ++ [.reg (modStat s)] }) ∧
        (mirrorSplit off w = true → ∃ t u, exec (.registerReadClear .bar0 off w) s = .next t ∧ Told s u ∧ t = { u with answers := u.answers ++ [.reg 0] }) ∧
        (off ≠ 0x38000 ∨ w ≠ 4 → mirrorSplit off w = false →
          ∃ x, exec (.registerReadClear .bar0 off w) s = .next { s with fresh := s.fresh + 1, answers := s.answers ++ [.reg x] })) ∧
      (s.power.linkUp = false ∨ s.power.cfgDone = false → exec (.registerReadClear .bar0 off w) s = .next s)) ∧
    -- power
    (∀ via v, Reaches s via →
      ∃ t, exec (.pwrCtrl via v) s = .next t ∧ AutoStaged { s with power := { s.power with ctrl := v % 4, autoPower := s.power.autoPower && bit v 0, autoTherm := s.power.autoTherm && bit v 1 } } t) ∧
    (∀ m : InputMeas, s.power.off = false → ∀ z, z = { s with power := { s.power with
        volt := m.mV % 65536, curr := m.cA % 65536, powr := m.avg1ms % 65536 + m.avg1s % 65536 * 65536, peak := max s.power.peak (min m.avg100us 65535),
        inRange := decide (38000 ≤ m.mV) && decide (m.mV ≤ 54000) } } →
      (38000 ≤ m.mV → m.mV ≤ 54000 → m.cA ≤ 25000 → m.overNs ≤ 10000000 → m.regFault = false → m.avg10ms ≤ 6400 → m.avg100us ≤ 7000 → s.power.autoPower = false →
        exec (.inputSample m) s = .next z) ∧
      (m.mV < 33000 ∨ 58000 < m.mV ∨ 25000 < m.cA ∨ 10000000 < m.overNs → ∃ t, exec (.inputSample m) s = .next t ∧ t.power.off = true ∧ t.power.phase = 0 ∧ t.mem = [] ∧ t.cmds = [] ∧ t.host = s.host) ∧
      (33000 ≤ m.mV → m.mV ≤ 58000 → m.cA ≤ 25000 → m.overNs ≤ 10000000 → m.regFault = true ∨ (m.mV < 36000 ∨ 56000 < m.mV) ∧ 200000 < m.bandNs → s.power.phase ≠ 0xF →
        ∃ u, Stopped z u 4 ∧ exec (.inputSample m) s = .next u) ∧
      (36000 ≤ m.mV → m.mV ≤ 56000 → m.cA ≤ 25000 → m.overNs ≤ 10000000 → m.regFault = false → s.power.autoPower = true → m.avg10ms ≤ 6400 → m.avg100us ≤ 7000 → m.avg1s < 5800 →
        38000 ≤ m.mV → m.mV ≤ 54000 → 1000000000 ≤ m.bandNs →
        ∃ t, exec (.inputSample m) s = .next t ∧ AutoStaged { z with power := { z.power with autoPower := false } } t) ∧
      (36000 ≤ m.mV → m.mV ≤ 56000 → m.cA ≤ 25000 → m.overNs ≤ 10000000 → m.regFault = false →
        6400 < m.avg10ms ∨ 7000 < m.avg100us ∨ (m.mV < 38000 ∨ 54000 < m.mV) ∧ 1000000 < m.bandNs → s.power.autoPower = false → bit s.power.ctrl 0 = true →
        ∃ n t, exec (.inputSample m) s = .next t ∧ AutoStaged { z with power := { z.power with holdCnt := n, ibi := s.power.ibi ++ [s.power.phase], autoPower := true } } t ∧
          fld n 0 16 = min (fld s.power.holdCnt 0 16 + 1) 0xFFFF ∧ fld n 16 16 = fld s.power.holdCnt 16 16)) ∧
    (∀ k hbm (x : Int) cool, s.power.off = false → ∀ z, z = { s with power := if hbm then { s.power with tempStack := s.power.tempStack.set k (codeOf 16 x) } else { s.power with tempDie := s.power.tempDie.set k (codeOf 16 x) } } →
      (x < (if hbm then 900 else 950) → s.power.autoTherm = false → exec (.temperatureSample k hbm x cool) s = .next z) ∧
      ((if hbm then 1000 else 1100) ≤ x → s.power.phase ≠ 0xF →
        ∃ u, Stopped z u 5 ∧ exec (.temperatureSample k hbm x cool) s = .next u) ∧
      ((if hbm then 900 else 950) ≤ x → x < (if hbm then 1000 else 1100) → s.power.autoTherm = false → bit s.power.ctrl 1 = true →
        ∃ n t, exec (.temperatureSample k hbm x cool) s = .next t ∧ AutoStaged { z with power := { z.power with holdCnt := n, ibi := s.power.ibi ++ [s.power.phase], autoTherm := true } } t ∧
          fld n 16 16 = min (fld s.power.holdCnt 16 16 + 1) 0xFFFF ∧ fld n 0 16 = fld s.power.holdCnt 0 16) ∧
      (x < (if hbm then 900 else 950) → s.power.autoTherm = true → 1000000000 ≤ cool →
        ∃ t, exec (.temperatureSample k hbm x cool) s = .next t ∧ AutoStaged { z with power := { z.power with autoTherm := false } } t)) ∧
    -- the management bus
    (s.power.off = false ∨ s.power.phase = 9 →
      (∀ a, exec (.dynamicAddressAssignment a) s = .next { s with power := { s.power with i3cAddr := some a } }) ∧
      (∀ o, o + 16 ≤ 0x100 → exec (.i3cReadPointer o) s = .next { s with power := { s.power with i3cPtr := o + 16 }, answers := s.answers ++ [.i3c (zeros 16)] }) ∧
      (exec (.i3cReadPointer 0xE00) s = .next { s with power := { s.power with i3cPtr := 0xE10 }, answers := s.answers ++ [.i3c (fitBytes 16 (ascii "WTV8-2048"))] }) ∧
      (∀ w, w ≤ 4 → exec (.registerReadClear .i3c 0x80C w) s = .next { s with answers := s.answers ++ [.i3c (leBytes w s.power.peak)] }))
end

