-- ==== Sys2Proof/Laws/Memory.lean ====
section
/-! SUPPORT. Laws of the sparse tables and of memory: every operation keeps the canonical form, a read after a write of the same place
gives what was written, and a write leaves every other place alone. -/

namespace Sys2Proof.Machine

-- the canonical form of a table ------------------------------------------------------------------------------------------

/-- A table is canonical when no entry is the default, the first index lies below all others, and the rest is canonical. -/
theorem tableWf_cons {α : Type} [DecidableEq α] {d : α} {k : Nat} {v : α} {r : List (Nat × α)} :
    tableWf d ((k, v) :: r) = true ↔ v ≠ d ∧ (∀ e ∈ r, k < e.1) ∧ tableWf d r = true := by
  induction r generalizing k v with
  | nil => simp [tableWf]
  | cons e r ih =>
    obtain ⟨k', v'⟩ := e
    simp only [tableWf, Bool.and_eq_true, decide_eq_true_eq, Bool.not_eq_true', decide_eq_false_iff_not, List.mem_cons]
    constructor
    · rintro ⟨⟨hv, hk⟩, hr⟩
      refine ⟨hv, ?_, hr⟩
      rintro e (rfl | he)
      · exact hk
      · exact Nat.lt_trans hk ((ih.mp hr).2.1 e he)
    · rintro ⟨hv, hlt, hr⟩
      exact ⟨⟨hv, hlt (k', v') (Or.inl rfl)⟩, hr⟩

/-- An index of a table that has an entry put was there before or is the one put. -/
theorem mem_tput {α : Type} {t : List (Nat × α)} {i : Nat} {x : α} {e : Nat × α} (h : e ∈ tput t i x) : e ∈ t ∨ e.1 = i := by
  induction t with
  | nil => simp_all [tput]
  | cons y r ih =>
    obtain ⟨k, v⟩ := y
    simp only [tput] at h
    split at h
    · rcases List.mem_cons.mp h with rfl | h
      · exact .inl (List.mem_cons_self ..)
      · exact (ih h).imp (List.mem_cons_of_mem _) id
    · split at h <;> rcases List.mem_cons.mp h with rfl | h
      · exact .inr rfl
      · exact .inl (List.mem_cons_of_mem _ h)
      · exact .inr rfl
      · exact .inl h

/-- Putting an entry that is not the default keeps a table canonical. -/
theorem tput_wf {α : Type} [DecidableEq α] {d : α} {t : List (Nat × α)} (i : Nat) {x : α} (hx : x ≠ d) (h : tableWf d t = true) :
    tableWf d (tput t i x) = true := by
  induction t with
  | nil => simpa [tput, tableWf] using hx
  | cons y r ih =>
    obtain ⟨k, v⟩ := y
    obtain ⟨hv, hlt, hr⟩ := tableWf_cons.mp h
    simp only [tput]
    split
    · refine tableWf_cons.mpr ⟨hv, fun e he => ?_, ih hr⟩
      rcases mem_tput he with he | he
      · exact hlt e he
      · omega
    · split
      · rename_i hk
        subst hk
        exact tableWf_cons.mpr ⟨hx, hlt, hr⟩
      · refine tableWf_cons.mpr ⟨hx, fun e he => ?_, h⟩
        rcases List.mem_cons.mp he with rfl | he
        · simp only; omega
        · have := hlt e he; omega

/-- Leaving entries out keeps a table canonical. -/
theorem tableWf_filter {α : Type} [DecidableEq α] {d : α} {t : List (Nat × α)} (p : Nat × α → Bool) (h : tableWf d t = true) :
    tableWf d (t.filter p) = true := by
  induction t with
  | nil => rfl
  | cons y r ih =>
    obtain ⟨k, v⟩ := y
    obtain ⟨hv, hlt, hr⟩ := tableWf_cons.mp h
    simp only [List.filter]
    split
    · exact tableWf_cons.mpr ⟨hv, fun e he => hlt e (List.mem_filter.mp he).1, ih hr⟩
    · exact ih hr

/-- Replacing an entry keeps a table canonical. -/
theorem tset_wf {α : Type} [DecidableEq α] {d : α} {t : List (Nat × α)} (i : Nat) (x : α) (h : tableWf d t = true) :
    tableWf d (tset d t i x) = true := by
  unfold tset
  split
  · exact tableWf_filter _ h
  · exact tput_wf i ‹_› h

-- what a table holds after a write -----------------------------------------------------------------------------------

/-- The entry read at an index after one is put. -/
theorem tget_tput {α : Type} {d : α} (t : List (Nat × α)) (i j : Nat) (x : α) :
    tget d (tput t i x) j = if i = j then x else tget d t j := by
  induction t with
  | nil => simp only [tput, tget]
  | cons y r ih =>
    obtain ⟨k, v⟩ := y
    simp only [tput]
    split
    · simp only [tget, ih]
      split <;> split <;> simp_all
    · split
      · subst_vars; simp only [tget]; split <;> simp_all
      · simp only [tget]

/-- The entry found at an index after one is put. -/
theorem tfind_tput {α : Type} (t : List (Nat × α)) (i j : Nat) (x : α) :
    tfind (tput t i x) j = if i = j then some x else tfind t j := by
  induction t with
  | nil => simp only [tput, tfind]
  | cons y r ih =>
    obtain ⟨k, v⟩ := y
    simp only [tput]
    split
    · simp only [tfind, ih]
      split <;> split <;> simp_all
    · split
      · subst_vars; simp only [tfind]; split <;> simp_all
      · simp only [tfind]

/-- The entry read at an index after one is removed. -/
theorem tget_tdel {α : Type} {d : α} (t : List (Nat × α)) (i j : Nat) : tget d (tdel t i) j = if i = j then d else tget d t j := by
  induction t with
  | nil => simp only [tdel, List.filter, tget, ite_self]
  | cons y r ih =>
    obtain ⟨k, v⟩ := y
    simp only [tdel, List.filter] at *
    by_cases hk : k = i
    · subst hk; simp only [beq_self_eq_true, Bool.not_true, ih, tget]; split <;> rfl
    · have : (!(k == i)) = true := by simp [hk]
      simp only [this, tget, ih]
      by_cases hj : k = j
      · subst hj; simp [Ne.symm hk]
      · simp only [if_neg hj]

/-- The entry found at an index after one is removed. -/
theorem tfind_tdel {α : Type} (t : List (Nat × α)) (i j : Nat) : tfind (tdel t i) j = if i = j then none else tfind t j := by
  induction t with
  | nil => simp only [tdel, List.filter, tfind, ite_self]
  | cons y r ih =>
    obtain ⟨k, v⟩ := y
    simp only [tdel, List.filter] at *
    by_cases hk : k = i
    · subst hk; simp only [beq_self_eq_true, Bool.not_true, ih, tfind]; split <;> rfl
    · have : (!(k == i)) = true := by simp [hk]
      simp only [this, tfind, ih]
      by_cases hj : k = j
      · subst hj; simp [Ne.symm hk]
      · simp only [if_neg hj]

/-- The entry read at an index after one is replaced. -/
theorem tget_tset {α : Type} [DecidableEq α] {d : α} (t : List (Nat × α)) (i j : Nat) (x : α) :
    tget d (tset d t i x) j = if i = j then x else tget d t j := by
  unfold tset
  split
  · subst_vars; exact tget_tdel t i j
  · exact tget_tput t i j x

-- memory -----------------------------------------------------------------------------------------------------------------

theorem memPut_wf {m : List Host.Cell} (a : Nat) (b : Byte) (h : Memory.wf m = true) : Memory.wf (memPut m a b) = true := tset_wf a b h

theorem memWrite_wf {m : List Host.Cell} (a : Nat) (bs : List Byte) (h : Memory.wf m = true) : Memory.wf (memWrite m a bs) = true := by
  induction bs generalizing m a with
  | nil => exact h
  | cons b bs ih => exact ih (a + 1) (memPut_wf a b h)

theorem memFilter_wf {m : List Host.Cell} (p : Host.Cell → Bool) (h : Memory.wf m = true) : Memory.wf (m.filter p) = true := tableWf_filter p h

theorem memZero_wf {m : List Host.Cell} (a n : Nat) (h : Memory.wf m = true) : Memory.wf (memZero m a n) = true := memFilter_wf _ h

/-- The byte read after one is written. -/
theorem memByte_memPut {m : List Host.Cell} (a x : Nat) (b : Byte) :
    memByte (memPut m a b) x = if a = x then b else memByte m x := tget_tset m a x b

/-- The byte read after consecutive bytes are written. -/
theorem memByte_memWrite {m : List Host.Cell} (a x : Nat) (bs : List Byte) :
    memByte (memWrite m a bs) x = if a ≤ x ∧ x < a + bs.length then bs.getD (x - a) 0 else memByte m x := by
  induction bs generalizing m a with
  | nil =>
    have h : ¬ (a ≤ x ∧ x < a + ([] : List Byte).length) := by rw [List.length_nil]; omega
    rw [if_neg h]; rfl
  | cons b bs ih =>
    simp only [memWrite, ih (a + 1), memByte_memPut a x b, List.length_cons]
    by_cases h1 : a = x
    · subst h1; rw [if_neg (by omega), if_pos rfl, if_pos (by omega), Nat.sub_self]; rfl
    · by_cases h2 : a + 1 ≤ x ∧ x < a + 1 + bs.length
      · obtain ⟨k, hk⟩ : ∃ k, x = a + 1 + k := ⟨x - (a + 1), by omega⟩
        subst hk
        have e1 : a + 1 + k - (a + 1) = k := by omega
        have e2 : a + 1 + k - a = k + 1 := by omega
        rw [if_pos h2, if_pos (by omega), e1, e2]; rfl
      · rw [if_neg h2, if_neg h1, if_neg (by omega)]

/-- A write leaves every byte outside its range alone. -/
theorem memByte_memWrite_outside {m : List Host.Cell} (a x : Nat) (bs : List Byte) (hx : x < a ∨ a + bs.length ≤ x) :
    memByte (memWrite m a bs) x = memByte m x := by
  rw [memByte_memWrite a x bs, if_neg (by omega)]

/-- What consecutive bytes read after they are written. -/
theorem memRead_memWrite {m : List Host.Cell} (a : Nat) (bs : List Byte) : memRead (memWrite m a bs) a bs.length = bs := by
  have key : ∀ (n k : Nat), k + n = bs.length → memRead (memWrite m a bs) (a + k) n = bs.drop k := by
    intro n
    induction n with
    | zero => intro k hk; simp [memRead]; omega
    | succ n ih =>
      intro k hk
      have hlt : k < bs.length := by omega
      rw [memRead, Nat.add_assoc, ih (k + 1) (by omega), memByte_memWrite a (a + k) bs, if_pos (by omega), Nat.add_sub_cancel_left,
        List.drop_eq_getElem_cons hlt, List.getD_eq_getElem?_getD, List.getElem?_eq_getElem hlt]
      rfl
  simpa using key bs.length 0 (by omega)

/-- The byte read after a range is made zero. -/
theorem memByte_memZero {m : List Host.Cell} (a n x : Nat) : memByte (memZero m a n) x = if a ≤ x ∧ x < a + n then 0 else memByte m x := by
  induction m with
  | nil => simp [memZero, memByte, tget]
  | cons e m ih =>
    obtain ⟨k, v⟩ := e
    simp only [memZero, memByte, List.filter] at ih ⊢
    by_cases hk : a ≤ k ∧ k < a + n
    · simp only [hk.1, hk.2, decide_true, Bool.and_self, Bool.not_true, ih, tget]
      by_cases hx : k = x
      · subst hx; simp [hk]
      · simp [hx]
    · have : (!(decide (a ≤ k) && decide (k < a + n))) = true := by
        simp only [Bool.not_eq_true', Bool.and_eq_false_iff, decide_eq_false_iff_not]; omega
      simp only [this, tget, ih]
      by_cases hx : k = x
      · subst hx; simp [hk]
      · simp [hx]

/-- A choice that answers has made it. -/
theorem of_ite_some {α : Type} {c : Prop} [Decidable c] {x : Option α} {u : α} (h : (if c then x else none) = some u) : x = some u := by
  split at h
  · exact h
  · exact nomatch h

end Sys2Proof.Machine
end

