-- ==== Sys2Proof/Laws/Apart.lean ====
section
/-! SUPPORT. What leaves configuration, trust, sessions and the rest of `Apart` alone: one lemma `<name>_apart` per operation, part one. -/

set_option linter.unusedVariables false

namespace Sys2Proof.Machine

theorem Apart.refl (s : State) : Apart s s := by constructor <;> first | rfl | exact fun _ => rfl
theorem Apart.trans {a b c : State} (h : Apart a b) (g : Apart b c) : Apart a c :=
  ⟨g.remoteSt.trans h.remoteSt, g.loans.trans h.loans, g.links.trans h.links, g.sessions.trans h.sessions, g.counts.trans h.counts, g.cxl.trans h.cxl, g.nextSes.trans h.nextSes, g.dump.trans h.dump, g.cfg.trans h.cfg, g.tap.trans h.tap, g.trust.trans h.trust, g.modEpoch.trans h.modEpoch⟩
/-- Other fields written. -/
theorem Apart.set {s x : State} (h : Apart s x) {pending' time' mem' host' keys' poison' poundQ' memRegs' cmds' nextId' serial' rings' locks' jobs' ctxs' queueRe' ended' flights' fsets' shards' scheds' pools' objs' pfs' census' watch' twatch' suspects' dies' roots' engines' testing' testQ' changes' ports' domain' rounds' streams' sent' held' transit' bufs' msix' answers' sesQ' modQ' sics' cnts' traces' power' fresh'} :
    Apart s ⟨pending', time', mem', host', keys', poison', poundQ', x.remoteSt, memRegs', cmds', nextId', serial', rings', locks', jobs', ctxs', queueRe', ended', flights', fsets', shards', scheds', x.loans, pools', objs', pfs', census', watch', twatch', suspects', x.links, dies', roots', engines', testing', testQ', changes', x.modEpoch, ports', domain', rounds', streams', sent', held', transit', x.sessions, x.counts, bufs', x.cxl, msix', answers', x.nextSes, sesQ', modQ', sics', cnts', traces', x.dump, x.cfg, power', x.tap, x.trust, fresh'⟩ := ⟨h.remoteSt, h.loans, h.links, h.sessions, h.counts, h.cxl, h.nextSes, h.dump, h.cfg, h.tap, h.trust, h.modEpoch⟩
theorem Apart.ite {s a b : State} {c : Prop} [Decidable c] (ha : Apart s a) (hb : Apart s b) : Apart s (if c then a else b) := by
  split
  · exact ha
  · exact hb
theorem Apart.foldl {α : Type} {s x : State} {g : State → α → State} (l : List α) (h : Apart s x) (hg : ∀ t a, Apart s t → Apart s (g t a)) :
    Apart s (l.foldl g x) := by
  induction l generalizing x with
  | nil => exact h
  | cons a l ih => exact ih (hg x a h)
theorem Apart.foldlP {α β : Type} {s : State} {x : State × β} {g : State × β → α → State × β} (l : List α) (h : Apart s x.1)
    (hg : ∀ t a, Apart s t.1 → Apart s (g t a).1) : Apart s (l.foldl g x).1 := by
  induction l generalizing x with
  | nil => exact h
  | cons a l ih => exact ih (hg x a h)
def ApartO (s : State) (o : Host.Outcome State Fault Refusal) : Prop := ∀ t, o = .next t → Apart s t
theorem ApartO.next {s t : State} (h : Apart s t) : ApartO s (.next t) := fun _ e => by cases e; exact h
theorem ApartO.stop {s : State} {o : Host.Outcome State Fault Refusal} (h : ∀ t, o ≠ .next t) : ApartO s o := fun t e => absurd e (h t)
theorem ApartO.ite {s : State} {a b : Host.Outcome State Fault Refusal} {c : Prop} [Decidable c] (ha : ApartO s a) (hb : ApartO s b) :
    ApartO s (if c then a else b) := by
  split
  · exact ha
  · exact hb
def ApartR (s : State) (r : StartRes) : Prop := match r with | .go t _ => Apart s t | _ => True
theorem ApartR.go {s t : State} {c : Cmd} (h : Apart s t) : ApartR s (.go t c) := h
theorem ApartR.out {s t : State} {r : StartRes} {c : Cmd} (h : ApartR s r) (e : r = .go t c) : Apart s t := by
  subst e
  exact h
theorem ApartR.ite {s : State} {a b : StartRes} {c : Prop} [Decidable c] (ha : ApartR s a) (hb : ApartR s b) : ApartR s (if c then a else b) := by
  split
  · exact ha
  · exact hb

theorem wrLocal_apart {s : State} (a0 : State) (a1 : ℕ) (a2 : ℕ) (a3 : List Byte) (h0 : Apart s a0) : Apart s (wrLocal a0 a1 a2 a3) := by
  delta wrLocal
  refine Apart.set ?_
  assumption

theorem syncPool_apart {s : State} (a0 : State) (a1 : ℕ) (h0 : Apart s a0) : Apart s (syncPool a0 a1) := by
  delta syncPool
  split
  · assumption
  · extract_lets v0 v1
    clear_value v0 v1
    apply wrLocal_apart
    apply wrLocal_apart
    assumption

theorem putObj_apart {s : State} (a0 : State) (a1 : ℕ) (a2 : ResObj) (h0 : Apart s a0) : Apart s (putObj a0 a1 a2) := by
  delta putObj
  extract_lets v0 v1 v2 v3 v4
  have k5 : Apart s v0 := by
    unfold v0
    refine Apart.set ?_
    assumption
  clear_value v0
  clear_value v1
  have k6 : Apart s v2 := by
    unfold v2
    apply wrLocal_apart
    assumption
  clear_value v2
  have k7 : Apart s v3 := by
    unfold v3
    apply wrLocal_apart
    assumption
  clear_value v3
  have k8 : Apart s v4 := by
    unfold v4
    apply wrLocal_apart
    assumption
  clear_value v4
  apply syncPool_apart
  apply syncPool_apart
  assumption

theorem setCnt_apart {s : State} (a0 : State) (a1 : ℕ) (a2 : CntBlock) (h0 : Apart s a0) : Apart s (setCnt a0 a1 a2) := by
  delta setCnt
  refine Apart.set ?_
  assumption

theorem setSic_apart {s : State} (a0 : State) (a1 : ℕ) (a2 : Sic) (h0 : Apart s a0) : Apart s (setSic a0 a1 a2) := by
  delta setSic
  refine Apart.set ?_
  assumption

theorem fire_apart {s : State} (a0 : State) (a1 : ℕ) (a2 : ℕ) (h0 : Apart s a0) : Apart s (fire a0 a1 a2) := by
  delta fire
  refine Apart.ite ?_ ?_
  · assumption
  · apply setSic_apart
    assumption

theorem count_apart {s : State} (a0 : State) (a1 : ℕ) (a2 : ℕ × ℕ) (a3 : ℕ) (a4 : ℕ) (a5 : Option (ℕ × ℕ)) (h0 : Apart s a0) : Apart s (count a0 a1 a2 a3 a4 a5) := by
  delta count
  refine Apart.ite ?_ ?_
  · assumption
  · extract_lets v0 v1 v2
    clear_value v0 v1
    have k3 : Apart s v2 := by
      unfold v2
      apply setCnt_apart
      assumption
    clear_value v2
    refine Apart.ite ?_ ?_
    · assumption
    · apply fire_apart
      assumption

theorem wrHost_apart {s : State} (a0 : State) (a1 : ℕ) (a2 : List Byte) (h0 : Apart s a0) : Apart s (wrHost a0 a1 a2) := by
  delta wrHost
  refine Apart.set ?_
  assumption

theorem setPort_apart {s : State} (a0 : State) (a1 : ℕ) (a2 : Port) (h0 : Apart s a0) : Apart s (setPort a0 a1 a2) := by
  delta setPort
  refine Apart.set ?_
  assumption

theorem setTrace_apart {s : State} (a0 : State) (a1 : ℕ) (a2 : Trace) (h0 : Apart s a0) : Apart s (setTrace a0 a1 a2) := by
  delta setTrace
  refine Apart.set ?_
  assumption

theorem trPut_apart {s : State} (a0 : State) (a1 : Trace) (a2 : ℕ) (a3 : List Byte) (h0 : Apart s a0) : Apart s (trPut a0 a1 a2 a3) := by
  delta trPut
  extract_lets v0
  clear_value v0
  split
  · assumption
  · refine Apart.ite ?_ ?_
    · apply wrLocal_apart
      assumption
    · assumption

theorem traceRec_apart {s : State} (a0 : State) (a1 : ℕ) (a2 : TrRec) (h0 : Apart s a0) : Apart s (traceRec a0 a1 a2) := by
  delta traceRec
  extract_lets v0 v1 v2 v3 v4 v5 v6 v7 v8 v9 v10 v11 v12 v13 v14 v15 v16 v17 v18 v19 v20 v21 v22
  clear_value v0 v1 v2 v3 v4 v5 v6
  have k23 : Apart s v7 := by
    unfold v7
    apply trPut_apart
    assumption
  clear_value v7
  clear_value v8 v9 v10 v11 v12 v13 v14 v15
  have k24 : Apart s v16.1 := by
    unfold v16
    split
    · dsimp only
      apply fire_apart
      assumption
    · split
      · dsimp only
        apply trPut_apart
        assumption
      · dsimp only
        assumption
  clear_value v16
  have k25 : Apart s v17 := by
    unfold v17
    assumption
  clear_value v17
  clear_value v18 v19 v20 v21
  have k26 : Apart s v22 := by
    unfold v22
    apply count_apart
    assumption
  clear_value v22
  refine Apart.ite ?_ ?_
  · assumption
  · refine Apart.ite ?_ ?_
    · apply fire_apart
      apply setTrace_apart
      assumption
    · apply setTrace_apart
      assumption

theorem transmit_apart {s : State} (a0 : State) (a1 : ℕ) (a2 : Msg) (h0 : Apart s a0) : Apart s (transmit a0 a1 a2) := by
  delta transmit
  extract_lets v0 v1 v2 v3
  have k4 : Apart s v0 := by
    unfold v0
    apply traceRec_apart
    assumption
  clear_value v0
  have k5 : Apart s v1 := by
    unfold v1
    refine Apart.ite ?_ ?_
    · apply count_apart
      assumption
    · assumption
  clear_value v1
  clear_value v2 v3
  apply setPort_apart
  refine Apart.set ?_
  assumption

theorem offer_apart {s : State} (a0 : State) (a1 : Msg) (h0 : Apart s a0) : Apart s (offer a0 a1) := by
  delta offer
  refine Apart.ite ?_ ?_
  · refine Apart.set ?_
    assumption
  · split
    · apply transmit_apart
      assumption
    · refine Apart.set ?_
      assumption

theorem countPaced_apart {s : State} (a0 : State) (a1 : Msg) (h0 : Apart s a0) : Apart s (countPaced a0 a1) := by
  delta countPaced
  split
  · refine Apart.ite ?_ ?_
    · apply setPort_apart
      assumption
    · assumption
  · assumption

theorem send_apart {s : State} (a0 : State) (a1 : Msg) (h0 : Apart s a0) : Apart s (send a0 a1) := by
  delta send
  refine Apart.ite ?_ ?_
  · assumption
  · extract_lets v0 v1 v2 v3 v4
    clear_value v0 v1 v2 v3
    have k5 : Apart s v4 := by
      unfold v4
      refine Apart.set ?_
      assumption
    clear_value v4
    apply offer_apart
    apply countPaced_apart
    assumption

theorem sendWb_apart {s : State} (a0 : State) (a1 : ResObj) (a2 : ℕ) (a3 : ℕ) (a4 : ℕ) (a5 : ℕ) (a6 : List ℕ) (a7 : List Byte) (h0 : Apart s a0) : Apart s (sendWb a0 a1 a2 a3 a4 a5 a6 a7) := by
  delta sendWb
  apply send_apart
  assumption

theorem stageWb_apart {s : State} (a0 : State) (a1 : ℕ) (a2 : ℕ) (a3 : ℕ) (h0 : Apart s a0) : Apart s (stageWb a0 a1 a2 a3) := by
  delta stageWb
  split
  · assumption
  · refine Apart.ite ?_ ?_
    · extract_lets v0 v1
      have k2 : Apart s v0 := by
        unfold v0
        split
        · refine Apart.foldl _ ?_ (fun t3 b3 h3 => ?_)
          · assumption
          · apply sendWb_apart
            assumption
        · assumption
      clear_value v0
      clear_value v1
      apply putObj_apart
      assumption
    · apply putObj_apart
      assumption

theorem setMemRegs_apart {s : State} (a0 : State) (a1 : ℕ) (a2 : MemRegs) (h0 : Apart s a0) : Apart s (setMemRegs a0 a1 a2) := by
  delta setMemRegs
  refine Apart.set ?_
  assumption

theorem fireMsix_apart {s : State} (a0 : State) (a1 : ℕ) (h0 : Apart s a0) : Apart s (fireMsix a0 a1) := by
  delta fireMsix
  refine Apart.ite ?_ ?_
  · refine Apart.set ?_
    assumption
  · assumption

theorem deliver_apart {s : State} (a0 : State) (a1 : Event) (a2 : Option ℕ) (h0 : Apart s a0) : Apart s (deliver a0 a1 a2) := by
  delta deliver
  extract_lets v0 v1 v2 v3 v4 v5
  clear_value v0
  have k6 : Apart s v1.1 := by
    unfold v1
    split
    · dsimp only
      assumption
    · extract_lets v7
      clear_value v7
      dsimp only
      refine Apart.set ?_
      assumption
  clear_value v1
  clear_value v2 v3
  have k8 : Apart s v4 := by
    unfold v4
    assumption
  clear_value v4
  have k9 : Apart s v5.1 := by
    unfold v5
    split
    · dsimp only
      refine Apart.set ?_
      assumption
    · assumption
  clear_value v5
  refine Apart.ite ?_ ?_
  · apply fireMsix_apart
    assumption
  · assumption

theorem setDie_apart {s : State} (a0 : State) (a1 : ℕ) (a2 : Die) (h0 : Apart s a0) : Apart s (setDie a0 a1 a2) := by
  delta setDie
  refine Apart.set ?_
  assumption

theorem raiseOp_apart {s : State} (a0 : State) (a1 : Option (ℕ × ℕ)) (a2 : ℕ) (a3 : ℕ) (a4 : ℕ) (a5 : Bool) (a6 : Option ℕ) (a7 : ℕ) (a8 : ℕ) (a9 : ℕ) (a10 : ℕ) (a11 : ℕ) (a12 : ℕ) (h0 : Apart s a0) : Apart s (raiseOp a0 a1 a2 a3 a4 a5 a6 a7 a8 a9 a10 a11 a12) := by
  delta raiseOp
  extract_lets v0 v1 v2 v3 v4 v5 v6 v7
  clear_value v0 v1 v2
  have k8 : Apart s v3 := by
    unfold v3
    apply setDie_apart
    assumption
  clear_value v3
  have k9 : Apart s v4 := by
    unfold v4
    apply count_apart
    assumption
  clear_value v4
  have k10 : Apart s v5 := by
    unfold v5
    apply traceRec_apart
    assumption
  clear_value v5
  have k11 : Apart s v6 := by
    unfold v6
    apply fire_apart
    assumption
  clear_value v6
  clear_value v7
  refine Apart.ite ?_ ?_
  · refine Apart.set ?_
    assumption
  · apply deliver_apart
    assumption

theorem raiseFor_apart {s : State} (a0 : State) (a1 : ℕ) (a2 : ℕ) (a3 : Bool) (a4 : Option ℕ) (a5 : ℕ) (a6 : ℕ) (a7 : ℕ) (a8 : ℕ) (a9 : ℕ) (a10 : ℕ) (h0 : Apart s a0) : Apart s (raiseFor a0 a1 a2 a3 a4 a5 a6 a7 a8 a9 a10) := by
  delta raiseFor
  apply raiseOp_apart
  assumption

theorem raise_apart {s : State} (a0 : State) (a1 : ℕ) (a2 : ℕ) (a3 : ℕ) (a4 : ℕ) (a5 : ℕ) (a6 : ℕ) (a7 : ℕ) (a8 : ℕ) (h0 : Apart s a0) : Apart s (raise a0 a1 a2 a3 a4 a5 a6 a7 a8) := by
  delta raise
  apply raiseFor_apart
  assumption

theorem raiseMod_apart {s : State} (a0 : State) (a1 : ℕ) (a2 : ℕ) (a3 : ℕ) (a4 : ℕ) (a5 : ℕ) (h0 : Apart s a0) : Apart s (raiseMod a0 a1 a2 a3 a4 a5) := by
  delta raiseMod
  apply raise_apart
  assumption

theorem markRetired_apart {s : State} (a0 : State) (a1 : ℕ) (h0 : Apart s a0) : Apart s (markRetired a0 a1) := by
  delta markRetired
  extract_lets v0 v1 v2 v3
  clear_value v0 v1 v2 v3
  refine Apart.ite ?_ ?_
  · assumption
  · apply raiseMod_apart
    apply setMemRegs_apart
    assumption

theorem memError_apart {s : State} (a0 : State) (a1 : ℕ) (a2 : ℕ) (a3 : ℕ) (a4 : ℕ) (a5 : ℕ) (a6 : Option ℕ) (a7 : ℕ) (h0 : Apart s a0) : Apart s (memError a0 a1 a2 a3 a4 a5 a6 a7) := by
  delta memError
  extract_lets v0 v1 v2 v3 v4
  clear_value v0 v1
  have k5 : Apart s v2 := by
    unfold v2
    apply setMemRegs_apart
    assumption
  clear_value v2
  have k6 : Apart s v3 := by
    unfold v3
    refine Apart.ite ?_ ?_
    · apply fire_apart
      assumption
    · assumption
  clear_value v3
  have k7 : Apart s v4 := by
    unfold v4
    apply raiseFor_apart
    assumption
  clear_value v4
  refine Apart.ite ?_ ?_
  · apply markRetired_apart
    assumption
  · assumption

theorem clearCopy_apart {s : State} (a0 : State) (a1 : ℕ) (a2 : ℕ) (h0 : Apart s a0) : Apart s (clearCopy a0 a1 a2) := by
  delta clearCopy
  split
  · assumption
  · apply putObj_apart
    apply count_apart
    assumption

theorem removeCopy_apart {s : State} (a0 : State) (a1 : ℕ) (a2 : ℕ) (h0 : Apart s a0) : Apart s (removeCopy a0 a1 a2) := by
  delta removeCopy
  split
  · assumption
  · extract_lets v0 v1
    clear_value v0
    have k2 : Apart s v1 := by
      unfold v1
      split
      · apply memError_apart
        assumption
      · assumption
    clear_value v1
    refine Apart.ite ?_ ?_
    · assumption
    · refine Apart.ite ?_ ?_
      · apply clearCopy_apart
        assumption
      · split
        · apply putObj_apart
          assumption
        · apply stageWb_apart
          refine Apart.set ?_
          assumption

theorem unpinUse_apart {s : State} (a0 : State) (a1 : ℕ) (a2 : ℕ) (h0 : Apart s a0) : Apart s (unpinUse a0 a1 a2) := by
  delta unpinUse
  split
  · assumption
  · extract_lets v0 v1 v2
    clear_value v0 v1
    have k3 : Apart s v2 := by
      unfold v2
      apply putObj_apart
      assumption
    clear_value v2
    refine Apart.ite ?_ ?_
    · apply removeCopy_apart
      assumption
    · assumption

theorem dropPromotion_apart {s : State} (a0 : State) (a1 : ℕ) (a2 : ℕ) (h0 : Apart s a0) : Apart s (dropPromotion a0 a1 a2) := by
  delta dropPromotion
  split
  · assumption
  · refine Apart.ite ?_ ?_
    · apply putObj_apart
      assumption
    · assumption

theorem sendCmd_apart {s : State} (a0 : State) (a1 : Cmd) (a2 : ℕ) (a3 : ℕ) (a4 : ℕ) (a5 : List ℕ) (a6 : List Byte) (h0 : Apart s a0) : Apart s (sendCmd a0 a1 a2 a3 a4 a5 a6) := by
  delta sendCmd
  apply send_apart
  assumption

theorem dropQueued_apart {s : State} (a0 : State) (a1 : Cmd) (h0 : Apart s a0) : Apart s (dropQueued a0 a1) := by
  delta dropQueued
  refine Apart.set ?_
  assumption

theorem releaseRun_apart {s : State} (a0 : State) (a1 : Cmd) (h0 : Apart s a0) : Apart s (releaseRun a0 a1) := by
  delta releaseRun
  extract_lets v0 v1 v2
  have k3 : Apart s v0 := by
    unfold v0
    refine Apart.ite ?_ ?_
    · apply dropQueued_apart
      assumption
    · assumption
  clear_value v0
  have k4 : Apart s v1 := by
    unfold v1
    refine Apart.foldl _ ?_ (fun t5 b5 h5 => ?_)
    · assumption
    · apply unpinUse_apart
      assumption
  clear_value v1
  have k6 : Apart s v2 := by
    unfold v2
    refine Apart.ite ?_ ?_
    · apply dropPromotion_apart
      assumption
    · assumption
  clear_value v2
  refine Apart.foldl _ ?_ (fun t7 b7 h7 => ?_)
  · assumption
  · apply sendCmd_apart
    assumption

theorem jobCount_apart {s : State} (a0 : State) (a1 : ℕ) (a2 : ℕ) (a3 : ℕ) (a4 : ℕ) (a5 : ℕ) (h0 : Apart s a0) : Apart s (jobCount a0 a1 a2 a3 a4 a5) := by
  delta jobCount
  split
  · assumption
  · extract_lets v0 v1 v2 v3
    clear_value v0 v1 v2 v3
    refine Apart.ite ?_ ?_
    · refine Apart.ite ?_ ?_
      · apply wrHost_apart
        assumption
      · assumption
    · apply wrLocal_apart
      assumption

theorem endStall_apart {s : State} (a0 : State) (a1 : Cmd) (h0 : Apart s a0) : Apart s (endStall a0 a1).1 := by
  delta endStall
  split
  · dsimp only
    assumption
  · extract_lets v0 v1 v2 v3 v4
    clear_value v0
    have k5 : Apart s v1 := by
      unfold v1
      apply jobCount_apart
      assumption
    clear_value v1
    have k6 : Apart s v2 := by
      unfold v2
      refine Apart.ite ?_ ?_
      · assumption
      · apply jobCount_apart
        assumption
    clear_value v2
    clear_value v3
    have k7 : Apart s v4 := by
      unfold v4
      apply traceRec_apart
      assumption
    clear_value v4
    dsimp only
    assumption

theorem engineDone_apart {s : State} (a0 : State) (a1 : Cmd) (h0 : Apart s a0) : Apart s (engineDone a0 a1) := by
  delta engineDone
  split
  · refine Apart.ite ?_ ?_
    · apply fire_apart
      assumption
    · refine Apart.ite ?_ ?_
      · apply fire_apart
        assumption
      · refine Apart.ite ?_ ?_
        · apply fire_apart
          assumption
        · assumption
  · assumption

theorem seqAttn_apart {s : State} (a0 : State) (a1 : Cmd) (h0 : Apart s a0) : Apart s (seqAttn a0 a1) := by
  delta seqAttn
  split
  · refine Apart.ite ?_ ?_
    · apply fire_apart
      assumption
    · assumption
  · assumption

theorem drift_apart {s : State} (a0 : State) (a1 : Option (ℕ × ℕ)) (h0 : Apart s a0) : Apart s (drift a0 a1) := by
  delta drift
  refine Apart.foldl _ ?_ (fun t0 b0 h0 => ?_)
  · assumption
  · refine Apart.foldl _ ?_ (fun t1 b1 h1 => ?_)
    · assumption
    · extract_lets v2
      clear_value v2
      refine Apart.ite ?_ ?_
      · apply count_apart
        refine Apart.set ?_
        assumption
      · assumption

theorem dropCmd_apart {s : State} (a0 : State) (a1 : ℕ) (h0 : Apart s a0) : Apart s (dropCmd a0 a1) := by
  delta dropCmd
  refine Apart.set ?_
  assumption

theorem setRing_apart {s : State} (a0 : State) (a1 : ℕ) (a2 : Ring) (h0 : Apart s a0) : Apart s (setRing a0 a1 a2) := by
  delta setRing
  refine Apart.set ?_
  assumption

theorem dropRingBufs_apart {s : State} (a0 : State) (a1 : ℕ) (h0 : Apart s a0) : Apart s (dropRingBufs a0 a1) := by
  delta dropRingBufs
  refine Apart.set ?_
  assumption

theorem ringFault_apart {s : State} (a0 : State) (a1 : ℕ) (a2 : ℕ) (h0 : Apart s a0) : Apart s (ringFault a0 a1 a2) := by
  delta ringFault
  extract_lets v0 v1 v2 v3 v4
  clear_value v0
  have k5 : Apart s v1 := by
    unfold v1
    apply setRing_apart
    assumption
  clear_value v1
  have k6 : Apart s v2 := by
    unfold v2
    apply dropRingBufs_apart
    assumption
  clear_value v2
  have k7 : Apart s v3 := by
    unfold v3
    refine Apart.ite ?_ ?_
    · assumption
    · apply fire_apart
      assumption
  clear_value v3
  have k8 : Apart s v4 := by
    unfold v4
    refine Apart.ite ?_ ?_
    · refine Apart.set ?_
      assumption
    · assumption
  clear_value v4
  apply raiseFor_apart
  assumption

theorem wrPlain_apart {s : State} (a0 : State) (a1 : ℕ) (a2 : List Byte) (h0 : Apart s a0) : Apart s (wrPlain a0 a1 a2) := by
  delta wrPlain
  refine Apart.set ?_
  assumption

theorem writeReply_apart {s : State} (a0 : State) (a1 : ℕ) (a2 : List Byte) (h0 : Apart s a0) : Apart s (writeReply a0 a1 a2) := by
  delta writeReply
  extract_lets v0 v1 v2 v3 v4 v5 v6 v7 v8
  clear_value v0 v1 v2 v3 v4 v5
  have k9 : Apart s v6 := by
    unfold v6
    refine Apart.ite ?_ ?_
    · refine Apart.ite ?_ ?_
      · apply wrHost_apart
        apply wrHost_apart
        assumption
      · apply wrHost_apart
        assumption
    · apply wrPlain_apart
      assumption
  clear_value v6
  have k10 : Apart s v7 := by
    unfold v7
    apply setRing_apart
    assumption
  clear_value v7
  have k11 : Apart s v8 := by
    unfold v8
    apply fire_apart
    assumption
  clear_value v8
  refine Apart.ite ?_ ?_
  · apply setRing_apart
    apply ringFault_apart
    assumption
  · refine Apart.ite ?_ ?_
    · refine Apart.ite ?_ ?_
      · apply fireMsix_apart
        assumption
      · assumption
    · assumption

theorem resetRing_apart {s : State} (a0 : State) (a1 : ℕ) (h0 : Apart s a0) : Apart s (resetRing a0 a1) := by
  delta resetRing
  apply dropRingBufs_apart
  apply setRing_apart
  assumption

theorem endUnbind_apart {s : State} (a0 : State) (a1 : ℕ) (h0 : Apart s a0) : Apart s (endUnbind a0 a1) := by
  delta endUnbind
  extract_lets v0
  clear_value v0
  refine Apart.ite ?_ ?_
  · apply fireMsix_apart
    apply resetRing_apart
    assumption
  · assumption

theorem finishCmd_apart {s : State} (a0 : State) (a1 : Cmd) (h0 : Apart s a0) : Apart s (finishCmd a0 a1) := by
  delta finishCmd
  extract_lets v0 v1
  have k2 : Apart s v0 := by
    unfold v0
    apply dropCmd_apart
    assumption
  clear_value v0
  have k3 : Apart s v1 := by
    unfold v1
    refine Apart.set ?_
    assumption
  clear_value v1
  split
  · extract_lets v4 v5
    clear_value v4
    have k6 : Apart s v5 := by
      unfold v5
      refine Apart.ite ?_ ?_
      · apply setRing_apart
        assumption
      · apply writeReply_apart
        assumption
    clear_value v5
    apply endUnbind_apart
    assumption
  · assumption

theorem setLock_apart {s : State} (a0 : State) (a1 : ℕ) (a2 : Lock) (h0 : Apart s a0) : Apart s (setLock a0 a1 a2) := by
  delta setLock
  refine Apart.set ?_
  assumption

theorem putCmd_apart {s : State} (a0 : State) (a1 : Cmd) (h0 : Apart s a0) : Apart s (putCmd a0 a1) := by
  delta putCmd
  refine Apart.set ?_
  assumption

theorem grantClaim_apart {s : State} (a0 : State) (a1 : ℕ) (a2 : ℕ) (a3 : ℕ) (h0 : Apart s a0) : Apart s (grantClaim a0 a1 a2 a3) := by
  delta grantClaim
  split
  · assumption
  · extract_lets v0 v1 v2 v3 v4
    clear_value v0
    have k5 : Apart s v1 := by
      unfold v1
      apply setLock_apart
      assumption
    clear_value v1
    have k6 : Apart s v2.1 := by
      unfold v2
      apply endStall_apart
      assumption
    clear_value v2
    clear_value v3
    have k7 : Apart s v4 := by
      unfold v4
      apply putCmd_apart
      assumption
    clear_value v4
    apply traceRec_apart
    assumption

theorem evalClaims_apart {s : State} (a0 : Nat) (a1 : Nat) (a2 : State) (h0 : Apart s a2) : Apart s (evalClaims a0 a1 a2) := by
  induction a1 generalizing a2 with
  | zero => exact h0
  | succ n ih =>
    rw [evalClaims]
    split
    · exact h0
    · split
      · exact ih _ (setLock_apart _ _ _ h0)
      · split
        · exact ih _ (grantClaim_apart _ _ _ _ h0)
        · exact h0

theorem reclaim_apart {s : State} (a0 : State) (a1 : ℕ) (h0 : Apart s a0) : Apart s (reclaim a0 a1) := by
  delta reclaim
  apply evalClaims_apart
  assumption

theorem settleSetters_apart {s : State} (a0 : State) (a1 : ℕ) (h0 : Apart s a0) : Apart s (settleSetters a0 a1) := by
  delta settleSetters
  extract_lets v0
  clear_value v0
  refine Apart.ite ?_ ?_
  · apply reclaim_apart
    apply setLock_apart
    assumption
  · assumption

theorem leaveQueue_apart {s : State} (a0 : State) (a1 : ℕ) (a2 : ℕ) (h0 : Apart s a0) : Apart s (leaveQueue a0 a1 a2) := by
  delta leaveQueue
  extract_lets v0
  clear_value v0
  apply setLock_apart
  assumption

theorem returnClaim_apart {s : State} (a0 : State) (a1 : ℕ) (a2 : ℕ) (h0 : Apart s a0) : Apart s (returnClaim a0 a1 a2) := by
  delta returnClaim
  extract_lets v0
  clear_value v0
  apply setLock_apart
  assumption

theorem putPf_apart {s : State} (a0 : State) (a1 : ℕ) (a2 : PfSched) (h0 : Apart s a0) : Apart s (putPf a0 a1 a2) := by
  delta putPf
  extract_lets v0 v1 v2
  have k3 : Apart s v0 := by
    unfold v0
    refine Apart.set ?_
    assumption
  clear_value v0
  clear_value v1 v2
  apply wrLocal_apart
  apply wrLocal_apart
  apply wrLocal_apart
  assumption

theorem promotionFault_apart {s : State} (a0 : State) (a1 : ℕ) (a2 : ℕ) (a3 : ℕ) (h0 : Apart s a0) : Apart s (promotionFault a0 a1 a2 a3) := by
  delta promotionFault
  split
  · assumption
  · extract_lets v0 v1 v2 v3
    have k4 : Apart s v0 := by
      unfold v0
      split
      · apply unpinUse_apart
        assumption
      · assumption
    clear_value v0
    clear_value v1 v2
    have k5 : Apart s v3 := by
      unfold v3
      apply putPf_apart
      assumption
    clear_value v3
    refine Apart.ite ?_ ?_
    · apply putPf_apart
      assumption
    · apply raise_apart
      assumption

theorem copyEnded_apart {s : State} (a0 : State) (a1 : ℕ) (a2 : ℕ) (a3 : ℕ × ℕ × ℕ) (h0 : Apart s a0) : Apart s (copyEnded a0 a1 a2 a3) := by
  delta copyEnded
  split
  · assumption
  · apply putCmd_apart
    assumption

theorem endCopies_apart {s : State} (a0 : State) (a1 : ℕ) (h0 : Apart s a0) : Apart s (endCopies a0 a1) := by
  delta endCopies
  extract_lets v0
  have k1 : Apart s v0 := by
    unfold v0
    refine Apart.foldl _ ?_ (fun t2 b2 h2 => ?_)
    · assumption
    · apply releaseRun_apart
      assumption
  clear_value v0
  refine Apart.set ?_
  assumption

theorem endCmd_apart {s : State} (a0 : State) (a1 : Cmd) (a2 : ℕ) (a3 : ℕ) (h0 : Apart s a0) : Apart s (endCmd a0 a1 a2 a3) := by
  delta endCmd
  extract_lets v0 v1 v2 v3 v4 v5 v6 v7 v8 v9 v10 v11 v12 v13 v14 v15 v16
  have k17 : Apart s v0 := by
    unfold v0
    apply releaseRun_apart
    assumption
  clear_value v0
  clear_value v1
  have k18 : Apart s v2.1 := by
    unfold v2
    apply endStall_apart
    assumption
  clear_value v2
  have k19 : Apart s v3 := by
    unfold v3
    assumption
  clear_value v3
  clear_value v4
  have k20 : Apart s v5 := by
    unfold v5
    refine Apart.ite ?_ ?_
    · apply traceRec_apart
      assumption
    · assumption
  clear_value v5
  have k21 : Apart s v6 := by
    unfold v6
    apply traceRec_apart
    assumption
  clear_value v6
  have k22 : Apart s v7 := by
    unfold v7
    refine Apart.ite ?_ ?_
    · apply jobCount_apart
      assumption
    · assumption
  clear_value v7
  have k23 : Apart s v8 := by
    unfold v8
    split
    · refine Apart.ite ?_ ?_
      · apply count_apart
        assumption
      · assumption
    · assumption
  clear_value v8
  have k24 : Apart s v9 := by
    unfold v9
    apply engineDone_apart
    apply seqAttn_apart
    assumption
  clear_value v9
  have k25 : Apart s v10 := by
    unfold v10
    refine Apart.ite ?_ ?_
    · apply drift_apart
      assumption
    · assumption
  clear_value v10
  clear_value v11
  have k26 : Apart s v12 := by
    unfold v12
    apply finishCmd_apart
    assumption
  clear_value v12
  have k27 : Apart s v13 := by
    unfold v13
    split
    · apply settleSetters_apart
      apply leaveQueue_apart
      assumption
    · assumption
  clear_value v13
  clear_value v14
  have k28 : Apart s v15 := by
    unfold v15
    refine Apart.ite ?_ ?_
    · apply returnClaim_apart
      assumption
    · assumption
  clear_value v15
  have k29 : Apart s v16 := by
    unfold v16
    refine Apart.ite ?_ ?_
    · assumption
    · apply reclaim_apart
      apply leaveQueue_apart
      assumption
  clear_value v16
  split
  · apply promotionFault_apart
    assumption
  · apply copyEnded_apart
    assumption
  · apply endCopies_apart
    assumption
  · assumption

theorem abortEff_apart {s : State} (a0 : State) (a1 : Cmd) (h0 : Apart s a0) : Apart s (abortEff a0 a1) := by
  delta abortEff
  refine Apart.ite ?_ ?_
  · assumption
  · split
    · apply endCmd_apart
      assumption
    · refine Apart.foldl _ ?_ (fun t0 b0 h0 => ?_)
      · assumption
      · apply setRing_apart
        assumption

theorem makeCtx_apart {s : State} (a0 : State) (a1 : ℕ) (a2 : ℕ) (a3 : ℕ) (h0 : Apart s a0) : Apart s (makeCtx a0 a1 a2 a3) := by
  delta makeCtx
  split
  · assumption
  · refine Apart.ite ?_ ?_
    · refine Apart.set ?_
      assumption
    · assumption

theorem eccEnd_apart {s : State} (a0 : State) (a1 : Cmd) (a2 : ℕ) (h0 : Apart s a0) : Apart s (eccEnd a0 a1 a2) := by
  delta eccEnd
  apply endCmd_apart
  apply memError_apart
  assumption

theorem raiseCmd_apart {s : State} (a0 : State) (a1 : Cmd) (a2 : ℕ) (a3 : ℕ) (a4 : ℕ) (a5 : ℕ) (h0 : Apart s a0) : Apart s (raiseCmd a0 a1 a2 a3 a4 a5) := by
  delta raiseCmd
  apply raiseOp_apart
  assumption

theorem claimOrQueue_apart {s : State} (a0 : State) (a1 : Cmd) (h0 : Apart s a0) : Apart s (claimOrQueue a0 a1) := by
  delta claimOrQueue
  refine Apart.ite ?_ ?_
  · assumption
  · extract_lets v0 v1
    clear_value v0
    have k2 : Apart s v1 := by
      unfold v1
      apply setLock_apart
      assumption
    clear_value v1
    refine Apart.ite ?_ ?_
    · apply grantClaim_apart
      assumption
    · apply putCmd_apart
      assumption

theorem acceptCmd_apart {s : State} (a0 : State) (a1 : ℕ) (a2 : Packet) (h0 : Apart s a0) : Apart s (acceptCmd a0 a1 a2) := by
  delta acceptCmd
  extract_lets v0 v1 v2 v3 v4 v5 v6 v7 v8 v9 v10 v11 v12
  clear_value v0
  have k13 : Apart s v1 := by
    unfold v1
    apply makeCtx_apart
    assumption
  clear_value v1
  clear_value v2
  have k14 : Apart s v3 := by
    unfold v3
    refine Apart.set ?_
    assumption
  clear_value v3
  clear_value v4 v5 v6 v7 v8 v9 v10
  have k15 : Apart s v11 := by
    unfold v11
    apply putCmd_apart
    assumption
  clear_value v11
  have k16 : Apart s v12 := by
    unfold v12
    apply traceRec_apart
    assumption
  clear_value v12
  split
  · apply eccEnd_apart
    assumption
  · split
    · apply endCmd_apart
      assumption
    · split
      · apply endCmd_apart
        assumption
      · refine Apart.ite ?_ ?_
        · apply endCmd_apart
          assumption
        · refine Apart.ite ?_ ?_
          · apply endCmd_apart
            apply raiseCmd_apart
            assumption
          · apply claimOrQueue_apart
            assumption

theorem addCount_apart {s : State} (a0 : State) (a1 : ℕ) (a2 : ℕ) (a3 : Option Cmd) (h0 : Apart s a0) : Apart s (addCount a0 a1 a2 a3) := by
  delta addCount
  extract_lets v0 v1 v2 v3
  clear_value v0
  have k4 : Apart s v1 := by
    unfold v1
    apply setLock_apart
    assumption
  clear_value v1
  have k5 : Apart s v2 := by
    unfold v2
    apply count_apart
    assumption
  clear_value v2
  have k6 : Apart s v3 := by
    unfold v3
    apply traceRec_apart
    assumption
  clear_value v3
  refine Apart.ite ?_ ?_
  · apply raise_apart
    assumption
  · assumption

theorem putShard_apart {s : State} (a0 : State) (a1 : ℕ) (a2 : Shard) (h0 : Apart s a0) : Apart s (putShard a0 a1 a2) := by
  delta putShard
  extract_lets v0 v1
  have k2 : Apart s v0 := by
    unfold v0
    refine Apart.set ?_
    assumption
  clear_value v0
  clear_value v1
  apply wrLocal_apart
  apply wrLocal_apart
  assumption

theorem markDirty_apart {s : State} (a0 : State) (a1 : List SWrite) (h0 : Apart s a0) : Apart s (markDirty a0 a1) := by
  delta markDirty
  refine Apart.foldl _ ?_ (fun t0 b0 h0 => ?_)
  · assumption
  · refine Apart.foldl _ ?_ (fun t1 b1 h1 => ?_)
    · assumption
    · split
      · assumption
      · extract_lets v2
        clear_value v2
        refine Apart.ite ?_ ?_
        · apply putObj_apart
          assumption
        · assumption

theorem addGacc_apart {s : State} (a0 : State) (a1 : Cmd) (a2 : List Byte) (a3 : ℕ) (h0 : Apart s a0) : Apart s (addGacc a0 a1 a2 a3) := by
  delta addGacc
  split
  · assumption
  · extract_lets v0 v1
    clear_value v0 v1
    apply putShard_apart
    apply markDirty_apart
    apply wrLocal_apart
    assumption

theorem after_apart {s : State} (a0 : Host.Outcome State Fault Refusal) (a1 : State) (h : ApartO s a0) (h0 : Apart s a1) : Apart s (after a0 a1) := by
  delta after
  split
  · exact h _ rfl
  · exact h0

theorem offerTransit_apart {s : State} (a0 : State) (a1 : MsgHdr) (h0 : Apart s a0) : Apart s (offerTransit a0 a1) := by
  delta offerTransit
  refine Apart.ite ?_ ?_
  · refine Apart.set ?_
    assumption
  · extract_lets v0 v1 v2 v3
    clear_value v0 v1 v2 v3
    split
    · extract_lets v4
      clear_value v4
      apply setPort_apart
      refine Apart.set ?_
      assumption
    · refine Apart.set ?_
      assumption

theorem offerWaiting_apart {s : State} (a0 : List Msg) (a1 : List Sys2Proof.MsgHdr) (a2 : Bool) (a3 : State) (h0 : Apart s a3) : Apart s (offerWaiting a0 a1 a2 a3) := by
  delta offerWaiting
  refine Apart.foldl _ ?_ (fun t0 b0 h0 => ?_)
  · refine Apart.foldl _ ?_ (fun t0 b0 h0 => ?_)
    · assumption
    · apply offerTransit_apart
      assumption
  · apply offer_apart
    assumption

theorem releaseAll_apart {s : State} (a0 : State) (h0 : Apart s a0) : Apart s (releaseAll a0) := by
  delta releaseAll
  apply offerWaiting_apart
  apply offerWaiting_apart
  refine Apart.set ?_
  assumption

theorem afterAck_apart {s : State} (a0 : State) (h0 : Apart s a0) : Apart s (afterAck a0) := by
  delta afterAck
  apply releaseAll_apart
  assumption

theorem answerLate_apart {s : State} (a0 : State) (a1 : ℕ) (a2 : ℕ) (a3 : ℕ) (a4 : ℕ) (a5 : ℕ) (h0 : Apart s a0) : Apart s (answerLate a0 a1 a2 a3 a4 a5) := by
  delta answerLate
  split
  · apply send_apart
    assumption
  · assumption

theorem answerRead_apart {s : State} (a0 : State) (a1 : MsgHdr) (a2 : ℕ) (a3 : ℕ) (a4 : List Byte) (h0 : Apart s a0) : Apart s (answerRead a0 a1 a2 a3 a4) := by
  delta answerRead
  apply send_apart
  assumption

theorem updJob_apart {s : State} (a0 : State) (a1 : ℕ) (a2 : Job → Job) (h0 : Apart s a0) : Apart s (updJob a0 a1 a2) := by
  delta updJob
  refine Apart.set ?_
  assumption

theorem endAll_apart {s : State} (a0 : State) (a1 : ℕ) (a2 : ℕ) (a3 : Cmd → Bool) (h0 : Apart s a0) : Apart s (endAll a0 a1 a2 a3) := by
  delta endAll
  refine Apart.foldl _ ?_ (fun t0 b0 h0 => ?_)
  · assumption
  · split
    · apply endCmd_apart
      assumption
    · assumption

theorem signalLock_apart {s : State} (a0 : State) (a1 : ℕ) (a2 : ℕ) (a3 : ℕ) (a4 : ℕ) (a5 : Option Cmd) (h0 : Apart s a0) : Apart s (signalLock a0 a1 a2 a3 a4 a5) := by
  delta signalLock
  refine Apart.ite ?_ ?_
  · apply reclaim_apart
    apply addCount_apart
    assumption
  · apply raise_apart
    assumption

theorem publishWrites_apart {s : State} (a0 : State) (a1 : ℕ) (a2 : List SWrite) (h0 : Apart s a0) : Apart s (publishWrites a0 a1 a2) := by
  delta publishWrites
  extract_lets v0
  have k1 : Apart s v0 := by
    unfold v0
    refine Apart.foldl _ ?_ (fun t2 b2 h2 => ?_)
    · assumption
    · refine Apart.ite ?_ ?_
      · apply wrLocal_apart
        assumption
      · refine Apart.ite ?_ ?_
        · apply wrHost_apart
          assumption
        · assumption
  clear_value v0
  refine Apart.set ?_
  assumption

theorem poundPublish_apart {s : State} (a0 : State) (a1 : ℕ) (a2 : List SWrite) (h0 : Apart s a0) : Apart s (poundPublish a0 a1 a2) := by
  delta poundPublish
  refine Apart.foldl _ ?_ (fun t0 b0 h0 => ?_)
  · assumption
  · refine Apart.ite ?_ ?_
    · refine Apart.foldl _ ?_ (fun t1 b1 h1 => ?_)
      · assumption
      · extract_lets v2
        clear_value v2
        refine Apart.ite ?_ ?_
        · assumption
        · refine Apart.set ?_
          assumption
    · assumption

theorem endHold_apart {s : State} (a0 : State) (a1 : ℕ × ℕ) (h0 : Apart s a0) : Apart s (endHold a0 a1) := by
  delta endHold
  split
  · assumption
  · apply unpinUse_apart
    assumption

theorem consume_apart {s : State} (a0 : State) (a1 : Cmd) (h0 : Apart s a0) : Apart s (consume a0 a1) := by
  delta consume
  extract_lets v0 v1 v2 v3 v4 v5 v6
  clear_value v0 v1 v2 v3
  have k7 : Apart s v4 := by
    unfold v4
    apply setLock_apart
    assumption
  clear_value v4
  have k8 : Apart s v5 := by
    unfold v5
    apply count_apart
    assumption
  clear_value v5
  have k9 : Apart s v6 := by
    unfold v6
    apply traceRec_apart
    assumption
  clear_value v6
  refine Apart.foldl _ ?_ (fun t10 b10 h10 => ?_)
  · assumption
  · apply endHold_apart
    assumption

theorem killWb_apart {s : State} (a0 : State) (a1 : ℕ) (a2 : ℕ) (h0 : Apart s a0) : Apart s (killWb a0 a1 a2) := by
  delta killWb
  split
  · assumption
  · split
    · assumption
    · extract_lets v0 v1
      have k2 : Apart s v0 := by
        unfold v0
        split
        · refine Apart.ite ?_ ?_
          · apply sendWb_apart
            assumption
          · assumption
        · assumption
      clear_value v0
      clear_value v1
      apply putObj_apart
      assumption

theorem moduleWrite_apart {s : State} (a0 : State) (a1 : ℕ) (a2 : ℕ) (a3 : GAddr) (a4 : List Byte) (h0 : Apart s a0) : Apart s (moduleWrite a0 a1 a2 a3 a4) := by
  delta moduleWrite
  extract_lets v0
  clear_value v0
  split
  · refine Apart.ite ?_ ?_
    · assumption
    · extract_lets v1 v2 v3
      have k4 : Apart s v1 := by
        unfold v1
        split
        · apply killWb_apart
          assumption
        · assumption
      clear_value v1
      clear_value v2
      have k5 : Apart s v3 := by
        unfold v3
        refine Apart.ite ?_ ?_
        · refine Apart.ite ?_ ?_
          · apply wrHost_apart
            assumption
          · assumption
        · refine Apart.ite ?_ ?_
          · apply wrLocal_apart
            assumption
          · assumption
      clear_value v3
      apply markDirty_apart
      assumption
  · refine Apart.ite ?_ ?_
    · refine Apart.ite ?_ ?_
      · apply wrHost_apart
        assumption
      · assumption
    · refine Apart.ite ?_ ?_
      · apply wrLocal_apart
        assumption
      · assumption

theorem ringEntry_apart {s : State} (a0 : State) (a1 : ℕ) (a2 : ℕ) (a3 : ℕ) (a4 : ℕ) (a5 : List Byte) (h0 : Apart s a0) : Apart s (ringEntry a0 a1 a2 a3 a4 a5) := by
  delta ringEntry
  extract_lets v0 v1 v2 v3 v4
  clear_value v0 v1 v2 v3
  have k5 : Apart s v4 := by
    unfold v4
    apply moduleWrite_apart
    assumption
  clear_value v4
  refine Apart.ite ?_ ?_
  · apply moduleWrite_apart
    assumption
  · apply moduleWrite_apart
    assumption

theorem writeEntries_apart {s : State} (a0 : State) (a1 : Cmd) (h0 : Apart s a0) : Apart s (writeEntries a0 a1) := by
  delta writeEntries
  extract_lets v0
  have k1 : Apart s v0 := by
    unfold v0
    split
    · refine Apart.ite ?_ ?_
      · refine Apart.foldl _ ?_ (fun t2 b2 h2 => ?_)
        · assumption
        · refine Apart.ite ?_ ?_
          · assumption
          · apply ringEntry_apart
            assumption
      · assumption
    · assumption
  clear_value v0
  refine Apart.foldl _ ?_ (fun t3 b3 h3 => ?_)
  · assumption
  · refine Apart.foldl _ ?_ (fun t4 b4 h4 => ?_)
    · assumption
    · refine Apart.ite ?_ ?_
      · extract_lets v5
        clear_value v5
        apply ringEntry_apart
        assumption
      · assumption

theorem countWork_apart {s : State} (a0 : State) (a1 : Cmd) (h0 : Apart s a0) : Apart s (countWork a0 a1) := by
  delta countWork
  extract_lets v0 v1 v2 v3 v4
  clear_value v0 v1 v2 v3 v4
  split
  · assumption
  · refine Apart.ite ?_ ?_
    · refine Apart.ite ?_ ?_
      · apply count_apart
        assumption
      · assumption
    · refine Apart.ite ?_ ?_
      · refine Apart.foldl _ ?_ (fun t5 b5 h5 => ?_)
        · assumption
        · apply count_apart
          assumption
      · refine Apart.ite ?_ ?_
        · refine Apart.foldl _ ?_ (fun t6 b6 h6 => ?_)
          · assumption
          · apply count_apart
            assumption
        · refine Apart.ite ?_ ?_
          · refine Apart.foldl _ ?_ (fun t7 b7 h7 => ?_)
            · assumption
            · extract_lets v8
              clear_value v8
              apply count_apart
              apply count_apart
              assumption
          · refine Apart.ite ?_ ?_
            · apply count_apart
              assumption
            · assumption

theorem commitWith_apart {s : State} (a0 : State → Cmd → State) (a1 : State) (a2 : Cmd) (h0 : ∀ y0 y1, Apart s y0 → Apart s (a0 y0 y1)) (h1 : Apart s a1) : Apart s (commitWith a0 a1 a2) := by
  delta commitWith
  extract_lets v0 v1 v2 v3 v4 v5 v6 v7 v8 v9 v10 v11 v12 v13 v14 v15 v16 v17 v18 v19 v20 v21
  clear_value v0 v1 v2
  have k22 : Apart s v3 := by
    unfold v3
    apply putCmd_apart
    assumption
  clear_value v3
  clear_value v4 v5 v6
  have k23 : Apart s v7 := by
    unfold v7
    apply markDirty_apart
    apply publishWrites_apart
    assumption
  clear_value v7
  have k24 : Apart s v8 := by
    unfold v8
    apply poundPublish_apart
    assumption
  clear_value v8
  have k25 : Apart s v9 := by
    unfold v9
    refine Apart.ite ?_ ?_
    · assumption
    · apply consume_apart
      assumption
  clear_value v9
  have k26 : Apart s v10 := by
    unfold v10
    split
    · apply signalLock_apart
      assumption
    · assumption
  clear_value v10
  have k27 : Apart s v11 := by
    unfold v11
    apply h0
    assumption
  clear_value v11
  have k28 : Apart s v12 := by
    unfold v12
    apply writeEntries_apart
    assumption
  clear_value v12
  have k29 : Apart s v13 := by
    unfold v13
    refine Apart.foldl _ ?_ (fun t30 b30 h30 => ?_)
    · assumption
    · apply unpinUse_apart
      assumption
  clear_value v13
  have k31 : Apart s v14 := by
    unfold v14
    refine Apart.ite ?_ ?_
    · assumption
    · apply reclaim_apart
      assumption
  clear_value v14
  have k32 : Apart s v15 := by
    unfold v15
    apply traceRec_apart
    assumption
  clear_value v15
  have k33 : Apart s v16 := by
    unfold v16
    apply drift_apart
    apply countWork_apart
    apply jobCount_apart
    assumption
  clear_value v16
  have k34 : Apart s v17 := by
    unfold v17
    split
    · refine Apart.ite ?_ ?_
      · apply count_apart
        assumption
      · assumption
    · assumption
  clear_value v17
  have k35 : Apart s v18 := by
    unfold v18
    apply engineDone_apart
    assumption
  clear_value v18
  clear_value v19
  have k36 : Apart s v20 := by
    unfold v20
    refine Apart.foldl _ ?_ (fun t37 b37 h37 => ?_)
    · assumption
    · apply sendCmd_apart
      assumption
  clear_value v20
  clear_value v21
  split
  · apply putCmd_apart
    assumption
  · apply dropCmd_apart
    apply publishWrites_apart
    assumption

theorem noEffect_apart {s : State} (a0 : State) (a1 : Cmd) (h0 : Apart s a0) : Apart s (noEffect a0 a1) := by
  delta noEffect
  assumption

theorem endModeCmd_apart {s : State} (a0 : State) (a1 : Option ℕ) (a2 : ℕ) (h0 : Apart s a0) : Apart s (endModeCmd a0 a1 a2) := by
  delta endModeCmd
  split
  · assumption
  · split
    · refine Apart.ite ?_ ?_
      · apply commitWith_apart
        · intro y0 y1 y2
          apply noEffect_apart
          assumption
        · assumption
      · assumption
    · assumption

theorem putChange_apart {s : State} (a0 : State) (a1 : Change) (h0 : Apart s a0) : Apart s (putChange a0 a1) := by
  delta putChange
  refine Apart.set ?_
  assumption

theorem receiveChange_apart {s : State} (a0 : State) (a1 : Change) (h0 : Apart s a0) : Apart s (receiveChange a0 a1) := by
  delta receiveChange
  refine Apart.set ?_
  assumption

theorem sendDom_apart {s : State} (a0 : State) (a1 : ℕ) (a2 : ℕ) (a3 : List ℕ) (h0 : Apart s a0) : Apart s (sendDom a0 a1 a2 a3) := by
  delta sendDom
  apply send_apart
  assumption

theorem openChange_apart {s : State} (a0 : State) (a1 : ℕ) (h0 : Apart s a0) : Apart s (openChange a0 a1) := by
  delta openChange
  split
  · assumption
  · refine Apart.ite ?_ ?_
    · extract_lets v0 v1 v2
      clear_value v0 v1
      have k3 : Apart s v2 := by
        unfold v2
        apply putChange_apart
        assumption
      clear_value v2
      refine Apart.foldl _ ?_ (fun t4 b4 h4 => ?_)
      · assumption
      · apply sendDom_apart
        assumption
    · assumption

theorem stageChange_apart {s : State} (a0 : State) (a1 : ℕ) (a2 : ℕ) (a3 : ℕ) (a4 : ℕ) (a5 : List ModeItem) (a6 : List ℕ) (a7 : Option ℕ) (h0 : Apart s a0) : Apart s (stageChange a0 a1 a2 a3 a4 a5 a6 a7) := by
  delta stageChange
  extract_lets v0 v1 v2
  clear_value v0
  have k3 : Apart s v1 := by
    unfold v1
    apply putChange_apart
    assumption
  clear_value v1
  have k4 : Apart s v2 := by
    unfold v2
    refine Apart.foldl _ ?_ (fun t5 b5 h5 => ?_)
    · assumption
    · apply sendDom_apart
      assumption
  clear_value v2
  apply openChange_apart
  assumption

theorem autoChange_apart {s : State} (a0 : State) (h0 : Apart s a0) : Apart s (autoChange a0) := by
  delta autoChange
  refine Apart.ite ?_ ?_
  · apply stageChange_apart
    assumption
  · assumption

theorem sendSignal_apart {s : State} (a0 : State) (a1 : Cmd) (a2 : ℕ) (a3 : ℕ) (a4 : ℕ) (h0 : Apart s a0) : Apart s (sendSignal a0 a1 a2 a3 a4) := by
  delta sendSignal
  refine Apart.ite ?_ ?_
  · apply raiseCmd_apart
    assumption
  · apply sendCmd_apart
    assumption

theorem arrive_apart {s : State} (a0 : State) (a1 : ℕ) (a2 : ℕ) (h0 : Apart s a0) : Apart s (arrive a0 a1 a2) := by
  delta arrive
  split
  · assumption
  · split
    · assumption
    · extract_lets v0 v1 v2 v3 v4
      clear_value v0
      have k5 : Apart s v1 := by
        unfold v1
        apply putPf_apart
        assumption
      clear_value v1
      have k6 : Apart s v2 := by
        unfold v2
        refine Apart.ite ?_ ?_
        · apply count_apart
          assumption
        · assumption
      clear_value v2
      clear_value v3
      have k7 : Apart s v4 := by
        unfold v4
        apply setLock_apart
        assumption
      clear_value v4
      apply signalLock_apart
      assumption

theorem reply_apart {s : State} (a0 : State) (a1 : ℕ) (a2 : List Byte) (h0 : Apart s a0) : Apart s (reply a0 a1 a2) := by
  delta reply
  refine Apart.set ?_
  assumption

theorem arrives_apart {s : State} (a0 : State) (a1 : State → State) (h0 : ∀ y0, Apart s y0 → Apart s (a1 y0)) (h1 : Apart s a0) : ApartO s (arrives a0 a1) := by
  delta arrives
  refine ApartO.next ?_
  refine Apart.ite ?_ ?_
  · assumption
  · extract_lets v0
    have k1 : Apart s v0 := by
      unfold v0
      apply fire_apart
      assumption
    clear_value v0
    refine Apart.ite ?_ ?_
    · apply h0
      assumption
    · apply reply_apart
      assumption

theorem endLink_apart {s : State} (a0 : State) (a1 : Cmd) (a2 : ℕ) (h0 : Apart s a0) : Apart s (endLink a0 a1 a2) := by
  delta endLink
  extract_lets v0
  clear_value v0
  apply endCmd_apart
  assumption

theorem askReads_apart {s : State} (a0 : State) (a1 : Cmd) (a2 : List (ℕ × ℕ × ℕ)) (h0 : Apart s a0) : Apart s (askReads a0 a1 a2) := by
  delta askReads
  extract_lets v0 v1
  clear_value v0
  have k2 : Apart s v1 := by
    unfold v1
    refine Apart.foldl _ ?_ (fun t3 b3 h3 => ?_)
    · assumption
    · apply sendCmd_apart
      assumption
  clear_value v1
  split
  · apply endLink_apart
    assumption
  · apply putCmd_apart
    assumption

theorem beginTest_apart {s : State} (a0 : State) (a1 : TestReq) (h0 : Apart s a0) : Apart s (beginTest a0 a1) := by
  delta beginTest
  extract_lets v0
  have k1 : Apart s v0 := by
    unfold v0
    refine Apart.set ?_
    assumption
  clear_value v0
  split
  · apply setPort_apart
    assumption
  · assumption

theorem pumpTests_apart {s : State} (a0 : State) (h0 : Apart s a0) : Apart s (pumpTests a0) := by
  delta pumpTests
  extract_lets v0
  clear_value v0
  refine Apart.foldl _ ?_ (fun t1 b1 h1 => ?_)
  · refine Apart.set ?_
    assumption
  · refine Apart.ite ?_ ?_
    · refine Apart.set ?_
      assumption
    · apply beginTest_apart
      assumption

theorem askTest_apart {s : State} (a0 : State) (a1 : TestReq) (h0 : Apart s a0) : Apart s (askTest a0 a1) := by
  delta askTest
  apply pumpTests_apart
  refine Apart.set ?_
  assumption

theorem portEvent_apart {s : State} (a0 : State) (a1 : ℕ) (a2 : ℕ) (h0 : Apart s a0) : Apart s (portEvent a0 a1 a2) := by
  delta portEvent
  extract_lets v0 v1
  clear_value v0
  have k2 : Apart s v1 := by
    unfold v1
    apply setPort_apart
    assumption
  clear_value v1
  refine Apart.ite ?_ ?_
  · assumption
  · apply fire_apart
    assumption

theorem portDrop_apart {s : State} (a0 : State) (a1 : ℕ) (h0 : Apart s a0) : Apart s (portDrop a0 a1) := by
  delta portDrop
  extract_lets v0
  clear_value v0
  apply setPort_apart
  assumption

theorem discardMsg_apart {s : State} (a0 : State) (a1 : MsgHdr) (h0 : Apart s a0) : Apart s (discardMsg a0 a1) := by
  delta discardMsg
  split
  · apply portDrop_apart
    assumption
  · assumption

theorem authFail_apart {s : State} (a0 : State) (a1 : MsgHdr) (h0 : Apart s a0) : Apart s (authFail a0 a1) := by
  delta authFail
  extract_lets v0 v1 v2
  have k3 : Apart s v0 := by
    unfold v0
    split
    · apply portEvent_apart
      assumption
    · assumption
  clear_value v0
  clear_value v1
  have k4 : Apart s v2 := by
    unfold v2
    apply raise_apart
    apply discardMsg_apart
    assumption
  clear_value v2
  apply send_apart
  assumption

theorem regAccess_apart {s : State} (a0 : State) (a1 : ℕ) (a2 : ℕ) (a3 : Bool) (a4 : Bool) (a5 : Bool) (h0 : Apart s a0) : Apart s (regAccess a0 a1 a2 a3 a4 a5) := by
  delta regAccess
  extract_lets v0 v1
  clear_value v0
  have k2 : Apart s v1 := by
    unfold v1
    apply setDie_apart
    assumption
  clear_value v1
  apply raiseMod_apart
  assumption

theorem badAccess_apart {s : State} (a0 : State) (a1 : ℕ) (a2 : ℕ) (a3 : Bool) (a4 : RegHit) (h0 : Apart s a0) : Apart s (badAccess a0 a1 a2 a3 a4) := by
  delta badAccess
  apply regAccess_apart
  assumption

theorem badIn_apart {s : State} (a0 : ℕ) : ApartR s (badIn a0) := by
  delta badIn
  exact True.intro

theorem badPage_apart {s : State} (a0 : State) (a1 : ℕ) (a2 : Bool) (a3 : RegHit) (h0 : Apart s a0) : Apart s (badPage a0 a1 a2 a3) := by
  delta badPage
  refine Apart.ite ?_ ?_
  · apply badAccess_apart
    assumption
  · apply badAccess_apart
    assumption

theorem moveCopy_apart {s : State} (a0 : State) (a1 : ℕ) (a2 : ℕ) (a3 : ℕ) (h0 : Apart s a0) : Apart s (moveCopy a0 a1 a2 a3) := by
  delta moveCopy
  split
  · assumption
  · extract_lets v0 v1 v2 v3
    clear_value v0 v1
    have k4 : Apart s v2 := by
      unfold v2
      apply wrLocal_apart
      assumption
    clear_value v2
    clear_value v3
    apply putObj_apart
    refine Apart.set ?_
    assumption

theorem packFrom_apart {s : State} (a0 : Nat) (a1 : List (Nat × Nat × Nat × Nat)) (a2 : State) (h0 : Apart s a2) : Apart s (packFrom a0 a1 a2) := by
  induction a1 generalizing a0 a2 with
  | nil => exact h0
  | cons x l ih => exact Apart.ite (ih _ _ (moveCopy_apart _ _ _ _ h0)) (ih _ _ h0)

theorem packPool_apart {s : State} (a0 : State) (a1 : ℕ) (h0 : Apart s a0) : Apart s (packPool a0 a1) := by
  delta packPool
  split
  · assumption
  · apply packFrom_apart
    assumption

theorem makeSpace_apart {s : State} (a0 : Nat) (a1 : ResObj) (a2 : Nat) (a3 : State) (h0 : Apart s a3) : Apart s (makeSpace a0 a1 a2 a3).1 := by
  induction a2 generalizing a3 with
  | zero => exact h0
  | succ n ih =>
    rw [makeSpace]
    split
    · exact h0
    · split
      all_goals
        extract_lets t
        have k : Apart s t := by first | exact packPool_apart _ _ h0 | exact h0
        clear_value t
        split
        · exact k
        · split
          · exact k
          · split
            · exact k
            · exact ih _ (removeCopy_apart _ _ _ k)

theorem placePromotion_apart {s : State} (a0 : State) (a1 : ℕ) (a2 : ℕ) (a3 : ℕ) (h0 : Apart s a0) : Apart s (placePromotion a0 a1 a2 a3) := by
  delta placePromotion
  split
  · assumption
  · refine Apart.ite ?_ ?_
    · assumption
    · extract_lets v0
      have k1 : Apart s v0.1 := by
        unfold v0
        apply makeSpace_apart
        assumption
      clear_value v0
      split
      · apply putObj_apart
        assumption
      · assumption

theorem startPromotion_apart {s : State} (a0 : State) (a1 : ℕ) (a2 : ℕ) (a3 : ℕ) (h0 : Apart s a0) : Apart s (startPromotion a0 a1 a2 a3) := by
  delta startPromotion
  split
  · assumption
  · extract_lets v0
    clear_value v0
    apply placePromotion_apart
    apply putObj_apart
    assumption

theorem beginInit_apart {s : State} (a0 : State) (a1 : Cmd) (h0 : Apart s a0) : Apart s (beginInit a0 a1) := by
  delta beginInit
  extract_lets v0
  clear_value v0
  split
  · apply dropCmd_apart
    assumption
  · refine Apart.ite ?_ ?_
    · apply dropCmd_apart
      assumption
    · extract_lets v1 v2
      clear_value v1
      have k3 : Apart s v2 := by
        unfold v2
        apply putCmd_apart
        refine Apart.set ?_
        assumption
      clear_value v2
      refine Apart.ite ?_ ?_
      · apply dropCmd_apart
        assumption
      · refine Apart.ite ?_ ?_
        · assumption
        · apply startPromotion_apart
          assumption

theorem pinUse_apart {s : State} (a0 : State) (a1 : ℕ) (a2 : ℕ) (h0 : Apart s a0) : Apart s (pinUse a0 a1 a2) := by
  delta pinUse
  split
  · assumption
  · apply putObj_apart
    assumption

theorem takeCopy_apart {s : State} (a0 : State) (a1 : ℕ) (a2 : ℕ) (h0 : Apart s a0) : Apart s (takeCopy a0 a1 a2) := by
  delta takeCopy
  apply pinUse_apart
  apply killWb_apart
  assumption

theorem holdPromotion_apart {s : State} (a0 : State) (a1 : ℕ) (a2 : ℕ) (h0 : Apart s a0) : Apart s (holdPromotion a0 a1 a2) := by
  delta holdPromotion
  extract_lets v0
  have k1 : Apart s v0 := by
    unfold v0
    apply takeCopy_apart
    assumption
  clear_value v0
  split
  · assumption
  · apply putObj_apart
    assumption

theorem beginPrefetch_apart {s : State} (a0 : State) (a1 : Cmd) (a2 : ℕ) (a3 : ℕ) (h0 : Apart s a0) : Apart s (beginPrefetch a0 a1 a2 a3) := by
  delta beginPrefetch
  split
  · apply dropCmd_apart
    assumption
  · split
    · apply dropCmd_apart
      assumption
    · split
      · apply endCmd_apart
        assumption
      · extract_lets v0 v1 v2 v3
        clear_value v0 v1
        have k4 : Apart s v2 := by
          unfold v2
          apply putCmd_apart
          refine Apart.set ?_
          assumption
        clear_value v2
        have k5 : Apart s v3 := by
          unfold v3
          apply startPromotion_apart
          assumption
        clear_value v3
        refine Apart.ite ?_ ?_
        · apply endCmd_apart
          apply pinUse_apart
          assumption
        · refine Apart.ite ?_ ?_
          · apply holdPromotion_apart
            apply putCmd_apart
            assumption
          · refine Apart.ite ?_ ?_
            · apply pinUse_apart
              apply putCmd_apart
              assumption
            · refine Apart.ite ?_ ?_
              · apply endCmd_apart
                apply pinUse_apart
                assumption
              · refine Apart.ite ?_ ?_
                · assumption
                · split
                  · apply putObj_apart
                    assumption
                  · assumption

theorem releaseBufs_apart {s : State} (a0 : State) (a1 : HostBuf → Bool) (h0 : Apart s a0) : Apart s (releaseBufs a0 a1) := by
  delta releaseBufs
  extract_lets v0
  have k1 : Apart s v0 := by
    unfold v0
    refine Apart.set ?_
    assumption
  clear_value v0
  refine Apart.foldl _ ?_ (fun t2 b2 h2 => ?_)
  · assumption
  · refine Apart.ite ?_ ?_
    · apply ringFault_apart
      assumption
    · assumption

theorem setRoot_apart {s : State} (a0 : State) (a1 : ℕ) (a2 : RootRegs) (h0 : Apart s a0) : Apart s (setRoot a0 a1 a2) := by
  delta setRoot
  refine Apart.set ?_
  assumption

theorem regClear_apart {s : State} (a0 : State) (a1 : ℕ) (a2 : ℕ) (h0 : Apart s a0) : Apart s (regClear a0 a1 a2) := by
  delta regClear
  extract_lets v0 v1 v2 v3 v4 v5 v6
  clear_value v0 v1 v2 v3 v4 v5 v6
  refine Apart.ite ?_ ?_
  · apply setMemRegs_apart
    assumption
  · refine Apart.ite ?_ ?_
    · apply setMemRegs_apart
      assumption
    · refine Apart.ite ?_ ?_
      · apply setMemRegs_apart
        assumption
      · refine Apart.ite ?_ ?_
        · apply setMemRegs_apart
          assumption
        · refine Apart.ite ?_ ?_
          · refine Apart.set ?_
            assumption
          · refine Apart.ite ?_ ?_
            · refine Apart.set ?_
              assumption
            · refine Apart.ite ?_ ?_
              · apply setTrace_apart
                assumption
              · refine Apart.ite ?_ ?_
                · apply setRoot_apart
                  assumption
                · refine Apart.ite ?_ ?_
                  · split
                    · apply setPort_apart
                      assumption
                    · apply setPort_apart
                      assumption
                    · apply setPort_apart
                      assumption
                    · apply setPort_apart
                      assumption
                    · apply setPort_apart
                      assumption
                    · apply setPort_apart
                      assumption
                    · assumption
                  · assumption

theorem busRead_apart {s : State} (a0 : State) (a1 : ℕ) (a2 : ℕ) (a3 : ℕ) (h0 : Apart s a0) : Apart s (busRead a0 a1 a2 a3).1 := by
  delta busRead
  split
  · dsimp only
    assumption
  · split
    · dsimp only
      refine Apart.set ?_
      assumption
    · split
      · dsimp only
        apply regClear_apart
        assumption
      · dsimp only
        apply badAccess_apart
        assumption

theorem enableRing_apart {s : State} (a0 : State) (a1 a2 : Nat) (a3 : Bool) (h0 : Apart s a0) : Apart s (enableRing a0 a1 a2 a3) := by
  have fold : ∀ (l : List (Nat × Nat × Bool)) (g : State → Nat × Nat × Bool → Option State), (∀ t ar u, Apart s t → g t ar = some u → Apart s u) →
      ∀ t u, Apart s t → l.foldl (fun (a : Option State) ar => match a with | none => none | some s => g s ar) (some t) = some u → Apart s u := by
    intro l g hg
    induction l with
    | nil => intro t u ht e; cases e; exact ht
    | cons ar l ih =>
      intro t u ht e
      simp only [List.foldl_cons] at e
      cases hr : g t ar with
      | none =>
        rw [hr] at e
        have : ∀ l : List (Nat × Nat × Bool), l.foldl (fun (a : Option State) ar => match a with | none => none | some s => g s ar) none = none := by
          intro l
          induction l with
          | nil => rfl
          | cons _ l ih => exact ih
        rw [this] at e
        cases e
      | some v => rw [hr] at e; exact ih v u (hg t ar v ht hr) e
  delta enableRing
  extract_lets x s1 res
  have k1 : Apart s s1 := setRing_apart _ _ _ h0
  refine Apart.ite (ringFault_apart _ _ _ k1) ?_
  cases hres : res with
  | none => exact ringFault_apart _ _ _ k1
  | some t =>
    have ht := hres
    unfold res at ht
    refine setRing_apart _ _ _ (fold (ringAreas s1 a1) (fun s ar => match areaUse s a1 ar with
        | .bad => none
        | .usable => some s
        | .register b => some { s with bufs := s.bufs ++ [b] }) ?_ s1 t k1 ht)
    intro t ar u kt e
    cases hu : areaUse t a1 ar with
    | bad => rw [hu] at e; cases e
    | usable => rw [hu] at e; cases e; exact kt
    | register b => rw [hu] at e; cases e; exact Apart.set kt

theorem writeRingCfg_apart {s : State} (a0 : State) (a1 : ℕ) (a2 : ℕ) (h0 : Apart s a0) : Apart s (writeRingCfg a0 a1 a2) := by
  delta writeRingCfg
  extract_lets v0 v1
  clear_value v0 v1
  refine Apart.ite ?_ ?_
  · refine Apart.ite ?_ ?_
    · apply setRing_apart
      assumption
    · apply dropRingBufs_apart
      apply setRing_apart
      assumption
  · refine Apart.ite ?_ ?_
    · apply enableRing_apart
      assumption
    · apply setRing_apart
      assumption

theorem writeRingTail_apart {s : State} (a0 : State) (a1 : ℕ) (a2 : ℕ) (h0 : Apart s a0) : Apart s (writeRingTail a0 a1 a2) := by
  delta writeRingTail
  extract_lets v0 v1 v2
  clear_value v0 v1
  have k3 : Apart s v2 := by
    unfold v2
    apply setRing_apart
    assumption
  clear_value v2
  refine Apart.ite ?_ ?_
  · apply ringFault_apart
    assumption
  · assumption

theorem ringWrite_apart {s : State} (a0 : State) (a1 : ℕ) (a2 : ℕ) (a3 : ℕ) (h0 : Apart s a0) : Apart s (ringWrite a0 a1 a2 a3) := by
  delta ringWrite
  extract_lets v0
  clear_value v0
  split
  · refine Apart.ite ?_ ?_
    · assumption
    · apply setRing_apart
      assumption
  · refine Apart.ite ?_ ?_
    · assumption
    · apply setRing_apart
      assumption
  · apply writeRingCfg_apart
    assumption
  · apply writeRingTail_apart
    assumption
  · apply setRing_apart
    assumption
  · apply setRing_apart
    assumption
  · assumption

theorem writeScrub_apart {s : State} (a0 : State) (a1 : ℕ) (a2 : ℕ) (h0 : Apart s a0) : Apart s (writeScrub a0 a1 a2) := by
  delta writeScrub
  extract_lets v0 v1 v2 v3
  clear_value v0 v1 v2 v3
  apply setMemRegs_apart
  assumption

theorem writePwrCtrl_apart {s : State} (a0 : State) (a1 : ℕ) (h0 : Apart s a0) : Apart s (writePwrCtrl a0 a1) := by
  delta writePwrCtrl
  extract_lets v0
  clear_value v0
  apply autoChange_apart
  refine Apart.set ?_
  assumption

theorem onWord_apart {s : State} (a0 : State) (a1 : ℕ) (a2 : ℕ) (a3 : ℕ) (a4 : Sic → ℕ → Sic) (h0 : Apart s a0) : Apart s (onWord a0 a1 a2 a3 a4) := by
  delta onWord
  apply setSic_apart
  assumption

theorem execSicEnSet_apart {s : State} (a0 : ℕ) (a1 : ℕ) (a2 : ℕ) (a3 : State) (h0 : Apart s a3) : ApartO s (execSicEnSet a0 a1 a2 a3) := by
  delta execSicEnSet
  refine ApartO.next ?_
  refine Apart.ite ?_ ?_
  · apply onWord_apart
    assumption
  · assumption

theorem execSicEnClr_apart {s : State} (a0 : ℕ) (a1 : ℕ) (a2 : ℕ) (a3 : State) (h0 : Apart s a3) : ApartO s (execSicEnClr a0 a1 a2 a3) := by
  delta execSicEnClr
  refine ApartO.next ?_
  refine Apart.ite ?_ ?_
  · apply onWord_apart
    assumption
  · assumption

theorem execSicPendSet_apart {s : State} (a0 : ℕ) (a1 : ℕ) (a2 : ℕ) (a3 : State) (h0 : Apart s a3) : ApartO s (execSicPendSet a0 a1 a2 a3) := by
  delta execSicPendSet
  refine ApartO.next ?_
  refine Apart.ite ?_ ?_
  · apply onWord_apart
    assumption
  · assumption

theorem execSicPendClr_apart {s : State} (a0 : ℕ) (a1 : ℕ) (a2 : ℕ) (a3 : State) (h0 : Apart s a3) : ApartO s (execSicPendClr a0 a1 a2 a3) := by
  delta execSicPendClr
  refine ApartO.next ?_
  refine Apart.ite ?_ ?_
  · apply onWord_apart
    assumption
  · assumption

theorem execSicSrcCfg_apart {s : State} (a0 : ℕ) (a1 : ℕ) (a2 : ℕ) (a3 : State) (h0 : Apart s a3) : ApartO s (execSicSrcCfg a0 a1 a2 a3) := by
  delta execSicSrcCfg
  refine ApartO.next ?_
  refine Apart.ite ?_ ?_
  · extract_lets v0 v1
    clear_value v0 v1
    apply setSic_apart
    assumption
  · assumption

theorem execSicSrcMod_apart {s : State} (a0 : ℕ) (a1 : ℕ) (a2 : ℕ) (a3 : State) (h0 : Apart s a3) : ApartO s (execSicSrcMod a0 a1 a2 a3) := by
  delta execSicSrcMod
  refine ApartO.next ?_
  refine Apart.ite ?_ ?_
  · extract_lets v0 v1 v2
    clear_value v0 v1 v2
    apply setSic_apart
    assumption
  · assumption

theorem execSicEoi_apart {s : State} (a0 : ℕ) (a1 : ℕ) (a2 : ℕ) (a3 : State) (h0 : Apart s a3) : ApartO s (execSicEoi a0 a1 a2 a3) := by
  delta execSicEoi
  refine ApartO.next ?_
  refine Apart.ite ?_ ?_
  · apply setSic_apart
    assumption
  · assumption

theorem execSicTgtCtrl_apart {s : State} (a0 : ℕ) (a1 : ℕ) (a2 : ℕ) (a3 : State) (h0 : Apart s a3) : ApartO s (execSicTgtCtrl a0 a1 a2 a3) := by
  delta execSicTgtCtrl
  refine ApartO.next ?_
  refine Apart.ite ?_ ?_
  · extract_lets v0 v1
    clear_value v0 v1
    apply setSic_apart
    assumption
  · assumption

theorem writeSic_apart {s : State} (a0 : State) (a1 : ℕ) (a2 : ℕ) (a3 : ℕ) (h0 : Apart s a0) : Apart s (writeSic a0 a1 a2 a3) := by
  delta writeSic
  extract_lets v0 v1 v2 v3
  clear_value v0 v1 v2 v3
  refine Apart.ite ?_ ?_
  · apply setSic_apart
    assumption
  · refine Apart.ite ?_ ?_
    · apply setSic_apart
      assumption
    · refine Apart.ite ?_ ?_
      · apply after_apart
        · apply execSicEnSet_apart
          assumption
        · assumption
      · refine Apart.ite ?_ ?_
        · apply after_apart
          · apply execSicEnClr_apart
            assumption
          · assumption
        · refine Apart.ite ?_ ?_
          · apply after_apart
            · apply execSicPendSet_apart
              assumption
            · assumption
          · refine Apart.ite ?_ ?_
            · apply after_apart
              · apply execSicPendClr_apart
                assumption
              · assumption
            · refine Apart.ite ?_ ?_
              · refine Apart.ite ?_ ?_
                · apply after_apart
                  · apply execSicSrcCfg_apart
                    assumption
                  · assumption
                · apply after_apart
                  · apply execSicSrcMod_apart
                    assumption
                  · assumption
              · refine Apart.ite ?_ ?_
                · split
                  · apply after_apart
                    · apply execSicEoi_apart
                      assumption
                    · assumption
                  · apply setSic_apart
                    assumption
                  · apply after_apart
                    · apply execSicTgtCtrl_apart
                      assumption
                    · assumption
                  · assumption
                · assumption

theorem execCntCtrl_apart {s : State} (a0 : ℕ) (a1 : ℕ) (a2 : State) (h0 : Apart s a2) : ApartO s (execCntCtrl a0 a1 a2) := by
  delta execCntCtrl
  refine ApartO.next ?_
  refine Apart.ite ?_ ?_
  · apply setCnt_apart
    assumption
  · assumption

theorem execCntClear_apart {s : State} (a0 : ℕ) (a1 : ℕ) (a2 : State) (h0 : Apart s a2) : ApartO s (execCntClear a0 a1 a2) := by
  delta execCntClear
  refine ApartO.next ?_
  refine Apart.ite ?_ ?_
  · extract_lets v0
    clear_value v0
    apply setCnt_apart
    assumption
  · assumption

theorem writeSlot_apart {s : State} (a0 : State) (a1 : ℕ) (a2 : ℕ) (a3 : ℕ) (a4 : ℕ) (h0 : Apart s a0) : Apart s (writeSlot a0 a1 a2 a3 a4) := by
  delta writeSlot
  extract_lets v0 v1 v2 v3
  clear_value v0 v1 v2 v3
  apply setCnt_apart
  assumption

theorem execTrCtrl_apart {s : State} (a0 : ℕ) (a1 : ℕ) (a2 : State) (h0 : Apart s a2) : ApartO s (execTrCtrl a0 a1 a2) := by
  delta execTrCtrl
  refine ApartO.next ?_
  refine Apart.ite ?_ ?_
  · extract_lets v0 v1 v2 v3 v4 v5 v6
    clear_value v0 v1 v2 v3 v4 v5 v6
    refine Apart.ite ?_ ?_
    · apply setTrace_apart
      assumption
    · refine Apart.ite ?_ ?_
      · apply setTrace_apart
        assumption
      · apply setTrace_apart
        assumption
  · assumption

theorem execTrTrigNow_apart {s : State} (a0 : ℕ) (a1 : ℕ) (a2 : State) (h0 : Apart s a2) : ApartO s (execTrTrigNow a0 a1 a2) := by
  delta execTrTrigNow
  refine ApartO.next ?_
  refine Apart.ite ?_ ?_
  · apply setTrace_apart
    assumption
  · assumption

theorem execTrMark_apart {s : State} (a0 : ℕ) (a1 : ℕ) (a2 : State) (h0 : Apart s a2) : ApartO s (execTrMark a0 a1 a2) := by
  delta execTrMark
  refine ApartO.next ?_
  refine Apart.ite ?_ ?_
  · apply traceRec_apart
    assumption
  · assumption

theorem writeTrace_apart {s : State} (a0 : State) (a1 : ℕ) (a2 : ℕ) (a3 : ℕ) (h0 : Apart s a0) : Apart s (writeTrace a0 a1 a2 a3) := by
  delta writeTrace
  extract_lets v0 v1
  clear_value v0 v1
  split
  · apply after_apart
    · apply execTrCtrl_apart
      assumption
    · assumption
  · refine Apart.ite ?_ ?_
    · assumption
    · apply setTrace_apart
      assumption
  · refine Apart.ite ?_ ?_
    · assumption
    · apply setTrace_apart
      assumption
  · refine Apart.ite ?_ ?_
    · assumption
    · apply setTrace_apart
      assumption
  · apply setTrace_apart
    assumption
  · apply setTrace_apart
    assumption
  · apply setTrace_apart
    assumption
  · apply setTrace_apart
    assumption
  · apply after_apart
    · apply execTrTrigNow_apart
      assumption
    · assumption
  · apply after_apart
    · apply execTrMark_apart
      assumption
    · assumption
  · assumption

theorem trainPort_apart {s : State} (a0 : State) (a1 : ℕ) (h0 : Apart s a0) : Apart s (trainPort a0 a1) := by
  delta trainPort
  extract_lets v0 v1
  clear_value v0 v1
  apply setPort_apart
  assumption

theorem execPortCtrl_apart {s : State} (a0 : ℕ) (a1 : ℕ) (a2 : State) (h0 : Apart s a2) : ApartO s (execPortCtrl a0 a1 a2) := by
  delta execPortCtrl
  refine ApartO.next ?_
  extract_lets v0 v1 v2
  clear_value v0
  have k3 : Apart s v1 := by
    unfold v1
    apply setPort_apart
    assumption
  clear_value v1
  clear_value v2
  refine Apart.ite ?_ ?_
  · apply setPort_apart
    assumption
  · refine Apart.ite ?_ ?_
    · apply trainPort_apart
      assumption
    · assumption

theorem execPortCredit_apart {s : State} (a0 : ℕ) (a1 : ℕ) (a2 : State) (h0 : Apart s a2) : ApartO s (execPortCredit a0 a1 a2) := by
  delta execPortCredit
  refine ApartO.next ?_
  refine Apart.ite ?_ ?_
  · apply setPort_apart
    assumption
  · apply regAccess_apart
    assumption

theorem writePort_apart {s : State} (a0 : State) (a1 : ℕ) (a2 : ℕ) (a3 : ℕ) (h0 : Apart s a0) : Apart s (writePort a0 a1 a2 a3) := by
  delta writePort
  extract_lets v0
  clear_value v0
  split
  · apply after_apart
    · apply execPortCtrl_apart
      assumption
    · assumption
  · apply setPort_apart
    assumption
  · apply setPort_apart
    assumption
  · apply after_apart
    · apply execPortCredit_apart
      assumption
    · assumption
  · refine Apart.ite ?_ ?_
    · assumption
    · apply setPort_apart
      assumption
  · assumption

theorem regWrite_apart {s : State} (a0 : State) (a1 : ℕ) (a2 : ℕ) (a3 : ℕ) (h0 : Apart s a0) : Apart s (regWrite a0 a1 a2 a3) := by
  delta regWrite
  refine Apart.ite ?_ ?_
  · apply writeScrub_apart
    assumption
  · refine Apart.ite ?_ ?_
    · apply writePwrCtrl_apart
      assumption
    · refine Apart.ite ?_ ?_
      · apply writeSic_apart
        assumption
      · refine Apart.ite ?_ ?_
        · extract_lets v0 v1
          clear_value v0 v1
          refine Apart.ite ?_ ?_
          · apply after_apart
            · apply execCntCtrl_apart
              assumption
            · assumption
          · refine Apart.ite ?_ ?_
            · apply setCnt_apart
              assumption
            · refine Apart.ite ?_ ?_
              · apply after_apart
                · apply execCntClear_apart
                  assumption
                · assumption
              · refine Apart.ite ?_ ?_
                · apply setCnt_apart
                  assumption
                · split
                  · apply writeSlot_apart
                    assumption
                  · assumption
        · refine Apart.ite ?_ ?_
          · apply writeTrace_apart
            assumption
          · refine Apart.ite ?_ ?_
            · apply writePort_apart
              assumption
            · refine Apart.ite ?_ ?_
              · apply releaseAll_apart
                refine Apart.set ?_
                assumption
              · assumption

theorem busWrite_apart {s : State} (a0 : State) (a1 : Via) (a2 : ℕ) (a3 : ℕ) (a4 : ℕ) (a5 : ℕ) (h0 : Apart s a0) : Apart s (busWrite a0 a1 a2 a3 a4 a5) := by
  delta busWrite
  refine Apart.ite ?_ ?_
  · assumption
  · split
    · split
      · refine Apart.ite ?_ ?_
        · apply ringWrite_apart
          assumption
        · assumption
      · apply regWrite_apart
        assumption
    · apply badAccess_apart
      assumption

theorem ckptEff_apart {s : State} (a0 : State) (a1 : Cmd) (h0 : Apart s a0) : Apart s (ckptEff a0 a1) := by
  delta ckptEff
  extract_lets v0
  clear_value v0
  refine Apart.foldl _ ?_ (fun t1 b1 h1 => ?_)
  · assumption
  · apply wrLocal_apart
    assumption

theorem ckptStart_apart {s : State} (a0 : State) (a1 : Cmd) (h0 : Apart s a0) : ApartR s (ckptStart a0 a1) := by
  delta ckptStart
  extract_lets v0 v1 v2 v3
  clear_value v0 v1 v2 v3
  refine ApartR.ite ?_ ?_
  · apply badIn_apart
  · refine ApartR.ite ?_ ?_
    · apply badIn_apart
    · refine ApartR.ite ?_ ?_
      · exact True.intro
      · refine ApartR.go ?_
        assumption

theorem clearStores_apart {s : State} (a0 : State) (a1 : Cmd) (a2 : Place) (h0 : Apart s a0) : Apart s (clearStores a0 a1 a2) := by
  delta clearStores
  refine Apart.ite ?_ ?_
  · assumption
  · extract_lets v0 v1 v2
    clear_value v0 v1 v2
    refine Apart.ite ?_ ?_
    · apply setRoot_apart
      assumption
    · refine Apart.foldl _ ?_ (fun t3 b3 h3 => ?_)
      · assumption
      · extract_lets v4 v5 v6 v7
        clear_value v4 v5 v6
        have k8 : Apart s v7 := by
          unfold v7
          refine Apart.ite ?_ ?_
          · refine Apart.set ?_
            assumption
          · assumption
        clear_value v7
        refine Apart.set ?_
        assumption

theorem requeueRe_apart {s : State} (a0 : State) (a1 : Cmd) (h0 : Apart s a0) : Apart s (requeueRe a0 a1) := by
  delta requeueRe
  refine Apart.ite ?_ ?_
  · assumption
  · extract_lets v0 v1
    clear_value v0 v1
    refine Apart.set ?_
    assumption

theorem killCmd_apart {s : State} (a0 : State) (a1 : Cmd) (a2 : ℕ) (h0 : Apart s a0) : Apart s (killCmd a0 a1 a2) := by
  delta killCmd
  extract_lets v0 v1 v2 v3 v4 v5 v6 v7 v8 v9 v10 v11 v12 v13 v14 v15
  clear_value v0
  have k16 : Apart s v1.1 := by
    unfold v1
    split
    · apply endStall_apart
      assumption
    · dsimp only
      assumption
  clear_value v1
  have k17 : Apart s v2 := by
    unfold v2
    apply releaseRun_apart
    assumption
  clear_value v2
  clear_value v3
  have k18 : Apart s v4 := by
    unfold v4
    split
    · apply settleSetters_apart
      apply leaveQueue_apart
      assumption
    · assumption
  clear_value v4
  have k19 : Apart s v5 := by
    unfold v5
    refine Apart.ite ?_ ?_
    · apply traceRec_apart
      assumption
    · assumption
  clear_value v5
  have k20 : Apart s v6 := by
    unfold v6
    refine Apart.ite ?_ ?_
    · apply drift_apart
      apply jobCount_apart
      assumption
    · assumption
  clear_value v6
  have k21 : Apart s v7 := by
    unfold v7
    split
    · refine Apart.ite ?_ ?_
      · apply count_apart
        assumption
      · assumption
    · assumption
  clear_value v7
  have k22 : Apart s v8 := by
    unfold v8
    apply seqAttn_apart
    assumption
  clear_value v8
  clear_value v9 v10
  have k23 : Apart s v11 := by
    unfold v11
    apply requeueRe_apart
    apply putCmd_apart
    assumption
  clear_value v11
  clear_value v12
  have k24 : Apart s v13 := by
    unfold v13
    refine Apart.ite ?_ ?_
    · apply returnClaim_apart
      assumption
    · assumption
  clear_value v13
  clear_value v14
  have k25 : Apart s v15 := by
    unfold v15
    apply reclaim_apart
    apply setLock_apart
    assumption
  clear_value v15
  refine Apart.ite ?_ ?_
  · assumption
  · split
    · apply putCmd_apart
      assumption
    · assumption

theorem putStream_apart {s : State} (a0 : State) (a1 : Stream) (h0 : Apart s a0) : Apart s (putStream a0 a1) := by
  delta putStream
  refine Apart.set ?_
  assumption

theorem putRound_apart {s : State} (a0 : State) (a1 : Round) (h0 : Apart s a0) : Apart s (putRound a0 a1) := by
  delta putRound
  refine Apart.set ?_
  assumption

theorem collEff_apart {s : State} (a0 : State) (a1 : Cmd) (h0 : Apart s a0) : Apart s (collEff a0 a1) := by
  delta collEff
  extract_lets v0 v1 v2 v3 v4 v5 v6 v7 v8 v9 v10 v11
  clear_value v0 v1 v2 v3 v4
  have k12 : Apart s v5 := by
    unfold v5
    apply putStream_apart
    assumption
  clear_value v5
  clear_value v6
  have k13 : Apart s v7 := by
    unfold v7
    apply putStream_apart
    assumption
  clear_value v7
  have k14 : Apart s v8 := by
    unfold v8
    refine Apart.ite ?_ ?_
    · apply addGacc_apart
      assumption
    · assumption
  clear_value v8
  clear_value v9 v10
  have k15 : Apart s v11 := by
    unfold v11
    refine Apart.ite ?_ ?_
    · refine Apart.set ?_
      assumption
    · assumption
  clear_value v11
  refine Apart.ite ?_ ?_
  · refine Apart.ite ?_ ?_
    · split
      · apply addGacc_apart
        assumption
      · assumption
    · assumption
  · refine Apart.ite ?_ ?_
    · split
      · refine Apart.foldl _ ?_ (fun t16 b16 h16 => ?_)
        · apply putRound_apart
          assumption
        · apply answerLate_apart
          assumption
      · assumption
    · assumption

theorem stage_apart {s : State} (a0 : State → Cmd → State) (a1 : State) (a2 : Cmd) (a3 : Stg) (h0 : ∀ y0 y1, Apart s y0 → Apart s (a0 y0 y1)) (h1 : Apart s a1) : Apart s (stage a0 a1 a2 a3) := by
  delta stage
  extract_lets v0 v1 v2 v3
  clear_value v0 v1
  have k4 : Apart s v2 := by
    unfold v2
    refine Apart.foldl _ ?_ (fun t5 b5 h5 => ?_)
    · assumption
    · apply sendCmd_apart
      assumption
  clear_value v2
  have k6 : Apart s v3 := by
    unfold v3
    apply count_apart
    assumption
  clear_value v3
  split
  · apply endLink_apart
    assumption
  · refine Apart.ite ?_ ?_
    · apply commitWith_apart
      · intro y7 y8 y9
        apply h0
        assumption
      · assumption
    · apply putCmd_apart
      assumption

theorem tryFlip_apart {s : State} (a0 : State) (a1 : Cmd) (h0 : Apart s a0) : Apart s (tryFlip a0 a1) := by
  delta tryFlip
  extract_lets v0 v1 v2 v3 v4
  clear_value v0 v1 v2 v3
  have k5 : Apart s v4 := by
    unfold v4
    refine Apart.foldl _ ?_ (fun t6 b6 h6 => ?_)
    · assumption
    · apply sendCmd_apart
      assumption
  clear_value v4
  refine Apart.ite ?_ ?_
  · apply putCmd_apart
    assumption
  · assumption

theorem collFinish_apart {s : State} (a0 : State) (a1 : Cmd) (h0 : Apart s a0) : Apart s (collFinish a0 a1) := by
  delta collFinish
  refine Apart.ite ?_ ?_
  · assumption
  · extract_lets v0 v1
    clear_value v0
    have k2 : Apart s v1 := by
      unfold v1
      apply stage_apart
      · intro y3 y4 y5
        apply collEff_apart
        assumption
      · assumption
    clear_value v1
    split
    · assumption
    · extract_lets v6 v7
      clear_value v6
      have k8 : Apart s v7 := by
        unfold v7
        refine Apart.ite ?_ ?_
        · refine Apart.foldl _ ?_ (fun t9 b9 h9 => ?_)
          · assumption
          · apply send_apart
            assumption
        · refine Apart.ite ?_ ?_
          · refine Apart.foldl _ ?_ (fun t10 b10 h10 => ?_)
            · assumption
            · refine Apart.ite ?_ ?_
              · apply send_apart
                assumption
              · assumption
          · assumption
      clear_value v7
      apply tryFlip_apart
      assumption

theorem takeSet_apart {s : State} (a0 : State) (a1 : Cmd) (a2 : List ℕ) (a3 : ℕ) (a4 : ℕ) (a5 : ℕ) (h0 : Apart s a0) : Apart s (takeSet a0 a1 a2 a3 a4 a5) := by
  delta takeSet
  extract_lets v0 v1 v2 v3 v4
  clear_value v0 v1
  have k5 : Apart s v2 := by
    unfold v2
    apply putCmd_apart
    assumption
  clear_value v2
  clear_value v3
  have k6 : Apart s v4 := by
    unfold v4
    refine Apart.foldl _ ?_ (fun t7 b7 h7 => ?_)
    · assumption
    · apply sendCmd_apart
      assumption
  clear_value v4
  apply collFinish_apart
  assumption

theorem freezeRound_apart {s : State} (a0 : State) (a1 : Round) (h0 : Apart s a0) : Apart s (freezeRound a0 a1) := by
  delta freezeRound
  split
  · assumption
  · extract_lets v0 v1 v2 v3 v4 v5
    clear_value v0 v1
    have k6 : Apart s v2 := by
      unfold v2
      apply putRound_apart
      assumption
    clear_value v2
    clear_value v3
    have k7 : Apart s v4 := by
      unfold v4
      apply putStream_apart
      assumption
    clear_value v4
    have k8 : Apart s v5 := by
      unfold v5
      refine Apart.foldl _ ?_ (fun t9 b9 h9 => ?_)
      · assumption
      · apply sendCmd_apart
        assumption
    clear_value v5
    refine Apart.ite ?_ ?_
    · apply takeSet_apart
      assumption
    · assumption

theorem freezeIfDue_apart {s : State} (a0 : State) (a1 : ℕ) (a2 : ℕ) (a3 : ℕ) (a4 : ℕ) (h0 : Apart s a0) : Apart s (freezeIfDue a0 a1 a2 a3 a4) := by
  delta freezeIfDue
  split
  · extract_lets v0 v1
    clear_value v0 v1
    refine Apart.ite ?_ ?_
    · apply freezeRound_apart
      assumption
    · assumption
  · assumption

theorem freezeFrom_apart {s : State} (n : Nat) (a0 : State) (a1 a2 a3 a4 : Nat) (h0 : Apart s a0) : Apart s (freezeFrom n a0 a1 a2 a3 a4) := by
  induction n generalizing a0 a4 with
  | zero => exact h0
  | succ n ih => exact Apart.ite (ih _ _ (freezeIfDue_apart _ _ _ _ _ h0)) (freezeIfDue_apart _ _ _ _ _ h0)

theorem tryFreeze_apart {s : State} (a0 : State) (a1 : Nat) (a2 : Nat) (a3 : Nat) (a4 : Nat) (h0 : Apart s a0) : Apart s (tryFreeze a0 a1 a2 a3 a4) :=
  freezeFrom_apart _ _ _ _ _ _ h0

theorem mismatch_apart {s : State} (a0 : State) (a1 : ℕ) (a2 : ℕ) (a3 : ℕ) (a4 : ℕ) (h0 : Apart s a0) : Apart s (mismatch a0 a1 a2 a3 a4) := by
  delta mismatch
  extract_lets v0 v1 v2 v3
  clear_value v0
  have k4 : Apart s v1 := by
    unfold v1
    refine Apart.foldl _ ?_ (fun t5 b5 h5 => ?_)
    · assumption
    · apply endCmd_apart
      apply raiseCmd_apart
      assumption
  clear_value v1
  clear_value v2
  have k6 : Apart s v3 := by
    unfold v3
    refine Apart.foldl _ ?_ (fun t7 b7 h7 => ?_)
    · assumption
    · refine Apart.foldl _ ?_ (fun t8 b8 h8 => ?_)
      · assumption
      · apply send_apart
        assumption
  clear_value v3
  refine Apart.set ?_
  assumption

theorem joinRound_apart {s : State} (a0 : State) (a1 : ℕ) (a2 : ℕ) (a3 : ℕ) (a4 : ℕ) (a5 : ℕ) (a6 : ℕ) (a7 : Bool) (h0 : Apart s a0) : Apart s (joinRound a0 a1 a2 a3 a4 a5 a6 a7) := by
  delta joinRound
  extract_lets v0 v1 v2 v3
  clear_value v0 v1
  have k4 : Apart s v2 := by
    unfold v2
    apply count_apart
    assumption
  clear_value v2
  have k5 : Apart s v3 := by
    unfold v3
    apply raise_apart
    apply fire_apart
    assumption
  clear_value v3
  split
  · refine Apart.ite ?_ ?_
    · apply mismatch_apart
      apply putRound_apart
      assumption
    · refine Apart.ite ?_ ?_
      · refine Apart.ite ?_ ?_
        · apply answerLate_apart
          assumption
        · refine Apart.ite ?_ ?_
          · apply send_apart
            assumption
          · apply putRound_apart
            assumption
      · apply tryFreeze_apart
        apply putRound_apart
        assumption
  · apply tryFreeze_apart
    apply putRound_apart
    assumption

theorem collRun_apart {s : State} (a0 : ℕ) (a1 : ℕ) (a2 : State) (h0 : Apart s a2) : Apart s (collRun a0 a1 a2) := by
  delta collRun
  split
  · assumption
  · refine Apart.ite ?_ ?_
    · assumption
    · refine Apart.ite ?_ ?_
      · extract_lets v0 v1 v2 v3 v4 v5
        clear_value v0 v1 v2 v3 v4
        have k6 : Apart s v5 := by
          unfold v5
          apply putCmd_apart
          assumption
        clear_value v5
        split
        · assumption
        · refine Apart.ite ?_ ?_
          · apply joinRound_apart
            assumption
          · split
            · apply endCmd_apart
              assumption
            · apply sendCmd_apart
              assumption
      · refine Apart.ite ?_ ?_
        · apply collFinish_apart
          assumption
        · assumption

theorem collStart_apart {s : State} (a0 : State) (a1 : Cmd) (h0 : Apart s a0) : ApartR s (collStart a0 a1) := by
  delta collStart
  extract_lets v0 v1 v2 v3 v4 v5 v6 v7 v8
  clear_value v0 v1 v2 v3 v4 v5 v6 v7 v8
  refine ApartR.ite ?_ ?_
  · apply badIn_apart
  · refine ApartR.ite ?_ ?_
    · apply badIn_apart
    · refine ApartR.ite ?_ ?_
      · exact True.intro
      · refine ApartR.ite ?_ ?_
        · apply badIn_apart
        · refine ApartR.ite ?_ ?_
          · apply badIn_apart
          · refine ApartR.ite ?_ ?_
            · apply badIn_apart
            · refine ApartR.ite ?_ ?_
              · apply badIn_apart
              · refine ApartR.ite ?_ ?_
                · split
                  · apply badIn_apart
                  · refine ApartR.ite ?_ ?_
                    · refine ApartR.go ?_
                      assumption
                    · exact True.intro
                · refine ApartR.ite ?_ ?_
                  · refine ApartR.ite ?_ ?_
                    · apply badIn_apart
                    · refine ApartR.ite ?_ ?_
                      · apply badIn_apart
                      · refine ApartR.go ?_
                        assumption
                  · refine ApartR.ite ?_ ?_
                    · refine ApartR.ite ?_ ?_
                      · apply badIn_apart
                      · refine ApartR.ite ?_ ?_
                        · apply badIn_apart
                        · refine ApartR.go ?_
                          assumption
                    · refine ApartR.go ?_
                      assumption

theorem zeroLocal_apart {s : State} (a0 : State) (a1 : ℕ) (a2 : ℕ) (a3 : ℕ) (h0 : Apart s a0) : Apart s (zeroLocal a0 a1 a2 a3) := by
  delta zeroLocal
  refine Apart.set ?_
  assumption

theorem zeroRegion_apart {s : State} (a0 : State) (a1 : Cmd) (a2 : ℕ) (a3 : ℕ) (h0 : Apart s a0) : Apart s (zeroRegion a0 a1 a2 a3) := by
  delta zeroRegion
  extract_lets v0
  clear_value v0
  apply markDirty_apart
  apply zeroLocal_apart
  assumption

theorem shardCopyEff_apart {s : State} (a0 : State) (a1 : Cmd) (h0 : Apart s a0) : Apart s (shardCopyEff a0 a1) := by
  delta shardCopyEff
  split
  · extract_lets v0 v1
    clear_value v0 v1
    split
    · assumption
    · refine Apart.ite ?_ ?_
      · apply copyEnded_apart
        refine Apart.set ?_
        assumption
      · extract_lets v2 v3
        have k4 : Apart s v2 := by
          unfold v2
          apply zeroRegion_apart
          assumption
        clear_value v2
        clear_value v3
        apply copyEnded_apart
        apply putShard_apart
        assumption
  · assumption

theorem syncFlight_apart {s : State} (a0 : State) (a1 : ℕ) (a2 : Flight) (h0 : Apart s a0) : Apart s (syncFlight a0 a1 a2) := by
  delta syncFlight
  apply wrLocal_apart
  assumption

theorem putFlight_apart {s : State} (a0 : State) (a1 : ℕ) (a2 : Flight) (h0 : Apart s a0) : Apart s (putFlight a0 a1 a2) := by
  delta putFlight
  apply syncFlight_apart
  refine Apart.set ?_
  assumption

theorem pushEff_apart {s : State} (a0 : State) (a1 : Cmd) (h0 : Apart s a0) : Apart s (pushEff a0 a1) := by
  delta pushEff
  split
  · split
    · assumption
    · extract_lets v0 v1 v2
      clear_value v0 v1 v2
      apply putFlight_apart
      assumption
  · assumption

theorem putFset_apart {s : State} (a0 : State) (a1 : ℕ) (a2 : Fset) (h0 : Apart s a0) : Apart s (putFset a0 a1 a2) := by
  delta putFset
  extract_lets v0 v1
  have k2 : Apart s v0 := by
    unfold v0
    refine Apart.set ?_
    assumption
  clear_value v0
  clear_value v1
  apply wrLocal_apart
  apply wrLocal_apart
  assumption

theorem rootEff_apart {s : State} (a0 : State) (a1 : Cmd) (h0 : Apart s a0) : Apart s (rootEff a0 a1) := by
  delta rootEff
  split
  · split
    · assumption
    · refine Apart.ite ?_ ?_
      · apply putFset_apart
        assumption
      · refine Apart.ite ?_ ?_
        · extract_lets v0
          have k1 : Apart s v0 := by
            unfold v0
            apply putFset_apart
            assumption
          clear_value v0
          split
          · apply raiseCmd_apart
            assumption
          · assumption
        · assumption
  · assumption

theorem dryWatch_apart {s : State} (a0 : State) (a1 : Cmd) (a2 : ℕ) (a3 : ℕ) (a4 : ℕ) (h0 : Apart s a0) : Apart s (dryWatch a0 a1 a2 a3 a4) := by
  delta dryWatch
  split
  · assumption
  · split
    · assumption
    · refine Apart.ite ?_ ?_
      · extract_lets v0 v1
        clear_value v0
        have k2 : Apart s v1 := by
          unfold v1
          refine Apart.set ?_
          assumption
        clear_value v1
        refine Apart.ite ?_ ?_
        · apply raiseFor_apart
          assumption
        · assumption
      · refine Apart.set ?_
        assumption

theorem hideWork_apart {s : State} (a0 : State) (a1 : Cmd) (h0 : Apart s a0) : Apart s (hideWork a0 a1) := by
  delta hideWork
  refine Apart.foldl _ ?_ (fun t0 b0 h0 => ?_)
  · assumption
  · refine Apart.set ?_
    assumption

theorem updEff_apart {s : State} (a0 : State) (a1 : Cmd) (h0 : Apart s a0) : Apart s (updEff a0 a1) := by
  delta updEff
  extract_lets v0 v1 v2
  clear_value v0 v1 v2
  split
  · assumption
  · extract_lets v3 v4 v5 v6 v7 v8 v9
    have k10 : Apart s v3 := by
      unfold v3
      refine Apart.ite ?_ ?_
      · apply zeroRegion_apart
        assumption
      · assumption
    clear_value v3
    clear_value v4
    have k11 : Apart s v5 := by
      unfold v5
      apply putShard_apart
      assumption
    clear_value v5
    have k12 : Apart s v6 := by
      unfold v6
      apply raiseCmd_apart
      assumption
    clear_value v6
    clear_value v7 v8
    have k13 : Apart s v9 := by
      unfold v9
      apply putShard_apart
      assumption
    clear_value v9
    refine Apart.ite ?_ ?_
    · apply dryWatch_apart
      assumption
    · apply dryWatch_apart
      apply hideWork_apart
      assumption

theorem shardEff_apart {s : State} (a0 : State) (a1 : Cmd) (h0 : Apart s a0) : Apart s (shardEff a0 a1) := by
  delta shardEff
  extract_lets v0 v1 v2 v3 v4
  clear_value v0 v1 v2
  have k5 : Apart s v3 := by
    unfold v3
    apply zeroRegion_apart
    apply zeroRegion_apart
    assumption
  clear_value v3
  have k6 : Apart s v4 := by
    unfold v4
    refine Apart.ite ?_ ?_
    · apply zeroRegion_apart
      apply zeroRegion_apart
      assumption
    · assumption
  clear_value v4
  apply putShard_apart
  assumption

theorem writeRegs_apart {s : State} (a0 : State) (a1 : SWrite) (h0 : Apart s a0) : Apart s (writeRegs a0 a1) := by
  delta writeRegs
  split
  · assumption
  · refine Apart.foldl _ ?_ (fun t0 b0 h0 => ?_)
    · assumption
    · apply busWrite_apart
      assumption

theorem moveEff_apart {s : State} (a0 : State) (a1 : Cmd) (h0 : Apart s a0) : Apart s (moveEff a0 a1) := by
  delta moveEff
  refine Apart.foldl _ ?_ (fun t0 b0 h0 => ?_)
  · assumption
  · apply writeRegs_apart
    assumption

theorem commitEff_apart {s : State} (a0 : Cmd) (a1 : State) (a2 : Cmd) (h0 : Apart s a1) : Apart s (commitEff a0 a1 a2) := by
  have pick : ∀ (p : Prop) [Decidable p] (f g : State → Cmd → State), Apart s (f a1 a2) → Apart s (g a1 a2) → Apart s ((if p then f else g) a1 a2) := by
    intro p _ f g hf hg
    by_cases hp : p
    · rw [if_pos hp]; exact hf
    · rw [if_neg hp]; exact hg
  have hn := noEffect_apart a1 a2 h0
  have rest := pick (a0.pkt.clsOp = 0x101) _ _ (pushEff_apart _ _ h0) (pick (a0.pkt.cls = 4) _ _ (rootEff_apart _ _ h0)
    (pick (a0.pkt.cls = 6) _ _ (pick (a0.pkt.op ≤ 3) _ _ (updEff_apart _ _ h0) (pick (a0.pkt.op = 8) _ _ (shardEff_apart _ _ h0) hn))
      (pick (a0.pkt.cls = 7 ∧ a0.pkt.op < 0x10) _ _ (moveEff_apart _ _ h0) (pick (a0.pkt.cls = 9) _ _ (collEff_apart _ _ h0) hn))))
  unfold commitEff
  cases a0.origin with
  | shardCopy p e => exact shardCopyEff_apart _ _ h0
  | _ => exact rest

theorem commitRow_apart {s : State} (a0 : State) (a1 : Cmd) (h0 : Apart s a0) : Apart s (commitRow a0 a1) := by
  delta commitRow
  apply commitWith_apart
  · intro y0 y1 y2
    apply noEffect_apart
    assumption
  · assumption

theorem copyDone_apart {s : State} (a0 : State) (a1 : Cmd) (a2 : ℕ) (a3 : ℕ) (a4 : ℕ × ℕ × ℕ) (h0 : Apart s a0) : Apart s (copyDone a0 a1 a2 a3 a4) := by
  delta copyDone
  apply copyEnded_apart
  apply dropCmd_apart
  apply releaseRun_apart
  assumption

theorem killAll_apart {s : State} (a0 : State) (a1 : ℕ) (a2 : Cmd → Bool) (h0 : Apart s a0) : Apart s (killAll a0 a1 a2) := by
  delta killAll
  refine Apart.foldl _ ?_ (fun t0 b0 h0 => ?_)
  · assumption
  · split
    · apply killCmd_apart
      assumption
    · assumption

theorem countNs_apart {s : State} (a0 : State) (a1 : ℕ) (h0 : Apart s a0) : Apart s (countNs a0 a1) := by
  delta countNs
  refine Apart.foldl _ ?_ (fun t0 b0 h0 => ?_)
  · assumption
  · apply count_apart
    apply count_apart
    assumption

theorem debtFor_apart {s : State} (a0 : State) (a1 : Cmd) (h0 : Apart s a0) : Apart s (debtFor a0 a1) := by
  delta debtFor
  extract_lets v0 v1 v2 v3 v4 v5
  clear_value v0 v1 v2 v3 v4
  have k6 : Apart s v5 := by
    unfold v5
    refine Apart.set ?_
    assumption
  clear_value v5
  refine Apart.ite ?_ ?_
  · assumption
  · split
    · assumption
    · apply raiseFor_apart
      assumption

theorem debtPass_apart {s : State} (a0 : State) (h0 : Apart s a0) : Apart s (debtPass a0) := by
  delta debtPass
  refine Apart.foldl _ ?_ (fun t0 b0 h0 => ?_)
  · assumption
  · apply debtFor_apart
    assumption

theorem sendMembers_apart {s : State} (a0 : State) (h0 : Apart s a0) : Apart s (sendMembers a0) := by
  delta sendMembers
  refine Apart.foldl _ ?_ (fun t0 b0 h0 => ?_)
  · assumption
  · apply sendDom_apart
    assumption

theorem setMember_apart {s : State} (a0 : State) (a1 : ℕ) (a2 : ℕ) (h0 : Apart s a0) : Apart s (setMember a0 a1 a2) := by
  delta setMember
  apply sendMembers_apart
  refine Apart.set ?_
  assumption

theorem sendAnnounce_apart {s : State} (a0 : State) (h0 : Apart s a0) : Apart s (sendAnnounce a0) := by
  delta sendAnnounce
  refine Apart.foldl _ ?_ (fun t0 b0 h0 => ?_)
  · assumption
  · apply sendDom_apart
    assumption

theorem digestStart_apart {s : State} (a0 : State) (a1 : Cmd) (h0 : Apart s a0) : ApartR s (digestStart a0 a1) := by
  delta digestStart
  extract_lets v0 v1 v2
  clear_value v0 v1 v2
  refine ApartR.ite ?_ ?_
  · apply badIn_apart
  · refine ApartR.ite ?_ ?_
    · exact True.intro
    · refine ApartR.ite ?_ ?_
      · exact True.intro
      · refine ApartR.go ?_
        assumption

theorem dropChange_apart {s : State} (a0 : State) (a1 : Change) (h0 : Apart s a0) : Apart s (dropChange a0 a1) := by
  delta dropChange
  extract_lets v0 v1 v2
  have k3 : Apart s v0 := by
    unfold v0
    refine Apart.set ?_
    assumption
  clear_value v0
  clear_value v1
  have k4 : Apart s v2 := by
    unfold v2
    refine Apart.ite ?_ ?_
    · refine Apart.set ?_
      assumption
    · assumption
  clear_value v2
  apply autoChange_apart
  apply endModeCmd_apart
  assumption

theorem emitEv_apart {s : State} (a0 : State) (a1 : Cmd) (a2 : CEvent) (h0 : Apart s a0) : Apart s (emitEv a0 a1 a2) := by
  delta emitEv
  extract_lets v0 v1 v2 v3
  have k4 : Apart s v0 := by
    unfold v0
    apply raiseCmd_apart
    assumption
  clear_value v0
  clear_value v1 v2
  have k5 : Apart s v3 := by
    unfold v3
    refine Apart.set ?_
    assumption
  clear_value v3
  refine Apart.ite ?_ ?_
  · assumption
  · split
    · apply raiseCmd_apart
      assumption
    · assumption

theorem endPromotion_apart {s : State} (a0 : State) (a1 : ℕ) (a2 : ℕ) (a3 : List Byte) (h0 : Apart s a0) : Apart s (endPromotion a0 a1 a2 a3) := by
  delta endPromotion
  split
  · assumption
  · extract_lets v0 v1 v2
    clear_value v0
    have k3 : Apart s v1 := by
      unfold v1
      apply poundPublish_apart
      apply wrLocal_apart
      assumption
    clear_value v1
    clear_value v2
    apply unpinUse_apart
    apply putObj_apart
    assumption

theorem trapCmd_apart {s : State} (a0 : State) (a1 : Cmd) (a2 : NanAt) (h0 : Apart s a0) : Apart s (trapCmd a0 a1 a2) := by
  delta trapCmd
  split
  · apply endCmd_apart
    assumption
  · extract_lets v0 v1 v2 v3 v4 v5
    clear_value v0 v1 v2
    have k6 : Apart s v3 := by
      unfold v3
      apply moduleWrite_apart
      assumption
    clear_value v3
    have k7 : Apart s v4 := by
      unfold v4
      apply raiseCmd_apart
      assumption
    clear_value v4
    have k8 : Apart s v5 := by
      unfold v5
      refine Apart.ite ?_ ?_
      · apply moduleWrite_apart
        assumption
      · apply updJob_apart
        assumption
    clear_value v5
    apply endCmd_apart
    assumption

theorem runOp_apart {s : State} (a0 : ℕ) (a1 : State → Cmd → Out) (a2 : State → Cmd → State) (a3 : ℕ) (a4 : State) (h0 : ∀ y0 y1, Apart s y0 → Apart s (a2 y0 y1)) (h1 : Apart s a4) : ApartO s (runOp a0 a1 a2 a3 a4) := by
  delta runOp
  split
  · refine ApartO.next ?_
    assumption
  · refine ApartO.ite ?_ ?_
    · split
      · refine ApartO.next ?_
        apply askReads_apart
        assumption
      · refine ApartO.next ?_
        apply endCmd_apart
        refine Apart.foldl _ ?_ (fun t0 b0 h0 => ?_)
        · assumption
        · apply emitEv_apart
          assumption
      · refine ApartO.next ?_
        apply putCmd_apart
        assumption
      · refine ApartO.next ?_
        apply trapCmd_apart
        assumption
      · extract_lets v1
        clear_value v1
        refine ApartO.next ?_
        apply askReads_apart
        apply putCmd_apart
        refine Apart.foldl _ ?_ (fun t2 b2 h2 => ?_)
        · assumption
        · apply emitEv_apart
          assumption
      · refine ApartO.next ?_
        apply stage_apart
        · intro y3 y4 y5
          apply h0
          assumption
        · refine Apart.foldl _ ?_ (fun t6 b6 h6 => ?_)
          · assumption
          · apply emitEv_apart
            assumption
    · refine ApartO.next ?_
      assumption

theorem execAbs_apart {s : State} (a0 : ℕ) (a1 : State) (h0 : Apart s a1) : ApartO s (execAbs a0 a1) := by
  delta execAbs
  apply runOp_apart
  · intro y0 y1 y2
    apply noEffect_apart
    assumption
  · assumption

end Sys2Proof.Machine
end

