-- ==== Sys2Proof/Laws/ApartExec.lean ====
section
/-! SUPPORT. What leaves `Apart` alone, part two, the meanings of commands among them. -/

set_option linter.unusedVariables false

namespace Sys2Proof.Machine

theorem receive_apart {s : State} (a0 : ℕ) (a1 : MsgHdr) (a2 : State → State) (a3 : State) (h0 : ∀ y0, Apart s y0 → Apart s (a2 y0)) (h1 : Apart s a3) : ApartO s (receive a0 a1 a2 a3) := by
  delta receive
  refine ApartO.next ?_
  refine Apart.ite ?_ ?_
  · assumption
  · refine Apart.ite ?_ ?_
    · apply discardMsg_apart
      assumption
    · refine Apart.ite ?_ ?_
      · assumption
      · refine Apart.ite ?_ ?_
        · assumption
        · extract_lets v0 v1
          clear_value v0 v1
          split
          · apply authFail_apart
            assumption
          · extract_lets v2
            have k3 : Apart s v2 := by
              unfold v2
              refine Apart.set ?_
              assumption
            clear_value v2
            apply h0
            apply traceRec_apart
            assumption

theorem execAck_apart {s : State} (a0 : MsgHdr) (a1 : ℕ) (a2 : ℕ) (a3 : State) (h0 : Apart s a3) : ApartO s (execAck a0 a1 a2 a3) := by
  delta execAck
  apply receive_apart
  · intro y0 y1
    split
    · assumption
    · extract_lets v2
      clear_value v2
      apply openChange_apart
      apply putChange_apart
      assumption
  · assumption

theorem execAdd_apart {s : State} (a0 : ℕ) (a1 : State) (h0 : Apart s a1) : ApartO s (execAdd a0 a1) := by
  delta execAdd
  apply runOp_apart
  · intro y0 y1 y2
    apply noEffect_apart
    assumption
  · assumption

theorem execAllGather_apart {s : State} (a0 : ℕ) (a1 : State) (h0 : Apart s a1) : ApartO s (execAllGather a0 a1) := by
  delta execAllGather
  refine ApartO.next ?_
  apply collRun_apart
  assumption

theorem execAllReduce_apart {s : State} (a0 : ℕ) (a1 : State) (h0 : Apart s a1) : ApartO s (execAllReduce a0 a1) := by
  delta execAllReduce
  refine ApartO.next ?_
  apply collRun_apart
  assumption

theorem execAnnounce_apart {s : State} (a0 : MsgHdr) (a1 : ℕ) (a2 : State) (h0 : Apart s a2) : ApartO s (execAnnounce a0 a1 a2) := by
  delta execAnnounce
  apply receive_apart
  · intro y0 y1
    refine Apart.ite ?_ ?_
    · apply raiseMod_apart
      refine Apart.set ?_
      assumption
    · extract_lets v2 v3 v4 v5 v6
      clear_value v2 v3
      have k7 : Apart s v4 := by
        unfold v4
        refine Apart.set ?_
        assumption
      clear_value v4
      clear_value v5
      have k8 : ∀ y0, Apart s (v6 y0) := by
        intro y9
        unfold v6
        refine Apart.set ?_
        assumption
      clear_value v6
      split
      · apply k8
      · refine Apart.ite ?_ ?_
        · assumption
        · extract_lets v10 v11
          clear_value v10
          have k12 : Apart s v11 := by
            unfold v11
            apply k8
          clear_value v11
          refine Apart.ite ?_ ?_
          · apply raiseMod_apart
            assumption
          · assumption
  · assumption

theorem execAnnounceTimer_apart {s : State} (a0 : State) (h0 : Apart s a0) : ApartO s (execAnnounceTimer a0) := by
  delta execAnnounceTimer
  refine ApartO.next ?_
  refine Apart.ite ?_ ?_
  · apply sendAnnounce_apart
    assumption
  · assumption

theorem execAttest_apart {s : State} (a0 : ℕ) (a1 : State) (h0 : Apart s a1) : ApartO s (execAttest a0 a1) := by
  delta execAttest
  apply runOp_apart
  · intro y0 y1 y2
    apply noEffect_apart
    assumption
  · assumption

theorem execAuthNak_apart {s : State} (a0 : MsgHdr) (a1 : State) (h0 : Apart s a1) : ApartO s (execAuthNak a0 a1) := by
  delta execAuthNak
  apply receive_apart
  · intro y0 y1
    split
    · apply endCmd_apart
      assumption
    · assumption
  · assumption

theorem execBarrier_apart {s : State} (a0 : ℕ) (a1 : State) (h0 : Apart s a1) : ApartO s (execBarrier a0 a1) := by
  delta execBarrier
  refine ApartO.next ?_
  apply collRun_apart
  assumption

theorem execBroadcast_apart {s : State} (a0 : ℕ) (a1 : State) (h0 : Apart s a1) : ApartO s (execBroadcast a0 a1) := by
  delta execBroadcast
  refine ApartO.next ?_
  apply collRun_apart
  assumption

theorem testRun_apart {s : State} (a0 : ℕ) (a1 : ℕ) (a2 : State) (h0 : Apart s a2) : Apart s (testRun a0 a1 a2) := by
  delta testRun
  split
  · assumption
  · refine Apart.ite ?_ ?_
    · assumption
    · split
      · apply endCmd_apart
        assumption
      · refine Apart.ite ?_ ?_
        · apply endCmd_apart
          assumption
        · apply askTest_apart
          assumption

theorem execCalHbm_apart {s : State} (a0 : ℕ) (a1 : State) (h0 : Apart s a1) : ApartO s (execCalHbm a0 a1) := by
  delta execCalHbm
  refine ApartO.next ?_
  apply testRun_apart
  assumption

theorem execCalPort_apart {s : State} (a0 : ℕ) (a1 : State) (h0 : Apart s a1) : ApartO s (execCalPort a0 a1) := by
  delta execCalPort
  refine ApartO.next ?_
  apply testRun_apart
  assumption

theorem execCensusSetup_apart {s : State} (a0 : ℕ) (a1 : State) (h0 : Apart s a1) : ApartO s (execCensusSetup a0 a1) := by
  delta execCensusSetup
  apply runOp_apart
  · intro y0 y1 y2
    refine Apart.set ?_
    assumption
  · assumption

theorem execCensusStop_apart {s : State} (a0 : ℕ) (a1 : State) (h0 : Apart s a1) : ApartO s (execCensusStop a0 a1) := by
  delta execCensusStop
  apply runOp_apart
  · intro y0 y1 y2
    refine Apart.set ?_
    assumption
  · assumption

theorem issueOwn_apart {s : State} (a0 : State) (a1 : Cmd) (h0 : Apart s a0) : Apart s (issueOwn a0 a1) := by
  delta issueOwn
  refine Apart.set ?_
  assumption

theorem execCheckpoint_apart {s : State} (a0 : ℕ) (a1 : State) (h0 : Apart s a1) : ApartO s (execCheckpoint a0 a1) := by
  delta execCheckpoint
  refine ApartO.next ?_
  split
  · assumption
  · refine Apart.ite ?_ ?_
    · assumption
    · refine Apart.ite ?_ ?_
      · extract_lets v0 v1
        clear_value v0
        have k2 : Apart s v1 := by
          unfold v1
          apply putCmd_apart
          assumption
        clear_value v1
        refine Apart.foldl _ ?_ (fun t3 b3 h3 => ?_)
        · assumption
        · extract_lets v4 v5
          clear_value v4 v5
          apply issueOwn_apart
          assumption
      · refine Apart.ite ?_ ?_
        · assumption
        · apply commitWith_apart
          · intro y6 y7 y8
            apply ckptEff_apart
            assumption
          · assumption

theorem scratchEnd_apart {s : State} (a0 : State) (a1 : Cmd) (h0 : Apart s a0) : Apart s (scratchEnd a0 a1) := by
  delta scratchEnd
  extract_lets v0
  clear_value v0
  apply endCmd_apart
  apply raiseCmd_apart
  assumption

theorem runProblems_apart {s : State} (a0 : ℕ) (a1 : State → Cmd → List (GAddr × ℕ)) (a2 : State → Cmd → Out) (a3 : State → Cmd → State) (a4 : ℕ) (a5 : State) (h0 : ∀ y0 y1, Apart s y0 → Apart s (a3 y0 y1)) (h1 : Apart s a5) : ApartO s (runProblems a0 a1 a2 a3 a4 a5) := by
  delta runProblems
  split
  · refine ApartO.next ?_
    assumption
  · refine ApartO.ite ?_ ?_
    · refine ApartO.ite ?_ ?_
      · refine ApartO.next ?_
        apply scratchEnd_apart
        assumption
      · split
        · refine ApartO.next ?_
          apply eccEnd_apart
          assumption
        · apply runOp_apart
          · intro y0 y1 y2
            apply h0
            assumption
          · assumption
    · refine ApartO.next ?_
      assumption

theorem execCholFactor_apart {s : State} (a0 : ℕ) (a1 : State) (h0 : Apart s a1) : ApartO s (execCholFactor a0 a1) := by
  delta execCholFactor
  apply runProblems_apart
  · intro y0 y1 y2
    apply rootEff_apart
    assumption
  · assumption

theorem execCmdAbort_apart {s : State} (a0 : ℕ) (a1 : State) (h0 : Apart s a1) : ApartO s (execCmdAbort a0 a1) := by
  delta execCmdAbort
  apply runOp_apart
  · intro y0 y1 y2
    apply abortEff_apart
    assumption
  · assumption

theorem execCollData_apart {s : State} (a0 : MsgHdr) (a1 : ℕ) (a2 : ℕ) (a3 : ℕ) (a4 : List Byte) (a5 : State) (h0 : Apart s a5) : ApartO s (execCollData a0 a1 a2 a3 a4 a5) := by
  delta execCollData
  apply receive_apart
  · intro y0 y1
    split
    · assumption
    · refine Apart.ite ?_ ?_
      · assumption
      · extract_lets v2
        clear_value v2
        refine Apart.ite ?_ ?_
        · apply collFinish_apart
          apply putCmd_apart
          assumption
        · apply putCmd_apart
          assumption
  · assumption

theorem execCollFlip_apart {s : State} (a0 : MsgHdr) (a1 : ℕ) (a2 : ℕ) (a3 : ℕ) (a4 : ℕ) (a5 : State) (h0 : Apart s a5) : ApartO s (execCollFlip a0 a1 a2 a3 a4 a5) := by
  delta execCollFlip
  apply receive_apart
  · intro y0 y1
    split
    · assumption
    · refine Apart.ite ?_ ?_
      · apply putCmd_apart
        assumption
      · assumption
  · assumption

theorem execCollJoin_apart {s : State} (a0 : MsgHdr) (a1 : ℕ) (a2 : ℕ) (a3 : ℕ) (a4 : ℕ) (a5 : Bool) (a6 : State) (h0 : Apart s a6) : ApartO s (execCollJoin a0 a1 a2 a3 a4 a5 a6) := by
  delta execCollJoin
  apply receive_apart
  · intro y0 y1
    apply joinRound_apart
    assumption
  · assumption

theorem execCollLate_apart {s : State} (a0 : MsgHdr) (a1 : ℕ) (a2 : ℕ) (a3 : ℕ) (a4 : ℕ) (a5 : List Byte) (a6 : State) (h0 : Apart s a6) : ApartO s (execCollLate a0 a1 a2 a3 a4 a5 a6) := by
  delta execCollLate
  apply receive_apart
  · intro y0 y1
    split
    · assumption
    · refine Apart.ite ?_ ?_
      · assumption
      · refine Apart.ite ?_ ?_
        · apply endCmd_apart
          apply raiseCmd_apart
          assumption
        · extract_lets v2
          clear_value v2
          apply stage_apart
          · intro y3 y4 y5
            apply collEff_apart
            assumption
          · apply putCmd_apart
            assumption
  · assumption

theorem execCollSet_apart {s : State} (a0 : MsgHdr) (a1 : ℕ) (a2 : ℕ) (a3 : ℕ) (a4 : ℕ) (a5 : List ℕ) (a6 : State) (h0 : Apart s a6) : ApartO s (execCollSet a0 a1 a2 a3 a4 a5 a6) := by
  delta execCollSet
  apply receive_apart
  · intro y0 y1
    split
    · assumption
    · refine Apart.ite ?_ ?_
      · assumption
      · refine Apart.ite ?_ ?_
        · apply endCmd_apart
          apply raiseCmd_apart
          assumption
        · apply takeSet_apart
          assumption
  · assumption

theorem timeTo_apart {s : State} (a0 : State) (a1 : ℕ) (h0 : Apart s a0) : Apart s (timeTo a0 a1) := by
  delta timeTo
  refine Apart.ite ?_ ?_
  · extract_lets v0
    have k1 : Apart s v0 := by
      unfold v0
      apply drift_apart
      apply countNs_apart
      assumption
    clear_value v0
    refine Apart.set ?_
    assumption
  · assumption

theorem execCollectiveDeadline_apart {s : State} (a0 : ℕ) (a1 : State) (h0 : Apart s a1) : ApartO s (execCollectiveDeadline a0 a1) := by
  delta execCollectiveDeadline
  refine ApartO.next ?_
  split
  · assumption
  · refine Apart.ite ?_ ?_
    · assumption
    · extract_lets v0 v1
      clear_value v0
      have k2 : Apart s v1 := by
        unfold v1
        apply timeTo_apart
        assumption
      clear_value v1
      split
      · refine Apart.ite ?_ ?_
        · split
          · apply tryFreeze_apart
            apply freezeRound_apart
            assumption
          · assumption
        · assumption
      · assumption

theorem park_apart {s : State} (a0 : State) (a1 : Cmd) (a2 : Option ℕ) (h0 : Apart s a0) : Apart s (park a0 a1 a2) := by
  delta park
  apply putCmd_apart
  assumption

theorem flightStart_apart {s : State} (a0 : State) (a1 : Cmd) (h0 : Apart s a0) : ApartR s (flightStart a0 a1) := by
  delta flightStart
  split
  · refine ApartR.go ?_
    assumption
  · extract_lets v0
    clear_value v0
    refine ApartR.ite ?_ ?_
    · exact True.intro
    · refine ApartR.ite ?_ ?_
      · split
        · apply badIn_apart
        · split
          · refine ApartR.ite ?_ ?_
            · refine ApartR.go ?_
              assumption
            · exact True.intro
          · refine ApartR.ite ?_ ?_
            · exact True.intro
            · refine ApartR.go ?_
              assumption
      · split
        · apply badIn_apart
        · refine ApartR.ite ?_ ?_
          · exact True.intro
          · refine ApartR.ite ?_ ?_
            · split
              · apply badIn_apart
              · extract_lets v1 v2 v3 v4 v5
                clear_value v1 v2 v3 v4 v5
                refine ApartR.ite ?_ ?_
                · exact True.intro
                · refine ApartR.go ?_
                  refine Apart.set ?_
                  assumption
            · split
              · exact True.intro
              · refine ApartR.ite ?_ ?_
                · exact True.intro
                · refine ApartR.ite ?_ ?_
                  · refine ApartR.ite ?_ ?_
                    · exact True.intro
                    · refine ApartR.go ?_
                      assumption
                  · split
                    · apply badIn_apart
                    · refine ApartR.ite ?_ ?_
                      · apply badIn_apart
                      · refine ApartR.ite ?_ ?_
                        · exact True.intro
                        · refine ApartR.go ?_
                          assumption

theorem fsetStart_apart {s : State} (a0 : Cmd → List (ℕ × ℕ)) (a1 : State) (a2 : Cmd) (h0 : Apart s a1) : ApartR s (fsetStart a0 a1 a2) := by
  delta fsetStart
  extract_lets v0 v1
  clear_value v0 v1
  refine ApartR.ite ?_ ?_
  · refine ApartR.ite ?_ ?_
    · apply badIn_apart
    · split
      · refine ApartR.ite ?_ ?_
        · exact True.intro
        · refine ApartR.ite ?_ ?_
          · exact True.intro
          · refine ApartR.go ?_
            assumption
      · refine ApartR.ite ?_ ?_
        · exact True.intro
        · refine ApartR.go ?_
          assumption
  · split
    · apply badIn_apart
    · refine ApartR.ite ?_ ?_
      · exact True.intro
      · refine ApartR.go ?_
        assumption

theorem rootStart_apart {s : State} (a0 : Cmd → List (ℕ × ℕ)) (a1 : State) (a2 : Cmd) (h0 : Apart s a1) : ApartR s (rootStart a0 a1 a2) := by
  delta rootStart
  split
  · exact True.intro
  · extract_lets v0 v1
    clear_value v0 v1
    refine ApartR.ite ?_ ?_
    · apply badIn_apart
    · refine ApartR.ite ?_ ?_
      · exact True.intro
      · refine ApartR.ite ?_ ?_
        · exact True.intro
        · refine ApartR.ite ?_ ?_
          · apply badIn_apart
          · refine ApartR.ite ?_ ?_
            · exact True.intro
            · refine ApartR.ite ?_ ?_
              · exact True.intro
              · refine ApartR.go ?_
                assumption

theorem solveStart_apart {s : State} (a0 : State) (a1 : Cmd) (h0 : Apart s a0) : ApartR s (solveStart a0 a1) := by
  delta solveStart
  extract_lets v0 v1 v2 v3 v4
  clear_value v0 v1 v2 v3 v4
  refine ApartR.ite ?_ ?_
  · apply badIn_apart
  · refine ApartR.ite ?_ ?_
    · exact True.intro
    · refine ApartR.ite ?_ ?_
      · exact True.intro
      · refine ApartR.ite ?_ ?_
        · apply badIn_apart
        · refine ApartR.ite ?_ ?_
          · exact True.intro
          · refine ApartR.ite ?_ ?_
            · exact True.intro
            · refine ApartR.go ?_
              assumption

theorem updStart_apart {s : State} (a0 : State) (a1 : Cmd) (h0 : Apart s a0) : ApartR s (updStart a0 a1) := by
  delta updStart
  extract_lets v0 v1 v2 v3 v4 v5
  clear_value v0 v1 v2 v3 v4 v5
  split
  · apply badIn_apart
  · extract_lets v6 v7 v8
    clear_value v6 v7 v8
    refine ApartR.ite ?_ ?_
    · apply badIn_apart
    · refine ApartR.ite ?_ ?_
      · exact True.intro
      · refine ApartR.ite ?_ ?_
        · exact True.intro
        · refine ApartR.ite ?_ ?_
          · apply badIn_apart
          · refine ApartR.ite ?_ ?_
            · apply badIn_apart
            · refine ApartR.ite ?_ ?_
              · apply badIn_apart
              · refine ApartR.ite ?_ ?_
                · apply badIn_apart
                · refine ApartR.ite ?_ ?_
                  · exact True.intro
                  · refine ApartR.ite ?_ ?_
                    · exact True.intro
                    · refine ApartR.ite ?_ ?_
                      · exact True.intro
                      · refine ApartR.go ?_
                        apply hideWork_apart
                        assumption

theorem shardStart_apart {s : State} (a0 : State) (a1 : Cmd) (h0 : Apart s a0) : ApartR s (shardStart a0 a1) := by
  delta shardStart
  extract_lets v0 v1
  clear_value v0 v1
  refine ApartR.ite ?_ ?_
  · apply badIn_apart
  · refine ApartR.ite ?_ ?_
    · exact True.intro
    · refine ApartR.ite ?_ ?_
      · exact True.intro
      · refine ApartR.ite ?_ ?_
        · exact True.intro
        · refine ApartR.go ?_
          assumption

theorem schedStart_apart {s : State} (a0 : State) (a1 : Cmd) (h0 : Apart s a0) : ApartR s (schedStart a0 a1) := by
  delta schedStart
  extract_lets v0 v1 v2
  clear_value v0 v1 v2
  refine ApartR.ite ?_ ?_
  · apply badIn_apart
  · refine ApartR.ite ?_ ?_
    · apply badIn_apart
    · refine ApartR.ite ?_ ?_
      · exact True.intro
      · refine ApartR.ite ?_ ?_
        · exact True.intro
        · refine ApartR.go ?_
          assumption

theorem gatherStart_apart {s : State} (a0 : State) (a1 : Cmd) (h0 : Apart s a0) : ApartR s (gatherStart a0 a1) := by
  delta gatherStart
  extract_lets v0
  clear_value v0
  refine ApartR.ite ?_ ?_
  · apply badIn_apart
  · refine ApartR.ite ?_ ?_
    · refine ApartR.go ?_
      assumption
    · split
      · apply badIn_apart
      · refine ApartR.ite ?_ ?_
        · exact True.intro
        · split
          · exact True.intro
          · refine ApartR.go ?_
            assumption

theorem readRegs_apart {s : State} (a0 : State) (a1 : GAddr) (a2 : ℕ) (h0 : Apart s a0) : Apart s (readRegs a0 a1 a2).1 := by
  delta readRegs
  split
  · dsimp only
    assumption
  · refine Apart.foldlP _ ?_ (fun t0 b0 h0 => ?_)
    · dsimp only
      assumption
    · extract_lets v1
      have k2 : Apart s v1.1 := by
        unfold v1
        apply busRead_apart
        assumption
      clear_value v1
      dsimp only
      assumption

theorem takeRegs_apart {s : State} (a0 : State) (a1 : Cmd) (h0 : Apart s a0) : Apart s (takeRegs a0 a1).1 := by
  delta takeRegs
  extract_lets v0 v1
  clear_value v0
  have k2 : Apart s v1.1 := by
    unfold v1
    apply readRegs_apart
    assumption
  clear_value v1
  split
  · dsimp only
    assumption
  · dsimp only
    assumption

theorem moveStart_apart {s : State} (a0 : State) (a1 : Cmd) (h0 : Apart s a0) : ApartR s (moveStart a0 a1) := by
  delta moveStart
  extract_lets v0 v1
  clear_value v0 v1
  refine ApartR.ite ?_ ?_
  · exact True.intro
  · refine ApartR.ite ?_ ?_
    · exact True.intro
    · refine ApartR.go ?_
      apply takeRegs_apart
      assumption

theorem startUnless_apart {s : State} (a0 : Option (ℕ × ℕ)) (a1 : State) (a2 : Cmd) (h0 : Apart s a1) : ApartR s (startUnless a0 a1 a2) := by
  delta startUnless
  split
  · exact True.intro
  · refine ApartR.go ?_
    assumption

theorem resStart_apart {s : State} (a0 : State) (a1 : Cmd) (h0 : Apart s a0) : ApartR s (resStart a0 a1) := by
  delta resStart
  extract_lets v0 v1 v2 v3 v4
  clear_value v0 v1 v2 v3 v4
  refine ApartR.ite ?_ ?_
  · apply startUnless_apart
    assumption
  · refine ApartR.ite ?_ ?_
    · apply startUnless_apart
      assumption
    · refine ApartR.ite ?_ ?_
      · split
        · apply badIn_apart
        · refine ApartR.ite ?_ ?_
          · exact True.intro
          · refine ApartR.ite ?_ ?_
            · apply badIn_apart
            · refine ApartR.ite ?_ ?_
              · refine ApartR.ite ?_ ?_
                · apply badIn_apart
                · refine ApartR.ite ?_ ?_
                  · exact True.intro
                  · refine ApartR.ite ?_ ?_
                    · refine ApartR.go ?_
                      apply holdPromotion_apart
                      assumption
                    · refine ApartR.go ?_
                      apply startPromotion_apart
                      refine Apart.set ?_
                      assumption
              · refine ApartR.go ?_
                assumption
      · refine ApartR.ite ?_ ?_
        · apply startUnless_apart
          assumption
        · split
          · apply badIn_apart
          · refine ApartR.ite ?_ ?_
            · refine ApartR.go ?_
              assumption
            · exact True.intro

theorem startBy_apart {s : State} (a0 : State → Cmd → Out) (a1 : State) (a2 : Cmd) (h0 : Apart s a1) : ApartR s (startBy a0 a1 a2) := by
  delta startBy
  split
  · exact True.intro
  · refine ApartR.go ?_
    assumption

theorem submitStart_apart {s : State} (a0 : State) (a1 : Cmd) (h0 : Apart s a0) : ApartR s (submitStart a0 a1) := by
  delta submitStart
  split
  · refine ApartR.go ?_
    assumption
  · exact True.intro

theorem jobEndStart_apart {s : State} (a0 : State) (a1 : Cmd) (h0 : Apart s a0) : ApartR s (jobEndStart a0 a1) := by
  delta jobEndStart
  split
  · exact True.intro
  · refine ApartR.ite ?_ ?_
    · refine ApartR.go ?_
      apply endAll_apart
      assumption
    · refine ApartR.go ?_
      apply updJob_apart
      assumption

theorem unregStart_apart {s : State} (a0 : State) (a1 : Cmd) (h0 : Apart s a0) : ApartR s (unregStart a0 a1) := by
  delta unregStart
  split
  · exact True.intro
  · refine ApartR.go ?_
    assumption

theorem modeStart_apart {s : State} (a0 : State) (a1 : Cmd) (h0 : Apart s a0) : ApartR s (modeStart a0 a1) := by
  delta modeStart
  extract_lets v0 v1
  clear_value v0 v1
  refine ApartR.ite ?_ ?_
  · exact True.intro
  · split
    · apply badIn_apart
    · refine ApartR.ite ?_ ?_
      · refine ApartR.ite ?_ ?_
        · exact True.intro
        · refine ApartR.ite ?_ ?_
          · exact True.intro
          · refine ApartR.go ?_
            assumption
      · split
        · exact True.intro
        · refine ApartR.ite ?_ ?_
          · exact True.intro
          · refine ApartR.ite ?_ ?_
            · apply badIn_apart
            · refine ApartR.ite ?_ ?_
              · exact True.intro
              · refine ApartR.ite ?_ ?_
                · exact True.intro
                · refine ApartR.go ?_
                  assumption

theorem fwStart_apart {s : State} (a0 : State) (a1 : Cmd) (h0 : Apart s a0) : ApartR s (fwStart a0 a1) := by
  delta fwStart
  refine ApartR.ite ?_ ?_
  · exact True.intro
  · refine ApartR.go ?_
    assumption

theorem familyStart_apart {s : State} (a0 : State) (a1 : Cmd) (h0 : Apart s a0) : ApartR s (familyStart a0 a1) := by
  have hf := flightStart_apart a0 a1 h0
  have hb := fun f => startBy_apart f a0 a1 h0
  delta familyStart
  extract_lets p
  split
  · cases hr : flightStart a0 a1 with
    | go t c =>
      rw [hr] at hf
      dsimp only
      exact ApartR.ite True.intro hf
    | wait => exact True.intro
    | stop _ _ _ => exact True.intro
  · exact ApartR.ite True.intro h0
  · exact fsetStart_apart _ _ _ h0
  · exact rootStart_apart _ _ _ h0
  · exact solveStart_apart _ _ h0
  · exact ApartR.ite (updStart_apart _ _ h0) (ApartR.ite (shardStart_apart _ _ h0) (ApartR.ite (schedStart_apart _ _ h0)
      (ApartR.ite (gatherStart_apart _ _ h0) (digestStart_apart _ _ h0))))
  · exact ApartR.ite (moveStart_apart _ _ h0) (resStart_apart _ _ h0)
  · exact ApartR.ite (hb _) h0
  · exact collStart_apart _ _ h0
  · exact ApartR.ite (hb _) (ApartR.ite (hb _) h0)
  · exact hb _
  · iterate 9 refine ApartR.ite (hb _) ?_
    exact ApartR.ite (submitStart_apart _ _ h0) (ApartR.ite (jobEndStart_apart _ _ h0) (ApartR.ite (unregStart_apart _ _ h0) (ApartR.ite (modeStart_apart _ _ h0)
      (ApartR.ite (fwStart_apart _ _ h0) (ApartR.ite (ckptStart_apart _ _ h0) h0)))))
  · exact h0

theorem noteStart_apart {s : State} (a0 : State) (a1 : Cmd) (a2 : Place) (h0 : Apart s a0) : Apart s (noteStart a0 a1 a2) := by
  delta noteStart
  extract_lets v0 v1 v2 v3 v4
  clear_value v0 v1 v2
  have k5 : Apart s v3 := by
    unfold v3
    refine Apart.set ?_
    assumption
  clear_value v3
  have k6 : Apart s v4 := by
    unfold v4
    apply count_apart
    assumption
  clear_value v4
  refine Apart.ite ?_ ?_
  · refine Apart.ite ?_ ?_
    · apply count_apart
      assumption
    · assumption
  · assumption

theorem tryStart_apart {s : State} (a0 : State) (a1 : Cmd) (a2 : Place) (h0 : Apart s a0) : Apart s (tryStart a0 a1 a2) := by
  delta tryStart
  split
  · apply endCmd_apart
    assumption
  · apply park_apart
    assumption
  · extract_lets v0 v1 v2 v3 v4
    clear_value v0
    have k5 : Apart s v1 := by
      unfold v1
      apply clearStores_apart
      assumption
    clear_value v1
    clear_value v2 v3 v4
    split
    · apply eccEnd_apart
      assumption
    · split
      · apply park_apart
        assumption
      · apply endCmd_apart
        refine Apart.foldl _ ?_ (fun t6 b6 h6 => ?_)
        · assumption
        · apply emitEv_apart
          assumption
      · split
        · apply endCmd_apart
          assumption
        · apply park_apart
          assumption
        · refine Apart.ite ?_ ?_
          · apply endCmd_apart
            assumption
          · refine Apart.ite ?_ ?_
            · apply park_apart
              assumption
            · extract_lets v7 v8 v9 v10 v11 v12
              have k13 : Apart s v7 := by
                unfold v7
                refine Apart.foldl _ ?_ (fun t14 b14 h14 => ?_)
                · refine ApartR.out ?_ ‹_›
                  apply familyStart_apart
                  assumption
                · apply takeCopy_apart
                  assumption
              clear_value v7
              have k15 : Apart s v8.1 := by
                unfold v8
                apply endStall_apart
                assumption
              clear_value v8
              clear_value v9 v10
              have k16 : Apart s v11 := by
                unfold v11
                apply noteStart_apart
                apply putCmd_apart
                assumption
              clear_value v11
              have k17 : Apart s v12 := by
                unfold v12
                apply traceRec_apart
                assumption
              clear_value v12
              split
              · apply eccEnd_apart
                assumption
              · assumption

theorem execCommandStart_apart {s : State} (a0 : ℕ) (a1 : State) (h0 : Apart s a1) : ApartO s (execCommandStart a0 a1) := by
  delta execCommandStart
  refine ApartO.next ?_
  extract_lets v0
  have k1 : Apart s v0 := by
    unfold v0
    apply debtPass_apart
    assumption
  clear_value v0
  split
  · assumption
  · refine Apart.ite ?_ ?_
    · assumption
    · split
      · assumption
      · extract_lets v2 v3 v4
        clear_value v2
        have k5 : Apart s v3 := by
          unfold v3
          apply putCmd_apart
          assumption
        clear_value v3
        have k6 : Apart s v4 := by
          unfold v4
          refine Apart.ite ?_ ?_
          · refine Apart.set ?_
            assumption
          · assumption
        clear_value v4
        refine Apart.ite ?_ ?_
        · assumption
        · split
          · assumption
          · apply tryStart_apart
            assumption

theorem lkSetEff_apart {s : State} (a0 : State) (a1 : Cmd) (h0 : Apart s a0) : Apart s (lkSetEff a0 a1) := by
  delta lkSetEff
  extract_lets v0 v1 v2 v3
  clear_value v0 v1 v2
  have k4 : Apart s v3 := by
    unfold v3
    apply setLock_apart
    assumption
  clear_value v3
  refine Apart.ite ?_ ?_
  · apply reclaim_apart
    apply traceRec_apart
    assumption
  · apply raise_apart
    assumption

theorem lkSetCommit_apart {s : State} (a0 : State) (a1 : Cmd) (h0 : Apart s a0) : Apart s (lkSetCommit a0 a1) := by
  delta lkSetCommit
  refine Apart.ite ?_ ?_
  · apply commitWith_apart
    · intro y0 y1 y2
      apply lkSetEff_apart
      assumption
    · assumption
  · assumption

theorem execCommitPoint_apart {s : State} (a0 : ℕ) (a1 : State) (h0 : Apart s a1) : ApartO s (execCommitPoint a0 a1) := by
  delta execCommitPoint
  refine ApartO.next ?_
  split
  · assumption
  · refine Apart.ite ?_ ?_
    · assumption
    · refine Apart.ite ?_ ?_
      · apply lkSetCommit_apart
        assumption
      · refine Apart.ite ?_ ?_
        · apply commitWith_apart
          · intro y0 y1 y2
            apply commitEff_apart
            assumption
          · assumption
        · assumption

theorem execConfigRequest_apart {s : State} (a0 : ℕ) (a1 : Option ℕ) (a2 : State) (h0 : Apart s a2) : ApartO s (execConfigRequest a0 a1 a2) := by
  delta execConfigRequest
  refine ApartO.next ?_
  refine Apart.ite ?_ ?_
  · assumption
  · refine Apart.ite ?_ ?_
    · refine Apart.set ?_
      assumption
    · split
      · refine Apart.set ?_
        assumption
      · refine Apart.set ?_
        assumption

theorem fillBasin_apart {s : State} (a0 : State) (a1 : ℕ) (a2 : ℕ) (a3 : ℕ) (h0 : Apart s a0) : Apart s (fillBasin a0 a1 a2 a3) := by
  delta fillBasin
  split
  · assumption
  · refine Apart.foldl _ ?_ (fun t0 b0 h0 => ?_)
    · assumption
    · split
      · assumption
      · refine Apart.ite ?_ ?_
        · assumption
        · extract_lets v1 v2
          clear_value v1 v2
          apply beginInit_apart
          apply issueOwn_apart
          assumption

theorem execContextResume_apart {s : State} (a0 : ℕ) (a1 : ℕ) (a2 : State) (h0 : Apart s a2) : ApartO s (execContextResume a0 a1 a2) := by
  delta execContextResume
  refine ApartO.next ?_
  extract_lets v0 v1 v2
  clear_value v0 v1
  have k3 : Apart s v2 := by
    unfold v2
    refine Apart.set ?_
    assumption
  clear_value v2
  refine Apart.foldl _ ?_ (fun t4 b4 h4 => ?_)
  · refine Apart.ite ?_ ?_
    · assumption
    · apply debtPass_apart
      assumption
  · apply fillBasin_apart
    assumption

theorem portDown_apart {s : State} (a0 : State) (a1 : ℕ) (a2 : ℕ) (h0 : Apart s a0) : Apart s (portDown a0 a1 a2) := by
  delta portDown
  extract_lets v0 v1 v2
  clear_value v0 v1
  have k3 : Apart s v2 := by
    unfold v2
    apply setPort_apart
    assumption
  clear_value v2
  apply raiseMod_apart
  apply portEvent_apart
  assumption

theorem laneFail_apart {s : State} (a0 : State) (a1 : ℕ) (a2 : ℕ) (h0 : Apart s a0) : Apart s (laneFail a0 a1 a2) := by
  delta laneFail
  extract_lets v0 v1 v2 v3
  clear_value v0 v1
  have k4 : Apart s v2 := by
    unfold v2
    apply setPort_apart
    assumption
  clear_value v2
  have k5 : Apart s v3 := by
    unfold v3
    apply setPort_apart
    assumption
  clear_value v3
  refine Apart.ite ?_ ?_
  · assumption
  · refine Apart.ite ?_ ?_
    · refine Apart.ite ?_ ?_
      · apply raiseMod_apart
        apply portEvent_apart
        assumption
      · assumption
    · apply portDown_apart
      assumption

theorem retryLimit_apart {s : State} (a0 : State) (a1 : ℕ) (h0 : Apart s a0) : Apart s (retryLimit a0 a1) := by
  delta retryLimit
  extract_lets v0 v1
  clear_value v0
  have k2 : Apart s v1 := by
    unfold v1
    apply portEvent_apart
    assumption
  clear_value v1
  refine Apart.ite ?_ ?_
  · split
    · apply laneFail_apart
      assumption
    · apply portDown_apart
      assumption
  · assumption

theorem execControlFlit_apart {s : State} (a0 : ℕ) (a1 : ℕ) (a2 : CreditRec) (a3 : State) (h0 : Apart s a3) : ApartO s (execControlFlit a0 a1 a2 a3) := by
  delta execControlFlit
  refine ApartO.next ?_
  extract_lets v0 v1 v2 v3
  clear_value v0 v1
  have k4 : Apart s v2 := by
    unfold v2
    refine Apart.ite ?_ ?_
    · apply count_apart
      assumption
    · assumption
  clear_value v2
  have k5 : Apart s v3 := by
    unfold v3
    apply setPort_apart
    assumption
  clear_value v3
  refine Apart.ite ?_ ?_
  · assumption
  · apply afterAck_apart
    refine Apart.ite ?_ ?_
    · apply retryLimit_apart
      assumption
    · assumption

theorem sendControl_apart {s : State} (a0 : State) (a1 : ℕ) (a2 : Option ℕ) (h0 : Apart s a0) : Apart s (sendControl a0 a1 a2) := by
  delta sendControl
  extract_lets v0
  clear_value v0
  refine Apart.set ?_
  assumption

theorem execControlFlitTimer_apart {s : State} (a0 : ℕ) (a1 : State) (h0 : Apart s a1) : ApartO s (execControlFlitTimer a0 a1) := by
  delta execControlFlitTimer
  refine ApartO.next ?_
  refine Apart.ite ?_ ?_
  · apply sendControl_apart
    assumption
  · assumption

theorem execConvert_apart {s : State} (a0 : ℕ) (a1 : State) (h0 : Apart s a1) : ApartO s (execConvert a0 a1) := by
  delta execConvert
  apply runOp_apart
  · intro y0 y1 y2
    apply noEffect_apart
    assumption
  · assumption

theorem execConvertBarge_apart {s : State} (a0 : ℕ) (a1 : State) (h0 : Apart s a1) : ApartO s (execConvertBarge a0 a1) := by
  delta execConvertBarge
  apply runOp_apart
  · intro y0 y1 y2
    apply moveEff_apart
    assumption
  · assumption

theorem zipEnd_apart {s : State} (a0 : State) (a1 : Cmd) (a2 : GAddr) (h0 : Apart s a0) : Apart s (zipEnd a0 a1 a2) := by
  delta zipEnd
  apply endCmd_apart
  apply memError_apart
  assumption

theorem execCopy_apart {s : State} (a0 : ℕ) (a1 : State) (h0 : Apart s a1) : ApartO s (execCopy a0 a1) := by
  delta execCopy
  split
  · refine ApartO.ite ?_ ?_
    · split
      · refine ApartO.next ?_
        apply zipEnd_apart
        assumption
      · apply runOp_apart
        · intro y0 y1 y2
          apply moveEff_apart
          assumption
        · assumption
    · apply runOp_apart
      · intro y3 y4 y5
        apply moveEff_apart
        assumption
      · assumption
  · refine ApartO.next ?_
    assumption

theorem execCounterFreeze_apart {s : State} (a0 : ℕ) (a1 : State) (h0 : Apart s a1) : ApartO s (execCounterFreeze a0 a1) := by
  delta execCounterFreeze
  refine ApartO.next ?_
  refine Apart.ite ?_ ?_
  · extract_lets v0 v1
    have k2 : Apart s v0 := by
      unfold v0
      apply timeTo_apart
      assumption
    clear_value v0
    clear_value v1
    apply fire_apart
    apply setCnt_apart
    assumption
  · assumption

theorem execCov_apart {s : State} (a0 : ℕ) (a1 : State) (h0 : Apart s a1) : ApartO s (execCov a0 a1) := by
  delta execCov
  apply runOp_apart
  · intro y0 y1 y2
    apply noEffect_apart
    assumption
  · assumption

theorem execDgrad_apart {s : State} (a0 : ℕ) (a1 : State) (h0 : Apart s a1) : ApartO s (execDgrad a0 a1) := by
  delta execDgrad
  apply runOp_apart
  · intro y0 y1 y2
    apply noEffect_apart
    assumption
  · assumption

theorem execDieUnfence_apart {s : State} (a0 : ℕ) (a1 : List HwUnit) (a2 : State) (h0 : Apart s a2) : ApartO s (execDieUnfence a0 a1 a2) := by
  delta execDieUnfence
  refine ApartO.next ?_
  split
  · assumption
  · refine Apart.ite ?_ ?_
    · assumption
    · extract_lets v0 v1 v2 v3 v4 v5 v6 v7 v8 v9 v10 v11 v12 v13 v14 v15 v16 v17 v18
      clear_value v0 v1 v2 v3 v4 v5 v6 v7 v8 v9 v10
      have k19 : Apart s v11 := by
        unfold v11
        apply setDie_apart
        assumption
      clear_value v11
      have k20 : Apart s v12 := by
        unfold v12
        apply setSic_apart
        assumption
      clear_value v12
      have k21 : Apart s v13 := by
        unfold v13
        apply setCnt_apart
        assumption
      clear_value v13
      have k22 : Apart s v14 := by
        unfold v14
        apply setTrace_apart
        assumption
      clear_value v14
      clear_value v15
      have k23 : Apart s v16 := by
        unfold v16
        apply setMemRegs_apart
        assumption
      clear_value v16
      have k24 : Apart s v17 := by
        unfold v17
        refine Apart.set ?_
        assumption
      clear_value v17
      have k25 : Apart s v18 := by
        unfold v18
        refine Apart.ite ?_ ?_
        · apply raiseMod_apart
          assumption
        · apply raiseMod_apart
          assumption
      clear_value v18
      refine Apart.ite ?_ ?_
      · apply endCmd_apart
        assumption
      · split
        · apply commitRow_apart
          assumption
        · assumption

theorem execDigestCheck_apart {s : State} (a0 : ℕ) (a1 : State) (h0 : Apart s a1) : ApartO s (execDigestCheck a0 a1) := by
  delta execDigestCheck
  apply runOp_apart
  · intro y0 y1 y2
    apply noEffect_apart
    assumption
  · assumption

theorem execDiscard_apart {s : State} (a0 : MsgHdr) (a1 : ℕ) (a2 : State) (h0 : Apart s a2) : ApartO s (execDiscard a0 a1 a2) := by
  delta execDiscard
  apply receive_apart
  · intro y0 y1
    split
    · assumption
    · refine Apart.ite ?_ ?_
      · apply dropChange_apart
        assumption
      · assumption
  · assumption

theorem execDiv_apart {s : State} (a0 : ℕ) (a1 : State) (h0 : Apart s a1) : ApartO s (execDiv a0 a1) := by
  delta execDiv
  apply runOp_apart
  · intro y0 y1 y2
    apply noEffect_apart
    assumption
  · assumption

theorem execDotRows_apart {s : State} (a0 : ℕ) (a1 : State) (h0 : Apart s a1) : ApartO s (execDotRows a0 a1) := by
  delta execDotRows
  apply runOp_apart
  · intro y0 y1 y2
    apply noEffect_apart
    assumption
  · assumption

theorem execDynamicAddressAssignment_apart {s : State} (a0 : ℕ) (a1 : State) (h0 : Apart s a1) : ApartO s (execDynamicAddressAssignment a0 a1) := by
  delta execDynamicAddressAssignment
  refine ApartO.next ?_
  refine Apart.ite ?_ ?_
  · assumption
  · refine Apart.set ?_
    assumption

theorem execErf_apart {s : State} (a0 : ℕ) (a1 : State) (h0 : Apart s a1) : ApartO s (execErf a0 a1) := by
  delta execErf
  apply runOp_apart
  · intro y0 y1 y2
    apply noEffect_apart
    assumption
  · assumption

theorem execExp_apart {s : State} (a0 : ℕ) (a1 : State) (h0 : Apart s a1) : ApartO s (execExp a0 a1) := by
  delta execExp
  apply runOp_apart
  · intro y0 y1 y2
    apply noEffect_apart
    assumption
  · assumption

theorem execExp2_apart {s : State} (a0 : ℕ) (a1 : State) (h0 : Apart s a1) : ApartO s (execExp2 a0 a1) := by
  delta execExp2
  apply runOp_apart
  · intro y0 y1 y2
    apply noEffect_apart
    assumption
  · assumption

theorem execFill_apart {s : State} (a0 : ℕ) (a1 : State) (h0 : Apart s a1) : ApartO s (execFill a0 a1) := by
  delta execFill
  apply runOp_apart
  · intro y0 y1 y2
    apply moveEff_apart
    assumption
  · assumption

theorem initEff_apart {s : State} (a0 : State) (a1 : Cmd) (h0 : Apart s a0) : Apart s (initEff a0 a1) := by
  delta initEff
  extract_lets v0
  clear_value v0
  split
  · assumption
  · apply putFlight_apart
    assumption

theorem execFlightInit_apart {s : State} (a0 : ℕ) (a1 : State) (h0 : Apart s a1) : ApartO s (execFlightInit a0 a1) := by
  delta execFlightInit
  apply runOp_apart
  · intro y0 y1 y2
    apply initEff_apart
    assumption
  · assumption

theorem popEff_apart {s : State} (a0 : State) (a1 : Cmd) (h0 : Apart s a0) : Apart s (popEff a0 a1) := by
  delta popEff
  extract_lets v0
  clear_value v0
  split
  · assumption
  · extract_lets v1 v2
    clear_value v1 v2
    apply putFlight_apart
    assumption

theorem execFlightPop_apart {s : State} (a0 : ℕ) (a1 : State) (h0 : Apart s a1) : ApartO s (execFlightPop a0 a1) := by
  delta execFlightPop
  apply runOp_apart
  · intro y0 y1 y2
    apply popEff_apart
    assumption
  · assumption

theorem execFlightPush_apart {s : State} (a0 : ℕ) (a1 : State) (h0 : Apart s a1) : ApartO s (execFlightPush a0 a1) := by
  delta execFlightPush
  apply runOp_apart
  · intro y0 y1 y2
    apply pushEff_apart
    assumption
  · assumption

theorem takePayload_apart {s : State} (a0 : State) (a1 : ℕ) (a2 : ℕ) (a3 : List Byte) (h0 : Apart s a0) : Apart s (takePayload a0 a1 a2 a3) := by
  delta takePayload
  extract_lets v0 v1 v2 v3 v4 v5
  clear_value v0 v1 v2 v3
  have k6 : Apart s v4 := by
    unfold v4
    apply setPort_apart
    assumption
  clear_value v4
  have k7 : Apart s v5 := by
    unfold v5
    refine Apart.ite ?_ ?_
    · apply portDrop_apart
      assumption
    · assumption
  clear_value v5
  refine Apart.ite ?_ ?_
  · apply sendControl_apart
    assumption
  · assumption

theorem execFlitReceive_apart {s : State} (a0 : ℕ) (a1 : Flit) (a2 : State) (h0 : Apart s a2) : ApartO s (execFlitReceive a0 a1 a2) := by
  delta execFlitReceive
  refine ApartO.next ?_
  extract_lets v0 v1 v2 v3
  clear_value v0 v1
  have k4 : Apart s v2 := by
    unfold v2
    apply setPort_apart
    assumption
  clear_value v2
  have k5 : Apart s v3 := by
    unfold v3
    apply setPort_apart
    assumption
  clear_value v3
  refine Apart.ite ?_ ?_
  · assumption
  · refine Apart.ite ?_ ?_
    · apply sendControl_apart
      apply setPort_apart
      assumption
    · refine Apart.ite ?_ ?_
      · apply afterAck_apart
        assumption
      · refine Apart.ite ?_ ?_
        · apply sendControl_apart
          apply afterAck_apart
          assumption
        · apply afterAck_apart
          apply takePayload_apart
          assumption

theorem execFma_apart {s : State} (a0 : ℕ) (a1 : State) (h0 : Apart s a1) : ApartO s (execFma a0 a1) := by
  delta execFma
  apply runOp_apart
  · intro y0 y1 y2
    apply noEffect_apart
    assumption
  · assumption

theorem issueRefreshes_apart {s : State} (a0 : State) (a1 : ℕ) (a2 : ℕ) (h0 : Apart s a0) : Apart s (issueRefreshes a0 a1 a2) := by
  delta issueRefreshes
  split
  · assumption
  · refine Apart.ite ?_ ?_
    · assumption
    · refine Apart.foldl _ ?_ (fun t0 b0 h0 => ?_)
      · assumption
      · split
        · assumption
        · refine Apart.ite ?_ ?_
          · apply putFset_apart
            assumption
          · extract_lets v1 v2 v3
            clear_value v1 v2
            have k4 : Apart s v3 := by
              unfold v3
              apply issueOwn_apart
              assumption
            clear_value v3
            refine Apart.set ?_
            assumption

theorem fsetAdvanceEff_apart {s : State} (a0 : State) (a1 : Cmd) (h0 : Apart s a0) : Apart s (fsetAdvanceEff a0 a1) := by
  delta fsetAdvanceEff
  extract_lets v0
  clear_value v0
  split
  · assumption
  · extract_lets v1 v2 v3
    clear_value v1
    have k4 : Apart s v2 := by
      unfold v2
      apply putFset_apart
      assumption
    clear_value v2
    have k5 : Apart s v3 := by
      unfold v3
      refine Apart.ite ?_ ?_
      · apply issueRefreshes_apart
        assumption
      · assumption
    clear_value v3
    refine Apart.ite ?_ ?_
    · assumption
    · refine Apart.foldl _ ?_ (fun t6 b6 h6 => ?_)
      · assumption
      · refine Apart.ite ?_ ?_
        · apply raise_apart
          assumption
        · assumption

theorem execFsetAdvance_apart {s : State} (a0 : ℕ) (a1 : State) (h0 : Apart s a1) : ApartO s (execFsetAdvance a0 a1) := by
  delta execFsetAdvance
  apply runOp_apart
  · intro y0 y1 y2
    apply fsetAdvanceEff_apart
    assumption
  · assumption

theorem fsetInitEff_apart {s : State} (a0 : State) (a1 : Cmd) (h0 : Apart s a0) : Apart s (fsetInitEff a0 a1) := by
  delta fsetInitEff
  extract_lets v0 v1 v2 v3
  clear_value v0 v1 v2
  have k4 : Apart s v3 := by
    unfold v3
    refine Apart.foldl _ ?_ (fun t5 b5 h5 => ?_)
    · assumption
    · apply zeroLocal_apart
      apply zeroLocal_apart
      apply zeroLocal_apart
      apply zeroLocal_apart
      assumption
  clear_value v3
  apply putFset_apart
  assumption

theorem execFsetInit_apart {s : State} (a0 : ℕ) (a1 : State) (h0 : Apart s a1) : ApartO s (execFsetInit a0 a1) := by
  delta execFsetInit
  apply runOp_apart
  · intro y0 y1 y2
    apply fsetInitEff_apart
    assumption
  · assumption

theorem fsetRefreshEff_apart {s : State} (a0 : State) (a1 : Cmd) (h0 : Apart s a0) : Apart s (fsetRefreshEff a0 a1) := by
  delta fsetRefreshEff
  apply issueRefreshes_apart
  assumption

theorem execFsetRefresh_apart {s : State} (a0 : ℕ) (a1 : State) (h0 : Apart s a1) : ApartO s (execFsetRefresh a0 a1) := by
  delta execFsetRefresh
  apply runOp_apart
  · intro y0 y1 y2
    apply fsetRefreshEff_apart
    assumption
  · assumption

theorem execFwd_apart {s : State} (a0 : ℕ) (a1 : State) (h0 : Apart s a1) : ApartO s (execFwd a0 a1) := by
  delta execFwd
  apply runOp_apart
  · intro y0 y1 y2
    apply pushEff_apart
    assumption
  · assumption

theorem execGather_apart {s : State} (a0 : ℕ) (a1 : State) (h0 : Apart s a1) : ApartO s (execGather a0 a1) := by
  delta execGather
  apply runOp_apart
  · intro y0 y1 y2
    apply noEffect_apart
    assumption
  · assumption

theorem execGlobalNorm_apart {s : State} (a0 : ℕ) (a1 : State) (h0 : Apart s a1) : ApartO s (execGlobalNorm a0 a1) := by
  delta execGlobalNorm
  refine ApartO.next ?_
  apply collRun_apart
  assumption

theorem execHdmRead_apart {s : State} (a0 : ℕ) (a1 : ℕ) (a2 : State) (h0 : Apart s a2) : ApartO s (execHdmRead a0 a1 a2) := by
  delta execHdmRead
  refine ApartO.next ?_
  refine Apart.ite ?_ ?_
  · assumption
  · extract_lets v0 v1
    clear_value v0
    have k2 : Apart s v1 := by
      unfold v1
      refine Apart.set ?_
      assumption
    clear_value v1
    split
    · assumption
    · refine Apart.ite ?_ ?_
      · assumption
      · apply count_apart
        refine Apart.set ?_
        assumption

theorem execHdmWrite_apart {s : State} (a0 : ℕ) (a1 : List Byte) (a2 : State) (h0 : Apart s a2) : ApartO s (execHdmWrite a0 a1 a2) := by
  delta execHdmWrite
  refine ApartO.next ?_
  refine Apart.ite ?_ ?_
  · assumption
  · extract_lets v0
    clear_value v0
    split
    · apply raiseMod_apart
      apply fire_apart
      assumption
    · apply count_apart
      apply wrLocal_apart
      assumption

theorem execHeartbeat_apart {s : State} (a0 : Sys2Proof.MsgHdr) (a1 : State) (h0 : Apart s a1) : ApartO s (execHeartbeat a0 a1) := by
  delta execHeartbeat
  apply receive_apart
  · intro y0
    intro y1
    dsimp only [id]
    assumption
  · assumption

theorem execHeartbeatTimer_apart {s : State} (a0 : State) (h0 : Apart s a0) : ApartO s (execHeartbeatTimer a0) := by
  delta execHeartbeatTimer
  refine ApartO.next ?_
  refine Apart.ite ?_ ?_
  · refine Apart.foldl _ ?_ (fun t0 b0 h0 => ?_)
    · assumption
    · split
      · refine Apart.ite ?_ ?_
        · assumption
        · apply sendDom_apart
          assumption
      · apply sendDom_apart
        assumption
  · assumption

theorem execHello_apart {s : State} (a0 : MsgHdr) (a1 : ℕ) (a2 : State) (h0 : Apart s a2) : ApartO s (execHello a0 a1 a2) := by
  delta execHello
  apply receive_apart
  · intro y0 y1
    extract_lets v2 v3
    clear_value v2
    have k4 : Apart s v3 := by
      unfold v3
      refine Apart.set ?_
      assumption
    clear_value v3
    refine Apart.ite ?_ ?_
    · apply raiseMod_apart
      refine Apart.set ?_
      assumption
    · refine Apart.ite ?_ ?_
      · apply setMember_apart
        assumption
      · assumption
  · assumption

theorem execHostbufReg_apart {s : State} (a0 : ℕ) (a1 : State) (h0 : Apart s a1) : ApartO s (execHostbufReg a0 a1) := by
  delta execHostbufReg
  apply runOp_apart
  · intro y0 y1 y2
    refine Apart.set ?_
    assumption
  · assumption

theorem execHostbufUnreg_apart {s : State} (a0 : ℕ) (a1 : State) (h0 : Apart s a1) : ApartO s (execHostbufUnreg a0 a1) := by
  delta execHostbufUnreg
  apply runOp_apart
  · intro y0 y1 y2
    split
    · apply releaseBufs_apart
      assumption
    · assumption
  · assumption

theorem execHotSwapRetry_apart {s : State} (a0 : State) (h0 : Apart s a0) : ApartO s (execHotSwapRetry a0) := by
  delta execHotSwapRetry
  refine ApartO.next ?_
  refine Apart.ite ?_ ?_
  · refine Apart.set ?_
    assumption
  · assumption

theorem execI3cReadPointer_apart {s : State} (a0 : ℕ) (a1 : State) (h0 : Apart s a1) : ApartO s (execI3cReadPointer a0 a1) := by
  delta execI3cReadPointer
  refine ApartO.next ?_
  refine Apart.ite ?_ ?_
  · assumption
  · refine Apart.set ?_
    assumption

theorem execIdCerts_apart {s : State} (a0 : List Byte) (a1 : State) (h0 : Apart s a1) : ApartO s (execIdCerts a0 a1) := by
  delta execIdCerts
  apply arrives_apart
  · intro y0 y1
    extract_lets v2 v3
    clear_value v2 v3
    refine Apart.ite ?_ ?_
    · apply reply_apart
      assumption
    · apply reply_apart
      assumption
  · assumption

theorem resumeEff_apart {s : State} (a0 : State) (a1 : Cmd) (h0 : Apart s a0) : Apart s (resumeEff a0 a1) := by
  delta resumeEff
  apply updJob_apart
  assumption

theorem execJobResume_apart {s : State} (a0 : ℕ) (a1 : State) (h0 : Apart s a1) : ApartO s (execJobResume a0 a1) := by
  delta execJobResume
  apply runOp_apart
  · intro y0 y1 y2
    apply resumeEff_apart
    assumption
  · assumption

theorem suspendEff_apart {s : State} (a0 : State) (a1 : Cmd) (h0 : Apart s a0) : Apart s (suspendEff a0 a1) := by
  delta suspendEff
  split
  · assumption
  · split
    · extract_lets v0
      have k1 : Apart s v0 := by
        unfold v0
        apply updJob_apart
        assumption
      clear_value v0
      apply killAll_apart
      assumption
    · extract_lets v2
      have k3 : Apart s v2 := by
        unfold v2
        apply updJob_apart
        assumption
      clear_value v2
      apply killAll_apart
      assumption
    · assumption

theorem execJobSuspend_apart {s : State} (a0 : ℕ) (a1 : State) (h0 : Apart s a1) : ApartO s (execJobSuspend a0 a1) := by
  delta execJobSuspend
  apply runOp_apart
  · intro y0 y1 y2
    apply suspendEff_apart
    assumption
  · assumption

theorem execLaneFailure_apart {s : State} (a0 : ℕ) (a1 : ℕ) (a2 : State) (h0 : Apart s a2) : ApartO s (execLaneFailure a0 a1 a2) := by
  delta execLaneFailure
  refine ApartO.next ?_
  refine Apart.ite ?_ ?_
  · apply releaseAll_apart
    apply laneFail_apart
    assumption
  · assumption

theorem execLkNop_apart {s : State} (a0 : ℕ) (a1 : State) (h0 : Apart s a1) : ApartO s (execLkNop a0 a1) := by
  delta execLkNop
  apply runOp_apart
  · intro y0 y1 y2
    apply noEffect_apart
    assumption
  · assumption

theorem execLkRead_apart {s : State} (a0 : ℕ) (a1 : State) (h0 : Apart s a1) : ApartO s (execLkRead a0 a1) := by
  delta execLkRead
  apply runOp_apart
  · intro y0 y1 y2
    extract_lets v3
    clear_value v3
    refine Apart.ite ?_ ?_
    · assumption
    · apply raise_apart
      assumption
  · assumption

theorem execLkSet_apart {s : State} (a0 : ℕ) (a1 : State) (h0 : Apart s a1) : ApartO s (execLkSet a0 a1) := by
  delta execLkSet
  refine ApartO.next ?_
  split
  · assumption
  · refine Apart.ite ?_ ?_
    · extract_lets v0 v1 v2
      clear_value v0
      have k3 : Apart s v1 := by
        unfold v1
        refine Apart.ite ?_ ?_
        · apply setLock_apart
          assumption
        · assumption
      clear_value v1
      clear_value v2
      apply lkSetCommit_apart
      apply putCmd_apart
      assumption
    · assumption

theorem lkSignalEff_apart {s : State} (a0 : State) (a1 : Cmd) (h0 : Apart s a0) : Apart s (lkSignalEff a0 a1) := by
  delta lkSignalEff
  refine Apart.ite ?_ ?_
  · assumption
  · split
    · apply signalLock_apart
      assumption
    · assumption

theorem execLkSignal_apart {s : State} (a0 : ℕ) (a1 : State) (h0 : Apart s a1) : ApartO s (execLkSignal a0 a1) := by
  delta execLkSignal
  apply runOp_apart
  · intro y0 y1 y2
    apply lkSignalEff_apart
    assumption
  · assumption

theorem execLockGrant_apart {s : State} (a0 : ℕ) (a1 : State) (h0 : Apart s a1) : ApartO s (execLockGrant a0 a1) := by
  delta execLockGrant
  apply runOp_apart
  · intro y0 y1 y2
    refine Apart.foldl _ ?_ (fun t3 b3 h3 => ?_)
    · assumption
    · refine Apart.ite ?_ ?_
      · apply setLock_apart
        assumption
      · assumption
  · assumption

theorem freeLock_apart {s : State} (a0 : State) (a1 : ℕ) (h0 : Apart s a0) : Apart s (freeLock a0 a1) := by
  delta freeLock
  apply setLock_apart
  assumption

theorem execLockRelease_apart {s : State} (a0 : ℕ) (a1 : State) (h0 : Apart s a1) : ApartO s (execLockRelease a0 a1) := by
  delta execLockRelease
  apply runOp_apart
  · intro y0 y1 y2
    refine Apart.foldl _ ?_ (fun t3 b3 h3 => ?_)
    · assumption
    · refine Apart.ite ?_ ?_
      · apply freeLock_apart
        assumption
      · assumption
  · assumption

theorem execLockSignal_apart {s : State} (a0 : MsgHdr) (a1 : ℕ) (a2 : ℕ) (a3 : State) (h0 : Apart s a3) : ApartO s (execLockSignal a0 a1 a2 a3) := by
  delta execLockSignal
  apply receive_apart
  · intro y0 y1
    apply signalLock_apart
    assumption
  · assumption

theorem execLog_apart {s : State} (a0 : ℕ) (a1 : State) (h0 : Apart s a1) : ApartO s (execLog a0 a1) := by
  delta execLog
  apply runOp_apart
  · intro y0 y1 y2
    apply noEffect_apart
    assumption
  · assumption

theorem execLog2_apart {s : State} (a0 : ℕ) (a1 : State) (h0 : Apart s a1) : ApartO s (execLog2 a0 a1) := by
  delta execLog2
  apply runOp_apart
  · intro y0 y1 y2
    apply noEffect_apart
    assumption
  · assumption

theorem execMax_apart {s : State} (a0 : ℕ) (a1 : State) (h0 : Apart s a1) : ApartO s (execMax a0 a1) := by
  delta execMax
  apply runOp_apart
  · intro y0 y1 y2
    apply noEffect_apart
    assumption
  · assumption

theorem execMaxRows_apart {s : State} (a0 : ℕ) (a1 : State) (h0 : Apart s a1) : ApartO s (execMaxRows a0 a1) := by
  delta execMaxRows
  apply runOp_apart
  · intro y0 y1 y2
    apply noEffect_apart
    assumption
  · assumption

theorem countPacedTransit_apart {s : State} (a0 : State) (a1 : MsgHdr) (h0 : Apart s a0) : Apart s (countPacedTransit a0 a1) := by
  delta countPacedTransit
  split
  · refine Apart.ite ?_ ?_
    · apply setPort_apart
      assumption
    · assumption
  · assumption

theorem execMessageForward_apart {s : State} (a0 : ℕ) (a1 : MsgHdr) (a2 : State) (h0 : Apart s a2) : ApartO s (execMessageForward a0 a1 a2) := by
  delta execMessageForward
  refine ApartO.next ?_
  refine Apart.ite ?_ ?_
  · assumption
  · refine Apart.ite ?_ ?_
    · apply raiseMod_apart
      apply portEvent_apart
      apply portDrop_apart
      assumption
    · apply offerTransit_apart
      apply countPacedTransit_apart
      assumption

theorem execMin_apart {s : State} (a0 : ℕ) (a1 : State) (h0 : Apart s a1) : ApartO s (execMin a0 a1) := by
  delta execMin
  apply runOp_apart
  · intro y0 y1 y2
    apply noEffect_apart
    assumption
  · assumption

theorem execMinRows_apart {s : State} (a0 : ℕ) (a1 : State) (h0 : Apart s a1) : ApartO s (execMinRows a0 a1) := by
  delta execMinRows
  apply runOp_apart
  · intro y0 y1 y2
    apply noEffect_apart
    assumption
  · assumption

theorem execModeAckTimeout_apart {s : State} (a0 : ℕ) (a1 : State) (h0 : Apart s a1) : ApartO s (execModeAckTimeout a0 a1) := by
  delta execModeAckTimeout
  refine ApartO.next ?_
  split
  · assumption
  · split
    · extract_lets v0 v1 v2
      have k3 : Apart s v0 := by
        unfold v0
        apply timeTo_apart
        assumption
      clear_value v0
      have k4 : Apart s v1 := by
        unfold v1
        refine Apart.foldl _ ?_ (fun t5 b5 h5 => ?_)
        · assumption
        · apply sendDom_apart
          assumption
      clear_value v1
      have k6 : Apart s v2 := by
        unfold v2
        apply raise_apart
        apply fire_apart
        assumption
      clear_value v2
      apply dropChange_apart
      assumption
    · assumption

theorem execModeStage_apart {s : State} (a0 : ℕ) (a1 : State) (h0 : Apart s a1) : ApartO s (execModeStage a0 a1) := by
  delta execModeStage
  refine ApartO.next ?_
  split
  · assumption
  · refine Apart.ite ?_ ?_
    · split
      · apply endCmd_apart
        assumption
      · extract_lets v0 v1 v2 v3 v4 v5
        have k6 : Apart s v0 := by
          unfold v0
          apply putCmd_apart
          assumption
        clear_value v0
        clear_value v1 v2 v3 v4 v5
        refine Apart.ite ?_ ?_
        · apply sendDom_apart
          apply putChange_apart
          assumption
        · apply stageChange_apart
          assumption
    · assumption

theorem execModeStartHold_apart {s : State} (a0 : ℕ) (a1 : State) (h0 : Apart s a1) : ApartO s (execModeStartHold a0 a1) := by
  delta execModeStartHold
  refine ApartO.next ?_
  split
  · assumption
  · refine Apart.ite ?_ ?_
    · extract_lets v0
      have k1 : Apart s v0 := by
        unfold v0
        apply timeTo_apart
        assumption
      clear_value v0
      apply putChange_apart
      assumption
    · assumption

theorem execModerationTimer_apart {s : State} (a0 : ℕ) (a1 : ℕ) (a2 : State) (h0 : Apart s a2) : ApartO s (execModerationTimer a0 a1 a2) := by
  delta execModerationTimer
  refine ApartO.next ?_
  extract_lets v0 v1
  clear_value v0
  have k2 : Apart s v1 := by
    unfold v1
    apply timeTo_apart
    assumption
  clear_value v1
  refine Apart.ite ?_ ?_
  · apply setSic_apart
    assumption
  · assumption

theorem execMul_apart {s : State} (a0 : ℕ) (a1 : State) (h0 : Apart s a1) : ApartO s (execMul a0 a1) := by
  delta execMul
  apply runOp_apart
  · intro y0 y1 y2
    apply noEffect_apart
    assumption
  · assumption

theorem execNorm2Rows_apart {s : State} (a0 : ℕ) (a1 : State) (h0 : Apart s a1) : ApartO s (execNorm2Rows a0 a1) := by
  delta execNorm2Rows
  apply runOp_apart
  · intro y0 y1 y2
    apply noEffect_apart
    assumption
  · assumption

theorem execPdelay_apart {s : State} (a0 : MsgHdr) (a1 : ℕ) (a2 : ℕ) (a3 : State) (h0 : Apart s a3) : ApartO s (execPdelay a0 a1 a2 a3) := by
  delta execPdelay
  apply receive_apart
  · intro y0 y1
    apply setPort_apart
    assumption
  · assumption

theorem execPdelayTimer_apart {s : State} (a0 : ℕ) (a1 : State) (h0 : Apart s a1) : ApartO s (execPdelayTimer a0 a1) := by
  delta execPdelayTimer
  refine ApartO.next ?_
  extract_lets v0
  clear_value v0
  refine Apart.ite ?_ ?_
  · apply sendDom_apart
    assumption
  · assumption

theorem execPermute_apart {s : State} (a0 : ℕ) (a1 : State) (h0 : Apart s a1) : ApartO s (execPermute a0 a1) := by
  delta execPermute
  refine ApartO.next ?_
  apply collRun_apart
  assumption

theorem execPermuteFlip_apart {s : State} (a0 : ℕ) (a1 : State) (h0 : Apart s a1) : ApartO s (execPermuteFlip a0 a1) := by
  delta execPermuteFlip
  refine ApartO.next ?_
  split
  · assumption
  · refine Apart.ite ?_ ?_
    · extract_lets v0
      have k1 : Apart s v0 := by
        unfold v0
        apply timeTo_apart
        assumption
      clear_value v0
      split
      · apply commitWith_apart
        · intro y2 y3 y4
          apply collEff_apart
          assumption
        · assumption
      · assumption
    · assumption

theorem pfResumeEff_apart {s : State} (a0 : State) (a1 : Cmd) (h0 : Apart s a0) : Apart s (pfResumeEff a0 a1) := by
  delta pfResumeEff
  extract_lets v0
  clear_value v0
  split
  · refine Apart.ite ?_ ?_
    · apply putPf_apart
      assumption
    · assumption
  · assumption

theorem execPfResume_apart {s : State} (a0 : ℕ) (a1 : State) (h0 : Apart s a1) : ApartO s (execPfResume a0 a1) := by
  delta execPfResume
  apply runOp_apart
  · intro y0 y1 y2
    apply pfResumeEff_apart
    assumption
  · assumption

theorem pfStartEff_apart {s : State} (a0 : State) (a1 : Cmd) (h0 : Apart s a0) : Apart s (pfStartEff a0 a1) := by
  delta pfStartEff
  split
  · extract_lets v0
    have k1 : Apart s v0 := by
      unfold v0
      apply putPf_apart
      assumption
    clear_value v0
    refine Apart.set ?_
    assumption
  · assumption

theorem execPfStart_apart {s : State} (a0 : ℕ) (a1 : State) (h0 : Apart s a1) : ApartO s (execPfStart a0 a1) := by
  delta execPfStart
  apply runOp_apart
  · intro y0 y1 y2
    apply pfStartEff_apart
    assumption
  · assumption

theorem pfStopEff_apart {s : State} (a0 : State) (a1 : Cmd) (h0 : Apart s a0) : Apart s (pfStopEff a0 a1) := by
  delta pfStopEff
  extract_lets v0
  clear_value v0
  split
  · refine Apart.ite ?_ ?_
    · apply putPf_apart
      assumption
    · assumption
  · assumption

theorem execPfStop_apart {s : State} (a0 : ℕ) (a1 : State) (h0 : Apart s a1) : ApartO s (execPfStop a0 a1) := by
  delta execPfStop
  apply runOp_apart
  · intro y0 y1 y2
    apply pfStopEff_apart
    assumption
  · assumption

theorem execPortRetrain_apart {s : State} (a0 : ℕ) (a1 : State) (h0 : Apart s a1) : ApartO s (execPortRetrain a0 a1) := by
  delta execPortRetrain
  refine ApartO.next ?_
  extract_lets v0
  clear_value v0
  refine Apart.ite ?_ ?_
  · apply trainPort_apart
    assumption
  · assumption

theorem execPowerChangeRetry_apart {s : State} (a0 : State) (h0 : Apart s a0) : ApartO s (execPowerChangeRetry a0) := by
  delta execPowerChangeRetry
  refine ApartO.next ?_
  split
  · assumption
  · refine Apart.ite ?_ ?_
    · assumption
    · extract_lets v0 v1
      clear_value v0
      have k2 : Apart s v1 := by
        unfold v1
        refine Apart.set ?_
        assumption
      clear_value v1
      refine Apart.ite ?_ ?_
      · apply autoChange_apart
        assumption
      · assumption

theorem suspendOn_apart {s : State} (a0 : State) (a1 : ℕ) (a2 : ℕ) (a3 : ℕ) (h0 : Apart s a0) : Apart s (suspendOn a0 a1 a2 a3) := by
  delta suspendOn
  extract_lets v0 v1
  have k2 : Apart s v0 := by
    unfold v0
    refine Apart.set ?_
    assumption
  clear_value v0
  have k3 : Apart s v1 := by
    unfold v1
    apply killAll_apart
    assumption
  clear_value v1
  apply count_apart
  assumption

theorem yieldLoop_apart {s : State} (a0 : Nat) (a1 : Cmd) (a2 : Nat) (a3 : State) (h0 : Apart s a3) : Apart s (yieldLoop a0 a1 a2 a3) := by
  induction a2 generalizing a3 with
  | zero => exact h0
  | succ n ih =>
    rw [yieldLoop]
    refine Apart.ite ?_ h0
    split
    · exact h0
    · exact ih _ (suspendOn_apart _ _ _ _ h0)

theorem replace_apart {s : State} (a0 : State) (a1 : ℕ) (a2 : Cmd) (h0 : Apart s a0) : Apart s (replace a0 a1 a2) := by
  delta replace
  extract_lets v0
  have k1 : Apart s v0 := by
    unfold v0
    apply putCmd_apart
    assumption
  clear_value v0
  split
  · apply putCmd_apart
    assumption
  · assumption

theorem execPreemption_apart {s : State} (a0 : ℕ) (a1 : State) (h0 : Apart s a1) : ApartO s (execPreemption a0 a1) := by
  delta execPreemption
  refine ApartO.next ?_
  split
  · assumption
  · extract_lets v0 v1 v2
    clear_value v0
    have k3 : Apart s v1 := by
      unfold v1
      apply yieldLoop_apart
      assumption
    clear_value v1
    have k4 : Apart s v2 := by
      unfold v2
      refine Apart.ite ?_ ?_
      · assumption
      · refine Apart.foldl _ ?_ (fun t5 b5 h5 => ?_)
        · assumption
        · split
          · apply replace_apart
            assumption
          · assumption
    clear_value v2
    apply debtPass_apart
    apply fillBasin_apart
    assumption

theorem promoSignal_apart {s : State} (a0 : State) (a1 : ℕ) (h0 : Apart s a0) : Apart s (promoSignal a0 a1) := by
  delta promoSignal
  split
  · apply signalLock_apart
    assumption
  · assumption

theorem stampObj_apart {s : State} (a0 : State) (a1 : ℕ) (h0 : Apart s a0) : Apart s (stampObj a0 a1) := by
  delta stampObj
  split
  · assumption
  · apply putObj_apart
    assumption

theorem prefetchFin_apart {s : State} (a0 : State) (a1 : Cmd) (h0 : Apart s a0) : Apart s (prefetchFin a0 a1) := by
  delta prefetchFin
  split
  · apply commitWith_apart
    · intro y0 y1 y2
      apply arrive_apart
      apply promoSignal_apart
      apply stampObj_apart
      assumption
    · assumption
  · assumption

theorem execPrefetchIssue_apart {s : State} (a0 : ℕ) (a1 : State) (h0 : Apart s a1) : ApartO s (execPrefetchIssue a0 a1) := by
  delta execPrefetchIssue
  refine ApartO.next ?_
  split
  · assumption
  · split
    · assumption
    · extract_lets v0 v1 v2 v3 v4 v5 v6 v7 v8 v9 v10
      clear_value v0 v1 v3
      have k11 : Apart s v4 := by
        unfold v4
        apply putPf_apart
        assumption
      clear_value v4
      clear_value v5
      have k12 : Apart s v6 := by
        unfold v6
        apply count_apart
        assumption
      clear_value v6
      clear_value v7 v8 v9
      have k13 : Apart s v10 := by
        unfold v10
        apply beginPrefetch_apart
        apply issueOwn_apart
        assumption
      clear_value v10
      refine Apart.ite ?_ ?_
      · assumption
      · split
        · refine Apart.ite ?_ ?_
          · apply prefetchFin_apart
            assumption
          · assumption
        · assumption

theorem commitWb_apart {s : State} (a0 : State) (a1 : ℕ) (a2 : ℕ) (h0 : Apart s a0) : Apart s (commitWb a0 a1 a2) := by
  delta commitWb
  split
  · assumption
  · extract_lets v0 v1 v2 v3 v4 v5 v6
    clear_value v0
    have k7 : Apart s v1 := by
      unfold v1
      apply count_apart
      assumption
    clear_value v1
    have k8 : Apart s v2 := by
      unfold v2
      apply poundPublish_apart
      apply publishWrites_apart
      assumption
    clear_value v2
    have k9 : Apart s v3 := by
      unfold v3
      split
      · apply sendWb_apart
        assumption
      · assumption
    clear_value v3
    clear_value v4
    have k10 : Apart s v5 := by
      unfold v5
      refine Apart.ite ?_ ?_
      · apply putObj_apart
        assumption
      · assumption
    clear_value v5
    have k11 : Apart s v6 := by
      unfold v6
      apply clearCopy_apart
      assumption
    clear_value v6
    split
    · assumption
    · refine Apart.ite ?_ ?_
      · apply removeCopy_apart
        assumption
      · assumption

theorem pushWb_apart {s : State} (a0 : State) (a1 : ℕ) (a2 : ℕ) (h0 : Apart s a0) : Apart s (pushWb a0 a1 a2) := by
  delta pushWb
  split
  · assumption
  · split
    · assumption
    · refine Apart.ite ?_ ?_
      · apply killWb_apart
        assumption
      · refine Apart.ite ?_ ?_
        · apply stageWb_apart
          assumption
        · refine Apart.ite ?_ ?_
          · assumption
          · apply commitWb_apart
            assumption

theorem pushWbs_apart {s : State} (a0 : State) (a1 : List ℕ) (h0 : Apart s a0) : Apart s (pushWbs a0 a1) := by
  delta pushWbs
  refine Apart.foldl _ ?_ (fun t0 b0 h0 => ?_)
  · assumption
  · apply pushWb_apart
    apply pushWb_apart
    assumption

theorem seekPlace_apart {s : State} (a0 : State) (a1 : ℕ) (a2 : ℕ) (a3 : ℕ) (h0 : Apart s a0) : Apart s (seekPlace a0 a1 a2 a3) := by
  delta seekPlace
  split
  · assumption
  · apply placePromotion_apart
    apply pushWbs_apart
    assumption

theorem tryPromotion_apart {s : State} (a0 : State) (a1 : Cmd) (a2 : State → Cmd → State) (h0 : ∀ y0 y1, Apart s y0 → Apart s (a2 y0 y1)) (h1 : Apart s a0) : Apart s (tryPromotion a0 a1 a2) := by
  delta tryPromotion
  extract_lets v0 v1 v2
  clear_value v0 v1
  have k3 : Apart s v2 := by
    unfold v2
    apply seekPlace_apart
    assumption
  clear_value v2
  split
  · apply endCmd_apart
    assumption
  · refine Apart.ite ?_ ?_
    · apply h0
      assumption
    · refine Apart.ite ?_ ?_
      · refine Apart.ite ?_ ?_
        · apply startPromotion_apart
          apply putCmd_apart
          refine Apart.set ?_
          assumption
        · assumption
      · split
        · assumption
        · refine Apart.ite ?_ ?_
          · assumption
          · split
            · apply askReads_apart
              assumption
            · apply endCmd_apart
              assumption
            · apply eccEnd_apart
              assumption
            · apply zipEnd_apart
              assumption
            · apply h0
              apply endPromotion_apart
              assumption

theorem execPromotionCommit_apart {s : State} (a0 : ℕ) (a1 : State) (h0 : Apart s a1) : ApartO s (execPromotionCommit a0 a1) := by
  delta execPromotionCommit
  refine ApartO.next ?_
  split
  · split
    · refine Apart.ite ?_ ?_
      · apply tryPromotion_apart
        · intro y0 y1 y2
          apply prefetchFin_apart
          assumption
        · assumption
      · assumption
    · assumption
  · assumption

theorem execPromotionResume_apart {s : State} (a0 : ℕ) (a1 : State) (h0 : Apart s a1) : ApartO s (execPromotionResume a0 a1) := by
  delta execPromotionResume
  refine ApartO.next ?_
  split
  · assumption
  · split
    · refine Apart.ite ?_ ?_
      · refine Apart.ite ?_ ?_
        · apply beginInit_apart
          assumption
        · refine Apart.ite ?_ ?_
          · assumption
          · apply beginPrefetch_apart
            assumption
      · refine Apart.ite ?_ ?_
        · apply seekPlace_apart
          assumption
        · assumption
    · refine Apart.ite ?_ ?_
      · apply seekPlace_apart
        assumption
      · assumption

theorem execPwrCtrl_apart {s : State} (a0 : Via) (a1 : ℕ) (a2 : State) (h0 : Apart s a2) : ApartO s (execPwrCtrl a0 a1 a2) := by
  delta execPwrCtrl
  refine ApartO.next ?_
  split
  · refine Apart.ite ?_ ?_
    · apply writePwrCtrl_apart
      assumption
    · assumption
  · refine Apart.ite ?_ ?_
    · apply writePwrCtrl_apart
      assumption
    · assumption
  · assumption

theorem execPwrEnAssert_apart {s : State} (a0 : State) (h0 : Apart s a0) : ApartO s (execPwrEnAssert a0) := by
  delta execPwrEnAssert
  refine ApartO.next ?_
  extract_lets v0 v1
  clear_value v0 v1
  refine Apart.set ?_
  assumption

theorem loanDenied_apart {s : State} (a0 : State) (a1 : MsgHdr) (a2 : ℕ) (h0 : Apart s a0) : Apart s (loanDenied a0 a1 a2) := by
  delta loanDenied
  extract_lets v0
  clear_value v0
  apply raise_apart
  assumption

theorem execReadReq_apart {s : State} (a0 : MsgHdr) (a1 : ℕ) (a2 : ℕ) (a3 : Bool) (a4 : State) (h0 : Apart s a4) : ApartO s (execReadReq a0 a1 a2 a3 a4) := by
  delta execReadReq
  apply receive_apart
  · intro y0 y1
    split
    · apply answerRead_apart
      apply loanDenied_apart
      assumption
    · split
      · apply answerRead_apart
        apply memError_apart
        assumption
      · apply answerRead_apart
        assumption
  · assumption

theorem execReadResp_apart {s : State} (a0 : MsgHdr) (a1 : ℕ) (a2 : List Byte) (a3 : State) (h0 : Apart s a3) : ApartO s (execReadResp a0 a1 a2 a3) := by
  delta execReadResp
  apply receive_apart
  · intro y0 y1
    refine Apart.ite ?_ ?_
    · split
      · apply endCmd_apart
        assumption
      · assumption
    · split
      · apply putCmd_apart
        assumption
      · assumption
  · assumption

theorem execRecip_apart {s : State} (a0 : ℕ) (a1 : State) (h0 : Apart s a1) : ApartO s (execRecip a0 a1) := by
  delta execRecip
  apply runOp_apart
  · intro y0 y1 y2
    apply noEffect_apart
    assumption
  · assumption

theorem execReduceScatter_apart {s : State} (a0 : ℕ) (a1 : State) (h0 : Apart s a1) : ApartO s (execReduceScatter a0 a1) := by
  delta execReduceScatter
  refine ApartO.next ?_
  apply collRun_apart
  assumption

theorem execReduceToOwner_apart {s : State} (a0 : ℕ) (a1 : State) (h0 : Apart s a1) : ApartO s (execReduceToOwner a0 a1) := by
  delta execReduceToOwner
  refine ApartO.next ?_
  apply collRun_apart
  assumption

theorem outsideMap_apart {s : State} (a0 : State) (a1 : ℕ) (a2 : Bool) (h0 : Apart s a0) : Apart s (outsideMap a0 a1 a2) := by
  delta outsideMap
  apply regAccess_apart
  assumption

theorem execRegisterReadClear_apart {s : State} (a0 : Via) (a1 : ℕ) (a2 : ℕ) (a3 : State) (h0 : Apart s a3) : ApartO s (execRegisterReadClear a0 a1 a2 a3) := by
  delta execRegisterReadClear
  extract_lets v0 v1
  have k2 : ∀ y0, Apart s y0.1 → Apart s (v0 y0) := by
    intro y3 y4
    unfold v0
    extract_lets v5
    have k6 : Apart s v5 := by
      unfold v5
      assumption
    clear_value v5
    refine Apart.set ?_
    assumption
  clear_value v0
  have k7 : ∀ y0, Apart s y0 → Apart s (v1 y0).1 := by
    intro y8 y9
    unfold v1
    split
    · split
      · dsimp only
        assumption
      · apply busRead_apart
        assumption
    · dsimp only
      apply outsideMap_apart
      assumption
  clear_value v1
  refine ApartO.next ?_
  split
  · refine Apart.ite ?_ ?_
    · apply k2
      dsimp only
      assumption
    · split
      · apply k2
        dsimp only
        assumption
      · apply k2
        dsimp only
        apply badPage_apart
        assumption
  · refine Apart.ite ?_ ?_
    · apply k2
      dsimp only
      assumption
    · apply k2
      apply k7
      assumption
  · refine Apart.ite ?_ ?_
    · refine Apart.ite ?_ ?_
      · apply k2
        dsimp only
        assumption
      · refine Apart.ite ?_ ?_
        · apply k2
          dsimp only
          apply badAccess_apart
          assumption
        · apply k2
          dsimp only
          refine Apart.set ?_
          assumption
    · assumption
  · refine Apart.ite ?_ ?_
    · apply k2
      apply k7
      assumption
    · assumption
  · refine Apart.ite ?_ ?_
    · assumption
    · refine Apart.set ?_
      assumption

theorem execResAdd_apart {s : State} (a0 : ℕ) (a1 : State) (h0 : Apart s a1) : ApartO s (execResAdd a0 a1) := by
  delta execResAdd
  apply runOp_apart
  · intro y0 y1 y2
    apply noEffect_apart
    assumption
  · assumption

theorem resCreateEff_apart {s : State} (a0 : State) (a1 : Cmd) (h0 : Apart s a0) : Apart s (resCreateEff a0 a1) := by
  delta resCreateEff
  extract_lets v0
  clear_value v0
  apply putObj_apart
  assumption

theorem execResCreate_apart {s : State} (a0 : ℕ) (a1 : State) (h0 : Apart s a1) : ApartO s (execResCreate a0 a1) := by
  delta execResCreate
  apply runOp_apart
  · intro y0 y1 y2
    apply resCreateEff_apart
    assumption
  · assumption

theorem resDestroyEff_apart {s : State} (a0 : State) (a1 : Cmd) (h0 : Apart s a0) : Apart s (resDestroyEff a0 a1) := by
  delta resDestroyEff
  extract_lets v0
  clear_value v0
  split
  · assumption
  · extract_lets v1 v2
    clear_value v1
    have k3 : Apart s v2 := by
      unfold v2
      apply wrLocal_apart
      apply wrLocal_apart
      refine Apart.set ?_
      assumption
    clear_value v2
    apply syncPool_apart
    apply syncPool_apart
    assumption

theorem evictStep_apart {s : State} (a0 : State) (a1 : ℕ) (a2 : ℕ) (h0 : Apart s a0) : Apart s (evictStep a0 a1 a2) := by
  delta evictStep
  split
  · assumption
  · refine Apart.ite ?_ ?_
    · apply pushWb_apart
      assumption
    · refine Apart.ite ?_ ?_
      · apply removeCopy_apart
        assumption
      · assumption

theorem evictStop_apart {s t : State} (a0 : State) (a1 : Cmd) (a2 a3 : Nat) (e : evictStop a0 a1 a2 a3 = some t) (h0 : Apart s a0) : Apart s t := by
  unfold evictStop at e
  split at e
  · exact nomatch e
  · split at e
    · exact nomatch e
    · split at e
      · exact Option.some.inj e ▸ eccEnd_apart _ _ _ h0
      · exact Option.some.inj e ▸ endCmd_apart _ _ _ _ h0
      · exact nomatch e

theorem execResDestroy_apart {s : State} (a0 : ℕ) (a1 : State) (h0 : Apart s a1) : ApartO s (execResDestroy a0 a1) := by
  delta execResDestroy
  split
  · refine ApartO.next ?_
    assumption
  · extract_lets v0 v1 v2 v3 v4 v5 v6
    clear_value v0 v1 v2 v3
    have k7 : Apart s v4 := by
      unfold v4
      apply evictStep_apart
      assumption
    clear_value v4
    have k8 : Apart s v5 := by
      unfold v5
      refine Apart.ite ?_ ?_
      · apply evictStep_apart
        assumption
      · assumption
    clear_value v5
    clear_value v6
    refine ApartO.ite ?_ ?_
    · refine ApartO.next ?_
      assumption
    · refine ApartO.ite ?_ ?_
      · apply runOp_apart
        · intro y9 y10 y11
          apply resDestroyEff_apart
          assumption
        · assumption
      · split
        · refine ApartO.next ?_
          exact evictStop_apart _ _ _ _ ‹_› (by assumption)
        · apply runOp_apart
          · intro y12 y13 y14
            apply resDestroyEff_apart
            assumption
          · assumption

theorem resEvictEff_apart {s : State} (a0 : State) (a1 : Cmd) (h0 : Apart s a0) : Apart s (resEvictEff a0 a1) := by
  delta resEvictEff
  extract_lets v0 v1
  clear_value v0 v1
  split
  · assumption
  · refine Apart.ite ?_ ?_
    · apply putObj_apart
      assumption
    · assumption

theorem execResEvict_apart {s : State} (a0 : ℕ) (a1 : State) (h0 : Apart s a1) : ApartO s (execResEvict a0 a1) := by
  delta execResEvict
  split
  · refine ApartO.next ?_
    assumption
  · extract_lets v0 v1 v2 v3 vt v4 v5
    clear_value v0 v1 v2 v3 vt
    have k6 : Apart s v4 := by
      unfold v4
      refine Apart.ite ?_ ?_
      · assumption
      · apply evictStep_apart
        assumption
    clear_value v4
    clear_value v5
    refine ApartO.ite ?_ ?_
    · refine ApartO.next ?_
      assumption
    · split
      · refine ApartO.next ?_
        exact evictStop_apart _ _ _ _ (of_ite_some ‹_›) (by assumption)
      · apply runOp_apart
        · intro y7 y8 y9
          apply resEvictEff_apart
          assumption
        · assumption

theorem resPinEff_apart {s : State} (a0 : State) (a1 : Cmd) (h0 : Apart s a0) : Apart s (resPinEff a0 a1) := by
  delta resPinEff
  extract_lets v0 v1 v2
  clear_value v0 v1
  have k3 : Apart s v2 := by
    unfold v2
    apply killWb_apart
    assumption
  clear_value v2
  split
  · assumption
  · split
    · assumption
    · apply putObj_apart
      assumption

theorem execResPin_apart {s : State} (a0 : ℕ) (a1 : State) (h0 : Apart s a1) : ApartO s (execResPin a0 a1) := by
  delta execResPin
  apply runOp_apart
  · intro y0 y1 y2
    apply resPinEff_apart
    assumption
  · assumption

theorem poolInitEff_apart {s : State} (a0 : State) (a1 : Cmd) (h0 : Apart s a0) : Apart s (poolInitEff a0 a1) := by
  delta poolInitEff
  extract_lets v0 v1
  clear_value v0 v1
  apply syncPool_apart
  refine Apart.set ?_
  assumption

theorem execResPoolInit_apart {s : State} (a0 : ℕ) (a1 : State) (h0 : Apart s a1) : ApartO s (execResPoolInit a0 a1) := by
  delta execResPoolInit
  apply runOp_apart
  · intro y0 y1 y2
    apply poolInitEff_apart
    assumption
  · assumption

theorem promoteFin_apart {s : State} (a0 : State) (a1 : Cmd) (h0 : Apart s a0) : Apart s (promoteFin a0 a1) := by
  delta promoteFin
  apply commitWith_apart
  · intro y0 y1 y2
    apply promoSignal_apart
    apply stampObj_apart
    assumption
  · assumption

theorem execResPromote_apart {s : State} (a0 : ℕ) (a1 : State) (h0 : Apart s a1) : ApartO s (execResPromote a0 a1) := by
  delta execResPromote
  refine ApartO.next ?_
  split
  · refine Apart.ite ?_ ?_
    · apply tryPromotion_apart
      · intro y0 y1 y2
        apply promoteFin_apart
        assumption
      · assumption
    · assumption
  · assumption

theorem resUnpinEff_apart {s : State} (a0 : State) (a1 : Cmd) (h0 : Apart s a0) : Apart s (resUnpinEff a0 a1) := by
  delta resUnpinEff
  extract_lets v0 v1
  clear_value v0 v1
  split
  · assumption
  · extract_lets v2 v3 v4
    clear_value v2 v3
    have k5 : Apart s v4 := by
      unfold v4
      apply putObj_apart
      assumption
    clear_value v4
    refine Apart.ite ?_ ?_
    · apply removeCopy_apart
      assumption
    · assumption

theorem execResUnpin_apart {s : State} (a0 : ℕ) (a1 : State) (h0 : Apart s a1) : ApartO s (execResUnpin a0 a1) := by
  delta execResUnpin
  apply runOp_apart
  · intro y0 y1 y2
    apply resUnpinEff_apart
    assumption
  · assumption

theorem execRingCfg_apart {s : State} (a0 : Via) (a1 : ℕ) (a2 : ℕ) (a3 : State) (h0 : Apart s a3) : ApartO s (execRingCfg a0 a1 a2 a3) := by
  delta execRingCfg
  refine ApartO.next ?_
  refine Apart.ite ?_ ?_
  · apply writeRingCfg_apart
    assumption
  · split
    · apply badPage_apart
      assumption
    · assumption

theorem execRingFetch_apart {s : State} (a0 : ℕ) (a1 : State) (h0 : Apart s a1) : ApartO s (execRingFetch a0 a1) := by
  delta execRingFetch
  refine ApartO.next ?_
  extract_lets v0 v1
  clear_value v0
  have k2 : Apart s v1 := by
    unfold v1
    apply setRing_apart
    assumption
  clear_value v1
  refine Apart.ite ?_ ?_
  · assumption
  · refine Apart.ite ?_ ?_
    · assumption
    · split
      · apply ringFault_apart
        assumption
      · apply raiseFor_apart
        apply ringFault_apart
        assumption
      · extract_lets v3 v4
        clear_value v3 v4
        refine Apart.ite ?_ ?_
        · apply endCmd_apart
          refine Apart.set ?_
          assumption
        · apply acceptCmd_apart
          assumption

theorem execRingTail_apart {s : State} (a0 : Via) (a1 : ℕ) (a2 : ℕ) (a3 : State) (h0 : Apart s a3) : ApartO s (execRingTail a0 a1 a2 a3) := by
  delta execRingTail
  refine ApartO.next ?_
  refine Apart.ite ?_ ?_
  · apply writeRingTail_apart
    assumption
  · split
    · apply badPage_apart
      assumption
    · assumption

theorem execRootChol_apart {s : State} (a0 : ℕ) (a1 : State) (h0 : Apart s a1) : ApartO s (execRootChol a0 a1) := by
  delta execRootChol
  apply runProblems_apart
  · intro y0 y1 y2
    apply rootEff_apart
    assumption
  · assumption

theorem execRootDeadline_apart {s : State} (a0 : ℕ) (a1 : ℕ) (a2 : ℕ) (a3 : Bool) (a4 : State) (h0 : Apart s a4) : ApartO s (execRootDeadline a0 a1 a2 a3 a4) := by
  delta execRootDeadline
  split
  · refine ApartO.next ?_
    assumption
  · split
    · refine ApartO.next ?_
      assumption
    · refine ApartO.ite ?_ ?_
      · extract_lets v0
        have k1 : Apart s v0 := by
          unfold v0
          apply timeTo_apart
          assumption
        clear_value v0
        apply runProblems_apart
        · intro y2 y3 y4
          apply rootEff_apart
          assumption
        · assumption
      · refine ApartO.next ?_
        assumption

theorem execRootNewton_apart {s : State} (a0 : ℕ) (a1 : State) (h0 : Apart s a1) : ApartO s (execRootNewton a0 a1) := by
  delta execRootNewton
  apply runProblems_apart
  · intro y0 y1 y2
    apply rootEff_apart
    assumption
  · assumption

theorem execRsqrt_apart {s : State} (a0 : ℕ) (a1 : State) (h0 : Apart s a1) : ApartO s (execRsqrt a0 a1) := by
  delta execRsqrt
  apply runOp_apart
  · intro y0 y1 y2
    apply noEffect_apart
    assumption
  · assumption

theorem schedEff_apart {s : State} (a0 : State) (a1 : Cmd) (h0 : Apart s a0) : Apart s (schedEff a0 a1) := by
  delta schedEff
  extract_lets v0 v1 v2 v3
  clear_value v0 v1 v2 v3
  refine Apart.set ?_
  assumption

theorem execSchedLoad_apart {s : State} (a0 : ℕ) (a1 : State) (h0 : Apart s a1) : ApartO s (execSchedLoad a0 a1) := by
  delta execSchedLoad
  apply runOp_apart
  · intro y0 y1 y2
    apply schedEff_apart
    assumption
  · assumption

theorem execShardCopy_apart {s : State} (a0 : ℕ) (a1 : State) (h0 : Apart s a1) : ApartO s (execShardCopy a0 a1) := by
  delta execShardCopy
  refine ApartO.next ?_
  split
  · assumption
  · split
    · split
      · assumption
      · extract_lets v0 v1 v2 v3 v4 v5
        clear_value v0 v1 v2 v3 v4 v5
        split
        · refine Apart.ite ?_ ?_
          · assumption
          · apply copyDone_apart
            assumption
        · extract_lets v6 v7 v8
          clear_value v6
          have k9 : ∀ y0 y1, Apart s y0 → Apart s (v7 y0 y1) := by
            intro y10 y11 y12
            unfold v7
            refine Apart.ite ?_ ?_
            · split
              · apply askReads_apart
                assumption
              · refine Apart.ite ?_ ?_
                · apply copyDone_apart
                  assumption
                · split
                  · apply copyDone_apart
                    assumption
                  · apply stage_apart
                    · intro y13 y14 y15
                      apply shardCopyEff_apart
                      assumption
                    · assumption
            · apply stage_apart
              · intro y16 y17 y18
                apply shardCopyEff_apart
                assumption
              · assumption
          clear_value v7
          clear_value v8
          refine Apart.ite ?_ ?_
          · apply k9
            assumption
          · refine Apart.ite ?_ ?_
            · assumption
            · refine Apart.ite ?_ ?_
              · apply copyDone_apart
                assumption
              · refine Apart.ite ?_ ?_
                · apply copyDone_apart
                  assumption
                · refine Apart.ite ?_ ?_
                  · apply copyDone_apart
                    assumption
                  · split
                    · apply copyDone_apart
                      apply memError_apart
                      assumption
                    · split
                      · assumption
                      · refine Apart.ite ?_ ?_
                        · assumption
                        · extract_lets v19
                          clear_value v19
                          apply k9
                          apply putCmd_apart
                          assumption
    · assumption

theorem execShardInit_apart {s : State} (a0 : ℕ) (a1 : State) (h0 : Apart s a1) : ApartO s (execShardInit a0 a1) := by
  delta execShardInit
  apply runOp_apart
  · intro y0 y1 y2
    apply shardEff_apart
    assumption
  · assumption

theorem execSicTake_apart {s : State} (a0 : ℕ) (a1 : ℕ) (a2 : ℕ) (a3 : Bool) (a4 : State) (h0 : Apart s a4) : ApartO s (execSicTake a0 a1 a2 a3 a4) := by
  delta execSicTake
  refine ApartO.next ?_
  refine Apart.ite ?_ ?_
  · apply setSic_apart
    assumption
  · assumption

theorem execSigmoid_apart {s : State} (a0 : ℕ) (a1 : State) (h0 : Apart s a1) : ApartO s (execSigmoid a0 a1) := by
  delta execSigmoid
  apply runOp_apart
  · intro y0 y1 y2
    apply noEffect_apart
    assumption
  · assumption

theorem execSnoop_apart {s : State} (a0 : ℕ) (a1 : State) (h0 : Apart s a1) : ApartO s (execSnoop a0 a1) := by
  delta execSnoop
  refine ApartO.next ?_
  refine Apart.ite ?_ ?_
  · refine Apart.set ?_
    assumption
  · assumption

theorem execSoftmaxRows_apart {s : State} (a0 : ℕ) (a1 : State) (h0 : Apart s a1) : ApartO s (execSoftmaxRows a0 a1) := by
  delta execSoftmaxRows
  apply runOp_apart
  · intro y0 y1 y2
    apply noEffect_apart
    assumption
  · assumption

theorem execSolveBicgstab_apart {s : State} (a0 : ℕ) (a1 : State) (h0 : Apart s a1) : ApartO s (execSolveBicgstab a0 a1) := by
  delta execSolveBicgstab
  apply runProblems_apart
  · intro y0 y1 y2
    apply noEffect_apart
    assumption
  · assumption

theorem execSolveCg_apart {s : State} (a0 : ℕ) (a1 : State) (h0 : Apart s a1) : ApartO s (execSolveCg a0 a1) := by
  delta execSolveCg
  apply runProblems_apart
  · intro y0 y1 y2
    apply noEffect_apart
    assumption
  · assumption

theorem execSolveDeadline_apart {s : State} (a0 : ℕ) (a1 : ℕ) (a2 : ℕ) (a3 : Bool) (a4 : State) (h0 : Apart s a4) : ApartO s (execSolveDeadline a0 a1 a2 a3 a4) := by
  delta execSolveDeadline
  split
  · refine ApartO.next ?_
    assumption
  · extract_lets v0 v1
    clear_value v0
    have k2 : Apart s v1 := by
      unfold v1
      apply timeTo_apart
      assumption
    clear_value v1
    refine ApartO.ite ?_ ?_
    · apply runProblems_apart
      · intro y3 y4 y5
        apply noEffect_apart
        assumption
      · assumption
    · refine ApartO.next ?_
      assumption

theorem execSolvePcg_apart {s : State} (a0 : ℕ) (a1 : State) (h0 : Apart s a1) : ApartO s (execSolvePcg a0 a1) := by
  delta execSolvePcg
  apply runProblems_apart
  · intro y0 y1 y2
    apply noEffect_apart
    assumption
  · assumption

theorem execSourceFire_apart {s : State} (a0 : ℕ) (a1 : ℕ) (a2 : State) (h0 : Apart s a2) : ApartO s (execSourceFire a0 a1 a2) := by
  delta execSourceFire
  refine ApartO.next ?_
  apply fire_apart
  assumption

theorem execSpdmRequest_apart {s : State} (a0 : List Byte) (a1 : State) (h0 : Apart s a1) : ApartO s (execSpdmRequest a0 a1) := by
  delta execSpdmRequest
  refine ApartO.next ?_
  refine Apart.ite ?_ ?_
  · refine Apart.set ?_
    assumption
  · assumption

theorem execSqrt_apart {s : State} (a0 : ℕ) (a1 : State) (h0 : Apart s a1) : ApartO s (execSqrt a0 a1) := by
  delta execSqrt
  apply runOp_apart
  · intro y0 y1 y2
    apply noEffect_apart
    assumption
  · assumption

theorem execStage_apart {s : State} (a0 : MsgHdr) (a1 : ℕ) (a2 : ℕ) (a3 : ℕ) (a4 : ℕ) (a5 : List ModeItem) (a6 : List ℕ) (a7 : State) (h0 : Apart s a7) : ApartO s (execStage a0 a1 a2 a3 a4 a5 a6 a7) := by
  delta execStage
  apply receive_apart
  · intro y0 y1
    extract_lets v2 v3 v4 v5 v6
    clear_value v2 v3 v4 v5 v6
    refine Apart.ite ?_ ?_
    · assumption
    · refine Apart.ite ?_ ?_
      · apply stageChange_apart
        assumption
      · refine Apart.ite ?_ ?_
        · apply sendDom_apart
          apply sendDom_apart
          apply receiveChange_apart
          assumption
        · assumption
  · assumption

theorem ackWb_apart {s : State} (a0 : State) (a1 : ℕ) (a2 : ℕ) (a3 : ℕ) (a4 : Bool) (h0 : Apart s a0) : Apart s (ackWb a0 a1 a2 a3 a4) := by
  delta ackWb
  split
  · assumption
  · extract_lets v0 v1
    clear_value v0 v1
    split
    · assumption
    · refine Apart.ite ?_ ?_
      · apply killWb_apart
        assumption
      · apply pushWb_apart
        apply putObj_apart
        assumption

theorem execStagedAck_apart {s : State} (a0 : MsgHdr) (a1 : State) (h0 : Apart s a1) : ApartO s (execStagedAck a0 a1) := by
  delta execStagedAck
  apply receive_apart
  · intro y0 y1
    split
    · apply ackWb_apart
      assumption
    · refine Apart.ite ?_ ?_
      · extract_lets v2 v3
        clear_value v2 v3
        apply endCmd_apart
        assumption
      · extract_lets v4 v5
        clear_value v4 v5
        apply tryFlip_apart
        apply putCmd_apart
        assumption
  · assumption

theorem execStagedModeExpiry_apart {s : State} (a0 : ℕ) (a1 : State) (h0 : Apart s a1) : ApartO s (execStagedModeExpiry a0 a1) := by
  delta execStagedModeExpiry
  refine ApartO.next ?_
  split
  · assumption
  · refine Apart.ite ?_ ?_
    · apply dropChange_apart
      apply timeTo_apart
      assumption
    · assumption

theorem execSub_apart {s : State} (a0 : ℕ) (a1 : State) (h0 : Apart s a1) : ApartO s (execSub a0 a1) := by
  delta execSub
  apply runOp_apart
  · intro y0 y1 y2
    apply noEffect_apart
    assumption
  · assumption

theorem execSumRows_apart {s : State} (a0 : ℕ) (a1 : State) (h0 : Apart s a1) : ApartO s (execSumRows a0 a1) := by
  delta execSumRows
  apply runOp_apart
  · intro y0 y1 y2
    apply noEffect_apart
    assumption
  · assumption

theorem execTanh_apart {s : State} (a0 : ℕ) (a1 : State) (h0 : Apart s a1) : ApartO s (execTanh a0 a1) := by
  delta execTanh
  apply runOp_apart
  · intro y0 y1 y2
    apply noEffect_apart
    assumption
  · assumption

theorem execTargetIdle_apart {s : State} (a0 : ℕ) (a1 : ℕ) (a2 : State) (h0 : Apart s a2) : ApartO s (execTargetIdle a0 a1 a2) := by
  delta execTargetIdle
  refine ApartO.next ?_
  refine Apart.ite ?_ ?_
  · extract_lets v0 v1 v2 v3
    clear_value v0 v1 v2 v3
    apply setSic_apart
    assumption
  · assumption

theorem execTestBasin_apart {s : State} (a0 : ℕ) (a1 : State) (h0 : Apart s a1) : ApartO s (execTestBasin a0 a1) := by
  delta execTestBasin
  refine ApartO.next ?_
  apply testRun_apart
  assumption

theorem execTestCore_apart {s : State} (a0 : ℕ) (a1 : State) (h0 : Apart s a1) : ApartO s (execTestCore a0 a1) := by
  delta execTestCore
  refine ApartO.next ?_
  apply testRun_apart
  assumption

theorem execTestMove_apart {s : State} (a0 : ℕ) (a1 : State) (h0 : Apart s a1) : ApartO s (execTestMove a0 a1) := by
  delta execTestMove
  refine ApartO.next ?_
  apply testRun_apart
  assumption

theorem execTestRoot_apart {s : State} (a0 : ℕ) (a1 : State) (h0 : Apart s a1) : ApartO s (execTestRoot a0 a1) := by
  delta execTestRoot
  refine ApartO.next ?_
  apply testRun_apart
  assumption

theorem execTestRotation_apart {s : State} (a0 : HwUnit) (a1 : State) (h0 : Apart s a1) : ApartO s (execTestRotation a0 a1) := by
  delta execTestRotation
  refine ApartO.next ?_
  split
  · assumption
  · refine Apart.ite ?_ ?_
    · assumption
    · apply askTest_apart
      assumption

theorem execTime_apart {s : State} (a0 : MsgHdr) (a1 : ℕ) (a2 : ℕ) (a3 : ℕ) (a4 : State) (h0 : Apart s a4) : ApartO s (execTime a0 a1 a2 a3 a4) := by
  delta execTime
  apply receive_apart
  · intro y0 y1
    extract_lets v2 v3 v4 v5 v6 v7
    clear_value v2 v3 v4 v5 v6
    have k8 : Apart s v7 := by
      unfold v7
      apply timeTo_apart
      assumption
    clear_value v7
    refine Apart.ite ?_ ?_
    · assumption
    · refine Apart.set ?_
      assumption
  · assumption

theorem execTimeTimer_apart {s : State} (a0 : State) (h0 : Apart s a0) : ApartO s (execTimeTimer a0) := by
  delta execTimeTimer
  refine ApartO.next ?_
  refine Apart.ite ?_ ?_
  · refine Apart.foldl _ ?_ (fun t0 b0 h0 => ?_)
    · assumption
    · apply sendDom_apart
      assumption
  · assumption

theorem execTimeUnlocked_apart {s : State} (a0 : State) (h0 : Apart s a0) : ApartO s (execTimeUnlocked a0) := by
  delta execTimeUnlocked
  refine ApartO.next ?_
  refine Apart.ite ?_ ?_
  · extract_lets v0 v1
    have k2 : Apart s v0 := by
      unfold v0
      apply timeTo_apart
      assumption
    clear_value v0
    clear_value v1
    apply raiseMod_apart
    apply fire_apart
    refine Apart.set ?_
    assumption
  · assumption

theorem execTwatchSetup_apart {s : State} (a0 : ℕ) (a1 : State) (h0 : Apart s a1) : ApartO s (execTwatchSetup a0 a1) := by
  delta execTwatchSetup
  apply runOp_apart
  · intro y0 y1 y2
    extract_lets v3 v4
    clear_value v3
    have k5 : Apart s v4 := by
      unfold v4
      refine Apart.set ?_
      assumption
    clear_value v4
    refine Apart.ite ?_ ?_
    · apply moduleWrite_apart
      assumption
    · assumption
  · assumption

theorem execTwatchStop_apart {s : State} (a0 : ℕ) (a1 : State) (h0 : Apart s a1) : ApartO s (execTwatchStop a0 a1) := by
  delta execTwatchStop
  apply runOp_apart
  · intro y0 y1 y2
    refine Apart.set ?_
    assumption
  · assumption

theorem execUpdDiag_apart {s : State} (a0 : ℕ) (a1 : State) (h0 : Apart s a1) : ApartO s (execUpdDiag a0 a1) := by
  delta execUpdDiag
  apply runOp_apart
  · intro y0 y1 y2
    apply updEff_apart
    assumption
  · assumption

theorem execUpdFirst_apart {s : State} (a0 : ℕ) (a1 : State) (h0 : Apart s a1) : ApartO s (execUpdFirst a0 a1) := by
  delta execUpdFirst
  apply runOp_apart
  · intro y0 y1 y2
    apply updEff_apart
    assumption
  · assumption

theorem execUpdPrecond_apart {s : State} (a0 : ℕ) (a1 : State) (h0 : Apart s a1) : ApartO s (execUpdPrecond a0 a1) := by
  delta execUpdPrecond
  apply runOp_apart
  · intro y0 y1 y2
    apply updEff_apart
    assumption
  · assumption

theorem execWatchSetup_apart {s : State} (a0 : ℕ) (a1 : State) (h0 : Apart s a1) : ApartO s (execWatchSetup a0 a1) := by
  delta execWatchSetup
  apply runOp_apart
  · intro y0 y1 y2
    extract_lets v3 v4 v5 v6
    clear_value v3 v4 v5 v6
    refine Apart.set ?_
    assumption
  · assumption

theorem execWatchStop_apart {s : State} (a0 : ℕ) (a1 : State) (h0 : Apart s a1) : ApartO s (execWatchStop a0 a1) := by
  delta execWatchStop
  apply runOp_apart
  · intro y0 y1 y2
    refine Apart.set ?_
    assumption
  · assumption

theorem execWgrad_apart {s : State} (a0 : ℕ) (a1 : State) (h0 : Apart s a1) : ApartO s (execWgrad a0 a1) := by
  delta execWgrad
  apply runOp_apart
  · intro y0 y1 y2
    apply noEffect_apart
    assumption
  · assumption

theorem execWgradBlkmask_apart {s : State} (a0 : ℕ) (a1 : State) (h0 : Apart s a1) : ApartO s (execWgradBlkmask a0 a1) := by
  delta execWgradBlkmask
  apply runOp_apart
  · intro y0 y1 y2
    apply noEffect_apart
    assumption
  · assumption

theorem execWgradRowmask_apart {s : State} (a0 : ℕ) (a1 : State) (h0 : Apart s a1) : ApartO s (execWgradRowmask a0 a1) := by
  delta execWgradRowmask
  apply runOp_apart
  · intro y0 y1 y2
    apply noEffect_apart
    assumption
  · assumption

end Sys2Proof.Machine
end

