-- ==== Sys2Proof/Laws/Beside.lean ====
section
/-! SUPPORT. What the operations that a commit is made of leave alone (`Beside`): one lemma `<name>_beside` each. -/

set_option linter.unusedVariables false

namespace Sys2Proof.Machine

theorem Beside.refl (s : State) : Beside s s := by
  constructor <;> first | rfl | exact Nat.le_refl _ | exact fun _ => rfl | exact fun _ h => List.mem_map_of_mem h
theorem Beside.trans {a b c : State} (h : Beside a b) (g : Beside b c) : Beside a c :=
  ⟨g.pending.trans h.pending, g.time.trans h.time, g.remoteSt.trans h.remoteSt, fun d => (g.memRegs d).trans (h.memRegs d), g.nextId.trans h.nextId, Nat.le_trans h.serial g.serial, g.rings.trans h.rings, g.jobs.trans h.jobs, g.ctxs.trans h.ctxs, g.ended.trans h.ended, g.flights.trans h.flights, g.fsets.trans h.fsets, g.shards.trans h.shards, g.scheds.trans h.scheds, g.loans.trans h.loans, g.pools.trans h.pools, g.pfs.trans h.pfs, g.census.trans h.census, g.watch.trans h.watch, g.twatch.trans h.twatch, g.suspects.trans h.suspects, g.links.trans h.links, g.roots.trans h.roots, g.engines.trans h.engines, g.testing.trans h.testing, g.testQ.trans h.testQ, g.changes.trans h.changes, g.modEpoch.trans h.modEpoch, g.rounds.trans h.rounds, g.streams.trans h.streams, g.transit.trans h.transit, g.sessions.trans h.sessions, g.counts.trans h.counts, g.bufs.trans h.bufs, g.cxl.trans h.cxl, g.answers.trans h.answers, g.nextSes.trans h.nextSes, g.dump.trans h.dump, g.cfg.trans h.cfg, g.tap.trans h.tap, g.trust.trans h.trust, g.ids.trans h.ids, fun x hx => by
    obtain ⟨y, hy, e⟩ := List.mem_map.mp (g.same x hx)
    exact e ▸ h.same y hy⟩
/-- Other fields written. -/
theorem Beside.set {s x : State} (h : Beside s x) {mem' host' keys' poison' poundQ' locks' queueRe' objs' dies' ports' domain' sent' held' msix' sesQ' modQ' sics' cnts' traces' power' fresh'} :
    Beside s ⟨x.pending, x.time, mem', host', keys', poison', poundQ', x.remoteSt, x.memRegs, x.cmds, x.nextId, x.serial, x.rings, locks', x.jobs, x.ctxs, queueRe', x.ended, x.flights, x.fsets, x.shards, x.scheds, x.loans, x.pools, objs', x.pfs, x.census, x.watch, x.twatch, x.suspects, x.links, dies', x.roots, x.engines, x.testing, x.testQ, x.changes, x.modEpoch, ports', domain', x.rounds, x.streams, sent', held', x.transit, x.sessions, x.counts, x.bufs, x.cxl, msix', x.answers, x.nextSes, sesQ', modQ', sics', cnts', traces', x.dump, x.cfg, power', x.tap, x.trust, fresh'⟩ := ⟨h.pending, h.time, h.remoteSt, h.memRegs, h.nextId, h.serial, h.rings, h.jobs, h.ctxs, h.ended, h.flights, h.fsets, h.shards, h.scheds, h.loans, h.pools, h.pfs, h.census, h.watch, h.twatch, h.suspects, h.links, h.roots, h.engines, h.testing, h.testQ, h.changes, h.modEpoch, h.rounds, h.streams, h.transit, h.sessions, h.counts, h.bufs, h.cxl, h.answers, h.nextSes, h.dump, h.cfg, h.tap, h.trust, h.ids, h.same⟩
/-- Other fields written, and serials given out. -/
theorem Beside.setSerial {s x : State} (h : Beside s x) {n' mem' host' keys' poison' poundQ' locks' queueRe' objs' dies' ports' domain' sent' held' msix' sesQ' modQ' sics' cnts' traces' power' fresh'} (hn : x.serial ≤ n') :
    Beside s ⟨x.pending, x.time, mem', host', keys', poison', poundQ', x.remoteSt, x.memRegs, x.cmds, x.nextId, n', x.rings, locks', x.jobs, x.ctxs, queueRe', x.ended, x.flights, x.fsets, x.shards, x.scheds, x.loans, x.pools, objs', x.pfs, x.census, x.watch, x.twatch, x.suspects, x.links, dies', x.roots, x.engines, x.testing, x.testQ, x.changes, x.modEpoch, ports', domain', x.rounds, x.streams, sent', held', x.transit, x.sessions, x.counts, x.bufs, x.cxl, msix', x.answers, x.nextSes, sesQ', modQ', sics', cnts', traces', x.dump, x.cfg, power', x.tap, x.trust, fresh'⟩ := ⟨h.pending, h.time, h.remoteSt, h.memRegs, h.nextId, Nat.le_trans h.serial hn, h.rings, h.jobs, h.ctxs, h.ended, h.flights, h.fsets, h.shards, h.scheds, h.loans, h.pools, h.pfs, h.census, h.watch, h.twatch, h.suspects, h.links, h.roots, h.engines, h.testing, h.testQ, h.changes, h.modEpoch, h.rounds, h.streams, h.transit, h.sessions, h.counts, h.bufs, h.cxl, h.answers, h.nextSes, h.dump, h.cfg, h.tap, h.trust, h.ids, h.same⟩
theorem setMemRegs_beside0 {s : State} (a0 : State) (a1 : Nat) (a2 : MemRegs) (h0 : Beside s a0) (hk : a2.kept = (getMemRegs a0 a1).kept) : Beside s (setMemRegs a0 a1 a2) := by
  refine ⟨h0.pending, h0.time, h0.remoteSt, ?_, h0.nextId, h0.serial, h0.rings, h0.jobs, h0.ctxs, h0.ended, h0.flights, h0.fsets, h0.shards, h0.scheds, h0.loans, h0.pools, h0.pfs, h0.census, h0.watch, h0.twatch, h0.suspects, h0.links, h0.roots, h0.engines, h0.testing, h0.testQ, h0.changes, h0.modEpoch, h0.rounds, h0.streams, h0.transit, h0.sessions, h0.counts, h0.bufs, h0.cxl, h0.answers, h0.nextSes, h0.dump, h0.cfg, h0.tap, h0.trust, h0.ids, h0.same⟩
  intro e
  have : getMemRegs (setMemRegs a0 a1 a2) e = if a1 = e then a2 else getMemRegs a0 e := tget_tset _ a1 e a2
  rw [this]
  split
  · subst_vars; exact hk.trans (h0.memRegs _)
  · exact h0.memRegs e
theorem Beside.ite {s a b : State} {c : Prop} [Decidable c] (ha : Beside s a) (hb : Beside s b) : Beside s (if c then a else b) := by
  split
  · exact ha
  · exact hb
theorem Beside.foldl {α : Type} {s x : State} {g : State → α → State} (l : List α) (h : Beside s x) (hg : ∀ t a, Beside s t → Beside s (g t a)) :
    Beside s (l.foldl g x) := by
  induction l generalizing x with
  | nil => exact h
  | cons a l ih => exact ih (hg x a h)
theorem Beside.foldlP {α β : Type} {s : State} {x : State × β} {g : State × β → α → State × β} (l : List α) (h : Beside s x.1)
    (hg : ∀ t a, Beside s t.1 → Beside s (g t a).1) : Beside s (l.foldl g x).1 := by
  induction l generalizing x with
  | nil => exact h
  | cons a l ih => exact ih (hg x a h)
def BesideO (s : State) (o : Host.Outcome State Fault Refusal) : Prop := ∀ t, o = .next t → Beside s t
theorem BesideO.next {s t : State} (h : Beside s t) : BesideO s (.next t) := fun _ e => by cases e; exact h
theorem BesideO.stop {s : State} {o : Host.Outcome State Fault Refusal} (h : ∀ t, o ≠ .next t) : BesideO s o := fun t e => absurd e (h t)
theorem BesideO.ite {s : State} {a b : Host.Outcome State Fault Refusal} {c : Prop} [Decidable c] (ha : BesideO s a) (hb : BesideO s b) :
    BesideO s (if c then a else b) := by
  split
  · exact ha
  · exact hb
def BesideR (s : State) (r : StartRes) : Prop := match r with | .go t _ => Beside s t | _ => True
theorem BesideR.go {s t : State} {c : Cmd} (h : Beside s t) : BesideR s (.go t c) := h
theorem BesideR.ite {s : State} {a b : StartRes} {c : Prop} [Decidable c] (ha : BesideR s a) (hb : BesideR s b) : BesideR s (if c then a else b) := by
  split
  · exact ha
  · exact hb

theorem ids_put (l : List Cmd) (c : Cmd) : (l.map (fun x => if x.id = c.id then c else x)).map Cmd.id = l.map Cmd.id := by
  induction l with
  | nil => rfl
  | cons x l ih =>
    simp only [List.map_cons, ih]
    by_cases h : x.id = c.id
    · rw [if_pos h, h]
    · rw [if_neg h]

theorem endStall_self (s : State) (c : Cmd) : (endStall s c).2.self = c.self := by
  unfold endStall
  split <;> rfl

theorem putCmd_beside {s : State} (a0 : State) (a1 : Cmd) (hc : a1.self ∈ s.cmds.map Cmd.self) (h0 : Beside s a0) : Beside s (putCmd a0 a1) :=
  ⟨h0.pending, h0.time, h0.remoteSt, h0.memRegs, h0.nextId, h0.serial, h0.rings, h0.jobs, h0.ctxs, h0.ended, h0.flights, h0.fsets, h0.shards, h0.scheds, h0.loans, h0.pools, h0.pfs, h0.census, h0.watch, h0.twatch, h0.suspects, h0.links, h0.roots, h0.engines, h0.testing, h0.testQ, h0.changes, h0.modEpoch, h0.rounds, h0.streams, h0.transit, h0.sessions, h0.counts, h0.bufs, h0.cxl, h0.answers, h0.nextSes, h0.dump, h0.cfg, h0.tap, h0.trust, (ids_put a0.cmds a1).trans h0.ids, fun x hx => by
    obtain ⟨y, hy, rfl⟩ := List.mem_map.mp hx
    by_cases e : y.id = a1.id
    · rw [if_pos e]; exact hc
    · rw [if_neg e]; exact h0.same y hy⟩

theorem wrLocal_beside {s : State} (a0 : State) (a1 : ℕ) (a2 : ℕ) (a3 : List Byte) (h0 : Beside s a0) : Beside s (wrLocal a0 a1 a2 a3) := by
  delta wrLocal
  refine Beside.set ?_
  assumption

theorem syncPool_beside {s : State} (a0 : State) (a1 : ℕ) (h0 : Beside s a0) : Beside s (syncPool a0 a1) := by
  delta syncPool
  split
  · assumption
  · extract_lets v0 v1
    clear_value v0 v1
    apply wrLocal_beside
    apply wrLocal_beside
    assumption

theorem putObj_beside {s : State} (a0 : State) (a1 : ℕ) (a2 : ResObj) (h0 : Beside s a0) : Beside s (putObj a0 a1 a2) := by
  delta putObj
  extract_lets v0 v1 v2 v3 v4
  have k5 : Beside s v0 := by
    unfold v0
    refine Beside.set ?_
    assumption
  clear_value v0
  clear_value v1
  have k6 : Beside s v2 := by
    unfold v2
    apply wrLocal_beside
    assumption
  clear_value v2
  have k7 : Beside s v3 := by
    unfold v3
    apply wrLocal_beside
    assumption
  clear_value v3
  have k8 : Beside s v4 := by
    unfold v4
    apply wrLocal_beside
    assumption
  clear_value v4
  apply syncPool_beside
  apply syncPool_beside
  assumption

theorem setCnt_beside {s : State} (a0 : State) (a1 : ℕ) (a2 : CntBlock) (h0 : Beside s a0) : Beside s (setCnt a0 a1 a2) := by
  delta setCnt
  refine Beside.set ?_
  assumption

theorem setSic_beside {s : State} (a0 : State) (a1 : ℕ) (a2 : Sic) (h0 : Beside s a0) : Beside s (setSic a0 a1 a2) := by
  delta setSic
  refine Beside.set ?_
  assumption

theorem fire_beside {s : State} (a0 : State) (a1 : ℕ) (a2 : ℕ) (h0 : Beside s a0) : Beside s (fire a0 a1 a2) := by
  delta fire
  refine Beside.ite ?_ ?_
  · assumption
  · apply setSic_beside
    assumption

theorem count_beside {s : State} (a0 : State) (a1 : ℕ) (a2 : ℕ × ℕ) (a3 : ℕ) (a4 : ℕ) (a5 : Option (ℕ × ℕ)) (h0 : Beside s a0) : Beside s (count a0 a1 a2 a3 a4 a5) := by
  delta count
  refine Beside.ite ?_ ?_
  · assumption
  · extract_lets v0 v1 v2
    clear_value v0 v1
    have k3 : Beside s v2 := by
      unfold v2
      apply setCnt_beside
      assumption
    clear_value v2
    refine Beside.ite ?_ ?_
    · assumption
    · apply fire_beside
      assumption

theorem wrHost_beside {s : State} (a0 : State) (a1 : ℕ) (a2 : List Byte) (h0 : Beside s a0) : Beside s (wrHost a0 a1 a2) := by
  delta wrHost
  refine Beside.set ?_
  assumption

theorem setPort_beside {s : State} (a0 : State) (a1 : ℕ) (a2 : Port) (h0 : Beside s a0) : Beside s (setPort a0 a1 a2) := by
  delta setPort
  refine Beside.set ?_
  assumption

theorem setTrace_beside {s : State} (a0 : State) (a1 : ℕ) (a2 : Trace) (h0 : Beside s a0) : Beside s (setTrace a0 a1 a2) := by
  delta setTrace
  refine Beside.set ?_
  assumption

theorem trPut_beside {s : State} (a0 : State) (a1 : Trace) (a2 : ℕ) (a3 : List Byte) (h0 : Beside s a0) : Beside s (trPut a0 a1 a2 a3) := by
  delta trPut
  extract_lets v0
  clear_value v0
  split
  · assumption
  · refine Beside.ite ?_ ?_
    · apply wrLocal_beside
      assumption
    · assumption

theorem traceRec_beside {s : State} (a0 : State) (a1 : ℕ) (a2 : TrRec) (h0 : Beside s a0) : Beside s (traceRec a0 a1 a2) := by
  delta traceRec
  extract_lets v0 v1 v2 v3 v4 v5 v6 v7 v8 v9 v10 v11 v12 v13 v14 v15 v16 v17 v18 v19 v20 v21 v22
  clear_value v0 v1 v2 v3 v4 v5 v6
  have k23 : Beside s v7 := by
    unfold v7
    apply trPut_beside
    assumption
  clear_value v7
  clear_value v8 v9 v10 v11 v12 v13 v14 v15
  have k24 : Beside s v16.1 := by
    unfold v16
    split
    · dsimp only
      apply fire_beside
      assumption
    · split
      · dsimp only
        apply trPut_beside
        assumption
      · dsimp only
        assumption
  clear_value v16
  have k25 : Beside s v17 := by
    unfold v17
    assumption
  clear_value v17
  clear_value v18 v19 v20 v21
  have k26 : Beside s v22 := by
    unfold v22
    apply count_beside
    assumption
  clear_value v22
  refine Beside.ite ?_ ?_
  · assumption
  · refine Beside.ite ?_ ?_
    · apply fire_beside
      apply setTrace_beside
      assumption
    · apply setTrace_beside
      assumption

theorem transmit_beside {s : State} (a0 : State) (a1 : ℕ) (a2 : Msg) (h0 : Beside s a0) : Beside s (transmit a0 a1 a2) := by
  delta transmit
  extract_lets v0 v1 v2 v3
  have k4 : Beside s v0 := by
    unfold v0
    apply traceRec_beside
    assumption
  clear_value v0
  have k5 : Beside s v1 := by
    unfold v1
    refine Beside.ite ?_ ?_
    · apply count_beside
      assumption
    · assumption
  clear_value v1
  clear_value v2 v3
  apply setPort_beside
  refine Beside.set ?_
  assumption

theorem offer_beside {s : State} (a0 : State) (a1 : Msg) (h0 : Beside s a0) : Beside s (offer a0 a1) := by
  delta offer
  refine Beside.ite ?_ ?_
  · refine Beside.set ?_
    assumption
  · split
    · apply transmit_beside
      assumption
    · refine Beside.set ?_
      assumption

theorem countPaced_beside {s : State} (a0 : State) (a1 : Msg) (h0 : Beside s a0) : Beside s (countPaced a0 a1) := by
  delta countPaced
  split
  · refine Beside.ite ?_ ?_
    · apply setPort_beside
      assumption
    · assumption
  · assumption

theorem send_beside {s : State} (a0 : State) (a1 : Msg) (h0 : Beside s a0) : Beside s (send a0 a1) := by
  delta send
  refine Beside.ite ?_ ?_
  · assumption
  · extract_lets v0 v1 v2 v3 v4
    clear_value v0 v1 v2 v3
    have k5 : Beside s v4 := by
      unfold v4
      refine Beside.set ?_
      assumption
    clear_value v4
    apply offer_beside
    apply countPaced_beside
    assumption

theorem sendWb_beside {s : State} (a0 : State) (a1 : ResObj) (a2 : ℕ) (a3 : ℕ) (a4 : ℕ) (a5 : ℕ) (a6 : List ℕ) (a7 : List Byte) (h0 : Beside s a0) : Beside s (sendWb a0 a1 a2 a3 a4 a5 a6 a7) := by
  delta sendWb
  apply send_beside
  assumption

theorem stageWb_beside {s : State} (a0 : State) (a1 : ℕ) (a2 : ℕ) (a3 : ℕ) (h0 : Beside s a0) : Beside s (stageWb a0 a1 a2 a3) := by
  delta stageWb
  split
  · assumption
  · refine Beside.ite ?_ ?_
    · extract_lets v0 v1
      have k2 : Beside s v0 := by
        unfold v0
        split
        · refine Beside.foldl _ ?_ (fun t3 b3 h3 => ?_)
          · assumption
          · apply sendWb_beside
            assumption
        · assumption
      clear_value v0
      clear_value v1
      apply putObj_beside
      assumption
    · apply putObj_beside
      assumption

theorem fireMsix_beside {s : State} (a0 : State) (a1 : ℕ) (h0 : Beside s a0) : Beside s (fireMsix a0 a1) := by
  delta fireMsix
  refine Beside.ite ?_ ?_
  · refine Beside.set ?_
    assumption
  · assumption

theorem deliver_beside {s : State} (a0 : State) (a1 : Event) (a2 : Option ℕ) (h0 : Beside s a0) : Beside s (deliver a0 a1 a2) := by
  delta deliver
  extract_lets v0 v1 v2 v3 v4 v5
  clear_value v0
  have k6 : Beside s v1.1 := by
    unfold v1
    split
    · dsimp only
      assumption
    · extract_lets v7
      clear_value v7
      dsimp only
      refine Beside.set ?_
      assumption
  clear_value v1
  clear_value v2 v3
  have k8 : Beside s v4 := by
    unfold v4
    assumption
  clear_value v4
  have k9 : Beside s v5.1 := by
    unfold v5
    split
    · dsimp only
      refine Beside.set ?_
      assumption
    · assumption
  clear_value v5
  refine Beside.ite ?_ ?_
  · apply fireMsix_beside
    assumption
  · assumption

theorem setDie_beside {s : State} (a0 : State) (a1 : ℕ) (a2 : Die) (h0 : Beside s a0) : Beside s (setDie a0 a1 a2) := by
  delta setDie
  refine Beside.set ?_
  assumption

theorem raiseOp_beside {s : State} (a0 : State) (a1 : Option (ℕ × ℕ)) (a2 : ℕ) (a3 : ℕ) (a4 : ℕ) (a5 : Bool) (a6 : Option ℕ) (a7 : ℕ) (a8 : ℕ) (a9 : ℕ) (a10 : ℕ) (a11 : ℕ) (a12 : ℕ) (h0 : Beside s a0) : Beside s (raiseOp a0 a1 a2 a3 a4 a5 a6 a7 a8 a9 a10 a11 a12) := by
  delta raiseOp
  extract_lets v0 v1 v2 v3 v4 v5 v6 v7
  clear_value v0 v1 v2
  have k8 : Beside s v3 := by
    unfold v3
    apply setDie_beside
    assumption
  clear_value v3
  have k9 : Beside s v4 := by
    unfold v4
    apply count_beside
    assumption
  clear_value v4
  have k10 : Beside s v5 := by
    unfold v5
    apply traceRec_beside
    assumption
  clear_value v5
  have k11 : Beside s v6 := by
    unfold v6
    apply fire_beside
    assumption
  clear_value v6
  clear_value v7
  refine Beside.ite ?_ ?_
  · refine Beside.set ?_
    assumption
  · apply deliver_beside
    assumption

theorem raiseFor_beside {s : State} (a0 : State) (a1 : ℕ) (a2 : ℕ) (a3 : Bool) (a4 : Option ℕ) (a5 : ℕ) (a6 : ℕ) (a7 : ℕ) (a8 : ℕ) (a9 : ℕ) (a10 : ℕ) (h0 : Beside s a0) : Beside s (raiseFor a0 a1 a2 a3 a4 a5 a6 a7 a8 a9 a10) := by
  delta raiseFor
  apply raiseOp_beside
  assumption

theorem raise_beside {s : State} (a0 : State) (a1 : ℕ) (a2 : ℕ) (a3 : ℕ) (a4 : ℕ) (a5 : ℕ) (a6 : ℕ) (a7 : ℕ) (a8 : ℕ) (h0 : Beside s a0) : Beside s (raise a0 a1 a2 a3 a4 a5 a6 a7 a8) := by
  delta raise
  apply raiseFor_beside
  assumption

theorem raiseMod_beside {s : State} (a0 : State) (a1 : ℕ) (a2 : ℕ) (a3 : ℕ) (a4 : ℕ) (a5 : ℕ) (h0 : Beside s a0) : Beside s (raiseMod a0 a1 a2 a3 a4 a5) := by
  delta raiseMod
  apply raise_beside
  assumption

theorem markRetired_beside {s : State} (a0 : State) (a1 : ℕ) (h0 : Beside s a0) : Beside s (markRetired a0 a1) := by
  delta markRetired
  extract_lets v0 v1 v2 v3
  refine Beside.ite ?_ ?_
  · assumption
  · apply raiseMod_beside
    refine setMemRegs_beside0 _ _ _ ?_ rfl
    assumption

theorem memError_beside {s : State} (a0 : State) (a1 a2 a3 a4 a5 : Nat) (a6 : Option Nat) (a7 : Nat) (h0 : Beside s a0) : Beside s (memError a0 a1 a2 a3 a4 a5 a6 a7) := by
  delta memError
  extract_lets m m1 s1 s2 s3
  have e : m1.kept = m.kept := by
    unfold m1
    split
    · rfl
    · split <;> rfl
  have k1 : Beside s s1 := setMemRegs_beside0 _ _ _ h0 e
  have k2 : Beside s s2 := Beside.ite (fire_beside _ _ _ k1) k1
  have k3 : Beside s s3 := raiseFor_beside _ _ _ _ _ _ _ _ _ _ _ k2
  exact Beside.ite (markRetired_beside _ _ k3) k3

theorem clearCopy_beside {s : State} (a0 : State) (a1 : ℕ) (a2 : ℕ) (h0 : Beside s a0) : Beside s (clearCopy a0 a1 a2) := by
  delta clearCopy
  split
  · assumption
  · apply putObj_beside
    apply count_beside
    assumption

theorem removeCopy_beside {s : State} (a0 : State) (a1 : ℕ) (a2 : ℕ) (h0 : Beside s a0) : Beside s (removeCopy a0 a1 a2) := by
  delta removeCopy
  split
  · assumption
  · extract_lets v0 v1
    clear_value v0
    have k2 : Beside s v1 := by
      unfold v1
      split
      · apply memError_beside
        assumption
      · assumption
    clear_value v1
    refine Beside.ite ?_ ?_
    · assumption
    · refine Beside.ite ?_ ?_
      · apply clearCopy_beside
        assumption
      · split
        · apply putObj_beside
          assumption
        · apply stageWb_beside
          refine Beside.setSerial ?_ (Nat.le_succ _)
          assumption

theorem unpinUse_beside {s : State} (a0 : State) (a1 : ℕ) (a2 : ℕ) (h0 : Beside s a0) : Beside s (unpinUse a0 a1 a2) := by
  delta unpinUse
  split
  · assumption
  · extract_lets v0 v1 v2
    clear_value v0 v1
    have k3 : Beside s v2 := by
      unfold v2
      apply putObj_beside
      assumption
    clear_value v2
    refine Beside.ite ?_ ?_
    · apply removeCopy_beside
      assumption
    · assumption

theorem dropPromotion_beside {s : State} (a0 : State) (a1 : ℕ) (a2 : ℕ) (h0 : Beside s a0) : Beside s (dropPromotion a0 a1 a2) := by
  delta dropPromotion
  split
  · assumption
  · refine Beside.ite ?_ ?_
    · apply putObj_beside
      assumption
    · assumption

theorem sendCmd_beside {s : State} (a0 : State) (a1 : Cmd) (a2 : ℕ) (a3 : ℕ) (a4 : ℕ) (a5 : List ℕ) (a6 : List Byte) (h0 : Beside s a0) : Beside s (sendCmd a0 a1 a2 a3 a4 a5 a6) := by
  delta sendCmd
  apply send_beside
  assumption

theorem dropQueued_beside {s : State} (a0 : State) (a1 : Cmd) (h0 : Beside s a0) : Beside s (dropQueued a0 a1) := by
  delta dropQueued
  refine Beside.set ?_
  assumption

theorem releaseRun_beside {s : State} (a0 : State) (a1 : Cmd) (h0 : Beside s a0) : Beside s (releaseRun a0 a1) := by
  delta releaseRun
  extract_lets v0 v1 v2
  have k3 : Beside s v0 := by
    unfold v0
    refine Beside.ite ?_ ?_
    · apply dropQueued_beside
      assumption
    · assumption
  clear_value v0
  have k4 : Beside s v1 := by
    unfold v1
    refine Beside.foldl _ ?_ (fun t5 b5 h5 => ?_)
    · assumption
    · apply unpinUse_beside
      assumption
  clear_value v1
  have k6 : Beside s v2 := by
    unfold v2
    refine Beside.ite ?_ ?_
    · apply dropPromotion_beside
      assumption
    · assumption
  clear_value v2
  refine Beside.foldl _ ?_ (fun t7 b7 h7 => ?_)
  · assumption
  · apply sendCmd_beside
    assumption

theorem jobCount_beside {s : State} (a0 : State) (a1 : ℕ) (a2 : ℕ) (a3 : ℕ) (a4 : ℕ) (a5 : ℕ) (h0 : Beside s a0) : Beside s (jobCount a0 a1 a2 a3 a4 a5) := by
  delta jobCount
  split
  · assumption
  · extract_lets v0 v1 v2 v3
    clear_value v0 v1 v2 v3
    refine Beside.ite ?_ ?_
    · refine Beside.ite ?_ ?_
      · apply wrHost_beside
        assumption
      · assumption
    · apply wrLocal_beside
      assumption

theorem endStall_beside {s : State} (a0 : State) (a1 : Cmd) (h0 : Beside s a0) : Beside s (endStall a0 a1).1 := by
  delta endStall
  split
  · dsimp only
    assumption
  · extract_lets v0 v1 v2 v3 v4
    clear_value v0
    have k5 : Beside s v1 := by
      unfold v1
      apply jobCount_beside
      assumption
    clear_value v1
    have k6 : Beside s v2 := by
      unfold v2
      refine Beside.ite ?_ ?_
      · assumption
      · apply jobCount_beside
        assumption
    clear_value v2
    clear_value v3
    have k7 : Beside s v4 := by
      unfold v4
      apply traceRec_beside
      assumption
    clear_value v4
    dsimp only
    assumption

theorem engineDone_beside {s : State} (a0 : State) (a1 : Cmd) (h0 : Beside s a0) : Beside s (engineDone a0 a1) := by
  delta engineDone
  split
  · refine Beside.ite ?_ ?_
    · apply fire_beside
      assumption
    · refine Beside.ite ?_ ?_
      · apply fire_beside
        assumption
      · refine Beside.ite ?_ ?_
        · apply fire_beside
          assumption
        · assumption
  · assumption

theorem seqAttn_beside {s : State} (a0 : State) (a1 : Cmd) (h0 : Beside s a0) : Beside s (seqAttn a0 a1) := by
  delta seqAttn
  split
  · refine Beside.ite ?_ ?_
    · apply fire_beside
      assumption
    · assumption
  · assumption

theorem drift_beside {s : State} (a0 : State) (a1 : Option (ℕ × ℕ)) (h0 : Beside s a0) : Beside s (drift a0 a1) := by
  delta drift
  refine Beside.foldl _ ?_ (fun t0 b0 h0 => ?_)
  · assumption
  · refine Beside.foldl _ ?_ (fun t1 b1 h1 => ?_)
    · assumption
    · extract_lets v2
      clear_value v2
      refine Beside.ite ?_ ?_
      · apply count_beside
        refine Beside.set ?_
        assumption
      · assumption

theorem setLock_beside {s : State} (a0 : State) (a1 : ℕ) (a2 : Lock) (h0 : Beside s a0) : Beside s (setLock a0 a1 a2) := by
  delta setLock
  refine Beside.set ?_
  assumption

theorem grantClaim_beside {s : State} (a0 : State) (a1 : Nat) (a2 : Nat) (a3 : Nat) (h0 : Beside s a0) : Beside s (grantClaim a0 a1 a2 a3) := by
  delta grantClaim
  split
  · assumption
  · rename_i c hc
    have hs : c.self ∈ s.cmds.map Cmd.self := h0.same c (List.mem_of_find?_eq_some hc)
    extract_lets v0 v1 v2 v3 v4
    clear_value v0
    have k5 : Beside s v1 := by
      unfold v1
      apply setLock_beside
      assumption
    clear_value v1
    have k6 : Beside s v2.1 := by
      unfold v2
      apply endStall_beside
      assumption
    have e2 : v3.self ∈ s.cmds.map Cmd.self := (endStall_self v1 c).symm ▸ hs
    clear_value v2
    clear_value v3
    have k7 : Beside s v4 := by
      unfold v4
      exact putCmd_beside _ _ e2 k6
    clear_value v4
    apply traceRec_beside
    assumption

theorem evalClaims_beside {s : State} (a0 : Nat) (a1 : Nat) (a2 : State) (h0 : Beside s a2) : Beside s (evalClaims a0 a1 a2) := by
  induction a1 generalizing a2 with
  | zero => exact h0
  | succ n ih =>
    rw [evalClaims]
    split
    · exact h0
    · split
      · exact ih _ (setLock_beside _ _ _ h0)
      · split
        · exact ih _ (grantClaim_beside _ _ _ _ h0)
        · exact h0

theorem reclaim_beside {s : State} (a0 : State) (a1 : ℕ) (h0 : Beside s a0) : Beside s (reclaim a0 a1) := by
  delta reclaim
  apply evalClaims_beside
  assumption

theorem settleSetters_beside {s : State} (a0 : State) (a1 : ℕ) (h0 : Beside s a0) : Beside s (settleSetters a0 a1) := by
  delta settleSetters
  extract_lets v0
  clear_value v0
  refine Beside.ite ?_ ?_
  · apply reclaim_beside
    apply setLock_beside
    assumption
  · assumption

theorem leaveQueue_beside {s : State} (a0 : State) (a1 : ℕ) (a2 : ℕ) (h0 : Beside s a0) : Beside s (leaveQueue a0 a1 a2) := by
  delta leaveQueue
  extract_lets v0
  clear_value v0
  apply setLock_beside
  assumption

theorem returnClaim_beside {s : State} (a0 : State) (a1 : ℕ) (a2 : ℕ) (h0 : Beside s a0) : Beside s (returnClaim a0 a1 a2) := by
  delta returnClaim
  extract_lets v0
  clear_value v0
  apply setLock_beside
  assumption

theorem addCount_beside {s : State} (a0 : State) (a1 : ℕ) (a2 : ℕ) (a3 : Option Cmd) (h0 : Beside s a0) : Beside s (addCount a0 a1 a2 a3) := by
  delta addCount
  extract_lets v0 v1 v2 v3
  clear_value v0
  have k4 : Beside s v1 := by
    unfold v1
    apply setLock_beside
    assumption
  clear_value v1
  have k5 : Beside s v2 := by
    unfold v2
    apply count_beside
    assumption
  clear_value v2
  have k6 : Beside s v3 := by
    unfold v3
    apply traceRec_beside
    assumption
  clear_value v3
  refine Beside.ite ?_ ?_
  · apply raise_beside
    assumption
  · assumption

theorem signalLock_beside {s : State} (a0 : State) (a1 : ℕ) (a2 : ℕ) (a3 : ℕ) (a4 : ℕ) (a5 : Option Cmd) (h0 : Beside s a0) : Beside s (signalLock a0 a1 a2 a3 a4 a5) := by
  delta signalLock
  refine Beside.ite ?_ ?_
  · apply reclaim_beside
    apply addCount_beside
    assumption
  · apply raise_beside
    assumption

theorem markDirty_beside {s : State} (a0 : State) (a1 : List SWrite) (h0 : Beside s a0) : Beside s (markDirty a0 a1) := by
  delta markDirty
  refine Beside.foldl _ ?_ (fun t0 b0 h0 => ?_)
  · assumption
  · refine Beside.foldl _ ?_ (fun t1 b1 h1 => ?_)
    · assumption
    · split
      · assumption
      · extract_lets v2
        clear_value v2
        refine Beside.ite ?_ ?_
        · apply putObj_beside
          assumption
        · assumption

theorem publishWrites_beside {s : State} (a0 : State) (a1 : ℕ) (a2 : List SWrite) (h0 : Beside s a0) : Beside s (publishWrites a0 a1 a2) := by
  delta publishWrites
  extract_lets v0
  have k1 : Beside s v0 := by
    unfold v0
    refine Beside.foldl _ ?_ (fun t2 b2 h2 => ?_)
    · assumption
    · refine Beside.ite ?_ ?_
      · apply wrLocal_beside
        assumption
      · refine Beside.ite ?_ ?_
        · apply wrHost_beside
          assumption
        · assumption
  clear_value v0
  refine Beside.set ?_
  assumption

theorem poundPublish_beside {s : State} (a0 : State) (a1 : ℕ) (a2 : List SWrite) (h0 : Beside s a0) : Beside s (poundPublish a0 a1 a2) := by
  delta poundPublish
  refine Beside.foldl _ ?_ (fun t0 b0 h0 => ?_)
  · assumption
  · refine Beside.ite ?_ ?_
    · refine Beside.foldl _ ?_ (fun t1 b1 h1 => ?_)
      · assumption
      · extract_lets v2
        clear_value v2
        refine Beside.ite ?_ ?_
        · assumption
        · refine Beside.set ?_
          assumption
    · assumption

theorem endHold_beside {s : State} (a0 : State) (a1 : ℕ × ℕ) (h0 : Beside s a0) : Beside s (endHold a0 a1) := by
  delta endHold
  split
  · assumption
  · apply unpinUse_beside
    assumption

theorem consume_beside {s : State} (a0 : State) (a1 : Cmd) (h0 : Beside s a0) : Beside s (consume a0 a1) := by
  delta consume
  extract_lets v0 v1 v2 v3 v4 v5 v6
  clear_value v0 v1 v2 v3
  have k7 : Beside s v4 := by
    unfold v4
    apply setLock_beside
    assumption
  clear_value v4
  have k8 : Beside s v5 := by
    unfold v5
    apply count_beside
    assumption
  clear_value v5
  have k9 : Beside s v6 := by
    unfold v6
    apply traceRec_beside
    assumption
  clear_value v6
  refine Beside.foldl _ ?_ (fun t10 b10 h10 => ?_)
  · assumption
  · apply endHold_beside
    assumption

theorem killWb_beside {s : State} (a0 : State) (a1 : ℕ) (a2 : ℕ) (h0 : Beside s a0) : Beside s (killWb a0 a1 a2) := by
  delta killWb
  split
  · assumption
  · split
    · assumption
    · extract_lets v0 v1
      have k2 : Beside s v0 := by
        unfold v0
        split
        · refine Beside.ite ?_ ?_
          · apply sendWb_beside
            assumption
          · assumption
        · assumption
      clear_value v0
      clear_value v1
      apply putObj_beside
      assumption

theorem moduleWrite_beside {s : State} (a0 : State) (a1 : ℕ) (a2 : ℕ) (a3 : GAddr) (a4 : List Byte) (h0 : Beside s a0) : Beside s (moduleWrite a0 a1 a2 a3 a4) := by
  delta moduleWrite
  extract_lets v0
  clear_value v0
  split
  · refine Beside.ite ?_ ?_
    · assumption
    · extract_lets v1 v2 v3
      have k4 : Beside s v1 := by
        unfold v1
        split
        · apply killWb_beside
          assumption
        · assumption
      clear_value v1
      clear_value v2
      have k5 : Beside s v3 := by
        unfold v3
        refine Beside.ite ?_ ?_
        · refine Beside.ite ?_ ?_
          · apply wrHost_beside
            assumption
          · assumption
        · refine Beside.ite ?_ ?_
          · apply wrLocal_beside
            assumption
          · assumption
      clear_value v3
      apply markDirty_beside
      assumption
  · refine Beside.ite ?_ ?_
    · refine Beside.ite ?_ ?_
      · apply wrHost_beside
        assumption
      · assumption
    · refine Beside.ite ?_ ?_
      · apply wrLocal_beside
        assumption
      · assumption

theorem ringEntry_beside {s : State} (a0 : State) (a1 : ℕ) (a2 : ℕ) (a3 : ℕ) (a4 : ℕ) (a5 : List Byte) (h0 : Beside s a0) : Beside s (ringEntry a0 a1 a2 a3 a4 a5) := by
  delta ringEntry
  extract_lets v0 v1 v2 v3 v4
  clear_value v0 v1 v2 v3
  have k5 : Beside s v4 := by
    unfold v4
    apply moduleWrite_beside
    assumption
  clear_value v4
  refine Beside.ite ?_ ?_
  · apply moduleWrite_beside
    assumption
  · apply moduleWrite_beside
    assumption

theorem writeEntries_beside {s : State} (a0 : State) (a1 : Cmd) (h0 : Beside s a0) : Beside s (writeEntries a0 a1) := by
  delta writeEntries
  extract_lets v0
  have k1 : Beside s v0 := by
    unfold v0
    split
    · refine Beside.ite ?_ ?_
      · refine Beside.foldl _ ?_ (fun t2 b2 h2 => ?_)
        · assumption
        · refine Beside.ite ?_ ?_
          · assumption
          · apply ringEntry_beside
            assumption
      · assumption
    · assumption
  clear_value v0
  refine Beside.foldl _ ?_ (fun t3 b3 h3 => ?_)
  · assumption
  · refine Beside.foldl _ ?_ (fun t4 b4 h4 => ?_)
    · assumption
    · refine Beside.ite ?_ ?_
      · extract_lets v5
        clear_value v5
        apply ringEntry_beside
        assumption
      · assumption

theorem countWork_beside {s : State} (a0 : State) (a1 : Cmd) (h0 : Beside s a0) : Beside s (countWork a0 a1) := by
  delta countWork
  extract_lets v0 v1 v2 v3 v4
  clear_value v0 v1 v2 v3 v4
  split
  · assumption
  · refine Beside.ite ?_ ?_
    · refine Beside.ite ?_ ?_
      · apply count_beside
        assumption
      · assumption
    · refine Beside.ite ?_ ?_
      · refine Beside.foldl _ ?_ (fun t5 b5 h5 => ?_)
        · assumption
        · apply count_beside
          assumption
      · refine Beside.ite ?_ ?_
        · refine Beside.foldl _ ?_ (fun t6 b6 h6 => ?_)
          · assumption
          · apply count_beside
            assumption
        · refine Beside.ite ?_ ?_
          · refine Beside.foldl _ ?_ (fun t7 b7 h7 => ?_)
            · assumption
            · extract_lets v8
              clear_value v8
              apply count_beside
              apply count_beside
              assumption
          · refine Beside.ite ?_ ?_
            · apply count_beside
              assumption
            · assumption

theorem pinUse_beside {s : State} (a0 : State) (a1 : ℕ) (a2 : ℕ) (h0 : Beside s a0) : Beside s (pinUse a0 a1 a2) := by
  delta pinUse
  split
  · assumption
  · apply putObj_beside
    assumption

theorem takeCopy_beside {s : State} (a0 : State) (a1 : ℕ) (a2 : ℕ) (h0 : Beside s a0) : Beside s (takeCopy a0 a1 a2) := by
  delta takeCopy
  apply pinUse_beside
  apply killWb_beside
  assumption

theorem holdPromotion_beside {s : State} (a0 : State) (a1 : ℕ) (a2 : ℕ) (h0 : Beside s a0) : Beside s (holdPromotion a0 a1 a2) := by
  delta holdPromotion
  extract_lets v0
  have k1 : Beside s v0 := by
    unfold v0
    apply takeCopy_beside
    assumption
  clear_value v0
  split
  · assumption
  · apply putObj_beside
    assumption

theorem moveCopy_beside {s : State} (a0 : State) (a1 : ℕ) (a2 : ℕ) (a3 : ℕ) (h0 : Beside s a0) : Beside s (moveCopy a0 a1 a2 a3) := by
  delta moveCopy
  split
  · assumption
  · extract_lets v0 v1 v2 v3
    clear_value v0 v1
    have k4 : Beside s v2 := by
      unfold v2
      apply wrLocal_beside
      assumption
    clear_value v2
    clear_value v3
    apply putObj_beside
    refine Beside.set ?_
    assumption

theorem packFrom_beside {s : State} (a0 : Nat) (a1 : List (Nat × Nat × Nat × Nat)) (a2 : State) (h0 : Beside s a2) : Beside s (packFrom a0 a1 a2) := by
  induction a1 generalizing a0 a2 with
  | nil => exact h0
  | cons x l ih => exact Beside.ite (ih _ _ (moveCopy_beside _ _ _ _ h0)) (ih _ _ h0)

theorem packPool_beside {s : State} (a0 : State) (a1 : ℕ) (h0 : Beside s a0) : Beside s (packPool a0 a1) := by
  delta packPool
  split
  · assumption
  · apply packFrom_beside
    assumption

theorem makeSpace_beside {s : State} (a0 : Nat) (a1 : ResObj) (a2 : Nat) (a3 : State) (h0 : Beside s a3) : Beside s (makeSpace a0 a1 a2 a3).1 := by
  induction a2 generalizing a3 with
  | zero => exact h0
  | succ n ih =>
    rw [makeSpace]
    split
    · exact h0
    · split
      all_goals
        extract_lets t
        have k : Beside s t := by first | exact packPool_beside _ _ h0 | exact h0
        clear_value t
        split
        · exact k
        · split
          · exact k
          · split
            · exact k
            · exact ih _ (removeCopy_beside _ _ _ k)

theorem placePromotion_beside {s : State} (a0 : State) (a1 : ℕ) (a2 : ℕ) (a3 : ℕ) (h0 : Beside s a0) : Beside s (placePromotion a0 a1 a2 a3) := by
  delta placePromotion
  split
  · assumption
  · refine Beside.ite ?_ ?_
    · assumption
    · extract_lets v0
      have k1 : Beside s v0.1 := by
        unfold v0
        apply makeSpace_beside
        assumption
      clear_value v0
      split
      · apply putObj_beside
        assumption
      · assumption

theorem startPromotion_beside {s : State} (a0 : State) (a1 : ℕ) (a2 : ℕ) (a3 : ℕ) (h0 : Beside s a0) : Beside s (startPromotion a0 a1 a2 a3) := by
  delta startPromotion
  split
  · assumption
  · extract_lets v0
    clear_value v0
    apply placePromotion_beside
    apply putObj_beside
    assumption

theorem endPromotion_beside {s : State} (a0 : State) (a1 : ℕ) (a2 : ℕ) (a3 : List Byte) (h0 : Beside s a0) : Beside s (endPromotion a0 a1 a2 a3) := by
  delta endPromotion
  split
  · assumption
  · extract_lets v0 v1 v2
    clear_value v0
    have k3 : Beside s v1 := by
      unfold v1
      apply poundPublish_beside
      apply wrLocal_beside
      assumption
    clear_value v1
    clear_value v2
    apply unpinUse_beside
    apply putObj_beside
    assumption

theorem promoSignal_beside {s : State} (a0 : State) (a1 : ℕ) (h0 : Beside s a0) : Beside s (promoSignal a0 a1) := by
  delta promoSignal
  split
  · apply signalLock_beside
    assumption
  · assumption

theorem commitWb_beside {s : State} (a0 : State) (a1 : ℕ) (a2 : ℕ) (h0 : Beside s a0) : Beside s (commitWb a0 a1 a2) := by
  delta commitWb
  split
  · assumption
  · extract_lets v0 v1 v2 v3 v4 v5 v6
    clear_value v0
    have k7 : Beside s v1 := by
      unfold v1
      apply count_beside
      assumption
    clear_value v1
    have k8 : Beside s v2 := by
      unfold v2
      apply poundPublish_beside
      apply publishWrites_beside
      assumption
    clear_value v2
    have k9 : Beside s v3 := by
      unfold v3
      split
      · apply sendWb_beside
        assumption
      · assumption
    clear_value v3
    clear_value v4
    have k10 : Beside s v5 := by
      unfold v5
      refine Beside.ite ?_ ?_
      · apply putObj_beside
        assumption
      · assumption
    clear_value v5
    have k11 : Beside s v6 := by
      unfold v6
      apply clearCopy_beside
      assumption
    clear_value v6
    split
    · assumption
    · refine Beside.ite ?_ ?_
      · apply removeCopy_beside
        assumption
      · assumption

theorem pushWb_beside {s : State} (a0 : State) (a1 : ℕ) (a2 : ℕ) (h0 : Beside s a0) : Beside s (pushWb a0 a1 a2) := by
  delta pushWb
  split
  · assumption
  · split
    · assumption
    · refine Beside.ite ?_ ?_
      · apply killWb_beside
        assumption
      · refine Beside.ite ?_ ?_
        · apply stageWb_beside
          assumption
        · refine Beside.ite ?_ ?_
          · assumption
          · apply commitWb_beside
            assumption

theorem pushWbs_beside {s : State} (a0 : State) (a1 : List ℕ) (h0 : Beside s a0) : Beside s (pushWbs a0 a1) := by
  delta pushWbs
  refine Beside.foldl _ ?_ (fun t0 b0 h0 => ?_)
  · assumption
  · apply pushWb_beside
    apply pushWb_beside
    assumption

theorem seekPlace_beside {s : State} (a0 : State) (a1 : ℕ) (a2 : ℕ) (a3 : ℕ) (h0 : Beside s a0) : Beside s (seekPlace a0 a1 a2 a3) := by
  delta seekPlace
  split
  · assumption
  · apply placePromotion_beside
    apply pushWbs_beside
    assumption

theorem stampObj_beside {s : State} (a0 : State) (a1 : ℕ) (h0 : Beside s a0) : Beside s (stampObj a0 a1) := by
  delta stampObj
  split
  · assumption
  · apply putObj_beside
    assumption

end Sys2Proof.Machine
end

