-- ==== Sys2Proof/Laws/Bits.lean ====
section
/-! SUPPORT. Laws of the bit fields: a field reads what was put into it, and every other bit stays. -/

namespace Sys2Proof.Machine

theorem bit_eq_testBit (x i : Nat) : bit x i = x.testBit i := by
  unfold bit
  rw [Nat.testBit_eq_decide_div_mod_eq, Nat.shiftRight_eq_div_pow]

/-- A number with a field replaced, as the part above the field, the field, and the part below it. -/
theorem setFld_eq (x lo w v : Nat) : setFld x lo w v = 2 ^ lo * (2 ^ w * (x / 2 ^ lo / 2 ^ w) + v % 2 ^ w) + x % 2 ^ lo := by
  unfold setFld fld
  rw [Nat.shiftRight_eq_div_pow, Nat.shiftLeft_eq, Nat.shiftLeft_eq]
  have h1 := Nat.div_add_mod x (2 ^ lo)
  have h2 := Nat.div_add_mod (x / 2 ^ lo) (2 ^ w)
  have h3 : x = 2 ^ lo * (2 ^ w * (x / 2 ^ lo / 2 ^ w)) + (x / 2 ^ lo % 2 ^ w) * 2 ^ lo + x % 2 ^ lo := by
    conv_lhs => rw [← h1, ← h2]
    rw [Nat.mul_add, Nat.mul_comm (x / 2 ^ lo % 2 ^ w)]
  have h4 : x - x / 2 ^ lo % 2 ^ w * 2 ^ lo = 2 ^ lo * (2 ^ w * (x / 2 ^ lo / 2 ^ w)) + x % 2 ^ lo := by omega
  rw [h4, Nat.mul_add, Nat.mul_comm (v % 2 ^ w)]
  omega

/-- A bit of a number with a field replaced. -/
theorem bit_setFld (x lo w v i : Nat) : bit (setFld x lo w v) i = if i < lo then bit x i else if i < lo + w then bit v (i - lo) else bit x i := by
  rw [setFld_eq]
  simp only [bit_eq_testBit]
  rw [Nat.testBit_two_pow_mul_add _ (Nat.mod_lt _ (Nat.two_pow_pos lo))]
  split
  · rename_i h
    rw [Nat.testBit_mod_two_pow]; simp [h]
  · rename_i h
    rw [Nat.testBit_two_pow_mul_add _ (Nat.mod_lt _ (Nat.two_pow_pos w))]
    by_cases h2 : i < lo + w
    · rw [if_pos (by omega), if_pos h2, Nat.testBit_mod_two_pow]
      simp [show i - lo < w by omega]
    · rw [if_neg (by omega), if_neg h2, Nat.div_div_eq_div_mul, ← Nat.pow_add, Nat.testBit_div_two_pow]
      congr 1; omega

/-- The field that was replaced. -/
theorem fld_setFld (x lo w v : Nat) : fld (setFld x lo w v) lo w = v % 2 ^ w := by
  unfold fld
  rw [setFld_eq, Nat.shiftRight_eq_div_pow, Nat.mul_add_div (Nat.two_pow_pos lo), Nat.div_eq_of_lt (Nat.mod_lt _ (Nat.two_pow_pos lo)),
    Nat.add_zero, Nat.mul_add_mod, Nat.mod_mod]

/-- A bit of a number with a bit replaced. -/
theorem bit_setBit (x i j : Nat) (b : Bool) : bit (setBit x i b) j = if i = j then b else bit x j := by
  unfold setBit
  rw [bit_setFld]
  by_cases h : i = j
  · subst h
    rw [if_neg (Nat.lt_irrefl i), if_pos (Nat.lt_succ_self i), if_pos rfl, Nat.sub_self]
    cases b <;> rfl
  · rw [if_neg h]
    split
    · rfl
    · rw [if_neg (by omega)]

/-- The bits of a field. -/
theorem testBit_fld (x lo w i : Nat) : (fld x lo w).testBit i = (decide (i < w) && bit x (lo + i)) := by
  unfold fld
  rw [Nat.testBit_mod_two_pow, Nat.shiftRight_eq_div_pow, Nat.testBit_div_two_pow, bit_eq_testBit, Nat.add_comm]

/-- A field that shares no bit with the one replaced. -/
theorem fld_setFld_other (x lo w v lo' w' : Nat) (h : lo' + w' ≤ lo ∨ lo + w ≤ lo') : fld (setFld x lo w v) lo' w' = fld x lo' w' := by
  refine Nat.eq_of_testBit_eq fun i => ?_
  rw [testBit_fld, testBit_fld, bit_setFld]
  by_cases hi : i < w'
  · split
    · rfl
    · rw [if_neg (by omega)]
  · simp [hi]

/-- A bit of a field. -/
theorem bit_fld (x lo w i : Nat) : bit (fld x lo w) i = (decide (i < w) && bit x (lo + i)) := by
  rw [bit_eq_testBit, testBit_fld]

end Sys2Proof.Machine
end

