-- ==== Sys2Proof/Laws/Meters.lean ====
section
/-! SUPPORT. What touches only counters, the signal controllers and the free values drawn (`Meters`): one lemma `<name>_meters` each. -/

set_option linter.unusedVariables false

namespace Sys2Proof.Machine

theorem Meters.refl (s : State) : Meters s s := by constructor <;> first | rfl | exact fun _ => rfl
theorem Meters.trans {a b c : State} (h : Meters a b) (g : Meters b c) : Meters a c :=
  ⟨g.pending.trans h.pending, g.time.trans h.time, g.mem.trans h.mem, g.host.trans h.host, g.keys.trans h.keys, g.poison.trans h.poison, g.poundQ.trans h.poundQ, g.remoteSt.trans h.remoteSt, g.memRegs.trans h.memRegs, g.cmds.trans h.cmds, g.nextId.trans h.nextId, g.serial.trans h.serial, g.rings.trans h.rings, g.locks.trans h.locks, g.jobs.trans h.jobs, g.ctxs.trans h.ctxs, g.queueRe.trans h.queueRe, g.ended.trans h.ended, g.flights.trans h.flights, g.fsets.trans h.fsets, g.shards.trans h.shards, g.scheds.trans h.scheds, g.loans.trans h.loans, g.pools.trans h.pools, g.objs.trans h.objs, g.pfs.trans h.pfs, g.census.trans h.census, g.watch.trans h.watch, g.twatch.trans h.twatch, g.suspects.trans h.suspects, g.links.trans h.links, g.dies.trans h.dies, g.roots.trans h.roots, g.engines.trans h.engines, g.testing.trans h.testing, g.testQ.trans h.testQ, g.changes.trans h.changes, g.modEpoch.trans h.modEpoch, g.ports.trans h.ports, g.domain.trans h.domain, g.rounds.trans h.rounds, g.streams.trans h.streams, g.sent.trans h.sent, g.held.trans h.held, g.transit.trans h.transit, g.sessions.trans h.sessions, g.counts.trans h.counts, g.bufs.trans h.bufs, g.cxl.trans h.cxl, g.msix.trans h.msix, g.answers.trans h.answers, g.nextSes.trans h.nextSes, g.sesQ.trans h.sesQ, g.modQ.trans h.modQ, g.traces.trans h.traces, g.dump.trans h.dump, g.cfg.trans h.cfg, g.power.trans h.power, g.tap.trans h.tap, g.trust.trans h.trust⟩
/-- Other fields written. -/
theorem Meters.set {s x : State} (h : Meters s x) {sics' cnts' fresh'} :
    Meters s ⟨x.pending, x.time, x.mem, x.host, x.keys, x.poison, x.poundQ, x.remoteSt, x.memRegs, x.cmds, x.nextId, x.serial, x.rings, x.locks, x.jobs, x.ctxs, x.queueRe, x.ended, x.flights, x.fsets, x.shards, x.scheds, x.loans, x.pools, x.objs, x.pfs, x.census, x.watch, x.twatch, x.suspects, x.links, x.dies, x.roots, x.engines, x.testing, x.testQ, x.changes, x.modEpoch, x.ports, x.domain, x.rounds, x.streams, x.sent, x.held, x.transit, x.sessions, x.counts, x.bufs, x.cxl, x.msix, x.answers, x.nextSes, x.sesQ, x.modQ, sics', cnts', x.traces, x.dump, x.cfg, x.power, x.tap, x.trust, fresh'⟩ := ⟨h.pending, h.time, h.mem, h.host, h.keys, h.poison, h.poundQ, h.remoteSt, h.memRegs, h.cmds, h.nextId, h.serial, h.rings, h.locks, h.jobs, h.ctxs, h.queueRe, h.ended, h.flights, h.fsets, h.shards, h.scheds, h.loans, h.pools, h.objs, h.pfs, h.census, h.watch, h.twatch, h.suspects, h.links, h.dies, h.roots, h.engines, h.testing, h.testQ, h.changes, h.modEpoch, h.ports, h.domain, h.rounds, h.streams, h.sent, h.held, h.transit, h.sessions, h.counts, h.bufs, h.cxl, h.msix, h.answers, h.nextSes, h.sesQ, h.modQ, h.traces, h.dump, h.cfg, h.power, h.tap, h.trust⟩
/-- Another device time, the first's. -/
theorem Meters.atTime {s x : State} (h : Meters s { x with time := s.time }) {sics' cnts' fresh'} :
    Meters s ⟨x.pending, s.time, x.mem, x.host, x.keys, x.poison, x.poundQ, x.remoteSt, x.memRegs, x.cmds, x.nextId, x.serial, x.rings, x.locks, x.jobs, x.ctxs, x.queueRe, x.ended, x.flights, x.fsets, x.shards, x.scheds, x.loans, x.pools, x.objs, x.pfs, x.census, x.watch, x.twatch, x.suspects, x.links, x.dies, x.roots, x.engines, x.testing, x.testQ, x.changes, x.modEpoch, x.ports, x.domain, x.rounds, x.streams, x.sent, x.held, x.transit, x.sessions, x.counts, x.bufs, x.cxl, x.msix, x.answers, x.nextSes, x.sesQ, x.modQ, sics', cnts', x.traces, x.dump, x.cfg, x.power, x.tap, x.trust, fresh'⟩ := ⟨h.pending, rfl, h.mem, h.host, h.keys, h.poison, h.poundQ, h.remoteSt, h.memRegs, h.cmds, h.nextId, h.serial, h.rings, h.locks, h.jobs, h.ctxs, h.queueRe, h.ended, h.flights, h.fsets, h.shards, h.scheds, h.loans, h.pools, h.objs, h.pfs, h.census, h.watch, h.twatch, h.suspects, h.links, h.dies, h.roots, h.engines, h.testing, h.testQ, h.changes, h.modEpoch, h.ports, h.domain, h.rounds, h.streams, h.sent, h.held, h.transit, h.sessions, h.counts, h.bufs, h.cxl, h.msix, h.answers, h.nextSes, h.sesQ, h.modQ, h.traces, h.dump, h.cfg, h.power, h.tap, h.trust⟩
theorem Meters.ite {s a b : State} {c : Prop} [Decidable c] (ha : Meters s a) (hb : Meters s b) : Meters s (if c then a else b) := by
  split
  · exact ha
  · exact hb
theorem Meters.foldl {α : Type} {s x : State} {g : State → α → State} (l : List α) (h : Meters s x) (hg : ∀ t a, Meters s t → Meters s (g t a)) :
    Meters s (l.foldl g x) := by
  induction l generalizing x with
  | nil => exact h
  | cons a l ih => exact ih (hg x a h)
theorem Meters.foldlP {α β : Type} {s : State} {x : State × β} {g : State × β → α → State × β} (l : List α) (h : Meters s x.1)
    (hg : ∀ t a, Meters s t.1 → Meters s (g t a).1) : Meters s (l.foldl g x).1 := by
  induction l generalizing x with
  | nil => exact h
  | cons a l ih => exact ih (hg x a h)
def MetersO (s : State) (o : Host.Outcome State Fault Refusal) : Prop := ∀ t, o = .next t → Meters s t
theorem MetersO.next {s t : State} (h : Meters s t) : MetersO s (.next t) := fun _ e => by cases e; exact h
theorem MetersO.stop {s : State} {o : Host.Outcome State Fault Refusal} (h : ∀ t, o ≠ .next t) : MetersO s o := fun t e => absurd e (h t)
theorem MetersO.ite {s : State} {a b : Host.Outcome State Fault Refusal} {c : Prop} [Decidable c] (ha : MetersO s a) (hb : MetersO s b) :
    MetersO s (if c then a else b) := by
  split
  · exact ha
  · exact hb

theorem setCnt_meters {s : State} (a0 : State) (a1 : ℕ) (a2 : CntBlock) (h0 : Meters s a0) : Meters s (setCnt a0 a1 a2) := by
  delta setCnt
  refine Meters.set ?_
  assumption

theorem setSic_meters {s : State} (a0 : State) (a1 : ℕ) (a2 : Sic) (h0 : Meters s a0) : Meters s (setSic a0 a1 a2) := by
  delta setSic
  refine Meters.set ?_
  assumption

theorem fire_meters {s : State} (a0 : State) (a1 : ℕ) (a2 : ℕ) (h0 : Meters s a0) : Meters s (fire a0 a1 a2) := by
  delta fire
  refine Meters.ite ?_ ?_
  · assumption
  · apply setSic_meters
    assumption

theorem count_meters {s : State} (a0 : State) (a1 : ℕ) (a2 : ℕ × ℕ) (a3 : ℕ) (a4 : ℕ) (a5 : Option (ℕ × ℕ)) (h0 : Meters s a0) : Meters s (count a0 a1 a2 a3 a4 a5) := by
  delta count
  refine Meters.ite ?_ ?_
  · assumption
  · extract_lets v0 v1 v2
    clear_value v0 v1
    have k3 : Meters s v2 := by
      unfold v2
      apply setCnt_meters
      assumption
    clear_value v2
    refine Meters.ite ?_ ?_
    · assumption
    · apply fire_meters
      assumption

theorem engineDone_meters {s : State} (a0 : State) (a1 : Cmd) (h0 : Meters s a0) : Meters s (engineDone a0 a1) := by
  delta engineDone
  split
  · refine Meters.ite ?_ ?_
    · apply fire_meters
      assumption
    · refine Meters.ite ?_ ?_
      · apply fire_meters
        assumption
      · refine Meters.ite ?_ ?_
        · apply fire_meters
          assumption
        · assumption
  · assumption

theorem seqAttn_meters {s : State} (a0 : State) (a1 : Cmd) (h0 : Meters s a0) : Meters s (seqAttn a0 a1) := by
  delta seqAttn
  split
  · refine Meters.ite ?_ ?_
    · apply fire_meters
      assumption
    · assumption
  · assumption

theorem drift_meters {s : State} (a0 : State) (a1 : Option (ℕ × ℕ)) (h0 : Meters s a0) : Meters s (drift a0 a1) := by
  delta drift
  refine Meters.foldl _ ?_ (fun t0 b0 h0 => ?_)
  · assumption
  · refine Meters.foldl _ ?_ (fun t1 b1 h1 => ?_)
    · assumption
    · extract_lets v2
      clear_value v2
      refine Meters.ite ?_ ?_
      · apply count_meters
        refine Meters.set ?_
        assumption
      · assumption

theorem countWork_meters {s : State} (a0 : State) (a1 : Cmd) (h0 : Meters s a0) : Meters s (countWork a0 a1) := by
  delta countWork
  extract_lets v0 v1 v2 v3 v4
  clear_value v0 v1 v2 v3 v4
  split
  · assumption
  · refine Meters.ite ?_ ?_
    · refine Meters.ite ?_ ?_
      · apply count_meters
        assumption
      · assumption
    · refine Meters.ite ?_ ?_
      · refine Meters.foldl _ ?_ (fun t5 b5 h5 => ?_)
        · assumption
        · apply count_meters
          assumption
      · refine Meters.ite ?_ ?_
        · refine Meters.foldl _ ?_ (fun t6 b6 h6 => ?_)
          · assumption
          · apply count_meters
            assumption
        · refine Meters.ite ?_ ?_
          · refine Meters.foldl _ ?_ (fun t7 b7 h7 => ?_)
            · assumption
            · extract_lets v8
              clear_value v8
              apply count_meters
              apply count_meters
              assumption
          · refine Meters.ite ?_ ?_
            · apply count_meters
              assumption
            · assumption

theorem onWord_meters {s : State} (a0 : State) (a1 : ℕ) (a2 : ℕ) (a3 : ℕ) (a4 : Sic → ℕ → Sic) (h0 : Meters s a0) : Meters s (onWord a0 a1 a2 a3 a4) := by
  delta onWord
  apply setSic_meters
  assumption

theorem execSicEnSet_meters {s : State} (a0 : ℕ) (a1 : ℕ) (a2 : ℕ) (a3 : State) (h0 : Meters s a3) : MetersO s (execSicEnSet a0 a1 a2 a3) := by
  delta execSicEnSet
  refine MetersO.next ?_
  refine Meters.ite ?_ ?_
  · apply onWord_meters
    assumption
  · assumption

theorem execSicEnClr_meters {s : State} (a0 : ℕ) (a1 : ℕ) (a2 : ℕ) (a3 : State) (h0 : Meters s a3) : MetersO s (execSicEnClr a0 a1 a2 a3) := by
  delta execSicEnClr
  refine MetersO.next ?_
  refine Meters.ite ?_ ?_
  · apply onWord_meters
    assumption
  · assumption

theorem execSicPendSet_meters {s : State} (a0 : ℕ) (a1 : ℕ) (a2 : ℕ) (a3 : State) (h0 : Meters s a3) : MetersO s (execSicPendSet a0 a1 a2 a3) := by
  delta execSicPendSet
  refine MetersO.next ?_
  refine Meters.ite ?_ ?_
  · apply onWord_meters
    assumption
  · assumption

theorem execSicPendClr_meters {s : State} (a0 : ℕ) (a1 : ℕ) (a2 : ℕ) (a3 : State) (h0 : Meters s a3) : MetersO s (execSicPendClr a0 a1 a2 a3) := by
  delta execSicPendClr
  refine MetersO.next ?_
  refine Meters.ite ?_ ?_
  · apply onWord_meters
    assumption
  · assumption

theorem execSicSrcCfg_meters {s : State} (a0 : ℕ) (a1 : ℕ) (a2 : ℕ) (a3 : State) (h0 : Meters s a3) : MetersO s (execSicSrcCfg a0 a1 a2 a3) := by
  delta execSicSrcCfg
  refine MetersO.next ?_
  refine Meters.ite ?_ ?_
  · extract_lets v0 v1
    clear_value v0 v1
    apply setSic_meters
    assumption
  · assumption

theorem execSicSrcMod_meters {s : State} (a0 : ℕ) (a1 : ℕ) (a2 : ℕ) (a3 : State) (h0 : Meters s a3) : MetersO s (execSicSrcMod a0 a1 a2 a3) := by
  delta execSicSrcMod
  refine MetersO.next ?_
  refine Meters.ite ?_ ?_
  · extract_lets v0 v1 v2
    clear_value v0 v1 v2
    apply setSic_meters
    assumption
  · assumption

theorem execSicEoi_meters {s : State} (a0 : ℕ) (a1 : ℕ) (a2 : ℕ) (a3 : State) (h0 : Meters s a3) : MetersO s (execSicEoi a0 a1 a2 a3) := by
  delta execSicEoi
  refine MetersO.next ?_
  refine Meters.ite ?_ ?_
  · apply setSic_meters
    assumption
  · assumption

theorem execSicTgtCtrl_meters {s : State} (a0 : ℕ) (a1 : ℕ) (a2 : ℕ) (a3 : State) (h0 : Meters s a3) : MetersO s (execSicTgtCtrl a0 a1 a2 a3) := by
  delta execSicTgtCtrl
  refine MetersO.next ?_
  refine Meters.ite ?_ ?_
  · extract_lets v0 v1
    clear_value v0 v1
    apply setSic_meters
    assumption
  · assumption

theorem execCntCtrl_meters {s : State} (a0 : ℕ) (a1 : ℕ) (a2 : State) (h0 : Meters s a2) : MetersO s (execCntCtrl a0 a1 a2) := by
  delta execCntCtrl
  refine MetersO.next ?_
  refine Meters.ite ?_ ?_
  · apply setCnt_meters
    assumption
  · assumption

theorem execCntClear_meters {s : State} (a0 : ℕ) (a1 : ℕ) (a2 : State) (h0 : Meters s a2) : MetersO s (execCntClear a0 a1 a2) := by
  delta execCntClear
  refine MetersO.next ?_
  refine Meters.ite ?_ ?_
  · extract_lets v0
    clear_value v0
    apply setCnt_meters
    assumption
  · assumption

theorem writeSlot_meters {s : State} (a0 : State) (a1 : ℕ) (a2 : ℕ) (a3 : ℕ) (a4 : ℕ) (h0 : Meters s a0) : Meters s (writeSlot a0 a1 a2 a3 a4) := by
  delta writeSlot
  extract_lets v0 v1 v2 v3
  clear_value v0 v1 v2 v3
  apply setCnt_meters
  assumption

theorem countNs_meters {s : State} (a0 : State) (a1 : ℕ) (h0 : Meters s a0) : Meters s (countNs a0 a1) := by
  delta countNs
  refine Meters.foldl _ ?_ (fun t0 b0 h0 => ?_)
  · assumption
  · apply count_meters
    apply count_meters
    assumption

theorem execSicTake_meters {s : State} (a0 : ℕ) (a1 : ℕ) (a2 : ℕ) (a3 : Bool) (a4 : State) (h0 : Meters s a4) : MetersO s (execSicTake a0 a1 a2 a3 a4) := by
  delta execSicTake
  refine MetersO.next ?_
  refine Meters.ite ?_ ?_
  · apply setSic_meters
    assumption
  · assumption

theorem execSourceFire_meters {s : State} (a0 : ℕ) (a1 : ℕ) (a2 : State) (h0 : Meters s a2) : MetersO s (execSourceFire a0 a1 a2) := by
  delta execSourceFire
  refine MetersO.next ?_
  apply fire_meters
  assumption

theorem execTargetIdle_meters {s : State} (a0 : ℕ) (a1 : ℕ) (a2 : State) (h0 : Meters s a2) : MetersO s (execTargetIdle a0 a1 a2) := by
  delta execTargetIdle
  refine MetersO.next ?_
  refine Meters.ite ?_ ?_
  · extract_lets v0 v1 v2 v3
    clear_value v0 v1 v2 v3
    apply setSic_meters
    assumption
  · assumption

/-- Device time moved on, and what counts it. -/
theorem timeTo_meters (s : State) (t : Nat) : ∃ u, Meters s u ∧ timeTo s t = { u with time := max s.time t } := by
  unfold timeTo
  split
  · rename_i h
    refine ⟨drift (countNs s (t - s.time)) none, drift_meters _ _ (countNs_meters _ _ (Meters.refl s)), ?_⟩
    rw [Nat.max_eq_right (Nat.le_of_lt h)]
  · rename_i h
    refine ⟨s, Meters.refl s, ?_⟩
    rw [Nat.max_eq_left (Nat.le_of_not_lt h)]

end Sys2Proof.Machine
end

