-- ==== Sys2Proof/Laws/Told.lean ====
section
/-! SUPPORT. What only reports: one lemma `<name>_told` per operation. -/

set_option linter.unusedVariables false

namespace Sys2Proof.Machine

theorem Told.refl (s : State) : Told s s := by constructor <;> first | rfl | exact fun _ => rfl
theorem Told.trans {a b c : State} (h : Told a b) (g : Told b c) : Told a c :=
  ⟨g.pending.trans h.pending, g.time.trans h.time, g.host.trans h.host, g.poundQ.trans h.poundQ, g.remoteSt.trans h.remoteSt, g.memRegs.trans h.memRegs, g.cmds.trans h.cmds, g.nextId.trans h.nextId, g.serial.trans h.serial, g.rings.trans h.rings, g.locks.trans h.locks, g.jobs.trans h.jobs, g.ctxs.trans h.ctxs, g.queueRe.trans h.queueRe, g.ended.trans h.ended, g.flights.trans h.flights, g.fsets.trans h.fsets, g.shards.trans h.shards, g.scheds.trans h.scheds, g.loans.trans h.loans, g.pools.trans h.pools, g.objs.trans h.objs, g.pfs.trans h.pfs, g.census.trans h.census, g.watch.trans h.watch, g.twatch.trans h.twatch, g.suspects.trans h.suspects, g.links.trans h.links, g.roots.trans h.roots, g.engines.trans h.engines, g.testing.trans h.testing, g.testQ.trans h.testQ, g.changes.trans h.changes, g.modEpoch.trans h.modEpoch, g.ports.trans h.ports, g.domain.trans h.domain, g.rounds.trans h.rounds, g.streams.trans h.streams, g.sent.trans h.sent, g.held.trans h.held, g.transit.trans h.transit, g.sessions.trans h.sessions, g.counts.trans h.counts, g.bufs.trans h.bufs, g.cxl.trans h.cxl, g.answers.trans h.answers, g.nextSes.trans h.nextSes, g.dump.trans h.dump, g.cfg.trans h.cfg, g.tap.trans h.tap, g.trust.trans h.trust, g.power.trans h.power, fun d => (g.dies d).trans (h.dies d)⟩
/-- Other fields written. -/
theorem Told.set {s x : State} (h : Told s x) {mem' keys' poison' msix' sesQ' modQ' sics' cnts' traces' fresh'} :
    Told s ⟨x.pending, x.time, mem', x.host, keys', poison', x.poundQ, x.remoteSt, x.memRegs, x.cmds, x.nextId, x.serial, x.rings, x.locks, x.jobs, x.ctxs, x.queueRe, x.ended, x.flights, x.fsets, x.shards, x.scheds, x.loans, x.pools, x.objs, x.pfs, x.census, x.watch, x.twatch, x.suspects, x.links, x.dies, x.roots, x.engines, x.testing, x.testQ, x.changes, x.modEpoch, x.ports, x.domain, x.rounds, x.streams, x.sent, x.held, x.transit, x.sessions, x.counts, x.bufs, x.cxl, msix', x.answers, x.nextSes, sesQ', modQ', sics', cnts', traces', x.dump, x.cfg, x.power, x.tap, x.trust, fresh'⟩ := ⟨h.pending, h.time, h.host, h.poundQ, h.remoteSt, h.memRegs, h.cmds, h.nextId, h.serial, h.rings, h.locks, h.jobs, h.ctxs, h.queueRe, h.ended, h.flights, h.fsets, h.shards, h.scheds, h.loans, h.pools, h.objs, h.pfs, h.census, h.watch, h.twatch, h.suspects, h.links, h.roots, h.engines, h.testing, h.testQ, h.changes, h.modEpoch, h.ports, h.domain, h.rounds, h.streams, h.sent, h.held, h.transit, h.sessions, h.counts, h.bufs, h.cxl, h.answers, h.nextSes, h.dump, h.cfg, h.tap, h.trust, h.power, h.dies⟩
/-- The power registers beside those that the relation holds, and other fields, written. -/
theorem Told.setPower {s x : State} (h : Told s x) {power' mem' keys' poison' msix' sesQ' modQ' sics' cnts' traces' fresh'} (hp : power'.kept = x.power.kept) :
    Told s ⟨x.pending, x.time, mem', x.host, keys', poison', x.poundQ, x.remoteSt, x.memRegs, x.cmds, x.nextId, x.serial, x.rings, x.locks, x.jobs, x.ctxs, x.queueRe, x.ended, x.flights, x.fsets, x.shards, x.scheds, x.loans, x.pools, x.objs, x.pfs, x.census, x.watch, x.twatch, x.suspects, x.links, x.dies, x.roots, x.engines, x.testing, x.testQ, x.changes, x.modEpoch, x.ports, x.domain, x.rounds, x.streams, x.sent, x.held, x.transit, x.sessions, x.counts, x.bufs, x.cxl, msix', x.answers, x.nextSes, sesQ', modQ', sics', cnts', traces', x.dump, x.cfg, power', x.tap, x.trust, fresh'⟩ := ⟨h.pending, h.time, h.host, h.poundQ, h.remoteSt, h.memRegs, h.cmds, h.nextId, h.serial, h.rings, h.locks, h.jobs, h.ctxs, h.queueRe, h.ended, h.flights, h.fsets, h.shards, h.scheds, h.loans, h.pools, h.objs, h.pfs, h.census, h.watch, h.twatch, h.suspects, h.links, h.roots, h.engines, h.testing, h.testQ, h.changes, h.modEpoch, h.ports, h.domain, h.rounds, h.streams, h.sent, h.held, h.transit, h.sessions, h.counts, h.bufs, h.cxl, h.answers, h.nextSes, h.dump, h.cfg, h.tap, h.trust, hp.trans h.power, h.dies⟩
theorem setDie_told0 {s : State} (a0 : State) (a1 : Nat) (a2 : Die) (h0 : Told s a0) (hk : a2.kept = (getDie a0 a1).kept) : Told s (setDie a0 a1 a2) := by
  refine ⟨h0.pending, h0.time, h0.host, h0.poundQ, h0.remoteSt, h0.memRegs, h0.cmds, h0.nextId, h0.serial, h0.rings, h0.locks, h0.jobs, h0.ctxs, h0.queueRe, h0.ended, h0.flights, h0.fsets, h0.shards, h0.scheds, h0.loans, h0.pools, h0.objs, h0.pfs, h0.census, h0.watch, h0.twatch, h0.suspects, h0.links, h0.roots, h0.engines, h0.testing, h0.testQ, h0.changes, h0.modEpoch, h0.ports, h0.domain, h0.rounds, h0.streams, h0.sent, h0.held, h0.transit, h0.sessions, h0.counts, h0.bufs, h0.cxl, h0.answers, h0.nextSes, h0.dump, h0.cfg, h0.tap, h0.trust, h0.power, ?_⟩
  intro e
  have : getDie (setDie a0 a1 a2) e = if a1 = e then a2 else getDie a0 e := tget_tset _ a1 e a2
  rw [this]
  split
  · subst_vars; exact hk.trans (h0.dies _)
  · exact h0.dies e
theorem Told.ite {s a b : State} {c : Prop} [Decidable c] (ha : Told s a) (hb : Told s b) : Told s (if c then a else b) := by
  split
  · exact ha
  · exact hb
theorem Told.foldl {α : Type} {s x : State} {g : State → α → State} (l : List α) (h : Told s x) (hg : ∀ t a, Told s t → Told s (g t a)) :
    Told s (l.foldl g x) := by
  induction l generalizing x with
  | nil => exact h
  | cons a l ih => exact ih (hg x a h)
theorem Told.foldlP {α β : Type} {s : State} {x : State × β} {g : State × β → α → State × β} (l : List α) (h : Told s x.1)
    (hg : ∀ t a, Told s t.1 → Told s (g t a).1) : Told s (l.foldl g x).1 := by
  induction l generalizing x with
  | nil => exact h
  | cons a l ih => exact ih (hg x a h)
def ToldO (s : State) (o : Host.Outcome State Fault Refusal) : Prop := ∀ t, o = .next t → Told s t
theorem ToldO.next {s t : State} (h : Told s t) : ToldO s (.next t) := fun _ e => by cases e; exact h
theorem ToldO.stop {s : State} {o : Host.Outcome State Fault Refusal} (h : ∀ t, o ≠ .next t) : ToldO s o := fun t e => absurd e (h t)
theorem ToldO.ite {s : State} {a b : Host.Outcome State Fault Refusal} {c : Prop} [Decidable c] (ha : ToldO s a) (hb : ToldO s b) :
    ToldO s (if c then a else b) := by
  split
  · exact ha
  · exact hb
def ToldR (s : State) (r : StartRes) : Prop := match r with | .go t _ => Told s t | _ => True
theorem ToldR.go {s t : State} {c : Cmd} (h : Told s t) : ToldR s (.go t c) := h
theorem ToldR.ite {s : State} {a b : StartRes} {c : Prop} [Decidable c] (ha : ToldR s a) (hb : ToldR s b) : ToldR s (if c then a else b) := by
  split
  · exact ha
  · exact hb

theorem wrLocal_told {s : State} (a0 : State) (a1 : ℕ) (a2 : ℕ) (a3 : List Byte) (h0 : Told s a0) : Told s (wrLocal a0 a1 a2 a3) := by
  delta wrLocal
  refine Told.set ?_
  assumption

theorem setCnt_told {s : State} (a0 : State) (a1 : ℕ) (a2 : CntBlock) (h0 : Told s a0) : Told s (setCnt a0 a1 a2) := by
  delta setCnt
  refine Told.set ?_
  assumption

theorem setSic_told {s : State} (a0 : State) (a1 : ℕ) (a2 : Sic) (h0 : Told s a0) : Told s (setSic a0 a1 a2) := by
  delta setSic
  refine Told.set ?_
  assumption

theorem fire_told {s : State} (a0 : State) (a1 : ℕ) (a2 : ℕ) (h0 : Told s a0) : Told s (fire a0 a1 a2) := by
  delta fire
  refine Told.ite ?_ ?_
  · assumption
  · apply setSic_told
    assumption

theorem count_told {s : State} (a0 : State) (a1 : ℕ) (a2 : ℕ × ℕ) (a3 : ℕ) (a4 : ℕ) (a5 : Option (ℕ × ℕ)) (h0 : Told s a0) : Told s (count a0 a1 a2 a3 a4 a5) := by
  delta count
  refine Told.ite ?_ ?_
  · assumption
  · extract_lets v0 v1 v2
    clear_value v0 v1
    have k3 : Told s v2 := by
      unfold v2
      apply setCnt_told
      assumption
    clear_value v2
    refine Told.ite ?_ ?_
    · assumption
    · apply fire_told
      assumption

theorem trPut_told {s : State} (a0 : State) (a1 : Trace) (a2 : ℕ) (a3 : List Byte) (h0 : Told s a0) : Told s (trPut a0 a1 a2 a3) := by
  delta trPut
  extract_lets v0
  clear_value v0
  split
  · assumption
  · refine Told.ite ?_ ?_
    · apply wrLocal_told
      assumption
    · assumption

theorem setTrace_told {s : State} (a0 : State) (a1 : ℕ) (a2 : Trace) (h0 : Told s a0) : Told s (setTrace a0 a1 a2) := by
  delta setTrace
  refine Told.set ?_
  assumption

theorem traceRec_told {s : State} (a0 : State) (a1 : ℕ) (a2 : TrRec) (h0 : Told s a0) : Told s (traceRec a0 a1 a2) := by
  delta traceRec
  extract_lets v0 v1 v2 v3 v4 v5 v6 v7 v8 v9 v10 v11 v12 v13 v14 v15 v16 v17 v18 v19 v20 v21 v22
  clear_value v0 v1 v2 v3 v4 v5 v6
  have k23 : Told s v7 := by
    unfold v7
    apply trPut_told
    assumption
  clear_value v7
  clear_value v8 v9 v10 v11 v12 v13 v14 v15
  have k24 : Told s v16.1 := by
    unfold v16
    split
    · dsimp only
      apply fire_told
      assumption
    · split
      · dsimp only
        apply trPut_told
        assumption
      · dsimp only
        assumption
  clear_value v16
  have k25 : Told s v17 := by
    unfold v17
    assumption
  clear_value v17
  clear_value v18 v19 v20 v21
  have k26 : Told s v22 := by
    unfold v22
    apply count_told
    assumption
  clear_value v22
  refine Told.ite ?_ ?_
  · assumption
  · refine Told.ite ?_ ?_
    · apply fire_told
      apply setTrace_told
      assumption
    · apply setTrace_told
      assumption

theorem drift_told {s : State} (a0 : State) (a1 : Option (ℕ × ℕ)) (h0 : Told s a0) : Told s (drift a0 a1) := by
  delta drift
  refine Told.foldl _ ?_ (fun t0 b0 h0 => ?_)
  · assumption
  · refine Told.foldl _ ?_ (fun t1 b1 h1 => ?_)
    · assumption
    · extract_lets v2
      clear_value v2
      refine Told.ite ?_ ?_
      · apply count_told
        refine Told.set ?_
        assumption
      · assumption

theorem fireMsix_told {s : State} (a0 : State) (a1 : ℕ) (h0 : Told s a0) : Told s (fireMsix a0 a1) := by
  delta fireMsix
  refine Told.ite ?_ ?_
  · refine Told.set ?_
    assumption
  · assumption

theorem deliver_told {s : State} (a0 : State) (a1 : Event) (a2 : Option ℕ) (h0 : Told s a0) : Told s (deliver a0 a1 a2) := by
  delta deliver
  extract_lets v0 v1 v2 v3 v4 v5
  clear_value v0
  have k6 : Told s v1.1 := by
    unfold v1
    split
    · dsimp only
      assumption
    · extract_lets v7
      clear_value v7
      dsimp only
      refine Told.set ?_
      assumption
  clear_value v1
  clear_value v2 v3
  have k8 : Told s v4 := by
    unfold v4
    assumption
  clear_value v4
  have k9 : Told s v5.1 := by
    unfold v5
    split
    · dsimp only
      refine Told.set ?_
      assumption
    · assumption
  clear_value v5
  refine Told.ite ?_ ?_
  · apply fireMsix_told
    assumption
  · assumption

theorem raiseOp_told {s : State} (a0 : State) (a1 : Option (ℕ × ℕ)) (a2 : ℕ) (a3 : ℕ) (a4 : ℕ) (a5 : Bool) (a6 : Option ℕ) (a7 : ℕ) (a8 : ℕ) (a9 : ℕ) (a10 : ℕ) (a11 : ℕ) (a12 : ℕ) (h0 : Told s a0) : Told s (raiseOp a0 a1 a2 a3 a4 a5 a6 a7 a8 a9 a10 a11 a12) := by
  delta raiseOp
  extract_lets v0 v1 v2 v3 v4 v5 v6 v7
  have k8 : Told s v3 := by
    unfold v3
    refine setDie_told0 _ _ _ ?_ rfl
    assumption
  clear_value v3
  have k9 : Told s v4 := by
    unfold v4
    apply count_told
    assumption
  clear_value v4
  have k10 : Told s v5 := by
    unfold v5
    apply traceRec_told
    assumption
  clear_value v5
  have k11 : Told s v6 := by
    unfold v6
    apply fire_told
    assumption
  clear_value v6
  refine Told.ite ?_ ?_
  · refine Told.setPower ?_ rfl
    assumption
  · apply deliver_told
    assumption

theorem raiseFor_told {s : State} (a0 : State) (a1 : ℕ) (a2 : ℕ) (a3 : Bool) (a4 : Option ℕ) (a5 : ℕ) (a6 : ℕ) (a7 : ℕ) (a8 : ℕ) (a9 : ℕ) (a10 : ℕ) (h0 : Told s a0) : Told s (raiseFor a0 a1 a2 a3 a4 a5 a6 a7 a8 a9 a10) := by
  delta raiseFor
  apply raiseOp_told
  assumption

theorem wrPlain_told {s : State} (a0 : State) (a1 : ℕ) (a2 : List Byte) (h0 : Told s a0) : Told s (wrPlain a0 a1 a2) := by
  delta wrPlain
  refine Told.set ?_
  assumption

theorem raise_told {s : State} (a0 : State) (a1 : ℕ) (a2 : ℕ) (a3 : ℕ) (a4 : ℕ) (a5 : ℕ) (a6 : ℕ) (a7 : ℕ) (a8 : ℕ) (h0 : Told s a0) : Told s (raise a0 a1 a2 a3 a4 a5 a6 a7 a8) := by
  delta raise
  apply raiseFor_told
  assumption

theorem raiseCmd_told {s : State} (a0 : State) (a1 : Cmd) (a2 : ℕ) (a3 : ℕ) (a4 : ℕ) (a5 : ℕ) (h0 : Told s a0) : Told s (raiseCmd a0 a1 a2 a3 a4 a5) := by
  delta raiseCmd
  apply raiseOp_told
  assumption

theorem countWork_told {s : State} (a0 : State) (a1 : Cmd) (h0 : Told s a0) : Told s (countWork a0 a1) := by
  delta countWork
  extract_lets v0 v1 v2 v3 v4
  clear_value v0 v1 v2 v3 v4
  split
  · assumption
  · refine Told.ite ?_ ?_
    · refine Told.ite ?_ ?_
      · apply count_told
        assumption
      · assumption
    · refine Told.ite ?_ ?_
      · refine Told.foldl _ ?_ (fun t5 b5 h5 => ?_)
        · assumption
        · apply count_told
          assumption
      · refine Told.ite ?_ ?_
        · refine Told.foldl _ ?_ (fun t6 b6 h6 => ?_)
          · assumption
          · apply count_told
            assumption
        · refine Told.ite ?_ ?_
          · refine Told.foldl _ ?_ (fun t7 b7 h7 => ?_)
            · assumption
            · extract_lets v8
              clear_value v8
              apply count_told
              apply count_told
              assumption
          · refine Told.ite ?_ ?_
            · apply count_told
              assumption
            · assumption

theorem raiseMod_told {s : State} (a0 : State) (a1 : ℕ) (a2 : ℕ) (a3 : ℕ) (a4 : ℕ) (a5 : ℕ) (h0 : Told s a0) : Told s (raiseMod a0 a1 a2 a3 a4 a5) := by
  delta raiseMod
  apply raise_told
  assumption

theorem killKey_told {s : State} (a0 : State) (a1 : ℕ) (h0 : Told s a0) : Told s (killKey a0 a1) := by
  delta killKey
  refine Told.set ?_
  assumption

theorem countNs_told {s : State} (a0 : State) (a1 : ℕ) (h0 : Told s a0) : Told s (countNs a0 a1) := by
  delta countNs
  refine Told.foldl _ ?_ (fun t0 b0 h0 => ?_)
  · assumption
  · apply count_told
    apply count_told
    assumption

/-- Counting only reports. -/
theorem Meters.told {s t : State} (h : Meters s t) : Told s t :=
  ⟨h.pending, h.time, h.host, h.poundQ, h.remoteSt, h.memRegs, h.cmds, h.nextId, h.serial, h.rings, h.locks, h.jobs, h.ctxs, h.queueRe, h.ended, h.flights, h.fsets, h.shards, h.scheds, h.loans, h.pools, h.objs, h.pfs, h.census, h.watch, h.twatch, h.suspects, h.links, h.roots, h.engines, h.testing, h.testQ, h.changes, h.modEpoch, h.ports, h.domain, h.rounds, h.streams, h.sent, h.held, h.transit, h.sessions, h.counts, h.bufs, h.cxl, h.answers, h.nextSes, h.dump, h.cfg, h.tap, h.trust, by rw [h.power], fun d => by unfold getDie; rw [h.dies]⟩

end Sys2Proof.Machine
end

