-- ==== Sys2Proof/Laws/Carried.lean ====
section
/-! SUPPORT. What only reports and sends messages: one lemma `<name>_carried` per operation. -/

set_option linter.unusedVariables false

namespace Sys2Proof.Machine

theorem Carried.refl (s : State) : Carried s s := by constructor <;> first | rfl | exact fun _ => rfl
theorem Carried.trans {a b c : State} (h : Carried a b) (g : Carried b c) : Carried a c :=
  ⟨g.pending.trans h.pending, g.time.trans h.time, g.host.trans h.host, g.poundQ.trans h.poundQ, g.remoteSt.trans h.remoteSt, g.memRegs.trans h.memRegs, g.cmds.trans h.cmds, g.nextId.trans h.nextId, g.serial.trans h.serial, g.rings.trans h.rings, g.locks.trans h.locks, g.jobs.trans h.jobs, g.ctxs.trans h.ctxs, g.queueRe.trans h.queueRe, g.ended.trans h.ended, g.flights.trans h.flights, g.fsets.trans h.fsets, g.shards.trans h.shards, g.scheds.trans h.scheds, g.loans.trans h.loans, g.pools.trans h.pools, g.objs.trans h.objs, g.pfs.trans h.pfs, g.census.trans h.census, g.watch.trans h.watch, g.twatch.trans h.twatch, g.suspects.trans h.suspects, g.links.trans h.links, g.roots.trans h.roots, g.engines.trans h.engines, g.testing.trans h.testing, g.testQ.trans h.testQ, g.changes.trans h.changes, g.modEpoch.trans h.modEpoch, g.rounds.trans h.rounds, g.streams.trans h.streams, g.sessions.trans h.sessions, g.counts.trans h.counts, g.bufs.trans h.bufs, g.cxl.trans h.cxl, g.nextSes.trans h.nextSes, g.dump.trans h.dump, g.cfg.trans h.cfg, g.tap.trans h.tap, g.trust.trans h.trust, g.power.trans h.power, fun d => (g.dies d).trans (h.dies d), g.domain.trans h.domain, fun d => (g.ports d).trans (h.ports d)⟩
/-- Other fields written. -/
theorem Carried.set {s x : State} (h : Carried s x) {mem' keys' poison' sent' held' transit' msix' answers' sesQ' modQ' sics' cnts' traces' fresh'} :
    Carried s ⟨x.pending, x.time, mem', x.host, keys', poison', x.poundQ, x.remoteSt, x.memRegs, x.cmds, x.nextId, x.serial, x.rings, x.locks, x.jobs, x.ctxs, x.queueRe, x.ended, x.flights, x.fsets, x.shards, x.scheds, x.loans, x.pools, x.objs, x.pfs, x.census, x.watch, x.twatch, x.suspects, x.links, x.dies, x.roots, x.engines, x.testing, x.testQ, x.changes, x.modEpoch, x.ports, x.domain, x.rounds, x.streams, sent', held', transit', x.sessions, x.counts, x.bufs, x.cxl, msix', answers', x.nextSes, sesQ', modQ', sics', cnts', traces', x.dump, x.cfg, x.power, x.tap, x.trust, fresh'⟩ := ⟨h.pending, h.time, h.host, h.poundQ, h.remoteSt, h.memRegs, h.cmds, h.nextId, h.serial, h.rings, h.locks, h.jobs, h.ctxs, h.queueRe, h.ended, h.flights, h.fsets, h.shards, h.scheds, h.loans, h.pools, h.objs, h.pfs, h.census, h.watch, h.twatch, h.suspects, h.links, h.roots, h.engines, h.testing, h.testQ, h.changes, h.modEpoch, h.rounds, h.streams, h.sessions, h.counts, h.bufs, h.cxl, h.nextSes, h.dump, h.cfg, h.tap, h.trust, h.power, h.dies, h.domain, h.ports⟩
/-- The power registers beside those that the relation holds, and other fields, written. -/
theorem Carried.setPower {s x : State} (h : Carried s x) {power' mem' keys' poison' sent' held' transit' msix' answers' sesQ' modQ' sics' cnts' traces' fresh'} (hp : power'.kept = x.power.kept) :
    Carried s ⟨x.pending, x.time, mem', x.host, keys', poison', x.poundQ, x.remoteSt, x.memRegs, x.cmds, x.nextId, x.serial, x.rings, x.locks, x.jobs, x.ctxs, x.queueRe, x.ended, x.flights, x.fsets, x.shards, x.scheds, x.loans, x.pools, x.objs, x.pfs, x.census, x.watch, x.twatch, x.suspects, x.links, x.dies, x.roots, x.engines, x.testing, x.testQ, x.changes, x.modEpoch, x.ports, x.domain, x.rounds, x.streams, sent', held', transit', x.sessions, x.counts, x.bufs, x.cxl, msix', answers', x.nextSes, sesQ', modQ', sics', cnts', traces', x.dump, x.cfg, power', x.tap, x.trust, fresh'⟩ := ⟨h.pending, h.time, h.host, h.poundQ, h.remoteSt, h.memRegs, h.cmds, h.nextId, h.serial, h.rings, h.locks, h.jobs, h.ctxs, h.queueRe, h.ended, h.flights, h.fsets, h.shards, h.scheds, h.loans, h.pools, h.objs, h.pfs, h.census, h.watch, h.twatch, h.suspects, h.links, h.roots, h.engines, h.testing, h.testQ, h.changes, h.modEpoch, h.rounds, h.streams, h.sessions, h.counts, h.bufs, h.cxl, h.nextSes, h.dump, h.cfg, h.tap, h.trust, hp.trans h.power, h.dies, h.domain, h.ports⟩
/-- The domain registers beside those that the relation holds, and other fields, written. -/
theorem Carried.setDomain {s x : State} (h : Carried s x) {domain' mem' keys' poison' sent' held' transit' msix' answers' sesQ' modQ' sics' cnts' traces' fresh'} (hp : domain'.kept = x.domain.kept) :
    Carried s ⟨x.pending, x.time, mem', x.host, keys', poison', x.poundQ, x.remoteSt, x.memRegs, x.cmds, x.nextId, x.serial, x.rings, x.locks, x.jobs, x.ctxs, x.queueRe, x.ended, x.flights, x.fsets, x.shards, x.scheds, x.loans, x.pools, x.objs, x.pfs, x.census, x.watch, x.twatch, x.suspects, x.links, x.dies, x.roots, x.engines, x.testing, x.testQ, x.changes, x.modEpoch, x.ports, domain', x.rounds, x.streams, sent', held', transit', x.sessions, x.counts, x.bufs, x.cxl, msix', answers', x.nextSes, sesQ', modQ', sics', cnts', traces', x.dump, x.cfg, x.power, x.tap, x.trust, fresh'⟩ := ⟨h.pending, h.time, h.host, h.poundQ, h.remoteSt, h.memRegs, h.cmds, h.nextId, h.serial, h.rings, h.locks, h.jobs, h.ctxs, h.queueRe, h.ended, h.flights, h.fsets, h.shards, h.scheds, h.loans, h.pools, h.objs, h.pfs, h.census, h.watch, h.twatch, h.suspects, h.links, h.roots, h.engines, h.testing, h.testQ, h.changes, h.modEpoch, h.rounds, h.streams, h.sessions, h.counts, h.bufs, h.cxl, h.nextSes, h.dump, h.cfg, h.tap, h.trust, h.power, h.dies, hp.trans h.domain, h.ports⟩
theorem setDie_carried0 {s : State} (a0 : State) (a1 : Nat) (a2 : Die) (h0 : Carried s a0) (hk : a2.kept = (getDie a0 a1).kept) : Carried s (setDie a0 a1 a2) := by
  refine ⟨h0.pending, h0.time, h0.host, h0.poundQ, h0.remoteSt, h0.memRegs, h0.cmds, h0.nextId, h0.serial, h0.rings, h0.locks, h0.jobs, h0.ctxs, h0.queueRe, h0.ended, h0.flights, h0.fsets, h0.shards, h0.scheds, h0.loans, h0.pools, h0.objs, h0.pfs, h0.census, h0.watch, h0.twatch, h0.suspects, h0.links, h0.roots, h0.engines, h0.testing, h0.testQ, h0.changes, h0.modEpoch, h0.rounds, h0.streams, h0.sessions, h0.counts, h0.bufs, h0.cxl, h0.nextSes, h0.dump, h0.cfg, h0.tap, h0.trust, h0.power, ?_, h0.domain, h0.ports⟩
  intro e
  have : getDie (setDie a0 a1 a2) e = if a1 = e then a2 else getDie a0 e := tget_tset _ a1 e a2
  rw [this]
  split
  · subst_vars; exact hk.trans (h0.dies _)
  · exact h0.dies e
theorem setPort_carried0 {s : State} (a0 : State) (a1 : Nat) (a2 : Port) (h0 : Carried s a0) (hk : a2.kept = (getPort a0 a1).kept) : Carried s (setPort a0 a1 a2) := by
  refine ⟨h0.pending, h0.time, h0.host, h0.poundQ, h0.remoteSt, h0.memRegs, h0.cmds, h0.nextId, h0.serial, h0.rings, h0.locks, h0.jobs, h0.ctxs, h0.queueRe, h0.ended, h0.flights, h0.fsets, h0.shards, h0.scheds, h0.loans, h0.pools, h0.objs, h0.pfs, h0.census, h0.watch, h0.twatch, h0.suspects, h0.links, h0.roots, h0.engines, h0.testing, h0.testQ, h0.changes, h0.modEpoch, h0.rounds, h0.streams, h0.sessions, h0.counts, h0.bufs, h0.cxl, h0.nextSes, h0.dump, h0.cfg, h0.tap, h0.trust, h0.power, h0.dies, h0.domain, ?_⟩
  intro e
  have : getPort (setPort a0 a1 a2) e = if a1 = e then a2 else getPort a0 e := tget_tset _ a1 e a2
  rw [this]
  split
  · subst_vars; exact hk.trans (h0.ports _)
  · exact h0.ports e
theorem Carried.ite {s a b : State} {c : Prop} [Decidable c] (ha : Carried s a) (hb : Carried s b) : Carried s (if c then a else b) := by
  split
  · exact ha
  · exact hb
theorem Carried.foldl {α : Type} {s x : State} {g : State → α → State} (l : List α) (h : Carried s x) (hg : ∀ t a, Carried s t → Carried s (g t a)) :
    Carried s (l.foldl g x) := by
  induction l generalizing x with
  | nil => exact h
  | cons a l ih => exact ih (hg x a h)
theorem Carried.foldlP {α β : Type} {s : State} {x : State × β} {g : State × β → α → State × β} (l : List α) (h : Carried s x.1)
    (hg : ∀ t a, Carried s t.1 → Carried s (g t a).1) : Carried s (l.foldl g x).1 := by
  induction l generalizing x with
  | nil => exact h
  | cons a l ih => exact ih (hg x a h)
def CarriedO (s : State) (o : Host.Outcome State Fault Refusal) : Prop := ∀ t, o = .next t → Carried s t
theorem CarriedO.next {s t : State} (h : Carried s t) : CarriedO s (.next t) := fun _ e => by cases e; exact h
theorem CarriedO.stop {s : State} {o : Host.Outcome State Fault Refusal} (h : ∀ t, o ≠ .next t) : CarriedO s o := fun t e => absurd e (h t)
theorem CarriedO.ite {s : State} {a b : Host.Outcome State Fault Refusal} {c : Prop} [Decidable c] (ha : CarriedO s a) (hb : CarriedO s b) :
    CarriedO s (if c then a else b) := by
  split
  · exact ha
  · exact hb
def CarriedR (s : State) (r : StartRes) : Prop := match r with | .go t _ => Carried s t | _ => True
theorem CarriedR.go {s t : State} {c : Cmd} (h : Carried s t) : CarriedR s (.go t c) := h
theorem CarriedR.ite {s : State} {a b : StartRes} {c : Prop} [Decidable c] (ha : CarriedR s a) (hb : CarriedR s b) : CarriedR s (if c then a else b) := by
  split
  · exact ha
  · exact hb

theorem wrLocal_carried {s : State} (a0 : State) (a1 : ℕ) (a2 : ℕ) (a3 : List Byte) (h0 : Carried s a0) : Carried s (wrLocal a0 a1 a2 a3) := by
  delta wrLocal
  refine Carried.set ?_
  assumption

theorem setCnt_carried {s : State} (a0 : State) (a1 : ℕ) (a2 : CntBlock) (h0 : Carried s a0) : Carried s (setCnt a0 a1 a2) := by
  delta setCnt
  refine Carried.set ?_
  assumption

theorem setSic_carried {s : State} (a0 : State) (a1 : ℕ) (a2 : Sic) (h0 : Carried s a0) : Carried s (setSic a0 a1 a2) := by
  delta setSic
  refine Carried.set ?_
  assumption

theorem fire_carried {s : State} (a0 : State) (a1 : ℕ) (a2 : ℕ) (h0 : Carried s a0) : Carried s (fire a0 a1 a2) := by
  delta fire
  refine Carried.ite ?_ ?_
  · assumption
  · apply setSic_carried
    assumption

theorem count_carried {s : State} (a0 : State) (a1 : ℕ) (a2 : ℕ × ℕ) (a3 : ℕ) (a4 : ℕ) (a5 : Option (ℕ × ℕ)) (h0 : Carried s a0) : Carried s (count a0 a1 a2 a3 a4 a5) := by
  delta count
  refine Carried.ite ?_ ?_
  · assumption
  · extract_lets v0 v1 v2
    clear_value v0 v1
    have k3 : Carried s v2 := by
      unfold v2
      apply setCnt_carried
      assumption
    clear_value v2
    refine Carried.ite ?_ ?_
    · assumption
    · apply fire_carried
      assumption

theorem setTrace_carried {s : State} (a0 : State) (a1 : ℕ) (a2 : Trace) (h0 : Carried s a0) : Carried s (setTrace a0 a1 a2) := by
  delta setTrace
  refine Carried.set ?_
  assumption

theorem trPut_carried {s : State} (a0 : State) (a1 : Trace) (a2 : ℕ) (a3 : List Byte) (h0 : Carried s a0) : Carried s (trPut a0 a1 a2 a3) := by
  delta trPut
  extract_lets v0
  clear_value v0
  split
  · assumption
  · refine Carried.ite ?_ ?_
    · apply wrLocal_carried
      assumption
    · assumption

theorem traceRec_carried {s : State} (a0 : State) (a1 : ℕ) (a2 : TrRec) (h0 : Carried s a0) : Carried s (traceRec a0 a1 a2) := by
  delta traceRec
  extract_lets v0 v1 v2 v3 v4 v5 v6 v7 v8 v9 v10 v11 v12 v13 v14 v15 v16 v17 v18 v19 v20 v21 v22
  clear_value v0 v1 v2 v3 v4 v5 v6
  have k23 : Carried s v7 := by
    unfold v7
    apply trPut_carried
    assumption
  clear_value v7
  clear_value v8 v9 v10 v11 v12 v13 v14 v15
  have k24 : Carried s v16.1 := by
    unfold v16
    split
    · dsimp only
      apply fire_carried
      assumption
    · split
      · dsimp only
        apply trPut_carried
        assumption
      · dsimp only
        assumption
  clear_value v16
  have k25 : Carried s v17 := by
    unfold v17
    assumption
  clear_value v17
  clear_value v18 v19 v20 v21
  have k26 : Carried s v22 := by
    unfold v22
    apply count_carried
    assumption
  clear_value v22
  refine Carried.ite ?_ ?_
  · assumption
  · refine Carried.ite ?_ ?_
    · apply fire_carried
      apply setTrace_carried
      assumption
    · apply setTrace_carried
      assumption

theorem transmit_carried {s : State} (a0 : State) (a1 : Nat) (a2 : Msg) (h0 : Carried s a0) : Carried s (transmit a0 a1 a2) := by
  delta transmit
  extract_lets s1 s2 x n
  have k1 : Carried s s1 := traceRec_carried _ _ _ h0
  have k2 : Carried s s2 := Carried.ite (count_carried _ _ _ _ _ _ k1) k1
  have e : x.kept = (getPort s2 a1).kept := by
    unfold x Port.paced
    split <;> rfl
  exact setPort_carried0 _ _ _ (Carried.set k2) e

theorem offer_carried {s : State} (a0 : State) (a1 : Msg) (h0 : Carried s a0) : Carried s (offer a0 a1) := by
  delta offer
  refine Carried.ite ?_ ?_
  · refine Carried.set ?_
    assumption
  · split
    · apply transmit_carried
      assumption
    · refine Carried.set ?_
      assumption

theorem countPaced_carried {s : State} (a0 : State) (a1 : Msg) (h0 : Carried s a0) : Carried s (countPaced a0 a1) := by
  delta countPaced
  split
  · refine Carried.ite ?_ ?_
    · refine setPort_carried0 _ _ _ ?_ rfl
      assumption
    · assumption
  · assumption

theorem send_carried {s : State} (a0 : State) (a1 : Msg) (h0 : Carried s a0) : Carried s (send a0 a1) := by
  delta send
  refine Carried.ite ?_ ?_
  · assumption
  · extract_lets v0 v1 v2 v3 v4
    have k5 : Carried s v4 := by
      unfold v4
      refine Carried.setDomain ?_ rfl
      assumption
    clear_value v4
    apply offer_carried
    apply countPaced_carried
    assumption

theorem sendCmd_carried {s : State} (a0 : State) (a1 : Cmd) (a2 : ℕ) (a3 : ℕ) (a4 : ℕ) (a5 : List ℕ) (a6 : List Byte) (h0 : Carried s a0) : Carried s (sendCmd a0 a1 a2 a3 a4 a5 a6) := by
  delta sendCmd
  apply send_carried
  assumption

theorem fireMsix_carried {s : State} (a0 : State) (a1 : ℕ) (h0 : Carried s a0) : Carried s (fireMsix a0 a1) := by
  delta fireMsix
  refine Carried.ite ?_ ?_
  · refine Carried.set ?_
    assumption
  · assumption

theorem deliver_carried {s : State} (a0 : State) (a1 : Event) (a2 : Option ℕ) (h0 : Carried s a0) : Carried s (deliver a0 a1 a2) := by
  delta deliver
  extract_lets v0 v1 v2 v3 v4 v5
  clear_value v0
  have k6 : Carried s v1.1 := by
    unfold v1
    split
    · dsimp only
      assumption
    · extract_lets v7
      clear_value v7
      dsimp only
      refine Carried.set ?_
      assumption
  clear_value v1
  clear_value v2 v3
  have k8 : Carried s v4 := by
    unfold v4
    assumption
  clear_value v4
  have k9 : Carried s v5.1 := by
    unfold v5
    split
    · dsimp only
      refine Carried.set ?_
      assumption
    · assumption
  clear_value v5
  refine Carried.ite ?_ ?_
  · apply fireMsix_carried
    assumption
  · assumption

theorem raiseOp_carried {s : State} (a0 : State) (a1 : Option (ℕ × ℕ)) (a2 : ℕ) (a3 : ℕ) (a4 : ℕ) (a5 : Bool) (a6 : Option ℕ) (a7 : ℕ) (a8 : ℕ) (a9 : ℕ) (a10 : ℕ) (a11 : ℕ) (a12 : ℕ) (h0 : Carried s a0) : Carried s (raiseOp a0 a1 a2 a3 a4 a5 a6 a7 a8 a9 a10 a11 a12) := by
  delta raiseOp
  extract_lets v0 v1 v2 v3 v4 v5 v6 v7
  have k8 : Carried s v3 := by
    unfold v3
    refine setDie_carried0 _ _ _ ?_ rfl
    assumption
  clear_value v3
  have k9 : Carried s v4 := by
    unfold v4
    apply count_carried
    assumption
  clear_value v4
  have k10 : Carried s v5 := by
    unfold v5
    apply traceRec_carried
    assumption
  clear_value v5
  have k11 : Carried s v6 := by
    unfold v6
    apply fire_carried
    assumption
  clear_value v6
  refine Carried.ite ?_ ?_
  · refine Carried.setPower ?_ rfl
    assumption
  · apply deliver_carried
    assumption

theorem raiseFor_carried {s : State} (a0 : State) (a1 : ℕ) (a2 : ℕ) (a3 : Bool) (a4 : Option ℕ) (a5 : ℕ) (a6 : ℕ) (a7 : ℕ) (a8 : ℕ) (a9 : ℕ) (a10 : ℕ) (h0 : Carried s a0) : Carried s (raiseFor a0 a1 a2 a3 a4 a5 a6 a7 a8 a9 a10) := by
  delta raiseFor
  apply raiseOp_carried
  assumption

theorem raise_carried {s : State} (a0 : State) (a1 : ℕ) (a2 : ℕ) (a3 : ℕ) (a4 : ℕ) (a5 : ℕ) (a6 : ℕ) (a7 : ℕ) (a8 : ℕ) (h0 : Carried s a0) : Carried s (raise a0 a1 a2 a3 a4 a5 a6 a7 a8) := by
  delta raise
  apply raiseFor_carried
  assumption

theorem raiseCmd_carried {s : State} (a0 : State) (a1 : Cmd) (a2 : ℕ) (a3 : ℕ) (a4 : ℕ) (a5 : ℕ) (h0 : Carried s a0) : Carried s (raiseCmd a0 a1 a2 a3 a4 a5) := by
  delta raiseCmd
  apply raiseOp_carried
  assumption

theorem offerTransit_carried {s : State} (a0 : State) (a1 : Sys2Proof.MsgHdr) (h0 : Carried s a0) : Carried s (offerTransit a0 a1) := by
  delta offerTransit
  refine Carried.ite (Carried.set h0) ?_
  extract_lets ps takes o
  cases o with
  | none => exact Carried.set h0
  | some p =>
    refine setPort_carried0 _ _ _ (Carried.set h0) ?_
    show Port.kept (Port.paced a0.time a1.tc (getPort a0 p)) = (getPort a0 p).kept
    unfold Port.paced
    split <;> rfl

theorem offerWaiting_carried {s : State} (a0 : List Msg) (a1 : List Sys2Proof.MsgHdr) (a2 : Bool) (a3 : State) (h0 : Carried s a3) : Carried s (offerWaiting a0 a1 a2 a3) := by
  delta offerWaiting
  refine Carried.foldl _ ?_ (fun t0 b0 h0 => ?_)
  · refine Carried.foldl _ ?_ (fun t0 b0 h0 => ?_)
    · assumption
    · apply offerTransit_carried
      assumption
  · apply offer_carried
    assumption

theorem releaseAll_carried {s : State} (a0 : State) (h0 : Carried s a0) : Carried s (releaseAll a0) := by
  delta releaseAll
  apply offerWaiting_carried
  apply offerWaiting_carried
  refine Carried.set ?_
  assumption

theorem sendDom_carried {s : State} (a0 : State) (a1 : ℕ) (a2 : ℕ) (a3 : List ℕ) (h0 : Carried s a0) : Carried s (sendDom a0 a1 a2 a3) := by
  delta sendDom
  apply send_carried
  assumption

theorem sendSignal_carried {s : State} (a0 : State) (a1 : Cmd) (a2 : ℕ) (a3 : ℕ) (a4 : ℕ) (h0 : Carried s a0) : Carried s (sendSignal a0 a1 a2 a3 a4) := by
  delta sendSignal
  refine Carried.ite ?_ ?_
  · apply raiseCmd_carried
    assumption
  · apply sendCmd_carried
    assumption

theorem raiseMod_carried {s : State} (a0 : State) (a1 : ℕ) (a2 : ℕ) (a3 : ℕ) (a4 : ℕ) (a5 : ℕ) (h0 : Carried s a0) : Carried s (raiseMod a0 a1 a2 a3 a4 a5) := by
  delta raiseMod
  apply raise_carried
  assumption

theorem sendMembers_carried {s : State} (a0 : State) (h0 : Carried s a0) : Carried s (sendMembers a0) := by
  delta sendMembers
  refine Carried.foldl _ ?_ (fun t0 b0 h0 => ?_)
  · assumption
  · apply sendDom_carried
    assumption

theorem sendAnnounce_carried {s : State} (a0 : State) (h0 : Carried s a0) : Carried s (sendAnnounce a0) := by
  delta sendAnnounce
  refine Carried.foldl _ ?_ (fun t0 b0 h0 => ?_)
  · assumption
  · apply sendDom_carried
    assumption

theorem sendControl_carried {s : State} (a0 : State) (a1 : ℕ) (a2 : Option ℕ) (h0 : Carried s a0) : Carried s (sendControl a0 a1 a2) := by
  delta sendControl
  extract_lets v0
  clear_value v0
  refine Carried.set ?_
  assumption

/-- A report sends nothing. -/
theorem Told.carried {s t : State} (h : Told s t) : Carried s t :=
  ⟨h.pending, h.time, h.host, h.poundQ, h.remoteSt, h.memRegs, h.cmds, h.nextId, h.serial, h.rings, h.locks, h.jobs, h.ctxs, h.queueRe, h.ended, h.flights, h.fsets, h.shards, h.scheds, h.loans, h.pools, h.objs, h.pfs, h.census, h.watch, h.twatch, h.suspects, h.links, h.roots, h.engines, h.testing, h.testQ, h.changes, h.modEpoch, h.rounds, h.streams, h.sessions, h.counts, h.bufs, h.cxl, h.nextSes, h.dump, h.cfg, h.tap, h.trust, h.power, h.dies, by rw [h.domain], fun p => by unfold getPort; rw [h.ports]⟩

end Sys2Proof.Machine
end

