-- ==== Sys2Proof/Laws/Keeps.lean ====
section
/-! SUPPORT. `Keeps s t`: t comes from s by operations that keep both memories canonical, leave the queue of waiting commands
alone and never take an identity back; and the small lemmas by which one lemma `<name>_keeps` is proved for every operation of
the machine (Laws/KeepsOps, Laws/KeepsPath, Laws/KeepsExec). -/

namespace Sys2Proof.Machine

/-- Both memories stay canonical, the queue is untouched, identities only grow. -/
structure Keeps (s t : State) : Prop where
  mem : Memory.wf s.mem = true → Memory.wf t.mem = true
  host : Memory.wf s.host = true → Memory.wf t.host = true
  pending : t.pending = s.pending
  nextId : s.nextId ≤ t.nextId

theorem Keeps.refl (s : State) : Keeps s s := ⟨id, id, rfl, Nat.le_refl _⟩
theorem Keeps.trans {a b c : State} (h : Keeps a b) (g : Keeps b c) : Keeps a c :=
  ⟨fun x => g.mem (h.mem x), fun x => g.host (h.host x), g.pending.trans h.pending, Nat.le_trans h.nextId g.nextId⟩
theorem Keeps.upd {s x t : State} (h : Keeps s x) (h1 : t.mem = x.mem) (h2 : t.host = x.host) (h3 : t.pending = x.pending)
    (h5 : t.nextId = x.nextId) : Keeps s t :=
  ⟨fun y => h1 ▸ h.mem y, fun y => h2 ▸ h.host y, h3.trans h.pending, h5 ▸ h.nextId⟩
/-- Other fields written. -/
theorem Keeps.set {s x : State} (h : Keeps s x) {time' keys' poison' poundQ' remoteSt' memRegs' cmds' serial' rings' locks' jobs' ctxs' queueRe' ended' flights' fsets' shards' scheds' loans' pools' objs' pfs' census' watch' twatch' suspects' links' dies' roots' engines' testing' testQ' changes' modEpoch' ports' domain' rounds' streams' sent' held' transit' sessions' counts' bufs' cxl' msix' answers' nextSes' sesQ' modQ' sics' cnts' traces' dump' cfg' power' tap' trust' fresh'} :
    Keeps s ⟨x.pending, time', x.mem, x.host, keys', poison', poundQ', remoteSt', memRegs', cmds', x.nextId, serial', rings', locks', jobs', ctxs', queueRe', ended', flights', fsets', shards', scheds', loans', pools', objs', pfs', census', watch', twatch', suspects', links', dies', roots', engines', testing', testQ', changes', modEpoch', ports', domain', rounds', streams', sent', held', transit', sessions', counts', bufs', cxl', msix', answers', nextSes', sesQ', modQ', sics', cnts', traces', dump', cfg', power', tap', trust', fresh'⟩ := Keeps.upd h rfl rfl rfl rfl

/-- Other fields written, and identities given out. -/
theorem Keeps.setId {s x : State} (h : Keeps s x) {n' time' keys' poison' poundQ' remoteSt' memRegs' cmds' serial' rings' locks' jobs' ctxs' queueRe' ended' flights' fsets' shards' scheds' loans' pools' objs' pfs' census' watch' twatch' suspects' links' dies' roots' engines' testing' testQ' changes' modEpoch' ports' domain' rounds' streams' sent' held' transit' sessions' counts' bufs' cxl' msix' answers' nextSes' sesQ' modQ' sics' cnts' traces' dump' cfg' power' tap' trust' fresh'} (hn : x.nextId ≤ n') :
    Keeps s ⟨x.pending, time', x.mem, x.host, keys', poison', poundQ', remoteSt', memRegs', cmds', n', serial', rings', locks', jobs', ctxs', queueRe', ended', flights', fsets', shards', scheds', loans', pools', objs', pfs', census', watch', twatch', suspects', links', dies', roots', engines', testing', testQ', changes', modEpoch', ports', domain', rounds', streams', sent', held', transit', sessions', counts', bufs', cxl', msix', answers', nextSes', sesQ', modQ', sics', cnts', traces', dump', cfg', power', tap', trust', fresh'⟩ := ⟨h.mem, h.host, h.pending, Nat.le_trans h.nextId hn⟩

/-- Local memory and other fields written. -/
theorem Keeps.setMem {s x : State} (h : Keeps s x) {m' time' keys' poison' poundQ' remoteSt' memRegs' cmds' serial' rings' locks' jobs' ctxs' queueRe' ended' flights' fsets' shards' scheds' loans' pools' objs' pfs' census' watch' twatch' suspects' links' dies' roots' engines' testing' testQ' changes' modEpoch' ports' domain' rounds' streams' sent' held' transit' sessions' counts' bufs' cxl' msix' answers' nextSes' sesQ' modQ' sics' cnts' traces' dump' cfg' power' tap' trust' fresh'} (hm : Memory.wf x.mem = true → Memory.wf m' = true) :
    Keeps s ⟨x.pending, time', m', x.host, keys', poison', poundQ', remoteSt', memRegs', cmds', x.nextId, serial', rings', locks', jobs', ctxs', queueRe', ended', flights', fsets', shards', scheds', loans', pools', objs', pfs', census', watch', twatch', suspects', links', dies', roots', engines', testing', testQ', changes', modEpoch', ports', domain', rounds', streams', sent', held', transit', sessions', counts', bufs', cxl', msix', answers', nextSes', sesQ', modQ', sics', cnts', traces', dump', cfg', power', tap', trust', fresh'⟩ := ⟨fun q => hm (h.mem q), h.host, h.pending, h.nextId⟩

/-- Host memory and other fields written. -/
theorem Keeps.setHost {s x : State} (h : Keeps s x) {m' time' keys' poison' poundQ' remoteSt' memRegs' cmds' serial' rings' locks' jobs' ctxs' queueRe' ended' flights' fsets' shards' scheds' loans' pools' objs' pfs' census' watch' twatch' suspects' links' dies' roots' engines' testing' testQ' changes' modEpoch' ports' domain' rounds' streams' sent' held' transit' sessions' counts' bufs' cxl' msix' answers' nextSes' sesQ' modQ' sics' cnts' traces' dump' cfg' power' tap' trust' fresh'} (hm : Memory.wf x.host = true → Memory.wf m' = true) :
    Keeps s ⟨x.pending, time', x.mem, m', keys', poison', poundQ', remoteSt', memRegs', cmds', x.nextId, serial', rings', locks', jobs', ctxs', queueRe', ended', flights', fsets', shards', scheds', loans', pools', objs', pfs', census', watch', twatch', suspects', links', dies', roots', engines', testing', testQ', changes', modEpoch', ports', domain', rounds', streams', sent', held', transit', sessions', counts', bufs', cxl', msix', answers', nextSes', sesQ', modQ', sics', cnts', traces', dump', cfg', power', tap', trust', fresh'⟩ := ⟨h.mem, fun q => hm (h.host q), h.pending, h.nextId⟩

theorem Keeps.ite {s a b : State} {c : Prop} [Decidable c] (ha : Keeps s a) (hb : Keeps s b) : Keeps s (if c then a else b) := by
  split
  · exact ha
  · exact hb
/-- Keeps, of whatever next state an outcome answers. -/
def KeepsO (s : State) (o : Host.Outcome State Fault Refusal) : Prop := ∀ t, o = .next t → Keeps s t
theorem KeepsO.next {s t : State} (h : Keeps s t) : KeepsO s (.next t) := fun _ e => by cases e; exact h
theorem KeepsO.stop {s : State} {o : Host.Outcome State Fault Refusal} (h : ∀ t, o ≠ .next t) : KeepsO s o := fun t e => absurd e (h t)

def KeepsR (s : State) (r : StartRes) : Prop := match r with | .go t _ => Keeps s t | _ => True
theorem KeepsR.go {s t : State} {c : Cmd} (h : Keeps s t) : KeepsR s (.go t c) := h
theorem KeepsR.out {s t : State} {r : StartRes} {c : Cmd} (h : KeepsR s r) (e : r = .go t c) : Keeps s t := by
  subst e
  exact h

theorem KeepsO.ite {s : State} {a b : Host.Outcome State Fault Refusal} {c : Prop} [Decidable c] (ha : KeepsO s a) (hb : KeepsO s b) :
    KeepsO s (if c then a else b) := by
  split
  · exact ha
  · exact hb
theorem KeepsR.ite {s : State} {a b : StartRes} {c : Prop} [Decidable c] (ha : KeepsR s a) (hb : KeepsR s b) : KeepsR s (if c then a else b) := by
  split
  · exact ha
  · exact hb
theorem Keeps.foldl {α : Type} {s x : State} {g : State → α → State} (l : List α) (h : Keeps s x) (hg : ∀ t a, Keeps s t → Keeps s (g t a)) :
    Keeps s (l.foldl g x) := by
  induction l generalizing x with
  | nil => exact h
  | cons a l ih => exact ih (hg x a h)
theorem Keeps.foldlP {α β : Type} {s : State} {x : State × β} {g : State × β → α → State × β} (l : List α) (h : Keeps s x.1)
    (hg : ∀ t a, Keeps s t.1 → Keeps s (g t a).1) : Keeps s (l.foldl g x).1 := by
  induction l generalizing x with
  | nil => exact h
  | cons a l ih => exact ih (hg x a h)

theorem wrLocal_keeps {s : State} (a0 : State) (a1 a2 : Nat) (a3 : List Byte) (h0 : Keeps s a0) : Keeps s (wrLocal a0 a1 a2 a3) := by
  delta wrLocal
  exact Keeps.setMem h0 (memWrite_wf _ _)

theorem wrPlain_keeps {s : State} (a0 : State) (a1 : Nat) (a2 : List Byte) (h0 : Keeps s a0) : Keeps s (wrPlain a0 a1 a2) := by
  delta wrPlain
  exact Keeps.setMem h0 (memWrite_wf _ _)

theorem wrHost_keeps {s : State} (a0 : State) (a1 : Nat) (a2 : List Byte) (h0 : Keeps s a0) : Keeps s (wrHost a0 a1 a2) := by
  delta wrHost
  exact Keeps.setHost h0 (memWrite_wf _ _)
end Sys2Proof.Machine
end

