-- ==== Sys2Proof/Laws/SameLocks.lean ====
section
/-! SUPPORT. What leaves the locks as they are: one lemma `<name>_sameLocks` per operation. -/

set_option linter.unusedVariables false

namespace Sys2Proof.Machine

/-- No lock has changed. -/
structure SameLocks (s t : State) : Prop where
  locks : t.locks = s.locks

theorem SameLocks.refl (s : State) : SameLocks s s := ⟨rfl⟩
theorem SameLocks.trans {a b c : State} (h : SameLocks a b) (g : SameLocks b c) : SameLocks a c :=
  ⟨g.locks.trans h.locks⟩
/-- Other fields written. -/
theorem SameLocks.set {s x : State} (h : SameLocks s x) {pending' time' mem' host' keys' poison' poundQ' remoteSt' memRegs' cmds' nextId' serial' rings' jobs' ctxs' queueRe' ended' flights' fsets' shards' scheds' loans' pools' objs' pfs' census' watch' twatch' suspects' links' dies' roots' engines' testing' testQ' changes' modEpoch' ports' domain' rounds' streams' sent' held' transit' sessions' counts' bufs' cxl' msix' answers' nextSes' sesQ' modQ' sics' cnts' traces' dump' cfg' power' tap' trust' fresh'} :
    SameLocks s ⟨pending', time', mem', host', keys', poison', poundQ', remoteSt', memRegs', cmds', nextId', serial', rings', x.locks, jobs', ctxs', queueRe', ended', flights', fsets', shards', scheds', loans', pools', objs', pfs', census', watch', twatch', suspects', links', dies', roots', engines', testing', testQ', changes', modEpoch', ports', domain', rounds', streams', sent', held', transit', sessions', counts', bufs', cxl', msix', answers', nextSes', sesQ', modQ', sics', cnts', traces', dump', cfg', power', tap', trust', fresh'⟩ := ⟨h.locks⟩
theorem SameLocks.ite {s a b : State} {c : Prop} [Decidable c] (ha : SameLocks s a) (hb : SameLocks s b) : SameLocks s (if c then a else b) := by
  split
  · exact ha
  · exact hb
theorem SameLocks.foldl {α : Type} {s x : State} {g : State → α → State} (l : List α) (h : SameLocks s x) (hg : ∀ t a, SameLocks s t → SameLocks s (g t a)) :
    SameLocks s (l.foldl g x) := by
  induction l generalizing x with
  | nil => exact h
  | cons a l ih => exact ih (hg x a h)
theorem SameLocks.foldlP {α β : Type} {s : State} {x : State × β} {g : State × β → α → State × β} (l : List α) (h : SameLocks s x.1)
    (hg : ∀ t a, SameLocks s t.1 → SameLocks s (g t a).1) : SameLocks s (l.foldl g x).1 := by
  induction l generalizing x with
  | nil => exact h
  | cons a l ih => exact ih (hg x a h)
def SameLocksO (s : State) (o : Host.Outcome State Fault Refusal) : Prop := ∀ t, o = .next t → SameLocks s t
theorem SameLocksO.next {s t : State} (h : SameLocks s t) : SameLocksO s (.next t) := fun _ e => by cases e; exact h
theorem SameLocksO.stop {s : State} {o : Host.Outcome State Fault Refusal} (h : ∀ t, o ≠ .next t) : SameLocksO s o := fun t e => absurd e (h t)
theorem SameLocksO.ite {s : State} {a b : Host.Outcome State Fault Refusal} {c : Prop} [Decidable c] (ha : SameLocksO s a) (hb : SameLocksO s b) :
    SameLocksO s (if c then a else b) := by
  split
  · exact ha
  · exact hb
def SameLocksR (s : State) (r : StartRes) : Prop := match r with | .go t _ => SameLocks s t | _ => True
theorem SameLocksR.go {s t : State} {c : Cmd} (h : SameLocks s t) : SameLocksR s (.go t c) := h
theorem SameLocksR.ite {s : State} {a b : StartRes} {c : Prop} [Decidable c] (ha : SameLocksR s a) (hb : SameLocksR s b) : SameLocksR s (if c then a else b) := by
  split
  · exact ha
  · exact hb

theorem wrLocal_sameLocks {s : State} (a0 : State) (a1 : ℕ) (a2 : ℕ) (a3 : List Byte) (h0 : SameLocks s a0) : SameLocks s (wrLocal a0 a1 a2 a3) := by
  delta wrLocal
  refine SameLocks.set ?_
  assumption

theorem syncPool_sameLocks {s : State} (a0 : State) (a1 : ℕ) (h0 : SameLocks s a0) : SameLocks s (syncPool a0 a1) := by
  delta syncPool
  split
  · assumption
  · extract_lets v0 v1
    clear_value v0 v1
    apply wrLocal_sameLocks
    apply wrLocal_sameLocks
    assumption

theorem putObj_sameLocks {s : State} (a0 : State) (a1 : ℕ) (a2 : ResObj) (h0 : SameLocks s a0) : SameLocks s (putObj a0 a1 a2) := by
  delta putObj
  extract_lets v0 v1 v2 v3 v4
  have k5 : SameLocks s v0 := by
    unfold v0
    refine SameLocks.set ?_
    assumption
  clear_value v0
  clear_value v1
  have k6 : SameLocks s v2 := by
    unfold v2
    apply wrLocal_sameLocks
    assumption
  clear_value v2
  have k7 : SameLocks s v3 := by
    unfold v3
    apply wrLocal_sameLocks
    assumption
  clear_value v3
  have k8 : SameLocks s v4 := by
    unfold v4
    apply wrLocal_sameLocks
    assumption
  clear_value v4
  apply syncPool_sameLocks
  apply syncPool_sameLocks
  assumption

theorem setCnt_sameLocks {s : State} (a0 : State) (a1 : ℕ) (a2 : CntBlock) (h0 : SameLocks s a0) : SameLocks s (setCnt a0 a1 a2) := by
  delta setCnt
  refine SameLocks.set ?_
  assumption

theorem setSic_sameLocks {s : State} (a0 : State) (a1 : ℕ) (a2 : Sic) (h0 : SameLocks s a0) : SameLocks s (setSic a0 a1 a2) := by
  delta setSic
  refine SameLocks.set ?_
  assumption

theorem fire_sameLocks {s : State} (a0 : State) (a1 : ℕ) (a2 : ℕ) (h0 : SameLocks s a0) : SameLocks s (fire a0 a1 a2) := by
  delta fire
  refine SameLocks.ite ?_ ?_
  · assumption
  · apply setSic_sameLocks
    assumption

theorem count_sameLocks {s : State} (a0 : State) (a1 : ℕ) (a2 : ℕ × ℕ) (a3 : ℕ) (a4 : ℕ) (a5 : Option (ℕ × ℕ)) (h0 : SameLocks s a0) : SameLocks s (count a0 a1 a2 a3 a4 a5) := by
  delta count
  refine SameLocks.ite ?_ ?_
  · assumption
  · extract_lets v0 v1 v2
    clear_value v0 v1
    have k3 : SameLocks s v2 := by
      unfold v2
      apply setCnt_sameLocks
      assumption
    clear_value v2
    refine SameLocks.ite ?_ ?_
    · assumption
    · apply fire_sameLocks
      assumption

theorem wrHost_sameLocks {s : State} (a0 : State) (a1 : ℕ) (a2 : List Byte) (h0 : SameLocks s a0) : SameLocks s (wrHost a0 a1 a2) := by
  delta wrHost
  refine SameLocks.set ?_
  assumption

theorem setPort_sameLocks {s : State} (a0 : State) (a1 : ℕ) (a2 : Port) (h0 : SameLocks s a0) : SameLocks s (setPort a0 a1 a2) := by
  delta setPort
  refine SameLocks.set ?_
  assumption

theorem setTrace_sameLocks {s : State} (a0 : State) (a1 : ℕ) (a2 : Trace) (h0 : SameLocks s a0) : SameLocks s (setTrace a0 a1 a2) := by
  delta setTrace
  refine SameLocks.set ?_
  assumption

theorem trPut_sameLocks {s : State} (a0 : State) (a1 : Trace) (a2 : ℕ) (a3 : List Byte) (h0 : SameLocks s a0) : SameLocks s (trPut a0 a1 a2 a3) := by
  delta trPut
  extract_lets v0
  clear_value v0
  split
  · assumption
  · refine SameLocks.ite ?_ ?_
    · apply wrLocal_sameLocks
      assumption
    · assumption

theorem traceRec_sameLocks {s : State} (a0 : State) (a1 : ℕ) (a2 : TrRec) (h0 : SameLocks s a0) : SameLocks s (traceRec a0 a1 a2) := by
  delta traceRec
  extract_lets v0 v1 v2 v3 v4 v5 v6 v7 v8 v9 v10 v11 v12 v13 v14 v15 v16 v17 v18 v19 v20 v21 v22
  clear_value v0 v1 v2 v3 v4 v5 v6
  have k23 : SameLocks s v7 := by
    unfold v7
    apply trPut_sameLocks
    assumption
  clear_value v7
  clear_value v8 v9 v10 v11 v12 v13 v14 v15
  have k24 : SameLocks s v16.1 := by
    unfold v16
    split
    · dsimp only
      apply fire_sameLocks
      assumption
    · split
      · dsimp only
        apply trPut_sameLocks
        assumption
      · dsimp only
        assumption
  clear_value v16
  have k25 : SameLocks s v17 := by
    unfold v17
    assumption
  clear_value v17
  clear_value v18 v19 v20 v21
  have k26 : SameLocks s v22 := by
    unfold v22
    apply count_sameLocks
    assumption
  clear_value v22
  refine SameLocks.ite ?_ ?_
  · assumption
  · refine SameLocks.ite ?_ ?_
    · apply fire_sameLocks
      apply setTrace_sameLocks
      assumption
    · apply setTrace_sameLocks
      assumption

theorem transmit_sameLocks {s : State} (a0 : State) (a1 : ℕ) (a2 : Msg) (h0 : SameLocks s a0) : SameLocks s (transmit a0 a1 a2) := by
  delta transmit
  extract_lets v0 v1 v2 v3
  have k4 : SameLocks s v0 := by
    unfold v0
    apply traceRec_sameLocks
    assumption
  clear_value v0
  have k5 : SameLocks s v1 := by
    unfold v1
    refine SameLocks.ite ?_ ?_
    · apply count_sameLocks
      assumption
    · assumption
  clear_value v1
  clear_value v2 v3
  apply setPort_sameLocks
  refine SameLocks.set ?_
  assumption

theorem offer_sameLocks {s : State} (a0 : State) (a1 : Msg) (h0 : SameLocks s a0) : SameLocks s (offer a0 a1) := by
  delta offer
  refine SameLocks.ite ?_ ?_
  · refine SameLocks.set ?_
    assumption
  · split
    · apply transmit_sameLocks
      assumption
    · refine SameLocks.set ?_
      assumption

theorem countPaced_sameLocks {s : State} (a0 : State) (a1 : Msg) (h0 : SameLocks s a0) : SameLocks s (countPaced a0 a1) := by
  delta countPaced
  split
  · refine SameLocks.ite ?_ ?_
    · apply setPort_sameLocks
      assumption
    · assumption
  · assumption

theorem send_sameLocks {s : State} (a0 : State) (a1 : Msg) (h0 : SameLocks s a0) : SameLocks s (send a0 a1) := by
  delta send
  refine SameLocks.ite ?_ ?_
  · assumption
  · extract_lets v0 v1 v2 v3 v4
    clear_value v0 v1 v2 v3
    have k5 : SameLocks s v4 := by
      unfold v4
      refine SameLocks.set ?_
      assumption
    clear_value v4
    apply offer_sameLocks
    apply countPaced_sameLocks
    assumption

theorem sendWb_sameLocks {s : State} (a0 : State) (a1 : ResObj) (a2 : ℕ) (a3 : ℕ) (a4 : ℕ) (a5 : ℕ) (a6 : List ℕ) (a7 : List Byte) (h0 : SameLocks s a0) : SameLocks s (sendWb a0 a1 a2 a3 a4 a5 a6 a7) := by
  delta sendWb
  apply send_sameLocks
  assumption

theorem stageWb_sameLocks {s : State} (a0 : State) (a1 : ℕ) (a2 : ℕ) (a3 : ℕ) (h0 : SameLocks s a0) : SameLocks s (stageWb a0 a1 a2 a3) := by
  delta stageWb
  split
  · assumption
  · refine SameLocks.ite ?_ ?_
    · extract_lets v0 v1
      have k2 : SameLocks s v0 := by
        unfold v0
        split
        · refine SameLocks.foldl _ ?_ (fun t3 b3 h3 => ?_)
          · assumption
          · apply sendWb_sameLocks
            assumption
        · assumption
      clear_value v0
      clear_value v1
      apply putObj_sameLocks
      assumption
    · apply putObj_sameLocks
      assumption

theorem setMemRegs_sameLocks {s : State} (a0 : State) (a1 : ℕ) (a2 : MemRegs) (h0 : SameLocks s a0) : SameLocks s (setMemRegs a0 a1 a2) := by
  delta setMemRegs
  refine SameLocks.set ?_
  assumption

theorem fireMsix_sameLocks {s : State} (a0 : State) (a1 : ℕ) (h0 : SameLocks s a0) : SameLocks s (fireMsix a0 a1) := by
  delta fireMsix
  refine SameLocks.ite ?_ ?_
  · refine SameLocks.set ?_
    assumption
  · assumption

theorem deliver_sameLocks {s : State} (a0 : State) (a1 : Event) (a2 : Option ℕ) (h0 : SameLocks s a0) : SameLocks s (deliver a0 a1 a2) := by
  delta deliver
  extract_lets v0 v1 v2 v3 v4 v5
  clear_value v0
  have k6 : SameLocks s v1.1 := by
    unfold v1
    split
    · dsimp only
      assumption
    · extract_lets v7
      clear_value v7
      dsimp only
      refine SameLocks.set ?_
      assumption
  clear_value v1
  clear_value v2 v3
  have k8 : SameLocks s v4 := by
    unfold v4
    assumption
  clear_value v4
  have k9 : SameLocks s v5.1 := by
    unfold v5
    split
    · dsimp only
      refine SameLocks.set ?_
      assumption
    · assumption
  clear_value v5
  refine SameLocks.ite ?_ ?_
  · apply fireMsix_sameLocks
    assumption
  · assumption

theorem setDie_sameLocks {s : State} (a0 : State) (a1 : ℕ) (a2 : Die) (h0 : SameLocks s a0) : SameLocks s (setDie a0 a1 a2) := by
  delta setDie
  refine SameLocks.set ?_
  assumption

theorem raiseOp_sameLocks {s : State} (a0 : State) (a1 : Option (ℕ × ℕ)) (a2 : ℕ) (a3 : ℕ) (a4 : ℕ) (a5 : Bool) (a6 : Option ℕ) (a7 : ℕ) (a8 : ℕ) (a9 : ℕ) (a10 : ℕ) (a11 : ℕ) (a12 : ℕ) (h0 : SameLocks s a0) : SameLocks s (raiseOp a0 a1 a2 a3 a4 a5 a6 a7 a8 a9 a10 a11 a12) := by
  delta raiseOp
  extract_lets v0 v1 v2 v3 v4 v5 v6 v7
  clear_value v0 v1 v2
  have k8 : SameLocks s v3 := by
    unfold v3
    apply setDie_sameLocks
    assumption
  clear_value v3
  have k9 : SameLocks s v4 := by
    unfold v4
    apply count_sameLocks
    assumption
  clear_value v4
  have k10 : SameLocks s v5 := by
    unfold v5
    apply traceRec_sameLocks
    assumption
  clear_value v5
  have k11 : SameLocks s v6 := by
    unfold v6
    apply fire_sameLocks
    assumption
  clear_value v6
  clear_value v7
  refine SameLocks.ite ?_ ?_
  · refine SameLocks.set ?_
    assumption
  · apply deliver_sameLocks
    assumption

theorem raiseFor_sameLocks {s : State} (a0 : State) (a1 : ℕ) (a2 : ℕ) (a3 : Bool) (a4 : Option ℕ) (a5 : ℕ) (a6 : ℕ) (a7 : ℕ) (a8 : ℕ) (a9 : ℕ) (a10 : ℕ) (h0 : SameLocks s a0) : SameLocks s (raiseFor a0 a1 a2 a3 a4 a5 a6 a7 a8 a9 a10) := by
  delta raiseFor
  apply raiseOp_sameLocks
  assumption

theorem raise_sameLocks {s : State} (a0 : State) (a1 : ℕ) (a2 : ℕ) (a3 : ℕ) (a4 : ℕ) (a5 : ℕ) (a6 : ℕ) (a7 : ℕ) (a8 : ℕ) (h0 : SameLocks s a0) : SameLocks s (raise a0 a1 a2 a3 a4 a5 a6 a7 a8) := by
  delta raise
  apply raiseFor_sameLocks
  assumption

theorem raiseMod_sameLocks {s : State} (a0 : State) (a1 : ℕ) (a2 : ℕ) (a3 : ℕ) (a4 : ℕ) (a5 : ℕ) (h0 : SameLocks s a0) : SameLocks s (raiseMod a0 a1 a2 a3 a4 a5) := by
  delta raiseMod
  apply raise_sameLocks
  assumption

theorem markRetired_sameLocks {s : State} (a0 : State) (a1 : ℕ) (h0 : SameLocks s a0) : SameLocks s (markRetired a0 a1) := by
  delta markRetired
  extract_lets v0 v1 v2 v3
  clear_value v0 v1 v2 v3
  refine SameLocks.ite ?_ ?_
  · assumption
  · apply raiseMod_sameLocks
    apply setMemRegs_sameLocks
    assumption

theorem memError_sameLocks {s : State} (a0 : State) (a1 : ℕ) (a2 : ℕ) (a3 : ℕ) (a4 : ℕ) (a5 : ℕ) (a6 : Option ℕ) (a7 : ℕ) (h0 : SameLocks s a0) : SameLocks s (memError a0 a1 a2 a3 a4 a5 a6 a7) := by
  delta memError
  extract_lets v0 v1 v2 v3 v4
  clear_value v0 v1
  have k5 : SameLocks s v2 := by
    unfold v2
    apply setMemRegs_sameLocks
    assumption
  clear_value v2
  have k6 : SameLocks s v3 := by
    unfold v3
    refine SameLocks.ite ?_ ?_
    · apply fire_sameLocks
      assumption
    · assumption
  clear_value v3
  have k7 : SameLocks s v4 := by
    unfold v4
    apply raiseFor_sameLocks
    assumption
  clear_value v4
  refine SameLocks.ite ?_ ?_
  · apply markRetired_sameLocks
    assumption
  · assumption

theorem clearCopy_sameLocks {s : State} (a0 : State) (a1 : ℕ) (a2 : ℕ) (h0 : SameLocks s a0) : SameLocks s (clearCopy a0 a1 a2) := by
  delta clearCopy
  split
  · assumption
  · apply putObj_sameLocks
    apply count_sameLocks
    assumption

theorem removeCopy_sameLocks {s : State} (a0 : State) (a1 : ℕ) (a2 : ℕ) (h0 : SameLocks s a0) : SameLocks s (removeCopy a0 a1 a2) := by
  delta removeCopy
  split
  · assumption
  · extract_lets v0 v1
    clear_value v0
    have k2 : SameLocks s v1 := by
      unfold v1
      split
      · apply memError_sameLocks
        assumption
      · assumption
    clear_value v1
    refine SameLocks.ite ?_ ?_
    · assumption
    · refine SameLocks.ite ?_ ?_
      · apply clearCopy_sameLocks
        assumption
      · split
        · apply putObj_sameLocks
          assumption
        · apply stageWb_sameLocks
          refine SameLocks.set ?_
          assumption

theorem unpinUse_sameLocks {s : State} (a0 : State) (a1 : ℕ) (a2 : ℕ) (h0 : SameLocks s a0) : SameLocks s (unpinUse a0 a1 a2) := by
  delta unpinUse
  split
  · assumption
  · extract_lets v0 v1 v2
    clear_value v0 v1
    have k3 : SameLocks s v2 := by
      unfold v2
      apply putObj_sameLocks
      assumption
    clear_value v2
    refine SameLocks.ite ?_ ?_
    · apply removeCopy_sameLocks
      assumption
    · assumption

theorem sendCmd_sameLocks {s : State} (a0 : State) (a1 : Cmd) (a2 : ℕ) (a3 : ℕ) (a4 : ℕ) (a5 : List ℕ) (a6 : List Byte) (h0 : SameLocks s a0) : SameLocks s (sendCmd a0 a1 a2 a3 a4 a5 a6) := by
  delta sendCmd
  apply send_sameLocks
  assumption

theorem jobCount_sameLocks {s : State} (a0 : State) (a1 : ℕ) (a2 : ℕ) (a3 : ℕ) (a4 : ℕ) (a5 : ℕ) (h0 : SameLocks s a0) : SameLocks s (jobCount a0 a1 a2 a3 a4 a5) := by
  delta jobCount
  split
  · assumption
  · extract_lets v0 v1 v2 v3
    clear_value v0 v1 v2 v3
    refine SameLocks.ite ?_ ?_
    · refine SameLocks.ite ?_ ?_
      · apply wrHost_sameLocks
        assumption
      · assumption
    · apply wrLocal_sameLocks
      assumption

theorem endStall_sameLocks {s : State} (a0 : State) (a1 : Cmd) (h0 : SameLocks s a0) : SameLocks s (endStall a0 a1).1 := by
  delta endStall
  split
  · dsimp only
    assumption
  · extract_lets v0 v1 v2 v3 v4
    clear_value v0
    have k5 : SameLocks s v1 := by
      unfold v1
      apply jobCount_sameLocks
      assumption
    clear_value v1
    have k6 : SameLocks s v2 := by
      unfold v2
      refine SameLocks.ite ?_ ?_
      · assumption
      · apply jobCount_sameLocks
        assumption
    clear_value v2
    clear_value v3
    have k7 : SameLocks s v4 := by
      unfold v4
      apply traceRec_sameLocks
      assumption
    clear_value v4
    dsimp only
    assumption

theorem engineDone_sameLocks {s : State} (a0 : State) (a1 : Cmd) (h0 : SameLocks s a0) : SameLocks s (engineDone a0 a1) := by
  delta engineDone
  split
  · refine SameLocks.ite ?_ ?_
    · apply fire_sameLocks
      assumption
    · refine SameLocks.ite ?_ ?_
      · apply fire_sameLocks
        assumption
      · refine SameLocks.ite ?_ ?_
        · apply fire_sameLocks
          assumption
        · assumption
  · assumption

theorem drift_sameLocks {s : State} (a0 : State) (a1 : Option (ℕ × ℕ)) (h0 : SameLocks s a0) : SameLocks s (drift a0 a1) := by
  delta drift
  refine SameLocks.foldl _ ?_ (fun t0 b0 h0 => ?_)
  · assumption
  · refine SameLocks.foldl _ ?_ (fun t1 b1 h1 => ?_)
    · assumption
    · extract_lets v2
      clear_value v2
      refine SameLocks.ite ?_ ?_
      · apply count_sameLocks
        refine SameLocks.set ?_
        assumption
      · assumption

theorem dropCmd_sameLocks {s : State} (a0 : State) (a1 : ℕ) (h0 : SameLocks s a0) : SameLocks s (dropCmd a0 a1) := by
  delta dropCmd
  refine SameLocks.set ?_
  assumption

theorem putCmd_sameLocks {s : State} (a0 : State) (a1 : Cmd) (h0 : SameLocks s a0) : SameLocks s (putCmd a0 a1) := by
  delta putCmd
  refine SameLocks.set ?_
  assumption

theorem raiseCmd_sameLocks {s : State} (a0 : State) (a1 : Cmd) (a2 : ℕ) (a3 : ℕ) (a4 : ℕ) (a5 : ℕ) (h0 : SameLocks s a0) : SameLocks s (raiseCmd a0 a1 a2 a3 a4 a5) := by
  delta raiseCmd
  apply raiseOp_sameLocks
  assumption

theorem markDirty_sameLocks {s : State} (a0 : State) (a1 : List SWrite) (h0 : SameLocks s a0) : SameLocks s (markDirty a0 a1) := by
  delta markDirty
  refine SameLocks.foldl _ ?_ (fun t0 b0 h0 => ?_)
  · assumption
  · refine SameLocks.foldl _ ?_ (fun t1 b1 h1 => ?_)
    · assumption
    · split
      · assumption
      · extract_lets v2
        clear_value v2
        refine SameLocks.ite ?_ ?_
        · apply putObj_sameLocks
          assumption
        · assumption

theorem publishWrites_sameLocks {s : State} (a0 : State) (a1 : ℕ) (a2 : List SWrite) (h0 : SameLocks s a0) : SameLocks s (publishWrites a0 a1 a2) := by
  delta publishWrites
  extract_lets v0
  have k1 : SameLocks s v0 := by
    unfold v0
    refine SameLocks.foldl _ ?_ (fun t2 b2 h2 => ?_)
    · assumption
    · refine SameLocks.ite ?_ ?_
      · apply wrLocal_sameLocks
        assumption
      · refine SameLocks.ite ?_ ?_
        · apply wrHost_sameLocks
          assumption
        · assumption
  clear_value v0
  refine SameLocks.set ?_
  assumption

theorem poundPublish_sameLocks {s : State} (a0 : State) (a1 : ℕ) (a2 : List SWrite) (h0 : SameLocks s a0) : SameLocks s (poundPublish a0 a1 a2) := by
  delta poundPublish
  refine SameLocks.foldl _ ?_ (fun t0 b0 h0 => ?_)
  · assumption
  · refine SameLocks.ite ?_ ?_
    · refine SameLocks.foldl _ ?_ (fun t1 b1 h1 => ?_)
      · assumption
      · extract_lets v2
        clear_value v2
        refine SameLocks.ite ?_ ?_
        · assumption
        · refine SameLocks.set ?_
          assumption
    · assumption

theorem endHold_sameLocks {s : State} (a0 : State) (a1 : ℕ × ℕ) (h0 : SameLocks s a0) : SameLocks s (endHold a0 a1) := by
  delta endHold
  split
  · assumption
  · apply unpinUse_sameLocks
    assumption

theorem killWb_sameLocks {s : State} (a0 : State) (a1 : ℕ) (a2 : ℕ) (h0 : SameLocks s a0) : SameLocks s (killWb a0 a1 a2) := by
  delta killWb
  split
  · assumption
  · split
    · assumption
    · extract_lets v0 v1
      have k2 : SameLocks s v0 := by
        unfold v0
        split
        · refine SameLocks.ite ?_ ?_
          · apply sendWb_sameLocks
            assumption
          · assumption
        · assumption
      clear_value v0
      clear_value v1
      apply putObj_sameLocks
      assumption

theorem moduleWrite_sameLocks {s : State} (a0 : State) (a1 : ℕ) (a2 : ℕ) (a3 : GAddr) (a4 : List Byte) (h0 : SameLocks s a0) : SameLocks s (moduleWrite a0 a1 a2 a3 a4) := by
  delta moduleWrite
  extract_lets v0
  clear_value v0
  split
  · refine SameLocks.ite ?_ ?_
    · assumption
    · extract_lets v1 v2 v3
      have k4 : SameLocks s v1 := by
        unfold v1
        split
        · apply killWb_sameLocks
          assumption
        · assumption
      clear_value v1
      clear_value v2
      have k5 : SameLocks s v3 := by
        unfold v3
        refine SameLocks.ite ?_ ?_
        · refine SameLocks.ite ?_ ?_
          · apply wrHost_sameLocks
            assumption
          · assumption
        · refine SameLocks.ite ?_ ?_
          · apply wrLocal_sameLocks
            assumption
          · assumption
      clear_value v3
      apply markDirty_sameLocks
      assumption
  · refine SameLocks.ite ?_ ?_
    · refine SameLocks.ite ?_ ?_
      · apply wrHost_sameLocks
        assumption
      · assumption
    · refine SameLocks.ite ?_ ?_
      · apply wrLocal_sameLocks
        assumption
      · assumption

theorem ringEntry_sameLocks {s : State} (a0 : State) (a1 : ℕ) (a2 : ℕ) (a3 : ℕ) (a4 : ℕ) (a5 : List Byte) (h0 : SameLocks s a0) : SameLocks s (ringEntry a0 a1 a2 a3 a4 a5) := by
  delta ringEntry
  extract_lets v0 v1 v2 v3 v4
  clear_value v0 v1 v2 v3
  have k5 : SameLocks s v4 := by
    unfold v4
    apply moduleWrite_sameLocks
    assumption
  clear_value v4
  refine SameLocks.ite ?_ ?_
  · apply moduleWrite_sameLocks
    assumption
  · apply moduleWrite_sameLocks
    assumption

theorem writeEntries_sameLocks {s : State} (a0 : State) (a1 : Cmd) (h0 : SameLocks s a0) : SameLocks s (writeEntries a0 a1) := by
  delta writeEntries
  extract_lets v0
  have k1 : SameLocks s v0 := by
    unfold v0
    split
    · refine SameLocks.ite ?_ ?_
      · refine SameLocks.foldl _ ?_ (fun t2 b2 h2 => ?_)
        · assumption
        · refine SameLocks.ite ?_ ?_
          · assumption
          · apply ringEntry_sameLocks
            assumption
      · assumption
    · assumption
  clear_value v0
  refine SameLocks.foldl _ ?_ (fun t3 b3 h3 => ?_)
  · assumption
  · refine SameLocks.foldl _ ?_ (fun t4 b4 h4 => ?_)
    · assumption
    · refine SameLocks.ite ?_ ?_
      · extract_lets v5
        clear_value v5
        apply ringEntry_sameLocks
        assumption
      · assumption

theorem countWork_sameLocks {s : State} (a0 : State) (a1 : Cmd) (h0 : SameLocks s a0) : SameLocks s (countWork a0 a1) := by
  delta countWork
  extract_lets v0 v1 v2 v3 v4
  clear_value v0 v1 v2 v3 v4
  split
  · assumption
  · refine SameLocks.ite ?_ ?_
    · refine SameLocks.ite ?_ ?_
      · apply count_sameLocks
        assumption
      · assumption
    · refine SameLocks.ite ?_ ?_
      · refine SameLocks.foldl _ ?_ (fun t5 b5 h5 => ?_)
        · assumption
        · apply count_sameLocks
          assumption
      · refine SameLocks.ite ?_ ?_
        · refine SameLocks.foldl _ ?_ (fun t6 b6 h6 => ?_)
          · assumption
          · apply count_sameLocks
            assumption
        · refine SameLocks.ite ?_ ?_
          · refine SameLocks.foldl _ ?_ (fun t7 b7 h7 => ?_)
            · assumption
            · extract_lets v8
              clear_value v8
              apply count_sameLocks
              apply count_sameLocks
              assumption
          · refine SameLocks.ite ?_ ?_
            · apply count_sameLocks
              assumption
            · assumption

theorem putPf_sameLocks {s : State} (a0 : State) (a1 : ℕ) (a2 : PfSched) (h0 : SameLocks s a0) : SameLocks s (putPf a0 a1 a2) := by
  delta putPf
  extract_lets v0 v1 v2
  have k3 : SameLocks s v0 := by
    unfold v0
    refine SameLocks.set ?_
    assumption
  clear_value v0
  clear_value v1 v2
  apply wrLocal_sameLocks
  apply wrLocal_sameLocks
  apply wrLocal_sameLocks
  assumption

theorem pinUse_sameLocks {s : State} (a0 : State) (a1 : ℕ) (a2 : ℕ) (h0 : SameLocks s a0) : SameLocks s (pinUse a0 a1 a2) := by
  delta pinUse
  split
  · assumption
  · apply putObj_sameLocks
    assumption

theorem takeCopy_sameLocks {s : State} (a0 : State) (a1 : ℕ) (a2 : ℕ) (h0 : SameLocks s a0) : SameLocks s (takeCopy a0 a1 a2) := by
  delta takeCopy
  apply pinUse_sameLocks
  apply killWb_sameLocks
  assumption

theorem holdPromotion_sameLocks {s : State} (a0 : State) (a1 : ℕ) (a2 : ℕ) (h0 : SameLocks s a0) : SameLocks s (holdPromotion a0 a1 a2) := by
  delta holdPromotion
  extract_lets v0
  have k1 : SameLocks s v0 := by
    unfold v0
    apply takeCopy_sameLocks
    assumption
  clear_value v0
  split
  · assumption
  · apply putObj_sameLocks
    assumption

theorem moveCopy_sameLocks {s : State} (a0 : State) (a1 : ℕ) (a2 : ℕ) (a3 : ℕ) (h0 : SameLocks s a0) : SameLocks s (moveCopy a0 a1 a2 a3) := by
  delta moveCopy
  split
  · assumption
  · extract_lets v0 v1 v2 v3
    clear_value v0 v1
    have k4 : SameLocks s v2 := by
      unfold v2
      apply wrLocal_sameLocks
      assumption
    clear_value v2
    clear_value v3
    apply putObj_sameLocks
    refine SameLocks.set ?_
    assumption

theorem packFrom_sameLocks {s : State} (a0 : Nat) (a1 : List (Nat × Nat × Nat × Nat)) (a2 : State) (h0 : SameLocks s a2) : SameLocks s (packFrom a0 a1 a2) := by
  induction a1 generalizing a0 a2 with
  | nil => exact h0
  | cons x l ih => exact SameLocks.ite (ih _ _ (moveCopy_sameLocks _ _ _ _ h0)) (ih _ _ h0)

theorem packPool_sameLocks {s : State} (a0 : State) (a1 : ℕ) (h0 : SameLocks s a0) : SameLocks s (packPool a0 a1) := by
  delta packPool
  split
  · assumption
  · apply packFrom_sameLocks
    assumption

theorem makeSpace_sameLocks {s : State} (a0 : Nat) (a1 : ResObj) (a2 : Nat) (a3 : State) (h0 : SameLocks s a3) : SameLocks s (makeSpace a0 a1 a2 a3).1 := by
  induction a2 generalizing a3 with
  | zero => exact h0
  | succ n ih =>
    rw [makeSpace]
    split
    · exact h0
    · split
      all_goals
        extract_lets t
        have k : SameLocks s t := by first | exact packPool_sameLocks _ _ h0 | exact h0
        clear_value t
        split
        · exact k
        · split
          · exact k
          · split
            · exact k
            · exact ih _ (removeCopy_sameLocks _ _ _ k)

theorem placePromotion_sameLocks {s : State} (a0 : State) (a1 : ℕ) (a2 : ℕ) (a3 : ℕ) (h0 : SameLocks s a0) : SameLocks s (placePromotion a0 a1 a2 a3) := by
  delta placePromotion
  split
  · assumption
  · refine SameLocks.ite ?_ ?_
    · assumption
    · extract_lets v0
      have k1 : SameLocks s v0.1 := by
        unfold v0
        apply makeSpace_sameLocks
        assumption
      clear_value v0
      split
      · apply putObj_sameLocks
        assumption
      · assumption

theorem startPromotion_sameLocks {s : State} (a0 : State) (a1 : ℕ) (a2 : ℕ) (a3 : ℕ) (h0 : SameLocks s a0) : SameLocks s (startPromotion a0 a1 a2 a3) := by
  delta startPromotion
  split
  · assumption
  · extract_lets v0
    clear_value v0
    apply placePromotion_sameLocks
    apply putObj_sameLocks
    assumption

end Sys2Proof.Machine
end

