-- ==== Sys2Proof/Laws/Locks.lean ====
section
/-! SUPPORT. What each operation on locks does to their counts (R281 to R287). -/

namespace Sys2Proof.Machine

/-- Every lock has kept its count, its job and its eligible setters. -/
def SameCounts (s t : State) : Prop := ∀ l, (getLock t l).count = (getLock s l).count ∧ (getLock t l).job = (getLock s l).job ∧
  (getLock t l).setPending = (getLock s l).setPending ∧ (getLock t l).setters = (getLock s l).setters

theorem SameCounts.refl (s : State) : SameCounts s s := fun _ => ⟨rfl, rfl, rfl, rfl⟩
theorem SameCounts.trans {a b c : State} (h : SameCounts a b) (g : SameCounts b c) : SameCounts a c := fun l =>
  ⟨(g l).1.trans (h l).1, (g l).2.1.trans (h l).2.1, (g l).2.2.1.trans (h l).2.2.1, (g l).2.2.2.trans (h l).2.2.2⟩
theorem SameLocks.counts {s t : State} (h : SameLocks s t) : SameCounts s t := fun l => by unfold getLock; rw [h.locks]; exact ⟨rfl, rfl, rfl, rfl⟩

theorem getLock_setLock (s : State) (l k : Nat) (x : Lock) : getLock (setLock s l x) k = if l = k then x else getLock s k := by
  unfold getLock setLock; exact tget_tset _ _ _ _

theorem setLock_sameCounts (s : State) (l : Nat) (x : Lock) (h : x.count = (getLock s l).count) (j : x.job = (getLock s l).job)
    (p : x.setPending = (getLock s l).setPending) (q : x.setters = (getLock s l).setters) : SameCounts s (setLock s l x) := by
  intro k
  rw [getLock_setLock]
  split
  · next e => subst e; exact ⟨h, j, p, q⟩
  · exact ⟨rfl, rfl, rfl, rfl⟩

theorem grantClaim_counts (s : State) (l c t : Nat) : SameCounts s (grantClaim s l c t) := by
  unfold grantClaim
  split
  · exact SameCounts.refl s
  · next x _ =>
    extract_lets k s1 r s2
    have h1 : SameCounts s s1 := setLock_sameCounts s l _ rfl rfl rfl rfl
    refine h1.trans (SameLocks.counts ?_)
    exact traceRec_sameLocks _ _ _ (putCmd_sameLocks _ _ (endStall_sameLocks _ _ (SameLocks.refl s1)))

theorem evalClaims_counts (l n : Nat) (s : State) : SameCounts s (evalClaims l n s) := by
  induction n generalizing s with
  | zero => exact SameCounts.refl s
  | succ n ih =>
    unfold evalClaims
    extract_lets k
    split
    · exact SameCounts.refl s
    · split
      · exact (setLock_sameCounts s l { k with queue := k.queue.tail } rfl rfl rfl rfl).trans (ih _)
      · split
        · exact (grantClaim_counts _ _ _ _).trans (ih _)
        · exact SameCounts.refl s

theorem reclaim_counts (s : State) (l : Nat) : SameCounts s (reclaim s l) := evalClaims_counts _ _ _

/-- What a lock holds beside its claims, with a count. -/
def CountIs (s t : State) (l n : Nat) : Prop := (getLock t l).count = n ∧ (getLock t l).job = (getLock s l).job ∧
  (getLock t l).setPending = (getLock s l).setPending ∧ (getLock t l).setters = (getLock s l).setters

theorem CountIs.next {s t u : State} {l n : Nat} (h : CountIs s t l n) (g : SameCounts t u) : CountIs s u l n :=
  ⟨(g l).1.trans h.1, (g l).2.1.trans h.2.1, (g l).2.2.1.trans h.2.2.1, (g l).2.2.2.trans h.2.2.2⟩

theorem addCount_counts (s : State) (l n : Nat) (b : Option Cmd) (k : Nat) : CountIs s (addCount s l n b) k (if l = k then min ((getLock s l).count + n) satMax else (getLock s k).count) := by
  unfold addCount
  extract_lets x s1 s2 s3
  have h1 : CountIs s s1 k (if l = k then min ((getLock s l).count + n) satMax else (getLock s k).count) := by
    unfold CountIs
    rw [getLock_setLock]
    split
    · next e => subst e; exact ⟨rfl, rfl, rfl, rfl⟩
    · exact ⟨rfl, rfl, rfl, rfl⟩
  refine h1.next (SameLocks.counts ?_)
  have l3 : SameLocks s1 s3 := traceRec_sameLocks _ _ _ (count_sameLocks _ _ _ _ _ _ (SameLocks.refl s1))
  exact SameLocks.ite (raise_sameLocks _ _ _ _ _ _ _ _ _ l3) l3

theorem signalLock_counts (s : State) (l n job peer : Nat) (b : Option Cmd) (k : Nat) :
    CountIs s (signalLock s l n job peer b) k (if l = k ∧ (getLock s l).job = job then min ((getLock s l).count + n) satMax else (getLock s k).count) := by
  unfold signalLock
  by_cases h : (getLock s l).job = job
  · rw [if_pos h]
    simp only [h, and_true]
    exact (addCount_counts s l n b k).next (reclaim_counts _ _)
  · rw [if_neg h, if_neg fun x => h x.2]
    exact SameLocks.counts (raise_sameLocks _ _ _ _ _ _ _ _ _ (SameLocks.refl s)) k

theorem consume_counts (s : State) (c : Cmd) (k : Nat) :
    CountIs s (consume s c) k (if c.pkt.waitLock = k then (getLock s c.pkt.waitLock).count - c.pkt.waitThresh else (getLock s k).count) := by
  unfold consume
  extract_lets l t y r s1 s2 s3
  have h1 : CountIs s s1 k (if l = k then (getLock s l).count - t else (getLock s k).count) := by
    unfold CountIs
    rw [getLock_setLock]
    split
    · next e => subst e; exact ⟨rfl, rfl, rfl, rfl⟩
    · exact ⟨rfl, rfl, rfl, rfl⟩
  refine h1.next (SameLocks.counts ?_)
  exact SameLocks.foldl _ (traceRec_sameLocks _ _ _ (count_sameLocks _ _ _ _ _ _ (SameLocks.refl s1))) fun _ _ g => endHold_sameLocks _ _ g

/-- COUNT after a command's consumption and the signals of its commit step (R283, R284). -/
def countsTo (s : State) (c : Cmd) (k : Nat) : Nat :=
  if doubleSignal s c = true ∧ sameLock s c = some k then min (countAtCommit s c k + lkValue c) satMax else countAtCommit s c k

/-- What a command's own consumption and signal make of the count of a lock (R283); the count that an LK_SET finds is left open. -/
def Counted (s u : State) (c : Cmd) (k : Nat) : Prop := ∃ n, CountIs s u k n ∧ (c.pkt.clsOp ≠ 0x802 →
  n = if (getLock s k).job = c.pkt.job then countsTo s c k else (getLock s k).count - (if c.pkt.waitLock = k then c.pkt.waitThresh else 0))

theorem CountIs.after {s t u : State} {l n m : Nat} (h : CountIs s t l n) (g : CountIs t u l m) : CountIs s u l m :=
  ⟨g.1, g.2.1.trans h.2.1, g.2.2.1.trans h.2.2.1, g.2.2.2.trans h.2.2.2⟩

theorem CountIs.of {s u : State} (h : SameCounts s u) (k : Nat) : CountIs s u k (getLock s k).count := h k

/-- The consumption of a command's claim. -/
theorem own_consume {s a : State} (c c' : Cmd) (ha : SameCounts s a) (e : c'.pkt = c.pkt) (k : Nat) :
    CountIs s (if c.pkt.waitThresh = 0 then a else consume a c') k
      (if c.pkt.waitThresh ≠ 0 ∧ c.pkt.waitLock = k then (getLock s k).count - c.pkt.waitThresh else (getLock s k).count) := by
  by_cases hz : c.pkt.waitThresh = 0
  · rw [if_pos hz, if_neg fun x => x.1 hz]; exact ha k
  · rw [if_neg hz]
    have h := (CountIs.of ha k).after (consume_counts a c' k)
    rw [e] at h
    by_cases hk : c.pkt.waitLock = k
    · subst hk
      rw [if_pos ⟨hz, rfl⟩]
      rw [if_pos rfl, (ha _).1] at h; exact h
    · rw [if_neg fun x => hk x.2]
      rw [if_neg hk, (ha _).1] at h; exact h

/-- A lock that a command signals in its commit step is its wait lock, or the one that an LK_SET sets (R283, R285). -/
theorem sameLock_is {s : State} {c : Cmd} {l : Nat} (h : sameLock s c = some l) (h2 : c.pkt.clsOp ≠ 0x802) :
    c.pkt.waitThresh ≠ 0 ∧ l = c.pkt.waitLock := by
  unfold sameLock at h
  split at h
  · exact absurd h (by simp)
  · split at h
    · exact absurd h (by simp)
    · next x _ =>
      split at h
      · next hc =>
        rcases hc with hc | hc
        · exact ⟨hc.1, (Option.some.inj h) ▸ hc.2⟩
        · exact absurd hc.1 h2
      · exact absurd h (by simp)

/-- What a command's own signal adds in its commit step: INC, and for an LK_SIGNAL of the same lock VALUE too (R284). -/
def ownSignal (s : State) (c : Cmd) : Nat := c.pkt.sigInc + (if doubleSignal s c then lkValue c else 0)

/-- Consumption, and the signal of the same step. -/
theorem commit_counted {s a : State} (c c' : Cmd) (job peer : Nat) (by_ : Option Cmd) (k : Nat) (e : c'.pkt = c.pkt) (hj : job = c.pkt.job) (ha : SameCounts s a) :
    Counted s (match sameLock s c with
      | some l => signalLock (if c.pkt.waitThresh = 0 then a else consume a c') l (ownSignal s c) job peer by_
      | none => (if c.pkt.waitThresh = 0 then a else consume a c')) c k := by
  subst hj
  have h1 := own_consume c c' ha e
  generalize (if c.pkt.waitThresh = 0 then a else consume a c') = b at *
  cases hs : sameLock s c with
  | none =>
    refine ⟨_, h1 k, fun h2 => ?_⟩
    unfold countsTo countAtCommit
    simp only [hs]
    by_cases hw : c.pkt.waitThresh = 0
    · simp [hw]
    · by_cases hk : c.pkt.waitLock = k
      · simp [hw, hk]
      · simp [hk]
  | some l =>
    have h2 := (h1 k).after (signalLock_counts b l (ownSignal s c) c.pkt.job peer by_ k)
    refine ⟨_, h2, fun hn => ?_⟩
    obtain ⟨hz, rfl⟩ := sameLock_is hs hn
    unfold countsTo countAtCommit ownSignal
    dsimp only
    by_cases hk : c.pkt.waitLock = k
    · subst hk
      rw [(h1 _).1, (h1 _).2.1]
      by_cases hj : (getLock s c.pkt.waitLock).job = c.pkt.job
      · simp only [hj, hz, hs, ne_eq, not_false_eq_true, and_self, if_true, or_self, if_false, not_true_eq_false]
        cases doubleSignal s c
        · simp
        · simp only [if_true, and_self]; omega
      · simp [hz, hj]
    · rw [if_neg fun x => hk x.1, (h1 _).1]
      simp [hk, hs]

end Sys2Proof.Machine
end

