-- ==== Sys2Proof/Laws/Quiet.lean ====
section
/-! SUPPORT. What leaves both memories alone while nothing observes the module's work (`Still`): one lemma `<name>_quiet` per
operation that a commit is made of. -/

set_option linter.unusedVariables false

namespace Sys2Proof.Machine

/-- While nothing observes, no byte of either memory changes, and nothing begins to. -/
def Quiet (s t : State) : Prop := Still s → t.mem = s.mem ∧ t.host = s.host ∧ Still t

theorem Quiet.refl (s : State) : Quiet s s := fun i => ⟨rfl, rfl, i⟩
theorem Quiet.trans {a b c : State} (h : Quiet a b) (g : Quiet b c) : Quiet a c := fun i =>
  ⟨(g (h i).2.2).1.trans (h i).1, (g (h i).2.2).2.1.trans (h i).2.1, (g (h i).2.2).2.2⟩
/-- An operation that does nothing while nothing observes. -/
theorem Quiet.nop {s x t : State} (h : Quiet s x) (g : Still x → t = x) : Quiet s t := fun i => by rw [g (h i).2.2]; exact h i
theorem Still.of {x t : State} (h1 : t.traces = x.traces) (h2 : t.twatch = x.twatch) (h3 : t.objs = x.objs) (h4 : t.census = x.census) (i : Still x) : Still t where
  trace d := by
    have := i.trace d
    unfold getTrace at *
    rw [h1]; exact this
  watch := h2.trans i.watch
  objs := h3.trans i.objs
  census := h4.trans i.census
/-- Other fields written. -/
theorem Quiet.set {s x : State} (h : Quiet s x) {pending' time' keys' poison' poundQ' remoteSt' memRegs' cmds' nextId' serial' rings' locks' jobs' ctxs' queueRe' ended' flights' fsets' shards' scheds' loans' pools' pfs' watch' suspects' links' dies' roots' engines' testing' testQ' changes' modEpoch' ports' domain' rounds' streams' sent' held' transit' sessions' counts' bufs' cxl' msix' answers' nextSes' sesQ' modQ' sics' cnts' dump' cfg' power' tap' trust' fresh'} :
    Quiet s ⟨pending', time', x.mem, x.host, keys', poison', poundQ', remoteSt', memRegs', cmds', nextId', serial', rings', locks', jobs', ctxs', queueRe', ended', flights', fsets', shards', scheds', loans', pools', x.objs, pfs', x.census, watch', x.twatch, suspects', links', dies', roots', engines', testing', testQ', changes', modEpoch', ports', domain', rounds', streams', sent', held', transit', sessions', counts', bufs', cxl', msix', answers', nextSes', sesQ', modQ', sics', cnts', x.traces, dump', cfg', power', tap', trust', fresh'⟩ := fun i => ⟨(h i).1, (h i).2.1, Still.of (x := x) rfl rfl rfl rfl (h i).2.2⟩
theorem Quiet.ite {s a b : State} {c : Prop} [Decidable c] (ha : Quiet s a) (hb : Quiet s b) : Quiet s (if c then a else b) := by
  split
  · exact ha
  · exact hb
theorem Quiet.foldl {α : Type} {s x : State} {g : State → α → State} (l : List α) (h : Quiet s x) (hg : ∀ t a, Quiet s t → Quiet s (g t a)) :
    Quiet s (l.foldl g x) := by
  induction l generalizing x with
  | nil => exact h
  | cons a l ih => exact ih (hg x a h)
theorem Quiet.foldlP {α β : Type} {s : State} {x : State × β} {g : State × β → α → State × β} (l : List α) (h : Quiet s x.1)
    (hg : ∀ t a, Quiet s t.1 → Quiet s (g t a).1) : Quiet s (l.foldl g x).1 := by
  induction l generalizing x with
  | nil => exact h
  | cons a l ih => exact ih (hg x a h)
def QuietO (s : State) (o : Host.Outcome State Fault Refusal) : Prop := ∀ t, o = .next t → Quiet s t
theorem QuietO.next {s t : State} (h : Quiet s t) : QuietO s (.next t) := fun _ e => by cases e; exact h
theorem QuietO.stop {s : State} {o : Host.Outcome State Fault Refusal} (h : ∀ t, o ≠ .next t) : QuietO s o := fun t e => absurd e (h t)
theorem QuietO.ite {s : State} {a b : Host.Outcome State Fault Refusal} {c : Prop} [Decidable c] (ha : QuietO s a) (hb : QuietO s b) :
    QuietO s (if c then a else b) := by
  split
  · exact ha
  · exact hb
def QuietR (s : State) (r : StartRes) : Prop := match r with | .go t _ => Quiet s t | _ => True
theorem QuietR.go {s t : State} {c : Cmd} (h : Quiet s t) : QuietR s (.go t c) := h
theorem QuietR.ite {s : State} {a b : StartRes} {c : Prop} [Decidable c] (ha : QuietR s a) (hb : QuietR s b) : QuietR s (if c then a else b) := by
  split
  · exact ha
  · exact hb

theorem setSic_quiet {s : State} (a0 : State) (a1 : ℕ) (a2 : Sic) (h0 : Quiet s a0) : Quiet s (setSic a0 a1 a2) := by
  delta setSic
  refine Quiet.set ?_
  assumption

theorem fire_quiet {s : State} (a0 : State) (a1 : ℕ) (a2 : ℕ) (h0 : Quiet s a0) : Quiet s (fire a0 a1 a2) := by
  delta fire
  refine Quiet.ite ?_ ?_
  · assumption
  · apply setSic_quiet
    assumption

theorem setCnt_quiet {s : State} (a0 : State) (a1 : ℕ) (a2 : CntBlock) (h0 : Quiet s a0) : Quiet s (setCnt a0 a1 a2) := by
  delta setCnt
  refine Quiet.set ?_
  assumption

theorem count_quiet {s : State} (a0 : State) (a1 : ℕ) (a2 : ℕ × ℕ) (a3 : ℕ) (a4 : ℕ) (a5 : Option (ℕ × ℕ)) (h0 : Quiet s a0) : Quiet s (count a0 a1 a2 a3 a4 a5) := by
  delta count
  refine Quiet.ite ?_ ?_
  · assumption
  · extract_lets v0 v1 v2
    clear_value v0 v1
    have k3 : Quiet s v2 := by
      unfold v2
      apply setCnt_quiet
      assumption
    clear_value v2
    refine Quiet.ite ?_ ?_
    · assumption
    · apply fire_quiet
      assumption

theorem traceRec_quiet {s : State} (a0 : State) (a1 : Nat) (a2 : TrRec) (h0 : Quiet s a0) : Quiet s (traceRec a0 a1 a2) := by
  refine Quiet.nop h0 fun i => ?_
  unfold traceRec
  dsimp only
  rw [if_pos]
  rcases i.trace a1 with h | h
  · exact Or.inl h
  · exact Or.inr (Or.inl h)

theorem jobCount_quiet {s : State} (a0 : State) (a1 a2 a3 a4 a5 : Nat) (h0 : Quiet s a0) : Quiet s (jobCount a0 a1 a2 a3 a4 a5) := by
  refine Quiet.nop h0 fun i => ?_
  unfold jobCount
  rw [i.watch]
  rfl

theorem setPort_quiet {s : State} (a0 : State) (a1 : ℕ) (a2 : Port) (h0 : Quiet s a0) : Quiet s (setPort a0 a1 a2) := by
  delta setPort
  refine Quiet.set ?_
  assumption

theorem countPaced_quiet {s : State} (a0 : State) (a1 : Msg) (h0 : Quiet s a0) : Quiet s (countPaced a0 a1) := by
  delta countPaced
  split
  · refine Quiet.ite ?_ ?_
    · apply setPort_quiet
      assumption
    · assumption
  · assumption

theorem transmit_quiet {s : State} (a0 : State) (a1 : ℕ) (a2 : Msg) (h0 : Quiet s a0) : Quiet s (transmit a0 a1 a2) := by
  delta transmit
  extract_lets v0 v1 v2 v3
  have k4 : Quiet s v0 := by
    unfold v0
    apply traceRec_quiet
    assumption
  clear_value v0
  have k5 : Quiet s v1 := by
    unfold v1
    refine Quiet.ite ?_ ?_
    · apply count_quiet
      assumption
    · assumption
  clear_value v1
  clear_value v2 v3
  apply setPort_quiet
  refine Quiet.set ?_
  assumption

theorem offer_quiet {s : State} (a0 : State) (a1 : Msg) (h0 : Quiet s a0) : Quiet s (offer a0 a1) := by
  delta offer
  refine Quiet.ite ?_ ?_
  · refine Quiet.set ?_
    assumption
  · split
    · apply transmit_quiet
      assumption
    · refine Quiet.set ?_
      assumption

theorem send_quiet {s : State} (a0 : State) (a1 : Msg) (h0 : Quiet s a0) : Quiet s (send a0 a1) := by
  delta send
  refine Quiet.ite ?_ ?_
  · assumption
  · extract_lets v0 v1 v2 v3 v4
    clear_value v0 v1 v2 v3
    have k5 : Quiet s v4 := by
      unfold v4
      refine Quiet.set ?_
      assumption
    clear_value v4
    apply offer_quiet
    apply countPaced_quiet
    assumption

theorem fireMsix_quiet {s : State} (a0 : State) (a1 : ℕ) (h0 : Quiet s a0) : Quiet s (fireMsix a0 a1) := by
  delta fireMsix
  refine Quiet.ite ?_ ?_
  · refine Quiet.set ?_
    assumption
  · assumption

theorem deliver_quiet {s : State} (a0 : State) (a1 : Event) (a2 : Option ℕ) (h0 : Quiet s a0) : Quiet s (deliver a0 a1 a2) := by
  delta deliver
  extract_lets v0 v1 v2 v3 v4 v5
  clear_value v0
  have k6 : Quiet s v1.1 := by
    unfold v1
    split
    · dsimp only
      assumption
    · extract_lets v7
      clear_value v7
      dsimp only
      refine Quiet.set ?_
      assumption
  clear_value v1
  clear_value v2 v3
  have k8 : Quiet s v4 := by
    unfold v4
    assumption
  clear_value v4
  have k9 : Quiet s v5.1 := by
    unfold v5
    split
    · dsimp only
      refine Quiet.set ?_
      assumption
    · assumption
  clear_value v5
  refine Quiet.ite ?_ ?_
  · apply fireMsix_quiet
    assumption
  · assumption

theorem setDie_quiet {s : State} (a0 : State) (a1 : ℕ) (a2 : Die) (h0 : Quiet s a0) : Quiet s (setDie a0 a1 a2) := by
  delta setDie
  refine Quiet.set ?_
  assumption

theorem raiseOp_quiet {s : State} (a0 : State) (a1 : Option (ℕ × ℕ)) (a2 : ℕ) (a3 : ℕ) (a4 : ℕ) (a5 : Bool) (a6 : Option ℕ) (a7 : ℕ) (a8 : ℕ) (a9 : ℕ) (a10 : ℕ) (a11 : ℕ) (a12 : ℕ) (h0 : Quiet s a0) : Quiet s (raiseOp a0 a1 a2 a3 a4 a5 a6 a7 a8 a9 a10 a11 a12) := by
  delta raiseOp
  extract_lets v0 v1 v2 v3 v4 v5 v6 v7
  clear_value v0 v1 v2
  have k8 : Quiet s v3 := by
    unfold v3
    apply setDie_quiet
    assumption
  clear_value v3
  have k9 : Quiet s v4 := by
    unfold v4
    apply count_quiet
    assumption
  clear_value v4
  have k10 : Quiet s v5 := by
    unfold v5
    apply traceRec_quiet
    assumption
  clear_value v5
  have k11 : Quiet s v6 := by
    unfold v6
    apply fire_quiet
    assumption
  clear_value v6
  clear_value v7
  refine Quiet.ite ?_ ?_
  · refine Quiet.set ?_
    assumption
  · apply deliver_quiet
    assumption

theorem raiseFor_quiet {s : State} (a0 : State) (a1 : ℕ) (a2 : ℕ) (a3 : Bool) (a4 : Option ℕ) (a5 : ℕ) (a6 : ℕ) (a7 : ℕ) (a8 : ℕ) (a9 : ℕ) (a10 : ℕ) (h0 : Quiet s a0) : Quiet s (raiseFor a0 a1 a2 a3 a4 a5 a6 a7 a8 a9 a10) := by
  delta raiseFor
  apply raiseOp_quiet
  assumption

theorem raise_quiet {s : State} (a0 : State) (a1 : ℕ) (a2 : ℕ) (a3 : ℕ) (a4 : ℕ) (a5 : ℕ) (a6 : ℕ) (a7 : ℕ) (a8 : ℕ) (h0 : Quiet s a0) : Quiet s (raise a0 a1 a2 a3 a4 a5 a6 a7 a8) := by
  delta raise
  apply raiseFor_quiet
  assumption

theorem removeCopy_quiet {s : State} (a0 : State) (a1 a2 : Nat) (h0 : Quiet s a0) : Quiet s (removeCopy a0 a1 a2) := by
  refine Quiet.nop h0 fun i => ?_
  unfold removeCopy findObj
  rw [i.objs]
  rfl

theorem unpinUse_quiet {s : State} (a0 : State) (a1 a2 : Nat) (h0 : Quiet s a0) : Quiet s (unpinUse a0 a1 a2) := by
  refine Quiet.nop h0 fun i => ?_
  unfold unpinUse findObj
  rw [i.objs]
  rfl

theorem pinUse_quiet {s : State} (a0 : State) (a1 a2 : Nat) (h0 : Quiet s a0) : Quiet s (pinUse a0 a1 a2) := by
  refine Quiet.nop h0 fun i => ?_
  unfold pinUse findObj
  rw [i.objs]
  rfl

theorem dropPromotion_quiet {s : State} (a0 : State) (a1 a2 : Nat) (h0 : Quiet s a0) : Quiet s (dropPromotion a0 a1 a2) := by
  refine Quiet.nop h0 fun i => ?_
  unfold dropPromotion findObj
  rw [i.objs]
  rfl

theorem placePromotion_quiet {s : State} (a0 : State) (a1 a2 a3 : Nat) (h0 : Quiet s a0) : Quiet s (placePromotion a0 a1 a2 a3) := by
  refine Quiet.nop h0 fun i => ?_
  unfold placePromotion findObj
  rw [i.objs]
  rfl

theorem startPromotion_quiet {s : State} (a0 : State) (a1 a2 a3 : Nat) (h0 : Quiet s a0) : Quiet s (startPromotion a0 a1 a2 a3) := by
  refine Quiet.nop h0 fun i => ?_
  unfold startPromotion findObj
  rw [i.objs]
  rfl

theorem markDirty_quiet {s : State} (a0 : State) (a1 : List SWrite) (h0 : Quiet s a0) : Quiet s (markDirty a0 a1) := by
  refine Quiet.nop h0 fun i => ?_
  unfold markDirty
  rw [i.objs]
  rfl

theorem writeEntries_quiet {s : State} (a0 : State) (a1 : Cmd) (h0 : Quiet s a0) : Quiet s (writeEntries a0 a1) := by
  refine Quiet.nop h0 fun i => ?_
  unfold writeEntries
  rw [i.census]
  show List.foldl _ a0 a0.twatch = a0
  rw [i.watch]
  rfl

theorem endHold_quiet {s : State} (a0 : State) (a1 : ℕ × ℕ) (h0 : Quiet s a0) : Quiet s (endHold a0 a1) := by
  delta endHold
  split
  · assumption
  · apply unpinUse_quiet
    assumption

theorem setLock_quiet {s : State} (a0 : State) (a1 : ℕ) (a2 : Lock) (h0 : Quiet s a0) : Quiet s (setLock a0 a1 a2) := by
  delta setLock
  refine Quiet.set ?_
  assumption

theorem consume_quiet {s : State} (a0 : State) (a1 : Cmd) (h0 : Quiet s a0) : Quiet s (consume a0 a1) := by
  delta consume
  extract_lets v0 v1 v2 v3 v4 v5 v6
  clear_value v0 v1 v2 v3
  have k7 : Quiet s v4 := by
    unfold v4
    apply setLock_quiet
    assumption
  clear_value v4
  have k8 : Quiet s v5 := by
    unfold v5
    apply count_quiet
    assumption
  clear_value v5
  have k9 : Quiet s v6 := by
    unfold v6
    apply traceRec_quiet
    assumption
  clear_value v6
  refine Quiet.foldl _ ?_ (fun t10 b10 h10 => ?_)
  · assumption
  · apply endHold_quiet
    assumption

theorem addCount_quiet {s : State} (a0 : State) (a1 : ℕ) (a2 : ℕ) (a3 : Option Cmd) (h0 : Quiet s a0) : Quiet s (addCount a0 a1 a2 a3) := by
  delta addCount
  extract_lets v0 v1 v2 v3
  clear_value v0
  have k4 : Quiet s v1 := by
    unfold v1
    apply setLock_quiet
    assumption
  clear_value v1
  have k5 : Quiet s v2 := by
    unfold v2
    apply count_quiet
    assumption
  clear_value v2
  have k6 : Quiet s v3 := by
    unfold v3
    apply traceRec_quiet
    assumption
  clear_value v3
  refine Quiet.ite ?_ ?_
  · apply raise_quiet
    assumption
  · assumption

theorem endStall_quiet {s : State} (a0 : State) (a1 : Cmd) (h0 : Quiet s a0) : Quiet s (endStall a0 a1).1 := by
  delta endStall
  split
  · dsimp only
    assumption
  · extract_lets v0 v1 v2 v3 v4
    clear_value v0
    have k5 : Quiet s v1 := by
      unfold v1
      apply jobCount_quiet
      assumption
    clear_value v1
    have k6 : Quiet s v2 := by
      unfold v2
      refine Quiet.ite ?_ ?_
      · assumption
      · apply jobCount_quiet
        assumption
    clear_value v2
    clear_value v3
    have k7 : Quiet s v4 := by
      unfold v4
      apply traceRec_quiet
      assumption
    clear_value v4
    dsimp only
    assumption

theorem putCmd_quiet {s : State} (a0 : State) (a1 : Cmd) (h0 : Quiet s a0) : Quiet s (putCmd a0 a1) := by
  delta putCmd
  refine Quiet.set ?_
  assumption

theorem grantClaim_quiet {s : State} (a0 : State) (a1 : ℕ) (a2 : ℕ) (a3 : ℕ) (h0 : Quiet s a0) : Quiet s (grantClaim a0 a1 a2 a3) := by
  delta grantClaim
  split
  · assumption
  · extract_lets v0 v1 v2 v3 v4
    clear_value v0
    have k5 : Quiet s v1 := by
      unfold v1
      apply setLock_quiet
      assumption
    clear_value v1
    have k6 : Quiet s v2.1 := by
      unfold v2
      apply endStall_quiet
      assumption
    clear_value v2
    clear_value v3
    have k7 : Quiet s v4 := by
      unfold v4
      apply putCmd_quiet
      assumption
    clear_value v4
    apply traceRec_quiet
    assumption

theorem evalClaims_quiet {s : State} (a0 : Nat) (a1 : Nat) (a2 : State) (h0 : Quiet s a2) : Quiet s (evalClaims a0 a1 a2) := by
  induction a1 generalizing a2 with
  | zero => exact h0
  | succ n ih =>
    rw [evalClaims]
    split
    · exact h0
    · split
      · exact ih _ (setLock_quiet _ _ _ h0)
      · split
        · exact ih _ (grantClaim_quiet _ _ _ _ h0)
        · exact h0

theorem reclaim_quiet {s : State} (a0 : State) (a1 : ℕ) (h0 : Quiet s a0) : Quiet s (reclaim a0 a1) := by
  delta reclaim
  apply evalClaims_quiet
  assumption

theorem signalLock_quiet {s : State} (a0 : State) (a1 : ℕ) (a2 : ℕ) (a3 : ℕ) (a4 : ℕ) (a5 : Option Cmd) (h0 : Quiet s a0) : Quiet s (signalLock a0 a1 a2 a3 a4 a5) := by
  delta signalLock
  refine Quiet.ite ?_ ?_
  · apply reclaim_quiet
    apply addCount_quiet
    assumption
  · apply raise_quiet
    assumption

theorem engineDone_quiet {s : State} (a0 : State) (a1 : Cmd) (h0 : Quiet s a0) : Quiet s (engineDone a0 a1) := by
  delta engineDone
  split
  · refine Quiet.ite ?_ ?_
    · apply fire_quiet
      assumption
    · refine Quiet.ite ?_ ?_
      · apply fire_quiet
        assumption
      · refine Quiet.ite ?_ ?_
        · apply fire_quiet
          assumption
        · assumption
  · assumption

theorem drift_quiet {s : State} (a0 : State) (a1 : Option (ℕ × ℕ)) (h0 : Quiet s a0) : Quiet s (drift a0 a1) := by
  delta drift
  refine Quiet.foldl _ ?_ (fun t0 b0 h0 => ?_)
  · assumption
  · refine Quiet.foldl _ ?_ (fun t1 b1 h1 => ?_)
    · assumption
    · extract_lets v2
      clear_value v2
      refine Quiet.ite ?_ ?_
      · apply count_quiet
        refine Quiet.set ?_
        assumption
      · assumption

theorem countWork_quiet {s : State} (a0 : State) (a1 : Cmd) (h0 : Quiet s a0) : Quiet s (countWork a0 a1) := by
  delta countWork
  extract_lets v0 v1 v2 v3 v4
  clear_value v0 v1 v2 v3 v4
  split
  · assumption
  · refine Quiet.ite ?_ ?_
    · refine Quiet.ite ?_ ?_
      · apply count_quiet
        assumption
      · assumption
    · refine Quiet.ite ?_ ?_
      · refine Quiet.foldl _ ?_ (fun t5 b5 h5 => ?_)
        · assumption
        · apply count_quiet
          assumption
      · refine Quiet.ite ?_ ?_
        · refine Quiet.foldl _ ?_ (fun t6 b6 h6 => ?_)
          · assumption
          · apply count_quiet
            assumption
        · refine Quiet.ite ?_ ?_
          · refine Quiet.foldl _ ?_ (fun t7 b7 h7 => ?_)
            · assumption
            · extract_lets v8
              clear_value v8
              apply count_quiet
              apply count_quiet
              assumption
          · refine Quiet.ite ?_ ?_
            · apply count_quiet
              assumption
            · assumption

theorem sendCmd_quiet {s : State} (a0 : State) (a1 : Cmd) (a2 : ℕ) (a3 : ℕ) (a4 : ℕ) (a5 : List ℕ) (a6 : List Byte) (h0 : Quiet s a0) : Quiet s (sendCmd a0 a1 a2 a3 a4 a5 a6) := by
  delta sendCmd
  apply send_quiet
  assumption

theorem poundPublish_quiet {s : State} (a0 : State) (a1 : ℕ) (a2 : List SWrite) (h0 : Quiet s a0) : Quiet s (poundPublish a0 a1 a2) := by
  delta poundPublish
  refine Quiet.foldl _ ?_ (fun t0 b0 h0 => ?_)
  · assumption
  · refine Quiet.ite ?_ ?_
    · refine Quiet.foldl _ ?_ (fun t1 b1 h1 => ?_)
      · assumption
      · extract_lets v2
        clear_value v2
        refine Quiet.ite ?_ ?_
        · assumption
        · refine Quiet.set ?_
          assumption
    · assumption

theorem dropCmd_quiet {s : State} (a0 : State) (a1 : ℕ) (h0 : Quiet s a0) : Quiet s (dropCmd a0 a1) := by
  delta dropCmd
  refine Quiet.set ?_
  assumption

theorem raiseCmd_quiet {s : State} (a0 : State) (a1 : Cmd) (a2 : ℕ) (a3 : ℕ) (a4 : ℕ) (a5 : ℕ) (h0 : Quiet s a0) : Quiet s (raiseCmd a0 a1 a2 a3 a4 a5) := by
  delta raiseCmd
  apply raiseOp_quiet
  assumption

theorem emitEv_quiet {s : State} (a0 : State) (a1 : Cmd) (a2 : CEvent) (h0 : Quiet s a0) : Quiet s (emitEv a0 a1 a2) := by
  delta emitEv
  extract_lets v0 v1 v2 v3
  have k4 : Quiet s v0 := by
    unfold v0
    apply raiseCmd_quiet
    assumption
  clear_value v0
  clear_value v1 v2
  have k5 : Quiet s v3 := by
    unfold v3
    refine Quiet.set ?_
    assumption
  clear_value v3
  refine Quiet.ite ?_ ?_
  · assumption
  · split
    · apply raiseCmd_quiet
      assumption
    · assumption

theorem seqAttn_quiet {s : State} (a0 : State) (a1 : Cmd) (h0 : Quiet s a0) : Quiet s (seqAttn a0 a1) := by
  delta seqAttn
  split
  · refine Quiet.ite ?_ ?_
    · apply fire_quiet
      assumption
    · assumption
  · assumption

theorem leaveQueue_quiet {s : State} (a0 : State) (a1 : ℕ) (a2 : ℕ) (h0 : Quiet s a0) : Quiet s (leaveQueue a0 a1 a2) := by
  delta leaveQueue
  extract_lets v0
  clear_value v0
  apply setLock_quiet
  assumption

theorem settleSetters_quiet {s : State} (a0 : State) (a1 : ℕ) (h0 : Quiet s a0) : Quiet s (settleSetters a0 a1) := by
  delta settleSetters
  extract_lets v0
  clear_value v0
  refine Quiet.ite ?_ ?_
  · apply reclaim_quiet
    apply setLock_quiet
    assumption
  · assumption

theorem dropQueued_quiet {s : State} (a0 : State) (a1 : Cmd) (h0 : Quiet s a0) : Quiet s (dropQueued a0 a1) := by
  delta dropQueued
  refine Quiet.set ?_
  assumption

theorem releaseRun_quiet {s : State} (a0 : State) (a1 : Cmd) (h0 : Quiet s a0) : Quiet s (releaseRun a0 a1) := by
  delta releaseRun
  extract_lets v0 v1 v2
  have k3 : Quiet s v0 := by
    unfold v0
    refine Quiet.ite ?_ ?_
    · apply dropQueued_quiet
      assumption
    · assumption
  clear_value v0
  have k4 : Quiet s v1 := by
    unfold v1
    refine Quiet.foldl _ ?_ (fun t5 b5 h5 => ?_)
    · assumption
    · apply unpinUse_quiet
      assumption
  clear_value v1
  have k6 : Quiet s v2 := by
    unfold v2
    refine Quiet.ite ?_ ?_
    · apply dropPromotion_quiet
      assumption
    · assumption
  clear_value v2
  refine Quiet.foldl _ ?_ (fun t7 b7 h7 => ?_)
  · assumption
  · apply sendCmd_quiet
    assumption

theorem returnClaim_quiet {s : State} (a0 : State) (a1 : ℕ) (a2 : ℕ) (h0 : Quiet s a0) : Quiet s (returnClaim a0 a1 a2) := by
  delta returnClaim
  extract_lets v0
  clear_value v0
  apply setLock_quiet
  assumption

theorem requeueRe_quiet {s : State} (a0 : State) (a1 : Cmd) (h0 : Quiet s a0) : Quiet s (requeueRe a0 a1) := by
  delta requeueRe
  refine Quiet.ite ?_ ?_
  · assumption
  · extract_lets v0 v1
    clear_value v0 v1
    refine Quiet.set ?_
    assumption

theorem killCmd_quiet {s : State} (a0 : State) (a1 : Cmd) (a2 : ℕ) (h0 : Quiet s a0) : Quiet s (killCmd a0 a1 a2) := by
  delta killCmd
  extract_lets v0 v1 v2 v3 v4 v5 v6 v7 v8 v9 v10 v11 v12 v13 v14 v15
  clear_value v0
  have k16 : Quiet s v1.1 := by
    unfold v1
    split
    · apply endStall_quiet
      assumption
    · dsimp only
      assumption
  clear_value v1
  have k17 : Quiet s v2 := by
    unfold v2
    apply releaseRun_quiet
    assumption
  clear_value v2
  clear_value v3
  have k18 : Quiet s v4 := by
    unfold v4
    split
    · apply settleSetters_quiet
      apply leaveQueue_quiet
      assumption
    · assumption
  clear_value v4
  have k19 : Quiet s v5 := by
    unfold v5
    refine Quiet.ite ?_ ?_
    · apply traceRec_quiet
      assumption
    · assumption
  clear_value v5
  have k20 : Quiet s v6 := by
    unfold v6
    refine Quiet.ite ?_ ?_
    · apply drift_quiet
      apply jobCount_quiet
      assumption
    · assumption
  clear_value v6
  have k21 : Quiet s v7 := by
    unfold v7
    split
    · refine Quiet.ite ?_ ?_
      · apply count_quiet
        assumption
      · assumption
    · assumption
  clear_value v7
  have k22 : Quiet s v8 := by
    unfold v8
    apply seqAttn_quiet
    assumption
  clear_value v8
  clear_value v9 v10
  have k23 : Quiet s v11 := by
    unfold v11
    apply requeueRe_quiet
    apply putCmd_quiet
    assumption
  clear_value v11
  clear_value v12
  have k24 : Quiet s v13 := by
    unfold v13
    refine Quiet.ite ?_ ?_
    · apply returnClaim_quiet
      assumption
    · assumption
  clear_value v13
  clear_value v14
  have k25 : Quiet s v15 := by
    unfold v15
    apply reclaim_quiet
    apply setLock_quiet
    assumption
  clear_value v15
  refine Quiet.ite ?_ ?_
  · assumption
  · split
    · apply putCmd_quiet
      assumption
    · assumption

end Sys2Proof.Machine
end

