-- ==== Sys2Proof/Laws/SameObjs.lean ====
section
/-! SUPPORT. What leaves the residency objects as they are: one lemma `<name>_objs` per operation that a commit is made of. -/

set_option linter.unusedVariables false

namespace Sys2Proof.Machine

/-- No residency object has changed. -/
structure SameObjs (s t : State) : Prop where
  objs : t.objs = s.objs

theorem SameObjs.refl (s : State) : SameObjs s s := ⟨rfl⟩
theorem SameObjs.trans {a b c : State} (h : SameObjs a b) (g : SameObjs b c) : SameObjs a c :=
  ⟨g.objs.trans h.objs⟩
/-- Other fields written. -/
theorem SameObjs.set {s x : State} (h : SameObjs s x) {pending' time' mem' host' keys' poison' poundQ' remoteSt' memRegs' cmds' nextId' serial' rings' locks' jobs' ctxs' queueRe' ended' flights' fsets' shards' scheds' loans' pools' pfs' census' watch' twatch' suspects' links' dies' roots' engines' testing' testQ' changes' modEpoch' ports' domain' rounds' streams' sent' held' transit' sessions' counts' bufs' cxl' msix' answers' nextSes' sesQ' modQ' sics' cnts' traces' dump' cfg' power' tap' trust' fresh'} :
    SameObjs s ⟨pending', time', mem', host', keys', poison', poundQ', remoteSt', memRegs', cmds', nextId', serial', rings', locks', jobs', ctxs', queueRe', ended', flights', fsets', shards', scheds', loans', pools', x.objs, pfs', census', watch', twatch', suspects', links', dies', roots', engines', testing', testQ', changes', modEpoch', ports', domain', rounds', streams', sent', held', transit', sessions', counts', bufs', cxl', msix', answers', nextSes', sesQ', modQ', sics', cnts', traces', dump', cfg', power', tap', trust', fresh'⟩ := ⟨h.objs⟩
theorem SameObjs.ite {s a b : State} {c : Prop} [Decidable c] (ha : SameObjs s a) (hb : SameObjs s b) : SameObjs s (if c then a else b) := by
  split
  · exact ha
  · exact hb
theorem SameObjs.foldl {α : Type} {s x : State} {g : State → α → State} (l : List α) (h : SameObjs s x) (hg : ∀ t a, SameObjs s t → SameObjs s (g t a)) :
    SameObjs s (l.foldl g x) := by
  induction l generalizing x with
  | nil => exact h
  | cons a l ih => exact ih (hg x a h)
theorem SameObjs.foldlP {α β : Type} {s : State} {x : State × β} {g : State × β → α → State × β} (l : List α) (h : SameObjs s x.1)
    (hg : ∀ t a, SameObjs s t.1 → SameObjs s (g t a).1) : SameObjs s (l.foldl g x).1 := by
  induction l generalizing x with
  | nil => exact h
  | cons a l ih => exact ih (hg x a h)
def SameObjsO (s : State) (o : Host.Outcome State Fault Refusal) : Prop := ∀ t, o = .next t → SameObjs s t
theorem SameObjsO.next {s t : State} (h : SameObjs s t) : SameObjsO s (.next t) := fun _ e => by cases e; exact h
theorem SameObjsO.stop {s : State} {o : Host.Outcome State Fault Refusal} (h : ∀ t, o ≠ .next t) : SameObjsO s o := fun t e => absurd e (h t)
theorem SameObjsO.ite {s : State} {a b : Host.Outcome State Fault Refusal} {c : Prop} [Decidable c] (ha : SameObjsO s a) (hb : SameObjsO s b) :
    SameObjsO s (if c then a else b) := by
  split
  · exact ha
  · exact hb
def SameObjsR (s : State) (r : StartRes) : Prop := match r with | .go t _ => SameObjs s t | _ => True
theorem SameObjsR.go {s t : State} {c : Cmd} (h : SameObjs s t) : SameObjsR s (.go t c) := h
theorem SameObjsR.ite {s : State} {a b : StartRes} {c : Prop} [Decidable c] (ha : SameObjsR s a) (hb : SameObjsR s b) : SameObjsR s (if c then a else b) := by
  split
  · exact ha
  · exact hb

theorem wrLocal_sameObjs {s : State} (a0 : State) (a1 : ℕ) (a2 : ℕ) (a3 : List Byte) (h0 : SameObjs s a0) : SameObjs s (wrLocal a0 a1 a2 a3) := by
  delta wrLocal
  refine SameObjs.set ?_
  assumption

theorem syncPool_sameObjs {s : State} (a0 : State) (a1 : ℕ) (h0 : SameObjs s a0) : SameObjs s (syncPool a0 a1) := by
  delta syncPool
  split
  · assumption
  · extract_lets v0 v1
    clear_value v0 v1
    apply wrLocal_sameObjs
    apply wrLocal_sameObjs
    assumption

theorem setCnt_sameObjs {s : State} (a0 : State) (a1 : ℕ) (a2 : CntBlock) (h0 : SameObjs s a0) : SameObjs s (setCnt a0 a1 a2) := by
  delta setCnt
  refine SameObjs.set ?_
  assumption

theorem setSic_sameObjs {s : State} (a0 : State) (a1 : ℕ) (a2 : Sic) (h0 : SameObjs s a0) : SameObjs s (setSic a0 a1 a2) := by
  delta setSic
  refine SameObjs.set ?_
  assumption

theorem fire_sameObjs {s : State} (a0 : State) (a1 : ℕ) (a2 : ℕ) (h0 : SameObjs s a0) : SameObjs s (fire a0 a1 a2) := by
  delta fire
  refine SameObjs.ite ?_ ?_
  · assumption
  · apply setSic_sameObjs
    assumption

theorem count_sameObjs {s : State} (a0 : State) (a1 : ℕ) (a2 : ℕ × ℕ) (a3 : ℕ) (a4 : ℕ) (a5 : Option (ℕ × ℕ)) (h0 : SameObjs s a0) : SameObjs s (count a0 a1 a2 a3 a4 a5) := by
  delta count
  refine SameObjs.ite ?_ ?_
  · assumption
  · extract_lets v0 v1 v2
    clear_value v0 v1
    have k3 : SameObjs s v2 := by
      unfold v2
      apply setCnt_sameObjs
      assumption
    clear_value v2
    refine SameObjs.ite ?_ ?_
    · assumption
    · apply fire_sameObjs
      assumption

theorem wrHost_sameObjs {s : State} (a0 : State) (a1 : ℕ) (a2 : List Byte) (h0 : SameObjs s a0) : SameObjs s (wrHost a0 a1 a2) := by
  delta wrHost
  refine SameObjs.set ?_
  assumption

theorem setPort_sameObjs {s : State} (a0 : State) (a1 : ℕ) (a2 : Port) (h0 : SameObjs s a0) : SameObjs s (setPort a0 a1 a2) := by
  delta setPort
  refine SameObjs.set ?_
  assumption

theorem setTrace_sameObjs {s : State} (a0 : State) (a1 : ℕ) (a2 : Trace) (h0 : SameObjs s a0) : SameObjs s (setTrace a0 a1 a2) := by
  delta setTrace
  refine SameObjs.set ?_
  assumption

theorem trPut_sameObjs {s : State} (a0 : State) (a1 : Trace) (a2 : ℕ) (a3 : List Byte) (h0 : SameObjs s a0) : SameObjs s (trPut a0 a1 a2 a3) := by
  delta trPut
  extract_lets v0
  clear_value v0
  split
  · assumption
  · refine SameObjs.ite ?_ ?_
    · apply wrLocal_sameObjs
      assumption
    · assumption

theorem traceRec_sameObjs {s : State} (a0 : State) (a1 : ℕ) (a2 : TrRec) (h0 : SameObjs s a0) : SameObjs s (traceRec a0 a1 a2) := by
  delta traceRec
  extract_lets v0 v1 v2 v3 v4 v5 v6 v7 v8 v9 v10 v11 v12 v13 v14 v15 v16 v17 v18 v19 v20 v21 v22
  clear_value v0 v1 v2 v3 v4 v5 v6
  have k23 : SameObjs s v7 := by
    unfold v7
    apply trPut_sameObjs
    assumption
  clear_value v7
  clear_value v8 v9 v10 v11 v12 v13 v14 v15
  have k24 : SameObjs s v16.1 := by
    unfold v16
    split
    · dsimp only
      apply fire_sameObjs
      assumption
    · split
      · dsimp only
        apply trPut_sameObjs
        assumption
      · dsimp only
        assumption
  clear_value v16
  have k25 : SameObjs s v17 := by
    unfold v17
    assumption
  clear_value v17
  clear_value v18 v19 v20 v21
  have k26 : SameObjs s v22 := by
    unfold v22
    apply count_sameObjs
    assumption
  clear_value v22
  refine SameObjs.ite ?_ ?_
  · assumption
  · refine SameObjs.ite ?_ ?_
    · apply fire_sameObjs
      apply setTrace_sameObjs
      assumption
    · apply setTrace_sameObjs
      assumption

theorem transmit_sameObjs {s : State} (a0 : State) (a1 : ℕ) (a2 : Msg) (h0 : SameObjs s a0) : SameObjs s (transmit a0 a1 a2) := by
  delta transmit
  extract_lets v0 v1 v2 v3
  have k4 : SameObjs s v0 := by
    unfold v0
    apply traceRec_sameObjs
    assumption
  clear_value v0
  have k5 : SameObjs s v1 := by
    unfold v1
    refine SameObjs.ite ?_ ?_
    · apply count_sameObjs
      assumption
    · assumption
  clear_value v1
  clear_value v2 v3
  apply setPort_sameObjs
  refine SameObjs.set ?_
  assumption

theorem offer_sameObjs {s : State} (a0 : State) (a1 : Msg) (h0 : SameObjs s a0) : SameObjs s (offer a0 a1) := by
  delta offer
  refine SameObjs.ite ?_ ?_
  · refine SameObjs.set ?_
    assumption
  · split
    · apply transmit_sameObjs
      assumption
    · refine SameObjs.set ?_
      assumption

theorem countPaced_sameObjs {s : State} (a0 : State) (a1 : Msg) (h0 : SameObjs s a0) : SameObjs s (countPaced a0 a1) := by
  delta countPaced
  split
  · refine SameObjs.ite ?_ ?_
    · apply setPort_sameObjs
      assumption
    · assumption
  · assumption

theorem send_sameObjs {s : State} (a0 : State) (a1 : Msg) (h0 : SameObjs s a0) : SameObjs s (send a0 a1) := by
  delta send
  refine SameObjs.ite ?_ ?_
  · assumption
  · extract_lets v0 v1 v2 v3 v4
    clear_value v0 v1 v2 v3
    have k5 : SameObjs s v4 := by
      unfold v4
      refine SameObjs.set ?_
      assumption
    clear_value v4
    apply offer_sameObjs
    apply countPaced_sameObjs
    assumption

theorem sendCmd_sameObjs {s : State} (a0 : State) (a1 : Cmd) (a2 : ℕ) (a3 : ℕ) (a4 : ℕ) (a5 : List ℕ) (a6 : List Byte) (h0 : SameObjs s a0) : SameObjs s (sendCmd a0 a1 a2 a3 a4 a5 a6) := by
  delta sendCmd
  apply send_sameObjs
  assumption

theorem jobCount_sameObjs {s : State} (a0 : State) (a1 : ℕ) (a2 : ℕ) (a3 : ℕ) (a4 : ℕ) (a5 : ℕ) (h0 : SameObjs s a0) : SameObjs s (jobCount a0 a1 a2 a3 a4 a5) := by
  delta jobCount
  split
  · assumption
  · extract_lets v0 v1 v2 v3
    clear_value v0 v1 v2 v3
    refine SameObjs.ite ?_ ?_
    · refine SameObjs.ite ?_ ?_
      · apply wrHost_sameObjs
        assumption
      · assumption
    · apply wrLocal_sameObjs
      assumption

theorem endStall_sameObjs {s : State} (a0 : State) (a1 : Cmd) (h0 : SameObjs s a0) : SameObjs s (endStall a0 a1).1 := by
  delta endStall
  split
  · dsimp only
    assumption
  · extract_lets v0 v1 v2 v3 v4
    clear_value v0
    have k5 : SameObjs s v1 := by
      unfold v1
      apply jobCount_sameObjs
      assumption
    clear_value v1
    have k6 : SameObjs s v2 := by
      unfold v2
      refine SameObjs.ite ?_ ?_
      · assumption
      · apply jobCount_sameObjs
        assumption
    clear_value v2
    clear_value v3
    have k7 : SameObjs s v4 := by
      unfold v4
      apply traceRec_sameObjs
      assumption
    clear_value v4
    dsimp only
    assumption

theorem engineDone_sameObjs {s : State} (a0 : State) (a1 : Cmd) (h0 : SameObjs s a0) : SameObjs s (engineDone a0 a1) := by
  delta engineDone
  split
  · refine SameObjs.ite ?_ ?_
    · apply fire_sameObjs
      assumption
    · refine SameObjs.ite ?_ ?_
      · apply fire_sameObjs
        assumption
      · refine SameObjs.ite ?_ ?_
        · apply fire_sameObjs
          assumption
        · assumption
  · assumption

theorem drift_sameObjs {s : State} (a0 : State) (a1 : Option (ℕ × ℕ)) (h0 : SameObjs s a0) : SameObjs s (drift a0 a1) := by
  delta drift
  refine SameObjs.foldl _ ?_ (fun t0 b0 h0 => ?_)
  · assumption
  · refine SameObjs.foldl _ ?_ (fun t1 b1 h1 => ?_)
    · assumption
    · extract_lets v2
      clear_value v2
      refine SameObjs.ite ?_ ?_
      · apply count_sameObjs
        refine SameObjs.set ?_
        assumption
      · assumption

theorem dropCmd_sameObjs {s : State} (a0 : State) (a1 : ℕ) (h0 : SameObjs s a0) : SameObjs s (dropCmd a0 a1) := by
  delta dropCmd
  refine SameObjs.set ?_
  assumption

theorem setDie_sameObjs {s : State} (a0 : State) (a1 : ℕ) (a2 : Die) (h0 : SameObjs s a0) : SameObjs s (setDie a0 a1 a2) := by
  delta setDie
  refine SameObjs.set ?_
  assumption

theorem fireMsix_sameObjs {s : State} (a0 : State) (a1 : ℕ) (h0 : SameObjs s a0) : SameObjs s (fireMsix a0 a1) := by
  delta fireMsix
  refine SameObjs.ite ?_ ?_
  · refine SameObjs.set ?_
    assumption
  · assumption

theorem deliver_sameObjs {s : State} (a0 : State) (a1 : Event) (a2 : Option ℕ) (h0 : SameObjs s a0) : SameObjs s (deliver a0 a1 a2) := by
  delta deliver
  extract_lets v0 v1 v2 v3 v4 v5
  clear_value v0
  have k6 : SameObjs s v1.1 := by
    unfold v1
    split
    · dsimp only
      assumption
    · extract_lets v7
      clear_value v7
      dsimp only
      refine SameObjs.set ?_
      assumption
  clear_value v1
  clear_value v2 v3
  have k8 : SameObjs s v4 := by
    unfold v4
    assumption
  clear_value v4
  have k9 : SameObjs s v5.1 := by
    unfold v5
    split
    · dsimp only
      refine SameObjs.set ?_
      assumption
    · assumption
  clear_value v5
  refine SameObjs.ite ?_ ?_
  · apply fireMsix_sameObjs
    assumption
  · assumption

theorem raiseOp_sameObjs {s : State} (a0 : State) (a1 : Option (ℕ × ℕ)) (a2 : ℕ) (a3 : ℕ) (a4 : ℕ) (a5 : Bool) (a6 : Option ℕ) (a7 : ℕ) (a8 : ℕ) (a9 : ℕ) (a10 : ℕ) (a11 : ℕ) (a12 : ℕ) (h0 : SameObjs s a0) : SameObjs s (raiseOp a0 a1 a2 a3 a4 a5 a6 a7 a8 a9 a10 a11 a12) := by
  delta raiseOp
  extract_lets v0 v1 v2 v3 v4 v5 v6 v7
  clear_value v0 v1 v2
  have k8 : SameObjs s v3 := by
    unfold v3
    apply setDie_sameObjs
    assumption
  clear_value v3
  have k9 : SameObjs s v4 := by
    unfold v4
    apply count_sameObjs
    assumption
  clear_value v4
  have k10 : SameObjs s v5 := by
    unfold v5
    apply traceRec_sameObjs
    assumption
  clear_value v5
  have k11 : SameObjs s v6 := by
    unfold v6
    apply fire_sameObjs
    assumption
  clear_value v6
  clear_value v7
  refine SameObjs.ite ?_ ?_
  · refine SameObjs.set ?_
    assumption
  · apply deliver_sameObjs
    assumption

theorem raiseFor_sameObjs {s : State} (a0 : State) (a1 : ℕ) (a2 : ℕ) (a3 : Bool) (a4 : Option ℕ) (a5 : ℕ) (a6 : ℕ) (a7 : ℕ) (a8 : ℕ) (a9 : ℕ) (a10 : ℕ) (h0 : SameObjs s a0) : SameObjs s (raiseFor a0 a1 a2 a3 a4 a5 a6 a7 a8 a9 a10) := by
  delta raiseFor
  apply raiseOp_sameObjs
  assumption

theorem setLock_sameObjs {s : State} (a0 : State) (a1 : ℕ) (a2 : Lock) (h0 : SameObjs s a0) : SameObjs s (setLock a0 a1 a2) := by
  delta setLock
  refine SameObjs.set ?_
  assumption

theorem putCmd_sameObjs {s : State} (a0 : State) (a1 : Cmd) (h0 : SameObjs s a0) : SameObjs s (putCmd a0 a1) := by
  delta putCmd
  refine SameObjs.set ?_
  assumption

theorem grantClaim_sameObjs {s : State} (a0 : State) (a1 : ℕ) (a2 : ℕ) (a3 : ℕ) (h0 : SameObjs s a0) : SameObjs s (grantClaim a0 a1 a2 a3) := by
  delta grantClaim
  split
  · assumption
  · extract_lets v0 v1 v2 v3 v4
    clear_value v0
    have k5 : SameObjs s v1 := by
      unfold v1
      apply setLock_sameObjs
      assumption
    clear_value v1
    have k6 : SameObjs s v2.1 := by
      unfold v2
      apply endStall_sameObjs
      assumption
    clear_value v2
    clear_value v3
    have k7 : SameObjs s v4 := by
      unfold v4
      apply putCmd_sameObjs
      assumption
    clear_value v4
    apply traceRec_sameObjs
    assumption

theorem evalClaims_sameObjs {s : State} (a0 : Nat) (a1 : Nat) (a2 : State) (h0 : SameObjs s a2) : SameObjs s (evalClaims a0 a1 a2) := by
  induction a1 generalizing a2 with
  | zero => exact h0
  | succ n ih =>
    rw [evalClaims]
    split
    · exact h0
    · split
      · exact ih _ (setLock_sameObjs _ _ _ h0)
      · split
        · exact ih _ (grantClaim_sameObjs _ _ _ _ h0)
        · exact h0

theorem reclaim_sameObjs {s : State} (a0 : State) (a1 : ℕ) (h0 : SameObjs s a0) : SameObjs s (reclaim a0 a1) := by
  delta reclaim
  apply evalClaims_sameObjs
  assumption

theorem raise_sameObjs {s : State} (a0 : State) (a1 : ℕ) (a2 : ℕ) (a3 : ℕ) (a4 : ℕ) (a5 : ℕ) (a6 : ℕ) (a7 : ℕ) (a8 : ℕ) (h0 : SameObjs s a0) : SameObjs s (raise a0 a1 a2 a3 a4 a5 a6 a7 a8) := by
  delta raise
  apply raiseFor_sameObjs
  assumption

theorem raiseCmd_sameObjs {s : State} (a0 : State) (a1 : Cmd) (a2 : ℕ) (a3 : ℕ) (a4 : ℕ) (a5 : ℕ) (h0 : SameObjs s a0) : SameObjs s (raiseCmd a0 a1 a2 a3 a4 a5) := by
  delta raiseCmd
  apply raiseOp_sameObjs
  assumption

theorem addCount_sameObjs {s : State} (a0 : State) (a1 : ℕ) (a2 : ℕ) (a3 : Option Cmd) (h0 : SameObjs s a0) : SameObjs s (addCount a0 a1 a2 a3) := by
  delta addCount
  extract_lets v0 v1 v2 v3
  clear_value v0
  have k4 : SameObjs s v1 := by
    unfold v1
    apply setLock_sameObjs
    assumption
  clear_value v1
  have k5 : SameObjs s v2 := by
    unfold v2
    apply count_sameObjs
    assumption
  clear_value v2
  have k6 : SameObjs s v3 := by
    unfold v3
    apply traceRec_sameObjs
    assumption
  clear_value v3
  refine SameObjs.ite ?_ ?_
  · apply raise_sameObjs
    assumption
  · assumption

theorem signalLock_sameObjs {s : State} (a0 : State) (a1 : ℕ) (a2 : ℕ) (a3 : ℕ) (a4 : ℕ) (a5 : Option Cmd) (h0 : SameObjs s a0) : SameObjs s (signalLock a0 a1 a2 a3 a4 a5) := by
  delta signalLock
  refine SameObjs.ite ?_ ?_
  · apply reclaim_sameObjs
    apply addCount_sameObjs
    assumption
  · apply raise_sameObjs
    assumption

theorem publishWrites_sameObjs {s : State} (a0 : State) (a1 : ℕ) (a2 : List SWrite) (h0 : SameObjs s a0) : SameObjs s (publishWrites a0 a1 a2) := by
  delta publishWrites
  extract_lets v0
  have k1 : SameObjs s v0 := by
    unfold v0
    refine SameObjs.foldl _ ?_ (fun t2 b2 h2 => ?_)
    · assumption
    · refine SameObjs.ite ?_ ?_
      · apply wrLocal_sameObjs
        assumption
      · refine SameObjs.ite ?_ ?_
        · apply wrHost_sameObjs
          assumption
        · assumption
  clear_value v0
  refine SameObjs.set ?_
  assumption

theorem poundPublish_sameObjs {s : State} (a0 : State) (a1 : ℕ) (a2 : List SWrite) (h0 : SameObjs s a0) : SameObjs s (poundPublish a0 a1 a2) := by
  delta poundPublish
  refine SameObjs.foldl _ ?_ (fun t0 b0 h0 => ?_)
  · assumption
  · refine SameObjs.ite ?_ ?_
    · refine SameObjs.foldl _ ?_ (fun t1 b1 h1 => ?_)
      · assumption
      · extract_lets v2
        clear_value v2
        refine SameObjs.ite ?_ ?_
        · assumption
        · refine SameObjs.set ?_
          assumption
    · assumption

theorem countWork_sameObjs {s : State} (a0 : State) (a1 : Cmd) (h0 : SameObjs s a0) : SameObjs s (countWork a0 a1) := by
  delta countWork
  extract_lets v0 v1 v2 v3 v4
  clear_value v0 v1 v2 v3 v4
  split
  · assumption
  · refine SameObjs.ite ?_ ?_
    · refine SameObjs.ite ?_ ?_
      · apply count_sameObjs
        assumption
      · assumption
    · refine SameObjs.ite ?_ ?_
      · refine SameObjs.foldl _ ?_ (fun t5 b5 h5 => ?_)
        · assumption
        · apply count_sameObjs
          assumption
      · refine SameObjs.ite ?_ ?_
        · refine SameObjs.foldl _ ?_ (fun t6 b6 h6 => ?_)
          · assumption
          · apply count_sameObjs
            assumption
        · refine SameObjs.ite ?_ ?_
          · refine SameObjs.foldl _ ?_ (fun t7 b7 h7 => ?_)
            · assumption
            · extract_lets v8
              clear_value v8
              apply count_sameObjs
              apply count_sameObjs
              assumption
          · refine SameObjs.ite ?_ ?_
            · apply count_sameObjs
              assumption
            · assumption

theorem countNs_sameObjs {s : State} (a0 : State) (a1 : ℕ) (h0 : SameObjs s a0) : SameObjs s (countNs a0 a1) := by
  delta countNs
  refine SameObjs.foldl _ ?_ (fun t0 b0 h0 => ?_)
  · assumption
  · apply count_sameObjs
    apply count_sameObjs
    assumption

theorem emitEv_sameObjs {s : State} (a0 : State) (a1 : Cmd) (a2 : CEvent) (h0 : SameObjs s a0) : SameObjs s (emitEv a0 a1 a2) := by
  delta emitEv
  extract_lets v0 v1 v2 v3
  have k4 : SameObjs s v0 := by
    unfold v0
    apply raiseCmd_sameObjs
    assumption
  clear_value v0
  clear_value v1 v2
  have k5 : SameObjs s v3 := by
    unfold v3
    refine SameObjs.set ?_
    assumption
  clear_value v3
  refine SameObjs.ite ?_ ?_
  · assumption
  · split
    · apply raiseCmd_sameObjs
      assumption
    · assumption

theorem timeTo_sameObjs {s : State} (a0 : State) (a1 : ℕ) (h0 : SameObjs s a0) : SameObjs s (timeTo a0 a1) := by
  delta timeTo
  refine SameObjs.ite ?_ ?_
  · extract_lets v0
    have k1 : SameObjs s v0 := by
      unfold v0
      apply drift_sameObjs
      apply countNs_sameObjs
      assumption
    clear_value v0
    refine SameObjs.set ?_
    assumption
  · assumption

theorem foldl_same {α β : Type} (g : β → α → β) (h : ∀ b x, g b x = b) (l : List α) (b : β) : l.foldl g b = b := by
  induction l with
  | nil => rfl
  | cons x l ih => rw [List.foldl_cons, h, ih]

/-- No bytes written make no copy dirty. -/
theorem markDirty_none (s : State) : markDirty s [] = s := by
  unfold markDirty
  refine foldl_same _ (fun s e => foldl_same _ (fun s t => ?_) _ _) _ _
  split
  · rfl
  · simp only [List.any_nil, Bool.false_eq_true, and_false, if_false]

end Sys2Proof.Machine
end

