-- ==== Sys2Proof/Laws/Commit.lean ====
section
/-! SUPPORT. What the commit of a command does (R275): its staged local bytes are in memory, its operation's own effect follows,
and everything else that a commit touches is named by `Beside`. -/

namespace Sys2Proof.Machine

/-- Publishing local bytes writes exactly them. -/
theorem publishWrites_local (s : State) (key : Nat) (ws : List SWrite) (h : ∀ w ∈ ws, w.tgt.tier < 3) :
    (publishWrites s key ws).mem = published s.mem ws ∧ (publishWrites s key ws).host = s.host ∧
      (Still s → Still (publishWrites s key ws)) := by
  have key1 : ∀ (ws : List SWrite) (t : State), (∀ w ∈ ws, w.tgt.tier < 3) →
      (ws.foldl (fun s w => if w.tgt.tier < 3 then wrLocal s key w.tgt.off w.bytes
        else if w.tgt.tier = 5 then wrHost s w.tgt.off w.bytes else s) t).mem = published t.mem ws ∧
      (ws.foldl (fun s w => if w.tgt.tier < 3 then wrLocal s key w.tgt.off w.bytes
        else if w.tgt.tier = 5 then wrHost s w.tgt.off w.bytes else s) t).host = t.host ∧
      (Still t → Still (ws.foldl (fun s w => if w.tgt.tier < 3 then wrLocal s key w.tgt.off w.bytes
        else if w.tgt.tier = 5 then wrHost s w.tgt.off w.bytes else s) t)) := by
    intro ws
    induction ws with
    | nil => intro t _; exact ⟨rfl, rfl, id⟩
    | cons w ws ih =>
      intro t hw
      have h3 : w.tgt.tier < 3 := hw w (List.mem_cons_self ..)
      obtain ⟨m, o, i⟩ := ih (wrLocal t key w.tgt.off w.bytes) fun x hx => hw x (List.mem_cons_of_mem _ hx)
      simp only [List.foldl_cons, if_pos h3]
      refine ⟨m.trans ?_, o, fun st => i (Still.of (x := t) rfl rfl rfl rfl st)⟩
      simp only [published, List.foldl_cons, if_pos h3]
      rfl
  obtain ⟨m, o, i⟩ := key1 ws s h
  exact ⟨m, o, fun st => Still.of (x := ws.foldl _ s) rfl rfl rfl rfl (i st)⟩

/-- What only meters moved in is the same state with other counters, controllers and serials of free values. -/
theorem Meters.is {s t : State} (h : Meters s t) : t = { s with sics := t.sics, cnts := t.cnts, fresh := t.fresh } := by
  obtain ⟨⟩ := s
  obtain ⟨⟩ := t
  obtain ⟨⟩ := h
  simp_all

/-- Which signals a command makes, and when, no meter decides. -/
theorem Meters.signals {s t : State} (h : Meters s t) (c : Cmd) : sameLock t c = sameLock s c ∧ doubleSignal t c = doubleSignal s c ∧ laterSignals t c = laterSignals s c := by
  rw [h.is]
  exact ⟨rfl, rfl, rfl⟩

/-- A command that has committed, as its record stands until publication is complete. -/
def recordOf (s : State) (c : Cmd) : Cmd :=
  { atCommit s c with
    pins := [], reserved := hostGranules c, snapMem := [], snapHost := [], remote := [], asked := [], signalled := (sameLock s c).isSome,
    claimed := false, writes := c.writes.filter (fun w => w.tgt.tier == 5), outs := [] }

/-- The state after a commit, once its record is put. -/
def recorded (s v : State) (c : Cmd) : State :=
  match c.origin with
  | .ring _ => putCmd v (recordOf s c)
  | _ => dropCmd (publishWrites v (jobKey s c.sess c.pkt.job) (c.writes.filter (fun w => w.tgt.tier == 5))) c.id

/-- A command stages nothing, and its commit ends no pin (R217, R220): it touches no copy. -/
def Touchless (s : State) (c : Cmd) : Prop := c.writes = [] ∧ c.outs = [] ∧ c.pins = [] ∧ (c.pkt.waitThresh = 0 ∨ (getLock s c.pkt.waitLock).holds = [])

/-- A command without outputs writes no entries. -/
theorem writeEntries_none (s : State) (c : Cmd) (h : c.outs = []) : writeEntries s c = s := by
  unfold writeEntries
  rw [h]
  have e : ∀ (l : List TWatch) (t : State), l.foldl (fun (s : State) (w : TWatch) => ([] : List OutInfo).foldl (fun (s : State) (o : OutInfo) =>
      if watchSelects w c o then
        let mid := if w.kind = 0 then o.swatch.bytes
          else leBytes 8 (crc64 o.bytes) ++ leBytes 8 o.bytes.length ++ zeros 15 ++ leBytes 1 (if o.shape = 0 then 0 else o.swatch.fmt)
        ringEntry s c.sess c.pkt.job w.target w.entries (entryBytes c o mid)
      else s) s) t = t := foldl_same _ fun _ _ => rfl
  cases tfind s.census c.pkt.job with
  | none => exact e _ _
  | some x =>
    dsimp only [List.foldl_nil]
    split <;> exact e _ _

/-- A lock without holds is consumed without a copy's losing a pin (R228). -/
theorem consume_noHolds {s x : State} (c : Cmd) (h : (getLock x c.pkt.waitLock).holds = []) (g : SameObjs s x) : SameObjs s (consume x c) := by
  unfold consume
  extract_lets l t k r s1 s2 s3
  have e : r.2 = [] := by
    show (chargeHolds t (getLock x l).holds).2 = []
    rw [show (getLock x l).holds = [] from h]
    rfl
  rw [e]
  exact traceRec_sameObjs _ _ _ (count_sameObjs _ _ _ _ _ _ (setLock_sameObjs _ _ _ g))

/-- What holds of a state with and without a signal holds of one that may signal. -/
theorem optSignal {P : State → Prop} {s : State} (h : ∀ l n job peer b, P (signalLock s l n job peer b)) (g : P s) (x : Option Nat) (n job peer : Nat) (b : Option Cmd) :
    P (match x with | some l => signalLock s l n job peer b | none => s) := by
  cases x
  · exact g
  · exact h ..

/-- A hold that ends where there is no object leaves nothing behind (R228). -/
theorem endHold_bare {x : State} (y : Nat × Nat) (h : x.objs = []) : (endHold x y).objs = [] := by
  unfold endHold
  split
  · exact h
  · next d t _ =>
    have : findObj x d = none := by unfold findObj; rw [h]; rfl
    unfold unpinUse
    rw [this]
    exact h

theorem consume_bare {x : State} (c : Cmd) (h : x.objs = []) : (consume x c).objs = [] := by
  unfold consume
  extract_lets l t k r s1 s2 s3
  have e3 : s3.objs = [] := (traceRec_sameObjs _ _ _ (count_sameObjs _ _ _ _ _ _ (setLock_sameObjs _ _ _ (SameObjs.refl x)))).objs.trans h
  generalize s3 = y at e3
  generalize r.2 = hs
  induction hs generalizing y with
  | nil => exact e3
  | cons a l ih => exact ih _ (endHold_bare a e3)

theorem markDirty_bare {x : State} (ws : List SWrite) (h : x.objs = []) : markDirty x ws = x := by unfold markDirty; rw [h]; rfl

/-- The commit of a command: the state `u` in which its effect acts holds its local bytes; after the effect only what
`Beside` leaves out changes; the command's record is last. -/
theorem commitWith_all (eff : State → Cmd → State) (o s : State) (c : Cmd) (hb : Beside o s)
    (hm : c.self ∈ o.cmds.map Cmd.self) :
    ∃ u v : State, Beside o u ∧ Beside (eff u (atCommit s c)) v ∧ Quiet (eff u (atCommit s c)) v ∧
      (Still s → u.mem = published s.mem (c.writes.filter (fun w => decide (w.tgt.tier < 3))) ∧ u.host = s.host ∧ Still u) ∧
      ((Touchless s c → SameObjs s u ∧ SameObjs (eff u (atCommit s c)) v) ∧ (s.objs = [] → u.objs = [])) ∧
      (∀ k, Counted s u c k) ∧ SameCounts (eff u (atCommit s c)) v ∧ commitWith eff s c = recorded s v c := by
  unfold commitWith
  extract_lets same both c1 s1 key d loc s2 s3 s4 s5 s6 s7 s8 s9 s10 s11 s12 s13 lenders s14 c2 src
  have q1 : Quiet s s1 := putCmd_quiet _ _ (Quiet.refl s)
  have loc3 : ∀ w ∈ loc, w.tgt.tier < 3 := fun w hw => by simpa [loc] using (List.mem_filter.mp hw).2
  obtain ⟨pm, ph, pi⟩ := publishWrites_local s1 key loc loc3
  have q5 : Quiet (publishWrites s1 key loc) s5 := by
    have q3 : Quiet (publishWrites s1 key loc) s3 := poundPublish_quiet _ _ _ (markDirty_quiet _ _ (Quiet.refl _))
    have q4 : Quiet (publishWrites s1 key loc) s4 := Quiet.ite q3 (consume_quiet _ _ q3)
    exact optSignal (fun _ _ _ _ _ => signalLock_quiet _ _ _ _ _ _ q4) q4 same _ _ _ _
  have b5 : Beside o s5 := by
    have b3 : Beside o s3 := poundPublish_beside _ _ _ (markDirty_beside _ _ (publishWrites_beside _ _ _ (putCmd_beside _ c1 hm hb)))
    have b4 : Beside o s4 := Beside.ite b3 (consume_beside _ _ b3)
    exact optSignal (fun _ _ _ _ _ => signalLock_beside _ _ _ _ _ _ b4) b4 same _ _ _ _
  have b14 : Beside s6 s14 := by
    have b8 : Beside s6 s8 := Beside.foldl _ (writeEntries_beside _ _ (Beside.refl s6)) fun _ _ g => unpinUse_beside _ _ _ g
    have b9 : Beside s6 s9 := Beside.ite b8 (reclaim_beside _ _ b8)
    have b11 : Beside s6 s11 := drift_beside _ _ (countWork_beside _ _ (jobCount_beside _ _ _ _ _ _ (traceRec_beside _ _ _ b9)))
    have b12 : Beside s6 s12 := by
      unfold s12
      split
      · exact Beside.ite (count_beside _ _ _ _ _ _ b11) b11
      · exact b11
    exact Beside.foldl _ (engineDone_beside _ _ b12) fun _ _ g => sendCmd_beside _ _ _ _ _ _ _ g
  have q14 : Quiet s6 s14 := by
    have b8 : Quiet s6 s8 := Quiet.foldl _ (writeEntries_quiet _ _ (Quiet.refl s6)) fun _ _ g => unpinUse_quiet _ _ _ g
    have b9 : Quiet s6 s9 := Quiet.ite b8 (reclaim_quiet _ _ b8)
    have b11 : Quiet s6 s11 := drift_quiet _ _ (countWork_quiet _ _ (jobCount_quiet _ _ _ _ _ _ (traceRec_quiet _ _ _ b9)))
    have b12 : Quiet s6 s12 := by
      unfold s12
      split
      · exact Quiet.ite (count_quiet _ _ _ _ _ _ b11) b11
      · exact b11
    exact Quiet.foldl _ (engineDone_quiet _ _ b12) fun _ _ g => sendCmd_quiet _ _ _ _ _ _ _ g
  have l3 : SameLocks s s3 := poundPublish_sameLocks _ _ _ (markDirty_sameLocks _ _ (publishWrites_sameLocks _ _ _ (putCmd_sameLocks _ _ (SameLocks.refl s))))
  refine ⟨s5, s14, b5, b14, q14, fun st => ?_, ⟨fun ⟨hw, ho, hp, hl⟩ => ⟨?_, ?_⟩, fun h0 => ?_⟩, fun k => ?_, ?_, ?_⟩
  · obtain ⟨m5, h5, i5⟩ := q5 (pi (q1 st).2.2)
    exact ⟨m5.trans (pm.trans (by rw [(q1 st).1])), h5.trans (ph.trans (q1 st).2.1), i5⟩
  · have hl0 : loc = [] := by
      show List.filter _ c.writes = []
      rw [hw]; rfl
    have e3 : s3 = publishWrites s1 key [] := by
      show poundPublish (markDirty (publishWrites s1 key loc) loc) d loc = _
      rw [hl0, markDirty_none]; rfl
    have o3 : SameObjs s s3 := by rw [e3]; exact ⟨rfl⟩
    have o4 : SameObjs s s4 := by
      show SameObjs s (if c.pkt.waitThresh = 0 then s3 else consume s3 c1)
      rcases hl with hz | hh
      · rw [if_pos hz]; exact o3
      · refine SameObjs.ite o3 (consume_noHolds _ ?_ o3)
        have e : getLock s3 c.pkt.waitLock = getLock s c.pkt.waitLock := by unfold getLock; rw [l3.locks]
        exact (congrArg Lock.holds e).trans hh
    exact optSignal (fun _ _ _ _ _ => signalLock_sameObjs _ _ _ _ _ _ o4) o4 same _ _ _ _
  · have o7 : SameObjs s6 s7 := by
      show SameObjs s6 (writeEntries s6 c1)
      rw [writeEntries_none s6 c1 ho]
      exact SameObjs.refl s6
    have o8 : SameObjs s6 s8 := by
      show SameObjs s6 (c1.pins.foldl (fun s p => unpinUse s p.1 p.2) s7)
      rw [show c1.pins = [] from hp]; exact o7
    have o9 : SameObjs s6 s9 := SameObjs.ite o8 (reclaim_sameObjs _ _ o8)
    have o11 : SameObjs s6 s11 := drift_sameObjs _ _ (countWork_sameObjs _ _ (jobCount_sameObjs _ _ _ _ _ _ (traceRec_sameObjs _ _ _ o9)))
    have o12 : SameObjs s6 s12 := by
      unfold s12
      split
      · exact SameObjs.ite (count_sameObjs _ _ _ _ _ _ o11) o11
      · exact o11
    exact SameObjs.foldl _ (engineDone_sameObjs _ _ o12) fun _ _ g => sendCmd_sameObjs _ _ _ _ _ _ _ g
  · have e2 : s2.objs = [] := by
      have e1 : (publishWrites s1 key loc).objs = [] := (publishWrites_sameObjs _ _ _ (putCmd_sameObjs _ _ (SameObjs.refl s))).objs.trans h0
      show (markDirty (publishWrites s1 key loc) loc).objs = []
      rw [markDirty_bare _ e1]; exact e1
    have e3 : s3.objs = [] := (poundPublish_sameObjs _ _ _ (SameObjs.refl s2)).objs.trans e2
    have e4 : s4.objs = [] := by
      show (if c.pkt.waitThresh = 0 then s3 else consume s3 c1).objs = []
      split
      · exact e3
      · exact consume_bare _ e3
    exact (optSignal (P := SameObjs s4) (fun _ _ _ _ _ => signalLock_sameObjs _ _ _ _ _ _ (SameObjs.refl s4)) (SameObjs.refl s4) same _ _ _ _).objs.trans e4
  · exact commit_counted c c1 c.pkt.job s4.cfg.peerId (some c1) k rfl rfl (SameLocks.counts l3)
  · have l8 : SameLocks s6 s8 := SameLocks.foldl _ (writeEntries_sameLocks _ _ (SameLocks.refl s6)) fun _ _ g => unpinUse_sameLocks _ _ _ g
    have c9 : SameCounts s6 s9 := by
      refine (SameLocks.counts l8).trans ?_
      show SameCounts s8 (if c.pkt.waitThresh = 0 then s8 else reclaim s8 c.pkt.waitLock)
      split
      · exact SameCounts.refl _
      · exact reclaim_counts _ _
    have l11 : SameLocks s9 s11 := drift_sameLocks _ _ (countWork_sameLocks _ _ (jobCount_sameLocks _ _ _ _ _ _ (traceRec_sameLocks _ _ _ (SameLocks.refl s9))))
    have l12 : SameLocks s9 s12 := by
      unfold s12
      split
      · exact SameLocks.ite (count_sameLocks _ _ _ _ _ _ l11) l11
      · exact l11
    exact c9.trans (SameLocks.counts (SameLocks.foldl _ (engineDone_sameLocks _ _ l12) fun _ _ g => sendCmd_sameLocks _ _ _ _ _ _ _ g))
  · rfl

/-- The commit of a ring's command puts its record. -/
theorem recorded_ring (s v : State) (c : Cmd) (r : Nat) (h : c.origin = .ring r) : recorded s v c = putCmd v (recordOf s c) := by
  unfold recorded
  rw [h]

/-- Writes that no lender takes are staged as they are. -/
theorem cutFar_near (ws : List SWrite) (h : ∀ w ∈ ws, w.tgt.tier ≠ 4) : cutFar ws = ws := by
  induction ws with
  | nil => rfl
  | cons w ws ih =>
    have hw := h w (List.mem_cons_self ..)
    have hr := ih fun x hx => h x (List.mem_cons_of_mem _ hx)
    unfold cutFar at *
    simp only [List.map_cons, List.flatten_cons, if_neg hw, hr]
    rfl

/-- A run whose outputs stay in the module commits at once. -/
theorem stage_near (eff : State → Cmd → State) (s : State) (c : Cmd) (r : Stg) (hw : r.wait = false) (h : ∀ w ∈ r.writes, w.tgt.tier ≠ 4) :
    ∃ u, Beside s u ∧ Quiet s u ∧ Meters s u ∧ stage eff s c r = commitWith eff u (withRun c r) := by
  have hf : (cutFar r.writes).filter (fun w => w.tgt.tier == 4) = [] := by
    rw [cutFar_near _ h]
    exact List.filter_eq_nil_iff.mpr fun w hm => by simpa using h w hm
  unfold stage
  dsimp only
  rw [hf]
  dsimp only [List.find?_nil, List.foldl_nil]
  rw [if_pos ⟨rfl, hw⟩]
  exact ⟨_, count_beside _ _ _ _ _ _ (Beside.refl s), count_quiet _ _ _ _ _ _ (Quiet.refl s), count_meters _ _ _ _ _ _ (Meters.refl s), rfl⟩

/-- What published memory is does not depend on writes to the host. -/
theorem published_near (m : List Host.Cell) (ws : List SWrite) : published m (ws.filter (fun w => decide (w.tgt.tier < 3))) = published m ws := by
  unfold published
  induction ws generalizing m with
  | nil => rfl
  | cons w ws ih =>
    by_cases h : w.tgt.tier < 3
    · simp only [List.filter_cons, h, decide_true, if_true, List.foldl_cons, ih]
    · simp only [List.filter_cons, h, decide_false, List.foldl_cons, if_false, Bool.false_eq_true, ih]

/-- The record found after it is put. -/
theorem findCmd_putCmd (s : State) (c : Cmd) (h : c.id ∈ s.cmds.map Cmd.id) : findCmd (putCmd s c) c.id = some c := by
  unfold findCmd putCmd
  dsimp only
  generalize s.cmds = l at h
  induction l with
  | nil => exact absurd h (by simp)
  | cons x l ih =>
    by_cases hx : x.id = c.id
    · simp [hx]
    · have hm : c.id ∈ l.map Cmd.id := by
        rcases List.mem_cons.mp h with e | e
        · exact absurd e.symm hx
        · exact e
      simp only [List.map_cons, List.find?_cons, if_neg hx]
      have : (x.id == c.id) = false := by simpa using hx
      rw [this]
      exact ih hm

theorem findCmd_mem {s : State} {i : Nat} {c : Cmd} (h : findCmd s i = some c) : c.id = i ∧ i ∈ s.cmds.map Cmd.id := by
  have h1 := List.find?_some h
  have h2 := List.mem_of_find?_eq_some h
  have e : c.id = i := by simpa using h1
  exact ⟨e, e ▸ List.mem_map_of_mem h2⟩

/-- What the record of a committed command says of it (R275). -/
structure RecordSays (s : State) (c : Cmd) (r : Stg) (z : Cmd) : Prop where
  id : z.id = c.id
  phase : z.phase = .committed
  pkt : z.pkt = c.pkt
  status : z.status = r.status
  detail : z.detail = r.detail
  ieee : z.ieee = r.ieee
  commitAt : z.commitAt = s.time
  claimed : z.claimed = false
  writes : z.writes = r.writes.filter (fun w => w.tgt.tier == 5)
  self : z.self = c.self

/-- Every operation that runs to its end in one step (R275, R276): a ring's command whose run stages outputs inside the module
and raises nothing commits. `u` is the state in which its own effect acts. -/
theorem runOp_commits {code cid k : Nat} {compute : State → Cmd → Out} {eff : State → Cmd → State} {s : State} {c : Cmd} {r : Stg}
    (h : Runs s cid code c) (ho : c.origin = .ring k) (hd : compute s c = .done r) (hw : r.wait = false) (he : r.evs = [])
    (hl : ∀ w ∈ r.writes, w.tgt.tier ≠ 4) :
    ∃ (u v : State) (z : Cmd), runOp code compute eff cid s = .next (putCmd v z) ∧ Beside s u ∧
      Beside (eff u (atCommit s (withRun c r))) v ∧ Quiet (eff u (atCommit s (withRun c r))) v ∧
      (Still s → u.mem = published s.mem r.writes ∧ u.host = s.host ∧ Still u) ∧
      ((r.writes = [] → r.outs = [] → c.pins = [] → (c.pkt.waitThresh = 0 ∨ (getLock s c.pkt.waitLock).holds = []) →
        SameObjs s u ∧ SameObjs (eff u (atCommit s (withRun c r))) v) ∧ (s.objs = [] → u.objs = [])) ∧
      ((∀ k, Counted s u c k) ∧ SameCounts (eff u (atCommit s (withRun c r))) v) ∧ RecordSays s c r z := by
  obtain ⟨hf, hp, hc⟩ := h
  obtain ⟨w, bw, qw, mw, hs⟩ := stage_near eff s c r hw hl
  obtain ⟨u, v, b1, b2, q2, st, ob, l1, l2, e⟩ := commitWith_all eff s w (withRun c r) bw (show c.self ∈ s.cmds.map Cmd.self from List.mem_map_of_mem (List.mem_of_find?_eq_some hf))
  rw [recorded_ring w v (withRun c r) k ho] at e
  obtain ⟨e1, e2, e3⟩ := mw.signals (withRun c r)
  have ht : atCommit w (withRun c r) = atCommit s (withRun c r) := by unfold atCommit; rw [bw.time, e3]
  rw [ht] at b2 q2 ob l2
  refine ⟨u, v, recordOf w (withRun c r), ?_, b1, b2, q2, fun hst => ?_, ⟨fun h1 h2 h3 hh => ?_, fun h0 => ob.2 (mw.objs.trans h0)⟩, ⟨fun n => ?_, l2⟩, ⟨rfl, rfl, rfl, rfl, rfl, rfl, bw.time, rfl, ?_, rfl⟩⟩
  · unfold runOp
    rw [hf]
    dsimp only
    rw [if_pos ⟨hp, hc⟩, hd]
    dsimp only
    rw [he]
    exact congrArg Host.Outcome.next (hs.trans e)
  · obtain ⟨m, o, i⟩ := qw hst
    obtain ⟨m', o', i'⟩ := st i
    refine ⟨?_, o'.trans o, i'⟩
    rw [m', m]
    show published s.mem ((cutFar r.writes).filter _) = _
    rw [cutFar_near _ hl, published_near]
  · have hlk : (getLock w c.pkt.waitLock).holds = (getLock s c.pkt.waitLock).holds := by unfold getLock; rw [mw.locks]
    obtain ⟨o1, o2⟩ := ob.1 ⟨show cutFar r.writes = [] by rw [h1]; rfl, h2, h3, by show c.pkt.waitThresh = 0 ∨ (getLock w c.pkt.waitLock).holds = []; rw [hlk]; exact hh⟩
    exact ⟨⟨o1.objs.trans mw.objs⟩, o2⟩
  · have hl : ∀ k, getLock w k = getLock s k := fun k => by unfold getLock; rw [mw.locks]
    obtain ⟨x, h1, h2⟩ := l1 n
    have hx : countsTo w (withRun c r) n = countsTo s c n := by rw [mw.is]; rfl
    rw [hx] at h2
    unfold CountIs at *
    simp only [hl] at h1 h2
    exact ⟨x, h1, h2⟩
  · show (cutFar r.writes).filter _ = _
    rw [cutFar_near _ hl]

-- a commit beside its own effect -----------------------------------------------------------------------------------------------

theorem Beside.flights_set {s u : State} (h : Beside s u) (x) : Beside { s with flights := x } { u with flights := x } := by
  obtain ⟨⟩ := h
  constructor <;> first | rfl | assumption

theorem Beside.fsets_set {s u : State} (h : Beside s u) (x) : Beside { s with fsets := x } { u with fsets := x } := by
  obtain ⟨⟩ := h
  constructor <;> first | rfl | assumption

theorem Beside.shards_set {s u : State} (h : Beside s u) (x) : Beside { s with shards := x } { u with shards := x } := by
  obtain ⟨⟩ := h
  constructor <;> first | rfl | assumption

theorem Beside.scheds_set {s u : State} (h : Beside s u) (x) : Beside { s with scheds := x } { u with scheds := x } := by
  obtain ⟨⟩ := h
  constructor <;> first | rfl | assumption

theorem Beside.loans_set {s u : State} (h : Beside s u) (x) : Beside { s with loans := x } { u with loans := x } := by
  obtain ⟨⟩ := h
  constructor <;> first | rfl | assumption

theorem Beside.pools_set {s u : State} (h : Beside s u) (x) : Beside { s with pools := x } { u with pools := x } := by
  obtain ⟨⟩ := h
  constructor <;> first | rfl | assumption

theorem Beside.pfs_set {s u : State} (h : Beside s u) (x) : Beside { s with pfs := x } { u with pfs := x } := by
  obtain ⟨⟩ := h
  constructor <;> first | rfl | assumption

theorem Beside.census_set {s u : State} (h : Beside s u) (x) : Beside { s with census := x } { u with census := x } := by
  obtain ⟨⟩ := h
  constructor <;> first | rfl | assumption

theorem Beside.watch_set {s u : State} (h : Beside s u) (x) : Beside { s with watch := x } { u with watch := x } := by
  obtain ⟨⟩ := h
  constructor <;> first | rfl | assumption

theorem Beside.twatch_set {s u : State} (h : Beside s u) (x) : Beside { s with twatch := x } { u with twatch := x } := by
  obtain ⟨⟩ := h
  constructor <;> first | rfl | assumption

theorem Beside.jobs_set {s u : State} (h : Beside s u) (x) : Beside { s with jobs := x } { u with jobs := x } := by
  obtain ⟨⟩ := h
  constructor <;> first | rfl | assumption

theorem Beside.rings_set {s u : State} (h : Beside s u) (x) : Beside { s with rings := x } { u with rings := x } := by
  obtain ⟨⟩ := h
  constructor <;> first | rfl | assumption

theorem Beside.ctxs_set {s u : State} (h : Beside s u) (x) : Beside { s with ctxs := x } { u with ctxs := x } := by
  obtain ⟨⟩ := h
  constructor <;> first | rfl | assumption

theorem Beside.ended_set {s u : State} (h : Beside s u) (x) : Beside { s with ended := x } { u with ended := x } := by
  obtain ⟨⟩ := h
  constructor <;> first | rfl | assumption

theorem Beside.suspects_set {s u : State} (h : Beside s u) (x) : Beside { s with suspects := x } { u with suspects := x } := by
  obtain ⟨⟩ := h
  constructor <;> first | rfl | assumption

theorem Beside.links_set {s u : State} (h : Beside s u) (x) : Beside { s with links := x } { u with links := x } := by
  obtain ⟨⟩ := h
  constructor <;> first | rfl | assumption

theorem Beside.roots_set {s u : State} (h : Beside s u) (x) : Beside { s with roots := x } { u with roots := x } := by
  obtain ⟨⟩ := h
  constructor <;> first | rfl | assumption

theorem Beside.engines_set {s u : State} (h : Beside s u) (x) : Beside { s with engines := x } { u with engines := x } := by
  obtain ⟨⟩ := h
  constructor <;> first | rfl | assumption

theorem Beside.testing_set {s u : State} (h : Beside s u) (x) : Beside { s with testing := x } { u with testing := x } := by
  obtain ⟨⟩ := h
  constructor <;> first | rfl | assumption

theorem Beside.testQ_set {s u : State} (h : Beside s u) (x) : Beside { s with testQ := x } { u with testQ := x } := by
  obtain ⟨⟩ := h
  constructor <;> first | rfl | assumption

theorem Beside.changes_set {s u : State} (h : Beside s u) (x) : Beside { s with changes := x } { u with changes := x } := by
  obtain ⟨⟩ := h
  constructor <;> first | rfl | assumption

theorem Beside.rounds_set {s u : State} (h : Beside s u) (x) : Beside { s with rounds := x } { u with rounds := x } := by
  obtain ⟨⟩ := h
  constructor <;> first | rfl | assumption

theorem Beside.streams_set {s u : State} (h : Beside s u) (x) : Beside { s with streams := x } { u with streams := x } := by
  obtain ⟨⟩ := h
  constructor <;> first | rfl | assumption

theorem Beside.bufs_set {s u : State} (h : Beside s u) (x) : Beside { s with bufs := x } { u with bufs := x } := by
  obtain ⟨⟩ := h
  constructor <;> first | rfl | assumption

theorem Beside.dump_set {s u : State} (h : Beside s u) (x) : Beside { s with dump := x } { u with dump := x } := by
  obtain ⟨⟩ := h
  constructor <;> first | rfl | assumption

theorem Beside.trust_set {s u : State} (h : Beside s u) (x) : Beside { s with trust := x } { u with trust := x } := by
  obtain ⟨⟩ := h
  constructor <;> first | rfl | assumption

theorem Beside.cxl_set {s u : State} (h : Beside s u) (x) : Beside { s with cxl := x } { u with cxl := x } := by
  obtain ⟨⟩ := h
  constructor <;> first | rfl | assumption

theorem Beside.time_set {s u : State} (h : Beside s u) (x) : Beside { s with time := x } { u with time := x } := by
  obtain ⟨⟩ := h
  constructor <;> first | rfl | assumption

theorem Beside.memRegs_set {s u : State} (h : Beside s u) (x) : Beside { s with memRegs := x } { u with memRegs := x } := by
  obtain ⟨⟩ := h
  constructor <;> first | rfl | assumption | exact fun _ => rfl

theorem Beside.sessions_set {s u : State} (h : Beside s u) (x) : Beside { s with sessions := x } { u with sessions := x } := by
  obtain ⟨⟩ := h
  constructor <;> first | rfl | assumption

theorem Beside.counts_set {s u : State} (h : Beside s u) (x) : Beside { s with counts := x } { u with counts := x } := by
  obtain ⟨⟩ := h
  constructor <;> first | rfl | assumption

theorem Beside.remoteSt_set {s u : State} (h : Beside s u) (x) : Beside { s with remoteSt := x } { u with remoteSt := x } := by
  obtain ⟨⟩ := h
  constructor <;> first | rfl | assumption

theorem Beside.serial_set {s u : State} (h : Beside s u) (x) : Beside { s with serial := x } { u with serial := x } := by
  obtain ⟨⟩ := h
  constructor <;> first | rfl | assumption

/-- An operation with an effect of its own: `u` is the state in which the effect acts, and the commit leaves all else as `Beside` says. -/
theorem effect_row_all {code cid : Nat} {compute : State → Cmd → Out} {eff : State → Cmd → State} {s : State} {c : Cmd} {r : Stg}
    (h : RingRuns s cid code c) (hd : compute s c = .done r) (hn : Near r) :
    ∃ u t, runOp code compute eff cid s = .next t ∧ Beside s u ∧
      (Still s → u.mem = published s.mem r.writes ∧ u.host = s.host ∧ Still u) ∧ Quiet (eff u (atCommit s (withRun c r))) t ∧
      ((r.writes = [] → r.outs = [] → c.pins = [] → (c.pkt.waitThresh = 0 ∨ (getLock s c.pkt.waitLock).holds = []) →
        u.objs = s.objs ∧ t.objs = (eff u (atCommit s (withRun c r))).objs) ∧ (s.objs = [] → u.objs = [])) ∧
      ((∀ k, Counted s u c k) ∧ SameCounts (eff u (atCommit s (withRun c r))) t) ∧
      ∀ x, (∀ y, y ∈ s.cmds.map Cmd.self → y ∈ x.cmds.map Cmd.self) → cid ∈ x.cmds.map Cmd.id →
        Beside x (eff u (atCommit s (withRun c r))) → Beside x t ∧ Recorded s cid c r t := by
  obtain ⟨k, hk⟩ := h.ring
  obtain ⟨u, v, z, e, b, b2, q2, st, ob, lk, zs⟩ := runOp_commits (eff := eff) h.runs hk hd hn.wait hn.evs hn.near
  refine ⟨u, putCmd v z, e, b, st, fun i => ?_, ⟨fun hw ho hp hh => ⟨(ob.1 hw ho hp hh).1.objs, (ob.1 hw ho hp hh).2.objs⟩, ob.2⟩,
    ⟨lk.1, lk.2.trans (SameLocks.counts (putCmd_sameLocks _ _ (SameLocks.refl v)))⟩, fun x hx hi hb => ?_⟩
  · obtain ⟨m, o, i'⟩ := q2 i
    exact ⟨m, o, Still.of (x := v) rfl rfl rfl rfl i'⟩
  · have hv : Beside x v := hb.trans b2
    have hz : z.self ∈ x.cmds.map Cmd.self := hx _ (zs.self ▸ List.mem_map_of_mem (List.mem_of_find?_eq_some h.runs.1))
    have zi : z.id = cid := zs.id.trans (findCmd_mem h.runs.1).1
    refine ⟨putCmd_beside _ _ hz hv, z, ?_, zs.phase, zs.pkt, zs.status, zs.detail, zs.ieee, zs.commitAt, zs.claimed, zs.writes⟩
    have := findCmd_putCmd v z (by rw [hv.ids, zi]; exact hi)
    rwa [zi] at this

theorem effect_row {code cid : Nat} {compute : State → Cmd → Out} {eff : State → Cmd → State} {s : State} {c : Cmd} {r : Stg}
    (h : RingRuns s cid code c) (hd : compute s c = .done r) (hn : Near r) :
    ∃ u t, runOp code compute eff cid s = .next t ∧ Beside s u ∧
      (Still s → u.mem = published s.mem r.writes ∧ u.host = s.host ∧ Still u) ∧ Quiet (eff u (atCommit s (withRun c r))) t ∧
      ((r.writes = [] → r.outs = [] → c.pins = [] → (c.pkt.waitThresh = 0 ∨ (getLock s c.pkt.waitLock).holds = []) →
        u.objs = s.objs ∧ t.objs = (eff u (atCommit s (withRun c r))).objs) ∧ (s.objs = [] → u.objs = [])) ∧
      ∀ x, (∀ y, y ∈ s.cmds.map Cmd.self → y ∈ x.cmds.map Cmd.self) → cid ∈ x.cmds.map Cmd.id →
        Beside x (eff u (atCommit s (withRun c r))) → Beside x t ∧ Recorded s cid c r t := by
  obtain ⟨u, t, e, b, st, q, ob, -, k⟩ := effect_row_all (eff := eff) h hd hn
  exact ⟨u, t, e, b, st, q, ob, k⟩

/-- The same with an effect that changes no command. -/
theorem effect_row_kept {code cid : Nat} {compute : State → Cmd → Out} {eff : State → Cmd → State} {s : State} {c : Cmd} {r : Stg}
    (h : RingRuns s cid code c) (hd : compute s c = .done r) (hn : Near r) :
    ∃ u t, runOp code compute eff cid s = .next t ∧ Beside s u ∧
      (Still s → u.mem = published s.mem r.writes ∧ u.host = s.host ∧ Still u) ∧ Quiet (eff u (atCommit s (withRun c r))) t ∧
      ∀ x, x.cmds = s.cmds → Beside x (eff u (atCommit s (withRun c r))) → Beside x t ∧ Recorded s cid c r t := by
  obtain ⟨u, t, e, b, st, q, _, k⟩ := effect_row (eff := eff) h hd hn
  exact ⟨u, t, e, b, st, q, fun x hx hb => k x (fun y hy => hx ▸ hy) (hx ▸ (findCmd_mem h.runs.1).2) hb⟩

/-- A run that stages nothing is near. -/
theorem near_none : Near Stg.none := ⟨rfl, rfl, fun _ h => absurd h (by simp [Stg.none])⟩

end Sys2Proof.Machine
end

