-- ==== Sys2Proof/Laws/Contained.lean ====
section
/-! SUPPORT. What the end of commands, jobs and rings, kills and events never change (`Contained`): one lemma `<name>_contained` per operation. -/

set_option linter.unusedVariables false

namespace Sys2Proof.Machine

theorem Contained.refl (s : State) : Contained s s := by constructor <;> first | rfl | exact Nat.le_refl _ | exact fun _ => rfl
theorem Contained.trans {a b c : State} (h : Contained a b) (g : Contained b c) : Contained a c :=
  ⟨g.pending.trans h.pending, g.time.trans h.time, fun d => (g.memRegs d).trans (h.memRegs d), Nat.le_trans h.serial g.serial, g.roots.trans h.roots, g.engines.trans h.engines, g.changes.trans h.changes, g.modEpoch.trans h.modEpoch, g.transit.trans h.transit, g.sessions.trans h.sessions, g.answers.trans h.answers, g.nextSes.trans h.nextSes, g.cfg.trans h.cfg, g.power.trans h.power, fun d => (g.dies d).trans (h.dies d)⟩
/-- Other fields written. -/
theorem Contained.set {s x : State} (h : Contained s x) {mem' host' keys' poison' poundQ' remoteSt' cmds' nextId' rings' locks' jobs' ctxs' queueRe' ended' flights' fsets' shards' scheds' loans' pools' objs' pfs' census' watch' twatch' suspects' links' testing' testQ' ports' domain' rounds' streams' sent' held' counts' bufs' cxl' msix' sesQ' modQ' sics' cnts' traces' dump' tap' trust' fresh'} :
    Contained s ⟨x.pending, x.time, mem', host', keys', poison', poundQ', remoteSt', x.memRegs, cmds', nextId', x.serial, rings', locks', jobs', ctxs', queueRe', ended', flights', fsets', shards', scheds', loans', pools', objs', pfs', census', watch', twatch', suspects', links', x.dies, x.roots, x.engines, testing', testQ', x.changes, x.modEpoch, ports', domain', rounds', streams', sent', held', x.transit, x.sessions, counts', bufs', cxl', msix', x.answers, x.nextSes, sesQ', modQ', sics', cnts', traces', dump', x.cfg, x.power, tap', trust', fresh'⟩ := ⟨h.pending, h.time, h.memRegs, h.serial, h.roots, h.engines, h.changes, h.modEpoch, h.transit, h.sessions, h.answers, h.nextSes, h.cfg, h.power, h.dies⟩
/-- Other fields written, and serials given out. -/
theorem Contained.setSerial {s x : State} (h : Contained s x) {n' mem' host' keys' poison' poundQ' remoteSt' cmds' nextId' rings' locks' jobs' ctxs' queueRe' ended' flights' fsets' shards' scheds' loans' pools' objs' pfs' census' watch' twatch' suspects' links' testing' testQ' ports' domain' rounds' streams' sent' held' counts' bufs' cxl' msix' sesQ' modQ' sics' cnts' traces' dump' tap' trust' fresh'} (hn : x.serial ≤ n') :
    Contained s ⟨x.pending, x.time, mem', host', keys', poison', poundQ', remoteSt', x.memRegs, cmds', nextId', n', rings', locks', jobs', ctxs', queueRe', ended', flights', fsets', shards', scheds', loans', pools', objs', pfs', census', watch', twatch', suspects', links', x.dies, x.roots, x.engines, testing', testQ', x.changes, x.modEpoch, ports', domain', rounds', streams', sent', held', x.transit, x.sessions, counts', bufs', cxl', msix', x.answers, x.nextSes, sesQ', modQ', sics', cnts', traces', dump', x.cfg, x.power, tap', trust', fresh'⟩ := ⟨h.pending, h.time, h.memRegs, Nat.le_trans h.serial hn, h.roots, h.engines, h.changes, h.modEpoch, h.transit, h.sessions, h.answers, h.nextSes, h.cfg, h.power, h.dies⟩
/-- The power registers beside those that the relation holds, and other fields, written. -/
theorem Contained.setPower {s x : State} (h : Contained s x) {power' mem' host' keys' poison' poundQ' remoteSt' cmds' nextId' rings' locks' jobs' ctxs' queueRe' ended' flights' fsets' shards' scheds' loans' pools' objs' pfs' census' watch' twatch' suspects' links' testing' testQ' ports' domain' rounds' streams' sent' held' counts' bufs' cxl' msix' sesQ' modQ' sics' cnts' traces' dump' tap' trust' fresh'} (hp : power'.kept = x.power.kept) :
    Contained s ⟨x.pending, x.time, mem', host', keys', poison', poundQ', remoteSt', x.memRegs, cmds', nextId', x.serial, rings', locks', jobs', ctxs', queueRe', ended', flights', fsets', shards', scheds', loans', pools', objs', pfs', census', watch', twatch', suspects', links', x.dies, x.roots, x.engines, testing', testQ', x.changes, x.modEpoch, ports', domain', rounds', streams', sent', held', x.transit, x.sessions, counts', bufs', cxl', msix', x.answers, x.nextSes, sesQ', modQ', sics', cnts', traces', dump', x.cfg, power', tap', trust', fresh'⟩ := ⟨h.pending, h.time, h.memRegs, h.serial, h.roots, h.engines, h.changes, h.modEpoch, h.transit, h.sessions, h.answers, h.nextSes, h.cfg, hp.trans h.power, h.dies⟩
theorem setDie_contained0 {s : State} (a0 : State) (a1 : Nat) (a2 : Die) (h0 : Contained s a0) (hk : a2.kept = (getDie a0 a1).kept) : Contained s (setDie a0 a1 a2) := by
  refine ⟨h0.pending, h0.time, h0.memRegs, h0.serial, h0.roots, h0.engines, h0.changes, h0.modEpoch, h0.transit, h0.sessions, h0.answers, h0.nextSes, h0.cfg, h0.power, ?_⟩
  intro e
  have : getDie (setDie a0 a1 a2) e = if a1 = e then a2 else getDie a0 e := tget_tset _ a1 e a2
  rw [this]
  split
  · subst_vars; exact hk.trans (h0.dies _)
  · exact h0.dies e
theorem setMemRegs_contained0 {s : State} (a0 : State) (a1 : Nat) (a2 : MemRegs) (h0 : Contained s a0) (hk : a2.kept = (getMemRegs a0 a1).kept) : Contained s (setMemRegs a0 a1 a2) := by
  refine ⟨h0.pending, h0.time, ?_, h0.serial, h0.roots, h0.engines, h0.changes, h0.modEpoch, h0.transit, h0.sessions, h0.answers, h0.nextSes, h0.cfg, h0.power, h0.dies⟩
  intro e
  have : getMemRegs (setMemRegs a0 a1 a2) e = if a1 = e then a2 else getMemRegs a0 e := tget_tset _ a1 e a2
  rw [this]
  split
  · subst_vars; exact hk.trans (h0.memRegs _)
  · exact h0.memRegs e
theorem Contained.ite {s a b : State} {c : Prop} [Decidable c] (ha : Contained s a) (hb : Contained s b) : Contained s (if c then a else b) := by
  split
  · exact ha
  · exact hb
theorem Contained.foldl {α : Type} {s x : State} {g : State → α → State} (l : List α) (h : Contained s x) (hg : ∀ t a, Contained s t → Contained s (g t a)) :
    Contained s (l.foldl g x) := by
  induction l generalizing x with
  | nil => exact h
  | cons a l ih => exact ih (hg x a h)
theorem Contained.foldlP {α β : Type} {s : State} {x : State × β} {g : State × β → α → State × β} (l : List α) (h : Contained s x.1)
    (hg : ∀ t a, Contained s t.1 → Contained s (g t a).1) : Contained s (l.foldl g x).1 := by
  induction l generalizing x with
  | nil => exact h
  | cons a l ih => exact ih (hg x a h)
def ContainedO (s : State) (o : Host.Outcome State Fault Refusal) : Prop := ∀ t, o = .next t → Contained s t
theorem ContainedO.next {s t : State} (h : Contained s t) : ContainedO s (.next t) := fun _ e => by cases e; exact h
theorem ContainedO.stop {s : State} {o : Host.Outcome State Fault Refusal} (h : ∀ t, o ≠ .next t) : ContainedO s o := fun t e => absurd e (h t)
theorem ContainedO.ite {s : State} {a b : Host.Outcome State Fault Refusal} {c : Prop} [Decidable c] (ha : ContainedO s a) (hb : ContainedO s b) :
    ContainedO s (if c then a else b) := by
  split
  · exact ha
  · exact hb
def ContainedR (s : State) (r : StartRes) : Prop := match r with | .go t _ => Contained s t | _ => True
theorem ContainedR.go {s t : State} {c : Cmd} (h : Contained s t) : ContainedR s (.go t c) := h
theorem ContainedR.ite {s : State} {a b : StartRes} {c : Prop} [Decidable c] (ha : ContainedR s a) (hb : ContainedR s b) : ContainedR s (if c then a else b) := by
  split
  · exact ha
  · exact hb

theorem wrLocal_contained {s : State} (a0 : State) (a1 : ℕ) (a2 : ℕ) (a3 : List Byte) (h0 : Contained s a0) : Contained s (wrLocal a0 a1 a2 a3) := by
  delta wrLocal
  refine Contained.set ?_
  assumption

theorem syncPool_contained {s : State} (a0 : State) (a1 : ℕ) (h0 : Contained s a0) : Contained s (syncPool a0 a1) := by
  delta syncPool
  split
  · assumption
  · extract_lets v0 v1
    clear_value v0 v1
    apply wrLocal_contained
    apply wrLocal_contained
    assumption

theorem putObj_contained {s : State} (a0 : State) (a1 : ℕ) (a2 : ResObj) (h0 : Contained s a0) : Contained s (putObj a0 a1 a2) := by
  delta putObj
  extract_lets v0 v1 v2 v3 v4
  have k5 : Contained s v0 := by
    unfold v0
    refine Contained.set ?_
    assumption
  clear_value v0
  clear_value v1
  have k6 : Contained s v2 := by
    unfold v2
    apply wrLocal_contained
    assumption
  clear_value v2
  have k7 : Contained s v3 := by
    unfold v3
    apply wrLocal_contained
    assumption
  clear_value v3
  have k8 : Contained s v4 := by
    unfold v4
    apply wrLocal_contained
    assumption
  clear_value v4
  apply syncPool_contained
  apply syncPool_contained
  assumption

theorem setCnt_contained {s : State} (a0 : State) (a1 : ℕ) (a2 : CntBlock) (h0 : Contained s a0) : Contained s (setCnt a0 a1 a2) := by
  delta setCnt
  refine Contained.set ?_
  assumption

theorem setSic_contained {s : State} (a0 : State) (a1 : ℕ) (a2 : Sic) (h0 : Contained s a0) : Contained s (setSic a0 a1 a2) := by
  delta setSic
  refine Contained.set ?_
  assumption

theorem fire_contained {s : State} (a0 : State) (a1 : ℕ) (a2 : ℕ) (h0 : Contained s a0) : Contained s (fire a0 a1 a2) := by
  delta fire
  refine Contained.ite ?_ ?_
  · assumption
  · apply setSic_contained
    assumption

theorem count_contained {s : State} (a0 : State) (a1 : ℕ) (a2 : ℕ × ℕ) (a3 : ℕ) (a4 : ℕ) (a5 : Option (ℕ × ℕ)) (h0 : Contained s a0) : Contained s (count a0 a1 a2 a3 a4 a5) := by
  delta count
  refine Contained.ite ?_ ?_
  · assumption
  · extract_lets v0 v1 v2
    clear_value v0 v1
    have k3 : Contained s v2 := by
      unfold v2
      apply setCnt_contained
      assumption
    clear_value v2
    refine Contained.ite ?_ ?_
    · assumption
    · apply fire_contained
      assumption

theorem wrHost_contained {s : State} (a0 : State) (a1 : ℕ) (a2 : List Byte) (h0 : Contained s a0) : Contained s (wrHost a0 a1 a2) := by
  delta wrHost
  refine Contained.set ?_
  assumption

theorem setPort_contained {s : State} (a0 : State) (a1 : ℕ) (a2 : Port) (h0 : Contained s a0) : Contained s (setPort a0 a1 a2) := by
  delta setPort
  refine Contained.set ?_
  assumption

theorem setTrace_contained {s : State} (a0 : State) (a1 : ℕ) (a2 : Trace) (h0 : Contained s a0) : Contained s (setTrace a0 a1 a2) := by
  delta setTrace
  refine Contained.set ?_
  assumption

theorem trPut_contained {s : State} (a0 : State) (a1 : Trace) (a2 : ℕ) (a3 : List Byte) (h0 : Contained s a0) : Contained s (trPut a0 a1 a2 a3) := by
  delta trPut
  extract_lets v0
  clear_value v0
  split
  · assumption
  · refine Contained.ite ?_ ?_
    · apply wrLocal_contained
      assumption
    · assumption

theorem traceRec_contained {s : State} (a0 : State) (a1 : ℕ) (a2 : TrRec) (h0 : Contained s a0) : Contained s (traceRec a0 a1 a2) := by
  delta traceRec
  extract_lets v0 v1 v2 v3 v4 v5 v6 v7 v8 v9 v10 v11 v12 v13 v14 v15 v16 v17 v18 v19 v20 v21 v22
  clear_value v0 v1 v2 v3 v4 v5 v6
  have k23 : Contained s v7 := by
    unfold v7
    apply trPut_contained
    assumption
  clear_value v7
  clear_value v8 v9 v10 v11 v12 v13 v14 v15
  have k24 : Contained s v16.1 := by
    unfold v16
    split
    · dsimp only
      apply fire_contained
      assumption
    · split
      · dsimp only
        apply trPut_contained
        assumption
      · dsimp only
        assumption
  clear_value v16
  have k25 : Contained s v17 := by
    unfold v17
    assumption
  clear_value v17
  clear_value v18 v19 v20 v21
  have k26 : Contained s v22 := by
    unfold v22
    apply count_contained
    assumption
  clear_value v22
  refine Contained.ite ?_ ?_
  · assumption
  · refine Contained.ite ?_ ?_
    · apply fire_contained
      apply setTrace_contained
      assumption
    · apply setTrace_contained
      assumption

theorem transmit_contained {s : State} (a0 : State) (a1 : ℕ) (a2 : Msg) (h0 : Contained s a0) : Contained s (transmit a0 a1 a2) := by
  delta transmit
  extract_lets v0 v1 v2 v3
  have k4 : Contained s v0 := by
    unfold v0
    apply traceRec_contained
    assumption
  clear_value v0
  have k5 : Contained s v1 := by
    unfold v1
    refine Contained.ite ?_ ?_
    · apply count_contained
      assumption
    · assumption
  clear_value v1
  clear_value v2 v3
  apply setPort_contained
  refine Contained.set ?_
  assumption

theorem offer_contained {s : State} (a0 : State) (a1 : Msg) (h0 : Contained s a0) : Contained s (offer a0 a1) := by
  delta offer
  refine Contained.ite ?_ ?_
  · refine Contained.set ?_
    assumption
  · split
    · apply transmit_contained
      assumption
    · refine Contained.set ?_
      assumption

theorem countPaced_contained {s : State} (a0 : State) (a1 : Msg) (h0 : Contained s a0) : Contained s (countPaced a0 a1) := by
  delta countPaced
  split
  · refine Contained.ite ?_ ?_
    · apply setPort_contained
      assumption
    · assumption
  · assumption

theorem send_contained {s : State} (a0 : State) (a1 : Msg) (h0 : Contained s a0) : Contained s (send a0 a1) := by
  delta send
  refine Contained.ite ?_ ?_
  · assumption
  · extract_lets v0 v1 v2 v3 v4
    clear_value v0 v1 v2 v3
    have k5 : Contained s v4 := by
      unfold v4
      refine Contained.set ?_
      assumption
    clear_value v4
    apply offer_contained
    apply countPaced_contained
    assumption

theorem sendWb_contained {s : State} (a0 : State) (a1 : ResObj) (a2 : ℕ) (a3 : ℕ) (a4 : ℕ) (a5 : ℕ) (a6 : List ℕ) (a7 : List Byte) (h0 : Contained s a0) : Contained s (sendWb a0 a1 a2 a3 a4 a5 a6 a7) := by
  delta sendWb
  apply send_contained
  assumption

theorem stageWb_contained {s : State} (a0 : State) (a1 : ℕ) (a2 : ℕ) (a3 : ℕ) (h0 : Contained s a0) : Contained s (stageWb a0 a1 a2 a3) := by
  delta stageWb
  split
  · assumption
  · refine Contained.ite ?_ ?_
    · extract_lets v0 v1
      have k2 : Contained s v0 := by
        unfold v0
        split
        · refine Contained.foldl _ ?_ (fun t3 b3 h3 => ?_)
          · assumption
          · apply sendWb_contained
            assumption
        · assumption
      clear_value v0
      clear_value v1
      apply putObj_contained
      assumption
    · apply putObj_contained
      assumption

theorem fireMsix_contained {s : State} (a0 : State) (a1 : ℕ) (h0 : Contained s a0) : Contained s (fireMsix a0 a1) := by
  delta fireMsix
  refine Contained.ite ?_ ?_
  · refine Contained.set ?_
    assumption
  · assumption

theorem deliver_contained {s : State} (a0 : State) (a1 : Event) (a2 : Option ℕ) (h0 : Contained s a0) : Contained s (deliver a0 a1 a2) := by
  delta deliver
  extract_lets v0 v1 v2 v3 v4 v5
  clear_value v0
  have k6 : Contained s v1.1 := by
    unfold v1
    split
    · dsimp only
      assumption
    · extract_lets v7
      clear_value v7
      dsimp only
      refine Contained.set ?_
      assumption
  clear_value v1
  clear_value v2 v3
  have k8 : Contained s v4 := by
    unfold v4
    assumption
  clear_value v4
  have k9 : Contained s v5.1 := by
    unfold v5
    split
    · dsimp only
      refine Contained.set ?_
      assumption
    · assumption
  clear_value v5
  refine Contained.ite ?_ ?_
  · apply fireMsix_contained
    assumption
  · assumption

theorem raiseOp_contained {s : State} (a0 : State) (a1 : Option (ℕ × ℕ)) (a2 : ℕ) (a3 : ℕ) (a4 : ℕ) (a5 : Bool) (a6 : Option ℕ) (a7 : ℕ) (a8 : ℕ) (a9 : ℕ) (a10 : ℕ) (a11 : ℕ) (a12 : ℕ) (h0 : Contained s a0) : Contained s (raiseOp a0 a1 a2 a3 a4 a5 a6 a7 a8 a9 a10 a11 a12) := by
  delta raiseOp
  extract_lets v0 v1 v2 v3 v4 v5 v6 v7
  have k8 : Contained s v3 := by
    unfold v3
    refine setDie_contained0 _ _ _ ?_ rfl
    assumption
  clear_value v3
  have k9 : Contained s v4 := by
    unfold v4
    apply count_contained
    assumption
  clear_value v4
  have k10 : Contained s v5 := by
    unfold v5
    apply traceRec_contained
    assumption
  clear_value v5
  have k11 : Contained s v6 := by
    unfold v6
    apply fire_contained
    assumption
  clear_value v6
  refine Contained.ite ?_ ?_
  · refine Contained.setPower ?_ rfl
    assumption
  · apply deliver_contained
    assumption

theorem raiseFor_contained {s : State} (a0 : State) (a1 : ℕ) (a2 : ℕ) (a3 : Bool) (a4 : Option ℕ) (a5 : ℕ) (a6 : ℕ) (a7 : ℕ) (a8 : ℕ) (a9 : ℕ) (a10 : ℕ) (h0 : Contained s a0) : Contained s (raiseFor a0 a1 a2 a3 a4 a5 a6 a7 a8 a9 a10) := by
  delta raiseFor
  apply raiseOp_contained
  assumption

theorem raise_contained {s : State} (a0 : State) (a1 : ℕ) (a2 : ℕ) (a3 : ℕ) (a4 : ℕ) (a5 : ℕ) (a6 : ℕ) (a7 : ℕ) (a8 : ℕ) (h0 : Contained s a0) : Contained s (raise a0 a1 a2 a3 a4 a5 a6 a7 a8) := by
  delta raise
  apply raiseFor_contained
  assumption

theorem raiseMod_contained {s : State} (a0 : State) (a1 : ℕ) (a2 : ℕ) (a3 : ℕ) (a4 : ℕ) (a5 : ℕ) (h0 : Contained s a0) : Contained s (raiseMod a0 a1 a2 a3 a4 a5) := by
  delta raiseMod
  apply raise_contained
  assumption

theorem markRetired_contained {s : State} (a0 : State) (a1 : ℕ) (h0 : Contained s a0) : Contained s (markRetired a0 a1) := by
  delta markRetired
  extract_lets v0 v1 v2 v3
  refine Contained.ite ?_ ?_
  · assumption
  · apply raiseMod_contained
    refine setMemRegs_contained0 _ _ _ ?_ rfl
    assumption

theorem memError_contained {s : State} (a0 : State) (a1 a2 a3 a4 a5 : Nat) (a6 : Option Nat) (a7 : Nat) (h0 : Contained s a0) : Contained s (memError a0 a1 a2 a3 a4 a5 a6 a7) := by
  delta memError
  extract_lets m m1 s1 s2 s3
  have e : m1.kept = m.kept := by
    unfold m1
    split
    · rfl
    · split <;> rfl
  have k1 : Contained s s1 := setMemRegs_contained0 _ _ _ h0 e
  have k2 : Contained s s2 := Contained.ite (fire_contained _ _ _ k1) k1
  have k3 : Contained s s3 := raiseFor_contained _ _ _ _ _ _ _ _ _ _ _ k2
  exact Contained.ite (markRetired_contained _ _ k3) k3

theorem clearCopy_contained {s : State} (a0 : State) (a1 : ℕ) (a2 : ℕ) (h0 : Contained s a0) : Contained s (clearCopy a0 a1 a2) := by
  delta clearCopy
  split
  · assumption
  · apply putObj_contained
    apply count_contained
    assumption

theorem removeCopy_contained {s : State} (a0 : State) (a1 : ℕ) (a2 : ℕ) (h0 : Contained s a0) : Contained s (removeCopy a0 a1 a2) := by
  delta removeCopy
  split
  · assumption
  · extract_lets v0 v1
    clear_value v0
    have k2 : Contained s v1 := by
      unfold v1
      split
      · apply memError_contained
        assumption
      · assumption
    clear_value v1
    refine Contained.ite ?_ ?_
    · assumption
    · refine Contained.ite ?_ ?_
      · apply clearCopy_contained
        assumption
      · split
        · apply putObj_contained
          assumption
        · apply stageWb_contained
          refine Contained.setSerial ?_ (Nat.le_succ _)
          assumption

theorem unpinUse_contained {s : State} (a0 : State) (a1 : ℕ) (a2 : ℕ) (h0 : Contained s a0) : Contained s (unpinUse a0 a1 a2) := by
  delta unpinUse
  split
  · assumption
  · extract_lets v0 v1 v2
    clear_value v0 v1
    have k3 : Contained s v2 := by
      unfold v2
      apply putObj_contained
      assumption
    clear_value v2
    refine Contained.ite ?_ ?_
    · apply removeCopy_contained
      assumption
    · assumption

theorem dropPromotion_contained {s : State} (a0 : State) (a1 : ℕ) (a2 : ℕ) (h0 : Contained s a0) : Contained s (dropPromotion a0 a1 a2) := by
  delta dropPromotion
  split
  · assumption
  · refine Contained.ite ?_ ?_
    · apply putObj_contained
      assumption
    · assumption

theorem sendCmd_contained {s : State} (a0 : State) (a1 : Cmd) (a2 : ℕ) (a3 : ℕ) (a4 : ℕ) (a5 : List ℕ) (a6 : List Byte) (h0 : Contained s a0) : Contained s (sendCmd a0 a1 a2 a3 a4 a5 a6) := by
  delta sendCmd
  apply send_contained
  assumption

theorem dropQueued_contained {s : State} (a0 : State) (a1 : Cmd) (h0 : Contained s a0) : Contained s (dropQueued a0 a1) := by
  delta dropQueued
  refine Contained.set ?_
  assumption

theorem releaseRun_contained {s : State} (a0 : State) (a1 : Cmd) (h0 : Contained s a0) : Contained s (releaseRun a0 a1) := by
  delta releaseRun
  extract_lets v0 v1 v2
  have k3 : Contained s v0 := by
    unfold v0
    refine Contained.ite ?_ ?_
    · apply dropQueued_contained
      assumption
    · assumption
  clear_value v0
  have k4 : Contained s v1 := by
    unfold v1
    refine Contained.foldl _ ?_ (fun t5 b5 h5 => ?_)
    · assumption
    · apply unpinUse_contained
      assumption
  clear_value v1
  have k6 : Contained s v2 := by
    unfold v2
    refine Contained.ite ?_ ?_
    · apply dropPromotion_contained
      assumption
    · assumption
  clear_value v2
  refine Contained.foldl _ ?_ (fun t7 b7 h7 => ?_)
  · assumption
  · apply sendCmd_contained
    assumption

theorem jobCount_contained {s : State} (a0 : State) (a1 : ℕ) (a2 : ℕ) (a3 : ℕ) (a4 : ℕ) (a5 : ℕ) (h0 : Contained s a0) : Contained s (jobCount a0 a1 a2 a3 a4 a5) := by
  delta jobCount
  split
  · assumption
  · extract_lets v0 v1 v2 v3
    clear_value v0 v1 v2 v3
    refine Contained.ite ?_ ?_
    · refine Contained.ite ?_ ?_
      · apply wrHost_contained
        assumption
      · assumption
    · apply wrLocal_contained
      assumption

theorem endStall_contained {s : State} (a0 : State) (a1 : Cmd) (h0 : Contained s a0) : Contained s (endStall a0 a1).1 := by
  delta endStall
  split
  · dsimp only
    assumption
  · extract_lets v0 v1 v2 v3 v4
    clear_value v0
    have k5 : Contained s v1 := by
      unfold v1
      apply jobCount_contained
      assumption
    clear_value v1
    have k6 : Contained s v2 := by
      unfold v2
      refine Contained.ite ?_ ?_
      · assumption
      · apply jobCount_contained
        assumption
    clear_value v2
    clear_value v3
    have k7 : Contained s v4 := by
      unfold v4
      apply traceRec_contained
      assumption
    clear_value v4
    dsimp only
    assumption

theorem engineDone_contained {s : State} (a0 : State) (a1 : Cmd) (h0 : Contained s a0) : Contained s (engineDone a0 a1) := by
  delta engineDone
  split
  · refine Contained.ite ?_ ?_
    · apply fire_contained
      assumption
    · refine Contained.ite ?_ ?_
      · apply fire_contained
        assumption
      · refine Contained.ite ?_ ?_
        · apply fire_contained
          assumption
        · assumption
  · assumption

theorem seqAttn_contained {s : State} (a0 : State) (a1 : Cmd) (h0 : Contained s a0) : Contained s (seqAttn a0 a1) := by
  delta seqAttn
  split
  · refine Contained.ite ?_ ?_
    · apply fire_contained
      assumption
    · assumption
  · assumption

theorem drift_contained {s : State} (a0 : State) (a1 : Option (ℕ × ℕ)) (h0 : Contained s a0) : Contained s (drift a0 a1) := by
  delta drift
  refine Contained.foldl _ ?_ (fun t0 b0 h0 => ?_)
  · assumption
  · refine Contained.foldl _ ?_ (fun t1 b1 h1 => ?_)
    · assumption
    · extract_lets v2
      clear_value v2
      refine Contained.ite ?_ ?_
      · apply count_contained
        refine Contained.set ?_
        assumption
      · assumption

theorem dropCmd_contained {s : State} (a0 : State) (a1 : ℕ) (h0 : Contained s a0) : Contained s (dropCmd a0 a1) := by
  delta dropCmd
  refine Contained.set ?_
  assumption

theorem setRing_contained {s : State} (a0 : State) (a1 : ℕ) (a2 : Ring) (h0 : Contained s a0) : Contained s (setRing a0 a1 a2) := by
  delta setRing
  refine Contained.set ?_
  assumption

theorem dropRingBufs_contained {s : State} (a0 : State) (a1 : ℕ) (h0 : Contained s a0) : Contained s (dropRingBufs a0 a1) := by
  delta dropRingBufs
  refine Contained.set ?_
  assumption

theorem ringFault_contained {s : State} (a0 : State) (a1 : ℕ) (a2 : ℕ) (h0 : Contained s a0) : Contained s (ringFault a0 a1 a2) := by
  delta ringFault
  extract_lets v0 v1 v2 v3 v4
  clear_value v0
  have k5 : Contained s v1 := by
    unfold v1
    apply setRing_contained
    assumption
  clear_value v1
  have k6 : Contained s v2 := by
    unfold v2
    apply dropRingBufs_contained
    assumption
  clear_value v2
  have k7 : Contained s v3 := by
    unfold v3
    refine Contained.ite ?_ ?_
    · assumption
    · apply fire_contained
      assumption
  clear_value v3
  have k8 : Contained s v4 := by
    unfold v4
    refine Contained.ite ?_ ?_
    · refine Contained.set ?_
      assumption
    · assumption
  clear_value v4
  apply raiseFor_contained
  assumption

theorem wrPlain_contained {s : State} (a0 : State) (a1 : ℕ) (a2 : List Byte) (h0 : Contained s a0) : Contained s (wrPlain a0 a1 a2) := by
  delta wrPlain
  refine Contained.set ?_
  assumption

theorem writeReply_contained {s : State} (a0 : State) (a1 : ℕ) (a2 : List Byte) (h0 : Contained s a0) : Contained s (writeReply a0 a1 a2) := by
  delta writeReply
  extract_lets v0 v1 v2 v3 v4 v5 v6 v7 v8
  clear_value v0 v1 v2 v3 v4 v5
  have k9 : Contained s v6 := by
    unfold v6
    refine Contained.ite ?_ ?_
    · refine Contained.ite ?_ ?_
      · apply wrHost_contained
        apply wrHost_contained
        assumption
      · apply wrHost_contained
        assumption
    · apply wrPlain_contained
      assumption
  clear_value v6
  have k10 : Contained s v7 := by
    unfold v7
    apply setRing_contained
    assumption
  clear_value v7
  have k11 : Contained s v8 := by
    unfold v8
    apply fire_contained
    assumption
  clear_value v8
  refine Contained.ite ?_ ?_
  · apply setRing_contained
    apply ringFault_contained
    assumption
  · refine Contained.ite ?_ ?_
    · refine Contained.ite ?_ ?_
      · apply fireMsix_contained
        assumption
      · assumption
    · assumption

theorem resetRing_contained {s : State} (a0 : State) (a1 : ℕ) (h0 : Contained s a0) : Contained s (resetRing a0 a1) := by
  delta resetRing
  apply dropRingBufs_contained
  apply setRing_contained
  assumption

theorem endUnbind_contained {s : State} (a0 : State) (a1 : ℕ) (h0 : Contained s a0) : Contained s (endUnbind a0 a1) := by
  delta endUnbind
  extract_lets v0
  clear_value v0
  refine Contained.ite ?_ ?_
  · apply fireMsix_contained
    apply resetRing_contained
    assumption
  · assumption

theorem finishCmd_contained {s : State} (a0 : State) (a1 : Cmd) (h0 : Contained s a0) : Contained s (finishCmd a0 a1) := by
  delta finishCmd
  extract_lets v0 v1
  have k2 : Contained s v0 := by
    unfold v0
    apply dropCmd_contained
    assumption
  clear_value v0
  have k3 : Contained s v1 := by
    unfold v1
    refine Contained.set ?_
    assumption
  clear_value v1
  split
  · extract_lets v4 v5
    clear_value v4
    have k6 : Contained s v5 := by
      unfold v5
      refine Contained.ite ?_ ?_
      · apply setRing_contained
        assumption
      · apply writeReply_contained
        assumption
    clear_value v5
    apply endUnbind_contained
    assumption
  · assumption

theorem setLock_contained {s : State} (a0 : State) (a1 : ℕ) (a2 : Lock) (h0 : Contained s a0) : Contained s (setLock a0 a1 a2) := by
  delta setLock
  refine Contained.set ?_
  assumption

theorem putCmd_contained {s : State} (a0 : State) (a1 : Cmd) (h0 : Contained s a0) : Contained s (putCmd a0 a1) := by
  delta putCmd
  refine Contained.set ?_
  assumption

theorem grantClaim_contained {s : State} (a0 : State) (a1 : ℕ) (a2 : ℕ) (a3 : ℕ) (h0 : Contained s a0) : Contained s (grantClaim a0 a1 a2 a3) := by
  delta grantClaim
  split
  · assumption
  · extract_lets v0 v1 v2 v3 v4
    clear_value v0
    have k5 : Contained s v1 := by
      unfold v1
      apply setLock_contained
      assumption
    clear_value v1
    have k6 : Contained s v2.1 := by
      unfold v2
      apply endStall_contained
      assumption
    clear_value v2
    clear_value v3
    have k7 : Contained s v4 := by
      unfold v4
      apply putCmd_contained
      assumption
    clear_value v4
    apply traceRec_contained
    assumption

theorem evalClaims_contained {s : State} (a0 : Nat) (a1 : Nat) (a2 : State) (h0 : Contained s a2) : Contained s (evalClaims a0 a1 a2) := by
  induction a1 generalizing a2 with
  | zero => exact h0
  | succ n ih =>
    rw [evalClaims]
    split
    · exact h0
    · split
      · exact ih _ (setLock_contained _ _ _ h0)
      · split
        · exact ih _ (grantClaim_contained _ _ _ _ h0)
        · exact h0

theorem reclaim_contained {s : State} (a0 : State) (a1 : ℕ) (h0 : Contained s a0) : Contained s (reclaim a0 a1) := by
  delta reclaim
  apply evalClaims_contained
  assumption

theorem settleSetters_contained {s : State} (a0 : State) (a1 : ℕ) (h0 : Contained s a0) : Contained s (settleSetters a0 a1) := by
  delta settleSetters
  extract_lets v0
  clear_value v0
  refine Contained.ite ?_ ?_
  · apply reclaim_contained
    apply setLock_contained
    assumption
  · assumption

theorem leaveQueue_contained {s : State} (a0 : State) (a1 : ℕ) (a2 : ℕ) (h0 : Contained s a0) : Contained s (leaveQueue a0 a1 a2) := by
  delta leaveQueue
  extract_lets v0
  clear_value v0
  apply setLock_contained
  assumption

theorem returnClaim_contained {s : State} (a0 : State) (a1 : ℕ) (a2 : ℕ) (h0 : Contained s a0) : Contained s (returnClaim a0 a1 a2) := by
  delta returnClaim
  extract_lets v0
  clear_value v0
  apply setLock_contained
  assumption

theorem putPf_contained {s : State} (a0 : State) (a1 : ℕ) (a2 : PfSched) (h0 : Contained s a0) : Contained s (putPf a0 a1 a2) := by
  delta putPf
  extract_lets v0 v1 v2
  have k3 : Contained s v0 := by
    unfold v0
    refine Contained.set ?_
    assumption
  clear_value v0
  clear_value v1 v2
  apply wrLocal_contained
  apply wrLocal_contained
  apply wrLocal_contained
  assumption

theorem promotionFault_contained {s : State} (a0 : State) (a1 : ℕ) (a2 : ℕ) (a3 : ℕ) (h0 : Contained s a0) : Contained s (promotionFault a0 a1 a2 a3) := by
  delta promotionFault
  split
  · assumption
  · extract_lets v0 v1 v2 v3
    have k4 : Contained s v0 := by
      unfold v0
      split
      · apply unpinUse_contained
        assumption
      · assumption
    clear_value v0
    clear_value v1 v2
    have k5 : Contained s v3 := by
      unfold v3
      apply putPf_contained
      assumption
    clear_value v3
    refine Contained.ite ?_ ?_
    · apply putPf_contained
      assumption
    · apply raise_contained
      assumption

theorem copyEnded_contained {s : State} (a0 : State) (a1 : ℕ) (a2 : ℕ) (a3 : ℕ × ℕ × ℕ) (h0 : Contained s a0) : Contained s (copyEnded a0 a1 a2 a3) := by
  delta copyEnded
  split
  · assumption
  · apply putCmd_contained
    assumption

theorem endCopies_contained {s : State} (a0 : State) (a1 : ℕ) (h0 : Contained s a0) : Contained s (endCopies a0 a1) := by
  delta endCopies
  extract_lets v0
  have k1 : Contained s v0 := by
    unfold v0
    refine Contained.foldl _ ?_ (fun t2 b2 h2 => ?_)
    · assumption
    · apply releaseRun_contained
      assumption
  clear_value v0
  refine Contained.set ?_
  assumption

theorem endCmd_contained {s : State} (a0 : State) (a1 : Cmd) (a2 : ℕ) (a3 : ℕ) (h0 : Contained s a0) : Contained s (endCmd a0 a1 a2 a3) := by
  delta endCmd
  extract_lets v0 v1 v2 v3 v4 v5 v6 v7 v8 v9 v10 v11 v12 v13 v14 v15 v16
  have k17 : Contained s v0 := by
    unfold v0
    apply releaseRun_contained
    assumption
  clear_value v0
  clear_value v1
  have k18 : Contained s v2.1 := by
    unfold v2
    apply endStall_contained
    assumption
  clear_value v2
  have k19 : Contained s v3 := by
    unfold v3
    assumption
  clear_value v3
  clear_value v4
  have k20 : Contained s v5 := by
    unfold v5
    refine Contained.ite ?_ ?_
    · apply traceRec_contained
      assumption
    · assumption
  clear_value v5
  have k21 : Contained s v6 := by
    unfold v6
    apply traceRec_contained
    assumption
  clear_value v6
  have k22 : Contained s v7 := by
    unfold v7
    refine Contained.ite ?_ ?_
    · apply jobCount_contained
      assumption
    · assumption
  clear_value v7
  have k23 : Contained s v8 := by
    unfold v8
    split
    · refine Contained.ite ?_ ?_
      · apply count_contained
        assumption
      · assumption
    · assumption
  clear_value v8
  have k24 : Contained s v9 := by
    unfold v9
    apply engineDone_contained
    apply seqAttn_contained
    assumption
  clear_value v9
  have k25 : Contained s v10 := by
    unfold v10
    refine Contained.ite ?_ ?_
    · apply drift_contained
      assumption
    · assumption
  clear_value v10
  clear_value v11
  have k26 : Contained s v12 := by
    unfold v12
    apply finishCmd_contained
    assumption
  clear_value v12
  have k27 : Contained s v13 := by
    unfold v13
    split
    · apply settleSetters_contained
      apply leaveQueue_contained
      assumption
    · assumption
  clear_value v13
  clear_value v14
  have k28 : Contained s v15 := by
    unfold v15
    refine Contained.ite ?_ ?_
    · apply returnClaim_contained
      assumption
    · assumption
  clear_value v15
  have k29 : Contained s v16 := by
    unfold v16
    refine Contained.ite ?_ ?_
    · assumption
    · apply reclaim_contained
      apply leaveQueue_contained
      assumption
  clear_value v16
  split
  · apply promotionFault_contained
    assumption
  · apply copyEnded_contained
    assumption
  · apply endCopies_contained
    assumption
  · assumption

theorem raiseCmd_contained {s : State} (a0 : State) (a1 : Cmd) (a2 : ℕ) (a3 : ℕ) (a4 : ℕ) (a5 : ℕ) (h0 : Contained s a0) : Contained s (raiseCmd a0 a1 a2 a3 a4 a5) := by
  delta raiseCmd
  apply raiseOp_contained
  assumption

theorem addCount_contained {s : State} (a0 : State) (a1 : ℕ) (a2 : ℕ) (a3 : Option Cmd) (h0 : Contained s a0) : Contained s (addCount a0 a1 a2 a3) := by
  delta addCount
  extract_lets v0 v1 v2 v3
  clear_value v0
  have k4 : Contained s v1 := by
    unfold v1
    apply setLock_contained
    assumption
  clear_value v1
  have k5 : Contained s v2 := by
    unfold v2
    apply count_contained
    assumption
  clear_value v2
  have k6 : Contained s v3 := by
    unfold v3
    apply traceRec_contained
    assumption
  clear_value v3
  refine Contained.ite ?_ ?_
  · apply raise_contained
    assumption
  · assumption

theorem updJob_contained {s : State} (a0 : State) (a1 : ℕ) (a2 : Job → Job) (h0 : Contained s a0) : Contained s (updJob a0 a1 a2) := by
  delta updJob
  refine Contained.set ?_
  assumption

theorem endAll_contained {s : State} (a0 : State) (a1 : ℕ) (a2 : ℕ) (a3 : Cmd → Bool) (h0 : Contained s a0) : Contained s (endAll a0 a1 a2 a3) := by
  delta endAll
  refine Contained.foldl _ ?_ (fun t0 b0 h0 => ?_)
  · assumption
  · split
    · apply endCmd_contained
      assumption
    · assumption

theorem signalLock_contained {s : State} (a0 : State) (a1 : ℕ) (a2 : ℕ) (a3 : ℕ) (a4 : ℕ) (a5 : Option Cmd) (h0 : Contained s a0) : Contained s (signalLock a0 a1 a2 a3 a4 a5) := by
  delta signalLock
  refine Contained.ite ?_ ?_
  · apply reclaim_contained
    apply addCount_contained
    assumption
  · apply raise_contained
    assumption

theorem markDirty_contained {s : State} (a0 : State) (a1 : List SWrite) (h0 : Contained s a0) : Contained s (markDirty a0 a1) := by
  delta markDirty
  refine Contained.foldl _ ?_ (fun t0 b0 h0 => ?_)
  · assumption
  · refine Contained.foldl _ ?_ (fun t1 b1 h1 => ?_)
    · assumption
    · split
      · assumption
      · extract_lets v2
        clear_value v2
        refine Contained.ite ?_ ?_
        · apply putObj_contained
          assumption
        · assumption

theorem publishWrites_contained {s : State} (a0 : State) (a1 : ℕ) (a2 : List SWrite) (h0 : Contained s a0) : Contained s (publishWrites a0 a1 a2) := by
  delta publishWrites
  extract_lets v0
  have k1 : Contained s v0 := by
    unfold v0
    refine Contained.foldl _ ?_ (fun t2 b2 h2 => ?_)
    · assumption
    · refine Contained.ite ?_ ?_
      · apply wrLocal_contained
        assumption
      · refine Contained.ite ?_ ?_
        · apply wrHost_contained
          assumption
        · assumption
  clear_value v0
  refine Contained.set ?_
  assumption

theorem poundPublish_contained {s : State} (a0 : State) (a1 : ℕ) (a2 : List SWrite) (h0 : Contained s a0) : Contained s (poundPublish a0 a1 a2) := by
  delta poundPublish
  refine Contained.foldl _ ?_ (fun t0 b0 h0 => ?_)
  · assumption
  · refine Contained.ite ?_ ?_
    · refine Contained.foldl _ ?_ (fun t1 b1 h1 => ?_)
      · assumption
      · extract_lets v2
        clear_value v2
        refine Contained.ite ?_ ?_
        · assumption
        · refine Contained.set ?_
          assumption
    · assumption

theorem endHold_contained {s : State} (a0 : State) (a1 : ℕ × ℕ) (h0 : Contained s a0) : Contained s (endHold a0 a1) := by
  delta endHold
  split
  · assumption
  · apply unpinUse_contained
    assumption

theorem consume_contained {s : State} (a0 : State) (a1 : Cmd) (h0 : Contained s a0) : Contained s (consume a0 a1) := by
  delta consume
  extract_lets v0 v1 v2 v3 v4 v5 v6
  clear_value v0 v1 v2 v3
  have k7 : Contained s v4 := by
    unfold v4
    apply setLock_contained
    assumption
  clear_value v4
  have k8 : Contained s v5 := by
    unfold v5
    apply count_contained
    assumption
  clear_value v5
  have k9 : Contained s v6 := by
    unfold v6
    apply traceRec_contained
    assumption
  clear_value v6
  refine Contained.foldl _ ?_ (fun t10 b10 h10 => ?_)
  · assumption
  · apply endHold_contained
    assumption

theorem killWb_contained {s : State} (a0 : State) (a1 : ℕ) (a2 : ℕ) (h0 : Contained s a0) : Contained s (killWb a0 a1 a2) := by
  delta killWb
  split
  · assumption
  · split
    · assumption
    · extract_lets v0 v1
      have k2 : Contained s v0 := by
        unfold v0
        split
        · refine Contained.ite ?_ ?_
          · apply sendWb_contained
            assumption
          · assumption
        · assumption
      clear_value v0
      clear_value v1
      apply putObj_contained
      assumption

theorem moduleWrite_contained {s : State} (a0 : State) (a1 : ℕ) (a2 : ℕ) (a3 : GAddr) (a4 : List Byte) (h0 : Contained s a0) : Contained s (moduleWrite a0 a1 a2 a3 a4) := by
  delta moduleWrite
  extract_lets v0
  clear_value v0
  split
  · refine Contained.ite ?_ ?_
    · assumption
    · extract_lets v1 v2 v3
      have k4 : Contained s v1 := by
        unfold v1
        split
        · apply killWb_contained
          assumption
        · assumption
      clear_value v1
      clear_value v2
      have k5 : Contained s v3 := by
        unfold v3
        refine Contained.ite ?_ ?_
        · refine Contained.ite ?_ ?_
          · apply wrHost_contained
            assumption
          · assumption
        · refine Contained.ite ?_ ?_
          · apply wrLocal_contained
            assumption
          · assumption
      clear_value v3
      apply markDirty_contained
      assumption
  · refine Contained.ite ?_ ?_
    · refine Contained.ite ?_ ?_
      · apply wrHost_contained
        assumption
      · assumption
    · refine Contained.ite ?_ ?_
      · apply wrLocal_contained
        assumption
      · assumption

theorem ringEntry_contained {s : State} (a0 : State) (a1 : ℕ) (a2 : ℕ) (a3 : ℕ) (a4 : ℕ) (a5 : List Byte) (h0 : Contained s a0) : Contained s (ringEntry a0 a1 a2 a3 a4 a5) := by
  delta ringEntry
  extract_lets v0 v1 v2 v3 v4
  clear_value v0 v1 v2 v3
  have k5 : Contained s v4 := by
    unfold v4
    apply moduleWrite_contained
    assumption
  clear_value v4
  refine Contained.ite ?_ ?_
  · apply moduleWrite_contained
    assumption
  · apply moduleWrite_contained
    assumption

theorem writeEntries_contained {s : State} (a0 : State) (a1 : Cmd) (h0 : Contained s a0) : Contained s (writeEntries a0 a1) := by
  delta writeEntries
  extract_lets v0
  have k1 : Contained s v0 := by
    unfold v0
    split
    · refine Contained.ite ?_ ?_
      · refine Contained.foldl _ ?_ (fun t2 b2 h2 => ?_)
        · assumption
        · refine Contained.ite ?_ ?_
          · assumption
          · apply ringEntry_contained
            assumption
      · assumption
    · assumption
  clear_value v0
  refine Contained.foldl _ ?_ (fun t3 b3 h3 => ?_)
  · assumption
  · refine Contained.foldl _ ?_ (fun t4 b4 h4 => ?_)
    · assumption
    · refine Contained.ite ?_ ?_
      · extract_lets v5
        clear_value v5
        apply ringEntry_contained
        assumption
      · assumption

theorem countWork_contained {s : State} (a0 : State) (a1 : Cmd) (h0 : Contained s a0) : Contained s (countWork a0 a1) := by
  delta countWork
  extract_lets v0 v1 v2 v3 v4
  clear_value v0 v1 v2 v3 v4
  split
  · assumption
  · refine Contained.ite ?_ ?_
    · refine Contained.ite ?_ ?_
      · apply count_contained
        assumption
      · assumption
    · refine Contained.ite ?_ ?_
      · refine Contained.foldl _ ?_ (fun t5 b5 h5 => ?_)
        · assumption
        · apply count_contained
          assumption
      · refine Contained.ite ?_ ?_
        · refine Contained.foldl _ ?_ (fun t6 b6 h6 => ?_)
          · assumption
          · apply count_contained
            assumption
        · refine Contained.ite ?_ ?_
          · refine Contained.foldl _ ?_ (fun t7 b7 h7 => ?_)
            · assumption
            · extract_lets v8
              clear_value v8
              apply count_contained
              apply count_contained
              assumption
          · refine Contained.ite ?_ ?_
            · apply count_contained
              assumption
            · assumption

theorem commitWith_contained {s : State} (a0 : State → Cmd → State) (a1 : State) (a2 : Cmd) (h0 : ∀ y0 y1, Contained s y0 → Contained s (a0 y0 y1)) (h1 : Contained s a1) : Contained s (commitWith a0 a1 a2) := by
  delta commitWith
  extract_lets v0 v1 v2 v3 v4 v5 v6 v7 v8 v9 v10 v11 v12 v13 v14 v15 v16 v17 v18 v19 v20 v21
  clear_value v0 v1 v2
  have k22 : Contained s v3 := by
    unfold v3
    apply putCmd_contained
    assumption
  clear_value v3
  clear_value v4 v5 v6
  have k23 : Contained s v7 := by
    unfold v7
    apply markDirty_contained
    apply publishWrites_contained
    assumption
  clear_value v7
  have k24 : Contained s v8 := by
    unfold v8
    apply poundPublish_contained
    assumption
  clear_value v8
  have k25 : Contained s v9 := by
    unfold v9
    refine Contained.ite ?_ ?_
    · assumption
    · apply consume_contained
      assumption
  clear_value v9
  have k26 : Contained s v10 := by
    unfold v10
    split
    · apply signalLock_contained
      assumption
    · assumption
  clear_value v10
  have k27 : Contained s v11 := by
    unfold v11
    apply h0
    assumption
  clear_value v11
  have k28 : Contained s v12 := by
    unfold v12
    apply writeEntries_contained
    assumption
  clear_value v12
  have k29 : Contained s v13 := by
    unfold v13
    refine Contained.foldl _ ?_ (fun t30 b30 h30 => ?_)
    · assumption
    · apply unpinUse_contained
      assumption
  clear_value v13
  have k31 : Contained s v14 := by
    unfold v14
    refine Contained.ite ?_ ?_
    · assumption
    · apply reclaim_contained
      assumption
  clear_value v14
  have k32 : Contained s v15 := by
    unfold v15
    apply traceRec_contained
    assumption
  clear_value v15
  have k33 : Contained s v16 := by
    unfold v16
    apply drift_contained
    apply countWork_contained
    apply jobCount_contained
    assumption
  clear_value v16
  have k34 : Contained s v17 := by
    unfold v17
    split
    · refine Contained.ite ?_ ?_
      · apply count_contained
        assumption
      · assumption
    · assumption
  clear_value v17
  have k35 : Contained s v18 := by
    unfold v18
    apply engineDone_contained
    assumption
  clear_value v18
  clear_value v19
  have k36 : Contained s v20 := by
    unfold v20
    refine Contained.foldl _ ?_ (fun t37 b37 h37 => ?_)
    · assumption
    · apply sendCmd_contained
      assumption
  clear_value v20
  clear_value v21
  split
  · apply putCmd_contained
    assumption
  · apply dropCmd_contained
    apply publishWrites_contained
    assumption

theorem noEffect_contained {s : State} (a0 : State) (a1 : Cmd) (h0 : Contained s a0) : Contained s (noEffect a0 a1) := by
  delta noEffect
  assumption

theorem sendDom_contained {s : State} (a0 : State) (a1 : ℕ) (a2 : ℕ) (a3 : List ℕ) (h0 : Contained s a0) : Contained s (sendDom a0 a1 a2 a3) := by
  delta sendDom
  apply send_contained
  assumption

theorem endLink_contained {s : State} (a0 : State) (a1 : Cmd) (a2 : ℕ) (h0 : Contained s a0) : Contained s (endLink a0 a1 a2) := by
  delta endLink
  extract_lets v0
  clear_value v0
  apply endCmd_contained
  assumption

theorem askReads_contained {s : State} (a0 : State) (a1 : Cmd) (a2 : List (ℕ × ℕ × ℕ)) (h0 : Contained s a0) : Contained s (askReads a0 a1 a2) := by
  delta askReads
  extract_lets v0 v1
  clear_value v0
  have k2 : Contained s v1 := by
    unfold v1
    refine Contained.foldl _ ?_ (fun t3 b3 h3 => ?_)
    · assumption
    · apply sendCmd_contained
      assumption
  clear_value v1
  split
  · apply endLink_contained
    assumption
  · apply putCmd_contained
    assumption

theorem killKey_contained {s : State} (a0 : State) (a1 : ℕ) (h0 : Contained s a0) : Contained s (killKey a0 a1) := by
  delta killKey
  refine Contained.set ?_
  assumption

theorem releaseBufs_contained {s : State} (a0 : State) (a1 : HostBuf → Bool) (h0 : Contained s a0) : Contained s (releaseBufs a0 a1) := by
  delta releaseBufs
  extract_lets v0
  have k1 : Contained s v0 := by
    unfold v0
    refine Contained.set ?_
    assumption
  clear_value v0
  refine Contained.foldl _ ?_ (fun t2 b2 h2 => ?_)
  · assumption
  · refine Contained.ite ?_ ?_
    · apply ringFault_contained
      assumption
    · assumption

theorem setCounts_contained {s : State} (a0 : State) (a1 : ℕ) (a2 : SlotCounts) (h0 : Contained s a0) : Contained s (setCounts a0 a1 a2) := by
  delta setCounts
  refine Contained.set ?_
  assumption

theorem killWbs_contained {s : State} (a0 : State) (a1 : ResObj → Bool) (h0 : Contained s a0) : Contained s (killWbs a0 a1) := by
  delta killWbs
  refine Contained.foldl _ ?_ (fun t0 b0 h0 => ?_)
  · assumption
  · apply killWb_contained
    apply killWb_contained
    assumption

theorem releaseJob_contained {s : State} (a0 : State) (a1 : ℕ) (a2 : Bool) (h0 : Contained s a0) : Contained s (releaseJob a0 a1 a2) := by
  delta releaseJob
  split
  · assumption
  · extract_lets v0 v1 v2 v3 v4 v5 v6 v7 v8 v9 v10 v11
    have k12 : Contained s v0 := by
      unfold v0
      apply killWbs_contained
      assumption
    clear_value v0
    have k13 : Contained s v1 := by
      unfold v1
      refine Contained.ite ?_ ?_
      · refine Contained.foldl _ ?_ (fun t14 b14 h14 => ?_)
        · assumption
        · apply send_contained
          assumption
      · assumption
    clear_value v1
    have k15 : Contained s v2 := by
      unfold v2
      refine Contained.set ?_
      assumption
    clear_value v2
    have k16 : Contained s v3 := by
      unfold v3
      refine Contained.foldl _ ?_ (fun t17 b17 h17 => ?_)
      · assumption
      · refine Contained.set ?_
        assumption
    clear_value v3
    have k18 : Contained s v4 := by
      unfold v4
      refine Contained.foldl _ ?_ (fun t19 b19 h19 => ?_)
      · assumption
      · refine Contained.ite ?_ ?_
        · assumption
        · refine Contained.set ?_
          assumption
    clear_value v4
    have k20 : Contained s v5 := by
      unfold v5
      refine Contained.foldl _ ?_ (fun t21 b21 h21 => ?_)
      · assumption
      · apply setTrace_contained
        assumption
    clear_value v5
    have k22 : Contained s v6 := by
      unfold v6
      apply killKey_contained
      assumption
    clear_value v6
    clear_value v7 v8
    have k23 : Contained s v9 := by
      unfold v9
      refine Contained.set ?_
      assumption
    clear_value v9
    have k24 : Contained s v10 := by
      unfold v10
      apply releaseBufs_contained
      assumption
    clear_value v10
    clear_value v11
    apply setCounts_contained
    assumption

theorem commitJobEnds_contained {s : State} (a0 : State) (a1 : ℕ) (a2 : Bool) (h0 : Contained s a0) : Contained s (commitJobEnds a0 a1 a2) := by
  delta commitJobEnds
  extract_lets v0
  have k1 : Contained s v0 := by
    unfold v0
    refine Contained.foldl _ ?_ (fun t2 b2 h2 => ?_)
    · assumption
    · split
      · apply commitWith_contained
        · intro y3 y4 y5
          apply noEffect_contained
          assumption
        · assumption
      · assumption
  clear_value v0
  apply releaseJob_contained
  assumption

theorem endJob_contained {s : State} (a0 : State) (a1 : ℕ) (h0 : Contained s a0) : Contained s (endJob a0 a1) := by
  delta endJob
  apply commitJobEnds_contained
  apply endAll_contained
  assumption

theorem dropRing_contained {s : State} (a0 : State) (a1 : ℕ) (h0 : Contained s a0) : Contained s (dropRing a0 a1) := by
  delta dropRing
  extract_lets v0 v1 v2
  clear_value v0
  have k3 : Contained s v1 := by
    unfold v1
    apply dropRingBufs_contained
    apply setRing_contained
    assumption
  clear_value v1
  clear_value v2
  refine Contained.ite ?_ ?_
  · apply resetRing_contained
    assumption
  · apply setRing_contained
    assumption

theorem requeueRe_contained {s : State} (a0 : State) (a1 : Cmd) (h0 : Contained s a0) : Contained s (requeueRe a0 a1) := by
  delta requeueRe
  refine Contained.ite ?_ ?_
  · assumption
  · extract_lets v0 v1
    clear_value v0 v1
    refine Contained.set ?_
    assumption

theorem killCmd_contained {s : State} (a0 : State) (a1 : Cmd) (a2 : ℕ) (h0 : Contained s a0) : Contained s (killCmd a0 a1 a2) := by
  delta killCmd
  extract_lets v0 v1 v2 v3 v4 v5 v6 v7 v8 v9 v10 v11 v12 v13 v14 v15
  clear_value v0
  have k16 : Contained s v1.1 := by
    unfold v1
    split
    · apply endStall_contained
      assumption
    · dsimp only
      assumption
  clear_value v1
  have k17 : Contained s v2 := by
    unfold v2
    apply releaseRun_contained
    assumption
  clear_value v2
  clear_value v3
  have k18 : Contained s v4 := by
    unfold v4
    split
    · apply settleSetters_contained
      apply leaveQueue_contained
      assumption
    · assumption
  clear_value v4
  have k19 : Contained s v5 := by
    unfold v5
    refine Contained.ite ?_ ?_
    · apply traceRec_contained
      assumption
    · assumption
  clear_value v5
  have k20 : Contained s v6 := by
    unfold v6
    refine Contained.ite ?_ ?_
    · apply drift_contained
      apply jobCount_contained
      assumption
    · assumption
  clear_value v6
  have k21 : Contained s v7 := by
    unfold v7
    split
    · refine Contained.ite ?_ ?_
      · apply count_contained
        assumption
      · assumption
    · assumption
  clear_value v7
  have k22 : Contained s v8 := by
    unfold v8
    apply seqAttn_contained
    assumption
  clear_value v8
  clear_value v9 v10
  have k23 : Contained s v11 := by
    unfold v11
    apply requeueRe_contained
    apply putCmd_contained
    assumption
  clear_value v11
  clear_value v12
  have k24 : Contained s v13 := by
    unfold v13
    refine Contained.ite ?_ ?_
    · apply returnClaim_contained
      assumption
    · assumption
  clear_value v13
  clear_value v14
  have k25 : Contained s v15 := by
    unfold v15
    apply reclaim_contained
    apply setLock_contained
    assumption
  clear_value v15
  refine Contained.ite ?_ ?_
  · assumption
  · split
    · apply putCmd_contained
      assumption
    · assumption

theorem stage_contained {s : State} (a0 : State → Cmd → State) (a1 : State) (a2 : Cmd) (a3 : Stg) (h0 : ∀ y0 y1, Contained s y0 → Contained s (a0 y0 y1)) (h1 : Contained s a1) : Contained s (stage a0 a1 a2 a3) := by
  delta stage
  extract_lets v0 v1 v2 v3
  clear_value v0 v1
  have k4 : Contained s v2 := by
    unfold v2
    refine Contained.foldl _ ?_ (fun t5 b5 h5 => ?_)
    · assumption
    · apply sendCmd_contained
      assumption
  clear_value v2
  have k6 : Contained s v3 := by
    unfold v3
    apply count_contained
    assumption
  clear_value v3
  split
  · apply endLink_contained
    assumption
  · refine Contained.ite ?_ ?_
    · apply commitWith_contained
      · intro y7 y8 y9
        apply h0
        assumption
      · assumption
    · apply putCmd_contained
      assumption

theorem killAll_contained {s : State} (a0 : State) (a1 : ℕ) (a2 : Cmd → Bool) (h0 : Contained s a0) : Contained s (killAll a0 a1 a2) := by
  delta killAll
  refine Contained.foldl _ ?_ (fun t0 b0 h0 => ?_)
  · assumption
  · split
    · apply killCmd_contained
      assumption
    · assumption

theorem dropTests_contained {s : State} (a0 : State) (a1 : HwUnit → Bool) (h0 : Contained s a0) : Contained s (dropTests a0 a1) := by
  delta dropTests
  extract_lets v0 v1
  clear_value v0
  have k2 : Contained s v1 := by
    unfold v1
    refine Contained.set ?_
    assumption
  clear_value v1
  refine Contained.foldl _ ?_ (fun t3 b3 h3 => ?_)
  · assumption
  · split
    · split
      · apply endCmd_contained
        assumption
      · assumption
    · assumption

theorem faultRings_contained {s : State} (a0 : State) (a1 : ℕ) (h0 : Contained s a0) : Contained s (faultRings a0 a1) := by
  delta faultRings
  refine Contained.foldl _ ?_ (fun t0 b0 h0 => ?_)
  · assumption
  · apply ringFault_contained
    assumption

theorem moveTargets_contained {s : State} (a0 : State) (a1 : ℕ) (h0 : Contained s a0) : Contained s (moveTargets a0 a1) := by
  delta moveTargets
  extract_lets v0 v1 v2
  clear_value v0 v1 v2
  apply setSic_contained
  assumption

theorem emitEv_contained {s : State} (a0 : State) (a1 : Cmd) (a2 : CEvent) (h0 : Contained s a0) : Contained s (emitEv a0 a1 a2) := by
  delta emitEv
  extract_lets v0 v1 v2 v3
  have k4 : Contained s v0 := by
    unfold v0
    apply raiseCmd_contained
    assumption
  clear_value v0
  clear_value v1 v2
  have k5 : Contained s v3 := by
    unfold v3
    refine Contained.set ?_
    assumption
  clear_value v3
  refine Contained.ite ?_ ?_
  · assumption
  · split
    · apply raiseCmd_contained
      assumption
    · assumption

theorem trapCmd_contained {s : State} (a0 : State) (a1 : Cmd) (a2 : NanAt) (h0 : Contained s a0) : Contained s (trapCmd a0 a1 a2) := by
  delta trapCmd
  split
  · apply endCmd_contained
    assumption
  · extract_lets v0 v1 v2 v3 v4 v5
    clear_value v0 v1 v2
    have k6 : Contained s v3 := by
      unfold v3
      apply moduleWrite_contained
      assumption
    clear_value v3
    have k7 : Contained s v4 := by
      unfold v4
      apply raiseCmd_contained
      assumption
    clear_value v4
    have k8 : Contained s v5 := by
      unfold v5
      refine Contained.ite ?_ ?_
      · apply moduleWrite_contained
        assumption
      · apply updJob_contained
        assumption
    clear_value v5
    apply endCmd_contained
    assumption

theorem runOp_contained {s : State} (a0 : ℕ) (a1 : State → Cmd → Out) (a2 : State → Cmd → State) (a3 : ℕ) (a4 : State) (h0 : ∀ y0 y1, Contained s y0 → Contained s (a2 y0 y1)) (h1 : Contained s a4) : ContainedO s (runOp a0 a1 a2 a3 a4) := by
  delta runOp
  split
  · refine ContainedO.next ?_
    assumption
  · refine ContainedO.ite ?_ ?_
    · split
      · refine ContainedO.next ?_
        apply askReads_contained
        assumption
      · refine ContainedO.next ?_
        apply endCmd_contained
        refine Contained.foldl _ ?_ (fun t0 b0 h0 => ?_)
        · assumption
        · apply emitEv_contained
          assumption
      · refine ContainedO.next ?_
        apply putCmd_contained
        assumption
      · refine ContainedO.next ?_
        apply trapCmd_contained
        assumption
      · extract_lets v1
        clear_value v1
        refine ContainedO.next ?_
        apply askReads_contained
        apply putCmd_contained
        refine Contained.foldl _ ?_ (fun t2 b2 h2 => ?_)
        · assumption
        · apply emitEv_contained
          assumption
      · refine ContainedO.next ?_
        apply stage_contained
        · intro y3 y4 y5
          apply h0
          assumption
        · refine Contained.foldl _ ?_ (fun t6 b6 h6 => ?_)
          · assumption
          · apply emitEv_contained
            assumption
    · refine ContainedO.next ?_
      assumption

end Sys2Proof.Machine
end

