-- ==== Sys2Proof/Laws/Signal.lean ====
section
/-! SUPPORT. Laws of the signal controllers: what each operation on a controller can change. -/

namespace Sys2Proof.Machine

@[simp] theorem Sic.src_setSrc (c : Sic) (i j : Nat) (x : Source) : (c.setSrc i x).src j = if i = j then x else c.src j := tget_tset _ i j x
@[simp] theorem Sic.tgt_setTgt (c : Sic) (i j : Nat) (x : Target) : (c.setTgt i x).tgt j = if i = j then x else c.tgt j := tget_tset _ i j x
@[simp] theorem Sic.src_setTgt (c : Sic) (i j : Nat) (x : Target) : (c.setTgt i x).src j = c.src j := rfl
@[simp] theorem Sic.tgt_setSrc (c : Sic) (i j : Nat) (x : Source) : (c.setSrc i x).tgt j = c.tgt j := rfl
@[simp] theorem Sic.err_setSrc (c : Sic) (i : Nat) (x : Source) : (c.setSrc i x).err = c.err := rfl
@[simp] theorem Sic.err_setTgt (c : Sic) (i : Nat) (x : Target) : (c.setTgt i x).err = c.err := rfl
@[simp] theorem Sic.ctrl_setSrc (c : Sic) (i : Nat) (x : Source) : (c.setSrc i x).ctrl = c.ctrl := rfl
@[simp] theorem Sic.ctrl_setTgt (c : Sic) (i : Nat) (x : Target) : (c.setTgt i x).ctrl = c.ctrl := rfl
@[simp] theorem Sic.src_setErr (c : Sic) (e j : Nat) : (c.setErr e).src j = c.src j := rfl
@[simp] theorem Sic.tgt_setErr (c : Sic) (e j : Nat) : (c.setErr e).tgt j = c.tgt j := rfl

@[simp] theorem Sic.err_setErr (c : Sic) (e : Nat) : (c.setErr e).err = e := rfl
@[simp] theorem Sic.ctrl_setErr (c : Sic) (e : Nat) : (c.setErr e).ctrl = c.ctrl := rfl

theorem getSic_setSic (s : State) (d e : Nat) (x : Sic) : getSic (setSic s d x) e = if d = e then x else getSic s e := tget_tset _ d e x

theorem Woken.refl (c : Sic) : Woken c c := ⟨rfl, fun _ => .inl rfl⟩

theorem Woken.trans {a b c : Sic} (h : Woken a b) (k : Woken b c) : Woken a c := by
  refine ⟨k.ctrl.trans h.ctrl, fun g => ?_⟩
  rcases h.tgt g with e | e <;> rcases k.tgt g with e' | e' <;> rw [e', e] <;> simp

theorem Woken.idle {c c' : Sic} (h : Woken c c') (g : Nat) : c'.tgt g = { c.tgt g with idle := (c'.tgt g).idle } := by
  rcases h.tgt g with e | e <;> rw [e]

/-- A core that resumes or does not. -/
theorem resume_says (c : Sic) (t : Nat) (b : Bool) :
    Woken c (resume c t b) ∧ (resume c t b).err = c.err ∧ ∀ j, (resume c t b).src j = c.src j := by
  unfold resume
  cases b
  · exact ⟨Woken.refl c, rfl, fun _ => rfl⟩
  · refine ⟨⟨rfl, fun g => ?_⟩, rfl, fun _ => rfl⟩
    rw [if_pos rfl, Sic.tgt_setTgt]
    split
    · subst_vars; exact .inr rfl
    · exact .inl rfl

/-- What resuming cores changes: nothing else of the controller. -/
theorem wake_says (c : Sic) : Woken c (wake c) ∧ (wake c).err = c.err ∧ ∀ j, (wake c).src j = c.src j := by
  unfold wake
  generalize List.range 16 = l
  induction l generalizing c with
  | nil => exact ⟨Woken.refl c, rfl, fun _ => rfl⟩
  | cons t l ih =>
    obtain ⟨a, b, d⟩ := resume_says c t ((c.tgt t).idle && lineOf c t)
    obtain ⟨a', b', d'⟩ := ih (resume c t ((c.tgt t).idle && lineOf c t))
    exact ⟨a.trans a', b'.trans b, fun j => (d' j).trans (d j)⟩

theorem ErrKept.refl (e : Nat) : ErrKept e e := fun _ _ _ => rfl
theorem ErrKept.trans {a b c : Nat} (h : ErrKept a b) (k : ErrKept b c) : ErrKept a c := fun i h1 h2 => (k i h1 h2).trans (h i h1 h2)

theorem ErrKept_unroutable (e i : Nat) : ErrKept e (setFld (setBit e 2 true) 20 10 i) := by
  intro b h1 h2
  rw [bit_setFld, bit_setBit]
  split
  · rw [if_neg (by omega)]
  · rw [if_neg (by omega), if_neg (by omega)]

theorem assign_some {c : Sic} {i t : Nat} (h : routeTo c (c.src i) = some t) :
    ∃ on, assign c i = resume (c.setSrc i { c.src i with assigned := some t, activeOn := t, last := t }) t on := by
  unfold assign
  dsimp only
  rw [h]
  exact ⟨_, rfl⟩

theorem assign_none {c : Sic} {i : Nat} (h : routeTo c (c.src i) = none) :
    assign c i = (c.setSrc i { c.src i with assigned := none }).setErr (setFld (setBit c.err 2 true) 20 10 i) := by
  unfold assign
  dsimp only
  rw [h]

/-- What assigning a source does (R454). -/
theorem assign_says (c : Sic) (i : Nat) : Woken c (assign c i) ∧ ErrKept c.err (assign c i).err ∧ (∀ j, j ≠ i → (assign c i).src j = c.src j) ∧
    (match routeTo c (c.src i) with
      | some t => (assign c i).src i = { c.src i with assigned := some t, activeOn := t, last := t } ∧ (assign c i).err = c.err
      | none => (assign c i).src i = { c.src i with assigned := none } ∧ bit (assign c i).err 2 = true) := by
  cases ht : routeTo c (c.src i) with
  | some t =>
    obtain ⟨on, e⟩ := assign_some ht
    obtain ⟨a, b, d⟩ := resume_says (c.setSrc i { c.src i with assigned := some t, activeOn := t, last := t }) t on
    rw [← e] at a b d
    refine ⟨⟨a.ctrl, a.tgt⟩, ?_, fun j hj => (d j).trans ?_, (d i).trans ?_, b⟩
    · exact (congrArg (ErrKept c.err) b).mpr (ErrKept.refl _)
    · simp only [Sic.src_setSrc, if_neg (Ne.symm hj)]
    · simp only [Sic.src_setSrc, if_pos]
  | none =>
    rw [assign_none ht]
    refine ⟨⟨by rw [Sic.ctrl_setErr, Sic.ctrl_setSrc], fun _ => .inl (by rw [Sic.tgt_setErr, Sic.tgt_setSrc])⟩, by rw [Sic.err_setErr]; exact ErrKept_unroutable _ _, fun j hj => ?_, ?_, ?_⟩
    · rw [Sic.src_setErr, Sic.src_setSrc, if_neg (Ne.symm hj)]
    · rw [Sic.src_setErr, Sic.src_setSrc, if_pos rfl]
    · rw [Sic.err_setErr, bit_setFld, if_pos (by omega), bit_setBit, if_pos rfl]

theorem only_setSic (s : State) (d : Nat) (x : Sic) : OnlySic s (setSic s d x) d :=
  ⟨rfl, fun e h => by rw [getSic_setSic, if_neg (Ne.symm h)]⟩

theorem errKept_take (e t b : Nat) (h1 : b ≠ 3) (h2 : b < 16 ∨ 20 ≤ b) : bit (setFld (setBit e 3 true) 16 4 t) b = bit e b := by
  rw [bit_setFld, bit_setBit]; split
  · rw [if_neg (by omega)]
  · rw [if_neg (by omega), if_neg (by omega)]

theorem routeTo_congr (c c' : Sic) (x x' : Source) (hm : x'.mask = x.mask) (hl : x'.last = x.last) (h : ∀ g, (c'.tgt g).enable = (c.tgt g).enable) :
    routeTo c' x' = routeTo c x := by
  unfold routeTo eligible
  rw [hl, hm]; simp only [h]

theorem assign_routed (c : Sic) (i : Nat) (h : (c.src i).state = 1) (h2 : (c.src i).held = false) (h3 : (c.src i).heldCount = 0) :
    Woken c (assign c i) ∧ ErrKept c.err (assign c i).err ∧ (∀ j, j ≠ i → (assign c i).src j = c.src j) ∧ Routed c (c.src i) ((assign c i).src i) := by
  obtain ⟨a, b, d, e⟩ := assign_says c i
  refine ⟨a, b, d, ?_⟩
  unfold Routed
  cases hr : routeTo c (c.src i) with
  | some t => simp only [hr] at e; rw [e.1]; simp [h, h2, h3]
  | none => simp only [hr] at e; rw [e.1]; simp [h, h2, h3]

theorem becomePending_says (c : Sic) (i : Nat) : Woken c (becomePending c i) ∧ ErrKept c.err (becomePending c i).err ∧
    (∀ j, j ≠ i → (becomePending c i).src j = c.src j) ∧ Routed c (c.src i) ((becomePending c i).src i) := by
  unfold becomePending
  dsimp only
  obtain ⟨a, b, d, e⟩ := assign_routed (c.setSrc i { c.src i with state := 1, held := false, heldCount := 0 }) i (by simp) (by simp) (by simp)
  refine ⟨⟨a.ctrl, a.tgt⟩, b, fun j hj => (d j hj).trans (by simp [Ne.symm hj]), ?_⟩
  unfold Routed at *
  have hr : routeTo (c.setSrc i { c.src i with state := 1, held := false, heldCount := 0 }) ((c.setSrc i { c.src i with state := 1, held := false, heldCount := 0 }).src i) = routeTo c (c.src i) :=
    routeTo_congr _ _ _ _ (by simp) (by simp) (fun g => by simp)
  rw [hr] at e
  rw [e]; simp

theorem fireSic_says (now : Nat) (c : Sic) (i : Nat) : Woken c (fireSic now c i) ∧ ErrKept c.err (fireSic now c i).err ∧
    (∀ j, j ≠ i → (fireSic now c i).src j = c.src j) ∧ FiredOnce now c (c.src i) ((fireSic now c i).src i) ∧
    ((c.src i).state = 0 → (c.src i).held = false → ∀ t, routeTo c (c.src i) = some t →
          (c.tgt t).idle = true → Routed c (c.src i) ((fireSic now c i).src i)) := by
  have keep : ∀ x : Source, Woken c (c.setSrc i x) ∧ ErrKept c.err (c.setSrc i x).err ∧ (∀ j, j ≠ i → (c.setSrc i x).src j = c.src j) ∧ (c.setSrc i x).src i = x :=
    fun x => ⟨⟨rfl, fun _ => .inl rfl⟩, ErrKept.refl _, fun j hj => by simp [Ne.symm hj], by simp⟩
  obtain ⟨pa, pb, pd, pe⟩ := becomePending_says c i
  unfold fireSic
  dsimp only
  split
  · rename_i h
    obtain ⟨a, b, d, e⟩ := keep { c.src i with coalesced := min ((c.src i).coalesced + 1) 255 }
    refine ⟨a, b, d, ⟨fun _ => e, fun h' => ?_, fun h' => ?_, fun h' => ?_, fun h' => ?_, fun h' => ?_⟩, fun h' => ?_⟩ <;> omega
  · split
    · rename_i h
      obtain ⟨a, b, d, e⟩ := keep { c.src i with coalesced := min ((c.src i).coalesced + 1) 255, state := 3 }
      refine ⟨a, b, d, ⟨fun _ => ?_, fun h' => e, fun h' => ?_, fun h' => ?_, fun h' => ?_, fun h' => ?_⟩, fun h' => ?_⟩ <;> omega
    · rename_i h1 h2
      split
      · rename_i h3
        split
        · rename_i h4
          refine ⟨pa, pb, pd, ⟨fun h' => absurd h' h1, fun h' => absurd h' h2, fun _ _ h => ?_, fun _ _ _ => pe, fun _ h => ?_, fun _ h => ?_⟩, fun _ h => ?_⟩
          · omega
          all_goals simp [h3] at h
        · rename_i h4
          obtain ⟨a, b, d, e⟩ := keep { c.src i with heldCount := min ((c.src i).heldCount + 1) 255 }
          refine ⟨a, b, d, ⟨fun h' => absurd h' h1, fun h' => absurd h' h2, fun _ _ h => e, fun _ _ h => ?_, fun _ h => ?_, fun _ h => ?_⟩, fun _ h => ?_⟩
          · omega
          all_goals simp [h3] at h
      · rename_i h3
        split
        · rename_i h4
          refine ⟨pa, pb, pd, ⟨fun h' => absurd h' h1, fun h' => absurd h' h2, fun _ h => absurd h h3, fun _ h => absurd h h3, fun _ _ _ => pe, fun _ _ hm hr => ?_⟩, fun _ _ _ _ _ => pe⟩
          rcases h4 with h4 | h4
          · omega
          · cases hrt : routeTo c (c.src i) with
            | some t => simp [chosenIdle, hrt, hr t hrt] at h4
            | none => simp [chosenIdle, hrt] at h4
        · rename_i h4
          obtain ⟨a, b, d, e⟩ := keep { c.src i with held := true, heldCount := 1, heldAt := now }
          refine ⟨a, b, d, ⟨fun h' => absurd h' h1, fun h' => absurd h' h2, fun _ h => absurd h h3, fun _ h => absurd h h3, fun _ _ hm => absurd (Or.inl hm) h4, fun _ _ _ _ => e⟩, fun _ _ t ht hi => ?_⟩
          exact absurd (Or.inr (by simp [chosenIdle, ht, hi])) h4

theorem fold_sources {R : Source → Source → Prop} {f : Sic → Nat → Sic} (c0 : Sic)
    (hf : ∀ c i, Woken c0 c → Woken c (f c i) ∧ ErrKept c.err (f c i).err ∧ (∀ j, j ≠ i → (f c i).src j = c.src j) ∧
      (c.src i = c0.src i → R (c0.src i) ((f c i).src i))) :
    ∀ (l : List Nat) (c : Sic), l.Nodup → Woken c0 c → (∀ i ∈ l, c.src i = c0.src i) →
      Woken c (l.foldl f c) ∧ ErrKept c.err (l.foldl f c).err ∧ (∀ j, j ∉ l → (l.foldl f c).src j = c.src j) ∧
      ∀ j ∈ l, R (c0.src j) ((l.foldl f c).src j) := by
  intro l
  induction l with
  | nil => exact fun c _ _ _ => ⟨Woken.refl c, ErrKept.refl _, fun _ _ => rfl, fun _ h => absurd h (by simp)⟩
  | cons i l ih =>
    intro c hn hw hs
    obtain ⟨a, b, d, e⟩ := hf c i hw
    have hn' := List.nodup_cons.mp hn
    obtain ⟨a', b', d', e'⟩ := ih (f c i) hn'.2 (hw.trans a) fun j hj => (d j (fun h => hn'.1 (h ▸ hj))).trans (hs j (List.mem_cons_of_mem _ hj))
    refine ⟨a.trans a', b.trans b', fun j hj => ?_, fun j hj => ?_⟩
    · have h1 : j ≠ i := fun e => hj (e ▸ List.mem_cons_self ..)
      have h2 : j ∉ l := fun e => hj (List.mem_cons_of_mem _ e)
      exact (d' j h2).trans (d j h1)
    · rcases List.mem_cons.mp hj with rfl | hj
      · rw [List.foldl_cons, d' j hn'.1]
        exact e (hs j (List.mem_cons_self ..))
      · exact e' j hj

theorem wordSources_mem (d w v j : Nat) : j ∈ wordSources d w v ↔ Named d w v j := by
  unfold wordSources Named
  simp only [List.mem_map, List.mem_filter, List.mem_range, Bool.and_eq_true]
  constructor
  · rintro ⟨b, ⟨h1, h2, h3⟩, rfl⟩
    exact ⟨by omega, by omega, by rwa [Nat.add_sub_cancel_left], h3⟩
  · rintro ⟨h1, h2, h3, h4⟩
    exact ⟨j - 32 * w, ⟨by omega, h3, by rwa [Nat.add_sub_cancel' h1]⟩, by omega⟩

theorem wordSources_nodup (d w v : Nat) : (wordSources d w v).Nodup := by
  unfold wordSources
  refine List.Nodup.map_on (fun a _ b _ h => by omega) (List.Nodup.filter _ List.nodup_range)

theorem FiredOnce.woken {now : Nat} {c c' : Sic} {x y : Source} (hw : Woken c c') (h : FiredOnce now c' x y) : FiredOnce now c x y := by
  have hr : routeTo c' x = routeTo c x := routeTo_congr _ _ _ _ rfl rfl fun g => by rcases hw.tgt g with e | e <;> rw [e]
  refine ⟨h.pending, h.active, h.more, fun a b d => ?_, fun a b d => ?_, fun a b d e => h.hold a b d fun t ht => ?_⟩
  · have := h.full a b d; unfold Routed at *; rwa [hr] at this
  · have := h.free a b d; unfold Routed at *; rwa [hr] at this
  · have := e t (hr ▸ ht)
    rcases hw.tgt t with e | e <;> rw [e]; exact this

theorem onWord_says {R : Source → Source → Prop} {f : Sic → Nat → Sic} (s : State) (d w v : Nat)
    (hf : ∀ c i, Woken (getSic s d) c → Woken c (f c i) ∧ ErrKept c.err (f c i).err ∧ (∀ j, j ≠ i → (f c i).src j = c.src j) ∧
      (c.src i = (getSic s d).src i → R ((getSic s d).src i) ((f c i).src i))) :
    OnlySic s (onWord s d w v f) d ∧ Woken (getSic s d) (getSic (onWord s d w v f) d) ∧ ErrKept (getSic s d).err (getSic (onWord s d w v f) d).err ∧
    (∀ j, Named d w v j → R ((getSic s d).src j) ((getSic (onWord s d w v f) d).src j)) ∧
        (∀ j, ¬ Named d w v j → (getSic (onWord s d w v f) d).src j = (getSic s d).src j) := by
  refine ⟨only_setSic _ _ _, ?_⟩
  unfold onWord
  rw [getSic_setSic, if_pos rfl]
  obtain ⟨a, b, e, g⟩ := fold_sources _ hf (wordSources d w v) (getSic s d) (wordSources_nodup _ _ _) (Woken.refl _) (fun _ _ => rfl)
  obtain ⟨a', b', e'⟩ := wake_says ((wordSources d w v).foldl f (getSic s d))
  refine ⟨a.trans a', by rw [b']; exact b, fun j hj => ?_, fun j hj => ?_⟩
  · rw [e']; exact g j ((wordSources_mem _ _ _ _).mpr hj)
  · rw [e']; exact e j (fun h => hj ((wordSources_mem _ _ _ _).mp h))

theorem served_not (s : State) (d : Nat) (h : sicServed s d = true) : (decide (d < 8) && (getDie s d).fenced) = false := by
  unfold sicServed at h; simpa only [Bool.not_eq_true'] using h

theorem onWord_err {f : Sic → Nat → Sic} (s : State) (d w v : Nat) (h : ∀ c i, (f c i).err = c.err) : (getSic (onWord s d w v f) d).err = (getSic s d).err := by
  unfold onWord
  rw [getSic_setSic, if_pos rfl, (wake_says _).2.1]
  generalize wordSources d w v = l
  generalize getSic s d = c
  induction l generalizing c with
  | nil => rfl
  | cons i l ih => exact (ih _).trans (h c i)

theorem set_says (c : Sic) (i : Nat) (x : Source) : Woken c (c.setSrc i x) ∧ ErrKept c.err (c.setSrc i x).err ∧ (∀ j, j ≠ i → (c.setSrc i x).src j = c.src j) ∧ (c.setSrc i x).src i = x :=
  ⟨⟨rfl, fun _ => .inl rfl⟩, ErrKept.refl _, fun j hj => by simp [Ne.symm hj], by simp⟩

theorem bit_err (e e' : Nat) (h : ErrKept e e') : bit e' 1 = bit e 1 := h 1 (by omega) (Or.inl (by omega))

theorem Moved.refl (x : Source) : Moved x x := ⟨rfl, fun _ => rfl⟩

theorem moved_assign (c : Sic) (i : Nat) (h : (c.src i).state = 1) : Woken c (assign c i) ∧ ErrKept c.err (assign c i).err ∧ ∀ j, Moved (c.src j) ((assign c i).src j) := by
  obtain ⟨a, b, d, e⟩ := assign_says c i
  refine ⟨a, b, fun j => ?_⟩
  by_cases hj : j = i
  · subst hj
    refine ⟨?_, fun h' => absurd h h'⟩
    split at e <;> rw [e.1]
  · rw [d j hj]; exact Moved.refl _

theorem Moved.trans {x y z : Source} (h : Moved x y) (k : Moved y z) : Moved x z := by
  obtain ⟨h1, h2⟩ := h
  obtain ⟨k1, k2⟩ := k
  refine ⟨?_, fun hx => ?_⟩
  · rw [k1, h1]
  · have := h2 hx; subst this; exact k2 hx

theorem reassign_says (c : Sic) : Woken c (reassign c) ∧ ErrKept c.err (reassign c).err ∧ ∀ j, Moved (c.src j) ((reassign c).src j) := by
  unfold reassign
  generalize c.sources.map Prod.fst = l
  induction l generalizing c with
  | nil => exact ⟨Woken.refl _, ErrKept.refl _, fun _ => Moved.refl _⟩
  | cons i l ih =>
    have key : ∀ c : Sic, Woken c (if (c.src i).state = 1 then
        match (c.src i).assigned with
        | some t => if eligible c (c.src i) t then c else assign c i
        | none => match routeTo c (c.src i) with | some _ => assign c i | none => c
      else c) ∧ ErrKept c.err (if (c.src i).state = 1 then
        match (c.src i).assigned with
        | some t => if eligible c (c.src i) t then c else assign c i
        | none => match routeTo c (c.src i) with | some _ => assign c i | none => c
      else c).err ∧ ∀ j, Moved (c.src j) ((if (c.src i).state = 1 then
        match (c.src i).assigned with
        | some t => if eligible c (c.src i) t then c else assign c i
        | none => match routeTo c (c.src i) with | some _ => assign c i | none => c
      else c).src j) := by
      intro c
      by_cases h : (c.src i).state = 1
      · rw [if_pos h]
        cases (c.src i).assigned with
        | some t =>
          dsimp only
          split
          · exact ⟨Woken.refl _, ErrKept.refl _, fun _ => Moved.refl _⟩
          · exact moved_assign c i h
        | none =>
          dsimp only
          cases routeTo c (c.src i) with
          | some t => exact moved_assign c i h
          | none => exact ⟨Woken.refl _, ErrKept.refl _, fun _ => Moved.refl _⟩
      · rw [if_neg h]; exact ⟨Woken.refl _, ErrKept.refl _, fun _ => Moved.refl _⟩
    obtain ⟨a, b, e⟩ := key c
    obtain ⟨a', b', e'⟩ := ih _
    exact ⟨a.trans a', b.trans b', fun j => Moved.trans (e j) (e' j)⟩

theorem held_eq (now : Nat) (c : Sic) (i : Nat) : heldRelease now c i = if (c.src i).held = true ∧ ((c.src i).modCount ≤ (c.src i).heldCount ∨ chosenIdle c (c.src i) = true ∨
      (0 < (c.src i).modTimer ∧ (c.src i).heldAt + (c.src i).modTimer * 100 ≤ now)) then becomePending c i else c := by
  unfold heldRelease
  dsimp only
  congr 1
  simp only [Bool.and_eq_true, Bool.or_eq_true, decide_eq_true_eq, or_assoc]

theorem Meters.atT {s u : State} (h : Meters s u) : Meters s { u with time := s.time } := ⟨h.pending, rfl, h.mem, h.host, h.keys, h.poison, h.poundQ, h.remoteSt, h.memRegs, h.cmds, h.nextId, h.serial, h.rings, h.locks, h.jobs, h.ctxs, h.queueRe, h.ended, h.flights, h.fsets, h.shards, h.scheds, h.loans, h.pools, h.objs, h.pfs, h.census, h.watch, h.twatch, h.suspects, h.links, h.dies, h.roots, h.engines, h.testing, h.testQ, h.changes, h.modEpoch, h.ports, h.domain, h.rounds, h.streams, h.sent, h.held, h.transit, h.sessions, h.counts, h.bufs, h.cxl, h.msix, h.answers, h.nextSes, h.sesQ, h.modQ, h.traces, h.dump, h.cfg, h.power, h.tap, h.trust⟩

theorem sources_mem (c : Sic) (j : Nat) (h : (c.src j).held = true) : j ∈ c.sources.map Prod.fst := by
  unfold Sic.src at h
  generalize c.sources = l at h ⊢
  induction l with
  | nil => simp [tget, Source.rest] at h
  | cons e l ih =>
    obtain ⟨k, v⟩ := e
    by_cases hk : k = j
    · simp [hk]
    · simp only [tget, if_neg hk] at h
      simp [ih h]

theorem line_woken (c c' : Sic) (h : Woken c c') (hs : c'.sources = c.sources) (t : Nat) : lineOf c' t = lineOf c t := by
  have e : ∀ i, c'.src i = c.src i := fun i => by unfold Sic.src; rw [hs]
  unfold lineOf offered
  have d : ∀ i, deliverable c' t i = deliverable c t i := fun i => by
    unfold deliverable runLevel
    rw [e]; rcases h.tgt t with g | g <;> rw [g]
  rw [h.ctrl, hs, show deliverable c' t = deliverable c t from funext d]
  simp only [e]

theorem wake_idle (c : Sic) (t : Nat) (ht : t < 16) : ((wake c).tgt t).idle = ((c.tgt t).idle && !lineOf c t) := by
  unfold wake
  have key : ∀ (l : List Nat) (c' : Sic), Woken c c' → c'.sources = c.sources →
      ((l.foldl (fun c t => resume c t ((c.tgt t).idle && lineOf c t)) c').tgt t).idle = ((c'.tgt t).idle && !(decide (t ∈ l) && lineOf c t)) := by
    intro l
    induction l with
    | nil => intro c' _ _; simp
    | cons g l ih =>
      intro c' w hs
      have w' := (resume_says c' g ((c'.tgt g).idle && lineOf c' g)).1
      have hs' : (resume c' g ((c'.tgt g).idle && lineOf c' g)).sources = c.sources := by
        unfold resume; split <;> exact hs
      rw [List.foldl_cons, ih _ (w.trans w') hs']
      rw [line_woken c c' w hs g]
      by_cases hg : g = t
      · subst hg
        unfold resume
        cases hl : lineOf c g <;> cases hi : (c'.tgt g).idle <;> simp [hi]
      · have : (resume c' g ((c'.tgt g).idle && lineOf c g)).tgt t = c'.tgt t := by
          unfold resume; split
          · rw [Sic.tgt_setTgt, if_neg hg]
          · rfl
        rw [this]; simp [Ne.symm hg]
  rw [key _ c (Woken.refl _) rfl]
  simp [ht]

theorem nodup_eraseDups' : ∀ (n : Nat) (l : List Nat), l.length ≤ n → l.eraseDups.Nodup := by
  intro n
  induction n with
  | zero => intro l h; have := List.length_eq_zero_iff.mp (Nat.le_zero.mp h); subst this; simp
  | succ n ih =>
    intro l h
    cases l with
    | nil => simp
    | cons a l =>
      rw [List.eraseDups_cons]
      refine List.nodup_cons.mpr ⟨by simp [List.mem_eraseDups], ih _ ?_⟩
      have := List.length_filter_le (fun b => !b == a) l
      simp only [List.length_cons] at h; omega

end Sys2Proof.Machine
end

