-- ==== Sys2Proof/Laws/Observe.lean ====
section
/-! SUPPORT. Laws of the counters and the trace blocks. -/

namespace Sys2Proof.Machine

theorem getCnt_setCnt (s : State) (d e : Nat) (x : CntBlock) : getCnt (setCnt s d x) e = if d = e then x else getCnt s e := tget_tset _ d e x
theorem getTrace_setTrace (s : State) (d e : Nat) (x : Trace) : getTrace (setTrace s d x) e = if d = e then x else getTrace s e := tget_tset _ d e x

/-- Zeroing the values of all counters listed zeroes every counter's value. -/
theorem clear_says (m : List (Nat × Counter)) (k : Nat) :
    tget Counter.rest ((m.map Prod.fst).foldl (fun m k => tset Counter.rest m k { tget Counter.rest m k with value := 0 }) m) k =
      { tget Counter.rest m k with value := 0 } := by
  have key : ∀ (l : List Nat) (m' : List (Nat × Counter)), (∀ k, tget Counter.rest m' k = { tget Counter.rest m k with value := (tget Counter.rest m' k).value }) →
      (∀ k, k ∉ l → (tget Counter.rest m' k).value = 0 ) →
      tget Counter.rest (l.foldl (fun m k => tset Counter.rest m k { tget Counter.rest m k with value := 0 }) m') k = { tget Counter.rest m k with value := 0 } := by
    intro l
    induction l with
    | nil => intro m' h1 h2; rw [List.foldl_nil, h1 k, h2 k (by simp)]
    | cons i l ih =>
      intro m' h1 h2
      rw [List.foldl_cons]
      refine ih _ (fun k => ?_) (fun k hk => ?_)
      · rw [tget_tset]; split
        · rename_i h; subst h; rw [h1 i]
        · exact h1 k
      · rw [tget_tset]; split
        · rfl
        · rename_i h; exact h2 k (fun e => (List.mem_cons.mp e).elim (fun e => h e.symm) hk)
  refine key _ m (fun _ => rfl) fun k hk => ?_
  clear key
  induction m with
  | nil => rfl
  | cons e m ih =>
    obtain ⟨i, x⟩ := e
    simp only [List.map_cons, List.mem_cons, not_or] at hk
    simp only [tget, if_neg (Ne.symm hk.1)]
    exact ih hk.2

/-- A block that captures nothing records nothing. -/
theorem traceRec_still {s : State} (i : Still s) (d : Nat) (r : TrRec) : traceRec s d r = s := by
  unfold traceRec
  dsimp only
  rw [if_pos]
  rcases i.trace d with h | h
  · exact Or.inl h
  · exact Or.inr (Or.inl h)

theorem getCnt_sics (s : State) (x : List (Nat × Sic)) (d : Nat) : getCnt { s with sics := x } d = getCnt s d := rfl

/-- A firing changes nothing but the controllers. -/
theorem fire_only (s : State) (d i : Nat) : ∃ x, fire s d i = { s with sics := x } := by
  unfold fire
  split
  · exact ⟨_, rfl⟩
  · exact ⟨_, rfl⟩

theorem count_only (s : State) (d : Nat) (sl : Nat × Nat) (k n : Nat) (a : Option (Nat × Nat)) :
    ∃ x y, count s d sl k n a = { s with sics := x, cnts := y } := by
  unfold count
  split
  · exact ⟨_, _, rfl⟩
  · dsimp only
    split
    · exact ⟨s.sics, _, rfl⟩
    · obtain ⟨x, e⟩ := fire_only (setCnt s d (cntBump (getCnt s d) sl k n a)) d 202
      rw [e]; exact ⟨_, _, rfl⟩

theorem leBytes_length (n x : Nat) : (leBytes n x).length = n := by
  induction n generalizing x with
  | zero => rfl
  | succ n ih => simp [leBytes, ih]

theorem TrRec.bytes_length (r : TrRec) (b : Bool) : (r.bytes b).length = 32 := by
  unfold TrRec.bytes
  simp only [List.length_append, leBytes_length, List.length_cons, List.length_nil]

theorem memRead_congr (m m' : List Host.Cell) (a n : Nat) (h : ∀ x, a ≤ x → x < a + n → memByte m x = memByte m' x) : memRead m a n = memRead m' a n := by
  induction n generalizing a with
  | zero => rfl
  | succ n ih =>
    rw [memRead, memRead, h a (by omega) (by omega), ih (a + 1) fun x h1 h2 => h x (by omega) (by omega)]

theorem two_wr (s : State) (k a b : Nat) (bs cs : List Byte) (x y z) :
    ({ wrLocal (wrLocal s k a bs) k b cs with sics := x, cnts := y, traces := z } : State) =
      { s with mem := memWrite (memWrite s.mem a bs) b cs, keys := (wrLocal (wrLocal s k a bs) k b cs).keys,
               poison := (wrLocal (wrLocal s k a bs) k b cs).poison, sics := x, cnts := y, traces := z } := rfl

theorem findJob_wrLocal (s : State) (k a : Nat) (bs : List Byte) (i : Nat) : findJob (wrLocal s k a bs) i = findJob s i := rfl

theorem wr_sics (s : State) (k a : Nat) (bs : List Byte) : wrLocal s k a bs = { wrLocal s k a bs with sics := s.sics } := rfl

theorem trPut_ok (s : State) (t : Trace) (slot : Nat) (bs : List Byte) (j : Job) (h3 : findJob s t.job = some j) (h4 : s.cxl.privBy = some j.sess)
    (h5 : (gaddrOf t.base).tier = 0) (h6 : (gaddrOf t.base).off % 2 ^ fld t.size 0 6 = 0) :
    trPut s t slot bs = wrLocal s j.memKey ((gaddrOf t.base).off + slot * 32) bs := by
  unfold trPut
  dsimp only
  rw [h3]
  exact if_pos ⟨h4, h5, h6⟩

/-- The last part of writing a record: it is counted, and capture stops or goes on. -/
theorem trace_tail (s : State) (d : Nat) (t : Trace) (stop : Bool) :
    (∃ ss cs tr, (if stop = true then fire (setTrace (count s d slotsDie 0x61 1 none) d (trStop t)) d 201 else setTrace (count s d slotsDie 0x61 1 none) d t) =
      { s with sics := ss, cnts := cs, traces := tr }) ∧
    (getTrace (if stop = true then fire (setTrace (count s d slotsDie 0x61 1 none) d (trStop t)) d 201 else setTrace (count s d slotsDie 0x61 1 none) d t) d).written = t.written := by
  obtain ⟨x, y, e⟩ := count_only s d slotsDie 0x61 1 none
  rw [e]
  cases stop
  · refine ⟨⟨_, _, _, rfl⟩, ?_⟩
    rw [if_neg (by simp), getTrace_setTrace, if_pos rfl]
  · obtain ⟨z, f⟩ := fire_only (setTrace { s with sics := x, cnts := y } d (trStop t)) d 201
    rw [if_pos rfl, f]
    refine ⟨⟨_, _, _, rfl⟩, ?_⟩
    show (getTrace (setTrace { s with sics := x, cnts := y } d (trStop t)) d).written = _
    rw [getTrace_setTrace, if_pos rfl]; rfl

/-- What one record that is captured into a readable buffer does (R441 to R443): its bytes are in its slot, at most one GAP record is in
another slot, one more record is written, and no byte outside the buffer changes. -/
theorem traceRec_says (s : State) (d : Nat) (r : TrRec) (j : Job) (h1 : (getTrace s d).state = 1 ∨ (getTrace s d).state = 2)
    (h2 : trWanted (getTrace s d) r = true) (h3 : findJob s (getTrace s d).job = some j) (h4 : s.cxl.privBy = some j.sess)
    (h5 : (gaddrOf (getTrace s d).base).tier = 0) (h6 : (gaddrOf (getTrace s d).base).off % 2 ^ fld (getTrace s d).size 0 6 = 0)
    (h7 : 16 ≤ fld (getTrace s d).size 0 6) (h8 : (getTrace s d).next < trSlots (getTrace s d)) :
    (∃ m k p ss cs tr, traceRec s d r = { s with mem := m, keys := k, poison := p, sics := ss, cnts := cs, traces := tr } ∧
      (∃ trigger, memRead m ((gaddrOf (getTrace s d).base).off + (getTrace s d).next * 32) 32 = r.bytes trigger) ∧
      ∀ a, (a < (gaddrOf (getTrace s d).base).off ∨ (gaddrOf (getTrace s d).base).off + trSlots (getTrace s d) * 32 ≤ a) →
        memByte m a = memByte s.mem a) ∧
    (getTrace (traceRec s d r) d).written = ((getTrace s d).written + 1) % 2 ^ 48 := by
  have hn : 2 ≤ trSlots (getTrace s d) := by
    unfold trSlots
    calc 2 = 2 ^ 1 := rfl
      _ ≤ 2 ^ (fld (getTrace s d).size 0 6 - 5) := Nat.pow_le_pow_right (by omega) (by omega)
  unfold traceRec
  generalize getTrace s d = t at *
  dsimp only
  rw [if_neg (by rintro (h | h | h); · omega
                 · omega
                 · rw [h2] at h; exact absurd h (by simp))]
  rw [trPut_ok s t _ _ j h3 h4 h5 h6]
  generalize (t.trigIdx == 0xFFFFFFFF && (t.trigNow || trMatches t r)) = isTrig
  have first : ∀ (s' : State) (t' : Trace) (stop : Bool) (ss : List (Nat × Sic)),
      s' = { wrLocal s j.memKey ((gaddrOf t.base).off + t.next * 32) (r.bytes isTrig) with sics := ss } → t'.written = (t.written + 1) % 2 ^ 48 →
      (∃ m k p ss cs tr, (if stop = true then fire (setTrace (count s' d slotsDie 0x61 1 none) d (trStop t')) d 201 else setTrace (count s' d slotsDie 0x61 1 none) d t') =
          { s with mem := m, keys := k, poison := p, sics := ss, cnts := cs, traces := tr } ∧
        (∃ trigger, memRead m ((gaddrOf t.base).off + t.next * 32) 32 = r.bytes trigger) ∧
        ∀ a, (a < (gaddrOf t.base).off ∨ (gaddrOf t.base).off + trSlots t * 32 ≤ a) → memByte m a = memByte s.mem a) ∧
      (getTrace (if stop = true then fire (setTrace (count s' d slotsDie 0x61 1 none) d (trStop t')) d 201 else setTrace (count s' d slotsDie 0x61 1 none) d t') d).written =
        (t.written + 1) % 2 ^ 48 := by
    intro s' t' stop ss hs' ht'
    obtain ⟨⟨x, y, z, e⟩, w⟩ := trace_tail s' d t' stop
    refine ⟨⟨memWrite s.mem ((gaddrOf t.base).off + t.next * 32) (r.bytes isTrig), s'.keys, s'.poison, x, y, z, ?_, ⟨isTrig, ?_⟩, fun a ha => ?_⟩, w.trans ht'⟩
    · rw [e, hs']; rfl
    · have := memRead_memWrite (m := s.mem) ((gaddrOf t.base).off + t.next * 32) (r.bytes isTrig)
      rwa [TrRec.bytes_length] at this
    · rw [memByte_memWrite_outside]
      rw [TrRec.bytes_length]
      have : (t.next + 1) * 32 ≤ trSlots t * 32 := Nat.mul_le_mul_right _ h8
      omega
  have second : ∀ (s' : State) (t' : Trace) (stop : Bool) (bs : List Byte), bs.length = 32 →
      s' = wrLocal (wrLocal s j.memKey ((gaddrOf t.base).off + t.next * 32) (r.bytes isTrig)) j.memKey ((gaddrOf t.base).off + (t.next + 1) % trSlots t * 32) bs →
      t'.written = (t.written + 1) % 2 ^ 48 →
      (∃ m k p ss cs tr, (if stop = true then fire (setTrace (count s' d slotsDie 0x61 1 none) d (trStop t')) d 201 else setTrace (count s' d slotsDie 0x61 1 none) d t') =
          { s with mem := m, keys := k, poison := p, sics := ss, cnts := cs, traces := tr } ∧
        (∃ trigger, memRead m ((gaddrOf t.base).off + t.next * 32) 32 = r.bytes trigger) ∧
        ∀ a, (a < (gaddrOf t.base).off ∨ (gaddrOf t.base).off + trSlots t * 32 ≤ a) → memByte m a = memByte s.mem a) ∧
      (getTrace (if stop = true then fire (setTrace (count s' d slotsDie 0x61 1 none) d (trStop t')) d 201 else setTrace (count s' d slotsDie 0x61 1 none) d t') d).written =
        (t.written + 1) % 2 ^ 48 := by
    intro s' t' stop bs hb hs' ht'
    obtain ⟨⟨x, y, z, e⟩, w⟩ := trace_tail s' d t' stop
    have hnx : (t.next + 1) % trSlots t < trSlots t := Nat.mod_lt _ (by omega)
    have hne : (t.next + 1) % trSlots t ≠ t.next := by
      by_cases h : t.next + 1 = trSlots t
      · rw [h, Nat.mod_self]; omega
      · rw [Nat.mod_eq_of_lt (by omega)]; omega
    generalize (t.next + 1) % trSlots t = nx at *
    have b1 : (t.next + 1) * 32 ≤ trSlots t * 32 := Nat.mul_le_mul_right _ h8
    have b2 : (nx + 1) * 32 ≤ trSlots t * 32 := Nat.mul_le_mul_right _ hnx
    refine ⟨⟨memWrite (memWrite s.mem ((gaddrOf t.base).off + t.next * 32) (r.bytes isTrig)) ((gaddrOf t.base).off + nx * 32) bs, s'.keys, s'.poison, x, y, z, ?_, ⟨isTrig, ?_⟩, fun a ha => ?_⟩, w.trans ht'⟩
    · rw [e, hs']; exact two_wr s _ _ _ _ _ x y z
    · refine (memRead_congr _ _ _ _ fun a h1 h2 => ?_).trans (by have := memRead_memWrite (m := s.mem) ((gaddrOf t.base).off + t.next * 32) (r.bytes isTrig); rwa [TrRec.bytes_length] at this)
      rw [memByte_memWrite_outside]
      rw [hb]; omega
    · rw [memByte_memWrite_outside, memByte_memWrite_outside]
      · rw [TrRec.bytes_length]; omega
      · rw [hb]; omega
  by_cases c1 : isTrig = true
  · rw [if_pos c1]
    dsimp only
    obtain ⟨z, f⟩ := fire_only (wrLocal s j.memKey ((gaddrOf t.base).off + t.next * 32) (r.bytes isTrig)) d 200
    refine first _ _ _ z f ?_
    split <;> rfl
  · rw [if_neg c1]
    by_cases c2 : (t.trigIdx != 0xFFFFFFFF && fld t.ctrl 1 2 == 2 && trKept t t.next) = true
    · rw [if_pos c2]
      dsimp only
      have ok := trPut_ok (wrLocal s j.memKey ((gaddrOf t.base).off + t.next * 32) (r.bytes isTrig)) t ((t.next + 1) % trSlots t)
      refine second _ _ _ _ ?_ (ok _ j (by rw [findJob_wrLocal]; exact h3) h4 h5 h6) ?_
      · exact TrRec.bytes_length _ _
      · split <;> rfl
    · rw [if_neg c2]
      dsimp only
      refine first _ _ _ s.sics (wr_sics ..) ?_
      split <;> rfl

end Sys2Proof.Machine
end

