-- ==== Sys2Proof/Laws/SameCmds.lean ====
section
/-! SUPPORT. What leaves the accepted commands as they are: one lemma `<name>_sameCmds` per operation on copies, counters, messages and signals. -/

set_option linter.unusedVariables false

namespace Sys2Proof.Machine

/-- No accepted command has changed. -/
structure SameCmds (s t : State) : Prop where
  cmds : t.cmds = s.cmds

theorem SameCmds.refl (s : State) : SameCmds s s := ⟨rfl⟩
theorem SameCmds.trans {a b c : State} (h : SameCmds a b) (g : SameCmds b c) : SameCmds a c :=
  ⟨g.cmds.trans h.cmds⟩
/-- Other fields written. -/
theorem SameCmds.set {s x : State} (h : SameCmds s x) {pending' time' mem' host' keys' poison' poundQ' remoteSt' memRegs' nextId' serial' rings' locks' jobs' ctxs' queueRe' ended' flights' fsets' shards' scheds' loans' pools' objs' pfs' census' watch' twatch' suspects' links' dies' roots' engines' testing' testQ' changes' modEpoch' ports' domain' rounds' streams' sent' held' transit' sessions' counts' bufs' cxl' msix' answers' nextSes' sesQ' modQ' sics' cnts' traces' dump' cfg' power' tap' trust' fresh'} :
    SameCmds s ⟨pending', time', mem', host', keys', poison', poundQ', remoteSt', memRegs', x.cmds, nextId', serial', rings', locks', jobs', ctxs', queueRe', ended', flights', fsets', shards', scheds', loans', pools', objs', pfs', census', watch', twatch', suspects', links', dies', roots', engines', testing', testQ', changes', modEpoch', ports', domain', rounds', streams', sent', held', transit', sessions', counts', bufs', cxl', msix', answers', nextSes', sesQ', modQ', sics', cnts', traces', dump', cfg', power', tap', trust', fresh'⟩ := ⟨h.cmds⟩
theorem SameCmds.ite {s a b : State} {c : Prop} [Decidable c] (ha : SameCmds s a) (hb : SameCmds s b) : SameCmds s (if c then a else b) := by
  split
  · exact ha
  · exact hb
theorem SameCmds.foldl {α : Type} {s x : State} {g : State → α → State} (l : List α) (h : SameCmds s x) (hg : ∀ t a, SameCmds s t → SameCmds s (g t a)) :
    SameCmds s (l.foldl g x) := by
  induction l generalizing x with
  | nil => exact h
  | cons a l ih => exact ih (hg x a h)
theorem SameCmds.foldlP {α β : Type} {s : State} {x : State × β} {g : State × β → α → State × β} (l : List α) (h : SameCmds s x.1)
    (hg : ∀ t a, SameCmds s t.1 → SameCmds s (g t a).1) : SameCmds s (l.foldl g x).1 := by
  induction l generalizing x with
  | nil => exact h
  | cons a l ih => exact ih (hg x a h)
def SameCmdsO (s : State) (o : Host.Outcome State Fault Refusal) : Prop := ∀ t, o = .next t → SameCmds s t
theorem SameCmdsO.next {s t : State} (h : SameCmds s t) : SameCmdsO s (.next t) := fun _ e => by cases e; exact h
theorem SameCmdsO.stop {s : State} {o : Host.Outcome State Fault Refusal} (h : ∀ t, o ≠ .next t) : SameCmdsO s o := fun t e => absurd e (h t)
theorem SameCmdsO.ite {s : State} {a b : Host.Outcome State Fault Refusal} {c : Prop} [Decidable c] (ha : SameCmdsO s a) (hb : SameCmdsO s b) :
    SameCmdsO s (if c then a else b) := by
  split
  · exact ha
  · exact hb
def SameCmdsR (s : State) (r : StartRes) : Prop := match r with | .go t _ => SameCmds s t | _ => True
theorem SameCmdsR.go {s t : State} {c : Cmd} (h : SameCmds s t) : SameCmdsR s (.go t c) := h
theorem SameCmdsR.ite {s : State} {a b : StartRes} {c : Prop} [Decidable c] (ha : SameCmdsR s a) (hb : SameCmdsR s b) : SameCmdsR s (if c then a else b) := by
  split
  · exact ha
  · exact hb

theorem wrLocal_sameCmds {s : State} (a0 : State) (a1 : ℕ) (a2 : ℕ) (a3 : List Byte) (h0 : SameCmds s a0) : SameCmds s (wrLocal a0 a1 a2 a3) := by
  delta wrLocal
  refine SameCmds.set ?_
  assumption

theorem syncPool_sameCmds {s : State} (a0 : State) (a1 : ℕ) (h0 : SameCmds s a0) : SameCmds s (syncPool a0 a1) := by
  delta syncPool
  split
  · assumption
  · extract_lets v0 v1
    clear_value v0 v1
    apply wrLocal_sameCmds
    apply wrLocal_sameCmds
    assumption

theorem putObj_sameCmds {s : State} (a0 : State) (a1 : ℕ) (a2 : ResObj) (h0 : SameCmds s a0) : SameCmds s (putObj a0 a1 a2) := by
  delta putObj
  extract_lets v0 v1 v2 v3 v4
  have k5 : SameCmds s v0 := by
    unfold v0
    refine SameCmds.set ?_
    assumption
  clear_value v0
  clear_value v1
  have k6 : SameCmds s v2 := by
    unfold v2
    apply wrLocal_sameCmds
    assumption
  clear_value v2
  have k7 : SameCmds s v3 := by
    unfold v3
    apply wrLocal_sameCmds
    assumption
  clear_value v3
  have k8 : SameCmds s v4 := by
    unfold v4
    apply wrLocal_sameCmds
    assumption
  clear_value v4
  apply syncPool_sameCmds
  apply syncPool_sameCmds
  assumption

theorem setCnt_sameCmds {s : State} (a0 : State) (a1 : ℕ) (a2 : CntBlock) (h0 : SameCmds s a0) : SameCmds s (setCnt a0 a1 a2) := by
  delta setCnt
  refine SameCmds.set ?_
  assumption

theorem setSic_sameCmds {s : State} (a0 : State) (a1 : ℕ) (a2 : Sic) (h0 : SameCmds s a0) : SameCmds s (setSic a0 a1 a2) := by
  delta setSic
  refine SameCmds.set ?_
  assumption

theorem fire_sameCmds {s : State} (a0 : State) (a1 : ℕ) (a2 : ℕ) (h0 : SameCmds s a0) : SameCmds s (fire a0 a1 a2) := by
  delta fire
  refine SameCmds.ite ?_ ?_
  · assumption
  · apply setSic_sameCmds
    assumption

theorem count_sameCmds {s : State} (a0 : State) (a1 : ℕ) (a2 : ℕ × ℕ) (a3 : ℕ) (a4 : ℕ) (a5 : Option (ℕ × ℕ)) (h0 : SameCmds s a0) : SameCmds s (count a0 a1 a2 a3 a4 a5) := by
  delta count
  refine SameCmds.ite ?_ ?_
  · assumption
  · extract_lets v0 v1 v2
    clear_value v0 v1
    have k3 : SameCmds s v2 := by
      unfold v2
      apply setCnt_sameCmds
      assumption
    clear_value v2
    refine SameCmds.ite ?_ ?_
    · assumption
    · apply fire_sameCmds
      assumption

theorem wrHost_sameCmds {s : State} (a0 : State) (a1 : ℕ) (a2 : List Byte) (h0 : SameCmds s a0) : SameCmds s (wrHost a0 a1 a2) := by
  delta wrHost
  refine SameCmds.set ?_
  assumption

theorem setPort_sameCmds {s : State} (a0 : State) (a1 : ℕ) (a2 : Port) (h0 : SameCmds s a0) : SameCmds s (setPort a0 a1 a2) := by
  delta setPort
  refine SameCmds.set ?_
  assumption

theorem setTrace_sameCmds {s : State} (a0 : State) (a1 : ℕ) (a2 : Trace) (h0 : SameCmds s a0) : SameCmds s (setTrace a0 a1 a2) := by
  delta setTrace
  refine SameCmds.set ?_
  assumption

theorem trPut_sameCmds {s : State} (a0 : State) (a1 : Trace) (a2 : ℕ) (a3 : List Byte) (h0 : SameCmds s a0) : SameCmds s (trPut a0 a1 a2 a3) := by
  delta trPut
  extract_lets v0
  clear_value v0
  split
  · assumption
  · refine SameCmds.ite ?_ ?_
    · apply wrLocal_sameCmds
      assumption
    · assumption

theorem traceRec_sameCmds {s : State} (a0 : State) (a1 : ℕ) (a2 : TrRec) (h0 : SameCmds s a0) : SameCmds s (traceRec a0 a1 a2) := by
  delta traceRec
  extract_lets v0 v1 v2 v3 v4 v5 v6 v7 v8 v9 v10 v11 v12 v13 v14 v15 v16 v17 v18 v19 v20 v21 v22
  clear_value v0 v1 v2 v3 v4 v5 v6
  have k23 : SameCmds s v7 := by
    unfold v7
    apply trPut_sameCmds
    assumption
  clear_value v7
  clear_value v8 v9 v10 v11 v12 v13 v14 v15
  have k24 : SameCmds s v16.1 := by
    unfold v16
    split
    · dsimp only
      apply fire_sameCmds
      assumption
    · split
      · dsimp only
        apply trPut_sameCmds
        assumption
      · dsimp only
        assumption
  clear_value v16
  have k25 : SameCmds s v17 := by
    unfold v17
    assumption
  clear_value v17
  clear_value v18 v19 v20 v21
  have k26 : SameCmds s v22 := by
    unfold v22
    apply count_sameCmds
    assumption
  clear_value v22
  refine SameCmds.ite ?_ ?_
  · assumption
  · refine SameCmds.ite ?_ ?_
    · apply fire_sameCmds
      apply setTrace_sameCmds
      assumption
    · apply setTrace_sameCmds
      assumption

theorem transmit_sameCmds {s : State} (a0 : State) (a1 : ℕ) (a2 : Msg) (h0 : SameCmds s a0) : SameCmds s (transmit a0 a1 a2) := by
  delta transmit
  extract_lets v0 v1 v2 v3
  have k4 : SameCmds s v0 := by
    unfold v0
    apply traceRec_sameCmds
    assumption
  clear_value v0
  have k5 : SameCmds s v1 := by
    unfold v1
    refine SameCmds.ite ?_ ?_
    · apply count_sameCmds
      assumption
    · assumption
  clear_value v1
  clear_value v2 v3
  apply setPort_sameCmds
  refine SameCmds.set ?_
  assumption

theorem offer_sameCmds {s : State} (a0 : State) (a1 : Msg) (h0 : SameCmds s a0) : SameCmds s (offer a0 a1) := by
  delta offer
  refine SameCmds.ite ?_ ?_
  · refine SameCmds.set ?_
    assumption
  · split
    · apply transmit_sameCmds
      assumption
    · refine SameCmds.set ?_
      assumption

theorem countPaced_sameCmds {s : State} (a0 : State) (a1 : Msg) (h0 : SameCmds s a0) : SameCmds s (countPaced a0 a1) := by
  delta countPaced
  split
  · refine SameCmds.ite ?_ ?_
    · apply setPort_sameCmds
      assumption
    · assumption
  · assumption

theorem send_sameCmds {s : State} (a0 : State) (a1 : Msg) (h0 : SameCmds s a0) : SameCmds s (send a0 a1) := by
  delta send
  refine SameCmds.ite ?_ ?_
  · assumption
  · extract_lets v0 v1 v2 v3 v4
    clear_value v0 v1 v2 v3
    have k5 : SameCmds s v4 := by
      unfold v4
      refine SameCmds.set ?_
      assumption
    clear_value v4
    apply offer_sameCmds
    apply countPaced_sameCmds
    assumption

theorem sendWb_sameCmds {s : State} (a0 : State) (a1 : ResObj) (a2 : ℕ) (a3 : ℕ) (a4 : ℕ) (a5 : ℕ) (a6 : List ℕ) (a7 : List Byte) (h0 : SameCmds s a0) : SameCmds s (sendWb a0 a1 a2 a3 a4 a5 a6 a7) := by
  delta sendWb
  apply send_sameCmds
  assumption

theorem stageWb_sameCmds {s : State} (a0 : State) (a1 : ℕ) (a2 : ℕ) (a3 : ℕ) (h0 : SameCmds s a0) : SameCmds s (stageWb a0 a1 a2 a3) := by
  delta stageWb
  split
  · assumption
  · refine SameCmds.ite ?_ ?_
    · extract_lets v0 v1
      have k2 : SameCmds s v0 := by
        unfold v0
        split
        · refine SameCmds.foldl _ ?_ (fun t3 b3 h3 => ?_)
          · assumption
          · apply sendWb_sameCmds
            assumption
        · assumption
      clear_value v0
      clear_value v1
      apply putObj_sameCmds
      assumption
    · apply putObj_sameCmds
      assumption

theorem setMemRegs_sameCmds {s : State} (a0 : State) (a1 : ℕ) (a2 : MemRegs) (h0 : SameCmds s a0) : SameCmds s (setMemRegs a0 a1 a2) := by
  delta setMemRegs
  refine SameCmds.set ?_
  assumption

theorem fireMsix_sameCmds {s : State} (a0 : State) (a1 : ℕ) (h0 : SameCmds s a0) : SameCmds s (fireMsix a0 a1) := by
  delta fireMsix
  refine SameCmds.ite ?_ ?_
  · refine SameCmds.set ?_
    assumption
  · assumption

theorem deliver_sameCmds {s : State} (a0 : State) (a1 : Event) (a2 : Option ℕ) (h0 : SameCmds s a0) : SameCmds s (deliver a0 a1 a2) := by
  delta deliver
  extract_lets v0 v1 v2 v3 v4 v5
  clear_value v0
  have k6 : SameCmds s v1.1 := by
    unfold v1
    split
    · dsimp only
      assumption
    · extract_lets v7
      clear_value v7
      dsimp only
      refine SameCmds.set ?_
      assumption
  clear_value v1
  clear_value v2 v3
  have k8 : SameCmds s v4 := by
    unfold v4
    assumption
  clear_value v4
  have k9 : SameCmds s v5.1 := by
    unfold v5
    split
    · dsimp only
      refine SameCmds.set ?_
      assumption
    · assumption
  clear_value v5
  refine SameCmds.ite ?_ ?_
  · apply fireMsix_sameCmds
    assumption
  · assumption

theorem setDie_sameCmds {s : State} (a0 : State) (a1 : ℕ) (a2 : Die) (h0 : SameCmds s a0) : SameCmds s (setDie a0 a1 a2) := by
  delta setDie
  refine SameCmds.set ?_
  assumption

theorem raiseOp_sameCmds {s : State} (a0 : State) (a1 : Option (ℕ × ℕ)) (a2 : ℕ) (a3 : ℕ) (a4 : ℕ) (a5 : Bool) (a6 : Option ℕ) (a7 : ℕ) (a8 : ℕ) (a9 : ℕ) (a10 : ℕ) (a11 : ℕ) (a12 : ℕ) (h0 : SameCmds s a0) : SameCmds s (raiseOp a0 a1 a2 a3 a4 a5 a6 a7 a8 a9 a10 a11 a12) := by
  delta raiseOp
  extract_lets v0 v1 v2 v3 v4 v5 v6 v7
  clear_value v0 v1 v2
  have k8 : SameCmds s v3 := by
    unfold v3
    apply setDie_sameCmds
    assumption
  clear_value v3
  have k9 : SameCmds s v4 := by
    unfold v4
    apply count_sameCmds
    assumption
  clear_value v4
  have k10 : SameCmds s v5 := by
    unfold v5
    apply traceRec_sameCmds
    assumption
  clear_value v5
  have k11 : SameCmds s v6 := by
    unfold v6
    apply fire_sameCmds
    assumption
  clear_value v6
  clear_value v7
  refine SameCmds.ite ?_ ?_
  · refine SameCmds.set ?_
    assumption
  · apply deliver_sameCmds
    assumption

theorem raiseFor_sameCmds {s : State} (a0 : State) (a1 : ℕ) (a2 : ℕ) (a3 : Bool) (a4 : Option ℕ) (a5 : ℕ) (a6 : ℕ) (a7 : ℕ) (a8 : ℕ) (a9 : ℕ) (a10 : ℕ) (h0 : SameCmds s a0) : SameCmds s (raiseFor a0 a1 a2 a3 a4 a5 a6 a7 a8 a9 a10) := by
  delta raiseFor
  apply raiseOp_sameCmds
  assumption

theorem raise_sameCmds {s : State} (a0 : State) (a1 : ℕ) (a2 : ℕ) (a3 : ℕ) (a4 : ℕ) (a5 : ℕ) (a6 : ℕ) (a7 : ℕ) (a8 : ℕ) (h0 : SameCmds s a0) : SameCmds s (raise a0 a1 a2 a3 a4 a5 a6 a7 a8) := by
  delta raise
  apply raiseFor_sameCmds
  assumption

theorem raiseMod_sameCmds {s : State} (a0 : State) (a1 : ℕ) (a2 : ℕ) (a3 : ℕ) (a4 : ℕ) (a5 : ℕ) (h0 : SameCmds s a0) : SameCmds s (raiseMod a0 a1 a2 a3 a4 a5) := by
  delta raiseMod
  apply raise_sameCmds
  assumption

theorem markRetired_sameCmds {s : State} (a0 : State) (a1 : ℕ) (h0 : SameCmds s a0) : SameCmds s (markRetired a0 a1) := by
  delta markRetired
  extract_lets v0 v1 v2 v3
  clear_value v0 v1 v2 v3
  refine SameCmds.ite ?_ ?_
  · assumption
  · apply raiseMod_sameCmds
    apply setMemRegs_sameCmds
    assumption

theorem memError_sameCmds {s : State} (a0 : State) (a1 : ℕ) (a2 : ℕ) (a3 : ℕ) (a4 : ℕ) (a5 : ℕ) (a6 : Option ℕ) (a7 : ℕ) (h0 : SameCmds s a0) : SameCmds s (memError a0 a1 a2 a3 a4 a5 a6 a7) := by
  delta memError
  extract_lets v0 v1 v2 v3 v4
  clear_value v0 v1
  have k5 : SameCmds s v2 := by
    unfold v2
    apply setMemRegs_sameCmds
    assumption
  clear_value v2
  have k6 : SameCmds s v3 := by
    unfold v3
    refine SameCmds.ite ?_ ?_
    · apply fire_sameCmds
      assumption
    · assumption
  clear_value v3
  have k7 : SameCmds s v4 := by
    unfold v4
    apply raiseFor_sameCmds
    assumption
  clear_value v4
  refine SameCmds.ite ?_ ?_
  · apply markRetired_sameCmds
    assumption
  · assumption

theorem clearCopy_sameCmds {s : State} (a0 : State) (a1 : ℕ) (a2 : ℕ) (h0 : SameCmds s a0) : SameCmds s (clearCopy a0 a1 a2) := by
  delta clearCopy
  split
  · assumption
  · apply putObj_sameCmds
    apply count_sameCmds
    assumption

theorem removeCopy_sameCmds {s : State} (a0 : State) (a1 : ℕ) (a2 : ℕ) (h0 : SameCmds s a0) : SameCmds s (removeCopy a0 a1 a2) := by
  delta removeCopy
  split
  · assumption
  · extract_lets v0 v1
    clear_value v0
    have k2 : SameCmds s v1 := by
      unfold v1
      split
      · apply memError_sameCmds
        assumption
      · assumption
    clear_value v1
    refine SameCmds.ite ?_ ?_
    · assumption
    · refine SameCmds.ite ?_ ?_
      · apply clearCopy_sameCmds
        assumption
      · split
        · apply putObj_sameCmds
          assumption
        · apply stageWb_sameCmds
          refine SameCmds.set ?_
          assumption

theorem unpinUse_sameCmds {s : State} (a0 : State) (a1 : ℕ) (a2 : ℕ) (h0 : SameCmds s a0) : SameCmds s (unpinUse a0 a1 a2) := by
  delta unpinUse
  split
  · assumption
  · extract_lets v0 v1 v2
    clear_value v0 v1
    have k3 : SameCmds s v2 := by
      unfold v2
      apply putObj_sameCmds
      assumption
    clear_value v2
    refine SameCmds.ite ?_ ?_
    · apply removeCopy_sameCmds
      assumption
    · assumption

theorem setLock_sameCmds {s : State} (a0 : State) (a1 : ℕ) (a2 : Lock) (h0 : SameCmds s a0) : SameCmds s (setLock a0 a1 a2) := by
  delta setLock
  refine SameCmds.set ?_
  assumption

theorem addCount_sameCmds {s : State} (a0 : State) (a1 : ℕ) (a2 : ℕ) (a3 : Option Cmd) (h0 : SameCmds s a0) : SameCmds s (addCount a0 a1 a2 a3) := by
  delta addCount
  extract_lets v0 v1 v2 v3
  clear_value v0
  have k4 : SameCmds s v1 := by
    unfold v1
    apply setLock_sameCmds
    assumption
  clear_value v1
  have k5 : SameCmds s v2 := by
    unfold v2
    apply count_sameCmds
    assumption
  clear_value v2
  have k6 : SameCmds s v3 := by
    unfold v3
    apply traceRec_sameCmds
    assumption
  clear_value v3
  refine SameCmds.ite ?_ ?_
  · apply raise_sameCmds
    assumption
  · assumption

theorem putPf_sameCmds {s : State} (a0 : State) (a1 : ℕ) (a2 : PfSched) (h0 : SameCmds s a0) : SameCmds s (putPf a0 a1 a2) := by
  delta putPf
  extract_lets v0 v1 v2
  have k3 : SameCmds s v0 := by
    unfold v0
    refine SameCmds.set ?_
    assumption
  clear_value v0
  clear_value v1 v2
  apply wrLocal_sameCmds
  apply wrLocal_sameCmds
  apply wrLocal_sameCmds
  assumption

theorem regAccess_sameCmds {s : State} (a0 : State) (a1 : ℕ) (a2 : ℕ) (a3 : Bool) (a4 : Bool) (a5 : Bool) (h0 : SameCmds s a0) : SameCmds s (regAccess a0 a1 a2 a3 a4 a5) := by
  delta regAccess
  extract_lets v0 v1
  clear_value v0
  have k2 : SameCmds s v1 := by
    unfold v1
    apply setDie_sameCmds
    assumption
  clear_value v1
  apply raiseMod_sameCmds
  assumption

theorem moveCopy_sameCmds {s : State} (a0 : State) (a1 : ℕ) (a2 : ℕ) (a3 : ℕ) (h0 : SameCmds s a0) : SameCmds s (moveCopy a0 a1 a2 a3) := by
  delta moveCopy
  split
  · assumption
  · extract_lets v0 v1 v2 v3
    clear_value v0 v1
    have k4 : SameCmds s v2 := by
      unfold v2
      apply wrLocal_sameCmds
      assumption
    clear_value v2
    clear_value v3
    apply putObj_sameCmds
    refine SameCmds.set ?_
    assumption

theorem packFrom_sameCmds {s : State} (a0 : Nat) (a1 : List (Nat × Nat × Nat × Nat)) (a2 : State) (h0 : SameCmds s a2) : SameCmds s (packFrom a0 a1 a2) := by
  induction a1 generalizing a0 a2 with
  | nil => exact h0
  | cons x l ih => exact SameCmds.ite (ih _ _ (moveCopy_sameCmds _ _ _ _ h0)) (ih _ _ h0)

theorem packPool_sameCmds {s : State} (a0 : State) (a1 : ℕ) (h0 : SameCmds s a0) : SameCmds s (packPool a0 a1) := by
  delta packPool
  split
  · assumption
  · apply packFrom_sameCmds
    assumption

theorem makeSpace_sameCmds {s : State} (a0 : Nat) (a1 : ResObj) (a2 : Nat) (a3 : State) (h0 : SameCmds s a3) : SameCmds s (makeSpace a0 a1 a2 a3).1 := by
  induction a2 generalizing a3 with
  | zero => exact h0
  | succ n ih =>
    rw [makeSpace]
    split
    · exact h0
    · split
      all_goals
        extract_lets t
        have k : SameCmds s t := by first | exact packPool_sameCmds _ _ h0 | exact h0
        clear_value t
        split
        · exact k
        · split
          · exact k
          · split
            · exact k
            · exact ih _ (removeCopy_sameCmds _ _ _ k)

theorem placePromotion_sameCmds {s : State} (a0 : State) (a1 : ℕ) (a2 : ℕ) (a3 : ℕ) (h0 : SameCmds s a0) : SameCmds s (placePromotion a0 a1 a2 a3) := by
  delta placePromotion
  split
  · assumption
  · refine SameCmds.ite ?_ ?_
    · assumption
    · extract_lets v0
      have k1 : SameCmds s v0.1 := by
        unfold v0
        apply makeSpace_sameCmds
        assumption
      clear_value v0
      split
      · apply putObj_sameCmds
        assumption
      · assumption

theorem startPromotion_sameCmds {s : State} (a0 : State) (a1 : ℕ) (a2 : ℕ) (a3 : ℕ) (h0 : SameCmds s a0) : SameCmds s (startPromotion a0 a1 a2 a3) := by
  delta startPromotion
  split
  · assumption
  · extract_lets v0
    clear_value v0
    apply placePromotion_sameCmds
    apply putObj_sameCmds
    assumption

theorem pinUse_sameCmds {s : State} (a0 : State) (a1 : ℕ) (a2 : ℕ) (h0 : SameCmds s a0) : SameCmds s (pinUse a0 a1 a2) := by
  delta pinUse
  split
  · assumption
  · apply putObj_sameCmds
    assumption

theorem poundPublish_sameCmds {s : State} (a0 : State) (a1 : ℕ) (a2 : List SWrite) (h0 : SameCmds s a0) : SameCmds s (poundPublish a0 a1 a2) := by
  delta poundPublish
  refine SameCmds.foldl _ ?_ (fun t0 b0 h0 => ?_)
  · assumption
  · refine SameCmds.ite ?_ ?_
    · refine SameCmds.foldl _ ?_ (fun t1 b1 h1 => ?_)
      · assumption
      · extract_lets v2
        clear_value v2
        refine SameCmds.ite ?_ ?_
        · assumption
        · refine SameCmds.set ?_
          assumption
    · assumption

theorem endPromotion_sameCmds {s : State} (a0 : State) (a1 : ℕ) (a2 : ℕ) (a3 : List Byte) (h0 : SameCmds s a0) : SameCmds s (endPromotion a0 a1 a2 a3) := by
  delta endPromotion
  split
  · assumption
  · extract_lets v0 v1 v2
    clear_value v0
    have k3 : SameCmds s v1 := by
      unfold v1
      apply poundPublish_sameCmds
      apply wrLocal_sameCmds
      assumption
    clear_value v1
    clear_value v2
    apply unpinUse_sameCmds
    apply putObj_sameCmds
    assumption

theorem killWb_sameCmds {s : State} (a0 : State) (a1 : ℕ) (a2 : ℕ) (h0 : SameCmds s a0) : SameCmds s (killWb a0 a1 a2) := by
  delta killWb
  split
  · assumption
  · split
    · assumption
    · extract_lets v0 v1
      have k2 : SameCmds s v0 := by
        unfold v0
        split
        · refine SameCmds.ite ?_ ?_
          · apply sendWb_sameCmds
            assumption
          · assumption
        · assumption
      clear_value v0
      clear_value v1
      apply putObj_sameCmds
      assumption

theorem takeCopy_sameCmds {s : State} (a0 : State) (a1 : ℕ) (a2 : ℕ) (h0 : SameCmds s a0) : SameCmds s (takeCopy a0 a1 a2) := by
  delta takeCopy
  apply pinUse_sameCmds
  apply killWb_sameCmds
  assumption

theorem holdPromotion_sameCmds {s : State} (a0 : State) (a1 : ℕ) (a2 : ℕ) (h0 : SameCmds s a0) : SameCmds s (holdPromotion a0 a1 a2) := by
  delta holdPromotion
  extract_lets v0
  have k1 : SameCmds s v0 := by
    unfold v0
    apply takeCopy_sameCmds
    assumption
  clear_value v0
  split
  · assumption
  · apply putObj_sameCmds
    assumption

theorem publishWrites_sameCmds {s : State} (a0 : State) (a1 : ℕ) (a2 : List SWrite) (h0 : SameCmds s a0) : SameCmds s (publishWrites a0 a1 a2) := by
  delta publishWrites
  extract_lets v0
  have k1 : SameCmds s v0 := by
    unfold v0
    refine SameCmds.foldl _ ?_ (fun t2 b2 h2 => ?_)
    · assumption
    · refine SameCmds.ite ?_ ?_
      · apply wrLocal_sameCmds
        assumption
      · refine SameCmds.ite ?_ ?_
        · apply wrHost_sameCmds
          assumption
        · assumption
  clear_value v0
  refine SameCmds.set ?_
  assumption

theorem commitWb_sameCmds {s : State} (a0 : State) (a1 : ℕ) (a2 : ℕ) (h0 : SameCmds s a0) : SameCmds s (commitWb a0 a1 a2) := by
  delta commitWb
  split
  · assumption
  · extract_lets v0 v1 v2 v3 v4 v5 v6
    clear_value v0
    have k7 : SameCmds s v1 := by
      unfold v1
      apply count_sameCmds
      assumption
    clear_value v1
    have k8 : SameCmds s v2 := by
      unfold v2
      apply poundPublish_sameCmds
      apply publishWrites_sameCmds
      assumption
    clear_value v2
    have k9 : SameCmds s v3 := by
      unfold v3
      split
      · apply sendWb_sameCmds
        assumption
      · assumption
    clear_value v3
    clear_value v4
    have k10 : SameCmds s v5 := by
      unfold v5
      refine SameCmds.ite ?_ ?_
      · apply putObj_sameCmds
        assumption
      · assumption
    clear_value v5
    have k11 : SameCmds s v6 := by
      unfold v6
      apply clearCopy_sameCmds
      assumption
    clear_value v6
    split
    · assumption
    · refine SameCmds.ite ?_ ?_
      · apply removeCopy_sameCmds
        assumption
      · assumption

theorem pushWb_sameCmds {s : State} (a0 : State) (a1 : ℕ) (a2 : ℕ) (h0 : SameCmds s a0) : SameCmds s (pushWb a0 a1 a2) := by
  delta pushWb
  split
  · assumption
  · split
    · assumption
    · refine SameCmds.ite ?_ ?_
      · apply killWb_sameCmds
        assumption
      · refine SameCmds.ite ?_ ?_
        · apply stageWb_sameCmds
          assumption
        · refine SameCmds.ite ?_ ?_
          · assumption
          · apply commitWb_sameCmds
            assumption

theorem pushWbs_sameCmds {s : State} (a0 : State) (a1 : List ℕ) (h0 : SameCmds s a0) : SameCmds s (pushWbs a0 a1) := by
  delta pushWbs
  refine SameCmds.foldl _ ?_ (fun t0 b0 h0 => ?_)
  · assumption
  · apply pushWb_sameCmds
    apply pushWb_sameCmds
    assumption

theorem seekPlace_sameCmds {s : State} (a0 : State) (a1 : ℕ) (a2 : ℕ) (a3 : ℕ) (h0 : SameCmds s a0) : SameCmds s (seekPlace a0 a1 a2 a3) := by
  delta seekPlace
  split
  · assumption
  · apply placePromotion_sameCmds
    apply pushWbs_sameCmds
    assumption

theorem stampObj_sameCmds {s : State} (a0 : State) (a1 : ℕ) (h0 : SameCmds s a0) : SameCmds s (stampObj a0 a1) := by
  delta stampObj
  split
  · assumption
  · apply putObj_sameCmds
    assumption

end Sys2Proof.Machine
end

