-- ==== Sys2Proof/Laws/Mailbox.lean ====
section
/-! SUPPORT. A mailbox command as it arrives: what the firing of its source moves, and what its header decides (R377, R382, R409, R466). -/

namespace Sys2Proof.Machine

/-- Only what meters move differs. -/
theorem Meters.form {s t : State} (h : Meters s t) : t = { s with sics := t.sics, cnts := t.cnts, fresh := t.fresh } := by
  cases s; cases t; cases h; simp_all

/-- A mailbox command that arrives at a module that serves it. -/
theorem arrives_served {s : State} (h : s.power.linkUp = true) (r : ready s = true) :
    ∃ a b c, ∀ act, arrives s act = .next (act { s with sics := a, cnts := b, fresh := c }) := by
  have e := (fire_meters (s := s) s 8 24 (Meters.refl s)).form
  refine ⟨(fire s 8 24).sics, (fire s 8 24).cnts, (fire s 8 24).fresh, fun act => ?_⟩
  unfold arrives
  rw [if_neg (by simp [h])]
  dsimp only
  rw [if_pos (by rw [e]; exact r), ← e]

/-- A session's command acts with its COUNTER noted. -/
theorem withSes_called {s : State} {op i : Nat} {x : List Byte} (h : Called s op x i) :
    ∃ a b c, ∀ act, withSes op x s act = .next (act i (x.drop 32) (noted { s with sics := a, cnts := b, fresh := c } x i)) := by
  obtain ⟨a, b, c, e⟩ := arrives_served h.link h.ready
  refine ⟨a, b, c, fun act => ?_⟩
  unfold withSes
  rw [e]
  have : authSes { s with sics := a, cnts := b, fresh := c } op x = some i := h.auth
  rw [this]
  rfl

/-- A mailbox row arrives. -/
theorem mail_arrives {i : Instr} {op : Option Nat} {x : List Byte} (h : mailRow i = some (op, x)) (s : State) : ∃ act, exec i s = arrives s act := by
  cases i <;> first | (exfalso; cases h; done) | (simp only [exec, execSesPskStart, execSesPskFinish, execSesPakeStart, execSesPakeFinish, execIdCerts, execSesClose, execJobLink, execOwnerEnroll, execOwnerRelease, execDebugUnlock, execSesExport, execRingBind, execRingUnbind, execHdmBind, execHdmUnbind, execPrivMap, execEventRead, withPriv, withSes]; exact ⟨_, rfl⟩)

/-- A mailbox row of a session is its session's. -/
theorem mail_withSes {i : Instr} {o : Nat} {x : List Byte} (h : mailRow i = some (some o, x)) (s : State) : ∃ act, exec i s = withSes o x s act := by
  cases i <;> first | (exfalso; cases h; done) | (cases h; simp only [exec, execSesPskStart, execSesPskFinish, execSesPakeStart, execSesPakeFinish, execIdCerts, execSesClose, execJobLink, execOwnerEnroll, execOwnerRelease, execDebugUnlock, execSesExport, execRingBind, execRingUnbind, execHdmBind, execHdmUnbind, execPrivMap, execEventRead, withPriv]; exact ⟨_, rfl⟩)

theorem Meters.of (s : State) (a b c) : Meters s { s with sics := a, cnts := b, fresh := c } := (Meters.refl s).set

end Sys2Proof.Machine
end

