-- ==== Sys2Proof/Laws/Power.lean ====
section
/-! SUPPORT. Laws of power, reset, start-up and containment. -/

namespace Sys2Proof.Machine

theorem fresh_restarted (s : State) (k u : Bool) (x : Bool) : Restarted s (freshBoot { s with power := { s.power with resetN := x } } k u) := by
  constructor
  case on => exact ⟨rfl, rfl⟩
  case cmds => repeat' constructor
  case sector => repeat' constructor
  case outside => exact ⟨rfl, rfl⟩
  case pins => exact ⟨rfl, rfl, rfl, rfl⟩
  all_goals rfl

theorem fresh_dump (s : State) (u : Bool) (x : Bool) : DumpSurvives s (freshBoot { s with power := { s.power with resetN := x } } true u) := by
  have hb : ∀ a, memByte (freshBoot { s with power := { s.power with resetN := x } } true u).mem a = if isHbm a = true then memByte s.mem a else 0 := by
    intro a
    show memByte (s.mem.filter (fun c => isHbm c.1)) a = _
    generalize s.mem = m
    induction m with
    | nil => simp [memByte, tget]
    | cons e m ih =>
      obtain ⟨k, v⟩ := e
      simp only [List.filter_cons]
      unfold memByte at *
      by_cases hk : k = a
      · subst hk
        by_cases hh : isHbm k = true
        · simp [hh, tget]
        · simp only [hh, if_false, Bool.false_eq_true] at ih ⊢; simpa [hh] using ih
      · split
        · simp only [tget, if_neg hk]; exact ih
        · simp only [tget, if_neg hk]; exact ih
  refine ⟨fun a h => by rw [hb, if_pos h], fun a h => by rw [hb, h]; rfl, fun a h1 h2 h3 => ?_, ⟨rfl, rfl⟩⟩
  show tget 2 ((s.mem.filter (fun c => isHbm c.1)).map (fun c => (c.1, if inDump s c.1 then tget 2 s.keys c.1 else deadKey))) a = deadKey
  generalize s.mem = m at h3
  induction m with
  | nil => exact absurd rfl h3
  | cons e m ih =>
    obtain ⟨k, v⟩ := e
    by_cases hk : k = a
    · subst hk; simp [h1, tget, h2]
    · have h3' : memByte m a ≠ 0 := by unfold memByte at *; simpa [tget, hk] using h3
      simp only [List.filter_cons]
      split
      · simp only [List.map_cons, tget, if_neg hk]; exact ih h3'
      · exact ih h3'

theorem getSes_setSes (s : State) (i j : Nat) (x : Session) : getSes (setSes s i x) j = if i = j then x else getSes s j := tget_tset _ i j x

/-- What the end of a session leaves (R411): its slot is free, and time, power, dies and the other slots are as they were. -/
theorem endSession_says (s : State) (i : Nat) : (endSession s i).time = s.time ∧ (endSession s i).power.kept = s.power.kept ∧
    (∀ d, (getDie (endSession s i) d).kept = (getDie s d).kept) ∧ ∀ j, getSes (endSession s i) j = if i = j then Session.rest else getSes s j := by
  unfold endSession
  extract_lets x s1 s2 s3 s4 dead a1 a2 a3 a4 s5
  have k1 : Contained s s1 := Contained.foldl _ (Contained.refl s) fun t a h => endJob_contained _ _ h
  have k2 : Contained s s2 := endAll_contained _ _ _ _ k1
  have k3 : Contained s s3 := Contained.foldl _ k2 fun t a h => dropRing_contained _ _ h
  have k4 : Contained s s4 := releaseBufs_contained _ _ k3
  clear_value s4
  have e1 : s5.time = s.time := k4.time
  have e2 : s5.power.kept = s.power.kept := k4.power
  have e3 : ∀ d, (getDie s5 d).kept = (getDie s d).kept := k4.dies
  have e4 : s5.sessions = s.sessions := k4.sessions
  clear_value s5
  refine ⟨e1, e2, e3, fun j => ?_⟩
  rw [getSes_setSes]
  split
  · rfl
  · unfold getSes; rw [e4]

theorem kept_linkUp (p q : Power) (h : p.kept = q.kept) : ({ p with linkUp := false } : Power).kept = { q.kept with linkUp := false } := by
  rw [← h]; rfl

theorem railsOff_says (s : State) (p : Nat) (ibi : List Nat) : (({ railsOff s p with power := { (railsOff s p).power with ibi := ibi } } : State).power.off = true ∧
    ({ railsOff s p with power := { (railsOff s p).power with ibi := ibi } } : State).power.phase = p ∧ (railsOff s p).mem = [] ∧ (railsOff s p).cmds = [] ∧
      (railsOff s p).jobs = [] ∧ (railsOff s p).sessions = [] ∧ (railsOff s p).dump = Dump.rest) := ⟨rfl, rfl, rfl, rfl, rfl, rfl, rfl⟩

theorem shutDown_says (s : State) : (shutDown s).time = s.time ∧ (shutDown s).power.kept = { s.power.kept with linkUp := false } ∧
    ∀ i, i < 64 → (getSes (shutDown s) i).st ≠ .opened := by
  unfold shutDown
  extract_lets s1 s2
  have k1 : Contained s s1 := endAll_contained _ _ _ _ (Contained.refl s)
  have key : ∀ (l : List Nat) (t : State), (l.foldl endSession t).time = t.time ∧ (l.foldl endSession t).power.kept = t.power.kept ∧
      ∀ j, getSes (l.foldl endSession t) j = if j ∈ l then Session.rest else getSes t j := by
    intro l
    induction l with
    | nil => exact fun t => ⟨rfl, rfl, fun j => rfl⟩
    | cons i l ih =>
      intro t
      obtain ⟨a, b, c⟩ := ih (endSession t i)
      obtain ⟨a', b', _, c'⟩ := endSession_says t i
      rw [List.foldl_cons]
      refine ⟨a.trans a', b.trans b', fun j => ?_⟩
      rw [c j, c' j]
      by_cases h1 : j ∈ l
      · rw [if_pos h1, if_pos (List.mem_cons_of_mem _ h1)]
      · rw [if_neg h1]
        by_cases h2 : i = j
        · rw [if_pos h2, if_pos (by simp [h2])]
        · rw [if_neg h2, if_neg (by simp [h1, Ne.symm h2])]
  obtain ⟨a, b, c⟩ := key ((List.range 64).filter (fun i => (getSes s1 i).st == .opened)) s1
  refine ⟨a.trans k1.time, ?_, fun i hi => ?_⟩
  · exact kept_linkUp _ _ (b.trans k1.power)
  · have e : getSes { s2 with power := { s2.power with linkUp := false }, cxl := { Cxl.rest with apertures := [] } } i = getSes s2 i := rfl
    rw [e, c i]
    split
    · exact fun h => by cases h
    · rename_i h
      intro ho
      exact h (List.mem_filter.mpr ⟨List.mem_range.mpr hi, by simp [ho]⟩)

theorem shutdownTimeout_eq (s : State) (a : Nat) (hp : s.power.phase = 8) (ha : s.power.shutAt = some a) : exec .shutdownTimeout s =
    .next { shutDown (timeTo s (a + 10000000)) with power := { (shutDown (timeTo s (a + 10000000))).power with shutAt := none } } := by
  have e : exec .shutdownTimeout s = .next (if s.power.phase = 8 then
      match s.power.shutAt with
      | some t => (let s := shutDown (timeTo s (t + 10000000)); { s with power := { s.power with shutAt := none } })
      | none => s
    else s) := rfl
  rw [e, if_pos hp]
  rw [ha]

theorem kept_link {p q : Power} (h : p.kept = { q.kept with linkUp := false }) : p.linkUp = false := congrArg Power.linkUp h
theorem kept_phase {p q : Power} (h : p.kept = { q.kept with linkUp := false }) : p.phase = q.phase := by
  have := congrArg Power.phase h
  exact this

theorem pow3_fin (s u : State) (m : Nat) (h : exec .shutdownTimeout s = .next { u with power := { u.power with shutAt := none } })
    (h1 : u.power.linkUp = false) (h2 : u.power.phase = 8) (h4 : u.time = m) (h3 : ∀ i, i < 64 → (getSes u i).st ≠ .opened) :
    ∃ t, exec .shutdownTimeout s = .next t ∧ t.power.shutAt = none ∧ t.power.linkUp = false ∧ t.power.phase = 8 ∧
        t.time = m ∧ ∀ i, i < 64 → (getSes t i).st ≠ .opened := ⟨_, h, rfl, h1, h2, h4, h3⟩

end Sys2Proof.Machine
end

