-- ==== Sys2Proof/Laws/Sessions.lean ====
section
/-! SUPPORT. What a command of a session acts on, and what the end of a session takes with it (R409, R411). -/

namespace Sys2Proof.Machine

theorem noted_self (s : State) (x : List Byte) (i : Nat) : getSes (noted s x i) i = { getSes s i with counter := fieldAt x 4 8 + 1 } :=
  (getSes_setSes _ _ _ _).trans (if_pos rfl)

theorem noted_priv (s : State) (x : List Byte) (i : Nat) : (getSes (noted s x i) i).priv = (getSes s i).priv := by rw [noted_self]

theorem noted_meters {s w : State} (x : List Byte) (i : Nat) (h : Meters s w) : Meters (noted s x i) (noted w x i) := by
  have e : getSes w i = getSes s i := by unfold getSes; rw [h.sessions]
  unfold noted setSes
  rw [e]
  exact { h with sessions := by rw [h.sessions] }

theorem reply_answered {v w : State} {rc : Nat} {out : List Byte} (h : Meters v w) : Answered v (reply w rc out) rc out :=
  { h with answers := by show w.answers ++ _ = v.answers ++ _; rw [h.answers] }

/-- A session's command acts on the state with its COUNTER noted. -/
theorem withSes_acts {s : State} {op i : Nat} {x : List Byte} (h : Called s op x i) :
    ∃ w, Meters (noted s x i) w ∧ ∀ act, withSes op x s act = .next (act i (x.drop 32) w) := by
  obtain ⟨a, b, c, e⟩ := withSes_called h
  exact ⟨_, noted_meters x i (Meters.of s a b c), e⟩

/-- A command of a privileged session acts. -/
theorem withPriv_acts {s : State} {op i : Nat} {x : List Byte} (h : Called s op x i) (hp : (getSes s i).priv = true) :
    ∃ w, Meters (noted s x i) w ∧ ∀ act, withPriv op x s act = .next (act i (x.drop 32) w) := by
  obtain ⟨w, hw, e⟩ := withSes_acts h
  refine ⟨w, hw, fun act => ?_⟩
  have : (getSes w i).priv = true := by unfold getSes; rw [hw.sessions]; exact (noted_priv s x i).trans hp
  unfold withPriv
  rw [e, if_pos this]

/-- A command that needs privilege is refused to another session. -/
theorem withPriv_refused {s : State} {op i : Nat} {x : List Byte} (h : Called s op x i) (hp : (getSes s i).priv = false) (act) :
    ∃ u, withPriv op x s act = .next u ∧ Answered (noted s x i) u rcInvalid [] := by
  obtain ⟨w, hw, e⟩ := withSes_acts h
  have : (getSes w i).priv = false := by unfold getSes; rw [hw.sessions]; exact (noted_priv s x i).trans hp
  refine ⟨reply w rcInvalid [], ?_, reply_answered hw⟩
  unfold withPriv
  rw [e, if_neg (by simp [this])]

/-- What goes with a session (R411): its map, its hold on debug, its apertures and its link secrets; what was answered and the configuration stay. -/
theorem endSession_gone (s : State) (i : Nat) : (endSession s i).cxl.privBy ≠ some i ∧ (endSession s i).trust.dbgBy ≠ some i ∧
    (∀ a ∈ (endSession s i).cxl.apertures, a.2.2 ≠ i) ∧ (∀ l ∈ (endSession s i).links, l.1.1 ≠ i) ∧ (endSession s i).answers = s.answers ∧
    (endSession s i).cfg = s.cfg := by
  unfold endSession
  extract_lets x s1 s2 s3 s4 dead a1 a2 a3 a4 s5
  have k1 : Contained s s1 := Contained.foldl _ (Contained.refl s) fun t a h => endJob_contained _ _ h
  have k2 : Contained s s2 := endAll_contained _ _ _ _ k1
  have k3 : Contained s s3 := Contained.foldl _ k2 fun t a h => dropRing_contained _ _ h
  have k4 : Contained s s4 := releaseBufs_contained _ _ k3
  clear_value s4
  refine ⟨?_, ?_, fun a h => ?_, fun a h => ?_, k4.answers, k4.cfg⟩
  · show (if s4.cxl.privBy = some i then none else s4.cxl.privBy) ≠ some i
    intro hx; split at hx; cases hx; rename_i hn; exact hn hx
  · show (if s4.trust.dbgBy = some i then none else s4.trust.dbgBy) ≠ some i
    intro hx; split at hx; cases hx; rename_i hn; exact hn hx
  · have : a ∈ s4.cxl.apertures.filter (fun a => !(a.2.2 == i)) := h
    simpa using (List.mem_filter.mp this).2
  · have : a ∈ s4.links.filter (fun l => !(l.1.1 == i)) := h
    simpa using (List.mem_filter.mp this).2

theorem getRing_setRing (s : State) (i j : Nat) (x : Ring) : getRing (setRing s i x) j = if i = j then x else getRing s j := tget_tset _ i j x

end Sys2Proof.Machine
end

