-- ==== Sys2Proof/Laws/Ends.lean ====
section
/-! SUPPORT. The end of a command: what its reply writes, that it is gone and remembered, and what it leaves (R268, R272, R277). -/

namespace Sys2Proof.Machine

theorem replyBytes_length (c : Cmd) : (replyBytes c).length = 32 := by
  unfold replyBytes; simp only [List.length_append, leBytes_length]

/-- Handles only go: none comes back. -/
def NoMore (s t : State) : Prop := ∀ z ∈ t.cmds, z.id ∈ s.cmds.map Cmd.id

theorem NoMore.refl (s : State) : NoMore s s := fun _ h => List.mem_map_of_mem h

theorem NoMore.trans {a b c : State} (h : NoMore a b) (g : NoMore b c) : NoMore a c := fun z hz => by
  obtain ⟨y, hy, e⟩ := List.mem_map.mp (g z hz)
  exact e ▸ h y hy

theorem NoMore.of {s t : State} (h : t.cmds.map Cmd.id = s.cmds.map Cmd.id) : NoMore s t := fun _ hz => h ▸ List.mem_map_of_mem hz

theorem NoMore.same {s t : State} (h : t.cmds = s.cmds) : NoMore s t := NoMore.of (by rw [h])

theorem Beside.noMore {s t : State} (h : Beside s t) : NoMore s t := NoMore.of h.ids

theorem NoMore.filter (s : State) (p : Cmd → Bool) : NoMore s { s with cmds := s.cmds.filter p } :=
  fun z hz => List.mem_map_of_mem (List.mem_filter.mp hz).1

theorem ringFault_ids (s : State) (r k : Nat) : (ringFault s r k).cmds.map Cmd.id = s.cmds.map Cmd.id := by
  unfold ringFault
  extract_lets x s1 s2 s3 s4
  have h3 : s3.cmds = s.cmds := by
    unfold s3; split
    · rfl
    · exact (fire_sameCmds s2 _ _ (SameCmds.refl s2)).cmds
  have h4 : s4.cmds.map Cmd.id = s.cmds.map Cmd.id := by
    unfold s4; split
    · show (s3.cmds.map _).map Cmd.id = _
      rw [h3, List.map_map]
      apply List.map_congr_left
      intro c _
      show Cmd.id (if _ then _ else _) = _
      split <;> rfl
    · rw [h3]
  have h5 := (raiseFor_sameCmds s4 0xF 0x1B false (if x.bind < 64 then some x.bind else none) 0xFFFF 0xFFFF 0 (r + (setBit x.fault k true) * 256) 0 0 (SameCmds.refl s4)).cmds
  rw [h5, h4]

theorem fire_ended (s : State) (d i : Nat) : (fire s d i).ended = s.ended := (fire_meters s d i (Meters.refl s)).ended

theorem fireMsix_ended (s : State) (v : Nat) : (fireMsix s v).ended = s.ended := (fireMsix_told s v (Told.refl s)).ended

theorem fire_rings (s : State) (d i k : Nat) : getRing (fire s d i) k = getRing s k := by
  unfold getRing; rw [(fire_meters s d i (Meters.refl s)).rings]

theorem fireMsix_rings (s : State) (v k : Nat) : getRing (fireMsix s v) k = getRing s k := by
  unfold getRing; rw [(fireMsix_told s v (Told.refl s)).rings]

theorem ringFault_ended (s : State) (r k : Nat) : (ringFault s r k).ended = s.ended := by
  unfold ringFault
  extract_lets x s1 s2 s3 s4
  have h3 : s3.ended = s.ended := by
    unfold s3; split
    · rfl
    · exact fire_ended s2 _ _
  have h4 : s4.ended = s.ended := by
    unfold s4; split <;> exact h3
  exact (raiseFor_told s4 _ _ _ _ _ _ _ _ _ _ (Told.refl s4)).ended.trans h4

/-- Where a reply's bytes go, and how its ring reports it. -/
def replyStore (s : State) (r : Nat) (bs : List Byte) : State :=
  let x := getRing s r
  let g := gaddrOf x.reply
  let i := x.rtail % 2 ^ x.log2
  if g.tier = 5 then
    if sealedArea s r x.reply then
      let ct := fitBytes 48 (Config.gcmSeal (ringKey s r) (leBytes 2 r ++ leBytes 2 1 ++ leBytes 8 x.rtail) bs)
      wrHost (wrHost s (g.off + 32 * i) (ct.take 32)) (g.off + 32 * 2 ^ x.log2 + 16 * i) (ct.drop 32)
    else wrHost s (g.off + 32 * i) bs
  else wrPlain s (g.off + 32 * i) bs

def replyTell (s : State) (r : Nat) (x : Ring) : State :=
  if x.replyIrq then (if x.msix then fireMsix (fire s (r / 16) (r % 16)) r else fire s (r / 16) (r % 16)) else s

def Ring.replied (x : Ring) : Ring := { x with rtail := (x.rtail + 1) % 2 ^ 32, inFlight := x.inFlight - 1 }

theorem writeReply_eq (s : State) (r : Nat) (bs : List Byte) : writeReply s r bs =
    if (gaddrOf (getRing s r).reply).tier = 5 ∧ s.power.linkUp = false then
      setRing (ringFault s r 0) r { getRing (ringFault s r 0) r with inFlight := (getRing s r).inFlight - 1 }
    else replyTell (setRing (replyStore s r bs) r (getRing s r).replied) r (getRing s r) := rfl

theorem replyTell_quiet {s : State} (u : State) (r : Nat) (x : Ring) (h : Quiet s u) : Quiet s (replyTell u r x) :=
  Quiet.ite (Quiet.ite (fireMsix_quiet _ _ (fire_quiet _ _ _ h)) (fire_quiet _ _ _ h)) h

theorem replyTell_says (u : State) (r : Nat) (x : Ring) : (replyTell u r x).cmds = u.cmds ∧ (replyTell u r x).ended = u.ended ∧
    ∀ k, getRing (replyTell u r x) k = getRing u k := by
  unfold replyTell
  have h1 : (fire u (r / 16) (r % 16)).cmds = u.cmds := (fire_sameCmds u _ _ (SameCmds.refl u)).cmds
  by_cases hi : x.replyIrq = true
  · rw [if_pos hi]
    by_cases hm : x.msix = true
    · rw [if_pos hm]
      exact ⟨(fireMsix_sameCmds _ _ (SameCmds.refl _)).cmds.trans h1, (fireMsix_ended _ _).trans (fire_ended _ _ _), fun k => (fireMsix_rings _ _ k).trans (fire_rings _ _ _ k)⟩
    · rw [if_neg hm]
      exact ⟨h1, fire_ended _ _ _, fun k => fire_rings _ _ _ k⟩
  · rw [if_neg hi]; exact ⟨rfl, rfl, fun _ => rfl⟩

theorem replyStore_says (s : State) (r : Nat) (bs : List Byte) : (replyStore s r bs).cmds = s.cmds ∧ (replyStore s r bs).ended = s.ended ∧
    ∀ k, getRing (replyStore s r bs) k = getRing s k := by
  unfold replyStore
  dsimp only
  by_cases h5 : (gaddrOf (getRing s r).reply).tier = 5
  · rw [if_pos h5]
    by_cases hs : sealedArea s r (getRing s r).reply = true
    · rw [if_pos hs]; exact ⟨rfl, rfl, fun _ => rfl⟩
    · rw [if_neg hs]; exact ⟨rfl, rfl, fun _ => rfl⟩
  · rw [if_neg h5]; exact ⟨rfl, rfl, fun _ => rfl⟩

theorem writeReply_ids (s : State) (r : Nat) (bs : List Byte) : (writeReply s r bs).cmds.map Cmd.id = s.cmds.map Cmd.id ∧ (writeReply s r bs).ended = s.ended := by
  rw [writeReply_eq]
  by_cases h : (gaddrOf (getRing s r).reply).tier = 5 ∧ s.power.linkUp = false
  · rw [if_pos h]
    have a := ringFault_ids s r 0
    have b := ringFault_ended s r 0
    generalize ringFault s r 0 = u at *
    exact ⟨a, b⟩
  · rw [if_neg h]
    obtain ⟨c, d, -⟩ := replyStore_says s r bs
    generalize replyStore s r bs = u at *
    obtain ⟨a, b, -⟩ := replyTell_says (setRing u r (getRing s r).replied) r (getRing s r)
    refine ⟨?_, b.trans d⟩
    rw [a]
    exact congrArg (List.map Cmd.id) c

theorem endUnbind_says (s : State) (r : Nat) : (endUnbind s r).cmds = s.cmds ∧ (endUnbind s r).ended = s.ended ∧
    ((getRing s r).unbinding = false → endUnbind s r = s) := by
  unfold endUnbind
  dsimp only
  by_cases h : (getRing s r).unbinding = true ∧ (getRing s r).inFlight = 0
  · rw [if_pos h]
    exact ⟨(fireMsix_sameCmds _ _ (SameCmds.refl _)).cmds, fireMsix_ended _ _, fun g => by rw [g] at h; cases h.1⟩
  · rw [if_neg h]
    exact ⟨rfl, rfl, fun _ => rfl⟩

theorem endUnbind_quiet (s : State) (r : Nat) : Quiet s (endUnbind s r) := by
  unfold endUnbind
  dsimp only
  refine Quiet.ite ?_ (Quiet.refl s)
  apply fireMsix_quiet
  unfold resetRing dropRingBufs
  exact Quiet.set (Quiet.set (Quiet.refl s))

theorem dropCmd_gone (s : State) (i : Nat) : NoMore s (dropCmd s i) ∧ ∀ z ∈ (dropCmd s i).cmds, z.id ≠ i := by
  refine ⟨fun z hz => List.mem_map_of_mem (List.mem_filter.mp hz).1, fun z hz e => ?_⟩
  have := (List.mem_filter.mp hz).2
  simp [e] at this

theorem wrPlain_mem (s : State) (a : Nat) (bs : List Byte) : (wrPlain s a bs).mem = memWrite s.mem a bs := rfl

/-- The state in which a command that ends is dropped and remembered. -/
def leaving (s : State) (c : Cmd) : State := { dropCmd s c.id with ended := s.ended ++ [(c.sess, c.pkt.job, c.pkt.seq)] }

theorem finishCmd_eq (s : State) (c : Cmd) : finishCmd s c = (match c.origin with
    | .ring r => endUnbind (if c.noReply then setRing (leaving s c) r { getRing s r with inFlight := (getRing s r).inFlight - 1 } else writeReply (leaving s c) r (replyBytes c)) r
    | _ => leaving s c) := rfl

/-- A command that leaves the module: it is gone and remembered as ended. -/
theorem finishCmd_gone (s : State) (c : Cmd) : NoMore s (finishCmd s c) ∧ (∀ z ∈ (finishCmd s c).cmds, z.id ≠ c.id) ∧
    (finishCmd s c).ended = s.ended ++ [(c.sess, c.pkt.job, c.pkt.seq)] := by
  obtain ⟨h1, h2⟩ := dropCmd_gone s c.id
  have key : ∀ u : State, u.cmds.map Cmd.id = (dropCmd s c.id).cmds.map Cmd.id → NoMore s u ∧ ∀ z ∈ u.cmds, z.id ≠ c.id := by
    intro u hu
    refine ⟨h1.trans (NoMore.of hu), fun z hz e => ?_⟩
    have : z.id ∈ (dropCmd s c.id).cmds.map Cmd.id := hu ▸ List.mem_map_of_mem hz
    obtain ⟨y, hy, e2⟩ := List.mem_map.mp this
    exact h2 y hy (e2.trans e)
  have hl : (leaving s c).cmds.map Cmd.id = (dropCmd s c.id).cmds.map Cmd.id := rfl
  have fin : ∀ u : State, u.cmds.map Cmd.id = (leaving s c).cmds.map Cmd.id → u.ended = (leaving s c).ended →
      NoMore s u ∧ (∀ z ∈ u.cmds, z.id ≠ c.id) ∧ u.ended = s.ended ++ [(c.sess, c.pkt.job, c.pkt.seq)] := fun u a b =>
    ⟨(key u (a.trans hl)).1, (key u (a.trans hl)).2, b⟩
  rw [finishCmd_eq]
  have base := fin (leaving s c) rfl rfl
  cases c.origin with
  | ring r =>
    dsimp only
    obtain ⟨a, b, -⟩ := endUnbind_says (if c.noReply then setRing (leaving s c) r { getRing s r with inFlight := (getRing s r).inFlight - 1 } else writeReply (leaving s c) r (replyBytes c)) r
    apply fin
    · rw [a]
      by_cases hn : c.noReply = true
      · rw [if_pos hn]; rfl
      · rw [if_neg hn]; exact (writeReply_ids _ _ _).1
    · rw [b]
      by_cases hn : c.noReply = true
      · rw [if_pos hn]; rfl
      · rw [if_neg hn]; exact (writeReply_ids _ _ _).2
  | refresh _ _ _ => exact base
  | promotion _ _ => exact base
  | shardCopy _ _ => exact base

/-- The reply of a command in a ring whose reply area is local memory. -/
theorem finishCmd_reply {s : State} {c : Cmd} {r : Nat} (ho : c.origin = .ring r) (hn : c.noReply = false) (ht : (gaddrOf (getRing s r).reply).tier ≠ 5) :
    ((getRing s r).unbinding = false → getRing (finishCmd s c) r = (getRing s r).replied ∧ ∀ k, k ≠ r → getRing (finishCmd s c) k = getRing s k) ∧
    (Still s → (finishCmd s c).mem = memWrite s.mem (replyAt s r) (replyBytes c) ∧ (finishCmd s c).host = s.host ∧ Still (finishCmd s c)) := by
  have e : finishCmd s c = endUnbind (replyTell (setRing (replyStore (leaving s c) r (replyBytes c)) r (getRing s r).replied) r (getRing s r)) r := by
    rw [finishCmd_eq, ho]
    dsimp only
    rw [hn, if_neg (by decide), writeReply_eq, if_neg fun h => ht h.1]
    rfl
  have es : replyStore (leaving s c) r (replyBytes c) = wrPlain (leaving s c) (replyAt s r) (replyBytes c) := by
    show (if (gaddrOf (getRing s r).reply).tier = 5 then _ else _) = _
    rw [if_neg ht]; rfl
  rw [es] at e
  clear es
  generalize replyBytes c = bs at *
  have gl : ∀ k, getRing (wrPlain (leaving s c) (replyAt s r) bs) k = getRing s k := fun _ => rfl
  have ml : (wrPlain (leaving s c) (replyAt s r) bs).mem = memWrite s.mem (replyAt s r) bs := wrPlain_mem (leaving s c) _ _
  have ol : (wrPlain (leaving s c) (replyAt s r) bs).host = s.host := rfl
  have sl : Still s → Still (wrPlain (leaving s c) (replyAt s r) bs) := Still.of (x := s) rfl rfl rfl rfl
  generalize wrPlain (leaving s c) (replyAt s r) bs = u at *
  have rw_ : ∀ k, getRing (setRing u r (getRing s r).replied) k = if r = k then (getRing s r).replied else getRing s k := by
    intro k
    rw [getRing_setRing, gl]
  have mw : (setRing u r (getRing s r).replied).mem = u.mem := rfl
  have ow : (setRing u r (getRing s r).replied).host = u.host := rfl
  have sw' : Still u → Still (setRing u r (getRing s r).replied) := Still.of (x := u) rfl rfl rfl rfl
  generalize setRing u r (getRing s r).replied = w at *
  obtain ⟨-, -, tr⟩ := replyTell_says w r (getRing s r)
  refine ⟨fun hu => ?_, fun st => ?_⟩
  · have e2 : finishCmd s c = replyTell w r (getRing s r) := by
      rw [e]; apply (endUnbind_says _ r).2.2
      rw [tr, rw_, if_pos rfl]; exact hu
    rw [e2]
    exact ⟨by rw [tr, rw_, if_pos rfl], fun k hk => by rw [tr, rw_, if_neg (Ne.symm hk)]⟩
  · obtain ⟨m, o, s2⟩ := ((replyTell_quiet w r (getRing s r) (Quiet.refl w)).trans (endUnbind_quiet _ r)) (sw' (sl st))
    rw [e]
    exact ⟨m.trans (mw.trans ml), o.trans (ow.trans ol), s2⟩

theorem endStall_kept (s : State) (c : Cmd) : ∃ w a b, (endStall s c).2 = { c with waitFrom := w, stalled := a, stallFlag := b } := by
  unfold endStall
  split
  · exact ⟨c.waitFrom, c.stalled, c.stallFlag, rfl⟩
  · exact ⟨_, _, _, rfl⟩

theorem copyEnded_noMore (s : State) (p e : Nat) (r : Nat × Nat × Nat) : NoMore s (copyEnded s p e r) := by
  unfold copyEnded
  split
  · exact NoMore.refl s
  · exact NoMore.of (ids_put _ _)

theorem copyEnded_ended (s : State) (p e : Nat) (r : Nat × Nat × Nat) : (copyEnded s p e r).ended = s.ended := by
  unfold copyEnded; split <;> rfl

/-- A schedule that is put leaves everything but its entry, and memory. -/
theorem putPf_told (s : State) (k : Nat) (p : PfSched) : Told { s with pfs := tput s.pfs k p } (putPf s k p) := by
  unfold putPf
  exact wrLocal_told _ _ _ _ (wrLocal_told _ _ _ _ (wrLocal_told _ _ _ _ (Told.refl _)))

theorem promotionFault_cmds (s : State) (a b d : Nat) : NoMore s (promotionFault s a b d) ∧ (promotionFault s a b d).ended = s.ended := by
  unfold promotionFault
  split
  · exact ⟨NoMore.refl s, rfl⟩
  · rename_i p _
    extract_lets h l p' h2
    have hh : SameCmds s h ∧ h.ended = s.ended := by
      unfold h; split
      · exact ⟨unpinUse_sameCmds _ _ _ (SameCmds.refl s), (unpinUse_beside _ _ _ (Beside.refl s)).ended⟩
      · exact ⟨SameCmds.refl s, rfl⟩
    clear_value h
    have hp : ∀ k q, (putPf h k q).cmds = s.cmds ∧ (putPf h k q).ended = s.ended := fun k q =>
      ⟨(putPf_told h k q).cmds.trans hh.1.cmds, (putPf_told h k q).ended.trans hh.2⟩
    split
    · exact ⟨NoMore.same (hp _ _).1, (hp _ _).2⟩
    · have g := raise_told h2 (dieOfAddr (a % 2 ^ 48)) 0x12 p.job l 0 a (a / 2 ^ 32) (b + d * 2 ^ 16) (Told.refl h2)
      have e : h2.cmds = s.cmds ∧ h2.ended = s.ended := hp a { p' with state := 3 }
      clear_value h2
      exact ⟨NoMore.same (g.cmds.trans e.1), g.ended.trans e.2⟩

/-- The end of a command without commit is: what its run held is released, its reply is written, its locks are left, and its copies end (R272). -/
theorem endCmd_parts (s : State) (c : Cmd) (status detail : Nat) :
    ∃ u c' v, Beside s u ∧ Quiet s u ∧ c'.id = c.id ∧ c'.pkt = c.pkt ∧ c'.sess = c.sess ∧ c'.origin = c.origin ∧ c'.noReply = c.noReply ∧
      c'.status = status ∧ c'.detail = detail ∧ c'.ieee = 0 ∧ c'.runs = c.runs ∧ c'.commitAt = 0 ∧
      Beside (finishCmd u c') v ∧ Quiet (finishCmd u c') v ∧
      endCmd s c status detail = (match c.origin with
        | .promotion sc e => promotionFault v sc e status
        | .shardCopy p e => copyEnded v p e (2, 0, 5)
        | .ring _ => endCopies v c.id
        | _ => v) := by
  obtain ⟨w, a, b, ek⟩ := endStall_kept (releaseRun s c) c
  unfold endCmd
  extract_lets s1 st r s2 c2 s3 s4 s5 s6 s7 s8 c' s9 s10 l s10b s11
  clear_value st
  have b1 : Beside s s1 ∧ Quiet s s1 := ⟨releaseRun_beside _ _ (Beside.refl s), releaseRun_quiet _ _ (Quiet.refl s)⟩
  have b2 : Beside s s2 ∧ Quiet s s2 := ⟨endStall_beside _ _ b1.1, endStall_quiet _ _ b1.2⟩
  have b3 : Beside s s3 ∧ Quiet s s3 := by
    unfold s3; split
    · exact ⟨traceRec_beside _ _ _ b2.1, traceRec_quiet _ _ _ b2.2⟩
    · exact b2
  have b4 : Beside s s4 ∧ Quiet s s4 := ⟨traceRec_beside _ _ _ b3.1, traceRec_quiet _ _ _ b3.2⟩
  have b5 : Beside s s5 ∧ Quiet s s5 := by
    unfold s5; split
    · exact ⟨jobCount_beside _ _ _ _ _ _ b4.1, jobCount_quiet _ _ _ _ _ _ b4.2⟩
    · exact b4
  have b6 : Beside s s6 ∧ Quiet s s6 := by
    unfold s6; split
    · split
      · exact ⟨count_beside _ _ _ _ _ _ b5.1, count_quiet _ _ _ _ _ _ b5.2⟩
      · exact b5
    · exact b5
  have b7 : Beside s s7 ∧ Quiet s s7 := ⟨engineDone_beside _ _ (seqAttn_beside _ _ b6.1), engineDone_quiet _ _ (seqAttn_quiet _ _ b6.2)⟩
  have b8 : Beside s s8 ∧ Quiet s s8 := by
    unfold s8; split
    · exact ⟨drift_beside _ _ b7.1, drift_quiet _ _ b7.2⟩
    · exact b7
  have e2 : c2 = { c with waitFrom := w, stalled := a, stallFlag := b } := ek
  have f10 : Beside s9 s10 ∧ Quiet s9 s10 := by
    unfold s10; split
    · exact ⟨settleSetters_beside _ _ (leaveQueue_beside _ _ _ (Beside.refl s9)), settleSetters_quiet _ _ (leaveQueue_quiet _ _ _ (Quiet.refl s9))⟩
    · exact ⟨Beside.refl s9, Quiet.refl s9⟩
  have f11 : Beside s9 s11 ∧ Quiet s9 s11 := by
    unfold s11; split
    · exact f10
    · unfold s10b
      split
      · exact ⟨reclaim_beside _ _ (leaveQueue_beside _ _ _ (returnClaim_beside _ _ _ f10.1)), reclaim_quiet _ _ (leaveQueue_quiet _ _ _ (returnClaim_quiet _ _ _ f10.2))⟩
      · exact ⟨reclaim_beside _ _ (leaveQueue_beside _ _ _ f10.1), reclaim_quiet _ _ (leaveQueue_quiet _ _ _ f10.2)⟩
  refine ⟨s8, c', s11, b8.1, b8.2, ?_, ?_, ?_, ?_, ?_, rfl, rfl, rfl, ?_, rfl, f11.1, f11.2, ?_⟩
  · show c2.id = _; rw [e2]
  · show c2.pkt = _; rw [e2]
  · show c2.sess = _; rw [e2]
  · show c2.origin = _; rw [e2]
  · show c2.noReply = _; rw [e2]
  · show c2.runs = _; rw [e2]
  · rw [e2] <;> rfl

/-- The end of a command without commit (R272). -/
theorem endCmd_both (s : State) (c : Cmd) (status detail : Nat) : Ended s (endCmd s c status detail) c status detail ∧ NoMore s (endCmd s c status detail) := by
  have hc := endCmd_contained s c status detail (Contained.refl s)
  obtain ⟨u, c', v, bu, qu, i1, i2, i3, i4, i5, i6, i7, i8, i9, i10, bv, qv, e⟩ := endCmd_parts s c status detail
  obtain ⟨f1, f2, f3⟩ := finishCmd_gone u c'
  have tail : NoMore v (endCmd s c status detail) ∧ (endCmd s c status detail).ended = v.ended ∧
      ∀ r, c.origin = .ring r → (endCmd s c status detail).rings = v.rings ∧ Quiet v (endCmd s c status detail) := by
    rw [e]
    split
    · next h => exact ⟨(promotionFault_cmds v _ _ _).1, (promotionFault_cmds v _ _ _).2, fun r hr => by rw [h] at hr; cases hr⟩
    · next h => exact ⟨copyEnded_noMore v _ _ _, copyEnded_ended v _ _ _, fun r hr => by rw [h] at hr; cases hr⟩
    · unfold endCopies
      extract_lets x
      have hx : Beside v x ∧ Quiet v x := ⟨Beside.foldl _ (Beside.refl v) fun _ _ g => releaseRun_beside _ _ g, Quiet.foldl _ (Quiet.refl v) fun _ _ g => releaseRun_quiet _ _ g⟩
      exact ⟨hx.1.noMore.trans (NoMore.filter x _), hx.1.ended, fun _ _ => ⟨hx.1.rings, Quiet.set hx.2⟩⟩
    · exact ⟨NoMore.refl v, rfl, fun _ _ => ⟨rfl, Quiet.refl v⟩⟩
  obtain ⟨t1, t2, t3⟩ := tail
  have hrg : ∀ k, getRing u k = getRing s k := fun k => by unfold getRing; rw [bu.rings]
  refine ⟨⟨fun z hz hi => ?_, ?_, hc, fun r ho hn ht hu => ?_, fun r ho hn ht st => ?_⟩, ((bu.noMore.trans f1).trans bv.noMore).trans t1⟩
  · have h1 := (bv.noMore.trans t1) z hz
    obtain ⟨y, hy, e2⟩ := List.mem_map.mp h1
    exact f2 y hy (by rw [e2, hi, i1])
  · rw [t2, bv.ended, f3]; simp [i2, i3]
  · obtain ⟨h1, -⟩ := finishCmd_reply (s := u) (c := c') (r := r) (i4.trans ho) (i5.trans hn) (by rw [hrg]; exact ht)
    have ring : ∀ k, getRing (endCmd s c status detail) k = getRing (finishCmd u c') k := fun k => by
      unfold getRing; rw [(t3 r ho).1, bv.rings]
    obtain ⟨h2, h3⟩ := h1 (by rw [hrg]; exact hu)
    exact ⟨(ring r).trans (h2.trans (by rw [hrg]; rfl)), fun k hk => by rw [ring, h3 k hk, hrg]⟩
  · obtain ⟨-, h1⟩ := finishCmd_reply (s := u) (c := c') (r := r) (i4.trans ho) (i5.trans hn) (by rw [hrg]; exact ht)
    obtain ⟨mu, ou, su⟩ := qu st
    obtain ⟨mf, of, sf⟩ := h1 su
    obtain ⟨mv, ov, sv⟩ := (qv.trans (t3 r ho).2) sf
    have ea : replyAt u r = replyAt s r := by unfold replyAt; rw [hrg]
    have em : (endCmd s c status detail).mem = memWrite s.mem (replyAt s r) (replyBytes c') := by rw [mv, mf, mu, ea]
    refine ⟨by rw [ov, of, ou], fun a ha => ?_, c', i2, i6, i7, i8, i9, i10, ?_⟩
    · rw [em]; exact memByte_memWrite_outside _ _ _ (by rw [replyBytes_length]; exact ha)
    · rw [em]
      have := memRead_memWrite (m := s.mem) (replyAt s r) (replyBytes c')
      rw [replyBytes_length] at this; exact this

theorem endCmd_ended (s : State) (c : Cmd) (status detail : Nat) : Ended s (endCmd s c status detail) c status detail := (endCmd_both s c status detail).1

theorem endCmd_noMore (s : State) (c : Cmd) (status detail : Nat) : NoMore s (endCmd s c status detail) := (endCmd_both s c status detail).2

end Sys2Proof.Machine
end

