-- ==== Sys2Proof/Laws/Ports.lean ====
section
/-! SUPPORT. Where a message goes, and what traffic leaves of a port. -/

namespace Sys2Proof.Machine

theorem getPort_setPort (s : State) (i j : Nat) (x : Port) : getPort (setPort s i x) j = if i = j then x else getPort s j := tget_tset _ i j x

/-- A message transmitted by a port is among those sent, and none more waits. -/
theorem transmit_sent (s : State) (p : Nat) (m : Msg) : (transmit s p m).sent = s.sent ++ [m] ∧ (transmit s p m).held = s.held := by
  have g := traceRec_told s (portDie p) (msgRec s m.job m.seq m.typ m.dst m.tc false) (Told.refl s)
  unfold transmit
  extract_lets s1 s2 x n
  have k : s2.sent = s.sent ∧ s2.held = s.held := by
    subst s2
    split
    · have c := count_meters s1 (portDie p) slotsDie 0x72 1 (msgAttr s1 m.job m.seq) (Meters.refl s1)
      exact ⟨c.sent.trans g.sent, c.held.trans g.held⟩
    · exact ⟨g.sent, g.held⟩
  exact ⟨by show s2.sent ++ [m] = _; rw [k.1], k.2⟩

/-- A message offered leaves or waits. -/
theorem offer_posted (s : State) (m : Msg) : Posted s (offer s m) (fun x => x = m) := by
  unfold offer
  split
  · exact ⟨m, rfl, .inr ⟨rfl, rfl⟩⟩
  · split
    · rename_i p _
      exact ⟨m, rfl, .inl (transmit_sent s p m)⟩
    · exact ⟨m, rfl, .inr ⟨rfl, rfl⟩⟩

theorem countPaced_sent (s : State) (m : Msg) : (countPaced s m).sent = s.sent ∧ (countPaced s m).held = s.held := by
  unfold countPaced
  repeat' split
  all_goals exact ⟨rfl, rfl⟩

/-- Where a message goes. -/
theorem send_posted (s : State) (m : Msg) (h : s.power.phase ≠ 0xF) :
    Posted s (send s m) (fun x => { x with gen := m.gen, count := m.count } = m) := by
  unfold send
  rw [if_neg h]
  extract_lets k t t' d0 s1
  have g := countPaced_sent s1 m
  obtain ⟨x, rfl, hp⟩ := offer_posted (countPaced s1 m) { m with gen := t'.1, count := t'.2 }
  rw [g.1, g.2] at hp
  exact ⟨_, by cases m; rfl, hp⟩

/-- Traffic after a port was written. -/
theorem PortIs.set {s t : State} {p : Nat} {x : Port} (h : Carried (setPort s p x) t) : PortIs s t p x := by
  refine ⟨?_, ?_, fun q hq => ?_⟩
  · have : Carried { s with ports := t.ports } { t with ports := t.ports } :=
      { h with ports := fun _ => rfl, domain := h.domain }
    exact this
  · have := h.ports p; rw [getPort_setPort, if_pos rfl] at this; exact this
  · have := h.ports q; rw [getPort_setPort, if_neg (Ne.symm hq)] at this; exact this

end Sys2Proof.Machine
end

