-- ==== Sys2Proof/Laws/Messages.lean ====
section
/-! SUPPORT. What an arrived message does. -/

namespace Sys2Proof.Machine

/-- What an arrived message does. -/
theorem receive_heard {s : State} {typ : Nat} {m : MsgHdr} (h : Arrives s typ m) :
    ∃ u, Heard s u m ∧ ∀ act, receive typ m act s = .next (act u) := by
  obtain ⟨w, hw⟩ := h.fresh
  let v : State := { s with domain := { s.domain with rx := aput s.domain.rx (m.src, m.job) w, lastHeard := aput s.domain.lastHeard m.src s.time } }
  refine ⟨traceRec v (match arrivalPort v m.src with | some p => portDie p | none => 8) (msgRec v m.job m.seq typ m.src m.tc true),
    ⟨w, v, rfl, traceRec_told v _ _ (Told.refl v), fun i => traceRec_still (s := v) (Still.of (x := s) rfl rfl rfl rfl i) _ _⟩, fun act => ?_⟩
  unfold receive
  rw [if_neg (by simp [h.here, h.alive]), if_neg (by simp [h.type]), if_neg (by intro ⟨a, b⟩; rcases h.known with k | k; exact a k; rw [k] at b; cases b),
    if_neg (by intro ⟨a, b⟩; rcases h.own with k | k; exact a k; rw [k] at b; cases b)]
  extract_lets w0
  rw [if_pos (by rw [h.good.1, h.good.2]; rfl)]
  have : windowOk w0 m.gen m.count = some w := hw
  rw [this] <;> rfl

/-- What an arrived message does while nothing captures it. -/
theorem receive_uncaptured {s : State} {typ : Nat} {m : MsgHdr} (h : Arrives s typ m) (q : Uncaptured s) :
    ∃ w u, u = { s with domain := { s.domain with rx := aput s.domain.rx (m.src, m.job) w, lastHeard := aput s.domain.lastHeard m.src s.time } } ∧
      Heard s u m ∧ ∀ act, receive typ m act s = .next (act u) := by
  obtain ⟨w, hw⟩ := h.fresh
  let v : State := { s with domain := { s.domain with rx := aput s.domain.rx (m.src, m.job) w, lastHeard := aput s.domain.lastHeard m.src s.time } }
  refine ⟨w, v, rfl, ⟨w, v, rfl, Told.refl v, fun _ => rfl⟩, fun act => ?_⟩
  unfold receive
  rw [if_neg (by simp [h.here, h.alive]), if_neg (by simp [h.type]), if_neg (by intro ⟨a, b⟩; rcases h.known with k | k; exact a k; rw [k] at b; cases b),
    if_neg (by intro ⟨a, b⟩; rcases h.own with k | k; exact a k; rw [k] at b; cases b)]
  extract_lets w0
  rw [if_pos (by rw [h.good.1, h.good.2]; rfl)]
  have : windowOk w0 m.gen m.count = some w := hw
  rw [this]
  have e : ∀ d r, traceRec v d r = v := fun d r => if_pos (by rcases q d with a | a; exact .inl a; exact .inr (.inl a))
  dsimp only
  rw [e]

/-- Remote writes that waited for room are staged in the order in which they came. -/
theorem admitStaged_admitted (s : State) : Admitted s (admitStaged s) := by
  unfold admitStaged
  generalize List.range s.remoteSt.length = l
  have h : ∀ t : State, Quiet s t → Admitted s t → Admitted s (l.foldl (fun s i =>
      match s.remoteSt[i]? with
      | none => s
      | some r =>
        if r.room ∨ poundFree s (dieOfAddr r.addr) true < 256 * (granulesOf r.addr r.data.length).length then s
        else send { s with remoteSt := s.remoteSt.set i { r with room := true } } ⟨r.peer, mtStagedAck, 7, r.job, r.seq, r.runs, r.ctx, 0, 0, [], []⟩) t) := by
    induction l with
    | nil => exact fun t _ h => h
    | cons i l ih =>
      intro t q h
      rw [List.foldl_cons]
      cases hi : t.remoteSt[i]? with
      | none => exact ih t q h
      | some r =>
        dsimp only
        by_cases hr : (r.room = true ∨ poundFree t (dieOfAddr r.addr) true < 256 * (granulesOf r.addr r.data.length).length)
        · rw [if_pos hr]; exact ih t q h
        · rw [if_neg hr]
          have hc := send_carried (s := { t with remoteSt := t.remoteSt.set i { r with room := true } }) _ ⟨r.peer, mtStagedAck, 7, r.job, r.seq, r.runs, r.ctx, 0, 0, [], []⟩ (Carried.refl _)
          have q' := q.trans (send_quiet _ ⟨r.peer, mtStagedAck, 7, r.job, r.seq, r.runs, r.ctx, 0, 0, [], []⟩ (Quiet.set (Quiet.refl t) : Quiet t { t with remoteSt := t.remoteSt.set i { r with room := true } }))
          refine ih _ q' ⟨?_, ?_, fun st => ⟨(q' st).1, (q' st).2.1⟩, fun ha => ?_⟩
          · rw [hc.remoteSt, ← h.writes]
            dsimp only
            have e : RemoteStaged.unroomed { r with room := true } = r.unroomed := rfl
            rw [List.map_set, e]
            refine List.ext_getElem? fun k => ?_
            rw [List.getElem?_set]
            by_cases hk : i = k
            · subst hk
              rw [if_pos rfl, List.length_map, if_pos (List.getElem?_eq_some_iff.mp hi).1, List.getElem?_map, hi]; rfl
            · rw [if_neg hk]
          · have a : Carried { s with remoteSt := (t.remoteSt.set i { r with room := true }) } { t with remoteSt := (t.remoteSt.set i { r with room := true }) } := { h.rest with remoteSt := rfl }
            rw [hc.remoteSt]
            exact a.trans hc
          · refine absurd (.inl ?_) hr
            have := h.none ha
            rw [this] at hi
            exact ha r (List.mem_of_getElem? hi)
  exact h s (Quiet.refl s) ⟨rfl, Carried.refl s, fun _ => ⟨rfl, rfl⟩, fun _ => rfl⟩

end Sys2Proof.Machine
end

