-- ==== Sys2Proof/Laws/Heard.lean ====
section
/-! SUPPORT. What an answer to a message and the message's arrival leave (R346, R352). -/

namespace Sys2Proof.Machine

theorem replied_send {s w : State} {m : MsgHdr} {typ tc ctx : Nat} {body : List Nat} {data : List Byte} (hs : w.sent = s.sent) (hh : w.held = s.held)
    (hp : w.power.phase ≠ 0xF) : Replied s (send w ⟨m.src, typ, tc, m.job, m.seq, m.runs, ctx, 0, 0, body, data⟩) m typ tc body data := by
  obtain ⟨x, e, h⟩ := send_posted w ⟨m.src, typ, tc, m.job, m.seq, m.runs, ctx, 0, 0, body, data⟩ hp
  rw [hs, hh] at h
  have e' : x.dst = m.src ∧ x.typ = typ ∧ x.tc = tc ∧ x.job = m.job ∧ x.seq = m.seq ∧ x.runs = m.runs ∧ x.body = body ∧ x.data = data := by
    cases x; simp only [Msg.mk.injEq] at e; simp_all
  exact ⟨x, e', h⟩

theorem Heard.carried {s u : State} {m : MsgHdr} (h : Heard s u m) : Carried s u := by
  obtain ⟨w, v, rfl, t, -⟩ := h
  refine Carried.trans ?_ t.carried
  exact Carried.setDomain (Carried.refl s) rfl

theorem Heard.still {s u : State} {m : MsgHdr} (h : Heard s u m) (i : Still s) : Still u := by
  obtain ⟨w, v, rfl, -, e⟩ := h; rw [e i]; exact Still.of (x := s) rfl rfl rfl rfl i

theorem memSame_of {s u t : State} {m : MsgHdr} (h : Heard s u m) (q : Quiet u t) : MemSame s t := fun st => by
  obtain ⟨a, b, -⟩ := q (h.still st)
  obtain ⟨w, v, rfl, -, e⟩ := h
  rw [e st] at a b
  exact ⟨a, b⟩

end Sys2Proof.Machine
end

