-- ==== Sys2Proof/Laws/Objects.lean ====
section
/-! SUPPORT. What the operations on the objects of jobs do to them: flights, factor sets and the other tables of the state. -/

namespace Sys2Proof.Machine

theorem flightBlock_length (f : Flight) : f.block.length = 64 := by
  unfold Flight.block; simp only [List.length_append, leBytes_length]; rfl

/-- What setting a flight at a commit comes to. -/
theorem putFlight_says {s u t : State} {a : Nat} {f : Flight} {m : List Host.Cell} (hb : Beside s u)
    (hm : Still s → u.mem = m ∧ u.host = s.host ∧ Still u) (hq : Quiet (putFlight u a f) t)
    (hx : Beside { s with flights := (putFlight u a f).flights } t) : FlightIs s t m a f := by
  have e : (putFlight u a f).flights = tput u.flights a f := rfl
  have hf : t.flights = tput s.flights a f := by
    have := hx.flights
    rw [e, hb.flights] at this
    exact this
  refine ⟨?_, ?_, fun b hne => ?_, fun st => ?_⟩
  · rw [hf]
    rw [e, hb.flights] at hx
    exact hx
  · rw [hf, tfind_tput, if_pos rfl]
  · rw [hf, tfind_tput, if_neg (Ne.symm hne)]
  · obtain ⟨h1, h2, h3⟩ := hm st
    have hs : Still (putFlight u a f) := Still.of (x := u) rfl rfl rfl rfl h3
    obtain ⟨q1, q2, _⟩ := hq hs
    have em : (putFlight u a f).mem = memWrite u.mem a f.block := by unfold putFlight syncFlight wrLocal Flight.block; rfl
    have eh : (putFlight u a f).host = u.host := by unfold putFlight syncFlight wrLocal; rfl
    refine ⟨q2.trans (eh.trans h2), ?_, fun x hx => ?_⟩
    · rw [q1, em, ← flightBlock_length f]; exact memRead_memWrite _ _
    · rw [q1, em, memByte_memWrite_outside, h1]
      rw [flightBlock_length]; omega

theorem putFlight_beside {s u : State} (a : Nat) (f : Flight) (hb : Beside s u) :
    Beside { s with flights := (putFlight u a f).flights } (putFlight u a f) := by
  have h := hb.flights_set (tput u.flights a f)
  unfold putFlight syncFlight
  exact wrLocal_beside _ _ _ _ h

theorem farWalk_congr {c c' : Cmd} (h : c'.remote = c.remote) (p k a n : Nat) : farWalk c' p k a n = farWalk c p k a n := by
  induction k generalizing a n with
  | zero => rfl
  | succ k ih => unfold farWalk; rw [h]; simp only [ih]

/-- What a command reads depends on its place, its pins and what it took at its start. -/
theorem cBytes_congr {s u : State} {c c' : Cmd} (h1 : u.cfg = s.cfg) (h2 : u.objs = s.objs) (h3 : c'.place = c.place) (h4 : c'.pins = c.pins)
    (h5 : c'.remote = c.remote) (h6 : c'.snapMem = c.snapMem) (h7 : c'.snapHost = c.snapHost) (g : GAddr) (n : Nat) :
    cBytes u c' g n = cBytes s c g n := by
  unfold cBytes resolve localise objAt farBytes
  rw [h1, h2, h3, h4, h6, h7, h5]
  simp only [farWalk_congr h5]

theorem cBytes_run {s u : State} {c : Cmd} {r : Stg} (hb : Beside s u) (h : s.objs = []) (h' : u.objs = []) (g : GAddr) (n : Nat) :
    cBytes u (atCommit s (withRun c r)) g n = cBytes s c g n :=
  cBytes_congr (c := c) (c' := atCommit s (withRun c r)) hb.cfg (h'.trans h.symm) rfl rfl rfl rfl rfl g n

theorem pushEff_says {s u : State} {c : Cmd} {r : Stg} {a n : Nat} {o : Opnd} {f : Flight} (hb : Beside s u)
    (hp : c.flPush = some (a, n)) (ho : pushOpnd c = some o) (hf : tfind s.flights a = some f) :
    ∃ d, pushEff u (atCommit s (withRun c r)) = putFlight u a { f with
      entries := ⟨c.pkt.layer, c.pkt.operator, c.pkt.seq, o.sh.fmt, o.sh.rows, o.sh.cols, d, false⟩ :: f.entries,
      high := max f.high (flDepth { f with entries := ⟨c.pkt.layer, c.pkt.operator, c.pkt.seq, o.sh.fmt, o.sh.rows, o.sh.cols, d, false⟩ :: f.entries }) } ∧
      (s.objs = [] → u.objs = [] → d = planesOf o.addr.off o.sh (cBytes s c o.addr (tensorBytes o.addr.off o.sh))) := by
  refine ⟨planesOf o.addr.off o.sh (cBytes u (atCommit s (withRun c r)) o.addr (tensorBytes o.addr.off o.sh)), ?_, fun h h' => by rw [cBytes_run hb h h']⟩
  unfold pushEff
  have e1 : (atCommit s (withRun c r)).flPush = some (a, n) := hp
  have e2 : pushOpnd (atCommit s (withRun c r)) = some o := ho
  rw [e1, e2]
  dsimp only
  rw [hb.flights, hf]
  rfl

theorem unspill_data (es : List FlightEntry) (n : Nat) : (unspill n es).map (fun e => { e with spilled := false }) = es.map (fun e => { e with spilled := false }) := by
  induction es generalizing n with
  | nil => rfl
  | cons e es ih =>
    unfold unspill
    split
    · split
      · simp only [List.map_cons, ih]
      · rfl
    · simp only [List.map_cons, ih]

theorem sumNat_cons (x : Nat) (xs : List Nat) : sumNat (x :: xs) = x + sumNat xs := by
  unfold sumNat
  have : ∀ (xs : List Nat) a, xs.foldl (· + ·) a = a + xs.foldl (· + ·) 0 := by
    intro xs
    induction xs with
    | nil => intro a; rfl
    | cons y ys ih => intro a; simp only [List.foldl_cons]; rw [ih, ih (0 + y)]; omega
  simp only [List.foldl_cons]; rw [this]; omega

theorem unspill_basin (es : List FlightEntry) (n : Nat) :
    sumNat (((unspill n es).filter (fun e => !e.spilled)).map entryLen) ≤ sumNat ((es.filter (fun e => !e.spilled)).map entryLen) + n := by
  induction es generalizing n with
  | nil => simp [unspill]
  | cons e es ih =>
    unfold unspill
    by_cases h : e.spilled = true
    · rw [if_pos h]
      by_cases g : entryLen e ≤ n
      · rw [if_pos g]
        have := ih (n - entryLen e)
        have e2 : entryLen { e with spilled := false } = entryLen e := rfl
        simp only [List.filter_cons, h, Bool.not_true, Bool.not_false, if_true, List.map_cons, sumNat_cons, e2, Bool.false_eq_true, if_false]
        omega
      · rw [if_neg g]; omega
    · rw [if_neg h]
      have := ih n
      have hf : e.spilled = false := by simpa using h
      simp only [List.filter_cons, hf, Bool.not_false, if_true, List.map_cons, sumNat_cons]
      omega

theorem flBasin_tail (f : Flight) : flBasin { f with entries := f.entries.tail } ≤ flBasin f := by
  unfold flBasin
  cases h : f.entries with
  | nil => simp
  | cons e es =>
    simp only [List.tail_cons, List.filter_cons]
    split
    · simp only [List.map_cons, sumNat_cons]; omega
    · exact Nat.le_refl _

theorem putFset_mem (s : State) (a : Nat) (f : Fset) :
    (putFset s a f).host = s.host ∧ (Still s → Still (putFset s a f)) ∧
    ∀ x, (x < a ∨ (a + 2 ≤ x ∧ x < a + 84) ∨ a + 100 ≤ x) → memByte (putFset s a f).mem x = memByte s.mem x := by
  refine ⟨rfl, fun i => Still.of (x := s) rfl rfl rfl rfl i, fun x hx => ?_⟩
  have e : (putFset s a f).mem = memWrite (memWrite s.mem a (leBytes 2 f.job)) (a + 84) (leBytes 4 f.step ++ leBytes 4 f.skipped ++ leBytes 4 f.incompl ++ leBytes 4 f.ill) := rfl
  have l1 : (leBytes 2 f.job).length = 2 := leBytes_length _ _
  have l2 : (leBytes 4 f.step ++ leBytes 4 f.skipped ++ leBytes 4 f.incompl ++ leBytes 4 f.ill).length = 16 := by
    simp only [List.length_append, leBytes_length]
  rw [e, memByte_memWrite_outside _ _ _ (by rw [l2]; omega), memByte_memWrite_outside _ _ _ (by rw [l1]; omega)]

theorem putFset_beside {s u : State} (a : Nat) (f : Fset) (hb : Beside s u) :
    Beside { s with fsets := (putFset u a f).fsets } (putFset u a f) := by
  have h := hb.fsets_set (tput u.fsets a f)
  unfold putFset
  exact wrLocal_beside _ _ _ _ (wrLocal_beside _ _ _ _ h)

/-- Where the issue of refreshes stands. -/
structure Issued (s w : State) (a sess : Nat) (f f' : Fset) (new : List Cmd) (skips : Nat) : Prop where
  frame : Beside { s with fsets := w.fsets, cmds := s.cmds ++ new, nextId := s.nextId + new.length } w
  here : tfind w.fsets a = some f'
  others : ∀ b, b ≠ a → tfind w.fsets b = tfind s.fsets b
  fields : { f' with skipped := f.skipped } = f
  skipped : f.skipped < 2 ^ 32 → f'.skipped = (f.skipped + skips) % 2 ^ 32
  own : ∀ x ∈ new, (∃ b ∈ fsetBlocks f, x.origin = .refresh a b.isG b.idx) ∧ x.sess = sess ∧ x.pkt.job = f.job ∧ x.pkt.slot 0 = s.time + f.budget * 1000

theorem Issued.put {s w : State} {a sess : Nat} {f f' : Fset} {new : List Cmd} {skips : Nat} (h : Issued s w a sess f f' new skips) (g : Fset) (n : Nat)
    (hg : { g with skipped := f.skipped } = f) (hs : f.skipped < 2 ^ 32 → g.skipped = (f.skipped + n) % 2 ^ 32) :
    Issued s (putFset w a g) a sess f g new n := by
  have hf : (putFset w a g).fsets = tput w.fsets a g := rfl
  refine ⟨?_, ?_, fun b hb => ?_, hg, hs, h.own⟩
  · exact putFset_beside a g h.frame
  · rw [hf, tfind_tput, if_pos rfl]
  · rw [hf, tfind_tput, if_neg (Ne.symm hb)]; exact h.others b hb

theorem issue_one {s w : State} {a sess : Nat} {f f' : Fset} {new : List Cmd} {skips : Nat} (h : Issued s w a sess f f' new skips)
    (b : FBlock) (hb : b ∈ fsetBlocks f) (g : State → FBlock → State)
    (hg : ∀ s b, g s b = match tfind s.fsets a with
        | none => s
        | some f =>
          if s.cmds.any (fun c => decide (c.origin = .refresh a b.isG b.idx)) then putFset s a { f with skipped := (f.skipped + 1) % 2 ^ 32 }
          else
            let opc := if f.kind = 0 then 0x4010 + (if f.warm then 2 else 0) else 0x4020
            let c := ownCmd s (.refresh a b.isG b.idx) sess opc f.job f.layer 0xFFFF 0 [s.time + f.budget * 1000, 0, 0, 0, 0]
            { issueOwn s c with queueRe := s.queueRe ++ [s.nextId] }) :
    ∃ f'' new' k', Issued s (g w b) a sess f f'' new' k' ∧ new'.length + k' = new.length + skips + 1 ∧
      (g w b).host = w.host ∧ (Still w → Still (g w b)) ∧
      ∀ x, (x < a ∨ (a + 2 ≤ x ∧ x < a + 84) ∨ a + 100 ≤ x) → memByte (g w b).mem x = memByte w.mem x := by
  rw [hg, h.here]
  dsimp only
  by_cases hc : w.cmds.any (fun c => decide (c.origin = .refresh a b.isG b.idx)) = true
  · rw [if_pos hc]
    obtain ⟨p1, p2, p3⟩ := putFset_mem w a { f' with skipped := (f'.skipped + 1) % 2 ^ 32 }
    refine ⟨_, new, skips + 1, h.put _ (skips + 1) h.fields ?_, by omega, p1, p2, p3⟩
    intro hl
    have := h.skipped hl
    show (f'.skipped + 1) % 2 ^ 32 = _
    rw [this]; omega
  · rw [if_neg hc]
    have e1 : f'.job = f.job := by rw [← h.fields]
    have e2 : f'.budget = f.budget := by rw [← h.fields]
    have ht : w.time = s.time := h.frame.time
    have hn : w.nextId = s.nextId + new.length := h.frame.nextId
    generalize hop : (if f'.kind = 0 then 0x4010 + (if f'.warm then 2 else 0) else 0x4020) = opc
    refine ⟨f', new ++ [{ ownCmd w (.refresh a b.isG b.idx) sess opc f'.job f'.layer 0xFFFF 0 [w.time + f'.budget * 1000, 0, 0, 0, 0] with id := w.nextId }],
      skips, ⟨?_, h.here, h.others, h.fields, h.skipped, ?_⟩, by simp only [List.length_append, List.length_singleton]; omega, rfl, ?_, fun x _ => rfl⟩
    · generalize ownCmd w (.refresh a b.isG b.idx) sess opc f'.job f'.layer 0xFFFF 0 [w.time + f'.budget * 1000, 0, 0, 0, 0] = c
      obtain ⟨⟩ := h.frame
      constructor
      case nextId => show w.nextId + 1 = _; rw [hn]; simp only [List.length_append, List.length_singleton]; omega
      case ids =>
        show (w.cmds ++ [_]).map Cmd.id = (s.cmds ++ (new ++ [_])).map Cmd.id
        rw [← List.append_assoc, List.map_append, List.map_append (l₁ := s.cmds ++ new)]
        congr 1
      case same =>
        intro x hx
        show x.self ∈ (s.cmds ++ (new ++ [_])).map Cmd.self
        rw [← List.append_assoc, List.map_append, List.mem_append]
        rcases List.mem_append.mp hx with hx | hx
        · left; exact h.frame.same x hx
        · right; rw [List.mem_singleton.mp hx]; exact List.mem_singleton.mpr rfl
      all_goals assumption
    · intro x hx
      rcases List.mem_append.mp hx with hx | hx
      · exact h.own x hx
      · rw [List.mem_singleton.mp hx]
        refine ⟨⟨b, hb, rfl⟩, rfl, e1, ?_⟩
        show w.time + f'.budget * 1000 = _
        rw [ht, e2]
    · intro i; exact Still.of (x := w) rfl rfl rfl rfl i

theorem issue_all {s : State} {a sess : Nat} {f : Fset} (g : State → FBlock → State)
    (hg : ∀ s b, g s b = match tfind s.fsets a with
        | none => s
        | some f =>
          if s.cmds.any (fun c => decide (c.origin = .refresh a b.isG b.idx)) then putFset s a { f with skipped := (f.skipped + 1) % 2 ^ 32 }
          else
            let opc := if f.kind = 0 then 0x4010 + (if f.warm then 2 else 0) else 0x4020
            let c := ownCmd s (.refresh a b.isG b.idx) sess opc f.job f.layer 0xFFFF 0 [s.time + f.budget * 1000, 0, 0, 0, 0]
            { issueOwn s c with queueRe := s.queueRe ++ [s.nextId] })
    (bs : List FBlock) (hbs : ∀ b ∈ bs, b ∈ fsetBlocks f) (w : State) (f' : Fset) (new : List Cmd) (skips : Nat) (h : Issued s w a sess f f' new skips) :
    ∃ f'' new' k', Issued s (bs.foldl g w) a sess f f'' new' k' ∧ new'.length + k' = new.length + skips + bs.length ∧
      (bs.foldl g w).host = w.host ∧ (Still w → Still (bs.foldl g w)) ∧
      ∀ x, (x < a ∨ (a + 2 ≤ x ∧ x < a + 84) ∨ a + 100 ≤ x) → memByte (bs.foldl g w).mem x = memByte w.mem x := by
  induction bs generalizing w f' new skips with
  | nil => exact ⟨f', new, skips, h, rfl, rfl, id, fun _ _ => rfl⟩
  | cons b bs ih =>
    obtain ⟨f1, n1, k1, h1, l1, o1, s1, m1⟩ := issue_one h b (hbs b (List.mem_cons_self ..)) g hg
    obtain ⟨f2, n2, k2, h2, l2, o2, s2, m2⟩ := ih (fun x hx => hbs x (List.mem_cons_of_mem _ hx)) (g w b) f1 n1 k1 h1
    exact ⟨f2, n2, k2, h2, by rw [l2, l1, List.length_cons]; omega, o2.trans o1, s2 ∘ s1, fun x hx => (m2 x hx).trans (m1 x hx)⟩

theorem localise_congr {s w : State} (h : w.cfg = s.cfg) (g : GAddr) : localise w g = localise s g := by
  unfold localise; rw [h]

/-- What a due refresh comes to (R143, R145). -/
theorem issueRefreshes_says {s u : State} {a sess : Nat} {f : Fset} (hi : Issued s u a sess f f [] 0) :
    ∃ f' new skips, Issued s (issueRefreshes u a sess) a sess f f' new skips ∧
      ((∃ x ∈ s.cmds, x.pkt.clsOp = 0x301 ∧ fsetAddr s x.pkt = a) ∨ new.length + skips = (fsetBlocks f).length) ∧
      (issueRefreshes u a sess).host = u.host ∧ (Still u → Still (issueRefreshes u a sess)) ∧
      ∀ x, (x < a ∨ (a + 2 ≤ x ∧ x < a + 84) ∨ a + 100 ≤ x) → memByte (issueRefreshes u a sess).mem x = memByte u.mem x := by
  unfold issueRefreshes
  rw [hi.here]
  dsimp only
  by_cases hw : initWaits u a = true
  · rw [if_pos hw]
    refine ⟨f, [], 0, hi, .inl ?_, rfl, id, fun _ _ => rfl⟩
    obtain ⟨x, hx, hp⟩ := List.any_eq_true.mp hw
    have hs := hi.frame.same x hx
    simp only [List.append_nil] at hs
    obtain ⟨y, hy, e⟩ := List.mem_map.mp hs
    have ep : y.pkt = x.pkt := by
      have := congrArg (fun (z : Nat × Packet × Origin × Nat × List (Option Shape)) => z.2.1) e
      exact this
    refine ⟨y, hy, ?_⟩
    rw [ep]
    simp only [Bool.and_eq_true, beq_iff_eq] at hp
    have hc : u.cfg = s.cfg := hi.frame.cfg
    refine ⟨hp.1.1, hp.1.2.symm.trans ?_ |>.symm⟩
    unfold fsetAddr
    rw [localise_congr hc]
  · rw [if_neg hw]
    obtain ⟨f2, n2, k2, h2, l2, o2, s2, m2⟩ := issue_all (sess := sess) _ (fun _ _ => rfl) (fsetBlocks f) (fun _ h => h) u f [] 0 hi
    exact ⟨f2, n2, k2, h2, .inr (by simpa using l2), o2, s2, m2⟩

theorem zeroBlocks_says (k : Nat) (f : Fset) (bs : List FBlock) (u : State) :
    ∃ w, bs.foldl (fun s b =>
      zeroLocal (zeroLocal (zeroLocal (zeroLocal s k b.stor (4 * b.dim * b.dim)) k b.root (4 * b.dim * b.dim)) k (fsetHdr f b) 64) k (fsetRes f b) 32) u = w ∧
      (∀ s, Beside s u → Beside s w) ∧ w.host = u.host ∧ w.fsets = u.fsets ∧ (Still u → Still w) ∧
      ∀ x, ((∃ b ∈ bs, ofBlock f b x) → memByte w.mem x = 0) ∧ ((¬ ∃ b ∈ bs, ofBlock f b x) → memByte w.mem x = memByte u.mem x) := by
  induction bs generalizing u with
  | nil => exact ⟨u, rfl, fun _ h => h, rfl, rfl, id, fun x => ⟨fun h => absurd h (by simp), fun _ => rfl⟩⟩
  | cons b bs ih =>
    simp only [List.foldl_cons]
    have zb : ∀ (s u : State) (a n : Nat), Beside s u → Beside s (zeroLocal u k a n) := fun s u a n h => by unfold zeroLocal; exact Beside.set h
    obtain ⟨w, e, hb, hh, hf, hs, hm⟩ := ih (zeroLocal (zeroLocal (zeroLocal (zeroLocal u k b.stor (4 * b.dim * b.dim)) k b.root (4 * b.dim * b.dim)) k (fsetHdr f b) 64) k (fsetRes f b) 32)
    refine ⟨w, e, fun s h => hb s (zb _ _ _ _ (zb _ _ _ _ (zb _ _ _ _ (zb _ _ _ _ h)))), hh, hf, fun i => hs (Still.of (x := u) rfl rfl rfl rfl i), fun x => ?_⟩
    have e1 : memByte (zeroLocal (zeroLocal (zeroLocal (zeroLocal u k b.stor (4 * b.dim * b.dim)) k b.root (4 * b.dim * b.dim)) k (fsetHdr f b) 64) k (fsetRes f b) 32).mem x =
        if ofBlock f b x then 0 else memByte u.mem x := by
      show memByte (memZero (memZero (memZero (memZero u.mem _ _) _ _) _ _) _ _) x = _
      rw [memByte_memZero, memByte_memZero, memByte_memZero, memByte_memZero]
      unfold ofBlock
      by_cases h1 : fsetRes f b ≤ x ∧ x < fsetRes f b + 32
      · rw [if_pos h1, if_pos (.inr (.inr (.inr h1)))]
      rw [if_neg h1]
      by_cases h2 : fsetHdr f b ≤ x ∧ x < fsetHdr f b + 64
      · rw [if_pos h2, if_pos (.inr (.inr (.inl h2)))]
      rw [if_neg h2]
      by_cases h3 : b.root ≤ x ∧ x < b.root + 4 * b.dim * b.dim
      · rw [if_pos h3, if_pos (.inr (.inl h3))]
      rw [if_neg h3]
      by_cases h4 : b.stor ≤ x ∧ x < b.stor + 4 * b.dim * b.dim
      · rw [if_pos h4, if_pos (.inl h4)]
      rw [if_neg h4, if_neg]
      rintro (h | h | h | h)
      · exact h4 h
      · exact h3 h
      · exact h2 h
      · exact h1 h
    by_cases hx : ∃ b' ∈ bs, ofBlock f b' x
    · refine ⟨fun _ => (hm x).1 hx, fun h => absurd ?_ h⟩
      obtain ⟨b', hm', ho⟩ := hx
      exact ⟨b', List.mem_cons_of_mem _ hm', ho⟩
    · have h2 := (hm x).2 hx
      refine ⟨fun h => ?_, fun h => ?_⟩
      · obtain ⟨b', hm', ho⟩ := h
        rcases List.mem_cons.mp hm' with rfl | hm'
        · rw [h2, e1, if_pos ho]
        · exact absurd ⟨b', hm', ho⟩ hx
      · rw [h2, e1, if_neg fun ho => h ⟨b, List.mem_cons_self .., ho⟩]

/-- The refreshes issued at a commit, told of the state that follows it. -/
theorem refreshed_of {s v t : State} {a sess : Nat} {f f' : Fset} {new : List Cmd} {k : Nat} {due : Prop} (hi : Issued s v a sess f f' new k)
    (ht : t.fsets = v.fsets) (hn : ¬ due → new = [] ∧ k = 0) (hd : due → (∃ x ∈ s.cmds, x.pkt.clsOp = 0x301 ∧ fsetAddr s x.pkt = a) ∨ new.length + k = (fsetBlocks f).length) :
    tfind t.fsets a = some f' ∧ (∀ b, b ≠ a → tfind t.fsets b = tfind s.fsets b) ∧ Refreshed s a sess due f f' new k :=
  ⟨ht ▸ hi.here, fun b hb => ht ▸ hi.others b hb, hi.fields, hi.skipped, hn, hd, hi.own⟩

theorem issued_start {s u : State} {a sess : Nat} {f : Fset} (b : Beside s u) (hf : tfind s.fsets a = some f) : Issued s u a sess f f [] 0 := by
  refine ⟨?_, ?_, fun b' _ => by rw [b.fsets], rfl, fun hl => (Nat.mod_eq_of_lt hl).symm, fun _ hx => absurd hx (by simp)⟩
  · have := b.fsets_set u.fsets
    simpa using this
  · rw [b.fsets, hf]

theorem gLocal_tier (a : Nat) : (gLocal a).tier ≠ 4 := by
  unfold gLocal
  split
  · exact (by decide : (0 : Nat) ≠ 4)
  · split
    · exact (by decide : (1 : Nat) ≠ 4)
    · split
      · exact (by decide : (2 : Nat) ≠ 4)
      · exact (by decide : (3 : Nat) ≠ 4)

theorem fieldAt_head (n x : Nat) (bs : List Byte) (hx : x < 256) : fieldAt (leBytes (n + 1) x ++ bs) 0 1 = x := by
  unfold fieldAt leBytes
  simp only [List.drop_zero, List.cons_append, List.take_succ_cons, List.take_zero, leNat, BitVec.toNat_ofNat]
  omega

theorem rootResult_len (n : Nat) (r : RootRes) (age : Nat) : (rootResult n r age).length = 32 := by
  unfold rootResult
  simp only [List.length_append, leBytes_length, zeros, List.length_replicate, List.length_cons, List.length_nil]

theorem rootResult_status (n : Nat) (r : RootRes) (age : Nat) (h : r.status < 256) : fieldAt (rootResult n r age) 0 1 = r.status := by
  unfold rootResult
  simp only [List.append_assoc]
  exact fieldAt_head 0 _ _ h

theorem resolve_congr {s w : State} (h : w.cfg = s.cfg) (ho : w.objs = s.objs) (c : Cmd) (g : GAddr) (n : Nat) : resolve w c g n = resolve s c g n := by
  unfold resolve objAt localise; rw [h, ho]

/-- An operand of this module is served in this module. -/
theorem resolve_near {s : State} {g : GAddr} (h : (localise s g).tier ≠ 4) (c : Cmd) (n : Nat) : (resolve s c g n).tier ≠ 4 := by
  have hc : ∀ x : GAddr, x.tier ≠ 4 → (if x.tier = 2 ∧ x.off < 0x180000 then
      (match c.place with
      | some p => { x with off := coreSlot (p.die * 64 + p.unit) + x.off }
      | none => x) else x).tier ≠ 4 := by
    intro x hx
    split
    · split <;> exact hx
    · exact hx
  unfold resolve
  extract_lets g1 g2
  have h2 : g2.tier ≠ 4 := hc g1 h
  split
  · exact h2
  · split
    · exact gLocal_tier _
    · split
      · exact gLocal_tier _
      · exact h2

theorem localise_near {s : State} {g : GAddr} (h : g.tier ≠ 4) : localise s g = g := by unfold localise; rw [if_neg (fun e => h e.1)]

/-- What is staged is served where it is placed. -/
theorem placeWrites_in {s : State} {c : Cmd} {ws : List SWrite} {w : SWrite} (h : w ∈ ws) :
    { w with tgt := resolve s c w.tgt w.bytes.length } ∈ placeWrites s c ws := List.mem_map_of_mem h

theorem placeWrites_near {s : State} {c : Cmd} {ws : List SWrite} (h : ∀ w ∈ ws, (localise s w.tgt).tier ≠ 4) : ∀ w ∈ placeWrites s c ws, w.tgt.tier ≠ 4 := by
  intro w hw
  obtain ⟨x, hx, rfl⟩ := List.mem_map.mp hw
  exact resolve_near (h x hx) c _

/-- A list of outputs: the one of the problem, its header where it has one, its result entry. -/
theorem outs_near {s : State} {o h : GAddr} {z : Nat} {bs hd rs : List Byte} {at_ : Nat} (ho : (localise s o).tier ≠ 4) (hh : (localise s h).tier ≠ 4) :
    ∀ w ∈ ((⟨localise s o, bs⟩ : SWrite) :: (if z = 0 then [⟨gLocal at_, rs⟩] else [⟨localise s h, hd⟩, ⟨gLocal at_, rs⟩])), (localise s w.tgt).tier ≠ 4 := by
  intro w hw
  have g : ∀ x : GAddr, x.tier ≠ 4 → (localise s x).tier ≠ 4 := fun x hx => by rw [localise_near hx]; exact hx
  rcases List.mem_cons.mp hw with rfl | hw
  · exact g _ ho
  · split at hw
    · rw [List.mem_singleton.mp hw]; exact g _ (gLocal_tier _)
    · rcases List.mem_cons.mp hw with rfl | hw
      · exact g _ hh
      · rw [List.mem_singleton.mp hw]; exact g _ (gLocal_tier _)

theorem outs_result {z at_ : Nat} {o h : GAddr} {bs hd rs : List Byte} :
    (⟨gLocal at_, rs⟩ : SWrite) ∈ (⟨o, bs⟩ : SWrite) :: (if z = 0 then [⟨gLocal at_, rs⟩] else [⟨h, hd⟩, ⟨gLocal at_, rs⟩]) := by
  refine List.mem_cons_of_mem _ ?_
  split
  · exact List.mem_singleton.mpr rfl
  · exact List.mem_cons_of_mem _ (List.mem_singleton.mpr rfl)

/-- A write of a known length is placed where `resolve` takes that length. -/
theorem placeWrites_entry {s : State} {c : Cmd} {g : GAddr} {bs : List Byte} {n : Nat} {l : List SWrite} (hn : bs.length = n)
    (h : (⟨g, bs⟩ : SWrite) ∈ l) : (⟨resolve s c g n, bs⟩ : SWrite) ∈ placeWrites s c l := by
  subst hn; exact placeWrites_in h

/-- The result entry of a problem is among its outputs, and its output unless it is unfinished (R137). -/
theorem rootOut_says (s : State) (c : Cmd) (q : RootPar) (op : Nat) (p : RootProb) (step n : Nat) (r : RootRes) :
    (∃ age, (⟨resolve s c (gLocal p.resAt) 32, rootResult n r age⟩ : SWrite) ∈ (rootOut s c q op p step n r).1) ∧
    (r.status ≠ 0x11 → ∃ w ∈ (rootOut s c q op p step n r).1, w.tgt = resolve s c (localise s (gaddrOf p.output)) w.bytes.length) ∧
    ((localise s (gaddrOf p.output)).tier ≠ 4 → (localise s (gaddrOf p.hdr)).tier ≠ 4 → ∀ w ∈ (rootOut s c q op p step n r).1, w.tgt.tier ≠ 4) := by
  unfold rootOut
  extract_lets key og hg ho pub xs bs ver src now age res
  by_cases hp : pub = true
  · rw [if_pos hp]
    exact ⟨⟨age, placeWrites_entry (rootResult_len ..) outs_result⟩, fun _ => ⟨_, placeWrites_in (List.mem_cons_self ..), rfl⟩, fun h1 h2 => placeWrites_near (outs_near h1 h2)⟩
  · rw [if_neg hp]
    refine ⟨⟨age, placeWrites_entry (rootResult_len ..) (List.mem_singleton.mpr rfl)⟩, fun h => absurd (by simpa [pub] using h) hp, fun _ _ => placeWrites_near fun w hw => ?_⟩
    rw [List.mem_singleton.mp hw]
    show (localise s (gLocal p.resAt)).tier ≠ 4
    rw [localise_near (gLocal_tier _)]; exact gLocal_tier _

theorem runRoot_cut (s : State) (c : Cmd) (q : RootPar) (op : Nat) (p : RootProb) (re : Reach) (h : re ≠ .all) : (runRoot s c q op p re).status = 0x11 := by
  unfold runRoot
  split
  · rfl
  · rfl
  · cases re with
    | all => exact absurd rfl h
    | none => simp_all
    | cut k b =>
      dsimp only
      split <;> rfl

theorem rootRun_says (op : Nat) (reach : Nat → Reach) {s : State} {c : Cmd} {q : RootPar} {ps : List RootProb} (hj : rootJob s c = some (q, ps))
    (hh : RootHome s ps) : ∃ r, rootRun op reach s c = .done r ∧ Near r ∧ (r.status = stDone ∨ r.status = stIncomplete ∨ r.status = stIll) ∧
      (∀ p ∈ ps, EntryOf s c r stIncomplete p.resAt p.output) ∧
      ∀ k p, ps[k]? = some p → reach k ≠ .all → EntryAt s c r p.resAt stIncomplete ∧ r.status = stIncomplete := by
  unfold rootRun
  rw [hj]
  dsimp -zeta only
  extract_lets late rs outs st
  obtain ⟨stepOf, endOf, ho⟩ : ∃ F G : (RootProb × Nat) × RootRes → Nat, outs = rs.map (fun x => rootOut s c q op x.1.1 (F x) (G x) x.2) := by
    refine ⟨fun x => (c.probs.getD x.1.2 (probIn s c x.1.2)).step, fun x => endTime s c (endLimit s q.deadline) x.1.2 (x.2.status != 0x11), ?_⟩
    rfl
  clear_value outs
  have hmem : ∀ k p, ps[k]? = some p → (p, k) ∈ ps.zipIdx := fun k p h => List.mk_mem_zipIdx_iff_getElem?.mpr h
  generalize hres : (fun (p : RootProb × Nat) => runRoot s (probCmd s c p.2) q op p.1 (if late then .none else reach p.2)) = res
  have hrs : rs = ps.zipIdx.map (fun p => (p, res p)) := by rw [← hres]
  clear_value rs
  subst hrs
  have hr : ∀ k p, ps[k]? = some p → reach k ≠ .all → (res (p, k)).status = 0x11 := fun k p _ h => by
    rw [← hres]; exact runRoot_cut _ _ _ _ _ _ (by dsimp only; split <;> simp_all)
  clear hres
  have hin : ∀ k p, ps[k]? = some p → ∃ step n, ∀ w ∈ (rootOut s c q op p step n (res (p, k))).1, w ∈ (outs.map Prod.fst).flatten := by
    intro k p hk
    refine ⟨stepOf ((p, k), res (p, k)), endOf ((p, k), res (p, k)), fun w hw => List.mem_flatten.mpr ⟨_, ?_, hw⟩⟩
    rw [ho]
    exact List.mem_map_of_mem (f := Prod.fst) (List.mem_map_of_mem (List.mem_map_of_mem (hmem k p hk)))
  refine ⟨_, rfl, ⟨rfl, rfl, fun w hw => ?_⟩, ?_, fun p hp => ?_, fun k p hk hk' => ⟨?_, ?_⟩⟩
  · obtain ⟨l, hl', hw⟩ := List.mem_flatten.mp hw
    simp only [ho, List.map_map, List.mem_map, Function.comp] at hl'
    obtain ⟨x, hx, rfl⟩ := hl'
    have hp : x.1 ∈ ps := by
      have := List.mem_zipIdx' hx
      exact this.2 ▸ List.getElem_mem _
    exact (rootOut_says s c q op x.1 _ _ _).2.2 (hh _ hp).1 (hh _ hp).2 w hw
  · have : ∀ a b : Bool, (if a then stIncomplete else if b then stIll else stDone) = stDone ∨
        (if a then stIncomplete else if b then stIll else stDone) = stIncomplete ∨
        (if a then stIncomplete else if b then stIll else stDone) = stIll := by decide
    exact this _ _
  · obtain ⟨k, hk⟩ := List.mem_iff_getElem?.mp hp
    obtain ⟨step, n, hi⟩ := hin k p hk
    obtain ⟨⟨age, ha⟩, ho, -⟩ := rootOut_says s c q op p step n (res (p, k))
    by_cases h11 : (res (p, k)).status = 0x11
    · exact .inl ⟨_, hi _ ha, rfl, rootResult_len .., (rootResult_status _ _ _ (by rw [h11]; decide)).trans h11⟩
    · obtain ⟨w, hw, e⟩ := ho h11
      exact .inr ⟨_, ⟨_, hi _ ha, rfl, rootResult_len .., rfl⟩, w, hi _ hw, e⟩
  · obtain ⟨step, n, hi⟩ := hin k p hk
    obtain ⟨⟨age, ha⟩, -, -⟩ := rootOut_says s c q op p step n (res (p, k))
    have h11 := hr k p hk hk'
    exact ⟨_, hi _ ha, rfl, rootResult_len .., (rootResult_status _ _ _ (by rw [h11]; decide)).trans h11⟩
  · refine if_pos (List.any_eq_true.mpr ⟨_, List.mem_map_of_mem (hmem k p hk), ?_⟩)
    show ((res (p, k)).status == 0x11) = true
    rw [hr k p hk hk']; rfl

theorem rootEff_ring (u : State) (c : Cmd) (k : Nat) (h : c.origin = .ring k) : rootEff u c = u := by
  unfold rootEff; rw [h]

/-- A command with no effect of its own. -/
theorem plain_row {code cid : Nat} {compute : State → Cmd → Out} {eff : State → Cmd → State} {s : State} {c : Cmd} {r : Stg}
    (h : RingRuns s cid code c) (hd : compute s c = .done r) (hn : Near r) (he : ∀ u, eff u (atCommit s (withRun c r)) = u) :
    ∃ t, runOp code compute eff cid s = .next t ∧ Recorded s cid c r t ∧ Beside s t ∧ (Still s → t.mem = published s.mem r.writes ∧ t.host = s.host) := by
  obtain ⟨u, t, e, b, st, q, k⟩ := effect_row_kept (eff := eff) h hd hn
  rw [he] at q k
  obtain ⟨bt, rt⟩ := k s rfl b
  refine ⟨t, e, rt, bt, fun i => ?_⟩
  obtain ⟨m, o, i'⟩ := st i
  exact ⟨(q i').1.trans m, (q i').2.1.trans o⟩

theorem hold_row {code cid : Nat} {compute : State → Cmd → Out} {eff : State → Cmd → State} {s : State} {c : Cmd}
    (h : RingRuns s cid code c) (hd : compute s c = .hold c.aux) : ∃ t, runOp code compute eff cid s = .next t ∧ StillRuns s t cid c := by
  refine ⟨putCmd s c, ?_, rfl, ?_⟩
  · unfold runOp
    obtain ⟨h1, h2, h3⟩ := h.runs
    rw [h1]
    dsimp only
    rw [if_pos ⟨h2, h3⟩, hd]
  · have := findCmd_putCmd s c (by rw [(findCmd_mem h.runs.1).1]; exact (findCmd_mem h.runs.1).2)
    rwa [(findCmd_mem h.runs.1).1] at this

/-- Device time reaches a point, and a command of no effect of its own ends there. -/
theorem timed_row {code cid T : Nat} {compute : State → Cmd → Out} {eff : State → Cmd → State} {s : State} {c : Cmd} {r : Stg}
    (h : RingRuns s cid code c) (hd : compute (timeTo s T) c = .done r) (hn : Near r) (he : ∀ s u, eff u (atCommit s (withRun c r)) = u) :
    ∃ t, runOp code compute eff cid (timeTo s T) = .next t ∧ t.time = max s.time T ∧ Recorded { s with time := t.time } cid c r t ∧
      Beside { s with time := t.time } t ∧ (Still s → t.mem = published s.mem r.writes ∧ t.host = s.host) := by
  obtain ⟨u, hm, e⟩ := timeTo_meters s T
  rw [e] at hd ⊢
  have h' : RingRuns { u with time := max s.time T } cid code c := by
    obtain ⟨⟨h1, h2, h3⟩, h4⟩ := h
    refine ⟨⟨?_, h2, h3⟩, h4⟩
    show List.find? _ u.cmds = _
    rw [hm.cmds]; exact h1
  obtain ⟨t, et, rt, bt, st⟩ := plain_row (eff := eff) h' hd hn (he _)
  have tt : t.time = max s.time T := bt.time
  have b0 : Beside { s with time := t.time } { u with time := max s.time T } := by
    rw [tt]
    obtain ⟨⟩ := hm
    constructor
    case memRegs => intro d; show (getMemRegs u d).kept = (getMemRegs s d).kept; unfold getMemRegs; rw [‹u.memRegs = s.memRegs›]
    case serial => exact Nat.le_of_eq (show s.serial = u.serial from (‹u.serial = s.serial›).symm)
    case ids => show u.cmds.map _ = s.cmds.map _; simp only [*]
    case same => intro x hx; refine List.mem_map_of_mem ?_; show x ∈ s.cmds; simp only [← ‹u.cmds = s.cmds›]; exact hx
    all_goals first | rfl | assumption
  refine ⟨t, et, tt, ?_, b0.trans bt, fun i => ?_⟩
  · obtain ⟨z, z1, z2, z3, z4, z5, z6, z7, z8, z9⟩ := rt
    exact ⟨z, z1, z2, z3, z4, z5, z6, z7.trans tt.symm, z8, z9⟩
  · obtain ⟨a, b⟩ := st (Still.of (x := u) rfl rfl rfl rfl (Still.of (x := s) hm.traces hm.twatch hm.objs hm.census i))
    exact ⟨a.trans (by rw [← hm.mem]), b.trans hm.host⟩

theorem rootJob_congr {s w : State} (h : w.cfg = s.cfg) (ho : w.objs = s.objs) (hf : w.fsets = s.fsets) (c : Cmd) : rootJob w c = rootJob s c := by
  unfold rootJob
  rw [hf]
  simp only [cBytes_congr (s := s) (u := w) (c := c) (c' := c) h ho rfl rfl rfl rfl rfl, localise_congr h]

theorem solveJob_congr {s w : State} (h : w.cfg = s.cfg) (ho : w.objs = s.objs) (c : Cmd) : solveJob w c = solveJob s c := by
  unfold solveJob
  simp only [cBytes_congr (s := s) (u := w) (c := c) (c' := c) h ho rfl rfl rfl rfl rfl, localise_congr h]

theorem solveResult_len (n : Nat) (r : SolveRes) : (solveResult n r).length = 32 := by
  unfold solveResult
  simp only [List.length_append, leBytes_length, List.length_cons, List.length_nil]

theorem solveResult_status (n : Nat) (r : SolveRes) (h : r.status < 256) : fieldAt (solveResult n r) 0 1 = r.status := by
  unfold solveResult
  simp only [List.append_assoc]
  exact fieldAt_head 0 _ _ h

/-- The result entry of a problem is among its outputs, and its output unless nothing was found (R160). -/
theorem solveOut_says (s : State) (c : Cmd) (q : SolvePar) (op : Nat) (p : SolveProb) (n : Nat) (r : SolveRes) :
    (⟨resolve s c (gLocal p.resAt) 32, solveResult n r⟩ : SWrite) ∈ (solveOut s c q op p n r).1 ∧
    (r.x ≠ none → ∃ w ∈ (solveOut s c q op p n r).1, w.tgt = resolve s c (localise s (gaddrOf p.x)) w.bytes.length) ∧
    ((localise s (gaddrOf p.x)).tier ≠ 4 → (localise s (gaddrOf p.hdr)).tier ≠ 4 → ∀ w ∈ (solveOut s c q op p n r).1, w.tgt.tier ≠ 4) := by
  unfold solveOut
  extract_lets key res
  cases hx : r.x with
  | none =>
    refine ⟨placeWrites_entry (solveResult_len ..) (List.mem_singleton.mpr rfl), fun h => absurd rfl h, fun _ _ => placeWrites_near fun w hw => ?_⟩
    rw [List.mem_singleton.mp hw]
    show (localise s (gLocal p.resAt)).tier ≠ 4
    rw [localise_near (gLocal_tier _)]; exact gLocal_tier _
  | some xs =>
    exact ⟨placeWrites_entry (solveResult_len ..) outs_result, fun _ => ⟨_, placeWrites_in (List.mem_cons_self ..), rfl⟩, fun h1 h2 => placeWrites_near (outs_near h1 h2)⟩

theorem runSolve_x (s : State) (c : Cmd) (q : SolvePar) (op : Nat) (p : SolveProb) (re : Reach) :
    (runSolve s c q op p re).x = none → (runSolve s c q op p re).status = 0x10 := by
  unfold runSolve
  split
  · intro _; rfl
  · extract_lets early f l inB ctx loaded
    split
    · intro _; rfl
    · split
      · split
        · intro _; rfl
        · intro h; cases h
      · split
        · intro _; rfl
        · split
          · intro h; cases h
          · split
            · intro h; cases h
            · split <;> (dsimp only; split <;> exact fun h => absurd (h : some _ = none) (Option.some_ne_none _))

theorem solveRun_says (op : Nat) (reach : Nat → Reach) {s : State} {c : Cmd} {q : SolvePar} {ps : List SolveProb} (hj : solveJob s c = (q, ps))
    (hh : SolveHome s ps) : ∃ r, solveRun op reach s c = .done r ∧ Near r ∧ (r.status = stDone ∨ r.status = stDeadline ∨ r.status = stIll) ∧
      (∀ p ∈ ps, EntryOf s c r stDeadline p.resAt p.x) ∧
      ∀ k p, ps[k]? = some p → reach k = .none → EntryAt s c r p.resAt stDeadline ∧ r.status = stDeadline := by
  unfold solveRun
  extract_lets j late rs outs st
  have ej : j = (q, ps) := hj
  obtain ⟨endOf, ho⟩ : ∃ G : (SolveProb × Nat) × SolveRes → Nat, outs = rs.map (fun x => solveOut s (probCmd s c x.1.2) j.1 op x.1.1 (G x) x.2) := by
    refine ⟨fun x => endTime s c (endLimit s j.1.deadline) x.1.2 (x.2.status != 0x10), ?_⟩
    rfl
  clear_value outs
  rw [ej] at ho
  have hmem : ∀ k p, ps[k]? = some p → (p, k) ∈ ps.zipIdx := fun k p h => List.mk_mem_zipIdx_iff_getElem?.mpr h
  generalize hres : (fun (p : SolveProb × Nat) => runSolve s (probCmd s c p.2) q op p.1 (if late then .none else reach p.2)) = res
  have hrs : rs = ps.zipIdx.map (fun p => (p, res p)) := by rw [← hres]; simp only [rs, ej]
  clear_value rs
  subst hrs
  have hr : ∀ k p, ps[k]? = some p → reach k = .none → (res (p, k)).status = 0x10 := fun k p _ h => by
    rw [← hres]
    have : (if late then Reach.none else reach k) = .none := by rw [h]; split <;> rfl
    dsimp only
    rw [this]; rfl
  have hx : ∀ k p, (res (p, k)).x = none → (res (p, k)).status = 0x10 := fun k p => by rw [← hres]; exact runSolve_x _ _ _ _ _ _
  clear hres
  have hin : ∀ k p, ps[k]? = some p → ∃ n, ∀ w ∈ (solveOut s (probCmd s c k) q op p n (res (p, k))).1, w ∈ (outs.map Prod.fst).flatten := by
    intro k p hk
    refine ⟨endOf ((p, k), res (p, k)), fun w hw => List.mem_flatten.mpr ⟨_, ?_, hw⟩⟩
    rw [ho]
    exact List.mem_map_of_mem (f := Prod.fst) (List.mem_map_of_mem (List.mem_map_of_mem (hmem k p hk)))
  refine ⟨_, rfl, ⟨rfl, rfl, fun w hw => ?_⟩, ?_, fun p hp => ?_, fun k p hk hk' => ⟨?_, ?_⟩⟩
  · obtain ⟨l, hl', hw⟩ := List.mem_flatten.mp hw
    simp only [ho, List.map_map, List.mem_map, Function.comp] at hl'
    obtain ⟨x, hx, rfl⟩ := hl'
    have hp : x.1 ∈ ps := by
      have := List.mem_zipIdx' hx
      exact this.2 ▸ List.getElem_mem _
    exact (solveOut_says s (probCmd s c x.2) q op x.1 _ _).2.2 (hh _ hp).1 (hh _ hp).2 w hw
  · have : ∀ a b : Bool, (if a then stDeadline else if b then stIll else stDone) = stDone ∨
        (if a then stDeadline else if b then stIll else stDone) = stDeadline ∨
        (if a then stDeadline else if b then stIll else stDone) = stIll := by decide
    exact this _ _
  · obtain ⟨k, hk⟩ := List.mem_iff_getElem?.mp hp
    obtain ⟨n, hi⟩ := hin k p hk
    obtain ⟨ha, ho, -⟩ := solveOut_says s (probCmd s c k) q op p n (res (p, k))
    by_cases h : (res (p, k)).x = none
    · have h10 := hx k p h
      exact .inl ⟨_, hi _ ha, rfl, solveResult_len .., (solveResult_status _ _ (by rw [h10]; decide)).trans h10⟩
    · obtain ⟨w, hw, e⟩ := ho h
      exact .inr ⟨_, ⟨_, hi _ ha, rfl, solveResult_len .., rfl⟩, w, hi _ hw, e⟩
  · obtain ⟨n, hi⟩ := hin k p hk
    obtain ⟨ha, -, -⟩ := solveOut_says s (probCmd s c k) q op p n (res (p, k))
    have h10 := hr k p hk hk'
    exact ⟨_, hi _ ha, rfl, solveResult_len .., (solveResult_status _ _ (by rw [h10]; decide)).trans h10⟩
  · refine if_pos (List.any_eq_true.mpr ⟨_, List.mem_map_of_mem (hmem k p hk), ?_⟩)
    show ((res (p, k)).status == 0x10) = true
    rw [hr k p hk hk']; rfl

theorem putShard_mem (s : State) (a : Nat) (h : Shard) :
    (putShard s a h).host = s.host ∧ (Still s → Still (putShard s a h)) ∧ ∀ x, ¬ ofShardBlock a x → memByte (putShard s a h).mem x = memByte s.mem x := by
  refine ⟨rfl, fun i => Still.of (x := s) rfl rfl rfl rfl i, fun x hx => ?_⟩
  have e : (putShard s a h).mem = memWrite (memWrite s.mem a (leBytes 2 h.job)) (a + 80) (leBytes 4 h.version ++ leBytes 4 h.gradCount ++ leBytes 4 h.ver0 ++ leBytes 4 h.ver1 ++ leBytes 8 h.digest0 ++
     leBytes 8 h.digest1 ++ leBytes 4 h.skips ++ leBytes 4 h.fallbacks) := rfl
  have l1 : (leBytes 2 h.job).length = 2 := leBytes_length _ _
  have l2 : (leBytes 4 h.version ++ leBytes 4 h.gradCount ++ leBytes 4 h.ver0 ++ leBytes 4 h.ver1 ++ leBytes 8 h.digest0 ++
     leBytes 8 h.digest1 ++ leBytes 4 h.skips ++ leBytes 4 h.fallbacks).length = 40 := by
    simp only [List.length_append, leBytes_length]
  rw [e, memByte_memWrite_outside _ _ _ (by rw [l2]; omega), memByte_memWrite_outside _ _ _ (by rw [l1]; omega)]

theorem putShard_is {s u : State} (a : Nat) (h : Shard) (hb : Beside { s with shards := u.shards } u)
    (ho : ∀ b, b ≠ a → tfind u.shards b = tfind s.shards b) : ShardIs s (putShard u a h) a h := by
  have hf : (putShard u a h).shards = tput u.shards a h := rfl
  refine ⟨?_, ?_, fun b hne => ?_⟩
  · have h1 : Beside { s with shards := tput u.shards a h } { u with shards := tput u.shards a h } := by
      obtain ⟨⟩ := hb
      constructor <;> first | rfl | assumption
    rw [hf]
    unfold putShard
    exact wrLocal_beside _ _ _ _ (wrLocal_beside _ _ _ _ h1)
  · rw [hf, tfind_tput, if_pos rfl]
  · rw [hf, tfind_tput, if_neg (Ne.symm hne)]; exact ho b hne

theorem dryWatch_is {s w : State} {a : Nat} {h : Shard} (hw : ShardIs s w a h) (c : Cmd) (z n : Nat) :
    ∃ k, ShardIs s (dryWatch w c a z n) a { h with streak := k } ∧ Quiet w (dryWatch w c a z n) := by
  unfold dryWatch
  rw [hw.here]
  dsimp only
  have hs : ∀ k, ShardIs s { w with shards := tput w.shards a { h with streak := k } } a { h with streak := k } := by
    intro k
    refine ⟨?_, ?_, fun b hb => ?_⟩
    · obtain ⟨⟩ := hw.frame
      constructor <;> first | rfl | assumption
    · show tfind (tput _ _ _) _ = _
      rw [tfind_tput, if_pos rfl]
    · show tfind (tput _ _ _) _ = _
      rw [tfind_tput, if_neg (Ne.symm hb)]; exact hw.others b hb
  have hq : ∀ k, Quiet w { w with shards := tput w.shards a { h with streak := k } } := fun k => Quiet.set (Quiet.refl w)
  split
  · exact ⟨h.streak, hw, Quiet.refl w⟩
  · split
    · refine ⟨h.streak + 1, ?_, ?_⟩
      · split
        · have hx := hs (h.streak + 1)
          have hb := raiseFor_beside _ (dieOfAddr a) 0x05 false none h.job h.layer c.pkt.seq (h.lblock + w.cfg.peerId * 2 ^ 16) (h.streak + 1) (z * 10000 / n) hx.frame
          have e := hb.shards
          refine ⟨?_, ?_, fun b hne => ?_⟩
          · rw [e]; exact hb
          · rw [e]; exact hx.here
          · rw [e]; exact hx.others b hne
        · exact hs _
      · split
        · exact raiseFor_quiet _ _ _ _ _ _ _ _ _ _ _ (hq _)
        · exact hq _
    · exact ⟨0, hs 0, hq 0⟩

theorem zeroLocal_beside {s u : State} (k a n : Nat) (h : Beside s u) : Beside s (zeroLocal u k a n) := by unfold zeroLocal; exact Beside.set h

theorem ShardIs.keys {s w : State} {a : Nat} {h : Shard} (hw : ShardIs s w a h) (l : List (Nat × Nat)) :
    ShardIs s (l.foldl (fun s r => { s with keys := setUndef s.keys r.1 r.2 }) w) a h ∧ Quiet w (l.foldl (fun s r => { s with keys := setUndef s.keys r.1 r.2 }) w) := by
  have e : (l.foldl (fun s r => { s with keys := setUndef s.keys r.1 r.2 }) w).shards = w.shards := by
    induction l generalizing w with
    | nil => rfl
    | cons x l ih => exact ih (w := { w with keys := setUndef w.keys x.1 x.2 }) ⟨by obtain ⟨⟩ := hw.frame; constructor <;> first | rfl | assumption, hw.here, hw.others⟩
  refine ⟨⟨?_, by rw [e]; exact hw.here, fun b hb => by rw [e]; exact hw.others b hb⟩, Quiet.foldl _ (Quiet.refl w) fun t x ht => Quiet.set ht⟩
  rw [e]
  exact Beside.foldl _ hw.frame fun t x ht => Beside.set ht

theorem raiseCmd_beside {s u : State} {c : Cmd} (a b d e : Nat) (h : Beside s u) : Beside s (raiseCmd u c a b d e) := by
  unfold raiseCmd
  exact raiseOp_beside _ _ _ _ _ _ _ _ _ _ _ _ _ h

/-- What clearing a region of a command does (R183): its bytes read zero where the command finds it. -/
theorem zeroRegion_beside {s u : State} (c : Cmd) (x n : Nat) (h : Beside s u) : Beside s (zeroRegion u c x n) := by
  unfold zeroRegion
  exact markDirty_beside _ _ (zeroLocal_beside _ _ _ h)

theorem zeroRegion_still {s u : State} (c : Cmd) (x n : Nat) (hb : Beside s u) (is : Still s) (iu : Still u) :
    (zeroRegion u c x n).host = u.host ∧ Still (zeroRegion u c x n) ∧
      (zeroRegion u c x n).mem = memZero u.mem (resolve s c (gaddrOf x) n).off n := by
  unfold zeroRegion
  rw [resolve_congr hb.cfg (iu.objs.trans is.objs.symm)]
  extract_lets g
  have iz : Still (zeroLocal u (jobKey u c.sess c.pkt.job) g.off n) := Still.of (x := u) rfl rfl rfl rfl iu
  obtain ⟨q1, q2, q3⟩ := markDirty_quiet _ [⟨g, zeros n⟩] (Quiet.refl _) iz
  exact ⟨q2, q3, q1⟩

/-- What the commit of an update does. -/
theorem updEff_says {s u : State} {c : Cmd} {a : Nat} {h : Shard} (hb : Beside s u) (ha : shardAddr s c.pkt = a) (hs : tfind s.shards a = some h) :
    ∃ k, ShardIs s (updEff u c) a { (if c.aux.getD 0 0 = 1 then { h with skips := (h.skips + 1) % 2 ^ 32 }
        else { h with version := (h.version + 1) % 2 ^ 32, fallbacks := (h.fallbacks + c.aux.getD 5 0) % 2 ^ 32,
                      ver0 := if c.aux.getD 3 0 = 0 then (h.version + 1) % 2 ^ 32 else h.ver0, digest0 := if c.aux.getD 3 0 = 0 then c.aux.getD 4 0 else h.digest0,
                      ver1 := if c.aux.getD 3 0 = 0 then h.ver1 else (h.version + 1) % 2 ^ 32, digest1 := if c.aux.getD 3 0 = 0 then h.digest1 else c.aux.getD 4 0 }) with
        gradCount := if c.aux.getD 7 0 == 1 then 0 else h.gradCount, streak := k } ∧
      (Still s → Still u → (updEff u c).host = u.host ∧ Still (updEff u c) ∧ ∀ x, ¬ ofShardBlock a x →
        (c.aux.getD 7 0 = 1 ∧ ofGacc s c h x → memByte (updEff u c).mem x = 0) ∧
        (¬ (c.aux.getD 7 0 = 1 ∧ ofGacc s c h x) → memByte (updEff u c).mem x = memByte u.mem x)) := by
  have ea : shardAddr u c.pkt = a := by rw [← ha]; unfold shardAddr localise; rw [hb.cfg]
  have hu : tfind u.shards a = some h := by rw [hb.shards, hs]
  obtain ⟨v, hv⟩ : ∃ v, v = if (c.aux.getD 7 0 == 1) = true then zeroRegion u c h.gacc (4 * h.rows * h.cols) else u := ⟨_, rfl⟩
  have bv : Beside s v := by rw [hv]; exact Beside.ite (zeroRegion_beside _ _ _ hb) hb
  have bv' : Beside { s with shards := v.shards } v := by have := bv.shards_set v.shards; exact this
  have ov : ∀ b, b ≠ a → tfind v.shards b = tfind s.shards b := fun b _ => by rw [bv.shards]
  have mv : Still s → Still u → v.host = u.host ∧ Still v ∧ ∀ x, (c.aux.getD 7 0 = 1 ∧ ofGacc s c h x → memByte v.mem x = 0) ∧
      (¬ (c.aux.getD 7 0 = 1 ∧ ofGacc s c h x) → memByte v.mem x = memByte u.mem x) := by
    intro is iu
    rw [hv]
    by_cases h7 : (c.aux.getD 7 0 == 1) = true
    · rw [if_pos h7]
      have h7' : c.aux.getD 7 0 = 1 := by simpa using h7
      obtain ⟨z1, z2, z3⟩ := zeroRegion_still c h.gacc (4 * h.rows * h.cols) hb is iu
      refine ⟨z1, z2, fun x => ?_⟩
      rw [z3, memByte_memZero]
      unfold ofGacc
      exact ⟨fun h => if_pos h.2, fun hn => if_neg fun hg => hn ⟨h7', hg⟩⟩
    · rw [if_neg h7]
      have h7' : c.aux.getD 7 0 ≠ 1 := by simpa using h7
      exact ⟨rfl, iu, fun x => ⟨fun h => absurd h.1 h7', fun _ => rfl⟩⟩
  have fin : ∀ (w : State) (g : Shard), ShardIs s w a g → (Still v → w.host = v.host ∧ Still w ∧ ∀ x, ¬ ofShardBlock a x → memByte w.mem x = memByte v.mem x) →
      ∀ z n, ∃ k, ShardIs s (dryWatch w c a z n) a { g with streak := k } ∧
      (Still s → Still u → (dryWatch w c a z n).host = u.host ∧ Still (dryWatch w c a z n) ∧ ∀ x, ¬ ofShardBlock a x →
        (c.aux.getD 7 0 = 1 ∧ ofGacc s c h x → memByte (dryWatch w c a z n).mem x = 0) ∧
        (¬ (c.aux.getD 7 0 = 1 ∧ ofGacc s c h x) → memByte (dryWatch w c a z n).mem x = memByte u.mem x)) := by
    intro w g hw h0 z n
    obtain ⟨k, hk, hq⟩ := dryWatch_is hw c z n
    refine ⟨k, hk, fun is iu => ?_⟩
    obtain ⟨m1, m2, m3⟩ := mv is iu
    obtain ⟨h1, h2, h3⟩ := h0 m2
    obtain ⟨q1, q2, q3⟩ := hq h2
    refine ⟨q2.trans (h1.trans m1), q3, fun x hx => ?_⟩
    rw [q1, h3 x hx]
    exact m3 x
  by_cases h0 : c.aux.getD 0 0 = 1
  · obtain ⟨p1, p2, p3⟩ := putShard_mem v a { h with skips := (h.skips + 1) % 2 ^ 32, gradCount := if c.aux.getD 7 0 == 1 then 0 else h.gradCount }
    have hp := putShard_is a { h with skips := (h.skips + 1) % 2 ^ 32, gradCount := if c.aux.getD 7 0 == 1 then 0 else h.gradCount } bv' ov
    generalize hP : putShard v a { h with skips := (h.skips + 1) % 2 ^ 32, gradCount := if c.aux.getD 7 0 == 1 then 0 else h.gradCount } = P at *
    have hR : ShardIs s (raiseCmd P c 0x09 (h.lblock + c.aux.getD 6 0 * 2 ^ 16) h.version 0) a { h with skips := (h.skips + 1) % 2 ^ 32, gradCount := if c.aux.getD 7 0 == 1 then 0 else h.gradCount } ∧
        Quiet P (raiseCmd P c 0x09 (h.lblock + c.aux.getD 6 0 * 2 ^ 16) h.version 0) := by
      have hb := raiseCmd_beside (c := c) 0x09 (h.lblock + c.aux.getD 6 0 * 2 ^ 16) h.version 0 hp.frame
      refine ⟨⟨?_, ?_, fun b hne => ?_⟩, raiseCmd_quiet _ _ _ _ _ _ (Quiet.refl P)⟩
      · rw [hb.shards]; exact hb
      · rw [hb.shards]; exact hp.here
      · rw [hb.shards]; exact hp.others b hne
    have e : updEff u c = dryWatch (raiseCmd P c 0x09 (h.lblock + c.aux.getD 6 0 * 2 ^ 16) h.version 0) c a (c.aux.getD 1 0) (c.aux.getD 2 0) := by
      unfold updEff
      rw [ea]
      dsimp only
      rw [hu]
      dsimp only
      rw [if_pos h0, ← hP, hv]
      by_cases h7 : (c.aux.getD 7 0 == 1) = true
      · simp only [if_pos h7]
      · simp only [if_neg h7]
    obtain ⟨k, k1, k2⟩ := fin _ _ hR.1 (fun i => by
      obtain ⟨q1, q2, q3⟩ := hR.2 (p2 i)
      exact ⟨q2.trans p1, q3, fun x hx => by rw [q1]; exact p3 x hx⟩) (c.aux.getD 1 0) (c.aux.getD 2 0)
    rw [← e] at k1 k2
    exact ⟨k, by rw [if_pos h0]; exact k1, k2⟩
  · obtain ⟨g, hg⟩ : ∃ g : Shard, g = { h with
                      version := (h.version + 1) % 2 ^ 32, fallbacks := (h.fallbacks + c.aux.getD 5 0) % 2 ^ 32,
                      ver0 := if c.aux.getD 3 0 = 0 then (h.version + 1) % 2 ^ 32 else h.ver0, digest0 := if c.aux.getD 3 0 = 0 then c.aux.getD 4 0 else h.digest0,
                      ver1 := if c.aux.getD 3 0 = 0 then h.ver1 else (h.version + 1) % 2 ^ 32, digest1 := if c.aux.getD 3 0 = 0 then h.digest1 else c.aux.getD 4 0,
                      gradCount := if c.aux.getD 7 0 == 1 then 0 else h.gradCount } := ⟨_, rfl⟩
    obtain ⟨p1, p2, p3⟩ := putShard_mem v a g
    have hp := putShard_is a g bv' ov
    generalize hP : putShard v a g = P at *
    obtain ⟨hk, hq⟩ := hp.keys (workRange P c)
    have e : updEff u c = dryWatch ((workRange P c).foldl (fun s r => { s with keys := setUndef s.keys r.1 r.2 }) P) c a (c.aux.getD 1 0) (c.aux.getD 2 0) := by
      unfold updEff hideWork
      rw [ea]
      dsimp only
      rw [hu]
      dsimp only
      rw [if_neg h0, ← hP, hv, hg]
      by_cases h7 : (c.aux.getD 7 0 == 1) = true
      · simp only [if_pos h7]
        by_cases h3 : c.aux.getD 3 0 = 0
        · simp only [if_pos h3]
        · simp only [if_neg h3]
      · simp only [if_neg h7]
        by_cases h3 : c.aux.getD 3 0 = 0
        · simp only [if_pos h3]
        · simp only [if_neg h3]
    obtain ⟨k, k1, k2⟩ := fin _ _ hk (fun i => by
      obtain ⟨q1, q2, q3⟩ := hq (p2 i)
      exact ⟨q2.trans p1, q3, fun x hx => by rw [q1]; exact p3 x hx⟩) (c.aux.getD 1 0) (c.aux.getD 2 0)
    rw [← e] at k1 k2
    refine ⟨k, ?_, k2⟩
    rw [if_neg h0]
    rw [hg] at k1
    exact k1

theorem updFinish_form (s : State) (c : Cmd) (h : Shard) (q : UpdPar) (kind n eta : Nat) (fs : Option Fset) (acc : List (List Num)) (fb : Nat) :
    ∃ r, updRun.updFinish s c h q kind n eta fs acc fb = .done r ∧ r.status = stDone ∧ r.aux.getD 0 0 = 2 ∧ r.aux.getD 3 0 = nextSlot h ∧ r.aux.getD 7 0 = b2n q.clear :=
  ⟨_, rfl, rfl, rfl, rfl, rfl⟩

theorem upd_run {s : State} {c : Cmd} {h : Shard} {q : UpdPar} {n : Nat} (op : Nat) (hu : updShard s c = some (h, q))
    (hn : n = if 0 < q.divisor then q.divisor else c.aux.getD 1 0) (h0 : n ≠ 0) (hg : (v32 q.gnorm).isFin = true) :
    (∃ st d ev, updRun op s c = .stop st d ev ∧ op = 3 ∧ c.fall = false ∧ ∃ f b, updFset s c h = some f ∧ badRoot s c f = some b) ∨
    ∃ kind fs acc fb, updRun op s c = updRun.updFinish s c h q kind n (c.aux.getD 0 0) fs acc fb := by
  unfold updRun
  rw [hu]
  dsimp only
  rw [← hn, if_neg (by rw [if_neg h0, hg]; decide)]
  cases hf : updFset s c h with
  | none => right; by_cases h3 : op = 3 <;> [rw [if_pos h3]; rw [if_neg h3]] <;> exact ⟨_, _, _, _, rfl⟩
  | some f =>
    by_cases h3 : op = 3
    · rw [if_pos h3, Option.bind_some]
      cases hb : badRoot s c f with
      | none => right; exact ⟨_, _, _, _, rfl⟩
      | some b =>
        cases hc : c.fall with
        | true => right; exact ⟨_, _, _, _, rfl⟩
        | false => left; exact ⟨_, _, _, rfl, h3, rfl, f, b, rfl, hb⟩
    · rw [if_neg h3]
      right
      exact ⟨_, _, _, _, rfl⟩

theorem upd_form {s : State} {c : Cmd} {h : Shard} {q : UpdPar} {n : Nat} (op : Nat) (hu : updShard s c = some (h, q))
    (hn : n = if 0 < q.divisor then q.divisor else c.aux.getD 1 0) (h0 : n ≠ 0) (hg : (v32 q.gnorm).isFin = true) {r : Stg} (hd : updRun op s c = .done r) :
    r.status = stDone ∧ r.aux.getD 0 0 = 2 ∧ r.aux.getD 3 0 = nextSlot h ∧ r.aux.getD 7 0 = b2n q.clear := by
  rcases upd_run op hu hn h0 hg with ⟨st, d, ev, e, _⟩ | ⟨kind, fs, acc, fb, e⟩
  · rw [e] at hd; cases hd
  · obtain ⟨r', er, f⟩ := updFinish_form s c h q kind n (c.aux.getD 0 0) fs acc fb
    rw [e, er] at hd
    cases hd
    exact f

theorem upd_done {s : State} {c : Cmd} {h : Shard} {q : UpdPar} {n : Nat} (op : Nat) (hu : updShard s c = some (h, q))
    (hn : n = if 0 < q.divisor then q.divisor else c.aux.getD 1 0) (h0 : n ≠ 0) (hg : (v32 q.gnorm).isFin = true)
    (hop : op ≠ 3 ∨ updFset s c h = none ∨ (∀ f, updFset s c h = some f → badRoot s c f = none) ∨ c.fall = true) :
    ∃ r, updRun op s c = .done r ∧ True := by
  rcases upd_run op hu hn h0 hg with ⟨st, d, ev, e, h3, hc, f, b, hf, hb⟩ | ⟨kind, fs, acc, fb, e⟩
  · exfalso
    rcases hop with h | h | h | h
    · exact h h3
    · rw [h] at hf; cases hf
    · rw [h f hf] at hb; cases hb
    · rw [hc] at h; cases h
  · obtain ⟨r', er, _⟩ := updFinish_form s c h q kind n (c.aux.getD 0 0) fs acc fb
    exact ⟨r', e.trans er, trivial⟩

theorem putObj_sameObjs (s : State) (d : Nat) (o : ResObj) : (putObj s d o).objs = tput s.objs d o := by
  have : SameObjs { s with objs := tput s.objs d o } (putObj s d o) := by
    unfold putObj
    exact syncPool_sameObjs _ _ (syncPool_sameObjs _ _ (wrLocal_sameObjs _ _ _ _ (wrLocal_sameObjs _ _ _ _ (wrLocal_sameObjs _ _ _ _ (SameObjs.refl _)))))
  exact this.objs

/-- Only one object is written. -/
structure Puts (s w : State) (d : Nat) (o : ResObj) : Prop where
  here : findObj w d = some o
  others : ∀ b, b ≠ d → findObj w b = findObj s b

theorem Puts.put {s w : State} {d : Nat} (ho : ∀ b, b ≠ d → findObj w b = findObj s b) (o : ResObj) : Puts s (putObj w d o) d o := by
  refine ⟨?_, fun b hb => ?_⟩
  · unfold findObj; rw [putObj_sameObjs, tfind_tput, if_pos rfl]
  · rw [← ho b hb]; unfold findObj; rw [putObj_sameObjs, tfind_tput, if_neg (Ne.symm hb)]

theorem memError_sameObjs {s : State} (a0 : State) (a1 a2 a3 a4 a5 : Nat) (a6 : Option Nat) (a7 : Nat) (h0 : SameObjs s a0) :
    SameObjs s (memError a0 a1 a2 a3 a4 a5 a6 a7) := by
  have k1 : ∀ x, SameObjs s (setMemRegs a0 a1 x) := fun x => SameObjs.set h0
  delta memError
  extract_lets v0 v1 v2 v3 v4
  have k3 : SameObjs s v3 := SameObjs.ite (fire_sameObjs _ _ _ (k1 _)) (k1 _)
  have k4 : SameObjs s v4 := raiseFor_sameObjs _ _ _ _ _ _ _ _ _ _ _ k3
  refine SameObjs.ite ?_ k4
  delta markRetired
  extract_lets
  exact SameObjs.ite k4 (raise_sameObjs _ _ _ _ _ _ _ _ _ (SameObjs.set k4))

theorem Puts.same {s w x : State} {d : Nat} {o : ResObj} (h : Puts s w d o) (e : SameObjs w x) : Puts s x d o :=
  ⟨by unfold findObj; rw [e.objs]; exact h.here, fun b hb => by unfold findObj; rw [e.objs]; exact h.others b hb⟩

theorem Puts.again {s w : State} {d : Nat} {o : ResObj} (h : Puts s w d o) (o' : ResObj) : Puts s (putObj w d o') d o' := Puts.put h.others o'

/-- A copy that holds nothing of its own goes (R219). -/
theorem clearCopy_puts {s w : State} {d : Nat} {o : ResObj} (hw : Puts s w d o) (t : Nat) : Puts s (clearCopy w d t) d (o.setCopy t noCopy) := by
  unfold clearCopy
  rw [hw.here]
  exact (hw.same (count_sameObjs _ _ _ _ _ _ (SameObjs.refl w))).again _

/-- A write-back that begins or goes on holds its pound space where there is room (R219, R237). -/
theorem stageWb_puts {s w : State} {d : Nat} {o : ResObj} (hw : Puts s w d o) (t seq : Nat) :
    Puts s (stageWb w d t seq) d (o.leaving t seq (wbRoom w d o t)) := by
  unfold stageWb
  rw [hw.here]
  dsimp only
  cases hr : wbRoom w d o t with
  | false => rw [if_neg (by decide)]; exact hw.again _
  | true =>
    rw [if_pos rfl]
    refine Puts.again (o := o) ?_ _
    split
    · exact hw.same (SameObjs.foldl _ (SameObjs.refl w) fun t a h => by unfold sendWb; exact send_sameObjs _ _ h)
    · exact hw

theorem killWb_puts {s w : State} {d : Nat} {o : ResObj} (hw : Puts s w d o) (t : Nat) :
    Puts s (killWb w d t) d (if (o.copy t).wb = none then o else o.setCopy t { o.copy t with state := 2, wb := none }) := by
  unfold killWb
  rw [hw.here]
  dsimp only
  cases h : (o.copy t).wb with
  | none => rw [if_pos rfl]; exact hw
  | some b =>
    rw [if_neg (by simp)]
    refine Puts.again (o := o) ?_ _
    split
    · exact hw.same (SameObjs.ite (by unfold sendWb; exact send_sameObjs _ _ (SameObjs.refl w)) (SameObjs.refl w))
    · exact hw

/-- Where a copy to be removed is, after the attempt (R219): a clean one is gone, that of a dirty one leaves where its bytes can go back, and any
other stays. -/
theorem removeCopy_puts {s w : State} {d : Nat} {o : ResObj} (hw : Puts s w d o) (t : Nat) :
    Puts s (removeCopy w d t) d (
      if (o.copy t).state ≠ 2 ∨ (t = 2 ∧ o.t1.state = 3) then o
      else if (o.copy t).dirty = false then o.setCopy t noCopy
      else if wbStop w o t = none then o.leaving t (3 * 2 ^ 30 + w.serial % 2 ^ 30) (wbRoom { w with serial := w.serial + 1 } d o t)
      else o.setCopy t { o.copy t with pending := false }) := by
  unfold removeCopy
  rw [hw.here]
  dsimp only
  by_cases h2 : (o.copy t).state ≠ 2 ∨ (t = 2 ∧ o.t1.state = 3)
  · rw [if_pos h2, if_pos h2]; exact hw
  rw [if_neg h2, if_neg h2]
  cases hd : (o.copy t).dirty with
  | false => exact clearCopy_puts hw t
  | true =>
    simp only [Bool.not_true, Bool.false_eq_true, if_false, Bool.true_eq_false]
    cases hs : wbStop w o t with
    | none => simp only [if_true]; exact stageWb_puts (w := { w with serial := w.serial + 1 }) ⟨hw.here, hw.others⟩ t _
    | some x =>
      simp only [reduceCtorEq, if_false]
      refine Puts.again (o := o) ?_ _
      split
      · exact hw.same (memError_sameObjs _ _ _ _ _ _ _ _ (SameObjs.refl w))
      · exact hw

/-- The write-back of a copy commits, and the copy is gone (R219). -/
theorem commitWb_puts {s w : State} {d : Nat} {o : ResObj} (hw : Puts s w d o) (t : Nat)
    (h2 : ¬ ((o.removed t).t2.pins = 0 ∧ (o.removed t).t2.pending = true ∧ (o.removed t).t2.state = 2)) : Puts s (commitWb w d t) d (o.removed t) := by
  unfold commitWb
  rw [hw.here]
  dsimp -zeta only
  extract_lets ws v1 v2 v3 w2 v4 v5
  have p1 : Puts s v1 d o := hw.same (count_sameObjs _ _ _ _ _ _ (SameObjs.refl w))
  have p2 : Puts s v2 d o := p1.same (poundPublish_sameObjs _ _ _ (publishWrites_sameObjs _ _ _ (SameObjs.refl v1)))
  have p3 : Puts s v3 d o := by
    show Puts s (match wbPeer o t, (o.copy t).wb with | some p, some w => sendWb v2 o w.seq p mtCommit 7 [] [] | _, _ => v2) d o
    split
    · exact p2.same (by unfold sendWb; exact send_sameObjs _ _ (SameObjs.refl v2))
    · exact p2
  have p5 : Puts s v5 d (o.removed t) := by
    unfold ResObj.removed
    refine clearCopy_puts ?_ t
    show Puts s (if t = 1 ∧ o.t2.held = true then putObj v3 d { o with t2 := { o.t2 with dirty := true } } else v3) d _
    by_cases h : t = 1 ∧ o.t2.held = true
    · rw [if_pos h, if_pos h]; exact p3.again _
    · rw [if_neg h, if_neg h]; exact p3
  rw [p5.here]
  dsimp only
  rw [if_neg h2]
  exact p5

theorem resPromote_says {s : State} {cid : Nat} {c : Cmd} {o : ResObj} (h : RingRuns s cid 0x722 c) (ho : findObj s (c.aux.getD 0 0) = some o)
    (hs : (o.copy (c.aux.getD 1 0)).held = true) : exec (.resPromote cid) s = .next (promoteFin s c) := by
  obtain ⟨k, hk⟩ := h.ring
  obtain ⟨h1, h2, h3⟩ := h.runs
  have hx : exec (.resPromote cid) s = execResPromote cid s := rfl
  rw [hx]
  unfold execResPromote
  rw [h1]
  dsimp only
  rw [if_pos ⟨h2, h3, by rw [hk]⟩]
  unfold tryPromotion
  dsimp only
  rw [ho]
  dsimp only
  rw [if_pos hs]

/-- The objects before the effect of a row that stages nothing are the ones before it, and those after the effect stay. -/
theorem obj_row {code cid : Nat} {compute : State → Cmd → Out} {eff : State → Cmd → State} {s : State} {c : Cmd} {r : Stg}
    (h : RingRuns s cid code c) (hd : compute s c = .done r) (hn : Near r) (hw : r.writes = []) (hr : r.outs = []) (hh : NoHolds s c)
    (heff : ∀ u, Beside s u → Beside s (eff u (atCommit s (withRun c r)))) :
    ∃ u t, runOp code compute eff cid s = .next t ∧ Beside s u ∧ u.objs = s.objs ∧ Beside s t ∧ Recorded s cid c r t ∧
      t.objs = (eff u (atCommit s (withRun c r))).objs := by
  obtain ⟨u, t, e, b, st, q, ob, k⟩ := effect_row (eff := eff) h hd hn
  obtain ⟨o1, o2⟩ := ob.1 hw hr hh.1 hh.2
  obtain ⟨bt, rt⟩ := k s (fun _ g => g) (findCmd_mem h.runs.1).2 (heff u b)
  exact ⟨u, t, e, b, o1, bt, rt, o2⟩

theorem Puts.is {s t w : State} {d : Nat} {o : ResObj} (h : Puts s w d o) (bt : Beside s t) (e : t.objs = w.objs) : ObjIs s t d o :=
  ⟨bt, by have := h.here; unfold findObj at *; rw [e]; exact this, fun b hb => by have := h.others b hb; unfold findObj at *; rw [e]; exact this⟩

theorem Puts.start {s u : State} {d : Nat} {o : ResObj} (hu : u.objs = s.objs) (ho : findObj s d = some o) : Puts s u d o :=
  ⟨by unfold findObj at *; rw [hu]; exact ho, fun b _ => by unfold findObj; rw [hu]⟩

theorem setCopy_copy (o : ResObj) (t : Nat) (c : Copy) : (o.setCopy t c).copy t = c := by
  unfold ResObj.setCopy ResObj.copy
  split <;> rfl

theorem findCmd_putCmd' (s : State) (c : Cmd) (cid : Nat) (hc : c.id = cid) (h : cid ∈ s.cmds.map Cmd.id) : findCmd (putCmd s c) cid = some c := by
  subst hc; exact findCmd_putCmd s c h

theorem memRead_length (m : List Host.Cell) (a n : Nat) : (memRead m a n).length = n := by
  induction n generalizing a with
  | zero => rfl
  | succ n ih => simp only [memRead, List.length_cons, ih]

theorem moveEff_not3 (u : State) (c : Cmd) (h : ∀ w ∈ c.writes, w.tgt.tier ≠ 3) : moveEff u c = u := by
  unfold moveEff
  have : c.writes.filter (fun w => w.tgt.tier == 3) = [] := List.filter_eq_nil_iff.mpr fun w hw => by simpa using h w hw
  rw [this]; rfl

theorem move_row {code cid : Nat} {compute : State → Cmd → Out} {s : State} {c : Cmd} {r : Stg} (h : RingRuns s cid code c) (hd : compute s c = .done r)
    (hn : Near r) (h3 : ∀ w ∈ r.writes, w.tgt.tier ≠ 3) :
    ∃ t, runOp code compute moveEff cid s = .next t ∧ Recorded s cid c r t ∧ Beside s t ∧ (Still s → t.mem = published s.mem r.writes ∧ t.host = s.host) := by
  refine plain_row h hd hn fun u => moveEff_not3 u _ fun w hw => ?_
  have e : (atCommit s (withRun c r)).writes = cutFar r.writes := rfl
  rw [e, cutFar_near _ hn.near] at hw
  exact h3 w hw

theorem execCopy_eq {s : State} {cid : Nat} {c : Cmd} (h : RingRuns s cid 0x701 c)
    (hz : bargeZipSrc c.pkt = false ∨ ∃ bs, decodeImage (bargeKind c.pkt) (bargeLen c.pkt) (moveSrc s c) = .ok bs) :
    exec (.copy cid) s = runOp 0x701 copyRun moveEff cid s := by
  have hx : exec (.copy cid) s = execCopy cid s := rfl
  rw [hx]
  unfold execCopy
  rw [h.runs.1]
  dsimp only
  split
  · rename_i hc
    rcases hz with hz | ⟨bs, hz⟩
    · rw [hz] at hc; exact absurd hc.2.2.1 (by decide)
    · rw [hz]
  · rfl

end Sys2Proof.Machine
end

