-- ==== Sys2Proof/Laws/Others.lean ====
section
/-! SUPPORT. Which operations change no command, and that a commit leaves every other command as its own effect does (R275). -/

namespace Sys2Proof.Machine

theorem markDirty_sameCmds {s : State} (a : State) (ws : List SWrite) (h : SameCmds s a) : SameCmds s (markDirty a ws) := by
  unfold markDirty
  refine SameCmds.foldl _ h fun t e g => SameCmds.foldl _ g fun t k g => ?_
  split
  · exact g
  · exact SameCmds.ite (putObj_sameCmds _ _ _ g) g

theorem moduleWrite_sameCmds {s : State} (a : State) (x y : Nat) (g : GAddr) (b : List Byte) (h : SameCmds s a) : SameCmds s (moduleWrite a x y g b) := by
  unfold moduleWrite
  extract_lets g'
  split
  · refine SameCmds.ite h ?_
    extract_lets s1 to_ s2
    have k : SameCmds s s1 := by
      unfold s1
      split
      · exact killWb_sameCmds _ _ _ h
      · exact h
    exact markDirty_sameCmds _ _ (SameCmds.ite (SameCmds.ite (wrHost_sameCmds _ _ _ k) k) (SameCmds.ite (wrLocal_sameCmds _ _ _ _ k) k))
  · exact SameCmds.ite (SameCmds.ite (wrHost_sameCmds _ _ _ h) h) (SameCmds.ite (wrLocal_sameCmds _ _ _ _ h) h)

theorem ringEntry_sameCmds {s : State} (a : State) (x y z w : Nat) (b : List Byte) (h : SameCmds s a) : SameCmds s (ringEntry a x y z w b) := by
  unfold ringEntry
  extract_lets
  repeat' first | exact h | apply moduleWrite_sameCmds | apply SameCmds.ite

theorem writeEntries_sameCmds {s : State} (a : State) (c : Cmd) (h : SameCmds s a) : SameCmds s (writeEntries a c) := by
  unfold writeEntries
  refine SameCmds.foldl _ ?_ fun t w g => SameCmds.foldl _ g fun t o g => SameCmds.ite (ringEntry_sameCmds _ _ _ _ _ _ g) g
  split
  · exact SameCmds.ite (SameCmds.foldl _ h fun t o g => SameCmds.ite g (ringEntry_sameCmds _ _ _ _ _ _ g)) h
  · exact h

theorem drift_sameCmds {s : State} (a : State) (x : Option (Nat × Nat)) (h : SameCmds s a) : SameCmds s (drift a x) := by
  unfold drift
  exact SameCmds.foldl _ h fun t b g => SameCmds.foldl _ g fun t e g => SameCmds.ite (count_sameCmds _ _ _ _ _ _ (SameCmds.set g)) g

theorem countWork_sameCmds {s : State} (a : State) (c : Cmd) (h : SameCmds s a) : SameCmds s (countWork a c) := by
  unfold countWork
  dsimp only
  split
  · exact h
  · refine SameCmds.ite (SameCmds.ite (count_sameCmds _ _ _ _ _ _ h) h) (SameCmds.ite (SameCmds.foldl _ h fun t b g => count_sameCmds _ _ _ _ _ _ g)
      (SameCmds.ite (SameCmds.foldl _ h fun t b g => count_sameCmds _ _ _ _ _ _ g) (SameCmds.ite (SameCmds.foldl _ h fun t b g => count_sameCmds _ _ _ _ _ _ (count_sameCmds _ _ _ _ _ _ g))
        (SameCmds.ite (count_sameCmds _ _ _ _ _ _ h) h))))

theorem jobCount_sameCmds {s : State} (a : State) (x y z w v : Nat) (h : SameCmds s a) : SameCmds s (jobCount a x y z w v) := by
  unfold jobCount
  split
  · exact h
  · exact SameCmds.ite (SameCmds.ite (wrHost_sameCmds _ _ _ h) h) (wrLocal_sameCmds _ _ _ _ h)

theorem engineDone_sameCmds {s : State} (a : State) (c : Cmd) (h : SameCmds s a) : SameCmds s (engineDone a c) := by
  unfold engineDone
  split
  · exact SameCmds.ite (fire_sameCmds _ _ _ h) (SameCmds.ite (fire_sameCmds _ _ _ h) (SameCmds.ite (fire_sameCmds _ _ _ h) h))
  · exact h

theorem sendCmd_sameCmds {s : State} (a : State) (c : Cmd) (x y z : Nat) (b : List Nat) (d : List Byte) (h : SameCmds s a) : SameCmds s (sendCmd a c x y z b d) :=
  send_sameCmds _ _ h

theorem findCmd_of {s t : State} (h : SameCmds s t) (j : Nat) : findCmd t j = findCmd s j := by unfold findCmd; rw [h.cmds]

theorem findCmd_put_other {s : State} {c : Cmd} {j : Nat} (h : j ≠ c.id) : findCmd (putCmd s c) j = findCmd s j := by
  unfold findCmd putCmd
  dsimp only
  induction s.cmds with
  | nil => rfl
  | cons a l ih =>
    rw [List.map_cons]
    by_cases ha : a.id = j
    · have hn : ¬ a.id = c.id := fun e => h (ha ▸ e)
      rw [if_neg hn, List.find?_cons_of_pos (by simpa using ha), List.find?_cons_of_pos (by simpa using ha)]
    · by_cases hc : a.id = c.id
      · rw [if_pos hc, List.find?_cons_of_neg (by simpa using Ne.symm h), List.find?_cons_of_neg (by simpa using ha)]; exact ih
      · rw [if_neg hc, List.find?_cons_of_neg (by simpa using ha), List.find?_cons_of_neg (by simpa using ha)]; exact ih

theorem findCmd_drop_other {s : State} {i j : Nat} (hn : j ≠ i) : findCmd (dropCmd s i) j = findCmd s j := by
  unfold findCmd dropCmd
  dsimp only
  induction s.cmds with
  | nil => rfl
  | cons a l ih =>
    by_cases ha : a.id = j
    · rw [List.filter_cons_of_pos (by simp [ha, hn]), List.find?_cons_of_pos (by simpa using ha), List.find?_cons_of_pos (by simpa using ha)]
    · rw [List.find?_cons_of_neg (by simpa using ha)]
      by_cases g : a.id = i
      · rw [List.filter_cons_of_neg (by simp [g])]; exact ih
      · rw [List.filter_cons_of_pos (by simp [g]), List.find?_cons_of_neg (by simpa using ha)]; exact ih

/-- A commit that waited on no lock and sets none leaves every other command as its own effect does. -/
theorem commitWith_others (eff : State → Cmd → State) {s : State} {c : Cmd} {j : Nat} {p q : Cmd} (hj : j ≠ c.id) (h1 : c.pkt.waitThresh = 0) (h2 : c.pkt.clsOp ≠ 0x802) (h3 : findCmd s j = some p)
    (hm : c.self ∈ s.cmds.map Cmd.self)
    (he : ∀ u, Beside s u → findCmd u j = some p → findCmd (eff u (atCommit s c)) j = some q) : findCmd (commitWith eff s c) j = some q := by
  have en : sameLock s c = none := by
    unfold sameLock
    split
    · rfl
    · split
      · rfl
      · rw [if_neg]
        rintro (⟨g, -⟩ | ⟨g, -⟩)
        · exact g h1
        · exact h2 g
  unfold commitWith
  extract_lets same both c1 s1 key d loc s2 s3 s4 s5 s6 s7 s8 s9 s10 s11 s12 s13 lenders s14 c2 src
  have e1 : findCmd s1 j = some p := (findCmd_put_other (c := c1) hj).trans h3
  have e3 : findCmd s3 j = some p := (findCmd_of (poundPublish_sameCmds _ _ _ (markDirty_sameCmds _ _ (publishWrites_sameCmds _ _ _ (SameCmds.refl s1)))) j).trans e1
  have b3 : Beside s s3 := poundPublish_beside _ _ _ (markDirty_beside _ _ (publishWrites_beside _ _ _ (putCmd_beside _ _ hm (Beside.refl s))))
  have e4 : s4 = s3 := if_pos h1
  have e5 : s5 = s4 := by
    unfold s5 same
    rw [en]
  have e6 : findCmd s6 j = some q := he s5 (by rw [e5, e4]; exact b3) (by rw [e5, e4]; exact e3)
  have e9 : SameCmds s6 s9 := by
    have : s9 = s8 := if_pos h1
    rw [this]
    exact SameCmds.foldl _ (writeEntries_sameCmds _ _ (SameCmds.refl s6)) fun t b g => unpinUse_sameCmds _ _ _ g
  have e12 : SameCmds s6 s12 := by
    have e11 : SameCmds s6 s11 := drift_sameCmds _ _ (countWork_sameCmds _ _ (jobCount_sameCmds _ _ _ _ _ _ (traceRec_sameCmds _ _ _ e9)))
    unfold s12
    split
    · exact SameCmds.ite (count_sameCmds _ _ _ _ _ _ e11) e11
    · exact e11
  have e14 : SameCmds s6 s14 := SameCmds.foldl _ (engineDone_sameCmds _ _ e12) fun t b g => sendCmd_sameCmds _ _ _ _ _ _ _ g
  have e16 : findCmd s14 j = some q := (findCmd_of e14 j).trans e6
  split
  · exact (findCmd_put_other (c := c2) hj).trans e16
  · exact (findCmd_drop_other (i := c2.id) hj).trans ((findCmd_of (publishWrites_sameCmds _ _ _ (SameCmds.refl s14)) j).trans e16)

end Sys2Proof.Machine
end

