-- ==== Sys2Proof/Laws/Collective.lean ====
section
/-! SUPPORT. Collectives: joins, the freeze of a round, what a member stages and what its commit leaves (R358 to R369). -/

namespace Sys2Proof.Machine

/-- Two states in which a command reads the same structures: the keys of its job and session, the copies that serve, and the domain's addresses. -/
structure Reads (s u : State) : Prop where
  jobs : u.jobs = s.jobs
  sessions : u.sessions = s.sessions
  cfg : u.cfg = s.cfg
  objs : u.objs = s.objs

theorem Reads.refl (s : State) : Reads s s := ⟨rfl, rfl, rfl, rfl⟩

theorem Reads.trans {a b c : State} (h : Reads a b) (g : Reads b c) : Reads a c :=
  ⟨g.jobs.trans h.jobs, g.sessions.trans h.sessions, g.cfg.trans h.cfg, g.objs.trans h.objs⟩

theorem Carried.reads {s u : State} (h : Carried s u) : Reads s u := ⟨h.jobs, h.sessions, h.cfg, h.objs⟩

theorem Beside.reads {s u : State} (h : Beside s u) (g : u.objs = s.objs) : Reads s u := ⟨h.jobs, h.sessions, h.cfg, g⟩

theorem rdStruct_of {s u : State} (h : Reads s u) (c d : Cmd) (g : GAddr) (n : Nat) : rdStruct (asRead u c) d g n = rdStruct (asRead s c) d g n := by
  unfold rdStruct moduleRead served objAt localise jobKey findJob getSes rdKey asRead
  dsimp only
  rw [h.jobs, h.sessions, h.cfg, h.objs]

theorem descOf_of {s u : State} (h : Reads s u) (c : Cmd) : descOf u c = descOf s c := by unfold descOf; rw [rdStruct_of h]

theorem groupOf_of {s u : State} (h : Reads s u) (c : Cmd) : groupOf (asRead u c) c = groupOf (asRead s c) c := by unfold groupOf; simp only [rdStruct_of h]

theorem groupHash_of {s u : State} (h : Reads s u) (c : Cmd) : groupHash (asRead u c) c = groupHash (asRead s c) c := by unfold groupHash; simp only [rdStruct_of h]

theorem Carried.phase {s t : State} (h : Carried s t) : t.power.phase = s.power.phase := by
  have := congrArg Power.phase h.power; exact this

theorem Carried.lost {s t : State} (h : Carried s t) : t.domain.lost = s.domain.lost := by
  have := congrArg Domain.lost h.domain; exact this

/-- Messages that have left or wait are not taken back. -/
def Kept (s t : State) : Prop := ∃ a b, t.sent = s.sent ++ a ∧ t.held = s.held ++ b

theorem Kept.refl (s : State) : Kept s s := ⟨[], [], by simp, by simp⟩

theorem Kept.trans {a b c : State} (h : Kept a b) (g : Kept b c) : Kept a c := by
  obtain ⟨x, y, h1, h2⟩ := h; obtain ⟨x', y', g1, g2⟩ := g
  exact ⟨x ++ x', y ++ y', by rw [g1, h1, List.append_assoc], by rw [g2, h2, List.append_assoc]⟩

theorem Posted.kept {s t : State} {P : Msg → Prop} (h : Posted s t P) : Kept s t := by
  obtain ⟨m, -, h | h⟩ := h
  · exact ⟨[m], [], h.1, by rw [h.2]; simp⟩
  · exact ⟨[], [m], by rw [h.1]; simp, h.2⟩

theorem Posted.out {s t : State} {P : Msg → Prop} (h : Posted s t P) : Out_ t P := by
  obtain ⟨m, p, h | h⟩ := h
  · exact ⟨m, .inl (by rw [h.1]; simp), p⟩
  · exact ⟨m, .inr (by rw [h.2]; simp), p⟩

theorem Out_.kept {s t : State} {P : Msg → Prop} (h : Out_ s P) (k : Kept s t) : Out_ t P := by
  obtain ⟨m, h, p⟩ := h; obtain ⟨a, b, ka, kb⟩ := k
  refine ⟨m, ?_, p⟩
  rcases h with h | h
  · exact .inl (by rw [ka]; exact List.mem_append_left _ h)
  · exact .inr (by rw [kb]; exact List.mem_append_left _ h)

theorem Out_.mono {t : State} {P Q : Msg → Prop} (h : Out_ t P) (g : ∀ m, P m → Q m) : Out_ t Q := by
  obtain ⟨m, h, p⟩ := h; exact ⟨m, h, g m p⟩

theorem sendCmd_posted (s : State) (c : Cmd) (p typ tc : Nat) (body : List Nat) (data : List Byte) (hp : s.power.phase ≠ 0xF) :
    Posted s (sendCmd s c p typ tc body data) (fun m => m.dst = p ∧ m.typ = typ ∧ m.tc = tc ∧ m.job = c.pkt.job ∧ m.body = body ∧ m.data = data) := by
  obtain ⟨x, e, h⟩ := send_posted s ⟨p, typ, tc, c.pkt.job, c.pkt.seq, c.runs, (match c.origin with | .ring r => r | _ => 0xFF), 0, 0, body, data⟩ hp
  refine ⟨x, ?_, h⟩
  cases x; simp only [Msg.mk.injEq] at e; simp_all

theorem sends_carried {s : State} (c : Cmd) (typ tc : Nat) (B : State → Nat → List Nat) (D : State → Nat → List Byte) (ps : List Nat) (u : State) (h : Carried s u) :
    Carried s (ps.foldl (fun s p => sendCmd s c p typ tc (B s p) (D s p)) u) := Carried.foldl _ h fun _ _ g => sendCmd_carried _ _ _ _ _ _ _ g

theorem sends_quiet {s : State} (c : Cmd) (typ tc : Nat) (B : State → Nat → List Nat) (D : State → Nat → List Byte) (ps : List Nat) (u : State) (h : Quiet s u) :
    Quiet s (ps.foldl (fun s p => sendCmd s c p typ tc (B s p) (D s p)) u) := Quiet.foldl _ h fun _ _ g => sendCmd_quiet _ _ _ _ _ _ _ g

/-- Messages of a command to several peers. -/
theorem sends_out (c : Cmd) (typ tc : Nat) (B : State → Nat → List Nat) (D : State → Nat → List Byte) (ps : List Nat) (s : State) (hp : s.power.phase ≠ 0xF) :
    Kept s (ps.foldl (fun s p => sendCmd s c p typ tc (B s p) (D s p)) s) ∧
    ∀ p ∈ ps, ∃ u, Carried s u ∧ Out_ (ps.foldl (fun s p => sendCmd s c p typ tc (B s p) (D s p)) s)
      (fun m => m.dst = p ∧ m.typ = typ ∧ m.tc = tc ∧ m.job = c.pkt.job ∧ m.body = B u p ∧ m.data = D u p) := by
  induction ps generalizing s with
  | nil => exact ⟨Kept.refl s, fun p h => absurd h (by simp)⟩
  | cons a l ih =>
    rw [List.foldl_cons]
    have h1 := sendCmd_posted s c a typ tc (B s a) (D s a) hp
    have c1 : Carried s (sendCmd s c a typ tc (B s a) (D s a)) := sendCmd_carried _ _ _ _ _ _ _ (Carried.refl s)
    obtain ⟨k, o⟩ := ih (sendCmd s c a typ tc (B s a) (D s a)) (by rw [c1.phase]; exact hp)
    refine ⟨h1.kept.trans k, fun p hm => ?_⟩
    rcases List.mem_cons.mp hm with rfl | hm
    · exact ⟨s, Carried.refl s, h1.out.kept k⟩
    · obtain ⟨u, cu, ou⟩ := o p hm
      exact ⟨u, c1.trans cu, ou⟩

theorem Still.carried {s t : State} (h : MemSame s t) : Still s → t.mem = s.mem ∧ t.host = s.host := h

theorem Quiet.same {s t : State} (h : Quiet s t) : MemSame s t := fun st => ⟨(h st).1, (h st).2.1⟩

theorem awaiting_iff (s : State) (c : Cmd) : ((expects s c).all (fun p => c.remote.any (fun r => r.peer == p))) = true ↔ ¬ Awaiting s c := by
  unfold Awaiting
  simp [List.all_eq_true]

/-- With data still awaited a member does nothing. -/
theorem collFinish_awaiting {s : State} {c : Cmd} (h : Awaiting s c) : collFinish s c = s := by
  unfold collFinish
  rw [if_pos]
  have := (awaiting_iff s c).not.mpr (not_not.mpr h)
  simpa using this

/-- A member that learns its set sends its data. -/
theorem takeSet_says {s : State} {c : Cmd} {set : List Nat} {count seq runs : Nat} (h : ∀ u, Carried (putCmd s (c.takes set count seq runs)) u → Awaiting u (c.takes set count seq runs)) :
    (takeSet s c set count seq runs).cmds = (putCmd s (c.takes set count seq runs)).cmds ∧ Carried (putCmd s (c.takes set count seq runs)) (takeSet s c set count seq runs) ∧
    Quiet s (takeSet s c set count seq runs) ∧
    (s.power.phase ≠ 0xF → Kept s (takeSet s c set count seq runs) ∧
      ∀ p ∈ sendsTo (putCmd s (c.takes set count seq runs)) (c.takes set count seq runs), Out_ (takeSet s c set count seq runs) (fun x => x.dst = p ∧ x.typ = mtCollData ∧
        x.tc = (descOf s c).tc ∧ x.job = c.pkt.job ∧ x.body = [collHash s c, (descOf s c).stream, (descOf s c).round])) := by
  have e : takeSet s c set count seq runs = (sendsTo (putCmd s (c.takes set count seq runs)) (c.takes set count seq runs)).foldl
      (fun s' p => sendCmd s' (c.takes set count seq runs) p mtCollData (descOf s c).tc [collHash s c, (descOf s c).stream, (descOf s c).round]
        (contribution s' (c.takes set count seq runs) (descOf s c) p)) (putCmd s (c.takes set count seq runs)) := by
    have hc := sends_carried (c.takes set count seq runs) mtCollData (descOf s c).tc (fun _ _ => [collHash s c, (descOf s c).stream, (descOf s c).round])
      (fun s' p => contribution s' (c.takes set count seq runs) (descOf s c) p) (sendsTo (putCmd s (c.takes set count seq runs)) (c.takes set count seq runs)) _ (Carried.refl (putCmd s (c.takes set count seq runs)))
    exact collFinish_awaiting (h _ hc)
  have hc := sends_carried (c.takes set count seq runs) mtCollData (descOf s c).tc (fun _ _ => [collHash s c, (descOf s c).stream, (descOf s c).round])
    (fun s' p => contribution s' (c.takes set count seq runs) (descOf s c) p) (sendsTo (putCmd s (c.takes set count seq runs)) (c.takes set count seq runs)) _ (Carried.refl (putCmd s (c.takes set count seq runs)))
  have hq := sends_quiet (c.takes set count seq runs) mtCollData (descOf s c).tc (fun _ _ => [collHash s c, (descOf s c).stream, (descOf s c).round])
    (fun s' p => contribution s' (c.takes set count seq runs) (descOf s c) p) (sendsTo (putCmd s (c.takes set count seq runs)) (c.takes set count seq runs)) _ (putCmd_quiet _ (c.takes set count seq runs) (Quiet.refl s))
  have ho := fun hp => sends_out (c.takes set count seq runs) mtCollData (descOf s c).tc (fun _ _ => [collHash s c, (descOf s c).stream, (descOf s c).round])
    (fun s' p => contribution s' (c.takes set count seq runs) (descOf s c) p) (sendsTo (putCmd s (c.takes set count seq runs)) (c.takes set count seq runs)) (putCmd s (c.takes set count seq runs)) hp
  rw [e]
  refine ⟨hc.cmds, hc, hq, fun hp => ?_⟩
  obtain ⟨k, o⟩ := ho hp
  refine ⟨k, fun p hm => ?_⟩
  obtain ⟨u, -, ou⟩ := o p hm
  exact ou.mono fun m hm => ⟨hm.1, hm.2.1, hm.2.2.1, hm.2.2.2.1, hm.2.2.2.2.1⟩

theorem expects_of {s u : State} (h : Reads s u) (hl : u.domain.lost = s.domain.lost) (c : Cmd) : expects u c = expects s c := by
  unfold expects permTable liveOf
  simp only [groupOf_of h, descOf_of h, rdStruct_of h, h.cfg, hl]

theorem Awaiting.of {s u : State} {c : Cmd} (h : Carried s u) (a : Awaiting s c) : Awaiting u c := by
  unfold Awaiting; rw [expects_of h.reads h.lost]; exact a

/-- A round that freezes at its leader. -/
theorem freezeRound_says {s : State} {r : Round} {c : Cmd} (hc : collCmd s r.job r.group r.stream r.round = some c) (hm : s.cfg.peerId ∈ frozenSet s r c)
    (ha : Awaiting s (c.takes (frozenSet s r c) (frozenCount s r c) c.pkt.seq (c.runs % 256))) : Froze s (freezeRound s r) r c := by
  have e : freezeRound s r = takeSet (((frozenSet s r c).filter (fun p => p != s.cfg.peerId)).foldl
      (fun s' p => sendCmd s' c p mtCollSet 7 ([r.group, r.stream, r.round, frozenCount s r c] ++ frozenSet s r c) [])
      (putStream (putRound s { r with frozen := some (frozenSet s r c) }) { getStream s r.job r.group r.stream with
        results := (getStream s r.job r.group r.stream).results.filter (fun x => decide ((r.round + 2 ^ 32 - x.1) % 2 ^ 32 < 2)) }))
      c (frozenSet s r c) (frozenCount s r c) c.pkt.seq (c.runs % 256) := by
    unfold freezeRound
    rw [hc]
    have hs : (frozenSet s r c).contains s.cfg.peerId = true := List.contains_iff_mem.mpr hm
    have hcf : ∀ (l : List Nat) (B : List Nat) (x : State), (l.foldl (fun s' p => sendCmd s' c p mtCollSet 7 B []) x).cfg = x.cfg := fun l B x =>
      (sends_carried c mtCollSet 7 (fun _ _ => B) (fun _ _ => []) l x (Carried.refl x)).cfg
    exact if_pos (by rw [hcf]; exact hs)
  rw [e]
  clear e
  generalize hx : putStream (putRound s { r with frozen := some (frozenSet s r c) }) { getStream s r.job r.group r.stream with
    results := (getStream s r.job r.group r.stream).results.filter (fun x => decide ((r.round + 2 ^ 32 - x.1) % 2 ^ 32 < 2)) } = x
  have x0 : x.rounds = (putRound s { r with frozen := some (frozenSet s r c) }).rounds ∧ x.streams = (putStream s { getStream s r.job r.group r.stream with
    results := (getStream s r.job r.group r.stream).results.filter (fun x => decide ((r.round + 2 ^ 32 - x.1) % 2 ^ 32 < 2)) }).streams ∧
    { x with rounds := s.rounds, streams := s.streams } = s := by subst hx; exact ⟨rfl, rfl, rfl⟩
  have hq := sends_quiet c mtCollSet 7 (fun (_ : State) (_ : Nat) => [r.group, r.stream, r.round, frozenCount s r c] ++ frozenSet s r c) (fun _ _ => []) ((frozenSet s r c).filter (fun p => p != s.cfg.peerId)) x (Quiet.refl x)
  have hcar := sends_carried c mtCollSet 7 (fun (_ : State) (_ : Nat) => [r.group, r.stream, r.round, frozenCount s r c] ++ frozenSet s r c) (fun _ _ => []) ((frozenSet s r c).filter (fun p => p != s.cfg.peerId)) x (Carried.refl x)
  have hout := fun hp => sends_out c mtCollSet 7 (fun (_ : State) (_ : Nat) => [r.group, r.stream, r.round, frozenCount s r c] ++ frozenSet s r c) (fun _ _ => []) ((frozenSet s r c).filter (fun p => p != s.cfg.peerId)) x hp
  generalize List.foldl (fun (s' : State) (p : Nat) => sendCmd s' c p mtCollSet 7 ([r.group, r.stream, r.round, frozenCount s r c] ++ frozenSet s r c) []) x ((frozenSet s r c).filter (fun p => p != s.cfg.peerId)) = y at *
  have px : Reads s x ∧ x.power = s.power ∧ x.domain = s.domain ∧ x.cmds = s.cmds := by
    have := x0.2.2; rw [← this]; exact ⟨⟨rfl, rfl, rfl, rfl⟩, rfl, rfl, rfl⟩
  have hw : ∀ u, Carried (putCmd y (c.takes (frozenSet s r c) (frozenCount s r c) c.pkt.seq (c.runs % 256))) u →
      Awaiting u (c.takes (frozenSet s r c) (frozenCount s r c) c.pkt.seq (c.runs % 256)) := fun u hu => by
    unfold Awaiting
    rw [expects_of (s := s) (((px.1.trans hcar.reads).trans (c := putCmd y _) ⟨rfl, rfl, rfl, rfl⟩).trans hu.reads) (hu.lost.trans (hcar.lost.trans (by rw [px.2.2.1])))]
    exact ha
  obtain ⟨t1, t2, t3, t4⟩ := takeSet_says hw
  generalize takeSet y c (frozenSet s r c) (frozenCount s r c) c.pkt.seq (c.runs % 256) = t at *
  have hcm : (putCmd y (c.takes (frozenSet s r c) (frozenCount s r c) c.pkt.seq (c.runs % 256))).cmds = (putCmd s (c.takes (frozenSet s r c) (frozenCount s r c) c.pkt.seq (c.runs % 256))).cmds := by
    unfold putCmd; dsimp only; rw [hcar.cmds, px.2.2.2]
  have hr : t.rounds = x.rounds := t2.rounds.trans hcar.rounds
  have hst : t.streams = x.streams := t2.streams.trans hcar.streams
  refine ⟨t1.trans hcm, hr.trans x0.1, hst.trans x0.2.1, ?_, ?_, fun hp p hg hj hne => ?_⟩
  · have a : Carried { s with cmds := t.cmds, rounds := t.rounds, streams := t.streams } { x with cmds := t.cmds } := by
      rw [hr, hst]
      have := x0.2.2
      rw [← this]
      exact Carried.refl _
    have b : Carried { x with cmds := t.cmds } { y with cmds := t.cmds } := { hcar with cmds := rfl }
    have c1 : Carried { y with cmds := t.cmds } t := { t2 with cmds := rfl }
    exact (a.trans b).trans c1
  · have q1 : Quiet s x := by subst hx; exact Quiet.set (Quiet.set (Quiet.refl s))
    exact ((q1.trans hq).trans t3).same
  · have hpx : x.power.phase ≠ 0xF := by rw [px.2.1]; exact hp
    obtain ⟨k, o⟩ := hout hpx
    obtain ⟨k2, -⟩ := t4 (by rw [hcar.phase]; exact hpx)
    obtain ⟨u, -, ou⟩ := o p (List.mem_filter.mpr ⟨List.mem_filter.mpr ⟨hg, by simpa using hj⟩, by simpa using hne⟩)
    exact (ou.kept k2).mono fun m hm => ⟨hm.1, hm.2.1, hm.2.2.1, hm.2.2.2.1, hm.2.2.2.2.1⟩

theorem putRound_find (w : State) (r : Round) : (putRound w r).rounds.find? (roundIs r.job r.group r.stream r.round) = some r := by
  unfold putRound
  dsimp only
  rw [List.find?_append, List.find?_eq_none.mpr]
  · simp [roundIs]
  · intro x hx
    have := (List.mem_filter.mp hx).2
    simpa using this

theorem putRound_frozen (w : State) (r : Round) (h : r.frozen = none) :
    (putRound w r).rounds.any (fun x => roundIs r.job r.group r.stream r.round x && x.frozen.isSome) = false := by
  rw [List.any_eq_false]
  intro x hx
  rcases List.mem_append.mp hx with hx | hx
  · have := (List.mem_filter.mp hx).2
    simp only [Bool.not_eq_eq_eq_not, Bool.not_true] at this
    rw [this]; simp
  · rw [List.mem_singleton.mp hx, h]; simp

theorem putRound_next (w : State) (r : Round) (h : NoneWaits w r.job r.group r.stream r.round) : ∀ x ∈ (putRound w r).rounds, roundIs r.job r.group r.stream ((r.round + 1) % 2 ^ 32) x = false := by
  intro x hx
  rcases List.mem_append.mp hx with hx | hx
  · exact h x (List.mem_filter.mp hx).1
  · rw [List.mem_singleton.mp hx]
    unfold roundIs
    have : (r.round == (r.round + 1) % 2 ^ 32) = false := by
      rw [beq_eq_false_iff_ne]
      omega
    rw [this, Bool.and_false]

theorem freezeIfDue_none {s : State} {job group stream round : Nat} (h : ∀ x ∈ s.rounds, roundIs job group stream round x = false) : freezeIfDue s job group stream round = s := by
  unfold freezeIfDue
  rw [List.find?_eq_none.mpr fun x hx => by rw [h x hx]; decide]

theorem freezeFrom_none (n : Nat) {s : State} {job group stream round : Nat} (h : ∀ x ∈ s.rounds, roundIs job group stream round x = false) : freezeFrom n s job group stream round = s := by
  cases n with
  | zero => rfl
  | succ n =>
    unfold freezeFrom
    rw [freezeIfDue_none h]
    apply if_neg
    rw [Bool.not_eq_true, List.any_eq_false]
    intro x hx
    rw [h x hx]; simp

/-- Whether a round is due, as its leader reads it. -/
theorem due_iff {s : State} {r : Round} {c : Cmd} (w : State) (hw : w.rounds = s.rounds) (hs : Reads s w) (hd : w.domain.lost = s.domain.lost)
    (hf : r.frozen = none) (hc : collCmd (putRound w r) r.job r.group r.stream r.round = some c) :
    (Complete s r c → freezeIfDue (putRound w r) r.job r.group r.stream r.round = freezeRound (putRound w r) r) ∧
    (¬ Complete s r c → freezeIfDue (putRound w r) r.job r.group r.stream r.round = putRound w r) := by
  unfold freezeIfDue
  rw [putRound_find, hc]
  dsimp only
  have hl : liveOf (putRound w r) (groupOf (asRead (putRound w r) c) c) = collLive s c := by
    unfold collLive liveOf
    rw [groupOf_of (s := s) (u := putRound w r) (hs.trans ⟨rfl, rfl, rfl, rfl⟩)]
    show List.filter _ _ = _
    rw [show (putRound w r).domain.lost = s.domain.lost from hd]
  rw [hl]
  have : (r.frozen = none ∧ ((putRound w r).rounds.any (fun x => x.job == r.job && x.group == r.group && x.stream == r.stream && x.frozen.isNone && x.round != r.round &&
      decide ((r.round + 2 ^ 32 - x.round) % 2 ^ 32 < 2 ^ 31))) = false ∧ ((collLive s c).filter (fun p => !(r.out_.contains p))).all (fun p => r.joined.contains p) = true) ↔ Complete s r c := by
    unfold Complete
    rw [List.any_eq_false, List.all_eq_true]
    constructor
    · rintro ⟨-, a, b⟩
      refine ⟨fun p hp => ?_, fun x hx h1 h2 h3 h4 h5 h6 => ?_⟩
      · by_cases ho : p ∈ r.out_
        · exact .inl ho
        · have := b p (List.mem_filter.mpr ⟨hp, by simpa using ho⟩)
          exact .inr (by simpa using this)
      · refine a x ?_ ?_
        · refine List.mem_append_left _ (List.mem_filter.mpr ⟨by rw [hw]; exact hx, ?_⟩)
          simp [roundIs, h5]
        · simp [h1, h2, h3, h4, h5]; exact h6
    · rintro ⟨a, b⟩
      refine ⟨hf, fun x hx hp => ?_, fun p hp => ?_⟩
      · simp only [Bool.and_eq_true, beq_iff_eq, bne_iff_ne, decide_eq_true_eq, Option.isNone_iff_eq_none] at hp
        obtain ⟨⟨⟨⟨⟨h1, h2⟩, h3⟩, h4⟩, h5⟩, h6⟩ := hp
        rcases List.mem_append.mp hx with hx | hx
        · exact b x (by rw [← hw]; exact (List.mem_filter.mp hx).1) h1 h2 h3 h4 h5 h6
        · exact h5 (by rw [List.mem_singleton.mp hx])
      · have h1 := List.mem_filter.mp hp
        rcases a p h1.1 with h | h
        · simp [h] at h1
        · simpa using h
  exact ⟨fun hk => if_pos (this.mpr hk), fun hk => if_neg fun x => hk (this.mp x)⟩

/-- A round that is not complete waits. -/
theorem tryFreeze_waits {s : State} {r : Round} (hf : r.frozen = none) (h : freezeIfDue (putRound s r) r.job r.group r.stream r.round = putRound s r) :
    tryFreeze (putRound s r) r.job r.group r.stream r.round = putRound s r := by
  unfold tryFreeze freezeFrom
  rw [h]
  exact if_neg (by rw [putRound_frozen _ _ hf]; decide)

theorem freezeIfDue_noCmd {s : State} {job group stream round : Nat} (h : collCmd s job group stream round = none) : freezeIfDue s job group stream round = s := by
  unfold freezeIfDue
  rw [h]
  split
  · next h => cases h
  · rfl

theorem Froze.next {s t : State} {r : Round} {c : Cmd} (h : Froze s t r c) (hn : NoneWaits s r.job r.group r.stream r.round) :
    ∀ x ∈ t.rounds, roundIs r.job r.group r.stream ((r.round + 1) % 2 ^ 32) x = false := by
  rw [h.rounds]
  exact putRound_next s { r with frozen := some _ } hn

/-- A complete round freezes. -/
theorem tryFreeze_froze {v : State} {r : Round} {c : Cmd} (h : freezeIfDue v r.job r.group r.stream r.round = freezeRound v r) (hF : Froze v (freezeRound v r) r c)
    (hn : NoneWaits v r.job r.group r.stream r.round) : tryFreeze v r.job r.group r.stream r.round = freezeRound v r := by
  unfold tryFreeze freezeFrom
  rw [h]
  have hr := hF.rounds
  have hx := hF.next hn
  dsimp only
  by_cases hc : (freezeRound v r).rounds.any (fun x => roundIs r.job r.group r.stream r.round x && x.frozen.isSome) = true
  · rw [if_pos hc]; exact freezeFrom_none _ hx
  · rw [if_neg hc]

theorem Froze.base {s v t : State} {r : Round} {c : Cmd} (h : Froze v t r c) (e : { v with rounds := s.rounds } = s) (hr : (putRound v { r with frozen := some (frozenSet s r c) }).rounds = (putRound s { r with frozen := some (frozenSet s r c) }).rounds) :
    Froze s t r c := by
  have hg : groupOf (asRead v c) c = groupOf (asRead s c) c := by rw [← e]; rfl
  have hs : frozenSet v r c = frozenSet s r c := by unfold frozenSet; rw [hg]
  obtain ⟨a, b, d, f, g, i⟩ := h
  rw [hg] at a b i
  refine ⟨a.trans ?_, b.trans hr, d.trans (by rw [← e]; rfl), ?_, fun st => ?_, fun hp => ?_⟩
  · rw [← e]; rfl
  · rw [← e]; exact f
  · have : Still v := Still.of (by rw [← e]) (by rw [← e]) (by rw [← e]) (by rw [← e]) st
    obtain ⟨x, y⟩ := g this
    exact ⟨x.trans (by rw [← e]), y.trans (by rw [← e])⟩
  · intro p
    have := i (by rw [← e] at hp; exact hp) p
    rw [show v.cfg.peerId = s.cfg.peerId by rw [← e]] at this
    exact this

theorem putRound_twice (s : State) (r : Round) (f : Option (List Nat)) : (putRound (putRound s r) { r with frozen := f }).rounds = (putRound s { r with frozen := f }).rounds := by
  unfold putRound
  dsimp only
  rw [List.filter_append, List.filter_filter]
  simp [roundIs]

/-- A member is taken into a round that is not frozen. -/
theorem joinRound_says {s v : State} {job group stream round op p : Nat} {twice : Bool} {r : Round} (h : Joins s job group stream round op p twice r)
    (hw : v.rounds = s.rounds) : r.job = job ∧ r.group = group ∧ r.stream = stream ∧ r.round = round ∧ r.frozen = none ∧ p ∈ r.joined ∧
    joinRound v job group stream round op p twice = tryFreeze (putRound v r) job group stream round := by
  unfold joinRound
  dsimp only
  rw [hw]
  rcases h with ⟨h1, rfl⟩ | ⟨old, h1, h2, h3, h4, rfl⟩
  · rw [h1]
    exact ⟨rfl, rfl, rfl, rfl, rfl, by simp [newRound], rfl⟩
  · rw [h1]
    have hp := List.find?_some h1
    simp only [Bool.and_eq_true, beq_iff_eq] at hp
    refine ⟨hp.1.1, h2, hp.1.2, hp.2, h4, by simp [Round.joinedBy], ?_⟩
    dsimp only
    rw [if_neg (by rw [h2, h3]; simp), if_neg (by rw [h4]; decide)]
    rfl

/-- A member is taken into a round: it waits, or it freezes. -/
theorem join_says {s v : State} {job group stream round op p : Nat} {twice : Bool} {r : Round} (h : Joins s job group stream round op p twice r)
    (e : v.rounds = s.rounds ∧ Reads s v ∧ v.domain.lost = s.domain.lost) :
    (collCmd v job group stream round = none → joinRound v job group stream round op p twice = putRound v r) ∧
    (∀ c, collCmd v job group stream round = some c →
      (¬ Complete s r c → joinRound v job group stream round op p twice = putRound v r) ∧
      (Complete s r c → s.cfg.peerId ∈ frozenSet s r c → Awaiting s (c.takes (frozenSet s r c) (frozenCount s r c) c.pkt.seq (c.runs % 256)) → NoneWaits s job group stream round →
        Froze v (joinRound v job group stream round op p twice) r c)) := by
  obtain ⟨e1, e2, e5⟩ := e
  have e2' : Reads s (putRound v r) := e2.trans ⟨rfl, rfl, rfl, rfl⟩
  obtain ⟨rfl, rfl, rfl, rfl, hf, -, ej⟩ := joinRound_says (v := v) h e1
  rw [ej]
  refine ⟨fun hc => tryFreeze_waits hf (freezeIfDue_noCmd hc), fun c hc => ?_⟩
  have hdue := due_iff (s := s) (r := r) (c := c) v e1 e2 e5 hf hc
  refine ⟨fun hk => tryFreeze_waits hf (hdue.2 hk), fun hk hm ha hn => ?_⟩
  replace hdue := hdue.1 hk
  have hset : frozenSet (putRound v r) r c = frozenSet s r c := by
    unfold frozenSet
    rw [groupOf_of (s := s) (u := putRound v r) e2']
  have hcount : frozenCount (putRound v r) r c = frozenCount s r c := by unfold frozenCount; rw [hset]
  have hF : Froze (putRound v r) (freezeRound (putRound v r) r) r c := by
    have hc' : collCmd (putRound v r) r.job r.group r.stream r.round = some c := hc
    apply freezeRound_says hc'
    · rw [hset, show (putRound v r).cfg = v.cfg from rfl, e2.cfg]; exact hm
    · rw [hset, hcount]
      unfold Awaiting
      rw [expects_of (s := s) (u := putRound v r) e2' e5]; exact ha
  have hn' : NoneWaits (putRound v r) r.job r.group r.stream r.round := putRound_next v r (by unfold NoneWaits at *; rw [e1]; exact hn)
  rw [tryFreeze_froze hdue hF hn']
  exact hF.base rfl (putRound_twice v r _)

theorem answerLate_beside {s : State} (x : State) (a b c d e : Nat) (h : Beside s x) : Beside s (answerLate x a b c d e) := by
  unfold answerLate
  split
  · exact send_beside _ _ h
  · exact h

theorem answerLate_quiet {s : State} (x : State) (a b c d e : Nat) (h : Quiet s x) : Quiet s (answerLate x a b c d e) := by
  unfold answerLate
  split
  · exact send_quiet _ _ h
  · exact h

/-- The leader answers the members that joined late. -/
def answerAll (s : State) (job group stream round : Nat) : State :=
  match s.rounds.find? (roundIs job group stream round) with
  | some r => r.late.foldl (fun s p => answerLate s job group stream round p) (putRound s { r with late := [] })
  | none => s

theorem answerAll_says (s : State) (job group stream round : Nat) : Beside { s with rounds := (answerAll s job group stream round).rounds } (answerAll s job group stream round) ∧
    Quiet s (answerAll s job group stream round) ∧ ∀ x ∈ (answerAll s job group stream round).rounds, ∃ r ∈ s.rounds, x = r ∨ x = { r with late := [] } := by
  unfold answerAll
  split
  · next r hr =>
    have hb : Beside (putRound s { r with late := [] }) (r.late.foldl (fun s p => answerLate s job group stream round p) (putRound s { r with late := [] })) :=
      Beside.foldl _ (Beside.refl _) fun _ _ g => answerLate_beside _ _ _ _ _ _ g
    refine ⟨?_, Quiet.foldl _ (Quiet.set (Quiet.refl s)) fun _ _ g => answerLate_quiet _ _ _ _ _ _ g, ?_⟩
    · rw [hb.rounds]; exact hb
    · rw [hb.rounds]
      intro x hx
      rcases List.mem_append.mp hx with hx | hx
      · exact ⟨x, (List.mem_filter.mp hx).1, .inl rfl⟩
      · exact ⟨r, List.mem_of_find?_eq_some hr, .inr (List.mem_singleton.mp hx)⟩
  · exact ⟨Beside.refl s, Quiet.refl s, fun x hx => ⟨x, hx, .inl rfl⟩⟩

theorem vals32_length (bs : List Byte) : 4 * (vals32 bs).length ≤ bs.length := by
  unfold vals32
  have : ∀ n (bs : List Byte), (chunks 4 n bs).length = n := by
    intro n
    induction n with
    | zero => intro bs; rfl
    | succ n ih => intro bs; show (chunks 4 n (bs.drop 4)).length + 1 = n + 1; rw [ih]
  rw [List.length_map, this]; omega

theorem putShard_beside0 (x : State) (a : Nat) (h : Shard) : Beside { x with shards := tput x.shards a h } (putShard x a h) :=
  wrLocal_beside _ _ _ _ (wrLocal_beside _ _ _ _ (Beside.refl _))

theorem gaccNew_length (s : State) (c : Cmd) (h : Shard) (sum : List Byte) : (((gaccNew s c h sum).map (fun x => leBytes 4 (to32 x.1))).flatten).length ≤ sum.length := by
  have h1 : ∀ l : List (Num × Nat), ((l.map (fun x => leBytes 4 (to32 x.1))).flatten).length = 4 * l.length := by
    intro l
    induction l with
    | nil => rfl
    | cons a l ih => simp only [List.map_cons, List.flatten_cons, List.length_append, leBytes_length, ih, List.length_cons]; omega
  have h2 := vals32_length sum
  have h3 : (gaccNew s c h sum).length ≤ (vals32 sum).length := by unfold gaccNew; rw [List.length_map, List.length_zip]; exact Nat.min_le_right _ _
  rw [h1]; omega

/-- GACC and GRAD_COUNT grow. -/
theorem addGacc_says (s : State) (c : Cmd) (sum : List Byte) (n : Nat) : Beside { s with shards := (addGacc s c sum n).shards } (addGacc s c sum n) ∧
    (∀ a h, rtoShard s c = some (a, h) → (addGacc s c sum n).shards = tput s.shards a { h with gradCount := (h.gradCount + n) % 2 ^ 32 }) ∧
    (Still s → (addGacc s c sum n).host = s.host ∧ Still (addGacc s c sum n) ∧
    ∀ x, (∀ a h, rtoShard s c = some (a, h) → ¬ ofShardBlock a x ∧ (x < (gaccAt s c h).off ∨ (gaccAt s c h).off + sum.length ≤ x)) → memByte (addGacc s c sum n).mem x = memByte s.mem x) := by
  unfold addGacc
  split
  · next hn => exact ⟨Beside.refl s, (fun a h g => by rw [hn] at g; cases g), fun st => ⟨rfl, st, fun _ _ => rfl⟩⟩
  · next a h e =>
    extract_lets g bs
    have hl : bs.length ≤ sum.length := gaccNew_length s c h sum
    have hq := markDirty_quiet (wrLocal s (jobKey s c.sess c.pkt.job) g.off bs) [⟨g, bs⟩] (Quiet.refl _)
    have hb := markDirty_beside _ [⟨g, bs⟩] (wrLocal_beside s (jobKey s c.sess c.pkt.job) g.off bs (Beside.refl s))
    obtain ⟨m1, m2, m3⟩ := putShard_mem (markDirty (wrLocal s (jobKey s c.sess c.pkt.job) g.off bs) [⟨g, bs⟩]) a { h with gradCount := (h.gradCount + n) % 2 ^ 32 }
    refine ⟨?_, fun b k e2 => ?_, fun st => ?_⟩
    · have := (hb.shards_set (tput s.shards a { h with gradCount := (h.gradCount + n) % 2 ^ 32 })).trans (by
        have := putShard_beside0 (markDirty (wrLocal s (jobKey s c.sess c.pkt.job) g.off bs) [⟨g, bs⟩]) a { h with gradCount := (h.gradCount + n) % 2 ^ 32 }
        rw [hb.shards] at this
        exact this)
      show Beside { s with shards := tput (markDirty _ _).shards a _ } _
      rw [hb.shards]
      exact this
    · rw [e] at e2; cases e2
      show tput (markDirty _ _).shards a _ = _
      rw [hb.shards]
    · obtain ⟨q1, q2, q3⟩ := hq (Still.of (x := s) rfl rfl rfl rfl st)
      refine ⟨m1.trans q2, m2 q3, fun x hx => ?_⟩
      obtain ⟨h1, h2⟩ := hx a h e
      rw [m3 x h1, q1]
      show memByte (memWrite s.mem g.off bs) x = _
      refine memByte_memWrite_outside _ _ _ ?_
      have : g = gaccAt s c h := rfl
      rw [this]; omega

/-- What the keeper keeps of a PERMUTE once its flip is published touches nothing else (R369). -/
theorem permKept_says {s t : State} {c : Cmd} {v w : Nat}
    (h : t = if c.pkt.op = 7 ∧ s.domain.isKeeper = true then { s with domain := { s.domain with permutes := tput s.domain.permutes c.pkt.job (v, w) } } else s) :
    Beside s t ∧ Quiet s t := by
  rw [h]
  split
  · exact ⟨Beside.set (Beside.refl s), Quiet.set (Quiet.refl s)⟩
  · exact ⟨Beside.refl s, Quiet.refl s⟩

theorem collEff_eq (s : State) (c : Cmd) : collEff s c = if collSt c = 9 then
    (if atOwner c then
      (match c.remote.head? with
        | some r => addGacc (putStream s { getStream s c.pkt.job (collHash s c) (descOf s c).stream with deferred := (descOf s c).addNext }) c r.data (c.aux.getD 3 0)
        | none => putStream s { getStream s c.pkt.job (collHash s c) (descOf s c).stream with deferred := (descOf s c).addNext })
    else putStream s { getStream s c.pkt.job (collHash s c) (descOf s c).stream with deferred := (descOf s c).addNext })
  else
    let st := getStream s c.pkt.job (collHash s c) (descOf s c).stream
    let s1 := putStream s { st with
      deferred := st.deferred && !(descOf s c).addNext,
      results := (st.results.filter (fun r => decide (((descOf s c).round + 2 ^ 32 - r.1) % 2 ^ 32 < 2))) ++ [((descOf s c).round, (c.aux.getD 3 0, (keptResult s c).1))] }
    let s2 := if atOwner c then addGacc s1 c (keptResult s c).1 (c.aux.getD 3 0) else s1
    let s3 := if c.pkt.op = 7 ∧ s2.domain.isKeeper = true then
        { s2 with domain := { s2.domain with permutes := tput s2.domain.permutes c.pkt.job (flipVersion s2 c, crc32c (rdStruct (asRead s2 c) c (gaddrOf (descOf s c).aux) (16 * (descOf s c).tcount))) } }
      else s2
    if (collLive s c).head? = some s3.cfg.peerId then answerAll s3 c.pkt.job (collHash s c) (descOf s c).stream (descOf s c).round else s3 := rfl

theorem getStream_of {s u : State} (h : u.streams = s.streams) (a b c : Nat) : getStream u a b c = getStream s a b c := by unfold getStream; rw [h]

theorem putStream_streams {s u : State} (h : u.streams = s.streams) (x : Stream) : (putStream u x).streams = (putStream s x).streams := by unfold putStream; dsimp only; rw [h]

theorem rtoShard_of {s u : State} (h : u.shards = s.shards) (hc : u.cfg = s.cfg) (c : Cmd) : rtoShard u c = rtoShard s c := by unfold rtoShard localise; rw [h, hc]

theorem resolve_of {s u : State} (h : Reads s u) (c : Cmd) (g : GAddr) (n : Nat) : resolve u c g n = resolve s c g n := by
  unfold resolve objAt localise; simp only [h.cfg, h.objs]

theorem gaccAt_of {s u : State} (h : Reads s u) (c : Cmd) (x : Shard) : gaccAt u c x = gaccAt s c x := resolve_of h c _ _

theorem atOwner_is {c : Cmd} (h : atOwner c = true) : c.pkt.op = 5 := by
  unfold atOwner at h
  simp only [Bool.and_eq_true, beq_iff_eq] at h
  exact h.1

theorem keptOwner_of {s u : State} (h : Reads s u) {c : Cmd} (ho : atOwner c = true) : keptResult u c = keptResult s c := by
  have h5 := atOwner_is ho
  unfold keptResult partsOf
  rw [descOf_of h]
  simp only [ho, h5, if_true, List.nil_append]
  simp

theorem gaccSum_of {s u : State} (h : Reads s u) {c : Cmd} (ho : atOwner c = true) : gaccSum u c = gaccSum s c := by
  unfold gaccSum; rw [keptOwner_of h ho]

/-- The address of an element outside GACC and the control block of the owner's shard. -/
def Outside (s : State) (c : Cmd) (n x : Nat) : Prop := ∀ a h, rtoShard s c = some (a, h) → ¬ ofShardBlock a x ∧ (x < (gaccAt s c h).off ∨ (gaccAt s c h).off + n ≤ x)

/-- What a collective's effect does: the stream, the rounds, the owner's shard and its accumulator. -/
structure CollEffect (u E : State) (c : Cmd) : Prop where
  rest : Beside { u with streams := E.streams, rounds := E.rounds, shards := E.shards } E
  late : collSt c = 9 → E.streams = (putStream u { getStream u c.pkt.job (collHash u c) (descOf u c).stream with deferred := (descOf u c).addNext }).streams
  stream : collSt c ≠ 9 → ∃ x, E.streams = (putStream u { getStream u c.pkt.job (collHash u c) (descOf u c).stream with
    deferred := (getStream u c.pkt.job (collHash u c) (descOf u c).stream).deferred && !(descOf u c).addNext,
    results := (getStream u c.pkt.job (collHash u c) (descOf u c).stream).results.filter (fun r => decide (((descOf u c).round + 2 ^ 32 - r.1) % 2 ^ 32 < 2)) ++
      [((descOf u c).round, (c.aux.getD 3 0, x))] }).streams
  rounds : ∀ x ∈ E.rounds, ∃ r ∈ u.rounds, x = r ∨ x = { r with late := [] }
  shards : atOwner c = false → E.shards = u.shards
  owner : atOwner c = true → (collSt c = 9 → c.remote ≠ []) → ∀ a h, rtoShard u c = some (a, h) → E.shards = tput u.shards a { h with gradCount := (h.gradCount + c.aux.getD 3 0) % 2 ^ 32 }
  still : Still u → Still E ∧ E.host = u.host ∧ (atOwner c = false → E.mem = u.mem) ∧
    (atOwner c = true → ∀ x, Outside u c (gaccSum u c).length x → memByte E.mem x = memByte u.mem x)

/-- A late answer has only set the stream's flag. -/
theorem collEff_flag (u : State) (c : Cmd) (h9 : collSt c = 9) (hn : atOwner c = false ∨ c.remote = []) :
    CollEffect u (putStream u { getStream u c.pkt.job (collHash u c) (descOf u c).stream with deferred := (descOf u c).addNext }) c where
  rest := Beside.refl _
  late _ := rfl
  stream h := absurd h9 h
  rounds x hx := ⟨x, hx, .inl rfl⟩
  shards _ := rfl
  owner ho hr := by
    rcases hn with hn | hn
    · rw [hn] at ho; cases ho
    · exact absurd hn (hr h9)
  still st := ⟨Still.of (x := u) rfl rfl rfl rfl st, rfl, fun _ => rfl, fun _ _ _ => rfl⟩

/-- A late answer reaches the owner. -/
theorem collEff_late (u : State) (c : Cmd) (r : RemoteData) (h9 : collSt c = 9) (ho : atOwner c = true) (hr : c.remote.head? = some r) :
    CollEffect u (addGacc (putStream u { getStream u c.pkt.job (collHash u c) (descOf u c).stream with deferred := (descOf u c).addNext }) c r.data (c.aux.getD 3 0)) c := by
  generalize hX : putStream u { getStream u c.pkt.job (collHash u c) (descOf u c).stream with deferred := (descOf u c).addNext } = X
  have fX : { X with streams := u.streams } = u := by subst hX; rfl
  obtain ⟨a1, a2, a3⟩ := addGacc_says X c r.data (c.aux.getD 3 0)
  generalize addGacc X c r.data (c.aux.getD 3 0) = E at *
  have rX : Reads u X := by subst hX; exact ⟨rfl, rfl, rfl, rfl⟩
  have rt : rtoShard X c = rtoShard u c := rtoShard_of (by rw [← fX]) (by rw [← fX]) c
  have hr' : E.rounds = u.rounds := a1.rounds.trans (by show X.rounds = _; rw [← fX])
  have hg : gaccSum u c = r.data := by unfold gaccSum; rw [if_pos h9, hr]
  refine ⟨?_, fun _ => ?_, fun h => absurd h9 h, fun x hx => ⟨x, hr' ▸ hx, .inl rfl⟩, fun h => ?_, fun _ _ a h e => ?_, fun st => ?_⟩
  · rw [hr', show E.streams = X.streams from a1.streams]
    have : ({ u with streams := X.streams, rounds := u.rounds, shards := E.shards } : State) = { X with shards := E.shards } := by conv_lhs => rw [← fX]
    rw [this]; exact a1
  · rw [hX]; exact a1.streams
  · rw [h] at ho; cases ho
  · rw [a2 a h (rt.trans e)]
    have : X.shards = u.shards := by rw [← fX]
    rw [this]
  · obtain ⟨b1, b2, b3⟩ := a3 (by subst hX; exact Still.of (x := u) rfl rfl rfl rfl st)
    refine ⟨b2, b1.trans (by subst hX; rfl), fun h => ?_, fun _ x hx => ?_⟩
    · rw [h] at ho; cases ho
    · rw [b3 x fun a h e => ?_]
      · subst hX; rfl
      · rw [gaccAt_of rX, ← hg]; exact hx a h (rt ▸ e)

/-- The rounds that a member makes its commit in. -/
theorem collEff_round (u : State) (c : Cmd) (h9 : collSt c ≠ 9) : CollEffect u (collEff u c) c := by
  generalize hE : collEff u c = E
  rw [collEff_eq, if_neg h9] at hE
  extract_lets st0 s1 s2 d3 s3 at hE
  have hst : Still u → Still s1 := Still.of (x := u) rfl rfl rfl rfl
  have rX : Reads u s1 := ⟨rfl, rfl, rfl, rfl⟩
  have k1 : s1.rounds = u.rounds ∧ s1.shards = u.shards ∧ s1.mem = u.mem ∧ s1.host = u.host ∧ s1.cfg = u.cfg := ⟨rfl, rfl, rfl, rfl, rfl⟩
  have hs1 : ∃ x, s1.streams = (putStream u { st0 with deferred := st0.deferred && !(descOf u c).addNext, results := st0.results.filter (fun r => decide (((descOf u c).round + 2 ^ 32 - r.1) % 2 ^ 32 < 2)) ++ [((descOf u c).round, (c.aux.getD 3 0, x))] }).streams := ⟨_, rfl⟩
  have hX : ∀ a b, ({ u with streams := s1.streams, rounds := a, shards := b } : State) = { s1 with rounds := a, shards := b } := fun _ _ => rfl
  have rt : rtoShard s1 c = rtoShard u c := rfl
  -- the owner's accumulator
  have g2 : Beside { s1 with shards := s2.shards } s2 ∧ (atOwner c = false → s2 = s1) ∧
      (atOwner c = true → ∀ a h, rtoShard u c = some (a, h) → s2.shards = tput u.shards a { h with gradCount := (h.gradCount + c.aux.getD 3 0) % 2 ^ 32 }) ∧
      (Still u → s2.host = u.host ∧ Still s2 ∧ (atOwner c = true → ∀ x, Outside u c (gaccSum u c).length x → memByte s2.mem x = memByte u.mem x)) := by
    have hg : gaccSum u c = (keptResult u c).1 := by unfold gaccSum; rw [if_neg h9]
    by_cases ho : atOwner c = true
    · obtain ⟨a1, a2, a3⟩ := addGacc_says s1 c (keptResult u c).1 (c.aux.getD 3 0)
      have e2 : s2 = addGacc s1 c (keptResult u c).1 (c.aux.getD 3 0) := if_pos ho
      rw [← e2] at a1 a2 a3
      refine ⟨a1, fun h => ?_, fun _ a h e => a2 a h e, fun st => ?_⟩
      · rw [h] at ho; cases ho
      · obtain ⟨b1, b2, b3⟩ := a3 (hst st)
        refine ⟨b1, b2, fun _ x hx => b3 x fun a h e => ?_⟩
        rw [gaccAt_of rX, ← hg]; exact hx a h (rt ▸ e)
    · have e2 : s2 = s1 := if_neg ho
      rw [e2]
      exact ⟨Beside.refl _, fun _ => rfl, fun h => absurd h ho, fun st => ⟨rfl, hst st, fun h => absurd h ho⟩⟩
  obtain ⟨a1, a2, a3, a4⟩ := g2
  clear_value s2
  obtain ⟨c1, c2⟩ : Beside s2 s3 ∧ Quiet s2 s3 := permKept_says (c := c) rfl
  clear_value d3
  clear_value s3
  have g4 : Beside { s3 with rounds := E.rounds } E ∧ Quiet s3 E ∧ ∀ x ∈ E.rounds, ∃ r ∈ s3.rounds, x = r ∨ x = { r with late := [] } := by
    by_cases hl : (collLive u c).head? = some s3.cfg.peerId
    · rw [if_pos hl] at hE
      rw [← hE]; exact answerAll_says _ _ _ _ _
    · rw [if_neg hl] at hE
      rw [← hE]; exact ⟨Beside.refl _, Quiet.refl _, fun x hx => ⟨x, hx, .inl rfl⟩⟩
  obtain ⟨d1, d2, d3⟩ := g4
  have hr3 : s3.rounds = u.rounds := c1.rounds.trans a1.rounds
  have hsh : E.shards = s2.shards := d1.shards.trans c1.shards
  have hstr : E.streams = s1.streams := d1.streams.trans (c1.streams.trans a1.streams)
  refine ⟨?_, fun h => absurd h h9, fun _ => ?_, fun x hx => ?_, fun ho => ?_, fun ho _ a h e => ?_, fun st => ?_⟩
  · rw [hsh, hstr, hX]
    exact ((Beside.rounds_set a1 _).trans (Beside.rounds_set c1 _)).trans d1
  · obtain ⟨x, hx⟩ := hs1
    exact ⟨x, hstr.trans hx⟩
  · obtain ⟨r, h1, h2⟩ := d3 x hx
    exact ⟨r, hr3 ▸ h1, h2⟩
  · rw [hsh, a2 ho]; rfl
  · rw [hsh]; exact a3 ho a h e
  · obtain ⟨b1, b2, b3⟩ := a4 st
    obtain ⟨q1, q2, q3⟩ := (c2.trans d2) b2
    exact ⟨q3, q2.trans b1, fun ho => q1.trans (by rw [a2 ho]; exact k1.2.2.1), fun ho x hx => by rw [q1]; exact b3 ho x hx⟩

theorem collEff_says (u : State) (c : Cmd) : CollEffect u (collEff u c) c := by
  by_cases h9 : collSt c = 9
  · by_cases ho : atOwner c = true
    · have e := (collEff_eq u c).trans ((if_pos h9).trans (if_pos ho))
      cases hr : c.remote.head? with
      | none => rw [hr] at e; exact Eq.mpr (congrArg (fun x => CollEffect u x c) e) (collEff_flag u c h9 (.inr (List.head?_eq_none_iff.mp hr)))
      | some r => rw [hr] at e; exact Eq.mpr (congrArg (fun x => CollEffect u x c) e) (collEff_late u c r h9 ho hr)
    · have e := (collEff_eq u c).trans ((if_pos h9).trans (if_neg ho))
      exact Eq.mpr (congrArg (fun x => CollEffect u x c) e) (collEff_flag u c h9 (.inl (by simpa using ho)))
  · exact collEff_round u c h9

/-- What a collective's commit does besides its record. -/
theorem collEff_done {s u v : State} {c : Cmd} {ws : List SWrite} (h : Beside s u) (ho : s.objs = [] → u.objs = [])
    (hm : Still s → u.mem = published s.mem ws ∧ u.host = s.host ∧ Still u) (hv : Beside (collEff u c) v) (hq : Quiet (collEff u c) v) : CollDone s v c ws := by
  obtain ⟨k1, k2, k3, k4, k5, k6, k7⟩ := collEff_says u c
  generalize collEff u c = E at *
  have rd : s.objs = [] → Reads s u := fun i => h.reads ((ho i).trans i.symm)
  have dg : ∀ a b d, getStream u a b d = getStream s a b d := getStream_of h.streams
  have dr : rtoShard u c = rtoShard s c := rtoShard_of h.shards h.cfg c
  refine ⟨?_, fun i h9 => ?_, fun i h9 => ?_, ?_, fun no => hv.shards.trans ((k5 no).trans h.shards), fun ho hr a x e => ?_, fun st no => ?_, fun st ow => ?_, fun st => ?_⟩
  · rw [hv.streams, hv.rounds, hv.shards]
    have e1 : Beside { s with streams := E.streams, rounds := E.rounds, shards := E.shards } { u with streams := E.streams, rounds := E.rounds, shards := E.shards } :=
      ((h.streams_set E.streams).rounds_set E.rounds).shards_set E.shards
    exact (e1.trans k1).trans hv
  · rw [descOf_of (rd i), show collHash u c = collHash s c from groupHash_of (rd i) c, dg] at k2
    rw [hv.streams, k2 h9]; exact putStream_streams h.streams _
  · rw [descOf_of (rd i), show collHash u c = collHash s c from groupHash_of (rd i) c, dg] at k3
    obtain ⟨x, hx⟩ := k3 h9
    exact ⟨x, by rw [hv.streams, hx]; exact putStream_streams h.streams _⟩
  · rw [hv.rounds]
    intro x hx
    obtain ⟨r, h1, h2⟩ := k4 x hx
    exact ⟨r, h.rounds ▸ h1, h2⟩
  · rw [hv.shards, k6 ho hr a x (dr ▸ e), h.shards]
  · obtain ⟨m1, m2, m3⟩ := hm st
    obtain ⟨e1, e2, e3, -⟩ := k7 m3
    obtain ⟨q1, q2, -⟩ := hq e1
    exact ⟨q1.trans ((e3 no).trans m1), q2.trans (e2.trans m2)⟩
  · obtain ⟨m1, m2, m3⟩ := hm st
    obtain ⟨e1, e2, -, e5⟩ := k7 m3
    obtain ⟨q1, q2, -⟩ := hq e1
    refine ⟨q2.trans (e2.trans m2), fun x hx => ?_⟩
    rw [q1, e5 ow x fun a h e => ?_, m1]
    have := hx a h (dr ▸ e)
    rw [gaccSum_of (rd st.objs) ow, gaccAt_of (rd st.objs)]; exact this
  · exact (hq (k7 (hm st).2.2).1).2.2

/-- What a command stages and when it commits change nothing of what it reads. -/
def Cmd.stagedBy (c : Cmd) (ph : Phase) (at_ bz : Nat) (sg : List (Nat × Nat × Nat)) (ws : List SWrite) (os : List OutInfo) (i f st de : Nat) : Cmd :=
  { c with phase := ph, commitAt := at_, busy := bz, toSend := sg, writes := ws, outs := os, ieee := i, flags := f, status := st, detail := de }

theorem gaccSum_staged (o : State) (c : Cmd) (ph at_ bz sg ws os i f st de) (ho : atOwner c = true) :
    gaccSum o (c.stagedBy ph at_ bz sg ws os i f st de) = gaccSum o c := by
  have hk : keptResult o (c.stagedBy ph at_ bz sg ws os i f st de) = keptResult o c := by
    have ho' : atOwner (c.stagedBy ph at_ bz sg ws os i f st de) = true := ho
    have h5 := atOwner_is ho
    have h5' : (c.stagedBy ph at_ bz sg ws os i f st de).pkt.op = 5 := h5
    unfold keptResult partsOf
    dsimp only
    rw [if_pos ho, if_pos ho', if_pos (.inr (.inr (.inl h5))), if_pos (.inr (.inr (.inl h5')))]
    rfl
  unfold gaccSum
  rw [hk]
  rfl

theorem CollDone.staged {s v : State} {c : Cmd} {xs : List SWrite} {ph at_ bz sg ws os i f st de} (h : CollDone s v (c.stagedBy ph at_ bz sg ws os i f st de) xs) : CollDone s v c xs := by
  obtain ⟨h1, h2, h3, h4, h5, h6, h7, h8, h9⟩ := h
  refine ⟨h1, h2, h3, h4, h5, h6, h7, fun st ho => ?_, h9⟩
  have := h8 st ho
  rw [gaccSum_staged s c _ _ _ _ _ _ _ _ _ _ ho] at this
  exact this

theorem CollDone.put {s v : State} {c : Cmd} {ws : List SWrite} (h : CollDone s v c ws) {z : Cmd} (hz : z.self ∈ s.cmds.map Cmd.self) : CollDone s (putCmd v z) c ws := by
  obtain ⟨h1, h2, h3, h4, h5, h6, h7, h8, h9⟩ := h
  refine ⟨?_, h2, h3, h4, h5, h6, h7, h8, fun st => Still.of (x := v) rfl rfl rfl rfl (h9 st)⟩
  have : Beside { s with streams := v.streams, rounds := v.rounds, shards := v.shards } (putCmd v z) := putCmd_beside _ _ hz h1
  exact this

/-- The commit of a ring's collective. -/
theorem coll_commit {o w : State} {c : Cmd} {k : Nat} (hk : c.origin = .ring k) (hb : Beside o w) (hq : Quiet o w) (ho : w.objs = o.objs) (hm : c.self ∈ o.cmds.map Cmd.self) :
    Recorded o c.id c (stagedAs c) (commitWith collEff w c) ∧ CollDone o (commitWith collEff w c) c c.writes := by
  obtain ⟨u, v, b1, b2, q, st, ob, -, -, e⟩ := commitWith_all collEff o w c hb hm
  rw [recorded_ring w v c k hk] at e
  have hd : CollDone o v (atCommit w c) c.writes := by
    refine collEff_done b1 (fun i => ob.2 (ho.trans i)) (fun s0 => ?_) b2 q
    obtain ⟨m1, m2, m3⟩ := hq s0
    obtain ⟨p1, p2, p3⟩ := st m3
    rw [published_near] at p1
    exact ⟨p1.trans (by rw [m1]), p2.trans m2, p3⟩
  have hd' : CollDone o v c c.writes := CollDone.staged (c := c) hd
  rw [e]
  refine ⟨⟨_, findCmd_putCmd v _ ?_, rfl, rfl, rfl, rfl, rfl, hb.time, rfl, rfl⟩, hd'.put hm⟩
  have hi : v.cmds.map Cmd.id = o.cmds.map Cmd.id := hd'.rest.ids
  obtain ⟨x, hx, e2⟩ := List.mem_map.mp hm
  have : x.id = c.id := congrArg Prod.fst e2
  show c.id ∈ v.cmds.map Cmd.id
  rw [hi, ← this]
  exact List.mem_map_of_mem hx

theorem Recorded.mono {s t : State} {cid : Nat} {c c' : Cmd} {r r' : Stg} (h : Recorded s cid c r t) (hp : c'.pkt = c.pkt) (h1 : r'.status = r.status) (h2 : r'.detail = r.detail)
    (h3 : r'.ieee = r.ieee) (h4 : r'.writes = r.writes) : Recorded s cid c' r' t := by
  obtain ⟨z, a, b, d, e, f, g, i, j, k⟩ := h
  exact ⟨z, a, b, d.trans hp.symm, e.trans h1.symm, f.trans h2.symm, g.trans h3.symm, i, j, by rw [h4]; exact k⟩

/-- What a collective stages inside the module, it commits at once. -/
theorem coll_stage {o w : State} {c c0 : Cmd} {k : Nat} {r : Stg} (hk : c.origin = .ring k) (hb : Beside o w) (hq : Quiet o w) (ho : w.objs = o.objs) (hm : c.self ∈ o.cmds.map Cmd.self)
    (hn : Near r) (hc : c = { c0 with phase := c.phase }) (ha : r.aux = c0.aux) :
    Recorded o c.id c0 r (stage collEff w c r) ∧ CollDone o (stage collEff w c r) c0 r.writes := by
  obtain ⟨u, b, q, m, e⟩ := stage_near collEff w c r hn.wait hn.near
  have hw : (withRun c r).writes = r.writes := cutFar_near _ hn.near
  obtain ⟨h1, h2⟩ := coll_commit (o := o) (w := u) (c := withRun c r) (k := k) hk (hb.trans b) (hq.trans q) (m.objs.trans ho) hm
  rw [← e] at h1 h2
  rw [hw] at h2
  refine ⟨h1.mono (by rw [hc]; rfl) rfl rfl rfl hw.symm, ?_⟩
  have hx : withRun c r = c0.stagedBy .staged c.commitAt c.busy c.toSend (cutFar r.writes) r.outs r.ieee (c.flags ||| r.flags) r.status r.detail := by
    rw [hc]; unfold withRun Cmd.stagedBy; rw [ha]
  rw [hx] at h2
  exact h2.staged

theorem CollDone.after {s t t' : State} {c : Cmd} {ws : List SWrite} (h : CollDone s t c ws) (b : Beside t t') (q : Quiet t t') : CollDone s t' c ws := by
  obtain ⟨h1, h2, h3, h4, h5, h6, h7, h8, h9⟩ := h
  refine ⟨?_, fun i x => b.streams.trans (h2 i x), fun i x => ?_, ?_, fun x => b.shards.trans (h5 x), fun x y a k e => b.shards.trans (h6 x y a k e), fun st x => ?_, fun st x => ?_, fun st => (q (h9 st)).2.2⟩
  · rw [b.streams, b.rounds, b.shards]; exact h1.trans b
  · obtain ⟨y, e⟩ := h3 i x; exact ⟨y, b.streams.trans e⟩
  · rw [b.rounds]; exact h4
  · obtain ⟨e1, e2⟩ := h7 st x; obtain ⟨q1, q2, -⟩ := q (h9 st)
    exact ⟨q1.trans e1, q2.trans e2⟩
  · obtain ⟨e1, e2⟩ := h8 st x; obtain ⟨q1, q2, -⟩ := q (h9 st)
    exact ⟨q2.trans e1, fun z hz => by rw [q1]; exact e2 z hz⟩

theorem Recorded.after {s t t' : State} {i : Nat} {c : Cmd} {r : Stg} (h : Recorded s i c r t) (e : t'.cmds = t.cmds) : Recorded s i c r t' := by
  obtain ⟨z, a, b⟩ := h
  exact ⟨z, by unfold findCmd; rw [e]; exact a, b⟩

theorem Packet.op_of_cls (p : Packet) : p.op = p.clsOp % 256 ∧ p.cls = p.clsOp / 256 := by
  unfold Packet.op Packet.clsOp Packet.cls fld
  constructor <;> simp only [Nat.shiftRight_eq_div_pow] <;> omega

theorem tryFlip_other {s : State} {c : Cmd} (h : c.pkt.clsOp ≠ 0x907) : tryFlip s c = s := by
  unfold tryFlip
  exact if_neg fun x => h x.1

/-- What a member sends once its outputs are staged (R363, R369). -/
def ackStaged (s : State) (c c' : Cmd) (live : List Nat) : State :=
  if atOwner c then
    c.remote.foldl (fun s r => send s ⟨r.peer, mtStagedAck, 7, c.pkt.job, r.addr / 256, r.addr % 256, ctxOf c, 0, 0, [], []⟩) s
  else if c.pkt.op = 7 ∧ live.head? ≠ some s.cfg.peerId then
    ((setOf c').filter (fun p => p != s.cfg.peerId)).foldl (fun s p => if live.head? = some p then
      send s ⟨p, mtStagedAck, 7, c.pkt.job, c'.aux.getD 1 0, c'.aux.getD 2 0, ctxOf c, 0, 0, [], []⟩ else s) s
  else s

theorem ackStaged_says (s : State) (c c' : Cmd) (live : List Nat) : Carried s (ackStaged s c c' live) ∧ Quiet s (ackStaged s c c' live) ∧ Beside s (ackStaged s c c' live) := by
  unfold ackStaged
  split
  · exact ⟨Carried.foldl _ (Carried.refl s) fun _ _ g => send_carried _ _ g, Quiet.foldl _ (Quiet.refl s) fun _ _ g => send_quiet _ _ g, Beside.foldl _ (Beside.refl s) fun _ _ g => send_beside _ _ g⟩
  · split
    · exact ⟨Carried.foldl _ (Carried.refl s) fun _ _ g => Carried.ite (send_carried _ _ g) g, Quiet.foldl _ (Quiet.refl s) fun _ _ g => Quiet.ite (send_quiet _ _ g) g,
        Beside.foldl _ (Beside.refl s) fun _ _ g => Beside.ite (send_beside _ _ g) g⟩
    · exact ⟨Carried.refl s, Quiet.refl s, Beside.refl s⟩

theorem collFinish_eq {s : State} {c : Cmd} (h : ¬ Awaiting s c) : collFinish s c =
    (match findCmd (stage collEff s { c with phase := .staged } (collStaged s c)) c.id with
    | none => stage collEff s { c with phase := .staged } (collStaged s c)
    | some c' => tryFlip (ackStaged (stage collEff s { c with phase := .staged } (collStaged s c)) c c' (collLive s c)) c') := by
  unfold collFinish
  rw [if_neg]
  · rfl
  · rw [(awaiting_iff s c).mpr h]; decide

/-- A member whose data is complete commits what it stages. -/
theorem collFinish_done {o s : State} {c : Cmd} {k : Nat} (h : ¬ Awaiting s c) (hk : c.origin = .ring k) (hb : Beside o s) (hq : Quiet o s) (ht : s.objs = o.objs) (hm : c.self ∈ o.cmds.map Cmd.self)
    (hn : Near (collStaged s c)) (h7 : c.pkt.clsOp ≠ 0x907) : Recorded o c.id c (collStaged s c) (collFinish s c) ∧ CollDone o (collFinish s c) c (collStaged s c).writes := by
  obtain ⟨h1, h2⟩ := coll_stage (o := o) (w := s) (c := { c with phase := .staged }) (c0 := c) (r := collStaged s c) (k := k) hk hb hq ht hm hn rfl rfl
  rw [collFinish_eq h]
  obtain ⟨z, hz, hp⟩ := h1
  have hz' : findCmd (stage collEff s { c with phase := .staged } (collStaged s c)) c.id = some z := hz
  rw [hz']
  dsimp only
  rw [tryFlip_other (by rw [hp.2.1]; exact h7)]
  obtain ⟨a, b, d⟩ := ackStaged_says (stage collEff s { c with phase := .staged } (collStaged s c)) c z (collLive s c)
  exact ⟨Recorded.after ⟨z, hz, hp⟩ a.cmds, h2.after d b⟩

theorem stage_waits {eff : State → Cmd → State} {s : State} {c : Cmd} {r : Stg} (hw : r.wait = true) (h : ∀ w ∈ r.writes, w.tgt.tier ≠ 4) :
    ∃ u, Meters s u ∧ Quiet s u ∧ stage eff s c r = putCmd u (withRun c r) := by
  have hf : (cutFar r.writes).filter (fun w => w.tgt.tier == 4) = [] := by
    rw [cutFar_near _ h]
    exact List.filter_eq_nil_iff.mpr fun w hm => by simpa using h w hm
  unfold stage
  dsimp only
  rw [hf]
  dsimp only [List.find?_nil, List.foldl_nil]
  rw [if_neg (by rw [hw]; simp)]
  exact ⟨_, count_meters _ _ _ _ _ _ (Meters.refl s), count_quiet _ _ _ _ _ _ (Quiet.refl s), rfl⟩

theorem Meters.carried {s t : State} (h : Meters s t) : Carried s t := by
  obtain ⟨⟩ := h
  constructor
  all_goals first | assumption | (intro d; unfold getDie; simp_all) | (intro d; unfold getPort; simp_all) | simp_all

theorem putCmd_cmds_twice (s u : State) (x y : Cmd) (h : u.cmds = (putCmd s x).cmds) (hi : x.id = y.id) : (putCmd u y).cmds = (putCmd s y).cmds := by
  unfold putCmd at *
  dsimp only at *
  rw [h, List.map_map]
  apply List.map_congr_left
  intro a _
  show (if (if a.id = x.id then x else a).id = y.id then y else (if a.id = x.id then x else a)) = _
  by_cases ha : a.id = x.id
  · rw [if_pos ha, if_pos hi, if_pos (ha.trans hi)]
  · rw [if_neg ha]

/-- The leader of a PERMUTE sets T_flip and sends it (R369). -/
theorem tryFlip_says (s : State) (c : Cmd) : ∃ a, (tryFlip s c).cmds = (if a = [] then s else putCmd s { c with aux := c.aux ++ a }).cmds ∧ (c.pkt.clsOp ≠ 0x907 → a = []) ∧
    Carried { s with cmds := (tryFlip s c).cmds } (tryFlip s c) ∧ Quiet s (tryFlip s c) ∧
    (c.pkt.clsOp = 0x907 → c.phase = .staged → leads s c → (∀ p ∈ setOf c, p ≠ s.cfg.peerId → p ∈ c.acked) → c.aux.length = 5 → ∃ t, a = [t] ∧ s.time < t ∧
      (s.power.phase ≠ 0xF → ∀ p ∈ setOf c, p ≠ s.cfg.peerId →
        Out_ (tryFlip s c) (fun x => x.dst = p ∧ x.typ = mtCollFlip ∧ x.job = c.pkt.job ∧ x.body = [collHash s c, (descOf s c).stream, (descOf s c).round, t]))) ∧
    ((∃ p ∈ setOf c, p ≠ s.cfg.peerId ∧ p ∉ c.acked) → tryFlip s c = s) := by
  unfold tryFlip
  extract_lets live others t d s1
  have hall : (others.all (fun p => c.acked.contains p)) = true ↔ ∀ p ∈ setOf c, p ≠ s.cfg.peerId → p ∈ c.acked := by
    unfold others
    rw [List.all_eq_true]
    simp [List.mem_filter]
  by_cases h : c.pkt.clsOp = 0x907 ∧ c.phase = .staged ∧ live.head? = some s.cfg.peerId ∧ (others.all (fun p => c.acked.contains p)) = true ∧ c.aux.length = 5
  · rw [if_pos h]
    have hs1 : s1 = others.foldl (fun s' p => sendCmd s' c p mtCollFlip 7 ((fun (s' : State) (_ : Nat) => [groupHash (asRead s' c) c, d.stream, d.round, t]) s' p) ((fun _ _ => []) s' p)) s := rfl
    have hc := sends_carried c mtCollFlip 7 (fun (s' : State) (_ : Nat) => [groupHash (asRead s' c) c, d.stream, d.round, t]) (fun _ _ => []) others s (Carried.refl s)
    have hq := sends_quiet c mtCollFlip 7 (fun (s' : State) (_ : Nat) => [groupHash (asRead s' c) c, d.stream, d.round, t]) (fun _ _ => []) others s (Quiet.refl s)
    have ho := fun hp => sends_out c mtCollFlip 7 (fun (s' : State) (_ : Nat) => [groupHash (asRead s' c) c, d.stream, d.round, t]) (fun _ _ => []) others s hp
    rw [← hs1] at hc hq ho
    clear hs1
    clear_value s1
    refine ⟨[t], ?_, fun hn => absurd h.1 hn, ?_, putCmd_quiet _ _ hq, fun _ _ _ _ _ => ⟨t, rfl, ?_, fun hp p h1 h2 => ?_⟩, fun ⟨p, h1, h2, h3⟩ => absurd (hall.mp h.2.2.2.1 p h1 h2) h3⟩
    · rw [if_neg (by simp)]
      show (putCmd s1 _).cmds = _
      unfold putCmd; dsimp only; rw [hc.cmds]
    · have : Carried { s with cmds := (putCmd s1 { c with aux := c.aux ++ [t] }).cmds } { s1 with cmds := (putCmd s1 { c with aux := c.aux ++ [t] }).cmds } := { hc with cmds := rfl }
      exact this
    · unfold t; split <;> omega
    · obtain ⟨u, cu, ou⟩ := (ho hp).2 p (by unfold others; exact List.mem_filter.mpr ⟨h1, by simpa using h2⟩)
      have hh : groupHash (asRead u c) c = collHash s c := groupHash_of cu.reads c
      exact Out_.kept (ou.mono fun m hm => ⟨hm.1, hm.2.1, hm.2.2.2.1, by rw [← hh]; exact hm.2.2.2.2.1⟩) ⟨[], [], by simp [putCmd], by simp [putCmd]⟩
  · rw [if_neg h]
    exact ⟨[], by simp, fun _ => rfl, Carried.refl s, Quiet.refl s, fun a b e f g => absurd ⟨a, b, e, hall.mpr f, g⟩ h, fun _ => rfl⟩

/-- A member that must wait stages its outputs. -/
theorem collFinish_waits {s : State} {c : Cmd} (h : ¬ Awaiting s c) (hm : c.id ∈ s.cmds.map Cmd.id) (hw : (collStaged s c).wait = true) (hn : ∀ w ∈ (collStaged s c).writes, w.tgt.tier ≠ 4) :
    ∃ a, (collFinish s c).cmds = (putCmd s { withRun c (collStaged s c) with aux := c.aux ++ a }).cmds ∧ (c.pkt.clsOp ≠ 0x907 → a = []) ∧
      Carried { s with cmds := (collFinish s c).cmds } (collFinish s c) ∧ Quiet s (collFinish s c) := by
  obtain ⟨u, hu, hq, e⟩ := stage_waits (eff := collEff) (c := { c with phase := .staged }) hw hn
  have ew : withRun { c with phase := .staged } (collStaged s c) = withRun c (collStaged s c) := rfl
  rw [ew] at e
  rw [collFinish_eq h, e]
  have hi : c.id ∈ u.cmds.map Cmd.id := by rw [hu.cmds]; exact hm
  have hf : findCmd (putCmd u (withRun c (collStaged s c))) c.id = some (withRun c (collStaged s c)) := findCmd_putCmd u (withRun c (collStaged s c)) hi
  rw [hf]
  dsimp only
  obtain ⟨a1, a2, a3⟩ := ackStaged_says (putCmd u (withRun c (collStaged s c))) c (withRun c (collStaged s c)) (collLive s c)
  generalize ackStaged (putCmd u (withRun c (collStaged s c))) c (withRun c (collStaged s c)) (collLive s c) = w at *
  obtain ⟨a, b1, b2, b3, b4, -, -⟩ := tryFlip_says w (withRun c (collStaged s c))
  generalize tryFlip w (withRun c (collStaged s c)) = t at *
  have hwc : w.cmds = (putCmd s (withRun c (collStaged s c))).cmds := by
    rw [a1.cmds]; unfold putCmd; dsimp only; rw [hu.cmds]
  refine ⟨a, ?_, b2, ?_, ((hq.trans (putCmd_quiet _ _ (Quiet.refl u))).trans a2).trans b4⟩
  · rw [b1]
    by_cases ha : a = []
    · rw [if_pos ha, hwc, ha]
      have : ({ withRun c (collStaged s c) with aux := c.aux ++ [] } : Cmd) = withRun c (collStaged s c) := by rw [List.append_nil]; rfl
      rw [this]
    · rw [if_neg ha]
      exact putCmd_cmds_twice s w _ _ hwc rfl
  · have c1 : Carried { s with cmds := t.cmds } { u with cmds := t.cmds } := { hu.carried with cmds := rfl }
    have c2 : Carried { u with cmds := t.cmds } { w with cmds := t.cmds } := { a1 with cmds := rfl }
    exact (c1.trans c2).trans b3

section

/-- Two states in which a collective reads the same. -/
structure Alike (s u : State) : Prop extends Reads s u where
  streams : u.streams = s.streams
  lost : u.domain.lost = s.domain.lost

variable {s u : State} (h : Alike s u)
include h

theorem cBytes_of (c : Cmd) (g : GAddr) (n : Nat) : cBytes u c g n = cBytes s c g n := by
  unfold cBytes; simp only [resolve_of h.toReads]

theorem opVals_of (c : Cmd) (o : Opnd) : opVals u c o = opVals s c o := by unfold opVals; simp only [cBytes_of h]

theorem newContrib_of (c : Cmd) : newContrib u c = newContrib s c := by unfold newContrib; simp only [cBytes_of h, opVals_of h]

theorem rd_of (c d : Cmd) (g : GAddr) (n : Nat) : rdStruct (asRead u c) d g n = rdStruct (asRead s c) d g n := rdStruct_of h.toReads c d g n

theorem desc_of (c : Cmd) : descOf u c = descOf s c := descOf_of h.toReads c

theorem group_of (c : Cmd) : groupOf (asRead u c) c = groupOf (asRead s c) c := groupOf_of h.toReads c

theorem hash_of (c : Cmd) : groupHash (asRead u c) c = groupHash (asRead s c) c := groupHash_of h.toReads c

theorem live_of (l : List Nat) : liveOf u l = liveOf s l := by unfold liveOf; rw [h.lost]

theorem deferred_of (a b d : Nat) : deferredIn u a b d = deferredIn s a b d := by unfold deferredIn; rw [h.streams]

theorem table_of (c : Cmd) (d : CollD) : permTable (asRead u c) c d = permTable (asRead s c) c d := by unfold permTable; simp only [rd_of h]

theorem reduced_of (c : Cmd) (d : CollD) : reduced u c d = reduced s c d := by
  unfold reduced; simp only [cBytes_of h, newContrib_of h, deferred_of h, hash_of h]

theorem contribution_of (c : Cmd) (d : CollD) (p : Nat) : contribution u c d p = contribution s c d p := by
  unfold contribution
  simp only [live_of h, group_of h, cBytes_of h, table_of h, reduced_of h, h.cfg]

theorem partsOf_of (c : Cmd) : partsOf u c = partsOf s c := by unfold partsOf; simp only [desc_of h, contribution_of h, h.cfg]

theorem keptResult_of (c : Cmd) : keptResult u c = keptResult s c := by
  unfold keptResult; simp only [desc_of h, partsOf_of h, live_of h, group_of h]

theorem rawOut_of (c : Cmd) (o : Opnd) (ws : List SWrite) : rawOut u c o ws = rawOut s c o ws := by unfold rawOut; simp only [cBytes_of h]

theorem gatherWrites_of (c : Cmd) (ps : List (Nat × List Byte)) : gatherWrites u c ps = gatherWrites s c ps := by
  unfold gatherWrites; simp only [live_of h, group_of h, rawOut_of h]

theorem permWrites_of (c : Cmd) (d : CollD) (ps : List (Nat × List Byte)) : permWrites u c d ps = permWrites s c d ps := by
  unfold permWrites; simp only [live_of h, group_of h, rawOut_of h, table_of h, cBytes_of h, h.cfg]

theorem collWrites_of (c : Cmd) (d : CollD) (b : List Byte) : collWrites u c d b = collWrites s c d b := by
  unfold collWrites; simp only [live_of h, group_of h, rd_of h, h.cfg]

theorem collStatus_of (c : Cmd) (l : List Nat) (b : Bool) : collStatus u c l b = collStatus s c l b := by unfold collStatus; simp only [live_of h, group_of h]

theorem placeWrites_of (c : Cmd) (ws : List SWrite) : placeWrites u c ws = placeWrites s c ws := by unfold placeWrites; simp only [resolve_of h.toReads]

theorem flipWrite_of (c : Cmd) : flipWrite u c = flipWrite s c := by unfold flipWrite flipVersion; simp only [cBytes_of h]

theorem collStaged_of (c : Cmd) (ha : collAwaits u c = collAwaits s c) (hf : gaccFlags u c = gaccFlags s c) : collStaged u c = collStaged s c := by
  unfold collStaged
  simp only [desc_of h, keptResult_of h, partsOf_of h, gatherWrites_of h, permWrites_of h, collWrites_of h, collStatus_of h, placeWrites_of h, rawOut_of h, reduced_of h, flipWrite_of h, ha, hf]

theorem lateStage_of (c : Cmd) (n : Nat) (b : List Byte) (ha : collAwaits u c = collAwaits s c) (hf : gaccFlags u c = gaccFlags s c) : lateStage u c n b = lateStage s c n b := by
  unfold lateStage
  simp only [desc_of h, newContrib_of h, rawOut_of h, collWrites_of h, placeWrites_of h, ha, hf]

theorem collAwaits_of (c : Cmd) (hs : u.shards = s.shards) (hb : ∀ a n, gaccBusy u c a n = gaccBusy s c a n) : collAwaits u c = collAwaits s c := by
  unfold collAwaits
  simp only [live_of h, group_of h, desc_of h, rtoShard_of hs h.cfg, hb]

theorem gaccFlags_of (c : Cmd) (hs : u.shards = s.shards) (hm : atOwner c = true → u.mem = s.mem ∧ u.keys = s.keys) : gaccFlags u c = gaccFlags s c := by
  unfold gaccFlags
  rw [rtoShard_of hs h.cfg]
  cases rtoShard s c with
  | none => rfl
  | some x =>
    dsimp only
    split
    · next ho =>
      obtain ⟨m, k⟩ := hm ho
      have e : ∀ y n, rdKey u (jobKey u c.sess c.pkt.job) y n = rdKey s (jobKey s c.sess c.pkt.job) y n := fun y n => by
        unfold rdKey jobKey findJob getSes; rw [m, k, h.jobs, h.sessions]
      unfold gaccNew
      rw [gaccSum_of h.toReads ho, gaccAt_of h.toReads, e]
    · rfl

end

theorem collRow_exec {i : Instr} {op cid : Nat} (h : collRow i = some (op, cid)) (s : State) : exec i s = .next (collRun op cid s) := by
  unfold collRow at h
  split at h <;> cases h <;> rfl

theorem clsOp_op {p : Packet} {op : Nat} (ho : op < 256) (h : p.clsOp = 0x900 + op) : p.op = op := by rw [(Packet.op_of_cls p).1, h]; omega

theorem collRow_small {i : Instr} {op cid : Nat} (h : collRow i = some (op, cid)) : op < 256 := by
  unfold collRow at h
  split at h <;> cases h <;> decide

theorem collRun_eq {s : State} {op cid : Nat} {c : Cmd} (h : Runs s cid (0x900 + op) c) : collRun op cid s =
    if collSt c = 0 then
      (match (liveOf (putCmd s c.joins) (groupOf (asRead s c) c)).head? with
      | none => putCmd s c.joins
      | some p =>
        if p = s.cfg.peerId then joinRound (putCmd s c.joins) c.pkt.job (collHash s c) (descOf s c).stream (descOf s c).round (opHash (putCmd s c.joins) c) p (collTwice s c)
        else match linkFault (putCmd s c.joins) c p with
          | some st => endCmd (putCmd s c.joins) c.joins st (if st = stDenied then 0xFE else 0)
          | none => sendCmd (putCmd s c.joins) c.joins p mtCollJoin 7 [collHash s c, (descOf s c).stream, (descOf s c).round, opHash (putCmd s c.joins) c, b2n (collTwice s c)] [])
    else if collSt c = 2 then collFinish s c
    else s := by
  unfold collRun
  rw [h.1]
  dsimp only
  rw [if_neg (by rw [h.2.1, h.2.2]; simp)]
  rfl

theorem find_map_put (l : List Cmd) (c d : Cmd) (P : Cmd → Bool) (h : l.find? P = some c) (hi : d.id = c.id) (hP : P d = P c) : (l.map (fun x => if x.id = d.id then d else x)).find? P = some d := by
  induction l with
  | nil => cases h
  | cons a l ih =>
    rw [List.map_cons]
    by_cases ha : a.id = d.id
    · rw [if_pos ha]
      rw [List.find?_cons_of_pos]
      rw [hP]; exact List.find?_some h
    · rw [if_neg ha]
      by_cases hp : P a = true
      · rw [List.find?_cons_of_pos hp] at h
        cases h
        exact absurd hi.symm ha
      · rw [List.find?_cons_of_neg hp] at h
        rw [List.find?_cons_of_neg hp]
        exact ih h

theorem collCmd_put {s : State} {job group stream round : Nat} {c d : Cmd} (h : collCmd s job group stream round = some c) (hi : d.id = c.id) (hp : d.pkt = c.pkt) (hu : inUse d = inUse c)
    (hm : d.snapMem = c.snapMem) (hh : d.snapHost = c.snapHost) (hs : d.sess = c.sess) : collCmd (putCmd s d) job group stream round = some d := by
  refine find_map_put s.cmds c d _ h hi ?_
  have e1 : descOf (putCmd s d) d = descOf (putCmd s d) c := by unfold descOf rdStruct moduleRead asRead; rw [hp, hm, hh, hs]
  have e2 : groupHash (asRead (putCmd s d) d) d = groupHash (asRead (putCmd s d) c) c := by unfold groupHash rdStruct moduleRead asRead; rw [hp, hm, hh, hs]
  rw [e1, e2, hp, hu]

theorem timeTo_says (s : State) (t : Nat) : Meters { s with time := max s.time t } (timeTo s t) := by
  obtain ⟨u, hu, e⟩ := timeTo_meters s t
  rw [e]
  exact { hu with time := rfl }

/-- The commands of a round whose hashes differ end, one after the other. -/
theorem endAll_gone (f : State → Cmd → State) (st d : Nat) (hf : ∀ s c, Contained s (f s c) ∧ NoMore s (f s c)) (l : List Cmd) (s : State) :
    let t := l.foldl (fun s c => endCmd (f s c) c st d) s
    Contained s t ∧ NoMore s t ∧ ∀ c ∈ l, ∀ z ∈ t.cmds, z.id ≠ c.id := by
  induction l generalizing s with
  | nil => exact ⟨Contained.refl s, NoMore.refl s, fun c h => absurd h (by simp)⟩
  | cons a l ih =>
    dsimp only
    rw [List.foldl_cons]
    obtain ⟨i1, i2, i3⟩ := ih (endCmd (f s a) a st d)
    obtain ⟨e1, e2⟩ := endCmd_both (f s a) a st d
    refine ⟨((hf s a).1.trans (endCmd_contained _ a st d (Contained.refl _))).trans i1, ((hf s a).2.trans e2).trans i2, fun c hc z hz => ?_⟩
    rcases List.mem_cons.mp hc with rfl | hc
    · intro e
      obtain ⟨y, hy, ey⟩ := List.mem_map.mp (i2 z hz)
      exact e1.gone y hy (ey.trans e)
    · exact i3 c hc z hz

theorem mismatch_says (s : State) (job stream round group : Nat) : Contained s (mismatch s job stream round group) ∧
    (∀ c ∈ s.cmds, c.pkt.cls = 9 → inUse c = true → c.pkt.job = job → (descOf s c).stream = stream → (descOf s c).round = round → ∀ z ∈ (mismatch s job stream round group).cmds, z.id ≠ c.id) ∧
    ∀ x ∈ (mismatch s job stream round group).rounds, ¬ (x.job = job ∧ x.stream = stream ∧ x.round = round) := by
  unfold mismatch
  extract_lets hit s1 rs s2
  obtain ⟨g1, -, g3⟩ := endAll_gone (fun s c => raiseCmd s c 0x2C group round 0) stBad (badAt 24 0)
    (fun s c => ⟨raiseCmd_contained _ _ _ _ _ _ (Contained.refl s), NoMore.same (raiseCmd_told _ _ _ _ _ _ (Told.refl s)).cmds⟩) hit s
  have h2 : Contained s s2 ∧ s2.cmds = s1.cmds := by
    have k1 : Contained s1 s2 := Contained.foldl _ (Contained.refl s1) fun _ _ g => Contained.foldl _ g fun _ _ g => send_contained _ _ g
    have k2 : SameCmds s1 s2 := SameCmds.foldl _ (SameCmds.refl s1) fun _ _ g => SameCmds.foldl _ g fun _ _ g => send_sameCmds _ _ g
    exact ⟨g1.trans k1, k2.cmds⟩
  clear_value s2
  refine ⟨Contained.set h2.1, fun c hc h9 hi hj hst hr z hz => ?_, fun x hx => ?_⟩
  · have hz' : z ∈ s2.cmds := hz
    rw [h2.2] at hz'
    refine g3 c (List.mem_filter.mpr ⟨hc, ?_⟩) z hz'
    simp [h9, hi, hj, hst, hr]
  · have := (List.mem_filter.mp hx).2
    rintro ⟨a, b, d⟩
    simp [a, b, d] at this

theorem Meters.beside {s t : State} (h : Meters s t) : Beside s t := by
  obtain ⟨⟩ := h
  constructor
  all_goals first | assumption | (simp_all; done) | skip
  · intro d; unfold getMemRegs; rw [‹t.memRegs = s.memRegs›]
  · intro x hx; rw [‹t.cmds = s.cmds›] at hx; exact List.mem_map_of_mem hx

theorem Meters.quiet {s t : State} (h : Meters s t) : Quiet s t := fun st =>
  ⟨h.mem, h.host, Still.of (x := s) h.traces h.twatch h.objs h.census st⟩

/-- A freeze after the counters moved. -/
theorem Froze.shift {s w t : State} {r : Round} {c : Cmd} (h : Froze w t r c) (g : Meters s w) : Froze s t r c := by
  have hg : groupOf (asRead w c) c = groupOf (asRead s c) c := groupOf_of ⟨g.jobs, g.sessions, g.cfg, g.objs⟩ c
  obtain ⟨a, b, d, f, q, i⟩ := h
  rw [hg] at a b i
  refine ⟨?_, ?_, ?_, ?_, fun st => ?_, fun hp => ?_⟩
  · rw [a]; unfold putCmd; dsimp only; rw [g.cmds]
  · rw [b]; unfold putRound; dsimp only; rw [g.rounds]
  · rw [d, getStream_of g.streams]; exact putStream_streams g.streams _
  · have : Carried { s with cmds := t.cmds, rounds := t.rounds, streams := t.streams } { w with cmds := t.cmds, rounds := t.rounds, streams := t.streams } :=
      { g.carried with cmds := rfl, rounds := rfl, streams := rfl }
    exact this.trans f
  · obtain ⟨x, y⟩ := q (g.quiet st).2.2
    exact ⟨x.trans g.mem, y.trans g.host⟩
  · have := i (by rw [g.power]; exact hp)
    rw [show w.cfg.peerId = s.cfg.peerId by rw [g.cfg]] at this
    exact this

theorem collCmd_of {s w : State} (hc : w.cmds = s.cmds) (h : Reads s w) (a b d e : Nat) : collCmd w a b d e = collCmd s a b d e := by
  unfold collCmd
  have e1 : ∀ x, descOf w x = descOf s x := descOf_of h
  have e2 : ∀ x, groupHash (asRead w x) x = groupHash (asRead s x) x := groupHash_of h
  simp only [e1, e2, hc]

theorem Told.beside {s t : State} (h : Told s t) : Beside s t := by
  have h0 := h
  obtain ⟨⟩ := h
  constructor
  all_goals first | assumption | skip
  · intro d; unfold getMemRegs; rw [h0.memRegs]
  · rw [h0.serial]
  · rw [h0.cmds]
  · intro x hx; rw [h0.cmds] at hx; exact List.mem_map_of_mem hx

theorem Heard.beside {s u : State} {m : MsgHdr} (h : Heard s u m) : Beside s u := by
  obtain ⟨w, v, rfl, t, -⟩ := h
  exact Beside.trans (Beside.set (Beside.refl s)) t.beside

theorem Heard.quiet {s u : State} {m : MsgHdr} (h : Heard s u m) : Quiet s u := fun i => by
  have e := h.still i
  obtain ⟨w, v, rfl, -, x⟩ := h
  rw [x i] at e ⊢
  exact ⟨rfl, rfl, e⟩

/-- The command of a round is one of the module's. -/
theorem collCmd_mem {s : State} {job group stream round : Nat} {c : Cmd} (h : collCmd s job group stream round = some c) : c ∈ s.cmds := List.mem_of_find?_eq_some h

theorem collCmd_says {s : State} {job group stream round : Nat} {c : Cmd} (h : collCmd s job group stream round = some c) :
    c.pkt.cls = 9 ∧ inUse c = true ∧ c.pkt.job = job ∧ (descOf s c).stream = stream ∧ (descOf s c).round = round ∧ collHash s c = group := by
  have hp := List.find?_some h
  simp only [Bool.and_eq_true, beq_iff_eq] at hp
  obtain ⟨⟨⟨⟨⟨a, b⟩, d⟩, e⟩, f⟩, g⟩ := hp
  exact ⟨a, b, d, e, f, g⟩

theorem Heard.alike {s u : State} {m : MsgHdr} (h : Heard s u m) (c : Cmd) : Alike s (putCmd u c) :=
  ⟨h.carried.reads.trans ⟨rfl, rfl, rfl, rfl⟩, h.carried.streams, h.carried.lost⟩

theorem Heard.alike0 {s u : State} {m : MsgHdr} (h : Heard s u m) : Alike s u := ⟨h.carried.reads, h.carried.streams, h.carried.lost⟩

theorem gaccBusy_put {s u : State} {c : Cmd} (hs : u.shards = s.shards) (hc : u.cmds = s.cmds) (hf : u.cfg = s.cfg) (a : GAddr) (n : Nat) : gaccBusy (putCmd u c) c a n = gaccBusy s c a n := by
  unfold gaccBusy putCmd localise
  dsimp only
  rw [hs, hc, hf]
  induction s.cmds with
  | nil => rfl
  | cons x l ih =>
    rw [List.map_cons, List.any_cons, List.any_cons, ih]
    by_cases hx : x.id = c.id
    · rw [if_pos hx]
      simp [hx]
    · rw [if_neg hx]

end Sys2Proof.Machine
end

