-- ==== Sys2Proof/Laws/Fences.lean ====
section
/-! SUPPORT. What the fences of units and dies, the fatal state and memory errors leave. -/

namespace Sys2Proof.Machine

theorem Steady.refl (s : State) : Steady s s := by constructor <;> intros <;> rfl
theorem Steady.trans {a b c : State} (h : Steady a b) (g : Steady b c) : Steady a c :=
  ⟨g.pending.trans h.pending, g.time.trans h.time, fun d => (g.memRegs d).trans (h.memRegs d), g.sessions.trans h.sessions, g.cfg.trans h.cfg, fun d => (g.dies d).trans (h.dies d)⟩
theorem Contained.steady {s t : State} (h : Contained s t) : Steady s t := ⟨h.pending, h.time, h.memRegs, h.sessions, h.cfg, h.dies⟩

theorem getDie_setDie (s : State) (d e : Nat) (x : Die) : getDie (setDie s d x) e = if d = e then x else getDie s e := tget_tset _ d e x

/-- A part of the dump is memory alone. -/
theorem dumpPart_form (s : State) (d k : Nat) : ∃ m ks p, dumpPart s d k = { s with mem := m, keys := ks, poison := p } := by
  unfold dumpPart wrPlain
  exact ⟨_, _, _, rfl⟩

theorem dumpParts_form (l : List Nat) (s : State) (k : Nat) : ∃ m ks p, l.foldl (fun s d => dumpPart s d k) s = { s with mem := m, keys := ks, poison := p } := by
  induction l generalizing s with
  | nil => exact ⟨_, _, _, rfl⟩
  | cons d l ih =>
    obtain ⟨m, ks, p, e⟩ := dumpPart_form s d k
    rw [List.foldl_cons, e]
    obtain ⟨m', ks', p', e'⟩ := ih { s with mem := m, keys := ks, poison := p }
    exact ⟨m', ks', p', e'⟩

theorem copyDump_form (s : State) (a : Nat) : copyDump s a = { s with host := (copyDump s a).host } := rfl

/-- What a fatal cause leaves (R447, R480). -/
theorem fatalStop_says {s : State} (k : Nat) (h : s.power.phase ≠ 0xF) : Stopped s (fatalStop s k) k := by
  unfold fatalStop
  rw [if_neg h]
  extract_lets parts s1 s2 d0 s3 s4 p0
  obtain ⟨m, ks, p, e⟩ := dumpParts_form (diesUp s1) s1 k
  have e2 : s2 = { s1 with mem := m, keys := ks, poison := p } := e
  clear_value s2
  subst e2
  have e4 : ∃ b, s4 = { s3 with host := b } := by
    show ∃ b, (match s3.dump.buffer with | some b => if s3.power.linkUp then copyDump s3 b.2 else s3 | none => s3) = { s3 with host := b }
    split
    · split
      · exact ⟨_, copyDump_form _ _⟩
      · exact ⟨s3.host, rfl⟩
    · exact ⟨s3.host, rfl⟩
  obtain ⟨b, e4⟩ := e4
  clear_value s4
  subst e4
  exact ⟨rfl, rfl, rfl, by constructor <;> intros <;> rfl⟩

theorem fatalStop_again {s : State} (k : Nat) (h : s.power.phase = 0xF) : fatalStop s k = s := by unfold fatalStop; rw [if_pos h]

/-- What the fence of a die leaves (R477). -/
theorem fenceDie_says {s : State} {d : Nat} (k : Nat) (h : (getDie s d).fenced = false) : Fenced s (fenceDie s d k) d k := by
  unfold fenceDie
  extract_lets x s1 s2 js s3 s4 s5 s6 c0 s7 s8 tr s9 s10
  rw [if_neg (by simp [show x.fenced = false from h])]
  have b1 : Contained (setDie s d { getDie s d with up := false, fenced := true, cause := k, paused := false }) s1 := by
    have hk : ∀ e, (getDie s1 e).kept = (getDie (setDie s d { getDie s d with up := false, fenced := true, cause := k, paused := false }) e).kept := by
      intro e
      show (getDie (setDie s d _) e).kept = _
      rw [getDie_setDie, getDie_setDie]
      split <;> rfl
    constructor
    case dies => exact hk
    all_goals first | exact Nat.le_refl _ | (intros; rfl)
  have p1 : s1.power = s.power := rfl
  have b2 := killAll_contained _ 1 (fun c => onDie c d) b1
  have b3 : Contained _ s3 := Contained.foldl js b2 fun t j g => endJob_contained _ _ (raise_contained _ _ _ _ _ _ _ _ _ g)
  have b4 : Contained _ s4 := Contained.set b3
  have b5 : Contained _ s5 := dropTests_contained _ _ b4
  have b6 : Contained _ s6 := faultRings_contained _ _ b5
  have b7 : Contained _ s7 := setSic_contained _ _ _ b6
  have b8 : Contained _ s8 := Contained.ite (moveTargets_contained _ _ b7) b7
  have b9 : Contained _ s9 := Contained.ite (setTrace_contained _ _ _ b8) b8
  have b10 : Contained _ s10 := raiseMod_contained _ _ _ _ _ _ b9
  clear_value s10
  by_cases hu : (diesUp s10).isEmpty = true
  · rw [if_pos hu]
    by_cases hp : s10.power.phase = 0xF
    · rw [fatalStop_again _ hp]; exact ⟨b10.steady, Or.inl b10.power⟩
    · have g := fatalStop_says 3 hp
      refine ⟨b10.steady.trans g.rest, Or.inr ⟨?_, by rw [g.power], by rw [g.power]⟩⟩
      have : ∀ e, (getDie (fatalStop s10 3) e).up = (getDie s10 e).up := fun e => by
        have := congrArg Die.up (g.rest.dies e); exact this
      unfold diesUp; simp only [this]
      exact List.isEmpty_iff.mp hu
  · rw [if_neg hu]; exact ⟨b10.steady, Or.inl b10.power⟩

theorem fenceDie_again {s : State} {d : Nat} (k : Nat) (h : (getDie s d).fenced = true) : fenceDie s d k = s := by unfold fenceDie; rw [if_pos h]

/-- With no trace on, an event leaves the poison as it is. -/
theorem raiseOp_poison {s : State} (i : Still s) (attr : Option (Nat × Nat)) (oper place code : Nat) (f : Bool) (ses : Option Nat) (j l q d0 d1 d2 : Nat) :
    (raiseOp s attr oper place code f ses j l q d0 d1 d2).poison = s.poison ∧ (raiseOp s attr oper place code f ses j l q d0 d1 d2).traces = s.traces := by
  unfold raiseOp
  extract_lets d e x s1 s2 s3 s4
  have p2 := (count_meters s1 d slotsDie 0x62 1 attr (Meters.refl s1))
  have h3 : s3 = s2 := by
    have : ∀ d, (getTrace s2 d) = getTrace s d := fun d => by unfold getTrace; rw [p2.traces]; rfl
    show traceRec s2 d _ = s2
    unfold traceRec
    dsimp only
    rw [if_pos]
    rw [this]
    rcases i.trace d with h | h
    · exact Or.inl h
    · exact Or.inr (Or.inl h)
  have p4 : s4.poison = s.poison := by
    have : s4.poison = s3.poison := (fire_meters s3 d (128 + code / 4) (Meters.refl s3)).poison
    rw [this, h3, p2.poison]; rfl
  have q4 : s4.traces = s.traces := by
    have : s4.traces = s3.traces := (fire_meters s3 d (128 + code / 4) (Meters.refl s3)).traces
    rw [this, h3, p2.traces]; rfl
  clear_value s4
  split
  · exact ⟨p4, q4⟩
  · rw [← p4, ← q4]
    unfold deliver fireMsix
    dsimp only
    constructor
    all_goals (repeat' split)
    all_goals rfl

theorem raiseFor_poison {s : State} (i : Still s) (place code : Nat) (f : Bool) (ses : Option Nat) (j l q d0 d1 d2 : Nat) :
    (raiseFor s place code f ses j l q d0 d1 d2).poison = s.poison ∧ (raiseFor s place code f ses j l q d0 d1 d2).traces = s.traces :=
  raiseOp_poison i _ _ _ _ _ _ _ _ _ _ _ _

theorem markRetired_poison {s : State} (i : Still s) (a : Nat) : (markRetired s a).poison = s.poison ∧ (markRetired s a).traces = s.traces := by
  unfold markRetired
  dsimp only
  split
  · exact ⟨rfl, rfl⟩
  · exact raiseFor_poison (s := setMemRegs s _ _) ⟨i.trace, i.watch, i.objs, i.census⟩ _ _ _ _ _ _ _ _ _ _

theorem memError_poison {s : State} (i : Still s) (die source job layer seq : Nat) (ses : Option Nat) (g : Nat) :
    (memError s die source job layer seq ses g).poison = s.poison ∧ (memError s die source job layer seq ses g).traces = s.traces := by
  unfold memError
  extract_lets m m2 s1 s2 s3
  have h : Meters { s with memRegs := s1.memRegs } s2 := by
    show Meters _ (if die < 8 then fire s1 die 193 else s1)
    split
    · exact fire_meters _ _ _ (Meters.refl s1)
    · exact Meters.refl s1
  have i2 : Still s2 := ⟨fun d => by unfold getTrace; rw [h.traces]; exact i.trace d, h.twatch.trans i.watch, h.objs.trans i.objs, h.census.trans i.census⟩
  have r : s3.poison = s2.poison ∧ s3.traces = s2.traces := raiseFor_poison i2 die 0x10 false ses job layer seq g (g / 2 ^ 32) source
  have w : Told s2 s3 := raiseFor_told _ _ _ _ _ _ _ _ _ _ _ (Told.refl s2)
  clear_value s3
  have r3 : s3.poison = s.poison ∧ s3.traces = s.traces := ⟨r.1.trans h.poison, r.2.trans h.traces⟩
  have i3 : Still s3 := ⟨fun d => by unfold getTrace; rw [r3.2]; exact i.trace d, w.twatch.trans i2.watch, w.objs.trans i2.objs, w.census.trans i2.census⟩
  split
  · have m3 := markRetired_poison i3 (gaddrOf g).off
    exact ⟨m3.1.trans r3.1, m3.2.trans r3.2⟩
  · exact r3

theorem getMemRegs_setMemRegs (s : State) (d e : Nat) (x : MemRegs) : getMemRegs (setMemRegs s d x) e = if d = e then x else getMemRegs s e := tget_tset _ d e x

/-- The granule of an address among those retired (R243). -/
def MemRegs.retiring (m : MemRegs) (a : Nat) : List Nat :=
  if m.retired.contains (a / 65536 * 65536) ∨ coreBase ≤ a then m.retired else m.retired ++ [a / 65536 * 65536]

/-- What a granule's entry in the list of its die leaves (R243). -/
theorem markRetired_told (s : State) (a : Nat) :
    Told (setMemRegs s (dieOfAddr a) { getMemRegs s (dieOfAddr a) with retired := (getMemRegs s (dieOfAddr a)).retiring a }) (markRetired s a) ∨
      (markRetired s a = s ∧ (getMemRegs s (dieOfAddr a)).retiring a = (getMemRegs s (dieOfAddr a)).retired) := by
  unfold markRetired MemRegs.retiring
  dsimp only
  split
  · exact .inr ⟨rfl, rfl⟩
  · exact .inl (raiseMod_told _ _ _ _ _ _ (Told.refl _))

theorem Told.withMem {s b : State} (h : Told s b) (r : List (Nat × MemRegs)) : Told { s with memRegs := r } { b with memRegs := r } :=
  { h with memRegs := rfl }

/-- A memory error writes the error registers of its die and no other registers of the memory; its granule is retired. -/
theorem memError_told {s : State} (die source job layer seq : Nat) (ses : Option Nat) (g : Nat) (hd : dieOfAddr (gaddrOf g).off = die) :
    ∃ r, Told { s with memRegs := r } (memError s die source job layer seq ses g) ∧ (∀ e, e ≠ die → tget MemRegs.rest r e = getMemRegs s e) ∧
      (tget MemRegs.rest r die).errInfo = source * 2 ^ 28 + job % 65536 ∧
      (tget MemRegs.rest r die).retired =
        if source ≠ 4 ∧ (gaddrOf g).tier < 2 then (getMemRegs s die).retiring (gaddrOf g).off else (getMemRegs s die).retired := by
  unfold memError
  extract_lets m m2 s1 s2 s3
  have hr : m2.retired = (getMemRegs s die).retired := by
    show (if source = 4 then m else if (gaddrOf g).tier = 0 then { m with hbmUe := (m.hbmUe + 1) % 2 ^ 48 } else { m with bsnUe := (m.bsnUe + 1) % 2 ^ 48 }).retired = _
    split
    · rfl
    · split <;> rfl
  have w : Told s1 s3 :=
    raiseFor_told _ _ _ _ _ _ _ _ _ _ _ (Told.ite (fire_told _ _ _ (Told.refl s1)) (Told.refl s1))
  clear_value s3
  have g1 : ∀ e, getMemRegs s3 e = if die = e then { m2 with errAddr := g, errInfo := source * 2 ^ 28 + job % 65536 } else getMemRegs s e := by
    intro e; unfold getMemRegs; rw [w.memRegs]; exact getMemRegs_setMemRegs s die e _
  have f3 : Told { s with memRegs := s3.memRegs } s3 := { w with memRegs := rfl }
  by_cases hc : source ≠ 4 ∧ (gaddrOf g).tier < 2
  · rw [if_pos hc, if_pos hc]
    rcases markRetired_told s3 (gaddrOf g).off with k | ⟨k, q⟩
    · rw [hd] at k
      generalize markRetired s3 (gaddrOf g).off = u at k ⊢
      have gu : ∀ e, getMemRegs u e = if die = e then { getMemRegs s3 die with retired := (getMemRegs s3 die).retiring (gaddrOf g).off } else getMemRegs s3 e := by
        intro e; unfold getMemRegs; rw [k.memRegs]; exact getMemRegs_setMemRegs s3 die e _
      refine ⟨u.memRegs, (f3.withMem u.memRegs).trans (k.withMem u.memRegs), fun e he => ?_, ?_, ?_⟩
      · show getMemRegs u e = _; rw [gu, if_neg (Ne.symm he), g1, if_neg (Ne.symm he)]
      · show (getMemRegs u die).errInfo = _; rw [gu, if_pos rfl]; dsimp only; rw [g1, if_pos rfl]
      · show (getMemRegs u die).retired = _
        rw [gu, if_pos rfl]; unfold MemRegs.retiring; dsimp only; rw [g1, if_pos rfl]; dsimp only; rw [hr]
    · rw [k]
      rw [hd] at q
      refine ⟨s3.memRegs, f3, fun e he => ?_, ?_, ?_⟩
      · show getMemRegs s3 e = _; rw [g1, if_neg (Ne.symm he)]
      · show (getMemRegs s3 die).errInfo = _; rw [g1, if_pos rfl]
      · show (getMemRegs s3 die).retired = _
        rw [← q]; unfold MemRegs.retiring; rw [g1, if_pos rfl]; dsimp only; rw [hr]
  · rw [if_neg hc, if_neg hc]
    refine ⟨s3.memRegs, f3, fun e he => ?_, ?_, ?_⟩
    · show getMemRegs s3 e = _; rw [g1, if_neg (Ne.symm he)]
    · show (getMemRegs s3 die).errInfo = _; rw [g1, if_pos rfl]
    · show (getMemRegs s3 die).retired = _; rw [g1, if_pos rfl]; exact hr

theorem Told.steady {s t : State} (h : Told s t) : Steady s t := ⟨h.pending, h.time, fun _ => by unfold getMemRegs; rw [h.memRegs], h.sessions, h.cfg, h.dies⟩

/-- While its die's list has room, a granule's retirement is its entry in the list (R243). -/
theorem retire_says {s : State} {a : Nat} (hf : ((getMemRegs s (dieOfAddr a)).retiring a).length < 4096) : retire s a = markRetired s a := by
  have h : (getMemRegs (markRetired s a) (dieOfAddr a)).retired = (getMemRegs s (dieOfAddr a)).retiring a := by
    rcases markRetired_told s a with k | ⟨k, q⟩
    · show (tget MemRegs.rest (markRetired s a).memRegs _).retired = _
      rw [k.memRegs]
      show (getMemRegs (setMemRegs s _ _) _).retired = _
      rw [getMemRegs_setMemRegs, if_pos rfl]
    · rw [k, q]
  unfold retire fenceFull
  rw [if_neg (by rw [h]; omega)]

/-- The rest of a unit's fence (R473). -/
theorem fenceTail (s : State) (u : HwUnit) (d k : Nat) :
    Contained s (raiseMod (dropTests (killAll s 1 (fun c => onUnit c u)) (fun v => v == u)) d 0x30 (unitCode u) k 0) :=
  raiseMod_contained _ _ _ _ _ _ (dropTests_contained _ _ (killAll_contained _ 1 _ (Contained.refl _)))

theorem dieShort_of {s b : State} {d : Nat} (h1 : (getDie b d).hamirOff = (getDie s d).hamirOff) (h2 : (getDie b d).moveFence = (getDie s d).moveFence) : dieShort b d = dieShort s d := by
  unfold dieShort
  dsimp only
  rw [h1, h2]

theorem dieShort_kept {s b : State} {d : Nat} (h : (getDie b d).kept = (getDie s d).kept) : dieShort b d = dieShort s d :=
  dieShort_of (by have := congrArg Die.hamirOff h; exact this) (by have := congrArg Die.moveFence h; exact this)

/-- What a core's fence leaves (R473). -/
theorem fenceCore_says {s : State} {n : Nat} (h : unitInService s (.core n) = true) (hf : (getDie s (n / 64)).fenced = false) (hd : dieShort s (n / 64) = none) (k : Nat) :
    Contained (setDie s (n / 64) { getDie s (n / 64) with coreFence := setBit (getDie s (n / 64)).coreFence (n % 64) true }) (fenceUnit s (.core n) k) := by
  unfold fenceUnit
  dsimp only [unitDie]
  rw [if_neg (by rw [hf, h]; simp)]
  have c := fenceTail (setDie s (n / 64) { getDie s (n / 64) with coreFence := setBit (getDie s (n / 64)).coreFence (n % 64) true }) (.core n) (n / 64) k
  rw [dieShort_kept (c.dies (n / 64)), dieShort_of (s := s) (by rw [getDie_setDie, if_pos rfl]) (by rw [getDie_setDie, if_pos rfl]), hd]
  exact c

/-- What a root engine's fence leaves (R473). -/
theorem fenceRoot_says {s : State} {n : Nat} (h : unitInService s (.root n) = true) (hf : (getDie s (n / 8)).fenced = false) (hd : dieShort s (n / 8) = none) (k : Nat) :
    Contained (setDie s (n / 8) { getDie s (n / 8) with rootFence := setBit (getDie s (n / 8)).rootFence (n % 8) true }) (fenceUnit s (.root n) k) := by
  unfold fenceUnit
  dsimp only [unitDie]
  rw [if_neg (by rw [hf, h]; simp)]
  have c := fenceTail (setDie s (n / 8) { getDie s (n / 8) with rootFence := setBit (getDie s (n / 8)).rootFence (n % 8) true }) (.root n) (n / 8) k
  rw [dieShort_kept (c.dies (n / 8)), dieShort_of (s := s) (by rw [getDie_setDie, if_pos rfl]) (by rw [getDie_setDie, if_pos rfl]), hd]
  exact c

/-- What a move engine's fence leaves (R473, R475): the last one of its die takes the die. -/
theorem fenceMove_says {s : State} {n : Nat} (h : unitInService s (.move n) = true) (hf : (getDie s (n / 16)).fenced = false) (hd : dieShort s (n / 16) = none) (k : Nat) {x : Die}
    (hx : x = { getDie s (n / 16) with moveFence := setBit (getDie s (n / 16)).moveFence (n % 16) true }) :
    (x.moveFence % 2 ^ 16 ≠ 2 ^ 16 - 1 → Contained (setDie s (n / 16) x) (fenceUnit s (.move n) k)) ∧
      (x.moveFence % 2 ^ 16 = 2 ^ 16 - 1 → Fenced (setDie s (n / 16) x) (fenceUnit s (.move n) k) (n / 16) 8) := by
  unfold fenceUnit
  dsimp only [unitDie]
  rw [if_neg (by rw [hf, h]; simp), ← hx]
  have c := fenceTail (setDie s (n / 16) x) (.move n) (n / 16) k
  have hx1 : x.hamirOff = (getDie s (n / 16)).hamirOff := by rw [hx]
  have hx2 : x.fenced = false := by rw [hx]; exact hf
  have hg : getDie (setDie s (n / 16) x) (n / 16) = x := by rw [getDie_setDie, if_pos rfl]
  rw [dieShort_kept (c.dies (n / 16))]
  have e : dieShort (setDie s (n / 16) x) (n / 16) = if x.moveFence % 2 ^ 16 = 2 ^ 16 - 1 then some 8 else none := by
    have e1 : ¬ 12 < ((List.range 16).filter (bit (getDie s (n / 16)).hamirOff)).length := by
      intro hl
      unfold dieShort at hd
      dsimp only at hd
      rw [if_pos hl] at hd
      cases hd
    unfold dieShort
    dsimp only
    rw [hg, hx1, if_neg e1]
  rw [e]
  refine ⟨fun g => by rw [if_neg g]; exact c, fun g => ?_⟩
  rw [if_pos g]
  generalize hb : raiseMod (dropTests (killAll (setDie s (n / 16) x) 1 (fun c => onUnit c (.move n))) (fun v => v == .move n)) (n / 16) 0x30 (unitCode (.move n)) k 0 = b at c
  have f := fenceDie_says (s := b) (d := n / 16) 8 (by
    have := congrArg Die.fenced (c.dies (n / 16)); rw [hg] at this; exact this.trans hx2)
  refine ⟨?_, ?_⟩
  · refine Steady.trans ?_ f.rest
    refine ⟨c.pending, c.time, c.memRegs, c.sessions, c.cfg, fun e => ?_⟩
    rw [getDie_setDie, getDie_setDie]
    by_cases q : n / 16 = e
    · rw [if_pos q, if_pos q]
      have k1 := c.dies (n / 16)
      have k1' := congrArg (fun (y : Die) => { y with up := false, fenced := true, cause := 8, paused := false }) k1
      exact k1'
    · rw [if_neg q, if_neg q]; exact c.dies e
  · rcases f.alive with a | a
    · exact Or.inl (a.trans c.power)
    · exact Or.inr a

theorem Meters.setMem {s b : State} (h : Meters s b) (r : List (Nat × MemRegs)) : Meters { s with memRegs := r } { b with memRegs := r } := by
  rw [h.form]
  constructor <;> rfl

/-- What a corrected error leaves while its granule has had fewer than two (R241, R243). -/
theorem correctedError_says {s : State} {a : Nat}
    (hl : ((getMemRegs s (dieOfAddr a)).ceLog.filter (fun e => e.1 == a / 65536 * 65536 && decide (s.time ≤ e.2 + 86400000000000))).length < 2) :
    ∃ m, Meters (setMemRegs s (dieOfAddr a) m) (correctedError s a) ∧ m.retired = (getMemRegs s (dieOfAddr a)).retired ∧
      m.hbmCe = (if isHbm a then ((getMemRegs s (dieOfAddr a)).hbmCe + 1) % 2 ^ 48 else (getMemRegs s (dieOfAddr a)).hbmCe) ∧
      m.bsnCe = (if isHbm a then (getMemRegs s (dieOfAddr a)).bsnCe else ((getMemRegs s (dieOfAddr a)).bsnCe + 1) % 2 ^ 48) ∧
      (a / 65536 * 65536, s.time) ∈ m.ceLog := by
  unfold correctedError
  dsimp only
  rw [if_neg (fun h => by omega)]
  refine ⟨_, fire_meters _ _ _ (Meters.refl _), ?_⟩
  split
  · exact ⟨rfl, rfl, rfl, List.mem_append_right _ (List.mem_singleton.mpr rfl)⟩
  · exact ⟨rfl, rfl, rfl, List.mem_append_right _ (List.mem_singleton.mpr rfl)⟩

end Sys2Proof.Machine
end

