-- ==== Sys2Proof/Laws/GrantLocks.lean ====
section
/-! SUPPORT. Locks that a range selects take one value. -/

namespace Sys2Proof.Machine

/-- Locks of a range that a test selects take a value. -/
theorem locks_foldl (P : Nat → Bool) (x : Lock) (f : State → Nat → State) (hf : ∀ w l, f w l = if P (getLock w l).job = true then setLock w l x else w)
    (ls : List Nat) (u : State) : ∀ l, getLock (ls.foldl f u) l = if l ∈ ls ∧ P (getLock u l).job = true then x else getLock u l := by
  induction ls generalizing u with
  | nil => intro l; simp
  | cons a ls ih =>
    intro l
    rw [List.foldl_cons, ih, hf]
    by_cases hp : P (getLock u a).job = true
    · simp only [hp, if_true, getLock_setLock]
      by_cases ha : a = l
      · subst ha; simp [hp]
      · simp [ha, Ne.symm ha]
    · simp only [hp]
      by_cases ha : a = l
      · subst ha; simp [hp]
      · simp [Ne.symm ha]

end Sys2Proof.Machine
end

