-- ==== Sys2Proof/Laws/Idle.lean ====
section
/-! SUPPORT. What goes on of itself moves neither device time nor the sessions (R122, R210, R219, R235, R241, R243, R336, R344). -/

namespace Sys2Proof.Machine

/-- Device time, the queue, the sessions and the configuration stand. -/
structure Timed (s t : State) : Prop where
  pending : t.pending = s.pending
  time : t.time = s.time
  sessions : t.sessions = s.sessions
  cfg : t.cfg = s.cfg

theorem Timed.refl (s : State) : Timed s s := ⟨rfl, rfl, rfl, rfl⟩

theorem Timed.trans {a b c : State} (h : Timed a b) (g : Timed b c) : Timed a c := ⟨g.1.trans h.1, g.2.trans h.2, g.3.trans h.3, g.4.trans h.4⟩

theorem Steady.timed {s t : State} (h : Steady s t) : Timed s t := ⟨h.pending, h.time, h.sessions, h.cfg⟩

theorem Carried.timed {s t : State} (h : Carried s t) : Timed s t := ⟨h.pending, h.time, h.sessions, h.cfg⟩

theorem Beside.timed {s t : State} (h : Beside s t) : Timed s t := ⟨h.pending, h.time, h.sessions, h.cfg⟩

theorem Timed.foldl {α : Type} {f : State → α → State} (l : List α) (hf : ∀ s x, Timed s (f s x)) (s : State) : Timed s (l.foldl f s) := by
  induction l generalizing s with
  | nil => exact Timed.refl s
  | cons a l ih => exact (hf s a).trans (ih _)

theorem fenceDie_timed (s : State) (d k : Nat) : Timed s (fenceDie s d k) := by
  cases h : (getDie s d).fenced
  · have := (fenceDie_says k h).rest
    exact Timed.trans (⟨rfl, rfl, rfl, rfl⟩ : Timed s (setDie s d _)) this.timed
  · rw [fenceDie_again k h]; exact Timed.refl s

theorem fenceFull_timed (s : State) (d : Nat) : Timed s (fenceFull s d) := by
  unfold fenceFull; split
  · exact fenceDie_timed _ _ _
  · exact Timed.refl s

theorem tickCmd_timed (s : State) (c : Cmd) : Timed s (tickCmd s c) := by
  unfold tickCmd; dsimp only
  split
  · exact ⟨rfl, rfl, rfl, rfl⟩
  · split <;> exact ⟨rfl, rfl, rfl, rfl⟩

theorem correctedError_timed (s : State) (a : Nat) : Timed s (correctedError s a) := by
  unfold correctedError
  extract_lets d g m near m1 m2 s1
  have h1 : Timed s s1 := Timed.trans (⟨rfl, rfl, rfl, rfl⟩ : Timed s (setMemRegs s d m2)) (fire_told _ _ _ (Told.refl _)).steady.timed
  split
  · refine h1.trans ?_
    unfold retire
    refine Timed.trans ?_ (fenceFull_timed _ _)
    rcases markRetired_told s1 a with h | h
    · exact Timed.trans (⟨rfl, rfl, rfl, rfl⟩ : Timed s1 (setMemRegs s1 (dieOfAddr a) _)) h.steady.timed
    · rw [h.1]; exact Timed.refl _
  · exact h1

theorem befall_timed (s : State) : Timed s (befall s) := by
  unfold befall
  extract_lets u s1
  have h1 : Timed s s1 := ⟨rfl, rfl, rfl, rfl⟩
  clear_value s1
  clear_value u
  split
  · split
    · exact h1.trans (correctedError_timed _ _)
    · exact h1
  · extract_lets p
    split
    · exact h1.trans ⟨rfl, rfl, rfl, rfl⟩
    · exact h1
  · split
    · refine h1.trans ?_
      unfold scratchError
      dsimp only
      split
      · exact ⟨rfl, rfl, rfl, rfl⟩
      · exact ⟨rfl, rfl, rfl, rfl⟩
    · exact h1
  · exact h1

theorem linkTick_timed (s : State) : Timed s (linkTick s) := by
  unfold linkTick
  extract_lets u s1
  have h1 : Timed s s1 := ⟨rfl, rfl, rfl, rfl⟩
  clear_value s1
  clear_value u
  split
  · extract_lets x
    split
    · exact h1.trans ⟨rfl, rfl, rfl, rfl⟩
    · exact h1
  · exact h1

theorem poundWatch_timed (s : State) (d : Nat) : Timed s (poundWatch s d) := by
  unfold poundWatch
  extract_lets m low b h s1
  have h1 : Timed s s1 := ⟨rfl, rfl, rfl, rfl⟩
  split
  · exact h1.trans (fire_told _ _ _ (Told.refl _)).steady.timed
  · exact h1

theorem poundWatches_timed (s : State) : Timed s (poundWatches s) := Timed.foldl _ poundWatch_timed s

theorem admitStaged_timed (s : State) : Timed s (admitStaged s) := by
  unfold admitStaged
  refine Timed.foldl _ (fun t i => ?_) _
  split
  · exact ⟨rfl, rfl, rfl, rfl⟩
  · next r _ =>
    split
    · exact ⟨rfl, rfl, rfl, rfl⟩
    · exact Timed.trans (⟨rfl, rfl, rfl, rfl⟩ : Timed t { t with remoteSt := t.remoteSt.set i { r with room := true } }) (send_carried _ _ (Carried.refl _)).timed

end Sys2Proof.Machine
end

