-- ==== Sys2Proof/Laws/Prefetch.lean ====
section
/-! SUPPORT. What prefetch schedules and promotions do (R218, R225 to R230). -/

namespace Sys2Proof.Machine

/-- Everything but commands, schedules and the counters of handles and starts is beside. -/
def Wide (s t : State) : Prop := Beside { s with pfs := t.pfs, cmds := t.cmds, nextId := t.nextId, serial := t.serial } t

theorem wide_of {s t : State} {a b n m} (h : Beside { s with pfs := a, cmds := b, nextId := n, serial := m } t) : Wide s t :=
  { h with pfs := rfl, nextId := rfl, serial := Nat.le_refl _, ids := rfl, same := fun _ hx => List.mem_map_of_mem hx }

theorem Wide.beside {s u t : State} (h : Wide s u) (g : Beside u t) : Wide s t := wide_of (Beside.trans h g)

theorem Wide.with {s u : State} (h : Wide s u) (a b n m) : Wide s { u with pfs := a, cmds := b, nextId := n, serial := m } :=
  { h with pfs := rfl, nextId := rfl, serial := Nat.le_refl _, ids := rfl, same := fun _ hx => List.mem_map_of_mem hx }

theorem wide_trans {s u t : State} (h : Wide s u) (g : Wide u t) : Wide s t :=
  wide_of (Beside.trans (h.with t.pfs t.cmds t.nextId t.serial) g)

theorem Wide.set {s u : State} (h : Wide s u) (b : List Cmd) : Wide s { u with cmds := b } := h.with u.pfs b u.nextId u.serial

theorem Wide.refl (s : State) : Wide s s := Beside.refl s

theorem putPf_beside {s u : State} (k : Nat) (p : PfSched) (h : Beside s u) : Beside { s with pfs := tput u.pfs k p } (putPf u k p) := by
  unfold putPf
  exact wrLocal_beside _ _ _ _ (wrLocal_beside _ _ _ _ (wrLocal_beside _ _ _ _ (h.pfs_set _)))

theorem putPf_pfs (u : State) (k : Nat) (p : PfSched) : (putPf u k p).pfs = tput u.pfs k p := rfl
theorem putPf_cmds (u : State) (k : Nat) (p : PfSched) : (putPf u k p).cmds = u.cmds := rfl
theorem putPf_objs (u : State) (k : Nat) (p : PfSched) : (putPf u k p).objs = u.objs := rfl

theorem pf_is {s u t : State} {k : Nat} {p : PfSched} (hb : Beside s u) (bt : Beside { s with pfs := tput u.pfs k p } t) : PfIs s t k p := by
  have e : t.pfs = tput u.pfs k p := bt.pfs
  exact ⟨by rw [e]; exact bt, by rw [e, tfind_tput, if_pos rfl], fun b hb' => by rw [e, tfind_tput, if_neg (Ne.symm hb'), hb.pfs]⟩

theorem pf_same {s t : State} {k : Nat} {p : PfSched} (bt : Beside s t) (h : tfind s.pfs k = some p) : PfIs s t k p := by
  have e : t.pfs = s.pfs := bt.pfs
  exact ⟨by rw [e]; exact bt, by rw [e]; exact h, fun b _ => by rw [e]⟩

theorem rdKey_plain (s : State) (h : s.keys = []) (key a n : Nat) : rdKey s key a n = memRead s.mem a n := by
  unfold rdKey; rw [h]; rfl

theorem pfEntry_congr {s w : State} (hc : w.cfg = s.cfg) (ho : w.objs = s.objs) :
    pfEntryOf w = pfEntryOf s ∧ pfEntryOk w = pfEntryOk s := by
  have h1 : pfEntryOf w = pfEntryOf s := by
    funext b; unfold pfEntryOf; rw [localise_congr (s := s) hc]
  refine ⟨h1, ?_⟩
  funext j d b
  unfold pfEntryOk findObj
  rw [h1, ho]
  simp only [structRangeBad, localise_congr (s := s) hc]

theorem pfOf_congr {s w : State} {c c' : Cmd} (hc : w.cfg = s.cfg) (ho : w.objs = s.objs) (hm : w.mem = s.mem) (hw : w.keys = []) (hs : s.keys = [])
    (hp : c'.pkt = c.pkt) (hr : c'.origin = c.origin) (g : GAddr) : pfOf w c' g = pfOf s c g := by
  unfold pfOf ctxOf
  simp only [rdKey_plain _ hw, rdKey_plain _ hs, hm, hp, hr, (pfEntry_congr hc ho).1, (pfEntry_congr hc ho).2]


theorem live_iff (s : State) (n : Nat) :
    ((match findJob s n with | some j => (match j.st with | .running | .trapped => true | _ => false) | none => false) = false) ↔
      ¬ ∃ j, findJob s n = some j ∧ (j.st = .running ∨ j.st = .trapped) := by
  cases h : findJob s n with
  | none => simp
  | some j => cases hj : j.st <;> simp [hj]

/-- What PREFETCH_ISSUE comes to when it issues. -/
theorem issue_is {s : State} {k : Nat} {p : PfSched} {x : PfEntry} (hp : tfind s.pfs k = some p) (hx : p.entries[p.cursor]? = some x) (hb : ¬ PfBlocked s p x) :
    ∃ p' w c0, Turned p p' ∧ p'.flying = p.flying ++ [(p.step, p.cursor)] ∧ p'.stalled = p.stalled ∧ Beside { s with pfs := tput s.pfs k p' } w ∧ w.objs = s.objs ∧ w.cmds = s.cmds ∧ w.poundQ = s.poundQ ∧
      c0.id = s.nextId ∧ c0.origin = .promotion k p.cursor ∧ Plain c0 ∧ c0.reserved = [] ∧ c0.phase = .waiting ∧
      execPrefetchIssue k s = .next (match findCmd (beginPrefetch (issueOwn w c0) c0 k p.cursor) c0.id, findObj (beginPrefetch (issueOwn w c0) c0 k p.cursor) x.object with
          | some c', some o => if (o.copy x.target).held then prefetchFin (beginPrefetch (issueOwn w c0) c0 k p.cursor) c' else beginPrefetch (issueOwn w c0) c0 k p.cursor
          | _, _ => beginPrefetch (issueOwn w c0) c0 k p.cursor) := by
  unfold execPrefetchIssue
  rw [hp]
  dsimp (zeta := false) only
  rw [hx]
  dsimp (zeta := false) only
  extract_lets gate live last p' s1 die s2 ses c0 s3
  have hc : ¬ (p.state ≠ 1 ∨ live = false ∨ (getLock s x.gate).count < gate ∨ p.lead ≤ p.flying.length) := by
    intro h
    refine hb ?_
    rcases h with h | h | h | h
    · exact .inl h
    · exact .inr (.inl ((live_iff s p.job).mp h))
    · exact .inr (.inr (.inl h))
    · exact .inr (.inr (.inr h))
  have hT : Turned p p' := by
    refine ⟨rfl, fun h => ?_, fun h => ?_⟩
    · exact ⟨if_pos h, if_pos h⟩
    · exact ⟨if_neg h, if_neg h⟩
  have b2 : Beside { s with pfs := tput s.pfs k p' } s2 := count_beside _ _ _ _ _ _ (putPf_beside k p' (Beside.refl s))
  refine ⟨p', s2, c0, hT, rfl, rfl, b2, ?_, ?_, ?_, ?_, rfl, ⟨rfl, rfl, rfl, rfl⟩, rfl, rfl, ?_⟩
  · exact (count_sameObjs _ _ _ _ _ _ (SameObjs.refl s1)).objs
  · exact (count_meters _ _ _ _ _ _ (Meters.refl s1)).cmds
  · exact (count_meters _ _ _ _ _ _ (Meters.refl s1)).poundQ
  · show s2.nextId = s.nextId
    exact b2.nextId
  · rw [if_neg hc]
    congr 1


theorem setCopy_other {o : ResObj} {c : Copy} {g t : Nat} (h : ¬ (g = 1 ↔ t = 1)) : (o.setCopy g c).copy t = o.copy t := by
  unfold ResObj.setCopy ResObj.copy
  by_cases x : g = 1 <;> by_cases y : t = 1 <;> simp_all

theorem setCopy_slot {o : ResObj} {c : Copy} {g t : Nat} (h : g = 1 ↔ t = 1) : (o.setCopy g c).copy t = c := by
  unfold ResObj.setCopy ResObj.copy
  by_cases x : g = 1 <;> by_cases y : t = 1 <;> simp_all

/-- The copy of an object at a tier is being promoted. -/
def Promoted (s : State) (d t : Nat) : Prop := ∃ o, findObj s d = some o ∧ (o.copy t).state = 1

theorem copy_slot {o : ResObj} {g t : Nat} (h : g = 1 ↔ t = 1) : o.copy g = o.copy t := by
  unfold ResObj.copy
  by_cases x : g = 1 <;> by_cases y : t = 1 <;> simp_all

/-- A copy that is being promoted stays so while others give way. -/
theorem removeCopy_promoted {w : State} {d t : Nat} (h : Promoted w d t) (b g : Nat) : Promoted (removeCopy w b g) d t := by
  obtain ⟨o, ho, h1⟩ := h
  by_cases hb : b = d
  · subst hb
    have p := removeCopy_puts (s := w) (w := w) ⟨ho, fun _ _ => rfl⟩ g
    refine ⟨_, p.here, ?_⟩
    by_cases h2 : (o.copy g).state ≠ 2 ∨ (g = 2 ∧ o.t1.state = 3)
    · rw [if_pos h2]; exact h1
    · rw [if_neg h2]
      have hg : ¬ (g = 1 ↔ t = 1) := fun e => h2 (.inl (by rw [copy_slot e, h1]; decide))
      split
      · rw [setCopy_other hg]; exact h1
      · split
        · unfold ResObj.leaving; rw [setCopy_other hg]; exact h1
        · rw [setCopy_other hg]; exact h1
  · cases hf : findObj w b with
    | none => unfold removeCopy; rw [hf]; exact ⟨o, ho, h1⟩
    | some o2 =>
      have p := removeCopy_puts (s := w) (w := w) ⟨hf, fun _ _ => rfl⟩ g
      exact ⟨o, by rw [p.others d (Ne.symm hb)]; exact ho, h1⟩

theorem moveCopy_promoted {w : State} {d t : Nat} (h : Promoted w d t) (b g n : Nat) : Promoted (moveCopy w b g n) d t := by
  obtain ⟨o, ho, h1⟩ := h
  unfold moveCopy
  cases hf : findObj w b with
  | none => exact ⟨o, ho, h1⟩
  | some o2 =>
    dsimp -zeta only
    extract_lets a bad s1
    have hp : ∀ x : State, x.objs = w.objs → ∀ o', Puts w (putObj x b o') b o' := fun x hx o' =>
      Puts.put (fun a _ => by unfold findObj; rw [hx]) o'
    have hs : ({ s1 with poison := s1.poison.filter (fun u => !(bad.contains u)) ++ bad.map (fun u => u + n - a) } : State).objs = w.objs :=
      show s1.objs = w.objs from rfl
    revert hs
    generalize ({ s1 with poison := s1.poison.filter (fun u => !(bad.contains u)) ++ bad.map (fun u => u + n - a) } : State) = y
    intro hs
    by_cases hb : b = d
    · subst hb
      rw [ho] at hf
      cases hf
      refine ⟨_, (hp y hs _).here, ?_⟩
      by_cases e : g = 1 ↔ t = 1
      · rw [setCopy_slot e]; exact (congrArg Copy.state (copy_slot e)).trans h1
      · rw [setCopy_other e]; exact h1
    · exact ⟨o, ((hp y hs _).others d (Ne.symm hb)).trans ho, h1⟩

theorem packFrom_promoted {d t : Nat} (l : List (Nat × Nat × Nat × Nat)) (n : Nat) (w : State) (h : Promoted w d t) : Promoted (packFrom n l w) d t := by
  induction l generalizing n w with
  | nil => exact h
  | cons x l ih =>
    obtain ⟨a, m, b, g⟩ := x
    unfold packFrom
    extract_lets fixed
    by_cases hc : (!fixed && decide (n < a)) = true
    · rw [if_pos hc]; exact ih _ _ (moveCopy_promoted h _ _ _)
    · rw [if_neg hc]; exact ih _ _ h

theorem packPool_promoted {w : State} {d t : Nat} (p : Nat) (h : Promoted w d t) : Promoted (packPool w p) d t := by
  unfold packPool
  split
  · exact h
  · exact packFrom_promoted _ _ _ h

theorem makeSpace_promoted {d t : Nat} (g : Nat) (o : ResObj) (n : Nat) (w : State) (h : Promoted w d t) : Promoted (makeSpace g o n w).1 d t := by
  induction n generalizing w with
  | zero => exact h
  | succ n ih =>
    unfold makeSpace
    dsimp only
    split
    · exact h
    · have h2 : Promoted (if o.size ≤ poolFree w (o.poolOf g) then packPool w (o.poolOf g) else w) d t := by
        by_cases hc : o.size ≤ poolFree w (o.poolOf g)
        · rw [if_pos hc]; exact packPool_promoted _ h
        · rw [if_neg hc]; exact h
      revert h2
      generalize (if o.size ≤ poolFree w (o.poolOf g) then packPool w (o.poolOf g) else w) = v
      intro h2
      split
      · exact h2
      · split
        · exact h2
        · split
          · exact h2
          · exact ih _ (removeCopy_promoted h2 _ _)

theorem placePromotion_promoted {w : State} {d t : Nat} (n : Nat) (h : Promoted w d t) : Promoted (placePromotion w d t n) d t := by
  unfold placePromotion
  split
  · exact h
  · split
    · exact h
    · dsimp only
      obtain ⟨o', ho', h1⟩ := makeSpace_promoted (d := d) (t := t) t _ _ w h
      split
      · next hs =>
        rw [ho'] at hs
        cases hs
        exact ⟨_, (Puts.put (fun _ _ => rfl) _).here, by rw [setCopy_copy]; exact h1⟩
      · exact ⟨o', ho', h1⟩

/-- A command of a schedule's promotion as it begins. -/
def promoRun (a : State) (c : Cmd) (aux : List Nat) (rs : List (Nat × Nat)) : Cmd :=
  { c with phase := .running, runs := c.runs + 1, started := a.time, aux := aux, reserved := rs }

/-- How a promotion of a schedule begins (R218, R220, R227, R237): of a copy that is there, it is pinned; of one under way, it waits with that; else
it runs once its pound has the room. -/
theorem begin_says {a : State} {c : Cmd} {k e : Nat} {p : PfSched} {x : PfEntry} {o : ResObj} (hp : tfind a.pfs k = some p) (hx : p.entries[e]? = some x)
    (ho : findObj a x.object = some o) (hj : o.job = p.job) (hl : o.poolOf x.target ≠ 0) :
    ((o.copy x.target).held = true → beginPrefetch a c k e = holdPromotion (putCmd a (promoRun a c [x.object, x.target] [])) x.object x.target) ∧
    ((o.copy x.target).held = false → (o.copy x.target).state = 1 →
      beginPrefetch a c k e = pinUse (putCmd a (promoRun a c [x.object, x.target] [])) x.object x.target) ∧
    ((o.copy x.target).held = false → (o.copy x.target).state ≠ 1 → resvTooBig a (promoNeed a o x.target) = false →
      (resvLacks a (promoNeed a o x.target) = true → beginPrefetch a c k e = a) ∧
      (resvLacks a (promoNeed a o x.target) = false → ∃ b, b = putCmd { a with serial := a.serial + 1 } (promoRun a c [x.object, x.target, a.serial] (promoNeed a o x.target)) ∧
        Beside b (beginPrefetch a c k e) ∧ (beginPrefetch a c k e).cmds = b.cmds ∧ Promoted (beginPrefetch a c k e) x.object x.target)) := by
  have form : beginPrefetch a c k e =
      if (o.copy x.target).held then holdPromotion (putCmd a (promoRun a c [x.object, x.target] [])) x.object x.target
      else if (o.copy x.target).state = 1 then pinUse (putCmd a (promoRun a c [x.object, x.target] [])) x.object x.target
      else if resvTooBig a (promoNeed a o x.target) then endCmd (pinUse a x.object x.target) c stBad badStruct
      else if resvLacks a (promoNeed a o x.target) then a
      else match findObj (startPromotion (putCmd { a with serial := a.serial + 1 } (promoRun a c [x.object, x.target, a.serial] (promoNeed a o x.target))) x.object x.target a.serial) x.object with
        | some o' => putObj (startPromotion (putCmd { a with serial := a.serial + 1 } (promoRun a c [x.object, x.target, a.serial] (promoNeed a o x.target))) x.object x.target a.serial) x.object
            (o'.setCopy x.target { o'.copy x.target with usePins := (o'.copy x.target).usePins + 1 })
        | none => startPromotion (putCmd { a with serial := a.serial + 1 } (promoRun a c [x.object, x.target, a.serial] (promoNeed a o x.target))) x.object x.target a.serial := by
    unfold beginPrefetch
    rw [hp]
    dsimp (zeta := false) only
    rw [hx]
    dsimp (zeta := false) only
    rw [ho]
    dsimp (zeta := false) only
    rw [if_neg (by rw [hj]; simp [hl])]
    rfl
  rw [form]
  refine ⟨fun h => if_pos h, fun h1 h2 => ?_, fun h1 h2 h3 => ⟨fun h4 => ?_, fun h4 => ⟨_, rfl, ?_⟩⟩⟩
  · rw [if_neg (by rw [h1]; decide), if_pos h2]
  · rw [if_neg (by rw [h1]; decide), if_neg h2, if_neg (by rw [h3]; decide), if_pos h4]
  · rw [if_neg (by rw [h1]; decide), if_neg h2, if_neg (by rw [h3]; decide), if_neg (by rw [h4]; decide)]
    generalize hb : putCmd { a with serial := a.serial + 1 } (promoRun a c [x.object, x.target, a.serial] (promoNeed a o x.target)) = b
    have hob : findObj b x.object = some o := by rw [← hb]; exact ho
    have b2 : Beside b (startPromotion b x.object x.target a.serial) := startPromotion_beside _ _ _ _ (Beside.refl b)
    have c2 := (startPromotion_sameCmds b x.object x.target a.serial (SameCmds.refl b)).cmds
    have p2 : Promoted (startPromotion b x.object x.target a.serial) x.object x.target := by
      unfold startPromotion
      rw [hob]
      exact placePromotion_promoted _ ⟨_, (Puts.put (fun _ _ => rfl) _).here, by rw [setCopy_copy]⟩
    obtain ⟨o2, f2, g2⟩ := p2
    rw [f2]
    dsimp only
    refine ⟨putObj_beside _ _ _ b2, (putObj_sameCmds _ _ _ (SameCmds.refl _)).cmds.trans c2, _, (Puts.put (fun _ _ => rfl) _).here, ?_⟩
    rw [setCopy_copy]; exact g2

/-- The pound space that a state has: what its staged work leaves. -/
theorem poundFree_congr {s a : State} (h1 : a.cfg = s.cfg) (h2 : a.poundQ = s.poundQ) (h3 : a.remoteSt = s.remoteSt) (h4 : a.objs = s.objs)
    (h5 : ∃ c : Cmd, a.cmds = s.cmds ++ [c] ∧ c.reserved = []) (d : Nat) (b : Bool) : poundFree a d b = poundFree s d b := by
  obtain ⟨c, hc, hr⟩ := h5
  unfold poundFree poundSize poundUsed wbGranules hbmPoundBytes basinPoundBytes
  simp only [h1, h2, h3, h4, hc, List.foldl_append, List.foldl_cons, List.foldl_nil, hr]

/-- An entry arrives: only its schedule changes beside locks and signals. -/
theorem arrive_says {s a : State} {k e : Nat} {p : PfSched} {x : PfEntry} (hb : Beside s a) (hp : tfind a.pfs k = some p) (hx : p.entries[e]? = some x) :
    ∃ n, Beside { s with pfs := tput a.pfs k { p with flying := p.flying.eraseP (fun y => y.2 == e), stalled := n } } (arrive a k e) ∧ SameObjs a (arrive a k e) := by
  unfold arrive
  rw [hp]
  dsimp (zeta := false) only
  rw [hx]
  dsimp (zeta := false) only
  extract_lets waits s1 s2 l s3
  have b1 : Beside { s with pfs := tput a.pfs k { p with flying := p.flying.eraseP (fun y => y.2 == e), stalled := p.stalled + b2n waits } } s1 := putPf_beside _ _ hb
  have b2 := Beside.ite (c := waits = true) (count_beside s1 (dieOfAddr (gaddrOf k).off) slotsDie 0x5D 1 (some (p.job, x.layer)) b1) b1
  have o1 : SameObjs a s1 := ⟨rfl⟩
  have o2 := SameObjs.ite (c := waits = true) (count_sameObjs s1 (dieOfAddr (gaddrOf k).off) slotsDie 0x5D 1 (some (p.job, x.layer)) o1) o1
  exact ⟨_, signalLock_beside _ _ _ _ _ _ (setLock_beside _ _ _ b2), signalLock_sameObjs _ _ _ _ _ _ (setLock_sameObjs _ _ _ o2)⟩

/-- The object at an address is what it was but for its STAMP. -/
def Stamped (s t : State) : Prop := ∀ d o, findObj s d = some o → ∃ n, findObj t d = some { o with stamp := n }

theorem Stamped.of {s t : State} (h : t.objs = s.objs) : Stamped s t := fun d o ho => ⟨o.stamp, by unfold findObj at *; rw [h]; exact ho⟩
theorem Stamped.trans {a b c : State} (h : Stamped a b) (g : Stamped b c) : Stamped a c := fun d o ho => by
  obtain ⟨n, hn⟩ := h d o ho
  obtain ⟨m, hm⟩ := g d _ hn
  exact ⟨m, hm⟩

theorem stampObj_stamped (s : State) (d : Nat) : Stamped s (stampObj s d) := by
  intro b o ho
  unfold stampObj
  cases h : findObj s d with
  | none => exact ⟨o.stamp, ho⟩
  | some o' =>
    dsimp only
    have p : Puts s (putObj s d { o' with stamp := s.time }) d { o' with stamp := s.time } := Puts.put (fun _ _ => rfl) _
    by_cases e : b = d
    · subst e
      rw [ho] at h
      cases h
      exact ⟨s.time, p.here⟩
    · exact ⟨o.stamp, (p.others b e).trans ho⟩

/-- The commit of a promotion that a schedule issued. -/
theorem fin_says {B : State} {z : Cmd} {k e : Nat} {p : PfSched} {x : PfEntry} (ho : z.origin = .promotion k e) (hpl : Plain z)
    (hp : tfind B.pfs k = some p) (hx : p.entries[e]? = some x) (hz : z.self ∈ B.cmds.map Cmd.self) :
    ∃ p', Wide B (prefetchFin B z) ∧ (∀ b, b ≠ k → tfind (prefetchFin B z).pfs b = tfind B.pfs b) ∧ tfind (prefetchFin B z).pfs k = some p' ∧
      { p' with stalled := p.stalled } = { p with flying := p.flying.eraseP (fun y => y.2 == e) } ∧ (∀ y ∈ (prefetchFin B z).cmds, y.id ≠ z.id) ∧
      Stamped B (prefetchFin B z) := by
  let z' : Cmd := { z with phase := .staged }
  let eff : State → Cmd → State := fun s c => arrive (promoSignal (stampObj s (c.aux.getD 0 0)) (c.aux.getD 0 0)) k e
  have hform : prefetchFin B z = commitWith eff B z' := by
    unfold prefetchFin
    split
    · next h => rw [ho] at h; cases h; rfl
    · next h => exact absurd ho (h _ _)
  obtain ⟨u, v, b1, b2, -, -, ob, -, -, ec⟩ := commitWith_all eff B B z' (Beside.refl B) hz
  obtain ⟨hw, hout, hpi, ht⟩ := hpl
  obtain ⟨o1, o2⟩ := ob.1 ⟨hw, hout, hpi, .inl ht⟩
  generalize hm : promoSignal (stampObj u (z.aux.getD 0 0)) (z.aux.getD 0 0) = m at *
  have bm : Beside B m := by rw [← hm]; exact promoSignal_beside _ _ (stampObj_beside _ _ b1)
  have sm : Stamped u m := by
    rw [← hm]
    refine (stampObj_stamped u (z.aux.getD 0 0)).trans (Stamped.of ?_)
    unfold promoSignal; split
    · exact (signalLock_sameObjs _ _ _ _ _ _ (SameObjs.refl _)).objs
    · rfl
  obtain ⟨n, ba, oa⟩ := arrive_says bm (by rw [bm.pfs]; exact hp) hx
  have ee : eff u (atCommit B z') = arrive m k e := by rw [← hm]; rfl
  rw [ee] at b2 o2
  have bv := ba.trans b2
  have e2 : prefetchFin B z = dropCmd (publishWrites v (jobKey B z.sess z.pkt.job) []) z.id := by
    rw [hform, ec]
    have hw0 : z'.writes.filter (fun w => w.tgt.tier == 5) = [] := by show List.filter _ z.writes = []; rw [hw]; rfl
    unfold recorded
    rw [show z'.origin = .promotion k e from ho, hw0]
  have ev : Wide B (dropCmd (publishWrites v (jobKey B z.sess z.pkt.job) []) z.id) := by
    have w1 : Wide B v := by
      have w0 : Beside { B with pfs := v.pfs, cmds := B.cmds, nextId := B.nextId, serial := B.serial } v := by rw [bv.pfs]; exact bv
      exact wide_of w0
    exact ((w1.beside (publishWrites_beside v (jobKey B z.sess z.pkt.job) [] (Beside.refl v))).set _).beside (Beside.set (Beside.refl _) : Beside { publishWrites v (jobKey B z.sess z.pkt.job) [] with
      cmds := (publishWrites v (jobKey B z.sess z.pkt.job) []).cmds.filter (fun y => !(y.id == z.id)) } _)
  have epf : (dropCmd (publishWrites v (jobKey B z.sess z.pkt.job) []) z.id).pfs = tput m.pfs k { p with flying := p.flying.eraseP (fun y => y.2 == e), stalled := n } := bv.pfs
  rw [e2]
  refine ⟨{ p with flying := p.flying.eraseP (fun y => y.2 == e), stalled := n }, ev, fun b hb => ?_, ?_, rfl, fun y hy => ?_, ?_⟩
  · rw [epf, tfind_tput, if_neg (Ne.symm hb), bm.pfs]
  · rw [epf, tfind_tput, if_pos rfl]
  · have := List.mem_filter.mp hy
    simpa using this.2
  · exact (Stamped.of o1.objs).trans (sm.trans (Stamped.of (show v.objs = m.objs from o2.objs.trans oa.objs)))

/-- A promotion that commits leaves its copy resident, unless an eviction of it was pending. -/
theorem endPromotion_resident {w : State} {d t : Nat} {o : ResObj} (bs : List Byte) (h : findObj w d = some o) (hp : (o.copy t).pending = false) :
    ∃ o', findObj (endPromotion w d t bs) d = some o' ∧ (o'.copy t).state = 2 := by
  unfold endPromotion
  rw [h]
  dsimp only
  have hp2 : ∀ x : State, ∀ o', findObj (putObj x d o') d = some o' := fun x o' => (Puts.put (s := x) (fun _ _ => rfl) o').here
  unfold unpinUse
  rw [hp2]
  dsimp only
  have e : ∀ (k : Copy) (n : Nat), (({ o.setCopy t k with stamp := n } : ResObj).copy t) = k := by
    intro k n; unfold ResObj.setCopy ResObj.copy; by_cases x : t = 1 <;> simp only [x, if_true, if_false]
  rw [if_neg (by rw [e]; simp [hp])]
  exact ⟨_, (Puts.put (fun _ _ => rfl) _).here, by rw [setCopy_copy, e]⟩

end Sys2Proof.Machine
end

