-- ==== Sys2Proof/Laws/Jobs.lean ====
section
/-! SUPPORT. What job commands do, and what a kill leaves (R278, R292 to R298). -/

namespace Sys2Proof.Machine

theorem structRangeBad_congr {s w : State} (hc : w.cfg = s.cfg) : structRangeBad w = structRangeBad s := by
  funext a b c d e; unfold structRangeBad; rw [localise_congr (s := s) hc]

theorem accessDenied_congr {s w : State} {c c' : Cmd} (hc : w.cfg = s.cfg) (hb : w.bufs = s.bufs) (hl : w.loans = s.loans) (hp : w.pools = s.pools)
    (hk : c'.pkt = c.pkt) (hs : c'.sess = c.sess) (ho : c'.origin = c.origin) (g : GAddr) (n : Nat) (x : Bool) :
    accessDenied w c' g n x true = accessDenied s c g n x true := by
  unfold accessDenied hostAllowed inPool loanCuts ctxOf
  rw [localise_congr (s := s) hc, hb, hl, hp, hk, hs, ho]
  simp only [Bool.true_or]
  unfold inPound dumpBase basinPoundBase hbmPoundBase basinPoundBytes hbmPoundBytes
  simp only [hc]

theorem rdStruct_plain {s w : State} {c c' : Cmd} (hc : w.cfg = s.cfg) (hm : w.mem = s.mem) (hh : w.host = s.host) (hw : w.keys = []) (hs : s.keys = [])
    (ho : w.objs = s.objs) (g : GAddr) (n : Nat) : rdStruct w c' g n = rdStruct s c g n := by
  unfold rdStruct moduleRead served objAt
  dsimp only
  rw [localise_congr (s := s) hc, hh, ho, rdKey_plain _ hw, rdKey_plain _ hs, hm]

theorem jobOf_congr {s w : State} {c c' : Cmd} (hc : w.cfg = s.cfg) (hb : w.bufs = s.bufs) (hl : w.loans = s.loans) (hp : w.pools = s.pools)
    (hj : w.jobs = s.jobs) (ho : w.objs = s.objs) (hr : w.memRegs = s.memRegs) (hss : w.sessions = s.sessions)
    (hm : w.mem = s.mem) (hh : w.host = s.host) (hw : w.keys = []) (hs : s.keys = [])
    (hk : c'.pkt = c.pkt) (hse : c'.sess = c.sess) (hor : c'.origin = c.origin) (bs : List Byte) : jobOf w c' bs = jobOf s c bs := by
  unfold jobOf tableBad
  simp only [structRangeBad_congr hc, accessDenied_congr hc hb hl hp hk hse hor, rdStruct_plain hc hm hh hw hs (c := c) (c' := c') ho, hk, hse, hj]
  unfold findObj findJob getMemRegs getSes
  simp only [ho, hj, hr, hss, localise_congr (s := s) hc]

theorem Beside.jobs3_set {s u : State} (h : Beside s u) (a b d) : Beside { s with jobs := a, ctxs := b, counts := d } { u with jobs := a, ctxs := b, counts := d } :=
  { h with jobs := rfl, ctxs := rfl, counts := rfl }

theorem requeueRe_beside {s a : State} (c : Cmd) (h : Beside s a) : Beside s (requeueRe a c) := by
  unfold requeueRe
  exact Beside.ite h (Beside.set h)

/-- What a command kept beside its kill. -/
theorem killCmd_beside {s a : State} (c : Cmd) (k : Nat) (hc : c.self ∈ s.cmds.map Cmd.self) (h : Beside s a) : Beside s (killCmd a c k) := by
  unfold killCmd
  extract_lets st r s1 c1 s2 s3 s4 s5 s6 c0 c2 s7 l s8 k8 s9
  have b0 : Beside s r.1 := by
    show Beside s (if c.parked then endStall a c else (a, c)).1
    split
    · exact endStall_beside _ _ h
    · exact h
  have e1 : c1.self = c.self := by
    show (if c.parked then endStall a c else (a, c)).2.self = c.self
    split
    · exact endStall_self _ _
    · rfl
  have b1 : Beside s s1 := releaseRun_beside _ _ b0
  have b2 : Beside s s2 := by
    show Beside s (match setTarget c1 with | some l => settleSetters (leaveQueue s1 l c1.id) l | none => s1)
    split
    · exact settleSetters_beside _ _ (leaveQueue_beside _ _ _ b1)
    · exact b1
  have b3 : Beside s s3 := Beside.ite (traceRec_beside _ _ _ b2) b2
  have b4 : Beside s s4 := Beside.ite (drift_beside _ _ (jobCount_beside _ _ _ _ _ _ b3)) b3
  have b5 : Beside s s5 := by
    show Beside s (match c1.place with | some p => _ | none => s4)
    split
    · exact Beside.ite (count_beside _ _ _ _ _ _ b4) b4
    · exact b4
  have b6 : Beside s s6 := seqAttn_beside _ _ b5
  have e2 : c2.self ∈ s.cmds.map Cmd.self := by
    have : c2.self = c1.self := rfl
    rw [this, e1]; exact hc
  have b7 : Beside s s7 := requeueRe_beside _ (putCmd_beside _ _ e2 b6)
  refine Beside.ite b7 ?_
  have b8 : Beside s s8 := Beside.ite (returnClaim_beside _ _ _ b7) b7
  have b9 : Beside s s9 := reclaim_beside _ _ (setLock_beside _ _ _ b8)
  split
  · rename_i x hx
    refine putCmd_beside _ _ ?_ b9
    have : (beginArrivalStall s9 x).self = x.self := by unfold beginArrivalStall; split <;> rfl
    rw [this]
    exact b9.same x (List.mem_of_find?_eq_some hx)
  · exact b9

theorem killAll_beside {s a : State} (k : Nat) (p : Cmd → Bool) (h : Beside s a) : Beside s (killAll a k p) := by
  unfold killAll
  refine Beside.foldl _ h fun t i g => ?_
  split
  · rename_i x hx
    exact killCmd_beside _ _ (g.same x (List.mem_of_find?_eq_some hx)) g
  · exact g

end Sys2Proof.Machine
end

