-- ==== Sys2Proof/Laws/KeepsOps.lean ====
section
/-! SUPPORT. What each operation keeps (Laws/Keeps), in the order in which they call one another: part one. -/

set_option linter.unusedVariables false

namespace Sys2Proof.Machine

theorem syncPool_keeps {s : State} (a0 : State) (a1 : ℕ) (h0 : Keeps s a0) : Keeps s (syncPool a0 a1) := by
  delta syncPool
  split
  · assumption
  · extract_lets v0 v1
    clear_value v0 v1
    apply wrLocal_keeps
    apply wrLocal_keeps
    assumption

theorem putObj_keeps {s : State} (a0 : State) (a1 : ℕ) (a2 : ResObj) (h0 : Keeps s a0) : Keeps s (putObj a0 a1 a2) := by
  delta putObj
  extract_lets v0 v1 v2 v3 v4
  have k5 : Keeps s v0 := by
    unfold v0
    refine Keeps.set ?_
    assumption
  clear_value v0
  clear_value v1
  have k6 : Keeps s v2 := by
    unfold v2
    apply wrLocal_keeps
    assumption
  clear_value v2
  have k7 : Keeps s v3 := by
    unfold v3
    apply wrLocal_keeps
    assumption
  clear_value v3
  have k8 : Keeps s v4 := by
    unfold v4
    apply wrLocal_keeps
    assumption
  clear_value v4
  apply syncPool_keeps
  apply syncPool_keeps
  assumption

theorem setCnt_keeps {s : State} (a0 : State) (a1 : ℕ) (a2 : CntBlock) (h0 : Keeps s a0) : Keeps s (setCnt a0 a1 a2) := by
  delta setCnt
  refine Keeps.set ?_
  assumption

theorem setSic_keeps {s : State} (a0 : State) (a1 : ℕ) (a2 : Sic) (h0 : Keeps s a0) : Keeps s (setSic a0 a1 a2) := by
  delta setSic
  refine Keeps.set ?_
  assumption

theorem fire_keeps {s : State} (a0 : State) (a1 : ℕ) (a2 : ℕ) (h0 : Keeps s a0) : Keeps s (fire a0 a1 a2) := by
  delta fire
  refine Keeps.ite ?_ ?_
  · assumption
  · apply setSic_keeps
    assumption

theorem count_keeps {s : State} (a0 : State) (a1 : ℕ) (a2 : ℕ × ℕ) (a3 : ℕ) (a4 : ℕ) (a5 : Option (ℕ × ℕ)) (h0 : Keeps s a0) : Keeps s (count a0 a1 a2 a3 a4 a5) := by
  delta count
  refine Keeps.ite ?_ ?_
  · assumption
  · extract_lets v0 v1 v2
    clear_value v0 v1
    have k3 : Keeps s v2 := by
      unfold v2
      apply setCnt_keeps
      assumption
    clear_value v2
    refine Keeps.ite ?_ ?_
    · assumption
    · apply fire_keeps
      assumption

theorem setPort_keeps {s : State} (a0 : State) (a1 : ℕ) (a2 : Port) (h0 : Keeps s a0) : Keeps s (setPort a0 a1 a2) := by
  delta setPort
  refine Keeps.set ?_
  assumption

theorem setTrace_keeps {s : State} (a0 : State) (a1 : ℕ) (a2 : Trace) (h0 : Keeps s a0) : Keeps s (setTrace a0 a1 a2) := by
  delta setTrace
  refine Keeps.set ?_
  assumption

theorem trPut_keeps {s : State} (a0 : State) (a1 : Trace) (a2 : ℕ) (a3 : List Byte) (h0 : Keeps s a0) : Keeps s (trPut a0 a1 a2 a3) := by
  delta trPut
  extract_lets v0
  clear_value v0
  split
  · assumption
  · refine Keeps.ite ?_ ?_
    · apply wrLocal_keeps
      assumption
    · assumption

theorem traceRec_keeps {s : State} (a0 : State) (a1 : ℕ) (a2 : TrRec) (h0 : Keeps s a0) : Keeps s (traceRec a0 a1 a2) := by
  delta traceRec
  extract_lets v0 v1 v2 v3 v4 v5 v6 v7 v8 v9 v10 v11 v12 v13 v14 v15 v16 v17 v18 v19 v20 v21 v22
  clear_value v0 v1 v2 v3 v4 v5 v6
  have k23 : Keeps s v7 := by
    unfold v7
    apply trPut_keeps
    assumption
  clear_value v7
  clear_value v8 v9 v10 v11 v12 v13 v14 v15
  have k24 : Keeps s v16.1 := by
    unfold v16
    split
    · dsimp only
      apply fire_keeps
      assumption
    · split
      · dsimp only
        apply trPut_keeps
        assumption
      · dsimp only
        assumption
  clear_value v16
  have k25 : Keeps s v17 := by
    unfold v17
    assumption
  clear_value v17
  clear_value v18 v19 v20 v21
  have k26 : Keeps s v22 := by
    unfold v22
    apply count_keeps
    assumption
  clear_value v22
  refine Keeps.ite ?_ ?_
  · assumption
  · refine Keeps.ite ?_ ?_
    · apply fire_keeps
      apply setTrace_keeps
      assumption
    · apply setTrace_keeps
      assumption

theorem transmit_keeps {s : State} (a0 : State) (a1 : ℕ) (a2 : Msg) (h0 : Keeps s a0) : Keeps s (transmit a0 a1 a2) := by
  delta transmit
  extract_lets v0 v1 v2 v3
  have k4 : Keeps s v0 := by
    unfold v0
    apply traceRec_keeps
    assumption
  clear_value v0
  have k5 : Keeps s v1 := by
    unfold v1
    refine Keeps.ite ?_ ?_
    · apply count_keeps
      assumption
    · assumption
  clear_value v1
  clear_value v2 v3
  apply setPort_keeps
  refine Keeps.set ?_
  assumption

theorem offer_keeps {s : State} (a0 : State) (a1 : Msg) (h0 : Keeps s a0) : Keeps s (offer a0 a1) := by
  delta offer
  refine Keeps.ite ?_ ?_
  · refine Keeps.set ?_
    assumption
  · split
    · apply transmit_keeps
      assumption
    · refine Keeps.set ?_
      assumption

theorem countPaced_keeps {s : State} (a0 : State) (a1 : Msg) (h0 : Keeps s a0) : Keeps s (countPaced a0 a1) := by
  delta countPaced
  split
  · refine Keeps.ite ?_ ?_
    · apply setPort_keeps
      assumption
    · assumption
  · assumption

theorem send_keeps {s : State} (a0 : State) (a1 : Msg) (h0 : Keeps s a0) : Keeps s (send a0 a1) := by
  delta send
  refine Keeps.ite ?_ ?_
  · assumption
  · extract_lets v0 v1 v2 v3 v4
    clear_value v0 v1 v2 v3
    have k5 : Keeps s v4 := by
      unfold v4
      refine Keeps.set ?_
      assumption
    clear_value v4
    apply offer_keeps
    apply countPaced_keeps
    assumption

theorem sendWb_keeps {s : State} (a0 : State) (a1 : ResObj) (a2 : ℕ) (a3 : ℕ) (a4 : ℕ) (a5 : ℕ) (a6 : List ℕ) (a7 : List Byte) (h0 : Keeps s a0) : Keeps s (sendWb a0 a1 a2 a3 a4 a5 a6 a7) := by
  delta sendWb
  apply send_keeps
  assumption

theorem stageWb_keeps {s : State} (a0 : State) (a1 : ℕ) (a2 : ℕ) (a3 : ℕ) (h0 : Keeps s a0) : Keeps s (stageWb a0 a1 a2 a3) := by
  delta stageWb
  split
  · assumption
  · refine Keeps.ite ?_ ?_
    · extract_lets v0 v1
      have k2 : Keeps s v0 := by
        unfold v0
        split
        · refine Keeps.foldl _ ?_ (fun t3 b3 h3 => ?_)
          · assumption
          · apply sendWb_keeps
            assumption
        · assumption
      clear_value v0
      clear_value v1
      apply putObj_keeps
      assumption
    · apply putObj_keeps
      assumption

theorem setMemRegs_keeps {s : State} (a0 : State) (a1 : ℕ) (a2 : MemRegs) (h0 : Keeps s a0) : Keeps s (setMemRegs a0 a1 a2) := by
  delta setMemRegs
  refine Keeps.set ?_
  assumption

theorem fireMsix_keeps {s : State} (a0 : State) (a1 : ℕ) (h0 : Keeps s a0) : Keeps s (fireMsix a0 a1) := by
  delta fireMsix
  refine Keeps.ite ?_ ?_
  · refine Keeps.set ?_
    assumption
  · assumption

theorem deliver_keeps {s : State} (a0 : State) (a1 : Event) (a2 : Option ℕ) (h0 : Keeps s a0) : Keeps s (deliver a0 a1 a2) := by
  delta deliver
  extract_lets v0 v1 v2 v3 v4 v5
  clear_value v0
  have k6 : Keeps s v1.1 := by
    unfold v1
    split
    · dsimp only
      assumption
    · extract_lets v7
      clear_value v7
      dsimp only
      refine Keeps.set ?_
      assumption
  clear_value v1
  clear_value v2 v3
  have k8 : Keeps s v4 := by
    unfold v4
    assumption
  clear_value v4
  have k9 : Keeps s v5.1 := by
    unfold v5
    split
    · dsimp only
      refine Keeps.set ?_
      assumption
    · assumption
  clear_value v5
  refine Keeps.ite ?_ ?_
  · apply fireMsix_keeps
    assumption
  · assumption

theorem setDie_keeps {s : State} (a0 : State) (a1 : ℕ) (a2 : Die) (h0 : Keeps s a0) : Keeps s (setDie a0 a1 a2) := by
  delta setDie
  refine Keeps.set ?_
  assumption

theorem raiseOp_keeps {s : State} (a0 : State) (a1 : Option (ℕ × ℕ)) (a2 : ℕ) (a3 : ℕ) (a4 : ℕ) (a5 : Bool) (a6 : Option ℕ) (a7 : ℕ) (a8 : ℕ) (a9 : ℕ) (a10 : ℕ) (a11 : ℕ) (a12 : ℕ) (h0 : Keeps s a0) : Keeps s (raiseOp a0 a1 a2 a3 a4 a5 a6 a7 a8 a9 a10 a11 a12) := by
  delta raiseOp
  extract_lets v0 v1 v2 v3 v4 v5 v6 v7
  clear_value v0 v1 v2
  have k8 : Keeps s v3 := by
    unfold v3
    apply setDie_keeps
    assumption
  clear_value v3
  have k9 : Keeps s v4 := by
    unfold v4
    apply count_keeps
    assumption
  clear_value v4
  have k10 : Keeps s v5 := by
    unfold v5
    apply traceRec_keeps
    assumption
  clear_value v5
  have k11 : Keeps s v6 := by
    unfold v6
    apply fire_keeps
    assumption
  clear_value v6
  clear_value v7
  refine Keeps.ite ?_ ?_
  · refine Keeps.set ?_
    assumption
  · apply deliver_keeps
    assumption

theorem raiseFor_keeps {s : State} (a0 : State) (a1 : ℕ) (a2 : ℕ) (a3 : Bool) (a4 : Option ℕ) (a5 : ℕ) (a6 : ℕ) (a7 : ℕ) (a8 : ℕ) (a9 : ℕ) (a10 : ℕ) (h0 : Keeps s a0) : Keeps s (raiseFor a0 a1 a2 a3 a4 a5 a6 a7 a8 a9 a10) := by
  delta raiseFor
  apply raiseOp_keeps
  assumption

theorem raise_keeps {s : State} (a0 : State) (a1 : ℕ) (a2 : ℕ) (a3 : ℕ) (a4 : ℕ) (a5 : ℕ) (a6 : ℕ) (a7 : ℕ) (a8 : ℕ) (h0 : Keeps s a0) : Keeps s (raise a0 a1 a2 a3 a4 a5 a6 a7 a8) := by
  delta raise
  apply raiseFor_keeps
  assumption

theorem raiseMod_keeps {s : State} (a0 : State) (a1 : ℕ) (a2 : ℕ) (a3 : ℕ) (a4 : ℕ) (a5 : ℕ) (h0 : Keeps s a0) : Keeps s (raiseMod a0 a1 a2 a3 a4 a5) := by
  delta raiseMod
  apply raise_keeps
  assumption

theorem markRetired_keeps {s : State} (a0 : State) (a1 : ℕ) (h0 : Keeps s a0) : Keeps s (markRetired a0 a1) := by
  delta markRetired
  extract_lets v0 v1 v2 v3
  clear_value v0 v1 v2 v3
  refine Keeps.ite ?_ ?_
  · assumption
  · apply raiseMod_keeps
    apply setMemRegs_keeps
    assumption

theorem memError_keeps {s : State} (a0 : State) (a1 : ℕ) (a2 : ℕ) (a3 : ℕ) (a4 : ℕ) (a5 : ℕ) (a6 : Option ℕ) (a7 : ℕ) (h0 : Keeps s a0) : Keeps s (memError a0 a1 a2 a3 a4 a5 a6 a7) := by
  delta memError
  extract_lets v0 v1 v2 v3 v4
  clear_value v0 v1
  have k5 : Keeps s v2 := by
    unfold v2
    apply setMemRegs_keeps
    assumption
  clear_value v2
  have k6 : Keeps s v3 := by
    unfold v3
    refine Keeps.ite ?_ ?_
    · apply fire_keeps
      assumption
    · assumption
  clear_value v3
  have k7 : Keeps s v4 := by
    unfold v4
    apply raiseFor_keeps
    assumption
  clear_value v4
  refine Keeps.ite ?_ ?_
  · apply markRetired_keeps
    assumption
  · assumption

theorem clearCopy_keeps {s : State} (a0 : State) (a1 : ℕ) (a2 : ℕ) (h0 : Keeps s a0) : Keeps s (clearCopy a0 a1 a2) := by
  delta clearCopy
  split
  · assumption
  · apply putObj_keeps
    apply count_keeps
    assumption

theorem removeCopy_keeps {s : State} (a0 : State) (a1 : ℕ) (a2 : ℕ) (h0 : Keeps s a0) : Keeps s (removeCopy a0 a1 a2) := by
  delta removeCopy
  split
  · assumption
  · extract_lets v0 v1
    clear_value v0
    have k2 : Keeps s v1 := by
      unfold v1
      split
      · apply memError_keeps
        assumption
      · assumption
    clear_value v1
    refine Keeps.ite ?_ ?_
    · assumption
    · refine Keeps.ite ?_ ?_
      · apply clearCopy_keeps
        assumption
      · split
        · apply putObj_keeps
          assumption
        · apply stageWb_keeps
          refine Keeps.set ?_
          assumption

theorem unpinUse_keeps {s : State} (a0 : State) (a1 : ℕ) (a2 : ℕ) (h0 : Keeps s a0) : Keeps s (unpinUse a0 a1 a2) := by
  delta unpinUse
  split
  · assumption
  · extract_lets v0 v1 v2
    clear_value v0 v1
    have k3 : Keeps s v2 := by
      unfold v2
      apply putObj_keeps
      assumption
    clear_value v2
    refine Keeps.ite ?_ ?_
    · apply removeCopy_keeps
      assumption
    · assumption

theorem dropPromotion_keeps {s : State} (a0 : State) (a1 : ℕ) (a2 : ℕ) (h0 : Keeps s a0) : Keeps s (dropPromotion a0 a1 a2) := by
  delta dropPromotion
  split
  · assumption
  · refine Keeps.ite ?_ ?_
    · apply putObj_keeps
      assumption
    · assumption

theorem sendCmd_keeps {s : State} (a0 : State) (a1 : Cmd) (a2 : ℕ) (a3 : ℕ) (a4 : ℕ) (a5 : List ℕ) (a6 : List Byte) (h0 : Keeps s a0) : Keeps s (sendCmd a0 a1 a2 a3 a4 a5 a6) := by
  delta sendCmd
  apply send_keeps
  assumption

theorem dropQueued_keeps {s : State} (a0 : State) (a1 : Cmd) (h0 : Keeps s a0) : Keeps s (dropQueued a0 a1) := by
  delta dropQueued
  refine Keeps.set ?_
  assumption

theorem releaseRun_keeps {s : State} (a0 : State) (a1 : Cmd) (h0 : Keeps s a0) : Keeps s (releaseRun a0 a1) := by
  delta releaseRun
  extract_lets v0 v1 v2
  have k3 : Keeps s v0 := by
    unfold v0
    refine Keeps.ite ?_ ?_
    · apply dropQueued_keeps
      assumption
    · assumption
  clear_value v0
  have k4 : Keeps s v1 := by
    unfold v1
    refine Keeps.foldl _ ?_ (fun t5 b5 h5 => ?_)
    · assumption
    · apply unpinUse_keeps
      assumption
  clear_value v1
  have k6 : Keeps s v2 := by
    unfold v2
    refine Keeps.ite ?_ ?_
    · apply dropPromotion_keeps
      assumption
    · assumption
  clear_value v2
  refine Keeps.foldl _ ?_ (fun t7 b7 h7 => ?_)
  · assumption
  · apply sendCmd_keeps
    assumption

theorem jobCount_keeps {s : State} (a0 : State) (a1 : ℕ) (a2 : ℕ) (a3 : ℕ) (a4 : ℕ) (a5 : ℕ) (h0 : Keeps s a0) : Keeps s (jobCount a0 a1 a2 a3 a4 a5) := by
  delta jobCount
  split
  · assumption
  · extract_lets v0 v1 v2 v3
    clear_value v0 v1 v2 v3
    refine Keeps.ite ?_ ?_
    · refine Keeps.ite ?_ ?_
      · apply wrHost_keeps
        assumption
      · assumption
    · apply wrLocal_keeps
      assumption

theorem endStall_keeps {s : State} (a0 : State) (a1 : Cmd) (h0 : Keeps s a0) : Keeps s (endStall a0 a1).1 := by
  delta endStall
  split
  · dsimp only
    assumption
  · extract_lets v0 v1 v2 v3 v4
    clear_value v0
    have k5 : Keeps s v1 := by
      unfold v1
      apply jobCount_keeps
      assumption
    clear_value v1
    have k6 : Keeps s v2 := by
      unfold v2
      refine Keeps.ite ?_ ?_
      · assumption
      · apply jobCount_keeps
        assumption
    clear_value v2
    clear_value v3
    have k7 : Keeps s v4 := by
      unfold v4
      apply traceRec_keeps
      assumption
    clear_value v4
    dsimp only
    assumption

theorem engineDone_keeps {s : State} (a0 : State) (a1 : Cmd) (h0 : Keeps s a0) : Keeps s (engineDone a0 a1) := by
  delta engineDone
  split
  · refine Keeps.ite ?_ ?_
    · apply fire_keeps
      assumption
    · refine Keeps.ite ?_ ?_
      · apply fire_keeps
        assumption
      · refine Keeps.ite ?_ ?_
        · apply fire_keeps
          assumption
        · assumption
  · assumption

theorem seqAttn_keeps {s : State} (a0 : State) (a1 : Cmd) (h0 : Keeps s a0) : Keeps s (seqAttn a0 a1) := by
  delta seqAttn
  split
  · refine Keeps.ite ?_ ?_
    · apply fire_keeps
      assumption
    · assumption
  · assumption

theorem drift_keeps {s : State} (a0 : State) (a1 : Option (ℕ × ℕ)) (h0 : Keeps s a0) : Keeps s (drift a0 a1) := by
  delta drift
  refine Keeps.foldl _ ?_ (fun t0 b0 h0 => ?_)
  · assumption
  · refine Keeps.foldl _ ?_ (fun t1 b1 h1 => ?_)
    · assumption
    · extract_lets v2
      clear_value v2
      refine Keeps.ite ?_ ?_
      · apply count_keeps
        refine Keeps.set ?_
        assumption
      · assumption

theorem dropCmd_keeps {s : State} (a0 : State) (a1 : ℕ) (h0 : Keeps s a0) : Keeps s (dropCmd a0 a1) := by
  delta dropCmd
  refine Keeps.set ?_
  assumption

theorem setRing_keeps {s : State} (a0 : State) (a1 : ℕ) (a2 : Ring) (h0 : Keeps s a0) : Keeps s (setRing a0 a1 a2) := by
  delta setRing
  refine Keeps.set ?_
  assumption

theorem dropRingBufs_keeps {s : State} (a0 : State) (a1 : ℕ) (h0 : Keeps s a0) : Keeps s (dropRingBufs a0 a1) := by
  delta dropRingBufs
  refine Keeps.set ?_
  assumption

theorem ringFault_keeps {s : State} (a0 : State) (a1 : ℕ) (a2 : ℕ) (h0 : Keeps s a0) : Keeps s (ringFault a0 a1 a2) := by
  delta ringFault
  extract_lets v0 v1 v2 v3 v4
  clear_value v0
  have k5 : Keeps s v1 := by
    unfold v1
    apply setRing_keeps
    assumption
  clear_value v1
  have k6 : Keeps s v2 := by
    unfold v2
    apply dropRingBufs_keeps
    assumption
  clear_value v2
  have k7 : Keeps s v3 := by
    unfold v3
    refine Keeps.ite ?_ ?_
    · assumption
    · apply fire_keeps
      assumption
  clear_value v3
  have k8 : Keeps s v4 := by
    unfold v4
    refine Keeps.ite ?_ ?_
    · refine Keeps.set ?_
      assumption
    · assumption
  clear_value v4
  apply raiseFor_keeps
  assumption

theorem writeReply_keeps {s : State} (a0 : State) (a1 : ℕ) (a2 : List Byte) (h0 : Keeps s a0) : Keeps s (writeReply a0 a1 a2) := by
  delta writeReply
  extract_lets v0 v1 v2 v3 v4 v5 v6 v7 v8
  clear_value v0 v1 v2 v3 v4 v5
  have k9 : Keeps s v6 := by
    unfold v6
    refine Keeps.ite ?_ ?_
    · refine Keeps.ite ?_ ?_
      · apply wrHost_keeps
        apply wrHost_keeps
        assumption
      · apply wrHost_keeps
        assumption
    · apply wrPlain_keeps
      assumption
  clear_value v6
  have k10 : Keeps s v7 := by
    unfold v7
    apply setRing_keeps
    assumption
  clear_value v7
  have k11 : Keeps s v8 := by
    unfold v8
    apply fire_keeps
    assumption
  clear_value v8
  refine Keeps.ite ?_ ?_
  · apply setRing_keeps
    apply ringFault_keeps
    assumption
  · refine Keeps.ite ?_ ?_
    · refine Keeps.ite ?_ ?_
      · apply fireMsix_keeps
        assumption
      · assumption
    · assumption

theorem resetRing_keeps {s : State} (a0 : State) (a1 : ℕ) (h0 : Keeps s a0) : Keeps s (resetRing a0 a1) := by
  delta resetRing
  apply dropRingBufs_keeps
  apply setRing_keeps
  assumption

theorem endUnbind_keeps {s : State} (a0 : State) (a1 : ℕ) (h0 : Keeps s a0) : Keeps s (endUnbind a0 a1) := by
  delta endUnbind
  extract_lets v0
  clear_value v0
  refine Keeps.ite ?_ ?_
  · apply fireMsix_keeps
    apply resetRing_keeps
    assumption
  · assumption

theorem finishCmd_keeps {s : State} (a0 : State) (a1 : Cmd) (h0 : Keeps s a0) : Keeps s (finishCmd a0 a1) := by
  delta finishCmd
  extract_lets v0 v1
  have k2 : Keeps s v0 := by
    unfold v0
    apply dropCmd_keeps
    assumption
  clear_value v0
  have k3 : Keeps s v1 := by
    unfold v1
    refine Keeps.set ?_
    assumption
  clear_value v1
  split
  · extract_lets v4 v5
    clear_value v4
    have k6 : Keeps s v5 := by
      unfold v5
      refine Keeps.ite ?_ ?_
      · apply setRing_keeps
        assumption
      · apply writeReply_keeps
        assumption
    clear_value v5
    apply endUnbind_keeps
    assumption
  · assumption

theorem setLock_keeps {s : State} (a0 : State) (a1 : ℕ) (a2 : Lock) (h0 : Keeps s a0) : Keeps s (setLock a0 a1 a2) := by
  delta setLock
  refine Keeps.set ?_
  assumption

theorem putCmd_keeps {s : State} (a0 : State) (a1 : Cmd) (h0 : Keeps s a0) : Keeps s (putCmd a0 a1) := by
  delta putCmd
  refine Keeps.set ?_
  assumption

theorem grantClaim_keeps {s : State} (a0 : State) (a1 : ℕ) (a2 : ℕ) (a3 : ℕ) (h0 : Keeps s a0) : Keeps s (grantClaim a0 a1 a2 a3) := by
  delta grantClaim
  split
  · assumption
  · extract_lets v0 v1 v2 v3 v4
    clear_value v0
    have k5 : Keeps s v1 := by
      unfold v1
      apply setLock_keeps
      assumption
    clear_value v1
    have k6 : Keeps s v2.1 := by
      unfold v2
      apply endStall_keeps
      assumption
    clear_value v2
    clear_value v3
    have k7 : Keeps s v4 := by
      unfold v4
      apply putCmd_keeps
      assumption
    clear_value v4
    apply traceRec_keeps
    assumption

theorem evalClaims_keeps {s : State} (a0 : Nat) (a1 : Nat) (a2 : State) (h0 : Keeps s a2) : Keeps s (evalClaims a0 a1 a2) := by
  induction a1 generalizing a2 with
  | zero => exact h0
  | succ n ih =>
    rw [evalClaims]
    split
    · exact h0
    · split
      · exact ih _ (setLock_keeps _ _ _ h0)
      · split
        · exact ih _ (grantClaim_keeps _ _ _ _ h0)
        · exact h0

theorem reclaim_keeps {s : State} (a0 : State) (a1 : ℕ) (h0 : Keeps s a0) : Keeps s (reclaim a0 a1) := by
  delta reclaim
  apply evalClaims_keeps
  assumption

theorem settleSetters_keeps {s : State} (a0 : State) (a1 : ℕ) (h0 : Keeps s a0) : Keeps s (settleSetters a0 a1) := by
  delta settleSetters
  extract_lets v0
  clear_value v0
  refine Keeps.ite ?_ ?_
  · apply reclaim_keeps
    apply setLock_keeps
    assumption
  · assumption

theorem leaveQueue_keeps {s : State} (a0 : State) (a1 : ℕ) (a2 : ℕ) (h0 : Keeps s a0) : Keeps s (leaveQueue a0 a1 a2) := by
  delta leaveQueue
  extract_lets v0
  clear_value v0
  apply setLock_keeps
  assumption

theorem returnClaim_keeps {s : State} (a0 : State) (a1 : ℕ) (a2 : ℕ) (h0 : Keeps s a0) : Keeps s (returnClaim a0 a1 a2) := by
  delta returnClaim
  extract_lets v0
  clear_value v0
  apply setLock_keeps
  assumption

theorem putPf_keeps {s : State} (a0 : State) (a1 : ℕ) (a2 : PfSched) (h0 : Keeps s a0) : Keeps s (putPf a0 a1 a2) := by
  delta putPf
  extract_lets v0 v1 v2
  have k3 : Keeps s v0 := by
    unfold v0
    refine Keeps.set ?_
    assumption
  clear_value v0
  clear_value v1 v2
  apply wrLocal_keeps
  apply wrLocal_keeps
  apply wrLocal_keeps
  assumption

theorem promotionFault_keeps {s : State} (a0 : State) (a1 : ℕ) (a2 : ℕ) (a3 : ℕ) (h0 : Keeps s a0) : Keeps s (promotionFault a0 a1 a2 a3) := by
  delta promotionFault
  split
  · assumption
  · extract_lets v0 v1 v2 v3
    have k4 : Keeps s v0 := by
      unfold v0
      split
      · apply unpinUse_keeps
        assumption
      · assumption
    clear_value v0
    clear_value v1 v2
    have k5 : Keeps s v3 := by
      unfold v3
      apply putPf_keeps
      assumption
    clear_value v3
    refine Keeps.ite ?_ ?_
    · apply putPf_keeps
      assumption
    · apply raise_keeps
      assumption

theorem copyEnded_keeps {s : State} (a0 : State) (a1 : ℕ) (a2 : ℕ) (a3 : ℕ × ℕ × ℕ) (h0 : Keeps s a0) : Keeps s (copyEnded a0 a1 a2 a3) := by
  delta copyEnded
  split
  · assumption
  · apply putCmd_keeps
    assumption

theorem endCopies_keeps {s : State} (a0 : State) (a1 : ℕ) (h0 : Keeps s a0) : Keeps s (endCopies a0 a1) := by
  delta endCopies
  extract_lets v0
  have k1 : Keeps s v0 := by
    unfold v0
    refine Keeps.foldl _ ?_ (fun t2 b2 h2 => ?_)
    · assumption
    · apply releaseRun_keeps
      assumption
  clear_value v0
  refine Keeps.set ?_
  assumption

theorem endCmd_keeps {s : State} (a0 : State) (a1 : Cmd) (a2 : ℕ) (a3 : ℕ) (h0 : Keeps s a0) : Keeps s (endCmd a0 a1 a2 a3) := by
  delta endCmd
  extract_lets v0 v1 v2 v3 v4 v5 v6 v7 v8 v9 v10 v11 v12 v13 v14 v15 v16
  have k17 : Keeps s v0 := by
    unfold v0
    apply releaseRun_keeps
    assumption
  clear_value v0
  clear_value v1
  have k18 : Keeps s v2.1 := by
    unfold v2
    apply endStall_keeps
    assumption
  clear_value v2
  have k19 : Keeps s v3 := by
    unfold v3
    assumption
  clear_value v3
  clear_value v4
  have k20 : Keeps s v5 := by
    unfold v5
    refine Keeps.ite ?_ ?_
    · apply traceRec_keeps
      assumption
    · assumption
  clear_value v5
  have k21 : Keeps s v6 := by
    unfold v6
    apply traceRec_keeps
    assumption
  clear_value v6
  have k22 : Keeps s v7 := by
    unfold v7
    refine Keeps.ite ?_ ?_
    · apply jobCount_keeps
      assumption
    · assumption
  clear_value v7
  have k23 : Keeps s v8 := by
    unfold v8
    split
    · refine Keeps.ite ?_ ?_
      · apply count_keeps
        assumption
      · assumption
    · assumption
  clear_value v8
  have k24 : Keeps s v9 := by
    unfold v9
    apply engineDone_keeps
    apply seqAttn_keeps
    assumption
  clear_value v9
  have k25 : Keeps s v10 := by
    unfold v10
    refine Keeps.ite ?_ ?_
    · apply drift_keeps
      assumption
    · assumption
  clear_value v10
  clear_value v11
  have k26 : Keeps s v12 := by
    unfold v12
    apply finishCmd_keeps
    assumption
  clear_value v12
  have k27 : Keeps s v13 := by
    unfold v13
    split
    · apply settleSetters_keeps
      apply leaveQueue_keeps
      assumption
    · assumption
  clear_value v13
  clear_value v14
  have k28 : Keeps s v15 := by
    unfold v15
    refine Keeps.ite ?_ ?_
    · apply returnClaim_keeps
      assumption
    · assumption
  clear_value v15
  have k29 : Keeps s v16 := by
    unfold v16
    refine Keeps.ite ?_ ?_
    · assumption
    · apply reclaim_keeps
      apply leaveQueue_keeps
      assumption
  clear_value v16
  split
  · apply promotionFault_keeps
    assumption
  · apply copyEnded_keeps
    assumption
  · apply endCopies_keeps
    assumption
  · assumption

theorem abortEff_keeps {s : State} (a0 : State) (a1 : Cmd) (h0 : Keeps s a0) : Keeps s (abortEff a0 a1) := by
  delta abortEff
  refine Keeps.ite ?_ ?_
  · assumption
  · split
    · apply endCmd_keeps
      assumption
    · refine Keeps.foldl _ ?_ (fun t0 b0 h0 => ?_)
      · assumption
      · apply setRing_keeps
        assumption

theorem makeCtx_keeps {s : State} (a0 : State) (a1 : ℕ) (a2 : ℕ) (a3 : ℕ) (h0 : Keeps s a0) : Keeps s (makeCtx a0 a1 a2 a3) := by
  delta makeCtx
  split
  · assumption
  · refine Keeps.ite ?_ ?_
    · refine Keeps.set ?_
      assumption
    · assumption

theorem eccEnd_keeps {s : State} (a0 : State) (a1 : Cmd) (a2 : ℕ) (h0 : Keeps s a0) : Keeps s (eccEnd a0 a1 a2) := by
  delta eccEnd
  apply endCmd_keeps
  apply memError_keeps
  assumption

theorem raiseCmd_keeps {s : State} (a0 : State) (a1 : Cmd) (a2 : ℕ) (a3 : ℕ) (a4 : ℕ) (a5 : ℕ) (h0 : Keeps s a0) : Keeps s (raiseCmd a0 a1 a2 a3 a4 a5) := by
  delta raiseCmd
  apply raiseOp_keeps
  assumption

theorem claimOrQueue_keeps {s : State} (a0 : State) (a1 : Cmd) (h0 : Keeps s a0) : Keeps s (claimOrQueue a0 a1) := by
  delta claimOrQueue
  refine Keeps.ite ?_ ?_
  · assumption
  · extract_lets v0 v1
    clear_value v0
    have k2 : Keeps s v1 := by
      unfold v1
      apply setLock_keeps
      assumption
    clear_value v1
    refine Keeps.ite ?_ ?_
    · apply grantClaim_keeps
      assumption
    · apply putCmd_keeps
      assumption

theorem acceptCmd_keeps {s : State} (a0 : State) (a1 : Nat) (a2 : Sys2Proof.Packet) (h0 : Keeps s a0) : Keeps s (acceptCmd a0 a1 a2) := by
  delta acceptCmd
  extract_lets v0 v1 v2 v3 v4 v5 v6 v7 v8 v9 v10 v11 v12
  clear_value v0
  have k13 : Keeps s v1 := by
    unfold v1
    apply makeCtx_keeps
    assumption
  clear_value v1
  clear_value v2
  have k14 : Keeps s v3 := by
    unfold v3
    refine Keeps.setId ?_ (Nat.le_succ _)
    assumption
  clear_value v3
  clear_value v4
  clear_value v5
  clear_value v6
  clear_value v7
  clear_value v8
  clear_value v9
  clear_value v10
  have k15 : Keeps s v11 := by
    unfold v11
    apply putCmd_keeps
    assumption
  clear_value v11
  have k16 : Keeps s v12 := by
    unfold v12
    apply traceRec_keeps
    assumption
  clear_value v12
  split
  · apply eccEnd_keeps
    assumption
  · split
    · apply endCmd_keeps
      assumption
    · split
      · apply endCmd_keeps
        assumption
      · refine Keeps.ite ?_ ?_
        · apply endCmd_keeps
          assumption
        · refine Keeps.ite ?_ ?_
          · apply endCmd_keeps
            apply raiseCmd_keeps
            assumption
          · apply claimOrQueue_keeps
            assumption

theorem addCount_keeps {s : State} (a0 : State) (a1 : ℕ) (a2 : ℕ) (a3 : Option Cmd) (h0 : Keeps s a0) : Keeps s (addCount a0 a1 a2 a3) := by
  delta addCount
  extract_lets v0 v1 v2 v3
  clear_value v0
  have k4 : Keeps s v1 := by
    unfold v1
    apply setLock_keeps
    assumption
  clear_value v1
  have k5 : Keeps s v2 := by
    unfold v2
    apply count_keeps
    assumption
  clear_value v2
  have k6 : Keeps s v3 := by
    unfold v3
    apply traceRec_keeps
    assumption
  clear_value v3
  refine Keeps.ite ?_ ?_
  · apply raise_keeps
    assumption
  · assumption

theorem putShard_keeps {s : State} (a0 : State) (a1 : ℕ) (a2 : Shard) (h0 : Keeps s a0) : Keeps s (putShard a0 a1 a2) := by
  delta putShard
  extract_lets v0 v1
  have k2 : Keeps s v0 := by
    unfold v0
    refine Keeps.set ?_
    assumption
  clear_value v0
  clear_value v1
  apply wrLocal_keeps
  apply wrLocal_keeps
  assumption

theorem markDirty_keeps {s : State} (a0 : State) (a1 : List SWrite) (h0 : Keeps s a0) : Keeps s (markDirty a0 a1) := by
  delta markDirty
  refine Keeps.foldl _ ?_ (fun t0 b0 h0 => ?_)
  · assumption
  · refine Keeps.foldl _ ?_ (fun t1 b1 h1 => ?_)
    · assumption
    · split
      · assumption
      · extract_lets v2
        clear_value v2
        refine Keeps.ite ?_ ?_
        · apply putObj_keeps
          assumption
        · assumption

theorem addGacc_keeps {s : State} (a0 : State) (a1 : Cmd) (a2 : List Byte) (a3 : ℕ) (h0 : Keeps s a0) : Keeps s (addGacc a0 a1 a2 a3) := by
  delta addGacc
  split
  · assumption
  · extract_lets v0 v1
    clear_value v0 v1
    apply putShard_keeps
    apply markDirty_keeps
    apply wrLocal_keeps
    assumption

theorem after_keeps {s : State} (a0 : Host.Outcome State Fault Refusal) (a1 : State) (h : KeepsO s a0) (h0 : Keeps s a1) : Keeps s (after a0 a1) := by
  delta after
  split
  · exact h _ rfl
  · exact h0

theorem offerTransit_keeps {s : State} (a0 : State) (a1 : MsgHdr) (h0 : Keeps s a0) : Keeps s (offerTransit a0 a1) := by
  delta offerTransit
  refine Keeps.ite ?_ ?_
  · refine Keeps.set ?_
    assumption
  · extract_lets v0 v1 v2 v3
    clear_value v0 v1 v2 v3
    split
    · extract_lets v4
      clear_value v4
      apply setPort_keeps
      refine Keeps.set ?_
      assumption
    · refine Keeps.set ?_
      assumption

theorem offerWaiting_keeps {s : State} (a0 : List Msg) (a1 : List Sys2Proof.MsgHdr) (a2 : Bool) (a3 : State) (h0 : Keeps s a3) : Keeps s (offerWaiting a0 a1 a2 a3) := by
  delta offerWaiting
  refine Keeps.foldl _ ?_ (fun t0 b0 h0 => ?_)
  · refine Keeps.foldl _ ?_ (fun t0 b0 h0 => ?_)
    · assumption
    · apply offerTransit_keeps
      assumption
  · apply offer_keeps
    assumption

theorem releaseAll_keeps {s : State} (a0 : State) (h0 : Keeps s a0) : Keeps s (releaseAll a0) := by
  delta releaseAll
  apply offerWaiting_keeps
  apply offerWaiting_keeps
  refine Keeps.set ?_
  assumption

theorem afterAck_keeps {s : State} (a0 : State) (h0 : Keeps s a0) : Keeps s (afterAck a0) := by
  delta afterAck
  apply releaseAll_keeps
  assumption

theorem answerLate_keeps {s : State} (a0 : State) (a1 : ℕ) (a2 : ℕ) (a3 : ℕ) (a4 : ℕ) (a5 : ℕ) (h0 : Keeps s a0) : Keeps s (answerLate a0 a1 a2 a3 a4 a5) := by
  delta answerLate
  split
  · apply send_keeps
    assumption
  · assumption

theorem answerRead_keeps {s : State} (a0 : State) (a1 : MsgHdr) (a2 : ℕ) (a3 : ℕ) (a4 : List Byte) (h0 : Keeps s a0) : Keeps s (answerRead a0 a1 a2 a3 a4) := by
  delta answerRead
  apply send_keeps
  assumption

theorem answerWrite_keeps {s : State} (a0 : State) (a1 : MsgHdr) (a2 : Bool) (h0 : Keeps s a0) : Keeps s (answerWrite a0 a1 a2) := by
  delta answerWrite
  apply send_keeps
  assumption

theorem updJob_keeps {s : State} (a0 : State) (a1 : ℕ) (a2 : Job → Job) (h0 : Keeps s a0) : Keeps s (updJob a0 a1 a2) := by
  delta updJob
  refine Keeps.set ?_
  assumption

theorem endAll_keeps {s : State} (a0 : State) (a1 : ℕ) (a2 : ℕ) (a3 : Cmd → Bool) (h0 : Keeps s a0) : Keeps s (endAll a0 a1 a2 a3) := by
  delta endAll
  refine Keeps.foldl _ ?_ (fun t0 b0 h0 => ?_)
  · assumption
  · split
    · apply endCmd_keeps
      assumption
    · assumption

theorem signalLock_keeps {s : State} (a0 : State) (a1 : ℕ) (a2 : ℕ) (a3 : ℕ) (a4 : ℕ) (a5 : Option Cmd) (h0 : Keeps s a0) : Keeps s (signalLock a0 a1 a2 a3 a4 a5) := by
  delta signalLock
  refine Keeps.ite ?_ ?_
  · apply reclaim_keeps
    apply addCount_keeps
    assumption
  · apply raise_keeps
    assumption

theorem publishWrites_keeps {s : State} (a0 : State) (a1 : ℕ) (a2 : List SWrite) (h0 : Keeps s a0) : Keeps s (publishWrites a0 a1 a2) := by
  delta publishWrites
  extract_lets v0
  have k1 : Keeps s v0 := by
    unfold v0
    refine Keeps.foldl _ ?_ (fun t2 b2 h2 => ?_)
    · assumption
    · refine Keeps.ite ?_ ?_
      · apply wrLocal_keeps
        assumption
      · refine Keeps.ite ?_ ?_
        · apply wrHost_keeps
          assumption
        · assumption
  clear_value v0
  refine Keeps.set ?_
  assumption

theorem poundPublish_keeps {s : State} (a0 : State) (a1 : ℕ) (a2 : List SWrite) (h0 : Keeps s a0) : Keeps s (poundPublish a0 a1 a2) := by
  delta poundPublish
  refine Keeps.foldl _ ?_ (fun t0 b0 h0 => ?_)
  · assumption
  · refine Keeps.ite ?_ ?_
    · refine Keeps.foldl _ ?_ (fun t1 b1 h1 => ?_)
      · assumption
      · extract_lets v2
        clear_value v2
        refine Keeps.ite ?_ ?_
        · assumption
        · refine Keeps.set ?_
          assumption
    · assumption

theorem endHold_keeps {s : State} (a0 : State) (a1 : ℕ × ℕ) (h0 : Keeps s a0) : Keeps s (endHold a0 a1) := by
  delta endHold
  split
  · assumption
  · apply unpinUse_keeps
    assumption

theorem consume_keeps {s : State} (a0 : State) (a1 : Cmd) (h0 : Keeps s a0) : Keeps s (consume a0 a1) := by
  delta consume
  extract_lets v0 v1 v2 v3 v4 v5 v6
  clear_value v0 v1 v2 v3
  have k7 : Keeps s v4 := by
    unfold v4
    apply setLock_keeps
    assumption
  clear_value v4
  have k8 : Keeps s v5 := by
    unfold v5
    apply count_keeps
    assumption
  clear_value v5
  have k9 : Keeps s v6 := by
    unfold v6
    apply traceRec_keeps
    assumption
  clear_value v6
  refine Keeps.foldl _ ?_ (fun t10 b10 h10 => ?_)
  · assumption
  · apply endHold_keeps
    assumption

theorem killWb_keeps {s : State} (a0 : State) (a1 : ℕ) (a2 : ℕ) (h0 : Keeps s a0) : Keeps s (killWb a0 a1 a2) := by
  delta killWb
  split
  · assumption
  · split
    · assumption
    · extract_lets v0 v1
      have k2 : Keeps s v0 := by
        unfold v0
        split
        · refine Keeps.ite ?_ ?_
          · apply sendWb_keeps
            assumption
          · assumption
        · assumption
      clear_value v0
      clear_value v1
      apply putObj_keeps
      assumption

theorem moduleWrite_keeps {s : State} (a0 : State) (a1 : ℕ) (a2 : ℕ) (a3 : GAddr) (a4 : List Byte) (h0 : Keeps s a0) : Keeps s (moduleWrite a0 a1 a2 a3 a4) := by
  delta moduleWrite
  extract_lets v0
  clear_value v0
  split
  · refine Keeps.ite ?_ ?_
    · assumption
    · extract_lets v1 v2 v3
      have k4 : Keeps s v1 := by
        unfold v1
        split
        · apply killWb_keeps
          assumption
        · assumption
      clear_value v1
      clear_value v2
      have k5 : Keeps s v3 := by
        unfold v3
        refine Keeps.ite ?_ ?_
        · refine Keeps.ite ?_ ?_
          · apply wrHost_keeps
            assumption
          · assumption
        · refine Keeps.ite ?_ ?_
          · apply wrLocal_keeps
            assumption
          · assumption
      clear_value v3
      apply markDirty_keeps
      assumption
  · refine Keeps.ite ?_ ?_
    · refine Keeps.ite ?_ ?_
      · apply wrHost_keeps
        assumption
      · assumption
    · refine Keeps.ite ?_ ?_
      · apply wrLocal_keeps
        assumption
      · assumption

theorem ringEntry_keeps {s : State} (a0 : State) (a1 : ℕ) (a2 : ℕ) (a3 : ℕ) (a4 : ℕ) (a5 : List Byte) (h0 : Keeps s a0) : Keeps s (ringEntry a0 a1 a2 a3 a4 a5) := by
  delta ringEntry
  extract_lets v0 v1 v2 v3 v4
  clear_value v0 v1 v2 v3
  have k5 : Keeps s v4 := by
    unfold v4
    apply moduleWrite_keeps
    assumption
  clear_value v4
  refine Keeps.ite ?_ ?_
  · apply moduleWrite_keeps
    assumption
  · apply moduleWrite_keeps
    assumption

theorem writeEntries_keeps {s : State} (a0 : State) (a1 : Cmd) (h0 : Keeps s a0) : Keeps s (writeEntries a0 a1) := by
  delta writeEntries
  extract_lets v0
  have k1 : Keeps s v0 := by
    unfold v0
    split
    · refine Keeps.ite ?_ ?_
      · refine Keeps.foldl _ ?_ (fun t2 b2 h2 => ?_)
        · assumption
        · refine Keeps.ite ?_ ?_
          · assumption
          · apply ringEntry_keeps
            assumption
      · assumption
    · assumption
  clear_value v0
  refine Keeps.foldl _ ?_ (fun t3 b3 h3 => ?_)
  · assumption
  · refine Keeps.foldl _ ?_ (fun t4 b4 h4 => ?_)
    · assumption
    · refine Keeps.ite ?_ ?_
      · extract_lets v5
        clear_value v5
        apply ringEntry_keeps
        assumption
      · assumption

theorem countWork_keeps {s : State} (a0 : State) (a1 : Cmd) (h0 : Keeps s a0) : Keeps s (countWork a0 a1) := by
  delta countWork
  extract_lets v0 v1 v2 v3 v4
  clear_value v0 v1 v2 v3 v4
  split
  · assumption
  · refine Keeps.ite ?_ ?_
    · refine Keeps.ite ?_ ?_
      · apply count_keeps
        assumption
      · assumption
    · refine Keeps.ite ?_ ?_
      · refine Keeps.foldl _ ?_ (fun t5 b5 h5 => ?_)
        · assumption
        · apply count_keeps
          assumption
      · refine Keeps.ite ?_ ?_
        · refine Keeps.foldl _ ?_ (fun t6 b6 h6 => ?_)
          · assumption
          · apply count_keeps
            assumption
        · refine Keeps.ite ?_ ?_
          · refine Keeps.foldl _ ?_ (fun t7 b7 h7 => ?_)
            · assumption
            · extract_lets v8
              clear_value v8
              apply count_keeps
              apply count_keeps
              assumption
          · refine Keeps.ite ?_ ?_
            · apply count_keeps
              assumption
            · assumption

theorem commitWith_keeps {s : State} (a0 : State → Cmd → State) (a1 : State) (a2 : Cmd) (h0 : ∀ y0 y1, Keeps s y0 → Keeps s (a0 y0 y1)) (h1 : Keeps s a1) : Keeps s (commitWith a0 a1 a2) := by
  delta commitWith
  extract_lets v0 v1 v2 v3 v4 v5 v6 v7 v8 v9 v10 v11 v12 v13 v14 v15 v16 v17 v18 v19 v20 v21
  clear_value v0 v1 v2
  have k22 : Keeps s v3 := by
    unfold v3
    apply putCmd_keeps
    assumption
  clear_value v3
  clear_value v4 v5 v6
  have k23 : Keeps s v7 := by
    unfold v7
    apply markDirty_keeps
    apply publishWrites_keeps
    assumption
  clear_value v7
  have k24 : Keeps s v8 := by
    unfold v8
    apply poundPublish_keeps
    assumption
  clear_value v8
  have k25 : Keeps s v9 := by
    unfold v9
    refine Keeps.ite ?_ ?_
    · assumption
    · apply consume_keeps
      assumption
  clear_value v9
  have k26 : Keeps s v10 := by
    unfold v10
    split
    · apply signalLock_keeps
      assumption
    · assumption
  clear_value v10
  have k27 : Keeps s v11 := by
    unfold v11
    apply h0
    assumption
  clear_value v11
  have k28 : Keeps s v12 := by
    unfold v12
    apply writeEntries_keeps
    assumption
  clear_value v12
  have k29 : Keeps s v13 := by
    unfold v13
    refine Keeps.foldl _ ?_ (fun t30 b30 h30 => ?_)
    · assumption
    · apply unpinUse_keeps
      assumption
  clear_value v13
  have k31 : Keeps s v14 := by
    unfold v14
    refine Keeps.ite ?_ ?_
    · assumption
    · apply reclaim_keeps
      assumption
  clear_value v14
  have k32 : Keeps s v15 := by
    unfold v15
    apply traceRec_keeps
    assumption
  clear_value v15
  have k33 : Keeps s v16 := by
    unfold v16
    apply drift_keeps
    apply countWork_keeps
    apply jobCount_keeps
    assumption
  clear_value v16
  have k34 : Keeps s v17 := by
    unfold v17
    split
    · refine Keeps.ite ?_ ?_
      · apply count_keeps
        assumption
      · assumption
    · assumption
  clear_value v17
  have k35 : Keeps s v18 := by
    unfold v18
    apply engineDone_keeps
    assumption
  clear_value v18
  clear_value v19
  have k36 : Keeps s v20 := by
    unfold v20
    refine Keeps.foldl _ ?_ (fun t37 b37 h37 => ?_)
    · assumption
    · apply sendCmd_keeps
      assumption
  clear_value v20
  clear_value v21
  split
  · apply putCmd_keeps
    assumption
  · apply dropCmd_keeps
    apply publishWrites_keeps
    assumption

theorem noEffect_keeps {s : State} (a0 : State) (a1 : Cmd) (h0 : Keeps s a0) : Keeps s (noEffect a0 a1) := by
  delta noEffect
  assumption

theorem endModeCmd_keeps {s : State} (a0 : State) (a1 : Option ℕ) (a2 : ℕ) (h0 : Keeps s a0) : Keeps s (endModeCmd a0 a1 a2) := by
  delta endModeCmd
  split
  · assumption
  · split
    · refine Keeps.ite ?_ ?_
      · apply commitWith_keeps
        · intro y0 y1 y2
          apply noEffect_keeps
          assumption
        · assumption
      · assumption
    · assumption

theorem putChange_keeps {s : State} (a0 : State) (a1 : Change) (h0 : Keeps s a0) : Keeps s (putChange a0 a1) := by
  delta putChange
  refine Keeps.set ?_
  assumption

theorem receiveChange_keeps {s : State} (a0 : State) (a1 : Change) (h0 : Keeps s a0) : Keeps s (receiveChange a0 a1) := by
  delta receiveChange
  refine Keeps.set ?_
  assumption

theorem sendDom_keeps {s : State} (a0 : State) (a1 : ℕ) (a2 : ℕ) (a3 : List ℕ) (h0 : Keeps s a0) : Keeps s (sendDom a0 a1 a2 a3) := by
  delta sendDom
  apply send_keeps
  assumption

theorem openChange_keeps {s : State} (a0 : State) (a1 : ℕ) (h0 : Keeps s a0) : Keeps s (openChange a0 a1) := by
  delta openChange
  split
  · assumption
  · refine Keeps.ite ?_ ?_
    · extract_lets v0 v1 v2
      clear_value v0 v1
      have k3 : Keeps s v2 := by
        unfold v2
        apply putChange_keeps
        assumption
      clear_value v2
      refine Keeps.foldl _ ?_ (fun t4 b4 h4 => ?_)
      · assumption
      · apply sendDom_keeps
        assumption
    · assumption

theorem stageChange_keeps {s : State} (a0 : State) (a1 : ℕ) (a2 : ℕ) (a3 : ℕ) (a4 : ℕ) (a5 : List ModeItem) (a6 : List ℕ) (a7 : Option ℕ) (h0 : Keeps s a0) : Keeps s (stageChange a0 a1 a2 a3 a4 a5 a6 a7) := by
  delta stageChange
  extract_lets v0 v1 v2
  clear_value v0
  have k3 : Keeps s v1 := by
    unfold v1
    apply putChange_keeps
    assumption
  clear_value v1
  have k4 : Keeps s v2 := by
    unfold v2
    refine Keeps.foldl _ ?_ (fun t5 b5 h5 => ?_)
    · assumption
    · apply sendDom_keeps
      assumption
  clear_value v2
  apply openChange_keeps
  assumption

theorem autoChange_keeps {s : State} (a0 : State) (h0 : Keeps s a0) : Keeps s (autoChange a0) := by
  delta autoChange
  refine Keeps.ite ?_ ?_
  · apply stageChange_keeps
    assumption
  · assumption

theorem modeRecs_keeps {s : State} (a0 : State) (a1 : ℕ) (a2 : ℕ) (h0 : Keeps s a0) : Keeps s (modeRecs a0 a1 a2) := by
  delta modeRecs
  refine Keeps.foldl _ ?_ (fun t0 b0 h0 => ?_)
  · assumption
  · apply traceRec_keeps
    assumption

theorem applyChange_keeps {s : State} (a0 : State) (a1 : Change) (h0 : Keeps s a0) : Keeps s (applyChange a0 a1) := by
  delta applyChange
  extract_lets v0 v1 v2 v3 v4 v5 v6 v7 v8 v9
  have k10 : Keeps s v0 := by
    unfold v0
    refine Keeps.set ?_
    assumption
  clear_value v0
  clear_value v1 v2
  have k11 : Keeps s v3 := by
    unfold v3
    refine Keeps.set ?_
    assumption
  clear_value v3
  clear_value v4
  have k12 : Keeps s v5 := by
    unfold v5
    apply modeRecs_keeps
    apply updJob_keeps
    assumption
  clear_value v5
  have k13 : Keeps s v6 := by
    unfold v6
    refine Keeps.set ?_
    assumption
  clear_value v6
  have k14 : Keeps s v7 := by
    unfold v7
    apply endAll_keeps
    assumption
  clear_value v7
  have k15 : Keeps s v8 := by
    unfold v8
    refine Keeps.ite ?_ ?_
    · apply modeRecs_keeps
      refine Keeps.set ?_
      assumption
    · refine Keeps.ite ?_ ?_
      · assumption
      · apply signalLock_keeps
        assumption
  clear_value v8
  have k16 : Keeps s v9 := by
    unfold v9
    apply endModeCmd_keeps
    assumption
  clear_value v9
  refine Keeps.ite ?_ ?_
  · apply autoChange_keeps
    assumption
  · assumption

theorem sendSignal_keeps {s : State} (a0 : State) (a1 : Cmd) (a2 : ℕ) (a3 : ℕ) (a4 : ℕ) (h0 : Keeps s a0) : Keeps s (sendSignal a0 a1 a2 a3 a4) := by
  delta sendSignal
  refine Keeps.ite ?_ ?_
  · apply raiseCmd_keeps
    assumption
  · apply sendCmd_keeps
    assumption

theorem applyOne_keeps {s : State} (a0 : Cmd) (a1 : State) (a2 : ℕ × ℕ × ℕ) (h0 : Keeps s a1) : Keeps s (applyOne a0 a1 a2) := by
  delta applyOne
  refine Keeps.ite ?_ ?_
  · apply signalLock_keeps
    assumption
  · apply sendSignal_keeps
    assumption

theorem applySignal_keeps {s : State} (a0 : State) (a1 : Cmd) (h0 : Keeps s a0) : Keeps s (applySignal a0 a1) := by
  delta applySignal
  refine Keeps.foldl _ ?_ (fun t0 b0 h0 => ?_)
  · assumption
  · apply applyOne_keeps
    assumption

theorem arrive_keeps {s : State} (a0 : State) (a1 : ℕ) (a2 : ℕ) (h0 : Keeps s a0) : Keeps s (arrive a0 a1 a2) := by
  delta arrive
  split
  · assumption
  · split
    · assumption
    · extract_lets v0 v1 v2 v3 v4
      clear_value v0
      have k5 : Keeps s v1 := by
        unfold v1
        apply putPf_keeps
        assumption
      clear_value v1
      have k6 : Keeps s v2 := by
        unfold v2
        refine Keeps.ite ?_ ?_
        · apply count_keeps
          assumption
        · assumption
      clear_value v2
      clear_value v3
      have k7 : Keeps s v4 := by
        unfold v4
        apply setLock_keeps
        assumption
      clear_value v4
      apply signalLock_keeps
      assumption

theorem reply_keeps {s : State} (a0 : State) (a1 : ℕ) (a2 : List Byte) (h0 : Keeps s a0) : Keeps s (reply a0 a1 a2) := by
  delta reply
  refine Keeps.set ?_
  assumption

theorem arrives_keeps {s : State} (a0 : State) (a1 : State → State) (h0 : ∀ y0, Keeps s y0 → Keeps s (a1 y0)) (h1 : Keeps s a0) : KeepsO s (arrives a0 a1) := by
  delta arrives
  refine KeepsO.next ?_
  refine Keeps.ite ?_ ?_
  · assumption
  · extract_lets v0
    have k1 : Keeps s v0 := by
      unfold v0
      apply fire_keeps
      assumption
    clear_value v0
    refine Keeps.ite ?_ ?_
    · apply h0
      assumption
    · apply reply_keeps
      assumption

theorem endLink_keeps {s : State} (a0 : State) (a1 : Cmd) (a2 : ℕ) (h0 : Keeps s a0) : Keeps s (endLink a0 a1 a2) := by
  delta endLink
  extract_lets v0
  clear_value v0
  apply endCmd_keeps
  assumption

theorem askReads_keeps {s : State} (a0 : State) (a1 : Cmd) (a2 : List (ℕ × ℕ × ℕ)) (h0 : Keeps s a0) : Keeps s (askReads a0 a1 a2) := by
  delta askReads
  extract_lets v0 v1
  clear_value v0
  have k2 : Keeps s v1 := by
    unfold v1
    refine Keeps.foldl _ ?_ (fun t3 b3 h3 => ?_)
    · assumption
    · apply sendCmd_keeps
      assumption
  clear_value v1
  split
  · apply endLink_keeps
    assumption
  · apply putCmd_keeps
    assumption

theorem beginTest_keeps {s : State} (a0 : State) (a1 : TestReq) (h0 : Keeps s a0) : Keeps s (beginTest a0 a1) := by
  delta beginTest
  extract_lets v0
  have k1 : Keeps s v0 := by
    unfold v0
    refine Keeps.set ?_
    assumption
  clear_value v0
  split
  · apply setPort_keeps
    assumption
  · assumption

theorem pumpTests_keeps {s : State} (a0 : State) (h0 : Keeps s a0) : Keeps s (pumpTests a0) := by
  delta pumpTests
  extract_lets v0
  clear_value v0
  refine Keeps.foldl _ ?_ (fun t1 b1 h1 => ?_)
  · refine Keeps.set ?_
    assumption
  · refine Keeps.ite ?_ ?_
    · refine Keeps.set ?_
      assumption
    · apply beginTest_keeps
      assumption

theorem askTest_keeps {s : State} (a0 : State) (a1 : TestReq) (h0 : Keeps s a0) : Keeps s (askTest a0 a1) := by
  delta askTest
  apply pumpTests_keeps
  refine Keeps.set ?_
  assumption

theorem portEvent_keeps {s : State} (a0 : State) (a1 : ℕ) (a2 : ℕ) (h0 : Keeps s a0) : Keeps s (portEvent a0 a1 a2) := by
  delta portEvent
  extract_lets v0 v1
  clear_value v0
  have k2 : Keeps s v1 := by
    unfold v1
    apply setPort_keeps
    assumption
  clear_value v1
  refine Keeps.ite ?_ ?_
  · assumption
  · apply fire_keeps
    assumption

theorem portDrop_keeps {s : State} (a0 : State) (a1 : ℕ) (h0 : Keeps s a0) : Keeps s (portDrop a0 a1) := by
  delta portDrop
  extract_lets v0
  clear_value v0
  apply setPort_keeps
  assumption

theorem discardMsg_keeps {s : State} (a0 : State) (a1 : MsgHdr) (h0 : Keeps s a0) : Keeps s (discardMsg a0 a1) := by
  delta discardMsg
  split
  · apply portDrop_keeps
    assumption
  · assumption

theorem authFail_keeps {s : State} (a0 : State) (a1 : MsgHdr) (h0 : Keeps s a0) : Keeps s (authFail a0 a1) := by
  delta authFail
  extract_lets v0 v1 v2
  have k3 : Keeps s v0 := by
    unfold v0
    split
    · apply portEvent_keeps
      assumption
    · assumption
  clear_value v0
  clear_value v1
  have k4 : Keeps s v2 := by
    unfold v2
    apply raise_keeps
    apply discardMsg_keeps
    assumption
  clear_value v2
  apply send_keeps
  assumption

theorem regAccess_keeps {s : State} (a0 : State) (a1 : ℕ) (a2 : ℕ) (a3 : Bool) (a4 : Bool) (a5 : Bool) (h0 : Keeps s a0) : Keeps s (regAccess a0 a1 a2 a3 a4 a5) := by
  delta regAccess
  extract_lets v0 v1
  clear_value v0
  have k2 : Keeps s v1 := by
    unfold v1
    apply setDie_keeps
    assumption
  clear_value v1
  apply raiseMod_keeps
  assumption

theorem badAccess_keeps {s : State} (a0 : State) (a1 : ℕ) (a2 : ℕ) (a3 : Bool) (a4 : RegHit) (h0 : Keeps s a0) : Keeps s (badAccess a0 a1 a2 a3 a4) := by
  delta badAccess
  apply regAccess_keeps
  assumption

theorem badIn_keeps {s : State} (a0 : ℕ) : KeepsR s (badIn a0) := by
  delta badIn
  exact True.intro

theorem badPage_keeps {s : State} (a0 : State) (a1 : ℕ) (a2 : Bool) (a3 : RegHit) (h0 : Keeps s a0) : Keeps s (badPage a0 a1 a2 a3) := by
  delta badPage
  refine Keeps.ite ?_ ?_
  · apply badAccess_keeps
    assumption
  · apply badAccess_keeps
    assumption

theorem setPhase_keeps {s : State} (a0 : State) (a1 : ℕ) (h0 : Keeps s a0) : Keeps s (setPhase a0 a1) := by
  delta setPhase
  refine Keeps.ite ?_ ?_
  · assumption
  · refine Keeps.set ?_
    assumption

theorem raiseFloorTo_keeps {s : State} (a0 : State) (a1 : ℕ) (a2 : ℕ) (h0 : Keeps s a0) : Keeps s (raiseFloorTo a0 a1 a2) := by
  delta raiseFloorTo
  extract_lets v0 v1 v2
  clear_value v0 v1 v2
  refine Keeps.ite ?_ ?_
  · assumption
  · refine Keeps.ite ?_ ?_
    · apply raiseMod_keeps
      assumption
    · refine Keeps.set ?_
      assumption

theorem becomeReady_keeps {s : State} (a0 : State) (h0 : Keeps s a0) : Keeps s (becomeReady a0) := by
  delta becomeReady
  extract_lets v0 v1 v2 v3 v4 v5 v6 v7 v8 v9 v10 v11 v12 v13 v14 v15 v16
  have k17 : Keeps s v0 := by
    unfold v0
    apply setPhase_keeps
    assumption
  clear_value v0
  clear_value v1 v2
  have k18 : Keeps s v3 := by
    unfold v3
    refine Keeps.set ?_
    assumption
  clear_value v3
  clear_value v4 v5 v6 v7 v8
  have k19 : Keeps s v9 := by
    unfold v9
    refine Keeps.set ?_
    assumption
  clear_value v9
  have k20 : Keeps s v10 := by
    unfold v10
    refine Keeps.foldl _ ?_ (fun t21 b21 h21 => ?_)
    · assumption
    · apply raiseFloorTo_keeps
      assumption
  clear_value v10
  have k22 : Keeps s v11 := by
    unfold v11
    apply raiseFloorTo_keeps
    assumption
  clear_value v11
  have k23 : Keeps s v12 := by
    unfold v12
    refine Keeps.foldl _ ?_ (fun t24 b24 h24 => ?_)
    · assumption
    · apply sendDom_keeps
      assumption
  clear_value v12
  clear_value v13 v14
  have k25 : Keeps s v15 := by
    unfold v15
    refine Keeps.set ?_
    assumption
  clear_value v15
  have k26 : Keeps s v16 := by
    unfold v16
    refine Keeps.foldl _ ?_ (fun t27 b27 h27 => ?_)
    · assumption
    · apply deliver_keeps
      assumption
  clear_value v16
  refine Keeps.ite ?_ ?_
  · apply raiseMod_keeps
    assumption
  · assumption

theorem moveCopy_keeps {s : State} (a0 : State) (a1 : ℕ) (a2 : ℕ) (a3 : ℕ) (h0 : Keeps s a0) : Keeps s (moveCopy a0 a1 a2 a3) := by
  delta moveCopy
  split
  · assumption
  · extract_lets v0 v1 v2 v3
    clear_value v0 v1
    have k4 : Keeps s v2 := by
      unfold v2
      apply wrLocal_keeps
      assumption
    clear_value v2
    clear_value v3
    apply putObj_keeps
    refine Keeps.set ?_
    assumption

theorem packFrom_keeps {s : State} (a0 : Nat) (a1 : List (Nat × Nat × Nat × Nat)) (a2 : State) (h0 : Keeps s a2) : Keeps s (packFrom a0 a1 a2) := by
  induction a1 generalizing a0 a2 with
  | nil => exact h0
  | cons x l ih => exact Keeps.ite (ih _ _ (moveCopy_keeps _ _ _ _ h0)) (ih _ _ h0)

theorem packPool_keeps {s : State} (a0 : State) (a1 : ℕ) (h0 : Keeps s a0) : Keeps s (packPool a0 a1) := by
  delta packPool
  split
  · assumption
  · apply packFrom_keeps
    assumption

theorem makeSpace_keeps {s : State} (a0 : Nat) (a1 : ResObj) (a2 : Nat) (a3 : State) (h0 : Keeps s a3) : Keeps s (makeSpace a0 a1 a2 a3).1 := by
  induction a2 generalizing a3 with
  | zero => exact h0
  | succ n ih =>
    rw [makeSpace]
    split
    · exact h0
    · split
      all_goals
        extract_lets t
        have k : Keeps s t := by first | exact packPool_keeps _ _ h0 | exact h0
        clear_value t
        split
        · exact k
        · split
          · exact k
          · split
            · exact k
            · exact ih _ (removeCopy_keeps _ _ _ k)

theorem placePromotion_keeps {s : State} (a0 : State) (a1 : ℕ) (a2 : ℕ) (a3 : ℕ) (h0 : Keeps s a0) : Keeps s (placePromotion a0 a1 a2 a3) := by
  delta placePromotion
  split
  · assumption
  · refine Keeps.ite ?_ ?_
    · assumption
    · extract_lets v0
      have k1 : Keeps s v0.1 := by
        unfold v0
        apply makeSpace_keeps
        assumption
      clear_value v0
      split
      · apply putObj_keeps
        assumption
      · assumption

theorem startPromotion_keeps {s : State} (a0 : State) (a1 : ℕ) (a2 : ℕ) (a3 : ℕ) (h0 : Keeps s a0) : Keeps s (startPromotion a0 a1 a2 a3) := by
  delta startPromotion
  split
  · assumption
  · extract_lets v0
    clear_value v0
    apply placePromotion_keeps
    apply putObj_keeps
    assumption

theorem beginInit_keeps {s : State} (a0 : State) (a1 : Cmd) (h0 : Keeps s a0) : Keeps s (beginInit a0 a1) := by
  delta beginInit
  extract_lets v0
  clear_value v0
  split
  · apply dropCmd_keeps
    assumption
  · refine Keeps.ite ?_ ?_
    · apply dropCmd_keeps
      assumption
    · extract_lets v1 v2
      clear_value v1
      have k3 : Keeps s v2 := by
        unfold v2
        apply putCmd_keeps
        refine Keeps.set ?_
        assumption
      clear_value v2
      refine Keeps.ite ?_ ?_
      · apply dropCmd_keeps
        assumption
      · refine Keeps.ite ?_ ?_
        · assumption
        · apply startPromotion_keeps
          assumption

theorem pinUse_keeps {s : State} (a0 : State) (a1 : ℕ) (a2 : ℕ) (h0 : Keeps s a0) : Keeps s (pinUse a0 a1 a2) := by
  delta pinUse
  split
  · assumption
  · apply putObj_keeps
    assumption

theorem takeCopy_keeps {s : State} (a0 : State) (a1 : ℕ) (a2 : ℕ) (h0 : Keeps s a0) : Keeps s (takeCopy a0 a1 a2) := by
  delta takeCopy
  apply pinUse_keeps
  apply killWb_keeps
  assumption

theorem holdPromotion_keeps {s : State} (a0 : State) (a1 : ℕ) (a2 : ℕ) (h0 : Keeps s a0) : Keeps s (holdPromotion a0 a1 a2) := by
  delta holdPromotion
  extract_lets v0
  have k1 : Keeps s v0 := by
    unfold v0
    apply takeCopy_keeps
    assumption
  clear_value v0
  split
  · assumption
  · apply putObj_keeps
    assumption

theorem beginPrefetch_keeps {s : State} (a0 : State) (a1 : Cmd) (a2 : ℕ) (a3 : ℕ) (h0 : Keeps s a0) : Keeps s (beginPrefetch a0 a1 a2 a3) := by
  delta beginPrefetch
  split
  · apply dropCmd_keeps
    assumption
  · split
    · apply dropCmd_keeps
      assumption
    · split
      · apply endCmd_keeps
        assumption
      · extract_lets v0 v1 v2 v3
        clear_value v0 v1
        have k4 : Keeps s v2 := by
          unfold v2
          apply putCmd_keeps
          refine Keeps.set ?_
          assumption
        clear_value v2
        have k5 : Keeps s v3 := by
          unfold v3
          apply startPromotion_keeps
          assumption
        clear_value v3
        refine Keeps.ite ?_ ?_
        · apply endCmd_keeps
          apply pinUse_keeps
          assumption
        · refine Keeps.ite ?_ ?_
          · apply holdPromotion_keeps
            apply putCmd_keeps
            assumption
          · refine Keeps.ite ?_ ?_
            · apply pinUse_keeps
              apply putCmd_keeps
              assumption
            · refine Keeps.ite ?_ ?_
              · apply endCmd_keeps
                apply pinUse_keeps
                assumption
              · refine Keeps.ite ?_ ?_
                · assumption
                · split
                  · apply putObj_keeps
                    assumption
                  · assumption

theorem killKey_keeps {s : State} (a0 : State) (a1 : ℕ) (h0 : Keeps s a0) : Keeps s (killKey a0 a1) := by
  delta killKey
  refine Keeps.set ?_
  assumption

theorem releaseBufs_keeps {s : State} (a0 : State) (a1 : HostBuf → Bool) (h0 : Keeps s a0) : Keeps s (releaseBufs a0 a1) := by
  delta releaseBufs
  extract_lets v0
  have k1 : Keeps s v0 := by
    unfold v0
    refine Keeps.set ?_
    assumption
  clear_value v0
  refine Keeps.foldl _ ?_ (fun t2 b2 h2 => ?_)
  · assumption
  · refine Keeps.ite ?_ ?_
    · apply ringFault_keeps
      assumption
    · assumption

theorem setCounts_keeps {s : State} (a0 : State) (a1 : ℕ) (a2 : SlotCounts) (h0 : Keeps s a0) : Keeps s (setCounts a0 a1 a2) := by
  delta setCounts
  refine Keeps.set ?_
  assumption

theorem killWbs_keeps {s : State} (a0 : State) (a1 : ResObj → Bool) (h0 : Keeps s a0) : Keeps s (killWbs a0 a1) := by
  delta killWbs
  refine Keeps.foldl _ ?_ (fun t0 b0 h0 => ?_)
  · assumption
  · apply killWb_keeps
    apply killWb_keeps
    assumption

theorem releaseJob_keeps {s : State} (a0 : State) (a1 : ℕ) (a2 : Bool) (h0 : Keeps s a0) : Keeps s (releaseJob a0 a1 a2) := by
  delta releaseJob
  split
  · assumption
  · extract_lets v0 v1 v2 v3 v4 v5 v6 v7 v8 v9 v10 v11
    have k12 : Keeps s v0 := by
      unfold v0
      apply killWbs_keeps
      assumption
    clear_value v0
    have k13 : Keeps s v1 := by
      unfold v1
      refine Keeps.ite ?_ ?_
      · refine Keeps.foldl _ ?_ (fun t14 b14 h14 => ?_)
        · assumption
        · apply send_keeps
          assumption
      · assumption
    clear_value v1
    have k15 : Keeps s v2 := by
      unfold v2
      refine Keeps.set ?_
      assumption
    clear_value v2
    have k16 : Keeps s v3 := by
      unfold v3
      refine Keeps.foldl _ ?_ (fun t17 b17 h17 => ?_)
      · assumption
      · refine Keeps.setMem ?_ (memZero_wf _ _)
        assumption
    clear_value v3
    have k18 : Keeps s v4 := by
      unfold v4
      refine Keeps.foldl _ ?_ (fun t19 b19 h19 => ?_)
      · assumption
      · refine Keeps.ite ?_ ?_
        · assumption
        · refine Keeps.setMem ?_ (memZero_wf _ _)
          assumption
    clear_value v4
    have k20 : Keeps s v5 := by
      unfold v5
      refine Keeps.foldl _ ?_ (fun t21 b21 h21 => ?_)
      · assumption
      · apply setTrace_keeps
        assumption
    clear_value v5
    have k22 : Keeps s v6 := by
      unfold v6
      apply killKey_keeps
      assumption
    clear_value v6
    clear_value v7 v8
    have k23 : Keeps s v9 := by
      unfold v9
      refine Keeps.set ?_
      assumption
    clear_value v9
    have k24 : Keeps s v10 := by
      unfold v10
      apply releaseBufs_keeps
      assumption
    clear_value v10
    clear_value v11
    apply setCounts_keeps
    assumption

theorem commitJobEnds_keeps {s : State} (a0 : State) (a1 : ℕ) (a2 : Bool) (h0 : Keeps s a0) : Keeps s (commitJobEnds a0 a1 a2) := by
  delta commitJobEnds
  extract_lets v0
  have k1 : Keeps s v0 := by
    unfold v0
    refine Keeps.foldl _ ?_ (fun t2 b2 h2 => ?_)
    · assumption
    · split
      · apply commitWith_keeps
        · intro y3 y4 y5
          apply noEffect_keeps
          assumption
        · assumption
      · assumption
  clear_value v0
  apply releaseJob_keeps
  assumption

theorem endJob_keeps {s : State} (a0 : State) (a1 : ℕ) (h0 : Keeps s a0) : Keeps s (endJob a0 a1) := by
  delta endJob
  apply commitJobEnds_keeps
  apply endAll_keeps
  assumption

theorem dropRing_keeps {s : State} (a0 : State) (a1 : ℕ) (h0 : Keeps s a0) : Keeps s (dropRing a0 a1) := by
  delta dropRing
  extract_lets v0 v1 v2
  clear_value v0
  have k3 : Keeps s v1 := by
    unfold v1
    apply dropRingBufs_keeps
    apply setRing_keeps
    assumption
  clear_value v1
  clear_value v2
  refine Keeps.ite ?_ ?_
  · apply resetRing_keeps
    assumption
  · apply setRing_keeps
    assumption

theorem setSes_keeps {s : State} (a0 : State) (a1 : ℕ) (a2 : Session) (h0 : Keeps s a0) : Keeps s (setSes a0 a1 a2) := by
  delta setSes
  refine Keeps.set ?_
  assumption

theorem endSession_keeps {s : State} (a0 : State) (a1 : ℕ) (h0 : Keeps s a0) : Keeps s (endSession a0 a1) := by
  delta endSession
  extract_lets v0 v1 v2 v3 v4 v5 v6 v7 v8 v9 v10
  clear_value v0
  have k11 : Keeps s v1 := by
    unfold v1
    refine Keeps.foldl _ ?_ (fun t12 b12 h12 => ?_)
    · assumption
    · apply endJob_keeps
      assumption
  clear_value v1
  have k13 : Keeps s v2 := by
    unfold v2
    apply endAll_keeps
    assumption
  clear_value v2
  have k14 : Keeps s v3 := by
    unfold v3
    refine Keeps.foldl _ ?_ (fun t15 b15 h15 => ?_)
    · assumption
    · apply dropRing_keeps
      assumption
  clear_value v3
  have k16 : Keeps s v4 := by
    unfold v4
    apply releaseBufs_keeps
    assumption
  clear_value v4
  clear_value v5 v6 v7 v8 v9
  have k17 : Keeps s v10 := by
    unfold v10
    refine Keeps.set ?_
    assumption
  clear_value v10
  apply setSes_keeps
  assumption

theorem shutDown_keeps {s : State} (a0 : State) (h0 : Keeps s a0) : Keeps s (shutDown a0) := by
  delta shutDown
  extract_lets v0 v1 v2 v3
  have k4 : Keeps s v0 := by
    unfold v0
    apply endAll_keeps
    assumption
  clear_value v0
  have k5 : Keeps s v1 := by
    unfold v1
    refine Keeps.foldl _ ?_ (fun t6 b6 h6 => ?_)
    · assumption
    · apply endSession_keeps
      assumption
  clear_value v1
  clear_value v2 v3
  refine Keeps.set ?_
  assumption

theorem beginShutdown_keeps {s : State} (a0 : State) (h0 : Keeps s a0) : Keeps s (beginShutdown a0) := by
  delta beginShutdown
  refine Keeps.ite ?_ ?_
  · refine Keeps.set ?_
    assumption
  · refine Keeps.ite ?_ ?_
    · extract_lets v0 v1
      have k2 : Keeps s v0 := by
        unfold v0
        apply setPhase_keeps
        assumption
      clear_value v0
      clear_value v1
      refine Keeps.set ?_
      assumption
    · refine Keeps.ite ?_ ?_
      · assumption
      · refine Keeps.ite ?_ ?_
        · extract_lets v3 v4 v5
          have k6 : Keeps s v3 := by
            unfold v3
            apply setPhase_keeps
            assumption
          clear_value v3
          have k7 : Keeps s v4 := by
            unfold v4
            apply shutDown_keeps
            assumption
          clear_value v4
          clear_value v5
          refine Keeps.set ?_
          assumption
        · extract_lets v8 v9
          have k10 : Keeps s v8 := by
            unfold v8
            apply setPhase_keeps
            assumption
          clear_value v8
          clear_value v9
          refine Keeps.set ?_
          assumption

end Sys2Proof.Machine
end

