-- ==== Sys2Proof/Laws/KeepsLife.lean ====
section
/-! SUPPORT. What each operation keeps (Laws/Keeps), in the order in which they call one another: part two. -/

set_option linter.unusedVariables false

namespace Sys2Proof.Machine

theorem bootFail_keeps {s : State} (a0 : State) (a1 : ℕ) (a2 : ℕ) (h0 : Keeps s a0) : Keeps s (bootFail a0 a1 a2) := by
  delta bootFail
  extract_lets v0 v1
  have k2 : Keeps s v0 := by
    unfold v0
    apply setPhase_keeps
    assumption
  clear_value v0
  clear_value v1
  refine Keeps.set ?_
  assumption

theorem extendMr_keeps {s : State} (a0 : State) (a1 : ℕ) (a2 : List Byte) (h0 : Keeps s a0) : Keeps s (extendMr a0 a1 a2) := by
  delta extendMr
  refine Keeps.set ?_
  assumption

theorem booted_keeps {s : State} (a0 : State) (a1 : ℕ) (a2 : SignedObj) (h0 : Keeps s a0) : Keeps s (booted a0 a1 a2) := by
  delta booted
  extract_lets v0 v1
  have k2 : Keeps s v0 := by
    unfold v0
    apply extendMr_keeps
    assumption
  clear_value v0
  clear_value v1
  refine Keeps.set ?_
  assumption

theorem setRoot_keeps {s : State} (a0 : State) (a1 : ℕ) (a2 : RootRegs) (h0 : Keeps s a0) : Keeps s (setRoot a0 a1 a2) := by
  delta setRoot
  refine Keeps.set ?_
  assumption

theorem regClear_keeps {s : State} (a0 : State) (a1 : ℕ) (a2 : ℕ) (h0 : Keeps s a0) : Keeps s (regClear a0 a1 a2) := by
  delta regClear
  extract_lets v0 v1 v2 v3 v4 v5 v6
  clear_value v0 v1 v2 v3 v4 v5 v6
  refine Keeps.ite ?_ ?_
  · apply setMemRegs_keeps
    assumption
  · refine Keeps.ite ?_ ?_
    · apply setMemRegs_keeps
      assumption
    · refine Keeps.ite ?_ ?_
      · apply setMemRegs_keeps
        assumption
      · refine Keeps.ite ?_ ?_
        · apply setMemRegs_keeps
          assumption
        · refine Keeps.ite ?_ ?_
          · refine Keeps.set ?_
            assumption
          · refine Keeps.ite ?_ ?_
            · refine Keeps.set ?_
              assumption
            · refine Keeps.ite ?_ ?_
              · apply setTrace_keeps
                assumption
              · refine Keeps.ite ?_ ?_
                · apply setRoot_keeps
                  assumption
                · refine Keeps.ite ?_ ?_
                  · split
                    · apply setPort_keeps
                      assumption
                    · apply setPort_keeps
                      assumption
                    · apply setPort_keeps
                      assumption
                    · apply setPort_keeps
                      assumption
                    · apply setPort_keeps
                      assumption
                    · apply setPort_keeps
                      assumption
                    · assumption
                  · assumption

theorem busRead_keeps {s : State} (a0 : State) (a1 : ℕ) (a2 : ℕ) (a3 : ℕ) (h0 : Keeps s a0) : Keeps s (busRead a0 a1 a2 a3).1 := by
  delta busRead
  split
  · dsimp only
    assumption
  · split
    · dsimp only
      refine Keeps.set ?_
      assumption
    · split
      · dsimp only
        apply regClear_keeps
        assumption
      · dsimp only
        apply badAccess_keeps
        assumption

theorem enableRing_keeps {s : State} (a0 : State) (a1 a2 : Nat) (a3 : Bool) (h0 : Keeps s a0) : Keeps s (enableRing a0 a1 a2 a3) := by
  have fold : ∀ (l : List (Nat × Nat × Bool)) (g : State → Nat × Nat × Bool → Option State), (∀ t ar u, Keeps s t → g t ar = some u → Keeps s u) →
      ∀ t u, Keeps s t → l.foldl (fun (a : Option State) ar => match a with | none => none | some s => g s ar) (some t) = some u → Keeps s u := by
    intro l g hg
    induction l with
    | nil => intro t u ht e; cases e; exact ht
    | cons ar l ih =>
      intro t u ht e
      simp only [List.foldl_cons] at e
      cases hr : g t ar with
      | none =>
        rw [hr] at e
        have : ∀ l : List (Nat × Nat × Bool), l.foldl (fun (a : Option State) ar => match a with | none => none | some s => g s ar) none = none := by
          intro l
          induction l with
          | nil => rfl
          | cons _ l ih => exact ih
        rw [this] at e
        cases e
      | some v => rw [hr] at e; exact ih v u (hg t ar v ht hr) e
  delta enableRing
  extract_lets x s1 res
  have k1 : Keeps s s1 := setRing_keeps _ _ _ h0
  refine Keeps.ite (ringFault_keeps _ _ _ k1) ?_
  cases hres : res with
  | none => exact ringFault_keeps _ _ _ k1
  | some t =>
    have ht := hres
    unfold res at ht
    refine setRing_keeps _ _ _ (fold (ringAreas s1 a1) (fun s ar => match areaUse s a1 ar with
        | .bad => none
        | .usable => some s
        | .register b => some { s with bufs := s.bufs ++ [b] }) ?_ s1 t k1 ht)
    intro t ar u kt e
    cases hu : areaUse t a1 ar with
    | bad => rw [hu] at e; cases e
    | usable => rw [hu] at e; cases e; exact kt
    | register b => rw [hu] at e; cases e; exact Keeps.set kt

theorem writeRingCfg_keeps {s : State} (a0 : State) (a1 : ℕ) (a2 : ℕ) (h0 : Keeps s a0) : Keeps s (writeRingCfg a0 a1 a2) := by
  delta writeRingCfg
  extract_lets v0 v1
  clear_value v0 v1
  refine Keeps.ite ?_ ?_
  · refine Keeps.ite ?_ ?_
    · apply setRing_keeps
      assumption
    · apply dropRingBufs_keeps
      apply setRing_keeps
      assumption
  · refine Keeps.ite ?_ ?_
    · apply enableRing_keeps
      assumption
    · apply setRing_keeps
      assumption

theorem writeRingTail_keeps {s : State} (a0 : State) (a1 : ℕ) (a2 : ℕ) (h0 : Keeps s a0) : Keeps s (writeRingTail a0 a1 a2) := by
  delta writeRingTail
  extract_lets v0 v1 v2
  clear_value v0 v1
  have k3 : Keeps s v2 := by
    unfold v2
    apply setRing_keeps
    assumption
  clear_value v2
  refine Keeps.ite ?_ ?_
  · apply ringFault_keeps
    assumption
  · assumption

theorem ringWrite_keeps {s : State} (a0 : State) (a1 : ℕ) (a2 : ℕ) (a3 : ℕ) (h0 : Keeps s a0) : Keeps s (ringWrite a0 a1 a2 a3) := by
  delta ringWrite
  extract_lets v0
  clear_value v0
  split
  · refine Keeps.ite ?_ ?_
    · assumption
    · apply setRing_keeps
      assumption
  · refine Keeps.ite ?_ ?_
    · assumption
    · apply setRing_keeps
      assumption
  · apply writeRingCfg_keeps
    assumption
  · apply writeRingTail_keeps
    assumption
  · apply setRing_keeps
    assumption
  · apply setRing_keeps
    assumption
  · assumption

theorem writeScrub_keeps {s : State} (a0 : State) (a1 : ℕ) (a2 : ℕ) (h0 : Keeps s a0) : Keeps s (writeScrub a0 a1 a2) := by
  delta writeScrub
  extract_lets v0 v1 v2 v3
  clear_value v0 v1 v2 v3
  apply setMemRegs_keeps
  assumption

theorem writePwrCtrl_keeps {s : State} (a0 : State) (a1 : ℕ) (h0 : Keeps s a0) : Keeps s (writePwrCtrl a0 a1) := by
  delta writePwrCtrl
  extract_lets v0
  clear_value v0
  apply autoChange_keeps
  refine Keeps.set ?_
  assumption

theorem onWord_keeps {s : State} (a0 : State) (a1 : ℕ) (a2 : ℕ) (a3 : ℕ) (a4 : Sic → ℕ → Sic) (h0 : Keeps s a0) : Keeps s (onWord a0 a1 a2 a3 a4) := by
  delta onWord
  apply setSic_keeps
  assumption

theorem execSicEnSet_keeps {s : State} (a0 : ℕ) (a1 : ℕ) (a2 : ℕ) (a3 : State) (h0 : Keeps s a3) : KeepsO s (execSicEnSet a0 a1 a2 a3) := by
  delta execSicEnSet
  refine KeepsO.next ?_
  refine Keeps.ite ?_ ?_
  · apply onWord_keeps
    assumption
  · assumption

theorem execSicEnClr_keeps {s : State} (a0 : ℕ) (a1 : ℕ) (a2 : ℕ) (a3 : State) (h0 : Keeps s a3) : KeepsO s (execSicEnClr a0 a1 a2 a3) := by
  delta execSicEnClr
  refine KeepsO.next ?_
  refine Keeps.ite ?_ ?_
  · apply onWord_keeps
    assumption
  · assumption

theorem execSicPendSet_keeps {s : State} (a0 : ℕ) (a1 : ℕ) (a2 : ℕ) (a3 : State) (h0 : Keeps s a3) : KeepsO s (execSicPendSet a0 a1 a2 a3) := by
  delta execSicPendSet
  refine KeepsO.next ?_
  refine Keeps.ite ?_ ?_
  · apply onWord_keeps
    assumption
  · assumption

theorem execSicPendClr_keeps {s : State} (a0 : ℕ) (a1 : ℕ) (a2 : ℕ) (a3 : State) (h0 : Keeps s a3) : KeepsO s (execSicPendClr a0 a1 a2 a3) := by
  delta execSicPendClr
  refine KeepsO.next ?_
  refine Keeps.ite ?_ ?_
  · apply onWord_keeps
    assumption
  · assumption

theorem execSicSrcCfg_keeps {s : State} (a0 : ℕ) (a1 : ℕ) (a2 : ℕ) (a3 : State) (h0 : Keeps s a3) : KeepsO s (execSicSrcCfg a0 a1 a2 a3) := by
  delta execSicSrcCfg
  refine KeepsO.next ?_
  refine Keeps.ite ?_ ?_
  · extract_lets v0 v1
    clear_value v0 v1
    apply setSic_keeps
    assumption
  · assumption

theorem execSicSrcMod_keeps {s : State} (a0 : ℕ) (a1 : ℕ) (a2 : ℕ) (a3 : State) (h0 : Keeps s a3) : KeepsO s (execSicSrcMod a0 a1 a2 a3) := by
  delta execSicSrcMod
  refine KeepsO.next ?_
  refine Keeps.ite ?_ ?_
  · extract_lets v0 v1 v2
    clear_value v0 v1 v2
    apply setSic_keeps
    assumption
  · assumption

theorem execSicEoi_keeps {s : State} (a0 : ℕ) (a1 : ℕ) (a2 : ℕ) (a3 : State) (h0 : Keeps s a3) : KeepsO s (execSicEoi a0 a1 a2 a3) := by
  delta execSicEoi
  refine KeepsO.next ?_
  refine Keeps.ite ?_ ?_
  · apply setSic_keeps
    assumption
  · assumption

theorem execSicTgtCtrl_keeps {s : State} (a0 : ℕ) (a1 : ℕ) (a2 : ℕ) (a3 : State) (h0 : Keeps s a3) : KeepsO s (execSicTgtCtrl a0 a1 a2 a3) := by
  delta execSicTgtCtrl
  refine KeepsO.next ?_
  refine Keeps.ite ?_ ?_
  · extract_lets v0 v1
    clear_value v0 v1
    apply setSic_keeps
    assumption
  · assumption

theorem writeSic_keeps {s : State} (a0 : State) (a1 : ℕ) (a2 : ℕ) (a3 : ℕ) (h0 : Keeps s a0) : Keeps s (writeSic a0 a1 a2 a3) := by
  delta writeSic
  extract_lets v0 v1 v2 v3
  clear_value v0 v1 v2 v3
  refine Keeps.ite ?_ ?_
  · apply setSic_keeps
    assumption
  · refine Keeps.ite ?_ ?_
    · apply setSic_keeps
      assumption
    · refine Keeps.ite ?_ ?_
      · apply after_keeps
        · apply execSicEnSet_keeps
          assumption
        · assumption
      · refine Keeps.ite ?_ ?_
        · apply after_keeps
          · apply execSicEnClr_keeps
            assumption
          · assumption
        · refine Keeps.ite ?_ ?_
          · apply after_keeps
            · apply execSicPendSet_keeps
              assumption
            · assumption
          · refine Keeps.ite ?_ ?_
            · apply after_keeps
              · apply execSicPendClr_keeps
                assumption
              · assumption
            · refine Keeps.ite ?_ ?_
              · refine Keeps.ite ?_ ?_
                · apply after_keeps
                  · apply execSicSrcCfg_keeps
                    assumption
                  · assumption
                · apply after_keeps
                  · apply execSicSrcMod_keeps
                    assumption
                  · assumption
              · refine Keeps.ite ?_ ?_
                · split
                  · apply after_keeps
                    · apply execSicEoi_keeps
                      assumption
                    · assumption
                  · apply setSic_keeps
                    assumption
                  · apply after_keeps
                    · apply execSicTgtCtrl_keeps
                      assumption
                    · assumption
                  · assumption
                · assumption

theorem execCntCtrl_keeps {s : State} (a0 : ℕ) (a1 : ℕ) (a2 : State) (h0 : Keeps s a2) : KeepsO s (execCntCtrl a0 a1 a2) := by
  delta execCntCtrl
  refine KeepsO.next ?_
  refine Keeps.ite ?_ ?_
  · apply setCnt_keeps
    assumption
  · assumption

theorem execCntClear_keeps {s : State} (a0 : ℕ) (a1 : ℕ) (a2 : State) (h0 : Keeps s a2) : KeepsO s (execCntClear a0 a1 a2) := by
  delta execCntClear
  refine KeepsO.next ?_
  refine Keeps.ite ?_ ?_
  · extract_lets v0
    clear_value v0
    apply setCnt_keeps
    assumption
  · assumption

theorem writeSlot_keeps {s : State} (a0 : State) (a1 : ℕ) (a2 : ℕ) (a3 : ℕ) (a4 : ℕ) (h0 : Keeps s a0) : Keeps s (writeSlot a0 a1 a2 a3 a4) := by
  delta writeSlot
  extract_lets v0 v1 v2 v3
  clear_value v0 v1 v2 v3
  apply setCnt_keeps
  assumption

theorem execTrCtrl_keeps {s : State} (a0 : ℕ) (a1 : ℕ) (a2 : State) (h0 : Keeps s a2) : KeepsO s (execTrCtrl a0 a1 a2) := by
  delta execTrCtrl
  refine KeepsO.next ?_
  refine Keeps.ite ?_ ?_
  · extract_lets v0 v1 v2 v3 v4 v5 v6
    clear_value v0 v1 v2 v3 v4 v5 v6
    refine Keeps.ite ?_ ?_
    · apply setTrace_keeps
      assumption
    · refine Keeps.ite ?_ ?_
      · apply setTrace_keeps
        assumption
      · apply setTrace_keeps
        assumption
  · assumption

theorem execTrTrigNow_keeps {s : State} (a0 : ℕ) (a1 : ℕ) (a2 : State) (h0 : Keeps s a2) : KeepsO s (execTrTrigNow a0 a1 a2) := by
  delta execTrTrigNow
  refine KeepsO.next ?_
  refine Keeps.ite ?_ ?_
  · apply setTrace_keeps
    assumption
  · assumption

theorem execTrMark_keeps {s : State} (a0 : ℕ) (a1 : ℕ) (a2 : State) (h0 : Keeps s a2) : KeepsO s (execTrMark a0 a1 a2) := by
  delta execTrMark
  refine KeepsO.next ?_
  refine Keeps.ite ?_ ?_
  · apply traceRec_keeps
    assumption
  · assumption

theorem writeTrace_keeps {s : State} (a0 : State) (a1 : ℕ) (a2 : ℕ) (a3 : ℕ) (h0 : Keeps s a0) : Keeps s (writeTrace a0 a1 a2 a3) := by
  delta writeTrace
  extract_lets v0 v1
  clear_value v0 v1
  split
  · apply after_keeps
    · apply execTrCtrl_keeps
      assumption
    · assumption
  · refine Keeps.ite ?_ ?_
    · assumption
    · apply setTrace_keeps
      assumption
  · refine Keeps.ite ?_ ?_
    · assumption
    · apply setTrace_keeps
      assumption
  · refine Keeps.ite ?_ ?_
    · assumption
    · apply setTrace_keeps
      assumption
  · apply setTrace_keeps
    assumption
  · apply setTrace_keeps
    assumption
  · apply setTrace_keeps
    assumption
  · apply setTrace_keeps
    assumption
  · apply after_keeps
    · apply execTrTrigNow_keeps
      assumption
    · assumption
  · apply after_keeps
    · apply execTrMark_keeps
      assumption
    · assumption
  · assumption

theorem trainPort_keeps {s : State} (a0 : State) (a1 : ℕ) (h0 : Keeps s a0) : Keeps s (trainPort a0 a1) := by
  delta trainPort
  extract_lets v0 v1
  clear_value v0 v1
  apply setPort_keeps
  assumption

theorem execPortCtrl_keeps {s : State} (a0 : ℕ) (a1 : ℕ) (a2 : State) (h0 : Keeps s a2) : KeepsO s (execPortCtrl a0 a1 a2) := by
  delta execPortCtrl
  refine KeepsO.next ?_
  extract_lets v0 v1 v2
  clear_value v0
  have k3 : Keeps s v1 := by
    unfold v1
    apply setPort_keeps
    assumption
  clear_value v1
  clear_value v2
  refine Keeps.ite ?_ ?_
  · apply setPort_keeps
    assumption
  · refine Keeps.ite ?_ ?_
    · apply trainPort_keeps
      assumption
    · assumption

theorem execPortCredit_keeps {s : State} (a0 : ℕ) (a1 : ℕ) (a2 : State) (h0 : Keeps s a2) : KeepsO s (execPortCredit a0 a1 a2) := by
  delta execPortCredit
  refine KeepsO.next ?_
  refine Keeps.ite ?_ ?_
  · apply setPort_keeps
    assumption
  · apply regAccess_keeps
    assumption

theorem writePort_keeps {s : State} (a0 : State) (a1 : ℕ) (a2 : ℕ) (a3 : ℕ) (h0 : Keeps s a0) : Keeps s (writePort a0 a1 a2 a3) := by
  delta writePort
  extract_lets v0
  clear_value v0
  split
  · apply after_keeps
    · apply execPortCtrl_keeps
      assumption
    · assumption
  · apply setPort_keeps
    assumption
  · apply setPort_keeps
    assumption
  · apply after_keeps
    · apply execPortCredit_keeps
      assumption
    · assumption
  · refine Keeps.ite ?_ ?_
    · assumption
    · apply setPort_keeps
      assumption
  · assumption

theorem regWrite_keeps {s : State} (a0 : State) (a1 : ℕ) (a2 : ℕ) (a3 : ℕ) (h0 : Keeps s a0) : Keeps s (regWrite a0 a1 a2 a3) := by
  delta regWrite
  refine Keeps.ite ?_ ?_
  · apply writeScrub_keeps
    assumption
  · refine Keeps.ite ?_ ?_
    · apply writePwrCtrl_keeps
      assumption
    · refine Keeps.ite ?_ ?_
      · apply writeSic_keeps
        assumption
      · refine Keeps.ite ?_ ?_
        · extract_lets v0 v1
          clear_value v0 v1
          refine Keeps.ite ?_ ?_
          · apply after_keeps
            · apply execCntCtrl_keeps
              assumption
            · assumption
          · refine Keeps.ite ?_ ?_
            · apply setCnt_keeps
              assumption
            · refine Keeps.ite ?_ ?_
              · apply after_keeps
                · apply execCntClear_keeps
                  assumption
                · assumption
              · refine Keeps.ite ?_ ?_
                · apply setCnt_keeps
                  assumption
                · split
                  · apply writeSlot_keeps
                    assumption
                  · assumption
        · refine Keeps.ite ?_ ?_
          · apply writeTrace_keeps
            assumption
          · refine Keeps.ite ?_ ?_
            · apply writePort_keeps
              assumption
            · refine Keeps.ite ?_ ?_
              · apply releaseAll_keeps
                refine Keeps.set ?_
                assumption
              · assumption

theorem busWrite_keeps {s : State} (a0 : State) (a1 : Via) (a2 : ℕ) (a3 : ℕ) (a4 : ℕ) (a5 : ℕ) (h0 : Keeps s a0) : Keeps s (busWrite a0 a1 a2 a3 a4 a5) := by
  delta busWrite
  refine Keeps.ite ?_ ?_
  · assumption
  · split
    · split
      · refine Keeps.ite ?_ ?_
        · apply ringWrite_keeps
          assumption
        · assumption
      · apply regWrite_keeps
        assumption
    · apply badAccess_keeps
      assumption

theorem ckptEff_keeps {s : State} (a0 : State) (a1 : Cmd) (h0 : Keeps s a0) : Keeps s (ckptEff a0 a1) := by
  delta ckptEff
  extract_lets v0
  clear_value v0
  refine Keeps.foldl _ ?_ (fun t1 b1 h1 => ?_)
  · assumption
  · apply wrLocal_keeps
    assumption

theorem ckptStart_keeps {s : State} (a0 : State) (a1 : Cmd) (h0 : Keeps s a0) : KeepsR s (ckptStart a0 a1) := by
  delta ckptStart
  extract_lets v0 v1 v2 v3
  clear_value v0 v1 v2 v3
  refine KeepsR.ite ?_ ?_
  · apply badIn_keeps
  · refine KeepsR.ite ?_ ?_
    · apply badIn_keeps
    · refine KeepsR.ite ?_ ?_
      · exact True.intro
      · refine KeepsR.go ?_
        assumption

theorem clearFail_keeps {s : State} (a0 : State) (a1 : List Byte) (h0 : Keeps s a0) : Keeps s (clearFail a0 a1) := by
  delta clearFail
  refine Keeps.set ?_
  assumption

theorem clearHold_keeps {s : State} (a0 : State) (a1 : Bool) (h0 : Keeps s a0) : Keeps s (clearHold a0 a1) := by
  delta clearHold
  apply autoChange_keeps
  refine Keeps.set ?_
  assumption

theorem clearStores_keeps {s : State} (a0 : State) (a1 : Cmd) (a2 : Place) (h0 : Keeps s a0) : Keeps s (clearStores a0 a1 a2) := by
  delta clearStores
  refine Keeps.ite ?_ ?_
  · assumption
  · extract_lets v0 v1 v2
    clear_value v0 v1 v2
    refine Keeps.ite ?_ ?_
    · apply setRoot_keeps
      assumption
    · refine Keeps.foldl _ ?_ (fun t3 b3 h3 => ?_)
      · assumption
      · extract_lets v4 v5 v6 v7
        clear_value v4 v5 v6
        have k8 : Keeps s v7 := by
          unfold v7
          refine Keeps.ite ?_ ?_
          · refine Keeps.setMem ?_ (memZero_wf _ _)
            assumption
          · assumption
        clear_value v7
        refine Keeps.set ?_
        assumption

theorem requeueRe_keeps {s : State} (a0 : State) (a1 : Cmd) (h0 : Keeps s a0) : Keeps s (requeueRe a0 a1) := by
  delta requeueRe
  refine Keeps.ite ?_ ?_
  · assumption
  · extract_lets v0 v1
    clear_value v0 v1
    refine Keeps.set ?_
    assumption

theorem killCmd_keeps {s : State} (a0 : State) (a1 : Cmd) (a2 : ℕ) (h0 : Keeps s a0) : Keeps s (killCmd a0 a1 a2) := by
  delta killCmd
  extract_lets v0 v1 v2 v3 v4 v5 v6 v7 v8 v9 v10 v11 v12 v13 v14 v15
  clear_value v0
  have k16 : Keeps s v1.1 := by
    unfold v1
    split
    · apply endStall_keeps
      assumption
    · dsimp only
      assumption
  clear_value v1
  have k17 : Keeps s v2 := by
    unfold v2
    apply releaseRun_keeps
    assumption
  clear_value v2
  clear_value v3
  have k18 : Keeps s v4 := by
    unfold v4
    split
    · apply settleSetters_keeps
      apply leaveQueue_keeps
      assumption
    · assumption
  clear_value v4
  have k19 : Keeps s v5 := by
    unfold v5
    refine Keeps.ite ?_ ?_
    · apply traceRec_keeps
      assumption
    · assumption
  clear_value v5
  have k20 : Keeps s v6 := by
    unfold v6
    refine Keeps.ite ?_ ?_
    · apply drift_keeps
      apply jobCount_keeps
      assumption
    · assumption
  clear_value v6
  have k21 : Keeps s v7 := by
    unfold v7
    split
    · refine Keeps.ite ?_ ?_
      · apply count_keeps
        assumption
      · assumption
    · assumption
  clear_value v7
  have k22 : Keeps s v8 := by
    unfold v8
    apply seqAttn_keeps
    assumption
  clear_value v8
  clear_value v9 v10
  have k23 : Keeps s v11 := by
    unfold v11
    apply requeueRe_keeps
    apply putCmd_keeps
    assumption
  clear_value v11
  clear_value v12
  have k24 : Keeps s v13 := by
    unfold v13
    refine Keeps.ite ?_ ?_
    · apply returnClaim_keeps
      assumption
    · assumption
  clear_value v13
  clear_value v14
  have k25 : Keeps s v15 := by
    unfold v15
    apply reclaim_keeps
    apply setLock_keeps
    assumption
  clear_value v15
  refine Keeps.ite ?_ ?_
  · assumption
  · split
    · apply putCmd_keeps
      assumption
    · assumption

theorem collCancelled_keeps {s : State} (a0 : State) (a1 : MsgHdr) (h0 : Keeps s a0) : Keeps s (collCancelled a0 a1) := by
  delta collCancelled
  refine Keeps.foldl _ ?_ (fun t0 b0 h0 => ?_)
  · assumption
  · extract_lets v1 v2 v3
    clear_value v1 v2
    have k4 : Keeps s v3 := by
      unfold v3
      refine Keeps.set ?_
      assumption
    clear_value v3
    apply killCmd_keeps
    assumption

theorem putStream_keeps {s : State} (a0 : State) (a1 : Stream) (h0 : Keeps s a0) : Keeps s (putStream a0 a1) := by
  delta putStream
  refine Keeps.set ?_
  assumption

theorem putRound_keeps {s : State} (a0 : State) (a1 : Round) (h0 : Keeps s a0) : Keeps s (putRound a0 a1) := by
  delta putRound
  refine Keeps.set ?_
  assumption

theorem collEff_keeps {s : State} (a0 : State) (a1 : Cmd) (h0 : Keeps s a0) : Keeps s (collEff a0 a1) := by
  delta collEff
  extract_lets v0 v1 v2 v3 v4 v5 v6 v7 v8 v9 v10 v11
  clear_value v0 v1 v2 v3 v4
  have k12 : Keeps s v5 := by
    unfold v5
    apply putStream_keeps
    assumption
  clear_value v5
  clear_value v6
  have k13 : Keeps s v7 := by
    unfold v7
    apply putStream_keeps
    assumption
  clear_value v7
  have k14 : Keeps s v8 := by
    unfold v8
    refine Keeps.ite ?_ ?_
    · apply addGacc_keeps
      assumption
    · assumption
  clear_value v8
  clear_value v9 v10
  have k15 : Keeps s v11 := by
    unfold v11
    refine Keeps.ite ?_ ?_
    · refine Keeps.set ?_
      assumption
    · assumption
  clear_value v11
  refine Keeps.ite ?_ ?_
  · refine Keeps.ite ?_ ?_
    · split
      · apply addGacc_keeps
        assumption
      · assumption
    · assumption
  · refine Keeps.ite ?_ ?_
    · split
      · refine Keeps.foldl _ ?_ (fun t16 b16 h16 => ?_)
        · apply putRound_keeps
          assumption
        · apply answerLate_keeps
          assumption
      · assumption
    · assumption

theorem stage_keeps {s : State} (a0 : State → Cmd → State) (a1 : State) (a2 : Cmd) (a3 : Stg) (h0 : ∀ y0 y1, Keeps s y0 → Keeps s (a0 y0 y1)) (h1 : Keeps s a1) : Keeps s (stage a0 a1 a2 a3) := by
  delta stage
  extract_lets v0 v1 v2 v3
  clear_value v0 v1
  have k4 : Keeps s v2 := by
    unfold v2
    refine Keeps.foldl _ ?_ (fun t5 b5 h5 => ?_)
    · assumption
    · apply sendCmd_keeps
      assumption
  clear_value v2
  have k6 : Keeps s v3 := by
    unfold v3
    apply count_keeps
    assumption
  clear_value v3
  split
  · apply endLink_keeps
    assumption
  · refine Keeps.ite ?_ ?_
    · apply commitWith_keeps
      · intro y7 y8 y9
        apply h0
        assumption
      · assumption
    · apply putCmd_keeps
      assumption

theorem tryFlip_keeps {s : State} (a0 : State) (a1 : Cmd) (h0 : Keeps s a0) : Keeps s (tryFlip a0 a1) := by
  delta tryFlip
  extract_lets v0 v1 v2 v3 v4
  clear_value v0 v1 v2 v3
  have k5 : Keeps s v4 := by
    unfold v4
    refine Keeps.foldl _ ?_ (fun t6 b6 h6 => ?_)
    · assumption
    · apply sendCmd_keeps
      assumption
  clear_value v4
  refine Keeps.ite ?_ ?_
  · apply putCmd_keeps
    assumption
  · assumption

theorem collFinish_keeps {s : State} (a0 : State) (a1 : Cmd) (h0 : Keeps s a0) : Keeps s (collFinish a0 a1) := by
  delta collFinish
  refine Keeps.ite ?_ ?_
  · assumption
  · extract_lets v0 v1
    clear_value v0
    have k2 : Keeps s v1 := by
      unfold v1
      apply stage_keeps
      · intro y3 y4 y5
        apply collEff_keeps
        assumption
      · assumption
    clear_value v1
    split
    · assumption
    · extract_lets v6 v7
      clear_value v6
      have k8 : Keeps s v7 := by
        unfold v7
        refine Keeps.ite ?_ ?_
        · refine Keeps.foldl _ ?_ (fun t9 b9 h9 => ?_)
          · assumption
          · apply send_keeps
            assumption
        · refine Keeps.ite ?_ ?_
          · refine Keeps.foldl _ ?_ (fun t10 b10 h10 => ?_)
            · assumption
            · refine Keeps.ite ?_ ?_
              · apply send_keeps
                assumption
              · assumption
          · assumption
      clear_value v7
      apply tryFlip_keeps
      assumption

theorem takeSet_keeps {s : State} (a0 : State) (a1 : Cmd) (a2 : List ℕ) (a3 : ℕ) (a4 : ℕ) (a5 : ℕ) (h0 : Keeps s a0) : Keeps s (takeSet a0 a1 a2 a3 a4 a5) := by
  delta takeSet
  extract_lets v0 v1 v2 v3 v4
  clear_value v0 v1
  have k5 : Keeps s v2 := by
    unfold v2
    apply putCmd_keeps
    assumption
  clear_value v2
  clear_value v3
  have k6 : Keeps s v4 := by
    unfold v4
    refine Keeps.foldl _ ?_ (fun t7 b7 h7 => ?_)
    · assumption
    · apply sendCmd_keeps
      assumption
  clear_value v4
  apply collFinish_keeps
  assumption

theorem freezeRound_keeps {s : State} (a0 : State) (a1 : Round) (h0 : Keeps s a0) : Keeps s (freezeRound a0 a1) := by
  delta freezeRound
  split
  · assumption
  · extract_lets v0 v1 v2 v3 v4 v5
    clear_value v0 v1
    have k6 : Keeps s v2 := by
      unfold v2
      apply putRound_keeps
      assumption
    clear_value v2
    clear_value v3
    have k7 : Keeps s v4 := by
      unfold v4
      apply putStream_keeps
      assumption
    clear_value v4
    have k8 : Keeps s v5 := by
      unfold v5
      refine Keeps.foldl _ ?_ (fun t9 b9 h9 => ?_)
      · assumption
      · apply sendCmd_keeps
        assumption
    clear_value v5
    refine Keeps.ite ?_ ?_
    · apply takeSet_keeps
      assumption
    · assumption

theorem freezeIfDue_keeps {s : State} (a0 : State) (a1 : ℕ) (a2 : ℕ) (a3 : ℕ) (a4 : ℕ) (h0 : Keeps s a0) : Keeps s (freezeIfDue a0 a1 a2 a3 a4) := by
  delta freezeIfDue
  split
  · extract_lets v0 v1
    clear_value v0 v1
    refine Keeps.ite ?_ ?_
    · apply freezeRound_keeps
      assumption
    · assumption
  · assumption

theorem freezeFrom_keeps {s : State} (n : Nat) (a0 : State) (a1 a2 a3 a4 : Nat) (h0 : Keeps s a0) : Keeps s (freezeFrom n a0 a1 a2 a3 a4) := by
  induction n generalizing a0 a4 with
  | zero => exact h0
  | succ n ih => exact Keeps.ite (ih _ _ (freezeIfDue_keeps _ _ _ _ _ h0)) (freezeIfDue_keeps _ _ _ _ _ h0)

theorem tryFreeze_keeps {s : State} (a0 : State) (a1 : Nat) (a2 : Nat) (a3 : Nat) (a4 : Nat) (h0 : Keeps s a0) : Keeps s (tryFreeze a0 a1 a2 a3 a4) :=
  freezeFrom_keeps _ _ _ _ _ _ h0

theorem collLost_keeps {s : State} (a0 : State) (a1 : ℕ) (h0 : Keeps s a0) : Keeps s (collLost a0 a1) := by
  delta collLost
  extract_lets v0 v1
  have k2 : Keeps s v0 := by
    unfold v0
    refine Keeps.set ?_
    assumption
  clear_value v0
  have k3 : Keeps s v1 := by
    unfold v1
    refine Keeps.foldl _ ?_ (fun t4 b4 h4 => ?_)
    · assumption
    · apply tryFreeze_keeps
      assumption
  clear_value v1
  refine Keeps.foldl _ ?_ (fun t5 b5 h5 => ?_)
  · assumption
  · extract_lets v6 v7 v8 v9 v10 v11
    clear_value v6 v7 v8 v9 v10
    have k12 : Keeps s v11 := by
      unfold v11
      refine Keeps.set ?_
      assumption
    clear_value v11
    refine Keeps.ite ?_ ?_
    · refine Keeps.ite ?_ ?_
      · apply killCmd_keeps
        assumption
      · refine Keeps.ite ?_ ?_
        · refine Keeps.ite ?_ ?_
          · apply killCmd_keeps
            assumption
          · assumption
        · apply endCmd_keeps
          assumption
    · refine Keeps.ite ?_ ?_
      · apply killCmd_keeps
        assumption
      · assumption

theorem mismatch_keeps {s : State} (a0 : State) (a1 : ℕ) (a2 : ℕ) (a3 : ℕ) (a4 : ℕ) (h0 : Keeps s a0) : Keeps s (mismatch a0 a1 a2 a3 a4) := by
  delta mismatch
  extract_lets v0 v1 v2 v3
  clear_value v0
  have k4 : Keeps s v1 := by
    unfold v1
    refine Keeps.foldl _ ?_ (fun t5 b5 h5 => ?_)
    · assumption
    · apply endCmd_keeps
      apply raiseCmd_keeps
      assumption
  clear_value v1
  clear_value v2
  have k6 : Keeps s v3 := by
    unfold v3
    refine Keeps.foldl _ ?_ (fun t7 b7 h7 => ?_)
    · assumption
    · refine Keeps.foldl _ ?_ (fun t8 b8 h8 => ?_)
      · assumption
      · apply send_keeps
        assumption
  clear_value v3
  refine Keeps.set ?_
  assumption

theorem joinRound_keeps {s : State} (a0 : State) (a1 : ℕ) (a2 : ℕ) (a3 : ℕ) (a4 : ℕ) (a5 : ℕ) (a6 : ℕ) (a7 : Bool) (h0 : Keeps s a0) : Keeps s (joinRound a0 a1 a2 a3 a4 a5 a6 a7) := by
  delta joinRound
  extract_lets v0 v1 v2 v3
  clear_value v0 v1
  have k4 : Keeps s v2 := by
    unfold v2
    apply count_keeps
    assumption
  clear_value v2
  have k5 : Keeps s v3 := by
    unfold v3
    apply raise_keeps
    apply fire_keeps
    assumption
  clear_value v3
  split
  · refine Keeps.ite ?_ ?_
    · apply mismatch_keeps
      apply putRound_keeps
      assumption
    · refine Keeps.ite ?_ ?_
      · refine Keeps.ite ?_ ?_
        · apply answerLate_keeps
          assumption
        · refine Keeps.ite ?_ ?_
          · apply send_keeps
            assumption
          · apply putRound_keeps
            assumption
      · apply tryFreeze_keeps
        apply putRound_keeps
        assumption
  · apply tryFreeze_keeps
    apply putRound_keeps
    assumption

theorem collRun_keeps {s : State} (a0 : ℕ) (a1 : ℕ) (a2 : State) (h0 : Keeps s a2) : Keeps s (collRun a0 a1 a2) := by
  delta collRun
  split
  · assumption
  · refine Keeps.ite ?_ ?_
    · assumption
    · refine Keeps.ite ?_ ?_
      · extract_lets v0 v1 v2 v3 v4 v5
        clear_value v0 v1 v2 v3 v4
        have k6 : Keeps s v5 := by
          unfold v5
          apply putCmd_keeps
          assumption
        clear_value v5
        split
        · assumption
        · refine Keeps.ite ?_ ?_
          · apply joinRound_keeps
            assumption
          · split
            · apply endCmd_keeps
              assumption
            · apply sendCmd_keeps
              assumption
      · refine Keeps.ite ?_ ?_
        · apply collFinish_keeps
          assumption
        · assumption

theorem collStart_keeps {s : State} (a0 : State) (a1 : Cmd) (h0 : Keeps s a0) : KeepsR s (collStart a0 a1) := by
  delta collStart
  extract_lets v0 v1 v2 v3 v4 v5 v6 v7 v8
  clear_value v0 v1 v2 v3 v4 v5 v6 v7 v8
  refine KeepsR.ite ?_ ?_
  · apply badIn_keeps
  · refine KeepsR.ite ?_ ?_
    · apply badIn_keeps
    · refine KeepsR.ite ?_ ?_
      · exact True.intro
      · refine KeepsR.ite ?_ ?_
        · apply badIn_keeps
        · refine KeepsR.ite ?_ ?_
          · apply badIn_keeps
          · refine KeepsR.ite ?_ ?_
            · apply badIn_keeps
            · refine KeepsR.ite ?_ ?_
              · apply badIn_keeps
              · refine KeepsR.ite ?_ ?_
                · split
                  · apply badIn_keeps
                  · refine KeepsR.ite ?_ ?_
                    · refine KeepsR.go ?_
                      assumption
                    · exact True.intro
                · refine KeepsR.ite ?_ ?_
                  · refine KeepsR.ite ?_ ?_
                    · apply badIn_keeps
                    · refine KeepsR.ite ?_ ?_
                      · apply badIn_keeps
                      · refine KeepsR.go ?_
                        assumption
                  · refine KeepsR.ite ?_ ?_
                    · refine KeepsR.ite ?_ ?_
                      · apply badIn_keeps
                      · refine KeepsR.ite ?_ ?_
                        · apply badIn_keeps
                        · refine KeepsR.go ?_
                          assumption
                    · refine KeepsR.go ?_
                      assumption

theorem zeroLocal_keeps {s : State} (a0 : State) (a1 : ℕ) (a2 : ℕ) (a3 : ℕ) (h0 : Keeps s a0) : Keeps s (zeroLocal a0 a1 a2 a3) := by
  delta zeroLocal
  refine Keeps.setMem ?_ (memZero_wf _ _)
  assumption

theorem zeroRegion_keeps {s : State} (a0 : State) (a1 : Cmd) (a2 : ℕ) (a3 : ℕ) (h0 : Keeps s a0) : Keeps s (zeroRegion a0 a1 a2 a3) := by
  delta zeroRegion
  extract_lets v0
  clear_value v0
  apply markDirty_keeps
  apply zeroLocal_keeps
  assumption

theorem shardCopyEff_keeps {s : State} (a0 : State) (a1 : Cmd) (h0 : Keeps s a0) : Keeps s (shardCopyEff a0 a1) := by
  delta shardCopyEff
  split
  · extract_lets v0 v1
    clear_value v0 v1
    split
    · assumption
    · refine Keeps.ite ?_ ?_
      · apply copyEnded_keeps
        refine Keeps.set ?_
        assumption
      · extract_lets v2 v3
        have k4 : Keeps s v2 := by
          unfold v2
          apply zeroRegion_keeps
          assumption
        clear_value v2
        clear_value v3
        apply copyEnded_keeps
        apply putShard_keeps
        assumption
  · assumption

theorem syncFlight_keeps {s : State} (a0 : State) (a1 : ℕ) (a2 : Flight) (h0 : Keeps s a0) : Keeps s (syncFlight a0 a1 a2) := by
  delta syncFlight
  apply wrLocal_keeps
  assumption

theorem putFlight_keeps {s : State} (a0 : State) (a1 : ℕ) (a2 : Flight) (h0 : Keeps s a0) : Keeps s (putFlight a0 a1 a2) := by
  delta putFlight
  apply syncFlight_keeps
  refine Keeps.set ?_
  assumption

theorem pushEff_keeps {s : State} (a0 : State) (a1 : Cmd) (h0 : Keeps s a0) : Keeps s (pushEff a0 a1) := by
  delta pushEff
  split
  · split
    · assumption
    · extract_lets v0 v1 v2
      clear_value v0 v1 v2
      apply putFlight_keeps
      assumption
  · assumption

theorem putFset_keeps {s : State} (a0 : State) (a1 : ℕ) (a2 : Fset) (h0 : Keeps s a0) : Keeps s (putFset a0 a1 a2) := by
  delta putFset
  extract_lets v0 v1
  have k2 : Keeps s v0 := by
    unfold v0
    refine Keeps.set ?_
    assumption
  clear_value v0
  clear_value v1
  apply wrLocal_keeps
  apply wrLocal_keeps
  assumption

theorem rootEff_keeps {s : State} (a0 : State) (a1 : Cmd) (h0 : Keeps s a0) : Keeps s (rootEff a0 a1) := by
  delta rootEff
  split
  · split
    · assumption
    · refine Keeps.ite ?_ ?_
      · apply putFset_keeps
        assumption
      · refine Keeps.ite ?_ ?_
        · extract_lets v0
          have k1 : Keeps s v0 := by
            unfold v0
            apply putFset_keeps
            assumption
          clear_value v0
          split
          · apply raiseCmd_keeps
            assumption
          · assumption
        · assumption
  · assumption

theorem dryWatch_keeps {s : State} (a0 : State) (a1 : Cmd) (a2 : ℕ) (a3 : ℕ) (a4 : ℕ) (h0 : Keeps s a0) : Keeps s (dryWatch a0 a1 a2 a3 a4) := by
  delta dryWatch
  split
  · assumption
  · split
    · assumption
    · refine Keeps.ite ?_ ?_
      · extract_lets v0 v1
        clear_value v0
        have k2 : Keeps s v1 := by
          unfold v1
          refine Keeps.set ?_
          assumption
        clear_value v1
        refine Keeps.ite ?_ ?_
        · apply raiseFor_keeps
          assumption
        · assumption
      · refine Keeps.set ?_
        assumption

theorem hideWork_keeps {s : State} (a0 : State) (a1 : Cmd) (h0 : Keeps s a0) : Keeps s (hideWork a0 a1) := by
  delta hideWork
  refine Keeps.foldl _ ?_ (fun t0 b0 h0 => ?_)
  · assumption
  · refine Keeps.set ?_
    assumption

theorem updEff_keeps {s : State} (a0 : State) (a1 : Cmd) (h0 : Keeps s a0) : Keeps s (updEff a0 a1) := by
  delta updEff
  extract_lets v0 v1 v2
  clear_value v0 v1 v2
  split
  · assumption
  · extract_lets v3 v4 v5 v6 v7 v8 v9
    have k10 : Keeps s v3 := by
      unfold v3
      refine Keeps.ite ?_ ?_
      · apply zeroRegion_keeps
        assumption
      · assumption
    clear_value v3
    clear_value v4
    have k11 : Keeps s v5 := by
      unfold v5
      apply putShard_keeps
      assumption
    clear_value v5
    have k12 : Keeps s v6 := by
      unfold v6
      apply raiseCmd_keeps
      assumption
    clear_value v6
    clear_value v7 v8
    have k13 : Keeps s v9 := by
      unfold v9
      apply putShard_keeps
      assumption
    clear_value v9
    refine Keeps.ite ?_ ?_
    · apply dryWatch_keeps
      assumption
    · apply dryWatch_keeps
      apply hideWork_keeps
      assumption

theorem shardEff_keeps {s : State} (a0 : State) (a1 : Cmd) (h0 : Keeps s a0) : Keeps s (shardEff a0 a1) := by
  delta shardEff
  extract_lets v0 v1 v2 v3 v4
  clear_value v0 v1 v2
  have k5 : Keeps s v3 := by
    unfold v3
    apply zeroRegion_keeps
    apply zeroRegion_keeps
    assumption
  clear_value v3
  have k6 : Keeps s v4 := by
    unfold v4
    refine Keeps.ite ?_ ?_
    · apply zeroRegion_keeps
      apply zeroRegion_keeps
      assumption
    · assumption
  clear_value v4
  apply putShard_keeps
  assumption

theorem writeRegs_keeps {s : State} (a0 : State) (a1 : SWrite) (h0 : Keeps s a0) : Keeps s (writeRegs a0 a1) := by
  delta writeRegs
  split
  · assumption
  · refine Keeps.foldl _ ?_ (fun t0 b0 h0 => ?_)
    · assumption
    · apply busWrite_keeps
      assumption

theorem moveEff_keeps {s : State} (a0 : State) (a1 : Cmd) (h0 : Keeps s a0) : Keeps s (moveEff a0 a1) := by
  delta moveEff
  refine Keeps.foldl _ ?_ (fun t0 b0 h0 => ?_)
  · assumption
  · apply writeRegs_keeps
    assumption

theorem commitEff_keeps {s : State} (a0 : Cmd) (a1 : State) (a2 : Cmd) (h0 : Keeps s a1) : Keeps s (commitEff a0 a1 a2) := by
  have pick : ∀ (p : Prop) [Decidable p] (f g : State → Cmd → State), Keeps s (f a1 a2) → Keeps s (g a1 a2) → Keeps s ((if p then f else g) a1 a2) := by
    intro p _ f g hf hg
    by_cases hp : p
    · rw [if_pos hp]; exact hf
    · rw [if_neg hp]; exact hg
  have hn := noEffect_keeps a1 a2 h0
  have rest := pick (a0.pkt.clsOp = 0x101) _ _ (pushEff_keeps _ _ h0) (pick (a0.pkt.cls = 4) _ _ (rootEff_keeps _ _ h0)
    (pick (a0.pkt.cls = 6) _ _ (pick (a0.pkt.op ≤ 3) _ _ (updEff_keeps _ _ h0) (pick (a0.pkt.op = 8) _ _ (shardEff_keeps _ _ h0) hn))
      (pick (a0.pkt.cls = 7 ∧ a0.pkt.op < 0x10) _ _ (moveEff_keeps _ _ h0) (pick (a0.pkt.cls = 9) _ _ (collEff_keeps _ _ h0) hn))))
  unfold commitEff
  cases a0.origin with
  | shardCopy p e => exact shardCopyEff_keeps _ _ h0
  | _ => exact rest

theorem commitRow_keeps {s : State} (a0 : State) (a1 : Cmd) (h0 : Keeps s a0) : Keeps s (commitRow a0 a1) := by
  delta commitRow
  apply commitWith_keeps
  · intro y0 y1 y2
    apply noEffect_keeps
    assumption
  · assumption

theorem copyDone_keeps {s : State} (a0 : State) (a1 : Cmd) (a2 : ℕ) (a3 : ℕ) (a4 : ℕ × ℕ × ℕ) (h0 : Keeps s a0) : Keeps s (copyDone a0 a1 a2 a3 a4) := by
  delta copyDone
  apply copyEnded_keeps
  apply dropCmd_keeps
  apply releaseRun_keeps
  assumption

theorem copyDump_keeps {s : State} (a0 : State) (a1 : Nat) (h0 : Keeps s a0) : Keeps s (copyDump a0 a1) := by
  delta copyDump
  extract_lets host v
  refine Keeps.setHost h0 fun q => ?_
  have hh : Memory.wf host = true := memZero_wf _ _ q
  clear_value host
  have inner : ∀ (l : List Host.Cell) (f : Host.Cell → Nat) (m : List Host.Cell), Memory.wf m = true → Memory.wf (l.foldl (fun h c => memPut h (f c) c.2) m) = true := by
    intro l f
    induction l with
    | nil => exact fun _ hm => hm
    | cons c l ih => exact fun m hm => ih _ (memPut_wf _ _ hm)
  have outer : ∀ (l : List Nat) (m : List Host.Cell), Memory.wf m = true → Memory.wf (l.foldl (fun h d =>
      if bit a0.dump.parts d then
        (v.filter (fun c => inside c.1 1 (dumpBase a0 d) 0x20000000)).foldl (fun h c => memPut h (a1 + d * 0x20000000 + (c.1 - dumpBase a0 d)) c.2) h
      else h) m) = true := by
    intro l
    induction l with
    | nil => exact fun _ hm => hm
    | cons d l ih =>
      intro m hm
      rw [List.foldl_cons]
      refine ih _ ?_
      by_cases hb : bit a0.dump.parts d = true
      · rw [if_pos hb]; exact inner _ _ _ hm
      · rw [if_neg hb]; exact hm
  exact outer _ _ hh

theorem killAll_keeps {s : State} (a0 : State) (a1 : ℕ) (a2 : Cmd → Bool) (h0 : Keeps s a0) : Keeps s (killAll a0 a1 a2) := by
  delta killAll
  refine Keeps.foldl _ ?_ (fun t0 b0 h0 => ?_)
  · assumption
  · split
    · apply killCmd_keeps
      assumption
    · assumption

theorem dropTests_keeps {s : State} (a0 : State) (a1 : HwUnit → Bool) (h0 : Keeps s a0) : Keeps s (dropTests a0 a1) := by
  delta dropTests
  extract_lets v0 v1
  clear_value v0
  have k2 : Keeps s v1 := by
    unfold v1
    refine Keeps.set ?_
    assumption
  clear_value v1
  refine Keeps.foldl _ ?_ (fun t3 b3 h3 => ?_)
  · assumption
  · split
    · split
      · apply endCmd_keeps
        assumption
      · assumption
    · assumption

theorem faultRings_keeps {s : State} (a0 : State) (a1 : ℕ) (h0 : Keeps s a0) : Keeps s (faultRings a0 a1) := by
  delta faultRings
  refine Keeps.foldl _ ?_ (fun t0 b0 h0 => ?_)
  · assumption
  · apply ringFault_keeps
    assumption

theorem moveTargets_keeps {s : State} (a0 : State) (a1 : ℕ) (h0 : Keeps s a0) : Keeps s (moveTargets a0 a1) := by
  delta moveTargets
  extract_lets v0 v1 v2
  clear_value v0 v1 v2
  apply setSic_keeps
  assumption

theorem dumpPart_keeps {s : State} (a0 : State) (a1 : ℕ) (a2 : ℕ) (h0 : Keeps s a0) : Keeps s (dumpPart a0 a1 a2) := by
  delta dumpPart
  extract_lets v0 v1 v2
  clear_value v0 v1
  have k3 : Keeps s v2 := by
    unfold v2
    apply wrPlain_keeps
    refine Keeps.setMem ?_ (memZero_wf _ _)
    assumption
  clear_value v2
  refine Keeps.set ?_
  assumption

theorem fatalStop_keeps {s : State} (a0 : State) (a1 : ℕ) (h0 : Keeps s a0) : Keeps s (fatalStop a0 a1) := by
  delta fatalStop
  refine Keeps.ite ?_ ?_
  · assumption
  · extract_lets v0 v1 v2 v3 v4 v5 v6
    clear_value v0
    have k7 : Keeps s v1 := by
      unfold v1
      refine Keeps.set ?_
      assumption
    clear_value v1
    have k8 : Keeps s v2 := by
      unfold v2
      refine Keeps.foldl _ ?_ (fun t9 b9 h9 => ?_)
      · assumption
      · apply dumpPart_keeps
        assumption
    clear_value v2
    clear_value v3
    have k10 : Keeps s v4 := by
      unfold v4
      refine Keeps.set ?_
      assumption
    clear_value v4
    have k11 : Keeps s v5 := by
      unfold v5
      split
      · refine Keeps.ite ?_ ?_
        · apply copyDump_keeps
          assumption
        · assumption
      · assumption
    clear_value v5
    clear_value v6
    refine Keeps.set ?_
    assumption

theorem fenceDie_keeps {s : State} (a0 : State) (a1 : Nat) (a2 : Nat) (h0 : Keeps s a0) : Keeps s (fenceDie a0 a1 a2) := by
  delta fenceDie
  extract_lets v0 v1 v2 v3 v4 v5 v6 v7 v8 v9 v10 v11 v12 v13
  clear_value v0
  have k14 : Keeps s v1 := by
    unfold v1
    apply setDie_keeps
    assumption
  clear_value v1
  have k15 : Keeps s v2 := by
    unfold v2
    apply killAll_keeps
    assumption
  clear_value v2
  clear_value v3
  have k16 : Keeps s v4 := by
    unfold v4
    refine Keeps.foldl _ ?_ (fun t17 b18 h19 => ?_)
    · assumption
    · apply endJob_keeps
      apply raise_keeps
      assumption
  clear_value v4
  have k20 : Keeps s v5 := by
    unfold v5
    refine Keeps.setMem ?_ (memFilter_wf _)
    assumption
  clear_value v5
  have k21 : Keeps s v6 := by
    unfold v6
    apply dropTests_keeps
    assumption
  clear_value v6
  have k22 : Keeps s v7 := by
    unfold v7
    apply faultRings_keeps
    assumption
  clear_value v7
  clear_value v8
  have k23 : Keeps s v9 := by
    unfold v9
    apply setSic_keeps
    assumption
  clear_value v9
  have k24 : Keeps s v10 := by
    unfold v10
    refine Keeps.ite ?_ ?_
    · apply moveTargets_keeps
      assumption
    · assumption
  clear_value v10
  clear_value v11
  have k25 : Keeps s v12 := by
    unfold v12
    refine Keeps.ite ?_ ?_
    · apply setTrace_keeps
      assumption
    · assumption
  clear_value v12
  have k26 : Keeps s v13 := by
    unfold v13
    apply raiseMod_keeps
    assumption
  clear_value v13
  refine Keeps.ite ?_ ?_
  · assumption
  · refine Keeps.ite ?_ ?_
    · apply fatalStop_keeps
      assumption
    · assumption

theorem fenceFull_keeps {s : State} (a0 : State) (a1 : ℕ) (h0 : Keeps s a0) : Keeps s (fenceFull a0 a1) := by
  delta fenceFull
  refine Keeps.ite ?_ ?_
  · apply fenceDie_keeps
    assumption
  · assumption

theorem retire_keeps {s : State} (a0 : State) (a1 : ℕ) (h0 : Keeps s a0) : Keeps s (retire a0 a1) := by
  delta retire
  apply fenceFull_keeps
  apply markRetired_keeps
  assumption

theorem correctedError_keeps {s : State} (a0 : State) (a1 : ℕ) (h0 : Keeps s a0) : Keeps s (correctedError a0 a1) := by
  delta correctedError
  extract_lets v0 v1 v2 v3 v4 v5 v6
  clear_value v0 v1 v2 v3 v4 v5
  have k7 : Keeps s v6 := by
    unfold v6
    apply fire_keeps
    apply setMemRegs_keeps
    assumption
  clear_value v6
  refine Keeps.ite ?_ ?_
  · apply retire_keeps
    assumption
  · assumption

theorem countFail_keeps {s : State} (a0 : State) (a1 : List Byte) (h0 : Keeps s a0) : Keeps s (countFail a0 a1) := by
  delta countFail
  extract_lets v0 v1 v2
  clear_value v0 v1 v2
  refine Keeps.set ?_
  assumption

theorem countNs_keeps {s : State} (a0 : State) (a1 : ℕ) (h0 : Keeps s a0) : Keeps s (countNs a0 a1) := by
  delta countNs
  refine Keeps.foldl _ ?_ (fun t0 b0 h0 => ?_)
  · assumption
  · apply count_keeps
    apply count_keeps
    assumption

theorem debtFor_keeps {s : State} (a0 : State) (a1 : Cmd) (h0 : Keeps s a0) : Keeps s (debtFor a0 a1) := by
  delta debtFor
  extract_lets v0 v1 v2 v3 v4 v5
  clear_value v0 v1 v2 v3 v4
  have k6 : Keeps s v5 := by
    unfold v5
    refine Keeps.set ?_
    assumption
  clear_value v5
  refine Keeps.ite ?_ ?_
  · assumption
  · split
    · assumption
    · apply raiseFor_keeps
      assumption

theorem debtPass_keeps {s : State} (a0 : State) (h0 : Keeps s a0) : Keeps s (debtPass a0) := by
  delta debtPass
  refine Keeps.foldl _ ?_ (fun t0 b0 h0 => ?_)
  · assumption
  · apply debtFor_keeps
    assumption

theorem sendMembers_keeps {s : State} (a0 : State) (h0 : Keeps s a0) : Keeps s (sendMembers a0) := by
  delta sendMembers
  refine Keeps.foldl _ ?_ (fun t0 b0 h0 => ?_)
  · assumption
  · apply sendDom_keeps
    assumption

theorem setMember_keeps {s : State} (a0 : State) (a1 : ℕ) (a2 : ℕ) (h0 : Keeps s a0) : Keeps s (setMember a0 a1 a2) := by
  delta setMember
  apply sendMembers_keeps
  refine Keeps.set ?_
  assumption

theorem dropHeld_keeps {s : State} (a0 : State) (a1 : ℕ) (h0 : Keeps s a0) : Keeps s (dropHeld a0 a1) := by
  delta dropHeld
  refine Keeps.foldl _ ?_ (fun t0 b0 h0 => ?_)
  · refine Keeps.set ?_
    assumption
  · apply raise_keeps
    assumption

theorem sendAnnounce_keeps {s : State} (a0 : State) (h0 : Keeps s a0) : Keeps s (sendAnnounce a0) := by
  delta sendAnnounce
  refine Keeps.foldl _ ?_ (fun t0 b0 h0 => ?_)
  · assumption
  · apply sendDom_keeps
    assumption

theorem succeed_keeps {s : State} (a0 : State) (a1 : ℕ) (h0 : Keeps s a0) : Keeps s (succeed a0 a1) := by
  delta succeed
  split
  · refine Keeps.set ?_
    assumption
  · extract_lets v0 v1 v2 v3 v4
    clear_value v0 v1
    have k5 : Keeps s v2 := by
      unfold v2
      refine Keeps.set ?_
      assumption
    clear_value v2
    have k6 : Keeps s v3 := by
      unfold v3
      apply raiseMod_keeps
      apply fire_keeps
      assumption
    clear_value v3
    clear_value v4
    refine Keeps.ite ?_ ?_
    · apply sendMembers_keeps
      apply sendAnnounce_keeps
      refine Keeps.set ?_
      assumption
    · assumption

theorem declareLost_keeps {s : State} (a0 : State) (a1 : ℕ) (h0 : Keeps s a0) : Keeps s (declareLost a0 a1) := by
  delta declareLost
  refine Keeps.ite ?_ ?_
  · assumption
  · extract_lets v0 v1 v2 v3 v4 v5 v6 v7 v8 v9 v10
    clear_value v0
    have k11 : Keeps s v1 := by
      unfold v1
      apply fire_keeps
      refine Keeps.set ?_
      assumption
    clear_value v1
    have k12 : Keeps s v2 := by
      unfold v2
      refine Keeps.foldl _ ?_ (fun t13 b13 h13 => ?_)
      · assumption
      · apply raise_keeps
        assumption
    clear_value v2
    have k14 : Keeps s v3 := by
      unfold v3
      apply raiseMod_keeps
      assumption
    clear_value v3
    have k15 : Keeps s v4 := by
      unfold v4
      refine Keeps.ite ?_ ?_
      · apply setMember_keeps
        assumption
      · split
        · refine Keeps.ite ?_ ?_
          · assumption
          · apply sendDom_keeps
            assumption
        · assumption
    clear_value v4
    have k16 : Keeps s v5 := by
      unfold v5
      refine Keeps.set ?_
      assumption
    clear_value v5
    have k17 : Keeps s v6 := by
      unfold v6
      apply killWbs_keeps
      apply dropHeld_keeps
      assumption
    clear_value v6
    have k18 : Keeps s v7 := by
      unfold v7
      apply endAll_keeps
      assumption
    clear_value v7
    have k19 : Keeps s v8 := by
      unfold v8
      apply collLost_keeps
      assumption
    clear_value v8
    have k20 : Keeps s v9 := by
      unfold v9
      refine Keeps.set ?_
      assumption
    clear_value v9
    have k21 : Keeps s v10 := by
      unfold v10
      refine Keeps.foldl _ ?_ (fun t22 b22 h22 => ?_)
      · assumption
      · apply openChange_keeps
        assumption
    clear_value v10
    split
    · refine Keeps.ite ?_ ?_
      · apply succeed_keeps
        assumption
      · assumption
    · assumption

theorem digestStart_keeps {s : State} (a0 : State) (a1 : Cmd) (h0 : Keeps s a0) : KeepsR s (digestStart a0 a1) := by
  delta digestStart
  extract_lets v0 v1 v2
  clear_value v0 v1 v2
  refine KeepsR.ite ?_ ?_
  · apply badIn_keeps
  · refine KeepsR.ite ?_ ?_
    · exact True.intro
    · refine KeepsR.ite ?_ ?_
      · exact True.intro
      · refine KeepsR.go ?_
        assumption

theorem dropChange_keeps {s : State} (a0 : State) (a1 : Change) (h0 : Keeps s a0) : Keeps s (dropChange a0 a1) := by
  delta dropChange
  extract_lets v0 v1 v2
  have k3 : Keeps s v0 := by
    unfold v0
    refine Keeps.set ?_
    assumption
  clear_value v0
  clear_value v1
  have k4 : Keeps s v2 := by
    unfold v2
    refine Keeps.ite ?_ ?_
    · refine Keeps.set ?_
      assumption
    · assumption
  clear_value v2
  apply autoChange_keeps
  apply endModeCmd_keeps
  assumption

theorem dropHostReplies_keeps {s : State} (a0 : State) (h0 : Keeps s a0) : Keeps s (dropHostReplies a0) := by
  delta dropHostReplies
  refine Keeps.set ?_
  assumption

theorem emitEv_keeps {s : State} (a0 : State) (a1 : Cmd) (a2 : CEvent) (h0 : Keeps s a0) : Keeps s (emitEv a0 a1 a2) := by
  delta emitEv
  extract_lets v0 v1 v2 v3
  have k4 : Keeps s v0 := by
    unfold v0
    apply raiseCmd_keeps
    assumption
  clear_value v0
  clear_value v1 v2
  have k5 : Keeps s v3 := by
    unfold v3
    refine Keeps.set ?_
    assumption
  clear_value v3
  refine Keeps.ite ?_ ?_
  · assumption
  · split
    · apply raiseCmd_keeps
      assumption
    · assumption

theorem endPromotion_keeps {s : State} (a0 : State) (a1 : ℕ) (a2 : ℕ) (a3 : List Byte) (h0 : Keeps s a0) : Keeps s (endPromotion a0 a1 a2 a3) := by
  delta endPromotion
  split
  · assumption
  · extract_lets v0 v1 v2
    clear_value v0
    have k3 : Keeps s v1 := by
      unfold v1
      apply poundPublish_keeps
      apply wrLocal_keeps
      assumption
    clear_value v1
    clear_value v2
    apply unpinUse_keeps
    apply putObj_keeps
    assumption

theorem fenceUnit_keeps {s : State} (a0 : State) (a1 : HwUnit) (a2 : ℕ) (h0 : Keeps s a0) : Keeps s (fenceUnit a0 a1 a2) := by
  delta fenceUnit
  extract_lets v0 v1 v2 v3 v4 v5 v6
  clear_value v0 v1 v2
  have k7 : Keeps s v3 := by
    unfold v3
    split
    · apply setDie_keeps
      assumption
    · apply setDie_keeps
      assumption
    · apply setDie_keeps
      assumption
    · apply setSic_keeps
      apply setDie_keeps
      assumption
    · assumption
  clear_value v3
  have k8 : Keeps s v4 := by
    unfold v4
    apply killAll_keeps
    assumption
  clear_value v4
  have k9 : Keeps s v5 := by
    unfold v5
    apply dropTests_keeps
    assumption
  clear_value v5
  have k10 : Keeps s v6 := by
    unfold v6
    apply raiseMod_keeps
    assumption
  clear_value v6
  refine Keeps.ite ?_ ?_
  · assumption
  · split
    · apply fenceDie_keeps
      assumption
    · assumption

theorem endTest_keeps {s : State} (a0 : State) (a1 : TestReq) (a2 : Bool) (h0 : Keeps s a0) : Keeps s (endTest a0 a1 a2) := by
  delta endTest
  extract_lets v0 v1 v2 v3 v4 v5 v6
  have k7 : Keeps s v0 := by
    unfold v0
    refine Keeps.set ?_
    assumption
  clear_value v0
  clear_value v1 v2 v3
  have k8 : Keeps s v4 := by
    unfold v4
    split
    · apply raiseFor_keeps
      assumption
    · apply raiseFor_keeps
      assumption
  clear_value v4
  have k9 : Keeps s v5 := by
    unfold v5
    split
    · apply commitRow_keeps
      assumption
    · assumption
  clear_value v5
  have k10 : Keeps s v6 := by
    unfold v6
    refine Keeps.ite ?_ ?_
    · assumption
    · split
      · apply fenceDie_keeps
        assumption
      · apply fenceDie_keeps
        assumption
      · assumption
      · apply fenceUnit_keeps
        assumption
  clear_value v6
  apply pumpTests_keeps
  assumption

theorem trapCmd_keeps {s : State} (a0 : State) (a1 : Cmd) (a2 : NanAt) (h0 : Keeps s a0) : Keeps s (trapCmd a0 a1 a2) := by
  delta trapCmd
  split
  · apply endCmd_keeps
    assumption
  · extract_lets v0 v1 v2 v3 v4 v5
    clear_value v0 v1 v2
    have k6 : Keeps s v3 := by
      unfold v3
      apply moduleWrite_keeps
      assumption
    clear_value v3
    have k7 : Keeps s v4 := by
      unfold v4
      apply raiseCmd_keeps
      assumption
    clear_value v4
    have k8 : Keeps s v5 := by
      unfold v5
      refine Keeps.ite ?_ ?_
      · apply moduleWrite_keeps
        assumption
      · apply updJob_keeps
        assumption
    clear_value v5
    apply endCmd_keeps
    assumption

theorem runOp_keeps {s : State} (a0 : ℕ) (a1 : State → Cmd → Out) (a2 : State → Cmd → State) (a3 : ℕ) (a4 : State) (h0 : ∀ y0 y1, Keeps s y0 → Keeps s (a2 y0 y1)) (h1 : Keeps s a4) : KeepsO s (runOp a0 a1 a2 a3 a4) := by
  delta runOp
  split
  · refine KeepsO.next ?_
    assumption
  · refine KeepsO.ite ?_ ?_
    · split
      · refine KeepsO.next ?_
        apply askReads_keeps
        assumption
      · refine KeepsO.next ?_
        apply endCmd_keeps
        refine Keeps.foldl _ ?_ (fun t0 b0 h0 => ?_)
        · assumption
        · apply emitEv_keeps
          assumption
      · refine KeepsO.next ?_
        apply putCmd_keeps
        assumption
      · refine KeepsO.next ?_
        apply trapCmd_keeps
        assumption
      · extract_lets v1
        clear_value v1
        refine KeepsO.next ?_
        apply askReads_keeps
        apply putCmd_keeps
        refine Keeps.foldl _ ?_ (fun t2 b2 h2 => ?_)
        · assumption
        · apply emitEv_keeps
          assumption
      · refine KeepsO.next ?_
        apply stage_keeps
        · intro y3 y4 y5
          apply h0
          assumption
        · refine Keeps.foldl _ ?_ (fun t6 b6 h6 => ?_)
          · assumption
          · apply emitEv_keeps
            assumption
    · refine KeepsO.next ?_
      assumption

theorem execAbs_keeps {s : State} (a0 : ℕ) (a1 : State) (h0 : Keeps s a1) : KeepsO s (execAbs a0 a1) := by
  delta execAbs
  apply runOp_keeps
  · intro y0 y1 y2
    apply noEffect_keeps
    assumption
  · assumption

theorem receive_keeps {s : State} (a0 : ℕ) (a1 : MsgHdr) (a2 : State → State) (a3 : State) (h0 : ∀ y0, Keeps s y0 → Keeps s (a2 y0)) (h1 : Keeps s a3) : KeepsO s (receive a0 a1 a2 a3) := by
  delta receive
  refine KeepsO.next ?_
  refine Keeps.ite ?_ ?_
  · assumption
  · refine Keeps.ite ?_ ?_
    · apply discardMsg_keeps
      assumption
    · refine Keeps.ite ?_ ?_
      · assumption
      · refine Keeps.ite ?_ ?_
        · assumption
        · extract_lets v0 v1
          clear_value v0 v1
          split
          · apply authFail_keeps
            assumption
          · extract_lets v2
            have k3 : Keeps s v2 := by
              unfold v2
              refine Keeps.set ?_
              assumption
            clear_value v2
            apply h0
            apply traceRec_keeps
            assumption

theorem execAck_keeps {s : State} (a0 : MsgHdr) (a1 : ℕ) (a2 : ℕ) (a3 : State) (h0 : Keeps s a3) : KeepsO s (execAck a0 a1 a2 a3) := by
  delta execAck
  apply receive_keeps
  · intro y0 y1
    split
    · assumption
    · extract_lets v2
      clear_value v2
      apply openChange_keeps
      apply putChange_keeps
      assumption
  · assumption

theorem execAdd_keeps {s : State} (a0 : ℕ) (a1 : State) (h0 : Keeps s a1) : KeepsO s (execAdd a0 a1) := by
  delta execAdd
  apply runOp_keeps
  · intro y0 y1 y2
    apply noEffect_keeps
    assumption
  · assumption

theorem execAllGather_keeps {s : State} (a0 : ℕ) (a1 : State) (h0 : Keeps s a1) : KeepsO s (execAllGather a0 a1) := by
  delta execAllGather
  refine KeepsO.next ?_
  apply collRun_keeps
  assumption

theorem execAllReduce_keeps {s : State} (a0 : ℕ) (a1 : State) (h0 : Keeps s a1) : KeepsO s (execAllReduce a0 a1) := by
  delta execAllReduce
  refine KeepsO.next ?_
  apply collRun_keeps
  assumption

theorem execAnnounce_keeps {s : State} (a0 : MsgHdr) (a1 : ℕ) (a2 : State) (h0 : Keeps s a2) : KeepsO s (execAnnounce a0 a1 a2) := by
  delta execAnnounce
  apply receive_keeps
  · intro y0 y1
    refine Keeps.ite ?_ ?_
    · apply raiseMod_keeps
      refine Keeps.set ?_
      assumption
    · extract_lets v2 v3 v4 v5 v6
      clear_value v2 v3
      have k7 : Keeps s v4 := by
        unfold v4
        refine Keeps.set ?_
        assumption
      clear_value v4
      clear_value v5
      have k8 : ∀ y0, Keeps s (v6 y0) := by
        intro y9
        unfold v6
        refine Keeps.set ?_
        assumption
      clear_value v6
      split
      · apply k8
      · refine Keeps.ite ?_ ?_
        · assumption
        · extract_lets v10 v11
          clear_value v10
          have k12 : Keeps s v11 := by
            unfold v11
            apply k8
          clear_value v11
          refine Keeps.ite ?_ ?_
          · apply raiseMod_keeps
            assumption
          · assumption
  · assumption

theorem execAnnounceTimer_keeps {s : State} (a0 : State) (h0 : Keeps s a0) : KeepsO s (execAnnounceTimer a0) := by
  delta execAnnounceTimer
  refine KeepsO.next ?_
  refine Keeps.ite ?_ ?_
  · apply sendAnnounce_keeps
    assumption
  · assumption

theorem execAttest_keeps {s : State} (a0 : ℕ) (a1 : State) (h0 : Keeps s a1) : KeepsO s (execAttest a0 a1) := by
  delta execAttest
  apply runOp_keeps
  · intro y0 y1 y2
    apply noEffect_keeps
    assumption
  · assumption

theorem execAuthNak_keeps {s : State} (a0 : MsgHdr) (a1 : State) (h0 : Keeps s a1) : KeepsO s (execAuthNak a0 a1) := by
  delta execAuthNak
  apply receive_keeps
  · intro y0 y1
    split
    · apply endCmd_keeps
      assumption
    · assumption
  · assumption

theorem execBarrier_keeps {s : State} (a0 : ℕ) (a1 : State) (h0 : Keeps s a1) : KeepsO s (execBarrier a0 a1) := by
  delta execBarrier
  refine KeepsO.next ?_
  apply collRun_keeps
  assumption

theorem execBroadcast_keeps {s : State} (a0 : ℕ) (a1 : State) (h0 : Keeps s a1) : KeepsO s (execBroadcast a0 a1) := by
  delta execBroadcast
  refine KeepsO.next ?_
  apply collRun_keeps
  assumption

theorem loadTap_keeps {s : State} (a0 : State) (a1 : ℕ) (h0 : Keeps s a0) : Keeps s (loadTap a0 a1) := by
  delta loadTap
  refine Keeps.ite ?_ ?_
  · assumption
  · extract_lets v0 v1 v2
    clear_value v1 v2
    refine Keeps.set ?_
    assumption

theorem execBypass_keeps {s : State} (a0 : State) (h0 : Keeps s a0) : KeepsO s (execBypass a0) := by
  delta execBypass
  refine KeepsO.next ?_
  apply loadTap_keeps
  assumption

theorem testRun_keeps {s : State} (a0 : ℕ) (a1 : ℕ) (a2 : State) (h0 : Keeps s a2) : Keeps s (testRun a0 a1 a2) := by
  delta testRun
  split
  · assumption
  · refine Keeps.ite ?_ ?_
    · assumption
    · split
      · apply endCmd_keeps
        assumption
      · refine Keeps.ite ?_ ?_
        · apply endCmd_keeps
          assumption
        · apply askTest_keeps
          assumption

theorem execCalHbm_keeps {s : State} (a0 : ℕ) (a1 : State) (h0 : Keeps s a1) : KeepsO s (execCalHbm a0 a1) := by
  delta execCalHbm
  refine KeepsO.next ?_
  apply testRun_keeps
  assumption

theorem execCalPort_keeps {s : State} (a0 : ℕ) (a1 : State) (h0 : Keeps s a1) : KeepsO s (execCalPort a0 a1) := by
  delta execCalPort
  refine KeepsO.next ?_
  apply testRun_keeps
  assumption

theorem settleLoans_keeps {s : State} (a0 : State) (h0 : Keeps s a0) : Keeps s (settleLoans a0) := by
  delta settleLoans
  refine Keeps.set ?_
  assumption

theorem admitStaged_keeps {s : State} (a0 : State) (h0 : Keeps s a0) : Keeps s (admitStaged a0) := by
  delta admitStaged
  refine Keeps.foldl _ ?_ (fun t1 b1 h1 => ?_)
  · assumption
  · split
    · assumption
    · refine Keeps.ite ?_ ?_
      · assumption
      · apply send_keeps
        refine Keeps.set ?_
        assumption

theorem execCancel_keeps {s : State} (a0 : MsgHdr) (a1 : State) (h0 : Keeps s a1) : KeepsO s (execCancel a0 a1) := by
  delta execCancel
  apply receive_keeps
  · intro y0 y1
    apply admitStaged_keeps
    apply collCancelled_keeps
    apply settleLoans_keeps
    refine Keeps.set ?_
    assumption
  · assumption

theorem execCensusSetup_keeps {s : State} (a0 : ℕ) (a1 : State) (h0 : Keeps s a1) : KeepsO s (execCensusSetup a0 a1) := by
  delta execCensusSetup
  apply runOp_keeps
  · intro y0 y1 y2
    refine Keeps.set ?_
    assumption
  · assumption

theorem execCensusStop_keeps {s : State} (a0 : ℕ) (a1 : State) (h0 : Keeps s a1) : KeepsO s (execCensusStop a0 a1) := by
  delta execCensusStop
  apply runOp_keeps
  · intro y0 y1 y2
    refine Keeps.set ?_
    assumption
  · assumption

theorem issueOwn_keeps {s : State} (a0 : State) (a1 : Cmd) (h0 : Keeps s a0) : Keeps s (issueOwn a0 a1) := by
  delta issueOwn
  refine Keeps.setId ?_ (Nat.le_succ _)
  assumption

theorem execCheckpoint_keeps {s : State} (a0 : ℕ) (a1 : State) (h0 : Keeps s a1) : KeepsO s (execCheckpoint a0 a1) := by
  delta execCheckpoint
  refine KeepsO.next ?_
  split
  · assumption
  · refine Keeps.ite ?_ ?_
    · assumption
    · refine Keeps.ite ?_ ?_
      · extract_lets v0 v1
        clear_value v0
        have k2 : Keeps s v1 := by
          unfold v1
          apply putCmd_keeps
          assumption
        clear_value v1
        refine Keeps.foldl _ ?_ (fun t3 b3 h3 => ?_)
        · assumption
        · extract_lets v4 v5
          clear_value v4 v5
          apply issueOwn_keeps
          assumption
      · refine Keeps.ite ?_ ?_
        · assumption
        · apply commitWith_keeps
          · intro y6 y7 y8
            apply ckptEff_keeps
            assumption
          · assumption

theorem scratchEnd_keeps {s : State} (a0 : State) (a1 : Cmd) (h0 : Keeps s a0) : Keeps s (scratchEnd a0 a1) := by
  delta scratchEnd
  extract_lets v0
  clear_value v0
  apply endCmd_keeps
  apply raiseCmd_keeps
  assumption

theorem runProblems_keeps {s : State} (a0 : ℕ) (a1 : State → Cmd → List (GAddr × ℕ)) (a2 : State → Cmd → Out) (a3 : State → Cmd → State) (a4 : ℕ) (a5 : State) (h0 : ∀ y0 y1, Keeps s y0 → Keeps s (a3 y0 y1)) (h1 : Keeps s a5) : KeepsO s (runProblems a0 a1 a2 a3 a4 a5) := by
  delta runProblems
  split
  · refine KeepsO.next ?_
    assumption
  · refine KeepsO.ite ?_ ?_
    · refine KeepsO.ite ?_ ?_
      · refine KeepsO.next ?_
        apply scratchEnd_keeps
        assumption
      · split
        · refine KeepsO.next ?_
          apply eccEnd_keeps
          assumption
        · apply runOp_keeps
          · intro y0 y1 y2
            apply h0
            assumption
          · assumption
    · refine KeepsO.next ?_
      assumption

theorem execCholFactor_keeps {s : State} (a0 : ℕ) (a1 : State) (h0 : Keeps s a1) : KeepsO s (execCholFactor a0 a1) := by
  delta execCholFactor
  apply runProblems_keeps
  · intro y0 y1 y2
    apply rootEff_keeps
    assumption
  · assumption

theorem execClamp_keeps {s : State} (a0 : State) (h0 : Keeps s a0) : KeepsO s (execClamp a0) := by
  delta execClamp
  refine KeepsO.next ?_
  apply loadTap_keeps
  assumption

theorem execCmdAbort_keeps {s : State} (a0 : ℕ) (a1 : State) (h0 : Keeps s a1) : KeepsO s (execCmdAbort a0 a1) := by
  delta execCmdAbort
  apply runOp_keeps
  · intro y0 y1 y2
    apply abortEff_keeps
    assumption
  · assumption

theorem execCollData_keeps {s : State} (a0 : MsgHdr) (a1 : ℕ) (a2 : ℕ) (a3 : ℕ) (a4 : List Byte) (a5 : State) (h0 : Keeps s a5) : KeepsO s (execCollData a0 a1 a2 a3 a4 a5) := by
  delta execCollData
  apply receive_keeps
  · intro y0 y1
    split
    · assumption
    · refine Keeps.ite ?_ ?_
      · assumption
      · extract_lets v2
        clear_value v2
        refine Keeps.ite ?_ ?_
        · apply collFinish_keeps
          apply putCmd_keeps
          assumption
        · apply putCmd_keeps
          assumption
  · assumption

end Sys2Proof.Machine
end

