-- ==== Sys2Proof/Laws/KeepsPath.lean ====
section
/-! SUPPORT. What each operation keeps (Laws/Keeps), in the order in which they call one another: part three. -/

set_option linter.unusedVariables false

namespace Sys2Proof.Machine

theorem execCollFlip_keeps {s : State} (a0 : MsgHdr) (a1 : ℕ) (a2 : ℕ) (a3 : ℕ) (a4 : ℕ) (a5 : State) (h0 : Keeps s a5) : KeepsO s (execCollFlip a0 a1 a2 a3 a4 a5) := by
  delta execCollFlip
  apply receive_keeps
  · intro y0 y1
    split
    · assumption
    · refine Keeps.ite ?_ ?_
      · apply putCmd_keeps
        assumption
      · assumption
  · assumption

theorem execCollJoin_keeps {s : State} (a0 : MsgHdr) (a1 : ℕ) (a2 : ℕ) (a3 : ℕ) (a4 : ℕ) (a5 : Bool) (a6 : State) (h0 : Keeps s a6) : KeepsO s (execCollJoin a0 a1 a2 a3 a4 a5 a6) := by
  delta execCollJoin
  apply receive_keeps
  · intro y0 y1
    apply joinRound_keeps
    assumption
  · assumption

theorem execCollLate_keeps {s : State} (a0 : MsgHdr) (a1 : ℕ) (a2 : ℕ) (a3 : ℕ) (a4 : ℕ) (a5 : List Byte) (a6 : State) (h0 : Keeps s a6) : KeepsO s (execCollLate a0 a1 a2 a3 a4 a5 a6) := by
  delta execCollLate
  apply receive_keeps
  · intro y0 y1
    split
    · assumption
    · refine Keeps.ite ?_ ?_
      · assumption
      · refine Keeps.ite ?_ ?_
        · apply endCmd_keeps
          apply raiseCmd_keeps
          assumption
        · extract_lets v2
          clear_value v2
          apply stage_keeps
          · intro y3 y4 y5
            apply collEff_keeps
            assumption
          · apply putCmd_keeps
            assumption
  · assumption

theorem execCollSet_keeps {s : State} (a0 : MsgHdr) (a1 : ℕ) (a2 : ℕ) (a3 : ℕ) (a4 : ℕ) (a5 : List ℕ) (a6 : State) (h0 : Keeps s a6) : KeepsO s (execCollSet a0 a1 a2 a3 a4 a5 a6) := by
  delta execCollSet
  apply receive_keeps
  · intro y0 y1
    split
    · assumption
    · refine Keeps.ite ?_ ?_
      · assumption
      · refine Keeps.ite ?_ ?_
        · apply endCmd_keeps
          apply raiseCmd_keeps
          assumption
        · apply takeSet_keeps
          assumption
  · assumption

theorem timeTo_keeps {s : State} (a0 : State) (a1 : ℕ) (h0 : Keeps s a0) : Keeps s (timeTo a0 a1) := by
  delta timeTo
  refine Keeps.ite ?_ ?_
  · extract_lets v0
    have k1 : Keeps s v0 := by
      unfold v0
      apply drift_keeps
      apply countNs_keeps
      assumption
    clear_value v0
    refine Keeps.set ?_
    assumption
  · assumption

theorem execCollectiveDeadline_keeps {s : State} (a0 : ℕ) (a1 : State) (h0 : Keeps s a1) : KeepsO s (execCollectiveDeadline a0 a1) := by
  delta execCollectiveDeadline
  refine KeepsO.next ?_
  split
  · assumption
  · refine Keeps.ite ?_ ?_
    · assumption
    · extract_lets v0 v1
      clear_value v0
      have k2 : Keeps s v1 := by
        unfold v1
        apply timeTo_keeps
        assumption
      clear_value v1
      split
      · refine Keeps.ite ?_ ?_
        · split
          · apply tryFreeze_keeps
            apply freezeRound_keeps
            assumption
          · assumption
        · assumption
      · assumption

theorem park_keeps {s : State} (a0 : State) (a1 : Cmd) (a2 : Option ℕ) (h0 : Keeps s a0) : Keeps s (park a0 a1 a2) := by
  delta park
  apply putCmd_keeps
  assumption

theorem flightStart_keeps {s : State} (a0 : State) (a1 : Cmd) (h0 : Keeps s a0) : KeepsR s (flightStart a0 a1) := by
  delta flightStart
  split
  · refine KeepsR.go ?_
    assumption
  · extract_lets v0
    clear_value v0
    refine KeepsR.ite ?_ ?_
    · exact True.intro
    · refine KeepsR.ite ?_ ?_
      · split
        · apply badIn_keeps
        · split
          · refine KeepsR.ite ?_ ?_
            · refine KeepsR.go ?_
              assumption
            · exact True.intro
          · refine KeepsR.ite ?_ ?_
            · exact True.intro
            · refine KeepsR.go ?_
              assumption
      · split
        · apply badIn_keeps
        · refine KeepsR.ite ?_ ?_
          · exact True.intro
          · refine KeepsR.ite ?_ ?_
            · split
              · apply badIn_keeps
              · extract_lets v1 v2 v3 v4 v5
                clear_value v1 v2 v3 v4 v5
                refine KeepsR.ite ?_ ?_
                · exact True.intro
                · refine KeepsR.go ?_
                  refine Keeps.set ?_
                  assumption
            · split
              · exact True.intro
              · refine KeepsR.ite ?_ ?_
                · exact True.intro
                · refine KeepsR.ite ?_ ?_
                  · refine KeepsR.ite ?_ ?_
                    · exact True.intro
                    · refine KeepsR.go ?_
                      assumption
                  · split
                    · apply badIn_keeps
                    · refine KeepsR.ite ?_ ?_
                      · apply badIn_keeps
                      · refine KeepsR.ite ?_ ?_
                        · exact True.intro
                        · refine KeepsR.go ?_
                          assumption

theorem fsetStart_keeps {s : State} (a0 : Cmd → List (ℕ × ℕ)) (a1 : State) (a2 : Cmd) (h0 : Keeps s a1) : KeepsR s (fsetStart a0 a1 a2) := by
  delta fsetStart
  extract_lets v0 v1
  clear_value v0 v1
  refine KeepsR.ite ?_ ?_
  · refine KeepsR.ite ?_ ?_
    · apply badIn_keeps
    · split
      · refine KeepsR.ite ?_ ?_
        · exact True.intro
        · refine KeepsR.ite ?_ ?_
          · exact True.intro
          · refine KeepsR.go ?_
            assumption
      · refine KeepsR.ite ?_ ?_
        · exact True.intro
        · refine KeepsR.go ?_
          assumption
  · split
    · apply badIn_keeps
    · refine KeepsR.ite ?_ ?_
      · exact True.intro
      · refine KeepsR.go ?_
        assumption

theorem rootStart_keeps {s : State} (a0 : Cmd → List (ℕ × ℕ)) (a1 : State) (a2 : Cmd) (h0 : Keeps s a1) : KeepsR s (rootStart a0 a1 a2) := by
  delta rootStart
  split
  · exact True.intro
  · extract_lets v0 v1
    clear_value v0 v1
    refine KeepsR.ite ?_ ?_
    · apply badIn_keeps
    · refine KeepsR.ite ?_ ?_
      · exact True.intro
      · refine KeepsR.ite ?_ ?_
        · exact True.intro
        · refine KeepsR.ite ?_ ?_
          · apply badIn_keeps
          · refine KeepsR.ite ?_ ?_
            · exact True.intro
            · refine KeepsR.ite ?_ ?_
              · exact True.intro
              · refine KeepsR.go ?_
                assumption

theorem solveStart_keeps {s : State} (a0 : State) (a1 : Cmd) (h0 : Keeps s a0) : KeepsR s (solveStart a0 a1) := by
  delta solveStart
  extract_lets v0 v1 v2 v3 v4
  clear_value v0 v1 v2 v3 v4
  refine KeepsR.ite ?_ ?_
  · apply badIn_keeps
  · refine KeepsR.ite ?_ ?_
    · exact True.intro
    · refine KeepsR.ite ?_ ?_
      · exact True.intro
      · refine KeepsR.ite ?_ ?_
        · apply badIn_keeps
        · refine KeepsR.ite ?_ ?_
          · exact True.intro
          · refine KeepsR.ite ?_ ?_
            · exact True.intro
            · refine KeepsR.go ?_
              assumption

theorem updStart_keeps {s : State} (a0 : State) (a1 : Cmd) (h0 : Keeps s a0) : KeepsR s (updStart a0 a1) := by
  delta updStart
  extract_lets v0 v1 v2 v3 v4 v5
  clear_value v0 v1 v2 v3 v4 v5
  split
  · apply badIn_keeps
  · extract_lets v6 v7 v8
    clear_value v6 v7 v8
    refine KeepsR.ite ?_ ?_
    · apply badIn_keeps
    · refine KeepsR.ite ?_ ?_
      · exact True.intro
      · refine KeepsR.ite ?_ ?_
        · exact True.intro
        · refine KeepsR.ite ?_ ?_
          · apply badIn_keeps
          · refine KeepsR.ite ?_ ?_
            · apply badIn_keeps
            · refine KeepsR.ite ?_ ?_
              · apply badIn_keeps
              · refine KeepsR.ite ?_ ?_
                · apply badIn_keeps
                · refine KeepsR.ite ?_ ?_
                  · exact True.intro
                  · refine KeepsR.ite ?_ ?_
                    · exact True.intro
                    · refine KeepsR.ite ?_ ?_
                      · exact True.intro
                      · refine KeepsR.go ?_
                        apply hideWork_keeps
                        assumption

theorem shardStart_keeps {s : State} (a0 : State) (a1 : Cmd) (h0 : Keeps s a0) : KeepsR s (shardStart a0 a1) := by
  delta shardStart
  extract_lets v0 v1
  clear_value v0 v1
  refine KeepsR.ite ?_ ?_
  · apply badIn_keeps
  · refine KeepsR.ite ?_ ?_
    · exact True.intro
    · refine KeepsR.ite ?_ ?_
      · exact True.intro
      · refine KeepsR.ite ?_ ?_
        · exact True.intro
        · refine KeepsR.go ?_
          assumption

theorem schedStart_keeps {s : State} (a0 : State) (a1 : Cmd) (h0 : Keeps s a0) : KeepsR s (schedStart a0 a1) := by
  delta schedStart
  extract_lets v0 v1 v2
  clear_value v0 v1 v2
  refine KeepsR.ite ?_ ?_
  · apply badIn_keeps
  · refine KeepsR.ite ?_ ?_
    · apply badIn_keeps
    · refine KeepsR.ite ?_ ?_
      · exact True.intro
      · refine KeepsR.ite ?_ ?_
        · exact True.intro
        · refine KeepsR.go ?_
          assumption

theorem gatherStart_keeps {s : State} (a0 : State) (a1 : Cmd) (h0 : Keeps s a0) : KeepsR s (gatherStart a0 a1) := by
  delta gatherStart
  extract_lets v0
  clear_value v0
  refine KeepsR.ite ?_ ?_
  · apply badIn_keeps
  · refine KeepsR.ite ?_ ?_
    · refine KeepsR.go ?_
      assumption
    · split
      · apply badIn_keeps
      · refine KeepsR.ite ?_ ?_
        · exact True.intro
        · split
          · exact True.intro
          · refine KeepsR.go ?_
            assumption

theorem readRegs_keeps {s : State} (a0 : State) (a1 : GAddr) (a2 : ℕ) (h0 : Keeps s a0) : Keeps s (readRegs a0 a1 a2).1 := by
  delta readRegs
  split
  · dsimp only
    assumption
  · refine Keeps.foldlP _ ?_ (fun t0 b0 h0 => ?_)
    · dsimp only
      assumption
    · extract_lets v1
      have k2 : Keeps s v1.1 := by
        unfold v1
        apply busRead_keeps
        assumption
      clear_value v1
      dsimp only
      assumption

theorem takeRegs_keeps {s : State} (a0 : State) (a1 : Cmd) (h0 : Keeps s a0) : Keeps s (takeRegs a0 a1).1 := by
  delta takeRegs
  extract_lets v0 v1
  clear_value v0
  have k2 : Keeps s v1.1 := by
    unfold v1
    apply readRegs_keeps
    assumption
  clear_value v1
  split
  · dsimp only
    assumption
  · dsimp only
    assumption

theorem moveStart_keeps {s : State} (a0 : State) (a1 : Cmd) (h0 : Keeps s a0) : KeepsR s (moveStart a0 a1) := by
  delta moveStart
  extract_lets v0 v1
  clear_value v0 v1
  refine KeepsR.ite ?_ ?_
  · exact True.intro
  · refine KeepsR.ite ?_ ?_
    · exact True.intro
    · refine KeepsR.go ?_
      apply takeRegs_keeps
      assumption

theorem startUnless_keeps {s : State} (a0 : Option (ℕ × ℕ)) (a1 : State) (a2 : Cmd) (h0 : Keeps s a1) : KeepsR s (startUnless a0 a1 a2) := by
  delta startUnless
  split
  · exact True.intro
  · refine KeepsR.go ?_
    assumption

theorem resStart_keeps {s : State} (a0 : State) (a1 : Cmd) (h0 : Keeps s a0) : KeepsR s (resStart a0 a1) := by
  delta resStart
  extract_lets v0 v1 v2 v3 v4
  clear_value v0 v1 v2 v3 v4
  refine KeepsR.ite ?_ ?_
  · apply startUnless_keeps
    assumption
  · refine KeepsR.ite ?_ ?_
    · apply startUnless_keeps
      assumption
    · refine KeepsR.ite ?_ ?_
      · split
        · apply badIn_keeps
        · refine KeepsR.ite ?_ ?_
          · exact True.intro
          · refine KeepsR.ite ?_ ?_
            · apply badIn_keeps
            · refine KeepsR.ite ?_ ?_
              · refine KeepsR.ite ?_ ?_
                · apply badIn_keeps
                · refine KeepsR.ite ?_ ?_
                  · exact True.intro
                  · refine KeepsR.ite ?_ ?_
                    · refine KeepsR.go ?_
                      apply holdPromotion_keeps
                      assumption
                    · refine KeepsR.go ?_
                      apply startPromotion_keeps
                      refine Keeps.set ?_
                      assumption
              · refine KeepsR.go ?_
                assumption
      · refine KeepsR.ite ?_ ?_
        · apply startUnless_keeps
          assumption
        · split
          · apply badIn_keeps
          · refine KeepsR.ite ?_ ?_
            · refine KeepsR.go ?_
              assumption
            · exact True.intro

theorem startBy_keeps {s : State} (a0 : State → Cmd → Out) (a1 : State) (a2 : Cmd) (h0 : Keeps s a1) : KeepsR s (startBy a0 a1 a2) := by
  delta startBy
  split
  · exact True.intro
  · refine KeepsR.go ?_
    assumption

theorem submitStart_keeps {s : State} (a0 : State) (a1 : Cmd) (h0 : Keeps s a0) : KeepsR s (submitStart a0 a1) := by
  delta submitStart
  split
  · refine KeepsR.go ?_
    assumption
  · exact True.intro

theorem jobEndStart_keeps {s : State} (a0 : State) (a1 : Cmd) (h0 : Keeps s a0) : KeepsR s (jobEndStart a0 a1) := by
  delta jobEndStart
  split
  · exact True.intro
  · refine KeepsR.ite ?_ ?_
    · refine KeepsR.go ?_
      apply endAll_keeps
      assumption
    · refine KeepsR.go ?_
      apply updJob_keeps
      assumption

theorem unregStart_keeps {s : State} (a0 : State) (a1 : Cmd) (h0 : Keeps s a0) : KeepsR s (unregStart a0 a1) := by
  delta unregStart
  split
  · exact True.intro
  · refine KeepsR.go ?_
    assumption

theorem modeStart_keeps {s : State} (a0 : State) (a1 : Cmd) (h0 : Keeps s a0) : KeepsR s (modeStart a0 a1) := by
  delta modeStart
  extract_lets v0 v1
  clear_value v0 v1
  refine KeepsR.ite ?_ ?_
  · exact True.intro
  · split
    · apply badIn_keeps
    · refine KeepsR.ite ?_ ?_
      · refine KeepsR.ite ?_ ?_
        · exact True.intro
        · refine KeepsR.ite ?_ ?_
          · exact True.intro
          · refine KeepsR.go ?_
            assumption
      · split
        · exact True.intro
        · refine KeepsR.ite ?_ ?_
          · exact True.intro
          · refine KeepsR.ite ?_ ?_
            · apply badIn_keeps
            · refine KeepsR.ite ?_ ?_
              · exact True.intro
              · refine KeepsR.ite ?_ ?_
                · exact True.intro
                · refine KeepsR.go ?_
                  assumption

theorem fwStart_keeps {s : State} (a0 : State) (a1 : Cmd) (h0 : Keeps s a0) : KeepsR s (fwStart a0 a1) := by
  delta fwStart
  refine KeepsR.ite ?_ ?_
  · exact True.intro
  · refine KeepsR.go ?_
    assumption

theorem familyStart_keeps {s : State} (a0 : State) (a1 : Cmd) (h0 : Keeps s a0) : KeepsR s (familyStart a0 a1) := by
  have hf := flightStart_keeps a0 a1 h0
  have hb := fun f => startBy_keeps f a0 a1 h0
  delta familyStart
  extract_lets p
  split
  · cases hr : flightStart a0 a1 with
    | go t c =>
      rw [hr] at hf
      dsimp only
      exact KeepsR.ite True.intro hf
    | wait => exact True.intro
    | stop _ _ _ => exact True.intro
  · exact KeepsR.ite True.intro h0
  · exact fsetStart_keeps _ _ _ h0
  · exact rootStart_keeps _ _ _ h0
  · exact solveStart_keeps _ _ h0
  · exact KeepsR.ite (updStart_keeps _ _ h0) (KeepsR.ite (shardStart_keeps _ _ h0) (KeepsR.ite (schedStart_keeps _ _ h0)
      (KeepsR.ite (gatherStart_keeps _ _ h0) (digestStart_keeps _ _ h0))))
  · exact KeepsR.ite (moveStart_keeps _ _ h0) (resStart_keeps _ _ h0)
  · exact KeepsR.ite (hb _) h0
  · exact collStart_keeps _ _ h0
  · exact KeepsR.ite (hb _) (KeepsR.ite (hb _) h0)
  · exact hb _
  · iterate 9 refine KeepsR.ite (hb _) ?_
    exact KeepsR.ite (submitStart_keeps _ _ h0) (KeepsR.ite (jobEndStart_keeps _ _ h0) (KeepsR.ite (unregStart_keeps _ _ h0) (KeepsR.ite (modeStart_keeps _ _ h0)
      (KeepsR.ite (fwStart_keeps _ _ h0) (KeepsR.ite (ckptStart_keeps _ _ h0) h0)))))
  · exact h0

theorem noteStart_keeps {s : State} (a0 : State) (a1 : Cmd) (a2 : Place) (h0 : Keeps s a0) : Keeps s (noteStart a0 a1 a2) := by
  delta noteStart
  extract_lets v0 v1 v2 v3 v4
  clear_value v0 v1 v2
  have k5 : Keeps s v3 := by
    unfold v3
    refine Keeps.set ?_
    assumption
  clear_value v3
  have k6 : Keeps s v4 := by
    unfold v4
    apply count_keeps
    assumption
  clear_value v4
  refine Keeps.ite ?_ ?_
  · refine Keeps.ite ?_ ?_
    · apply count_keeps
      assumption
    · assumption
  · assumption

theorem tryStart_keeps {s : State} (a0 : State) (a1 : Cmd) (a2 : Place) (h0 : Keeps s a0) : Keeps s (tryStart a0 a1 a2) := by
  delta tryStart
  split
  · apply endCmd_keeps
    assumption
  · apply park_keeps
    assumption
  · extract_lets v0 v1 v2 v3 v4
    clear_value v0
    have k5 : Keeps s v1 := by
      unfold v1
      apply clearStores_keeps
      assumption
    clear_value v1
    clear_value v2 v3 v4
    split
    · apply eccEnd_keeps
      assumption
    · split
      · apply park_keeps
        assumption
      · apply endCmd_keeps
        refine Keeps.foldl _ ?_ (fun t6 b6 h6 => ?_)
        · assumption
        · apply emitEv_keeps
          assumption
      · split
        · apply endCmd_keeps
          assumption
        · apply park_keeps
          assumption
        · refine Keeps.ite ?_ ?_
          · apply endCmd_keeps
            assumption
          · refine Keeps.ite ?_ ?_
            · apply park_keeps
              assumption
            · extract_lets v7 v8 v9 v10 v11 v12
              have k13 : Keeps s v7 := by
                unfold v7
                refine Keeps.foldl _ ?_ (fun t14 b14 h14 => ?_)
                · refine KeepsR.out ?_ ‹_›
                  apply familyStart_keeps
                  assumption
                · apply takeCopy_keeps
                  assumption
              clear_value v7
              have k15 : Keeps s v8.1 := by
                unfold v8
                apply endStall_keeps
                assumption
              clear_value v8
              clear_value v9 v10
              have k16 : Keeps s v11 := by
                unfold v11
                apply noteStart_keeps
                apply putCmd_keeps
                assumption
              clear_value v11
              have k17 : Keeps s v12 := by
                unfold v12
                apply traceRec_keeps
                assumption
              clear_value v12
              split
              · apply eccEnd_keeps
                assumption
              · assumption

theorem execCommandStart_keeps {s : State} (a0 : ℕ) (a1 : State) (h0 : Keeps s a1) : KeepsO s (execCommandStart a0 a1) := by
  delta execCommandStart
  refine KeepsO.next ?_
  extract_lets v0
  have k1 : Keeps s v0 := by
    unfold v0
    apply debtPass_keeps
    assumption
  clear_value v0
  split
  · assumption
  · refine Keeps.ite ?_ ?_
    · assumption
    · split
      · assumption
      · extract_lets v2 v3 v4
        clear_value v2
        have k5 : Keeps s v3 := by
          unfold v3
          apply putCmd_keeps
          assumption
        clear_value v3
        have k6 : Keeps s v4 := by
          unfold v4
          refine Keeps.ite ?_ ?_
          · refine Keeps.set ?_
            assumption
          · assumption
        clear_value v4
        refine Keeps.ite ?_ ?_
        · assumption
        · split
          · assumption
          · apply tryStart_keeps
            assumption

theorem execCommit_keeps {s : State} (a0 : MsgHdr) (a1 : State) (h0 : Keeps s a1) : KeepsO s (execCommit a0 a1) := by
  delta execCommit
  apply receive_keeps
  · intro y0 y1
    extract_lets v2 v3 v4
    clear_value v2
    have k5 : Keeps s v3 := by
      unfold v3
      refine Keeps.set ?_
      assumption
    clear_value v3
    have k6 : Keeps s v4 := by
      unfold v4
      refine Keeps.foldl _ ?_ (fun t7 b7 h7 => ?_)
      · assumption
      · apply poundPublish_keeps
        apply wrLocal_keeps
        assumption
    clear_value v4
    apply admitStaged_keeps
    apply settleLoans_keeps
    refine Keeps.set ?_
    assumption
  · assumption

theorem lkSetEff_keeps {s : State} (a0 : State) (a1 : Cmd) (h0 : Keeps s a0) : Keeps s (lkSetEff a0 a1) := by
  delta lkSetEff
  extract_lets v0 v1 v2 v3
  clear_value v0 v1 v2
  have k4 : Keeps s v3 := by
    unfold v3
    apply setLock_keeps
    assumption
  clear_value v3
  refine Keeps.ite ?_ ?_
  · apply reclaim_keeps
    apply traceRec_keeps
    assumption
  · apply raise_keeps
    assumption

theorem lkSetCommit_keeps {s : State} (a0 : State) (a1 : Cmd) (h0 : Keeps s a0) : Keeps s (lkSetCommit a0 a1) := by
  delta lkSetCommit
  refine Keeps.ite ?_ ?_
  · apply commitWith_keeps
    · intro y0 y1 y2
      apply lkSetEff_keeps
      assumption
    · assumption
  · assumption

theorem execCommitPoint_keeps {s : State} (a0 : ℕ) (a1 : State) (h0 : Keeps s a1) : KeepsO s (execCommitPoint a0 a1) := by
  delta execCommitPoint
  refine KeepsO.next ?_
  split
  · assumption
  · refine Keeps.ite ?_ ?_
    · assumption
    · refine Keeps.ite ?_ ?_
      · apply lkSetCommit_keeps
        assumption
      · refine Keeps.ite ?_ ?_
        · apply commitWith_keeps
          · intro y0 y1 y2
            apply commitEff_keeps
            assumption
          · assumption
        · assumption

theorem execConfigRequest_keeps {s : State} (a0 : ℕ) (a1 : Option ℕ) (a2 : State) (h0 : Keeps s a2) : KeepsO s (execConfigRequest a0 a1 a2) := by
  delta execConfigRequest
  refine KeepsO.next ?_
  refine Keeps.ite ?_ ?_
  · assumption
  · refine Keeps.ite ?_ ?_
    · refine Keeps.set ?_
      assumption
    · split
      · refine Keeps.set ?_
        assumption
      · refine Keeps.set ?_
        assumption

theorem execConfigVerified_keeps {s : State} (a0 : Option SignedObj) (a1 : Option ConfigRecord) (a2 : State) (h0 : Keeps s a2) : KeepsO s (execConfigVerified a0 a1 a2) := by
  delta execConfigVerified
  refine KeepsO.next ?_
  refine Keeps.ite ?_ ?_
  · assumption
  · extract_lets v0
    have k1 : Keeps s v0 := by
      unfold v0
      apply extendMr_keeps
      assumption
    clear_value v0
    split
    · apply bootFail_keeps
      assumption
    · refine Keeps.ite ?_ ?_
      · apply bootFail_keeps
        assumption
      · extract_lets v2
        have k3 : Keeps s v2 := by
          unfold v2
          apply booted_keeps
          assumption
        clear_value v2
        split
        · apply bootFail_keeps
          assumption
        · refine Keeps.ite ?_ ?_
          · apply bootFail_keeps
            assumption
          · extract_lets v4 v5 v6 v7 v8 v9
            have k10 : Keeps s v4 := by
              unfold v4
              apply booted_keeps
              assumption
            clear_value v4
            have k11 : Keeps s v5 := by
              unfold v5
              apply extendMr_keeps
              assumption
            clear_value v5
            clear_value v6 v7 v8
            have k12 : Keeps s v9 := by
              unfold v9
              refine Keeps.set ?_
              assumption
            clear_value v9
            apply setPhase_keeps
            assumption

theorem fillBasin_keeps {s : State} (a0 : State) (a1 : ℕ) (a2 : ℕ) (a3 : ℕ) (h0 : Keeps s a0) : Keeps s (fillBasin a0 a1 a2 a3) := by
  delta fillBasin
  split
  · assumption
  · refine Keeps.foldl _ ?_ (fun t0 b0 h0 => ?_)
    · assumption
    · split
      · assumption
      · refine Keeps.ite ?_ ?_
        · assumption
        · extract_lets v1 v2
          clear_value v1 v2
          apply beginInit_keeps
          apply issueOwn_keeps
          assumption

theorem execContextResume_keeps {s : State} (a0 : ℕ) (a1 : ℕ) (a2 : State) (h0 : Keeps s a2) : KeepsO s (execContextResume a0 a1 a2) := by
  delta execContextResume
  refine KeepsO.next ?_
  extract_lets v0 v1 v2
  clear_value v0 v1
  have k3 : Keeps s v2 := by
    unfold v2
    refine Keeps.set ?_
    assumption
  clear_value v2
  refine Keeps.foldl _ ?_ (fun t4 b4 h4 => ?_)
  · refine Keeps.ite ?_ ?_
    · assumption
    · apply debtPass_keeps
      assumption
  · apply fillBasin_keeps
    assumption

theorem portDown_keeps {s : State} (a0 : State) (a1 : ℕ) (a2 : ℕ) (h0 : Keeps s a0) : Keeps s (portDown a0 a1 a2) := by
  delta portDown
  extract_lets v0 v1 v2
  clear_value v0 v1
  have k3 : Keeps s v2 := by
    unfold v2
    apply setPort_keeps
    assumption
  clear_value v2
  apply raiseMod_keeps
  apply portEvent_keeps
  assumption

theorem laneFail_keeps {s : State} (a0 : State) (a1 : ℕ) (a2 : ℕ) (h0 : Keeps s a0) : Keeps s (laneFail a0 a1 a2) := by
  delta laneFail
  extract_lets v0 v1 v2 v3
  clear_value v0 v1
  have k4 : Keeps s v2 := by
    unfold v2
    apply setPort_keeps
    assumption
  clear_value v2
  have k5 : Keeps s v3 := by
    unfold v3
    apply setPort_keeps
    assumption
  clear_value v3
  refine Keeps.ite ?_ ?_
  · assumption
  · refine Keeps.ite ?_ ?_
    · refine Keeps.ite ?_ ?_
      · apply raiseMod_keeps
        apply portEvent_keeps
        assumption
      · assumption
    · apply portDown_keeps
      assumption

theorem retryLimit_keeps {s : State} (a0 : State) (a1 : ℕ) (h0 : Keeps s a0) : Keeps s (retryLimit a0 a1) := by
  delta retryLimit
  extract_lets v0 v1
  clear_value v0
  have k2 : Keeps s v1 := by
    unfold v1
    apply portEvent_keeps
    assumption
  clear_value v1
  refine Keeps.ite ?_ ?_
  · split
    · apply laneFail_keeps
      assumption
    · apply portDown_keeps
      assumption
  · assumption

theorem execControlFlit_keeps {s : State} (a0 : ℕ) (a1 : ℕ) (a2 : CreditRec) (a3 : State) (h0 : Keeps s a3) : KeepsO s (execControlFlit a0 a1 a2 a3) := by
  delta execControlFlit
  refine KeepsO.next ?_
  extract_lets v0 v1 v2 v3
  clear_value v0 v1
  have k4 : Keeps s v2 := by
    unfold v2
    refine Keeps.ite ?_ ?_
    · apply count_keeps
      assumption
    · assumption
  clear_value v2
  have k5 : Keeps s v3 := by
    unfold v3
    apply setPort_keeps
    assumption
  clear_value v3
  refine Keeps.ite ?_ ?_
  · assumption
  · apply afterAck_keeps
    refine Keeps.ite ?_ ?_
    · apply retryLimit_keeps
      assumption
    · assumption

theorem sendControl_keeps {s : State} (a0 : State) (a1 : ℕ) (a2 : Option ℕ) (h0 : Keeps s a0) : Keeps s (sendControl a0 a1 a2) := by
  delta sendControl
  extract_lets v0
  clear_value v0
  refine Keeps.set ?_
  assumption

theorem execControlFlitTimer_keeps {s : State} (a0 : ℕ) (a1 : State) (h0 : Keeps s a1) : KeepsO s (execControlFlitTimer a0 a1) := by
  delta execControlFlitTimer
  refine KeepsO.next ?_
  refine Keeps.ite ?_ ?_
  · apply sendControl_keeps
    assumption
  · assumption

theorem execConvert_keeps {s : State} (a0 : ℕ) (a1 : State) (h0 : Keeps s a1) : KeepsO s (execConvert a0 a1) := by
  delta execConvert
  apply runOp_keeps
  · intro y0 y1 y2
    apply noEffect_keeps
    assumption
  · assumption

theorem execConvertBarge_keeps {s : State} (a0 : ℕ) (a1 : State) (h0 : Keeps s a1) : KeepsO s (execConvertBarge a0 a1) := by
  delta execConvertBarge
  apply runOp_keeps
  · intro y0 y1 y2
    apply moveEff_keeps
    assumption
  · assumption

theorem zipEnd_keeps {s : State} (a0 : State) (a1 : Cmd) (a2 : GAddr) (h0 : Keeps s a0) : Keeps s (zipEnd a0 a1 a2) := by
  delta zipEnd
  apply endCmd_keeps
  apply memError_keeps
  assumption

theorem execCopy_keeps {s : State} (a0 : ℕ) (a1 : State) (h0 : Keeps s a1) : KeepsO s (execCopy a0 a1) := by
  delta execCopy
  split
  · refine KeepsO.ite ?_ ?_
    · split
      · refine KeepsO.next ?_
        apply zipEnd_keeps
        assumption
      · apply runOp_keeps
        · intro y0 y1 y2
          apply moveEff_keeps
          assumption
        · assumption
    · apply runOp_keeps
      · intro y3 y4 y5
        apply moveEff_keeps
        assumption
      · assumption
  · refine KeepsO.next ?_
    assumption

theorem execCounterFreeze_keeps {s : State} (a0 : ℕ) (a1 : State) (h0 : Keeps s a1) : KeepsO s (execCounterFreeze a0 a1) := by
  delta execCounterFreeze
  refine KeepsO.next ?_
  refine Keeps.ite ?_ ?_
  · extract_lets v0 v1
    have k2 : Keeps s v0 := by
      unfold v0
      apply timeTo_keeps
      assumption
    clear_value v0
    clear_value v1
    apply fire_keeps
    apply setCnt_keeps
    assumption
  · assumption

theorem execCov_keeps {s : State} (a0 : ℕ) (a1 : State) (h0 : Keeps s a1) : KeepsO s (execCov a0 a1) := by
  delta execCov
  apply runOp_keeps
  · intro y0 y1 y2
    apply noEffect_keeps
    assumption
  · assumption

theorem execCxlLinkDown_keeps {s : State} (a0 : LinkCause) (a1 : State) (h0 : Keeps s a1) : KeepsO s (execCxlLinkDown a0 a1) := by
  delta execCxlLinkDown
  refine KeepsO.next ?_
  refine Keeps.ite ?_ ?_
  · assumption
  · extract_lets v0 v1 v2 v3 v4 v5
    clear_value v0
    have k6 : Keeps s v1 := by
      unfold v1
      apply dropHostReplies_keeps
      refine Keeps.set ?_
      assumption
    clear_value v1
    have k7 : Keeps s v2 := by
      unfold v2
      refine Keeps.foldl _ ?_ (fun t8 b8 h8 => ?_)
      · assumption
      · apply endSession_keeps
        assumption
    clear_value v2
    clear_value v3
    have k9 : Keeps s v4 := by
      unfold v4
      refine Keeps.set ?_
      assumption
    clear_value v4
    have k10 : Keeps s v5 := by
      unfold v5
      refine Keeps.ite ?_ ?_
      · apply fire_keeps
        assumption
      · assumption
    clear_value v5
    apply fire_keeps
    assumption

theorem execCxlLinkUp_keeps {s : State} (a0 : ℕ) (a1 : ℕ) (a2 : Bool) (a3 : State) (h0 : Keeps s a3) : KeepsO s (execCxlLinkUp a0 a1 a2 a3) := by
  delta execCxlLinkUp
  refine KeepsO.next ?_
  refine Keeps.ite ?_ ?_
  · assumption
  · apply fire_keeps
    refine Keeps.set ?_
    assumption

theorem execDbgAccess_keeps {s : State} (a0 : State) (h0 : Keeps s a0) : KeepsO s (execDbgAccess a0) := by
  delta execDbgAccess
  refine KeepsO.ite ?_ ?_
  · refine KeepsO.next ?_
    assumption
  · refine KeepsO.ite ?_ ?_
    · exact KeepsO.stop (by intro _ h; cases h)
    · refine KeepsO.next ?_
      refine Keeps.set ?_
      assumption

theorem execDbgSelect_keeps {s : State} (a0 : ℕ) (a1 : State) (h0 : Keeps s a1) : KeepsO s (execDbgSelect a0 a1) := by
  delta execDbgSelect
  refine KeepsO.next ?_
  refine Keeps.ite ?_ ?_
  · assumption
  · refine Keeps.ite ?_ ?_
    · refine Keeps.set ?_
      assumption
    · refine Keeps.set ?_
      assumption

theorem withSes_keeps {s : State} (a0 : ℕ) (a1 : List Byte) (a2 : State) (a3 : ℕ → List Byte → State → State) (h0 : ∀ y0 y1 y2, Keeps s y2 → Keeps s (a3 y0 y1 y2)) (h1 : Keeps s a2) : KeepsO s (withSes a0 a1 a2 a3) := by
  delta withSes
  apply arrives_keeps
  · intro y0 y1
    split
    · apply reply_keeps
      assumption
    · apply h0
      apply setSes_keeps
      assumption
  · assumption

theorem withPriv_keeps {s : State} (a0 : ℕ) (a1 : List Byte) (a2 : State) (a3 : ℕ → List Byte → State → State) (h0 : ∀ y0 y1 y2, Keeps s y2 → Keeps s (a3 y0 y1 y2)) (h1 : Keeps s a2) : KeepsO s (withPriv a0 a1 a2 a3) := by
  delta withPriv
  apply withSes_keeps
  · intro y0 y1 y2 y3
    refine Keeps.ite ?_ ?_
    · apply h0
      assumption
    · apply reply_keeps
      assumption
  · assumption

theorem execDebugUnlock_keeps {s : State} (a0 : List Byte) (a1 : State) (h0 : Keeps s a1) : KeepsO s (execDebugUnlock a0 a1) := by
  delta execDebugUnlock
  apply withPriv_keeps
  · intro y0 y1 y2 y3
    refine Keeps.ite ?_ ?_
    · extract_lets v4 v5
      have k6 : Keeps s v4 := by
        unfold v4
        apply extendMr_keeps
        assumption
      clear_value v4
      clear_value v5
      apply reply_keeps
      refine Keeps.set ?_
      assumption
    · refine Keeps.ite ?_ ?_
      · apply reply_keeps
        refine Keeps.set ?_
        assumption
      · apply reply_keeps
        assumption
  · assumption

theorem execDgrad_keeps {s : State} (a0 : ℕ) (a1 : State) (h0 : Keeps s a1) : KeepsO s (execDgrad a0 a1) := by
  delta execDgrad
  apply runOp_keeps
  · intro y0 y1 y2
    apply noEffect_keeps
    assumption
  · assumption

theorem execDieFence_keeps {s : State} (a0 : ℕ) (a1 : State) (h0 : Keeps s a1) : KeepsO s (execDieFence a0 a1) := by
  delta execDieFence
  refine KeepsO.next ?_
  split
  · assumption
  · refine Keeps.ite ?_ ?_
    · assumption
    · extract_lets v0 v1 v2 v3 v4
      clear_value v0 v1 v2 v3
      have k5 : Keeps s v4 := by
        unfold v4
        apply fenceDie_keeps
        assumption
      clear_value v4
      refine Keeps.ite ?_ ?_
      · refine Keeps.ite ?_ ?_
        · assumption
        · apply commitRow_keeps
          assumption
      · refine Keeps.ite ?_ ?_
        · apply endCmd_keeps
          assumption
        · refine Keeps.ite ?_ ?_
          · apply putCmd_keeps
            apply setDie_keeps
            assumption
          · split
            · refine Keeps.ite ?_ ?_
              · apply putCmd_keeps
                assumption
              · apply commitRow_keeps
                assumption
            · assumption

theorem execDieUnfence_keeps {s : State} (a0 : ℕ) (a1 : List HwUnit) (a2 : State) (h0 : Keeps s a2) : KeepsO s (execDieUnfence a0 a1 a2) := by
  delta execDieUnfence
  refine KeepsO.next ?_
  split
  · assumption
  · refine Keeps.ite ?_ ?_
    · assumption
    · extract_lets v0 v1 v2 v3 v4 v5 v6 v7 v8 v9 v10 v11 v12 v13 v14 v15 v16 v17 v18
      clear_value v0 v1 v2 v3 v4 v5 v6 v7 v8 v9 v10
      have k19 : Keeps s v11 := by
        unfold v11
        apply setDie_keeps
        assumption
      clear_value v11
      have k20 : Keeps s v12 := by
        unfold v12
        apply setSic_keeps
        assumption
      clear_value v12
      have k21 : Keeps s v13 := by
        unfold v13
        apply setCnt_keeps
        assumption
      clear_value v13
      have k22 : Keeps s v14 := by
        unfold v14
        apply setTrace_keeps
        assumption
      clear_value v14
      clear_value v15
      have k23 : Keeps s v16 := by
        unfold v16
        apply setMemRegs_keeps
        assumption
      clear_value v16
      have k24 : Keeps s v17 := by
        unfold v17
        refine Keeps.set ?_
        assumption
      clear_value v17
      have k25 : Keeps s v18 := by
        unfold v18
        refine Keeps.ite ?_ ?_
        · apply raiseMod_keeps
          assumption
        · apply raiseMod_keeps
          assumption
      clear_value v18
      refine Keeps.ite ?_ ?_
      · apply endCmd_keeps
        assumption
      · split
        · apply commitRow_keeps
          assumption
        · assumption

theorem fenceFulls_keeps {s : State} (a0 : State) (h0 : Keeps s a0) : Keeps s (fenceFulls a0) := by
  delta fenceFulls
  refine Keeps.foldl _ ?_ (fun t0 b0 h0 => ?_)
  · assumption
  · apply fenceFull_keeps
    assumption

theorem execDiesReleased_keeps {s : State} (a0 : Bool) (a1 : Bool) (a2 : State) (h0 : Keeps s a2) : KeepsO s (execDiesReleased a0 a1 a2) := by
  delta execDiesReleased
  refine KeepsO.next ?_
  refine Keeps.ite ?_ ?_
  · assumption
  · extract_lets v0 v1 v2 v3 v4 v5 v6
    clear_value v0
    have k7 : Keeps s v1 := by
      unfold v1
      refine Keeps.set ?_
      assumption
    clear_value v1
    clear_value v2
    have k8 : Keeps s v3 := by
      unfold v3
      refine Keeps.set ?_
      assumption
    clear_value v3
    clear_value v4
    have k9 : Keeps s v5 := by
      unfold v5
      refine Keeps.foldl _ ?_ (fun t10 b10 h10 => ?_)
      · assumption
      · apply setDie_keeps
        assumption
    clear_value v5
    have k11 : Keeps s v6 := by
      unfold v6
      apply setPhase_keeps
      refine Keeps.foldl _ ?_ (fun t12 b12 h12 => ?_)
      · assumption
      · apply trainPort_keeps
        assumption
    clear_value v6
    refine Keeps.ite ?_ ?_
    · apply bootFail_keeps
      assumption
    · apply fenceFulls_keeps
      assumption

theorem execDigestCheck_keeps {s : State} (a0 : ℕ) (a1 : State) (h0 : Keeps s a1) : KeepsO s (execDigestCheck a0 a1) := by
  delta execDigestCheck
  apply runOp_keeps
  · intro y0 y1 y2
    apply noEffect_keeps
    assumption
  · assumption

theorem execDiscard_keeps {s : State} (a0 : MsgHdr) (a1 : ℕ) (a2 : State) (h0 : Keeps s a2) : KeepsO s (execDiscard a0 a1 a2) := by
  delta execDiscard
  apply receive_keeps
  · intro y0 y1
    split
    · assumption
    · refine Keeps.ite ?_ ?_
      · apply dropChange_keeps
        assumption
      · assumption
  · assumption

theorem execDiv_keeps {s : State} (a0 : ℕ) (a1 : State) (h0 : Keeps s a1) : KeepsO s (execDiv a0 a1) := by
  delta execDiv
  apply runOp_keeps
  · intro y0 y1 y2
    apply noEffect_keeps
    assumption
  · assumption

theorem execDotRows_keeps {s : State} (a0 : ℕ) (a1 : State) (h0 : Keeps s a1) : KeepsO s (execDotRows a0 a1) := by
  delta execDotRows
  apply runOp_keeps
  · intro y0 y1 y2
    apply noEffect_keeps
    assumption
  · assumption

theorem execDumpBuffer_keeps {s : State} (a0 : Nat) (a1 : State) (h0 : Keeps s a1) : KeepsO s (execDumpBuffer a0 a1) := by
  delta execDumpBuffer
  refine runOp_keeps _ _ _ _ _ (fun t c ht => ?_) h0
  dsimp only
  have k1 : Keeps s { t with dump := { t.dump with buffer := some (c.sess, (descAddr (c.pkt.slot 0)).off) } } := Keeps.set ht
  refine Keeps.ite (Keeps.set ?_) ?_
  all_goals exact Keeps.ite (copyDump_keeps _ _ k1) k1

theorem execDynamicAddressAssignment_keeps {s : State} (a0 : ℕ) (a1 : State) (h0 : Keeps s a1) : KeepsO s (execDynamicAddressAssignment a0 a1) := by
  delta execDynamicAddressAssignment
  refine KeepsO.next ?_
  refine Keeps.ite ?_ ?_
  · assumption
  · refine Keeps.set ?_
    assumption

theorem execErf_keeps {s : State} (a0 : ℕ) (a1 : State) (h0 : Keeps s a1) : KeepsO s (execErf a0 a1) := by
  delta execErf
  apply runOp_keeps
  · intro y0 y1 y2
    apply noEffect_keeps
    assumption
  · assumption

theorem execEventRead_keeps {s : State} (a0 : List Byte) (a1 : State) (h0 : Keeps s a1) : KeepsO s (execEventRead a0 a1) := by
  delta execEventRead
  apply withSes_keeps
  · intro y0 y1 y2 y3
    extract_lets v4 v5 v6 v7
    clear_value v4 v5 v6 v7
    refine Keeps.ite ?_ ?_
    · apply reply_keeps
      assumption
    · refine Keeps.ite ?_ ?_
      · apply reply_keeps
        refine Keeps.set ?_
        assumption
      · apply reply_keeps
        refine Keeps.set ?_
        assumption
  · assumption

theorem execExp_keeps {s : State} (a0 : ℕ) (a1 : State) (h0 : Keeps s a1) : KeepsO s (execExp a0 a1) := by
  delta execExp
  apply runOp_keeps
  · intro y0 y1 y2
    apply noEffect_keeps
    assumption
  · assumption

theorem execExp2_keeps {s : State} (a0 : ℕ) (a1 : State) (h0 : Keeps s a1) : KeepsO s (execExp2 a0 a1) := by
  delta execExp2
  apply runOp_keeps
  · intro y0 y1 y2
    apply noEffect_keeps
    assumption
  · assumption

theorem scanBoundary_keeps {s : State} (a0 : State) (a1 : ℕ) (h0 : Keeps s a0) : Keeps s (scanBoundary a0 a1) := by
  delta scanBoundary
  refine Keeps.ite ?_ ?_
  · assumption
  · extract_lets v0 v1
    have k2 : Keeps s v0 := by
      unfold v0
      apply loadTap_keeps
      assumption
    clear_value v0
    clear_value v1
    refine Keeps.set ?_
    assumption

theorem execExtest_keeps {s : State} (a0 : State) (h0 : Keeps s a0) : KeepsO s (execExtest a0) := by
  delta execExtest
  refine KeepsO.next ?_
  apply scanBoundary_keeps
  assumption

theorem execExtestPulse_keeps {s : State} (a0 : State) (h0 : Keeps s a0) : KeepsO s (execExtestPulse a0) := by
  delta execExtestPulse
  refine KeepsO.next ?_
  apply scanBoundary_keeps
  assumption

theorem execExtestTrain_keeps {s : State} (a0 : State) (h0 : Keeps s a0) : KeepsO s (execExtestTrain a0) := by
  delta execExtestTrain
  refine KeepsO.next ?_
  apply scanBoundary_keeps
  assumption

theorem execFatalError_keeps {s : State} (a0 : ℕ) (a1 : State) (h0 : Keeps s a1) : KeepsO s (execFatalError a0 a1) := by
  delta execFatalError
  refine KeepsO.next ?_
  apply fatalStop_keeps
  assumption

theorem execFill_keeps {s : State} (a0 : ℕ) (a1 : State) (h0 : Keeps s a1) : KeepsO s (execFill a0 a1) := by
  delta execFill
  apply runOp_keeps
  · intro y0 y1 y2
    apply moveEff_keeps
    assumption
  · assumption

theorem initEff_keeps {s : State} (a0 : State) (a1 : Cmd) (h0 : Keeps s a0) : Keeps s (initEff a0 a1) := by
  delta initEff
  extract_lets v0
  clear_value v0
  split
  · assumption
  · apply putFlight_keeps
    assumption

theorem execFlightInit_keeps {s : State} (a0 : ℕ) (a1 : State) (h0 : Keeps s a1) : KeepsO s (execFlightInit a0 a1) := by
  delta execFlightInit
  apply runOp_keeps
  · intro y0 y1 y2
    apply initEff_keeps
    assumption
  · assumption

theorem popEff_keeps {s : State} (a0 : State) (a1 : Cmd) (h0 : Keeps s a0) : Keeps s (popEff a0 a1) := by
  delta popEff
  extract_lets v0
  clear_value v0
  split
  · assumption
  · extract_lets v1 v2
    clear_value v1 v2
    apply putFlight_keeps
    assumption

theorem execFlightPop_keeps {s : State} (a0 : ℕ) (a1 : State) (h0 : Keeps s a1) : KeepsO s (execFlightPop a0 a1) := by
  delta execFlightPop
  apply runOp_keeps
  · intro y0 y1 y2
    apply popEff_keeps
    assumption
  · assumption

theorem execFlightPush_keeps {s : State} (a0 : ℕ) (a1 : State) (h0 : Keeps s a1) : KeepsO s (execFlightPush a0 a1) := by
  delta execFlightPush
  apply runOp_keeps
  · intro y0 y1 y2
    apply pushEff_keeps
    assumption
  · assumption

theorem takePayload_keeps {s : State} (a0 : State) (a1 : ℕ) (a2 : ℕ) (a3 : List Byte) (h0 : Keeps s a0) : Keeps s (takePayload a0 a1 a2 a3) := by
  delta takePayload
  extract_lets v0 v1 v2 v3 v4 v5
  clear_value v0 v1 v2 v3
  have k6 : Keeps s v4 := by
    unfold v4
    apply setPort_keeps
    assumption
  clear_value v4
  have k7 : Keeps s v5 := by
    unfold v5
    refine Keeps.ite ?_ ?_
    · apply portDrop_keeps
      assumption
    · assumption
  clear_value v5
  refine Keeps.ite ?_ ?_
  · apply sendControl_keeps
    assumption
  · assumption

theorem execFlitReceive_keeps {s : State} (a0 : ℕ) (a1 : Flit) (a2 : State) (h0 : Keeps s a2) : KeepsO s (execFlitReceive a0 a1 a2) := by
  delta execFlitReceive
  refine KeepsO.next ?_
  extract_lets v0 v1 v2 v3
  clear_value v0 v1
  have k4 : Keeps s v2 := by
    unfold v2
    apply setPort_keeps
    assumption
  clear_value v2
  have k5 : Keeps s v3 := by
    unfold v3
    apply setPort_keeps
    assumption
  clear_value v3
  refine Keeps.ite ?_ ?_
  · assumption
  · refine Keeps.ite ?_ ?_
    · apply sendControl_keeps
      apply setPort_keeps
      assumption
    · refine Keeps.ite ?_ ?_
      · apply afterAck_keeps
        assumption
      · refine Keeps.ite ?_ ?_
        · apply sendControl_keeps
          apply afterAck_keeps
          assumption
        · apply afterAck_keeps
          apply takePayload_keeps
          assumption

theorem execFma_keeps {s : State} (a0 : ℕ) (a1 : State) (h0 : Keeps s a1) : KeepsO s (execFma a0 a1) := by
  delta execFma
  apply runOp_keeps
  · intro y0 y1 y2
    apply noEffect_keeps
    assumption
  · assumption

theorem issueRefreshes_keeps {s : State} (a0 : State) (a1 : ℕ) (a2 : ℕ) (h0 : Keeps s a0) : Keeps s (issueRefreshes a0 a1 a2) := by
  delta issueRefreshes
  split
  · assumption
  · refine Keeps.ite ?_ ?_
    · assumption
    · refine Keeps.foldl _ ?_ (fun t0 b0 h0 => ?_)
      · assumption
      · split
        · assumption
        · refine Keeps.ite ?_ ?_
          · apply putFset_keeps
            assumption
          · extract_lets v1 v2 v3
            clear_value v1 v2
            have k4 : Keeps s v3 := by
              unfold v3
              apply issueOwn_keeps
              assumption
            clear_value v3
            refine Keeps.set ?_
            assumption

theorem fsetAdvanceEff_keeps {s : State} (a0 : State) (a1 : Cmd) (h0 : Keeps s a0) : Keeps s (fsetAdvanceEff a0 a1) := by
  delta fsetAdvanceEff
  extract_lets v0
  clear_value v0
  split
  · assumption
  · extract_lets v1 v2 v3
    clear_value v1
    have k4 : Keeps s v2 := by
      unfold v2
      apply putFset_keeps
      assumption
    clear_value v2
    have k5 : Keeps s v3 := by
      unfold v3
      refine Keeps.ite ?_ ?_
      · apply issueRefreshes_keeps
        assumption
      · assumption
    clear_value v3
    refine Keeps.ite ?_ ?_
    · assumption
    · refine Keeps.foldl _ ?_ (fun t6 b6 h6 => ?_)
      · assumption
      · refine Keeps.ite ?_ ?_
        · apply raise_keeps
          assumption
        · assumption

theorem execFsetAdvance_keeps {s : State} (a0 : ℕ) (a1 : State) (h0 : Keeps s a1) : KeepsO s (execFsetAdvance a0 a1) := by
  delta execFsetAdvance
  apply runOp_keeps
  · intro y0 y1 y2
    apply fsetAdvanceEff_keeps
    assumption
  · assumption

theorem fsetInitEff_keeps {s : State} (a0 : State) (a1 : Cmd) (h0 : Keeps s a0) : Keeps s (fsetInitEff a0 a1) := by
  delta fsetInitEff
  extract_lets v0 v1 v2 v3
  clear_value v0 v1 v2
  have k4 : Keeps s v3 := by
    unfold v3
    refine Keeps.foldl _ ?_ (fun t5 b5 h5 => ?_)
    · assumption
    · apply zeroLocal_keeps
      apply zeroLocal_keeps
      apply zeroLocal_keeps
      apply zeroLocal_keeps
      assumption
  clear_value v3
  apply putFset_keeps
  assumption

theorem execFsetInit_keeps {s : State} (a0 : ℕ) (a1 : State) (h0 : Keeps s a1) : KeepsO s (execFsetInit a0 a1) := by
  delta execFsetInit
  apply runOp_keeps
  · intro y0 y1 y2
    apply fsetInitEff_keeps
    assumption
  · assumption

theorem fsetRefreshEff_keeps {s : State} (a0 : State) (a1 : Cmd) (h0 : Keeps s a0) : Keeps s (fsetRefreshEff a0 a1) := by
  delta fsetRefreshEff
  apply issueRefreshes_keeps
  assumption

theorem execFsetRefresh_keeps {s : State} (a0 : ℕ) (a1 : State) (h0 : Keeps s a1) : KeepsO s (execFsetRefresh a0 a1) := by
  delta execFsetRefresh
  apply runOp_keeps
  · intro y0 y1 y2
    apply fsetRefreshEff_keeps
    assumption
  · assumption

theorem pauseDies_keeps {s : State} (a0 : State) (h0 : Keeps s a0) : Keeps s (pauseDies a0) := by
  delta pauseDies
  refine Keeps.foldl _ ?_ (fun t0 b0 h0 => ?_)
  · assumption
  · apply setDie_keeps
    assumption

theorem execFwUpdate_keeps {s : State} (a0 : ℕ) (a1 : SignedObj) (a2 : List ℕ) (a3 : State) (h0 : Keeps s a3) : KeepsO s (execFwUpdate a0 a1 a2 a3) := by
  delta execFwUpdate
  apply runOp_keeps
  · intro y0 y1 y2
    extract_lets v3 v4 v5 v6 v7
    clear_value v3 v4
    have k8 : Keeps s v5 := by
      unfold v5
      refine Keeps.set ?_
      assumption
    clear_value v5
    have k9 : Keeps s v6 := by
      unfold v6
      apply extendMr_keeps
      assumption
    clear_value v6
    clear_value v7
    refine Keeps.ite ?_ ?_
    · apply pauseDies_keeps
      refine Keeps.set ?_
      assumption
    · assumption
  · assumption

theorem execFwd_keeps {s : State} (a0 : ℕ) (a1 : State) (h0 : Keeps s a1) : KeepsO s (execFwd a0 a1) := by
  delta execFwd
  apply runOp_keeps
  · intro y0 y1 y2
    apply pushEff_keeps
    assumption
  · assumption

theorem execGather_keeps {s : State} (a0 : ℕ) (a1 : State) (h0 : Keeps s a1) : KeepsO s (execGather a0 a1) := by
  delta execGather
  apply runOp_keeps
  · intro y0 y1 y2
    apply noEffect_keeps
    assumption
  · assumption

theorem execGlobalNorm_keeps {s : State} (a0 : ℕ) (a1 : State) (h0 : Keeps s a1) : KeepsO s (execGlobalNorm a0 a1) := by
  delta execGlobalNorm
  refine KeepsO.next ?_
  apply collRun_keeps
  assumption

theorem execHbmInterfaceLost_keeps {s : State} (a0 : ℕ) (a1 : State) (h0 : Keeps s a1) : KeepsO s (execHbmInterfaceLost a0 a1) := by
  delta execHbmInterfaceLost
  refine KeepsO.next ?_
  apply fenceDie_keeps
  assumption

theorem execHbmTrainingDone_keeps {s : State} (a0 : List ℕ) (a1 : State) (h0 : Keeps s a1) : KeepsO s (execHbmTrainingDone a0 a1) := by
  delta execHbmTrainingDone
  refine KeepsO.next ?_
  refine Keeps.ite ?_ ?_
  · assumption
  · extract_lets v0 v1 v2
    have k3 : Keeps s v0 := by
      unfold v0
      apply setPhase_keeps
      assumption
    clear_value v0
    have k4 : Keeps s v1 := by
      unfold v1
      refine Keeps.foldl _ ?_ (fun t5 b5 h5 => ?_)
      · assumption
      · apply fenceDie_keeps
        assumption
    clear_value v1
    clear_value v2
    refine Keeps.ite ?_ ?_
    · assumption
    · apply setPhase_keeps
      refine Keeps.set ?_
      assumption

theorem execHdmBind_keeps {s : State} (a0 : List Byte) (a1 : State) (h0 : Keeps s a1) : KeepsO s (execHdmBind a0 a1) := by
  delta execHdmBind
  apply withSes_keeps
  · intro y0 y1 y2 y3
    extract_lets v4 v5 v6 v7 v8 v9
    clear_value v4 v5 v6 v7 v8 v9
    refine Keeps.ite ?_ ?_
    · apply reply_keeps
      assumption
    · apply reply_keeps
      refine Keeps.set ?_
      assumption
  · assumption

theorem execHdmDecoderCommit_keeps {s : State} (a0 : ℕ) (a1 : ℕ) (a2 : State) (h0 : Keeps s a2) : KeepsO s (execHdmDecoderCommit a0 a1 a2) := by
  delta execHdmDecoderCommit
  refine KeepsO.next ?_
  refine Keeps.ite ?_ ?_
  · refine Keeps.set ?_
    assumption
  · assumption

theorem execHdmRead_keeps {s : State} (a0 : ℕ) (a1 : ℕ) (a2 : State) (h0 : Keeps s a2) : KeepsO s (execHdmRead a0 a1 a2) := by
  delta execHdmRead
  refine KeepsO.next ?_
  refine Keeps.ite ?_ ?_
  · assumption
  · extract_lets v0 v1
    clear_value v0
    have k2 : Keeps s v1 := by
      unfold v1
      refine Keeps.set ?_
      assumption
    clear_value v1
    split
    · assumption
    · refine Keeps.ite ?_ ?_
      · assumption
      · apply count_keeps
        refine Keeps.set ?_
        assumption

theorem execHdmUnbind_keeps {s : State} (a0 : List Byte) (a1 : State) (h0 : Keeps s a1) : KeepsO s (execHdmUnbind a0 a1) := by
  delta execHdmUnbind
  apply withSes_keeps
  · intro y0 y1 y2 y3
    extract_lets v4 v5 v6 v7
    clear_value v4 v5 v6 v7
    refine Keeps.ite ?_ ?_
    · apply reply_keeps
      assumption
    · apply reply_keeps
      refine Keeps.set ?_
      assumption
  · assumption

theorem execHdmWrite_keeps {s : State} (a0 : ℕ) (a1 : List Byte) (a2 : State) (h0 : Keeps s a2) : KeepsO s (execHdmWrite a0 a1 a2) := by
  delta execHdmWrite
  refine KeepsO.next ?_
  refine Keeps.ite ?_ ?_
  · assumption
  · extract_lets v0
    clear_value v0
    split
    · apply raiseMod_keeps
      apply fire_keeps
      assumption
    · apply count_keeps
      apply wrLocal_keeps
      assumption

theorem execHeartbeat_keeps {s : State} (a0 : Sys2Proof.MsgHdr) (a1 : State) (h0 : Keeps s a1) : KeepsO s (execHeartbeat a0 a1) := by
  delta execHeartbeat
  apply receive_keeps
  · intro y0
    intro y1
    dsimp only [id]
    assumption
  · assumption

theorem execHeartbeatTimer_keeps {s : State} (a0 : State) (h0 : Keeps s a0) : KeepsO s (execHeartbeatTimer a0) := by
  delta execHeartbeatTimer
  refine KeepsO.next ?_
  refine Keeps.ite ?_ ?_
  · refine Keeps.foldl _ ?_ (fun t0 b0 h0 => ?_)
    · assumption
    · split
      · refine Keeps.ite ?_ ?_
        · assumption
        · apply sendDom_keeps
          assumption
      · apply sendDom_keeps
        assumption
  · assumption

theorem execHello_keeps {s : State} (a0 : MsgHdr) (a1 : ℕ) (a2 : State) (h0 : Keeps s a2) : KeepsO s (execHello a0 a1 a2) := by
  delta execHello
  apply receive_keeps
  · intro y0 y1
    extract_lets v2 v3
    clear_value v2
    have k4 : Keeps s v3 := by
      unfold v3
      refine Keeps.set ?_
      assumption
    clear_value v3
    refine Keeps.ite ?_ ?_
    · apply raiseMod_keeps
      refine Keeps.set ?_
      assumption
    · refine Keeps.ite ?_ ?_
      · apply setMember_keeps
        assumption
      · assumption
  · assumption

theorem execHighz_keeps {s : State} (a0 : State) (h0 : Keeps s a0) : KeepsO s (execHighz a0) := by
  delta execHighz
  refine KeepsO.next ?_
  apply loadTap_keeps
  assumption

theorem execHostbufReg_keeps {s : State} (a0 : ℕ) (a1 : State) (h0 : Keeps s a1) : KeepsO s (execHostbufReg a0 a1) := by
  delta execHostbufReg
  apply runOp_keeps
  · intro y0 y1 y2
    refine Keeps.set ?_
    assumption
  · assumption

theorem execHostbufUnreg_keeps {s : State} (a0 : ℕ) (a1 : State) (h0 : Keeps s a1) : KeepsO s (execHostbufUnreg a0 a1) := by
  delta execHostbufUnreg
  apply runOp_keeps
  · intro y0 y1 y2
    split
    · apply releaseBufs_keeps
      assumption
    · assumption
  · assumption

theorem execHotSwapRetry_keeps {s : State} (a0 : State) (h0 : Keeps s a0) : KeepsO s (execHotSwapRetry a0) := by
  delta execHotSwapRetry
  refine KeepsO.next ?_
  refine Keeps.ite ?_ ?_
  · refine Keeps.set ?_
    assumption
  · assumption

theorem execI3cReadPointer_keeps {s : State} (a0 : ℕ) (a1 : State) (h0 : Keeps s a1) : KeepsO s (execI3cReadPointer a0 a1) := by
  delta execI3cReadPointer
  refine KeepsO.next ?_
  refine Keeps.ite ?_ ?_
  · assumption
  · refine Keeps.set ?_
    assumption

theorem execIdCerts_keeps {s : State} (a0 : List Byte) (a1 : State) (h0 : Keeps s a1) : KeepsO s (execIdCerts a0 a1) := by
  delta execIdCerts
  apply arrives_keeps
  · intro y0 y1
    extract_lets v2 v3
    clear_value v2 v3
    refine Keeps.ite ?_ ?_
    · apply reply_keeps
      assumption
    · apply reply_keeps
      assumption
  · assumption

theorem execIdcode_keeps {s : State} (a0 : State) (h0 : Keeps s a0) : KeepsO s (execIdcode a0) := by
  delta execIdcode
  refine KeepsO.next ?_
  extract_lets v0
  have k1 : Keeps s v0 := by
    unfold v0
    apply loadTap_keeps
    assumption
  clear_value v0
  refine Keeps.ite ?_ ?_
  · refine Keeps.set ?_
    assumption
  · assumption

theorem execImageVerified_keeps {s : State} (a0 : Option SignedObj) (a1 : State) (h0 : Keeps s a1) : KeepsO s (execImageVerified a0 a1) := by
  delta execImageVerified
  refine KeepsO.next ?_
  refine Keeps.ite ?_ ?_
  · assumption
  · split
    · apply bootFail_keeps
      assumption
    · refine Keeps.ite ?_ ?_
      · apply bootFail_keeps
        assumption
      · extract_lets v0 v1 v2
        have k3 : Keeps s v0 := by
          unfold v0
          apply booted_keeps
          assumption
        clear_value v0
        clear_value v1 v2
        apply setPhase_keeps
        refine Keeps.set ?_
        assumption

theorem tryReady_keeps {s : State} (a0 : State) (h0 : Keeps s a0) : Keeps s (tryReady a0) := by
  delta tryReady
  refine Keeps.ite ?_ ?_
  · apply becomeReady_keeps
    assumption
  · assumption

theorem execInitialisationDone_keeps {s : State} (a0 : State) (h0 : Keeps s a0) : KeepsO s (execInitialisationDone a0) := by
  delta execInitialisationDone
  refine KeepsO.next ?_
  refine Keeps.ite ?_ ?_
  · assumption
  · apply tryReady_keeps
    refine Keeps.setMem ?_ (memFilter_wf _)
    assumption

theorem freshBoot_keeps {s : State} (a0 : State) (a1 a2 : Bool) (h0 : Keeps s a0) : Keeps s (freshBoot a0 a1 a2) := by
  delta freshBoot
  extract_lets hbm o
  refine Keeps.setMem h0 fun q => ?_
  split
  · exact memFilter_wf _ q
  · rfl

theorem railsOff_keeps {s : State} (a0 : State) (a1 : ℕ) (h0 : Keeps s a0) : Keeps s (railsOff a0 a1) := by
  delta railsOff
  extract_lets v0 v1
  have k2 : Keeps s v0 := by
    unfold v0
    apply freshBoot_keeps
    assumption
  clear_value v0
  clear_value v1
  refine Keeps.set ?_
  assumption

theorem execInputLoss_keeps {s : State} (a0 : State) (h0 : Keeps s a0) : KeepsO s (execInputLoss a0) := by
  delta execInputLoss
  refine KeepsO.next ?_
  extract_lets v0 v1
  have k2 : Keeps s v0 := by
    unfold v0
    apply railsOff_keeps
    assumption
  clear_value v0
  clear_value v1
  refine Keeps.set ?_
  assumption

theorem setHold_keeps {s : State} (a0 : State) (a1 : Bool) (h0 : Keeps s a0) : Keeps s (setHold a0 a1) := by
  delta setHold
  extract_lets v0 v1 v2 v3 v4 v5
  clear_value v0 v1 v2 v3 v4 v5
  refine Keeps.ite ?_ ?_
  · assumption
  · apply autoChange_keeps
    refine Keeps.set ?_
    assumption

theorem execInputSample_keeps {s : State} (a0 : InputMeas) (a1 : State) (h0 : Keeps s a1) : KeepsO s (execInputSample a0 a1) := by
  delta execInputSample
  refine KeepsO.next ?_
  extract_lets v0 v1 v2 v3 v4 v5
  clear_value v0 v1 v2
  have k5 : Keeps s v3 := by
    unfold v3
    refine Keeps.set ?_
    assumption
  clear_value v3
  have k6 : Keeps s v4 := by
    unfold v4
    apply railsOff_keeps
    assumption
  clear_value v4
  clear_value v5
  refine Keeps.ite ?_ ?_
  · refine Keeps.set ?_
    assumption
  · refine Keeps.ite ?_ ?_
    · refine Keeps.set ?_
      assumption
    · refine Keeps.ite ?_ ?_
      · apply fatalStop_keeps
        assumption
      · refine Keeps.ite ?_ ?_
        · apply setHold_keeps
          assumption
        · refine Keeps.ite ?_ ?_
          · apply clearHold_keeps
            assumption
          · assumption

theorem execJobEnd_keeps {s : State} (a0 : ℕ) (a1 : State) (h0 : Keeps s a1) : KeepsO s (execJobEnd a0 a1) := by
  delta execJobEnd
  refine KeepsO.next ?_
  split
  · refine Keeps.ite ?_ ?_
    · refine Keeps.ite ?_ ?_
      · apply endJob_keeps
        assumption
      · refine Keeps.ite ?_ ?_
        · apply commitJobEnds_keeps
          assumption
        · assumption
    · assumption
  · assumption

theorem execJobLink_keeps {s : State} (a0 : List Byte) (a1 : State) (h0 : Keeps s a1) : KeepsO s (execJobLink a0 a1) := by
  delta execJobLink
  apply withSes_keeps
  · intro y0 y1 y2 y3
    extract_lets v4
    clear_value v4
    refine Keeps.ite ?_ ?_
    · apply reply_keeps
      assumption
    · split
      · apply reply_keeps
        assumption
      · apply reply_keeps
        refine Keeps.set ?_
        assumption
  · assumption

theorem resumeEff_keeps {s : State} (a0 : State) (a1 : Cmd) (h0 : Keeps s a0) : Keeps s (resumeEff a0 a1) := by
  delta resumeEff
  apply updJob_keeps
  assumption

theorem execJobResume_keeps {s : State} (a0 : ℕ) (a1 : State) (h0 : Keeps s a1) : KeepsO s (execJobResume a0 a1) := by
  delta execJobResume
  apply runOp_keeps
  · intro y0 y1 y2
    apply resumeEff_keeps
    assumption
  · assumption

theorem execJobSubmit_keeps {s : State} (a0 : ℕ) (a1 : State) (h0 : Keeps s a1) : KeepsO s (execJobSubmit a0 a1) := by
  delta execJobSubmit
  apply runOp_keeps
  · intro y0 y1 y2
    split
    · extract_lets v3
      clear_value v3
      apply setCounts_keeps
      refine Keeps.set ?_
      assumption
    · assumption
  · assumption

theorem suspendEff_keeps {s : State} (a0 : State) (a1 : Cmd) (h0 : Keeps s a0) : Keeps s (suspendEff a0 a1) := by
  delta suspendEff
  split
  · assumption
  · split
    · extract_lets v0
      have k1 : Keeps s v0 := by
        unfold v0
        apply updJob_keeps
        assumption
      clear_value v0
      apply killAll_keeps
      assumption
    · extract_lets v2
      have k3 : Keeps s v2 := by
        unfold v2
        apply updJob_keeps
        assumption
      clear_value v2
      apply killAll_keeps
      assumption
    · assumption

theorem execJobSuspend_keeps {s : State} (a0 : ℕ) (a1 : State) (h0 : Keeps s a1) : KeepsO s (execJobSuspend a0 a1) := by
  delta execJobSuspend
  apply runOp_keeps
  · intro y0 y1 y2
    apply suspendEff_keeps
    assumption
  · assumption

theorem execLaneFailure_keeps {s : State} (a0 : ℕ) (a1 : ℕ) (a2 : State) (h0 : Keeps s a2) : KeepsO s (execLaneFailure a0 a1 a2) := by
  delta execLaneFailure
  refine KeepsO.next ?_
  refine Keeps.ite ?_ ?_
  · apply releaseAll_keeps
    apply laneFail_keeps
    assumption
  · assumption

theorem execLkNop_keeps {s : State} (a0 : ℕ) (a1 : State) (h0 : Keeps s a1) : KeepsO s (execLkNop a0 a1) := by
  delta execLkNop
  apply runOp_keeps
  · intro y0 y1 y2
    apply noEffect_keeps
    assumption
  · assumption

theorem execLkRead_keeps {s : State} (a0 : ℕ) (a1 : State) (h0 : Keeps s a1) : KeepsO s (execLkRead a0 a1) := by
  delta execLkRead
  apply runOp_keeps
  · intro y0 y1 y2
    extract_lets v3
    clear_value v3
    refine Keeps.ite ?_ ?_
    · assumption
    · apply raise_keeps
      assumption
  · assumption

theorem execLkSet_keeps {s : State} (a0 : ℕ) (a1 : State) (h0 : Keeps s a1) : KeepsO s (execLkSet a0 a1) := by
  delta execLkSet
  refine KeepsO.next ?_
  split
  · assumption
  · refine Keeps.ite ?_ ?_
    · extract_lets v0 v1 v2
      clear_value v0
      have k3 : Keeps s v1 := by
        unfold v1
        refine Keeps.ite ?_ ?_
        · apply setLock_keeps
          assumption
        · assumption
      clear_value v1
      clear_value v2
      apply lkSetCommit_keeps
      apply putCmd_keeps
      assumption
    · assumption

theorem lkSignalEff_keeps {s : State} (a0 : State) (a1 : Cmd) (h0 : Keeps s a0) : Keeps s (lkSignalEff a0 a1) := by
  delta lkSignalEff
  refine Keeps.ite ?_ ?_
  · assumption
  · split
    · apply signalLock_keeps
      assumption
    · assumption

theorem execLkSignal_keeps {s : State} (a0 : ℕ) (a1 : State) (h0 : Keeps s a1) : KeepsO s (execLkSignal a0 a1) := by
  delta execLkSignal
  apply runOp_keeps
  · intro y0 y1 y2
    apply lkSignalEff_keeps
    assumption
  · assumption

theorem execLoanEnd_keeps {s : State} (a0 : MsgHdr) (a1 : State) (h0 : Keeps s a1) : KeepsO s (execLoanEnd a0 a1) := by
  delta execLoanEnd
  apply receive_keeps
  · intro y0 y1
    apply settleLoans_keeps
    refine Keeps.set ?_
    assumption
  · assumption

theorem execLoanGrant_keeps {s : State} (a0 : ℕ) (a1 : State) (h0 : Keeps s a1) : KeepsO s (execLoanGrant a0 a1) := by
  delta execLoanGrant
  apply runOp_keeps
  · intro y0 y1 y2
    extract_lets v3 v4
    clear_value v3 v4
    refine Keeps.set ?_
    assumption
  · assumption

theorem execLoanReturn_keeps {s : State} (a0 : ℕ) (a1 : State) (h0 : Keeps s a1) : KeepsO s (execLoanReturn a0 a1) := by
  delta execLoanReturn
  apply runOp_keeps
  · intro y0 y1 y2
    refine Keeps.set ?_
    assumption
  · assumption

theorem execLockGrant_keeps {s : State} (a0 : ℕ) (a1 : State) (h0 : Keeps s a1) : KeepsO s (execLockGrant a0 a1) := by
  delta execLockGrant
  apply runOp_keeps
  · intro y0 y1 y2
    refine Keeps.foldl _ ?_ (fun t3 b3 h3 => ?_)
    · assumption
    · refine Keeps.ite ?_ ?_
      · apply setLock_keeps
        assumption
      · assumption
  · assumption

theorem freeLock_keeps {s : State} (a0 : State) (a1 : ℕ) (h0 : Keeps s a0) : Keeps s (freeLock a0 a1) := by
  delta freeLock
  apply setLock_keeps
  assumption

theorem execLockRelease_keeps {s : State} (a0 : ℕ) (a1 : State) (h0 : Keeps s a1) : KeepsO s (execLockRelease a0 a1) := by
  delta execLockRelease
  apply runOp_keeps
  · intro y0 y1 y2
    refine Keeps.foldl _ ?_ (fun t3 b3 h3 => ?_)
    · assumption
    · refine Keeps.ite ?_ ?_
      · apply freeLock_keeps
        assumption
      · assumption
  · assumption

theorem execLockSignal_keeps {s : State} (a0 : MsgHdr) (a1 : ℕ) (a2 : ℕ) (a3 : State) (h0 : Keeps s a3) : KeepsO s (execLockSignal a0 a1 a2 a3) := by
  delta execLockSignal
  apply receive_keeps
  · intro y0 y1
    apply signalLock_keeps
    assumption
  · assumption

theorem execLog_keeps {s : State} (a0 : ℕ) (a1 : State) (h0 : Keeps s a1) : KeepsO s (execLog a0 a1) := by
  delta execLog
  apply runOp_keeps
  · intro y0 y1 y2
    apply noEffect_keeps
    assumption
  · assumption

theorem execLog2_keeps {s : State} (a0 : ℕ) (a1 : State) (h0 : Keeps s a1) : KeepsO s (execLog2 a0 a1) := by
  delta execLog2
  apply runOp_keeps
  · intro y0 y1 y2
    apply noEffect_keeps
    assumption
  · assumption

theorem selfLost_keeps {s : State} (a0 : State) (a1 : ℕ) (h0 : Keeps s a0) : Keeps s (selfLost a0 a1) := by
  delta selfLost
  extract_lets v0 v1 v2
  clear_value v0 v1
  have k3 : Keeps s v2 := by
    unfold v2
    refine Keeps.foldl _ ?_ (fun t4 b4 h4 => ?_)
    · assumption
    · apply raise_keeps
      apply endJob_keeps
      apply raise_keeps
      assumption
  clear_value v2
  apply raiseMod_keeps
  assumption

theorem execLost_keeps {s : State} (a0 : MsgHdr) (a1 : ℕ) (a2 : State) (h0 : Keeps s a2) : KeepsO s (execLost a0 a1 a2) := by
  delta execLost
  apply receive_keeps
  · intro y0 y1
    refine Keeps.ite ?_ ?_
    · apply selfLost_keeps
      assumption
    · refine Keeps.ite ?_ ?_
      · extract_lets v2
        have k3 : Keeps s v2 := by
          unfold v2
          apply declareLost_keeps
          assumption
        clear_value v2
        apply sendDom_keeps
        assumption
      · assumption
  · assumption

theorem execMax_keeps {s : State} (a0 : ℕ) (a1 : State) (h0 : Keeps s a1) : KeepsO s (execMax a0 a1) := by
  delta execMax
  apply runOp_keeps
  · intro y0 y1 y2
    apply noEffect_keeps
    assumption
  · assumption

theorem execMaxRows_keeps {s : State} (a0 : ℕ) (a1 : State) (h0 : Keeps s a1) : KeepsO s (execMaxRows a0 a1) := by
  delta execMaxRows
  apply runOp_keeps
  · intro y0 y1 y2
    apply noEffect_keeps
    assumption
  · assumption

theorem execMember_keeps {s : State} (a0 : MsgHdr) (a1 : List (ℕ × ℕ)) (a2 : State) (h0 : Keeps s a2) : KeepsO s (execMember a0 a1 a2) := by
  delta execMember
  apply receive_keeps
  · intro y0 y1
    extract_lets v2 v3 v4 v5 v6
    clear_value v2 v3 v4 v5
    have k7 : Keeps s v6 := by
      unfold v6
      refine Keeps.set ?_
      assumption
    clear_value v6
    refine Keeps.ite ?_ ?_
    · assumption
    · refine Keeps.foldl _ ?_ (fun t8 b8 h8 => ?_)
      · assumption
      · apply declareLost_keeps
        assumption
  · assumption

theorem countPacedTransit_keeps {s : State} (a0 : State) (a1 : MsgHdr) (h0 : Keeps s a0) : Keeps s (countPacedTransit a0 a1) := by
  delta countPacedTransit
  split
  · refine Keeps.ite ?_ ?_
    · apply setPort_keeps
      assumption
    · assumption
  · assumption

theorem execMessageForward_keeps {s : State} (a0 : ℕ) (a1 : MsgHdr) (a2 : State) (h0 : Keeps s a2) : KeepsO s (execMessageForward a0 a1 a2) := by
  delta execMessageForward
  refine KeepsO.next ?_
  refine Keeps.ite ?_ ?_
  · assumption
  · refine Keeps.ite ?_ ?_
    · apply raiseMod_keeps
      apply portEvent_keeps
      apply portDrop_keeps
      assumption
    · apply offerTransit_keeps
      apply countPacedTransit_keeps
      assumption

end Sys2Proof.Machine
end

