-- ==== Sys2Proof/Laws/KeepsExec.lean ====
section
/-! SUPPORT. What each operation keeps (Laws/Keeps), in the order in which they call one another: part four. -/

set_option linter.unusedVariables false

namespace Sys2Proof.Machine

theorem execMin_keeps {s : State} (a0 : ℕ) (a1 : State) (h0 : Keeps s a1) : KeepsO s (execMin a0 a1) := by
  delta execMin
  apply runOp_keeps
  · intro y0 y1 y2
    apply noEffect_keeps
    assumption
  · assumption

theorem execMinRows_keeps {s : State} (a0 : ℕ) (a1 : State) (h0 : Keeps s a1) : KeepsO s (execMinRows a0 a1) := by
  delta execMinRows
  apply runOp_keeps
  · intro y0 y1 y2
    apply noEffect_keeps
    assumption
  · assumption

theorem sampleStraps_keeps {s : State} (a0 : State) (h0 : Keeps s a0) : Keeps s (sampleStraps a0) := by
  delta sampleStraps
  refine Keeps.set ?_
  assumption

theorem leaveStandby_keeps {s : State} (a0 : State) (h0 : Keeps s a0) : Keeps s (leaveStandby a0) := by
  delta leaveStandby
  refine Keeps.ite ?_ ?_
  · refine Keeps.set ?_
    assumption
  · assumption

theorem execModResetN_keeps {s : State} (a0 : Bool) (a1 : State) (h0 : Keeps s a1) : KeepsO s (execModResetN a0 a1) := by
  delta execModResetN
  refine KeepsO.next ?_
  extract_lets v0 v1
  clear_value v0
  have k2 : Keeps s v1 := by
    unfold v1
    refine Keeps.set ?_
    assumption
  clear_value v1
  refine Keeps.ite ?_ ?_
  · assumption
  · refine Keeps.ite ?_ ?_
    · refine Keeps.ite ?_ ?_
      · assumption
      · refine Keeps.ite ?_ ?_
        · apply sampleStraps_keeps
          assumption
        · apply leaveStandby_keeps
          assumption
    · refine Keeps.ite ?_ ?_
      · apply sampleStraps_keeps
        apply freshBoot_keeps
        assumption
      · apply freshBoot_keeps
        assumption

theorem execModeAckTimeout_keeps {s : State} (a0 : ℕ) (a1 : State) (h0 : Keeps s a1) : KeepsO s (execModeAckTimeout a0 a1) := by
  delta execModeAckTimeout
  refine KeepsO.next ?_
  split
  · assumption
  · split
    · extract_lets v0 v1 v2
      have k3 : Keeps s v0 := by
        unfold v0
        apply timeTo_keeps
        assumption
      clear_value v0
      have k4 : Keeps s v1 := by
        unfold v1
        refine Keeps.foldl _ ?_ (fun t5 b5 h5 => ?_)
        · assumption
        · apply sendDom_keeps
          assumption
      clear_value v1
      have k6 : Keeps s v2 := by
        unfold v2
        apply raise_keeps
        apply fire_keeps
        assumption
      clear_value v2
      apply dropChange_keeps
      assumption
    · assumption

theorem execModeApply_keeps {s : State} (a0 : ℕ) (a1 : State) (h0 : Keeps s a1) : KeepsO s (execModeApply a0 a1) := by
  delta execModeApply
  refine KeepsO.next ?_
  split
  · assumption
  · split
    · apply applyChange_keeps
      apply timeTo_keeps
      assumption
    · assumption

theorem execModeStage_keeps {s : State} (a0 : ℕ) (a1 : State) (h0 : Keeps s a1) : KeepsO s (execModeStage a0 a1) := by
  delta execModeStage
  refine KeepsO.next ?_
  split
  · assumption
  · refine Keeps.ite ?_ ?_
    · split
      · apply endCmd_keeps
        assumption
      · extract_lets v0 v1 v2 v3 v4 v5
        have k6 : Keeps s v0 := by
          unfold v0
          apply putCmd_keeps
          assumption
        clear_value v0
        clear_value v1 v2 v3 v4 v5
        refine Keeps.ite ?_ ?_
        · apply sendDom_keeps
          apply putChange_keeps
          assumption
        · apply stageChange_keeps
          assumption
    · assumption

theorem execModeStartHold_keeps {s : State} (a0 : ℕ) (a1 : State) (h0 : Keeps s a1) : KeepsO s (execModeStartHold a0 a1) := by
  delta execModeStartHold
  refine KeepsO.next ?_
  split
  · assumption
  · refine Keeps.ite ?_ ?_
    · extract_lets v0
      have k1 : Keeps s v0 := by
        unfold v0
        apply timeTo_keeps
        assumption
      clear_value v0
      apply putChange_keeps
      assumption
    · assumption

theorem execModerationTimer_keeps {s : State} (a0 : ℕ) (a1 : ℕ) (a2 : State) (h0 : Keeps s a2) : KeepsO s (execModerationTimer a0 a1 a2) := by
  delta execModerationTimer
  refine KeepsO.next ?_
  extract_lets v0 v1
  clear_value v0
  have k2 : Keeps s v1 := by
    unfold v1
    apply timeTo_keeps
    assumption
  clear_value v1
  refine Keeps.ite ?_ ?_
  · apply setSic_keeps
    assumption
  · assumption

theorem execModuleReset_keeps {s : State} (a0 : State) (h0 : Keeps s a0) : KeepsO s (execModuleReset a0) := by
  delta execModuleReset
  refine KeepsO.next ?_
  refine Keeps.ite ?_ ?_
  · assumption
  · refine Keeps.ite ?_ ?_
    · apply leaveStandby_keeps
      assumption
    · extract_lets v0 v1
      have k2 : Keeps s v0 := by
        unfold v0
        apply sampleStraps_keeps
        apply freshBoot_keeps
        assumption
      clear_value v0
      clear_value v1
      refine Keeps.set ?_
      assumption

theorem execMul_keeps {s : State} (a0 : ℕ) (a1 : State) (h0 : Keeps s a1) : KeepsO s (execMul a0 a1) := by
  delta execMul
  apply runOp_keeps
  · intro y0 y1 y2
    apply noEffect_keeps
    assumption
  · assumption

theorem execNorm2Rows_keeps {s : State} (a0 : ℕ) (a1 : State) (h0 : Keeps s a1) : KeepsO s (execNorm2Rows a0 a1) := by
  delta execNorm2Rows
  apply runOp_keeps
  · intro y0 y1 y2
    apply noEffect_keeps
    assumption
  · assumption

theorem execOpenMsg_keeps {s : State} (a0 : MsgHdr) (a1 : ℕ) (a2 : ℕ) (a3 : State) (h0 : Keeps s a3) : KeepsO s (execOpenMsg a0 a1 a2 a3) := by
  delta execOpenMsg
  apply receive_keeps
  · intro y0 y1
    split
    · assumption
    · refine Keeps.ite ?_ ?_
      · assumption
      · extract_lets v2
        clear_value v2
        refine Keeps.ite ?_ ?_
        · apply applyChange_keeps
          apply putChange_keeps
          assumption
        · apply putChange_keeps
          assumption
  · assumption

theorem execOwnerEnroll_keeps {s : State} (a0 : List Byte) (a1 : State) (h0 : Keeps s a1) : KeepsO s (execOwnerEnroll a0 a1) := by
  delta execOwnerEnroll
  apply withPriv_keeps
  · intro y0 y1 y2 y3
    refine Keeps.ite ?_ ?_
    · apply reply_keeps
      assumption
    · apply reply_keeps
      refine Keeps.set ?_
      assumption
  · assumption

theorem execOwnerRelease_keeps {s : State} (a0 : List Byte) (a1 : State) (h0 : Keeps s a1) : KeepsO s (execOwnerRelease a0 a1) := by
  delta execOwnerRelease
  apply withPriv_keeps
  · intro y0 y1 y2 y3
    apply reply_keeps
    refine Keeps.set ?_
    assumption
  · assumption

theorem execPdelay_keeps {s : State} (a0 : MsgHdr) (a1 : ℕ) (a2 : ℕ) (a3 : State) (h0 : Keeps s a3) : KeepsO s (execPdelay a0 a1 a2 a3) := by
  delta execPdelay
  apply receive_keeps
  · intro y0 y1
    apply setPort_keeps
    assumption
  · assumption

theorem execPdelayTimer_keeps {s : State} (a0 : ℕ) (a1 : State) (h0 : Keeps s a1) : KeepsO s (execPdelayTimer a0 a1) := by
  delta execPdelayTimer
  refine KeepsO.next ?_
  extract_lets v0
  clear_value v0
  refine Keeps.ite ?_ ?_
  · apply sendDom_keeps
    assumption
  · assumption

theorem execPeerLost_keeps {s : State} (a0 : ℕ) (a1 : State) (h0 : Keeps s a1) : KeepsO s (execPeerLost a0 a1) := by
  delta execPeerLost
  refine KeepsO.next ?_
  refine Keeps.ite ?_ ?_
  · apply declareLost_keeps
    apply timeTo_keeps
    assumption
  · assumption

theorem execPermute_keeps {s : State} (a0 : ℕ) (a1 : State) (h0 : Keeps s a1) : KeepsO s (execPermute a0 a1) := by
  delta execPermute
  refine KeepsO.next ?_
  apply collRun_keeps
  assumption

theorem execPermuteFlip_keeps {s : State} (a0 : ℕ) (a1 : State) (h0 : Keeps s a1) : KeepsO s (execPermuteFlip a0 a1) := by
  delta execPermuteFlip
  refine KeepsO.next ?_
  split
  · assumption
  · refine Keeps.ite ?_ ?_
    · extract_lets v0
      have k1 : Keeps s v0 := by
        unfold v0
        apply timeTo_keeps
        assumption
      clear_value v0
      split
      · apply commitWith_keeps
        · intro y2 y3 y4
          apply collEff_keeps
          assumption
        · assumption
      · assumption
    · assumption

theorem pfResumeEff_keeps {s : State} (a0 : State) (a1 : Cmd) (h0 : Keeps s a0) : Keeps s (pfResumeEff a0 a1) := by
  delta pfResumeEff
  extract_lets v0
  clear_value v0
  split
  · refine Keeps.ite ?_ ?_
    · apply putPf_keeps
      assumption
    · assumption
  · assumption

theorem execPfResume_keeps {s : State} (a0 : ℕ) (a1 : State) (h0 : Keeps s a1) : KeepsO s (execPfResume a0 a1) := by
  delta execPfResume
  apply runOp_keeps
  · intro y0 y1 y2
    apply pfResumeEff_keeps
    assumption
  · assumption

theorem pfStartEff_keeps {s : State} (a0 : State) (a1 : Cmd) (h0 : Keeps s a0) : Keeps s (pfStartEff a0 a1) := by
  delta pfStartEff
  split
  · extract_lets v0
    have k1 : Keeps s v0 := by
      unfold v0
      apply putPf_keeps
      assumption
    clear_value v0
    refine Keeps.set ?_
    assumption
  · assumption

theorem execPfStart_keeps {s : State} (a0 : ℕ) (a1 : State) (h0 : Keeps s a1) : KeepsO s (execPfStart a0 a1) := by
  delta execPfStart
  apply runOp_keeps
  · intro y0 y1 y2
    apply pfStartEff_keeps
    assumption
  · assumption

theorem pfStopEff_keeps {s : State} (a0 : State) (a1 : Cmd) (h0 : Keeps s a0) : Keeps s (pfStopEff a0 a1) := by
  delta pfStopEff
  extract_lets v0
  clear_value v0
  split
  · refine Keeps.ite ?_ ?_
    · apply putPf_keeps
      assumption
    · assumption
  · assumption

theorem execPfStop_keeps {s : State} (a0 : ℕ) (a1 : State) (h0 : Keeps s a1) : KeepsO s (execPfStop a0 a1) := by
  delta execPfStop
  apply runOp_keeps
  · intro y0 y1 y2
    apply pfStopEff_keeps
    assumption
  · assumption

theorem execPortRetrain_keeps {s : State} (a0 : ℕ) (a1 : State) (h0 : Keeps s a1) : KeepsO s (execPortRetrain a0 a1) := by
  delta execPortRetrain
  refine KeepsO.next ?_
  extract_lets v0
  clear_value v0
  refine Keeps.ite ?_ ?_
  · apply trainPort_keeps
    assumption
  · assumption

theorem trained_keeps {s : State} (a0 : State) (a1 : ℕ) (a2 : ℕ) (a3 : ℕ) (h0 : Keeps s a0) : Keeps s (trained a0 a1 a2 a3) := by
  delta trained
  extract_lets v0 v1 v2
  clear_value v0 v1 v2
  apply setPort_keeps
  assumption

theorem execPortTrainingDone_keeps {s : State} (a0 : ℕ) (a1 : ℕ) (a2 : ℕ) (a3 : State) (h0 : Keeps s a3) : KeepsO s (execPortTrainingDone a0 a1 a2 a3) := by
  delta execPortTrainingDone
  refine KeepsO.next ?_
  extract_lets v0 v1 v2 v3 v4 v5
  clear_value v0
  have k6 : Keeps s v1 := by
    unfold v1
    apply trained_keeps
    assumption
  clear_value v1
  clear_value v2
  have k7 : Keeps s v3 := by
    unfold v3
    split
    · apply endTest_keeps
      assumption
    · assumption
  clear_value v3
  have k8 : Keeps s v4 := by
    unfold v4
    refine Keeps.ite ?_ ?_
    · apply releaseAll_keeps
      apply sendDom_keeps
      assumption
    · assumption
  clear_value v4
  clear_value v5
  refine Keeps.ite ?_ ?_
  · assumption
  · refine Keeps.ite ?_ ?_
    · apply tryReady_keeps
      refine Keeps.set ?_
      assumption
    · assumption

theorem drainOne_keeps {s : State} (a0 : State) (a1 : PoundGran) (h0 : Keeps s a0) : Keeps s (drainOne a0 a1) := by
  delta drainOne
  split
  · apply memError_keeps
    assumption
  · assumption

theorem execPoundDrain_keeps {s : State} (a0 : ℕ) (a1 : State) (h0 : Keeps s a1) : KeepsO s (execPoundDrain a0 a1) := by
  delta execPoundDrain
  refine KeepsO.next ?_
  extract_lets v0 v1 v2
  clear_value v0
  have k3 : Keeps s v1 := by
    unfold v1
    refine Keeps.set ?_
    assumption
  clear_value v1
  have k4 : Keeps s v2 := by
    unfold v2
    refine Keeps.foldl _ ?_ (fun t5 b5 h5 => ?_)
    · assumption
    · apply drainOne_keeps
      assumption
  clear_value v2
  apply admitStaged_keeps
  refine Keeps.ite ?_ ?_
  · assumption
  · apply count_keeps
    assumption

theorem execPowerChangeRetry_keeps {s : State} (a0 : State) (h0 : Keeps s a0) : KeepsO s (execPowerChangeRetry a0) := by
  delta execPowerChangeRetry
  refine KeepsO.next ?_
  split
  · assumption
  · refine Keeps.ite ?_ ?_
    · assumption
    · extract_lets v0 v1
      clear_value v0
      have k2 : Keeps s v1 := by
        unfold v1
        refine Keeps.set ?_
        assumption
      clear_value v1
      refine Keeps.ite ?_ ?_
      · apply autoChange_keeps
        assumption
      · assumption

theorem execPowerGood_keeps {s : State} (a0 : State) (h0 : Keeps s a0) : KeepsO s (execPowerGood a0) := by
  delta execPowerGood
  refine KeepsO.next ?_
  refine Keeps.ite ?_ ?_
  · apply sampleStraps_keeps
    apply freshBoot_keeps
    assumption
  · assumption

theorem suspendOn_keeps {s : State} (a0 : State) (a1 : ℕ) (a2 : ℕ) (a3 : ℕ) (h0 : Keeps s a0) : Keeps s (suspendOn a0 a1 a2 a3) := by
  delta suspendOn
  extract_lets v0 v1
  have k2 : Keeps s v0 := by
    unfold v0
    refine Keeps.set ?_
    assumption
  clear_value v0
  have k3 : Keeps s v1 := by
    unfold v1
    apply killAll_keeps
    assumption
  clear_value v1
  apply count_keeps
  assumption

theorem yieldLoop_keeps {s : State} (a0 : Nat) (a1 : Cmd) (a2 : Nat) (a3 : State) (h0 : Keeps s a3) : Keeps s (yieldLoop a0 a1 a2 a3) := by
  induction a2 generalizing a3 with
  | zero => exact h0
  | succ n ih =>
    rw [yieldLoop]
    refine Keeps.ite ?_ h0
    split
    · exact h0
    · exact ih _ (suspendOn_keeps _ _ _ _ h0)

theorem replace_keeps {s : State} (a0 : State) (a1 : ℕ) (a2 : Cmd) (h0 : Keeps s a0) : Keeps s (replace a0 a1 a2) := by
  delta replace
  extract_lets v0
  have k1 : Keeps s v0 := by
    unfold v0
    apply putCmd_keeps
    assumption
  clear_value v0
  split
  · apply putCmd_keeps
    assumption
  · assumption

theorem execPreemption_keeps {s : State} (a0 : ℕ) (a1 : State) (h0 : Keeps s a1) : KeepsO s (execPreemption a0 a1) := by
  delta execPreemption
  refine KeepsO.next ?_
  split
  · assumption
  · extract_lets v0 v1 v2
    clear_value v0
    have k3 : Keeps s v1 := by
      unfold v1
      apply yieldLoop_keeps
      assumption
    clear_value v1
    have k4 : Keeps s v2 := by
      unfold v2
      refine Keeps.ite ?_ ?_
      · assumption
      · refine Keeps.foldl _ ?_ (fun t5 b5 h5 => ?_)
        · assumption
        · split
          · apply replace_keeps
            assumption
          · assumption
    clear_value v2
    apply debtPass_keeps
    apply fillBasin_keeps
    assumption

theorem promoSignal_keeps {s : State} (a0 : State) (a1 : ℕ) (h0 : Keeps s a0) : Keeps s (promoSignal a0 a1) := by
  delta promoSignal
  split
  · apply signalLock_keeps
    assumption
  · assumption

theorem stampObj_keeps {s : State} (a0 : State) (a1 : ℕ) (h0 : Keeps s a0) : Keeps s (stampObj a0 a1) := by
  delta stampObj
  split
  · assumption
  · apply putObj_keeps
    assumption

theorem prefetchFin_keeps {s : State} (a0 : State) (a1 : Cmd) (h0 : Keeps s a0) : Keeps s (prefetchFin a0 a1) := by
  delta prefetchFin
  split
  · apply commitWith_keeps
    · intro y0 y1 y2
      apply arrive_keeps
      apply promoSignal_keeps
      apply stampObj_keeps
      assumption
    · assumption
  · assumption

theorem execPrefetchIssue_keeps {s : State} (a0 : ℕ) (a1 : State) (h0 : Keeps s a1) : KeepsO s (execPrefetchIssue a0 a1) := by
  delta execPrefetchIssue
  refine KeepsO.next ?_
  split
  · assumption
  · split
    · assumption
    · extract_lets v0 v1 v2 v3 v4 v5 v6 v7 v8 v9 v10
      clear_value v0 v1 v3
      have k11 : Keeps s v4 := by
        unfold v4
        apply putPf_keeps
        assumption
      clear_value v4
      clear_value v5
      have k12 : Keeps s v6 := by
        unfold v6
        apply count_keeps
        assumption
      clear_value v6
      clear_value v7 v8 v9
      have k13 : Keeps s v10 := by
        unfold v10
        apply beginPrefetch_keeps
        apply issueOwn_keeps
        assumption
      clear_value v10
      refine Keeps.ite ?_ ?_
      · assumption
      · split
        · refine Keeps.ite ?_ ?_
          · apply prefetchFin_keeps
            assumption
          · assumption
        · assumption

theorem execPrivMap_keeps {s : State} (a0 : List Byte) (a1 : State) (h0 : Keeps s a1) : KeepsO s (execPrivMap a0 a1) := by
  delta execPrivMap
  apply withSes_keeps
  · intro y0 y1 y2 y3
    refine Keeps.ite ?_ ?_
    · refine Keeps.ite ?_ ?_
      · apply reply_keeps
        assumption
      · split
        · refine Keeps.ite ?_ ?_
          · apply reply_keeps
            assumption
          · apply reply_keeps
            assumption
        · apply reply_keeps
          refine Keeps.set ?_
          assumption
    · apply reply_keeps
      refine Keeps.ite ?_ ?_
      · refine Keeps.set ?_
        assumption
      · assumption
  · assumption

theorem commitWb_keeps {s : State} (a0 : State) (a1 : ℕ) (a2 : ℕ) (h0 : Keeps s a0) : Keeps s (commitWb a0 a1 a2) := by
  delta commitWb
  split
  · assumption
  · extract_lets v0 v1 v2 v3 v4 v5 v6
    clear_value v0
    have k7 : Keeps s v1 := by
      unfold v1
      apply count_keeps
      assumption
    clear_value v1
    have k8 : Keeps s v2 := by
      unfold v2
      apply poundPublish_keeps
      apply publishWrites_keeps
      assumption
    clear_value v2
    have k9 : Keeps s v3 := by
      unfold v3
      split
      · apply sendWb_keeps
        assumption
      · assumption
    clear_value v3
    clear_value v4
    have k10 : Keeps s v5 := by
      unfold v5
      refine Keeps.ite ?_ ?_
      · apply putObj_keeps
        assumption
      · assumption
    clear_value v5
    have k11 : Keeps s v6 := by
      unfold v6
      apply clearCopy_keeps
      assumption
    clear_value v6
    split
    · assumption
    · refine Keeps.ite ?_ ?_
      · apply removeCopy_keeps
        assumption
      · assumption

theorem pushWb_keeps {s : State} (a0 : State) (a1 : ℕ) (a2 : ℕ) (h0 : Keeps s a0) : Keeps s (pushWb a0 a1 a2) := by
  delta pushWb
  split
  · assumption
  · split
    · assumption
    · refine Keeps.ite ?_ ?_
      · apply killWb_keeps
        assumption
      · refine Keeps.ite ?_ ?_
        · apply stageWb_keeps
          assumption
        · refine Keeps.ite ?_ ?_
          · assumption
          · apply commitWb_keeps
            assumption

theorem pushWbs_keeps {s : State} (a0 : State) (a1 : List ℕ) (h0 : Keeps s a0) : Keeps s (pushWbs a0 a1) := by
  delta pushWbs
  refine Keeps.foldl _ ?_ (fun t0 b0 h0 => ?_)
  · assumption
  · apply pushWb_keeps
    apply pushWb_keeps
    assumption

theorem seekPlace_keeps {s : State} (a0 : State) (a1 : ℕ) (a2 : ℕ) (a3 : ℕ) (h0 : Keeps s a0) : Keeps s (seekPlace a0 a1 a2 a3) := by
  delta seekPlace
  split
  · assumption
  · apply placePromotion_keeps
    apply pushWbs_keeps
    assumption

theorem tryPromotion_keeps {s : State} (a0 : State) (a1 : Cmd) (a2 : State → Cmd → State) (h0 : ∀ y0 y1, Keeps s y0 → Keeps s (a2 y0 y1)) (h1 : Keeps s a0) : Keeps s (tryPromotion a0 a1 a2) := by
  delta tryPromotion
  extract_lets v0 v1 v2
  clear_value v0 v1
  have k3 : Keeps s v2 := by
    unfold v2
    apply seekPlace_keeps
    assumption
  clear_value v2
  split
  · apply endCmd_keeps
    assumption
  · refine Keeps.ite ?_ ?_
    · apply h0
      assumption
    · refine Keeps.ite ?_ ?_
      · refine Keeps.ite ?_ ?_
        · apply startPromotion_keeps
          apply putCmd_keeps
          refine Keeps.set ?_
          assumption
        · assumption
      · split
        · assumption
        · refine Keeps.ite ?_ ?_
          · assumption
          · split
            · apply askReads_keeps
              assumption
            · apply endCmd_keeps
              assumption
            · apply eccEnd_keeps
              assumption
            · apply zipEnd_keeps
              assumption
            · apply h0
              apply endPromotion_keeps
              assumption

theorem execPromotionCommit_keeps {s : State} (a0 : ℕ) (a1 : State) (h0 : Keeps s a1) : KeepsO s (execPromotionCommit a0 a1) := by
  delta execPromotionCommit
  refine KeepsO.next ?_
  split
  · split
    · refine Keeps.ite ?_ ?_
      · apply tryPromotion_keeps
        · intro y0 y1 y2
          apply prefetchFin_keeps
          assumption
        · assumption
      · assumption
    · assumption
  · assumption

theorem execPromotionResume_keeps {s : State} (a0 : ℕ) (a1 : State) (h0 : Keeps s a1) : KeepsO s (execPromotionResume a0 a1) := by
  delta execPromotionResume
  refine KeepsO.next ?_
  split
  · assumption
  · split
    · refine Keeps.ite ?_ ?_
      · refine Keeps.ite ?_ ?_
        · apply beginInit_keeps
          assumption
        · refine Keeps.ite ?_ ?_
          · assumption
          · apply beginPrefetch_keeps
            assumption
      · refine Keeps.ite ?_ ?_
        · apply seekPlace_keeps
          assumption
        · assumption
    · refine Keeps.ite ?_ ?_
      · apply seekPlace_keeps
        assumption
      · assumption

theorem publishHost_keeps {s : State} (a0 : State) (a1 : Cmd) (h0 : Keeps s a0) : Keeps s (publishHost a0 a1) := by
  delta publishHost
  refine Keeps.ite ?_ ?_
  · apply publishWrites_keeps
    assumption
  · assumption

theorem fwFinish_keeps {s : State} (a0 : State) (a1 : Cmd) (h0 : Keeps s a0) : Keeps s (fwFinish a0 a1) := by
  delta fwFinish
  extract_lets v0 v1
  have k2 : Keeps s v0 := by
    unfold v0
    refine Keeps.set ?_
    assumption
  clear_value v0
  have k3 : Keeps s v1 := by
    unfold v1
    refine Keeps.ite ?_ ?_
    · refine Keeps.foldl _ ?_ (fun t4 b4 h4 => ?_)
      · assumption
      · apply fenceDie_keeps
        assumption
    · assumption
  clear_value v1
  apply raiseFor_keeps
  assumption

theorem execPublicationComplete_keeps {s : State} (a0 : ℕ) (a1 : State) (h0 : Keeps s a1) : KeepsO s (execPublicationComplete a0 a1) := by
  delta execPublicationComplete
  refine KeepsO.next ?_
  split
  · assumption
  · refine Keeps.ite ?_ ?_
    · assumption
    · extract_lets v0 v1
      have k2 : Keeps s v0 := by
        unfold v0
        apply publishHost_keeps
        apply applySignal_keeps
        assumption
      clear_value v0
      have k3 : Keeps s v1 := by
        unfold v1
        refine Keeps.ite ?_ ?_
        · apply fwFinish_keeps
          assumption
        · assumption
      clear_value v1
      split
      · assumption
      · apply finishCmd_keeps
        assumption

theorem execPwrCtrl_keeps {s : State} (a0 : Via) (a1 : ℕ) (a2 : State) (h0 : Keeps s a2) : KeepsO s (execPwrCtrl a0 a1 a2) := by
  delta execPwrCtrl
  refine KeepsO.next ?_
  split
  · refine Keeps.ite ?_ ?_
    · apply writePwrCtrl_keeps
      assumption
    · assumption
  · refine Keeps.ite ?_ ?_
    · apply writePwrCtrl_keeps
      assumption
    · assumption
  · assumption

theorem execPwrEnAssert_keeps {s : State} (a0 : State) (h0 : Keeps s a0) : KeepsO s (execPwrEnAssert a0) := by
  delta execPwrEnAssert
  refine KeepsO.next ?_
  extract_lets v0 v1
  clear_value v0 v1
  refine Keeps.set ?_
  assumption

theorem execPwrEnDeassert_keeps {s : State} (a0 : State) (h0 : Keeps s a0) : KeepsO s (execPwrEnDeassert a0) := by
  delta execPwrEnDeassert
  refine KeepsO.next ?_
  apply beginShutdown_keeps
  refine Keeps.set ?_
  assumption

theorem loanDenied_keeps {s : State} (a0 : State) (a1 : MsgHdr) (a2 : ℕ) (h0 : Keeps s a0) : Keeps s (loanDenied a0 a1 a2) := by
  delta loanDenied
  extract_lets v0
  clear_value v0
  apply raise_keeps
  assumption

theorem execReadReq_keeps {s : State} (a0 : MsgHdr) (a1 : ℕ) (a2 : ℕ) (a3 : Bool) (a4 : State) (h0 : Keeps s a4) : KeepsO s (execReadReq a0 a1 a2 a3 a4) := by
  delta execReadReq
  apply receive_keeps
  · intro y0 y1
    split
    · apply answerRead_keeps
      apply loanDenied_keeps
      assumption
    · split
      · apply answerRead_keeps
        apply memError_keeps
        assumption
      · apply answerRead_keeps
        assumption
  · assumption

theorem execReadResp_keeps {s : State} (a0 : MsgHdr) (a1 : ℕ) (a2 : List Byte) (a3 : State) (h0 : Keeps s a3) : KeepsO s (execReadResp a0 a1 a2 a3) := by
  delta execReadResp
  apply receive_keeps
  · intro y0 y1
    refine Keeps.ite ?_ ?_
    · split
      · apply endCmd_keeps
        assumption
      · assumption
    · split
      · apply putCmd_keeps
        assumption
      · assumption
  · assumption

theorem execRecip_keeps {s : State} (a0 : ℕ) (a1 : State) (h0 : Keeps s a1) : KeepsO s (execRecip a0 a1) := by
  delta execRecip
  apply runOp_keeps
  · intro y0 y1 y2
    apply noEffect_keeps
    assumption
  · assumption

theorem execReduceScatter_keeps {s : State} (a0 : ℕ) (a1 : State) (h0 : Keeps s a1) : KeepsO s (execReduceScatter a0 a1) := by
  delta execReduceScatter
  refine KeepsO.next ?_
  apply collRun_keeps
  assumption

theorem execReduceToOwner_keeps {s : State} (a0 : ℕ) (a1 : State) (h0 : Keeps s a1) : KeepsO s (execReduceToOwner a0 a1) := by
  delta execReduceToOwner
  refine KeepsO.next ?_
  apply collRun_keeps
  assumption

theorem outsideMap_keeps {s : State} (a0 : State) (a1 : ℕ) (a2 : Bool) (h0 : Keeps s a0) : Keeps s (outsideMap a0 a1 a2) := by
  delta outsideMap
  apply regAccess_keeps
  assumption

theorem execRegisterReadClear_keeps {s : State} (a0 : Via) (a1 : ℕ) (a2 : ℕ) (a3 : State) (h0 : Keeps s a3) : KeepsO s (execRegisterReadClear a0 a1 a2 a3) := by
  delta execRegisterReadClear
  extract_lets v0 v1
  have k2 : ∀ y0, Keeps s y0.1 → Keeps s (v0 y0) := by
    intro y3 y4
    unfold v0
    extract_lets v5
    have k6 : Keeps s v5 := by
      unfold v5
      assumption
    clear_value v5
    refine Keeps.set ?_
    assumption
  clear_value v0
  have k7 : ∀ y0, Keeps s y0 → Keeps s (v1 y0).1 := by
    intro y8 y9
    unfold v1
    split
    · split
      · dsimp only
        assumption
      · apply busRead_keeps
        assumption
    · dsimp only
      apply outsideMap_keeps
      assumption
  clear_value v1
  refine KeepsO.next ?_
  split
  · refine Keeps.ite ?_ ?_
    · apply k2
      dsimp only
      assumption
    · split
      · apply k2
        dsimp only
        assumption
      · apply k2
        dsimp only
        apply badPage_keeps
        assumption
  · refine Keeps.ite ?_ ?_
    · apply k2
      dsimp only
      assumption
    · apply k2
      apply k7
      assumption
  · refine Keeps.ite ?_ ?_
    · refine Keeps.ite ?_ ?_
      · apply k2
        dsimp only
        assumption
      · refine Keeps.ite ?_ ?_
        · apply k2
          dsimp only
          apply badAccess_keeps
          assumption
        · apply k2
          dsimp only
          refine Keeps.set ?_
          assumption
    · assumption
  · refine Keeps.ite ?_ ?_
    · apply k2
      apply k7
      assumption
    · assumption
  · refine Keeps.ite ?_ ?_
    · assumption
    · refine Keeps.set ?_
      assumption

theorem execStandby_keeps {s : State} (a0 : State) (h0 : Keeps s a0) : KeepsO s (execStandby a0) := by
  delta execStandby
  refine KeepsO.next ?_
  refine Keeps.ite ?_ ?_
  · assumption
  · apply beginShutdown_keeps
    assumption

theorem execRegisterWrite_keeps {s : State} (a0 : Via) (a1 : ℕ) (a2 : ℕ) (a3 : ℕ) (a4 : State) (h0 : Keeps s a4) : KeepsO s (execRegisterWrite a0 a1 a2 a3 a4) := by
  delta execRegisterWrite
  extract_lets v0
  clear_value v0
  split
  · refine KeepsO.next ?_
    refine Keeps.ite ?_ ?_
    · assumption
    · split
      · refine Keeps.ite ?_ ?_
        · apply ringWrite_keeps
          assumption
        · assumption
      · apply badPage_keeps
        assumption
  · refine KeepsO.next ?_
    refine Keeps.ite ?_ ?_
    · assumption
    · split
      · apply busWrite_keeps
        assumption
      · apply outsideMap_keeps
        assumption
  · refine KeepsO.next ?_
    refine Keeps.ite ?_ ?_
    · apply badAccess_keeps
      assumption
    · assumption
  · refine KeepsO.next ?_
    refine Keeps.ite ?_ ?_
    · split
      · apply busWrite_keeps
        assumption
      · apply outsideMap_keeps
        assumption
    · assumption
  · refine KeepsO.ite ?_ ?_
    · refine KeepsO.ite ?_ ?_
      · apply execModuleReset_keeps
        assumption
      · refine KeepsO.ite ?_ ?_
        · apply execStandby_keeps
          assumption
        · refine KeepsO.next ?_
          assumption
    · refine KeepsO.next ?_
      assumption

theorem execResAdd_keeps {s : State} (a0 : ℕ) (a1 : State) (h0 : Keeps s a1) : KeepsO s (execResAdd a0 a1) := by
  delta execResAdd
  apply runOp_keeps
  · intro y0 y1 y2
    apply noEffect_keeps
    assumption
  · assumption

theorem resCreateEff_keeps {s : State} (a0 : State) (a1 : Cmd) (h0 : Keeps s a0) : Keeps s (resCreateEff a0 a1) := by
  delta resCreateEff
  extract_lets v0
  clear_value v0
  apply putObj_keeps
  assumption

theorem execResCreate_keeps {s : State} (a0 : ℕ) (a1 : State) (h0 : Keeps s a1) : KeepsO s (execResCreate a0 a1) := by
  delta execResCreate
  apply runOp_keeps
  · intro y0 y1 y2
    apply resCreateEff_keeps
    assumption
  · assumption

theorem resDestroyEff_keeps {s : State} (a0 : State) (a1 : Cmd) (h0 : Keeps s a0) : Keeps s (resDestroyEff a0 a1) := by
  delta resDestroyEff
  extract_lets v0
  clear_value v0
  split
  · assumption
  · extract_lets v1 v2
    clear_value v1
    have k3 : Keeps s v2 := by
      unfold v2
      apply wrLocal_keeps
      apply wrLocal_keeps
      refine Keeps.set ?_
      assumption
    clear_value v2
    apply syncPool_keeps
    apply syncPool_keeps
    assumption

theorem evictStep_keeps {s : State} (a0 : State) (a1 : ℕ) (a2 : ℕ) (h0 : Keeps s a0) : Keeps s (evictStep a0 a1 a2) := by
  delta evictStep
  split
  · assumption
  · refine Keeps.ite ?_ ?_
    · apply pushWb_keeps
      assumption
    · refine Keeps.ite ?_ ?_
      · apply removeCopy_keeps
        assumption
      · assumption

theorem evictStop_keeps {s t : State} (a0 : State) (a1 : Cmd) (a2 a3 : Nat) (e : evictStop a0 a1 a2 a3 = some t) (h0 : Keeps s a0) : Keeps s t := by
  unfold evictStop at e
  split at e
  · exact nomatch e
  · split at e
    · exact nomatch e
    · split at e
      · exact Option.some.inj e ▸ eccEnd_keeps _ _ _ h0
      · exact Option.some.inj e ▸ endCmd_keeps _ _ _ _ h0
      · exact nomatch e

theorem execResDestroy_keeps {s : State} (a0 : ℕ) (a1 : State) (h0 : Keeps s a1) : KeepsO s (execResDestroy a0 a1) := by
  delta execResDestroy
  split
  · refine KeepsO.next ?_
    assumption
  · extract_lets v0 v1 v2 v3 v4 v5 v6
    clear_value v0 v1 v2 v3
    have k7 : Keeps s v4 := by
      unfold v4
      apply evictStep_keeps
      assumption
    clear_value v4
    have k8 : Keeps s v5 := by
      unfold v5
      refine Keeps.ite ?_ ?_
      · apply evictStep_keeps
        assumption
      · assumption
    clear_value v5
    clear_value v6
    refine KeepsO.ite ?_ ?_
    · refine KeepsO.next ?_
      assumption
    · refine KeepsO.ite ?_ ?_
      · apply runOp_keeps
        · intro y9 y10 y11
          apply resDestroyEff_keeps
          assumption
        · assumption
      · split
        · refine KeepsO.next ?_
          exact evictStop_keeps _ _ _ _ ‹_› (by assumption)
        · apply runOp_keeps
          · intro y12 y13 y14
            apply resDestroyEff_keeps
            assumption
          · assumption

theorem resEvictEff_keeps {s : State} (a0 : State) (a1 : Cmd) (h0 : Keeps s a0) : Keeps s (resEvictEff a0 a1) := by
  delta resEvictEff
  extract_lets v0 v1
  clear_value v0 v1
  split
  · assumption
  · refine Keeps.ite ?_ ?_
    · apply putObj_keeps
      assumption
    · assumption

theorem execResEvict_keeps {s : State} (a0 : ℕ) (a1 : State) (h0 : Keeps s a1) : KeepsO s (execResEvict a0 a1) := by
  delta execResEvict
  split
  · refine KeepsO.next ?_
    assumption
  · extract_lets v0 v1 v2 v3 vt v4 v5
    clear_value v0 v1 v2 v3 vt
    have k6 : Keeps s v4 := by
      unfold v4
      refine Keeps.ite ?_ ?_
      · assumption
      · apply evictStep_keeps
        assumption
    clear_value v4
    clear_value v5
    refine KeepsO.ite ?_ ?_
    · refine KeepsO.next ?_
      assumption
    · split
      · refine KeepsO.next ?_
        exact evictStop_keeps _ _ _ _ (of_ite_some ‹_›) (by assumption)
      · apply runOp_keeps
        · intro y7 y8 y9
          apply resEvictEff_keeps
          assumption
        · assumption

theorem resPinEff_keeps {s : State} (a0 : State) (a1 : Cmd) (h0 : Keeps s a0) : Keeps s (resPinEff a0 a1) := by
  delta resPinEff
  extract_lets v0 v1 v2
  clear_value v0 v1
  have k3 : Keeps s v2 := by
    unfold v2
    apply killWb_keeps
    assumption
  clear_value v2
  split
  · assumption
  · split
    · assumption
    · apply putObj_keeps
      assumption

theorem execResPin_keeps {s : State} (a0 : ℕ) (a1 : State) (h0 : Keeps s a1) : KeepsO s (execResPin a0 a1) := by
  delta execResPin
  apply runOp_keeps
  · intro y0 y1 y2
    apply resPinEff_keeps
    assumption
  · assumption

theorem poolInitEff_keeps {s : State} (a0 : State) (a1 : Cmd) (h0 : Keeps s a0) : Keeps s (poolInitEff a0 a1) := by
  delta poolInitEff
  extract_lets v0 v1
  clear_value v0 v1
  apply syncPool_keeps
  refine Keeps.set ?_
  assumption

theorem execResPoolInit_keeps {s : State} (a0 : ℕ) (a1 : State) (h0 : Keeps s a1) : KeepsO s (execResPoolInit a0 a1) := by
  delta execResPoolInit
  apply runOp_keeps
  · intro y0 y1 y2
    apply poolInitEff_keeps
    assumption
  · assumption

theorem promoteFin_keeps {s : State} (a0 : State) (a1 : Cmd) (h0 : Keeps s a0) : Keeps s (promoteFin a0 a1) := by
  delta promoteFin
  apply commitWith_keeps
  · intro y0 y1 y2
    apply promoSignal_keeps
    apply stampObj_keeps
    assumption
  · assumption

theorem execResPromote_keeps {s : State} (a0 : ℕ) (a1 : State) (h0 : Keeps s a1) : KeepsO s (execResPromote a0 a1) := by
  delta execResPromote
  refine KeepsO.next ?_
  split
  · refine Keeps.ite ?_ ?_
    · apply tryPromotion_keeps
      · intro y0 y1 y2
        apply promoteFin_keeps
        assumption
      · assumption
    · assumption
  · assumption

theorem resUnpinEff_keeps {s : State} (a0 : State) (a1 : Cmd) (h0 : Keeps s a0) : Keeps s (resUnpinEff a0 a1) := by
  delta resUnpinEff
  extract_lets v0 v1
  clear_value v0 v1
  split
  · assumption
  · extract_lets v2 v3 v4
    clear_value v2 v3
    have k5 : Keeps s v4 := by
      unfold v4
      apply putObj_keeps
      assumption
    clear_value v4
    refine Keeps.ite ?_ ?_
    · apply removeCopy_keeps
      assumption
    · assumption

theorem execResUnpin_keeps {s : State} (a0 : ℕ) (a1 : State) (h0 : Keeps s a1) : KeepsO s (execResUnpin a0 a1) := by
  delta execResUnpin
  apply runOp_keeps
  · intro y0 y1 y2
    apply resUnpinEff_keeps
    assumption
  · assumption

theorem execRingBind_keeps {s : State} (a0 : List Byte) (a1 : State) (h0 : Keeps s a1) : KeepsO s (execRingBind a0 a1) := by
  delta execRingBind
  apply withSes_keeps
  · intro y0 y1 y2 y3
    extract_lets v4 v5 v6
    clear_value v4 v5 v6
    refine Keeps.ite ?_ ?_
    · apply reply_keeps
      assumption
    · apply reply_keeps
      apply setRing_keeps
      assumption
  · assumption

theorem execRingCfg_keeps {s : State} (a0 : Via) (a1 : ℕ) (a2 : ℕ) (a3 : State) (h0 : Keeps s a3) : KeepsO s (execRingCfg a0 a1 a2 a3) := by
  delta execRingCfg
  refine KeepsO.next ?_
  refine Keeps.ite ?_ ?_
  · apply writeRingCfg_keeps
    assumption
  · split
    · apply badPage_keeps
      assumption
    · assumption

theorem execRingFetch_keeps {s : State} (a0 : ℕ) (a1 : State) (h0 : Keeps s a1) : KeepsO s (execRingFetch a0 a1) := by
  delta execRingFetch
  refine KeepsO.next ?_
  extract_lets v0 v1
  clear_value v0
  have k2 : Keeps s v1 := by
    unfold v1
    apply setRing_keeps
    assumption
  clear_value v1
  refine Keeps.ite ?_ ?_
  · assumption
  · refine Keeps.ite ?_ ?_
    · assumption
    · split
      · apply ringFault_keeps
        assumption
      · apply raiseFor_keeps
        apply ringFault_keeps
        assumption
      · extract_lets v3 v4
        clear_value v3 v4
        refine Keeps.ite ?_ ?_
        · apply endCmd_keeps
          refine Keeps.setId ?_ (Nat.le_succ _)
          assumption
        · apply acceptCmd_keeps
          assumption

theorem execRingTail_keeps {s : State} (a0 : Via) (a1 : ℕ) (a2 : ℕ) (a3 : State) (h0 : Keeps s a3) : KeepsO s (execRingTail a0 a1 a2 a3) := by
  delta execRingTail
  refine KeepsO.next ?_
  refine Keeps.ite ?_ ?_
  · apply writeRingTail_keeps
    assumption
  · split
    · apply badPage_keeps
      assumption
    · assumption

theorem execRingUnbind_keeps {s : State} (a0 : List Byte) (a1 : State) (h0 : Keeps s a1) : KeepsO s (execRingUnbind a0 a1) := by
  delta execRingUnbind
  apply withSes_keeps
  · intro y0 y1 y2 y3
    extract_lets v4 v5 v6
    clear_value v4 v5
    have k7 : Keeps s v6 := by
      unfold v6
      apply dropRingBufs_keeps
      apply setRing_keeps
      assumption
    clear_value v6
    refine Keeps.ite ?_ ?_
    · apply reply_keeps
      assumption
    · refine Keeps.ite ?_ ?_
      · apply reply_keeps
        assumption
      · apply endUnbind_keeps
        apply reply_keeps
        assumption
  · assumption

theorem execRootChol_keeps {s : State} (a0 : ℕ) (a1 : State) (h0 : Keeps s a1) : KeepsO s (execRootChol a0 a1) := by
  delta execRootChol
  apply runProblems_keeps
  · intro y0 y1 y2
    apply rootEff_keeps
    assumption
  · assumption

theorem execRootDeadline_keeps {s : State} (a0 : ℕ) (a1 : ℕ) (a2 : ℕ) (a3 : Bool) (a4 : State) (h0 : Keeps s a4) : KeepsO s (execRootDeadline a0 a1 a2 a3 a4) := by
  delta execRootDeadline
  split
  · refine KeepsO.next ?_
    assumption
  · split
    · refine KeepsO.next ?_
      assumption
    · refine KeepsO.ite ?_ ?_
      · extract_lets v0
        have k1 : Keeps s v0 := by
          unfold v0
          apply timeTo_keeps
          assumption
        clear_value v0
        apply runProblems_keeps
        · intro y2 y3 y4
          apply rootEff_keeps
          assumption
        · assumption
      · refine KeepsO.next ?_
        assumption

theorem execRootNewton_keeps {s : State} (a0 : ℕ) (a1 : State) (h0 : Keeps s a1) : KeepsO s (execRootNewton a0 a1) := by
  delta execRootNewton
  apply runProblems_keeps
  · intro y0 y1 y2
    apply rootEff_keeps
    assumption
  · assumption

theorem execRsqrt_keeps {s : State} (a0 : ℕ) (a1 : State) (h0 : Keeps s a1) : KeepsO s (execRsqrt a0 a1) := by
  delta execRsqrt
  apply runOp_keeps
  · intro y0 y1 y2
    apply noEffect_keeps
    assumption
  · assumption

theorem execSamplePreload_keeps {s : State} (a0 : State) (h0 : Keeps s a0) : KeepsO s (execSamplePreload a0) := by
  delta execSamplePreload
  refine KeepsO.next ?_
  apply scanBoundary_keeps
  assumption

theorem schedEff_keeps {s : State} (a0 : State) (a1 : Cmd) (h0 : Keeps s a0) : Keeps s (schedEff a0 a1) := by
  delta schedEff
  extract_lets v0 v1 v2 v3
  clear_value v0 v1 v2 v3
  refine Keeps.set ?_
  assumption

theorem execSchedLoad_keeps {s : State} (a0 : ℕ) (a1 : State) (h0 : Keeps s a1) : KeepsO s (execSchedLoad a0 a1) := by
  delta execSchedLoad
  apply runOp_keeps
  · intro y0 y1 y2
    apply schedEff_keeps
    assumption
  · assumption

theorem execScrubRead_keeps {s : State} (a0 : ℕ) (a1 : ScrubFinding) (a2 : State) (h0 : Keeps s a2) : KeepsO s (execScrubRead a0 a1 a2) := by
  delta execScrubRead
  refine KeepsO.next ?_
  extract_lets v0 v1 v2 v3
  clear_value v0 v1 v2
  have k4 : Keeps s v3 := by
    unfold v3
    refine Keeps.set ?_
    assumption
  clear_value v3
  refine Keeps.ite ?_ ?_
  · assumption
  · split
    · assumption
    · apply correctedError_keeps
      apply fire_keeps
      assumption
    · apply retire_keeps
      apply memError_keeps
      apply fire_keeps
      assumption

theorem execSelfTestDone_keeps {s : State} (a0 : List HwUnit) (a1 : State) (h0 : Keeps s a1) : KeepsO s (execSelfTestDone a0 a1) := by
  delta execSelfTestDone
  refine KeepsO.next ?_
  refine Keeps.ite ?_ ?_
  · assumption
  · extract_lets v0 v1
    have k2 : Keeps s v0 := by
      unfold v0
      refine Keeps.foldl _ ?_ (fun t3 b3 h3 => ?_)
      · assumption
      · split
        · apply fenceDie_keeps
          assumption
        · apply fenceUnit_keeps
          assumption
    clear_value v0
    clear_value v1
    refine Keeps.ite ?_ ?_
    · assumption
    · apply setPhase_keeps
      refine Keeps.set ?_
      assumption

theorem execSesClose_keeps {s : State} (a0 : List Byte) (a1 : State) (h0 : Keeps s a1) : KeepsO s (execSesClose a0 a1) := by
  delta execSesClose
  apply withSes_keeps
  · intro y0 y1 y2 y3
    apply reply_keeps
    apply endSession_keeps
    assumption
  · assumption

theorem execSesExport_keeps {s : State} (a0 : List Byte) (a1 : State) (h0 : Keeps s a1) : KeepsO s (execSesExport a0 a1) := by
  delta execSesExport
  apply withSes_keeps
  · intro y0 y1 y2 y3
    refine Keeps.ite ?_ ?_
    · apply reply_keeps
      assumption
    · apply reply_keeps
      assumption
  · assumption

theorem finish_keeps {s : State} (a0 : State) (a1 : List Byte) (a2 : Bool) (a3 : ℕ) (h0 : Keeps s a0) : Keeps s (finish a0 a1 a2 a3) := by
  delta finish
  extract_lets v0 v1 v2 v3 v4
  clear_value v0 v1
  have k5 : Keeps s v2 := by
    unfold v2
    apply clearFail_keeps
    assumption
  clear_value v2
  have k6 : Keeps s v3 := by
    unfold v3
    apply setCounts_keeps
    assumption
  clear_value v3
  have k7 : Keeps s v4 := by
    unfold v4
    refine Keeps.set ?_
    assumption
  clear_value v4
  refine Keeps.ite ?_ ?_
  · apply reply_keeps
    assumption
  · refine Keeps.ite ?_ ?_
    · apply reply_keeps
      apply setSes_keeps
      assumption
    · apply reply_keeps
      apply countFail_keeps
      apply setSes_keeps
      assumption

theorem execSesPakeFinish_keeps {s : State} (a0 : List Byte) (a1 : State) (h0 : Keeps s a1) : KeepsO s (execSesPakeFinish a0 a1) := by
  delta execSesPakeFinish
  apply arrives_keeps
  · intro y0 y1
    apply finish_keeps
    assumption
  · assumption

theorem reserve_keeps {s : State} (a0 : State) (a1 : ℕ) (a2 : Credential) (a3 : List Byte) (a4 : List Byte) (a5 : List Byte) (a6 : List Byte) (h0 : Keeps s a0) : Keeps s (reserve a0 a1 a2 a3 a4 a5 a6) := by
  delta reserve
  apply setSes_keeps
  refine Keeps.set ?_
  assumption

theorem execSesPakeStart_keeps {s : State} (a0 : List Byte) (a1 : State) (h0 : Keeps s a1) : KeepsO s (execSesPakeStart a0 a1) := by
  delta execSesPakeStart
  apply arrives_keeps
  · intro y0 y1
    split
    · apply reply_keeps
      assumption
    · extract_lets v2 v3 v4 v5 v6
      clear_value v2 v3 v4 v5 v6
      apply reply_keeps
      apply reserve_keeps
      assumption
  · assumption

theorem execSesPskFinish_keeps {s : State} (a0 : List Byte) (a1 : State) (h0 : Keeps s a1) : KeepsO s (execSesPskFinish a0 a1) := by
  delta execSesPskFinish
  apply arrives_keeps
  · intro y0 y1
    apply finish_keeps
    assumption
  · assumption

theorem execSesPskStart_keeps {s : State} (a0 : List Byte) (a1 : State) (h0 : Keeps s a1) : KeepsO s (execSesPskStart a0 a1) := by
  delta execSesPskStart
  apply arrives_keeps
  · intro y0 y1
    split
    · apply reply_keeps
      assumption
    · extract_lets v2 v3 v4 v5 v6 v7 v8
      clear_value v2 v3 v4 v5 v6 v7 v8
      apply reply_keeps
      apply reserve_keeps
      assumption
  · assumption

theorem execSessionSlotExpiry_keeps {s : State} (a0 : ℕ) (a1 : State) (h0 : Keeps s a1) : KeepsO s (execSessionSlotExpiry a0 a1) := by
  delta execSessionSlotExpiry
  refine KeepsO.next ?_
  refine Keeps.ite ?_ ?_
  · apply setSes_keeps
    apply timeTo_keeps
    assumption
  · assumption

theorem execShardCopy_keeps {s : State} (a0 : ℕ) (a1 : State) (h0 : Keeps s a1) : KeepsO s (execShardCopy a0 a1) := by
  delta execShardCopy
  refine KeepsO.next ?_
  split
  · assumption
  · split
    · split
      · assumption
      · extract_lets v0 v1 v2 v3 v4 v5
        clear_value v0 v1 v2 v3 v4 v5
        split
        · refine Keeps.ite ?_ ?_
          · assumption
          · apply copyDone_keeps
            assumption
        · extract_lets v6 v7 v8
          clear_value v6
          have k9 : ∀ y0 y1, Keeps s y0 → Keeps s (v7 y0 y1) := by
            intro y10 y11 y12
            unfold v7
            refine Keeps.ite ?_ ?_
            · split
              · apply askReads_keeps
                assumption
              · refine Keeps.ite ?_ ?_
                · apply copyDone_keeps
                  assumption
                · split
                  · apply copyDone_keeps
                    assumption
                  · apply stage_keeps
                    · intro y13 y14 y15
                      apply shardCopyEff_keeps
                      assumption
                    · assumption
            · apply stage_keeps
              · intro y16 y17 y18
                apply shardCopyEff_keeps
                assumption
              · assumption
          clear_value v7
          clear_value v8
          refine Keeps.ite ?_ ?_
          · apply k9
            assumption
          · refine Keeps.ite ?_ ?_
            · assumption
            · refine Keeps.ite ?_ ?_
              · apply copyDone_keeps
                assumption
              · refine Keeps.ite ?_ ?_
                · apply copyDone_keeps
                  assumption
                · refine Keeps.ite ?_ ?_
                  · apply copyDone_keeps
                    assumption
                  · split
                    · apply copyDone_keeps
                      apply memError_keeps
                      assumption
                    · split
                      · assumption
                      · refine Keeps.ite ?_ ?_
                        · assumption
                        · extract_lets v19
                          clear_value v19
                          apply k9
                          apply putCmd_keeps
                          assumption
    · assumption

theorem execShardInit_keeps {s : State} (a0 : ℕ) (a1 : State) (h0 : Keeps s a1) : KeepsO s (execShardInit a0 a1) := by
  delta execShardInit
  apply runOp_keeps
  · intro y0 y1 y2
    apply shardEff_keeps
    assumption
  · assumption

theorem execShutdownTimeout_keeps {s : State} (a0 : State) (h0 : Keeps s a0) : KeepsO s (execShutdownTimeout a0) := by
  delta execShutdownTimeout
  refine KeepsO.next ?_
  refine Keeps.ite ?_ h0
  split
  · extract_lets v0
    have k2 : Keeps s v0 := by
      unfold v0
      apply shutDown_keeps
      apply timeTo_keeps
      assumption
    clear_value v0
    exact Keeps.set k2
  · assumption

theorem execSicTake_keeps {s : State} (a0 : ℕ) (a1 : ℕ) (a2 : ℕ) (a3 : Bool) (a4 : State) (h0 : Keeps s a4) : KeepsO s (execSicTake a0 a1 a2 a3 a4) := by
  delta execSicTake
  refine KeepsO.next ?_
  refine Keeps.ite ?_ ?_
  · apply setSic_keeps
    assumption
  · assumption

theorem execSigmoid_keeps {s : State} (a0 : ℕ) (a1 : State) (h0 : Keeps s a1) : KeepsO s (execSigmoid a0 a1) := by
  delta execSigmoid
  apply runOp_keeps
  · intro y0 y1 y2
    apply noEffect_keeps
    assumption
  · assumption

theorem execSnoop_keeps {s : State} (a0 : ℕ) (a1 : State) (h0 : Keeps s a1) : KeepsO s (execSnoop a0 a1) := by
  delta execSnoop
  refine KeepsO.next ?_
  refine Keeps.ite ?_ ?_
  · refine Keeps.set ?_
    assumption
  · assumption

theorem execSoftmaxRows_keeps {s : State} (a0 : ℕ) (a1 : State) (h0 : Keeps s a1) : KeepsO s (execSoftmaxRows a0 a1) := by
  delta execSoftmaxRows
  apply runOp_keeps
  · intro y0 y1 y2
    apply noEffect_keeps
    assumption
  · assumption

theorem execSolveBicgstab_keeps {s : State} (a0 : ℕ) (a1 : State) (h0 : Keeps s a1) : KeepsO s (execSolveBicgstab a0 a1) := by
  delta execSolveBicgstab
  apply runProblems_keeps
  · intro y0 y1 y2
    apply noEffect_keeps
    assumption
  · assumption

theorem execSolveCg_keeps {s : State} (a0 : ℕ) (a1 : State) (h0 : Keeps s a1) : KeepsO s (execSolveCg a0 a1) := by
  delta execSolveCg
  apply runProblems_keeps
  · intro y0 y1 y2
    apply noEffect_keeps
    assumption
  · assumption

theorem execSolveDeadline_keeps {s : State} (a0 : ℕ) (a1 : ℕ) (a2 : ℕ) (a3 : Bool) (a4 : State) (h0 : Keeps s a4) : KeepsO s (execSolveDeadline a0 a1 a2 a3 a4) := by
  delta execSolveDeadline
  split
  · refine KeepsO.next ?_
    assumption
  · extract_lets v0 v1
    clear_value v0
    have k2 : Keeps s v1 := by
      unfold v1
      apply timeTo_keeps
      assumption
    clear_value v1
    refine KeepsO.ite ?_ ?_
    · apply runProblems_keeps
      · intro y3 y4 y5
        apply noEffect_keeps
        assumption
      · assumption
    · refine KeepsO.next ?_
      assumption

theorem execSolvePcg_keeps {s : State} (a0 : ℕ) (a1 : State) (h0 : Keeps s a1) : KeepsO s (execSolvePcg a0 a1) := by
  delta execSolvePcg
  apply runProblems_keeps
  · intro y0 y1 y2
    apply noEffect_keeps
    assumption
  · assumption

theorem execSourceFire_keeps {s : State} (a0 : ℕ) (a1 : ℕ) (a2 : State) (h0 : Keeps s a2) : KeepsO s (execSourceFire a0 a1 a2) := by
  delta execSourceFire
  refine KeepsO.next ?_
  apply fire_keeps
  assumption

theorem execSpdmRequest_keeps {s : State} (a0 : List Byte) (a1 : State) (h0 : Keeps s a1) : KeepsO s (execSpdmRequest a0 a1) := by
  delta execSpdmRequest
  refine KeepsO.next ?_
  refine Keeps.ite ?_ ?_
  · refine Keeps.set ?_
    assumption
  · assumption

theorem execSqrt_keeps {s : State} (a0 : ℕ) (a1 : State) (h0 : Keeps s a1) : KeepsO s (execSqrt a0 a1) := by
  delta execSqrt
  apply runOp_keeps
  · intro y0 y1 y2
    apply noEffect_keeps
    assumption
  · assumption

theorem execStage_keeps {s : State} (a0 : MsgHdr) (a1 : ℕ) (a2 : ℕ) (a3 : ℕ) (a4 : ℕ) (a5 : List ModeItem) (a6 : List ℕ) (a7 : State) (h0 : Keeps s a7) : KeepsO s (execStage a0 a1 a2 a3 a4 a5 a6 a7) := by
  delta execStage
  apply receive_keeps
  · intro y0 y1
    extract_lets v2 v3 v4 v5 v6
    clear_value v2 v3 v4 v5 v6
    refine Keeps.ite ?_ ?_
    · assumption
    · refine Keeps.ite ?_ ?_
      · apply stageChange_keeps
        assumption
      · refine Keeps.ite ?_ ?_
        · apply sendDom_keeps
          apply sendDom_keeps
          apply receiveChange_keeps
          assumption
        · assumption
  · assumption

theorem ackWb_keeps {s : State} (a0 : State) (a1 : ℕ) (a2 : ℕ) (a3 : ℕ) (a4 : Bool) (h0 : Keeps s a0) : Keeps s (ackWb a0 a1 a2 a3 a4) := by
  delta ackWb
  split
  · assumption
  · extract_lets v0 v1
    clear_value v0 v1
    split
    · assumption
    · refine Keeps.ite ?_ ?_
      · apply killWb_keeps
        assumption
      · apply pushWb_keeps
        apply putObj_keeps
        assumption

theorem execStagedAck_keeps {s : State} (a0 : MsgHdr) (a1 : State) (h0 : Keeps s a1) : KeepsO s (execStagedAck a0 a1) := by
  delta execStagedAck
  apply receive_keeps
  · intro y0 y1
    split
    · apply ackWb_keeps
      assumption
    · refine Keeps.ite ?_ ?_
      · extract_lets v2 v3
        clear_value v2 v3
        apply endCmd_keeps
        assumption
      · extract_lets v4 v5
        clear_value v4 v5
        apply tryFlip_keeps
        apply putCmd_keeps
        assumption
  · assumption

theorem execStagedModeExpiry_keeps {s : State} (a0 : ℕ) (a1 : State) (h0 : Keeps s a1) : KeepsO s (execStagedModeExpiry a0 a1) := by
  delta execStagedModeExpiry
  refine KeepsO.next ?_
  split
  · assumption
  · refine Keeps.ite ?_ ?_
    · apply dropChange_keeps
      apply timeTo_keeps
      assumption
    · assumption

theorem execStandbyEntered_keeps {s : State} (a0 : State) (h0 : Keeps s a0) : KeepsO s (execStandbyEntered a0) := by
  delta execStandbyEntered
  refine KeepsO.next ?_
  refine Keeps.ite ?_ ?_
  · extract_lets v0 v1 v2
    have k3 : Keeps s v0 := by
      unfold v0
      refine Keeps.ite ?_ ?_
      · apply shutDown_keeps
        assumption
      · assumption
    clear_value v0
    have k4 : Keeps s v1 := by
      unfold v1
      apply railsOff_keeps
      assumption
    clear_value v1
    clear_value v2
    refine Keeps.set ?_
    assumption
  · assumption

theorem execSub_keeps {s : State} (a0 : ℕ) (a1 : State) (h0 : Keeps s a1) : KeepsO s (execSub a0 a1) := by
  delta execSub
  apply runOp_keeps
  · intro y0 y1 y2
    apply noEffect_keeps
    assumption
  · assumption

theorem execSumRows_keeps {s : State} (a0 : ℕ) (a1 : State) (h0 : Keeps s a1) : KeepsO s (execSumRows a0 a1) := by
  delta execSumRows
  apply runOp_keeps
  · intro y0 y1 y2
    apply noEffect_keeps
    assumption
  · assumption

theorem execTanh_keeps {s : State} (a0 : ℕ) (a1 : State) (h0 : Keeps s a1) : KeepsO s (execTanh a0 a1) := by
  delta execTanh
  apply runOp_keeps
  · intro y0 y1 y2
    apply noEffect_keeps
    assumption
  · assumption

theorem execTargetIdle_keeps {s : State} (a0 : ℕ) (a1 : ℕ) (a2 : State) (h0 : Keeps s a2) : KeepsO s (execTargetIdle a0 a1 a2) := by
  delta execTargetIdle
  refine KeepsO.next ?_
  refine Keeps.ite ?_ ?_
  · extract_lets v0 v1 v2 v3
    clear_value v0 v1 v2 v3
    apply setSic_keeps
    assumption
  · assumption

theorem execTemperatureSample_keeps {s : State} (a0 : ℕ) (a1 : Bool) (a2 : ℤ) (a3 : ℕ) (a4 : State) (h0 : Keeps s a4) : KeepsO s (execTemperatureSample a0 a1 a2 a3 a4) := by
  delta execTemperatureSample
  refine KeepsO.next ?_
  refine Keeps.ite ?_ ?_
  · assumption
  · extract_lets v0 v1 v2
    clear_value v0 v1
    have k3 : Keeps s v2 := by
      unfold v2
      refine Keeps.set ?_
      assumption
    clear_value v2
    refine Keeps.ite ?_ ?_
    · assumption
    · refine Keeps.ite ?_ ?_
      · apply fatalStop_keeps
        assumption
      · refine Keeps.ite ?_ ?_
        · apply setHold_keeps
          assumption
        · refine Keeps.ite ?_ ?_
          · apply clearHold_keeps
            assumption
          · assumption

theorem execTestBasin_keeps {s : State} (a0 : ℕ) (a1 : State) (h0 : Keeps s a1) : KeepsO s (execTestBasin a0 a1) := by
  delta execTestBasin
  refine KeepsO.next ?_
  apply testRun_keeps
  assumption

theorem execTestCore_keeps {s : State} (a0 : ℕ) (a1 : State) (h0 : Keeps s a1) : KeepsO s (execTestCore a0 a1) := by
  delta execTestCore
  refine KeepsO.next ?_
  apply testRun_keeps
  assumption

theorem tapReset_keeps {s : State} (a0 : State) (h0 : Keeps s a0) : Keeps s (tapReset a0) := by
  delta tapReset
  refine Keeps.ite ?_ ?_
  · refine Keeps.set ?_
    assumption
  · assumption

theorem execTestLogicReset_keeps {s : State} (a0 : State) (h0 : Keeps s a0) : KeepsO s (execTestLogicReset a0) := by
  delta execTestLogicReset
  refine KeepsO.next ?_
  apply tapReset_keeps
  assumption

theorem execTestMove_keeps {s : State} (a0 : ℕ) (a1 : State) (h0 : Keeps s a1) : KeepsO s (execTestMove a0 a1) := by
  delta execTestMove
  refine KeepsO.next ?_
  apply testRun_keeps
  assumption

theorem execTestResult_keeps {s : State} (a0 : HwUnit) (a1 : TestOutcome) (a2 : State) (h0 : Keeps s a2) : KeepsO s (execTestResult a0 a1 a2) := by
  delta execTestResult
  refine KeepsO.next ?_
  split
  · assumption
  · refine Keeps.ite ?_ ?_
    · assumption
    · split
      · apply releaseAll_keeps
        apply endTest_keeps
        apply trained_keeps
        assumption
      · apply endTest_keeps
        assumption

theorem execTestRoot_keeps {s : State} (a0 : ℕ) (a1 : State) (h0 : Keeps s a1) : KeepsO s (execTestRoot a0 a1) := by
  delta execTestRoot
  refine KeepsO.next ?_
  apply testRun_keeps
  assumption

theorem execTestRotation_keeps {s : State} (a0 : HwUnit) (a1 : State) (h0 : Keeps s a1) : KeepsO s (execTestRotation a0 a1) := by
  delta execTestRotation
  refine KeepsO.next ?_
  split
  · assumption
  · refine Keeps.ite ?_ ?_
    · assumption
    · apply askTest_keeps
      assumption

theorem execTime_keeps {s : State} (a0 : MsgHdr) (a1 : ℕ) (a2 : ℕ) (a3 : ℕ) (a4 : State) (h0 : Keeps s a4) : KeepsO s (execTime a0 a1 a2 a3 a4) := by
  delta execTime
  apply receive_keeps
  · intro y0 y1
    extract_lets v2 v3 v4 v5 v6 v7
    clear_value v2 v3 v4 v5 v6
    have k8 : Keeps s v7 := by
      unfold v7
      apply timeTo_keeps
      assumption
    clear_value v7
    refine Keeps.ite ?_ ?_
    · assumption
    · refine Keeps.set ?_
      assumption
  · assumption

theorem execTimeTimer_keeps {s : State} (a0 : State) (h0 : Keeps s a0) : KeepsO s (execTimeTimer a0) := by
  delta execTimeTimer
  refine KeepsO.next ?_
  refine Keeps.ite ?_ ?_
  · refine Keeps.foldl _ ?_ (fun t0 b0 h0 => ?_)
    · assumption
    · apply sendDom_keeps
      assumption
  · assumption

theorem execTimeUnlocked_keeps {s : State} (a0 : State) (h0 : Keeps s a0) : KeepsO s (execTimeUnlocked a0) := by
  delta execTimeUnlocked
  refine KeepsO.next ?_
  refine Keeps.ite ?_ ?_
  · extract_lets v0 v1
    have k2 : Keeps s v0 := by
      unfold v0
      apply timeTo_keeps
      assumption
    clear_value v0
    clear_value v1
    apply raiseMod_keeps
    apply fire_keeps
    refine Keeps.set ?_
    assumption
  · assumption

theorem execTowpathResolved_keeps {s : State} (a0 : State) (h0 : Keeps s a0) : KeepsO s (execTowpathResolved a0) := by
  delta execTowpathResolved
  refine KeepsO.next ?_
  refine Keeps.ite ?_ ?_
  · assumption
  · extract_lets v0 v1
    have k2 : Keeps s v0 := by
      unfold v0
      refine Keeps.foldl _ ?_ (fun t3 b3 h3 => ?_)
      · assumption
      · apply setPort_keeps
        assumption
    clear_value v0
    clear_value v1
    apply tryReady_keeps
    refine Keeps.set ?_
    assumption

theorem execTrstN_keeps {s : State} (a0 : State) (h0 : Keeps s a0) : KeepsO s (execTrstN a0) := by
  delta execTrstN
  refine KeepsO.next ?_
  apply tapReset_keeps
  assumption

theorem execTwatchSetup_keeps {s : State} (a0 : ℕ) (a1 : State) (h0 : Keeps s a1) : KeepsO s (execTwatchSetup a0 a1) := by
  delta execTwatchSetup
  apply runOp_keeps
  · intro y0 y1 y2
    extract_lets v3 v4
    clear_value v3
    have k5 : Keeps s v4 := by
      unfold v4
      refine Keeps.set ?_
      assumption
    clear_value v4
    refine Keeps.ite ?_ ?_
    · apply moduleWrite_keeps
      assumption
    · assumption
  · assumption

theorem execTwatchStop_keeps {s : State} (a0 : ℕ) (a1 : State) (h0 : Keeps s a1) : KeepsO s (execTwatchStop a0 a1) := by
  delta execTwatchStop
  apply runOp_keeps
  · intro y0 y1 y2
    refine Keeps.set ?_
    assumption
  · assumption

theorem execUnitInternalError_keeps {s : State} (a0 : HwUnit) (a1 : State) (h0 : Keeps s a1) : KeepsO s (execUnitInternalError a0 a1) := by
  delta execUnitInternalError
  refine KeepsO.next ?_
  split
  · apply fenceUnit_keeps
    assumption
  · apply fenceUnit_keeps
    assumption
  · apply fenceUnit_keeps
    assumption
  · apply fenceUnit_keeps
    assumption
  · apply fenceDie_keeps
    assumption
  · apply fenceDie_keeps
    assumption
  · apply fenceDie_keeps
    assumption
  · refine Keeps.ite ?_ ?_
    · assumption
    · refine Keeps.ite ?_ ?_
      · apply fenceDie_keeps
        assumption
      · apply fenceDie_keeps
        assumption
  · apply fatalStop_keeps
    assumption
  · apply fatalStop_keeps
    assumption
  · apply fatalStop_keeps
    assumption

theorem execUpdDiag_keeps {s : State} (a0 : ℕ) (a1 : State) (h0 : Keeps s a1) : KeepsO s (execUpdDiag a0 a1) := by
  delta execUpdDiag
  apply runOp_keeps
  · intro y0 y1 y2
    apply updEff_keeps
    assumption
  · assumption

theorem execUpdFirst_keeps {s : State} (a0 : ℕ) (a1 : State) (h0 : Keeps s a1) : KeepsO s (execUpdFirst a0 a1) := by
  delta execUpdFirst
  apply runOp_keeps
  · intro y0 y1 y2
    apply updEff_keeps
    assumption
  · assumption

theorem execUpdPrecond_keeps {s : State} (a0 : ℕ) (a1 : State) (h0 : Keeps s a1) : KeepsO s (execUpdPrecond a0 a1) := by
  delta execUpdPrecond
  apply runOp_keeps
  · intro y0 y1 y2
    apply updEff_keeps
    assumption
  · assumption

theorem execWatchSetup_keeps {s : State} (a0 : ℕ) (a1 : State) (h0 : Keeps s a1) : KeepsO s (execWatchSetup a0 a1) := by
  delta execWatchSetup
  apply runOp_keeps
  · intro y0 y1 y2
    extract_lets v3 v4 v5 v6
    clear_value v3 v4 v5 v6
    refine Keeps.set ?_
    assumption
  · assumption

theorem execWatchStop_keeps {s : State} (a0 : ℕ) (a1 : State) (h0 : Keeps s a1) : KeepsO s (execWatchStop a0 a1) := by
  delta execWatchStop
  apply runOp_keeps
  · intro y0 y1 y2
    refine Keeps.set ?_
    assumption
  · assumption

theorem execWgrad_keeps {s : State} (a0 : ℕ) (a1 : State) (h0 : Keeps s a1) : KeepsO s (execWgrad a0 a1) := by
  delta execWgrad
  apply runOp_keeps
  · intro y0 y1 y2
    apply noEffect_keeps
    assumption
  · assumption

theorem execWgradBlkmask_keeps {s : State} (a0 : ℕ) (a1 : State) (h0 : Keeps s a1) : KeepsO s (execWgradBlkmask a0 a1) := by
  delta execWgradBlkmask
  apply runOp_keeps
  · intro y0 y1 y2
    apply noEffect_keeps
    assumption
  · assumption

theorem execWgradRowmask_keeps {s : State} (a0 : ℕ) (a1 : State) (h0 : Keeps s a1) : KeepsO s (execWgradRowmask a0 a1) := by
  delta execWgradRowmask
  apply runOp_keeps
  · intro y0 y1 y2
    apply noEffect_keeps
    assumption
  · assumption

theorem execWrite_keeps {s : State} (a0 : MsgHdr) (a1 : ℕ) (a2 : List Byte) (a3 : State) (h0 : Keeps s a3) : KeepsO s (execWrite a0 a1 a2 a3) := by
  delta execWrite
  apply receive_keeps
  · intro y0 y1
    extract_lets v2
    clear_value v2
    refine Keeps.ite ?_ ?_
    · apply answerWrite_keeps
      apply loanDenied_keeps
      assumption
    · apply admitStaged_keeps
      refine Keeps.set ?_
      assumption
  · assumption

theorem scratchError_keeps {s : State} (a0 : State) (a1 : ℕ) (a2 : Bool) (h0 : Keeps s a0) : Keeps s (scratchError a0 a1 a2) := by
  delta scratchError
  extract_lets v0 v1
  clear_value v0
  have k2 : Keeps s v1 := by
    unfold v1
    apply setRoot_keeps
    assumption
  clear_value v1
  refine Keeps.ite ?_ ?_
  · refine Keeps.set ?_
    assumption
  · assumption

theorem befall_keeps {s : State} (a0 : State) (h0 : Keeps s a0) : Keeps s (befall a0) := by
  delta befall
  extract_lets v0 v1
  clear_value v0
  have k2 : Keeps s v1 := by
    unfold v1
    refine Keeps.set ?_
    assumption
  clear_value v1
  split
  · refine Keeps.ite ?_ ?_
    · apply correctedError_keeps
      assumption
    · assumption
  · extract_lets v3
    clear_value v3
    refine Keeps.ite ?_ ?_
    · refine Keeps.set ?_
      assumption
    · assumption
  · refine Keeps.ite ?_ ?_
    · apply scratchError_keeps
      assumption
    · assumption
  · assumption

theorem tickCmd_keeps {s : State} (a0 : State) (a1 : Cmd) (h0 : Keeps s a0) : Keeps s (tickCmd a0 a1) := by
  delta tickCmd
  extract_lets v0 v1
  clear_value v0
  have k2 : Keeps s v1 := by
    unfold v1
    refine Keeps.set ?_
    assumption
  clear_value v1
  refine Keeps.ite ?_ ?_
  · apply putCmd_keeps
    assumption
  · refine Keeps.ite ?_ ?_
    · apply putCmd_keeps
      assumption
    · assumption

theorem tickCmds_keeps {s : State} (a0 : State) (h0 : Keeps s a0) : Keeps s (tickCmds a0) := by
  delta tickCmds
  refine Keeps.foldl _ ?_ (fun t0 b0 h0 => ?_)
  · assumption
  · apply tickCmd_keeps
    assumption

theorem boardTick_keeps {s : State} (a0 : State) (h0 : Keeps s a0) : Keeps s (boardTick a0) := by
  delta boardTick
  split
  refine Keeps.set ?_
  assumption

theorem linkTick_keeps {s : State} (a0 : State) (h0 : Keeps s a0) : Keeps s (linkTick a0) := by
  delta linkTick
  extract_lets v0 v1
  clear_value v0
  have k2 : Keeps s v1 := by
    unfold v1
    refine Keeps.set ?_
    assumption
  clear_value v1
  split
  · extract_lets v3
    clear_value v3
    refine Keeps.ite ?_ ?_
    · apply setPort_keeps
      assumption
    · assumption
  · assumption

theorem poundWatch_keeps {s : State} (a0 : State) (a1 : ℕ) (h0 : Keeps s a0) : Keeps s (poundWatch a0 a1) := by
  delta poundWatch
  extract_lets v0 v1 v2 v3 v4
  clear_value v0 v1 v2 v3
  have k2 : Keeps s v4 := by
    unfold v4
    apply setMemRegs_keeps
    assumption
  clear_value v4
  refine Keeps.ite ?_ ?_
  · apply fire_keeps
    assumption
  · assumption

theorem poundWatches_keeps {s : State} (a0 : State) (h0 : Keeps s a0) : Keeps s (poundWatches a0) := by
  delta poundWatches
  refine Keeps.foldl _ ?_ (fun t0 b0 h0 => ?_)
  · assumption
  · apply poundWatch_keeps
    assumption

theorem idleStep_keeps {s : State} (a0 : State) (h0 : Keeps s a0) : Keeps s (idleStep a0) := by
  delta idleStep
  extract_lets v0 v1 v2
  have k3 : Keeps s v0 := by
    unfold v0
    apply boardTick_keeps
    assumption
  clear_value v0
  have k4 : Keeps s v1 := by
    unfold v1
    apply tickCmds_keeps
    apply timeTo_keeps
    assumption
  clear_value v1
  have k5 : Keeps s v2 := by
    unfold v2
    apply linkTick_keeps
    apply fenceFulls_keeps
    apply befall_keeps
    assumption
  clear_value v2
  refine Keeps.ite ?_ ?_
  · apply poundWatches_keeps
    apply releaseAll_keeps
    apply admitStaged_keeps
    apply pushWbs_keeps
    assumption
  · assumption

end Sys2Proof.Machine
end

