-- ==== Sys2Proof/Laws/Startup.lean ====
section
/-! SUPPORT. Start-up: phases, signed objects, fences in turn and READY. -/

namespace Sys2Proof.Machine

theorem setPhase_form {s : State} {p : Nat} (h : s.power.phase ≠ p) : setPhase s p = { s with power := s.power.at p } := by
  unfold setPhase; rw [if_neg h]; rfl

/-- A floor that rises leaves all but the floors (R404). -/
theorem raiseFloorTo_says {s : State} (i v : Nat) (h : ¬ s.power.phase < 7) :
    Carried { s with trust := (raiseFloorTo s i v).trust } (raiseFloorTo s i v) ∧ ∃ r f c, (raiseFloorTo s i v).trust = { s.trust with raises := r, floors := f, cfgFloor := c } := by
  unfold raiseFloorTo
  extract_lets cur t
  split
  · exact ⟨Carried.refl s, _, _, _, rfl⟩
  · split
    · have c := raiseMod_carried s 0xF 0x35 i 0 0 (Carried.refl s)
      rw [c.trust]
      exact ⟨c, _, _, _, rfl⟩
    · refine ⟨Carried.refl _, ?_⟩
      dsimp only
      split
      · exact ⟨_, _, _, rfl⟩
      · exact ⟨_, _, _, rfl⟩

/-- Floors may have risen, and nothing else has changed but that an event told so. -/
def Raised (s t : State) : Prop := Carried { s with trust := t.trust } t ∧ ∃ r f c, t.trust = { s.trust with raises := r, floors := f, cfgFloor := c }

theorem Carried.setTrust {s t : State} (h : Carried s t) (x : Trust) : Carried { s with trust := x } { t with trust := x } :=
  ⟨h.pending, h.time, h.host, h.poundQ, h.remoteSt, h.memRegs, h.cmds, h.nextId, h.serial, h.rings, h.locks, h.jobs, h.ctxs, h.queueRe, h.ended, h.flights, h.fsets, h.shards, h.scheds, h.loans, h.pools, h.objs, h.pfs, h.census, h.watch, h.twatch, h.suspects, h.links, h.roots, h.engines, h.testing, h.testQ, h.changes, h.modEpoch, h.rounds, h.streams, h.sessions, h.counts, h.bufs, h.cxl, h.nextSes, h.dump, h.cfg, h.tap, rfl, h.power, h.dies, h.domain, h.ports⟩

theorem Raised.trans {a b c : State} (h : Raised a b) (g : Raised b c) : Raised a c := by
  obtain ⟨h1, r, f, k, h2⟩ := h
  obtain ⟨g1, r', f', k', g2⟩ := g
  refine ⟨?_, r', f', k', by rw [g2, h2]⟩
  have := h1.setTrust c.trust
  exact this.trans g1

theorem Raised.fold (l : List (Nat × Nat)) {s : State} (h : ¬ s.power.phase < 7) : Raised s (l.foldl (fun s r => raiseFloorTo s r.1 r.2) s) := by
  induction l generalizing s with
  | nil => exact ⟨Carried.refl s, _, _, _, rfl⟩
  | cons a l ih =>
    have r := raiseFloorTo_says a.1 a.2 h
    have hp := congrArg Power.phase r.1.power
    exact Raised.trans r (ih (by rw [show (raiseFloorTo s a.1 a.2).power.phase = s.power.phase from hp]; exact h))

/-- READY (R504). -/
theorem becomeReady_says {s : State} (h : s.power.phase = 6) : Readied s (becomeReady s) := by
  unfold becomeReady
  rw [setPhase_form (by omega)]
  extract_lets s1 x1 p1 s2 me strap keeper own d2 s3 s4 s5 s6 evs p6 s7 s8
  have r : Raised s3 s5 := by
    have a := Raised.fold s3.trust.rfPending (s := s3) (by show ¬ (7 < 7); omega)
    have hp := congrArg Power.phase a.1.power
    exact a.trans (raiseFloorTo_says 4 s4.trust.cfgSeq (by
      rw [show s4.power.phase = s3.power.phase from hp]; show ¬ (7 < 7); omega))
  have c6 : Carried s5 s6 := Carried.foldl _ (Carried.refl _) fun t p g => sendDom_carried _ _ _ _ g
  have c7 : Carried s5 s7 := Carried.setPower c6 rfl
  have c8 : Carried s5 s8 := Carried.foldl _ c7 fun t e g => deliver_carried _ _ _ g
  have c9 : Carried s5 (if s8.dump.parts ≠ 0 then raiseMod s8 0xF 0x34 s8.dump.parts s8.dump.cause 0 else s8) := Carried.ite (raiseMod_carried _ _ _ _ _ _ c8) c8
  generalize (if s8.dump.parts ≠ 0 then raiseMod s8 0xF 0x34 s8.dump.parts s8.dump.cause 0 else s8) = t at c9
  obtain ⟨r1, f, fl, k, r2⟩ := r
  have c := r1.trans c9
  clear_value s8 s7 s6 s5 s4
  refine ⟨c.power, c.cxl, c.domain, ?_, ⟨f, fl, k, c.trust.trans r2⟩⟩
  exact ⟨c.pending, c.time, c.host, c.poundQ, c.remoteSt, c.memRegs, c.cmds, c.nextId, c.serial, c.rings, c.locks, c.jobs, c.ctxs, c.queueRe, c.ended, c.flights, c.fsets, c.shards, c.scheds, c.loans, c.pools, c.objs, c.pfs, c.census, c.watch, c.twatch, c.suspects, c.links, c.roots, c.engines, c.testing, c.testQ, c.changes, c.modEpoch, c.rounds, c.streams, c.sessions, c.counts, c.bufs, rfl, c.nextSes, c.dump, c.cfg, c.tap, rfl, rfl, c.dies, rfl, c.ports⟩

theorem tryReady_not {s : State} (h : s.power.phase ≠ 6 ∨ s.power.initDone = false ∨ s.power.towDone = false) : tryReady s = s := by
  unfold tryReady
  rw [if_neg]
  rintro ⟨h1, h2, h3⟩
  rcases h with h | h | h
  · exact h h1
  · rw [h] at h2; cases h2
  · rw [h] at h3; cases h3

theorem tryReady_says {s : State} (h : s.power.phase = 6) (hi : s.power.initDone = true) (ht : s.power.towDone = true) : Readied s (tryReady s) := by
  unfold tryReady
  rw [if_pos ⟨h, hi, ht⟩]
  exact becomeReady_says h

/-- Which dies are fenced, and whether one is left, after fences (R477, R480). -/
structure Held (s t : State) (p : Nat) : Prop where
  phase : t.power.phase = p ∨ t.power.phase = 0xF ∧ diesUp t = []
  fenced : ∀ d, (getDie s d).fenced = true → (getDie t d).fenced = true

theorem diesUp_none {s t : State} (h : ∀ d, (getDie t d).up = true → (getDie s d).up = true) (e : diesUp s = []) : diesUp t = [] := by
  unfold diesUp at *
  rw [List.filter_eq_nil_iff] at *
  exact fun d hd g => e d hd (h d g)

theorem Fenced.up {s t : State} {d k : Nat} (f : Fenced s t d k) : (∀ e, (getDie t e).up = true → (getDie s e).up = true) ∧ (getDie t d).fenced = true ∧
    ∀ e, (getDie s e).fenced = true → (getDie t e).fenced = true := by
  have h : ∀ e, (getDie t e).kept = (getDie (setDie s d { getDie s d with up := false, fenced := true, cause := k, paused := false }) e).kept := f.rest.dies
  have hu := fun e => congrArg Die.up (h e)
  have hf := fun e => congrArg Die.fenced (h e)
  simp only [Die.kept, getDie_setDie] at hu hf
  refine ⟨fun e g => ?_, ?_, fun e g => ?_⟩
  · rw [hu] at g
    by_cases q : d = e
    · rw [if_pos q] at g; cases g
    · rw [if_neg q] at g; exact g
  · rw [hf, if_pos rfl]
  · rw [hf]
    by_cases q : d = e
    · rw [if_pos q]
    · rw [if_neg q]; exact g

theorem fenceDie_held {s t : State} {p : Nat} (d k : Nat) (h : Held s t p) : Held s (fenceDie t d k) p ∧ (getDie (fenceDie t d k) d).fenced = true := by
  by_cases hf : (getDie t d).fenced = true
  · rw [fenceDie_again k hf]; exact ⟨h, hf⟩
  · have f := fenceDie_says (s := t) k (Bool.eq_false_iff.mpr hf)
    obtain ⟨u1, u2, u3⟩ := f.up
    refine ⟨⟨?_, fun e g => u3 e (h.fenced e g)⟩, u2⟩
    rcases f.alive with a | a
    · have ap : (fenceDie t d k).power.phase = t.power.phase := by have := congrArg Power.phase a; exact this
      rcases h.phase with q | q
      · exact Or.inl (ap.trans q)
      · exact Or.inr ⟨ap.trans q.1, diesUp_none u1 q.2⟩
    · exact Or.inr ⟨a.2.1, a.1⟩

theorem Contained.held {s t u : State} {p : Nat} (h : Held s t p) (c : Contained t u) : Held s u p := by
  have hf := fun e => congrArg Die.fenced (c.dies e)
  have hu := fun e => congrArg Die.up (c.dies e)
  simp only [Die.kept] at hf hu
  have hp : u.power.phase = t.power.phase := by have := congrArg Power.phase c.power; exact this
  refine ⟨?_, fun e g => by rw [hf]; exact h.fenced e g⟩
  rcases h.phase with q | q
  · exact Or.inl (hp.trans q)
  · exact Or.inr ⟨hp.trans q.1, diesUp_none (fun e g => by rw [← hu]; exact g) q.2⟩

theorem held_setDie {s t : State} {p d : Nat} {x : Die} (h : Held s t p) (hf : x.fenced = (getDie t d).fenced) (hu : x.up = (getDie t d).up) : Held s (setDie t d x) p := by
  refine ⟨?_, fun e g => ?_⟩
  · rcases h.phase with q | q
    · exact Or.inl q
    · refine Or.inr ⟨q.1, diesUp_none (fun e g => ?_) q.2⟩
      rw [getDie_setDie] at g
      by_cases z : d = e
      · rw [if_pos z, hu] at g; rw [← z]; exact g
      · rw [if_neg z] at g; exact g
  · rw [getDie_setDie]
    by_cases z : d = e
    · rw [if_pos z, hf, z]; exact h.fenced e g
    · rw [if_neg z]; exact h.fenced e g

theorem fenceUnit_held {s t : State} {p : Nat} (u : HwUnit) (k : Nat) (h : Held s t p) : Held s (fenceUnit t u k) p := by
  unfold fenceUnit
  extract_lets d x c s1 s2 s3 s4
  split
  · exact h
  · have b1 : Held s s1 p := by
      cases u with
      | core k => exact held_setDie h rfl rfl
      | root k => exact held_setDie h rfl rfl
      | move k => exact held_setDie h rfl rfl
      | hamir e k =>
        show Held s (setSic (setDie t d _) d _) p
        have b : Held s (setDie t d { x with hamirOff := setBit x.hamirOff k true }) p := held_setDie h rfl rfl
        exact Contained.held b (setSic_contained _ _ _ (Contained.refl _))
      | basin k => exact h
      | pchan k => exact h
      | port k => exact h
      | shared k => exact h
      | d2d a b => exact h
      | wharf k => exact h
      | mgmt => exact h
    clear_value s1
    have b4 : Held s s4 p := Contained.held b1 (fenceTail s1 u d k)
    clear_value s4
    split
    · exact (fenceDie_held _ _ b4).1
    · exact b4

theorem objAccepted_of {s t : State} (h1 : t.trust.floors = s.trust.floors) (h2 : t.trust.ownerNow = s.trust.ownerNow) (h3 : t.trust.cfgFloor = s.trust.cfgFloor) (o : SignedObj) :
    objAccepted t o = objAccepted s o := by
  unfold objAccepted signerAllowed
  rw [h1, h2, h3]

theorem objAccepted_extendMr (s : State) (i : Nat) (d : List Byte) (o : SignedObj) : objAccepted (extendMr s i d) o = objAccepted s o := objAccepted_of rfl rfl rfl o
theorem objAccepted_booted (s : State) (i : Nat) (f o : SignedObj) : objAccepted (booted s i f) o = objAccepted s o := objAccepted_of rfl rfl rfl o

/-- What a booted firmware and record leave in the trust registers (R404, R405). -/
theorem booted_trust (s : State) (i : Nat) (o : SignedObj) : ∃ sv, (booted s i o) = { s with trust := { s.trust with mrs := measured s.trust.mrs i o.hash, svns := sv, rfPending := s.trust.rfPending ++ (if o.raiseFloor then [(o.kind, o.svn)] else []) } } := by
  unfold booted extendMr measured
  dsimp only
  refine ⟨s.trust.svns.set o.kind o.svn, ?_⟩
  cases o.raiseFloor
  · simp only [Bool.false_eq_true, if_false, List.append_nil]
  · rfl

theorem Held.self {s t : State} {p : Nat} (h : Held s t p) : Held t t p := ⟨h.phase, fun _ g => g⟩

/-- Fences in turn (R475, R505): each of their dies is fenced in the end. -/
theorem fences_held {α : Type} (g : State → α → State) (q : α → Nat → Prop) (p : Nat)
    (hg : ∀ s t a, Held s t p → Held s (g t a) p) (hq : ∀ t a d, Held t t p → q a d → (getDie (g t a) d).fenced = true) (l : List α) {s t : State} (h : Held s t p) :
    Held s (l.foldl g t) p ∧ ∀ a d, a ∈ l → q a d → (getDie (l.foldl g t) d).fenced = true := by
  induction l generalizing s t with
  | nil => exact ⟨h, fun a d m => absurd m (by simp)⟩
  | cons a l ih =>
    obtain ⟨i1, i2⟩ := ih (hg s t a h)
    obtain ⟨i3, -⟩ := ih (hg t t a h.self).self
    refine ⟨i1, fun b d m w => ?_⟩
    rcases List.mem_cons.mp m with rfl | m
    · exact i3.fenced d (hq t b d h.self w)
    · exact i2 b d m w

theorem setDies_form (l : List Nat) (x : Die) (s : State) : ∃ ds, l.foldl (fun s d => setDie s d x) s = { s with dies := ds } ∧ ∀ d, tget Die.rest ds d = if d ∈ l then x else getDie s d := by
  induction l generalizing s with
  | nil => exact ⟨s.dies, rfl, fun d => by simp [getDie]⟩
  | cons a l ih =>
    obtain ⟨ds, e, h⟩ := ih (setDie s a x)
    refine ⟨ds, e, fun d => ?_⟩
    rw [h, getDie_setDie]
    by_cases m : d ∈ l
    · simp [m]
    · by_cases q : a = d
      · simp [m, q]
      · simp [m, q, Ne.symm q]

theorem trainPorts_form (l : List Nat) (s : State) : ∃ ps, l.foldl trainPort s = { s with ports := ps } := by
  induction l generalizing s with
  | nil => exact ⟨_, rfl⟩
  | cons a l ih => exact ih (trainPort s a)

end Sys2Proof.Machine
end

