-- ==== Sys2Proof/Laws/Registers.lean ====
section
/-! SUPPORT. Reads and writes of registers, of rings and through session pages, and the pins and the I3C target (R266, R267, R380, R445, R489, R509). -/

namespace Sys2Proof.Machine

theorem getRing_setRing' (s : State) (r k : Nat) (x : Ring) : getRing (setRing s r x) k = if r = k then x else getRing s k := tget_tset _ r k x

theorem onlyRing_set (s : State) (r : Nat) (x : Ring) : OnlyRing s (setRing s r x) r x :=
  ⟨rfl, by rw [getRing_setRing', if_pos rfl], fun k h => by rw [getRing_setRing', if_neg (Ne.symm h)]⟩

theorem regAccess_told {s : State} (d a : Nat) (x y z : Bool) : Told s (regAccess s d a x y z) := by
  unfold regAccess
  exact raiseMod_told _ _ _ _ _ _ (setDie_told0 _ _ _ (Told.refl s) rfl)

theorem ringFault_says (s : State) (r k : Nat) (y : Ring) : RingFaulted s (ringFault (setRing s r y) r k) r k y := by
  have hg : getRing (setRing s r y) r = y := by rw [getRing_setRing', if_pos rfl]
  have hc : Contained s (ringFault (setRing s r y) r k) := ringFault_contained _ _ _ (Contained.set (Contained.refl s))
  unfold ringFault at hc ⊢
  extract_lets x s1 s2 s3 s4 at hc ⊢
  have hx : x = y := hg
  have r1 : getRing s1 r = { y with fault := setBit y.fault k true, enable := false, active := false } ∧ ∀ i, i ≠ r → getRing s1 i = getRing s i := by
    refine ⟨by unfold s1; rw [getRing_setRing', if_pos rfl, hx], fun i hi => ?_⟩
    unfold s1; rw [getRing_setRing', if_neg (Ne.symm hi), getRing_setRing', if_neg (Ne.symm hi)]
  have t3 : Told s2 s3 := by
    unfold s3; split
    · exact Told.refl _
    · exact fire_told _ _ _ (Told.refl _)
  have h4 : s4.rings = s2.rings ∧ s4.bufs = s2.bufs ∧ s4.cmds = if k = 0 then s.cmds.map (fun c => if c.origin = .ring r then { c with noReply := true } else c) else s.cmds := by
    have hcm : s3.cmds = s.cmds := t3.cmds
    unfold s4
    split
    · exact ⟨t3.rings, t3.bufs, by rw [← hcm]⟩
    · exact ⟨t3.rings, t3.bufs, hcm⟩
  have te : Told s4 (raiseFor s4 0xF 0x1B false (if x.bind < 64 then some x.bind else none) 0xFFFF 0xFFFF 0 (r + (setBit x.fault k true) * 256) 0 0) := raiseFor_told _ _ _ _ _ _ _ _ _ _ _ (Told.refl _)
  clear_value s4
  generalize raiseFor s4 0xF 0x1B false (if x.bind < 64 then some x.bind else none) 0xFFFF 0xFFFF 0 (r + (setBit x.fault k true) * 256) 0 0 = w at *
  have hr : w.rings = s1.rings := te.rings.trans h4.1
  refine ⟨?_, fun i hi => ?_, te.bufs.trans h4.2.1, te.cmds.trans h4.2.2, hc⟩
  · unfold getRing at r1 ⊢; rw [hr]; exact r1.1
  · unfold getRing at r1 ⊢; rw [hr]; exact r1.2 i hi

theorem areas_usable (s : State) (r : Nat) (l : List (Nat × Nat × Bool)) (w : State) (h : ∀ a ∈ l, areaUse w r a = .usable) :
    l.foldl (fun (a : Option State) ar =>
      match a with
      | none => none
      | some s => match areaUse s r ar with
        | .bad => none
        | .usable => some s
        | .register b => some { s with bufs := s.bufs ++ [b] }) (some w) = some w := by
  induction l with
  | nil => rfl
  | cons a l ih =>
    rw [List.foldl_cons]
    simp only [h a (List.mem_cons_self)]
    exact ih fun b hb => h b (List.mem_cons_of_mem _ hb)

theorem areaUse_set (s : State) (r : Nat) (x : Ring) (hb : x.bind = (getRing s r).bind) (a : Nat × Nat × Bool) : areaUse (setRing s r x) r a = areaUse s r a := by
  have hg : (getRing (setRing s r x) r).bind = (getRing s r).bind := by rw [getRing_setRing', if_pos rfl, hb]
  unfold areaUse
  dsimp only
  rw [hg]
  rfl

theorem onlyRing_two (s : State) (r : Nat) (x y : Ring) : OnlyRing s (setRing (setRing s r x) r y) r y :=
  ⟨rfl, by rw [getRing_setRing', if_pos rfl], fun k h => by rw [getRing_setRing', getRing_setRing', if_neg (Ne.symm h), if_neg (Ne.symm h)]⟩

theorem enableRing_says {s : State} {r n : Nat} {q : Bool} (h1 : 6 ≤ n) (h2 : n ≤ 16) (h3 : (getRing s r).bind < 64)
    (h4 : ∀ a ∈ ringAreas (setRing s r { getRing s r with log2 := n, replyIrq := q }) r, areaUse s r a = .usable) :
    OnlyRing s (enableRing s r n q) r
                                        { getRing s r with
                                          log2 := n, replyIrq := q, enable := true, active := true, tail := 0, head := 0, rtail := 0, rhead := 0,
                                          enables := (getRing s r).enables + 1, marks := [] } := by
  unfold enableRing
  extract_lets x s1 res
  rw [if_neg (by rw [show x = getRing s r from rfl]; omega)]
  have : res = some s1 := areas_usable s r _ s1 fun a ha => (areaUse_set s r { getRing s r with log2 := n, replyIrq := q } rfl a).trans (h4 a ha)
  rw [this]
  dsimp only
  have hg : getRing s1 r = { getRing s r with log2 := n, replyIrq := q } := by unfold s1; rw [getRing_setRing', if_pos rfl]
  rw [hg]
  exact onlyRing_two _ _ _ _

theorem ringCfg_eq (via : Via) (r v : Nat) (s : State) (hv : v < 2 ^ 32) : ringWritable s via r = true → exec (.ringCfg via r v) s = .next (writeRingCfg s r v) := by
  have e : exec (.ringCfg via r v) s = .next (if ringWritable s via r then writeRingCfg s r (v % 2 ^ 32)
    else match via with
      | .sessionPage _ => badPage s (r * 64 + 0x10) true .unbacked
      | _ => s) := rfl
  intro h
  rw [e, if_pos h, Nat.mod_eq_of_lt hv]

theorem ringTail_eq (via : Via) (r v : Nat) (s : State) (hv : v < 2 ^ 32) : ringWritable s via r = true → exec (.ringTail via r v) s = .next (writeRingTail s r v) := by
  have e : exec (.ringTail via r v) s = .next (if ringWritable s via r then writeRingTail s r (v % 2 ^ 32)
    else match via with
      | .sessionPage _ => badPage s (r * 64 + 0x14) true .unbacked
      | _ => s) := rfl
  intro h
  rw [e, if_pos h, Nat.mod_eq_of_lt hv]

theorem badPage_told (s : State) (o : Nat) (w : Bool) (h : RegHit) : Told s (badPage s o w h) := by
  unfold badPage badAccess
  split <;> exact regAccess_told _ _ _ _ _

theorem and_add_and_xor (x : Nat) : ∀ v, (x &&& v) + (x &&& (x ^^^ v)) = x := by
  induction x using Nat.strongRecOn with
  | ind x ih =>
    intro v
    by_cases hx : x = 0
    · subst hx; simp
    · have h := ih (x / 2) (by omega) (v / 2)
      have d1 : (x &&& v) / 2 = x / 2 &&& v / 2 := by rw [Nat.and_div_two]
      have d2 : (x &&& (x ^^^ v)) / 2 = x / 2 &&& (x / 2 ^^^ v / 2) := by rw [Nat.and_div_two, Nat.xor_div_two]
      have m1 : (x &&& v) % 2 = (x % 2) * (v % 2) := by
        have := Nat.and_mod_two_pow (a := x) (b := v) (n := 1)
        rw [pow_one] at this
        rw [this]
        rcases Nat.mod_two_eq_zero_or_one x with e | e <;> rcases Nat.mod_two_eq_zero_or_one v with f | f <;> rw [e, f] <;> rfl
      have m2 : (x &&& (x ^^^ v)) % 2 = (x % 2) * (1 - v % 2) := by
        have := Nat.and_mod_two_pow (a := x) (b := x ^^^ v) (n := 1)
        rw [Nat.xor_mod_two_pow, pow_one] at this
        rw [this]
        rcases Nat.mod_two_eq_zero_or_one x with e | e <;> rcases Nat.mod_two_eq_zero_or_one v with f | f <;> rw [e, f] <;> rfl
      rcases Nat.mod_two_eq_zero_or_one x with e | e <;> rcases Nat.mod_two_eq_zero_or_one v with f | f <;> rw [e, f] at m1 m2 <;> omega

theorem bit_w1c (x v b : Nat) : bit (w1c x v) b = (bit x b && !bit v b) := by
  unfold w1c
  rw [bit_eq_testBit, bit_eq_testBit, bit_eq_testBit]
  have : x - (x &&& v) = x &&& (x ^^^ v) := by have := and_add_and_xor x v; omega
  rw [this]
  simp only [Nat.testBit_and, Nat.testBit_xor]
  cases x.testBit b <;> cases v.testBit b <;> rfl

theorem writeCfg_eq (s : State) (r v : Nat) : writeRingCfg s r v =
    if (getRing s r).enable then
      if bit v 8 then setRing s r { getRing s r with replyIrq := bit v 9 }
      else dropRingBufs (setRing s r { getRing s r with replyIrq := bit v 9, enable := false, active := false }) r
    else if bit v 8 then enableRing s r (fld v 0 5) (bit v 9)
    else setRing s r { getRing s r with replyIrq := bit v 9, log2 := if 6 ≤ fld v 0 5 ∧ fld v 0 5 ≤ 16 then fld v 0 5 else (getRing s r).log2 } := rfl

theorem ringCfg_away {via : Via} {r v : Nat} {s : State} : ringWritable s via r = false → (∀ p, via ≠ .sessionPage p) → exec (.ringCfg via r v) s = .next s := by
  have e : exec (.ringCfg via r v) s = .next (if ringWritable s via r then writeRingCfg s r (v % 2 ^ 32)
    else match via with
      | .sessionPage _ => badPage s (r * 64 + 0x10) true .unbacked
      | _ => s) := rfl
  intro hw hn
  rw [e, hw, if_neg (by decide)]
  cases via with
  | sessionPage p => exact absurd rfl (hn p)
  | _ => rfl

theorem ringTail_away {via : Via} {r v : Nat} {s : State} : ringWritable s via r = false → (∀ p, via ≠ .sessionPage p) → exec (.ringTail via r v) s = .next s := by
  have e : exec (.ringTail via r v) s = .next (if ringWritable s via r then writeRingTail s r (v % 2 ^ 32)
    else match via with
      | .sessionPage _ => badPage s (r * 64 + 0x14) true .unbacked
      | _ => s) := rfl
  intro hw hn
  rw [e, hw, if_neg (by decide)]
  cases via with
  | sessionPage p => exact absurd rfl (hn p)
  | _ => rfl

theorem writeCfg_says (s : State) (r v : Nat) :
    ((getRing s r).enable = true →
      (bit v 8 = true → OnlyRing s (writeRingCfg s r v) r { getRing s r with replyIrq := bit v 9 }) ∧
      (bit v 8 = false → OnlyRing { s with bufs := (writeRingCfg s r v).bufs } (writeRingCfg s r v) r { getRing s r with replyIrq := bit v 9, enable := false, active := false } ∧
        (writeRingCfg s r v).bufs = s.bufs.filter (fun b => match b.forRing with | some (i, _) => !(i == r) | none => true))) ∧
    ((getRing s r).enable = false → bit v 8 = false →
      OnlyRing s (writeRingCfg s r v) r { getRing s r with replyIrq := bit v 9, log2 := if 6 ≤ fld v 0 5 ∧ fld v 0 5 ≤ 16 then fld v 0 5 else (getRing s r).log2 }) := by
  rw [writeCfg_eq]
  refine ⟨fun he => ⟨fun h => ?_, fun h => ?_⟩, fun he h => ?_⟩
  · rw [he, if_pos rfl, h, if_pos rfl]; exact onlyRing_set _ _ _
  · rw [he, if_pos rfl, h, if_neg (by decide)]
    have := onlyRing_set s r { getRing s r with replyIrq := bit v 9, enable := false, active := false }
    refine ⟨⟨rfl, ?_, fun k hk => ?_⟩, rfl⟩
    · exact this.2.1
    · exact this.2.2 k hk
  · rw [he, if_neg (by decide), h, if_neg (by decide)]; exact onlyRing_set _ _ _

theorem writeTail_says (s : State) (r v : Nat) (hv : v < 2 ^ 32) :
    ((getRing s r).enable = true → 2 ^ (getRing s r).log2 < (v + 2 ^ 32 - (getRing s r).head) % 2 ^ 32 → RingFaulted s (writeRingTail s r v) r 1 { getRing s r with tail := v }) ∧
    ((getRing s r).enable = false ∨ (v + 2 ^ 32 - (getRing s r).head) % 2 ^ 32 ≤ 2 ^ (getRing s r).log2 → OnlyRing s (writeRingTail s r v) r { getRing s r with tail := v }) := by
  unfold writeRingTail
  dsimp only
  rw [Nat.mod_eq_of_lt hv]
  refine ⟨fun he h => ?_, fun h => ?_⟩
  · rw [if_pos ⟨he, h⟩]; exact ringFault_says _ _ _ _
  · rw [if_neg]
    · exact onlyRing_set _ _ _
    · rintro ⟨a, b⟩
      rcases h with h | h
      · rw [h] at a; cases a
      · omega

/-- A write of a page by an agent of a session, once the page is served (R380). -/
theorem pageWrite_eq {s : State} {p off w v : Nat} (h : Paged s) : exec (.registerWrite (.sessionPage p) off w v) s =
    .next (match regHit (pageVal s p) off w with
      | .exact _ => if off < 0x2000 then ringWrite s (off / 64) (off % 64) (v % 2 ^ (8 * w)) else s
      | h => badPage s off true h) := by
  have e : exec (.registerWrite (.sessionPage p) off w v) s = .next (if decide (s.power.phase < 7) || decide (8 < s.power.phase) || !s.power.linkUp then s
      else match regHit (pageVal s p) off w with
        | .exact _ => if off < 0x2000 then ringWrite s (off / 64) (off % 64) (v % 2 ^ (8 * w)) else s
        | h => badPage s off true h) := rfl
  rw [e, if_neg]
  have := h.1; have := h.2.1
  simp [h.2.2]; omega

theorem busWrite_eq {s : State} {via : Via} {off d o w v : Nat} (h : Reaches s via) (hm : mapWindow off = some (d, o)) :
    exec (.registerWrite via off w v) s = .next (busWrite s via d o w (v % 2 ^ (8 * w))) := by
  rcases h with ⟨rfl, h1, h2⟩ | ⟨k, rfl, h1⟩
  · have e : exec (.registerWrite .privMap off w v) s = .next (if s.cxl.privBy.isNone || !s.power.linkUp then s
      else match mapWindow off with
        | some (d, o) => busWrite s .privMap d o w (v % 2 ^ (8 * w))
        | none => outsideMap s off true) := rfl
    rw [e, if_neg, hm]
    rw [h2]; cases hp : s.cxl.privBy <;> simp_all
  · have e : exec (.registerWrite (.hamir k) off w v) s = .next (if (getDie s k).up then
        match mapWindow off with
        | some (d, o) => busWrite s (.hamir k) d o w (v % 2 ^ (8 * w))
        | none => outsideMap s off true
      else s) := rfl
    rw [e, if_pos h1, hm]

theorem busRead_eq {s : State} {via : Via} {off d o w : Nat} (h : Reaches s via) (hm : mapWindow off = some (d, o)) (hh : hiddenRing s via d o w = false) :
    exec (.registerReadClear via off w) s = .next { (busRead s d o w).1 with answers := (busRead s d o w).1.answers ++ [.reg (busRead s d o w).2] } := by
  rcases h with ⟨rfl, h1, h2⟩ | ⟨k, rfl, h1⟩
  · have e : exec (.registerReadClear .privMap off w) s = .next (if s.cxl.privBy.isNone || !s.power.linkUp then { s with answers := s.answers ++ [.reg 0] }
      else (fun r : State × Nat => { r.1 with answers := r.1.answers ++ [.reg r.2] }) (match mapWindow off with
    | some (d, o) => if hiddenRing s .privMap d o w then (s, 0) else busRead s d o w
    | none => (outsideMap s off false, 0))) := rfl
    rw [e, if_neg, hm]
    · dsimp only; rw [hh]; rfl
    · rw [h2]; cases hp : s.cxl.privBy <;> simp_all
  · have e : exec (.registerReadClear (.hamir k) off w) s = .next (if (getDie s k).up then (fun r : State × Nat => { r.1 with answers := r.1.answers ++ [.reg r.2] }) (match mapWindow off with
    | some (d, o) => if hiddenRing s (.hamir k) d o w then (s, 0) else busRead s d o w
    | none => (outsideMap s off false, 0)) else s) := rfl
    rw [e, if_pos h1, hm]
    dsimp only; rw [hh]; rfl

theorem hit_scrub (s : State) (d : Nat) (h : d < 8) : regHit (regVal s d) 0x430 4 = .exact (getMemRegs s d).scrub := by
  have : regVal s d 0x430 = some (4, (getMemRegs s d).scrub) := by
    show dieVal s d 0x430 = _
    unfold dieVal
    simp [h]
  unfold regHit
  rw [this]
  rfl

theorem hit_ctrl (s : State) : regHit (regVal s 8) 0x810 4 = .exact s.power.ctrl := rfl

theorem hit_peak (s : State) : regHit (regVal s 8) 0x80C 4 = .exact s.power.peak := rfl

theorem hit_ce (s : State) (d : Nat) (h : d < 8) : regHit (regVal s d) 0x400 8 = .exact (getMemRegs s d).hbmCe := by
  have : regVal s d 0x400 = some (8, (getMemRegs s d).hbmCe) := by
    show dieVal s d 0x400 = _
    unfold dieVal
    simp [h]
  unfold regHit
  rw [this]
  rfl

theorem hit_addr (s : State) (d : Nat) (h : d < 8) : regHit (regVal s d) 0x420 8 = .exact (getMemRegs s d).errAddr := by
  have : regVal s d 0x420 = some (8, (getMemRegs s d).errAddr) := by
    show dieVal s d 0x420 = _
    unfold dieVal
    simp [h]
  unfold regHit
  rw [this]
  rfl

theorem pwrCtrl_eq {s : State} {via : Via} {v : Nat} (h : Reaches s via) : exec (.pwrCtrl via v) s = .next (writePwrCtrl s v) := by
  rcases h with ⟨rfl, h1, h2⟩ | ⟨k, rfl, h1⟩
  · have e : exec (.pwrCtrl .privMap v) s = .next (if s.cxl.privBy.isSome && s.power.linkUp then writePwrCtrl s v else s) := rfl
    rw [e, h1, h2]; rfl
  · have e : exec (.pwrCtrl (.hamir k) v) s = .next (if (getDie s k).up then writePwrCtrl s v else s) := rfl
    rw [e, if_pos h1]

theorem fld_fld (v a n : Nat) : fld v a n % 2 ^ n = fld v a n := by unfold fld; rw [Nat.mod_mod]

theorem scrub_says (s : State) (d v : Nat) : ∃ x, writeScrub s d v = setMemRegs s d { getMemRegs s d with scrub := x } ∧ fld x 0 2 = fld v 0 2 ∧
    fld x 8 8 = (if 1 ≤ fld v 8 8 ∧ fld v 8 8 ≤ 24 then fld v 8 8 else fld (getMemRegs s d).scrub 8 8) ∧
    fld x 16 8 = (if 1 ≤ fld v 16 8 ∧ fld v 16 8 ≤ 168 then fld v 16 8 else fld (getMemRegs s d).scrub 16 8) := by
  refine ⟨_, rfl, ?_, ?_, ?_⟩
  · split <;> split <;> simp only [fld_setFld_other _ 16 8 _ 0 2 (by omega), fld_setFld_other _ 8 8 _ 0 2 (by omega), fld_setFld] <;> unfold fld <;> simp
  · split <;> split <;> simp only [fld_setFld_other _ 16 8 _ 8 8 (by omega), fld_setFld_other _ 0 2 _ 8 8 (by omega), fld_setFld, fld_fld]
  · split <;> split <;> simp only [fld_setFld_other _ 8 8 _ 16 8 (by omega), fld_setFld_other _ 0 2 _ 16 8 (by omega), fld_setFld, fld_fld]

theorem badAccess_told (s : State) (d o : Nat) (w : Bool) (h : RegHit) : Told s (badAccess s d o w h) := by
  unfold badAccess; exact regAccess_told _ _ _ _ _

theorem find_put_change (l : List Change) (c : Change) :
    (if l.any (fun x => x.id == c.id) then l.map (fun x => if x.id = c.id then c else x) else l ++ [c]).find? (fun x => x.id == c.id) = some c := by
  induction l with
  | nil => simp
  | cons a l ih =>
    by_cases h : a.id = c.id
    · simp [h]
    · by_cases g : l.any (fun x => x.id == c.id) = true
      · rw [if_pos g] at ih
        rw [if_pos (by rw [List.any_cons, g]; simp)]
        rw [List.map_cons, if_neg h, List.find?_cons_of_neg (by simpa using h)]
        exact ih
      · rw [if_neg g] at ih
        rw [if_neg (by rw [List.any_cons]; simp only [Bool.or_eq_true, beq_iff_eq]; rintro (x | x); exact h x; exact g x)]
        rw [List.cons_append, List.find?_cons_of_neg (by simpa using h)]
        exact ih

theorem findChange_put (s : State) (c : Change) : findChange (putChange s c) c.id = some c := find_put_change s.changes c

theorem openChange_own (s : State) (c : Change) (h1 : findChange s c.id = some c) (h2 : c.unacked = []) (h3 : c.tApply = none) (h4 : c.remote = none) (h5 : c.peers = []) :
    openChange s c.id = putChange s { c with tApply := some (s.time + 1000), holding := false } := by
  unfold openChange
  rw [h1]
  dsimp only
  rw [if_pos ⟨by rw [h2]; rfl, h3, h4⟩, h5]
  rfl

theorem autoChange_staged (s : State) : AutoStaged s (autoChange s) := by
  unfold autoChange
  by_cases h : (ready s && wantP1 s != s.power.p1 && !(scope1Busy s) && s.power.retry.isNone) = true
  · rw [if_pos h]
    simp only [Bool.and_eq_true, bne_iff_ne, Bool.not_eq_true', Option.isNone_iff_eq_none] at h
    obtain ⟨⟨⟨h1, h2⟩, h3⟩, h4⟩ := h
    have e : ∃ C : Change, C.id = 2 ^ 32 ∧ C.scope = 1 ∧ C.cmd = none ∧ stageChange s 1 0xFFFF 0 0xFFFF [] [] none = putChange (putChange s C) { C with tApply := some (s.time + 1000), holding := false } :=
      ⟨_, rfl, rfl, rfl, openChange_own (putChange s _) _ (findChange_put _ _) rfl rfl rfl rfl⟩
    obtain ⟨C, e1, e2, e3, e⟩ := e
    rw [e]
    refine ⟨rfl, fun g => ?_, fun _ _ _ _ => ⟨{ C with tApply := some (s.time + 1000), holding := false }, ?_, e2, e3, rfl⟩⟩
    · rcases g with g | g
      · rw [g] at h1; cases h1
      · exact absurd g h2
    · exact (congrArg (findChange _) e1.symm).trans (findChange_put (putChange s C) { C with tApply := some (s.time + 1000), holding := false })
  · rw [if_neg h]
    refine ⟨rfl, fun _ => rfl, fun h1 h2 h3 h4 => ?_⟩
    exact absurd (by simp [h1, h2, h3, h4]) h

theorem setHold_power {s : State} (h1 : s.power.autoPower = false) (h2 : bit s.power.ctrl 0 = true) : ∃ n,
    setHold s false = autoChange { s with power := { s.power with holdCnt := n, ibi := s.power.ibi ++ [s.power.phase], autoPower := true } } ∧
      fld n 0 16 = min (fld s.power.holdCnt 0 16 + 1) 0xFFFF ∧ fld n 16 16 = fld s.power.holdCnt 16 16 := by
  refine ⟨setFld s.power.holdCnt 0 16 (min (fld s.power.holdCnt 0 16 + 1) 0xFFFF), ?_, ?_, ?_⟩
  · unfold setHold
    extract_lets p was en sh n p2
    rw [if_neg]
    · rfl
    · rintro (g | g)
      · rw [show was = s.power.autoPower from rfl, h1] at g; cases g
      · rw [show en = bit s.power.ctrl 0 from rfl, h2] at g; cases g
  · rw [fld_setFld]; omega
  · rw [fld_setFld_other _ _ _ _ _ _ (by omega)]

theorem setHold_therm {s : State} (h1 : s.power.autoTherm = false) (h2 : bit s.power.ctrl 1 = true) : ∃ n,
    setHold s true = autoChange { s with power := { s.power with holdCnt := n, ibi := s.power.ibi ++ [s.power.phase], autoTherm := true } } ∧
      fld n 16 16 = min (fld s.power.holdCnt 16 16 + 1) 0xFFFF ∧ fld n 0 16 = fld s.power.holdCnt 0 16 := by
  refine ⟨setFld s.power.holdCnt 16 16 (min (fld s.power.holdCnt 16 16 + 1) 0xFFFF), ?_, ?_, ?_⟩
  · unfold setHold
    extract_lets p was en sh n p2
    rw [if_neg]
    · rfl
    · rintro (g | g)
      · rw [show was = s.power.autoTherm from rfl, h1] at g; cases g
      · rw [show en = bit s.power.ctrl 1 from rfl, h2] at g; cases g
  · rw [fld_setFld]; omega
  · rw [fld_setFld_other _ _ _ _ _ _ (by omega)]

theorem i3c_zero (s : State) (o : Nat) (h : o < 0x100) : i3cByte s o = 0 := by
  have hv : pwrVal s (o / 4 * 4) = none := by
    unfold pwrVal
    dsimp only
    iterate 9 rw [if_neg (by omega)]
  unfold i3cByte
  dsimp only
  rw [if_neg (by omega), if_neg (by omega), if_neg (by omega), hv]
  simp

end Sys2Proof.Machine
end

