-- ==== Sys2Proof/Laws/Service.lean ====
section
/-! SUPPORT. The watches, FW_UPDATE and CHECKPOINT: what a commit leaves after its own effect, and the copies of a checkpoint (R433 to R435, R482 to R488). -/

namespace Sys2Proof.Machine

theorem localise_of {s u : State} (h : Beside s u) (g : GAddr) : localise u g = localise s g := by unfold localise; rw [h.cfg]

theorem watchBlock_of {s u : State} (h : Beside s u) (c : Cmd) : watchBlock u c = watchBlock s c := by unfold watchBlock; rw [localise_of h]

theorem watchBytes_of {s u : State} (h : Beside s u) (ho : u.objs = s.objs) {c c' : Cmd} (h1 : c'.snapMem = c.snapMem) (h2 : c'.snapHost = c.snapHost) (h3 : c'.pkt = c.pkt) (h4 : c'.sess = c.sess) :
    watchBytes u c' = watchBytes s c := by
  unfold watchBytes rdStruct moduleRead served objAt asRead
  have hj : ∀ j, jobKey { u with mem := c.snapMem, keys := [], host := c.snapHost } c.sess j = jobKey { s with mem := c.snapMem, keys := [], host := c.snapHost } c.sess j := by
    intro j; unfold jobKey findJob getSes; dsimp only; rw [h.jobs, h.sessions]
  have hl : ∀ g, localise { u with mem := c.snapMem, keys := [], host := c.snapHost } g = localise { s with mem := c.snapMem, keys := [], host := c.snapHost } g := by
    intro g; unfold localise; dsimp only; rw [h.cfg]
  rw [h1, h2, h3, h4]
  dsimp only
  rw [hl, hj, ho]
  rfl

theorem Quiet.memSame {s u t : State} (st : Still s → u.mem = s.mem ∧ u.host = s.host ∧ Still u) {v : State} (q : Quiet v t) (hm : v.mem = u.mem) (ho : v.host = u.host) (hs : Still u → Still v) :
    MemSame s t := fun i => by
  obtain ⟨a, b, j⟩ := st i
  obtain ⟨c, d, -⟩ := q (hs j)
  exact ⟨c.trans (hm.trans a), d.trans (ho.trans b)⟩

theorem runOp_stop {code cid : Nat} {compute : State → Cmd → Out} {eff : State → Cmd → State} {s : State} {c : Cmd} {st d : Nat} (h : Runs s cid code c) (hc : compute s c = .stop st d []) :
    ∃ t, runOp code compute eff cid s = .next t ∧ Ended s t c st d := by
  refine ⟨_, ?_, endCmd_ended s c st d⟩
  unfold runOp
  rw [h.1]
  dsimp only
  rw [if_pos ⟨h.2.1, h.2.2⟩, hc]
  rfl

/-- After its own effect a commit changes only what the end of a command may change. -/
theorem commitWith_tail (eff : State → Cmd → State) (s : State) (c : Cmd) :
    ∃ u, Contained s u ∧ ∀ x, Contained x (eff u (atCommit s c)) → Contained x (commitWith eff s c) := by
  have h1 : Contained s s := Contained.refl s
  delta commitWith
  extract_lets same both c1 s1 key d loc s2 s3 s4 s5 s6 s7 s8 s9 s10 s11 s12 s13 lenders s14 c2
  have k1 : Contained s s1 := putCmd_contained _ _ h1
  have k2 : Contained s s2 := markDirty_contained _ _ (publishWrites_contained _ _ _ k1)
  have k3 : Contained s s3 := poundPublish_contained _ _ _ k2
  have k4 : Contained s s4 := Contained.ite k3 (consume_contained _ _ k3)
  have k5 : Contained s s5 := optSignal (P := Contained s) (fun _ _ _ _ _ => signalLock_contained _ _ _ _ _ _ k4) k4 _ _ _ _ _
  refine ⟨s5, k5, fun x h6 => ?_⟩
  have k6 : Contained x s6 := h6
  clear_value s6
  have k7 : Contained x s7 := writeEntries_contained _ _ k6
  clear_value s7
  have k8 : Contained x s8 := Contained.foldl _ k7 (fun t b h => unpinUse_contained _ _ _ h)
  clear_value s8
  have k9 : Contained x s9 := Contained.ite k8 (reclaim_contained _ _ k8)
  clear_value s9
  have k10 : Contained x s10 := traceRec_contained _ _ _ k9
  clear_value s10
  have k11 : Contained x s11 := drift_contained _ _ (countWork_contained _ _ (jobCount_contained _ _ _ _ _ _ k10))
  clear_value s11
  have k12 : Contained x s12 := by
    unfold s12
    split
    · exact Contained.ite (count_contained _ _ _ _ _ _ k11) k11
    · exact k11
  clear_value s12
  have k13 : Contained x s13 := engineDone_contained _ _ k12
  clear_value s13
  have k14 : Contained x s14 := Contained.foldl _ k13 (fun t b h => sendCmd_contained _ _ _ _ _ _ _ h)
  clear_value s14 c2
  split
  · exact putCmd_contained _ _ k14
  · exact dropCmd_contained _ _ (publishWrites_contained _ _ _ k14)

theorem Meters.contained {s t : State} (h : Meters s t) : Contained s t :=
  ⟨h.pending, h.time, fun d => by unfold getMemRegs; rw [h.memRegs], Nat.le_of_eq h.serial.symm, h.roots, h.engines, h.changes, h.modEpoch, h.transit, h.sessions, h.answers, h.nextSes, h.cfg, by rw [h.power], fun d => by unfold getDie; rw [h.dies]⟩

/-- The same of an operation that runs to its end in one step. -/
theorem runOp_tail {code cid : Nat} {compute : State → Cmd → Out} {eff : State → Cmd → State} {s : State} {c : Cmd} {r : Stg}
    (h : Runs s cid code c) (hd : compute s c = .done r) (hn : Near r) :
    ∃ u t, runOp code compute eff cid s = .next t ∧ Contained s u ∧ ∀ x, Contained x (eff u (atCommit s (withRun c r))) → Contained x t := by
  obtain ⟨hf, hp, hc⟩ := h
  obtain ⟨w, bw, qw, mw, hs⟩ := stage_near eff s c r hn.wait hn.near
  obtain ⟨u, cu, ct⟩ := commitWith_tail eff w (withRun c r)
  have ht : atCommit w (withRun c r) = atCommit s (withRun c r) := by unfold atCommit; rw [bw.time, (mw.signals (withRun c r)).2.2]
  rw [ht] at ct
  refine ⟨u, _, ?_, mw.contained.trans cu, ct⟩
  unfold runOp
  rw [hf]
  dsimp only
  rw [if_pos ⟨hp, hc⟩, hd]
  dsimp only
  rw [hn.evs]
  exact congrArg Host.Outcome.next hs

theorem pauseDies_says (s : State) : (∃ ds, pauseDies s = { s with dies := ds }) ∧ ∀ d, (getDie (pauseDies s) d).kept = if d ∈ diesUp s then { (getDie s d).kept with paused := true } else (getDie s d).kept := by
  unfold pauseDies
  have key : ∀ (l : List Nat) (u : State), (∃ ds, l.foldl (fun s d => setDie s d { getDie s d with paused := true }) u = { u with dies := ds }) ∧
      ∀ d, getDie (l.foldl (fun s d => setDie s d { getDie s d with paused := true }) u) d = if d ∈ l then { getDie u d with paused := true } else getDie u d := by
    intro l
    induction l with
    | nil => exact fun u => ⟨⟨u.dies, rfl⟩, fun d => by simp⟩
    | cons a l ih =>
      intro u
      obtain ⟨⟨ds, h1⟩, h2⟩ := ih (setDie u a { getDie u a with paused := true })
      rw [List.foldl_cons]
      refine ⟨⟨ds, h1⟩, fun d => ?_⟩
      rw [h2, getDie_setDie]
      by_cases h : a = d
      · subst h; simp
      · rw [if_neg h]
        by_cases g : d ∈ l
        · rw [if_pos g, if_pos (List.mem_cons_of_mem _ g)]
        · rw [if_neg g, if_neg (by simp [g, Ne.symm h])]
  obtain ⟨h1, h2⟩ := key (diesUp s) s
  refine ⟨h1, fun d => ?_⟩
  rw [h2]
  split <;> rfl

theorem diesUp_of {s u : State} (h : ∀ d, (getDie u d).kept = (getDie s d).kept) : diesUp u = diesUp s := by
  unfold diesUp
  congr 1
  funext d
  have := congrArg Die.up (h d)
  exact this

theorem issue_says (l : List Nat) (g : Nat → State → Cmd) (hid : ∀ i s, (g i s).id = s.nextId) (s : State) :
    ∃ new, l.foldl (fun s i => issueOwn s (g i s)) s = { s with cmds := s.cmds ++ new, nextId := s.nextId + l.length } ∧ new.length = l.length ∧
      ∀ k, k < l.length → ∃ x v i, new[k]? = some x ∧ l[k]? = some i ∧ x = g i v ∧ v.nextId = s.nextId + k := by
  induction l generalizing s with
  | nil => exact ⟨[], by simp, rfl, fun k hk => absurd hk (Nat.not_lt_zero k)⟩
  | cons a l ih =>
    obtain ⟨new, h1, h2, h3⟩ := ih (issueOwn s (g a s))
    have e : ({ g a s with id := s.nextId } : Cmd) = g a s := by
      have := hid a s
      cases hx : g a s with | mk => rw [hx] at this; dsimp only at this; subst this; rfl
    refine ⟨g a s :: new, ?_, by simp [h2], fun k hk => ?_⟩
    · rw [List.foldl_cons, h1]
      unfold issueOwn
      rw [e]
      simp only [List.append_assoc, List.singleton_append, List.length_cons]
      congr 1
      omega
    · cases k with
      | zero => exact ⟨g a s, s, a, rfl, rfl, rfl, rfl⟩
      | succ k =>
        obtain ⟨x, v, i, a1, a2, a3, a4⟩ := h3 k (by simpa using hk)
        refine ⟨x, v, i, by simpa using a1, by simpa using a2, a3, ?_⟩
        rw [a4]; show s.nextId + 1 + k = _; omega

theorem wrLocals_says (l : List Nat) (k : State → Nat) (g : Nat → Nat) (b : Nat → List Byte) (s : State) (h : True) :
    ∃ ks ps, l.foldl (fun s i => wrLocal s (k s) (g i) (b i)) s = { s with mem := l.foldl (fun m i => memWrite m (g i) (b i)) s.mem, keys := ks, poison := ps } := by
  induction l generalizing s with
  | nil => exact ⟨_, _, rfl⟩
  | cons a l ih =>
    obtain ⟨ks, ps, e⟩ := ih (wrLocal s (k s) (g a) (b a))
    refine ⟨ks, ps, ?_⟩
    rw [List.foldl_cons, e]
    rfl

theorem releaseRun_none {s : State} {c : Cmd} (h1 : c.pins = []) (h2 : cmdPeers c = []) (h3 : c.phase = .waiting) : releaseRun s c = s := by
  have hu : inUse c = false := by unfold inUse; rw [h3]; rfl
  unfold releaseRun
  rw [h1, h2, hu]
  dsimp only [List.foldl_nil, List.filter_nil]
  rw [if_neg (by simp)]
  rfl

theorem find_map_self {l : List Cmd} {i : Nat} {c : Cmd} (h : l.find? (fun x => x.id == i) = some c) : c.self ∈ l.map Cmd.self := List.mem_map_of_mem (List.mem_of_find?_eq_some h)

theorem putCmd_self_mem {s : State} {y c : Cmd} (hf : findCmd s y.id = some c) (hs : y.self = c.self) : c.self ∈ (putCmd s y).cmds.map Cmd.self := by
  rw [← hs]
  refine List.mem_map_of_mem (List.mem_map.mpr ⟨c, List.mem_of_find?_eq_some hf, ?_⟩)
  rw [if_pos (findCmd_mem hf).1]

theorem copy_stage {s : State} {y c p : Cmd} {parent e k : Nat} {h : Shard} {g : GAddr} {bs : List Byte} (hf : findCmd s y.id = some c) (hs : y.self = c.self) (ho : y.origin = .shardCopy parent e)
    (hw : y.pkt.waitThresh = 0) (hop : y.pkt.clsOp ≠ 0x802) (hne : parent ≠ y.id) (hp : findCmd s parent = some p) (hsh : tfind s.shards (shardAddr s y.pkt) = some h) (hg : g.tier = 5) :
    let t := stage shardCopyEff (putCmd s y) y { Stg.none with writes := [⟨g, bs⟩], aux := [1, k] }
    (∀ z ∈ t.cmds, z.id ≠ y.id) ∧
      findCmd t parent = some { p with aux := ((p.aux.set (1 + 3 * e) 0).set (2 + 3 * e) h.version).set (3 + 3 * e) 0 } ∧
      t.shards = tput s.shards (shardAddr s y.pkt) { h with image := some (k, h.version) } ∧
      Beside { s with shards := t.shards, cmds := s.cmds.filter (fun z => !(z.id == y.id)) } t ∧
      (Still s → t.mem = s.mem ∧ t.host = memWrite s.host g.off bs) := by
  intro t
  have b0 : Beside s (putCmd s y) := putCmd_beside _ _ (hs ▸ find_map_self hf) (Beside.refl s)
  have q0 : Quiet s (putCmd s y) := putCmd_quiet _ _ (Quiet.refl s)
  have hp0 : findCmd (putCmd s y) parent = some p := (findCmd_put_other hne).trans hp
  obtain ⟨w, bw, qw, mw, hst⟩ := stage_near shardCopyEff (putCmd s y) y { Stg.none with writes := [⟨g, bs⟩], aux := [1, k] } rfl (by intro x hx; simp only [List.mem_singleton] at hx; subst hx; rw [hg]; decide)
  have ht : t = commitWith shardCopyEff w (withRun y { Stg.none with writes := [⟨g, bs⟩], aux := [1, k] }) := hst
  clear hst
  have hcut : cutFar [⟨g, bs⟩] = [⟨g, bs⟩] := cutFar_near _ (by intro x hx; simp only [List.mem_singleton] at hx; subst hx; rw [hg]; decide)
  have ey : withRun y { Stg.none with writes := [⟨g, bs⟩], aux := [1, k] } = { y with phase := .staged, writes := [⟨g, bs⟩], outs := [], ieee := 0, flags := y.flags ||| 0, status := 0, detail := 0, aux := [1, k] } := by
    unfold withRun; rw [hcut]; rfl
  rw [ey] at ht
  generalize hz : ({ y with phase := .staged, writes := [⟨g, bs⟩], outs := [], ieee := 0, flags := y.flags ||| 0, status := 0, detail := 0, aux := [1, k] } : Cmd) = z at ht
  have zi : z.id = y.id := by rw [← hz]
  have zo : z.origin = .shardCopy parent e := by rw [← hz]; exact ho
  have zp : z.pkt = y.pkt := by rw [← hz]
  have za : z.aux = [1, k] := by rw [← hz]
  have zw : z.writes = [⟨g, bs⟩] := by rw [← hz]
  have zs : z.self = c.self := by rw [← hs, ← hz]; rfl
  clear hz ey
  have hpw : findCmd w parent = some p := by unfold findCmd; rw [mw.cmds]; exact hp0
  have eff : ∀ u x, Beside s u → x.origin = .shardCopy parent e → x.pkt = y.pkt → x.aux = [1, k] →
      shardCopyEff u x = copyEnded { u with shards := tput s.shards (shardAddr s y.pkt) { h with image := some (k, h.version) } } parent e (0, h.version, 0) := by
    intro u x hb h1 h2 h3
    unfold shardCopyEff
    rw [h1, h3, h2]
    dsimp only
    have : shardAddr u y.pkt = shardAddr s y.pkt := by unfold shardAddr; rw [localise_of hb]
    rw [this, hb.shards, hsh]
    dsimp only
    rw [if_pos (by rfl)]
    rfl
  obtain ⟨u, v, b1, b2, q2, st, -, -, -, ec⟩ := commitWith_all shardCopyEff s w z (b0.trans bw) (zs ▸ find_map_self hf)
  unfold recorded at ec
  rw [zo] at ec
  dsimp only at ec
  generalize jobKey w z.sess z.pkt.job = key at ec
  have b12 := b2
  have q12 := q2
  rw [eff u (atCommit w z) b1 zo zp za] at b12 q12
  have hb3 : Beside { s with shards := tput s.shards (shardAddr s y.pkt) { h with image := some (k, h.version) } } v := by
    refine Beside.trans ?_ b12
    unfold copyEnded
    split
    · exact b1.shards_set _
    · next x hx =>
      have := b1.shards_set (tput s.shards (shardAddr s y.pkt) { h with image := some (k, h.version) })
      refine putCmd_beside _ _ ?_ this
      have h1 : x.self ∈ u.cmds.map Cmd.self := find_map_self hx
      obtain ⟨x', hx', e'⟩ := List.mem_map.mp h1
      exact e' ▸ b1.same x' hx'
  have hfin : t = dropCmd (publishWrites v key [⟨g, bs⟩]) y.id := by
    rw [ht, ec, zw, zi]
    simp [hg]
  have hpub : publishWrites v key [⟨g, bs⟩] = { wrHost v g.off bs with poison := unpoisonAll v.poison [⟨g, bs⟩] } := by
    unfold publishWrites
    dsimp only [List.foldl_cons, List.foldl_nil]
    rw [if_neg (by rw [hg]; decide), if_pos hg]
    rfl
  have hsh : t.shards = v.shards := by rw [hfin, hpub]; rfl
  refine ⟨?_, ?_, ?_, ?_, fun i => ?_⟩
  · rw [hfin]
    intro x hx
    have := (List.mem_filter.mp hx).2
    simpa using this
  · rw [ht]
    have hm : z.self ∈ w.cmds.map Cmd.self := by rw [mw.cmds, zs]; exact (putCmd_self_mem hf hs)
    refine commitWith_others shardCopyEff (by rw [zi]; exact hne) (by rw [zp]; exact hw) (by rw [zp]; exact hop) hpw hm fun u' bu hu' => ?_
    rw [eff u' (atCommit w z) ((b0.trans bw).trans bu) zo zp za]
    unfold copyEnded
    have : findCmd { u' with shards := tput s.shards (shardAddr s y.pkt) { h with image := some (k, h.version) } } parent = some p := hu'
    rw [this]
    have hpi : p.id = parent := (findCmd_mem hu').1
    have := findCmd_putCmd { u' with shards := tput s.shards (shardAddr s y.pkt) { h with image := some (k, h.version) } } { p with aux := ((p.aux.set (1 + 3 * e) 0).set (2 + 3 * e) h.version).set (3 + 3 * e) 0 }
      (by show p.id ∈ _; rw [hpi]; exact (findCmd_mem hu').2)
    exact (congrArg (findCmd _) hpi.symm).trans this
  · rw [hsh]; exact hb3.shards
  · have hv : Beside { s with shards := v.shards } v := by
      have h1 : v.shards = tput s.shards (shardAddr s y.pkt) { h with image := some (k, h.version) } := hb3.shards
      rw [h1]; exact hb3
    rw [hsh, hfin, hpub]
    refine ⟨hv.pending, hv.time, hv.remoteSt, hv.memRegs, hv.nextId, hv.serial, hv.rings, hv.jobs, hv.ctxs, hv.ended, hv.flights, hv.fsets, rfl, hv.scheds, hv.loans, hv.pools, hv.pfs, hv.census, hv.watch, hv.twatch,
      hv.suspects, hv.links, hv.roots, hv.engines, hv.testing, hv.testQ, hv.changes, hv.modEpoch, hv.rounds, hv.streams, hv.transit, hv.sessions, hv.counts, hv.bufs, hv.cxl, hv.answers, hv.nextSes, hv.dump, hv.cfg, hv.tap,
      hv.trust, ?_, ?_⟩
    · have h1 : v.cmds.map Cmd.id = s.cmds.map Cmd.id := hv.ids
      show (v.cmds.filter (fun c => c.id != y.id)).map Cmd.id = (s.cmds.filter (fun z => !(z.id == y.id))).map Cmd.id
      have key : ∀ (l : List Cmd), (l.filter (fun z => !(z.id == y.id))).map Cmd.id = (l.map Cmd.id).filter (fun i => !(i == y.id)) := by
        intro l; rw [List.filter_map]; rfl
      exact (key v.cmds).trans ((congrArg _ h1).trans (key s.cmds).symm)
    · intro x hx
      obtain ⟨hx1, hx2⟩ := List.mem_filter.mp hx
      obtain ⟨x', hx', e'⟩ := List.mem_map.mp (hv.same x hx1)
      refine List.mem_map.mpr ⟨x', List.mem_filter.mpr ⟨hx', ?_⟩, e'⟩
      have : x'.id = x.id := congrArg (·.1) e'
      rw [this]; exact hx2
  · obtain ⟨m1, o1, i1⟩ := q0 i
    obtain ⟨m2, o2, i2⟩ := qw i1
    obtain ⟨m3, o3, i3⟩ := st i2
    have q3 := q12 (by
      unfold copyEnded
      split
      · exact Still.of (x := u) rfl rfl rfl rfl i3
      · exact Still.of (x := u) rfl rfl rfl rfl i3)
    have cm : ∀ x : State, (copyEnded x parent e (0, h.version, 0)).mem = x.mem ∧ (copyEnded x parent e (0, h.version, 0)).host = x.host := by
      intro x; unfold copyEnded; split <;> exact ⟨rfl, rfl⟩
    rw [(cm _).1, (cm _).2] at q3
    obtain ⟨m4, o4, -⟩ := q3
    have hl : z.writes.filter (fun w => decide (w.tgt.tier < 3)) = [] := by rw [zw]; simp [hg]
    rw [hl] at m3
    rw [hfin, hpub]
    have mv : v.mem = s.mem := m4.trans (m3.trans (m2.trans m1))
    have ov : v.host = s.host := o4.trans (o3.trans (o2.trans o1))
    exact ⟨mv, by show memWrite v.host g.off bs = _; rw [ov]⟩

end Sys2Proof.Machine
end

