-- ==== Sys2Proof/Laws/Tests.lean ====
section
/-! SUPPORT. Tests of units, and the rows that fence and return a die. -/

namespace Sys2Proof.Machine

theorem setPort_getPort (s : State) (p q : Nat) (x : Port) : getPort (setPort s p x) q = if p = q then x else getPort s q := tget_tset _ p q x

/-- Only the tests and the ports change when tests begin. -/
theorem beginTest_form (s : State) (r : TestReq) : ∃ ps, beginTest s r = { s with testing := s.testing ++ [r], ports := ps } := by
  unfold beginTest
  dsimp only
  split
  · exact ⟨_, rfl⟩
  · exact ⟨_, rfl⟩

theorem pumpTests_form (s : State) : ∃ a b c, pumpTests s = { s with testing := a, testQ := b, ports := c } := by
  unfold pumpTests
  dsimp only
  have h : ∀ (l : List TestReq) (x : State), (∃ a b c, x = { s with testing := a, testQ := b, ports := c }) →
      ∃ a b c, l.foldl (fun s r => if s.testing.any (sameDomain r) || s.testing.any (fun x => x.unit == r.unit) || s.testQ.any (fun x => sameDomain x r) then
        { s with testQ := s.testQ ++ [r] } else beginTest s r) x = { s with testing := a, testQ := b, ports := c } := by
    intro l
    induction l with
    | nil => exact fun x h => h
    | cons r l ih =>
      rintro x ⟨a, b, c, rfl⟩
      rw [List.foldl_cons]
      apply ih
      split
      · exact ⟨_, _, _, rfl⟩
      · obtain ⟨ps, e⟩ := beginTest_form { s with testing := a, testQ := b, ports := c } r
        exact ⟨_, _, _, e⟩
  exact h _ _ ⟨_, _, _, rfl⟩

theorem pumpTests_none {s : State} (h : s.testQ = []) : pumpTests s = s := by
  unfold pumpTests
  rw [h]
  cases s
  cases h
  rfl

theorem any_or_false {l : List TestReq} {f g k : TestReq → Bool} (h : l.any (fun x => f x || g x) = false) : ¬ (l.any f || l.any g || ([] : List TestReq).any k) = true := by
  simp only [List.any_eq_false, Bool.or_eq_true, not_or] at h
  simp only [List.any_nil, Bool.or_false, Bool.or_eq_true, List.any_eq_true, not_or, not_exists, not_and]
  exact ⟨fun x m => (h x m).1, fun x m => (h x m).2⟩

theorem any_or_true {l : List TestReq} {f g k : TestReq → Bool} (h : l.any (fun x => f x || g x) = true) : (l.any f || l.any g || ([] : List TestReq).any k) = true := by
  simp only [List.any_eq_true, Bool.or_eq_true] at h
  simp only [List.any_nil, Bool.or_false, Bool.or_eq_true, List.any_eq_true]
  obtain ⟨x, m, h | h⟩ := h
  · exact Or.inl ⟨x, m, h⟩
  · exact Or.inr ⟨x, m, h⟩

theorem askTest_asked (s : State) (r : TestReq) : Asked s (askTest s r) r := by
  unfold askTest
  obtain ⟨a, b, c, e⟩ := pumpTests_form { s with testQ := s.testQ ++ [r] }
  refine ⟨by rw [e], fun h g => ?_, fun h g => ?_⟩
  · clear e
    unfold pumpTests
    rw [h]
    dsimp only [List.nil_append, List.foldl_cons, List.foldl_nil]
    rw [if_neg (any_or_false g)]
    unfold beginTest
    dsimp only
    split
    · rename_i p hp
      refine ⟨rfl, rfl, fun q => ?_⟩
      rw [setPort_getPort, hp]
      by_cases z : p = q
      · subst z; rw [if_pos rfl, if_pos rfl]; rfl
      · rw [if_neg z, if_neg (by intro y; exact z (HwUnit.port.inj y))]; rfl
    · rename_i hp
      refine ⟨rfl, rfl, fun q => ?_⟩
      rw [if_neg (hp q)]
      rfl
  · clear e
    unfold pumpTests
    rw [h]
    dsimp only [List.nil_append, List.foldl_cons, List.foldl_nil]
    rw [if_pos (any_or_true g)]
    exact ⟨rfl, rfl, rfl⟩

theorem Fenced.after {s t u : State} {d k : Nat} (f : Fenced s t d k) (h : Contained t u) : Fenced s u d k := by
  refine ⟨f.rest.trans h.steady, ?_⟩
  rcases f.alive with a | a
  · exact Or.inl (h.power.trans a)
  · have hp := congrArg Power.phase h.power
    have hf := congrArg Power.fatal h.power
    have hu := fun e => congrArg Die.up (h.dies e)
    simp only [Die.kept] at hu
    exact Or.inr ⟨diesUp_none (fun e g => by rw [← hu]; exact g) a.1, (show u.power.phase = t.power.phase from hp).trans a.2.1, (show u.power.fatal = t.power.fatal from hf).trans a.2.2⟩

theorem pumpTests_contained' {s t : State} (h : Contained s t) : Contained s (pumpTests t) := by
  obtain ⟨a, b, c, e⟩ := pumpTests_form t
  rw [e]
  exact Contained.set h

theorem commitRow_contained' (s : State) (c : Cmd) : Contained s (commitRow s c) := by
  unfold commitRow
  exact commitWith_contained _ _ _ (fun _ _ g => noEffect_contained _ _ g) (Contained.refl s)

theorem killCmd_place {c : Cmd} {d : Nat} (h : c.place = none) : onDie c d = false := by
  unfold onDie; rw [h]

/-- The end of a test of the rotation (R323, R324). -/
theorem endTest_says {s : State} {r : TestReq} (h : r.cmd = none) (pass : Bool) :
    ∃ b, Told { s with testing := s.testing.filter (fun x => !(x == r)) } b ∧ endTest s r pass = pumpTests (if pass then b else match r.unit with
      | .basin i => fenceDie b (i / 4) 3 | .pchan i => fenceDie b (i / 256) 2 | .port _ => b | u => fenceUnit b u 4) := by
  unfold endTest
  rw [h]
  exact ⟨_, raiseFor_told _ _ _ _ _ _ _ _ _ _ _ (Told.refl _), rfl⟩

theorem Told.contained {s t : State} (h : Told s t) : Contained s t :=
  ⟨h.pending, h.time, fun _ => by unfold getMemRegs; rw [h.memRegs], h.serial.ge, h.roots, h.engines, h.changes, h.modEpoch, h.transit, h.sessions, h.answers, h.nextSes, h.cfg, h.power, h.dies⟩

theorem Contained.setDie {s t : State} (h : Contained s t) (d : Nat) {x y : Die} (e : y.kept = x.kept) : Contained (setDie s d x) (setDie t d y) := by
  refine ⟨h.pending, h.time, h.memRegs, h.serial, h.roots, h.engines, h.changes, h.modEpoch, h.transit, h.sessions, h.answers, h.nextSes, h.cfg, h.power, fun v => ?_⟩
  rw [getDie_setDie, getDie_setDie]
  by_cases z : d = v
  · rw [if_pos z, if_pos z]; exact e
  · rw [if_neg z, if_neg z]; exact h.dies v

theorem Fenced.before {s b t : State} {d k : Nat} (h : Contained s b) (f : Fenced b t d k) : Fenced s t d k := by
  have g : Contained (Machine.setDie s d { getDie s d with up := false, fenced := true, cause := k, paused := false }) (Machine.setDie b d { getDie b d with up := false, fenced := true, cause := k, paused := false }) := by
    refine Contained.setDie h d ?_
    have := congrArg (fun x : Die => { x with up := false, fenced := true, cause := k, paused := false }) (h.dies d)
    exact this
  refine ⟨g.steady.trans f.rest, ?_⟩
  rcases f.alive with a | a
  · exact Or.inl (a.trans h.power)
  · exact Or.inr a

/-- What DIE_UNFENCE leaves before its command commits (R479). -/
theorem dieUnfence_says {s : State} {cid : Nat} {c : Cmd} (l : List HwUnit) (hr : Runs s cid 0xF15 c) (hn : unfenceRefused s (fenceTarget c) = false) :
    ∃ x u t, u = { s with
        dies := tset Die.rest s.dies (fenceTarget c) x
        memRegs := tset MemRegs.rest s.memRegs (fenceTarget c) { MemRegs.rest with retired := (getMemRegs s (fenceTarget c)).retired }
        sics := u.sics, cnts := u.cnts, traces := u.traces
        roots := s.roots.filter (fun r => !(r.1 / 8 == fenceTarget c)), engines := s.engines.filter (fun e => !(e.1 / 65536 == fenceTarget c)) } ∧
      Contained u t ∧ exec (.dieUnfence cid l) s = .next t ∧ x.up = (l.filter (fun u => unitDie u == fenceTarget c)).isEmpty ∧ x.fenced = !(l.filter (fun u => unitDie u == fenceTarget c)).isEmpty ∧
      ((l.filter (fun u => unitDie u == fenceTarget c)) = [] → x.kept = { Die.rest with up := true, cause := (getDie s (fenceTarget c)).cause }) := by
  have h : exec (.dieUnfence cid l) s = execDieUnfence cid l s := rfl
  rw [h]
  clear h
  generalize he : execDieUnfence cid l s = out
  unfold execDieUnfence at he
  rw [hr.1] at he
  dsimp -zeta only at he
  rw [if_neg (by rw [hr.2.1, hr.2.2]; simp)] at he
  extract_lets d o bad cores roots moves stack basin cause ok x0 s1 s2 s3 s4 m0 s5 s6 s7 at he
  rw [show unfenceRefused s d = false from hn, if_neg (by decide)] at he
  subst he
  refine ⟨{ x0 with up := ok, fenced := !ok, cause := cause, coreFence := cores, rootFence := roots, moveFence := moves, log := o.log }, s6, _, ?_, ?_, rfl, rfl, rfl, fun h => ?_⟩
  · simp only [s6, s5, s4, s3, s2, s1, setMemRegs, setTrace, setCnt, setSic, setDie, getMemRegs]
    rfl
  · have c7 : Contained s6 s7 := Contained.ite (raiseMod_contained _ _ _ _ _ _ (Contained.refl _)) (raiseMod_contained _ _ _ _ _ _ (Contained.refl _))
    clear_value s7
    split
    · exact c7.trans (commitRow_contained' _ _)
    · exact c7
  · have hb : bad = [] := h
    have h1 : ok = true := by show bad.isEmpty = true; rw [hb]; rfl
    have h2 : cores = 0 := by simp only [cores, hb]; rfl
    have h3 : roots = 0 := by simp only [roots, hb]; rfl
    have h4 : moves = 0 := by simp only [moves, hb]; rfl
    have h5 : cause = o.cause := by simp only [cause, stack, basin, h4, hb]; rfl
    rw [h1, h2, h3, h4, h5]
    rfl

end Sys2Proof.Machine
end

