-- ==== Sys2Proof/Laws/Path.lean ====
section
/-! SUPPORT. The path of a ring's command: fetch, acceptance, start, commit, publication, pre-emption, resumption and abort (R262, R267, R268, R275 to R277, R301 to R306). -/

namespace Sys2Proof.Machine

theorem RingFaulted.told {s t t' : State} {r k : Nat} {x : Ring} (h : RingFaulted s t r k x) (g : Told t t') : RingFaulted s t' r k x := by
  have hr : ∀ i, getRing t' i = getRing t i := fun i => by unfold getRing; rw [g.rings]
  exact ⟨(hr r).trans h.ring, fun i hi => (hr i).trans (h.others i hi), g.bufs.trans h.bufs, g.cmds.trans h.cmds, h.rest.trans g.contained⟩

/-- A ring's fault (R267). -/
theorem ringFault_here (s : State) (r k : Nat) : RingFaulted s (ringFault s r k) r k (getRing s r) := by
  have hc : Contained s (ringFault s r k) := ringFault_contained _ _ _ (Contained.refl s)
  unfold ringFault at hc ⊢
  extract_lets x s1 s2 s3 s4 at hc ⊢
  have r1 : getRing s1 r = { getRing s r with fault := setBit (getRing s r).fault k true, enable := false, active := false } ∧ ∀ i, i ≠ r → getRing s1 i = getRing s i := by
    refine ⟨by unfold s1; rw [getRing_setRing', if_pos rfl], fun i hi => ?_⟩
    unfold s1; rw [getRing_setRing', if_neg (Ne.symm hi)]
  have t3 : Told s2 s3 := by
    unfold s3; split
    · exact Told.refl _
    · exact fire_told _ _ _ (Told.refl _)
  have h4 : s4.rings = s2.rings ∧ s4.bufs = s2.bufs ∧ s4.cmds = if k = 0 then s.cmds.map (fun c => if c.origin = .ring r then { c with noReply := true } else c) else s.cmds := by
    have hcm : s3.cmds = s.cmds := t3.cmds
    unfold s4
    split
    · exact ⟨t3.rings, t3.bufs, by rw [← hcm]⟩
    · exact ⟨t3.rings, t3.bufs, hcm⟩
  have te : Told s4 (raiseFor s4 0xF 0x1B false (if x.bind < 64 then some x.bind else none) 0xFFFF 0xFFFF 0 (r + (setBit x.fault k true) * 256) 0 0) := raiseFor_told _ _ _ _ _ _ _ _ _ _ _ (Told.refl _)
  clear_value s4
  generalize raiseFor s4 0xF 0x1B false (if x.bind < 64 then some x.bind else none) 0xFFFF 0xFFFF 0 (r + (setBit x.fault k true) * 256) 0 0 = w at *
  have hr : w.rings = s1.rings := te.rings.trans h4.1
  refine ⟨?_, fun i hi => ?_, te.bufs.trans h4.2.1, te.cmds.trans h4.2.2, hc⟩
  · unfold getRing at r1 ⊢; rw [hr]; exact r1.1
  · unfold getRing at r1 ⊢; rw [hr]; exact r1.2 i hi

theorem arrived_locks (s : State) (r : Nat) (p : Packet) (k : Nat) : getLock (arrived s r p) k = getLock s k := by
  unfold arrived makeCtx
  dsimp only
  split
  · rfl
  · split <;> rfl

theorem arrived_cmds (s : State) (r : Nat) (p : Packet) : (arrived s r p).cmds = s.cmds ++ [numbered s r p] ∧ (numbered s r p).id = s.nextId := by
  unfold arrived numbered makeCtx fetched
  dsimp only
  split
  · exact ⟨rfl, rfl⟩
  · split <;> exact ⟨rfl, rfl⟩

theorem acceptCmd_eq (s : State) (ring : Nat) (p : Packet) : acceptCmd (setRing s ring (getRing s ring).advanced) ring p =
    match (if (lowest (reservedFaults (judged s ring p).pkt (usesOf p (shapesAt (arrived s ring p) p)))).isSome then none
        else shapePoison (arrived s ring p) (judged s ring p).pkt ((usesOf p (shapesAt (arrived s ring p) p)).getD [])) with
    | some unit => eccEnd (arrived s ring p) (numbered s ring p) unit
    | none =>
      match faultOf s ring p with
      | some f => endCmd (arrived s ring p) (numbered s ring p) stBad (badAt f.1 f.2)
      | none =>
        match denialOf s ring p with
        | some d => endCmd (arrived s ring p) (numbered s ring p) stDenied d
        | none =>
          if epochAhead (arrived s ring p) (judged s ring p).pkt < 0 then endCmd (arrived s ring p) (numbered s ring p) stStale 0
          else if p.waitThresh ≠ 0 ∧ 64 ≤ (getLock (arrived s ring p) p.waitLock).queue.length then
            endCmd (raiseCmd (arrived s ring p) (judged s ring p) 0x14 p.waitLock 0 0) (numbered s ring p) stBad (badAt 14 0xFF)
          else claimOrQueue (traceRec (putCmd (arrived s ring p) (judged s ring p)) (ring / 16) (trCmd (putCmd (arrived s ring p) (judged s ring p)) (judged s ring p) 0 1 ring))
            (judged s ring p) := by
  have hb : (getRing (setRing s ring (getRing s ring).advanced) ring).bind = (getRing s ring).bind := by rw [getRing_setRing', if_pos rfl]; rfl
  unfold acceptCmd
  rw [hb]
  rfl

theorem execRingFetch_eq (ring : Nat) (s : State) : exec (.ringFetch ring) s = .next (
    if fetches s ring = false then s
    else if replySpace (getRing s ring) = false then s
    else match ringEntryOf s ring (getRing s ring).head with
      | .unusable => ringFault s ring 0
      | .badTag => raiseFor (ringFault s ring 0) (ring / 16) 0x1C false (some (getRing s ring).bind) 0xFFFF 0xFFFF 0 (ring + (getRing s ring).bind * 65536) 0 0
      | .packet bs =>
        if (getRing s ring).marks.contains (getRing s ring).head then
          endCmd { setRing s ring (getRing s ring).advanced with
            cmds := (setRing s ring (getRing s ring).advanced).cmds ++ [fetched (setRing s ring (getRing s ring).advanced) ring (packetOf bs)],
            nextId := (setRing s ring (getRing s ring).advanced).nextId + 1 } (fetched (setRing s ring (getRing s ring).advanced) ring (packetOf bs)) stAborted 0
        else acceptCmd (setRing s ring (getRing s ring).advanced) ring (packetOf bs)) := rfl

/-- What a command's end says of a state that differs only in the commands. -/
theorem Ended.before {u v t : State} {c : Cmd} {st d : Nat} (h : Ended v t c st d) (hc : Contained u v) (hr : v.rings = u.rings) (hm : v.mem = u.mem) (ho : v.host = u.host)
    (hs : Still u → Still v) : Ended u t c st d := by
  have hg : ∀ k, getRing v k = getRing u k := fun k => by unfold getRing; rw [hr]
  refine ⟨h.gone, h.ended, hc.trans h.rest, fun r h1 h2 h3 h4 => ?_, fun r h1 h2 h3 st => ?_⟩
  · have := h.ring r h1 h2 (by rw [hg]; exact h3) (by rw [hg]; exact h4)
    simp only [hg] at this
    exact this
  · have := h.reply r h1 h2 (by rw [hg]; exact h3) (hs st)
    have ea : replyAt v r = replyAt u r := by unfold replyAt; rw [hg]
    rw [ea, ho, hm] at this
    exact this

theorem findCmd_put_same {s : State} {c b : Cmd} (h : findCmd s c.id = some b) : findCmd (putCmd s c) c.id = some c := by
  unfold findCmd putCmd at *
  dsimp only
  generalize s.cmds = l at h ⊢
  induction l with
  | nil => cases h
  | cons a l ih =>
    rw [List.map_cons]
    by_cases ha : a.id = c.id
    · rw [if_pos ha, List.find?_cons_of_pos (by simp)]
    · rw [if_neg ha, List.find?_cons_of_neg (by simpa using ha)]
      rw [List.find?_cons_of_neg (by simpa using ha)] at h
      exact ih h

theorem endStall_sameCmds {s : State} (a : State) (c : Cmd) (h : SameCmds s a) : SameCmds s (endStall a c).1 := by
  delta endStall
  split
  · exact h
  · extract_lets v0 v1 v2 v3 v4
    have k1 : SameCmds s v1 := jobCount_sameCmds _ _ _ _ _ _ h
    have k2 : SameCmds s v2 := SameCmds.ite k1 (jobCount_sameCmds _ _ _ _ _ _ k1)
    exact traceRec_sameCmds _ _ _ k2

theorem judged_id (s : State) (r : Nat) (p : Packet) : (judged s r p).id = s.nextId := (arrived_cmds s r p).2

theorem judged_phase (s : State) (r : Nat) (p : Packet) : (judged s r p).phase = .waiting := rfl

theorem accepted_says (s : State) (r : Nat) (p : Packet) :
    AcceptedAs s (claimOrQueue (traceRec (putCmd (arrived s r p) (judged s r p)) (r / 16) (trCmd (putCmd (arrived s r p) (judged s r p)) (judged s r p) 0 1 r)) (judged s r p))
      (arrived s r p) (judged s r p) := by
  generalize hw : traceRec (putCmd (arrived s r p) (judged s r p)) (r / 16) (trCmd (putCmd (arrived s r p) (judged s r p)) (judged s r p) 0 1 r) = w
  have tw : Told (putCmd (arrived s r p) (judged s r p)) w := hw ▸ traceRec_told _ _ _ (Told.refl _)
  have lw : ∀ k, getLock w k = getLock s k := fun k => by
    have : getLock w k = getLock (arrived s r p) k := by unfold getLock; rw [tw.locks]; rfl
    rw [this]; exact arrived_locks s r p k
  have fw : (∀ x ∈ s.cmds, x.id ≠ s.nextId) → findCmd w (judged s r p).id = some (judged s r p) := by
    intro hn
    have e1 : findCmd w (judged s r p).id = findCmd (putCmd (arrived s r p) (judged s r p)) (judged s r p).id := by unfold findCmd; rw [tw.cmds]
    rw [e1]
    refine findCmd_put_same (b := numbered s r p) ?_
    unfold findCmd
    rw [judged_id, (arrived_cmds s r p).1, List.find?_append]
    rw [List.find?_eq_none.mpr (fun x hx => by simpa using hn x hx)]
    simp [(arrived_cmds s r p).2]
  have hid := judged_id s r p
  generalize hc : judged s r p = c at *
  have hph : c.phase = .waiting := hc ▸ judged_phase s r p
  clear hw hc
  unfold claimOrQueue
  dsimp only
  refine ⟨fun h => by rw [if_pos h]; exact tw, fun h hn hq hs ha => ?_, fun h hq => ?_⟩
  · rw [if_neg h, if_pos ⟨by rw [lw]; exact hq, by rw [lw]; exact hs, by rw [lw]; exact ha⟩]
    unfold grantClaim
    rw [fw hn]
    dsimp only
    have hself := endStall_self (setLock w c.pkt.waitLock { getLock w c.pkt.waitLock with claimed := (getLock w c.pkt.waitLock).claimed + c.pkt.waitThresh, queue := without (getLock w c.pkt.waitLock).queue c.id }) c
    obtain ⟨a, b, d, ek⟩ := endStall_kept (setLock w c.pkt.waitLock { getLock w c.pkt.waitLock with claimed := (getLock w c.pkt.waitLock).claimed + c.pkt.waitThresh, queue := without (getLock w c.pkt.waitLock).queue c.id }) c
    generalize hv : setLock w c.pkt.waitLock { getLock w c.pkt.waitLock with claimed := (getLock w c.pkt.waitLock).claimed + c.pkt.waitThresh, queue := without (getLock w c.pkt.waitLock).queue c.id } = v at *
    have bv : SameCmds v (endStall v c).1 := endStall_sameCmds _ _ (SameCmds.refl v)
    have lv : SameLocks v (endStall v c).1 := endStall_sameLocks _ _ (SameLocks.refl v)
    have hz : findCmd (putCmd (endStall v c).1 { (endStall v c).2 with claimed := true }) c.id = some { (endStall v c).2 with claimed := true } := by
      have e0 : ({ (endStall v c).2 with claimed := true } : Cmd).id = c.id := congrArg (·.1) hself
      have := findCmd_put_same (s := (endStall v c).1) (c := { (endStall v c).2 with claimed := true }) (b := c) (by
        rw [e0]
        have : findCmd (endStall v c).1 c.id = findCmd w c.id := by unfold findCmd; rw [bv.cmds, ← hv]; rfl
        rw [this]; exact fw hn)
      rw [e0] at this; exact this
    generalize ht : traceRec (putCmd (endStall v c).1 { (endStall v c).2 with claimed := true }) (c.pkt.waitLock / 2048) (trCmd (putCmd (endStall v c).1 { (endStall v c).2 with claimed := true }) c 0 6 (c.pkt.waitLock + c.pkt.waitThresh * 2 ^ 32)) = t
    have tt : Told (putCmd (endStall v c).1 { (endStall v c).2 with claimed := true }) t := ht ▸ traceRec_told _ _ _ (Told.refl _)
    have lt : ∀ k, getLock t k = getLock v k := fun k => by
      have : getLock t k = getLock (endStall v c).1 k := by unfold getLock; rw [tt.locks]; rfl
      rw [this]; unfold getLock; rw [lv.locks]
    refine ⟨⟨{ (endStall v c).2 with claimed := true }, ?_, hself, rfl, ?_⟩, ?_, fun k hk => ?_⟩
    · have : findCmd t s.nextId = findCmd (putCmd (endStall v c).1 { (endStall v c).2 with claimed := true }) s.nextId := by unfold findCmd; rw [tt.cmds]
      rw [this, ← hid]; exact hz
    · show (endStall v c).2.phase = _; rw [ek]; exact hph
    · rw [lt, ← hv, getLock_setLock, if_pos rfl, lw, hq]
      rfl
    · rw [lt, ← hv, getLock_setLock, if_neg (Ne.symm hk), lw]
  · rw [if_neg h, if_neg (by rw [lw]; rintro ⟨h1, h2, h3⟩; rcases hq with g | g | g; exacts [g h1, (by rw [h2] at g; cases g), absurd h3 (by omega)])]
    have e : ∀ (z : Cmd) (v : State) (k : Nat), getLock (putCmd v z) k = getLock v k := fun _ _ _ => rfl
    refine ⟨?_, fun k hk => ?_⟩
    · rw [e, getLock_setLock, if_pos rfl, lw, hid]
    · rw [e, getLock_setLock, if_neg (Ne.symm hk), lw]

theorem debtFor_beside {s : State} (u : State) (c : Cmd) (h : Beside s u) : Beside s (debtFor u c) := by
  have key : ∀ (ids : List Nat) (p : Nat), Beside s { u with cmds := u.cmds.map (fun x => if ids.contains x.id then { x with debt := true, debtPrio := p } else x) } := by
    intro ids p
    have hi := h.ids
    have hs := h.same
    obtain ⟨⟩ := h
    constructor
    case ids => dsimp only; rw [List.map_map]; refine Eq.trans (List.map_congr_left fun x _ => ?_) hi; dsimp only [Function.comp]; split <;> rfl
    case same =>
      intro x hx
      obtain ⟨y, hy, e⟩ := List.mem_map.mp hx
      have : x.self = y.self := by rw [← e]; split <;> rfl
      rw [this]
      exact hs y hy
    all_goals assumption
  unfold debtFor
  dsimp only
  refine Beside.ite h ?_
  split
  · exact h
  · exact raiseFor_beside _ _ _ _ _ _ _ _ _ _ _ (key _ _)

theorem debtPass_beside {s : State} (u : State) (h : Beside s u) : Beside s (debtPass u) := by
  unfold debtPass
  exact Beside.foldl _ h fun t c g => debtFor_beside _ _ g

theorem poisonAmong_none {s : State} (h : s.poison = []) (c : Cmd) (rs : List (GAddr × Nat)) : poisonAmong s c rs = none := by
  unfold poisonAmong
  rw [List.findSome?_eq_none_iff]
  intro r _
  dsimp only
  split
  · unfold poisonedIn; rw [h]; rfl
  · rfl

theorem parked_says (s : State) (y : Cmd) (o : Option Nat) : Parked s (park s y o) y := ⟨_, rfl, rfl, rfl, rfl, rfl, rfl⟩

/-- Serials that have moved on may be taken as given. -/
theorem Beside.serial_ge {s t : State} (h : Beside s t) : Beside { s with serial := t.serial } t := { h with serial := Nat.le_refl _ }

theorem noteStart_says (u : State) (c : Cmd) (p : Place) : (noteStart u c p).cmds = u.cmds ∧ Beside { u with ctxs := (noteStart u c p).ctxs, engines := (noteStart u c p).engines, serial := (noteStart u c p).serial } (noteStart u c p) := by
  unfold noteStart
  extract_lets n key e s1 s2
  have key : ∀ w, (Beside s1 w ∧ SameCmds s1 w) → w.cmds = u.cmds ∧ Beside { u with ctxs := w.ctxs, engines := w.engines, serial := w.serial } w := by
    intro w ⟨h, g⟩
    refine ⟨g.cmds, ?_⟩
    have e1 : w.ctxs = s1.ctxs := h.ctxs
    have e2 : w.engines = s1.engines := h.engines
    rw [e1, e2]
    have b : Beside { u with ctxs := s1.ctxs, engines := s1.engines, serial := s1.serial } w := Beside.trans (Beside.set (Beside.refl _)) h
    exact b.serial_ge
  apply key
  split
  · have c2 : Beside s1 s2 ∧ SameCmds s1 s2 := ⟨count_beside _ _ _ _ _ _ (Beside.refl s1), count_sameCmds _ _ _ _ _ _ (SameCmds.refl s1)⟩
    split
    · exact ⟨count_beside _ _ _ _ _ _ c2.1, count_sameCmds _ _ _ _ _ _ c2.2⟩
    · exact c2
  · exact ⟨Beside.refl s1, SameCmds.refl s1⟩

/-- A start that nothing holds back. -/
def startGo (v w2 : State) (c1 c2 : Cmd) (q : Place) (rs : List (Nat × Nat)) : State :=
  let s3 := c1.pins.foldl (fun s x => takeCopy s x.1 x.2) w2
  let r := endStall s3 c2
  let c3 := { r.2 with
    phase := .running, parked := false, runs := c2.runs + 1, started := v.time, reserved := rs, lastEng := engineCode { c2 with place := some q } }
  let s4 := noteStart (putCmd r.1 c3) c3 q
  traceRec s4 (min q.die 9) (trCmd s4 c3 c3.lastEng 2 (min c3.runs 255))

/-- What is made of a command that its family lets go (R216, R237, R308). -/
def startBody (v : State) (y : Cmd) (q : Place) (w w2 : State) (c1 c2 : Cmd) : State :=
  match checkStructs w c1 with
  | .stop st d => endCmd v y st d
  | .wait => park v y none
  | .ok =>
    if (startCapBad w c2 || resvTooBig v (reservation w c1)) = true then endCmd v y stBad (badAt 0 0xFF)
    else if resvLacks v (reservation w c1) = true then park v y (some 2)
    else startGo v w2 c1 c2 q (reservation w c1)

theorem tryStart_eqs {v : State} {y : Cmd} {q : Place} (hp : v.poison = []) (hok : verdict [checkOperands v y, checkLocks v y] = .ok) :
    tryStart v y q = match familyStart (clearStores v y q) (atStart v y q) with
      | .wait => park v y (if flightWait v y then some 1 else none)
      | .stop st d evs => endCmd (evs.foldl (fun s e => emitEv s y e) v) y st d
      | .go s2 c2 => startBody v y q (clearStores v y q) s2 (atStart v y q) c2 := by
  unfold tryStart startBody
  rw [hok]
  show (match poisonAmong v (atStart v y q) _ with
    | some u => eccEnd v { y with pins := [] } u
    | none => match familyStart (clearStores v y q) (atStart v y q) with
      | .wait => park v y (if flightWait v y then some 1 else none)
      | .stop st d evs => endCmd (evs.foldl (fun s e => emitEv s y e) v) y st d
      | .go s2 c2 =>
        match checkStructs (clearStores v y q) (atStart v y q) with
        | .stop st d => endCmd v y st d
        | .wait => park v y none
        | .ok =>
          if (startCapBad (clearStores v y q) c2 || resvTooBig v (reservation (clearStores v y q) (atStart v y q))) = true then endCmd v y stBad (badAt 0 0xFF)
          else if resvLacks v (reservation (clearStores v y q) (atStart v y q)) = true then park v y (some 2)
          else match poisonAmong v _ _ with
            | some u => eccEnd _ _ u
            | none => startGo v s2 (atStart v y q) c2 q (reservation (clearStores v y q) (atStart v y q))) = _
  rw [poisonAmong_none hp]
  dsimp only
  split
  · rfl
  · rfl
  · split
    · rfl
    · rfl
    · split
      · rfl
      · split
        · rfl
        · rw [poisonAmong_none hp]

theorem tryStart_eq {v : State} {y : Cmd} {q : Place} {w w2 : State} {c1 c2 : Cmd} (hp : v.poison = []) (hok : verdict [checkOperands v y, checkLocks v y] = .ok)
    (hw : w = clearStores v y q) (hc1 : c1 = atStart v y q) (hgo : familyStart w c1 = .go w2 c2) (h0 : checkStructs w c1 = .ok) (h1 : startCapBad w c2 = false)
    (h2 : resvTooBig v (reservation w c1) = false) (h3 : resvLacks v (reservation w c1) = false) : tryStart v y q = startGo v w2 c1 c2 q (reservation w c1) := by
  subst hw hc1
  rw [tryStart_eqs hp hok, hgo]
  dsimp only
  unfold startBody
  rw [h0]
  dsimp only
  rw [h1, h2, if_neg (by decide), h3, if_neg (by decide)]

theorem tryStart_go {v : State} {y : Cmd} {q : Place} {w w2 : State} {c1 c2 b : Cmd} (hp : v.poison = []) (hok : verdict [checkOperands v y, checkLocks v y] = .ok)
    (hw : w = clearStores v y q) (hc1 : c1 = atStart v y q) (hgo : familyStart w c1 = .go w2 c2) (hb : findCmd w2 c2.id = some b) (hs : c2.self = b.self)
    (h0 : checkStructs w c1 = .ok) (h1 : startCapBad w c2 = false) (h2 : resvTooBig v (reservation w c1) = false)
    (h3 : resvLacks v (reservation w c1) = false) : ∃ z, findCmd (tryStart v y q) c2.id = some z ∧ z.self = c2.self ∧ z.phase = .running ∧
      z.place = c2.place ∧ z.runs = c2.runs + 1 ∧ z.started = v.time ∧ z.reserved = reservation w c1 ∧ z.pins = c2.pins ∧ z.snapMem = c2.snapMem ∧
      z.snapHost = c2.snapHost ∧ z.aux = c2.aux ∧ (∀ i, i ≠ c2.id → findCmd (tryStart v y q) i = findCmd w2 i) ∧
      Beside { w2 with ctxs := (tryStart v y q).ctxs, engines := (tryStart v y q).engines, serial := (tryStart v y q).serial } (tryStart v y q) := by
  rw [tryStart_eq hp hok hw hc1 hgo h0 h1 h2 h3]
  unfold startGo
  extract_lets s3 r src c3 s4
  have b5 : Beside s4 (traceRec s4 (min q.die 9) (trCmd s4 c3 c3.lastEng 2 (min c3.runs 255))) := traceRec_beside _ _ _ (Beside.refl s4)
  have m5 : SameCmds s4 (traceRec s4 (min q.die 9) (trCmd s4 c3 c3.lastEng 2 (min c3.runs 255))) := traceRec_sameCmds _ _ _ (SameCmds.refl s4)
  generalize traceRec s4 (min q.die 9) (trCmd s4 c3 c3.lastEng 2 (min c3.runs 255)) = s5 at *
  have b3 : Beside w2 s3 := Beside.foldl _ (Beside.refl w2) fun t x g => takeCopy_beside _ _ _ g
  have m3 : SameCmds w2 s3 := SameCmds.foldl _ (SameCmds.refl w2) fun t x g => takeCopy_sameCmds _ _ _ g
  have br : Beside w2 r.1 := endStall_beside _ _ b3
  have mr : SameCmds w2 r.1 := endStall_sameCmds _ _ m3
  obtain ⟨f, g, k, ek⟩ := endStall_kept s3 c2
  have ek' : r.2 = { c2 with waitFrom := f, stalled := g, stallFlag := k } := ek
  have hself : c3.self = c2.self := by show r.2.self = _; rw [ek']; rfl
  have hid : c3.id = c2.id := congrArg (·.1) hself
  have bput : Beside w2 (putCmd r.1 c3) := putCmd_beside _ _ (by rw [hself, hs]; exact List.mem_map_of_mem (List.mem_of_find?_eq_some hb)) br
  obtain ⟨n1, n2⟩ := noteStart_says (putCmd r.1 c3) c3 q
  have f5 : ∀ i, findCmd s5 i = findCmd (putCmd r.1 c3) i := fun i => by
    rw [findCmd_of m5]; unfold findCmd; show s4.cmds.find? _ = _; rw [n1]
  refine ⟨c3, ?_, hself, rfl, ?_, rfl, rfl, rfl, ?_, ?_, ?_, ?_, fun i hi => ?_, ?_⟩
  · rw [f5, ← hid]
    exact findCmd_put_same (b := b) (by rw [hid, findCmd_of mr]; exact hb)
  · show r.2.place = _; rw [ek']
  · show r.2.pins = _; rw [ek']
  · show r.2.snapMem = _; rw [ek']
  · show r.2.snapHost = _; rw [ek']
  · show r.2.aux = _; rw [ek']
  · rw [f5, findCmd_put_other (by rw [hid]; exact hi), findCmd_of mr]
  · have q1 : s5.ctxs = s4.ctxs := b5.ctxs
    have q2 : s5.engines = s4.engines := b5.engines
    rw [q1, q2]
    refine Beside.serial_ge (s := { w2 with ctxs := s4.ctxs, engines := s4.engines, serial := s4.serial }) ?_
    refine Beside.trans ?_ b5
    refine Beside.trans ?_ n2
    obtain ⟨⟩ := bput
    constructor <;> first | rfl | assumption

theorem execCommandStart_eq (cid : Nat) (s : State) : exec (.commandStart cid) s = .next (
    match findCmd (debtPass s) cid with
    | none => debtPass s
    | some x =>
      if ready (debtPass s) = false ∨ cmdReady (debtPass s) x = false ∨ jobHeld (debtPass s) x = true then debtPass s
      else
        match (if x.phase = .placed then x.place else placeFor (debtPass s) x) with
        | none => debtPass s
        | some p =>
          if startHeld (placedIn (debtPass s) { x with phase := .placed, place := some p }) { x with phase := .placed, place := some p } = true then
            placedIn (debtPass s) { x with phase := .placed, place := some p }
          else match startUnit (placedIn (debtPass s) { x with phase := .placed, place := some p }) { x with phase := .placed, place := some p } p with
            | none => placedIn (debtPass s) { x with phase := .placed, place := some p }
            | some u => tryStart (placedIn (debtPass s) { x with phase := .placed, place := some p }) { x with phase := .placed, place := some p } { p with unit := u }) := rfl

theorem execCommitPoint_eq {cid : Nat} {s : State} {c : Cmd} (h : findCmd s cid = some c) : exec (.commitPoint cid) s = .next (
    if c.phase ≠ .staged then s
    else if c.pkt.clsOp = 0x802 then lkSetCommit s c
    else if commitsByLenders c && lendersAcked c && !(c.pkt.cls == 9 && collAwaits s c) then commitWith (commitEff c) s (withFlags s c)
    else s) := by
  show Host.Outcome.next (match findCmd s cid with | none => s | some x => _) = _
  rw [h]

theorem execPublication_eq {cid : Nat} {s : State} {c : Cmd} (h : findCmd s cid = some c) : exec (.publicationComplete cid) s = .next (
    if c.phase ≠ .committed ∨ replyHeld s c = true then s
    else match findCmd (if c.pkt.clsOp = 0xF18 then fwFinish (publishHost (applySignal s c) c) c else publishHost (applySignal s c) c) cid with
      | none => (if c.pkt.clsOp = 0xF18 then fwFinish (publishHost (applySignal s c) c) c else publishHost (applySignal s c) c)
      | some x => finishCmd (if c.pkt.clsOp = 0xF18 then fwFinish (publishHost (applySignal s c) c) c else publishHost (applySignal s c) c) x) := by
  show Host.Outcome.next (match findCmd s cid with | none => s | some x => _) = _
  rw [h] <;> rfl

theorem publishWrites_none (s : State) (k : Nat) : publishWrites s k [] = s := by
  have h : unpoisonAll s.poison [] = s.poison := by
    unfold unpoisonAll
    rw [List.filter_eq_self]
    intro u _
    have : 0 < poisonSize u := by unfold poisonSize; split <;> decide
    simp
    exact ⟨0, this⟩
  show { s with poison := unpoisonAll s.poison [] } = s
  rw [h]

theorem switched_of {s t : State} {a b c n m} (h : Beside { s with ctxs := a, pfs := b, cmds := c, nextId := n, serial := m } t) : Switched s t :=
  { h with ctxs := rfl, pfs := rfl, nextId := rfl, serial := Nat.le_refl _, ids := rfl, same := fun _ hx => List.mem_map_of_mem hx }

theorem Switched.beside {s u t : State} (h : Switched s u) (g : Beside u t) : Switched s t := switched_of (Beside.trans h g)

theorem Switched.with {s u : State} (h : Switched s u) (a b c n m) : Switched s { u with ctxs := a, pfs := b, cmds := c, nextId := n, serial := m } :=
  { h with ctxs := rfl, pfs := rfl, nextId := rfl, serial := Nat.le_refl _, ids := rfl, same := fun _ hx => List.mem_map_of_mem hx }

theorem Switched.trans {s u t : State} (h : Switched s u) (g : Switched u t) : Switched s t :=
  switched_of (Beside.trans (h.with t.ctxs t.pfs t.cmds t.nextId t.serial) g)

theorem Switched.refl (s : State) : Switched s s := Beside.refl s

/-- Nothing has changed in the contexts. -/
def Still4 (s t : State) : Prop := Switched s t ∧ t.ctxs = s.ctxs

theorem Still4.refl (s : State) : Still4 s s := ⟨Switched.refl s, rfl⟩

theorem Still4.trans {a b c : State} (h : Still4 a b) (g : Still4 b c) : Still4 a c := ⟨h.1.trans g.1, g.2.trans h.2⟩

theorem Still4.beside {a b c : State} (h : Still4 a b) (g : Beside b c) : Still4 a c := ⟨h.1.beside g, g.ctxs.trans h.2⟩

theorem still4_fold {α : Type} {a : State} (f : State → α → State) (l : List α) (hf : ∀ s x, Still4 s (f s x)) (b : State) (h : Still4 a b) : Still4 a (l.foldl f b) := by
  induction l generalizing b with
  | nil => exact h
  | cons x l ih => exact ih _ (h.trans (hf b x))

theorem putCmd_still4 (s : State) (c : Cmd) : Still4 s (putCmd s c) := ⟨(Switched.refl s).with s.ctxs s.pfs (putCmd s c).cmds s.nextId s.serial, rfl⟩

theorem dropCmd_still4 (s : State) (i : Nat) : Still4 s (dropCmd s i) :=
  ⟨Beside.set (show Beside _ { s with cmds := (dropCmd s i).cmds } from (Switched.refl s).with s.ctxs s.pfs (dropCmd s i).cmds s.nextId s.serial), rfl⟩

theorem beginInit_still4 (s : State) (c : Cmd) : Still4 s (beginInit s c) := by
  unfold beginInit
  dsimp only
  split
  · exact dropCmd_still4 _ _
  · split
    · exact dropCmd_still4 _ _
    split
    · exact dropCmd_still4 _ _
    · split
      · exact Still4.refl s
      refine Still4.beside ?_ (startPromotion_beside _ _ _ _ (Beside.refl _))
      exact Still4.trans ⟨(Switched.refl s).with s.ctxs s.pfs s.cmds s.nextId (s.serial + 1), rfl⟩ (putCmd_still4 _ _)

theorem fillBasin_still4 (s : State) (d j r : Nat) : Still4 s (fillBasin s d j r) := by
  unfold fillBasin
  split
  · exact Still4.refl s
  · refine still4_fold _ _ (fun t a => ?_) _ (Still4.refl s)
    dsimp only
    split
    · exact Still4.refl t
    · split
      · exact Still4.refl t
      · refine Still4.trans ?_ (beginInit_still4 _ _)
        exact ⟨(Switched.refl t).with t.ctxs t.pfs _ _ t.serial, rfl⟩

theorem replace_still4 (s : State) (d : Nat) (c : Cmd) : Still4 s (replace s d c) := by
  unfold replace
  dsimp only
  split
  · exact (putCmd_still4 _ _).trans (putCmd_still4 _ _)
  · exact Still4.refl s

theorem debtPass_still4 (s : State) : Still4 s (debtPass s) := (Still4.refl s).beside (debtPass_beside s (Beside.refl s))

/-- Each context stays, with the dies on which it was suspended. -/
def Stays (l l' : List Ctx) (P : Ctx → Ctx → Prop) : Prop := ∀ x ∈ l, ∃ x' ∈ l', { x' with suspOn := x.suspOn } = x ∧ (∀ d ∈ x.suspOn, d ∈ x'.suspOn) ∧ P x x'

theorem suspendOn_says (s : State) (d j r : Nat) : Switched s (suspendOn s d j r) ∧
    (suspendOn s d j r).ctxs = s.ctxs.map (fun x => if x.job = j ∧ x.ring = r then { x with suspOn := without x.suspOn d ++ [d] } else x) := by
  unfold suspendOn
  extract_lets s1 s2
  have h1 : Switched s s1 := (Switched.refl s).with s1.ctxs s.pfs s.cmds s.nextId s.serial
  have b2 : Beside s1 s2 := killAll_beside _ _ (Beside.refl s1)
  have b3 : Beside s1 (count s2 d slotsDie 0x5B 1 none) := count_beside _ _ _ _ _ _ b2
  exact ⟨h1.beside b3, b3.ctxs⟩

theorem suspend_stays (l : List Ctx) (d j r : Nat) : Stays l (l.map (fun x => if x.job = j ∧ x.ring = r then { x with suspOn := without x.suspOn d ++ [d] } else x))
    (fun x x' => x.job = j → x.ring = r → d ∈ x'.suspOn) := by
  intro x hx
  refine ⟨_, List.mem_map_of_mem hx, ?_, ?_, ?_⟩
  · split <;> rfl
  · intro e he
    split
    · unfold without
      by_cases g : e = d
      · simp [g]
      · simp [he, g]
    · exact he
  · intro a b
    rw [if_pos ⟨a, b⟩]; simp

theorem Stays.trans {a b c : List Ctx} {P Q : Ctx → Ctx → Prop} (h : Stays a b P) (g : Stays b c Q) (hp : ∀ x y z : Ctx, P x y → { z with suspOn := y.suspOn } = y → (∀ d ∈ y.suspOn, d ∈ z.suspOn) → P x z) : Stays a c P := by
  intro x hx
  obtain ⟨y, hy, e1, d1, p1⟩ := h x hx
  obtain ⟨z, hz, e2, d2, p2⟩ := g y hy
  refine ⟨z, hz, ?_, fun d hd => d2 d (d1 d hd), hp x y z p1 e2 d2⟩
  rw [← e1, ← e2]

theorem yieldLoop_says (d : Nat) (c : Cmd) (n : Nat) (s : State) : Switched s (yieldLoop d c n s) ∧ Stays s.ctxs (yieldLoop d c n s).ctxs (fun _ _ => True) := by
  have base : ∀ s : State, Switched s s ∧ Stays s.ctxs s.ctxs (fun _ _ => True) := fun s => ⟨Switched.refl s, fun x hx => ⟨x, hx, rfl, fun _ h => h, trivial⟩⟩
  induction n generalizing s with
  | zero => exact base s
  | succ n ih =>
    unfold yieldLoop
    split
    · split
      · exact base s
      · next y hy =>
        obtain ⟨a, b⟩ := suspendOn_says s d y.pkt.job (ctxId s y)
        obtain ⟨a2, b2⟩ := ih (suspendOn s d y.pkt.job (ctxId s y))
        refine ⟨a.trans a2, ?_⟩
        rw [b] at b2
        exact Stays.trans (P := fun _ _ => True) (fun x hx => let ⟨z, h1, h2, h3, _⟩ := suspend_stays s.ctxs d y.pkt.job (ctxId s y) x hx; ⟨z, h1, h2, h3, trivial⟩) b2 (fun _ _ _ _ _ _ => trivial)
    · exact base s

theorem starvedFirst_says {s : State} {d : Nat} {c : Cmd} (h : starvedFirst s d = some c) : c ∈ s.cmds ∧ allTaken s c d = true := by
  unfold starvedFirst at h
  have key : ∀ (l : List Cmd) (b : Option Cmd), (∀ x ∈ l, x ∈ s.cmds ∧ allTaken s x d = true) → (∀ x, b = some x → x ∈ s.cmds ∧ allTaken s x d = true) →
      ∀ x, l.foldl (fun b x => match b with | none => some x | some y => if prioOf s x < prioOf s y then some x else b) b = some x → x ∈ s.cmds ∧ allTaken s x d = true := by
    intro l
    induction l with
    | nil => intro b _ hb x hx; exact hb x hx
    | cons a l ih =>
      intro b hl hb x hx
      rw [List.foldl_cons] at hx
      refine ih _ (fun y hy => hl y (List.mem_cons_of_mem _ hy)) ?_ x hx
      intro y hy
      cases b with
      | none => cases hy; exact hl _ List.mem_cons_self
      | some z =>
        dsimp only at hy
        split at hy
        · cases hy; exact hl _ List.mem_cons_self
        · exact hb y hy
  refine key _ none (fun x hx => ?_) (fun x hx => by cases hx) c h
  obtain ⟨h1, h2⟩ := List.mem_filter.mp hx
  refine ⟨h1, ?_⟩
  unfold starved at h2
  simp only [Bool.and_eq_true] at h2
  exact h2.1.2

abbrev selfs (s : State) := s.cmds.map Cmd.self

theorem selfs_eq {l l' : List Cmd} (hn : (l.map Cmd.id).Nodup) (hi : l'.map Cmd.id = l.map Cmd.id) (hs : ∀ x ∈ l', x.self ∈ l.map Cmd.self) : l'.map Cmd.self = l.map Cmd.self := by
  apply List.ext_getElem
  · have := congrArg List.length hi; simpa using this
  · intro i h1 h2
    simp only [List.length_map] at h1 h2
    simp only [List.getElem_map]
    obtain ⟨y, hy, e⟩ := List.mem_map.mp (hs l'[i] (List.getElem_mem h1))
    have e1 : l'[i].id = l[i].id := by
      have : (l'.map Cmd.id)[i]'(by simpa using h1) = (l.map Cmd.id)[i]'(by simpa using h2) := by simp only [hi]
      simpa using this
    obtain ⟨j, hj, ej⟩ := List.getElem_of_mem hy
    have e2 : y.id = l[i].id := by
      have : y.self.1 = l'[i].self.1 := by rw [e]
      exact this.trans e1
    have : j = i := by
      have := (List.getElem_inj (h₀ := by simpa using hj) (h₁ := by simpa using h2) hn).mp (by simp only [List.getElem_map]; rw [ej]; exact e2)
      exact this
    subst this
    rw [← e, ← ej]

theorem Beside.selfs {s t : State} (h : Beside s t) (hn : (s.cmds.map Cmd.id).Nodup) : t.cmds.map Cmd.self = s.cmds.map Cmd.self := selfs_eq hn h.ids h.same

theorem nodup_of_selfs {l l' : List Cmd} (hn : (l.map Cmd.id).Nodup) (h : l'.map Cmd.self = l.map Cmd.self) : (l'.map Cmd.id).Nodup := by
  have e : ∀ l : List Cmd, l.map Cmd.id = (l.map Cmd.self).map Prod.fst := fun l => by rw [List.map_map]; rfl
  rw [e, h, ← e]; exact hn

theorem ringFault_selfs (s : State) (r k : Nat) : selfs (ringFault s r k) = selfs s := by
  show (ringFault s r k).cmds.map Cmd.self = _
  rw [(ringFault_here s r k).cmds]
  split
  · rw [List.map_map]
    refine List.map_congr_left fun x _ => ?_
    dsimp only [Function.comp]
    split <;> rfl
  · rfl

theorem finishCmd_selfs (s : State) (c : Cmd) : selfs (finishCmd s c) = (s.cmds.filter (fun x => !(x.id == c.id))).map Cmd.self := by
  have h0 : selfs (leaving s c) = (s.cmds.filter (fun x => !(x.id == c.id))).map Cmd.self := rfl
  rw [← h0, finishCmd_eq]
  have hrg : getRing (leaving s c) = getRing s := rfl
  generalize leaving s c = w at *
  split
  · next r hr =>
    refine (congrArg (List.map Cmd.self) (endUnbind_says _ r).1).trans ?_
    split
    · rfl
    · rw [writeReply_eq]
      split
      · have := ringFault_selfs w r 0
        generalize ringFault w r 0 = x at *
        exact this
      · refine (congrArg (List.map Cmd.self) (replyTell_says _ r _).1).trans ?_
        have := (replyStore_says w r (replyBytes c)).1
        generalize replyStore w r (replyBytes c) = x at *
        exact congrArg (List.map Cmd.self) this
  · rfl

/-- The end of a ring's command leaves every other ring's command. -/
theorem endCmd_selfs {s : State} {c : Cmd} {r : Nat} (ho : c.origin = .ring r) (status detail : Nat) (hn : (s.cmds.map Cmd.id).Nodup) :
    ∀ z ∈ s.cmds, z.id ≠ c.id → (∃ k, z.origin = .ring k) → z.self ∈ (endCmd s c status detail).cmds.map Cmd.self := by
  obtain ⟨u, c', v, bu, qu, i1, i2, i3, i4, i5, i6, i7, i8, i9, i10, bv, qv, e⟩ := endCmd_parts s c status detail
  intro z hz hi hk
  rw [ho] at e
  dsimp only at e
  have h1 : u.cmds.map Cmd.self = s.cmds.map Cmd.self := bu.selfs hn
  have n1 := nodup_of_selfs hn h1
  have n2 : ((finishCmd u c').cmds.map Cmd.id).Nodup := by
    have := (finishCmd_selfs u c')
    refine nodup_of_selfs (l := u.cmds.filter (fun x => !(x.id == c'.id))) ?_ this
    exact List.Nodup.sublist (List.Sublist.map _ List.filter_sublist) n1
  have h2 : v.cmds.map Cmd.self = (finishCmd u c').cmds.map Cmd.self := bv.selfs n2
  have n3 := nodup_of_selfs n2 h2
  have m1 : z.self ∈ v.cmds.map Cmd.self := by
    rw [h2]
    rw [show (finishCmd u c').cmds.map Cmd.self = _ from finishCmd_selfs u c']
    obtain ⟨y, hy, ey⟩ := List.mem_map.mp (show z.self ∈ u.cmds.map Cmd.self by rw [h1]; exact List.mem_map_of_mem hz)
    rw [← ey]
    refine List.mem_map_of_mem (List.mem_filter.mpr ⟨hy, ?_⟩)
    have : y.id = z.id := congrArg (·.1) ey
    rw [this, i1]; simpa using hi
  rw [e]
  unfold endCopies
  dsimp only
  have b4 : Beside v ((v.cmds.filter (copyOf c.id)).foldl releaseRun v) := Beside.foldl _ (Beside.refl v) fun _ _ g => releaseRun_beside _ _ g
  have h4 := b4.selfs n3
  rw [← h4] at m1
  obtain ⟨y, hy, ey⟩ := List.mem_map.mp m1
  rw [← ey]
  refine List.mem_map_of_mem (List.mem_filter.mpr ⟨hy, ?_⟩)
  obtain ⟨k, hk⟩ := hk
  have : y.origin = z.origin := congrArg (·.2.2.1) ey
  unfold copyOf
  rw [this, hk]
  rfl

/-- The reply of a command that ends, and what observes after it. -/
theorem endCmd_still {s : State} {c : Cmd} {r : Nat} (ho : c.origin = .ring r) (hn : c.noReply = false) (ht : (gaddrOf (getRing s r).reply).tier ≠ 5) (status detail : Nat) (st : Still s) :
    Still (endCmd s c status detail) := by
  obtain ⟨u, c', v, bu, qu, i1, i2, i3, i4, i5, i6, i7, i8, i9, i10, bv, qv, e⟩ := endCmd_parts s c status detail
  rw [ho] at e
  dsimp only at e
  rw [e]
  have hrg : ∀ k, getRing u k = getRing s k := fun k => by unfold getRing; rw [bu.rings]
  have sf := ((finishCmd_reply (s := u) (c := c') (r := r) (i4.trans ho) (i5.trans hn) (by rw [hrg]; exact ht)).2 (qu st).2.2).2.2
  have sv := (qv sf).2.2
  unfold endCopies
  dsimp only
  have := ((Quiet.foldl (g := releaseRun) (v.cmds.filter (copyOf c.id)) (Quiet.refl v) fun _ _ g => releaseRun_quiet _ _ g) sv).2.2
  exact Still.of (x := (v.cmds.filter (copyOf c.id)).foldl releaseRun v) rfl rfl rfl rfl this

theorem abortRun_own {s : State} {c : Cmd} (h : abortJob c = 0 ∨ (∃ j, findJob s (abortJob c) = some j ∧ j.sess = c.sess)) :
    abortRun s c = match abortTarget s c with
      | some x => if x.phase = .committed then .done { Stg.none with status := stTooLate } else .done Stg.none
      | none =>
        if !(ringsHolding s c.sess (abortJob c) (abortSeq c)).isEmpty then .done Stg.none
        else if s.ended.contains (c.sess, abortJob c, abortSeq c) then .done { Stg.none with status := stTooLate }
        else .stop stBad (badAt 24 0) [] := by
  unfold abortRun
  refine (if_neg ?_).trans rfl
  rintro ⟨h1, h2⟩
  rcases h with g | ⟨j, g1, g2⟩
  · exact h1 g
  · rw [g1] at h2; simp [g2] at h2

theorem abortEff_late (u : State) (c : Cmd) (h : c.status ≠ stDone) : abortEff u c = u := by unfold abortEff; rw [if_pos h]

def aborts (c : Cmd) (p : Nat × Packet × Origin × Nat × List (Option Shape)) : Bool :=
  p.1 != c.id && p.2.1.job == abortJob c && p.2.1.seq == abortSeq c && (match p.2.2.1 with | .ring _ => true | _ => false) && (abortJob c != 0 || p.2.2.2.1 == c.sess)

theorem abortTarget_eq (s : State) (c : Cmd) : abortTarget s c = s.cmds.find? (fun x => aborts c x.self) := rfl

theorem find_selfs {l l' : List Cmd} (h : l'.map Cmd.self = l.map Cmd.self) (p : Nat × Packet × Origin × Nat × List (Option Shape) → Bool) : (l'.find? (fun x => p x.self)).map Cmd.self = (l.find? (fun x => p x.self)).map Cmd.self := by
  have key : ∀ l : List Cmd, (l.find? (fun x => p x.self)).map Cmd.self = (l.map Cmd.self).find? p := by
    intro l
    rw [List.find?_map]; rfl
  rw [key, key, h]

/-- What an abort marks. -/
def marking (job seq : Nat) (s : State) (r : Nat) : State := setRing s r { getRing s r with marks := (getRing s r).marks ++ entriesHolding s r job seq }

theorem holding_other {s : State} {r k job seq : Nat} (x : Ring) (h : k ≠ r) : entriesHolding (setRing s r x) k job seq = entriesHolding s k job seq := by
  have hg : getRing (setRing s r x) k = getRing s k := by rw [getRing_setRing', if_neg (Ne.symm h)]
  unfold entriesHolding entryHeld sealedArea ringKey
  rw [hg]
  rfl

theorem marking_fold (job seq : Nat) (l : List Nat) (hn : l.Nodup) (s : State) : ∃ R, l.foldl (marking job seq) s = { s with rings := R } ∧
    ∀ k, getRing (l.foldl (marking job seq) s) k = if k ∈ l then { getRing s k with marks := (getRing s k).marks ++ entriesHolding s k job seq } else getRing s k := by
  induction l generalizing s with
  | nil => exact ⟨s.rings, rfl, fun k => by simp⟩
  | cons a l ih =>
    obtain ⟨hn1, hn2⟩ := List.nodup_cons.mp hn
    obtain ⟨R, e, h⟩ := ih hn2 (marking job seq s a)
    refine ⟨R, by rw [List.foldl_cons, e]; rfl, fun k => ?_⟩
    rw [List.foldl_cons, h]
    by_cases ha : k = a
    · subst ha
      rw [if_neg hn1, if_pos (by simp)]
      unfold marking; rw [getRing_setRing', if_pos rfl]
    · have hg : getRing (marking job seq s a) k = getRing s k := by unfold marking; rw [getRing_setRing', if_neg (Ne.symm ha)]
      have he : entriesHolding (marking job seq s a) k job seq = entriesHolding s k job seq := holding_other _ ha
      rw [hg, he]
      simp only [List.mem_cons, ha, false_or]

theorem near_status (n : Nat) : Near { Stg.none with status := n } := ⟨rfl, rfl, fun _ h => absurd h (by simp [Stg.none])⟩

end Sys2Proof.Machine
end

