-- ==== Sys2Proof/WellFormed.lean ====
section
/-! DEFINITION. Well-formed commands: every operand within the range of the thing it names. The meanings are total:
an ill-formed command has one too (an object out of range is an object that does not exist). -/

namespace Sys2Proof

/-- The unit exists (R29, R12, R17, R27). -/
def HwUnit.wf : HwUnit → Bool
  | .core k => decide (k < 512)
  | .root i => decide (i < 64)
  | .move i => decide (i < 128)
  | .basin i => decide (i < 32)
  | .pchan i => decide (i < 2048)
  | .port p => decide (p < 36)
  | .hamir d t => decide (d < 8) && decide (t < 16)
  | .shared d => decide (d < 8)
  | .d2d a b => Machine.d2dPort a b
  | .wharf k => decide (k < 2)
  | .mgmt => true

/-- The window exists. -/
def Via.wf : Via → Bool
  | .sessionPage s => decide (s < 64)
  | .hamir d => decide (d < 8)
  | .privMap | .bar0 | .i3c => true

/-- The fields of a message header fit their bits (R337). -/
def MsgHdr.wf (m : MsgHdr) : Bool :=
  decide (m.dst < 4096) && decide (m.src < 4096) && decide (m.hops < 16) && decide (m.typ < 256) && decide (m.tc < 8) &&
  decide (m.job < 65536)

/-- The fields of a flit fit their bits (R333). -/
def Flit.wf (f : Flit) : Bool :=
  decide (f.seq < 4096) && decide (f.ack < 4096) && decide (f.kind < 4) && decide (f.tc < 8) && decide (f.crc < 2 ^ 32)

/-- A credit record has one count for each class (R335). -/
def CreditRec.wf (c : CreditRec) : Bool := decide (c.freed.length = 8)

/-- Every operand of a command is in range. -/
def Instr.wf : Instr → Bool
  | .fwd _ | .dgrad _ | .wgrad _ | .wgradRowmask _ | .wgradBlkmask _ | .cov _ | .flightPush _ | .flightPop _
  | .flightInit _ | .add _ | .sub _ | .mul _ | .div _ | .fma _ | .max _ | .min _ | .abs _ | .sqrt _ | .rsqrt _
  | .recip _ | .exp _ | .exp2 _ | .log _ | .log2 _ | .tanh _ | .sigmoid _ | .erf _ | .convert _ | .resAdd _
  | .sumRows _ | .maxRows _ | .minRows _ | .dotRows _ | .norm2Rows _ | .softmaxRows _ | .fsetInit _
  | .fsetAdvance _ | .fsetRefresh _ | .rootNewton _ | .rootChol _ | .cholFactor _ | .rootDeadline _ _ _ _
  | .solveCg _ | .solvePcg _ | .solveBicgstab _ | .solveDeadline _ _ _ _ | .updFirst _ | .updDiag _
  | .updPrecond _ | .shardInit _ | .schedLoad _ | .gather _ | .digestCheck _ | .copy _ | .convertBarge _
  | .fill _ | .resPoolInit _ | .resCreate _ | .resPromote _ | .resEvict _ | .resPin _ | .resUnpin _
  | .resDestroy _ | .pfStart _ | .pfStop _ | .pfResume _ | .prefetchIssue _ | .promotionCommit _
  | .promotionResume _ | .lkSignal _ | .lkSet _ | .lkRead _ | .lkNop _ | .allReduce _ | .reduceScatter _
  | .allGather _ | .broadcast _ | .reduceToOwner _ | .globalNorm _ | .permute _ | .barrier _
  | .collectiveDeadline _ | .permuteFlip _ | .censusSetup _ | .censusStop _ | .watchSetup _ | .watchStop _
  | .twatchSetup _ | .twatchStop _ | .testCore _ | .testRoot _ | .testMove _ | .testBasin _ | .calHbm _
  | .calPort _ | .jobSubmit _ | .jobEnd _ | .jobSuspend _ | .jobResume _ | .cmdAbort _ | .lockGrant _
  | .lockRelease _ | .loanGrant _ | .loanReturn _ | .hostbufReg _ | .hostbufUnreg _ | .modeStage _
  | .dieFence _ | .fwUpdate _ _ _ | .checkpoint _ | .shardCopy _ | .dumpBuffer _ | .attest _ | .commandStart _
  | .commitPoint _ | .publicationComplete _ | .modeAckTimeout _ | .stagedModeExpiry _ | .modeStartHold _
  | .modeApply _ | .powerChangeRetry | .spdmRequest _ | .configRequest _ _ | .hdmRead _ _ | .hdmWrite _ _
  | .snoop _ | .cxlLinkDown _ | .cxlLinkUp _ _ _ | .announceTimer | .timeTimer | .heartbeatTimer
  | .timeUnlocked | .scrubRead _ _ | .fatalError _ | .inputSample _ | .temperatureSample _ _ _ _ | .pwrEnAssert
  | .powerGood | .pwrEnDeassert | .shutdownTimeout | .standbyEntered | .inputLoss | .modResetN _ | .moduleReset
  | .standby | .i3cReadPointer _ | .dynamicAddressAssignment _ | .imageVerified _
  | .diesReleased _ _ | .hbmTrainingDone _ | .initialisationDone | .towpathResolved | .extest | .samplePreload
  | .idcode | .highz | .clamp | .extestPulse | .extestTrain | .dbgAccess | .bypass | .trstN
  | .hdmDecoderCommit _ _ | .hotSwapRetry | .testLogicReset => true
  | .configVerified _ rec => (match rec with | some r => r.poundsOk | none => true)
  | .poundDrain die => decide (die < 8)
  | .testResult unit r => unit.wf && decide (r.lanes < 16)
  | .testRotation unit => unit.wf
  | .dieUnfence _ failed => failed.all HwUnit.wf
  | .ringFetch ring => decide (ring < 128)
  | .preemption die => decide (die < 8)
  | .contextResume die ctx => decide (die < 8) && decide (ctx < 128)
  | .sesPskStart input => decide (input.length ≤ 4096)
  | .sesPskFinish input => decide (input.length ≤ 4096)
  | .sesPakeStart input => decide (input.length ≤ 4096)
  | .sesPakeFinish input => decide (input.length ≤ 4096)
  | .sesClose input => decide (input.length ≤ 4096)
  | .sessionSlotExpiry slot => decide (slot < 64)
  | .jobLink input => decide (input.length ≤ 4096)
  | .ownerEnroll input => decide (input.length ≤ 4096)
  | .ownerRelease input => decide (input.length ≤ 4096)
  | .debugUnlock input => decide (input.length ≤ 4096)
  | .idCerts input => decide (input.length ≤ 4096)
  | .sesExport input => decide (input.length ≤ 4096)
  | .ringBind input => decide (input.length ≤ 4096)
  | .ringUnbind input => decide (input.length ≤ 4096)
  | .hdmBind input => decide (input.length ≤ 4096)
  | .hdmUnbind input => decide (input.length ≤ 4096)
  | .privMap input => decide (input.length ≤ 4096)
  | .eventRead input => decide (input.length ≤ 4096)
  | .ringCfg via ring value => via.wf && decide (ring < 128) && decide (value < 2 ^ 32)
  | .ringTail via ring value => via.wf && decide (ring < 128) && decide (value < 2 ^ 32)
  | .registerWrite via _ width value => via.wf && (width == 1 || width == 2 || width == 4 || width == 8) && decide (value < 2 ^ 64)
  | .registerReadClear via _ width => via.wf && (width == 1 || width == 2 || width == 4 || width == 8)
  | .sicTake die target source _ => decide (die < 10) && decide (target < 16) && decide (source < 1024)
  | .sicEoi die target source => decide (die < 10) && decide (target < 16) && decide (source < 1024)
  | .sicPendSet die w value => decide (die < 10) && decide (w < 32) && decide (value < 2 ^ 32)
  | .sicPendClr die w value => decide (die < 10) && decide (w < 32) && decide (value < 2 ^ 32)
  | .sicEnSet die w value => decide (die < 10) && decide (w < 32) && decide (value < 2 ^ 32)
  | .sicEnClr die w value => decide (die < 10) && decide (w < 32) && decide (value < 2 ^ 32)
  | .sicSrcCfg die source value => decide (die < 10) && decide (source < 1024) && decide (value < 2 ^ 32)
  | .sicSrcMod die source value => decide (die < 10) && decide (source < 1024) && decide (value < 2 ^ 32)
  | .sicTgtCtrl die target value => decide (die < 10) && decide (target < 16) && decide (value < 2 ^ 32)
  | .sourceFire die source => decide (die < 10) && decide (source < 1024)
  | .moderationTimer die source => decide (die < 10) && decide (source < 1024)
  | .targetIdle die target => decide (die < 10) && decide (target < 16)
  | .cntCtrl die value => decide (die < 10) && decide (value < 2 ^ 32)
  | .cntClear die value => decide (die < 10) && decide (value < 2 ^ 32)
  | .counterFreeze die => decide (die < 10)
  | .trCtrl die value => decide (die < 10) && decide (value < 2 ^ 32)
  | .trTrigNow die value => decide (die < 10) && decide (value < 2 ^ 32)
  | .trMark die value => decide (die < 10) && decide (value < 2 ^ 32)
  | .portCtrl port value => decide (port < 36) && decide (value < 2 ^ 32)
  | .portCredit port value => decide (port < 36) && decide (value < 2 ^ 64)
  | .flitReceive port flit => decide (port < 36) && flit.wf
  | .controlFlit port k cr => decide (port < 36) && decide (k < 4096) && cr.wf
  | .controlFlitTimer port => decide (port < 36)
  | .laneFailure port lane => decide (port < 36) && decide (lane < 4)
  | .portTrainingDone port _ farPeer => decide (port < 36) && decide (farPeer < 4096)
  | .portRetrain port => decide (port < 36)
  | .messageForward port m => decide (port < 36) && m.wf
  | .readReq m _ _ _ => m.wf
  | .readResp m _ _ => m.wf
  | .write m _ _ => m.wf
  | .collData m _ _ _ _ => m.wf
  | .stagedAck m => m.wf
  | .commit m => m.wf
  | .cancel m => m.wf
  | .lockSignal m lock amount => m.wf && decide (lock < 16384) && decide (amount < 2 ^ 32)
  | .collJoin m _ _ _ _ _ => m.wf
  | .collSet m _ _ _ _ _ => m.wf
  | .collLate m _ _ _ _ _ => m.wf
  | .collFlip m _ _ _ _ => m.wf
  | .authNak m => m.wf
  | .time m port _ _ => m.wf && decide (port < 36)
  | .pdelay m port _ => m.wf && decide (port < 36)
  | .announce m _ => m.wf
  | .hello m port => m.wf && decide (port < 36)
  | .heartbeat m => m.wf
  | .member m _ => m.wf
  | .lost m peer => m.wf && decide (peer < 4096)
  | .stage m _ _ _ _ items _ => m.wf && decide (items.length ≤ 7)
  | .ack m _ _ => m.wf
  | .openMsg m _ _ => m.wf
  | .discard m _ => m.wf
  | .loanEnd m => m.wf
  | .pdelayTimer port => decide (port < 36)
  | .peerLost peer => decide (peer < 4096)
  | .unitInternalError unit => unit.wf
  | .selfTestDone failed => failed.all HwUnit.wf
  | .dbgSelect die => decide (die < 16)
  | .pwrCtrl via value => via.wf && decide (value < 2 ^ 32)
  | .hbmInterfaceLost stack => decide (stack < 32)

end Sys2Proof
end

