-- ==== Sys2Proof/Laws/PerInstr.lean ====
section
/-! SUPPORT. Statements about every command as syntax, one lemma for each constructor. -/

namespace Sys2Proof

/-- The compute and wharf dies that a command names by number (R13, R26). -/
def Instr.dies : Instr → List Nat
  | .poundDrain die => [die]
  | .preemption die => [die]
  | .contextResume die _ => [die]
  | .sicTake die _ _ _ => [die]
  | .sicEoi die _ _ => [die]
  | .sicPendSet die _ _ => [die]
  | .sicPendClr die _ _ => [die]
  | .sicEnSet die _ _ => [die]
  | .sicEnClr die _ _ => [die]
  | .sicSrcCfg die _ _ => [die]
  | .sicSrcMod die _ _ => [die]
  | .sicTgtCtrl die _ _ => [die]
  | .sourceFire die _ => [die]
  | .moderationTimer die _ => [die]
  | .targetIdle die _ => [die]
  | .cntCtrl die _ => [die]
  | .cntClear die _ => [die]
  | .counterFreeze die => [die]
  | .trCtrl die _ => [die]
  | .trTrigNow die _ => [die]
  | .trMark die _ => [die]
  | _ => []

/-- The Towpath ports that a command names by number (R325). -/
def Instr.ports : Instr → List Nat
  | .portCtrl port _ => [port]
  | .portCredit port _ => [port]
  | .flitReceive port _ => [port]
  | .controlFlit port _ _ => [port]
  | .controlFlitTimer port => [port]
  | .laneFailure port _ => [port]
  | .portTrainingDone port _ _ => [port]
  | .portRetrain port => [port]
  | .messageForward port _ => [port]
  | .time _ port _ _ => [port]
  | .pdelay _ port _ => [port]
  | .hello _ port => [port]
  | .pdelayTimer port => [port]
  | _ => []

/-- The mailbox input that a command carries. -/
def Instr.mail : Instr → List Byte
  | .sesPskStart input => input
  | .sesPskFinish input => input
  | .sesPakeStart input => input
  | .sesPakeFinish input => input
  | .sesClose input => input
  | .jobLink input => input
  | .ownerEnroll input => input
  | .ownerRelease input => input
  | .debugUnlock input => input
  | .idCerts input => input
  | .sesExport input => input
  | .ringBind input => input
  | .ringUnbind input => input
  | .hdmBind input => input
  | .hdmUnbind input => input
  | .privMap input => input
  | .eventRead input => input
  | _ => []

namespace Laws.Wf

/-- A well-formed command names a die and a port that exist, and its mailbox input fits the payload. -/
def Statement (i : Instr) : Prop := i.wf = true → (∀ d ∈ i.dies, d < 10) ∧ (∀ p ∈ i.ports, p < 36) ∧ i.mail.length ≤ 4096

theorem plain (i : Instr) (h : i.dies = []) (k : i.ports = []) (m : i.mail = []) : Statement i := by
  intro _; rw [h, k, m]; simp

theorem fwd (x0 : Nat) : Statement (.fwd x0) := plain _ rfl rfl rfl
theorem dgrad (x0 : Nat) : Statement (.dgrad x0) := plain _ rfl rfl rfl
theorem wgrad (x0 : Nat) : Statement (.wgrad x0) := plain _ rfl rfl rfl
theorem wgradRowmask (x0 : Nat) : Statement (.wgradRowmask x0) := plain _ rfl rfl rfl
theorem wgradBlkmask (x0 : Nat) : Statement (.wgradBlkmask x0) := plain _ rfl rfl rfl
theorem cov (x0 : Nat) : Statement (.cov x0) := plain _ rfl rfl rfl
theorem flightPush (x0 : Nat) : Statement (.flightPush x0) := plain _ rfl rfl rfl
theorem flightPop (x0 : Nat) : Statement (.flightPop x0) := plain _ rfl rfl rfl
theorem flightInit (x0 : Nat) : Statement (.flightInit x0) := plain _ rfl rfl rfl
theorem add (x0 : Nat) : Statement (.add x0) := plain _ rfl rfl rfl
theorem sub (x0 : Nat) : Statement (.sub x0) := plain _ rfl rfl rfl
theorem mul (x0 : Nat) : Statement (.mul x0) := plain _ rfl rfl rfl
theorem div (x0 : Nat) : Statement (.div x0) := plain _ rfl rfl rfl
theorem fma (x0 : Nat) : Statement (.fma x0) := plain _ rfl rfl rfl
theorem max (x0 : Nat) : Statement (.max x0) := plain _ rfl rfl rfl
theorem min (x0 : Nat) : Statement (.min x0) := plain _ rfl rfl rfl
theorem abs (x0 : Nat) : Statement (.abs x0) := plain _ rfl rfl rfl
theorem sqrt (x0 : Nat) : Statement (.sqrt x0) := plain _ rfl rfl rfl
theorem rsqrt (x0 : Nat) : Statement (.rsqrt x0) := plain _ rfl rfl rfl
theorem recip (x0 : Nat) : Statement (.recip x0) := plain _ rfl rfl rfl
theorem exp (x0 : Nat) : Statement (.exp x0) := plain _ rfl rfl rfl
theorem exp2 (x0 : Nat) : Statement (.exp2 x0) := plain _ rfl rfl rfl
theorem log (x0 : Nat) : Statement (.log x0) := plain _ rfl rfl rfl
theorem log2 (x0 : Nat) : Statement (.log2 x0) := plain _ rfl rfl rfl
theorem tanh (x0 : Nat) : Statement (.tanh x0) := plain _ rfl rfl rfl
theorem sigmoid (x0 : Nat) : Statement (.sigmoid x0) := plain _ rfl rfl rfl
theorem erf (x0 : Nat) : Statement (.erf x0) := plain _ rfl rfl rfl
theorem convert (x0 : Nat) : Statement (.convert x0) := plain _ rfl rfl rfl
theorem resAdd (x0 : Nat) : Statement (.resAdd x0) := plain _ rfl rfl rfl
theorem sumRows (x0 : Nat) : Statement (.sumRows x0) := plain _ rfl rfl rfl
theorem maxRows (x0 : Nat) : Statement (.maxRows x0) := plain _ rfl rfl rfl
theorem minRows (x0 : Nat) : Statement (.minRows x0) := plain _ rfl rfl rfl
theorem dotRows (x0 : Nat) : Statement (.dotRows x0) := plain _ rfl rfl rfl
theorem norm2Rows (x0 : Nat) : Statement (.norm2Rows x0) := plain _ rfl rfl rfl
theorem softmaxRows (x0 : Nat) : Statement (.softmaxRows x0) := plain _ rfl rfl rfl
theorem fsetInit (x0 : Nat) : Statement (.fsetInit x0) := plain _ rfl rfl rfl
theorem fsetAdvance (x0 : Nat) : Statement (.fsetAdvance x0) := plain _ rfl rfl rfl
theorem fsetRefresh (x0 : Nat) : Statement (.fsetRefresh x0) := plain _ rfl rfl rfl
theorem rootNewton (x0 : Nat) : Statement (.rootNewton x0) := plain _ rfl rfl rfl
theorem rootChol (x0 : Nat) : Statement (.rootChol x0) := plain _ rfl rfl rfl
theorem cholFactor (x0 : Nat) : Statement (.cholFactor x0) := plain _ rfl rfl rfl
theorem rootDeadline (x0 : Nat) (x1 : Nat) (x2 : Nat) (x3 : Bool) : Statement (.rootDeadline x0 x1 x2 x3) := plain _ rfl rfl rfl
theorem solveCg (x0 : Nat) : Statement (.solveCg x0) := plain _ rfl rfl rfl
theorem solvePcg (x0 : Nat) : Statement (.solvePcg x0) := plain _ rfl rfl rfl
theorem solveBicgstab (x0 : Nat) : Statement (.solveBicgstab x0) := plain _ rfl rfl rfl
theorem solveDeadline (x0 : Nat) (x1 : Nat) (x2 : Nat) (x3 : Bool) : Statement (.solveDeadline x0 x1 x2 x3) := plain _ rfl rfl rfl
theorem updFirst (x0 : Nat) : Statement (.updFirst x0) := plain _ rfl rfl rfl
theorem updDiag (x0 : Nat) : Statement (.updDiag x0) := plain _ rfl rfl rfl
theorem updPrecond (x0 : Nat) : Statement (.updPrecond x0) := plain _ rfl rfl rfl
theorem shardInit (x0 : Nat) : Statement (.shardInit x0) := plain _ rfl rfl rfl
theorem schedLoad (x0 : Nat) : Statement (.schedLoad x0) := plain _ rfl rfl rfl
theorem gather (x0 : Nat) : Statement (.gather x0) := plain _ rfl rfl rfl
theorem digestCheck (x0 : Nat) : Statement (.digestCheck x0) := plain _ rfl rfl rfl
theorem copy (x0 : Nat) : Statement (.copy x0) := plain _ rfl rfl rfl
theorem convertBarge (x0 : Nat) : Statement (.convertBarge x0) := plain _ rfl rfl rfl
theorem fill (x0 : Nat) : Statement (.fill x0) := plain _ rfl rfl rfl
theorem resPoolInit (x0 : Nat) : Statement (.resPoolInit x0) := plain _ rfl rfl rfl
theorem resCreate (x0 : Nat) : Statement (.resCreate x0) := plain _ rfl rfl rfl
theorem resPromote (x0 : Nat) : Statement (.resPromote x0) := plain _ rfl rfl rfl
theorem resEvict (x0 : Nat) : Statement (.resEvict x0) := plain _ rfl rfl rfl
theorem resPin (x0 : Nat) : Statement (.resPin x0) := plain _ rfl rfl rfl
theorem resUnpin (x0 : Nat) : Statement (.resUnpin x0) := plain _ rfl rfl rfl
theorem resDestroy (x0 : Nat) : Statement (.resDestroy x0) := plain _ rfl rfl rfl
theorem pfStart (x0 : Nat) : Statement (.pfStart x0) := plain _ rfl rfl rfl
theorem pfStop (x0 : Nat) : Statement (.pfStop x0) := plain _ rfl rfl rfl
theorem pfResume (x0 : Nat) : Statement (.pfResume x0) := plain _ rfl rfl rfl
theorem prefetchIssue (x0 : Nat) : Statement (.prefetchIssue x0) := plain _ rfl rfl rfl
theorem promotionCommit (x0 : Nat) : Statement (.promotionCommit x0) := plain _ rfl rfl rfl
theorem promotionResume (x0 : Nat) : Statement (.promotionResume x0) := plain _ rfl rfl rfl
theorem poundDrain (x0 : Nat) : Statement (.poundDrain x0) := by
  change ((decide (x0 < 8)) = true) → (∀ d ∈ ([x0] : List Nat), d < 10) ∧ (∀ p ∈ ([] : List Nat), p < 36) ∧ (([] : List Byte)).length ≤ 4096
  simp; omega
theorem lkSignal (x0 : Nat) : Statement (.lkSignal x0) := plain _ rfl rfl rfl
theorem lkSet (x0 : Nat) : Statement (.lkSet x0) := plain _ rfl rfl rfl
theorem lkRead (x0 : Nat) : Statement (.lkRead x0) := plain _ rfl rfl rfl
theorem lkNop (x0 : Nat) : Statement (.lkNop x0) := plain _ rfl rfl rfl
theorem allReduce (x0 : Nat) : Statement (.allReduce x0) := plain _ rfl rfl rfl
theorem reduceScatter (x0 : Nat) : Statement (.reduceScatter x0) := plain _ rfl rfl rfl
theorem allGather (x0 : Nat) : Statement (.allGather x0) := plain _ rfl rfl rfl
theorem broadcast (x0 : Nat) : Statement (.broadcast x0) := plain _ rfl rfl rfl
theorem reduceToOwner (x0 : Nat) : Statement (.reduceToOwner x0) := plain _ rfl rfl rfl
theorem globalNorm (x0 : Nat) : Statement (.globalNorm x0) := plain _ rfl rfl rfl
theorem permute (x0 : Nat) : Statement (.permute x0) := plain _ rfl rfl rfl
theorem barrier (x0 : Nat) : Statement (.barrier x0) := plain _ rfl rfl rfl
theorem collectiveDeadline (x0 : Nat) : Statement (.collectiveDeadline x0) := plain _ rfl rfl rfl
theorem permuteFlip (x0 : Nat) : Statement (.permuteFlip x0) := plain _ rfl rfl rfl
theorem censusSetup (x0 : Nat) : Statement (.censusSetup x0) := plain _ rfl rfl rfl
theorem censusStop (x0 : Nat) : Statement (.censusStop x0) := plain _ rfl rfl rfl
theorem watchSetup (x0 : Nat) : Statement (.watchSetup x0) := plain _ rfl rfl rfl
theorem watchStop (x0 : Nat) : Statement (.watchStop x0) := plain _ rfl rfl rfl
theorem twatchSetup (x0 : Nat) : Statement (.twatchSetup x0) := plain _ rfl rfl rfl
theorem twatchStop (x0 : Nat) : Statement (.twatchStop x0) := plain _ rfl rfl rfl
theorem testCore (x0 : Nat) : Statement (.testCore x0) := plain _ rfl rfl rfl
theorem testRoot (x0 : Nat) : Statement (.testRoot x0) := plain _ rfl rfl rfl
theorem testMove (x0 : Nat) : Statement (.testMove x0) := plain _ rfl rfl rfl
theorem testBasin (x0 : Nat) : Statement (.testBasin x0) := plain _ rfl rfl rfl
theorem calHbm (x0 : Nat) : Statement (.calHbm x0) := plain _ rfl rfl rfl
theorem calPort (x0 : Nat) : Statement (.calPort x0) := plain _ rfl rfl rfl
theorem testResult (x0 : HwUnit) (x1 : TestOutcome) : Statement (.testResult x0 x1) := plain _ rfl rfl rfl
theorem testRotation (x0 : HwUnit) : Statement (.testRotation x0) := plain _ rfl rfl rfl
theorem jobSubmit (x0 : Nat) : Statement (.jobSubmit x0) := plain _ rfl rfl rfl
theorem jobEnd (x0 : Nat) : Statement (.jobEnd x0) := plain _ rfl rfl rfl
theorem jobSuspend (x0 : Nat) : Statement (.jobSuspend x0) := plain _ rfl rfl rfl
theorem jobResume (x0 : Nat) : Statement (.jobResume x0) := plain _ rfl rfl rfl
theorem cmdAbort (x0 : Nat) : Statement (.cmdAbort x0) := plain _ rfl rfl rfl
theorem lockGrant (x0 : Nat) : Statement (.lockGrant x0) := plain _ rfl rfl rfl
theorem lockRelease (x0 : Nat) : Statement (.lockRelease x0) := plain _ rfl rfl rfl
theorem loanGrant (x0 : Nat) : Statement (.loanGrant x0) := plain _ rfl rfl rfl
theorem loanReturn (x0 : Nat) : Statement (.loanReturn x0) := plain _ rfl rfl rfl
theorem hostbufReg (x0 : Nat) : Statement (.hostbufReg x0) := plain _ rfl rfl rfl
theorem hostbufUnreg (x0 : Nat) : Statement (.hostbufUnreg x0) := plain _ rfl rfl rfl
theorem modeStage (x0 : Nat) : Statement (.modeStage x0) := plain _ rfl rfl rfl
theorem dieFence (x0 : Nat) : Statement (.dieFence x0) := plain _ rfl rfl rfl
theorem dieUnfence (x0 : Nat) (x1 : List HwUnit) : Statement (.dieUnfence x0 x1) := plain _ rfl rfl rfl
theorem fwUpdate (x0 : Nat) (x1 : SignedObj) (x2 : List Nat) : Statement (.fwUpdate x0 x1 x2) := plain _ rfl rfl rfl
theorem checkpoint (x0 : Nat) : Statement (.checkpoint x0) := plain _ rfl rfl rfl
theorem shardCopy (x0 : Nat) : Statement (.shardCopy x0) := plain _ rfl rfl rfl
theorem dumpBuffer (x0 : Nat) : Statement (.dumpBuffer x0) := plain _ rfl rfl rfl
theorem attest (x0 : Nat) : Statement (.attest x0) := plain _ rfl rfl rfl
theorem ringFetch (x0 : Nat) : Statement (.ringFetch x0) := plain _ rfl rfl rfl
theorem commandStart (x0 : Nat) : Statement (.commandStart x0) := plain _ rfl rfl rfl
theorem commitPoint (x0 : Nat) : Statement (.commitPoint x0) := plain _ rfl rfl rfl
theorem publicationComplete (x0 : Nat) : Statement (.publicationComplete x0) := plain _ rfl rfl rfl
theorem preemption (x0 : Nat) : Statement (.preemption x0) := by
  change ((decide (x0 < 8)) = true) → (∀ d ∈ ([x0] : List Nat), d < 10) ∧ (∀ p ∈ ([] : List Nat), p < 36) ∧ (([] : List Byte)).length ≤ 4096
  simp; omega
theorem contextResume (x0 : Nat) (x1 : Nat) : Statement (.contextResume x0 x1) := by
  change ((decide (x0 < 8) && decide (x1 < 128)) = true) → (∀ d ∈ ([x0] : List Nat), d < 10) ∧ (∀ p ∈ ([] : List Nat), p < 36) ∧ (([] : List Byte)).length ≤ 4096
  simp; omega
theorem modeAckTimeout (x0 : Nat) : Statement (.modeAckTimeout x0) := plain _ rfl rfl rfl
theorem stagedModeExpiry (x0 : Nat) : Statement (.stagedModeExpiry x0) := plain _ rfl rfl rfl
theorem modeStartHold (x0 : Nat) : Statement (.modeStartHold x0) := plain _ rfl rfl rfl
theorem modeApply (x0 : Nat) : Statement (.modeApply x0) := plain _ rfl rfl rfl
theorem powerChangeRetry : Statement (.powerChangeRetry) := plain _ rfl rfl rfl
theorem sesPskStart (x0 : List Byte) : Statement (.sesPskStart x0) := by
  change ((decide (x0.length ≤ 4096)) = true) → (∀ d ∈ ([] : List Nat), d < 10) ∧ (∀ p ∈ ([] : List Nat), p < 36) ∧ (x0).length ≤ 4096
  simp
theorem sesPskFinish (x0 : List Byte) : Statement (.sesPskFinish x0) := by
  change ((decide (x0.length ≤ 4096)) = true) → (∀ d ∈ ([] : List Nat), d < 10) ∧ (∀ p ∈ ([] : List Nat), p < 36) ∧ (x0).length ≤ 4096
  simp
theorem sesPakeStart (x0 : List Byte) : Statement (.sesPakeStart x0) := by
  change ((decide (x0.length ≤ 4096)) = true) → (∀ d ∈ ([] : List Nat), d < 10) ∧ (∀ p ∈ ([] : List Nat), p < 36) ∧ (x0).length ≤ 4096
  simp
theorem sesPakeFinish (x0 : List Byte) : Statement (.sesPakeFinish x0) := by
  change ((decide (x0.length ≤ 4096)) = true) → (∀ d ∈ ([] : List Nat), d < 10) ∧ (∀ p ∈ ([] : List Nat), p < 36) ∧ (x0).length ≤ 4096
  simp
theorem sesClose (x0 : List Byte) : Statement (.sesClose x0) := by
  change ((decide (x0.length ≤ 4096)) = true) → (∀ d ∈ ([] : List Nat), d < 10) ∧ (∀ p ∈ ([] : List Nat), p < 36) ∧ (x0).length ≤ 4096
  simp
theorem sessionSlotExpiry (x0 : Nat) : Statement (.sessionSlotExpiry x0) := plain _ rfl rfl rfl
theorem jobLink (x0 : List Byte) : Statement (.jobLink x0) := by
  change ((decide (x0.length ≤ 4096)) = true) → (∀ d ∈ ([] : List Nat), d < 10) ∧ (∀ p ∈ ([] : List Nat), p < 36) ∧ (x0).length ≤ 4096
  simp
theorem ownerEnroll (x0 : List Byte) : Statement (.ownerEnroll x0) := by
  change ((decide (x0.length ≤ 4096)) = true) → (∀ d ∈ ([] : List Nat), d < 10) ∧ (∀ p ∈ ([] : List Nat), p < 36) ∧ (x0).length ≤ 4096
  simp
theorem ownerRelease (x0 : List Byte) : Statement (.ownerRelease x0) := by
  change ((decide (x0.length ≤ 4096)) = true) → (∀ d ∈ ([] : List Nat), d < 10) ∧ (∀ p ∈ ([] : List Nat), p < 36) ∧ (x0).length ≤ 4096
  simp
theorem debugUnlock (x0 : List Byte) : Statement (.debugUnlock x0) := by
  change ((decide (x0.length ≤ 4096)) = true) → (∀ d ∈ ([] : List Nat), d < 10) ∧ (∀ p ∈ ([] : List Nat), p < 36) ∧ (x0).length ≤ 4096
  simp
theorem idCerts (x0 : List Byte) : Statement (.idCerts x0) := by
  change ((decide (x0.length ≤ 4096)) = true) → (∀ d ∈ ([] : List Nat), d < 10) ∧ (∀ p ∈ ([] : List Nat), p < 36) ∧ (x0).length ≤ 4096
  simp
theorem sesExport (x0 : List Byte) : Statement (.sesExport x0) := by
  change ((decide (x0.length ≤ 4096)) = true) → (∀ d ∈ ([] : List Nat), d < 10) ∧ (∀ p ∈ ([] : List Nat), p < 36) ∧ (x0).length ≤ 4096
  simp
theorem ringBind (x0 : List Byte) : Statement (.ringBind x0) := by
  change ((decide (x0.length ≤ 4096)) = true) → (∀ d ∈ ([] : List Nat), d < 10) ∧ (∀ p ∈ ([] : List Nat), p < 36) ∧ (x0).length ≤ 4096
  simp
theorem ringUnbind (x0 : List Byte) : Statement (.ringUnbind x0) := by
  change ((decide (x0.length ≤ 4096)) = true) → (∀ d ∈ ([] : List Nat), d < 10) ∧ (∀ p ∈ ([] : List Nat), p < 36) ∧ (x0).length ≤ 4096
  simp
theorem hdmBind (x0 : List Byte) : Statement (.hdmBind x0) := by
  change ((decide (x0.length ≤ 4096)) = true) → (∀ d ∈ ([] : List Nat), d < 10) ∧ (∀ p ∈ ([] : List Nat), p < 36) ∧ (x0).length ≤ 4096
  simp
theorem hdmUnbind (x0 : List Byte) : Statement (.hdmUnbind x0) := by
  change ((decide (x0.length ≤ 4096)) = true) → (∀ d ∈ ([] : List Nat), d < 10) ∧ (∀ p ∈ ([] : List Nat), p < 36) ∧ (x0).length ≤ 4096
  simp
theorem privMap (x0 : List Byte) : Statement (.privMap x0) := by
  change ((decide (x0.length ≤ 4096)) = true) → (∀ d ∈ ([] : List Nat), d < 10) ∧ (∀ p ∈ ([] : List Nat), p < 36) ∧ (x0).length ≤ 4096
  simp
theorem eventRead (x0 : List Byte) : Statement (.eventRead x0) := by
  change ((decide (x0.length ≤ 4096)) = true) → (∀ d ∈ ([] : List Nat), d < 10) ∧ (∀ p ∈ ([] : List Nat), p < 36) ∧ (x0).length ≤ 4096
  simp
theorem spdmRequest (x0 : List Byte) : Statement (.spdmRequest x0) := plain _ rfl rfl rfl
theorem configRequest (x0 : Nat) (x1 : Option Nat) : Statement (.configRequest x0 x1) := plain _ rfl rfl rfl
theorem hdmRead (x0 : Nat) (x1 : Nat) : Statement (.hdmRead x0 x1) := plain _ rfl rfl rfl
theorem hdmWrite (x0 : Nat) (x1 : List Byte) : Statement (.hdmWrite x0 x1) := plain _ rfl rfl rfl
theorem snoop (x0 : Nat) : Statement (.snoop x0) := plain _ rfl rfl rfl
theorem cxlLinkDown (x0 : LinkCause) : Statement (.cxlLinkDown x0) := plain _ rfl rfl rfl
theorem cxlLinkUp (x0 : Nat) (x1 : Nat) (x2 : Bool) : Statement (.cxlLinkUp x0 x1 x2) := plain _ rfl rfl rfl
theorem ringCfg (x0 : Via) (x1 : Nat) (x2 : Nat) : Statement (.ringCfg x0 x1 x2) := plain _ rfl rfl rfl
theorem ringTail (x0 : Via) (x1 : Nat) (x2 : Nat) : Statement (.ringTail x0 x1 x2) := plain _ rfl rfl rfl
theorem registerWrite (x0 : Via) (x1 : Nat) (x2 : Nat) (x3 : Nat) : Statement (.registerWrite x0 x1 x2 x3) := plain _ rfl rfl rfl
theorem registerReadClear (x0 : Via) (x1 : Nat) (x2 : Nat) : Statement (.registerReadClear x0 x1 x2) := plain _ rfl rfl rfl
theorem sicTake (x0 : Nat) (x1 : Nat) (x2 : Nat) (x3 : Bool) : Statement (.sicTake x0 x1 x2 x3) := by
  change ((decide (x0 < 10) && decide (x1 < 16) && decide (x2 < 1024)) = true) → (∀ d ∈ ([x0] : List Nat), d < 10) ∧ (∀ p ∈ ([] : List Nat), p < 36) ∧ (([] : List Byte)).length ≤ 4096
  simp; omega
theorem sicEoi (x0 : Nat) (x1 : Nat) (x2 : Nat) : Statement (.sicEoi x0 x1 x2) := by
  change ((decide (x0 < 10) && decide (x1 < 16) && decide (x2 < 1024)) = true) → (∀ d ∈ ([x0] : List Nat), d < 10) ∧ (∀ p ∈ ([] : List Nat), p < 36) ∧ (([] : List Byte)).length ≤ 4096
  simp; omega
theorem sicPendSet (x0 : Nat) (x1 : Nat) (x2 : Nat) : Statement (.sicPendSet x0 x1 x2) := by
  change ((decide (x0 < 10) && decide (x1 < 32) && decide (x2 < 2 ^ 32)) = true) → (∀ d ∈ ([x0] : List Nat), d < 10) ∧ (∀ p ∈ ([] : List Nat), p < 36) ∧ (([] : List Byte)).length ≤ 4096
  simp; omega
theorem sicPendClr (x0 : Nat) (x1 : Nat) (x2 : Nat) : Statement (.sicPendClr x0 x1 x2) := by
  change ((decide (x0 < 10) && decide (x1 < 32) && decide (x2 < 2 ^ 32)) = true) → (∀ d ∈ ([x0] : List Nat), d < 10) ∧ (∀ p ∈ ([] : List Nat), p < 36) ∧ (([] : List Byte)).length ≤ 4096
  simp; omega
theorem sicEnSet (x0 : Nat) (x1 : Nat) (x2 : Nat) : Statement (.sicEnSet x0 x1 x2) := by
  change ((decide (x0 < 10) && decide (x1 < 32) && decide (x2 < 2 ^ 32)) = true) → (∀ d ∈ ([x0] : List Nat), d < 10) ∧ (∀ p ∈ ([] : List Nat), p < 36) ∧ (([] : List Byte)).length ≤ 4096
  simp; omega
theorem sicEnClr (x0 : Nat) (x1 : Nat) (x2 : Nat) : Statement (.sicEnClr x0 x1 x2) := by
  change ((decide (x0 < 10) && decide (x1 < 32) && decide (x2 < 2 ^ 32)) = true) → (∀ d ∈ ([x0] : List Nat), d < 10) ∧ (∀ p ∈ ([] : List Nat), p < 36) ∧ (([] : List Byte)).length ≤ 4096
  simp; omega
theorem sicSrcCfg (x0 : Nat) (x1 : Nat) (x2 : Nat) : Statement (.sicSrcCfg x0 x1 x2) := by
  change ((decide (x0 < 10) && decide (x1 < 1024) && decide (x2 < 2 ^ 32)) = true) → (∀ d ∈ ([x0] : List Nat), d < 10) ∧ (∀ p ∈ ([] : List Nat), p < 36) ∧ (([] : List Byte)).length ≤ 4096
  simp; omega
theorem sicSrcMod (x0 : Nat) (x1 : Nat) (x2 : Nat) : Statement (.sicSrcMod x0 x1 x2) := by
  change ((decide (x0 < 10) && decide (x1 < 1024) && decide (x2 < 2 ^ 32)) = true) → (∀ d ∈ ([x0] : List Nat), d < 10) ∧ (∀ p ∈ ([] : List Nat), p < 36) ∧ (([] : List Byte)).length ≤ 4096
  simp; omega
theorem sicTgtCtrl (x0 : Nat) (x1 : Nat) (x2 : Nat) : Statement (.sicTgtCtrl x0 x1 x2) := by
  change ((decide (x0 < 10) && decide (x1 < 16) && decide (x2 < 2 ^ 32)) = true) → (∀ d ∈ ([x0] : List Nat), d < 10) ∧ (∀ p ∈ ([] : List Nat), p < 36) ∧ (([] : List Byte)).length ≤ 4096
  simp; omega
theorem sourceFire (x0 : Nat) (x1 : Nat) : Statement (.sourceFire x0 x1) := by
  change ((decide (x0 < 10) && decide (x1 < 1024)) = true) → (∀ d ∈ ([x0] : List Nat), d < 10) ∧ (∀ p ∈ ([] : List Nat), p < 36) ∧ (([] : List Byte)).length ≤ 4096
  simp; omega
theorem moderationTimer (x0 : Nat) (x1 : Nat) : Statement (.moderationTimer x0 x1) := by
  change ((decide (x0 < 10) && decide (x1 < 1024)) = true) → (∀ d ∈ ([x0] : List Nat), d < 10) ∧ (∀ p ∈ ([] : List Nat), p < 36) ∧ (([] : List Byte)).length ≤ 4096
  simp; omega
theorem targetIdle (x0 : Nat) (x1 : Nat) : Statement (.targetIdle x0 x1) := by
  change ((decide (x0 < 10) && decide (x1 < 16)) = true) → (∀ d ∈ ([x0] : List Nat), d < 10) ∧ (∀ p ∈ ([] : List Nat), p < 36) ∧ (([] : List Byte)).length ≤ 4096
  simp; omega
theorem cntCtrl (x0 : Nat) (x1 : Nat) : Statement (.cntCtrl x0 x1) := by
  change ((decide (x0 < 10) && decide (x1 < 2 ^ 32)) = true) → (∀ d ∈ ([x0] : List Nat), d < 10) ∧ (∀ p ∈ ([] : List Nat), p < 36) ∧ (([] : List Byte)).length ≤ 4096
  simp; omega
theorem cntClear (x0 : Nat) (x1 : Nat) : Statement (.cntClear x0 x1) := by
  change ((decide (x0 < 10) && decide (x1 < 2 ^ 32)) = true) → (∀ d ∈ ([x0] : List Nat), d < 10) ∧ (∀ p ∈ ([] : List Nat), p < 36) ∧ (([] : List Byte)).length ≤ 4096
  simp; omega
theorem counterFreeze (x0 : Nat) : Statement (.counterFreeze x0) := by
  change ((decide (x0 < 10)) = true) → (∀ d ∈ ([x0] : List Nat), d < 10) ∧ (∀ p ∈ ([] : List Nat), p < 36) ∧ (([] : List Byte)).length ≤ 4096
  simp
theorem trCtrl (x0 : Nat) (x1 : Nat) : Statement (.trCtrl x0 x1) := by
  change ((decide (x0 < 10) && decide (x1 < 2 ^ 32)) = true) → (∀ d ∈ ([x0] : List Nat), d < 10) ∧ (∀ p ∈ ([] : List Nat), p < 36) ∧ (([] : List Byte)).length ≤ 4096
  simp; omega
theorem trTrigNow (x0 : Nat) (x1 : Nat) : Statement (.trTrigNow x0 x1) := by
  change ((decide (x0 < 10) && decide (x1 < 2 ^ 32)) = true) → (∀ d ∈ ([x0] : List Nat), d < 10) ∧ (∀ p ∈ ([] : List Nat), p < 36) ∧ (([] : List Byte)).length ≤ 4096
  simp; omega
theorem trMark (x0 : Nat) (x1 : Nat) : Statement (.trMark x0 x1) := by
  change ((decide (x0 < 10) && decide (x1 < 2 ^ 32)) = true) → (∀ d ∈ ([x0] : List Nat), d < 10) ∧ (∀ p ∈ ([] : List Nat), p < 36) ∧ (([] : List Byte)).length ≤ 4096
  simp; omega
theorem portCtrl (x0 : Nat) (x1 : Nat) : Statement (.portCtrl x0 x1) := by
  change ((decide (x0 < 36) && decide (x1 < 2 ^ 32)) = true) → (∀ d ∈ ([] : List Nat), d < 10) ∧ (∀ p ∈ ([x0] : List Nat), p < 36) ∧ (([] : List Byte)).length ≤ 4096
  simp; omega
theorem portCredit (x0 : Nat) (x1 : Nat) : Statement (.portCredit x0 x1) := by
  change ((decide (x0 < 36) && decide (x1 < 2 ^ 64)) = true) → (∀ d ∈ ([] : List Nat), d < 10) ∧ (∀ p ∈ ([x0] : List Nat), p < 36) ∧ (([] : List Byte)).length ≤ 4096
  simp; omega
theorem flitReceive (x0 : Nat) (x1 : Flit) : Statement (.flitReceive x0 x1) := by
  change ((decide (x0 < 36) && x1.wf) = true) → (∀ d ∈ ([] : List Nat), d < 10) ∧ (∀ p ∈ ([x0] : List Nat), p < 36) ∧ (([] : List Byte)).length ≤ 4096
  simp; omega
theorem controlFlit (x0 : Nat) (x1 : Nat) (x2 : CreditRec) : Statement (.controlFlit x0 x1 x2) := by
  change ((decide (x0 < 36) && decide (x1 < 4096) && x2.wf) = true) → (∀ d ∈ ([] : List Nat), d < 10) ∧ (∀ p ∈ ([x0] : List Nat), p < 36) ∧ (([] : List Byte)).length ≤ 4096
  simp; omega
theorem controlFlitTimer (x0 : Nat) : Statement (.controlFlitTimer x0) := by
  change ((decide (x0 < 36)) = true) → (∀ d ∈ ([] : List Nat), d < 10) ∧ (∀ p ∈ ([x0] : List Nat), p < 36) ∧ (([] : List Byte)).length ≤ 4096
  simp
theorem laneFailure (x0 : Nat) (x1 : Nat) : Statement (.laneFailure x0 x1) := by
  change ((decide (x0 < 36) && decide (x1 < 4)) = true) → (∀ d ∈ ([] : List Nat), d < 10) ∧ (∀ p ∈ ([x0] : List Nat), p < 36) ∧ (([] : List Byte)).length ≤ 4096
  simp; omega
theorem portTrainingDone (x0 : Nat) (x1 : Nat) (x2 : Nat) : Statement (.portTrainingDone x0 x1 x2) := by
  change ((decide (x0 < 36) && decide (x2 < 4096)) = true) → (∀ d ∈ ([] : List Nat), d < 10) ∧ (∀ p ∈ ([x0] : List Nat), p < 36) ∧ (([] : List Byte)).length ≤ 4096
  simp; omega
theorem portRetrain (x0 : Nat) : Statement (.portRetrain x0) := by
  change ((decide (x0 < 36)) = true) → (∀ d ∈ ([] : List Nat), d < 10) ∧ (∀ p ∈ ([x0] : List Nat), p < 36) ∧ (([] : List Byte)).length ≤ 4096
  simp
theorem messageForward (x0 : Nat) (x1 : MsgHdr) : Statement (.messageForward x0 x1) := by
  change ((decide (x0 < 36) && x1.wf) = true) → (∀ d ∈ ([] : List Nat), d < 10) ∧ (∀ p ∈ ([x0] : List Nat), p < 36) ∧ (([] : List Byte)).length ≤ 4096
  simp; omega
theorem readReq (x0 : MsgHdr) (x1 : Nat) (x2 : Nat) (x3 : Bool) : Statement (.readReq x0 x1 x2 x3) := plain _ rfl rfl rfl
theorem readResp (x0 : MsgHdr) (x1 : Nat) (x2 : List Byte) : Statement (.readResp x0 x1 x2) := plain _ rfl rfl rfl
theorem write (x0 : MsgHdr) (x1 : Nat) (x2 : List Byte) : Statement (.write x0 x1 x2) := plain _ rfl rfl rfl
theorem collData (x0 : MsgHdr) (x1 : Nat) (x2 : Nat) (x3 : Nat) (x4 : List Byte) : Statement (.collData x0 x1 x2 x3 x4) := plain _ rfl rfl rfl
theorem stagedAck (x0 : MsgHdr) : Statement (.stagedAck x0) := plain _ rfl rfl rfl
theorem commit (x0 : MsgHdr) : Statement (.commit x0) := plain _ rfl rfl rfl
theorem cancel (x0 : MsgHdr) : Statement (.cancel x0) := plain _ rfl rfl rfl
theorem lockSignal (x0 : MsgHdr) (x1 : Nat) (x2 : Nat) : Statement (.lockSignal x0 x1 x2) := plain _ rfl rfl rfl
theorem collJoin (x0 : MsgHdr) (x1 : Nat) (x2 : Nat) (x3 : Nat) (x4 : Nat) (x5 : Bool) : Statement (.collJoin x0 x1 x2 x3 x4 x5) := plain _ rfl rfl rfl
theorem collSet (x0 : MsgHdr) (x1 : Nat) (x2 : Nat) (x3 : Nat) (x4 : Nat) (x5 : List Nat) : Statement (.collSet x0 x1 x2 x3 x4 x5) := plain _ rfl rfl rfl
theorem collLate (x0 : MsgHdr) (x1 : Nat) (x2 : Nat) (x3 : Nat) (x4 : Nat) (x5 : List Byte) : Statement (.collLate x0 x1 x2 x3 x4 x5) := plain _ rfl rfl rfl
theorem collFlip (x0 : MsgHdr) (x1 : Nat) (x2 : Nat) (x3 : Nat) (x4 : Nat) : Statement (.collFlip x0 x1 x2 x3 x4) := plain _ rfl rfl rfl
theorem authNak (x0 : MsgHdr) : Statement (.authNak x0) := plain _ rfl rfl rfl
theorem time (x0 : MsgHdr) (x1 : Nat) (x2 : Nat) (x3 : Nat) : Statement (.time x0 x1 x2 x3) := by
  change ((x0.wf && decide (x1 < 36)) = true) → (∀ d ∈ ([] : List Nat), d < 10) ∧ (∀ p ∈ ([x1] : List Nat), p < 36) ∧ (([] : List Byte)).length ≤ 4096
  simp
theorem pdelay (x0 : MsgHdr) (x1 : Nat) (x2 : Nat) : Statement (.pdelay x0 x1 x2) := by
  change ((x0.wf && decide (x1 < 36)) = true) → (∀ d ∈ ([] : List Nat), d < 10) ∧ (∀ p ∈ ([x1] : List Nat), p < 36) ∧ (([] : List Byte)).length ≤ 4096
  simp
theorem announce (x0 : MsgHdr) (x1 : Nat) : Statement (.announce x0 x1) := plain _ rfl rfl rfl
theorem hello (x0 : MsgHdr) (x1 : Nat) : Statement (.hello x0 x1) := by
  change ((x0.wf && decide (x1 < 36)) = true) → (∀ d ∈ ([] : List Nat), d < 10) ∧ (∀ p ∈ ([x1] : List Nat), p < 36) ∧ (([] : List Byte)).length ≤ 4096
  simp
theorem heartbeat (x0 : MsgHdr) : Statement (.heartbeat x0) := plain _ rfl rfl rfl
theorem member (x0 : MsgHdr) (x1 : List (Nat × Nat)) : Statement (.member x0 x1) := plain _ rfl rfl rfl
theorem lost (x0 : MsgHdr) (x1 : Nat) : Statement (.lost x0 x1) := plain _ rfl rfl rfl
theorem stage (x0 : MsgHdr) (x1 : Nat) (x2 : Nat) (x3 : Nat) (x4 : Nat) (x5 : List ModeItem) (x6 : List Nat) : Statement (.stage x0 x1 x2 x3 x4 x5 x6) := plain _ rfl rfl rfl
theorem ack (x0 : MsgHdr) (x1 : Nat) (x2 : Nat) : Statement (.ack x0 x1 x2) := plain _ rfl rfl rfl
theorem openMsg (x0 : MsgHdr) (x1 : Nat) (x2 : Nat) : Statement (.openMsg x0 x1 x2) := plain _ rfl rfl rfl
theorem discard (x0 : MsgHdr) (x1 : Nat) : Statement (.discard x0 x1) := plain _ rfl rfl rfl
theorem loanEnd (x0 : MsgHdr) : Statement (.loanEnd x0) := plain _ rfl rfl rfl
theorem announceTimer : Statement (.announceTimer) := plain _ rfl rfl rfl
theorem timeTimer : Statement (.timeTimer) := plain _ rfl rfl rfl
theorem pdelayTimer (x0 : Nat) : Statement (.pdelayTimer x0) := by
  change ((decide (x0 < 36)) = true) → (∀ d ∈ ([] : List Nat), d < 10) ∧ (∀ p ∈ ([x0] : List Nat), p < 36) ∧ (([] : List Byte)).length ≤ 4096
  simp
theorem heartbeatTimer : Statement (.heartbeatTimer) := plain _ rfl rfl rfl
theorem peerLost (x0 : Nat) : Statement (.peerLost x0) := plain _ rfl rfl rfl
theorem timeUnlocked : Statement (.timeUnlocked) := plain _ rfl rfl rfl
theorem scrubRead (x0 : Nat) (x1 : ScrubFinding) : Statement (.scrubRead x0 x1) := plain _ rfl rfl rfl
theorem unitInternalError (x0 : HwUnit) : Statement (.unitInternalError x0) := plain _ rfl rfl rfl
theorem fatalError (x0 : Nat) : Statement (.fatalError x0) := plain _ rfl rfl rfl
theorem inputSample (x0 : InputMeas) : Statement (.inputSample x0) := plain _ rfl rfl rfl
theorem temperatureSample (x0 : Nat) (x1 : Bool) (x2 : Int) (x3 : Nat) : Statement (.temperatureSample x0 x1 x2 x3) := plain _ rfl rfl rfl
theorem pwrEnAssert : Statement (.pwrEnAssert) := plain _ rfl rfl rfl
theorem powerGood : Statement (.powerGood) := plain _ rfl rfl rfl
theorem pwrEnDeassert : Statement (.pwrEnDeassert) := plain _ rfl rfl rfl
theorem shutdownTimeout : Statement (.shutdownTimeout) := plain _ rfl rfl rfl
theorem standbyEntered : Statement (.standbyEntered) := plain _ rfl rfl rfl
theorem inputLoss : Statement (.inputLoss) := plain _ rfl rfl rfl
theorem modResetN (x0 : Bool) : Statement (.modResetN x0) := plain _ rfl rfl rfl
theorem moduleReset : Statement (.moduleReset) := plain _ rfl rfl rfl
theorem standby : Statement (.standby) := plain _ rfl rfl rfl
theorem i3cReadPointer (x0 : Nat) : Statement (.i3cReadPointer x0) := plain _ rfl rfl rfl
theorem dynamicAddressAssignment (x0 : Nat) : Statement (.dynamicAddressAssignment x0) := plain _ rfl rfl rfl
theorem configVerified (x0 : Option SignedObj) (x1 : Option ConfigRecord) : Statement (.configVerified x0 x1) := plain _ rfl rfl rfl
theorem imageVerified (x0 : Option SignedObj) : Statement (.imageVerified x0) := plain _ rfl rfl rfl
theorem diesReleased (x0 : Bool) (x1 : Bool) : Statement (.diesReleased x0 x1) := plain _ rfl rfl rfl
theorem hbmTrainingDone (x0 : List Nat) : Statement (.hbmTrainingDone x0) := plain _ rfl rfl rfl
theorem selfTestDone (x0 : List HwUnit) : Statement (.selfTestDone x0) := plain _ rfl rfl rfl
theorem initialisationDone : Statement (.initialisationDone) := plain _ rfl rfl rfl
theorem towpathResolved : Statement (.towpathResolved) := plain _ rfl rfl rfl
theorem extest : Statement .extest := plain _ rfl rfl rfl
theorem samplePreload : Statement .samplePreload := plain _ rfl rfl rfl
theorem idcode : Statement (.idcode) := plain _ rfl rfl rfl
theorem highz : Statement (.highz) := plain _ rfl rfl rfl
theorem clamp : Statement (.clamp) := plain _ rfl rfl rfl
theorem extestPulse : Statement .extestPulse := plain _ rfl rfl rfl
theorem extestTrain : Statement .extestTrain := plain _ rfl rfl rfl
theorem dbgSelect (x0 : Nat) : Statement (.dbgSelect x0) := plain _ rfl rfl rfl
theorem dbgAccess : Statement (.dbgAccess) := plain _ rfl rfl rfl
theorem bypass : Statement (.bypass) := plain _ rfl rfl rfl
theorem trstN : Statement (.trstN) := plain _ rfl rfl rfl
theorem hdmDecoderCommit (x0 : Nat) (x1 : Nat) : Statement (.hdmDecoderCommit x0 x1) := plain _ rfl rfl rfl
theorem pwrCtrl (x0 : Via) (x1 : Nat) : Statement (.pwrCtrl x0 x1) := plain _ rfl rfl rfl
theorem hotSwapRetry : Statement (.hotSwapRetry) := plain _ rfl rfl rfl
theorem testLogicReset : Statement (.testLogicReset) := plain _ rfl rfl rfl
theorem hbmInterfaceLost (x0 : Nat) : Statement (.hbmInterfaceLost x0) := plain _ rfl rfl rfl

end Laws.Wf

end Sys2Proof
end

