-- ==== Sys2Proof/Laws/State.lean ====
section
/-! SUPPORT. What each named update of State leaves: one lemma for each field and update, so that no proof unfolds a record. -/

namespace Sys2Proof.Machine

-- setDie

@[simp] theorem setDie_pending (s : State) (k : Nat) (x : Die) : (setDie s k x).pending = s.pending := rfl
@[simp] theorem setDie_time (s : State) (k : Nat) (x : Die) : (setDie s k x).time = s.time := rfl
@[simp] theorem setDie_mem (s : State) (k : Nat) (x : Die) : (setDie s k x).mem = s.mem := rfl
@[simp] theorem setDie_host (s : State) (k : Nat) (x : Die) : (setDie s k x).host = s.host := rfl
@[simp] theorem setDie_keys (s : State) (k : Nat) (x : Die) : (setDie s k x).keys = s.keys := rfl
@[simp] theorem setDie_poison (s : State) (k : Nat) (x : Die) : (setDie s k x).poison = s.poison := rfl
@[simp] theorem setDie_poundQ (s : State) (k : Nat) (x : Die) : (setDie s k x).poundQ = s.poundQ := rfl
@[simp] theorem setDie_remoteSt (s : State) (k : Nat) (x : Die) : (setDie s k x).remoteSt = s.remoteSt := rfl
@[simp] theorem setDie_memRegs (s : State) (k : Nat) (x : Die) : (setDie s k x).memRegs = s.memRegs := rfl
@[simp] theorem setDie_cmds (s : State) (k : Nat) (x : Die) : (setDie s k x).cmds = s.cmds := rfl
@[simp] theorem setDie_nextId (s : State) (k : Nat) (x : Die) : (setDie s k x).nextId = s.nextId := rfl
@[simp] theorem setDie_serial (s : State) (k : Nat) (x : Die) : (setDie s k x).serial = s.serial := rfl
@[simp] theorem setDie_rings (s : State) (k : Nat) (x : Die) : (setDie s k x).rings = s.rings := rfl
@[simp] theorem setDie_locks (s : State) (k : Nat) (x : Die) : (setDie s k x).locks = s.locks := rfl
@[simp] theorem setDie_jobs (s : State) (k : Nat) (x : Die) : (setDie s k x).jobs = s.jobs := rfl
@[simp] theorem setDie_ctxs (s : State) (k : Nat) (x : Die) : (setDie s k x).ctxs = s.ctxs := rfl
@[simp] theorem setDie_queueRe (s : State) (k : Nat) (x : Die) : (setDie s k x).queueRe = s.queueRe := rfl
@[simp] theorem setDie_ended (s : State) (k : Nat) (x : Die) : (setDie s k x).ended = s.ended := rfl
@[simp] theorem setDie_flights (s : State) (k : Nat) (x : Die) : (setDie s k x).flights = s.flights := rfl
@[simp] theorem setDie_fsets (s : State) (k : Nat) (x : Die) : (setDie s k x).fsets = s.fsets := rfl
@[simp] theorem setDie_shards (s : State) (k : Nat) (x : Die) : (setDie s k x).shards = s.shards := rfl
@[simp] theorem setDie_scheds (s : State) (k : Nat) (x : Die) : (setDie s k x).scheds = s.scheds := rfl
@[simp] theorem setDie_loans (s : State) (k : Nat) (x : Die) : (setDie s k x).loans = s.loans := rfl
@[simp] theorem setDie_pools (s : State) (k : Nat) (x : Die) : (setDie s k x).pools = s.pools := rfl
@[simp] theorem setDie_objs (s : State) (k : Nat) (x : Die) : (setDie s k x).objs = s.objs := rfl
@[simp] theorem setDie_pfs (s : State) (k : Nat) (x : Die) : (setDie s k x).pfs = s.pfs := rfl
@[simp] theorem setDie_census (s : State) (k : Nat) (x : Die) : (setDie s k x).census = s.census := rfl
@[simp] theorem setDie_watch (s : State) (k : Nat) (x : Die) : (setDie s k x).watch = s.watch := rfl
@[simp] theorem setDie_twatch (s : State) (k : Nat) (x : Die) : (setDie s k x).twatch = s.twatch := rfl
@[simp] theorem setDie_suspects (s : State) (k : Nat) (x : Die) : (setDie s k x).suspects = s.suspects := rfl
@[simp] theorem setDie_links (s : State) (k : Nat) (x : Die) : (setDie s k x).links = s.links := rfl
@[simp] theorem setDie_dies (s : State) (k : Nat) (x : Die) : (setDie s k x).dies = tset Die.rest s.dies k x := rfl
@[simp] theorem setDie_roots (s : State) (k : Nat) (x : Die) : (setDie s k x).roots = s.roots := rfl
@[simp] theorem setDie_engines (s : State) (k : Nat) (x : Die) : (setDie s k x).engines = s.engines := rfl
@[simp] theorem setDie_testing (s : State) (k : Nat) (x : Die) : (setDie s k x).testing = s.testing := rfl
@[simp] theorem setDie_testQ (s : State) (k : Nat) (x : Die) : (setDie s k x).testQ = s.testQ := rfl
@[simp] theorem setDie_changes (s : State) (k : Nat) (x : Die) : (setDie s k x).changes = s.changes := rfl
@[simp] theorem setDie_modEpoch (s : State) (k : Nat) (x : Die) : (setDie s k x).modEpoch = s.modEpoch := rfl
@[simp] theorem setDie_ports (s : State) (k : Nat) (x : Die) : (setDie s k x).ports = s.ports := rfl
@[simp] theorem setDie_domain (s : State) (k : Nat) (x : Die) : (setDie s k x).domain = s.domain := rfl
@[simp] theorem setDie_rounds (s : State) (k : Nat) (x : Die) : (setDie s k x).rounds = s.rounds := rfl
@[simp] theorem setDie_streams (s : State) (k : Nat) (x : Die) : (setDie s k x).streams = s.streams := rfl
@[simp] theorem setDie_sent (s : State) (k : Nat) (x : Die) : (setDie s k x).sent = s.sent := rfl
@[simp] theorem setDie_held (s : State) (k : Nat) (x : Die) : (setDie s k x).held = s.held := rfl
@[simp] theorem setDie_transit (s : State) (k : Nat) (x : Die) : (setDie s k x).transit = s.transit := rfl
@[simp] theorem setDie_sessions (s : State) (k : Nat) (x : Die) : (setDie s k x).sessions = s.sessions := rfl
@[simp] theorem setDie_counts (s : State) (k : Nat) (x : Die) : (setDie s k x).counts = s.counts := rfl
@[simp] theorem setDie_bufs (s : State) (k : Nat) (x : Die) : (setDie s k x).bufs = s.bufs := rfl
@[simp] theorem setDie_cxl (s : State) (k : Nat) (x : Die) : (setDie s k x).cxl = s.cxl := rfl
@[simp] theorem setDie_msix (s : State) (k : Nat) (x : Die) : (setDie s k x).msix = s.msix := rfl
@[simp] theorem setDie_answers (s : State) (k : Nat) (x : Die) : (setDie s k x).answers = s.answers := rfl
@[simp] theorem setDie_nextSes (s : State) (k : Nat) (x : Die) : (setDie s k x).nextSes = s.nextSes := rfl
@[simp] theorem setDie_sesQ (s : State) (k : Nat) (x : Die) : (setDie s k x).sesQ = s.sesQ := rfl
@[simp] theorem setDie_modQ (s : State) (k : Nat) (x : Die) : (setDie s k x).modQ = s.modQ := rfl
@[simp] theorem setDie_sics (s : State) (k : Nat) (x : Die) : (setDie s k x).sics = s.sics := rfl
@[simp] theorem setDie_cnts (s : State) (k : Nat) (x : Die) : (setDie s k x).cnts = s.cnts := rfl
@[simp] theorem setDie_traces (s : State) (k : Nat) (x : Die) : (setDie s k x).traces = s.traces := rfl
@[simp] theorem setDie_dump (s : State) (k : Nat) (x : Die) : (setDie s k x).dump = s.dump := rfl
@[simp] theorem setDie_cfg (s : State) (k : Nat) (x : Die) : (setDie s k x).cfg = s.cfg := rfl
@[simp] theorem setDie_power (s : State) (k : Nat) (x : Die) : (setDie s k x).power = s.power := rfl
@[simp] theorem setDie_tap (s : State) (k : Nat) (x : Die) : (setDie s k x).tap = s.tap := rfl
@[simp] theorem setDie_trust (s : State) (k : Nat) (x : Die) : (setDie s k x).trust = s.trust := rfl
@[simp] theorem setDie_fresh (s : State) (k : Nat) (x : Die) : (setDie s k x).fresh = s.fresh := rfl

-- setRing

@[simp] theorem setRing_pending (s : State) (k : Nat) (x : Ring) : (setRing s k x).pending = s.pending := rfl
@[simp] theorem setRing_time (s : State) (k : Nat) (x : Ring) : (setRing s k x).time = s.time := rfl
@[simp] theorem setRing_mem (s : State) (k : Nat) (x : Ring) : (setRing s k x).mem = s.mem := rfl
@[simp] theorem setRing_host (s : State) (k : Nat) (x : Ring) : (setRing s k x).host = s.host := rfl
@[simp] theorem setRing_keys (s : State) (k : Nat) (x : Ring) : (setRing s k x).keys = s.keys := rfl
@[simp] theorem setRing_poison (s : State) (k : Nat) (x : Ring) : (setRing s k x).poison = s.poison := rfl
@[simp] theorem setRing_poundQ (s : State) (k : Nat) (x : Ring) : (setRing s k x).poundQ = s.poundQ := rfl
@[simp] theorem setRing_remoteSt (s : State) (k : Nat) (x : Ring) : (setRing s k x).remoteSt = s.remoteSt := rfl
@[simp] theorem setRing_memRegs (s : State) (k : Nat) (x : Ring) : (setRing s k x).memRegs = s.memRegs := rfl
@[simp] theorem setRing_cmds (s : State) (k : Nat) (x : Ring) : (setRing s k x).cmds = s.cmds := rfl
@[simp] theorem setRing_nextId (s : State) (k : Nat) (x : Ring) : (setRing s k x).nextId = s.nextId := rfl
@[simp] theorem setRing_serial (s : State) (k : Nat) (x : Ring) : (setRing s k x).serial = s.serial := rfl
@[simp] theorem setRing_rings (s : State) (k : Nat) (x : Ring) : (setRing s k x).rings = tset Ring.rest s.rings k x := rfl
@[simp] theorem setRing_locks (s : State) (k : Nat) (x : Ring) : (setRing s k x).locks = s.locks := rfl
@[simp] theorem setRing_jobs (s : State) (k : Nat) (x : Ring) : (setRing s k x).jobs = s.jobs := rfl
@[simp] theorem setRing_ctxs (s : State) (k : Nat) (x : Ring) : (setRing s k x).ctxs = s.ctxs := rfl
@[simp] theorem setRing_queueRe (s : State) (k : Nat) (x : Ring) : (setRing s k x).queueRe = s.queueRe := rfl
@[simp] theorem setRing_ended (s : State) (k : Nat) (x : Ring) : (setRing s k x).ended = s.ended := rfl
@[simp] theorem setRing_flights (s : State) (k : Nat) (x : Ring) : (setRing s k x).flights = s.flights := rfl
@[simp] theorem setRing_fsets (s : State) (k : Nat) (x : Ring) : (setRing s k x).fsets = s.fsets := rfl
@[simp] theorem setRing_shards (s : State) (k : Nat) (x : Ring) : (setRing s k x).shards = s.shards := rfl
@[simp] theorem setRing_scheds (s : State) (k : Nat) (x : Ring) : (setRing s k x).scheds = s.scheds := rfl
@[simp] theorem setRing_loans (s : State) (k : Nat) (x : Ring) : (setRing s k x).loans = s.loans := rfl
@[simp] theorem setRing_pools (s : State) (k : Nat) (x : Ring) : (setRing s k x).pools = s.pools := rfl
@[simp] theorem setRing_objs (s : State) (k : Nat) (x : Ring) : (setRing s k x).objs = s.objs := rfl
@[simp] theorem setRing_pfs (s : State) (k : Nat) (x : Ring) : (setRing s k x).pfs = s.pfs := rfl
@[simp] theorem setRing_census (s : State) (k : Nat) (x : Ring) : (setRing s k x).census = s.census := rfl
@[simp] theorem setRing_watch (s : State) (k : Nat) (x : Ring) : (setRing s k x).watch = s.watch := rfl
@[simp] theorem setRing_twatch (s : State) (k : Nat) (x : Ring) : (setRing s k x).twatch = s.twatch := rfl
@[simp] theorem setRing_suspects (s : State) (k : Nat) (x : Ring) : (setRing s k x).suspects = s.suspects := rfl
@[simp] theorem setRing_links (s : State) (k : Nat) (x : Ring) : (setRing s k x).links = s.links := rfl
@[simp] theorem setRing_dies (s : State) (k : Nat) (x : Ring) : (setRing s k x).dies = s.dies := rfl
@[simp] theorem setRing_roots (s : State) (k : Nat) (x : Ring) : (setRing s k x).roots = s.roots := rfl
@[simp] theorem setRing_engines (s : State) (k : Nat) (x : Ring) : (setRing s k x).engines = s.engines := rfl
@[simp] theorem setRing_testing (s : State) (k : Nat) (x : Ring) : (setRing s k x).testing = s.testing := rfl
@[simp] theorem setRing_testQ (s : State) (k : Nat) (x : Ring) : (setRing s k x).testQ = s.testQ := rfl
@[simp] theorem setRing_changes (s : State) (k : Nat) (x : Ring) : (setRing s k x).changes = s.changes := rfl
@[simp] theorem setRing_modEpoch (s : State) (k : Nat) (x : Ring) : (setRing s k x).modEpoch = s.modEpoch := rfl
@[simp] theorem setRing_ports (s : State) (k : Nat) (x : Ring) : (setRing s k x).ports = s.ports := rfl
@[simp] theorem setRing_domain (s : State) (k : Nat) (x : Ring) : (setRing s k x).domain = s.domain := rfl
@[simp] theorem setRing_rounds (s : State) (k : Nat) (x : Ring) : (setRing s k x).rounds = s.rounds := rfl
@[simp] theorem setRing_streams (s : State) (k : Nat) (x : Ring) : (setRing s k x).streams = s.streams := rfl
@[simp] theorem setRing_sent (s : State) (k : Nat) (x : Ring) : (setRing s k x).sent = s.sent := rfl
@[simp] theorem setRing_held (s : State) (k : Nat) (x : Ring) : (setRing s k x).held = s.held := rfl
@[simp] theorem setRing_transit (s : State) (k : Nat) (x : Ring) : (setRing s k x).transit = s.transit := rfl
@[simp] theorem setRing_sessions (s : State) (k : Nat) (x : Ring) : (setRing s k x).sessions = s.sessions := rfl
@[simp] theorem setRing_counts (s : State) (k : Nat) (x : Ring) : (setRing s k x).counts = s.counts := rfl
@[simp] theorem setRing_bufs (s : State) (k : Nat) (x : Ring) : (setRing s k x).bufs = s.bufs := rfl
@[simp] theorem setRing_cxl (s : State) (k : Nat) (x : Ring) : (setRing s k x).cxl = s.cxl := rfl
@[simp] theorem setRing_msix (s : State) (k : Nat) (x : Ring) : (setRing s k x).msix = s.msix := rfl
@[simp] theorem setRing_answers (s : State) (k : Nat) (x : Ring) : (setRing s k x).answers = s.answers := rfl
@[simp] theorem setRing_nextSes (s : State) (k : Nat) (x : Ring) : (setRing s k x).nextSes = s.nextSes := rfl
@[simp] theorem setRing_sesQ (s : State) (k : Nat) (x : Ring) : (setRing s k x).sesQ = s.sesQ := rfl
@[simp] theorem setRing_modQ (s : State) (k : Nat) (x : Ring) : (setRing s k x).modQ = s.modQ := rfl
@[simp] theorem setRing_sics (s : State) (k : Nat) (x : Ring) : (setRing s k x).sics = s.sics := rfl
@[simp] theorem setRing_cnts (s : State) (k : Nat) (x : Ring) : (setRing s k x).cnts = s.cnts := rfl
@[simp] theorem setRing_traces (s : State) (k : Nat) (x : Ring) : (setRing s k x).traces = s.traces := rfl
@[simp] theorem setRing_dump (s : State) (k : Nat) (x : Ring) : (setRing s k x).dump = s.dump := rfl
@[simp] theorem setRing_cfg (s : State) (k : Nat) (x : Ring) : (setRing s k x).cfg = s.cfg := rfl
@[simp] theorem setRing_power (s : State) (k : Nat) (x : Ring) : (setRing s k x).power = s.power := rfl
@[simp] theorem setRing_tap (s : State) (k : Nat) (x : Ring) : (setRing s k x).tap = s.tap := rfl
@[simp] theorem setRing_trust (s : State) (k : Nat) (x : Ring) : (setRing s k x).trust = s.trust := rfl
@[simp] theorem setRing_fresh (s : State) (k : Nat) (x : Ring) : (setRing s k x).fresh = s.fresh := rfl

-- setLock

@[simp] theorem setLock_pending (s : State) (k : Nat) (x : Lock) : (setLock s k x).pending = s.pending := rfl
@[simp] theorem setLock_time (s : State) (k : Nat) (x : Lock) : (setLock s k x).time = s.time := rfl
@[simp] theorem setLock_mem (s : State) (k : Nat) (x : Lock) : (setLock s k x).mem = s.mem := rfl
@[simp] theorem setLock_host (s : State) (k : Nat) (x : Lock) : (setLock s k x).host = s.host := rfl
@[simp] theorem setLock_keys (s : State) (k : Nat) (x : Lock) : (setLock s k x).keys = s.keys := rfl
@[simp] theorem setLock_poison (s : State) (k : Nat) (x : Lock) : (setLock s k x).poison = s.poison := rfl
@[simp] theorem setLock_poundQ (s : State) (k : Nat) (x : Lock) : (setLock s k x).poundQ = s.poundQ := rfl
@[simp] theorem setLock_remoteSt (s : State) (k : Nat) (x : Lock) : (setLock s k x).remoteSt = s.remoteSt := rfl
@[simp] theorem setLock_memRegs (s : State) (k : Nat) (x : Lock) : (setLock s k x).memRegs = s.memRegs := rfl
@[simp] theorem setLock_cmds (s : State) (k : Nat) (x : Lock) : (setLock s k x).cmds = s.cmds := rfl
@[simp] theorem setLock_nextId (s : State) (k : Nat) (x : Lock) : (setLock s k x).nextId = s.nextId := rfl
@[simp] theorem setLock_serial (s : State) (k : Nat) (x : Lock) : (setLock s k x).serial = s.serial := rfl
@[simp] theorem setLock_rings (s : State) (k : Nat) (x : Lock) : (setLock s k x).rings = s.rings := rfl
@[simp] theorem setLock_locks (s : State) (k : Nat) (x : Lock) : (setLock s k x).locks = tset Lock.rest s.locks k x := rfl
@[simp] theorem setLock_jobs (s : State) (k : Nat) (x : Lock) : (setLock s k x).jobs = s.jobs := rfl
@[simp] theorem setLock_ctxs (s : State) (k : Nat) (x : Lock) : (setLock s k x).ctxs = s.ctxs := rfl
@[simp] theorem setLock_queueRe (s : State) (k : Nat) (x : Lock) : (setLock s k x).queueRe = s.queueRe := rfl
@[simp] theorem setLock_ended (s : State) (k : Nat) (x : Lock) : (setLock s k x).ended = s.ended := rfl
@[simp] theorem setLock_flights (s : State) (k : Nat) (x : Lock) : (setLock s k x).flights = s.flights := rfl
@[simp] theorem setLock_fsets (s : State) (k : Nat) (x : Lock) : (setLock s k x).fsets = s.fsets := rfl
@[simp] theorem setLock_shards (s : State) (k : Nat) (x : Lock) : (setLock s k x).shards = s.shards := rfl
@[simp] theorem setLock_scheds (s : State) (k : Nat) (x : Lock) : (setLock s k x).scheds = s.scheds := rfl
@[simp] theorem setLock_loans (s : State) (k : Nat) (x : Lock) : (setLock s k x).loans = s.loans := rfl
@[simp] theorem setLock_pools (s : State) (k : Nat) (x : Lock) : (setLock s k x).pools = s.pools := rfl
@[simp] theorem setLock_objs (s : State) (k : Nat) (x : Lock) : (setLock s k x).objs = s.objs := rfl
@[simp] theorem setLock_pfs (s : State) (k : Nat) (x : Lock) : (setLock s k x).pfs = s.pfs := rfl
@[simp] theorem setLock_census (s : State) (k : Nat) (x : Lock) : (setLock s k x).census = s.census := rfl
@[simp] theorem setLock_watch (s : State) (k : Nat) (x : Lock) : (setLock s k x).watch = s.watch := rfl
@[simp] theorem setLock_twatch (s : State) (k : Nat) (x : Lock) : (setLock s k x).twatch = s.twatch := rfl
@[simp] theorem setLock_suspects (s : State) (k : Nat) (x : Lock) : (setLock s k x).suspects = s.suspects := rfl
@[simp] theorem setLock_links (s : State) (k : Nat) (x : Lock) : (setLock s k x).links = s.links := rfl
@[simp] theorem setLock_dies (s : State) (k : Nat) (x : Lock) : (setLock s k x).dies = s.dies := rfl
@[simp] theorem setLock_roots (s : State) (k : Nat) (x : Lock) : (setLock s k x).roots = s.roots := rfl
@[simp] theorem setLock_engines (s : State) (k : Nat) (x : Lock) : (setLock s k x).engines = s.engines := rfl
@[simp] theorem setLock_testing (s : State) (k : Nat) (x : Lock) : (setLock s k x).testing = s.testing := rfl
@[simp] theorem setLock_testQ (s : State) (k : Nat) (x : Lock) : (setLock s k x).testQ = s.testQ := rfl
@[simp] theorem setLock_changes (s : State) (k : Nat) (x : Lock) : (setLock s k x).changes = s.changes := rfl
@[simp] theorem setLock_modEpoch (s : State) (k : Nat) (x : Lock) : (setLock s k x).modEpoch = s.modEpoch := rfl
@[simp] theorem setLock_ports (s : State) (k : Nat) (x : Lock) : (setLock s k x).ports = s.ports := rfl
@[simp] theorem setLock_domain (s : State) (k : Nat) (x : Lock) : (setLock s k x).domain = s.domain := rfl
@[simp] theorem setLock_rounds (s : State) (k : Nat) (x : Lock) : (setLock s k x).rounds = s.rounds := rfl
@[simp] theorem setLock_streams (s : State) (k : Nat) (x : Lock) : (setLock s k x).streams = s.streams := rfl
@[simp] theorem setLock_sent (s : State) (k : Nat) (x : Lock) : (setLock s k x).sent = s.sent := rfl
@[simp] theorem setLock_held (s : State) (k : Nat) (x : Lock) : (setLock s k x).held = s.held := rfl
@[simp] theorem setLock_transit (s : State) (k : Nat) (x : Lock) : (setLock s k x).transit = s.transit := rfl
@[simp] theorem setLock_sessions (s : State) (k : Nat) (x : Lock) : (setLock s k x).sessions = s.sessions := rfl
@[simp] theorem setLock_counts (s : State) (k : Nat) (x : Lock) : (setLock s k x).counts = s.counts := rfl
@[simp] theorem setLock_bufs (s : State) (k : Nat) (x : Lock) : (setLock s k x).bufs = s.bufs := rfl
@[simp] theorem setLock_cxl (s : State) (k : Nat) (x : Lock) : (setLock s k x).cxl = s.cxl := rfl
@[simp] theorem setLock_msix (s : State) (k : Nat) (x : Lock) : (setLock s k x).msix = s.msix := rfl
@[simp] theorem setLock_answers (s : State) (k : Nat) (x : Lock) : (setLock s k x).answers = s.answers := rfl
@[simp] theorem setLock_nextSes (s : State) (k : Nat) (x : Lock) : (setLock s k x).nextSes = s.nextSes := rfl
@[simp] theorem setLock_sesQ (s : State) (k : Nat) (x : Lock) : (setLock s k x).sesQ = s.sesQ := rfl
@[simp] theorem setLock_modQ (s : State) (k : Nat) (x : Lock) : (setLock s k x).modQ = s.modQ := rfl
@[simp] theorem setLock_sics (s : State) (k : Nat) (x : Lock) : (setLock s k x).sics = s.sics := rfl
@[simp] theorem setLock_cnts (s : State) (k : Nat) (x : Lock) : (setLock s k x).cnts = s.cnts := rfl
@[simp] theorem setLock_traces (s : State) (k : Nat) (x : Lock) : (setLock s k x).traces = s.traces := rfl
@[simp] theorem setLock_dump (s : State) (k : Nat) (x : Lock) : (setLock s k x).dump = s.dump := rfl
@[simp] theorem setLock_cfg (s : State) (k : Nat) (x : Lock) : (setLock s k x).cfg = s.cfg := rfl
@[simp] theorem setLock_power (s : State) (k : Nat) (x : Lock) : (setLock s k x).power = s.power := rfl
@[simp] theorem setLock_tap (s : State) (k : Nat) (x : Lock) : (setLock s k x).tap = s.tap := rfl
@[simp] theorem setLock_trust (s : State) (k : Nat) (x : Lock) : (setLock s k x).trust = s.trust := rfl
@[simp] theorem setLock_fresh (s : State) (k : Nat) (x : Lock) : (setLock s k x).fresh = s.fresh := rfl

-- setSes

@[simp] theorem setSes_pending (s : State) (k : Nat) (x : Session) : (setSes s k x).pending = s.pending := rfl
@[simp] theorem setSes_time (s : State) (k : Nat) (x : Session) : (setSes s k x).time = s.time := rfl
@[simp] theorem setSes_mem (s : State) (k : Nat) (x : Session) : (setSes s k x).mem = s.mem := rfl
@[simp] theorem setSes_host (s : State) (k : Nat) (x : Session) : (setSes s k x).host = s.host := rfl
@[simp] theorem setSes_keys (s : State) (k : Nat) (x : Session) : (setSes s k x).keys = s.keys := rfl
@[simp] theorem setSes_poison (s : State) (k : Nat) (x : Session) : (setSes s k x).poison = s.poison := rfl
@[simp] theorem setSes_poundQ (s : State) (k : Nat) (x : Session) : (setSes s k x).poundQ = s.poundQ := rfl
@[simp] theorem setSes_remoteSt (s : State) (k : Nat) (x : Session) : (setSes s k x).remoteSt = s.remoteSt := rfl
@[simp] theorem setSes_memRegs (s : State) (k : Nat) (x : Session) : (setSes s k x).memRegs = s.memRegs := rfl
@[simp] theorem setSes_cmds (s : State) (k : Nat) (x : Session) : (setSes s k x).cmds = s.cmds := rfl
@[simp] theorem setSes_nextId (s : State) (k : Nat) (x : Session) : (setSes s k x).nextId = s.nextId := rfl
@[simp] theorem setSes_serial (s : State) (k : Nat) (x : Session) : (setSes s k x).serial = s.serial := rfl
@[simp] theorem setSes_rings (s : State) (k : Nat) (x : Session) : (setSes s k x).rings = s.rings := rfl
@[simp] theorem setSes_locks (s : State) (k : Nat) (x : Session) : (setSes s k x).locks = s.locks := rfl
@[simp] theorem setSes_jobs (s : State) (k : Nat) (x : Session) : (setSes s k x).jobs = s.jobs := rfl
@[simp] theorem setSes_ctxs (s : State) (k : Nat) (x : Session) : (setSes s k x).ctxs = s.ctxs := rfl
@[simp] theorem setSes_queueRe (s : State) (k : Nat) (x : Session) : (setSes s k x).queueRe = s.queueRe := rfl
@[simp] theorem setSes_ended (s : State) (k : Nat) (x : Session) : (setSes s k x).ended = s.ended := rfl
@[simp] theorem setSes_flights (s : State) (k : Nat) (x : Session) : (setSes s k x).flights = s.flights := rfl
@[simp] theorem setSes_fsets (s : State) (k : Nat) (x : Session) : (setSes s k x).fsets = s.fsets := rfl
@[simp] theorem setSes_shards (s : State) (k : Nat) (x : Session) : (setSes s k x).shards = s.shards := rfl
@[simp] theorem setSes_scheds (s : State) (k : Nat) (x : Session) : (setSes s k x).scheds = s.scheds := rfl
@[simp] theorem setSes_loans (s : State) (k : Nat) (x : Session) : (setSes s k x).loans = s.loans := rfl
@[simp] theorem setSes_pools (s : State) (k : Nat) (x : Session) : (setSes s k x).pools = s.pools := rfl
@[simp] theorem setSes_objs (s : State) (k : Nat) (x : Session) : (setSes s k x).objs = s.objs := rfl
@[simp] theorem setSes_pfs (s : State) (k : Nat) (x : Session) : (setSes s k x).pfs = s.pfs := rfl
@[simp] theorem setSes_census (s : State) (k : Nat) (x : Session) : (setSes s k x).census = s.census := rfl
@[simp] theorem setSes_watch (s : State) (k : Nat) (x : Session) : (setSes s k x).watch = s.watch := rfl
@[simp] theorem setSes_twatch (s : State) (k : Nat) (x : Session) : (setSes s k x).twatch = s.twatch := rfl
@[simp] theorem setSes_suspects (s : State) (k : Nat) (x : Session) : (setSes s k x).suspects = s.suspects := rfl
@[simp] theorem setSes_links (s : State) (k : Nat) (x : Session) : (setSes s k x).links = s.links := rfl
@[simp] theorem setSes_dies (s : State) (k : Nat) (x : Session) : (setSes s k x).dies = s.dies := rfl
@[simp] theorem setSes_roots (s : State) (k : Nat) (x : Session) : (setSes s k x).roots = s.roots := rfl
@[simp] theorem setSes_engines (s : State) (k : Nat) (x : Session) : (setSes s k x).engines = s.engines := rfl
@[simp] theorem setSes_testing (s : State) (k : Nat) (x : Session) : (setSes s k x).testing = s.testing := rfl
@[simp] theorem setSes_testQ (s : State) (k : Nat) (x : Session) : (setSes s k x).testQ = s.testQ := rfl
@[simp] theorem setSes_changes (s : State) (k : Nat) (x : Session) : (setSes s k x).changes = s.changes := rfl
@[simp] theorem setSes_modEpoch (s : State) (k : Nat) (x : Session) : (setSes s k x).modEpoch = s.modEpoch := rfl
@[simp] theorem setSes_ports (s : State) (k : Nat) (x : Session) : (setSes s k x).ports = s.ports := rfl
@[simp] theorem setSes_domain (s : State) (k : Nat) (x : Session) : (setSes s k x).domain = s.domain := rfl
@[simp] theorem setSes_rounds (s : State) (k : Nat) (x : Session) : (setSes s k x).rounds = s.rounds := rfl
@[simp] theorem setSes_streams (s : State) (k : Nat) (x : Session) : (setSes s k x).streams = s.streams := rfl
@[simp] theorem setSes_sent (s : State) (k : Nat) (x : Session) : (setSes s k x).sent = s.sent := rfl
@[simp] theorem setSes_held (s : State) (k : Nat) (x : Session) : (setSes s k x).held = s.held := rfl
@[simp] theorem setSes_transit (s : State) (k : Nat) (x : Session) : (setSes s k x).transit = s.transit := rfl
@[simp] theorem setSes_sessions (s : State) (k : Nat) (x : Session) : (setSes s k x).sessions = tset Session.rest s.sessions k x := rfl
@[simp] theorem setSes_counts (s : State) (k : Nat) (x : Session) : (setSes s k x).counts = s.counts := rfl
@[simp] theorem setSes_bufs (s : State) (k : Nat) (x : Session) : (setSes s k x).bufs = s.bufs := rfl
@[simp] theorem setSes_cxl (s : State) (k : Nat) (x : Session) : (setSes s k x).cxl = s.cxl := rfl
@[simp] theorem setSes_msix (s : State) (k : Nat) (x : Session) : (setSes s k x).msix = s.msix := rfl
@[simp] theorem setSes_answers (s : State) (k : Nat) (x : Session) : (setSes s k x).answers = s.answers := rfl
@[simp] theorem setSes_nextSes (s : State) (k : Nat) (x : Session) : (setSes s k x).nextSes = s.nextSes := rfl
@[simp] theorem setSes_sesQ (s : State) (k : Nat) (x : Session) : (setSes s k x).sesQ = s.sesQ := rfl
@[simp] theorem setSes_modQ (s : State) (k : Nat) (x : Session) : (setSes s k x).modQ = s.modQ := rfl
@[simp] theorem setSes_sics (s : State) (k : Nat) (x : Session) : (setSes s k x).sics = s.sics := rfl
@[simp] theorem setSes_cnts (s : State) (k : Nat) (x : Session) : (setSes s k x).cnts = s.cnts := rfl
@[simp] theorem setSes_traces (s : State) (k : Nat) (x : Session) : (setSes s k x).traces = s.traces := rfl
@[simp] theorem setSes_dump (s : State) (k : Nat) (x : Session) : (setSes s k x).dump = s.dump := rfl
@[simp] theorem setSes_cfg (s : State) (k : Nat) (x : Session) : (setSes s k x).cfg = s.cfg := rfl
@[simp] theorem setSes_power (s : State) (k : Nat) (x : Session) : (setSes s k x).power = s.power := rfl
@[simp] theorem setSes_tap (s : State) (k : Nat) (x : Session) : (setSes s k x).tap = s.tap := rfl
@[simp] theorem setSes_trust (s : State) (k : Nat) (x : Session) : (setSes s k x).trust = s.trust := rfl
@[simp] theorem setSes_fresh (s : State) (k : Nat) (x : Session) : (setSes s k x).fresh = s.fresh := rfl

-- setCounts

@[simp] theorem setCounts_pending (s : State) (k : Nat) (x : SlotCounts) : (setCounts s k x).pending = s.pending := rfl
@[simp] theorem setCounts_time (s : State) (k : Nat) (x : SlotCounts) : (setCounts s k x).time = s.time := rfl
@[simp] theorem setCounts_mem (s : State) (k : Nat) (x : SlotCounts) : (setCounts s k x).mem = s.mem := rfl
@[simp] theorem setCounts_host (s : State) (k : Nat) (x : SlotCounts) : (setCounts s k x).host = s.host := rfl
@[simp] theorem setCounts_keys (s : State) (k : Nat) (x : SlotCounts) : (setCounts s k x).keys = s.keys := rfl
@[simp] theorem setCounts_poison (s : State) (k : Nat) (x : SlotCounts) : (setCounts s k x).poison = s.poison := rfl
@[simp] theorem setCounts_poundQ (s : State) (k : Nat) (x : SlotCounts) : (setCounts s k x).poundQ = s.poundQ := rfl
@[simp] theorem setCounts_remoteSt (s : State) (k : Nat) (x : SlotCounts) : (setCounts s k x).remoteSt = s.remoteSt := rfl
@[simp] theorem setCounts_memRegs (s : State) (k : Nat) (x : SlotCounts) : (setCounts s k x).memRegs = s.memRegs := rfl
@[simp] theorem setCounts_cmds (s : State) (k : Nat) (x : SlotCounts) : (setCounts s k x).cmds = s.cmds := rfl
@[simp] theorem setCounts_nextId (s : State) (k : Nat) (x : SlotCounts) : (setCounts s k x).nextId = s.nextId := rfl
@[simp] theorem setCounts_serial (s : State) (k : Nat) (x : SlotCounts) : (setCounts s k x).serial = s.serial := rfl
@[simp] theorem setCounts_rings (s : State) (k : Nat) (x : SlotCounts) : (setCounts s k x).rings = s.rings := rfl
@[simp] theorem setCounts_locks (s : State) (k : Nat) (x : SlotCounts) : (setCounts s k x).locks = s.locks := rfl
@[simp] theorem setCounts_jobs (s : State) (k : Nat) (x : SlotCounts) : (setCounts s k x).jobs = s.jobs := rfl
@[simp] theorem setCounts_ctxs (s : State) (k : Nat) (x : SlotCounts) : (setCounts s k x).ctxs = s.ctxs := rfl
@[simp] theorem setCounts_queueRe (s : State) (k : Nat) (x : SlotCounts) : (setCounts s k x).queueRe = s.queueRe := rfl
@[simp] theorem setCounts_ended (s : State) (k : Nat) (x : SlotCounts) : (setCounts s k x).ended = s.ended := rfl
@[simp] theorem setCounts_flights (s : State) (k : Nat) (x : SlotCounts) : (setCounts s k x).flights = s.flights := rfl
@[simp] theorem setCounts_fsets (s : State) (k : Nat) (x : SlotCounts) : (setCounts s k x).fsets = s.fsets := rfl
@[simp] theorem setCounts_shards (s : State) (k : Nat) (x : SlotCounts) : (setCounts s k x).shards = s.shards := rfl
@[simp] theorem setCounts_scheds (s : State) (k : Nat) (x : SlotCounts) : (setCounts s k x).scheds = s.scheds := rfl
@[simp] theorem setCounts_loans (s : State) (k : Nat) (x : SlotCounts) : (setCounts s k x).loans = s.loans := rfl
@[simp] theorem setCounts_pools (s : State) (k : Nat) (x : SlotCounts) : (setCounts s k x).pools = s.pools := rfl
@[simp] theorem setCounts_objs (s : State) (k : Nat) (x : SlotCounts) : (setCounts s k x).objs = s.objs := rfl
@[simp] theorem setCounts_pfs (s : State) (k : Nat) (x : SlotCounts) : (setCounts s k x).pfs = s.pfs := rfl
@[simp] theorem setCounts_census (s : State) (k : Nat) (x : SlotCounts) : (setCounts s k x).census = s.census := rfl
@[simp] theorem setCounts_watch (s : State) (k : Nat) (x : SlotCounts) : (setCounts s k x).watch = s.watch := rfl
@[simp] theorem setCounts_twatch (s : State) (k : Nat) (x : SlotCounts) : (setCounts s k x).twatch = s.twatch := rfl
@[simp] theorem setCounts_suspects (s : State) (k : Nat) (x : SlotCounts) : (setCounts s k x).suspects = s.suspects := rfl
@[simp] theorem setCounts_links (s : State) (k : Nat) (x : SlotCounts) : (setCounts s k x).links = s.links := rfl
@[simp] theorem setCounts_dies (s : State) (k : Nat) (x : SlotCounts) : (setCounts s k x).dies = s.dies := rfl
@[simp] theorem setCounts_roots (s : State) (k : Nat) (x : SlotCounts) : (setCounts s k x).roots = s.roots := rfl
@[simp] theorem setCounts_engines (s : State) (k : Nat) (x : SlotCounts) : (setCounts s k x).engines = s.engines := rfl
@[simp] theorem setCounts_testing (s : State) (k : Nat) (x : SlotCounts) : (setCounts s k x).testing = s.testing := rfl
@[simp] theorem setCounts_testQ (s : State) (k : Nat) (x : SlotCounts) : (setCounts s k x).testQ = s.testQ := rfl
@[simp] theorem setCounts_changes (s : State) (k : Nat) (x : SlotCounts) : (setCounts s k x).changes = s.changes := rfl
@[simp] theorem setCounts_modEpoch (s : State) (k : Nat) (x : SlotCounts) : (setCounts s k x).modEpoch = s.modEpoch := rfl
@[simp] theorem setCounts_ports (s : State) (k : Nat) (x : SlotCounts) : (setCounts s k x).ports = s.ports := rfl
@[simp] theorem setCounts_domain (s : State) (k : Nat) (x : SlotCounts) : (setCounts s k x).domain = s.domain := rfl
@[simp] theorem setCounts_rounds (s : State) (k : Nat) (x : SlotCounts) : (setCounts s k x).rounds = s.rounds := rfl
@[simp] theorem setCounts_streams (s : State) (k : Nat) (x : SlotCounts) : (setCounts s k x).streams = s.streams := rfl
@[simp] theorem setCounts_sent (s : State) (k : Nat) (x : SlotCounts) : (setCounts s k x).sent = s.sent := rfl
@[simp] theorem setCounts_held (s : State) (k : Nat) (x : SlotCounts) : (setCounts s k x).held = s.held := rfl
@[simp] theorem setCounts_transit (s : State) (k : Nat) (x : SlotCounts) : (setCounts s k x).transit = s.transit := rfl
@[simp] theorem setCounts_sessions (s : State) (k : Nat) (x : SlotCounts) : (setCounts s k x).sessions = s.sessions := rfl
@[simp] theorem setCounts_counts (s : State) (k : Nat) (x : SlotCounts) : (setCounts s k x).counts = tset SlotCounts.rest s.counts k x := rfl
@[simp] theorem setCounts_bufs (s : State) (k : Nat) (x : SlotCounts) : (setCounts s k x).bufs = s.bufs := rfl
@[simp] theorem setCounts_cxl (s : State) (k : Nat) (x : SlotCounts) : (setCounts s k x).cxl = s.cxl := rfl
@[simp] theorem setCounts_msix (s : State) (k : Nat) (x : SlotCounts) : (setCounts s k x).msix = s.msix := rfl
@[simp] theorem setCounts_answers (s : State) (k : Nat) (x : SlotCounts) : (setCounts s k x).answers = s.answers := rfl
@[simp] theorem setCounts_nextSes (s : State) (k : Nat) (x : SlotCounts) : (setCounts s k x).nextSes = s.nextSes := rfl
@[simp] theorem setCounts_sesQ (s : State) (k : Nat) (x : SlotCounts) : (setCounts s k x).sesQ = s.sesQ := rfl
@[simp] theorem setCounts_modQ (s : State) (k : Nat) (x : SlotCounts) : (setCounts s k x).modQ = s.modQ := rfl
@[simp] theorem setCounts_sics (s : State) (k : Nat) (x : SlotCounts) : (setCounts s k x).sics = s.sics := rfl
@[simp] theorem setCounts_cnts (s : State) (k : Nat) (x : SlotCounts) : (setCounts s k x).cnts = s.cnts := rfl
@[simp] theorem setCounts_traces (s : State) (k : Nat) (x : SlotCounts) : (setCounts s k x).traces = s.traces := rfl
@[simp] theorem setCounts_dump (s : State) (k : Nat) (x : SlotCounts) : (setCounts s k x).dump = s.dump := rfl
@[simp] theorem setCounts_cfg (s : State) (k : Nat) (x : SlotCounts) : (setCounts s k x).cfg = s.cfg := rfl
@[simp] theorem setCounts_power (s : State) (k : Nat) (x : SlotCounts) : (setCounts s k x).power = s.power := rfl
@[simp] theorem setCounts_tap (s : State) (k : Nat) (x : SlotCounts) : (setCounts s k x).tap = s.tap := rfl
@[simp] theorem setCounts_trust (s : State) (k : Nat) (x : SlotCounts) : (setCounts s k x).trust = s.trust := rfl
@[simp] theorem setCounts_fresh (s : State) (k : Nat) (x : SlotCounts) : (setCounts s k x).fresh = s.fresh := rfl

-- setPort

@[simp] theorem setPort_pending (s : State) (k : Nat) (x : Port) : (setPort s k x).pending = s.pending := rfl
@[simp] theorem setPort_time (s : State) (k : Nat) (x : Port) : (setPort s k x).time = s.time := rfl
@[simp] theorem setPort_mem (s : State) (k : Nat) (x : Port) : (setPort s k x).mem = s.mem := rfl
@[simp] theorem setPort_host (s : State) (k : Nat) (x : Port) : (setPort s k x).host = s.host := rfl
@[simp] theorem setPort_keys (s : State) (k : Nat) (x : Port) : (setPort s k x).keys = s.keys := rfl
@[simp] theorem setPort_poison (s : State) (k : Nat) (x : Port) : (setPort s k x).poison = s.poison := rfl
@[simp] theorem setPort_poundQ (s : State) (k : Nat) (x : Port) : (setPort s k x).poundQ = s.poundQ := rfl
@[simp] theorem setPort_remoteSt (s : State) (k : Nat) (x : Port) : (setPort s k x).remoteSt = s.remoteSt := rfl
@[simp] theorem setPort_memRegs (s : State) (k : Nat) (x : Port) : (setPort s k x).memRegs = s.memRegs := rfl
@[simp] theorem setPort_cmds (s : State) (k : Nat) (x : Port) : (setPort s k x).cmds = s.cmds := rfl
@[simp] theorem setPort_nextId (s : State) (k : Nat) (x : Port) : (setPort s k x).nextId = s.nextId := rfl
@[simp] theorem setPort_serial (s : State) (k : Nat) (x : Port) : (setPort s k x).serial = s.serial := rfl
@[simp] theorem setPort_rings (s : State) (k : Nat) (x : Port) : (setPort s k x).rings = s.rings := rfl
@[simp] theorem setPort_locks (s : State) (k : Nat) (x : Port) : (setPort s k x).locks = s.locks := rfl
@[simp] theorem setPort_jobs (s : State) (k : Nat) (x : Port) : (setPort s k x).jobs = s.jobs := rfl
@[simp] theorem setPort_ctxs (s : State) (k : Nat) (x : Port) : (setPort s k x).ctxs = s.ctxs := rfl
@[simp] theorem setPort_queueRe (s : State) (k : Nat) (x : Port) : (setPort s k x).queueRe = s.queueRe := rfl
@[simp] theorem setPort_ended (s : State) (k : Nat) (x : Port) : (setPort s k x).ended = s.ended := rfl
@[simp] theorem setPort_flights (s : State) (k : Nat) (x : Port) : (setPort s k x).flights = s.flights := rfl
@[simp] theorem setPort_fsets (s : State) (k : Nat) (x : Port) : (setPort s k x).fsets = s.fsets := rfl
@[simp] theorem setPort_shards (s : State) (k : Nat) (x : Port) : (setPort s k x).shards = s.shards := rfl
@[simp] theorem setPort_scheds (s : State) (k : Nat) (x : Port) : (setPort s k x).scheds = s.scheds := rfl
@[simp] theorem setPort_loans (s : State) (k : Nat) (x : Port) : (setPort s k x).loans = s.loans := rfl
@[simp] theorem setPort_pools (s : State) (k : Nat) (x : Port) : (setPort s k x).pools = s.pools := rfl
@[simp] theorem setPort_objs (s : State) (k : Nat) (x : Port) : (setPort s k x).objs = s.objs := rfl
@[simp] theorem setPort_pfs (s : State) (k : Nat) (x : Port) : (setPort s k x).pfs = s.pfs := rfl
@[simp] theorem setPort_census (s : State) (k : Nat) (x : Port) : (setPort s k x).census = s.census := rfl
@[simp] theorem setPort_watch (s : State) (k : Nat) (x : Port) : (setPort s k x).watch = s.watch := rfl
@[simp] theorem setPort_twatch (s : State) (k : Nat) (x : Port) : (setPort s k x).twatch = s.twatch := rfl
@[simp] theorem setPort_suspects (s : State) (k : Nat) (x : Port) : (setPort s k x).suspects = s.suspects := rfl
@[simp] theorem setPort_links (s : State) (k : Nat) (x : Port) : (setPort s k x).links = s.links := rfl
@[simp] theorem setPort_dies (s : State) (k : Nat) (x : Port) : (setPort s k x).dies = s.dies := rfl
@[simp] theorem setPort_roots (s : State) (k : Nat) (x : Port) : (setPort s k x).roots = s.roots := rfl
@[simp] theorem setPort_engines (s : State) (k : Nat) (x : Port) : (setPort s k x).engines = s.engines := rfl
@[simp] theorem setPort_testing (s : State) (k : Nat) (x : Port) : (setPort s k x).testing = s.testing := rfl
@[simp] theorem setPort_testQ (s : State) (k : Nat) (x : Port) : (setPort s k x).testQ = s.testQ := rfl
@[simp] theorem setPort_changes (s : State) (k : Nat) (x : Port) : (setPort s k x).changes = s.changes := rfl
@[simp] theorem setPort_modEpoch (s : State) (k : Nat) (x : Port) : (setPort s k x).modEpoch = s.modEpoch := rfl
@[simp] theorem setPort_ports (s : State) (k : Nat) (x : Port) : (setPort s k x).ports = tset Port.rest s.ports k x := rfl
@[simp] theorem setPort_domain (s : State) (k : Nat) (x : Port) : (setPort s k x).domain = s.domain := rfl
@[simp] theorem setPort_rounds (s : State) (k : Nat) (x : Port) : (setPort s k x).rounds = s.rounds := rfl
@[simp] theorem setPort_streams (s : State) (k : Nat) (x : Port) : (setPort s k x).streams = s.streams := rfl
@[simp] theorem setPort_sent (s : State) (k : Nat) (x : Port) : (setPort s k x).sent = s.sent := rfl
@[simp] theorem setPort_held (s : State) (k : Nat) (x : Port) : (setPort s k x).held = s.held := rfl
@[simp] theorem setPort_transit (s : State) (k : Nat) (x : Port) : (setPort s k x).transit = s.transit := rfl
@[simp] theorem setPort_sessions (s : State) (k : Nat) (x : Port) : (setPort s k x).sessions = s.sessions := rfl
@[simp] theorem setPort_counts (s : State) (k : Nat) (x : Port) : (setPort s k x).counts = s.counts := rfl
@[simp] theorem setPort_bufs (s : State) (k : Nat) (x : Port) : (setPort s k x).bufs = s.bufs := rfl
@[simp] theorem setPort_cxl (s : State) (k : Nat) (x : Port) : (setPort s k x).cxl = s.cxl := rfl
@[simp] theorem setPort_msix (s : State) (k : Nat) (x : Port) : (setPort s k x).msix = s.msix := rfl
@[simp] theorem setPort_answers (s : State) (k : Nat) (x : Port) : (setPort s k x).answers = s.answers := rfl
@[simp] theorem setPort_nextSes (s : State) (k : Nat) (x : Port) : (setPort s k x).nextSes = s.nextSes := rfl
@[simp] theorem setPort_sesQ (s : State) (k : Nat) (x : Port) : (setPort s k x).sesQ = s.sesQ := rfl
@[simp] theorem setPort_modQ (s : State) (k : Nat) (x : Port) : (setPort s k x).modQ = s.modQ := rfl
@[simp] theorem setPort_sics (s : State) (k : Nat) (x : Port) : (setPort s k x).sics = s.sics := rfl
@[simp] theorem setPort_cnts (s : State) (k : Nat) (x : Port) : (setPort s k x).cnts = s.cnts := rfl
@[simp] theorem setPort_traces (s : State) (k : Nat) (x : Port) : (setPort s k x).traces = s.traces := rfl
@[simp] theorem setPort_dump (s : State) (k : Nat) (x : Port) : (setPort s k x).dump = s.dump := rfl
@[simp] theorem setPort_cfg (s : State) (k : Nat) (x : Port) : (setPort s k x).cfg = s.cfg := rfl
@[simp] theorem setPort_power (s : State) (k : Nat) (x : Port) : (setPort s k x).power = s.power := rfl
@[simp] theorem setPort_tap (s : State) (k : Nat) (x : Port) : (setPort s k x).tap = s.tap := rfl
@[simp] theorem setPort_trust (s : State) (k : Nat) (x : Port) : (setPort s k x).trust = s.trust := rfl
@[simp] theorem setPort_fresh (s : State) (k : Nat) (x : Port) : (setPort s k x).fresh = s.fresh := rfl

-- setMemRegs

@[simp] theorem setMemRegs_pending (s : State) (k : Nat) (x : MemRegs) : (setMemRegs s k x).pending = s.pending := rfl
@[simp] theorem setMemRegs_time (s : State) (k : Nat) (x : MemRegs) : (setMemRegs s k x).time = s.time := rfl
@[simp] theorem setMemRegs_mem (s : State) (k : Nat) (x : MemRegs) : (setMemRegs s k x).mem = s.mem := rfl
@[simp] theorem setMemRegs_host (s : State) (k : Nat) (x : MemRegs) : (setMemRegs s k x).host = s.host := rfl
@[simp] theorem setMemRegs_keys (s : State) (k : Nat) (x : MemRegs) : (setMemRegs s k x).keys = s.keys := rfl
@[simp] theorem setMemRegs_poison (s : State) (k : Nat) (x : MemRegs) : (setMemRegs s k x).poison = s.poison := rfl
@[simp] theorem setMemRegs_poundQ (s : State) (k : Nat) (x : MemRegs) : (setMemRegs s k x).poundQ = s.poundQ := rfl
@[simp] theorem setMemRegs_remoteSt (s : State) (k : Nat) (x : MemRegs) : (setMemRegs s k x).remoteSt = s.remoteSt := rfl
@[simp] theorem setMemRegs_memRegs (s : State) (k : Nat) (x : MemRegs) : (setMemRegs s k x).memRegs = tset MemRegs.rest s.memRegs k x := rfl
@[simp] theorem setMemRegs_cmds (s : State) (k : Nat) (x : MemRegs) : (setMemRegs s k x).cmds = s.cmds := rfl
@[simp] theorem setMemRegs_nextId (s : State) (k : Nat) (x : MemRegs) : (setMemRegs s k x).nextId = s.nextId := rfl
@[simp] theorem setMemRegs_serial (s : State) (k : Nat) (x : MemRegs) : (setMemRegs s k x).serial = s.serial := rfl
@[simp] theorem setMemRegs_rings (s : State) (k : Nat) (x : MemRegs) : (setMemRegs s k x).rings = s.rings := rfl
@[simp] theorem setMemRegs_locks (s : State) (k : Nat) (x : MemRegs) : (setMemRegs s k x).locks = s.locks := rfl
@[simp] theorem setMemRegs_jobs (s : State) (k : Nat) (x : MemRegs) : (setMemRegs s k x).jobs = s.jobs := rfl
@[simp] theorem setMemRegs_ctxs (s : State) (k : Nat) (x : MemRegs) : (setMemRegs s k x).ctxs = s.ctxs := rfl
@[simp] theorem setMemRegs_queueRe (s : State) (k : Nat) (x : MemRegs) : (setMemRegs s k x).queueRe = s.queueRe := rfl
@[simp] theorem setMemRegs_ended (s : State) (k : Nat) (x : MemRegs) : (setMemRegs s k x).ended = s.ended := rfl
@[simp] theorem setMemRegs_flights (s : State) (k : Nat) (x : MemRegs) : (setMemRegs s k x).flights = s.flights := rfl
@[simp] theorem setMemRegs_fsets (s : State) (k : Nat) (x : MemRegs) : (setMemRegs s k x).fsets = s.fsets := rfl
@[simp] theorem setMemRegs_shards (s : State) (k : Nat) (x : MemRegs) : (setMemRegs s k x).shards = s.shards := rfl
@[simp] theorem setMemRegs_scheds (s : State) (k : Nat) (x : MemRegs) : (setMemRegs s k x).scheds = s.scheds := rfl
@[simp] theorem setMemRegs_loans (s : State) (k : Nat) (x : MemRegs) : (setMemRegs s k x).loans = s.loans := rfl
@[simp] theorem setMemRegs_pools (s : State) (k : Nat) (x : MemRegs) : (setMemRegs s k x).pools = s.pools := rfl
@[simp] theorem setMemRegs_objs (s : State) (k : Nat) (x : MemRegs) : (setMemRegs s k x).objs = s.objs := rfl
@[simp] theorem setMemRegs_pfs (s : State) (k : Nat) (x : MemRegs) : (setMemRegs s k x).pfs = s.pfs := rfl
@[simp] theorem setMemRegs_census (s : State) (k : Nat) (x : MemRegs) : (setMemRegs s k x).census = s.census := rfl
@[simp] theorem setMemRegs_watch (s : State) (k : Nat) (x : MemRegs) : (setMemRegs s k x).watch = s.watch := rfl
@[simp] theorem setMemRegs_twatch (s : State) (k : Nat) (x : MemRegs) : (setMemRegs s k x).twatch = s.twatch := rfl
@[simp] theorem setMemRegs_suspects (s : State) (k : Nat) (x : MemRegs) : (setMemRegs s k x).suspects = s.suspects := rfl
@[simp] theorem setMemRegs_links (s : State) (k : Nat) (x : MemRegs) : (setMemRegs s k x).links = s.links := rfl
@[simp] theorem setMemRegs_dies (s : State) (k : Nat) (x : MemRegs) : (setMemRegs s k x).dies = s.dies := rfl
@[simp] theorem setMemRegs_roots (s : State) (k : Nat) (x : MemRegs) : (setMemRegs s k x).roots = s.roots := rfl
@[simp] theorem setMemRegs_engines (s : State) (k : Nat) (x : MemRegs) : (setMemRegs s k x).engines = s.engines := rfl
@[simp] theorem setMemRegs_testing (s : State) (k : Nat) (x : MemRegs) : (setMemRegs s k x).testing = s.testing := rfl
@[simp] theorem setMemRegs_testQ (s : State) (k : Nat) (x : MemRegs) : (setMemRegs s k x).testQ = s.testQ := rfl
@[simp] theorem setMemRegs_changes (s : State) (k : Nat) (x : MemRegs) : (setMemRegs s k x).changes = s.changes := rfl
@[simp] theorem setMemRegs_modEpoch (s : State) (k : Nat) (x : MemRegs) : (setMemRegs s k x).modEpoch = s.modEpoch := rfl
@[simp] theorem setMemRegs_ports (s : State) (k : Nat) (x : MemRegs) : (setMemRegs s k x).ports = s.ports := rfl
@[simp] theorem setMemRegs_domain (s : State) (k : Nat) (x : MemRegs) : (setMemRegs s k x).domain = s.domain := rfl
@[simp] theorem setMemRegs_rounds (s : State) (k : Nat) (x : MemRegs) : (setMemRegs s k x).rounds = s.rounds := rfl
@[simp] theorem setMemRegs_streams (s : State) (k : Nat) (x : MemRegs) : (setMemRegs s k x).streams = s.streams := rfl
@[simp] theorem setMemRegs_sent (s : State) (k : Nat) (x : MemRegs) : (setMemRegs s k x).sent = s.sent := rfl
@[simp] theorem setMemRegs_held (s : State) (k : Nat) (x : MemRegs) : (setMemRegs s k x).held = s.held := rfl
@[simp] theorem setMemRegs_transit (s : State) (k : Nat) (x : MemRegs) : (setMemRegs s k x).transit = s.transit := rfl
@[simp] theorem setMemRegs_sessions (s : State) (k : Nat) (x : MemRegs) : (setMemRegs s k x).sessions = s.sessions := rfl
@[simp] theorem setMemRegs_counts (s : State) (k : Nat) (x : MemRegs) : (setMemRegs s k x).counts = s.counts := rfl
@[simp] theorem setMemRegs_bufs (s : State) (k : Nat) (x : MemRegs) : (setMemRegs s k x).bufs = s.bufs := rfl
@[simp] theorem setMemRegs_cxl (s : State) (k : Nat) (x : MemRegs) : (setMemRegs s k x).cxl = s.cxl := rfl
@[simp] theorem setMemRegs_msix (s : State) (k : Nat) (x : MemRegs) : (setMemRegs s k x).msix = s.msix := rfl
@[simp] theorem setMemRegs_answers (s : State) (k : Nat) (x : MemRegs) : (setMemRegs s k x).answers = s.answers := rfl
@[simp] theorem setMemRegs_nextSes (s : State) (k : Nat) (x : MemRegs) : (setMemRegs s k x).nextSes = s.nextSes := rfl
@[simp] theorem setMemRegs_sesQ (s : State) (k : Nat) (x : MemRegs) : (setMemRegs s k x).sesQ = s.sesQ := rfl
@[simp] theorem setMemRegs_modQ (s : State) (k : Nat) (x : MemRegs) : (setMemRegs s k x).modQ = s.modQ := rfl
@[simp] theorem setMemRegs_sics (s : State) (k : Nat) (x : MemRegs) : (setMemRegs s k x).sics = s.sics := rfl
@[simp] theorem setMemRegs_cnts (s : State) (k : Nat) (x : MemRegs) : (setMemRegs s k x).cnts = s.cnts := rfl
@[simp] theorem setMemRegs_traces (s : State) (k : Nat) (x : MemRegs) : (setMemRegs s k x).traces = s.traces := rfl
@[simp] theorem setMemRegs_dump (s : State) (k : Nat) (x : MemRegs) : (setMemRegs s k x).dump = s.dump := rfl
@[simp] theorem setMemRegs_cfg (s : State) (k : Nat) (x : MemRegs) : (setMemRegs s k x).cfg = s.cfg := rfl
@[simp] theorem setMemRegs_power (s : State) (k : Nat) (x : MemRegs) : (setMemRegs s k x).power = s.power := rfl
@[simp] theorem setMemRegs_tap (s : State) (k : Nat) (x : MemRegs) : (setMemRegs s k x).tap = s.tap := rfl
@[simp] theorem setMemRegs_trust (s : State) (k : Nat) (x : MemRegs) : (setMemRegs s k x).trust = s.trust := rfl
@[simp] theorem setMemRegs_fresh (s : State) (k : Nat) (x : MemRegs) : (setMemRegs s k x).fresh = s.fresh := rfl

-- setRoot

@[simp] theorem setRoot_pending (s : State) (k : Nat) (x : RootRegs) : (setRoot s k x).pending = s.pending := rfl
@[simp] theorem setRoot_time (s : State) (k : Nat) (x : RootRegs) : (setRoot s k x).time = s.time := rfl
@[simp] theorem setRoot_mem (s : State) (k : Nat) (x : RootRegs) : (setRoot s k x).mem = s.mem := rfl
@[simp] theorem setRoot_host (s : State) (k : Nat) (x : RootRegs) : (setRoot s k x).host = s.host := rfl
@[simp] theorem setRoot_keys (s : State) (k : Nat) (x : RootRegs) : (setRoot s k x).keys = s.keys := rfl
@[simp] theorem setRoot_poison (s : State) (k : Nat) (x : RootRegs) : (setRoot s k x).poison = s.poison := rfl
@[simp] theorem setRoot_poundQ (s : State) (k : Nat) (x : RootRegs) : (setRoot s k x).poundQ = s.poundQ := rfl
@[simp] theorem setRoot_remoteSt (s : State) (k : Nat) (x : RootRegs) : (setRoot s k x).remoteSt = s.remoteSt := rfl
@[simp] theorem setRoot_memRegs (s : State) (k : Nat) (x : RootRegs) : (setRoot s k x).memRegs = s.memRegs := rfl
@[simp] theorem setRoot_cmds (s : State) (k : Nat) (x : RootRegs) : (setRoot s k x).cmds = s.cmds := rfl
@[simp] theorem setRoot_nextId (s : State) (k : Nat) (x : RootRegs) : (setRoot s k x).nextId = s.nextId := rfl
@[simp] theorem setRoot_serial (s : State) (k : Nat) (x : RootRegs) : (setRoot s k x).serial = s.serial := rfl
@[simp] theorem setRoot_rings (s : State) (k : Nat) (x : RootRegs) : (setRoot s k x).rings = s.rings := rfl
@[simp] theorem setRoot_locks (s : State) (k : Nat) (x : RootRegs) : (setRoot s k x).locks = s.locks := rfl
@[simp] theorem setRoot_jobs (s : State) (k : Nat) (x : RootRegs) : (setRoot s k x).jobs = s.jobs := rfl
@[simp] theorem setRoot_ctxs (s : State) (k : Nat) (x : RootRegs) : (setRoot s k x).ctxs = s.ctxs := rfl
@[simp] theorem setRoot_queueRe (s : State) (k : Nat) (x : RootRegs) : (setRoot s k x).queueRe = s.queueRe := rfl
@[simp] theorem setRoot_ended (s : State) (k : Nat) (x : RootRegs) : (setRoot s k x).ended = s.ended := rfl
@[simp] theorem setRoot_flights (s : State) (k : Nat) (x : RootRegs) : (setRoot s k x).flights = s.flights := rfl
@[simp] theorem setRoot_fsets (s : State) (k : Nat) (x : RootRegs) : (setRoot s k x).fsets = s.fsets := rfl
@[simp] theorem setRoot_shards (s : State) (k : Nat) (x : RootRegs) : (setRoot s k x).shards = s.shards := rfl
@[simp] theorem setRoot_scheds (s : State) (k : Nat) (x : RootRegs) : (setRoot s k x).scheds = s.scheds := rfl
@[simp] theorem setRoot_loans (s : State) (k : Nat) (x : RootRegs) : (setRoot s k x).loans = s.loans := rfl
@[simp] theorem setRoot_pools (s : State) (k : Nat) (x : RootRegs) : (setRoot s k x).pools = s.pools := rfl
@[simp] theorem setRoot_objs (s : State) (k : Nat) (x : RootRegs) : (setRoot s k x).objs = s.objs := rfl
@[simp] theorem setRoot_pfs (s : State) (k : Nat) (x : RootRegs) : (setRoot s k x).pfs = s.pfs := rfl
@[simp] theorem setRoot_census (s : State) (k : Nat) (x : RootRegs) : (setRoot s k x).census = s.census := rfl
@[simp] theorem setRoot_watch (s : State) (k : Nat) (x : RootRegs) : (setRoot s k x).watch = s.watch := rfl
@[simp] theorem setRoot_twatch (s : State) (k : Nat) (x : RootRegs) : (setRoot s k x).twatch = s.twatch := rfl
@[simp] theorem setRoot_suspects (s : State) (k : Nat) (x : RootRegs) : (setRoot s k x).suspects = s.suspects := rfl
@[simp] theorem setRoot_links (s : State) (k : Nat) (x : RootRegs) : (setRoot s k x).links = s.links := rfl
@[simp] theorem setRoot_dies (s : State) (k : Nat) (x : RootRegs) : (setRoot s k x).dies = s.dies := rfl
@[simp] theorem setRoot_roots (s : State) (k : Nat) (x : RootRegs) : (setRoot s k x).roots = tset RootRegs.rest s.roots k x := rfl
@[simp] theorem setRoot_engines (s : State) (k : Nat) (x : RootRegs) : (setRoot s k x).engines = s.engines := rfl
@[simp] theorem setRoot_testing (s : State) (k : Nat) (x : RootRegs) : (setRoot s k x).testing = s.testing := rfl
@[simp] theorem setRoot_testQ (s : State) (k : Nat) (x : RootRegs) : (setRoot s k x).testQ = s.testQ := rfl
@[simp] theorem setRoot_changes (s : State) (k : Nat) (x : RootRegs) : (setRoot s k x).changes = s.changes := rfl
@[simp] theorem setRoot_modEpoch (s : State) (k : Nat) (x : RootRegs) : (setRoot s k x).modEpoch = s.modEpoch := rfl
@[simp] theorem setRoot_ports (s : State) (k : Nat) (x : RootRegs) : (setRoot s k x).ports = s.ports := rfl
@[simp] theorem setRoot_domain (s : State) (k : Nat) (x : RootRegs) : (setRoot s k x).domain = s.domain := rfl
@[simp] theorem setRoot_rounds (s : State) (k : Nat) (x : RootRegs) : (setRoot s k x).rounds = s.rounds := rfl
@[simp] theorem setRoot_streams (s : State) (k : Nat) (x : RootRegs) : (setRoot s k x).streams = s.streams := rfl
@[simp] theorem setRoot_sent (s : State) (k : Nat) (x : RootRegs) : (setRoot s k x).sent = s.sent := rfl
@[simp] theorem setRoot_held (s : State) (k : Nat) (x : RootRegs) : (setRoot s k x).held = s.held := rfl
@[simp] theorem setRoot_transit (s : State) (k : Nat) (x : RootRegs) : (setRoot s k x).transit = s.transit := rfl
@[simp] theorem setRoot_sessions (s : State) (k : Nat) (x : RootRegs) : (setRoot s k x).sessions = s.sessions := rfl
@[simp] theorem setRoot_counts (s : State) (k : Nat) (x : RootRegs) : (setRoot s k x).counts = s.counts := rfl
@[simp] theorem setRoot_bufs (s : State) (k : Nat) (x : RootRegs) : (setRoot s k x).bufs = s.bufs := rfl
@[simp] theorem setRoot_cxl (s : State) (k : Nat) (x : RootRegs) : (setRoot s k x).cxl = s.cxl := rfl
@[simp] theorem setRoot_msix (s : State) (k : Nat) (x : RootRegs) : (setRoot s k x).msix = s.msix := rfl
@[simp] theorem setRoot_answers (s : State) (k : Nat) (x : RootRegs) : (setRoot s k x).answers = s.answers := rfl
@[simp] theorem setRoot_nextSes (s : State) (k : Nat) (x : RootRegs) : (setRoot s k x).nextSes = s.nextSes := rfl
@[simp] theorem setRoot_sesQ (s : State) (k : Nat) (x : RootRegs) : (setRoot s k x).sesQ = s.sesQ := rfl
@[simp] theorem setRoot_modQ (s : State) (k : Nat) (x : RootRegs) : (setRoot s k x).modQ = s.modQ := rfl
@[simp] theorem setRoot_sics (s : State) (k : Nat) (x : RootRegs) : (setRoot s k x).sics = s.sics := rfl
@[simp] theorem setRoot_cnts (s : State) (k : Nat) (x : RootRegs) : (setRoot s k x).cnts = s.cnts := rfl
@[simp] theorem setRoot_traces (s : State) (k : Nat) (x : RootRegs) : (setRoot s k x).traces = s.traces := rfl
@[simp] theorem setRoot_dump (s : State) (k : Nat) (x : RootRegs) : (setRoot s k x).dump = s.dump := rfl
@[simp] theorem setRoot_cfg (s : State) (k : Nat) (x : RootRegs) : (setRoot s k x).cfg = s.cfg := rfl
@[simp] theorem setRoot_power (s : State) (k : Nat) (x : RootRegs) : (setRoot s k x).power = s.power := rfl
@[simp] theorem setRoot_tap (s : State) (k : Nat) (x : RootRegs) : (setRoot s k x).tap = s.tap := rfl
@[simp] theorem setRoot_trust (s : State) (k : Nat) (x : RootRegs) : (setRoot s k x).trust = s.trust := rfl
@[simp] theorem setRoot_fresh (s : State) (k : Nat) (x : RootRegs) : (setRoot s k x).fresh = s.fresh := rfl

-- setCnt

@[simp] theorem setCnt_pending (s : State) (k : Nat) (x : CntBlock) : (setCnt s k x).pending = s.pending := rfl
@[simp] theorem setCnt_time (s : State) (k : Nat) (x : CntBlock) : (setCnt s k x).time = s.time := rfl
@[simp] theorem setCnt_mem (s : State) (k : Nat) (x : CntBlock) : (setCnt s k x).mem = s.mem := rfl
@[simp] theorem setCnt_host (s : State) (k : Nat) (x : CntBlock) : (setCnt s k x).host = s.host := rfl
@[simp] theorem setCnt_keys (s : State) (k : Nat) (x : CntBlock) : (setCnt s k x).keys = s.keys := rfl
@[simp] theorem setCnt_poison (s : State) (k : Nat) (x : CntBlock) : (setCnt s k x).poison = s.poison := rfl
@[simp] theorem setCnt_poundQ (s : State) (k : Nat) (x : CntBlock) : (setCnt s k x).poundQ = s.poundQ := rfl
@[simp] theorem setCnt_remoteSt (s : State) (k : Nat) (x : CntBlock) : (setCnt s k x).remoteSt = s.remoteSt := rfl
@[simp] theorem setCnt_memRegs (s : State) (k : Nat) (x : CntBlock) : (setCnt s k x).memRegs = s.memRegs := rfl
@[simp] theorem setCnt_cmds (s : State) (k : Nat) (x : CntBlock) : (setCnt s k x).cmds = s.cmds := rfl
@[simp] theorem setCnt_nextId (s : State) (k : Nat) (x : CntBlock) : (setCnt s k x).nextId = s.nextId := rfl
@[simp] theorem setCnt_serial (s : State) (k : Nat) (x : CntBlock) : (setCnt s k x).serial = s.serial := rfl
@[simp] theorem setCnt_rings (s : State) (k : Nat) (x : CntBlock) : (setCnt s k x).rings = s.rings := rfl
@[simp] theorem setCnt_locks (s : State) (k : Nat) (x : CntBlock) : (setCnt s k x).locks = s.locks := rfl
@[simp] theorem setCnt_jobs (s : State) (k : Nat) (x : CntBlock) : (setCnt s k x).jobs = s.jobs := rfl
@[simp] theorem setCnt_ctxs (s : State) (k : Nat) (x : CntBlock) : (setCnt s k x).ctxs = s.ctxs := rfl
@[simp] theorem setCnt_queueRe (s : State) (k : Nat) (x : CntBlock) : (setCnt s k x).queueRe = s.queueRe := rfl
@[simp] theorem setCnt_ended (s : State) (k : Nat) (x : CntBlock) : (setCnt s k x).ended = s.ended := rfl
@[simp] theorem setCnt_flights (s : State) (k : Nat) (x : CntBlock) : (setCnt s k x).flights = s.flights := rfl
@[simp] theorem setCnt_fsets (s : State) (k : Nat) (x : CntBlock) : (setCnt s k x).fsets = s.fsets := rfl
@[simp] theorem setCnt_shards (s : State) (k : Nat) (x : CntBlock) : (setCnt s k x).shards = s.shards := rfl
@[simp] theorem setCnt_scheds (s : State) (k : Nat) (x : CntBlock) : (setCnt s k x).scheds = s.scheds := rfl
@[simp] theorem setCnt_loans (s : State) (k : Nat) (x : CntBlock) : (setCnt s k x).loans = s.loans := rfl
@[simp] theorem setCnt_pools (s : State) (k : Nat) (x : CntBlock) : (setCnt s k x).pools = s.pools := rfl
@[simp] theorem setCnt_objs (s : State) (k : Nat) (x : CntBlock) : (setCnt s k x).objs = s.objs := rfl
@[simp] theorem setCnt_pfs (s : State) (k : Nat) (x : CntBlock) : (setCnt s k x).pfs = s.pfs := rfl
@[simp] theorem setCnt_census (s : State) (k : Nat) (x : CntBlock) : (setCnt s k x).census = s.census := rfl
@[simp] theorem setCnt_watch (s : State) (k : Nat) (x : CntBlock) : (setCnt s k x).watch = s.watch := rfl
@[simp] theorem setCnt_twatch (s : State) (k : Nat) (x : CntBlock) : (setCnt s k x).twatch = s.twatch := rfl
@[simp] theorem setCnt_suspects (s : State) (k : Nat) (x : CntBlock) : (setCnt s k x).suspects = s.suspects := rfl
@[simp] theorem setCnt_links (s : State) (k : Nat) (x : CntBlock) : (setCnt s k x).links = s.links := rfl
@[simp] theorem setCnt_dies (s : State) (k : Nat) (x : CntBlock) : (setCnt s k x).dies = s.dies := rfl
@[simp] theorem setCnt_roots (s : State) (k : Nat) (x : CntBlock) : (setCnt s k x).roots = s.roots := rfl
@[simp] theorem setCnt_engines (s : State) (k : Nat) (x : CntBlock) : (setCnt s k x).engines = s.engines := rfl
@[simp] theorem setCnt_testing (s : State) (k : Nat) (x : CntBlock) : (setCnt s k x).testing = s.testing := rfl
@[simp] theorem setCnt_testQ (s : State) (k : Nat) (x : CntBlock) : (setCnt s k x).testQ = s.testQ := rfl
@[simp] theorem setCnt_changes (s : State) (k : Nat) (x : CntBlock) : (setCnt s k x).changes = s.changes := rfl
@[simp] theorem setCnt_modEpoch (s : State) (k : Nat) (x : CntBlock) : (setCnt s k x).modEpoch = s.modEpoch := rfl
@[simp] theorem setCnt_ports (s : State) (k : Nat) (x : CntBlock) : (setCnt s k x).ports = s.ports := rfl
@[simp] theorem setCnt_domain (s : State) (k : Nat) (x : CntBlock) : (setCnt s k x).domain = s.domain := rfl
@[simp] theorem setCnt_rounds (s : State) (k : Nat) (x : CntBlock) : (setCnt s k x).rounds = s.rounds := rfl
@[simp] theorem setCnt_streams (s : State) (k : Nat) (x : CntBlock) : (setCnt s k x).streams = s.streams := rfl
@[simp] theorem setCnt_sent (s : State) (k : Nat) (x : CntBlock) : (setCnt s k x).sent = s.sent := rfl
@[simp] theorem setCnt_held (s : State) (k : Nat) (x : CntBlock) : (setCnt s k x).held = s.held := rfl
@[simp] theorem setCnt_transit (s : State) (k : Nat) (x : CntBlock) : (setCnt s k x).transit = s.transit := rfl
@[simp] theorem setCnt_sessions (s : State) (k : Nat) (x : CntBlock) : (setCnt s k x).sessions = s.sessions := rfl
@[simp] theorem setCnt_counts (s : State) (k : Nat) (x : CntBlock) : (setCnt s k x).counts = s.counts := rfl
@[simp] theorem setCnt_bufs (s : State) (k : Nat) (x : CntBlock) : (setCnt s k x).bufs = s.bufs := rfl
@[simp] theorem setCnt_cxl (s : State) (k : Nat) (x : CntBlock) : (setCnt s k x).cxl = s.cxl := rfl
@[simp] theorem setCnt_msix (s : State) (k : Nat) (x : CntBlock) : (setCnt s k x).msix = s.msix := rfl
@[simp] theorem setCnt_answers (s : State) (k : Nat) (x : CntBlock) : (setCnt s k x).answers = s.answers := rfl
@[simp] theorem setCnt_nextSes (s : State) (k : Nat) (x : CntBlock) : (setCnt s k x).nextSes = s.nextSes := rfl
@[simp] theorem setCnt_sesQ (s : State) (k : Nat) (x : CntBlock) : (setCnt s k x).sesQ = s.sesQ := rfl
@[simp] theorem setCnt_modQ (s : State) (k : Nat) (x : CntBlock) : (setCnt s k x).modQ = s.modQ := rfl
@[simp] theorem setCnt_sics (s : State) (k : Nat) (x : CntBlock) : (setCnt s k x).sics = s.sics := rfl
@[simp] theorem setCnt_cnts (s : State) (k : Nat) (x : CntBlock) : (setCnt s k x).cnts = tset CntBlock.rest s.cnts k x := rfl
@[simp] theorem setCnt_traces (s : State) (k : Nat) (x : CntBlock) : (setCnt s k x).traces = s.traces := rfl
@[simp] theorem setCnt_dump (s : State) (k : Nat) (x : CntBlock) : (setCnt s k x).dump = s.dump := rfl
@[simp] theorem setCnt_cfg (s : State) (k : Nat) (x : CntBlock) : (setCnt s k x).cfg = s.cfg := rfl
@[simp] theorem setCnt_power (s : State) (k : Nat) (x : CntBlock) : (setCnt s k x).power = s.power := rfl
@[simp] theorem setCnt_tap (s : State) (k : Nat) (x : CntBlock) : (setCnt s k x).tap = s.tap := rfl
@[simp] theorem setCnt_trust (s : State) (k : Nat) (x : CntBlock) : (setCnt s k x).trust = s.trust := rfl
@[simp] theorem setCnt_fresh (s : State) (k : Nat) (x : CntBlock) : (setCnt s k x).fresh = s.fresh := rfl

-- setTrace

@[simp] theorem setTrace_pending (s : State) (k : Nat) (x : Trace) : (setTrace s k x).pending = s.pending := rfl
@[simp] theorem setTrace_time (s : State) (k : Nat) (x : Trace) : (setTrace s k x).time = s.time := rfl
@[simp] theorem setTrace_mem (s : State) (k : Nat) (x : Trace) : (setTrace s k x).mem = s.mem := rfl
@[simp] theorem setTrace_host (s : State) (k : Nat) (x : Trace) : (setTrace s k x).host = s.host := rfl
@[simp] theorem setTrace_keys (s : State) (k : Nat) (x : Trace) : (setTrace s k x).keys = s.keys := rfl
@[simp] theorem setTrace_poison (s : State) (k : Nat) (x : Trace) : (setTrace s k x).poison = s.poison := rfl
@[simp] theorem setTrace_poundQ (s : State) (k : Nat) (x : Trace) : (setTrace s k x).poundQ = s.poundQ := rfl
@[simp] theorem setTrace_remoteSt (s : State) (k : Nat) (x : Trace) : (setTrace s k x).remoteSt = s.remoteSt := rfl
@[simp] theorem setTrace_memRegs (s : State) (k : Nat) (x : Trace) : (setTrace s k x).memRegs = s.memRegs := rfl
@[simp] theorem setTrace_cmds (s : State) (k : Nat) (x : Trace) : (setTrace s k x).cmds = s.cmds := rfl
@[simp] theorem setTrace_nextId (s : State) (k : Nat) (x : Trace) : (setTrace s k x).nextId = s.nextId := rfl
@[simp] theorem setTrace_serial (s : State) (k : Nat) (x : Trace) : (setTrace s k x).serial = s.serial := rfl
@[simp] theorem setTrace_rings (s : State) (k : Nat) (x : Trace) : (setTrace s k x).rings = s.rings := rfl
@[simp] theorem setTrace_locks (s : State) (k : Nat) (x : Trace) : (setTrace s k x).locks = s.locks := rfl
@[simp] theorem setTrace_jobs (s : State) (k : Nat) (x : Trace) : (setTrace s k x).jobs = s.jobs := rfl
@[simp] theorem setTrace_ctxs (s : State) (k : Nat) (x : Trace) : (setTrace s k x).ctxs = s.ctxs := rfl
@[simp] theorem setTrace_queueRe (s : State) (k : Nat) (x : Trace) : (setTrace s k x).queueRe = s.queueRe := rfl
@[simp] theorem setTrace_ended (s : State) (k : Nat) (x : Trace) : (setTrace s k x).ended = s.ended := rfl
@[simp] theorem setTrace_flights (s : State) (k : Nat) (x : Trace) : (setTrace s k x).flights = s.flights := rfl
@[simp] theorem setTrace_fsets (s : State) (k : Nat) (x : Trace) : (setTrace s k x).fsets = s.fsets := rfl
@[simp] theorem setTrace_shards (s : State) (k : Nat) (x : Trace) : (setTrace s k x).shards = s.shards := rfl
@[simp] theorem setTrace_scheds (s : State) (k : Nat) (x : Trace) : (setTrace s k x).scheds = s.scheds := rfl
@[simp] theorem setTrace_loans (s : State) (k : Nat) (x : Trace) : (setTrace s k x).loans = s.loans := rfl
@[simp] theorem setTrace_pools (s : State) (k : Nat) (x : Trace) : (setTrace s k x).pools = s.pools := rfl
@[simp] theorem setTrace_objs (s : State) (k : Nat) (x : Trace) : (setTrace s k x).objs = s.objs := rfl
@[simp] theorem setTrace_pfs (s : State) (k : Nat) (x : Trace) : (setTrace s k x).pfs = s.pfs := rfl
@[simp] theorem setTrace_census (s : State) (k : Nat) (x : Trace) : (setTrace s k x).census = s.census := rfl
@[simp] theorem setTrace_watch (s : State) (k : Nat) (x : Trace) : (setTrace s k x).watch = s.watch := rfl
@[simp] theorem setTrace_twatch (s : State) (k : Nat) (x : Trace) : (setTrace s k x).twatch = s.twatch := rfl
@[simp] theorem setTrace_suspects (s : State) (k : Nat) (x : Trace) : (setTrace s k x).suspects = s.suspects := rfl
@[simp] theorem setTrace_links (s : State) (k : Nat) (x : Trace) : (setTrace s k x).links = s.links := rfl
@[simp] theorem setTrace_dies (s : State) (k : Nat) (x : Trace) : (setTrace s k x).dies = s.dies := rfl
@[simp] theorem setTrace_roots (s : State) (k : Nat) (x : Trace) : (setTrace s k x).roots = s.roots := rfl
@[simp] theorem setTrace_engines (s : State) (k : Nat) (x : Trace) : (setTrace s k x).engines = s.engines := rfl
@[simp] theorem setTrace_testing (s : State) (k : Nat) (x : Trace) : (setTrace s k x).testing = s.testing := rfl
@[simp] theorem setTrace_testQ (s : State) (k : Nat) (x : Trace) : (setTrace s k x).testQ = s.testQ := rfl
@[simp] theorem setTrace_changes (s : State) (k : Nat) (x : Trace) : (setTrace s k x).changes = s.changes := rfl
@[simp] theorem setTrace_modEpoch (s : State) (k : Nat) (x : Trace) : (setTrace s k x).modEpoch = s.modEpoch := rfl
@[simp] theorem setTrace_ports (s : State) (k : Nat) (x : Trace) : (setTrace s k x).ports = s.ports := rfl
@[simp] theorem setTrace_domain (s : State) (k : Nat) (x : Trace) : (setTrace s k x).domain = s.domain := rfl
@[simp] theorem setTrace_rounds (s : State) (k : Nat) (x : Trace) : (setTrace s k x).rounds = s.rounds := rfl
@[simp] theorem setTrace_streams (s : State) (k : Nat) (x : Trace) : (setTrace s k x).streams = s.streams := rfl
@[simp] theorem setTrace_sent (s : State) (k : Nat) (x : Trace) : (setTrace s k x).sent = s.sent := rfl
@[simp] theorem setTrace_held (s : State) (k : Nat) (x : Trace) : (setTrace s k x).held = s.held := rfl
@[simp] theorem setTrace_transit (s : State) (k : Nat) (x : Trace) : (setTrace s k x).transit = s.transit := rfl
@[simp] theorem setTrace_sessions (s : State) (k : Nat) (x : Trace) : (setTrace s k x).sessions = s.sessions := rfl
@[simp] theorem setTrace_counts (s : State) (k : Nat) (x : Trace) : (setTrace s k x).counts = s.counts := rfl
@[simp] theorem setTrace_bufs (s : State) (k : Nat) (x : Trace) : (setTrace s k x).bufs = s.bufs := rfl
@[simp] theorem setTrace_cxl (s : State) (k : Nat) (x : Trace) : (setTrace s k x).cxl = s.cxl := rfl
@[simp] theorem setTrace_msix (s : State) (k : Nat) (x : Trace) : (setTrace s k x).msix = s.msix := rfl
@[simp] theorem setTrace_answers (s : State) (k : Nat) (x : Trace) : (setTrace s k x).answers = s.answers := rfl
@[simp] theorem setTrace_nextSes (s : State) (k : Nat) (x : Trace) : (setTrace s k x).nextSes = s.nextSes := rfl
@[simp] theorem setTrace_sesQ (s : State) (k : Nat) (x : Trace) : (setTrace s k x).sesQ = s.sesQ := rfl
@[simp] theorem setTrace_modQ (s : State) (k : Nat) (x : Trace) : (setTrace s k x).modQ = s.modQ := rfl
@[simp] theorem setTrace_sics (s : State) (k : Nat) (x : Trace) : (setTrace s k x).sics = s.sics := rfl
@[simp] theorem setTrace_cnts (s : State) (k : Nat) (x : Trace) : (setTrace s k x).cnts = s.cnts := rfl
@[simp] theorem setTrace_traces (s : State) (k : Nat) (x : Trace) : (setTrace s k x).traces = tset Trace.rest s.traces k x := rfl
@[simp] theorem setTrace_dump (s : State) (k : Nat) (x : Trace) : (setTrace s k x).dump = s.dump := rfl
@[simp] theorem setTrace_cfg (s : State) (k : Nat) (x : Trace) : (setTrace s k x).cfg = s.cfg := rfl
@[simp] theorem setTrace_power (s : State) (k : Nat) (x : Trace) : (setTrace s k x).power = s.power := rfl
@[simp] theorem setTrace_tap (s : State) (k : Nat) (x : Trace) : (setTrace s k x).tap = s.tap := rfl
@[simp] theorem setTrace_trust (s : State) (k : Nat) (x : Trace) : (setTrace s k x).trust = s.trust := rfl
@[simp] theorem setTrace_fresh (s : State) (k : Nat) (x : Trace) : (setTrace s k x).fresh = s.fresh := rfl

-- setSic

@[simp] theorem setSic_pending (s : State) (k : Nat) (x : Sic) : (setSic s k x).pending = s.pending := rfl
@[simp] theorem setSic_time (s : State) (k : Nat) (x : Sic) : (setSic s k x).time = s.time := rfl
@[simp] theorem setSic_mem (s : State) (k : Nat) (x : Sic) : (setSic s k x).mem = s.mem := rfl
@[simp] theorem setSic_host (s : State) (k : Nat) (x : Sic) : (setSic s k x).host = s.host := rfl
@[simp] theorem setSic_keys (s : State) (k : Nat) (x : Sic) : (setSic s k x).keys = s.keys := rfl
@[simp] theorem setSic_poison (s : State) (k : Nat) (x : Sic) : (setSic s k x).poison = s.poison := rfl
@[simp] theorem setSic_poundQ (s : State) (k : Nat) (x : Sic) : (setSic s k x).poundQ = s.poundQ := rfl
@[simp] theorem setSic_remoteSt (s : State) (k : Nat) (x : Sic) : (setSic s k x).remoteSt = s.remoteSt := rfl
@[simp] theorem setSic_memRegs (s : State) (k : Nat) (x : Sic) : (setSic s k x).memRegs = s.memRegs := rfl
@[simp] theorem setSic_cmds (s : State) (k : Nat) (x : Sic) : (setSic s k x).cmds = s.cmds := rfl
@[simp] theorem setSic_nextId (s : State) (k : Nat) (x : Sic) : (setSic s k x).nextId = s.nextId := rfl
@[simp] theorem setSic_serial (s : State) (k : Nat) (x : Sic) : (setSic s k x).serial = s.serial := rfl
@[simp] theorem setSic_rings (s : State) (k : Nat) (x : Sic) : (setSic s k x).rings = s.rings := rfl
@[simp] theorem setSic_locks (s : State) (k : Nat) (x : Sic) : (setSic s k x).locks = s.locks := rfl
@[simp] theorem setSic_jobs (s : State) (k : Nat) (x : Sic) : (setSic s k x).jobs = s.jobs := rfl
@[simp] theorem setSic_ctxs (s : State) (k : Nat) (x : Sic) : (setSic s k x).ctxs = s.ctxs := rfl
@[simp] theorem setSic_queueRe (s : State) (k : Nat) (x : Sic) : (setSic s k x).queueRe = s.queueRe := rfl
@[simp] theorem setSic_ended (s : State) (k : Nat) (x : Sic) : (setSic s k x).ended = s.ended := rfl
@[simp] theorem setSic_flights (s : State) (k : Nat) (x : Sic) : (setSic s k x).flights = s.flights := rfl
@[simp] theorem setSic_fsets (s : State) (k : Nat) (x : Sic) : (setSic s k x).fsets = s.fsets := rfl
@[simp] theorem setSic_shards (s : State) (k : Nat) (x : Sic) : (setSic s k x).shards = s.shards := rfl
@[simp] theorem setSic_scheds (s : State) (k : Nat) (x : Sic) : (setSic s k x).scheds = s.scheds := rfl
@[simp] theorem setSic_loans (s : State) (k : Nat) (x : Sic) : (setSic s k x).loans = s.loans := rfl
@[simp] theorem setSic_pools (s : State) (k : Nat) (x : Sic) : (setSic s k x).pools = s.pools := rfl
@[simp] theorem setSic_objs (s : State) (k : Nat) (x : Sic) : (setSic s k x).objs = s.objs := rfl
@[simp] theorem setSic_pfs (s : State) (k : Nat) (x : Sic) : (setSic s k x).pfs = s.pfs := rfl
@[simp] theorem setSic_census (s : State) (k : Nat) (x : Sic) : (setSic s k x).census = s.census := rfl
@[simp] theorem setSic_watch (s : State) (k : Nat) (x : Sic) : (setSic s k x).watch = s.watch := rfl
@[simp] theorem setSic_twatch (s : State) (k : Nat) (x : Sic) : (setSic s k x).twatch = s.twatch := rfl
@[simp] theorem setSic_suspects (s : State) (k : Nat) (x : Sic) : (setSic s k x).suspects = s.suspects := rfl
@[simp] theorem setSic_links (s : State) (k : Nat) (x : Sic) : (setSic s k x).links = s.links := rfl
@[simp] theorem setSic_dies (s : State) (k : Nat) (x : Sic) : (setSic s k x).dies = s.dies := rfl
@[simp] theorem setSic_roots (s : State) (k : Nat) (x : Sic) : (setSic s k x).roots = s.roots := rfl
@[simp] theorem setSic_engines (s : State) (k : Nat) (x : Sic) : (setSic s k x).engines = s.engines := rfl
@[simp] theorem setSic_testing (s : State) (k : Nat) (x : Sic) : (setSic s k x).testing = s.testing := rfl
@[simp] theorem setSic_testQ (s : State) (k : Nat) (x : Sic) : (setSic s k x).testQ = s.testQ := rfl
@[simp] theorem setSic_changes (s : State) (k : Nat) (x : Sic) : (setSic s k x).changes = s.changes := rfl
@[simp] theorem setSic_modEpoch (s : State) (k : Nat) (x : Sic) : (setSic s k x).modEpoch = s.modEpoch := rfl
@[simp] theorem setSic_ports (s : State) (k : Nat) (x : Sic) : (setSic s k x).ports = s.ports := rfl
@[simp] theorem setSic_domain (s : State) (k : Nat) (x : Sic) : (setSic s k x).domain = s.domain := rfl
@[simp] theorem setSic_rounds (s : State) (k : Nat) (x : Sic) : (setSic s k x).rounds = s.rounds := rfl
@[simp] theorem setSic_streams (s : State) (k : Nat) (x : Sic) : (setSic s k x).streams = s.streams := rfl
@[simp] theorem setSic_sent (s : State) (k : Nat) (x : Sic) : (setSic s k x).sent = s.sent := rfl
@[simp] theorem setSic_held (s : State) (k : Nat) (x : Sic) : (setSic s k x).held = s.held := rfl
@[simp] theorem setSic_transit (s : State) (k : Nat) (x : Sic) : (setSic s k x).transit = s.transit := rfl
@[simp] theorem setSic_sessions (s : State) (k : Nat) (x : Sic) : (setSic s k x).sessions = s.sessions := rfl
@[simp] theorem setSic_counts (s : State) (k : Nat) (x : Sic) : (setSic s k x).counts = s.counts := rfl
@[simp] theorem setSic_bufs (s : State) (k : Nat) (x : Sic) : (setSic s k x).bufs = s.bufs := rfl
@[simp] theorem setSic_cxl (s : State) (k : Nat) (x : Sic) : (setSic s k x).cxl = s.cxl := rfl
@[simp] theorem setSic_msix (s : State) (k : Nat) (x : Sic) : (setSic s k x).msix = s.msix := rfl
@[simp] theorem setSic_answers (s : State) (k : Nat) (x : Sic) : (setSic s k x).answers = s.answers := rfl
@[simp] theorem setSic_nextSes (s : State) (k : Nat) (x : Sic) : (setSic s k x).nextSes = s.nextSes := rfl
@[simp] theorem setSic_sesQ (s : State) (k : Nat) (x : Sic) : (setSic s k x).sesQ = s.sesQ := rfl
@[simp] theorem setSic_modQ (s : State) (k : Nat) (x : Sic) : (setSic s k x).modQ = s.modQ := rfl
@[simp] theorem setSic_sics (s : State) (k : Nat) (x : Sic) : (setSic s k x).sics = tset Sic.rest s.sics k x := rfl
@[simp] theorem setSic_cnts (s : State) (k : Nat) (x : Sic) : (setSic s k x).cnts = s.cnts := rfl
@[simp] theorem setSic_traces (s : State) (k : Nat) (x : Sic) : (setSic s k x).traces = s.traces := rfl
@[simp] theorem setSic_dump (s : State) (k : Nat) (x : Sic) : (setSic s k x).dump = s.dump := rfl
@[simp] theorem setSic_cfg (s : State) (k : Nat) (x : Sic) : (setSic s k x).cfg = s.cfg := rfl
@[simp] theorem setSic_power (s : State) (k : Nat) (x : Sic) : (setSic s k x).power = s.power := rfl
@[simp] theorem setSic_tap (s : State) (k : Nat) (x : Sic) : (setSic s k x).tap = s.tap := rfl
@[simp] theorem setSic_trust (s : State) (k : Nat) (x : Sic) : (setSic s k x).trust = s.trust := rfl
@[simp] theorem setSic_fresh (s : State) (k : Nat) (x : Sic) : (setSic s k x).fresh = s.fresh := rfl

-- updJob and putCmd

@[simp] theorem updJob_pending (s : State) (j : Nat) (f : Job → Job) : (updJob s j f).pending = s.pending := rfl
@[simp] theorem updJob_time (s : State) (j : Nat) (f : Job → Job) : (updJob s j f).time = s.time := rfl
@[simp] theorem updJob_mem (s : State) (j : Nat) (f : Job → Job) : (updJob s j f).mem = s.mem := rfl
@[simp] theorem updJob_host (s : State) (j : Nat) (f : Job → Job) : (updJob s j f).host = s.host := rfl
@[simp] theorem updJob_keys (s : State) (j : Nat) (f : Job → Job) : (updJob s j f).keys = s.keys := rfl
@[simp] theorem updJob_poison (s : State) (j : Nat) (f : Job → Job) : (updJob s j f).poison = s.poison := rfl
@[simp] theorem updJob_poundQ (s : State) (j : Nat) (f : Job → Job) : (updJob s j f).poundQ = s.poundQ := rfl
@[simp] theorem updJob_remoteSt (s : State) (j : Nat) (f : Job → Job) : (updJob s j f).remoteSt = s.remoteSt := rfl
@[simp] theorem updJob_memRegs (s : State) (j : Nat) (f : Job → Job) : (updJob s j f).memRegs = s.memRegs := rfl
@[simp] theorem updJob_cmds (s : State) (j : Nat) (f : Job → Job) : (updJob s j f).cmds = s.cmds := rfl
@[simp] theorem updJob_nextId (s : State) (j : Nat) (f : Job → Job) : (updJob s j f).nextId = s.nextId := rfl
@[simp] theorem updJob_serial (s : State) (j : Nat) (f : Job → Job) : (updJob s j f).serial = s.serial := rfl
@[simp] theorem updJob_rings (s : State) (j : Nat) (f : Job → Job) : (updJob s j f).rings = s.rings := rfl
@[simp] theorem updJob_locks (s : State) (j : Nat) (f : Job → Job) : (updJob s j f).locks = s.locks := rfl
@[simp] theorem updJob_ctxs (s : State) (j : Nat) (f : Job → Job) : (updJob s j f).ctxs = s.ctxs := rfl
@[simp] theorem updJob_queueRe (s : State) (j : Nat) (f : Job → Job) : (updJob s j f).queueRe = s.queueRe := rfl
@[simp] theorem updJob_ended (s : State) (j : Nat) (f : Job → Job) : (updJob s j f).ended = s.ended := rfl
@[simp] theorem updJob_flights (s : State) (j : Nat) (f : Job → Job) : (updJob s j f).flights = s.flights := rfl
@[simp] theorem updJob_fsets (s : State) (j : Nat) (f : Job → Job) : (updJob s j f).fsets = s.fsets := rfl
@[simp] theorem updJob_shards (s : State) (j : Nat) (f : Job → Job) : (updJob s j f).shards = s.shards := rfl
@[simp] theorem updJob_scheds (s : State) (j : Nat) (f : Job → Job) : (updJob s j f).scheds = s.scheds := rfl
@[simp] theorem updJob_loans (s : State) (j : Nat) (f : Job → Job) : (updJob s j f).loans = s.loans := rfl
@[simp] theorem updJob_pools (s : State) (j : Nat) (f : Job → Job) : (updJob s j f).pools = s.pools := rfl
@[simp] theorem updJob_objs (s : State) (j : Nat) (f : Job → Job) : (updJob s j f).objs = s.objs := rfl
@[simp] theorem updJob_pfs (s : State) (j : Nat) (f : Job → Job) : (updJob s j f).pfs = s.pfs := rfl
@[simp] theorem updJob_census (s : State) (j : Nat) (f : Job → Job) : (updJob s j f).census = s.census := rfl
@[simp] theorem updJob_watch (s : State) (j : Nat) (f : Job → Job) : (updJob s j f).watch = s.watch := rfl
@[simp] theorem updJob_twatch (s : State) (j : Nat) (f : Job → Job) : (updJob s j f).twatch = s.twatch := rfl
@[simp] theorem updJob_suspects (s : State) (j : Nat) (f : Job → Job) : (updJob s j f).suspects = s.suspects := rfl
@[simp] theorem updJob_links (s : State) (j : Nat) (f : Job → Job) : (updJob s j f).links = s.links := rfl
@[simp] theorem updJob_dies (s : State) (j : Nat) (f : Job → Job) : (updJob s j f).dies = s.dies := rfl
@[simp] theorem updJob_roots (s : State) (j : Nat) (f : Job → Job) : (updJob s j f).roots = s.roots := rfl
@[simp] theorem updJob_engines (s : State) (j : Nat) (f : Job → Job) : (updJob s j f).engines = s.engines := rfl
@[simp] theorem updJob_testing (s : State) (j : Nat) (f : Job → Job) : (updJob s j f).testing = s.testing := rfl
@[simp] theorem updJob_testQ (s : State) (j : Nat) (f : Job → Job) : (updJob s j f).testQ = s.testQ := rfl
@[simp] theorem updJob_changes (s : State) (j : Nat) (f : Job → Job) : (updJob s j f).changes = s.changes := rfl
@[simp] theorem updJob_modEpoch (s : State) (j : Nat) (f : Job → Job) : (updJob s j f).modEpoch = s.modEpoch := rfl
@[simp] theorem updJob_ports (s : State) (j : Nat) (f : Job → Job) : (updJob s j f).ports = s.ports := rfl
@[simp] theorem updJob_domain (s : State) (j : Nat) (f : Job → Job) : (updJob s j f).domain = s.domain := rfl
@[simp] theorem updJob_rounds (s : State) (j : Nat) (f : Job → Job) : (updJob s j f).rounds = s.rounds := rfl
@[simp] theorem updJob_streams (s : State) (j : Nat) (f : Job → Job) : (updJob s j f).streams = s.streams := rfl
@[simp] theorem updJob_sent (s : State) (j : Nat) (f : Job → Job) : (updJob s j f).sent = s.sent := rfl
@[simp] theorem updJob_held (s : State) (j : Nat) (f : Job → Job) : (updJob s j f).held = s.held := rfl
@[simp] theorem updJob_transit (s : State) (j : Nat) (f : Job → Job) : (updJob s j f).transit = s.transit := rfl
@[simp] theorem updJob_sessions (s : State) (j : Nat) (f : Job → Job) : (updJob s j f).sessions = s.sessions := rfl
@[simp] theorem updJob_counts (s : State) (j : Nat) (f : Job → Job) : (updJob s j f).counts = s.counts := rfl
@[simp] theorem updJob_bufs (s : State) (j : Nat) (f : Job → Job) : (updJob s j f).bufs = s.bufs := rfl
@[simp] theorem updJob_cxl (s : State) (j : Nat) (f : Job → Job) : (updJob s j f).cxl = s.cxl := rfl
@[simp] theorem updJob_msix (s : State) (j : Nat) (f : Job → Job) : (updJob s j f).msix = s.msix := rfl
@[simp] theorem updJob_answers (s : State) (j : Nat) (f : Job → Job) : (updJob s j f).answers = s.answers := rfl
@[simp] theorem updJob_nextSes (s : State) (j : Nat) (f : Job → Job) : (updJob s j f).nextSes = s.nextSes := rfl
@[simp] theorem updJob_sesQ (s : State) (j : Nat) (f : Job → Job) : (updJob s j f).sesQ = s.sesQ := rfl
@[simp] theorem updJob_modQ (s : State) (j : Nat) (f : Job → Job) : (updJob s j f).modQ = s.modQ := rfl
@[simp] theorem updJob_sics (s : State) (j : Nat) (f : Job → Job) : (updJob s j f).sics = s.sics := rfl
@[simp] theorem updJob_cnts (s : State) (j : Nat) (f : Job → Job) : (updJob s j f).cnts = s.cnts := rfl
@[simp] theorem updJob_traces (s : State) (j : Nat) (f : Job → Job) : (updJob s j f).traces = s.traces := rfl
@[simp] theorem updJob_dump (s : State) (j : Nat) (f : Job → Job) : (updJob s j f).dump = s.dump := rfl
@[simp] theorem updJob_cfg (s : State) (j : Nat) (f : Job → Job) : (updJob s j f).cfg = s.cfg := rfl
@[simp] theorem updJob_power (s : State) (j : Nat) (f : Job → Job) : (updJob s j f).power = s.power := rfl
@[simp] theorem updJob_tap (s : State) (j : Nat) (f : Job → Job) : (updJob s j f).tap = s.tap := rfl
@[simp] theorem updJob_trust (s : State) (j : Nat) (f : Job → Job) : (updJob s j f).trust = s.trust := rfl
@[simp] theorem updJob_fresh (s : State) (j : Nat) (f : Job → Job) : (updJob s j f).fresh = s.fresh := rfl

@[simp] theorem putCmd_pending (s : State) (c : Cmd) : (putCmd s c).pending = s.pending := rfl
@[simp] theorem putCmd_time (s : State) (c : Cmd) : (putCmd s c).time = s.time := rfl
@[simp] theorem putCmd_mem (s : State) (c : Cmd) : (putCmd s c).mem = s.mem := rfl
@[simp] theorem putCmd_host (s : State) (c : Cmd) : (putCmd s c).host = s.host := rfl
@[simp] theorem putCmd_keys (s : State) (c : Cmd) : (putCmd s c).keys = s.keys := rfl
@[simp] theorem putCmd_poison (s : State) (c : Cmd) : (putCmd s c).poison = s.poison := rfl
@[simp] theorem putCmd_poundQ (s : State) (c : Cmd) : (putCmd s c).poundQ = s.poundQ := rfl
@[simp] theorem putCmd_remoteSt (s : State) (c : Cmd) : (putCmd s c).remoteSt = s.remoteSt := rfl
@[simp] theorem putCmd_memRegs (s : State) (c : Cmd) : (putCmd s c).memRegs = s.memRegs := rfl
@[simp] theorem putCmd_nextId (s : State) (c : Cmd) : (putCmd s c).nextId = s.nextId := rfl
@[simp] theorem putCmd_serial (s : State) (c : Cmd) : (putCmd s c).serial = s.serial := rfl
@[simp] theorem putCmd_rings (s : State) (c : Cmd) : (putCmd s c).rings = s.rings := rfl
@[simp] theorem putCmd_locks (s : State) (c : Cmd) : (putCmd s c).locks = s.locks := rfl
@[simp] theorem putCmd_jobs (s : State) (c : Cmd) : (putCmd s c).jobs = s.jobs := rfl
@[simp] theorem putCmd_ctxs (s : State) (c : Cmd) : (putCmd s c).ctxs = s.ctxs := rfl
@[simp] theorem putCmd_queueRe (s : State) (c : Cmd) : (putCmd s c).queueRe = s.queueRe := rfl
@[simp] theorem putCmd_ended (s : State) (c : Cmd) : (putCmd s c).ended = s.ended := rfl
@[simp] theorem putCmd_flights (s : State) (c : Cmd) : (putCmd s c).flights = s.flights := rfl
@[simp] theorem putCmd_fsets (s : State) (c : Cmd) : (putCmd s c).fsets = s.fsets := rfl
@[simp] theorem putCmd_shards (s : State) (c : Cmd) : (putCmd s c).shards = s.shards := rfl
@[simp] theorem putCmd_scheds (s : State) (c : Cmd) : (putCmd s c).scheds = s.scheds := rfl
@[simp] theorem putCmd_loans (s : State) (c : Cmd) : (putCmd s c).loans = s.loans := rfl
@[simp] theorem putCmd_pools (s : State) (c : Cmd) : (putCmd s c).pools = s.pools := rfl
@[simp] theorem putCmd_objs (s : State) (c : Cmd) : (putCmd s c).objs = s.objs := rfl
@[simp] theorem putCmd_pfs (s : State) (c : Cmd) : (putCmd s c).pfs = s.pfs := rfl
@[simp] theorem putCmd_census (s : State) (c : Cmd) : (putCmd s c).census = s.census := rfl
@[simp] theorem putCmd_watch (s : State) (c : Cmd) : (putCmd s c).watch = s.watch := rfl
@[simp] theorem putCmd_twatch (s : State) (c : Cmd) : (putCmd s c).twatch = s.twatch := rfl
@[simp] theorem putCmd_suspects (s : State) (c : Cmd) : (putCmd s c).suspects = s.suspects := rfl
@[simp] theorem putCmd_links (s : State) (c : Cmd) : (putCmd s c).links = s.links := rfl
@[simp] theorem putCmd_dies (s : State) (c : Cmd) : (putCmd s c).dies = s.dies := rfl
@[simp] theorem putCmd_roots (s : State) (c : Cmd) : (putCmd s c).roots = s.roots := rfl
@[simp] theorem putCmd_engines (s : State) (c : Cmd) : (putCmd s c).engines = s.engines := rfl
@[simp] theorem putCmd_testing (s : State) (c : Cmd) : (putCmd s c).testing = s.testing := rfl
@[simp] theorem putCmd_testQ (s : State) (c : Cmd) : (putCmd s c).testQ = s.testQ := rfl
@[simp] theorem putCmd_changes (s : State) (c : Cmd) : (putCmd s c).changes = s.changes := rfl
@[simp] theorem putCmd_modEpoch (s : State) (c : Cmd) : (putCmd s c).modEpoch = s.modEpoch := rfl
@[simp] theorem putCmd_ports (s : State) (c : Cmd) : (putCmd s c).ports = s.ports := rfl
@[simp] theorem putCmd_domain (s : State) (c : Cmd) : (putCmd s c).domain = s.domain := rfl
@[simp] theorem putCmd_rounds (s : State) (c : Cmd) : (putCmd s c).rounds = s.rounds := rfl
@[simp] theorem putCmd_streams (s : State) (c : Cmd) : (putCmd s c).streams = s.streams := rfl
@[simp] theorem putCmd_sent (s : State) (c : Cmd) : (putCmd s c).sent = s.sent := rfl
@[simp] theorem putCmd_held (s : State) (c : Cmd) : (putCmd s c).held = s.held := rfl
@[simp] theorem putCmd_transit (s : State) (c : Cmd) : (putCmd s c).transit = s.transit := rfl
@[simp] theorem putCmd_sessions (s : State) (c : Cmd) : (putCmd s c).sessions = s.sessions := rfl
@[simp] theorem putCmd_counts (s : State) (c : Cmd) : (putCmd s c).counts = s.counts := rfl
@[simp] theorem putCmd_bufs (s : State) (c : Cmd) : (putCmd s c).bufs = s.bufs := rfl
@[simp] theorem putCmd_cxl (s : State) (c : Cmd) : (putCmd s c).cxl = s.cxl := rfl
@[simp] theorem putCmd_msix (s : State) (c : Cmd) : (putCmd s c).msix = s.msix := rfl
@[simp] theorem putCmd_answers (s : State) (c : Cmd) : (putCmd s c).answers = s.answers := rfl
@[simp] theorem putCmd_nextSes (s : State) (c : Cmd) : (putCmd s c).nextSes = s.nextSes := rfl
@[simp] theorem putCmd_sesQ (s : State) (c : Cmd) : (putCmd s c).sesQ = s.sesQ := rfl
@[simp] theorem putCmd_modQ (s : State) (c : Cmd) : (putCmd s c).modQ = s.modQ := rfl
@[simp] theorem putCmd_sics (s : State) (c : Cmd) : (putCmd s c).sics = s.sics := rfl
@[simp] theorem putCmd_cnts (s : State) (c : Cmd) : (putCmd s c).cnts = s.cnts := rfl
@[simp] theorem putCmd_traces (s : State) (c : Cmd) : (putCmd s c).traces = s.traces := rfl
@[simp] theorem putCmd_dump (s : State) (c : Cmd) : (putCmd s c).dump = s.dump := rfl
@[simp] theorem putCmd_cfg (s : State) (c : Cmd) : (putCmd s c).cfg = s.cfg := rfl
@[simp] theorem putCmd_power (s : State) (c : Cmd) : (putCmd s c).power = s.power := rfl
@[simp] theorem putCmd_tap (s : State) (c : Cmd) : (putCmd s c).tap = s.tap := rfl
@[simp] theorem putCmd_trust (s : State) (c : Cmd) : (putCmd s c).trust = s.trust := rfl
@[simp] theorem putCmd_fresh (s : State) (c : Cmd) : (putCmd s c).fresh = s.fresh := rfl

end Sys2Proof.Machine
end

