-- ==== Sys2Proof/Tests/Slice0.lean ====
section
/-! SUPPORT. The model's own tests: ill-formed commands that WellFormed refuses, small values, each from the manual's text, and a
concrete state and operands that meet the hypotheses of each statement together. -/

namespace Sys2Proof.Tests

open Sys2Proof Sys2Proof.Machine

-- states ----------------------------------------------------------------------------------------------------------------

/-- The module READY with every compute die in service and the host link up. -/
def live : State :=
  { State.reset with
    power := { Power.rest with phase := 7, linkUp := true, cfgDone := true }
    dies := (List.range 8).map (fun d => (d, { Die.rest with up := true })) }

/-- A packet of class and operation `co` of job 7 with slots `sl` and nothing to wait for. -/
def pktOf (co : Nat) (sl : List Nat) : Packet :=
  { opcode := co * 16, job := 7, layer := 0, operator := 0, seq := 5, epoch := 1, waitLock := 0, waitThresh := 0, sigLock := 0, sigInc := 0,
    slots := sl ++ List.replicate (5 - sl.length) 0 }

/-- A ring's command of an operation that runs. -/
def ran (co : Nat) (sl : List Nat) : Cmd :=
  { id := 1, pkt := pktOf co sl, origin := .ring 0, sess := 2, shapes := [], phase := .running, claimed := false, place := some ⟨0, 0, 0⟩, runs := 1,
    killed := false, stalled := false, stallFlag := false, waitFrom := none, waitWhy := 0, parked := false, lastEng := 0, busy := 0, started := 0,
    snapMem := [], snapHost := [], remote := [], asked := [], writes := [], acked := [], outs := [], ieee := 0, flags := 0, status := 0, detail := 0,
    commitAt := 0, debt := false, debtPrio := 0, aux := [], pins := [], reserved := [], flRead := none, flPush := none, signalled := false, noReply := false,
    probs := [], scratchUe := false, toSend := [], shard := none, fset := none, fall := false }

/-- READY with that command running. -/
def has (c : Cmd) : State := { live with cmds := [c] }

def jobSeven : Job :=
  { id := 7, sess := 2, st := .running, epoch := 1, trapArmed := false, trapMade := false, residFp32 := false, fallback := false, verDrop := false,
    share := false, priority := 0, cap := 0, digestWin := 0, layers := 1, locks := 16, shapeTab := 0, lockTab := 0, layerTab := 0, layerN := 0,
    memmap := [], memmapAt := 0, trapAddr := 0, peers := [], ringPrio := [], initList := [], clusters := 32, branches := [], memKey := 65543, trapSeq := 0 }

theorem still_reset : Still live := ⟨fun _ => .inl rfl, rfl, rfl, rfl⟩

/-- The state of an outcome that is a next state meets a test. -/
def nextIs (o : Host.Outcome State Fault Refusal) (p : State → Bool) : Bool := match o with | .next t => p t | _ => false

-- what WellFormed refuses -------------------------------------------------------------------------------------------------

def hdr : MsgHdr := { dst := 0, hops := 8, src := 3, typ := 0x16, tc := 7, job := 0, seq := 0, runs := 0, ctx := 0, len := 0, gen := 1, count := 0, tagOk := true }
def flitOf (n : Nat) : Flit := { seq := n, ack := 0, kind := 1, tc := 0, payload := [], crc := 0 }

/-- Each unit one past the last of its kind is refused, and the last is well formed (R12, R27, R29, R332). -/
theorem test_units_past_the_last :
    ([.core 512, .root 64, .move 128, .basin 32, .pchan 2048, .port 36, .hamir 8 0, .hamir 0 16, .shared 8, .d2d 10 0, .d2d 0 10, .d2d 0 4, .d2d 3 3, .d2d 9 8, .wharf 2] : List HwUnit).all
      (fun u => !u.wf) = true ∧
    ([.core 511, .root 63, .move 127, .basin 31, .pchan 2047, .port 35, .hamir 7 15, .shared 7, .d2d 7 0, .d2d 0 7, .d2d 9 7, .wharf 1, .mgmt] : List HwUnit).all HwUnit.wf = true := by decide

theorem test_windows_past_the_last :
    ([.sessionPage 64, .hamir 8] : List Via).all (fun v => !v.wf) = true ∧ ([.sessionPage 63, .hamir 7, .privMap, .bar0, .i3c] : List Via).all Via.wf = true := by decide

/-- Header fields, flits and credit records that do not fit their bits are refused (R333, R335, R337). -/
theorem test_headers_out_of_range :
    [{ hdr with dst := 4096 }, { hdr with src := 4096 }, { hdr with hops := 16 }, { hdr with typ := 256 }, { hdr with tc := 8 }, { hdr with job := 65536 }].all
      (fun m => !m.wf) = true ∧ hdr.wf = true ∧
    [flitOf 4096, { flitOf 0 with ack := 4096 }, { flitOf 0 with kind := 4 }, { flitOf 0 with tc := 8 }, { flitOf 0 with crc := 2 ^ 32 }].all (fun f => !f.wf) = true ∧
    (flitOf 4095).wf = true ∧ (CreditRec.wf ⟨[0], none⟩) = false ∧ (CreditRec.wf ⟨[0, 0, 0, 0, 0, 0, 0, 0], none⟩) = true := by decide

/-- One command out of range for each check on a unit, a die, a ring, a slot or a window, and each check's last good value. -/
theorem test_objects_out_of_range :
    ([.poundDrain 8, .testResult (.core 512) ⟨true, 15⟩, .testResult (.port 0) ⟨true, 16⟩, .testRotation (.root 64), .dieUnfence 0 [.move 128], .ringFetch 128, .preemption 8, .contextResume 8 0,
      .contextResume 0 128, .sessionSlotExpiry 64, .unitInternalError (.shared 8), .selfTestDone [.basin 32], .dbgSelect 16, .hbmInterfaceLost 32,
      .ringCfg (.sessionPage 64) 0 0, .ringCfg .bar0 128 0, .ringCfg .bar0 0 (2 ^ 32), .ringTail (.hamir 8) 0 0, .ringTail .bar0 128 0, .ringTail .bar0 0 (2 ^ 32),
      .registerWrite (.hamir 8) 0 4 0, .registerWrite .bar0 0 3 0, .registerWrite .bar0 0 8 (2 ^ 64), .registerReadClear (.sessionPage 64) 0 4,
      .registerReadClear .bar0 0 5, .pwrCtrl (.hamir 8) 0, .pwrCtrl .privMap (2 ^ 32)] : List Instr).all (fun i => !i.wf) = true ∧
    ([.poundDrain 7, .testResult (.core 511) ⟨true, 15⟩, .testRotation (.root 63), .dieUnfence 0 [.move 127], .ringFetch 127, .preemption 7, .contextResume 7 127,
      .sessionSlotExpiry 63, .unitInternalError (.shared 7), .selfTestDone [.basin 31], .dbgSelect 15, .hbmInterfaceLost 31, .ringCfg .bar0 127 (2 ^ 32 - 1),
      .ringTail .bar0 127 (2 ^ 32 - 1), .registerWrite .bar0 0 8 (2 ^ 64 - 1), .registerReadClear .bar0 0 1, .pwrCtrl .privMap (2 ^ 32 - 1)] : List Instr).all Instr.wf = true := by
  decide

theorem test_mailbox_inputs_too_long :
    ∀ x, x = (List.replicate 4097 0 : List Byte) →
      [Instr.sesPskStart x, .sesPskFinish x, .sesPakeStart x, .sesPakeFinish x, .sesClose x, .jobLink x, .ownerEnroll x, .ownerRelease x, .debugUnlock x, .idCerts x,
        .sesExport x, .ringBind x, .ringUnbind x, .hdmBind x, .hdmUnbind x, .privMap x, .eventRead x].all (fun i => !i.wf) = true := by
  intro x hx
  have : x.length = 4097 := by rw [hx, List.length_replicate]
  simp [Instr.wf, this]

theorem test_signals_out_of_range :
    ([.sicTake 10 0 0 true, .sicTake 0 16 0 true, .sicTake 0 0 1024 true, .sicEoi 10 0 0, .sicEoi 0 16 0, .sicEoi 0 0 1024, .sicPendSet 10 0 0, .sicPendSet 0 32 0,
      .sicPendSet 0 0 (2 ^ 32), .sicPendClr 10 0 0, .sicPendClr 0 32 0, .sicPendClr 0 0 (2 ^ 32), .sicEnSet 10 0 0, .sicEnSet 0 32 0, .sicEnSet 0 0 (2 ^ 32),
      .sicEnClr 10 0 0, .sicEnClr 0 32 0, .sicEnClr 0 0 (2 ^ 32), .sicSrcCfg 10 0 0, .sicSrcCfg 0 1024 0, .sicSrcCfg 0 0 (2 ^ 32), .sicSrcMod 10 0 0,
      .sicSrcMod 0 1024 0, .sicSrcMod 0 0 (2 ^ 32), .sicTgtCtrl 10 0 0, .sicTgtCtrl 0 16 0, .sicTgtCtrl 0 0 (2 ^ 32), .sourceFire 10 0, .sourceFire 0 1024,
      .moderationTimer 10 0, .moderationTimer 0 1024, .targetIdle 10 0, .targetIdle 0 16, .cntCtrl 10 0, .cntCtrl 0 (2 ^ 32), .cntClear 10 0, .cntClear 0 (2 ^ 32),
      .counterFreeze 10, .trCtrl 10 0, .trCtrl 0 (2 ^ 32), .trTrigNow 10 0, .trTrigNow 0 (2 ^ 32), .trMark 10 0, .trMark 0 (2 ^ 32)] : List Instr).all
      (fun i => !i.wf) = true ∧
    ([.sicTake 9 15 1023 true, .sicPendSet 9 31 (2 ^ 32 - 1), .sicSrcMod 9 1023 0, .sicTgtCtrl 9 15 0, .trMark 9 (2 ^ 32 - 1)] : List Instr).all Instr.wf = true := by decide

theorem test_ports_and_messages_out_of_range :
    ([.portCtrl 36 0, .portCtrl 0 (2 ^ 32), .portCredit 36 0, .portCredit 0 (2 ^ 64), .flitReceive 36 (flitOf 0), .flitReceive 0 (flitOf 4096),
      .controlFlit 36 0 ⟨[0, 0, 0, 0, 0, 0, 0, 0], none⟩, .controlFlit 0 4096 ⟨[0, 0, 0, 0, 0, 0, 0, 0], none⟩, .controlFlit 0 0 ⟨[], none⟩, .controlFlitTimer 36,
      .laneFailure 36 0, .laneFailure 0 4, .portTrainingDone 36 0 0, .portTrainingDone 0 0 4096, .portRetrain 36, .messageForward 36 hdr, .pdelayTimer 36, .peerLost 4096,
      .lockSignal hdr 16384 0, .lockSignal hdr 0 (2 ^ 32), .time hdr 36 0 0, .pdelay hdr 36 0, .hello hdr 36, .lost hdr 4096,
      .stage hdr 0 0 0 0 (List.replicate 8 ⟨1, 0⟩) []] : List Instr).all (fun i => !i.wf) = true ∧
    ([.portCtrl 35 0, .portCredit 35 (2 ^ 64 - 1), .laneFailure 35 3, .portTrainingDone 0 0 4095, .lockSignal hdr 16383 (2 ^ 32 - 1), .lost hdr 4095,
      .stage hdr 0 0 0 0 (List.replicate 7 ⟨1, 0⟩) []] : List Instr).all Instr.wf = true := by decide

/-- Every message row checks its header (R337). -/
theorem test_messages_check_their_header :
    let m := { hdr with dst := 4096 }
    ([.messageForward 0 m, .readReq m 0 0 true, .readResp m 0 [], .write m 0 [], .collData m 0 0 0 [], .stagedAck m, .commit m, .cancel m, .lockSignal m 0 0,
      .collJoin m 0 0 0 0 true, .collSet m 0 0 0 0 [], .collLate m 0 0 0 0 [], .collFlip m 0 0 0 0, .authNak m, .time m 0 0 0, .pdelay m 0 0, .announce m 0,
      .hello m 0, .heartbeat m, .member m [], .lost m 0, .stage m 0 0 0 0 [] [], .ack m 0 0, .openMsg m 0 0, .discard m 0, .loanEnd m] : List Instr).all
      (fun i => !i.wf) = true := by decide

/-- The table gives no row bits: no word spells a command, and placing one changes nothing. -/
theorem test_no_word_spells_a_command (n w : Nat) (s : State) : decodeTableWord n w = none ∧ s.withFetchWord n w = s := ⟨rfl, rfl⟩

-- the step, commits and signals -------------------------------------------------------------------------------------------

/-- Before READY an idle step changes only what the board presents. -/
theorem test_reset_is_idle : nextIs (step State.reset) (fun t => t.time == 0 && t.cmds == [] && t.power.phase == 0) = true := by decide

/-- Ready, with nothing waiting, a step is one nanosecond (log 2: the model's choice). -/
theorem witness_IdleBlockKeepsTime : live.pending = [] ∧ live.power.phase = 7 ∧ State.reset.pending = [] ∧ State.reset.power.phase ≠ 7 ∧ (timeTo live (live.time + 1)).time = 1 := by decide

theorem runs_ran (co : Nat) (sl : List Nat) (h : co < 4096) : RingRuns (has (ran co sl)) 1 co (ran co sl) :=
  ⟨⟨rfl, rfl, show fld (co * 16) 4 12 = co by simp [fld]; omega⟩, 0, rfl⟩

theorem near_none : Near Stg.none := ⟨rfl, rfl, by simp [Stg.none]⟩

theorem witness_OutputsArePublishedAtCommit :
    outputRow (.lkNop 1) = some (1, 0x804, fun _ _ => .done Stg.none) ∧ RingRuns (has (ran 0x804 [])) 1 0x804 (ran 0x804 []) ∧ Near Stg.none ∧ Still (has (ran 0x804 [])) :=
  ⟨rfl, runs_ran _ _ (by decide), near_none, fun _ => .inl rfl, rfl, rfl, rfl⟩

/-- A controller with source 40 pending at target 3, source 41 active there, source 42 active and pending, source 43 held. -/
def sicAt : Sic :=
  { Sic.rest with
    targets := [(3, { Target.rest with enable := true, stack := [(42, 9), (41, 20)] })]
    sources := [(40, { Source.rest with prio := 4, mask := 8, enabled := true, state := 1, assigned := some 3, activeOn := 3, last := 3 }),
                (41, { Source.rest with state := 2, activeOn := 3 }), (42, { Source.rest with state := 3, activeOn := 3 }),
                (43, { Source.rest with mask := 8, held := true, heldCount := 1, modCount := 4, modTimer := 1, enabled := true })] }

def signalled : State := { live with sics := [(0, sicAt)] }

/-- TAKE of a deliverable source and of one that is not; EOI of a stack and of an empty one; a served and a fenced die; free, held, pending, active, and active and
pending sources. -/
theorem witness_TakeActivatesADeliverableSource :
    sicServed signalled 0 = true ∧ deliverable (getSic signalled 0) 3 40 = true ∧ deliverable (getSic signalled 0) 3 41 = false ∧
    (getSic signalled 0).sources.map (fun x => (x.1, x.2.state, x.2.held)) = [(40, 1, false), (41, 2, false), (42, 3, false), (43, 0, true)] ∧
    ((getSic signalled 0).tgt 3).stack ≠ [] ∧ ((getSic signalled 0).tgt 4).stack = [] := by decide

theorem witness_FiringsMergeAreHeldOrBecomePending :
    sicServed signalled 0 = true ∧ sourceOk 0 40 = true ∧ Named 0 1 (2 ^ 8) 40 ∧ sourceOk 0 1023 = false ∧ routeTo (getSic signalled 0) ((getSic signalled 0).src 43) = some 3 ∧
    sicServed { live with dies := [(0, { Die.rest with fenced := true })] } 0 = false := by unfold Named; decide

theorem witness_BitmapWritesActOnTheirSources :
    Named 0 1 0xF00 40 ∧ Named 0 1 0xF00 41 ∧ Named 0 1 0xF00 42 ∧ Named 0 1 0xF00 43 ∧ ¬ Named 0 1 0xF00 44 ∧ ¬ Named 0 0 0xF00 40 := by unfold Named; decide

theorem witness_ModerationTimerReleases :
    ((getSic signalled 0).src 43).held = true ∧ 0 < ((getSic signalled 0).src 43).modTimer ∧ ((getSic signalled 0).src 40).held = false := by decide

/-- R456: the taken source is active on its target, and on top of its stack. -/
theorem test_take : nextIs (exec (.sicTake 0 3 40 true) signalled) (fun t => ((getSic t 0).src 40).state == 2 && ((getSic t 0).tgt 3).stack.head? == some (40, 4)) = true := by decide

/-- R457: the source of the top entry was active and pending, and becomes pending. -/
theorem test_eoi : nextIs (exec (.sicEoi 0 3 42) signalled) (fun t => ((getSic t 0).src 42).state == 1 && ((getSic t 0).tgt 3).stack == [(41, 20)]) = true := by decide

/-- R459: an EOI of another source than the top entry's sets the mismatch bit. -/
theorem test_eoi_mismatch : nextIs (exec (.sicEoi 0 3 41) signalled) (fun t => bit (getSic t 0).err 1) = true := by decide

theorem test_eoi_empty : nextIs (exec (.sicEoi 0 4 41) signalled) (fun t => bit (getSic t 0).err 0) = true := by decide

set_option maxRecDepth 4000 in
/-- R453: the timer of source 43, one unit of 100 ns, runs out at 100 ns. -/
theorem test_moderation_timer : nextIs (exec (.moderationTimer 0 43) signalled) (fun t => ((getSic t 0).src 43).state == 1 && t.time == 100) = true := by decide

-- counters, trace, power --------------------------------------------------------------------------------------------------

/-- A trace block that captures kind 9 into a buffer of 2^16 bytes at 0x10000, for job 7. -/
def traced : State :=
  { live with
    jobs := [jobSeven]
    cxl := { Cxl.rest with privBy := some 2 }
    traces := [(0, { Trace.rest with ctrl := 1, state := 1, base := 0x10000, size := 16, job := 7, kinds := 2 ^ 9 })]
    cnts := [(0, { CntBlock.rest with arm := true, freezeAt := 50 })] }

theorem witness_CounterBlockControls :
    blockServed traced 0 = true ∧ (getCnt traced 0).arm = true ∧ (getCnt traced 1).arm = false ∧ bit 1 0 = true ∧ bit 2 0 = false := by decide

theorem witness_TraceEnableStartsAndEndsCapture :
    blockServed traced 0 = true ∧ bit (getTrace traced 0).ctrl 0 = true ∧ bit (getTrace traced 1).ctrl 0 = false ∧
    bit 1 0 = true ∧ fld 1 1 2 ≠ 3 ∧ fld 1 3 7 ≤ 99 ∧ fld 1 10 4 ≤ 12 ∧
    fld (99 * 8 + 12 * 1024) 3 7 ≤ 99 ∧ fld (99 * 8 + 12 * 1024) 10 4 ≤ 12 := by decide

theorem witness_MarkWritesOneRecord :
    (getTrace traced 0).state = 1 ∧ trWanted (getTrace traced 0) (trPlain traced 9 5) = true ∧ findJob traced (getTrace traced 0).job = some jobSeven ∧
    traced.cxl.privBy = some jobSeven.sess ∧ (gaddrOf (getTrace traced 0).base).tier = 0 ∧ (gaddrOf (getTrace traced 0).base).off % 2 ^ fld (getTrace traced 0).size 0 6 = 0 ∧
    16 ≤ fld (getTrace traced 0).size 0 6 ∧ (getTrace traced 0).next < trSlots (getTrace traced 0) ∧
    trWanted { getTrace traced 0 with kinds := 0 } (trPlain traced 9 5) = false ∧ (getTrace traced 1).state = 0 := by decide

/-- R439: a block that captures nothing writes no mark. -/
theorem test_mark_without_capture : nextIs (exec (.trMark 1 5) traced) (fun t => t == traced) = true := by decide

def offState : State := { State.reset with power := { Power.rest with off := true, pwrEn := true, pwrOk := false, ramping := true } }
def down : State := { live with power := { live.power with phase := 8, shutAt := some 40 } }

theorem witness_ResetsRestartStartup :
    (offState.power.off = true ∧ offState.power.ramping = true) ∧ (live.power.off = false ∧ live.power.resetN = true ∧ live.power.resetN ≠ false) := by decide

theorem witness_PowerRequests :
    (live.power.off = false ∧ live.power.phase = 7) ∧ (offState.power.off = true ∧ offState.power.pwrEn = true) ∧ { offState.power with ramping := false }.ramping = false := by decide

theorem witness_RailsGoOff : down.power.phase = 8 ∧ down.power.shutAt = some 40 := by decide

/-- R507: the link is down 10 ms after the trigger. -/
theorem test_shutdown_timeout : nextIs (exec .shutdownTimeout down) (fun t => t.time == 10000040 && !t.power.linkUp) = true := by decide

/-- R502: power good is a new power-up. -/
theorem test_power_good : nextIs (exec .powerGood offState) (fun t => t.trust.boots == 2 && t.power.phase == 0) = true := by decide

/-- R503: a reset keeps the owner's protected sector and ends the commands. -/
theorem test_module_reset : nextIs (exec .moduleReset (has (ran 0x804 []))) (fun t => t.cmds == [] && t.power.phase == 0) = true := by decide

-- flights, factor sets, roots and solvers ---------------------------------------------------------------------------------

/-- The value of an outcome of a run, as the staged outputs. -/
def doneWith (o : Out) (p : Stg → Bool) : Bool := match o with | .done r => p r | _ => false

/-- Outputs that stay in the module, as a test. -/
def isNear (r : Stg) : Bool := !r.wait && r.evs.isEmpty && r.writes.all (fun w => w.tgt.tier != 4)

theorem near_of (r : Stg) (h : isNear r = true) : Near r := by
  simp only [isNear, Bool.and_eq_true, Bool.not_eq_true', List.isEmpty_iff, List.all_eq_true, bne_iff_ne] at h
  exact ⟨h.1.1, h.1.2, h.2⟩

theorem near_done (o : Out) (h : doneWith o isNear = true) : ∃ r, o = .done r ∧ Near r := by
  unfold doneWith at h
  split at h
  · exact ⟨_, rfl, near_of _ h⟩
  · cases h

/-- A matrix of one FP32 element. -/
def one32 : Shape := { fmt := 0x80, rows := 1, cols := 1, row0 := 0, col0 := 0, vrows := 1, vcols := 1 }

def entryA : FlightEntry := { layer := 0, operator := 0, seq := 1, fmt := 0x80, rows := 1, cols := 1, data := [0, 0, 0, 0], spilled := false }
def flightA : Flight := { job := 7, basinBase := basinBase, basinSize := 4096, hbmBase := 0, hbmSize := 0, entries := [entryA], high := 512 }

/-- FLIGHT_PUSH of a tensor at 0x1000 onto the flight at 0x400. -/
def pushes : Cmd := { ran 0x10C [0x100 + 2 ^ 38, 0, 0, 0x40] with shapes := [some one32], flPush := some (0x400, 512) }
def pops : Cmd := ran 0x10D [0x40]
/-- FLIGHT_INIT of a block at 0x400 with 4,096 bytes of the basin of die 0. -/
def inits : Cmd := { ran 0x10E [0x40] with snapMem := memWrite [] 0x400 (leBytes 8 (2 ^ 61 + basinBase) ++ leBytes 8 4096) }
/-- FWD in heritage mode: one element of one product of zeros, and the same with its result pushed. -/
def fwds : Cmd := { ran 0x101 [0x100, 0x110, 0x120] with shapes := [some one32, some one32, some one32], pkt := { pktOf 0x101 [0x100, 0x110, 0x120] with opcode := 0x1018 } }
def fwdPush : Cmd := { fwds with pkt := { fwds.pkt with opcode := 0x101A, slots := [0x100, 0x110, 0x120, 0x40, 0] }, flPush := some (0x400, 512) }

theorem witness_FlightsHoldWhatIsPushed :
    (∃ o, pushOpnd pushes = some o) ∧ tfind { has pushes with flights := [(0x400, flightA)] }.flights 0x400 = some flightA ∧ flightAddr pops.pkt = 0x400 ∧
    topRead { has pops with flights := [(0x400, flightA)] } 0x400 flightA = false ∧
    topRead { has pops with flights := [(0x400, flightA)], cmds := [pops, { fwds with id := 2, flRead := some (0x400, 0, []) }] } 0x400 flightA = true ∧
    (∃ f, flightOf 7 0x400 (memRead inits.snapMem (flightAddr inits.pkt) 64) = some f) :=
  ⟨⟨_, rfl⟩, rfl, rfl, by decide, by decide, ⟨_, rfl⟩⟩

set_option maxRecDepth 4000 in
theorem witness_products : (∃ r, meProduct 0x01 (has fwds) fwds = .done r ∧ Near r) ∧ (∃ r, meProduct 0x01 (has fwdPush) fwdPush = .done r ∧ Near r) :=
  ⟨near_done _ (by decide), near_done _ (by decide)⟩

def fsetA : Fset :=
  { job := 7, ctx := 0, layer := 0, lblock := 0, kind := 0, p := 2, dimA := 1, dimG := 1, eps := 0, aBase := 0x1000, gBase := 0x1100, rootA := 0x1200,
    rootG := 0x1300, hdr := 0x1400, result := 0x1500, every := 2, phase := 1, budget := 10, tol := 0x3F800000, maxIter := 4, prec := 0, warm := false,
    maxAge := 0, step := 0, skipped := 0, incompl := 0, ill := 0 }

/-- The step of the set that FSET_ADVANCE makes is due, and one of a set with EVERY 0 is not; no FSET_INIT waits. -/
theorem witness_FactorSetsAdvanceAndRefresh :
    fsetAddr live (ran 0x302 [0x40]).pkt = 0x400 ∧ tfind { has (ran 0x302 [0x40]) with fsets := [(0x400, fsetA)] }.fsets 0x400 = some fsetA ∧
    (fsetA.every ≠ 0 ∧ (fsetA.step + 1) % 2 ^ 32 % fsetA.every = fsetA.phase) ∧ ¬ (0 ≠ 0 ∧ (1 : Nat) = 0) ∧ (fsetBlocks fsetA).length = 2 := by decide

/-- A root command with one problem and a deadline of 100. -/
def roots (co : Nat) : Cmd :=
  { ran co [0x40, 0x60, 0x80] with
    started := 10
    snapMem := memWrite (memWrite [] 0x800 (leBytes 8 100 ++ leBytes 2 1 ++ [2, 0, 4])) 0x400 (leBytes 8 0x1000 ++ leBytes 8 0x1100 ++ leBytes 8 0x1200 ++ zeros 8 ++ [1]) }

theorem witness_RootCommandsPublishWhatIsFinished :
    ∃ q ps, rootJob (has (roots 0x401)) (roots 0x401) = some (q, ps) ∧ q.deadline ≠ 0 ∧ RootHome (has (roots 0x401)) ps ∧
      deadlinePast (has (roots 0x401)) q.deadline (roots 0x401).started = false ∧ deadlinePast { has (roots 0x401) with time := 200 } q.deadline (roots 0x401).started = true ∧ 0 < ps.length := by
  refine ⟨_, _, rfl, ?_⟩
  unfold RootHome
  decide

theorem witness_SolveCommandsPublishWhatIsFound :
    ∃ q ps, solveJob (has (roots 0x501)) (roots 0x501) = (q, ps) ∧ q.deadline ≠ 0 ∧ SolveHome (has (roots 0x501)) ps ∧
      deadlinePast (has (roots 0x501)) q.deadline (roots 0x501).started = false ∧ deadlinePast { has (roots 0x501) with time := 200 } q.deadline (roots 0x501).started = true ∧ 0 < ps.length := by
  refine ⟨_, _, rfl, ?_⟩
  unfold SolveHome
  decide

-- shards, transfers, residency ----------------------------------------------------------------------------------------

/-- A shard of one element, whose full rule has no factor set. -/
def shardA : Shard :=
  { job := 7, layer := 0, lblock := 0, wcFmt := 0x83, masterFp32 := true, rows := 1, cols := 1, retain := 2, factored := false, master := 0x1000, moment := 0x1100,
    rowAcc := 0, colAcc := 0, gacc := 0x1200, wc0 := 0x1300, wc1 := 0x1400, fset := 0, version := 0, gradCount := 1, ver0 := 0, ver1 := 0xFFFFFFFF, digest0 := 0,
    digest1 := 0, skips := 0, fallbacks := 0, streak := 0, image := none }

/-- An update whose parameter block at 0x800 has the norm and the divisor given. -/
def updates (co norm div : Nat) : Cmd :=
  { ran co [0x40, 0x80] with snapMem := memWrite [] 0x800 (zeros 8 ++ leBytes 4 norm ++ zeros 20 ++ leBytes 4 div) }

def sharded (c : Cmd) : State := { has c with shards := [(0x400, shardA)] }

/-- The parameters of `updates`. -/
def updParams (norm div : Nat) : UpdPar := updParOf (memRead (updates 0x601 norm div).snapMem 0x800 64)

theorem witness_UpdatesMakeVersions :
    updShard (sharded (updates 0x601 0x3F800000 1)) (updates 0x601 0x3F800000 1) = some (shardA, updParams 0x3F800000 1) ∧ (updParams 0x3F800000 1).divisor = 1 ∧
    (v32 (updParams 0x3F800000 1).gnorm).isFin = true ∧ (v32 (updParams 0x7F800000 1).gnorm).isFin = false ∧ (updParams 0x3F800000 0).divisor = 0 ∧
    shardFset (sharded (updates 0x603 0x3F800000 1)) shardA = none ∧ nextSlot shardA = 1 ∧ nextSlot { shardA with retain := 1 } = 0 := by
  refine ⟨rfl, ?_⟩
  decide

/-- SHARD_INIT of a shard of one FP32 element. -/
def shardInits : Cmd :=
  { ran 0x608 [0x40] with snapMem := memWrite [] 0x400 (zeros 6 ++ [0x80, 1] ++ [1, 0, 1, 0] ++ [2] ++ zeros 3 ++ leBytes 8 0x1000 ++ leBytes 8 0x1100 ++ zeros 16 ++ leBytes 8 0x1200 ++
      leBytes 8 0x1300 ++ leBytes 8 0x1400) }

set_option maxRecDepth 4000 in
theorem witness_ShardsAndSchedulesAreLoaded : (∃ r, shardRun (has shardInits) shardInits = .done r ∧ Near r) ∧ (has shardInits).objs = [] ∧ Still (has shardInits) :=
  ⟨near_done _ (by decide), rfl, fun _ => .inl rfl, rfl, rfl, rfl⟩

/-- FILL and COPY of 8 bytes to 0x2000. -/
def fills : Cmd := ran 0x703 [0, 0x200, 8 * 256, 0x11]
def copies : Cmd := { ran 0x701 [0x100, 0x200, 8 * 256] with snapMem := memWrite [] 0x1000 [1, 2, 3] }
/-- CONVERT of one FP32 element. -/
def converts : Cmd := { ran 0x702 [0x100, 0x200] with shapes := [some one32, some one32], pkt := { pktOf 0x702 [0x100, 0x200] with opcode := 0x7028 } }

theorem witness_BargesMoveData :
    (resolve (has fills) fills (descAddr (fills.pkt.slot 1)) 8).tier < 3 ∧ bargeLen fills.pkt = 8 ∧
    opnd copies 0 = none ∧ bargeZipDst copies.pkt = false ∧ bargeZipSrc copies.pkt = false ∧ (descAddr (copies.pkt.slot 0)).tier ≠ 3 ∧
    (resolve (has copies) copies (descAddr (copies.pkt.slot 0)) 8).tier ≠ 4 ∧ (resolve (has copies) copies (descAddr (copies.pkt.slot 1)) 8).tier < 3 := by decide

set_option maxRecDepth 4000 in
theorem witness_transfers :
    (∃ r, copyRun (has copies) copies = .done r ∧ Near r ∧ ∀ w ∈ r.writes, w.tgt.tier ≠ 3) ∧ ∃ r, convertRun (has converts) converts = .done r ∧ Near r := by
  refine ⟨?_, near_done _ (by decide)⟩
  obtain ⟨r, h, hn⟩ := near_done (copyRun (has copies) copies) (by decide)
  have : doneWith (copyRun (has copies) copies) (fun r => r.writes.all (fun w => w.tgt.tier != 3)) = true := by decide
  rw [h] at this
  exact ⟨r, h, hn, by simpa [doneWith] using this⟩

/-- R254: FILL repeats its word. -/
theorem test_fill : nextIs (exec (.fill 1) (has fills)) (fun t => memRead t.mem 0x2000 8 == [0x11, 0, 0, 0, 0x11, 0, 0, 0]) = true := by decide

theorem test_copy : nextIs (exec (.copy 1) (has copies)) (fun t => memRead t.mem 0x2000 4 == [1, 2, 3, 0]) = true := by decide

/-- An object of 64 KiB at 0x100000 with both pools, and its copies. -/
def objA (t1 t2 : Copy) : ResObj :=
  { job := 7, home := ⟨0, 0, 0x100000⟩, size := 16, poolT1 := 0x3000, poolT2 := 0x3040, lock := 0, writable := false, zip := false, kind := 0, t1 := t1, t2 := t2, stamp := 0 }

def copyIn (state pins : Nat) : Copy := { noCopy with state := state, resPins := pins, at_ := basinBase }

def holding (c : Cmd) (o : ResObj) : State := { has c with objs := [(0x400, o)], jobs := [jobSeven], pools := [(0x3000, ⟨7, basinBase, 0x10000⟩)] }

/-- A command on the basin copy of the object at 0x400. -/
def onCopy (co : Nat) : Cmd := { ran co [0x40] with aux := [0x400, 1] }

theorem witness_ResidencyFollowsItsCommands :
    NoHolds live (onCopy 0x724) ∧ findObj (holding (onCopy 0x724) (objA (copyIn 2 0) noCopy)) 0x400 = some (objA (copyIn 2 0) noCopy) ∧
    (copyIn 2 65534).pins < 65535 ∧ 0 < (copyIn 2 1).resPins ∧ ((copyIn 2 1).pins = 1 ∧ { copyIn 2 1 with pending := true }.pending = true) ∧
    (copyIn 2 0).pins = 0 ∧ noCopy.state = 0 ∧ noCopy.pins = 0 ∧ (onCopy 0x722).writes = [] := by
  unfold NoHolds
  decide

/-- R220: a pin counts. -/
theorem test_res_pin :
    nextIs (exec (.resPin 1) (holding (onCopy 0x724) (objA (copyIn 2 0) noCopy))) (fun t => ((findObj t 0x400).map (fun o => o.t1.resPins)) == some 1) = true := by decide

/-- R219: a copy that nothing pins is removed. -/
theorem test_res_evict :
    nextIs (exec (.resEvict 1) (holding (onCopy 0x723) (objA (copyIn 2 0) noCopy))) (fun t => ((findObj t 0x400).map (fun o => o.t1.state)) == some 0) = true := by decide

-- prefetch ------------------------------------------------------------------------------------------------------------

def entryP : PfEntry := { object := 0x400, target := 1, layer := 0, gate := 3, arrive := 4, gateBase := 0, gateStride := 0, inc := 1 }
def schedP : PfSched := { job := 7, ctx := 0, lead := 1, state := 1, cursor := 0, step := 0, stalled := 0, entries := [entryP], flying := [] }

/-- PF_START of a schedule at 0x800 with one entry. -/
def pfStarts : Cmd :=
  { ran 0x728 [0x80] with snapMem := memWrite [] 0x800 ([0, 0, 1, 0, 1, 0] ++ zeros 58 ++ leBytes 8 0x400 ++ [1, 0] ++ leBytes 2 0 ++ leBytes 2 3 ++ leBytes 2 4 ++ zeros 8 ++ leBytes 4 1) }

def pfState (p : PfSched) (o : ResObj) (c : Cmd) : State := { holding c o with pfs := [(0x800, p)] }

/-- A promotion of entry 0 of that schedule. -/
def promo (ph : Phase) : Cmd := { ran 0x722 [0x40] with origin := .promotion 0x800 0, phase := ph, aux := [0x400, 1, 9] }

set_option maxRecDepth 4000 in
theorem witness_PF_START :
    (∃ p, pfOf { holding pfStarts (objA noCopy noCopy) with mem := pfStarts.snapMem, keys := [] } pfStarts (localise (holding pfStarts (objA noCopy noCopy)) (descAddr (pfStarts.pkt.slot 0))) = some p) := by
  refine Option.isSome_iff_exists.mp ?_
  decide

theorem witness_SchedulesPrefetch :
    NoHolds (holding pfStarts (objA noCopy noCopy)) pfStarts ∧
    pfAddr live pfStarts.pkt = 0x800 ∧ tfind (pfState schedP (objA noCopy noCopy) pfStarts).pfs 0x800 = some schedP ∧ schedP.entries[schedP.cursor]? = some entryP ∧
    findObj (pfState schedP (objA noCopy noCopy) pfStarts) entryP.object = some (objA noCopy noCopy) ∧ (objA noCopy noCopy).job = schedP.job ∧
    (objA noCopy noCopy).poolOf entryP.target ≠ 0 ∧ (noCopy.state ≠ 2 ∧ (copyIn 2 0).state = 2) ∧ { schedP with state := 2 }.state ≠ 1 := by
  unfold NoHolds
  decide

theorem witness_prefetch_not_blocked : ¬ PfBlocked (pfState schedP (objA noCopy noCopy) pfStarts) schedP entryP := by
  rintro (h | h | h | h)
  · exact h rfl
  · exact h ⟨jobSeven, rfl, .inl rfl⟩
  · exact absurd h (by decide)
  · exact absurd h (by decide)

theorem witness_promotions :
    findCmd (pfState schedP (objA (copyIn 2 0) noCopy) (promo .running)) 1 = some (promo .running) ∧ Plain (promo .running) ∧
    findObj (placePromotion (pfState schedP (objA (copyIn 2 0) noCopy) (promo .running)) 0x400 1 9) 0x400 = some (objA (copyIn 2 0) noCopy) ∧
    ((objA { copyIn 1 0 with at_ := noPlace } noCopy).copy 1).state = 1 ∧ earlierWaits (pfState schedP (objA { copyIn 1 0 with at_ := noPlace } noCopy) (promo .running)) 0x3000 9 = false ∧
    promoHeld (pfState schedP (objA noCopy noCopy) (promo .waiting)) 0x800 = false := by
  unfold Plain
  decide

theorem witness_promotion_takes_its_place : ∃ a, poolSpace (pfState schedP (objA { noCopy with state := 1, at_ := noPlace } noCopy) (promo .running)) (objA { noCopy with state := 1, at_ := noPlace } noCopy) 1 = some a := by
  refine Option.isSome_iff_exists.mp ?_
  simp [poolSpace, poolRanges, poolCopies, has, live, noCopy, pfState, holding, objA, ResObj.poolOf, tfind, firstGap, noPlace, basinBase]

-- locks, jobs, grants -----------------------------------------------------------------------------------------------------

/-- Lock 3 belongs to job 7 with COUNT 5. -/
def lockState (c : Cmd) (claimed : Nat) (setters : List Nat) : State :=
  { has c with jobs := [jobSeven], locks := [(3, { Lock.rest with job := 7, count := 5, claimed := claimed, setters := setters })] }

/-- A lock command on lock 3 with a value. -/
def onLock (co v : Nat) : Cmd := ran co [3 + v * 2 ^ 32]

theorem witness_LockCommandsCount :
    lkTarget (onLock 0x801 9) = 3 ∧ (getLock (lockState (onLock 0x801 9) 0 []) 3).job = 7 ∧
    (∀ p q, signalTo (lockState (onLock 0x801 9) 0 []) 2 7 3 = .there p q → hasLink (lockState (onLock 0x801 9) 0 []) 2 7 = true) ∧
    ((getLock (lockState (onLock 0x802 9) 0 []) 3).claimed = 0 ∧ (getLock (lockState (onLock 0x802 9) 0 []) 3).setters = []) ∧
    (getLock (lockState (onLock 0x802 9) 2 []) 3).claimed ≠ 0 ∧ (getLock (lockState (onLock 0x802 9) 0 [8]) 3).setters.head? = some 8 ∧ (8 : Nat) ≠ 1 :=
  ⟨by decide, by decide, fun p q h => by simp [signalTo] at h, by decide, by decide, by decide, by decide⟩

/-- R283: LK_SIGNAL adds its value; R285: LK_SET sets it; R257: LK_READ answers COUNT. -/
theorem test_lk_signal : nextIs (exec (.lkSignal 1) (lockState (onLock 0x801 9) 0 [])) (fun t => (getLock t 3).count == 14) = true := by decide
theorem test_lk_signal_saturates : nextIs (exec (.lkSignal 1) (lockState (onLock 0x801 0xFFFFFFFF) 0 [])) (fun t => (getLock t 3).count == 0xFFFFFFFF) = true := by decide
theorem test_lk_set : nextIs (exec (.lkSet 1) (lockState (onLock 0x802 9) 0 [])) (fun t => (getLock t 3).count == 9) = true := by decide
theorem test_lk_read : nextIs (exec (.lkRead 1) (lockState (onLock 0x803 0) 0 [])) (fun t => (findCmd t 1).map Cmd.detail == some 5) = true := by decide

/-- JOB_SUBMIT of a job of one layer and no table, whose descriptor lies at 0x400. -/
def submits : Cmd := { ran 0xF01 [0x40] with snapMem := memWrite [] 0x400 ([1] ++ zeros 11 ++ leBytes 2 1 ++ zeros 2 ++ leBytes 8 0x10000) }
/-- JOB_END of job 7, with KILL. -/
def kills : Cmd := ran 0xF02 [1]
def ends : Cmd := ran 0xF02 []

/-- The job of an outcome of `jobOf`. -/
def jobMade (x : Except (Nat × Nat) Job) : Option Job := match x with | .ok j => some j | .error _ => none

set_option maxRecDepth 4000 in
theorem witness_JobsRunAndEnd :
    NoHolds (has submits) submits ∧ (jobMade (jobOf (asRead (has submits) submits) submits (rdStruct (asRead (has submits) submits) submits (descAddr (submits.pkt.slot 0)) 256))).isSome = true ∧
    findJob (lockState (ran 0xF03 []) 0 []) 7 = some jobSeven ∧ jobSeven.st ≠ .ending ∧
    bit (kills.pkt.slot 0) 0 = true ∧ bit (ends.pkt.slot 0) 0 = false ∧ jobCmds { has ends with jobs := [jobSeven] } 7 = [] ∧
    jobCmds { has ends with jobs := [jobSeven], cmds := [ends, { ran 0x804 [] with id := 2 }] } 7 ≠ [] := by
  unfold NoHolds
  decide

set_option maxRecDepth 8000 in
/-- R298: a command that the job still has at the JOB_END with KILL ends with it. -/
theorem test_job_end_kills : nextIs (exec (.jobEnd 1) { has kills with jobs := [jobSeven], cmds := [kills, { ran 0x804 [] with id := 2, noReply := true }] })
    (fun t => t.jobs == [] && (findCmd t 2).isNone) = true := by decide

theorem test_job_suspend : nextIs (exec (.jobSuspend 1) (lockState (ran 0xF03 []) 0 [])) (fun t => (findJob t 7).map Job.st == some (.suspended false)) = true := by decide

/-- LOCK_GRANT of locks 16 and 17 to job 7. -/
def grants (co : Nat) : Cmd := ran co [16 + 2 * 2 ^ 16 + 7 * 2 ^ 32]
def loanA : Loan := { base := 0x10000000, size := 0x4000000, peer := 3, job := 7, readers := [], sess := 2, memKey := 65543, ending := false }
/-- LOAN_GRANT of 64 MiB at 0x10000000 to peer 3 for job 7. -/
def lends : Cmd := ran 0xF08 [0x1000000, 1 + 3 * 2 ^ 16 + 7 * 2 ^ 32]
def linked (c : Cmd) : State := { has c with jobs := [jobSeven], links := [((2, 7), zeros 32)] }
/-- HOSTBUF_REG of one page at host address 0x10000. -/
def regs (co : Nat) : Cmd := ran co [0x1000 + 5 * 2 ^ 61, 1]
def bufA : HostBuf := { sess := 2, base := 0x10000, pages := 1, modWr := false, job := 0, ring := 0, forRing := none }

theorem witness_LocksLoansAndBuffersAreGranted :
    grantRange (grants 0xF06) = [16, 17] ∧ grantDenied (linked (grants 0xF06)) (grants 0xF06) = false ∧ (getLock (linked (grants 0xF06)) 16).job = 0xFFFF ∧
    ((getLock (linked (grants 0xF07)) 16).queue = [] ∧ (getLock (linked (grants 0xF07)) 16).claimed = 0) ∧
    hasLink (linked lends) 2 (loanJob lends) = true ∧ loanCuts (linked lends) (localise (linked lends) (descAddr (lends.pkt.slot 0))).off (loanSize lends.pkt) = false ∧
    freeLoan (linked lends) = some 0 ∧
    tfind { linked (ran 0xF09 [0]) with loans := [(0, loanA)] }.loans 0 = some loanA ∧ loanStaged { linked lends with loans := [(0, loanA)] } loanA = false ∧
    loanStaged { linked lends with loans := [(0, loanA)], remoteSt := [⟨3, 7, 1, 0, 0x10000010, [1], 0, true⟩] } loanA = true ∧
    bufFault (linked (regs 0xF0A)) 2 0x10000 1 false = none ∧ unregBuf { linked (regs 0xF0B) with bufs := [bufA] } (regs 0xF0B) = some bufA ∧
    bufInUse { linked (regs 0xF0B) with bufs := [bufA] } (regs 0xF0B) bufA = false ∧
    bufInUse { linked (regs 0xF0B) with bufs := [bufA], cmds := [regs 0xF0B, { copies with id := 2, pkt := pktOf 0x701 [0x1000 + 5 * 2 ^ 61, 0x200, 8 * 256] }] } (regs 0xF0B) bufA = true := by
  decide

theorem test_loan_grant : nextIs (exec (.loanGrant 1) (linked lends)) (fun t => (tfind t.loans 0).map Loan.size == some 0x4000000) = true := by decide

-- the link, the TAP and the window ----------------------------------------------------------------------------------------

theorem witness_TapLoadsItsInstructions :
    live.power.off = false ∧ live.trust.dbgBy = none ∧ { live.trust with dbgBy := some 2 }.dbgBy ≠ none ∧ (offState.power.off = true ∧ offState.power.phase ≠ 9) ∧
    scanRow .bypass = some (0xFF, false) ∧ scanRow .extest = some (0, true) := by decide

/-- R521: IDCODE is current in Test-Logic-Reset. -/
theorem test_idcode : nextIs (exec .idcode live) (fun t => t.tap.ir == 2) = true := by decide

theorem witness_CxlLinkServesTheHost :
    (live.power.linkUp = true ∧ live.power.cfgDone = true) ∧ (State.reset.power.off = false ∧ State.reset.power.linkUp = false ∧ State.reset.power.cfgDone = false) ∧
    { live.trust with rsaOk := true }.rsaOk = true := by decide

/-- An aperture of job 7 at the start of the window, whose decoder is committed. -/
def windowed : State := { live with jobs := [jobSeven], cxl := { Cxl.rest with decWays := 1, decHpa := some 0, apertures := [(0, (7, 2))] } }

theorem witness_WindowReadsAndWritesHbm :
    windowHit windowed 0x100 8 = true ∧ windowKey windowed 0x100 8 = some 65543 ∧ windowKey windowed (2 ^ 30) 8 = none ∧ windowKey windowed (2 ^ 30 - 4) 8 = none ∧
    windowHit windowed (2 ^ 30) 8 = true ∧ ready windowed = true ∧ poisonedIn windowed (windowed.cfg.hdmBase + 0x100) 8 = none ∧
    (poisonedIn { windowed with poison := [windowed.cfg.hdmBase + 0x100] } (windowed.cfg.hdmBase + 0x100) 8).isSome = true := by decide

theorem test_hdm_write : nextIs (exec (.hdmWrite 0x100 [5, 6]) windowed) (fun t => memRead t.mem (windowed.cfg.hdmBase + 0x100) 2 == [5, 6]) = true := by decide

theorem test_snoop_misses : nextIs (exec (.snoop 64) live) (fun t => t.answers == [.snoopMiss 64]) = true := by decide

-- Towpath -----------------------------------------------------------------------------------------------------------------

/-- Port 0 up at 4 lanes to peer 3. -/
def ported : State :=
  { live with ports := [(0, { Port.rest with state := 2, laneOk := 15, farValid := true, farPeer := 3, replay := [(5, 0, 1)] }), (1, { Port.rest with state := 1 })] }

def zeroFlit : Flit := { flitOf 0 with kind := 0 }

theorem witness_PortsTakeFlitsInOrder :
    portUp (getPort ported 0) = true ∧ portUp (getPort ported 1) = false ∧ zeroFlit.kind = 0 ∧ zeroFlit.seq = (getPort ported 0).expect ∧ (flitOf 0).kind ≠ 0 := by decide

/-- The CRC is of the flit's other fields: a good one, and a bad one. -/
theorem witness_flit_crc (f : Flit) :
    ({ f with crc := crc32 (flitBytes f) } : Flit).crc = crc32 (flitBytes { f with crc := crc32 (flitBytes f) }) ∧
    ({ f with crc := crc32 (flitBytes f) + 1 } : Flit).crc ≠ crc32 (flitBytes { f with crc := crc32 (flitBytes f) + 1 }) :=
  have h (n : Nat) : flitBytes { f with crc := n } = flitBytes f := rfl
  ⟨(congrArg crc32 (h _)).symm, by rw [h]; exact Nat.succ_ne_self _⟩

theorem witness_ControlFlitsReturnCredits :
    (∀ x ∈ (getPort ported 0).replay, x.2.2 < 7) ∧ (getPort ported 0).freedTx.length = 8 ∧ (getPort ported 0).farValid = true ∧ ported.power.phase ≠ 0xF ∧
    (CreditRec.mk [1] none).nak = none ∧ (CreditRec.mk [1] (some 5)).nak = some 5 := by decide

theorem test_control_flit : nextIs (exec (.controlFlit 0 4 ⟨[9, 0, 0, 0, 0, 0, 0, 0], none⟩) ported) (fun t => (getPort t 0).freedTx.getD 0 0 == 9) = true := by decide

theorem witness_PortsTrainFailAndRetrain :
    (bit (getPort ported 0).ctrl 0 = true ∧ bit 2 0 = false ∧ bit (getPort ported 0).ctrl 0 = bit 3 0) ∧ (bit { Port.rest with ctrl := 2 }.ctrl 0 = false ∧ bit 3 0 = true) ∧
    creditOk 0x4040404040404040 = true ∧ creditOk 0x4040404040404041 = false ∧ creditOk 0 = false ∧ ((getPort ported 2).state = 0 ∧ bit (getPort ported 2).ctrl 0 = true) ∧
    bit (getPort ported 0).laneOk 2 = true ∧ ((getPort ported 1).state = 1 ∧ ported.power.phase = 7 ∧ ported.testing = []) := by decide

/-- R332: a port that loses lane 2 keeps the pair of lanes 0 and 1; one whose training brings up all lanes is up at 4. -/
theorem test_lane_failure : nextIs (exec (.laneFailure 0 2) ported) (fun t => (getPort t 0).state == 3) = true := by decide
theorem test_training : nextIs (exec (.portTrainingDone 1 15 4) ported) (fun t => (getPort t 1).state == 2 && (getPort t 1).farPeer == 4) = true := by decide

theorem witness_TransitMessagesLoseAHop : ({ hdr with dst := 9 } : MsgHdr).dst ≠ ported.cfg.peerId ∧ ported.power.phase ≠ 0xF ∧ hdr.hops ≠ 0 ∧ ({ hdr with hops := 0 } : MsgHdr).hops = 0 := by decide

theorem test_transit_hop : nextIs (exec (.messageForward 0 { hdr with dst := 9, hops := 0 }) ported) (fun t => (getPort t 0).drop == 1 && t.transit == []) = true := by decide

-- messages ----------------------------------------------------------------------------------------------------------------

/-- A message of a type from peer 3 that carries the count 1. -/
def msgOf (typ : Nat) (tc job : Nat) : MsgHdr := { hdr with typ := typ, tc := tc, job := job, gen := 0, count := 1 }

/-- Job 7 has its link secret with peer 3. -/
def joined : State := { ported with jobs := [jobSeven], links := [((2, 7), zeros 32)] }

/-- What `Arrives` asks, for a message of `msgOf`. -/
theorem arrives_joined (s : State) (typ tc job : Nat) (h1 : s.cfg.peerId = 0) (h2 : s.power = joined.power) (h3 : s.domain.rx = []) (h4 : s.domain.lost = [])
    (h5 : s.domain.conflicts = []) (h6 : s.links = joined.links) (ht : typeOk typ tc = true) (hj : job = 0 ∨ job = 7) : Arrives s typ (msgOf typ tc job) where
  here := h1.symm
  alive := by rw [h2]; decide
  type := ⟨rfl, ht⟩
  known := .inr (by rw [h4]; rfl)
  own := .inr (by rw [h5]; rfl)
  good := ⟨rfl, by
    show (job == 0 || s.links.any (fun l => l.1.2 == job)) = true
    rw [h6]
    rcases hj with rfl | rfl <;> decide⟩
  fresh := by
    rw [h3]
    refine Option.isSome_iff_exists.mp ?_
    show (windowOk (if typ = mtHello then LinkRx.rest else LinkRx.rest) 0 1).isSome = true
    rw [ite_self]
    decide

/-- Every type of message arrives from a member: in class 7 for job 0 and for a job with a secret. -/
theorem witness_arrivals :
    ∀ typ ∈ [mtReadReq, mtReadResp, mtWrite, mtCollData, mtStagedAck, mtCommit, mtCancel, mtLockSignal, mtCollJoin, mtCollSet, mtCollLate, mtCollFlip, mtAuthNak, mtTime,
      mtPdelay, mtAnnounce, mtHello, mtHeartbeat, mtMember, mtLost, mtStage, mtAck, mtOpen, mtDiscard, mtLoanEnd],
      Arrives joined typ (msgOf typ 7 0) ∧ Arrives joined typ (msgOf typ 7 7) := by
  intro typ h
  have ht : typeOk typ 7 = true := by
    revert typ
    decide
  exact ⟨arrives_joined joined typ 7 0 rfl rfl rfl rfl rfl rfl ht (.inl rfl), arrives_joined joined typ 7 7 rfl rfl rfl rfl rfl rfl ht (.inr rfl)⟩

/-- Each case of a message that is discarded. -/
theorem witness_MessagesAreCheckedFirst :
    messageRow (.heartbeat (msgOf mtHeartbeat 7 0)) = some (mtHeartbeat, msgOf mtHeartbeat 7 0) ∧ typeOk mtHeartbeat 7 = true ∧ typeOk mtHeartbeat 0 = false ∧
    ({ joined.domain with lost := [3] } : Domain).lost.contains 3 = true ∧ ({ joined.domain with conflicts := [3] } : Domain).conflicts.contains 3 = true ∧
    hasKey live 7 = false ∧ windowOk LinkRx.rest 0 0 = none ∧ windowOk LinkRx.rest 5 1 = none ∧ mtHeartbeat ≠ mtHello := by decide

/-- The module follows peer 3 as its keeper. -/
def followed : State := { joined with domain := { Domain.rest with keeper := some (3, 0), successors := [3], locked := true } }
def keeping : State := { joined with domain := { Domain.rest with keeper := some (0, 0), isKeeper := true, members := [(3, 1)] } }

theorem witness_DomainMessagesAct :
    (hdr.src ≠ joined.cfg.peerId) ∧ (keeping.domain.isKeeper = true ∧ keeping.domain.outside = false) ∧ ¬ (joined.domain.isKeeper = true ∧ joined.domain.outside = false) ∧
    joined.domain.keeper = none ∧ followed.domain.keeper = some (3, 0) ∧ keeping.domain.keeper = some (0, 0) ∧ (0 : Nat) ≠ hdr.src := by decide

theorem witness_own_id_hello : Arrives { joined with cfg := { joined.cfg with peerId := 3 } } mtHello { msgOf mtHello 7 0 with dst := 3 } :=
  ⟨rfl, by decide, ⟨rfl, by decide⟩, .inl rfl, .inl rfl, ⟨rfl, by decide⟩, Option.isSome_iff_exists.mp (by decide)⟩

theorem test_heartbeat_is_heard : nextIs (exec (.heartbeat (msgOf mtHeartbeat 7 0)) { joined with time := 77 }) (fun t => aget 0 t.domain.lastHeard 3 == 77) = true := by decide

theorem witness_DeviceTimeFollowsTheKeeper :
    Arrives followed mtTime (msgOf mtTime 7 0) ∧ (followed.domain.keeper = some (hdr.src, 0) ∧ followed.domain.isKeeper = false ∧ followed.domain.outside = false ∧ followed.power.phase = 7) ∧
    followed.domain.locked = true ∧ joined.domain.locked = false ∧ (keeping.domain.isKeeper = true ∧ keeping.power.phase = 7) ∧ 3 ∈ audience keeping ∧
    3 ∈ partners followed ∧ followed.domain.lastSent.all (fun e => e.1 != 3) = true :=
  ⟨arrives_joined _ _ _ _ rfl rfl rfl rfl rfl rfl (by decide) (.inl rfl), by decide, by decide, by decide, by decide, by decide, by decide, by decide⟩

/-- R350: TIME moves device time to the keeper's; it never goes back. -/
theorem test_time_unlocked : nextIs (exec (.time (msgOf mtTime 7 0) 0 1000 1) { followed with domain := { followed.domain with locked := false } }) (fun t => t.time == 1000) = true := by
  decide
theorem test_time_never_back : nextIs (exec (.time (msgOf mtTime 7 0) 0 1000 1) { followed with time := 5000 }) (fun t => t.time == 5000) = true := by decide

theorem witness_LostPeersLeaveTheDomain :
    ((3 : Nat) ≠ joined.cfg.peerId ∧ joined.domain.lost.contains 3 = false ∧ joined.power.phase = 7) ∧ Arrives keeping mtLost (msgOf mtLost 7 0) ∧
    Arrives followed mtMember (msgOf mtMember 7 0) ∧ ∀ e ∈ [((3 : Nat), (1 : Nat))], e.2 ≠ 2 :=
  ⟨by decide, arrives_joined _ _ _ _ rfl rfl rfl rfl rfl rfl (by decide) (.inl rfl), arrives_joined _ _ _ _ rfl rfl rfl rfl rfl rfl (by decide) (.inl rfl), by decide⟩

/-- R349: the keeper's table marks the members. -/
theorem test_member : nextIs (exec (.member (msgOf mtMember 7 0) [(3, 1), (4, 1)]) followed) (fun t => t.domain.members == [(3, 1), (4, 1)]) = true := by decide

-- staged modes --------------------------------------------------------------------------------------------------------

/-- MODE_STAGE of job 7 with item 3 (scope 0, epoch 2), whose block lies at 0x400. -/
def stages : Cmd := { ran 0xF10 [0x40] with snapMem := memWrite [] 0x400 ([0, 1, 2, 0] ++ leBytes 2 0xFFFF ++ zeros 2 ++ [3, 0, 0, 0, 1]) }

/-- The module runs job 7, which has modules 3 and this one. -/
def modal (peers : List Nat) : State := { followed with jobs := [{ jobSeven with peers := peers }], cmds := [stages] }

theorem witness_MODE_STAGE :
    RingRuns (modal [3]) 1 0xF10 stages ∧
    (modeBlk (findJob (modal [3]) 7) (rdStruct (asRead (modal [3]) stages) stages (descAddr (stages.pkt.slot 0)) 64)).map ModeBlk.scope = some 0 ∧
    (findJob (modal []) 7).map Job.peers = some [] ∧ (findJob (modal [3]) 7).map Job.peers = some [3] ∧
    ((modal [3]).domain.isKeeper = false ∧ (modal [3]).power.phase = 7 ∧ (modal [3]).domain.keeper = some (3, 0)) :=
  ⟨⟨⟨rfl, rfl, by decide⟩, 0, rfl⟩, by decide, by decide, by decide, by decide⟩

/-- A change of scope 0 of job 7 to epoch 2. -/
def changeA : Change :=
  { id := 7 * 65536 + 2, scope := 0, job := 7, epoch := 2, barrier := 0xFFFF, items := [⟨3, 1⟩], peers := [3], cmd := none, remote := none, t0 := 100,
    unacked := [(3, 8)], acked := false, ackAt := 0, holding := false, tApply := none, hops := 0 }
def changed (g : Change) : State := { followed with jobs := [jobSeven], changes := [g] }

theorem witness_ModeChangesAreStagedAndApplied :
    findChange (changed changeA) changeA.id = some changeA ∧ (changeA.id < 2 ^ 32 ∧ changeA.scope = 0) ∧ (changeA.unacked ≠ [] ∧ changeA.remote = none ∧ changeA.tApply = none) ∧
    { changeA with remote := some 3 }.remote ≠ none ∧ { changeA with acked := true }.acked = true ∧ { changeA with tApply := some 500 }.tApply = some 500 ∧
    findChange (changed changeA) 5 = none := by decide

/-- R316: at T_apply the item is in force and the job's epoch is the change's. -/
theorem test_mode_apply : nextIs (exec (.modeApply changeA.id) (changed { changeA with tApply := some 0 })) (fun t => (findJob t 7).map Job.epoch == some 2 && t.changes == []) = true := by
  decide

/-- A change of the module's power state to P1. -/
def changeP : Change := { changeA with id := 2 ^ 32, scope := 1, job := 0xFFFF, items := [⟨0x10, 1⟩], peers := [], unacked := [], tApply := some 0 }
def retrying (auto : Bool) : State := { live with power := { live.power with retry := some true, autoPower := auto } }

theorem witness_PowerStateFollowsItsRequests :
    (findChange (changed changeP) changeP.id = some changeP ∧ changeP.scope = 1 ∧ changeP.tApply = some 0) ∧ live.power.retry = none ∧
    scope1Busy { retrying true with changes := [changeP] } = true ∧ scope1Busy (retrying true) = false ∧ wantP1 (retrying false) ≠ true ∧
    (wantP1 (retrying true) = true ∧ true ≠ (retrying true).power.p1 ∧ (retrying true).power.phase = 7) := by decide

theorem test_power_change : nextIs (exec (.modeApply (2 ^ 32)) (changed changeP)) (fun t => t.power.p1 && t.modEpoch == 1) = true := by decide

theorem witness_ModeMessagesCarryTheChange :
    Arrives followed mtStage (msgOf mtStage 7 0) ∧ Arrives (changed changeA) mtAck (msgOf mtAck 7 0) ∧ Arrives (changed changeA) mtOpen (msgOf mtOpen 7 0) ∧
    Arrives (changed changeA) mtDiscard (msgOf mtDiscard 7 0) ∧ Arrives keeping mtStage (msgOf mtStage 7 0) ∧
    (followed.domain.keeper = some (hdr.src, 0) ∧ followed.domain.isKeeper = false ∧ followed.domain.outside = false) ∧
    (keeping.domain.isKeeper = true ∧ keeping.domain.outside = false) ∧ findChange (changed changeA) 5 = none ∧
    findChange (changed { changeA with remote := some 3 }) changeA.id = some { changeA with remote := some hdr.src } ∧ followed.time < 5 ∧ 0 ≤ followed.time :=
  ⟨arrives_joined _ _ _ _ rfl rfl rfl rfl rfl rfl (by decide) (.inl rfl), arrives_joined _ _ _ _ rfl rfl rfl rfl rfl rfl (by decide) (.inl rfl),
    arrives_joined _ _ _ _ rfl rfl rfl rfl rfl rfl (by decide) (.inl rfl), arrives_joined _ _ _ _ rfl rfl rfl rfl rfl rfl (by decide) (.inl rfl),
    arrives_joined _ _ _ _ rfl rfl rfl rfl rfl rfl (by decide) (.inl rfl), by decide, by decide, by decide, by decide, by decide, by decide⟩

-- the mailbox -----------------------------------------------------------------------------------------------------------

def credA (pake : Bool) : Credential := { id := List.replicate 16 5, pake := pake, priv := true, secret := [9] }
/-- Session 2 open and privileged, session 3 reserved since 100 by each method, and a credential for each. -/
def mailed : State :=
  { live with
    jobs := [jobSeven]
    sessions := [(2, { Session.rest with st := .opened, priv := true }), (3, { Session.rest with st := .reserved, since := 100, expect := List.replicate 48 6 }),
                 (4, { Session.rest with st := .reserved, pake := true, since := 100, expect := List.replicate 32 6 }), (5, { Session.rest with st := .opened })]
    cfg := { cfgRest with credentials := [credA false, credA true] } }

def opening : List Byte := [0xFF, 0xFF] ++ zeros 30
def startPsk : List Byte := opening ++ List.replicate 16 5 ++ leBytes 4 1 ++ zeros 32
def startPake : List Byte := opening ++ List.replicate 16 5 ++ leBytes 4 0 ++ zeros 65

set_option maxRecDepth 8000 in
theorem witness_SessionsOpenByTheirCredential :
    (startCheck mailed startPsk false 52).toOption.map Prod.snd = some 0 ∧ (startCheck mailed startPake true 85).toOption.map Prod.snd = some 0 ∧
    (startCheck mailed (startPsk.take 83) false 52).toOption = none ∧ (startCheck mailed (startPake.take 83) true 85).toOption = none ∧
    mailed.power.linkUp = true ∧ ready mailed = true ∧ State.reset.power.linkUp = false ∧ ready { mailed with power := { mailed.power with phase := 6 } } = false ∧
    authSes mailed 0xC014 [] = none ∧ (getSes mailed 3).st = .reserved ∧ (getSes mailed 2).st ≠ .reserved ∧ mailed.time < 100 + 10000000000 := by decide

/-- A FINISH whose proof verifies, for each method, and one whose proof does not. -/
theorem witness_finish :
    ∀ i n pake, (i, n, pake) = (3, 48, false) ∨ (i, n, pake) = (4, 32, true) → ∀ b : Byte, b = 6 ∨ b = 7 → ∀ x, x = opening ++ leBytes 2 i ++ List.replicate n b →
      openHdr x = true ∧ x.length = 34 + n ∧ fieldAt x 32 2 = i ∧ i < 64 ∧ (getSes mailed i).st = .reserved ∧ (getSes mailed i).pake = pake ∧
      ((x.drop 34).take n = (getSes mailed i).expect ↔ b = 6) := by
  rintro i n pake (h | h) b hb x rfl <;> cases h <;> rcases hb with rfl | rfl <;> decide

theorem fitBytes_length (n : Nat) (bs : List Byte) : (fitBytes n bs).length = n := by
  simp only [fitBytes, zeros, List.length_append, List.length_take, List.length_replicate]
  omega

/-- The first 16 bytes of a header of session `i` with COUNTER 1, and its tag under a session's key. -/
def head16 (i : Nat) : List Byte := leBytes 2 i ++ zeros 2 ++ leBytes 8 1 ++ zeros 4
def tagOf (x : Session) (op i : Nat) (body : List Byte) : List Byte :=
  (fitBytes 48 (Config.hmac384 (sesKey x (ascii "mbox") 48) (head16 i ++ leBytes 2 op ++ body))).take 16

/-- A vendor command of session `i` with a body. -/
def mail (s : State) (op i : Nat) (body : List Byte) : List Byte := head16 i ++ tagOf (getSes s i) op i body ++ body

theorem tag_length (x : Session) (op i : Nat) (body : List Byte) : (tagOf x op i body).length = 16 := by
  unfold tagOf
  rw [List.length_take, fitBytes_length]
  rfl

theorem mail_body (s : State) (op i : Nat) (body : List Byte) : (mail s op i body).drop 32 = body :=
  List.drop_left' (by rw [List.length_append, tag_length]; rfl)

theorem mail_length (s : State) (op i : Nat) (body : List Byte) : (mail s op i body).length = 32 + body.length := by
  unfold mail
  rw [List.length_append, List.length_append, tag_length]
  rfl

/-- A vendor command of an open session arrives at a READY module, whatever its body. -/
theorem mail_called (op i : Nat) (hi : i = 2 ∨ i = 5) (body : List Byte) : Called mailed op (mail mailed op i body) i := by
  refine ⟨rfl, by decide, ?_⟩
  have h16 : (head16 i).length = 16 := rfl
  have hd : (mail mailed op i body).drop 16 = tagOf (getSes mailed i) op i body ++ body := by
    unfold mail
    rw [List.append_assoc]
    exact List.drop_left' h16
  have ht : (mail mailed op i body).take 16 = head16 i := by
    unfold mail
    rw [List.append_assoc]
    exact List.take_left' h16
  have hf (o n : Nat) (h : o + n ≤ 16) : fieldAt (mail mailed op i body) o n = fieldAt (head16 i) o n := by
    unfold mail fieldAt
    rw [List.append_assoc, List.drop_append_of_le_length (by omega), List.take_append_of_le_length (by rw [List.length_drop]; omega)]
  have h0 : fieldAt (mail mailed op i body) 0 2 = i := by
    rw [hf 0 2 (by decide)]
    rcases hi with rfl | rfl <;> decide
  have h4 : fieldAt (mail mailed op i body) 4 8 = 1 := by
    rw [hf 4 8 (by decide)]
    rcases hi with rfl | rfl <;> decide
  unfold authSes
  simp only [h0, h4, hd, ht, mail_body, mail_length]
  rw [if_pos]
  refine ⟨by omega, by omega, ?_, ?_, List.take_left' (tag_length _ _ _ _)⟩ <;> rcases hi with rfl | rfl <;> decide

theorem witness_PrivMapHasOneHolder :
    Called mailed 0xC014 (mail mailed 0xC014 2 (leBytes 4 1)) 2 ∧ Called mailed 0xC014 (mail mailed 0xC014 5 (leBytes 4 1)) 5 ∧
    Called mailed 0xC014 (mail mailed 0xC014 2 (leBytes 4 0)) 2 ∧ Called mailed 0xC004 (mail mailed 0xC004 2 []) 2 ∧
    bit (fieldAt (leBytes 4 1) 0 4) 0 = true ∧ bit (fieldAt (leBytes 4 0) 0 4) 0 = false ∧ (getSes mailed 2).priv = true ∧ (getSes mailed 5).priv = false ∧
    mailed.cxl.privBy = none ∧ { mailed.cxl with privBy := some 5 }.privBy = some 5 :=
  ⟨mail_called _ _ (.inl rfl) _, mail_called _ _ (.inr rfl) _, mail_called _ _ (.inl rfl) _, mail_called _ _ (.inl rfl) _, by decide, by decide, by decide, by decide, rfl, rfl⟩

theorem witness_SessionCommandsServeTheirSession :
    Called mailed 0xC005 (mail mailed 0xC005 2 (leBytes 2 8 ++ zeros 62)) 2 ∧ (mail mailed 0xC005 2 (leBytes 2 8 ++ zeros 62)).length = 96 ∧
    fieldAt ((mail mailed 0xC005 2 (leBytes 2 8 ++ zeros 62)).drop 32) 0 2 = 8 ∧ mailed.links.any (fun l => l.1 == (2, 8)) = false ∧
    ({ mailed with links := [((2, 8), [])] } : State).links.any (fun l => l.1 == (2, 8)) = true ∧
    (mail mailed 0xC006 2 (zeros 436)).length = 468 ∧ mailed.trust.owner = none ∧ { mailed.trust with owner := some [] }.owner.isSome = true ∧
    mailed.trust.dbgBy ≠ some 2 ∧ (opening ++ zeros 8).length = 40 ∧ fieldAt (opening ++ zeros 8) 36 4 ≤ 4000 ∧ 4000 < fieldAt (opening ++ zeros 4 ++ leBytes 4 4001) 36 4 ∧
    (mail mailed 0xC015 2 (leBytes 2 1 ++ leBytes 2 0)).length = 36 ∧ (0 < 1 ∧ 120 ≤ 120) := by
  refine ⟨mail_called _ _ (.inl rfl) _, mail_length _ _ _ _, ?_, ?_⟩
  · rw [mail_body]
    decide
  · rw [mail_length, mail_length, show (zeros 436).length = 436 from List.length_replicate]
    decide

theorem witness_RingsAndAperturesAreBound :
    (mail mailed 0xC010 2 (leBytes 2 127 ++ leBytes 2 1)).length = 36 ∧ ((getRing mailed 127).bind = 0xFFFF ∧ (getRing mailed 127).enable = false) ∧
    { Ring.rest with bind := 2 }.bind = 2 ∧ (mail mailed 0xC012 2 (leBytes 2 0 ++ leBytes 2 1 ++ leBytes 2 7)).length = 38 ∧
    findJob mailed 7 = some jobSeven ∧ jobSeven.sess = 2 ∧ 0 + 1 ≤ mailed.cfg.hdmSizeGib ∧
    (∀ a, 0 ≤ a → a < 0 + 1 → (∀ b ∈ mailed.cxl.apertures, b.1 ≠ a) ∧ inPound mailed (apertureBase mailed a) 0x40000000 = false) ∧
    (mail mailed 0xC013 2 (leBytes 2 0 ++ leBytes 2 1)).length = 36 ∧ (∃ b ∈ windowed.cxl.apertures, b.1 = 0 ∧ b.2.2 = 2) := by
  refine ⟨mail_length _ _ _ _, by decide, rfl, mail_length _ _ _ _, rfl, rfl, by decide, ?_, mail_length _ _ _ _, by decide⟩
  intro a _ h
  obtain rfl : a = 0 := by omega
  exact ⟨(fun b hb => nomatch hb), by decide⟩

/-- R410: a slot not finished within 10 s is freed. -/
theorem test_sessions_expire : nextIs (exec (.sessionSlotExpiry 3) { mailed with time := 10000000100 }) (fun t => (getSes t 3).st == .free) = true := by decide

-- errors, start-up, tests ------------------------------------------------------------------------------------------------

theorem witness_UnitsAreFencedOnTheirErrors :
    (getDie live 3).fenced = false ∧ (getDie { live with dies := [(3, { Die.rest with fenced := true })] } 3).fenced = true ∧
    (unitInService live (.core 511) = true ∧ unitInService live (.root 63) = true ∧ unitInService live (.move 127) = true ∧ dieShort live 7 = none) ∧
    (setBit (getDie live 0).moveFence 15 true % 2 ^ 16 ≠ 2 ^ 16 - 1 ∧ setBit 0x7FFF 15 true % 2 ^ 16 = 2 ^ 16 - 1) ∧ live.power.phase ≠ 0xF ∧
    (backed 0x1000 = true ∧ 0x1000 < coreBase ∧ (getDie live (dieOfAddr 0x1000)).up = true ∧ bit (getMemRegs live 0).scrub 1 = true ∧ bit (getMemRegs live 0).scrub 0 = true) ∧
    ((getMemRegs live 0).retired.length < 4095 ∧ (getMemRegs live 0).retired.contains 0 = false) := by decide

/-- R475: an internal error fences its core; R447: a failure of the controller is fatal. -/
theorem test_core_fenced : nextIs (exec (.unitInternalError (.core 65)) live) (fun t => (getDie t 1).coreFence == 2) = true := by decide
theorem test_mgmt_fatal : nextIs (exec (.unitInternalError .mgmt) live) (fun t => t.power.phase == 0xF && t.power.fatal == 2) = true := by decide

def firmware : SignedObj :=
  { wellFormed := true, kind := 0, raiseFloor := false, svn := 0, sequence := 0, signer := Config.firmwareKey, hashOk := true, signerOk := true, rsaOk := true,
    slhOk := true, level := 0, hash := [] }
def recordA : ConfigRecord := { cfgRest with obj := { firmware with kind := 2, signer := Config.factoryKey }, rkHashOk := true }

theorem witness_objects :
    objAccepted State.reset firmware = true ∧ objAccepted State.reset recordA.obj = true ∧ objAccepted State.reset { firmware with kind := 1 } = true ∧
    objAccepted State.reset { firmware with rsaOk := false } = false := by
  simp [objAccepted, signerAllowed, firmware, recordA, cfgRest, State.reset, Trust.rest]

theorem witness_StartupRunsInItsOrder :
    (State.reset.power.off = false ∧ State.reset.power.phase = 0 ∧ State.reset.power.resetN = true ∧ State.reset.tap.ir ∉ [0x00, 0x03, 0x04, 0x05, 0x06]) ∧
    (firmware.kind = 0 ∧ recordA.obj.kind = 2 ∧ recordA.rkHashOk = true ∧ ({ firmware with kind := 1 } : SignedObj).kind = 1) ∧
    (∀ p ∈ [1, 2, 3, 4, 5, 6], { Power.rest with phase := p }.phase = p ∧ { Power.rest with phase := p }.off = false) ∧ State.reset.power.towDone = false ∧
    ∀ p, p < 36 → (getPort State.reset p).state ≠ 1 := by decide

theorem test_dies_released : nextIs (exec (.diesReleased true true) { State.reset with power := { Power.rest with phase := 2 } }) (fun t => t.power.phase == 3 && (getDie t 7).up) = true := by
  decide
theorem test_identity_fail : nextIs (exec (.diesReleased true false) { State.reset with power := { Power.rest with phase := 2 } }) (fun t => t.power.phase == 0xE && t.power.failDetail == 1) = true := by
  decide

/-- TEST_CORE of core 1 of die 0, and a test of it under way. -/
def tests : Cmd := ran 0xE01 [64]
def testing (u : HwUnit) (op : Nat) : State := { live with testing := [⟨op, u, none⟩] }

theorem witness_UnitsAreTestedInTurn :
    testRow (.testCore 1) = some (1, 1) ∧ Runs (has tests) 1 0xE01 tests ∧ ((has tests).testing ++ (has tests).testQ).any (fun r => r.cmd == some 1) = false ∧
    testUnit 1 (tests.pkt.slot 0) = some (.core 1) ∧ testRefused (has tests) 1 (tests.pkt.slot 0) = false ∧
    (testOp (.core 1) = some 1 ∧ unitInService live (.core 1) = true) ∧ lastRoute live 0 = false ∧
    (testing (.core 1) 1).testing.find? (fun r => r.unit == .core 1) = some ⟨1, .core 1, none⟩ ∧ (testing (.core 1) 1).cmds.any (fun c => inUse c && onUnit c (.core 1)) = false :=
  ⟨rfl, ⟨rfl, rfl, by decide⟩, by decide, by decide, by decide, by decide, by decide, by decide, by decide⟩

theorem test_failed_test_fences : nextIs (exec (.testResult (.core 1) ⟨false, 15⟩) (testing (.core 1) 1)) (fun t => (getDie t 0).coreFence == 2) = true := by decide

/-- DIE_FENCE of die 3, at once and with DRAIN, and DIE_UNFENCE of it. -/
def fences (drain : Nat) : Cmd := { ran 0xF14 [3 + drain * 256] with place := some ⟨0xF, 0, 6⟩ }
def unfences : Cmd := { ran 0xF15 [3] with place := some ⟨0xF, 0, 6⟩ }
def fencedThree : State := { has unfences with dies := (List.range 8).map (fun d => (d, { Die.rest with up := d != 3, fenced := d == 3, cause := if d = 3 then 1 else 0 })) }

theorem witness_DiesAreFencedAndReturned :
    fenceTarget (fences 0) = 3 ∧ Runs (has (fences 0)) 1 0xF14 (fences 0) ∧ fenceRefused (has (fences 0)) 3 = false ∧ bit ((fences 0).pkt.slot 0) 8 = false ∧
    bit ((fences 1).pkt.slot 0) 8 = true ∧ dieBusy (has (fences 1)) 3 = false ∧
    dieBusy { has (fences 1) with cmds := [fences 1, { ran 0x804 [] with id := 2, place := some ⟨3, 0, 2⟩ }] } 3 = true ∧
    Runs fencedThree 1 0xF15 unfences ∧ unfenceRefused fencedThree 3 = false :=
  ⟨by decide, ⟨rfl, rfl, by decide⟩, by decide, by decide, by decide, by decide, by decide, ⟨rfl, rfl, by decide⟩, by decide⟩

theorem test_unfence : nextIs (exec (.dieUnfence 1 []) fencedThree) (fun t => (getDie t 3).up && !(getDie t 3).fenced) = true := by decide

-- the path of a ring's command --------------------------------------------------------------------------------------------

/-- An LK_NOP of job 7 as its 64 bytes, with its opcode, epoch and first slot. -/
def nopBytes (opcode epoch slot0 : Nat) : List Byte :=
  leBytes 2 opcode ++ leBytes 2 7 ++ zeros 4 ++ leBytes 4 5 ++ leBytes 2 epoch ++ leBytes 2 0xFFFF ++ zeros 4 ++ leBytes 2 0xFFFF ++ zeros 2 ++ leBytes 8 slot0 ++ zeros 32

def ringX : Ring := { Ring.rest with base := 0x10000, reply := 0x20000, log2 := 6, enable := true, active := true, tail := 1, bind := 2 }

/-- Ring 0, bound to session 2, holds one entry. -/
def ringed (bs : List Byte) : State :=
  { live with
    jobs := [{ jobSeven with epoch := 2 }]
    ctxs := [⟨7, 0, [], []⟩]
    sessions := [(2, { Session.rest with st := .opened })]
    rings := [(0, ringX)]
    mem := memWrite [] 0x10000 bs }

/-- Is an entry read as this packet? -/
def packetIs (e : Entry) (p : List Byte → Bool) : Bool := match e with | .packet bs => p bs | _ => false

theorem packet_of (e : Entry) (p : List Byte → Bool) (h : packetIs e p = true) : ∃ bs, e = .packet bs ∧ p bs = true := by
  unfold packetIs at h
  split at h
  · exact ⟨_, rfl, h⟩
  · cases h

/-- A fetched entry that is accepted, one that fails a check, one that is refused and one of an epoch gone by. -/
def fetchCase (bs : List Byte) (k : Nat) : Bool :=
  let s := ringed bs
  let p := packetOf bs
  packetIs (ringEntryOf s 0 0) (· == bs) && fetches s 0 && replySpace (getRing s 0) && (shapePoison (arrived s 0 p) (judged s 0 p).pkt ((usesOf p (shapesAt (arrived s 0 p) p)).getD [])).isNone &&
  (if k = 0 then (faultOf s 0 p).isSome
   else (faultOf s 0 p).isNone && (if k = 1 then (denialOf s 0 p).isSome
     else (denialOf s 0 p).isNone && (if k = 2 then decide (epochAhead (arrived s 0 p) p < 0) else decide (0 ≤ epochAhead (arrived s 0 p) p))))

set_option maxRecDepth 8000 in
theorem witness_RING_FETCH :
    fetchCase (nopBytes 0x8040 2 0xFFFF) 3 = true ∧ fetchCase (nopBytes 0x8040 1 0xFFFF) 2 = true ∧ fetchCase (nopBytes 0x8040 0 0xFFFF) 3 = true ∧ fetchCase (nopBytes 0x804F 2 0xFFFF) 0 = true ∧
    fetches live 0 = false ∧ replySpace { ringX with inFlight := 64 } = false ∧ replySpace { ringX with inFlight := 63 } = true := by decide

set_option maxRecDepth 8000 in
/-- R268: the entry's command is accepted with the next handle, and RING_HEAD moves on. -/
theorem test_ring_fetch : nextIs (exec (.ringFetch 0) (ringed (nopBytes 0x8040 2 0xFFFF))) (fun t => (getRing t 0).head == 1 && t.cmds.map Cmd.id == [0] && t.nextId == 1) = true := by decide

/-- A ready LK_NOP of job 7 placed on die 0. -/
def readies : Cmd := { ran 0x804 [] with phase := .placed, runs := 0, pkt := { pktOf 0x804 [] with waitLock := 0xFFFF, sigLock := 0xFFFF } }
def starting (c : Cmd) : State := { has c with jobs := [jobSeven], ctxs := [⟨7, 0, [], []⟩] }

/-- What the start of a family lets go on, and the checks that follow. -/
def goesOn (s : State) (c : Cmd) (p : Place) : Bool :=
  match familyStart (clearStores s c p) (atStart s c p) with
  | .go w2 c2 => (match findCmd w2 c2.id with | some b => decide (c2.self = b.self) | none => false) && !(startCapBad (clearStores s c p) (atStart s c p)) &&
      !(resvTooBig s (reservation (clearStores s c p) (atStart s c p))) && !(resvLacks s (reservation (clearStores s c p) (atStart s c p)))
  | _ => false

/-- Are the operands of a command fit to start? -/
def fitNow (x : OperandRes) : Bool := match x with | .ok => true | _ => false

set_option maxRecDepth 8000 in
theorem witness_COMMAND_START :
    let u := debtPass (starting readies)
    findCmd u 1 = some readies ∧ findCmd u 9 = none ∧ ready u = true ∧ cmdReady u readies = true ∧ jobHeld u readies = false ∧
    (if readies.phase = .placed then readies.place else placeFor u readies) = some ⟨0, 0, 0⟩ ∧ startHeld (placedIn u readies) readies = false ∧
    startUnit (placedIn u readies) readies ⟨0, 0, 0⟩ = some 0 ∧ fitNow (checkOperands (placedIn u readies) readies) = true ∧ (placedIn u readies).poison = [] ∧
    goesOn (placedIn u readies) readies ⟨0, 0, 0⟩ = true ∧
    cmdReady u { readies with phase := .running } = false ∧ jobHeld { u with jobs := [{ jobSeven with st := .suspended true }] } readies = true ∧
    jobHeld { u with jobs := [{ jobSeven with st := .trapped }] } readies = true := by decide

set_option maxRecDepth 8000 in
/-- R276: a ready command on a free unit starts. -/
theorem test_command_start : nextIs (exec (.commandStart 1) (starting readies)) (fun t => (findCmd t 1).map Cmd.phase == some .running && (findCmd t 1).map Cmd.runs == some 1) = true := by decide

/-- A staged FILL of 4 bytes, a staged LK_SET whose lock is not ready, and a staged collective that awaits its flip. -/
def staged : Cmd := { fills with phase := .staged, writes := [⟨⟨0, 0, 0x2000⟩, [1, 2, 3, 4]⟩] }
def lent : Cmd := { staged with writes := [⟨⟨4, 3, 0x2000⟩, [1]⟩] }

theorem witness_COMMIT_POINT :
    staged.phase = .staged ∧ staged.pkt.clsOp ≠ 0x802 ∧ commitsByLenders staged = true ∧ lendersAcked staged = true ∧ staged.pkt.cls ≠ 9 ∧
    lendersAcked lent = false ∧ lendersAcked { lent with acked := [3] } = true ∧ fills.phase ≠ .staged ∧
    lkSetReady (lockState { onLock 0x802 9 with phase := .staged } 2 [1]) { onLock 0x802 9 with phase := .staged } = false ∧ commitsByLenders { staged with pkt := pktOf 0xF01 [] } = false := by decide

theorem test_commit_point : nextIs (exec (.commitPoint 1) (has staged)) (fun t => memRead t.mem 0x2000 4 == [1, 2, 3, 4] && (findCmd t 1).map Cmd.phase == some .committed) = true := by decide

def committed : Cmd := { ran 0x804 [] with phase := .committed }

theorem witness_PUBLICATION_COMPLETE :
    committed.phase = .committed ∧ replyHeld { has committed with rings := [(0, ringX)] } committed = false ∧
    replyHeld { has committed with dies := [(0, { Die.rest with up := true, paused := true })] } committed = true ∧ committed.pkt.clsOp ≠ 0xF18 ∧ committed.pkt.sigInc = 0 ∧
    committed.writes = [] ∧ committed.noReply = false ∧ (gaddrOf (getRing { has committed with rings := [(0, ringX)] } 0).reply).tier ≠ 5 := by decide

theorem test_publication : nextIs (exec (.publicationComplete 1) { has committed with rings := [(0, { ringX with inFlight := 1 })] }) (fun t => t.cmds == [] && (getRing t 0).rtail == 1 && (getRing t 0).inFlight == 0) = true := by
  decide

/-- Job 8 of a lower priority holds both clusters' engine that a command of job 7 waits for: one core is all that die 0 has. -/
def starves : State :=
  let low := { ran 0x201 [] with id := 2, pkt := { pktOf 0x201 [] with job := 8 } }
  let high := { ran 0x201 [] with phase := .placed }
  { live with
    cmds := [high, low]
    jobs := [{ jobSeven with priority := 0, clusters := 2 ^ 32 - 1 }, { jobSeven with id := 8, priority := 3, clusters := 2 ^ 32 - 1 }]
    ctxs := [⟨7, 0, [], []⟩, ⟨8, 0, [], []⟩]
    dies := [(0, { Die.rest with up := true, coreFence := 2 ^ 64 - 2 })] }

set_option maxRecDepth 8000 in
theorem witness_PREEMPTION :
    (starvedFirst starves 0).map Cmd.id = some 1 ∧ ((starvedFirst starves 0).bind (fun c => yielder starves 0 (prioOf starves c))).map Cmd.id = some 2 ∧
    (starvedFirst live 0).isNone = true ∧ resumesOn { live with ctxs := [⟨7, 0, [3], []⟩], jobs := [jobSeven] } 3 0 ⟨7, 0, [3], []⟩ = true := by decide

set_option maxRecDepth 8000 in
/-- R304: the context that yields is suspended on the die. -/
theorem test_preemption : nextIs (exec (.preemption 0) starves) (fun t => t.ctxs.map Ctx.suspOn == [[], [0]]) = true := by decide

theorem test_context_resume : nextIs (exec (.contextResume 3 0) { live with ctxs := [⟨7, 0, [3], []⟩], jobs := [jobSeven] }) (fun t => t.ctxs.map Ctx.suspOn == [[]]) = true := by decide

/-- CMD_ABORT of the command of job 7 with SEQ 6. -/
def aborts : Cmd := ran 0xF05 [6 + 7 * 2 ^ 32]
def aimed (x : List Cmd) : State := { has aborts with jobs := [jobSeven], cmds := aborts :: x }
def target (ph : Phase) : Cmd := { ran 0x804 [] with id := 2, phase := ph, pkt := { pktOf 0x804 [] with seq := 6 } }

theorem witness_CMD_ABORT :
    abortJob aborts = 7 ∧ findJob (aimed []) 7 = some jobSeven ∧ jobSeven.sess = aborts.sess ∧ findJob (has aborts) 7 = none ∧
    abortTarget (aimed [target .running]) aborts = some (target .running) ∧ abortTarget (aimed [target .committed]) aborts = some (target .committed) ∧
    ((aimed [target .running]).cmds.map Cmd.id).Nodup ∧ abortTarget (aimed []) aborts = none ∧ ringsHolding (aimed []) 2 7 6 = [] ∧
    (2, 7, 6) ∈ ({ aimed [] with ended := [(2, 7, 6)] } : State).ended ∧ (2, 7, 6) ∉ (aimed []).ended := by decide

set_option maxRecDepth 8000 in
/-- Ring 0 holds an entry of job 7 with SEQ 5. -/
theorem witness_ABORT_of_an_entry : ringsHolding { ringed (nopBytes 0x8040 2 0xFFFF) with cmds := [aborts] } 2 7 5 = [0] := by decide

theorem test_abort : nextIs (exec (.cmdAbort 1) (aimed [target .running])) (fun t => t.cmds.map Cmd.id == [1]) = true := by decide

-- collectives ---------------------------------------------------------------------------------------------------------------

/-- A collective of a group, of stream 4, round 0 and a deadline. -/
def coll (co : Nat) (ms : List Nat) (deadline : Nat) (sl : List Nat) : Cmd :=
  { ran co ([0x40, 0x60] ++ sl) with
    snapMem := memWrite (memWrite [] 0x400 (leBytes 8 deadline ++ leBytes 4 0 ++ leBytes 2 4)) 0x600 (leBytes 2 ms.length ++ zeros 6 ++ (ms.map (leBytes 2)).flatten) }

/-- The module, of peer id 0, with a collective running. -/
def gathered (c : Cmd) : State := { joined with cmds := [c] }

/-- A BARRIER, of whose group this module leads, or peer 3 does. -/
def barrierA : Cmd := coll 0x908 [0, 3] 50 []
def barrierB : Cmd := coll 0x908 [3, 0] 50 []

set_option maxRecDepth 8000 in
theorem witness_collective_facts :
    groupOf (asRead (gathered barrierA) barrierA) barrierA = [0, 3] ∧ collLive (gathered barrierA) barrierA = [0, 3] ∧ (collLive (gathered barrierB) barrierB).head? = some 3 ∧
    (descOf (gathered barrierA) barrierA).stream = 4 ∧ (descOf (gathered barrierA) barrierA).round = 0 ∧ (descOf (gathered barrierA) barrierA).deadline = 50 ∧
    linkFault (gathered barrierB) barrierB 3 = none ∧ linkFault { gathered barrierB with links := [] } barrierB 3 = some stDenied ∧ collSt barrierA = 0 ∧
    collCmd (gathered barrierA) 7 (collHash (gathered barrierA) barrierA) 4 0 = some barrierA := by decide

/-- The round that this module's own join makes, and that round once peer 3 has joined too. -/
def roundA (op : Nat) : Round := newRound 7 (collHash (gathered barrierA) barrierA) 4 0 op 0 false
def roundB (op : Nat) : Round := (newRound 7 (collHash (gathered barrierA) barrierA) 4 0 op 3 false).joinedBy 0 false

theorem witness_joins (op : Nat) :
    Joins (gathered barrierA) 7 (collHash (gathered barrierA) barrierA) 4 0 op 0 false (roundA op) ∧
    Joins { gathered barrierA with rounds := [newRound 7 (collHash (gathered barrierA) barrierA) 4 0 op 3 false] } 7 (collHash (gathered barrierA) barrierA) 4 0 op 0 false (roundB op) :=
  ⟨.inl ⟨rfl, rfl⟩, .inr ⟨newRound 7 (collHash (gathered barrierA) barrierA) 4 0 op 3 false, by simp [newRound], rfl, rfl, rfl, rfl⟩⟩

theorem witness_not_complete (op : Nat) : ¬ Complete (gathered barrierA) (roundA op) barrierA := by
  intro h
  have h3 := h.1 3 (by rw [witness_collective_facts.2.1]; decide)
  simp [roundA, newRound] at h3

theorem witness_complete (op : Nat) : Complete { gathered barrierA with rounds := [newRound 7 (collHash (gathered barrierA) barrierA) 4 0 op 3 false] } (roundB op) barrierA := by
  refine ⟨?_, ?_⟩
  · intro p hp
    have : p = 0 ∨ p = 3 := by
      have h : p ∈ collLive (gathered barrierA) barrierA := hp
      rw [witness_collective_facts.2.1] at h
      simpa using h
    rcases this with rfl | rfl <;> simp [roundB, newRound, Round.joinedBy, without]
  · intro x hx _ _ _ _ hr
    simp only [List.mem_singleton] at hx
    subst hx
    exact absurd rfl hr

/-- An ALL_REDUCE whose set is both members awaits the other's data, and holds it. -/
def reduceA : Cmd := { coll 0x901 [0, 3] 50 [0x100, 0x110] with shapes := [none, none, some one32, some one32], asked := [(0, 0, 0), (3, 0, 0)], aux := collAux 2 5 1 2 }
def reduceB : Cmd := { reduceA with remote := [⟨3, 5 * 256 + 1, zeros 4⟩] }

set_option maxRecDepth 8000 in
theorem witness_expects : expects (gathered reduceA) reduceA = [3] ∧ expects (gathered reduceB) reduceB = [3] ∧ collSt reduceA = 2 := by decide

theorem witness_awaiting : Awaiting (gathered reduceA) reduceA ∧ ¬ Awaiting (gathered reduceB) reduceB := by
  refine ⟨⟨3, by rw [witness_expects.1]; decide, by intro r hr; cases hr⟩, ?_⟩
  rintro ⟨p, hp, h⟩
  rw [witness_expects.2.1] at hp
  obtain rfl : p = 3 := by simpa using hp
  exact h _ (List.mem_singleton.mpr rfl) rfl

/-- A barrier awaits nothing: its set is its data. -/
def barrierC : Cmd := { barrierA with asked := [(0, 0, 0), (3, 0, 0)], aux := collAux 2 5 1 2 }

set_option maxRecDepth 8000 in
theorem witness_barrier_is_done :
    expects (gathered barrierC) barrierC = [] ∧ (collStaged (gathered barrierC) barrierC).wait = false ∧ (collStaged (gathered barrierC) barrierC).writes = [] ∧
    (collStaged (gathered barrierC) barrierC).status = stDone := by decide

/-- A staged PERMUTE, and with its T_flip; one that waits for COLL_SET. -/
def permuteA (aux : List Nat) : Cmd := { coll 0x907 [0, 3] 50 [0, 0, 0x80] with phase := .staged, asked := [(0, 0, 0), (3, 0, 0)], aux := aux }
def waits : Cmd := { barrierB with aux := collAux 1 0 0 0 }

set_option maxRecDepth 8000 in
theorem witness_messages_of_collectives :
    (collStaged (gathered { permuteA (collAux 2 5 1 2) with phase := .running }) { permuteA (collAux 2 5 1 2) with phase := .running }).wait = true ∧
    (permuteA (collAux 2 5 1 2 ++ [90])).aux.length = 6 ∧ (permuteA (collAux 2 5 1 2)).aux.length = 5 ∧ collSt waits = 1 ∧
    collCmd (gathered waits) 7 (collHash (gathered waits) waits) 4 0 = some waits ∧
    collCmd (gathered (permuteA (collAux 2 5 1 2))) 7 (collHash (gathered barrierA) barrierA) 4 0 = some (permuteA (collAux 2 5 1 2)) ∧
    cmdOfMsg (gathered (permuteA (collAux 2 5 1 2))) { msgOf mtStagedAck 7 7 with seq := 5, runs := 1 } (fun _ => true) = some (permuteA (collAux 2 5 1 2)) ∧
    setOf (permuteA (collAux 2 5 1 2)) = [0, 3] ∧ collCmd joined 7 0 4 0 = none ∧
    collCmd (gathered reduceA) 7 (collHash (gathered reduceA) reduceA) 4 0 = some reduceA := by decide

theorem witness_deadline (op : Nat) :
    leads (gathered barrierA) barrierA ∧ (0 : Nat) ∈ frozenSet (gathered barrierA) (roundA op) barrierA ∧ NoneWaits (gathered barrierA) 7 (collHash (gathered barrierA) barrierA) 4 0 := by
  refine ⟨?_, ?_, fun x hx => nomatch hx⟩
  · show (collLive (gathered barrierA) barrierA).head? = some 0
    rw [witness_collective_facts.2.1]
    rfl
  · show (0 : Nat) ∈ (groupOf (asRead (gathered barrierA) barrierA) barrierA).filter _
    rw [witness_collective_facts.1]
    simp [roundA, newRound]

-- lenders -----------------------------------------------------------------------------------------------------------------

/-- The module lends 64 MiB at 0x10000000 to peer 3 for job 7. -/
def lending : State := { joined with loans := [(0, loanA)] }
/-- A command of job 7 that has asked peer 3 for 4 bytes at 0x500. -/
def asks : Cmd := { copies with asked := [(3, 0x500, 4)] }
def m7 (typ : Nat) : MsgHdr := { msgOf typ 7 7 with seq := 5, runs := 1 }

theorem witness_LendersServeBorrowers :
    readKey lending (m7 mtReadReq) 0x10000000 8 true = some 65543 ∧ readKey lending (m7 mtReadReq) 0x14000000 8 true = none ∧ readKey lending (m7 mtReadReq) 0x13FFFFF8 8 true = some 65543 ∧
    poisonedIn lending 0x10000000 8 = none ∧ poisonedIn { lending with poison := [0x10000000] } 0x10000000 8 = some 0x10000000 ∧
    cmdOfMsg (gathered asks) (m7 mtReadResp) (fun c => c.asked.contains (3, 0x500, 4) && !(received c (3, 0x500, 4))) = some asks ∧
    cmdOfMsg (gathered asks) (m7 mtReadResp) (fun c => c.asked.any (fun a => a.1 == 3 && a.2.1 == 0x500 && !(received c a))) = some asks ∧
    cmdOfMsg joined (m7 mtReadResp) (fun c => c.asked.contains (3, 0x500, 4) && !(received c (3, 0x500, 4))) = none ∧
    cmdOfMsg (gathered asks) (m7 mtStagedAck) (fun _ => true) = some asks ∧ asks.pkt.clsOp ≠ 0x907 ∧ cmdOfMsg joined (m7 mtAuthNak) (fun _ => true) = none ∧
    (getLock { joined with locks := [(16383, { Lock.rest with job := 7 })] } 16383).job = (m7 mtLockSignal).job ∧ (getLock joined 16383).job ≠ (m7 mtLockSignal).job := by decide

theorem witness_lent_writes :
    LentTo lending (m7 mtWrite) 0x13FFFFFF 1 ∧ ¬ LentTo lending (m7 mtWrite) 0x14000000 1 ∧ HasRoom lending 0x10000000 4 ∧
    ¬ HasRoom { lending with cfg := { lending.cfg with hbmPound := 0 } } 0x10000000 4 := by
  refine ⟨⟨⟨(0, loanA), List.mem_singleton.mpr rfl, rfl, rfl, by decide⟩, by decide⟩, ?_, by unfold HasRoom; decide, by unfold HasRoom; decide⟩
  rintro ⟨⟨l, hl, -, -, h⟩, -⟩
  obtain rfl : l = (0, loanA) := by simpa [lending] using hl
  revert h
  decide

theorem witness_lender_messages (typ : Nat) (ht : typeOk typ 7 = true) : Arrives lending typ (m7 typ) :=
  ⟨rfl, by decide, ⟨rfl, ht⟩, .inr rfl, .inr rfl, ⟨rfl, by show ((7 : Nat) == 0 || lending.links.any (fun l => l.1.2 == 7)) = true; decide⟩,
    Option.isSome_iff_exists.mp (by
      show (windowOk (if typ = mtHello then LinkRx.rest else LinkRx.rest) 0 1).isSome = true
      rw [ite_self]
      decide)⟩

/-- R286: a signal of another module raises COUNT. -/
theorem test_lock_signal : nextIs (exec (.lockSignal (m7 mtLockSignal) 16383 9) { joined with locks := [(16383, { Lock.rest with job := 7 })] }) (fun t => (getLock t 16383).count == 9) = true := by
  decide

-- watches and service commands ----------------------------------------------------------------------------------------------

/-- TWATCH_SETUP of a block at 0x400 whose target has 64 entries at 0x100000. -/
def watches (co : Nat) : Cmd := { ran co [0x40] with snapMem := memWrite [] 0x400 ([0, 0] ++ leBytes 2 0 ++ leBytes 2 5 ++ leBytes 2 0xFFFF ++ leBytes 2 2 ++ [4] ++ zeros 5 ++ leBytes 8 0x100000 ++ leBytes 4 64) }
def twatchA : TWatch := twatchOf 7 0x400 (watchBytes (linked (watches 0xA08)) (watches 0xA08))

set_option maxRecDepth 8000 in
theorem witness_TWATCH :
    twatchRefusal (linked (watches 0xA08)) (watches 0xA08) (watchBytes (linked (watches 0xA08)) (watches 0xA08)) = none ∧
    (twatchRefusal (linked (ran 0xA08 [0x40])) (ran 0xA08 [0x40]) (watchBytes (linked (ran 0xA08 [0x40])) (ran 0xA08 [0x40]))).isSome = true ∧
    (twatchA.job = 7 ∧ twatchA.block = watchBlock live (watches 0xA09)) ∧ (linked (watches 0xA09)).twatch = [] := by decide

/-- ATTEST whose report goes to 0x40000, and CHECKPOINT of one shard, before and after its copies. -/
def attests : Cmd := ran 0xF20 [0x4000, 0x80]
def ckpt (aux : List Nat) : Cmd := { ran 0xF19 [0x40] with aux := aux, snapMem := memWrite [] 0x400 ([1, 0, 1] ++ zeros 61 ++ leBytes 8 0x400 ++ leBytes 8 (5 * 2 ^ 61 + 0x100) ++ leBytes 8 0x1000) }
def copyCmd : Cmd := { ran 0xF19 [0x40] with id := 2, origin := .shardCopy 1 0, phase := .waiting }
def checkpointing : State := { has (ckpt [1, 3, 0, 0]) with cmds := [ckpt [1, 3, 0, 0], copyCmd], shards := [(0x400, shardA)], jobs := [jobSeven] }

set_option maxRecDepth 16000 in
theorem witness_CHECKPOINT :
    (ckHeader (has (ckpt [])) (ckpt [])).count = 1 ∧ (ckHeader (has (ckpt [])) (ckpt [])).all = true ∧ (ckHeader (has (ckpt [])) (ckpt [])).restore = false ∧
    (ckpt []).aux = [] ∧ (ckpt [1, 3, 0, 0]).aux ≠ [] ∧ copyOf 1 copyCmd = true ∧ copyOf 1 (ckpt []) = false ∧
    findCmd checkpointing 2 = some copyCmd ∧ copyCmd.pins = [] ∧ cmdPeers copyCmd = [] ∧ copyCmd.pkt.opcode = 0xF190 ∧ findCmd checkpointing 1 = some (ckpt [1, 3, 0, 0]) ∧
    tfind checkpointing.shards (shardAddr checkpointing copyCmd.pkt) = some shardA ∧ shardBusy checkpointing 2 0x400 = false ∧
    (ckImage (ckEntry checkpointing (ckpt [1, 3, 0, 0]) 0)).tier = 5 ∧ imageLen false shardA ≤ ckSize (ckEntry checkpointing (ckpt [1, 3, 0, 0]) 0) ∧
    256 * ceilDiv (imageLen false shardA) 256 ≤ hbmPoundBytes checkpointing ∧ (∀ q ∈ imagePlanes shardA, poisonedIn checkpointing (lofs checkpointing q.1) q.2.1 = none) ∧
    freeMove checkpointing (dieOfAddr 0x400) = some 0 ∧ 256 * ceilDiv (imageLen false shardA) 256 ≤ poundFree checkpointing (dieOfAddr 0x400) true := by decide

theorem witness_ATTEST (bs : List Byte) : ∀ w ∈ placeWrites (has attests) attests [⟨descAddr (attests.pkt.slot 0), bs⟩], w.tgt.tier ≠ 4 := by
  intro w hw
  have : w.tgt = ⟨0, 0, 0x40000⟩ := by
    simp only [placeWrites, List.map_cons, List.map_nil, List.mem_singleton] at hw
    subst hw
    rfl
  rw [this]
  decide

theorem witness_FW_UPDATE : objAccepted (has (ran 0xF18 [])) firmware = true ∧ objAccepted (has (ran 0xF18 [])) { firmware with slhOk := false } = false ∧
    fwLive (ran 0xF18 [0, 1]).pkt = true ∧ fwLive (ran 0xF18 [0, 0]).pkt = false ∧ ({ firmware with kind := 1 } : SignedObj).level = (has (ran 0xF18 [])).trust.imgLevel := by
  refine ⟨?_, ?_, by decide, by decide, rfl⟩ <;> simp [objAccepted, signerAllowed, firmware, has, live, State.reset, Trust.rest]

/-- DUMP_BUFFER of 4 GiB of a module-written buffer, with COPY and RELEASE. -/
def dumps (imm : Nat) : Cmd := ran 0xF1C [0x100000 + 5 * 2 ^ 61, imm]
def buffered : State := { has (dumps 3) with bufs := [{ bufA with base := 0x1000000, pages := 0x100000, modWr := true }] }

theorem witness_DUMP_BUFFER :
    dumpRefusal buffered (dumps 3) = none ∧ (dumpRefusal (has (dumps 3)) (dumps 3)).isSome = true ∧ bit ((dumps 3).pkt.slot 1) 0 = true ∧ bit ((dumps 3).pkt.slot 1) 1 = true ∧
    bit ((dumps 0).pkt.slot 1) 0 = false ∧ { Dump.rest with parts := 1 }.parts ≠ 0 := by decide

-- registers -----------------------------------------------------------------------------------------------------------------

/-- Ring 0 bound to session 2, set up or not. -/
def ringState (x : Ring) : State := { live with rings := [(0, x)], sessions := [(2, { Session.rest with st := .opened })] }

/-- Is the use of an area one that needs nothing? -/
def isUsable (u : AreaUse) : Bool := match u with | .usable => true | _ => false

theorem witness_ring_registers :
    ringWritable (ringState ringX) (.sessionPage 2) 0 = true ∧ ringWritable (ringState ringX) (.hamir 0) 0 = true ∧ ringWritable (ringState ringX) (.sessionPage 3) 0 = false ∧
    ringWritable (ringState ringX) .privMap 0 = false ∧ ringX.enable = true ∧ { ringX with enable := false }.enable = false ∧ bit 0x106 8 = true ∧ bit 6 8 = false ∧
    (6 ≤ fld 0x106 0 5 ∧ fld 0x110 0 5 ≤ 16 ∧ ringX.bind < 64) ∧ (fld 0x105 0 5 < 6 ∧ 16 < fld 0x111 0 5) ∧ 2 ^ ringX.log2 < (65 + 2 ^ 32 - ringX.head) % 2 ^ 32 ∧
    (64 + 2 ^ 32 - ringX.head) % 2 ^ 32 ≤ 2 ^ ringX.log2 ∧
    (∀ a ∈ ringAreas (setRing (ringState ringX) 0 { ringX with log2 := 6, replyIrq := false }) 0, isUsable (areaUse (ringState ringX) 0 a) = true) := by decide

/-- Is an access of its register's own width? -/
def exactly (h : RegHit) (v : Nat) : Bool := match h with | .exact x => x == v | _ => false

theorem witness_page_registers :
    Paged (ringState ringX) ∧ exactly (regHit (pageVal (ringState ringX) 2) 0 8) 0x10000 = true ∧ exactly (regHit (pageVal (ringState ringX) 2) 0x20 4) 0 = true ∧
    exactly (regHit (pageVal (ringState ringX) 2) 0x28 4) 0 = true ∧ exactly (regHit (pageVal (ringState ringX) 2) 0x2010 4) 1 = true ∧
    (∀ v, exactly (regHit (pageVal (ringState ringX) 2) 0 4) v = false) ∧ (∀ v, exactly (regHit (pageVal (ringState ringX) 3) 0 8) v = false) :=
  ⟨by unfold Paged; decide, by decide, by decide, by decide, by decide, fun _ => rfl, fun _ => rfl⟩

theorem witness_map_registers :
    Reaches { live with cxl := { Cxl.rest with privBy := some 2 } } .privMap ∧ Reaches live (.hamir 7) ∧ mapWindow 0x70000430 = some (7, 0x430) ∧ mapWindow 0x80000810 = some (8, 0x810) ∧
    blockOpen live 7 0x430 = true ∧ blockOpen live 8 0x810 = true ∧ (∀ v, exactly (regHit (regVal live 7) 0x432 4) v = false) ∧ hiddenRing { live with cxl := { Cxl.rest with privBy := some 2 } } .privMap 7 0x432 4 = false ∧
    mapWindow 0x80000A00 = some (8, 0xA00) ∧ (1 ≤ fld 0x01A81803 8 8 ∧ fld 0x01A81803 8 8 ≤ 24 ∧ fld 0x01A81803 16 8 = 168) :=
  ⟨.inl ⟨rfl, rfl, rfl⟩, .inr ⟨7, rfl, rfl⟩, by decide, by decide, by decide, by decide, fun _ => rfl, by decide, by decide, by decide⟩

/-- R266: a write of RING_BASE by its own width reaches the ring; the tail one past a full ring disables it. -/
theorem test_ring_base : nextIs (exec (.registerWrite (.sessionPage 2) 0 8 0x40000) (ringState { ringX with enable := false })) (fun t => (getRing t 0).base == 0x40000) = true := by decide
theorem test_ring_tail_fault : nextIs (exec (.ringTail (.sessionPage 2) 0 65) (ringState ringX)) (fun t => (getRing t 0).fault == 2 && !(getRing t 0).enable) = true := by decide

def meas (mV cA avg : Nat) (bad : Bool) : InputMeas := { mV := mV, cA := cA, avg100us := 0, avg1ms := 0, avg10ms := avg, avg1s := 0, bandNs := 0, overNs := 0, regFault := bad }

/-- The boundary values of the input's bands and of the temperatures. -/
theorem witness_power_samples :
    (live.power.off = false ∧ live.power.phase ≠ 0xF ∧ live.power.autoPower = false ∧ live.power.autoTherm = false ∧ bit live.power.ctrl 0 = true ∧ bit live.power.ctrl 1 = true) ∧
    (38000 ≤ (meas 38000 25000 6400 false).mV ∧ (meas 54000 25000 6400 false).mV ≤ 54000 ∧ (meas 38000 25000 6400 false).avg10ms ≤ 6400) ∧
    ((meas 32999 0 0 false).mV < 33000 ∧ 58000 < (meas 58001 0 0 false).mV ∧ 25000 < (meas 48000 25001 0 false).cA) ∧ (meas 33000 0 0 true).regFault = true ∧
    (36000 ≤ (meas 36000 0 6401 false).mV ∧ 6400 < (meas 36000 0 6401 false).avg10ms) ∧
    ((949 : Int) < 950 ∧ (899 : Int) < 900 ∧ (1100 : Int) ≤ 1100 ∧ (1000 : Int) ≤ 1000 ∧ (950 : Int) < 1100 ∧ (900 : Int) < 1000) ∧
    { live.power with autoTherm := true }.autoTherm = true ∧ 0xF0 + 16 ≤ 0x100 := by decide

theorem test_overcurrent : nextIs (exec (.inputSample (meas 48000 25001 0 false)) live) (fun t => t.power.off) = true := by decide
theorem test_thermal_hold : nextIs (exec (.temperatureSample 0 false 950 0) live) (fun t => t.power.autoTherm && fld t.power.holdCnt 16 16 == 1) = true := by decide
theorem test_thermal_trip : nextIs (exec (.temperatureSample 0 false 1100 0) live) (fun t => t.power.phase == 0xF && t.power.fatal == 5) = true := by decide
theorem test_i3c_address : nextIs (exec (.dynamicAddressAssignment 9) live) (fun t => t.power.i3cAddr == some 9) = true := by decide

-- further cases of the statements -------------------------------------------------------------------------------------------

def standing (en : Bool) : State := { offState with power := { offState.power with phase := 9, pwrEn := en, ramping := false, stayed := true, inRange := true } }

theorem witness_standby :
    ((standing true).power.off = true ∧ (standing true).power.phase = 9 ∧ (standing true).power.pwrEn = true) ∧ (standing false).power.pwrEn = false ∧ offState.power.phase ≠ 9 ∧
    ({ live with power := { live.power with resetN := false } } : State).power.off = false ∧ ((standing true).power.stayed = true ∧ offState.power.stayed = false) := by decide

/-- R519: the reset request has a module in STANDBY ramp again. -/
theorem test_reset_leaves_standby : nextIs (exec .moduleReset (standing true)) (fun t => t.power.ramping && !t.power.stayed) = true := by decide

/-- R507, R509: the input is measured in STANDBY too. R515: the straps are sampled as MOD_RESET_N rises there. -/
theorem test_standby_measures : nextIs (exec (.inputSample (meas 48000 0 0 false)) (standing true)) (fun t => t.power.volt == 48000 && t.power.off) = true := by decide
theorem test_standby_pin :
    nextIs (exec (.modResetN false) (standing true)) (fun t => t.power.ramping && !t.power.resetN && t.power.off) = true ∧
    nextIs (exec (.modResetN true) { standing true with power := { (standing true).power with resetN := false, keeperNow := true } })
      (fun t => t.power.keeperStrap && t.power.resetN && !t.power.ramping) = true := by decide

/-- R503: each edge of MOD_RESET_N is a reset. -/
theorem test_reset_edge : nextIs (exec (.modResetN false) live) (fun t => t.power.phase == 0 && !t.power.resetN && t.power.cfgDone == false) = true := by decide

theorem witness_flight_room : flBasin flightA ≤ flightA.basinSize ∧ (∀ e ∈ flightA.entries.tail.head?, e.spilled = false) := by decide

/-- A refresh of the set at 0x400 is under way, or none. -/
theorem witness_FSET_INIT_waits :
    rootsBusy { has (ran 0x301 [0x40]) with cmds := [ran 0x301 [0x40], { roots 0x401 with id := 2, origin := .refresh 0x400 0 0 }] } 0x400 fsetA (rootOuts live) = true ∧
    rootsBusy (has (ran 0x301 [0x40])) 0x400 fsetA (rootOuts (has (ran 0x301 [0x40]))) = false ∧
    (∃ b ∈ fsetBlocks fsetA, ofBlock fsetA b 0x1400) ∧ ¬ ∃ b ∈ fsetBlocks fsetA, ofBlock fsetA b 0x2000 := by
  unfold ofBlock
  decide

/-- A root and a solve command whose engine's scratch failed, or that reads a poisoned unit, and those that read what is good. -/
theorem witness_clean :
    Clean (has (roots 0x401)) (roots 0x401) (rootToRead maxProblems (has (roots 0x401)) (roots 0x401)) ∧
    Clean (has (roots 0x501)) (roots 0x501) (solveToRead maxProblems (has (roots 0x501)) (roots 0x501)) ∧ { roots 0x401 with scratchUe := true }.scratchUe = true ∧
    (poisonAmong { has (roots 0x401) with poison := [0x1000] } (roots 0x401) (rootToRead maxProblems (has (roots 0x401)) (roots 0x401))).isSome = true ∧
    reached (roots 0x401) 0 < 1 ∧ ¬ reached (roots 0x401) 1 < 1 := by
  unfold Clean
  decide

/-- An update that can and one that cannot be made from its set's roots; with the operation's own count where DIV is 0; and its outputs. -/
def setUpd (fall : Bool) : Cmd := { updates 0x603 0x3F800000 1 with fset := some fsetA, fall := fall }

set_option maxRecDepth 8000 in
theorem witness_update_roots :
    updFset (sharded (setUpd false)) (setUpd false) shardA = some fsetA ∧ (badRoot (sharded (setUpd false)) (setUpd false) fsetA).isSome = true ∧
    tfind (sharded (setUpd false)).shards (shardAddr (sharded (setUpd false)) (setUpd false).pkt) = some shardA ∧ (setUpd true).fall = true ∧ (setUpd false).fall = false := by decide

set_option maxRecDepth 8000 in
theorem witness_updates_are_near : ∃ r, updRun 1 (sharded (updates 0x601 0x3F800000 1)) (updates 0x601 0x3F800000 1) = .done r ∧ Near r :=
  near_done _ (by decide)

/-- A seventeenth table of the module. -/
def scheds (n : Nat) : State := { has (ran 0x609 [0x40, 0x60]) with scheds := (List.range n).map (fun i => ⟨8, i, []⟩) }

theorem witness_SCHED_LOAD : schedFull (scheds 16) 7 0 = true ∧ schedFull (scheds 15) 7 0 = false ∧ schedFull (scheds 16) 8 3 = false := by decide

/-- The first of the writes of another module that waits for room. -/
theorem witness_waiting_write :
    HasRoom { live with remoteSt := [⟨3, 7, 1, 0, 0x10000000, [1], 0, true⟩, ⟨3, 7, 2, 0, 0x10000010, [1], 0, false⟩], poundQ := [] } 0x10000010 1 ∧ live.power.phase ≠ 0xF := by
  unfold HasRoom
  decide

/-- A pool of 64 KiB in the basin of die 0, and an object of 256 bytes, whose structures lie at 0x400. -/
def poolBytes (n : Nat) : List Byte := leBytes 8 (2 ^ 61 + basinBase) ++ leBytes 8 n ++ zeros 48
def objBytes (size : Nat) : List Byte := leBytes 8 0x100000 ++ leBytes 8 size ++ leBytes 8 0x3000 ++ zeros 40
def activates (co : Nat) (bs : List Byte) : Cmd := { ran co [0x40] with snapMem := memWrite [] 0x400 bs }

set_option maxRecDepth 8000 in
theorem witness_pools_and_objects :
    poolInitBad (has (activates 0x720 (poolBytes 65536))) (activates 0x720 (poolBytes 65536)) (poolBytes 65536) = none ∧
    poolInitBad (has (activates 0x720 (poolBytes 1))) (activates 0x720 (poolBytes 1)) (poolBytes 1) = some (stBad, badAt 0xFF 0) ∧
    resCreateBad (holding (activates 0x721 (objBytes 256)) (objA noCopy noCopy)) (activates 0x721 (objBytes 256)) (objBytes 256) = some (stBad, badAt 0xFF 0) ∧
    NoHolds live (activates 0x721 (objBytes 256)) := by
  unfold NoHolds
  decide

set_option maxRecDepth 8000 in
theorem witness_RES_CREATE :
    resCreateBad { holding (activates 0x721 (objBytes 256)) (objA noCopy noCopy) with objs := [] } (activates 0x721 (objBytes 256)) (objBytes 256) = none := by decide

/-- A dirty copy that may leave, one that cannot, one whose write-back is staged, and one that is promoting with its bytes there. -/
def dirtyCopy : Copy := { copyIn 2 0 with dirty := true }
def leavingCopy : Copy := { copyIn 3 0 with dirty := true, wb := some ⟨9, true, 0⟩ }

theorem witness_evictions :
    (objA dirtyCopy noCopy).rests 1 ∧ wbStop (holding (onCopy 0x723) (objA dirtyCopy noCopy)) (objA dirtyCopy noCopy) 1 = none ∧
    wbStop { holding (onCopy 0x723) (objA dirtyCopy noCopy) with poison := [basinBase] } (objA dirtyCopy noCopy) 1 = some stEcc ∧
    (wbPeer (objA leavingCopy noCopy) 1 = none ∧ wbStop (holding (onCopy 0x723) (objA leavingCopy noCopy)) (objA leavingCopy noCopy) 1 = none) ∧
    ((objA leavingCopy noCopy).copy 1).wb = some ⟨9, true, 0⟩ ∧ ((objA leavingCopy noCopy).removed 1).t2.pending = false ∧ noCopy.spare ∧ (copyIn 2 0).spare := by
  unfold ResObj.rests Copy.spare
  decide

/-- R219: a dirty copy stays while its write-back runs. -/
theorem test_evict_dirty : nextIs (exec (.resEvict 1) (holding (onCopy 0x723) (objA dirtyCopy noCopy))) (fun t => (findObj t 0x400).map (fun o => o.t1.state) == some 3) = true := by decide

def promotes : Cmd := { onCopy 0x722 with aux := [0x400, 1, 9] }
def isBytes (f : Fetched) : Bool := match f with | .bytes _ => true | _ => false

set_option maxRecDepth 8000 in
theorem witness_RES_PROMOTE :
    isBytes (fetchObj (holding promotes (objA (copyIn 1 0) noCopy)) promotes (objA (copyIn 1 0) noCopy) 1) = true ∧ (copyIn 1 0).at_ ≠ noPlace ∧ (copyIn 1 0).held = false ∧
    (copyIn 2 0).held = true ∧ promotes.writes = [] ∧ promotes.outs = [] := by decide

theorem witness_PF_START_refused :
    pfStartBad (holding (ran 0x728 [0x80]) (objA noCopy noCopy)) (ran 0x728 [0x80]) none = some (stBad, badAt 0xFF 0) ∧
    pfStartBad { holding pfStarts (objA noCopy noCopy) with pfs := [(pfAddr live pfStarts.pkt, { schedP with job := 8 })] } pfStarts (some schedP) = some (stDenied, 0) ∧
    pfStartBad (holding pfStarts (objA noCopy noCopy)) pfStarts (some schedP) = none := by decide

/-- The pound has room for a promotion, or too little for any, or is full. -/
theorem witness_promotion_room :
    let s := pfState schedP (objA noCopy noCopy) pfStarts
    resvTooBig s (promoNeed s (objA noCopy noCopy) 1) = false ∧ resvLacks s (promoNeed s (objA noCopy noCopy) 1) = false ∧
    resvLacks { s with cfg := { s.cfg with basinPound := 0 } } (promoNeed s (objA noCopy noCopy) 1) = true ∧ (∀ z ∈ s.cmds, z.id ≠ s.nextId) ∧
    promoHeld { s with jobs := [{ jobSeven with st := .suspended false }] } 0x800 = true ∧ (objA noCopy noCopy).t1.state = 0 := by decide

/-- A lock of another module is named through the table at 0x3000, whose first entry names peer 3 and whose second names lock 3 here. -/
def farLocks (c : Cmd) (linked : Bool) : State :=
  { lockState c 0 [] with jobs := [{ jobSeven with lockTab := 0x3000 }], links := if linked then [((2, 7), zeros 32)] else [], mem := memWrite [] 0x3000 (leBytes 4 3 ++ leBytes 4 (3 * 2 ^ 16)) }
def onFarLock (n : Nat) : Cmd := ran 0x801 [0x4000 + n + 9 * 2 ^ 32]

/-- Where a signal goes, as data. -/
def goesTo (x : SigTo) : Option (Nat × Nat) := match x with | .there p l => some (p, l) | _ => none

set_option maxRecDepth 4000 in
theorem witness_far_locks :
    goesTo (signalTo (farLocks (onFarLock 0) true) 2 7 0x4000) = some (3, 0) ∧ hasLink (farLocks (onFarLock 0) true) 2 7 = true ∧ hasLink (farLocks (onFarLock 0) false) 2 7 = false ∧
    lockHere (farLocks (onFarLock 1) true) (onFarLock 1) 0x4001 = some 3 ∧ (getLock (farLocks (onFarLock 1) true) 3).job = 7 ∧ lkTarget (onFarLock 1) = 0x4001 := by decide

/-- The answer of an outcome of `jobOf` that refuses. -/
def jobRefused (x : Except (Nat × Nat) Job) : Option (Nat × Nat) := match x with | .ok _ => none | .error e => some e

theorem witness_jobs_refused :
    jobRefused (jobOf (asRead (has (ran 0xF01 [0x40])) (ran 0xF01 [0x40])) (ran 0xF01 [0x40]) (rdStruct (asRead (has (ran 0xF01 [0x40])) (ran 0xF01 [0x40])) (ran 0xF01 [0x40]) (descAddr ((ran 0xF01 [0x40]).pkt.slot 0)) 256)) =
      some (stBad, badAt 0xFF 0) ∧ { jobSeven with st := .ending }.st = .ending := by decide

theorem witness_grants_refused :
    grantDenied (has (grants 0xF06)) (grants 0xF06) = true ∧ loanCuts { linked lends with loans := [(0, loanA)] } 0x10000000 0x4000000 = true ∧ hasLink (has lends) 2 7 = false ∧
    (getLock { linked (grants 0xF07) with locks := [(16, { Lock.rest with job := 7, queue := [4] })] } 16).queue ≠ [] ∧
    (bufFault { linked (regs 0xF0A) with bufs := [bufA] } 2 0x10000 1 false).isSome = true := by decide

def pins : BoardPins := { perst := true, scl := true, sda := true, refclk := false, refTp := false, towRx := 5, cxlRx := 9 }

/-- R523: a scan shifts out what the board's pins hold. -/
theorem test_boundary : nextIs (exec .samplePreload { live with power := { live.power with pins := pins } })
    (fun t => t.tap.ir == 1 && t.answers.any (fun a => match a with | .boundary b => b.board == pins | _ => false)) = true := by decide

theorem witness_linked_ports : portLinked { Port.rest with state := 4 } = true ∧ portLinked { Port.rest with state := 1 } = false := by decide

theorem witness_RING_UNBIND :
    unbindBusy mailed = false ∧ unbindBusy { mailed with rings := [(9, { Ring.rest with unbinding := true, bind := 2 })] } = true ∧
    (mail mailed 0xC011 2 (leBytes 2 127 ++ leBytes 2 0)).length = 36 :=
  ⟨by decide, by decide, mail_length _ _ _ _⟩

/-- R17: the rings of dies have 8 ports each side of a wharf die, and 8 between neighbours. -/
theorem witness_d2d : d2dPort 0 7 = true ∧ d2dPort 3 8 = true ∧ d2dPort 0 4 = false ∧ d2dPort 8 9 = false := by decide

/-- A die with a full list of retired granules. -/
theorem witness_startup_holds :
    stepOneHeld State.reset = false ∧ stepOneHeld { State.reset with power := { Power.rest with awaitEn := true } } = true ∧ recordA.poundsOk = true ∧
    { recordA with hbmPound := 33 }.poundsOk = false ∧ (∀ d, d < 8 → (getMemRegs State.reset d).retired.length < 4096) := by decide

theorem witness_full_list (s : State) : 4096 ≤ (getMemRegs { s with memRegs := [(3, { MemRegs.rest with retired := List.replicate 4096 0 })] } 3).retired.length := by
  have : (getMemRegs { s with memRegs := [(3, { MemRegs.rest with retired := List.replicate 4096 0 })] } 3).retired = List.replicate 4096 0 := rfl
  rw [this, List.length_replicate]

/-- R322, R475: a port's test returns it on the lanes that trained. -/
theorem test_port_lanes : nextIs (exec (.testResult (.port 0) ⟨false, 3⟩) { testing (.port 0) 4 with ports := [(0, { Port.rest with ctrl := 3 })] }) (fun t => (getPort t 0).state == 3) = true := by decide

/-- A die fenced by a DIE_FENCE, with a command committed on it, and with none. -/
theorem witness_fence_waits :
    publishing { fencedThree with cmds := [{ fences 0 with aux := [1] }, { ran 0x804 [] with id := 2, phase := .committed, place := some ⟨3, 0, 2⟩ }] } 3 = true ∧
    publishing { fencedThree with cmds := [{ fences 0 with aux := [1] }] } 3 = false ∧ fenceRefused fencedThree 3 = true ∧ unfenceRefused live 3 = true ∧
    (getDie fencedThree 3).fenced = true := by decide

-- the path, collectives, lenders, services and registers ----------------------------------------------------------------------

theorem witness_commit_without_effect : ∀ a d, commitEff { staged with pkt := pktOf 0x804 [] } a d = a := fun _ _ => rfl

theorem witness_publication_sends_nothing : committed.toSend = [] ∧ committed.writes = [] ∧ (∃ r, committed.origin = .ring r) ∧ (getRing live 0).unbinding = false := ⟨rfl, rfl, ⟨0, rfl⟩, rfl⟩

theorem witness_flip : (permuteA (collAux 2 5 1 2 ++ [90])).aux.getD 5 0 = 90 ∧ (∃ k, (permuteA []).origin = .ring k) ∧ atOwner barrierA = false := ⟨rfl, ⟨0, rfl⟩, rfl⟩

/-- A member whose hash differs ends its round; one that the leader expelled. -/
theorem witness_collective_rounds (op : Nat) :
    ((newRound 7 0 4 0 op 3 false).group ≠ 1 ∧ (newRound 7 0 4 0 op 3 false).frozen = none) ∧ ({ newRound 7 0 4 0 op 3 false with frozen := some [3] } : Round).frozen.isSome = true := by
  exact ⟨⟨by simp [newRound], rfl⟩, rfl⟩

theorem witness_uncaptured : Uncaptured live ∧ ¬ Uncaptured traced := by
  refine ⟨fun d => .inl rfl, fun h => ?_⟩
  have h0 := h 0
  revert h0
  decide

/-- The write-back of a copy of an object of peer 3 awaits two acknowledgements. -/
def farObj (acks : Nat) : ResObj := { objA { copyIn 3 0 with dirty := true, wb := some ⟨5, true, acks⟩ } noCopy with home := ⟨4, 3, 0x100000⟩, size := 65536 }
def farHeld (acks : Nat) : State := { joined with objs := [(0x400, farObj acks)], pools := [(0x3000, ⟨7, basinBase, 0x10000⟩)] }

theorem witness_wb : WbOf (farHeld 0) (m7 mtStagedAck) 0x400 (farObj 0) 1 ⟨5, true, 0⟩ ∧ cmdOfMsg (farHeld 0) (m7 mtStagedAck) (fun _ => true) = none ∧
    (wbPeer (farObj 0) 1).isSome = true ∧ wbStop (farHeld 0) (farObj 0) 1 = none ∧ (farObj 0).zip = false := by
  unfold WbOf
  decide

theorem witness_wb_pieces (s : State) : 1 < (cutFar (wbWrites s (farObj 0) 1)).length := by
  have h : (copyBytes s (farObj 0) 1).length = 65536 := memRead_length _ _ _
  have hw : wbWrites s (farObj 0) 1 = [⟨⟨4, 3, 0x100000⟩, copyBytes s (farObj 0) 1⟩] := rfl
  rw [hw]
  simp [cutFar, h, farChunk, ceilDiv]

/-- The copy's image is too small; the regions of a shard lie on one die. -/
theorem witness_copies :
    (∀ r ∈ shardRegions shardA, regionBad checkpointing (dieOfAddr 0x400) r = false) ∧ imageLen true shardA < imageLen true shardA + 1 ∧ shardA.image ≠ some (5, 0) ∧
    (∀ q ∈ imagePlanes shardA, poisonedIn checkpointing (regionAt checkpointing q.1 q.2.1).off q.2.1 = none) ∧ NoHolds live (watches 0xA08) := by
  unfold NoHolds
  decide

theorem witness_accesses :
    mirrorSplit 0x38000 4 = false ∧ mirrorSplit 0x38002 4 = true ∧ mirrorSplit 0x38000 8 = true ∧ mirrorSplit 0x38004 4 = false ∧ untabled 8 0x3000000 = true ∧ untabled 9 0x3000000 = false ∧
    untabled 0 0x1000000 = true ∧ untabled 0 0x430 = false ∧ mapWindow 0x83000000 = some (8, 0x3000000) ∧ (blockOpen live 8 0x3000000 = true) := by decide

/-- A FWD whose first shape lies on a poisoned unit of the job's shape table. -/
def shaped : State :=
  let s := ringed (leBytes 2 0x1010 ++ leBytes 2 7 ++ zeros 4 ++ leBytes 4 5 ++ leBytes 2 2 ++ leBytes 2 0xFFFF ++ zeros 4 ++ leBytes 2 0xFFFF ++ zeros 2 ++
    leBytes 8 (0x100 + 2 ^ 38) ++ leBytes 8 (0x110 + 2 ^ 38) ++ leBytes 8 (0x120 + 2 ^ 38) ++ zeros 16)
  { s with poison := [0x8020], jobs := [{ jobSeven with epoch := 2, shapeTab := 0x8000 }] }

set_option maxRecDepth 8000 in
theorem witness_poisoned_shape : packetIs (ringEntryOf shaped 0 0) (fun bs => !decide (cleanShapes shaped 0 (packetOf bs))) = true := by decide

end Sys2Proof.Tests
end

section
/-! The organisation of the module: its memories at power good and after every step (R26, R238, R504). -/

namespace Sys2Proof.Machine

/-- A byte map with no entry is canonical. -/
theorem memory_wf_nil : Memory.wf [] = true := rfl

/-- What keeps both memories canonical takes a sound state to a sound state. -/
theorem Keeps.sound {s t : State} (h : Keeps s t) (hs : Sound s) : Sound t := by
  obtain ⟨hmem, hhost⟩ := hs
  exact ⟨h.mem hmem, h.host hhost⟩

theorem step_of_idle {s : State} (h : s.pending = []) : step s = .next (idleStep s) := by
  simp [step, h]

theorem step_of_front {s : State} {c : Instr} {rest : List Instr} (h : s.pending = c :: rest) :
    step s = exec c { s with pending := rest } := by
  simp [step, h]

/-- The dispatch gathered from the one lemma of each command: whatever command runs, both memories stay canonical, the queue is
left alone and no identity is taken back. -/
theorem exec_keeps {s : State} (i : Instr) (x : State) (h : Keeps s x) : KeepsO s (exec i x) := by
  cases i with
  | fwd c => exact execFwd_keeps c x h
  | dgrad c => exact execDgrad_keeps c x h
  | wgrad c => exact execWgrad_keeps c x h
  | wgradRowmask c => exact execWgradRowmask_keeps c x h
  | wgradBlkmask c => exact execWgradBlkmask_keeps c x h
  | cov c => exact execCov_keeps c x h
  | flightPush c => exact execFlightPush_keeps c x h
  | flightPop c => exact execFlightPop_keeps c x h
  | flightInit c => exact execFlightInit_keeps c x h
  | add c => exact execAdd_keeps c x h
  | sub c => exact execSub_keeps c x h
  | mul c => exact execMul_keeps c x h
  | div c => exact execDiv_keeps c x h
  | fma c => exact execFma_keeps c x h
  | max c => exact execMax_keeps c x h
  | min c => exact execMin_keeps c x h
  | abs c => exact execAbs_keeps c x h
  | sqrt c => exact execSqrt_keeps c x h
  | rsqrt c => exact execRsqrt_keeps c x h
  | recip c => exact execRecip_keeps c x h
  | exp c => exact execExp_keeps c x h
  | exp2 c => exact execExp2_keeps c x h
  | log c => exact execLog_keeps c x h
  | log2 c => exact execLog2_keeps c x h
  | tanh c => exact execTanh_keeps c x h
  | sigmoid c => exact execSigmoid_keeps c x h
  | erf c => exact execErf_keeps c x h
  | convert c => exact execConvert_keeps c x h
  | resAdd c => exact execResAdd_keeps c x h
  | sumRows c => exact execSumRows_keeps c x h
  | maxRows c => exact execMaxRows_keeps c x h
  | minRows c => exact execMinRows_keeps c x h
  | dotRows c => exact execDotRows_keeps c x h
  | norm2Rows c => exact execNorm2Rows_keeps c x h
  | softmaxRows c => exact execSoftmaxRows_keeps c x h
  | fsetInit c => exact execFsetInit_keeps c x h
  | fsetAdvance c => exact execFsetAdvance_keeps c x h
  | fsetRefresh c => exact execFsetRefresh_keeps c x h
  | rootNewton c => exact execRootNewton_keeps c x h
  | rootChol c => exact execRootChol_keeps c x h
  | cholFactor c => exact execCholFactor_keeps c x h
  | rootDeadline c done iters started => exact execRootDeadline_keeps c done iters started x h
  | solveCg c => exact execSolveCg_keeps c x h
  | solvePcg c => exact execSolvePcg_keeps c x h
  | solveBicgstab c => exact execSolveBicgstab_keeps c x h
  | solveDeadline c done iters started => exact execSolveDeadline_keeps c done iters started x h
  | updFirst c => exact execUpdFirst_keeps c x h
  | updDiag c => exact execUpdDiag_keeps c x h
  | updPrecond c => exact execUpdPrecond_keeps c x h
  | shardInit c => exact execShardInit_keeps c x h
  | schedLoad c => exact execSchedLoad_keeps c x h
  | gather c => exact execGather_keeps c x h
  | digestCheck c => exact execDigestCheck_keeps c x h
  | copy c => exact execCopy_keeps c x h
  | convertBarge c => exact execConvertBarge_keeps c x h
  | fill c => exact execFill_keeps c x h
  | resPoolInit c => exact execResPoolInit_keeps c x h
  | resCreate c => exact execResCreate_keeps c x h
  | resPromote c => exact execResPromote_keeps c x h
  | resEvict c => exact execResEvict_keeps c x h
  | resPin c => exact execResPin_keeps c x h
  | resUnpin c => exact execResUnpin_keeps c x h
  | resDestroy c => exact execResDestroy_keeps c x h
  | pfStart c => exact execPfStart_keeps c x h
  | pfStop c => exact execPfStop_keeps c x h
  | pfResume c => exact execPfResume_keeps c x h
  | prefetchIssue sched => exact execPrefetchIssue_keeps sched x h
  | promotionCommit c => exact execPromotionCommit_keeps c x h
  | promotionResume c => exact execPromotionResume_keeps c x h
  | poundDrain die => exact execPoundDrain_keeps die x h
  | lkSignal c => exact execLkSignal_keeps c x h
  | lkSet c => exact execLkSet_keeps c x h
  | lkRead c => exact execLkRead_keeps c x h
  | lkNop c => exact execLkNop_keeps c x h
  | allReduce c => exact execAllReduce_keeps c x h
  | reduceScatter c => exact execReduceScatter_keeps c x h
  | allGather c => exact execAllGather_keeps c x h
  | broadcast c => exact execBroadcast_keeps c x h
  | reduceToOwner c => exact execReduceToOwner_keeps c x h
  | globalNorm c => exact execGlobalNorm_keeps c x h
  | permute c => exact execPermute_keeps c x h
  | barrier c => exact execBarrier_keeps c x h
  | collectiveDeadline c => exact execCollectiveDeadline_keeps c x h
  | permuteFlip c => exact execPermuteFlip_keeps c x h
  | censusSetup c => exact execCensusSetup_keeps c x h
  | censusStop c => exact execCensusStop_keeps c x h
  | watchSetup c => exact execWatchSetup_keeps c x h
  | watchStop c => exact execWatchStop_keeps c x h
  | twatchSetup c => exact execTwatchSetup_keeps c x h
  | twatchStop c => exact execTwatchStop_keeps c x h
  | testCore c => exact execTestCore_keeps c x h
  | testRoot c => exact execTestRoot_keeps c x h
  | testMove c => exact execTestMove_keeps c x h
  | testBasin c => exact execTestBasin_keeps c x h
  | calHbm c => exact execCalHbm_keeps c x h
  | calPort c => exact execCalPort_keeps c x h
  | testResult unit outcome => exact execTestResult_keeps unit outcome x h
  | testRotation unit => exact execTestRotation_keeps unit x h
  | jobSubmit c => exact execJobSubmit_keeps c x h
  | jobEnd c => exact execJobEnd_keeps c x h
  | jobSuspend c => exact execJobSuspend_keeps c x h
  | jobResume c => exact execJobResume_keeps c x h
  | cmdAbort c => exact execCmdAbort_keeps c x h
  | lockGrant c => exact execLockGrant_keeps c x h
  | lockRelease c => exact execLockRelease_keeps c x h
  | loanGrant c => exact execLoanGrant_keeps c x h
  | loanReturn c => exact execLoanReturn_keeps c x h
  | hostbufReg c => exact execHostbufReg_keeps c x h
  | hostbufUnreg c => exact execHostbufUnreg_keeps c x h
  | modeStage c => exact execModeStage_keeps c x h
  | dieFence c => exact execDieFence_keeps c x h
  | dieUnfence c failed => exact execDieUnfence_keeps c failed x h
  | fwUpdate c obj resumeFails => exact execFwUpdate_keeps c obj resumeFails x h
  | checkpoint c => exact execCheckpoint_keeps c x h
  | shardCopy c => exact execShardCopy_keeps c x h
  | dumpBuffer c => exact execDumpBuffer_keeps c x h
  | attest c => exact execAttest_keeps c x h
  | ringFetch ring => exact execRingFetch_keeps ring x h
  | commandStart c => exact execCommandStart_keeps c x h
  | commitPoint c => exact execCommitPoint_keeps c x h
  | publicationComplete c => exact execPublicationComplete_keeps c x h
  | preemption die => exact execPreemption_keeps die x h
  | contextResume die ctx => exact execContextResume_keeps die ctx x h
  | modeAckTimeout chg => exact execModeAckTimeout_keeps chg x h
  | stagedModeExpiry chg => exact execStagedModeExpiry_keeps chg x h
  | modeStartHold chg => exact execModeStartHold_keeps chg x h
  | modeApply chg => exact execModeApply_keeps chg x h
  | powerChangeRetry => exact execPowerChangeRetry_keeps x h
  | sesPskStart input => exact execSesPskStart_keeps input x h
  | sesPskFinish input => exact execSesPskFinish_keeps input x h
  | sesPakeStart input => exact execSesPakeStart_keeps input x h
  | sesPakeFinish input => exact execSesPakeFinish_keeps input x h
  | sesClose input => exact execSesClose_keeps input x h
  | sessionSlotExpiry slot => exact execSessionSlotExpiry_keeps slot x h
  | jobLink input => exact execJobLink_keeps input x h
  | ownerEnroll input => exact execOwnerEnroll_keeps input x h
  | ownerRelease input => exact execOwnerRelease_keeps input x h
  | debugUnlock input => exact execDebugUnlock_keeps input x h
  | idCerts input => exact execIdCerts_keeps input x h
  | sesExport input => exact execSesExport_keeps input x h
  | ringBind input => exact execRingBind_keeps input x h
  | ringUnbind input => exact execRingUnbind_keeps input x h
  | hdmBind input => exact execHdmBind_keeps input x h
  | hdmUnbind input => exact execHdmUnbind_keeps input x h
  | privMap input => exact execPrivMap_keeps input x h
  | eventRead input => exact execEventRead_keeps input x h
  | spdmRequest request => exact execSpdmRequest_keeps request x h
  | configRequest offset write' => exact execConfigRequest_keeps offset write' x h
  | hdmRead off len => exact execHdmRead_keeps off len x h
  | hdmWrite off data => exact execHdmWrite_keeps off data x h
  | snoop addr => exact execSnoop_keeps addr x h
  | cxlLinkDown cause => exact execCxlLinkDown_keeps cause x h
  | cxlLinkUp width rate ide => exact execCxlLinkUp_keeps width rate ide x h
  | ringCfg via ring value => exact execRingCfg_keeps via ring value x h
  | ringTail via ring value => exact execRingTail_keeps via ring value x h
  | registerWrite via off width value => exact execRegisterWrite_keeps via off width value x h
  | registerReadClear via off width => exact execRegisterReadClear_keeps via off width x h
  | sicTake die target source own => exact execSicTake_keeps die target source own x h
  | sicEoi die target source => exact execSicEoi_keeps die target source x h
  | sicPendSet die w value => exact execSicPendSet_keeps die w value x h
  | sicPendClr die w value => exact execSicPendClr_keeps die w value x h
  | sicEnSet die w value => exact execSicEnSet_keeps die w value x h
  | sicEnClr die w value => exact execSicEnClr_keeps die w value x h
  | sicSrcCfg die source value => exact execSicSrcCfg_keeps die source value x h
  | sicSrcMod die source value => exact execSicSrcMod_keeps die source value x h
  | sicTgtCtrl die target value => exact execSicTgtCtrl_keeps die target value x h
  | sourceFire die source => exact execSourceFire_keeps die source x h
  | moderationTimer die source => exact execModerationTimer_keeps die source x h
  | targetIdle die target => exact execTargetIdle_keeps die target x h
  | cntCtrl die value => exact execCntCtrl_keeps die value x h
  | cntClear die value => exact execCntClear_keeps die value x h
  | counterFreeze die => exact execCounterFreeze_keeps die x h
  | trCtrl die value => exact execTrCtrl_keeps die value x h
  | trTrigNow die value => exact execTrTrigNow_keeps die value x h
  | trMark die value => exact execTrMark_keeps die value x h
  | portCtrl port value => exact execPortCtrl_keeps port value x h
  | portCredit port value => exact execPortCredit_keeps port value x h
  | flitReceive port flit => exact execFlitReceive_keeps port flit x h
  | controlFlit port ack' cr => exact execControlFlit_keeps port ack' cr x h
  | controlFlitTimer port => exact execControlFlitTimer_keeps port x h
  | laneFailure port lane => exact execLaneFailure_keeps port lane x h
  | portTrainingDone port lanes farPeer => exact execPortTrainingDone_keeps port lanes farPeer x h
  | portRetrain port => exact execPortRetrain_keeps port x h
  | messageForward port m => exact execMessageForward_keeps port m x h
  | readReq m addr len engine => exact execReadReq_keeps m addr len engine x h
  | readResp m addr data => exact execReadResp_keeps m addr data x h
  | write m addr data => exact execWrite_keeps m addr data x h
  | collData m group stream round data => exact execCollData_keeps m group stream round data x h
  | stagedAck m => exact execStagedAck_keeps m x h
  | commit m => exact execCommit_keeps m x h
  | cancel m => exact execCancel_keeps m x h
  | lockSignal m lock amount => exact execLockSignal_keeps m lock amount x h
  | collJoin m group stream round op twice => exact execCollJoin_keeps m group stream round op twice x h
  | collSet m group stream round count set => exact execCollSet_keeps m group stream round count set x h
  | collLate m group stream round count result => exact execCollLate_keeps m group stream round count result x h
  | collFlip m group stream round tFlip => exact execCollFlip_keeps m group stream round tFlip x h
  | authNak m => exact execAuthNak_keeps m x h
  | time m port now hops => exact execTime_keeps m port now hops x h
  | pdelay m port delay => exact execPdelay_keeps m port delay x h
  | announce m listCrc => exact execAnnounce_keeps m listCrc x h
  | hello m port => exact execHello_keeps m port x h
  | heartbeat m => exact execHeartbeat_keeps m x h
  | member m table => exact execMember_keeps m table x h
  | lost m peer => exact execLost_keeps m peer x h
  | stage m scope job epoch barrier items peers => exact execStage_keeps m scope job epoch barrier items peers x h
  | ack m chg place => exact execAck_keeps m chg place x h
  | openMsg m chg tApply => exact execOpenMsg_keeps m chg tApply x h
  | discard m chg => exact execDiscard_keeps m chg x h
  | loanEnd m => exact execLoanEnd_keeps m x h
  | announceTimer => exact execAnnounceTimer_keeps x h
  | timeTimer => exact execTimeTimer_keeps x h
  | pdelayTimer port => exact execPdelayTimer_keeps port x h
  | heartbeatTimer => exact execHeartbeatTimer_keeps x h
  | peerLost peer => exact execPeerLost_keeps peer x h
  | timeUnlocked => exact execTimeUnlocked_keeps x h
  | scrubRead addr finding => exact execScrubRead_keeps addr finding x h
  | unitInternalError unit => exact execUnitInternalError_keeps unit x h
  | fatalError cause => exact execFatalError_keeps cause x h
  | inputSample m => exact execInputSample_keeps m x h
  | temperatureSample sensor hbm tenths coolSince => exact execTemperatureSample_keeps sensor hbm tenths coolSince x h
  | pwrEnAssert => exact execPwrEnAssert_keeps x h
  | powerGood => exact execPowerGood_keeps x h
  | pwrEnDeassert => exact execPwrEnDeassert_keeps x h
  | shutdownTimeout => exact execShutdownTimeout_keeps x h
  | standbyEntered => exact execStandbyEntered_keeps x h
  | inputLoss => exact execInputLoss_keeps x h
  | modResetN level => exact execModResetN_keeps level x h
  | moduleReset => exact execModuleReset_keeps x h
  | standby => exact execStandby_keeps x h
  | i3cReadPointer offset => exact execI3cReadPointer_keeps offset x h
  | dynamicAddressAssignment addr => exact execDynamicAddressAssignment_keeps addr x h
  | configVerified fw rec => exact execConfigVerified_keeps fw rec x h
  | imageVerified img => exact execImageVerified_keeps img x h
  | diesReleased puf0 puf1 => exact execDiesReleased_keeps puf0 puf1 x h
  | hbmTrainingDone failedStacks => exact execHbmTrainingDone_keeps failedStacks x h
  | selfTestDone failed => exact execSelfTestDone_keeps failed x h
  | initialisationDone => exact execInitialisationDone_keeps x h
  | towpathResolved => exact execTowpathResolved_keeps x h
  | extest => exact execExtest_keeps x h
  | samplePreload => exact execSamplePreload_keeps x h
  | idcode => exact execIdcode_keeps x h
  | highz => exact execHighz_keeps x h
  | clamp => exact execClamp_keeps x h
  | extestPulse => exact execExtestPulse_keeps x h
  | extestTrain => exact execExtestTrain_keeps x h
  | dbgSelect die => exact execDbgSelect_keeps die x h
  | dbgAccess => exact execDbgAccess_keeps x h
  | bypass => exact execBypass_keeps x h
  | trstN => exact execTrstN_keeps x h
  | hdmDecoderCommit ways hpa => exact execHdmDecoderCommit_keeps ways hpa x h
  | pwrCtrl via value => exact execPwrCtrl_keeps via value x h
  | hotSwapRetry => exact execHotSwapRetry_keeps x h
  | testLogicReset => exact execTestLogicReset_keeps x h
  | hbmInterfaceLost stack => exact execHbmInterfaceLost_keeps stack x h

/-- Settles O3: nothing is listed at power good, in either memory. -/
theorem resetIsSound : Obligations.ResetIsSound := by
  unfold Obligations.ResetIsSound
  exact ⟨memory_wf_nil, memory_wf_nil⟩

/-- Settles O4, by the two ways a step goes: an idle nanosecond, or the command at the front of the queue, which runs on a state
with the same memories. -/
theorem everyStepKeepsMemorySound : Obligations.EveryStepKeepsMemorySound := by
  unfold Obligations.EveryStepKeepsMemorySound
  intro s t hs hstep
  cases hq : s.pending with
  | nil =>
    rw [step_of_idle hq] at hstep
    have hidle : KeepsO s (.next (idleStep s)) := KeepsO.next (idleStep_keeps s (Keeps.refl s))
    exact (hidle t hstep).sound hs
  | cons c rest =>
    rw [step_of_front hq] at hstep
    have hfront : KeepsO { s with pending := rest } (exec c { s with pending := rest }) := exec_keeps c _ (Keeps.refl _)
    exact (hfront t hstep).sound hs

end Sys2Proof.Machine
end

section
/-! The commit of an operation with an effect of its own: what stands after it, from what the effect leaves (R275). -/

namespace Sys2Proof.Machine

/-- An operation whose own effect is quiet commits: its record stands, its effect stands in `x`, and while nothing observes its staged bytes are all that memory has new. -/
theorem runOp_commits_quietly {code cid : Nat} {compute : State → Cmd → Out} {eff : State → Cmd → State} {s x : State} {c : Cmd} {r : Stg}
    (h : RingRuns s cid code c) (hd : compute s c = .done r) (hn : Near r) (hx : x.cmds = s.cmds)
    (hb : ∀ u, Beside s u → Beside x (eff u (atCommit s (withRun c r))))
    (hq : ∀ u, Beside s u → Quiet u (eff u (atCommit s (withRun c r)))) :
    ∃ t, runOp code compute eff cid s = .next t ∧ Recorded s cid c r t ∧ Beside x t ∧ (Still s → t.mem = published s.mem r.writes ∧ t.host = s.host) := by
  obtain ⟨u, t, e, b, st, q, k⟩ := effect_row_kept (eff := eff) h hd hn
  obtain ⟨hbt, hrec⟩ := k x hx (hb u b)
  refine ⟨t, e, hrec, hbt, fun i => ?_⟩
  obtain ⟨hm, ho, hs⟩ := st i
  obtain ⟨hm', ho', -⟩ := ((hq u b).trans q) hs
  exact ⟨hm'.trans hm, ho'.trans ho⟩

/-- The same of an operation whose own effect may write: its record and its effect stand. -/
theorem runOp_commits_effect {code cid : Nat} {compute : State → Cmd → Out} {eff : State → Cmd → State} {s x : State} {c : Cmd} {r : Stg}
    (h : RingRuns s cid code c) (hd : compute s c = .done r) (hn : Near r) (hx : x.cmds = s.cmds)
    (hb : ∀ u, Beside s u → Beside x (eff u (atCommit s (withRun c r)))) :
    ∃ t, runOp code compute eff cid s = .next t ∧ Recorded s cid c r t ∧ Beside x t := by
  obtain ⟨u, t, e, b, -, -, k⟩ := effect_row_kept (eff := eff) h hd hn
  obtain ⟨hbt, hrec⟩ := k x hx (hb u b)
  exact ⟨t, e, hrec, hbt⟩

/-- The same where nothing is staged and no pin ends: the effect acts on residency objects as they stood. -/
theorem runOp_commits_unheld {code cid : Nat} {compute : State → Cmd → Out} {eff : State → Cmd → State} {s x : State} {c : Cmd} {r : Stg}
    (h : RingRuns s cid code c) (hd : compute s c = .done r) (hn : Near r) (hw : r.writes = []) (ho : r.outs = []) (hold : NoHolds s c) (hx : x.cmds = s.cmds)
    (hb : ∀ u, Beside s u → u.objs = s.objs → Beside x (eff u (atCommit s (withRun c r)))) :
    ∃ t, runOp code compute eff cid s = .next t ∧ Recorded s cid c r t ∧ Beside x t := by
  obtain ⟨hpins, hlock⟩ := hold
  obtain ⟨u, t, e, b, -, -, ⟨objs, -⟩, k⟩ := effect_row (eff := eff) h hd hn
  obtain ⟨hbt, hrec⟩ := k x (fun y hy => hx ▸ hy) (hx ▸ (findCmd_mem h.runs.1).2) (hb u b (objs hw ho hpins hlock).1)
  exact ⟨t, e, hrec, hbt⟩

/-- What a completion will say beside the staged bytes sends nothing away. -/
theorem Near.withAux {r : Stg} (h : Near r) {l : List Nat} : Near { r with aux := l } := ⟨h.wait, h.evs, h.near⟩

/-- An operation whose own effect is quiet and says what becomes of every die: all of it stands after the commit. -/
theorem runOp_commits_dies {code cid : Nat} {compute : State → Cmd → Out} {eff : State → Cmd → State} {s x : State} {c : Cmd} {r : Stg} {f : Nat → Die}
    (h : RingRuns s cid code c) (hd : compute s c = .done r) (hn : Near r) (hx : x.cmds = s.cmds)
    (hb : ∀ u, Beside s u → Beside x (eff u (atCommit s (withRun c r))))
    (hq : ∀ u, Beside s u → Quiet u (eff u (atCommit s (withRun c r))))
    (hdie : ∀ u, Contained s u → ∀ d, (getDie (eff u (atCommit s (withRun c r))) d).kept = f d) :
    ∃ t, runOp code compute eff cid s = .next t ∧ Recorded s cid c r t ∧ (Still s → t.mem = published s.mem r.writes ∧ t.host = s.host) ∧ Beside x t ∧
      ∀ d, (getDie t d).kept = f d := by
  obtain ⟨t, e, hr, hbt, hm⟩ := runOp_commits_quietly h hd hn hx hb hq
  obtain ⟨u, t', e', hu, tail⟩ := runOp_tail (eff := eff) h.runs hd hn
  obtain rfl : t = t' := by simpa using e.symm.trans e'
  exact ⟨t, e, hr, hm, hbt, fun d => ((tail _ (Contained.refl _)).dies d).trans (hdie u hu d)⟩

end Sys2Proof.Machine
end

section
/-! The rows of class 0xA: census, the watch of layers and the watch of tensors (R66, R69, R78, R433 to R435). -/

namespace Sys2Proof.Machine

theorem censusSetup_commits {s : State} {cid : Nat} {c : Cmd} (h : RingRuns s cid 0xA01 c) :
    ∃ t, execCensusSetup cid s = .next t ∧ Recorded s cid c Stg.none t ∧
      Beside { s with census := tput s.census c.pkt.job ((localise s (descAddr (c.pkt.slot 0))).code, censusEntries c.pkt) } t := by
  refine runOp_commits_effect h ?_ near_none ?_ fun u b => ?_
  · rfl
  · rfl
  · rw [localise_of b, b.census]
    exact b.census_set _

theorem censusStop_commits {s : State} {cid : Nat} {c : Cmd} (h : RingRuns s cid 0xA02 c) :
    ∃ t, execCensusStop cid s = .next t ∧ Recorded s cid c Stg.none t ∧ Beside { s with census := tdel s.census c.pkt.job } t ∧ MemSame s t := by
  refine runOp_commits_quietly h ?_ near_none ?_ (fun u b => ?_) fun u b => ?_
  · rfl
  · rfl
  · rw [b.census]
    exact b.census_set _
  · refine fun i => ⟨rfl, rfl, i.trace, i.watch, i.objs, ?_⟩
    dsimp only
    rw [i.census]
    rfl

/-- Two fields of a state written at once. -/
theorem Beside.watch_shards_set {s u : State} (h : Beside s u) (x y) : Beside { s with watch := x, shards := y } { u with watch := x, shards := y } :=
  (h.watch_set x).shards_set y

theorem watchSetup_commits {s : State} {cid : Nat} {c : Cmd} (h : RingRuns s cid 0xA03 c) :
    ∃ t, execWatchSetup cid s = .next t ∧ Recorded s cid c Stg.none t ∧
      Beside { s with
        watch := s.watch.filter (fun w => !(inLayers c.pkt.job (watchFirst c.pkt) (watchLast c.pkt) w.1)) ++
          (List.range (watchLast c.pkt + 1 - watchFirst c.pkt)).map (fun i => ((c.pkt.job, watchFirst c.pkt + i), (watchH c.pkt, watchW c.pkt))),
        shards := s.shards.map (fun h => if inLayers c.pkt.job (watchFirst c.pkt) (watchLast c.pkt) (h.2.job, h.2.layer) then (h.1, { h.2 with streak := 0 }) else h) } t ∧ MemSame s t := by
  refine runOp_commits_quietly h ?_ near_none ?_ (fun u b => ?_) fun u b => ?_
  · rfl
  · rfl
  · dsimp only
    rw [b.watch, b.shards]
    exact b.watch_shards_set _ _
  · exact fun i => ⟨rfl, rfl, Still.of (x := u) rfl rfl rfl rfl i⟩

theorem watchStop_commits {s : State} {cid : Nat} {c : Cmd} (h : RingRuns s cid 0xA04 c) :
    ∃ t, execWatchStop cid s = .next t ∧ Recorded s cid c Stg.none t ∧
      Beside { s with watch := s.watch.filter (fun w => !(inLayers c.pkt.job (watchFirst c.pkt) (watchLast c.pkt) w.1)) } t ∧ MemSame s t := by
  refine runOp_commits_quietly h ?_ near_none ?_ (fun u b => ?_) fun u b => ?_
  · rfl
  · rfl
  · rw [b.watch]
    exact b.watch_set _
  · exact fun i => ⟨rfl, rfl, Still.of (x := u) rfl rfl rfl rfl i⟩

theorem twatchSetup_commits {s : State} {cid : Nat} {c : Cmd} (h : RingRuns s cid 0xA08 c) (hold : NoHolds s c)
    (ok : twatchRefusal s c (watchBytes s c) = none) :
    ∃ t, execTwatchSetup cid s = .next t ∧ Recorded s cid c Stg.none t ∧
      Beside { s with twatch := s.twatch ++ [twatchOf c.pkt.job (watchBlock s c) (watchBytes s c)] } t := by
  have run : twatchRun s c = .done Stg.none := by
    unfold twatchRun
    rw [ok]
  refine runOp_commits_unheld h run near_none rfl rfl hold ?_ fun u b objs => ?_
  · rfl
  · have block : watchBlock u (atCommit s (withRun c Stg.none)) = watchBlock s c := watchBlock_of b c
    have bytes : watchBytes u (atCommit s (withRun c Stg.none)) = watchBytes s c := watchBytes_of b objs rfl rfl rfl rfl
    dsimp only
    rw [block, bytes, b.twatch]
    have listed := b.twatch_set (s.twatch ++ [twatchOf c.pkt.job (watchBlock s c) (watchBytes s c)])
    exact Beside.ite (moduleWrite_beside _ _ _ _ _ listed) listed

theorem twatchSetup_refused {s : State} {cid : Nat} {c : Cmd} {r : Nat × Nat} (h : RingRuns s cid 0xA08 c) (no : twatchRefusal s c (watchBytes s c) = some r) :
    ∃ t, execTwatchSetup cid s = .next t ∧ Ended s t c r.1 r.2 := by
  refine runOp_stop h.runs ?_
  unfold twatchRun
  rw [no]

theorem twatchStop_commits {s : State} {cid : Nat} {c : Cmd} (h : RingRuns s cid 0xA09 c) (hw : ∃ w ∈ s.twatch, w.job = c.pkt.job ∧ w.block = watchBlock s c) :
    ∃ t, execTwatchStop cid s = .next t ∧ Recorded s cid c Stg.none t ∧
      Beside { s with twatch := s.twatch.filter (fun w => !(w.job == c.pkt.job && w.block == watchBlock s c)) } t ∧ MemSame s t := by
  have run : twatchStopRun s c = .done Stg.none := by
    unfold twatchStopRun
    rw [if_pos (by simpa [List.any_eq_true] using hw)]
  refine runOp_commits_quietly h run near_none ?_ (fun u b => ?_) fun u b => ?_
  · rfl
  · rw [b.twatch]
    simp only [watchBlock_of b]
    exact b.twatch_set _
  · refine fun i => ⟨rfl, rfl, i.trace, ?_, i.objs, i.census⟩
    dsimp only
    rw [i.watch]
    rfl

theorem twatchStop_refused {s : State} {cid : Nat} {c : Cmd} (h : RingRuns s cid 0xA09 c) (hw : ∀ w ∈ s.twatch, w.job = c.pkt.job → w.block ≠ watchBlock s c) :
    ∃ t, execTwatchStop cid s = .next t ∧ Ended s t c stBad (badAt 24 0) := by
  refine runOp_stop h.runs ?_
  unfold twatchStopRun
  rw [if_neg (by simpa [List.any_eq_true] using hw)]

end Sys2Proof.Machine
end

section
/-! FW_UPDATE, ATTEST and DUMP_BUFFER (R401, R405, R423, R448, R487, R488). -/

namespace Sys2Proof.Machine

theorem fwUpdate_refused {s : State} {cid : Nat} {c : Cmd} (h : RingRuns s cid 0xF18 c) (o : SignedObj) (l : List Nat) (no : objAccepted s o = false) :
    ∃ t, execFwUpdate cid o l s = .next t ∧ Ended s t c stBad (badAt 0xFF 0) := by
  refine runOp_stop h.runs ?_
  dsimp only
  rw [if_pos no]

/-- What an FW_UPDATE stages: no byte, only what its completion will say of it (R488). -/
def fwStaged (p : Packet) (o : SignedObj) (l : List Nat) : Stg := { Stg.none with aux := b2n (fwLive p) :: o.kind :: o.svn :: l }

theorem fwStaged_near (p : Packet) (o : SignedObj) (l : List Nat) : Near (fwStaged p o l) := near_none.withAux

/-- The slot order of a kind of object reversed. -/
theorem slotOrder_set {s u : State} (b : Beside s u) (k : Nat) :
    Beside { s with trust := { s.trust with slotOrder := s.trust.slotOrder.set k (!(s.trust.slotOrder.getD k false)) } }
      { u with trust := { u.trust with slotOrder := u.trust.slotOrder.set k (!(u.trust.slotOrder.getD k false)) } } := by
  rw [b.trust]
  exact b.trust_set _

/-- An image that is not live only reverses the slot order (R487). -/
theorem fwUpdate_commits_stored {s : State} {cid : Nat} {c : Cmd} (h : RingRuns s cid 0xF18 c) (o : SignedObj) (l : List Nat)
    (ok : objAccepted s o = true) (stored : fwLive c.pkt = false) :
    ∃ t, execFwUpdate cid o l s = .next t ∧ Recorded s cid c Stg.none t ∧ MemSame s t ∧
      Beside { s with trust := { s.trust with slotOrder := s.trust.slotOrder.set o.kind (!(s.trust.slotOrder.getD o.kind false)) } } t ∧
      ∀ d, (getDie t d).kept = (getDie s d).kept := by
  have live : ¬ fwLive c.pkt = true := by simp [stored]
  refine runOp_commits_dies (r := fwStaged c.pkt o l) h ?_ (fwStaged_near ..) ?_ (fun u b => ?_) (fun u b => ?_) fun u b => ?_
  · dsimp only
    rw [if_neg (by simp [ok]), if_neg fun g => live g.1, if_neg fun g => live g.1]
    rfl
  · rfl
  · exact (if_neg live).symm ▸ slotOrder_set b o.kind
  · exact (if_neg live).symm ▸ fun i => ⟨rfl, rfl, Still.of (x := u) rfl rfl rfl rfl i⟩
  · exact (if_neg live).symm ▸ b.dies

/-- What a live image makes of the module's trust: the other slot boots, MR5 is extended, and its SVN is noted (R401, R405, R488). -/
def liveTrust (x : Trust) (o : SignedObj) : Trust :=
  { x with slotOrder := x.slotOrder.set 1 (!(x.slotOrder.getD 1 false)), mrs := measured x.mrs 5 o.hash, svns := x.svns.set 1 o.svn }

theorem pauseDies_quiet {s u : State} (h : Quiet s u) : Quiet s (pauseDies u) := by
  obtain ⟨⟨ds, e⟩, -⟩ := pauseDies_says u
  rw [e]
  exact h.trans fun i => ⟨rfl, rfl, Still.of (x := u) rfl rfl rfl rfl i⟩

theorem pauseDies_beside {s u : State} (h : Beside s u) : Beside s (pauseDies u) := by
  obtain ⟨⟨ds, e⟩, -⟩ := pauseDies_says u
  rw [e]
  exact h.set

/-- A live image also extends MR5, and every die that is up pauses (R401, R405, R488). -/
theorem fwUpdate_commits_live {s : State} {cid : Nat} {c : Cmd} (h : RingRuns s cid 0xF18 c) (o : SignedObj) (l : List Nat)
    (ok : objAccepted s o = true) (live : fwLive c.pkt = true) (kind : o.kind = 1) (level : o.level = s.trust.imgLevel) :
    ∃ t, execFwUpdate cid o l s = .next t ∧ Recorded s cid c Stg.none t ∧ MemSame s t ∧ Beside { s with trust := liveTrust s.trust o } t ∧
      ∀ d, (getDie t d).kept = if d ∈ diesUp s then { (getDie s d).kept with paused := true } else (getDie s d).kept := by
  refine runOp_commits_dies (r := fwStaged c.pkt o l) h ?_ (fwStaged_near ..) ?_ (fun u b => ?_) (fun u b => ?_) fun u b => ?_
  · dsimp only
    rw [if_neg (by simp [ok]), if_neg fun g => g.2 kind, if_neg fun g => g.2 level]
    rfl
  · rfl
  · refine (if_pos live).symm ▸ pauseDies_beside ?_
    dsimp only
    rw [b.trust, kind]
    exact b.trust_set _
  · exact (if_pos live).symm ▸ pauseDies_quiet fun i => ⟨rfl, rfl, Still.of (x := u) rfl rfl rfl rfl i⟩
  · refine (if_pos live).symm ▸ fun d => ((pauseDies_says _).2 d).trans ?_
    show (if d ∈ diesUp u then { (getDie u d).kept with paused := true } else (getDie u d).kept) = _
    rw [diesUp_of b.dies, b.dies d]

/-- What an ATTEST stages: the report and the record of its output (R423). -/
def attestStaged (c : Cmd) (bs : List Byte) (ws : List SWrite) : Stg := { Stg.none with writes := ws, outs := [outRaw 0 (descAddr (c.pkt.slot 0)) bs] }

/-- ATTEST publishes the report with its two signatures (R423). -/
theorem attest_commits {s : State} {cid : Nat} {c : Cmd} {r bs : List Byte} {ws : List SWrite} (h : RingRuns s cid 0xF20 c)
    (hr : r = report s c (cBytes s c (descAddr (c.pkt.slot 1)) 32)) (hbs : bs = r ++ fitBytes 384 (Config.signRsa r) ++ fitBytes 35664 (Config.signSlh r))
    (hws : ws = placeWrites s c [⟨descAddr (c.pkt.slot 0), bs⟩]) (near : ∀ w ∈ ws, w.tgt.tier ≠ 4) :
    ∃ t, execAttest cid s = .next t ∧ Recorded s cid c { Stg.none with writes := ws } t ∧ Beside s t ∧ (Still s → t.mem = published s.mem ws ∧ t.host = s.host) := by
  refine runOp_commits_quietly (r := attestStaged c bs ws) h ?_ ⟨rfl, rfl, near⟩ rfl (fun u b => b) fun u _ => Quiet.refl u
  dsimp only
  rw [← hr, ← hbs, ← hws]
  rfl

theorem dumpBuffer_refused {s : State} {cid : Nat} {c : Cmd} {r : Nat × Nat} (h : RingRuns s cid 0xF1C c) (no : dumpRefusal s c = some r) :
    ∃ t, execDumpBuffer cid s = .next t ∧ Ended s t c r.1 r.2 := by
  refine runOp_stop h.runs ?_
  unfold dumpRun
  rw [no]

/-- The dump after DUMP_BUFFER: its buffer is the caller's, and RELEASE discards what was held (R448). -/
def dumpNamed (d : Dump) (c : Cmd) : Dump :=
  { d with
    buffer := some (c.sess, (descAddr (c.pkt.slot 0)).off), cause := if bit (c.pkt.slot 1) 1 then 0 else d.cause,
    parts := if bit (c.pkt.slot 1) 1 then 0 else d.parts, time := if bit (c.pkt.slot 1) 1 then 0 else d.time }

/-- The own effect of DUMP_BUFFER. -/
def dumpEff (s : State) (c : Cmd) : State :=
  let at_ := (descAddr (c.pkt.slot 0)).off
  let s := { s with dump := { s.dump with buffer := some (c.sess, at_) } }
  let s := if bit (c.pkt.slot 1) 0 ∧ s.dump.parts ≠ 0 then copyDump s at_ else s
  if bit (c.pkt.slot 1) 1 then { s with dump := { s.dump with cause := 0, parts := 0, time := 0 } } else s

theorem execDumpBuffer_eq (cid : Nat) (s : State) : execDumpBuffer cid s = runOp 0xF1C dumpRun dumpEff cid s := rfl

/-- The effect names the buffer, and copies a held dump to it when COPY asks for it. -/
theorem dumpEff_eq (s : State) (c : Cmd) : dumpEff s c = { s with
    dump := dumpNamed s.dump c
    host := if bit (c.pkt.slot 1) 0 ∧ s.dump.parts ≠ 0 then (copyDump s (descAddr (c.pkt.slot 0)).off).host else s.host } := by
  unfold dumpEff dumpNamed
  dsimp only
  split_ifs <;> rfl

theorem dumpBuffer_commits {s : State} {cid : Nat} {c : Cmd} (h : RingRuns s cid 0xF1C c) (ok : dumpRefusal s c = none) :
    ∃ t u, execDumpBuffer cid s = .next t ∧ Recorded s cid c Stg.none t ∧ Beside s u ∧ MemSame s u ∧ Beside { s with dump := dumpNamed s.dump c } t ∧
      ((bit (c.pkt.slot 1) 0 = false ∨ s.dump.parts = 0) → MemSame s t) ∧
      (bit (c.pkt.slot 1) 0 = true → s.dump.parts ≠ 0 → Still s → t.mem = s.mem ∧ t.host = (copyDump u (descAddr (c.pkt.slot 0)).off).host) := by
  have run : dumpRun s c = .done Stg.none := by
    unfold dumpRun
    rw [ok]
  rw [execDumpBuffer_eq]
  obtain ⟨u, t, e, b, st, q, k⟩ := effect_row_kept (eff := dumpEff) h run near_none
  have acts : dumpEff u (atCommit s (withRun c Stg.none)) = { u with
      dump := dumpNamed s.dump c
      host := if bit (c.pkt.slot 1) 0 ∧ s.dump.parts ≠ 0 then (copyDump u (descAddr (c.pkt.slot 0)).off).host else u.host } := by
    rw [dumpEff_eq, b.dump]
    rfl
  rw [acts] at q k
  obtain ⟨hb, hr⟩ := k { s with dump := dumpNamed s.dump c } rfl (b.dump_set _).set
  have mem (i : Still s) : t.mem = s.mem ∧
      t.host = if bit (c.pkt.slot 1) 0 ∧ s.dump.parts ≠ 0 then (copyDump u (descAddr (c.pkt.slot 0)).off).host else u.host := by
    obtain ⟨hm, -, hs⟩ := st i
    obtain ⟨hm', ho', -⟩ := q (Still.of (x := u) rfl rfl rfl rfl hs)
    exact ⟨hm'.trans hm, ho'⟩
  refine ⟨t, u, e, hr, b, fun i => ⟨(st i).1, (st i).2.1⟩, hb, fun no i => ?_, fun copy held i => ?_⟩
  · have noCopy : ¬ (bit (c.pkt.slot 1) 0 = true ∧ s.dump.parts ≠ 0) := fun g => no.elim (fun n => absurd g.1 (by simp [n])) g.2
    rw [if_neg noCopy] at mem
    exact ⟨(mem i).1, (mem i).2.trans (st i).2.1⟩
  · rw [if_pos ⟨copy, held⟩] at mem
    exact mem i

end Sys2Proof.Machine
end

section
/-! CHECKPOINT: its copies issued, and its commit with their results (R481, R482, R484). -/

namespace Sys2Proof.Machine

/-- The copy that CHECKPOINT issues for an entry, with the next handle of a state (R484). -/
def ckptCopy (s : State) (c : Cmd) (i : Nat) (u : State) : Cmd :=
  ownCmd u (.shardCopy c.id i) c.sess 0xF190 c.pkt.job 0xFFFF 0xFFFF (ownSeq u)
    [(gLocal (ckShard u (ckEntry u c i))).tier * 2 ^ 61 + (gLocal (ckShard u (ckEntry u c i))).off / 16, (ckHeader s c).tc, ckSize (ckEntry u c i), 0, 0]

/-- A running CHECKPOINT of a ring is past the guards of its row. -/
theorem execCheckpoint_of_running {s : State} {cid : Nat} {c : Cmd} (h : RingRuns s cid 0xF19 c) :
    execCheckpoint cid s = .next (
      if c.aux = [] then
        (List.range (ckHeader s c).count).foldl (fun u i => issueOwn u (ckptCopy s c i u))
          (putCmd s { c with aux := 1 :: (List.replicate (ckHeader s c).count [3, 0, 0]).flatten })
      else if s.cmds.any (copyOf c.id) then s
      else commitWith ckptEff s { c with phase := .staged }) := by
  obtain ⟨⟨found, running, op⟩, k, ring⟩ := h
  unfold execCheckpoint
  rw [found]
  dsimp only
  rw [if_neg (by simp [running, op, ring])]
  rfl

/-- CHECKPOINT first issues one copy for each entry, in order, that waits to start (R484). -/
theorem checkpoint_issues {s : State} {cid : Nat} {c : Cmd} (h : RingRuns s cid 0xF19 c) (first : c.aux = []) :
    ∃ t new, execCheckpoint cid s = .next t ∧ { t with cmds := s.cmds, nextId := s.nextId } = s ∧
      t.cmds = (putCmd s { c with aux := 1 :: (List.replicate (ckHeader s c).count [3, 0, 0]).flatten }).cmds ++ new ∧ t.nextId = s.nextId + (ckHeader s c).count ∧
      new.length = (ckHeader s c).count ∧ ∀ i, i < (ckHeader s c).count → ∃ x, new[i]? = some x ∧ x.id = s.nextId + i ∧ x.origin = .shardCopy cid i ∧ x.sess = c.sess ∧
        x.pkt.job = c.pkt.job ∧ x.phase = .waiting ∧ x.pkt.opcode = 0xF190 := by
  have cidEq : c.id = cid := (findCmd_mem h.runs.1).1
  rw [execCheckpoint_of_running h, if_pos first]
  generalize (ckHeader s c).count = n
  obtain ⟨new, issued, len, each⟩ := issue_says (List.range n) (ckptCopy s c) (fun _ _ => rfl) (putCmd s { c with aux := 1 :: (List.replicate n [3, 0, 0]).flatten })
  rw [List.length_range] at issued len each
  refine ⟨_, new, rfl, ?_, ?_, ?_, len, fun i hi => ?_⟩
  · rw [issued]; rfl
  · rw [issued]
  · rw [issued]; rfl
  · obtain ⟨x, v, j, at_i, entry, is, id⟩ := each i hi
    obtain rfl : i = j := by simpa [hi] using entry
    subst is
    exact ⟨_, at_i, id, by rw [← cidEq]; rfl, rfl, rfl, rfl, rfl⟩

theorem checkpoint_waits {s : State} {cid : Nat} {c : Cmd} (h : RingRuns s cid 0xF19 c) (issued : c.aux ≠ []) (copies : ∃ x ∈ s.cmds, copyOf cid x = true) :
    execCheckpoint cid s = .next s := by
  rw [execCheckpoint_of_running h, if_neg issued, (findCmd_mem h.runs.1).1, if_pos (List.any_eq_true.mpr copies)]

/-- The own effect of CHECKPOINT writes each entry's result in its descriptor, and nothing else (R482). -/
theorem ckptEff_says (s : State) (c : Cmd) : ∃ ks ps, ckptEff s c = { s with
    mem := (List.range (c.aux.length / 3)).foldl (fun m i => memWrite m ((localise s (descAddr (c.pkt.slot 0))).off + 64 + 32 * i + 24)
      (leBytes 4 (c.aux.getD (2 + 3 * i) 0) ++ leBytes 1 (c.aux.getD (1 + 3 * i) 0) ++ leBytes 1 (c.aux.getD (3 + 3 * i) 0))) s.mem
    keys := ks, poison := ps } :=
  wrLocals_says _ (fun s => jobKey s c.sess c.pkt.job) _ _ s trivial

/-- When the last copy has ended, CHECKPOINT commits with the results of its entries (R484). -/
theorem checkpoint_commits {s : State} {cid : Nat} {c : Cmd} (h : RingRuns s cid 0xF19 c) (issued : c.aux ≠ []) (clean : c.writes = [] ∧ c.status = 0 ∧ c.detail = 0 ∧ c.ieee = 0)
    (ended : ∀ x ∈ s.cmds, copyOf cid x = false) :
    ∃ t, execCheckpoint cid s = .next t ∧ Recorded s cid c Stg.none t ∧ Beside s t ∧
      (Still s → t.host = s.host ∧ t.mem = (List.range (c.aux.length / 3)).foldl (fun m i => memWrite m ((localise s (descAddr (c.pkt.slot 0))).off + 64 + 32 * i + 24)
        (leBytes 4 (c.aux.getD (2 + 3 * i) 0) ++ leBytes 1 (c.aux.getD (1 + 3 * i) 0) ++ leBytes 1 (c.aux.getD (3 + 3 * i) 0))) s.mem) := by
  obtain ⟨writes, status, detail, ieee⟩ := clean
  obtain ⟨k, ring⟩ := h.ring
  obtain ⟨cidEq, cidMem⟩ := findCmd_mem h.runs.1
  have noCopy : s.cmds.any (copyOf c.id) = false := List.any_eq_false.mpr fun x hx => by rw [cidEq, ended x hx]; decide
  rw [execCheckpoint_of_running h, if_neg issued, if_neg (by rw [noCopy]; decide)]
  have self : c.self ∈ s.cmds.map Cmd.self := find_map_self h.runs.1
  obtain ⟨u, v, bu, bv, qv, st, -, -, -, e⟩ := commitWith_all ckptEff s s { c with phase := .staged } (Beside.refl s) self
  rw [recorded_ring s v { c with phase := .staged } k ring] at e
  obtain ⟨ks, ps, acts⟩ := ckptEff_says u (atCommit s { c with phase := .staged })
  rw [acts, localise_of bu] at bv qv
  have sv : Beside s v := bu.set.trans bv
  have recId : (recordOf s { c with phase := .staged }).id = cid := cidEq
  refine ⟨_, rfl, ?_, ?_, fun i => ?_⟩
  all_goals rw [e]
  · have put := findCmd_putCmd v (recordOf s { c with phase := .staged }) (by rw [recId, sv.ids]; exact cidMem)
    rw [recId] at put
    refine ⟨_, put, rfl, rfl, status, detail, ieee, rfl, rfl, ?_⟩
    show c.writes.filter _ = _
    rw [writes]; rfl
  · exact putCmd_beside _ _ self sv
  · obtain ⟨hm, ho, hs⟩ := st i
    obtain ⟨hm', ho', -⟩ := qv (Still.of (x := u) rfl rfl rfl rfl hs)
    refine ⟨ho'.trans ho, hm'.trans ?_⟩
    have unwritten : u.mem = s.mem := by
      rw [hm]
      show published s.mem (c.writes.filter _) = _
      rw [writes]
      rfl
    rw [← unwritten]
    rfl

end Sys2Proof.Machine
end

section
/-! A shard copy that saves: skipped, refused for its size, or its image in host memory (R482 to R484). -/

namespace Sys2Proof.Machine

/-- A shard copy of a CHECKPOINT that saves and that nothing holds up: it waits to start, and its shard is neither busy nor in bad memory (R484). -/
structure SaveStarts (s : State) (cid parent e : Nat) (c p : Cmd) (h : Shard) : Prop where
  found : findCmd s cid = some c
  origin : c.origin = .shardCopy parent e
  waiting : c.phase = .waiting
  other : parent ≠ cid
  issuer : findCmd s parent = some p
  shard : tfind s.shards (shardAddr s c.pkt) = some h
  free : shardBusy s c.id (shardAddr s c.pkt) = false
  good : ∀ r ∈ shardRegions h, regionBad s (dieOfAddr (shardAddr s c.pkt)) r = false
  saves : (ckHeader s p).restore = false

/-- A copy of the module's own that no lock, pin or peer concerns. -/
structure Unattended (c : Cmd) : Prop where
  pins : c.pins = []
  peers : cmdPeers c = []
  noWait : c.pkt.waitThresh = 0

/-- The bytes of host pound that a save takes: whole granules. -/
def saveRoom (zip : Bool) (h : Shard) : Nat := 256 * ceilDiv (imageLen zip h) 256

/-- A save as it runs on a move engine. -/
def saveRunning (s : State) (c : Cmd) (d u n : Nat) : Cmd :=
  { c with phase := .running, place := some ⟨d, u, 4⟩, runs := c.runs + 1, started := s.time, reserved := [(d * 2 + 1, n)] }

section
variable {s : State} {cid parent e : Nat} {c p : Cmd} {h : Shard} (w : SaveStarts s cid parent e c p h)
include w

/-- What a save comes to, in the order of its checks (R482, R484). -/
theorem execShardCopy_of_save : ∃ rest, execShardCopy cid s = .next (
      if (!(ckHeader s p).all && h.image == some (fieldAt (ckEntry s p e) 8 8, h.version)) = true then copyDone s c parent e (1, h.version, 0)
      else if ckSize (ckEntry s p e) < imageLen (ckHeader s p).zip h then copyDone s c parent e (2, 0, 1)
      else if hbmPoundBytes s < saveRoom (ckHeader s p).zip h then copyDone s c parent e (2, 0, 2)
      else rest) ∧
    ∀ u, (∀ q ∈ imagePlanes h, poisonedIn s (regionAt s q.1 q.2.1).off q.2.1 = none) → freeMove s (dieOfAddr (shardAddr s c.pkt)) = some u →
      (ckImage (ckEntry s p e)).tier = 5 → saveRoom (ckHeader s p).zip h ≤ poundFree s (dieOfAddr (shardAddr s c.pkt)) true →
      ∀ y, y = saveRunning s c (dieOfAddr (shardAddr s c.pkt)) u (ceilDiv (imageLen (ckHeader s p).zip h) 256) →
        rest = stage shardCopyEff (putCmd s y) y { Stg.none with
          writes := [⟨ckImage (ckEntry s p e), imageBytes s (ckHeader s p).zip (jobKey s c.sess h.job) h⟩], aux := [1, fieldAt (ckEntry s p e) 8 8] } := by
  have bad : (shardRegions h).any (regionBad s (dieOfAddr (shardAddr s c.pkt))) = false := List.any_eq_false.mpr fun r hr => by simp [w.good r hr]
  unfold execShardCopy
  rw [w.found]
  dsimp only
  rw [w.origin]
  dsimp only
  rw [w.issuer]
  dsimp only
  rw [w.shard]
  dsimp only
  rw [if_neg (by simp [w.waiting]), if_neg (by simp [w.waiting, w.free, bad])]
  simp only [w.saves, Bool.not_false, Bool.true_and, decide_eq_true_eq, Bool.false_eq_true, if_false, Bool.false_or]
  refine ⟨_, rfl, fun u clean engine host room y hy => ?_⟩
  rw [List.findSome?_eq_none_iff.mpr clean]
  dsimp only
  rw [engine]
  dsimp only
  rw [if_neg (by simpa [host, saveRoom] using room), if_neg (by simp [host]), hy]
  unfold saveRunning
  rw [w.origin]
  rfl

/-- A copy that ends without its image leaves its entry's result with its CHECKPOINT, and nothing else of itself (R484). -/
theorem copyDone_of_save (alone : Unattended c) (r : Nat × Nat × Nat) : copyDone s c parent e r =
    putCmd (dropCmd s cid) { p with aux := ((p.aux.set (1 + 3 * e) r.1).set (2 + 3 * e) r.2.1).set (3 + 3 * e) r.2.2 } := by
  have stays : findCmd (dropCmd s cid) parent = some p := (findCmd_drop_other w.other).trans w.issuer
  unfold copyDone
  rw [releaseRun_none alone.pins alone.peers w.waiting, (findCmd_mem w.found).1]
  unfold copyEnded
  rw [stays]

/-- A shard whose image is current is skipped (R482). -/
theorem shardCopy_skips (alone : Unattended c) (all : (ckHeader s p).all = false) (current : h.image = some (fieldAt (ckEntry s p e) 8 8, h.version)) :
    execShardCopy cid s = .next (putCmd (dropCmd s cid) { p with aux := ((p.aux.set (1 + 3 * e) 1).set (2 + 3 * e) h.version).set (3 + 3 * e) 0 }) := by
  obtain ⟨rest, run, -⟩ := execShardCopy_of_save w
  rw [run, if_pos (by simp [all, current]), copyDone_of_save w alone]

/-- An image larger than its entry's SIZE is not saved (R482). -/
theorem shardCopy_tooLarge (alone : Unattended c) (due : (ckHeader s p).all = true ∨ h.image ≠ some (fieldAt (ckEntry s p e) 8 8, h.version))
    (large : ckSize (ckEntry s p e) < imageLen (ckHeader s p).zip h) :
    execShardCopy cid s = .next (putCmd (dropCmd s cid) { p with aux := ((p.aux.set (1 + 3 * e) 2).set (2 + 3 * e) 0).set (3 + 3 * e) 1 }) := by
  obtain ⟨rest, run, -⟩ := execShardCopy_of_save w
  rw [run, if_neg (by rcases due with d | d <;> simp [d]), if_pos large, copyDone_of_save w alone]

/-- A save that nothing stops leaves its image in host memory and is noted on its shard and with its CHECKPOINT (R483, R484). -/
theorem shardCopy_saves (alone : Unattended c) (op : c.pkt.opcode = 0xF190) (due : (ckHeader s p).all = true ∨ h.image ≠ some (fieldAt (ckEntry s p e) 8 8, h.version))
    (host : (ckImage (ckEntry s p e)).tier = 5) (fits : imageLen (ckHeader s p).zip h ≤ ckSize (ckEntry s p e)) (pound : saveRoom (ckHeader s p).zip h ≤ hbmPoundBytes s)
    (clean : ∀ q ∈ imagePlanes h, poisonedIn s (regionAt s q.1 q.2.1).off q.2.1 = none) (engine : ∃ u, freeMove s (dieOfAddr (shardAddr s c.pkt)) = some u)
    (room : saveRoom (ckHeader s p).zip h ≤ poundFree s (dieOfAddr (shardAddr s c.pkt)) true) :
    ∃ t, execShardCopy cid s = .next t ∧ (∀ z ∈ t.cmds, z.id ≠ cid) ∧
      findCmd t parent = some { p with aux := ((p.aux.set (1 + 3 * e) 0).set (2 + 3 * e) h.version).set (3 + 3 * e) 0 } ∧
      t.shards = tput s.shards (shardAddr s c.pkt) { h with image := some (fieldAt (ckEntry s p e) 8 8, h.version) } ∧
      Beside { s with shards := t.shards, cmds := s.cmds.filter (fun z => !(z.id == cid)) } t ∧
      (Still s → t.mem = s.mem ∧ t.host = memWrite s.host (ckImage (ckEntry s p e)).off (imageBytes s (ckHeader s p).zip (jobKey s c.sess h.job) h)) := by
  obtain ⟨u, hu⟩ := engine
  obtain ⟨rest, run, last⟩ := execShardCopy_of_save w
  have idEq : c.id = cid := (findCmd_mem w.found).1
  rw [run, if_neg (by rcases due with d | d <;> simp [d]), if_neg (Nat.not_lt.mpr fits), if_neg (Nat.not_lt.mpr pound), last u clean hu host room _ rfl]
  subst idEq
  exact ⟨_, rfl, copy_stage (y := saveRunning s c (dieOfAddr (shardAddr s c.pkt)) u (ceilDiv (imageLen (ckHeader s p).zip h) 256))
    w.found rfl w.origin alone.noWait (by show fld c.pkt.opcode 4 12 ≠ _; rw [op]; decide) w.other w.issuer w.shard host⟩
end

end Sys2Proof.Machine
end

section
/-! The watches and service commands commit (R66, R69, R401, R405, R433, R435, R448, R482 to R484, R487, R488). -/

namespace Sys2Proof.Machine

/-- Settles O59, row by row: a row that commits does so by the commit of its operation with its own effect, one that refuses by its run's stop; the
checkpoint and its copies by what their rows come to after their guards. -/
theorem watchesAndServiceCommandsCommit : Obligations.WatchesAndServiceCommandsCommit := by
  unfold Obligations.WatchesAndServiceCommandsCommit
  intro s cid c
  refine ⟨censusSetup_commits, censusStop_commits, fun h => ?_, fun h => ?_, fun h hold => ⟨twatchSetup_commits h hold, fun _ => twatchSetup_refused h⟩,
    fun h => ⟨fun hw => ?_, twatchStop_refused h⟩,
    fun h o l => ⟨fwUpdate_refused h o l, fwUpdate_commits_stored h o l, fwUpdate_commits_live h o l⟩,
    fun h r bs ws hr hbs hws near => ?_,
    fun h => ⟨checkpoint_issues h, checkpoint_waits h, fun issued writes status detail ieee => checkpoint_commits h issued ⟨writes, status, detail, ieee⟩⟩,
    fun parent e p h a en found origin waiting pins peers noWait op other issuer ha shard free good hen saves => ?_,
    fun h => ⟨fun _ => dumpBuffer_refused h, dumpBuffer_commits h⟩⟩
  · obtain ⟨t, run, rec, beside, mem⟩ := watchSetup_commits h
    exact ⟨t, run, rec, mem, beside⟩
  · obtain ⟨t, run, rec, beside, mem⟩ := watchStop_commits h
    exact ⟨t, run, rec, mem, beside⟩
  · obtain ⟨t, run, rec, beside, mem⟩ := twatchStop_commits h hw
    exact ⟨t, run, rec, mem, beside⟩
  · exact attest_commits h hr hbs hws near
  · subst ha hen
    have w : SaveStarts s cid parent e c p h := ⟨found, origin, waiting, other, issuer, shard, free, good, saves⟩
    have alone : Unattended c := ⟨pins, peers, noWait⟩
    exact ⟨shardCopy_skips w alone, shardCopy_tooLarge w alone, shardCopy_saves w alone op⟩

end Sys2Proof.Machine
end

section
/-! Flights: what a commit that sets one flight leaves, the entry that a push adds, and the flight that a pop leaves (R99 to R106). -/

namespace Sys2Proof.Machine

/-- An operation whose own effect sets one flight commits: its record stands, and so does the flight with its control block (R99). What the
flight becomes may depend on the state `u` in which the effect acts, and there is no residency object there where there was none. -/
theorem runOp_commits_flight {code cid a : Nat} {compute : State → Cmd → Out} {eff : State → Cmd → State} {s : State} {c : Cmd} {r : Stg} {P : Flight → Prop}
    (h : RingRuns s cid code c) (hd : compute s c = .done r) (hn : Near r)
    (he : ∀ u, Beside s u → (s.objs = [] → u.objs = []) → ∃ f, P f ∧ eff u (atCommit s (withRun c r)) = putFlight u a f) :
    ∃ t f, runOp code compute eff cid s = .next t ∧ P f ∧ Recorded s cid c r t ∧ FlightIs s t (published s.mem r.writes) a f := by
  obtain ⟨u, t, run, beside, mem, quiet, ⟨-, bare⟩, rest⟩ := effect_row (eff := eff) h hd hn
  obtain ⟨f, hf, eq⟩ := he u beside bare
  rw [eq] at quiet rest
  obtain ⟨frame, recd⟩ := rest { s with flights := (putFlight u a f).flights } (fun _ hy => hy) (findCmd_mem h.runs.1).2 (putFlight_beside a f beside)
  exact ⟨t, f, run, hf, recd, putFlight_says beside mem quiet frame⟩

/-- The same where what the flight becomes is known before the commit. -/
theorem runOp_sets_flight {code cid a : Nat} {compute : State → Cmd → Out} {eff : State → Cmd → State} {s : State} {c : Cmd} {r : Stg} {f : Flight}
    (h : RingRuns s cid code c) (hd : compute s c = .done r) (hn : Near r) (he : ∀ u, Beside s u → eff u (atCommit s (withRun c r)) = putFlight u a f) :
    ∃ t, runOp code compute eff cid s = .next t ∧ Recorded s cid c r t ∧ FlightIs s t (published s.mem r.writes) a f := by
  obtain ⟨t, _, run, rfl, recd, is⟩ := runOp_commits_flight (P := (· = f)) h hd hn fun u beside _ => ⟨f, rfl, he u beside⟩
  exact ⟨t, run, recd, is⟩

/-- The entry that a push makes of its tensor's bytes (R101). -/
def pushedEntry (c : Cmd) (o : Opnd) (d : List Byte) : FlightEntry := ⟨c.pkt.layer, c.pkt.operator, c.pkt.seq, o.sh.fmt, o.sh.rows, o.sh.cols, d, false⟩

/-- A flight with one more entry on top, and its high-water mark (R99, R102). -/
def Flight.pushed (f : Flight) (e : FlightEntry) : Flight :=
  { f with entries := e :: f.entries, high := max f.high (flDepth { f with entries := e :: f.entries }) }

/-- `g` is the flight `f` with a command's tensor pushed, of the bytes that the command reads before its commit where there is no residency
object (R102, R274). -/
def PushedOnto (s : State) (c : Cmd) (o : Opnd) (f g : Flight) : Prop :=
  ∃ d, g = f.pushed (pushedEntry c o d) ∧ (s.objs = [] → d = planesOf o.addr.off o.sh (cBytes s c o.addr (tensorBytes o.addr.off o.sh)))

/-- An operation that pushes, FLIGHT_PUSH or FWD, leaves its tensor on top of the flight that it pushes to (R102). -/
theorem runOp_pushes {code cid a n : Nat} {compute : State → Cmd → Out} {s : State} {c : Cmd} {r : Stg} {o : Opnd} {f : Flight}
    (h : RingRuns s cid code c) (hd : compute s c = .done r) (hn : Near r)
    (push : c.flPush = some (a, n)) (tensor : pushOpnd c = some o) (found : tfind s.flights a = some f) :
    ∃ t, runOp code compute pushEff cid s = .next t ∧ Recorded s cid c r t ∧ Pushed s c a o f (published s.mem r.writes) t := by
  obtain ⟨t, _, run, ⟨d, rfl, data⟩, recd, is⟩ := runOp_commits_flight (a := a) (eff := pushEff) h hd hn
    (P := PushedOnto s c o f) fun u beside bare =>
      have ⟨d, eq, data⟩ := pushEff_says (r := r) beside push tensor found
      ⟨_, ⟨d, rfl, fun none => data none (bare none)⟩, eq⟩
  exact ⟨t, run, recd, d, is, fun still => data still.objs⟩

/-- A command that pushes nothing has no effect on flights. -/
theorem pushEff_of_no_push {c : Cmd} (h : c.flPush = none) (s u : State) (r : Stg) : pushEff u (atCommit s (withRun c r)) = u := by
  have same : (atCommit s (withRun c r)).flPush = none := h
  unfold pushEff
  rw [same]

/-- What a pop leaves of a flight: without its top entry, and where the new top entry is spilled, with the spilled entries back that the
basin holds (R106). -/
def Flight.popped (f : Flight) : Flight :=
  if f.entries.tail.head?.any FlightEntry.spilled then
    { f with entries := unspill (f.basinSize - flBasin { f with entries := f.entries.tail }) f.entries.tail }
  else { f with entries := f.entries.tail }

theorem popEff_says {s u : State} {c : Cmd} {r : Stg} {f : Flight} (beside : Beside s u) (found : tfind s.flights (flightAddr c.pkt) = some f) :
    popEff u (atCommit s (withRun c r)) = putFlight u (flightAddr c.pkt) f.popped := by
  have same : tfind u.flights (flightAddr (atCommit s (withRun c r)).pkt) = some f := by rw [beside.flights]; exact found
  unfold popEff Flight.popped
  dsimp only
  rw [same]
  dsimp only
  cases f.entries.tail with
  | nil => rfl
  | cons e es => rw [List.head?_cons, Option.any_some]; rfl

/-- A pop changes nothing of a flight but its entries. -/
theorem Flight.popped_fields (f : Flight) : { f.popped with entries := f.entries } = f := by
  unfold Flight.popped
  split <;> rfl

/-- A pop takes the top entry away and no byte of any other. -/
theorem Flight.popped_data (f : Flight) : f.popped.data = f.data.tail := by
  unfold Flight.popped Flight.data
  rw [← List.map_tail]
  split
  · exact unspill_data _ _
  · rfl

/-- A pop brings back no more than the basin holds. -/
theorem Flight.popped_fits {f : Flight} (fits : flBasin f ≤ f.basinSize) : flBasin f.popped ≤ f.popped.basinSize := by
  have tail := (flBasin_tail f).trans fits
  unfold Flight.popped
  split
  · calc flBasin { f with entries := unspill (f.basinSize - flBasin { f with entries := f.entries.tail }) f.entries.tail }
      _ ≤ flBasin { f with entries := f.entries.tail } + (f.basinSize - flBasin { f with entries := f.entries.tail }) := unspill_basin _ _
      _ = f.basinSize := Nat.add_sub_cancel' tail
  · exact tail

/-- A pop to a resident entry, or to none, brings nothing back. -/
theorem Flight.popped_entries_of_resident {f : Flight} (resident : ∀ e ∈ f.entries.tail.head?, e.spilled = false) :
    f.popped.entries = f.entries.tail := by
  have stays : ¬ f.entries.tail.head?.any FlightEntry.spilled = true := by
    rw [Option.any_eq_true]
    rintro ⟨e, top, spilled⟩
    exact Bool.false_ne_true ((resident e top).symm.trans spilled)
  unfold Flight.popped
  rw [if_neg stays]

/-- A control block that FLIGHT_INIT takes is of an empty flight of its job (R100). -/
theorem flightOf_empty {job a : Nat} {bs : List Byte} {f : Flight} (h : flightOf job a bs = some f) : f.entries = [] ∧ f.high = 0 ∧ f.job = job := by
  unfold flightOf at h
  dsimp only at h
  split at h
  · cases h
    exact ⟨rfl, rfl, rfl⟩
  · cases h

theorem initEff_says {s u : State} {c : Cmd} {r : Stg} {f : Flight} (h : flightOf c.pkt.job (flightAddr c.pkt) (memRead c.snapMem (flightAddr c.pkt) 64) = some f) :
    initEff u (atCommit s (withRun c r)) = putFlight u (flightAddr c.pkt) f := by
  have same : flightOf (atCommit s (withRun c r)).pkt.job (flightAddr (atCommit s (withRun c r)).pkt)
      (memRead (atCommit s (withRun c r)).snapMem (flightAddr (atCommit s (withRun c r)).pkt) 64) = some f := h
  unfold initEff
  dsimp only
  rw [same]
  rfl

end Sys2Proof.Machine
end

section
/-! Flights are stacks of what is pushed (R85, R99 to R106). -/

namespace Sys2Proof.Machine

theorem flightPush_commits {s : State} {cid a n : Nat} {c : Cmd} {o : Opnd} {f : Flight} (h : RingRuns s cid 0x10C c) (push : c.flPush = some (a, n))
    (tensor : pushOpnd c = some o) (found : tfind s.flights a = some f) :
    ∃ t, execFlightPush cid s = .next t ∧ Recorded s cid c Stg.none t ∧ Pushed s c a o f s.mem t :=
  runOp_pushes h (by rfl) near_none push tensor found

theorem fwd_commits {s : State} {cid : Nat} {c : Cmd} {r : Stg} (h : RingRuns s cid 0x101 c) (done : meProduct 0x01 s c = .done r) (near : Near r)
    (noPush : c.flPush = none) :
    ∃ t, execFwd cid s = .next t ∧ Recorded s cid c r t ∧ Beside s t ∧ (Still s → t.mem = published s.mem r.writes ∧ t.host = s.host) :=
  plain_row h done near fun u => pushEff_of_no_push noPush s u r

theorem fwd_pushes {s : State} {cid a n : Nat} {c : Cmd} {r : Stg} {o : Opnd} {f : Flight} (h : RingRuns s cid 0x101 c)
    (done : meProduct 0x01 s c = .done r) (near : Near r) (push : c.flPush = some (a, n)) (tensor : pushOpnd c = some o) (found : tfind s.flights a = some f) :
    ∃ t, execFwd cid s = .next t ∧ Recorded s cid c r t ∧ Pushed s c a o f (published s.mem r.writes) t :=
  runOp_pushes h done near push tensor found

theorem flightPop_commits {s : State} {cid : Nat} {c : Cmd} {f : Flight} (h : RingRuns s cid 0x10D c) (found : tfind s.flights (flightAddr c.pkt) = some f)
    (free : topRead s (flightAddr c.pkt) f = false) :
    ∃ t, execFlightPop cid s = .next t ∧ Recorded s cid c Stg.none t ∧ FlightIs s t s.mem (flightAddr c.pkt) f.popped :=
  runOp_sets_flight h (by simp [found, free]) near_none fun _ beside => popEff_says beside found

theorem flightPop_waits {s : State} {cid : Nat} {c : Cmd} {f : Flight} (h : RingRuns s cid 0x10D c) (found : tfind s.flights (flightAddr c.pkt) = some f)
    (read : topRead s (flightAddr c.pkt) f = true) : ∃ t, execFlightPop cid s = .next t ∧ StillRuns s t cid c :=
  hold_row h (by simp [found, read])

theorem flightInit_commits {s : State} {cid : Nat} {c : Cmd} {f : Flight} (h : RingRuns s cid 0x10E c)
    (block : flightOf c.pkt.job (flightAddr c.pkt) (memRead c.snapMem (flightAddr c.pkt) 64) = some f) :
    ∃ t, execFlightInit cid s = .next t ∧ Recorded s cid c Stg.none t ∧ FlightIs s t s.mem (flightAddr c.pkt) f :=
  runOp_sets_flight h (by rfl) near_none fun _ _ => initEff_says block

/-- Settles O20, row by row: a push, a pop and an activation each commit by setting their one flight; a FWD that pushes nothing commits its product
alone; and a pop of an entry that is still read goes on running. -/
theorem flightsHoldWhatIsPushed : Obligations.FlightsHoldWhatIsPushed := by
  unfold Obligations.FlightsHoldWhatIsPushed
  intro s cid c
  refine ⟨fun h a n o f => flightPush_commits h, fun h r done near => ⟨fwd_commits h done near, fun a n o f => fwd_pushes h done near⟩,
    fun h f found => ⟨fun free => ?_, flightPop_waits h found⟩, fun h f block => ?_⟩
  · obtain ⟨t, run, recd, is⟩ := flightPop_commits h found free
    exact ⟨t, f.popped, run, recd, is, f.popped_fields, f.popped_data, Flight.popped_fits, Flight.popped_entries_of_resident⟩
  · obtain ⟨t, run, recd, is⟩ := flightInit_commits h block
    exact ⟨t, run, recd, is, flightOf_empty block⟩

end Sys2Proof.Machine
end

section
/-! Factor sets: what their operations leave of a set's control block and of memory (R113, R118 to R120). -/

namespace Sys2Proof.Machine

/-- While nothing observes, no byte but the Module fields of the control block at `a` changes, and nothing begins to observe (R113). -/
def QuietBeside (a : Nat) (s t : State) : Prop :=
  Still s → t.host = s.host ∧ Still t ∧ ∀ x, (x < a ∨ (a + 2 ≤ x ∧ x < a + 84) ∨ a + 100 ≤ x) → memByte t.mem x = memByte s.mem x

theorem Quiet.quietBeside {s t : State} (h : Quiet s t) (a : Nat) : QuietBeside a s t := fun i =>
  have ⟨mem, host, still⟩ := h i
  ⟨host, still, fun _ _ => by rw [mem]⟩

theorem QuietBeside.trans {a : Nat} {s u t : State} (h : QuietBeside a s u) (g : QuietBeside a u t) : QuietBeside a s t := fun i =>
  have ⟨host, still, mem⟩ := h i
  have ⟨host', still', mem'⟩ := g still
  ⟨host'.trans host, still', fun x hx => (mem' x hx).trans (mem x hx)⟩

theorem QuietBeside.onlyBlock {a : Nat} {s t : State} (h : QuietBeside a s t) : OnlyBlock s t a := fun i =>
  have ⟨host, _, mem⟩ := h i
  ⟨host, mem⟩

theorem putFset_quietBeside (s : State) (a : Nat) (f : Fset) : QuietBeside a s (putFset s a f) := fun i =>
  have ⟨host, still, mem⟩ := putFset_mem s a f
  ⟨host, still i, mem⟩

theorem putFset_here (s : State) (a : Nat) (f : Fset) : tfind (putFset s a f).fsets a = some f :=
  (tfind_tput ..).trans (if_pos rfl)

theorem putFset_others (s : State) {a b : Nat} (f : Fset) (ne : b ≠ a) : tfind (putFset s a f).fsets b = tfind s.fsets b :=
  (tfind_tput ..).trans (if_neg ne.symm)

theorem fsetAddr_of {s u : State} (h : Beside s u) (p : Packet) : fsetAddr u p = fsetAddr s p :=
  congrArg GAddr.off (localise_of h _)

/-- A set that has been set, before any refresh of it is issued. -/
theorem issued_putFset {s u : State} (a sess : Nat) (f : Fset) (beside : Beside s u) : Issued s (putFset u a f) a sess f f [] 0 where
  frame := by simpa using putFset_beside a f beside
  here := putFset_here u a f
  others b ne := (putFset_others u f ne).trans (by rw [beside.fsets])
  fields := rfl
  skipped small := (Nat.mod_eq_of_lt small).symm
  own _ listed := absurd listed List.not_mem_nil

/-- What issued refreshes come to stands after whatever leaves commands and sets alone. -/
theorem Issued.beside {s w v : State} {a sess skips : Nat} {f f' : Fset} {new : List Cmd} (h : Issued s w a sess f f' new skips) (b : Beside w v) :
    Issued s v a sess f f' new skips where
  frame := by rw [b.fsets]; exact h.frame.trans b
  here := by rw [b.fsets]; exact h.here
  others := by rw [b.fsets]; exact h.others
  fields := h.fields
  skipped := h.skipped
  own := h.own

/-- The refreshes of a set's blocks are issued in `v` from `u` where they are due, and else none are (R118 to R120, R143, R145). -/
def RefreshesIn (s u v : State) (a sess : Nat) (due : Prop) (f : Fset) : Prop :=
  ∃ f' new skips, Issued s v a sess f f' new skips ∧ QuietBeside a u v ∧ (¬ due → new = [] ∧ skips = 0) ∧
    (due → (∃ x ∈ s.cmds, x.pkt.clsOp = 0x301 ∧ fsetAddr s x.pkt = a) ∨ new.length + skips = (fsetBlocks f).length)

theorem refreshesIn_of_due {s u : State} {a sess : Nat} {due : Prop} {f : Fset} (start : Issued s u a sess f f [] 0) (h : due) :
    RefreshesIn s u (issueRefreshes u a sess) a sess due f :=
  have ⟨f', new, skips, issued, each, host, still, mem⟩ := issueRefreshes_says start
  ⟨f', new, skips, issued, fun i => ⟨host, still i, mem⟩, fun no => absurd h no, fun _ => each⟩

theorem refreshesIn_of_not_due {s u : State} {a sess : Nat} {due : Prop} {f : Fset} (start : Issued s u a sess f f [] 0) (h : ¬ due) :
    RefreshesIn s u u a sess due f :=
  ⟨f, [], 0, start, (Quiet.refl u).quietBeside a, fun _ => ⟨rfl, rfl⟩, fun yes => absurd yes h⟩

theorem RefreshesIn.after {s u v w : State} {a sess : Nat} {due : Prop} {f : Fset} (h : RefreshesIn s u v a sess due f) (b : Beside v w) (q : Quiet v w) :
    RefreshesIn s u w a sess due f :=
  have ⟨f', new, skips, issued, quiet, no, each⟩ := h
  ⟨f', new, skips, issued.beside b, quiet.trans (q.quietBeside a), no, each⟩

theorem RefreshesIn.before {s u v w : State} {a sess : Nat} {due : Prop} {f : Fset} (h : RefreshesIn s v w a sess due f) (q : QuietBeside a u v) :
    RefreshesIn s u w a sess due f :=
  have ⟨f', new, skips, issued, quiet, no, each⟩ := h
  ⟨f', new, skips, issued, q.trans quiet, no, each⟩

/-- An operation whose own effect issues the refreshes of one set commits: its record stands, and so do the set and the refreshes. -/
theorem runOp_commits_refreshes {code cid a : Nat} {compute : State → Cmd → Out} {eff : State → Cmd → State} {s : State} {c : Cmd} {due : Prop} {f : Fset}
    (h : RingRuns s cid code c) (done : compute s c = .done Stg.none)
    (issues : ∀ u, Beside s u → RefreshesIn s u (eff u (atCommit s (withRun c Stg.none))) a c.sess due f) :
    ∃ t f' new skips, runOp code compute eff cid s = .next t ∧ Recorded s cid c Stg.none t ∧
      Beside { s with fsets := t.fsets, cmds := s.cmds ++ new, nextId := s.nextId + new.length } t ∧
      tfind t.fsets a = some f' ∧ (∀ b, b ≠ a → tfind t.fsets b = tfind s.fsets b) ∧ OnlyBlock s t a ∧ Refreshed s a c.sess due f f' new skips := by
  obtain ⟨u, t, run, beside, mem, quiet, -, rest⟩ := effect_row (eff := eff) h done near_none
  obtain ⟨f', new, skips, issued, block, no, each⟩ := issues u beside
  obtain ⟨frame, recd⟩ := rest _ (fun y hy => by rw [List.map_append]; exact List.mem_append_left _ hy)
    (by rw [List.map_append]; exact List.mem_append_left _ (findCmd_mem h.runs.1).2) issued.frame
  have sets : t.fsets = (eff u (atCommit s (withRun c Stg.none))).fsets := frame.fsets
  obtain ⟨here, others, refreshed⟩ := refreshed_of issued sets no each
  have before : Quiet s u := mem
  exact ⟨t, f', new, skips, run, recd, by rw [sets]; exact frame, here, others,
    (((before.quietBeside a).trans block).trans (quiet.quietBeside a)).onlyBlock, refreshed⟩

/-- A set with one step more (R119). -/
def Fset.stepped (f : Fset) : Fset := { f with step := (f.step + 1) % 2 ^ 32 }

/-- Is a step due that makes the refreshes of a set (R119)? -/
abbrev Fset.Due (f : Fset) : Prop := f.every ≠ 0 ∧ f.step % f.every = f.phase

/-- The refreshes of a set at a step: issued where it is due. -/
def issueDue (s : State) (a sess : Nat) (f : Fset) : State := if f.Due then issueRefreshes s a sess else s

/-- The events of the roots whose age has just passed the most that the set allows (R119). -/
def raiseAges (s : State) (a seq : Nat) (f : Fset) : State :=
  (fsetBlocks f).foldl (fun s b =>
    if rootAge s f b = f.maxAge + 1 then raise s (dieOfAddr a) 0x07 f.job f.layer seq (fDetail f b) (rootAge s f b) 0 else s) s

theorem raiseAges_beside (s : State) (a seq : Nat) (f : Fset) : Beside s (raiseAges s a seq f) :=
  Beside.foldl _ (Beside.refl s) fun _ _ h => Beside.ite (raise_beside _ _ _ _ _ _ _ _ _ h) h

theorem raiseAges_quiet (s : State) (a seq : Nat) (f : Fset) : Quiet s (raiseAges s a seq f) :=
  Quiet.foldl _ (Quiet.refl s) fun _ _ h => Quiet.ite (raise_quiet _ _ _ _ _ _ _ _ _ h) h

theorem issueDue_says {s u : State} {a sess : Nat} {f : Fset} (start : Issued s u a sess f f [] 0) : RefreshesIn s u (issueDue u a sess f) a sess f.Due f := by
  unfold issueDue
  split
  · next due => exact refreshesIn_of_due start due
  · next idle => exact refreshesIn_of_not_due start idle

theorem fsetAdvanceEff_of_found {u : State} {c : Cmd} {f : Fset} (found : tfind u.fsets (fsetAddr u c.pkt) = some f) :
    fsetAdvanceEff u c =
      if f.maxAge = 0 then issueDue (putFset u (fsetAddr u c.pkt) f.stepped) (fsetAddr u c.pkt) c.sess f.stepped
      else raiseAges (issueDue (putFset u (fsetAddr u c.pkt) f.stepped) (fsetAddr u c.pkt) c.sess f.stepped) (fsetAddr u c.pkt) c.pkt.seq f.stepped := by
  unfold fsetAdvanceEff
  dsimp only
  rw [found]
  rfl

/-- FSET_ADVANCE counts its step, makes the refreshes of a due step, and may raise events. -/
theorem fsetAdvanceEff_says {s u : State} {c : Cmd} {f : Fset} (beside : Beside s u) (found : tfind s.fsets (fsetAddr s c.pkt) = some f) :
    RefreshesIn s u (fsetAdvanceEff u c) (fsetAddr s c.pkt) c.sess f.stepped.Due f.stepped := by
  rw [fsetAdvanceEff_of_found (f := f) (by rw [beside.fsets, fsetAddr_of beside]; exact found), fsetAddr_of beside]
  have issues := (issueDue_says (issued_putFset (fsetAddr s c.pkt) c.sess f.stepped beside)).before (putFset_quietBeside u (fsetAddr s c.pkt) f.stepped)
  split
  · exact issues
  · exact issues.after (raiseAges_beside _ _ _ _) (raiseAges_quiet _ _ _ _)

theorem fsetRefreshEff_says {s u : State} {c : Cmd} {f : Fset} (beside : Beside s u) (found : tfind s.fsets (fsetAddr s c.pkt) = some f) :
    RefreshesIn s u (fsetRefreshEff u c) (fsetAddr s c.pkt) c.sess True f := by
  unfold fsetRefreshEff
  rw [fsetAddr_of beside]
  exact refreshesIn_of_due (issued_start beside found) trivial

/-- What FSET_INIT leaves in `v` from `u`: the set, and zeros in its blocks (R118). -/
structure ActivatedIn (s u v : State) (a : Nat) (f : Fset) : Prop where
  frame : Beside { s with fsets := v.fsets } v
  here : tfind v.fsets a = some f
  others : ∀ b, b ≠ a → tfind v.fsets b = tfind s.fsets b
  host : v.host = u.host
  still : Still u → Still v
  mem : ∀ x, (x < a ∨ (a + 2 ≤ x ∧ x < a + 84) ∨ a + 100 ≤ x) →
    ((∃ b ∈ fsetBlocks f, ofBlock f b x) → memByte v.mem x = 0) ∧ ((¬ ∃ b ∈ fsetBlocks f, ofBlock f b x) → memByte v.mem x = memByte u.mem x)

theorem fsetInitEff_says {s u : State} {c : Cmd} (beside : Beside s u) :
    ActivatedIn s u (fsetInitEff u c) (fsetAddr s c.pkt) (fsetRaw c.pkt.job (memRead c.snapMem (fsetAddr s c.pkt) 128)) := by
  unfold fsetInitEff
  dsimp only
  rw [fsetAddr_of beside]
  generalize fsetRaw c.pkt.job (memRead c.snapMem (fsetAddr s c.pkt) 128) = f
  obtain ⟨w, eq, zeroed, host, sets, still, zero⟩ := zeroBlocks_says (jobKey u c.sess c.pkt.job) f (fsetBlocks f) u
  obtain ⟨host', still', mem⟩ := putFset_mem w (fsetAddr s c.pkt) f
  rw [eq]
  exact
    { frame := putFset_beside _ f (zeroed s beside)
      here := putFset_here w _ f
      others := fun b ne => by rw [putFset_others w f ne, sets, beside.fsets]
      host := host'.trans host
      still := fun i => still' (still i)
      mem := fun x hx => by rw [mem x hx]; exact zero x }

end Sys2Proof.Machine
end

section
/-! Factor sets are initialised, advanced and refreshed (R118 to R120). -/

namespace Sys2Proof.Machine

/-- Does an FSET_INIT wait for root commands: those that name a root of the set as it will be, or as it is (R118)? -/
def rootsAwaited (s : State) (c : Cmd) : Bool :=
  rootsBusy s (fsetAddr s c.pkt) (fsetRaw c.pkt.job (memRead c.snapMem (fsetAddr s c.pkt) 128)) (rootOuts s) ||
    (match tfind s.fsets (fsetAddr s c.pkt) with | some g => rootsBusy s (fsetAddr s c.pkt) g (rootOuts s) | none => false)

theorem fsetInit_waits {s : State} {cid : Nat} {c : Cmd} (h : RingRuns s cid 0x301 c) (busy : rootsAwaited s c = true) :
    ∃ t, execFsetInit cid s = .next t ∧ StillRuns s t cid c :=
  hold_row h (if_pos busy)

theorem fsetInit_commits {s : State} {cid : Nat} {c : Cmd} (h : RingRuns s cid 0x301 c) (free : rootsAwaited s c = false) :
    ∃ t v u, execFsetInit cid s = .next t ∧ Recorded s cid c Stg.none t ∧ Beside { s with fsets := v.fsets } t ∧ Quiet s u ∧ Quiet v t ∧
      ActivatedIn s u v (fsetAddr s c.pkt) (fsetRaw c.pkt.job (memRead c.snapMem (fsetAddr s c.pkt) 128)) := by
  have idle : ¬ rootsAwaited s c = true := by rw [free]; exact Bool.false_ne_true
  obtain ⟨u, t, run, beside, mem, quiet, rest⟩ := effect_row_kept (compute := fun s c => if rootsAwaited s c = true then .hold c.aux else .done Stg.none) (eff := fsetInitEff) h
    (if_neg idle) near_none
  have activated := fsetInitEff_says (c := atCommit s (withRun c Stg.none)) beside
  obtain ⟨frame, recd⟩ := rest { s with fsets := (fsetInitEff u (atCommit s (withRun c Stg.none))).fsets } rfl activated.frame
  exact ⟨t, _, u, run, recd, frame, mem, quiet, activated⟩

theorem fsetAdvance_commits {s : State} {cid : Nat} {c : Cmd} {f : Fset} (h : RingRuns s cid 0x302 c) (found : tfind s.fsets (fsetAddr s c.pkt) = some f) :
    ∃ t f' new skips, execFsetAdvance cid s = .next t ∧ Recorded s cid c Stg.none t ∧
      Beside { s with fsets := t.fsets, cmds := s.cmds ++ new, nextId := s.nextId + new.length } t ∧
      tfind t.fsets (fsetAddr s c.pkt) = some f' ∧ (∀ b, b ≠ fsetAddr s c.pkt → tfind t.fsets b = tfind s.fsets b) ∧ OnlyBlock s t (fsetAddr s c.pkt) ∧
      Refreshed s (fsetAddr s c.pkt) c.sess f.stepped.Due f.stepped f' new skips :=
  runOp_commits_refreshes h rfl fun _ beside => fsetAdvanceEff_says (c := atCommit s (withRun c Stg.none)) beside found

theorem fsetRefresh_commits {s : State} {cid : Nat} {c : Cmd} {f : Fset} (h : RingRuns s cid 0x303 c) (found : tfind s.fsets (fsetAddr s c.pkt) = some f) :
    ∃ t f' new skips, execFsetRefresh cid s = .next t ∧ Recorded s cid c Stg.none t ∧
      Beside { s with fsets := t.fsets, cmds := s.cmds ++ new, nextId := s.nextId + new.length } t ∧
      tfind t.fsets (fsetAddr s c.pkt) = some f' ∧ (∀ b, b ≠ fsetAddr s c.pkt → tfind t.fsets b = tfind s.fsets b) ∧ OnlyBlock s t (fsetAddr s c.pkt) ∧
      Refreshed s (fsetAddr s c.pkt) c.sess True f f' new skips :=
  runOp_commits_refreshes h rfl fun _ beside => fsetRefreshEff_says (c := atCommit s (withRun c Stg.none)) beside found

/-- Settles O21, row by row: an FSET_INIT holds while root commands are awaited and else commits with its set activated; an advance and a refresh
each commit by the refreshes that they issue. -/
theorem factorSetsAdvanceAndRefresh : Obligations.FactorSetsAdvanceAndRefresh := by
  unfold Obligations.FactorSetsAdvanceAndRefresh
  intro s cid c
  refine ⟨?_, ?_, ?_⟩
  · rintro h a f busy rfl rfl rfl
    refine ⟨fsetInit_waits h, fun free => ?_⟩
    obtain ⟨t, v, u, run, recd, frame, before, after, activated⟩ := fsetInit_commits h free
    have sets : t.fsets = v.fsets := frame.fsets
    refine ⟨t, run, recd, by rw [sets]; exact frame, sets ▸ activated.here, rfl, rfl, rfl, rfl, fun b ne => sets ▸ activated.others b ne, fun still => ?_⟩
    obtain ⟨mem, host, still⟩ := before still
    obtain ⟨mem', host', -⟩ := after (activated.still still)
    refine ⟨host'.trans (activated.host.trans host), fun x hx => ?_⟩
    rw [mem', ← mem]
    exact activated.mem x hx
  · rintro h a f rfl found
    exact fsetAdvance_commits h found
  · rintro h a f rfl found
    exact fsetRefresh_commits h found

end Sys2Proof.Machine
end

section
/-! Root and solve commands: their rows go on or end uncorrected, and what a run at the deadline's time says of the state before it (R122, R138, R159, R166, R241). -/

namespace Sys2Proof.Machine

/-- What a command's end says of a state from which only a quiet step led to it. -/
theorem Ended.after_quiet {u v t : State} {c : Cmd} {st d : Nat} (h : Ended v t c st d) (contained : Contained u v) (beside : Beside u v) (quiet : Quiet u v) :
    Ended u t c st d := by
  have ring : ∀ k, getRing v k = getRing u k := fun k => by unfold getRing; rw [beside.rings]
  have place : ∀ r, replyAt v r = replyAt u r := fun r => by unfold replyAt; rw [ring]
  refine ⟨h.gone, h.ended, contained.trans h.rest, fun r origin reply near bound => ?_, fun r origin reply near still => ?_⟩
  · obtain ⟨here, others⟩ := h.ring r origin reply (by rw [ring]; exact near) (by rw [ring]; exact bound)
    exact ⟨by rw [here, ring], fun k ne => (others k ne).trans (ring k)⟩
  · obtain ⟨mem, host, still'⟩ := quiet still
    obtain ⟨host', mem', z, said⟩ := h.reply r origin reply (by rw [ring]; exact near) still'
    rw [place] at mem' said
    exact ⟨host'.trans host, fun a out => (mem' a out).trans (by rw [mem]), z, said⟩

theorem memError_quiet {s x : State} (die source job layer seq : Nat) (ses : Option Nat) (g : Nat) (h : Quiet s x) :
    Quiet s (memError x die source job layer seq ses g) := by
  have retires : ∀ (y : State) (a : Nat), Quiet s y → Quiet s (markRetired y a) := fun y a hy => by
    unfold markRetired
    exact Quiet.ite hy (raiseFor_quiet _ _ _ _ _ _ _ _ _ _ _ (Quiet.set hy))
  unfold memError
  extract_lets m m' counted fired raised
  have hc : Quiet s counted := Quiet.set h
  have hf : Quiet s fired := Quiet.ite (fire_quiet _ _ _ hc) hc
  have hr : Quiet s raised := raiseFor_quiet _ _ _ _ _ _ _ _ _ _ _ hf
  exact Quiet.ite (retires _ _ hr) hr

/-- A command that reads a poisoned unit ends ECC_UNCORRECTED (R241). -/
theorem eccEnd_ended (s : State) (c : Cmd) (u : Nat) : Ended s (eccEnd s c u) c stEcc 0 :=
  (endCmd_ended _ c stEcc 0).after_quiet (memError_contained _ _ _ _ _ _ _ _ (Contained.refl s)) (memError_beside _ _ _ _ _ _ _ _ (Beside.refl s))
    (memError_quiet _ _ _ _ _ _ _ (Quiet.refl s))

/-- A command whose engine's scratch fails ends ECC_UNCORRECTED (R122). -/
theorem scratchEnd_ended (s : State) (c : Cmd) : Ended s (scratchEnd s c) c stEcc 0 :=
  (endCmd_ended _ c stEcc 0).after_quiet (raiseCmd_contained _ _ _ _ _ _ (Contained.refl s)) (raiseCmd_beside _ _ _ _ (Beside.refl s))
    (raiseCmd_quiet _ _ _ _ _ _ (Quiet.refl s))

section
variable {code cid : Nat} {reads : State → Cmd → List (GAddr × Nat)} {compute : State → Cmd → Out} {eff : State → Cmd → State} {s : State} {c : Cmd}

/-- The row of a root or solve command in a state in which it runs. -/
theorem runProblems_of_runs (h : Runs s cid code c) : runProblems code reads compute eff cid s =
    if c.scratchUe then .next (scratchEnd s c)
    else match poisonAmong s c (reads s c) with
      | some u => .next (eccEnd s c u)
      | none => runOp code compute eff cid s := by
  obtain ⟨found, running, op⟩ := h
  unfold runProblems
  rw [found]
  exact if_pos ⟨running, op⟩

theorem runProblems_clean (h : Runs s cid code c) (clean : Clean s c (reads s c)) : runProblems code reads compute eff cid s = runOp code compute eff cid s := by
  obtain ⟨scratch, poison⟩ := clean
  rw [runProblems_of_runs h, scratch, poison]
  rfl

theorem runProblems_unclean (h : Runs s cid code c) (unclean : c.scratchUe = true ∨ (poisonAmong s c (reads s c)).isSome = true) :
    ∃ t, runProblems code reads compute eff cid s = .next t ∧ Ended s t c stEcc 0 := by
  rw [runProblems_of_runs h]
  by_cases scratch : c.scratchUe = true
  · rw [if_pos scratch]
    exact ⟨_, rfl, scratchEnd_ended s c⟩
  · obtain ⟨u, poison⟩ := Option.isSome_iff_exists.mp (unclean.resolve_left scratch)
    rw [if_neg scratch, poison]
    exact ⟨_, rfl, eccEnd_ended s c u⟩

end

/-- `w` serves every operand where `s` does, and reads the same tables, sets and poison: what the passing of device time leaves (R24, R216). -/
structure Serves (s w : State) : Prop where
  cfg : w.cfg = s.cfg
  objs : w.objs = s.objs
  fsets : w.fsets = s.fsets
  poison : w.poison = s.poison

theorem timeTo_serves (s : State) (T : Nat) : Serves s (timeTo s T) :=
  have m := timeTo_says s T
  ⟨m.cfg, m.objs, m.fsets, m.poison⟩

theorem Runs.timeTo {s : State} {cid code : Nat} {c : Cmd} (h : Runs s cid code c) (T : Nat) : Runs (timeTo s T) cid code c := by
  obtain ⟨found, rest⟩ := h
  refine ⟨?_, rest⟩
  unfold findCmd at found ⊢
  rw [(timeTo_says s T).cmds]
  exact found

section
variable {s w : State} (h : Serves s w)
include h

theorem Serves.resolve (c : Cmd) (g : GAddr) (n : Nat) : resolve w c g n = resolve s c g n := resolve_congr h.cfg h.objs c g n

theorem Serves.localise (g : GAddr) : localise w g = localise s g := localise_congr h.cfg g

theorem Serves.rootJob (c : Cmd) : rootJob w c = rootJob s c := rootJob_congr h.cfg h.objs h.fsets c

theorem Serves.solveJob (c : Cmd) : solveJob w c = solveJob s c := solveJob_congr h.cfg h.objs c

theorem Serves.clean {c : Cmd} {reads : List (GAddr × Nat)} (clean : Clean s c reads) : Clean w c reads := by
  obtain ⟨scratch, poison⟩ := clean
  refine ⟨scratch, ?_⟩
  unfold poisonAmong poisonedIn at poison ⊢
  simp only [h.resolve, h.poison]
  exact poison

theorem Serves.rootHome {ps : List RootProb} (home : RootHome s ps) : RootHome w ps := by
  unfold RootHome
  simp only [h.localise]
  exact home

theorem Serves.solveHome {ps : List SolveProb} (home : SolveHome s ps) : SolveHome w ps := by
  unfold SolveHome
  simp only [h.localise]
  exact home

theorem Serves.entryAt {c : Cmd} {r : Stg} {at_ status : Nat} (entry : EntryAt w c r at_ status) : EntryAt s c r at_ status := by
  unfold EntryAt at entry ⊢
  rw [← h.resolve]
  exact entry

theorem Serves.entryOf {c : Cmd} {r : Stg} {no at_ out : Nat} (entry : EntryOf w c r no at_ out) : EntryOf s c r no at_ out := by
  obtain unfinished | ⟨st, entry, wr, written, place⟩ := entry
  · exact .inl (h.entryAt unfinished)
  · exact .inr ⟨st, h.entryAt entry, wr, written, by rw [place, h.resolve, h.localise]⟩

end

section
variable {code cid : Nat} {reads : State → Cmd → List (GAddr × Nat)} {compute : State → Cmd → Out} {eff : State → Cmd → State} {s : State} {c : Cmd} {r : Stg}

theorem runProblems_waits (h : RingRuns s cid code c) (clean : Clean s c (reads s c)) (held : compute s c = .hold c.aux) :
    ∃ t, runProblems code reads compute eff cid s = .next t ∧ StillRuns s t cid c := by
  rw [runProblems_clean h.runs clean]
  exact hold_row h held

theorem runProblems_commits (h : RingRuns s cid code c) (clean : Clean s c (reads s c)) (done : compute s c = .done r) (near : Near r)
    (alone : ∀ u, eff u (atCommit s (withRun c r)) = u) :
    ∃ t, runProblems code reads compute eff cid s = .next t ∧ Recorded s cid c r t ∧ Beside s t ∧
      (Still s → t.mem = published s.mem r.writes ∧ t.host = s.host) := by
  rw [runProblems_clean h.runs clean]
  exact plain_row h done near alone

/-- The same where device time first reaches `T`. -/
theorem runProblems_commits_at {T : Nat} (h : RingRuns s cid code c) (clean : Clean s c (reads s c)) (same : reads (timeTo s T) c = reads s c)
    (done : compute (timeTo s T) c = .done r) (near : Near r) (alone : ∀ s u, eff u (atCommit s (withRun c r)) = u) :
    ∃ t, runProblems code reads compute eff cid (timeTo s T) = .next t ∧ t.time = max s.time T ∧ Recorded { s with time := t.time } cid c r t ∧
      Beside { s with time := t.time } t ∧ (Still s → t.mem = published s.mem r.writes ∧ t.host = s.host) := by
  rw [runProblems_clean (h.runs.timeTo T) (by rw [same]; exact (timeTo_serves s T).clean clean)]
  exact timed_row h done near alone

end

/-- A problem before the one that a deadline meets has ended by itself, and no other has. -/
theorem reachOf_ne_all {c : Cmd} {d iters k : Nat} {started : Bool} (h : reached c d ≤ k) : reachOf c d iters started k ≠ .all := by
  unfold reachOf
  dsimp only
  rw [if_neg (Nat.not_lt.mpr h)]
  split <;> exact Reach.noConfusion

/-- A problem after the one that a deadline meets has not begun. -/
theorem reachOf_none {c : Cmd} {d iters k : Nat} {started : Bool} (h : reached c d < k) : reachOf c d iters started k = .none := by
  unfold reachOf
  dsimp only
  rw [if_neg (Nat.not_lt.mpr h.le), if_neg h.ne']

end Sys2Proof.Machine
end

section
/-! Root commands end with a result for each problem (R122, R137, R138, R140). -/

namespace Sys2Proof.Machine

/-- Every problem of a root command has its result entry, and its output if it is finished (R137). -/
abbrev RootEntries (s : State) (c : Cmd) (r : Stg) (ps : List RootProb) : Prop := ∀ p ∈ ps, EntryOf s c r stIncomplete p.resAt p.output

section
variable {op cid : Nat} {s : State} {c : Cmd} {q : RootPar} {ps : List RootProb}

theorem rootWhole_eq (job : rootJob s c = some (q, ps)) :
    rootWhole op s c = if deadlinePast s q.deadline c.started then .hold c.aux else rootRun op (fun _ => .all) s c := by
  unfold rootWhole
  rw [job]

theorem rootWhole_waits {reads} (h : RingRuns s cid (0x400 + op) c) (clean : Clean s c (reads s c)) (job : rootJob s c = some (q, ps))
    (past : deadlinePast s q.deadline c.started = true) :
    ∃ t, runProblems (0x400 + op) reads (rootWhole op) rootEff cid s = .next t ∧ StillRuns s t cid c :=
  runProblems_waits h clean (by rw [rootWhole_eq job, if_pos past])

theorem rootWhole_commits {reads} (h : RingRuns s cid (0x400 + op) c) (clean : Clean s c (reads s c)) (job : rootJob s c = some (q, ps))
    (early : deadlinePast s q.deadline c.started = false) (home : RootHome s ps) :
    ∃ t r, runProblems (0x400 + op) reads (rootWhole op) rootEff cid s = .next t ∧ Recorded s cid c r t ∧ Beside s t ∧
      (Still s → t.mem = published s.mem r.writes ∧ t.host = s.host) ∧
      (r.status = stDone ∨ r.status = stIncomplete ∨ r.status = stIll) ∧ RootEntries s c r ps := by
  obtain ⟨k, ring⟩ := h.ring
  obtain ⟨r, run, near, status, entries, -⟩ := rootRun_says op (fun _ => .all) job home
  have whole : rootWhole op s c = .done r := by rw [rootWhole_eq job, early]; exact run
  obtain ⟨t, next, recd, beside, mem⟩ := runProblems_commits h clean whole near fun u => rootEff_ring u _ k ring
  exact ⟨t, r, next, recd, beside, mem, status, entries⟩

theorem execRootDeadline_eq {done iters : Nat} {started : Bool} (found : findCmd s cid = some c) (running : c.phase = .running) (cls : c.pkt.cls = 4)
    (job : rootJob s c = some (q, ps)) (deadline : q.deadline ≠ 0) :
    execRootDeadline cid done iters started s = runProblems c.pkt.clsOp (rootToRead (if started then done + 1 else done))
      (rootRun c.pkt.op (reachOf c done iters started)) rootEff cid (timeTo s (q.deadline + 3)) := by
  unfold execRootDeadline
  rw [found]
  dsimp only
  rw [job]
  exact if_pos ⟨running, cls, deadline⟩

/-- At its deadline a root command commits what is finished; every other problem is INCOMPLETE (R138). -/
theorem rootDeadline_commits {d iters : Nat} {started : Bool} (h : RingRuns s cid c.pkt.clsOp c) (cls : c.pkt.cls = 4)
    (clean : Clean s c (rootToRead (if started then d + 1 else d) s c)) (job : rootJob s c = some (q, ps)) (deadline : q.deadline ≠ 0) (home : RootHome s ps) :
    ∃ t r, execRootDeadline cid d iters started s = .next t ∧ t.time = max s.time (q.deadline + 3) ∧
      Recorded { s with time := t.time } cid c r t ∧ Beside { s with time := t.time } t ∧
      (Still s → t.mem = published s.mem r.writes ∧ t.host = s.host) ∧ RootEntries s c r ps ∧
      ∀ k p, ps[k]? = some p → reached c d ≤ k → EntryAt s c r p.resAt stIncomplete ∧ r.status = stIncomplete := by
  obtain ⟨found, running, -⟩ := h.runs
  obtain ⟨k, ring⟩ := h.ring
  have serves := timeTo_serves s (q.deadline + 3)
  obtain ⟨r, run, near, -, entries, unfinished⟩ :=
    rootRun_says c.pkt.op (reachOf c d iters started) ((serves.rootJob c).trans job) (serves.rootHome home)
  have same : rootToRead (if started then d + 1 else d) (timeTo s (q.deadline + 3)) c = rootToRead (if started then d + 1 else d) s c := by
    unfold rootToRead
    rw [serves.rootJob]
  obtain ⟨t, next, time, recd, beside, mem⟩ := runProblems_commits_at h clean same run near fun _ u => rootEff_ring u _ k ring
  rw [execRootDeadline_eq found running cls job deadline]
  refine ⟨t, r, next, time, recd, beside, mem, fun p hp => serves.entryOf (entries p hp), fun k p hk late => ?_⟩
  obtain ⟨entry, status⟩ := unfinished k p hk (reachOf_ne_all late)
  exact ⟨serves.entryAt entry, status⟩

end

/-- Settles O22: a root command that runs to its end holds once its deadline has passed and else commits its problems' entries; at its deadline it
commits them with what is not finished INCOMPLETE; unclean, it ends by the shared row of the root and solve commands. -/
theorem rootCommandsPublishWhatIsFinished : Obligations.RootCommandsPublishWhatIsFinished := by
  unfold Obligations.RootCommandsPublishWhatIsFinished
  intro s cid c
  refine ⟨fun op i row h => ?_, fun d iters started h cls clean q ps job deadline home => ?_⟩
  · have runs : exec i s = runProblems (0x400 + op) (rootToRead maxProblems) (rootWhole op) rootEff cid s := by
      simp only [List.mem_cons, Prod.mk.injEq, List.not_mem_nil, or_false] at row
      obtain ⟨rfl, rfl⟩ | ⟨rfl, rfl⟩ | ⟨rfl, rfl⟩ := row <;> rfl
    unfold EndsUnclean
    rw [runs]
    exact ⟨runProblems_unclean h.runs, fun clean q ps job => ⟨rootWhole_waits h clean job, rootWhole_commits h clean job⟩⟩
  · obtain ⟨t, r, next, time, recd, beside, mem, entries, unfinished⟩ := rootDeadline_commits h cls clean job deadline home
    refine ⟨t, r, next, time, recd, beside, mem, fun more => ?_, fun k p hk => ⟨entries p (List.mem_of_getElem? hk), fun late => (unfinished k p hk late).1⟩⟩
    exact (unfinished _ _ (List.getElem?_eq_getElem more) le_rfl).2

end Sys2Proof.Machine
end

section
/-! Solve commands end with a result for each problem (R122, R159 to R162, R166). -/

namespace Sys2Proof.Machine

/-- Every problem of a solve command has its result entry, and its solution if it started (R160). -/
abbrev SolveEntries (s : State) (c : Cmd) (r : Stg) (ps : List SolveProb) : Prop := ∀ p ∈ ps, EntryOf s c r stDeadline p.resAt p.x

section
variable {op cid : Nat} {s : State} {c : Cmd} {q : SolvePar} {ps : List SolveProb}

theorem solveWhole_eq (job : solveJob s c = (q, ps)) :
    solveWhole op s c = if deadlinePast s q.deadline c.started then .hold c.aux else solveRun op (fun _ => .all) s c := by
  unfold solveWhole
  rw [job]

theorem solveWhole_waits {reads} (h : RingRuns s cid (0x500 + op) c) (clean : Clean s c (reads s c)) (job : solveJob s c = (q, ps))
    (past : deadlinePast s q.deadline c.started = true) :
    ∃ t, runProblems (0x500 + op) reads (solveWhole op) noEffect cid s = .next t ∧ StillRuns s t cid c :=
  runProblems_waits h clean (by rw [solveWhole_eq job, if_pos past])

theorem solveWhole_commits {reads} (h : RingRuns s cid (0x500 + op) c) (clean : Clean s c (reads s c)) (job : solveJob s c = (q, ps))
    (early : deadlinePast s q.deadline c.started = false) (home : SolveHome s ps) :
    ∃ t r, runProblems (0x500 + op) reads (solveWhole op) noEffect cid s = .next t ∧ Recorded s cid c r t ∧ Beside s t ∧
      (Still s → t.mem = published s.mem r.writes ∧ t.host = s.host) ∧
      (r.status = stDone ∨ r.status = stDeadline ∨ r.status = stIll) ∧ SolveEntries s c r ps := by
  obtain ⟨r, run, near, status, entries, -⟩ := solveRun_says op (fun _ => .all) job home
  have whole : solveWhole op s c = .done r := by rw [solveWhole_eq job, early]; exact run
  obtain ⟨t, next, recd, beside, mem⟩ := runProblems_commits (eff := noEffect) h clean whole near fun _ => rfl
  exact ⟨t, r, next, recd, beside, mem, status, entries⟩

theorem execSolveDeadline_eq {done iters : Nat} {started : Bool} (found : findCmd s cid = some c) (running : c.phase = .running) (cls : c.pkt.cls = 5)
    (job : solveJob s c = (q, ps)) (deadline : q.deadline ≠ 0) :
    execSolveDeadline cid done iters started s = runProblems c.pkt.clsOp (solveToRead (if started then done + 1 else done))
      (solveRun c.pkt.op (reachOf c done iters started)) noEffect cid (timeTo s (q.deadline + 3)) := by
  unfold execSolveDeadline
  rw [found]
  dsimp only
  rw [job]
  exact if_pos ⟨running, cls, deadline⟩

/-- At its deadline a solve command commits what is found; a problem that has not started publishes its entry alone (R159, R160). -/
theorem solveDeadline_commits {d iters : Nat} {started : Bool} (h : RingRuns s cid c.pkt.clsOp c) (cls : c.pkt.cls = 5)
    (clean : Clean s c (solveToRead (if started then d + 1 else d) s c)) (job : solveJob s c = (q, ps)) (deadline : q.deadline ≠ 0) (home : SolveHome s ps) :
    ∃ t r, execSolveDeadline cid d iters started s = .next t ∧ t.time = max s.time (q.deadline + 3) ∧
      Recorded { s with time := t.time } cid c r t ∧ Beside { s with time := t.time } t ∧
      (Still s → t.mem = published s.mem r.writes ∧ t.host = s.host) ∧ SolveEntries s c r ps ∧
      ∀ k p, ps[k]? = some p → reached c d < k → EntryAt s c r p.resAt stDeadline ∧ r.status = stDeadline := by
  obtain ⟨found, running, -⟩ := h.runs
  have serves := timeTo_serves s (q.deadline + 3)
  obtain ⟨r, run, near, -, entries, unstarted⟩ :=
    solveRun_says c.pkt.op (reachOf c d iters started) ((serves.solveJob c).trans job) (serves.solveHome home)
  have same : solveToRead (if started then d + 1 else d) (timeTo s (q.deadline + 3)) c = solveToRead (if started then d + 1 else d) s c := by
    unfold solveToRead
    rw [serves.solveJob]
  obtain ⟨t, next, time, recd, beside, mem⟩ := runProblems_commits_at (eff := noEffect) h clean same run near fun _ _ => rfl
  rw [execSolveDeadline_eq found running cls job deadline]
  refine ⟨t, r, next, time, recd, beside, mem, fun p hp => serves.entryOf (entries p hp), fun k p hk late => ?_⟩
  obtain ⟨entry, status⟩ := unstarted k p hk (reachOf_none late)
  exact ⟨serves.entryAt entry, status⟩

end

/-- Settles O23: a solve command that runs to its end holds once its deadline has passed and else commits its problems' entries; at its deadline it
commits them with DEADLINE alone for what has not started; unclean, it ends by the shared row of the root and solve commands. -/
theorem solveCommandsPublishWhatIsFound : Obligations.SolveCommandsPublishWhatIsFound := by
  unfold Obligations.SolveCommandsPublishWhatIsFound
  intro s cid c
  refine ⟨fun op i row h => ?_, fun d iters started h cls clean q ps job deadline home => ?_⟩
  · have runs : exec i s = runProblems (0x500 + op) (solveToRead maxProblems) (solveWhole op) noEffect cid s := by
      simp only [List.mem_cons, Prod.mk.injEq, List.not_mem_nil, or_false] at row
      obtain ⟨rfl, rfl⟩ | ⟨rfl, rfl⟩ | ⟨rfl, rfl⟩ := row <;> rfl
    unfold EndsUnclean
    rw [runs]
    exact ⟨runProblems_unclean h.runs, fun clean q ps job => ⟨solveWhole_waits h clean job, solveWhole_commits h clean job⟩⟩
  · obtain ⟨t, r, next, time, recd, beside, mem, entries, unstarted⟩ := solveDeadline_commits h cls clean job deadline home
    refine ⟨t, r, next, time, recd, beside, mem, fun more => ?_, fun k p hk => ⟨entries p (List.mem_of_getElem? hk), fun late => (unstarted k p hk late).1⟩⟩
    exact (unstarted _ _ (List.getElem?_eq_getElem more) (Nat.lt_succ_self _)).2

end Sys2Proof.Machine
end

section
/-! Shards: what an operation that sets one shard leaves of memory and of the other shards (R171 to R173, R183). -/

namespace Sys2Proof.Machine

theorem shardAddr_of {s u : State} (h : Beside s u) (p : Packet) : shardAddr u p = shardAddr s p :=
  congrArg GAddr.off (localise_of h _)

/-- A shard that has been set stands after whatever changes no shard. -/
theorem ShardIs.after {s w v : State} {a : Nat} {h : Shard} (is : ShardIs s w a h) (b : Beside { s with shards := w.shards } v) : ShardIs s v a h := by
  have same : v.shards = w.shards := b.shards
  refine ⟨?_, ?_, ?_⟩
  all_goals rw [same]
  · exact b
  · exact is.here
  · exact is.others

/-- While nothing observes, the bytes that `Z` names become zero and, beside the Module fields of the shard control block at `a`, no other
byte changes (R171, R173, R183). -/
def Clears (a : Nat) (Z : Nat → Prop) (u t : State) : Prop :=
  Still u → t.host = u.host ∧ Still t ∧ ∀ x, ¬ ofShardBlock a x → (Z x → memByte t.mem x = 0) ∧ (¬ Z x → memByte t.mem x = memByte u.mem x)

section
variable {a : Nat} {Y Z : Nat → Prop} {u v w : State}

theorem Clears.trans (h : Clears a Y u v) (g : Clears a Z v w) : Clears a (fun x => Y x ∨ Z x) u w := fun i => by
  obtain ⟨host, still, mem⟩ := h i
  obtain ⟨host', still', mem'⟩ := g still
  refine ⟨host'.trans host, still', fun x beyond => ?_⟩
  obtain ⟨zero, keep⟩ := mem x beyond
  obtain ⟨zero', keep'⟩ := mem' x beyond
  by_cases late : Z x
  · exact ⟨fun _ => zero' late, fun out => absurd (.inr late) out⟩
  · rw [keep' late]
    exact ⟨fun either => zero (either.resolve_right late), fun out => keep fun early => out (.inl early)⟩

theorem Clears.congr (h : Clears a Y u v) (same : ∀ x, Y x ↔ Z x) : Clears a Z u v := by
  obtain rfl : Y = Z := funext fun x => propext (same x)
  exact h

theorem Quiet.clears (h : Quiet u v) (a : Nat) : Clears a (fun _ => False) u v := fun i => by
  obtain ⟨mem, host, still⟩ := h i
  exact ⟨host, still, fun _ _ => ⟨False.elim, fun _ => by rw [mem]⟩⟩

theorem Clears.then_quiet (h : Clears a Z u v) (q : Quiet v w) : Clears a Z u w :=
  (h.trans (q.clears a)).congr fun _ => or_iff_left not_false

theorem putShard_clears (s : State) (a : Nat) (h : Shard) : Clears a (fun _ => False) s (putShard s a h) := fun i =>
  have ⟨host, still, mem⟩ := putShard_mem s a h
  ⟨host, still i, fun x out => ⟨False.elim, fun _ => mem x out⟩⟩

theorem zeroRegion_clears {s : State} (c : Cmd) (at_ n : Nat) (beside : Beside s u) (still : Still s) :
    Clears a (ofRegion s c at_ n) u (zeroRegion u c at_ n) := fun i => by
  obtain ⟨host, still', mem⟩ := zeroRegion_still c at_ n beside still i
  refine ⟨host, still', fun x _ => ?_⟩
  rw [mem, memByte_memZero]
  exact ⟨fun here => if_pos here, fun out => if_neg out⟩

end

/-- An operation whose own effect sets one shard commits: its record stands, and so does the shard, with the bytes that the effect clears
zero over those that the run staged (R171, R275). -/
theorem runOp_commits_shard {code cid a : Nat} {compute : State → Cmd → Out} {eff : State → Cmd → State} {s : State} {c : Cmd} {r : Stg}
    {P : Shard → Prop} {Z : Nat → Prop} (h : RingRuns s cid code c) (done : compute s c = .done r) (near : Near r)
    (sets : ∀ u, Beside s u → (s.objs = [] → u.objs = []) → ∃ g, P g ∧ ShardIs s (eff u (atCommit s (withRun c r))) a g ∧
      (Still s → Clears a Z u (eff u (atCommit s (withRun c r))))) :
    ∃ t g, runOp code compute eff cid s = .next t ∧ P g ∧ Recorded s cid c r t ∧ ShardIs s t a g ∧
      (Still s → Clears a Z { s with mem := published s.mem r.writes } t) := by
  obtain ⟨u, t, run, beside, mem, quiet, ⟨-, bare⟩, rest⟩ := effect_row (eff := eff) h done near
  obtain ⟨g, holds, is, clears⟩ := sets u beside bare
  obtain ⟨frame, recd⟩ := rest { s with shards := (eff u (atCommit s (withRun c r))).shards } (fun _ hy => hy) (findCmd_mem h.runs.1).2 is.frame
  refine ⟨t, g, run, holds, recd, is.after frame, fun still _ => ?_⟩
  obtain ⟨mem, host, still'⟩ := mem still
  obtain ⟨host', still'', mem'⟩ := (clears still).then_quiet quiet still'
  exact ⟨host'.trans host, still'', fun x out => by rw [← mem]; exact mem' x out⟩

end Sys2Proof.Machine
end

section
/-! Updates: what their runs come to, and what their commits leave of the shard (R179, R180, R182 to R184). -/

namespace Sys2Proof.Machine

/-- A shard after the commit of an update whose run left `aux` and clears the contributor count or not (R179, R183, R184). -/
def Shard.afterUpdate (g : Shard) (aux : List Nat) (clear : Bool) (k : Nat) : Shard :=
  { (if aux.getD 0 0 = 1 then { g with skips := (g.skips + 1) % 2 ^ 32 }
     else { g with
      version := (g.version + 1) % 2 ^ 32, fallbacks := (g.fallbacks + aux.getD 5 0) % 2 ^ 32,
      ver0 := if aux.getD 3 0 = 0 then (g.version + 1) % 2 ^ 32 else g.ver0, digest0 := if aux.getD 3 0 = 0 then aux.getD 4 0 else g.digest0,
      ver1 := if aux.getD 3 0 = 0 then g.ver1 else (g.version + 1) % 2 ^ 32, digest1 := if aux.getD 3 0 = 0 then g.digest1 else aux.getD 4 0 }) with
    gradCount := if clear then 0 else g.gradCount, streak := k }

/-- An update that skips changes no version (R179). -/
theorem Shard.afterUpdate_of_skip {g : Shard} {aux : List Nat} {clear : Bool} {k : Nat} (skip : aux.getD 0 0 = 1) : g.afterUpdate aux clear k =
    { g with skips := (g.skips + 1) % 2 ^ 32, gradCount := if clear then 0 else g.gradCount, streak := k } := by
  unfold Shard.afterUpdate
  rw [if_pos skip]

/-- An update that does not skip makes the next version, with its number and digest in the slot that its run names and the other slot as it
was (R183, R184). -/
theorem Shard.afterUpdate_of_update {g : Shard} {aux : List Nat} {clear : Bool} {k : Nat} (update : aux.getD 0 0 = 2) :
    let h := g.afterUpdate aux clear k
    h.version = (g.version + 1) % 2 ^ 32 ∧ h.gradCount = (if clear then 0 else g.gradCount) ∧ h.skips = g.skips ∧ h.streak = k ∧
    (aux.getD 3 0 = 0 → h.ver0 = h.version ∧ h.ver1 = g.ver1 ∧ h.digest1 = g.digest1) ∧
    (aux.getD 3 0 ≠ 0 → h.ver1 = h.version ∧ h.ver0 = g.ver0 ∧ h.digest0 = g.digest0) := by
  unfold Shard.afterUpdate
  rw [if_neg (by rw [update]; decide)]
  exact ⟨rfl, rfl, rfl, rfl, fun first => ⟨if_pos first, if_pos first, if_pos first⟩, fun second => ⟨if_neg second, if_neg second, if_neg second⟩⟩

theorem Clears.updatedMem {s t : State} {c : Cmd} {a : Nat} {g : Shard} {clear : Bool} {ws : List SWrite}
    (h : Still s → Clears a (fun x => clear = true ∧ ofGacc s c g x) { s with mem := published s.mem ws } t) : UpdatedMem s t c a g clear ws := fun still =>
  have ⟨host, _, mem⟩ := h still (Still.of (x := s) rfl rfl rfl rfl still)
  ⟨host, mem⟩

/-- An update whose run is done commits with its shard changed as the run left word of it (R183, R184). -/
theorem runOp_commits_update {code cid : Nat} {compute : State → Cmd → Out} {s : State} {c : Cmd} {r : Stg} {g : Shard} {clear : Bool}
    (h : RingRuns s cid code c) (done : compute s c = .done r) (near : Near r) (found : tfind s.shards (shardAddr s c.pkt) = some g)
    (said : r.aux.getD 7 0 = b2n clear) :
    ∃ t k, runOp code compute updEff cid s = .next t ∧ Recorded s cid c r t ∧ UpdatedMem s t c (shardAddr s c.pkt) g clear r.writes ∧
      ShardIs s t (shardAddr s c.pkt) (g.afterUpdate r.aux clear k) := by
  have flag : ((atCommit s (withRun c r)).aux.getD 7 0 == 1) = clear := by
    show (r.aux.getD 7 0 == 1) = clear
    rw [said]
    cases clear <;> rfl
  obtain ⟨t, _, run, ⟨k, rfl⟩, recd, is, clears⟩ := runOp_commits_shard (eff := updEff) (P := fun x => ∃ k, x = g.afterUpdate r.aux clear k)
    (Z := fun x => clear = true ∧ ofGacc s c g x) (a := shardAddr s c.pkt) h done near fun u beside _ => by
      obtain ⟨k, is, mem⟩ := updEff_says (c := atCommit s (withRun c r)) beside rfl found
      rw [flag] at is
      refine ⟨_, ⟨k, rfl⟩, is, fun still => ?_⟩
      have clears : Clears (shardAddr s c.pkt) (fun x => r.aux.getD 7 0 = 1 ∧ ofGacc s c g x) u (updEff u (atCommit s (withRun c r))) := mem still
      exact clears.congr fun _ => and_congr_left fun _ => by rw [← flag]; exact beq_iff_eq.symm
  exact ⟨t, k, run, recd, Clears.updatedMem clears, is⟩

section
variable {s : State} {c : Cmd} {h : Shard} {q : UpdPar} {n : Nat} (op : Nat) (shard : updShard s c = some (h, q))
  (count : n = if 0 < q.divisor then q.divisor else c.aux.getD 1 0)
include shard count

/-- An update with no contribution, or with a norm that is not finite, skips (R179). -/
theorem updRun_skips (skip : n = 0 ∨ (v32 q.gnorm).isFin = false) : ∃ r, updRun op s c = .done r ∧ Near r ∧ r.status = stDone ∧ r.writes = [] ∧
    r.flags = 4 ∧ r.aux.getD 0 0 = 1 ∧ r.aux.getD 7 0 = b2n q.clear := by
  have cause : (if n = 0 then 1 else if (!(v32 q.gnorm).isFin) = true then 2 else 0) ≠ 0 := by
    obtain zero | infinite := skip
    · rw [if_pos zero]; decide
    · rw [infinite]; split <;> decide
  unfold updRun
  rw [shard]
  dsimp only
  rw [← count, if_pos cause]
  exact ⟨_, rfl, ⟨rfl, rfl, fun _ written => absurd written List.not_mem_nil⟩, rfl, rfl, rfl, rfl, rfl⟩

/-- The full rule stops where a root of its set is unusable and its job does not allow the fallback (R182). -/
theorem updRun_illPosed {f : Fset} (contributions : n ≠ 0) (finite : (v32 q.gnorm).isFin = true) (factors : updFset s c h = some f)
    (root : (badRoot s c f).isSome = true) (strict : c.fall = false) : ∃ d, updRun 3 s c = .stop stIll 0 [(0x08, d, 0, 0)] := by
  obtain ⟨b, root⟩ := Option.isSome_iff_exists.mp root
  unfold updRun
  rw [shard]
  dsimp only
  rw [← count, if_neg (by rw [if_neg contributions, finite]; decide), factors, if_pos rfl, Option.bind_some, root]
  dsimp only
  rw [strict]
  exact ⟨_, rfl⟩

end

/-- A command that raises an event and ends without commit has ended as one that raises none (R271, R272). -/
theorem endCmd_ended_of_raise (s : State) (c : Cmd) (code x y z st d : Nat) : Ended s (endCmd (raiseCmd s c code x y z) c st d) c st d :=
  (endCmd_ended _ c st d).after_quiet (raiseCmd_contained _ _ _ _ _ _ (Contained.refl s)) (raiseCmd_beside _ _ _ _ (Beside.refl s))
    (raiseCmd_quiet _ _ _ _ _ _ (Quiet.refl s))

/-- The row of a command whose run stops with one event, other than of a digest. -/
theorem runOp_stop_raising {code cid : Nat} {compute : State → Cmd → Out} {eff : State → Cmd → State} {s : State} {c : Cmd} {st d : Nat} {e : CEvent}
    (h : Runs s cid code c) (stops : compute s c = .stop st d [e]) (digest : e.1 ≠ 0x0B) : ∃ t, runOp code compute eff cid s = .next t ∧ Ended s t c st d := by
  obtain ⟨found, running, op⟩ := h
  have raised : emitEv s c e = raiseCmd s c e.1 e.2.1 e.2.2.1 e.2.2.2 := if_pos digest
  refine ⟨_, ?_, endCmd_ended_of_raise s c e.1 e.2.1 e.2.2.1 e.2.2.2 st d⟩
  rw [← raised]
  unfold runOp
  rw [found]
  dsimp only
  rw [if_pos ⟨running, op⟩, stops]
  rfl

/-- Settles O24: a run that skips and a run that is done each commit with the shard that stands changed as the run left word of it; the full rule
stops where its set's roots are unusable and no fallback is allowed. -/
theorem updatesMakeVersions : Obligations.UpdatesMakeVersions := by
  unfold Obligations.UpdatesMakeVersions
  rintro s cid c op i row runs h g q n _ shard count rfl found
  have eq : exec i s = runOp (0x600 + op) (updRun op) updEff cid s := by
    simp only [List.mem_cons, Prod.mk.injEq, List.not_mem_nil, or_false] at row
    obtain ⟨rfl, rfl⟩ | ⟨rfl, rfl⟩ | ⟨rfl, rfl⟩ := row <;> rfl
  rw [eq]
  refine ⟨fun skip => ?_, fun contributions finite => ⟨?_, fun usable => ?_, fun r done near => ?_⟩⟩
  · obtain ⟨r, done, near, status, writes, flags, skipped, clear⟩ := updRun_skips op shard count skip
    obtain ⟨t, k, run, recd, mem, is⟩ := runOp_commits_update runs done near found clear
    rw [writes] at mem
    rw [Shard.afterUpdate_of_skip skipped] at is
    exact ⟨t, r, k, run, recd, status, writes, flags, mem, is⟩
  · rintro rfl strict ⟨f, factors, root⟩
    obtain ⟨d, stops⟩ := updRun_illPosed shard count contributions finite factors root strict
    exact runOp_stop_raising runs.runs stops (show 0x08 ≠ 0x0B by decide)
  · obtain ⟨r, done, -⟩ := upd_done op shard count contributions finite usable
    exact ⟨r, done⟩
  · obtain ⟨status, updated, slot, clear⟩ := upd_form op shard count contributions finite done
    obtain ⟨t, k, run, recd, mem, is⟩ := runOp_commits_update runs done near found clear
    have fields := Shard.afterUpdate_of_update (g := g) (clear := q.clear) (k := k) updated
    rw [slot] at fields
    exact ⟨t, _, k, run, recd, status, mem, is, fields⟩

end Sys2Proof.Machine
end

section
/-! SHARD_INIT and SCHED_LOAD make their objects (R173, R190). -/

namespace Sys2Proof.Machine

/-- The bytes of a shard that SHARD_INIT makes zero: gradient accumulator, moment, and the row and column accumulators of a factored one (R173). -/
def ofShardZeros (s : State) (c : Cmd) (h : Shard) (x : Nat) : Prop :=
  ofGacc s c h x ∨ ofRegion s c h.moment (4 * h.rows * h.cols) x ∨
    (h.factored = true ∧ (ofRegion s c h.rowAcc (4 * h.rows) x ∨ ofRegion s c h.colAcc (4 * h.cols) x))

/-- A shard's moment and gradient accumulator made zero (R173). -/
def zeroMoments (s : State) (c : Cmd) (h : Shard) : State :=
  zeroRegion (zeroRegion s c h.moment (4 * h.rows * h.cols)) c h.gacc (4 * h.rows * h.cols)

/-- A shard's row and column accumulators made zero, where it has them (R172, R173). -/
def zeroFactors (s : State) (c : Cmd) (h : Shard) : State :=
  if h.factored then zeroRegion (zeroRegion s c h.rowAcc (4 * h.rows)) c h.colAcc (4 * h.cols) else s

theorem shardEff_eq (s : State) (c : Cmd) : shardEff s c =
    let h := shardRaw c.pkt.job (cBytes s c (descAddr (c.pkt.slot 0)) 128)
    putShard (zeroFactors (zeroMoments s c h) c h) (shardAddr s c.pkt) { h with digest0 := c.aux.getD 0 0 } := rfl

section
variable {s u : State} (c : Cmd) (h : Shard) (beside : Beside s u)
include beside

theorem zeroMoments_beside : Beside s (zeroMoments u c h) := zeroRegion_beside _ _ _ (zeroRegion_beside _ _ _ beside)

theorem zeroFactors_beside : Beside s (zeroFactors u c h) := Beside.ite (zeroRegion_beside _ _ _ (zeroRegion_beside _ _ _ beside)) beside

theorem zeroMoments_clears (a : Nat) (still : Still s) :
    Clears a (fun x => ofRegion s c h.moment (4 * h.rows * h.cols) x ∨ ofGacc s c h x) u (zeroMoments u c h) :=
  (zeroRegion_clears _ _ _ beside still).trans (zeroRegion_clears _ _ _ (zeroRegion_beside _ _ _ beside) still)

theorem zeroFactors_clears (a : Nat) (still : Still s) :
    Clears a (fun x => h.factored = true ∧ (ofRegion s c h.rowAcc (4 * h.rows) x ∨ ofRegion s c h.colAcc (4 * h.cols) x)) u (zeroFactors u c h) := by
  unfold zeroFactors
  by_cases factored : h.factored = true
  · rw [if_pos factored]
    have both := (zeroRegion_clears (a := a) c h.rowAcc (4 * h.rows) beside still).trans
      (zeroRegion_clears c h.colAcc (4 * h.cols) (zeroRegion_beside _ _ _ beside) still)
    exact both.congr fun _ => (and_iff_right factored).symm
  · rw [if_neg factored]
    exact ((Quiet.refl u).clears a).congr fun _ => (false_iff _).mpr fun both => factored both.1

/-- SHARD_INIT's zeroing of a shard's regions. -/
theorem zeroShard_clears (a : Nat) (still : Still s) : Clears a (ofShardZeros s c h) u (zeroFactors (zeroMoments u c h) c h) := by
  have all := (zeroMoments_clears c h beside a still).trans (zeroFactors_clears c h (zeroMoments_beside c h beside) a still)
  refine all.congr fun x => ?_
  unfold ofShardZeros
  rw [← or_assoc, or_comm (a := ofGacc s c h x)]

end

/-- What the commit of SHARD_INIT does where there is no residency object: the shard of its block stands, with the digest that its run left, and its
state is zero (R173). -/
theorem shardEff_says {s u : State} {c : Cmd} {r : Stg} {a : Nat} {h : Shard} (beside : Beside s u) (bare : s.objs = []) (bare' : u.objs = [])
    (ha : a = shardAddr s c.pkt) (hh : h = shardRaw c.pkt.job (cBytes s c (descAddr (c.pkt.slot 0)) 128)) :
    ShardIs s (shardEff u (atCommit s (withRun c r))) a { h with digest0 := r.aux.getD 0 0 } ∧
      (Still s → Clears a (ofShardZeros s c h) u (shardEff u (atCommit s (withRun c r)))) := by
  have block : shardRaw c.pkt.job (cBytes u (atCommit s (withRun c r)) (descAddr (c.pkt.slot 0)) 128) = h := by
    rw [cBytes_run beside bare bare', hh]
  have eq : shardEff u (atCommit s (withRun c r)) =
      putShard (zeroFactors (zeroMoments u (atCommit s (withRun c r)) h) (atCommit s (withRun c r)) h) a { h with digest0 := r.aux.getD 0 0 } := by
    rw [shardEff_eq, ha, ← shardAddr_of beside, ← block]
    rfl
  rw [eq]
  have zeroed := zeroFactors_beside (atCommit s (withRun c r)) h (zeroMoments_beside (atCommit s (withRun c r)) h beside)
  refine ⟨putShard_is a _ (zeroed.shards_set _) fun b _ => by rw [zeroed.shards], fun still => ?_⟩
  have cleared := (zeroShard_clears (atCommit s (withRun c r)) h beside a still).trans (putShard_clears _ a { h with digest0 := r.aux.getD 0 0 })
  exact cleared.congr fun _ => or_iff_left not_false

/-- SHARD_INIT commits with the shard of its block active at version 0 and its state zero (R173). -/
theorem shardInit_commits {s : State} {cid : Nat} {c : Cmd} {r : Stg} {a : Nat} {h : Shard} (runs : RingRuns s cid 0x608 c) (done : shardRun s c = .done r)
    (near : Near r) (still : Still s) (ha : a = shardAddr s c.pkt) (hh : h = shardRaw c.pkt.job (cBytes s c (descAddr (c.pkt.slot 0)) 128)) :
    ∃ t, execShardInit cid s = .next t ∧ Recorded s cid c r t ∧ ShardIs s t a { h with digest0 := r.aux.getD 0 0 } ∧ t.host = s.host ∧
      ∀ x, ¬ ofShardBlock a x → ofShardZeros s c h x → memByte t.mem x = 0 := by
  obtain ⟨t, _, run, rfl, recd, is, clears⟩ := runOp_commits_shard (eff := shardEff) (P := (· = { h with digest0 := r.aux.getD 0 0 }))
    (Z := ofShardZeros s c h) runs done near fun u beside bare => ⟨_, rfl, shardEff_says beside still.objs (bare still.objs) ha hh⟩
  obtain ⟨host, -, mem⟩ := clears still (Still.of (x := s) rfl rfl rfl rfl still)
  exact ⟨t, run, recd, is, host, fun x out => (mem x out).1⟩

/-- The schedule tables with the one that a SCHED_LOAD makes in the place of the one of its job and slot (R190). -/
def schedsWith (s : State) (c : Cmd) : List Sched :=
  let lb := cBytes s c (descAddr (c.pkt.slot 1)) 16
  s.scheds.filter (fun x => !(x.job == c.pkt.job && x.slot == fieldAt lb 0 1)) ++
    [⟨c.pkt.job, fieldAt lb 0 1, schedSegs (fieldAt lb 1 1) (cBytes s c (descAddr (c.pkt.slot 0)) (32 * fieldAt lb 1 1))⟩]

theorem schedEff_says {s u : State} {c : Cmd} {r : Stg} (beside : Beside s u) (bare : s.objs = []) (bare' : u.objs = []) :
    schedEff u (atCommit s (withRun c r)) = { u with scheds := schedsWith s c } := by
  have same : schedsWith u (atCommit s (withRun c r)) = schedsWith s c := by
    unfold schedsWith
    simp only [cBytes_run beside bare bare', beside.scheds]
    rfl
  rw [← same]
  rfl

/-- SCHED_LOAD commits with its table in its slot (R190). -/
theorem schedLoad_commits {s : State} {cid : Nat} {c : Cmd} (h : RingRuns s cid 0x609 c)
    (room : schedFull s c.pkt.job (fieldAt (cBytes s c (descAddr (c.pkt.slot 1)) 16) 0 1) = false) (still : Still s) :
    ∃ t, execSchedLoad cid s = .next t ∧ Recorded s cid c Stg.none t ∧ Beside { s with scheds := t.scheds } t ∧ t.mem = s.mem ∧ t.host = s.host ∧
      t.scheds = schedsWith s c := by
  have done : schedRun s c = .done Stg.none := if_neg (by rw [room]; decide)
  obtain ⟨u, t, run, beside, mem, quiet, ⟨-, bare⟩, rest⟩ := effect_row (eff := schedEff) h done near_none
  have eff := schedEff_says (c := c) (r := Stg.none) beside still.objs (bare still.objs)
  rw [eff] at quiet rest
  obtain ⟨frame, recd⟩ := rest { s with scheds := schedsWith s c } (fun _ hy => hy) (findCmd_mem h.runs.1).2 (beside.scheds_set _)
  obtain ⟨mem, host, still⟩ := mem still
  obtain ⟨mem', host', -⟩ := quiet (Still.of (x := u) rfl rfl rfl rfl still)
  have tables : t.scheds = schedsWith s c := frame.scheds
  exact ⟨t, run, recd, by rw [tables]; exact frame, mem'.trans mem, host'.trans host, tables⟩

/-- SCHED_LOAD of a seventeenth table of the module is ACCESS_DENIED (R190, R271). -/
theorem schedLoad_denied {s : State} {cid : Nat} {c : Cmd} (h : RingRuns s cid 0x609 c)
    (full : schedFull s c.pkt.job (fieldAt (cBytes s c (descAddr (c.pkt.slot 1)) 16) 0 1) = true) :
    ∃ t, execSchedLoad cid s = .next t ∧ Ended s t c stDenied 0xFE :=
  runOp_stop h.runs (if_pos full)

/-- Settles O25: SHARD_INIT commits by setting its one shard over the state that it zeroes; SCHED_LOAD commits with its table listed, or its run stops. -/
theorem shardsAndSchedulesAreLoaded : Obligations.ShardsAndSchedulesAreLoaded := by
  unfold Obligations.ShardsAndSchedulesAreLoaded
  refine fun s cid c => ⟨fun runs => ⟨_, rfl, fun near a h ha hh still => ?_⟩, schedLoad_denied, fun runs room still lb segs hlb hsegs => ?_⟩
  · obtain ⟨t, run, recd, is, host, mem⟩ := shardInit_commits runs rfl near still ha hh
    subst hh
    exact ⟨t, _, run, recd, is, rfl, rfl, rfl, rfl, rfl, rfl, rfl, host, mem⟩
  · subst hlb hsegs
    exact schedLoad_commits runs room still

end Sys2Proof.Machine
end

section
/-! Transfers between the tiers: FILL and a plain COPY stage one write (R254 to R256). -/

namespace Sys2Proof.Machine

/-- One local write leaves its bytes at its place, and every other byte as it was. -/
theorem published_one {m : List Host.Cell} {g : GAddr} (bs : List Byte) (near : g.tier < 3) :
    memRead (published m [⟨g, bs⟩]) g.off bs.length = bs ∧
      ∀ x, (x < g.off ∨ g.off + bs.length ≤ x) → memByte (published m [⟨g, bs⟩]) x = memByte m x := by
  have written : published m [⟨g, bs⟩] = memWrite m g.off bs := if_pos near
  rw [written]
  exact ⟨memRead_memWrite _ _, fun x => memByte_memWrite_outside _ x _⟩

/-- A transfer that stages one local write leaves its bytes at the destination. -/
theorem move_one {code cid : Nat} {compute : State → Cmd → Out} {s : State} {c : Cmd} {d : GAddr} {bs : List Byte} {o : List OutInfo}
    (h : RingRuns s cid code c) (done : compute s c = .done { Stg.none with writes := [⟨d, bs⟩], outs := o }) (near : d.tier < 3) :
    ∃ t r, runOp code compute moveEff cid s = .next t ∧ Recorded s cid c r t ∧ Beside s t ∧ r.status = stDone ∧
      (Still s → t.host = s.host ∧ memRead t.mem d.off bs.length = bs ∧
        ∀ x, (x < d.off ∨ d.off + bs.length ≤ x) → memByte t.mem x = memByte s.mem x) := by
  have only : ∀ w ∈ [SWrite.mk d bs], w = ⟨d, bs⟩ := fun w hw => List.mem_singleton.mp hw
  obtain ⟨t, run, recd, beside, mem⟩ := move_row h done ⟨rfl, rfl, fun w hw => by rw [only w hw]; show d.tier ≠ 4; omega⟩
    fun w hw => by rw [only w hw]; show d.tier ≠ 3; omega
  refine ⟨t, _, run, recd, beside, rfl, fun still => ?_⟩
  obtain ⟨memory, host⟩ := mem still
  rw [memory]
  exact ⟨host, published_one bs near⟩

theorem op_of_clsOp {p : Packet} (h : p.clsOp = 0x701) : p.op ≠ 3 := by
  unfold Packet.clsOp Machine.fld at h
  unfold Packet.op Machine.fld
  omega

theorem cBytes_length {s : State} {c : Cmd} {g : GAddr} {n : Nat} (near : (resolve s c g n).tier ≠ 4) : (cBytes s c g n).length = n := by
  unfold cBytes
  dsimp only
  rw [if_neg near]
  split <;> exact memRead_length _ _ _

/-- A plain COPY of a source in this module (R256): it needs no read of a peer, and stages what it reads. -/
theorem copyRun_plain {s : State} {c : Cmd} (op : c.pkt.op ≠ 3) (raw : opnd c 0 = none) (dst : bargeZipDst c.pkt = false) (src : bargeZipSrc c.pkt = false)
    (mem : (descAddr (c.pkt.slot 0)).tier ≠ 3) (near : (resolve s c (descAddr (c.pkt.slot 0)) (bargeLen c.pkt)).tier ≠ 4) :
    copyRun s c = .done { Stg.none with
      writes := [⟨resolve s c (descAddr (c.pkt.slot 1)) (bargeLen c.pkt), cBytes s c (descAddr (c.pkt.slot 0)) (bargeLen c.pkt)⟩],
      outs := [outRaw 1 (descAddr (c.pkt.slot 1)) (cBytes s c (descAddr (c.pkt.slot 0)) (bargeLen c.pkt))] } := by
  have len : moveSrcLen c = bargeLen c.pkt := by simp [moveSrcLen, raw, op, copySrcLen, src]
  have here : zipFar s c = none := by simp [zipFar, src]
  have bytes : moveSrc s c = cBytes s c (descAddr (c.pkt.slot 0)) (bargeLen c.pkt) := by simp [moveSrc, mem, here, len]
  have noFar : moveFar s c [] = [] := by simp [moveFar, here, mem, farNeeds, len, near]
  have placed : ∀ bs : List Byte, bs.length = bargeLen c.pkt → placeWrites s c [⟨(descAddr (c.pkt.slot 1)).plus 0, bs⟩] =
      [⟨resolve s c (descAddr (c.pkt.slot 1)) (bargeLen c.pkt), bs⟩] := by
    intro bs e
    rw [← e]
    rfl
  unfold copyRun
  dsimp only
  rw [noFar, raw, dst, src, bytes]
  simp only [ne_eq, not_true_eq_false, if_false, Bool.false_eq_true, List.map_cons, List.map_nil, placed _ (cBytes_length near), List.flatten_cons,
    List.flatten_nil, List.append_nil]

theorem fill_commits {s : State} {cid : Nat} {c : Cmd} (h : RingRuns s cid 0x703 c) {bs : List Byte} {d : GAddr}
    (pattern : bs = (List.replicate (bargeLen c.pkt / 4) (leBytes 4 (c.pkt.slot 3))).flatten) (place : d = resolve s c (descAddr (c.pkt.slot 1)) bs.length)
    (near : d.tier < 3) :
    ∃ t r, exec (.fill cid) s = .next t ∧ Recorded s cid c r t ∧ Beside s t ∧ r.status = stDone ∧
      (Still s → t.host = s.host ∧ memRead t.mem d.off bs.length = bs ∧
        ∀ x, (x < d.off ∨ d.off + bs.length ≤ x) → memByte t.mem x = memByte s.mem x) := by
  subst pattern place
  exact move_one (compute := fillRun) h rfl near

theorem copy_commits {s : State} {cid : Nat} {c : Cmd} (h : RingRuns s cid 0x701 c) {d : GAddr} (raw : opnd c 0 = none) (dst : bargeZipDst c.pkt = false)
    (src : bargeZipSrc c.pkt = false) (mem : (descAddr (c.pkt.slot 0)).tier ≠ 3) (here : (resolve s c (descAddr (c.pkt.slot 0)) (bargeLen c.pkt)).tier ≠ 4)
    (place : d = resolve s c (descAddr (c.pkt.slot 1)) (bargeLen c.pkt)) (near : d.tier < 3) :
    ∃ t r, exec (.copy cid) s = .next t ∧ Recorded s cid c r t ∧ Beside s t ∧ r.status = stDone ∧
      (Still s → t.host = s.host ∧ memRead t.mem d.off (bargeLen c.pkt) = cBytes s c (descAddr (c.pkt.slot 0)) (bargeLen c.pkt) ∧
        ∀ x, (x < d.off ∨ d.off + bargeLen c.pkt ≤ x) → memByte t.mem x = memByte s.mem x) := by
  subst place
  have moved := move_one h (copyRun_plain (op_of_clsOp h.runs.2.2) raw dst src mem here) near
  rw [cBytes_length here] at moved
  rwa [execCopy_eq h (.inl src)]

end Sys2Proof.Machine
end

section
/-! The drain of a die's pounds, and the writes of other modules that wait for their room (R210, R237 to R239, R241). -/

namespace Sys2Proof.Machine

/-- Memory's registers apart, a state only reports (R241, R243). -/
def Reports (s t : State) : Prop := Told { s with memRegs := t.memRegs } t

theorem Reports.refl (s : State) : Reports s s := Told.refl s

theorem Reports.told {s x y : State} {r : List (Nat × MemRegs)} (h : Reports s x) (g : Told { x with memRegs := r } y) : Reports s y := by
  have set : Told { s with memRegs := r } { x with memRegs := r } := { h with memRegs := rfl }
  have regs : y.memRegs = r := g.memRegs
  unfold Reports
  rw [regs]
  exact set.trans g

theorem markRetired_reports {s x : State} (a : Nat) (h : Reports s x) : Reports s (markRetired x a) := by
  rcases markRetired_told x a with marked | ⟨same, -⟩
  · exact h.told marked
  · rwa [same]

/-- A memory error counts, latches, retires and reports, and nothing else (R241, R243, R244). -/
theorem memError_reports {s x : State} (die source job layer seq : Nat) (ses : Option Nat) (g : Nat) (h : Reports s x) :
    Reports s (memError x die source job layer seq ses g) := by
  unfold memError
  extract_lets m m' counted fired raised
  have set : Told { x with memRegs := counted.memRegs } counted := Told.refl _
  have reported : Reports s raised := h.told (raiseFor_told _ _ _ _ _ _ _ _ _ _ _ (Told.ite (fire_told _ _ _ set) set))
  split
  · exact markRetired_reports _ reported
  · exact reported

theorem drainOne_reports {s x : State} (q : PoundGran) (h : Reports s x) : Reports s (drainOne x q) := by
  unfold drainOne
  split
  · exact memError_reports _ _ _ _ _ _ _ h
  · exact h

theorem drainOne_quiet {s x : State} (q : PoundGran) (h : Quiet s x) : Quiet s (drainOne x q) := by
  unfold drainOne
  split
  · exact memError_quiet _ _ _ _ _ _ _ h
  · exact h

theorem drainOne_contained {s x : State} (q : PoundGran) (h : Contained s x) : Contained s (drainOne x q) := by
  unfold drainOne
  split
  · exact memError_contained _ _ _ _ _ _ _ _ h
  · exact h

/-- A relation to a first state that each step keeps holds after all of them. -/
theorem foldl_keeps {α : Type} {P : State → Prop} {f : State → α → State} (keeps : ∀ x a, P x → P (f x a)) (l : List α) {x : State} (h : P x) :
    P (l.foldl f x) := by
  induction l generalizing x with
  | nil => exact h
  | cons a l ih => exact ih (keeps x a h)

/-- Granules without poison drain without a report (R241). -/
theorem drained_clean {s : State} {l : List PoundGran} (clean : ∀ q ∈ l, poisonedIn s q.addr 256 = none) : l.foldl drainOne s = s := by
  induction l with
  | nil => rfl
  | cons q l ih =>
    have same : drainOne s q = s := by
      unfold drainOne
      rw [clean q List.mem_cons_self]
    rw [List.foldl_cons, same]
    exact ih fun q hq => clean q (List.mem_cons_of_mem _ hq)

-- writes of other modules that wait for room (R237, R239) ---------------------------------------------------------------

/-- A waiting write of another module is staged and acknowledged, if its pound has room for it. -/
def admitOne (s : State) (i : Nat) : State :=
  match s.remoteSt[i]? with
  | none => s
  | some r =>
    if r.room ∨ poundFree s (dieOfAddr r.addr) true < 256 * (granulesOf r.addr r.data.length).length then s
    else send { s with remoteSt := s.remoteSt.set i { r with room := true } } ⟨r.peer, mtStagedAck, 7, r.job, r.seq, r.runs, r.ctx, 0, 0, [], []⟩

theorem admitStaged_eq (s : State) : admitStaged s = (List.range s.remoteSt.length).foldl admitOne s := rfl

/-- A write with its room, its acknowledgement on the way. -/
def AdmittedAt (k : Nat) (r : RemoteStaged) (s : State) : Prop :=
  s.remoteSt[k]? = some { r with room := true } ∧
    (s.power.phase ≠ 0xF → Out_ s (fun m => m.dst = r.peer ∧ m.typ = mtStagedAck ∧ m.tc = 7 ∧ m.job = r.job ∧ m.seq = r.seq ∧ m.runs = r.runs))

theorem admitOne_roomed {s : State} {i : Nat} {r : RemoteStaged} (h : s.remoteSt[i]? = some r) (room : r.room = true) : admitOne s i = s := by
  unfold admitOne
  rw [h]
  exact if_pos (.inl room)

theorem send_phase (s : State) (m : Msg) : (send s m).power.phase = s.power.phase := (send_carried s m (Carried.refl s)).phase

/-- A message that waits or has left does so after another is sent. -/
theorem Out_.send {s : State} {P : Msg → Prop} (m : Msg) (h : Out_ s P) : Out_ (send s m) P := by
  obtain ⟨x, there, is⟩ := h
  refine ⟨x, ?_, is⟩
  by_cases p : s.power.phase = 0xF
  · unfold Machine.send
    rwa [if_pos p]
  · obtain ⟨y, -, ⟨sent, held⟩ | ⟨sent, held⟩⟩ := send_posted s m p <;> rw [sent, held] <;> simp only [List.mem_append] <;> tauto

theorem admitOne_admits {s : State} {k : Nat} {r : RemoteStaged} (h : s.remoteSt[k]? = some r) (waits : r.room = false)
    (room : HasRoom s r.addr r.data.length) :
    AdmittedAt k r (admitOne s k) := by
  unfold admitOne
  rw [h]
  dsimp only
  rw [if_neg (by rw [waits]; exact fun g => g.elim (by decide) (Nat.not_lt.mpr room))]
  refine ⟨?_, fun p => ?_⟩
  · rw [(send_carried _ _ (Carried.refl _)).remoteSt]
    exact List.getElem?_set_self (List.getElem?_eq_some_iff.mp h).1
  · rw [send_phase] at p
    obtain ⟨x, e, sent⟩ := send_posted { s with remoteSt := s.remoteSt.set k { r with room := true } }
      ⟨r.peer, mtStagedAck, 7, r.job, r.seq, r.runs, r.ctx, 0, 0, [], []⟩ p
    refine ⟨x, ?_, congrArg Msg.dst e, congrArg Msg.typ e, congrArg Msg.tc e, congrArg Msg.job e, congrArg Msg.seq e, congrArg Msg.runs e⟩
    rcases sent with ⟨sent, -⟩ | ⟨-, held⟩
    · exact .inl (by rw [sent]; exact List.mem_append_right _ List.mem_cons_self)
    · exact .inr (by rw [held]; exact List.mem_append_right _ List.mem_cons_self)

theorem AdmittedAt.admitOne {s : State} {k : Nat} {r : RemoteStaged} (i : Nat) (h : AdmittedAt k r s) : AdmittedAt k r (admitOne s i) := by
  unfold Machine.admitOne
  cases at_ : s.remoteSt[i]? with
  | none => exact h
  | some x =>
    dsimp only
    split
    · exact h
    · next free =>
      obtain ⟨here, out⟩ := h
      have other : i ≠ k := by
        rintro rfl
        rw [here] at at_
        exact free (.inl (by cases at_; rfl))
      refine ⟨?_, fun p => ?_⟩
      · rw [(send_carried _ _ (Carried.refl _)).remoteSt]
        dsimp only
        rwa [List.getElem?_set_ne other]
      · rw [send_phase] at p
        exact (show Out_ { s with remoteSt := s.remoteSt.set i { x with room := true } } _ from out p).send _

/-- The writes that have their room already are passed over. -/
theorem admitOne_prefix {s : State} {pre post : List RemoteStaged} (staged : s.remoteSt = pre ++ post) (roomed : ∀ x ∈ pre, x.room = true) :
    (List.range pre.length).foldl admitOne s = s := by
  have before : ∀ k, k ≤ pre.length → (List.range k).foldl admitOne s = s := by
    intro k hk
    induction k with
    | zero => rfl
    | succ k ih =>
      have at_ : s.remoteSt[k]? = some pre[k] := by rw [staged, List.getElem?_append_left hk, List.getElem?_eq_getElem hk]
      rw [List.range_succ, List.foldl_append, ih (by omega)]
      exact admitOne_roomed at_ (roomed _ (List.getElem_mem hk))
  exact before _ le_rfl

/-- The first write that waited is taken in once its pound has room for it. -/
theorem admitStaged_first {s : State} {pre post : List RemoteStaged} {r : RemoteStaged} (staged : s.remoteSt = pre ++ r :: post)
    (roomed : ∀ x ∈ pre, x.room = true) (waits : r.room = false) (room : HasRoom s r.addr r.data.length) : AdmittedAt pre.length r (admitStaged s) := by
  have len : s.remoteSt.length = pre.length + 1 + post.length := by rw [staged, List.length_append, List.length_cons]; omega
  have here : s.remoteSt[pre.length]? = some r := by rw [staged, List.getElem?_append_right le_rfl, Nat.sub_self]; rfl
  rw [admitStaged_eq, len, List.range_add, List.range_succ, List.foldl_append, List.foldl_append, admitOne_prefix staged roomed]
  exact foldl_keeps (P := AdmittedAt pre.length r) (fun x i => AdmittedAt.admitOne i) _ (admitOne_admits here waits room)

/-- The room of a pound is that of its queue, of what is staged, of the objects and of the commands. -/
theorem poundFree_same {s t : State} (cfg : t.cfg = s.cfg) (queue : t.poundQ = s.poundQ) (staged : t.remoteSt = s.remoteSt) (objs : t.objs = s.objs)
    (cmds : t.cmds = s.cmds) (d : Nat) (b : Bool) : poundFree t d b = poundFree s d b := by
  unfold poundFree poundSize poundUsed wbGranules hbmPoundBytes basinPoundBytes
  rw [cfg, queue, staged, objs, cmds]

/-- A die's pounds before its waiting writes are looked at: they are empty, and what of them was poisoned is reported (R238, R241). -/
def emptied (s : State) (die : Nat) : State :=
  let qs := s.poundQ.filter (fun q => q.die == die)
  let t := qs.foldl drainOne { s with poundQ := s.poundQ.filter (fun q => !(q.die == die)) }
  if qs.isEmpty then t else count t die slotsDie 0x58 (4 * qs.length) none

theorem execPoundDrain_eq (s : State) (die : Nat) : exec (.poundDrain die) s = .next (admitStaged (emptied s die)) := rfl

section
variable (s : State) (die : Nat)

theorem emptied_reports : Reports { s with poundQ := s.poundQ.filter (fun q => !(q.die == die)) } (emptied s die) := by
  have drained : Reports { s with poundQ := s.poundQ.filter (fun q => !(q.die == die)) } _ :=
    foldl_keeps (fun _ q => drainOne_reports q) (s.poundQ.filter (fun q => q.die == die)) (Reports.refl _)
  unfold emptied
  dsimp only
  split
  · exact drained
  · exact drained.told (count_told _ _ _ _ _ _ (Told.refl _))

theorem emptied_quiet : Quiet s (emptied s die) := by
  have drained : Quiet s _ := foldl_keeps (fun _ q => drainOne_quiet q) (s.poundQ.filter (fun q => q.die == die))
    (Quiet.set (Quiet.refl s) : Quiet s { s with poundQ := s.poundQ.filter (fun q => !(q.die == die)) })
  exact Quiet.ite drained (count_quiet _ _ _ _ _ _ drained)

theorem emptied_kept (d : Nat) : (getMemRegs (emptied s die) d).kept = (getMemRegs s d).kept := by
  have drained := foldl_keeps (fun _ q => drainOne_contained q) (s.poundQ.filter (fun q => q.die == die))
    (Contained.refl { s with poundQ := s.poundQ.filter (fun q => !(q.die == die)) })
  have held := Contained.ite (c := (s.poundQ.filter (fun q => q.die == die)).isEmpty = true) drained
    (count_contained _ die slotsDie 0x58 (4 * (s.poundQ.filter (fun q => q.die == die)).length) none drained)
  exact held.memRegs d

theorem emptied_clean (clean : ∀ q ∈ s.poundQ, q.die = die → poisonedIn s q.addr 256 = none) : (emptied s die).memRegs = s.memRegs := by
  unfold emptied
  dsimp only
  rw [drained_clean (s := { s with poundQ := s.poundQ.filter (fun q => !(q.die == die)) }) fun q hq => by
    obtain ⟨here, on⟩ := List.mem_filter.mp hq
    exact clean q here (by simpa using on)]
  split
  · rfl
  · exact (count_told _ _ _ _ _ _ (Told.refl _)).memRegs

/-- R237, R238, R241: a drain empties its die's pounds, moves no byte, and takes in the first write that waited for the room. -/
theorem poundDrain_drains : ∃ t, exec (.poundDrain die) s = .next t ∧ Carried { s with poundQ := t.poundQ, remoteSt := t.remoteSt, memRegs := t.memRegs } t ∧
    MemSame s t ∧ t.poundQ = s.poundQ.filter (fun q => !(q.die == die)) ∧ (∀ d, (getMemRegs t d).kept = (getMemRegs s d).kept) ∧
    ((∀ q ∈ s.poundQ, q.die = die → poisonedIn s q.addr 256 = none) → t.memRegs = s.memRegs) ∧
    t.remoteSt.map RemoteStaged.unroomed = s.remoteSt.map RemoteStaged.unroomed ∧
    ∀ pre r post, s.remoteSt = pre ++ r :: post → (∀ x ∈ pre, x.room = true) → r.room = false →
      HasRoom { s with poundQ := t.poundQ } r.addr r.data.length → AdmittedAt pre.length r t := by
  have told := emptied_reports s die
  have admitted := admitStaged_admitted (emptied s die)
  have rest := admitted.rest
  have queue : (admitStaged (emptied s die)).poundQ = s.poundQ.filter (fun q => !(q.die == die)) := rest.poundQ.trans told.poundQ
  have regs : (admitStaged (emptied s die)).memRegs = (emptied s die).memRegs := rest.memRegs
  refine ⟨_, execPoundDrain_eq s die, ?_, fun still => ?_, queue, fun d => ?_, fun clean => regs.trans (emptied_clean s die clean),
    admitted.writes.trans (congrArg _ told.remoteSt), fun pre r post staged roomed waits room => ?_⟩
  · have set : Carried
        { s with poundQ := s.poundQ.filter (fun q => !(q.die == die)), remoteSt := (admitStaged (emptied s die)).remoteSt, memRegs := (emptied s die).memRegs }
        { emptied s die with remoteSt := (admitStaged (emptied s die)).remoteSt } := { told.carried with remoteSt := rfl }
    rw [queue, regs]
    exact set.trans rest
  · obtain ⟨mem, host, still'⟩ := emptied_quiet s die still
    obtain ⟨mem', host'⟩ := admitted.mem still'
    exact ⟨mem'.trans mem, host'.trans host⟩
  · show (tget MemRegs.rest (admitStaged (emptied s die)).memRegs d).kept = _
    rw [regs]
    exact emptied_kept s die d
  · refine admitStaged_first (told.remoteSt.trans staged) roomed waits ?_
    unfold HasRoom at room ⊢
    rw [queue] at room
    rwa [poundFree_same told.cfg told.poundQ told.remoteSt told.objs told.cmds]

end

end Sys2Proof.Machine
end

section
/-! Barges move data, and a drain moves none (R210, R237, R238, R241, R254 to R256). -/

namespace Sys2Proof.Machine

/-- Settles O26: a FILL and a plain COPY stage one write of the bytes they read, every other move commits what it staged, and a drain leaves what
its steps leave. -/
theorem bargesMoveData : Obligations.BargesMoveData := by
  unfold Obligations.BargesMoveData
  intro s cid c
  refine ⟨fun h bs d pattern place near => fill_commits h pattern place near, ?_, fun r near no3 => ⟨fun h src done => ?_, fun h done => move_row h done near no3⟩,
    fun die => ?_⟩
  · rintro h n d rfl raw dst src mem here place near
    exact copy_commits h raw dst src mem here place near
  · rw [execCopy_eq h src]
    exact move_row h done near no3
  · obtain ⟨t, run, carried, mem, queue, kept, clean, writes, first⟩ := poundDrain_drains s die
    refine ⟨t, run, carried, mem, queue, kept, clean, writes, fun pre r post staged roomed waits room => ?_⟩
    obtain ⟨here, out⟩ := first pre r post staged roomed waits room
    refine ⟨here, fun on => out ?_⟩
    rwa [carried.phase]

end Sys2Proof.Machine
end

section
/-! Copies that act alone: the removal, the taking and the write-back of copies leave commands and locks as they are (R219, R221, R223). -/

namespace Sys2Proof.Machine

theorem endPromotion_sameLocks {s x : State} (d t : Nat) (bs : List Byte) (h : SameLocks s x) : SameLocks s (endPromotion x d t bs) := by
  unfold endPromotion
  split
  · exact h
  · exact unpinUse_sameLocks _ _ _ (putObj_sameLocks _ _ _ (poundPublish_sameLocks _ _ _ (wrLocal_sameLocks _ _ _ _ h)))

theorem commitWb_sameLocks {s x : State} (d t : Nat) (h : SameLocks s x) : SameLocks s (commitWb x d t) := by
  unfold commitWb
  split
  · exact h
  · extract_lets ws counted out sent dirty dirtied cleared
    have h1 : SameLocks s out := poundPublish_sameLocks _ _ _ (publishWrites_sameLocks _ _ _ (count_sameLocks _ _ _ _ _ _ h))
    have h2 : SameLocks s sent := by
      unfold sent
      split
      · exact send_sameLocks _ _ h1
      · exact h1
    have h3 : SameLocks s cleared := clearCopy_sameLocks _ _ _ (SameLocks.ite (putObj_sameLocks _ _ _ h2) h2)
    split
    · exact h3
    · exact SameLocks.ite (removeCopy_sameLocks _ _ _ h3) h3

theorem pushWb_sameLocks {s x : State} (d t : Nat) (h : SameLocks s x) : SameLocks s (pushWb x d t) := by
  unfold pushWb
  split
  · exact h
  · split
    · exact h
    · exact SameLocks.ite (killWb_sameLocks _ _ _ h) (SameLocks.ite (stageWb_sameLocks _ _ _ _ h) (SameLocks.ite h (commitWb_sameLocks _ _ h)))

theorem seekPlace_sameLocks {s x : State} (d t n : Nat) (h : SameLocks s x) : SameLocks s (seekPlace x d t n) := by
  unfold seekPlace
  split
  · exact h
  · exact placePromotion_sameLocks _ _ _ _ (SameLocks.foldl _ h fun _ _ g => pushWb_sameLocks _ _ (pushWb_sameLocks _ _ g))

/-- Commands and locks stand, beside what every commit leaves. -/
structure Aside (s v : State) : Prop where
  beside : Beside s v
  cmds : v.cmds = s.cmds
  locks : v.locks = s.locks

namespace Aside

theorem refl (s : State) : Aside s s := ⟨Beside.refl s, rfl, rfl⟩

theorem trans {a b c : State} (h : Aside a b) (g : Aside b c) : Aside a c := ⟨h.beside.trans g.beside, g.cmds.trans h.cmds, g.locks.trans h.locks⟩

theorem findCmd {s v : State} (h : Aside s v) (i : Nat) : findCmd v i = findCmd s i := by
  unfold Machine.findCmd
  rw [h.cmds]

theorem runs {s v : State} (h : Aside s v) {cid code : Nat} {c : Cmd} (g : RingRuns s cid code c) : RingRuns v cid code c :=
  ⟨⟨(h.findCmd cid).trans g.runs.1, g.runs.2⟩, g.ring⟩

theorem holds {s v : State} (h : Aside s v) {c : Cmd} (g : NoHolds s c) : NoHolds v c := by
  unfold NoHolds getLock
  rw [h.locks]
  exact g

end Aside

theorem removeCopy_aside (s : State) (d t : Nat) : Aside s (removeCopy s d t) :=
  ⟨removeCopy_beside _ _ _ (Beside.refl s), (removeCopy_sameCmds _ _ _ (SameCmds.refl s)).cmds, (removeCopy_sameLocks _ _ _ (SameLocks.refl s)).locks⟩

theorem pushWb_aside (s : State) (d t : Nat) : Aside s (pushWb s d t) :=
  ⟨pushWb_beside _ _ _ (Beside.refl s), (pushWb_sameCmds _ _ _ (SameCmds.refl s)).cmds, (pushWb_sameLocks _ _ (SameLocks.refl s)).locks⟩

theorem seekPlace_aside (s : State) (d t n : Nat) : Aside s (seekPlace s d t n) :=
  ⟨seekPlace_beside _ _ _ _ (Beside.refl s), (seekPlace_sameCmds _ _ _ _ (SameCmds.refl s)).cmds, (seekPlace_sameLocks _ _ _ (SameLocks.refl s)).locks⟩

theorem endPromotion_aside (s : State) (d t : Nat) (bs : List Byte) : Aside s (endPromotion s d t bs) :=
  ⟨endPromotion_beside _ _ _ _ (Beside.refl s), (endPromotion_sameCmds _ _ _ _ (SameCmds.refl s)).cmds, (endPromotion_sameLocks _ _ _ (SameLocks.refl s)).locks⟩

theorem evictStep_aside (s : State) (d t : Nat) : Aside s (evictStep s d t) := by
  unfold evictStep
  split
  · exact Aside.refl s
  · split
    · exact pushWb_aside s d t
    · split
      · exact removeCopy_aside s d t
      · exact Aside.refl s

-- the object after an attempt to remove its copy -------------------------------------------------------------------------

/-- The object whose copy at a tier is to be removed (R219): a clean copy is gone, a dirty one leaves where its bytes can go back, any other stays. -/
def ResObj.evictedIn (o : ResObj) (w : State) (d t : Nat) : ResObj :=
  if (o.copy t).state ≠ 2 ∨ (t = 2 ∧ o.t1.state = 3) then o
  else if (o.copy t).dirty = false then o.setCopy t noCopy
  else if wbStop w o t = none then o.leavesIn w d t
  else o.setCopy t { o.copy t with pending := false }

namespace ResObj

variable {o : ResObj} {w : State} {d t : Nat}

theorem evictedIn_stays (h : (o.copy t).state ≠ 2) : o.evictedIn w d t = o := if_pos (.inl h)

theorem evictedIn_clean (rests : o.rests t) (clean : (o.copy t).dirty = false) : o.evictedIn w d t = o.setCopy t noCopy := by
  unfold evictedIn
  rw [if_neg (fun h => h.elim (fun g => g rests.1) rests.2), if_pos clean]

theorem evictedIn_leaves (rests : o.rests t) (dirty : (o.copy t).dirty = true) (back : wbStop w o t = none) : o.evictedIn w d t = o.leavesIn w d t := by
  unfold evictedIn
  rw [if_neg (fun h => h.elim (fun g => g rests.1) rests.2), if_neg (by rw [dirty]; decide), if_pos back]

theorem evictedIn_dirty (rests : o.rests t) (dirty : (o.copy t).dirty = true) :
    o.evictedIn w d t = o.leavesIn w d t ∨ o.evictedIn w d t = o.setCopy t { o.copy t with pending := false } := by
  unfold evictedIn
  rw [if_neg (fun h => h.elim (fun g => g rests.1) rests.2), if_neg (by rw [dirty]; decide)]
  split
  · exact .inl rfl
  · exact .inr rfl

end ResObj

theorem removeCopy_evicts {s w : State} {d : Nat} {o : ResObj} (h : Puts s w d o) (t : Nat) : Puts s (removeCopy w d t) d (o.evictedIn w d t) :=
  removeCopy_puts h t

section
variable {s : State} {d t : Nat} {o : ResObj} (found : findObj s d = some o)
include found

theorem evictStep_removes (state : (o.copy t).state ≠ 3) (free : (o.copy t).pins = 0) : evictStep s d t = removeCopy s d t := by
  unfold evictStep
  rw [found]
  dsimp only
  rw [if_neg state, if_pos free]

theorem evictStep_pinned (state : (o.copy t).state ≠ 3) (pinned : 0 < (o.copy t).pins) : evictStep s d t = s := by
  unfold evictStep
  rw [found]
  dsimp only
  rw [if_neg state, if_neg (Nat.ne_of_gt pinned)]

/-- A write-back of which all is acknowledged commits at the next step. -/
theorem evictStep_commits {w : WriteBack} (state : (o.copy t).state = 3) (wb : (o.copy t).wb = some w) (staged : w.staged = true) (back : wbStop s o t = none)
    (acked : wbPeer o t = none ∨ (cutFar (wbWrites s o t)).length ≤ w.acks) : evictStep s d t = commitWb s d t := by
  unfold evictStep
  rw [found]
  dsimp only
  rw [if_pos state]
  unfold pushWb
  rw [found]
  dsimp only
  rw [wb]
  dsimp only
  rw [if_neg (by rw [back]; decide), if_neg (by rw [staged]; decide), if_neg]
  rcases acked with none | all
  · rw [none]; exact Bool.false_ne_true
  · simp only [Bool.and_eq_true, decide_eq_true_eq, not_and, not_lt]
    exact fun _ => all

theorem evictStop_none (c : Cmd) (h : (o.copy t).state ≠ 2 ∨ (o.copy t).dirty = false ∨ 0 < (o.copy t).pins) : evictStop s c d t = none := by
  unfold evictStop
  rw [found]
  exact if_pos h

omit found in
theorem wbStop_of_poison {u : Nat} (poison : poisonedIn s (o.copy t).at_ o.size = some u) : wbStop s o t = some stEcc := by
  unfold wbStop
  rw [poison]
  rfl

omit found in
theorem poisonedIn_of_wbStop (back : wbStop s o t = none) : poisonedIn s (o.copy t).at_ o.size = none := by
  cases poison : poisonedIn s (o.copy t).at_ o.size with
  | none => rfl
  | some u =>
    rw [wbStop_of_poison poison] at back
    cases back

theorem evictStop_of_wbStop (c : Cmd) (back : wbStop s o t = none) : evictStop s c d t = none := by
  unfold evictStop
  rw [found]
  dsimp only
  split
  · rfl
  · rw [poisonedIn_of_wbStop back, back]

/-- A dirty copy whose bytes cannot go back ends the command that asks for its removal. -/
theorem evictStop_ends (c : Cmd) {st : Nat} (state : (o.copy t).state = 2) (dirty : (o.copy t).dirty = true) (free : (o.copy t).pins = 0)
    (stop : wbStop s o t = some st) : ∃ u, evictStop s c d t = some u ∧ Ended s u c st 0 := by
  unfold evictStop
  rw [found]
  dsimp only
  rw [if_neg (by rw [state, dirty, free]; decide)]
  cases poison : poisonedIn s (o.copy t).at_ o.size with
  | none => rw [stop]; exact ⟨_, rfl, endCmd_ended s c st 0⟩
  | some u =>
    have ecc : st = stEcc := Option.some.inj (stop.symm.trans (wbStop_of_poison poison))
    subst ecc
    exact ⟨_, rfl, eccEnd_ended s c u⟩

end

end Sys2Proof.Machine
end

section
/-! The rows of residency: pools and objects, pins, evictions and the end of an object (R212 to R215, R219, R220, R222, R223). -/

namespace Sys2Proof.Machine

theorem Recorded.at {s v t : State} {cid : Nat} {c : Cmd} {r : Stg} (h : Recorded v cid c r t) (time : v.time = s.time) : Recorded s cid c r t := by
  unfold Recorded at h ⊢
  rwa [time] at h

/-- An operation that stages nothing commits by its effect on one object. -/
theorem obj_commits_some {code cid : Nat} {compute : State → Cmd → Out} {eff : State → Cmd → State} {s v : State} {c : Cmd} {d : Nat}
    {P : ResObj → Prop} {r : Stg}
    (h : RingRuns s cid code c) (aside : Aside s v) (hold : NoHolds s c) (run : compute v c = .done r) (is : ∃ l, r = { Stg.none with aux := l })
    (beside : ∀ u, Beside v u → Beside v (eff u (atCommit v (withRun c r))))
    (puts : ∀ u, Beside v u → u.objs = v.objs → ∃ o, P o ∧ Puts s (eff u (atCommit v (withRun c r))) d o) :
    ∃ t o, runOp code compute eff cid v = .next t ∧ Recorded s cid c r t ∧ ObjIs s t d o ∧ P o := by
  obtain ⟨l, rfl⟩ := is
  obtain ⟨u, t, next, bu, objs, bt, recd, same⟩ := obj_row (aside.runs h) run near_none.withAux rfl rfl (aside.holds hold) beside
  obtain ⟨o, p, put⟩ := puts u bu objs
  exact ⟨t, o, next, recd.at aside.beside.time, put.is (aside.beside.trans bt) same, p⟩

theorem obj_commits {code cid : Nat} {compute : State → Cmd → Out} {eff : State → Cmd → State} {s v : State} {c : Cmd} {d : Nat} {o : ResObj} {r : Stg}
    (h : RingRuns s cid code c) (aside : Aside s v) (hold : NoHolds s c) (run : compute v c = .done r) (is : ∃ l, r = { Stg.none with aux := l })
    (beside : ∀ u, Beside v u → Beside v (eff u (atCommit v (withRun c r))))
    (puts : ∀ u, Beside v u → u.objs = v.objs → Puts s (eff u (atCommit v (withRun c r))) d o) :
    ∃ t, runOp code compute eff cid v = .next t ∧ Recorded s cid c r t ∧ ObjIs s t d o := by
  obtain ⟨t, _, next, recd, put, rfl⟩ := obj_commits_some (P := (· = o)) h aside hold run is beside fun u b objs => ⟨o, rfl, puts u b objs⟩
  exact ⟨t, next, recd, put⟩

section
variable {s : State} {cid : Nat} {c : Cmd}

theorem poolInit_ends (h : RingRuns s cid 0x720 c) {st n : Nat} (bad : poolInitBad s c (memRead c.snapMem (resAddr s c.pkt) 64) = some (st, n)) :
    ∃ t, exec (.resPoolInit cid) s = .next t ∧ Ended s t c st n := by
  show ∃ t, execResPoolInit cid s = _ ∧ _
  exact runOp_stop h.runs (congrArg runUnless bad)

theorem resAddr_congr {u : State} (h : u.cfg = s.cfg) (p : Packet) : resAddr u p = resAddr s p := by
  unfold resAddr
  rw [localise_congr h]

theorem poolInit_commits (h : RingRuns s cid 0x720 c) (ok : poolInitBad s c (memRead c.snapMem (resAddr s c.pkt) 64) = none) :
    ∃ t, exec (.resPoolInit cid) s = .next t ∧ Recorded s cid c Stg.none t ∧ Beside { s with pools := t.pools } t ∧
      t.pools = tput s.pools (resAddr s c.pkt) ⟨c.pkt.job, (localise s (gaddrOf (fieldAt (memRead c.snapMem (resAddr s c.pkt) 64) 0 8))).off,
        fieldAt (memRead c.snapMem (resAddr s c.pkt) 64) 8 8⟩ := by
  obtain ⟨t, next, recd, beside⟩ : ∃ t, execResPoolInit cid s = .next t ∧ Recorded s cid c Stg.none t ∧
      Beside { s with pools := tput s.pools (resAddr s c.pkt) ⟨c.pkt.job,
      (localise s (gaddrOf (fieldAt (memRead c.snapMem (resAddr s c.pkt) 64) 0 8))).off, fieldAt (memRead c.snapMem (resAddr s c.pkt) 64) 8 8⟩ } t := by
    refine runOp_commits_effect h (congrArg runUnless ok) near_none rfl fun u b => ?_
    show Beside _ (syncPool { u with pools := tput u.pools (resAddr u c.pkt) ⟨c.pkt.job,
      (localise u (gaddrOf (fieldAt (memRead c.snapMem (resAddr u c.pkt) 64) 0 8))).off, fieldAt (memRead c.snapMem (resAddr u c.pkt) 64) 8 8⟩ } (resAddr u c.pkt))
    rw [resAddr_congr b.cfg, localise_congr b.cfg, b.pools]
    exact syncPool_beside _ _ (b.pools_set _)
  have pools := beside.pools
  exact ⟨t, next, recd, by rw [pools]; exact beside, pools⟩

theorem resCreate_ends (h : RingRuns s cid 0x721 c) {st n : Nat} (bad : resCreateBad s c (memRead c.snapMem (resAddr s c.pkt) 64) = some (st, n)) :
    ∃ t, exec (.resCreate cid) s = .next t ∧ Ended s t c st n := by
  show ∃ t, execResCreate cid s = _ ∧ _
  exact runOp_stop h.runs (congrArg runUnless bad)

theorem objOf_congr {u : State} (h : u.cfg = s.cfg) (job : Nat) (bs : List Byte) : objOf u job bs = objOf s job bs := by
  unfold objOf
  rw [localise_congr h]

theorem resCreate_commits (h : RingRuns s cid 0x721 c) (hold : NoHolds s c) (ok : resCreateBad s c (memRead c.snapMem (resAddr s c.pkt) 64) = none) :
    ∃ t, exec (.resCreate cid) s = .next t ∧ Recorded s cid c Stg.none t ∧
      ObjIs s t (resAddr s c.pkt) (objOf s c.pkt.job (memRead c.snapMem (resAddr s c.pkt) 64)) := by
  refine obj_commits (compute := fun s c => runUnless (resCreateBad s c (memRead c.snapMem (resAddr s c.pkt) 64))) (eff := resCreateEff) h (Aside.refl s) hold
    (congrArg runUnless ok) ⟨[], rfl⟩ (fun u b => putObj_beside _ _ _ b) fun u b objs => ?_
  show Puts s (putObj u (resAddr u c.pkt) (objOf u c.pkt.job (memRead c.snapMem (resAddr u c.pkt) 64))) _ _
  rw [resAddr_congr b.cfg, objOf_congr b.cfg]
  exact Puts.put (fun a _ => by unfold findObj; rw [objs]) _

end

-- pins (R220, R222) -------------------------------------------------------------------------------------------------------

/-- What RES_PIN and RES_UNPIN come to: refused, or a commit that stages nothing (R220). -/
def pinRun (s : State) (c : Cmd) : Out :=
  match findObj s (c.aux.getD 0 0) with
  | some o => if 65535 ≤ (o.copy (c.aux.getD 1 0)).pins then .stop stBad (badAt 0xFF 0) [] else .done { Stg.none with aux := c.aux }
  | none => .stop stBad (badAt 0xFF 0) []

def unpinRun (s : State) (c : Cmd) : Out :=
  match findObj s (c.aux.getD 0 0) with
  | some o => if (o.copy (c.aux.getD 1 0)).resPins = 0 then .stop stBad (badAt 0xFF 0) [] else .done { Stg.none with aux := c.aux }
  | none => .stop stBad (badAt 0xFF 0) []

theorem execResPin_eq (cid : Nat) (s : State) : exec (.resPin cid) s = runOp 0x724 pinRun resPinEff cid s := rfl

theorem execResUnpin_eq (cid : Nat) (s : State) : exec (.resUnpin cid) s = runOp 0x725 unpinRun resUnpinEff cid s := rfl

theorem resPinEff_beside {v u : State} (z : Cmd) (h : Beside v u) : Beside v (resPinEff u z) := by
  unfold resPinEff
  extract_lets d t
  split
  · exact h
  · have killed : Beside v (killWb u d t) := killWb_beside u d t h
    split
    · exact killed
    · exact putObj_beside _ _ _ killed

theorem resUnpinEff_beside {v u : State} (z : Cmd) (h : Beside v u) : Beside v (resUnpinEff u z) := by
  unfold resUnpinEff
  extract_lets d t
  split
  · exact h
  · exact Beside.ite (removeCopy_beside _ _ _ (putObj_beside _ _ _ h)) (putObj_beside _ _ _ h)

/-- The object after an unpin: with the last pin a pending eviction has taken effect (R220, R222). -/
def ResObj.unpinnedIn (o : ResObj) (w : State) (d t : Nat) : ResObj :=
  if ((o.unpinned t).copy t).pins = 0 ∧ ((o.unpinned t).copy t).pending = true ∧ ((o.unpinned t).copy t).state = 2 then (o.unpinned t).evictedIn w d t
  else o.unpinned t

section
variable {s u : State} {z : Cmd} {d t : Nat} {o : ResObj} (named : d = z.aux.getD 0 0) (tier : t = z.aux.getD 1 0) (start : Puts s u d o)
include named tier start

theorem resPinEff_pins : Puts s (resPinEff u z) d ((o.taken t).pinned t) := by
  have killed : Puts s (killWb u d t) d (o.taken t) := killWb_puts start t
  unfold resPinEff
  rw [← named, ← tier]
  dsimp only
  rw [start.here]
  dsimp only
  rw [killed.here]
  exact killed.again _

theorem resUnpinEff_unpins : ∃ w, Puts s (resUnpinEff u z) d (o.unpinnedIn w d t) := by
  have put : Puts s (putObj u d (o.unpinned t)) d (o.unpinned t) := start.again _
  have form : resUnpinEff u z =
      if ((o.unpinned t).copy t).pins = 0 ∧ ((o.unpinned t).copy t).pending = true ∧ ((o.unpinned t).copy t).state = 2 then
        removeCopy (putObj u d (o.unpinned t)) d t else putObj u d (o.unpinned t) := by
    unfold resUnpinEff ResObj.unpinned
    rw [← named, ← tier]
    dsimp only
    rw [start.here, setCopy_copy]
  refine ⟨putObj u d (o.unpinned t), ?_⟩
  rw [form]
  unfold ResObj.unpinnedIn
  split
  · exact removeCopy_evicts put t
  · exact put

end

section
variable {s : State} {cid : Nat} {c : Cmd} {d t : Nat} {o : ResObj} (named : d = c.aux.getD 0 0) (tier : t = c.aux.getD 1 0) (found : findObj s d = some o)
include named tier found

theorem resPin_ends (h : RingRuns s cid 0x724 c) (full : 65535 ≤ (o.copy t).pins) :
    ∃ u, exec (.resPin cid) s = .next u ∧ Ended s u c stBad (badAt 0xFF 0) := by
  rw [execResPin_eq]
  refine runOp_stop h.runs ?_
  unfold pinRun
  rw [← named, ← tier, found]
  exact if_pos full

theorem resPin_commits (h : RingRuns s cid 0x724 c) (hold : NoHolds s c) (few : (o.copy t).pins < 65535) :
    ∃ u, exec (.resPin cid) s = .next u ∧ Recorded s cid c { Stg.none with aux := c.aux } u ∧ ObjIs s u d ((o.taken t).pinned t) := by
  rw [execResPin_eq]
  refine obj_commits h (Aside.refl s) hold ?_ ⟨c.aux, rfl⟩ (fun u b => resPinEff_beside _ b) fun u _ objs => resPinEff_pins named tier (Puts.start objs found)
  unfold pinRun
  rw [← named, ← tier, found]
  exact if_neg (Nat.not_le.mpr few)

theorem resUnpin_ends (h : RingRuns s cid 0x725 c) (none : (o.copy t).resPins = 0) :
    ∃ u, exec (.resUnpin cid) s = .next u ∧ Ended s u c stBad (badAt 0xFF 0) := by
  rw [execResUnpin_eq]
  refine runOp_stop h.runs ?_
  unfold unpinRun
  rw [← named, ← tier, found]
  exact if_pos none

/-- A pin of RES_PIN ends (R220, R222). -/
theorem resUnpin_commits (h : RingRuns s cid 0x725 c) (hold : NoHolds s c) (pinned : 0 < (o.copy t).resPins) :
    ∃ u w, exec (.resUnpin cid) s = .next u ∧ Recorded s cid c { Stg.none with aux := c.aux } u ∧ ObjIs s u d (o.unpinnedIn w d t) := by
  rw [execResUnpin_eq]
  have run : unpinRun s c = .done { Stg.none with aux := c.aux } := by
    unfold unpinRun
    rw [← named, ← tier, found]
    exact if_neg (Nat.ne_of_gt pinned)
  obtain ⟨u, _, next, recd, is, w, rfl⟩ := obj_commits_some (P := fun q => ∃ w, q = o.unpinnedIn w d t) (eff := resUnpinEff) h (Aside.refl s) hold run
    ⟨c.aux, rfl⟩ (fun u b => resUnpinEff_beside _ b) fun u _ objs =>
      let ⟨w, put⟩ := resUnpinEff_unpins named tier (Puts.start objs found)
      ⟨_, ⟨w, rfl⟩, put⟩
  exact ⟨u, w, next, recd, is⟩

end

/-- The last pin of RES_PIN ends on a copy without pins of use, and only then a pending eviction may take effect (R222). -/
theorem ResObj.unpinned_pins {o : ResObj} {t : Nat} (pinned : 0 < (o.copy t).resPins) : ((o.unpinned t).copy t).pins = 0 ↔ (o.copy t).pins = 1 := by
  unfold ResObj.unpinned
  rw [setCopy_copy]
  unfold Copy.pins
  dsimp only
  omega

theorem ResObj.unpinned_copy (o : ResObj) (t : Nat) : (o.unpinned t).copy t = { o.copy t with resPins := (o.copy t).resPins - 1 } := by
  unfold ResObj.unpinned
  rw [setCopy_copy]

theorem ResObj.unpinnedIn_stays {o : ResObj} {w : State} {d t : Nat} (pinned : 0 < (o.copy t).resPins)
    (h : ¬ ((o.copy t).pins = 1 ∧ (o.copy t).pending = true ∧ (o.copy t).state = 2)) : o.unpinnedIn w d t = o.unpinned t := by
  refine if_neg fun last => h ?_
  rwa [ResObj.unpinned_pins pinned, ResObj.unpinned_copy] at last

theorem ResObj.unpinnedIn_last {o : ResObj} {w : State} {d t : Nat} (pinned : 0 < (o.copy t).resPins) (last : (o.copy t).pins = 1)
    (pending : (o.copy t).pending = true) (rests : o.rests t) : o.unpinnedIn w d t = (o.unpinned t).evictedIn w d t := by
  refine if_pos ?_
  rw [ResObj.unpinned_pins pinned, ResObj.unpinned_copy]
  exact ⟨last, pending, rests.1⟩

theorem ResObj.unpinned_rests {o : ResObj} {t : Nat} (rests : o.rests t) : (o.unpinned t).rests t := by
  obtain ⟨state, alone⟩ := rests
  refine ⟨by rw [unpinned_copy]; exact state, fun ⟨two, leaving⟩ => alone ⟨two, ?_⟩⟩
  subst two
  exact leaving

end Sys2Proof.Machine
end

section
/-! RES_EVICT and RES_DESTROY: the removal of copies, with the write-back of a dirty one before it (R219, R222, R223). -/

namespace Sys2Proof.Machine

/-- Is the write-back of a copy under way? -/
def leavingAt (s : State) (d t : Nat) : Bool := match findObj s d with | some o => (o.copy t).state == 3 | none => false

/-- Is an unpinned HBM copy one to which the basin copy is being written back? -/
def awaitsBasin (s : State) (d t : Nat) : Bool :=
  match findObj s d with | some o => t == 2 && o.t1.state == 3 && o.t2.state == 2 && o.t2.pins == 0 | none => false

/-- What a RES_EVICT comes to after its attempt: it goes on until the copy has left. -/
def evictRun (begun : Bool) (d t : Nat) (s : State) (c : Cmd) : Out :=
  if leavingAt s d t then .hold [d, t, 1] else if !begun && awaitsBasin s d t then .hold c.aux else .done { Stg.none with aux := c.aux }

section
variable {s : State} {cid : Nat} {c : Cmd} {d t : Nat}

theorem resEvict_first (h : RingRuns s cid 0x723 c) (aux : c.aux = [d, t]) (goesOn : evictStop s c d t = none) :
    exec (.resEvict cid) s = runOp 0x723 (evictRun false d t) resEvictEff cid (evictStep s d t) := by
  obtain ⟨found, running, op⟩ := h.runs
  show execResEvict cid s = _
  unfold execResEvict
  rw [found]
  dsimp only
  rw [if_neg (by rw [running, op]; decide), aux, if_pos (by show 2 < 3; decide), show evictStop s c ([d, t].getD 0 0) ([d, t].getD 1 0) = none from goesOn]
  rfl

theorem resEvict_stops {u : State} (h : RingRuns s cid 0x723 c) (aux : c.aux = [d, t]) (stops : evictStop s c d t = some u) : exec (.resEvict cid) s = .next u := by
  obtain ⟨found, running, op⟩ := h.runs
  show execResEvict cid s = _
  unfold execResEvict
  rw [found]
  dsimp only
  rw [if_neg (by rw [running, op]; decide), aux, if_pos (by show 2 < 3; decide), show evictStop s c ([d, t].getD 0 0) ([d, t].getD 1 0) = some u from stops]

/-- A RES_EVICT whose write-back has begun goes on with it while it is there. -/
theorem resEvict_begun (h : RingRuns s cid 0x723 c) (aux : c.aux = [d, t, 1]) :
    exec (.resEvict cid) s = runOp 0x723 (evictRun true d t) resEvictEff cid (if leavingAt s d t then evictStep s d t else s) := by
  obtain ⟨found, running, op⟩ := h.runs
  show execResEvict cid s = _
  unfold execResEvict
  rw [found]
  dsimp only
  rw [if_neg (by rw [running, op]; decide), aux, if_neg (by show ¬ 3 < 3; decide)]
  show runOp 0x723 (evictRun true d t) resEvictEff cid (if (true && !(leavingAt s d t)) = true then s else evictStep s d t) = _
  cases leavingAt s d t <;> rfl

theorem leavingAt_of {o : ResObj} (found : findObj s d = some o) : leavingAt s d t = ((o.copy t).state == 3) := by
  unfold leavingAt
  rw [found]

theorem awaitsBasin_of {o : ResObj} (found : findObj s d = some o) : awaitsBasin s d t = (t == 2 && o.t1.state == 3 && o.t2.state == 2 && o.t2.pins == 0) := by
  unfold awaitsBasin
  rw [found]

theorem evictRun_done {o : ResObj} (begun : Bool) (found : findObj s d = some o) (left : (o.copy t).state ≠ 3)
    (free : begun = true ∨ t ≠ 2 ∨ (o.copy t).state ≠ 2 ∨ 0 < (o.copy t).pins) : evictRun begun d t s c = .done { Stg.none with aux := c.aux } := by
  have waits : (!begun && awaitsBasin s d t) = false := by
    rw [awaitsBasin_of found]
    rcases free with begun | other | state | pins
    · rw [begun]; rfl
    · simp [other]
    · by_cases two : t = 2
      · subst two; simp [show o.t2.state ≠ 2 from state]
      · simp [two]
    · by_cases two : t = 2
      · subst two; simp [show o.t2.pins ≠ 0 from Nat.ne_of_gt pins]
      · simp [two]
  unfold evictRun
  rw [leavingAt_of found, beq_eq_false_iff_ne.mpr left, waits]
  rfl

theorem evictRun_leaving {o : ResObj} (begun : Bool) (found : findObj s d = some o) (state : (o.copy t).state = 3) : evictRun begun d t s c = .hold [d, t, 1] := by
  unfold evictRun
  rw [leavingAt_of found, state]
  rfl

theorem resEvictEff_beside {v u : State} (z : Cmd) (h : Beside v u) : Beside v (resEvictEff u z) := by
  unfold resEvictEff
  extract_lets d t
  split
  · exact h
  · exact Beside.ite (putObj_beside _ _ _ h) h

/-- The object that a RES_EVICT leaves at its commit: an eviction is pending where the copy is pinned (R222). -/
def ResObj.pends (o : ResObj) (t n : Nat) : ResObj :=
  if (o.copy t).state ≠ 0 ∧ 0 < (o.copy t).pins ∧ n < 3 then o.setCopy t { o.copy t with pending := true } else o

theorem resEvictEff_pends {u : State} {z : Cmd} {o : ResObj} (named : d = z.aux.getD 0 0) (tier : t = z.aux.getD 1 0) (start : Puts s u d o) :
    Puts s (resEvictEff u z) d (o.pends t z.aux.length) := by
  unfold resEvictEff ResObj.pends
  rw [← named, ← tier]
  dsimp only
  rw [start.here]
  dsimp only
  split
  · exact start.again _
  · exact start

/-- A command goes on with other notes: nothing else changes. -/
theorem runOp_holds {code : Nat} {compute : State → Cmd → Out} {eff : State → Cmd → State} {v : State} {aux : List Nat} (h : RingRuns v cid code c)
    (run : compute v c = .hold aux) :
    runOp code compute eff cid v = .next (putCmd v { c with aux := aux }) ∧ findCmd (putCmd v { c with aux := aux }) cid = some { c with aux := aux } ∧
      Beside v (putCmd v { c with aux := aux }) := by
  obtain ⟨found, running, op⟩ := h.runs
  obtain ⟨id, here⟩ := findCmd_mem found
  refine ⟨?_, ?_, putCmd_beside _ _ ?_ (Beside.refl v)⟩
  · unfold runOp
    rw [found]
    dsimp only
    rw [if_pos ⟨running, op⟩, run]
  · subst id
    exact findCmd_putCmd v { c with aux := aux } here
  · exact (List.mem_map_of_mem (List.mem_of_find?_eq_some found) : c.self ∈ v.cmds.map Cmd.self)

/-- A RES_EVICT whose copy is not on its way out commits. -/
theorem evict_commits {v : State} {n : Nat} {begun : Bool} {q : ResObj} (h : RingRuns s cid 0x723 c) (named : d = c.aux.getD 0 0) (tier : t = c.aux.getD 1 0)
    (len : c.aux.length = n) (aside : Aside s v) (hold : NoHolds s c) (step : Puts s v d q) (left : (q.copy t).state ≠ 3)
    (free : begun = true ∨ t ≠ 2 ∨ (q.copy t).state ≠ 2 ∨ 0 < (q.copy t).pins) :
    ∃ u, runOp 0x723 (evictRun begun d t) resEvictEff cid v = .next u ∧ Recorded s cid c { Stg.none with aux := c.aux } u ∧ ObjIs s u d (q.pends t n) := by
  subst len
  refine obj_commits h aside hold (evictRun_done begun step.here left free) ⟨c.aux, rfl⟩ (fun u b => resEvictEff_beside _ b) fun u b objs => ?_
  have start : Puts s u d q := ⟨by unfold findObj; rw [objs]; exact step.here, fun b hb => by unfold findObj; rw [objs]; exact step.others b hb⟩
  exact resEvictEff_pends (z := atCommit v (withRun c { Stg.none with aux := c.aux })) named tier start

theorem ResObj.pends_absent {q : ResObj} {n : Nat} (h : (q.copy t).state = 0) : q.pends t n = q := if_neg fun g => g.1 h

theorem ResObj.pends_late {q : ResObj} : q.pends t 3 = q := if_neg fun g => absurd g.2.2 (by decide)

variable {o : ResObj} (found : findObj s d = some o)
include found

theorem resEvict_absent (h : RingRuns s cid 0x723 c) (aux : c.aux = [d, t]) (hold : NoHolds s c) (state : (o.copy t).state = 0) :
    ∃ u, exec (.resEvict cid) s = .next u ∧ Recorded s cid c { Stg.none with aux := c.aux } u ∧ ObjIs s u d o := by
  have step : Puts s (evictStep s d t) d o := by
    by_cases free : (o.copy t).pins = 0
    · have put := removeCopy_evicts (Puts.start rfl found) t
      rw [ResObj.evictedIn_stays (by rw [state]; decide)] at put
      rwa [evictStep_removes found (by rw [state]; decide) free]
    · rw [evictStep_pinned found (by rw [state]; decide) (by omega)]
      exact Puts.start rfl found
  have done := evict_commits (n := 2) (begun := false) (t := t) h (by rw [aux]; rfl) (by rw [aux]; rfl) (by rw [aux]; rfl) (evictStep_aside s d t) hold step
    (by rw [state]; decide) (.inr (.inr (.inl (by rw [state]; decide))))
  rw [ResObj.pends_absent state] at done
  rwa [resEvict_first h aux (evictStop_none found c (.inl (by rw [state]; decide)))]

theorem resEvict_pinned (h : RingRuns s cid 0x723 c) (aux : c.aux = [d, t]) (hold : NoHolds s c) (state : (o.copy t).state = 1 ∨ (o.copy t).state = 2)
    (pinned : 0 < (o.copy t).pins) :
    ∃ u, exec (.resEvict cid) s = .next u ∧ Recorded s cid c { Stg.none with aux := c.aux } u ∧
      ObjIs s u d (o.setCopy t { o.copy t with pending := true }) := by
  have stays : (o.copy t).state ≠ 3 := by omega
  have step : Puts s (evictStep s d t) d o := by
    rw [evictStep_pinned found stays pinned]
    exact Puts.start rfl found
  have done := evict_commits (n := 2) (begun := false) (t := t) h (by rw [aux]; rfl) (by rw [aux]; rfl) (by rw [aux]; rfl) (evictStep_aside s d t) hold step
    stays (.inr (.inr (.inr pinned)))
  rw [show o.pends t 2 = o.setCopy t { o.copy t with pending := true } from if_pos ⟨by omega, pinned, by decide⟩] at done
  rwa [resEvict_first h aux (evictStop_none found c (.inr (.inr pinned)))]

theorem resEvict_clean (h : RingRuns s cid 0x723 c) (aux : c.aux = [d, t]) (hold : NoHolds s c) (rests : o.rests t) (free : (o.copy t).pins = 0)
    (clean : (o.copy t).dirty = false) :
    ∃ u, exec (.resEvict cid) s = .next u ∧ Recorded s cid c { Stg.none with aux := c.aux } u ∧ ObjIs s u d (o.setCopy t noCopy) := by
  have step := removeCopy_evicts (Puts.start rfl found) t
  rw [ResObj.evictedIn_clean rests clean, ← evictStep_removes found (by rw [rests.1]; decide) free] at step
  have gone : ((o.setCopy t noCopy).copy t).state = 0 := by rw [setCopy_copy]; rfl
  have done := evict_commits (n := 2) (begun := false) (t := t) h (by rw [aux]; rfl) (by rw [aux]; rfl) (by rw [aux]; rfl) (evictStep_aside s d t) hold step
    (by rw [gone]; decide) (.inr (.inr (.inl (by rw [gone]; decide))))
  rw [ResObj.pends_absent gone] at done
  rwa [resEvict_first h aux (evictStop_none found c (.inr (.inl clean)))]

/-- The attempt to remove an unpinned dirty copy whose bytes can go back begins its write-back. -/
theorem evictStep_leaves (rests : o.rests t) (free : (o.copy t).pins = 0) (dirty : (o.copy t).dirty = true) (back : wbStop s o t = none) :
    Puts s (evictStep s d t) d (o.leavesIn s d t) := by
  have step := removeCopy_evicts (Puts.start rfl found) t
  rwa [ResObj.evictedIn_leaves rests dirty back, ← evictStep_removes found (by rw [rests.1]; decide) free] at step

theorem resEvict_begins (h : RingRuns s cid 0x723 c) (aux : c.aux = [d, t]) (rests : o.rests t) (free : (o.copy t).pins = 0) (dirty : (o.copy t).dirty = true)
    (back : wbStop s o t = none) :
    ∃ u, exec (.resEvict cid) s = .next u ∧ findCmd u cid = some { c with aux := [d, t, 1] } ∧ ObjIs s u d (o.leavesIn s d t) := by
  have step := evictStep_leaves found rests free dirty back
  have leaving : ((o.leavesIn s d t).copy t).state = 3 := by unfold ResObj.leavesIn ResObj.leaving; rw [setCopy_copy]
  have aside := evictStep_aside s d t
  obtain ⟨next, there, beside⟩ := runOp_holds (eff := resEvictEff) (aside.runs h) (evictRun_leaving false step.here leaving)
  rw [resEvict_first h aux (evictStop_of_wbStop found c back)]
  exact ⟨_, next, there, step.is (aside.beside.trans beside) rfl⟩

theorem resEvict_ends (h : RingRuns s cid 0x723 c) (aux : c.aux = [d, t]) {st : Nat} (rests : o.rests t) (free : (o.copy t).pins = 0)
    (dirty : (o.copy t).dirty = true) (stop : wbStop s o t = some st) : ∃ u, exec (.resEvict cid) s = .next u ∧ Ended s u c st 0 := by
  obtain ⟨u, stops, ended⟩ := evictStop_ends found c rests.1 dirty free stop
  exact ⟨u, resEvict_stops h aux stops, ended⟩

/-- A RES_EVICT whose copy was taken again commits, and the copy stays (R223). -/
theorem resEvict_taken (h : RingRuns s cid 0x723 c) (aux : c.aux = [d, t, 1]) (hold : NoHolds s c) (state : (o.copy t).state ≠ 3) :
    ∃ u, exec (.resEvict cid) s = .next u ∧ Recorded s cid c { Stg.none with aux := c.aux } u ∧ ObjIs s u d o := by
  have done := evict_commits (n := 3) (begun := true) (t := t) h (by rw [aux]; rfl) (by rw [aux]; rfl) (by rw [aux]; rfl) (Aside.refl s) hold
    (Puts.start rfl found) state (.inl rfl)
  rw [ResObj.pends_late] at done
  rwa [resEvict_begun h aux, leavingAt_of found, beq_eq_false_iff_ne.mpr state]

/-- A RES_EVICT whose write-back is acknowledged commits it, and the copy is gone (R219). -/
theorem resEvict_left (h : RingRuns s cid 0x723 c) (aux : c.aux = [d, t, 1]) (hold : NoHolds s c) {w : WriteBack} (state : (o.copy t).state = 3)
    (wb : (o.copy t).wb = some w) (staged : w.staged = true) (back : wbStop s o t = none)
    (acked : wbPeer o t = none ∨ (cutFar (wbWrites s o t)).length ≤ w.acks)
    (rest : ¬ ((o.removed t).t2.pins = 0 ∧ (o.removed t).t2.pending = true ∧ (o.removed t).t2.state = 2)) :
    ∃ u, exec (.resEvict cid) s = .next u ∧ Recorded s cid c { Stg.none with aux := c.aux } u ∧ ObjIs s u d (o.removed t) := by
  have step := commitWb_puts (Puts.start rfl found) t rest
  rw [← evictStep_commits found state wb staged back acked] at step
  have gone : ((o.removed t).copy t).state = 0 := by unfold ResObj.removed; rw [setCopy_copy]; rfl
  have done := evict_commits (n := 3) (begun := true) (t := t) h (by rw [aux]; rfl) (by rw [aux]; rfl) (by rw [aux]; rfl) (evictStep_aside s d t) hold step
    (by rw [gone]; decide) (.inl rfl)
  rw [ResObj.pends_late] at done
  rwa [resEvict_begun h aux, leavingAt_of found, state]

end

-- the end of an object (R223) --------------------------------------------------------------------------------------------

/-- Nothing pins an object; its copy at a tier is gone. -/
def unpinnedAt (s : State) (d : Nat) : Bool := match findObj s d with | some o => o.t1.pins == 0 && o.t2.pins == 0 | none => true

def goneAt (s : State) (d t : Nat) : Bool := match findObj s d with | some o => (o.copy t).state == 0 | none => true

/-- What a RES_DESTROY comes to after its attempts: it goes on until both copies are gone. -/
def destroyRun (d : Nat) (s : State) (c : Cmd) : Out := if goneAt s d 1 && goneAt s d 2 then .done { Stg.none with aux := c.aux } else .hold c.aux

/-- The state after the attempts of a RES_DESTROY, the first of them at a tier: the basin copy goes first. -/
def destroySteps (s : State) (c : Cmd) (d t : Nat) : State :=
  let v := evictStep s d t
  if t = 1 ∧ goneAt v d 1 = true ∧ unpinnedAt v d = true ∧ (evictStop v c d 2).isNone = true then evictStep v d 2 else v

section
variable {s : State} {cid : Nat} {c : Cmd} {d : Nat} (named : d = c.aux.getD 0 0) (h : RingRuns s cid 0x726 c)
include named h

theorem resDestroy_eq (free : unpinnedAt s d = true) (goesOn : evictStop s c d (if goneAt s d 1 then 2 else 1) = none) :
    exec (.resDestroy cid) s = runOp 0x726 (destroyRun d) resDestroyEff cid (destroySteps s c d (if goneAt s d 1 then 2 else 1)) := by
  obtain ⟨found, running, op⟩ := h.runs
  subst named
  show execResDestroy cid s = _
  unfold execResDestroy
  rw [found]
  dsimp -zeta only
  extract_lets d isFree isGone t
  rw [if_neg (by rw [running, op]; decide), if_neg (by rw [show isFree s = true from free]; decide), show evictStop s c d t = none from goesOn]
  rfl

theorem resDestroy_stops {u : State} (free : unpinnedAt s d = true) (stops : evictStop s c d (if goneAt s d 1 then 2 else 1) = some u) :
    exec (.resDestroy cid) s = .next u := by
  obtain ⟨found, running, op⟩ := h.runs
  subst named
  show execResDestroy cid s = _
  unfold execResDestroy
  rw [found]
  dsimp -zeta only
  extract_lets d isFree isGone t
  rw [if_neg (by rw [running, op]; decide), if_neg (by rw [show isFree s = true from free]; decide), show evictStop s c d t = some u from stops]

theorem resDestroy_waits (pinned : unpinnedAt s d = false) : ∃ u, exec (.resDestroy cid) s = .next u ∧ StillRuns s u cid c := by
  obtain ⟨found, running, op⟩ := h.runs
  subst named
  show ∃ u, execResDestroy cid s = _ ∧ _
  unfold execResDestroy
  rw [found]
  dsimp -zeta only
  extract_lets d isFree isGone t
  rw [if_neg (by rw [running, op]; decide), if_pos (by rw [show isFree s = false from pinned]; decide)]
  exact hold_row h rfl

end

theorem unpinnedAt_of {s : State} {d : Nat} {o : ResObj} (found : findObj s d = some o) : unpinnedAt s d = (o.t1.pins == 0 && o.t2.pins == 0) := by
  unfold unpinnedAt
  rw [found]

theorem goneAt_of {s : State} {d t : Nat} {o : ResObj} (found : findObj s d = some o) : goneAt s d t = ((o.copy t).state == 0) := by
  unfold goneAt
  rw [found]

/-- The copy that goes first. -/
def ResObj.firstGone (o : ResObj) : Nat := if o.t1.state = 0 then 2 else 1

theorem firstGone_eq {s : State} {d : Nat} {o : ResObj} (found : findObj s d = some o) : (if goneAt s d 1 then 2 else 1) = o.firstGone := by
  have first : (o.copy 1).state = o.t1.state := rfl
  unfold ResObj.firstGone
  rw [goneAt_of found, first]
  by_cases absent : o.t1.state = 0 <;> simp [absent]

theorem destroySteps_aside (s : State) (c : Cmd) (d t : Nat) : Aside s (destroySteps s c d t) := by
  unfold destroySteps
  extract_lets v
  have first : Aside s v := evictStep_aside s d t
  split
  · exact first.trans (evictStep_aside v d 2)
  · exact first

/-- An object without its copy at a tier, which holds nothing of its own. -/
def ResObj.without (o : ResObj) (t : Nat) : ResObj := if (o.copy t).state = 0 then o else o.setCopy t noCopy

theorem ResObj.without_state (o : ResObj) (t : Nat) : ((o.without t).copy t).state = 0 := by
  unfold ResObj.without
  split
  · assumption
  · rw [setCopy_copy]; rfl

theorem ResObj.without_other {o : ResObj} {g t : Nat} (h : ¬ (g = 1 ↔ t = 1)) : (o.without g).copy t = o.copy t := by
  unfold ResObj.without
  split
  · rfl
  · exact setCopy_other h

theorem ResObj.without_pins {o : ResObj} {t : Nat} (h : (o.copy t).pins = 0) : ((o.without t).copy t).pins = 0 := by
  unfold ResObj.without
  split
  · exact h
  · rw [setCopy_copy]; rfl

/-- The attempt to remove a copy that holds nothing of its own takes it away. -/
theorem evictStep_spare {s w : State} {d t : Nat} {o : ResObj} (put : Puts s w d o) (free : (o.copy t).pins = 0) (spare : (o.copy t).spare)
    (alone : ¬ (t = 2 ∧ o.t1.state = 3)) : Puts s (evictStep w d t) d (o.without t) := by
  have removed := removeCopy_evicts put t
  unfold ResObj.without
  rcases spare with absent | ⟨resident, clean⟩
  · rw [evictStep_removes put.here (by rw [absent]; decide) free, if_pos absent]
    rwa [ResObj.evictedIn_stays (by rw [absent]; decide)] at removed
  · rw [evictStep_removes put.here (by rw [resident]; decide) free, if_neg (by rw [resident]; decide)]
    rwa [ResObj.evictedIn_clean ⟨resident, alone⟩ clean] at removed

theorem evictStop_spare {s : State} {d t : Nat} {o : ResObj} (found : findObj s d = some o) (c : Cmd) (spare : (o.copy t).spare) : evictStop s c d t = none :=
  evictStop_none found c (spare.elim (fun absent => .inl (by rw [absent]; decide)) fun ⟨_, clean⟩ => .inr (.inl clean))

theorem resDestroyEff_beside {v u : State} (z : Cmd) (h : Beside v u) : Beside v (resDestroyEff u z) := by
  unfold resDestroyEff
  extract_lets d
  split
  · exact h
  · exact syncPool_beside _ _ (syncPool_beside _ _ (wrLocal_beside _ _ _ _ (wrLocal_beside _ _ _ _ (Beside.set h))))

theorem resDestroyEff_objs {u : State} {z : Cmd} {d : Nat} {o : ResObj} (named : d = z.aux.getD 0 0) (found : findObj u d = some o) :
    (resDestroyEff u z).objs = tdel u.objs d := by
  unfold resDestroyEff
  rw [← named]
  dsimp only
  rw [found]
  exact (syncPool_sameObjs _ _ (syncPool_sameObjs _ _ (wrLocal_sameObjs _ _ _ _ (wrLocal_sameObjs _ _ _ _ (SameObjs.refl { u with objs := tdel u.objs d }))))).objs

section
variable {s : State} {cid : Nat} {c : Cmd} {d : Nat} {o : ResObj} (named : d = c.aux.getD 0 0) (found : findObj s d = some o) (h : RingRuns s cid 0x726 c)
  (free1 : o.t1.pins = 0) (free2 : o.t2.pins = 0)
include named found h free1 free2

omit named h in
theorem unpinnedAt_free : unpinnedAt s d = true := by
  rw [unpinnedAt_of found, free1, free2]
  rfl

omit named h in
/-- Both copies of an object whose copies hold nothing of their own are gone after the attempts. -/
theorem destroySteps_gone (spare1 : o.t1.spare) (spare2 : o.t2.spare) :
    ∃ q, Puts s (destroySteps s c d o.firstGone) d q ∧ (q.copy 1).state = 0 ∧ (q.copy 2).state = 0 := by
  have start : Puts s s d o := Puts.start rfl found
  unfold destroySteps ResObj.firstGone
  by_cases absent : o.t1.state = 0
  · rw [if_pos absent]
    dsimp only
    rw [if_neg (fun both => absurd both.1 (by decide))]
    exact ⟨o.without 2, evictStep_spare start free2 spare2 (fun both => by rw [absent] at both; exact absurd both.2 (by decide)),
      (congrArg Copy.state (ResObj.without_other (by decide))).trans absent, o.without_state 2⟩
  · have first := evictStep_spare (t := 1) start free1 spare1 (by simp)
    have here : (o.without 1).copy 2 = o.t2 := ResObj.without_other (by decide)
    have gone : (o.without 1).t1.state = 0 := o.without_state 1
    have pins1 : (o.without 1).t1.pins = 0 := ResObj.without_pins (t := 1) free1
    have pins2 : (o.without 1).t2.pins = 0 := (congrArg Copy.pins here).trans free2
    have spare : ((o.without 1).copy 2).spare := here ▸ spare2
    have second := evictStep_spare (t := 2) first pins2 spare (fun both => by rw [gone] at both; exact absurd both.2 (by decide))
    have goneNow : goneAt (evictStep s d 1) d 1 = true := by rw [goneAt_of first.here, show ((o.without 1).copy 1).state = 0 from gone]; rfl
    have freeNow : unpinnedAt (evictStep s d 1) d = true := by rw [unpinnedAt_of first.here, pins1, pins2]; rfl
    rw [if_neg absent]
    dsimp only
    rw [if_pos ⟨rfl, goneNow, freeNow, by rw [evictStop_spare first.here c spare]; rfl⟩]
    exact ⟨_, second, (congrArg Copy.state (ResObj.without_other (by decide))).trans gone, ResObj.without_state _ 2⟩

/-- The object of a RES_DESTROY is deactivated once its copies are gone (R223). -/
theorem resDestroy_commits (hold : NoHolds s c) (spare1 : o.t1.spare) (spare2 : o.t2.spare) :
    ∃ u, exec (.resDestroy cid) s = .next u ∧ Recorded s cid c { Stg.none with aux := c.aux } u ∧ Beside s u ∧ findObj u d = none ∧
      ∀ b, b ≠ d → findObj u b = findObj s b := by
  obtain ⟨q, step, gone1, gone2⟩ := destroySteps_gone (c := c) found free1 free2 spare1 spare2
  have aside := destroySteps_aside s c d o.firstGone
  have goesOn : evictStop s c d (if goneAt s d 1 then 2 else 1) = none := by
    split
    · exact evictStop_spare found c spare2
    · exact evictStop_spare found c spare1
  have done : destroyRun d (destroySteps s c d o.firstGone) c = .done { Stg.none with aux := c.aux } := by
    unfold destroyRun
    rw [goneAt_of step.here, goneAt_of step.here, gone1, gone2]
    rfl
  obtain ⟨u, t, next, -, objs, beside, recd, same⟩ := obj_row (aside.runs h) done near_none.withAux rfl rfl (aside.holds hold)
    fun u b => resDestroyEff_beside _ b
  have here : findObj u d = some q := (Puts.start objs step.here).here
  have gone : t.objs = tdel u.objs d := same.trans (resDestroyEff_objs named here)
  rw [resDestroy_eq named h (unpinnedAt_free found free1 free2) goesOn, firstGone_eq found]
  refine ⟨t, next, recd.at aside.beside.time, aside.beside.trans beside, ?_, fun b other => ?_⟩
  · unfold findObj
    rw [gone, tfind_tdel, if_pos rfl]
  · have others := step.others b other
    unfold findObj at others ⊢
    rw [gone, tfind_tdel, if_neg (Ne.symm other), objs, others]

omit found h in
omit named in
theorem firstGone_pins : (o.copy o.firstGone).pins = 0 := by
  unfold ResObj.firstGone
  split
  · exact free2
  · exact free1

/-- A RES_DESTROY begins the write-back of a dirty copy and goes on (R219, R223). -/
theorem resDestroy_begins (state : (o.copy o.firstGone).state = 2) (dirty : (o.copy o.firstGone).dirty = true) (back : wbStop s o o.firstGone = none) :
    ∃ u, exec (.resDestroy cid) s = .next u ∧ findCmd u cid = some c ∧ ObjIs s u d (o.leavesIn s d o.firstGone) := by
  have alone : ¬ (o.firstGone = 2 ∧ o.t1.state = 3) := by
    unfold ResObj.firstGone
    split <;> simp_all
  have step := evictStep_leaves found ⟨state, alone⟩ (firstGone_pins free1 free2) dirty back
  have leaving : ((o.leavesIn s d o.firstGone).copy o.firstGone).state = 3 := by unfold ResObj.leavesIn ResObj.leaving; rw [setCopy_copy]
  have steps : destroySteps s c d o.firstGone = evictStep s d o.firstGone := by
    refine if_neg fun ⟨first, gone, _⟩ => ?_
    rw [goneAt_of step.here, ← first, leaving] at gone
    exact absurd gone (by decide)
  have waits : destroyRun d (evictStep s d o.firstGone) c = .hold c.aux := by
    unfold destroyRun
    rw [goneAt_of step.here, goneAt_of step.here]
    refine if_neg fun both => ?_
    obtain ⟨gone1, gone2⟩ := Bool.and_eq_true_iff.mp both
    unfold ResObj.firstGone at leaving gone1 gone2
    split at leaving <;> simp_all
  have aside := evictStep_aside s d o.firstGone
  obtain ⟨next, there, beside⟩ := runOp_holds (eff := resDestroyEff) (aside.runs h) waits
  rw [resDestroy_eq named h (unpinnedAt_free found free1 free2) (by rw [firstGone_eq found]; exact evictStop_of_wbStop found c back), firstGone_eq found, steps]
  exact ⟨_, next, there, step.is (aside.beside.trans beside) rfl⟩

theorem resDestroy_ends {st : Nat} (state : (o.copy o.firstGone).state = 2) (dirty : (o.copy o.firstGone).dirty = true)
    (stop : wbStop s o o.firstGone = some st) : ∃ u, exec (.resDestroy cid) s = .next u ∧ Ended s u c st 0 := by
  obtain ⟨u, stops, ended⟩ := evictStop_ends found c state dirty (firstGone_pins free1 free2) stop
  exact ⟨u, resDestroy_stops named h (unpinnedAt_free found free1 free2) (by rw [firstGone_eq found]; exact stops), ended⟩

end

end Sys2Proof.Machine
end

section
/-! RES_PROMOTE: a copy that is there, and one whose bytes have come (R218, R221). -/

namespace Sys2Proof.Machine

/-- The commit of a RES_PROMOTE: its record stands, and where it touched no copy but its own, the object has its new STAMP. -/
theorem promoteFin_says {B : State} {z : Cmd} {cid k : Nat} (ring : z.origin = .ring k) (there : findCmd B cid = some z) (writes : z.writes = [])
    (outs : z.outs = []) :
    ∃ u y, findCmd (promoteFin B z) cid = some y ∧ y.phase = .committed ∧ y.commitAt = B.time ∧ Beside B (promoteFin B z) ∧ Beside B u ∧
      (NoHolds B z → u.objs = B.objs ∧ (promoteFin B z).objs = (stampObj u (z.aux.getD 0 0)).objs) := by
  obtain ⟨id, here⟩ := findCmd_mem there
  have self : z.self ∈ B.cmds.map Cmd.self := List.mem_map_of_mem (List.mem_of_find?_eq_some there)
  obtain ⟨u, v, b1, b2, -, -, ⟨objs, -⟩, -, -, form⟩ := commitWith_all (fun s c => promoSignal (stampObj s (c.aux.getD 0 0)) (c.aux.getD 0 0)) B B
    { z with phase := .staged } (Beside.refl B) self
  rw [recorded_ring B v { z with phase := .staged } k ring] at form
  have beside : Beside B v := (promoSignal_beside _ _ (stampObj_beside _ _ b1)).trans b2
  have is : promoteFin B z = putCmd v (recordOf B { z with phase := .staged }) := form
  have signal : ∀ w d, (promoSignal w d).objs = w.objs := fun w d => by
    unfold promoSignal
    split
    · exact (signalLock_sameObjs _ _ _ _ _ _ (SameObjs.refl _)).objs
    · rfl
  rw [is]
  refine ⟨u, recordOf B { z with phase := .staged }, ?_, rfl, rfl, putCmd_beside v _ self beside, b1, fun hold => ?_⟩
  · rw [← id]
    exact findCmd_putCmd v (recordOf B { z with phase := .staged }) (by rw [beside.ids]; exact id ▸ here)
  · obtain ⟨pins, lock⟩ := hold
    obtain ⟨before, after⟩ := objs ⟨writes, outs, pins, lock⟩
    exact ⟨before.objs, after.objs.trans (signal _ _)⟩

section
variable {s : State} {c : Cmd} {d t : Nat} {o : ResObj} {fin : State → Cmd → State} (named : d = c.aux.getD 0 0) (tier : t = c.aux.getD 1 0)
  (found : findObj s d = some o)
include named tier found

theorem tryPromotion_there (there : (o.copy t).held = true) : tryPromotion s c fin = fin s c := by
  unfold tryPromotion
  rw [← named, ← tier]
  dsimp only
  rw [found]
  exact if_pos there

/-- A promotion that has its place and its bytes is brought to its end (R218). -/
theorem tryPromotion_fetched (absent : (o.copy t).held = false) (issued : 3 ≤ c.aux.length) {p : ResObj} {bs : List Byte}
    (placed : findObj (seekPlace s d t (c.aux.getD 2 0)) d = some p) (promoted : (p.copy t).state = 1) (place : (p.copy t).at_ ≠ noPlace)
    (bytes : fetchObj (seekPlace s d t (c.aux.getD 2 0)) c p t = .bytes bs) :
    tryPromotion s c fin = fin (endPromotion (seekPlace s d t (c.aux.getD 2 0)) d t bs) c := by
  unfold tryPromotion
  rw [← named, ← tier]
  dsimp only
  rw [found]
  dsimp only
  rw [if_neg (by rw [absent]; decide), if_neg (Nat.not_lt.mpr issued), placed]
  dsimp only
  rw [if_neg (by rw [promoted]; exact fun h => h.elim (fun g => g rfl) place), bytes]

end

theorem stampObj_puts {s u : State} {d : Nat} {o : ResObj} (start : Puts s u d o) : Puts s (stampObj u d) d { o with stamp := u.time } := by
  unfold stampObj
  rw [start.here]
  exact start.again _

section
variable {s : State} {cid : Nat} {c : Cmd} {d t : Nat} {o : ResObj} (named : d = c.aux.getD 0 0) (tier : t = c.aux.getD 1 0) (found : findObj s d = some o)
  (h : RingRuns s cid 0x722 c) (writes : c.writes = []) (outs : c.outs = [])
include named tier found h writes outs

theorem resPromote_there (there : (o.copy t).held = true) :
    ∃ u z, exec (.resPromote cid) s = .next u ∧ findCmd u cid = some z ∧ z.phase = .committed ∧ z.commitAt = s.time ∧ Beside s u ∧
      (NoHolds s c → ObjIs s u d { o with stamp := s.time }) := by
  obtain ⟨k, ring⟩ := h.ring
  obtain ⟨w, z, recd, phase, at_, beside, bw, objs⟩ := promoteFin_says ring h.runs.1 writes outs
  subst named tier
  refine ⟨_, z, resPromote_says h found there, recd, phase, at_, beside, fun hold => ?_⟩
  obtain ⟨before, after⟩ := objs hold
  have put := stampObj_puts (Puts.start before found)
  rw [bw.time] at put
  exact put.is beside after

/-- A promotion that has its place and its bytes ends (R218). -/
theorem resPromote_fetched (issued : 3 ≤ c.aux.length) (absent : (o.copy t).held = false) {p : ResObj} {bs : List Byte}
    (placed : findObj (seekPlace s d t (c.aux.getD 2 0)) d = some p) (promoted : (p.copy t).state = 1) (place : (p.copy t).at_ ≠ noPlace)
    (bytes : fetchObj (seekPlace s d t (c.aux.getD 2 0)) c p t = .bytes bs) :
    ∃ u z, exec (.resPromote cid) s = .next u ∧ findCmd u cid = some z ∧ z.phase = .committed ∧ z.commitAt = s.time ∧ Beside s u ∧
      (NoHolds s c → (p.copy t).pending = false → ∃ q, findObj u d = some q ∧ (q.copy t).state = 2) := by
  obtain ⟨k, ring⟩ := h.ring
  obtain ⟨there, running, op⟩ := h.runs
  have aside := (seekPlace_aside s d t (c.aux.getD 2 0)).trans (endPromotion_aside _ d t bs)
  have next : exec (.resPromote cid) s = .next (promoteFin (endPromotion (seekPlace s d t (c.aux.getD 2 0)) d t bs) c) := by
    show execResPromote cid s = _
    unfold execResPromote
    rw [there]
    dsimp only
    rw [if_pos ⟨running, op, by rw [ring]⟩]
    rw [tryPromotion_fetched named tier found absent issued placed promoted place bytes]
  obtain ⟨w, z, recd, phase, at_, beside, -, objs⟩ := promoteFin_says ring ((aside.findCmd cid).trans there) writes outs
  refine ⟨_, z, next, recd, phase, at_.trans aside.beside.time, aside.beside.trans beside, fun hold stays => ?_⟩
  obtain ⟨before, after⟩ := objs (aside.holds hold)
  obtain ⟨q, here, resident⟩ := endPromotion_resident bs placed stays
  have stamped := stampObj_stamped w (c.aux.getD 0 0) d q (by unfold findObj at here ⊢; rw [before]; exact here)
  obtain ⟨n, stamped⟩ := stamped
  refine ⟨{ q with stamp := n }, ?_, resident⟩
  unfold findObj at stamped ⊢
  rw [after, stamped]

end

end Sys2Proof.Machine
end

section
/-! Residency follows its commands (R212 to R215, R218 to R223, R237). -/

namespace Sys2Proof.Machine

/-- Settles O27, row by row: what each command's attempt leaves of its object, and the commit, the end or the wait that follows. -/
theorem residencyFollowsItsCommands : Obligations.ResidencyFollowsItsCommands := by
  unfold Obligations.ResidencyFollowsItsCommands
  intro s cid c
  refine ⟨?_, ?_⟩
  · rintro a bs rfl rfl
    refine ⟨fun h => ⟨fun st n => poolInit_ends h, fun ok => ?_⟩, fun h => ⟨fun st n => resCreate_ends h, ?_⟩⟩
    · obtain ⟨t, next, recd, beside, pools⟩ := poolInit_commits h ok
      refine ⟨t, next, recd, beside, ?_, fun b other => ?_⟩
      · rw [pools, tfind_tput, if_pos rfl]
      · rw [pools, tfind_tput, if_neg (Ne.symm other)]
    · rintro ok hold o rfl
      obtain ⟨t, next, recd, is⟩ := resCreate_commits h hold ok
      exact ⟨t, next, recd, is, rfl, rfl, rfl⟩
  · rintro d t o r named tier - found rfl
    refine ⟨fun hold => ⟨fun h few => resPin_commits named tier found h hold few, fun h pinned => ?_, fun h aux => ?_, fun h aux => ?_,
      fun h free1 free2 spare1 spare2 => resDestroy_commits named found h free1 free2 hold spare1 spare2⟩, fun h => resPin_ends named tier found h,
      fun h => resUnpin_ends named tier found h,
      fun h aux rests free dirty => ?_, fun h => ?_, fun h writes outs => ?_⟩
    · obtain ⟨u, w, next, recd, is⟩ := resUnpin_commits named tier found h hold pinned
      refine ⟨u, next, recd, fun none => ?_, fun last pending rests => ⟨fun clean => ?_, fun dirty => ?_⟩⟩
      · rwa [ResObj.unpinnedIn_stays pinned none] at is
      · rwa [ResObj.unpinnedIn_last pinned last pending rests,
          ResObj.evictedIn_clean (ResObj.unpinned_rests rests) (by rw [ResObj.unpinned_copy]; exact clean)] at is
      · rw [ResObj.unpinnedIn_last pinned last pending rests] at is
        rcases ResObj.evictedIn_dirty (w := w) (d := d) (ResObj.unpinned_rests rests) (by rw [ResObj.unpinned_copy]; exact dirty) with leaves | stays
        · exact ⟨_, _, .inl (leaves ▸ is)⟩
        · exact ⟨0, false, .inr (stays ▸ is)⟩
    · exact ⟨resEvict_absent found h aux hold, resEvict_pinned found h aux hold, resEvict_clean found h aux hold⟩
    · exact ⟨resEvict_taken found h aux hold, fun w state wb staged back acked rest => resEvict_left found h aux hold state wb staged back acked rest⟩
    · exact ⟨resEvict_begins found h aux rests free dirty, fun st => resEvict_ends found h aux rests free dirty⟩
    · refine ⟨fun pinned => resDestroy_waits named h ?_, ?_⟩
      · rw [unpinnedAt_of found]
        simpa using pinned
      · rintro g rfl free1 free2 state dirty
        exact ⟨resDestroy_begins named found h free1 free2 state dirty, fun st => resDestroy_ends named found h free1 free2 state dirty⟩
    · refine ⟨resPromote_there named tier found h writes outs, ?_⟩
      rintro issued absent v p bs rfl placed promoted place bytes
      exact resPromote_fetched named tier found h writes outs issued absent placed promoted place bytes

end Sys2Proof.Machine
end

section
/-! Before the effect of its operation a commit changes no object's job: what a schedule's entries name, they still name (R217, R225, R275). -/

namespace Sys2Proof.Machine

/-- At every address there is an object of the same job, or none still. -/
def JobsKept (s t : State) : Prop := ∀ d, (findObj t d).map ResObj.job = (findObj s d).map ResObj.job

namespace JobsKept

theorem refl (s : State) : JobsKept s s := fun _ => rfl

theorem same {s x t : State} (h : JobsKept s x) (g : SameObjs x t) : JobsKept s t := fun d => by
  rw [← h d]
  unfold findObj
  rw [g.objs]

theorem puts {s x t : State} {d : Nat} {o q : ResObj} (h : JobsKept s x) (found : findObj x d = some o) (put : Puts x t d q) (job : q.job = o.job) :
    JobsKept s t := fun b => by
  rw [← h b]
  by_cases here : b = d
  · rw [here, put.here, found, Option.map_some, Option.map_some, job]
  · rw [put.others b here]

theorem ite {s a b : State} {p : Prop} [Decidable p] (h : JobsKept s a) (g : JobsKept s b) : JobsKept s (if p then a else b) := by
  split
  · exact h
  · exact g

end JobsKept

theorem ResObj.setCopy_job (o : ResObj) (t : Nat) (c : Copy) : (o.setCopy t c).job = o.job := by
  unfold ResObj.setCopy
  split <;> rfl

theorem ResObj.evictedIn_job (o : ResObj) (w : State) (d t : Nat) : (o.evictedIn w d t).job = o.job := by
  unfold ResObj.evictedIn
  split
  · rfl
  · split
    · exact o.setCopy_job t _
    · split
      · exact o.setCopy_job t _
      · exact o.setCopy_job t _

theorem removeCopy_jobsKept {s x : State} (d t : Nat) (h : JobsKept s x) : JobsKept s (removeCopy x d t) := by
  cases found : findObj x d with
  | none =>
    unfold removeCopy
    rwa [found]
  | some o => exact h.puts found (removeCopy_evicts (Puts.start rfl found) t) (o.evictedIn_job x d t)

theorem putObj_jobsKept {s x : State} {d : Nat} {o q : ResObj} (h : JobsKept s x) (found : findObj x d = some o) (job : q.job = o.job) :
    JobsKept s (putObj x d q) := h.puts found (Puts.put (fun _ _ => rfl) q) job

theorem unpinUse_jobsKept {s x : State} (d t : Nat) (h : JobsKept s x) : JobsKept s (unpinUse x d t) := by
  unfold unpinUse
  split
  · exact h
  · next o found =>
    have put := putObj_jobsKept h found (o.setCopy_job t { o.copy t with usePins := (o.copy t).usePins - 1 })
    exact JobsKept.ite (removeCopy_jobsKept d t put) put

theorem endHold_jobsKept {s x : State} (p : Nat × Nat) (h : JobsKept s x) : JobsKept s (endHold x p) := by
  unfold endHold
  split
  · exact h
  · exact unpinUse_jobsKept _ _ h

theorem consume_jobsKept {s x : State} (c : Cmd) (h : JobsKept s x) : JobsKept s (consume x c) := by
  unfold consume
  extract_lets l t k r locked counted traced
  exact foldl_keeps (fun _ p => endHold_jobsKept p) _
    (h.same (traceRec_sameObjs _ _ _ (count_sameObjs _ _ _ _ _ _ (setLock_sameObjs _ _ _ (SameObjs.refl x)))))

theorem markDirty_jobsKept {s x : State} (ws : List SWrite) (h : JobsKept s x) : JobsKept s (markDirty x ws) := by
  unfold markDirty
  refine foldl_keeps (fun y e hy => foldl_keeps (fun z t hz => ?_) _ hy) _ h
  split
  · exact hz
  · next o found => exact JobsKept.ite (putObj_jobsKept hz found (o.setCopy_job t _)) hz

/-- The state in which the effect of a command's operation acts: its staged bytes are published and its claim is consumed (R275, R283). -/
def beforeEffect (s : State) (c : Cmd) : State :=
  let same := sameLock s c
  let both := doubleSignal s c
  let c := atCommit s c
  let s := putCmd s c
  let loc := c.writes.filter (fun w => decide (w.tgt.tier < 3))
  let s := poundPublish (markDirty (publishWrites s (jobKey s c.sess c.pkt.job) loc) loc) (stageDie c) loc
  let s := if c.pkt.waitThresh = 0 then s else consume s c
  match same with
  | some l => signalLock s l (c.pkt.sigInc + (if both then lkValue c else 0)) c.pkt.job s.cfg.peerId (some c)
  | none => s

theorem commitWith_acts (eff : State → Cmd → State) (s : State) (c : Cmd) : commitWith eff s c = commitWith (fun _ z => eff (beforeEffect s c) z) s c := rfl

theorem beforeEffect_beside {o s : State} {c : Cmd} (h : Beside o s) (self : c.self ∈ o.cmds.map Cmd.self) : Beside o (beforeEffect s c) := by
  unfold beforeEffect
  extract_lets same both z s1 loc s2 s3
  have out : Beside o s2 := poundPublish_beside _ _ _ (markDirty_beside _ _ (publishWrites_beside _ _ _ (putCmd_beside _ z self h)))
  clear_value same
  have consumed : Beside o s3 := Beside.ite out (consume_beside _ _ out)
  cases same with
  | some l => exact signalLock_beside _ _ _ _ _ _ consumed
  | none => exact consumed

theorem beforeEffect_jobsKept {o s : State} (c : Cmd) (h : JobsKept o s) : JobsKept o (beforeEffect s c) := by
  unfold beforeEffect
  extract_lets same both z s1 loc s2 s3
  have out : JobsKept o s2 := (markDirty_jobsKept _ (h.same (publishWrites_sameObjs _ _ _ (putCmd_sameObjs _ z (SameObjs.refl s))))).same
    (poundPublish_sameObjs _ _ _ (SameObjs.refl _))
  clear_value same
  have consumed : JobsKept o s3 := JobsKept.ite out (consume_jobsKept _ out)
  cases same with
  | some l => exact consumed.same (signalLock_sameObjs _ _ _ _ _ _ (SameObjs.refl _))
  | none => exact consumed

/-- An operation commits by an effect that acts where every object has its job still. -/
theorem runOp_commits_jobsKept {code cid : Nat} {compute : State → Cmd → Out} {eff : State → Cmd → State} {s x : State} {c : Cmd} {r : Stg}
    (h : RingRuns s cid code c) (run : compute s c = .done r) (near : Near r) (cmds : x.cmds = s.cmds)
    (acts : ∀ u, Beside s u → JobsKept s u → Beside x (eff u (atCommit s (withRun c r)))) :
    ∃ t, runOp code compute eff cid s = .next t ∧ Recorded s cid c r t ∧ Beside x t := by
  obtain ⟨found, running, op⟩ := h.runs
  obtain ⟨k, ring⟩ := h.ring
  obtain ⟨id, there⟩ := findCmd_mem found
  have self : (withRun c r).self ∈ s.cmds.map Cmd.self :=
    (List.mem_map_of_mem (List.mem_of_find?_eq_some found) : c.self ∈ s.cmds.map Cmd.self)
  obtain ⟨w, bw, -, mw, staged⟩ := stage_near eff s c r near.wait near.near
  obtain ⟨-, v, -, after, -, -, -, -, -, form⟩ := commitWith_all (fun _ z => eff (beforeEffect w (withRun c r)) z) s w (withRun c r) bw self
  rw [← commitWith_acts, recorded_ring w v (withRun c r) k ring] at form
  have signals : atCommit w (withRun c r) = atCommit s (withRun c r) := by
    unfold atCommit
    rw [bw.time, (mw.signals (withRun c r)).2.2]
  rw [signals] at after
  have beside : Beside x v := (acts _ (beforeEffect_beside bw self) (beforeEffect_jobsKept _ ((JobsKept.refl s).same ⟨mw.objs⟩))).trans after
  have put := findCmd_putCmd v (recordOf w (withRun c r)) (by rw [beside.ids, cmds]; exact id ▸ there)
  refine ⟨putCmd v (recordOf w (withRun c r)), ?_, ⟨recordOf w (withRun c r), id ▸ put, rfl, rfl, rfl, rfl, rfl, bw.time, rfl, ?_⟩,
    putCmd_beside v _ (by rw [cmds]; exact self) beside⟩
  · unfold runOp
    rw [found]
    dsimp only
    rw [if_pos ⟨running, op⟩, run]
    dsimp only
    rw [near.evs]
    exact congrArg Host.Outcome.next (staged.trans form)
  · show (cutFar r.writes).filter _ = _
    rw [cutFar_near _ near.near]

end Sys2Proof.Machine
end

section
/-! PF_START, PF_STOP and PF_RESUME: the state of a schedule (R212, R225, R229, R230). -/

namespace Sys2Proof.Machine

theorem pfEntryOk_kept {s w : State} (cfg : w.cfg = s.cfg) (jobs : JobsKept s w) : pfEntryOf w = pfEntryOf s ∧ pfEntryOk w = pfEntryOk s := by
  have entry : pfEntryOf w = pfEntryOf s := by
    funext b
    unfold pfEntryOf
    rw [localise_congr (s := s) cfg]
  refine ⟨entry, ?_⟩
  funext job die bs
  have same := jobs (pfEntryOf s bs).object
  unfold pfEntryOk
  rw [entry]
  simp only [structRangeBad, localise_congr (s := s) cfg]
  cases here : findObj w (pfEntryOf s bs).object <;> cases there : findObj s (pfEntryOf s bs).object <;> rw [here, there] at same
  case none.some => cases same
  case some.none => cases same
  case some.some o q =>
    have named : o.job = q.job := Option.some.inj same
    dsimp only
    rw [named]

theorem pfOf_kept {s w : State} {c z : Cmd} (cfg : w.cfg = s.cfg) (jobs : JobsKept s w) (mem : w.mem = s.mem) (plain : w.keys = []) (plain' : s.keys = [])
    (pkt : z.pkt = c.pkt) (origin : z.origin = c.origin) (g : GAddr) : pfOf w z g = pfOf s c g := by
  unfold pfOf ctxOf
  simp only [rdKey_plain _ plain, rdKey_plain _ plain', mem, pkt, origin, (pfEntryOk_kept cfg jobs).1, (pfEntryOk_kept cfg jobs).2]

theorem pfRead_kept {s w : State} {c z : Cmd} (cfg : w.cfg = s.cfg) (jobs : JobsKept s w) (pkt : z.pkt = c.pkt) (origin : z.origin = c.origin)
    (mem : z.snapMem = c.snapMem) : pfRead w z = pfRead s c := by
  unfold pfRead
  rw [localise_congr (s := s) cfg, pkt]
  exact pfOf_kept (s := { s with mem := c.snapMem, keys := [] }) (w := { w with mem := z.snapMem, keys := [] }) cfg jobs mem rfl rfl pkt origin _

/-- A schedule that is read stands at entry 0 of step 0, and nothing of it is in flight (R225). -/
theorem pfRead_rests {s : State} {c : Cmd} {p : PfSched} (h : pfRead s c = some p) :
    p.state = 1 ∧ p.cursor = 0 ∧ p.step = 0 ∧ p.stalled = 0 ∧ p.flying = [] := by
  unfold pfRead pfOf at h
  dsimp only at h
  split at h
  · cases h
    exact ⟨rfl, rfl, rfl, rfl, rfl⟩
  · cases h

theorem pfAddr_congr {s u : State} (h : u.cfg = s.cfg) (p : Packet) : pfAddr u p = pfAddr s p := by
  unfold pfAddr
  rw [localise_congr h]

/-- Commands that begin to stall for arrival change nothing else (R229). -/
theorem stalls_beside {s u : State} (w : State) (h : Beside s u) : Beside s { u with cmds := u.cmds.map (beginArrivalStall w) } := by
  have self : ∀ x : Cmd, (beginArrivalStall w x).self = x.self := fun x => by unfold beginArrivalStall; split <;> rfl
  have id : ∀ x : Cmd, (beginArrivalStall w x).id = x.id := fun x => by unfold beginArrivalStall; split <;> rfl
  refine { h with ids := ?_, same := fun x hx => ?_ }
  · rw [← h.ids, List.map_map]
    exact List.map_congr_left fun x _ => id x
  · obtain ⟨y, there, rfl⟩ := List.mem_map.mp hx
    rw [self]
    exact h.same y there

section
variable {s : State} {cid : Nat} {c : Cmd}

theorem pfStart_ends (h : RingRuns s cid 0x728 c) {st n : Nat} (bad : pfStartBad s c (pfRead s c) = some (st, n)) :
    ∃ t, exec (.pfStart cid) s = .next t ∧ Ended s t c st n := by
  show ∃ t, execPfStart cid s = _ ∧ _
  exact runOp_stop h.runs (congrArg runUnless bad)

theorem pfStart_commits (h : RingRuns s cid 0x728 c) (ok : pfStartBad s c (pfRead s c) = none) {p : PfSched} (read : pfRead s c = some p) :
    ∃ t, exec (.pfStart cid) s = .next t ∧ Recorded s cid c Stg.none t ∧ PfIs s t (pfAddr s c.pkt) p := by
  obtain ⟨t, next, recd, beside⟩ : ∃ t, execPfStart cid s = .next t ∧ Recorded s cid c Stg.none t ∧
      Beside { s with pfs := tput s.pfs (pfAddr s c.pkt) p } t := by
    refine runOp_commits_jobsKept h (congrArg runUnless ok) near_none rfl fun u b jobs => ?_
    have same : pfRead u (atCommit s (withRun c Stg.none)) = some p := (pfRead_kept b.cfg jobs rfl rfl rfl).trans read
    have put : Beside { s with pfs := tput s.pfs (pfAddr s c.pkt) p } (putPf u (pfAddr u c.pkt) p) := by
      rw [pfAddr_congr b.cfg, ← b.pfs]
      exact putPf_beside _ p b
    unfold pfStartEff
    rw [same]
    exact stalls_beside _ put
  exact ⟨t, next, recd, pf_is (Beside.refl s) beside⟩

/-- A row that puts its schedule, or leaves it as it is. -/
theorem pf_puts {code : Nat} {eff : State → Cmd → State} {q : PfSched} (h : RingRuns s cid code c)
    (acts : ∀ u, Beside s u → eff u (atCommit s (withRun c Stg.none)) = putPf u (pfAddr s c.pkt) q) :
    ∃ t, runOp code (fun _ _ => .done Stg.none) eff cid s = .next t ∧ Recorded s cid c Stg.none t ∧ PfIs s t (pfAddr s c.pkt) q := by
  obtain ⟨t, next, recd, beside⟩ := runOp_commits_effect (x := { s with pfs := tput s.pfs (pfAddr s c.pkt) q }) (eff := eff)
    (compute := fun _ _ => .done Stg.none) h rfl
    near_none rfl fun u b => by
      rw [acts u b, ← b.pfs]
      exact putPf_beside _ q b
  exact ⟨t, next, recd, pf_is (Beside.refl s) beside⟩

theorem pf_stays {code : Nat} {eff : State → Cmd → State} {p : PfSched} (h : RingRuns s cid code c) (found : tfind s.pfs (pfAddr s c.pkt) = some p)
    (acts : ∀ u, Beside s u → eff u (atCommit s (withRun c Stg.none)) = u) :
    ∃ t, runOp code (fun _ _ => .done Stg.none) eff cid s = .next t ∧ Recorded s cid c Stg.none t ∧ PfIs s t (pfAddr s c.pkt) p := by
  obtain ⟨t, next, recd, beside⟩ := runOp_commits_effect (x := s) (eff := eff) (compute := fun _ _ => .done Stg.none) h rfl near_none rfl
    fun u b => by rwa [acts u b]
  exact ⟨t, next, recd, pf_same beside found⟩

variable {p : PfSched} (found : tfind s.pfs (pfAddr s c.pkt) = some p)
include found

theorem pf_found {u : State} (b : Beside s u) : tfind u.pfs (pfAddr u c.pkt) = some p := by rw [pfAddr_congr b.cfg, b.pfs, found]

theorem pfStopEff_eq {u : State} {z : Cmd} (pkt : z.pkt = c.pkt) (b : Beside s u) :
    pfStopEff u z = if p.state = 1 then putPf u (pfAddr s c.pkt) { p with state := 2 } else u := by
  unfold pfStopEff
  rw [pkt]
  dsimp only
  rw [pf_found found b, pfAddr_congr b.cfg]

theorem pfResumeEff_eq {u : State} {z : Cmd} (pkt : z.pkt = c.pkt) (origin : z.origin = c.origin) (b : Beside s u) :
    pfResumeEff u z = if p.state = 2 ∨ p.state = 3 then putPf u (pfAddr s c.pkt) { p with state := 1, ctx := ctxOf c } else u := by
  unfold pfResumeEff ctxOf
  rw [pkt, origin]
  dsimp only
  rw [pf_found found b, pfAddr_congr b.cfg]

theorem pfStop_commits (h : RingRuns s cid 0x729 c) :
    ∃ t, exec (.pfStop cid) s = .next t ∧ Recorded s cid c Stg.none t ∧ PfIs s t (pfAddr s c.pkt) (if p.state = 1 then { p with state := 2 } else p) := by
  show ∃ t, execPfStop cid s = _ ∧ _
  by_cases runs : p.state = 1
  · rw [if_pos runs]
    exact pf_puts h fun u b => (pfStopEff_eq found rfl b).trans (if_pos runs)
  · rw [if_neg runs]
    exact pf_stays h found fun u b => (pfStopEff_eq found rfl b).trans (if_neg runs)

theorem pfResume_commits (h : RingRuns s cid 0x72A c) :
    ∃ t, exec (.pfResume cid) s = .next t ∧ Recorded s cid c Stg.none t ∧
      PfIs s t (pfAddr s c.pkt) (if p.state = 2 ∨ p.state = 3 then { p with state := 1, ctx := ctxOf c } else p) := by
  show ∃ t, execPfResume cid s = _ ∧ _
  by_cases rests : p.state = 2 ∨ p.state = 3
  · rw [if_pos rests]
    exact pf_puts h fun u b => (pfResumeEff_eq found rfl rfl b).trans (if_pos rests)
  · rw [if_neg rests]
    exact pf_stays h found fun u b => (pfResumeEff_eq found rfl rfl b).trans (if_neg rests)

end

end Sys2Proof.Machine
end

section
/-! The promotions of a schedule: issued, begun, resumed and committed (R218, R221, R227, R228, R230, R237, R306). -/

namespace Sys2Proof.Machine

theorem stamped_copy (o : ResObj) (t n : Nat) (c : Copy) : ({ o.setCopy t c with stamp := n } : ResObj).copy t = c :=
  (rfl : _ = (o.setCopy t c).copy t).trans (setCopy_copy ..)

theorem pinUse_puts {s w : State} {d : Nat} {o : ResObj} (put : Puts s w d o) (t : Nat) :
    Puts s (pinUse w d t) d { o.setCopy t { o.copy t with usePins := (o.copy t).usePins + 1 } with stamp := w.time } := by
  unfold pinUse
  rw [put.here]
  exact put.again _

theorem ResObj.taken_held {o : ResObj} {t : Nat} (held : (o.copy t).held = true) : ((o.taken t).copy t).held = true := by
  unfold ResObj.taken
  split
  · exact held
  · rw [setCopy_copy]; rfl

/-- A copy that is there stays there when a promotion takes it (R220, R223). -/
theorem holdPromotion_held {w : State} {d t : Nat} {o : ResObj} (found : findObj w d = some o) (held : (o.copy t).held = true) :
    ∃ q, findObj (holdPromotion w d t) d = some q ∧ (q.copy t).held = true := by
  have pinned := pinUse_puts (killWb_puts (Puts.start rfl found) t) t
  have taken : ((o.taken t).copy t).held = true := ResObj.taken_held held
  unfold holdPromotion takeCopy
  dsimp only
  rw [pinned.here]
  refine ⟨_, (pinned.again _).here, ?_⟩
  rw [setCopy_copy, stamped_copy]
  exact taken

theorem Promoted.unheld {s : State} {d t : Nat} (h : Promoted s d t) : ∃ q, findObj s d = some q ∧ (q.copy t).held = false := by
  obtain ⟨q, found, state⟩ := h
  refine ⟨q, found, ?_⟩
  unfold Copy.held
  rw [state]
  rfl

theorem pinUse_promoted {w : State} {d t : Nat} (h : Promoted w d t) : Promoted (pinUse w d t) d t := by
  obtain ⟨q, found, state⟩ := h
  exact ⟨_, (pinUse_puts (Puts.start rfl found) t).here, by rw [stamped_copy]; exact state⟩

theorem wide_putCmd (a : State) (n : Nat) (c : Cmd) : Wide a (putCmd { a with serial := n } c) :=
  (Wide.refl a).with a.pfs (putCmd { a with serial := n } c).cmds a.nextId n

/-- A promotion of a schedule has begun: its command runs, and beside commands, copies and starts nothing has changed. -/
structure Began (a t : State) (c : Cmd) : Prop where
  wide : Wide a t
  pfs : t.pfs = a.pfs
  run : ∃ aux rs, t.cmds = (putCmd a (promoRun a c aux rs)).cmds

theorem Began.of {a b t : State} {c : Cmd} {aux : List Nat} {rs : List (Nat × Nat)} (wide : Wide a b) (pfs : b.pfs = a.pfs)
    (cmds : b.cmds = (putCmd a (promoRun a c aux rs)).cmds) (beside : Beside b t) (same : t.cmds = b.cmds) : Began a t c :=
  ⟨wide.beside beside, beside.pfs.trans pfs, aux, rs, same.trans cmds⟩

theorem Began.found {a t : State} {c y : Cmd} (h : Began a t c) (there : findCmd a c.id = some y) :
    ∃ z, findCmd t c.id = some z ∧ z.id = c.id ∧ z.origin = c.origin ∧ z.phase = .running ∧ z.runs = c.runs + 1 ∧ z.started = a.time ∧
      z ∈ t.cmds ∧ (Plain c → Plain z) := by
  obtain ⟨aux, rs, cmds⟩ := h.run
  have put : findCmd t c.id = some (promoRun a c aux rs) := by
    unfold findCmd
    rw [cmds]
    exact findCmd_put_same (c := promoRun a c aux rs) there
  exact ⟨_, put, rfl, rfl, rfl, rfl, rfl, List.mem_of_find?_eq_some put, id⟩

section
variable {a : State} {c : Cmd} {k e : Nat} {p : PfSched} {x : PfEntry} {o : ResObj} (sched : tfind a.pfs k = some p) (entry : p.entries[e]? = some x)
  (found : findObj a x.object = some o) (job : o.job = p.job) (pool : o.poolOf x.target ≠ 0)
include sched entry found job pool

theorem begin_held (held : (o.copy x.target).held = true) :
    Began a (beginPrefetch a c k e) c ∧ ∃ q, findObj (beginPrefetch a c k e) x.object = some q ∧ (q.copy x.target).held = true := by
  rw [(begin_says sched entry found job pool).1 held]
  exact ⟨Began.of (wide_putCmd a a.serial _) rfl rfl (holdPromotion_beside _ _ _ (Beside.refl _)) (holdPromotion_sameCmds _ _ _ (SameCmds.refl _)).cmds,
    holdPromotion_held (w := putCmd a (promoRun a c [x.object, x.target] [])) found held⟩

theorem begin_promoted (absent : (o.copy x.target).held = false)
    (room : (o.copy x.target).state = 1 ∨ resvTooBig a (promoNeed a o x.target) = false ∧ resvLacks a (promoNeed a o x.target) = false) :
    Began a (beginPrefetch a c k e) c ∧ Promoted (beginPrefetch a c k e) x.object x.target := by
  obtain ⟨-, joins, runs⟩ := begin_says (c := c) sched entry found job pool
  by_cases under : (o.copy x.target).state = 1
  · rw [joins absent under]
    exact ⟨Began.of (wide_putCmd a a.serial _) rfl rfl (pinUse_beside _ _ _ (Beside.refl _)) (pinUse_sameCmds _ _ _ (SameCmds.refl _)).cmds,
      pinUse_promoted (w := putCmd a (promoRun a c [x.object, x.target] [])) ⟨o, found, under⟩⟩
  · obtain ⟨small, free⟩ := room.resolve_left under
    obtain ⟨b, rfl, beside, cmds, promoted⟩ := (runs absent under small).2 free
    exact ⟨Began.of (wide_putCmd a (a.serial + 1) _) rfl rfl beside cmds, promoted⟩

theorem begin_lacks (absent : (o.copy x.target).held = false) (idle : (o.copy x.target).state ≠ 1) (small : resvTooBig a (promoNeed a o x.target) = false)
    (lacks : resvLacks a (promoNeed a o x.target) = true) : beginPrefetch a c k e = a := by
  obtain ⟨-, -, runs⟩ := begin_says (c := c) sched entry found job pool
  exact (runs absent idle small).1 lacks

end

-- issue (R227) -----------------------------------------------------------------------------------------------------------

/-- What PREFETCH_ISSUE comes to: a schedule that may not issue does nothing. -/
theorem prefetchIssue_blocked {s : State} {k : Nat} {p : PfSched} {x : PfEntry} (sched : tfind s.pfs k = some p) (entry : p.entries[p.cursor]? = some x)
    (blocked : PfBlocked s p x) : exec (.prefetchIssue k) s = .next s := by
  show execPrefetchIssue k s = _
  unfold execPrefetchIssue
  rw [sched]
  dsimp -zeta only
  rw [entry]
  dsimp -zeta only
  extract_lets gate live last p' s1 die s2 ses c s3
  refine congrArg Host.Outcome.next (if_pos ?_)
  rcases blocked with state | dead | waits | full
  · exact .inl state
  · exact .inr (.inl ((live_iff s p.job).mpr dead))
  · exact .inr (.inr (.inl waits))
  · exact .inr (.inr (.inr full))

/-- The state in which an issued promotion begins: its schedule has passed the entry, and its command waits. -/
structure Issues (s a : State) (k : Nat) (p p' : PfSched) (c : Cmd) : Prop where
  turned : Turned p p'
  flying : p'.flying = p.flying ++ [(p.step, p.cursor)]
  stalled : p'.stalled = p.stalled
  wide : Wide s a
  pfs : a.pfs = tput s.pfs k p'
  objs : a.objs = s.objs
  pools : a.pools = s.pools
  cfg : a.cfg = s.cfg
  queue : a.poundQ = s.poundQ
  staged : a.remoteSt = s.remoteSt
  cmds : a.cmds = s.cmds ++ [c]
  id : c.id = s.nextId
  origin : c.origin = .promotion k p.cursor
  plain : Plain c
  reserved : c.reserved = []
  waits : c.phase = .waiting

/-- What PREFETCH_ISSUE ends with: an entry whose copy is there arrives at once. -/
def issueEnd (t : State) (c : Cmd) (x : PfEntry) : State :=
  match findCmd t c.id, findObj t x.object with
  | some c', some o => if (o.copy x.target).held then prefetchFin t c' else t
  | _, _ => t

theorem prefetchIssue_eq {s : State} {k : Nat} {p : PfSched} {x : PfEntry} (sched : tfind s.pfs k = some p) (entry : p.entries[p.cursor]? = some x)
    (free : ¬ PfBlocked s p x) :
    ∃ a p' c, Issues s a k p p' c ∧ exec (.prefetchIssue k) s = .next (issueEnd (beginPrefetch a c k p.cursor) c x) := by
  obtain ⟨p', w, c, turned, flying, stalled, beside, objs, cmds, queue, id, origin, plain, reserved, waits, next⟩ := issue_is sched entry free
  have same : ({ c with id := w.nextId } : Cmd) = c := by rw [beside.nextId, ← id]
  have wide : Wide s w := wide_of (a := tput s.pfs k p') (b := s.cmds) (n := s.nextId) (m := s.serial) beside
  refine ⟨issueOwn w c, p', c, ⟨turned, flying, stalled, wide.with w.pfs (issueOwn w c).cmds (w.nextId + 1) w.serial, beside.pfs, objs,
    beside.pools, beside.cfg, queue, beside.remoteSt, ?_, id, origin, plain, reserved, waits⟩, next⟩
  show w.cmds ++ [{ c with id := w.nextId }] = _
  rw [same, cmds]

namespace Issues

variable {s a : State} {k : Nat} {p p' : PfSched} {c : Cmd} (h : Issues s a k p p' c)
include h

theorem found (d : Nat) : findObj a d = findObj s d := by
  unfold findObj
  rw [h.objs]

theorem sched : tfind a.pfs k = some p' := by rw [h.pfs, tfind_tput, if_pos rfl]

theorem entries : p'.entries = p.entries := by
  have same := congrArg PfSched.entries h.turned.1
  exact same

theorem job : p'.job = p.job := by
  have same := congrArg PfSched.job h.turned.1
  exact same

theorem there (fresh : ∀ z ∈ s.cmds, z.id ≠ s.nextId) : findCmd a c.id = some c := by
  unfold findCmd
  rw [h.cmds, List.find?_append, List.find?_eq_none.mpr fun z hz => by rw [h.id]; simpa using fresh z hz]
  simp

theorem need (o : ResObj) (t : Nat) : promoNeed a o t = promoNeed s o t := by
  unfold promoNeed
  rw [h.pools]

theorem tooBig (o : ResObj) (t : Nat) : resvTooBig a (promoNeed a o t) = resvTooBig s (promoNeed s o t) := by
  rw [h.need]
  unfold resvTooBig poundSize hbmPoundBytes basinPoundBytes
  rw [h.cfg]

theorem lacks (o : ResObj) (t : Nat) : resvLacks a (promoNeed a o t) = resvLacks s (promoNeed s o t) := by
  rw [h.need]
  unfold resvLacks
  simp only [poundFree_congr h.cfg h.queue h.staged h.objs ⟨c, h.cmds, h.reserved⟩]

/-- What a promotion that begins leaves of the schedules. -/
theorem only {t : State} (began : Began a t c) : PfOnly s t k ∧ tfind t.pfs k = some p' := by
  refine ⟨⟨wide_trans h.wide began.wide, fun b other => ?_⟩, ?_⟩
  · rw [began.pfs, h.pfs, tfind_tput, if_neg (Ne.symm other)]
  · rw [began.pfs, h.sched]

end Issues

theorem issueEnd_unheld {t : State} {c : Cmd} {x : PfEntry} {o : ResObj} (found : findObj t x.object = some o) (absent : (o.copy x.target).held = false) :
    issueEnd t c x = t := by
  unfold issueEnd
  rw [found]
  split
  · next c' q _ same =>
    cases same
    exact if_neg (by rw [absent]; decide)
  · rfl

section
variable {s : State} {k : Nat} {p : PfSched} {x : PfEntry} {o : ResObj} (sched : tfind s.pfs k = some p) (entry : p.entries[p.cursor]? = some x)
  (free : ¬ PfBlocked s p x) (fresh : ∀ z ∈ s.cmds, z.id ≠ s.nextId) (found : findObj s x.object = some o) (job : o.job = p.job)
  (pool : o.poolOf x.target ≠ 0)
include sched entry free fresh found job pool

/-- An entry whose copy is there arrives at once (R227). -/
theorem prefetchIssue_arrives (held : (o.copy x.target).held = true) :
    ∃ t p', exec (.prefetchIssue k) s = .next t ∧ PfOnly s t k ∧ tfind t.pfs k = some p' ∧ Turned p p' ∧
      p'.flying = (p.flying ++ [(p.step, p.cursor)]).eraseP (fun y => y.2 == p.cursor) ∧ ∀ z ∈ t.cmds, z.id ≠ s.nextId := by
  obtain ⟨a, p', c, h, next⟩ := prefetchIssue_eq sched entry free
  have entry' : p'.entries[p.cursor]? = some x := h.entries ▸ entry
  obtain ⟨began, q, here, there⟩ := begin_held (c := c) h.sched entry' ((h.found _).trans found) (job.trans h.job.symm) pool held
  obtain ⟨z, run, id, origin, -, -, -, mem, plain⟩ := began.found (h.there fresh)
  obtain ⟨only, sched'⟩ := h.only began
  obtain ⟨p'', wide, others, is, turned, gone, -⟩ := fin_says (origin.trans h.origin) (plain h.plain) sched' entry' (List.mem_map_of_mem mem)
  have ends : issueEnd (beginPrefetch a c k p.cursor) c x = prefetchFin (beginPrefetch a c k p.cursor) z := by
    unfold issueEnd
    rw [run, here]
    exact if_pos there
  rw [next, ends]
  have flying := congrArg PfSched.flying turned
  refine ⟨_, p'', rfl, ⟨wide_trans only.1 wide, fun b other => (others b other).trans (only.2 b other)⟩, is, ?_, ?_, fun y hy => ?_⟩
  · obtain ⟨kept, last, step⟩ := h.turned
    cases p''
    cases p'
    simp only [PfSched.mk.injEq] at turned
    obtain ⟨rfl, rfl, rfl, rfl, rfl, rfl, -, rfl, rfl⟩ := turned
    exact ⟨kept, last, step⟩
  · rw [← h.flying]
    exact flying
  · rw [← h.id, ← id]
    exact gone y hy

/-- Any other entry is in flight: its promotion runs, or waits for room in the pound (R227, R237). -/
theorem prefetchIssue_flies (absent : (o.copy x.target).held = false) (small : (o.copy x.target).state = 1 ∨ resvTooBig s (promoNeed s o x.target) = false) :
    ∃ t p', exec (.prefetchIssue k) s = .next t ∧ PfOnly s t k ∧ tfind t.pfs k = some p' ∧ Turned p p' ∧
      p'.flying = p.flying ++ [(p.step, p.cursor)] ∧ p'.stalled = p.stalled ∧
      ∃ z ∈ t.cmds, z.id = s.nextId ∧ z.origin = .promotion k p.cursor ∧
        ((o.copy x.target).state = 1 ∨ resvLacks s (promoNeed s o x.target) = false → z.phase = .running) ∧
        ((o.copy x.target).state ≠ 1 → resvLacks s (promoNeed s o x.target) = true → z.phase = .waiting) := by
  obtain ⟨a, p', c, h, next⟩ := prefetchIssue_eq sched entry free
  have entry' : p'.entries[p.cursor]? = some x := h.entries ▸ entry
  have here := (h.found x.object).trans found
  have named := job.trans h.job.symm
  by_cases waits : (o.copy x.target).state ≠ 1 ∧ resvLacks s (promoNeed s o x.target) = true
  · obtain ⟨idle, lacks⟩ := waits
    have stays := begin_lacks (c := c) h.sched entry' here named pool absent idle ((h.tooBig o _).trans (small.resolve_left idle)) ((h.lacks o _).trans lacks)
    rw [next, stays, issueEnd_unheld here absent]
    refine ⟨a, p', rfl, ⟨h.wide, fun b other => ?_⟩, h.sched, h.turned, h.flying, h.stalled, c, ?_, h.id, h.origin, fun runs => ?_, fun _ _ => h.waits⟩
    · rw [h.pfs, tfind_tput, if_neg (Ne.symm other)]
    · rw [h.cmds]
      exact List.mem_append_right _ List.mem_cons_self
    · exact absurd (runs.resolve_left idle) (by rw [lacks]; decide)
  · have room : (o.copy x.target).state = 1 ∨ resvTooBig a (promoNeed a o x.target) = false ∧ resvLacks a (promoNeed a o x.target) = false := by
      rw [h.tooBig, h.lacks]
      by_cases under : (o.copy x.target).state = 1
      · exact .inl under
      · exact .inr ⟨small.resolve_left under, by simpa [under] using waits⟩
    obtain ⟨began, promoted⟩ := begin_promoted (c := c) h.sched entry' here named pool absent room
    obtain ⟨z, -, id, origin, running, -, -, mem, -⟩ := began.found (h.there fresh)
    obtain ⟨only, is⟩ := h.only began
    obtain ⟨q, there, unheld⟩ := promoted.unheld
    rw [next, issueEnd_unheld there unheld]
    exact ⟨_, p', rfl, only, is, h.turned, h.flying, h.stalled, z, mem, id.trans h.id, origin.trans h.origin, fun _ => running,
      fun idle lacks => absurd ⟨idle, lacks⟩ waits⟩

end

-- commit and resumption (R218, R221, R230) ---------------------------------------------------------------------------------

section
variable {s : State} {cid k e : Nat} {c : Cmd} {p : PfSched} {x : PfEntry} (sched : tfind s.pfs k = some p) (there : findCmd s cid = some c)
  (origin : c.origin = .promotion k e) (entry : p.entries[e]? = some x)
include sched there origin entry

/-- The end of a promotion of a schedule, from a state that differs in copies only. -/
theorem prefetchFin_ends {B : State} (plain : Plain c) (aside : Aside s B) :
    ∃ p', PfOnly s (prefetchFin B c) k ∧ tfind (prefetchFin B c).pfs k = some p' ∧
      { p' with stalled := p.stalled } = { p with flying := p.flying.eraseP (fun y => y.2 == e) } ∧ (∀ z ∈ (prefetchFin B c).cmds, z.id ≠ cid) ∧
      Stamped B (prefetchFin B c) := by
  have self : c.self ∈ B.cmds.map Cmd.self := by rw [aside.cmds]; exact List.mem_map_of_mem (List.mem_of_find?_eq_some there)
  obtain ⟨p', wide, others, is, turned, gone, stamped⟩ := fin_says origin plain (by rw [aside.beside.pfs]; exact sched) entry self
  refine ⟨p', ⟨wide_trans ((Wide.refl s).beside aside.beside) wide, fun b other => (others b other).trans (by rw [aside.beside.pfs])⟩, is, turned,
    ?_, stamped⟩
  rw [← (findCmd_mem there).1]
  exact gone

omit sched entry in
theorem promotionCommit_eq (running : c.phase = .running) : exec (.promotionCommit cid) s = .next (tryPromotion s c prefetchFin) := by
  show execPromotionCommit cid s = _
  unfold execPromotionCommit
  rw [there]
  dsimp only
  rw [origin]
  exact congrArg Host.Outcome.next (if_pos running)

/-- A promotion whose copy is there, or whose bytes have come to its place, commits (R218, R227). -/
theorem promotionCommit_commits {d g : Nat} {o : ResObj} (named : d = c.aux.getD 0 0) (tier : g = c.aux.getD 1 0) (running : c.phase = .running) (plain : Plain c)
    (ready : findObj s d = some o ∧ (o.copy g).held = true ∨
      (∃ b, findObj s d = some b ∧ (b.copy g).held = false) ∧ 3 ≤ c.aux.length ∧ findObj (seekPlace s d g (c.aux.getD 2 0)) d = some o ∧
        (o.copy g).state = 1 ∧ (o.copy g).at_ ≠ noPlace ∧ ∃ bs, fetchObj (seekPlace s d g (c.aux.getD 2 0)) c o g = .bytes bs) :
    ∃ t p', exec (.promotionCommit cid) s = .next t ∧ PfOnly s t k ∧ tfind t.pfs k = some p' ∧
      { p' with stalled := p.stalled } = { p with flying := p.flying.eraseP (fun y => y.2 == e) } ∧ (∀ z ∈ t.cmds, z.id ≠ cid) ∧
      ((o.copy g).state = 1 → (o.copy g).pending = false → ∃ q, findObj t d = some q ∧ (q.copy g).state = 2) := by
  rw [promotionCommit_eq there origin running]
  rcases ready with ⟨here, held⟩ | ⟨⟨b, here, absent⟩, issued, placed, promoted, place, bs, bytes⟩
  · obtain ⟨p', only, is, turned, gone, -⟩ := prefetchFin_ends sched there origin entry plain (Aside.refl s)
    rw [tryPromotion_there named tier here held]
    refine ⟨_, p', rfl, only, is, turned, gone, fun state => ?_⟩
    unfold Copy.held at held
    rw [state] at held
    cases held
  · have aside := (seekPlace_aside s d g (c.aux.getD 2 0)).trans (endPromotion_aside _ d g bs)
    obtain ⟨p', only, is, turned, gone, stamped⟩ := prefetchFin_ends sched there origin entry plain aside
    rw [tryPromotion_fetched named tier here absent issued placed promoted place bytes]
    refine ⟨_, p', rfl, only, is, turned, gone, fun _ stays => ?_⟩
    obtain ⟨q, resident, state⟩ := endPromotion_resident bs placed stays
    obtain ⟨n, is⟩ := stamped d q resident
    exact ⟨_, is, state⟩

omit sched entry in
theorem promotionResume_waiting (waiting : c.phase = .waiting) (scheduled : k ≠ 0) (free : promoHeld s k = false) :
    exec (.promotionResume cid) s = .next (beginPrefetch s c k e) := by
  show execPromotionResume cid s = _
  unfold execPromotionResume
  rw [there]
  dsimp only
  rw [origin]
  dsimp only
  rw [if_pos waiting, if_neg scheduled, free]
  rfl

variable {o : ResObj} (waiting : c.phase = .waiting) (scheduled : k ≠ 0) (free : promoHeld s k = false) (found : findObj s x.object = some o)
  (job : o.job = p.job) (pool : o.poolOf x.target ≠ 0)
include waiting scheduled free found job pool

/-- A killed promotion begins again, where its copy is there or under way, or its pound has the room (R230, R237). -/
theorem promotionResume_begins (ready : (o.copy x.target).held = true ∨ (o.copy x.target).state = 1 ∨
      resvTooBig s (promoNeed s o x.target) = false ∧ resvLacks s (promoNeed s o x.target) = false) :
    ∃ t, exec (.promotionResume cid) s = .next t ∧ PfOnly s t k ∧ t.pfs = s.pfs ∧
      ∃ z, findCmd t cid = some z ∧ z.phase = .running ∧ z.runs = c.runs + 1 ∧ z.started = s.time := by
  have began : Began s (beginPrefetch s c k e) c := by
    by_cases held : (o.copy x.target).held = true
    · exact (begin_held sched entry found job pool held).1
    · exact (begin_promoted sched entry found job pool (by simpa using held) (ready.resolve_left held)).1
  obtain ⟨id, -⟩ := findCmd_mem there
  obtain ⟨z, run, -, -, running, runs, started, -⟩ := began.found (id.symm ▸ there)
  refine ⟨_, promotionResume_waiting there origin waiting scheduled free, ⟨began.wide, fun b _ => by rw [began.pfs]⟩, began.pfs,
    z, ?_, running, runs, started⟩
  rwa [id] at run

theorem promotionResume_waits (absent : (o.copy x.target).held = false) (idle : (o.copy x.target).state ≠ 1)
    (small : resvTooBig s (promoNeed s o x.target) = false) (lacks : resvLacks s (promoNeed s o x.target) = true) :
    exec (.promotionResume cid) s = .next s := by
  rw [promotionResume_waiting there origin waiting scheduled free, begin_lacks sched entry found job pool absent idle small lacks]

end

-- places (R221) and the promotions of an INIT_LIST (R306) -------------------------------------------------------------------

theorem pushWb_idle {s : State} {d t : Nat} (h : ∀ q, findObj s d = some q → (q.copy t).wb = none) : pushWb s d t = s := by
  unfold pushWb
  split
  · rfl
  · next q found => rw [h q found]

/-- Where no copy is being written back, nothing of a pool goes on. -/
theorem pushWbs_idle {s : State} {ds : List Nat} (h : ∀ d ∈ ds, ∀ q, findObj s d = some q → q.t1.wb = none ∧ q.t2.wb = none) : pushWbs s ds = s := by
  induction ds with
  | nil => rfl
  | cons d ds ih =>
    have idle := h d List.mem_cons_self
    have first : pushWb s d 1 = s := pushWb_idle fun q found => (idle q found).1
    have second : pushWb s d 2 = s := pushWb_idle fun q found => (idle q found).2
    show pushWbs (pushWb (pushWb s d 1) d 2) ds = s
    rw [first, second]
    exact ih fun b hb => h b (List.mem_cons_of_mem _ hb)

theorem makeSpace_free {s : State} {t n a : Nat} {o : ResObj} (space : poolSpace s o t = some a) : makeSpace t o (n + 1) s = (s, some a) := by
  rw [makeSpace]
  dsimp only
  rw [space]

/-- A promotion that waited for space takes its place (R221). -/
theorem seekPlace_takes {s : State} {d g n a : Nat} {o : ResObj} (found : findObj s d = some o) (promoted : (o.copy g).state = 1) (waits : (o.copy g).at_ = noPlace)
    (first : earlierWaits s (o.poolOf g) n = false)
    (idle : ∀ y ∈ poolCopies s (o.poolOf g), ∀ q, findObj s y.2.2.1 = some q → q.t1.wb = none ∧ q.t2.wb = none) (space : poolSpace s o g = some a) :
    seekPlace s d g n = putObj s d (o.setCopy g { o.copy g with at_ := a }) := by
  unfold seekPlace
  rw [found]
  dsimp only
  rw [pushWbs_idle fun b hb q => by
    obtain ⟨y, there, rfl⟩ := List.mem_map.mp hb
    exact idle y there q]
  unfold placePromotion
  rw [found]
  dsimp only
  rw [if_neg (by rw [promoted, waits, first]; simp), makeSpace_free space]
  dsimp only
  rw [found]

theorem promotionResume_places {s : State} {cid k e d g a : Nat} {c : Cmd} {o : ResObj} (there : findCmd s cid = some c) (origin : c.origin = .promotion k e)
    (named : d = c.aux.getD 0 0) (tier : g = c.aux.getD 1 0) (running : c.phase = .running) (issued : 3 ≤ c.aux.length) (found : findObj s d = some o)
    (promoted : (o.copy g).state = 1) (waits : (o.copy g).at_ = noPlace) (first : earlierWaits s (o.poolOf g) (c.aux.getD 2 0) = false)
    (idle : ∀ y ∈ poolCopies s (o.poolOf g), ∀ q, findObj s y.2.2.1 = some q → q.t1.wb = none ∧ q.t2.wb = none) (space : poolSpace s o g = some a) :
    ∃ t, exec (.promotionResume cid) s = .next t ∧ ObjIs s t d (o.setCopy g { o.copy g with at_ := a }) ∧ t.cmds = s.cmds := by
  have next : exec (.promotionResume cid) s = .next (seekPlace s d g (c.aux.getD 2 0)) := by
    show execPromotionResume cid s = _
    unfold execPromotionResume
    rw [there]
    dsimp only
    rw [origin]
    dsimp only
    rw [if_neg (by rw [running]; decide), if_pos ⟨running, issued⟩, named, tier]
  rw [next, seekPlace_takes found promoted waits first idle space]
  exact ⟨_, rfl, ((Puts.start rfl found).again _).is (putObj_beside _ _ _ (Beside.refl s)) rfl, (putObj_sameCmds _ _ _ (SameCmds.refl s)).cmds⟩

/-- A promotion of an INIT_LIST object that was killed begins again (R306). -/
theorem promotionResume_inits {s : State} {cid e d : Nat} {c : Cmd} {o : ResObj} (there : findCmd s cid = some c) (origin : c.origin = .promotion 0 e)
    (waiting : c.phase = .waiting) (named : d = (descAddr (c.pkt.slot 0)).off) (found : findObj s d = some o) (job : o.job = c.pkt.job) (pool : o.poolT1 ≠ 0)
    (absent : o.t1.state = 0) (small : resvTooBig s (promoNeed s o 1) = false) (room : resvLacks s (promoNeed s o 1) = false) :
    ∃ t z, exec (.promotionResume cid) s = .next t ∧ PfOnly s t 0 ∧ t.pfs = s.pfs ∧ findCmd t cid = some z ∧
      z.phase = .running ∧ z.runs = c.runs + 1 := by
  obtain ⟨id, -⟩ := findCmd_mem there
  let run := promoRun s c [d, 1, s.serial] (promoNeed s o 1)
  have next : exec (.promotionResume cid) s = .next (startPromotion (putCmd { s with serial := s.serial + 1 } run) d 1 s.serial) := by
    show execPromotionResume cid s = _
    unfold execPromotionResume
    rw [there]
    dsimp only
    rw [origin]
    dsimp only
    rw [if_pos waiting, if_pos rfl]
    unfold beginInit
    rw [← named]
    dsimp only
    rw [found]
    dsimp only
    rw [if_neg (by rw [job, absent]; simp [pool]), if_neg (by rw [small]; decide), if_neg (by rw [room]; decide)]
    rfl
  have beside := startPromotion_beside _ d 1 s.serial (Beside.refl (putCmd { s with serial := s.serial + 1 } run))
  have cmds := (startPromotion_sameCmds _ d 1 s.serial (SameCmds.refl (putCmd { s with serial := s.serial + 1 } run))).cmds
  have put : findCmd (putCmd { s with serial := s.serial + 1 } run) cid = some run := by
    rw [← id]
    exact findCmd_put_same (s := { s with serial := s.serial + 1 }) (c := run) (b := c) (id.symm ▸ there)
  refine ⟨_, run, next, ⟨(wide_putCmd s (s.serial + 1) run).beside beside, fun b _ => by rw [beside.pfs]; rfl⟩, beside.pfs, ?_, rfl, rfl⟩
  unfold findCmd
  rw [cmds]
  exact put

end Sys2Proof.Machine
end

section
/-! Prefetch schedules start, stop, resume and issue (R218, R221, R225, R227 to R230, R237, R306). -/

namespace Sys2Proof.Machine

/-- Settles O28, row by row: the three commands commit by putting their schedule; an issued entry's promotion begins at once or waits; and a promotion
resumes, takes its place, or commits with its entry's arrival. -/
theorem schedulesPrefetch : Obligations.SchedulesPrefetch := by
  unfold Obligations.SchedulesPrefetch
  intro s cid k c
  refine ⟨?_, fun p sched => ⟨?_, fun x entry => ⟨prefetchIssue_blocked sched entry, fun free fresh o found job pool =>
    ⟨prefetchIssue_arrives sched entry free fresh found job pool, prefetchIssue_flies sched entry free fresh found job pool⟩⟩, ?_⟩, ?_⟩
  · rintro h rfl
    refine ⟨fun st n => pfStart_ends h, fun ok p read => ?_⟩
    obtain ⟨t, next, recd, is⟩ := pfStart_commits h ok read
    exact ⟨t, next, recd, is, pfRead_rests read⟩
  · rintro rfl
    exact ⟨pfStop_commits sched, pfResume_commits sched⟩
  · intro e x d g o there origin entry named tier
    refine ⟨?_, fun running issued found promoted waits first idle a space =>
      promotionResume_places there origin named tier running issued found promoted waits first idle space, fun waiting scheduled free found job pool =>
      ⟨promotionResume_begins sched there origin entry waiting scheduled free found job pool,
        promotionResume_waits sched there origin entry waiting scheduled free found job pool⟩⟩
    rintro running plain v rfl ready
    exact promotionCommit_commits sched there origin entry named tier running plain ready
  · intro e d o there origin waiting named found job pool absent small room
    exact promotionResume_inits there origin waiting named found job pool absent small room

end Sys2Proof.Machine
end

section
/-! Lenders and borrowers: reads and writes of other modules, and the answers to this one's (R205, R207, R210, R219, R237, R239, R275, R278, R284, R286, R353, R356). -/

namespace Sys2Proof.Machine

-- what a message that is heard leaves (R346, R352) -------------------------------------------------------------------------

theorem Carried.up {s u : State} (h : Carried s u) (d : Nat) : (getDie u d).up = (getDie s d).up := by
  have kept := congrArg Die.up (h.dies d)
  exact kept

theorem Heard.traffic {s u : State} {m : MsgHdr} (h : Heard s u m) : u.sent = s.sent ∧ u.held = s.held := by
  obtain ⟨w, v, rfl, told, -⟩ := h
  exact ⟨told.sent, told.held⟩

theorem Heard.cmdOfMsg {s u : State} {m : MsgHdr} (h : Heard s u m) (p : Cmd → Bool) : cmdOfMsg u m p = cmdOfMsg s m p := by
  unfold Machine.cmdOfMsg
  rw [h.carried.cmds]

theorem Heard.objs {s u : State} {m : MsgHdr} (h : Heard s u m) (d : Nat) : findObj u d = findObj s d := by
  unfold findObj
  rw [h.carried.objs]

/-- A message is answered from a state that has reported only, memory's registers apart. -/
theorem answered {s u w : State} {m : MsgHdr} {typ tc : Nat} {body : List Nat} {data : List Byte} (h : Heard s u m) (reports : Reports u w) (quiet : Quiet u w)
    (alive : s.power.phase ≠ 0xF) :
    Carried { s with memRegs := w.memRegs } (send w ⟨m.src, typ, tc, m.job, m.seq, m.runs, m.ctx, 0, 0, body, data⟩) ∧
      MemSame s (send w ⟨m.src, typ, tc, m.job, m.seq, m.runs, m.ctx, 0, 0, body, data⟩) ∧
      Replied s (send w ⟨m.src, typ, tc, m.job, m.seq, m.runs, m.ctx, 0, 0, body, data⟩) m typ tc body data := by
  have carried : Carried { u with memRegs := w.memRegs } w := Told.carried reports
  have heard : Carried { s with memRegs := w.memRegs } { u with memRegs := w.memRegs } := { h.carried with memRegs := rfl }
  obtain ⟨sent, held⟩ := h.traffic
  refine ⟨send_carried _ _ (heard.trans carried), memSame_of h (send_quiet _ _ quiet), replied_send (reports.sent.trans sent) (reports.held.trans held) ?_⟩
  rw [(heard.trans carried).phase]
  exact alive

theorem loanDenied_reports {s x : State} (m : MsgHdr) (addr : Nat) (h : Reports s x) : Reports s (loanDenied x m addr) :=
  h.told (raise_told _ _ _ _ _ _ _ _ _ (Told.refl x))

theorem loanDenied_quiet {s x : State} (m : MsgHdr) (addr : Nat) (h : Quiet s x) : Quiet s (loanDenied x m addr) := raise_quiet _ _ _ _ _ _ _ _ _ h

theorem loanDenied_memRegs (s : State) (m : MsgHdr) (addr : Nat) : (loanDenied s m addr).memRegs = s.memRegs :=
  (raise_told _ _ _ _ _ _ _ _ _ (Told.refl s) : Told s (loanDenied s m addr)).memRegs

/-- A refusal leaves only its report and its answer (R205, R207). -/
theorem denied {s u : State} {m : MsgHdr} {typ tc : Nat} {body : List Nat} {data : List Byte} (addr : Nat) (h : Heard s u m) (alive : s.power.phase ≠ 0xF) :
    Carried s (send (loanDenied u m addr) ⟨m.src, typ, tc, m.job, m.seq, m.runs, m.ctx, 0, 0, body, data⟩) ∧
      MemSame s (send (loanDenied u m addr) ⟨m.src, typ, tc, m.job, m.seq, m.runs, m.ctx, 0, 0, body, data⟩) ∧
      Replied s (send (loanDenied u m addr) ⟨m.src, typ, tc, m.job, m.seq, m.runs, m.ctx, 0, 0, body, data⟩) m typ tc body data := by
  have all := answered (typ := typ) (tc := tc) (body := body) (data := data) h (loanDenied_reports m addr (Reports.refl u)) (loanDenied_quiet m addr (Quiet.refl u)) alive
  rw [loanDenied_memRegs, h.carried.memRegs] at all
  exact all

section
variable {s : State} {m : MsgHdr}

-- reads (R205, R207, R210, R241) -------------------------------------------------------------------------------------------

theorem readKey_carried {u : State} (h : Carried s u) (addr len : Nat) (engine : Bool) : readKey u m addr len engine = readKey s m addr len engine := by
  unfold readKey loanCuts shardReadable lofs jobKey findJob getSes
  simp only [h.up, h.loans, h.shards, h.jobs, h.sessions, localise_congr (s := s) h.cfg]

theorem readReq_denied (h : Arrives s mtReadReq m) {addr len : Nat} {engine : Bool} (refused : readKey s m addr len engine = none) :
    ∃ t, exec (.readReq m addr len engine) s = .next t ∧ Carried s t ∧ MemSame s t ∧ Replied s t m mtReadResp m.tc [addr, 0] [] := by
  obtain ⟨u, heard, acts⟩ := receive_heard h
  refine ⟨answerRead (loanDenied u m addr) m addr 0 [], ?_, denied addr heard h.alive.1⟩
  show execReadReq m addr len engine s = _
  unfold execReadReq
  rw [acts, readKey_carried heard.carried, refused]

theorem readReq_eq (h : Arrives s mtReadReq m) (free : Uncaptured s) {addr len key : Nat} {engine : Bool} (allowed : readKey s m addr len engine = some key) :
    ∃ u, Heard s u m ∧ exec (.readReq m addr len engine) s = .next (match poisonedIn s (served s (gLocal addr) len).1.off len with
      | some p => answerRead (memError u (dieOfAddr p) 1 m.job 0xFFFF m.seq none (gLocal p).code) m addr 1 []
      | none => answerRead u m addr 0 (readBytes s key addr len)) := by
  obtain ⟨w, u, rfl, heard, acts⟩ := receive_uncaptured h free
  refine ⟨_, heard, ?_⟩
  show execReadReq m addr len engine s = _
  unfold execReadReq
  rw [acts, readKey_carried heard.carried, allowed] <;> rfl

theorem readReq_reads (h : Arrives s mtReadReq m) (free : Uncaptured s) {addr len key : Nat} {engine : Bool} (allowed : readKey s m addr len engine = some key)
    (clean : poisonedIn s (served s (gLocal addr) len).1.off len = none) :
    ∃ t, exec (.readReq m addr len engine) s = .next t ∧ Carried s t ∧ MemSame s t ∧ Replied s t m mtReadResp m.tc [addr, 0] (readBytes s key addr len) := by
  obtain ⟨u, heard, next⟩ := readReq_eq h free allowed
  rw [clean] at next
  have all := answered (typ := mtReadResp) (tc := m.tc) (body := [addr, 0]) (data := readBytes s key addr len) heard (Reports.refl u) (Quiet.refl u) h.alive.1
  rw [heard.carried.memRegs] at all
  exact ⟨_, next, all⟩

theorem readReq_poisoned (h : Arrives s mtReadReq m) (free : Uncaptured s) {addr len key p : Nat} {engine : Bool} (allowed : readKey s m addr len engine = some key)
    (poison : poisonedIn s (served s (gLocal addr) len).1.off len = some p) :
    ∃ t, exec (.readReq m addr len engine) s = .next t ∧ Carried { s with memRegs := t.memRegs } t ∧ MemSame s t ∧
      Replied s t m mtReadResp m.tc [addr, 1] [] := by
  obtain ⟨u, heard, next⟩ := readReq_eq h free allowed
  rw [poison] at next
  obtain ⟨carried, mem, replied⟩ := answered (typ := mtReadResp) (tc := m.tc) (body := [addr, 1]) (data := []) heard
    (memError_reports (dieOfAddr p) 1 m.job 0xFFFF m.seq none (gLocal p).code (Reports.refl u))
    (memError_quiet (dieOfAddr p) 1 m.job 0xFFFF m.seq none (gLocal p).code (Quiet.refl u)) h.alive.1
  refine ⟨_, next, ?_, mem, replied⟩
  have regs := carried.memRegs
  rw [show (answerRead (memError u (dieOfAddr p) 1 m.job 0xFFFF m.seq none (gLocal p).code) m addr 1 []).memRegs = _ from regs]
  exact carried

-- the answers to reads (R210, R278) ----------------------------------------------------------------------------------------

theorem readResp_eq (h : Arrives s mtReadResp m) (addr : Nat) (data : List Byte) :
    ∃ u, Heard s u m ∧ exec (.readResp m addr data) s = .next (
      if data = [] then
        match cmdOfMsg s m (fun c => c.asked.any (fun a => a.1 == m.src && a.2.1 == addr && !(received c a))) with
        | some c => endCmd u c (if m.len = 0 then stDenied else stEcc) (if m.len = 0 then farSlot c m.src addr else 0)
        | none => u
      else
        match cmdOfMsg s m (fun c => c.asked.contains (m.src, addr, data.length) && !(received c (m.src, addr, data.length))) with
        | some c => putCmd u { c with remote := c.remote ++ [⟨m.src, addr, data⟩] }
        | none => u) := by
  obtain ⟨u, heard, acts⟩ := receive_heard h
  refine ⟨u, heard, ?_⟩
  show execReadResp m addr data s = _
  unfold execReadResp
  rw [acts, heard.cmdOfMsg, heard.cmdOfMsg] <;> rfl

theorem readResp_reaches (h : Arrives s mtReadResp m) {addr : Nat} {data : List Byte} :
    (∀ c, data ≠ [] → cmdOfMsg s m (fun c => c.asked.contains (m.src, addr, data.length) && !(received c (m.src, addr, data.length))) = some c →
      ∃ u, Heard s u m ∧ exec (.readResp m addr data) s = .next (putCmd u { c with remote := c.remote ++ [⟨m.src, addr, data⟩] })) ∧
    (data ≠ [] → cmdOfMsg s m (fun c => c.asked.contains (m.src, addr, data.length) && !(received c (m.src, addr, data.length))) = none →
      ∃ u, Heard s u m ∧ exec (.readResp m addr data) s = .next u) ∧
    (∀ c, data = [] → cmdOfMsg s m (fun c => c.asked.any (fun a => a.1 == m.src && a.2.1 == addr && !(received c a))) = some c →
      ∃ u t, Heard s u m ∧ exec (.readResp m addr data) s = .next t ∧
        (m.len = 0 → Ended u t c stDenied (farSlot c m.src addr)) ∧ (m.len ≠ 0 → Ended u t c stEcc 0)) ∧
    (data = [] → cmdOfMsg s m (fun c => c.asked.any (fun a => a.1 == m.src && a.2.1 == addr && !(received c a))) = none →
      ∃ u, Heard s u m ∧ exec (.readResp m addr data) s = .next u) := by
  obtain ⟨u, heard, next⟩ := readResp_eq h addr data
  refine ⟨fun c full found => ⟨u, heard, ?_⟩, fun full found => ⟨u, heard, ?_⟩,
    fun c empty found => ⟨u, _, heard, next, fun refused => ?_, fun ecc => ?_⟩, fun empty found => ⟨u, heard, ?_⟩⟩
  · rw [next, if_neg full, found]
  · rw [next, if_neg full, found]
  · rw [if_pos empty, found]
    simp only [if_pos refused]
    exact endCmd_ended u c _ _
  · rw [if_pos empty, found]
    simp only [if_neg ecc]
    exact endCmd_ended u c _ _
  · rw [next, if_pos empty, found]

-- writes into loans (R205, R207, R237, R239) -------------------------------------------------------------------------------

/-- The write that a message brings, before it has its room. -/
def brought (m : MsgHdr) (addr : Nat) (data : List Byte) : RemoteStaged := ⟨m.src, m.job, m.seq, m.runs, addr, data, m.ctx, false⟩

theorem LentTo.iff_ok {u : State} (h : Carried s u) (addr n : Nat) :
    (u.loans.any (fun l => l.2.peer == m.src && l.2.job == m.job && inside addr n l.2.base l.2.size) && (getDie u (dieOfAddr addr)).up) = true ↔ LentTo s m addr n := by
  rw [h.up, h.loans]
  simp only [LentTo, Bool.and_eq_true, List.any_eq_true, beq_iff_eq, and_assoc]

theorem write_denied (h : Arrives s mtWrite m) {addr : Nat} {data : List Byte} (foreign : ¬ LentTo s m addr data.length) :
    ∃ t, exec (.write m addr data) s = .next t ∧ Carried s t ∧ MemSame s t ∧ Replied s t m mtStagedAck 7 [1] [] := by
  obtain ⟨u, heard, acts⟩ := receive_heard h
  refine ⟨answerWrite (loanDenied u m addr) m true, ?_, denied addr heard h.alive.1⟩
  have refused := mt (LentTo.iff_ok heard.carried addr data.length).mp foreign
  show execWrite m addr data s = _
  unfold execWrite
  rw [acts, if_pos (by rw [Bool.not_eq_true] at refused; rw [refused]; rfl)]

theorem write_eq (h : Arrives s mtWrite m) {addr : Nat} {data : List Byte} (lent : LentTo s m addr data.length) :
    ∃ u, Heard s u m ∧ exec (.write m addr data) s = .next (admitStaged { u with remoteSt := s.remoteSt ++ [brought m addr data] }) := by
  obtain ⟨u, heard, acts⟩ := receive_heard h
  refine ⟨u, heard, ?_⟩
  have ok := (LentTo.iff_ok heard.carried addr data.length).mpr lent
  show execWrite m addr data s = _
  unfold execWrite
  rw [acts, if_neg (by rw [ok]; decide), heard.carried.remoteSt]
  rfl

/-- A write that waits takes no room of its pound. -/
theorem poundFree_waiting {r : RemoteStaged} (waits : r.room = false) (d : Nat) (b : Bool) :
    poundFree { s with remoteSt := s.remoteSt ++ [r] } d b = poundFree s d b := by
  unfold poundFree poundSize poundUsed wbGranules hbmPoundBytes basinPoundBytes
  simp [List.foldl_append, waits]

section
variable {r : RemoteStaged} (roomed : ∀ x ∈ s.remoteSt, x.room = true)
include roomed

/-- Where all but the last of the writes have their room, only the last is looked at. -/
theorem admitStaged_last : admitStaged { s with remoteSt := s.remoteSt ++ [r] } = admitOne { s with remoteSt := s.remoteSt ++ [r] } s.remoteSt.length := by
  rw [admitStaged_eq]
  show (List.range (s.remoteSt ++ [r]).length).foldl admitOne _ = _
  rw [List.length_append, List.length_singleton, List.range_succ, List.foldl_append, admitOne_prefix (s := { s with remoteSt := s.remoteSt ++ [r] }) rfl roomed]
  rfl

variable (waits : r.room = false)
include waits

theorem admitStaged_last_roomy (room : HasRoom s r.addr r.data.length) : admitStaged { s with remoteSt := s.remoteSt ++ [r] } =
    send { s with remoteSt := s.remoteSt ++ [{ r with room := true }] } ⟨r.peer, mtStagedAck, 7, r.job, r.seq, r.runs, r.ctx, 0, 0, [], []⟩ := by
  rw [admitStaged_last roomed]
  unfold admitOne
  dsimp only
  rw [List.getElem?_concat_length]
  dsimp only
  rw [poundFree_waiting waits, waits, if_neg (by simpa [HasRoom] using room)]
  rw [List.set_append_right _ _ le_rfl, Nat.sub_self]
  rfl

theorem admitStaged_last_full (full : ¬ HasRoom s r.addr r.data.length) :
    admitStaged { s with remoteSt := s.remoteSt ++ [r] } = { s with remoteSt := s.remoteSt ++ [r] } := by
  rw [admitStaged_last roomed]
  unfold admitOne
  dsimp only
  rw [List.getElem?_concat_length]
  dsimp only
  rw [poundFree_waiting waits, if_pos (.inr (by simpa [HasRoom] using full))]

end

theorem Heard.hasRoom {u : State} (h : Heard s u m) (addr n : Nat) : HasRoom u addr n ↔ HasRoom s addr n := by
  unfold HasRoom
  rw [poundFree_same h.carried.cfg h.carried.poundQ h.carried.remoteSt h.carried.objs h.carried.cmds]

theorem write_staged (h : Arrives s mtWrite m) {addr : Nat} {data : List Byte} (lent : LentTo s m addr data.length) (roomed : ∀ r ∈ s.remoteSt, r.room = true)
    (room : HasRoom s addr data.length) :
    ∃ t, exec (.write m addr data) s = .next t ∧ t.remoteSt = s.remoteSt ++ [⟨m.src, m.job, m.seq, m.runs, addr, data, m.ctx, true⟩] ∧
      Carried { s with remoteSt := t.remoteSt } t ∧ MemSame s t ∧ Replied s t m mtStagedAck 7 [] [] := by
  obtain ⟨u, heard, next⟩ := write_eq h lent
  have staged : u.remoteSt = s.remoteSt := heard.carried.remoteSt
  have here : HasRoom u addr data.length := (heard.hasRoom addr data.length).mpr room
  rw [← staged, admitStaged_last_roomy (r := brought m addr data) (by rwa [staged]) rfl here] at next
  refine ⟨_, next, ?_, ?_, memSame_of heard (send_quiet _ _ (Quiet.set (Quiet.refl u))), replied_send heard.traffic.1 heard.traffic.2 ?_⟩
  · rw [(send_carried _ _ (Carried.refl _)).remoteSt, staged]
    rfl
  · rw [(send_carried _ _ (Carried.refl _)).remoteSt]
    exact send_carried _ _ { heard.carried with remoteSt := rfl }
  · show u.power.phase ≠ 0xF
    rw [heard.carried.phase]
    exact h.alive.1

theorem write_waits (h : Arrives s mtWrite m) {addr : Nat} {data : List Byte} (lent : LentTo s m addr data.length) (roomed : ∀ r ∈ s.remoteSt, r.room = true)
    (full : ¬ HasRoom s addr data.length) :
    ∃ u, Heard s u m ∧ exec (.write m addr data) s = .next { u with remoteSt := s.remoteSt ++ [⟨m.src, m.job, m.seq, m.runs, addr, data, m.ctx, false⟩] } := by
  obtain ⟨u, heard, next⟩ := write_eq h lent
  have staged : u.remoteSt = s.remoteSt := heard.carried.remoteSt
  have here : ¬ HasRoom u addr data.length := mt (heard.hasRoom addr data.length).mp full
  rw [← staged, admitStaged_last_full (r := brought m addr data) (by rwa [staged]) rfl here, staged] at next
  exact ⟨u, heard, next⟩

-- acknowledgements (R205, R219, R275) --------------------------------------------------------------------------------------

theorem stagedAck_eq {u : State} (acts : ∀ act, receive mtStagedAck m act s = .next (act u)) (heard : Heard s u m) :
    (∀ c, cmdOfMsg s m (fun _ => true) = some c →
      (m.len = 0 → c.pkt.clsOp ≠ 0x907 → exec (.stagedAck m) s = .next (putCmd u { c with acked := c.acked ++ [m.src] })) ∧
      (m.len ≠ 0 → ∀ w, (c.writes.filter (fun w => w.tgt.tier == 4 && w.tgt.peer == m.src))[(c.acked.filter (· == m.src)).length]? = some w →
        exec (.stagedAck m) s = .next (endCmd u c stDenied (farSlot c m.src w.tgt.off)))) ∧
    (cmdOfMsg s m (fun _ => true) = none → exec (.stagedAck m) s = .next (ackWb u m.job m.seq m.src (m.len != 0))) := by
  have next : exec (.stagedAck m) s = _ := (show execStagedAck m s = _ from acts _)
  refine ⟨fun c found => ⟨fun ok op => ?_, fun refused w at_ => ?_⟩, fun found => ?_⟩
  · rw [next, heard.cmdOfMsg, found]
    dsimp only
    rw [if_neg (by simp [ok]), if_neg (fun h => op h.1)]
    exact congrArg Host.Outcome.next (tryFlip_other op)
  · rw [next, heard.cmdOfMsg, found]
    dsimp only
    rw [if_pos refused, at_]
  · rw [next, heard.cmdOfMsg, found]

-- acknowledgements of a write-back (R205, R219) ----------------------------------------------------------------------------

/-- Local memory has been written: bytes, keys, poison that can only go. -/
def Wrote (s t : State) : Prop := ∃ m k p, t = { s with mem := m, keys := k, poison := p } ∧ p ⊆ s.poison

theorem Wrote.refl (s : State) : Wrote s s := ⟨s.mem, s.keys, s.poison, rfl, List.Subset.refl _⟩

theorem Wrote.wrLocal {s t : State} (h : Wrote s t) (key a : Nat) (bs : List Byte) : Wrote s (wrLocal t key a bs) := by
  obtain ⟨mem, keys, poison, rfl, less⟩ := h
  exact ⟨_, _, _, rfl, List.Subset.trans (List.filter_subset_self _) less⟩

theorem Wrote.syncPool {s t : State} (h : Wrote s t) (p : Nat) : Wrote s (syncPool t p) := by
  unfold Machine.syncPool
  cases tfind t.pools p with
  | none => exact h
  | some q => exact (h.wrLocal _ _ _).wrLocal _ _ _

theorem putObj_wrote (s : State) (d : Nat) (o : ResObj) : Wrote { s with objs := tput s.objs d o } (putObj s d o) :=
  ((((Wrote.refl _).wrLocal _ _ _).wrLocal _ _ _).wrLocal _ _ _).syncPool _ |>.syncPool _

theorem Wrote.unpoisoned {s t : State} (h : Wrote s t) {a n : Nat} (clean : poisonedIn s a n = none) : poisonedIn t a n = none := by
  obtain ⟨mem, keys, poison, rfl, less⟩ := h
  unfold poisonedIn at *
  rw [List.find?_eq_none] at *
  exact fun u there => clean u (less there)

section
variable {d t : Nat} {o : ResObj} {w : WriteBack}

/-- An acknowledgement of a write-back does not stand in its way. -/
theorem wbStop_acked (tier : t = 1 ∨ t = 2) (x : Option WriteBack) (back : wbStop s o t = none) :
    wbStop (putObj s d (o.setCopy t { o.copy t with wb := x })) (o.setCopy t { o.copy t with wb := x }) t = none := by
  have wrote := putObj_wrote s d (o.setCopy t { o.copy t with wb := x })
  have clean := wrote.unpoisoned (
    poisonedIn_of_wbStop back : poisonedIn { s with objs := tput s.objs d (o.setCopy t { o.copy t with wb := x }) } (o.copy t).at_ o.size = none)
  generalize putObj s d (o.setCopy t { o.copy t with wb := x }) = y at wrote clean
  obtain ⟨mem, keys, poison, rfl, -⟩ := wrote
  unfold wbStop at *
  rw [poisonedIn_of_wbStop back] at back
  rcases tier with rfl | rfl <;> exact (if_neg (Option.not_isSome_iff_eq_none.mpr clean)).trans back

/-- A plain home on another module takes as many messages as the object's size asks for. -/
theorem wbWrites_count (plain : o.zip = false) (far : (wbPeer o t).isSome = true) : (cutFar (wbWrites s o t)).length = ceilDiv o.size farChunk := by
  have off : o.home.tier = 4 ∧ ¬(t = 1 ∧ o.t2.held) := by
    by_contra near
    unfold wbPeer at far
    rw [if_neg near] at far
    cases far
  unfold wbWrites homeWrites
  rw [if_neg off.2, if_neg (by simp [plain])]
  simp [cutFar, off.1, copyBytes, memRead_length]

/-- An acknowledgement that is not the last only counts (R219). -/
theorem pushWb_acked (tier : t = 1 ∨ t = 2) (staged : w.staged = true) (far : (wbPeer o t).isSome = true)
    (back : wbStop s o t = none) (plain : o.zip = false) (more : w.acks + 1 < (cutFar (wbWrites s o t)).length) :
    pushWb (putObj s d (o.setCopy t { o.copy t with wb := some { w with acks := w.acks + 1 } })) d t =
      putObj s d (o.setCopy t { o.copy t with wb := some { w with acks := w.acks + 1 } }) := by
  have put : Puts s (putObj s d (o.setCopy t { o.copy t with wb := some { w with acks := w.acks + 1 } })) d _ := Puts.put (fun _ _ => rfl) _
  have far' : (wbPeer (o.setCopy t { o.copy t with wb := some { w with acks := w.acks + 1 } }) t).isSome = true := by
    rcases tier with rfl | rfl <;> exact far
  have plain' : (o.setCopy t { o.copy t with wb := some { w with acks := w.acks + 1 } }).zip = false := by
    rcases tier with rfl | rfl <;> exact plain
  have size : (o.setCopy t { o.copy t with wb := some { w with acks := w.acks + 1 } }).size = o.size := by
    rcases tier with rfl | rfl <;> rfl
  unfold pushWb
  rw [put.here]
  dsimp only
  rw [setCopy_copy]
  dsimp only
  rw [wbStop_acked tier _ back, if_neg (by decide), if_neg (by simp [staged]), wbWrites_count plain' far', size, far']
  rw [wbWrites_count plain far] at more
  exact if_pos (by simpa using more)

theorem ackWb_nobody {job seq peer : Nat} {refused : Bool} (nobody : s.objs.find? (wbAwaits job seq peer) = none) : ackWb s job seq peer refused = s := by
  unfold ackWb
  rw [nobody]

theorem ackWb_eq {m : MsgHdr} {refused : Bool} (h : WbOf s m d o t w) :
    ackWb s m.job m.seq m.src refused =
      if refused then killWb s d t else pushWb (putObj s d (o.setCopy t { o.copy t with wb := some { w with acks := w.acks + 1 } })) d t := by
  obtain ⟨awaits, -, wb, rfl⟩ := h
  unfold ackWb
  rw [awaits]
  dsimp only
  rw [wb]

/-- A refused write-back is given up (R205, R223). -/
theorem ackWb_refused {m : MsgHdr} (h : WbOf s m d o t w) :
    ObjIs s (ackWb s m.job m.seq m.src true) d (o.setCopy t { o.copy t with state := 2, wb := none }) := by
  rw [ackWb_eq h, if_pos rfl]
  obtain ⟨-, there, wb, -⟩ := h
  obtain ⟨here, others⟩ := killWb_puts (s := s) ⟨there, fun _ _ => rfl⟩ t
  rw [if_neg (by rw [wb]; exact Option.some_ne_none w)] at here
  exact ⟨killWb_beside s d t (Beside.refl s), here, others⟩

theorem WbOf.tier {m : MsgHdr} (h : WbOf s m d o t w) : t = 1 ∨ t = 2 := by
  obtain ⟨-, -, -, rfl⟩ := h
  split
  · exact .inl rfl
  · exact .inr rfl

theorem ackWb_counts {m : MsgHdr} (h : WbOf s m d o t w) (staged : w.staged = true) (far : (wbPeer o t).isSome = true)
    (back : wbStop s o t = none) (plain : o.zip = false) (more : w.acks + 1 < (cutFar (wbWrites s o t)).length) :
    ObjIs s (ackWb s m.job m.seq m.src false) d (o.setCopy t { o.copy t with wb := some { w with acks := w.acks + 1 } }) := by
  rw [ackWb_eq h, if_neg (by decide), pushWb_acked h.tier staged far back plain more]
  have put : Puts s (putObj s d (o.setCopy t { o.copy t with wb := some { w with acks := w.acks + 1 } })) d _ := Puts.put (fun _ _ => rfl) _
  exact ⟨putObj_beside _ _ _ (Beside.refl s), put.here, put.others⟩

theorem Heard.wbOf {u : State} (heard : Heard s u m) (h : WbOf s m d o t w) : WbOf u m d o t w := by
  obtain ⟨awaits, there, wb, tier⟩ := h
  exact ⟨by rwa [heard.carried.objs], by rwa [heard.objs], wb, tier⟩

end

/-- What an answer to a write-back does (R205, R219). -/
theorem stagedAck_writeBack (h : Arrives s mtStagedAck m) (nobody : cmdOfMsg s m (fun _ => true) = none) :
    (s.objs.find? (wbAwaits m.job m.seq m.src) = none → ∃ u, Heard s u m ∧ exec (.stagedAck m) s = .next u) ∧
    (∀ d o t w, WbOf s m d o t w →
      (m.len ≠ 0 → ∃ u x, Heard s u m ∧ exec (.stagedAck m) s = .next x ∧ ObjIs u x d (o.setCopy t { o.copy t with state := 2, wb := none })) ∧
      (m.len = 0 → Uncaptured s → w.staged = true → (wbPeer o t).isSome = true → wbStop s o t = none → o.zip = false →
        w.acks + 1 < (cutFar (wbWrites s o t)).length →
        ∃ u x, Heard s u m ∧ exec (.stagedAck m) s = .next x ∧ ObjIs u x d (o.setCopy t { o.copy t with wb := some { w with acks := w.acks + 1 } }))) := by
  obtain ⟨u, heard, acts⟩ := receive_heard h
  have next := (stagedAck_eq acts heard).2 nobody
  refine ⟨fun absent => ⟨u, heard, ?_⟩, fun d o t w of => ⟨fun refused => ⟨u, _, heard, next, ?_⟩, fun ok free staged far back plain more => ?_⟩⟩
  · rw [next, ackWb_nobody (by rwa [heard.carried.objs])]
  · rw [show (m.len != 0) = true by simpa using refused]
    exact ackWb_refused (heard.wbOf of)
  · obtain ⟨x, v, rfl, heard, acts⟩ := receive_uncaptured h free
    refine ⟨_, _, heard, (stagedAck_eq acts heard).2 nobody, ?_⟩
    rw [show (m.len != 0) = false by simpa using ok]
    exact ackWb_counts (heard.wbOf of) staged far back plain more

-- COMMIT and CANCEL of a borrower's run (R210, R238, R239, R278, R367) ------------------------------------------------------

/-- Publication into the pounds only lengthens their queue (R238). -/
theorem poundPublish_queue (s : State) (d : Nat) (ws : List SWrite) : ∃ q, poundPublish s d ws = { s with poundQ := q } :=
  foldl_keeps (P := fun x => ∃ q, x = { s with poundQ := q })
    (fun x w ⟨q, e⟩ => by
      dsimp only
      split
      · refine foldl_keeps (P := fun x => ∃ q, x = { s with poundQ := q }) (fun y a ⟨q, e⟩ => ?_) _ ⟨q, e⟩
        subst e
        dsimp only
        split
        · exact ⟨q, rfl⟩
        · exact ⟨_, rfl⟩
      · exact ⟨q, e⟩)
    ws ⟨s.poundQ, rfl⟩

/-- One staged write of a borrower published, under the key of its loan. -/
def publishLent (m : MsgHdr) (s : State) (r : RemoteStaged) : State :=
  poundPublish (wrLocal s (loanKey s m r.addr) r.addr r.data) (dieOfAddr r.addr) [⟨⟨0, 0, r.addr⟩, r.data⟩]

theorem publishLent_published (m : MsgHdr) (rs : List RemoteStaged) (s : State) :
    ∃ ks ps q, rs.foldl (publishLent m) s =
      { s with mem := published s.mem (rs.map (fun r => ⟨⟨0, 0, r.addr⟩, r.data⟩)), keys := ks, poison := ps, poundQ := q } := by
  induction rs generalizing s with
  | nil => exact ⟨s.keys, s.poison, s.poundQ, rfl⟩
  | cons r rs ih =>
    obtain ⟨q, one⟩ := poundPublish_queue (wrLocal s (loanKey s m r.addr) r.addr r.data) (dieOfAddr r.addr) [⟨⟨0, 0, r.addr⟩, r.data⟩]
    obtain ⟨ks, ps, q, rest⟩ := ih (publishLent m s r)
    refine ⟨ks, ps, q, rest.trans ?_⟩
    unfold publishLent
    rw [one]
    rfl

/-- Published writes free the poisoned units that they replace between them, and the loans that they kept. -/
def writesSettled (ws : List SWrite) (s : State) : State := settleLoans { s with poison := unpoisonAll s.poison ws }

/-- A run of a borrower committed, before the writes that wait for room are looked at. -/
def lentCommit (m : MsgHdr) (s : State) : State :=
  writesSettled (stagedOf s m) ((s.remoteSt.filter (ofRun m)).foldl (publishLent m) { s with remoteSt := s.remoteSt.filter (fun r => !(ofRun m r)) })

theorem execCommit_eq (m : MsgHdr) (s : State) : exec (.commit m) s = receive mtCommit m (fun u => admitStaged (lentCommit m u)) s := rfl

theorem lentCommit_eq (m : MsgHdr) (s : State) : ∃ ks ps q, lentCommit m s = { s with
    mem := published s.mem (stagedOf s m), keys := ks, poison := ps, poundQ := q, remoteSt := s.remoteSt.filter (fun r => !(ofRun m r)),
    loans := settled s.loans (s.remoteSt.filter (fun r => !(ofRun m r))) } := by
  obtain ⟨ks, ps, q, all⟩ := publishLent_published m (s.remoteSt.filter (ofRun m)) { s with remoteSt := s.remoteSt.filter (fun r => !(ofRun m r)) }
  refine ⟨ks, unpoisonAll ps (stagedOf s m), q, ?_⟩
  unfold lentCommit
  rw [all]
  rfl

theorem commit_publishes (h : Arrives s mtCommit m) :
    ∃ u ks ps q t, Heard s u m ∧ exec (.commit m) s = .next t ∧ Admitted { u with
      mem := published u.mem (stagedOf s m), keys := ks, poison := ps, poundQ := q, remoteSt := s.remoteSt.filter (fun r => !(ofRun m r)),
      loans := settled s.loans (s.remoteSt.filter (fun r => !(ofRun m r))) } t := by
  obtain ⟨u, heard, acts⟩ := receive_heard h
  obtain ⟨ks, ps, q, all⟩ := lentCommit_eq m u
  refine ⟨u, ks, ps, q, _, heard, (execCommit_eq m s).trans (acts _), ?_⟩
  rw [all, show stagedOf u m = stagedOf s m by unfold stagedOf; rw [heard.carried.remoteSt], heard.carried.remoteSt, heard.carried.loans]
  exact admitStaged_admitted _

theorem collCancelled_none (s : State) (m : MsgHdr) (outside : ∀ c ∈ s.cmds, c.pkt.cls = 9 → inUse c = true → c.pkt.job = m.job → m.src ∉ setOf c) :
    collCancelled s m = s := by
  unfold collCancelled
  have nobody : s.cmds.filter (fun c => c.pkt.cls == 9 && inUse c && c.pkt.job == m.job && (setOf c).contains m.src) = [] := by
    rw [List.filter_eq_nil_iff]
    intro c there
    simp only [Bool.and_eq_true, beq_iff_eq, List.contains_iff_mem, not_and, and_imp]
    exact outside c there
  rw [nobody]
  rfl

theorem cancel_drops (h : Arrives s mtCancel m) (outside : ∀ c ∈ s.cmds, c.pkt.cls = 9 → inUse c = true → c.pkt.job = m.job → m.src ∉ setOf c) :
    ∃ u t, Heard s u m ∧ exec (.cancel m) s = .next t ∧ Admitted { u with
      remoteSt := s.remoteSt.filter (fun r => !(ofRun m r)), loans := settled s.loans (s.remoteSt.filter (fun r => !(ofRun m r))) } t := by
  obtain ⟨u, heard, acts⟩ := receive_heard h
  have next : exec (.cancel m) s = _ := (show execCancel m s = _ from acts _)
  refine ⟨u, _, heard, next, ?_⟩
  rw [collCancelled_none _ m (by rw [← heard.carried.cmds] at outside; exact outside), ← heard.carried.remoteSt, ← heard.carried.loans]
  exact admitStaged_admitted _

-- LOCK_SIGNAL, AUTH_NAK and LOAN_END (R284, R286, R353, R356) --------------------------------------------------------------

theorem lockSignal_eq (h : Arrives s mtLockSignal m) {l : Nat} (n : Nat) (small : l < 16384) :
    ∃ u, Heard s u m ∧ exec (.lockSignal m l n) s = .next (signalLock u l n m.job m.src none) := by
  obtain ⟨u, heard, acts⟩ := receive_heard h
  refine ⟨u, heard, ?_⟩
  show execLockSignal m l n s = _
  unfold execLockSignal
  rw [Nat.mod_eq_of_lt small, acts]

theorem Heard.locks {u : State} (h : Heard s u m) (l : Nat) : getLock u l = getLock s l := by
  unfold getLock
  rw [h.carried.locks]

theorem lockSignal_counts (h : Arrives s mtLockSignal m) {l : Nat} (n : Nat) (small : l < 16384) (own : (getLock s l).job = m.job) :
    ∃ t, exec (.lockSignal m l n) s = .next t ∧ Beside s t ∧ MemSame s t ∧ (getLock t l).count = min ((getLock s l).count + n) 0xFFFFFFFF ∧
      (getLock t l).job = m.job ∧ ∀ k, k ≠ l → (getLock t k).count = (getLock s k).count ∧ (getLock t k).job = (getLock s k).job := by
  obtain ⟨u, heard, next⟩ := lockSignal_eq h n small
  have counts := fun k => signalLock_counts u l n m.job m.src none k
  simp only [CountIs, heard.locks] at counts
  refine ⟨_, next, signalLock_beside _ _ _ _ _ _ heard.beside, memSame_of heard (signalLock_quiet _ _ _ _ _ _ (Quiet.refl u)), ?_, ?_, fun k other => ?_⟩
  · rw [(counts l).1, if_pos ⟨rfl, own⟩]
    rfl
  · rw [(counts l).2.1, own]
  · rw [(counts k).1, (counts k).2.1, if_neg fun e => other e.1.symm]
    exact ⟨rfl, rfl⟩

theorem lockSignal_foreign (h : Arrives s mtLockSignal m) {l : Nat} (n : Nat) (small : l < 16384) (foreign : (getLock s l).job ≠ m.job) :
    ∃ t, exec (.lockSignal m l n) s = .next t ∧ Carried s t ∧ MemSame s t := by
  obtain ⟨u, heard, next⟩ := lockSignal_eq h n small
  refine ⟨_, next, ?_, memSame_of heard (signalLock_quiet _ _ _ _ _ _ (Quiet.refl u))⟩
  unfold signalLock
  rw [heard.locks, if_neg foreign]
  exact raise_carried _ _ _ _ _ _ _ _ _ heard.carried

theorem authNak_ends (h : Arrives s mtAuthNak m) :
    (∀ c, cmdOfMsg s m (fun _ => true) = some c → ∃ u t, Heard s u m ∧ exec (.authNak m) s = .next t ∧ Ended u t c stDenied 0xFE) ∧
    (cmdOfMsg s m (fun _ => true) = none → ∃ u, Heard s u m ∧ exec (.authNak m) s = .next u) := by
  obtain ⟨u, heard, acts⟩ := receive_heard h
  have next : exec (.authNak m) s = _ := (show execAuthNak m s = _ from acts _)
  rw [heard.cmdOfMsg] at next
  refine ⟨fun c found => ⟨u, _, heard, ?_, endCmd_ended u c stDenied 0xFE⟩, fun found => ⟨u, heard, ?_⟩⟩ <;> rw [next, found]

theorem loanEnd_settles (h : Arrives s mtLoanEnd m) :
    ∃ u, Heard s u m ∧ exec (.loanEnd m) s = .next { u with
      loans := settled (s.loans.map (fun l => if l.2.peer = m.src ∧ l.2.job = m.job then (l.1, { l.2 with ending := true }) else l)) s.remoteSt } := by
  obtain ⟨u, heard, acts⟩ := receive_heard h
  refine ⟨u, heard, ?_⟩
  rw [← heard.carried.loans, ← heard.carried.remoteSt]
  exact (show execLoanEnd m s = _ from acts _)

end

/-- Settles O58. Each row acts on a state that has only heard the message; what it does then is said above, message by message. -/
theorem lendersServeBorrowers : Obligations.LendersServeBorrowers := by
  unfold Obligations.LendersServeBorrowers
  intro s m
  refine ⟨fun h addr len engine => ⟨readReq_denied h, fun free key allowed => ⟨readReq_reads h free allowed, fun u => readReq_poisoned h free allowed⟩⟩,
    fun h addr data => readResp_reaches h,
    fun h addr data => ⟨fun lent => ⟨?_, fun roomed => ⟨write_staged h lent roomed, write_waits h lent roomed⟩⟩, write_denied h⟩,
    fun h => ⟨fun c found => ⟨fun ok op => ?_, fun refused w at_ => ?_⟩, stagedAck_writeBack h⟩,
    commit_publishes, cancel_drops, fun h l n small => ⟨lockSignal_counts h n small, lockSignal_foreign h n small⟩, authNak_ends, loanEnd_settles⟩
  · obtain ⟨u, heard, next⟩ := write_eq h lent
    exact ⟨u, _, heard, next, admitStaged_admitted _⟩
  · obtain ⟨u, heard, acts⟩ := receive_heard h
    exact ⟨u, heard, ((stagedAck_eq acts heard).1 c found).1 ok op⟩
  · obtain ⟨u, heard, acts⟩ := receive_heard h
    exact ⟨u, _, heard, ((stagedAck_eq acts heard).1 c found).2 refused w at_, endCmd_ended u c _ _⟩

end Sys2Proof.Machine
end

section
/-! The path of a ring's command, from its fetch to its reply, and its abort (R209, R262, R267, R268, R275 to R277, R290, R301, R302, R304, R306). -/

namespace Sys2Proof.Machine

-- RING_FETCH (R267, R268, R276) --------------------------------------------------------------------------------------------

section
variable {s : State} {ring : Nat}

theorem ringFetch_idle (idle : fetches s ring = false) : exec (.ringFetch ring) s = .next s := by
  rw [execRingFetch_eq, if_pos idle]

theorem ringFetch_full (fetch : fetches s ring = true) (full : replySpace (getRing s ring) = false) : exec (.ringFetch ring) s = .next s := by
  rw [execRingFetch_eq, if_neg (by rw [fetch]; decide), if_pos full]

section
variable (fetch : fetches s ring = true) (space : replySpace (getRing s ring) = true)
include fetch space

theorem ringFetch_faults (entry : ringEntryOf s ring (getRing s ring).head = .unusable ∨ ringEntryOf s ring (getRing s ring).head = .badTag) :
    ∃ t, exec (.ringFetch ring) s = .next t ∧ RingFaulted s t ring 0 (getRing s ring) := by
  rw [execRingFetch_eq, if_neg (by rw [fetch]; decide), if_neg (by rw [space]; decide)]
  have fault := ringFault_here s ring 0
  rcases entry with unusable | badTag
  · rw [unusable]
    exact ⟨_, rfl, fault⟩
  · rw [badTag]
    exact ⟨_, rfl, fault.told (raiseFor_told _ _ _ _ _ _ _ _ _ _ _ (Told.refl _))⟩

variable {bs : List Byte} (entry : ringEntryOf s ring (getRing s ring).head = .packet bs)
include entry

/-- An entry that an abort marked ends as it is fetched (R262). -/
theorem ringFetch_marked (marked : (getRing s ring).head ∈ (getRing s ring).marks) : ∃ t, exec (.ringFetch ring) s = .next t ∧
    Ended (setRing s ring (getRing s ring).advanced) t (fetched (setRing s ring (getRing s ring).advanced) ring (packetOf bs)) stAborted 0 := by
  rw [execRingFetch_eq, if_neg (by rw [fetch]; decide), if_neg (by rw [space]; decide), entry]
  dsimp only
  rw [if_pos (by simpa using marked)]
  exact ⟨_, rfl, (endCmd_ended _ _ _ _).before (Contained.set (Contained.refl _)) rfl rfl rfl (Still.of rfl rfl rfl rfl)⟩

theorem ringFetch_accepts (free : (getRing s ring).head ∉ (getRing s ring).marks) :
    exec (.ringFetch ring) s = .next (acceptCmd (setRing s ring (getRing s ring).advanced) ring (packetOf bs)) := by
  rw [execRingFetch_eq, if_neg (by rw [fetch]; decide), if_neg (by rw [space]; decide), entry]
  dsimp only
  rw [if_neg (by simpa using free)]

end

section
variable {p : Packet}

/-- A packet that names a poisoned shape is refused (R241). -/
theorem acceptCmd_poisoned (poisoned : ¬ cleanShapes s ring p) :
    Ended (arrived s ring p) (acceptCmd (setRing s ring (getRing s ring).advanced) ring p) (numbered s ring p) stEcc 0 := by
  obtain ⟨valid, some⟩ := not_or.mp poisoned
  obtain ⟨unit, at_⟩ := Option.ne_none_iff_exists'.mp some
  rw [acceptCmd_eq, if_neg valid, at_]
  exact eccEnd_ended _ _ _

variable (clean : cleanShapes s ring p)
include clean

/-- The checks of a packet that names nothing poisoned (R252, R276). -/
theorem acceptCmd_clean : acceptCmd (setRing s ring (getRing s ring).advanced) ring p =
    match faultOf s ring p with
    | some f => endCmd (arrived s ring p) (numbered s ring p) stBad (badAt f.1 f.2)
    | none =>
      match denialOf s ring p with
      | some d => endCmd (arrived s ring p) (numbered s ring p) stDenied d
      | none =>
        if epochAhead (arrived s ring p) p < 0 then endCmd (arrived s ring p) (numbered s ring p) stStale 0
        else if p.waitThresh ≠ 0 ∧ 64 ≤ (getLock s p.waitLock).queue.length then
          endCmd (raiseCmd (arrived s ring p) (judged s ring p) 0x14 p.waitLock 0 0) (numbered s ring p) stBad (badAt 14 0xFF)
        else claimOrQueue (traceRec (putCmd (arrived s ring p) (judged s ring p)) (ring / 16)
          (trCmd (putCmd (arrived s ring p) (judged s ring p)) (judged s ring p) 0 1 ring))
          (judged s ring p) := by
  have none : (if (lowest (reservedFaults (judged s ring p).pkt (usesOf p (shapesAt (arrived s ring p) p)))).isSome then none
      else shapePoison (arrived s ring p) (judged s ring p).pkt ((usesOf p (shapesAt (arrived s ring p) p)).getD [])) = none := by
    rcases clean with reserved | unpoisoned
    · rw [if_pos reserved]
    · rw [unpoisoned, ite_self]
  rw [acceptCmd_eq, none, arrived_locks] <;> rfl

theorem acceptCmd_faulty {f : Flt} (fault : faultOf s ring p = some f) :
    Ended (arrived s ring p) (acceptCmd (setRing s ring (getRing s ring).advanced) ring p) (numbered s ring p) stBad (badAt f.1 f.2) := by
  rw [acceptCmd_clean clean, fault]
  exact endCmd_ended _ _ _ _

variable (good : faultOf s ring p = none)
include good

theorem acceptCmd_denied {d : Nat} (denial : denialOf s ring p = some d) :
    Ended (arrived s ring p) (acceptCmd (setRing s ring (getRing s ring).advanced) ring p) (numbered s ring p) stDenied d := by
  rw [acceptCmd_clean clean, good]
  dsimp only
  rw [denial]
  exact endCmd_ended _ _ _ _

variable (own : denialOf s ring p = none)
include own

theorem acceptCmd_stale (behind : epochAhead (arrived s ring p) p < 0) :
    Ended (arrived s ring p) (acceptCmd (setRing s ring (getRing s ring).advanced) ring p) (numbered s ring p) stStale 0 := by
  rw [acceptCmd_clean clean, good]
  dsimp only
  rw [own]
  dsimp only
  rw [if_pos behind]
  exact endCmd_ended _ _ _ _

variable (ahead : 0 ≤ epochAhead (arrived s ring p) p)
include ahead

theorem acceptCmd_crowded (waits : p.waitThresh ≠ 0) (full : 64 ≤ (getLock s p.waitLock).queue.length) :
    Ended (arrived s ring p) (acceptCmd (setRing s ring (getRing s ring).advanced) ring p) (numbered s ring p) stBad (badAt 14 0xFF) := by
  rw [acceptCmd_clean clean, good]
  dsimp only
  rw [own]
  dsimp only
  rw [if_neg (by omega), if_pos ⟨waits, full⟩]
  exact (endCmd_ended _ _ _ _).after_quiet (raiseCmd_contained _ _ _ _ _ _ (Contained.refl _)) (raiseCmd_beside _ _ _ _ (Beside.refl _))
    (raiseCmd_quiet _ _ _ _ _ _ (Quiet.refl _))

theorem acceptCmd_accepted (room : p.waitThresh = 0 ∨ (getLock s p.waitLock).queue.length < 64) :
    AcceptedAs s (acceptCmd (setRing s ring (getRing s ring).advanced) ring p) (arrived s ring p) (judged s ring p) := by
  rw [acceptCmd_clean clean, good]
  dsimp only
  rw [own]
  dsimp only
  rw [if_neg (by omega), if_neg fun full => room.elim full.1 (by omega)]
  exact accepted_says s ring p

end

end

-- COMMAND_START (R144, R216, R237, R301, R302) -----------------------------------------------------------------------------

section
variable {s : State} {cid : Nat}

theorem commandStart_gone (gone : findCmd (debtPass s) cid = none) : exec (.commandStart cid) s = .next (debtPass s) := by
  rw [execCommandStart_eq, gone]

section
variable {x : Cmd} (there : findCmd (debtPass s) cid = some x)
include there

theorem commandStart_unready (held : ready (debtPass s) = false ∨ cmdReady (debtPass s) x = false ∨ jobHeld (debtPass s) x = true) :
    exec (.commandStart cid) s = .next (debtPass s) := by
  rw [execCommandStart_eq, there]
  exact congrArg Host.Outcome.next (if_pos held)

variable (free : ¬ (ready (debtPass s) = false ∨ cmdReady (debtPass s) x = false ∨ jobHeld (debtPass s) x = true))
include free

theorem commandStart_placeless (placeless : (if x.phase = .placed then x.place else placeFor (debtPass s) x) = none) :
    exec (.commandStart cid) s = .next (debtPass s) := by
  rw [execCommandStart_eq, there]
  dsimp only
  rw [if_neg free, placeless]

variable {p : Place} {y : Cmd} {v : State} (place : (if x.phase = .placed then x.place else placeFor (debtPass s) x) = some p)
  (hy : y = { x with phase := .placed, place := some p }) (hv : v = placedIn (debtPass s) y)
include place hy hv

/-- A ready command has its place, and starts on a free unit unless something holds it. -/
theorem commandStart_placed : exec (.commandStart cid) s = .next (
    if startHeld v y = true then v
    else match startUnit v y p with
      | none => v
      | some n => tryStart v y { p with unit := n }) := by
  subst hy hv
  rw [execCommandStart_eq, there]
  dsimp only
  rw [if_neg free, place] <;> rfl

theorem commandStart_held (held : startHeld v y = true ∨ startUnit v y p = none) : exec (.commandStart cid) s = .next v := by
  rw [commandStart_placed there free place hy hv]
  rcases held with held | busy
  · rw [if_pos held]
  · rw [busy, ite_self]

theorem commandStart_tries (open_ : startHeld v y = false) {n : Nat} (unit : startUnit v y p = some n) :
    exec (.commandStart cid) s = .next (tryStart v y { p with unit := n }) := by
  rw [commandStart_placed there free place hy hv, if_neg (by rw [open_]; decide), unit]

end

theorem placedIn_time (s : State) (y : Cmd) : (placedIn s y).time = s.time := by
  unfold placedIn
  split <;> rfl

section
variable {v : State} {y : Cmd} {q : Place}

theorem tryStart_stops {st d : Nat} (stop : verdict [checkOperands v y, checkLocks v y] = .stop st d) : Ended v (tryStart v y q) y st d := by
  unfold tryStart
  rw [stop]
  exact endCmd_ended v y st d

theorem tryStart_waits (wait : verdict [checkOperands v y, checkLocks v y] = .wait) : Parked v (tryStart v y q) y := by
  unfold tryStart
  rw [wait]
  exact parked_says v y none

section
variable (clean : v.poison = []) (ok : verdict [checkOperands v y, checkLocks v y] = .ok)
include clean ok

theorem tryStart_family_waits (wait : familyStart (clearStores v y q) (atStart v y q) = .wait) : Parked v (tryStart v y q) y := by
  rw [tryStart_eqs clean ok, wait]
  exact parked_says v y _

theorem tryStart_family_stops {st d : Nat} (stop : familyStart (clearStores v y q) (atStart v y q) = .stop st d []) :
    Ended v (tryStart v y q) y st d := by
  rw [tryStart_eqs clean ok, stop]
  exact endCmd_ended v y st d

variable {w2 : State} {c2 : Cmd} (go : familyStart (clearStores v y q) (atStart v y q) = .go w2 c2)
include go

theorem tryStart_body : tryStart v y q = startBody v y q (clearStores v y q) w2 (atStart v y q) c2 := by
  rw [tryStart_eqs clean ok, go]

theorem tryStart_structs_stop {st d : Nat} (stop : checkStructs (clearStores v y q) (atStart v y q) = .stop st d) : Ended v (tryStart v y q) y st d := by
  rw [tryStart_body clean ok go]
  unfold startBody
  rw [stop]
  exact endCmd_ended v y st d

theorem tryStart_structs_wait (wait : checkStructs (clearStores v y q) (atStart v y q) = .wait) : Parked v (tryStart v y q) y := by
  rw [tryStart_body clean ok go]
  unfold startBody
  rw [wait]
  exact parked_says v y none

variable (sound : checkStructs (clearStores v y q) (atStart v y q) = .ok)
include sound

/-- What can never fit is refused (R237). -/
theorem tryStart_never (never : startCapBad (clearStores v y q) c2 = true ∨ resvTooBig v (reservation (clearStores v y q) (atStart v y q)) = true) :
    Ended v (tryStart v y q) y stBad (badAt 0 0xFF) := by
  rw [tryStart_body clean ok go]
  unfold startBody
  rw [sound]
  dsimp only
  rw [if_pos (by simpa using never)]
  exact endCmd_ended v y _ _

theorem tryStart_lacks (cap : startCapBad (clearStores v y q) c2 = false) (fits : resvTooBig v (reservation (clearStores v y q) (atStart v y q)) = false)
    (lacks : resvLacks v (reservation (clearStores v y q) (atStart v y q)) = true) : Parked v (tryStart v y q) y := by
  rw [tryStart_body clean ok go]
  unfold startBody
  rw [sound]
  dsimp only
  rw [if_neg (by simp [cap, fits]), if_pos lacks]
  exact parked_says v y _

end

end

end

-- COMMIT_POINT (R209, R275, R276) ------------------------------------------------------------------------------------------

section
variable {s : State} {cid : Nat} {c : Cmd}

theorem withFlags_self (s : State) (c : Cmd) : (withFlags s c).self = c.self := by
  unfold withFlags
  split <;> rfl

theorem withFlags_writes (s : State) (c : Cmd) : (withFlags s c).writes = c.writes := by
  unfold withFlags
  split <;> rfl

theorem commitPoint_waits (there : findCmd s cid = some c) (staged : c.phase = .staged) (op : c.pkt.clsOp ≠ 0x802)
    (waits : commitsByLenders c = false ∨ lendersAcked c = false ∨ (c.pkt.cls = 9 ∧ collAwaits s c = true)) : exec (.commitPoint cid) s = .next s := by
  have not_yet : (commitsByLenders c && lendersAcked c && !(c.pkt.cls == 9 && collAwaits s c)) = false := by
    rcases waits with other | unacked | ⟨coll, awaits⟩
    · rw [other]; rfl
    · rw [unacked, Bool.and_false]; rfl
    · simp [coll, awaits]
  rw [execCommitPoint_eq there, if_neg (by simp [staged]), if_neg op, not_yet]
  rfl

theorem commitPoint_setWaits (there : findCmd s cid = some c) (staged : c.phase = .staged) (op : c.pkt.clsOp = 0x802) (wait : lkSetReady s c = false) :
    exec (.commitPoint cid) s = .next s := by
  rw [execCommitPoint_eq there, if_neg (by simp [staged]), if_pos op]
  unfold lkSetCommit
  rw [if_neg (by rw [wait]; decide)]

theorem commitPoint_commits (there : findCmd s cid = some c) (staged : c.phase = .staged) (op : c.pkt.clsOp ≠ 0x802) (byLenders : commitsByLenders c = true)
    (acked : lendersAcked c = true) (ready : c.pkt.cls = 9 → collAwaits s c = false) :
    exec (.commitPoint cid) s = .next (commitWith (commitEff c) s (withFlags s c)) := by
  rw [execCommitPoint_eq there, if_neg (by simp [staged]), if_neg op, if_pos]
  rw [byLenders, acked]
  by_cases coll : c.pkt.cls = 9
  · rw [ready coll]; simp
  · simp [coll]

/-- What is staged and acknowledged commits in one step, and the command's record is last. -/
theorem commitPoint_records (there : findCmd s cid = some c) {k : Nat} (origin : c.origin = .ring k) :
    ∃ u v, Beside s u ∧ Beside (commitEff c u (atCommit s (withFlags s c))) v ∧
      commitWith (commitEff c) s (withFlags s c) = putCmd v (recordOf s (withFlags s c)) ∧
      (Still s → u.mem = published s.mem (c.writes.filter (fun w => decide (w.tgt.tier < 3))) ∧ u.host = s.host) ∧
      ((∀ a d, commitEff c a d = a) → Recorded s cid c (ranOf (withFlags s c)) (putCmd v (recordOf s (withFlags s c))) ∧
        Beside s (putCmd v (recordOf s (withFlags s c))) ∧
        (Still s → v.mem = published s.mem (c.writes.filter (fun w => decide (w.tgt.tier < 3))) ∧ v.host = s.host)) := by
  have self : (withFlags s c).self ∈ s.cmds.map Cmd.self := withFlags_self s c ▸ List.mem_map_of_mem (List.mem_of_find?_eq_some there)
  have id : (withFlags s c).id = cid := (congrArg (·.1) (withFlags_self s c)).trans (findCmd_mem there).1
  obtain ⟨u, v, before, after, quiet, mem, -, -, -, form⟩ := commitWith_all (commitEff c) s s (withFlags s c) (Beside.refl s) self
  rw [recorded_ring s v _ k ((congrArg (·.2.2.1) (withFlags_self s c)).trans origin)] at form
  rw [withFlags_writes] at mem
  refine ⟨u, v, before, after, form, fun still => ⟨(mem still).1, (mem still).2.1⟩, fun none => ?_⟩
  rw [none] at after quiet
  have beside : Beside s v := before.trans after
  refine ⟨⟨recordOf s (withFlags s c), ?_, rfl, congrArg (·.2.1) (withFlags_self s c), rfl, rfl, rfl, rfl, rfl, rfl⟩,
    putCmd_beside _ _ self beside, fun still => ?_⟩
  · have put := findCmd_putCmd v (recordOf s (withFlags s c)) (by rw [beside.ids]; exact id ▸ (findCmd_mem there).2)
    exact (show (recordOf s (withFlags s c)).id = cid from id) ▸ put
  · obtain ⟨bytes, host, still'⟩ := mem still
    obtain ⟨kept, keptHost, -⟩ := quiet still'
    exact ⟨kept.trans bytes, keptHost.trans host⟩

end

-- PUBLICATION_COMPLETE (R209, R276, R277) ----------------------------------------------------------------------------------

section
variable {s : State} {cid : Nat} {c : Cmd} (there : findCmd s cid = some c)
include there

theorem publication_waits (waits : c.phase ≠ .committed ∨ replyHeld s c = true) : exec (.publicationComplete cid) s = .next s := by
  rw [execPublication_eq there, if_pos waits]

variable (committed : c.phase = .committed) (free : replyHeld s c = false)
include committed free

theorem publication_gone : ∃ t, exec (.publicationComplete cid) s = .next t ∧ ∀ z ∈ t.cmds, z.id ≠ cid := by
  refine ⟨_, execPublication_eq there, ?_⟩
  rw [if_neg (by simp [committed, free])]
  generalize (if c.pkt.clsOp = 0xF18 then fwFinish (publishHost (applySignal s c) c) c else publishHost (applySignal s c) c) = u
  cases found : findCmd u cid with
  | none =>
    intro z here
    simpa using List.find?_eq_none.mp found z here
  | some x =>
    rw [← (findCmd_mem found).1]
    exact (finishCmd_gone u x).2.1

/-- A command that publishes nothing more only ends. -/
theorem publication_finishes (op : c.pkt.clsOp ≠ 0xF18) (signals : c.toSend = []) (writes : c.writes = []) :
    exec (.publicationComplete cid) s = .next (finishCmd s c) := by
  have silent : publishHost (applySignal s c) c = s := by
    unfold applySignal publishHost
    rw [signals, writes]
    simp only [List.foldl_nil, publishWrites_none, ite_self]
  rw [execPublication_eq there, if_neg (by simp [committed, free]), if_neg op, silent, there]

end

section
variable {s : State}

theorem finishCmd_replies {c : Cmd} {r : Nat} (origin : c.origin = .ring r) (reply : c.noReply = false) (near : (gaddrOf (getRing s r).reply).tier ≠ 5) :
    ((getRing s r).unbinding = false →
      getRing (finishCmd s c) r = { getRing s r with rtail := ((getRing s r).rtail + 1) % 2 ^ 32, inFlight := (getRing s r).inFlight - 1 } ∧
        ∀ k, k ≠ r → getRing (finishCmd s c) k = getRing s k) ∧
    (Still s → (finishCmd s c).host = s.host ∧ (finishCmd s c).mem = memWrite s.mem (replyAt s r) (replyBytes c)) := by
  obtain ⟨ring, bytes⟩ := finishCmd_reply origin reply near
  exact ⟨ring, fun still => ⟨(bytes still).2.1, (bytes still).1⟩⟩

-- PREEMPTION and CONTEXT_RESUME (R304, R306) -------------------------------------------------------------------------------

/-- The waiting commands of a context are placed again on a die. -/
theorem replaces_still4 (d : Nat) (l : List Nat) (s : State) :
    Still4 s (l.foldl (fun s i => match findCmd s i with | some x => replace s d x | none => s) s) :=
  still4_fold _ l (fun t i => by
    cases findCmd t i with
    | none => exact Still4.refl t
    | some x => exact replace_still4 t d x) s (Still4.refl s)

/-- After the contexts that yield, nothing of the contexts changes. -/
theorem preemption_eq {die : Nat} {c : Cmd} (starved : starvedFirst s die = some c) :
    ∃ t, exec (.preemption die) s = .next t ∧ Still4 (yieldLoop die c s.cmds.length s) t := by
  have next : exec (.preemption die) s = execPreemption die s := rfl
  unfold execPreemption at next
  rw [starved] at next
  refine ⟨_, next, ?_⟩
  refine Still4.trans (Still4.trans ?_ (fillBasin_still4 _ _ _ _)) (debtPass_still4 _)
  split
  · exact Still4.refl _
  · exact replaces_still4 die _ _

/-- The yielding context of a die is suspended there first. -/
theorem yieldLoop_yields {die n : Nat} {c y : Cmd} (taken : allTaken s c die = true) (yields : yielder s die (prioOf s c) = some y) :
    Switched s (yieldLoop die c (n + 1) s) ∧
      Stays s.ctxs (yieldLoop die c (n + 1) s).ctxs (fun x x' => x.job = y.pkt.job → x.ring = ctxId s y → die ∈ x'.suspOn) := by
  have one : yieldLoop die c (n + 1) s = yieldLoop die c n (suspendOn s die y.pkt.job (ctxId s y)) := by
    rw [yieldLoop, if_pos taken, yields]
  obtain ⟨first, ctxs⟩ := suspendOn_says s die y.pkt.job (ctxId s y)
  obtain ⟨rest, stay⟩ := yieldLoop_says die c n (suspendOn s die y.pkt.job (ctxId s y))
  rw [ctxs] at stay
  rw [one]
  exact ⟨first.trans rest, (suspend_stays s.ctxs die y.pkt.job (ctxId s y)).trans stay fun _ _ _ was _ more job ring => more die (was job ring)⟩

theorem preemption_suspends {die : Nat} {c y : Cmd} (starved : starvedFirst s die = some c) (yields : yielder s die (prioOf s c) = some y) :
    ∃ t, exec (.preemption die) s = .next t ∧ Switched s t ∧ Stays s.ctxs t.ctxs (fun x x' => x.job = y.pkt.job → x.ring = ctxId s y → die ∈ x'.suspOn) := by
  obtain ⟨t, next, switched, same⟩ := preemption_eq starved
  obtain ⟨here, taken⟩ := starvedFirst_says starved
  have some_ : s.cmds.length = s.cmds.length - 1 + 1 := (Nat.succ_pred_eq_of_pos (List.length_pos_of_mem here)).symm
  rw [some_] at switched same
  obtain ⟨first, stays⟩ := yieldLoop_yields (n := s.cmds.length - 1) taken yields
  exact ⟨t, next, first.trans switched, same ▸ stays⟩

theorem fillBasins_still4 (d : Nat) (l : List Ctx) (s : State) : Still4 s (l.foldl (fun s x => fillBasin s d x.job x.ring) s) :=
  still4_fold _ l (fun t x => fillBasin_still4 t d x.job x.ring) s (Still4.refl s)

/-- Contexts that nothing more urgent keeps away go on on a die. -/
def resumed (s : State) (die ctx : Nat) : State :=
  { s with ctxs := s.ctxs.map (fun x => if resumesOn s die ctx x then { x with suspOn := without x.suspOn die } else x) }

theorem execContextResume_eq (die ctx : Nat) : exec (.contextResume die ctx) s = .next (
    (s.ctxs.filter (resumesOn s die ctx)).foldl (fun s x => fillBasin s die x.job x.ring)
      (if (s.ctxs.filter (resumesOn s die ctx)).isEmpty then resumed s die ctx else debtPass (resumed s die ctx))) := rfl

theorem contextResume_none {die ctx : Nat} (none : ∀ x ∈ s.ctxs, resumesOn s die ctx x = false) : exec (.contextResume die ctx) s = .next s := by
  have nobody : s.ctxs.filter (resumesOn s die ctx) = [] := List.filter_eq_nil_iff.mpr fun x here => by rw [none x here]; decide
  have same : resumed s die ctx = s := by
    have ctxs : s.ctxs.map (fun x => if resumesOn s die ctx x then { x with suspOn := without x.suspOn die } else x) = s.ctxs := by
      rw [List.map_congr_left (g := fun x => x) fun x here => if_neg (by rw [none x here]; decide), List.map_id']
    unfold resumed
    rw [ctxs]
  rw [execContextResume_eq, nobody, same]
  rfl

theorem contextResume_resumes (die ctx : Nat) : ∃ t, exec (.contextResume die ctx) s = .next t ∧ Switched s t ∧
    t.ctxs = s.ctxs.map (fun x => if resumesOn s die ctx x then { x with suspOn := without x.suspOn die } else x) := by
  refine ⟨_, execContextResume_eq die ctx, ?_⟩
  have first : Switched s (resumed s die ctx) := (Switched.refl s).with (resumed s die ctx).ctxs s.pfs s.cmds s.nextId s.serial
  obtain ⟨rest, ctxs⟩ : Still4 (resumed s die ctx) _ := Still4.trans
    (b := if (s.ctxs.filter (resumesOn s die ctx)).isEmpty then resumed s die ctx else debtPass (resumed s die ctx))
    (by split; exact Still4.refl _; exact debtPass_still4 _) (fillBasins_still4 die (s.ctxs.filter (resumesOn s die ctx)) _)
  exact ⟨first.trans rest, ctxs⟩

end

-- CMD_ABORT (R262) ---------------------------------------------------------------------------------------------------------

theorem abortEff_contained (u : State) (c : Cmd) {s : State} (h : Contained s u) : Contained s (abortEff u c) := by
  unfold abortEff
  refine Contained.ite h ?_
  cases abortTarget u c with
  | some x => exact endCmd_contained _ _ _ _ h
  | none => exact Contained.foldl _ h fun _ _ g => Contained.set g

section
variable {s : State} {cid : Nat} {c : Cmd}

theorem abortRun_foreign (named : abortJob c ≠ 0) (foreign : ∀ j, findJob s (abortJob c) = some j → j.sess ≠ c.sess) : abortRun s c = .stop stDenied 0 [] := by
  unfold abortRun
  refine if_pos ⟨named, ?_⟩
  cases job : findJob s (abortJob c) with
  | none => rfl
  | some j => exact beq_eq_false_iff_ne.mpr (foreign j job)

/-- The targets of an abort are commands of rings other than its own. -/
theorem abortTarget_says {x : Cmd} (target : abortTarget s c = some x) : x ∈ s.cmds ∧ x.id ≠ c.id ∧ ∃ k, x.origin = .ring k := by
  have is := List.find?_some target
  simp only [Bool.and_eq_true, bne_iff_ne, ne_eq] at is
  obtain ⟨⟨⟨⟨other, -⟩, -⟩, origin⟩, -⟩ := is
  refine ⟨List.mem_of_find?_eq_some target, other, ?_⟩
  split at origin
  · next k ring => exact ⟨k, ring⟩
  · cases origin

/-- An abort finds its target at its commit as it was at its run. -/
theorem abortTarget_map {u : State} {z : Cmd} (beside : Beside s u) (nodup : (s.cmds.map Cmd.id).Nodup) (self : z.self = c.self) :
    (abortTarget u z).map Cmd.self = (abortTarget s c).map Cmd.self := by
  have same : aborts z = aborts c := by
    have parts : z.id = c.id ∧ z.pkt = c.pkt ∧ z.sess = c.sess := ⟨congrArg (·.1) self, congrArg (·.2.1) self, congrArg (·.2.2.2.1) self⟩
    funext p
    unfold aborts abortJob abortSeq
    rw [parts.1, parts.2.1, parts.2.2]
  rw [abortTarget_eq, abortTarget_eq, same]
  exact find_selfs (beside.selfs nodup) (aborts c)

/-- What the end of an abort's target says of the state before the abort. -/
theorem abort_ended {u v : State} {x z : Cmd} {status detail : Nat} (before : Beside s u) (after : Beside (endCmd u x status detail) v)
    (quiet : Quiet (endCmd u x status detail) v) (mem : Still s → u.mem = s.mem ∧ u.host = s.host ∧ Still u) (rest : Contained s (putCmd v z)) :
    Ended s (putCmd v z) x status detail := by
  have ended := endCmd_ended u x status detail
  have ringU : ∀ r, getRing u r = getRing s r := fun r => by unfold getRing; rw [before.rings]
  have ringV : ∀ r, getRing (putCmd v z) r = getRing (endCmd u x status detail) r := fun r => by unfold getRing; rw [← after.rings]; rfl
  refine ⟨fun y there same => ?_, after.ended ▸ ended.ended, rest, fun r own reply near bound => ?_, fun r own reply near still => ?_⟩
  · have inV : y.id ∈ (endCmd u x status detail).cmds.map Cmd.id := by
      rw [← after.ids, ← ids_put v.cmds z]
      exact List.mem_map_of_mem there
    obtain ⟨y', inW, is⟩ := List.mem_map.mp inV
    exact ended.gone y' inW (is.trans same)
  · obtain ⟨here, others⟩ := ended.ring r own reply (by rw [ringU]; exact near) (by rw [ringU]; exact bound)
    exact ⟨by rw [ringV, here, ringU], fun i other => by rw [ringV, others i other, ringU]⟩
  · obtain ⟨bytes, host, stillU⟩ := mem still
    obtain ⟨hostW, memW, w, said⟩ := ended.reply r own reply (by rw [ringU]; exact near) stillU
    obtain ⟨memV, hostV, -⟩ := quiet (endCmd_still own reply (by rw [ringU]; exact near) status detail stillU)
    have place : replyAt u r = replyAt s r := by unfold replyAt; rw [ringU]
    rw [place, bytes] at memW
    rw [place] at said
    have memT : (putCmd v z).mem = (endCmd u x status detail).mem := memV
    exact ⟨hostV.trans (hostW.trans host), fun a out => by rw [memT]; exact memW a out, w, by rw [memT]; exact said⟩

variable (h : RingRuns s cid 0xF05 c)
include h

theorem cmdAbort_denied (named : abortJob c ≠ 0) (foreign : ∀ j, findJob s (abortJob c) = some j → j.sess ≠ c.sess) :
    ∃ t, exec (.cmdAbort cid) s = .next t ∧ Ended s t c stDenied 0 :=
  runOp_stop (eff := abortEff) h.runs (abortRun_foreign named foreign)

theorem cmdAbort_late (run : abortRun s c = .done { Stg.none with status := stTooLate }) :
    ∃ t, exec (.cmdAbort cid) s = .next t ∧ Recorded s cid c { Stg.none with status := stTooLate } t ∧ Beside s t := by
  obtain ⟨t, next, record, beside, -⟩ := plain_row (eff := abortEff) h run (near_status _) fun u => abortEff_late u _ (by show stTooLate ≠ stDone; decide)
  exact ⟨t, next, record, beside⟩

/-- The target that has not committed ends, and then the abort's own record is put. -/
theorem cmdAbort_ends {x : Cmd} (nodup : (s.cmds.map Cmd.id).Nodup) (run : abortRun s c = .done Stg.none) (target : abortTarget s c = some x) :
    ∃ t x', exec (.cmdAbort cid) s = .next t ∧ Recorded s cid c Stg.none t ∧ x'.self = x.self ∧ Ended s t x' stAborted 0 := by
  obtain ⟨k, own⟩ := h.ring
  obtain ⟨here, other, kx, origin⟩ := abortTarget_says target
  obtain ⟨u, v, z, next, before, after, quiet, mem, -, -, record⟩ :=
    runOp_commits (eff := abortEff) h.runs own run near_none.wait near_none.evs near_none.near
  have same := abortTarget_map (c := c) (z := atCommit s (withRun c Stg.none)) before nodup rfl
  rw [target] at same
  obtain ⟨x', found, self⟩ := Option.map_eq_some_iff.mp same
  have id' : x'.id = x.id := congrArg (·.1) self
  have origin' : x'.origin = .ring kx := (congrArg (·.2.2.1) self).trans origin
  have effect : abortEff u (atCommit s (withRun c Stg.none)) = endCmd u x' stAborted 0 := by
    unfold abortEff
    rw [found, if_neg (by show ¬ stDone ≠ stDone; exact fun n => n rfl)]
  rw [effect] at after quiet
  have mine : cid ∈ v.cmds.map Cmd.id := by
    have there : c.self ∈ u.cmds.map Cmd.self := before.selfs nodup ▸ List.mem_map_of_mem (List.mem_of_find?_eq_some h.runs.1)
    obtain ⟨y, inU, is⟩ := List.mem_map.mp there
    have yid : y.id = c.id := congrArg (·.1) is
    have stays := endCmd_selfs origin' stAborted 0 (before.ids ▸ nodup) y inU (by rw [yid, id']; exact Ne.symm other) ⟨k, (congrArg (·.2.2.1) is).trans own⟩
    obtain ⟨y', inW, is'⟩ := List.mem_map.mp stays
    have yid' : y'.id = y.id := congrArg (·.1) is'
    rw [after.ids, ← (findCmd_mem h.runs.1).1, ← yid, ← yid']
    exact List.mem_map_of_mem inW
  have zid : z.id = cid := record.id.trans (findCmd_mem h.runs.1).1
  have put := findCmd_putCmd v z (zid ▸ mine)
  refine ⟨putCmd v z, x', next,
    ⟨z, zid ▸ put, record.phase, record.pkt, record.status, record.detail, record.ieee, record.commitAt, record.claimed, record.writes⟩, self,
    abort_ended before after quiet mem (runOp_contained _ _ _ _ _ (fun y d => abortEff_contained y d) (Contained.refl s) _ next)⟩

/-- The entries not yet fetched are marked (R262). -/
theorem cmdAbort_marks (nodup : (s.cmds.map Cmd.id).Nodup) (run : abortRun s c = .done Stg.none) (target : abortTarget s c = none) :
    ∃ t u, exec (.cmdAbort cid) s = .next t ∧ Recorded s cid c Stg.none t ∧ Beside s u ∧ MemSame s u ∧ Beside { s with rings := t.rings } t ∧
      ∀ r, getRing t r = if r ∈ ringsHolding u c.sess (abortJob c) (abortSeq c)
        then { getRing s r with marks := (getRing s r).marks ++ entriesHolding u r (abortJob c) (abortSeq c) } else getRing s r := by
  obtain ⟨u, t, next, before, mem, -, rest⟩ := effect_row_kept (eff := abortEff) h run near_none
  have gone : abortTarget u (atCommit s (withRun c Stg.none)) = none := by
    have same := abortTarget_map (c := c) (z := atCommit s (withRun c Stg.none)) before nodup rfl
    rw [target] at same
    exact Option.map_eq_none_iff.mp same
  obtain ⟨R, form, marks⟩ := marking_fold (abortJob c) (abortSeq c) (ringsHolding u c.sess (abortJob c) (abortSeq c)) (List.nodup_range.filter _) u
  have effect : abortEff u (atCommit s (withRun c Stg.none)) = (ringsHolding u c.sess (abortJob c) (abortSeq c)).foldl (marking (abortJob c) (abortSeq c)) u := by
    unfold abortEff
    rw [gone, if_neg (by show ¬ stDone ≠ stDone; exact fun n => n rfl)] <;> rfl
  have ring : ∀ r, getRing u r = getRing s r := fun r => by unfold getRing; rw [before.rings]
  obtain ⟨beside, record⟩ := rest { s with rings := R } rfl (by rw [effect, form]; exact before.rings_set R)
  refine ⟨t, u, next, record, before, fun still => ⟨(mem still).1, (mem still).2.1⟩, ?_, fun r => ?_⟩
  · rw [beside.rings]
    exact beside
  · have here := marks r
    rw [form] at here
    rw [← ring r, ← here]
    unfold getRing
    rw [beside.rings]

end

/-- Settles O56, row by row: each clause is one of the cases above. -/
theorem commandsAreFetchedStartedAndPublished : Obligations.CommandsAreFetchedStartedAndPublished := by
  unfold Obligations.CommandsAreFetchedStartedAndPublished
  intro s
  refine ⟨fun ring => ?fetch, fun cid u hu => ?start, fun cid c there => ?commit, fun cid c there => ?publication, fun die => ?preemption, fun die ctx => ?resume,
    fun cid c h => ?abort⟩
  case fetch =>
    refine ⟨ringFetch_idle, ringFetch_full, fun fetch space => ⟨ringFetch_faults fetch space, ?_⟩⟩
    rintro bs _ entry rfl
    refine ⟨ringFetch_marked fetch space entry, fun free poisoned => ?_, fun free clean => ?_⟩
    all_goals have next := ringFetch_accepts fetch space entry free
    · exact ⟨_, next, acceptCmd_poisoned poisoned⟩
    · exact ⟨fun f fault => ⟨_, next, acceptCmd_faulty clean fault⟩, fun good => ⟨fun d denial => ⟨_, next, acceptCmd_denied clean good denial⟩,
        fun own behind => ⟨_, next, acceptCmd_stale clean good own behind⟩,
        fun own ahead waits full => ⟨_, next, acceptCmd_crowded clean good own ahead waits full⟩,
        fun own ahead room => ⟨_, next, acceptCmd_accepted clean good own ahead room⟩⟩⟩
  case start =>
    subst hu
    refine ⟨debtPass_beside s (Beside.refl s), commandStart_gone, fun x there => ⟨commandStart_unready there, fun isReady due unheld => ?_⟩⟩
    have free : ¬ (ready (debtPass s) = false ∨ cmdReady (debtPass s) x = false ∨ jobHeld (debtPass s) x = true) := by simp [isReady, due, unheld]
    refine ⟨commandStart_placeless there free, fun p y v place hy hv => ⟨commandStart_held there free place hy hv, fun unheld n unit => ?_⟩⟩
    have next := commandStart_tries there free place hy hv unheld unit
    refine ⟨fun st d stop => ⟨_, next, tryStart_stops stop⟩, fun wait => ⟨_, next, tryStart_waits wait⟩, ?_⟩
    rintro ok clean q _ _ rfl rfl rfl
    refine ⟨fun wait => ⟨_, next, tryStart_family_waits clean ok wait⟩, fun st d stop => ⟨_, next, tryStart_family_stops clean ok stop⟩, fun w2 c2 go => ?_⟩
    refine ⟨fun st d stop => ⟨_, next, tryStart_structs_stop clean ok go stop⟩, fun wait => ⟨_, next, tryStart_structs_wait clean ok go wait⟩,
      fun sound never => ⟨_, next, tryStart_never clean ok go sound never⟩, fun sound cap fits =>
      ⟨fun lacks => ⟨_, next, tryStart_lacks clean ok go sound cap fits lacks⟩, fun room b there self => ?_⟩⟩
    obtain ⟨z, found, zself, running, zplace, runs, started, rest⟩ := tryStart_go clean ok rfl rfl go there self sound cap fits room
    have time : v.time = s.time := hv ▸ (placedIn_time _ _).trans (debtPass_beside s (Beside.refl s)).time
    exact ⟨_, z, next, found, zself, running, zplace, runs, started.trans time, rest⟩
  case commit =>
    refine ⟨fun early => by rw [execCommitPoint_eq there, if_pos early], commitPoint_setWaits there, commitPoint_waits there,
      fun staged op byLenders acked settled k origin => ?_⟩
    obtain ⟨u, v, before, after, form, mem, plain⟩ := commitPoint_records there origin
    exact ⟨_, u, v, (commitPoint_commits there staged op byLenders acked settled).trans (congrArg Host.Outcome.next form), before, after, rfl, mem, plain⟩
  case publication =>
    refine ⟨publication_waits there, fun committed free => ?_⟩
    by_cases silent : c.pkt.clsOp ≠ 0xF18 ∧ c.toSend = [] ∧ c.writes = []
    · obtain ⟨op, signals, writes⟩ := silent
      refine ⟨_, publication_finishes there committed free op signals writes, (findCmd_mem there).1 ▸ (finishCmd_gone s c).2.1,
        fun _ _ _ => ⟨?_, fun r => finishCmd_replies⟩⟩
      rw [(finishCmd_gone s c).2.2]
      exact List.mem_append_right _ List.mem_cons_self
    · obtain ⟨t, next, gone⟩ := publication_gone there committed free
      exact ⟨t, next, gone, fun op signals writes => absurd ⟨op, signals, writes⟩ silent⟩
  case preemption =>
    refine ⟨fun nobody => ?_, fun c y => preemption_suspends⟩
    show execPreemption die s = _
    unfold execPreemption
    rw [nobody]
  case resume => exact ⟨contextResume_none, contextResume_resumes die ctx⟩
  case abort =>
    refine ⟨cmdAbort_denied h, fun own => ?_⟩
    have run := abortRun_own own
    refine ⟨fun x target committed => cmdAbort_late h ?_, fun x target early nodup => cmdAbort_ends h nodup ?_ target,
      fun target holding nodup => cmdAbort_marks h nodup ?_ target,
      fun target unheld ended => cmdAbort_late h ?_, fun target unheld unknown => runOp_stop (eff := abortEff) h.runs ?_⟩
    all_goals rw [run, target]
    · exact if_pos committed
    · exact if_neg early
    · exact if_pos (by simpa using holding)
    · dsimp only
      rw [if_neg (by simp [unheld]), if_pos (by simpa using ended)]
    · dsimp only
      rw [if_neg (by simp [unheld]), if_neg (by simpa using unknown)]

end Sys2Proof.Machine
end

section
/-! What start-up fences loses none of the lists of retired granules (R243): one lemma `<name>_memRegs` per operation that leaves the memory
error registers alone, one `<name>_grows` per operation under which the lists may grow. -/

namespace Sys2Proof.Machine

theorem foldl_memRegs {α : Type} {f : State → α → State} (keeps : ∀ s a, (f s a).memRegs = s.memRegs) (l : List α) (s : State) :
    (l.foldl f s).memRegs = s.memRegs := by
  induction l generalizing s with
  | nil => rfl
  | cons a l ih => exact (ih _).trans (keeps s a)

theorem ite_memRegs {p : Prop} [Decidable p] {s a b : State} (ha : a.memRegs = s.memRegs) (hb : b.memRegs = s.memRegs) :
    (if p then a else b).memRegs = s.memRegs := by
  split
  · exact ha
  · exact hb

@[simp] theorem count_memRegs (s : State) (d : Nat) (slots : Nat × Nat) (code n : Nat) (attr : Option (Nat × Nat)) :
    (count s d slots code n attr).memRegs = s.memRegs :=
  (count_told _ _ _ _ _ _ (Told.refl s)).memRegs

@[simp] theorem fire_memRegs (s : State) (d i : Nat) : (fire s d i).memRegs = s.memRegs :=
  (fire_told _ _ _ (Told.refl s)).memRegs

@[simp] theorem fireMsix_memRegs (s : State) (v : Nat) : (fireMsix s v).memRegs = s.memRegs :=
  (fireMsix_told _ _ (Told.refl s)).memRegs

@[simp] theorem killKey_memRegs (s : State) (key : Nat) : (killKey s key).memRegs = s.memRegs :=
  (killKey_told _ _ (Told.refl s)).memRegs

@[simp] theorem wrPlain_memRegs (s : State) (a : Nat) (bs : List Byte) : (wrPlain s a bs).memRegs = s.memRegs :=
  (wrPlain_told _ _ _ (Told.refl s)).memRegs

@[simp] theorem wrLocal_memRegs (s : State) (key a : Nat) (bs : List Byte) : (wrLocal s key a bs).memRegs = s.memRegs :=
  (wrLocal_told _ _ _ _ (Told.refl s)).memRegs

@[simp] theorem countWork_memRegs (s : State) (c : Cmd) : (countWork s c).memRegs = s.memRegs :=
  (countWork_told _ _ (Told.refl s)).memRegs

@[simp] theorem drift_memRegs (s : State) (attr : Option (Nat × Nat)) : (drift s attr).memRegs = s.memRegs :=
  (drift_told _ _ (Told.refl s)).memRegs

@[simp] theorem raise_memRegs (s : State) (place code job layer seq d0 d1 d2 : Nat) : (raise s place code job layer seq d0 d1 d2).memRegs = s.memRegs :=
  (raise_told _ _ _ _ _ _ _ _ _ (Told.refl s)).memRegs

@[simp] theorem raiseFor_memRegs (s : State) (place code : Nat) (failed : Bool) (ses : Option Nat) (job layer seq d0 d1 d2 : Nat) :
    (raiseFor s place code failed ses job layer seq d0 d1 d2).memRegs = s.memRegs :=
  (raiseFor_told _ _ _ _ _ _ _ _ _ _ _ (Told.refl s)).memRegs

@[simp] theorem raiseMod_memRegs (s : State) (place code d0 d1 d2 : Nat) : (raiseMod s place code d0 d1 d2).memRegs = s.memRegs :=
  (raiseMod_told _ _ _ _ _ _ (Told.refl s)).memRegs

@[simp] theorem traceRec_memRegs (s : State) (d : Nat) (r : TrRec) : (traceRec s d r).memRegs = s.memRegs :=
  (traceRec_told _ _ _ (Told.refl s)).memRegs

@[simp] theorem send_memRegs (s : State) (m : Msg) : (send s m).memRegs = s.memRegs :=
  (send_carried _ _ (Carried.refl s)).memRegs

@[simp] theorem dropCmd_memRegs (s : State) (c : Nat) : (dropCmd s c).memRegs = s.memRegs := rfl

@[simp] theorem dropQueued_memRegs (s : State) (c : Cmd) : (dropQueued s c).memRegs = s.memRegs := rfl

@[simp] theorem dropRingBufs_memRegs (s : State) (r : Nat) : (dropRingBufs s r).memRegs = s.memRegs := rfl

@[simp] theorem poundPublish_memRegs (s : State) (d : Nat) (ws : List SWrite) : (poundPublish s d ws).memRegs = s.memRegs := by
  obtain ⟨q, form⟩ := poundPublish_queue s d ws
  rw [form]

@[simp] theorem requeueRe_memRegs (s : State) (c : Cmd) : (requeueRe s c).memRegs = s.memRegs := by
  unfold requeueRe
  split <;> simp

@[simp] theorem wrHost_memRegs (s : State) (a : Nat) (bs : List Byte) : (wrHost s a bs).memRegs = s.memRegs := rfl

@[simp] theorem leaveQueue_memRegs (s : State) (l cid : Nat) : (leaveQueue s l cid).memRegs = s.memRegs := rfl

@[simp] theorem moveTargets_memRegs (s : State) (k : Nat) : (moveTargets s k).memRegs = s.memRegs := rfl

@[simp] theorem returnClaim_memRegs (s : State) (l t : Nat) : (returnClaim s l t).memRegs = s.memRegs := rfl

@[simp] theorem syncPool_memRegs (s : State) (p : Nat) : (syncPool s p).memRegs = s.memRegs := by
  unfold syncPool
  split <;> simp

@[simp] theorem engineDone_memRegs (s : State) (c : Cmd) : (engineDone s c).memRegs = s.memRegs := (engineDone_meters s c (Meters.refl s)).memRegs

@[simp] theorem seqAttn_memRegs (s : State) (c : Cmd) : (seqAttn s c).memRegs = s.memRegs := (seqAttn_meters s c (Meters.refl s)).memRegs

@[simp] theorem jobCount_memRegs (s : State) (job layer field width add : Nat) : (jobCount s job layer field width add).memRegs = s.memRegs := by
  unfold jobCount
  dsimp only
  repeat' split
  all_goals simp

@[simp] theorem publishWrites_memRegs (s : State) (key : Nat) (ws : List SWrite) : (publishWrites s key ws).memRegs = s.memRegs :=
  foldl_memRegs (fun x w => by simp [apply_ite State.memRegs]) ws s

@[simp] theorem putObj_memRegs (s : State) (d : Nat) (o : ResObj) : (putObj s d o).memRegs = s.memRegs := by
  unfold putObj
  simp

@[simp] theorem resetRing_memRegs (s : State) (r : Nat) : (resetRing s r).memRegs = s.memRegs := rfl

@[simp] theorem dropPromotion_memRegs (s : State) (d t : Nat) : (dropPromotion s d t).memRegs = s.memRegs := by
  unfold dropPromotion
  dsimp only
  repeat' split
  all_goals simp

@[simp] theorem putPf_memRegs (s : State) (k : Nat) (p : PfSched) : (putPf s k p).memRegs = s.memRegs := rfl

@[simp] theorem markDirty_memRegs (s : State) (ws : List SWrite) : (markDirty s ws).memRegs = s.memRegs :=
  foldl_memRegs (fun x e => foldl_memRegs (fun y t => by
    cases findObj y e.1 with
    | none => rfl
    | some o => simp [apply_ite State.memRegs]) [1, 2] x) s.objs s

@[simp] theorem endUnbind_memRegs (s : State) (r : Nat) : (endUnbind s r).memRegs = s.memRegs := by
  unfold endUnbind
  simp [apply_ite State.memRegs]

@[simp] theorem clearCopy_memRegs (s : State) (d t : Nat) : (clearCopy s d t).memRegs = s.memRegs := by
  unfold clearCopy
  split <;> simp

@[simp] theorem sendCmd_memRegs (s : State) (c : Cmd) (dst typ tc : Nat) (body : List Nat) (data : List Byte) :
    (sendCmd s c dst typ tc body data).memRegs = s.memRegs := by
  unfold sendCmd
  split <;> simp

@[simp] theorem sendWb_memRegs (s : State) (o : ResObj) (seq peer typ tc : Nat) (body : List Nat) (data : List Byte) :
    (sendWb s o seq peer typ tc body data).memRegs = s.memRegs := by
  unfold sendWb
  simp

@[simp] theorem endStall_memRegs (s : State) (c : Cmd) : (endStall s c).1.memRegs = s.memRegs := by
  unfold endStall
  split
  · rfl
  · simp [apply_ite State.memRegs]

@[simp] theorem grantClaim_memRegs (s : State) (l : Nat) (cid t : Nat) : (grantClaim s l cid t).memRegs = s.memRegs := by
  unfold grantClaim
  split <;> simp

@[simp] theorem killWb_memRegs (s : State) (d t : Nat) : (killWb s d t).memRegs = s.memRegs := by
  unfold killWb
  dsimp only
  repeat' split
  all_goals simp

@[simp] theorem stageWb_memRegs (s : State) (d t seq : Nat) : (stageWb s d t seq).memRegs = s.memRegs := by
  unfold stageWb
  cases findObj s d with
  | none => rfl
  | some o =>
    dsimp only
    split
    · rw [putObj_memRegs]
      split
      · exact foldl_memRegs (fun _ _ => sendWb_memRegs ..) _ s
      · rfl
    · exact putObj_memRegs ..

@[simp] theorem addCount_memRegs (s : State) (l n : Nat) (by_ : Option Cmd) : (addCount s l n by_).memRegs = s.memRegs := by
  unfold addCount
  simp [apply_ite State.memRegs]

@[simp] theorem killWbs_memRegs (s : State) (p : ResObj → Bool) : (killWbs s p).memRegs = s.memRegs :=
  foldl_memRegs (fun _ _ => by simp) _ _

@[simp] theorem ringFault_memRegs (s : State) (r k : Nat) : (ringFault s r k).memRegs = s.memRegs := by
  unfold ringFault
  simp [apply_ite State.memRegs]

@[simp] theorem faultRings_memRegs (s : State) (d : Nat) : (faultRings s d).memRegs = s.memRegs :=
  foldl_memRegs (fun _ _ => by simp) _ _

@[simp] theorem releaseBufs_memRegs (s : State) (p : HostBuf → Bool) : (releaseBufs s p).memRegs = s.memRegs := by
  unfold releaseBufs
  dsimp only
  rw [foldl_memRegs fun x r => by simp [apply_ite State.memRegs]]

@[simp] theorem moduleWrite_memRegs (s : State) (sess job : Nat) (g : GAddr) (bs : List Byte) : (moduleWrite s sess job g bs).memRegs = s.memRegs := by
  unfold moduleWrite
  dsimp only
  repeat' split
  all_goals simp

@[simp] theorem evalClaims_memRegs (l n : Nat) (s : State) : (evalClaims l n s).memRegs = s.memRegs := by
  induction n generalizing s with
  | zero => rfl
  | succ n ih =>
    unfold evalClaims
    dsimp only
    repeat' split
    all_goals simp [ih]

@[simp] theorem reclaim_memRegs (s : State) (l : Nat) : (reclaim s l).memRegs = s.memRegs := by
  unfold reclaim
  simp

@[simp] theorem settleSetters_memRegs (s : State) (l : Nat) : (settleSetters s l).memRegs = s.memRegs := by
  unfold settleSetters
  simp [apply_ite State.memRegs]

@[simp] theorem ringEntry_memRegs (s : State) (sess job ringAt entries : Nat) (bs : List Byte) : (ringEntry s sess job ringAt entries bs).memRegs = s.memRegs := by
  unfold ringEntry
  simp [apply_ite State.memRegs]

@[simp] theorem writeReply_memRegs (s : State) (r : Nat) (bs : List Byte) : (writeReply s r bs).memRegs = s.memRegs := by
  unfold writeReply
  simp [apply_ite State.memRegs]

@[simp] theorem writeEntries_memRegs (s : State) (c : Cmd) : (writeEntries s c).memRegs = s.memRegs := by
  unfold writeEntries
  extract_lets x
  have census : x.memRegs = s.memRegs := by
    unfold x
    split
    · split
      · exact foldl_memRegs (fun y o => by simp [apply_ite State.memRegs]) _ s
      · rfl
    · rfl
  rw [← census]
  exact foldl_memRegs (fun y w => foldl_memRegs (fun z o => by simp [apply_ite State.memRegs]) _ y) _ x

@[simp] theorem finishCmd_memRegs (s : State) (c : Cmd) : (finishCmd s c).memRegs = s.memRegs := by
  unfold finishCmd
  dsimp only
  repeat' split
  all_goals simp

@[simp] theorem signalLock_memRegs (s : State) (l n job peer : Nat) (by_ : Option Cmd) : (signalLock s l n job peer by_).memRegs = s.memRegs := by
  unfold signalLock
  split <;> simp

@[simp] theorem copyEnded_memRegs (s : State) (parent entry : Nat) (r : Nat × Nat × Nat) : (copyEnded s parent entry r).memRegs = s.memRegs := by
  unfold copyEnded
  split <;> simp

@[simp] theorem releaseJob_memRegs (s : State) (job : Nat) (completed : Bool) : (releaseJob s job completed).memRegs = s.memRegs := by
  unfold releaseJob
  split
  · rfl
  · next j _ =>
    extract_lets s1 s2 s3 s4 s5 s6 s7 cxl domain s8 s9 k
    have lenders : s2.memRegs = s.memRegs := by
      unfold s2
      split
      · exact (foldl_memRegs (fun _ _ => send_memRegs ..) _ s1).trans (killWbs_memRegs ..)
      · exact killWbs_memRegs ..
    have flights : s4.memRegs = s3.memRegs := foldl_memRegs (fun _ _ => by rfl) _ s3
    have pools : s5.memRegs = s4.memRegs := foldl_memRegs (fun _ _ => by simp [apply_ite State.memRegs]) _ s4
    have traces : s6.memRegs = s5.memRegs := foldl_memRegs (fun _ _ => setTrace_memRegs ..) _ s5
    rw [setCounts_memRegs]
    calc s9.memRegs = s8.memRegs := releaseBufs_memRegs s8 _
      _ = s6.memRegs := killKey_memRegs s6 j.memKey
      _ = s.memRegs := traces.trans (pools.trans (flights.trans lenders))

@[simp] theorem dumpPart_memRegs (s : State) (d cause : Nat) : (dumpPart s d cause).memRegs = s.memRegs := rfl

@[simp] theorem fatalStop_memRegs (s : State) (cause : Nat) : (fatalStop s cause).memRegs = s.memRegs := by
  unfold fatalStop
  split
  · rfl
  · extract_lets parts s1 s2 src s3 s4
    have dumped : s2.memRegs = s.memRegs := foldl_memRegs (fun x d => dumpPart_memRegs x d cause) _ s1
    show s4.memRegs = s.memRegs
    unfold s4
    split
    · split <;> exact dumped
    · exact dumped

-- lists of retired granules that at most grow -------------------------------------------------------------------------------

/-- No list of retired granules has become shorter (R243). -/
def RetiredGrow (s t : State) : Prop := ∀ d, (getMemRegs s d).retired.length ≤ (getMemRegs t d).retired.length

theorem RetiredGrow.refl (s : State) : RetiredGrow s s := fun _ => le_rfl

theorem RetiredGrow.trans {a b c : State} (h : RetiredGrow a b) (g : RetiredGrow b c) : RetiredGrow a c := fun d => (h d).trans (g d)

/-- An operation that leaves the memory error registers as they are. -/
theorem RetiredGrow.same {s x t : State} (h : RetiredGrow s x) (e : t.memRegs = x.memRegs) : RetiredGrow s t := fun d => by
  unfold getMemRegs at *
  rw [e]
  exact h d

theorem RetiredGrow.of_same {s t : State} (e : t.memRegs = s.memRegs) : RetiredGrow s t := (RetiredGrow.refl s).same e

theorem RetiredGrow.foldl {α : Type} {f : State → α → State} (grows : ∀ x a, RetiredGrow x (f x a)) (l : List α) (s : State) :
    RetiredGrow s (l.foldl f s) :=
  foldl_keeps (P := RetiredGrow s) (fun x a h => h.trans (grows x a)) l (RetiredGrow.refl s)

theorem setMemRegs_grows {s : State} {d : Nat} {x : MemRegs} (h : (getMemRegs s d).retired.length ≤ x.retired.length) :
    RetiredGrow s (setMemRegs s d x) := fun e => by
  rw [show getMemRegs (setMemRegs s d x) e = if d = e then x else getMemRegs s e from tget_tset _ d e x]
  split
  · next at_ => exact at_ ▸ h
  · exact le_rfl

theorem markRetired_grows (s : State) (a : Nat) : RetiredGrow s (markRetired s a) := by
  unfold markRetired
  dsimp only
  split
  · exact RetiredGrow.refl s
  · refine RetiredGrow.same (setMemRegs_grows ?_) (raiseMod_memRegs ..)
    rw [List.length_append]
    exact Nat.le_add_right _ _

theorem memError_grows (s : State) (die source job layer seq : Nat) (ses : Option Nat) (g : Nat) :
    RetiredGrow s (memError s die source job layer seq ses g) := by
  unfold memError
  extract_lets m m' s1 s2 s3
  have counted : (getMemRegs s die).retired.length ≤ m'.retired.length := by
    unfold m'
    split
    · exact le_rfl
    · split <;> exact le_rfl
  have told : RetiredGrow s s3 := RetiredGrow.same (x := s1) (setMemRegs_grows counted) (by simp [s3, s2, apply_ite State.memRegs])
  split
  · exact told.trans (markRetired_grows s3 _)
  · exact told

-- copies and pins ----------------------------------------------------------------------------------------------------------

theorem removeCopy_grows (s : State) (d t : Nat) : RetiredGrow s (removeCopy s d t) := by
  unfold removeCopy
  cases findObj s d with
  | none => exact RetiredGrow.refl s
  | some o =>
    dsimp only
    split
    · exact RetiredGrow.refl s
    · split
      · exact RetiredGrow.of_same (clearCopy_memRegs ..)
      · split
        · refine RetiredGrow.same ?_ (putObj_memRegs ..)
          split
          · exact memError_grows _ _ _ _ _ _ _ _
          · exact RetiredGrow.refl s
        · exact RetiredGrow.of_same (stageWb_memRegs ..)

theorem unpinUse_grows (s : State) (d t : Nat) : RetiredGrow s (unpinUse s d t) := by
  unfold unpinUse
  cases findObj s d with
  | none => exact RetiredGrow.refl s
  | some o =>
    dsimp only
    have put := RetiredGrow.of_same (putObj_memRegs s d (o.setCopy t { o.copy t with usePins := (o.copy t).usePins - 1 }))
    split
    · exact put.trans (removeCopy_grows _ d t)
    · exact put

theorem endHold_grows (s : State) (h : Nat × Nat) : RetiredGrow s (endHold s h) := by
  unfold endHold
  split
  · exact RetiredGrow.refl s
  · exact unpinUse_grows _ _ _

theorem promotionFault_grows (s : State) (sc e status : Nat) : RetiredGrow s (promotionFault s sc e status) := by
  unfold promotionFault
  split
  · exact RetiredGrow.refl s
  · extract_lets h layer p' h'
    have unpinned : RetiredGrow s h := by
      unfold h
      split
      · exact unpinUse_grows _ _ _
      · exact RetiredGrow.refl s
    split
    · exact unpinned.same (putPf_memRegs ..)
    · exact unpinned.same ((raise_memRegs _ _ _ _ _ _ _ _ _).trans (putPf_memRegs h sc _))

theorem consume_grows (s : State) (c : Cmd) : RetiredGrow s (consume s c) := by
  unfold consume
  extract_lets l t k r s1 s2 s3
  exact (RetiredGrow.of_same (by simp [s3, s2, s1])).trans (RetiredGrow.foldl endHold_grows r.2 s3)

-- commands that end, are killed or commit ----------------------------------------------------------------------------------

theorem releaseRun_grows (s : State) (c : Cmd) : RetiredGrow s (releaseRun s c) := by
  unfold releaseRun
  extract_lets s1 s2 s3
  have dropped : RetiredGrow s s1 := RetiredGrow.of_same (by simp [s1, apply_ite State.memRegs])
  have unpinned : RetiredGrow s s2 := dropped.trans (RetiredGrow.foldl (fun x p => unpinUse_grows x p.1 p.2) c.pins s1)
  refine unpinned.same ((foldl_memRegs (fun _ _ => sendCmd_memRegs ..) _ s3).trans ?_)
  exact ite_memRegs (dropPromotion_memRegs _ _ _) rfl

theorem endCopies_grows (s : State) (parent : Nat) : RetiredGrow s (endCopies s parent) :=
  (RetiredGrow.foldl releaseRun_grows (s.cmds.filter (copyOf parent)) s).same rfl

theorem endCmd_grows (s : State) (c : Cmd) (status detail : Nat) : RetiredGrow s (endCmd s c status detail) := by
  unfold endCmd
  extract_lets s1 target r s2 c2 s3 s4 s5 s6 s7 s8 c' s9 s10 l s11 s12
  have stalled : s2.memRegs = s1.memRegs := endStall_memRegs s1 c
  have counted : s6.memRegs = s2.memRegs := by
    unfold s6
    split <;> simp [s5, s4, s3, apply_ite State.memRegs]
  have finished : s9.memRegs = s6.memRegs := by simp [s9, s8, s7, apply_ite State.memRegs]
  have settled : s10.memRegs = s9.memRegs := by
    clear_value target
    cases target with
    | some l => exact (settleSetters_memRegs _ l).trans (leaveQueue_memRegs s9 l c2.id)
    | none => rfl
  have reclaimed : s12.memRegs = s10.memRegs := by simp [s12, s11, apply_ite State.memRegs]
  have before : RetiredGrow s s12 := (releaseRun_grows s c).same (reclaimed.trans (settled.trans (finished.trans (counted.trans stalled))))
  split
  · exact before.trans (promotionFault_grows _ _ _ _)
  · exact before.same (copyEnded_memRegs _ _ _ _)
  · exact before.trans (endCopies_grows _ _)
  · exact before

theorem endAll_grows (s : State) (status detail : Nat) (p : Cmd → Bool) : RetiredGrow s (endAll s status detail p) :=
  RetiredGrow.foldl (fun x i => by
    cases findCmd x i with
    | none => exact RetiredGrow.refl x
    | some c => exact endCmd_grows x c status detail) _ s

theorem dropTests_grows (s : State) (p : HwUnit → Bool) : RetiredGrow s (dropTests s p) := by
  unfold dropTests
  extract_lets gone s1
  refine RetiredGrow.trans (b := s1) (RetiredGrow.of_same rfl) (RetiredGrow.foldl (fun x r => ?_) gone s1)
  split
  · split
    · exact endCmd_grows x _ _ _
    · exact RetiredGrow.refl x
  · exact RetiredGrow.refl x

theorem killCmd_grows (s : State) (c : Cmd) (cause : Nat) : RetiredGrow s (killCmd s c cause) := by
  unfold killCmd
  extract_lets st r s1 c2 s2 s3 s4 s5 s6 fresh c' s7 l s8 k s9
  have stalled : r.1.memRegs = s.memRegs := by
    unfold r
    split
    · exact endStall_memRegs s c
    · rfl
  have released : RetiredGrow s s1 := (RetiredGrow.of_same stalled).trans (releaseRun_grows _ _)
  have settled : s2.memRegs = s1.memRegs := by
    unfold s2
    split
    · exact (settleSetters_memRegs _ _).trans (leaveQueue_memRegs _ _ _)
    · rfl
  have counted : s5.memRegs = s2.memRegs := by
    unfold s5
    split <;> simp [s4, s3, apply_ite State.memRegs]
  have killed : RetiredGrow s s7 := released.same (Eq.trans (by simp [s7, s6]) (counted.trans settled))
  have reclaimed : s9.memRegs = s7.memRegs := by simp [s9, s8, apply_ite State.memRegs]
  split
  · exact killed
  · split
    · exact killed.same reclaimed
    · exact killed.same reclaimed

theorem killAll_grows (s : State) (cause : Nat) (p : Cmd → Bool) : RetiredGrow s (killAll s cause p) :=
  RetiredGrow.foldl (fun x i => by
    cases findCmd x i with
    | none => exact RetiredGrow.refl x
    | some c => exact killCmd_grows x c cause) _ s

/-- A commit loses nothing of the lists where its own effect does not. -/
theorem commitWith_grows {eff : State → Cmd → State} (effect : ∀ x c, RetiredGrow x (eff x c)) (s : State) (c : Cmd) : RetiredGrow s (commitWith eff s c) := by
  unfold commitWith
  extract_lets same both c1 s1 key d loc s2 s3 s4 s5 s6 s7 s8 s9 s10 s11 s12 s13 lenders s14 c2
  have published : s3.memRegs = s.memRegs := by simp [s3, s2, s1]
  have consumed : RetiredGrow s s4 := by
    unfold s4
    split
    · exact RetiredGrow.of_same published
    · exact (RetiredGrow.of_same published).trans (consume_grows _ _)
  have signalled : RetiredGrow s s5 := by
    refine consumed.same ?_
    unfold s5
    clear_value same
    cases same with
    | some l => exact signalLock_memRegs _ _ _ _ _ _
    | none => rfl
  have acted : RetiredGrow s s7 := (signalled.trans (effect s5 c1)).same (writeEntries_memRegs s6 c1)
  have unpinned : RetiredGrow s s8 := acted.trans (RetiredGrow.foldl (fun x p => unpinUse_grows x p.1 p.2) c1.pins s7)
  have counted : s12.memRegs = s8.memRegs := by
    unfold s12
    split <;> simp [s11, s10, s9, apply_ite State.memRegs]
  have told : s14.memRegs = s12.memRegs := (foldl_memRegs (fun _ _ => sendCmd_memRegs _ _ _ _ _ _ _) lenders s13).trans (engineDone_memRegs s12 c1)
  have before : RetiredGrow s s14 := unpinned.same (told.trans counted)
  split
  · exact before
  · exact before.same (publishWrites_memRegs _ _ _)

-- jobs and dies ------------------------------------------------------------------------------------------------------------

theorem commitJobEnds_grows (s : State) (job : Nat) (killed : Bool) : RetiredGrow s (commitJobEnds s job killed) := by
  unfold commitJobEnds
  refine RetiredGrow.same (RetiredGrow.foldl (fun x i => ?_) _ s) (releaseJob_memRegs _ job _)
  split
  · exact commitWith_grows (fun x _ => RetiredGrow.refl x) x _
  · exact RetiredGrow.refl x

theorem endJob_grows (s : State) (job : Nat) : RetiredGrow s (endJob s job) :=
  (endAll_grows s _ _ _).trans (commitJobEnds_grows _ job true)

/-- The fence of a die loses nothing of the lists of retired granules. -/
theorem fenceDie_grows (s : State) (d cause : Nat) : RetiredGrow s (fenceDie s d cause) := by
  unfold fenceDie
  extract_lets x s1 s2 js s3 s4 s5 s6 sic s7 s8 trace s9 s10
  have killed : RetiredGrow s s2 := (RetiredGrow.of_same (t := s1) rfl).trans (killAll_grows s1 _ _)
  have ended : RetiredGrow s s4 := (killed.trans (RetiredGrow.foldl (fun y j =>
    (RetiredGrow.of_same (raise_memRegs y _ _ _ _ _ _ _ _)).trans (endJob_grows _ j)) js s2)).same rfl
  have dropped : RetiredGrow s s5 := ended.trans (dropTests_grows s4 _)
  have told : s10.memRegs = s5.memRegs := by
    simp [s10, s9, s8, s7, s6, apply_ite State.memRegs]
  split
  · exact RetiredGrow.refl s
  · split
    · exact (dropped.same told).same (fatalStop_memRegs s10 3)
    · exact dropped.same told

end Sys2Proof.Machine
end


section
/-! Start-up: each of its rows ends its phase in order, or stops it (R398, R404, R475, R503 to R505). -/

namespace Sys2Proof.Machine

theorem bootFail_form {s : State} {p : Nat} (d : Nat) (h : s.power.phase ≠ p) : bootFail s p d = { s with power := { s.power.at p with failDetail := d } } := by
  unfold bootFail
  rw [setPhase_form h]

/-- Only the trust registers differ. -/
def TrustOnly (s u : State) : Prop := ∃ x, u = { s with trust := x }

theorem TrustOnly.extendMr {s u : State} (h : TrustOnly s u) (i : Nat) (d : List Byte) : TrustOnly s (extendMr u i d) := by
  obtain ⟨x, rfl⟩ := h
  exact ⟨_, rfl⟩

theorem TrustOnly.booted {s u : State} (h : TrustOnly s u) (i : Nat) (o : SignedObj) : TrustOnly s (booted u i o) := by
  obtain ⟨x, rfl⟩ := h
  exact ⟨_, rfl⟩

/-- Start-up that stops before anything but the trust registers has changed. -/
theorem TrustOnly.bootFail {s u : State} {p : Nat} (only : TrustOnly s u) (d : Nat) (h : s.power.phase ≠ p) :
    (bootFail u p d).power = { s.power.at p with failDetail := d } ∧
      bootFail u p d = { s with power := (bootFail u p d).power, trust := (bootFail u p d).trust } := by
  obtain ⟨x, rfl⟩ := only
  rw [bootFail_form (s := { s with trust := x }) d h]
  exact ⟨rfl, rfl⟩

theorem powered_of_on {s : State} (on : s.power.off = false) : powered s = true := by
  unfold powered
  rw [on]
  rfl

/-- Start-up stands before step 1, and nothing holds it there (R503, R519, R524). -/
structure AtStepOne (s : State) : Prop where
  on : s.power.off = false
  phase : s.power.phase = 0
  resetN : s.power.resetN = true
  enabled : s.power.awaitEn = false
  undriven : s.tap.ir ∉ [0x00, 0x03, 0x04, 0x05, 0x06]

theorem AtStepOne.free {s : State} (h : AtStepOne s) : ¬ (!(powered s) || s.power.phase != 0 || stepOneHeld s) = true := by
  have undriven := h.undriven
  unfold stepOneHeld
  rw [powered_of_on h.on, h.phase, h.resetN, h.enabled]
  simpa using undriven

theorem configVerified_held {s : State} (held : stepOneHeld s = true) (f : Option SignedObj) (r : Option ConfigRecord) : exec (.configVerified f r) s = .next s := by
  show execConfigVerified f r s = _
  unfold execConfigVerified
  rw [if_pos (by rw [held, Bool.or_true])]

/-- Firmware and record, measured and with their floors (R404, R405). -/
def bothBooted (s : State) (f : SignedObj) (r : ConfigRecord) : State := booted (booted (extendMr s 0 Config.romHash) 1 f) 3 r.obj

/-- What a record configures, and the measurement of its owner (R404, R405). -/
def configured (u : State) (r : ConfigRecord) : State :=
  let u := extendMr u 4 (u.trust.ownerNow.getD (zeros 48))
  { u with
    cfg := r, trust := { u.trust with cfgSeq := r.obj.sequence },
    domain := { u.domain with peer0Mode := r.peer0Mode, successors := r.successors.take 8, routes := r.routes },
    ports := (List.range 36).foldl (fun t p => if r.ports.contains p then t else tset Port.rest t p { tget Port.rest t p with ctrl := 2 }) u.ports,
    power := { u.power with fwOk := true, cfgDone := true } }

theorem bothBooted_only (s : State) (f : SignedObj) (r : ConfigRecord) : TrustOnly s (bothBooted s f r) :=
  (TrustOnly.extendMr ⟨s.trust, rfl⟩ 0 Config.romHash).booted 1 f |>.booted 3 r.obj

theorem booted_mrs (s : State) (i : Nat) (o : SignedObj) : (booted s i o).trust.mrs = measured s.trust.mrs i o.hash := rfl

theorem bothBooted_mrs (s : State) (f : SignedObj) (r : ConfigRecord) :
    (bothBooted s f r).trust.mrs = measured (measured (measured s.trust.mrs 0 Config.romHash) 1 f.hash) 3 r.obj.hash := by
  unfold bothBooted
  rw [booted_mrs, booted_mrs]
  rfl

theorem booted_ownerNow (s : State) (i : Nat) (o : SignedObj) : (booted s i o).trust.ownerNow = s.trust.ownerNow := rfl

theorem bothBooted_ownerNow (s : State) (f : SignedObj) (r : ConfigRecord) : (bothBooted s f r).trust.ownerNow = s.trust.ownerNow := by
  unfold bothBooted
  rw [booted_ownerNow, booted_ownerNow]
  rfl

/-- The state in which a verified image leaves the module. -/
def imaged (u : State) (o : SignedObj) : State :=
  { u with trust := { u.trust with imgLevel := o.level }, power := { u.power with imgDone := true } }

theorem booted_rfPending (s : State) (i : Nat) (o : SignedObj) :
    (booted s i o).trust.rfPending = s.trust.rfPending ++ (if o.raiseFloor then [(o.kind, o.svn)] else []) := by
  obtain ⟨sv, form⟩ := booted_trust s i o
  rw [form]

section
variable {s : State} (h : AtStepOne s)
include h

theorem configVerified_eq (f : Option SignedObj) (r : Option ConfigRecord) : exec (.configVerified f r) s = .next (
    match f with
    | none => bootFail (extendMr s 0 Config.romHash) 0xD 0
    | some f =>
      if objAccepted s f = false ∨ f.kind ≠ 0 then bootFail (extendMr s 0 Config.romHash) 0xD 0
      else match r with
        | none => bootFail (booted (extendMr s 0 Config.romHash) 1 f) 0xD 2
        | some r =>
          if objAccepted s r.obj = false ∨ r.obj.kind ≠ 2 ∨ r.rkHashOk = false ∨ r.poundsOk = false then
            bootFail (booted (extendMr s 0 Config.romHash) 1 f) 0xD 2
          else setPhase (configured (bothBooted s f r) r) 1) := by
  show execConfigVerified f r s = _
  unfold execConfigVerified
  rw [if_neg h.free]
  simp only [objAccepted_booted, objAccepted_extendMr]
  rfl

/-- Firmware that does not verify stops start-up in BOOT_FAIL with kind 0 (R404). -/
theorem configVerified_firmware_fails (f : Option SignedObj) (r : Option ConfigRecord) (bad : ∀ g, f = some g → objAccepted s g = false ∨ g.kind ≠ 0) :
    ∃ t, exec (.configVerified f r) s = .next t ∧ t.power = { s.power.at 0xD with failDetail := 0 } ∧ t = { s with power := t.power, trust := t.trust } := by
  have stops : exec (.configVerified f r) s = .next (bootFail (extendMr s 0 Config.romHash) 0xD 0) := by
    rw [configVerified_eq h]
    cases f with
    | none => rfl
    | some g => exact congrArg Host.Outcome.next (if_pos (bad g rfl))
  exact ⟨_, stops, (TrustOnly.extendMr ⟨s.trust, rfl⟩ 0 Config.romHash).bootFail 0 (by rw [h.phase]; decide)⟩

/-- A record that does not verify, or whose pound sizes are not allowed, stops start-up in BOOT_FAIL with kind 2 (R235, R404). -/
theorem configVerified_record_fails (f : SignedObj) (r : Option ConfigRecord) (ok : objAccepted s f = true) (kind : f.kind = 0)
    (bad : ∀ g, r = some g → objAccepted s g.obj = false ∨ g.obj.kind ≠ 2 ∨ g.rkHashOk = false ∨ g.poundsOk = false) :
    ∃ t, exec (.configVerified (some f) r) s = .next t ∧ t.power = { s.power.at 0xD with failDetail := 2 } ∧
      t = { s with power := t.power, trust := t.trust } := by
  have stops : exec (.configVerified (some f) r) s = .next (bootFail (booted (extendMr s 0 Config.romHash) 1 f) 0xD 2) := by
    rw [configVerified_eq h]
    dsimp only
    rw [if_neg (by simp [ok, kind])]
    cases r with
    | none => rfl
    | some g => exact congrArg Host.Outcome.next (if_pos (bad g rfl))
  exact ⟨_, stops, ((TrustOnly.extendMr ⟨s.trust, rfl⟩ 0 Config.romHash).booted 1 f).bootFail 2 (by rw [h.phase]; decide)⟩

/-- Firmware and record that verify end step 1 (R404, R405). -/
theorem configVerified_accepts (f : SignedObj) (r : ConfigRecord) (okF : objAccepted s f = true) (kindF : f.kind = 0) (okR : objAccepted s r.obj = true)
    (kindR : r.obj.kind = 2) (hash : r.rkHashOk = true) (pounds : r.poundsOk = true) :
    ∃ t, exec (.configVerified (some f) (some r)) s = .next t ∧ t.cfg = r ∧ t.power = ({ s.power with fwOk := true, cfgDone := true }).at 1 ∧
      t.trust.mrs = measured (measured (measured (measured s.trust.mrs 0 Config.romHash) 1 f.hash) 3 r.obj.hash) 4 (s.trust.ownerNow.getD (zeros 48)) ∧
      t.trust.cfgSeq = r.obj.sequence ∧
      t.trust.rfPending = s.trust.rfPending ++ (if f.raiseFloor then [(0, f.svn)] else []) ++ (if r.obj.raiseFloor then [(2, r.obj.svn)] else []) ∧
      t.domain = { s.domain with peer0Mode := r.peer0Mode, successors := r.successors.take 8, routes := r.routes } ∧
      t = { s with cfg := t.cfg, power := t.power, trust := t.trust, domain := t.domain, ports := t.ports } := by
  have next : exec (.configVerified (some f) (some r)) s = .next (setPhase (configured (bothBooted s f r) r) 1) := by
    rw [configVerified_eq h]
    dsimp only
    rw [if_neg (by simp [okF, kindF]), if_neg (by simp [okR, kindR, hash, pounds])]
  have mrs := bothBooted_mrs s f r
  have owner := bothBooted_ownerNow s f r
  have floors : (bothBooted s f r).trust.rfPending =
      s.trust.rfPending ++ (if f.raiseFloor then [(0, f.svn)] else []) ++ (if r.obj.raiseFloor then [(2, r.obj.svn)] else []) := by
    unfold bothBooted
    rw [booted_rfPending, booted_rfPending, kindF, kindR]
    rfl
  obtain ⟨x, form⟩ := bothBooted_only s f r
  rw [form] at next mrs owner floors
  rw [setPhase_form (by show s.power.phase ≠ 1; rw [h.phase]; decide)] at next
  refine ⟨_, next, rfl, rfl, ?_, rfl, floors, rfl, rfl⟩
  rw [← mrs, ← owner]
  rfl

end

section
variable {s : State} (on : s.power.off = false)
include on

theorem imageVerified_eq (phase : s.power.phase = 1) (o : Option SignedObj) : exec (.imageVerified o) s = .next (
    match o with
    | none => bootFail s 0xD 1
    | some o => if objAccepted s o = false ∨ o.kind ≠ 1 then bootFail s 0xD 1 else setPhase (imaged (booted s 2 o) o) 2) := by
  show execImageVerified o s = _
  unfold execImageVerified
  rw [if_neg (by simp [powered_of_on on, phase])]
  rfl

theorem imageVerified_accepts (phase : s.power.phase = 1) (o : SignedObj) (ok : objAccepted s o = true) (kind : o.kind = 1) :
    ∃ t, exec (.imageVerified (some o)) s = .next t ∧ t.power = ({ s.power with imgDone := true }).at 2 ∧
      t.trust.mrs = measured s.trust.mrs 2 o.hash ∧ t.trust.imgLevel = o.level ∧ t = { s with power := t.power, trust := t.trust } := by
  have next := imageVerified_eq on phase (some o)
  dsimp only at next
  rw [if_neg (by simp [ok, kind])] at next
  have mrs := booted_mrs s 2 o
  obtain ⟨x, form⟩ := TrustOnly.booted ⟨s.trust, rfl⟩ 2 o
  rw [form] at next mrs
  rw [setPhase_form (by show s.power.phase ≠ 2; omega)] at next
  exact ⟨_, next, rfl, mrs, rfl, rfl⟩

/-- An image that does not verify stops start-up in BOOT_FAIL with kind 1 (R404). -/
theorem imageVerified_fails (phase : s.power.phase = 1) (o : Option SignedObj) (bad : ∀ g, o = some g → objAccepted s g = false ∨ g.kind ≠ 1) :
    exec (.imageVerified o) s = .next { s with power := { s.power.at 0xD with failDetail := 1 } } := by
  rw [imageVerified_eq on phase, ← bootFail_form 1 (by omega)]
  cases o with
  | none => rfl
  | some g => exact congrArg Host.Outcome.next (if_pos (bad g rfl))

end

-- step 4: keys and dies (R243, R398) ---------------------------------------------------------------------------------------

theorem setPhase_phase (s : State) (p : Nat) : (setPhase s p).power.phase = p := by
  unfold setPhase
  split
  · next already => exact already
  · rfl

theorem setPhase_dies (s : State) (p d : Nat) : getDie (setPhase s p) d = getDie s d := by
  unfold setPhase
  split <;> rfl

theorem setPhase_power (s : State) (p : Nat) : setPhase s p = { s with power := (setPhase s p).power } := by
  unfold setPhase
  split <;> rfl

/-- A fence that finds the module in a phase, or stopped with no die up, leaves it so. -/
theorem Held.refl {s : State} {p : Nat} (h : s.power.phase = p ∨ s.power.phase = 0xF ∧ diesUp s = []) : Held s s p := ⟨h, fun _ fenced => fenced⟩

theorem fenceFull_held {s t : State} {p : Nat} (d : Nat) (h : Held s t p) : Held s (fenceFull t d) p := by
  unfold fenceFull
  split
  · exact (fenceDie_held d 4 h).1
  · exact h

theorem fenceFull_grows (s : State) (d : Nat) : RetiredGrow s (fenceFull s d) := by
  unfold fenceFull
  split
  · exact fenceDie_grows s d 4
  · exact RetiredGrow.refl s

/-- Dies whose lists are full are fenced in turn: a fence makes no other list shorter (R243). -/
theorem fenceFull_all {p : Nat} (l : List Nat) {s : State} (h : Held s s p) :
    Held s (l.foldl fenceFull s) p ∧ ∀ d ∈ l, 4096 ≤ (getMemRegs s d).retired.length → (getDie (l.foldl fenceFull s) d).fenced = true := by
  induction l generalizing s with
  | nil => exact ⟨h, fun d here => absurd here List.not_mem_nil⟩
  | cons a l ih =>
    have first : Held s (fenceFull s a) p := fenceFull_held a h
    obtain ⟨rest, fenced⟩ := ih first.self
    refine ⟨⟨rest.phase, fun d was => rest.fenced d (first.fenced d was)⟩, fun d here full => ?_⟩
    rcases List.mem_cons.mp here with rfl | here
    · have now : (getDie (fenceFull s d) d).fenced = true := by
        unfold fenceFull
        rw [if_pos full]
        exact (fenceDie_held d 4 h).2
      exact rest.fenced d now
    · exact fenced d here (full.trans (fenceFull_grows s a d))

theorem fenceFulls_held {s : State} {p : Nat} (h : Held s s p) :
    Held s (fenceFulls s) p ∧ ∀ d, d < 8 → 4096 ≤ (getMemRegs s d).retired.length → (getDie (fenceFulls s) d).fenced = true := by
  unfold fenceFulls
  obtain ⟨held, fenced⟩ := fenceFull_all (List.range 8) h
  exact ⟨held, fun d small => fenced d (List.mem_range.mpr small)⟩

theorem fenceFulls_none {s : State} (free : ∀ d, d < 8 → (getMemRegs s d).retired.length < 4096) : fenceFulls s = s := by
  unfold fenceFulls
  have none : ∀ l : List Nat, (∀ d ∈ l, d < 8) → l.foldl fenceFull s = s := by
    intro l small
    induction l with
    | nil => rfl
    | cons a l ih =>
      have same : fenceFull s a = s := if_neg (Nat.not_le.mpr (free a (small a List.mem_cons_self)))
      rw [List.foldl_cons, same]
      exact ih fun d here => small d (List.mem_cons_of_mem a here)
  exact none _ fun d here => List.mem_range.mp here

/-- The dies have left reset and the enabled ports train (R398, R504). -/
structure Released (s r : State) : Prop where
  power : r.power = ({ s.power with released := true }).at 3
  trust : r.trust = { s.trust with rsaOk := true, slhOk := true }
  dies : ∀ d, d < 8 → getDie r d = { Die.rest with up := true }
  rest : r = { s with power := r.power, trust := r.trust, dies := r.dies, ports := r.ports }

theorem Released.phase {s r : State} (h : Released s r) : r.power.phase = 3 := by
  rw [h.power]
  rfl

theorem Released.getMemRegs {s r : State} (h : Released s r) (d : Nat) : getMemRegs r d = getMemRegs s d := by
  rw [h.rest]
  rfl

section
variable {s : State} (on : s.power.off = false) (phase : s.power.phase = 2)
include on phase

/-- The dies leave reset and the enabled ports train before the dies with full lists are fenced (R243, R398, R504). -/
theorem diesReleased_eq : ∃ r, Released s r ∧ exec (.diesReleased true true) s = .next (fenceFulls r) := by
  obtain ⟨ds, dies, each⟩ := setDies_form (List.range 8) { Die.rest with up := true }
    { s with trust := { s.trust with rsaOk := true, slhOk := true }, power := { s.power with released := true } }
  obtain ⟨ps, ports⟩ := trainPorts_form ((List.range 36).filter (fun p => bit (getPort { s with dies := ds } p).ctrl 0))
    { s with trust := { s.trust with rsaOk := true, slhOk := true }, power := { s.power with released := true }, dies := ds }
  refine ⟨{ s with trust := { s.trust with rsaOk := true, slhOk := true }, power := ({ s.power with released := true }).at 3, dies := ds, ports := ps },
    ⟨rfl, rfl, fun d small => (each d).trans (if_pos (List.mem_range.mpr small)), rfl⟩, ?_⟩
  show execDiesReleased true true s = _
  unfold execDiesReleased
  rw [if_neg (by simp [powered_of_on on, phase])]
  dsimp only
  rw [if_neg (by decide), dies]
  refine congrArg (fun x => Host.Outcome.next (fenceFulls (setPhase x 3))) ports |>.trans ?_
  rw [setPhase_form (by show s.power.phase ≠ 3; omega)]

theorem diesReleased_all (free : ∀ d, d < 8 → (getMemRegs s d).retired.length < 4096) :
    ∃ t, exec (.diesReleased true true) s = .next t ∧ t.power = ({ s.power with released := true }).at 3 ∧
      (∀ d, d < 8 → getDie t d = { Die.rest with up := true }) ∧
      t.trust = { s.trust with rsaOk := true, slhOk := true } ∧ t = { s with power := t.power, trust := t.trust, dies := t.dies, ports := t.ports } := by
  obtain ⟨r, released, next⟩ := diesReleased_eq on phase
  rw [fenceFulls_none fun d small => by rw [released.getMemRegs]; exact free d small] at next
  exact ⟨r, next, released.power, released.dies, released.trust, released.rest⟩

/-- A die whose list of retired granules is full stays fenced (R243). -/
theorem diesReleased_fences : ∃ t, exec (.diesReleased true true) s = .next t ∧ (t.power.phase = 3 ∨ t.power.phase = 0xF ∧ diesUp t = []) ∧
    ∀ d, d < 8 → 4096 ≤ (getMemRegs s d).retired.length → (getDie t d).fenced = true := by
  obtain ⟨r, released, next⟩ := diesReleased_eq on phase
  have base : Held r r 3 := Held.refl (.inl released.phase)
  obtain ⟨held, fenced⟩ := fenceFulls_held base
  exact ⟨_, next, held.phase, fun d small full => fenced d small (by rw [released.getMemRegs]; exact full)⟩

/-- A key that is not reconstructed stops start-up in IDENTITY_FAIL with the wharf die (R398). -/
theorem diesReleased_fails (a b : Bool) (bad : (a && b) = false) : exec (.diesReleased a b) s =
    .next { s with trust := { s.trust with rsaOk := a, slhOk := b }, power := { s.power.at 0xE with failDetail := if a then 1 else 0 } } := by
  show execDiesReleased a b s = _
  unfold execDiesReleased
  rw [if_neg (by simp [powered_of_on on, phase])]
  dsimp only
  rw [if_pos (by rw [bad]; rfl), bootFail_form (s := { s with trust := { s.trust with rsaOk := a, slhOk := b } }) _ (by show s.power.phase ≠ 0xE; omega)]

end

-- steps 5 to 8: stacks and units (R475, R504, R505) ------------------------------------------------------------------------

/-- Start-up goes on from what fences left while a die is up (R505). -/
def goOn (v : State) (pw : Power) (q : Nat) : State := if v.power.phase = 0xF then v else setPhase { v with power := pw } q

theorem goOn_phase {u v : State} {p : Nat} (h : Held u v p) (stop : p ≠ 0xF) (pw : Power) (q : Nat) :
    (goOn v pw q).power.phase = q ∨ (goOn v pw q).power.phase = 0xF ∧ diesUp (goOn v pw q) = [] := by
  unfold goOn
  split
  · next fatal =>
    rcases h.phase with at_ | none
    · exact absurd (at_.symm.trans fatal) stop
    · exact .inr none
  · exact .inl (setPhase_phase _ q)

theorem goOn_dies (v : State) (pw : Power) (q d : Nat) : getDie (goOn v pw q) d = getDie v d := by
  unfold goOn
  split
  · rfl
  · exact setPhase_dies _ q d

theorem goOn_form {v : State} {pw : Power} {q : Nat} (running : v.power.phase ≠ 0xF) (moves : pw.phase ≠ q) : goOn v pw q = { v with power := pw.at q } := by
  unfold goOn
  rw [if_neg running]
  exact setPhase_form moves

/-- The state in which the training of the stacks leaves the dies: each stack that fails takes its die (R475). -/
def stacksFailed (s : State) (l : List Nat) : State := l.foldl (fun s k => fenceDie s (k / 4) 2) s

theorem stacksFailed_held {s : State} {p : Nat} (at_ : s.power.phase = p) (l : List Nat) :
    Held s (stacksFailed s l) p ∧ ∀ k ∈ l, (getDie (stacksFailed s l) (k / 4)).fenced = true := by
  obtain ⟨held, fenced⟩ := fences_held (fun s k => fenceDie s (k / 4) 2) (fun k d => d = k / 4) p
    (fun _ _ k h => (fenceDie_held (k / 4) 2 h).1) (fun _ k _ h at_ => at_ ▸ (fenceDie_held (k / 4) 2 h).2) l (Held.refl (.inl at_))
  exact ⟨held, fun k here => fenced k (k / 4) here rfl⟩

/-- What a unit that fails its self-test takes: its die with a basin, else what its fence says (R475, R505). -/
def unitFailed (s : State) (u : HwUnit) : State := match u with | .basin i => fenceDie s (i / 4) 3 | u => fenceUnit s u 4

theorem unitFailed_held {s t : State} {p : Nat} (u : HwUnit) (h : Held s t p) : Held s (unitFailed t u) p := by
  unfold unitFailed
  split
  · next i => exact (fenceDie_held (i / 4) 3 h).1
  · exact fenceUnit_held u 4 h

theorem unitFailed_basin {t : State} {p : Nat} (k : Nat) (h : Held t t p) : (getDie (unitFailed t (.basin k)) (k / 4)).fenced = true :=
  (fenceDie_held (k / 4) 3 h).2

theorem unitsFailed_held {s : State} {p : Nat} (at_ : s.power.phase = p) (l : List HwUnit) :
    Held s (l.foldl unitFailed s) p ∧ ∀ k, .basin k ∈ l → (getDie (l.foldl unitFailed s) (k / 4)).fenced = true := by
  obtain ⟨held, fenced⟩ := fences_held unitFailed (fun u d => ∃ k, u = .basin k ∧ d = k / 4) p (fun _ _ u h => unitFailed_held u h)
    (fun t u d h basin => by
      obtain ⟨k, rfl, rfl⟩ := basin
      exact unitFailed_basin k h) l (Held.refl (.inl at_))
  exact ⟨held, fun k here => fenced (.basin k) (k / 4) here ⟨k, rfl, rfl⟩⟩

section
variable {s : State} (on : s.power.off = false)
include on

theorem hbmTrainingDone_eq (phase : s.power.phase = 3 ∨ s.power.phase = 4) (l : List Nat) : exec (.hbmTrainingDone l) s =
    .next (goOn (stacksFailed (setPhase s 4) l) { (stacksFailed (setPhase s 4) l).power with hbmDone := true } 5) := by
  show execHbmTrainingDone l s = _
  unfold execHbmTrainingDone
  rw [if_neg (by rcases phase with at3 | at4 <;> simp [powered_of_on on, *])]
  rfl

/-- A stack that fails takes its die, and start-up goes on while a die is left (R475, R504, R505). -/
theorem hbmTrainingDone_ends (phase : s.power.phase = 3 ∨ s.power.phase = 4) (l : List Nat) :
    ∃ t, exec (.hbmTrainingDone l) s = .next t ∧ (∀ k, k ∈ l → (getDie t (k / 4)).fenced = true) ∧
      (t.power.phase = 5 ∨ t.power.phase = 0xF ∧ diesUp t = []) ∧ (l = [] → t = { s with power := t.power } ∧ t.power.hbmDone = true) := by
  obtain ⟨held, fenced⟩ := stacksFailed_held (setPhase_phase s 4) l
  refine ⟨_, hbmTrainingDone_eq on phase l, fun k here => (goOn_dies _ _ 5 _).symm ▸ fenced k here, goOn_phase held (by decide) _ 5, ?_⟩
  rintro rfl
  have at4 : (setPhase s 4).power.phase = 4 := setPhase_phase s 4
  rw [show stacksFailed (setPhase s 4) [] = setPhase s 4 from rfl, goOn_form (by omega) (by show (setPhase s 4).power.phase ≠ 5; omega), setPhase_power s 4]
  exact ⟨rfl, rfl⟩

theorem selfTestDone_eq (phase : s.power.phase = 5) (l : List HwUnit) : exec (.selfTestDone l) s =
    .next (goOn (l.foldl unitFailed s) { (l.foldl unitFailed s).power with testDone := true } 6) := by
  show execSelfTestDone l s = _
  unfold execSelfTestDone
  rw [if_neg (by simp [powered_of_on on, phase])]
  rfl

/-- A unit that fails is fenced, a basin with its die, and start-up goes on while a die is left (R475, R504, R505). -/
theorem selfTestDone_ends (phase : s.power.phase = 5) (l : List HwUnit) :
    ∃ t, exec (.selfTestDone l) s = .next t ∧ (∀ k, .basin k ∈ l → (getDie t (k / 4)).fenced = true) ∧
      (t.power.phase = 6 ∨ t.power.phase = 0xF ∧ diesUp t = []) ∧ (l = [] → t = { s with power := ({ s.power with testDone := true }).at 6 }) := by
  obtain ⟨held, fenced⟩ := unitsFailed_held phase l
  refine ⟨_, selfTestDone_eq on phase l, fun k here => (goOn_dies _ _ 6 _).symm ▸ fenced k here, goOn_phase held (by decide) _ 6, ?_⟩
  rintro rfl
  exact goOn_form (v := s) (by omega) (by show s.power.phase ≠ 6; omega)

-- steps 9 to 11: zeros, Towpath and READY (R504, R505) ----------------------------------------------------------------------

theorem initialisationDone_eq (phase : s.power.phase = 6) : exec .initialisationDone s =
    .next (tryReady { s with mem := s.mem.filter (fun c => isHbm c.1), power := { s.power with initDone := true } }) := by
  show execInitialisationDone s = _
  unfold execInitialisationDone
  rw [if_neg (by simp [powered_of_on on, phase])]

/-- Towpath resolves with no port left in training. -/
theorem towpathResolved_eq (from3 : 3 ≤ s.power.phase) (to6 : s.power.phase ≤ 6) (none : ∀ p, (getPort s p).state ≠ 1) : exec .towpathResolved s =
    .next (tryReady { s with power := { s.power with towDone := true } }) := by
  have idle : (List.range 36).filter (fun p => (getPort s p).state == 1) = [] := List.filter_eq_nil_iff.mpr fun p _ => by simpa using none p
  show execTowpathResolved s = _
  unfold execTowpathResolved
  rw [if_neg (by simp [powered_of_on on]; omega), idle]
  rfl

end

/-- Settles O53. The rows of start-up in the order of its steps: each theorem above says how one of them goes on, stops or is held. -/
theorem startupRunsInItsOrder : Obligations.StartupRunsInItsOrder := by
  unfold Obligations.StartupRunsInItsOrder
  intro s on
  refine ⟨fun _ held => configVerified_held held, fun phase resetN enabled undriven => ?_,
    fun phase => ⟨imageVerified_accepts on phase, imageVerified_fails on phase⟩,
    fun phase => ⟨diesReleased_all on phase, diesReleased_fences on phase, diesReleased_fails on phase⟩, hbmTrainingDone_ends on, selfTestDone_ends on,
    ?_, fun from3 to6 none => ?_⟩
  · have free : AtStepOne s := ⟨on, phase, resetN, enabled, undriven⟩
    exact ⟨configVerified_accepts free, configVerified_firmware_fails free, configVerified_record_fails free⟩
  · rintro z rfl phase
    rw [initialisationDone_eq on phase]
    exact ⟨fun unresolved => congrArg Host.Outcome.next (tryReady_not (.inr (.inr unresolved))), fun resolved => ⟨_, rfl, tryReady_says phase rfl resolved⟩⟩
  · rw [towpathResolved_eq on from3 to6 none]
    exact ⟨fun early => congrArg Host.Outcome.next (tryReady_not (early.imp_right .inl)), fun phase zeros => ⟨_, rfl, tryReady_says phase zeros rfl⟩⟩

end Sys2Proof.Machine
end


section
/-! The front of the queue: a step runs it, and no command touches what waits behind it (R245, R275). -/

namespace Sys2Proof.Machine

/-- Settles O1: the queue of the state before the step has the command at its front and the rest behind it. -/
theorem stepRunsTheFrontCommand : Obligations.StepRunsTheFrontCommand := by
  unfold Obligations.StepRunsTheFrontCommand
  intro c rest s
  exact step_of_front (s := { s with pending := c :: rest }) rfl

/-- Settles O5, from what the dispatch keeps: the one lemma of each command says that it leaves the queue alone and gives handles out only. -/
theorem commandsLeaveTheQueue : Obligations.CommandsLeaveTheQueue := by
  unfold Obligations.CommandsLeaveTheQueue
  intro i s t run
  have kept : Keeps s t := exec_keeps i s (Keeps.refl s) t run
  exact ⟨kept.pending, kept.nextId⟩

end Sys2Proof.Machine
end

section
/-! The rows whose whole effect is the outputs that they write: each commits them (R238, R275, R283). -/

namespace Sys2Proof.Machine

/-- The row of a running command depends on what its operation computes for that command alone. -/
theorem runOp_congr {code cid : Nat} {compute compute' : State → Cmd → Out} {eff : State → Cmd → State} {s : State} {c : Cmd}
    (h : Runs s cid code c) (same : compute s c = compute' s c) : runOp code compute eff cid s = runOp code compute' eff cid s := by
  obtain ⟨found, -, -⟩ := h
  unfold runOp
  rw [found]
  dsimp only
  rw [same]

/-- Where a solve's run comes to its end, what it reads is clean, and its row is its operation's (R122, R241). -/
theorem runProblems_cleanly {code cid : Nat} {reads : State → Cmd → List (GAddr × Nat)} {run : State → Cmd → Out} {eff : State → Cmd → State}
    {s : State} {c : Cmd} {r : Stg} (h : Runs s cid code c) (done : cleanly reads run s c = .done r) :
    runProblems code reads run eff cid s = runOp code (cleanly reads run) eff cid s := by
  by_cases unclean : c.scratchUe = true ∨ (poisonAmong s c (reads s c)).isSome = true
  · have held : cleanly reads run s c = .hold c.aux := if_pos unclean
    cases held.symm.trans done
  · have clean : Clean s c (reads s c) := by simpa [Clean, not_or] using unclean
    rw [runProblems_clean h clean]
    exact runOp_congr h (if_neg unclean).symm

/-- An output row is its operation's run with no effect beside its writes; a solve's run first looks at what it reads. -/
theorem exec_outputRow {i : Instr} {cid code : Nat} {run : State → Cmd → Out} (row : outputRow i = some (cid, code, run))
    {s : State} {c : Cmd} {r : Stg} (h : Runs s cid code c) (done : run s c = .done r) : exec i s = runOp code run noEffect cid s := by
  unfold outputRow at row
  split at row
  all_goals cases row
  case h_32 | h_33 | h_34 => exact runProblems_cleanly h done
  all_goals rfl

/-- Settles O6: an output row is its operation's run with no effect of its own, and such a run commits what it staged. -/
theorem outputsArePublishedAtCommit : Obligations.OutputsArePublishedAtCommit := by
  unfold Obligations.OutputsArePublishedAtCommit
  intro i cid code run row s c r h done near
  rw [exec_outputRow row h.runs done]
  obtain ⟨t, next, recorded, beside, mem⟩ := runOp_commits_quietly (eff := noEffect) h done near rfl (fun _ b => b) fun u _ => Quiet.refl u
  exact ⟨t, next, recorded, beside, mem⟩

end Sys2Proof.Machine
end

section
/-! An LK_SIGNAL whose packet names its signal lock through the job's lock table, where the module traces lock operations into that table (R283, R284). -/

namespace Sys2Proof.Machine

/-- LK_SIGNAL of lock 5 by 10, which waits on lock 5 too and names it by entry 0 of the job's lock table as its signal lock. -/
def signalsItsWaitLock : Cmd :=
  { id := 1, origin := .ring 0, sess := 2, shapes := [], phase := .running, claimed := true, place := some ⟨0, 0, 0⟩, runs := 1,
    pkt := { opcode := 0x8010, job := 7, layer := 0, operator := 0, seq := 5, epoch := 1, waitLock := 5, waitThresh := 1, sigLock := 0x4000, sigInc := 1,
             slots := [5 + 10 * 2 ^ 32, 0, 0, 0, 0] }
    killed := false, stalled := false, stallFlag := false, waitFrom := none, waitWhy := 0, parked := false, lastEng := 0, busy := 0, started := 0,
    snapMem := [], snapHost := [], remote := [], asked := [], writes := [], acked := [], outs := [], ieee := 0, flags := 0, status := 0, detail := 0,
    commitAt := 0, debt := false, debtPrio := 0, aux := [], pins := [], reserved := [], flRead := none, flPush := none, signalled := false, noReply := false,
    probs := [], scratchUe := false, toSend := [], shard := none, fset := none, fall := false }

/-- Job 7 of session 2, whose lock table stands at 0x10000. -/
def jobOfTable : Job :=
  { id := 7, sess := 2, st := .running, epoch := 1, trapArmed := false, trapMade := false, residFp32 := false, fallback := false, verDrop := false,
    share := false, priority := 0, cap := 0, digestWin := 0, layers := 1, locks := 16, shapeTab := 0, lockTab := 0x10000, layerTab := 0, layerN := 0,
    memmap := [], memmapAt := 0, trapAddr := 0, peers := [], ringPrio := [], initList := [], clusters := 32, branches := [], memKey := 65543, trapSeq := 0 }

/-- The command runs with its claim on lock 5; entry 0 of the lock table names lock 5 of this module, and the trace of lock operations of die 0 goes to
a buffer that begins at the table (R438). -/
def traceOverTable : State :=
  { State.reset with
    power := { Power.rest with phase := 7 }
    mem := memWrite [] 0x10000 (leBytes 4 (5 * 2 ^ 16))
    cmds := [signalsItsWaitLock]
    locks := [(5, { Lock.rest with job := 7, count := 3, claimed := 1 })]
    jobs := [jobOfTable]
    cxl := { Cxl.rest with privBy := some 2 }
    traces := [(0, { Trace.rest with ctrl := 1, state := 1, base := 0x10000, size := 16, job := 7, kinds := 2 ^ 6 })] }

theorem traceOverTable_runs : RingRuns traceOverTable 1 0x801 signalsItsWaitLock := ⟨⟨rfl, rfl, rfl⟩, 0, rfl⟩

/-- The target is lock 5, a lock of the job, and the statement's count is 3 - 1 + 1 + 10. -/
theorem traceOverTable_expects : lkTarget signalsItsWaitLock = 5 ∧ lockHere traceOverTable signalsItsWaitLock 5 = some 5 ∧
    (getLock traceOverTable 5).job = signalsItsWaitLock.pkt.job ∧
    min (countAtCommit traceOverTable signalsItsWaitLock 5 + lkValue signalsItsWaitLock) satMax = 13 := by decide

set_option maxRecDepth 8000 in
/-- The count that the model comes to: 3 - 1 + (1 + 10) + 10. -/
theorem traceOverTable_counts : ∃ t, exec (.lkSignal 1) traceOverTable = .next t ∧ (getLock t 5).count = 23 := ⟨_, rfl, by decide⟩

/-- Refutes O29, by its clause of LK_SIGNAL for a target that the packet names itself (TARGET below 0x4000): lock 5 comes to 23 and not to 13. The signal lock is
named through the job's lock table; the commit step reads the table before the consumption and finds that both signals reach lock 5 together, so it
adds INC and VALUE; the operation's own effect reads it again after the consumption, whose trace record has overwritten it, and adds VALUE a second time. -/
theorem not_lockCommandsCount : ¬ Obligations.LockCommandsCount := by
  unfold Obligations.LockCommandsCount
  intro h
  obtain ⟨target, here, owner, expected⟩ := traceOverTable_expects
  obtain ⟨u, runs, count⟩ := traceOverTable_counts
  obtain ⟨t, -, next, -, -, -, -, counts⟩ := ((h _ 1 _ 5 target.symm).1 traceOverTable_runs).1 (fun p q far => by simp [signalTo] at far)
  obtain rfl : t = u := by simpa using next.symm.trans runs
  have said := counts (.inl (by decide)) 5 here
  rw [count, if_pos owner, expected] at said
  exact absurd said (by decide)

end Sys2Proof.Machine
end

section
/-! Locks granted and released: the locks of a range that a test selects take one value (R263). -/

namespace Sys2Proof.Machine

/-- A command whose own effect gives one value to the locks of its range that belong to jobs of a kind commits: those locks have the value, and no other
lock changes hands. -/
theorem runOp_commits_locks {code cid : Nat} {compute : State → Cmd → Out} {eff : State → Cmd → State} {s : State} {c : Cmd} {q : Nat → Prop} [DecidablePred q]
    {x : Lock} (h : RingRuns s cid code c) (done : compute s c = .done Stg.none)
    (acts : ∀ u, eff u (atCommit s (withRun c Stg.none)) = (grantRange c).foldl (fun w l => if q (getLock w l).job then setLock w l x else w) u) :
    ∃ t, runOp code compute eff cid s = .next t ∧ Recorded s cid c Stg.none t ∧ Beside s t ∧
      ∀ l, (l ∈ grantRange c ∧ q (getLock s l).job → (getLock t l).job = x.job ∧ (getLock t l).count = x.count ∧ (getLock t l).setPending = x.setPending) ∧
        (¬ (l ∈ grantRange c ∧ q (getLock s l).job) → (getLock t l).job = (getLock s l).job) := by
  obtain ⟨u, t, next, beside, -, -, -, ⟨before, after⟩, commits⟩ := effect_row_all (eff := eff) h done near_none
  rw [acts] at after commits
  obtain ⟨kept, recorded⟩ := commits s (fun _ here => here) (findCmd_mem h.runs.1).2
    (Beside.foldl _ beside fun w l b => Beside.ite (setLock_beside _ _ _ b) b)
  refine ⟨t, next, recorded, kept, fun l => ?_⟩
  obtain ⟨-, ⟨-, owner, -⟩, -⟩ := before l
  obtain ⟨count, job, setPending, -⟩ := after l
  have set : getLock ((grantRange c).foldl (fun w l => if q (getLock w l).job then setLock w l x else w) u) l =
      if l ∈ grantRange c ∧ q (getLock s l).job then x else getLock u l := by
    simpa [owner] using locks_foldl (fun j => decide (q j)) x (fun w l => if q (getLock w l).job then setLock w l x else w) (fun w l => by simp) (grantRange c) u l
  rw [set] at count job setPending
  by_cases taken : l ∈ grantRange c ∧ q (getLock s l).job
  · rw [if_pos taken] at count job setPending
    exact ⟨fun _ => ⟨job, count, setPending⟩, fun no => absurd taken no⟩
  · rw [if_neg taken, owner] at job
    exact ⟨fun yes => absurd yes taken, fun _ => job⟩

section
variable {s : State} {cid : Nat} {c : Cmd}

theorem lockGrant_denied (denied : grantDenied s c = true) (h : RingRuns s cid 0xF06 c) : ∃ t, execLockGrant cid s = .next t ∧ Ended s t c stDenied 0 :=
  runOp_stop h.runs (if_pos denied)

theorem lockRelease_denied (denied : grantDenied s c = true) (h : RingRuns s cid 0xF07 c) : ∃ t, execLockRelease cid s = .next t ∧ Ended s t c stDenied 0 :=
  runOp_stop h.runs (if_pos denied)

/-- What a LOCK_RELEASE that is not denied comes to: a lock with a waiter or a claim stops it (R263). -/
theorem ungrantRun_of_allowed (allowed : grantDenied s c = false) : ungrantRun s c =
    if ∀ l ∈ grantRange c, (getLock s l).queue = [] ∧ (getLock s l).claimed = 0 then .done Stg.none else .stop stBad (badAt 24 0) [] := by
  unfold ungrantRun
  rw [if_neg (by simp [allowed])]
  by_cases free : ∀ l ∈ grantRange c, (getLock s l).queue = [] ∧ (getLock s l).claimed = 0
  · rw [if_pos free, if_neg (by simpa [List.any_eq_true] using free)]
  · rw [if_neg free, if_pos (by simpa [List.any_eq_true, ← or_iff_not_imp_left, imp_iff_not_or] using free)]

theorem lockRelease_inUse (allowed : grantDenied s c = false) (h : RingRuns s cid 0xF07 c)
    (used : ¬ ∀ l ∈ grantRange c, (getLock s l).queue = [] ∧ (getLock s l).claimed = 0) :
    ∃ t, execLockRelease cid s = .next t ∧ Ended s t c stBad (badAt 24 0) :=
  runOp_stop h.runs ((ungrantRun_of_allowed allowed).trans (if_neg used))

theorem lockGrant_commits (allowed : grantDenied s c = false) (h : RingRuns s cid 0xF06 c) :
    ∃ t, execLockGrant cid s = .next t ∧ Recorded s cid c Stg.none t ∧ Beside s t ∧
      ∀ l, (l ∈ grantRange c ∧ (getLock s l).job = 0xFFFF → (getLock t l).job = grantJob c ∧ (getLock t l).count = 0 ∧ (getLock t l).setPending = false) ∧
        (¬ (l ∈ grantRange c ∧ (getLock s l).job = 0xFFFF) → (getLock t l).job = (getLock s l).job) := by
  have run : grantRun s c = .done Stg.none := if_neg (by simp [allowed])
  exact runOp_commits_locks (q := fun j => j = 0xFFFF) (x := { Lock.rest with job := grantJob c }) h run fun u => rfl

theorem lockRelease_commits (allowed : grantDenied s c = false) (h : RingRuns s cid 0xF07 c)
    (free : ∀ l ∈ grantRange c, (getLock s l).queue = [] ∧ (getLock s l).claimed = 0) :
    ∃ t, execLockRelease cid s = .next t ∧ Recorded s cid c Stg.none t ∧ Beside s t ∧
      ∀ l, (l ∈ grantRange c ∧ (getLock s l).job = grantJob c → (getLock t l).job = 0xFFFF ∧ (getLock t l).count = 0 ∧ (getLock t l).setPending = false) ∧
        (¬ (l ∈ grantRange c ∧ (getLock s l).job = grantJob c) → (getLock t l).job = (getLock s l).job) := by
  have run : ungrantRun s c = .done Stg.none := (ungrantRun_of_allowed allowed).trans (if_pos free)
  exact runOp_commits_locks (q := fun j => j = grantJob c) (x := Lock.rest) h run fun u => rfl

end

end Sys2Proof.Machine
end

section
/-! Loans granted and returned (R203, R204, R264, R417). -/

namespace Sys2Proof.Machine

section
variable {s : State} {cid : Nat} {c : Cmd}

/-- What a LOAN_GRANT is refused for (R204, R264, R417): the secret of the job, a loan in force in its range, or the want of a number. -/
theorem loanGrantRun_refused (no : hasLink s c.sess (loanJob c) = false ∨
    loanCuts s (localise s (descAddr (c.pkt.slot 0))).off (loanSize c.pkt) = true ∨ freeLoan s = none) : loanGrantRun s c = .stop stDenied 0 [] := by
  unfold loanGrantRun
  split
  · rfl
  · next clear =>
    obtain ⟨link, uncut⟩ : hasLink s c.sess (loanJob c) = true ∧ loanCuts s (localise s (descAddr (c.pkt.slot 0))).off (loanSize c.pkt) = false := by
      simpa using clear
    have full : freeLoan s = none := (no.resolve_left (by simp [link])).resolve_left (by simp [uncut])
    rw [full]

theorem loanGrantRun_granted (link : hasLink s c.sess (loanJob c) = true)
    (uncut : loanCuts s (localise s (descAddr (c.pkt.slot 0))).off (loanSize c.pkt) = false) {n : Nat} (free : freeLoan s = some n) :
    loanGrantRun s c = .done { Stg.none with detail := n } := by
  unfold loanGrantRun
  rw [if_neg (by simp [link, uncut]), free]

theorem freeLoan_free {n : Nat} (free : freeLoan s = some n) : tfind s.loans n = none := by
  simpa using List.find?_some free

theorem loanGrant_denied (h : RingRuns s cid 0xF08 c) (no : hasLink s c.sess (loanJob c) = false ∨
    loanCuts s (localise s (descAddr (c.pkt.slot 0))).off (loanSize c.pkt) = true ∨ freeLoan s = none) :
    ∃ t, execLoanGrant cid s = .next t ∧ Ended s t c stDenied 0 :=
  runOp_stop h.runs (loanGrantRun_refused no)

/-- The loan that a LOAN_GRANT puts in force (R204, R264): its bitmap and its key are those of the state in which it is granted. -/
def loanOf (u : State) (c : Cmd) : Loan :=
  { base := (localise u (descAddr (c.pkt.slot 0))).off, size := loanSize c.pkt, peer := loanPeer c, job := loanJob c,
    readers := if c.pkt.slot 2 = 0 then [] else bitmapPeers (rdStruct (asRead u c) c (descAddr (c.pkt.slot 2)) 512),
    sess := c.sess, memKey := jobKey u c.sess (loanJob c), ending := false }

theorem loanGrant_commits (h : RingRuns s cid 0xF08 c) (link : hasLink s c.sess (loanJob c) = true)
    (uncut : loanCuts s (localise s (descAddr (c.pkt.slot 0))).off (loanSize c.pkt) = false) {n : Nat} (free : freeLoan s = some n) :
    ∃ t l, execLoanGrant cid s = .next t ∧ Recorded s cid c { Stg.none with detail := n } t ∧ Beside { s with loans := tput s.loans n l } t ∧
      tfind s.loans n = none ∧ l.base = (localise s (descAddr (c.pkt.slot 0))).off ∧ l.size = loanSize c.pkt ∧ l.peer = loanPeer c ∧ l.job = loanJob c ∧
      l.sess = c.sess ∧ l.ending = false ∧ (c.pkt.slot 2 = 0 → l.readers = []) := by
  obtain ⟨u, t, next, beside, -, -, commits⟩ := effect_row_kept (eff := fun u x => { u with loans := tput u.loans x.detail (loanOf u x) })
    h (loanGrantRun_granted link uncut free) ⟨rfl, rfl, near_none.near⟩
  obtain ⟨l, loan⟩ : ∃ l, l = loanOf u (atCommit s (withRun c { Stg.none with detail := n })) := ⟨_, rfl⟩
  have granted : Beside { s with loans := tput s.loans n l } { u with loans := tput u.loans n l } := by
    rw [beside.loans]
    exact beside.loans_set _
  obtain ⟨kept, recorded⟩ := commits { s with loans := tput s.loans n l } rfl (loan ▸ granted)
  subst loan
  exact ⟨t, _, next, recorded, kept, freeLoan_free free, congrArg GAddr.off (localise_of beside _), rfl, rfl, rfl, rfl, rfl, fun none => if_pos none⟩

/-- What a LOAN_RETURN of the session's own loan comes to: it waits while a staged write lies in the range (R264). -/
theorem loanReturnRun_of_own {l : Loan} (found : tfind s.loans (c.pkt.slot 0 % 256) = some l) (own : l.sess = c.sess) :
    loanReturnRun s c = if loanStaged s l = true then .hold c.aux else .done Stg.none := by
  unfold loanReturnRun
  rw [found]
  exact if_neg (not_not.mpr own)

theorem loanReturn_commits (h : RingRuns s cid 0xF09 c) {l : Loan} (found : tfind s.loans (c.pkt.slot 0 % 256) = some l) (own : l.sess = c.sess)
    (clear : loanStaged s l = false) :
    ∃ t, execLoanReturn cid s = .next t ∧ Recorded s cid c Stg.none t ∧ Beside { s with loans := tdel s.loans (c.pkt.slot 0 % 256) } t := by
  have run : loanReturnRun s c = .done Stg.none := (loanReturnRun_of_own found own).trans (if_neg (by simp [clear]))
  refine runOp_commits_effect h run near_none rfl fun u b => ?_
  rw [b.loans]
  exact b.loans_set _

theorem loanReturn_waits (h : RingRuns s cid 0xF09 c) {l : Loan} (found : tfind s.loans (c.pkt.slot 0 % 256) = some l) (own : l.sess = c.sess)
    (staged : loanStaged s l = true) : ∃ t, execLoanReturn cid s = .next t ∧ StillRuns s t cid c :=
  hold_row h ((loanReturnRun_of_own found own).trans (if_pos staged))

end

end Sys2Proof.Machine
end

section
/-! Host buffers registered and unregistered (R267, R390, R391). -/

namespace Sys2Proof.Machine

section
variable {s : State} {cid : Nat} {c : Cmd}

theorem hostbufReg_commits (h : RingRuns s cid 0xF0A c)
    (ok : bufFault s c.sess (descAddr (c.pkt.slot 0)).off (fld (c.pkt.slot 1) 0 32) (bit (c.pkt.slot 1) 32) = none) :
    ∃ t, execHostbufReg cid s = .next t ∧ Recorded s cid c Stg.none t ∧
      Beside { s with bufs := s.bufs ++ [⟨c.sess, (descAddr (c.pkt.slot 0)).off, fld (c.pkt.slot 1) 0 32, bit (c.pkt.slot 1) 32, c.pkt.job, ctxOf c, none⟩] } t := by
  have run : hostbufRegRun s c = .done Stg.none := by
    unfold hostbufRegRun
    rw [ok]
  refine runOp_commits_effect h run near_none rfl fun u b => ?_
  rw [b.bufs]
  exact b.bufs_set _

theorem hostbufReg_refused (h : RingRuns s cid 0xF0A c) {st : Nat}
    (no : bufFault s c.sess (descAddr (c.pkt.slot 0)).off (fld (c.pkt.slot 1) 0 32) (bit (c.pkt.slot 1) 32) = some st) :
    ∃ t, execHostbufReg cid s = .next t ∧ Ended s t c st (if st = stBad then badAt 24 0 else 0) := by
  refine runOp_stop h.runs ?_
  unfold hostbufRegRun
  rw [no]

end

/-- What the faults of rings leave (R265, R267, R269): every command, which may no longer reply; every job, session and loan, and the configuration; and of the host
buffers all but those that rings registered for themselves. -/
structure RingsFaulted (s t : State) : Prop where
  selves : t.cmds.map Cmd.self = s.cmds.map Cmd.self
  fewer : ∀ b ∈ t.bufs, b ∈ s.bufs
  others : ∀ b ∈ s.bufs, b.forRing = none → b ∈ t.bufs
  jobs : t.jobs = s.jobs
  sessions : t.sessions = s.sessions
  loans : t.loans = s.loans
  cfg : t.cfg = s.cfg

theorem RingsFaulted.refl (s : State) : RingsFaulted s s := ⟨rfl, fun _ h => h, fun _ h _ => h, rfl, rfl, rfl, rfl⟩

theorem RingsFaulted.trans {a b c : State} (h : RingsFaulted a b) (g : RingsFaulted b c) : RingsFaulted a c :=
  ⟨g.selves.trans h.selves, fun x hx => h.fewer x (g.fewer x hx), fun x hx none => g.others x (h.others x hx none) none,
    g.jobs.trans h.jobs, g.sessions.trans h.sessions, g.loans.trans h.loans, g.cfg.trans h.cfg⟩

theorem RingsFaulted.ite {s a b : State} {p : Prop} [Decidable p] (ha : RingsFaulted s a) (hb : RingsFaulted s b) : RingsFaulted s (if p then a else b) := by
  split
  · exact ha
  · exact hb

theorem RingsFaulted.foldl {α : Type} {s x : State} {g : State → α → State} (l : List α) (h : RingsFaulted s x)
    (hg : ∀ t a, RingsFaulted s t → RingsFaulted s (g t a)) : RingsFaulted s (l.foldl g x) := by
  induction l generalizing x with
  | nil => exact h
  | cons a l ih => exact ih (hg x a h)

theorem Told.ringsFaulted {s t : State} (h : Told s t) : RingsFaulted s t :=
  ⟨by rw [h.cmds], fun _ hx => h.bufs ▸ hx, fun _ hx _ => h.bufs.symm ▸ hx, h.jobs, h.sessions, h.loans, h.cfg⟩

theorem dropRingBufs_faulted (s : State) (r : Nat) (x : Ring) : RingsFaulted s (dropRingBufs (setRing s r x) r) :=
  ⟨rfl, fun _ hb => (List.mem_filter.mp hb).1, fun b hb none => List.mem_filter.mpr ⟨hb, by rw [none]⟩, rfl, rfl, rfl, rfl⟩

/-- Commands of a ring whose replies are dropped are what they were (R269). -/
theorem noReply_selves (l : List Cmd) (r : Nat) : (l.map (fun c => if c.origin = .ring r then { c with noReply := true } else c)).map Cmd.self = l.map Cmd.self := by
  rw [List.map_map]
  refine List.map_congr_left fun c _ => ?_
  show Cmd.self (if _ then _ else _) = _
  split <;> rfl

theorem ringFault_faulted (s : State) (r k : Nat) : RingsFaulted s (ringFault s r k) := by
  unfold ringFault
  extract_lets x disabled dropped fired silent
  have fire : RingsFaulted dropped fired := (Told.ite (Told.refl _) (fire_told _ _ _ (Told.refl _))).ringsFaulted
  have silence : RingsFaulted fired silent := by
    unfold silent
    split
    · exact { RingsFaulted.refl fired with selves := noReply_selves _ r }
    · exact RingsFaulted.refl fired
  have raised := (raiseFor_told silent 0xF 0x1B false (if x.bind < 64 then some x.bind else none) 0xFFFF 0xFFFF 0 (r + (setBit x.fault k true) * 256) 0 0
    (Told.refl _)).ringsFaulted
  exact (((dropRingBufs_faulted s r _).trans fire).trans silence).trans raised

/-- Buffers that are released are gone, and the rings that they served have faulted (R267, R391). -/
theorem releaseBufs_faulted (s : State) (p : HostBuf → Bool) : RingsFaulted { s with bufs := s.bufs.filter (fun b => !(p b)) } (releaseBufs s p) := by
  unfold releaseBufs
  exact RingsFaulted.foldl _ (RingsFaulted.refl _) fun v r h => RingsFaulted.ite (h.trans (ringFault_faulted v r 0)) h

/-- A state whose commands are those of another beside `s` differs from itself with the commands of `s` in what becomes of them alone. -/
theorem beside_of_selves {s u v : State} (h : Beside s u) (selves : v.cmds.map Cmd.self = u.cmds.map Cmd.self) : Beside { v with cmds := s.cmds } v := by
  have ids : v.cmds.map Cmd.id = u.cmds.map Cmd.id := by
    simpa [Cmd.self, Function.comp_def] using congrArg (List.map Prod.fst) selves
  refine { Beside.refl v with ids := ids.trans h.ids, same := fun x hx => ?_ }
  obtain ⟨y, hy, is⟩ := List.mem_map.mp (selves ▸ List.mem_map_of_mem hx : x.self ∈ u.cmds.map Cmd.self)
  exact is ▸ h.same y hy

/-- What a HOSTBUF_UNREG comes to, and its own effect (R391). -/
def hostbufUnregRun (s : State) (c : Cmd) : Out :=
  match unregBuf s c with
  | some b => if bufInUse s c b then .hold c.aux else .done Stg.none
  | none => .done Stg.none

def hostbufUnregEff (s : State) (c : Cmd) : State :=
  match unregBuf s c with
  | some b => releaseBufs s (fun x => decide (x = b))
  | none => s

theorem execHostbufUnreg_eq (cid : Nat) (s : State) : execHostbufUnreg cid s = runOp 0xF0B hostbufUnregRun hostbufUnregEff cid s := rfl

/-- What it comes to for a buffer that it names: it waits while the buffer is in use (R391). -/
theorem hostbufUnregRun_of_named {s : State} {c : Cmd} {b : HostBuf} (named : unregBuf s c = some b) :
    hostbufUnregRun s c = if bufInUse s c b = true then .hold c.aux else .done Stg.none := by
  unfold hostbufUnregRun
  rw [named]

theorem hostbufUnregEff_of_named {s : State} {c : Cmd} {b : HostBuf} (named : unregBuf s c = some b) :
    hostbufUnregEff s c = releaseBufs s (fun x => decide (x = b)) := by
  unfold hostbufUnregEff
  rw [named]

section
variable {s : State} {cid : Nat} {c : Cmd} {b : HostBuf}

theorem unregBuf_of {u : State} (h : Beside s u) (x : Cmd) : unregBuf u x = unregBuf s x := by
  unfold unregBuf
  rw [h.bufs]

theorem hostbufUnreg_waits (h : RingRuns s cid 0xF0B c) (found : unregBuf s c = some b) (used : bufInUse s c b = true) :
    ∃ t, execHostbufUnreg cid s = .next t ∧ StillRuns s t cid c :=
  hold_row (compute := hostbufUnregRun) h ((hostbufUnregRun_of_named found).trans (if_pos used))

/-- HOSTBUF_UNREG ends the buffer, and with it what rings that it served had registered (R265, R391). -/
theorem hostbufUnreg_commits (h : RingRuns s cid 0xF0B c) (found : unregBuf s c = some b) (free : bufInUse s c b = false) :
    ∃ t, execHostbufUnreg cid s = .next t ∧ Recorded s cid c Stg.none t ∧ b ∉ t.bufs ∧
      (∀ x ∈ s.bufs, x ≠ b → x.forRing = none → x ∈ t.bufs) ∧ t.jobs = s.jobs ∧ t.sessions = s.sessions ∧ t.loans = s.loans ∧ t.cfg = s.cfg := by
  have run : hostbufUnregRun s c = .done Stg.none := (hostbufUnregRun_of_named found).trans (if_neg (by simp [free]))
  obtain ⟨u, t, next, beside, -, -, -, commits⟩ := effect_row (eff := hostbufUnregEff) h run near_none
  have acts : hostbufUnregEff u (atCommit s (withRun c Stg.none)) = releaseBufs u (fun x => decide (x = b)) :=
    hostbufUnregEff_of_named ((unregBuf_of beside c).trans found)
  rw [acts] at commits
  have faulted := releaseBufs_faulted u (fun x => decide (x = b))
  generalize releaseBufs u (fun x => decide (x = b)) = v at commits faulted
  obtain ⟨selves, fewer, others, jobs, sessions, loans, cfg⟩ := faulted
  obtain ⟨kept, recorded⟩ := commits { v with cmds := s.cmds } (fun _ here => here) (findCmd_mem h.runs.1).2 (beside_of_selves beside selves)
  have bufs : t.bufs = v.bufs := kept.bufs
  refine ⟨t, next, recorded, fun left => ?_, fun x here ne own => ?_, kept.jobs.trans (jobs.trans beside.jobs),
    kept.sessions.trans (sessions.trans beside.sessions), kept.loans.trans (loans.trans beside.loans), kept.cfg.trans (cfg.trans beside.cfg)⟩
  · have still := (List.mem_filter.mp (fewer b (bufs ▸ left))).2
    simp at still
  · rw [bufs]
    exact others x (List.mem_filter.mpr ⟨beside.bufs.symm ▸ here, by simp [ne]⟩) own

end

end Sys2Proof.Machine
end

section
/-! Locks, loans and host buffers are granted and given back (R263, R264, R390, R391). -/

namespace Sys2Proof.Machine

/-- Settles O31, row by row: what a row refuses its run stops, what it grants its commit leaves with the row's own effect, and a return waits while what
it returns is in use. -/
theorem locksLoansAndBuffersAreGranted : Obligations.LocksLoansAndBuffersAreGranted := by
  unfold Obligations.LocksLoansAndBuffersAreGranted
  intro s cid c
  exact ⟨fun denied => ⟨lockGrant_denied denied, lockRelease_denied denied⟩, lockRelease_inUse,
    fun allowed => ⟨lockGrant_commits allowed, lockRelease_commits allowed⟩,
    fun h link uncut n free => loanGrant_commits h link uncut free, loanGrant_denied,
    fun h l found own => ⟨loanReturn_commits h found own, loanReturn_waits h found own⟩,
    hostbufReg_commits, fun h st no => hostbufReg_refused h no,
    fun h b found => ⟨hostbufUnreg_waits h found, hostbufUnreg_commits h found⟩⟩

end Sys2Proof.Machine
end

section
/-! Where there is no residency object, the commit of a command leaves the memory error registers as they are: nothing is written back (R219, R222, R241). -/

namespace Sys2Proof.Machine

/-- There is no residency object, and the memory error registers are as they were. -/
structure RegsStand (s t : State) : Prop where
  objs : t.objs = []
  regs : t.memRegs = s.memRegs

theorem RegsStand.refl {s : State} (bare : s.objs = []) : RegsStand s s := ⟨bare, rfl⟩

theorem RegsStand.next {s x t : State} (h : RegsStand s x) (objs : SameObjs x t) (regs : t.memRegs = x.memRegs) : RegsStand s t :=
  ⟨objs.objs.trans h.objs, regs.trans h.regs⟩

theorem RegsStand.ite {s a b : State} {p : Prop} [Decidable p] (ha : RegsStand s a) (hb : RegsStand s b) : RegsStand s (if p then a else b) := by
  split
  · exact ha
  · exact hb

theorem RegsStand.foldl {α : Type} {s x : State} {g : State → α → State} (l : List α) (h : RegsStand s x)
    (hg : ∀ t a, RegsStand s t → RegsStand s (g t a)) : RegsStand s (l.foldl g x) := by
  induction l generalizing x with
  | nil => exact h
  | cons a l ih => exact ih (hg x a h)

section
variable {s x : State} (h : RegsStand s x)
include h

theorem RegsStand.findObj (d : Nat) : findObj x d = none := by
  unfold Machine.findObj
  rw [h.objs]
  rfl

theorem RegsStand.unpinUse (d t : Nat) : RegsStand s (unpinUse x d t) := by
  unfold Machine.unpinUse
  rw [h.findObj]
  exact h

theorem RegsStand.endHold (y : Nat × Nat) : RegsStand s (endHold x y) := by
  unfold Machine.endHold
  split
  · exact h
  · exact h.unpinUse _ _

theorem RegsStand.consume (c : Cmd) : RegsStand s (consume x c) := by
  unfold Machine.consume
  extract_lets l t k r set counted traced
  have told : RegsStand s traced := h.next
    (traceRec_sameObjs _ _ _ (count_sameObjs _ _ _ _ _ _ (setLock_sameObjs _ _ _ (SameObjs.refl x)))) (by simp [traced, counted, set])
  exact RegsStand.foldl _ told fun u y g => g.endHold y

theorem RegsStand.moduleWrite (sess job : Nat) (g : GAddr) (bs : List Byte) : RegsStand s (moduleWrite x sess job g bs) := by
  have home : objAt x (localise x g) bs.length = none := by
    unfold objAt
    rw [h.objs]
    rfl
  refine ⟨?_, (moduleWrite_memRegs ..).trans h.regs⟩
  unfold Machine.moduleWrite
  dsimp only
  rw [home]
  dsimp only
  split_ifs <;> exact h.objs

theorem RegsStand.ringEntry (sess job ringAt entries : Nat) (bs : List Byte) : RegsStand s (ringEntry x sess job ringAt entries bs) := by
  unfold Machine.ringEntry
  exact RegsStand.ite (h.moduleWrite ..) ((h.moduleWrite ..).moduleWrite ..)

theorem RegsStand.writeEntries (c : Cmd) : RegsStand s (writeEntries x c) := by
  unfold Machine.writeEntries
  refine RegsStand.foldl _ ?_ fun u w g => RegsStand.foldl _ g fun v o k => RegsStand.ite (k.ringEntry ..) k
  split
  · exact RegsStand.ite (RegsStand.foldl _ h fun u o g => RegsStand.ite g (g.ringEntry ..)) h
  · exact h

theorem RegsStand.commitRow (c : Cmd) : RegsStand s (commitRow x c) := by
  unfold Machine.commitRow commitWith
  extract_lets same both c1 s1 key d loc s2 s3 s4 s5 s6 s7 s8 s9 s10 s11 s12 s13 lenders s14 c2
  have k2 : RegsStand s s2 := by
    have k1 : RegsStand s (publishWrites s1 key loc) := h.next (publishWrites_sameObjs _ _ _ (putCmd_sameObjs _ _ (SameObjs.refl x))) (by simp [s1])
    show RegsStand s (markDirty _ loc)
    rw [markDirty_bare _ k1.objs]
    exact k1
  have k3 : RegsStand s s3 := k2.next (poundPublish_sameObjs _ _ _ (SameObjs.refl s2)) (poundPublish_memRegs ..)
  have k4 : RegsStand s s4 := RegsStand.ite k3 (k3.consume c1)
  have k5 : RegsStand s s5 := optSignal (P := RegsStand s)
    (fun _ _ _ _ _ => k4.next (signalLock_sameObjs _ _ _ _ _ _ (SameObjs.refl s4)) (signalLock_memRegs ..)) k4 same _ _ _ _
  have k8 : RegsStand s s8 := RegsStand.foldl _ (k5.writeEntries c1) fun u p g => g.unpinUse p.1 p.2
  have k9 : RegsStand s s9 := RegsStand.ite k8 (k8.next (reclaim_sameObjs _ _ (SameObjs.refl s8)) (reclaim_memRegs ..))
  have k11 : RegsStand s s11 := k9.next
    (drift_sameObjs _ _ (countWork_sameObjs _ _ (jobCount_sameObjs _ _ _ _ _ _ (traceRec_sameObjs _ _ _ (SameObjs.refl s9))))) (by simp [s11, s10])
  have k12 : RegsStand s s12 := by
    unfold s12
    split
    · exact RegsStand.ite (k11.next (count_sameObjs _ _ _ _ _ _ (SameObjs.refl s11)) (count_memRegs ..)) k11
    · exact k11
  have k14 : RegsStand s s14 := RegsStand.foldl _ (k12.next (engineDone_sameObjs _ _ (SameObjs.refl s12)) (engineDone_memRegs ..)) fun u p g =>
    g.next (sendCmd_sameObjs _ _ _ _ _ _ _ (SameObjs.refl u)) (sendCmd_memRegs ..)
  split
  · exact k14.next (putCmd_sameObjs _ _ (SameObjs.refl s14)) (putCmd_memRegs ..)
  · exact k14.next (dropCmd_sameObjs _ _ (publishWrites_sameObjs _ _ _ (SameObjs.refl s14))) (by simp)

end

end Sys2Proof.Machine
end

section
/-! DIE_FENCE: refused, at once, or with DRAIN when the die is idle; and its commit (R289, R478). -/

namespace Sys2Proof.Machine

section
variable {s : State} {cid : Nat} {c : Cmd}

/-- The commit of a ring's service command leaves its record. -/
theorem commitRow_records (found : findCmd s cid = some c) {k : Nat} (ring : c.origin = .ring k) :
    ∃ z, findCmd (commitRow s c) cid = some z ∧ z.phase = .committed := by
  obtain ⟨idEq, listed⟩ := findCmd_mem found
  have self : c.self ∈ s.cmds.map Cmd.self := find_map_self found
  obtain ⟨u, v, bu, bv, -, -, -, -, -, row⟩ := commitWith_all noEffect s s { c with phase := .staged } (Beside.refl s) self
  rw [recorded_ring s v { c with phase := .staged } k ring] at row
  have record := findCmd_putCmd v (recordOf s { c with phase := .staged }) (by
    rw [(bu.trans bv).ids]
    exact idEq ▸ listed)
  refine ⟨recordOf s { c with phase := .staged }, ?_, rfl⟩
  rw [← idEq]
  unfold commitRow
  rw [row]
  exact record

/-- What DIE_FENCE leaves once its die is fenced: it waits while the die publishes, else it commits; the fence may have ended it (R289, R477). -/
def afterFence (s : State) (cid d : Nat) : State :=
  match findCmd s cid with
  | some x => if publishing s d then putCmd s { x with aux := [1] } else commitRow s x
  | none => s

/-- A running DIE_FENCE is past the guards of its row. -/
theorem dieFence_of_runs (h : Runs s cid 0xF14 c) : exec (.dieFence cid) s = .next (
    if (getDie s (fenceTarget c)).fenced = true ∧ c.aux = [1] then (if publishing s (fenceTarget c) = true then s else commitRow s c)
    else if fenceRefused s (fenceTarget c) = true then endCmd s c stBad (badAt 24 0)
    else if bit (c.pkt.slot 0) 8 = true ∧ dieBusy s (fenceTarget c) = true then
      putCmd (setDie s (fenceTarget c) { getDie s (fenceTarget c) with draining := some cid }) { c with aux := [1] }
    else afterFence (fenceDie s (fenceTarget c) 1) cid (fenceTarget c)) := by
  obtain ⟨found, running, op⟩ := h
  show execDieFence cid s = _
  unfold execDieFence
  rw [found]
  dsimp only
  rw [if_neg (by simp [running, op])]
  simp only [beq_iff_eq]
  rfl

theorem dieFence_refused (h : Runs s cid 0xF14 c) (refused : fenceRefused s (fenceTarget c) = true)
    (new : ¬ ((getDie s (fenceTarget c)).fenced = true ∧ c.aux = [1])) : ∃ t, exec (.dieFence cid) s = .next t ∧ Ended s t c stBad (badAt 24 0) := by
  rw [dieFence_of_runs h, if_neg new, if_pos refused]
  exact ⟨_, rfl, endCmd_ended s c _ _⟩

section
variable (h : Runs s cid 0xF14 c) (fenced : (getDie s (fenceTarget c)).fenced = true) (waits : c.aux = [1])
include h fenced waits

theorem dieFence_waits (publishes : publishing s (fenceTarget c) = true) : exec (.dieFence cid) s = .next s := by
  rw [dieFence_of_runs h, if_pos ⟨fenced, waits⟩, if_pos publishes]

theorem dieFence_commits (idle : publishing s (fenceTarget c) = false) {k : Nat} (ring : c.origin = .ring k) :
    ∃ t z, exec (.dieFence cid) s = .next t ∧ Contained s t ∧ findCmd t cid = some z ∧ z.phase = .committed := by
  rw [dieFence_of_runs h, if_pos ⟨fenced, waits⟩, if_neg (by simp [idle])]
  obtain ⟨z, record, phase⟩ := commitRow_records h.1 ring
  exact ⟨_, z, rfl, commitRow_contained' s c, record, phase⟩

end

theorem unfenced_of_allowed {d : Nat} (allowed : fenceRefused s d = false) : (getDie s d).fenced = false :=
  (Bool.or_eq_false_iff.mp allowed).1

theorem afterFence_contained (s : State) (cid d : Nat) : Contained s (afterFence s cid d) := by
  unfold afterFence
  split
  · exact Contained.ite (putCmd_contained _ _ (Contained.refl s)) (commitRow_contained' s _)
  · exact Contained.refl s

section
variable (h : Runs s cid 0xF14 c) (allowed : fenceRefused s (fenceTarget c) = false)
include h allowed

theorem dieFence_fences (now : bit (c.pkt.slot 0) 8 = false ∨ dieBusy s (fenceTarget c) = false) :
    ∃ t, exec (.dieFence cid) s = .next t ∧ Fenced s t (fenceTarget c) 1 := by
  have up := unfenced_of_allowed allowed
  rw [dieFence_of_runs h, if_neg (by simp [up]), if_neg (by simp [allowed]), if_neg (by rcases now with no | no <;> simp [no])]
  exact ⟨_, rfl, (fenceDie_says 1 up).after (afterFence_contained _ cid _)⟩

theorem dieFence_drains (drain : bit (c.pkt.slot 0) 8 = true) (busy : dieBusy s (fenceTarget c) = true) :
    exec (.dieFence cid) s = .next { s with
      dies := tset Die.rest s.dies (fenceTarget c) { getDie s (fenceTarget c) with draining := some cid }
      cmds := s.cmds.map (fun x => if x.id = c.id then { c with aux := [1] } else x) } := by
  have up := unfenced_of_allowed allowed
  rw [dieFence_of_runs h, if_neg (by simp [up]), if_neg (by simp [allowed]), if_pos ⟨drain, busy⟩]
  rfl

end

end

end Sys2Proof.Machine
end

section
/-! DIE_UNFENCE: refused, or its die back in service, or still fenced where a unit fails (R243, R478, R479). -/

namespace Sys2Proof.Machine

/-- A running DIE_UNFENCE of a die that must stay fenced ends (R479). -/
theorem dieUnfence_refused {s : State} {cid : Nat} {c : Cmd} (h : Runs s cid 0xF15 c) (refused : unfenceRefused s (fenceTarget c) = true) (l : List HwUnit) :
    ∃ t, exec (.dieUnfence cid l) s = .next t ∧ Ended s t c stBad (badAt 24 0) := by
  obtain ⟨found, running, op⟩ := h
  show ∃ t, execDieUnfence cid l s = .next t ∧ _
  unfold execDieUnfence
  rw [found]
  dsimp only
  rw [if_neg (by simp [running, op]), if_pos refused]
  exact ⟨_, rfl, endCmd_ended s c _ _⟩

/-- Nor does what DIE_UNFENCE writes of its die before the registers: the die, its SICs, counters and trace (R479). -/
theorem RegsStand.blocksAtRest {s x : State} (h : RegsStand s x) (d : Nat) (y : Die) :
    RegsStand s (setTrace (setCnt (setSic (Machine.setDie x d y) d Sic.rest) d CntBlock.rest) d Trace.rest) :=
  ⟨by simp [h.objs], by simp [h.regs]⟩

theorem RegsStand.commitFound {s x : State} (h : RegsStand s x) (cid : Nat) :
    RegsStand s (match Machine.findCmd x cid with | some y => Machine.commitRow x y | none => x) := by
  split
  · exact h.commitRow _
  · exact h

theorem dieUnfence_regs {s : State} {cid : Nat} {c : Cmd} (h : Runs s cid 0xF15 c) (allowed : unfenceRefused s (fenceTarget c) = false) (l : List HwUnit)
    (bare : s.objs = []) : ∃ t, exec (.dieUnfence cid l) s = .next t ∧
      t.memRegs = tset MemRegs.rest s.memRegs (fenceTarget c) { MemRegs.rest with retired := (getMemRegs s (fenceTarget c)).retired } := by
  obtain ⟨found, running, op⟩ := h
  have unfolded : exec (.dieUnfence cid l) s = execDieUnfence cid l s := rfl
  rw [unfolded]
  clear unfolded
  generalize row : execDieUnfence cid l s = out
  unfold execDieUnfence at row
  rw [found] at row
  dsimp -zeta only at row
  rw [if_neg (by simp [running, op])] at row
  extract_lets d o bad cores roots moves stack basin cause ok x0 s1 s2 s3 s4 m0 s5 s6 s7 at row
  rw [show unfenceRefused s d = false from allowed, if_neg (by decide)] at row
  subst row
  refine ⟨_, rfl, ?_⟩
  have told : Told s6 s7 := Told.ite (raiseMod_told _ _ _ _ _ _ (Told.refl s6)) (raiseMod_told _ _ _ _ _ _ (Told.refl s6))
  clear_value s7
  have cleared : RegsStand s s4 := (RegsStand.refl bare).blocksAtRest d _
  clear_value s4
  have stand : RegsStand s6 s7 := ⟨told.objs.trans cleared.objs, told.memRegs⟩
  refine (stand.commitFound cid).regs.trans ?_
  show tset MemRegs.rest s4.memRegs d { MemRegs.rest with retired := (getMemRegs s4 d).retired } = _
  rw [show getMemRegs s4 d = getMemRegs s d by rw [getMemRegs, cleared.regs]; rfl, cleared.regs]

/-- DIE_UNFENCE of die `d` has led from `s` to `t`: the die is back in service or still fenced, as its failed units say, its registers are at rest, and no other die has changed (R243, R479). -/
structure Unfenced (s t : State) (d : Nat) (failed : List HwUnit) : Prop where
  others : ∀ e, e ≠ d → (getDie t e).kept = (getDie s e).kept ∧ (getMemRegs t e).kept = (getMemRegs s e).kept
  regs : (getMemRegs t d).kept = MemRegs.rest.kept
  bare : s.objs = [] → getMemRegs t d = { MemRegs.rest with retired := (getMemRegs s d).retired } ∧ ∀ e, e ≠ d → getMemRegs t e = getMemRegs s e
  passed : (∀ u, u ∈ failed → unitDie u ≠ d) → (getDie t d).kept = { Die.rest with up := true, cause := (getDie s d).cause }
  stays : (∃ u, u ∈ failed ∧ unitDie u = d) → (getDie t d).up = false ∧ (getDie t d).fenced = true
  roots : t.roots = s.roots.filter (fun r => !(r.1 / 8 == d))
  engines : t.engines = s.engines.filter (fun e => !(e.1 / 65536 == d))
  pending : t.pending = s.pending
  time : t.time = s.time
  sessions : t.sessions = s.sessions
  cfg : t.cfg = s.cfg
  power : t.power.kept = s.power.kept

/-- A running DIE_UNFENCE of a die that may return (R243, R479). -/
theorem dieUnfence_returns {s : State} {cid : Nat} {c : Cmd} (h : Runs s cid 0xF15 c) (allowed : unfenceRefused s (fenceTarget c) = false) (l : List HwUnit) :
    ∃ t, exec (.dieUnfence cid l) s = .next t ∧ Unfenced s t (fenceTarget c) l := by
  obtain ⟨x, u, t, left, contained, row, up, fenced, kept⟩ := dieUnfence_says l h allowed
  have table : s.objs = [] → t.memRegs = tset MemRegs.rest s.memRegs (fenceTarget c) { MemRegs.rest with retired := (getMemRegs s (fenceTarget c)).retired } := fun bare => by
    obtain ⟨t', row', regs⟩ := dieUnfence_regs h allowed l bare
    cases row.symm.trans row'
    exact regs
  generalize fenceTarget c = d at *
  refine ⟨t, row, ?_⟩
  have dies : ∀ e, getDie u e = if d = e then x else getDie s e := fun e => by rw [left]; exact tget_tset ..
  have memRegs : ∀ e, getMemRegs u e = if d = e then { MemRegs.rest with retired := (getMemRegs s d).retired } else getMemRegs s e :=
    fun e => by rw [left]; exact tget_tset ..
  have here : (getDie t d).kept = x.kept := by rw [contained.dies d, dies d, if_pos rfl]
  exact {
    others := fun e he => by
      rw [contained.dies e, contained.memRegs e, dies e, memRegs e, if_neg he.symm, if_neg he.symm]
      exact ⟨rfl, rfl⟩
    regs := by
      rw [contained.memRegs d, memRegs d, if_pos rfl]
      rfl
    bare := fun bare => by
      have read : ∀ e, getMemRegs t e = if d = e then { MemRegs.rest with retired := (getMemRegs s d).retired } else getMemRegs s e :=
        fun e => by rw [getMemRegs, table bare]; exact tget_tset ..
      exact ⟨by rw [read d, if_pos rfl], fun e he => by rw [read e, if_neg he.symm]⟩
    passed := fun pass => by
      rw [here]
      exact kept (List.filter_eq_nil_iff.mpr fun u hu => by simpa using pass u hu)
    stays := fun ⟨v, hv, hd⟩ => by
      have fails : (l.filter (fun u => unitDie u == d)).isEmpty = false := by
        rw [List.isEmpty_eq_false_iff]
        exact List.ne_nil_of_mem (List.mem_filter.mpr ⟨hv, by simp [hd]⟩)
      have hereUp := congrArg Die.up here
      have hereFenced := congrArg Die.fenced here
      exact ⟨hereUp.trans (up.trans fails), hereFenced.trans (fenced.trans (by rw [fails]; rfl))⟩
    roots := contained.roots.trans (by rw [left])
    engines := contained.engines.trans (by rw [left])
    pending := contained.pending.trans (by rw [left])
    time := contained.time.trans (by rw [left])
    sessions := contained.sessions.trans (by rw [left])
    cfg := contained.cfg.trans (by rw [left])
    power := contained.power.trans (by rw [left]) }

/-- Settles O55, clause by clause: the two steps of DIE_FENCE by the equation of its row, DIE_UNFENCE by what it leaves (R289, R478, R479). -/
theorem diesAreFencedAndReturned : Obligations.DiesAreFencedAndReturned := by
  unfold Obligations.DiesAreFencedAndReturned
  rintro s cid c d rfl
  refine ⟨dieFence_refused, fun h fenced waits => ⟨dieFence_waits h fenced waits, fun idle k => dieFence_commits h fenced waits idle⟩,
    dieUnfence_refused, fun h allowed => ⟨dieFence_fences h allowed, dieFence_drains h allowed⟩, fun h allowed l => ?_⟩
  obtain ⟨t, row, returned⟩ := dieUnfence_returns h allowed l
  exact ⟨t, row, returned.others, returned.regs, returned.bare, returned.passed, returned.stays, returned.roots, returned.engines, returned.pending,
    returned.time, returned.sessions, returned.cfg, returned.power⟩

end Sys2Proof.Machine
end

section
/-! Staged changes: the table that holds them, and what the messages about a change leave (R313 to R316). -/

namespace Sys2Proof.Machine

-- the table -----------------------------------------------------------------------------------------------------------------

theorem findChange_id {s : State} {i : Nat} {g : Change} (h : findChange s i = some g) : g.id = i := by
  simpa using List.find?_some h

theorem findChange_of {s t : State} (h : t.changes = s.changes) (i : Nat) : findChange t i = findChange s i := by
  unfold findChange
  rw [h]

theorem findChange_put_other {s : State} {c : Change} {i : Nat} (h : i ≠ c.id) : findChange (putChange s c) i = findChange s i := by
  unfold findChange putChange
  dsimp only
  split
  · have same : ((fun x => x.id == i) ∘ fun x => if x.id = c.id then c else x) = fun x : Change => x.id == i := by
      funext x
      by_cases here : x.id = c.id <;> simp [here]
    rw [List.find?_map, same]
    cases found : s.changes.find? (fun x => x.id == i) with
    | none => rfl
    | some x =>
      have id : x.id = i := by simpa using List.find?_some found
      simp [id, h]
  · simp [List.find?_append, h.symm]

/-- The state without a change (R316, R317). -/
def unstaged (s : State) (i : Nat) : State := { s with changes := s.changes.filter (fun x => !(x.id == i)) }

theorem findChange_unstaged (s : State) (i : Nat) : findChange (unstaged s i) i = none := by
  simp [findChange, unstaged]

theorem findChange_receive (s : State) (c : Change) : findChange (receiveChange s c) c.id = some c := by
  have none : (s.changes.filter (fun x => !(x.id == c.id))).find? (fun x => x.id == c.id) = none := findChange_unstaged s c.id
  simp [findChange, receiveChange, List.find?_append, none]

-- messages ------------------------------------------------------------------------------------------------------------------

theorem sendDom_posted (s : State) (p typ : Nat) (body : List Nat) (alive : s.power.phase ≠ 0xF) :
    Posted s (sendDom s p typ body) (fun m => m.dst = p ∧ m.typ = typ ∧ m.tc = 7 ∧ m.body = body) := by
  obtain ⟨x, e, sent⟩ := send_posted s ⟨p, typ, 7, 0, 0, 0, 0xFF, 0, 0, body, []⟩ alive
  exact ⟨x, ⟨congrArg Msg.dst e, congrArg Msg.typ e, congrArg Msg.tc e, congrArg Msg.body e⟩, sent⟩

theorem sendDoms_carried (s : State) (l : List Nat) (typ : Nat) (body : List Nat) : Carried s (l.foldl (fun s p => sendDom s p typ body) s) :=
  Carried.foldl _ (Carried.refl s) fun t p => sendDom_carried t p typ body

theorem Carried.setChanges {s t : State} (h : Carried s t) (l : List Change) : Carried { s with changes := l } { t with changes := l } :=
  { h with changes := rfl }

/-- A change awaits no ACK any more, and this module is to set its T_apply (R316). -/
def Change.due (c : Change) : Prop := c.unacked = [] ∧ c.tApply = none ∧ c.remote = none

/-- A change `c` stands in `t` as `g`, which has its T_apply if the change was due (R316); beside it messages have left. -/
structure Opened (s : State) (c : Change) (t : State) (g : Change) : Prop where
  carried : Carried { s with changes := t.changes } t
  found : findChange t c.id = some g
  same : { g with tApply := c.tApply, holding := c.holding } = c
  waits : ¬ c.due → g = c
  opens : c.due → g.holding = false ∧ ∃ a, g.tApply = some a ∧ s.time + 1000 ≤ a ∧ (c.peers = [] → a = s.time + 1000)

theorem openChange_opens {s : State} {c : Change} (h : findChange s c.id = some c) : ∃ g, Opened s c (openChange s c.id) g := by
  unfold openChange
  rw [h]
  dsimp only
  by_cases due : c.due
  · obtain ⟨acked, unset, own⟩ := due
    rw [if_pos ⟨by rw [acked]; rfl, unset, own⟩]
    generalize at_ : s.time + (if (c.peers.filter (fun p => !(s.domain.lost.contains p))).isEmpty = true then 1000 else 1500 + 600 * (c.hops - 1)) = a
    have told := sendDoms_carried (putChange s { c with tApply := some a, holding := false }) (c.peers.filter (fun p => !(s.domain.lost.contains p))) mtOpen [c.id, a]
    refine ⟨{ c with tApply := some a, holding := false }, ?_, ?_, rfl, fun waits => absurd ⟨acked, unset, own⟩ waits, fun _ => ⟨rfl, a, rfl, ?_, fun alone => ?_⟩⟩
    · rw [told.changes]
      exact told
    · rw [findChange_of told.changes]
      exact findChange_put s { c with tApply := some a, holding := false }
    · rw [← at_]
      split <;> omega
    · rw [← at_, alone]
      rfl
  · rw [if_neg fun ⟨acked, rest⟩ => due ⟨List.isEmpty_iff.mp acked, rest⟩]
    exact ⟨c, Carried.refl s, h, rfl, fun _ => rfl, fun g => absurd g due⟩

theorem Opened.after {s u t : State} {c g : Change} (h : Opened u c t g) (before : Carried { s with changes := u.changes } u) : Opened s c t g where
  carried := (before.setChanges t.changes).trans h.carried
  found := h.found
  same := h.same
  waits := h.waits
  opens := fun due => by
    have time : u.time = s.time := before.time
    rw [← time]
    exact h.opens due

/-- A change as its coordinator stores it, its own units having acknowledged (R315, R316). -/
def staging (s : State) (scope job epoch barrier : Nat) (items : List ModeItem) (peers : List Nat) (cmd : Option Nat) : Change :=
  { id := changeId scope job epoch, scope := scope, job := job, epoch := epoch, barrier := barrier, items := items, peers := peers, cmd := cmd,
    remote := none, t0 := s.time, unacked := (peers.map (fun p => [(p, 8), (p, 9)])).flatten, acked := true, ackAt := s.time,
    holding := !s.domain.locked, tApply := none, hops := 1 }

theorem stageChange_opens (s : State) (scope job epoch barrier : Nat) (items : List ModeItem) (peers : List Nat) (cmd : Option Nat) :
    ∃ g, Opened s (staging s scope job epoch barrier items peers cmd) (stageChange s scope job epoch barrier items peers cmd) g := by
  generalize made : staging s scope job epoch barrier items peers cmd = c
  have told := sendDoms_carried (putChange s c) peers mtStage (stageBody c)
  have stored : findChange (peers.foldl (fun s p => sendDom s p mtStage (stageBody c)) (putChange s c)) c.id = some c := by
    rw [findChange_of told.changes]
    exact findChange_put s c
  obtain ⟨g, opened⟩ := openChange_opens stored
  refine ⟨g, ?_⟩
  have eq : stageChange s scope job epoch barrier items peers cmd =
      openChange (peers.foldl (fun s p => sendDom s p mtStage (stageBody c)) (putChange s c)) c.id := by
    subst made
    rfl
  rw [eq]
  refine opened.after ?_
  rw [told.changes]
  exact told

end Sys2Proof.Machine
end

section
/-! STAGE and ACK: a change is stored and acknowledged, or coordinated, and its ACKs are counted (R315, R316, R318). -/

namespace Sys2Proof.Machine

theorem Heard.changes {s u : State} {m : MsgHdr} (h : Heard s u m) : Carried { s with changes := u.changes } u := by
  rw [h.carried.changes]
  exact h.carried

section
variable {s : State} {m : MsgHdr}

/-- A unit's store of a change that its keeper stages (R315, R318). -/
def storing (s : State) (m : MsgHdr) (scope job epoch barrier : Nat) (items : List ModeItem) (peers : List Nat) : Change :=
  { id := changeId scope job epoch, scope := scope, job := job, epoch := epoch, barrier := barrier, items := items, peers := peers,
    cmd := match findChange s (changeId scope job epoch) with | some c => c.cmd | none => none
    remote := some m.src, t0 := s.time, unacked := [], acked := true, ackAt := s.time, holding := !s.domain.locked, tApply := none, hops := 1 }

theorem stage_stores (h : Arrives s mtStage m) (inside : s.domain.outside = false) (follows : s.domain.isKeeper = false) {n : Nat}
    (keeper : s.domain.keeper = some (m.src, n)) (scope job epoch barrier : Nat) (items : List ModeItem) (peers : List Nat) :
    ∃ t g, exec (.stage m scope job epoch barrier items peers) s = .next t ∧ Carried { s with changes := t.changes } t ∧
      findChange t (changeId scope job epoch) = some g ∧ g.scope = scope ∧ g.job = job ∧ g.epoch = epoch ∧ g.barrier = barrier ∧ g.items = items ∧
      g.remote = some m.src ∧ g.acked = true ∧ g.ackAt = s.time ∧ g.tApply = none ∧ g.holding = !s.domain.locked ∧
      ∀ place, place = 8 ∨ place = 9 → ∃ x, (x ∈ t.sent ∨ x ∈ t.held) ∧ x.dst = m.src ∧ x.typ = mtAck ∧ x.tc = 7 ∧ x.body = [g.id, place] := by
  obtain ⟨u, heard, acts⟩ := receive_heard h
  have domain := heard.carried.domain
  have outside : u.domain.outside = false := (congrArg Domain.outside domain).trans inside
  have following : u.domain.isKeeper = false := (congrArg Domain.isKeeper domain).trans follows
  have kept : u.domain.keeper = some (m.src, n) := (congrArg Domain.keeper domain).trans keeper
  have locked : u.domain.locked = s.domain.locked := (congrArg Domain.locked domain :)
  generalize made : storing u m scope job epoch barrier items peers = g
  have id : g.id = changeId scope job epoch := by rw [← made]; rfl
  have once := sendDom_carried _ m.src mtAck [g.id, 8] (Carried.refl (receiveChange u g))
  have told := sendDom_carried _ m.src mtAck [g.id, 9] once
  refine ⟨sendDom (sendDom (receiveChange u g) m.src mtAck [g.id, 8]) m.src mtAck [g.id, 9], g, ?_, ?_, ?_, ?_⟩
  · show execStage m scope job epoch barrier items peers s = _
    unfold execStage
    rw [acts, ← made]
    simp only [outside, following, kept, Bool.false_eq_true, if_false, beq_self_eq_true, Bool.not_false, Bool.and_self, if_true]
    rfl
  · rw [told.changes]
    exact (heard.carried.setChanges _).trans told
  · rw [findChange_of told.changes, ← id]
    exact findChange_receive u g
  · subst made
    refine ⟨rfl, rfl, rfl, rfl, rfl, rfl, rfl, heard.carried.time, rfl, congrArg not locked, fun place which => ?_⟩
    have alive : u.power.phase ≠ 0xF := by
      rw [heard.carried.phase]
      exact h.alive.1
    have first := (sendDom_posted (receiveChange u (storing u m scope job epoch barrier items peers)) m.src mtAck [changeId scope job epoch, 8] alive).out
    rcases which with rfl | rfl
    · exact first.send _
    · refine (sendDom_posted _ m.src mtAck [changeId scope job epoch, 9] ?_).out
      rw [once.phase]
      exact alive

theorem stage_coordinates (h : Arrives s mtStage m) (inside : s.domain.outside = false) (keeps : s.domain.isKeeper = true)
    (scope job epoch barrier : Nat) (items : List ModeItem) (peers : List Nat) :
    ∃ t g, exec (.stage m scope job epoch barrier items peers) s = .next t ∧ Carried { s with changes := t.changes } t ∧
      findChange t (changeId scope job epoch) = some g ∧ g.scope = scope ∧ g.job = job ∧ g.epoch = epoch ∧ g.barrier = barrier ∧ g.items = items ∧
      g.remote = none ∧ g.cmd = none ∧ g.t0 = s.time := by
  obtain ⟨u, heard, acts⟩ := receive_heard h
  have domain := heard.carried.domain
  have outside : u.domain.outside = false := (congrArg Domain.outside domain).trans inside
  have keeping : u.domain.isKeeper = true := (congrArg Domain.isKeeper domain).trans keeps
  obtain ⟨g, opened⟩ := stageChange_opens u scope job epoch barrier items ((peers ++ [m.src]).eraseDups.filter (fun p => p != u.cfg.peerId)) none
  have same := opened.same
  refine ⟨_, g, ?_, (opened.after heard.changes).carried, opened.found, congrArg Change.scope same, congrArg Change.job same, congrArg Change.epoch same,
    congrArg Change.barrier same, congrArg Change.items same, congrArg Change.remote same, congrArg Change.cmd same,
    (congrArg Change.t0 same).trans heard.carried.time⟩
  show execStage m scope job epoch barrier items peers s = _
  unfold execStage
  rw [acts]
  simp only [outside, keeping, if_true]
  rfl

theorem ack_unknown (h : Arrives s mtAck m) {chg : Nat} (place : Nat) (none : findChange s chg = none) :
    ∃ u, Heard s u m ∧ exec (.ack m chg place) s = .next u := by
  obtain ⟨u, heard, acts⟩ := receive_heard h
  refine ⟨u, heard, ?_⟩
  show execAck m chg place s = _
  unfold execAck
  rw [acts, findChange_of heard.carried.changes, none]

/-- A change with one ACK more counted (R316, R337). -/
def Change.ackedBy (c : Change) (m : MsgHdr) (place : Nat) : Change :=
  { c with unacked := c.unacked.filter (fun u => !(u == (m.src, place))), hops := max c.hops (9 - m.hops) }

theorem ack_counts (h : Arrives s mtAck m) {chg : Nat} (place : Nat) {c : Change} (found : findChange s chg = some c) :
    ∃ t g, exec (.ack m chg place) s = .next t ∧ Carried { s with changes := t.changes } t ∧
      findChange t chg = some g ∧ g.unacked = c.unacked.filter (fun u => !(u == (m.src, place))) ∧ g.hops = max c.hops (9 - m.hops) ∧
      { g with unacked := c.unacked, hops := c.hops, tApply := c.tApply, holding := c.holding } = c ∧
      (g.unacked ≠ [] ∨ c.tApply ≠ none ∨ c.remote ≠ none → g.tApply = c.tApply ∧ g.holding = c.holding) ∧
      (g.unacked = [] → c.tApply = none → c.remote = none → g.holding = false ∧ ∃ a, g.tApply = some a ∧ s.time + 1000 ≤ a) := by
  obtain ⟨u, heard, acts⟩ := receive_heard h
  obtain rfl : c.id = chg := findChange_id found
  obtain ⟨g, opened⟩ := openChange_opens (s := putChange u (c.ackedBy m place)) (findChange_put u (c.ackedBy m place))
  replace opened := opened.after (s := s) (heard.carried.setChanges _)
  obtain ⟨carried, there, same, waits, opens⟩ := opened
  have unacked : g.unacked = (c.ackedBy m place).unacked := (congrArg Change.unacked same :)
  refine ⟨_, g, ?_, carried, there, unacked, congrArg Change.hops same, ?_, fun no => ?_, fun all unset own => ?_⟩
  · show execAck m c.id place s = _
    unfold execAck
    rw [acts, findChange_of heard.carried.changes, found]
    rfl
  · calc { g with unacked := c.unacked, hops := c.hops, tApply := c.tApply, holding := c.holding }
      _ = { ({ g with tApply := c.tApply, holding := c.holding } : Change) with unacked := c.unacked, hops := c.hops } := rfl
      _ = { c.ackedBy m place with unacked := c.unacked, hops := c.hops } := congrArg (fun x : Change => { x with unacked := c.unacked, hops := c.hops }) same
      _ = c := rfl
  · have stays : g = c.ackedBy m place := waits fun ⟨all, unset, own⟩ => by
      rcases no with left | set | far
      · exact left (unacked.trans all)
      · exact set unset
      · exact far own
    rw [stays]
    exact ⟨rfl, rfl⟩
  · obtain ⟨held, a, set, later, -⟩ := opens ⟨unacked.symm.trans all, unset, own⟩
    exact ⟨held, a, set, later⟩

end

end Sys2Proof.Machine
end

section
/-! The end of a change: the MODE_STAGE that asked for it commits, and the change is dropped or in force (R314, R316, R317, R496). -/

namespace Sys2Proof.Machine

-- the command that asked for a change ---------------------------------------------------------------------------------------

theorem Beside.setCmds {s t : State} (h : Beside s t) (l : List Cmd) : Beside { s with cmds := l } { t with cmds := l } :=
  { h with ids := rfl, same := fun _ hx => List.mem_map_of_mem hx }

/-- As `Beside`, the commands apart: some may have come or gone. -/
def ButCmds (s t : State) : Prop := Beside { s with cmds := t.cmds } t

theorem ButCmds.refl (s : State) : ButCmds s s := Beside.refl s

theorem ButCmds.trans {a b c : State} (h : ButCmds a b) (g : ButCmds b c) : ButCmds a c := (h.setCmds c.cmds).trans g

theorem Beside.butCmds {s t : State} (h : Beside s t) : ButCmds s t := h.setCmds t.cmds

theorem commitWith_butCmds {s : State} {c : Cmd} (self : c.self ∈ s.cmds.map Cmd.self) : ButCmds s (commitWith noEffect s c) := by
  obtain ⟨u, v, bu, bv, -, -, -, -, -, row⟩ := commitWith_all noEffect s s c (Beside.refl s) self
  rw [row]
  have beside : Beside s v := bu.trans bv
  unfold recorded
  split
  · exact beside.setCmds _
  · exact Beside.set ((publishWrites_beside v _ _ beside).setCmds _)

/-- The commit of a ring's command leaves its record. -/
theorem commitWith_record {s : State} {c : Cmd} {k : Nat} (self : c.self ∈ s.cmds.map Cmd.self) (ring : c.origin = .ring k) :
    findCmd (commitWith noEffect s c) c.id = some (recordOf s c) := by
  obtain ⟨u, v, bu, bv, -, -, -, -, -, row⟩ := commitWith_all noEffect s s c (Beside.refl s) self
  rw [row, recorded_ring s v c k ring]
  refine findCmd_putCmd v (recordOf s c) ?_
  rw [(bu.trans bv).ids]
  obtain ⟨x, listed, same⟩ := List.mem_map.mp self
  have id : x.id = c.id := congrArg Prod.fst same
  exact id ▸ List.mem_map_of_mem listed

theorem endModeCmd_of_found {s : State} {i : Nat} {c : Cmd} (found : findCmd s i = some c) (status : Nat) :
    endModeCmd s (some i) status = if inUse c = true then commitWith noEffect s { c with phase := .staged, status := status } else s := by
  unfold endModeCmd
  dsimp only
  rw [found]

/-- What holds of a state and of the commit in it of a command of the module holds once a MODE_STAGE has ended. -/
theorem endModeCmd_of {P : State → Prop} {s : State} (stays : P s) (commits : ∀ c : Cmd, c.self ∈ s.cmds.map Cmd.self → P (commitWith noEffect s c))
    (cmd : Option Nat) (status : Nat) : P (endModeCmd s cmd status) := by
  cases cmd with
  | none => exact stays
  | some i =>
    cases found : findCmd s i with
    | none =>
      unfold endModeCmd
      dsimp only
      rw [found]
      exact stays
    | some c =>
      rw [endModeCmd_of_found found]
      split
      · exact commits { c with phase := .staged, status := status } (show c.self ∈ _ from find_map_self found)
      · exact stays

theorem endModeCmd_butCmds (s : State) (cmd : Option Nat) (status : Nat) : ButCmds s (endModeCmd s cmd status) :=
  endModeCmd_of (ButCmds.refl s) (fun _ => commitWith_butCmds) cmd status

theorem endModeCmd_contained (s : State) (cmd : Option Nat) (status : Nat) : Contained s (endModeCmd s cmd status) := by
  refine endModeCmd_of (Contained.refl s) (fun c _ => ?_) cmd status
  obtain ⟨u, before, tail⟩ := commitWith_tail noEffect s c
  exact tail s before

theorem endModeCmd_records {s : State} {i k : Nat} {c : Cmd} (found : findCmd s i = some c) (runs : inUse c = true) (ring : c.origin = .ring k) (status : Nat) :
    ∃ z, findCmd (endModeCmd s (some i) status) i = some z ∧ z.phase = .committed ∧ z.status = status ∧ z.pkt = c.pkt := by
  rw [endModeCmd_of_found found, if_pos runs]
  obtain rfl : c.id = i := (findCmd_mem found).1
  exact ⟨_, commitWith_record (c := { c with phase := .staged, status := status }) (show c.self ∈ _ from find_map_self found) ring, rfl, rfl, rfl⟩

-- the module's own change of power state ------------------------------------------------------------------------------------

/-- The module's own change of power state, with its T_apply: it has no unit to wait for outside the module (R316, R496). -/
def ownChange (s : State) : Change := { staging s 1 0xFFFF 0 0xFFFF [] [] none with tApply := some (s.time + 1000), holding := false }

theorem autoChange_eq (s : State) : autoChange s =
    if (ready s && wantP1 s != s.power.p1 && !(scope1Busy s) && s.power.retry.isNone) = true then putChange (putChange s (staging s 1 0xFFFF 0 0xFFFF [] [] none)) (ownChange s)
    else s := by
  unfold autoChange
  split
  · exact openChange_own (putChange s (staging s 1 0xFFFF 0 0xFFFF [] [] none)) (staging s 1 0xFFFF 0 0xFFFF [] [] none) (findChange_put s _) rfl rfl rfl rfl
  · rfl

theorem autoChange_changes (s : State) : ∃ l, autoChange s = { s with changes := l } := by
  rw [autoChange_eq]
  split
  · exact ⟨_, rfl⟩
  · exact ⟨_, rfl⟩

theorem findChange_auto (s : State) {i : Nat} (other : i ≠ 2 ^ 32) : findChange (autoChange s) i = findChange s i := by
  rw [autoChange_eq]
  split
  · rw [findChange_put_other other, findChange_put_other other]
  · rfl

-- a change that is dropped (R317) -------------------------------------------------------------------------------------------

theorem dropChange_of_job {s : State} {g : Change} (job : g.scope = 0) : dropChange s g = autoChange (endModeCmd (unstaged s g.id) g.cmd stIncomplete) := by
  unfold dropChange
  dsimp only
  rw [if_neg fun ⟨module, _⟩ => by rw [job] at module; cases module]
  rfl

theorem kept_p1 {p q : Power} (h : p.kept = q.kept) : p.p1 = q.p1 := by
  have p1 := congrArg Power.p1 h
  exact p1

theorem dropChange_drops (s : State) {g : Change} (job : g.scope = 0) (id : g.id < 2 ^ 32) : Dropped s (dropChange s g) g s.time := by
  rw [dropChange_of_job job]
  have beside := endModeCmd_butCmds (unstaged s g.id) g.cmd stIncomplete
  have contained := endModeCmd_contained (unstaged s g.id) g.cmd stIncomplete
  have gone : findChange (endModeCmd (unstaged s g.id) g.cmd stIncomplete) g.id = none := by
    rw [findChange_of contained.changes]
    exact findChange_unstaged s g.id
  have record : ∀ i c k, g.cmd = some i → findCmd s i = some c → inUse c = true → c.origin = .ring k →
      ∃ z, findCmd (endModeCmd (unstaged s g.id) g.cmd stIncomplete) i = some z ∧ z.phase = .committed ∧ z.status = stIncomplete ∧ z.pkt = c.pkt := by
    intro i c k asked found runs ring
    rw [asked]
    exact endModeCmd_records (s := unstaged s g.id) found runs ring stIncomplete
  generalize endModeCmd (unstaged s g.id) g.cmd stIncomplete = t at beside contained gone record
  obtain ⟨l, auto⟩ := autoChange_changes t
  refine ⟨(findChange_auto t (by omega)).trans gone, ?_, ?_, ?_, ?_⟩ <;> rw [auto]
  · exact beside.time
  · exact beside.jobs
  · exact ⟨beside.modEpoch, beside.sessions, beside.cfg, beside.rings, kept_p1 contained.power⟩
  · exact record

/-- A change dropped where only reports and messages, and device time, came before (R317). -/
theorem Dropped.after {s u t : State} {g : Change} {now : Nat} (h : Dropped u t g now) {l : List Change} {at_ : Nat}
    (before : Carried { s with changes := l, time := at_ } u) : Dropped s t g now where
  gone := h.gone
  time := h.time
  jobs := h.jobs.trans before.jobs
  rest := by
    obtain ⟨modEpoch, sessions, cfg, rings, p1⟩ := h.rest
    exact ⟨modEpoch.trans before.modEpoch, sessions.trans before.sessions, cfg.trans before.cfg, rings.trans before.rings, p1.trans (kept_p1 before.power)⟩
  cmd := fun i c k asked found => h.cmd i c k asked (by
    unfold findCmd
    rw [before.cmds]
    exact found)

-- a change that is applied to its job (R316) --------------------------------------------------------------------------------

theorem finishCmd_jobs (s : State) (c : Cmd) : (finishCmd s c).jobs = s.jobs := by
  have unbound : ∀ (u : State) r, (endUnbind u r).jobs = u.jobs := fun u r => by
    unfold endUnbind
    dsimp only
    split
    · exact (fireMsix_told _ _ (Told.refl _)).jobs
    · rfl
  have told : ∀ (u : State) r x, (replyTell u r x).jobs = u.jobs := fun u r x => by
    have fired := fire_told u (r / 16) (r % 16) (Told.refl u)
    exact (Told.ite (Told.ite (fireMsix_told _ r fired) fired) (Told.refl u) : Told u (replyTell u r x)).jobs
  have stored : ∀ (u : State) r bs, (replyStore u r bs).jobs = u.jobs := fun u r bs => by
    unfold replyStore
    dsimp only
    split_ifs <;> rfl
  have written : ∀ (u : State) r bs, (writeReply u r bs).jobs = u.jobs := fun u r bs => by
    rw [writeReply_eq]
    split
    · have faulted := (ringFault_faulted u r 0).jobs
      generalize ringFault u r 0 = x at faulted
      exact faulted
    · have kept := stored u r bs
      generalize replyStore u r bs = x at kept
      exact (told _ r _).trans kept
  rw [finishCmd_eq]
  split
  · rw [unbound]
    split
    · rfl
    · exact written _ _ _
  · rfl

theorem promotionFault_jobs (s : State) (sc e status : Nat) : (promotionFault s sc e status).jobs = s.jobs := by
  unfold promotionFault
  split
  · rfl
  · extract_lets h layer p' put
    have held : h.jobs = s.jobs := by
      unfold h
      split
      · exact (unpinUse_beside _ _ _ (Beside.refl s)).jobs
      · rfl
    have puts : ∀ x q, (putPf x sc q).jobs = x.jobs := fun x q => (putPf_told x sc q).jobs
    split
    · exact (puts h p').trans held
    · exact (raise_told put _ _ _ _ _ _ _ _ (Told.refl put)).jobs.trans ((puts h _).trans held)

theorem endCopies_jobs (s : State) (parent : Nat) : (endCopies s parent).jobs = s.jobs :=
  (Beside.foldl _ (Beside.refl s) fun x c => releaseRun_beside x c : Beside s ((s.cmds.filter (copyOf parent)).foldl releaseRun s)).jobs

theorem copyEnded_jobs (s : State) (parent entry : Nat) (r : Nat × Nat × Nat) : (copyEnded s parent entry r).jobs = s.jobs := by
  unfold copyEnded
  split <;> rfl

/-- The end of a command changes no job (R272). -/
theorem endCmd_jobs (s : State) (c : Cmd) (status detail : Nat) : (endCmd s c status detail).jobs = s.jobs := by
  obtain ⟨u, c', v, before, -, -, -, -, -, -, -, -, -, -, -, after, -, ends⟩ := endCmd_parts s c status detail
  have jobs : v.jobs = s.jobs := after.jobs.trans ((finishCmd_jobs u c').trans before.jobs)
  rw [ends]
  split
  · exact (promotionFault_jobs v _ _ _).trans jobs
  · exact (copyEnded_jobs v _ _ _).trans jobs
  · exact (endCopies_jobs v _).trans jobs
  · exact jobs

theorem endAll_jobs (s : State) (status detail : Nat) (p : Cmd → Bool) : (endAll s status detail p).jobs = s.jobs := by
  unfold endAll
  refine foldl_keeps (P := fun x => x.jobs = s.jobs) (fun x i kept => ?_) _ rfl
  split
  · exact (endCmd_jobs x _ _ _).trans kept
  · exact kept

theorem applyItem_id (j : Job) (i : ModeItem) : (applyItem j i).id = j.id := by
  unfold applyItem
  split_ifs <;> rfl

theorem applyItems_id (l : List ModeItem) (j : Job) : (l.foldl applyItem j).id = j.id := by
  induction l generalizing j with
  | nil => rfl
  | cons i l ih => exact (ih (applyItem j i)).trans (applyItem_id j i)

/-- One job changed, its id kept: the others are as they were. -/
theorem findJob_updJob (s : State) (i : Nat) {f : Job → Job} (kept : ∀ j, (f j).id = j.id) (k : Nat) :
    findJob (updJob s i f) k = if k = i then (findJob s k).map f else findJob s k := by
  unfold findJob updJob
  dsimp only
  have same : ((fun x => x.id == k) ∘ fun x => if x.id = i then f x else x) = fun x : Job => x.id == k := by
    funext x
    by_cases here : x.id = i <;> simp [here, kept]
  rw [List.find?_map, same]
  cases found : s.jobs.find? (fun x => x.id == k) with
  | none => simp
  | some x =>
    have id : x.id = k := by simpa using List.find?_some found
    by_cases here : k = i <;> simp [id, here]

theorem modeRecs_told (s : State) (job epoch : Nat) : Told s (modeRecs s job epoch) :=
  Told.foldl _ (Told.refl s) fun _ _ h => traceRec_told _ _ _ h

/-- A job with a change in force (R314, R316). -/
def Change.applied (c : Change) (j : Job) : Job := { c.items.foldl applyItem j with epoch := c.epoch }

theorem applied_id (c : Change) (j : Job) : (c.applied j).id = j.id := applyItems_id c.items j

/-- Commands of a job that now stall for an arrival (R229). -/
def stallJob (s : State) (job : Nat) : State := { s with cmds := s.cmds.map (fun x => if x.pkt.job = job then beginArrivalStall s x else x) }

/-- Commands of an epoch that a change has passed end STALE (R280, R316). -/
def endPassed (s : State) (c : Change) : State :=
  endAll s stStale 0 (fun x => x.pkt.job == c.job && x.pkt.epoch != 0 && (x.phase == .waiting || x.phase == .placed) &&
    decide (epochDiff x.pkt.epoch c.epoch < 0))

/-- The lock that a change names is signalled (R316). -/
def signalBarrier (s : State) (c : Change) : State :=
  if c.barrier = 0xFFFF ∨ (findJob s c.job).isNone = true then s else signalLock s c.barrier 1 c.job s.cfg.peerId none

/-- A change of one job as it comes in force, before the command that asked for it ends (R316 steps 5 to 7). -/
def jobChanged (s : State) (c : Change) : State :=
  signalBarrier (endPassed (stallJob (modeRecs (updJob (unstaged s c.id) c.job c.applied) c.job c.epoch) c.job) c) c

theorem applyChange_of_job {s : State} {c : Change} (job : c.scope = 0) : applyChange s c = endModeCmd (jobChanged s c) c.cmd stDone := by
  have other : ¬ c.scope = 1 := by omega
  unfold applyChange
  extract_lets left ses p0 powered p1 recs stalled passed changed ended
  have eq : changed = jobChanged s c := by
    have base : recs = modeRecs (updJob (unstaged s c.id) c.job c.applied) c.job c.epoch := rfl
    have stalls : stalled = stallJob recs c.job := rfl
    have ends : passed = endPassed stalled c := rfl
    unfold changed
    rw [if_neg other, ends, stalls, base]
    rfl
  rw [if_neg other]
  unfold ended
  rw [eq]

theorem jobChanged_says (s : State) (c : Change) :
    Contained (updJob (unstaged s c.id) c.job c.applied) (jobChanged s c) ∧ (jobChanged s c).jobs = (updJob (unstaged s c.id) c.job c.applied).jobs := by
  unfold jobChanged
  generalize updJob (unstaged s c.id) c.job c.applied = x
  have told : Told x (modeRecs x c.job c.epoch) := modeRecs_told x c.job c.epoch
  generalize modeRecs x c.job c.epoch = y at told
  have ends : Contained x (endPassed (stallJob y c.job) c) := endAll_contained _ _ _ _ (Contained.set told.contained)
  have jobs : (endPassed (stallJob y c.job) c).jobs = x.jobs := (endAll_jobs (stallJob y c.job) _ _ _).trans told.jobs
  generalize endPassed (stallJob y c.job) c = z at ends jobs
  unfold signalBarrier
  split
  · exact ⟨ends, jobs⟩
  · exact ⟨signalLock_contained _ _ _ _ _ _ ends, (signalLock_beside _ _ _ _ _ _ (Beside.refl z)).jobs.trans jobs⟩

theorem applyChange_inForce (s : State) {c : Change} (job : c.scope = 0) : InForce s (applyChange s c) c s.time := by
  rw [applyChange_of_job job]
  obtain ⟨changed, jobs⟩ := jobChanged_says s c
  have contained := changed.trans (endModeCmd_contained (jobChanged s c) c.cmd stDone)
  have ended := (endModeCmd_butCmds (jobChanged s c) c.cmd stDone).jobs
  generalize endModeCmd (jobChanged s c) c.cmd stDone = t at contained ended
  have found : ∀ k, findJob t k = if k = c.job then (findJob s k).map c.applied else findJob s k := fun k => by
    have updated := findJob_updJob (unstaged s c.id) c.job (applied_id c) k
    unfold findJob at updated ⊢
    rw [show t.jobs = _ from ended, jobs]
    exact updated
  exact {
    gone := (findChange_of contained.changes _).trans (findChange_unstaged s c.id)
    time := contained.time
    job := fun j here => by
      rw [found, if_pos rfl, here]
      rfl
    others := fun i other => by rw [found, if_neg other]
    rest := ⟨contained.modEpoch, contained.sessions, contained.cfg, kept_p1 contained.power⟩ }

/-- A change in force where only reports and messages, and device time, came before (R316). -/
theorem InForce.after {s u t : State} {c : Change} {now : Nat} (h : InForce u t c now) {l : List Change} {at_ : Nat}
    (before : Carried { s with changes := l, time := at_ } u) : InForce s t c now := by
  have jobs : ∀ k, findJob u k = findJob s k := fun k => by
    unfold findJob
    rw [before.jobs]
  obtain ⟨modEpoch, sessions, cfg, p1⟩ := h.rest
  exact {
    gone := h.gone
    time := h.time
    job := fun j here => h.job j ((jobs _).trans here)
    others := fun i other => (h.others i other).trans (jobs i)
    rest := ⟨modEpoch.trans before.modEpoch, sessions.trans before.sessions, cfg.trans before.cfg, p1.trans (kept_p1 before.power)⟩ }

/-- What a change says of its T_apply and its holds plays no part in what is in force. -/
theorem InForce.ofOpened {s t : State} {c : Change} {now : Nat} {a : Option Nat} {held : Bool}
    (h : InForce s t { c with tApply := a, holding := held } now) : InForce s t c now := ⟨h.gone, h.time, h.job, h.others, h.rest⟩

end Sys2Proof.Machine
end

section
/-! A change of scope 1: the power state and the module's epoch (R314, R495, R496). -/

namespace Sys2Proof.Machine

/-- The power state that a session asks for once a change has come due (R496). -/
def Change.session (c : Change) (p : Power) : Bool :=
  match c.items.find? (fun i => i.item == 0x10) with | some i => i.value == 1 | none => p.sessionP1

/-- The module with a change of scope 1 counted and the state that its session asks for noted, before any unit applies it (R496). -/
def powerAsked (s : State) (c : Change) : State :=
  { s with modEpoch := (s.modEpoch + 1) % 65536, power := { s.power with sessionP1 := c.session s.power, retry := none } }

/-- The power state that is asked for, in force (R316, R496). -/
def powerChanged (s : State) : State := { s with power := { s.power with p1 := wantP1 s } }

theorem applyChange_of_module {s : State} {c : Change} (module : c.scope = 1) :
    applyChange s c = autoChange (endModeCmd (modeRecs (powerChanged (powerAsked (unstaged s c.id) c)) 0xFFFF ((s.modEpoch + 1) % 65536)) c.cmd stDone) := by
  unfold applyChange
  extract_lets left ses p0 powered p1 recs stalled passed changed ended
  have eq : changed = modeRecs (powerChanged (powerAsked (unstaged s c.id) c)) 0xFFFF ((s.modEpoch + 1) % 65536) := by
    unfold changed
    rw [if_pos module]
    rfl
  rw [if_pos module]
  unfold ended
  rw [eq]

/-- A change of scope 1 that comes in force (R314, R496). -/
theorem applyChange_powers {s : State} {c : Change} (module : c.scope = 1) :
    (applyChange s c).time = s.time ∧ (applyChange s c).modEpoch = (s.modEpoch + 1) % 65536 ∧ (applyChange s c).jobs = s.jobs ∧
    (applyChange s c).sessions = s.sessions ∧ (applyChange s c).power.sessionP1 = c.session s.power ∧
    (applyChange s c).power.p1 = (c.session s.power || s.power.autoPower || s.power.autoTherm) := by
  rw [applyChange_of_module module]
  have told := modeRecs_told (powerChanged (powerAsked (unstaged s c.id) c)) 0xFFFF ((s.modEpoch + 1) % 65536)
  generalize modeRecs (powerChanged (powerAsked (unstaged s c.id) c)) 0xFFFF ((s.modEpoch + 1) % 65536) = r at told
  have contained := told.contained.trans (endModeCmd_contained r c.cmd stDone)
  have jobs := (endModeCmd_butCmds r c.cmd stDone).jobs
  generalize endModeCmd r c.cmd stDone = t at contained jobs
  obtain ⟨l, auto⟩ := autoChange_changes t
  have power := contained.power
  rw [auto]
  exact ⟨contained.time, contained.modEpoch, jobs.trans told.jobs, contained.sessions, congrArg Power.sessionP1 power, kept_p1 power⟩

theorem changeAt_carried (s : State) (a : Nat) : Carried { s with time := max s.time a } (timeTo s a) := (timeTo_says s a).told.carried

theorem power_applies {s : State} {g : Change} {a : Nat} (found : findChange s g.id = some g) (module : g.scope = 1) (set : g.tApply = some a) :
    ∃ t, exec (.modeApply g.id) s = .next t ∧ t.time = max s.time a ∧ t.modEpoch = (s.modEpoch + 1) % 65536 ∧ t.jobs = s.jobs ∧ t.sessions = s.sessions ∧
      t.power.sessionP1 = (match g.items.find? (fun i => i.item == 0x10) with | some i => i.value == 1 | none => s.power.sessionP1) ∧
      t.power.p1 = (t.power.sessionP1 || s.power.autoPower || s.power.autoTherm) := by
  have before := changeAt_carried s a
  obtain ⟨time, modEpoch, jobs, sessions, session, p1⟩ := applyChange_powers (s := timeTo s a) module
  have asks : g.session (timeTo s a).power = g.session s.power := by
    unfold Change.session
    split
    · rfl
    · exact (congrArg Power.sessionP1 before.power :)
  have power : (timeTo s a).power.autoPower = s.power.autoPower := (congrArg Power.autoPower before.power :)
  have therm : (timeTo s a).power.autoTherm = s.power.autoTherm := (congrArg Power.autoTherm before.power :)
  refine ⟨applyChange (timeTo s a) g, ?_, time.trans before.time, ?_, jobs.trans before.jobs, sessions.trans before.sessions, ?_, ?_⟩
  · show execModeApply g.id s = _
    unfold execModeApply
    rw [found]
    dsimp only
    rw [set]
  · rw [modEpoch, before.modEpoch]
  · rw [session, asks]
    rfl
  · rw [p1, session, power, therm]

-- a change of the module's own that was abandoned (R496) ------------------------------------------------------------------------

theorem retry_waits {s : State} (h : s.power.retry = none ∨ scope1Busy s = true) : exec .powerChangeRetry s = .next s := by
  show execPowerChangeRetry s = _
  unfold execPowerChangeRetry
  rcases h with none | busy
  · rw [none]
  · split
    · rfl
    · rw [if_pos busy]

section
variable {s : State} {b : Bool}

theorem retry_settles (asked : s.power.retry = some b) (free : scope1Busy s = false) :
    exec .powerChangeRetry s = .next (if wantP1 s = b then autoChange { s with power := { s.power with retry := none } } else { s with power := { s.power with retry := none } }) := by
  show execPowerChangeRetry s = _
  unfold execPowerChangeRetry
  rw [asked]
  dsimp only
  rw [if_neg (by simp [free])]
  rfl

theorem retry_given_up (asked : s.power.retry = some b) (free : scope1Busy s = false) (h : wantP1 s ≠ b ∨ b = s.power.p1) :
    exec .powerChangeRetry s = .next { s with power := { s.power with retry := none } } := by
  rw [retry_settles asked free]
  split
  case isFalse => rfl
  case isTrue same =>
    have there : wantP1 s = s.power.p1 := same.trans (h.resolve_left fun other => other same)
    rw [autoChange_eq, if_neg]
    show ¬ (ready s && wantP1 s != s.power.p1 && _ && _) = true
    simp [there]

theorem retry_stages (asked : s.power.retry = some b) (free : scope1Busy s = false) (same : wantP1 s = b) (other : b ≠ s.power.p1) (ready_ : s.power.phase = 7) :
    ∃ t g, exec .powerChangeRetry s = .next t ∧ { t with changes := s.changes, power := s.power } = s ∧ t.power = { s.power with retry := none } ∧
      findChange t (2 ^ 32) = some g ∧ g.scope = 1 ∧ g.items = [] ∧ g.cmd = none ∧ g.remote = none ∧ g.tApply = some (s.time + 1000) := by
  have goes : (ready s && wantP1 s != s.power.p1 && !(scope1Busy s) && (none : Option Bool).isNone) = true := by
    simp [ready, ready_, same, other, free]
  generalize cleared : ({ s with power := { s.power with retry := none } } : State) = u
  have staged : autoChange u = putChange (putChange u (staging u 1 0xFFFF 0 0xFFFF [] [] none)) (ownChange u) := by
    rw [autoChange_eq, if_pos]
    subst cleared
    exact goes
  refine ⟨autoChange u, ownChange u, ?_, ?_, ?_, ?_, rfl, rfl, rfl, rfl, ?_⟩
  · rw [retry_settles asked free, if_pos same, cleared]
  · rw [staged, ← cleared]
    rfl
  · rw [staged, ← cleared]
    rfl
  · rw [staged]
    exact findChange_put _ (ownChange u)
  · rw [← cleared]
    rfl

end

/-- Settles O45: a change of scope 1 comes due in `power_applies`, and an abandoned one is staged again in `retry_stages` or given up. -/
theorem powerStateFollowsItsRequests : Obligations.PowerStateFollowsItsRequests := by
  unfold Obligations.PowerStateFollowsItsRequests
  exact fun s => ⟨fun g a => power_applies, fun none => retry_waits (.inl none), fun _ _ busy => retry_waits (.inr busy),
    fun b asked free => ⟨retry_given_up asked free, retry_stages asked free⟩⟩

end Sys2Proof.Machine
end

section
/-! OPEN and DISCARD: a change gets its T_apply, comes in force or is dropped (R316 to R318). -/

namespace Sys2Proof.Machine

section
variable {s : State} {m : MsgHdr} {chg : Nat} {c : Change}

theorem open_sets (h : Arrives s mtOpen m) {a : Nat} (found : findChange s chg = some c) (own : c.remote = some m.src) (unset : c.tApply = none) (later : s.time < a) :
    ∃ u, Heard s u m ∧ exec (.openMsg m chg a) s = .next (putChange u { c with tApply := some a, holding := false }) := by
  obtain ⟨u, heard, acts⟩ := receive_heard h
  have time : u.time = s.time := heard.carried.time
  refine ⟨u, heard, ?_⟩
  show execOpenMsg m chg a s = _
  unfold execOpenMsg
  rw [acts, findChange_of heard.carried.changes, found]
  dsimp only
  rw [if_neg (by simp [own, unset]), if_neg (by omega)]

theorem open_applies (h : Arrives s mtOpen m) {a : Nat} (found : findChange s chg = some c) (own : c.remote = some m.src) (unset : c.tApply = none)
    (passed : a ≤ s.time) (job : c.scope = 0) : ∃ t, exec (.openMsg m chg a) s = .next t ∧ InForce s t c s.time := by
  obtain ⟨u, heard, acts⟩ := receive_heard h
  have time : u.time = s.time := heard.carried.time
  generalize opened : ({ c with tApply := some a, holding := false } : Change) = g
  have forced := applyChange_inForce (putChange u g) (c := g) (by rw [← opened]; exact job)
  refine ⟨applyChange (putChange u g) g, ?_, ?_⟩
  · show execOpenMsg m chg a s = _
    unfold execOpenMsg
    rw [acts, findChange_of heard.carried.changes, found]
    dsimp only
    rw [if_neg (by simp [own, unset]), if_pos (by omega), opened]
  · have after := forced.after (heard.carried.setChanges _)
    rw [show (putChange u g).time = s.time from time] at after
    rw [← opened] at after ⊢
    exact after.ofOpened

theorem discard_drops (h : Arrives s mtDiscard m) (found : findChange s chg = some c) (job : c.scope = 0) (small : chg < 2 ^ 32) (own : c.remote = some m.src) :
    ∃ t, exec (.discard m chg) s = .next t ∧ Dropped s t c s.time := by
  obtain ⟨u, heard, acts⟩ := receive_heard h
  have id : c.id = chg := findChange_id found
  have dropped := (dropChange_drops u job (by omega)).after heard.carried
  rw [show u.time = s.time from heard.carried.time] at dropped
  refine ⟨dropChange u c, ?_, dropped⟩
  show execDiscard m chg s = _
  unfold execDiscard
  rw [acts, findChange_of heard.carried.changes, found]
  dsimp only
  rw [if_pos own]

theorem discard_ignored (h : Arrives s mtDiscard m) (found : findChange s chg = some c) (other : c.remote ≠ some m.src) :
    ∃ u, Heard s u m ∧ exec (.discard m chg) s = .next u := by
  obtain ⟨u, heard, acts⟩ := receive_heard h
  refine ⟨u, heard, ?_⟩
  show execDiscard m chg s = _
  unfold execDiscard
  rw [acts, findChange_of heard.carried.changes, found]
  dsimp only
  rw [if_neg other]

end

/-- Settles O46, one lemma for each message and what it finds: STAGE by `stage_stores` and `stage_coordinates`, ACK by `ack_unknown` and `ack_counts`,
OPEN by `open_sets` and `open_applies`, DISCARD by `discard_drops` and `discard_ignored`. -/
theorem modeMessagesCarryTheChange : Obligations.ModeMessagesCarryTheChange := by
  unfold Obligations.ModeMessagesCarryTheChange
  refine fun s m => ⟨?stage, ?ack, ?opened, ?discard⟩
  case stage =>
    exact fun h inside scope job epoch barrier items peers =>
      ⟨fun follows n keeper => stage_stores h inside follows keeper scope job epoch barrier items peers,
        fun keeps => stage_coordinates h inside keeps scope job epoch barrier items peers⟩
  case ack => exact fun h chg place => ⟨ack_unknown h place, fun c => ack_counts h place⟩
  case opened =>
    exact fun h chg a c found own unset => ⟨open_sets h found own unset, fun passed job _ => open_applies h found own unset passed job⟩
  case discard => exact fun h chg c found job small => ⟨discard_drops h found job small, discard_ignored h found⟩

end Sys2Proof.Machine
end

section
/-! MODE_STAGE and what comes due of a staged change (R313 to R318). -/

namespace Sys2Proof.Machine

-- MODE_STAGE (R315, R316) -----------------------------------------------------------------------------------------------------

section
variable {s : State} {cid : Nat} {c : Cmd} {b : ModeBlk}

/-- Is a MODE_STAGE's change the keeper's to coordinate (R315)? -/
def keeperCoordinates (s : State) (c : Cmd) (b : ModeBlk) : Bool :=
  match findJob s c.pkt.job with | some j => b.scope == 0 && !j.peers.isEmpty && !s.domain.isKeeper | none => false

/-- The keeper that this module follows; itself where it follows none. -/
def followed (s : State) : Nat := match s.domain.keeper with | some k => k.1 | none => s.cfg.peerId

/-- A change that this module asks its keeper to coordinate (R315). -/
def asked (s : State) (cid : Nat) (c : Cmd) (b : ModeBlk) : Change :=
  { id := changeId 0 c.pkt.job b.epoch, scope := 0, job := c.pkt.job, epoch := b.epoch, barrier := b.barrier, items := b.items,
    peers := match findJob s c.pkt.job with | some j => s.cfg.peerId :: jobPeers s j | none => []
    cmd := some cid, remote := some (followed s), t0 := s.time, unacked := [], acked := false, ackAt := 0, holding := false, tApply := none, hops := 1 }

/-- The modules whose units a MODE_STAGE's change waits for, this one apart (R315). -/
def otherModules (s : State) (c : Cmd) : List Nat := match findJob s c.pkt.job with | some j => jobPeers s j | none => []

theorem modeStage_eq (r : RingRuns s cid 0xF10 c)
    (block : modeBlk (findJob s c.pkt.job) (rdStruct (asRead s c) c (descAddr (c.pkt.slot 0)) 64) = some b) :
    exec (.modeStage cid) s = .next (
      if keeperCoordinates s c b = true then
        sendDom (putChange (putCmd s { c with phase := .staged }) (asked s cid c b)) (followed s) mtStage (stageBody (asked s cid c b))
      else stageChange (putCmd s { c with phase := .staged }) b.scope (if b.scope = 1 then 0xFFFF else c.pkt.job) b.epoch b.barrier b.items
        (otherModules s c) (some cid)) := by
  obtain ⟨found, running, op⟩ := r.runs
  show execModeStage cid s = _
  unfold execModeStage
  rw [found]
  dsimp only
  rw [if_pos ⟨running, op⟩, block]
  rfl

theorem findCmd_staged (r : RingRuns s cid 0xF10 c) : findCmd (putCmd s { c with phase := .staged }) cid = some { c with phase := .staged } := by
  obtain ⟨id, listed⟩ := findCmd_mem r.runs.1
  exact findCmd_putCmd' s { c with phase := .staged } cid id listed

theorem keeperCoordinates_of {j : Job} (job : findJob s c.pkt.job = some j) :
    keeperCoordinates s c b = (b.scope == 0 && !j.peers.isEmpty && !s.domain.isKeeper) := by
  unfold keeperCoordinates
  rw [job]

theorem alone_coordinates (alone : ∀ j, findJob s c.pkt.job = some j → j.peers = []) : keeperCoordinates s c b = false ∧ otherModules s c = [] := by
  unfold keeperCoordinates otherModules
  cases job : findJob s c.pkt.job with
  | none => exact ⟨rfl, rfl⟩
  | some j => simp [jobPeers, alone j job]

/-- What a MODE_STAGE leaves, whoever coordinates its change. -/
structure ModeStaged (s t : State) (cid : Nat) (c : Cmd) (b : ModeBlk) (g : Change) : Prop where
  frame : Carried { s with cmds := t.cmds, changes := t.changes } t
  cmd : findCmd t cid = some { c with phase := .staged }
  found : findChange t (changeId b.scope c.pkt.job b.epoch) = some g
  block : g.scope = b.scope ∧ g.epoch = b.epoch ∧ g.barrier = b.barrier ∧ g.items = b.items ∧ g.cmd = some cid
  job : b.scope = 0 → g.job = c.pkt.job

theorem modeStage_asks (r : RingRuns s cid 0xF10 c) (module : b.scope = 0) :
    ModeStaged s (sendDom (putChange (putCmd s { c with phase := .staged }) (asked s cid c b)) (followed s) mtStage (stageBody (asked s cid c b))) cid c b (asked s cid c b) := by
  have told := sendDom_carried _ (followed s) mtStage (stageBody (asked s cid c b))
    (Carried.refl (putChange (putCmd s { c with phase := .staged }) (asked s cid c b)))
  refine ⟨?_, ?_, ?_, ⟨module.symm, rfl, rfl, rfl, rfl⟩, fun _ => rfl⟩
  · rw [told.cmds, told.changes]
    exact told
  · unfold findCmd
    rw [told.cmds]
    exact findCmd_staged r
  · rw [findChange_of told.changes, module]
    exact findChange_put _ (asked s cid c b)

theorem modeStage_coordinates (r : RingRuns s cid 0xF10 c) : ∃ g,
    ModeStaged s (stageChange (putCmd s { c with phase := .staged }) b.scope (if b.scope = 1 then 0xFFFF else c.pkt.job) b.epoch b.barrier b.items
      (otherModules s c) (some cid)) cid c b g ∧ (otherModules s c = [] → g.remote = none ∧ g.tApply = some (s.time + 1000)) := by
  obtain ⟨g, opened⟩ := stageChange_opens (putCmd s { c with phase := .staged }) b.scope (if b.scope = 1 then 0xFFFF else c.pkt.job) b.epoch b.barrier b.items
    (otherModules s c) (some cid)
  obtain ⟨carried, found, same, -, opens⟩ := opened
  have id : changeId b.scope (if b.scope = 1 then 0xFFFF else c.pkt.job) b.epoch = changeId b.scope c.pkt.job b.epoch := by
    unfold changeId
    split <;> rfl
  refine ⟨g, ⟨?_, ?_, id ▸ found, ?_, fun job => ?_⟩, fun alone => ?_⟩
  · rw [carried.cmds]
    exact carried
  · unfold findCmd
    rw [carried.cmds]
    exact findCmd_staged r
  · exact ⟨congrArg Change.scope same, congrArg Change.epoch same, congrArg Change.barrier same, congrArg Change.items same, congrArg Change.cmd same⟩
  · exact (congrArg Change.job same).trans (if_neg (by omega))
  · obtain ⟨-, a, set, -, exactly⟩ := opens ⟨by rw [alone]; rfl, rfl, rfl⟩
    exact ⟨congrArg Change.remote same, set.trans (congrArg some (exactly alone))⟩

theorem modeStage_stages (r : RingRuns s cid 0xF10 c)
    (block : modeBlk (findJob s c.pkt.job) (rdStruct (asRead s c) c (descAddr (c.pkt.slot 0)) 64) = some b) :
    ∃ t g, exec (.modeStage cid) s = .next t ∧ ModeStaged s t cid c b g ∧
      ((∀ j, findJob s c.pkt.job = some j → j.peers = []) → g.remote = none ∧ g.tApply = some (s.time + 1000)) ∧
      (∀ j, findJob s c.pkt.job = some j → j.peers ≠ [] → b.scope = 0 → s.domain.isKeeper = false → s.power.phase = 7 → ∀ k n,
        s.domain.keeper = some (k, n) → g.remote = some k ∧ g.tApply = none ∧ Posted s t (fun x => x.dst = k ∧ x.typ = mtStage ∧ x.body = stageBody g)) := by
  rw [modeStage_eq r block]
  cases far : keeperCoordinates s c b with
  | true =>
    have module : b.scope = 0 := by
      unfold keeperCoordinates at far
      split at far
      · simp only [Bool.and_eq_true, beq_iff_eq] at far
        exact far.1.1
      · cases far
    refine ⟨_, asked s cid c b, rfl, modeStage_asks r module, fun alone => ?_, fun j _ _ _ _ ready k n keeper => ?_⟩
    · rw [(alone_coordinates alone).1] at far
      cases far
    · have follows : followed s = k := by
        unfold followed
        rw [keeper]
      refine ⟨congrArg some follows, rfl, ?_⟩
      obtain ⟨x, ⟨dst, typ, -, body⟩, sent⟩ := sendDom_posted (putChange (putCmd s { c with phase := .staged }) (asked s cid c b)) (followed s) mtStage
        (stageBody (asked s cid c b)) (by show s.power.phase ≠ 0xF; omega)
      exact ⟨x, ⟨dst.trans follows, typ, body⟩, sent⟩
  | false =>
    obtain ⟨g, staged, alone⟩ := modeStage_coordinates r (b := b)
    refine ⟨_, g, rfl, staged, fun none => alone (alone_coordinates (b := b) none).2, fun j job peers module keeps => ?_⟩
    rw [keeperCoordinates_of job] at far
    simp [module, keeps, peers] at far

end

-- what comes due (R316 to R318) -----------------------------------------------------------------------------------------------

section
variable {s : State} {g : Change}

theorem Dropped.afterTime {u t : State} {now : Nat} {a : Nat} (h : Dropped u t g now) (before : Carried { s with time := a } u) : Dropped s t g now :=
  h.after (l := s.changes) before

theorem ackTimeout_drops (found : findChange s g.id = some g) (small : g.id < 2 ^ 32) (job : g.scope = 0) (waits : g.unacked ≠ []) (own : g.remote = none)
    (unset : g.tApply = none) : ∃ t, exec (.modeAckTimeout g.id) s = .next t ∧ Dropped s t g (max s.time (g.t0 + 10000000)) := by
  obtain ⟨x, l, unacked⟩ := List.exists_cons_of_ne_nil waits
  have before := changeAt_carried s (g.t0 + 10000000)
  have discards := sendDoms_carried (timeTo s (g.t0 + 10000000)) (g.peers.filter (fun p => !((timeTo s (g.t0 + 10000000)).domain.lost.contains p))) mtDiscard [g.id]
  generalize sent : (g.peers.filter (fun p => !((timeTo s (g.t0 + 10000000)).domain.lost.contains p))).foldl (fun s p => sendDom s p mtDiscard [g.id])
    (timeTo s (g.t0 + 10000000)) = u at discards
  have reported := raise_told (fire u 8 23) 8 0x19 g.job 0xFFFF 0 g.epoch (x.2 + x.1 * 2 ^ 16) 0 (fire_told u 8 23 (Told.refl u))
  generalize told : raise (fire u 8 23) 8 0x19 g.job 0xFFFF 0 g.epoch (x.2 + x.1 * 2 ^ 16) 0 = v at reported
  have all : Carried { s with time := max s.time (g.t0 + 10000000) } v := before.trans (discards.trans reported.carried)
  have dropped := (dropChange_drops v job small).afterTime all
  rw [show v.time = max s.time (g.t0 + 10000000) from all.time] at dropped
  refine ⟨dropChange v g, ?_, dropped⟩
  show execModeAckTimeout g.id s = _
  unfold execModeAckTimeout
  rw [found]
  dsimp only
  rw [unacked, own, unset]
  dsimp only
  rw [sent, told]

theorem stagedMode_expires (found : findChange s g.id = some g) (small : g.id < 2 ^ 32) (job : g.scope = 0) (far : g.remote ≠ none) (unset : g.tApply = none) :
    ∃ t, exec (.stagedModeExpiry g.id) s = .next t ∧ Dropped s t g (max s.time ((if g.acked = true then g.ackAt else g.t0) + 20000000)) := by
  have before := changeAt_carried s ((if g.acked = true then g.ackAt else g.t0) + 20000000)
  have dropped := (dropChange_drops (timeTo s ((if g.acked = true then g.ackAt else g.t0) + 20000000)) job small).afterTime before
  rw [before.time] at dropped
  refine ⟨_, ?_, dropped⟩
  show execStagedModeExpiry g.id s = _
  unfold execStagedModeExpiry
  rw [found]
  dsimp only
  rw [if_pos ⟨Option.isSome_iff_ne_none.mpr far, unset⟩]

theorem Meters.setChanges {s t : State} (h : Meters s t) (l : List Change) : Meters { s with changes := l } { t with changes := l } := { h with changes := rfl }

theorem startHold_holds (found : findChange s g.id = some g) (acked : g.acked = true) (unset : g.tApply = none) :
    ∃ t, exec (.modeStartHold g.id) s = .next t ∧ t.time = max s.time (g.ackAt + 500) ∧ findChange t g.id = some { g with holding := true } ∧
      Meters { s with time := t.time, changes := t.changes } t := by
  have before := timeTo_says s (g.ackAt + 500)
  refine ⟨putChange (timeTo s (g.ackAt + 500)) { g with holding := true }, ?_, before.time, findChange_put _ { g with holding := true }, ?_⟩
  · show execModeStartHold g.id s = _
    unfold execModeStartHold
    rw [found]
    dsimp only
    rw [if_pos ⟨acked, unset⟩]
  · have time : (putChange (timeTo s (g.ackAt + 500)) { g with holding := true }).time = max s.time (g.ackAt + 500) := before.time
    rw [time]
    exact before.setChanges _

theorem modeApply_applies {a : Nat} (found : findChange s g.id = some g) (job : g.scope = 0) (set : g.tApply = some a) :
    ∃ t, exec (.modeApply g.id) s = .next t ∧ InForce s t g (max s.time a) := by
  have before := changeAt_carried s a
  have forced := (applyChange_inForce (timeTo s a) job).after (l := s.changes) before
  rw [before.time] at forced
  refine ⟨_, ?_, forced⟩
  show execModeApply g.id s = _
  unfold execModeApply
  rw [found]
  dsimp only
  rw [set]

theorem unknown_change_stays {n : Nat} (none : findChange s n = none) :
    exec (.modeAckTimeout n) s = .next s ∧ exec (.stagedModeExpiry n) s = .next s ∧ exec (.modeStartHold n) s = .next s ∧ exec (.modeApply n) s = .next s := by
  show execModeAckTimeout n s = _ ∧ execStagedModeExpiry n s = _ ∧ execModeStartHold n s = _ ∧ execModeApply n s = _
  unfold execModeAckTimeout execStagedModeExpiry execModeStartHold execModeApply
  rw [none]
  exact ⟨rfl, rfl, rfl, rfl⟩

end

/-- Settles O44: MODE_STAGE by `modeStage_stages`, then one lemma for each thing that comes due of a staged change. -/
theorem modeChangesAreStagedAndApplied : Obligations.ModeChangesAreStagedAndApplied := by
  unfold Obligations.ModeChangesAreStagedAndApplied
  refine fun s => ⟨fun cid c b r block => ?_, fun g found small job => ⟨?_, ?_, ?_, ?_⟩, fun n => unknown_change_stays⟩
  · obtain ⟨t, g, row, staged, alone, far⟩ := modeStage_stages r block
    obtain ⟨scope, epoch, barrier, items, cmd⟩ := staged.block
    exact ⟨t, _, g, row, staged.frame, staged.cmd, rfl, rfl, staged.found, scope, epoch, barrier, items, cmd, staged.job, alone, far⟩
  · exact ackTimeout_drops found small job
  · exact stagedMode_expires found small job
  · exact startHold_holds found
  · exact fun a set => modeApply_applies found job set

end Sys2Proof.Machine
end

section
/-! JOB_SUBMIT, JOB_SUSPEND and JOB_RESUME (R296, R297). -/

namespace Sys2Proof.Machine

-- the state in which an effect acts -------------------------------------------------------------------------------------------

theorem consume_unheld {s : State} {c : Cmd} (free : (getLock s c.pkt.waitLock).holds = []) :
    (consume s c).objs = s.objs ∧ (consume s c).memRegs = s.memRegs := by
  refine ⟨(consume_noHolds c free (SameObjs.refl s)).objs, ?_⟩
  unfold consume
  dsimp only
  rw [show (chargeHolds c.pkt.waitThresh (getLock s c.pkt.waitLock).holds).2 = [] by rw [free]; rfl]
  simp

/-- Where nothing is staged and nothing held, an effect acts on the objects and the memory registers as they stood. -/
theorem beforeEffect_touchless {s : State} {c : Cmd} (h : Touchless s c) : (beforeEffect s c).objs = s.objs ∧ (beforeEffect s c).memRegs = s.memRegs := by
  obtain ⟨writes, -, -, holds⟩ := h
  unfold beforeEffect
  extract_lets same both z s1 loc s2 s3
  have bare : loc = [] := by
    show List.filter _ c.writes = []
    rw [writes]
    rfl
  have out : s2 = publishWrites s1 (jobKey s1 z.sess z.pkt.job) [] := by
    show poundPublish (markDirty (publishWrites _ _ loc) loc) _ loc = _
    rw [bare, markDirty_none]
    rfl
  have consumed : s3.objs = s.objs ∧ s3.memRegs = s.memRegs := by
    show (if z.pkt.waitThresh = 0 then s2 else consume s2 z).objs = _ ∧ (if z.pkt.waitThresh = 0 then s2 else consume s2 z).memRegs = _
    rw [out]
    split
    · exact ⟨rfl, rfl⟩
    · next waits => exact consume_unheld (s := publishWrites s1 (jobKey s1 z.sess z.pkt.job) []) (holds.resolve_left waits)
  clear_value same
  cases same with
  | some l => exact ⟨((signalLock_sameObjs _ _ _ _ _ _ (SameObjs.refl s3)).objs).trans consumed.1, (signalLock_memRegs ..).trans consumed.2⟩
  | none => exact consumed

/-- An operation commits by an effect that is known where it acts: after what counts its run, published and consumed. -/
theorem runOp_commits_where {code cid : Nat} {compute : State → Cmd → Out} {eff : State → Cmd → State} {s x : State} {c : Cmd} {r : Stg}
    (h : RingRuns s cid code c) (run : compute s c = .done r) (near : Near r) (cmds : x.cmds = s.cmds)
    (acts : ∀ w, Beside s w → Meters s w → Beside x (eff (beforeEffect w (withRun c r)) (atCommit s (withRun c r)))) :
    ∃ t, runOp code compute eff cid s = .next t ∧ Recorded s cid c r t ∧ Beside x t := by
  obtain ⟨found, running, op⟩ := h.runs
  obtain ⟨k, ring⟩ := h.ring
  obtain ⟨id, there⟩ := findCmd_mem found
  have self : (withRun c r).self ∈ s.cmds.map Cmd.self :=
    (List.mem_map_of_mem (List.mem_of_find?_eq_some found) : c.self ∈ s.cmds.map Cmd.self)
  obtain ⟨w, beside, -, meters, staged⟩ := stage_near eff s c r near.wait near.near
  obtain ⟨-, v, -, after, -, -, -, -, -, form⟩ := commitWith_all (fun _ z => eff (beforeEffect w (withRun c r)) z) s w (withRun c r) beside self
  rw [← commitWith_acts, recorded_ring w v (withRun c r) k ring] at form
  have signals : atCommit w (withRun c r) = atCommit s (withRun c r) := by
    unfold atCommit
    rw [beside.time, (meters.signals (withRun c r)).2.2]
  rw [signals] at after
  have ends : Beside x v := (acts w beside meters).trans after
  refine ⟨putCmd v (recordOf w (withRun c r)), ?_, ?_, putCmd_beside v _ (by rw [cmds]; exact self) ends⟩
  · show runOp code compute eff cid s = _
    rw [← form, ← staged]
    unfold runOp
    rw [found]
    dsimp only
    rw [if_pos ⟨running, op⟩, run]
    dsimp only
    rw [near.evs]
    rfl
  · have put := findCmd_putCmd' v (recordOf w (withRun c r)) cid id (by rw [ends.ids, cmds]; exact there)
    exact ⟨recordOf w (withRun c r), put, rfl, rfl, rfl, rfl, rfl, beside.time, rfl, congrArg (List.filter _) (cutFar_near _ near.near)⟩

-- JOB_SUBMIT (R296) -----------------------------------------------------------------------------------------------------------

section
variable {s : State} {cid : Nat} {c : Cmd}

/-- A job that begins in the module, with its context on the ring that submitted it; its session counts it (R296). -/
def submitted (s : State) (c : Cmd) (j : Job) : State :=
  setCounts { s with jobs := s.jobs ++ [j], ctxs := s.ctxs ++ [⟨j.id, ctxOf c, [], []⟩] } c.sess
    { getCounts s c.sess with submitted := (getCounts s c.sess).submitted + 1, running := (getCounts s c.sess).running + 1 }

theorem ok_of_else {ε α : Type} {p : Prop} [Decidable p] {e : ε} {y : Except ε α} {a : α} (h : (if p then .error e else y) = .ok a) : y = .ok a := by
  split at h
  · cases h
  · exact h

theorem jobOf_says {s : State} {c : Cmd} {bs : List Byte} {j : Job} (h : jobOf s c bs = .ok j) :
    j.id = c.pkt.job ∧ j.sess = c.sess ∧ j.st = .running ∧ j.epoch = 1 ∧ j.trapMade = false := by
  unfold jobOf at h
  extract_lets at h
  obtain rfl := Except.ok.inj (ok_of_else (ok_of_else (ok_of_else (ok_of_else h))))
  exact ⟨rfl, rfl, rfl, rfl, rfl⟩

theorem getCounts_setCounts (s : State) (i : Nat) (k : SlotCounts) : getCounts (setCounts s i k) i = k :=
  (tget_tset s.counts i i k).trans (if_pos rfl)

theorem jobSubmit_submits (h : RingRuns s cid 0xF01 c) (free : NoHolds s c) {j : Job}
    (job : jobOf (asRead s c) c (rdStruct (asRead s c) c (descAddr (c.pkt.slot 0)) 256) = .ok j) :
    ∃ t, exec (.jobSubmit cid) s = .next t ∧ Recorded s cid c Stg.none t ∧ Beside (submitted s c j) t := by
  show ∃ t, execJobSubmit cid s = _ ∧ _
  unfold execJobSubmit
  refine runOp_commits_where (x := submitted s c j) h (by rw [job]) near_none rfl fun w beside meters => ?_
  have self : (withRun c Stg.none).self ∈ s.cmds.map Cmd.self := (List.mem_map_of_mem (List.mem_of_find?_eq_some h.runs.1) : c.self ∈ s.cmds.map Cmd.self)
  have acts := beforeEffect_beside beside self
  have touchless : Touchless w (withRun c Stg.none) := by
    refine ⟨rfl, rfl, free.1, ?_⟩
    unfold getLock
    rw [meters.locks]
    exact free.2
  obtain ⟨objs, memRegs⟩ := beforeEffect_touchless touchless
  rw [meters.objs] at objs
  rw [meters.memRegs] at memRegs
  generalize beforeEffect w (withRun c Stg.none) = u at acts objs memRegs
  have read : ∀ bs, jobOf (asRead u (atCommit s (withRun c Stg.none))) (atCommit s (withRun c Stg.none)) bs = jobOf (asRead s c) c bs :=
    jobOf_congr acts.cfg acts.bufs acts.loans acts.pools acts.jobs objs memRegs acts.sessions rfl rfl rfl rfl rfl rfl rfl
  have bytes : rdStruct (asRead u (atCommit s (withRun c Stg.none))) (atCommit s (withRun c Stg.none)) (descAddr ((atCommit s (withRun c Stg.none)).pkt.slot 0)) 256 =
      rdStruct (asRead s c) c (descAddr (c.pkt.slot 0)) 256 :=
    rdStruct_plain (s := asRead s c) (w := asRead u (atCommit s (withRun c Stg.none))) acts.cfg rfl rfl rfl rfl objs ..
  rw [read, bytes, job]
  dsimp only
  have counts : getCounts u c.sess = getCounts s c.sess := by
    unfold getCounts
    rw [acts.counts]
  unfold submitted
  rw [show (atCommit s (withRun c Stg.none)).sess = c.sess from rfl, counts]
  unfold setCounts
  rw [acts.jobs, acts.ctxs, acts.counts]
  exact acts.jobs3_set _ _ _

theorem jobSubmit_refused (h : RingRuns s cid 0xF01 c) {e : Nat × Nat}
    (bad : jobOf (asRead s c) c (rdStruct (asRead s c) c (descAddr (c.pkt.slot 0)) 256) = .error e) :
    ∃ t, exec (.jobSubmit cid) s = .next t ∧ Ended s t c e.1 e.2 := by
  show ∃ t, execJobSubmit cid s = _ ∧ _
  unfold execJobSubmit
  exact runOp_stop h.runs (by rw [bad])

-- JOB_SUSPEND and JOB_RESUME (R297) -------------------------------------------------------------------------------------------

section
variable {j : Job} (job : findJob s c.pkt.job = some j)
include job

theorem ending_stays (ends : j.st = .ending) :
    (RingRuns s cid 0xF03 c → ∃ t, exec (.jobSuspend cid) s = .next t ∧ Ended s t c stBad (badAt 2 0xFF)) ∧
    (RingRuns s cid 0xF04 c → ∃ t, exec (.jobResume cid) s = .next t ∧ Ended s t c stBad (badAt 2 0xFF)) := by
  have stops : jobStateRun s c = .stop stBad (badAt 2 0xFF) [] := by
    unfold jobStateRun
    rw [job]
    exact if_pos ends
  exact ⟨fun h => runOp_stop h.runs stops, fun h => runOp_stop h.runs stops⟩

theorem jobStateRun_done (runs : j.st ≠ .ending) : jobStateRun s c = .done Stg.none := by
  unfold jobStateRun
  rw [job]
  exact if_neg runs

/-- A job that JOB_SUSPEND stops (R297). -/
def Job.suspend (j : Job) : Job := { j with st := .suspended (j.st == .trapped) }

/-- A job that JOB_RESUME lets go on (R297). -/
def Job.resume (j : Job) : Job :=
  match j.st with
  | .suspended tr => { j with st := if tr then .trapped else .running }
  | .trapped => { j with st := .running, trapMade := false }
  | _ => j

theorem suspendEff_suspends {u : State} {z : Cmd} (acts : Beside s u) (pkt : z.pkt = c.pkt) :
    Beside { s with jobs := s.jobs.map (fun x => if x.id = j.id ∧ (j.st = .running ∨ j.st = .trapped) then x.suspend else x) } (suspendEff u z) := by
  have found : findJob u z.pkt.job = some j := by
    unfold findJob at job ⊢
    rw [acts.jobs, pkt]
    exact job
  have stops : j.st = .running ∨ j.st = .trapped → Beside { s with jobs := s.jobs.map (fun x => if x.id = j.id ∧ (j.st = .running ∨ j.st = .trapped) then x.suspend else x) }
      (killAll (updJob u j.id Job.suspend) 0 (fun x => x.pkt.job == j.id && (onAnyDie x || initPromo x) && x.id != z.id && !x.debt)) := fun st => by
    refine killAll_beside 0 _ ?_
    simp only [st, and_true]
    unfold updJob
    rw [acts.jobs]
    exact acts.jobs_set _
  unfold suspendEff
  rw [found]
  dsimp only
  split
  · next st => exact stops (.inl st)
  · next st => exact stops (.inr st)
  · next run trap =>
    have goes : ¬ (j.st = .running ∨ j.st = .trapped) := fun st => st.elim run trap
    simp only [goes, and_false, if_false, List.map_id']
    exact acts

theorem jobSuspend_suspends (runs : j.st ≠ .ending) (h : RingRuns s cid 0xF03 c) :
    ∃ t, exec (.jobSuspend cid) s = .next t ∧ Recorded s cid c Stg.none t ∧
      Beside { s with jobs := s.jobs.map (fun x => if x.id = j.id ∧ (j.st = .running ∨ j.st = .trapped) then x.suspend else x) } t :=
  runOp_commits_effect h (jobStateRun_done job runs) near_none rfl fun _ acts => suspendEff_suspends job acts rfl

theorem jobResume_resumes (runs : j.st ≠ .ending) (h : RingRuns s cid 0xF04 c) :
    ∃ t, exec (.jobResume cid) s = .next t ∧ Recorded s cid c Stg.none t ∧
      Beside { s with jobs := s.jobs.map (fun x => if x.id = j.id then x.resume else x) } t := by
  have id : j.id = c.pkt.job := by simpa using List.find?_some job
  refine runOp_commits_effect h (jobStateRun_done job runs) near_none rfl fun u acts => ?_
  have resumed : resumeEff u (atCommit s (withRun c Stg.none)) = { u with jobs := s.jobs.map (fun x => if x.id = j.id then x.resume else x) } := by
    rw [id, ← acts.jobs]
    rfl
  rw [resumed]
  exact acts.jobs_set _

end

end

end Sys2Proof.Machine
end

section
/-! The end of a job (R298): no byte stays under its key, and what its buffers leave of the rings that they served. -/

namespace Sys2Proof.Machine

-- the memory key of a job that has ended (R298, R412) ---------------------------------------------------------------------------

/-- No active job has a memory key, and no byte is under it. -/
def KeyGone (K : Nat) (s : State) : Prop := (∀ x ∈ s.jobs, x.memKey ≠ K) ∧ ∀ k ∈ s.keys, k.2 ≠ K

section
variable {K : Nat} {s t : State}

theorem KeyGone.of (h : KeyGone K s) (jobs : t.jobs = s.jobs) (keys : t.keys = s.keys) : KeyGone K t := by
  unfold KeyGone
  rw [jobs, keys]
  exact h

theorem KeyGone.meters (h : KeyGone K s) (m : Meters s t) : KeyGone K t := h.of m.jobs m.keys

theorem eq_or_mem_of_tput {α : Type} {t : List (Nat × α)} {i : Nat} {x : α} {e : Nat × α} (h : e ∈ tput t i x) : e = (i, x) ∨ e ∈ t := by
  induction t with
  | nil => exact .inl (List.mem_singleton.mp h)
  | cons y r ih =>
    unfold tput at h
    split_ifs at h
    · rcases List.mem_cons.mp h with rfl | later
      · exact .inr List.mem_cons_self
      · exact (ih later).imp_right (List.mem_cons_of_mem _)
    · exact (List.mem_cons.mp h).imp_right (List.mem_cons_of_mem _)
    · exact List.mem_cons.mp h

/-- The keys of a written range: its writer's, and those that were there. -/
theorem mem_setKeys {keys : List (Nat × Nat)} {a key n : Nat} {e : Nat × Nat} (h : e ∈ setKeys keys a key n) : e.2 = key ∨ e ∈ keys := by
  induction n generalizing keys a with
  | zero => exact .inr h
  | succ n ih =>
    refine (ih h).elim .inl fun there => ?_
    split at there
    · exact (eq_or_mem_of_tput there).imp_left fun is => congrArg Prod.snd is
    · exact .inr (List.mem_filter.mp there).1

theorem trPut_keyGone (h : KeyGone K s) (t : Trace) (slot : Nat) (bs : List Byte) : KeyGone K (trPut s t slot bs) := by
  unfold trPut
  dsimp only
  split
  · exact h
  · next j found =>
    split
    · exact ⟨h.1, fun k there => (mem_setKeys there).elim (fun is => is ▸ h.1 j (List.mem_of_find?_eq_some found)) (h.2 k)⟩
    · exact h

theorem traceRec_keyGone (h : KeyGone K s) (d : Nat) (r : TrRec) : KeyGone K (traceRec s d r) := by
  unfold traceRec
  extract_lets t n mode isTrig slot full after s1 t1 pre k t2 g nx t2' gr res s2 src t3 fl stop s3
  have put : KeyGone K s1 := trPut_keyGone h ..
  have both : KeyGone K s2 := by
    show KeyGone K (if isTrig = true then (fire s1 d 200, t2) else if _ then (trPut s1 t nx (gr.bytes false), t2') else (s1, _)).1
    split
    · exact put.meters (fire_meters _ _ _ (Meters.refl s1))
    · split
      · exact trPut_keyGone put ..
      · exact put
  have counted : KeyGone K s3 := both.meters (count_meters _ _ _ _ _ _ (Meters.refl s2))
  split
  · exact h
  · split
    · exact (counted.of rfl rfl : KeyGone K (setTrace s3 d (trStop t3))).meters (fire_meters _ _ _ (Meters.refl _))
    · exact counted.of rfl rfl

theorem fireMsix_keyGone (h : KeyGone K s) (v : Nat) : KeyGone K (fireMsix s v) := by
  unfold fireMsix
  split
  · exact h.of rfl rfl
  · exact h

theorem deliver_keyGone (h : KeyGone K s) (e : Event) (ses : Option Nat) : KeyGone K (deliver s e ses) := by
  unfold deliver
  extract_lets who s1 wantMod r src s2
  have first : KeyGone K s1.1 := by
    unfold s1
    generalize who = owner
    cases owner with
    | none => exact h
    | some x => exact h.of rfl rfl
  have both : KeyGone K s2.1 := by
    unfold s2
    split
    · exact first.of rfl rfl
    · exact first
  split
  · exact fireMsix_keyGone both 129
  · exact both

theorem raiseFor_keyGone (h : KeyGone K s) (place code : Nat) (failed : Bool) (ses : Option Nat) (job layer seq d0 d1 d2 : Nat) :
    KeyGone K (raiseFor s place code failed ses job layer seq d0 d1 d2) := by
  unfold raiseFor raiseOp
  extract_lets d e x s1 s2 s3 s4
  have logged : KeyGone K s1 := h.of rfl rfl
  have traced : KeyGone K s3 := traceRec_keyGone (logged.meters (count_meters _ _ _ _ _ _ (Meters.refl s1))) ..
  have fired : KeyGone K s4 := traced.meters (fire_meters _ _ _ (Meters.refl s3))
  split
  · exact fired.of rfl rfl
  · exact deliver_keyGone fired e ses

theorem ringFault_keyGone (h : KeyGone K s) (r k : Nat) : KeyGone K (ringFault s r k) := by
  unfold ringFault
  extract_lets x disabled dropped fired silent
  have unbuffered : KeyGone K dropped := h.of rfl rfl
  have told : KeyGone K fired := by
    unfold fired
    split
    · exact unbuffered
    · exact unbuffered.meters (fire_meters _ _ _ (Meters.refl dropped))
  have quiet : KeyGone K silent := by
    unfold silent
    split
    · exact told.of rfl rfl
    · exact told
  exact raiseFor_keyGone quiet ..

theorem releaseBufs_keyGone (h : KeyGone K s) (p : HostBuf → Bool) : KeyGone K (releaseBufs s p) := by
  unfold releaseBufs
  refine foldl_keeps (P := KeyGone K) (fun x r gone => ?_) _ (h.of rfl rfl)
  split
  · exact ringFault_keyGone gone r 0
  · exact gone

end

-- the rings that a buffer served (R267, R391) -----------------------------------------------------------------------------------

/-- As `Told`, the rings, the buffers and the commands apart. -/
def ToldButRings (s t : State) : Prop := Told { s with rings := t.rings, bufs := t.bufs, cmds := t.cmds } t

section
variable {a b c : State}

theorem Told.setRings {s t : State} (h : Told s t) (r : List (Nat × Ring)) (l : List HostBuf) (m : List Cmd) :
    Told { s with rings := r, bufs := l, cmds := m } { t with rings := r, bufs := l, cmds := m } :=
  { h with rings := rfl, bufs := rfl, cmds := rfl }

theorem ToldButRings.trans (h : ToldButRings a b) (g : ToldButRings b c) : ToldButRings a c := (Told.setRings h _ _ _).trans g

theorem Told.butRings (h : Told a b) : ToldButRings a b := h.setRings _ _ _

end

theorem ringFault_told (s : State) (r k : Nat) : ToldButRings s (ringFault s r k) := by
  unfold ringFault
  extract_lets x disabled dropped fired silent
  have first : ToldButRings s dropped := Told.refl dropped
  have told : ToldButRings s fired := first.trans (Told.ite (Told.refl _) (fire_told _ _ _ (Told.refl dropped))).butRings
  have quiet : ToldButRings fired silent := by
    unfold silent
    split
    · exact (Told.refl _ : Told { fired with cmds := _ } _)
    · exact Told.refl fired
  exact (told.trans quiet).trans (raiseFor_told silent _ _ _ _ _ _ _ _ _ _ (Told.refl silent)).butRings

theorem releaseBufs_told (s : State) (p : HostBuf → Bool) : ToldButRings s (releaseBufs s p) := by
  unfold releaseBufs
  refine foldl_keeps (P := ToldButRings s) (fun x r told => ?_) _ (Told.refl _)
  split
  · exact told.trans (ringFault_told x r 0)
  · exact told

end Sys2Proof.Machine
end

section
/-! JOB_END: everything that belongs to a job is released, and its waiting JOB_ENDs commit in one step (R298). -/

namespace Sys2Proof.Machine

-- the release of a job, in its steps (R298) -------------------------------------------------------------------------------------

theorem killWbs_beside (s : State) (p : ResObj → Bool) : Beside s (killWbs s p) :=
  Beside.foldl _ (Beside.refl s) fun _ _ h => killWb_beside _ _ _ (killWb_beside _ _ _ h)

/-- A job's lenders learn of its end (R356). -/
def tellLenders (s : State) (j : Job) (job : Nat) : State :=
  if hasLink s j.sess job then (lenderPeers s job).foldl (fun s p => send s ⟨p, mtLoanEnd, 7, job, 0, 0, 0xFF, 0, 0, [], []⟩) s else s

theorem tellLenders_beside (s : State) (j : Job) (job : Nat) : Beside s (tellLenders s j job) := by
  unfold tellLenders
  split
  · exact Beside.foldl _ (Beside.refl s) fun _ _ h => send_beside _ _ h
  · exact Beside.refl s

/-- The locks that are granted to a job are free, and its basin regions zero (R263, R298). -/
def clearBasins (s : State) (job : Nat) : State :=
  let s := { s with locks := s.locks.filter (fun l => !(l.2.job == job)) }
  let s := (s.flights.filter (fun f => f.2.job == job)).foldl (fun s f => { s with mem := memZero s.mem f.2.basinBase f.2.basinSize }) s
  (s.pools.filter (fun f => f.2.job == job)).foldl (fun s f => if isHbm f.2.base then s else { s with mem := memZero s.mem f.2.base f.2.size }) s

theorem clearBasins_beside (s : State) (job : Nat) : Beside s (clearBasins s job) := by
  unfold clearBasins
  extract_lets unlocked flown
  have flights : Beside s flown := Beside.foldl _ (Beside.set (Beside.refl s) : Beside s unlocked) fun _ _ h => Beside.set h
  exact Beside.foldl _ flights fun _ _ h => Beside.ite h (Beside.set h)

/-- The captures of a job stop (R298, R439). -/
def stopTraces (s : State) (job : Nat) : State :=
  (s.traces.filter (fun t => t.2.job == job)).foldl (fun s t =>
    setTrace s t.1 { (if t.2.state = 0 ∨ t.2.state = 3 then t.2 else trStop t.2) with ctrl := setBit t.2.ctrl 0 false, state := 0 }) s

theorem stopTraces_beside (s : State) (job : Nat) : Beside s (stopTraces s job) :=
  Beside.foldl _ (Beside.refl s) fun _ _ h => setTrace_beside _ _ _ h

/-- The tables without a job's entries (R298). -/
def dropJob (s : State) (j : Job) (job : Nat) : State :=
  { s with
    jobs := s.jobs.filter (fun x => !(x.id == job)), ctxs := s.ctxs.filter (fun x => !(x.job == job)),
    flights := s.flights.filter (fun x => !(x.2.job == job)), pools := s.pools.filter (fun x => !(x.2.job == job)),
    objs := s.objs.filter (fun x => !(x.2.job == job)), pfs := s.pfs.filter (fun x => !(x.2.job == job)),
    shards := s.shards.filter (fun x => !(x.2.job == job)), fsets := s.fsets.filter (fun x => !(x.2.job == job)),
    scheds := s.scheds.filter (fun x => !(x.job == job)), census := s.census.filter (fun x => !(x.1 == job)),
    watch := s.watch.filter (fun x => !(x.1.1 == job)), twatch := s.twatch.filter (fun x => !(x.job == job)),
    suspects := s.suspects.filter (fun x => !(x.1.1 == job)), links := s.links.filter (fun x => !(x.1.2 == job)),
    rounds := s.rounds.filter (fun x => !(x.job == job)), streams := s.streams.filter (fun x => !(x.job == job)),
    ended := s.ended.filter (fun x => !(x.2.1 == job)),
    cxl := { s.cxl with apertures := s.cxl.apertures.filter (fun a => !(a.2 == (job, j.sess))) },
    domain := { s.domain with rx := s.domain.rx.filter (fun x => !(x.1.2 == job)), tx := s.domain.tx.filter (fun x => !(x.1.2 == job)),
                              permutes := s.domain.permutes.filter (fun x => !(x.1 == job)) } }

/-- Its session counts a job that has ended (R298). -/
def countEnd (s : State) (ses : Nat) (completed : Bool) : State :=
  let k := getCounts s ses
  setCounts s ses { k with running := k.running - 1, completed := k.completed + b2n completed, killed := k.killed + b2n (!completed) }

/-- A state in which a job's tables are still those that it had, its key dead. -/
def stripped (s : State) (j : Job) (job : Nat) : State :=
  killKey (stopTraces (clearBasins (tellLenders (killWbs s (fun o => o.job == job)) j job) job) job) j.memKey

theorem releaseJob_eq {s : State} {job : Nat} {j : Job} (found : findJob s job = some j) (completed : Bool) :
    releaseJob s job completed =
      countEnd (releaseBufs (dropJob (stripped s j job) j job) (fun b => b.sess == j.sess && b.job == job && b.forRing.isNone)) j.sess completed := by
  unfold releaseJob
  split
  case h_1 none => rw [found] at none; cases none
  case h_2 i here =>
    obtain rfl : j = i := Option.some.inj (found.symm.trans here)
    extract_lets killed told unlocked flown cleared stopped dead cxl domain dropped freed k
    have tells : told = tellLenders killed j job := rfl
    have clears : cleared = clearBasins told job := rfl
    have stops : stopped = stopTraces cleared job := rfl
    have strips : dead = stripped s j job := by
      show killKey stopped j.memKey = _
      rw [stops, clears, tells]
      rfl
    have drops : dropped = dropJob dead j job := rfl
    show countEnd (releaseBufs dropped _) j.sess completed = _
    rw [drops, strips]

theorem stripped_beside (s : State) (j : Job) (job : Nat) : Beside s (stripped s j job) := by
  have told := (killWbs_beside s (fun o => o.job == job)).trans (tellLenders_beside _ j job)
  exact Beside.set ((told.trans (clearBasins_beside _ job)).trans (stopTraces_beside _ job))

theorem stripped_keys {s : State} {j : Job} {job : Nat} (key : j.memKey ≠ deadKey) : ∀ k ∈ (stripped s j job).keys, k.2 ≠ j.memKey := by
  intro k there
  obtain ⟨x, -, is⟩ := List.mem_map.mp (show k ∈ List.map _ _ from there)
  rw [← is]
  split
  · exact key.symm
  · assumption

theorem releaseJob_jobGone {s v : State} {j : Job} (before : ButCmds s v) (found : findJob v j.id = some j) (completed : Bool) :
    JobGone s (releaseJob v j.id completed) j := by
  rw [releaseJob_eq found]
  have same : ButCmds s (stripped v j j.id) := before.trans (stripped_beside v j j.id).butCmds
  have keys : j.memKey ≠ deadKey → ∀ k ∈ (stripped v j j.id).keys, k.2 ≠ j.memKey := stripped_keys
  generalize stripped v j j.id = w at same keys
  have told := releaseBufs_told (dropJob w j j.id) (fun b => b.sess == j.sess && b.job == j.id && b.forRing.isNone)
  have noKey : KeyGone j.memKey (dropJob w j j.id) → _ := fun gone =>
    releaseBufs_keyGone gone (fun b => b.sess == j.sess && b.job == j.id && b.forRing.isNone)
  generalize releaseBufs (dropJob w j j.id) (fun b => b.sess == j.sess && b.job == j.id && b.forRing.isNone) = t at told noKey
  have jobs : w.jobs = s.jobs := same.jobs
  exact {
    jobs := told.jobs.trans (congrArg (List.filter _) same.jobs)
    ctxs := told.ctxs.trans (congrArg (List.filter _) same.ctxs)
    flights := told.flights.trans (congrArg (List.filter _) same.flights)
    pools := told.pools.trans (congrArg (List.filter _) same.pools)
    pfs := told.pfs.trans (congrArg (List.filter _) same.pfs)
    shards := told.shards.trans (congrArg (List.filter _) same.shards)
    fsets := told.fsets.trans (congrArg (List.filter _) same.fsets)
    scheds := told.scheds.trans (congrArg (List.filter _) same.scheds)
    census := told.census.trans (congrArg (List.filter _) same.census)
    watch := told.watch.trans (congrArg (List.filter _) same.watch)
    twatch := told.twatch.trans (congrArg (List.filter _) same.twatch)
    links := told.links.trans (congrArg (List.filter _) same.links)
    rounds := told.rounds.trans (congrArg (List.filter _) same.rounds)
    streams := told.streams.trans (congrArg (List.filter _) same.streams)
    objs := fun e there => by
      have objs : t.objs = w.objs.filter (fun x => !(x.2.job == j.id)) := told.objs
      obtain ⟨-, other⟩ := List.mem_filter.mp (show e ∈ w.objs.filter _ from objs ▸ there)
      simpa using other
    keys := fun key single => by
      refine (noKey ⟨fun x there => ?_, keys key⟩).2
      obtain ⟨listed, other⟩ := List.mem_filter.mp (show x ∈ w.jobs.filter _ from there)
      exact single x (jobs ▸ listed) (by simpa using other)
    time := told.time.trans same.time
    sessions := told.sessions.trans same.sessions
    cfg := told.cfg.trans same.cfg }

-- JOB_END (R298) ----------------------------------------------------------------------------------------------------------------

theorem commitJobEnds_jobGone {s : State} {j : Job} (found : findJob s j.id = some j) (killed : Bool) : JobGone s (commitJobEnds s j.id killed) j := by
  unfold commitJobEnds
  extract_lets v
  have commits : ButCmds s v := foldl_keeps (P := ButCmds s) (fun x i before => by
    split
    · next c there => exact before.trans (commitWith_butCmds (c := { c with phase := .staged }) (show c.self ∈ _ from find_map_self there))
    · exact before) _ (ButCmds.refl s)
  refine releaseJob_jobGone commits ?_ (!killed)
  unfold findJob at found ⊢
  rw [show v.jobs = s.jobs from commits.jobs]
  exact found

section
variable {s : State} {cid : Nat} {c : Cmd} {j : Job}

theorem jobEnd_eq (h : Runs s cid 0xF02 c) : exec (.jobEnd cid) s = .next (
    if bit (c.pkt.slot 0) 0 = true then endJob s c.pkt.job
    else if (jobCmds s c.pkt.job).isEmpty = true then commitJobEnds s c.pkt.job false
    else s) := by
  obtain ⟨found, running, op⟩ := h
  show execJobEnd cid s = _
  unfold execJobEnd
  rw [found]
  dsimp only
  rw [if_pos ⟨running, by simp [isJobEnd, op]⟩]

theorem endJob_jobGone (found : findJob s c.pkt.job = some j) :
    JobGone (endAll s stKilled 0 (fun x => x.pkt.job == c.pkt.job && !(isJobEnd x))) (endJob s c.pkt.job) j := by
  have id : j.id = c.pkt.job := by simpa using List.find?_some found
  have jobs := endAll_jobs s stKilled 0 (fun x => x.pkt.job == c.pkt.job && !(isJobEnd x))
  unfold endJob
  generalize endAll s stKilled 0 (fun x => x.pkt.job == c.pkt.job && !(isJobEnd x)) = u at jobs
  rw [← id] at found ⊢
  refine commitJobEnds_jobGone ?_ true
  unfold findJob at found ⊢
  rw [jobs]
  exact found

/-- Where a job has no command but its JOB_ENDs, none is killed. -/
theorem endAll_none (none : jobCmds s c.pkt.job = []) : endAll s stKilled 0 (fun x => x.pkt.job == c.pkt.job && !(isJobEnd x)) = s := by
  have killed : s.cmds.filter (fun x => (x.pkt.job == c.pkt.job && !(isJobEnd x)) && x.phase != .committed) = [] := by
    unfold jobCmds at none
    rw [List.filter_eq_nil_iff] at none ⊢
    intro x there both
    exact none x there (Bool.and_eq_true_iff.mp both).1
  unfold endAll
  rw [killed]
  rfl

theorem jobEnd_ends (h : Runs s cid 0xF02 c) (found : findJob s c.pkt.job = some j) :
    (jobCmds s c.pkt.job = [] → ∃ t, exec (.jobEnd cid) s = .next t ∧ JobGone s t j) ∧
    (bit (c.pkt.slot 0) 0 = true → ∃ t, exec (.jobEnd cid) s = .next t ∧
      JobGone (endAll s stKilled 0 (fun x => x.pkt.job == c.pkt.job && !(isJobEnd x))) t j) ∧
    (bit (c.pkt.slot 0) 0 = false → jobCmds s c.pkt.job ≠ [] → exec (.jobEnd cid) s = .next s) := by
  rw [jobEnd_eq h]
  refine ⟨fun none => ⟨_, rfl, ?_⟩, fun kill => ⟨_, rfl, ?_⟩, fun waits some => ?_⟩
  · split
    · have gone := endJob_jobGone found
      rw [endAll_none none] at gone
      exact gone
    · rw [if_pos (List.isEmpty_iff.mpr none)]
      have id : j.id = c.pkt.job := by simpa using List.find?_some found
      rw [← id] at found ⊢
      exact commitJobEnds_jobGone found false
  · rw [if_pos kill]
    exact endJob_jobGone found
  · rw [if_neg (by simp [waits]), if_neg (fun empty => some (List.isEmpty_iff.mp empty))]

end

/-- Settles O30, one lemma for each instruction and what it finds: JOB_SUBMIT by `jobSubmit_submits` and `jobSubmit_refused`, an Ending job by
`ending_stays`, JOB_SUSPEND by `jobSuspend_suspends`, JOB_RESUME by `jobResume_resumes`, JOB_END by `jobEnd_ends`. -/
theorem jobsRunAndEnd : Obligations.JobsRunAndEnd := by
  unfold Obligations.JobsRunAndEnd
  refine fun s cid c => ⟨fun h free j job => ?_, fun h e bad => jobSubmit_refused h bad, fun j => ending_stays, fun j job runs => ⟨?_, ?_⟩,
    fun h j found => jobEnd_ends h found⟩
  · obtain ⟨t, row, recorded, beside⟩ := jobSubmit_submits h free job
    refine ⟨t, row, recorded, ?_, ?_, jobOf_says job⟩
    · rw [beside.counts]
      exact beside
    · have counts : getCounts t c.sess = getCounts (submitted s c j) c.sess := by
        unfold getCounts
        rw [beside.counts]
      exact counts.trans (getCounts_setCounts _ _ _)
  · exact jobSuspend_suspends job runs
  · exact jobResume_resumes job runs

end Sys2Proof.Machine
end

section
/-! Flits: what a Towpath port does with one that it receives, and how what waits is offered again (R333 to R336, R343, R371). -/

namespace Sys2Proof.Machine

-- ports and what waits ------------------------------------------------------------------------------------------------------

theorem releaseAll_none {s : State} (held : s.held = []) (transit : s.transit = []) : releaseAll s = s := by
  unfold releaseAll
  rw [held, transit]
  show { s with transit := [], held := [] } = s
  rw [← held, ← transit]

theorem PortIs.refl (s : State) (p : Nat) : PortIs s s p (getPort s p) := ⟨Carried.refl s, rfl, fun _ _ => rfl⟩

theorem PortIs.trans {s u t : State} {p : Nat} {x y : Port} (h : PortIs s u p x) (g : PortIs u t p y) : PortIs s t p y := by
  obtain ⟨first, -, others⟩ := h
  obtain ⟨rest, here, others'⟩ := g
  refine ⟨?_, here, fun q other => (others' q other).trans (others q other)⟩
  have moved : Carried { s with ports := t.ports } { u with ports := t.ports } := { first with ports := fun _ => rfl }
  exact moved.trans rest

theorem PortIs.then {s u t : State} {p : Nat} {x : Port} (h : PortIs s u p x) (g : Carried u t) : PortIs s t p x := by
  obtain ⟨first, here, others⟩ := h
  refine ⟨?_, (g.ports p).trans here, fun q other => (g.ports q).trans (others q other)⟩
  have moved : Carried { s with ports := t.ports } { u with ports := t.ports } := { first with ports := fun _ => rfl }
  exact moved.trans { g with ports := fun _ => rfl }

theorem setPort_portIs (s : State) (p : Nat) (x : Port) : PortIs s (setPort s p x) p x := PortIs.set (Carried.refl _)

theorem sendControl_eq (s : State) (p : Nat) : sendControl s p none =
    { s with answers := s.answers ++ [.flit p 1 ([(getPort s p).lastGood] ++ (getPort s p).freedRx)] } := by
  unfold sendControl
  dsimp only
  rw [List.append_nil]

-- what an ACK takes away ----------------------------------------------------------------------------------------------------

theorem ackFlits_kept (x : Port) (ack : Nat) : (ackFlits x ack).kept = x.kept := by
  unfold ackFlits
  split <;> rfl

@[simp] theorem ackFlits_expect (x : Port) (ack : Nat) : (ackFlits x ack).expect = x.expect := (congrArg Port.expect (ackFlits_kept x ack) :)
@[simp] theorem ackFlits_lastGood (x : Port) (ack : Nat) : (ackFlits x ack).lastGood = x.lastGood := (congrArg Port.lastGood (ackFlits_kept x ack) :)
@[simp] theorem ackFlits_freedRx (x : Port) (ack : Nat) : (ackFlits x ack).freedRx = x.freedRx := (congrArg Port.freedRx (ackFlits_kept x ack) :)

-- the payload of a data flit ------------------------------------------------------------------------------------------------

/-- A port that has taken the payload of a data flit: the stream of its class, its freed count, and what it has dropped (R333, R338, R343). -/
def Port.fed (x : Port) (tc : Nat) (rest : List Byte) (drop : Nat) : Port :=
  { x with rxBytes := aput x.rxBytes tc rest, freedRx := x.freedRx.set tc ((x.freedRx.getD tc 0 + 1) % 2 ^ 32), drop := drop }

/-- One port is `x`, and what waits for a port still waits. -/
structure PortNow (s t : State) (p : Nat) (x : Port) : Prop where
  here : getPort t p = x
  rest : PortIs s t p x
  held : t.held = s.held
  transit : t.transit = s.transit

theorem setPort_now (s : State) (p : Nat) (x : Port) : PortNow s (setPort s p x) p x :=
  ⟨by rw [getPort_setPort, if_pos rfl], setPort_portIs s p x, rfl, rfl⟩

theorem PortNow.trans {s u t : State} {p : Nat} {x y : Port} (h : PortNow s u p x) (g : PortNow u t p y) : PortNow s t p y :=
  ⟨g.here, h.rest.trans g.rest, g.held.trans h.held, g.transit.trans h.transit⟩

theorem sendControl_now (s : State) (p : Nat) (nak : Option Nat) : PortNow s (sendControl s p nak) p (getPort s p) :=
  ⟨rfl, (PortIs.refl s p).then (sendControl_carried s p nak (Carried.refl s)), rfl, rfl⟩

theorem portDrop_now (s : State) (p : Nat) : PortNow s (portDrop s p) p { getPort s p with drop := ((getPort s p).drop + 1) % 2 ^ 48 } := setPort_now s p _

theorem takePayload_now (s : State) (p tc : Nat) (bs : List Byte) :
    ∃ rest drop, PortNow s (takePayload s p tc bs) p ((getPort s p).fed tc rest drop) := by
  unfold takePayload
  extract_lets x buf whole freed u v
  have joined : PortNow s u p (x.fed tc (if whole then [] else buf) x.drop) := setPort_now s p _
  have dropped : ∃ drop, PortNow s v p (x.fed tc (if whole then [] else buf) drop) := by
    unfold v
    split
    · have more := portDrop_now u p
      rw [joined.here] at more
      exact ⟨_, joined.trans more⟩
    · exact ⟨_, joined⟩
  obtain ⟨drop, now⟩ := dropped
  refine ⟨if whole then [] else buf, drop, ?_⟩
  split
  · have told := sendControl_now v p none
    rw [now.here] at told
    exact now.trans told
  · exact now

-- FLIT_RECEIVE --------------------------------------------------------------------------------------------------------------

section
variable {s : State} {p : Nat} {f : Flit}

theorem flitReceive_unlinked (down : portLinked (getPort s p) = false) : exec (.flitReceive p f) s = .next s := by
  show execFlitReceive p f s = _
  unfold execFlitReceive
  simp [down]

theorem flitReceive_badCrc (up : portLinked (getPort s p) = true) (bad : f.crc ≠ crc32 (flitBytes f)) :
    exec (.flitReceive p f) s = .next (setPort { s with answers := s.answers ++
        [.flit p 1 ([(getPort s p).lastGood] ++ (getPort s p).freedRx ++ [(getPort s p).expect])] } p
        { getPort s p with crcErr := ((getPort s p).crcErr + 1) % 2 ^ 48 }) := by
  show execFlitReceive p f s = _
  unfold execFlitReceive
  dsimp only
  rw [up, if_neg (by decide), if_pos bad]
  unfold sendControl
  rw [getPort_setPort, if_pos rfl]
  rfl

/-- A flit with a good CRC acknowledges, and what waits is offered again. -/
theorem flitReceive_good (up : portLinked (getPort s p) = true) (good : f.crc = crc32 (flitBytes f)) :
    exec (.flitReceive p f) s = .next (
      let x := ackFlits (getPort s p) f.ack
      let u := setPort s p x
      if f.kind ≠ 0 then afterAck u
      else if f.seq ≠ x.expect then sendControl (afterAck u) p (some x.expect)
      else afterAck (takePayload (setPort u p { x with expect := (x.expect + 1) % 4096, lastGood := f.seq, rxFlits := (x.rxFlits + 1) % 2 ^ 48 }) p f.tc f.payload)) := by
  show execFlitReceive p f s = _
  unfold execFlitReceive
  dsimp only
  rw [up, if_neg (by decide), if_neg (not_not.mpr good)]

theorem acked_carried (s : State) (p ack : Nat) : Carried s (setPort s p (ackFlits (getPort s p) ack)) :=
  setPort_carried0 _ _ _ (Carried.refl s) (ackFlits_kept _ _)

/-- A good flit that is no data, or is out of order, is no more than an acknowledgement. -/
theorem flitReceive_passed (up : portLinked (getPort s p) = true) (good : f.crc = crc32 (flitBytes f)) (other : f.kind ≠ 0 ∨ f.seq ≠ (getPort s p).expect) :
    (∃ t, exec (.flitReceive p f) s = .next t ∧ Carried s t) ∧
    (s.held = [] → s.transit = [] → exec (.flitReceive p f) s = .next (setPort { s with
      answers := s.answers ++ if f.kind ≠ 0 then [] else [.flit p 1 ([(getPort s p).lastGood] ++ (getPort s p).freedRx ++ [(getPort s p).expect])] } p
      (ackFlits (getPort s p) f.ack))) := by
  rw [flitReceive_good up good]
  have released : Carried s (afterAck (setPort s p (ackFlits (getPort s p) f.ack))) := releaseAll_carried _ (acked_carried s p f.ack)
  dsimp only
  by_cases kind : f.kind = 0
  · have early : f.seq ≠ (ackFlits (getPort s p) f.ack).expect := by
      rw [ackFlits_expect]
      exact other.resolve_left (not_not.mpr kind)
    rw [if_neg (not_not.mpr kind), if_pos early, if_neg (not_not.mpr kind)]
    refine ⟨⟨_, rfl, sendControl_carried _ _ _ released⟩, fun held transit => ?_⟩
    rw [show afterAck (setPort s p (ackFlits (getPort s p) f.ack)) = setPort s p (ackFlits (getPort s p) f.ack) from
      releaseAll_none (s := setPort s p (ackFlits (getPort s p) f.ack)) held transit]
    unfold sendControl
    rw [getPort_setPort, if_pos rfl]
    simp only [ackFlits_lastGood, ackFlits_freedRx, ackFlits_expect]
    rfl
  · rw [if_pos kind, if_pos kind, List.append_nil]
    refine ⟨⟨_, rfl, released⟩, fun held transit => ?_⟩
    rw [show afterAck (setPort s p (ackFlits (getPort s p) f.ack)) = setPort s p (ackFlits (getPort s p) f.ack) from
      releaseAll_none (s := setPort s p (ackFlits (getPort s p) f.ack)) held transit]

/-- The port after a data flit in order: acknowledged, and with the sequence number counted on (R334). -/
def Port.takes (x : Port) (ack seq : Nat) : Port :=
  { ackFlits x ack with expect := (seq + 1) % 4096, lastGood := seq, rxFlits := (x.rxFlits + 1) % 2 ^ 48 }

theorem flitReceive_taken (up : portLinked (getPort s p) = true) (good : f.crc = crc32 (flitBytes f)) (data : f.kind = 0) (order : f.seq = (getPort s p).expect) :
    ∃ t rest drop, exec (.flitReceive p f) s = .next t ∧ PortIs s t p (((getPort s p).takes f.ack f.seq).fed f.tc rest drop) ∧
      (s.held = [] → s.transit = [] → getPort t p = ((getPort s p).takes f.ack f.seq).fed f.tc rest drop) := by
  have acked := setPort_now s p (ackFlits (getPort s p) f.ack)
  have taken := acked.trans (setPort_now _ p ((getPort s p).takes f.ack f.seq))
  obtain ⟨rest, drop, fed⟩ := takePayload_now (setPort (setPort s p (ackFlits (getPort s p) f.ack)) p ((getPort s p).takes f.ack f.seq)) p f.tc f.payload
  rw [taken.here] at fed
  have now := taken.trans fed
  refine ⟨afterAck (takePayload (setPort (setPort s p (ackFlits (getPort s p) f.ack)) p ((getPort s p).takes f.ack f.seq)) p f.tc f.payload), rest, drop, ?_, ?_, fun held transit => ?_⟩
  · rw [flitReceive_good up good]
    dsimp only
    rw [if_neg (not_not.mpr data), if_neg (not_not.mpr (order.trans (ackFlits_expect _ _).symm)), ackFlits_expect, ← order,
      show (ackFlits (getPort s p) f.ack).rxFlits = (getPort s p).rxFlits from (congrArg Port.rxFlits (ackFlits_kept _ f.ack) :)]
    rfl
  · exact now.rest.then (releaseAll_carried _ (Carried.refl _))
  · have waits : releaseAll _ = _ := releaseAll_none (now.held.trans held) (now.transit.trans transit)
    rw [show afterAck _ = _ from waits]
    exact now.here

/-- Whatever the flit, its own port alone differs beside traffic. -/
theorem flitReceive_portIs (s : State) (p : Nat) (f : Flit) : ∃ t x, exec (.flitReceive p f) s = .next t ∧ PortIs s t p x := by
  by_cases up : portLinked (getPort s p) = true
  · by_cases good : f.crc = crc32 (flitBytes f)
    · by_cases other : f.kind ≠ 0 ∨ f.seq ≠ (getPort s p).expect
      · obtain ⟨⟨t, row, passed⟩, -⟩ := flitReceive_passed up good other
        exact ⟨t, _, row, (PortIs.refl s p).then passed⟩
      · obtain ⟨data, order⟩ := not_or.mp other
        obtain ⟨t, rest, drop, row, taken, -⟩ := flitReceive_taken up good (not_not.mp data) (not_not.mp order)
        exact ⟨t, _, row, taken⟩
    · exact ⟨_, _, flitReceive_badCrc up good, PortIs.trans (PortIs.then (PortIs.refl s p) (Carried.set (Carried.refl s))) (setPort_portIs _ p _)⟩
  · exact ⟨s, _, flitReceive_unlinked (by simpa using up), PortIs.refl s p⟩

end

/-- Settles O36. -/
theorem portsTakeFlitsInOrder : Obligations.PortsTakeFlitsInOrder := by
  unfold Obligations.PortsTakeFlitsInOrder
  intro s p f
  refine ⟨?_, flitReceive_badCrc, flitReceive_passed, fun up good data order => ?_, flitReceive_unlinked⟩
  · obtain ⟨t, x, row, carried, -, others⟩ := flitReceive_portIs s p f
    exact ⟨t, row, carried, others⟩
  · obtain ⟨t, rest, drop, row, ⟨carried, here, others⟩, quiet⟩ := flitReceive_taken up good data order
    refine ⟨t, row, carried, others, fun held transit => ?_, (congrArg Port.expect here :), (congrArg Port.lastGood here :), (congrArg Port.rxFlits here :), ?_, ?_, ?_⟩
    · rw [quiet held transit]
      exact ⟨rfl, rfl⟩
    · rw [← ackFlits_freedRx (getPort s p) f.ack]
      exact (congrArg Port.freedRx here :)
    · exact (congrArg Port.state here :).trans (congrArg Port.state (ackFlits_kept _ f.ack) :)
    · exact (congrArg Port.crcErr here :).trans (congrArg Port.crcErr (ackFlits_kept _ f.ack) :)

end Sys2Proof.Machine
end

section
/-! Control flits: the credits that they return, the replay that they ask for, and what a port sends of its own (R334 to R336, R343, R350). -/

namespace Sys2Proof.Machine

-- freed counts ----------------------------------------------------------------------------------------------------------------

/-- The freed counts of some classes taken over (R343). -/
def freedSet (freed : List Nat) (l counts : List Nat) : List Nat := l.foldl (fun r tc => r.set tc (freed.getD tc 0 % 2 ^ 32)) counts

theorem freedSet_length (freed l counts : List Nat) : (freedSet freed l counts).length = counts.length := by
  unfold freedSet
  induction l generalizing counts with
  | nil => rfl
  | cons a l ih =>
    rw [List.foldl_cons, ih, List.length_set]

theorem freedSet_getD (freed l : List Nat) {counts : List Nat} {tc : Nat} (there : tc < counts.length) :
    (freedSet freed l counts).getD tc 0 = if tc ∈ l then freed.getD tc 0 % 2 ^ 32 else counts.getD tc 0 := by
  unfold freedSet
  induction l generalizing counts with
  | nil => rfl
  | cons a l ih =>
    rw [List.foldl_cons, ih (by rw [List.length_set]; exact there)]
    by_cases later : tc ∈ l
    · rw [if_pos later, if_pos (List.mem_cons_of_mem a later)]
    · rw [if_neg later]
      by_cases now : tc = a
      · subst now
        rw [if_pos List.mem_cons_self]
        simp [List.getD_eq_getElem?_getD, there]
      · rw [if_neg (by simp [now, later])]
        simp [List.getD_eq_getElem?_getD, Ne.symm now]

theorem takeFreed_eq (x : Port) (freed : List Nat) :
    ∃ drawn, takeFreed x freed = { x with drawn := drawn, freedTx := freedSet freed (List.range 8) x.freedTx } := by
  unfold takeFreed freedSet
  generalize List.range 8 = l
  induction l generalizing x with
  | nil => exact ⟨x.drawn, rfl⟩
  | cons a l ih =>
    rw [List.foldl_cons, List.foldl_cons]
    obtain ⟨drawn, eq⟩ := ih { x with
      drawn := freeDrawn a ((freed.getD a 0 + 2 ^ 32 - x.freedTx.getD a 0) % 2 ^ 32) x.drawn
      freedTx := x.freedTx.set a (freed.getD a 0 % 2 ^ 32) }
    exact ⟨drawn, eq⟩

/-- A port that has taken a control flit's ACK and freed counts. -/
def Port.credited (x : Port) (ack : Nat) (freed : List Nat) : Port := takeFreed (ackFlits x ack) freed

theorem credited_kept (x : Port) (ack : Nat) (freed : List Nat) :
    (x.credited ack freed).kept = { x with freedTx := freedSet freed (List.range 8) x.freedTx }.kept := by
  unfold Port.credited
  obtain ⟨drawn, eq⟩ := takeFreed_eq (ackFlits x ack) freed
  rw [eq]
  unfold ackFlits
  split <;> rfl

theorem ackFlits_replay {x : Port} {ack : Nat} {r : Nat × Nat × Nat} (left : r ∈ (ackFlits x ack).replay) : r ∈ x.replay := by
  unfold ackFlits at left
  split at left
  · exact List.mem_of_mem_drop left
  · exact left

theorem credited_replay {x : Port} {ack : Nat} {freed : List Nat} {r : Nat × Nat × Nat} (left : r ∈ (x.credited ack freed).replay) : r ∈ x.replay := by
  unfold Port.credited at left
  obtain ⟨drawn, eq⟩ := takeFreed_eq (ackFlits x ack) freed
  rw [eq] at left
  exact ackFlits_replay left

theorem takeNak_kept (x : Port) (q : Nat) : (takeNak x q).kept = { x.kept with retry := (x.kept.retry + 1) % 2 ^ 48 } := by
  unfold takeNak
  split <;> rfl

/-- A NAK has each flit sent once more at most (R334). -/
theorem takeNak_replay {x : Port} {q n : Nat} (few : ∀ r ∈ x.replay, r.2.2 < n) : ∀ r ∈ (takeNak x q).replay, r.2.2 < n + 1 := by
  intro r left
  unfold takeNak at left
  split at left
  · exact Nat.lt_succ_of_lt (few r left)
  · rcases List.mem_append.mp left with kept | again
    · exact Nat.lt_succ_of_lt (few r (List.mem_of_mem_take kept))
    · obtain ⟨y, sent, rfl⟩ := List.mem_map.mp again
      exact Nat.succ_lt_succ (few y (List.mem_of_mem_drop sent))

/-- A port none of whose flits has been sent 8 times goes on (R336). -/
theorem retryLimit_below {s : State} {p : Nat} (few : ∀ r ∈ (getPort s p).replay, r.2.2 < 8) : retryLimit s p = s := by
  unfold retryLimit
  refine if_neg ?_
  rw [Bool.not_eq_true, List.any_eq_false]
  intro r left
  have := few r left
  simpa using this

-- the rows --------------------------------------------------------------------------------------------------------------------

section
variable {s : State} {p : Nat}

theorem controlFlit_unlinked (down : portLinked (getPort s p) = false) (ack : Nat) (cr : CreditRec) : exec (.controlFlit p ack cr) s = .next s := by
  show execControlFlit p ack cr s = _
  unfold execControlFlit
  simp [down]

/-- A control flit that asks for no eighth sending: its port is as the ACK, the freed counts and the NAK leave it, beside traffic. -/
theorem controlFlit_eq (up : portLinked (getPort s p) = true) (ack : Nat) (cr : CreditRec) {x : Port}
    (eq : x = match cr.nak with | some q => takeNak ((getPort s p).credited ack cr.freed) q | none => (getPort s p).credited ack cr.freed)
    (few : ∀ r ∈ x.replay, r.2.2 < 8) : ∃ t, exec (.controlFlit p ack cr) s = .next t ∧ PortIs s t p x := by
  let v := if cr.nak.isSome then count s (portDie p) slotsDie 0x73 1 none else s
  have counted : Carried s v := Carried.ite (count_carried _ _ _ _ _ _ (Carried.refl s)) (Carried.refl s)
  have now := setPort_now v p x
  refine ⟨afterAck (setPort v p x), ?_, ((((PortIs.refl s p).then counted).trans now.rest).then (releaseAll_carried _ (Carried.refl _)))⟩
  show execControlFlit p ack cr s = _
  unfold execControlFlit
  dsimp only
  rw [up, if_neg (by decide)]
  have stays : retryLimit (setPort v p x) p = setPort v p x := retryLimit_below (by rw [now.here]; exact few)
  have limited : ∀ b : Bool, (if b = true then retryLimit (setPort v p x) p else setPort v p x) = setPort v p x := fun b => by
    rw [stays, ite_self]
  rw [← limited (portUp (takeFreed (ackFlits (getPort s p) ack) cr.freed)), eq]
  rfl

theorem controlFlit_credits (up : portLinked (getPort s p) = true) (ack : Nat) {cr : CreditRec} (none : cr.nak = none)
    (few : ∀ x ∈ (getPort s p).replay, x.2.2 < 8) : ∃ t, exec (.controlFlit p ack cr) s = .next t ∧
      PortIs s t p { getPort s p with freedTx := (getPort t p).freedTx } ∧
      ∀ tc, tc < 8 → (getPort s p).freedTx.length = 8 → (getPort t p).freedTx.getD tc 0 = cr.freed.getD tc 0 % 2 ^ 32 := by
  obtain ⟨t, row, now⟩ := controlFlit_eq up ack cr (x := (getPort s p).credited ack cr.freed) (by rw [none])
    fun r left => few r (credited_replay left)
  have kept := now.2.1.trans (credited_kept _ _ _)
  have freed : (getPort t p).freedTx = freedSet cr.freed (List.range 8) (getPort s p).freedTx := (congrArg Port.freedTx kept :)
  refine ⟨t, row, ?_, fun tc small full => ?_⟩
  · rw [freed]
    exact ⟨now.1, kept, now.2.2⟩
  · rw [freed, freedSet_getD _ _ (by omega), if_pos (List.mem_range.mpr small)]

theorem controlFlit_replays (up : portLinked (getPort s p) = true) (ack q : Nat) {cr : CreditRec} (nak : cr.nak = some q)
    (few : ∀ x ∈ (getPort s p).replay, x.2.2 < 7) : ∃ t, exec (.controlFlit p ack cr) s = .next t ∧
      PortIs s t p { getPort s p with freedTx := (getPort t p).freedTx, retry := ((getPort s p).retry + 1) % 2 ^ 48 } := by
  obtain ⟨t, row, now⟩ := controlFlit_eq up ack cr (x := takeNak ((getPort s p).credited ack cr.freed) q) (by rw [nak])
    (takeNak_replay fun r left => few r (credited_replay left))
  have kept : (getPort t p).kept = { getPort s p with freedTx := freedSet cr.freed (List.range 8) (getPort s p).freedTx, retry := ((getPort s p).retry + 1) % 2 ^ 48 }.kept := by
    rw [now.2.1, takeNak_kept, credited_kept]
    rfl
  have freed : (getPort t p).freedTx = freedSet cr.freed (List.range 8) (getPort s p).freedTx := (congrArg Port.freedTx kept :)
  rw [← freed] at kept
  exact ⟨t, row, now.1, kept, now.2.2⟩

theorem controlFlitTimer_linked (up : portLinked (getPort s p) = true) : exec (.controlFlitTimer p) s =
    .next { s with answers := s.answers ++ [.flit p 1 ([(getPort s p).lastGood] ++ (getPort s p).freedRx)] } := by
  show execControlFlitTimer p s = _
  unfold execControlFlitTimer
  rw [if_pos up, sendControl_eq]

theorem controlFlitTimer_unlinked (down : portLinked (getPort s p) = false) : exec (.controlFlitTimer p) s = .next s := by
  show execControlFlitTimer p s = _
  unfold execControlFlitTimer
  rw [if_neg (by simp [down])]

theorem pdelayTimer_measures (up : portUp (getPort s p) = true) (far : (getPort s p).farValid = true) (alive : s.power.phase ≠ 0xF) :
    ∃ t, exec (.pdelayTimer p) s = .next t ∧ Carried s t ∧
      Posted s t (fun m => m.dst = (getPort s p).farPeer ∧ m.typ = mtPdelay ∧ m.tc = 7 ∧ m.job = 0 ∧ m.body = [p]) := by
  refine ⟨sendDom s (getPort s p).farPeer mtPdelay [p], ?_, sendDom_carried _ _ _ _ (Carried.refl s), ?_⟩
  · show execPdelayTimer p s = _
    unfold execPdelayTimer
    simp [up, far]
  · obtain ⟨x, e, sent⟩ := send_posted s ⟨(getPort s p).farPeer, mtPdelay, 7, 0, 0, 0, 0xFF, 0, 0, [p], []⟩ alive
    exact ⟨x, ⟨congrArg Msg.dst e, congrArg Msg.typ e, congrArg Msg.tc e, congrArg Msg.job e, congrArg Msg.body e⟩, sent⟩

theorem pdelayTimer_idle (idle : portUp (getPort s p) = false ∨ (getPort s p).farValid = false) : exec (.pdelayTimer p) s = .next s := by
  show execPdelayTimer p s = _
  unfold execPdelayTimer
  rcases idle with down | unknown
  · simp [down]
  · simp [unknown]

end

/-- Settles O37, clause by clause. -/
theorem controlFlitsReturnCredits : Obligations.ControlFlitsReturnCredits := by
  unfold Obligations.ControlFlitsReturnCredits
  exact fun s p => ⟨fun up => ⟨fun ack cr none few => controlFlit_credits up ack none few, fun ack q cr nak few => controlFlit_replays up ack q nak few,
    controlFlitTimer_linked up, pdelayTimer_measures⟩, pdelayTimer_idle, fun down => ⟨controlFlitTimer_unlinked down, controlFlit_unlinked down⟩⟩

end Sys2Proof.Machine
end

section
/-! Ports train, lose lanes, go down and train again (R332, R371, R372, R502, R505). -/

namespace Sys2Proof.Machine

-- what a report leaves of a port -----------------------------------------------------------------------------------------------

/-- A port with a bit of its PORT_EVENT set (R372). -/
def Port.notes (x : Port) (b : Nat) : Port := { x with event := setBit x.event b true }

theorem portEvent_told (s : State) (p b : Nat) : Told (setPort s p ((getPort s p).notes b)) (portEvent s p b) := by
  unfold portEvent
  extract_lets x u
  split
  · exact Told.refl u
  · exact fire_told _ _ _ (Told.refl u)

/-- A port that is written, and then has a bit of its PORT_EVENT set and reported. -/
theorem reported_portIs (s : State) (p b place code d0 d1 d2 : Nat) (x : Port) :
    PortIs s (raiseMod (portEvent (setPort s p x) p b) place code d0 d1 d2) p (x.notes b) := by
  have told := raiseMod_told _ place code d0 d1 d2 (portEvent_told (setPort s p x) p b)
  have stored := setPort_now s p x
  rw [stored.here] at told
  exact (stored.rest.trans (setPort_portIs _ p _)).then told.carried

section
variable {s : State} {p : Nat}

-- PORT_CTRL and PORT_CREDIT ----------------------------------------------------------------------------------------------------

theorem portCtrl_eq (s : State) (p v : Nat) : exec (.portCtrl p v) s = .next (
    let u := setPort s p { getPort s p with ctrl := fld v 0 2 }
    if bit (getPort s p).ctrl 0 = true ∧ bit v 0 = false then setPort u p { (getPort u p).unlinked with state := 0, laneOk := 0 }
    else if bit (getPort s p).ctrl 0 = false ∧ bit v 0 = true then trainPort u p
    else u) := rfl

/-- A port written twice: no other port differs. -/
theorem setPort_twice (s : State) (p : Nat) (x y : Port) : { setPort (setPort s p x) p y with ports := s.ports } = s ∧
    (∀ q, q ≠ p → getPort (setPort (setPort s p x) p y) q = getPort s q) ∧ getPort (setPort (setPort s p x) p y) p = y := by
  refine ⟨by unfold setPort; rfl, fun q other => ?_, by rw [getPort_setPort, if_pos rfl]⟩
  rw [getPort_setPort, if_neg (Ne.symm other), getPort_setPort, if_neg (Ne.symm other)]

theorem portCtrl_same {v : Nat} (same : bit (getPort s p).ctrl 0 = bit v 0) :
    exec (.portCtrl p v) s = .next (setPort s p { getPort s p with ctrl := fld v 0 2 }) := by
  rw [portCtrl_eq, same]
  dsimp only
  rw [if_neg (by simp), if_neg (by simp)]

theorem portCtrl_disables {v : Nat} (enabled : bit (getPort s p).ctrl 0 = true) (off : bit v 0 = false) :
    ∃ t, exec (.portCtrl p v) s = .next t ∧ { t with ports := s.ports } = s ∧ (∀ q, q ≠ p → getPort t q = getPort s q) ∧
      getPort t p = { (getPort s p).unlinked with ctrl := fld v 0 2, state := 0, laneOk := 0 } := by
  rw [portCtrl_eq]
  dsimp only
  rw [if_pos ⟨enabled, off⟩, getPort_setPort, if_pos rfl]
  exact ⟨_, rfl, setPort_twice s p _ _⟩

theorem portCtrl_trains {v : Nat} (disabled : bit (getPort s p).ctrl 0 = false) (on : bit v 0 = true) :
    ∃ t, exec (.portCtrl p v) s = .next t ∧ { t with ports := s.ports } = s ∧ (∀ q, q ≠ p → getPort t q = getPort s q) ∧
      getPort t p = { (getPort s p).unlinked with ctrl := fld v 0 2, state := 1, laneOk := 0, trainFrom := s.time } := by
  rw [portCtrl_eq]
  dsimp only
  rw [if_neg (by simp [disabled]), if_pos ⟨disabled, on⟩]
  unfold trainPort
  rw [getPort_setPort, if_pos rfl]
  exact ⟨_, rfl, setPort_twice s p _ _⟩

theorem portCredit_held {v : Nat} (valid : creditOk v = true) :
    exec (.portCredit p v) s = .next (setPort s p { getPort s p with credit := v % 2 ^ 64 }) := by
  show execPortCredit p v s = _
  unfold execPortCredit
  rw [if_pos valid]

theorem portCredit_dropped {v : Nat} (invalid : creditOk v = false) : ∃ t, exec (.portCredit p v) s = .next t ∧ t.ports = s.ports ∧ Beside s t := by
  have told := regAccess_told (s := s) (portDie p) (GAddr.code ⟨3, 0, portReg p 0x10⟩) true false false
  refine ⟨_, ?_, told.ports, told.beside⟩
  show execPortCredit p v s = _
  unfold execPortCredit
  rw [if_neg (by simp [invalid])]

-- PORT_RETRAIN and LANE_FAILURE ------------------------------------------------------------------------------------------------

theorem portRetrain_trains (down : (getPort s p).state = 0) (enabled : bit (getPort s p).ctrl 0 = true) (open_ : s.power.phase = 6 ∨ s.power.phase = 7) :
    exec (.portRetrain p) s = .next (setPort s p { (getPort s p).unlinked with state := 1, laneOk := 0, trainFrom := s.time }) := by
  show execPortRetrain p s = _
  unfold execPortRetrain
  dsimp only
  rw [if_pos ⟨down, enabled, by omega, by omega⟩]
  rfl

/-- The state of a port that is up after a lane failed: at 2 lanes where CTRL allows it and a pair is whole, else down (R332). -/
def lanesLeft (x : Port) (lane : Nat) : Nat :=
  if bit x.ctrl 1 = true ∧ (pairOk (setBit x.laneOk lane false) 0 || pairOk (setBit x.laneOk lane false) 1) = true then 3 else 0

theorem portDown_portIs (s : State) (p lane : Nat) : ∃ x, PortIs s (portDown s p lane) p x ∧ x.laneOk = (getPort s p).laneOk ∧ x.state = 0 :=
  ⟨_, reported_portIs s p 1 (portDie p) 0x21 (p + lane * 256) 0 0 { (getPort s p).unlinked with state := 0 }, rfl, rfl⟩

theorem laneFail_portIs (up : portUp (getPort s p) = true) {lane : Nat} (good : bit (getPort s p).laneOk lane = true) :
    ∃ x, PortIs s (laneFail s p lane) p x ∧ x.laneOk = setBit (getPort s p).laneOk lane false ∧ x.state = lanesLeft (getPort s p) lane := by
  unfold laneFail
  extract_lets x ok u v
  have stored : PortNow s u p { x with laneOk := ok } := setPort_now s p _
  rw [if_neg (by rw [good]; decide)]
  by_cases pair : bit x.ctrl 1 = true ∧ (pairOk ok 0 || pairOk ok 1) = true
  · rw [if_pos pair]
    have left : lanesLeft (getPort s p) lane = 3 := if_pos pair
    by_cases full : x.state = 2
    · have narrowed := reported_portIs u p 0 (portDie p) 0x20 (p + lane * 256) 0 0 { x with laneOk := ok, state := 3 }
      rw [if_pos full]
      exact ⟨_, stored.rest.trans narrowed, rfl, left.symm⟩
    · have half : x.state = 3 := by
        have : x.state = 2 ∨ x.state = 3 := by simpa [portUp] using up
        exact this.resolve_left full
      rw [if_neg full]
      exact ⟨_, stored.rest, rfl, half.trans left.symm⟩
  · rw [if_neg pair]
    obtain ⟨y, down, lanes, state⟩ := portDown_portIs u p lane
    rw [stored.here] at lanes
    exact ⟨y, stored.rest.trans down, lanes, state.trans (if_neg pair).symm⟩

theorem laneFailure_fails (up : portUp (getPort s p) = true) {lane : Nat} (good : bit (getPort s p).laneOk lane = true) :
    ∃ t, exec (.laneFailure p lane) s = .next t ∧ Carried { s with ports := t.ports } t ∧ (∀ q, q ≠ p → (getPort t q).kept = (getPort s q).kept) ∧
      (getPort t p).laneOk = setBit (getPort s p).laneOk lane false ∧ (getPort t p).state = lanesLeft (getPort s p) lane := by
  obtain ⟨x, failed, lanes, state⟩ := laneFail_portIs up good
  obtain ⟨carried, here, others⟩ := failed.then (releaseAll_carried _ (Carried.refl _))
  refine ⟨_, ?_, carried, others, (congrArg Port.laneOk here :).trans lanes, (congrArg Port.state here :).trans state⟩
  show execLaneFailure p lane s = _
  unfold execLaneFailure
  rw [if_pos up]

-- PORT_TRAINING_DONE -----------------------------------------------------------------------------------------------------------

/-- The state of a port whose training has ended (R332). -/
def lanesTrained (x : Port) (lanes : Nat) : Nat :=
  if lanes % 16 = 15 then 2 else if bit x.ctrl 1 = true ∧ (pairOk lanes 0 || pairOk lanes 1) = true then 3 else 0

theorem portTrainingDone_ends (training : (getPort s p).state = 1) (ready : s.power.phase = 7) (free : ∀ r ∈ s.testing, r.unit ≠ .port p) (lanes far : Nat) :
    ∃ t, exec (.portTrainingDone p lanes far) s = .next t ∧ (getPort t p).state = lanesTrained (getPort s p) lanes ∧
      PortIs s t p { (getPort s p).unlinked with
        state := (getPort t p).state, laneOk := lanes % 16, farValid := (getPort t p).state != 0,
        farPeer := if (getPort t p).state = 0 then (getPort s p).farPeer else far, creditUse := (getPort s p).credit } := by
  have stored : PortIs s (trained s p lanes far) p _ := setPort_portIs s p _
  have untested : (trained s p lanes far).testing.find? (fun r => r.unit == .port p) = none := List.find?_eq_none.mpr fun r there => by
    simpa using free r there
  let up := portUp (getPort (trained s p lanes far) p)
  let v := if Machine.ready (trained s p lanes far) && up then releaseAll (sendDom (trained s p lanes far) far mtHello [p]) else trained s p lanes far
  have greeted : Carried (trained s p lanes far) v :=
    Carried.ite (releaseAll_carried _ (sendDom_carried _ _ _ _ (Carried.refl _))) (Carried.refl _)
  have now := stored.then greeted
  have state : (getPort v p).state = lanesTrained (getPort s p) lanes := (congrArg Port.state now.2.1 :)
  refine ⟨v, ?_, state, ?_⟩
  · show execPortTrainingDone p lanes far s = _
    unfold execPortTrainingDone
    dsimp only
    rw [if_neg (by simp [training]), untested]
    have phase : v.power.phase = 7 := greeted.phase.trans ready
    exact congrArg Host.Outcome.next (if_neg fun early => by
      have : v.power.phase ≤ 6 := early.2.1
      omega)
  · rw [state]
    exact now

end

/-- Settles O38, clause by clause. -/
theorem portsTrainFailAndRetrain : Obligations.PortsTrainFailAndRetrain := by
  unfold Obligations.PortsTrainFailAndRetrain
  intro s p
  refine ⟨fun v => ⟨portCtrl_same, portCtrl_disables, portCtrl_trains⟩, fun v => ⟨portCredit_held, portCredit_dropped⟩, portRetrain_trains,
    fun lane up good => laneFailure_fails up good, fun training ready free lanes far => ?_⟩
  obtain ⟨t, row, state, now⟩ := portTrainingDone_ends training ready free lanes far
  refine ⟨t, row, now, fun all => ?_, fun some pair => ?_, fun some none => ?_⟩
  · rw [state, lanesTrained, if_pos all]
  · rw [state, lanesTrained, if_neg some, if_pos pair]
  · rw [state, lanesTrained, if_neg some, if_neg none]

end Sys2Proof.Machine
end

section
/-! Transit: a message for another peer goes on with one hop less, or is discarded (R339, R340, R343, R344). -/

namespace Sys2Proof.Machine

section
variable {s : State} {p : Nat} {m : MsgHdr}

/-- A transit message waits for a port, or leaves by a port of its route that is up. -/
def Forwarded (s t : State) (m : MsgHdr) : Prop :=
  t.transit = s.transit ++ [m] ∧ t.answers = s.answers ∨
    ∃ q, q < 36 ∧ bit (routeMask s m.dst) q = true ∧ portUp (getPort s q) = true ∧ t.transit = s.transit ∧ t.answers = s.answers ++ [.forward q m]

theorem portsTo_mem {dst q : Nat} (there : q ∈ portsTo s dst) : q < 36 ∧ bit (routeMask s dst) q = true ∧ portUp (getPort s q) = true := by
  obtain ⟨range, open_⟩ := List.mem_filter.mp there
  exact ⟨List.mem_range.mp range, Bool.and_eq_true_iff.mp open_⟩

theorem offerTransit_forwards (s : State) (m : MsgHdr) : Forwarded s (offerTransit s m) m := by
  unfold offerTransit
  split
  · exact .inl ⟨rfl, rfl⟩
  · extract_lets ps takes out
    cases chosen : out with
    | none => exact .inl ⟨rfl, rfl⟩
    | some q =>
      have listed : q ∈ portsTo s m.dst := by
        unfold out at chosen
        split at chosen
        · exact List.mem_of_head? (Option.filter_eq_some_iff.mp chosen).1
        · exact List.mem_of_find?_eq_some chosen
      obtain ⟨small, routed, up⟩ := portsTo_mem listed
      exact .inr ⟨q, small, routed, up, rfl, rfl⟩

/-- The pacer's count of a message that it holds back moves no message (R344). -/
theorem countPacedTransit_says (s : State) (m : MsgHdr) : Carried s (countPacedTransit s m) ∧ (countPacedTransit s m).transit = s.transit ∧
    (countPacedTransit s m).answers = s.answers ∧ (countPacedTransit s m).domain = s.domain := by
  unfold countPacedTransit
  split
  · split
    · exact ⟨setPort_carried0 _ _ _ (Carried.refl s) rfl, rfl, rfl, rfl⟩
    · exact ⟨Carried.refl s, rfl, rfl, rfl⟩
  · exact ⟨Carried.refl s, rfl, rfl, rfl⟩

theorem Carried.portUp {s u : State} (h : Carried s u) (q : Nat) : portUp (getPort u q) = portUp (getPort s q) := by
  have state : (getPort u q).state = (getPort s q).state := (congrArg Port.state (h.ports q) :)
  unfold Machine.portUp
  rw [state]

theorem Forwarded.after {u t : State} (h : Forwarded u t m) (carried : Carried s u) (transit : u.transit = s.transit) (answers : u.answers = s.answers)
    (domain : u.domain = s.domain) : Forwarded s t m := by
  unfold Forwarded at h
  rw [transit, answers] at h
  refine h.imp id fun ⟨q, small, routed, up, left⟩ => ⟨q, small, ?_, (carried.portUp q).symm.trans up, left⟩
  unfold routeMask at routed ⊢
  rw [← domain]
  exact routed

theorem messageForward_goesOn (other : m.dst ≠ s.cfg.peerId) (alive : s.power.phase ≠ 0xF) (hops : m.hops ≠ 0) :
    ∃ t, exec (.messageForward p m) s = .next t ∧ Carried s t ∧ Forwarded s t { m with hops := m.hops - 1 } := by
  obtain ⟨carried, transit, answers, domain⟩ := countPacedTransit_says s m
  refine ⟨offerTransit (countPacedTransit s m) { m with hops := m.hops - 1 }, ?_, offerTransit_carried _ _ carried,
    (offerTransit_forwards _ _).after carried transit answers domain⟩
  show execMessageForward p m s = _
  unfold execMessageForward
  rw [if_neg (by simp [other, alive]), if_neg hops]

theorem messageForward_discards (other : m.dst ≠ s.cfg.peerId) (alive : s.power.phase ≠ 0xF) (hops : m.hops = 0) :
    ∃ t, exec (.messageForward p m) s = .next t ∧ t.transit = s.transit ∧ t.answers = s.answers ∧
      (getPort t p).drop = ((getPort s p).drop + 1) % 2 ^ 48 ∧ bit (getPort t p).event 4 = true ∧
      (∀ q, q ≠ p → getPort t q = getPort s q) ∧ Carried { s with ports := t.ports } t := by
  have told := raiseMod_told _ (portDie p) 0x22 (m.dst + m.src * 4096) 0 0 (portEvent_told (portDrop s p) p 4)
  generalize made : raiseMod (portEvent (portDrop s p) p 4) (portDie p) 0x22 (m.dst + m.src * 4096) 0 0 = t at told
  have port : ∀ q, getPort t q = getPort (setPort (portDrop s p) p ((getPort (portDrop s p) p).notes 4)) q :=
    fun q => congrArg (fun l => tget Port.rest l q) told.ports
  have dropped := portDrop_now s p
  have here := port p
  rw [getPort_setPort, if_pos rfl, dropped.here] at here
  refine ⟨t, ?_, told.transit, told.answers, ?_, ?_, fun q away => ?_, ?_⟩
  · show execMessageForward p m s = _
    unfold execMessageForward
    rw [if_neg (by simp [other, alive]), if_pos hops, made]
  · rw [here]
    rfl
  · rw [here, Port.notes, bit_setBit, if_pos rfl]
  · rw [port, getPort_setPort, if_neg (Ne.symm away)]
    unfold portDrop
    rw [getPort_setPort, if_neg (Ne.symm away)]
  · exact ((dropped.rest.trans (setPort_portIs _ p _)).then told.carried).1

end

/-- Settles O39, clause by clause. -/
theorem transitMessagesLoseAHop : Obligations.TransitMessagesLoseAHop := by
  unfold Obligations.TransitMessagesLoseAHop
  exact fun s p m other alive => ⟨messageForward_goesOn other alive, messageForward_discards other alive⟩

end Sys2Proof.Machine
end

section
/-! HEARTBEAT, PDELAY, HELLO and ANNOUNCE: what a message does to the cascade domain (R346 to R350, R354). -/

namespace Sys2Proof.Machine

-- what a message that is heard leaves of the domain ----------------------------------------------------------------------------

theorem Heard.domain {s u : State} {m : MsgHdr} (h : Heard s u m) : u.domain = { s.domain with rx := u.domain.rx, lastHeard := u.domain.lastHeard } := by
  obtain ⟨w, v, rfl, told, -⟩ := h
  rw [told.domain]

theorem Heard.told {s u : State} {m : MsgHdr} (h : Heard s u m) (x : Domain) : Told { s with domain := x } { u with domain := x } := by
  obtain ⟨w, v, rfl, told, -⟩ := h
  exact { told with domain := rfl }

/-- What decides the places of the candidates (R347, R373). -/
theorem posOf_of {s u : State} (successors : u.domain.successors = s.domain.successors) (mode : u.domain.peer0Mode = s.domain.peer0Mode)
    (cfg : u.cfg = s.cfg) (power : u.power.kept = s.power.kept) (p : Nat) : posOf u p = posOf s p := by
  have strap : u.power.keeperStrap = s.power.keeperStrap := (congrArg Power.keeperStrap power :)
  unfold posOf
  rw [successors, mode, cfg, strap]

theorem Heard.posOf {s u : State} {m : MsgHdr} (h : Heard s u m) (p : Nat) : posOf u p = posOf s p :=
  posOf_of (congrArg Domain.successors h.domain :) (congrArg Domain.peer0Mode h.domain :) h.carried.cfg h.carried.power p

theorem Heard.earlier {s u : State} {m : MsgHdr} (h : Heard s u m) (a b : Nat) : earlier u a b = earlier s a b := by
  unfold Machine.earlier
  rw [h.posOf, h.posOf]

theorem Heard.listCrcOf {s u : State} {m : MsgHdr} (h : Heard s u m) : listCrcOf u = listCrcOf s := by
  unfold Machine.listCrcOf
  rw [show u.domain.successors = s.domain.successors from (congrArg Domain.successors h.domain :)]

theorem Told.setDomain {s t : State} (h : Told s t) (x : Domain) : Told { s with domain := x } { t with domain := x } := { h with domain := rfl }

section
variable {s : State} {m : MsgHdr}

-- HEARTBEAT and PDELAY ---------------------------------------------------------------------------------------------------------

theorem heartbeat_heard (h : Arrives s mtHeartbeat m) : ∃ t, exec (.heartbeat m) s = .next t ∧ Heard s t m := by
  obtain ⟨u, heard, acts⟩ := receive_heard h
  exact ⟨u, acts id, heard⟩

theorem pdelay_measured (h : Arrives s mtPdelay m) (p d : Nat) :
    ∃ u, Heard s u m ∧ exec (.pdelay m p d) s = .next (setPort u p { getPort u p with chDelay := d }) := by
  obtain ⟨u, heard, acts⟩ := receive_heard h
  exact ⟨u, heard, acts fun v => setPort v p { getPort v p with chDelay := d }⟩

-- HELLO ------------------------------------------------------------------------------------------------------------------------

/-- The state in which a HELLO has shown a peer id in use twice (R346). -/
def conflictHeard (u : State) (p : Nat) : State :=
  { u with domain := { u.domain with conflicts := if u.domain.conflicts.contains p then u.domain.conflicts else u.domain.conflicts ++ [p] } }

theorem conflictHeard_conflicts (u : State) (p : Nat) : p ∈ (conflictHeard u p).domain.conflicts := by
  unfold conflictHeard
  dsimp only
  split
  · next there => exact List.contains_iff_mem.mp there
  · exact List.mem_append_right _ List.mem_cons_self

theorem hello_conflicts (h : Arrives s mtHello m) (p : Nat) (own : m.src = s.cfg.peerId) :
    ∃ t, exec (.hello m p) s = .next t ∧ m.src ∈ t.domain.conflicts ∧ Told { s with domain := t.domain } t := by
  obtain ⟨u, heard, acts⟩ := receive_heard h
  have told := raiseMod_told (conflictHeard u m.src) (portDie p) 0x25 (m.src + p * 2 ^ 16) 0 0 (Told.refl _)
  refine ⟨raiseMod (conflictHeard u m.src) (portDie p) 0x25 (m.src + p * 2 ^ 16) 0 0, ?_, ?_, ?_⟩
  · show execHello m p s = _
    unfold execHello
    rw [acts]
    exact congrArg Host.Outcome.next (if_pos (own.trans (congrArg ConfigRecord.peerId heard.carried.cfg).symm))
  · rw [told.domain]
    exact conflictHeard_conflicts u m.src
  · rw [told.domain]
    exact (heard.told _).trans told

/-- The state in which a peer's HELLO has taken it out of the lost peers (R346). -/
def backHeard (u : State) (p : Nat) : State := { u with domain := { u.domain with lost := without u.domain.lost p } }

theorem hello_eq (h : Arrives s mtHello m) (p : Nat) (other : m.src ≠ s.cfg.peerId) :
    ∃ u, Heard s u m ∧ exec (.hello m p) s = .next (if s.domain.isKeeper = true ∧ s.domain.outside = false then setMember (backHeard u m.src) m.src 1 else backHeard u m.src) := by
  obtain ⟨u, heard, acts⟩ := receive_heard h
  refine ⟨u, heard, ?_⟩
  have domain := heard.domain
  have keeps : u.domain.isKeeper = s.domain.isKeeper := (congrArg Domain.isKeeper domain :)
  have outside : u.domain.outside = s.domain.outside := (congrArg Domain.outside domain :)
  show execHello m p s = _
  unfold execHello
  rw [acts, ← keeps, ← outside]
  exact congrArg Host.Outcome.next (if_neg fun own => other (own.trans (congrArg ConfigRecord.peerId heard.carried.cfg)))

theorem setMember_carried (s : State) (p st : Nat) : Carried { s with domain := { s.domain with members := tput s.domain.members p st } } (setMember s p st) :=
  sendMembers_carried _ (Carried.refl _)

theorem hello_returns (h : Arrives s mtHello m) (p : Nat) (other : m.src ≠ s.cfg.peerId) :
    ∃ u t, Heard s u m ∧ exec (.hello m p) s = .next t ∧ t.domain.lost = without s.domain.lost m.src ∧
      (s.domain.isKeeper = true ∧ s.domain.outside = false → t.domain.members = tput s.domain.members m.src 1 ∧
        Carried { u with domain := { u.domain with lost := t.domain.lost, members := t.domain.members } } t) ∧
      (¬ (s.domain.isKeeper = true ∧ s.domain.outside = false) → t = { u with domain := { u.domain with lost := t.domain.lost } }) := by
  obtain ⟨u, heard, row⟩ := hello_eq h p other
  have lost : u.domain.lost = s.domain.lost := heard.carried.lost
  have members : u.domain.members = s.domain.members := (congrArg Domain.members heard.domain :)
  by_cases keeps : s.domain.isKeeper = true ∧ s.domain.outside = false
  · rw [if_pos keeps] at row
    have told := setMember_carried (backHeard u m.src) m.src 1
    have lost' : (setMember (backHeard u m.src) m.src 1).domain.lost = without u.domain.lost m.src := told.lost
    have members' : (setMember (backHeard u m.src) m.src 1).domain.members = tput u.domain.members m.src 1 := (congrArg Domain.members told.domain :)
    refine ⟨u, _, heard, row, lost'.trans (by rw [lost]), fun _ => ⟨members'.trans (by rw [members]), ?_⟩, fun no => absurd keeps no⟩
    rw [lost', members']
    exact told
  · rw [if_neg keeps] at row
    exact ⟨u, _, heard, row, congrArg (without · m.src) lost, fun yes => absurd yes keeps, fun _ => rfl⟩

-- ANNOUNCE ---------------------------------------------------------------------------------------------------------------------

theorem announce_mismatch (h : Arrives s mtAnnounce m) {crc : Nat} (differs : crc ≠ listCrcOf s) :
    ∃ u t, Heard s u m ∧ exec (.announce m crc) s = .next t ∧ Told { u with domain := { u.domain with outside := true } } t := by
  obtain ⟨u, heard, acts⟩ := receive_heard h
  refine ⟨u, raiseMod { u with domain := { u.domain with outside := true } } 8 0x26 m.src crc 0, heard, ?_, raiseMod_told _ 8 0x26 m.src crc 0 (Told.refl _)⟩
  show execAnnounce m crc s = _
  unfold execAnnounce
  rw [acts]
  exact congrArg Host.Outcome.next (if_pos fun same => differs (same.trans heard.listCrcOf))

/-- The state in which a candidate's ANNOUNCE has been taken in (R347). -/
def announcedBy (u : State) (p : Nat) : State :=
  { u with domain := { u.domain with
      outside := false, heardKeeper := if !(u.domain.heardKeeper.contains p) then u.domain.heardKeeper ++ [p] else u.domain.heardKeeper } }

/-- The state in which a candidate is followed (R347, R348). -/
def following (u : State) (k : Nat) : State :=
  { u with domain := { u.domain with keeper := some (k, posOf u k), isKeeper := u.domain.isKeeper && k == u.cfg.peerId } }

theorem announcedBy_heard (u : State) (p : Nat) : p ∈ (announcedBy u p).domain.heardKeeper := by
  unfold announcedBy
  dsimp only
  by_cases there : u.domain.heardKeeper.contains p = true
  · rw [if_neg (by rw [there]; decide)]
    exact List.contains_iff_mem.mp there
  · rw [if_pos (by simpa using there)]
    exact List.mem_append_right _ List.mem_cons_self

/-- An ANNOUNCE with the module's own list: where no keeper is followed its sender is, and where another is followed the earlier of the two. -/
theorem announce_eq (h : Arrives s mtAnnounce m) :
    ∃ u, Heard s u m ∧
      (s.domain.keeper = none → exec (.announce m (listCrcOf s)) s = .next (following (announcedBy u m.src) m.src)) ∧
      ∀ k n, s.domain.keeper = some (k, n) →
        (k = m.src → exec (.announce m (listCrcOf s)) s = .next (announcedBy u m.src)) ∧
        (k ≠ m.src → ∃ t, exec (.announce m (listCrcOf s)) s = .next t ∧
          Told (following (announcedBy u m.src) (if earlier s m.src k = true then m.src else k)) t) := by
  obtain ⟨u, heard, acts⟩ := receive_heard h
  have row : exec (.announce m (listCrcOf s)) s = .next (
      let new := !(u.domain.heardKeeper.contains m.src)
      let v := announcedBy u m.src
      match u.domain.keeper with
      | none => following v m.src
      | some (k, _) =>
        if k = m.src then v
        else
          let best := if earlier v m.src k then m.src else k
          if new && (u.domain.isKeeper || u.domain.heardKeeper.contains k) then
            raiseMod (following v best) 8 0x28 (best + (if best = k then m.src else k) * 2 ^ 16) 0 0
          else following v best) := by
    show execAnnounce m (listCrcOf s) s = _
    unfold execAnnounce
    rw [acts]
    exact congrArg Host.Outcome.next (if_neg (not_not.mpr heard.listCrcOf.symm))
  have keeper : u.domain.keeper = s.domain.keeper := (congrArg Domain.keeper heard.domain :)
  rw [row, keeper]
  refine ⟨u, heard, fun none => ?_, fun k n some => ⟨fun same => ?_, fun other => ?_⟩⟩
  · rw [none]
  · rw [some]
    dsimp only
    rw [if_pos same]
  · rw [some]
    dsimp only
    rw [if_neg other, show earlier (announcedBy u m.src) m.src k = earlier s m.src k from heard.earlier m.src k]
    generalize (if earlier s m.src k = true then m.src else k) = best
    refine ⟨_, rfl, ?_⟩
    split
    · exact raiseMod_told _ _ _ _ _ _ (Told.refl _)
    · exact Told.refl _

/-- The candidate that a module follows after an ANNOUNCE with its own list (R347, R348). -/
theorem announce_follows (h : Arrives s mtAnnounce m) :
    ∃ u t, Heard s u m ∧ exec (.announce m (listCrcOf s)) s = .next t ∧
      Told { u with domain := { u.domain with outside := false, heardKeeper := t.domain.heardKeeper, keeper := t.domain.keeper, isKeeper := t.domain.isKeeper } } t ∧
      m.src ∈ t.domain.heardKeeper ∧
      (s.domain.keeper = none → t.domain.keeper = some (m.src, posOf s m.src)) ∧
      (∀ k n, s.domain.keeper = some (k, n) →
        (k = m.src → t.domain.keeper = s.domain.keeper ∧ t.domain.isKeeper = s.domain.isKeeper) ∧
        (k ≠ m.src → t.domain.keeper = (if earlier s m.src k = true then some (m.src, posOf s m.src) else some (k, posOf s k)))) := by
  obtain ⟨u, heard, alone, both⟩ := announce_eq h
  have keeper : u.domain.keeper = s.domain.keeper := (congrArg Domain.keeper heard.domain :)
  have keeps : u.domain.isKeeper = s.domain.isKeeper := (congrArg Domain.isKeeper heard.domain :)
  have place : ∀ k, posOf (announcedBy u m.src) k = posOf s k := heard.posOf
  have listed := announcedBy_heard u m.src
  cases followed : s.domain.keeper with
  | none =>
    exact ⟨u, _, heard, alone followed, Told.refl _, listed, fun _ => by rw [← place]; rfl, fun k n some => nomatch some⟩
  | some x =>
    obtain ⟨k, n⟩ := x
    obtain ⟨same, other⟩ := both k n followed
    by_cases is : k = m.src
    · refine ⟨u, _, heard, same is, Told.refl _, listed, (nomatch ·), fun k' n' some => ⟨fun _ => ⟨keeper.trans followed, keeps⟩, fun no => ?_⟩⟩
      cases some
      exact absurd is no
    · obtain ⟨t, row, told⟩ := other is
      refine ⟨u, t, heard, row, ?_, ?_, (nomatch ·), fun k' n' some => ?_⟩
      · rw [told.domain]
        exact told
      · rw [told.domain]
        exact listed
      · cases some
        refine ⟨fun yes => absurd yes is, fun _ => ?_⟩
        rw [told.domain]
        unfold following
        dsimp only
        rw [place]
        split <;> rfl

end

/-- Settles O41, message by message. -/
theorem domainMessagesAct : Obligations.DomainMessagesAct := by
  unfold Obligations.DomainMessagesAct
  refine fun s m => ⟨heartbeat_heard, pdelay_measured, fun h p => ⟨hello_conflicts h p, hello_returns h p⟩,
    fun h crc => ⟨announce_mismatch h, fun same => ?_⟩⟩
  rw [same]
  exact announce_follows h

end Sys2Proof.Machine
end

section
/-! Device time: what the keeper's TIME does to it, how long it stays locked, and what a module sends to its audience and partners (R347, R350, R351, R354). -/

namespace Sys2Proof.Machine

-- messages to several peers ----------------------------------------------------------------------------------------------------

/-- Steps that carry and take nothing back: what one of them sends is out at the end. -/
theorem foldl_out {α : Type} {f : State → α → State} {P : α → Msg → Prop} {R : State → Prop} (l : List α)
    (keeps : ∀ u a, R u → R (f u a) ∧ Kept u (f u a)) (out : ∀ u a, R u → Out_ (f u a) (P a)) {s : State} (h : R s) :
    Kept s (l.foldl f s) ∧ ∀ a ∈ l, Out_ (l.foldl f s) (P a) := by
  induction l generalizing s with
  | nil => exact ⟨Kept.refl s, fun a there => nomatch there⟩
  | cons a l ih =>
    obtain ⟨next, kept⟩ := keeps s a h
    obtain ⟨keptAll, outAll⟩ := ih next
    refine ⟨kept.trans keptAll, fun b there => ?_⟩
    rcases List.mem_cons.mp there with rfl | later
    · exact (out s b h).kept keptAll
    · exact outAll b later

theorem sendDom_out {s : State} (p typ : Nat) (body : List Nat) (alive : s.power.phase ≠ 0xF) :
    Kept s (sendDom s p typ body) ∧ Out_ (sendDom s p typ body) (fun x => x.dst = p ∧ x.typ = typ ∧ x.tc = 7 ∧ x.body = body) :=
  ⟨(sendDom_posted s p typ body alive).kept, (sendDom_posted s p typ body alive).out⟩

/-- A message of the domain to each of several peers, whose body traffic does not change. -/
theorem sendDoms_out {s : State} (l : List Nat) (typ : Nat) (B : State → List Nat) (same : ∀ u, Carried s u → B u = B s) (alive : s.power.phase ≠ 0xF) :
    Carried s (l.foldl (fun s p => sendDom s p typ (B s)) s) ∧
    ∀ p ∈ l, Out_ (l.foldl (fun s p => sendDom s p typ (B s)) s) (fun x => x.dst = p ∧ x.typ = typ ∧ x.tc = 7 ∧ x.body = B s) := by
  have alive' : ∀ u, Carried s u → u.power.phase ≠ 0xF := fun u h => by
    rw [h.phase]
    exact alive
  refine ⟨Carried.foldl _ (Carried.refl s) fun t p => sendDom_carried t p typ _, (foldl_out (R := Carried s) l (fun u p h => ?_) (fun u p h => ?_) (Carried.refl s)).2⟩
  · exact ⟨sendDom_carried _ _ _ _ h, (sendDom_out p typ (B u) (alive' u h)).1⟩
  · rw [← same u h]
    exact (sendDom_out p typ (B u) (alive' u h)).2

/-- Traffic on its way out leaves the domain registers alone. -/
theorem transmit_domain (s : State) (p : Nat) (m : Msg) : (transmit s p m).domain = s.domain := by
  have traced := (traceRec_told s (portDie p) (msgRec s m.job m.seq m.typ m.dst m.tc false) (Told.refl s)).domain
  unfold transmit
  extract_lets s1 s2 x n
  have counted : s2.domain = s1.domain := by
    unfold s2
    split
    · exact (count_meters s1 (portDie p) slotsDie 0x72 1 (msgAttr s1 m.job m.seq) (Meters.refl s1)).domain
    · rfl
  exact counted.trans traced

theorem offer_domain (s : State) (m : Msg) : (offer s m).domain = s.domain := by
  unfold offer
  split
  · rfl
  · split
    · exact transmit_domain s _ m
    · rfl

theorem countPaced_domain (s : State) (m : Msg) : (countPaced s m).domain = s.domain := by
  unfold countPaced
  split
  · split <;> rfl
  · rfl

theorem send_lastSent (s : State) (m : Msg) (alive : s.power.phase ≠ 0xF) : (send s m).domain.lastSent = aput s.domain.lastSent m.dst s.time := by
  unfold send
  rw [if_neg alive]
  extract_lets k t t' v
  rw [offer_domain, countPaced_domain]

/-- Nothing has been sent to a peer yet (R354). -/
def Unsent (s : State) (p : Nat) : Prop := s.domain.lastSent.all (fun e => e.1 != p) = true

theorem Unsent.none {s : State} {p : Nat} (h : Unsent s p) : s.domain.lastSent.find? (fun e => e.1 == p) = none :=
  List.find?_eq_none.mpr fun e there => by simpa using List.all_eq_true.mp h e there

/-- A message to another peer is none to this one. -/
theorem Unsent.send {s : State} {p : Nat} (h : Unsent s p) (m : Msg) (alive : s.power.phase ≠ 0xF) (other : m.dst ≠ p) : Unsent (send s m) p := by
  unfold Unsent at h ⊢
  rw [send_lastSent s m alive]
  unfold aput
  split
  · rw [List.all_map]
    refine List.all_eq_true.mpr fun e there => ?_
    have before := List.all_eq_true.mp h e there
    dsimp only [Function.comp]
    split
    · simpa using other
    · exact before
  · rw [List.all_append, h]
    simpa using other

/-- A heartbeat to a partner, where it has had no other message for 10 ms (R354). -/
def beat (s : State) (p : Nat) : State :=
  match s.domain.lastSent.find? (fun e => e.1 == p) with
  | some e => if s.time < e.2 + 10000000 then s else sendDom s p mtHeartbeat []
  | none => sendDom s p mtHeartbeat []

theorem beat_eq (s : State) (p : Nat) : beat s p = s ∨ beat s p = sendDom s p mtHeartbeat [] := by
  unfold beat
  split
  · split
    · exact .inl rfl
    · exact .inr rfl
  · exact .inr rfl

theorem beat_carried {s : State} (u : State) (p : Nat) (h : Carried s u) : Carried s (beat u p) := by
  rcases beat_eq u p with same | sent
  · rwa [same]
  · rw [sent]
    exact sendDom_carried _ _ _ _ h

theorem beat_kept {s : State} (p : Nat) (alive : s.power.phase ≠ 0xF) : Kept s (beat s p) := by
  rcases beat_eq s p with same | sent
  · rw [same]
    exact Kept.refl s
  · rw [sent]
    exact (sendDom_out p mtHeartbeat [] alive).1

theorem Unsent.beat {s : State} {p q : Nat} (h : Unsent s p) (alive : s.power.phase ≠ 0xF) (other : q ≠ p) : Unsent (beat s q) p := by
  rcases beat_eq s q with same | sent
  · rwa [same]
  · rw [sent]
    exact h.send _ alive other

/-- A partner to which nothing has been sent has its heartbeat, whoever has one before it. -/
theorem beats_out (l : List Nat) {s : State} (alive : s.power.phase ≠ 0xF) :
    Kept s (l.foldl beat s) ∧ ∀ p ∈ l, Unsent s p → Out_ (l.foldl beat s) (fun x => x.dst = p ∧ x.typ = mtHeartbeat ∧ x.tc = 7) := by
  induction l generalizing s with
  | nil => exact ⟨Kept.refl s, fun p there => nomatch there⟩
  | cons q l ih =>
    have alive' : (beat s q).power.phase ≠ 0xF := by
      rw [(beat_carried s q (Carried.refl s)).phase]
      exact alive
    obtain ⟨kept, out⟩ := ih alive'
    refine ⟨(beat_kept q alive).trans kept, fun p there unsent => ?_⟩
    by_cases now : p = q
    · subst now
      have sent : beat s p = sendDom s p mtHeartbeat [] := by
        unfold beat
        rw [unsent.none]
      have first := (sendDom_out p mtHeartbeat [] alive).2.mono (Q := fun x => x.dst = p ∧ x.typ = mtHeartbeat ∧ x.tc = 7) fun x ⟨dst, typ, tc, _⟩ => ⟨dst, typ, tc⟩
      rw [← sent] at first
      exact first.kept kept
    · exact out p ((List.mem_cons.mp there).resolve_left now) (unsent.beat alive (Ne.symm now))

-- TIME and TIME_UNLOCKED -------------------------------------------------------------------------------------------------------

/-- The device time that TIME leads to: forward to the keeper's, once locked by at most 100 ppm of the time since the last, and never back (R350, R351). -/
def timeTowards (s : State) (to_ : Nat) : Nat :=
  if s.time < to_ then (if s.domain.locked then min to_ (s.time + (s.time - s.domain.lastTime) / 10000) else to_) else s.time

theorem timeTowards_le (s : State) (to_ : Nat) : s.time ≤ timeTowards s to_ := by
  unfold timeTowards
  split
  · split
    · exact Nat.le_min.mpr ⟨by omega, by omega⟩
    · omega
  · exact Nat.le_refl _

/-- The domain's view of its time after TIME was taken in. -/
def Domain.timed (d : Domain) (now to_ : Nat) (hops : Nat) (offset : Int) : Domain :=
  { d with locked := true, slewing := now != to_, ahead := now - to_, hops := hops, offset := offset, lastTime := now }

theorem Heard.getPort {s u : State} {m : MsgHdr} (h : Heard s u m) (p : Nat) : getPort u p = getPort s p := by
  obtain ⟨w, v, rfl, told, -⟩ := h
  exact congrArg (fun l => tget Port.rest l p) told.ports

section
variable {s : State}

theorem time_eq {m : MsgHdr} (h : Arrives s mtTime m) (p now hops : Nat) {n : Nat} (keeper : s.domain.keeper = some (m.src, n)) (follows : s.domain.isKeeper = false)
    (inside : s.domain.outside = false) (phase : s.power.phase = 7) {far : Nat} (is : now + (getPort s p).chDelay = far) :
    ∃ u t, Heard s u m ∧ Meters { u with time := timeTowards s far } t ∧
      exec (.time m p now hops) s = .next { t with domain := u.domain.timed (timeTowards s far) far hops ((far : Int) - (s.time : Int)) } := by
  obtain ⟨u, heard, acts⟩ := receive_heard h
  have domain := heard.domain
  have keeper' : u.domain.keeper = some (m.src, n) := (congrArg Domain.keeper domain :).trans keeper
  have follows' : u.domain.isKeeper = false := (congrArg Domain.isKeeper domain :).trans follows
  have inside' : u.domain.outside = false := (congrArg Domain.outside domain :).trans inside
  have ready' : ready u = true := by
    unfold ready
    rw [heard.carried.phase, phase]
    rfl
  have locked : u.domain.locked = s.domain.locked := (congrArg Domain.locked domain :)
  have last : u.domain.lastTime = s.domain.lastTime := (congrArg Domain.lastTime domain :)
  have towards : ∀ x, timeTowards u x = timeTowards s x := fun x => by
    unfold timeTowards
    rw [heard.carried.time, locked, last]
  have told := timeTo_says u (timeTowards s far)
  rw [Nat.max_eq_right (by rw [heard.carried.time]; exact timeTowards_le s _)] at told
  refine ⟨u, _, heard, told, ?_⟩
  show execTime m p now hops s = _
  unfold execTime
  rw [acts, ← towards, ← heard.carried.time, ← is, ← heard.getPort]
  refine congrArg Host.Outcome.next (if_neg ?_)
  simp [keeper', follows', inside', ready']

theorem time_follows {m : MsgHdr} (p now hops n : Nat) (h : Arrives s mtTime m) (keeper : s.domain.keeper = some (m.src, n)) (follows : s.domain.isKeeper = false)
    (inside : s.domain.outside = false) (phase : s.power.phase = 7) :
    ∃ u t, Heard s u m ∧ exec (.time m p now hops) s = .next t ∧ Meters { u with time := t.time, domain := t.domain } t ∧ s.time ≤ t.time ∧
      t.domain.locked = true ∧ t.domain.hops = hops ∧ t.domain.lastTime = t.time ∧ t.domain.keeper = s.domain.keeper ∧
      t.domain.offset = ((now + (getPort s p).chDelay : Nat) : Int) - (s.time : Int) ∧ t.time = timeTowards s (now + (getPort s p).chDelay) := by
  obtain ⟨u, t, heard, told, row⟩ := time_eq h p now hops keeper follows inside phase rfl
  have time : t.time = timeTowards s (now + (getPort s p).chDelay) := told.time
  refine ⟨u, _, heard, row, ?_, ?_, rfl, rfl, time.symm, (congrArg Domain.keeper heard.domain :), rfl, time⟩
  · have moved : Meters { u with time := t.time } t := by
      rw [time]
      exact told
    exact { moved with domain := rfl }
  · dsimp only
    rw [time]
    exact timeTowards_le s _

theorem timeUnlocked_unlocks (locked : s.domain.locked = true) : ∃ t, exec .timeUnlocked s = .next t ∧ t.time = max s.time (s.domain.lastTime + 500000) ∧
    t.domain = { s.domain with locked := false, slewing := false } ∧ Told { s with time := t.time, domain := t.domain } t := by
  have moved := timeTo_says s (s.domain.lastTime + 500000)
  generalize made : timeTo s (s.domain.lastTime + 500000) = v at moved
  have domain : v.domain = s.domain := moved.domain
  have time : v.time = max s.time (s.domain.lastTime + 500000) := moved.time
  have told := raiseMod_told _ 8 0x29 0 0 0 (fire_told { v with domain := { v.domain with locked := false, slewing := false } } 8 22 (Told.refl _))
  generalize ended : raiseMod (fire { v with domain := { v.domain with locked := false, slewing := false } } 8 22) 8 0x29 0 0 0 = t at told
  refine ⟨t, ?_, told.time.trans time, told.domain.trans (by rw [domain]), ?_⟩
  · show execTimeUnlocked s = _
    unfold execTimeUnlocked
    rw [if_pos locked]
    dsimp only
    rw [made, ended]
  · rw [told.domain, told.time]
    dsimp only
    rw [time]
    have moved' : Told { s with time := max s.time (s.domain.lastTime + 500000), domain := { v.domain with locked := false, slewing := false } }
        { v with domain := { v.domain with locked := false, slewing := false } } := moved.told.setDomain _
    exact moved'.trans told

theorem timeUnlocked_idle (unlocked : s.domain.locked = false) : exec .timeUnlocked s = .next s := by
  show execTimeUnlocked s = _
  unfold execTimeUnlocked
  rw [if_neg (by simp [unlocked])]

-- the keeper's timers and the heartbeat ----------------------------------------------------------------------------------------

theorem ready_of (phase : s.power.phase = 7) : ready s = true := by
  unfold ready
  rw [phase]
  rfl

theorem timeTimer_sends (keeps : s.domain.isKeeper = true) (phase : s.power.phase = 7) :
    ∃ t, exec .timeTimer s = .next t ∧ Carried s t ∧ (audience s = [] → t = s) ∧
      ∀ p ∈ audience s, ∃ x, (x ∈ t.sent ∨ x ∈ t.held) ∧ x.dst = p ∧ x.typ = mtTime ∧ x.tc = 7 ∧ x.body = [s.time, 0] := by
  obtain ⟨carried, out⟩ := sendDoms_out (audience s) mtTime (fun s => [s.time, 0]) (fun u h => by rw [h.time]) (by omega : s.power.phase ≠ 0xF)
  refine ⟨_, ?_, carried, fun nobody => by rw [nobody]; rfl, out⟩
  show execTimeTimer s = _
  unfold execTimeTimer
  rw [if_pos ⟨keeps, ready_of phase⟩]

theorem announceTimer_sends (keeps : s.domain.isKeeper = true) (phase : s.power.phase = 7) :
    ∃ t, exec .announceTimer s = .next t ∧ Carried s t ∧
      ∀ p ∈ audience s, ∃ x, (x ∈ t.sent ∨ x ∈ t.held) ∧ x.dst = p ∧ x.typ = mtAnnounce ∧ x.tc = 7 ∧ x.body = [listCrcOf s] := by
  have same : ∀ u, Carried s u → [listCrcOf u] = [listCrcOf s] := fun u h => by
    unfold listCrcOf
    rw [show u.domain.successors = s.domain.successors from (congrArg Domain.successors h.domain :)]
  obtain ⟨carried, out⟩ := sendDoms_out (audience s) mtAnnounce (fun s => [listCrcOf s]) same (by omega : s.power.phase ≠ 0xF)
  refine ⟨_, ?_, carried, out⟩
  show execAnnounceTimer s = _
  unfold execAnnounceTimer
  rw [if_pos ⟨keeps, ready_of phase⟩]
  rfl

theorem keeperTimers_idle (follows : s.domain.isKeeper = false) : exec .timeTimer s = .next s ∧ exec .announceTimer s = .next s := by
  refine ⟨?_, ?_⟩
  · show execTimeTimer s = _
    unfold execTimeTimer
    rw [if_neg (by simp [follows])]
  · show execAnnounceTimer s = _
    unfold execAnnounceTimer
    rw [if_neg (by simp [follows])]

theorem heartbeatTimer_beats (phase : s.power.phase = 7) : ∃ t, exec .heartbeatTimer s = .next t ∧ Carried s t ∧
    ∀ p ∈ partners s, Unsent s p → ∃ x, (x ∈ t.sent ∨ x ∈ t.held) ∧ x.dst = p ∧ x.typ = mtHeartbeat ∧ x.tc = 7 := by
  refine ⟨(partners s).foldl beat s, ?_, Carried.foldl _ (Carried.refl s) fun t p h => beat_carried t p h,
    (beats_out (partners s) (by omega : s.power.phase ≠ 0xF)).2⟩
  show execHeartbeatTimer s = _
  unfold execHeartbeatTimer
  rw [if_pos (ready_of phase)]
  rfl

end

/-- Settles O42, clause by clause. -/
theorem deviceTimeFollowsTheKeeper : Obligations.DeviceTimeFollowsTheKeeper := by
  unfold Obligations.DeviceTimeFollowsTheKeeper
  refine fun s => ⟨fun m p now hops n h keeper follows inside phase => ?_, timeUnlocked_unlocks, timeUnlocked_idle,
    fun keeps phase => ⟨timeTimer_sends keeps phase, announceTimer_sends keeps phase⟩, keeperTimers_idle, heartbeatTimer_beats⟩
  obtain ⟨u, t, heard, row, meters, grows, locked, hops', last, keeper', offset, time⟩ := time_follows p now hops n h keeper follows inside phase
  refine ⟨u, t, heard, row, meters, grows, locked, hops', last, keeper', offset, fun free behind => ?_, fun held behind => ?_, fun ahead => ?_⟩
  · rw [time, timeTowards, if_pos behind, if_neg (by simp [free])]
  · rw [time, timeTowards, if_pos behind, if_pos held]
  · rw [time, timeTowards, if_neg (Nat.not_lt.mpr ahead)]

end Sys2Proof.Machine
end
section
/-! SUPPORT. What stands when a peer is lost (R354, R355): the end, the kill and the commit of a command, and the rounds that go on without the peer, change
no job, session or die, nothing that is lent or staged here, and nothing of the module's place in its domain. -/

namespace Sys2Proof.Machine

/-- A module's place in its domain: all but the counts and times of messages, and the flips that the keeper has noted. -/
def Domain.place (d : Domain) : Domain := { d with rx := [], tx := [], lastSent := [], lastHeard := [], permutes := [] }

/-- What stands whatever commands and rounds end. -/
structure Stands (s t : State) : Prop where
  time : t.time = s.time
  jobs : t.jobs = s.jobs
  sessions : t.sessions = s.sessions
  cfg : t.cfg = s.cfg
  loans : t.loans = s.loans
  remoteSt : t.remoteSt = s.remoteSt
  place : t.domain.place = s.domain.place
  dies : ∀ d, (getDie t d).kept = (getDie s d).kept

theorem Stands.refl (s : State) : Stands s s := ⟨rfl, rfl, rfl, rfl, rfl, rfl, rfl, fun _ => rfl⟩

theorem Stands.trans {s t u : State} (h : Stands s t) (g : Stands t u) : Stands s u :=
  ⟨g.time.trans h.time, g.jobs.trans h.jobs, g.sessions.trans h.sessions, g.cfg.trans h.cfg, g.loans.trans h.loans, g.remoteSt.trans h.remoteSt,
    g.place.trans h.place, fun d => (g.dies d).trans (h.dies d)⟩

/-- Other fields written. -/
theorem Stands.set {s x y : State} (h : Stands s x)
    (same : (y.time, y.jobs, y.sessions, y.cfg, y.loans, y.remoteSt, y.domain.place, y.dies) =
      (x.time, x.jobs, x.sessions, x.cfg, x.loans, x.remoteSt, x.domain.place, x.dies)) : Stands s y := by
  simp only [Prod.mk.injEq] at same
  obtain ⟨time, jobs, sessions, cfg, loans, remoteSt, place, dies⟩ := same
  exact h.trans ⟨time, jobs, sessions, cfg, loans, remoteSt, place, fun d => by unfold getDie; rw [dies]⟩

theorem Stands.ite {s a b : State} {p : Prop} [Decidable p] (ha : Stands s a) (hb : Stands s b) : Stands s (if p then a else b) := by
  split
  · exact ha
  · exact hb

theorem Stands.foldl {α : Type} {s x : State} {f : State → α → State} (h : Stands s x) (keeps : ∀ t a, Stands s t → Stands s (f t a)) (l : List α) :
    Stands s (l.foldl f x) := foldl_keeps (P := Stands s) keeps l h

theorem Domain.place_of_kept {d e : Domain} (h : d.kept = e.kept) : d.place = e.place := by
  have place := congrArg Domain.place h
  exact place

theorem Carried.stands {s t : State} (h : Carried s t) : Stands s t :=
  ⟨h.time, h.jobs, h.sessions, h.cfg, h.loans, h.remoteSt, Domain.place_of_kept h.domain, h.dies⟩

theorem Told.stands {s t : State} (h : Told s t) : Stands s t := h.carried.stands
theorem Meters.stands {s t : State} (h : Meters s t) : Stands s t := h.carried.stands

-- what observes, reports and sends ----------------------------------------------------------------------------------------

section
variable {s u : State} (h : Stands s u)
include h

theorem count_stands {d slots code n attr} : Stands s (count u d slots code n attr) := h.trans (count_told _ _ _ _ _ _ (Told.refl u)).stands
theorem fire_stands {d i} : Stands s (fire u d i) := h.trans (fire_told _ _ _ (Told.refl u)).stands
theorem fireMsix_stands {v} : Stands s (fireMsix u v) := h.trans (fireMsix_told _ _ (Told.refl u)).stands
theorem wrLocal_stands {key a bs} : Stands s (wrLocal u key a bs) := h.trans (wrLocal_told _ _ _ _ (Told.refl u)).stands
theorem wrPlain_stands {a bs} : Stands s (wrPlain u a bs) := h.trans (wrPlain_told _ _ _ (Told.refl u)).stands
theorem wrHost_stands {a bs} : Stands s (wrHost u a bs) := h.set (by rfl)
theorem traceRec_stands {d r} : Stands s (traceRec u d r) := h.trans (traceRec_told _ _ _ (Told.refl u)).stands
theorem raise_stands {place code job layer seq d0 d1 d2} : Stands s (raise u place code job layer seq d0 d1 d2) :=
  h.trans (raise_told _ _ _ _ _ _ _ _ _ (Told.refl u)).stands
theorem raiseFor_stands {place code failed ses job layer seq d0 d1 d2} : Stands s (raiseFor u place code failed ses job layer seq d0 d1 d2) :=
  h.trans (raiseFor_told _ _ _ _ _ _ _ _ _ _ _ (Told.refl u)).stands
theorem raiseMod_stands {place code d0 d1 d2} : Stands s (raiseMod u place code d0 d1 d2) := h.trans (raiseMod_told _ _ _ _ _ _ (Told.refl u)).stands
theorem drift_stands {attr} : Stands s (drift u attr) := h.trans (drift_told _ _ (Told.refl u)).stands
theorem countWork_stands {c} : Stands s (countWork u c) := h.trans (countWork_told _ _ (Told.refl u)).stands
theorem engineDone_stands {c} : Stands s (engineDone u c) := h.trans (engineDone_meters _ _ (Meters.refl u)).stands
theorem seqAttn_stands {c} : Stands s (seqAttn u c) := h.trans (seqAttn_meters _ _ (Meters.refl u)).stands
theorem send_stands {m} : Stands s (send u m) := h.trans (send_carried _ _ (Carried.refl u)).stands
theorem sendCmd_stands {c dst typ tc body data} : Stands s (sendCmd u c dst typ tc body data) :=
  h.trans (sendCmd_carried _ _ _ _ _ _ _ (Carried.refl u)).stands
theorem sendWb_stands {o seq peer typ tc body data} : Stands s (sendWb u o seq peer typ tc body data) := send_stands h

-- objects and their copies --------------------------------------------------------------------------------------------------

theorem syncPool_stands {p} : Stands s (syncPool u p) := by
  unfold syncPool
  split
  · exact h
  · exact wrLocal_stands (wrLocal_stands h)

theorem putObj_stands {d o} : Stands s (putObj u d o) := by
  unfold putObj
  exact syncPool_stands (syncPool_stands (wrLocal_stands (wrLocal_stands (wrLocal_stands (h.set (by rfl))))))

theorem killWb_stands {d t} : Stands s (killWb u d t) := by
  unfold killWb
  split
  · exact h
  · split
    · exact h
    · refine putObj_stands ?_
      split
      · exact Stands.ite (sendWb_stands h) h
      · exact h

theorem killWbs_stands {p} : Stands s (killWbs u p) := Stands.foldl h (fun _ _ kept => killWb_stands (killWb_stands kept)) _

theorem clearCopy_stands {d t} : Stands s (clearCopy u d t) := by
  unfold clearCopy
  split
  · exact h
  · exact putObj_stands (count_stands h)

theorem markRetired_stands {a} : Stands s (markRetired u a) := by
  unfold markRetired
  exact Stands.ite h (raiseMod_stands (h.set (by rfl)))

theorem memError_stands {die source job layer seq ses g} : Stands s (memError u die source job layer seq ses g) := by
  unfold memError
  extract_lets m m' s1 s2 s3
  have recorded : Stands s s1 := h.set (by rfl)
  have reported : Stands s s3 := raiseFor_stands (Stands.ite (fire_stands recorded) recorded)
  exact Stands.ite (markRetired_stands reported) reported

theorem stageWb_stands {d t seq} : Stands s (stageWb u d t seq) := by
  unfold stageWb
  split
  · exact h
  · refine Stands.ite (putObj_stands ?_) (putObj_stands h)
    split
    · exact Stands.foldl h (fun _ _ kept => sendWb_stands kept) _
    · exact h

theorem removeCopy_stands {d t} : Stands s (removeCopy u d t) := by
  unfold removeCopy
  split
  · exact h
  · refine Stands.ite h (Stands.ite (clearCopy_stands h) ?_)
    split
    · refine putObj_stands ?_
      split
      · exact memError_stands h
      · exact h
    · exact stageWb_stands (h.set (by rfl))

theorem unpinUse_stands {d t} : Stands s (unpinUse u d t) := by
  unfold unpinUse
  split
  · exact h
  · exact Stands.ite (removeCopy_stands (putObj_stands h)) (putObj_stands h)

theorem dropPromotion_stands {d t} : Stands s (dropPromotion u d t) := by
  unfold dropPromotion
  split
  · exact h
  · exact Stands.ite (putObj_stands h) h

theorem markDirty_stands {ws} : Stands s (markDirty u ws) := by
  refine Stands.foldl h (fun x e kept => Stands.foldl kept (fun y t kept => ?_) _) _
  split
  · exact kept
  · exact Stands.ite (putObj_stands kept) kept

-- locks -------------------------------------------------------------------------------------------------------------------

theorem jobCount_stands {job layer field width add} : Stands s (jobCount u job layer field width add) := by
  unfold jobCount
  split
  · exact h
  · exact Stands.ite (Stands.ite (wrHost_stands h) h) (wrLocal_stands h)

theorem endStall_stands {c} : Stands s (endStall u c).1 := by
  unfold endStall
  split
  · exact h
  · exact traceRec_stands (Stands.ite (jobCount_stands h) (jobCount_stands (jobCount_stands h)))

theorem setLock_stands {l k} : Stands s (setLock u l k) := h.set (by rfl)
theorem putCmd_stands {c} : Stands s (putCmd u c) := h.set (by rfl)
theorem leaveQueue_stands {l cid} : Stands s (leaveQueue u l cid) := h.set (by rfl)
theorem returnClaim_stands {l t} : Stands s (returnClaim u l t) := h.set (by rfl)

theorem grantClaim_stands {l cid t} : Stands s (grantClaim u l cid t) := by
  unfold grantClaim
  split
  · exact h
  · exact traceRec_stands (putCmd_stands (endStall_stands (setLock_stands h)))

omit h in
theorem evalClaims_stands {l n} (h : Stands s u) : Stands s (evalClaims l n u) := by
  induction n generalizing u with
  | zero => exact h
  | succ n ih =>
    unfold evalClaims
    dsimp only
    split
    · exact h
    · split
      · exact ih (setLock_stands h)
      · exact Stands.ite (ih (grantClaim_stands h)) h

theorem reclaim_stands {l} : Stands s (reclaim u l) := evalClaims_stands h
theorem settleSetters_stands {l} : Stands s (settleSetters u l) := by
  unfold settleSetters
  exact Stands.ite (reclaim_stands (setLock_stands h)) h

theorem addCount_stands {l n by_} : Stands s (addCount u l n by_) := by
  unfold addCount
  exact Stands.ite (raise_stands (traceRec_stands (count_stands (setLock_stands h)))) (traceRec_stands (count_stands (setLock_stands h)))

theorem signalLock_stands {l n job peer by_} : Stands s (signalLock u l n job peer by_) := by
  unfold signalLock
  exact Stands.ite (reclaim_stands (addCount_stands h)) (raise_stands h)

theorem endHold_stands {k} : Stands s (endHold u k) := by
  unfold endHold
  split
  · exact h
  · exact unpinUse_stands h

theorem consume_stands {c} : Stands s (consume u c) := by
  unfold consume
  exact Stands.foldl (traceRec_stands (count_stands (setLock_stands h))) (fun _ _ kept => endHold_stands kept) _

-- what a commit writes ------------------------------------------------------------------------------------------------------

theorem publishWrites_stands {key ws} : Stands s (publishWrites u key ws) := by
  unfold publishWrites
  exact (Stands.foldl h (fun _ _ kept => Stands.ite (wrLocal_stands kept) (Stands.ite (wrHost_stands kept) kept)) ws).set (by rfl)

theorem poundPublish_stands {d ws} : Stands s (poundPublish u d ws) := by
  obtain ⟨q, form⟩ := poundPublish_queue u d ws
  rw [form]
  exact h.set (by rfl)

theorem moduleWrite_stands {sess job g bs} : Stands s (moduleWrite u sess job g bs) := by
  unfold moduleWrite
  extract_lets at_
  split
  · next d o _ =>
    extract_lets killed to_ written
    have freed : Stands s killed := by
      unfold killed
      split
      · exact killWb_stands h
      · exact h
    exact Stands.ite h (markDirty_stands (Stands.ite (Stands.ite (wrHost_stands freed) freed) (Stands.ite (wrLocal_stands freed) freed)))
  · exact Stands.ite (Stands.ite (wrHost_stands h) h) (Stands.ite (wrLocal_stands h) h)

theorem ringEntry_stands {sess job ringAt entries bs} : Stands s (ringEntry u sess job ringAt entries bs) := by
  unfold ringEntry
  exact Stands.ite (moduleWrite_stands h) (moduleWrite_stands (moduleWrite_stands h))

theorem writeEntries_stands {c} : Stands s (writeEntries u c) := by
  unfold writeEntries
  extract_lets x
  have census : Stands s x := by
    unfold x
    split
    · exact Stands.ite (Stands.foldl h (fun _ _ kept => Stands.ite kept (ringEntry_stands kept)) _) h
    · exact h
  exact Stands.foldl census (fun _ _ kept => Stands.foldl kept (fun _ _ kept => Stands.ite (ringEntry_stands kept) kept) _) _

-- the end of a command --------------------------------------------------------------------------------------------------------

theorem dropCmd_stands {i} : Stands s (dropCmd u i) := h.set (by rfl)

theorem releaseRun_stands {c} : Stands s (releaseRun u c) := by
  unfold releaseRun
  refine Stands.foldl (Stands.ite (dropPromotion_stands ?_) ?_) (fun _ _ kept => sendCmd_stands kept) _
  all_goals exact Stands.foldl (Stands.ite (h.set (by rfl)) h) (fun _ _ kept => unpinUse_stands kept) _

theorem setRing_stands {r x} : Stands s (setRing u r x) := h.set (by rfl)
theorem resetRing_stands {r} : Stands s (resetRing u r) := h.set (by rfl)

theorem endUnbind_stands {r} : Stands s (endUnbind u r) := by
  unfold endUnbind
  exact Stands.ite (fireMsix_stands (resetRing_stands h)) h

theorem ringFault_stands {r k} : Stands s (ringFault u r k) := by
  unfold ringFault
  extract_lets x s1 s2 s3 s4
  have dropped : Stands s s2 := h.set (by rfl)
  have fired : Stands s s3 := Stands.ite dropped (fire_stands dropped)
  exact raiseFor_stands (Stands.ite (fired.set (by rfl)) fired)

theorem writeReply_stands {r bs} : Stands s (writeReply u r bs) := by
  unfold writeReply
  extract_lets x g i faulted nonce cipher storing ringed firing
  have stored : Stands s storing := Stands.ite (Stands.ite (wrHost_stands (wrHost_stands h)) (wrHost_stands h)) (wrPlain_stands h)
  have fired : Stands s firing := fire_stands (setRing_stands stored)
  exact Stands.ite (setRing_stands (ringFault_stands h)) (Stands.ite (Stands.ite (fireMsix_stands fired) fired) (setRing_stands stored))

theorem finishCmd_stands {c} : Stands s (finishCmd u c) := by
  unfold finishCmd
  extract_lets s1 s2
  have dropped : Stands s s1 := dropCmd_stands h
  have gone : Stands s s2 := dropped.set (by rfl)
  split
  · exact endUnbind_stands (Stands.ite (setRing_stands gone) (writeReply_stands gone))
  · exact gone

theorem putPf_stands {k p} : Stands s (putPf u k p) := by
  unfold putPf
  exact wrLocal_stands (wrLocal_stands (wrLocal_stands (h.set (by rfl))))

theorem promotionFault_stands {sc e status} : Stands s (promotionFault u sc e status) := by
  unfold promotionFault
  split
  · exact h
  · extract_lets released layer p' failed
    have freed : Stands s released := by
      unfold released
      split
      · exact unpinUse_stands h
      · exact h
    exact Stands.ite (putPf_stands freed) (raise_stands (putPf_stands freed))

theorem copyEnded_stands {parent entry r} : Stands s (copyEnded u parent entry r) := by
  unfold copyEnded
  split
  · exact h
  · exact putCmd_stands h

theorem endCopies_stands {parent} : Stands s (endCopies u parent) := by
  unfold endCopies
  exact (Stands.foldl h (fun _ _ kept => releaseRun_stands kept) _).set (by rfl)

theorem requeueRe_stands {c} : Stands s (requeueRe u c) := by
  unfold requeueRe
  exact Stands.ite h (h.set (by rfl))

theorem endCmd_stands {c status detail} : Stands s (endCmd u c status detail) := by
  unfold endCmd
  extract_lets s1 st r s2 c2 s3 s4 s5 s6 s7 s8 c' s9 s10 l s11 s12
  clear_value st
  have released : Stands s s2 := endStall_stands (releaseRun_stands h)
  have traced : Stands s s4 := traceRec_stands (Stands.ite (traceRec_stands released) released)
  have counted : Stands s s5 := Stands.ite (jobCount_stands traced) traced
  have placed : Stands s s6 := by
    unfold s6
    split
    · exact Stands.ite (count_stands counted) counted
    · exact counted
  have done : Stands s s7 := engineDone_stands (seqAttn_stands placed)
  have finished : Stands s s9 := finishCmd_stands (Stands.ite (drift_stands done) done)
  have settled : Stands s s10 := by
    unfold s10
    split
    · exact settleSetters_stands (leaveQueue_stands finished)
    · exact finished
  have left : Stands s s12 := Stands.ite settled (reclaim_stands (leaveQueue_stands (Stands.ite (returnClaim_stands settled) settled)))
  split
  · exact promotionFault_stands left
  · exact copyEnded_stands left
  · exact endCopies_stands left
  · exact left

theorem endAll_stands {status detail p} : Stands s (endAll u status detail p) := by
  refine Stands.foldl h (fun _ _ kept => ?_) _
  split
  · exact endCmd_stands kept
  · exact kept

theorem endLink_stands {c peer} : Stands s (endLink u c peer) := endCmd_stands h

theorem killCmd_stands {c cause} : Stands s (killCmd u c cause) := by
  unfold killCmd
  extract_lets st r s1 c1 s2 s3 s4 s5 s6 unrun c' s7 l s8 k s9
  have unstalled : Stands s r.1 := by
    unfold r
    split
    · exact endStall_stands h
    · exact h
  have released : Stands s s1 := releaseRun_stands unstalled
  have settled : Stands s s2 := by
    unfold s2
    split
    · exact settleSetters_stands (leaveQueue_stands released)
    · exact released
  have traced : Stands s s3 := Stands.ite (traceRec_stands settled) settled
  have counted : Stands s s4 := Stands.ite (drift_stands (jobCount_stands traced)) traced
  have placed : Stands s s5 := by
    unfold s5
    split
    · exact Stands.ite (count_stands counted) counted
    · exact counted
  have queued : Stands s s7 := requeueRe_stands (putCmd_stands (seqAttn_stands placed))
  have waits : Stands s s9 := reclaim_stands (setLock_stands (Stands.ite (returnClaim_stands queued) queued))
  refine Stands.ite queued ?_
  split
  · exact putCmd_stands waits
  · exact waits

-- a commit ----------------------------------------------------------------------------------------------------------------------

theorem commitWith_stands {eff : State → Cmd → State} (effect : ∀ x c, Stands s x → Stands s (eff x c)) {c} : Stands s (commitWith eff u c) := by
  delta commitWith
  extract_lets same both c1 s1 key d loc s2 s3 s4 s5 s6 s7 s8 s9 s10 s11 s12 s13 lenders s14 c2
  clear_value same
  have published : Stands s s3 := poundPublish_stands (markDirty_stands (publishWrites_stands (putCmd_stands h)))
  have consumed : Stands s s4 := Stands.ite published (consume_stands published)
  have signalled : Stands s s5 := by
    unfold s5
    split
    · exact signalLock_stands consumed
    · exact consumed
  have written : Stands s s7 := writeEntries_stands (effect _ _ signalled)
  have unpinned : Stands s s8 := Stands.foldl written (fun _ _ kept => unpinUse_stands kept) _
  have traced : Stands s s10 := traceRec_stands (Stands.ite unpinned (reclaim_stands unpinned))
  have counted : Stands s s11 := drift_stands (countWork_stands (jobCount_stands traced))
  have placed : Stands s s12 := by
    unfold s12
    split
    · exact Stands.ite (count_stands counted) counted
    · exact counted
  have told : Stands s s14 := Stands.foldl (engineDone_stands placed) (fun _ _ kept => sendCmd_stands kept) _
  split
  · exact putCmd_stands told
  · exact dropCmd_stands (publishWrites_stands told)

theorem stage_stands {eff : State → Cmd → State} (effect : ∀ x c, Stands s x → Stands s (eff x c)) {c r} : Stands s (stage eff u c r) := by
  unfold stage
  extract_lets c1 far s1 s2
  have sent : Stands s s1 := Stands.foldl h (fun _ _ kept => sendCmd_stands kept) _
  have counted : Stands s s2 := count_stands sent
  split
  · exact endLink_stands h
  · exact Stands.ite (commitWith_stands counted effect) (putCmd_stands counted)

-- rounds (R362 to R366) ---------------------------------------------------------------------------------------------------------

theorem putRound_stands {r} : Stands s (putRound u r) := h.set (by rfl)
theorem putStream_stands {r} : Stands s (putStream u r) := h.set (by rfl)

theorem putShard_stands {a x} : Stands s (putShard u a x) := by
  unfold putShard
  exact wrLocal_stands (wrLocal_stands (h.set (by rfl)))

theorem addGacc_stands {c sum n} : Stands s (addGacc u c sum n) := by
  unfold addGacc
  split
  · exact h
  · exact putShard_stands (markDirty_stands (wrLocal_stands h))

theorem answerLate_stands {job group stream round peer} : Stands s (answerLate u job group stream round peer) := by
  unfold answerLate
  split
  · exact send_stands h
  · exact h

theorem collEff_stands {c} : Stands s (collEff u c) := by
  unfold collEff
  extract_lets d group st n live late kept stored added crc domain noted
  have lateStored : Stands s late := putStream_stands h
  have roundStored : Stands s stored := putStream_stands h
  have summed : Stands s added := Stands.ite (addGacc_stands roundStored) roundStored
  have flips : Stands s noted := Stands.ite (summed.set (by rfl)) summed
  refine Stands.ite (Stands.ite ?_ lateStored) (Stands.ite ?_ flips)
  · split
    · exact addGacc_stands lateStored
    · exact lateStored
  · split
    · exact Stands.foldl (putRound_stands flips) (fun _ _ kept => answerLate_stands kept) _
    · exact flips

theorem tryFlip_stands {c} : Stands s (tryFlip u c) := by
  unfold tryFlip
  exact Stands.ite (putCmd_stands (Stands.foldl h (fun _ _ kept => sendCmd_stands kept) _)) h

theorem collFinish_stands {c} : Stands s (collFinish u c) := by
  unfold collFinish
  extract_lets live staged
  have stages : Stands s staged := stage_stands h fun _ _ kept => collEff_stands kept
  refine Stands.ite h ?_
  split
  · exact stages
  · refine tryFlip_stands (Stands.ite ?_ (Stands.ite ?_ stages))
    · exact Stands.foldl stages (fun _ _ kept => send_stands kept) _
    · exact Stands.foldl stages (fun _ _ kept => Stands.ite (send_stands kept) kept) _

theorem takeSet_stands {c set n seq runs} : Stands s (takeSet u c set n seq runs) := by
  unfold takeSet
  exact collFinish_stands (Stands.foldl (putCmd_stands h) (fun _ _ kept => sendCmd_stands kept) _)

theorem freezeRound_stands {r} : Stands s (freezeRound u r) := by
  unfold freezeRound
  split
  · exact h
  · extract_lets set n frozen st kept told
    have tells : Stands s told := Stands.foldl (putStream_stands (putRound_stands h)) (fun _ _ kept => sendCmd_stands kept) _
    exact Stands.ite (takeSet_stands tells) tells

theorem freezeIfDue_stands {job group stream round} : Stands s (freezeIfDue u job group stream round) := by
  unfold freezeIfDue
  split
  · exact Stands.ite (freezeRound_stands h) h
  · exact h

omit h in
theorem freezeFrom_stands {n job group stream round} (h : Stands s u) : Stands s (freezeFrom n u job group stream round) := by
  induction n generalizing u round with
  | zero => exact h
  | succ n ih => exact Stands.ite (ih (freezeIfDue_stands h)) (freezeIfDue_stands h)

theorem tryFreeze_stands {job group stream round} : Stands s (tryFreeze u job group stream round) := freezeFrom_stands h

theorem collLost_stands {p} : Stands s (collLost u p) := by
  unfold collLost
  extract_lets left frozen
  have leaves : Stands s left := h.set (by rfl)
  have freezes : Stands s frozen := Stands.foldl leaves (fun _ _ kept => tryFreeze_stands kept) _
  refine Stands.foldl freezes (fun x c kept => ?_) _
  have gone : Stands s { x with rounds := x.rounds.filter fun r => !(roundIs c.pkt.job (groupHash (asRead x c) c) (descOf x c).stream (descOf x c).round r) } := kept.set (by rfl)
  exact Stands.ite (Stands.ite (killCmd_stands gone) (Stands.ite (Stands.ite (killCmd_stands kept) kept) (endCmd_stands kept)))
    (Stands.ite (killCmd_stands kept) kept)

theorem openChange_stands {i} : Stands s (openChange u i) := by
  unfold openChange
  split
  · exact h
  · have put : ∀ c, Stands s (putChange u c) := fun c => h.set (by rfl)
    exact Stands.ite (Stands.foldl (put _) (fun x p kept => kept.trans (sendDom_carried x p _ _ (Carried.refl x)).stands) _) h

end
end Sys2Proof.Machine
end
section
/-! A lost peer: what it lent and staged here is gone, and the next candidate is followed where it was the keeper (R348, R349, R354, R355). -/

namespace Sys2Proof.Machine

-- succession (R348) ------------------------------------------------------------------------------------------------------------

theorem Stands.lost {s t : State} (h : Stands s t) : t.domain.lost = s.domain.lost := (congrArg Domain.lost h.place :)
theorem Stands.keeper {s t : State} (h : Stands s t) : t.domain.keeper = s.domain.keeper := (congrArg Domain.keeper h.place :)
theorem Stands.isKeeper {s t : State} (h : Stands s t) : t.domain.isKeeper = s.domain.isKeeper := (congrArg Domain.isKeeper h.place :)

/-- Another domain, the same in both. -/
theorem Stands.setDomain {s t : State} (h : Stands s t) (d : Domain) : Stands { s with domain := d } { t with domain := d } := { h with place := rfl }

theorem nextKeeper_present {s : State} {k p : Nat} (next : nextKeeper s = some k) (lost : p ∈ s.domain.lost) : k ≠ p := by
  unfold nextKeeper at next
  have present := List.find?_some next
  rintro rfl
  simp [lost] at present

/-- A module follows a keeper that it has not declared lost. -/
theorem succeed_follows {s : State} {p : Nat} (lost : p ∈ s.domain.lost) :
    ∃ d, Stands { s with domain := d } (succeed s p) ∧ d.lost = s.domain.lost ∧ ∀ k, d.keeper = some k → k.1 ≠ p := by
  unfold succeed
  split
  · exact ⟨{ s.domain with keeper := none }, Stands.refl _, rfl, nofun⟩
  · next k next =>
    have present : ∀ x, some (k, posOf s k) = some x → x.1 ≠ p := by
      rintro x ⟨⟩
      exact nextKeeper_present next lost
    extract_lets own d follows told
    have tells : Stands { s with domain := follows.domain } told := raiseMod_stands (fire_stands (Stands.refl follows))
    split
    · exact ⟨{ told.domain with members := tput told.domain.members p 2 },
        (tells.setDomain _).trans (sendMembers_carried _ (sendAnnounce_carried _ (Carried.refl _))).stands, tells.lost, fun x here => present x (tells.keeper.symm.trans here)⟩
    · exact ⟨follows.domain, tells, rfl, present⟩

-- a peer declared lost (R354, R355) ---------------------------------------------------------------------------------------------

/-- What a peer has staged and lent here is gone. -/
def withdraw (s : State) (p : Nat) : State :=
  { s with remoteSt := s.remoteSt.filter (fun r => !(r.peer == p)), loans := s.loans.filter (fun l => !(l.2.peer == p)) }

theorem Stands.withdraw {s t : State} (h : Stands s t) (p : Nat) : Stands (withdraw s p) (withdraw t p) :=
  { h with remoteSt := congrArg (List.filter _) h.remoteSt, loans := congrArg (List.filter _) h.loans }

theorem dropHeld_stands {s u : State} (h : Stands s u) {p : Nat} : Stands s (dropHeld u p) := by
  unfold dropHeld
  exact Stands.foldl (h.set (by rfl)) (fun _ _ kept => raise_stands kept) _

/-- The keeper sends its table; every other module tells the keeper that it follows, where that is not the peer itself. -/
def tellLost (s : State) (p : Nat) : State :=
  if s.domain.isKeeper then setMember s p 2
  else match s.domain.keeper with
    | some (k, _) => if k = p then s else sendDom s k mtLost [p]
    | none => s

theorem tellLost_stands (s : State) (p : Nat) :
    ∃ d, Stands { s with domain := d } (tellLost s p) ∧ d.lost = s.domain.lost ∧ d.keeper = s.domain.keeper := by
  unfold tellLost
  split
  · exact ⟨{ s.domain with members := tput s.domain.members p 2 }, (setMember_carried s p 2).stands, rfl, rfl⟩
  · refine ⟨s.domain, ?_, rfl, rfl⟩
    split
    · exact Stands.ite (Stands.refl s) (sendDom_carried s _ _ _ (Carried.refl s)).stands
    · exact Stands.refl s

/-- What is done for a lost peer before the next candidate is followed. -/
theorem declareLost_before {s : State} {p : Nat} (other : p ≠ s.cfg.peerId) (known : s.domain.lost.contains p = false) :
    ∃ d v, Stands (withdraw { s with domain := d } p) v ∧ d.lost = s.domain.lost ++ [p] ∧ d.keeper = s.domain.keeper ∧
      declareLost s p = match v.domain.keeper with
        | some (k, _) => if k = p then succeed v p else v
        | none => v := by
  unfold declareLost
  rw [if_neg (not_or.mpr ⟨other, by rw [known]; exact Bool.false_ne_true⟩)]
  extract_lets domain listed raised reported told withdrawn killed ended left changed opened
  have reports : Stands { s with domain := { s.domain with lost := s.domain.lost ++ [p] } } reported :=
    raiseMod_stands (Stands.foldl (fire_stands (Stands.refl _)) (fun _ _ kept => raise_stands kept) _)
  obtain ⟨d, tells, lost, keeper⟩ := tellLost_stands reported p
  have lists : Stands { s with domain := d } told := (reports.setDomain d).trans tells
  have withdraws : Stands (withdraw { s with domain := d } p) withdrawn := lists.withdraw p
  have ends : Stands (withdraw { s with domain := d } p) ended := endAll_stands (killWbs_stands (dropHeld_stands withdraws))
  have leaves : Stands (withdraw { s with domain := d } p) left := collLost_stands ends
  clear_value left
  have changes : Stands (withdraw { s with domain := d } p) changed := leaves.set (by rfl)
  have opens : Stands (withdraw { s with domain := d } p) opened := Stands.foldl changes (fun _ _ kept => openChange_stands kept) _
  clear_value opened
  exact ⟨d, opened, opens, lost.trans reports.lost, keeper.trans reports.keeper, rfl⟩

theorem declareLost_says {s : State} {p : Nat} (other : p ≠ s.cfg.peerId) (known : s.domain.lost.contains p = false) :
    ∃ d, Stands (withdraw { s with domain := d } p) (declareLost s p) ∧ p ∈ d.lost ∧
      ∀ n, s.domain.keeper = some (p, n) → ∀ k, d.keeper = some k → k.1 ≠ p := by
  obtain ⟨d, v, before, lost, keeper, form⟩ := declareLost_before other known
  have listed : p ∈ d.lost := by
    rw [lost]
    exact List.mem_append_right _ (List.mem_singleton_self p)
  obtain ⟨e, follows, same, present⟩ := succeed_follows (before.lost ▸ listed : p ∈ v.domain.lost)
  have stays (no : ∀ n, s.domain.keeper ≠ some (p, n)) : ∃ d, Stands (withdraw { s with domain := d } p) v ∧ p ∈ d.lost ∧
      ∀ n, s.domain.keeper = some (p, n) → ∀ k, d.keeper = some k → k.1 ≠ p :=
    ⟨d, before, listed, fun n followed => absurd followed (no n)⟩
  rw [form, before.keeper.trans keeper]
  split
  · next k n followed =>
    split
    · next here =>
      subst here
      exact ⟨e, (before.setDomain e).trans follows, same ▸ before.lost ▸ listed, fun _ _ => present⟩
    · next away => exact stays fun n here => away (congrArg Prod.fst (Option.some.inj (followed.symm.trans here)))
  · next none => exact stays fun n here => nomatch none.symm.trans here

-- the messages and the timer ---------------------------------------------------------------------------------------------------

theorem peerLost_withdraws {s : State} {p : Nat} (phase : s.power.phase = 7) (other : p ≠ s.cfg.peerId) (known : s.domain.lost.contains p = false) :
    ∃ d t, exec (.peerLost p) s = .next t ∧ p ∈ d.lost ∧
      Stands (withdraw { s with time := max s.time (aget 0 s.domain.lastHeard p + 50000000), domain := d } p) t ∧
      (∀ n, s.domain.keeper = some (p, n) → ∀ k, d.keeper = some k → k.1 ≠ p) := by
  have timed := timeTo_says s (aget 0 s.domain.lastHeard p + 50000000)
  have acts : exec (.peerLost p) s = .next (declareLost (timeTo s (aget 0 s.domain.lastHeard p + 50000000)) p) := by
    show execPeerLost p s = _
    unfold execPeerLost
    rw [if_pos (ready_of phase)]
  generalize timeTo s (aget 0 s.domain.lastHeard p + 50000000) = v at timed acts
  have domain : v.domain = s.domain := timed.domain
  obtain ⟨d, withdraws, lost, present⟩ := declareLost_says (s := v) (p := p) (timed.cfg ▸ other) (domain ▸ known)
  exact ⟨d, _, acts, lost, ((timed.stands.setDomain d).withdraw p).trans withdraws, domain ▸ present⟩

theorem lost_noted {s : State} {m : MsgHdr} {p : Nat} (h : Arrives s mtLost m) (other : p ≠ s.cfg.peerId) (follows : s.domain.isKeeper = false) :
    ∃ u, Heard s u m ∧ exec (.lost m p) s = .next u := by
  obtain ⟨u, heard, acts⟩ := receive_heard h
  have role : u.domain.isKeeper = false := (congrArg Domain.isKeeper heard.domain :).trans follows
  refine ⟨u, heard, ?_⟩
  show execLost m p s = _
  unfold execLost
  rw [acts, if_neg (heard.carried.cfg ▸ other), role]
  rfl

theorem lost_withdraws {s : State} {m : MsgHdr} {p : Nat} (h : Arrives s mtLost m) (other : p ≠ s.cfg.peerId) (known : s.domain.lost.contains p = false)
    (keeps : s.domain.isKeeper = true) : ∃ d t, exec (.lost m p) s = .next t ∧ p ∈ d.lost ∧ Stands (withdraw { s with domain := d } p) t := by
  obtain ⟨u, heard, acts⟩ := receive_heard h
  have role : u.domain.isKeeper = true := (congrArg Domain.isKeeper heard.domain :).trans keeps
  have list : u.domain.lost = s.domain.lost := (congrArg Domain.lost heard.domain :)
  have away : p ≠ u.cfg.peerId := heard.carried.cfg ▸ other
  obtain ⟨d, withdraws, lost, -⟩ := declareLost_says away (list ▸ known)
  refine ⟨d, sendDom (declareLost u p) p mtLost [p], ?_, lost, ?_⟩
  · show execLost m p s = _
    unfold execLost
    rw [acts, if_neg away, role]
    rfl
  · exact (((heard.told d).stands.withdraw p).trans withdraws).trans (sendDom_carried _ _ _ _ (Carried.refl _)).stands

theorem member_marks {s : State} {m : MsgHdr} {table : List (Nat × Nat)} {n : Nat} (h : Arrives s mtMember m) (follows : s.domain.keeper = some (m.src, n))
    (inside : s.domain.outside = false) (none : ∀ e ∈ table, e.2 ≠ 2) :
    ∃ u, Heard s u m ∧ exec (.member m table) s = .next { u with domain := { u.domain with
      members := table.foldl (fun t e => tset 0 t e.1 e.2) [],
      lost := s.domain.lost.filter (fun p => !(((table.filter (fun e => e.2 == 1 && tget 0 s.domain.members e.1 == 2)).map Prod.fst).contains p)) } } := by
  obtain ⟨u, heard, acts⟩ := receive_heard h
  have keeper : u.domain.keeper = some (m.src, n) := (congrArg Domain.keeper heard.domain :).trans follows
  have within : u.domain.outside = false := (congrArg Domain.outside heard.domain :).trans inside
  have members : u.domain.members = s.domain.members := (congrArg Domain.members heard.domain :)
  have lost : u.domain.lost = s.domain.lost := (congrArg Domain.lost heard.domain :)
  have new : table.filter (fun e => e.2 == 2) = [] := List.filter_eq_nil_iff.mpr fun e here => by simpa using none e here
  refine ⟨u, heard, ?_⟩
  show execMember m table s = _
  unfold execMember
  rw [acts, ← members, ← lost]
  simp only [keeper, within, new, List.map_nil, List.foldl_nil]
  refine congrArg Host.Outcome.next (if_neg ?_)
  simp

/-- Settles O43: a peer's loss takes away what it lent and staged here and its place in the domain, and nothing besides. -/
theorem lostPeersLeaveTheDomain : Obligations.LostPeersLeaveTheDomain := by
  unfold Obligations.LostPeersLeaveTheDomain
  intro s
  refine ⟨fun p phase other known => ?_, fun m p arrives other known => ⟨lost_noted arrives other, fun keeps => ?_⟩,
    fun m table n arrives follows inside none => member_marks arrives follows inside none⟩
  · obtain ⟨d, t, acts, lost, stands, present⟩ := peerLost_withdraws phase other known
    exact ⟨t, acts, stands.lost ▸ lost, stands.time, stands.loans, stands.remoteSt, stands.jobs, stands.sessions, stands.cfg, stands.dies,
      fun n followed k now => present n followed k (stands.keeper.symm.trans now)⟩
  · obtain ⟨d, t, acts, lost, stands⟩ := lost_withdraws arrives other known keeps
    exact ⟨t, acts, stands.lost ▸ lost, stands.loans, stands.remoteSt, stands.time, stands.jobs, stands.sessions, stands.cfg⟩

end Sys2Proof.Machine
end
section
/-! The rows of the collectives and their timers: joining, exchanging, committing; the deadline of a round and the flip of a PERMUTE (R358, R362, R363, R369). -/

namespace Sys2Proof.Machine

-- what a collective's command reads, whatever its record ----------------------------------------------------------------------

theorem Reads.put (s : State) (z : Cmd) : Reads s (putCmd s z) := ⟨rfl, rfl, rfl, rfl⟩

theorem putCmd_cmds_of {s u : State} (same : u.cmds = s.cmds) (z : Cmd) : (putCmd u z).cmds = (putCmd s z).cmds := by
  unfold putCmd
  rw [same]

theorem Carried.ofPut {s t : State} {z : Cmd} (h : Carried (putCmd s z) t) : Carried { s with cmds := t.cmds } t := { h with cmds := rfl }

theorem awaiting_of {s u : State} (reads : Reads s u) (lost : u.domain.lost = s.domain.lost) (c : Cmd) : Awaiting u c ↔ Awaiting s c := by
  unfold Awaiting
  rw [expects_of reads lost]

theorem opHash_of {s u : State} (reads : Reads s u) (c : Cmd) : opHash u c = opHash s c := by
  unfold opHash
  simp only [descOf_of reads, rdStruct_of reads]

/-- A leader is a member of its own group. -/
theorem leads_mem {s : State} {c : Cmd} (h : leads s c) : s.cfg.peerId ∈ groupOf (asRead s c) c := by
  have lives : s.cfg.peerId ∈ collLive s c := List.mem_of_head? h
  exact (List.mem_filter.mp lives).1

section
variable {i : Instr} {op cid : Nat} {s : State} {c : Cmd}

theorem row_runs (row : collRow i = some (op, cid)) (h : RingRuns s cid (0x900 + op) c) : exec i s = .next (collRun op cid s) ∧ c.id = cid :=
  ⟨collRow_exec row s, (findCmd_mem h.runs.1).1⟩

-- a member that joins (R362 step 1) -------------------------------------------------------------------------------------------

/-- A member joins at a leader on another module. -/
theorem row_joins (row : collRow i = some (op, cid)) (h : RingRuns s cid (0x900 + op) c) (fresh : collSt c = 0) {p : Nat}
    (leader : (collLive s c).head? = some p) (other : p ≠ s.cfg.peerId) :
    (∀ st, linkFault s c p = some st → exec i s = .next (endCmd (putCmd s c.joins) c.joins st (if st = stDenied then 0xFE else 0))) ∧
    (linkFault s c p = none → exec i s = .next (sendCmd (putCmd s c.joins) c.joins p mtCollJoin 7
      [collHash s c, (descOf s c).stream, (descOf s c).round, opHash s c, b2n (collTwice s c)] [])) := by
  have first : (liveOf (putCmd s c.joins) (groupOf (asRead s c) c)).head? = some p := leader
  have same : linkFault (putCmd s c.joins) c p = linkFault s c p := rfl
  rw [(row_runs row h).1, collRun_eq h.runs, if_pos fresh, first, opHash_of (Reads.put s c.joins)]
  dsimp only
  rw [if_neg other, same]
  refine ⟨fun st fault => ?_, fun linked => ?_⟩
  · rw [fault]
  · rw [linked]

theorem row_joins_linked (row : collRow i = some (op, cid)) (h : RingRuns s cid (0x900 + op) c) (fresh : collSt c = 0) {p : Nat}
    (leader : (collLive s c).head? = some p) (other : p ≠ s.cfg.peerId) (linked : linkFault s c p = none) (alive : s.power.phase ≠ 0xF) :
    ∃ t, exec i s = .next t ∧ t.cmds = (putCmd s c.joins).cmds ∧ Carried { s with cmds := t.cmds } t ∧ MemSame s t ∧
      Posted s t (fun m => m.dst = p ∧ m.typ = mtCollJoin ∧ m.tc = 7 ∧ m.job = c.pkt.job ∧
        m.body = [collHash s c, (descOf s c).stream, (descOf s c).round, opHash s c, b2n (collTwice s c)]) := by
  have acts := (row_joins row h fresh leader other).2 linked
  have carried := sendCmd_carried (putCmd s c.joins) c.joins p mtCollJoin 7
    [collHash s c, (descOf s c).stream, (descOf s c).round, opHash s c, b2n (collTwice s c)] [] (Carried.refl _)
  have quiet := sendCmd_quiet (putCmd s c.joins) c.joins p mtCollJoin 7
    [collHash s c, (descOf s c).stream, (descOf s c).round, opHash s c, b2n (collTwice s c)] [] (putCmd_quiet _ c.joins (Quiet.refl s))
  obtain ⟨m, ⟨dst, typ, tc, job, body, -⟩, left⟩ := sendCmd_posted (putCmd s c.joins) c.joins p mtCollJoin 7
    [collHash s c, (descOf s c).stream, (descOf s c).round, opHash s c, b2n (collTwice s c)] [] alive
  exact ⟨_, acts, carried.cmds, carried.ofPut, quiet.same, m, ⟨dst, typ, tc, job, body⟩, left⟩

theorem row_joins_fault (row : collRow i = some (op, cid)) (h : RingRuns s cid (0x900 + op) c) (fresh : collSt c = 0) {p st : Nat}
    (leader : (collLive s c).head? = some p) (other : p ≠ s.cfg.peerId) (fault : linkFault s c p = some st) :
    ∃ t, exec i s = .next t ∧ Ended (putCmd s c.joins) t c.joins st (if st = stDenied then 0xFE else 0) :=
  ⟨_, (row_joins row h fresh leader other).1 st fault, endCmd_ended _ _ _ _⟩

/-- The leader joins its own round, which waits or freezes. -/
theorem row_leads (row : collRow i = some (op, cid)) (h : RingRuns s cid (0x900 + op) c) (fresh : collSt c = 0) {r : Round} (first : leads s c)
    (own : collCmd s c.pkt.job (collHash s c) (descOf s c).stream (descOf s c).round = some c)
    (joins : Joins s c.pkt.job (collHash s c) (descOf s c).stream (descOf s c).round (opHash s c) s.cfg.peerId (collTwice s c) r) :
    (¬ Complete s r c → exec i s = .next (putRound (putCmd s c.joins) r)) ∧
    (Complete s r c → Awaiting s (c.joins.takes (frozenSet s r c) (frozenCount s r c) c.pkt.seq (c.runs % 256)) →
      NoneWaits s c.pkt.job (collHash s c) (descOf s c).stream (descOf s c).round → ∃ t, exec i s = .next t ∧ Froze (putCmd s c.joins) t r c.joins) := by
  have acts : exec i s = .next (joinRound (putCmd s c.joins) c.pkt.job (collHash s c) (descOf s c).stream (descOf s c).round (opHash s c) s.cfg.peerId (collTwice s c)) := by
    have head : (liveOf (putCmd s c.joins) (groupOf (asRead s c) c)).head? = some s.cfg.peerId := first
    rw [(row_runs row h).1, collRun_eq h.runs, if_pos fresh, head, opHash_of (Reads.put s c.joins)]
    exact congrArg Host.Outcome.next (if_pos rfl)
  have mine : collCmd (putCmd s c.joins) c.pkt.job (collHash s c) (descOf s c).stream (descOf s c).round = some c.joins :=
    collCmd_put own rfl rfl rfl rfl rfl rfl
  obtain ⟨waits, freezes⟩ := (join_says (v := putCmd s c.joins) joins ⟨rfl, Reads.put s c.joins, rfl⟩).2 c.joins mine
  obtain ⟨-, -, -, -, -, joined, -⟩ := joinRound_says (v := s) joins rfl
  have member : s.cfg.peerId ∈ frozenSet s r c.joins := List.mem_filter.mpr ⟨leads_mem first, List.contains_iff_mem.mpr joined⟩
  refine ⟨fun open_ => ?_, fun complete awaits none => ⟨_, acts, freezes complete member awaits none⟩⟩
  rw [acts, waits open_]

theorem row_joined (row : collRow i = some (op, cid)) (h : RingRuns s cid (0x900 + op) c) (joined : collSt c = 1) : exec i s = .next s := by
  rw [(row_runs row h).1, collRun_eq h.runs, if_neg (by omega), if_neg (by omega)]

-- a member that exchanges data (R362 steps 3 and 4) --------------------------------------------------------------------------

theorem row_exchanges (row : collRow i = some (op, cid)) (h : RingRuns s cid (0x900 + op) c) (set : collSt c = 2) : exec i s = .next (collFinish s c) := by
  rw [(row_runs row h).1, collRun_eq h.runs, if_neg (by omega), if_pos set]

/-- A PERMUTE that is not late waits for its flip (R369). -/
theorem permute_waits {s : State} {c : Cmd} (permute : c.pkt.clsOp = 0x907) (now : collSt c ≠ 9) : (collStaged s c).wait = true := by
  have seven : c.pkt.op = 7 := clsOp_op (op := 7) (by omega) permute
  have other : atOwner c = false := by
    unfold atOwner
    rw [seven]
    rfl
  show collAwaits s c = true
  unfold collAwaits
  simp only [other, now, seven]
  rfl

theorem row_commits (row : collRow i = some (op, cid)) (h : RingRuns s cid (0x900 + op) c) (set : collSt c = 2) (complete : ¬ Awaiting s c)
    (near : ∀ w ∈ (collStaged s c).writes, w.tgt.tier ≠ 4) (now : (collStaged s c).wait = false) :
    ∃ t, exec i s = .next t ∧ Recorded s cid c (collStaged s c) t ∧ CollDone s t c (collStaged s c).writes := by
  obtain ⟨k, ring⟩ := h.ring
  have other : c.pkt.clsOp ≠ 0x907 := fun permute => by
    rw [permute_waits permute (by omega)] at now
    cases now
  have self : c.self ∈ s.cmds.map Cmd.self := find_map_self h.runs.1
  obtain ⟨recorded, done⟩ := collFinish_done complete ring (Beside.refl s) (Quiet.refl s) rfl self ⟨now, rfl, near⟩ other
  exact ⟨_, row_exchanges row h set, (row_runs row h).2 ▸ recorded, done⟩

theorem row_stages (row : collRow i = some (op, cid)) (h : RingRuns s cid (0x900 + op) c) (set : collSt c = 2) (complete : ¬ Awaiting s c)
    (near : ∀ w ∈ (collStaged s c).writes, w.tgt.tier ≠ 4) (later : (collStaged s c).wait = true) :
    ∃ t a, exec i s = .next t ∧ t.cmds = (putCmd s { withRun c (collStaged s c) with aux := c.aux ++ a }).cmds ∧ (op ≠ 7 → a = []) ∧
      Carried { s with cmds := t.cmds } t ∧ MemSame s t := by
  have here : c.id ∈ s.cmds.map Cmd.id := (row_runs row h).2 ▸ (findCmd_mem h.runs.1).2
  obtain ⟨a, cmds, none, carried, quiet⟩ := collFinish_waits complete here later near
  have other : op ≠ 7 → c.pkt.clsOp ≠ 0x907 := fun away => by
    rw [h.runs.2.2]
    omega
  exact ⟨_, a, row_exchanges row h set, cmds, fun away => none (other away), carried, quiet.same⟩

end

-- timers ------------------------------------------------------------------------------------------------------------------------

section
variable {s : State} {cid : Nat} {c : Cmd}

/-- At DEADLINE the leader freezes its round with those that have joined (R362). -/
theorem deadline_freezes {r : Round} (found : findCmd s cid = some c) (cls : c.pkt.cls = 9) (uses : inUse c = true)
    (here : s.rounds.find? (roundIs c.pkt.job (collHash s c) (descOf s c).stream (descOf s c).round) = some r) (unfrozen : r.frozen = none)
    (deadline : (descOf s c).deadline ≠ 0) (first : leads s c)
    (own : collCmd s c.pkt.job (collHash s c) (descOf s c).stream (descOf s c).round = some c) (member : s.cfg.peerId ∈ frozenSet s r c)
    (awaits : Awaiting s (c.takes (frozenSet s r c) (frozenCount s r c) c.pkt.seq (c.runs % 256)))
    (none : NoneWaits s c.pkt.job (collHash s c) (descOf s c).stream (descOf s c).round) :
    ∃ t, exec (.collectiveDeadline cid) s = .next t ∧ t.time = max s.time ((descOf s c).deadline + 3) ∧ Froze { s with time := t.time } t r c := by
  have names := List.find?_some here
  unfold roundIs at names
  simp only [Bool.and_eq_true, beq_iff_eq] at names
  obtain ⟨⟨⟨job, group⟩, stream⟩, round⟩ := names
  have same := here
  rw [← job, ← group, ← stream, ← round] at same own none
  have timed := timeTo_says s ((descOf s c).deadline + 3)
  have acts : exec (.collectiveDeadline cid) s = .next (tryFreeze (freezeRound (timeTo s ((descOf s c).deadline + 3)) r) r.job r.group r.stream ((r.round + 1) % 2 ^ 32)) := by
    show execCollectiveDeadline cid s = _
    unfold execCollectiveDeadline
    rw [found]
    dsimp only
    rw [if_neg (by simp [cls, uses]), here]
    dsimp only
    rw [if_pos ⟨unfrozen, deadline, first⟩, timed.rounds, same]
  generalize timeTo s ((descOf s c).deadline + 3) = v at timed acts
  have reads : Reads s v := ⟨timed.jobs, timed.sessions, timed.cfg, timed.objs⟩
  have set : frozenSet v r c = frozenSet s r c := by
    unfold frozenSet
    rw [groupOf_of reads]
  have count : frozenCount v r c = frozenCount s r c := by
    unfold frozenCount
    rw [set]
  have froze : Froze v (freezeRound v r) r c := by
    refine freezeRound_says ((collCmd_of (s := s) timed.cmds reads _ _ _ _).trans own) ?_ ?_
    · rw [set, timed.cfg]
      exact member
    · rw [set, count]
      exact (awaiting_of reads (congrArg Domain.lost timed.domain) _).mpr awaits
  have rest : tryFreeze (freezeRound v r) r.job r.group r.stream ((r.round + 1) % 2 ^ 32) = freezeRound v r :=
    freezeFrom_none _ (froze.next fun x there => none x (timed.rounds ▸ there))
  have time : (freezeRound v r).time = max s.time ((descOf s c).deadline + 3) := froze.rest.time.trans timed.time
  rw [rest] at acts
  refine ⟨_, acts, time, ?_⟩
  rw [time]
  exact froze.shift timed

/-- At T_flip a member of a PERMUTE commits (R369). -/
theorem flip_commits (found : findCmd s cid = some c) {k : Nat} (ring : c.origin = .ring k) (permute : c.pkt.clsOp = 0x907) (staged : c.phase = .staged)
    (told : c.aux.length = 6) :
    ∃ t, exec (.permuteFlip cid) s = .next t ∧ t.time = max s.time (c.aux.getD 5 0) ∧ Recorded { s with time := t.time } cid c (stagedAs c) t ∧
      CollDone { s with time := t.time } t c c.writes := by
  have timed := timeTo_says s (c.aux.getD 5 0)
  have acts : exec (.permuteFlip cid) s = .next (commitWith collEff (timeTo s (c.aux.getD 5 0)) c) := by
    have again : findCmd (timeTo s (c.aux.getD 5 0)) cid = some c := by
      unfold findCmd
      rw [timed.cmds]
      exact found
    show execPermuteFlip cid s = _
    unfold execPermuteFlip
    rw [found]
    dsimp only
    rw [if_pos ⟨permute, staged, told⟩, again]
  generalize timeTo s (c.aux.getD 5 0) = v at timed acts
  obtain ⟨recorded, done⟩ := coll_commit ring timed.beside timed.quiet timed.objs (find_map_self found : c.self ∈ s.cmds.map Cmd.self)
  have time : (commitWith collEff v c).time = max s.time (c.aux.getD 5 0) := done.rest.time
  refine ⟨_, acts, time, ?_, ?_⟩
  · rw [time]
    exact (findCmd_mem found).1 ▸ recorded
  · rw [time]
    exact done

end
end Sys2Proof.Machine
end
section
/-! The messages of the collectives: COLL_JOIN, COLL_SET, COLL_DATA, COLL_LATE, COLL_FLIP and the acknowledgements of a PERMUTE (R362 to R365, R369). -/

namespace Sys2Proof.Machine

-- what a message that is heard leaves of a collective ------------------------------------------------------------------------

theorem Heard.contained {s u : State} {m : MsgHdr} (h : Heard s u m) : Contained s u := by
  obtain ⟨w, v, rfl, told, -⟩ := h
  exact (Contained.set (Contained.refl s)).trans told.contained

theorem Heard.collCmd {s u : State} {m : MsgHdr} (h : Heard s u m) (job group stream round : Nat) :
    collCmd u job group stream round = collCmd s job group stream round := collCmd_of h.carried.cmds h.carried.reads _ _ _ _

theorem Heard.memory {s u : State} {m : MsgHdr} (h : Heard s u m) (still : Still s) : u.mem = s.mem ∧ u.keys = s.keys := by
  obtain ⟨w, v, rfl, -, same⟩ := h
  rw [same still]
  exact ⟨rfl, rfl⟩

theorem Heard.awaiting {s u : State} {m : MsgHdr} (h : Heard s u m) (z c : Cmd) : Awaiting (putCmd u z) c ↔ Awaiting s c :=
  awaiting_of (h.carried.reads.trans (Reads.put u z)) h.carried.lost c

theorem Heard.withCmds {s u : State} {m : MsgHdr} (h : Heard s u m) (l : List Cmd) : Carried { s with cmds := l } { u with cmds := l } := { h.carried with cmds := rfl }

/-- The record of a command changed where only the message was heard before. -/
theorem Heard.ofPut {s u t : State} {m : MsgHdr} (h : Heard s u m) {z : Cmd} (after : Carried (putCmd u z) t) : Carried { s with cmds := t.cmds } t :=
  (h.withCmds t.cmds).trans after.ofPut

theorem sendsTo_of {s u : State} (reads : Reads s u) (lost : u.domain.lost = s.domain.lost) (c : Cmd) : sendsTo u c = sendsTo s c := by
  unfold sendsTo permTable liveOf
  simp only [groupOf_of reads, descOf_of reads, rdStruct_of reads, reads.cfg, lost]

/-- A message that leaves after only reports. -/
theorem Posted.before {s u t : State} {P : Msg → Prop} (h : Posted u t P) (sent : u.sent = s.sent) (held : u.held = s.held) : Posted s t P := by
  unfold Posted at h ⊢
  rwa [sent, held] at h

section
variable {s : State} {m : MsgHdr} {group stream round : Nat}

-- COLL_JOIN (R362, R365) --------------------------------------------------------------------------------------------------------

theorem collJoin_joins (h : Arrives s mtCollJoin m) (op : Nat) (twice : Bool) :
    ∃ u, Heard s u m ∧ exec (.collJoin m group stream round op twice) s = .next (joinRound u m.job group stream round op m.src twice) := by
  obtain ⟨u, heard, acts⟩ := receive_heard h
  exact ⟨u, heard, acts fun v => joinRound v m.job group stream round op m.src twice⟩

/-- A member joins a round that is not frozen: the round waits, or it freezes. -/
theorem collJoin_takes (h : Arrives s mtCollJoin m) {op : Nat} {twice : Bool} {r : Round} (joins : Joins s m.job group stream round op m.src twice r) :
    (collCmd s m.job group stream round = none → ∃ u, Heard s u m ∧ exec (.collJoin m group stream round op twice) s = .next (putRound u r)) ∧
    (∀ c, collCmd s m.job group stream round = some c →
      (¬ Complete s r c → ∃ u, Heard s u m ∧ exec (.collJoin m group stream round op twice) s = .next (putRound u r)) ∧
      (Complete s r c → s.cfg.peerId ∈ frozenSet s r c → Awaiting s (c.takes (frozenSet s r c) (frozenCount s r c) c.pkt.seq (c.runs % 256)) →
        NoneWaits s m.job group stream round →
        ∃ u t, Heard s u m ∧ exec (.collJoin m group stream round op twice) s = .next t ∧ Froze u t r c)) := by
  obtain ⟨u, heard, acts⟩ := collJoin_joins (group := group) (stream := stream) (round := round) h op twice
  obtain ⟨alone, led⟩ := join_says (v := u) joins ⟨heard.carried.rounds, heard.carried.reads, heard.carried.lost⟩
  rw [heard.collCmd] at alone
  refine ⟨fun none => ⟨u, heard, ?_⟩, fun c mine => ?_⟩
  · rw [acts, alone none]
  · obtain ⟨waits, freezes⟩ := led c ((heard.collCmd _ _ _ _).trans mine)
    refine ⟨fun open_ => ⟨u, heard, ?_⟩, fun complete member awaits none => ⟨u, _, heard, acts, freezes complete member awaits none⟩⟩
    rw [acts, waits open_]

/-- A member that joins a frozen round whose result is kept is answered, once its lateness is reported (R365). -/
theorem joinRound_late {u : State} {job op p : Nat} {twice : Bool} {old : Round}
    (here : u.rounds.find? (fun x => x.job == job && x.stream == stream && x.round == round) = some old) (sameGroup : old.group = group)
    (sameOp : old.op = op) (frozen : old.frozen.isSome = true) {y : Nat × Nat × List Byte}
    (kept : (getStream u job group stream).results.find? (fun x => x.1 == round) = some y) :
    ∃ v, Told u v ∧ Quiet u v ∧ joinRound u job group stream round op p twice = answerLate v job group stream round p := by
  have told (attr d) : Told u (raise (fire (count u 8 slotsDie 0x75 1 attr) 8 19) 8 0x2A job 0xFFFF 0 d round 0) :=
    raise_told _ _ _ _ _ _ _ _ _ (fire_told _ _ _ (count_told _ _ _ _ _ _ (Told.refl u)))
  have quiet (attr d) : Quiet u (raise (fire (count u 8 slotsDie 0x75 1 attr) 8 19) 8 0x2A job 0xFFFF 0 d round 0) :=
    raise_quiet _ _ _ _ _ _ _ _ _ (fire_quiet _ _ _ (count_quiet _ _ _ _ _ _ (Quiet.refl u)))
  have any {v : State} (told : Told u v) : (getStream v job group stream).results.any (fun x => x.1 == round) = true := by
    rw [getStream_of told.streams]
    exact List.any_eq_true.mpr ⟨y, List.mem_of_find?_eq_some kept, List.find?_some (p := fun x : Nat × Nat × List Byte => x.1 == round) kept⟩
  unfold joinRound
  rw [here]
  dsimp only
  rw [if_neg (by simp [sameGroup, sameOp]), if_pos frozen]
  exact ⟨_, told _ _, quiet _ _, if_pos (any (told _ _))⟩

theorem answerLate_kept {v : State} {job p n : Nat} {bs : List Byte}
    (kept : (getStream v job group stream).results.find? (fun x => x.1 == round) = some (round, n, bs)) :
    answerLate v job group stream round p = send v ⟨p, mtCollLate, 7, job, 0, 0, 0xFF, 0, 0, [group, stream, round, n], bs⟩ := by
  unfold answerLate
  rw [kept]

/-- A late member is answered with the result that is kept (R365). -/
theorem collJoin_late (h : Arrives s mtCollJoin m) {op : Nat} {twice : Bool} {old : Round}
    (here : s.rounds.find? (fun x => x.job == m.job && x.stream == stream && x.round == round) = some old) (sameGroup : old.group = group)
    (sameOp : old.op = op) (frozen : old.frozen.isSome = true) {n : Nat} {bs : List Byte}
    (kept : (getStream s m.job group stream).results.find? (fun x => x.1 == round) = some (round, n, bs)) :
    ∃ t, exec (.collJoin m group stream round op twice) s = .next t ∧ Carried s t ∧ MemSame s t ∧
      Posted s t (fun x => x.dst = m.src ∧ x.typ = mtCollLate ∧ x.tc = 7 ∧ x.job = m.job ∧ x.body = [group, stream, round, n] ∧ x.data = bs) := by
  obtain ⟨u, heard, acts⟩ := collJoin_joins (group := group) (stream := stream) (round := round) h op twice
  have results : (getStream u m.job group stream).results.find? (fun x => x.1 == round) = some (round, n, bs) := by
    rw [getStream_of heard.carried.streams, kept]
  obtain ⟨v, told, quiet, answers⟩ := joinRound_late (p := m.src) (twice := twice) (heard.carried.rounds ▸ here) sameGroup sameOp frozen results
  have carried : Carried s v := heard.carried.trans told.carried
  obtain ⟨sent, held⟩ := heard.traffic
  obtain ⟨x, form, left⟩ := send_posted v ⟨m.src, mtCollLate, 7, m.job, 0, 0, 0xFF, 0, 0, [group, stream, round, n], bs⟩ (by rw [carried.phase]; exact h.alive.1)
  rw [answers, answerLate_kept (by rw [getStream_of told.streams, results])] at acts
  refine ⟨_, acts, send_carried _ _ carried, (send_quiet _ _ (heard.quiet.trans quiet)).same, Posted.before ⟨x, ?_, left⟩ (told.sent.trans sent) (told.held.trans held)⟩
  rw [Msg.mk.injEq] at form
  obtain ⟨dst, typ, tc, job, -, -, -, -, -, body, data⟩ := form
  exact ⟨dst, typ, tc, job, body, data⟩

/-- A COLL_JOIN whose hashes differ ends the round (R362). -/
theorem collJoin_mismatch (h : Arrives s mtCollJoin m) {op : Nat} {twice : Bool} {old : Round}
    (here : s.rounds.find? (fun x => x.job == m.job && x.stream == stream && x.round == round) = some old) (differs : old.group ≠ group ∨ old.op ≠ op) :
    ∃ t, exec (.collJoin m group stream round op twice) s = .next t ∧ Contained s t ∧
      (∀ c ∈ s.cmds, c.pkt.cls = 9 → inUse c = true → c.pkt.job = m.job → (descOf s c).stream = stream → (descOf s c).round = round → ∀ z ∈ t.cmds, z.id ≠ c.id) ∧
      ∀ x ∈ t.rounds, ¬ (x.job = m.job ∧ x.stream = stream ∧ x.round = round) := by
  obtain ⟨u, heard, acts⟩ := collJoin_joins (group := group) (stream := stream) (round := round) h op twice
  have same : u.rounds.find? (fun x => x.job == m.job && x.stream == stream && x.round == round) = some old := heard.carried.rounds ▸ here
  unfold joinRound at acts
  rw [same] at acts
  dsimp only at acts
  rw [if_pos differs] at acts
  obtain ⟨contained, cmds, rounds⟩ := mismatch_says (putRound u { old with joined := old.joined ++ [m.src] }) m.job stream round group
  have joined : Contained s (putRound u { old with joined := old.joined ++ [m.src] }) := Contained.set heard.contained
  refine ⟨_, acts, joined.trans contained, fun c there cls uses job str rnd => ?_, rounds⟩
  have desc : descOf (putRound u { old with joined := old.joined ++ [m.src] }) c = descOf s c := descOf_of (heard.carried.reads.trans ⟨rfl, rfl, rfl, rfl⟩) c
  exact cmds c (heard.carried.cmds ▸ there) cls uses job (desc ▸ str) (desc ▸ rnd)

-- COLL_SET (R362) -----------------------------------------------------------------------------------------------------------------

theorem collSet_acts (h : Arrives s mtCollSet m) {c : Cmd} (mine : collCmd s m.job group stream round = some c) (joined : collSt c = 1) (count : Nat) (set : List Nat) :
    ∃ u, Heard s u m ∧ exec (.collSet m group stream round count set) s = .next
      (if set = [] then endCmd (raiseCmd u c 0x2C group round 0) c stBad (badAt 24 0) else takeSet u c set count m.seq m.runs) := by
  obtain ⟨u, heard, acts⟩ := receive_heard h
  refine ⟨u, heard, ?_⟩
  show execCollSet m group stream round count set s = _
  unfold execCollSet
  rw [acts, heard.collCmd, mine]
  exact congrArg Host.Outcome.next (if_neg (not_not.mpr joined))

/-- A member takes its set and sends its data. -/
theorem collSet_takes (h : Arrives s mtCollSet m) {c : Cmd} (mine : collCmd s m.job group stream round = some c) (joined : collSt c = 1) {count : Nat} {set : List Nat}
    (some_ : set ≠ []) (awaits : Awaiting s (c.takes set count m.seq m.runs)) :
    ∃ t, exec (.collSet m group stream round count set) s = .next t ∧
      t.cmds = (putCmd s (c.takes set count m.seq m.runs)).cmds ∧ Carried { s with cmds := t.cmds } t ∧ MemSame s t ∧
      ∀ p ∈ sendsTo s (c.takes set count m.seq m.runs), Out_ t (fun x => x.dst = p ∧ x.typ = mtCollData ∧ x.tc = (descOf s c).tc ∧ x.job = c.pkt.job ∧
        x.body = [collHash s c, (descOf s c).stream, (descOf s c).round]) := by
  obtain ⟨u, heard, acts⟩ := collSet_acts h mine joined count set
  rw [if_neg some_] at acts
  have awaits' : Awaiting (putCmd u (c.takes set count m.seq m.runs)) (c.takes set count m.seq m.runs) := (heard.awaiting _ _).mpr awaits
  obtain ⟨cmds, carried, quiet, tells⟩ := takeSet_says (s := u) fun x after => awaits'.of after
  obtain ⟨-, out⟩ := tells (by rw [heard.carried.phase]; exact h.alive.1)
  rw [sendsTo_of (heard.carried.reads.trans (Reads.put u _)) heard.carried.lost, descOf_of heard.carried.reads,
    show collHash u c = collHash s c from groupHash_of heard.carried.reads c] at out
  exact ⟨_, acts, cmds.trans (putCmd_cmds_of heard.carried.cmds _), heard.ofPut carried, (heard.quiet.trans quiet).same, out⟩

-- COLL_DATA (R362, R363) ------------------------------------------------------------------------------------------------------------

theorem collData_acts (h : Arrives s mtCollData m) {c c' : Cmd} {data : List Byte} (mine : collCmd s m.job group stream round = some c)
    (runs : c.phase = .running) (new : ∀ r ∈ c.remote, r.peer ≠ m.src) (brings : c' = { c with remote := c.remote ++ [⟨m.src, m.seq * 256 + m.runs, data⟩] }) :
    ∃ u, Heard s u m ∧ exec (.collData m group stream round data) s = .next (if collSt c = 2 then collFinish (putCmd u c') c' else putCmd u c') := by
  obtain ⟨u, heard, acts⟩ := receive_heard h
  refine ⟨u, heard, ?_⟩
  show execCollData m group stream round data s = _
  unfold execCollData
  rw [acts, heard.collCmd, mine]
  subst brings
  exact congrArg Host.Outcome.next (if_neg (by simp [runs]; exact new))

/-- Data that a member still waits beside. -/
theorem collData_waits (h : Arrives s mtCollData m) {c c' : Cmd} {data : List Byte} (mine : collCmd s m.job group stream round = some c)
    (runs : c.phase = .running) (new : ∀ r ∈ c.remote, r.peer ≠ m.src) (brings : c' = { c with remote := c.remote ++ [⟨m.src, m.seq * 256 + m.runs, data⟩] })
    (more : collSt c = 2 → Awaiting s c') : ∃ u, Heard s u m ∧ exec (.collData m group stream round data) s = .next (putCmd u c') := by
  obtain ⟨u, heard, acts⟩ := collData_acts h mine runs new brings
  refine ⟨u, heard, ?_⟩
  rw [acts]
  split
  · next set => rw [collFinish_awaiting ((heard.awaiting _ _).mpr (more set))]
  · rfl

/-- What a member stages does not turn on the message that completed its data. -/
theorem Heard.gaccFlags {u : State} (h : Heard s u m) (c z : Cmd) (still : atOwner c = true → Still s) : gaccFlags (putCmd u z) c = gaccFlags s c :=
  gaccFlags_of (h.alike z) c h.carried.shards fun owner => h.memory (still owner)

/-- The data that completes a member's: it commits (R362, R363). -/
theorem collData_commits (h : Arrives s mtCollData m) {c c' : Cmd} {data : List Byte} {k : Nat} (mine : collCmd s m.job group stream round = some c)
    (runs : c.phase = .running) (new : ∀ r ∈ c.remote, r.peer ≠ m.src) (brings : c' = { c with remote := c.remote ++ [⟨m.src, m.seq * 256 + m.runs, data⟩] })
    (set : collSt c = 2) (complete : ¬ Awaiting s c') (near : Near (collStaged s c')) (ring : c.origin = .ring k) (still : atOwner c = true → Still s) :
    ∃ t, exec (.collData m group stream round data) s = .next t ∧ Recorded s c.id c' (collStaged s c') t ∧ CollDone s t c' (collStaged s c').writes := by
  obtain ⟨u, heard, acts⟩ := collData_acts h mine runs new brings
  rw [if_pos set] at acts
  have same : c'.id = c.id ∧ c'.origin = c.origin ∧ c'.self = c.self ∧ collSt c' = collSt c ∧ atOwner c' = atOwner c := by
    subst brings
    exact ⟨rfl, rfl, rfl, rfl, rfl⟩
  obtain ⟨id, origin, self, step, owner⟩ := same
  have mem : c'.self ∈ s.cmds.map Cmd.self := self ▸ List.mem_map_of_mem (collCmd_mem mine)
  have carried := heard.carried
  have staged : collStaged (putCmd u c') c' = collStaged s c' :=
    collStaged_of (heard.alike c') c' (collAwaits_of (heard.alike c') c' carried.shards (gaccBusy_put carried.shards carried.cmds carried.cfg))
      (heard.gaccFlags c' c' fun here => still (owner ▸ here))
  have other : c'.pkt.clsOp ≠ 0x907 := fun permute => by
    have waits := permute_waits (s := s) permute (by omega)
    rw [near.wait] at waits
    cases waits
  obtain ⟨recorded, done⟩ := collFinish_done (o := s) (s := putCmd u c') (c := c') (fun awaits => complete ((heard.awaiting _ _).mp awaits)) (origin.trans ring)
    (putCmd_beside _ _ mem heard.beside) (putCmd_quiet _ _ heard.quiet) carried.objs mem (staged ▸ near) other
  rw [staged] at recorded done
  exact ⟨_, acts, id ▸ recorded, done⟩

-- COLL_LATE (R365) ------------------------------------------------------------------------------------------------------------------

theorem collLate_acts (h : Arrives s mtCollLate m) {c : Cmd} (mine : collCmd s m.job group stream round = some c) (joined : collSt c = 1) (count : Nat) (result : List Byte) :
    ∃ u, Heard s u m ∧ exec (.collLate m group stream round count result) s = .next
      (if count = 0 then endCmd (raiseCmd u c 0x2B (s.cfg.peerId + b2n (descOf s c).addNext * 2 ^ 12 + stream * 2 ^ 16) round 0) c stPeerLost 0
      else stage collEff (putCmd u { c with aux := collAux 9 0 0 count, remote := [⟨m.src, 0, result⟩] }) { c with aux := collAux 9 0 0 count, remote := [⟨m.src, 0, result⟩] }
        (lateStage u { c with aux := collAux 9 0 0 count, remote := [⟨m.src, 0, result⟩] } count result)) := by
  obtain ⟨u, heard, acts⟩ := receive_heard h
  refine ⟨u, heard, ?_⟩
  show execCollLate m group stream round count result s = _
  unfold execCollLate
  rw [acts, heard.collCmd, mine, ← heard.carried.cfg, ← descOf_of heard.carried.reads]
  exact congrArg Host.Outcome.next (if_neg (not_not.mpr joined))

/-- A late member takes the result (R365). -/
theorem collLate_commits (h : Arrives s mtCollLate m) {c c' : Cmd} {count k : Nat} {result : List Byte} (mine : collCmd s m.job group stream round = some c)
    (joined : collSt c = 1) (brings : c' = { c with aux := collAux 9 0 0 count, remote := [⟨m.src, 0, result⟩] }) (some_ : count ≠ 0)
    (near : Near (lateStage s c' count result)) (ring : c.origin = .ring k) (still : atOwner c = true → Still s) :
    ∃ t, exec (.collLate m group stream round count result) s = .next t ∧ Recorded s c.id c' (lateStage s c' count result) t ∧
      CollDone s t c' (lateStage s c' count result).writes := by
  obtain ⟨u, heard, acts⟩ := collLate_acts h mine joined count result
  rw [if_neg some_, ← brings] at acts
  have same : c'.id = c.id ∧ c'.origin = c.origin ∧ c'.self = c.self ∧ c'.aux = collAux 9 0 0 count ∧ atOwner c' = atOwner c := by
    subst brings
    exact ⟨rfl, rfl, rfl, rfl, rfl⟩
  obtain ⟨id, origin, self, aux, owner⟩ := same
  have mem : c'.self ∈ s.cmds.map Cmd.self := self ▸ List.mem_map_of_mem (collCmd_mem mine)
  have carried := heard.carried
  have busy : ∀ a n, gaccBusy u c' a n = gaccBusy s c' a n := fun a n => by
    unfold gaccBusy localise
    rw [carried.cmds, carried.shards, carried.cfg]
  have staged : lateStage u c' count result = lateStage s c' count result :=
    lateStage_of heard.alike0 c' count result (collAwaits_of heard.alike0 c' carried.shards busy)
      (gaccFlags_of heard.alike0 c' carried.shards fun here => heard.memory (still (owner ▸ here)))
  obtain ⟨recorded, done⟩ := coll_stage (o := s) (w := putCmd u c') (c := c') (c0 := c') (origin.trans ring) (putCmd_beside _ _ mem heard.beside)
    (putCmd_quiet _ _ heard.quiet) carried.objs mem near rfl aux.symm
  rw [staged] at acts
  exact ⟨_, acts, id ▸ recorded, done⟩

-- PERMUTE: T_flip and the acknowledgements (R369) -------------------------------------------------------------------------------------

theorem collFlip_tells (h : Arrives s mtCollFlip m) {c : Cmd} (mine : collCmd s m.job group stream round = some c) (staged : c.phase = .staged)
    (waits : c.aux.length = 5) (tFlip : Nat) :
    ∃ u, Heard s u m ∧ exec (.collFlip m group stream round tFlip) s = .next (putCmd u { c with aux := c.aux ++ [tFlip] }) := by
  obtain ⟨u, heard, acts⟩ := receive_heard h
  refine ⟨u, heard, ?_⟩
  show execCollFlip m group stream round tFlip s = _
  unfold execCollFlip
  rw [acts, heard.collCmd, mine]
  exact congrArg Host.Outcome.next (if_pos ⟨staged, waits⟩)

/-- A PERMUTE's record once a member has acknowledged: who has, and how far the farthest is. -/
def Cmd.ackedBy (c : Cmd) (m : MsgHdr) : Cmd :=
  { c with acked := c.acked ++ [m.src], aux := if c.aux.length = 5 then c.aux.set 4 (max (c.aux.getD 4 1) (9 - m.hops)) else c.aux }

theorem permuteAck_acts (h : Arrives s mtStagedAck m) {c : Cmd} (mine : cmdOfMsg s m (fun _ => true) = some c) (ok : m.len = 0) (permute : c.pkt.clsOp = 0x907) :
    ∃ u, Heard s u m ∧ exec (.stagedAck m) s = .next (tryFlip (putCmd u (c.ackedBy m)) (c.ackedBy m)) := by
  obtain ⟨u, heard, acts⟩ := receive_heard h
  refine ⟨u, heard, ?_⟩
  show execStagedAck m s = _
  unfold execStagedAck
  rw [acts, heard.cmdOfMsg, mine]
  dsimp only
  rw [if_neg (not_not.mpr ok)]
  simp only [permute, true_and]
  rfl

/-- The last acknowledgement sets T_flip, which every member of the set is told. -/
theorem permuteAck_flips (h : Arrives s mtStagedAck m) {c : Cmd} (mine : cmdOfMsg s m (fun _ => true) = some c) (ok : m.len = 0) (permute : c.pkt.clsOp = 0x907)
    (staged : c.phase = .staged) (first : leads s c) (all : ∀ p ∈ setOf c, p ≠ s.cfg.peerId → p ∈ (c.ackedBy m).acked) (waits : c.aux.length = 5) :
    ∃ t tFlip, exec (.stagedAck m) s = .next t ∧ t.cmds = (putCmd s { c.ackedBy m with aux := (c.ackedBy m).aux ++ [tFlip] }).cmds ∧ s.time < tFlip ∧
      Carried { s with cmds := t.cmds } t ∧ MemSame s t ∧
      ∀ p ∈ setOf c, p ≠ s.cfg.peerId → Out_ t (fun x => x.dst = p ∧ x.typ = mtCollFlip ∧ x.job = c.pkt.job ∧
        x.body = [collHash s c, (descOf s c).stream, (descOf s c).round, tFlip]) := by
  obtain ⟨u, heard, acts⟩ := permuteAck_acts h mine ok permute
  have reads : Reads s (putCmd u (c.ackedBy m)) := heard.carried.reads.trans (Reads.put u _)
  obtain ⟨a, cmds, -, carried, quiet, flips, -⟩ := tryFlip_says (putCmd u (c.ackedBy m)) (c.ackedBy m)
  have leader : leads (putCmd u (c.ackedBy m)) (c.ackedBy m) := by
    unfold leads collLive liveOf
    rw [groupOf_of reads, show (putCmd u (c.ackedBy m)).domain.lost = s.domain.lost from heard.carried.lost, reads.cfg]
    exact first
  have length : (c.ackedBy m).aux.length = 5 := by
    unfold Cmd.ackedBy
    simp [waits]
  obtain ⟨tFlip, rfl, later, tells⟩ := flips permute staged leader (by rw [reads.cfg]; exact all) length
  have out := tells (by rw [show (putCmd u (c.ackedBy m)).power.phase = s.power.phase from heard.carried.phase]; exact h.alive.1)
  rw [reads.cfg, descOf_of reads, show collHash (putCmd u (c.ackedBy m)) (c.ackedBy m) = collHash s (c.ackedBy m) from groupHash_of reads _] at out
  rw [if_neg (List.cons_ne_nil _ _)] at cmds
  have once := putCmd_cmds_twice s (putCmd u (c.ackedBy m)) (c.ackedBy m) { c.ackedBy m with aux := (c.ackedBy m).aux ++ [tFlip] }
    (putCmd_cmds_of heard.carried.cmds _) rfl
  refine ⟨_, tFlip, acts, cmds.trans once, ?_, (heard.withCmds _).trans carried, ?_, out⟩
  · rw [← heard.carried.time]
    exact later
  · exact ((putCmd_quiet _ _ heard.quiet).trans quiet).same

/-- Until every member has acknowledged, a PERMUTE waits. -/
theorem permuteAck_waits (h : Arrives s mtStagedAck m) {c : Cmd} (mine : cmdOfMsg s m (fun _ => true) = some c) (ok : m.len = 0) (permute : c.pkt.clsOp = 0x907)
    (missing : ∃ p ∈ setOf c, p ≠ s.cfg.peerId ∧ p ∉ (c.ackedBy m).acked) : ∃ u, Heard s u m ∧ exec (.stagedAck m) s = .next (putCmd u (c.ackedBy m)) := by
  obtain ⟨u, heard, acts⟩ := permuteAck_acts h mine ok permute
  obtain ⟨a, -, -, -, -, -, waits⟩ := tryFlip_says (putCmd u (c.ackedBy m)) (c.ackedBy m)
  refine ⟨u, heard, ?_⟩
  rw [acts, waits ?_]
  rw [show (putCmd u (c.ackedBy m)).cfg = s.cfg from heard.carried.cfg]
  exact missing

end

/-- Settles O57, row by row and message by message. -/
theorem collectivesJoinExchangeAndCommit : Obligations.CollectivesJoinExchangeAndCommit := by
  unfold Obligations.CollectivesJoinExchangeAndCommit
  refine ⟨fun i op cid row s c h => ⟨fun fresh => ⟨fun p leader other => ⟨row_joins_linked row h fresh leader other, fun st => row_joins_fault row h fresh leader other⟩,
      fun r first own joins => row_leads row h fresh first own joins⟩, row_joined row h, fun set => ⟨fun awaits => ?_, fun complete near =>
      ⟨row_commits row h set complete near, row_stages row h set complete near⟩⟩⟩,
    fun s cid c r => deadline_freezes, fun s cid c found ⟨k, ring⟩ => flip_commits found ring, fun s m group stream round => ⟨fun arrives op twice => ⟨fun r => collJoin_takes arrives, fun old here =>
      ⟨fun sameGroup sameOp frozen n bs => collJoin_late arrives here sameGroup sameOp frozen, collJoin_mismatch arrives here⟩⟩,
      fun arrives c mine joined count set => ⟨fun empty => ?_, collSet_takes arrives mine joined⟩,
      fun arrives c data c' mine runs new brings => ⟨collData_waits arrives mine runs new brings, fun set complete near ⟨k, ring⟩ => collData_commits arrives mine runs new brings set complete near ring⟩,
      fun arrives c mine joined count result => ⟨fun none => ?_, fun c' brings some near ⟨k, ring⟩ => collLate_commits arrives mine joined brings some near ring⟩,
      fun arrives c tFlip mine staged waits => collFlip_tells arrives mine staged waits tFlip,
      fun arrives c c' mine ok permute acked => ?_⟩⟩
  · rw [row_exchanges row h set, collFinish_awaiting awaits]
  · obtain ⟨u, heard, acts⟩ := collSet_acts arrives mine joined count set
    rw [if_pos empty] at acts
    exact ⟨u, _, heard, acts, endCmd_ended _ _ _ _⟩
  · obtain ⟨u, heard, acts⟩ := collLate_acts arrives mine joined count result
    rw [if_pos none] at acts
    exact ⟨u, _, heard, acts, endCmd_ended _ _ _ _⟩
  · subst acked
    exact ⟨permuteAck_flips arrives mine ok permute, permuteAck_waits arrives mine ok permute⟩

end Sys2Proof.Machine
end

section
/-! Mailbox commands: what one that arrives acts on, and what refuses it (R377, R382, R409, R466). -/

namespace Sys2Proof.Machine

-- what counters and signals leave ------------------------------------------------------------------------------------------

theorem Meters.getSes {s w : State} (h : Meters s w) (i : Nat) : getSes w i = getSes s i := congrArg (tget Session.rest · i) h.sessions

theorem Meters.getRing {s w : State} (h : Meters s w) (r : Nat) : getRing w r = getRing s r := congrArg (tget Ring.rest · r) h.rings

theorem Meters.setCxl {s w : State} (h : Meters s w) (c : Cxl) : Meters { s with cxl := c } { w with cxl := c } := { h with cxl := rfl }

theorem Meters.setRing {s w : State} (h : Meters s w) (r : Nat) (x : Ring) : Meters (setRing s r x) (setRing w r x) :=
  { h with rings := congrArg (tset Ring.rest · r x) h.rings }

-- arrival ------------------------------------------------------------------------------------------------------------------

section
variable {s : State}

/-- Without the host link no mailbox command arrives. -/
theorem arrives_unlinked {act : State → State} (link : s.power.linkUp = false) : arrives s act = .next s := by
  unfold arrives
  rw [if_pos link]

/-- Before READY a mailbox command answers Busy (R377, R382). -/
theorem arrives_early {act : State → State} (link : s.power.linkUp = true) (early : ready s = false) : ∃ u, arrives s act = .next u ∧ Answered s u rcBusy [] := by
  have fired := fire_meters s 8 24 (Meters.refl s)
  have still : ready (fire s 8 24) = false := by rw [fired.form]; exact early
  refine ⟨reply (fire s 8 24) rcBusy [], ?_, reply_answered fired⟩
  unfold arrives
  rw [if_neg (by simp [link])]
  simp only [still, Bool.false_eq_true, if_false]

/-- A command of the mailbox that a READY module serves acts on the state in which its source has fired (R466). -/
theorem arrives_acts (link : s.power.linkUp = true) (isReady : ready s = true) : ∃ w, Meters s w ∧ ∀ act, arrives s act = .next (act w) := by
  obtain ⟨a, b, c, acts⟩ := arrives_served link isReady
  exact ⟨_, Meters.of s a b c, acts⟩

/-- A vendor command whose header authenticates no session answers Invalid Input and does nothing else (R382, R409). -/
theorem withSes_refused {op : Nat} {x : List Byte} {act : Nat → List Byte → State → State} (link : s.power.linkUp = true) (isReady : ready s = true)
    (unknown : authSes s op x = none) : ∃ u, withSes op x s act = .next u ∧ Answered s u rcInvalid [] := by
  obtain ⟨a, b, c, served⟩ := arrives_served link isReady
  refine ⟨_, served _, ?_⟩
  rw [show authSes { s with sics := a, cnts := b, fresh := c } op x = none from unknown]
  exact reply_answered (Meters.of s a b c)

end

/-- Before READY every row of the mailbox answers Busy, and at READY one of a session whose header authenticates none answers Invalid Input (R377, R382, R409). -/
theorem mail_gates {i : Instr} {op : Option Nat} {x : List Byte} (row : mailRow i = some (op, x)) (s : State) :
    (s.power.linkUp = false → exec i s = .next s) ∧
    (s.power.linkUp = true → ready s = false → ∃ u, exec i s = .next u ∧ Answered s u rcBusy []) ∧
    (s.power.linkUp = true → ready s = true → ∀ o, op = some o → authSes s o x = none → ∃ u, exec i s = .next u ∧ Answered s u rcInvalid []) := by
  obtain ⟨act, arrival⟩ := mail_arrives row s
  refine ⟨fun link => arrival.trans (arrives_unlinked link), fun link early => arrival ▸ arrives_early link early, ?_⟩
  rintro link isReady o rfl unknown
  obtain ⟨act, command⟩ := mail_withSes row s
  exact command ▸ withSes_refused link isReady unknown

end Sys2Proof.Machine
end

section
/-! The CXL link: what it answers the host, how it comes up, and what its loss takes with it (R374 to R377, R385, R389, R393, R394, R424). -/

namespace Sys2Proof.Machine

section
variable {s : State}

/-- A configuration request is retried until the record is verified (R377), and else answered; a read with the value at its offset (R376). -/
theorem configRequest_answers (link : s.power.linkUp = true) (off : Nat) (write : Option Nat) : exec (.configRequest off write) s =
    .next { s with answers := s.answers ++ [if s.power.cfgDone = false then .config true 0 else .config false (match write with | some _ => 0 | none => configValue off)] } := by
  show execConfigRequest off write s = _
  unfold execConfigRequest
  rw [if_neg (by simp [link])]
  cases s.power.cfgDone <;> cases write <;> rfl

theorem snoop_misses (link : s.power.linkUp = true) (a : Nat) : exec (.snoop a) s = .next { s with answers := s.answers ++ [.snoopMiss a] } :=
  congrArg Host.Outcome.next (if_pos link)

/-- Only an interleave of 1 way is taken (R385). -/
theorem hdmDecoderCommit_commits (link : s.power.linkUp = true) (cfg : s.power.cfgDone = true) (ways hpa : Nat) : exec (.hdmDecoderCommit ways hpa) s =
    .next { s with cxl := { s.cxl with decWays := ways, decHpa := if ways = 1 then some hpa else none, decError := ways != 1 } } :=
  congrArg Host.Outcome.next (if_pos (by simp [link, cfg]))

theorem spdmRequest_signs (link : s.power.linkUp = true) (cfg : s.power.cfgDone = true) (rsa : s.trust.rsaOk = true) (req : List Byte) :
    exec (.spdmRequest req) s = .next { s with answers := s.answers ++ [.spdm (Config.signRsa (req ++ s.trust.mrs.flatten)) s.trust.mrs] } :=
  congrArg Host.Outcome.next (if_pos (by simp [link, cfg, rsa]))

/-- A link of a legal width and rate comes up with its IDE state, and its decoder awaits the host (R374, R375, R393, R394). -/
theorem cxlLinkUp_trains (on : s.power.off = false) (link : s.power.linkUp = false) {width rate : Nat} (ide : Bool)
    (legalWidth : width = 4 ∨ width = 8 ∨ width = 16) (legalRate : rate = 16 ∨ rate = 32 ∨ rate = 64) :
    ∃ t, exec (.cxlLinkUp width rate ide) s = .next t ∧ Meters { s with power := { s.power with linkUp := true }, cxl := { s.cxl with
      width := width, rate := rate, ide := ide, memActive := ready s, decWays := 0, decHpa := none, decError := false } } t := by
  refine ⟨_, ?_, fire_meters _ 8 25 (Meters.refl _)⟩
  show execCxlLinkUp width rate ide s = _
  unfold execCxlLinkUp
  rw [if_neg (by simp [on, link, legalWidth, legalRate])]

/-- While the link is down nothing of the host's reaches the module, and nothing is left to go down. -/
theorem unlinked_ignores (link : s.power.linkUp = false) : (∀ a, exec (.snoop a) s = .next s) ∧ (∀ req, exec (.spdmRequest req) s = .next s) ∧
    (∀ off w, exec (.configRequest off w) s = .next s) ∧ ∀ cause, exec (.cxlLinkDown cause) s = .next s :=
  have down : ¬ s.power.linkUp = true := by simp [link]
  ⟨fun _ => congrArg Host.Outcome.next (if_neg down), fun _ => congrArg Host.Outcome.next (if_neg (by simp [link])),
    fun _ _ => congrArg Host.Outcome.next (if_pos link), fun _ => congrArg Host.Outcome.next (if_pos link)⟩

end

/-- Settles O33, row by row. -/
theorem cxlLinkServesTheHost : Obligations.CxlLinkServesTheHost := by
  unfold Obligations.CxlLinkServesTheHost
  refine fun s => ⟨fun link => ⟨snoop_misses link, fun early off w => ?_, fun cfg => ⟨?_, ?_, fun off v => ?_, hdmDecoderCommit_commits link cfg,
    spdmRequest_signs link cfg⟩⟩, fun ⟨on, link⟩ width rate ide => cxlLinkUp_trains on link ide, unlinked_ignores⟩
  · rw [configRequest_answers link, if_pos early]
  · rw [configRequest_answers link, if_neg (by simp [cfg])]
    rfl
  · rw [configRequest_answers link, if_neg (by simp [cfg])]
    rfl
  · rw [configRequest_answers link, if_neg (by simp [cfg])]
    exact ⟨_, rfl⟩

-- the loss of the link ----------------------------------------------------------------------------------------------------

/-- What the ends of several sessions leave (R411): each of their slots is free, and time, power, dies and the other slots are as they were. -/
theorem endSessions_says (l : List Nat) (s : State) : (l.foldl endSession s).time = s.time ∧ (l.foldl endSession s).power.kept = s.power.kept ∧
    (∀ d, (getDie (l.foldl endSession s) d).kept = (getDie s d).kept) ∧
    ∀ j, getSes (l.foldl endSession s) j = if j ∈ l then Session.rest else getSes s j := by
  induction l generalizing s with
  | nil => exact ⟨rfl, rfl, fun _ => rfl, fun _ => rfl⟩
  | cons i l ih =>
    obtain ⟨time, power, dies, slots⟩ := ih (endSession s i)
    obtain ⟨time', power', dies', slots'⟩ := endSession_says s i
    rw [List.foldl_cons]
    refine ⟨time.trans time', power.trans power', fun d => (dies d).trans (dies' d), fun j => ?_⟩
    rw [slots j, slots' j]
    by_cases later : j ∈ l
    · simp [later]
    · by_cases first : i = j
      · simp [first]
      · simp [later, first, Ne.symm first]

/-- The module as its link goes down: no reply to the host is written any more (R269, R394). -/
def unlinked (s : State) : State := dropHostReplies { s with power := { s.power with linkUp := false } }

/-- The slots of the sessions that a loss of the link ends (R394). -/
def takenSlots (s : State) : List Nat := (List.range 64).filter (fun i => (getSes s i).st != .free)

/-- The module when every session has ended, with the link's registers at rest (R393, R394). -/
def linkLost (s : State) : State :=
  let ended := (takenSlots (unlinked s)).foldl endSession (unlinked s)
  { ended with cxl := { ended.cxl with
    width := 0, rate := 0, ide := false, memActive := false, decWays := 0, decHpa := none, decError := false, apertures := [], privBy := none } }

/-- The loss of a link leaves `linkLost` but for the sources that it fires. -/
theorem cxlLinkDown_loses {s : State} (link : s.power.linkUp = true) (cause : LinkCause) :
    ∃ t, exec (.cxlLinkDown cause) s = .next t ∧ Meters (linkLost s) t :=
  ⟨fire (if cause = .ideFailure then fire (linkLost s) 8 26 else linkLost s) 8 25, congrArg Host.Outcome.next (if_neg (by simp [link])),
    fire_meters _ _ _ (Meters.ite (fire_meters _ _ _ (Meters.refl _)) (Meters.refl _))⟩

theorem linkLost_slots (s : State) {i : Nat} (slot : i < 64) : (getSes (linkLost s) i).st = .free := by
  obtain ⟨-, -, -, slots⟩ := endSessions_says (takenSlots (unlinked s)) (unlinked s)
  rw [show getSes (linkLost s) i = getSes ((takenSlots (unlinked s)).foldl endSession (unlinked s)) i from rfl, slots]
  split
  · rfl
  · next closed => simpa [takenSlots, slot] using closed

/-- Settles O35. -/
theorem linkDownEndsTheSessions : Obligations.LinkDownEndsTheSessions := by
  unfold Obligations.LinkDownEndsTheSessions
  intro s cause link
  obtain ⟨t, row, down⟩ := cxlLinkDown_loses link cause
  obtain ⟨time, power, dies, -⟩ := endSessions_says (takenSlots (unlinked s)) (unlinked s)
  refine ⟨t, row, down.time.trans time, (congrArg Power.kept down.power).trans power, fun d => ?_, fun i slot => ?_, ?_⟩
  · rw [show getDie t d = getDie (linkLost s) d from congrArg (tget Die.rest · d) down.dies]
    exact dies d
  · rw [down.getSes]
    exact linkLost_slots s slot
  · rw [down.cxl]
    exact ⟨rfl, rfl, rfl, rfl, rfl, rfl⟩

end Sys2Proof.Machine
end

section
/-! The host's window on HBM (R385 to R388). -/

namespace Sys2Proof.Machine

section
variable {s : State} {off : Nat}

/-- A read of the window is poisoned where its aperture is unbound, a unit read is poisoned or the module is not READY (R377, R386, R388). -/
theorem hdmRead_poisoned {len : Nat} (hit : windowHit s off len = true)
    (bad : windowKey s off len = none ∨ ready s = false ∨ (poisonedIn s (s.cfg.hdmBase + off) len).isSome = true) :
    exec (.hdmRead off len) s = .next { s with answers := s.answers ++ [.hdm true []] } := by
  show execHdmRead off len s = _
  unfold execHdmRead
  rw [if_neg (by simp [hit])]
  cases key : windowKey s off len with
  | none => rfl
  | some k => exact congrArg Host.Outcome.next (if_pos (by simpa [key] using bad))

/-- A read of the window returns the bytes of memory under the key of its aperture's job (R386, R388). -/
theorem hdmRead_reads {len key : Nat} (hit : windowHit s off len = true) (isReady : ready s = true)
    (clean : poisonedIn s (s.cfg.hdmBase + off) len = none) (bound : windowKey s off len = some key) :
    ∃ t, exec (.hdmRead off len) s = .next t ∧ Meters { s with answers := s.answers ++ [.hdm false (rdKey s key (s.cfg.hdmBase + off) len)] } t := by
  refine ⟨_, ?_, count_meters _ 8 slotsDie 0x78 (ceilDiv len 64) none (Meters.refl _)⟩
  show execHdmRead off len s = _
  unfold execHdmRead
  rw [if_neg (by simp [hit])]
  simp only [bound, isReady, clean]
  rfl

/-- A write through an unbound aperture is dropped with HDM_DENIED (R386). -/
theorem hdmWrite_denied {data : List Byte} (hit : windowHit s off data.length = true) (isReady : ready s = true)
    (unbound : windowKey s off data.length = none) : ∃ t, exec (.hdmWrite off data) s = .next t ∧ Told s t ∧ (Still s → t.mem = s.mem) := by
  refine ⟨raiseMod (fire s 8 27) 8 0x1D (s.cfg.hdmBase + off) ((s.cfg.hdmBase + off) / 2 ^ 32) 0, ?_, raiseMod_told _ _ _ _ _ _ (fire_told _ _ _ (Told.refl s)),
    fun still => (raise_quiet _ _ _ _ _ _ _ _ _ (fire_quiet _ _ _ (Quiet.refl s)) still).1⟩
  show execHdmWrite off data s = _
  unfold execHdmWrite
  rw [if_neg (by simp [hit, isReady])]
  simp only [unbound]

/-- A write through a bound aperture is applied under the key of its job (R386, R388). -/
theorem hdmWrite_writes {data : List Byte} {key : Nat} (hit : windowHit s off data.length = true) (isReady : ready s = true)
    (bound : windowKey s off data.length = some key) :
    ∃ t, exec (.hdmWrite off data) s = .next t ∧ Meters (wrLocal s key (s.cfg.hdmBase + off) data) t := by
  refine ⟨_, ?_, count_meters _ 8 slotsDie 0x79 (ceilDiv data.length 64) none (Meters.refl _)⟩
  show execHdmWrite off data s = _
  unfold execHdmWrite
  rw [if_neg (by simp [hit, isReady])]
  simp only [bound]

end

/-- Settles O34, clause by clause. -/
theorem windowReadsAndWritesHbm : Obligations.WindowReadsAndWritesHbm := by
  unfold Obligations.WindowReadsAndWritesHbm
  refine fun s off => ⟨fun len hit => ⟨hdmRead_poisoned hit, fun isReady clean key => hdmRead_reads hit isReady clean⟩,
    fun data hit isReady => ⟨hdmWrite_denied hit isReady, fun key bound => ?_⟩⟩
  obtain ⟨t, row, wrote⟩ := hdmWrite_writes hit isReady bound
  have mem : t.mem = memWrite s.mem (s.cfg.hdmBase + off) data := wrote.mem
  refine ⟨t, row, { wrote with mem := rfl, keys := rfl, poison := rfl }, ?_, fun a outside => ?_⟩
  · rw [mem, memRead_memWrite]
  · rw [mem, memByte_memWrite_outside _ _ _ outside]

end Sys2Proof.Machine
end

section
/-! The privileged map (R384). -/

namespace Sys2Proof.Machine

section
variable {s : State} {x : List Byte} {i : Nat}

theorem priv_of_noted {w : State} (h : Meters (noted s x i) w) : (getSes w i).priv = (getSes s i).priv := by rw [h.getSes, noted_priv]

/-- PRIV_MAP open needs privilege. -/
theorem privMap_unprivileged (called : Called s 0xC014 x i) (opens : bit (fieldAt (x.drop 32) 0 4) 0 = true) (priv : (getSes s i).priv = false) :
    ∃ u, exec (.privMap x) s = .next u ∧ Answered (noted s x i) u rcInvalid [] := by
  obtain ⟨w, metered, acts⟩ := withSes_acts called
  refine ⟨_, (acts _ : execPrivMap x s = _), ?_⟩
  rw [if_pos opens, if_pos ((priv_of_noted metered).trans priv)]
  exact reply_answered metered

/-- PRIV_MAP open answers Busy while another session holds the map. -/
theorem privMap_busy {k : Nat} (called : Called s 0xC014 x i) (opens : bit (fieldAt (x.drop 32) 0 4) 0 = true) (priv : (getSes s i).priv = true)
    (holder : s.cxl.privBy = some k) (other : k ≠ i) : ∃ u, exec (.privMap x) s = .next u ∧ Answered (noted s x i) u rcBusy [] := by
  obtain ⟨w, metered, acts⟩ := withSes_acts called
  refine ⟨_, (acts _ : execPrivMap x s = _), ?_⟩
  have held : w.cxl.privBy = some k := (congrArg Cxl.privBy metered.cxl).trans holder
  rw [if_pos opens, if_neg (by simp [priv_of_noted metered, priv])]
  simp only [held, if_neg other]
  exact reply_answered metered

/-- PRIV_MAP open gives a free map to a privileged session, and leaves it with the one that holds it. -/
theorem privMap_opens (called : Called s 0xC014 x i) (opens : bit (fieldAt (x.drop 32) 0 4) 0 = true) (priv : (getSes s i).priv = true)
    (free : s.cxl.privBy = none ∨ s.cxl.privBy = some i) :
    ∃ u, exec (.privMap x) s = .next u ∧ Answered { noted s x i with cxl := { s.cxl with privBy := some i } } u rcOk [] := by
  obtain ⟨w, metered, acts⟩ := withSes_acts called
  refine ⟨_, (acts _ : execPrivMap x s = _), ?_⟩
  have same : w.cxl = s.cxl := metered.cxl
  rw [if_pos opens, if_neg (by simp [priv_of_noted metered, priv])]
  rcases free with none | own
  · simp only [same, none]
    exact reply_answered (metered.setCxl _)
  · simp only [same, own, if_true]
    rw [← own]
    exact reply_answered metered

/-- PRIV_MAP close takes the map from the session that holds it, and from no other. -/
theorem privMap_closes (called : Called s 0xC014 x i) (closes : bit (fieldAt (x.drop 32) 0 4) 0 = false) :
    ∃ u, exec (.privMap x) s = .next u ∧
      Answered (if s.cxl.privBy = some i then { noted s x i with cxl := { s.cxl with privBy := none } } else noted s x i) u rcOk [] := by
  obtain ⟨w, metered, acts⟩ := withSes_acts called
  refine ⟨_, (acts _ : execPrivMap x s = _), ?_⟩
  have same : w.cxl = s.cxl := metered.cxl
  rw [if_neg (Bool.eq_false_iff.mp closes), same]
  by_cases own : s.cxl.privBy = some i
  · rw [if_pos own, if_pos own]
    exact reply_answered (metered.setCxl _)
  · rw [if_neg own, if_neg own]
    exact reply_answered metered

/-- The end of its session closes the map (R384, R411). -/
theorem sesClose_closesMap (called : Called s 0xC004 x i) : ∃ u, exec (.sesClose x) s = .next u ∧ u.cxl.privBy ≠ some i := by
  obtain ⟨w, -, acts⟩ := withSes_acts called
  exact ⟨_, (acts _ : execSesClose x s = _), (endSession_gone w i).1⟩

/-- A module reset closes the map (R384, R502). -/
theorem moduleReset_closesMap (on : s.power.off = false) (high : s.power.resetN = true) :
    ∃ u, exec .moduleReset s = .next u ∧ u.cxl.privBy = none := by
  show ∃ u, execModuleReset s = .next u ∧ _
  unfold execModuleReset
  rw [if_neg (by simp [high]), if_neg (by simp [on])]
  exact ⟨_, rfl, rfl⟩

end

/-- Settles O48: PRIV_MAP case by case, and the ways in which a session ends. -/
theorem privMapHasOneHolder : Obligations.PrivMapHasOneHolder := by
  unfold Obligations.PrivMapHasOneHolder
  refine fun s x i => ⟨fun called => ⟨privMap_unprivileged called, fun opens priv => ⟨fun k => privMap_busy called opens priv, privMap_opens called opens priv⟩,
    fun closes => ?_⟩, sesClose_closesMap, fun link cause => ?_, moduleReset_closesMap⟩
  · have row := privMap_closes called closes
    exact ⟨fun own => by rwa [if_pos own] at row, fun other => by rwa [if_neg other] at row⟩
  · obtain ⟨t, row, down⟩ := cxlLinkDown_loses link cause
    exact ⟨t, row, congrArg Cxl.privBy down.cxl⟩

end Sys2Proof.Machine
end

section
/-! RING_BIND and RING_UNBIND (R379, R382, R383). -/

namespace Sys2Proof.Machine

section
variable {s : State} {x : List Byte} {i : Nat}

theorem ring_of_noted {w : State} (h : Meters (noted s x i) w) (r : Nat) : getRing w r = getRing s r := h.getRing r

/-- RING_BIND refuses a ring that is bound or enabled. -/
theorem ringBind_refused (called : Called s 0xC010 x i)
    (taken : (getRing s (fieldAt (x.drop 32) 0 2)).bind ≠ 0xFFFF ∨ (getRing s (fieldAt (x.drop 32) 0 2)).enable = true) :
    ∃ u, exec (.ringBind x) s = .next u ∧ Answered (noted s x i) u rcInvalid [] := by
  obtain ⟨w, metered, acts⟩ := withSes_acts called
  refine ⟨_, (acts _ : execRingBind x s = _), ?_⟩
  dsimp only
  rw [ring_of_noted metered, if_pos (by tauto)]
  exact reply_answered metered

/-- RING_BIND binds an unbound, disabled ring to its session and leaves its other registers at reset (R383). -/
theorem ringBind_binds (called : Called s 0xC010 x i) (len : x.length = 36) {r : Nat} (ring : r = fieldAt (x.drop 32) 0 2) (valid : r < 128)
    (flags : fieldAt (x.drop 32) 2 2 ≤ 1) (unbound : (getRing s r).bind = 0xFFFF) (disabled : (getRing s r).enable = false) :
    ∃ u, exec (.ringBind x) s = .next u ∧
      Answered (setRing (noted s x i) r { Ring.rest with enables := (getRing s r).enables, bind := i, msix := bit (fieldAt (x.drop 32) 2 2) 0 }) u rcOk [] := by
  obtain ⟨w, metered, acts⟩ := withSes_acts called
  refine ⟨_, (acts _ : execRingBind x s = _), ?_⟩
  dsimp only
  rw [ring_of_noted metered, ← ring, if_neg (by simp [len, unbound, disabled]; omega)]
  exact reply_answered (metered.setRing _ _)

-- RING_UNBIND ------------------------------------------------------------------------------------------------------------

/-- The COUNTER of a header and what counters and signals move make no RING_UNBIND begin or end. -/
theorem unbindBusy_of_noted {w : State} (h : Meters (noted s x i) w) : unbindBusy w = unbindBusy s := by
  unfold unbindBusy
  congr 1
  funext r
  have slotState : (getSes w (getRing s r).bind).st = (getSes s (getRing s r).bind).st := by
    rw [h.getSes, noted, getSes_setSes]
    split
    · next own => rw [← own]
    · rfl
  rw [ring_of_noted h, slotState]

/-- RING_UNBIND refuses a ring that is not its session's. -/
theorem ringUnbind_refused (called : Called s 0xC011 x i) (other : (getRing s (fieldAt (x.drop 32) 0 2)).bind ≠ i) :
    ∃ u, exec (.ringUnbind x) s = .next u ∧ Answered (noted s x i) u rcInvalid [] := by
  obtain ⟨w, metered, acts⟩ := withSes_acts called
  refine ⟨_, (acts _ : execRingUnbind x s = _), ?_⟩
  dsimp only
  rw [ring_of_noted metered, if_pos (by tauto)]
  exact reply_answered metered

/-- A ring of RING_UNBIND: disabled, and on its way to reset (R383). -/
def Ring.unbound (x : Ring) : Ring := { x with enable := false, active := false, unbinding := true }

/-- The module when a RING_UNBIND has taken its ring out of service (R265, R383). -/
def unbinds (s : State) (r : Nat) : State := dropRingBufs (setRing s r (getRing s r).unbound) r

/-- RING_UNBIND of a session's ring answers Busy while another one runs, and else takes the ring out of service and runs on in the background. -/
theorem ringUnbind_acts (called : Called s 0xC011 x i) (len : x.length = 36) {r : Nat} (ring : r = fieldAt (x.drop 32) 0 2) (valid : r < 128)
    (zero : fieldAt (x.drop 32) 2 2 = 0) (own : (getRing s r).bind = i) :
    ∃ w, Meters (noted s x i) w ∧
      exec (.ringUnbind x) s = .next (if unbindBusy s then reply w rcBusy [] else endUnbind (reply (unbinds w r) rcBackground []) r) := by
  obtain ⟨w, metered, acts⟩ := withSes_acts called
  refine ⟨w, metered, (acts _ : execRingUnbind x s = _).trans ?_⟩
  dsimp only
  rw [← ring, unbindBusy_of_noted metered, if_neg (by simp [len, ring_of_noted metered, zero, own]; omega)]
  rfl

/-- What the end of a RING_UNBIND may change: rings, registrations and the vectors fired. -/
theorem endUnbind_form (s : State) (r : Nat) :
    endUnbind s r = { s with rings := (endUnbind s r).rings, bufs := (endUnbind s r).bufs, msix := (endUnbind s r).msix } := by
  unfold endUnbind fireMsix
  dsimp only
  split
  · split <;> rfl
  · rfl

theorem Answered.setRings {v t : State} {rc : Nat} {out : List Byte} (h : Answered v t rc out) (rings : List (Nat × Ring)) (bufs : List HostBuf) (msix : List Nat) :
    Answered { v with rings := rings, bufs := bufs, msix := msix } { t with rings := rings, bufs := bufs, msix := msix } rc out :=
  { h with rings := rfl, bufs := rfl, msix := rfl }

/-- Beside the answer a RING_UNBIND that runs changes rings, registrations and the vectors fired. -/
theorem unbinds_answered {v w : State} (h : Meters v w) (r rc : Nat) (out : List Byte) {u : State} (ends : u = endUnbind (reply (unbinds w r) rc out) r) :
    Answered { v with rings := u.rings, bufs := u.bufs, msix := u.msix } u rc out := by
  have form : u = { reply w rc out with rings := u.rings, bufs := u.bufs, msix := u.msix } := by
    rw [ends]
    exact endUnbind_form (reply (unbinds w r) rc out) r
  have answered := (reply_answered (rc := rc) (out := out) h).setRings u.rings u.bufs u.msix
  rwa [← form] at answered

theorem fireMsix_bufs (s : State) (v : Nat) : (fireMsix s v).bufs = s.bufs := (fireMsix_told s v (Told.refl s)).bufs

/-- A ring whose RING_UNBIND is under way is reset as nothing is in flight, and no other ring changes (R383). -/
theorem endUnbind_rings (s : State) (r k : Nat) : getRing (endUnbind s r) k =
    if r = k ∧ (getRing s r).unbinding = true ∧ (getRing s r).inFlight = 0 then { Ring.rest with enables := (getRing s r).enables } else getRing s k := by
  unfold endUnbind
  dsimp only
  by_cases done : (getRing s r).unbinding = true ∧ (getRing s r).inFlight = 0
  · rw [if_pos done, fireMsix_rings]
    exact (getRing_setRing s r k _).trans (by simp [done])
  · rw [if_neg done, if_neg (fun h => done h.2)]

/-- The end of a RING_UNBIND ends no registration that a ring out of service had not lost before (R265). -/
theorem endUnbind_bufs {s : State} {r : Nat} (dropped : dropRingBufs s r = s) : (endUnbind s r).bufs = s.bufs := by
  unfold endUnbind
  dsimp only
  split
  · rw [fireMsix_bufs]
    show (dropRingBufs s r).bufs = s.bufs
    rw [dropped]
  · rfl

theorem dropRingBufs_twice (s : State) (r : Nat) : dropRingBufs (dropRingBufs s r) r = dropRingBufs s r := by
  unfold dropRingBufs
  dsimp only
  rw [List.filter_filter]
  simp only [Bool.and_self]

theorem unbinds_rings (s : State) (r k : Nat) : getRing (unbinds s r) k = if r = k then (getRing s r).unbound else getRing s k := getRing_setRing s r k _

/-- A RING_UNBIND that runs: its ring leaves service, and is at reset where nothing is in flight (R265, R383). -/
theorem ringUnbind_unbinds (called : Called s 0xC011 x i) (len : x.length = 36) {r : Nat} (ring : r = fieldAt (x.drop 32) 0 2) (valid : r < 128)
    (zero : fieldAt (x.drop 32) 2 2 = 0) (own : (getRing s r).bind = i) (idle : unbindBusy s = false) : ∃ u, exec (.ringUnbind x) s = .next u ∧
      Answered { noted s x i with rings := u.rings, bufs := u.bufs, msix := u.msix } u rcBackground [] ∧ (∀ k, k ≠ r → getRing u k = getRing s k) ∧
      ((getRing s r).inFlight = 0 → getRing u r = { Ring.rest with enables := (getRing s r).enables }) ∧
      ((getRing s r).inFlight ≠ 0 → getRing u r = (getRing s r).unbound) ∧
      u.bufs = s.bufs.filter (fun b => match b.forRing with | some (k, _) => !(k == r) | none => true) := by
  obtain ⟨w, metered, row⟩ := ringUnbind_acts called len ring valid zero own
  rw [idle, if_neg Bool.false_ne_true] at row
  have here : ∀ k, getRing (reply (unbinds w r) rcBackground []) k = if r = k then (getRing s r).unbound else getRing s k := fun k => by
    rw [← ring_of_noted metered, ← ring_of_noted metered k]
    exact unbinds_rings w r k
  have done : (getRing (reply (unbinds w r) rcBackground []) r).unbinding = true ∧ (getRing (reply (unbinds w r) rcBackground []) r).inFlight = (getRing s r).inFlight ∧
      (getRing (reply (unbinds w r) rcBackground []) r).enables = (getRing s r).enables := by
    rw [here, if_pos rfl]
    exact ⟨rfl, rfl, rfl⟩
  obtain ⟨unbinding, inFlight, enables⟩ := done
  refine ⟨_, row, ?_, fun k other => ?_, fun empty => ?_, fun busy => ?_, ?_⟩
  · exact unbinds_answered metered r rcBackground [] rfl
  · rw [endUnbind_rings, if_neg (fun h => other h.1.symm), here, if_neg other.symm]
  · rw [endUnbind_rings, if_pos ⟨rfl, unbinding, inFlight.trans empty⟩, enables]
  · rw [endUnbind_rings, if_neg (fun h => busy (inFlight.symm.trans h.2.2)), here, if_pos rfl]
  · have dropped : dropRingBufs (reply (unbinds w r) rcBackground []) r = reply (unbinds w r) rcBackground [] :=
      congrArg (reply · rcBackground []) (dropRingBufs_twice (setRing w r (getRing w r).unbound) r)
    rw [endUnbind_bufs dropped, ← show w.bufs = s.bufs from metered.bufs]
    rfl

theorem ringUnbind_busy (called : Called s 0xC011 x i) (len : x.length = 36) {r : Nat} (ring : r = fieldAt (x.drop 32) 0 2) (valid : r < 128)
    (zero : fieldAt (x.drop 32) 2 2 = 0) (own : (getRing s r).bind = i) (busy : unbindBusy s = true) :
    ∃ u, exec (.ringUnbind x) s = .next u ∧ Answered (noted s x i) u rcBusy [] := by
  obtain ⟨w, metered, row⟩ := ringUnbind_acts called len ring valid zero own
  rw [if_pos busy] at row
  exact ⟨_, row, reply_answered metered⟩

end

end Sys2Proof.Machine
end

section
/-! HDM_BIND and HDM_UNBIND (R385, R386). -/

namespace Sys2Proof.Machine

section
variable {s : State} {x : List Byte} {i : Nat}

/-- Is a job the session's own? -/
def ownsJob (s : State) (i job : Nat) : Bool := match findJob s job with | some j => j.sess == i | none => false

theorem ownsJob_iff {job : Nat} : ownsJob s i job = true ↔ ∃ j, findJob s job = some j ∧ j.sess = i := by
  unfold ownsJob
  split <;> simp_all

theorem ownsJob_of_noted {w : State} (h : Meters (noted s x i) w) (job : Nat) : ownsJob w i job = ownsJob s i job := by
  rw [h.form]
  rfl

/-- The apertures that a command names: `n` from `first` (R386). -/
def namedApertures (first n : Nat) : List Nat := (List.range n).map (· + first)

theorem mem_namedApertures {first n a : Nat} : a ∈ namedApertures first n ↔ first ≤ a ∧ a < first + n := by
  simp only [namedApertures, List.mem_map, List.mem_range]
  constructor
  · rintro ⟨k, below, rfl⟩
    omega
  · exact fun ⟨above, below⟩ => ⟨a - first, by omega, by omega⟩

/-- Is an aperture bound, or does it touch a pound or the dump region? -/
def apertureTaken (s : State) (a : Nat) : Bool := s.cxl.apertures.any (fun b => b.1 == a) || inPound s (apertureBase s a) 0x40000000

theorem apertureTaken_iff {a : Nat} : apertureTaken s a = true ↔ (∃ b ∈ s.cxl.apertures, b.1 = a) ∨ inPound s (apertureBase s a) 0x40000000 = true := by
  simp [apertureTaken]

theorem apertureTaken_of_noted {w : State} (h : Meters (noted s x i) w) (a : Nat) : apertureTaken w a = apertureTaken s a := by
  rw [h.form]
  rfl

/-- HDM_BIND binds free apertures to a job of the session, and refuses every other request (R386). -/
theorem hdmBind_acts (called : Called s 0xC012 x i) (len : x.length = 38) {first n job : Nat} (hfirst : first = fieldAt (x.drop 32) 0 2)
    (hn : n = fieldAt (x.drop 32) 2 2) (hjob : job = fieldAt (x.drop 32) 4 2) :
    ∃ w, Meters (noted s x i) w ∧ exec (.hdmBind x) s = .next (
      if n = 0 ∨ ownsJob s i job = false ∨ s.cfg.hdmSizeGib < first + n ∨ (namedApertures first n).any (apertureTaken s) = true then reply w rcInvalid []
      else reply { w with cxl := { s.cxl with apertures := s.cxl.apertures ++ (namedApertures first n).map (fun a => (a, (job, i))) } } rcOk []) := by
  obtain ⟨w, metered, acts⟩ := withSes_acts called
  refine ⟨w, metered, (acts _ : execHdmBind x s = _).trans ?_⟩
  rw [hfirst, hn, hjob, ← show w.cxl = s.cxl from metered.cxl, ← show w.cfg = s.cfg from metered.cfg, ← ownsJob_of_noted metered,
    ← funext (apertureTaken_of_noted metered)]
  exact congrArg Host.Outcome.next (if_congr ((or_iff_right (by simp [len])).trans Iff.rfl) rfl rfl)

theorem hdmBind_binds (called : Called s 0xC012 x i) (len : x.length = 38) {first n job : Nat} (hfirst : first = fieldAt (x.drop 32) 0 2)
    (hn : n = fieldAt (x.drop 32) 2 2) (hjob : job = fieldAt (x.drop 32) 4 2) (nonempty : 0 < n) {j : Job} (found : findJob s job = some j) (own : j.sess = i)
    (within : first + n ≤ s.cfg.hdmSizeGib)
    (free : ∀ a, first ≤ a → a < first + n → (∀ b ∈ s.cxl.apertures, b.1 ≠ a) ∧ inPound s (apertureBase s a) 0x40000000 = false) :
    ∃ u, exec (.hdmBind x) s = .next u ∧
      Answered { noted s x i with cxl := { s.cxl with apertures := s.cxl.apertures ++ ((List.range n).map (· + first)).map (fun a => (a, (job, i))) } } u rcOk [] := by
  obtain ⟨w, metered, row⟩ := hdmBind_acts called len hfirst hn hjob
  have owned : ownsJob s i job = true := ownsJob_iff.mpr ⟨j, found, own⟩
  have untaken : ¬ (namedApertures first n).any (apertureTaken s) = true := by
    simp only [List.any_eq_true, mem_namedApertures, apertureTaken_iff, not_exists, not_and, not_or]
    exact fun a range => ⟨fun b mem => (free a range.1 range.2).1 b mem, by simp [(free a range.1 range.2).2]⟩
  rw [if_neg (by rintro (h | h | h | h); exacts [by omega, by simp [owned] at h, by omega, untaken h])] at row
  exact ⟨_, row, reply_answered (metered.setCxl _)⟩

theorem hdmBind_refused (called : Called s 0xC012 x i) (len : x.length = 38) {first n job : Nat} (hfirst : first = fieldAt (x.drop 32) 0 2)
    (hn : n = fieldAt (x.drop 32) 2 2) (hjob : job = fieldAt (x.drop 32) 4 2)
    (bad : (∀ j, findJob s job = some j → j.sess ≠ i) ∨
      ∃ a, first ≤ a ∧ a < first + n ∧ ((∃ b ∈ s.cxl.apertures, b.1 = a) ∨ inPound s (apertureBase s a) 0x40000000 = true)) :
    ∃ u, exec (.hdmBind x) s = .next u ∧ Answered (noted s x i) u rcInvalid [] := by
  obtain ⟨w, metered, row⟩ := hdmBind_acts called len hfirst hn hjob
  refine ⟨_, row.trans (congrArg Host.Outcome.next (if_pos ?_)), reply_answered metered⟩
  rcases bad with foreign | ⟨a, above, below, taken⟩
  · exact .inr (.inl (Bool.eq_false_iff.mpr fun own => let ⟨j, found, same⟩ := ownsJob_iff.mp own; foreign j found same))
  · exact .inr (.inr (.inr (List.any_eq_true.mpr ⟨a, mem_namedApertures.mpr ⟨above, below⟩, apertureTaken_iff.mpr taken⟩)))

/-- HDM_UNBIND releases apertures of its session (R386). -/
theorem hdmUnbind_releases (called : Called s 0xC013 x i) (len : x.length = 36) {first n : Nat} (hfirst : first = fieldAt (x.drop 32) 0 2)
    (hn : n = fieldAt (x.drop 32) 2 2) (own : ∀ a, first ≤ a → a < first + n → ∃ b ∈ s.cxl.apertures, b.1 = a ∧ b.2.2 = i) :
    ∃ u, exec (.hdmUnbind x) s = .next u ∧
      Answered { noted s x i with cxl := { s.cxl with apertures := s.cxl.apertures.filter (fun a => !(decide (first ≤ a.1) && decide (a.1 < first + n))) } } u rcOk [] := by
  obtain ⟨w, metered, acts⟩ := withSes_acts called
  refine ⟨_, (acts _ : execHdmUnbind x s = _), ?_⟩
  subst hfirst hn
  have all : (List.range (fieldAt (x.drop 32) 2 2)).all (fun k => s.cxl.apertures.any (fun a => a.1 == fieldAt (x.drop 32) 0 2 + k && a.2.2 == i)) = true := by
    simp only [List.all_eq_true, List.mem_range, List.any_eq_true, Bool.and_eq_true, beq_iff_eq]
    exact fun k below => own _ (by omega) (by omega)
  have same : w.cxl = s.cxl := metered.cxl
  dsimp only
  rw [same, if_neg (by simp [len, all])]
  exact reply_answered (metered.setCxl _)

end

/-- Settles O50, command by command. -/
theorem ringsAndAperturesAreBound : Obligations.RingsAndAperturesAreBound := by
  unfold Obligations.RingsAndAperturesAreBound
  refine fun s x i => ⟨fun called len r ring valid flags => ⟨fun taken => ringBind_refused called (ring ▸ taken), ringBind_binds called len ring valid flags⟩,
    fun called len r ring valid zero => ⟨fun other => ringUnbind_refused called (ring ▸ other), ringUnbind_busy called len ring valid zero,
      ringUnbind_unbinds called len ring valid zero⟩,
    fun called len first n job hfirst hn hjob nonempty => ⟨fun j => hdmBind_binds called len hfirst hn hjob nonempty, hdmBind_refused called len hfirst hn hjob⟩,
    fun called len first n hfirst hn => hdmUnbind_releases called len hfirst hn⟩

end Sys2Proof.Machine
end

section
/-! Sessions open by a START and its FINISH, and a slot that is not finished is freed (R406 to R410). -/

namespace Sys2Proof.Machine

section
variable {s : State} {x : List Byte}

theorem length_fitBytes (n : Nat) (bs : List Byte) : (fitBytes n bs).length = n := by
  simp only [fitBytes, zeros, List.length_append, List.length_take, List.length_replicate]
  omega

-- START ------------------------------------------------------------------------------------------------------------------

theorem startCheck_of_meters {w : State} (h : Meters s w) (pake : Bool) (len : Nat) : startCheck w x pake len = startCheck s x pake len := by
  rw [h.form]
  rfl

/-- A START reserves its slot, and takes a serial number and a random number (R410). -/
theorem reserve_meters {w : State} (h : Meters s w) (i : Nat) (k : Credential) (th sms expect : List Byte) :
    Meters (setSes { s with nextSes := s.nextSes + 1 } i (reservedSlot s k (fieldAt x 48 4) th sms expect)) (reserve w i k x th sms expect) := by
  rw [h.form]
  exact Meters.of _ _ _ _

/-- A SES_PSK_START that is let through reserves a slot with the transcript and the secrets of its method, and answers its proof (R406, R407). -/
theorem pskStart_reserves {k : Credential} {i : Nat} (link : s.power.linkUp = true) (isReady : ready s = true) (granted : startCheck s x false 52 = .ok (k, i)) :
    ∃ u nm th sms kc, exec (.sesPskStart x) s = .next u ∧ nm.length = 32 ∧
      th = fitBytes 48 (Config.sha384 (x ++ leBytes 2 i ++ nm)) ∧
      kc = Config.hkdf384 k.secret ((x.drop 52).take 32 ++ nm) (ascii "psk conf" ++ k.id) 48 ∧
      sms = fitBytes 48 (Config.hkdf384 k.secret ((x.drop 52).take 32 ++ nm) (ascii "sms" ++ th) 48) ∧
      Answered (setSes { s with nextSes := s.nextSes + 1 } i
        (reservedSlot s k (fieldAt x 48 4) th sms (fitBytes 48 (Config.hmac384 kc (ascii "C" ++ th))))) u rcOk
        (leBytes 2 i ++ nm ++ fitBytes 48 (Config.hmac384 kc (ascii "M" ++ th))) := by
  obtain ⟨w, metered, acts⟩ := arrives_acts link isReady
  refine ⟨_, fitBytes 32 (Config.freeRandom w.fresh 32), _, _, _, (acts _ : execSesPskStart x s = _), length_fitBytes _ _, rfl, rfl, rfl, ?_⟩
  rw [startCheck_of_meters metered, granted]
  exact reply_answered (reserve_meters metered i k _ _ _)

/-- A SES_PAKE_START that is let through reserves a slot with what the SPAKE2+ verifier makes, and answers its share and proof (R406, R407). -/
theorem pakeStart_reserves {k : Credential} {i : Nat} (link : s.power.linkUp = true) (isReady : ready s = true) (granted : startCheck s x true 85 = .ok (k, i)) :
    ∃ u n r sms, exec (.sesPakeStart x) s = .next u ∧
      r = Config.spake2 (k.secret ++ (k.id ++ ascii "WTV8-2048" ++ leBytes 2 s.cfg.peerId ++ ascii "Torvavo TV8 session"))
        (Config.freeRandom n 32) ((x.drop 52).take 65) ∧
      sms = fitBytes 48 (Config.hkdf384 r.2.2.2.2 [] (ascii "sms" ++ fitBytes 48 r.2.2.2.1) 48) ∧
      Answered (setSes { s with nextSes := s.nextSes + 1 } i
        (reservedSlot s k (fieldAt x 48 4) (fitBytes 48 r.2.2.2.1) sms (fitBytes 32 r.2.2.1))) u rcOk
        (leBytes 2 i ++ fitBytes 65 r.1 ++ fitBytes 32 r.2.1) := by
  obtain ⟨w, metered, acts⟩ := arrives_acts link isReady
  refine ⟨_, w.fresh, _, _, (acts _ : execSesPakeStart x s = _), rfl, rfl, ?_⟩
  rw [startCheck_of_meters metered, granted]
  dsimp only
  rw [metered.cfg]
  exact reply_answered (reserve_meters metered i k _ _ _)

theorem pskStart_refused {rc : Nat} (link : s.power.linkUp = true) (isReady : ready s = true) (refused : startCheck s x false 52 = .error rc) :
    ∃ u, exec (.sesPskStart x) s = .next u ∧ Answered s u rc [] := by
  obtain ⟨w, metered, acts⟩ := arrives_acts link isReady
  refine ⟨_, (acts _ : execSesPskStart x s = _), ?_⟩
  rw [startCheck_of_meters metered, refused]
  exact reply_answered metered

theorem pakeStart_refused {rc : Nat} (link : s.power.linkUp = true) (isReady : ready s = true) (refused : startCheck s x true 85 = .error rc) :
    ∃ u, exec (.sesPakeStart x) s = .next u ∧ Answered s u rc [] := by
  obtain ⟨w, metered, acts⟩ := arrives_acts link isReady
  refine ⟨_, (acts _ : execSesPakeStart x s = _), ?_⟩
  rw [startCheck_of_meters metered, refused]
  exact reply_answered metered

-- FINISH -----------------------------------------------------------------------------------------------------------------

/-- Either FINISH is the one of its method. -/
theorem finish_acts {g : Instr} {pake : Bool} {len : Nat} (row : (g, pake, len) ∈ [(Instr.sesPskFinish x, false, 48), (.sesPakeFinish x, true, 32)])
    (link : s.power.linkUp = true) (isReady : ready s = true) : ∃ w, Meters s w ∧ exec g s = .next (finish w x pake len) := by
  obtain ⟨w, metered, acts⟩ := arrives_acts link isReady
  refine ⟨w, metered, ?_⟩
  simp only [List.mem_cons, Prod.mk.injEq, List.not_mem_nil, or_false] at row
  rcases row with ⟨rfl, rfl, rfl⟩ | ⟨rfl, rfl, rfl⟩
  · exact (acts _ : execSesPskFinish x s = _)
  · exact (acts _ : execSesPakeFinish x s = _)

/-- The module when a session has opened: its slot with no failure, no count and no event (R408, R410). -/
def opened (s : State) (i : Nat) : State :=
  setSes (setCounts (clearFail { s with sesQ := tset EventQ.rest s.sesQ i EventQ.rest } (getSes s i).cred) i SlotCounts.rest) i
    { getSes s i with st := .opened, ide := s.cxl.ide, counter := 0 }

/-- The module when a FINISH has failed: its slot free, and the failure counted against the credential (R410). -/
def finishFailed (s : State) (i : Nat) : State := countFail (setSes s i Session.rest) (getSes s i).cred

theorem opened_meters {w : State} (h : Meters s w) (i : Nat) : Meters (opened s i) (opened w i) := by
  rw [h.form]
  exact Meters.of _ _ _ _

theorem finishFailed_meters {w : State} (h : Meters s w) (i : Nat) : Meters (finishFailed s i) (finishFailed w i) := by
  rw [h.form]
  exact Meters.of _ _ _ _

section
variable {g : Instr} {pake : Bool} {len i : Nat} (row : (g, pake, len) ∈ [(Instr.sesPskFinish x, false, 48), (.sesPakeFinish x, true, 32)])
  (link : s.power.linkUp = true) (isReady : ready s = true) (header : openHdr x = true) (size : x.length = 34 + len) (names : fieldAt x 32 2 = i)
  (slot : i < 64) (reserved : (getSes s i).st = .reserved) (method : (getSes s i).pake = pake)
include row link isReady header size names slot reserved method

/-- A FINISH of a reserved slot: its proof verifies in time and the session opens, or the slot is freed and the failure counts (R408, R410). -/
theorem finish_decides : ∃ w, Meters s w ∧ exec g s = .next (
      if (x.drop 34).take len = (getSes s i).expect ∧ s.time < (getSes s i).since + 10000000000 then reply (opened w i) rcOk []
      else reply (finishFailed w i) rcInvalid []) := by
  obtain ⟨w, metered, next⟩ := finish_acts row link isReady
  refine ⟨w, metered, next.trans ?_⟩
  unfold finish
  rw [names, ← metered.getSes, ← metered.time]
  dsimp only
  rw [if_neg (by simp [header, size, slot, metered.getSes, reserved, method])]
  rfl

theorem finish_opens (proof : (x.drop 34).take len = (getSes s i).expect) (inTime : s.time < (getSes s i).since + 10000000000) :
    ∃ u, exec g s = .next u ∧ Answered (opened s i) u rcOk [] := by
  obtain ⟨w, metered, next⟩ := finish_decides row link isReady header size names slot reserved method
  rw [if_pos ⟨proof, inTime⟩] at next
  exact ⟨_, next, reply_answered (opened_meters metered i)⟩

theorem finish_fails (bad : ¬ ((x.drop 34).take len = (getSes s i).expect ∧ s.time < (getSes s i).since + 10000000000)) :
    ∃ u, exec g s = .next u ∧ Answered (finishFailed s i) u rcInvalid [] := by
  obtain ⟨w, metered, next⟩ := finish_decides row link isReady header size names slot reserved method
  rw [if_neg bad] at next
  exact ⟨_, next, reply_answered (finishFailed_meters metered i)⟩

end

-- SESSION_SLOT_EXPIRY ----------------------------------------------------------------------------------------------------

/-- A slot that is not finished is freed 10 s after its START (R410). -/
theorem slotExpiry_frees {i : Nat} (reserved : (getSes s i).st = .reserved) : ∃ u, exec (.sessionSlotExpiry i) s = .next u ∧ getSes u i = Session.rest ∧
    u.time = max s.time ((getSes s i).since + 10000000000) ∧ (∀ j, j ≠ i → getSes u j = getSes s j) ∧
    Meters { s with time := u.time, sessions := u.sessions } u := by
  obtain ⟨v, metered, form⟩ := timeTo_meters s ((getSes s i).since + 10000000000)
  refine ⟨_, congrArg Host.Outcome.next (if_pos reserved), (getSes_setSes _ _ _ _).trans (if_pos rfl), ?_, fun j other => ?_, ?_⟩
  all_goals rw [form]
  · rfl
  · rw [getSes_setSes, if_neg other.symm]
    exact metered.getSes j
  · exact { metered with time := rfl, sessions := rfl }

theorem slotExpiry_passes {i : Nat} (other : (getSes s i).st ≠ .reserved) : exec (.sessionSlotExpiry i) s = .next s :=
  congrArg Host.Outcome.next (if_neg other)

end

/-- Settles O47: the gates of the mailbox, each START and FINISH, and the expiry of a slot. -/
theorem sessionsOpenByTheirCredential : Obligations.SessionsOpenByTheirCredential := by
  unfold Obligations.SessionsOpenByTheirCredential
  exact fun s => ⟨fun i op x row => mail_gates row s,
    fun x k i link isReady => ⟨pskStart_reserves link isReady, pakeStart_reserves link isReady, fun rc => pskStart_refused link isReady,
      fun rc => pakeStart_refused link isReady⟩,
    fun g pake len x i row link isReady header size names slot reserved method =>
      ⟨finish_opens row link isReady header size names slot reserved method, finish_fails row link isReady header size names slot reserved method⟩,
    fun i => ⟨slotExpiry_frees, slotExpiry_passes⟩⟩

end Sys2Proof.Machine
end

section
/-! The end of a session by its SES_CLOSE (R411). -/

namespace Sys2Proof.Machine

section
variable {s : State} {x : List Byte} {i : Nat}

theorem getSes_of_noted {w : State} (h : Meters (noted s x i) w) : getSes w i = { getSes s i with counter := fieldAt x 4 8 + 1 } :=
  (h.getSes i).trans (noted_self s x i)

/-- The COUNTER of one session is noted at no other. -/
theorem getSes_of_noted_other {w : State} {j : Nat} (h : Meters (noted s x i) w) (other : j ≠ i) : getSes w j = getSes s j :=
  ((h.getSes j).trans (getSes_setSes s i j _)).trans (if_neg other.symm)

/-- SES_CLOSE frees its slot with all that hangs on the session, and leaves the other slots, the time, the configuration, the power and the dies (R411). -/
theorem sesClose_frees (called : Called s 0xC004 x i) :
    ∃ u, exec (.sesClose x) s = .next u ∧ getSes u i = Session.rest ∧ (∀ j, j ≠ i → getSes u j = getSes s j) ∧
      u.answers = s.answers ++ [.mailbox rcOk []] ∧ u.cxl.privBy ≠ some i ∧ u.trust.dbgBy ≠ some i ∧ (∀ a ∈ u.cxl.apertures, a.2.2 ≠ i) ∧
      (∀ l ∈ u.links, l.1.1 ≠ i) ∧ u.time = s.time ∧ u.cfg = s.cfg ∧ u.power.kept = s.power.kept ∧ ∀ d, (getDie u d).kept = (getDie s d).kept := by
  obtain ⟨w, metered, acts⟩ := withSes_acts called
  have row : exec (.sesClose x) s = .next (reply (endSession w i) rcOk []) := (acts _ : execSesClose x s = _)
  obtain ⟨time, power, dies, slots⟩ := endSession_says w i
  obtain ⟨privMap, debug, apertures, links, answers, cfg⟩ := endSession_gone w i
  generalize endSession w i = ended at *
  have samePower : w.power = s.power := metered.power
  refine ⟨_, row, (slots i).trans (if_pos rfl), fun j other => ?_, ?_, privMap, debug, apertures, links, time.trans metered.time, cfg.trans metered.cfg,
    power.trans (congrArg Power.kept samePower), fun d => ?_⟩
  · exact ((slots j).trans (if_neg other.symm)).trans (getSes_of_noted_other metered other)
  · exact congrArg (· ++ [.mailbox rcOk []]) (answers.trans metered.answers)
  · exact (dies d).trans (congrArg (fun table => (tget Die.rest table d).kept) metered.dies)

end

end Sys2Proof.Machine
end

section
/-! JOB_LINK: the link secret of a job, wrapped under K_wrap of its session (R412, R415, R416). -/

namespace Sys2Proof.Machine

section
variable {s : State} {x : List Byte} {i : Nat}

theorem Meters.setLinks {w : State} (h : Meters s w) (links : List ((Nat × Nat) × List Byte)) : Meters { s with links := links } { w with links := links } :=
  { h with links := rfl }

/-- JOB_LINK refuses a job that has its secret already: it is stored once (R415). -/
theorem jobLink_refuses_second (called : Called s 0xC005 x i) (stored : s.links.any (fun l => l.1 == (i, fieldAt (x.drop 32) 0 2)) = true) :
    ∃ u, exec (.jobLink x) s = .next u ∧ Answered (noted s x i) u rcInvalid [] := by
  obtain ⟨w, metered, acts⟩ := withSes_acts called
  refine ⟨_, (acts _ : execJobLink x s = _), ?_⟩
  have same : w.links = s.links := metered.links
  dsimp only
  rw [same, if_pos (.inr (.inr (.inr stored)))]
  exact reply_answered metered

/-- A well-formed JOB_LINK of a job without a secret opens its payload under K_wrap: what opens is stored, and what does not is refused (R415, R416). -/
theorem jobLink_unwraps (called : Called s 0xC005 x i) (len : x.length = 96) (zero : fieldAt (x.drop 32) 2 2 = 0) (named : fieldAt (x.drop 32) 0 2 ≠ 0)
    (unlinked : s.links.any (fun l => l.1 == (i, fieldAt (x.drop 32) 0 2)) = false) :
    ∃ w, Meters (noted s x i) w ∧ exec (.jobLink x) s = .next (
      (Config.gcmOpen (sesKey (getSes s i) (ascii "wrap") 32) ((x.drop 36).take 12) (x.drop 48)).elim (reply w rcInvalid []) fun secret =>
        reply { w with links := s.links ++ [((i, fieldAt (x.drop 32) 0 2), fitBytes 32 secret)] } rcOk []) := by
  obtain ⟨w, metered, acts⟩ := withSes_acts called
  refine ⟨w, metered, (acts _ : execJobLink x s = _).trans ?_⟩
  have same : w.links = s.links := metered.links
  have key : sesKey (getSes w i) (ascii "wrap") 32 = sesKey (getSes s i) (ascii "wrap") 32 := by
    rw [getSes_of_noted metered]
    rfl
  dsimp only
  rw [same, key, List.drop_drop, List.drop_drop, if_neg (by simp [len, zero, named, unlinked])]
  cases Config.gcmOpen (sesKey (getSes s i) (ascii "wrap") 32) ((x.drop 36).take 12) (x.drop 48) <;> rfl

section
variable (called : Called s 0xC005 x i) (len : x.length = 96) (zero : fieldAt (x.drop 32) 2 2 = 0) (named : fieldAt (x.drop 32) 0 2 ≠ 0)
  (unlinked : s.links.any (fun l => l.1 == (i, fieldAt (x.drop 32) 0 2)) = false)
include called len zero named unlinked

theorem jobLink_refuses_bad_tag (bad : Config.gcmOpen (sesKey (getSes s i) (ascii "wrap") 32) ((x.drop 36).take 12) (x.drop 48) = none) :
    ∃ u, exec (.jobLink x) s = .next u ∧ Answered (noted s x i) u rcInvalid [] := by
  obtain ⟨w, metered, row⟩ := jobLink_unwraps called len zero named unlinked
  rw [bad] at row
  exact ⟨_, row, reply_answered metered⟩

theorem jobLink_stores {secret : List Byte}
    (opens : Config.gcmOpen (sesKey (getSes s i) (ascii "wrap") 32) ((x.drop 36).take 12) (x.drop 48) = some secret) :
    ∃ u, exec (.jobLink x) s = .next u ∧
      Answered { noted s x i with links := s.links ++ [((i, fieldAt (x.drop 32) 0 2), fitBytes 32 secret)] } u rcOk [] := by
  obtain ⟨w, metered, row⟩ := jobLink_unwraps called len zero named unlinked
  rw [opens] at row
  exact ⟨_, row, reply_answered (metered.setLinks _)⟩

end

end

end Sys2Proof.Machine
end

section
/-! The commands of a privileged session: the owner's enrolment and release, and the debug unlock (R405, R419 to R421). -/

namespace Sys2Proof.Machine

section
variable {s : State} {x : List Byte} {i : Nat}

theorem Meters.setTrust {w : State} (h : Meters s w) (trust : Trust) : Meters { s with trust := trust } { w with trust := trust } := { h with trust := rfl }

theorem Meters.setTap {w : State} (h : Meters s w) (tap : Tap) : Meters { s with tap := tap } { w with tap := tap } := { h with tap := rfl }

/-- The owner's commands and DEBUG_UNLOCK are refused to a session without privilege (R419). -/
theorem ownerCommand_unprivileged {op : Nat} {g : Instr} (row : (op, g) ∈ [(0xC006, Instr.ownerEnroll x), (0xC007, .ownerRelease x), (0xC008, .debugUnlock x)])
    (called : Called s op x i) (priv : (getSes s i).priv = false) : ∃ u, exec g s = .next u ∧ Answered (noted s x i) u rcInvalid [] := by
  simp only [List.mem_cons, Prod.mk.injEq, List.not_mem_nil, or_false] at row
  rcases row with ⟨rfl, rfl⟩ | ⟨rfl, rfl⟩ | ⟨rfl, rfl⟩
  · exact (withPriv_refused called priv _ : ∃ u, execOwnerEnroll x s = .next u ∧ _)
  · exact (withPriv_refused called priv _ : ∃ u, execOwnerRelease x s = .next u ∧ _)
  · exact (withPriv_refused called priv _ : ∃ u, execDebugUnlock x s = .next u ∧ _)

/-- The protected sector with another owner: its epoch counts and its configuration floor starts again (R421). -/
def Trust.owned (t : Trust) (owner : Option (List Byte)) : Trust := { t with owner := owner, ownerEp := (t.ownerEp + 1) % 2 ^ 32, cfgFloor := 0 }

/-- OWNER_ENROLL is refused where there is an owner (R421). -/
theorem ownerEnroll_refused (called : Called s 0xC006 x i) (priv : (getSes s i).priv = true) (owner : s.trust.owner.isSome = true) :
    ∃ u, exec (.ownerEnroll x) s = .next u ∧ Answered (noted s x i) u rcInvalid [] := by
  obtain ⟨w, metered, acts⟩ := withPriv_acts called priv
  refine ⟨_, (acts _ : execOwnerEnroll x s = _), ?_⟩
  have same : w.trust = s.trust := metered.trust
  rw [same, if_pos (.inr owner)]
  exact reply_answered metered

/-- OWNER_ENROLL writes the hash of the owner's key where there is no owner (R421). -/
theorem ownerEnroll_writes (called : Called s 0xC006 x i) (priv : (getSes s i).priv = true) (len : x.length = 468) (free : s.trust.owner = none) :
    ∃ u, exec (.ownerEnroll x) s = .next u ∧
      Answered { noted s x i with trust := s.trust.owned (some (fitBytes 48 (Config.sha384 (x.drop 32)))) } u rcOk [] := by
  obtain ⟨w, metered, acts⟩ := withPriv_acts called priv
  refine ⟨_, (acts _ : execOwnerEnroll x s = _), ?_⟩
  have same : w.trust = s.trust := metered.trust
  rw [same, if_neg (by simp [len, free])]
  exact reply_answered (metered.setTrust _)

/-- OWNER_RELEASE takes the owner from the protected sector (R421). -/
theorem ownerRelease_writes (called : Called s 0xC007 x i) (priv : (getSes s i).priv = true) :
    ∃ u, exec (.ownerRelease x) s = .next u ∧ Answered { noted s x i with trust := s.trust.owned none } u rcOk [] := by
  obtain ⟨w, metered, acts⟩ := withPriv_acts called priv
  refine ⟨_, (acts _ : execOwnerRelease x s = _), ?_⟩
  have same : w.trust = s.trust := metered.trust
  rw [same]
  exact reply_answered (metered.setTrust _)

-- DEBUG_UNLOCK -----------------------------------------------------------------------------------------------------------

/-- The trust state when a session has unlocked debug: MR6 extended by the session's credential and slot, and the unlock marked until the next power-up
(R405, R420). -/
def Trust.unlocked (t : Trust) (cred : List Byte) (i : Nat) : Trust :=
  { t with
    mrs := t.mrs.set 6 (fitBytes 48 (Config.sha384 (t.mrs.getD 6 [] ++ fitBytes 48 (Config.sha384 (cred ++ leBytes 2 i)))))
    dbgBy := some i, dbgSticky := true }

/-- DEBUG_UNLOCK unlocks debug for its session (R405, R420). -/
theorem debugUnlock_unlocks (called : Called s 0xC008 x i) (priv : (getSes s i).priv = true) (unlock : bit (fieldAt (x.drop 32) 0 4) 0 = true) :
    ∃ u, exec (.debugUnlock x) s = .next u ∧ Answered { noted s x i with trust := s.trust.unlocked (getSes s i).cred i } u rcOk [] := by
  obtain ⟨w, metered, acts⟩ := withPriv_acts called priv
  refine ⟨_, (acts _ : execDebugUnlock x s = _), ?_⟩
  have same : w.trust = s.trust := metered.trust
  have cred : (getSes w i).cred = (getSes s i).cred := by rw [getSes_of_noted metered]
  rw [if_pos unlock, cred, ← same]
  exact reply_answered (metered.setTrust (w.trust.unlocked (getSes s i).cred i))

/-- The session that unlocked debug locks it, and the TAP with it; from another session the lock changes nothing (R420). -/
theorem debugUnlock_locks (called : Called s 0xC008 x i) (priv : (getSes s i).priv = true) (lock : bit (fieldAt (x.drop 32) 0 4) 0 = false) :
    ∃ u, exec (.debugUnlock x) s = .next u ∧ Answered
      (if s.trust.dbgBy = some i then { noted s x i with trust := { s.trust with dbgBy := none }, tap := { s.tap with live := false } } else noted s x i) u rcOk [] := by
  obtain ⟨w, metered, acts⟩ := withPriv_acts called priv
  refine ⟨_, (acts _ : execDebugUnlock x s = _), ?_⟩
  have trust : w.trust = s.trust := metered.trust
  have tap : w.tap = s.tap := metered.tap
  rw [if_neg (Bool.eq_false_iff.mp lock), trust, tap]
  by_cases own : s.trust.dbgBy = some i
  · rw [if_pos own, if_pos own]
    exact reply_answered ((metered.setTrust { s.trust with dbgBy := none }).setTap { s.tap with live := false })
  · rw [if_neg own, if_neg own]
    exact reply_answered metered

end

end Sys2Proof.Machine
end

section
/-! Commands that read: the certificate chain, exported public values and event queues (R397, R406, R411, R470). -/

namespace Sys2Proof.Machine

section
variable {s : State} {x : List Byte} {i : Nat}

/-- ID_CERTS answers a piece of the certificate chain of at most 4,000 bytes (R397, R406). -/
theorem idCerts_answers (link : s.power.linkUp = true) (isReady : ready s = true) (len : x.length = 40) :
    ∃ w, Meters s w ∧ exec (.idCerts x) s = .next (
      if 4000 < fieldAt x 36 4 then reply w rcInvalid [] else reply w rcOk ((Config.certChain.drop (fieldAt x 32 4)).take (fieldAt x 36 4))) := by
  obtain ⟨w, metered, acts⟩ := arrives_acts link isReady
  exact ⟨w, metered, (acts _ : execIdCerts x s = _).trans (congrArg Host.Outcome.next (if_congr (or_iff_right (by simp [len])) rfl rfl))⟩

/-- SES_EXPORT answers the public key of RK to a privileged session that asks for it, and nothing else (R411). -/
theorem sesExport_answers (called : Called s 0xC00A x i) (len : x.length = 36) : ∃ w, Meters (noted s x i) w ∧ exec (.sesExport x) s = .next (
      if fieldAt (x.drop 32) 0 4 = 1 ∧ (getSes s i).priv = true then reply w rcOk (fitBytes 388 Config.rkPub) else reply w rcInvalid []) := by
  obtain ⟨w, metered, acts⟩ := withSes_acts called
  refine ⟨w, metered, (acts _ : execSesExport x s = _).trans ?_⟩
  rw [priv_of_noted metered]
  exact congrArg Host.Outcome.next (if_congr (and_iff_right (by simp [len])) rfl rfl)

-- EVENT_READ -------------------------------------------------------------------------------------------------------------

theorem Meters.setSesQ {w : State} (h : Meters s w) (queues : List (Nat × EventQ)) : Meters { s with sesQ := queues } { w with sesQ := queues } :=
  { h with sesQ := rfl }

theorem Meters.setModQ {w : State} (h : Meters s w) (queue : EventQ) : Meters { s with modQ := queue } { w with modQ := queue } := { h with modQ := rfl }

/-- What EVENT_READ answers of a queue: how many records follow, how many were lost, and the oldest records (R470). -/
theorem readQueue_eq (q : EventQ) (n : Nat) : readQueue q n =
    (leBytes 2 (min n q.recs.length) ++ zeros 2 ++ leBytes 4 (min q.lost 0xFFFFFFFF) ++ ((q.recs.take n).map Event.bytes).flatten,
      { recs := q.recs.drop n, lost := 0 }) := by
  unfold readQueue
  dsimp only
  rw [List.length_take]
  rfl

section
variable (called : Called s 0xC015 x i) (len : x.length = 36) (nonempty : 0 < fieldAt (x.drop 32) 0 2) (limit : fieldAt (x.drop 32) 0 2 ≤ 120)
include called len nonempty limit

/-- EVENT_READ takes the oldest records from its session's queue. -/
theorem eventRead_session (flag : fieldAt (x.drop 32) 2 2 = 0) : ∃ u, exec (.eventRead x) s = .next u ∧
    Answered { noted s x i with sesQ := tset EventQ.rest s.sesQ i (readQueue (tget EventQ.rest s.sesQ i) (fieldAt (x.drop 32) 0 2)).2 } u rcOk
      (readQueue (tget EventQ.rest s.sesQ i) (fieldAt (x.drop 32) 0 2)).1 := by
  obtain ⟨w, metered, acts⟩ := withSes_acts called
  refine ⟨_, (acts _ : execEventRead x s = _), ?_⟩
  have same : w.sesQ = s.sesQ := metered.sesQ
  dsimp only
  rw [same, if_neg (by simp [len, flag]; omega), if_neg (by simp [flag])]
  exact reply_answered (metered.setSesQ _)

/-- EVENT_READ of the module's queue takes its oldest records for a privileged session. -/
theorem eventRead_module (flag : fieldAt (x.drop 32) 2 2 = 1) (priv : (getSes s i).priv = true) : ∃ u, exec (.eventRead x) s = .next u ∧
    Answered { noted s x i with modQ := (readQueue s.modQ (fieldAt (x.drop 32) 0 2)).2 } u rcOk (readQueue s.modQ (fieldAt (x.drop 32) 0 2)).1 := by
  obtain ⟨w, metered, acts⟩ := withSes_acts called
  refine ⟨_, (acts _ : execEventRead x s = _), ?_⟩
  have same : w.modQ = s.modQ := metered.modQ
  dsimp only
  rw [same, priv_of_noted metered, if_neg (by simp [len, flag, priv]; omega), if_pos flag]
  exact reply_answered (metered.setModQ _)

end

/-- EVENT_READ of the module's queue is refused to a session without privilege. -/
theorem eventRead_unprivileged (called : Called s 0xC015 x i) (flag : fieldAt (x.drop 32) 2 2 = 1) (priv : (getSes s i).priv = false) :
    ∃ u, exec (.eventRead x) s = .next u ∧ Answered (noted s x i) u rcInvalid [] := by
  obtain ⟨w, metered, acts⟩ := withSes_acts called
  refine ⟨_, (acts _ : execEventRead x s = _), ?_⟩
  dsimp only
  rw [priv_of_noted metered, if_pos (.inr (.inr (.inr (.inr ⟨flag, priv⟩))))]
  exact reply_answered metered

end

/-- Settles O49, command by command. -/
theorem sessionCommandsServeTheirSession : Obligations.SessionCommandsServeTheirSession := by
  unfold Obligations.SessionCommandsServeTheirSession
  refine fun s x i => ⟨sesClose_frees, ?jobLink, fun op g row => ownerCommand_unprivileged row,
    fun called priv len => ⟨ownerEnroll_refused called priv, ownerEnroll_writes called priv len⟩, ownerRelease_writes, ?debugUnlock, ?idCerts, ?sesExport, ?eventRead⟩
  case jobLink =>
    rintro called job rfl
    refine ⟨jobLink_refuses_second called, ?_⟩
    rintro len zero named unlinked key rfl
    exact ⟨jobLink_refuses_bad_tag called len zero named unlinked, fun secret => jobLink_stores called len zero named unlinked⟩
  case debugUnlock =>
    refine fun called priv => ⟨debugUnlock_unlocks called priv, fun lock own => ?_, fun lock other => ?_⟩
    all_goals have row := debugUnlock_locks called priv lock
    · rwa [if_pos own] at row
    · rwa [if_neg other] at row
  case idCerts =>
    intro link isReady len
    obtain ⟨w, metered, row⟩ := idCerts_answers link isReady len
    refine ⟨_, row, fun within => ?_, fun exceeds => ?_⟩
    · rw [if_neg (by omega)]
      exact reply_answered metered
    · rw [if_pos exceeds]
      exact reply_answered metered
  case sesExport =>
    intro called len
    obtain ⟨w, metered, row⟩ := sesExport_answers called len
    refine ⟨_, row, fun purpose priv => ?_, fun bad => ?_⟩
    · rw [if_pos ⟨purpose, priv⟩]
      exact reply_answered metered
    · rw [if_neg (by rintro ⟨purpose, priv⟩; simp [purpose, priv] at bad)]
      exact reply_answered metered
  case eventRead =>
    rintro called len n rfl nonempty limit
    refine ⟨?_, fun flag priv => ?_, eventRead_unprivileged called⟩
    · rintro flag q rfl
      have row := eventRead_session called len nonempty limit flag
      rwa [readQueue_eq] at row
    · have row := eventRead_module called len nonempty limit flag priv
      rwa [readQueue_eq] at row

end Sys2Proof.Machine
end

section
/-! Counter blocks and trace blocks: what their control registers do, and the record that TR_MARK writes (R430, R438 to R444). -/

namespace Sys2Proof.Machine

/-- What only meters changed from a later time on is metered from the state before too, time aside. -/
theorem Meters.retimed {s u : State} {T : Nat} (h : Meters { s with time := T } u) : Meters s { u with time := s.time } :=
  { h with time := rfl }

-- counters -----------------------------------------------------------------------------------------------------------------------

section
variable {s : State} {d value : Nat}

/-- Writing one counter block leaves the rest of the state and the other blocks. -/
theorem setCnt_only (s : State) (d : Nat) (x : CntBlock) :
    { setCnt s d x with cnts := s.cnts } = s ∧ (∀ e, e ≠ d → getCnt (setCnt s d x) e = getCnt s e) ∧ getCnt (setCnt s d x) d = x :=
  ⟨rfl, fun e other => by rw [getCnt_setCnt, if_neg other.symm], by rw [getCnt_setCnt, if_pos rfl]⟩

/-- The counters of a block, each with its value zeroed. -/
def CntBlock.zeroed (b : CntBlock) : List (Nat × Counter) :=
  (b.counters.map Prod.fst).foldl (fun m k => tset Counter.rest m k { tget Counter.rest m k with value := 0 }) b.counters

theorem cntCtrl_eq (served : blockServed s d = true) :
    exec (.cntCtrl d value) s = .next (setCnt s d { getCnt s d with freeze := bit value 0, arm := bit value 1 }) :=
  congrArg Host.Outcome.next (if_pos served)

theorem cntClear_eq (served : blockServed s d = true) (clear : bit value 0 = true) :
    exec (.cntClear d value) s = .next (setCnt s d { getCnt s d with counters := (getCnt s d).zeroed }) :=
  congrArg Host.Outcome.next (if_pos (by rw [served, clear]; rfl))

theorem cntClear_idle (keep : bit value 0 = false) : exec (.cntClear d value) s = .next s :=
  congrArg Host.Outcome.next (if_neg (by simp [keep]))

theorem counterFreeze_eq (served : blockServed s d = true) (armed : (getCnt s d).arm = true) :
    exec (.counterFreeze d) s = .next (fire (setCnt (timeTo s (getCnt s d).freezeAt) d
      { getCnt (timeTo s (getCnt s d).freezeAt) d with freeze := true, arm := false }) d 203) :=
  congrArg Host.Outcome.next (if_pos (by rw [served, armed]; rfl))

theorem counterFreeze_unarmed (unarmed : (getCnt s d).arm = false) : exec (.counterFreeze d) s = .next s :=
  congrArg Host.Outcome.next (if_neg (by simp [unarmed]))

theorem getCnt_fire (s : State) (d i e : Nat) : getCnt (fire s d i) e = getCnt s e := by
  obtain ⟨x, fired⟩ := fire_only s d i
  rw [fired, getCnt_sics]

/-- An armed block freezes and disarms as device time reaches CNT_FREEZE_AT (R430). -/
theorem counterFreeze_freezes (served : blockServed s d = true) (armed : (getCnt s d).arm = true) :
    ∃ u, exec (.counterFreeze d) s = .next u ∧ Meters s { u with time := s.time } ∧ u.time = max s.time (getCnt s d).freezeAt ∧
      (getCnt u d).freeze = true ∧ (getCnt u d).arm = false := by
  have timed := timeTo_says s (getCnt s d).freezeAt
  have metered := fire_meters _ d 203 (setCnt_meters _ d { getCnt (timeTo s (getCnt s d).freezeAt) d with freeze := true, arm := false } timed)
  refine ⟨_, counterFreeze_eq served armed, metered.retimed, metered.time, ?_, ?_⟩ <;> rw [getCnt_fire, getCnt_setCnt, if_pos rfl]

end

/-- Settles O14, control by control. -/
theorem counterBlockControls : Obligations.CounterBlockControls := by
  unfold Obligations.CounterBlockControls
  intro s d value served
  refine ⟨⟨_, cntCtrl_eq served, setCnt_only ..⟩, fun clear => ?_, cntClear_idle, counterFreeze_freezes served, counterFreeze_unarmed⟩
  obtain ⟨frame, others, here⟩ := setCnt_only s d { getCnt s d with counters := (getCnt s d).zeroed }
  refine ⟨_, cntClear_eq served clear, frame, others, ?_, fun k => ?_⟩
  · rw [here]
  · rw [here]
    exact clear_says (getCnt s d).counters k

-- trace ----------------------------------------------------------------------------------------------------------------------------

section
variable {s : State} {d value : Nat}

/-- Writing one trace block leaves the rest of the state and the other blocks. -/
theorem setTrace_only (s : State) (d : Nat) (x : Trace) :
    { setTrace s d x with traces := s.traces } = s ∧ (∀ e, e ≠ d → getTrace (setTrace s d x) e = getTrace s e) ∧ getTrace (setTrace s d x) d = x :=
  ⟨rfl, fun e other => by rw [getTrace_setTrace, if_neg other.symm], by rw [getTrace_setTrace, if_pos rfl]⟩

/-- A field of a control word as a write leaves it: kept where the value written is reserved or the field is locked (R6). -/
def keepField (old v lo w : Nat) (keep : Bool) : Nat := if keep then setFld v lo w (fld old lo w) else v

theorem fld_keepField_other {old v lo w lo' w' : Nat} (keep : Bool) (apart : lo' + w' ≤ lo ∨ lo + w ≤ lo') :
    fld (keepField old v lo w keep) lo' w' = fld v lo' w' := by
  unfold keepField
  split
  · exact fld_setFld_other _ _ _ _ _ _ apart
  · rfl

theorem bit_keepField_below {old v lo w i : Nat} (keep : Bool) (below : i < lo) : bit (keepField old v lo w keep) i = bit v i := by
  unfold keepField
  split
  · rw [bit_setFld, if_pos below]
  · rfl

theorem fld_keepField_kept (old v lo w : Nat) : fld (keepField old v lo w true) lo w = fld old lo w := by
  unfold keepField
  rw [if_pos rfl, fld_setFld, fld_fld]

theorem keepField_taken (old v lo w : Nat) : keepField old v lo w false = v := rfl

/-- A field inside a field that starts at bit 0. -/
theorem fld_of_fld {x n lo w : Nat} (inside : lo + w ≤ n) : fld (fld x 0 n) lo w = fld x lo w := by
  refine Nat.eq_of_testBit_eq fun i => ?_
  rw [testBit_fld, testBit_fld, bit_fld]
  by_cases low : i < w
  · rw [decide_eq_true low, decide_eq_true (show lo + i < n by omega), Nat.zero_add]; rfl
  · rw [decide_eq_false low]; rfl

/-- TR_CTRL as a write leaves it (R439): MODE 3, PRE_PCT above 99 and FLOOR_LOG above 12 are reserved, and MODE is locked in a capture. -/
def ctrlMode (t : Trace) (value : Nat) : Nat :=
  keepField t.ctrl (fld value 0 14) 1 2 (decide (fld (fld value 0 14) 1 2 = 3 ∨ bit t.ctrl 0 = true))
def ctrlPre (t : Trace) (value : Nat) : Nat := keepField t.ctrl (ctrlMode t value) 3 7 (decide (99 < fld (ctrlMode t value) 3 7))
def ctrlWritten (t : Trace) (value : Nat) : Nat := keepField t.ctrl (ctrlPre t value) 10 4 (decide (12 < fld (ctrlPre t value) 10 4))

theorem ctrlWritten_enable (t : Trace) (value : Nat) : bit (ctrlWritten t value) 0 = bit value 0 := by
  unfold ctrlWritten ctrlPre ctrlMode
  rw [bit_keepField_below _ (by omega), bit_keepField_below _ (by omega), bit_keepField_below _ (by omega), bit_fld]
  rfl

theorem ctrlWritten_mode_locked {t : Trace} (on : bit t.ctrl 0 = true) (value : Nat) : fld (ctrlWritten t value) 1 2 = fld t.ctrl 1 2 := by
  unfold ctrlWritten ctrlPre
  rw [fld_keepField_other _ (by omega), fld_keepField_other _ (by omega), ctrlMode, decide_eq_true (.inr on), fld_keepField_kept]

theorem ctrlWritten_valid {t : Trace} (off : bit t.ctrl 0 = false) (mode : fld value 1 2 ≠ 3) (pre : fld value 3 7 ≤ 99) (floor : fld value 10 4 ≤ 12) :
    ctrlWritten t value = fld value 0 14 := by
  have takesMode : ctrlMode t value = fld value 0 14 := by
    unfold ctrlMode
    rw [fld_of_fld (by omega), decide_eq_false (by simp [mode, off]), keepField_taken]
  have takesPre : ctrlPre t value = fld value 0 14 := by
    unfold ctrlPre
    rw [takesMode, fld_of_fld (by omega), decide_eq_false (by omega), keepField_taken]
  unfold ctrlWritten
  rw [takesPre, fld_of_fld (by omega), decide_eq_false (by omega), keepField_taken]

/-- A trace block whose capture starts, with nothing written, lost or triggered (R439). -/
def Trace.started (t : Trace) (ctrl : Nat) : Trace :=
  { t with ctrl := ctrl, state := 1, wrapped := false, written := 0, lost := 0, trigIdx := 0xFFFFFFFF,
           oldest := 0xFFFFFFFF, trigNow := false, next := 0, postN := 0, keptAt := 0, keptN := 0, gap := 0 }

/-- A trace block after TR_CTRL takes a value (R439, R444). -/
def Trace.controlled (t : Trace) (ctrl : Nat) : Trace :=
  if !bit t.ctrl 0 && bit ctrl 0 then t.started ctrl
  else if bit t.ctrl 0 && !bit ctrl 0 then { trStop t with ctrl := ctrl, state := 0 }
  else { t with ctrl := ctrl }

theorem Trace.controlled_starts {t : Trace} {ctrl : Nat} (off : bit t.ctrl 0 = false) (on : bit ctrl 0 = true) : t.controlled ctrl = t.started ctrl :=
  if_pos (by rw [off, on]; rfl)

theorem Trace.controlled_ends {t : Trace} {ctrl : Nat} (on : bit t.ctrl 0 = true) (off : bit ctrl 0 = false) :
    t.controlled ctrl = { trStop t with ctrl := ctrl, state := 0 } :=
  (if_neg (by rw [on, off]; decide)).trans (if_pos (by rw [on, off]; rfl))

theorem Trace.controlled_same {t : Trace} {ctrl : Nat} (same : bit t.ctrl 0 = bit ctrl 0) : t.controlled ctrl = { t with ctrl := ctrl } := by
  unfold Trace.controlled
  rw [same]
  cases bit ctrl 0 <;> rfl

theorem Trace.controlled_ctrl (t : Trace) (ctrl : Nat) : (t.controlled ctrl).ctrl = ctrl := by
  unfold Trace.controlled
  split
  · rfl
  · split <;> rfl

/-- The settings of a trace block that its control register does not hold. -/
theorem Trace.controlled_settings (t : Trace) (ctrl : Nat) :
    (t.controlled ctrl).base = t.base ∧ (t.controlled ctrl).size = t.size ∧ (t.controlled ctrl).job = t.job ∧ (t.controlled ctrl).kinds = t.kinds ∧
    (t.controlled ctrl).filter = t.filter ∧ (t.controlled ctrl).layers = t.layers ∧ (t.controlled ctrl).trig = t.trig := by
  unfold Trace.controlled
  split
  · exact ⟨rfl, rfl, rfl, rfl, rfl, rfl, rfl⟩
  · split <;> exact ⟨rfl, rfl, rfl, rfl, rfl, rfl, rfl⟩

theorem trCtrl_eq (served : blockServed s d = true) :
    exec (.trCtrl d value) s = .next (setTrace s d ((getTrace s d).controlled (ctrlWritten (getTrace s d) value))) := by
  refine congrArg Host.Outcome.next ((if_pos served).trans ?_)
  unfold Trace.controlled ctrlWritten ctrlPre ctrlMode keepField
  simp only [decide_eq_true_eq, apply_ite (setTrace s d)]
  rfl

theorem trTrigNow_eq (served : blockServed s d = true) (set : bit value 0 = true) :
    exec (.trTrigNow d value) s = .next (setTrace s d { getTrace s d with trigNow := true }) :=
  congrArg Host.Outcome.next (if_pos (by rw [served, set]; rfl))

theorem trTrigNow_idle (clear : bit value 0 = false) : exec (.trTrigNow d value) s = .next s :=
  congrArg Host.Outcome.next (if_neg (by simp [clear]))

theorem trMark_eq (served : blockServed s d = true) : exec (.trMark d value) s = .next (traceRec s d (trPlain s 9 (value % 2 ^ 32))) :=
  congrArg Host.Outcome.next (if_pos served)

theorem traceRec_unwanted {r : TrRec} (none : (getTrace s d).state = 0 ∨ (getTrace s d).state = 3 ∨ trWanted (getTrace s d) r = false) :
    traceRec s d r = s := if_pos none

end

/-- Settles O15: what ENABLE turns to decides between a start, an end and a plain write. -/
theorem traceEnableStartsAndEndsCapture : Obligations.TraceEnableStartsAndEndsCapture := by
  unfold Obligations.TraceEnableStartsAndEndsCapture
  intro s d value served
  refine ⟨?control, fun set => ⟨_, trTrigNow_eq served set, setTrace_only ..⟩, trTrigNow_idle⟩
  have enable := ctrlWritten_enable (getTrace s d) value
  obtain ⟨frame, others, here⟩ := setTrace_only s d ((getTrace s d).controlled (ctrlWritten (getTrace s d) value))
  obtain ⟨base, size, job, kinds, filter, layers, trig⟩ := (getTrace s d).controlled_settings (ctrlWritten (getTrace s d) value)
  refine ⟨_, trCtrl_eq served, frame, others, ?_⟩
  rw [here, Trace.controlled_ctrl]
  refine ⟨base, size, job, kinds, filter, layers, trig, enable, fun on => ctrlWritten_mode_locked on value, ctrlWritten_valid, ?starts, ?ends, ?same⟩
  case starts =>
    intro off on
    rw [Trace.controlled_starts off (enable.trans on)]
    exact ⟨rfl, rfl, rfl, rfl, rfl, rfl⟩
  case ends =>
    intro on off
    rw [Trace.controlled_ends on (enable.trans off)]
    exact ⟨rfl, rfl, rfl⟩
  case same => exact fun same => Trace.controlled_same (same.trans enable.symm)

/-- Settles O16 from what one captured record does. -/
theorem markWritesOneRecord : Obligations.MarkWritesOneRecord := by
  unfold Obligations.MarkWritesOneRecord
  intro s d value served
  rw [trMark_eq served]
  refine ⟨fun unwanted => congrArg Host.Outcome.next (traceRec_unwanted unwanted), fun captures wanted j owner privileged near aligned size slot => ?_⟩
  obtain ⟨⟨m, k, p, ss, cs, tr, written, record, outside⟩, count⟩ := traceRec_says s d _ j captures wanted owner privileged near aligned size slot
  refine ⟨_, rfl, ?_⟩
  rw [written] at count ⊢
  exact ⟨rfl, rfl, rfl, rfl, rfl, rfl, count, record, outside⟩

end Sys2Proof.Machine
end

section
/-! The signal controllers: TAKE and EOI, firings, the bitmap registers, settings, the moderation timer and idle targets (R452 to R462). -/

namespace Sys2Proof.Machine

section
variable {s : State} {d : Nat}

/-- A row that writes the controller of a die in service leaves the other controllers and the rest of the state; `getSic` reads what was written. -/
theorem sicWrite_only (s : State) (d : Nat) (c : Sic) : OnlySic s (setSic s d c) d ∧ getSic (setSic s d c) d = c :=
  ⟨only_setSic s d c, by rw [getSic_setSic, if_pos rfl]⟩

/-- What resumed cores change of the targets. -/
theorem Woken.stack {c c' : Sic} (h : Woken c c') (g : Nat) : (c'.tgt g).stack = (c.tgt g).stack := by rw [h.idle g]

theorem Woken.enable {c c' : Sic} (h : Woken c c') (g : Nat) : (c'.tgt g).enable = (c.tgt g).enable := by rw [h.idle g]

theorem Woken.routeTo {c c' : Sic} (h : Woken c c') (x : Source) : routeTo c' x = routeTo c x := routeTo_congr _ _ _ _ rfl rfl h.enable

theorem routeTo_setSrc (c : Sic) (i : Nat) (x y : Source) : routeTo (c.setSrc i x) y = routeTo c y := routeTo_congr _ _ _ _ rfl rfl fun _ => rfl

theorem Routed.congr {c c' : Sic} {x y : Source} (same : routeTo c' x = routeTo c x) (h : Routed c' x y) : Routed c x y := by
  unfold Routed at h ⊢
  rwa [same] at h

theorem Routed.pending {c : Sic} {x y : Source} (h : Routed c x y) : y.state = 1 ∧ y.held = false ∧ y.heldCount = 0 := by
  unfold Routed at h
  rw [h]
  exact ⟨rfl, rfl, rfl⟩

-- TAKE and EOI (R456, R457) --------------------------------------------------------------------------------------------------------

theorem sicTake_other (t i : Nat) : exec (.sicTake d t i false) s = .next s := rfl

theorem sicTake_own (served : sicServed s d = true) (t i : Nat) : exec (.sicTake d t i true) s = .next (setSic s d (takeSic (getSic s d) t i)) :=
  congrArg Host.Outcome.next (if_pos (by rw [served]; rfl))

theorem sicEoi_eq (served : sicServed s d = true) (t i : Nat) : exec (.sicEoi d t i) s = .next (setSic s d (wake (eoiSic (getSic s d) t i))) :=
  congrArg Host.Outcome.next (if_pos served)

/-- A source taken by a target, and the target that took it. -/
def Source.taken (x : Source) (t : Nat) : Source := { x with state := 2, assigned := none, activeOn := t, coalesced := 0 }
def Target.took (g : Target) (i prio : Nat) : Target := { g with stack := (i, prio) :: g.stack, miss := false, idle := false }

theorem takeSic_takes {c : Sic} {t i : Nat} (can : deliverable c t i = true) :
    takeSic c t i = (c.setSrc i ((c.src i).taken t)).setTgt t ((c.tgt t).took i (c.src i).prio) := if_pos can

theorem takeSic_misses {c : Sic} {t i : Nat} (cannot : deliverable c t i = false) :
    takeSic c t i = (c.setTgt t { c.tgt t with miss := true }).setErr (setFld (setBit c.err 3 true) 16 4 t) :=
  if_neg (by rw [cannot]; decide)

end

/-- Settles O7: whether the source is deliverable decides what the target's own TAKE does. -/
theorem takeActivatesADeliverableSource : Obligations.TakeActivatesADeliverableSource := by
  unfold Obligations.TakeActivatesADeliverableSource
  intro s d t i served
  obtain ⟨frame, here⟩ := sicWrite_only s d (takeSic (getSic s d) t i)
  refine ⟨sicTake_other t i, _, sicTake_own served t i, frame, ?_⟩
  rw [here]
  generalize getSic s d = c
  cases can : deliverable c t i
  case false =>
    rw [takeSic_misses can]
    simp only [Sic.ctrl_setErr, Sic.ctrl_setTgt, Sic.src_setErr, Sic.src_setTgt, Sic.tgt_setErr, Sic.tgt_setTgt, Sic.err_setErr, if_true, implies_true, true_and, and_true]
    refine ⟨fun g other => if_neg other.symm, fun h => absurd h (by decide), fun _ => ⟨?_, fun b => errKept_take _ _ b, fld_setFld _ _ _ _⟩⟩
    rw [bit_setFld, if_pos (by omega), bit_setBit, if_pos rfl]
  case true =>
    rw [takeSic_takes can]
    refine ⟨rfl, fun j other => by simp [other.symm], fun g other => by simp [other.symm], fun _ => ?_, fun h => absurd h (by decide)⟩
    simp [Source.taken, Target.took]

/-- EOI_MISMATCH is noted where the source named is not the entry's. -/
def eoiNote (c : Sic) (t i j : Nat) : Sic := if i = j then c else c.setErr (setFld (setBit c.err 1 true) 16 4 t)

/-- The source of an entry that left the stack of a target leaves the active state. -/
def eoiLeave (c : Sic) (t j : Nat) : Sic :=
  let x := c.src j
  if x.state = 2 then c.setSrc j { x with state := 0, activeOn := x.last }
  else if x.state = 3 then
    if (c.tgt t).enable then c.setSrc j { x with state := 1, assigned := some t, activeOn := t }
    else assign (c.setSrc j { x with state := 1, assigned := none }) j
  else c

theorem eoiSic_empty {c : Sic} {t i : Nat} (empty : (c.tgt t).stack = []) : eoiSic c t i = c.setErr (setFld (setBit c.err 0 true) 16 4 t) := by
  unfold eoiSic
  dsimp only
  rw [empty]

theorem eoiSic_pops {c : Sic} {t i j p : Nat} {rest : List (Nat × Nat)} (top : (c.tgt t).stack = (j, p) :: rest) :
    eoiSic c t i = eoiLeave (eoiNote (c.setTgt t { c.tgt t with stack := rest }) t i j) t j := by
  unfold eoiSic
  dsimp only
  rw [top]
  rfl

/-- What noting a mismatch changes: SIC_ERR alone, whose bit 1 it sets. -/
theorem eoiNote_says (c : Sic) (t i j : Nat) : ∃ e, eoiNote c t i j = c.setErr e ∧ bit e 1 = (bit c.err 1 || !decide (i = j)) := by
  unfold eoiNote
  by_cases same : i = j
  · exact ⟨c.err, if_pos same, by simp [same]⟩
  · refine ⟨_, if_neg same, ?_⟩
    rw [bit_setFld, if_pos (by omega), bit_setBit, if_pos rfl, decide_eq_false same, Bool.not_false, Bool.or_true]

/-- What leaving the active state changes: this source, and at most an assignment's marks elsewhere. -/
theorem eoiLeave_says (c : Sic) (t j : Nat) : Woken c (eoiLeave c t j) ∧ ErrKept c.err (eoiLeave c t j).err ∧
    (∀ k, k ≠ j → (eoiLeave c t j).src k = c.src k) ∧
    ((c.src j).state = 2 → ((eoiLeave c t j).src j).state = 0) ∧
    ((c.src j).state = 3 → ((eoiLeave c t j).src j).state = 1 ∧
      ((c.tgt t).enable = true → (eoiLeave c t j).src j = { c.src j with state := 1, assigned := some t, activeOn := t })) := by
  unfold eoiLeave
  dsimp only
  by_cases active : (c.src j).state = 2
  · obtain ⟨woken, err, others, here⟩ := set_says c j { c.src j with state := 0, activeOn := (c.src j).last }
    rw [if_pos active]
    exact ⟨woken, err, others, fun _ => by rw [here], fun again => by omega⟩
  rw [if_neg active]
  by_cases again : (c.src j).state = 3
  · rw [if_pos again]
    by_cases enabled : (c.tgt t).enable = true
    · obtain ⟨woken, err, others, here⟩ := set_says c j { c.src j with state := 1, assigned := some t, activeOn := t }
      rw [if_pos enabled]
      exact ⟨woken, err, others, fun h => absurd h active, fun _ => ⟨by rw [here], fun _ => here⟩⟩
    · obtain ⟨set, setErr, setOthers, setHere⟩ := set_says c j { c.src j with state := 1, assigned := none }
      obtain ⟨woken, err, moved⟩ := moved_assign (c.setSrc j { c.src j with state := 1, assigned := none }) j (by rw [setHere])
      rw [if_neg enabled]
      refine ⟨set.trans woken, setErr.trans err, fun k other => ?_, fun h => absurd h active, fun _ => ⟨?_, fun h => absurd h enabled⟩⟩
      · exact ((assign_says _ j).2.2.1 k other).trans (setOthers k other)
      · have here := (moved j).1
        rw [here, setHere]
  · rw [if_neg again]
    exact ⟨.refl _, .refl _, fun _ _ => rfl, fun h => absurd h active, fun h => absurd h again⟩

/-- EOI on an empty stack sets EOI_EMPTY, and sources and stacks stay. -/
theorem eoi_of_empty {c : Sic} {t : Nat} (i : Nat) (empty : (c.tgt t).stack = []) :
    Woken c (wake (eoiSic c t i)) ∧ bit (wake (eoiSic c t i)).err 0 = true ∧ ∀ j, (wake (eoiSic c t i)).src j = c.src j := by
  rw [eoiSic_empty empty]
  generalize marked : setFld (setBit c.err 0 true) 16 4 t = e
  obtain ⟨woken, err, srcs⟩ := wake_says (c.setErr e)
  refine ⟨⟨woken.ctrl, woken.tgt⟩, ?_, srcs⟩
  rw [err, Sic.err_setErr, ← marked, bit_setFld, if_pos (by omega), bit_setBit, if_pos rfl]

/-- EOI pops the top entry, whose source leaves the active state. -/
theorem eoi_of_top {c : Sic} {t j p : Nat} {rest : List (Nat × Nat)} (i : Nat) (top : (c.tgt t).stack = (j, p) :: rest) :
    Woken (c.setTgt t { c.tgt t with stack := rest }) (wake (eoiSic c t i)) ∧
    (∀ k, k ≠ j → (wake (eoiSic c t i)).src k = c.src k) ∧
    bit (wake (eoiSic c t i)).err 1 = (bit c.err 1 || !decide (i = j)) ∧
    ((c.src j).state = 2 → ((wake (eoiSic c t i)).src j).state = 0) ∧
    ((c.src j).state = 3 → ((wake (eoiSic c t i)).src j).state = 1 ∧
      ((c.tgt t).enable = true → (wake (eoiSic c t i)).src j = { c.src j with state := 1, assigned := some t, activeOn := t })) := by
  rw [eoiSic_pops top]
  generalize popped : c.setTgt t { c.tgt t with stack := rest } = b
  obtain ⟨e, noted, mismatch⟩ := eoiNote_says b t i j
  rw [noted]
  obtain ⟨left, kept, others, active, again⟩ := eoiLeave_says (b.setErr e) t j
  obtain ⟨woken, err, srcs⟩ := wake_says (eoiLeave (b.setErr e) t j)
  have srcOf (k : Nat) : (b.setErr e).src k = c.src k := by rw [Sic.src_setErr, ← popped, Sic.src_setTgt]
  have enableOf : ((b.setErr e).tgt t).enable = (c.tgt t).enable := by rw [Sic.tgt_setErr, ← popped, Sic.tgt_setTgt, if_pos rfl]
  have errOf : b.err = c.err := by rw [← popped, Sic.err_setTgt]
  rw [srcOf, enableOf] at again
  rw [srcOf] at active
  have both := left.trans woken
  refine ⟨⟨both.ctrl, both.tgt⟩, fun k other => by rw [srcs, others k other, srcOf], ?_, by rwa [srcs], by rwa [srcs]⟩
  rw [err, bit_err _ _ kept, Sic.err_setErr, mismatch, errOf]

/-- Settles O8: an empty stack, or the top entry popped whatever the write names. -/
theorem eoiPopsTheStack : Obligations.EoiPopsTheStack := by
  unfold Obligations.EoiPopsTheStack
  intro s d t i served
  obtain ⟨frame, here⟩ := sicWrite_only s d (wake (eoiSic (getSic s d) t i))
  refine ⟨_, sicEoi_eq served t i, frame, ?_⟩
  rw [here]
  generalize getSic s d = c
  cases stack : (c.tgt t).stack with
  | nil =>
    obtain ⟨woken, empty, srcs⟩ := eoi_of_empty i stack
    exact ⟨woken.ctrl, fun g _ => woken.idle g, empty, srcs, (woken.stack t).trans stack⟩
  | cons top rest =>
    obtain ⟨j, p⟩ := top
    obtain ⟨woken, others, mismatch, left⟩ := eoi_of_top i stack
    refine ⟨woken.ctrl, fun g other => ?_, ?_, others, mismatch, left⟩
    · have := woken.idle g
      rwa [Sic.tgt_setTgt, if_neg other.symm] at this
    · rw [woken.stack t, Sic.tgt_setTgt, if_pos rfl]

-- firings and bitmaps (R452 to R454, R458, R459) ------------------------------------------------------------------------------------

section
variable {s : State} {d : Nat}

theorem fire_served {i : Nat} (served : sicServed s d = true) (exists_ : sourceOk d i = true) :
    fire s d i = setSic s d (fireSic s.time (getSic s d) i) :=
  if_neg (by rw [exists_, served_not s d served]; decide)

theorem fire_reserved {i : Nat} (reserved : sourceOk d i = false) : fire s d i = s := if_pos (by rw [reserved]; rfl)

theorem fire_fenced (i : Nat) (unserved : sicServed s d = false) : fire s d i = s := by
  unfold sicServed at unserved
  rw [Bool.not_eq_false'] at unserved
  exact if_pos (by rw [unserved, Bool.or_true])

theorem sicPendSet_eq (served : sicServed s d = true) (w value : Nat) :
    exec (.sicPendSet d w value) s = .next (onWord s d w value (fireSic s.time)) := congrArg Host.Outcome.next (if_pos served)

theorem sicPendSet_fenced (unserved : sicServed s d = false) (w value : Nat) : exec (.sicPendSet d w value) s = .next s :=
  congrArg Host.Outcome.next (if_neg (by rw [unserved]; decide))

theorem sicPendClr_eq (served : sicServed s d = true) (w value : Nat) : exec (.sicPendClr d w value) s = .next (onWord s d w value pendClr) :=
  congrArg Host.Outcome.next (if_pos served)

/-- A source with its enable bit written. -/
def setEnabled (on : Bool) (c : Sic) (i : Nat) : Sic := c.setSrc i { c.src i with enabled := on }

theorem sicEnSet_eq (served : sicServed s d = true) (w value : Nat) :
    exec (.sicEnSet d w value) s = .next (onWord s d w value (setEnabled true)) := congrArg Host.Outcome.next (if_pos served)

theorem sicEnClr_eq (served : sicServed s d = true) (w value : Nat) :
    exec (.sicEnClr d w value) s = .next (onWord s d w value (setEnabled false)) := congrArg Host.Outcome.next (if_pos served)

/-- A source after its bit is written 1 to SIC_PEND_CLR (R458). -/
def Source.cleared (x : Source) : Source :=
  if x.state = 0 then { x with held := false, heldCount := 0 }
  else if x.state = 1 then { x with state := 0, assigned := none, activeOn := x.last }
  else if x.state = 3 then { x with state := 2 }
  else x

/-- PEND_CLR changes its source alone. -/
theorem pendClr_says (c : Sic) (i : Nat) : Woken c (pendClr c i) ∧ (pendClr c i).err = c.err ∧ (∀ j, j ≠ i → (pendClr c i).src j = c.src j) ∧
    (pendClr c i).src i = (c.src i).cleared := by
  have sets (x : Source) : Woken c (c.setSrc i x) ∧ (c.setSrc i x).err = c.err ∧ (∀ j, j ≠ i → (c.setSrc i x).src j = c.src j) ∧ (c.setSrc i x).src i = x := by
    obtain ⟨woken, -, others, here⟩ := set_says c i x
    exact ⟨woken, rfl, others, here⟩
  unfold pendClr Source.cleared
  dsimp only
  split
  · exact sets _
  · split
    · exact sets _
    · split
      · exact sets _
      · exact ⟨.refl _, rfl, fun _ _ => rfl, rfl⟩

/-- A write to a bitmap register whose effect on a source depends on that source alone. -/
theorem onWord_acts {f : Sic → Nat → Sic} (g : Source → Source) (s : State) (d w v : Nat)
    (acts : ∀ c i, Woken c (f c i) ∧ (f c i).err = c.err ∧ (∀ j, j ≠ i → (f c i).src j = c.src j) ∧ (f c i).src i = g (c.src i)) :
    OnlySic s (onWord s d w v f) d ∧ Woken (getSic s d) (getSic (onWord s d w v f) d) ∧ (getSic (onWord s d w v f) d).err = (getSic s d).err ∧
    (∀ j, Named d w v j → (getSic (onWord s d w v f) d).src j = g ((getSic s d).src j)) ∧
    ∀ j, ¬ Named d w v j → (getSic (onWord s d w v f) d).src j = (getSic s d).src j := by
  obtain ⟨frame, woken, -, named, others⟩ := onWord_says (R := fun x y => y = g x) s d w v fun c i _ => by
    obtain ⟨woken, err, others, here⟩ := acts c i
    exact ⟨woken, by rw [err]; exact .refl _, others, fun same => by rw [here, same]⟩
  exact ⟨frame, woken, onWord_err s d w v fun c i => (acts c i).2.1, named, others⟩

theorem setEnabled_says (on : Bool) (c : Sic) (i : Nat) : Woken c (setEnabled on c i) ∧ (setEnabled on c i).err = c.err ∧
    (∀ j, j ≠ i → (setEnabled on c i).src j = c.src j) ∧ (setEnabled on c i).src i = { c.src i with enabled := on } := by
  obtain ⟨woken, -, others, here⟩ := set_says c i { c.src i with enabled := on }
  exact ⟨woken, rfl, others, here⟩

end

/-- Settles O9: one firing, and the word of firings. -/
theorem firingsMergeAreHeldOrBecomePending : Obligations.FiringsMergeAreHeldOrBecomePending := by
  unfold Obligations.FiringsMergeAreHeldOrBecomePending
  refine fun s d => ⟨fun served i ok => ?fired, fun served w value => ?word, fun i reserved => congrArg Host.Outcome.next (fire_reserved reserved),
    fun unserved i w value => ⟨congrArg Host.Outcome.next (fire_fenced i unserved), sicPendSet_fenced unserved w value⟩⟩
  case fired =>
    obtain ⟨frame, here⟩ := sicWrite_only s d (fireSic s.time (getSic s d) i)
    obtain ⟨woken, err, others, once, idle⟩ := fireSic_says s.time (getSic s d) i
    refine ⟨_, congrArg Host.Outcome.next (fire_served served ok), frame, ?_⟩
    rw [here]
    exact ⟨woken, err, once, others, idle⟩
  case word =>
    refine ⟨_, sicPendSet_eq served w value, onWord_says (R := FiredOnce s.time (getSic s d)) s d w value fun c i before => ?_⟩
    obtain ⟨woken, err, others, once, -⟩ := fireSic_says s.time c i
    exact ⟨woken, err, others, fun same => by rw [same] at once; exact once.woken before⟩

/-- Settles O10, register by register. -/
theorem bitmapWritesActOnTheirSources : Obligations.BitmapWritesActOnTheirSources := by
  unfold Obligations.BitmapWritesActOnTheirSources
  intro s d w value served
  refine ⟨?clear, ⟨_, sicEnSet_eq served w value, onWord_acts (fun x => { x with enabled := true }) s d w value (setEnabled_says true)⟩,
    ⟨_, sicEnClr_eq served w value, onWord_acts (fun x => { x with enabled := false }) s d w value (setEnabled_says false)⟩⟩
  obtain ⟨frame, woken, err, named, others⟩ := onWord_acts Source.cleared s d w value pendClr_says
  refine ⟨_, sicPendClr_eq served w value, frame, woken, err, others, fun j bitSet => ?_⟩
  rw [named j bitSet]
  unfold Source.cleared
  refine ⟨fun state => ?_, fun state => ?_, fun state => ?_, fun state => ?_⟩ <;> simp [state]

-- settings (R453, R454, R460, R461) -------------------------------------------------------------------------------------------------

section
variable {s : State} {d : Nat}

/-- A source with the priority and mask, and with the moderation settings, that a register's value holds. -/
def Source.configured (x : Source) (value : Nat) : Source := { x with prio := fld value 0 5, mask := fld value 16 16 }
def Source.moderated (x : Source) (value : Nat) : Source := { x with modCount := fld value 0 8, modTimer := fld value 8 16 }

theorem sicSrcCfg_eq (served : sicServed s d = true) (i value : Nat) :
    exec (.sicSrcCfg d i value) s = .next (setSic s d (wake (reassign ((getSic s d).setSrc i (((getSic s d).src i).configured value))))) :=
  congrArg Host.Outcome.next (if_pos served)

theorem sicSrcMod_eq (served : sicServed s d = true) (i value : Nat) :
    exec (.sicSrcMod d i value) s = .next (setSic s d (wake (heldRelease s.time ((getSic s d).setSrc i (((getSic s d).src i).moderated value)) i))) :=
  congrArg Host.Outcome.next (if_pos served)

theorem sicTgtCtrl_eq (served : sicServed s d = true) (t value : Nat) :
    exec (.sicTgtCtrl d t value) s = .next (setSic s d (wake (reassign ((getSic s d).setTgt t { (getSic s d).tgt t with enable := bit value 0 })))) :=
  congrArg Host.Outcome.next (if_pos served)

theorem chosenIdle_setSrc (c : Sic) (i : Nat) (x y : Source) : chosenIdle (c.setSrc i x) y = chosenIdle c y := by
  unfold chosenIdle
  rw [routeTo_setSrc]
  rfl

/-- A reassignment, after which cores that waited resume. -/
theorem reassigned_says (c : Sic) : Woken c (wake (reassign c)) ∧ ErrKept c.err (wake (reassign c)).err ∧
    ∀ j, Moved (c.src j) ((wake (reassign c)).src j) := by
  obtain ⟨moved, err, srcs⟩ := reassign_says c
  obtain ⟨woken, wokenErr, wokenSrcs⟩ := wake_says (reassign c)
  exact ⟨moved.trans woken, by rwa [wokenErr], fun j => by rw [wokenSrcs]; exact srcs j⟩

/-- A held source that may be released by its settings, after which cores that waited resume. -/
theorem heldReleased_says (now : Nat) (c : Sic) (i : Nat) : Woken c (wake (heldRelease now c i)) ∧ ErrKept c.err (wake (heldRelease now c i)).err ∧
    (∀ j, j ≠ i → (wake (heldRelease now c i)).src j = c.src j) ∧
    (wake (heldRelease now c i)).src i =
      if (c.src i).held = true ∧ ((c.src i).modCount ≤ (c.src i).heldCount ∨ chosenIdle c (c.src i) = true ∨
          (0 < (c.src i).modTimer ∧ (c.src i).heldAt + (c.src i).modTimer * 100 ≤ now)) then
        { c.src i with state := 1, held := false, heldCount := 0, assigned := routeTo c (c.src i),
                       activeOn := (routeTo c (c.src i)).getD (c.src i).activeOn, last := (routeTo c (c.src i)).getD (c.src i).last }
      else c.src i := by
  obtain ⟨woken, err, srcs⟩ := wake_says (heldRelease now c i)
  rw [err, srcs]
  simp only [srcs]
  rw [held_eq] at woken ⊢
  split
  case isTrue due =>
    rw [if_pos due] at woken
    obtain ⟨pending, pendingErr, others, routed⟩ := becomePending_says c i
    exact ⟨pending.trans woken, pendingErr, others, routed⟩
  case isFalse due =>
    rw [if_neg due] at woken
    exact ⟨woken, .refl _, fun _ _ => rfl, rfl⟩

end

/-- Settles O11, register by register. -/
theorem settingsTakeEffectAtOnce : Obligations.SettingsTakeEffectAtOnce := by
  unfold Obligations.SettingsTakeEffectAtOnce
  refine fun s d value served => ⟨fun i => ⟨?config, ?moderation⟩, fun t => ?target⟩
  case config =>
    obtain ⟨frame, here⟩ := sicWrite_only s d (wake (reassign ((getSic s d).setSrc i (((getSic s d).src i).configured value))))
    refine ⟨_, sicSrcCfg_eq served i value, frame, ?_⟩
    rw [here]
    obtain ⟨woken, err, moved⟩ := reassigned_says ((getSic s d).setSrc i (((getSic s d).src i).configured value))
    refine ⟨⟨woken.ctrl, woken.tgt⟩, err, fun j other => ?_, ?_⟩
    · have := moved j
      rwa [Sic.src_setSrc, if_neg other.symm] at this
    · have := moved i
      rwa [Sic.src_setSrc, if_pos rfl] at this
  case moderation =>
    obtain ⟨frame, here⟩ := sicWrite_only s d (wake (heldRelease s.time ((getSic s d).setSrc i (((getSic s d).src i).moderated value)) i))
    refine ⟨_, sicSrcMod_eq served i value, frame, ?_⟩
    rw [here]
    obtain ⟨woken, err, others, released⟩ := heldReleased_says s.time ((getSic s d).setSrc i (((getSic s d).src i).moderated value)) i
    refine ⟨⟨woken.ctrl, woken.tgt⟩, err, fun j other => ?_, ?_⟩
    · rw [others j other, Sic.src_setSrc, if_neg other.symm]
    · simp only [Sic.src_setSrc, if_true, chosenIdle_setSrc, routeTo_setSrc] at released
      exact released
  case target =>
    obtain ⟨frame, here⟩ := sicWrite_only s d (wake (reassign ((getSic s d).setTgt t { (getSic s d).tgt t with enable := bit value 0 })))
    refine ⟨_, sicTgtCtrl_eq served t value, frame, ?_⟩
    rw [here]
    obtain ⟨woken, err, moved⟩ := reassigned_says ((getSic s d).setTgt t { (getSic s d).tgt t with enable := bit value 0 })
    refine ⟨woken.ctrl, err, moved, ?_, ?_, fun g other => ?_⟩
    · rw [woken.enable t, Sic.tgt_setTgt, if_pos rfl]
    · rw [woken.stack t, Sic.tgt_setTgt, if_pos rfl]
    · have := woken.idle g
      rwa [Sic.tgt_setTgt, if_neg other.symm] at this

-- the moderation timer and idle targets (R453, R462) --------------------------------------------------------------------------------

section
variable {s : State} {d : Nat}

theorem moderationTimer_eq {i : Nat} (served : sicServed s d = true) (held : ((getSic s d).src i).held = true) (timer : 0 < ((getSic s d).src i).modTimer) :
    exec (.moderationTimer d i) s = .next (setSic (timeTo s (((getSic s d).src i).heldAt + ((getSic s d).src i).modTimer * 100)) d
      (wake (becomePending (getSic (timeTo s (((getSic s d).src i).heldAt + ((getSic s d).src i).modTimer * 100)) d) i))) :=
  congrArg Host.Outcome.next (if_pos (by rw [served, held, decide_eq_true timer]; rfl))

theorem moderationTimer_idle {i : Nat} (not : sicServed s d = false ∨ ((getSic s d).src i).held = false ∨ ((getSic s d).src i).modTimer = 0) :
    exec (.moderationTimer d i) s = .next s := by
  refine congrArg Host.Outcome.next (if_neg ?_)
  rcases not with unserved | free | noTimer
  · simp [unserved]
  · simp [free]
  · simp [noTimer]

end

/-- Settles O12: as device time reaches the expiry the held source becomes pending. -/
theorem moderationTimerReleases : Obligations.ModerationTimerReleases := by
  unfold Obligations.ModerationTimerReleases
  refine fun s d i => ⟨fun ⟨served, held, timer⟩ => ⟨_, moderationTimer_eq served held timer, ?_⟩, moderationTimer_idle⟩
  generalize ((getSic s d).src i).heldAt + ((getSic s d).src i).modTimer * 100 = expiry
  have metered := setSic_meters _ d (wake (becomePending (getSic (timeTo s expiry) d) i)) (timeTo_says s expiry)
  obtain ⟨-, -, -, routed⟩ := becomePending_says (getSic (timeTo s expiry) d) i
  refine ⟨metered.retimed, metered.time, ?_⟩
  rw [getSic_setSic, if_pos rfl, (wake_says _).2.2]
  exact routed.pending

/-- A controller whose target waits for an interrupt. -/
def Sic.waiting (c : Sic) (t : Nat) : Sic := c.setTgt t { c.tgt t with idle := true }

/-- The sources held for a target, each once. -/
def heldFor (c : Sic) (t : Nat) : List Nat :=
  ((c.sources.map Prod.fst).filter (fun i => (c.src i).held && routeTo c (c.src i) == some t)).eraseDups

section
variable {s : State} {d : Nat}

theorem targetIdle_eq (served : sicServed s d = true) (t : Nat) :
    exec (.targetIdle d t) s = .next (setSic s d (wake ((heldFor ((getSic s d).waiting t) t).foldl becomePending ((getSic s d).waiting t)))) :=
  congrArg Host.Outcome.next (if_pos served)

theorem routeTo_waiting (c : Sic) (t : Nat) (x : Source) : routeTo (c.waiting t) x = routeTo c x := by
  refine routeTo_congr _ _ _ _ rfl rfl fun g => ?_
  unfold Sic.waiting
  rw [Sic.tgt_setTgt]
  split
  case isTrue here => rw [here]
  case isFalse => rfl

theorem Sic.waiting_tgt (c : Sic) (t g : Nat) : (c.waiting t).tgt g = { c.tgt g with idle := ((c.waiting t).tgt g).idle } := by
  unfold Sic.waiting
  rw [Sic.tgt_setTgt]
  split
  case isTrue here => rw [here]
  case isFalse => rfl

theorem mem_heldFor (c : Sic) (t j : Nat) : j ∈ heldFor c t ↔ (c.src j).held = true ∧ routeTo c (c.src j) = some t := by
  unfold heldFor
  rw [List.mem_eraseDups, List.mem_filter, Bool.and_eq_true, beq_iff_eq]
  exact ⟨And.right, fun h => ⟨sources_mem c j h.1, h⟩⟩

theorem heldFor_nodup (c : Sic) (t : Nat) : (heldFor c t).Nodup := nodup_eraseDups' _ _ le_rfl

/-- The line of a target does not depend on whether its core waits. -/
theorem lineOf_waiting (c : Sic) (t g : Nat) : lineOf (c.waiting t) g = lineOf c g := by
  refine (line_woken (c.waiting t) c ⟨rfl, fun g => ?_⟩ rfl g).symm
  unfold Sic.waiting
  rw [Sic.tgt_setTgt]
  split
  case isFalse => exact .inl rfl
  case isTrue here =>
    rw [← here]
    cases idle : (c.tgt t).idle
    · refine .inr ?_
      rw [← idle]
    · refine .inl ?_
      rw [← idle]

/-- The held sources of a waiting target become pending, each once, and no other source changes. -/
theorem heldFor_released (c : Sic) (t : Nat) :
    Woken (c.waiting t) ((heldFor (c.waiting t) t).foldl becomePending (c.waiting t)) ∧
    ErrKept c.err ((heldFor (c.waiting t) t).foldl becomePending (c.waiting t)).err ∧
    (∀ j, j ∉ heldFor (c.waiting t) t → ((heldFor (c.waiting t) t).foldl becomePending (c.waiting t)).src j = c.src j) ∧
    ∀ j ∈ heldFor (c.waiting t) t, Routed (c.waiting t) (c.src j) (((heldFor (c.waiting t) t).foldl becomePending (c.waiting t)).src j) := by
  refine fold_sources (R := Routed (c.waiting t)) (c.waiting t) (fun b i before => ?_) _ _ (heldFor_nodup _ t) (.refl _) fun _ _ => rfl
  obtain ⟨woken, err, others, routed⟩ := becomePending_says b i
  exact ⟨woken, err, others, fun same => by rw [same] at routed; exact routed.congr (before.routeTo _)⟩

end

/-- Settles O13: the sources held for the target become pending one after the other, and its line decides whether its core goes on waiting. -/
theorem idleTargetReleasesHeldSources : Obligations.IdleTargetReleasesHeldSources := by
  unfold Obligations.IdleTargetReleasesHeldSources
  intro s d t served
  refine ⟨_, targetIdle_eq served t, only_setSic _ _ _, ?_⟩
  rw [getSic_setSic, if_pos rfl]
  generalize getSic s d = c
  obtain ⟨released, err, others, routed⟩ := heldFor_released c t
  obtain ⟨woken, wokenErr, srcs⟩ := wake_says ((heldFor (c.waiting t) t).foldl becomePending (c.waiting t))
  have both := released.trans woken
  have due (j : Nat) : j ∈ heldFor (c.waiting t) t ↔ (c.src j).held = true ∧ routeTo c (c.src j) = some t := by
    rw [mem_heldFor, routeTo_waiting]; rfl
  refine ⟨both.ctrl, by rwa [wokenErr], fun g => ?_, fun j held => ?_, fun j free => ?_, fun free inside => ?_⟩
  · rw [both.idle g, Sic.waiting_tgt]
  · rw [srcs]
    exact (routed j ((due j).mpr held)).congr (routeTo_waiting c t _)
  · rw [srcs]
    exact others j (fun h => free ((due j).mp h))
  · have nothing : heldFor (c.waiting t) t = [] := List.eq_nil_iff_forall_not_mem.mpr fun j h => absurd ((due j).mp h).1 (by rw [free j]; decide)
    rw [nothing, List.foldl_nil, wake_idle _ _ inside, lineOf_waiting, Sic.waiting, Sic.tgt_setTgt, if_pos rfl, Bool.true_and]

end Sys2Proof.Machine
end

section
/-! Power, reset, standby, the idle block and the IDCODE register (R36, R489, R493, R494, R501 to R503, R507, R510, R515, R517, R519, R521). -/

namespace Sys2Proof.Machine

-- rails off (R489, R494, R507, R517) ------------------------------------------------------------------------------------------------

section
variable {s : State}

theorem shutdownTimeout_idle (not : ¬ (s.power.phase = 8 ∧ s.power.shutAt.isSome = true)) : exec .shutdownTimeout s = .next s := by
  have row : exec .shutdownTimeout s = execShutdownTimeout s := rfl
  rw [row]
  unfold execShutdownTimeout
  split
  case isFalse => rfl
  case isTrue phase =>
    cases trigger : s.power.shutAt with
    | none => rfl
    | some at_ => exact absurd ⟨phase, by rw [trigger]; rfl⟩ not

/-- 10 ms after its trigger a shutdown has ended the sessions and the host link. -/
theorem shutdownTimeout_ends {at_ : Nat} (phase : s.power.phase = 8) (trigger : s.power.shutAt = some at_) :
    ∃ t, exec .shutdownTimeout s = .next t ∧ t.power.shutAt = none ∧ t.power.linkUp = false ∧ t.power.phase = 8 ∧
      t.time = max s.time (at_ + 10000000) ∧ ∀ i, i < 64 → (getSes t i).st ≠ .opened := by
  have timed := timeTo_says s (at_ + 10000000)
  obtain ⟨time, power, closed⟩ := shutDown_says (timeTo s (at_ + 10000000))
  refine pow3_fin s _ _ (shutdownTimeout_eq s at_ phase trigger) (kept_link power) ?_ (time.trans timed.time) closed
  rw [kept_phase power, timed.power]
  exact phase

theorem standbyEntered_eq (phase : s.power.phase = 8) : ∃ u, exec .standbyEntered s = .next { railsOff u 9 with
    power := { (railsOff u 9).power with ibi := u.power.ibi ++ [9], stayed := true } } :=
  ⟨_, congrArg Host.Outcome.next (if_pos phase)⟩

theorem standbyEntered_idle (phase : s.power.phase ≠ 8) : exec .standbyEntered s = .next s := congrArg Host.Outcome.next (if_neg phase)

end

/-- Settles O19, row by row. -/
theorem railsGoOff : Obligations.RailsGoOff := by
  unfold Obligations.RailsGoOff
  refine fun s => ⟨fun at_ => shutdownTimeout_ends, shutdownTimeout_idle, fun phase => ?standby, standbyEntered_idle, ?loss⟩
  case standby =>
    obtain ⟨u, row⟩ := standbyEntered_eq phase
    exact ⟨_, row, rfl, rfl, rfl, rfl, rfl, rfl, rfl, rfl⟩
  case loss =>
    refine ⟨_, rfl, ?_, rfl, rfl, rfl⟩
    constructor
    case off => exact ⟨rfl, rfl, rfl⟩
    case cmds => exact ⟨rfl, rfl, rfl, rfl, rfl, rfl, rfl⟩
    case dump => rfl
    case sector => exact ⟨rfl, rfl, rfl, rfl, rfl, rfl⟩
    case outside => exact ⟨rfl, rfl⟩

-- reset (R493, R502, R503, R515, R519) ----------------------------------------------------------------------------------------------

section
variable {s : State}

theorem powerGood_boots (off : s.power.off = true) (ramping : s.power.ramping = true) :
    exec .powerGood s = .next (sampleStraps (freshBoot s false true)) := congrArg Host.Outcome.next (if_pos ⟨off, ramping⟩)

theorem powerGood_idle (not : s.power.off = false ∨ s.power.ramping = false) : exec .powerGood s = .next s := by
  refine congrArg Host.Outcome.next (if_neg ?_)
  rcases not with h | h <;> simp [h]

/-- A module after the reset request: start-up waits for PWR_EN where it is deasserted. -/
def afterRequest (s : State) : State :=
  { sampleStraps (freshBoot s true false) with power := { (sampleStraps (freshBoot s true false)).power with awaitEn := !s.power.pwrEn } }

theorem moduleReset_low (low : s.power.resetN = false) : exec .moduleReset s = .next s := congrArg Host.Outcome.next (if_pos low)

theorem moduleReset_off (high : s.power.resetN = true) (off : s.power.off = true) : exec .moduleReset s = .next (leaveStandby s) :=
  congrArg Host.Outcome.next ((if_neg (by rw [high]; decide)).trans (if_pos off))

theorem moduleReset_on (high : s.power.resetN = true) (on : s.power.off = false) : exec .moduleReset s = .next (afterRequest s) :=
  congrArg Host.Outcome.next ((if_neg (by rw [high]; decide)).trans (if_neg (by rw [on]; decide)))

theorem leaveStandby_ramps (standby : s.power.phase = 9) (en : s.power.pwrEn = true) :
    leaveStandby s = { s with power := { s.power with stayed := false, ramping := s.power.inRange } } := if_pos ⟨standby, en⟩

theorem leaveStandby_stays (not : s.power.phase ≠ 9 ∨ s.power.pwrEn = false) : leaveStandby s = s := by
  refine if_neg ?_
  rcases not with h | h <;> simp [h]

/-- The state with MOD_RESET_N at a level. -/
def withResetN (s : State) (level : Bool) : State := { s with power := { s.power with resetN := level } }

theorem modResetN_same {level : Bool} (same : s.power.resetN = level) : exec (.modResetN level) s = .next (withResetN s level) :=
  congrArg Host.Outcome.next (if_pos same)

theorem modResetN_on {level : Bool} (edge : s.power.resetN ≠ level) (on : s.power.off = false) : exec (.modResetN level) s =
    .next (if level then sampleStraps (freshBoot (withResetN s level) true false) else freshBoot (withResetN s level) true false) :=
  congrArg Host.Outcome.next ((if_neg edge).trans (if_neg (by rw [on]; decide)))

theorem modResetN_off {level : Bool} (edge : s.power.resetN ≠ level) (off : s.power.off = true) : exec (.modResetN level) s =
    .next (if s.power.phase ≠ 9 then withResetN s level else if level then sampleStraps (withResetN s level) else leaveStandby (withResetN s level)) :=
  congrArg Host.Outcome.next ((if_neg edge).trans (if_pos off))

/-- Restarting does not depend on the straps or on what PWR_EN start-up waits for. -/
theorem Restarted.sampled {t : State} (h : Restarted s t) : Restarted s (sampleStraps t) := { h with }

theorem DumpSurvives.sampled {t : State} (h : DumpSurvives s t) : DumpSurvives s (sampleStraps t) := { h with }

theorem Restarted.awaiting {t : State} (h : Restarted s t) (b : Bool) : Restarted s { t with power := { t.power with awaitEn := b } } := { h with }

theorem DumpSurvives.awaiting {t : State} (h : DumpSurvives s t) (b : Bool) : DumpSurvives s { t with power := { t.power with awaitEn := b } } := { h with }

end

/-- Power good boots a module that ramps, and does nothing to another. -/
theorem powerGood_restarts (s : State) : ∃ t, exec .powerGood s = .next t ∧
    (s.power.off = true → s.power.ramping = true →
      Restarted s t ∧ Strapped s t ∧ t.mem = [] ∧ t.trust.boots = s.trust.boots + 1 ∧ t.power.awaitEn = false) ∧
    (s.power.off = false ∨ s.power.ramping = false → t = s) := by
  by_cases ramps : s.power.off = true ∧ s.power.ramping = true
  · obtain ⟨off, ramping⟩ := ramps
    refine ⟨_, powerGood_boots off ramping, fun _ _ => ⟨?_, ⟨rfl, rfl⟩, rfl, rfl, rfl⟩, fun not => ?_⟩
    · exact Restarted.sampled (fresh_restarted s false true s.power.resetN)
    · rcases not with h | h
      · rw [h] at off; exact absurd off (by decide)
      · rw [h] at ramping; exact absurd ramping (by decide)
  · have not : s.power.off = false ∨ s.power.ramping = false := by
      rwa [not_and_or, Bool.not_eq_true, Bool.not_eq_true] at ramps
    exact ⟨s, powerGood_idle not, fun off ramping => absurd ⟨off, ramping⟩ ramps, fun _ => rfl⟩

/-- The reset request restarts a powered module, and begins the ramp of one in STANDBY. -/
theorem moduleReset_restarts (s : State) : ∃ t, exec .moduleReset s = .next t ∧
    (s.power.off = false → s.power.resetN = true →
      Restarted s t ∧ Strapped s t ∧ DumpSurvives s t ∧ t.trust.boots = s.trust.boots ∧ t.power.awaitEn = !s.power.pwrEn) ∧
    (s.power.resetN = false → t = s) ∧
    (s.power.off = true → s.power.resetN = true → s.power.phase = 9 → s.power.pwrEn = true →
      t = { s with power := { s.power with stayed := false, ramping := s.power.inRange } }) ∧
    (s.power.off = true → (s.power.phase ≠ 9 ∨ s.power.pwrEn = false) → t = s) := by
  cases level : s.power.resetN
  case false =>
    exact ⟨s, moduleReset_low level, fun _ h => by simp at h, fun _ => rfl, fun _ h => by simp at h, fun _ _ => rfl⟩
  case true =>
    cases off : s.power.off
    case false =>
      refine ⟨_, moduleReset_on level off, fun _ _ => ⟨?_, ⟨rfl, rfl⟩, ?_, rfl, rfl⟩, fun h => by simp at h, fun h => by simp at h, fun h => by simp at h⟩
      · exact (Restarted.sampled (fresh_restarted s true false s.power.resetN)).awaiting _
      · exact (DumpSurvives.sampled (fresh_dump s false s.power.resetN)).awaiting _
    case true =>
      exact ⟨_, moduleReset_off level off, fun h => by simp at h, fun h => by simp at h, fun _ _ => leaveStandby_ramps, fun _ => leaveStandby_stays⟩

/-- An edge of MOD_RESET_N restarts a powered module. -/
theorem modResetN_edge_restarts {s : State} {level : Bool} (edge : s.power.resetN ≠ level) (on : s.power.off = false) :
    ∃ t, exec (.modResetN level) s = .next t ∧ t.power.resetN = level ∧ Restarted s t ∧ DumpSurvives s t ∧ t.trust.boots = s.trust.boots ∧
      (level = true → Strapped s t) ∧ (level = false → t.power.keeperStrap = s.power.keeperStrap ∧ t.power.addrStrap = s.power.addrStrap) := by
  have restarted := fresh_restarted s true false level
  have dumped := fresh_dump s false level
  refine ⟨_, modResetN_on edge on, ?_⟩
  cases level
  · exact ⟨rfl, restarted, dumped, rfl, fun h => absurd h (by decide), fun _ => ⟨rfl, rfl⟩⟩
  · exact ⟨rfl, restarted.sampled, dumped.sampled, rfl, fun _ => ⟨rfl, rfl⟩, fun h => absurd h (by decide)⟩

/-- An edge of MOD_RESET_N at a module that is off: OFF keeps its level alone, and in STANDBY the rise samples the straps and the fall begins the ramp. -/
theorem modResetN_edge_off {s : State} {level : Bool} (edge : s.power.resetN ≠ level) (off : s.power.off = true) :
    ∃ t, exec (.modResetN level) s = .next t ∧ t.power.resetN = level ∧
      (s.power.phase ≠ 9 ∨ (level = false ∧ s.power.pwrEn = false) → t = withResetN s level) ∧
      (s.power.phase = 9 → level = true →
        t = { s with power := { s.power with resetN := true, keeperStrap := s.power.keeperNow, addrStrap := s.power.addrNow } }) ∧
      (s.power.phase = 9 → level = false → s.power.pwrEn = true →
        t = { s with power := { s.power with resetN := false, stayed := false, ramping := s.power.inRange } }) := by
  refine ⟨_, modResetN_off edge off, ?_⟩
  by_cases standby : s.power.phase = 9
  · rw [if_neg (not_not.mpr standby)]
    cases level
    case true =>
      exact ⟨rfl, fun h => by simp [standby] at h, fun _ _ => rfl, fun _ h => absurd h (by decide)⟩
    case false =>
      cases en : s.power.pwrEn
      · rw [if_neg (by decide), leaveStandby_stays (s := withResetN s false) (.inr en)]
        exact ⟨rfl, fun _ => rfl, fun _ h => absurd h (by decide), fun _ _ h => absurd h (by decide)⟩
      · rw [if_neg (by decide), leaveStandby_ramps (s := withResetN s false) standby en]
        exact ⟨rfl, fun h => by simp [standby] at h, fun _ h => absurd h (by decide), fun _ _ _ => rfl⟩
  · rw [if_pos standby]
    exact ⟨rfl, fun _ => rfl, fun h => absurd h standby, fun h => absurd h standby⟩

/-- Settles O17, trigger by trigger. -/
theorem resetsRestartStartup : Obligations.ResetsRestartStartup := by
  unfold Obligations.ResetsRestartStartup
  refine fun s => ⟨powerGood_restarts s, moduleReset_restarts s, fun level => ?_⟩
  by_cases same : s.power.resetN = level
  · refine ⟨_, modResetN_same same, rfl, fun _ edge => absurd same edge, fun _ => rfl, fun _ _ low high => ?_, fun _ _ high low => ?_⟩
    · rw [low, high] at same; exact absurd same (by decide)
    · rw [high, low] at same; exact absurd same (by decide)
  · cases off : s.power.off
    case false =>
      obtain ⟨t, row, atLevel, restarted⟩ := modResetN_edge_restarts same off
      refine ⟨t, row, atLevel, fun _ _ => restarted, fun h => ?_, fun h => by simp at h, fun h => by simp at h⟩
      rcases h with h | ⟨h, -⟩
      · exact absurd h same
      · simp at h
    case true =>
      obtain ⟨t, row, atLevel, kept, rises, falls⟩ := modResetN_edge_off same off
      refine ⟨t, row, atLevel, fun h => by simp at h, fun h => ?_, fun _ standby _ high => rises standby high, fun _ standby _ low en => falls standby low en⟩
      rcases h with h | ⟨-, h⟩
      · exact absurd h same
      · exact kept h

-- power requests (R493, R507, R510, R519) -------------------------------------------------------------------------------------------

section
variable {s : State}

theorem beginShutdown_off (off : s.power.off = true) : beginShutdown s = { s with power := { s.power with ramping := false } } := if_pos off

theorem beginShutdown_ready (on : s.power.off = false) (ready : s.power.phase = 7) :
    beginShutdown s = { s with power := { s.power.at 8 with shutAt := some s.time } } := by
  unfold beginShutdown
  rw [if_neg (by rw [on]; decide), if_pos ready, setPhase_form (by rw [ready]; decide)]

/-- The state with PWR_EN deasserted. -/
def withoutPwrEn (s : State) : State := { s with power := { s.power with pwrEn := false } }

theorem pwrEnDeassert_eq (s : State) : exec .pwrEnDeassert s = .next (beginShutdown (withoutPwrEn s)) := rfl

theorem standby_on (on : s.power.off = false) : exec .standby s = .next (beginShutdown s) := congrArg Host.Outcome.next (if_neg (by rw [on]; decide))

theorem standby_off (off : s.power.off = true) : exec .standby s = .next s := congrArg Host.Outcome.next (if_pos off)

theorem hotSwapRetry_ramps (due : s.power.off = true ∧ s.power.pwrEn = true ∧ s.power.ramping = false ∧ s.power.stayed = false) :
    exec .hotSwapRetry s = .next { s with power := { s.power with inRange := true, ramping := true } } := congrArg Host.Outcome.next (if_pos due)

theorem hotSwapRetry_idle (not : ¬ (s.power.off = true ∧ s.power.pwrEn = true ∧ s.power.ramping = false ∧ s.power.stayed = false)) :
    exec .hotSwapRetry s = .next s := congrArg Host.Outcome.next (if_neg not)

/-- The power registers after PWR_EN is asserted. -/
def Power.asserted (p : Power) : Power :=
  { p with pwrEn := true, awaitEn := false, stayed := false, ramping := p.ramping || (p.off && p.inRange) }

theorem pwrEnAssert_eq (s : State) : exec .pwrEnAssert s = .next { s with power := s.power.asserted } := by
  have row : exec .pwrEnAssert s = execPwrEnAssert s := rfl
  rw [row]
  unfold execPwrEnAssert Power.asserted
  dsimp only
  split
  case isTrue due => rw [due.1, due.2, Bool.and_true, Bool.or_true]
  case isFalse due => rw [show (s.power.off && s.power.inRange) = false by simpa using due, Bool.or_false]

end

/-- Settles O18, request by request. -/
theorem powerRequests : Obligations.PowerRequests := by
  unfold Obligations.PowerRequests
  refine fun s => ⟨⟨_, pwrEnAssert_eq s, rfl, rfl, rfl, rfl, rfl, rfl⟩, ?retry, fun on ready => ⟨?deassert, ?standby⟩, fun off => ⟨?rest, standby_off off⟩⟩
  case retry =>
    by_cases due : s.power.off = true ∧ s.power.pwrEn = true ∧ s.power.ramping = false ∧ s.power.stayed = false
    · exact ⟨_, hotSwapRetry_ramps due, rfl, rfl, fun _ _ _ _ => ⟨rfl, rfl⟩, fun not => absurd due not⟩
    · exact ⟨s, hotSwapRetry_idle due, rfl, rfl, fun a b c e => absurd ⟨a, b, c, e⟩ due, fun _ => rfl⟩
  case deassert =>
    refine ⟨_, pwrEnDeassert_eq s, ?_⟩
    rw [beginShutdown_ready (s := withoutPwrEn s) on ready]
    exact ⟨rfl, rfl, rfl, rfl, rfl⟩
  case standby =>
    refine ⟨_, standby_on on, ?_⟩
    rw [beginShutdown_ready on ready]
    exact ⟨rfl, rfl, rfl, rfl⟩
  case rest =>
    refine ⟨_, pwrEnDeassert_eq s, ?_⟩
    rw [beginShutdown_off (s := withoutPwrEn s) off]
    exact ⟨rfl, rfl, rfl⟩

-- the idle block (R36, R501) --------------------------------------------------------------------------------------------------------

/-- What goes on of itself in a nanosecond, once device time has moved. -/
def afterNanosecond (s : State) : State :=
  poundWatches (releaseAll (admitStaged (pushWbs (linkTick (fenceFulls (befall (tickCmds s)))) (writingBack (linkTick (fenceFulls (befall (tickCmds s))))))))

theorem afterNanosecond_timed (s : State) : Timed s (afterNanosecond s) := by
  unfold afterNanosecond
  have ticked : Timed s (tickCmds s) := Timed.foldl _ tickCmd_timed s
  have fenced : Timed s (fenceFulls (befall (tickCmds s))) := (ticked.trans (befall_timed _)).trans (Timed.foldl _ fenceFull_timed _)
  have linked := fenced.trans (linkTick_timed _)
  generalize linkTick (fenceFulls (befall (tickCmds s))) = t at linked ⊢
  have admitted := (linked.trans (pushWbs_beside t (writingBack t) (Beside.refl t)).timed).trans (admitStaged_timed _)
  exact (admitted.trans (releaseAll_carried _ (Carried.refl _)).timed).trans (poundWatches_timed _)

theorem idleStep_ready {s : State} (isReady : s.power.phase = 7) : idleStep s = afterNanosecond (timeTo (boardTick s) (s.time + 1)) :=
  if_pos (beq_iff_eq.mpr isReady)

theorem idleStep_starting {s : State} (starting : s.power.phase ≠ 7) : idleStep s = boardTick s :=
  if_neg (fun h => starting (beq_iff_eq.mp h))

/-- Settles O2: at READY what goes on of itself moves no time beyond the nanosecond; before it the board's pins and coolant change alone. -/
theorem idleBlockKeepsTime : Obligations.IdleBlockKeepsTime := by
  unfold Obligations.IdleBlockKeepsTime
  intro s empty
  refine ⟨_, step_of_idle empty, ?_⟩
  by_cases isReady : s.power.phase = 7
  · rw [idleStep_ready isReady, if_pos isReady]
    obtain ⟨pending, time, sessions, cfg⟩ := afterNanosecond_timed (timeTo (boardTick s) (s.time + 1))
    have timed := timeTo_says (boardTick s) (s.time + 1)
    refine ⟨?_, ?_, sessions.trans timed.sessions, cfg.trans timed.cfg, fun h => absurd isReady h⟩
    · exact (pending.trans timed.pending).trans empty
    · exact (time.trans timed.time).trans (Nat.max_eq_right (Nat.le_succ _))
  · rw [idleStep_starting isReady, if_neg isReady]
    exact ⟨empty, rfl, rfl, rfl, fun _ => ⟨rfl, rfl⟩⟩

-- IDCODE (R521) ---------------------------------------------------------------------------------------------------------------------

section
variable {s : State}

theorem tapLive_iff : tapLive s = true ↔ s.power.off = false ∨ s.power.phase = 9 := by
  unfold tapLive
  rw [Bool.or_eq_true, Bool.not_eq_true', beq_iff_eq]

theorem idcode_answers (live : tapLive s = true) :
    ∃ t, exec .idcode s = .next t ∧ t.answers = s.answers ++ [.tap 0x02 false, .reg idcodeValue] := by
  refine ⟨_, congrArg Host.Outcome.next (if_pos live), ?_⟩
  unfold loadTap
  rw [live]
  exact List.append_assoc ..

theorem tapReset_live (live : tapLive s = true) : tapReset s = { s with tap := { s.tap with ir := 0x02, live := false } } := if_pos live

/-- The fields of the value that the IDCODE row shifts out (R521). -/
theorem idcodeValue_fields : idcodeValue < 2 ^ 32 ∧ idcodeValue / 2 ^ 28 % 2 ^ 4 = 0x1 ∧ idcodeValue / 2 ^ 12 % 2 ^ 16 = 0x7A08 ∧
    idcodeValue / 2 % 2 ^ 11 = Config.jep106 % 2 ^ 11 ∧ idcodeValue % 2 = 1 := by
  unfold idcodeValue
  omega

end

/-- Settles O52. -/
theorem idcodeNamesTheModule : Obligations.IdcodeNamesTheModule := by
  unfold Obligations.IdcodeNamesTheModule
  intro s powered
  have live := tapLive_iff.mpr powered
  refine ⟨?_, ?_, rfl⟩
  · obtain ⟨t, row, answers⟩ := idcode_answers live
    exact ⟨t, idcodeValue, row, answers, idcodeValue_fields⟩
  · have row : exec .testLogicReset s = .next (tapReset s) ∧ exec .trstN s = .next (tapReset s) := ⟨rfl, rfl⟩
    rw [tapReset_live live] at row
    rintro i (rfl | rfl)
    · exact ⟨_, row.1, rfl, rfl⟩
    · exact ⟨_, row.2, rfl, rfl⟩

end Sys2Proof.Machine
end
